-- ==== Sys2Proof/Word.lean ====
section
/-! DEFINITION. The word types of the model (R12, R13): a byte, and the unsigned and signed readings of a
field value. A register field is held as a natural number below 2^width; bytes of frames, descriptors,
messages and memory are 8-bit vectors. -/

namespace Sys2Proof

/-- One byte of a frame, a structure or a memory. -/
abbrev Byte := BitVec 8

/-- A byte string, lowest address (or first on the wire) first. -/
abbrev Bytes := List Byte

end Sys2Proof
end

