-- ==== Sys2Proof/Machine/Map.lean ====
section
/-! DEFINITION. Sparse tables. A table of the device is a list of (index, value) pairs with strictly rising
indices; an index that is not listed holds the table's default. Equal tables are then equal lists. -/

namespace Sys2Proof.Machine

/-- A sparse table keyed by a natural number. -/
abbrev SMap (α : Type) := List (Nat × α)

/-- The listed value at `k`, if there is one. -/
def SMap.find? {α : Type} (m : SMap α) (k : Nat) : Option α :=
  match m with
  | [] => none
  | (j, v) :: r => if j = k then some v else SMap.find? r k

/-- The table without index `k`. -/
def SMap.del {α : Type} (m : SMap α) (k : Nat) : SMap α :=
  match m with
  | [] => []
  | (j, v) :: r => if j = k then SMap.del r k else (j, v) :: SMap.del r k

/-- The table with `v` listed at `k`, at its place in the rising order. -/
def SMap.ins {α : Type} (m : SMap α) (k : Nat) (v : α) : SMap α :=
  match m with
  | [] => [(k, v)]
  | (j, w) :: r =>
    if k < j then (k, v) :: (j, w) :: r
    else if j = k then (k, v) :: r
    else (j, w) :: SMap.ins r k v

/-- What index `k` holds, `d` where it is not listed. -/
def SMap.get {α : Type} (d : α) (m : SMap α) (k : Nat) : α := (SMap.find? m k).getD d

/-- The table with `k` holding `v`; an entry equal to the default `d` is not listed. -/
def SMap.set {α : Type} [DecidableEq α] (d : α) (m : SMap α) (k : Nat) (v : α) : SMap α :=
  if v = d then SMap.del m k else SMap.ins m k v

/-- The canonical form: strictly rising indices. -/
def SMap.sorted {α : Type} (m : SMap α) : Bool :=
  match m with
  | [] => true
  | [_] => true
  | (j, _) :: (k, w) :: r => decide (j < k) && SMap.sorted ((k, w) :: r)

/-- The canonical form against a default: strictly rising indices, no entry equal to the default. -/
def SMap.wf {α : Type} [DecidableEq α] (d : α) (m : SMap α) : Bool :=
  SMap.sorted m && m.all (fun p => decide (p.2 ≠ d))

/-- Every listed value changed by `f`. -/
def SMap.mapVal {α β : Type} (f : α → β) (m : SMap α) : SMap β := m.map (fun p => (p.1, f p.2))

end Sys2Proof.Machine
end

