-- ==== Sys2Proof/Machine/Data/Common.lean ====
section
/-! DEFINITION. Types that commands and several blocks share: what a read of host memory brought back, the management
domains, what the device sends to its surroundings.
Log entries 11, 12, 83, 93, 144, 148, 163, 173. -/

namespace Sys2Proof.Machine

open Sys2Proof

/-- The management domains that reach the control window (R30, R660); `filbert` is the owner through an M-mode hart. -/
inductive MDom where
  | owner | filbert | reeve | debug
deriving DecidableEq, Repr

/-- The outcome of a read or write that HIF sent to host memory (R441, R442). -/
inductive RdRes where
  /-- All the bytes. -/
  | ok (data : Bytes)
  /-- All the bytes, marked poisoned. -/
  | poison (data : Bytes)
  /-- Unsupported Request. -/
  | ur
  /-- Completer Abort. -/
  | ca
  /-- Completion Timeout. -/
  | timeout
  /-- A translation fault under R439. -/
  | xlate
deriving DecidableEq, Repr

/-- What else came to pass when a command was staged or its data moved (R340, R439). -/
inductive NvHap where
  | done
  /-- A write of data to host memory met a translation fault. -/
  | hostFault
  /-- The Husk job that holds data unit `u` of the command ended with CIPHER_FAULT at that unit. -/
  | cipherFault (u : Nat)
deriving DecidableEq, Repr

/-- What the work outside Carter came to for a packet: done; a translation or host fault (R274); an uncorrectable error of
the region entry (R318); a cipher fault (R351); an opcode that the context does not permit (R274 names no item of the context
that permits one). -/
inductive Hap where
  | done | fault | regionErr | cipherFault | opcodeErr
deriving DecidableEq, Repr

/-- The three kinds of PCI Express flow-control credits (R57, R435). -/
inductive CreditKind where
  | posted | nonPosted | completion
deriving DecidableEq, Repr

/-- What drive initialization came to: the LBA size in bytes and the size in LBAs of namespaces 1 to 32, 0 for none. -/
inductive DrvInit where
  | failed
  | ok (ns : List (Nat × Nat))
deriving DecidableEq, Repr

/-- The triggers of DPC (R391). -/
inductive DpcCause where
  | surpriseDown | errFatal | errNonfatal | rpPio
deriving DecidableEq, Repr

/-- The severity of a root port's AER error (R390). -/
inductive AerSev where
  | cor | nonfatal | fatal
deriving DecidableEq, Repr

/-- A drive's inbound request (R384, R394). -/
inductive DrvReq where
  | write (data : Bytes) (ep : Bool)
  | read (len : Nat)
  | atomic
deriving DecidableEq, Repr

/-- What arrives on an Ethernet port. -/
inductive Wire where
  /-- A frame with its FCS; `cut` says that a loss of lock cut it short. -/
  | frame (data : Bytes) (cut : Bool)
  /-- An 802.3br fragment of the preempted frame numbered `n`: the first one, or the one that fragment count `k` marks; it
  ends with its mCRC, or with the FCS of the frame (R65). -/
  | fragment (n : Fin 4) (k : Option (Fin 4)) (data : Bytes)
  /-- An 802.3br fragment that cannot be reassembled. -/
  | badFragment
  /-- The 802.3br verify request, and the response to one. -/
  | verify | respond
deriving DecidableEq, Repr

/-- Why a port lost its link (R69). -/
inductive Loss where
  | lane (l : Nat) | pmd (l : Nat) | alignment | symbolErrors | localFault | remoteFault
deriving DecidableEq, Repr

/-- What comes of one comparison (R340). -/
inductive BlockRes where
  /-- The outputs of a pair are equal. -/
  | same
  /-- They differ; the retry on a second pair matches or differs. -/
  | retry (pair : Fin 128) (ok : Bool)
  /-- The GHASH multipliers disagree, and after a recomputation agree or not. -/
  | ghash (ok : Bool)
deriving DecidableEq, Repr

/-- What identifies the source of a frame on an internal input (R39). -/
inductive Src where
  /-- A Jolis ring (global number). -/
  | ring (r : Nat)
  /-- A Carter connection. -/
  | conn (c : Nat)
  /-- A Filbert transmit channel. -/
  | chan (c : Nat)
  /-- A Sahrov link, with the flow hash of the Sahrov frame. -/
  | sahrov (link : Nat) (hash : Nat)
  /-- An Ethernet port. -/
  | port (p : Nat)
  /-- A Tallyman queue, for the internal outputs. -/
  | queue (q : Nat)
deriving DecidableEq, Repr

/-- What a read of a firmware slot of the boot flash brought (R612, R616): its bytes from the slot's start, or an error. -/
inductive FlashRd where
  | ok (data : Bytes)
  | error
deriving DecidableEq, Repr

/-- The SPDM request of a row (R623): the secured session it came in, its version byte, its two parameters and what follows
them. -/
structure SpdmReq where
  sess : Option (BitVec 32)
  ver : BitVec 8
  p1 : BitVec 8
  p2 : BitVec 8
  body : Bytes
deriving DecidableEq, Repr

/-- The data of a write to the control window (R660 to R663): a word, two words, or some bytes of a word. -/
inductive RegVal where
  | w4 (v : BitVec 32)
  | w8 (v : BitVec 64)
  | part (enables : BitVec 4) (v : BitVec 32)
deriving DecidableEq, Repr

/-- An inbound memory request (R426): dwords read, or written, with the byte enables of the first and the last, or an
AtomicOp. -/
inductive MemReq where
  | read (dwords : Fin 1025) (first last : BitVec 4)
  | write (data : Bytes) (first last : BitVec 4) (ep : Bool)
  | atomic
deriving DecidableEq, Repr

/-- What the hardware meets as a hart executes an instruction: nothing; an uncorrectable ECC error in the core that affects it,
with the address that mtval takes (R511); an HBM uncorrectable error in the bytes it loads (R511). -/
inductive RvHap where
  | fine | coreError (addr : BitVec 64) | hbmError
deriving DecidableEq, Repr

/-- What starts a PORT reset (R446): HOST_PERST_N asserted and released, a hot reset, a link down. -/
inductive PortCause where
  | perst | hotReset | linkDown
deriving DecidableEq, Repr

/-- Pins the device drives (R638 to R641). -/
inductive OutPin where
  | faultN | boardRstReqN | ppsOut | rclkOut (n : Nat) | hostClkreqN (a : Nat)
  | srpPwrEn (n : Nat) | srpPerstN (n : Nat) | srpRefclk (n : Nat) | srpAledN (n : Nat) | srpPledN (n : Nat)
deriving DecidableEq, Repr

/-- What the device sends to its surroundings; the model's record of it. -/
inductive Emit where
  /-- A frame begun on an Ethernet port, without FCS; `stomp` says that it ends with a stomped FCS (R78). -/
  | frame (port : Nat) (data : Bytes) (stomp : Bool)
  /-- The frame last begun on a port is cut: this fragment carried `n` bytes of it and ends with `mcrc` (R68, R78). -/
  | fragEnd (port n mcrc : Nat)
  /-- The remainder of the frame that was cut goes on. -/
  | fragCont (port : Nat)
  /-- A PFC frame: the enabled priorities and the quanta sent for them. -/
  | pfc (port : Nat) (prios : Nat) (quanta : Nat)
  /-- A PAUSE frame. -/
  | pause (port : Nat) (quanta : Nat)
  /-- The 802.3br verify request of a port. -/
  | verify (port : Nat)
  /-- The 802.3br verify response of a port. -/
  | respond (port : Nat)
  /-- Link training restarted on a port. -/
  | train (port : Nat)
  /-- A Sahrov unit on the link toward a STACK_ID. -/
  | unit (link : Nat) (bytes : Bytes)
  /-- A write request to host memory, with its Relaxed Ordering and EP bits and the PASID carried. -/
  | hostWrite (ap fn addr : Nat) (data : Bytes) (ro ep : Bool) (pasid : Option Nat)
  /-- A 64-bit AtomicOp request: FetchAdd, or CAS where `cas` is set, with its operands. -/
  | hostAtomic (ap fn addr : Nat) (cas : Bool) (a b : Nat) (pasid : Option Nat)
  /-- A read request to host memory. -/
  | hostRead (ap fn tag addr len : Nat) (pasid : Option Nat)
  /-- An interrupt message. -/
  | intr (ap fn addr data : Nat)
  /-- A completion the device returns: status 0 success, 1 UR, 4 CA. -/
  | cpl (ap fn status : Nat) (data : Bytes)
  /-- A Translation Request. -/
  | transReq (ap fn page : Nat) (pasid : Option Nat)
  /-- A Page Request. -/
  | pageReq (ap fn page grp : Nat) (pasid : Option Nat)
  /-- An Invalidation Completion. -/
  | invCpl (ap fn itag : Nat)
  /-- An error message of a function: 0 correctable, 1 non-fatal, 2 fatal. -/
  | errMsg (ap fn sev : Nat)
  /-- A host link retrained, or brought down. -/
  | hostLink (ap : Nat) (up : Bool)
  /-- A command submitted to a drive: opcode, drive namespace, first block, blocks less one, the bus address of its data, FUA. -/
  | drive (rp cid opcode nsid lba nlb addr : Nat) (fua : Bool)
  /-- An admin command submitted to a drive controller, or an action on its link. -/
  | driveCtl (rp kind arg : Nat)
  /-- A completion to a drive's inbound request: 0 success, 1 UR. -/
  | driveCpl (rp status : Nat) (data : Bytes)
  /-- An MCTP message sent by the Reeve. -/
  | mctp (bytes : Bytes)
  /-- A range of the boot flash erased, and bytes written to it (R612, R626). -/
  | flashErase (off len : Nat)
  | flashWrite (off : Nat) (data : Bytes)
  /-- A PMBus VOUT_COMMAND, in mV. -/
  | vout (mv : Nat)
  /-- A pin driven to a level; driven low and high in turn at 1.5 Hz (R386); released to high impedance (R641). -/
  | pin (p : OutPin) (level : Bool)
  | pinBlink (p : OutPin)
  | pinZ (p : OutPin)
  /-- Every output outside the always-on island released to high impedance (R641). -/
  | hiZBase
  /-- The SerDes PLL of an octet offset by a fraction of its frequency, in units of 2^-40 (R552). -/
  | steer (octet : Nat) (frac : Int)
  /-- A TLP with ID-Based Ordering set. -/
  | ido (e : Emit)
  /-- Every output released to high impedance except FAULT_N and BOARD_RST_REQ_N (R603). -/
  | hiZ
  /-- The value a register read, a debug access or a DBGREG operation returned. -/
  | data (v : Nat)
  /-- An access that took a fault (R663) or was answered by none. -/
  | accessFault
deriving DecidableEq, Repr

end Sys2Proof.Machine
end

