-- ==== Sys2Proof/Syntax.lean ====
section
/-! DEFINITION. The commands of the block: one constructor per row of the table of operations. A command's operands are what
its sender chooses or what happens outside the device (the bytes a host read brings back, the frame on a wire, which timer
ran out); everything else a command does is worked out from the state.
Log entries 9. -/

namespace Sys2Proof

/-- A command. -/
inductive Instr where
  /-- REFCLK_LOST (R36): No REFCLK edge for 1 µs: the always-on island declares REFCLK lost and moves the Reeve and
  Bellman onto the internal oscillator while the root PLL holds. -/
  | refclkLost
  /-- REFCLK_LOSS_TIMEOUT (R36): REFCLK has not returned within 1 ms of the loss, so the Reeve gates every data-path
  domain and records the cause. -/
  | refclkLossTimeout
  /-- REFCLK_RETURN (R36): REFCLK edges reappear after a loss and the island leaves the oscillator. -/
  | refclkReturn
  /-- FRAME_RECEIVE (R72): A frame arrives on an Ethernet port and is checked, timestamped and passed to its ingress
  pipeline when the port is UP. -/
  | frameReceive (p : Fin 128) (w : Machine.Wire)
  /-- HBM_LOOKUP_COMPLETE (R130): The bucket read of an HBM-homed lookup returns and the waiting packet resumes, or
  takes LOOKUP_ERROR. -/
  | hbmLookupComplete (p : Fin 16) (err : Option (Fin 4))
  /-- INTERNAL_INPUT_FRAME (R39): A frame from a host, Carter, Filbert or Sahrov enters the internal input of the
  pipeline chosen by flow hash. -/
  | internalInputFrame (p : Fin 16)
  /-- ESP_INNER_REENTRY (R148): After decryption the inner packet re-enters an internal input with PASS2 set, or is
  dropped on ICV failure. -/
  | espInnerReentry
  /-- PATTERN_SCAN_COMPLETE (R153): The pattern matcher finishes scanning a packet, counts matches and may send a
  report copy. -/
  | patternScanComplete (e : Fin 2)
  /-- FRAG_ENTRY_EXPIRY (R139): A fragment-table entry reaches FRAG_LIFE and stops being live. -/
  | fragEntryExpiry
  /-- EGRESS_SELECT (R218): An eligible egress point selects the next frame down its scheduler tree. -/
  | egressSelect (e : Fin 136)
  /-- SELECTION_DISPLACE (R220): A higher-ranked child becomes eligible, or the selected frame loses eligibility, and
  the unstarted selected frame is returned to its queue. -/
  | selectionDisplace (e : Fin 136)
  /-- FRAME_TRANSMIT_START (R223): The selected frame's first byte is transmitted and shapers, finish tags and V are
  charged. -/
  | frameTransmitStart (e : Fin 136) (under : Bool)
  /-- PFC_REFRESH (R182): While XOFF stays set, ETH sends PFC again every QUANTA/2 quanta. -/
  | pfcRefresh (p : Fin 128) (pri : Fin 8)
  /-- PFC_FRAME_RECEIVE (R67): A received PFC or PAUSE frame pauses the named priorities at the port's egress. -/
  | pfcFrameReceive (p : Fin 128) (pause : Bool) (stop go : BitVec 8)
  /-- PAUSE_QUANTA_EXPIRY (R67): The pause quanta of a priority run out and it becomes eligible again. -/
  | pauseQuantaExpiry (p : Fin 128) (pri : Fin 8)
  /-- ETH_APPLY (R62): A write of 1 to ETH_OCT_CFG.APPLY checks all port configurations of the octet and applies them
  or sets CFG_ERR. -/
  | ethApply (o : Fin 16)
  /-- LINK_LOST (R69): A port loses its link and moves from UP to HOLD or DOWN. -/
  | linkLost (p : Fin 128) (c : Machine.Loss)
  /-- PORT_QUALIFIED (R70): Every lane stays locked and aligned without fault for UP_QUAL × 100 µs and the port
  enters UP. -/
  | portQualified (p : Fin 128)
  /-- HOLD_TIMER_EXPIRY (R72): The hold timer expires, the port enters DOWN and every queue of the port is flushed.
  -/
  | holdTimerExpiry (p : Fin 128)
  /-- FLUSH_CELL_RETURN (R201): Cells of a flushed queue return to their pools at no fewer than 32 per CLK_PIPE
  cycle. -/
  | flushCellReturn (extra : Nat)
  /-- LINK_TRAINING_TIMEOUT (R70): IEEE 802.3 link training times out and ETH restarts it with the port in TRAINING.
  -/
  | linkTrainingTimeout (p : Fin 128)
  /-- VERIFY_TIMEOUT (R68): The 802.3br verify procedure's 10 ms timer expires and verification is retried or fails.
  -/
  | verifyTimeout (p : Fin 128)
  /-- LANE_CDR_LOSS (R83): A lane loses CDR lock, retries lock and may count a lane failure. -/
  | laneCdrLoss (x : Fin 128) (aligned : Bool)
  /-- PMD_FAULT (R83): A lane reports a PMD fault, which is a lane failure. -/
  | pmdFault (x : Fin 128)
  /-- FEC_UNCORRECTED_BURST (R83): 16 or more uncorrected FEC codewords within 1 ms count a failure of the lane. -/
  | fecUncorrectedBurst (x : Fin 128) (corrected bad : Nat)
  /-- SAHROV_UNIT_RECEIVE (R90): A Sahrov unit arrives and is checked, admitted in SEQ order, delivered or discarded
  with a NAK. -/
  | sahrovUnitReceive (j : Fin 4) (u : Bytes)
  /-- SAHROV_DATA_SEND (R94): The sender transmits a DATA unit once replay buffer room and credit for its class
  allow. -/
  | sahrovDataSend (j : Fin 4)
  /-- SAHROV_REPLAY_TIMEOUT (R92): 10 µs pass without an advancing ACK and every unacknowledged unit is replayed. -/
  | sahrovReplayTimeout (j : Fin 4)
  /-- SAHROV_ACK_TIMER (R93): The receiver sends its cumulative ACK at least once per µs while admitted units are
  unacknowledged. -/
  | sahrovAckTimer (j : Fin 4)
  /-- HELLO (R99): A HELLO control word is received; a duplicate STACK_ID sets DUP_ID. -/
  | hello (j id : Fin 4) (lanes : BitVec 8)
  /-- STK_ACK (R92): An ACK control word frees replay buffer, or with NAK set triggers a replay. -/
  | stkAck (j : Fin 4) (seq : BitVec 16) (nak : Bool)
  /-- STK_CREDIT (R94): A CREDIT control word raises the credit limit of a traffic class. -/
  | stkCredit (j : Fin 4) (tc : Fin 8) (lim : BitVec 32)
  /-- KEEPALIVE (R97): A KEEPALIVE control word is received on a link. -/
  | keepalive (j : Fin 4) (beat : BitVec 32) (lost : Bool)
  /-- KEEPALIVE_TIMER (R97): Every KA_PERIOD µs the device sends a KEEPALIVE on every link. -/
  | keepaliveTimer
  /-- PEER_LOSS_TIMEOUT (R97): No valid unit for LOSS_TIME × 100 µs and the peer on the link is declared lost. -/
  | peerLossTimeout (j : Fin 4)
  /-- TIME (R550): A TIME control word is received and stamped for the stack time exchange. -/
  | time (j : Fin 4) (seq : BitVec 16) (sec : BitVec 48) (ns : BitVec 30) (frac : BitVec 16)
  /-- TIME_RPT (R550): A TIME_RPT returns t4 and the timestamp set is fed to the offset engine. -/
  | timeRpt (j : Fin 4) (seq : BitVec 16) (sec : BitVec 48) (ns : BitVec 30) (frac : BitVec 16)
  /-- STATE_MARK (R102): A STATE_MARK closes a shared-state update or opens or closes a snapshot at a member. -/
  | stateMark (j : Fin 4) (seq : BitVec 32) (kind : Fin 3)
  /-- STATE_ACK (R100): The master receives a member's acknowledgement of the last state sequence applied. -/
  | stateAck (j : Fin 4) (seq : BitVec 32)
  /-- MASTER_JOIN (R102): A master that joins sends a snapshot of all shared state to the members. -/
  | masterJoin
  /-- STK_DEST_WRITE (R95): CTRL operation 0x70 replaces the stack destination of a queue. -/
  | stkDestWrite (r : Fin 262144) (x : Machine.RdRes)
  /-- STK_DQMAP_WRITE (R95): CTRL operation 0x71 replaces an entry of the stack delivery map. -/
  | stkDqmapWrite (r : Fin 262144) (x : Machine.RdRes)
  /-- TBL_INSERT (R131): CTRL operation 0x10 inserts entries, displacing others or using the stash. -/
  | tblInsert (r : Fin 262144) (x : Machine.RdRes)
  /-- TBL_DELETE (R132): CTRL operation 0x11 deletes entries and moves a stash entry into a freed position. -/
  | tblDelete (r : Fin 262144) (x : Machine.RdRes)
  /-- TBL_READ (R154): CTRL operation 0x12 writes ACTION, ACTION_DATA and HIT back into each record. -/
  | tblRead (r : Fin 262144) (x : Machine.RdRes)
  /-- ACT_WRITE (R154): CTRL operation 0x14 replaces action entries. -/
  | actWrite (r : Fin 262144) (x : Machine.RdRes)
  /-- NODE_WRITE (R113): CTRL operation 0x15 writes parse nodes into the shadow graph. -/
  | nodeWrite (r : Fin 262144) (x : Machine.RdRes)
  /-- GRAPH_COMMIT (R156): CTRL operation 0x16 makes the shadow parse graph active between two packets. -/
  | graphCommit (r : Fin 262144)
  /-- EDIT_WRITE (R676): CTRL operation 0x17 replaces edit programs, refusing malformed ones. -/
  | editWrite (r : Fin 262144) (x : Machine.RdRes)
  /-- TMPL_WRITE (R154): CTRL operation 0x18 replaces insert templates. -/
  | tmplWrite (r : Fin 262144) (x : Machine.RdRes)
  /-- PAT_WRITE (R152): CTRL operation 0x19 writes patterns into the shadow pattern set. -/
  | patWrite (r : Fin 262144) (x : Machine.RdRes)
  /-- PAT_COMMIT (R156): CTRL operation 0x1A makes the shadow pattern set active. -/
  | patCommit (r : Fin 262144)
  /-- CNT_READ (R154): CTRL operation 0x1B reads counter pairs, optionally clearing them. -/
  | cntRead (r : Fin 262144) (x : Machine.RdRes)
  /-- FRAG_FLUSH (R154): CTRL operation 0x1C invalidates every fragment-table entry. -/
  | fragFlush (r : Fin 262144)
  /-- TABLE_ENABLE (R134): A write of WIN_TBL EN from 0 to 1 checks the placement and starts clearing, or sets
  CFG_ERR. -/
  | tableEnable (t : Fin 64)
  /-- TABLE_READY (R134): Clearing of an enabled table completes and READY is set. -/
  | tableReady (t : Fin 64)
  /-- TABLE_DISABLE (R134): A write of WIN_TBL EN to 0 disables the table and discards its entries. -/
  | tableDisable (t : Fin 64)
  /-- GRANARY_ENABLE (R174): A write of GRN_CFG.EN checks the pool configuration and enables admission, or is
  refused. -/
  | granaryEnable (en : Bool)
  /-- QPROF_MIN_WRITE (R175): A write of GRN_QPROF MIN that would raise RESERVE_SUM above RESERVE is ignored with
  CFG_ERR. -/
  | qprofMinWrite (ix : Fin 64) (v : BitVec 20)
  /-- HEADROOM_CONFIG_WRITE (R183): A write of GRN_IN_CFG or GRN_PFC_PROF that would raise the headroom sum above
  HEADROOM is ignored with CFG_ERR. -/
  | headroomConfigWrite (w : (Fin 144 × BitVec 8 × Fin 16) ⊕ (Fin 16 × BitVec 20))
  /-- DEEP_RETURN (R198): Granary returns whole frames from the head of a SPILLING queue's deep part into shared
  cells. -/
  | deepReturn (q : Fin 65536) (errs : BitVec 64)
  /-- MULTICAST_MEMBER_ENQUEUE (R192): Waiting multicast members are enqueued with the remaining enqueue operations
  of a cycle. -/
  | multicastMemberEnqueue (n : Fin 33)
  /-- FILBERT_DELIVERY (R679): A whole packet for a Filbert channel is written into a frame-pool buffer and the
  channel message is sent. -/
  | filbertDelivery
  /-- MC_GROUP_WRITE (R204): CTRL operation 0x20 replaces replication group entries. -/
  | mcGroupWrite (r : Fin 262144) (x : Machine.RdRes)
  /-- MC_MEMBER_WRITE (R204): CTRL operation 0x21 replaces member entries. -/
  | mcMemberWrite (r : Fin 262144) (x : Machine.RdRes)
  /-- QMAP_WRITE (R175): CTRL operation 0x22 replaces queue map entries, or completes with NO_RESOURCE. -/
  | qmapWrite (r : Fin 262144) (x : Machine.RdRes)
  /-- GRANARY_SRAM_ERROR (R168): A Granary bank ECC error is corrected and counted, or marks the cell poisoned and is
  reported. -/
  | granarySramError (g : Fin 8) (p : Fin 4) (row : Fin 16384) (corrected : Bool)
  /-- SHAPER_REFILL (R224): Every 1 µs Tallyman refills every shaper up to its burst. -/
  | shaperRefill
  /-- GATE_EVENT (R232): An operational gate list's entry interval ends, or a cycle boundary comes, and the next
  entry's gate states and OP take effect. -/
  | gateEvent (e : Fin 128) (boundary : Bool)
  /-- GATE_CHANGE (R236): A write of 1 to TLY_GATE CHANGE checks the administrative list and computes the config
  change time. -/
  | gateChange (e : Fin 128)
  /-- GATE_CONFIG_CHANGE (R238): At the config change time the operational list is truncated and the new list takes
  over. -/
  | gateConfigChange (e : Fin 128)
  /-- GATE_DISABLE (R239): A write of 0 to TLY_GATE EN cancels any pending change, stops the list and opens all
  gates. -/
  | gateDisable (e : Fin 128)
  /-- TLY_NODE_WRITE (R245): CTRL operation 0x30 replaces scheduler nodes. -/
  | tlyNodeWrite (r : Fin 262144) (x : Machine.RdRes)
  /-- QUEUE_WRITE (R245): CTRL operation 0x31 replaces queue entries. -/
  | queueWrite (r : Fin 262144) (x : Machine.RdRes)
  /-- POL_WRITE (R230): CTRL operation 0x32 replaces policers. -/
  | polWrite (r : Fin 262144) (x : Machine.RdRes)
  /-- POL_CNT_READ (R242): CTRL operation 0x33 reads policer counters, optionally clearing them. -/
  | polCntRead (r : Fin 262144) (x : Machine.RdRes)
  /-- GATE_WRITE (R242): CTRL operation 0x34 writes the administrative gate list, or completes BUSY. -/
  | gateWrite (r : Fin 262144) (x : Machine.RdRes)
  /-- STATE_READ (R242): CTRL operation 0x35 reads shaper tokens and finish tags. -/
  | stateRead (r : Fin 262144) (x : Machine.RdRes)
  /-- WIRE_WRITE (R281): A Carter WRITE packet is checked, marked and placed at VA. -/
  | wireWrite (h : Machine.Hap)
  /-- WIRE_WRITE_IMM (R281): A Carter WRITE_IMM packet is placed and its message binds a receive entry. -/
  | wireWriteImm (h : Machine.Hap)
  /-- WIRE_SEND (R281): A Carter SEND packet is placed at OFFSET in the bound receive buffer, or draws NO_BUFFER. -/
  | wireSend (h : Machine.Hap)
  /-- WIRE_SEND_IMM (R281): A Carter SEND_IMM packet is placed and its immediate data delivered at completion. -/
  | wireSendImm (h : Machine.Hap)
  /-- READ_REQ (R281): A READ_REQ queues its READ_RESP in the receiver's own stream. -/
  | readReq (d : Machine.RdRes) (h : Machine.Hap)
  /-- READ_RESP (R281): A READ_RESP payload is placed into the buffer of the request it answers. -/
  | readResp (h : Machine.Hap)
  /-- WIRE_ATOMIC (R325): An ATOMIC packet executes once at the target and queues its ATOMIC_RESP. -/
  | wireAtomic (d : Machine.RdRes) (h : Machine.Hap)
  /-- ATOMIC_RESP (R281): An ATOMIC_RESP places the prior value for its descriptor. -/
  | atomicResp (h : Machine.Hap)
  /-- ACK (R273): An accepted ACK advances UNA, frees keep, takes credit and an RTT sample and applies the loss rule.
  -/
  | ack
  /-- NAK (R274): An accepted NAK is acted on by its code, holding the PSN or putting the connection into ERROR. -/
  | nak
  /-- CREDIT (R266): A CREDIT raises the sender's limit, or with RETRACT starts a retraction. -/
  | credit
  /-- CREDIT_RPT (R268): A CREDIT_RPT answering the latest retraction lets the receiver lower LIMIT. -/
  | creditRpt
  /-- DATA_PACKET_SEND (R294): A new segment is sent once window, credit and keep room allow. -/
  | dataPacketSend (n : Fin 16777216) (fault : Bool)
  /-- RETRANSMIT (R279): A LOST PSN is sent again from the keep, or re-read from the source, as credit allows. -/
  | retransmit (n : Fin 16777216) (x : Machine.RdRes)
  /-- RETRANSMIT_TIMEOUT (R277): The retransmission timer expires, backoff rises and unacknowledged PSNs become LOST,
  or ERROR TIMEOUT. -/
  | retransmitTimeout (n : Fin 16777216)
  /-- RNR_DELAY_EXPIRY (R294): RNR_DELAY ends and the held PSN becomes LOST for resending. -/
  | rnrDelayExpiry (n : Fin 16777216) (psn : BitVec 32)
  /-- CREDIT_REPEAT (R267): Every RTO_INIT the receive side repeats its CREDIT until a credited data packet arrives.
  -/
  | creditRepeat (n : Fin 16777216)
  /-- CREDIT_RPT_REPEAT (R268): After each RTO an unanswered retraction report is sent again. -/
  | creditRptRepeat (n : Fin 16777216)
  /-- ACK_DELAY_EXPIRY (R271): ACK_DELAY µs after the first unacknowledged mark the receiver sends an ACK. -/
  | ackDelayExpiry (n : Fin 16777216)
  /-- WRITE (R286): A WRITE descriptor sends a message to the peer's region and completes per the completion mode. -/
  | write (r : Fin 262144) (x : Machine.RdRes)
  /-- WRITE_IMM (R286): A WRITE_IMM descriptor sends a write carrying immediate data. -/
  | writeImm (r : Fin 262144) (x : Machine.RdRes)
  /-- SEND (R286): A SEND descriptor sends a message into the peer's receive buffer. -/
  | send (r : Fin 262144) (x : Machine.RdRes)
  /-- SEND_IMM (R286): A SEND_IMM descriptor sends a message with immediate data. -/
  | sendImm (r : Fin 262144) (x : Machine.RdRes)
  /-- READ (R321): A READ descriptor sends a READ_REQ and completes when the response is placed at LADDR. -/
  | read (r : Fin 262144)
  /-- ATOMIC (R325): An ATOMIC descriptor sends an atomic request and completes when the prior value is placed. -/
  | atomic (r : Fin 262144)
  /-- RECV (R323): A RECV entry is posted for binding to incoming messages. -/
  | recv (r : Fin 262144)
  /-- CONN_ALLOC (R300): CONN_ALLOC assigns a connection number in a slice and returns EPOCH_HINT. -/
  | connAlloc (r : Fin 262144)
  /-- CONN_CONNECT (R322): CONN_CONNECT checks the parameter block, allocates areas, builds the context and makes it
  ACTIVE. -/
  | connConnect (r : Fin 262144) (x : Machine.RdRes)
  /-- CONN_DESTROY (R301): CONN_DESTROY takes the connection to DRAINING or CLOSING per FORCE. -/
  | connDestroy (r : Fin 262144)
  /-- CONN_QUERY (R330): CONN_QUERY writes the connection's status image to LADDR. -/
  | connQuery (r : Fin 262144)
  /-- MR_REG (R317): MR_REG registers a memory region and returns its RKEY. -/
  | mrReg (r : Fin 262144)
  /-- MR_DEREG (R319): MR_DEREG invalidates a region and completes after its in-flight placements finish. -/
  | mrDereg (r : Fin 262144)
  /-- CONTEXT_FETCH_COMPLETE (R315): A context fetch ends, resuming parked packets and waiting work, or putting the
  connection in ERROR CONTEXT_FAULT. -/
  | contextFetchComplete (n : Fin 16777216) (x : Machine.RdRes)
  /-- EVICTION (R311): An evictable connection is recorded in its parking ledger and written back to its home. -/
  | eviction (q : Fin 4)
  /-- CONTEXT_WRITEBACK_COMPLETE (R311): A context write-back ends and frees its cache entry, or puts the connection
  in ERROR. -/
  | contextWritebackComplete (n : Fin 16777216) (ok : Bool)
  /-- EVICT_PENDING_EXPIRY (R313): 2 × RTO after a retraction R310 still fails and EVICT_PENDING clears. -/
  | evictPendingExpiry (n : Fin 16777216)
  /-- CLOSING_COMPLETE (R302): Release of a CLOSING connection completes, the number becomes FREE and the
  CONN_DESTROY completion is posted. -/
  | closingComplete (n : Fin 16777216)
  /-- CARTER_ENABLE (R333): A write of CAR_CFG.EN checks Carter's areas for overlap and range, or is refused. -/
  | carterEnable (en : Bool)
  /-- PATH_WRITE (R316): CTRL operation 0x40 loads path templates. -/
  | pathWrite (r : Fin 262144) (x : Machine.RdRes)
  /-- JOB_DISPATCH (R345): Husk dispatches a presented job to a cluster by weight and quadrant once its slot checks
  pass. -/
  | jobDispatch (r : Fin 7) (q : Fin 4) (c : Fin 32) (w : Nat)
  /-- BLOCK_COMPARE (R340): A lane pair finishes a block; equal outputs are released, a mismatch is retried or ends
  the job with CIPHER_FAULT. -/
  | blockCompare (n blk : Nat) (pair : Fin 128) (x : Machine.BlockRes)
  /-- HUSK_JOB_COMPLETE (R350): A Husk job ends and its completion status is returned to the requester. -/
  | huskJobComplete (n : Nat)
  /-- KEY_LOAD_COMPLETE (R373): A key load over the Locksmith bus makes the expanded schedule usable in a cluster's
  cache. -/
  | keyLoadComplete (c : Fin 32) (n : Fin 1048576)
  /-- KEY_IMPORT (R365): KEY_IMPORT unwraps a key blob into a slot. -/
  | keyImport (r : Fin 262144) (x : Machine.RdRes)
  /-- KEY_GENERATE (R366): KEY_GENERATE fills a slot from the DRBG. -/
  | keyGenerate (r : Fin 262144)
  /-- KEY_EXPORT (R367): KEY_EXPORT writes a KIND 2 blob of the slot under a WRAP slot. -/
  | keyExport (r : Fin 262144)
  /-- KEY_DESTROY (R369): KEY_DESTROY zeroizes the slot, raises its generation and sends a purge over the bus. -/
  | keyDestroy (r : Fin 262144)
  /-- KEY_DESTROY_COMPLETE (R369): Every cached copy is dropped and every job holding the key has finished, so
  KEY_DESTROY completes. -/
  | keyDestroyComplete
  /-- KEY_QUERY (R368): KEY_QUERY writes the slot's state image and the domain's BIND. -/
  | keyQuery (r : Fin 262144)
  /-- LCK_DOM_WRITE (R360): A write to LCK_DOM W1 applies a new slot range, zeroizing leaving slots or refusing an
  overlap. -/
  | lckDomWrite (d : Fin 1024) (base : BitVec 20) (count : BitVec 21)
  /-- RANGE_ZEROIZE_COMPLETE (R360): Zeroization of slots leaving a range ends and BUSY clears. -/
  | rangeZeroizeComplete (d : Fin 1024)
  /-- SLOT_STORE_READY (R376): After a reset the slot store finishes zeroizing and READY reads 1. -/
  | slotStoreReady
  /-- SLOT_ECC_ERROR (R359): A slot-store ECC error is corrected, or makes the slot FAULTED and is reported. -/
  | slotEccError (n : Fin 1048576) (corrected : Bool)
  /-- ENTROPY_FAIL (R381): The entropy source fails a health test, setting ENTROPY_FAIL and reporting to the Reeve.
  -/
  | entropyFail (again : Bool)
  /-- ROOT_PORT_ENABLE (R387): A write of STG_RP EN puts a root port in use or holds it in OFF. -/
  | rootPortEnable (n : Fin 16) (en : Bool)
  /-- PRESENCE_CHANGE (R387): A debounced change of SRP_PRSNT_N powers a slot on or takes it to SURPRISE or OFF. -/
  | presenceChange (n : Fin 16) (present : Bool)
  /-- POWER_FAULT (R387): SRP_PWRFLT_N asserts and the slot goes to FAULTED. -/
  | powerFault (n : Fin 16)
  /-- BUTTON_PRESS (R388): A debounced attention-button press starts or cancels an orderly removal. -/
  | buttonPress (n : Fin 16)
  /-- REMOVAL_WINDOW_EXPIRY (R388): 5 s pass after a button press without a second press and the slot enters
  QUIESCING. -/
  | removalWindowExpiry (n : Fin 16)
  /-- PWR_WAIT_EXPIRY (R387): PWR_WAIT elapses without power fault and the slot enters TRAINING, starting REFCLK. -/
  | pwrWaitExpiry (n : Fin 16)
  /-- PERST_RELEASE_DELAY (R387): 100 ms after REFCLK starts, SRP_PERST_N is deasserted. -/
  | perstReleaseDelay (n : Fin 16)
  /-- LINK_ACTIVE (R387): Data Link Layer Link Active arrives and the slot enters INIT. -/
  | linkActive (n : Fin 16) (speed width : Fin 8)
  /-- TRAINING_TIMEOUT (R387): 1 s without Link Active sends the slot to FAULTED. -/
  | trainingTimeout (n : Fin 16)
  /-- ENUMERATION_DELAY (R387): 100 ms after Link Active STG enumerates function 0 and programs BAR and MSI-X. -/
  | enumerationDelay (n : Fin 16) (vid : Fin 65536)
  /-- DRIVE_INIT_COMPLETE (R393): Drive initialization ends and the slot goes ONLINE, or fails to FAULTED. -/
  | driveInitComplete (n : Fin 16) (x : Machine.DrvInit)
  /-- QUIESCE_COMPLETE (R387): Every drive command has finished and shutdown is reported or 5 s pass, so the slot
  goes OFF. -/
  | quiesceComplete (n : Fin 16)
  /-- DPC_TRIGGER (R391): A DPC trigger disables the link and completes outstanding requests with Completer Abort. -/
  | dpcTrigger (n : Fin 16) (c : Machine.DpcCause)
  /-- DPC_RELEASE (R391): STG clears DPC Trigger Status once every drive command has ended. -/
  | dpcRelease (n : Fin 16)
  /-- SLOT_CONTROL_WRITE (R386): A Slot Control write turns slot power on or off. -/
  | slotControlWrite (n : Fin 16) (v : Fin 65536)
  /-- REMOVE (R387): A write of 1 to STG_RP REMOVE starts an orderly removal. -/
  | remove (n : Fin 16)
  /-- DRIVE_COMPLETION (R392): A drive completion arrives and ends its command, or is discarded when late. -/
  | driveCompletion (n : Fin 16) (cid : Fin 65536) (sct : Fin 8) (sc : Fin 256)
  /-- DRIVE_CMD_TIMEOUT (R392): A drive command passes CMD_TMO and STG sends an Abort. -/
  | driveCmdTimeout (n : Fin 16) (cid : Fin 65536)
  /-- ABORT_TIMEOUT (R392): 1 s after an Abort STG resets and reinitializes the drive controller. -/
  | abortTimeout (n : Fin 16) (cid : Fin 65536)
  /-- AER_ERROR (R390): A root-port AER error is logged and fails its command or triggers DPC. -/
  | aerError (n : Fin 16) (sev : Machine.AerSev) (b : Fin 32) (cid : Option (Fin 65536))
  /-- DRIVE_INBOUND_REQUEST (R394): An inbound request from a drive is served inside the staging windows or completed
  with UR. -/
  | driveInboundRequest (n : Fin 16) (addr : Nat) (x : Machine.DrvReq)
  /-- SQ_DOORBELL (R395): A host writes an emulated controller's submission queue doorbell. -/
  | sqDoorbell (k : Fin 16392) (q : Fin 65) (v : Fin 65536)
  /-- CQ_DOORBELL (R395): A host writes an emulated controller's completion queue doorbell. -/
  | cqDoorbell (k : Fin 16392) (q : Fin 65) (v : Fin 65536)
  /-- NVM_WRITE (R403): An NVMe Write is staged, encrypted as needed and written to every usable leg. -/
  | nvmWrite (k : Fin 16392) (q : Fin 65) (x : Machine.RdRes × Machine.RdRes) (data : Machine.RdRes) (h : Machine.NvHap)
  /-- NVM_READ (R404): An NVMe Read is read from leg A or B, decrypted and written to the host. -/
  | nvmRead (k : Fin 16392) (q : Fin 65) (x list : Machine.RdRes) (h : Machine.NvHap)
  /-- WRITE_ZEROES (R404): Write Zeroes is passed to local legs or run as a Write of zeroed plaintext. -/
  | writeZeroes (k : Fin 16392) (q : Fin 65) (x : Machine.RdRes) (h : Machine.NvHap)
  /-- DATASET_MANAGEMENT (R404): Deallocate ranges are passed to local legs. -/
  | datasetManagement (k : Fin 16392) (q : Fin 65) (x data : Machine.RdRes)
  /-- NVM_FLUSH (R404): A Flush completes once every usable local leg has flushed. -/
  | nvmFlush (k : Fin 16392) (q : Fin 65) (x : Machine.RdRes)
  /-- CREATE_IO_SQ (R396): Admin command that creates an I/O submission queue. -/
  | createIoSq (k : Fin 16392) (x : Machine.RdRes)
  /-- DELETE_IO_SQ (R396): Admin command that deletes an I/O submission queue. -/
  | deleteIoSq (k : Fin 16392) (x : Machine.RdRes)
  /-- CREATE_IO_CQ (R396): Admin command that creates an I/O completion queue. -/
  | createIoCq (k : Fin 16392) (x : Machine.RdRes)
  /-- DELETE_IO_CQ (R396): Admin command that deletes an I/O completion queue. -/
  | deleteIoCq (k : Fin 16392) (x : Machine.RdRes)
  /-- GET_LOG_PAGE (R406): Admin command that returns the Error, SMART, Changed Namespace or Effects log. -/
  | getLogPage (k : Fin 16392) (x list : Machine.RdRes) (h : Machine.NvHap)
  /-- IDENTIFY (R397): Admin command that returns Identify data for the supported CNS values. -/
  | identify (k : Fin 16392) (x : Machine.RdRes) (h : Machine.NvHap)
  /-- ABORT (R396): Admin command that aborts a host command. -/
  | abort (k : Fin 16392) (x : Machine.RdRes)
  /-- SET_FEATURES (R396): Admin command that sets a supported feature. -/
  | setFeatures (k : Fin 16392) (x : Machine.RdRes)
  /-- GET_FEATURES (R396): Admin command that returns a supported feature. -/
  | getFeatures (k : Fin 16392) (x : Machine.RdRes)
  /-- ASYNCHRONOUS_EVENT_REQUEST (R405): Admin command held until a held or new asynchronous event is reported. -/
  | asynchronousEventRequest (k : Fin 16392) (x : Machine.RdRes)
  /-- CC_WRITE (R407): A host clears CC.EN or writes CC.SHN and the controller stops, drains, flushes and reports
  ready or shutdown. -/
  | ccWrite (k : Fin 16392) (v : Fin 4294967296)
  /-- LEG_COMPLETE (R403): A drive or Carter operation on a leg ends and the host command completes or the leg fails.
  -/
  | legComplete (h : Machine.NvHap)
  /-- NS_WRITE (R400): CTRL operation 0x60 replaces a namespace entry. -/
  | nsWrite (r : Fin 262144) (x : Machine.RdRes)
  /-- EXT_WRITE (R400): CTRL operation 0x61 replaces an extent entry. -/
  | extWrite (r : Fin 262144) (x : Machine.RdRes)
  /-- NS_READ (R398): CTRL operation 0x62 reads namespace status and failed legs. -/
  | nsRead (r : Fin 262144) (x : Machine.RdRes)
  /-- STG_ENABLE (R413): A write of STG_CFG.EN checks the staging areas or is refused. -/
  | stgEnable (en : Bool)
  /-- INBOUND_MEMORY_REQUEST (R426): An inbound memory request to a function's BARs is applied, or receives UR or is
  discarded. -/
  | inboundMemoryRequest (a : Fin 8) (addr : BitVec 62) (x : Machine.MemReq)
  /-- CONFIG_REQUEST (R429): A configuration request reads or writes a function's configuration space. -/
  | configRequest (a f : Fin 8) (dw : Fin 1024) (x : Option (BitVec 4 × BitVec 32))
  /-- BUS_MASTER_ENABLE_CLEAR (R444): Bus Master Enable written 0 stops new requests and puts the function's engines
  into QUIESCED. -/
  | busMasterEnableClear (a f : Fin 8)
  /-- FUNCTION_LEVEL_RESET (R445): Initiate Function Level Reset orphans tags, drops pending work and resets the
  function and its instances. -/
  | functionLevelReset (a f : Fin 8)
  /-- PORT_RESET (R446): HOST_PERST_N, a hot reset or link down resets every function of the attach point and
  retrains the link. -/
  | portReset (a : Fin 8) (c : Machine.PortCause)
  /-- D3HOT_ENTRY (R447): A function enters D3hot and its engines hold with state kept. -/
  | d3hotEntry (a f : Fin 8)
  /-- D0_RETURN (R447): A function returns to D0 and its engines resume where they stopped. -/
  | d0Return (a f : Fin 8)
  /-- ASPM_L1_ENTRY (R448): A host link enters ASPM L1 or its substates under the host's enables. -/
  | aspmL1Entry (a : Fin 8) (lpm : Fin 4)
  /-- READ_COMPLETION (R441): A completion for an outstanding tag delivers data, fails the request, or is discarded
  for an orphaned or quarantined tag. -/
  | readCompletion (a : Fin 8) (t : Fin 1024) (x : Machine.RdRes)
  /-- COMPLETION_TIMEOUT (R441): A read's timeout expires, the request fails and its tag is quarantined. -/
  | completionTimeout (a : Fin 8) (t : Fin 1024)
  /-- QUARANTINE_END (R441): A quarantined tag's 2 × T period ends and the tag is freed. -/
  | quarantineEnd (a : Fin 8) (t : Fin 1024)
  /-- TRANSLATION_RESPONSE (R439): An ATS Translation Completion fills the cache and releases the held request, or is
  a translation fault. -/
  | translationResponse (a f : Fin 8) (pasid : Option (Fin 1048576)) (page : Nat) (x : Option (Nat × Bool × Bool))
  /-- PAGE_REQUEST_GROUP_RESPONSE (R439): A PRG Response retries the translation or gives a translation fault. -/
  | pageRequestGroupResponse (a f : Fin 8) (pasid : Option (Fin 1048576)) (page : Nat) (ok : Bool)
  /-- PRI_TIMEOUT (R439): PRI_TMO passes without a PRG Response and the request is a translation fault. -/
  | priTimeout (a f : Fin 8) (pasid : Option (Fin 1048576)) (page : Nat)
  /-- INVALIDATION_REQUEST (R439): An ATS Invalidation Request removes matching cache entries. -/
  | invalidationRequest (a f : Fin 8) (itag : Fin 32) (pasid : Option (Option (Fin 1048576))) (lo hi : Nat)
  /-- INVALIDATION_COMPLETION (R439): Once reads under the invalidated entries finish, HIF sends the Invalidation
  Completion. -/
  | invalidationCompletion (a f : Fin 8) (itag : Fin 32)
  /-- PENDING_MESSAGE_RELEASE (R432): When mask and enable conditions no longer hold, HIF sends one message for a
  PENDING entry. -/
  | pendingMessageRelease (e : Fin 65536 ⊕ (Fin 8 × Fin 8 × Fin 2048))
  /-- MAILBOX_GO (R460): A write of GO queues a slot's mailbox command, or answers FW_ABSENT. -/
  | mailboxGo (k : Fin 16)
  /-- DOM_CREATE (R462): Mailbox command 0x0001 creates a tenant domain with its quotas. -/
  | domCreate
  /-- DOM_DESTROY (R456): Mailbox command 0x0002 destroys a domain's instances, zeroizes its slots and frees it. -/
  | domDestroy
  /-- DOM_QUERY (R462): Mailbox command 0x0003 returns a domain's state, counts and BIND. -/
  | domQuery
  /-- INST_CREATE (R464): Mailbox command 0x0010 creates an instance and allocates its store entries. -/
  | instCreate
  /-- INST_DESTROY (R465): Mailbox command 0x0011 destroys an instance. -/
  | instDestroy
  /-- INST_RESET (R465): Mailbox command 0x0012 starts an INSTANCE reset. -/
  | instReset
  /-- INST_QUERY (R462): Mailbox command 0x0013 returns an instance's state and bindings. -/
  | instQuery
  /-- IRQ_WRITE (R462): Mailbox command 0x0014 writes an interrupt message store entry of an instance. -/
  | irqWrite
  /-- RING_CREATE (R473): Mailbox command 0x0020 creates a Jolis ring. -/
  | ringCreate
  /-- RING_DESTROY (R473): Mailbox command 0x0021 destroys a Jolis ring. -/
  | ringDestroy
  /-- RING_MODIFY (R462): Mailbox command 0x0022 changes a ring's vector and moderation. -/
  | ringModify
  /-- INSTANCE_RESET_COMPLETE (R465): The steps of an instance reset or destruction complete and the instance becomes
  ACTIVE or FREE. -/
  | instanceResetComplete (ix : Fin 16384)
  /-- DOORBELL (R470): A DOORBELL word offers descriptors up to a new producer index. -/
  | doorbell (page : Option (Fin 16384)) (w : BitVec 64)
  /-- CQDB (R471): A CQDB word returns completion space and may arm the ring's interrupt. -/
  | cqdb (page : Option (Fin 16384)) (w : BitVec 64)
  /-- RING_CTL_RESET (R474): A RING_CTL word with RESET starts a ring reset. -/
  | ringCtlReset (page : Option (Fin 16384)) (w : BitVec 64)
  /-- RING_RESET_COMPLETE (R474): A ring reset completes and writes its marker completion to slot 0. -/
  | ringResetComplete (r : Fin 262144)
  /-- DESCRIPTOR_FETCH (R475): HIF fetches offered descriptors up to 16 ahead of use. -/
  | descriptorFetch (r : Fin 262144)
  /-- TX_FRAME (R477): A TX_FRAME descriptor reads the frame and passes it to an internal input. -/
  | txFrame (r : Fin 262144) (x : Machine.RdRes)
  /-- RX_BUF (R478): An RX_BUF descriptor offers a receive buffer. -/
  | rxBuf (r : Fin 262144)
  /-- RX_FRAME_DELIVERY (R479): A frame dequeued from an RX ring's queue is written to the next buffer and completed,
  or dropped. -/
  | rxFrameDelivery (fault : Bool)
  /-- MODERATION_TIMER (R484): A ring's moderation timer reaches MOD_USEC with completions pending and the ring fires
  its vector. -/
  | moderationTimer (r : Fin 262144)
  /-- CH_SEND (R504): CH.SEND commits the staging area as one message to a channel, or reports full or refused. -/
  | chSend (h : Fin 512) (rd rs1 : Fin 32)
  /-- CH_RECV (R505): CH.RECV moves the head message of a software channel into the receive area. -/
  | chRecv (h : Fin 512) (rd rs1 : Fin 32)
  /-- CH_FILL (R501): CH.FILL returns the number of messages in a channel. -/
  | chFill (h : Fin 512) (rd rs1 : Fin 32)
  /-- EV_SEND (R508): EV.SEND sets an event bit of a target hart, or is refused. -/
  | evSend (h : Fin 512) (rd rs1 rs2 : Fin 32)
  /-- EV_WAIT (R509): EV.WAIT returns and clears pending events under the mask, or makes the hart wait. -/
  | evWait (h : Fin 512) (rd rs1 : Fin 32)
  /-- EV_POLL (R509): EV.POLL returns pending events under the mask without waiting. -/
  | evPoll (h : Fin 512) (rd rs1 : Fin 32)
  /-- EV_WAIT_WAKE (R509): A waiting hart's masked event becomes pending, or an enabled interrupt ends the wait. -/
  | evWaitWake (h : Fin 512)
  /-- RISCV_INSTRUCTION (R492): A hart executes any other instruction of its RISC-V profile. -/
  | riscvInstruction (h : Fin 512) (w : BitVec 32) (x : Machine.RvHap)
  /-- TIMER_INTERRUPT (R510): MTIME reaches the hart's MTIMECMP, raising MTIP and event bit 48. -/
  | timerInterrupt (h : Fin 512)
  /-- IRQ_PEND_WRITE (R510): A W1S write to FIL_HART IRQ_PEND raises the hart's external interrupt input. -/
  | irqPendWrite (h : Fin 512) (v : Fin 256)
  /-- WAITCYCLE_SAMPLE (R517): The detector samples an enabled wait group at least every 400 ns. -/
  | waitcycleSample (g : Fin 64)
  /-- ISSUE_TABLE_APPLY (R498): A write of 1 to FIL_CORE APPLY checks and installs the staged issue table from the
  next round. -/
  | issueTableApply (c : Fin 64)
  /-- HART_RESET (R521): FIL_HART RESET clears the hart's state and restarts it at RESET_PC when RUN is 1. -/
  | hartReset (h : Fin 512)
  /-- HART_RELEASE (R521): A write setting a hart's RUN bit releases it from reset at RESET_PC. -/
  | hartRelease (h : Fin 512)
  /-- FRAME_BUFFER_RETURN (R514): A message on channel 0xFF20 returns frame-pool buffers. -/
  | frameBufferReturn
  /-- TRANSMIT_MESSAGE (R515): A transmit-channel message sends a frame from HBM into an internal input, within the
  rate cap. -/
  | transmitMessage (k : Fin 64)
  /-- HALT (R520): The Debug Module halts a hart between instructions. -/
  | halt (h : Fin 512)
  /-- RESUME (R520): The Debug Module resumes a halted hart. -/
  | resume (h : Fin 512)
  /-- SINGLE_STEP (R519): The Debug Module single-steps a halted hart. -/
  | singleStep (h : Fin 512) (w : BitVec 32) (x : Machine.RvHap)
  /-- HARTRESET (R520): Debug hartreset performs a HART reset of the selected hart. -/
  | hartreset (h : Fin 512)
  /-- ACCESS_REGISTER (R519): The Debug Module reads or writes a GPR, FPR or CSR of a halted hart. -/
  | accessRegister (h : Fin 512) (n : Fin 65536) (wr : Option (BitVec 64)) (prog : List (BitVec 32)) (post : Bool)
  /-- ACCESS_MEMORY (R519): The Debug Module reads or writes memory through a hart. -/
  | accessMemory (h : Fin 512) (a : BitVec 64) (k : Fin 4) (wr : Option (BitVec 64))
  /-- CORE_ECC_ERROR (R523): An unconsumed uncorrectable error in a core's caches or scratch is a core-class failure.
  -/
  | coreEccError (c : Fin 64)
  /-- CHANNEL_ENABLE (R528): A write of FIL_CH EN from 0 to 1 is checked for slot overlap and class, or refused. -/
  | channelEnable (n : Fin 8192)
  /-- TIME_CAPTURE (R533): A write of 1 to TU_SNAP CAPTURE latches the current time. -/
  | timeCapture
  /-- TIME_SET (R534): A write of TU_SET_CTL APPLY sets or adjusts TU time as a step. -/
  | timeSet (add neg : Bool)
  /-- SAMPLE_COMMIT (R545): A write of COMMIT computes an offset and delay from the sample, or rejects it. -/
  | sampleCommit (kind : Bool)
  /-- SERVO_HOLD_TIMEOUT (R547): No offset for HOLD_TMO ms and the servo enters HOLDOVER. -/
  | servoHoldTimeout
  /-- SERVO_MODE_WRITE (R547): A write of TU_SERVO MODE moves the servo to LOCKING or FREE. -/
  | servoModeWrite (mode : Fin 8)
  /-- PPS_IN_EDGE (R548): A rising edge on PPS_IN is stamped and, with SRC 1, yields an offset. -/
  | ppsInEdge
  /-- PPS_OUT_EDGE (R549): At each TU second boundary plus OUT_OFFSET, PPS_OUT rises and event bit 51 is set. -/
  | ppsOutEdge
  /-- STACK_TIME_PERIOD (R550): Every TU_STK PERIOD ms a member exchanges TIME words with the master. -/
  | stackTimePeriod
  /-- EEC_REF_QUALIFIED (R551): An enabled reference has stayed OK for 10 s and the EEC locks or switches to it. -/
  | eecRefQualified (q0 q1 : Option (BitVec 32))
  /-- EEC_REF_LOST (R551): The active reference is no longer OK and the EEC switches or enters HOLDOVER. -/
  | eecRefLost (r : Fin 2) (avg : BitVec 32)
  /-- SYNCE_ENABLE_WRITE (R551): A write of TU_SYNCE EN starts the EEC or returns it to FREE-RUN. -/
  | synceEnableWrite (en : Bool)
  /-- PWR_GO_ACTIVE (R563): GO with REQ ACTIVE powers every domain and returns to ACTIVE. -/
  | pwrGoActive (m : Machine.MDom)
  /-- PWR_GO_TRIMMED (R563): GO with REQ TRIMMED gates OFF every domain whose trim bit is 0 and whose condition
  holds. -/
  | pwrGoTrimmed (m : Machine.MDom)
  /-- PWR_GO_DORMANT (R563): GO with REQ DORMANT waits up to WAIT ms for the entry conditions. -/
  | pwrGoDormant (m : Machine.MDom)
  /-- PWR_GO_STANDBY (R563): GO with REQ STANDBY runs STANDBY entry. -/
  | pwrGoStandby (m : Machine.MDom)
  /-- TRIM_WRITE (R563): A write of PWR_TRIM in TRIMMED gates newly cleared domains and powers newly set ones. -/
  | trimWrite (m : Machine.MDom) (w : Fin 5) (v : BitVec 32)
  /-- DORMANT_ENTRY (R565): Once the entry conditions hold, links go to L1, harts stop and domains are gated RETAIN.
  -/
  | dormantEntry
  /-- DORMANT_WAIT_EXPIRY (R563): WAIT ms pass with an entry condition still failing and the DORMANT request is
  refused. -/
  | dormantWaitExpiry
  /-- WAKE_TIMER_EXPIRY (R566): PWR_WAKE_TIMER ms after entry, a timer wake ends DORMANT or STANDBY. -/
  | wakeTimerExpiry
  /-- DOMAIN_GATE (R562): A held domain's gating condition comes to hold and the Reeve gates it. -/
  | domainGate (d : Fin 156)
  /-- PWRON_RST_N (R570): Assertion and release of PWRON_RST_N, or a power ramp on VDD_AON, runs a POR. -/
  | pwronRstN (ramp : Bool) (ownerSel : Fin 4) (split : Fin 16) (id : Fin 4)
  /-- SYS_RST_N (R570): SYS_RST_N asserted runs a COLD reset. -/
  | sysRstN
  /-- RST_WARM (R570): A PWR_RST write with WARM and the key runs a WARM reset. -/
  | rstWarm (m : Machine.MDom) (key : BitVec 16)
  /-- RST_COLD (R570): A PWR_RST write with COLD and the key runs a COLD reset. -/
  | rstCold (m : Machine.MDom) (key : BitVec 16)
  /-- BLOCK_RESET_ETH_OCTET (R573): BLOCK reset KIND 1 takes every port of an octet down and retrains a Sahrov link.
  -/
  | blockResetEthOctet (m : Machine.MDom) (u : Fin 64)
  /-- BLOCK_RESET_PIPELINE (R573): BLOCK reset KIND 2 drops packets in a pipeline and rejoins it to the flow hash. -/
  | blockResetPipeline (m : Machine.MDom) (u : Fin 64)
  /-- BLOCK_RESET_HUSK_CLUSTER (R573): BLOCK reset KIND 3 ends a cluster's jobs with CIPHER_FAULT and empties its key
  cache. -/
  | blockResetHuskCluster (m : Machine.MDom) (u : Fin 64)
  /-- BLOCK_RESET_FILBERT_CORE (R573): BLOCK reset KIND 4 HART-resets the eight harts of a core. -/
  | blockResetFilbertCore (m : Machine.MDom) (u : Fin 64)
  /-- BLOCK_RESET_ROOT_PORT (R573): BLOCK reset KIND 5 takes a root port to OFF. -/
  | blockResetRootPort (m : Machine.MDom) (u : Fin 64)
  /-- BLOCK_RESET_PATTERN_MATCHER (R573): BLOCK reset KIND 6 marks packets awaiting scan SCAN_SKIPPED. -/
  | blockResetPatternMatcher (m : Machine.MDom) (u : Fin 64)
  /-- TEMP_SAMPLE (R584): Every 100 µs each temperature sensor is sampled and filtered. -/
  | tempSample (ix : Fin 64) (raw : BitVec 16)
  /-- VOLT_SAMPLE (R584): Every 10 µs each voltage monitor is sampled and filtered. -/
  | voltSample (m : Fin 48) (raw : BitVec 16)
  /-- AVS_UPDATE (R587): The Reeve moves the VDD_CORE target by at most 10 mV per ms over PMBus. -/
  | avsUpdate
  /-- FAILURE_REPORT (R592): A block reports a failure to the Reeve, which logs it and applies the permanence rule of
  its class. -/
  | failureReport (k : Fin 16) (u : Fin 4096) (row : BitVec 32) (lines : List Nat)
  /-- CRITICAL_RECOVERY (R589): The temperature stays below WARN − HYST for 1 s and the Reeve ends a CRITICAL
  STANDBY. -/
  | criticalRecovery
  /-- RETIREMENT_CLEAR (R596): A write of REV_RET_CLR with the key requests that a retirement record be cleared at
  the next COLD. -/
  | retirementClear (m : Machine.MDom) (kind : Fin 8) (u : Fin 4096) (key : BitVec 16)
  /-- BELL_HB (R602): A Reeve write of BELL_HB with key 0x7E1A restarts the heartbeat watchdog. -/
  | bellHb (key : BitVec 16)
  /-- LOCKSTEP_MISMATCH (R603): The Reeve cores' outputs differ and the Bellman takes control with cause 0x01. -/
  | lockstepMismatch
  /-- HEARTBEAT_EXPIRY (R603): The heartbeat watchdog expires and the Bellman takes control with cause 0x02. -/
  | heartbeatExpiry
  /-- THERMAL_TRIP (R603): A raw temperature exceeds 135 °C at two samples and the Bellman takes control with cause
  0x03. -/
  | thermalTrip (ix : Fin 64)
  /-- MCTP_WAKE (R599): Vendor MCTP command 0x01 is wake source 5. -/
  | mctpWake (sess : Option (BitVec 32))
  /-- MCTP_WARM (R599): Vendor MCTP command 0x02 causes a WARM in a secured session. -/
  | mctpWarm (sess : Option (BitVec 32))
  /-- MCTP_COLD (R599): Vendor MCTP command 0x03 causes a COLD in a secured session. -/
  | mctpCold (sess : Option (BitVec 32))
  /-- READ_LOG (R599): Vendor MCTP command 0x04 returns 16 fault-log entries. -/
  | readLog (sess : Option (BitVec 32)) (start : BitVec 8)
  /-- READ_CAUSE (R599): Vendor MCTP command 0x05 returns the 16 Bellman records. -/
  | readCause (sess : Option (BitVec 32))
  /-- SET_ENDPOINT_ID (R597): MCTP control message that sets the endpoint's EID. -/
  | setEndpointId (inst : BitVec 5) (op : BitVec 2) (eid : BitVec 8)
  /-- GET_ENDPOINT_ID (R597): MCTP control message that returns the endpoint's EID. -/
  | getEndpointId (inst : BitVec 5)
  /-- GET_MCTP_VERSION_SUPPORT (R597): MCTP control message that returns supported versions. -/
  | getMctpVersionSupport (inst : BitVec 5) (ty : BitVec 8)
  /-- GET_MESSAGE_TYPE_SUPPORT (R597): MCTP control message that returns supported message types. -/
  | getMessageTypeSupport (inst : BitVec 5)
  /-- GET_VENDOR_DEFINED_MESSAGE_SUPPORT (R597): MCTP control message that returns vendor defined message support. -/
  | getVendorDefinedMessageSupport (inst : BitVec 5) (sel : BitVec 8)
  /-- GETTID (R597): PLDM Type 0 command returning the terminus ID. -/
  | gettid (inst : BitVec 5)
  /-- GETPLDMVERSION (R597): PLDM Type 0 command returning PLDM versions. -/
  | getpldmversion (inst : BitVec 5) (flag ty : BitVec 8)
  /-- GETPLDMTYPES (R597): PLDM Type 0 command returning supported types. -/
  | getpldmtypes (inst : BitVec 5)
  /-- GETPLDMCOMMANDS (R597): PLDM Type 0 command returning supported commands. -/
  | getpldmcommands (inst : BitVec 5) (ty : BitVec 8)
  /-- GETPDRREPOSITORYINFO (R598): PLDM Type 2 command returning PDR repository information. -/
  | getpdrrepositoryinfo (inst : BitVec 5)
  /-- GETPDR (R598): PLDM Type 2 command returning a PDR. -/
  | getpdr (inst : BitVec 5) (handle part : BitVec 32) (flag : BitVec 8) (count : BitVec 16)
  /-- GETSENSORREADING (R598): PLDM Type 2 command returning a numeric sensor reading. -/
  | getsensorreading (inst : BitVec 5) (id : BitVec 16)
  /-- GETSTATESENSORREADINGS (R598): PLDM Type 2 command returning state sensor readings. -/
  | getstatesensorreadings (inst : BitVec 5) (id : BitVec 16)
  /-- SETEVENTRECEIVER (R598): PLDM Type 2 command registering the event receiver. -/
  | seteventreceiver (inst : BitVec 5) (enable proto eid : BitVec 8)
  /-- REEVE_IMAGE_LOADED (R616): The ROM finishes reading a Reeve image slot and checks it, starting it or trying the
  other slot. -/
  | reeveImageLoaded (x : Machine.FlashRd)
  /-- FILBERT_IMAGE_LOADED (R616): Reeve firmware finishes copying a Filbert image into HBM and checks it, starting
  hart 0 or trying the other slot. -/
  | filbertImageLoaded (x : Machine.FlashRd)
  /-- FW_READY (R619): Firmware sets FW_READY, and an image with ADVANCE_SVN or REVOKE_LOWER has its fuses blown. -/
  | fwReady
  /-- GET_VERSION (R623): SPDM request returning supported versions. -/
  | getVersion (r : Machine.SpdmReq)
  /-- GET_CAPABILITIES (R623): SPDM request returning responder capabilities. -/
  | getCapabilities (r : Machine.SpdmReq)
  /-- NEGOTIATE_ALGORITHMS (R623): SPDM request selecting algorithms. -/
  | negotiateAlgorithms (r : Machine.SpdmReq)
  /-- GET_DIGESTS (R623): SPDM request returning certificate slot digests. -/
  | getDigests (r : Machine.SpdmReq)
  /-- GET_CERTIFICATE (R623): SPDM request returning a certificate chain of a slot. -/
  | getCertificate (r : Machine.SpdmReq)
  /-- CHALLENGE (R623): SPDM request for a signed challenge response. -/
  | challenge (r : Machine.SpdmReq)
  /-- GET_MEASUREMENTS (R624): SPDM request returning the measurement blocks. -/
  | getMeasurements (r : Machine.SpdmReq)
  /-- KEY_EXCHANGE (R625): SPDM request opening a mutually authenticated secured session. -/
  | keyExchange (r : Machine.SpdmReq)
  /-- FINISH (R625): SPDM request completing the session handshake. -/
  | finish (r : Machine.SpdmReq)
  /-- HEARTBEAT (R623): SPDM heartbeat keeping a secured session alive. -/
  | heartbeat (r : Machine.SpdmReq)
  /-- END_SESSION (R623): SPDM request ending a secured session. -/
  | endSession (r : Machine.SpdmReq)
  /-- GET_EVIDENCE (R627): Vendor command 0x01 returns a dual-signed evidence bundle. -/
  | getEvidence (sess : Option (BitVec 32)) (nonce : Bytes) (mask : BitVec 32)
  /-- GET_HSS_CHAIN (R626): Vendor command 0x02 returns a chunk of the HSS certificate chain. -/
  | getHssChain (sess : Option (BitVec 32)) (off : BitVec 32)
  /-- FW_WRITE (R626): Vendor command 0x03 writes the non-preferred firmware slot. -/
  | fwWrite (sess : Option (BitVec 32)) (ty : BitVec 8) (off : BitVec 32) (len : BitVec 16) (data : Bytes)
  /-- FW_ACTIVATE (R626): Vendor command 0x04 checks the non-preferred slot and makes it preferred. -/
  | fwActivate (sess : Option (BitVec 32)) (ty : BitVec 8) (x : Machine.FlashRd)
  /-- NEW_CHAL (R634): A write of NEW_CHAL draws a new unlock challenge. -/
  | newChal (m : Machine.MDom)
  /-- VERIFY (R634): A write of VERIFY starts verification of the token and consumes the challenge. -/
  | verify (m : Machine.MDom)
  /-- UNLOCK_VERIFY_COMPLETE (R634): Token verification ends and STATUS reports the unlock or the failure. -/
  | unlockVerifyComplete
  /-- RELOCK (R635): A write of RELOCK ends the unlock. -/
  | relock (m : Machine.MDom)
  /-- DBGREG_READ (R632): A DBGREG operation with OP 1 reads a DBG word. -/
  | dbgregRead (w : Fin 2048)
  /-- DBGREG_WRITE (R632): A DBGREG operation with OP 2 writes a DBG word. -/
  | dbgregWrite (w : Fin 2048) (v : BitVec 32)
  /-- RC_READ (R667): A read of an RC counter returns and clears it, latching the high word for the domain. -/
  | rcRead (m : Machine.MDom) (a : Fin 67108864) (wide : Bool)
  /-- LOCK_ALL (R672): A write of GLB_CFG LOCK_ALL sets every block's LOCK bit. -/
  | lockAll (m : Machine.MDom)
  /-- REGISTER_WRITE (R14): A write to a register with no row of its own acts through its fields' access types, lock
  bits and width rules. -/
  | registerWrite (m : Machine.MDom) (a : Fin 67108864) (x : Machine.RegVal)
  /-- LANE_LOCK_ACQUIRED (R70): A lane regains CDR and block lock, or link training completes, so every lane of the
  port is locked and aligned and the qualification period starts; a squelched RCLK output resumes. -/
  | laneLockAcquired (x : Fin 128)
  /-- HOST_LINK_UP (R449): The link of a host attach point reaches Data Link Layer Link Active, making the attach
  point ready for frames and starting the 100 ms function-ready bound. -/
  | hostLinkUp (a : Fin 8) (speed : Fin 7) (width : Fin 17) (flit : Bool) (credits : Nat × Nat × Nat)
  /-- ROOT_PORT_LINK_DOWN (R387): A root-port link goes down in TRAINING, INIT or ONLINE without a DPC trigger, so
  the slot goes to SURPRISE and its legs fail. -/
  | rootPortLinkDown (n : Fin 16)
  /-- INTERRUPT_COALESCING_EXPIRY (R396): The aggregation time of the supported Interrupt Coalescing feature runs out
  on an emulated controller, and the held completion-queue interrupt is sent. -/
  | interruptCoalescingExpiry (k : Fin 16392) (q : Fin 65)
  /-- HIF_INTERNAL_ERROR (R436): An HIF internal memory error is corrected, or is logged as an Uncorrectable Internal
  Error and reported to the Reeve. -/
  | hifInternalError (a : Fin 8) (corrected : Bool)
  /-- POWER_LOSS (R659): Supply is lost without PWRON_RST_N first being asserted, and MRAM records and fuse bits stay
  whole or absent. -/
  | powerLoss
  /-- ROOT_PLL_LOCK_LOSS (R583): The root PLL loses lock, clearing CLK_STATUS.ROOT_LOCK and counting in CLK_CNT index
  3. -/
  | rootPllLockLoss
  /-- BOOT_COMPLETE (R619): The Reeve firmware reports boot complete, after which an image with ADVANCE_SVN or
  REVOKE_LOWER has its fuses blown. -/
  | bootComplete
  /-- PCIE_CREDIT_RETURN (R435): A host returns PCI Express flow-control credits, ending the stall of the attach
  point's posted writes. -/
  | pcieCreditReturn (a : Fin 8) (n : Machine.CreditKind × Nat)
  /-- CHUNK_SEND (R623): An SPDM CHUNK_SEND request carries one chunk of a large request under the supported CHUNK
  capability. -/
  | chunkSend (r : Machine.SpdmReq)
  /-- CHUNK_GET (R623): An SPDM CHUNK_GET request returns one chunk of a large response under the supported CHUNK
  capability. -/
  | chunkGet (r : Machine.SpdmReq)
  /-- GET_ENCAPSULATED_REQUEST (R625): Under MUT_AUTH, the requester asks the responder for an encapsulated request,
  such as one to obtain its certificate. -/
  | getEncapsulatedRequest (r : Machine.SpdmReq)
  /-- DELIVER_ENCAPSULATED_RESPONSE (R625): Under MUT_AUTH, the requester delivers its response to an encapsulated
  request, such as its certificate chain. -/
  | deliverEncapsulatedResponse (r : Machine.SpdmReq)
  /-- SESSION_HEARTBEAT_EXPIRY (R623): A secured SPDM session sees no heartbeat within its heartbeat period and is
  terminated under the supported HBEAT capability. -/
  | sessionHeartbeatExpiry (id : BitVec 32)
deriving DecidableEq, Repr

end Sys2Proof
end

