-- ==== Sys2Proof/Config.lean ====
section
/-! DEFINITION. What one part fixes, and the values the manual leaves open. Every constant here is opaque: it has no
body, so nothing can be proved of its value, and a claim holds whatever it is.
Log entries 2, 3, 16, 17, 20, 21, 24, 62, 94, 124, 125, 133, 137. -/

namespace Sys2Proof

/-- The fused grade (R2): true for the EV128-20. -/
opaque Config.slowGrade : Bool

/-- The fused 64-bit serial number (R673). -/
opaque Config.serial : Nat

/-- Word k of the fused import public key (R381). -/
opaque Config.lckPub : Nat → Nat

/-- The `n`-th value that the manual leaves open, as a natural number; a use cuts it to the width it needs. -/
opaque Config.freeNat : Nat → Nat

/-- The `n`-th string of random or otherwise open bytes; a use cuts it to the length it needs. -/
opaque Config.freeByte : Nat → Nat → Byte

/-- The flow hash of R39 over what identifies a flow; the manual gives no function. -/
opaque Config.flowHash : Bytes → Nat

/-- The size in bytes of a port's receive buffer (R40, R60); the manual gives none. -/
opaque Config.rxBufferBytes : Nat

/-- How many spare rows pseudo-channel `c` (0 to 127) starts with (R594); the manual gives no number. -/
opaque Config.spareRows : Nat → Nat

/-- The fused adaptive-voltage curve of R587: the target in mV at a device temperature in 1/16 °C. -/
opaque Config.avsCurve : Int → Nat

/-- How many units of 256 bytes a Sahrov receiver grants ahead of what it has admitted, per class (R94); the manual gives
no number. -/
opaque Config.sahrovWindow : Nat

/-- The private key of the import key pair, derived from the fused root secret (R371, R375). -/
opaque Config.importKey : Nat

/-- The PCI device identifier of the root ports (R384), and the model name and UUID bytes of Identify Controller (R397); the
manual gives none of them. -/
opaque Config.rpDeviceId : Nat
opaque Config.nvmeModel : Nat → Byte
opaque Config.nvmeUuid : Nat → Nat

/-- The pseudo-channel of its stack (0 to 31) that holds 64-byte line `n` of the stack (R595); the manual gives no map. -/
opaque Config.lineChannel : Nat → Nat

/-- The row of its pseudo-channel that holds 64-byte line `n` of a stack, and the lines of a row of pseudo-channel `u`, by the model's
line number (R594); the manual gives no map. -/
opaque Config.lineRow : Nat → Nat
opaque Config.rowLines : Nat → Nat → List Nat

/-- Word `i` of what a context header, a region table entry or a directory entry says whose bytes in HBM another use of the same
area has changed (R47): their layouts are internal to the device (R304). -/
opaque Config.homeWord : Bytes → Nat → Nat

/-- Byte `i` of the fused ECDSA public key `k` (96 bytes) and HSS public key `k` (R617), and the length of the latter. -/
opaque Config.rootEcdsa : Nat → Nat → Byte
opaque Config.rootHss : Nat → Nat → Byte
opaque Config.rootHssLen : Nat → Nat

/-- The private key of DevID-E, and byte `i` of the signature that DevID-H gives a message with index `q` (R621, R627): the
vault's keys come from a fused secret. -/
opaque Config.devidKey : Nat
opaque Config.devidHss : Nat → Bytes → Nat → Byte

/-- The identity CSRs of a hart (R492): mvendorid, marchid, mimpid, mconfigptr; the manual gives no value. -/
opaque Config.mvendorid : Nat
opaque Config.marchid : Nat
opaque Config.mimpid : Nat
opaque Config.mconfigptr : Nat

/-- Byte `i` of the SHA-384 of the mask ROM (R624). -/
opaque Config.romDigest : Nat → Byte

/-- Certificate `n` (1 to 7) of the certificate area, in DER (R622). -/
opaque Config.cert : Nat → Bytes

/-- Whether an X.509 certificate chain (concatenated DER, root first) verifies, the length of its first certificate, and the
ECDSA P-384 public key of its last one (R625; the manual names the published format only). -/
opaque Config.chainOk : Bytes → Bool
opaque Config.firstCertLen : Bytes → Nat
opaque Config.leafKey : Bytes → Bytes

end Sys2Proof
end

