-- ==== Sys2Proof/Machine/Bits.lean ====
section
/-! DEFINITION. Bit fields, byte order and sign (R12, R13): reading and building fields of words, little-endian
words of structures, big-endian words of network headers, two's complement readings. -/

namespace Sys2Proof.Machine

open Sys2Proof

/-- Bits [lo + w − 1 : lo] of `v` (R12). -/
def bits (v lo w : Nat) : Nat := v / 2 ^ lo % 2 ^ w

/-- Bit `n` of `v`. -/
def bit (v n : Nat) : Bool := v / 2 ^ n % 2 == 1

/-- `v` with bits [lo + w − 1 : lo] replaced by `x`. -/
def setBits (v lo w x : Nat) : Nat :=
  v % 2 ^ lo + (x % 2 ^ w) * 2 ^ lo + v / 2 ^ (lo + w) * 2 ^ (lo + w)

/-- `v` with bit `n` set or cleared. -/
def setBit (v n : Nat) (b : Bool) : Nat := setBits v n 1 (if b then 1 else 0)

/-- A truth value as a one-bit field. -/
def b2n (b : Bool) : Nat := if b then 1 else 0

/-- A byte of value `n` modulo 256. -/
def byteOf (n : Nat) : Byte := BitVec.ofNat 8 n

/-- The little-endian value of a byte string (R13). -/
def leNat (bs : Bytes) : Nat :=
  match bs with
  | [] => 0
  | b :: r => b.toNat + 256 * leNat r

/-- The `n` little-endian bytes of `v` (R13). -/
def leBytes (n v : Nat) : Bytes :=
  match n with
  | 0 => []
  | n + 1 => byteOf v :: leBytes n (v / 256)

/-- The big-endian value of a byte string (R13). -/
def beNat (bs : Bytes) : Nat := bs.foldl (fun a b => a * 256 + b.toNat) 0

/-- The `n` big-endian bytes of `v` (R13). -/
def beBytes (n v : Nat) : Bytes := (leBytes n v).reverse

/-- Bytes [off, off + n) of a string, zero past its end. -/
def slice (bs : Bytes) (off n : Nat) : Bytes :=
  let t := (bs.drop off).take n
  t ++ List.replicate (n - t.length) (0 : Byte)

/-- Byte `off` of a string as a number, zero past its end. -/
def byteAt (bs : Bytes) (off : Nat) : Nat := (bs.getD off 0).toNat

/-- The little-endian field of `n` bytes at `off`. -/
def leAt (bs : Bytes) (off n : Nat) : Nat := leNat (slice bs off n)

/-- The big-endian field of `n` bytes at `off`. -/
def beAt (bs : Bytes) (off n : Nat) : Nat := beNat (slice bs off n)

/-- `bs` with `new` written over it at `off`; bytes past the end of `bs` are dropped. -/
def overlay (bs : Bytes) (off : Nat) (new : Bytes) : Bytes :=
  (bs.take off ++ new.take (bs.length - off)) ++ bs.drop (off + new.length)

/-- The two's complement reading of the low `w` bits. -/
def toSigned (w v : Nat) : Int :=
  let x := v % 2 ^ w
  if x < 2 ^ (w - 1) then (x : Int) else (x : Int) - (2 ^ w : Nat)

/-- The low `w` bits of an integer, two's complement. -/
def ofSigned (w : Nat) (x : Int) : Nat := (x % ((2 ^ w : Nat) : Int)).toNat

/-- An integer held inside the signed range of `w` bits. -/
def satSigned (w : Nat) (x : Int) : Int :=
  let hi : Int := ((2 ^ (w - 1) : Nat) : Int) - 1
  let lo : Int := -((2 ^ (w - 1) : Nat) : Int)
  if x > hi then hi else if x < lo then lo else x

/-- Floor of a quotient by a power of two, the arithmetic shift right of the manual. -/
def asr (x : Int) (n : Nat) : Int := x.fdiv ((2 ^ n : Nat) : Int)

/-- How many bits are 1 among the low `n`. -/
def popCount (n v : Nat) : Nat :=
  match n with
  | 0 => 0
  | n + 1 => v % 2 + popCount n (v / 2)

/-- The lowest set bit among the low `n`, if there is one. -/
def lowestSet (n v : Nat) : Option Nat := (List.range n).find? (fun i => bit v i)

/-- Bytewise exclusive or, the length of the first operand. -/
def xorBytes (a b : Bytes) : Bytes :=
  match a, b with
  | [], _ => []
  | a, [] => a
  | x :: a, y :: b => (x ^^^ y) :: xorBytes a b

/-- Ceiling of a quotient. -/
def ceilDiv (a b : Nat) : Nat := if b = 0 then 0 else (a + b - 1) / b

/-- Element `i` of a list with `f` applied to it. -/
def modifyAt {α : Type} (l : List α) (i : Nat) (f : α → α) : List α :=
  match l, i with
  | [], _ => []
  | x :: r, 0 => f x :: r
  | x :: r, i + 1 => x :: modifyAt r i f

/-- Element `i` of a list replaced. -/
def replaceAt {α : Type} (l : List α) (i : Nat) (v : α) : List α := modifyAt l i (fun _ => v)

end Sys2Proof.Machine
end

