-- ==== Sys2Proof/Machine/Regs.lean ====
section
/-! DEFINITION. Register fields and the register file (R9, R12, R14, R17, R20, R31, R670). A field of a register
map is a `Fld`: its block, its place in the control window, its access type, its reset value and its "Cleared by"
letter. The register file holds one number per field instance, keyed by the bit address of the field's lowest bit
in the window; one table per letter, so that a reset of the chain empties whole tables. An unlisted field holds its
reset value.
Log entries 3, 4. -/

namespace Sys2Proof.Machine

open Sys2Proof

/-- The blocks that own a bank of the control window (R670). -/
inductive Blk where
  | glb | pwr | clk | rev | tu | lck | hif | dom | stg | eth | win | grn | tly | car | hsk | fil | stk | dbg
deriving DecidableEq, Repr

/-- The access types of R14. -/
inductive Acc where
  | rw | ro | w1c | w1s | rc | wo | rwl
deriving DecidableEq, Repr

/-- The "Cleared by" letters of R17; `none` is the "—" of R18. -/
inductive Clr where
  | p | c | w | h | f | i | none
deriving DecidableEq, Repr

/-- The forms a "Reset value" column takes (R20). -/
inductive Rst where
  /-- A number. -/
  | num (n : Nat)
  /-- A number for index 0 of an array, 0 for the others. -/
  | atZero (n : Nat)
  /-- All ones over the 156 domains (R581). -/
  | trim
  /-- The COUNT_MAX of R592 for the class that indexes the register. -/
  | classMax
  /-- A value latched from strap pins; the latch writes it, so the table's own value is 0. -/
  | strap
  /-- An MRAM record; 0 on a part that has recorded nothing. -/
  | mram
  /-- Fused values of the part. -/
  | fuseGrade | fuseRatio | fuseSerialLo | fuseSerialHi | fuseLckPub
  | fuseUvWarn | fuseUvFault | fuseOvFault | fuseVthEn
deriving DecidableEq, Repr

/-- A field of a register map. `dims` gives the repeat counts and strides of the register, outermost first;
`first` is the lowest index that exists. -/
structure Fld where
  blk : Blk
  base : Nat
  dims : List (Nat × Nat)
  first : Nat
  lo : Nat
  width : Nat
  acc : Acc
  rst : Rst
  clr : Clr
deriving DecidableEq, Repr

/-- The byte offset of instance `ix` of a register from its base. -/
def dimOffset (dims : List (Nat × Nat)) (ix : List Nat) : Nat :=
  match dims, ix with
  | (_, s) :: ds, i :: is => i * s + dimOffset ds is
  | _, _ => 0

/-- The window offset of the word that holds the field. -/
def Fld.addr (f : Fld) (ix : List Nat) : Nat := f.base + dimOffset f.dims ix

/-- The bit address of the field's lowest bit, its key in the register file. -/
def Fld.key (f : Fld) (ix : List Nat) : Nat := 8 * f.addr ix + f.lo

/-- R592: the default COUNT_MAX of a class. -/
def classCountMax (k : Nat) : Nat := if (1 ≤ k && k ≤ 6) || k == 10 then 3 else 0

/-- R591: the fused (UV_WARN, UV_FAULT, OV_FAULT, EN) of voltage monitor `m`. -/
def fusedVth (m : Nat) : Nat × Nat × Nat × Nat :=
  if m ≤ 1 then (788, 776, 824, 1)
  else if m ≤ 3 then (1755, 1710, 1890, 1)
  else if m = 4 then (3218, 3135, 3465, 1)
  else if m ≤ 8 then (788, 776, 824, 1)
  else if m ≤ 24 then (640, 631, 876, 1)
  else if m ≤ 32 then (887, 873, 927, 1)
  else if m ≤ 36 then (1182, 1164, 1236, 1)
  else if m ≤ 40 then (1084, 1067, 1133, 1)
  else if m ≤ 44 then (395, 390, 410, 1)
  else (0, 0, 0, 0)

/-- The reset value of an instance of a field (R20). -/
def Fld.reset (f : Fld) (ix : List Nat) : Nat :=
  match f.rst with
  | .num n => n
  | .atZero n => if ix.headD 0 = 0 then n else 0
  | .trim => if ix.headD 0 = 4 then 0x0FFFFFFF else 0xFFFFFFFF
  | .classMax => classCountMax (ix.headD 0)
  | .strap => 0
  | .mram => 0
  | .fuseGrade => if Config.slowGrade then 1 else 0
  | .fuseRatio => if Config.slowGrade then 256 else 320
  | .fuseSerialLo => Config.serial % 2 ^ 32
  | .fuseSerialHi => Config.serial / 2 ^ 32 % 2 ^ 32
  | .fuseLckPub => Config.lckPub (ix.headD 0) % 2 ^ 32
  | .fuseUvWarn => (fusedVth (ix.headD 0)).1
  | .fuseUvFault => (fusedVth (ix.headD 0)).2.1
  | .fuseOvFault => (fusedVth (ix.headD 0)).2.2.1
  | .fuseVthEn => (fusedVth (ix.headD 0)).2.2.2

/-- The register file: one sparse table of field values for each "Cleared by" letter. -/
structure RegFile where
  p : SMap Nat
  c : SMap Nat
  w : SMap Nat
  h : SMap Nat
  f : SMap Nat
  i : SMap Nat
  n : SMap Nat
deriving DecidableEq, Repr

/-- Every field at its reset value. -/
def RegFile.empty : RegFile := { p := [], c := [], w := [], h := [], f := [], i := [], n := [] }

/-- The table of a letter. -/
def RegFile.sel (r : RegFile) (l : Clr) : SMap Nat :=
  match l with
  | .p => r.p | .c => r.c | .w => r.w | .h => r.h | .f => r.f | .i => r.i | .none => r.n

/-- The register file with the table of a letter replaced. -/
def RegFile.put (r : RegFile) (l : Clr) (m : SMap Nat) : RegFile :=
  match l with
  | .p => { r with p := m } | .c => { r with c := m } | .w => { r with w := m } | .h => { r with h := m }
  | .f => { r with f := m } | .i => { r with i := m } | .none => { r with n := m }

/-- The value a field instance holds. -/
def RegFile.get (r : RegFile) (f : Fld) (ix : List Nat) : Nat :=
  SMap.get (f.reset ix) (r.sel f.clr) (f.key ix)

/-- A field instance set to `v`, cut to the field's width. -/
def RegFile.set (r : RegFile) (f : Fld) (ix : List Nat) (v : Nat) : RegFile :=
  r.put f.clr (SMap.set (f.reset ix) (r.sel f.clr) (f.key ix) (v % 2 ^ f.width))

/-- Every table in rising order. -/
def RegFile.wf (r : RegFile) : Bool :=
  SMap.sorted r.p && SMap.sorted r.c && SMap.sorted r.w && SMap.sorted r.h && SMap.sorted r.f
    && SMap.sorted r.i && SMap.sorted r.n

/-- R17: what a WARM reset (and everything weaker) returns to reset values. -/
def RegFile.warm (r : RegFile) : RegFile := { r with w := [], h := [], f := [], i := [] }

/-- R17: what a COLD reset returns to reset values. -/
def RegFile.cold (r : RegFile) : RegFile := { r.warm with c := [] }

/-- R17: what a POR returns to reset values; MRAM records and fuses stay (R18). -/
def RegFile.por (r : RegFile) : RegFile := { r.cold with p := [] }

/-- The fields of a table whose window offset lies in [lo, hi) return to their reset values. -/
def clearRange (m : SMap Nat) (lo hi : Nat) : SMap Nat :=
  m.filter (fun e => !(decide (8 * lo ≤ e.1) && decide (e.1 < 8 * hi)))

/-- The index of a register array that an offset from its base selects, with what is left over. -/
def solveIdx (dims : List (Nat × Nat)) (off : Nat) : Option (List Nat × Nat) :=
  match dims with
  | [] => some ([], off)
  | (n, s) :: ds =>
    let i := off / s
    if i < n then (solveIdx ds (off - i * s)).map (fun p => (i :: p.1, p.2)) else none

/-- The instance of a field that lies (wholly or, for a 64-bit field, in part) in the 4-byte word at `a`, and
which half of it: 0 for the word that holds the field's lowest bit, 1 for the high word of a 64-bit field. -/
def Fld.at? (f : Fld) (a : Nat) : Option (List Nat × Nat) :=
  if a < f.base then none
  else
    match solveIdx f.dims (a - f.base) with
    | none => none
    | some (ix, r) =>
      if ix.headD f.first < f.first then none
      else if r = 0 then some (ix, 0)
      else if r = 4 && f.width == 64 then some (ix, 1)
      else none

end Sys2Proof.Machine
end

