-- ==== Sys2Proof/Machine/RegTable.lean ====
section
/-! DEFINITION. Every field of every register map of the control window (R103 to R108, R158 to R164, R206 to R210,
R246 to R249, R332 to R336, R378 to R383, R413 to R416, R451 to R454, R487 to R491, R525 to R529, R554 to R557,
R579 to R583, R607 to R610, R637, R673, R674), named REGISTER.FIELD as R9 writes it, and the list of each block's
fields. A register that no map names does not exist (R675); bits that no entry names are RSV. -/

namespace Sys2Proof.Machine


/- ETH_OCT_CFG, R103. -/
def R.ETH_OCT_CFG.APPLY : Fld := ⟨.eth, 0x04000000, [(16, 0x200000)], 0, 0, 1, .wo, (.num 0), .w⟩
def R.ETH_OCT_CFG.SAHROV : Fld := ⟨.eth, 0x04000000, [(16, 0x200000)], 0, 1, 1, .rwl, (.num 0), .w⟩
def R.ETH_OCT_CFG.PLL_SRC : Fld := ⟨.eth, 0x04000000, [(16, 0x200000)], 0, 2, 2, .rw, (.num 0), .w⟩
def R.ETH_OCT_CFG.PLL_LANE : Fld := ⟨.eth, 0x04000000, [(16, 0x200000)], 0, 4, 3, .rw, (.num 0), .w⟩
def R.ETH_OCT_CFG.LOCK : Fld := ⟨.eth, 0x04000000, [(16, 0x200000)], 0, 31, 1, .w1s, (.num 0), .w⟩

/- ETH_OCT_STATUS, R104. -/
def R.ETH_OCT_STATUS.CFG_ERR : Fld := ⟨.eth, 0x04000004, [(16, 0x200000)], 0, 0, 1, .w1c, (.num 0), .w⟩
def R.ETH_OCT_STATUS.PLL_LOCK : Fld := ⟨.eth, 0x04000004, [(16, 0x200000)], 0, 1, 1, .ro, (.num 0), .w⟩
def R.ETH_OCT_STATUS.ERR_PORT : Fld := ⟨.eth, 0x04000004, [(16, 0x200000)], 0, 2, 3, .ro, (.num 0), .w⟩

/- ETH_RCLK, R104. -/
def R.ETH_RCLK.EN : Fld := ⟨.eth, 0x04000008, [(16, 0x200000)], 0, 0, 1, .rw, (.num 0), .w⟩
def R.ETH_RCLK.OUT : Fld := ⟨.eth, 0x04000008, [(16, 0x200000)], 0, 1, 1, .rw, (.num 0), .w⟩
def R.ETH_RCLK.LANE : Fld := ⟨.eth, 0x04000008, [(16, 0x200000)], 0, 2, 3, .rw, (.num 0), .w⟩
def R.ETH_RCLK.SQUELCH : Fld := ⟨.eth, 0x04000008, [(16, 0x200000)], 0, 5, 1, .rw, (.num 1), .w⟩
def R.ETH_RCLK.CONFLICT : Fld := ⟨.eth, 0x04000008, [(16, 0x200000)], 0, 6, 1, .ro, (.num 0), .w⟩

/- ETH_PORT_CFG, R105. -/
def R.ETH_PORT_CFG.EN : Fld := ⟨.eth, 0x04000100, [(16, 0x200000), (8, 0x40)], 0, 0, 1, .rw, (.num 0), .w⟩
def R.ETH_PORT_CFG.SPEED : Fld := ⟨.eth, 0x04000100, [(16, 0x200000), (8, 0x40)], 0, 1, 3, .rw, (.num 0), .w⟩
def R.ETH_PORT_CFG.LANES : Fld := ⟨.eth, 0x04000100, [(16, 0x200000), (8, 0x40)], 0, 4, 2, .rw, (.num 0), .w⟩
def R.ETH_PORT_CFG.FEC : Fld := ⟨.eth, 0x04000100, [(16, 0x200000), (8, 0x40)], 0, 6, 2, .rw, (.num 0), .w⟩
def R.ETH_PORT_CFG.MAX_FRAME : Fld := ⟨.eth, 0x04000100, [(16, 0x200000), (8, 0x40)], 0, 8, 14, .rw, (.num 1518), .w⟩
def R.ETH_PORT_CFG.PFC_EN : Fld := ⟨.eth, 0x04000100, [(16, 0x200000), (8, 0x40)], 0, 22, 1, .rw, (.num 0), .w⟩
def R.ETH_PORT_CFG.PAUSE_EN : Fld := ⟨.eth, 0x04000100, [(16, 0x200000), (8, 0x40)], 0, 23, 1, .rw, (.num 0), .w⟩
def R.ETH_PORT_CFG.PREEMPT_EN : Fld := ⟨.eth, 0x04000100, [(16, 0x200000), (8, 0x40)], 0, 24, 1, .rw, (.num 0), .w⟩
def R.ETH_PORT_CFG.VERIFY_DIS : Fld := ⟨.eth, 0x04000100, [(16, 0x200000), (8, 0x40)], 0, 25, 1, .rw, (.num 0), .w⟩
def R.ETH_PORT_CFG.ADD_FRAG : Fld := ⟨.eth, 0x04000100, [(16, 0x200000), (8, 0x40)], 0, 26, 2, .rw, (.num 0), .w⟩
def R.ETH_PORT_CFG.TRAIN_EN : Fld := ⟨.eth, 0x04000100, [(16, 0x200000), (8, 0x40)], 0, 28, 1, .rw, (.num 1), .w⟩

/- ETH_PORT_HOLD, R105. -/
def R.ETH_PORT_HOLD.HOLD : Fld := ⟨.eth, 0x04000104, [(16, 0x200000), (8, 0x40)], 0, 0, 20, .rw, (.num 5000), .w⟩
def R.ETH_PORT_HOLD.UP_QUAL : Fld := ⟨.eth, 0x04000104, [(16, 0x200000), (8, 0x40)], 0, 20, 8, .rw, (.num 10), .w⟩

/- ETH_PORT_STATUS, R105. -/
def R.ETH_PORT_STATUS.STATE : Fld := ⟨.eth, 0x04000108, [(16, 0x200000), (8, 0x40)], 0, 0, 3, .ro, (.num 0), .w⟩
def R.ETH_PORT_STATUS.LOCAL_FAULT : Fld := ⟨.eth, 0x04000108, [(16, 0x200000), (8, 0x40)], 0, 3, 1, .ro, (.num 0), .w⟩
def R.ETH_PORT_STATUS.REMOTE_FAULT : Fld := ⟨.eth, 0x04000108, [(16, 0x200000), (8, 0x40)], 0, 4, 1, .ro, (.num 0), .w⟩
def R.ETH_PORT_STATUS.LANE_RETIRED : Fld := ⟨.eth, 0x04000108, [(16, 0x200000), (8, 0x40)], 0, 5, 1, .ro, (.num 0), .w⟩
def R.ETH_PORT_STATUS.VERIFY : Fld := ⟨.eth, 0x04000108, [(16, 0x200000), (8, 0x40)], 0, 6, 2, .ro, (.num 0), .w⟩
def R.ETH_PORT_STATUS.HOLD_EXPIRED : Fld := ⟨.eth, 0x04000108, [(16, 0x200000), (8, 0x40)], 0, 8, 1, .w1c, (.num 0), .w⟩

/- ETH_PORT_LEFT, R105. -/
def R.ETH_PORT_LEFT.HOLD_LEFT : Fld := ⟨.eth, 0x0400010C, [(16, 0x200000), (8, 0x40)], 0, 0, 20, .ro, (.num 0), .w⟩

/- ETH_LANE_CFG, R106. -/
def R.ETH_LANE_CFG.TX_POL : Fld := ⟨.eth, 0x04000400, [(16, 0x200000), (8, 0x20)], 0, 0, 1, .rw, (.num 0), .w⟩
def R.ETH_LANE_CFG.RX_POL : Fld := ⟨.eth, 0x04000400, [(16, 0x200000), (8, 0x20)], 0, 1, 1, .rw, (.num 0), .w⟩
def R.ETH_LANE_CFG.TX_PRESET : Fld := ⟨.eth, 0x04000400, [(16, 0x200000), (8, 0x20)], 0, 2, 4, .rw, (.num 0), .w⟩
def R.ETH_LANE_CFG.LOOPBACK : Fld := ⟨.eth, 0x04000400, [(16, 0x200000), (8, 0x20)], 0, 6, 2, .rw, (.num 0), .w⟩

/- ETH_LANE_STATUS, R106. -/
def R.ETH_LANE_STATUS.CDR_LOCK : Fld := ⟨.eth, 0x04000404, [(16, 0x200000), (8, 0x20)], 0, 0, 1, .ro, (.num 0), .w⟩
def R.ETH_LANE_STATUS.RETIRED : Fld := ⟨.eth, 0x04000404, [(16, 0x200000), (8, 0x20)], 0, 1, 1, .ro, .mram, .none⟩
def R.ETH_LANE_STATUS.FAIL_COUNT : Fld := ⟨.eth, 0x04000404, [(16, 0x200000), (8, 0x20)], 0, 2, 2, .ro, (.num 0), .w⟩

/- ETH_PORT_CNT, R107. -/
def R.ETH_PORT_CNT.COUNT : Fld := ⟨.eth, 0x04008000, [(16, 0x200000), (8, 0x400), (64, 0x8)], 0, 0, 64, .rc, (.num 0), .w⟩

/- STK_CFG, R108. -/
def R.STK_CFG.EN : Fld := ⟨.stk, 0x0E000000, [], 0, 0, 1, .rwl, (.num 0), .w⟩
def R.STK_CFG.STACK_ID : Fld := ⟨.stk, 0x0E000000, [], 0, 1, 2, .ro, .strap, .c⟩
def R.STK_CFG.LOSS_TIME : Fld := ⟨.stk, 0x0E000000, [], 0, 8, 8, .rw, (.num 10), .w⟩
def R.STK_CFG.KA_PERIOD : Fld := ⟨.stk, 0x0E000000, [], 0, 16, 8, .rw, (.num 10), .w⟩
def R.STK_CFG.LOCK : Fld := ⟨.stk, 0x0E000000, [], 0, 31, 1, .w1s, (.num 0), .w⟩

/- STK_STATUS, R108. -/
def R.STK_STATUS.MASTER : Fld := ⟨.stk, 0x0E000004, [], 0, 0, 1, .ro, (.num 0), .w⟩
def R.STK_STATUS.MASTER_LOST : Fld := ⟨.stk, 0x0E000004, [], 0, 1, 1, .ro, (.num 0), .w⟩
def R.STK_STATUS.RESYNC : Fld := ⟨.stk, 0x0E000004, [], 0, 2, 1, .ro, (.num 0), .w⟩
def R.STK_STATUS.DUP_ID : Fld := ⟨.stk, 0x0E000004, [], 0, 3, 1, .w1c, (.num 0), .w⟩

/- STK_SEQ, R108. -/
def R.STK_SEQ.STATE_SEQ : Fld := ⟨.stk, 0x0E000008, [], 0, 0, 32, .ro, (.num 0), .w⟩

/- STK_LINK, R108. -/
def R.STK_LINK.EN : Fld := ⟨.stk, 0x0E000010, [(4, 0x4)], 0, 0, 1, .rwl, (.num 0), .w⟩
def R.STK_LINK.OCTET : Fld := ⟨.stk, 0x0E000010, [(4, 0x4)], 0, 1, 4, .rwl, (.num 0), .w⟩
def R.STK_LINK.X4 : Fld := ⟨.stk, 0x0E000010, [(4, 0x4)], 0, 5, 1, .ro, (.num 0), .w⟩
def R.STK_LINK.STATE : Fld := ⟨.stk, 0x0E000010, [(4, 0x4)], 0, 6, 3, .ro, (.num 0), .w⟩

/- STK_CNT, R108. -/
def R.STK_CNT.COUNT : Fld := ⟨.stk, 0x0E000100, [(16, 0x8)], 0, 0, 64, .rc, (.num 0), .w⟩

/- WIN_PIPE_CFG, R158. -/
def R.WIN_PIPE_CFG.LOCK : Fld := ⟨.win, 0x06000000, [(16, 0x200000)], 0, 31, 1, .w1s, (.num 0), .w⟩

/- WIN_PIPE_STATUS, R158. -/
def R.WIN_PIPE_STATUS.WAIT_FILL : Fld := ⟨.win, 0x06000004, [(16, 0x200000)], 0, 0, 12, .ro, (.num 0), .w⟩
def R.WIN_PIPE_STATUS.HBM_STALL : Fld := ⟨.win, 0x06000004, [(16, 0x200000)], 0, 12, 1, .ro, (.num 0), .w⟩

/- WIN_PORT_PROF, R158. -/
def R.WIN_PORT_PROF.PROFILE : Fld := ⟨.win, 0x06000010, [(16, 0x200000), (8, 0x4)], 0, 0, 6, .rw, (.num 0), .w⟩
def R.WIN_PORT_PROF.DOMAIN : Fld := ⟨.win, 0x06000010, [(16, 0x200000), (8, 0x4)], 0, 16, 10, .rwl, (.num 0), .w⟩

/- WIN_PIPE_CNT, R159. -/
def R.WIN_PIPE_CNT.COUNT : Fld := ⟨.win, 0x06001000, [(16, 0x200000), (32, 0x8)], 0, 0, 64, .rc, (.num 0), .w⟩

/- WIN_GLB_CFG, R160. -/
def R.WIN_GLB_CFG.GRAPH_SEL : Fld := ⟨.win, 0x06100000, [], 0, 0, 1, .ro, (.num 0), .w⟩
def R.WIN_GLB_CFG.PAT_SEL : Fld := ⟨.win, 0x06100000, [], 0, 1, 1, .ro, (.num 0), .w⟩
def R.WIN_GLB_CFG.SAHROV_PROF : Fld := ⟨.win, 0x06100000, [], 0, 2, 6, .rw, (.num 0), .w⟩
def R.WIN_GLB_CFG.SCAN_EN : Fld := ⟨.win, 0x06100000, [], 0, 8, 1, .rw, (.num 0), .w⟩
def R.WIN_GLB_CFG.LOCK : Fld := ⟨.win, 0x06100000, [], 0, 31, 1, .w1s, (.num 0), .w⟩

/- WIN_GLB_STATUS, R160. -/
def R.WIN_GLB_STATUS.CFG_ERR : Fld := ⟨.win, 0x06100004, [], 0, 0, 1, .w1c, (.num 0), .w⟩
def R.WIN_GLB_STATUS.ERR_TBL : Fld := ⟨.win, 0x06100004, [], 0, 1, 6, .ro, (.num 0), .w⟩

/- WIN_SCAN_CFG, R160. -/
def R.WIN_SCAN_CFG.CHAN : Fld := ⟨.win, 0x06100008, [], 0, 0, 16, .rw, (.num 0), .w⟩
def R.WIN_SCAN_CFG.REPORT_LEN : Fld := ⟨.win, 0x06100008, [], 0, 16, 2, .rw, (.num 0), .w⟩

/- WIN_FRAG_CFG, R160. -/
def R.WIN_FRAG_CFG.FRAG_LIFE : Fld := ⟨.win, 0x06100010, [], 0, 0, 16, .rw, (.num 2000), .w⟩
def R.WIN_FRAG_CFG.ORPHAN_MODE : Fld := ⟨.win, 0x06100010, [], 0, 16, 2, .rw, (.num 1), .w⟩

/- WIN_FRAG_CHAN, R160. -/
def R.WIN_FRAG_CHAN.CHAN : Fld := ⟨.win, 0x06100014, [], 0, 0, 16, .rw, (.num 0), .w⟩

/- WIN_FRAG_STATUS, R160. -/
def R.WIN_FRAG_STATUS.OCCUPANCY : Fld := ⟨.win, 0x06100018, [], 0, 0, 15, .ro, (.num 0), .w⟩

/- WIN_GLB_HBM, R160. -/
def R.WIN_GLB_HBM.EN : Fld := ⟨.win, 0x0610001C, [], 0, 0, 1, .rwl, (.num 0), .w⟩
def R.WIN_GLB_HBM.BASE : Fld := ⟨.win, 0x0610001C, [], 0, 1, 8, .rwl, (.num 0), .w⟩
def R.WIN_GLB_HBM.SIZE : Fld := ⟨.win, 0x0610001C, [], 0, 9, 4, .rwl, (.num 0), .w⟩

/- WIN_PROF_W0, R161. -/
def R.WIN_PROF_W0.START_NODE : Fld := ⟨.win, 0x06101000, [(64, 0x10)], 0, 0, 9, .rw, (.num 0), .w⟩
def R.WIN_PROF_W0.WINDOW : Fld := ⟨.win, 0x06101000, [(64, 0x10)], 0, 9, 2, .rw, (.num 0), .w⟩
def R.WIN_PROF_W0.EXC_ACT : Fld := ⟨.win, 0x06101000, [(64, 0x10)], 0, 11, 2, .rw, (.num 0), .w⟩
def R.WIN_PROF_W0.KEYPROF : Fld := ⟨.win, 0x06101000, [(64, 0x10)], 0, 13, 6, .rw, (.num 0), .w⟩
def R.WIN_PROF_W0.TABLE : Fld := ⟨.win, 0x06101000, [(64, 0x10)], 0, 19, 6, .rw, (.num 0), .w⟩

/- WIN_PROF_W1, R161. -/
def R.WIN_PROF_W1.L2_KEYPROF : Fld := ⟨.win, 0x06101004, [(64, 0x10)], 0, 0, 6, .rw, (.num 0), .w⟩
def R.WIN_PROF_W1.L2_TABLE : Fld := ⟨.win, 0x06101004, [(64, 0x10)], 0, 6, 6, .rw, (.num 0), .w⟩
def R.WIN_PROF_W1.EXC_CHAN : Fld := ⟨.win, 0x06101004, [(64, 0x10)], 0, 16, 16, .rw, (.num 0), .w⟩

/- WIN_PROF_W2, R161. -/
def R.WIN_PROF_W2.ESP_EN : Fld := ⟨.win, 0x06101008, [(64, 0x10)], 0, 0, 1, .rw, (.num 0), .w⟩
def R.WIN_PROF_W2.ESP_KEYPROF : Fld := ⟨.win, 0x06101008, [(64, 0x10)], 0, 1, 6, .rw, (.num 0), .w⟩
def R.WIN_PROF_W2.ESP_TABLE : Fld := ⟨.win, 0x06101008, [(64, 0x10)], 0, 7, 6, .rw, (.num 0), .w⟩
def R.WIN_PROF_W2.ESP_INNER_NODE : Fld := ⟨.win, 0x06101008, [(64, 0x10)], 0, 13, 9, .rw, (.num 0), .w⟩

/- WIN_KEYPROF, R162. -/
def R.WIN_KEYPROF.EN : Fld := ⟨.win, 0x06102000, [(64, 0x40), (16, 0x4)], 0, 0, 1, .rw, (.num 0), .w⟩
def R.WIN_KEYPROF.SRC : Fld := ⟨.win, 0x06102000, [(64, 0x40), (16, 0x4)], 0, 1, 1, .rw, (.num 0), .w⟩
def R.WIN_KEYPROF.HV_SLOT : Fld := ⟨.win, 0x06102000, [(64, 0x40), (16, 0x4)], 0, 2, 5, .rw, (.num 0), .w⟩
def R.WIN_KEYPROF.OFFSET : Fld := ⟨.win, 0x06102000, [(64, 0x40), (16, 0x4)], 0, 8, 8, .rw, (.num 0), .w⟩
def R.WIN_KEYPROF.LEN : Fld := ⟨.win, 0x06102000, [(64, 0x40), (16, 0x4)], 0, 16, 4, .rw, (.num 0), .w⟩
def R.WIN_KEYPROF.LAST_MASK : Fld := ⟨.win, 0x06102000, [(64, 0x40), (16, 0x4)], 0, 24, 8, .rw, (.num 0xFF), .w⟩

/- WIN_TBL, R162. -/
def R.WIN_TBL.EN : Fld := ⟨.win, 0x06104000, [(64, 0x20)], 0, 0, 1, .rw, (.num 0), .w⟩
def R.WIN_TBL.HOME : Fld := ⟨.win, 0x06104000, [(64, 0x20)], 0, 1, 1, .rwl, (.num 0), .w⟩
def R.WIN_TBL.WIDTH : Fld := ⟨.win, 0x06104000, [(64, 0x20)], 0, 2, 2, .rwl, (.num 0), .w⟩
def R.WIN_TBL.SHARED : Fld := ⟨.win, 0x06104000, [(64, 0x20)], 0, 4, 1, .rwl, (.num 0), .w⟩
def R.WIN_TBL.LOG2_BUCKETS : Fld := ⟨.win, 0x06104000, [(64, 0x20)], 0, 5, 5, .rwl, (.num 2), .w⟩
def R.WIN_TBL.READY : Fld := ⟨.win, 0x06104000, [(64, 0x20)], 0, 10, 1, .ro, (.num 0), .w⟩

/- WIN_TBL_BASE, R162. -/
def R.WIN_TBL_BASE.BASE : Fld := ⟨.win, 0x06104004, [(64, 0x20)], 0, 0, 27, .rwl, (.num 0), .w⟩

/- WIN_TBL_SEED_A, R162. -/
def R.WIN_TBL_SEED_A.SEED_A : Fld := ⟨.win, 0x06104008, [(64, 0x20)], 0, 0, 32, .rwl, (.num 0), .w⟩

/- WIN_TBL_SEED_B, R162. -/
def R.WIN_TBL_SEED_B.SEED_B : Fld := ⟨.win, 0x0610400C, [(64, 0x20)], 0, 0, 32, .rwl, (.num 0), .w⟩

/- WIN_TBL_MISS, R162. -/
def R.WIN_TBL_MISS.MISS_ACT : Fld := ⟨.win, 0x06104010, [(64, 0x20)], 0, 0, 17, .rw, (.num 0), .w⟩

/- WIN_TBL_OCC, R162. -/
def R.WIN_TBL_OCC.OCCUPANCY : Fld := ⟨.win, 0x06104014, [(64, 0x20)], 0, 0, 29, .ro, (.num 0), .w⟩

/- WIN_TBL_STASH, R162. -/
def R.WIN_TBL_STASH.STASH_USED : Fld := ⟨.win, 0x06104018, [(64, 0x20)], 0, 0, 7, .ro, (.num 0), .w⟩

/- WIN_GLB_CNT, R164. -/
def R.WIN_GLB_CNT.COUNT : Fld := ⟨.win, 0x06108000, [(16, 0x8)], 0, 0, 64, .rc, (.num 0), .w⟩

/- GRN_CFG, R206. -/
def R.GRN_CFG.EN : Fld := ⟨.grn, 0x08000000, [], 0, 0, 1, .rw, (.num 0), .w⟩
def R.GRN_CFG.CT_EN : Fld := ⟨.grn, 0x08000000, [], 0, 1, 1, .rw, (.num 1), .w⟩
def R.GRN_CFG.LOCK : Fld := ⟨.grn, 0x08000000, [], 0, 31, 1, .w1s, (.num 0), .w⟩

/- GRN_STATUS, R206. -/
def R.GRN_STATUS.CFG_ERR : Fld := ⟨.grn, 0x08000004, [], 0, 0, 1, .w1c, (.num 0), .w⟩
def R.GRN_STATUS.ERR_CODE : Fld := ⟨.grn, 0x08000004, [], 0, 1, 3, .ro, (.num 0), .w⟩

/- GRN_POOL, R206. -/
def R.GRN_POOL.RESERVE : Fld := ⟨.grn, 0x08000008, [], 0, 0, 20, .rw, (.num 0), .w⟩

/- GRN_POOL_HR, R206. -/
def R.GRN_POOL_HR.HEADROOM : Fld := ⟨.grn, 0x0800000C, [], 0, 0, 20, .rw, (.num 0), .w⟩

/- GRN_PARK_CFG, R206. -/
def R.GRN_PARK_CFG.EN : Fld := ⟨.grn, 0x08000010, [], 0, 0, 16, .rwl, (.num 0), .w⟩

/- GRN_FREE, R206. -/
def R.GRN_FREE.SHARED_FREE : Fld := ⟨.grn, 0x08000014, [], 0, 0, 20, .ro, (.num 520192), .w⟩

/- GRN_RSUM, R206. -/
def R.GRN_RSUM.RESERVE_SUM : Fld := ⟨.grn, 0x08000018, [], 0, 0, 20, .ro, (.num 0), .w⟩

/- GRN_DEEP_CFG, R206. -/
def R.GRN_DEEP_CFG.EN : Fld := ⟨.grn, 0x08000020, [], 0, 0, 1, .rwl, (.num 0), .w⟩
def R.GRN_DEEP_CFG.SIZE : Fld := ⟨.grn, 0x08000020, [], 0, 1, 6, .rwl, (.num 0), .w⟩
def R.GRN_DEEP_CFG.BASE : Fld := ⟨.grn, 0x08000020, [], 0, 7, 8, .rwl, (.num 0), .w⟩

/- GRN_DEEP_USED, R206. -/
def R.GRN_DEEP_USED.USED : Fld := ⟨.grn, 0x08000024, [], 0, 0, 28, .ro, (.num 0), .w⟩

/- GRN_MIR_W0, R207. -/
def R.GRN_MIR_W0.DEST_KIND : Fld := ⟨.grn, 0x08000100, [(16, 0x10)], 1, 0, 1, .rw, (.num 0), .w⟩
def R.GRN_MIR_W0.HDR : Fld := ⟨.grn, 0x08000100, [(16, 0x10)], 1, 1, 1, .rw, (.num 0), .w⟩
def R.GRN_MIR_W0.DEST : Fld := ⟨.grn, 0x08000100, [(16, 0x10)], 1, 16, 16, .rw, (.num 0), .w⟩

/- GRN_MIR_W1, R207. -/
def R.GRN_MIR_W1.TRUNC : Fld := ⟨.grn, 0x08000104, [(16, 0x10)], 1, 0, 4, .rw, (.num 0), .w⟩
def R.GRN_MIR_W1.CELL_MAX : Fld := ⟨.grn, 0x08000104, [(16, 0x10)], 1, 8, 20, .rw, (.num 0), .w⟩

/- GRN_SMP_W0, R207. -/
def R.GRN_SMP_W0.DEST_KIND : Fld := ⟨.grn, 0x08000200, [(16, 0x10)], 1, 0, 1, .rw, (.num 0), .w⟩
def R.GRN_SMP_W0.HDR : Fld := ⟨.grn, 0x08000200, [(16, 0x10)], 1, 1, 1, .rw, (.num 0), .w⟩
def R.GRN_SMP_W0.DEST : Fld := ⟨.grn, 0x08000200, [(16, 0x10)], 1, 16, 16, .rw, (.num 0), .w⟩

/- GRN_SMP_W1, R207. -/
def R.GRN_SMP_W1.TRUNC : Fld := ⟨.grn, 0x08000204, [(16, 0x10)], 1, 0, 4, .rw, (.num 0), .w⟩
def R.GRN_SMP_W1.CELL_MAX : Fld := ⟨.grn, 0x08000204, [(16, 0x10)], 1, 8, 20, .rw, (.num 0), .w⟩

/- GRN_SMP_W2, R207. -/
def R.GRN_SMP_W2.N_M1 : Fld := ⟨.grn, 0x08000208, [(16, 0x10)], 1, 0, 24, .rw, (.num 0), .w⟩
def R.GRN_SMP_W2.RANDOM : Fld := ⟨.grn, 0x08000208, [(16, 0x10)], 1, 24, 1, .rw, (.num 0), .w⟩

/- GRN_QPROF_W0, R208. -/
def R.GRN_QPROF_W0.MIN : Fld := ⟨.grn, 0x08001000, [(64, 0x10)], 0, 0, 20, .rw, (.num 0), .w⟩
def R.GRN_QPROF_W0.ALPHA : Fld := ⟨.grn, 0x08001000, [(64, 0x10)], 0, 20, 3, .rw, (.num 7), .w⟩
def R.GRN_QPROF_W0.LOSSLESS : Fld := ⟨.grn, 0x08001000, [(64, 0x10)], 0, 23, 1, .rw, (.num 0), .w⟩
def R.GRN_QPROF_W0.LONG_HAUL : Fld := ⟨.grn, 0x08001000, [(64, 0x10)], 0, 24, 1, .rw, (.num 0), .w⟩

/- GRN_QPROF_W1, R208. -/
def R.GRN_QPROF_W1.QMAX : Fld := ⟨.grn, 0x08001004, [(64, 0x10)], 0, 0, 20, .rw, (.num 0), .w⟩

/- GRN_QPROF_W2, R208. -/
def R.GRN_QPROF_W2.SPILL_THRESH : Fld := ⟨.grn, 0x08001008, [(64, 0x10)], 0, 0, 20, .rw, (.num 0), .w⟩

/- GRN_QPROF_W3, R208. -/
def R.GRN_QPROF_W3.DEEP_MAX : Fld := ⟨.grn, 0x0800100C, [(64, 0x10)], 0, 0, 28, .rw, (.num 0), .w⟩

/- GRN_IN_CFG_W0, R209. -/
def R.GRN_IN_CFG_W0.LOSSLESS_PRI : Fld := ⟨.grn, 0x08002000, [(144, 0x8)], 0, 0, 8, .rw, (.num 0), .w⟩
def R.GRN_IN_CFG_W0.PFC_PROF : Fld := ⟨.grn, 0x08002000, [(144, 0x8)], 0, 8, 4, .rw, (.num 0), .w⟩

/- GRN_IN_CFG_W1, R209. -/
def R.GRN_IN_CFG_W1.XOFF_STATE : Fld := ⟨.grn, 0x08002004, [(144, 0x8)], 0, 0, 8, .ro, (.num 0), .w⟩

/- GRN_PFC_PROF_W0, R208. -/
def R.GRN_PFC_PROF_W0.XOFF : Fld := ⟨.grn, 0x08003000, [(16, 0x10)], 0, 0, 20, .rw, (.num 0), .w⟩

/- GRN_PFC_PROF_W1, R208. -/
def R.GRN_PFC_PROF_W1.XON : Fld := ⟨.grn, 0x08003004, [(16, 0x10)], 0, 0, 20, .rw, (.num 0), .w⟩

/- GRN_PFC_PROF_W2, R208. -/
def R.GRN_PFC_PROF_W2.HEADROOM : Fld := ⟨.grn, 0x08003008, [(16, 0x10)], 0, 0, 20, .rw, (.num 0), .w⟩

/- GRN_PFC_PROF_W3, R208. -/
def R.GRN_PFC_PROF_W3.QUANTA : Fld := ⟨.grn, 0x0800300C, [(16, 0x10)], 0, 0, 16, .rw, (.num 0xFFFF), .w⟩

/- GRN_PORT_W0, R209. -/
def R.GRN_PORT_W0.LIMIT : Fld := ⟨.grn, 0x08004000, [(136, 0x8)], 0, 0, 20, .rw, (.num 0xFFFFF), .w⟩
def R.GRN_PORT_W0.EMIR : Fld := ⟨.grn, 0x08004000, [(136, 0x8)], 0, 20, 4, .rw, (.num 0), .w⟩

/- GRN_PORT_W1, R209. -/
def R.GRN_PORT_W1.USED : Fld := ⟨.grn, 0x08004004, [(136, 0x8)], 0, 0, 20, .ro, (.num 0), .w⟩

/- GRN_DOM_W0, R209. -/
def R.GRN_DOM_W0.CELLS : Fld := ⟨.grn, 0x08008000, [(1024, 0x8)], 0, 0, 20, .rw, (.num 0xFFFFF), .w⟩

/- GRN_DOM_W1, R209. -/
def R.GRN_DOM_W1.DEEP : Fld := ⟨.grn, 0x08008004, [(1024, 0x8)], 0, 0, 10, .rw, (.num 0), .w⟩
def R.GRN_DOM_W1.USED : Fld := ⟨.grn, 0x08008004, [(1024, 0x8)], 0, 12, 20, .ro, (.num 0), .w⟩

/- GRN_PORT_CNT, R210. -/
def R.GRN_PORT_CNT.COUNT : Fld := ⟨.grn, 0x08010000, [(136, 0x80), (16, 0x8)], 0, 0, 64, .rc, (.num 0), .w⟩

/- GRN_CNT, R210. -/
def R.GRN_CNT.COUNT : Fld := ⟨.grn, 0x08020000, [(16, 0x8)], 0, 0, 64, .rc, (.num 0), .w⟩

/- TLY_CFG, R246. -/
def R.TLY_CFG.DEI_EN : Fld := ⟨.tly, 0x09000000, [], 0, 0, 1, .rw, (.num 0), .w⟩
def R.TLY_CFG.DEI_SLOT : Fld := ⟨.tly, 0x09000000, [], 0, 1, 5, .rw, (.num 1), .w⟩
def R.TLY_CFG.LOCK : Fld := ⟨.tly, 0x09000000, [], 0, 31, 1, .w1s, (.num 0), .w⟩

/- TLY_STATUS, R246. -/
def R.TLY_STATUS.CFG_ERR : Fld := ⟨.tly, 0x09000004, [], 0, 0, 1, .w1c, (.num 0), .w⟩
def R.TLY_STATUS.ERR_CODE : Fld := ⟨.tly, 0x09000004, [], 0, 1, 3, .ro, (.num 0), .w⟩
def R.TLY_STATUS.ERR_EP : Fld := ⟨.tly, 0x09000004, [], 0, 4, 7, .ro, (.num 0), .w⟩

/- TLY_EP_W0, R247. -/
def R.TLY_EP_W0.MAX_RATE : Fld := ⟨.tly, 0x09001000, [(136, 0x10)], 0, 0, 20, .rw, (.num 0), .w⟩
def R.TLY_EP_W0.MAX_EN : Fld := ⟨.tly, 0x09001000, [(136, 0x10)], 0, 20, 1, .rw, (.num 0), .w⟩
def R.TLY_EP_W0.LEN_ADJ : Fld := ⟨.tly, 0x09001000, [(136, 0x10)], 0, 24, 8, .rw, (.num 0), .w⟩

/- TLY_EP_W1, R247. -/
def R.TLY_EP_W1.MAX_BURST : Fld := ⟨.tly, 0x09001004, [(136, 0x10)], 0, 0, 24, .rw, (.num 0), .w⟩

/- TLY_EP_W2, R247. -/
def R.TLY_EP_W2.EXPRESS : Fld := ⟨.tly, 0x09001008, [(136, 0x10)], 0, 0, 8, .rwl, (.num 0xFF), .w⟩
def R.TLY_EP_W2.PAUSED : Fld := ⟨.tly, 0x09001008, [(136, 0x10)], 0, 8, 8, .ro, (.num 0), .w⟩

/- TLY_GATE, R248. -/
def R.TLY_GATE.EN : Fld := ⟨.tly, 0x09004000, [(128, 0x40)], 0, 0, 1, .rw, (.num 0), .w⟩
def R.TLY_GATE.CHANGE : Fld := ⟨.tly, 0x09004000, [(128, 0x40)], 0, 1, 1, .wo, (.num 0), .w⟩
def R.TLY_GATE.OPER_SEL : Fld := ⟨.tly, 0x09004000, [(128, 0x40)], 0, 2, 1, .ro, (.num 0), .w⟩
def R.TLY_GATE.PENDING : Fld := ⟨.tly, 0x09004000, [(128, 0x40)], 0, 3, 1, .ro, (.num 0), .w⟩
def R.TLY_GATE.HOLD : Fld := ⟨.tly, 0x09004000, [(128, 0x40)], 0, 4, 1, .ro, (.num 0), .w⟩

/- TLY_GATE_LEN, R248. -/
def R.TLY_GATE_LEN.ADMIN_LEN : Fld := ⟨.tly, 0x09004004, [(128, 0x40)], 0, 0, 11, .rw, (.num 0), .w⟩

/- TLY_GATE_CYCLE, R248. -/
def R.TLY_GATE_CYCLE.CYCLE_NS : Fld := ⟨.tly, 0x09004008, [(128, 0x40)], 0, 0, 32, .rw, (.num 0), .w⟩

/- TLY_GATE_BASE_NS, R248. -/
def R.TLY_GATE_BASE_NS.BASE_NS : Fld := ⟨.tly, 0x0900400C, [(128, 0x40)], 0, 0, 30, .rw, (.num 0), .w⟩

/- TLY_GATE_BASE_SEC_LO, R248. -/
def R.TLY_GATE_BASE_SEC_LO.BASE_SEC_LO : Fld := ⟨.tly, 0x09004010, [(128, 0x40)], 0, 0, 32, .rw, (.num 0), .w⟩

/- TLY_GATE_BASE_SEC_HI, R248. -/
def R.TLY_GATE_BASE_SEC_HI.BASE_SEC_HI : Fld := ⟨.tly, 0x09004014, [(128, 0x40)], 0, 0, 16, .rw, (.num 0), .w⟩

/- TLY_GATE_OPER, R248. -/
def R.TLY_GATE_OPER.OPER_GATES : Fld := ⟨.tly, 0x09004018, [(128, 0x40)], 0, 0, 8, .ro, (.num 0xFF), .w⟩
def R.TLY_GATE_OPER.OPER_INDEX : Fld := ⟨.tly, 0x09004018, [(128, 0x40)], 0, 16, 10, .ro, (.num 0), .w⟩

/- TLY_GATE_CCT_NS, R248. -/
def R.TLY_GATE_CCT_NS.CCT_NS : Fld := ⟨.tly, 0x0900401C, [(128, 0x40)], 0, 0, 30, .ro, (.num 0), .w⟩

/- TLY_GATE_CCT_SEC_LO, R248. -/
def R.TLY_GATE_CCT_SEC_LO.CCT_SEC_LO : Fld := ⟨.tly, 0x09004020, [(128, 0x40)], 0, 0, 32, .ro, (.num 0), .w⟩

/- TLY_GATE_CCT_SEC_HI, R248. -/
def R.TLY_GATE_CCT_SEC_HI.CCT_SEC_HI : Fld := ⟨.tly, 0x09004024, [(128, 0x40)], 0, 0, 16, .ro, (.num 0), .w⟩

/- TLY_GATE_OPER_CYCLE, R248. -/
def R.TLY_GATE_OPER_CYCLE.OPER_CYCLE_NS : Fld := ⟨.tly, 0x09004028, [(128, 0x40)], 0, 0, 32, .ro, (.num 0), .w⟩

/- TLY_CNT, R249. -/
def R.TLY_CNT.COUNT : Fld := ⟨.tly, 0x09008000, [(8, 0x8)], 0, 0, 64, .rc, (.num 0), .w⟩

/- TLY_EP_CNT, R249. -/
def R.TLY_EP_CNT.COUNT : Fld := ⟨.tly, 0x09010000, [(136, 0x40), (8, 0x8)], 0, 0, 64, .rc, (.num 0), .w⟩

/- CAR_CFG, R332. -/
def R.CAR_CFG.EN : Fld := ⟨.car, 0x0A000000, [], 0, 0, 1, .rw, (.num 0), .w⟩
def R.CAR_CFG.LOCK : Fld := ⟨.car, 0x0A000000, [], 0, 31, 1, .w1s, (.num 0), .w⟩

/- CAR_STATUS, R332. -/
def R.CAR_STATUS.CFG_ERR : Fld := ⟨.car, 0x0A000004, [], 0, 0, 1, .w1c, (.num 0), .w⟩
def R.CAR_STATUS.ERR_CODE : Fld := ⟨.car, 0x0A000004, [], 0, 1, 3, .ro, (.num 0), .w⟩
def R.CAR_STATUS.ERR_SLICE : Fld := ⟨.car, 0x0A000004, [], 0, 4, 2, .ro, (.num 0), .w⟩

/- CAR_PORT, R332. -/
def R.CAR_PORT.UDP_PORT : Fld := ⟨.car, 0x0A000008, [], 0, 0, 16, .rwl, (.num 51109), .w⟩

/- CAR_RGN, R332. -/
def R.CAR_RGN.BASE : Fld := ⟨.car, 0x0A00000C, [], 0, 0, 16, .rwl, (.num 0), .w⟩
def R.CAR_RGN.STACK : Fld := ⟨.car, 0x0A00000C, [], 0, 16, 2, .rwl, (.num 0), .w⟩

/- CAR_HOMED, R332. -/
def R.CAR_HOMED.HBM_HOMED : Fld := ⟨.car, 0x0A000010, [], 0, 0, 23, .ro, (.num 0), .w⟩

/- CAR_SLICE_CTX, R334. -/
def R.CAR_SLICE_CTX.CTX_BASE : Fld := ⟨.car, 0x0A000100, [(4, 0x40)], 0, 0, 16, .rwl, (.num 0), .w⟩
def R.CAR_SLICE_CTX.CTX_SIZE : Fld := ⟨.car, 0x0A000100, [(4, 0x40)], 0, 16, 16, .rwl, (.num 0), .w⟩

/- CAR_SLICE_WIN, R334. -/
def R.CAR_SLICE_WIN.WIN_BASE : Fld := ⟨.car, 0x0A000104, [(4, 0x40)], 0, 0, 16, .rwl, (.num 0), .w⟩
def R.CAR_SLICE_WIN.WIN_SIZE : Fld := ⟨.car, 0x0A000104, [(4, 0x40)], 0, 16, 16, .rwl, (.num 0), .w⟩

/- CAR_SLICE_KEEP, R334. -/
def R.CAR_SLICE_KEEP.KEEP_BASE : Fld := ⟨.car, 0x0A000108, [(4, 0x40)], 0, 0, 16, .rwl, (.num 0), .w⟩
def R.CAR_SLICE_KEEP.KEEP_SIZE : Fld := ⟨.car, 0x0A000108, [(4, 0x40)], 0, 16, 16, .rwl, (.num 0), .w⟩

/- CAR_SLICE_DIR, R334. -/
def R.CAR_SLICE_DIR.DIR_BASE : Fld := ⟨.car, 0x0A00010C, [(4, 0x40)], 0, 0, 16, .rwl, (.num 0), .w⟩
def R.CAR_SLICE_DIR.PIN_MAX : Fld := ⟨.car, 0x0A00010C, [(4, 0x40)], 0, 16, 15, .rwl, (.num 0), .w⟩

/- CAR_SLICE_USE, R334. -/
def R.CAR_SLICE_USE.CACHE_USED : Fld := ⟨.car, 0x0A000110, [(4, 0x40)], 0, 0, 16, .ro, (.num 0), .w⟩
def R.CAR_SLICE_USE.PINNED : Fld := ⟨.car, 0x0A000110, [(4, 0x40)], 0, 16, 16, .ro, (.num 0), .w⟩

/- CAR_SLICE_FETCH, R334. -/
def R.CAR_SLICE_FETCH.WSTORE_USED : Fld := ⟨.car, 0x0A000114, [(4, 0x40)], 0, 0, 14, .ro, (.num 0), .w⟩
def R.CAR_SLICE_FETCH.FETCH_OUT : Fld := ⟨.car, 0x0A000114, [(4, 0x40)], 0, 14, 7, .ro, (.num 0), .w⟩
def R.CAR_SLICE_FETCH.FETCH_WAIT : Fld := ⟨.car, 0x0A000114, [(4, 0x40)], 0, 21, 11, .ro, (.num 0), .w⟩

/- CAR_SLICE_CONNS, R334. -/
def R.CAR_SLICE_CONNS.CONNS : Fld := ⟨.car, 0x0A000118, [(4, 0x40)], 0, 0, 23, .ro, (.num 0), .w⟩

/- CAR_PARK_W0, R335. -/
def R.CAR_PARK_W0.RESERVED : Fld := ⟨.car, 0x0A000300, [(16, 0x8)], 0, 0, 14, .ro, (.num 0), .w⟩
def R.CAR_PARK_W0.LEDGER : Fld := ⟨.car, 0x0A000300, [(16, 0x8)], 0, 14, 14, .ro, (.num 0), .w⟩

/- CAR_PARK_W1, R335. -/
def R.CAR_PARK_W1.FREE_RESV : Fld := ⟨.car, 0x0A000304, [(16, 0x8)], 0, 0, 14, .ro, (.num 0), .w⟩

/- CAR_CNT, R336. -/
def R.CAR_CNT.COUNT : Fld := ⟨.car, 0x0A001000, [(4, 0x100), (32, 0x8)], 0, 0, 64, .rc, (.num 0), .w⟩

/- HSK_CFG, R378. -/
def R.HSK_CFG.EN : Fld := ⟨.hsk, 0x0B000000, [], 0, 0, 1, .rw, (.num 0), .w⟩
def R.HSK_CFG.LOCK : Fld := ⟨.hsk, 0x0B000000, [], 0, 31, 1, .w1s, (.num 0), .w⟩

/- HSK_STATUS, R378. -/
def R.HSK_STATUS.CLU_AVAIL : Fld := ⟨.hsk, 0x0B000004, [], 0, 0, 6, .ro, (.num 0), .w⟩
def R.HSK_STATUS.PAIRS_LIVE : Fld := ⟨.hsk, 0x0B000004, [], 0, 6, 13, .ro, (.num 0), .w⟩

/- HSK_ARB, R378. -/
def R.HSK_ARB.WEIGHT : Fld := ⟨.hsk, 0x0B000100, [(7, 0x4)], 0, 0, 8, .rw, (.num 16), .w⟩
def R.HSK_ARB.MAX_WAIT : Fld := ⟨.hsk, 0x0B000100, [(7, 0x4)], 0, 16, 12, .rc, (.num 0), .w⟩

/- HSK_CLU_W0, R379. -/
def R.HSK_CLU_W0.CHECK : Fld := ⟨.hsk, 0x0B001000, [(32, 0x20)], 0, 0, 1, .rwl, (.num 0), .w⟩
def R.HSK_CLU_W0.AVAIL : Fld := ⟨.hsk, 0x0B001000, [(32, 0x20)], 0, 1, 1, .ro, (.num 0), .w⟩

/- HSK_CLU_W1, R379. -/
def R.HSK_CLU_W1.PAIRS_LIVE : Fld := ⟨.hsk, 0x0B001004, [(32, 0x20)], 0, 0, 8, .ro, (.num 0), .w⟩
def R.HSK_CLU_W1.KEYS_CACHED : Fld := ⟨.hsk, 0x0B001004, [(32, 0x20)], 0, 8, 7, .ro, (.num 0), .w⟩
def R.HSK_CLU_W1.JOBS_QUEUED : Fld := ⟨.hsk, 0x0B001004, [(32, 0x20)], 0, 15, 7, .ro, (.num 0), .w⟩

/- HSK_CLU_RETIRED, R379. -/
def R.HSK_CLU_RETIRED.RETIRED : Fld := ⟨.hsk, 0x0B001008, [(32, 0x20), (4, 0x4)], 0, 0, 32, .ro, .mram, .none⟩

/- HSK_CLU_FAIL, R379. -/
def R.HSK_CLU_FAIL.FAIL_PAIR : Fld := ⟨.hsk, 0x0B001018, [(32, 0x20)], 0, 0, 7, .ro, (.num 0), .w⟩
def R.HSK_CLU_FAIL.FAIL_VALID : Fld := ⟨.hsk, 0x0B001018, [(32, 0x20)], 0, 7, 1, .w1c, (.num 0), .w⟩

/- HSK_CNT, R380. -/
def R.HSK_CNT.COUNT : Fld := ⟨.hsk, 0x0B008000, [(16, 0x8)], 0, 0, 64, .rc, (.num 0), .w⟩

/- LCK_CFG, R381. -/
def R.LCK_CFG.EN : Fld := ⟨.lck, 0x00500000, [], 0, 0, 1, .rw, (.num 0), .w⟩
def R.LCK_CFG.LOCK : Fld := ⟨.lck, 0x00500000, [], 0, 31, 1, .w1s, (.num 0), .w⟩

/- LCK_STATUS, R381. -/
def R.LCK_STATUS.READY : Fld := ⟨.lck, 0x00500004, [], 0, 0, 1, .ro, (.num 0), .w⟩
def R.LCK_STATUS.DRBG_OK : Fld := ⟨.lck, 0x00500004, [], 0, 1, 1, .ro, (.num 0), .w⟩
def R.LCK_STATUS.ENTROPY_FAIL : Fld := ⟨.lck, 0x00500004, [], 0, 2, 1, .w1c, (.num 0), .w⟩
def R.LCK_STATUS.CFG_ERR : Fld := ⟨.lck, 0x00500004, [], 0, 3, 1, .w1c, (.num 0), .w⟩
def R.LCK_STATUS.ERR_DOM : Fld := ⟨.lck, 0x00500004, [], 0, 4, 10, .ro, (.num 0), .w⟩

/- LCK_PUB, R381. -/
def R.LCK_PUB.PUB : Fld := ⟨.lck, 0x00500100, [(24, 0x4)], 0, 0, 32, .ro, .fuseLckPub, .none⟩

/- LCK_DOM_W0, R382. -/
def R.LCK_DOM_W0.BASE : Fld := ⟨.lck, 0x00501000, [(1024, 0x10)], 0, 0, 20, .rw, (.num 0), .w⟩

/- LCK_DOM_W1, R382. -/
def R.LCK_DOM_W1.COUNT : Fld := ⟨.lck, 0x00501004, [(1024, 0x10)], 0, 0, 21, .rw, (.num 0), .w⟩
def R.LCK_DOM_W1.BUSY : Fld := ⟨.lck, 0x00501004, [(1024, 0x10)], 0, 31, 1, .ro, (.num 0), .w⟩

/- LCK_DOM_W2, R382. -/
def R.LCK_DOM_W2.BIND_LO : Fld := ⟨.lck, 0x00501008, [(1024, 0x10)], 0, 0, 32, .ro, .mram, .none⟩

/- LCK_DOM_W3, R382. -/
def R.LCK_DOM_W3.BIND_HI : Fld := ⟨.lck, 0x0050100C, [(1024, 0x10)], 0, 0, 32, .ro, .mram, .none⟩

/- LCK_CNT, R383. -/
def R.LCK_CNT.COUNT : Fld := ⟨.lck, 0x00508000, [(16, 0x8)], 0, 0, 64, .rc, (.num 0), .w⟩

/- STG_CFG, R413. -/
def R.STG_CFG.EN : Fld := ⟨.stg, 0x03000000, [], 0, 0, 1, .rw, (.num 0), .w⟩
def R.STG_CFG.LOCK : Fld := ⟨.stg, 0x03000000, [], 0, 31, 1, .w1s, (.num 0), .w⟩

/- STG_STATUS, R413. -/
def R.STG_STATUS.CFG_ERR : Fld := ⟨.stg, 0x03000004, [], 0, 0, 1, .w1c, (.num 0), .w⟩
def R.STG_STATUS.ERR_CODE : Fld := ⟨.stg, 0x03000004, [], 0, 1, 2, .ro, (.num 0), .w⟩

/- STG_EVT, R413. -/
def R.STG_EVT.CHAN : Fld := ⟨.stg, 0x03000008, [], 0, 0, 16, .rw, (.num 0), .w⟩
def R.STG_EVT.VEC : Fld := ⟨.stg, 0x03000008, [], 0, 16, 11, .rw, (.num 0), .w⟩

/- STG_STAGE, R413. -/
def R.STG_STAGE.BASE : Fld := ⟨.stg, 0x03000010, [(4, 0x4)], 0, 0, 16, .rwl, (.num 0), .w⟩
def R.STG_STAGE.SIZE : Fld := ⟨.stg, 0x03000010, [(4, 0x4)], 0, 16, 16, .rwl, (.num 0), .w⟩

/- STG_RP_CTL, R414. -/
def R.STG_RP_CTL.EN : Fld := ⟨.stg, 0x03001000, [(16, 0x40)], 0, 0, 1, .rwl, (.num 0), .w⟩
def R.STG_RP_CTL.AUTO_ON : Fld := ⟨.stg, 0x03001000, [(16, 0x40)], 0, 1, 1, .rw, (.num 1), .w⟩
def R.STG_RP_CTL.AUTO_RETRAIN : Fld := ⟨.stg, 0x03001000, [(16, 0x40)], 0, 2, 1, .rw, (.num 1), .w⟩
def R.STG_RP_CTL.REMOVE : Fld := ⟨.stg, 0x03001000, [(16, 0x40)], 0, 3, 1, .wo, (.num 0), .w⟩
def R.STG_RP_CTL.PWR_WAIT : Fld := ⟨.stg, 0x03001000, [(16, 0x40)], 0, 4, 8, .rw, (.num 10), .w⟩
def R.STG_RP_CTL.IOQ : Fld := ⟨.stg, 0x03001000, [(16, 0x40)], 0, 12, 5, .rwl, (.num 8), .w⟩
def R.STG_RP_CTL.QD_LOG2 : Fld := ⟨.stg, 0x03001000, [(16, 0x40)], 0, 17, 4, .rwl, (.num 10), .w⟩
def R.STG_RP_CTL.CMD_TMO : Fld := ⟨.stg, 0x03001000, [(16, 0x40)], 0, 24, 8, .rw, (.num 10), .w⟩

/- STG_RP_STATUS, R414. -/
def R.STG_RP_STATUS.STATE : Fld := ⟨.stg, 0x03001004, [(16, 0x40)], 0, 0, 4, .ro, (.num 0), .w⟩
def R.STG_RP_STATUS.RETIRED : Fld := ⟨.stg, 0x03001004, [(16, 0x40)], 0, 4, 1, .ro, .mram, .none⟩
def R.STG_RP_STATUS.DPC : Fld := ⟨.stg, 0x03001004, [(16, 0x40)], 0, 5, 1, .ro, (.num 0), .w⟩
def R.STG_RP_STATUS.SPEED : Fld := ⟨.stg, 0x03001004, [(16, 0x40)], 0, 6, 3, .ro, (.num 0), .w⟩
def R.STG_RP_STATUS.WIDTH : Fld := ⟨.stg, 0x03001004, [(16, 0x40)], 0, 9, 3, .ro, (.num 0), .w⟩
def R.STG_RP_STATUS.FAIL_COUNT : Fld := ⟨.stg, 0x03001004, [(16, 0x40)], 0, 12, 2, .ro, (.num 0), .w⟩
def R.STG_RP_STATUS.OUTSTANDING : Fld := ⟨.stg, 0x03001004, [(16, 0x40)], 0, 14, 15, .ro, (.num 0), .w⟩

/- STG_RP_DRV, R414. -/
def R.STG_RP_DRV.VID : Fld := ⟨.stg, 0x03001008, [(16, 0x40)], 0, 0, 16, .ro, (.num 0), .w⟩
def R.STG_RP_DRV.NSCOUNT : Fld := ⟨.stg, 0x03001008, [(16, 0x40)], 0, 16, 6, .ro, (.num 0), .w⟩

/- STG_RP_EVT, R414. -/
def R.STG_RP_EVT.EVT : Fld := ⟨.stg, 0x0300100C, [(16, 0x40)], 0, 0, 8, .w1c, (.num 0), .w⟩

/- STG_RP_EVT_EN, R414. -/
def R.STG_RP_EVT_EN.EVT_EN : Fld := ⟨.stg, 0x03001010, [(16, 0x40)], 0, 0, 8, .rw, (.num 0), .w⟩

/- STG_RP_CNT, R416. -/
def R.STG_RP_CNT.COUNT : Fld := ⟨.stg, 0x03020000, [(16, 0x100), (32, 0x8)], 0, 0, 64, .rc, (.num 0), .w⟩

/- STG_CNT, R416. -/
def R.STG_CNT.COUNT : Fld := ⟨.stg, 0x03030000, [(16, 0x8)], 0, 0, 64, .rc, (.num 0), .w⟩

/- HIF_CFG, R451. -/
def R.HIF_CFG.OWNER : Fld := ⟨.hif, 0x01000000, [], 0, 0, 2, .ro, .strap, .c⟩
def R.HIF_CFG.LOCK : Fld := ⟨.hif, 0x01000000, [], 0, 31, 1, .w1s, (.num 0), .w⟩

/- HIF_PORT, R451. -/
def R.HIF_PORT.SPLIT : Fld := ⟨.hif, 0x01000100, [(4, 0x10)], 0, 0, 1, .ro, .strap, .c⟩

/- HIF_AP_CFG, R452. -/
def R.HIF_AP_CFG.PF_EN : Fld := ⟨.hif, 0x01001000, [(8, 0x40)], 0, 4, 4, .rwl, (.num 0), .w⟩
def R.HIF_AP_CFG.SUBSYS_ID : Fld := ⟨.hif, 0x01001000, [(8, 0x40)], 0, 16, 16, .rwl, (.num 0), .w⟩

/- HIF_AP_LINK, R452. -/
def R.HIF_AP_LINK.LINK_UP : Fld := ⟨.hif, 0x01001004, [(8, 0x40)], 0, 0, 1, .ro, (.num 0), .h⟩
def R.HIF_AP_LINK.SPEED : Fld := ⟨.hif, 0x01001004, [(8, 0x40)], 0, 1, 3, .ro, (.num 0), .h⟩
def R.HIF_AP_LINK.WIDTH : Fld := ⟨.hif, 0x01001004, [(8, 0x40)], 0, 4, 5, .ro, (.num 0), .h⟩
def R.HIF_AP_LINK.FLIT : Fld := ⟨.hif, 0x01001004, [(8, 0x40)], 0, 9, 1, .ro, (.num 0), .h⟩
def R.HIF_AP_LINK.LPM : Fld := ⟨.hif, 0x01001004, [(8, 0x40)], 0, 10, 2, .ro, (.num 0), .h⟩
def R.HIF_AP_LINK.IN_RESET : Fld := ⟨.hif, 0x01001004, [(8, 0x40)], 0, 12, 1, .ro, (.num 0), .h⟩

/- HIF_AP_TAGS, R452. -/
def R.HIF_AP_TAGS.TAGS_OUT : Fld := ⟨.hif, 0x01001008, [(8, 0x40)], 0, 0, 10, .ro, (.num 0), .h⟩
def R.HIF_AP_TAGS.TAGS_QUAR : Fld := ⟨.hif, 0x01001008, [(8, 0x40)], 0, 10, 10, .ro, (.num 0), .h⟩

/- HIF_AP_ATC, R452. -/
def R.HIF_AP_ATC.ATC_USED : Fld := ⟨.hif, 0x0100100C, [(8, 0x40)], 0, 0, 14, .ro, (.num 0), .h⟩

/- HIF_AP_PRI, R452. -/
def R.HIF_AP_PRI.PRI_TMO : Fld := ⟨.hif, 0x01001010, [(8, 0x40)], 0, 0, 16, .rw, (.num 1000), .w⟩

/- HIF_AP_WBUF, R452. -/
def R.HIF_AP_WBUF.WBUF_FILL : Fld := ⟨.hif, 0x01001014, [(8, 0x40)], 0, 0, 18, .ro, (.num 0), .h⟩

/- HIF_FN_STATUS, R453. -/
def R.HIF_FN_STATUS.QUIESCED : Fld := ⟨.hif, 0x01002000, [(8, 0x100), (8, 0x20)], 0, 0, 1, .ro, (.num 0), .f⟩
def R.HIF_FN_STATUS.REASON : Fld := ⟨.hif, 0x01002000, [(8, 0x100), (8, 0x20)], 0, 1, 3, .ro, (.num 0), .f⟩
def R.HIF_FN_STATUS.D3HOT : Fld := ⟨.hif, 0x01002000, [(8, 0x100), (8, 0x20)], 0, 4, 1, .ro, (.num 0), .f⟩

/- HIF_FN_ORPH, R453. -/
def R.HIF_FN_ORPH.ORPHANS : Fld := ⟨.hif, 0x01002004, [(8, 0x100), (8, 0x20)], 0, 0, 10, .ro, (.num 0), .h⟩

/- HIF_FN_PRI, R453. -/
def R.HIF_FN_PRI.PRI_OUT : Fld := ⟨.hif, 0x01002008, [(8, 0x100), (8, 0x20)], 0, 0, 10, .ro, (.num 0), .f⟩

/- HIF_CNT, R454. -/
def R.HIF_CNT.COUNT : Fld := ⟨.hif, 0x01008000, [(8, 0x100), (32, 0x8)], 0, 0, 64, .rc, (.num 0), .w⟩

/- DOM_CFG, R487. -/
def R.DOM_CFG.MBX_VEC : Fld := ⟨.dom, 0x02000000, [], 0, 0, 11, .rwl, (.num 0), .w⟩
def R.DOM_CFG.MBX_IRQ_EN : Fld := ⟨.dom, 0x02000000, [], 0, 11, 1, .rwl, (.num 0), .w⟩
def R.DOM_CFG.LOCK : Fld := ⟨.dom, 0x02000000, [], 0, 31, 1, .w1s, (.num 0), .w⟩

/- DOM_STATUS, R487. -/
def R.DOM_STATUS.FW_READY : Fld := ⟨.dom, 0x02000004, [], 0, 0, 1, .ro, (.num 0), .w⟩
def R.DOM_STATUS.DOMAINS : Fld := ⟨.dom, 0x02000004, [], 0, 1, 11, .ro, (.num 1), .w⟩

/- DOM_USE, R487. -/
def R.DOM_USE.INSTANCES : Fld := ⟨.dom, 0x02000008, [], 0, 0, 15, .ro, (.num 0), .w⟩

/- DOM_RINGS, R487. -/
def R.DOM_RINGS.RINGS : Fld := ⟨.dom, 0x0200000C, [], 0, 0, 19, .ro, (.num 0), .w⟩

/- DOM_IRQ, R487. -/
def R.DOM_IRQ.IRQ_USED : Fld := ⟨.dom, 0x02000010, [], 0, 0, 17, .ro, (.num 0), .w⟩

/- DOM_DOMAIN_W0, R488. -/
def R.DOM_DOMAIN_W0.VALID : Fld := ⟨.dom, 0x02001000, [(1024, 0x10)], 0, 0, 1, .ro, (.atZero 1), .w⟩
def R.DOM_DOMAIN_W0.INSTANCES : Fld := ⟨.dom, 0x02001000, [(1024, 0x10)], 0, 1, 15, .ro, (.num 0), .w⟩

/- DOM_DOMAIN_W1, R488. -/
def R.DOM_DOMAIN_W1.RINGS : Fld := ⟨.dom, 0x02001004, [(1024, 0x10)], 0, 0, 19, .ro, (.num 0), .w⟩

/- DOM_DOMAIN_W2, R488. -/
def R.DOM_DOMAIN_W2.MAX_INST : Fld := ⟨.dom, 0x02001008, [(1024, 0x10)], 0, 0, 15, .ro, (.atZero 16384), .w⟩

/- DOM_DOMAIN_W3, R488. -/
def R.DOM_DOMAIN_W3.MAX_RINGS : Fld := ⟨.dom, 0x0200100C, [(1024, 0x10)], 0, 0, 19, .ro, (.atZero 262144), .w⟩

/- DOM_INST_W0, R489. -/
def R.DOM_INST_W0.STATE : Fld := ⟨.dom, 0x02010000, [(16384, 0x10)], 0, 0, 3, .ro, (.num 0), .w⟩
def R.DOM_INST_W0.CLASS : Fld := ⟨.dom, 0x02010000, [(16384, 0x10)], 0, 3, 2, .ro, (.num 0), .w⟩
def R.DOM_INST_W0.AP : Fld := ⟨.dom, 0x02010000, [(16384, 0x10)], 0, 5, 3, .ro, (.num 0), .w⟩
def R.DOM_INST_W0.DOMAIN : Fld := ⟨.dom, 0x02010000, [(16384, 0x10)], 0, 8, 10, .ro, (.num 0), .w⟩

/- DOM_INST_W1, R489. -/
def R.DOM_INST_W1.PASID : Fld := ⟨.dom, 0x02010004, [(16384, 0x10)], 0, 0, 20, .ro, (.num 0), .w⟩
def R.DOM_INST_W1.PASID_EN : Fld := ⟨.dom, 0x02010004, [(16384, 0x10)], 0, 20, 1, .ro, (.num 0), .w⟩

/- DOM_INST_W2, R489. -/
def R.DOM_INST_W2.IRQ_BASE : Fld := ⟨.dom, 0x02010008, [(16384, 0x10)], 0, 0, 16, .ro, (.num 0), .w⟩
def R.DOM_INST_W2.NVEC : Fld := ⟨.dom, 0x02010008, [(16384, 0x10)], 0, 16, 12, .ro, (.num 0), .w⟩

/- DOM_INST_W3, R489. -/
def R.DOM_INST_W3.RINGS : Fld := ⟨.dom, 0x0201000C, [(16384, 0x10)], 0, 0, 13, .ro, (.num 0), .w⟩

/- DOM_RING_W0, R490. -/
def R.DOM_RING_W0.STATE : Fld := ⟨.dom, 0x02400000, [(262144, 0x10)], 0, 0, 3, .ro, (.num 0), .w⟩
def R.DOM_RING_W0.TYPE : Fld := ⟨.dom, 0x02400000, [(262144, 0x10)], 0, 3, 4, .ro, (.num 0), .w⟩
def R.DOM_RING_W0.SIZE_LOG2 : Fld := ⟨.dom, 0x02400000, [(262144, 0x10)], 0, 7, 5, .ro, (.num 0), .w⟩
def R.DOM_RING_W0.OWNER : Fld := ⟨.dom, 0x02400000, [(262144, 0x10)], 0, 12, 1, .ro, (.num 0), .w⟩
def R.DOM_RING_W0.INSTANCE : Fld := ⟨.dom, 0x02400000, [(262144, 0x10)], 0, 13, 14, .ro, (.num 0), .w⟩

/- DOM_RING_W1, R490. -/
def R.DOM_RING_W1.RING : Fld := ⟨.dom, 0x02400004, [(262144, 0x10)], 0, 0, 12, .ro, (.num 0), .w⟩
def R.DOM_RING_W1.ARMED : Fld := ⟨.dom, 0x02400004, [(262144, 0x10)], 0, 12, 1, .ro, (.num 0), .w⟩

/- DOM_RING_W2, R490. -/
def R.DOM_RING_W2.CI : Fld := ⟨.dom, 0x02400008, [(262144, 0x10)], 0, 0, 16, .ro, (.num 0), .w⟩
def R.DOM_RING_W2.CPL_PI : Fld := ⟨.dom, 0x02400008, [(262144, 0x10)], 0, 16, 16, .ro, (.num 0), .w⟩

/- DOM_RING_W3, R490. -/
def R.DOM_RING_W3.PI : Fld := ⟨.dom, 0x0240000C, [(262144, 0x10)], 0, 0, 16, .ro, (.num 0), .w⟩
def R.DOM_RING_W3.CPL_CI : Fld := ⟨.dom, 0x0240000C, [(262144, 0x10)], 0, 16, 16, .ro, (.num 0), .w⟩

/- DOM_INST_CNT, R491. -/
def R.DOM_INST_CNT.COUNT : Fld := ⟨.dom, 0x02800000, [(16384, 0x40), (8, 0x8)], 0, 0, 64, .rc, (.num 0), .i⟩

/- DOM_CNT, R491. -/
def R.DOM_CNT.COUNT : Fld := ⟨.dom, 0x02F00000, [(8, 0x8)], 0, 0, 64, .rc, (.num 0), .w⟩

/- FIL_CFG, R525. -/
def R.FIL_CFG.TRIM_CORES : Fld := ⟨.fil, 0x0C000000, [], 0, 0, 7, .rw, (.num 64), .w⟩
def R.FIL_CFG.MBX_HART : Fld := ⟨.fil, 0x0C000000, [], 0, 7, 9, .rw, (.num 0), .w⟩
def R.FIL_CFG.POOL_EN : Fld := ⟨.fil, 0x0C000000, [], 0, 16, 1, .rwl, (.num 0), .w⟩
def R.FIL_CFG.LOCK : Fld := ⟨.fil, 0x0C000000, [], 0, 31, 1, .w1s, (.num 0), .w⟩

/- FIL_STATUS, R525. -/
def R.FIL_STATUS.CFG_ERR : Fld := ⟨.fil, 0x0C000004, [], 0, 0, 1, .w1c, (.num 0), .w⟩
def R.FIL_STATUS.ERR_CODE : Fld := ⟨.fil, 0x0C000004, [], 0, 1, 3, .ro, (.num 0), .w⟩
def R.FIL_STATUS.ERR_CORE : Fld := ⟨.fil, 0x0C000004, [], 0, 4, 6, .ro, (.num 0), .w⟩

/- FIL_RESET_PC_LO, R525. -/
def R.FIL_RESET_PC_LO.PC_LO : Fld := ⟨.fil, 0x0C000008, [], 0, 0, 32, .rwl, (.num 0), .w⟩

/- FIL_RESET_PC_HI, R525. -/
def R.FIL_RESET_PC_HI.PC_HI : Fld := ⟨.fil, 0x0C00000C, [], 0, 0, 32, .rwl, (.num 0), .w⟩

/- FIL_FPOOL, R525. -/
def R.FIL_FPOOL.BASE : Fld := ⟨.fil, 0x0C000010, [], 0, 0, 16, .rwl, (.num 0), .w⟩
def R.FIL_FPOOL.STACK : Fld := ⟨.fil, 0x0C000010, [], 0, 16, 2, .rwl, (.num 0), .w⟩

/- FIL_FPOOL_CNT, R525. -/
def R.FIL_FPOOL_CNT.COUNT : Fld := ⟨.fil, 0x0C000014, [], 0, 0, 17, .rwl, (.num 0), .w⟩

/- FIL_FPOOL_FREE, R525. -/
def R.FIL_FPOOL_FREE.FREE : Fld := ⟨.fil, 0x0C000018, [], 0, 0, 17, .ro, (.num 0), .w⟩

/- FIL_CORE_CTL, R526. -/
def R.FIL_CORE_CTL.RUN : Fld := ⟨.fil, 0x0C001000, [(64, 0x20)], 0, 0, 8, .rw, (.num 0), .w⟩
def R.FIL_CORE_CTL.HIGH_HART : Fld := ⟨.fil, 0x0C001000, [(64, 0x20)], 0, 8, 3, .rw, (.num 0), .w⟩
def R.FIL_CORE_CTL.HIGH_EN : Fld := ⟨.fil, 0x0C001000, [(64, 0x20)], 0, 11, 1, .rw, (.num 0), .w⟩
def R.FIL_CORE_CTL.HIGH_CAP : Fld := ⟨.fil, 0x0C001000, [(64, 0x20)], 0, 12, 5, .rw, (.num 16), .w⟩
def R.FIL_CORE_CTL.APPLY : Fld := ⟨.fil, 0x0C001000, [(64, 0x20)], 0, 17, 1, .wo, (.num 0), .w⟩

/- FIL_CORE_TABLE_LO, R526. -/
def R.FIL_CORE_TABLE_LO.SLOTS_0_7 : Fld := ⟨.fil, 0x0C001004, [(64, 0x20)], 0, 0, 32, .rw, (.num 0x76543210), .w⟩

/- FIL_CORE_TABLE_HI, R526. -/
def R.FIL_CORE_TABLE_HI.SLOTS_8_15 : Fld := ⟨.fil, 0x0C001008, [(64, 0x20)], 0, 0, 32, .rw, (.num 0x76543210), .w⟩

/- FIL_CORE_STATUS, R526. -/
def R.FIL_CORE_STATUS.RETIRED : Fld := ⟨.fil, 0x0C00100C, [(64, 0x20)], 0, 0, 1, .ro, .mram, .none⟩
def R.FIL_CORE_STATUS.FAIL_COUNT : Fld := ⟨.fil, 0x0C00100C, [(64, 0x20)], 0, 1, 2, .ro, (.num 0), .w⟩
def R.FIL_CORE_STATUS.GATED : Fld := ⟨.fil, 0x0C00100C, [(64, 0x20)], 0, 3, 1, .ro, (.num 0), .w⟩

/- FIL_HART_CTL, R527. -/
def R.FIL_HART_CTL.RESET : Fld := ⟨.fil, 0x0C004000, [(512, 0x10)], 0, 0, 1, .wo, (.num 0), .w⟩
def R.FIL_HART_CTL.WGRP : Fld := ⟨.fil, 0x0C004000, [(512, 0x10)], 0, 1, 6, .rw, (.num 0), .w⟩
def R.FIL_HART_CTL.WG_EN : Fld := ⟨.fil, 0x0C004000, [(512, 0x10)], 0, 7, 1, .rw, (.num 0), .w⟩
def R.FIL_HART_CTL.STATE : Fld := ⟨.fil, 0x0C004000, [(512, 0x10)], 0, 8, 3, .ro, (.num 0), .w⟩

/- FIL_HART_IRQ, R527. -/
def R.FIL_HART_IRQ.IRQ_PEND : Fld := ⟨.fil, 0x0C004004, [(512, 0x10)], 0, 0, 8, .w1s, (.num 0), .w⟩

/- FIL_HART_IRQ_CLR, R527. -/
def R.FIL_HART_IRQ_CLR.IRQ_CLR : Fld := ⟨.fil, 0x0C004008, [(512, 0x10)], 0, 0, 8, .w1c, (.num 0), .w⟩

/- FIL_HART_IRQ_EN, R527. -/
def R.FIL_HART_IRQ_EN.IRQ_EN : Fld := ⟨.fil, 0x0C00400C, [(512, 0x10)], 0, 0, 8, .rw, (.num 0), .w⟩

/- FIL_CNT, R529. -/
def R.FIL_CNT.COUNT : Fld := ⟨.fil, 0x0C008000, [(16, 0x8)], 0, 0, 64, .rc, (.num 0), .w⟩

/- FIL_CHW, R527. -/
def R.FIL_CHW.CHAN : Fld := ⟨.fil, 0x0C010000, [(512, 0x40), (16, 0x4)], 0, 0, 13, .rw, (.num 0), .w⟩
def R.FIL_CHW.EN : Fld := ⟨.fil, 0x0C010000, [(512, 0x40), (16, 0x4)], 0, 15, 1, .rw, (.num 0), .w⟩

/- FIL_WG_W0, R528. -/
def R.FIL_WG_W0.EN : Fld := ⟨.fil, 0x0C020000, [(64, 0x10)], 0, 0, 1, .rw, (.num 0), .w⟩
def R.FIL_WG_W0.CLOSED : Fld := ⟨.fil, 0x0C020000, [(64, 0x10)], 0, 1, 1, .rw, (.num 0), .w⟩
def R.FIL_WG_W0.CYCLE : Fld := ⟨.fil, 0x0C020000, [(64, 0x10)], 0, 2, 1, .ro, (.num 0), .w⟩
def R.FIL_WG_W0.WATCHER : Fld := ⟨.fil, 0x0C020000, [(64, 0x10)], 0, 8, 9, .rw, (.num 0), .w⟩

/- FIL_WG_W1, R528. -/
def R.FIL_WG_W1.MEMBERS : Fld := ⟨.fil, 0x0C020004, [(64, 0x10)], 0, 0, 10, .ro, (.num 0), .w⟩

/- FIL_WG_CNT, R528. -/
def R.FIL_WG_CNT.COUNT : Fld := ⟨.fil, 0x0C020008, [(64, 0x10)], 0, 0, 64, .rc, (.num 0), .w⟩

/- FIL_CH_W0, R528. -/
def R.FIL_CH_W0.EN : Fld := ⟨.fil, 0x0C040000, [(8192, 0x10)], 0, 0, 1, .rw, (.num 0), .w⟩
def R.FIL_CH_W0.PROD_CLASS : Fld := ⟨.fil, 0x0C040000, [(8192, 0x10)], 0, 1, 3, .rw, (.num 0), .w⟩
def R.FIL_CH_W0.PROD_GRP : Fld := ⟨.fil, 0x0C040000, [(8192, 0x10)], 0, 4, 7, .rw, (.num 127), .w⟩
def R.FIL_CH_W0.DEPTH_LOG2 : Fld := ⟨.fil, 0x0C040000, [(8192, 0x10)], 0, 11, 4, .rw, (.num 2), .w⟩

/- FIL_CH_W1, R528. -/
def R.FIL_CH_W1.BASE : Fld := ⟨.fil, 0x0C040004, [(8192, 0x10)], 0, 0, 16, .rw, (.num 0), .w⟩

/- FIL_CH_W2, R528. -/
def R.FIL_CH_W2.FILL : Fld := ⟨.fil, 0x0C040008, [(8192, 0x10)], 0, 0, 13, .ro, (.num 0), .w⟩

/- FIL_CH_W3, R528. -/
def R.FIL_CH_W3.DROPS : Fld := ⟨.fil, 0x0C04000C, [(8192, 0x10)], 0, 0, 32, .rc, (.num 0), .w⟩

/- TU_CFG, R554. -/
def R.TU_CFG.EN : Fld := ⟨.tu, 0x00400000, [], 0, 0, 1, .rw, (.num 0), .w⟩
def R.TU_CFG.LOCK : Fld := ⟨.tu, 0x00400000, [], 0, 31, 1, .w1s, (.num 0), .w⟩

/- TU_STATUS, R554. -/
def R.TU_STATUS.SERVO_STATE : Fld := ⟨.tu, 0x00400004, [], 0, 0, 2, .ro, (.num 0), .w⟩
def R.TU_STATUS.EEC_STATE : Fld := ⟨.tu, 0x00400004, [], 0, 2, 2, .ro, (.num 0), .w⟩
def R.TU_STATUS.EEC_REF : Fld := ⟨.tu, 0x00400004, [], 0, 4, 1, .ro, (.num 0), .w⟩
def R.TU_STATUS.CFG_ERR : Fld := ⟨.tu, 0x00400004, [], 0, 5, 1, .w1c, (.num 0), .w⟩
def R.TU_STATUS.SMP_BUSY : Fld := ⟨.tu, 0x00400004, [], 0, 6, 1, .ro, (.num 0), .w⟩

/- TU_SNAP, R554. -/
def R.TU_SNAP.CAPTURE : Fld := ⟨.tu, 0x00400010, [], 0, 0, 1, .wo, (.num 0), .w⟩

/- TU_SNAP_SEC_LO, R554. -/
def R.TU_SNAP_SEC_LO.SEC_LO : Fld := ⟨.tu, 0x00400014, [], 0, 0, 32, .ro, (.num 0), .w⟩

/- TU_SNAP_SEC_HI, R554. -/
def R.TU_SNAP_SEC_HI.SEC_HI : Fld := ⟨.tu, 0x00400018, [], 0, 0, 16, .ro, (.num 0), .w⟩

/- TU_SNAP_NS, R554. -/
def R.TU_SNAP_NS.NS : Fld := ⟨.tu, 0x0040001C, [], 0, 0, 30, .ro, (.num 0), .w⟩

/- TU_SNAP_FRAC, R554. -/
def R.TU_SNAP_FRAC.FRAC : Fld := ⟨.tu, 0x00400020, [], 0, 0, 16, .ro, (.num 0), .w⟩

/- TU_SET_SEC_LO, R554. -/
def R.TU_SET_SEC_LO.SEC_LO : Fld := ⟨.tu, 0x00400030, [], 0, 0, 32, .rw, (.num 0), .w⟩

/- TU_SET_SEC_HI, R554. -/
def R.TU_SET_SEC_HI.SEC_HI : Fld := ⟨.tu, 0x00400034, [], 0, 0, 16, .rw, (.num 0), .w⟩

/- TU_SET_NS, R554. -/
def R.TU_SET_NS.NS : Fld := ⟨.tu, 0x00400038, [], 0, 0, 30, .rw, (.num 0), .w⟩

/- TU_SET_FRAC, R554. -/
def R.TU_SET_FRAC.FRAC : Fld := ⟨.tu, 0x0040003C, [], 0, 0, 16, .rw, (.num 0), .w⟩

/- TU_SET_CTL, R554. -/
def R.TU_SET_CTL.APPLY : Fld := ⟨.tu, 0x00400040, [], 0, 0, 1, .wo, (.num 0), .w⟩
def R.TU_SET_CTL.ADD : Fld := ⟨.tu, 0x00400040, [], 0, 1, 1, .rw, (.num 0), .w⟩
def R.TU_SET_CTL.NEG : Fld := ⟨.tu, 0x00400040, [], 0, 2, 1, .rw, (.num 0), .w⟩

/- TU_FREQ, R554. -/
def R.TU_FREQ.FREQ : Fld := ⟨.tu, 0x00400044, [], 0, 0, 32, .rw, (.num 0), .w⟩

/- TU_FREQ_APPLIED, R554. -/
def R.TU_FREQ_APPLIED.FREQ_APPLIED : Fld := ⟨.tu, 0x00400048, [], 0, 0, 32, .ro, (.num 0), .w⟩

/- TU_STEP, R554. -/
def R.TU_STEP.STEP_COUNT : Fld := ⟨.tu, 0x00400050, [], 0, 0, 32, .ro, (.num 0), .w⟩

/- TU_STEP_MTIME, R554. -/
def R.TU_STEP_MTIME.MTIME : Fld := ⟨.tu, 0x00400054, [(2, 0x4)], 0, 0, 32, .ro, (.num 0), .w⟩

/- TU_SERVO, R555. -/
def R.TU_SERVO.MODE : Fld := ⟨.tu, 0x00400060, [], 0, 0, 3, .rw, (.num 0), .w⟩
def R.TU_SERVO.SRC : Fld := ⟨.tu, 0x00400060, [], 0, 3, 2, .rw, (.num 0), .w⟩
def R.TU_SERVO.KP_SHIFT : Fld := ⟨.tu, 0x00400060, [], 0, 5, 5, .rw, (.num 4), .w⟩
def R.TU_SERVO.KI_SHIFT : Fld := ⟨.tu, 0x00400060, [], 0, 10, 5, .rw, (.num 10), .w⟩
def R.TU_SERVO.STEP_EN : Fld := ⟨.tu, 0x00400060, [], 0, 15, 1, .rw, (.num 1), .w⟩
def R.TU_SERVO.LOCK_COUNT : Fld := ⟨.tu, 0x00400060, [], 0, 16, 8, .rw, (.num 16), .w⟩

/- TU_SERVO_LIM, R555. -/
def R.TU_SERVO_LIM.LOCK_THRESH : Fld := ⟨.tu, 0x00400064, [], 0, 0, 16, .rw, (.num 100), .w⟩
def R.TU_SERVO_LIM.HOLD_TMO : Fld := ⟨.tu, 0x00400064, [], 0, 16, 16, .rw, (.num 3000), .w⟩

/- TU_STEP_THRESH, R555. -/
def R.TU_STEP_THRESH.STEP_THRESH : Fld := ⟨.tu, 0x00400068, [], 0, 0, 32, .rw, (.num 1000), .w⟩

/- TU_MAX_FREQ, R555. -/
def R.TU_MAX_FREQ.MAX_FREQ : Fld := ⟨.tu, 0x0040006C, [], 0, 0, 19, .rw, (.num 200000), .w⟩

/- TU_OUT_OFF, R555. -/
def R.TU_OUT_OFF.OFFSET : Fld := ⟨.tu, 0x00400070, [], 0, 0, 32, .ro, (.num 0), .w⟩

/- TU_OUT_DLY, R555. -/
def R.TU_OUT_DLY.DELAY : Fld := ⟨.tu, 0x00400074, [], 0, 0, 32, .ro, (.num 0), .w⟩

/- TU_OUT_INT, R555. -/
def R.TU_OUT_INT.INTEG : Fld := ⟨.tu, 0x00400078, [], 0, 0, 32, .ro, (.num 0), .w⟩

/- TU_SMP_SEC_LO, R555. -/
def R.TU_SMP_SEC_LO.SEC_LO : Fld := ⟨.tu, 0x00400080, [(4, 0x10)], 0, 0, 32, .rw, (.num 0), .w⟩

/- TU_SMP_SEC_HI, R555. -/
def R.TU_SMP_SEC_HI.SEC_HI : Fld := ⟨.tu, 0x00400084, [(4, 0x10)], 0, 0, 16, .rw, (.num 0), .w⟩

/- TU_SMP_NS, R555. -/
def R.TU_SMP_NS.NS : Fld := ⟨.tu, 0x00400088, [(4, 0x10)], 0, 0, 30, .rw, (.num 0), .w⟩

/- TU_SMP_FRAC, R555. -/
def R.TU_SMP_FRAC.FRAC : Fld := ⟨.tu, 0x0040008C, [(4, 0x10)], 0, 0, 16, .rw, (.num 0), .w⟩

/- TU_SMP_CTL, R555. -/
def R.TU_SMP_CTL.COMMIT : Fld := ⟨.tu, 0x004000C0, [], 0, 0, 1, .wo, (.num 0), .w⟩
def R.TU_SMP_CTL.KIND : Fld := ⟨.tu, 0x004000C0, [], 0, 1, 1, .rw, (.num 0), .w⟩

/- TU_SMP_DELAY, R555. -/
def R.TU_SMP_DELAY.DELAY : Fld := ⟨.tu, 0x004000C4, [], 0, 0, 32, .rw, (.num 0), .w⟩

/- TU_PPS, R555. -/
def R.TU_PPS.OUT_EN : Fld := ⟨.tu, 0x00400100, [], 0, 0, 1, .rw, (.num 0), .w⟩
def R.TU_PPS.IN_EN : Fld := ⟨.tu, 0x00400100, [], 0, 1, 1, .rw, (.num 0), .w⟩

/- TU_PPS_WIDTH, R555. -/
def R.TU_PPS_WIDTH.OUT_WIDTH : Fld := ⟨.tu, 0x00400104, [], 0, 0, 19, .rw, (.num 100000), .w⟩

/- TU_PPS_OFF, R555. -/
def R.TU_PPS_OFF.OUT_OFFSET : Fld := ⟨.tu, 0x00400108, [], 0, 0, 32, .rw, (.num 0), .w⟩

/- TU_PPS_LAT, R555. -/
def R.TU_PPS_LAT.IN_LAT : Fld := ⟨.tu, 0x0040010C, [], 0, 0, 32, .rw, (.num 0), .w⟩

/- TU_PPS_IN_SEC_LO, R555. -/
def R.TU_PPS_IN_SEC_LO.SEC_LO : Fld := ⟨.tu, 0x00400110, [], 0, 0, 32, .ro, (.num 0), .w⟩

/- TU_PPS_IN_SEC_HI, R555. -/
def R.TU_PPS_IN_SEC_HI.SEC_HI : Fld := ⟨.tu, 0x00400114, [], 0, 0, 16, .ro, (.num 0), .w⟩

/- TU_PPS_IN_NS, R555. -/
def R.TU_PPS_IN_NS.NS : Fld := ⟨.tu, 0x00400118, [], 0, 0, 30, .ro, (.num 0), .w⟩

/- TU_PPS_IN_FRAC, R555. -/
def R.TU_PPS_IN_FRAC.FRAC : Fld := ⟨.tu, 0x0040011C, [], 0, 0, 16, .ro, (.num 0), .w⟩

/- TU_SYNCE, R556. -/
def R.TU_SYNCE.EN : Fld := ⟨.tu, 0x00400140, [], 0, 0, 1, .rw, (.num 0), .w⟩
def R.TU_SYNCE.TX_STEER : Fld := ⟨.tu, 0x00400140, [], 0, 1, 1, .rw, (.num 0), .w⟩
def R.TU_SYNCE.BW : Fld := ⟨.tu, 0x00400140, [], 0, 2, 2, .rw, (.num 0), .w⟩
def R.TU_SYNCE.REVERT : Fld := ⟨.tu, 0x00400140, [], 0, 4, 1, .rw, (.num 0), .w⟩
def R.TU_SYNCE.REF0 : Fld := ⟨.tu, 0x00400140, [], 0, 5, 7, .rw, (.num 0), .w⟩
def R.TU_SYNCE.REF0_EN : Fld := ⟨.tu, 0x00400140, [], 0, 12, 1, .rw, (.num 0), .w⟩
def R.TU_SYNCE.REF1 : Fld := ⟨.tu, 0x00400140, [], 0, 13, 7, .rw, (.num 0), .w⟩
def R.TU_SYNCE.REF1_EN : Fld := ⟨.tu, 0x00400140, [], 0, 20, 1, .rw, (.num 0), .w⟩
def R.TU_SYNCE.PRIO : Fld := ⟨.tu, 0x00400140, [], 0, 21, 1, .rw, (.num 0), .w⟩

/- TU_SYNCE_ST, R556. -/
def R.TU_SYNCE_ST.REF0_OK : Fld := ⟨.tu, 0x00400144, [], 0, 0, 1, .ro, (.num 0), .w⟩
def R.TU_SYNCE_ST.REF1_OK : Fld := ⟨.tu, 0x00400144, [], 0, 1, 1, .ro, (.num 0), .w⟩

/- TU_SYNCE_FFO, R556. -/
def R.TU_SYNCE_FFO.FFO : Fld := ⟨.tu, 0x00400148, [], 0, 0, 32, .ro, (.num 0), .w⟩

/- TU_STK, R556. -/
def R.TU_STK.PERIOD : Fld := ⟨.tu, 0x00400160, [], 0, 0, 8, .rw, (.num 62), .w⟩

/- TU_STK_ASYM, R556. -/
def R.TU_STK_ASYM.ASYM : Fld := ⟨.tu, 0x00400164, [], 0, 0, 32, .rw, (.num 0), .w⟩

/- TU_STK_LINK, R556. -/
def R.TU_STK_LINK.DELAY : Fld := ⟨.tu, 0x00400170, [(4, 0x4)], 0, 0, 32, .ro, (.num 0), .w⟩

/- TU_TXTS, R556. -/
def R.TU_TXTS.CHAN : Fld := ⟨.tu, 0x00400180, [], 0, 0, 13, .rw, (.num 0), .w⟩
def R.TU_TXTS.EN : Fld := ⟨.tu, 0x00400180, [], 0, 15, 1, .rw, (.num 0), .w⟩

/- TU_PORT_CTL, R556. -/
def R.TU_PORT_CTL.PTP_EN : Fld := ⟨.tu, 0x00401000, [(128, 0x20)], 0, 0, 1, .rw, (.num 0), .w⟩
def R.TU_PORT_CTL.ONE_STEP : Fld := ⟨.tu, 0x00401000, [(128, 0x20)], 0, 1, 1, .rw, (.num 0), .w⟩
def R.TU_PORT_CTL.TC_EN : Fld := ⟨.tu, 0x00401000, [(128, 0x20)], 0, 2, 1, .rw, (.num 0), .w⟩
def R.TU_PORT_CTL.TC_P2P : Fld := ⟨.tu, 0x00401000, [(128, 0x20)], 0, 3, 1, .rw, (.num 0), .w⟩
def R.TU_PORT_CTL.L2 : Fld := ⟨.tu, 0x00401000, [(128, 0x20)], 0, 4, 1, .rw, (.num 0), .w⟩
def R.TU_PORT_CTL.UDP4 : Fld := ⟨.tu, 0x00401000, [(128, 0x20)], 0, 5, 1, .rw, (.num 0), .w⟩
def R.TU_PORT_CTL.UDP6 : Fld := ⟨.tu, 0x00401000, [(128, 0x20)], 0, 6, 1, .rw, (.num 0), .w⟩

/- TU_PORT_RX_LAT, R556. -/
def R.TU_PORT_RX_LAT.RX_LAT : Fld := ⟨.tu, 0x00401004, [(128, 0x20)], 0, 0, 32, .rw, (.num 0), .w⟩

/- TU_PORT_TX_LAT, R556. -/
def R.TU_PORT_TX_LAT.TX_LAT : Fld := ⟨.tu, 0x00401008, [(128, 0x20)], 0, 0, 32, .rw, (.num 0), .w⟩

/- TU_PORT_ASYM_LO, R556. -/
def R.TU_PORT_ASYM_LO.ASYM_LO : Fld := ⟨.tu, 0x0040100C, [(128, 0x20)], 0, 0, 32, .rw, (.num 0), .w⟩

/- TU_PORT_ASYM_HI, R556. -/
def R.TU_PORT_ASYM_HI.ASYM_HI : Fld := ⟨.tu, 0x00401010, [(128, 0x20)], 0, 0, 8, .rw, (.num 0), .w⟩

/- TU_PORT_LINK_DELAY, R556. -/
def R.TU_PORT_LINK_DELAY.LINK_DELAY : Fld := ⟨.tu, 0x00401014, [(128, 0x20)], 0, 0, 32, .rw, (.num 0), .w⟩

/- TU_CNT, R557. -/
def R.TU_CNT.COUNT : Fld := ⟨.tu, 0x00408000, [(16, 0x8)], 0, 0, 64, .rc, (.num 0), .w⟩

/- PWR_CTL, R579. -/
def R.PWR_CTL.REQ : Fld := ⟨.pwr, 0x00100000, [], 0, 0, 2, .rw, (.num 0), .c⟩
def R.PWR_CTL.GO : Fld := ⟨.pwr, 0x00100000, [], 0, 2, 1, .wo, (.num 0), .c⟩
def R.PWR_CTL.LOCK : Fld := ⟨.pwr, 0x00100000, [], 0, 31, 1, .w1s, (.num 0), .c⟩

/- PWR_STATUS, R579. -/
def R.PWR_STATUS.STATE : Fld := ⟨.pwr, 0x00100004, [], 0, 0, 2, .ro, (.num 0), .c⟩
def R.PWR_STATUS.BUSY : Fld := ⟨.pwr, 0x00100004, [], 0, 2, 1, .ro, (.num 0), .c⟩
def R.PWR_STATUS.LOST : Fld := ⟨.pwr, 0x00100004, [], 0, 3, 1, .w1c, (.num 1), .c⟩
def R.PWR_STATUS.LOST_CAUSE : Fld := ⟨.pwr, 0x00100004, [], 0, 4, 3, .ro, (.num 1), .c⟩
def R.PWR_STATUS.REFUSED : Fld := ⟨.pwr, 0x00100004, [], 0, 7, 1, .w1c, (.num 0), .c⟩
def R.PWR_STATUS.REFUSE_WHY : Fld := ⟨.pwr, 0x00100004, [], 0, 8, 7, .ro, (.num 0), .c⟩

/- PWR_WAKE, R579. -/
def R.PWR_WAKE.FRAME_EN : Fld := ⟨.pwr, 0x00100008, [], 0, 0, 1, .rw, (.num 1), .c⟩
def R.PWR_WAKE.SAHROV_EN : Fld := ⟨.pwr, 0x00100008, [], 0, 1, 1, .rw, (.num 1), .c⟩
def R.PWR_WAKE.TIMER_EN : Fld := ⟨.pwr, 0x00100008, [], 0, 2, 1, .rw, (.num 0), .c⟩
def R.PWR_WAKE.BMC_EN : Fld := ⟨.pwr, 0x00100008, [], 0, 3, 1, .rw, (.num 1), .c⟩
def R.PWR_WAKE.PERST_EN : Fld := ⟨.pwr, 0x00100008, [], 0, 4, 1, .rw, (.num 1), .c⟩
def R.PWR_WAKE.LAST_SRC : Fld := ⟨.pwr, 0x00100008, [], 0, 16, 3, .ro, (.num 0), .c⟩

/- PWR_WAKE_TIMER, R579. -/
def R.PWR_WAKE_TIMER.TIMER : Fld := ⟨.pwr, 0x0010000C, [], 0, 0, 32, .rw, (.num 0), .c⟩

/- PWR_DORM_WAIT, R579. -/
def R.PWR_DORM_WAIT.WAIT : Fld := ⟨.pwr, 0x00100010, [], 0, 0, 16, .rw, (.num 10), .c⟩

/- PWR_RST, R580. -/
def R.PWR_RST.WARM : Fld := ⟨.pwr, 0x00100020, [], 0, 0, 1, .wo, (.num 0), .c⟩
def R.PWR_RST.COLD : Fld := ⟨.pwr, 0x00100020, [], 0, 1, 1, .wo, (.num 0), .c⟩
def R.PWR_RST.KEY : Fld := ⟨.pwr, 0x00100020, [], 0, 16, 16, .wo, (.num 0), .c⟩

/- PWR_RST_CAUSE, R580. -/
def R.PWR_RST_CAUSE.KIND : Fld := ⟨.pwr, 0x00100024, [], 0, 0, 2, .ro, (.num 1), .p⟩
def R.PWR_RST_CAUSE.SOURCE : Fld := ⟨.pwr, 0x00100024, [], 0, 2, 4, .ro, (.num 0), .p⟩

/- PWR_BLK_RST, R580. -/
def R.PWR_BLK_RST.KIND : Fld := ⟨.pwr, 0x00100028, [], 0, 0, 4, .wo, (.num 0), .c⟩
def R.PWR_BLK_RST.UNIT : Fld := ⟨.pwr, 0x00100028, [], 0, 4, 6, .wo, (.num 0), .c⟩
def R.PWR_BLK_RST.GO : Fld := ⟨.pwr, 0x00100028, [], 0, 10, 1, .wo, (.num 0), .c⟩
def R.PWR_BLK_RST.BUSY : Fld := ⟨.pwr, 0x00100028, [], 0, 31, 1, .ro, (.num 0), .c⟩

/- PWR_TRIM, R581. -/
def R.PWR_TRIM.TRIM : Fld := ⟨.pwr, 0x00100100, [(5, 0x4)], 0, 0, 32, .rwl, .trim, .c⟩

/- PWR_DOM_ON, R581. -/
def R.PWR_DOM_ON.ON : Fld := ⟨.pwr, 0x00100120, [(5, 0x4)], 0, 0, 32, .ro, .trim, .c⟩

/- PWR_DOM_HELD, R581. -/
def R.PWR_DOM_HELD.HELD : Fld := ⟨.pwr, 0x00100140, [(5, 0x4)], 0, 0, 32, .ro, (.num 0), .c⟩

/- PWR_CNT, R582. -/
def R.PWR_CNT.COUNT : Fld := ⟨.pwr, 0x00108000, [(16, 0x8)], 0, 0, 64, .rc, (.num 0), .c⟩

/- CLK_STATUS, R583. -/
def R.CLK_STATUS.ROOT_LOCK : Fld := ⟨.clk, 0x00200000, [], 0, 0, 1, .ro, (.num 0), .w⟩
def R.CLK_STATUS.REFCLK_OK : Fld := ⟨.clk, 0x00200000, [], 0, 1, 1, .ro, (.num 0), .c⟩
def R.CLK_STATUS.ON_OSC : Fld := ⟨.clk, 0x00200000, [], 0, 2, 1, .ro, (.num 0), .c⟩
def R.CLK_STATUS.HOLD : Fld := ⟨.clk, 0x00200000, [], 0, 3, 1, .ro, (.num 0), .w⟩
def R.CLK_STATUS.GRADE : Fld := ⟨.clk, 0x00200000, [], 0, 4, 1, .ro, .fuseGrade, .none⟩
def R.CLK_STATUS.REFCLK_LOST : Fld := ⟨.clk, 0x00200000, [], 0, 5, 1, .w1c, (.num 0), .c⟩

/- CLK_ROOT, R583. -/
def R.CLK_ROOT.RATIO_X10 : Fld := ⟨.clk, 0x00200004, [], 0, 0, 10, .ro, .fuseRatio, .none⟩

/- CLK_OSC, R583. -/
def R.CLK_OSC.OSC_KHZ : Fld := ⟨.clk, 0x00200008, [], 0, 0, 24, .ro, (.num 0), .c⟩

/- CLK_CNT, R583. -/
def R.CLK_CNT.COUNT : Fld := ⟨.clk, 0x00208000, [(4, 0x8)], 0, 0, 64, .rc, (.num 0), .c⟩

/- REV_CFG, R607. -/
def R.REV_CFG.VEC : Fld := ⟨.rev, 0x00300000, [], 0, 0, 11, .rw, (.num 0), .c⟩
def R.REV_CFG.VEC_EN : Fld := ⟨.rev, 0x00300000, [], 0, 11, 1, .rw, (.num 0), .c⟩
def R.REV_CFG.K_TEMP : Fld := ⟨.rev, 0x00300000, [], 0, 12, 3, .rw, (.num 3), .c⟩
def R.REV_CFG.K_VOLT : Fld := ⟨.rev, 0x00300000, [], 0, 15, 3, .rw, (.num 2), .c⟩
def R.REV_CFG.AVS_EN : Fld := ⟨.rev, 0x00300000, [], 0, 18, 1, .rwl, (.num 1), .c⟩
def R.REV_CFG.LOCK : Fld := ⟨.rev, 0x00300000, [], 0, 31, 1, .w1s, (.num 0), .c⟩

/- REV_STATUS, R607. -/
def R.REV_STATUS.TSTATE : Fld := ⟨.rev, 0x00300004, [], 0, 0, 2, .ro, (.num 0), .c⟩
def R.REV_STATUS.VFAULT : Fld := ⟨.rev, 0x00300004, [], 0, 2, 1, .w1c, (.num 0), .c⟩
def R.REV_STATUS.HOT_SENSOR : Fld := ⟨.rev, 0x00300004, [], 0, 8, 6, .ro, (.num 0), .c⟩

/- REV_TH, R607. -/
def R.REV_TH.WARN : Fld := ⟨.rev, 0x00300008, [], 0, 0, 8, .rw, (.num 110), .c⟩
def R.REV_TH.THROTTLE : Fld := ⟨.rev, 0x00300008, [], 0, 8, 8, .rw, (.num 118), .c⟩
def R.REV_TH.CRIT : Fld := ⟨.rev, 0x00300008, [], 0, 16, 8, .rw, (.num 125), .c⟩
def R.REV_TH.HYST : Fld := ⟨.rev, 0x00300008, [], 0, 24, 4, .rw, (.num 5), .c⟩

/- REV_THR, R607. -/
def R.REV_THR.FIL_DUTY : Fld := ⟨.rev, 0x0030000C, [], 0, 0, 4, .rw, (.num 8), .c⟩
def R.REV_THR.HSK_DUTY : Fld := ⟨.rev, 0x0030000C, [], 0, 4, 4, .rw, (.num 8), .c⟩

/- REV_AVS, R607. -/
def R.REV_AVS.TARGET_MV : Fld := ⟨.rev, 0x00300010, [], 0, 0, 10, .ro, (.num 0), .c⟩

/- REV_MCTP, R607. -/
def R.REV_MCTP.SMB_ADDR : Fld := ⟨.rev, 0x00300014, [], 0, 0, 7, .rw, (.num 0x64), .c⟩

/- REV_TEMP, R608. -/
def R.REV_TEMP.FILT : Fld := ⟨.rev, 0x00300100, [(64, 0x4)], 0, 0, 16, .ro, (.num 0), .c⟩
def R.REV_TEMP.RAW : Fld := ⟨.rev, 0x00300100, [(64, 0x4)], 0, 16, 16, .ro, (.num 0), .c⟩

/- REV_VOLT, R608. -/
def R.REV_VOLT.FILT : Fld := ⟨.rev, 0x00300200, [(48, 0x4)], 0, 0, 16, .ro, (.num 0), .c⟩
def R.REV_VOLT.RAW : Fld := ⟨.rev, 0x00300200, [(48, 0x4)], 0, 16, 16, .ro, (.num 0), .c⟩

/- REV_VTH_W0, R608. -/
def R.REV_VTH_W0.UV_WARN : Fld := ⟨.rev, 0x00300300, [(48, 0x8)], 0, 0, 16, .rw, .fuseUvWarn, .c⟩
def R.REV_VTH_W0.UV_FAULT : Fld := ⟨.rev, 0x00300300, [(48, 0x8)], 0, 16, 16, .rw, .fuseUvFault, .c⟩

/- REV_VTH_W1, R608. -/
def R.REV_VTH_W1.OV_FAULT : Fld := ⟨.rev, 0x00300304, [(48, 0x8)], 0, 0, 16, .rw, .fuseOvFault, .c⟩
def R.REV_VTH_W1.EN : Fld := ⟨.rev, 0x00300304, [(48, 0x8)], 0, 16, 1, .rw, .fuseVthEn, .c⟩

/- REV_CLASS_W0, R608. -/
def R.REV_CLASS_W0.COUNT_MAX : Fld := ⟨.rev, 0x00300600, [(13, 0x8)], 1, 0, 4, .rw, .classMax, .c⟩
def R.REV_CLASS_W0.WINDOW_MS : Fld := ⟨.rev, 0x00300600, [(13, 0x8)], 1, 4, 16, .rw, (.num 1000), .c⟩
def R.REV_CLASS_W0.RETIRE_EN : Fld := ⟨.rev, 0x00300600, [(13, 0x8)], 1, 20, 1, .rw, (.num 1), .c⟩

/- REV_CLASS_W1, R608. -/
def R.REV_CLASS_W1.FAILS : Fld := ⟨.rev, 0x00300604, [(13, 0x8)], 1, 0, 32, .ro, (.num 0), .c⟩

/- REV_RET_CLR, R609. -/
def R.REV_RET_CLR.KIND : Fld := ⟨.rev, 0x00300700, [], 0, 0, 3, .wo, (.num 0), .c⟩
def R.REV_RET_CLR.UNIT : Fld := ⟨.rev, 0x00300700, [], 0, 3, 12, .wo, (.num 0), .c⟩
def R.REV_RET_CLR.GO : Fld := ⟨.rev, 0x00300700, [], 0, 15, 1, .wo, (.num 0), .c⟩
def R.REV_RET_CLR.KEY : Fld := ⟨.rev, 0x00300700, [], 0, 16, 16, .wo, (.num 0), .c⟩

/- REV_RET_PEND, R609. -/
def R.REV_RET_PEND.PENDING : Fld := ⟨.rev, 0x00300704, [], 0, 0, 13, .ro, (.num 0), .c⟩

/- REV_HBM_W0, R609. -/
def R.REV_HBM_W0.PC_RETIRED : Fld := ⟨.rev, 0x00300800, [(4, 0x10)], 0, 0, 32, .ro, .mram, .none⟩

/- REV_HBM_W1, R609. -/
def R.REV_HBM_W1.USABLE_MIB : Fld := ⟨.rev, 0x00300804, [(4, 0x10)], 0, 0, 16, .ro, (.num 49152), .w⟩
def R.REV_HBM_W1.SPARES_USED : Fld := ⟨.rev, 0x00300804, [(4, 0x10)], 0, 16, 8, .ro, .mram, .none⟩

/- REV_HBM_W2, R609. -/
def R.REV_HBM_W2.UNMAPPED : Fld := ⟨.rev, 0x00300808, [(4, 0x10)], 0, 0, 32, .ro, (.num 0), .w⟩

/- REV_CAUSE, R609. -/
def R.REV_CAUSE.CAUSE : Fld := ⟨.rev, 0x00300900, [], 0, 0, 8, .ro, .mram, .none⟩
def R.REV_CAUSE.SENSOR : Fld := ⟨.rev, 0x00300900, [], 0, 8, 6, .ro, .mram, .none⟩
def R.REV_CAUSE.NEW : Fld := ⟨.rev, 0x00300900, [], 0, 15, 1, .w1c, .mram, .none⟩
def R.REV_CAUSE.SEQ : Fld := ⟨.rev, 0x00300900, [], 0, 16, 16, .ro, .mram, .none⟩

/- REV_CAUSE_UP, R609. -/
def R.REV_CAUSE_UP.UPTIME : Fld := ⟨.rev, 0x00300904, [], 0, 0, 32, .ro, .mram, .none⟩

/- REV_LOG_HEAD, R609. -/
def R.REV_LOG_HEAD.HEAD : Fld := ⟨.rev, 0x00300A00, [], 0, 0, 8, .ro, .mram, .none⟩

/- REV_LOG, R609. -/
def R.REV_LOG.ENTRY : Fld := ⟨.rev, 0x00310000, [(256, 0x10), (4, 0x4)], 0, 0, 32, .ro, .mram, .none⟩

/- REV_CNT, R610. -/
def R.REV_CNT.COUNT : Fld := ⟨.rev, 0x00308000, [(16, 0x8)], 0, 0, 64, .rc, (.num 0), .c⟩

/- DBG_BOOT, R637. -/
def R.DBG_BOOT.STAGE : Fld := ⟨.dbg, 0x0F000000, [], 0, 0, 4, .ro, (.num 0), .c⟩
def R.DBG_BOOT.SLOT_R : Fld := ⟨.dbg, 0x0F000000, [], 0, 4, 1, .ro, (.num 0), .c⟩
def R.DBG_BOOT.SLOT_F : Fld := ⟨.dbg, 0x0F000000, [], 0, 5, 1, .ro, (.num 0), .c⟩
def R.DBG_BOOT.FAIL : Fld := ⟨.dbg, 0x0F000000, [], 0, 8, 4, .ro, (.num 0), .c⟩

/- DBG_SVN, R637. -/
def R.DBG_SVN.FLOOR_R : Fld := ⟨.dbg, 0x0F000004, [], 0, 0, 7, .ro, .mram, .none⟩
def R.DBG_SVN.FLOOR_F : Fld := ⟨.dbg, 0x0F000004, [], 0, 8, 7, .ro, .mram, .none⟩
def R.DBG_SVN.REVOKED : Fld := ⟨.dbg, 0x0F000004, [], 0, 16, 4, .ro, .mram, .none⟩

/- DBG_UNLOCK_CTL, R637. -/
def R.DBG_UNLOCK_CTL.NEW_CHAL : Fld := ⟨.dbg, 0x0F000010, [], 0, 0, 1, .wo, (.num 0), .w⟩
def R.DBG_UNLOCK_CTL.VERIFY : Fld := ⟨.dbg, 0x0F000010, [], 0, 1, 1, .wo, (.num 0), .w⟩
def R.DBG_UNLOCK_CTL.RELOCK : Fld := ⟨.dbg, 0x0F000010, [], 0, 2, 1, .wo, (.num 0), .w⟩
def R.DBG_UNLOCK_CTL.STATUS : Fld := ⟨.dbg, 0x0F000010, [], 0, 4, 3, .ro, (.num 0), .w⟩
def R.DBG_UNLOCK_CTL.SCOPE : Fld := ⟨.dbg, 0x0F000010, [], 0, 7, 3, .ro, (.num 0), .w⟩
def R.DBG_UNLOCK_CTL.AUTH : Fld := ⟨.dbg, 0x0F000010, [], 0, 10, 2, .ro, (.num 0), .w⟩

/- DBG_UNLOCK_CHAL, R637. -/
def R.DBG_UNLOCK_CHAL.CHAL : Fld := ⟨.dbg, 0x0F000020, [(12, 0x4)], 0, 0, 32, .ro, (.num 0), .w⟩

/- DBG_RMA, R637. -/
def R.DBG_RMA.RMA_ALLOW : Fld := ⟨.dbg, 0x0F000050, [], 0, 0, 1, .rw, (.num 0), .none⟩

/- DBG_LMS, R637. -/
def R.DBG_LMS.NEXT : Fld := ⟨.dbg, 0x0F000060, [], 0, 0, 32, .ro, (.num 0), .c⟩

/- DBG_OWNER_SPDM, R637. -/
def R.DBG_OWNER_SPDM.HASH : Fld := ⟨.dbg, 0x0F000100, [(12, 0x4)], 0, 0, 32, .rw, (.num 0), .none⟩

/- DBG_OWNER_DEBUG, R637. -/
def R.DBG_OWNER_DEBUG.HASH : Fld := ⟨.dbg, 0x0F000140, [(12, 0x4)], 0, 0, 32, .rw, (.num 0), .none⟩

/- DBG_TOKEN, R637. -/
def R.DBG_TOKEN.TOKEN : Fld := ⟨.dbg, 0x0F001000, [(1024, 0x4)], 0, 0, 32, .rw, (.num 0), .w⟩

/- GLB_ID, R673. -/
def R.GLB_ID.VENDOR : Fld := ⟨.glb, 0x00000000, [], 0, 0, 16, .ro, (.num 0xAC4E), .none⟩
def R.GLB_ID.PART : Fld := ⟨.glb, 0x00000000, [], 0, 16, 16, .ro, (.num 0x0128), .none⟩

/- GLB_REV, R673. -/
def R.GLB_REV.MINOR : Fld := ⟨.glb, 0x00000004, [], 0, 0, 4, .ro, (.num 1), .none⟩
def R.GLB_REV.STEP : Fld := ⟨.glb, 0x00000004, [], 0, 4, 4, .ro, (.num 1), .none⟩
def R.GLB_REV.GRADE : Fld := ⟨.glb, 0x00000004, [], 0, 8, 1, .ro, .fuseGrade, .none⟩

/- GLB_SERIAL_LO, R673. -/
def R.GLB_SERIAL_LO.SERIAL : Fld := ⟨.glb, 0x00000008, [], 0, 0, 32, .ro, .fuseSerialLo, .none⟩

/- GLB_SERIAL_HI, R673. -/
def R.GLB_SERIAL_HI.SERIAL : Fld := ⟨.glb, 0x0000000C, [], 0, 0, 32, .ro, .fuseSerialHi, .none⟩

/- GLB_STRAP, R673. -/
def R.GLB_STRAP.OWNER_SEL : Fld := ⟨.glb, 0x00000010, [], 0, 0, 2, .ro, .strap, .c⟩
def R.GLB_STRAP.HOST_SPLIT : Fld := ⟨.glb, 0x00000010, [], 0, 2, 4, .ro, .strap, .c⟩
def R.GLB_STRAP.STACK_ID : Fld := ⟨.glb, 0x00000010, [], 0, 6, 2, .ro, .strap, .c⟩

/- GLB_CFG, R673. -/
def R.GLB_CFG.LOCK_ALL : Fld := ⟨.glb, 0x00000020, [], 0, 0, 1, .wo, (.num 0), .w⟩
def R.GLB_CFG.LOCK : Fld := ⟨.glb, 0x00000020, [], 0, 31, 1, .w1s, (.num 0), .w⟩

/- GLB_ERR, R673. -/
def R.GLB_ERR.VALID : Fld := ⟨.glb, 0x00000024, [], 0, 0, 1, .w1c, (.num 0), .w⟩
def R.GLB_ERR.KIND : Fld := ⟨.glb, 0x00000024, [], 0, 1, 3, .ro, (.num 0), .w⟩
def R.GLB_ERR.DOMAIN : Fld := ⟨.glb, 0x00000024, [], 0, 4, 2, .ro, (.num 0), .w⟩

/- GLB_ERR_ADDR, R673. -/
def R.GLB_ERR_ADDR.ADDR : Fld := ⟨.glb, 0x00000028, [], 0, 0, 28, .ro, (.num 0), .w⟩

/- GLB_CNT, R674. -/
def R.GLB_CNT.COUNT : Fld := ⟨.glb, 0x00008000, [(8, 0x8)], 0, 0, 64, .rc, (.num 0), .w⟩

/-- The fields of the ETH bank. -/
def blkFields_eth : List Fld :=
  [R.ETH_OCT_CFG.APPLY, R.ETH_OCT_CFG.SAHROV, R.ETH_OCT_CFG.PLL_SRC, R.ETH_OCT_CFG.PLL_LANE, R.ETH_OCT_CFG.LOCK, R.ETH_OCT_STATUS.CFG_ERR, R.ETH_OCT_STATUS.PLL_LOCK, R.ETH_OCT_STATUS.ERR_PORT, R.ETH_RCLK.EN, R.ETH_RCLK.OUT, R.ETH_RCLK.LANE, R.ETH_RCLK.SQUELCH, R.ETH_RCLK.CONFLICT, R.ETH_PORT_CFG.EN, R.ETH_PORT_CFG.SPEED, R.ETH_PORT_CFG.LANES, R.ETH_PORT_CFG.FEC, R.ETH_PORT_CFG.MAX_FRAME, R.ETH_PORT_CFG.PFC_EN, R.ETH_PORT_CFG.PAUSE_EN, R.ETH_PORT_CFG.PREEMPT_EN, R.ETH_PORT_CFG.VERIFY_DIS, R.ETH_PORT_CFG.ADD_FRAG, R.ETH_PORT_CFG.TRAIN_EN] ++
  [R.ETH_PORT_HOLD.HOLD, R.ETH_PORT_HOLD.UP_QUAL, R.ETH_PORT_STATUS.STATE, R.ETH_PORT_STATUS.LOCAL_FAULT, R.ETH_PORT_STATUS.REMOTE_FAULT, R.ETH_PORT_STATUS.LANE_RETIRED, R.ETH_PORT_STATUS.VERIFY, R.ETH_PORT_STATUS.HOLD_EXPIRED, R.ETH_PORT_LEFT.HOLD_LEFT, R.ETH_LANE_CFG.TX_POL, R.ETH_LANE_CFG.RX_POL, R.ETH_LANE_CFG.TX_PRESET, R.ETH_LANE_CFG.LOOPBACK, R.ETH_LANE_STATUS.CDR_LOCK, R.ETH_LANE_STATUS.RETIRED, R.ETH_LANE_STATUS.FAIL_COUNT, R.ETH_PORT_CNT.COUNT]

/-- The fields of the STK bank. -/
def blkFields_stk : List Fld :=
  [R.STK_CFG.EN, R.STK_CFG.STACK_ID, R.STK_CFG.LOSS_TIME, R.STK_CFG.KA_PERIOD, R.STK_CFG.LOCK, R.STK_STATUS.MASTER, R.STK_STATUS.MASTER_LOST, R.STK_STATUS.RESYNC, R.STK_STATUS.DUP_ID, R.STK_SEQ.STATE_SEQ, R.STK_LINK.EN, R.STK_LINK.OCTET, R.STK_LINK.X4, R.STK_LINK.STATE, R.STK_CNT.COUNT]

/-- The fields of the WIN bank. -/
def blkFields_win : List Fld :=
  [R.WIN_PIPE_CFG.LOCK, R.WIN_PIPE_STATUS.WAIT_FILL, R.WIN_PIPE_STATUS.HBM_STALL, R.WIN_PORT_PROF.PROFILE, R.WIN_PORT_PROF.DOMAIN, R.WIN_PIPE_CNT.COUNT, R.WIN_GLB_CFG.GRAPH_SEL, R.WIN_GLB_CFG.PAT_SEL, R.WIN_GLB_CFG.SAHROV_PROF, R.WIN_GLB_CFG.SCAN_EN, R.WIN_GLB_CFG.LOCK, R.WIN_GLB_STATUS.CFG_ERR, R.WIN_GLB_STATUS.ERR_TBL, R.WIN_SCAN_CFG.CHAN, R.WIN_SCAN_CFG.REPORT_LEN, R.WIN_FRAG_CFG.FRAG_LIFE, R.WIN_FRAG_CFG.ORPHAN_MODE, R.WIN_FRAG_CHAN.CHAN, R.WIN_FRAG_STATUS.OCCUPANCY, R.WIN_GLB_HBM.EN, R.WIN_GLB_HBM.BASE, R.WIN_GLB_HBM.SIZE, R.WIN_PROF_W0.START_NODE, R.WIN_PROF_W0.WINDOW] ++
  [R.WIN_PROF_W0.EXC_ACT, R.WIN_PROF_W0.KEYPROF, R.WIN_PROF_W0.TABLE, R.WIN_PROF_W1.L2_KEYPROF, R.WIN_PROF_W1.L2_TABLE, R.WIN_PROF_W1.EXC_CHAN, R.WIN_PROF_W2.ESP_EN, R.WIN_PROF_W2.ESP_KEYPROF, R.WIN_PROF_W2.ESP_TABLE, R.WIN_PROF_W2.ESP_INNER_NODE, R.WIN_KEYPROF.EN, R.WIN_KEYPROF.SRC, R.WIN_KEYPROF.HV_SLOT, R.WIN_KEYPROF.OFFSET, R.WIN_KEYPROF.LEN, R.WIN_KEYPROF.LAST_MASK, R.WIN_TBL.EN, R.WIN_TBL.HOME, R.WIN_TBL.WIDTH, R.WIN_TBL.SHARED, R.WIN_TBL.LOG2_BUCKETS, R.WIN_TBL.READY, R.WIN_TBL_BASE.BASE, R.WIN_TBL_SEED_A.SEED_A] ++
  [R.WIN_TBL_SEED_B.SEED_B, R.WIN_TBL_MISS.MISS_ACT, R.WIN_TBL_OCC.OCCUPANCY, R.WIN_TBL_STASH.STASH_USED, R.WIN_GLB_CNT.COUNT]

/-- The fields of the GRN bank. -/
def blkFields_grn : List Fld :=
  [R.GRN_CFG.EN, R.GRN_CFG.CT_EN, R.GRN_CFG.LOCK, R.GRN_STATUS.CFG_ERR, R.GRN_STATUS.ERR_CODE, R.GRN_POOL.RESERVE, R.GRN_POOL_HR.HEADROOM, R.GRN_PARK_CFG.EN, R.GRN_FREE.SHARED_FREE, R.GRN_RSUM.RESERVE_SUM, R.GRN_DEEP_CFG.EN, R.GRN_DEEP_CFG.SIZE, R.GRN_DEEP_CFG.BASE, R.GRN_DEEP_USED.USED, R.GRN_MIR_W0.DEST_KIND, R.GRN_MIR_W0.HDR, R.GRN_MIR_W0.DEST, R.GRN_MIR_W1.TRUNC, R.GRN_MIR_W1.CELL_MAX, R.GRN_SMP_W0.DEST_KIND, R.GRN_SMP_W0.HDR, R.GRN_SMP_W0.DEST, R.GRN_SMP_W1.TRUNC, R.GRN_SMP_W1.CELL_MAX] ++
  [R.GRN_SMP_W2.N_M1, R.GRN_SMP_W2.RANDOM, R.GRN_QPROF_W0.MIN, R.GRN_QPROF_W0.ALPHA, R.GRN_QPROF_W0.LOSSLESS, R.GRN_QPROF_W0.LONG_HAUL, R.GRN_QPROF_W1.QMAX, R.GRN_QPROF_W2.SPILL_THRESH, R.GRN_QPROF_W3.DEEP_MAX, R.GRN_IN_CFG_W0.LOSSLESS_PRI, R.GRN_IN_CFG_W0.PFC_PROF, R.GRN_IN_CFG_W1.XOFF_STATE, R.GRN_PFC_PROF_W0.XOFF, R.GRN_PFC_PROF_W1.XON, R.GRN_PFC_PROF_W2.HEADROOM, R.GRN_PFC_PROF_W3.QUANTA, R.GRN_PORT_W0.LIMIT, R.GRN_PORT_W0.EMIR, R.GRN_PORT_W1.USED, R.GRN_DOM_W0.CELLS, R.GRN_DOM_W1.DEEP, R.GRN_DOM_W1.USED, R.GRN_PORT_CNT.COUNT, R.GRN_CNT.COUNT]

/-- The fields of the TLY bank. -/
def blkFields_tly : List Fld :=
  [R.TLY_CFG.DEI_EN, R.TLY_CFG.DEI_SLOT, R.TLY_CFG.LOCK, R.TLY_STATUS.CFG_ERR, R.TLY_STATUS.ERR_CODE, R.TLY_STATUS.ERR_EP, R.TLY_EP_W0.MAX_RATE, R.TLY_EP_W0.MAX_EN, R.TLY_EP_W0.LEN_ADJ, R.TLY_EP_W1.MAX_BURST, R.TLY_EP_W2.EXPRESS, R.TLY_EP_W2.PAUSED, R.TLY_GATE.EN, R.TLY_GATE.CHANGE, R.TLY_GATE.OPER_SEL, R.TLY_GATE.PENDING, R.TLY_GATE.HOLD, R.TLY_GATE_LEN.ADMIN_LEN, R.TLY_GATE_CYCLE.CYCLE_NS, R.TLY_GATE_BASE_NS.BASE_NS, R.TLY_GATE_BASE_SEC_LO.BASE_SEC_LO, R.TLY_GATE_BASE_SEC_HI.BASE_SEC_HI, R.TLY_GATE_OPER.OPER_GATES, R.TLY_GATE_OPER.OPER_INDEX] ++
  [R.TLY_GATE_CCT_NS.CCT_NS, R.TLY_GATE_CCT_SEC_LO.CCT_SEC_LO, R.TLY_GATE_CCT_SEC_HI.CCT_SEC_HI, R.TLY_GATE_OPER_CYCLE.OPER_CYCLE_NS, R.TLY_CNT.COUNT, R.TLY_EP_CNT.COUNT]

/-- The fields of the CAR bank. -/
def blkFields_car : List Fld :=
  [R.CAR_CFG.EN, R.CAR_CFG.LOCK, R.CAR_STATUS.CFG_ERR, R.CAR_STATUS.ERR_CODE, R.CAR_STATUS.ERR_SLICE, R.CAR_PORT.UDP_PORT, R.CAR_RGN.BASE, R.CAR_RGN.STACK, R.CAR_HOMED.HBM_HOMED, R.CAR_SLICE_CTX.CTX_BASE, R.CAR_SLICE_CTX.CTX_SIZE, R.CAR_SLICE_WIN.WIN_BASE, R.CAR_SLICE_WIN.WIN_SIZE, R.CAR_SLICE_KEEP.KEEP_BASE, R.CAR_SLICE_KEEP.KEEP_SIZE, R.CAR_SLICE_DIR.DIR_BASE, R.CAR_SLICE_DIR.PIN_MAX, R.CAR_SLICE_USE.CACHE_USED, R.CAR_SLICE_USE.PINNED, R.CAR_SLICE_FETCH.WSTORE_USED, R.CAR_SLICE_FETCH.FETCH_OUT, R.CAR_SLICE_FETCH.FETCH_WAIT, R.CAR_SLICE_CONNS.CONNS, R.CAR_PARK_W0.RESERVED] ++
  [R.CAR_PARK_W0.LEDGER, R.CAR_PARK_W1.FREE_RESV, R.CAR_CNT.COUNT]

/-- The fields of the HSK bank. -/
def blkFields_hsk : List Fld :=
  [R.HSK_CFG.EN, R.HSK_CFG.LOCK, R.HSK_STATUS.CLU_AVAIL, R.HSK_STATUS.PAIRS_LIVE, R.HSK_ARB.WEIGHT, R.HSK_ARB.MAX_WAIT, R.HSK_CLU_W0.CHECK, R.HSK_CLU_W0.AVAIL, R.HSK_CLU_W1.PAIRS_LIVE, R.HSK_CLU_W1.KEYS_CACHED, R.HSK_CLU_W1.JOBS_QUEUED, R.HSK_CLU_RETIRED.RETIRED, R.HSK_CLU_FAIL.FAIL_PAIR, R.HSK_CLU_FAIL.FAIL_VALID, R.HSK_CNT.COUNT]

/-- The fields of the LCK bank. -/
def blkFields_lck : List Fld :=
  [R.LCK_CFG.EN, R.LCK_CFG.LOCK, R.LCK_STATUS.READY, R.LCK_STATUS.DRBG_OK, R.LCK_STATUS.ENTROPY_FAIL, R.LCK_STATUS.CFG_ERR, R.LCK_STATUS.ERR_DOM, R.LCK_PUB.PUB, R.LCK_DOM_W0.BASE, R.LCK_DOM_W1.COUNT, R.LCK_DOM_W1.BUSY, R.LCK_DOM_W2.BIND_LO, R.LCK_DOM_W3.BIND_HI, R.LCK_CNT.COUNT]

/-- The fields of the STG bank. -/
def blkFields_stg : List Fld :=
  [R.STG_CFG.EN, R.STG_CFG.LOCK, R.STG_STATUS.CFG_ERR, R.STG_STATUS.ERR_CODE, R.STG_EVT.CHAN, R.STG_EVT.VEC, R.STG_STAGE.BASE, R.STG_STAGE.SIZE, R.STG_RP_CTL.EN, R.STG_RP_CTL.AUTO_ON, R.STG_RP_CTL.AUTO_RETRAIN, R.STG_RP_CTL.REMOVE, R.STG_RP_CTL.PWR_WAIT, R.STG_RP_CTL.IOQ, R.STG_RP_CTL.QD_LOG2, R.STG_RP_CTL.CMD_TMO, R.STG_RP_STATUS.STATE, R.STG_RP_STATUS.RETIRED, R.STG_RP_STATUS.DPC, R.STG_RP_STATUS.SPEED, R.STG_RP_STATUS.WIDTH, R.STG_RP_STATUS.FAIL_COUNT, R.STG_RP_STATUS.OUTSTANDING, R.STG_RP_DRV.VID] ++
  [R.STG_RP_DRV.NSCOUNT, R.STG_RP_EVT.EVT, R.STG_RP_EVT_EN.EVT_EN, R.STG_RP_CNT.COUNT, R.STG_CNT.COUNT]

/-- The fields of the HIF bank. -/
def blkFields_hif : List Fld :=
  [R.HIF_CFG.OWNER, R.HIF_CFG.LOCK, R.HIF_PORT.SPLIT, R.HIF_AP_CFG.PF_EN, R.HIF_AP_CFG.SUBSYS_ID, R.HIF_AP_LINK.LINK_UP, R.HIF_AP_LINK.SPEED, R.HIF_AP_LINK.WIDTH, R.HIF_AP_LINK.FLIT, R.HIF_AP_LINK.LPM, R.HIF_AP_LINK.IN_RESET, R.HIF_AP_TAGS.TAGS_OUT, R.HIF_AP_TAGS.TAGS_QUAR, R.HIF_AP_ATC.ATC_USED, R.HIF_AP_PRI.PRI_TMO, R.HIF_AP_WBUF.WBUF_FILL, R.HIF_FN_STATUS.QUIESCED, R.HIF_FN_STATUS.REASON, R.HIF_FN_STATUS.D3HOT, R.HIF_FN_ORPH.ORPHANS, R.HIF_FN_PRI.PRI_OUT, R.HIF_CNT.COUNT]

/-- The fields of the DOM bank. -/
def blkFields_dom : List Fld :=
  [R.DOM_CFG.MBX_VEC, R.DOM_CFG.MBX_IRQ_EN, R.DOM_CFG.LOCK, R.DOM_STATUS.FW_READY, R.DOM_STATUS.DOMAINS, R.DOM_USE.INSTANCES, R.DOM_RINGS.RINGS, R.DOM_IRQ.IRQ_USED, R.DOM_DOMAIN_W0.VALID, R.DOM_DOMAIN_W0.INSTANCES, R.DOM_DOMAIN_W1.RINGS, R.DOM_DOMAIN_W2.MAX_INST, R.DOM_DOMAIN_W3.MAX_RINGS, R.DOM_INST_W0.STATE, R.DOM_INST_W0.CLASS, R.DOM_INST_W0.AP, R.DOM_INST_W0.DOMAIN, R.DOM_INST_W1.PASID, R.DOM_INST_W1.PASID_EN, R.DOM_INST_W2.IRQ_BASE, R.DOM_INST_W2.NVEC, R.DOM_INST_W3.RINGS, R.DOM_RING_W0.STATE, R.DOM_RING_W0.TYPE] ++
  [R.DOM_RING_W0.SIZE_LOG2, R.DOM_RING_W0.OWNER, R.DOM_RING_W0.INSTANCE, R.DOM_RING_W1.RING, R.DOM_RING_W1.ARMED, R.DOM_RING_W2.CI, R.DOM_RING_W2.CPL_PI, R.DOM_RING_W3.PI, R.DOM_RING_W3.CPL_CI, R.DOM_INST_CNT.COUNT, R.DOM_CNT.COUNT]

/-- The fields of the FIL bank. -/
def blkFields_fil : List Fld :=
  [R.FIL_CFG.TRIM_CORES, R.FIL_CFG.MBX_HART, R.FIL_CFG.POOL_EN, R.FIL_CFG.LOCK, R.FIL_STATUS.CFG_ERR, R.FIL_STATUS.ERR_CODE, R.FIL_STATUS.ERR_CORE, R.FIL_RESET_PC_LO.PC_LO, R.FIL_RESET_PC_HI.PC_HI, R.FIL_FPOOL.BASE, R.FIL_FPOOL.STACK, R.FIL_FPOOL_CNT.COUNT, R.FIL_FPOOL_FREE.FREE, R.FIL_CORE_CTL.RUN, R.FIL_CORE_CTL.HIGH_HART, R.FIL_CORE_CTL.HIGH_EN, R.FIL_CORE_CTL.HIGH_CAP, R.FIL_CORE_CTL.APPLY, R.FIL_CORE_TABLE_LO.SLOTS_0_7, R.FIL_CORE_TABLE_HI.SLOTS_8_15, R.FIL_CORE_STATUS.RETIRED, R.FIL_CORE_STATUS.FAIL_COUNT, R.FIL_CORE_STATUS.GATED, R.FIL_HART_CTL.RESET] ++
  [R.FIL_HART_CTL.WGRP, R.FIL_HART_CTL.WG_EN, R.FIL_HART_CTL.STATE, R.FIL_HART_IRQ.IRQ_PEND, R.FIL_HART_IRQ_CLR.IRQ_CLR, R.FIL_HART_IRQ_EN.IRQ_EN, R.FIL_CNT.COUNT, R.FIL_CHW.CHAN, R.FIL_CHW.EN, R.FIL_WG_W0.EN, R.FIL_WG_W0.CLOSED, R.FIL_WG_W0.CYCLE, R.FIL_WG_W0.WATCHER, R.FIL_WG_W1.MEMBERS, R.FIL_WG_CNT.COUNT, R.FIL_CH_W0.EN, R.FIL_CH_W0.PROD_CLASS, R.FIL_CH_W0.PROD_GRP, R.FIL_CH_W0.DEPTH_LOG2, R.FIL_CH_W1.BASE, R.FIL_CH_W2.FILL, R.FIL_CH_W3.DROPS]

/-- The fields of the TU bank. -/
def blkFields_tu : List Fld :=
  [R.TU_CFG.EN, R.TU_CFG.LOCK, R.TU_STATUS.SERVO_STATE, R.TU_STATUS.EEC_STATE, R.TU_STATUS.EEC_REF, R.TU_STATUS.CFG_ERR, R.TU_STATUS.SMP_BUSY, R.TU_SNAP.CAPTURE, R.TU_SNAP_SEC_LO.SEC_LO, R.TU_SNAP_SEC_HI.SEC_HI, R.TU_SNAP_NS.NS, R.TU_SNAP_FRAC.FRAC, R.TU_SET_SEC_LO.SEC_LO, R.TU_SET_SEC_HI.SEC_HI, R.TU_SET_NS.NS, R.TU_SET_FRAC.FRAC, R.TU_SET_CTL.APPLY, R.TU_SET_CTL.ADD, R.TU_SET_CTL.NEG, R.TU_FREQ.FREQ, R.TU_FREQ_APPLIED.FREQ_APPLIED, R.TU_STEP.STEP_COUNT, R.TU_STEP_MTIME.MTIME, R.TU_SERVO.MODE] ++
  [R.TU_SERVO.SRC, R.TU_SERVO.KP_SHIFT, R.TU_SERVO.KI_SHIFT, R.TU_SERVO.STEP_EN, R.TU_SERVO.LOCK_COUNT, R.TU_SERVO_LIM.LOCK_THRESH, R.TU_SERVO_LIM.HOLD_TMO, R.TU_STEP_THRESH.STEP_THRESH, R.TU_MAX_FREQ.MAX_FREQ, R.TU_OUT_OFF.OFFSET, R.TU_OUT_DLY.DELAY, R.TU_OUT_INT.INTEG, R.TU_SMP_SEC_LO.SEC_LO, R.TU_SMP_SEC_HI.SEC_HI, R.TU_SMP_NS.NS, R.TU_SMP_FRAC.FRAC, R.TU_SMP_CTL.COMMIT, R.TU_SMP_CTL.KIND, R.TU_SMP_DELAY.DELAY, R.TU_PPS.OUT_EN, R.TU_PPS.IN_EN, R.TU_PPS_WIDTH.OUT_WIDTH, R.TU_PPS_OFF.OUT_OFFSET, R.TU_PPS_LAT.IN_LAT] ++
  [R.TU_PPS_IN_SEC_LO.SEC_LO, R.TU_PPS_IN_SEC_HI.SEC_HI, R.TU_PPS_IN_NS.NS, R.TU_PPS_IN_FRAC.FRAC, R.TU_SYNCE.EN, R.TU_SYNCE.TX_STEER, R.TU_SYNCE.BW, R.TU_SYNCE.REVERT, R.TU_SYNCE.REF0, R.TU_SYNCE.REF0_EN, R.TU_SYNCE.REF1, R.TU_SYNCE.REF1_EN, R.TU_SYNCE.PRIO, R.TU_SYNCE_ST.REF0_OK, R.TU_SYNCE_ST.REF1_OK, R.TU_SYNCE_FFO.FFO, R.TU_STK.PERIOD, R.TU_STK_ASYM.ASYM, R.TU_STK_LINK.DELAY, R.TU_TXTS.CHAN, R.TU_TXTS.EN, R.TU_PORT_CTL.PTP_EN, R.TU_PORT_CTL.ONE_STEP, R.TU_PORT_CTL.TC_EN] ++
  [R.TU_PORT_CTL.TC_P2P, R.TU_PORT_CTL.L2, R.TU_PORT_CTL.UDP4, R.TU_PORT_CTL.UDP6, R.TU_PORT_RX_LAT.RX_LAT, R.TU_PORT_TX_LAT.TX_LAT, R.TU_PORT_ASYM_LO.ASYM_LO, R.TU_PORT_ASYM_HI.ASYM_HI, R.TU_PORT_LINK_DELAY.LINK_DELAY, R.TU_CNT.COUNT]

/-- The fields of the PWR bank. -/
def blkFields_pwr : List Fld :=
  [R.PWR_CTL.REQ, R.PWR_CTL.GO, R.PWR_CTL.LOCK, R.PWR_STATUS.STATE, R.PWR_STATUS.BUSY, R.PWR_STATUS.LOST, R.PWR_STATUS.LOST_CAUSE, R.PWR_STATUS.REFUSED, R.PWR_STATUS.REFUSE_WHY, R.PWR_WAKE.FRAME_EN, R.PWR_WAKE.SAHROV_EN, R.PWR_WAKE.TIMER_EN, R.PWR_WAKE.BMC_EN, R.PWR_WAKE.PERST_EN, R.PWR_WAKE.LAST_SRC, R.PWR_WAKE_TIMER.TIMER, R.PWR_DORM_WAIT.WAIT, R.PWR_RST.WARM, R.PWR_RST.COLD, R.PWR_RST.KEY, R.PWR_RST_CAUSE.KIND, R.PWR_RST_CAUSE.SOURCE, R.PWR_BLK_RST.KIND, R.PWR_BLK_RST.UNIT] ++
  [R.PWR_BLK_RST.GO, R.PWR_BLK_RST.BUSY, R.PWR_TRIM.TRIM, R.PWR_DOM_ON.ON, R.PWR_DOM_HELD.HELD, R.PWR_CNT.COUNT]

/-- The fields of the CLK bank. -/
def blkFields_clk : List Fld :=
  [R.CLK_STATUS.ROOT_LOCK, R.CLK_STATUS.REFCLK_OK, R.CLK_STATUS.ON_OSC, R.CLK_STATUS.HOLD, R.CLK_STATUS.GRADE, R.CLK_STATUS.REFCLK_LOST, R.CLK_ROOT.RATIO_X10, R.CLK_OSC.OSC_KHZ, R.CLK_CNT.COUNT]

/-- The fields of the REV bank. -/
def blkFields_rev : List Fld :=
  [R.REV_CFG.VEC, R.REV_CFG.VEC_EN, R.REV_CFG.K_TEMP, R.REV_CFG.K_VOLT, R.REV_CFG.AVS_EN, R.REV_CFG.LOCK, R.REV_STATUS.TSTATE, R.REV_STATUS.VFAULT, R.REV_STATUS.HOT_SENSOR, R.REV_TH.WARN, R.REV_TH.THROTTLE, R.REV_TH.CRIT, R.REV_TH.HYST, R.REV_THR.FIL_DUTY, R.REV_THR.HSK_DUTY, R.REV_AVS.TARGET_MV, R.REV_MCTP.SMB_ADDR, R.REV_TEMP.FILT, R.REV_TEMP.RAW, R.REV_VOLT.FILT, R.REV_VOLT.RAW, R.REV_VTH_W0.UV_WARN, R.REV_VTH_W0.UV_FAULT, R.REV_VTH_W1.OV_FAULT] ++
  [R.REV_VTH_W1.EN, R.REV_CLASS_W0.COUNT_MAX, R.REV_CLASS_W0.WINDOW_MS, R.REV_CLASS_W0.RETIRE_EN, R.REV_CLASS_W1.FAILS, R.REV_RET_CLR.KIND, R.REV_RET_CLR.UNIT, R.REV_RET_CLR.GO, R.REV_RET_CLR.KEY, R.REV_RET_PEND.PENDING, R.REV_HBM_W0.PC_RETIRED, R.REV_HBM_W1.USABLE_MIB, R.REV_HBM_W1.SPARES_USED, R.REV_HBM_W2.UNMAPPED, R.REV_CAUSE.CAUSE, R.REV_CAUSE.SENSOR, R.REV_CAUSE.NEW, R.REV_CAUSE.SEQ, R.REV_CAUSE_UP.UPTIME, R.REV_LOG_HEAD.HEAD, R.REV_LOG.ENTRY, R.REV_CNT.COUNT]

/-- The fields of the DBG bank. -/
def blkFields_dbg : List Fld :=
  [R.DBG_BOOT.STAGE, R.DBG_BOOT.SLOT_R, R.DBG_BOOT.SLOT_F, R.DBG_BOOT.FAIL, R.DBG_SVN.FLOOR_R, R.DBG_SVN.FLOOR_F, R.DBG_SVN.REVOKED, R.DBG_UNLOCK_CTL.NEW_CHAL, R.DBG_UNLOCK_CTL.VERIFY, R.DBG_UNLOCK_CTL.RELOCK, R.DBG_UNLOCK_CTL.STATUS, R.DBG_UNLOCK_CTL.SCOPE, R.DBG_UNLOCK_CTL.AUTH, R.DBG_UNLOCK_CHAL.CHAL, R.DBG_RMA.RMA_ALLOW, R.DBG_LMS.NEXT, R.DBG_OWNER_SPDM.HASH, R.DBG_OWNER_DEBUG.HASH, R.DBG_TOKEN.TOKEN]

/-- The fields of the GLB bank. -/
def blkFields_glb : List Fld :=
  [R.GLB_ID.VENDOR, R.GLB_ID.PART, R.GLB_REV.MINOR, R.GLB_REV.STEP, R.GLB_REV.GRADE, R.GLB_SERIAL_LO.SERIAL, R.GLB_SERIAL_HI.SERIAL, R.GLB_STRAP.OWNER_SEL, R.GLB_STRAP.HOST_SPLIT, R.GLB_STRAP.STACK_ID, R.GLB_CFG.LOCK_ALL, R.GLB_CFG.LOCK, R.GLB_ERR.VALID, R.GLB_ERR.KIND, R.GLB_ERR.DOMAIN, R.GLB_ERR_ADDR.ADDR, R.GLB_CNT.COUNT]

/-- The fields of a block. -/
def blkFields (b : Blk) : List Fld :=
  match b with
  | .eth => blkFields_eth
  | .stk => blkFields_stk
  | .win => blkFields_win
  | .grn => blkFields_grn
  | .tly => blkFields_tly
  | .car => blkFields_car
  | .hsk => blkFields_hsk
  | .lck => blkFields_lck
  | .stg => blkFields_stg
  | .hif => blkFields_hif
  | .dom => blkFields_dom
  | .fil => blkFields_fil
  | .tu => blkFields_tu
  | .pwr => blkFields_pwr
  | .clk => blkFields_clk
  | .rev => blkFields_rev
  | .dbg => blkFields_dbg
  | .glb => blkFields_glb

/-- R670: the block whose window holds offset `a`, if one does. -/
def blkOf (a : Nat) : Option Blk :=
  if 0x00000000 ≤ a && a < 0x00100000 then some .glb
  else if 0x00100000 ≤ a && a < 0x00200000 then some .pwr
  else if 0x00200000 ≤ a && a < 0x00300000 then some .clk
  else if 0x00300000 ≤ a && a < 0x00400000 then some .rev
  else if 0x00400000 ≤ a && a < 0x00500000 then some .tu
  else if 0x00500000 ≤ a && a < 0x00600000 then some .lck
  else if 0x01000000 ≤ a && a < 0x02000000 then some .hif
  else if 0x02000000 ≤ a && a < 0x03000000 then some .dom
  else if 0x03000000 ≤ a && a < 0x04000000 then some .stg
  else if 0x04000000 ≤ a && a < 0x06000000 then some .eth
  else if 0x06000000 ≤ a && a < 0x08000000 then some .win
  else if 0x08000000 ≤ a && a < 0x09000000 then some .grn
  else if 0x09000000 ≤ a && a < 0x0A000000 then some .tly
  else if 0x0A000000 ≤ a && a < 0x0B000000 then some .car
  else if 0x0B000000 ≤ a && a < 0x0C000000 then some .hsk
  else if 0x0C000000 ≤ a && a < 0x0E000000 then some .fil
  else if 0x0E000000 ≤ a && a < 0x0E800000 then some .stk
  else if 0x0F000000 ≤ a && a < 0x10000000 then some .dbg
  else none

/-- R669: whether offset `a` lies in the always-on island (PWR, CLK, REV, and DBG below 0x2000). -/
def alwaysOn (a : Nat) : Bool :=
  (0x00100000 ≤ a && a < 0x00400000) || (0x0F000000 ≤ a && a < 0x0F002000)

/-- The field instances that lie in the 4-byte word at `a`. -/
def fieldsAt (b : Blk) (a : Nat) : List (Fld × List Nat × Nat) :=
  (blkFields b).filterMap (fun f => (f.at? a).map (fun p => (f, p.1, p.2)))

/-- The LOCK field of each block that has one, with every instance (R671, R672). -/
def lockFields : List (Fld × List (List Nat)) :=
  [(R.ETH_OCT_CFG.LOCK, (List.range 16).map (fun o => [o])), (R.STK_CFG.LOCK, [[]]),
   (R.WIN_PIPE_CFG.LOCK, (List.range 16).map (fun p => [p])), (R.WIN_GLB_CFG.LOCK, [[]]),
   (R.GRN_CFG.LOCK, [[]]), (R.TLY_CFG.LOCK, [[]]), (R.CAR_CFG.LOCK, [[]]), (R.HSK_CFG.LOCK, [[]]),
   (R.LCK_CFG.LOCK, [[]]), (R.STG_CFG.LOCK, [[]]), (R.HIF_CFG.LOCK, [[]]), (R.DOM_CFG.LOCK, [[]]),
   (R.FIL_CFG.LOCK, [[]]), (R.TU_CFG.LOCK, [[]]), (R.PWR_CTL.LOCK, [[]]), (R.REV_CFG.LOCK, [[]]),
   (R.GLB_CFG.LOCK, [[]])]

end Sys2Proof.Machine
end

