-- ==== Sys2Proof/Machine/Data/Net.lean ====
section
/-! DEFINITION. State of the Ethernet ports, the Sahrov stack and the packet path beyond their registers: frames,
Winnower's stores, Granary's cells and queues, Tallyman's tree (R59 to R102, R109 to R157, R165 to R205, R211 to
R245).
Log entries 10. -/

namespace Sys2Proof.Machine

open Sys2Proof

/-- The configuration of a port that the last valid APPLY put in force (R62). -/
structure PortCfg where
  en : Bool
  speed : Nat
  lanes : Nat
  fec : Nat
  maxFrame : Nat
  pfc : Bool
  pause : Bool
  preempt : Bool
  verifyDis : Bool
  addFrag : Nat
  train : Bool
  /-- TX_POL, RX_POL, TX_PRESET and LOOPBACK of the port's lanes. -/
  lane : List Nat
deriving DecidableEq, Repr

/-- No APPLY yet: DISABLED. -/
def PortCfg.off : PortCfg :=
  { en := false, speed := 0, lanes := 1, fec := 0, maxFrame := 1518, pfc := false, pause := false, preempt := false,
    verifyDis := false, addFrag := 0, train := true, lane := [] }

/-- A preempted frame whose remainder waits (R68, R234): the bytes that its fragments have carried. -/
structure TxCut where
  tc : Nat
  data : Bytes
  sent : Nat
deriving DecidableEq, Repr

/-- The frame that a port transmits: the frame without FCS, the bytes of it that earlier fragments carried, when this
fragment began and when its last byte goes out (0.1 ns), and a preempted frame behind it (R234). -/
structure TxNow where
  tc : Nat
  express : Bool
  data : Bytes
  sent : Nat
  since : Nat
  upTo : Nat
  held : Option TxCut
deriving DecidableEq, Repr

/-- A preempted frame that is being reassembled: its number, the fragment count that must follow, its bytes so far. -/
structure RxPart where
  n : Nat
  next : Nat
  data : Bytes
deriving DecidableEq, Repr

/-- Ethernet beyond its registers. -/
structure Eth where
  cfg : SMap PortCfg
  /-- Verify attempts made (R68). -/
  tries : SMap Nat
  /-- When the hold timer of a port in HOLD runs out, in 0.1 ns (R71). -/
  holdAt : SMap Nat
  /-- Since when the lanes of a port are locked with no fault reported, in 0.1 ns (R70). -/
  qualAt : SMap Nat
  tx : SMap TxNow
  part : SMap RxPart
  /-- RCLK_OUT0 and RCLK_OUT1 (R81, R641): high impedance, or driven, by a recovered clock or low. -/
  rclk : SMap (Option Bool)
  /-- The fraction by which the EEC offsets the PLL of an octet, in units of 2^-40 (R552). -/
  steer : SMap Int := []
deriving DecidableEq, Repr

def Eth.reset : Eth := { cfg := [], tries := [], holdAt := [], qualAt := [], tx := [], part := [], rclk := [] }

/-- A recorded header: slot, start, end, L3_KIND (R116). -/
structure Slot where
  slot : Nat
  start : Nat
  stop : Nat
  l3 : Nat
deriving DecidableEq, Repr

/-- A packet on its way through an ingress pipeline. -/
structure Pkt where
  data : Bytes
  /-- As in the Sahrov header: port, attach point, or 255. -/
  origin : Nat
  inst : Nat
  tc : Nat
  domain : Nat
  profile : Nat
  pipe : Nat
  hash : Nat
  /-- The Ethernet port of entry, and the octet for Carter parking. -/
  port : Option Nat
  octet : Option Nat
  /-- Ingress timestamp, and the same without ASYM. -/
  ts : Nat
  raw : Nat
  /-- The ETH_PORT_CNT index of a fault found at the frame's end (R66). -/
  fault : Option Nat
  poison : Bool
  pass2 : Bool
  /-- The node at which parsing starts, where it is not the profile's START_NODE. -/
  node : Option Nat
  espSeq : Nat
  /-- The Sahrov link it came over (R543). -/
  hop : Option Nat
  /-- Built by Carter, so that ETH stamps its CTH (R254). -/
  cth : Bool
  /-- The TX ring and descriptor that wait until the frame has entered its pipeline (R477). -/
  tx : Option (Nat × Nat)
  /-- The Granary frame that stores it until Carter takes it (R172, R251). -/
  held : Option Nat := Option.none
deriving DecidableEq, Repr

/-- The result of a parse walk (R117). -/
structure Walk where
  slots : List Slot
  /-- Cause bits of R145. -/
  exc : Nat
  /-- The fragment key without the domain, and whether the packet is a non-first fragment (R121, R136). -/
  frag : Option (Bytes × Bool)
  /-- The start of the ESP header at which parsing stopped. -/
  esp : Option Nat
  /-- The last IP header, recorded in a slot or not (R148). -/
  ip : Option Slot
  payload : Option Nat
  /-- End of the last recorded header and the innermost declared end. -/
  stop : Nat
  encl : Nat
  /-- The end declared by the outermost header with TL_EN. -/
  decl : Option Nat
deriving DecidableEq, Repr

/-- What decided a packet's forwarding (R137). -/
inductive Decision where
  | action (act data : Nat)
  | exception (causes : Nat)
deriving DecidableEq, Repr

/-- The lookup a packet comes to next. -/
inductive Stage where
  | start
  | first (esp : Bool)
  /-- The second lookup that a NEXT_TABLE action, as its entry read then, calls for. -/
  | second (act data : Nat) (entry : Bytes)
  | l2 (causes : Nat)
deriving DecidableEq, Repr

/-- The lookups of a packet so far: the key and result of the latest, and which of them hit (R513). -/
structure Res where
  key : Bytes
  hit1 : Bool
  second : Bool
  hit2 : Bool
  act : Nat
  data : Nat
deriving DecidableEq, Repr

def Res.none : Res := { key := [], hit1 := false, second := false, hit2 := false, act := 0, data := 0 }

/-- A packet in a pipeline with its parse result and the lookup it comes to. -/
structure Wait where
  pkt : Pkt
  walk : Walk
  stage : Stage
  res : Res
deriving DecidableEq, Repr

/-- An entry of the fragment table (R136, R137). -/
structure Frag where
  set : Nat
  key : Bytes
  ms : Nat
  dec : Decision
deriving DecidableEq, Repr

/-- A packet that waits for a scan (R150), with the pattern set it is scanned under (R156). -/
structure Scan where
  pkt : Pkt
  start : Nat
  stop : Nat
  pats : SMap Bytes
  res : Res
  /-- The exception field of the packet. -/
  exc : Nat
deriving DecidableEq, Repr

/-- A packet that Husk decrypts (R147). -/
structure Esp where
  pkt : Pkt
  walk : Walk
  slot : Nat
  tunnel : Bool
  off : Nat
  ip : Option Slot
deriving DecidableEq, Repr

/-- Winnower beyond its registers. -/
structure Win where
  graph0 : SMap Bytes
  graph1 : SMap Bytes
  pat0 : SMap Bytes
  pat1 : SMap Bytes
  patCnt : SMap Nat
  act : SMap Bytes
  edit : SMap Bytes
  tmpl : SMap Bytes
  cnt : SMap (Nat × Nat)
  /-- On-die slots of 32 bytes, by bucket × 4 + slot. -/
  slots : SMap Bytes
  /-- Stash entries, by table × 64 + position. -/
  stash : SMap Bytes
  frag : List Frag
  /-- The FRAG_LIFE that stays in force until the end of a millisecond, after a write in it (R139): the ms and the value. -/
  lifeWas : Option (Nat × Nat)
  /-- Wire slots that each pipeline has given while its internal input waited (R40). -/
  turns : SMap Nat
  wait : SMap (List Wait)
  /-- Wire frames that wait in the receive buffers of a pipeline's ports, and frames at its internal input. -/
  rxbuf : SMap (List Pkt)
  inq : SMap (List Pkt)
  scan0 : List Scan
  scan1 : List Scan
  esp : List Esp
  /-- Decrypted packets that wait to re-enter: Husk's status and the plaintext. -/
  espDone : List (Esp × Nat × Bytes)
  /-- Packets handed to Carter, oldest first. -/
  carter : List Pkt
  /-- Packets that a reset or gating of a pipeline dropped (R573). -/
  dropped : Nat
deriving DecidableEq, Repr

def Win.reset : Win :=
  { graph0 := [], graph1 := [], pat0 := [], pat1 := [], patCnt := [], act := [], edit := [], tmpl := [], cnt := [],
    slots := [], stash := [], frag := [], lifeWas := none, turns := [], wait := [], rxbuf := [], inq := [], scan0 := [], scan1 := [], esp := [], espDone := [],
    carter := [], dropped := 0 }

/-- The pool a cell was taken from (R173). -/
inductive Pool where
  | reserve | shared | headroom | skid
deriving DecidableEq, Repr

/-- A frame in Granary: its bytes before editing, its cells, and what its references need. -/
structure GFrame where
  pkt : Pkt
  cells : List Pool
  /-- The numbers of its cells (R165); a copy's are its original's (R188). -/
  place : List Nat
  /-- Cells marked poisoned (R168). -/
  bad : List Nat
  refs : Nat
  /-- Charged to its ingress account and priority as lossless. -/
  lossless : Bool
  /-- The copy session that holds it: mirror s is s, sample s is 16 + s. -/
  sess : Option Nat
  slots : List Slot
  decl : Option Nat
  actData : Nat
  /-- The exception field of R145. -/
  exc : Nat
  /-- The traffic class after every TC_EN and ALT_TC. -/
  tc : Nat
deriving DecidableEq, Repr

/-- A frame that Tallyman has dequeued for a host attach point (R479). -/
structure HostFrame where
  q : Nat
  data : Bytes
  tc : Nat
  hash : Nat
  ts : Nat
  exc : Nat
  origin : Nat
  poison : Bool
  /-- The pipeline whose internal output it leaves by (R39), and the attach point whose write buffer holds it (R449). -/
  pipe : Nat
  ap : Nat
deriving DecidableEq, Repr

/-- A frame in a queue. -/
structure QEnt where
  fid : Nat
  edit : Nat
  /-- Cut through, and the stomp it must carry. -/
  ct : Bool
  bad : Bool
  /-- The deep cells it holds while it is spilled, by number (R195). -/
  deep : List Nat
deriving DecidableEq, Repr

/-- A frame stored for a Filbert channel (R679). -/
structure Deliv where
  fid : Nat
  chan : Nat
  kind : Nat
  exc : Nat
  res : Res
  tc : Nat
  /-- Length before truncation. -/
  orig : Nat
  pattern : Nat
  /-- The copy header of R191, where the session has HDR 1. -/
  hdr : Bytes
deriving DecidableEq, Repr

/-- Multicast members that wait (R192). -/
structure McWait where
  fid : Nat
  edit : Nat
  /-- Each admitted member still to be enqueued: its entry, and the queue and egress point charged at admission. -/
  members : List (Nat × Nat × Nat)
deriving DecidableEq, Repr

/-- Cells of a flushed frame that have not returned (R201): the queue and the egress point charged, and how many. -/
structure FlushEnt where
  q : Nat
  ep : Nat
  fid : Nat
  left : Nat
deriving DecidableEq, Repr

/-- Granary beyond its registers. -/
structure Grn where
  frames : SMap GFrame
  nextId : Nat
  q : SMap (List QEnt)
  deep : SMap (List QEnt)
  qmap : SMap Nat
  groups : SMap Bytes
  members : SMap Bytes
  qcells : SMap Nat
  qdeep : SMap Nat
  domDeep : SMap Nat
  /-- Shared and headroom cells of account × 8 + priority. -/
  acct : SMap Nat
  head : SMap Nat
  resv : Nat
  skid : Nat
  hr : Nat
  shared : Nat
  sess : SMap Nat
  /-- Frames of a sample session since its last sample, and the interval drawn. -/
  smp : SMap Nat
  smpN : SMap Nat
  mc : List McWait
  flush : List FlushEnt
  deliv : List Deliv
  host : List HostFrame
  /-- Parking cells in use by octet. -/
  park : SMap Nat
  /-- References held on each cell in use, by cell number (R165, R188). -/
  used : SMap Nat
  /-- The pipeline that a cycle's write order starts at (R166). -/
  turn : Nat
  /-- Spilled frames not yet written to HBM, oldest first: queue and number; their cells are still held (R196). -/
  await : List (Nat × Nat)
  /-- Time left of the last period's spill writes, in 0.1 ns (R197). -/
  spillTime : Nat
  /-- Frames flushed as admin flushes of an egress point that no port counter covers (R446). -/
  admin : SMap Nat
deriving DecidableEq, Repr

def Grn.reset : Grn :=
  { frames := [], nextId := 0, q := [], deep := [], qmap := [], groups := [], members := [], qcells := [], qdeep := [],
    domDeep := [], acct := [], head := [], resv := 0, skid := 0, hr := 0, shared := 0, sess := [], smp := [], smpN := [],
    mc := [], flush := [], deliv := [], host := [], park := [], used := [], turn := 0, await := [], spillTime := 0,
    admin := [] }

/-- A node or a queue of the scheduler tree (R243, R244). -/
structure Member where
  valid : Bool
  root : Bool
  parent : Nat
  sp : Nat
  tc : Nat
  weight : Nat
  maxEn : Bool
  maxRate : Nat
  maxBurst : Nat
  minEn : Bool
  minRate : Nat
  minBurst : Nat
deriving DecidableEq, Repr

def Member.none : Member :=
  { valid := false, root := false, parent := 0, sp := 0, tc := 0, weight := 0, maxEn := false, maxRate := 0,
    maxBurst := 0, minEn := false, minRate := 0, minBurst := 0 }

/-- A policer (R226, R244). -/
structure Pol where
  valid : Bool
  mode : Nat
  aware : Bool
  yAct : Nat
  rAct : Nat
  altTc : Nat
  cir : Nat
  cbs : Nat
  pir : Nat
  pbs : Nat
  /-- Buckets in bits. -/
  tc : Nat
  tp : Nat
  green : Nat
  yellow : Nat
  red : Nat
deriving DecidableEq, Repr

def Pol.none : Pol :=
  { valid := false, mode := 0, aware := false, yAct := 0, rAct := 0, altTc := 0, cir := 0, cbs := 0, pir := 0, pbs := 0,
    tc := 0, tp := 0, green := 0, yellow := 0, red := 0 }

/-- A gate list that has taken over, or that waits to: its length, base time and cycle in ns (R231, R232, R236). -/
structure Oper where
  len : Nat
  base : Nat
  cycle : Nat
deriving DecidableEq, Repr

/-- A selected frame: its queue, at each level the rank it was chosen at, 0 to 7 strict, 8 below minimum, 9
weighted, and the weight it had there (R218, R220, R245). -/
structure Sel where
  q : Nat
  ranks : List Nat
  weights : List Nat
deriving DecidableEq, Repr

/-- Tallyman beyond its registers. Members are keyed egress point e, node 256 + n, queue 8192 + q. -/
structure Tly where
  nodes : SMap Member
  queues : SMap Member
  maxTok : SMap Int
  minTok : SMap Int
  v : SMap Nat
  f : SMap Nat
  /-- The tag of a weighted child before the cost of its head was added (R219). -/
  st : SMap Nat
  /-- The child served last at a strict level: parent × 8 + level, child key + 1. -/
  last : SMap Nat
  sel : SMap Sel
  pol : SMap Pol
  /-- Gate entries of (egress point × 2 + list) × 1024 + index. -/
  gate : SMap Bytes
  oper : SMap Oper
  /-- Lists that wait for their config change time (R237). -/
  pendOper : SMap Oper
deriving DecidableEq, Repr

def Tly.reset : Tly :=
  { nodes := [], queues := [], maxTok := [], minTok := [], v := [], f := [], st := [], last := [], sel := [], pol := [], gate := [],
    oper := [], pendOper := [] }

/-- A Sahrov DATA unit that waits to be sent, or in the replay buffer. -/
structure SUnit where
  seq : Nat
  tc : Nat
  bytes : Bytes
  tries : Nat
deriving DecidableEq, Repr

/-- A Sahrov link toward a STACK_ID (R89 to R97). -/
structure Link where
  /-- Frames and shared-state changes that wait for room or credit, oldest first: TC, header fields and payload. -/
  sendq : List (Nat × Bytes)
  replay : List SUnit
  txSeq : Nat
  rxSeq : Nat
  /-- Highest SEQ that an ACK of this receiver covered, and the expected SEQ a NAK was sent for, with its time. -/
  acked : Nat
  nakFor : Option (Nat × Nat)
  admitted : Nat
  /-- Units of 256 bytes sent, the limit the peer granted, and the limit granted to the peer, by class. -/
  sent : SMap Nat
  limit : SMap Nat
  granted : SMap Nat
  /-- When the last valid unit arrived, in 0.1 ns (R97). -/
  heardAt : Nat
  beat : Nat
  peerBeat : Nat
  /-- The peer has answered HELLO and has not been lost since, so that shared-state changes are meant for it. -/
  joined : Bool
  /-- The peer runs the link on four lanes. -/
  peerX4 : Bool
deriving DecidableEq, Repr

def Link.reset : Link :=
  { sendq := [], replay := [], txSeq := 0, rxSeq := 0, acked := 0, nakFor := none, admitted := 0, sent := [], limit := [],
    granted := [], heardAt := 0, beat := 0, peerBeat := 0, joined := false, peerX4 := false }

/-- The stack beyond its registers. -/
structure Stk where
  links : SMap Link
  dest : SMap Nat
  dqmap : SMap Nat
  /-- Shared-state changes that members must acknowledge, and the sequence each acknowledged. -/
  acks : SMap Nat
  /-- At a member: changes received since the last mark, and the entries a snapshot has written (none: no snapshot). -/
  inbox : List Bytes
  snap : Option (List (Nat × Bytes))
  /-- When the last KEEPALIVE went out, in 0.1 ns. -/
  beatAt : Nat
deriving DecidableEq, Repr

def Stk.reset : Stk := { links := [], dest := [], dqmap := [], acks := [], inbox := [], snap := none, beatAt := 0 }

end Sys2Proof.Machine
end

