-- ==== Sys2Proof/Machine/Data/Car.lean ====
section
/-! DEFINITION. State of Carter beyond its registers: connections with their contexts, packets that wait or are kept,
receive bindings, parked packets, ledgers, regions, path templates and descriptors at work (R250 to R336).
Log entries 10. -/

namespace Sys2Proof.Machine

open Sys2Proof

/-- The life of a connection number that is not FREE (R301). -/
inductive ConnSt where
  | allocated | active | draining | error | closing
deriving DecidableEq, Repr

/-- Where a context is, and what moves it (R308 to R315). -/
inductive Tier where
  | home
  /-- A fetch that waits to start, and one in flight. -/
  | fetchWait | fetching
  | onDie
  /-- Its write-back is in flight. -/
  | writing
  /-- The stub of a context that failed (R315). -/
  | stub
deriving DecidableEq, Repr

/-- A packet that has no PSN yet. -/
structure Seg where
  op : Nat
  first : Bool
  last : Bool
  ackReq : Bool
  msg : Nat
  ext : Bytes
  pay : Bytes
  /-- Where its payload lies in host memory (R279). -/
  src : Nat := 0
deriving DecidableEq, Repr

/-- The state of a sent PSN that is not acknowledged (R294). -/
inductive SendSt where
  | sent | lost | rnrWait
deriving DecidableEq, Repr

/-- A sent PSN that is not acknowledged: its packet without payload, its latest transmission number, whether the keep
holds it, and its NO_BUFFER count (R278, R283, R284). -/
structure SendRec where
  psn : Nat
  st : SendSt
  txn : Nat
  msg : Nat
  op : Nat
  flags : Nat
  ext : Bytes
  len : Nat
  kept : Bool
  rnr : Nat
  src : Nat := 0
  /-- When it was last sent, and when the NAK that put it into RNR_WAIT came, in 0.1 ns. -/
  sentAt : Nat := 0
  rnrAt : Nat := 0
deriving DecidableEq, Repr

/-- A RECV entry: ring, index, TAG, address and length (R323). -/
structure RecvEnt where
  ring : Nat
  k : Nat
  tag : Nat
  addr : Nat
  len : Nat
deriving DecidableEq, Repr

/-- A receive binding: the message, its entry, what has arrived of it (R287, R323). -/
structure Binding where
  msg : Nat
  op : Nat
  ent : RecvEnt
  bytes : Nat
  last : Option Nat
  imm : Option Nat
  /-- The entry's ring was reset: the entry has ended, and what remains of the message is placed nowhere (R474). -/
  flushed : Bool := false
deriving DecidableEq, Repr

/-- Time parts of a CTH, and an arrival stamp, that an ACK echoes (R271). -/
structure Echo where
  sec : Nat
  ns : Nat
  arrSec : Nat
  arrNs : Nat
deriving DecidableEq, Repr

/-- What a connection still has to do: a control packet that waits for a cipher lane (R44), or a timer that expired while its
context was not on-die (R309). -/
inductive Owed where
  | ctl (op : Nat) (ext : Bytes)
  | rto
  | rnr (psn : Nat)
  | ack | credit | report
deriving DecidableEq, Repr

/-- A connection number that is not FREE, with its context (R304). -/
structure Conn where
  st : ConnSt
  inst : Nat
  dom : Nat
  host : Bool
  tier : Tier
  /-- Time of its last packet or descriptor (R310). -/
  used : Nat
  evictPending : Bool
  /-- CONN_DESTROY or a reset waits for a fetch or write-back to end (R331). -/
  closeDue : Bool
  peer : Nat
  epoch : Nat
  responder : Bool
  path : Nat
  recvRing : Nat
  homeAddr : Nat
  maxPay : Nat
  long : Bool
  winLog : Nat
  remote : Bool
  enc : Bool
  keepLog : Nat
  pin : Bool
  creditWin : Nat
  ackEvery : Nat
  ackDelay : Nat
  reorder : Nat
  rtoInit : Nat
  rtoMin : Nat
  rtoMax : Nat
  retryMax : Nat
  rnrDelay : Nat
  rnrMax : Nat
  txSlot : Nat
  rxSlot : Nat
  salt : Bytes
  /-- Areas held, in MiB: first and how many (R305). -/
  keepArea : Option (Nat × Nat)
  winArea : Option (Nat × Nat)
  ctxArea : Option (Nat × Nat)
  nextPsn : Nat
  una : Nat
  cposSent : Nat
  limit : Nat
  nextMsg : Nat
  txCount : Nat
  sendCseq : Nat
  backoff : Nat
  expiries : Nat
  /-- The CSEQ of a retraction that this end answered and that nothing newer has answered (R268). -/
  rptFor : Option Nat
  segs : List Seg
  recs : List SendRec
  /-- The cumulative point and the marked PSNs above it, rising (R280). -/
  c : Nat
  marks : List Nat
  high : Nat
  granted : Nat
  lastLimit : Nat
  cseqIn : Option Nat
  /-- The CSEQ and limit of the latest retraction sent (R268). -/
  retract : Option (Nat × Nat)
  /-- Data packets marked since the last ACK; whether a gap it has not reported lies below a mark; the echo. -/
  unacked : Nat
  gapTold : List Nat
  echo : Option Echo
  credited : Bool
  dupAck : Option Nat
  errNak : Option Nat
  binds : List Binding
  srtt : Option Nat
  rttvar : Nat
  rto : Nat
  errCode : Nat
  errMsg : Nat
  owed : List Owed := []
  /-- A descriptor or packet came while the write-back was in flight (R331). -/
  wanted : Bool := false
  /-- The header as its HBM home holds it (R304, R305). -/
  img : Bytes := []
  /-- When its timers started, in 0.1 ns: ACK_DELAY (R271), the CREDIT and the CREDIT_RPT last sent (R267, R268), the retraction
  (R313). -/
  ackFrom : Nat := 0
  creditAt : Nat := 0
  rptAt : Nat := 0
  evictAt : Nat := 0
deriving DecidableEq, Repr

/-- Who started a descriptor's work: a SEND ring (ring, index, descriptor), or STG (R403). -/
inductive WSrc where
  | ring (r k : Nat) (desc : Bytes)
  | stg (tag : Nat)
deriving DecidableEq, Repr

/-- A started descriptor: its message, the PSN of its last packet once sent, what a response has brought, and its
ending once it is due (R286, R324). -/
structure Work where
  src : WSrc
  conn : Nat
  op : Nat
  msg : Nat
  addr : Nat
  len : Nat
  last : Option Nat
  got : Nat
  ended : Option (Nat × Nat)
deriving DecidableEq, Repr

/-- A parked packet: connection, octet, cells, and how many of them its ledger entry had reserved (R312). -/
structure Parked where
  conn : Nat
  octet : Nat
  cells : Nat
  /-- The numbers of its cells (R165). -/
  place : List Nat
  pkt : Pkt
deriving DecidableEq, Repr

/-- A parking ledger entry (R311). -/
structure Ledger where
  conn : Nat
  octet : Nat
  high : Nat
  limit : Nat
  left : Nat
deriving DecidableEq, Repr

/-- A memory region (R317). -/
structure MemRegion where
  inst : Nat
  dom : Nat
  base : Nat
  len : Nat
  acc : Nat
  bind : Nat
  /-- The entry as the region table holds it. -/
  img : Bytes := []
deriving DecidableEq, Repr

/-- Carter beyond its registers. -/
structure Car where
  conns : SMap Conn
  /-- The directory: the EPOCH of the last CONN_CONNECT and the seal generation (R303, R307). -/
  epochs : SMap Nat
  seals : SMap Nat
  /-- A number's entry as the directory holds it. -/
  dir : SMap Bytes
  paths : SMap Bytes
  works : List Work
  /-- Works of STG that have ended: tag, status, bytes. -/
  stgDone : List (Nat × Nat)
  parked : List Parked
  ledger : List Ledger
  /-- Fetches that wait to start, in trigger order. -/
  fetchq : List Nat
  regions : SMap MemRegion
  gens : SMap Nat
  /-- Regions used so far, and freed indices in the order they became free (R317). -/
  fresh : Nat
  freed : List Nat
deriving DecidableEq, Repr

def Car.reset : Car :=
  { conns := [], epochs := [], seals := [], dir := [], paths := [], works := [], stgDone := [], parked := [], ledger := [], fetchq := [],
    regions := [], gens := [], fresh := 0, freed := [] }

end Sys2Proof.Machine
end

