-- ==== Sys2Proof/Machine/Data/Dom.lean ====
section
/-! DEFINITION. State of domains, instances and rings beyond the DOM registers, which hold their states and indices
(R455 to R486): the parameters of each ring, its fetched descriptors, its moderation, and the set-up mailbox.
Log entries 10. -/

namespace Sys2Proof.Machine

open Sys2Proof

/-- A Jolis ring beyond DOM_RING (R462, R470, R471, R484). -/
structure Ring where
  descAddr : Nat
  cplAddr : Nat
  /-- 0xFFFF for none. -/
  vector : Nat
  modCnt : Nat
  autoArm : Bool
  modUsec : Nat
  profile : Nat
  tc : Nat
  /-- The bound queue of an RX ring. -/
  queue : Nat
  /-- Completions since the last message. -/
  pend : Nat
  timerOn : Bool
  /-- The timer has reached MOD_USEC since the first completion after the last message. -/
  timerDone : Bool
  /-- When it started, in 0.1 ns. -/
  timerAt : Nat := 0
  /-- Descriptors requested and not yet arrived, oldest first. -/
  asked : List Nat
  /-- Descriptors fetched and not yet finished, oldest first: index and 64 bytes. -/
  fetched : List (Nat × Bytes)
  /-- The TX descriptor whose frame waits at an internal input: index and 64 bytes (R477). -/
  busy : Option (Nat × Bytes)
  /-- RX_BUF descriptors accepted and waiting for a frame: index, TAG, address, length (R478). -/
  bufs : List (Nat × Nat × Nat × Nat)
  /-- The RING_FAULT completion still to be written when the earlier descriptors end: CI and cause (R473). -/
  faultDue : Option (Nat × Nat)
  /-- Completions that wait for space in a full completion ring, oldest first (R471). -/
  cplWait : List Bytes
  /-- What a RING_MODIFY sets from the next completion on: vector, MOD_CNT, AUTO_ARM, MOD_USEC (R462). -/
  change : Option (Nat × Nat × Bool × Nat)
  /-- Descriptors in work when a ring reset began; their completions are discarded (R474). -/
  discard : Bool
deriving DecidableEq, Repr

/-- A mailbox slot (R459). -/
structure MbxSlot where
  cmd : Bytes
  reply : Bytes
  busy : Bool
  done : Bool
deriving DecidableEq, Repr

/-- A slot after reset. -/
def MbxSlot.reset : MbxSlot := { cmd := [], reply := [], busy := false, done := false }

/-- A mailbox command taken from its slot (R460); `slot` is none once an FLR has cleared the slot. -/
structure MbxCmd where
  slot : Option Nat
  cmd : Bytes
deriving DecidableEq, Repr

/-- Domains, instances, rings and mailbox beyond the DOM registers. -/
structure Dom where
  rings : SMap Ring
  slots : SMap MbxSlot
  /-- Commands waiting, in the order of their GO writes. -/
  queue : List MbxCmd
  /-- The command that firmware executes and that has not ended (INST_RESET, INST_DESTROY, DOM_DESTROY). -/
  running : Option MbxCmd
deriving DecidableEq, Repr

def Dom.reset : Dom := { rings := [], slots := [], queue := [], running := none }

end Sys2Proof.Machine
end

