-- ==== Sys2Proof/Machine/Data/Fil.lean ====
section
/-! DEFINITION. State of the Filbert cores beyond the FIL registers: the harts, the channels' messages, the frame pool,
the installed issue tables, wait-group samples (R492 to R523).
Log entries 10, 106. -/

namespace Sys2Proof.Machine

open Sys2Proof

/-- A hart (R492, R500, R507, R519). -/
structure Hart where
  /-- x1 to x31. -/
  x : SMap Nat
  /-- f0 to f31. -/
  f : SMap Nat
  pc : Nat
  /-- True in M mode. -/
  mmode : Bool
  /-- CSR values that differ from their reset values, by CSR number. -/
  csr : SMap Nat
  /-- LR reservation: the 64-byte granule and the core cycle of the LR. -/
  resv : Option (Nat × Nat)
  staging : Bytes
  recv : Bytes
  /-- Latched event bits. -/
  ev : Nat
  /-- The mask, and the destination register, of the EV.WAIT the hart waits in. -/
  wait : Option (Nat × Nat)
  /-- mip bit 16. -/
  wcip : Bool
  /-- Internally blocked at the detector's last sample. -/
  blocked : Bool
deriving DecidableEq, Repr

/-- 64 zero bytes. -/
def zero64 : Bytes := List.replicate 64 0

/-- A hart after a HART reset, held in reset (R521). -/
def Hart.reset : Hart :=
  { x := [], f := [], pc := 0, mmode := true, csr := [], resv := none, staging := zero64, recv := zero64, ev := 0,
    wait := none, wcip := false, blocked := false }

/-- An installed issue table (R496, R498). -/
structure Issue where
  lo : Nat
  hi : Nat
  highEn : Bool
  highHart : Nat
  highCap : Nat
deriving DecidableEq, Repr

/-- The table in force after reset: the reset values of the staged fields. -/
def Issue.reset : Issue := { lo := 0x76543210, hi := 0x76543210, highEn := false, highHart := 0, highCap := 16 }

/-- The issue cycles of a core's HIGH hart in a round (R497): the round's number, the cycles in which it issued, and whether the last
of them has one instruction so far. -/
structure Round where
  no : Nat
  used : Nat
  half : Bool
deriving DecidableEq, Repr

def Round.reset : Round := { no := 0, used := 0, half := false }

/-- Filbert beyond its registers. -/
structure Fil where
  harts : SMap Hart
  /-- MTIMECMP of each hart; unlisted is all ones. -/
  mtimecmp : SMap Nat
  /-- Scratch bytes of core c at c × 2^17 + offset. -/
  scratch : List (Nat × Byte)
  issue : SMap Issue
  /-- A table that APPLY has installed, and the round from which it is in force (R498). -/
  nextIssue : SMap (Nat × Issue)
  /-- The present round of each core. -/
  round : SMap Round
  /-- Messages of each channel, oldest first, software and hardware channels. -/
  chan : SMap (List Bytes)
  /-- Frame-pool buffers in use. -/
  bufUsed : SMap Bool
  /-- Poisoned 64-byte lines of HBM (R168, R514), by the model's HBM address / 64. -/
  poison : SMap Bool
  /-- When the rate cap of R515 releases the transmit channels, in 0.1 ns. -/
  txUntil : Nat
  /-- The 8 words of the program buffer of the Debug Module (R519). -/
  progbuf : List Nat
deriving DecidableEq, Repr

def Fil.reset : Fil :=
  { harts := [], mtimecmp := [], scratch := [], issue := [], nextIssue := [], round := [], chan := [], bufUsed := [], poison := [], txUntil := 0,
    progbuf := List.replicate 8 0 }

end Sys2Proof.Machine
end

