-- ==== Sys2Proof/Machine/Data/Hif.lean ====
section
/-! DEFINITION. State of the Host Interface beyond its registers: configuration spaces, request tags, translation
caches, held and stalled requests, the interrupt message store, MSI-X tables (R417 to R450).
Log entries 10, 174. -/

namespace Sys2Proof.Machine

open Sys2Proof

/-- Who waits for a read of host memory (R442). -/
inductive Req where
  /-- Descriptor `k` of a global ring. -/
  | desc (ring k : Nat)
  /-- A completion write of a ring: the write's address and its 32 bytes (R472). -/
  | cpl (ring addr : Nat) (data : Bytes)
  /-- A data write of a descriptor of a ring (R367, R368). -/
  | put (ring addr : Nat) (data : Bytes)
  /-- The translation of a page for a command that waits for it, for a write or a read (R439). -/
  | page (w : Bool)
  /-- A read whose data its command brings. -/
  | other
deriving DecidableEq, Repr

/-- The life of a tag (R441, R445). -/
inductive TagSt where
  | outstanding | orphaned | quarantined
  /-- Quarantined after an orphan's timeout: its completion is counted and not logged. -/
  | orphanQuar
deriving DecidableEq, Repr

/-- A request tag of an attach point. -/
structure Tag where
  ap : Nat
  tag : Nat
  fn : Nat
  inst : Option Nat
  req : Req
  len : Nat
  page : Option (Option Nat × Nat)
  st : TagSt
  /-- Its timeout T, and when T or its quarantine runs out, in 0.1 ns (R440, R441). -/
  tmo : Nat := 0
  due : Nat := 0
deriving DecidableEq, Repr

/-- An entry of a translation cache, most recently used first in its list (R439). -/
structure Atc where
  ap : Nat
  fn : Nat
  pasid : Option Nat
  page : Nat
  target : Nat
  r : Bool
  w : Bool
deriving DecidableEq, Repr

/-- Where a request that waits for a translation stands (R439). -/
inductive HeldSt where
  | translating | pageWait | retrying
  /-- Translated, waiting for a free tag (R438). -/
  | ready (target : Nat)
  /-- A write behind an earlier one of its function that is held (R433). -/
  | behind
deriving DecidableEq, Repr

/-- A request held for a translation. `stale` says that an invalidation overlapped it (R450). -/
structure Held where
  ap : Nat
  fn : Nat
  inst : Option Nat
  pasid : Option Nat
  addr : Nat
  len : Nat
  req : Req
  st : HeldSt
  stale : Bool
  /-- When its Page Request times out, in 0.1 ns. -/
  due : Nat := 0
deriving DecidableEq, Repr

/-- An invalidation whose completion waits for reads under it (R439). -/
structure Inval where
  ap : Nat
  fn : Nat
  itag : Nat
  pasid : Option Nat
  lo : Nat
  hi : Nat
  /-- Global Invalidate: it holds for every PASID. -/
  glob : Bool := false
deriving DecidableEq, Repr

/-- An entry of the interrupt message store (R431). -/
structure IrqEnt where
  addr : Nat
  data : Nat
  valid : Bool
  mask : Bool
  pend : Bool
  ap : Nat
  func : Nat
  inst : Nat
deriving DecidableEq, Repr

/-- An unused entry. -/
def IrqEnt.none : IrqEnt :=
  { addr := 0, data := 0, valid := false, mask := false, pend := false, ap := 0, func := 0, inst := 0 }

/-- An MSI-X table entry and its pending bit (R424, R430). -/
structure Msix where
  addr : Nat
  data : Nat
  mask : Bool
  pend : Bool
deriving DecidableEq, Repr

/-- The MSI-X entry after reset: masked, as PCI Express gives. -/
def Msix.reset : Msix := { addr := 0, data := 0, mask := true, pend := false }

/-- What a posted request came from: an interrupt message from an entry of the store, or from a vector of a function's MSI-X
table by its index; a write from an instance. -/
inductive MsgSrc where
  | store (i : Nat)
  | vector (i : Nat)
  | inst (i : Nat)
deriving DecidableEq, Repr

/-- A posted request that waits for a credit of its attach point (R435); it knows its source (R450, R465). -/
structure Stalled where
  ap : Nat
  out : Emit
  src : Option MsgSrc
deriving DecidableEq, Repr

/-- HIF beyond its registers. -/
structure Hif where
  /-- Configuration doublewords of function a × 8 + f at index (a × 8 + f) × 1024 + dword, reset by FLR. -/
  cfg : SMap Nat
  /-- Configuration bits that PCI Express defines as sticky (R429), the same index. -/
  sticky : SMap Nat
  /-- The reserved functions present since the last PORT reset of each attach point (R422): bit a × 8 + f. -/
  present : Nat
  tags : List Tag
  atc : List Atc
  held : List Held
  inval : List Inval
  irq : SMap IrqEnt
  /-- MSI-X entry v of function a × 8 + f at index (a × 8 + f) × 2048 + v. -/
  msix : SMap Msix
  /-- Posted credits of each attach point: absent is unlimited (R435). -/
  credit : SMap Nat
  /-- Posted writes that wait for credits. -/
  stalled : List Stalled
  /-- The same for non-posted requests and completions, and the completions that wait (R57, R435). -/
  npCredit : SMap Nat
  cplCredit : SMap Nat
  cplStalled : List (Nat × Emit)
  /-- Reset-in-progress and readiness windows are the HIF_AP_LINK fields; QUIESCED clears when the set of instances
  still to pass RESETTING is empty: (function a × 8 + f, instance). -/
  toPass : List (Nat × Nat)
deriving DecidableEq, Repr

def Hif.reset : Hif :=
  { cfg := [], sticky := [], present := 0, tags := [], atc := [], held := [], inval := [], irq := [], msix := [],
    credit := [], stalled := [], npCredit := [], cplCredit := [], cplStalled := [], toPass := [] }

end Sys2Proof.Machine
end

