-- ==== Sys2Proof/Machine/Data/Lck.lean ====
section
/-! DEFINITION. State of the Locksmith and of Husk beyond their registers: key slots, ranges, internal keys, jobs, key
caches (R343 to R376).
Log entries 10, 175. -/

namespace Sys2Proof.Machine

open Sys2Proof

/-- A key slot (R359). -/
structure LckSlot where
  /-- 0 EMPTY, 1 VALID, 2 FAULTED. -/
  st : Nat
  ty : Nat
  attr : Nat
  dom : Nat
  /-- 0 KIND 1, 1 KIND 2, 2 generated. -/
  origin : Nat
  gen : Nat
  exports : Nat
  mat : Bytes
  salt : Bytes
deriving DecidableEq, Repr

/-- An EMPTY slot of generation 0. -/
def LckSlot.none : LckSlot :=
  { st := 0, ty := 0, attr := 0, dom := 0, origin := 0, gen := 0, exports := 0, mat := [], salt := [] }

/-- A KEY_DESTROY that waits for its cached copies and jobs (R369): its ring, descriptor, slots. -/
structure Destroy where
  ring : Nat
  desc : Bytes
  slots : List Nat
deriving DecidableEq, Repr

/-- The Locksmith beyond its registers. -/
structure Lck where
  slots : SMap LckSlot
  /-- The range in force of each domain: BASE and COUNT. -/
  range : SMap (Nat × Nat)
  /-- A range that waits for its leaving slots to be zeroized. -/
  pend : SMap (Nat × Nat)
  /-- INT0 to INT3 (R362). -/
  intKey : SMap Bytes
  destroys : List Destroy
deriving DecidableEq, Repr

def Lck.reset : Lck := { slots := [], range := [], pend := [], intKey := [], destroys := [] }

/-- A block that a lane pair holds, with the CHECK mode under which it was loaded (R338, R342). -/
structure Lane where
  pair : Nat
  blk : Nat
  invert : Bool
deriving DecidableEq, Repr

/-- A Husk job that has been dispatched (R345, R347). -/
structure HJob where
  req : Nat
  /-- The ordering key of R343. -/
  key : Nat
  op : Nat
  dom : Nat
  slot : Nat
  src : Nat
  dst : Nat
  len : Nat
  aad : Nat
  du : Nat
  param : Bytes
  tag : Nat
  reply : Nat
  cluster : Nat
  /-- Slots whose key the cluster still loads. -/
  need : List Nat
  /-- The loaded key, the second key of XTS, the SALT. -/
  k1 : Bytes
  k2 : Bytes
  salt : Bytes
  /-- The status met so far (R350). -/
  status : Nat
  /-- The first block that was never released. -/
  stuck : Option Nat
  esp : Option Esp
  /-- Its blocks in lanes, how many were loaded in order, and blocks that run again (R377). -/
  lanes : List Lane := []
  next : Nat := 0
  redo : List Nat := []
  /-- Its data blocks that have been released (R339, R351). -/
  released : List Nat := []
deriving DecidableEq, Repr

/-- Husk beyond its registers. -/
structure Hsk where
  jobs : List HJob
  /-- The key cache of each cluster, most recently used first: slot and generation. -/
  cache : SMap (List (Nat × Nat))
deriving DecidableEq, Repr

def Hsk.reset : Hsk := { jobs := [], cache := [] }

end Sys2Proof.Machine
end

