-- ==== Sys2Proof/Machine/Data/Pwr.lean ====
section
/-! DEFINITION. Power and reset state beyond the PWR and CLK registers (R36, R558 to R578, R644).
Log entries 10, 143. -/

namespace Sys2Proof.Machine

open Sys2Proof

/-- How far a DORMANT request has come (R563). -/
inductive DormPhase where
  /-- None stands. -/
  | none
  /-- R564 does not hold yet; WAIT ms run. -/
  | waiting
  /-- R564 held: the entry is in progress. -/
  | entering
deriving DecidableEq, Repr

/-- Who asked for the STANDBY in force (R566). -/
inductive SbyWhy where
  | owner | critical | vfault
deriving DecidableEq, Repr

/-- Power and resets beyond the registers. -/
structure Pwr where
  /-- The state before DORMANT, and the PWR_DOM_ON words then. -/
  before : Nat
  onBefore : List Nat
  phase : DormPhase
  sby : SbyWhy
  /-- When DORMANT or STANDBY was entered, in 0.1 ns. -/
  since : Nat
  /-- A wake source that ends STANDBY once REFCLK is back (R578). -/
  wakeDue : Option Nat
  /-- The data path is gated for the loss of REFCLK (R36), or because no Reeve image was accepted (R613). -/
  clkGated : Bool
  noImage : Bool
  /-- The supply is lost (R659). -/
  dark : Bool
  /-- The levels of the strap balls: OWNER_SEL, HOST_SPLIT, STACK_ID (R644). -/
  ownerSel : Nat
  hostSplit : Nat
  stackId : Nat
  /-- DATA units received on a Sahrov link while DORMANT, which wait for the exit (R566): STACK_ID and bytes. -/
  units : List (Nat × Bytes)
  /-- Until when the last DORMANT exit keeps the data path from use (0.1 ns), and what Ethernet ports received meanwhile, by
  port, oldest first (R54, R567). -/
  exitAt : Nat
  held : List (Nat × Wire)
  /-- When the DORMANT request that waits was made, in 0.1 ns (R563). -/
  dormAt : Nat := 0
deriving DecidableEq, Repr

def Pwr.reset : Pwr :=
  { before := 0, onBefore := [], phase := .none, sby := .owner, since := 0, wakeDue := Option.none, clkGated := false,
    noImage := false, dark := false, ownerSel := 0, hostSplit := 0, stackId := 0, units := [], exitAt := 0, held := [] }

end Sys2Proof.Machine
end

