-- ==== Sys2Proof/Machine/Data/Rev.lean ====
section
/-! DEFINITION. State of the Reeve and the Bellman beyond the REV registers (R584 to R606).
Log entries 4, 128. -/

namespace Sys2Proof.Machine

open Sys2Proof

/-- A counted failure of a unit: class, unit, time in ms and in cycles of CLK_CTL (R592); `shown` until a reset of the chain clears
FAIL_COUNT. -/
structure Failure where
  cls : Nat
  unit : Nat
  ms : Nat
  shown : Bool
  cycle : Nat := 0
deriving DecidableEq, Repr

/-- The Reeve and the Bellman beyond their registers. -/
structure Rev where
  /-- Sensors and monitors that have had a first sample since the last POR, COLD or WARM (R585), by number. -/
  tempSeen : Nat
  voltSeen : Nat
  /-- Sensors whose last raw sample, and whose last two raw samples, lay above the trip (R603). -/
  trip1 : Nat
  trip2 : Nat
  /-- Monitors now below UV_WARN, and now outside UV_FAULT to OV_FAULT (R590). -/
  belowWarn : Nat
  faulted : Nat
  fails : List Failure
  /-- Clears awaiting COLD: kind and unit (R596). -/
  clears : List (Nat × Nat)
  /-- Spare rows used of each pseudo-channel 32s + c (MRAM), and rows awaiting a hard repair (R594). -/
  sparesPc : SMap Nat
  rowsSoft : List (Nat × Nat)
  /-- Sequence number of the next fault-log entry (MRAM, R605). -/
  logSeq : Nat
  /-- Bellman records, oldest first, at most 16, and the next SEQ (MRAM, R604). -/
  records : List Bytes
  bellSeq : Nat
  /-- SEQ of the record whose NEW was last cleared (MRAM). -/
  ackSeq : Option Nat
  /-- The event of a record found at POR or COLD has not been sent yet: no receiver is registered then. -/
  causeEvent : Bool
  /-- The cause that put the Bellman in control. -/
  inControl : Option Nat
  armed : Bool
  /-- Time of the last watchdog restart, and of the last POR or COLD, in units of 0.1 ns. -/
  hbAt : Nat
  upAt : Nat
  /-- Something was logged as a failure, and a unit was retired, since COLD (R598). -/
  failLogged : Bool
  unitRetired : Bool
  eid : Nat
  /-- PLDM event receiver: enable byte and EID. -/
  evRecv : Option Nat
  /-- ENTROPY permanence: DRBG_OK stays 0 until COLD. -/
  drbgDead : Bool
  /-- VDD_CORE target last changed, in 0.1 ns. -/
  avsAt : Nat
  /-- The issues of a core, and at 64 + c the block loads of cluster c, in the 16 cycles of CLK_CORE numbered so (R588). -/
  duty : SMap (Nat × Nat) := []
deriving DecidableEq, Repr

def Rev.reset : Rev :=
  { tempSeen := 0, voltSeen := 0, trip1 := 0, trip2 := 0, belowWarn := 0, faulted := 0, fails := [], clears := [],
    sparesPc := [], rowsSoft := [], logSeq := 0, records := [], bellSeq := 0, ackSeq := none, causeEvent := false, inControl := none, armed := true,
    hbAt := 0, upAt := 0, failLogged := false, unitRetired := false, eid := 0, evRecv := none, drbgDead := false,
    avsAt := 0 }

end Sys2Proof.Machine
end

