-- ==== Sys2Proof/Machine/Data/Stg.lean ====
section
/-! DEFINITION. State of the storage path beyond its registers: root ports, namespace and extent entries, failed legs,
emulated NVMe controllers, host commands at work (R384 to R412).
Log entries 10, 143. -/

namespace Sys2Proof.Machine

open Sys2Proof

/-- A drive namespace found at initialization (R393): the LBA size in bytes and the size in LBAs. -/
structure DrvNs where
  lba : Nat
  size : Nat
deriving DecidableEq, Repr

/-- A root port beyond STG_RP (R385 to R394). -/
structure Rp where
  /-- The debounced presence input. -/
  present : Bool
  /-- Slot power and reset (deasserted); the reference clock output: none is high impedance, else whether it runs. -/
  pwren : Bool
  perstOff : Bool
  refclk : Option Bool
  /-- The attention button was pressed and its 5 s run (R388), and when that was, in 0.1 ns. -/
  armed : Bool
  pressAt : Nat := 0
  /-- When the port entered its state, in 0.1 ns. -/
  since : Nat := 0
  /-- Configuration doublewords that differ from their reset values (R415). -/
  cfg : SMap Nat
  /-- The drive's namespaces by NSID. -/
  drv : SMap DrvNs
  nextCid : Nat
  /-- Commands that an Abort was sent for and that the drive has not completed (R392). -/
  aborted : List Nat
  /-- The drive was told to shut down (R387). -/
  shut : Bool
deriving DecidableEq, Repr

def Rp.reset : Rp :=
  { present := false, pwren := false, perstOff := false, refclk := none, armed := false, cfg := [], drv := [],
    nextCid := 0, aborted := [], shut := false }

/-- A submission queue of an emulated controller. -/
structure NvSq where
  addr : Nat
  size : Nat
  head : Nat
  tail : Nat
  cq : Nat
deriving DecidableEq, Repr

/-- A completion queue of an emulated controller; `held` counts entries posted since the last interrupt, and the first of them
came at `heldAt` (0.1 ns). -/
structure NvCq where
  addr : Nat
  size : Nat
  head : Nat
  tail : Nat
  phase : Bool
  iv : Nat
  ien : Bool
  held : Nat
  heldAt : Nat := 0
  /-- Entries that wait for room, oldest first: queue, command, status and result. -/
  wait : List (Nat × Nat × Nat × Nat)
deriving DecidableEq, Repr

/-- What a controller does after CC.EN is cleared or CC.SHN is written (R407). -/
inductive Stopping where
  | no
  /-- CC.EN was cleared: RDY falls when the work ends. -/
  | disable
  /-- CC.SHN was written: SHST reads 01b until the work and the flushes end. -/
  | shutdown
  /-- The work ended and the flushes run. -/
  | flushing
deriving DecidableEq, Repr

/-- An emulated NVMe controller (R395, R396). -/
structure Ctrl where
  cc : Nat
  rdy : Bool
  cfs : Bool
  shst : Nat
  intm : Nat
  aqa : Nat
  asq : Nat
  acq : Nat
  sqs : SMap NvSq
  cqs : SMap NvCq
  stop : Stopping
  /-- Command identifiers of outstanding Asynchronous Event Requests, oldest first. -/
  aers : List Nat
  /-- Results of events held or masked, oldest first (R405). -/
  events : List Nat
  /-- Event types reported and masked until their log page is read, bit t for type t. -/
  masked : Nat
  /-- Namespaces changed since the Changed Namespace List was read. -/
  changed : List Nat
  /-- Feature values that differ from their defaults. -/
  feat : SMap Nat
  /-- Error-log entries, newest first, and how many errors there were. -/
  errs : List Bytes
  errCount : Nat
  /-- 512-byte units read and written, read and write commands (R406). -/
  unitsRd : Nat
  unitsWr : Nat
  reads : Nat
  writes : Nat
deriving DecidableEq, Repr

def Ctrl.reset : Ctrl :=
  { cc := 0, rdy := false, cfs := false, shst := 0, intm := 0, aqa := 0, asq := 0, acq := 0, sqs := [], cqs := [], stop := .no,
    aers := [], events := [], masked := 0, changed := [], feat := [], errs := [], errCount := 0, unitsRd := 0, unitsWr := 0, reads := 0,
    writes := 0 }

/-- How an operation on a leg ended. -/
inductive LegEnd where
  /-- A drive completion: SCT and SC. -/
  | drive (sct sc : Nat)
  /-- The status of a Carter descriptor. -/
  | carter (status : Nat)
  /-- It ended without a completion (R392). -/
  | lost
deriving DecidableEq, Repr

/-- Where an operation on a leg stands. -/
inductive LegSt where
  /-- It waits for room in the drive's queues. -/
  | wait
  | out
  | ended (e : LegEnd)
  /-- Its ending has been taken up. -/
  | done (e : LegEnd)
deriving DecidableEq, Repr

/-- An operation of a host command on one leg. -/
structure LegOp where
  ext : Nat
  leg : Nat
  /-- The port of a local leg, none for a remote one. -/
  port : Option Nat
  /-- The drive command identifier, or the tag of the Carter work. -/
  tag : Nat
  opcode : Nat
  nsid : Nat
  lba : Nat
  blocks : Nat
  /-- The model's HBM address and the length of its data. -/
  addr : Nat
  len : Nat
  fua : Bool
  st : LegSt
  /-- When it was submitted to its drive, in 0.1 ns. -/
  sent : Nat := 0
deriving DecidableEq, Repr

/-- A host command at work (R403, R404). -/
structure HCmd where
  id : Nat
  ctrl : Nat
  /-- Submission queue and command identifier; none for a flush of R407. -/
  sq : Option (Nat × Nat)
  opcode : Nat
  /-- The namespace entry's index, its bytes and its extents as the command began with them. -/
  ns : Nat
  entry : Bytes
  exts : List (Nat × Bytes)
  slba : Nat
  blocks : Nat
  /-- Host pages of the data, in order: address and length. -/
  pages : List (Nat × Nat)
  /-- The staging area: model HBM address and length, 0 where none is held. -/
  stage : Nat
  stageLen : Nat
  legs : List LegOp
  /-- Earlier writes a Flush waits for. -/
  waits : List Nat
  posted : Bool
  /-- The results are discarded (R407, R408). -/
  discard : Bool
  /-- The status of the first extent whose read failed. -/
  bad : Option Nat
deriving DecidableEq, Repr

/-- The storage path beyond its registers. -/
structure Stg where
  ports : SMap Rp
  ns : SMap Bytes
  ext : SMap Bytes
  /-- Failed legs, leg l of extent e at 2e + l. -/
  failed : SMap Bool
  /-- Function controller of attach point a at a, controller of instance i at 8 + i. -/
  ctrls : SMap Ctrl
  cmds : List HCmd
  nextId : Nat
  nextTag : Nat
deriving DecidableEq, Repr

def Stg.reset : Stg :=
  { ports := [], ns := [], ext := [], failed := [], ctrls := [], cmds := [], nextId := 0, nextTag := 0 }

end Sys2Proof.Machine
end

