-- ==== Sys2Proof/Machine/Data/Trust.lean ====
section
/-! DEFINITION. State of secure boot, identity and SPDM beyond the DBG registers (R611 to R636), with the shadows of the
control window (R667).
Log entries 4. -/

namespace Sys2Proof.Machine

open Sys2Proof

/-- What the device keeps of the header of an image that runs (R615, R619, R620, R624). -/
structure Img where
  svn : Nat
  keyId : Nat
  advance : Bool
  revoke : Bool
  digest : Bytes
deriving DecidableEq, Repr

/-- What becomes of a session once the response in hand has gone out. -/
inductive SessNext where
  | same
  /-- The keys of the application phase are in use from then on: key and IV. -/
  | keys (key iv : Bytes)
  /-- The session ends. -/
  | ends
deriving DecidableEq, Repr

/-- A secured SPDM session (R623, R625). -/
structure Sess where
  /-- The session number: the requester's half in bits 15:0, the device's in bits 31:16. -/
  id : Nat
  /-- FINISH has been accepted. -/
  est : Bool
  /-- The heartbeat period in s. -/
  period : Nat
  /-- The requester's certificate chain as received so far. -/
  chain : Bytes
  /-- The requester's public key, once its chain has been accepted. -/
  peer : Option Bytes
  /-- The identifier of the encapsulated request that stands; 0 for none. -/
  encap : Nat
  /-- The transcript of the handshake. -/
  th : Bytes
  /-- The handshake secret, and the finished key of the requester. -/
  hs : Bytes
  reqFin : Bytes
  /-- Key and IV of the direction to the requester, and the number of messages sent with them. -/
  rspKey : Bytes
  rspIv : Bytes
  rspSeq : Nat
  next : SessNext
deriving DecidableEq, Repr

/-- The SPDM responder outside sessions (R623). -/
structure Spdm where
  /-- How far the negotiation has come: 0 none, 1 version, 2 capabilities, 3 algorithms. -/
  phase : Nat
  /-- The version in use: 0x12 or 0x13. -/
  ver : Nat
  /-- The requester's flags and transfer size. -/
  flags : Nat
  xfer : Nat
  /-- The transcripts: negotiation, certificates, measurements. -/
  vca : Bytes
  trB : Bytes
  trL : Bytes
  /-- The large response that CHUNK_GET returns: handle, next chunk, bytes, offset. -/
  large : Option (Nat × Nat × Bytes × Nat)
  /-- The large request that CHUNK_SEND builds: handle, next chunk, size, bytes. -/
  chunk : Option (Nat × Nat × Nat × Bytes)
  handle : Nat
  nextSess : Nat
  sessions : List Sess
deriving DecidableEq, Repr

def Spdm.reset : Spdm :=
  { phase := 0, ver := 0, flags := 0, xfer := 0, vca := [], trB := [], trL := [], large := none, chunk := none, handle := 0,
    nextSess := 0, sessions := [] }

/-- A token under verification, and the challenge it answers (R634). -/
structure Unlock where
  token : Bytes
  chal : Bytes
deriving DecidableEq, Repr

/-- Trust beyond the DBG registers. -/
structure Trust where
  /-- MRAM: the preferred slot of each type (0 A, 1 B; R613), LIMIT (R628), POR and COLD events (R627). -/
  prefR : Nat
  prefF : Nat
  limit : Nat
  boots : Nat
  /-- The slot tried first in the load that runs, and how many slots it has rejected. -/
  firstR : Nat
  firstF : Nat
  triedR : Nat
  triedF : Nat
  /-- The images that run. -/
  imgR : Option Img
  imgF : Option Img
  verifying : Option Unlock
  /-- R624 block 6, since COLD: an unlock, the scopes granted, the authorities used. -/
  anyUnlock : Bool
  scopes : Nat
  auths : Nat
  /-- DBGREG: STATUS, WORD of the last operation, DATA of the last read (R632). -/
  regStatus : Nat
  regWord : Nat
  regData : Nat
  /-- For each domain (0 owner, 1 Reeve, 2 debug) the RC counter it read last, by its offset plus one, and that counter's
  high word (R667). -/
  shadow : SMap (Nat × Nat)
  spdm : Spdm
deriving DecidableEq, Repr

/-- A part that has started once, with slot A preferred for both types. -/
def Trust.reset : Trust :=
  { prefR := 0, prefF := 0, limit := 0, boots := 1, firstR := 0, firstF := 0, triedR := 0, triedF := 0, imgR := none,
    imgF := none, verifying := none, anyUnlock := false, scopes := 0, auths := 0, regStatus := 0, regWord := 0,
    regData := 0, shadow := [], spdm := Spdm.reset }

end Sys2Proof.Machine
end

