-- ==== Sys2Proof/Machine/Data/Tu.lean ====
section
/-! DEFINITION. State of the Time Unit beyond the TU registers (R530, R531, R546, R550, R551).
Log entries 10. -/

namespace Sys2Proof.Machine

open Sys2Proof

/-- The Time Unit beyond its registers. -/
structure Tu where
  /-- TU time since the PTP epoch in units of 2^-32 ns (R530, R531). -/
  t : Nat
  /-- What the counter starts from when TU_CFG.EN is set: 0, or the last value written through TU_SET. -/
  start : Nat
  /-- The servo's integrator and output, in units of 2^-40 (R546). -/
  integ : Int
  out : Int
  /-- Consecutive offsets within LOCK_THRESH. -/
  good : Nat
  /-- The EEC output (R551), in units of 2^-40. -/
  eec : Int
  /-- Measured frequency of reference 0 and of reference 1, signed, 2^-40. -/
  ffo0 : Int
  ffo1 : Int
  /-- When TU_SET was last applied, and until when the offset engine computes, in 0.1 ns. -/
  setAt : Option Nat
  busyUntil : Nat
  /-- When PPS_OUT falls, in 0.1 ns. -/
  ppsOff : Option Nat
  /-- The stack exchange under way: TIME sequence, t1 and t2 of the master's TIME word, t3 of the member's. -/
  seq : Nat
  t1 : Option Nat
  t2 : Nat
  t3 : Option Nat
  /-- When the servo took its last offset, or began to lock, and when the member last sent TIME, in 0.1 ns. -/
  offAt : Nat := 0
  timeAt : Nat := 0
deriving DecidableEq, Repr

def Tu.reset : Tu :=
  { t := 0, start := 0, integ := 0, out := 0, good := 0, eec := 0, ffo0 := 0, ffo1 := 0, setAt := none, busyUntil := 0,
    ppsOff := none, seq := 0, t1 := none, t2 := 0, t3 := none }

end Sys2Proof.Machine
end

