-- ==== Sys2Proof/Machine/State.lean ====
section
/-! DEFINITION. The state of the device, as plain data, and the reasons a step can stop. Each block's registers lie in
`regs`; what a block holds beyond its registers lies in its own field.
Log entries 4, 5, 8, 10, 143, 147. -/

namespace Sys2Proof.Machine

open Sys2Proof

structure State where
  /-- Every field of every register map of the control window. -/
  regs : RegFile
  /-- Elapsed time in units of 0.1 ns (R5, R34): the time base of every window and timestamp. -/
  now : Nat
  /-- HBM bytes, stack s byte b at s × 2^36 + b; an unlisted byte reads 0. -/
  hbm : List Host.Cell
  hif : Hif
  dom : Dom
  fil : Fil
  rev : Rev
  tu : Tu
  eth : Eth
  stk : Stk
  win : Win
  grn : Grn
  tly : Tly
  lck : Lck
  hsk : Hsk
  car : Car
  stg : Stg
  pwr : Pwr
  trust : Trust
  /-- What the device has sent to its surroundings, oldest first (the model's own record). -/
  out : List Emit
  /-- Number of the next free value (the model's own). -/
  freeCtr : Nat
  /-- Commands that wait, first in, first out. -/
  pending : List Instr
deriving DecidableEq, Repr

/-- Reasons a step stops with a fault. The block stops on no command: every command of the table has an effect. -/
inductive Fault where
  /-- Raised by no command. Safe: nothing ends a run. -/
  | neverRaised
deriving DecidableEq, Repr

/-- Reasons a command is refused. -/
inductive Refusal where
  /-- Raised by Dispatch alone, for a command whose meaning is not written yet. Safe: it stops where the device goes on. -/
  | notModelled (mnemonic : String)
deriving DecidableEq, Repr

/-- The machine right after reset: every register at its reset value, every block empty, nothing waiting. -/
def State.reset : State :=
  { regs := RegFile.empty, now := 0, hbm := [], hif := Hif.reset, dom := Dom.reset, fil := Fil.reset, rev := Rev.reset,
    tu := Tu.reset, eth := Eth.reset, stk := Stk.reset, win := Win.reset, grn := Grn.reset, tly := Tly.reset,
    lck := Lck.reset, hsk := Hsk.reset, car := Car.reset, stg := Stg.reset, pwr := Pwr.reset, trust := Trust.reset, out := [], freeCtr := 0, pending := [] }

/-- What a command answers. -/
abbrev Ans := Host.Outcome State Fault Refusal

end Sys2Proof.Machine
end

