-- ==== Sys2Proof/Machine/Ops.lean ====
section
/-! DEFINITION. The named operations over the whole state: register fields, counters, memory, time, free values, the
record of what the device sends. Every other file reads and changes the state through these.
Log entries 1, 2, 5, 11, 13, 98, 117, 124, 145. -/

namespace Sys2Proof.Machine

open Sys2Proof

/-- The value a register field holds. -/
def State.rd (s : State) (f : Fld) (ix : List Nat) : Nat := s.regs.get f ix

/-- Whether a one-bit field reads 1. -/
def State.flag (s : State) (f : Fld) (ix : List Nat) : Bool := s.regs.get f ix % 2 == 1

/-- A register field set by the device. -/
def State.wr (s : State) (f : Fld) (ix : List Nat) (v : Nat) : State := { s with regs := s.regs.set f ix v }

/-- `n` added to a field, modulo its width. -/
def State.add (s : State) (f : Fld) (ix : List Nat) (n : Nat) : State := s.wr f ix (s.rd f ix + n)

/-- One added to a counter. -/
def State.inc (s : State) (f : Fld) (ix : List Nat) : State := s.add f ix 1

/-- `n` taken from a field, stopping at 0. -/
def State.sub (s : State) (f : Fld) (ix : List Nat) (n : Nat) : State := s.wr f ix (s.rd f ix - n)

/-- `n` added to a field that saturates at its all-ones value. -/
def State.satAdd (s : State) (f : Fld) (ix : List Nat) (n : Nat) : State :=
  s.wr f ix (min (s.rd f ix + n) (2 ^ f.width - 1))

/-- Something sent to the surroundings. -/
def State.emit (s : State) (e : Emit) : State := { s with out := s.out ++ [e] }

/-- Several things sent, in order. -/
def State.emits (s : State) (es : List Emit) : State := { s with out := s.out ++ es }

/-- The next free value, cut to `w` bits: a value the manual leaves open. -/
def State.freeBits (s : State) (w : Nat) : Nat × State :=
  (Config.freeNat s.freeCtr % 2 ^ w, { s with freeCtr := s.freeCtr + 1 })

/-- `n` free bytes (a random draw, an open content). -/
def State.freeBytes (s : State) (n : Nat) : Bytes × State :=
  ((List.range n).map (Config.freeByte s.freeCtr), { s with freeCtr := s.freeCtr + 1 })

/-- The address of byte `off` of HBM stack `st` in the model's memory. -/
def hbmAddr (st off : Nat) : Nat := st * 2 ^ 36 + off

/-- R47: byte `a` of the interleaved space. -/
def interleaved (a : Nat) : Nat := hbmAddr (a / 256 % 4) (a / 1024 * 256 + a % 256)

/-- One byte of HBM. An unlisted byte reads 0. -/
def State.hbmByte (s : State) (a : Nat) : Byte := SMap.get 0 s.hbm a

/-- `n` bytes of HBM from `a`. -/
def State.hbmRead (s : State) (a n : Nat) : Bytes := (List.range n).map (fun i => s.hbmByte (a + i))

/-- The canonical form of a memory: strictly rising addresses, and no listed byte equal to 0, which an unlisted one reads as. -/
def Memory.wf (m : List Host.Cell) : Bool := SMap.wf 0 m

/-- A list of bytes written over a memory from `a` up. -/
def memWrite (m : List Host.Cell) (a : Nat) (bs : Bytes) : List Host.Cell :=
  match bs with
  | [] => m
  | b :: r => memWrite (SMap.set 0 m a b) (a + 1) r

/-- R595: whether every stack is whole: nothing retired that is still in the interleave, nothing cut off. -/
def State.hbmWhole (s : State) : Bool :=
  (List.range 4).all (fun q => s.rd R.REV_HBM_W2.UNMAPPED [q] == 0 && s.rd R.REV_HBM_W1.USABLE_MIB [q] == 49152)

/-- R595: whether byte `a` lies in a retired pseudo-channel of the interleave, or above the usable size of its stack. -/
def State.hbmGone (s : State) (a : Nat) : Bool :=
  decide (s.rd R.REV_HBM_W1.USABLE_MIB [a / 2 ^ 36] * 2 ^ 20 ≤ a % 2 ^ 36)
    || bit (s.rd R.REV_HBM_W2.UNMAPPED [a / 2 ^ 36]) (Config.lineChannel (a % 2 ^ 36 / 64) % 32)

/-- Bytes written one by one where HBM takes them, with how many lines discarded theirs. -/
def hbmWriteSome (s : State) (m : List Host.Cell) (a : Nat) (bs : Bytes) (lost : List Nat) : List Host.Cell × List Nat :=
  match bs with
  | [] => (m, lost)
  | b :: r =>
    if s.hbmGone a then hbmWriteSome s m (a + 1) r (if lost.contains (a / 64) then lost else a / 64 :: lost)
    else hbmWriteSome s (SMap.set 0 m a b) (a + 1) r lost

/-- R492: a write to granules `lo` to `hi` of 64 bytes ends the reservations on them. -/
def dropResv (s : State) (lo hi : Nat) : State :=
  let f (e : Nat × Hart) : Option (Nat × Hart) := match e.2.resv with
    | some (g, _) =>
      if lo ≤ g && g ≤ hi then
        let t : Hart := { e.2 with resv := none }
        if t = Hart.reset then none else some (e.1, t)
      else some e
    | none => some e
  { s with fil := { s.fil with harts := s.fil.harts.filterMap f } }

/-- Bytes of HBM written from `a` up. A write to a line of a retired pseudo-channel is discarded and counted (R595). -/
def State.hbmWrite (s : State) (a : Nat) (bs : Bytes) : State :=
  let s := dropResv s (a / 64) ((a + bs.length - 1) / 64)
  if s.hbmWhole then { s with hbm := memWrite s.hbm a bs }
  else
    let (m, lost) := hbmWriteSome s s.hbm a bs []
    ({ s with hbm := m }).add R.REV_CNT.COUNT [3] lost.length

/-- Elapsed time in ns, µs and ms. -/
def State.nowNs (s : State) : Nat := s.now / 10
def State.nowUs (s : State) : Nat := s.now / 10000
def State.nowMs (s : State) : Nat := s.now / 10000000

/-- R494: MTIME, in units of 10 ns since the last COLD. -/
def State.mtime (s : State) : Nat := (s.now - s.rev.upAt) / 100 % 2 ^ 64

/-- UPTIME of R604 and R605, in ms since the last POR or COLD. -/
def State.uptime (s : State) : Nat := (s.now - s.rev.upAt) / 10000000 % 2 ^ 32

/-- The period of CLK_TIME (R34) in units of 0.1 ns. -/
def tickLen : Nat := if Config.slowGrade then 40 else 32

/-- The period of CLK_CORE (R34) in units of 0.1 ns. -/
def coreLen : Nat := if Config.slowGrade then 5 else 4

/-- The CRC-32 of the Ethernet polynomial over a byte string, one bit at a time (R79, R604). -/
def crc32Byte (c : Nat) (b : Nat) : Nat :=
  (List.range 8).foldl (fun c i =>
    let x := (c ^^^ (b / 2 ^ i)) % 2
    if x = 1 then (c / 2) ^^^ 0xEDB88320 else c / 2) c

/-- CRC-32 with initial value and final inversion of all ones. -/
def crc32 (bs : Bytes) : Nat :=
  (bs.foldl (fun c b => crc32Byte c b.toNat) 0xFFFFFFFF) ^^^ 0xFFFFFFFF

/-- One byte of the CRC-32C (Castagnoli) register, reflected. -/
def crc32cByte (c : Nat) (b : Nat) : Nat :=
  (List.range 8).foldl (fun c i =>
    let x := (c ^^^ (b / 2 ^ i)) % 2
    if x = 1 then (c / 2) ^^^ 0x82F63B78 else c / 2) c

/-- CRC-32C with an initial value and final inversion of all ones. -/
def crc32cFrom (init : Nat) (bs : Bytes) : Nat :=
  (bs.foldl (fun c b => crc32cByte c b.toNat) init) ^^^ 0xFFFFFFFF

/-- CRC-32C with initial value all ones. -/
def crc32c (bs : Bytes) : Nat := crc32cFrom 0xFFFFFFFF bs

/-- CRC-8 with polynomial 0x07, initial value 0, most significant bit first. -/
def crc8 (bs : Bytes) : Nat :=
  bs.foldl (fun c b =>
    (List.range 8).foldl (fun c _ => if c / 128 % 2 = 1 then (c * 2 % 256) ^^^ 7 else c * 2 % 256)
      (c ^^^ b.toNat)) 0

end Sys2Proof.Machine
end

