-- ==== Sys2Proof/Machine/HifOps.lean ====
section
/-! DEFINITION. Shared operations of the Host Interface: functions and their configuration spaces (R421 to R429),
error logging (R436, R437), writes to host memory, interrupt messages (R430 to R433), request tags and translation
(R438 to R442).
Log entries 12, 15, 80, 83, 84, 143, 174, 178. -/

namespace Sys2Proof.Machine

open Sys2Proof

/-- R417: whether attach point `a` is present. -/
def apPresent (s : State) (a : Nat) : Bool := a < 8 && (a % 2 == 0 || s.flag R.HIF_PORT.SPLIT [a / 2])

/-- R419: the owner attach point. -/
def ownerAp (s : State) : Nat := 2 * s.rd R.HIF_CFG.OWNER []

/-- R421, R422: whether function `f` of attach point `a` exists. -/
def fnPresent (s : State) (a f : Nat) : Bool :=
  apPresent s a && (f < 4 || (f < 8 && bit s.hif.present (a * 8 + f)))

/-- R427: whether the function has the MSI-X capability. -/
def hasMsix (s : State) (a f : Nat) : Bool := (1 ≤ f && f ≤ 3) || (f == 0 && a == ownerAp s)

/-- R424: the BAR sizes of a function, by BAR pair, 0 where absent, and whether prefetchable. -/
def barSize (s : State) (a f pair : Nat) : Nat × Bool :=
  match f, pair with
  | 0, 0 => (if a = ownerAp s then 2 ^ 28 else 0, false)
  | 0, 1 => (if a = ownerAp s then 2 ^ 16 else 0, false)
  | 0, 2 => (if a = ownerAp s then 2 ^ 16 else 0, false)
  | 1, 0 => (2 ^ 26, true)
  | 2, 0 => (2 ^ 26, true)
  | 3, 0 => (2 ^ 14, false)
  | 3, 1 => (2 ^ 28, false)
  | 1, 2 => (2 ^ 16, false)
  | 2, 2 => (2 ^ 16, false)
  | 3, 2 => (2 ^ 16, false)
  | _, _ => (0, false)

/-- The reset value of a configuration doubleword (R421, R423, R427, R428; other fields as PCI Express Base 6.0 gives
for the options of R420). -/
def cfgReset (s : State) (a f dw : Nat) : Nat :=
  match dw with
  | 0 => 0xAC4E + (if f < 4 then 0x7100 + f else 0x71FF) * 2 ^ 16
  | 1 => 2 ^ 20
  | 2 => 0x11 + 2 ^ 8 * (match f with | 0 => 0x088000 | 1 => 0x020000 | 2 => 0x028000 | 3 => 0x010802 | _ => 0xFF0000)
  | 3 => if f = 0 then 0x00800000 else 0
  | 4 => if (barSize s a f 0).1 = 0 then 0 else if (barSize s a f 0).2 then 0xC else 4
  | 6 => if (barSize s a f 1).1 = 0 then 0 else 4
  | 8 => if (barSize s a f 2).1 = 0 then 0 else 4
  | 11 => 0xAC4E + s.rd R.HIF_AP_CFG.SUBSYS_ID [a] * 2 ^ 16
  | 13 => 0x40
  | 16 => 0x01 + (if hasMsix s a f then 0x5000 else 0x6000) + 3 * 2 ^ 16
  | 17 => 8
  | 20 => if hasMsix s a f then 0x11 + 0x6000 + 2047 * 2 ^ 16 else 0
  | 21 => if hasMsix s a f then 4 else 0
  | 22 => if hasMsix s a f then 0x8004 else 0
  | 24 => 0x10 + 2 * 2 ^ 16 + 2 ^ 31
  | 25 => 2 + 2 ^ 5 + 2 ^ 15 + 2 ^ 28
  | 26 => 2 ^ 4 + 2 ^ 11 + 2 * 2 ^ 12
  | 27 => 6 + (if s.flag R.HIF_PORT.SPLIT [a / 2] then 8 else 16) * 2 ^ 4 + 2 * 2 ^ 10 + 5 * 2 ^ 15 + 2 ^ 18 + a * 2 ^ 24
  | 33 => 0xF + 2 ^ 16 + 2 ^ 17 + 2 ^ 20
  | 35 => 0x7E
  | 36 => if f = 0 then 6 else 0
  | 64 => 0x0001 + 2 * 2 ^ 16 + 0x148 * 2 ^ 20
  | 66 => 0x400000
  | 67 => 0x462030
  | 69 => 0xE000
  | 70 => 2 ^ 5 + 2 ^ 7
  | 82 => 0x0003 + 2 ^ 16 + (if 1 ≤ f && f ≤ 3 then 0x158 else if f = 0 then 0x200 else 0) * 2 ^ 20
  | 83 => Config.serial % 2 ^ 32
  | 84 => Config.serial / 2 ^ 32 % 2 ^ 32
  | 86 => if 1 ≤ f && f ≤ 3 then 0x000F + 2 ^ 16 + 0x160 * 2 ^ 20 else 0
  | 87 => if 1 ≤ f && f ≤ 3 then 2 ^ 5 + 2 ^ 6 else 0
  | 88 => if 1 ≤ f && f ≤ 3 then 0x001B + 2 ^ 16 + 0x168 * 2 ^ 20 else 0
  | 89 => if 1 ≤ f && f ≤ 3 then 20 * 2 ^ 8 else 0
  | 90 => if 1 ≤ f && f ≤ 3 then 0x0013 + 2 ^ 16 else 0
  | 91 => if 1 ≤ f && f ≤ 3 then 2 ^ 24 else 0
  | 92 => if 1 ≤ f && f ≤ 3 then 512 else 0
  | 128 => if f = 0 then 0x0019 + 2 ^ 16 + 0x240 * 2 ^ 20 else 0
  | 144 => if f = 0 then 0x0025 + 2 ^ 16 + 0x250 * 2 ^ 20 else 0
  | 148 => if f = 0 then 0x0026 + 2 ^ 16 + 0x290 * 2 ^ 20 else 0
  | 164 => if f = 0 then 0x002A + 2 ^ 16 + 0x2D0 * 2 ^ 20 else 0
  | 180 => if f = 0 then 0x0031 + 2 ^ 16 + 0x300 * 2 ^ 20 else 0
  | 192 => if f = 0 then 0x0027 + 2 ^ 16 + 0x360 * 2 ^ 20 else 0
  | 216 => if f = 0 then 0x001E + 2 ^ 16 else 0
  | 217 => if f = 0 then 0x1F + 50 * 2 ^ 8 + 1 * 2 ^ 16 + 7 * 2 ^ 19 else 0
  | _ => 0

/-- The bits of a configuration doubleword that a write sets. -/
def cfgRwMask (s : State) (a f dw : Nat) : Nat :=
  match dw with
  | 1 => 0x0546
  | 3 => 0xFF
  | 4 => (2 ^ 32 - (barSize s a f 0).1 % 2 ^ 32) % 2 ^ 32 * b2n ((barSize s a f 0).1 ≠ 0)
  | 5 => 0xFFFFFFFF * b2n ((barSize s a f 0).1 ≠ 0)
  | 6 => (2 ^ 32 - (barSize s a f 1).1 % 2 ^ 32) % 2 ^ 32 * b2n ((barSize s a f 1).1 ≠ 0)
  | 7 => 0xFFFFFFFF * b2n ((barSize s a f 1).1 ≠ 0)
  | 8 => (2 ^ 32 - (barSize s a f 2).1 % 2 ^ 32) % 2 ^ 32 * b2n ((barSize s a f 2).1 ≠ 0)
  | 9 => 0xFFFFFFFF * b2n ((barSize s a f 2).1 ≠ 0)
  | 15 => 0xFF
  | 17 => 3
  | 20 => if hasMsix s a f then 0xC0000000 else 0
  | 26 => 0x7FFF
  | 28 => 0x01C3
  | 34 => if f = 2 then 0x134F else 0x130F
  | 36 => 0xF
  | 66 => 0x03FFF030
  | 67 => 0x03FFF030
  | 69 => 0xF1C1
  | 70 => 0x140
  | 87 => if 1 ≤ f && f ≤ 3 then 0x801F0000 else 0
  | 89 => if 1 ≤ f && f ≤ 3 then 0x00010000 else 0
  | 91 => if 1 ≤ f && f ≤ 3 then 1 else 0
  | 93 => if 1 ≤ f && f ≤ 3 then 0xFFFFFFFF else 0
  | 218 => if f = 0 then 0xE3FFFF0F else 0
  | _ => 0

/-- The bits of a configuration doubleword that a write of 1 clears. -/
def cfgW1cMask (dw : Nat) : Nat :=
  match dw with
  | 1 => 0xF9000000
  | 26 => 0x000F0000
  | 65 => 0x03FFF030
  | 68 => 0xF1C1
  | 91 => 0x00030000
  | _ => 0

/-- R429: the doublewords whose state PCI Express defines as sticky. -/
def cfgSticky (dw : Nat) : Bool := 65 ≤ dw && dw ≤ 81

/-- The doublewords of PF0 that describe its link, cleared by PORT reset only (R429). -/
def cfgLink (f dw : Nat) : Bool := f == 0 && (dw == 28 || dw == 36 || dw == 218)

/-- The index of a doubleword of a function's configuration space. -/
def cfgIx (a f dw : Nat) : Nat := (a * 8 + f) * 1024 + dw

/-- The stored value of a configuration doubleword. -/
def cfgGet (s : State) (a f dw : Nat) : Nat :=
  SMap.get (cfgReset s a f dw) (if cfgSticky dw then s.hif.sticky else s.hif.cfg) (cfgIx a f dw)

/-- A configuration doubleword replaced. -/
def cfgPut (s : State) (a f dw v : Nat) : State :=
  if cfgSticky dw then
    { s with hif := { s.hif with sticky := SMap.set (cfgReset s a f dw) s.hif.sticky (cfgIx a f dw) (v % 2 ^ 32) } }
  else
    { s with hif := { s.hif with cfg := SMap.set (cfgReset s a f dw) s.hif.cfg (cfgIx a f dw) (v % 2 ^ 32) } }

/-- Bits of a configuration doubleword. -/
def cfgBits (s : State) (a f dw lo w : Nat) : Nat := bits (cfgGet s a f dw) lo w

def memEn (s : State) (a f : Nat) : Bool := bit (cfgGet s a f 1) 1
def busEn (s : State) (a f : Nat) : Bool := bit (cfgGet s a f 1) 2
def msixEn (s : State) (a f : Nat) : Bool := bit (cfgGet s a f 20) 31
def msixFnMask (s : State) (a f : Nat) : Bool := bit (cfgGet s a f 20) 30
def atsEn (s : State) (a f : Nat) : Bool := bit (cfgGet s a f 87) 31
def priEn (s : State) (a f : Nat) : Bool := bit (cfgGet s a f 91) 0
def relaxEn (s : State) (a f : Nat) : Bool := bit (cfgGet s a f 26) 4
def quiesced (s : State) (a f : Nat) : Bool := s.flag R.HIF_FN_STATUS.QUIESCED [a, f]
def inD3 (s : State) (a f : Nat) : Bool := s.flag R.HIF_FN_STATUS.D3HOT [a, f]

/-- R444 to R447: whether the function may issue a new request. -/
def fnLive (s : State) (a f : Nat) : Bool :=
  busEn s a f && !quiesced s a f && !inD3 s a f && s.rd R.HIF_FN_STATUS.REASON [a, f] == 0

/-- R440: the timeout a Completion Timeout Value selects, in ms × 10. -/
def cplTimeout (v : Nat) : Nat :=
  match v with
  | 1 => 1 | 2 => 100 | 5 => 500 | 6 => 2000 | 9 => 9000 | 10 => 35000 | 13 => 130000 | 14 => 640000
  | _ => 500

/-- R440: the timeout of a read that a function sends now, in 0.1 ns. -/
def readTmo (s : State) (a f : Nat) : Nat := cplTimeout (cfgBits s a f 34 0 4) * 1000000

/-- Whether the First Error Pointer names a status bit that is still set (R437). -/
def fepValid (s : State) (a f : Nat) : Bool :=
  cfgBits s a f 65 0 26 ≠ 0 && bit (cfgGet s a f 65) (cfgBits s a f 70 0 5)

/-- R448, R650: HOST_CLKREQ_N of an attach point in link power state `l`: released in L1.1 and L1.2, else driven low. -/
def clkreqShow (s : State) (a l : Nat) : State :=
  s.emit (if l ≥ 2 then .pinZ (.hostClkreqN a) else .pin (.hostClkreqN a) false)

/-- R448, R650: a TLP crosses the link of an attach point, which is in L0 for it: HOST_CLKREQ_N is low again where L1.1 or L1.2 had
released it. -/
def linkActive (s : State) (a : Nat) : State :=
  match s.rd R.HIF_AP_LINK.LPM [a] with
  | 0 => s
  | l => let s := s.wr R.HIF_AP_LINK.LPM [a] 0
         if l ≥ 2 then clkreqShow s a 0 else s

/-- The function that a TLP comes from, and whether it is a completion. -/
def tlpFn (e : Emit) : Option (Nat × Bool) :=
  match e with
  | .hostWrite _ f _ _ _ _ _ => some (f, false)
  | .hostAtomic _ f _ _ _ _ _ => some (f, false)
  | .hostRead _ f _ _ _ _ => some (f, false)
  | .intr _ f _ _ => some (f, false)
  | .transReq _ f _ _ => some (f, false)
  | .pageReq _ f _ _ _ => some (f, false)
  | .invCpl _ f _ => some (f, false)
  | .errMsg _ f _ => some (f, false)
  | .cpl _ f _ _ => some (f, true)
  | _ => none

/-- R433: a request carries ID-Based Ordering where IDO Request Enable of its function is 1, a completion where IDO Completion
Enable is 1. -/
def withIdo (s : State) (a : Nat) (e : Emit) : Emit :=
  match tlpFn e with
  | some (f, c) => if bit (cfgGet s a f 34) (if c then 9 else 8) then .ido e else e
  | none => e

/-- A TLP sent on the link of an attach point. -/
def sendTlp (s : State) (a : Nat) (e : Emit) : State := (linkActive s a).emit (withIdo s a e)

/-- R436: a correctable error logged in a function. -/
def logCor (s : State) (a f ebit : Nat) : State :=
  let s1 := cfgPut s a f 68 (setBit (cfgGet s a f 68) ebit true)
  let s2 := cfgPut s1 a f 26 (setBit (cfgGet s1 a f 26) 16 true)
  if !bit (cfgGet s2 a f 69) ebit && bit (cfgGet s2 a f 26) 0 then sendTlp s2 a (.errMsg a f 0) else s2

/-- R437: the header log takes the header of the first unmasked uncorrectable error; a later one while the pointer is
valid sets Header Log Overflow. In FLIT mode the TLP Prefix Log takes the OHC words. No command carries the header of its TLP, so
the words logged are free. -/
def logHeader (s : State) (a f ebit : Nat) (first : Bool) : State :=
  if first then
    let (h, s) := s.freeBits 128
    let s := cfgPut s a f 70 (setBits (cfgGet s a f 70) 0 5 ebit)
    let s := cfgPut s a f 71 (bits h 96 32)
    let s := cfgPut s a f 72 (bits h 64 32)
    let s := cfgPut s a f 73 (bits h 32 32)
    let s := cfgPut s a f 74 (bits h 0 32)
    if s.flag R.HIF_AP_LINK.FLIT [a] then
      let (p, s) := s.freeBits 128
      cfgPut (cfgPut (cfgPut (cfgPut s a f 78 (bits p 96 32)) a f 79 (bits p 64 32)) a f 80 (bits p 32 32)) a f 81 (bits p 0 32)
    else s
  else logCor s a f 15

/-- R436, R437: uncorrectable error `ebit` of AER logged in a function. `advisory` errors of non-fatal severity are
logged as Advisory Non-Fatal. -/
def logUncor (s : State) (a f ebit : Nat) (advisory : Bool) : State :=
  let masked := bit (cfgGet s a f 66) ebit
  let fatal := bit (cfgGet s a f 67) ebit
  let first := !fepValid s a f
  let s1 := cfgPut s a f 65 (setBit (cfgGet s a f 65) ebit true)
  if fatal then
    let s2 := cfgPut s1 a f 26 (setBit (cfgGet s1 a f 26) 18 true)
    if masked then s2
    else
      let s3 := logHeader s2 a f ebit first
      if bit (cfgGet s3 a f 26) 2 then sendTlp s3 a (.errMsg a f 2) else s3
  else if advisory then
    let s2 := cfgPut s1 a f 68 (setBit (cfgGet s1 a f 68) 13 true)
    let s3 := cfgPut s2 a f 26 (setBit (cfgGet s2 a f 26) 16 true)
    if masked then s3
    else
      let s4 := logHeader s3 a f ebit first
      if !bit (cfgGet s4 a f 69) 13 && bit (cfgGet s4 a f 26) 0 then sendTlp s4 a (.errMsg a f 0) else s4
  else
    let s2 := cfgPut s1 a f 26 (setBit (cfgGet s1 a f 26) 17 true)
    if masked then s2
    else
      let s3 := logHeader s2 a f ebit first
      if bit (cfgGet s3 a f 26) 1 then sendTlp s3 a (.errMsg a f 1) else s3

/-- AER status bits of the errors R436 names. -/
def aerPoisoned : Nat := 12
def aerTimeout : Nat := 14
def aerAbort : Nat := 15
def aerUnexpected : Nat := 16
def aerEcrc : Nat := 19
def aerUr : Nat := 20
def aerInternal : Nat := 22

/-- A posted write toward a host: sent, or held while the attach point has no posted credit (R435). -/
def sendPosted (s : State) (a : Nat) (e : Emit) (src : Option MsgSrc) : State :=
  match SMap.find? s.hif.credit a with
  | none => sendTlp s a e
  | some 0 => { s with hif := { s.hif with stalled := s.hif.stalled ++ [{ ap := a, out := e, src := src }] } }
  | some (n + 1) => sendTlp { s with hif := { s.hif with credit := SMap.ins s.hif.credit a n } } a e

/-- A write to host memory by a function, for an instance where one is given (R433, R443, R444): dropped and counted while the
function issues no new request. -/
def hostWrite (s : State) (a f addr : Nat) (data : Bytes) (isData ep : Bool) (pasid inst : Option Nat) : State :=
  if !busEn s a f || quiesced s a f then s.inc R.HIF_CNT.COUNT [a, 11]
  else
    let s := s.inc R.HIF_CNT.COUNT [a, 1]
    let s := s.add R.HIF_CNT.COUNT [a, 3] data.length
    let s := if ep then s.inc R.HIF_CNT.COUNT [a, 4] else s
    sendPosted s a (.hostWrite a f addr data (isData && relaxEn s a f) ep pasid) (inst.map .inst)

/-- R432: why a message of a function is held: MSI-X disabled or masked, no bus mastering, quiesced, D3hot. -/
def msgBlocked (s : State) (a f : Nat) : Bool :=
  !msixEn s a f || msixFnMask s a f || !busEn s a f || quiesced s a f || inD3 s a f

/-- The index of a function's MSI-X vector. -/
def msixIx (a f v : Nat) : Nat := (a * 8 + f) * 2048 + v

/-- An MSI-X entry replaced. -/
def msixPut (s : State) (i : Nat) (e : Msix) : State :=
  { s with hif := { s.hif with msix := SMap.set Msix.reset s.hif.msix i e } }

/-- A store entry replaced. -/
def irqPut (s : State) (i : Nat) (e : IrqEnt) : State :=
  { s with hif := { s.hif with irq := SMap.set IrqEnt.none s.hif.irq i e } }

/-- R430: vector `v` of a function's own MSI-X table fires. -/
def fireMsix (s : State) (a f v : Nat) : State :=
  if !hasMsix s a f || v ≥ 2048 then s
  else
    let e := SMap.get Msix.reset s.hif.msix (msixIx a f v)
    if e.mask || msgBlocked s a f then
      msixPut s (msixIx a f v) { e with pend := true }
    else sendPosted s a (.intr a f e.addr e.data) (some (.vector (msixIx a f v)))

/-- R430: a vector of the owner PF0 fires. -/
def fireOwner (s : State) (v : Nat) : State := fireMsix s (ownerAp s) 0 v

/-- Whether an instance is bound to the function that a store entry names (R432). -/
def irqBound (s : State) (e : IrqEnt) : Bool :=
  s.rd R.DOM_INST_W0.STATE [e.inst] ≠ 0 && s.rd R.DOM_INST_W0.AP [e.inst] == e.ap
    && s.rd R.DOM_INST_W0.CLASS [e.inst] == e.func

/-- R432: an event fires entry `i` of the interrupt message store. -/
def fireIrq (s : State) (i : Nat) : State :=
  let e := SMap.get IrqEnt.none s.hif.irq i
  if !e.valid || !irqBound s e then s.inc R.HIF_CNT.COUNT [e.ap, 16]
  else if e.pend then s
  else if e.mask || msgBlocked s e.ap e.func then
    irqPut s i { e with pend := true }
  else (sendPosted s e.ap (.intr e.ap e.func e.addr e.data) (some (.store i))).inc R.HIF_CNT.COUNT [e.ap, 15]

/-- R432: one message for a PENDING store entry once nothing holds it. -/
def releaseIrq (s : State) (i : Nat) : State :=
  let e := SMap.get IrqEnt.none s.hif.irq i
  if !e.valid || !e.pend || e.mask || !irqBound s e || msgBlocked s e.ap e.func then s
  else
    let s := irqPut s i { e with pend := false }
    (sendPosted s e.ap (.intr e.ap e.func e.addr e.data) (some (.store i))).inc R.HIF_CNT.COUNT [e.ap, 15]

/-- The same for a pending MSI-X vector of a function. -/
def releaseMsix (s : State) (a f v : Nat) : State :=
  let e := SMap.get Msix.reset s.hif.msix (msixIx a f v)
  if !e.pend || e.mask || !hasMsix s a f || msgBlocked s a f then s
  else
    let s := msixPut s (msixIx a f v) { e with pend := false }
    sendPosted s a (.intr a f e.addr e.data) (some (.vector (msixIx a f v)))

/-- R450: MSI-X Enable of a function cleared: its messages that wait for credits are held as PENDING. -/
def holdMsgs (s : State) (a f : Nat) : State :=
  let mine (e : Stalled) : Bool := e.ap == a && (match e.out with | .intr _ g _ _ => g == f | _ => false)
  let l := s.hif.stalled.filter mine
  let s := { s with hif := { s.hif with stalled := s.hif.stalled.filter (fun e => !mine e) } }
  l.foldl (fun s e => match e.src with
    | some (.store i) => irqPut s i { SMap.get IrqEnt.none s.hif.irq i with pend := true }
    | some (.vector i) => msixPut s i { SMap.get Msix.reset s.hif.msix i with pend := true }
    | _ => s) s

/-- R438: the PASID that requests of an instance carry. -/
def instPasid (s : State) (i : Nat) : Option Nat :=
  if s.flag R.DOM_INST_W1.PASID_EN [i] then some (s.rd R.DOM_INST_W1.PASID [i]) else none

/-- R452: the tag counts of an attach point and the orphan count of each function brought up to date. -/
def syncTags (s : State) (a : Nat) : State :=
  let ts := s.hif.tags.filter (fun t => t.ap == a)
  let s := s.wr R.HIF_AP_TAGS.TAGS_OUT [a] (ts.filter (fun t => t.st == .outstanding || t.st == .orphaned)).length
  let s := s.wr R.HIF_AP_TAGS.TAGS_QUAR [a] (ts.filter (fun t => t.st == .quarantined || t.st == .orphanQuar)).length
  (List.range 8).foldl (fun s f =>
    s.wr R.HIF_FN_ORPH.ORPHANS [a, f] (ts.filter (fun t => t.fn == f && t.st == .orphaned)).length) s

/-- R435: a completion returned to a host: sent, or held while the attach point has no completion credit. -/
def sendCpl (s : State) (a : Nat) (e : Emit) : State :=
  match SMap.find? s.hif.cplCredit a with
  | none => sendTlp s a e
  | some 0 => { s with hif := { s.hif with cplStalled := s.hif.cplStalled ++ [(a, e)] } }
  | some (n + 1) => sendTlp { s with hif := { s.hif with cplCredit := SMap.ins s.hif.cplCredit a n } } a e

/-- R57, R435: `n` read requests take their non-posted credits. -/
def takeNp (s : State) (a n : Nat) : State :=
  match SMap.find? s.hif.npCredit a with
  | none => s
  | some c => { s with hif := { s.hif with npCredit := SMap.ins s.hif.npCredit a (c - n) } }

/-- R435, R438: the first tag value a function may use that is free at its attach point, while that has a non-posted credit. -/
def freeTag? (s : State) (a f : Nat) : Option Nat :=
  if SMap.find? s.hif.npCredit a = some 0 then none else
  let base := if bit (cfgGet s a f 34) 12 then 256 else 0
  let n := if bit (cfgGet s a f 34) 12 then 768 else 256
  ((List.range n).find? (fun i => !s.hif.tags.any (fun t => t.ap == a && t.tag == base + i))).map (base + ·)

/-- R438, R441: a read request sent with a free tag; unchanged when no tag is free (the request waits). -/
def sendRead (s : State) (a f : Nat) (inst : Option Nat) (req : Req) (addr len : Nat) (pasid : Option Nat)
    (page : Option (Option Nat × Nat)) : State :=
  match freeTag? s a f with
  | none => s
  | some t =>
    let tg : Tag := { ap := a, tag := t, fn := f, inst := inst, req := req, len := len, page := page, st := .outstanding,
                      tmo := readTmo s a f, due := s.now + readTmo s a f }
    let s := takeNp { s with hif := { s.hif with tags := s.hif.tags ++ [tg] } } a 1
    let s := s.inc R.HIF_CNT.COUNT [a, 0]
    sendTlp (syncTags s a) a (.hostRead a f t addr len pasid)

/-- R439: the cache entry that translates an address for a function and PASID. -/
def atcFind? (s : State) (a f : Nat) (pasid : Option Nat) (addr : Nat) : Option Atc :=
  s.hif.atc.find? (fun e => e.ap == a && e.fn == f && e.pasid == pasid && e.page == addr / 4096)

/-- R439: an entry moved to the front of its cache (most recently used). -/
def atcTouch (s : State) (e : Atc) : State :=
  { s with hif := { s.hif with atc := e :: s.hif.atc.filter (fun x => x ≠ e) } }

/-- R439: an entry put into the cache; the least recently used of the attach point's 8,192 leaves. -/
def atcInsert (s : State) (e : Atc) : State :=
  let others := s.hif.atc.filter (fun x => x.ap ≠ e.ap)
  let mine := e :: (s.hif.atc.filter (fun x => x.ap == e.ap && !(x.fn == e.fn && x.pasid == e.pasid && x.page == e.page)))
  let mine := mine.take 8192
  ({ s with hif := { s.hif with atc := mine ++ others } }).wr R.HIF_AP_ATC.ATC_USED [e.ap] mine.length

/-! ## Reads and writes that a command carries out at once (R26, R56, R438, R439) -/

/-- R438: a read cut at Max_Read_Request_Size and at every 4 KiB boundary. -/
def cutRead (size fuel addr len : Nat) : List (Nat × Nat) :=
  match fuel with
  | 0 => []
  | k + 1 =>
    if len = 0 then []
    else
      let n := min len (min size (4096 - addr % 4096))
      (addr, n) :: cutRead size k (addr + n) (len - n)

/-- Max_Read_Request_Size of a function, in bytes. -/
def readSize (s : State) (a f : Nat) : Nat := min 4096 (128 * 2 ^ cfgBits s a f 26 12 3)

/-- The 4 KiB pages of some areas of host memory: address and length. -/
def pagesOf (l : List (Nat × Nat)) : List Nat := l.flatMap (fun x => (cutRead 4096 (x.2 / 4096 + 2) x.1 x.2).map (fun y => y.1 / 4096))

/-- R439: whether the cache translates a page for a write or a read. -/
def pageKnown (s : State) (a f : Nat) (pasid : Option Nat) (w : Bool) (p : Nat) : Bool :=
  s.hif.atc.any (fun e => e.ap == a && e.fn == f && e.pasid == pasid && e.page == p && (if w then e.w else e.r))

/-- R439: a Translation Request for a page that a command waits for, unless one is on its way. -/
def askPage (s : State) (a f : Nat) (inst pasid : Option Nat) (w : Bool) (p : Nat) : State :=
  if s.hif.held.any (fun h => h.ap == a && h.fn == f && h.pasid == pasid && h.addr == p * 4096 && h.req == .page w) then s
  else
    let h : Held := { ap := a, fn := f, inst := inst, pasid := pasid, addr := p * 4096, len := 0, req := .page w,
                      st := .translating, stale := false }
    let s := { s with hif := { s.hif with held := s.hif.held ++ [h] } }
    sendTlp (s.inc R.HIF_CNT.COUNT [a, 17]) a (.transReq a f p pasid)

/-- R56, R439: whether a function may access some areas of host memory now; where a page is not translated, its translation is
asked for, and the work waits. -/
def reach (s : State) (a f : Nat) (inst pasid : Option Nat) (w : Bool) (l : List (Nat × Nat)) : Bool × State :=
  if !atsEn s a f then (true, s)
  else
    match (pagesOf l).find? (fun p => !pageKnown s a f pasid w p) with
    | none => (true, s)
    | some p => (false, askPage s a f inst pasid w p)

/-- R439: the address that a request to `addr` carries. -/
def reqAddr (s : State) (a f : Nat) (pasid : Option Nat) (addr : Nat) : Nat :=
  if !atsEn s a f then addr
  else
    match atcFind? s a f pasid addr with
    | some e => e.target * 4096 + addr % 4096
    | none => addr

/-- R439: the translations that a command used become the most recent. -/
def atcUsed (s : State) (a f : Nat) (pasid : Option Nat) (l : List (Nat × Nat)) : State :=
  if !atsEn s a f then s
  else (pagesOf l).foldl (fun s p => match atcFind? s a f pasid (p * 4096) with
    | some e => atcTouch s e
    | none => s) s

/-- R436, R442: what the outcome of a read counts and logs in its function. -/
def readOutcome (s : State) (a f n : Nat) (x : RdRes) : State :=
  match x with
  | .ok _ => s.add R.HIF_CNT.COUNT [a, 2] n
  | .poison _ => logUncor ((s.add R.HIF_CNT.COUNT [a, 2] n).inc R.HIF_CNT.COUNT [a, 5]) a f aerPoisoned true
  | .ur => logUncor (s.inc R.HIF_CNT.COUNT [a, 6]) a f aerUr true
  | .ca => logUncor (s.inc R.HIF_CNT.COUNT [a, 6]) a f aerAbort true
  | .timeout => logUncor (s.inc R.HIF_CNT.COUNT [a, 7]) a f aerTimeout true
  | .xlate => s

/-- R26, R438, R441: the requests of a read of host memory that `x` answers; a request that times out leaves its tag
quarantined. -/
def hostTake (s : State) (a f : Nat) (inst pasid : Option Nat) (l : List (Nat × Nat)) (x : RdRes) : State :=
  let n := l.foldl (fun n y => n + y.2) 0
  if n = 0 || x = .xlate then s
  else
    let t := (freeTag? s a f).getD 0
    let parts := l.flatMap (fun y => cutRead (readSize s a f) (y.2 / 128 + 2) y.1 y.2)
    let s := takeNp (atcUsed s a f pasid l) a parts.length
    let s := parts.foldl (fun s p => sendTlp (s.inc R.HIF_CNT.COUNT [a, 0]) a (.hostRead a f t (reqAddr s a f pasid p.1) p.2 pasid)) s
    let s := if x = .timeout then
        let g : Tag := { ap := a, tag := t, fn := f, inst := inst, req := .other, len := n, page := none, st := .quarantined,
                         tmo := readTmo s a f, due := s.now + 3 * readTmo s a f }
        syncTags { s with hif := { s.hif with tags := s.hif.tags ++ [g] } } a
      else s
    readOutcome s a f n x

/-- R26, R438, R439: a read of host memory that a command carries out, and what it brought: false where it cannot be sent yet,
and its work waits. -/
def hostFetch (s : State) (a f : Nat) (inst pasid : Option Nat) (l : List (Nat × Nat)) (x : RdRes) : Bool × State :=
  if l.all (fun y => y.2 == 0) || x = .xlate then (true, s)
  else if !fnLive s a f || (freeTag? s a f).isNone then (false, s)
  else
    match reach s a f inst pasid false l with
    | (false, s) => (false, s)
    | (true, s) => (true, hostTake s a f inst pasid l x)

/-- R56, R438: a write of a function whose pages are translated, one request for each page. -/
def fnWrite (s : State) (a f : Nat) (inst pasid : Option Nat) (addr : Nat) (data : Bytes) (isData ep : Bool) : State :=
  if !atsEn s a f then hostWrite s a f addr data isData ep pasid inst
  else
    (cutRead 4096 (data.length / 4096 + 2) addr data.length).foldl (fun s p =>
      hostWrite s a f (reqAddr s a f pasid p.1) (slice data (p.1 - addr) p.2) isData ep pasid inst)
      (atcUsed s a f pasid [(addr, data.length)])

end Sys2Proof.Machine
end

