-- ==== Sys2Proof/Machine/RevOps.lean ====
section
/-! DEFINITION. The Reeve's records: the fault log, PLDM events, failure counting, permanence and the retirement bitmaps
(R592 to R598, R605). What a retirement does to its block is in Retire.
Log entries 120, 124, 127, 131, 132, 164. -/

namespace Sys2Proof.Machine

open Sys2Proof

/-- Fault-log KIND codes (R605). -/
def lkFailure : Nat := 1
def lkRetire : Nat := 2
def lkThermal : Nat := 3
def lkVoltage : Nat := 4
def lkPower : Nat := 5

/-- R605: one entry of the fault log; R607: the PF0 vector on an entry of KIND 2, 3 or 4 when VEC_EN is 1. -/
def logEntry (s : State) (kind cls unit detail : Nat) : State :=
  let h := s.rd R.REV_LOG_HEAD.HEAD []
  let s := s.wr R.REV_LOG.ENTRY [h, 0] (kind % 256 + cls % 256 * 2 ^ 8 + unit % 65536 * 2 ^ 16)
  let s := s.wr R.REV_LOG.ENTRY [h, 1] s.uptime
  let s := s.wr R.REV_LOG.ENTRY [h, 2] detail
  let s := s.wr R.REV_LOG.ENTRY [h, 3] s.rev.logSeq
  let s := s.wr R.REV_LOG_HEAD.HEAD [] (h + 1)
  let s := { s with rev := { s.rev with logSeq := s.rev.logSeq + 1 } }
  if s.flag R.REV_CFG.VEC_EN [] && (kind == lkRetire || kind == lkThermal || kind == lkVoltage) then
    fireOwner s (s.rd R.REV_CFG.VEC [])
  else s

/-- The sensor numbers of the PDR repository (R598): temperatures 1 to 64, composite 65, voltages 66 to 113, power estimate
114, power state 115, TSTATE 116, fault state 117. The manual gives no numbers. -/
def pdrTemp (i : Nat) : Nat := 1 + i
def pdrVolt (m : Nat) : Nat := 66 + m
def pdrPower : Nat := 114
def pdrPwrState : Nat := 115
def pdrTstate : Nat := 116
def pdrFault : Nat := 117

/-- R598: a PlatformEventMessage (PLDM Type 2, command 0x0A, format version 1, event class 0: a sensor event) to the
registered receiver. -/
def pldmEvent (s : State) (data : Bytes) : State :=
  match s.rev.evRecv with
  | none => s
  | some _ => s.emit (.mctp ([0x01, 0x80, 0x02, 0x0A, 0x01, 0x00, 0x00] ++ data))

/-- The event of a state sensor: its new and its previous state. -/
def stateEvent (s : State) (id new old : Nat) : State := pldmEvent s (leBytes 2 id ++ [1, 0, byteOf new, byteOf old])

/-- The event of a numeric sensor, with its 16-bit reading. -/
def numEvent (s : State) (id new old reading : Nat) : State :=
  pldmEvent s (leBytes 2 id ++ [2, byteOf new, byteOf old, 2] ++ leBytes 2 reading)

/-- R598: the value of the fault-state sensor. -/
def faultState (s : State) : Nat := if s.rev.unitRetired then 2 else if s.rev.failLogged then 1 else 0

/-- WINDOW_MS of a class in ms (R608: 0 acts as 1). -/
def windowMs (s : State) (k : Nat) : Nat := max 1 (s.rd R.REV_CLASS_W0.WINDOW_MS [k])

/-- R592: the failures of a unit that lie within the last WINDOW_MS of its class. -/
def failsInWindow (s : State) (k u : Nat) : Nat :=
  (s.rev.fails.filter (fun f => f.cls == k && f.unit == u && f.ms + windowMs s k ≥ s.nowMs)).length

/-- R106, R592: the value of a FAIL_COUNT field: the failures that permanence counts, since WARM cleared the field. -/
def failCount (s : State) (k u : Nat) : Nat :=
  min 3 (s.rev.fails.filter (fun f => f.shown && f.cls == k && f.unit == u && f.ms + windowMs s k ≥ s.nowMs)).length

/-- The cycle of CLK_CTL, which is CLK_CORE ÷ 4 (R33, R592). -/
def ctlCycle (s : State) : Nat := s.now / (4 * coreLen)

/-- R592: whether a failure of the unit was reported in this cycle of CLK_CTL. -/
def failedNow (s : State) (k u : Nat) : Bool := s.rev.fails.any (fun f => f.cls == k && f.unit == u && f.cycle == ctlCycle s + 1)

/-- R596: whether the MRAM record of a unit of class `k` marks it retired. -/
def isRetired (s : State) (k u : Nat) : Bool :=
  match k with
  | 1 => s.flag R.ETH_LANE_STATUS.RETIRED [u / 8, u % 8]
  | 2 => bit (s.rd R.REV_HBM_W0.PC_RETIRED [u / 32]) (u % 32)
  | 3 => bit (s.rd R.HSK_CLU_RETIRED.RETIRED [u / 128, u % 128 / 32]) (u % 32)
  | 4 => (List.range 4).all (fun w => s.rd R.HSK_CLU_RETIRED.RETIRED [u, w] == 2 ^ 32 - 1)
  | 5 => s.flag R.FIL_CORE_STATUS.RETIRED [u]
  | 6 => s.flag R.STG_RP_STATUS.RETIRED [u]
  | 10 => s.rev.drbgDead
  | _ => false

/-- R596: the MRAM record of a unit set or cleared. -/
def markRetired (s : State) (k u : Nat) (b : Bool) : State :=
  match k with
  | 1 => s.wr R.ETH_LANE_STATUS.RETIRED [u / 8, u % 8] (b2n b)
  | 2 => s.wr R.REV_HBM_W0.PC_RETIRED [u / 32] (setBit (s.rd R.REV_HBM_W0.PC_RETIRED [u / 32]) (u % 32) b)
  | 3 => s.wr R.HSK_CLU_RETIRED.RETIRED [u / 128, u % 128 / 32]
           (setBit (s.rd R.HSK_CLU_RETIRED.RETIRED [u / 128, u % 128 / 32]) (u % 32) b)
  | 4 => (List.range 4).foldl (fun s w => s.wr R.HSK_CLU_RETIRED.RETIRED [u, w] (if b then 2 ^ 32 - 1 else 0)) s
  | 5 => s.wr R.FIL_CORE_STATUS.RETIRED [u] (b2n b)
  | 6 => s.wr R.STG_RP_STATUS.RETIRED [u] (b2n b)
  | 10 => { s with rev := { s.rev with drbgDead := b } }
  | _ => s

/-- R594: one row of pseudo-channel `u` spared, where a spare is left: the lines of the spare row carry the poison
mark. The second part says whether a spare was left. -/
def spareRow (s : State) (u row : Nat) (lines : List Nat) : State × Bool :=
  let used := SMap.get 0 s.rev.sparesPc u
  if used ≥ Config.spareRows u then (s, false)
  else
    let s := { s with rev := { s.rev with sparesPc := SMap.set 0 s.rev.sparesPc u (used + 1),
                                          rowsSoft := s.rev.rowsSoft ++ [(u, row)] } }
    let s := { s with fil := { s.fil with poison := lines.foldl (fun m l => SMap.set false m l true) s.fil.poison } }
    let s := s.satAdd R.REV_HBM_W1.SPARES_USED [u / 32] 1
    (s.inc R.REV_CNT.COUNT [2], true)

/-- R593, R596, R598: a permanent unit is recorded in MRAM, logged and reported. -/
def recordRetire (s : State) (k u detail : Nat) : State :=
  let s := markRetired s k u true
  let s := s.inc R.REV_CNT.COUNT [1]
  let s := logEntry s lkRetire k u detail
  let old := faultState s
  stateEvent { s with rev := { s.rev with unitRetired := true } } pdrFault 2 old

/-- R592 to R594: a failure of unit `u` of class `k` is logged, counted and judged, once in a cycle of CLK_CTL. `row` is the HBM row of class 2 and
`lines` its 64-byte lines. The second part says whether the unit is retired by it. -/
def countFailure (s : State) (k u row : Nat) (lines : List Nat) : State × Bool :=
  if isRetired s k u then (s.inc R.REV_CNT.COUNT [7], false)
  else if failedNow s k u then (s, false)
  else
    let s := s.inc R.REV_CNT.COUNT [0]
    let s := s.satAdd R.REV_CLASS_W1.FAILS [k] 1
    let s := logEntry s lkFailure k u (if k = 2 then row else 0)
    let s := { s with rev := { s.rev with failLogged := true,
                                          fails := s.rev.fails ++ [{ cls := k, unit := u, ms := s.nowMs, shown := true,
                                                                     cycle := ctlCycle s + 1 }] } }
    let (s, spared) := if k = 2 then spareRow s u row lines else (s, true)
    let cm := s.rd R.REV_CLASS_W0.COUNT_MAX [k]
    let permanent := (cm ≠ 0 && failsInWindow s k u ≥ cm) || !spared
    if permanent && s.flag R.REV_CLASS_W0.RETIRE_EN [k] then
      (recordRetire s k u (if k = 2 then row else 0), true)
    else (s, false)

/-- R592 to R595: an uncorrectable error of the HBM byte at model address `a` is a failure of its pseudo-channel, and what its
retirement does. -/
def hbmFail (s : State) (a : Nat) : State :=
  let q := a / 2 ^ 36
  let n := a % 2 ^ 36 / 64
  let u := 32 * q + Config.lineChannel n % 32
  let row := Config.lineRow n
  match countFailure s 2 u row (a / 64 :: Config.rowLines u row) with
  | (s, false) => s
  | (s, true) => s.wr R.REV_HBM_W2.UNMAPPED [q] (setBit (s.rd R.REV_HBM_W2.UNMAPPED [q]) (u % 32) true)

end Sys2Proof.Machine
end

