-- ==== Sys2Proof/Machine/RingOps.lean ====
section
/-! DEFINITION. Shared operations of Jolis rings: names and indices, descriptors in order, completions and moderation
(R466 to R475, R483, R484).
Log entries 91, 174, 182. -/

namespace Sys2Proof.Machine

open Sys2Proof

/-- Device-wide status codes that the rings use (R463, R327). -/
def stSuccess : Nat := 0x00
def stMalformed : Nat := 0x01
def stRingFault : Nat := 0x47

/-- Ring STATE codes of R490. -/
def rsRunning : Nat := 1
def rsHeld : Nat := 2
def rsQuiesced : Nat := 3
def rsError : Nat := 4
def rsResetting : Nat := 5

def ringSt (s : State) (r : Nat) : Nat := s.rd R.DOM_RING_W0.STATE [r]
def ringType (s : State) (r : Nat) : Nat := s.rd R.DOM_RING_W0.TYPE [r]
def ringOwner (s : State) (r : Nat) : Bool := s.flag R.DOM_RING_W0.OWNER [r]
def ringInst (s : State) (r : Nat) : Nat := s.rd R.DOM_RING_W0.INSTANCE [r]
def ringSize (s : State) (r : Nat) : Nat := 2 ^ s.rd R.DOM_RING_W0.SIZE_LOG2 [r]

/-- The parameters of a ring that nothing has created. -/
def Ring.none : Ring :=
  { descAddr := 0, cplAddr := 0, vector := 0xFFFF, modCnt := 0, autoArm := false, modUsec := 0, profile := 0, tc := 0,
    queue := 0, pend := 0, timerOn := false, timerDone := false, timerAt := 0, asked := [], fetched := [], busy := Option.none, bufs := [], faultDue := Option.none,
    cplWait := [], change := Option.none, discard := false }

def ringGet (s : State) (r : Nat) : Ring := SMap.get Ring.none s.dom.rings r

def ringPut (s : State) (r : Nat) (x : Ring) : State :=
  { s with dom := { s.dom with rings := SMap.ins s.dom.rings r x } }

/-- The function that carries a ring's requests (R457, R480). -/
def ringFn (s : State) (r : Nat) : Nat × Nat :=
  if ringOwner s r then (ownerAp s, 0)
  else (s.rd R.DOM_INST_W0.AP [ringInst s r], s.rd R.DOM_INST_W0.CLASS [ringInst s r])

/-- The PASID of a ring's requests (R438, R467). -/
def ringPasid (s : State) (r : Nat) : Option Nat :=
  if ringOwner s r then none else instPasid s (ringInst s r)

/-- The domain of a ring: its instance's, or 0 for an owner ring (R480). -/
def ringDomain (s : State) (r : Nat) : Nat :=
  if ringOwner s r then 0 else s.rd R.DOM_INST_W0.DOMAIN [ringInst s r]

/-- Distance between two indices modulo 65,536. -/
def ixDist (a b : Nat) : Nat := (a + 65536 - b % 65536) % 65536

/-- R471: whether a ring has no room for a completion. -/
def ringFull (s : State) (r : Nat) : Bool :=
  ixDist (s.rd R.DOM_RING_W2.CPL_PI [r]) (s.rd R.DOM_RING_W3.CPL_CI [r]) == ringSize s r - 1

/-- A counter of a ring's instance (R491); owner rings have none. -/
def ringCount (s : State) (r n : Nat) : State :=
  if ringOwner s r then s else s.inc R.DOM_INST_CNT.COUNT [ringInst s r, n]

/-- R483: the vector of a ring fires. -/
def ringFire (s : State) (r : Nat) : State :=
  let v := (ringGet s r).vector
  if v = 0xFFFF then s
  else if ringOwner s r then fireOwner s v
  else ringCount (fireIrq s (s.rd R.DOM_INST_W2.IRQ_BASE [ringInst s r] + v)) r 7

/-- R484: firing: PEND to 0, timer stopped, ARMED cleared unless AUTO_ARM is 1, the vector fired. -/
def ringSend (s : State) (r : Nat) : State :=
  let x := ringGet s r
  let s := ringPut s r { x with pend := 0, timerOn := false, timerDone := false, timerAt := 0 }
  let s := if x.autoArm then s else s.wr R.DOM_RING_W1.ARMED [r] 0
  ringFire s r

/-- R484: whether an armed ring fires: PEND has reached MOD_CNT, or at least one completion waits and the timer is done. -/
def ringDue (s : State) (r : Nat) : Bool :=
  let x := ringGet s r
  s.flag R.DOM_RING_W1.ARMED [r] && x.pend ≠ 0 && (x.pend ≥ max x.modCnt 1 || x.modUsec == 0 || x.timerDone
    || (x.timerOn && decide (x.timerAt + x.modUsec * 10000 ≤ s.now)))

/-- R484: the ring evaluates its moderation. -/
def ringEval (s : State) (r : Nat) : State := if ringDue s r then ringSend s r else s

/-- R433: whether a write of a function is held. -/
def writeHeld (s : State) (a f : Nat) : Bool :=
  s.hif.held.any (fun h => h.ap == a && h.fn == f && (match h.req with
    | .cpl _ _ _ => true
    | .put _ _ _ => true
    | _ => false))

/-- R473, R474: a completion write of a ring fails: a ring that runs or is HELD enters ERROR, and nothing more is written to it. -/
def cplFail (s : State) (r : Nat) : State :=
  if ringSt s r = rsRunning || ringSt s r = rsHeld then
    let mine (h : Held) : Bool := match h.req with
      | .cpl x _ _ => x == r
      | .put x _ _ => x == r
      | _ => false
    let s := { s with hif := { s.hif with held := s.hif.held.filter (fun h => !mine h) } }
    ringCount (ringPut (s.wr R.DOM_RING_W0.STATE [r] rsError) r { ringGet s r with discard := true, cplWait := [] }) r 6
  else s

/-- R433, R439: a write of a ring's function to host memory: sent on a hit or untranslated, held on a miss or behind a write
that is held; whether it was sent. -/
def ringSendOut (s : State) (r addr : Nat) (data : Bytes) (q : Req) : Bool × State :=
  let (a, f) := ringFn s r
  let h0 := if ringOwner s r then none else some (ringInst s r)
  let hold (st : HeldSt) : State :=
    let h : Held := { ap := a, fn := f, inst := some (ringInst s r), pasid := ringPasid s r, addr := addr, len := data.length,
                      req := q, st := st, stale := false }
    { s with hif := { s.hif with held := s.hif.held ++ [h] } }
  if ringOwner s r || !atsEn s a f then (true, hostWrite s a f addr data false false (ringPasid s r) h0)
  else if writeHeld s a f then (false, hold .behind)
  else
    match atcFind? s a f (ringPasid s r) addr with
    | some e =>
      if e.w then (true, hostWrite (atcTouch s e) a f (e.target * 4096 + addr % 4096) data false false (ringPasid s r) h0)
      else (false, cplFail s r)
    | none => (false, sendTlp ((hold .translating).inc R.HIF_CNT.COUNT [a, 17]) a (.transReq a f (addr / 4096) (ringPasid s r)))

/-- A data write of a descriptor of a ring: one request for each page. -/
def ringWrite (s : State) (r addr : Nat) (data : Bytes) : State :=
  (cutRead 4096 (data.length / 4096 + 2) addr data.length).foldl (fun s p =>
    (ringSendOut s r p.1 (slice data (p.1 - addr) p.2) (.put r p.1 (slice data (p.1 - addr) p.2))).2) s

/-- R473, R484: a completion has been written: PEND and the timer follow; a RING_FAULT completion of an armed ring fires at
once. -/
def cplSent (s : State) (r : Nat) (bytes : Bytes) : State :=
  let x := ringGet s r
  let s := ringPut s r { x with pend := x.pend + 1, timerOn := true, timerAt := if x.timerOn then x.timerAt else s.now }
  if byteAt bytes 4 = stRingFault && s.flag R.DOM_RING_W1.ARMED [r] then ringSend s r else ringEval s r

/-- R42, R471, R472: one completion written to the next slot with its phase bit; PEND, the timer and the interrupt follow the
write (R484). -/
def cplPut (s : State) (r : Nat) (body : Bytes) : State :=
  let x := match (ringGet s r).change with
    | some (v, n, a, u) => { ringGet s r with vector := v, modCnt := n, autoArm := a, modUsec := u, change := none }
    | none => ringGet s r
  let s := ringPut s r x
  let n := s.rd R.DOM_RING_W2.CPL_PI [r]
  let size := ringSize s r
  let phase := if n / size % 2 = 0 then 0x80 else 0
  let bytes := slice body 0 31 ++ [byteOf (byteAt body 31 % 128 + phase)]
  let addr := x.cplAddr + 32 * (n % size)
  let (sent, s) := ringSendOut s r addr bytes (.cpl r addr bytes)
  let s := s.wr R.DOM_RING_W2.CPL_PI [r] (n + 1)
  let s := ringCount s r 4
  if sent then cplSent s r bytes else s

/-- R471: a completion posted to a ring: written when there is room, else it waits. Nothing is written to a ring in
ERROR after a failed completion write, to one that resets (R474), or to one that is gone. -/
def cplPost (s : State) (r : Nat) (body : Bytes) : State :=
  if ringSt s r = 0 || (ringGet s r).discard || ringSt s r = rsResetting then s
  else if ringFull s r || (ringGet s r).cplWait ≠ [] then
    ringPut s r { ringGet s r with cplWait := (ringGet s r).cplWait ++ [body] }
  else cplPut s r body

/-- R471: completions that waited for space are written once a CQDB returns it. -/
def cplDrain (fuel : Nat) (s : State) (r : Nat) : State :=
  match fuel with
  | 0 => s
  | n + 1 =>
    match (ringGet s r).cplWait with
    | [] => s
    | b :: rest =>
      if ringFull s r then s
      else cplDrain n (cplPut (ringPut s r { ringGet s r with cplWait := rest }) r b) r

/-- R26: a read of host memory for a descriptor of a ring, and what it brought; false where the descriptor waits. -/
def descRead (s : State) (r : Nat) (l : List (Nat × Nat)) (x : RdRes) : Bool × State :=
  hostFetch s (ringFn s r).1 (ringFn s r).2 (if ringOwner s r then none else some (ringInst s r)) (ringPasid s r) l x

/-- R472: the bytes of a completion: TAG, STATUS, OPCODE, then bytes 6 to 31. -/
def cplBody (tag status opcode : Nat) (rest : Bytes) : Bytes :=
  leBytes 4 tag ++ [byteOf status, byteOf opcode] ++ slice rest 0 26

/-- The opcodes a ring type defines (R321, R363, R466, R476, R478, R481). -/
def opcodeOk (ty op : Nat) : Bool :=
  match ty with
  | 0 => op == 1
  | 1 => op == 2
  | 2 => (1 ≤ op && op ≤ 5) || op == 7 || (0x40 ≤ op && op ≤ 0x43) || op == 0x48 || op == 0x49
  | 3 => op == 0x20
  | 4 => 0x50 ≤ op && op ≤ 0x54
  | 5 => (0x10 ≤ op && op ≤ 0x12) || (0x14 ≤ op && op ≤ 0x1C) || (0x20 ≤ op && op ≤ 0x22) || (0x30 ≤ op && op ≤ 0x35)
           || op == 0x40 || (0x60 ≤ op && op ≤ 0x62) || op == 0x70 || op == 0x71
  | _ => false

/-- The next descriptor of a ring, in ring order: the oldest one fetched, unless an older one is still on its way. -/
def headDesc (s : State) (r : Nat) : Option (Nat × Bytes) :=
  let x := ringGet s r
  match x.fetched with
  | [] => none
  | (k, d) :: _ =>
    if x.busy.isSome then none else
    let ci := s.rd R.DOM_RING_W2.CI [r]
    if x.asked.any (fun j => ixDist j ci < ixDist k ci) then none else some (k, d)

/-- A descriptor leaves the fetched ones. -/
def popDesc (s : State) (r k : Nat) : State :=
  ringPut s r { ringGet s r with fetched := (ringGet s r).fetched.filter (fun p => p.1 ≠ k) }

/-- R473: once every descriptor before the failed fetch has ended, the RING_FAULT completion; its message fires at once
when armed. -/
def ringFaultCheck (s : State) (r : Nat) : State :=
  let x := ringGet s r
  match x.faultDue with
  | none => s
  | some (k, cause) =>
    let ci := s.rd R.DOM_RING_W2.CI [r]
    if x.busy.isSome || x.fetched.any (fun p => ixDist p.1 ci < ixDist k ci) || x.asked.any (fun j => ixDist j ci < ixDist k ci) then s
    else
      let s := ringPut s r { x with faultDue := none, fetched := [], asked := [] }
      cplPost s r (cplBody 0xFFFFFFFF stRingFault 0xFE ([0, 0] ++ leBytes 2 k ++ [byteOf cause]))

/-- R472: descriptors at the head whose opcode the ring type does not define complete with MALFORMED. -/
def drainBad (fuel : Nat) (s : State) (r : Nat) : State :=
  match fuel with
  | 0 => s
  | n + 1 =>
    match headDesc s r with
    | none => s
    | some (k, d) =>
      if opcodeOk (ringType s r) (byteAt d 0) then s
      else
        let s := ringCount (popDesc s r k) r 3
        drainBad n (cplPost s r (cplBody (leAt d 4 4) stMalformed (byteAt d 0) [])) r

/-- After a descriptor has ended: malformed ones behind it, then the fault completion if it is due. -/
def ringSettle (s : State) (r : Nat) : State :=
  ringFaultCheck (drainBad ((ringGet s r).fetched.length + 1) s r) r

/-- The head descriptor of a ring of type `ty` when its opcode is `op`. -/
def headOp (s : State) (r ty op : Nat) : Option (Nat × Bytes) :=
  if ringType s r ≠ ty || ringSt s r = 0 then none
  else
    match headDesc s r with
    | some (k, d) => if byteAt d 0 = op then some (k, d) else none
    | none => none

/-- A descriptor ends with a completion of `status` and bytes `rest` from byte 6 on; MALFORMED is counted (R491). -/
def finishDesc (s : State) (r k : Nat) (d : Bytes) (status : Nat) (rest : Bytes) : State :=
  let s := popDesc s r k
  let s := if status = stMalformed then ringCount s r 3 else s
  let s := cplPost s r (cplBody (leAt d 4 4) status (byteAt d 0) rest)
  ringSettle s r

/-- R477: the frame of a TX descriptor has entered its pipeline: the descriptor completes with the frame's length. -/
def txEntered (s : State) (r k len : Nat) (poison : Bool) : State :=
  match (ringGet s r).busy with
  | none => s
  | some (j, d) =>
    if j ≠ k || ringSt s r = 0 then s
    else
      let s := ringPut s r { ringGet s r with busy := none }
      let s := cplPost s r (cplBody (leAt d 4 4) (if poison then 0x11 else stSuccess) 1 ([0, 0] ++ leBytes 2 len))
      ringSettle s r

/-- A fetched descriptor arrives (R475): it takes its place in ring order. -/
def descArrive (s : State) (r k : Nat) (d : Bytes) : State :=
  let x := ringGet s r
  if !x.asked.contains k then s
  else
    let ci := s.rd R.DOM_RING_W2.CI [r]
    let older := x.fetched.filter (fun p => ixDist p.1 ci < ixDist k ci)
    let newer := x.fetched.filter (fun p => !(ixDist p.1 ci < ixDist k ci))
    let s := ringPut s r { x with asked := x.asked.filter (· ≠ k), fetched := older ++ [(k, slice d 0 64)] ++ newer }
    ringSettle (ringCount s r 2) r

/-- R473: a descriptor fetch fails: the ring enters ERROR; cause 1 translation fault, 2 UR or CA, 3 timeout, 4 poisoned. -/
def descFail (s : State) (r k cause : Nat) : State :=
  let x := ringGet s r
  if ringSt s r ≠ rsRunning && ringSt s r ≠ rsHeld then ringPut s r { x with asked := x.asked.filter (· ≠ k) }
  else
    let s := s.wr R.DOM_RING_W0.STATE [r] rsError
    let s := ringCount s r 6
    let s := ringPut s r { x with asked := x.asked.filter (· ≠ k), faultDue := some (k, cause) }
    ringFaultCheck s r

/-- The cause of R473 for a read's outcome; 0 where the read succeeded. -/
def faultCause (x : RdRes) : Nat :=
  match x with
  | .ok _ => 0
  | .xlate => 1
  | .ur => 2
  | .ca => 2
  | .timeout => 3
  | .poison _ => 4

/-- A global ring by its owner flag, instance and ring number (R466, R469). -/
def findRing (s : State) (owner : Bool) (inst n : Nat) : Option Nat :=
  (List.map Prod.fst s.dom.rings).find? (fun r =>
    ringSt s r ≠ 0 && ringOwner s r == owner && (owner || ringInst s r == inst) && s.rd R.DOM_RING_W1.RING [r] == n)

end Sys2Proof.Machine
end

