-- ==== Sys2Proof/Machine/ChanOps.lean ====
section
/-! DEFINITION. Filbert channels and events as other blocks use them (R502 to R510, R513, R514).
Log entries 92, 103. -/

namespace Sys2Proof.Machine

open Sys2Proof

/-- Hart STATE codes of R527. -/
def hsReset : Nat := 0
def hsRun : Nat := 1
def hsWait : Nat := 2
def hsHalt : Nat := 3
def hsStop : Nat := 4
def hsFailed : Nat := 5
def hsRetired : Nat := 6

def hartSt (s : State) (h : Nat) : Nat := s.rd R.FIL_HART_CTL.STATE [h]

def hartGet (s : State) (h : Nat) : Hart := SMap.get Hart.reset s.fil.harts h

def hartPut (s : State) (h : Nat) (x : Hart) : State :=
  { s with fil := { s.fil with harts := SMap.set Hart.reset s.fil.harts h x } }

/-- R528: the depth of a software channel. -/
def chanDepth (s : State) (n : Nat) : Nat :=
  let d := s.rd R.FIL_CH_W0.DEPTH_LOG2 [n]
  if 2 ≤ d && d ≤ 12 then 2 ^ d else 2 ^ 12

/-- R502: the depth of a hardware channel, 0 where the number is reserved. -/
def hwDepth (n : Nat) : Nat :=
  if 0xFF00 ≤ n && n ≤ 0xFF03 then 256
  else if n = 0xFF20 then 64
  else if 0xFF40 ≤ n && n ≤ 0xFF7F then 64
  else 0

def chanMsgs (s : State) (n : Nat) : List Bytes := SMap.get [] s.fil.chan n

/-- The messages of a channel replaced; FILL of a software channel follows (R528). -/
def chanSet (s : State) (n : Nat) (ms : List Bytes) : State :=
  let s := { s with fil := { s.fil with chan := SMap.set [] s.fil.chan n ms } }
  if n < 8192 then s.wr R.FIL_CH_W2.FILL [n] ms.length else s

/-- One message appended (R504). -/
def chanPush (s : State) (n : Nat) (m : Bytes) : State := chanSet s n (chanMsgs s n ++ [m])

/-- R506: a hardware producer of class `cls` writes a message; the second part says whether it was kept. -/
def hwPost (s : State) (n cls : Nat) (m : Bytes) : State × Bool :=
  if n ≥ 8192 then (s.inc R.FIL_CNT.COUNT [4], false)
  else if !s.flag R.FIL_CH_W0.EN [n] || s.rd R.FIL_CH_W0.PROD_CLASS [n] ≠ cls then
    ((s.inc R.FIL_CNT.COUNT [4]).satAdd R.FIL_CH_W3.DROPS [n] 1, false)
  else if (chanMsgs s n).length ≥ chanDepth s n then
    ((s.inc R.FIL_CNT.COUNT [3]).satAdd R.FIL_CH_W3.DROPS [n] 1, false)
  else (chanPush s n (slice m 0 64), true)

/-- R507: the pending event bits of a hart, latched and level. -/
def pendingEv (s : State) (h : Nat) : Nat :=
  let watch := (List.range 16).foldl (fun a w =>
    if s.flag R.FIL_CHW.EN [h, w] && (chanMsgs s (s.rd R.FIL_CHW.CHAN [h, w])).length ≠ 0 then a + 2 ^ (32 + w) else a) 0
  let tmr := if s.mtime ≥ SMap.get (2 ^ 64 - 1) s.fil.mtimecmp h then 2 ^ 48 else 0
  (hartGet s h).ev + watch + tmr

/-- The latched bits of the event register (R507). -/
def latchedMask : Nat := (2 ^ 32 - 1) + 2 ^ 49 + 2 ^ 50 + 2 ^ 51

/-- A latched event bit set on a hart. -/
def latchEv (s : State) (h b : Nat) : State :=
  let x := hartGet s h
  hartPut s h { x with ev := setBit x.ev b true }

/-- R513: the lowest free buffer of the frame pool. -/
def freeBuf? (s : State) : Option Nat :=
  if !s.flag R.FIL_CFG.POOL_EN [] then none
  else (List.range (s.rd R.FIL_FPOOL_CNT.COUNT [])).find? (fun b => !SMap.get false s.fil.bufUsed b)

/-- A pool buffer taken. -/
def takeBuf (s : State) (b : Nat) : State :=
  ({ s with fil := { s.fil with bufUsed := SMap.set false s.fil.bufUsed b true } }).sub R.FIL_FPOOL_FREE.FREE [] 1

/-- R514: a buffer returned; an index out of range or already free is ignored and counted. -/
def returnBuf (s : State) (b : Nat) : State :=
  if b < s.rd R.FIL_FPOOL_CNT.COUNT [] && SMap.get false s.fil.bufUsed b then
    ({ s with fil := { s.fil with bufUsed := SMap.set false s.fil.bufUsed b false } }).add R.FIL_FPOOL_FREE.FREE [] 1
  else s.inc R.FIL_CNT.COUNT [14]

/-- The model's HBM address of buffer `b` (R513, R525). -/
def bufAddr (s : State) (b : Nat) : Nat :=
  hbmAddr (s.rd R.FIL_FPOOL.STACK []) (s.rd R.FIL_FPOOL.BASE [] * 2 ^ 20 + b * 16384)

end Sys2Proof.Machine
end

