-- ==== Sys2Proof/Machine/TuOps.lean ====
section
/-! DEFINITION. Shared operations of the Time Unit: the counter and its step, F, timestamps and compensation, the
servo, the egress treatment of PTP messages (R530 to R543, R545 to R547). A timestamp is a number of 2^-16 ns since the
PTP epoch.
Log entries 6, 14, 34, 107, 110, 147. -/

namespace Sys2Proof.Machine

open Sys2Proof

/-- The range of TU time in units of 2^-32 ns: 2^48 seconds (R530). -/
def tuSpan : Nat := 2 ^ 48 * 1000000000 * 2 ^ 32

/-- The range of a timestamp in units of 2^-16 ns. -/
def tsSpan : Nat := 2 ^ 48 * 1000000000 * 2 ^ 16

/-- Seconds, nanoseconds and fraction of a timestamp (R530). -/
def tsSec (t : Nat) : Nat := t / 65536 / 1000000000 % 2 ^ 48
def tsNs (t : Nat) : Nat := t / 65536 % 1000000000
def tsFrac (t : Nat) : Nat := t % 65536

/-- A timestamp from its parts; nanoseconds past a second carry. -/
def tsMake (sec ns frac : Nat) : Nat := (sec * 1000000000 + ns) * 65536 + frac

/-- A timestamp moved by a signed number of 2^-16 ns, modulo the range of TU time. -/
def tsShift (t : Nat) (d : Int) : Nat := (((t : Int) + d) % (tsSpan : Int)).toNat

/-- ppb in units of 2^-40, rounded down (R546). -/
def ppbUnits (n : Nat) : Int := ((n * 2 ^ 40 / 1000000000 : Nat) : Int)

/-- MAX_FREQ in units of 2^-40, at most 500,000 ppb (R555). -/
def maxFreq (s : State) : Int := ppbUnits (min (s.rd R.TU_MAX_FREQ.MAX_FREQ []) 500000)

/-- An integer held inside ±m. -/
def clampInt (x m : Int) : Int := if x > m then m else if x < -m then -m else x

/-- R531: F under the MODE, clamped to ±MAX_FREQ, in units of 2^-40. -/
def tuFreq (s : State) : Int :=
  let f : Int :=
    match s.rd R.TU_SERVO.MODE [] with
    | 0 => toSigned 32 (s.rd R.TU_FREQ.FREQ [])
    | 1 => s.tu.out
    | 2 => s.tu.eec
    | 3 => s.tu.eec + s.tu.out
    | _ => 0
  clampInt f (maxFreq s)

/-- R552: the fraction, in units of 2^-40, by which the EEC offsets the SerDes PLL of an octet: one sourced from REFCLK, where
TX_STEER is 1 and the EEC is LOCKED or in HOLDOVER. -/
def steerOf (s : State) (o : Nat) : Int :=
  if s.flag R.TU_SYNCE.TX_STEER [] && s.rd R.ETH_OCT_CFG.PLL_SRC [o] == 0
      && (s.rd R.TU_STATUS.EEC_STATE [] == 1 || s.rd R.TU_STATUS.EEC_STATE [] == 2) then s.tu.eec
  else 0

/-- R552: the octets' PLLs follow the EEC. -/
def steerShow (s : State) : State :=
  (List.range 16).foldl (fun s o =>
    let x := steerOf s o
    if x = SMap.get 0 s.eth.steer o then s
    else { s with eth := { s.eth with steer := SMap.set 0 s.eth.steer o x } }.emit (.steer o x)) s

/-- TU_FREQ_APPLIED and OUT_INT follow the state they show, and the octets' PLLs the EEC. -/
def tuShow (s : State) : State :=
  steerShow ((s.wr R.TU_FREQ_APPLIED.FREQ_APPLIED [] (ofSigned 32 (tuFreq s))).wr R.TU_OUT_INT.INTEG [] (ofSigned 32 s.tu.integ))

/-- R531: TU time after `dt` units of 0.1 ns. The counter resolves 2^-32 ns; the manual does not say how the exact sum rounds,
so the last place is free where the sum is not exact. -/
def tuAdvance (s : State) (dt : Nat) : State :=
  if !s.flag R.TU_CFG.EN [] then s
  else
    let num : Int := (dt : Int) * ((2 ^ 40 : Nat) + toSigned 32 (s.rd R.TU_FREQ_APPLIED.FREQ_APPLIED []))
    let d := (num.fdiv 2560).toNat
    let exact := num % 2560 == 0
    let (b, s) := if exact then (0, s) else s.freeBits 1
    { s with tu := { s.tu with t := (s.tu.t + d + b) % tuSpan } }

/-- R531: the offset engine and the PPS pulse end when their time has come. -/
def tuDue (s : State) : State :=
  let s := if s.flag R.TU_STATUS.SMP_BUSY [] && decide (s.tu.busyUntil ≤ s.now) then s.wr R.TU_STATUS.SMP_BUSY [] 0 else s
  match s.tu.ppsOff with
  | some t => if t ≤ s.now then
      let s := { s with tu := { s.tu with ppsOff := none } }
      if s.flag R.TU_PPS.OUT_EN [] then s.emit (.pin .ppsOut false) else s
    else s
  | none => s

/-- R5: elapsed time comes to `t` (0.1 ns) at least, and TU time with it: a timer that runs out, runs out when it is due. -/
def clockTo (s : State) (t : Nat) : State :=
  if t ≤ s.now then s else tuDue (tuAdvance { s with now := t } (t - s.now))

/-- R588: an issue of unit `k` (a core, or 64 + a cluster), which takes at most `duty` of every 16 cycles of CLK_CORE while TSTATE is 2
or higher: where those of the present 16 are used up, it comes with the next. -/
def dutyTake (s : State) (k duty : Nat) : State :=
  if s.rd R.REV_STATUS.TSTATE [] < 2 then s
  else
    let w := s.now / (16 * coreLen)
    let e := SMap.get (0, 0) s.rev.duty k
    let n := if e.1 = w then e.2 else 0
    let put (s : State) (x : Nat × Nat) : State := { s with rev := { s.rev with duty := SMap.set (0, 0) s.rev.duty k x } }
    if n < max 1 duty then put s (w, n + 1) else put (clockTo s ((w + 1) * (16 * coreLen))) (w + 1, 1)

/-- R534: a step puts TU time to `t` (2^-32 ns). -/
def tuStep (s : State) (t : Nat) : State :=
  let s := { s with tu := { s.tu with t := t % tuSpan } }
  let m := s.mtime
  ((s.inc R.TU_STEP.STEP_COUNT []).wr R.TU_STEP_MTIME.MTIME [0] (m % 2 ^ 32)).wr R.TU_STEP_MTIME.MTIME [1] (m / 2 ^ 32)

/-- R532: a stamp of the present time. Its error, at most `acc` units of 2^-16 ns either way, is free. -/
def tuStamp (s : State) (acc : Nat) : Nat × State :=
  let (e, s) := s.freeBits 32
  (tsShift (s.tu.t / 65536) ((e % (2 * acc + 1) : Nat) - (acc : Int)), s)

/-- ±0.4 ns in units of 2^-16 ns (R532). -/
def accSnap : Nat := 26214

/-- R537: the accuracy of a port's stamps: ±1.5 ns without FEC, ±2.5 ns with it and on a Sahrov link. -/
def accPort (fec : Bool) : Nat := if fec then 163840 else 98304

/-- R538, R556: ASYM of a port, signed, in units of 2^-16 ns. -/
def tuAsym (s : State) (p : Nat) : Int :=
  toSigned 40 (s.rd R.TU_PORT_ASYM_LO.ASYM_LO [p] + 2 ^ 32 * s.rd R.TU_PORT_ASYM_HI.ASYM_HI [p])

/-- R537: the ingress stamp of a port without its ASYM term. The command stands for the message timestamp point at
the device balls, so capture − L_RX is the present time. -/
def rxStamp (s : State) (p : Nat) (fec : Bool) : Nat × State :=
  let (t, s) := tuStamp s (accPort fec)
  (tsShift t (-(toSigned 32 (s.rd R.TU_PORT_RX_LAT.RX_LAT [p]))), s)

/-- R537: the egress stamp of a port without its ASYM term. -/
def txStamp (s : State) (p : Nat) (fec : Bool) : Nat × State :=
  let (t, s) := tuStamp s (accPort fec)
  (tsShift t (toSigned 32 (s.rd R.TU_PORT_TX_LAT.TX_LAT [p])), s)

/-- A stamp with the port's ASYM taken from it (R537, R538). -/
def withAsym (s : State) (p t : Nat) : Nat := tsShift t (-(tuAsym s p))

/-- Half of an integer; the manual does not say how an odd value rounds, so that last place is free (R545). -/
def tuHalf (s : State) (x : Int) : Int × State :=
  if x % 2 == 0 then (x.fdiv 2, s)
  else
    let (b, s) := s.freeBits 1
    (x.fdiv 2 + (b : Int), s)

/-- SERVO_STATE codes of R554. -/
def svFree : Nat := 0
def svLocking : Nat := 1
def svLocked : Nat := 2
def svHoldover : Nat := 3

/-- R546: the servo on an offset in units of 2^-16 ns. R553: a servo step in the tick of a TU_SET APPLY is discarded and
counted. -/
def onOffset (s : State) (off : Int) : State :=
  let mode := s.rd R.TU_SERVO.MODE []
  if mode == 0 || mode == 2 then s
  else
    let s := { s with tu := { s.tu with offAt := s.now } }
    let s := s.wr R.TU_OUT_OFF.OFFSET [] (ofSigned 32 (satSigned 32 (asr off 8)))
    if off.natAbs > s.rd R.TU_STEP_THRESH.STEP_THRESH [] * 65536 && s.flag R.TU_SERVO.STEP_EN [] then
      let s :=
        if s.tu.setAt == some s.now then s.inc R.TU_CNT.COUNT [3]
        else
          let t := ((s.tu.t : Int) - off * 65536) % (tuSpan : Int)
          (tuStep s t.toNat).inc R.TU_CNT.COUNT [2]
      ({ s with tu := { s.tu with good := 0 } }).wr R.TU_STATUS.SERVO_STATE [] svLocking
    else
      let m := maxFreq s
      let integ := clampInt (s.tu.integ - asr off (s.rd R.TU_SERVO.KI_SHIFT [])) m
      let out := clampInt (integ - asr off (s.rd R.TU_SERVO.KP_SHIFT [])) m
      let good := if off.natAbs ≤ s.rd R.TU_SERVO_LIM.LOCK_THRESH [] * 65536 then s.tu.good + 1 else 0
      let st := s.rd R.TU_STATUS.SERVO_STATE []
      let st := if st ≠ svLocked && good ≥ max 1 (s.rd R.TU_SERVO.LOCK_COUNT []) then svLocked else st
      let st := if st = svHoldover then svLocking else st
      tuShow (({ s with tu := { s.tu with integ := integ, out := out, good := good } }).wr R.TU_STATUS.SERVO_STATE [] st)

/-- R547: the servo enters HOLDOVER: its output is the integrator, frozen. -/
def servoHoldover (s : State) : State :=
  let st := s.rd R.TU_STATUS.SERVO_STATE []
  if st = svLocking || st = svLocked then
    tuShow ((({ s with tu := { s.tu with out := s.tu.integ } }).wr R.TU_STATUS.SERVO_STATE [] svHoldover).inc
      R.TU_CNT.COUNT [4])
  else s

/-- R545: the engine accepts a set with its offset and delay, both in 2^-16 ns, or rejects it. -/
def engineTake (s : State) (off delay : Int) : State × Bool :=
  if delay < 0 || delay > 16700000 * 65536 then (s.inc R.TU_CNT.COUNT [1], false)
  else ((s.wr R.TU_OUT_DLY.DELAY [] (delay.toNat / 256)).inc R.TU_CNT.COUNT [0], true)

/-- R545 KIND 0: offset and delay of four timestamps. -/
def engineFour (s : State) (t1 t2 t3 t4 : Int) : Int × Int × State :=
  let (off, s) := tuHalf s ((t2 - t1) - (t4 - t3))
  let (dly, s) := tuHalf s ((t2 - t1) + (t4 - t3))
  (off, dly, s)

/-- Where a PTP message lies in a frame (R539): its offset, and over UDP the offset of the checksum and whether the
datagram is IPv6. -/
structure PtpAt where
  off : Nat
  udp : Option (Nat × Bool)
deriving DecidableEq, Repr

/-- The offset of the EtherType after at most two 802.1Q tags. -/
def etherTypeAt (f : Bytes) : Nat :=
  let tag (o : Nat) : Bool := beAt f o 2 == 0x8100 || beAt f o 2 == 0x88A8
  if tag 12 then (if tag 16 then 20 else 16) else 12

/-- R539: a PTP message under the encapsulations a port enables. -/
def ptpFind (f : Bytes) (l2 udp4 udp6 : Bool) : Option PtpAt :=
  let e := etherTypeAt f
  let ty := beAt f e 2
  let ip := e + 2
  if ty = 0x88F7 then if l2 then some { off := ip, udp := none } else none
  else if ty = 0x0800 then
    let u := ip + 4 * (byteAt f ip % 16)
    if udp4 && byteAt f ip / 16 == 4 && byteAt f (ip + 9) == 17 && bits (beAt f (ip + 6) 2) 0 13 == 0 && beAt f (u + 2) 2 == 319
    then some { off := u + 8, udp := some (u + 6, false) } else none
  else if ty = 0x86DD then
    let u := ip + 40
    if udp6 && byteAt f (ip + 6) == 17 && beAt f (u + 2) 2 == 319 then some { off := u + 8, udp := some (u + 6, true) } else none
  else none

/-- The sum of the 16-bit words of a string that starts at an even or odd place of the checksummed data. -/
def sum16 (bs : Bytes) (odd : Bool) : Nat :=
  match bs with
  | [] => 0
  | b :: r => (if odd then b.toNat else b.toNat * 256) + sum16 r (!odd)

/-- A sum folded to 16 bits, end-around. -/
def fold16 (n : Nat) : Nat := if n = 0 then 0 else (n - 1) % 65535 + 1

/-- R540: the UDP checksum after the message changed from `old` to `new` bytes: 0 over IPv4, updated incrementally over
IPv6. -/
def fixUdp (f old new : Bytes) (p : PtpAt) : Bytes :=
  match p.udp with
  | none => f
  | some (c, false) => overlay f c [0, 0]
  | some (c, true) =>
    let x := 65535 - beAt f c 2
    let y := fold16 (x + 65535 * 65536 - sum16 old false % 65535 + sum16 new false)
    let k := 65535 - y % 65536
    overlay f c (beBytes 2 (if k = 0 then 65535 else k))

/-- The correctionField with `d` (2^-16 ns) added. -/
def addCorrection (m : Bytes) (d : Int) : Bytes :=
  overlay m 8 (beBytes 8 (ofSigned 64 (toSigned 64 (beAt m 8 8) + d)))

/-- R541: the two-step report of an egress event message. -/
def twoStep (s : State) (p : Nat) (m : Bytes) (ts : Nat) : State :=
  if !s.flag R.TU_TXTS.EN [] then s
  else
    let r : Bytes := [1, byteOf p, byteOf (byteAt m 0 % 16), byteOf (byteAt m 4)] ++ leBytes 2 (beAt m 30 2) ++ [0, 0]
      ++ leBytes 6 (tsSec ts) ++ [0, 0] ++ leBytes 4 (tsNs ts) ++ leBytes 2 (tsFrac ts)
    let (s, ok) := hwPost s (s.rd R.TU_TXTS.CHAN []) 3 (slice r 0 64)
    s.inc R.TU_CNT.COUNT [if ok then 6 else 7]

/-- R539 to R543: the residence time added to the correction field of a message that a transparent clock forwards; `e` is the
egress stamp, `ing` the port and stamp of ingress. -/
def ptpTransit (s : State) (p : Nat) (ing : Option (Nat × Nat)) (hop : Int) (m : Bytes) (e : Nat) : Bytes × State :=
  let ty := byteAt m 0 % 16
  let oneStepMsg := ty == 0 && !(bit (byteAt m 6) 1)
  match ing with
  | some (ip, its) =>
    if s.flag R.TU_PORT_CTL.TC_EN [p] && (oneStepMsg || ty == 1 || ty == 2 || ty == 3) then
      let extra : Int :=
        if s.flag R.TU_PORT_CTL.TC_P2P [p] && ty == 0 then
          ((s.rd R.TU_PORT_LINK_DELAY.LINK_DELAY [ip] * 256 : Nat) : Int) + tuAsym s ip
        else 0
      (addCorrection m ((e : Int) - its + extra + hop), s.inc R.TU_CNT.COUNT [9])
    else (m, s)
  | none => (m, s)

/-- R539 to R543: the egress stamp put into a one-step message, or reported for a two-step one; `m` is the message as it came. -/
def ptpOrigin (s : State) (p : Nat) (m m1 : Bytes) (ets : Nat) : Bytes × State :=
  if s.flag R.TU_PORT_CTL.ONE_STEP [p] && byteAt m 0 % 16 == 0 && !(bit (byteAt m 6) 1) then
    (addCorrection (overlay (overlay m1 34 (beBytes 6 (tsSec ets))) 40 (beBytes 4 (tsNs ets))) (tsFrac ets),
      s.inc R.TU_CNT.COUNT [8])
  else (m1, twoStep s p m ets)

/-- R542: whether a frame is a peer delay message that a peer-to-peer transparent clock does not forward. -/
def ptpStops (s : State) (p : Nat) (ing : Option (Nat × Nat)) (f : Bytes) : Bool :=
  s.flag R.TU_PORT_CTL.PTP_EN [p] && s.flag R.TU_PORT_CTL.TC_EN [p] && s.flag R.TU_PORT_CTL.TC_P2P [p] && ing.isSome &&
    (match ptpFind f (s.flag R.TU_PORT_CTL.L2 [p]) (s.flag R.TU_PORT_CTL.UDP4 [p]) (s.flag R.TU_PORT_CTL.UDP6 [p]) with
     | none => false
     | some a => byteAt (f.drop a.off) 0 % 16 == 2 || byteAt (f.drop a.off) 0 % 16 == 3)

/-- R539 to R543: what TU does to a frame that leaves Ethernet port `p`. `ing` names the Ethernet port of entry and its
stamp without ASYM; `hop` is the link delay to add after a stack hop. None: a Pdelay message that a P2P transparent
clock does not forward. -/
def ptpEgress (s : State) (p : Nat) (fec : Bool) (ing : Option (Nat × Nat)) (hop : Int) (f : Bytes) : State × Option Bytes :=
  if !s.flag R.TU_PORT_CTL.PTP_EN [p] then (s, some f)
  else
    match ptpFind f (s.flag R.TU_PORT_CTL.L2 [p]) (s.flag R.TU_PORT_CTL.UDP4 [p]) (s.flag R.TU_PORT_CTL.UDP6 [p]) with
    | none => (s, some f)
    | some a =>
      let m := f.drop a.off
      let ty := byteAt m 0 % 16
      if ty > 3 then (s, some f)
      else if s.flag R.TU_PORT_CTL.TC_EN [p] && s.flag R.TU_PORT_CTL.TC_P2P [p] && (ty == 2 || ty == 3) && ing.isSome then (s, none)
      else
        let x := txStamp s p fec
        let y := ptpTransit x.2 p ing hop m x.1
        let z := ptpOrigin y.2 p m y.1 (withAsym y.2 p x.1)
        (z.2, some (if z.1 == m then f else fixUdp (f.take a.off ++ z.1) m z.1 a))

/-- Where the IP and UDP headers of a frame lie: IP start, UDP start, IPv6 (R250). -/
def udpFind (f : Bytes) : Option (Nat × Nat × Bool) :=
  let tag (o : Nat) : Bool := beAt f o 2 == 0x8100 || beAt f o 2 == 0x88A8
  let o := if tag 12 then (if tag 16 then 20 else 16) else 12
  let ip := o + 2
  if beAt f o 2 = 0x0800 && byteAt f ip / 16 = 4 && byteAt f (ip + 9) = 17 && byteAt f ip % 16 ≥ 5 then
    some (ip, ip + byteAt f ip % 16 * 4, false)
  else if beAt f o 2 = 0x86DD && byteAt f ip / 16 = 6 && byteAt f (ip + 6) = 17 then some (ip, ip + 40, true)
  else none

end Sys2Proof.Machine
end

