-- ==== Sys2Proof/Machine/WinOps.lean ====
section
/-! DEFINITION. Winnower's parse walk, keys, exact-match tables and the edit programs of the egress editor (R112 to
R132, R141 to R144, R676 to R678).
Log entries 14, 29, 30, 33, 34, 36, 37. -/

namespace Sys2Proof.Machine

open Sys2Proof

/-- Cause bits of R145. -/
def excDepth : Nat := 0
def excLength : Nat := 1
def excNode : Nat := 2
def excLookup : Nat := 3
def excAction : Nat := 4
def excTtl : Nat := 5
def excNested : Nat := 6
def excOrphan : Nat := 7
def excSkipped : Nat := 8

/-- Parse node `n` of the active graph (R113); an unwritten node is all zero. -/
def activeNode (s : State) (n : Nat) : Bytes :=
  SMap.get zero64 (if s.flag R.WIN_GLB_CFG.GRAPH_SEL [] then s.win.graph1 else s.win.graph0) n

/-- R113: whether a node image holds no reserved value; VALID 0 is well formed. -/
def nodeOk (n : Bytes) : Bool := byteAt n 1 % 4 ≠ 3 && byteAt n 2 % 4 < 2

/-- R112: the window end of a WINDOW value; none for the reserved one. -/
def windowEnd (w : Nat) : Option Nat := if w = 0 then some 64 else if w = 3 then none else some 512

/-- The walk as it goes (R117). -/
structure WalkSt where
  pos : Nat
  node : Nat
  trans : Nat
  l3 : Option (Nat × Nat)
  res : Walk
deriving DecidableEq, Repr

/-- The recorded slots with one record replaced or added (R116). -/
def putSlot (l : List Slot) (x : Slot) : List Slot := l.filter (fun y => y.slot ≠ x.slot) ++ [x]

def slotOf (l : List Slot) (n : Nat) : Option Slot := l.find? (fun x => x.slot == n)

/-- The fields a node reads, as (offset, length) from the header start (R117). -/
def nodeFields (n : Bytes) : List (Nat × Nat) :=
  (if byteAt n 2 % 4 = 1 then [(byteAt n 4, if bit (byteAt n 5) 0 then 2 else 1)] else [])
    ++ (if bit (byteAt n 11) 0 then [(byteAt n 10, 2)] else [])
    ++ (if bit (byteAt n 17) 0 then [(byteAt n 16, if bit (byteAt n 17) 1 then 1 else 2)] else [])
    ++ (if byteAt n 1 % 4 = 1 then [(6, 2)] else [])
    ++ (if bit (byteAt n 1) 2 then [(2, 2)] else [])

/-- R114: a node's header length at `pos`. -/
def nodeLen (n f : Bytes) (pos : Nat) : Nat :=
  if byteAt n 2 % 4 = 1 then
    let b5 := byteAt n 5
    let v := beAt f (pos + byteAt n 4) (if bit b5 0 then 2 else 1)
    (Nat.land v (leAt n 6 2)) / 2 ^ (bits b5 1 4) * 2 ^ (bits b5 5 3) + leAt n 8 2
  else byteAt n 3

/-- R115: the next node, none where parsing ends. -/
def nodeNext (n f : Bytes) (pos : Nat) : Option Nat :=
  let dflt := if bit (leAt n 20 2) 15 then none else some (leAt n 20 2 % 512)
  if !bit (byteAt n 17) 0 then dflt
  else
    let v := beAt f (pos + byteAt n 16) (if bit (byteAt n 17) 1 then 1 else 2)
    let m := leAt n 18 2
    match (List.range 10).find? (fun i =>
      let t := leAt n (24 + 4 * i) 4
      bit t 31 && Nat.land v m == Nat.land (t % 65536) m) with
    | some i => some (bits (leAt n (24 + 4 * i) 4) 16 9)
    | none => dflt

/-- R121, R136: the fragment key (without the domain) and whether the header marks a non-first fragment; none where it
marks no fragment. `f` is the parsed region of R112; a byte of the key beyond it is 0. -/
def nodeFrag (n f : Bytes) (pos : Nat) (l3 : Option (Nat × Nat)) : Option (Bytes × Bool) :=
  if byteAt n 1 % 4 = 1 && (bit (beAt f (pos + 6) 2) 13 || beAt f (pos + 6) 2 % 8192 ≠ 0) then
    some ([1] ++ slice f (pos + 12) 8 ++ slice f (pos + 9) 1 ++ slice f (pos + 4) 2, beAt f (pos + 6) 2 % 8192 ≠ 0)
  else if bit (byteAt n 1) 2 && (bit (byteAt f (pos + 3)) 0 || beAt f (pos + 2) 2 / 8 ≠ 0) then
    let ad := match l3 with
      | some (p, 2) => slice f (p + 8) 32
      | _ => List.replicate 32 0
    some ([2] ++ ad ++ slice f pos 1 ++ slice f (pos + 4) 4, beAt f (pos + 2) 2 / 8 ≠ 0)
  else none

/-- One header of the walk of R117: the state after it, and whether the walk goes on. -/
def walkStep (s : State) (f : Bytes) (wend : Nat) (w : WalkSt) : WalkSt × Bool :=
  let n := activeNode s w.node
  let limit := min wend f.length
  let flag (r : Walk) (b : Nat) : Walk := { r with exc := Nat.lor r.exc (2 ^ b) }
  let stop (b : Nat) : WalkSt × Bool := ({ w with res := flag w.res b }, false)
  if !bit (byteAt n 0) 0 then stop excNode
  else if (nodeFields n).any (fun x => w.pos + x.1 + x.2 > limit) then
    stop (if (nodeFields n).any (fun x => w.pos + x.1 + x.2 > wend) then excDepth else excLength)
  else
    let len := nodeLen n f w.pos
    if len < byteAt n 12 then stop excLength
    else
      let clipped := w.pos + len > w.res.encl
      let r := if clipped then flag w.res excLength else w.res
      let stopAt := if clipped then w.res.encl else w.pos + len
      if stopAt > wend then ({ w with res := flag r excDepth }, false)
      else
        let b11 := byteAt n 11
        let (r, stopAt) :=
          if bit b11 0 then
            let d := (if bit b11 1 then stopAt else w.pos) + beAt f (w.pos + byteAt n 10) 2
            let (r, d) := if d > r.encl then (flag r excLength, r.encl) else (r, d)
            let (r, stopAt) := if d < stopAt then (flag r excLength, d) else (r, stopAt)
            ({ r with encl := d, decl := some (r.decl.getD d) }, stopAt)
          else (r, stopAt)
        let kind := byteAt n 1 % 4
        let l3 := if kind = 1 || kind = 2 then some (w.pos, kind) else w.l3
        let slots := if bit (byteAt n 0) 1 then
            putSlot r.slots { slot := bits (byteAt n 0) 2 5, start := w.pos, stop := stopAt, l3 := kind } else r.slots
        let fr := nodeFrag n (f.take limit) w.pos l3
        let nonFirst := r.frag.isNone && (fr.map (·.2)).getD false
        let esp := bit (byteAt n 1) 3
        let r := { r with slots := slots, stop := stopAt, frag := if r.frag.isSome then r.frag else fr,
                          payload := if bit (byteAt n 1) 4 then some stopAt else r.payload,
                          esp := if esp && !nonFirst then some w.pos else r.esp,
                          ip := if kind = 1 || kind = 2 then some { slot := 0, start := w.pos, stop := stopAt, l3 := kind } else r.ip }
        let w := { w with l3 := l3, res := r }
        if clipped || nonFirst || esp then (w, false)
        else
          match nodeNext n f w.pos with
          | none => (w, false)
          | some nx =>
            if w.trans = 24 then ({ w with res := flag r excDepth }, false)
            else ({ w with pos := stopAt, node := nx, trans := w.trans + 1 }, true)

/-- The walk over at most `fuel` headers. -/
def walkLoop (s : State) (f : Bytes) (wend fuel : Nat) (w : WalkSt) : WalkSt :=
  match fuel with
  | 0 => w
  | fuel + 1 =>
    match walkStep s f wend w with
    | (w, true) => walkLoop s f wend fuel w
    | (w, false) => w

/-- An empty walk over a frame of `n` bytes. -/
def Walk.start (n : Nat) : Walk :=
  { slots := [], exc := 0, frag := none, esp := none, ip := none, payload := none, stop := 0, encl := n, decl := none }

/-- R117: the walk of a frame under a profile, from the given node where one is named. A reserved WINDOW is
NODE_INVALID (R112). -/
def parse (s : State) (f : Bytes) (prof : Nat) (node : Option Nat) : Walk :=
  match windowEnd (s.rd R.WIN_PROF_W0.WINDOW [prof]) with
  | none => { Walk.start f.length with exc := 2 ^ excNode }
  | some wend =>
    (walkLoop s f wend 26 { pos := 0, node := node.getD (s.rd R.WIN_PROF_W0.START_NODE [prof]), trans := 0, l3 := none,
                            res := Walk.start f.length }).res

/-- The end of the parsed region of R112. -/
def parsedEnd (s : State) (prof : Nat) (f : Bytes) : Nat :=
  min ((windowEnd (s.rd R.WIN_PROF_W0.WINDOW [prof])).getD 0) f.length

/-- R125: the metadata block. -/
def metaBlock (p : Pkt) : Bytes := [byteOf p.origin, byteOf p.profile] ++ leBytes 2 p.inst ++ [byteOf (p.tc % 8), 0, 0, 0]

/-- R123, R124: the bytes of one extractor. -/
def extract (s : State) (k e : Nat) (p : Pkt) (slots : List Slot) (pend : Nat) : Bytes :=
  if !s.flag R.WIN_KEYPROF.EN [k, e] then []
  else
    let n := s.rd R.WIN_KEYPROF.LEN [k, e] + 1
    let off := s.rd R.WIN_KEYPROF.OFFSET [k, e]
    let raw : Bytes :=
      if s.flag R.WIN_KEYPROF.SRC [k, e] then slice (metaBlock p) off n
      else
        match slotOf slots (s.rd R.WIN_KEYPROF.HV_SLOT [k, e]) with
        | none => List.replicate n 0
        | some x => (List.range n).map (fun i =>
            let a := x.start + off + i
            if a < x.stop && a < pend then p.data.getD a 0 else 0)
    modifyAt raw (n - 1) (fun b => b &&& byteOf (s.rd R.WIN_KEYPROF.LAST_MASK [k, e]))

/-- R123: the key of a packet under a key profile. -/
def buildKey (s : State) (k : Nat) (p : Pkt) (w : Walk) : Bytes :=
  let pend := parsedEnd s p.profile p.data
  [byteOf p.domain, byteOf (p.domain / 256 % 4)]
    ++ (List.range 16).foldl (fun a e => a ++ extract s k e p w.slots pend) []

/-- R126: slots per entry, key capacity and entries per bucket of a table. -/
def tblSlots (s : State) (t : Nat) : Nat := 2 ^ s.rd R.WIN_TBL.WIDTH [t]
def tblCap (s : State) (t : Nat) : Nat :=
  match s.rd R.WIN_TBL.WIDTH [t] with
  | 0 => 16
  | 1 => 48
  | _ => 64
def tblPer (s : State) (t : Nat) : Nat := 4 / tblSlots s t

/-- R126: a key padded or cut to the table's capacity. -/
def padKey (s : State) (t : Nat) (k : Bytes) : Bytes := slice k 0 (tblCap s t)

/-- R128: the two candidate buckets of a padded key. -/
def buckets (s : State) (t : Nat) (k : Bytes) : Nat × Nat :=
  let b := 2 ^ s.rd R.WIN_TBL.LOG2_BUCKETS [t]
  let h1 := crc32cFrom (s.rd R.WIN_TBL_SEED_A.SEED_A [t]) k % b
  let h2 := crc32cFrom (s.rd R.WIN_TBL_SEED_B.SEED_B [t]) k % b
  (h1, if h2 = h1 then Nat.xor h1 1 else h2)

def zero32 : Bytes := List.replicate 32 0

/-- R130: the model's address of byte 0 of slot `i` of the HBM table store. -/
def hbmSlot (s : State) (i b : Nat) : Nat := interleaved (s.rd R.WIN_GLB_HBM.BASE [] * 2 ^ 30 + i * 32 + b)

/-- One 32-byte slot of a table's store. -/
def slotRead (s : State) (t i : Nat) : Bytes :=
  if s.flag R.WIN_TBL.HOME [t] then (List.range 32).map (fun b => s.hbmByte (hbmSlot s i b))
  else SMap.get zero32 s.win.slots i

/-- One 32-byte slot written. -/
def slotWrite (s : State) (t i : Nat) (v : Bytes) : State :=
  if s.flag R.WIN_TBL.HOME [t] then
    s.hbmWrite (hbmSlot s i 0) (slice v 0 32)
  else { s with win := { s.win with slots := SMap.set zero32 s.win.slots i (slice v 0 32) } }

/-- Where an entry lies: position `j` of a bucket, or a stash entry. -/
inductive Loc where
  | at (bucket j : Nat)
  | stash (i : Nat)
deriving DecidableEq, Repr

/-- The entry image at a place. -/
def entRead (s : State) (t : Nat) (l : Loc) : Bytes :=
  let n := tblSlots s t
  match l with
  | .at b j => (List.range n).foldl (fun a k => a ++ slotRead s t ((s.rd R.WIN_TBL_BASE.BASE [t] + b) * 4 + j * n + k)) []
  | .stash i => SMap.get [] s.win.stash (t * 64 + i)

/-- An entry image written at a place. -/
def entWrite (s : State) (t : Nat) (l : Loc) (v : Bytes) : State :=
  let n := tblSlots s t
  match l with
  | .at b j =>
    (List.range n).foldl (fun s k =>
      slotWrite s t ((s.rd R.WIN_TBL_BASE.BASE [t] + b) * 4 + j * n + k) (slice v (32 * k) 32)) s
  | .stash i => { s with win := { s.win with stash := SMap.set [] s.win.stash (t * 64 + i) v } }

/-- A place cleared. -/
def entClear (s : State) (t : Nat) (l : Loc) : State :=
  match l with
  | .at _ _ => entWrite s t l (List.replicate (32 * tblSlots s t) 0)
  | .stash _ => entWrite s t l []

/-- Whether an image is a valid entry. -/
def entValid (v : Bytes) : Bool := bit (byteAt v 0) 0

/-- R127: the key in an entry image. -/
def entKey (s : State) (t : Nat) (v : Bytes) : Bytes :=
  (slice v 16 16 ++ slice v 32 32 ++ slice v 64 16).take (tblCap s t)

def entAct (v : Bytes) : Nat := leAt v 4 4 % 131072
def entData (v : Bytes) : Nat := leAt v 8 8

/-- The positions of a bucket. -/
def bucketLocs (s : State) (t b : Nat) : List Loc := (List.range (tblPer s t)).map (Loc.at b)

def stashLocs : List Loc := (List.range 64).map Loc.stash

/-- R129: where a padded key is present. -/
def findKey (s : State) (t : Nat) (k : Bytes) : Option Loc :=
  let (h1, h2) := buckets s t k
  (bucketLocs s t h1 ++ bucketLocs s t h2 ++ stashLocs).find? (fun l =>
    entValid (entRead s t l) && entKey s t (entRead s t l) == k)

/-- R129, R134: a lookup; before READY every lookup misses. A match sets HIT. -/
def lookup (s : State) (t : Nat) (key : Bytes) : Option (Nat × Nat) × State :=
  if !(s.flag R.WIN_TBL.EN [t] && s.flag R.WIN_TBL.READY [t]) then (none, s)
  else
    match findKey s t (padKey s t key) with
    | none => (none, s)
    | some l =>
      let v := entRead s t l
      (some (entAct v, entData v), entWrite s t l (overlay v 0 [byteOf (setBit (byteAt v 0) 3 true)]))

/-- The first free place among some. -/
def freeLoc (s : State) (t : Nat) (ls : List Loc) : Option Loc := ls.find? (fun l => !entValid (entRead s t l))

/-- The positions in the other candidate bucket of the entry at a place. -/
def otherLocs (s : State) (t : Nat) (l : Loc) : List Loc :=
  match l with
  | .at b _ =>
    let (h1, h2) := buckets s t (entKey s t (entRead s t l))
    bucketLocs s t (if b = h1 then h2 else h1)
  | .stash _ => []

/-- R131: one level of the breadth-first search. `paths` are the paths of the level (far end first) not yet explored,
`next` those of the level after; the answer is a path that ends in a free position. -/
def bfsLevel (s : State) (t : Nat) (paths next : List (List Loc)) (seen : List Loc) :
    Option (List Loc) × List (List Loc) × List Loc :=
  match paths with
  | [] => (none, next, seen)
  | p :: rest =>
    let fresh := (otherLocs s t (p.headD (Loc.stash 0))).filter (fun l => !seen.contains l)
    match freeLoc s t fresh with
    | some l => (some (l :: p), next, seen)
    | none => bfsLevel s t rest (next ++ fresh.map (fun l => l :: p)) (seen ++ fresh)

/-- R131: the search over at most `fuel` displacements. -/
def bfs (s : State) (t fuel : Nat) (paths : List (List Loc)) (seen : List Loc) : Option (List Loc) :=
  match fuel with
  | 0 => none
  | fuel + 1 =>
    match bfsLevel s t paths [] seen with
    | (some p, _, _) => some p
    | (none, next, seen) => bfs s t fuel next seen

/-- R131: a path carried out from its far end; its last place is then free. -/
def movePath (s : State) (t : Nat) (p : List Loc) : State :=
  match p with
  | a :: b :: r => movePath (entClear (entWrite s t a (entRead s t b)) t b) t (b :: r)
  | _ => s

/-- OCCUPANCY and STASH_USED changed by an insert or delete. -/
def occAdd (s : State) (t : Nat) (l : Loc) : State :=
  let s := s.inc R.WIN_TBL_OCC.OCCUPANCY [t]
  match l with
  | .stash _ => s.inc R.WIN_TBL_STASH.STASH_USED [t]
  | .at _ _ => s

def occSub (s : State) (t : Nat) (l : Loc) : State :=
  let s := s.sub R.WIN_TBL_OCC.OCCUPANCY [t] 1
  match l with
  | .stash _ => s.sub R.WIN_TBL_STASH.STASH_USED [t] 1
  | .at _ _ => s

/-- R131: an insert of an entry image; none for EXISTS or TABLE_FULL, with the status code of the two told apart by the
flag (true: EXISTS). -/
def tblInsert (s : State) (t : Nat) (v : Bytes) (replace : Bool) : Except Bool State :=
  let v := slice v 0 (32 * tblSlots s t)
  let v := overlay v 0 [byteOf (setBit (setBit (byteAt v 0) 0 true) 3 false)]
  let k := entKey s t v
  match findKey s t k with
  | some l =>
    if replace then .ok (entWrite s t l (overlay (entRead s t l) 4 (slice v 4 12))) else .error true
  | none =>
    let (h1, h2) := buckets s t k
    let ls := bucketLocs s t h1 ++ bucketLocs s t h2
    match freeLoc s t ls with
    | some l => .ok (occAdd (entWrite s t l v) t l)
    | none =>
      match bfs s t 4 (ls.map (fun l => [l])) ls with
      | some p =>
        let s := movePath s t p
        let l := p.getLastD (Loc.stash 0)
        .ok (occAdd (entWrite s t l v) t l)
      | none =>
        match freeLoc s t stashLocs with
        | some l => .ok (occAdd (entWrite s t l v) t l)
        | none => .error false

/-- R132: a delete; none for NOT_FOUND. -/
def tblDelete (s : State) (t : Nat) (k : Bytes) : Option State :=
  match findKey s t k with
  | none => none
  | some l =>
    let s := occSub (entClear s t l) t l
    match l with
    | .stash _ => some s
    | .at b j =>
      match stashLocs.find? (fun x =>
        let v := entRead s t x
        entValid v && ((buckets s t (entKey s t v)).1 == b || (buckets s t (entKey s t v)).2 == b)) with
      | none => some s
      | some x => some ((entClear (entWrite s t (.at b j) (entRead s t x)) t x).sub R.WIN_TBL_STASH.STASH_USED [t] 1)

/-- R134: whether slot `i` lies in the table's bucket range. -/
def inTable (s : State) (t i : Nat) : Bool :=
  let b := s.rd R.WIN_TBL_BASE.BASE [t]
  b * 4 ≤ i && i < (b + 2 ^ s.rd R.WIN_TBL.LOG2_BUCKETS [t]) * 4

/-- The slot of the HBM table store that holds the model's HBM address `a`. -/
def hbmSlotOf (s : State) (a : Nat) : Option Nat :=
  let st := a / 2 ^ 36
  let o := a % 2 ^ 36
  let x := o / 256 * 1024 + st * 256 + o % 256
  let base := s.rd R.WIN_GLB_HBM.BASE [] * 2 ^ 30
  if base ≤ x then some ((x - base) / 32) else none

/-- A table's buckets and stash emptied. -/
def tblClear (s : State) (t : Nat) : State :=
  let stash := s.win.stash.filter (fun e => e.1 / 64 ≠ t)
  let s :=
    if s.flag R.WIN_TBL.HOME [t] then
      { s with hbm := s.hbm.filter (fun e => !((hbmSlotOf s e.1).map (inTable s t)).getD false),
               win := { s.win with stash := stash } }
    else { s with win := { s.win with slots := s.win.slots.filter (fun e => !inTable s t e.1), stash := stash } }
  (s.wr R.WIN_TBL_OCC.OCCUPANCY [t] 0).wr R.WIN_TBL_STASH.STASH_USED [t] 0

/-- Action `a` (R140). -/
def actEntry (s : State) (a : Nat) : Bytes := SMap.get zero32 s.win.act a

/-- R141, R193: whether an action image holds no reserved value. -/
def actOk (v : Bytes) : Bool := byteAt v 0 % 16 ≤ 6

/-- Edit program `n`; program 0 is none. -/
def editProg (s : State) (n : Nat) : Bytes := if n = 0 then zero64 else SMap.get zero64 s.win.edit n

/-- R676: the micro-ops up to and including the first END. -/
def microOps (p : Bytes) (n : Nat) : List Bytes :=
  match n with
  | 0 => []
  | n + 1 =>
    let m := slice p 0 8
    if byteAt m 0 = 0 then [m] else m :: microOps (p.drop 8) n

/-- R676: one well-formed micro-op. -/
def microOk (m : Bytes) : Bool :=
  let op := byteAt m 0
  let len := byteAt m 3
  if op > 8 then false
  else if op = 1 then 1 ≤ len && len ≤ 4
  else if op = 2 then 1 ≤ len && len ≤ 8
  else if op = 3 then !bit (byteAt m 1) 5 && byteAt m 2 ≤ 31
  else if op = 4 then 1 ≤ len && len ≤ 128
  else if op = 8 then leAt m 4 4 ≤ 1
  else true

def progOk (p : Bytes) : Bool := (microOps p 8).all microOk

/-- The frame as an edit program works on it. -/
structure EditSt where
  buf : Bytes
  slots : List Slot
  decl : Option Int
  /-- Bytes written in place: position, old and new value (R678). -/
  writes : List (Nat × Nat × Nat)
  skips : Nat
  /-- A DEC_TTL met a value of 0 or 1 (R144). -/
  ttl : Bool
deriving DecidableEq, Repr

/-- Bytes written in place at `a`. -/
def editWrite (e : EditSt) (a : Nat) (bs : Bytes) : EditSt :=
  { e with buf := overlay e.buf a bs,
           writes := e.writes ++ (List.range bs.length).map (fun i => (a + i, byteAt e.buf (a + i), byteAt bs i)) }

def editSkip (e : EditSt) : EditSt := { e with skips := e.skips + 1 }

/-- R677: `bs` inserted before position `x`. -/
def editInsert (e : EditSt) (x : Nat) (bs : Bytes) : EditSt :=
  let n := bs.length
  { e with
    buf := e.buf.take x ++ bs ++ e.buf.drop x,
    slots := e.slots.map (fun (c : Slot) =>
      if x ≤ c.start then { c with start := c.start + n, stop := c.stop + n }
      else if x < c.stop then { c with stop := c.stop + n } else c),
    decl := e.decl.map (· + (n : Int)),
    writes := e.writes.map (fun w => if x ≤ w.1 then (w.1 + n, w.2) else w) }

/-- R677: bytes [a, b) removed. -/
def editRemove (e : EditSt) (a b : Nat) : EditSt :=
  let n := b - a
  { e with
    buf := e.buf.take a ++ e.buf.drop b,
    slots := (e.slots.filter (fun c => !(a ≤ c.start && c.start < b))).map (fun (c : Slot) =>
      if b ≤ c.start then { c with start := c.start - n, stop := c.stop - n }
      else if a < c.stop then { c with stop := a } else c),
    decl := e.decl.map (· - (n : Int)),
    writes := (e.writes.filter (fun w => !(a ≤ w.1 && w.1 < b))).map (fun w => if b ≤ w.1 then (w.1 - n, w.2) else w) }

/-- A checksum adjusted for one changed byte of a 16-bit word, high or low. -/
def csumAdj (c : Nat) (hi : Bool) (old new : Nat) : Nat :=
  let k := if hi then 256 else 1
  65535 - fold16 ((65535 - c % 65536) + (65535 - old * k) + new * k)

/-- R678: DEC_TTL at position `a`. -/
def decTtl (e : EditSt) (a : Nat) : EditSt :=
  let v := byteAt e.buf a / 16
  if v = 4 && a + 12 ≤ e.buf.length then
    let t := byteAt e.buf (a + 8)
    let c := csumAdj (beAt e.buf (a + 10) 2) true t ((t + 255) % 256)
    { editWrite (editWrite e (a + 8) [byteOf (t + 255)]) (a + 10) (beBytes 2 c) with ttl := e.ttl || t ≤ 1 }
  else if v = 6 && a + 8 ≤ e.buf.length then
    let t := byteAt e.buf (a + 7)
    { editWrite e (a + 7) [byteOf (t + 255)] with ttl := e.ttl || t ≤ 1 }
  else editSkip e

/-- R678: CSUM_L3 at position `a`. -/
def csumL3 (e : EditSt) (a : Nat) : EditSt :=
  let n := byteAt e.buf a % 16 * 4
  if byteAt e.buf a / 16 = 4 && a + max n 12 ≤ e.buf.length then
    let h := overlay (slice e.buf a n) 10 [0, 0]
    { e with buf := overlay e.buf (a + 10) (beBytes 2 (65535 - fold16 (sum16 h false))) }
  else editSkip e

/-- R678: CSUM_L4 at position `a`. -/
def csumL4 (e : EditSt) (a imm : Nat) : EditSt :=
  match e.slots.find? (fun c => c.start == a) with
  | none => editSkip e
  | some c =>
    let len := c.stop - c.start
    let udp := len == 8
    if !(udp || (20 ≤ len && len ≤ 60)) || (imm = 0 && !udp) then editSkip e
    else
      let f := a + (if udp then 6 else 16)
      if f + 2 > e.buf.length then editSkip e
      else if imm = 0 then { e with buf := overlay e.buf f [0, 0] }
      else
        let ip := (e.slots.filter (fun c => (c.l3 == 1 || c.l3 == 2) && decide (c.start < a))).foldl
          (fun (b : Option Slot) c => match b with
            | none => some c
            | some d => if d.start ≤ c.start then some c else b) none
        let old := beAt e.buf f 2
        if udp && old == 0 && (ip.map (·.l3)).getD 0 == 1 then e
        else
          let cov (p : Nat) : Option Bool :=
            if a ≤ p then some ((p - a) % 2 == 0)
            else
              match ip with
              | some c =>
                let lo := c.start + (if c.l3 = 1 then 12 else 8)
                let hi := c.start + (if c.l3 = 1 then 20 else 40)
                if lo ≤ p && p < hi then some ((p - lo) % 2 == 0) else none
              | none => none
          let c := e.writes.foldl (fun c w => match cov w.1 with
            | some hi => csumAdj c hi w.2.1 w.2.2
            | none => c) old
          let c := if udp && c == 0 then 65535 else c
          { e with buf := overlay e.buf f (beBytes 2 c) }

/-- R142, R143: one micro-op; `d` is ACTION_DATA. -/
def editOp (s : State) (d : Nat) (e : EditSt) (m : Bytes) : EditSt :=
  let op := byteAt m 0
  let abs := bit (byteAt m 1) 5
  let len := byteAt m 3
  let imm := leAt m 4 4
  if op = 0 then e
  else
    match (if abs then some 0 else (slotOf e.slots (byteAt m 1 % 32)).map (·.start)) with
    | none => editSkip e
    | some base =>
      let a := base + byteAt m 2
      match op with
      | 1 => if a + len ≤ e.buf.length then editWrite e a (beBytes len imm) else editSkip e
      | 2 => if a + len ≤ e.buf.length then editWrite e a (beBytes len d) else editSkip e
      | 3 =>
        match slotOf e.slots (byteAt m 2) with
        | none => editSkip e
        | some c => if c.stop < base then editSkip e else editRemove e base c.stop
      | 4 => if a ≤ e.buf.length then editInsert e a (slice (SMap.get [] s.win.tmpl (imm % 1024)) 0 len) else editSkip e
      | 5 => if a < e.buf.length then decTtl e a else editSkip e
      | 6 =>
        match e.decl with
        | none => editSkip e
        | some l =>
          if a + 2 ≤ e.buf.length then editWrite e a (beBytes 2 (ofSigned 16 (l - (a : Int) + toSigned 16 imm))) else editSkip e
      | 7 => if a < e.buf.length then csumL3 e a else editSkip e
      | _ => csumL4 e a imm

/-- R142: a program run over a frame. -/
def runEdit (s : State) (prog f : Bytes) (slots : List Slot) (decl : Option Nat) (d : Nat) : EditSt :=
  (microOps prog 8).foldl (editOp s d)
    { buf := f, slots := slots, decl := decl.map (fun n => (n : Int)), writes := [], skips := 0, ttl := false }

end Sys2Proof.Machine
end

