-- ==== Sys2Proof/Machine/TlyOps.lean ====
section
/-! DEFINITION. Tallyman: the scheduler tree, shapers, eligibility, selection, gate lists, policers (R211 to R239).
Log entries 163, 170, 171. -/

namespace Sys2Proof.Machine

open Sys2Proof

/-- Member keys: egress point e is e, node n is 256 + n, queue q is 8192 + q. -/
def kNode (n : Nat) : Nat := 256 + n
def kQueue (q : Nat) : Nat := 8192 + q

def tNode (s : State) (n : Nat) : Member := SMap.get Member.none s.tly.nodes n
def tQueue (s : State) (q : Nat) : Member := SMap.get Member.none s.tly.queues q

/-- The member behind a key; an egress point is none. -/
def tMember (s : State) (k : Nat) : Member :=
  if k < 256 then Member.none else if k < 8192 then tNode s (k - 256) else tQueue s (k - 8192)

def parentKey (m : Member) : Nat := if m.root then m.parent % 256 else kNode m.parent

/-- The keys from a member's parent up to its egress point. -/
def pathUp (s : State) (fuel k : Nat) : List Nat :=
  match fuel with
  | 0 => []
  | fuel + 1 => if k < 256 then [k] else k :: pathUp s fuel (parentKey (tMember s k))

/-- The keys from a queue up to its egress point, the queue first (R211: at most six members). -/
def queuePath (s : State) (q : Nat) : List Nat := pathUp s 6 (kQueue q)

/-- R212: the egress point at the root of a queue's path; none for a queue whose entry is not VALID. -/
def queueEp (s : State) (q : Nat) : Option Nat :=
  if (tQueue s q).valid then (queuePath s q).getLast? else none

/-- The valid children of a member, nodes before queues, rising (R218). -/
def children (s : State) (k : Nat) : List Nat :=
  (s.tly.nodes.filter (fun e => e.2.valid && parentKey e.2 == k)).map (fun e => kNode e.1)
    ++ (s.tly.queues.filter (fun e => e.2.valid && parentKey e.2 == k)).map (fun e => kQueue e.1)

/-- The level of a member: its distance from its egress point. -/
def levelOf (s : State) (k : Nat) : Nat := (pathUp s 6 k).length - 1

def queueList (s : State) (q : Nat) : List QEnt := SMap.get [] s.grn.q q
def deepList (s : State) (q : Nat) : List QEnt := SMap.get [] s.grn.deep q

/-- R217: whether a queue holds a frame. -/
def backlogged (s : State) (q : Nat) : Bool := !(queueList s q).isEmpty || !(deepList s q).isEmpty

/-- Whether a member holds a frame, below a depth. -/
def busyKey (s : State) (fuel k : Nat) : Bool :=
  if k ≥ 8192 then backlogged s (k - 8192)
  else
    match fuel with
    | 0 => false
    | fuel + 1 => (children s k).any (busyKey s fuel)

/-- A frame that nothing stores. -/
def Pkt.none : Pkt :=
  { data := [], origin := 255, inst := 0, tc := 0, domain := 0, profile := 0, pipe := 0, hash := 0, port := .none,
    octet := .none, ts := 0, raw := 0, fault := .none, poison := false, pass2 := false, node := .none, espSeq := 0, hop := .none, cth := false, tx := .none }

def GFrame.none : GFrame :=
  { pkt := Pkt.none, cells := [], place := [], bad := [], refs := 0, lossless := false, sess := .none, slots := [], decl := .none,
    actData := 0, exc := 0, tc := 0 }

def gframe (s : State) (fid : Nat) : GFrame := SMap.get GFrame.none s.grn.frames fid

/-- R142: a queued frame after its edit program. -/
def edited (s : State) (x : QEnt) : EditSt :=
  let f := gframe s x.fid
  runEdit s (editProg s x.edit) f.pkt.data f.slots f.decl f.actData

def portCfg (s : State) (p : Nat) : PortCfg := SMap.get PortCfg.off s.eth.cfg p

/-- R62, R64: whether the last valid APPLY gave an octet to a Sahrov link: no Ethernet mode of port 8o has SPEED 7. -/
def isSahrov (s : State) (o : Nat) : Bool := (portCfg s (8 * o)).speed == 7

/-- R223: the bytes a frame of `n` edited bytes occupies at an egress point: FCS and padding (R143) on Ethernet, header,
padding and CRC on a Sahrov link, the bytes written on a host attach point. -/
def egressLen (s : State) (e n : Nat) : Nat :=
  if e ≥ 128 then n else if isSahrov s (e / 8) then 16 + max 64 n + 4 else max 60 n + 4

/-- R223: the shaping length; a length that LEN_ADJ takes below 0 is 0. -/
def shapeLen (s : State) (e n : Nat) : Nat := ((n : Int) + toSigned 8 (s.rd R.TLY_EP_W0.LEN_ADJ [e])).toNat

/-- The shaping length of a queued frame. -/
def entLen (s : State) (e : Nat) (x : QEnt) : Nat := shapeLen s e (egressLen s e (edited s x).buf.length)

/-- ETH STATE codes of R105. -/
def epDisabled : Nat := 0
def epTraining : Nat := 1
def epUp : Nat := 2
def epHold : Nat := 3
def epDown : Nat := 4

def portState (s : State) (p : Nat) : Nat := s.rd R.ETH_PORT_STATUS.STATE [p / 8, p % 8]

/-- Gb/s of a SPEED value (R105). -/
def speedGbps (v : Nat) : Nat :=
  match v with
  | 0 => 10 | 1 => 25 | 2 => 50 | 3 => 100 | 4 => 200 | 5 => 400 | _ => 800

/-- R87: the rate of an Ethernet egress point in Gb/s. -/
def epRate (s : State) (e : Nat) : Nat :=
  if isSahrov s (e / 8) then
    (if (List.range 4).any (fun j => s.rd R.STK_LINK.OCTET [j] == e / 8 && s.flag R.STK_LINK.X4 [j]) then 423 else 847)
  else speedGbps (portCfg s e).speed

/-- The wire time of `n` bytes on an Ethernet egress point with preamble and gap, in units of 0.1 ns. -/
def wireTime (s : State) (e n : Nat) : Nat := ceilDiv ((n + 20) * 80) (max 1 (epRate s e))

/-- R449, R452: the bytes in the write buffer of attach point `a`: frames on their way to their rings, and posted writes that
wait for credits (R435). -/
def wbufFill (s : State) (a : Nat) : Nat :=
  (s.grn.host.filter (fun f => f.ap == a)).foldl (fun n f => n + f.data.length) 0
    + (s.hif.stalled.filter (fun e => e.ap == a)).foldl
        (fun n e => n + (match e.out with | .hostWrite _ _ _ d _ _ _ => d.length | _ => 0)) 0

/-- R214, R449: whether the transmitter of an egress point is ready. -/
def epReady (s : State) (e : Nat) : Bool :=
  if e ≥ 128 then s.flag R.HIF_AP_LINK.LINK_UP [e - 128] && !s.flag R.HIF_AP_LINK.IN_RESET [e - 128]
  else if isSahrov s (e / 8) then e % 8 == 0 && portState s e == epUp
  else portState s e == epUp

/-- R68: whether frames of a port may be preempted. -/
def preemptOn (s : State) (p : Nat) : Bool :=
  let c := portCfg s p
  c.preempt && (c.verifyDis || s.rd R.ETH_PORT_STATUS.VERIFY [p / 8, p % 8] == 2)

/-- The frame that a port transmits (R234). -/
def setTx (s : State) (e : Nat) (t : TxNow) : State := { s with eth := { s.eth with tx := SMap.ins s.eth.tx e t } }

/-- R68: where the preemptable frame in transmission can be cut: after the bytes this fragment has carried, at the earliest
after 64 × (1 + ADD_FRAG) of them, with 64 bytes or more still to come. -/
def cutPoint (s : State) (e : Nat) (t : TxNow) : Option Nat :=
  let n := max ((s.now - t.since) * epRate s e / 80 - 8) (64 * (1 + (portCfg s e).addFrag))
  if !t.express && t.held.isNone && preemptOn s e && decide (s.now < t.upTo) && decide (t.sent + n + 64 ≤ t.data.length + 4)
  then some n else none

/-- The mCRC after the bytes of a frame carried so far (R78). -/
def mcrc (b : Bytes) : Nat := crc32 b ^^^ 0xFFFF0000

/-- R68, R78: the frame in transmission is cut after `n` bytes of this fragment; its remainder. -/
def cutTx (s : State) (e : Nat) (t : TxNow) (n : Nat) : State × TxCut :=
  ((s.emit (.fragEnd e n (mcrc (t.data.take (t.sent + n))))).inc R.ETH_PORT_CNT.COUNT [e / 8, e % 8, 18],
   { tc := t.tc, data := t.data, sent := t.sent + n })

/-- The remainder of a preempted frame goes on at time `at'`. -/
def txResume (s : State) (e : Nat) (c : TxCut) (at' : Nat) : State :=
  (setTx s e { tc := c.tc, express := false, data := c.data, sent := c.sent, since := at',
               upTo := at' + wireTime s e (c.data.length + 4 - c.sent), held := none }).emit (.fragCont e)

def isExpress (s : State) (e tc : Nat) : Bool := bit (s.rd R.TLY_EP_W2.EXPRESS [e]) tc

/-- R222: whether a shaper's tokens are at least 0, where it is enabled. -/
def maxOn (s : State) (k : Nat) : Bool := if k < 256 then s.flag R.TLY_EP_W0.MAX_EN [k] else (tMember s k).maxEn
def maxTok (s : State) (k : Nat) : Int := SMap.get 0 s.tly.maxTok k
def minTok (s : State) (k : Nat) : Int := SMap.get 0 s.tly.minTok k
def withinMax (s : State) (k : Nat) : Bool := !maxOn s k || decide (0 ≤ maxTok s k)
def belowMin (s : State) (k : Nat) : Bool := (tMember s k).minEn && decide (0 ≤ minTok s k)

/-- R231: gate entry `i` of list `l` of an egress point. -/
def gateEnt (s : State) (e l i : Nat) : Bytes := SMap.get (List.replicate 8 0) s.tly.gate ((e * 2 + l) * 1024 + i)
def gateOp (b : Bytes) : Nat := byteAt b 0 % 4
def gateBits (b : Bytes) : Nat := byteAt b 1
def gateNs (b : Bytes) : Nat := leAt b 4 4

def operSel (s : State) (e : Nat) : Nat := s.rd R.TLY_GATE.OPER_SEL [e]

/-- R231: whether a gate admits at all. -/
def gateOpen (s : State) (e tc : Nat) : Bool :=
  !s.flag R.TLY_GATE.EN [e] || bit (s.rd R.TLY_GATE_OPER.OPER_GATES [e]) tc

/-- The start times (ns) and gates of a list's entries within one cycle, cut at `cyc` (R232). -/
def gateStarts (s : State) (e l cyc : Nat) (fuel i at' : Nat) : List (Nat × Nat) :=
  match fuel with
  | 0 => []
  | fuel + 1 =>
    if at' ≥ cyc then []
    else
      let g := gateEnt s e l i
      (at', gateBits g) :: gateStarts s e l cyc fuel (i + 1) (at' + gateNs g)

/-- R234: how long, in 2^-16 ns, until the next gate-close event of a TC; none where there is none within reach. -/
def nextClose (s : State) (e tc : Nat) : Option Nat :=
  let now := s.tu.t / 65536
  let cyc := s.rd R.TLY_GATE_OPER_CYCLE.OPER_CYCLE_NS [e]
  let oper : Option Nat :=
    match SMap.find? s.tly.oper e with
    | none => none
    | some o =>
      if cyc = 0 then none
      else
        let st := gateStarts s e (operSel s e) cyc o.len 0 0
        let pos := (((now : Int) - (o.base : Int) * 65536) % ((cyc * 65536 : Nat) : Int)).toNat
        let evs := st.filter (fun x => decide (x.1 * 65536 > pos)) ++ st.map (fun x => (x.1 + cyc, x.2))
        (evs.find? (fun x => !bit x.2 tc)).map (fun x => x.1 * 65536 - pos)
  let cct : Option Nat :=
    if s.flag R.TLY_GATE.PENDING [e] && !bit (gateBits (gateEnt s e (1 - operSel s e) 0)) tc then
      let c := tsMake (s.rd R.TLY_GATE_CCT_SEC_LO.CCT_SEC_LO [e] + 2 ^ 32 * s.rd R.TLY_GATE_CCT_SEC_HI.CCT_SEC_HI [e])
        (s.rd R.TLY_GATE_CCT_NS.CCT_NS [e]) 0
      some (c - now)
    else none
  match oper, cct with
  | some a, some b => some (min a b)
  | some a, none => some a
  | none, b => b

/-- R234: whether a frame of `n` bytes at the egress point may start under its gate. -/
def gateFits (s : State) (e tc n : Nat) : Bool :=
  if !s.flag R.TLY_GATE.EN [e] then true
  else
    let pre := preemptOn s e && !isExpress s e tc
    let bytes := if pre then min n (64 * (1 + (portCfg s e).addFrag)) + 20 else n + 20
    match nextClose s e tc with
    | none => true
    | some c => decide (bytes * 8 * 65536 ≤ c * epRate s e)

/-- R233, R234: whether hold or a waiting remainder keeps a preemptable frame from starting. -/
def preemptStop (s : State) (e tc : Nat) : Bool :=
  preemptOn s e && !isExpress s e tc &&
    (s.flag R.TLY_GATE.HOLD [e] ||
      (match SMap.find? s.eth.tx e with
       | some t => t.held.isSome
       | none => false))

/-- R447: whether the ring that a queue delivers to is held. -/
def rxHeld (s : State) (q : Nat) : Bool :=
  s.dom.rings.any (fun e => ringSt s e.1 == rsHeld && ringType s e.1 == 1 && e.2.queue == q)

/-- R217: whether a queue is eligible at egress point `e`. -/
def queueElig (s : State) (e q : Nat) : Bool :=
  match queueList s q with
  | [] => false
  | x :: _ =>
    let tc := (tQueue s q).tc
    withinMax s (kQueue q) &&
      (if e ≥ 128 then !rxHeld s q && decide (wbufFill s (e - 128) + (edited s x).buf.length ≤ 262144)
       else
        !bit (s.rd R.TLY_EP_W2.PAUSED [e]) tc && gateOpen s e tc
          && gateFits s e tc (egressLen s e (edited s x).buf.length) && !preemptStop s e tc)

/-- R217: whether a member below the egress point is eligible. -/
def eligible (s : State) (e fuel k : Nat) : Bool :=
  if k ≥ 8192 then queueElig s e (k - 8192)
  else
    match fuel with
    | 0 => false
    | fuel + 1 => (children s k).any (eligible s e fuel) && withinMax s k

/-- R219: whether finish tag `a` precedes `b` modulo 2^48. -/
def tagBefore (a b : Nat) : Bool := a ≠ b && decide ((b + 2 ^ 48 - a % 2 ^ 48) % 2 ^ 48 < 2 ^ 47)

def vOf (s : State) (k : Nat) : Nat := SMap.get 0 s.tly.v k
def fOf (s : State) (k : Nat) : Nat := SMap.get 0 s.tly.f k

/-- The child with the smallest finish tag, the first among equal ones. -/
def minTag (s : State) (cs : List Nat) : Option Nat :=
  cs.foldl (fun b c => match b with
    | none => some c
    | some d => if tagBefore (fOf s c) (fOf s d) then some c else some d) none

/-- R218: the children served one after the other, starting after the one served last. -/
def roundRobin (s : State) (k lvl : Nat) (cs : List Nat) : Option Nat :=
  let l := SMap.get 0 s.tly.last (k * 8 + lvl)
  match cs.find? (fun c => decide (c ≥ l)) with
  | some c => some c
  | none => cs.head?

/-- R218: what a parent picks among its eligible children, with its rank: 0 to 7 strict, 8 below its minimum, 9
weighted. -/
def pick (s : State) (e fuel k : Nat) : Option (Nat × Nat) :=
  let el := (children s k).filter (eligible s e fuel)
  match (List.range 8).find? (fun l => el.any (fun c => (tMember s c).sp == l)) with
  | some l => (roundRobin s k l (el.filter (fun c => (tMember s c).sp == l))).map (fun c => (c, l))
  | none =>
    match minTag s (el.filter (belowMin s)) with
    | some c => some (c, 8)
    | none => (minTag s el).map (fun c => (c, 9))

/-- The queue chosen from a member down, with the rank at each level (R218). -/
def descend (s : State) (e fuel k : Nat) : Option (Nat × List Nat) :=
  match fuel with
  | 0 => none
  | fuel + 1 =>
    match pick s e fuel k with
    | none => none
    | some (c, r) =>
      if c ≥ 8192 then some (c - 8192, [r])
      else (descend s e fuel c).map (fun x => (x.1, r :: x.2))

/-- R217, R218: the frame an egress point chooses. -/
def choose (s : State) (e : Nat) : Option Sel :=
  if epReady s e && withinMax s e then (descend s e 6 e).map (fun x =>
    { q := x.1, ranks := x.2, weights := (((queuePath s x.1).dropLast).reverse).map (fun k => (tMember s k).weight) }) else none

/-- R219: the cost of a frame for a child. -/
def tagCost (w len : Nat) : Nat := max 1 (len * 4096 / max 1 w)

/-- The queue whose head is a member's head: the frame its own selection would pick, or else the head of its first
backlogged queue. -/
def headQueue (s : State) (e fuel k : Nat) : Option Nat :=
  if k ≥ 8192 then some (k - 8192)
  else
    match descend s e fuel k with
    | some x => some x.1
    | none =>
      match fuel with
      | 0 => none
      | fuel + 1 => ((children s k).find? (busyKey s 6)).bind (headQueue s e fuel)

/-- The shaping length of a member's head frame. -/
def headLen (s : State) (e k : Nat) : Nat :=
  match headQueue s e 5 k with
  | none => 0
  | some q =>
    match queueList s q ++ deepList s q with
    | x :: _ => entLen s e x
    | [] => 0

def stOf (s : State) (k : Nat) : Nat := SMap.get 0 s.tly.st k

/-- The tags of a weighted child: before its head's cost, and its finish tag. -/
def setTag (s : State) (k st f : Nat) : State :=
  { s with tly := { s.tly with st := SMap.set 0 s.tly.st k st, f := SMap.set 0 s.tly.f k (f % 2 ^ 48) } }

/-- R219: a frame becomes the head of weighted child `k`. -/
def onNewHead (s : State) (e k : Nat) : State :=
  let m := tMember s k
  if m.sp ≠ 8 then s
  else
    let v := vOf s (parentKey m)
    let f := fOf s k
    let f := if tagBefore f v then v else f
    setTag s k f (f + tagCost m.weight (headLen s e k))

/-- R219, R221: another frame stands at the head of backlogged weighted child `k` before the former head has started: the tag
carries the cost of the new head in place of the former's, or none where no frame is left. -/
def retag (s : State) (e k : Nat) : State :=
  let m := tMember s k
  if m.sp ≠ 8 then s
  else if busyKey s 6 k then setTag s k (stOf s k) (stOf s k + tagCost m.weight (headLen s e k))
  else setTag s k (stOf s k) (stOf s k)

/-- R219: queue `q` has become backlogged; each parent that was empty before it gains a head too, and the head of one that was
not may have changed. -/
def onBacklog (s : State) (e : Nat) (fuel k : Nat) : State :=
  match fuel with
  | 0 => s
  | fuel + 1 =>
    if k < 256 then s
    else
      let s := onNewHead s e k
      let p := parentKey (tMember s k)
      if p < 256 then s
      else if (children s p).any (fun c => c ≠ k && busyKey s 6 c) then (pathUp s 6 p).foldl (fun s k => if k < 256 then s else retag s e k) s
      else onBacklog s e fuel p

/-- The members of a queue's path from the egress point's child down to the queue, with the ranks they were picked at and their
weights then. -/
def selPath (s : State) (x : Sel) : List (Nat × Nat × Nat) :=
  (((queuePath s x.q).dropLast).reverse).zip (x.ranks.zip x.weights)

/-- R219, R221: a frame of shaping length `len` of the selection has started: each weighted child on its path is charged for it, V
follows under step 3 of R218, and the round robin of a strict level goes on; the root level first. -/
def onStart (s : State) (x : Sel) (len : Nat) : State :=
  (selPath s x).foldl (fun s (c : Nat × Nat × Nat) =>
    let p := parentKey (tMember s c.1)
    if c.2.1 < 8 then { s with tly := { s.tly with last := SMap.set 0 s.tly.last (p * 8 + c.2.1) (c.1 + 1) } }
    else
      let s := setTag s c.1 (stOf s c.1) (stOf s c.1 + tagCost c.2.2 len)
      if c.2.1 = 9 then { s with tly := { s.tly with v := SMap.set 0 s.tly.v p (fOf s c.1) } } else s) s

/-- A member's MAX tokens, and MIN tokens, replaced. -/
def setMaxTok (s : State) (k : Nat) (v : Int) : State :=
  { s with tly := { s.tly with maxTok := SMap.set 0 s.tly.maxTok k v } }

def setMinTok (s : State) (k : Nat) (v : Int) : State :=
  { s with tly := { s.tly with minTok := SMap.set 0 s.tly.minTok k v } }

/-- R223: `8 × len` bits taken from every enabled shaper on a queue's path. -/
def charge (s : State) (q len : Nat) : State :=
  (queuePath s q).foldl (fun s k =>
    let s := if maxOn s k then setMaxTok s k (maxTok s k - ((8 * len : Nat) : Int)) else s
    if (tMember s k).minEn then setMinTok s k (minTok s k - ((8 * len : Nat) : Int)) else s) s

/-- R217, R220: whether a selected frame is still eligible itself, with every member of its path. -/
def selElig (s : State) (e : Nat) (x : Sel) : Bool :=
  epReady s e && withinMax s e && queueElig s e x.q && (selPath s x).all (fun c => withinMax s c.1)

/-- R220: whether a selected frame is displaced: its own eligibility ended, or a child of a higher rank is eligible at a
level of its path. -/
def displaced (s : State) (e : Nat) (x : Sel) : Bool :=
  !selElig s e x ||
    (selPath s x).any (fun c =>
        (match pick s e 5 (parentKey (tMember s c.1)) with
         | some (_, r) => decide (r < c.2.1)
         | none => true))

/-- R224: a token count after one refill. -/
def refill (tok : Int) (rate burst : Nat) : Int := min (tok + (rate : Int)) ((burst * 512 : Nat) : Int)

/-- R224: every enabled shaper of the tree refilled once. -/
def refillTree (s : State) : State :=
  let s := (List.range 136).foldl (fun s e =>
    if s.flag R.TLY_EP_W0.MAX_EN [e] then
      setMaxTok s e (refill (maxTok s e) (s.rd R.TLY_EP_W0.MAX_RATE [e]) (s.rd R.TLY_EP_W1.MAX_BURST [e]))
    else s) s
  let one (s : State) (k : Nat) (m : Member) : State :=
    let s := if m.maxEn then setMaxTok s k (refill (maxTok s k) m.maxRate m.maxBurst) else s
    if m.minEn then setMinTok s k (refill (minTok s k) m.minRate m.minBurst) else s
  let s := s.tly.nodes.foldl (fun s x => one s (kNode x.1) x.2) s
  s.tly.queues.foldl (fun s x => one s (kQueue x.1) x.2) s

/-- R224, R226: a policer's buckets after one refill. -/
def polRefill (p : Pol) : Pol :=
  let c := p.tc + p.cir
  let cap := p.cbs * 8
  let spill := if p.mode = 2 then c - cap else 0
  { p with tc := min c cap, tp := min (p.tp + p.pir + spill) (p.pbs * 8) }

def polGet (s : State) (n : Nat) : Pol := SMap.get Pol.none s.tly.pol n
def polPut (s : State) (n : Nat) (p : Pol) : State := { s with tly := { s.tly with pol := SMap.set Pol.none s.tly.pol n p } }

/-- R224: one refill of every shaper and policer. -/
def shaperRefill (s : State) : State :=
  let s := refillTree s
  { s with tly := { s.tly with pol := SMap.mapVal (fun p => if p.valid then polRefill p else p) s.tly.pol } }

/-- R227: the colour (0 green, 1 yellow, 2 red) and the buckets after metering `b` bits. -/
def polColour (p : Pol) (pre b : Nat) : Nat × Pol :=
  if p.mode = 0 then
    if pre = 2 || p.tp < b then (2, p)
    else if pre = 1 || p.tc < b then (1, { p with tp := p.tp - b })
    else (0, { p with tp := p.tp - b, tc := p.tc - b })
  else if pre = 0 && p.tc ≥ b then (0, { p with tc := p.tc - b })
  else if pre ≠ 2 && p.tp ≥ b then (1, { p with tp := p.tp - b })
  else (2, p)

/-- R227 to R229: policer `n` meters a frame of `len` bytes with pre-colour `pre`: its colour, whether it is dropped, and
the traffic class it is given. An invalid policer passes it green and unmetered (R244). -/
def police (s : State) (n pre len : Nat) : State × Nat × Bool × Option Nat :=
  let p := polGet s n
  if !p.valid then (s, 0, false, none)
  else
    let (c, p) := polColour p (if p.aware then pre else 0) (8 * len)
    let p := if c = 0 then { p with green := p.green + 1 } else if c = 1 then { p with yellow := p.yellow + 1 }
             else { p with red := p.red + 1 }
    let s := (polPut s n p).inc R.TLY_CNT.COUNT [2]
    let act := if c = 0 then 0 else if c = 1 then p.yAct else p.rAct
    if act = 1 then (s.inc R.TLY_CNT.COUNT [if c = 1 then 1 else 0], c, true, none)
    else (s, c, false, if act = 2 then some p.altTc else none)

/-- A gate entry put in force on an egress point (R232, R233). -/
def gateApply (s : State) (e i : Nat) : State :=
  let g := gateEnt s e (operSel s e) i
  let s := (s.wr R.TLY_GATE_OPER.OPER_INDEX [e] i).wr R.TLY_GATE_OPER.OPER_GATES [e] (gateBits g)
  if !preemptOn s e then s
  else if gateOp g = 1 then s.wr R.TLY_GATE.HOLD [e] 1
  else if gateOp g = 2 then s.wr R.TLY_GATE.HOLD [e] 0
  else s

/-- R233, R234: whether hold or a closed gate keeps a remainder waiting. -/
def remainderStop (s : State) (e : Nat) (c : TxCut) : Bool := s.flag R.TLY_GATE.HOLD [e] || !gateOpen s e c.tc

/-- A remainder goes on once the express frames before it have gone out. -/
def txSettle (s : State) (e : Nat) : State :=
  match SMap.find? s.eth.tx e with
  | none => s
  | some t =>
    match t.held with
    | some c => if decide (t.upTo ≤ s.now) && !remainderStop s e c then txResume s e c t.upTo else s
    | none => s

/-- R233, R234: a preemptable frame in transmission whose gate has closed, or on which hold is asserted, keeps its
remainder waiting; a remainder whose gate is open again goes on. -/
def gateTx (s : State) (e : Nat) : State :=
  match SMap.find? s.eth.tx e with
  | none => s
  | some t =>
    let hold := s.flag R.TLY_GATE.HOLD [e]
    match t.held with
    | some c => if decide (t.upTo ≤ s.now) && !remainderStop s e c then txResume s e c s.now else s
    | none =>
      if hold || !gateOpen s e t.tc then
        match cutPoint s e t with
        | none => s
        | some n =>
          let (s, c) := cutTx s e t n
          (setTx s e { t with upTo := t.since + wireTime s e (n + 4), held := some c }).inc R.TLY_EP_CNT.COUNT
            [e, if hold then 4 else 5]
      else s

end Sys2Proof.Machine
end

