-- ==== Sys2Proof/Machine/GrnOps.lean ====
section
/-! DEFINITION. Granary: pools, admission, charges and their release, enqueue, copies, multicast, the deep buffer, flushes
(R168 to R205, R679).
Log entries 14, 41, 42, 43, 44, 45, 142, 167, 168, 169. -/

namespace Sys2Proof.Machine

open Sys2Proof

/-- The cells of `n` bytes. -/
def cellsOf (n : Nat) : Nat := max 1 (ceilDiv n 256)

/-- R29, R165: whether bank group `g` belongs to the shared memory: it is not gated OFF in ACTIVE or TRIMMED. A group that
DORMANT gates keeps its cells. -/
def groupOn (s : State) (g : Nat) : Bool := bit (s.rd R.PWR_DOM_ON.ON [4]) g || decide (s.rd R.PWR_STATUS.STATE [] ≥ 2)

/-- R29, R165: the cells of the bank groups in the shared memory, 65,536 each. -/
def memCells (s : State) : Nat := 65536 * ((List.range 8).filter (groupOn s)).length

/-- R29, R173: the shared pool's size under the current registers; below 0 for an impossible configuration. -/
def sharedSize (s : State) : Int :=
  (memCells s : Int) - 4096 - (s.rd R.GRN_POOL.RESERVE [] : Int) - (s.rd R.GRN_POOL_HR.HEADROOM [] : Int)
    - ((8192 * popCount 16 (s.rd R.GRN_PARK_CFG.EN []) : Nat) : Int)

/-- Free shared cells. -/
def sharedFree (s : State) : Nat := (sharedSize s - (s.grn.shared : Int)).toNat

/-- GRN_FREE follows the pools (R206). -/
def grnShow (s : State) : State := s.wr R.GRN_FREE.SHARED_FREE [] (sharedFree s)

/-- R165: the bank pair that holds cell `c`; its bank group is a fourth of it. -/
def cellPair (c : Nat) : Nat := c / 16384 % 32

/-- The free cells of bank pair `j`. -/
def pairFree (s : State) (j : Nat) : Nat := 16384 - (s.grn.used.filter (fun e => cellPair e.1 == j)).length

/-- R166: the pair a write takes: of the powered pairs that are not `closed` by a read or an earlier write of the cycle, the one
with the most free cells, the lowest of equal ones; none where no such pair has a free cell. -/
def bestPair (s : State) (closed : List Nat) : Option Nat :=
  (List.range 32).foldl (fun b j =>
    if closed.contains j || !groupOn s (j / 4) || pairFree s j = 0 then b
    else
      match b with
      | none => some j
      | some k => if pairFree s k < pairFree s j then some j else b) none

/-- The first free row of pair `j` from row `r` on. -/
def freeRow (s : State) (j r fuel : Nat) : Nat :=
  match fuel with
  | 0 => r
  | fuel + 1 => if SMap.get 0 s.grn.used (j * 16384 + r) = 0 then r else freeRow s j ((r + 1) % 16384) fuel

/-- A reference taken on a cell, or given back. -/
def holdCell (s : State) (c : Nat) : State :=
  { s with grn := { s.grn with used := SMap.set 0 s.grn.used c (SMap.get 0 s.grn.used c + 1) } }

def freeCell (s : State) (c : Nat) : State :=
  { s with grn := { s.grn with used := SMap.set 0 s.grn.used c (SMap.get 0 s.grn.used c - 1) } }

/-- R166: the pipelines in the order in which a cycle places their writes. -/
def writeOrder (s : State) (ws : List Nat) : List Nat :=
  ws.filter (fun p => decide (s.grn.turn ≤ p)) ++ ws.filter (fun p => decide (p < s.grn.turn))

/-- R166: one CLK_PIPE cycle: the writes of pipelines `ws` placed one by one, each in a pair that neither a read nor an earlier
write of the cycle uses, from row `r` on. The parts are the cells written and the pipelines whose write waits. -/
def writeCycle (s : State) (reads ws : List Nat) (r : Nat) : State × List (Nat × Nat) × List Nat :=
  let s' := { s with grn := { s.grn with turn := (s.grn.turn + 1) % 16 } }
  (writeOrder s ws).foldl (fun (a : State × List (Nat × Nat) × List Nat) p =>
    match bestPair a.1 (reads ++ a.2.1.map (fun w => cellPair w.2)) with
    | some j =>
      let c := j * 16384 + freeRow a.1 j (r % 16384) 16384
      (holdCell a.1 c, a.2.1 ++ [(p, c)], a.2.2)
    | none => (a.1, a.2.1, a.2.2 ++ [p])) (s', [], [])

/-- R166: at most 16 pairs are read in a cycle: those of a mask, or of its complement. -/
def readPairs (m : Nat) : List Nat :=
  let l := (List.range 32).filter (bit m)
  if l.length ≤ 16 then l else (List.range 32).filter (fun j => !bit m j)

/-- R166: a cell written by pipeline `p`, in the first cycle that has an open pair for it: it waits in the write buffer through
cycles with the reads `ms`, and at last for one without. -/
def writeCell (s : State) (p : Nat) (ms : List Nat) (r : Nat) : State × Nat :=
  match ms with
  | [] =>
    match writeCycle s [] [p] r with
    | (s, (_, c) :: _, _) => (s, c)
    | (s, [], _) => (s, 0)
  | m :: rest =>
    match writeCycle s (readPairs m) [p] r with
    | (s, (_, c) :: _, _) => (s, c)
    | (s, [], _) => writeCell s p rest r

/-- R165, R166: `n` cells written by pipeline `p`; which pairs are read meanwhile, and the row in a pair, are the free value
`r`. -/
def writeCells (s : State) (p r : Nat) (n : Nat) : State × List Nat :=
  match n with
  | 0 => (s, [])
  | n + 1 =>
    let (s, c) := writeCell s p [bits r 0 32, bits r 32 32, bits r 64 32] (bits r 96 14)
    let (s, l) := writeCells s p (r / 2 ^ 110) n
    (s, c :: l)

/-- R165, R166: new cells for `n` cells' worth of bytes that pipeline `p` writes. -/
def newCells (s : State) (p n : Nat) : State × List Nat :=
  let (r, s) := s.freeBits (110 * n)
  writeCells s p r n

/-- R171, R212: the buffer profile of a usable queue. -/
def queueProf (s : State) (q : Nat) : Option Nat :=
  let m := SMap.get 0 s.grn.qmap q
  if bit m 7 && (tQueue s q).valid then some (m % 64) else none

def qCells (s : State) (q : Nat) : Nat := SMap.get 0 s.grn.qcells q

/-- R175: the sum of MIN over the mapped queues. -/
def reserveSum (s : State) (qmap : SMap Nat) : Nat :=
  qmap.foldl (fun a e => if bit e.2 7 then a + s.rd R.GRN_QPROF_W0.MIN [e.2 % 64] else a) 0

/-- R183: the headroom sum. -/
def headroomSum (s : State) : Nat :=
  (List.range 128).foldl (fun a i =>
    let n := popCount 8 (s.rd R.GRN_IN_CFG_W0.LOSSLESS_PRI [i])
    if n = 0 then a else a + n * s.rd R.GRN_PFC_PROF_W2.HEADROOM [s.rd R.GRN_IN_CFG_W0.PFC_PROF [i]]) 0

/-- R180: the ingress account of a packet: its Ethernet port, or the internal input of its pipeline. -/
def acctOf (p : Pkt) : Nat := match p.port with
  | some n => n
  | none => 128 + p.pipe

def acctKey (p : Pkt) : Nat := acctOf p * 8 + p.tc % 8

/-- The PFC profile of an account. -/
def pfcProf (s : State) (a : Nat) : Nat := s.rd R.GRN_IN_CFG_W0.PFC_PROF [a]

def xoff (s : State) (a pri : Nat) : Bool := bit (s.rd R.GRN_IN_CFG_W1.XOFF_STATE [a]) pri

/-- R180: whether a frame to a queue of profile `pf` is lossless. -/
def isLossless (s : State) (p : Pkt) (pf : Nat) : Bool :=
  bit (s.rd R.GRN_IN_CFG_W0.LOSSLESS_PRI [acctOf p]) (p.tc % 8) && s.flag R.GRN_QPROF_W0.LOSSLESS [pf]

/-- R182: PFC or PAUSE sent for a priority of an Ethernet account. -/
def sendPfc (s : State) (a pri quanta : Nat) : State :=
  if a ≥ 128 then s
  else
    let c := portCfg s a
    if c.pause then (s.emit (.pause a quanta)).inc R.ETH_PORT_CNT.COUNT [a / 8, a % 8, 17]
    else if c.pfc then (s.emit (.pfc a (2 ^ pri) quanta)).inc R.ETH_PORT_CNT.COUNT [a / 8, a % 8, 17]
    else s

/-- R182: XOFF is set once the shared cells of a priority reach XOFF. -/
def xoffCheck (s : State) (a pri : Nat) : State :=
  if !xoff s a pri && decide (SMap.get 0 s.grn.acct (a * 8 + pri) ≥ s.rd R.GRN_PFC_PROF_W0.XOFF [pfcProf s a]) then
    let s := s.wr R.GRN_IN_CFG_W1.XOFF_STATE [a] (setBit (s.rd R.GRN_IN_CFG_W1.XOFF_STATE [a]) pri true)
    sendPfc s a pri (s.rd R.GRN_PFC_PROF_W3.QUANTA [pfcProf s a])
  else s

/-- R182: XOFF clears once the count falls to XON. A port with PAUSE_EN resumes when no priority is in XOFF. -/
def xonCheck (s : State) (a pri : Nat) : State :=
  if xoff s a pri && decide (SMap.get 0 s.grn.acct (a * 8 + pri) ≤ s.rd R.GRN_PFC_PROF_W1.XON [pfcProf s a]) then
    let s := s.wr R.GRN_IN_CFG_W1.XOFF_STATE [a] (setBit (s.rd R.GRN_IN_CFG_W1.XOFF_STATE [a]) pri false)
    if a < 128 && (portCfg s a).pause && s.rd R.GRN_IN_CFG_W1.XOFF_STATE [a] ≠ 0 then s else sendPfc s a pri 0
  else s

/-- What admission decides. -/
inductive Adm where
  | ok (cells : List Pool)
  /-- The GRN_PORT_CNT index of the failing test. -/
  | refuse (n : Nat)
  | headroom
deriving DecidableEq, Repr

/-- R177, R183: where the cells of an admitted frame come from, one after the other: `occ` the queue's occupancy, `mn`
its MIN, `free` the free shared cells, `pri` the shared cells of the lossless priority with its XOFF, `hr` the headroom
cells left (none where headroom is not used). A frame that must be taken (`must`: its queue was below MIN, R176) goes on in
shared cells and skid when headroom is short. None: more headroom than is left. -/
def allocCells (n occ mn free : Nat) (lossless must : Bool) (pri xoffAt : Nat) (stopped : Bool) (hr : Option Nat) :
    Option (List Pool) :=
  match n with
  | 0 => some []
  | n + 1 =>
    if occ < mn then (allocCells n (occ + 1) mn free lossless must pri xoffAt stopped hr).map (Pool.reserve :: ·)
    else
      let useHead := lossless && stopped && hr.isSome && !(must && hr == some 0)
      if useHead then
        match hr with
        | some (h + 1) => (allocCells n (occ + 1) mn free lossless must pri xoffAt stopped (some h)).map (Pool.headroom :: ·)
        | _ => none
      else if free = 0 then (allocCells n (occ + 1) mn 0 lossless must pri xoffAt stopped hr).map (Pool.skid :: ·)
      else
        (allocCells n (occ + 1) mn (free - 1) lossless must (pri + 1) xoffAt (stopped || pri + 1 ≥ xoffAt) hr).map
          (Pool.shared :: ·)

/-- R176, R181, R183: the admission decision for `n` cells of a packet to queue `q` of profile `pf` at egress point
`ep`. -/
def admitFrame (s : State) (p : Pkt) (q pf ep n : Nat) : Adm :=
  let occ := qCells s q
  let mn := s.rd R.GRN_QPROF_W0.MIN [pf]
  let f := sharedFree s
  let lossless := isLossless s p pf
  let alpha := s.rd R.GRN_QPROF_W0.ALPHA [pf]
  let a := acctOf p
  let prof := pfcProf s a
  let alloc : Adm :=
    let hr := if a < 128 then
        some (s.rd R.GRN_PFC_PROF_W2.HEADROOM [prof] - SMap.get 0 s.grn.head (acctKey p)) else none
    match allocCells n occ mn f lossless (decide (occ < mn)) (SMap.get 0 s.grn.acct (acctKey p)) (s.rd R.GRN_PFC_PROF_W0.XOFF [prof])
        (xoff s a (p.tc % 8)) hr with
    | some l => .ok l
    | none => .headroom
  if occ < mn then alloc
  else if !lossless && !(decide (occ < s.rd R.GRN_QPROF_W1.QMAX [pf])
      && (alpha == 7 || decide ((occ - mn) * 16 < f * 2 ^ alpha))) then .refuse 2
  else if !lossless && decide (s.rd R.GRN_PORT_W1.USED [ep] ≥ s.rd R.GRN_PORT_W0.LIMIT [ep]) then .refuse 3
  else if s.rd R.GRN_DOM_W1.USED [p.domain] ≥ s.rd R.GRN_DOM_W0.CELLS [p.domain] then .refuse 4
  else if f = 0 then .refuse 5
  else alloc

def poolCount (p : Pool) (l : List Pool) : Nat := (l.filter (· == p)).length

/-- The pools charged with cells. -/
def takePools (s : State) (l : List Pool) : State :=
  grnShow { s with grn := { s.grn with
    resv := s.grn.resv + poolCount .reserve l, shared := s.grn.shared + poolCount .shared l,
    skid := s.grn.skid + poolCount .skid l, hr := s.grn.hr + poolCount .headroom l } }

/-- The pools given back cells. -/
def givePools (s : State) (l : List Pool) : State :=
  grnShow { s with grn := { s.grn with
    resv := s.grn.resv - poolCount .reserve l, shared := s.grn.shared - poolCount .shared l,
    skid := s.grn.skid - poolCount .skid l, hr := s.grn.hr - poolCount .headroom l } }

/-- R181: the ingress account and priority of a lossless frame charged, or given back. -/
def acctTake (s : State) (p : Pkt) (l : List Pool) : State :=
  let k := acctKey p
  let s := { s with grn := { s.grn with
    acct := SMap.set 0 s.grn.acct k (SMap.get 0 s.grn.acct k + poolCount .shared l),
    head := SMap.set 0 s.grn.head k (SMap.get 0 s.grn.head k + poolCount .headroom l) } }
  xoffCheck s (acctOf p) (p.tc % 8)

def acctGive (s : State) (p : Pkt) (l : List Pool) : State :=
  let k := acctKey p
  let s := { s with grn := { s.grn with
    acct := SMap.set 0 s.grn.acct k (SMap.get 0 s.grn.acct k - poolCount .shared l),
    head := SMap.set 0 s.grn.head k (SMap.get 0 s.grn.head k - poolCount .headroom l) } }
  xonCheck s (acctOf p) (p.tc % 8)

def putFrame (s : State) (fid : Nat) (f : GFrame) : State :=
  { s with grn := { s.grn with frames := SMap.ins s.grn.frames fid f } }

/-- A new frame stored with its cells charged to pool, domain and account: it takes cells of its own, or references on those it
shares (R188); its number. -/
def storeFrame (s : State) (f : GFrame) : State × Nat :=
  let fid := s.grn.nextId
  let (s, place) := if f.place = [] then newCells s f.pkt.pipe f.cells.length else (f.place.foldl holdCell s, f.place)
  let s := { s with grn := { s.grn with nextId := fid + 1 } }
  let s := takePools (putFrame s fid { f with place := place }) f.cells
  let s := s.add R.GRN_DOM_W1.USED [f.pkt.domain] f.cells.length
  let s := if f.lossless then acctTake s f.pkt f.cells else s
  match f.sess with
  | none => (s, fid)
  | some x =>
    ({ s with grn := { s.grn with sess := SMap.set 0 s.grn.sess x (SMap.get 0 s.grn.sess x + f.cells.length) } }, fid)

/-- The first `k` cells of a frame given back to pool, domain, account and session (R188, R201). -/
def giveCells (s : State) (f : GFrame) (k : Nat) : State :=
  let l := f.cells.take k
  let s := (givePools ((f.place.take k).foldl freeCell s) l).sub R.GRN_DOM_W1.USED [f.pkt.domain] l.length
  let s := if f.lossless then acctGive s f.pkt l else s
  match f.sess with
  | none => s
  | some x => { s with grn := { s.grn with sess := SMap.set 0 s.grn.sess x (SMap.get 0 s.grn.sess x - l.length) } }

/-- A reference dropped; with the last one the frame's cells are freed (R188). -/
def dropRef (s : State) (fid : Nat) : State :=
  let f := gframe s fid
  if f.refs ≤ 1 then
    let s := giveCells s f f.cells.length
    { s with grn := { s.grn with frames := SMap.del s.grn.frames fid } }
  else putFrame s fid { f with refs := f.refs - 1 }

/-- The queue's and egress point's charge for `n` cells (R172). -/
def chargeQueue (s : State) (q ep n : Nat) : State :=
  ({ s with grn := { s.grn with qcells := SMap.set 0 s.grn.qcells q (qCells s q + n) } }).add R.GRN_PORT_W1.USED [ep] n

def unchargeQueue (s : State) (q ep n : Nat) : State :=
  ({ s with grn := { s.grn with qcells := SMap.set 0 s.grn.qcells q (qCells s q - n) } }).sub R.GRN_PORT_W1.USED [ep] n

/-- A frame that leaves queue `q` of egress point `ep`: its charges and its reference end. -/
def releaseEnt (s : State) (q ep fid : Nat) : State :=
  dropRef (unchargeQueue s q ep (gframe s fid).cells.length) fid

def setQueue (s : State) (q : Nat) (l : List QEnt) : State := { s with grn := { s.grn with q := SMap.set [] s.grn.q q l } }
def setDeep (s : State) (q : Nat) (l : List QEnt) : State := { s with grn := { s.grn with deep := SMap.set [] s.grn.deep q l } }

/-- R72: whether a port drops what arrives at enqueue. -/
def portDown (s : State) (ep : Nat) : Bool :=
  ep < 128 && (portState s ep == epDisabled || portState s ep == epTraining || portState s ep == epDown)

/-- R72, R169: an admitted frame meets the port's state at its enqueue and joins its queue. -/
def enqueue (s : State) (q ep : Nat) (x : QEnt) : State :=
  if portDown s ep then (releaseEnt s q ep x.fid).inc R.ETH_PORT_CNT.COUNT [ep / 8, ep % 8, 14]
  else
    let wasEmpty := !backlogged s q
    let s := setQueue s q (queueList s q ++ [x])
    let s := (s.inc R.GRN_PORT_CNT.COUNT [ep, 0]).add R.GRN_PORT_CNT.COUNT [ep, 1] (gframe s x.fid).cells.length
    if wasEmpty then onBacklog s ep 6 (kQueue q) else s

/-- R196: whether a frame to a long-haul queue whose on-die occupancy is `occ` goes to the deep part. -/
def goesDeep (s : State) (q pf occ : Nat) : Bool :=
  s.flag R.GRN_QPROF_W0.LONG_HAUL [pf] && s.flag R.GRN_DEEP_CFG.EN []
    && (!(deepList s q).isEmpty || decide (occ ≥ s.rd R.GRN_QPROF_W2.SPILL_THRESH [pf]))

/-- R196: the cells that await spill. -/
def awaiting (s : State) : Nat := s.grn.await.foldl (fun a x => a + (gframe s x.2).place.length) 0

/-- R196: whether Granary refuses a spill of `n` cells. -/
def spillRefused (s : State) (q pf dom n : Nat) : Bool :=
  decide (SMap.get 0 s.grn.qdeep q + n > s.rd R.GRN_QPROF_W3.DEEP_MAX [pf])
    || decide (SMap.get 0 s.grn.domDeep dom + n > s.rd R.GRN_DOM_W1.DEEP [dom] * 262144)
    || decide (s.rd R.GRN_DEEP_USED.USED [] + n > s.rd R.GRN_DEEP_CFG.SIZE [] * 4194304)
    || decide (awaiting s + n ≥ 16384)

/-- Deep cells of a queue and a domain taken or given back. -/
def deepTake (s : State) (q dom n : Nat) : State :=
  ({ s with grn := { s.grn with
    qdeep := SMap.set 0 s.grn.qdeep q (SMap.get 0 s.grn.qdeep q + n),
    domDeep := SMap.set 0 s.grn.domDeep dom (SMap.get 0 s.grn.domDeep dom + n) } }).add R.GRN_DEEP_USED.USED [] n

def deepGive (s : State) (q dom n : Nat) : State :=
  ({ s with grn := { s.grn with
    qdeep := SMap.set 0 s.grn.qdeep q (SMap.get 0 s.grn.qdeep q - n),
    domDeep := SMap.set 0 s.grn.domDeep dom (SMap.get 0 s.grn.domDeep dom - n) } }).sub R.GRN_DEEP_USED.USED [] n

/-- R195: the address of deep cell `d` in the interleaved HBM space. -/
def deepAddr (s : State) (d : Nat) : Nat := interleaved (s.rd R.GRN_DEEP_CFG.BASE [] * 2 ^ 30 + d * 256)

/-- The deep cells in use. -/
def deepUsed (s : State) : List Nat := (s.grn.deep.map (fun e => (e.2.map (·.deep)).flatten)).flatten

/-- The first deep cell from `d` on that is not in use, of `size`. -/
def freeDeep (used : List Nat) (size d fuel : Nat) : Nat :=
  match fuel with
  | 0 => d
  | fuel + 1 => if used.contains d then freeDeep used size ((d + 1) % size) fuel else d

/-- R195: `n` deep cells of a region of `size`, the free value `d` saying where the first of them lies at the earliest. -/
def newDeep (used : List Nat) (size d n : Nat) : List Nat :=
  match n with
  | 0 => []
  | n + 1 =>
    let c := freeDeep used size d (used.length + 1)
    c :: newDeep (c :: used) size ((c + 1) % size) n

/-- R196: a frame of egress point `ep` joins the deep part of queue `q`; its cells await their write to HBM. -/
def spill (s : State) (q ep : Nat) (x : QEnt) : State :=
  let f := gframe s x.fid
  let n := f.place.length
  let wasEmpty := !backlogged s q
  let (r, s) := s.freeBits 32
  let size := s.rd R.GRN_DEEP_CFG.SIZE [] * 4194304
  let cs := newDeep (deepUsed s) size (r % max 1 size) n
  let s := deepTake (unchargeQueue s q ep f.cells.length) q f.pkt.domain n
  let s := setDeep s q (deepList s q ++ [{ x with deep := cs }])
  let s := { s with grn := { s.grn with await := s.grn.await ++ [(q, x.fid)] } }
  let s := ((s.inc R.GRN_CNT.COUNT [9]).inc R.GRN_PORT_CNT.COUNT [ep, 0]).add R.GRN_PORT_CNT.COUNT [ep, 1] n
  if wasEmpty then onBacklog s ep 6 (kQueue q) else s

/-- R195, R196: the bytes of a frame written to its deep cells. -/
def deepWrite (s : State) (b : Bytes) (cs : List Nat) : State :=
  match cs with
  | [] => s
  | c :: r => deepWrite (s.hbmWrite (deepAddr s c) (b.take 256)) (b.drop 256) r

/-- R198: the bytes of `n` that deep cells hold. -/
def deepRead (s : State) (cs : List Nat) (n : Nat) : Bytes := ((cs.map (fun c => s.hbmRead (deepAddr s c) 256)).flatten).take n

/-- R196: the oldest frame that awaits spill is written to HBM, and its cells are freed; its record stays for its return. -/
def spillWrite (s : State) (q fid : Nat) : State :=
  let f := gframe s fid
  match (deepList s q).find? (fun x => x.fid == fid) with
  | none => s
  | some x =>
    let s := deepWrite s f.pkt.data x.deep
    let s := dropRef s fid
    let id := s.grn.nextId
    let s := putFrame { s with grn := { s.grn with nextId := id + 1 } } id
      { f with cells := [], place := [], refs := 1, lossless := false, sess := none }
    setDeep s q ((deepList s q).map (fun y => if y == x then { y with fid := id } else y))

/-- R197: the time one cell's spill write takes at the cap of 3.2 Tb/s, or of 2.56 Tb/s on the EV128-20, in 0.01 ns. -/
def spillCellTime : Nat := if Config.slowGrade then 80 else 64

/-- R196, R197: spill writes go on for `t` units of 0.01 ns. -/
def spillFor (s : State) (t fuel : Nat) : State :=
  match fuel, s.grn.await with
  | 0, _ => s
  | _, [] => { s with grn := { s.grn with spillTime := 0 } }
  | fuel + 1, (q, fid) :: rest =>
    let need := (gframe s fid).place.length * spillCellTime
    if need ≤ t then spillFor (spillWrite { s with grn := { s.grn with await := rest } } q fid) (t - need) fuel
    else { s with grn := { s.grn with spillTime := t } }

/-- R169, R196: an admitted frame whose charges stand joins queue `q`, on chip or in HBM; `occ` is the queue's on-die occupancy
without it. -/
def joinQueue (s : State) (q ep occ : Nat) (x : QEnt) : State :=
  match queueProf s q with
  | none => enqueue s q ep x
  | some pf =>
    if !goesDeep s q pf occ || portDown s ep then enqueue s q ep x
    else if !spillRefused s q pf (gframe s x.fid).pkt.domain (gframe s x.fid).place.length then spill s q ep x
    else if (deepList s q).isEmpty then enqueue s q ep x
    else (releaseEnt s q ep x.fid).inc R.GRN_PORT_CNT.COUNT [ep, 10]

/-- What a frame carries from Winnower into Granary. -/
structure Fwd where
  pkt : Pkt
  slots : List Slot
  decl : Option Nat
  actData : Nat
  exc : Nat
  tc : Nat
  edit : Nat
deriving DecidableEq, Repr

/-- A frame record before its cells are known. -/
def Fwd.frame (w : Fwd) (cells : List Pool) (lossless : Bool) : GFrame :=
  { pkt := w.pkt, cells := cells, place := [], bad := if w.pkt.poison then [0] else [], refs := 1, lossless := lossless,
    sess := none, slots := w.slots, decl := w.decl, actData := w.actData, exc := w.exc, tc := w.tc }

/-- R190, R191: the copy header. -/
def copyHeader (p : Pkt) (sess kind egress : Nat) : Bytes :=
  leBytes 2 p.data.length ++ [byteOf (sess + kind * 16), byteOf p.origin] ++ leBytes 2 egress ++ leBytes 2 p.domain
    ++ leBytes 4 (tsSec p.ts) ++ leBytes 4 (tsNs p.ts)

/-- R679: a stored frame waits to be written to a frame-pool buffer. -/
def deliverTo (s : State) (d : Deliv) : State := { s with grn := { s.grn with deliv := s.grn.deliv ++ [d] } }

/-- R188 to R191: one copy of frame `f`: KIND 0 ingress mirror, 1 egress mirror, 2 sample. It shares the original's cells; its
header is put in front of them. While EN is 0 it is refused (R174). -/
def makeCopy (s : State) (f : GFrame) (sess kind egress : Nat) : State :=
  let smp := kind == 2
  let cnt (s : State) (made : Bool) : State := s.inc R.GRN_CNT.COUNT [(if smp then 2 else 0) + (if made then 0 else 1)]
  let trunc := s.rd (if smp then R.GRN_SMP_W1.TRUNC else R.GRN_MIR_W1.TRUNC) [sess]
  if !s.flag R.GRN_CFG.EN [] then s.inc R.GRN_CNT.COUNT [13]
  else if trunc > 8 || (smp && trunc == 0) then cnt s false
  else
    let body := if trunc = 0 then f.pkt.data else f.pkt.data.take (trunc * 64)
    let hdr := s.flag (if smp then R.GRN_SMP_W0.HDR else R.GRN_MIR_W0.HDR) [sess]
    let chan := s.flag (if smp then R.GRN_SMP_W0.DEST_KIND else R.GRN_MIR_W0.DEST_KIND) [sess]
    let head := if hdr then copyHeader f.pkt sess kind egress else []
    let data := if chan then body else head ++ body
    let place := f.place.take (cellsOf body.length)
    let n := place.length
    let key := if smp then 16 + sess else sess
    if SMap.get 0 s.grn.sess key + n > s.rd (if smp then R.GRN_SMP_W1.CELL_MAX else R.GRN_MIR_W1.CELL_MAX) [sess]
        || sharedFree s == 0 then cnt s false
    else
      let fr := sharedFree s
      let cells := List.replicate (min n fr) Pool.shared ++ List.replicate (n - fr) Pool.skid
      let g : GFrame := { f with pkt := { f.pkt with data := data, domain := 0 }, cells := cells, place := place,
                                 bad := f.bad.filter (fun c => decide (c < n)), refs := 1,
                                 lossless := false, sess := some key, slots := [], decl := none }
      let dest := s.rd (if smp then R.GRN_SMP_W0.DEST else R.GRN_MIR_W0.DEST) [sess]
      if chan then
        let (s, fid) := storeFrame s g
        cnt (deliverTo s { fid := fid, chan := dest, kind := kind + 3, exc := f.exc, res := Res.none, tc := f.tc,
                           orig := f.pkt.data.length, pattern := 0, hdr := head }) true
      else
        match queueProf s dest, queueEp s dest with
        | some _, some ep =>
          let (s, fid) := storeFrame s g
          let occ := qCells s dest
          let s := chargeQueue s dest ep n
          cnt (joinQueue s dest ep occ { fid := fid, edit := 0, ct := false, bad := false, deep := [] }) true
        | _, _ => s.inc R.GRN_CNT.COUNT [11]

/-- R190: whether a sample session takes this frame; the session's count follows. -/
def sampleHit (s : State) (sess : Nat) : State × Bool :=
  let n := s.rd R.GRN_SMP_W2.N_M1 [sess] + 1
  let (iv, s) :=
    if s.flag R.GRN_SMP_W2.RANDOM [sess] then
      match SMap.get 0 s.grn.smpN sess with
      | 0 =>
        let (r, s) := s.freeBits 32
        (r % (2 * n - 1) + 1, s)
      | k => (k, s)
    else (n, s)
  let c := SMap.get 0 s.grn.smp sess + 1
  let hit := decide (c ≥ iv)
  ({ s with grn := { s.grn with smp := SMap.set 0 s.grn.smp sess (if hit then 0 else c),
                                smpN := SMap.set 0 s.grn.smpN sess (if hit then 0 else iv) } }, hit)

/-- R188: the ingress copies of an admitted frame received without fault. -/
def ingressCopies (s : State) (f : GFrame) (mirror sample egress : Nat) : State :=
  let s := if mirror = 0 then s else makeCopy s f mirror 0 egress
  if sample = 0 then s
  else
    let (s, hit) := sampleHit s sample
    if hit then makeCopy s f sample 2 egress else s

/-- R176 to R179, R196: a frame whose cells are charged enters queue `q`, on chip or in HBM. `ct` says that it is cut through, and
a cut-through frame with a fault carries a stomp; the second part is the frame where it is fit for ingress copies. -/
def queueFrame (s : State) (w : Fwd) (q pf ep : Nat) (ct : Bool) (cells : List Pool) :
    State × Option GFrame :=
  let n := cellsOf w.pkt.data.length
  let occ := qCells s q
  if goesDeep s q pf occ && spillRefused s q pf w.pkt.domain n && !(deepList s q).isEmpty then
    (s.inc R.GRN_PORT_CNT.COUNT [ep, 10], none)
  else
    let (s, fid) := storeFrame s (w.frame cells (isLossless s w.pkt pf))
    let f := gframe s fid
    let s := chargeQueue s q ep n
    let x : QEnt := { fid := fid, edit := w.edit, ct := ct, bad := ct && w.pkt.fault.isSome, deep := [] }
    if w.pkt.fault.isSome && !ct then (releaseEnt s q ep fid, none)
    else
      let s := if ct then s.inc R.GRN_PORT_CNT.COUNT [ep, 6] else s
      (joinQueue s q ep occ x, some f)

/-- R174, R176 to R179, R196: a unicast frame to queue `q`; the second part is the frame where it was admitted and is
fit for ingress copies. -/
def toQueue (s : State) (w : Fwd) (q : Nat) (ct : Bool) : State × Option GFrame :=
  if !s.flag R.GRN_CFG.EN [] then
    match queueProf s q, queueEp s q with
    | some _, some ep => (s.inc R.GRN_PORT_CNT.COUNT [ep, 11], none)
    | _, _ => (s.inc R.GRN_CNT.COUNT [13], none)
  else
    match queueProf s q, queueEp s q with
    | some pf, some ep =>
      match admitFrame s w.pkt q pf ep (cellsOf w.pkt.data.length) with
      | .refuse k => (s.inc R.GRN_PORT_CNT.COUNT [ep, k], none)
      | .headroom => (s.inc R.GRN_PORT_CNT.COUNT [acctOf w.pkt, 13], none)
      | .ok cells => queueFrame s w q pf ep ct cells
    | _, _ => (s.inc R.GRN_CNT.COUNT [11], none)

/-- R193: group entry `g` as BASE, COUNT, VALID. -/
def mcGroup (s : State) (g : Nat) : Nat × Nat × Bool :=
  let b := SMap.get (List.replicate 8 0) s.grn.groups g
  (leAt b 0 4 % 2 ^ 18, leAt b 4 2 % 2 ^ 13, bit (byteAt b 6) 0)

def mcMember (s : State) (i : Nat) : Bytes := SMap.get (List.replicate 8 0) s.grn.members i

/-- What admission answers a member of a multicast group. -/
inductive McAns where
  | pruned
  | unmapped
  | refused (ep : Nat)
  | ok (q ep : Nat) (cells : List Pool) (lossless : Bool)
deriving DecidableEq, Repr

/-- R192, R193: the decision of member `i` for a frame of `n` cells. -/
def mcDecide (s : State) (p : Pkt) (n i : Nat) : McAns :=
  let m := mcMember s i
  let q := leAt m 0 2
  match queueProf s q, queueEp s q with
  | some pf, some ep =>
    if bit (byteAt m 4) 0 && ep == p.origin then .pruned
    else
      match admitFrame s p q pf ep n with
      | .ok cells => .ok q ep cells (isLossless s p pf)
      | _ => .refused ep
  | _, _ => .unmapped

/-- R192: a member that does not proceed is counted. -/
def mcRefuse (s : State) (a : McAns) : State :=
  match a with
  | .refused ep => s.inc R.GRN_PORT_CNT.COUNT [ep, 9]
  | .unmapped => s.inc R.GRN_CNT.COUNT [11]
  | _ => s

/-- R192: the members admitted, with the queue and egress point of each. -/
def mcTaken (l : List (Nat × McAns)) : List (Nat × Nat × Nat) :=
  l.filterMap (fun x => match x.2 with
    | .ok q ep _ _ => some (x.1, q, ep)
    | _ => none)

/-- R192: the cells of a multicast frame are those of its first admitted member. -/
def mcCells (l : List (Nat × McAns)) : Option (List Pool × Bool) :=
  l.findSome? (fun x => match x.2 with
    | .ok _ _ c ll => some (c, ll)
    | _ => none)

/-- R192: the decisions of every member of a group, all at the frame's first cell, and then its one store with a charge for each
admitted member. The parts are the frame's number and the members admitted. -/
def mcAdmit (s : State) (w : Fwd) (base count : Nat) : State × Option Nat × List (Nat × Nat × Nat) :=
  let n := cellsOf w.pkt.data.length
  let l := (List.range count).map (fun k => (base + k, mcDecide s w.pkt n (base + k)))
  let s := l.foldl (fun s x => mcRefuse s x.2) s
  match mcCells l with
  | none => (s, none, [])
  | some (cells, ll) =>
    let ms := mcTaken l
    let (s, fid) := storeFrame s { w.frame cells ll with refs := ms.length }
    (ms.foldl (fun s m => chargeQueue s m.2.1 m.2.2 n) s, some fid, ms)

/-- Every member of a discarded multicast frame released. -/
def mcDiscard (s : State) (fid : Nat) (ms : List (Nat × Nat × Nat)) : State :=
  ms.foldl (fun s m => releaseEnt s m.2.1 m.2.2 fid) s

/-- R192, R193: a multicast frame to a replication group; its members wait to be enqueued. -/
def toGroup (s : State) (w : Fwd) (g : Nat) : State × Option GFrame :=
  if !s.flag R.GRN_CFG.EN [] then (s.inc R.GRN_CNT.COUNT [13], none)
  else
    let (base, count, valid) := mcGroup s g
    if !valid || count == 0 then (if w.pkt.fault.isSome then s else s.inc R.GRN_CNT.COUNT [12], none)
    else
      let (s, fid, ms) := mcAdmit s w base count
      match fid with
      | none => (s, none)
      | some f =>
        if w.pkt.fault.isSome then (mcDiscard s f ms, none)
        else ({ s with grn := { s.grn with mc := s.grn.mc ++ [{ fid := f, edit := w.edit, members := ms }] } }, some (gframe s f))

/-- R192, R194: one member enqueued: its entry is read now. Its charge moves to the queue and egress point that the entry names
now; a member that no longer proceeds is released. -/
def mcOne (s : State) (w : McWait) (m : Nat × Nat × Nat) : State :=
  let b := mcMember s m.1
  let q := leAt b 0 2
  let e := leAt b 2 2 % 4096
  match queueProf s q, queueEp s q with
  | some _, some ep =>
    if bit (byteAt b 4) 0 && ep == (gframe s w.fid).pkt.origin then releaseEnt s m.2.1 m.2.2 w.fid
    else
      let n := (gframe s w.fid).cells.length
      let s := unchargeQueue s m.2.1 m.2.2 n
      joinQueue (chargeQueue s q ep n) q ep (qCells s q)
        { fid := w.fid, edit := if e = 0 then w.edit else e, ct := false, bad := false, deep := [] }
  | _, _ => (releaseEnt s m.2.1 m.2.2 w.fid).inc R.GRN_CNT.COUNT [11]

/-- R192: up to `n` waiting members enqueued, in order. -/
def mcEnqueue (s : State) (n : Nat) : State :=
  match n with
  | 0 => s
  | n + 1 =>
    match s.grn.mc with
    | [] => s
    | w :: rest =>
      match w.members with
      | [] => mcEnqueue { s with grn := { s.grn with mc := rest } } n
      | m :: ms =>
        let s := { s with grn := { s.grn with mc := if ms.isEmpty then rest else { w with members := ms } :: rest } }
        mcEnqueue (mcOne s w m) n

/-- R679: a packet stored for a Filbert channel, by the domain and pool tests alone. -/
def toFilbert (s : State) (w : Fwd) (d : Deliv) : State × Option GFrame :=
  if !s.flag R.GRN_CFG.EN [] then (s.inc R.GRN_CNT.COUNT [13], none)
  else if s.rd R.GRN_DOM_W1.USED [w.pkt.domain] ≥ s.rd R.GRN_DOM_W0.CELLS [w.pkt.domain] || sharedFree s == 0 then
    (s.inc R.GRN_CNT.COUNT [14], none)
  else if w.pkt.fault.isSome then (s, none)
  else
    let n := cellsOf w.pkt.data.length
    let fr := sharedFree s
    let (s, fid) := storeFrame s (w.frame (List.replicate (min n fr) Pool.shared ++ List.replicate (n - fr) Pool.skid) false)
    (deliverTo s { d with fid := fid }, some (gframe s fid))

/-- R172, R174, R176: a packet for Carter stored until its slice takes it, by the domain and pool tests; a packet that they refuse
is dropped. -/
def toCarter (s : State) (w : Fwd) : State :=
  if !s.flag R.GRN_CFG.EN [] then s.inc R.GRN_CNT.COUNT [13]
  else if s.rd R.GRN_DOM_W1.USED [w.pkt.domain] ≥ s.rd R.GRN_DOM_W0.CELLS [w.pkt.domain] || sharedFree s == 0
      || w.pkt.fault.isSome then s
  else
    let n := cellsOf w.pkt.data.length
    let fr := sharedFree s
    let (s, fid) := storeFrame s (w.frame (List.replicate (min n fr) Pool.shared ++ List.replicate (n - fr) Pool.skid) false)
    { s with win := { s.win with carter := s.win.carter ++ [{ w.pkt with tc := w.tc, held := some fid }] } }

/-- R198: a deep frame of queue `q` read back and stored in cells again, shared ones as far as they go, at the end of the queue;
`bad` names its deep cells that came with an uncorrectable error. -/
def deepMove (s : State) (q ep : Nat) (x : QEnt) (rest : List QEnt) (bad : List Nat) : State :=
  let f := gframe s x.fid
  let n := x.deep.length
  let fr := sharedFree s
  let cells := List.replicate (min n fr) Pool.shared ++ List.replicate (n - fr) Pool.skid
  let data := deepRead s x.deep f.pkt.data.length
  let (s, place) := newCells s f.pkt.pipe n
  let s := putFrame s x.fid { f with pkt := { f.pkt with data := data }, cells := cells, place := place,
                                     bad := f.bad ++ bad.filter (fun c => !f.bad.contains c) }
  let s := (takePools s cells).add R.GRN_DOM_W1.USED [f.pkt.domain] cells.length
  let s := chargeQueue (deepGive s q f.pkt.domain n) q ep cells.length
  let s := setDeep (setQueue s q (queueList s q ++ [{ x with deep := [] }])) q rest
  (s.inc R.GRN_CNT.COUNT [10]).add R.GRN_CNT.COUNT [8] bad.length

/-- R198: a whole frame returned from the head of a SPILLING queue's deep part, once it is in HBM; `errs` is the mask of its
deep cells that came back with an uncorrectable error, which the Reeve is told of. -/
def deepReturn (s : State) (q errs : Nat) : State :=
  match deepList s q, queueProf s q, queueEp s q with
  | x :: rest, some pf, some ep =>
    if qCells s q * 2 ≥ s.rd R.GRN_QPROF_W2.SPILL_THRESH [pf] || sharedFree s == 0 || !s.flag R.GRN_CFG.EN []
        || s.grn.await.contains (q, x.fid) then s
    else
      let bad := (List.range x.deep.length).filter (bit errs)
      let s := bad.foldl (fun s i => hbmFail s (deepAddr s (x.deep.getD i 0))) s
      deepMove s q ep x rest bad
  | _, _, _ => s

/-- R201: one queue of a flushed egress point emptied: frames and bytes counted, cells left to return. -/
def flushQueue (s : State) (e q : Nat) : State × Nat × Nat :=
  let on := queueList s q
  let deep := deepList s q
  let bytes := (on ++ deep).foldl (fun a x => a + (gframe s x.fid).pkt.data.length) 0
  let s := on.foldl (fun s x =>
    let n := (gframe s x.fid).cells.length
    { s with grn := { s.grn with flush := s.grn.flush ++ [{ q := q, ep := e, fid := x.fid, left := n }] } }) s
  let s := deep.foldl (fun s x => dropRef (deepGive s q (gframe s x.fid).pkt.domain x.deep.length) x.fid) s
  let s := { s with grn := { s.grn with await := s.grn.await.filter (fun x => x.1 ≠ q) } }
  (setDeep (setQueue s q []) q [], on.length + deep.length, bytes)

/-- R201: every queue of an egress point flushed. -/
def flushEp (s : State) (e : Nat) : State × Nat × Nat :=
  let qs := (s.tly.queues.filter (fun x => x.2.valid && queueEp s x.1 == some e)).map Prod.fst
  let s := { s with tly := { s.tly with sel := SMap.del s.tly.sel e } }
  qs.foldl (fun a q =>
    let (s, f, b) := flushQueue a.1 e q
    (s, a.2.1 + f, a.2.2 + b)) (s, 0, 0)

/-- R201: one cell of the oldest flushed frame returns to its pool. Cells that another reference still holds return with it, or
all at once where it ended meanwhile. -/
def flushOne (s : State) (x : FlushEnt) (rest : List FlushEnt) : State :=
  let f := gframe s x.fid
  let s := unchargeQueue s x.q x.ep 1
  let l := if x.left = 1 then rest else { x with left := x.left - 1 } :: rest
  let s := { s with grn := { s.grn with flush := l } }
  if x.left = 1 then dropRef s x.fid
  else if f.refs ≤ 1 then putFrame (giveCells s f 1) x.fid { f with cells := f.cells.drop 1, place := f.place.drop 1 }
  else s

/-- R201: `k` cells of flushed frames return to their pools. -/
def flushReturn (s : State) (k : Nat) : State :=
  match k with
  | 0 => s
  | k + 1 =>
    match s.grn.flush with
    | [] => s
    | x :: rest =>
      if x.left = 0 then flushReturn { s with grn := { s.grn with flush := rest } } k else flushReturn (flushOne s x rest) k

/-- R170: whether no frame is queued for an egress point, or waits to be enqueued to it. -/
def epEmpty (s : State) (e : Nat) : Bool :=
  !(s.tly.queues.any (fun x => x.2.valid && backlogged s x.1 && queueEp s x.1 == some e))
    && !(s.grn.mc.any (fun w => w.members.any (fun m => m.2.2 == e)))

/-- R174: cells in use, parking among them. -/
def cellsInUse (s : State) : Nat := s.grn.used.length

/-- R174: the checks of a write of GRN_CFG.EN from 0 to 1: the code of the first that fails. -/
def grnCheck (s : State) : Nat :=
  if sharedSize s < 16384 then 1
  else if s.rd R.GRN_POOL.RESERVE [] < reserveSum s s.grn.qmap then 2
  else if s.rd R.GRN_POOL_HR.HEADROOM [] < headroomSum s then 3
  else if (s.flag R.GRN_DEEP_CFG.EN [] && decide (s.rd R.GRN_DEEP_CFG.SIZE [] > 32))
      || decide (s.rd R.GRN_DEEP_CFG.BASE [] + s.rd R.GRN_DEEP_CFG.SIZE [] > 192) then 4
  else 0

/-- A refused configuration write (R206). -/
def grnErr (s : State) (code : Nat) : State := (s.wr R.GRN_STATUS.CFG_ERR [] 1).wr R.GRN_STATUS.ERR_CODE [] code

/-- R174: a write of GRN_CFG.EN. -/
def grnEnable (s : State) (en : Bool) : State :=
  let cur := s.flag R.GRN_CFG.EN []
  if en == cur then s
  else if en then
    match grnCheck s with
    | 0 => grnShow (s.wr R.GRN_CFG.EN [] 1)
    | k => grnErr s k
  else if cellsInUse s ≠ 0 then grnErr s 5
  else s.wr R.GRN_CFG.EN [] 0

end Sys2Proof.Machine
end

