-- ==== Sys2Proof/Machine/FrameOps.lean ====
section
/-! DEFINITION. A packet's way through an ingress pipeline: parse, lookups, action resolve, exceptions, fragments, scans,
and its hand-over to Granary (R39 to R41, R109, R121 to R139, R145 to R153).
Log entries 21, 28, 30, 31, 32, 38, 85. -/

namespace Sys2Proof.Machine

open Sys2Proof

def putWin (s : State) (w : Win) : State := { s with win := w }

def pipeCount (s : State) (p n : Nat) : State := s.inc R.WIN_PIPE_CNT.COUNT [p, n]
def winCount (s : State) (n : Nat) : State := s.inc R.WIN_GLB_CNT.COUNT [n]

/-- R558: whether power domain `d` is on. -/
def domOn (s : State) (d : Nat) : Bool := bit (s.rd R.PWR_DOM_ON.ON [d / 32]) (d % 32)

/-- R39: the powered pipelines, and the one a flow hash chooses. -/
def poweredPipes (s : State) : List Nat := (List.range 16).filter (fun p => domOn s (112 + p))
def hashPipe (s : State) (h : Nat) : Nat :=
  let l := poweredPipes s
  l.getD (h % max 1 l.length) 0

/-- R39: the bytes that name a flow. -/
def srcBytes (x : Src) : Bytes :=
  match x with
  | .ring r => 0 :: leBytes 4 r
  | .conn c => 1 :: leBytes 4 c
  | .chan c => 2 :: leBytes 4 c
  | .sahrov l h => 3 :: byteOf l :: leBytes 4 h
  | .port p => [4, byteOf p]
  | .queue q => 5 :: leBytes 2 q

/-- R39: the flow hash of a source; a Sahrov frame carries its own. -/
def srcHash (x : Src) : Nat :=
  match x with
  | .sahrov _ h => h
  | x => Config.flowHash (srcBytes x) % 2 ^ 32

/-- R39: a frame enters the internal input of the pipeline its flow hash chooses. -/
def toInternal (s : State) (p : Pkt) : State :=
  let pipe := hashPipe s p.hash
  let l := SMap.get [] s.win.inq pipe
  putWin s { s.win with inq := SMap.set [] s.win.inq pipe (l ++ [{ p with pipe := pipe }]) }

/-- R141: whether an action may be used by a packet of domain `d`. -/
def actAllowed (v : Bytes) (d : Nat) : Bool := bit (leAt v 20 2) 10 || leAt v 20 2 % 1024 == d

def actKind (v : Bytes) : Nat := byteAt v 0 % 16

/-- R140: the program of an action. -/
def actEdit (v : Bytes) : Nat := leAt v 12 2 % 4096

/-- R144: whether a resolved action's program meets a TTL of 0 or 1. -/
def ttlExpired (s : State) (w : Wait) (act data : Nat) : Bool :=
  (runEdit s (editProg s (actEdit (actEntry s act))) w.pkt.data w.walk.slots w.walk.decl data).ttl

/-- R137: a first fragment's decision enters the fragment table; R139 gives the age of an entry. -/
def fragSet (k : Bytes) : Nat := crc32cFrom 0 k % 2048

/-- R139: FRAG_LIFE in force: a write applies from the next millisecond. -/
def fragLife (s : State) : Nat :=
  match s.win.lifeWas with
  | some (m, v) => if s.nowMs ≤ m then v else s.rd R.WIN_FRAG_CFG.FRAG_LIFE []
  | none => s.rd R.WIN_FRAG_CFG.FRAG_LIFE []

/-- R139: a write of FRAG_LIFE. -/
def fragLifeWrite (s : State) (v : Nat) : State :=
  (putWin s { s.win with lifeWas := some (s.nowMs, fragLife s) }).wr R.WIN_FRAG_CFG.FRAG_LIFE [] v

def fragLive (s : State) (f : Frag) : Bool := decide (s.nowMs - f.ms < max 1 (fragLife s))

def fragKey (w : Wait) (k : Bytes) : Bytes := leBytes 2 w.pkt.domain ++ k

/-- The live entries counted (R160). -/
def fragShow (s : State) : State := s.wr R.WIN_FRAG_STATUS.OCCUPANCY [] ((s.win.frag.filter (fragLive s)).length)

/-- R139: entries that have reached FRAG_LIFE leave the table and are counted. -/
def fragSweep (s : State) : State :=
  let n := (s.win.frag.filter (fun f => !fragLive s f)).length
  if n = 0 then s
  else fragShow ((putWin s { s.win with frag := s.win.frag.filter (fragLive s) }).add R.WIN_GLB_CNT.COUNT [2] n)

def fragWrite (s : State) (w : Wait) (dec : Decision) : State :=
  match w.walk.frag with
  | some (k, false) =>
    let s := fragSweep s
    let key := fragKey w k
    let set := fragSet key
    let e : Frag := { set := set, key := key, ms := s.nowMs, dec := dec }
    let rest := s.win.frag.filter (fun f => f.key ≠ key)
    if rest.length < s.win.frag.length then fragShow (putWin s { s.win with frag := rest ++ [e] })
    else
      let mine := rest.filter (fun f => f.set == set)
      let s := winCount s 0
      if mine.length < 8 then fragShow (putWin s { s.win with frag := rest ++ [e] })
      else
        match mine with
        | old :: _ => fragShow (winCount (putWin s { s.win with frag := rest.erase old ++ [e] }) 1)
        | [] => s
  | _ => s

/-- R150: where a packet's payload starts and stops for the scan. -/
def scanRange (w : Walk) : Nat × Nat := (w.payload.getD w.stop, w.encl)

def scanBytes (l : List Scan) : Nat := l.foldl (fun a x => a + x.pkt.data.length) 0

/-- R49, R150: a packet under a deep profile goes to its engine, or carries SCAN_SKIPPED; the second part is the flag. -/
def scanStart (s : State) (w : Wait) (exc : Nat) : State × Bool :=
  if s.rd R.WIN_PROF_W0.WINDOW [w.pkt.profile] ≠ 2 || !s.flag R.WIN_GLB_CFG.SCAN_EN [] then (s, false)
  else if w.walk.frag.isSome then (winCount s 6, true)
  else if w.walk.esp.isSome && s.flag R.WIN_PROF_W2.ESP_EN [w.pkt.profile] then (s, false)
  else
    let e := w.pkt.pipe / 8
    let l := if e = 0 then s.win.scan0 else s.win.scan1
    if !domOn s (152 + e) || decide (scanBytes l + w.pkt.data.length > 1048576) then
      (winCount s 6, true)
    else
      let (a, b) := scanRange w.walk
      let j : Scan := { pkt := w.pkt, start := a, stop := b, pats := if s.flag R.WIN_GLB_CFG.PAT_SEL [] then s.win.pat1 else s.win.pat0, res := w.res, exc := exc }
      if e = 0 then (putWin s { s.win with scan0 := l ++ [j] }, false) else (putWin s { s.win with scan1 := l ++ [j] }, false)

/-- R140: a packet added to a counter pair. -/
def addCounter (s : State) (n len : Nat) : State :=
  let (p, b) := SMap.get (0, 0) s.win.cnt n
  putWin s { s.win with cnt := SMap.set (0, 0) s.win.cnt n ((p + 1) % 2 ^ 64, (b + len) % 2 ^ 64) }

/-- R228: the pre-colour of the first policer a packet meets. -/
def preColour (s : State) (w : Wait) : Nat :=
  if s.flag R.TLY_CFG.DEI_EN [] then
    match slotOf w.walk.slots (s.rd R.TLY_CFG.DEI_SLOT []) with
    | some x => if bit (byteAt w.pkt.data x.start) 4 then 1 else 0
    | none => 0
  else 0

/-- COUNT and POLICE of one action (R135, R226): the state, the colour, whether the packet is dropped, ALT_TC. -/
def meter (s : State) (w : Wait) (v : Bytes) (pre : Nat) (dropped policed : Bool) : State × Nat × Bool × Option Nat :=
  let s := if bit (byteAt v 0) 5 then addCounter s (leAt v 8 4 % 2 ^ 18) w.pkt.data.length else s
  if bit (byteAt v 0) 6 && !dropped && policed then police s (leAt v 4 4 % 2 ^ 17) pre w.pkt.data.length
  else (s, pre, dropped, none)

/-- R41, R170, R185: whether a frame to queue `q` is cut through. -/
def cutThrough (s : State) (p : Pkt) (q : Nat) : Bool :=
  match p.port, queueEp s q, queueProf s q with
  | some i, some e, some pf =>
    s.flag R.GRN_CFG.CT_EN [] && decide (e < 128) && !isSahrov s (e / 8) && portState s e == epUp && epEmpty s e
      && (match SMap.find? s.eth.tx e with
          | some t => t.held.isNone && decide (t.upTo ≤ s.now)
          | none => true)
      && decide (speedGbps (portCfg s e).speed ≤ speedGbps (portCfg s i).speed)
      && !s.flag R.GRN_QPROF_W0.LONG_HAUL [pf] && !s.flag R.TLY_GATE.EN [e] && !p.pass2
  | _, _, _ => false

/-- R185: what a program has touched so far: the frame as it stands, of each of its bytes the received byte's position and one,
0 for an inserted byte, the bytes touched and the bytes removed. -/
structure Touch where
  e : EditSt
  org : List Nat
  last : Nat
  gone : Nat
deriving DecidableEq, Repr

/-- R185: the end of the bytes that a micro-op at position `a` reads or writes in the frame as it stands. -/
def touchEnd (e : EditSt) (m : Bytes) (a : Nat) : Nat :=
  match byteAt m 0 with
  | 1 | 2 => a + byteAt m 3
  | 3 => ((slotOf e.slots (byteAt m 2)).map (·.stop)).getD 0
  | 5 => if byteAt e.buf a / 16 = 4 then a + 12 else a + 8
  | 6 => a + 2
  | 7 => a + max (byteAt e.buf a % 16 * 4) 12
  | 8 => if (e.slots.any (fun c => c.start == a && c.stop == a + 8)) then a + 8 else a + 18
  | _ => a

/-- R185: one micro-op; one that the editor skips touches nothing. -/
def touchOp (s : State) (d : Nat) (t : Touch) (m : Bytes) : Touch :=
  let e := editOp s d t.e m
  let start := if bit (byteAt m 1) 5 then 0 else ((slotOf t.e.slots (byteAt m 1 % 32)).map (·.start)).getD 0
  let a := if byteAt m 0 = 3 then start else start + byteAt m 2
  if byteAt m 0 = 0 || e.skips ≠ t.e.skips then { t with e := e }
  else
    let z := touchEnd t.e m a
    let n := t.e.buf.length - e.buf.length
    { e := e,
      org := if byteAt m 0 = 3 then t.org.take a ++ t.org.drop z
             else if byteAt m 0 = 4 then t.org.take a ++ List.replicate (e.buf.length - t.e.buf.length) 0 ++ t.org.drop a else t.org,
      last := (t.org.take z).foldl max t.last, gone := t.gone + n }

/-- R185: the number of received bytes up to the last one that a program touches, and the bytes it removes. -/
def touches (s : State) (w : Fwd) : Nat × Nat :=
  let f := w.pkt.data
  let t := (microOps (editProg s w.edit) 8).foldl (touchOp s w.actData)
    { e := { buf := f, slots := w.slots, decl := w.decl.map (fun n => (n : Int)), writes := [], skips := 0, ttl := false },
      org := (List.range f.length).map (· + 1), last := 0, gone := 0 }
  (t.last, t.gone)

/-- R185, R186: whether the head of a cut-through frame has left before its tail: the bytes written reach the mark and
the queue may be selected at once. -/
def headLeft (s : State) (w : Fwd) (q : Nat) : Bool :=
  let (last, gone) := touches s w
  decide (w.pkt.data.length ≥ last + 256 + gone) &&
    (match queueEp s q with
     | some e => epReady s e && (queuePath s q).all (withinMax s) && !bit (s.rd R.TLY_EP_W2.PAUSED [e]) (tQueue s q).tc
     | none => false)

/-- The exception field (R145). -/
def excField (causes : Nat) (skipped : Bool) : Nat := Nat.lor causes (if skipped then 2 ^ excSkipped else 0)

/-- What a packet carries into Granary. -/
def fwdOf (w : Wait) (exc tc edit data : Nat) : Fwd :=
  { pkt := w.pkt, slots := w.walk.slots, decl := w.walk.decl, actData := data, exc := exc, tc := tc, edit := edit }

/-- A delivery to a Filbert channel (R513, R679). -/
def toChan (s : State) (w : Wait) (chan kind exc tc : Nat) (res : Res) : State × Option GFrame :=
  toFilbert s (fwdOf w exc tc 0 0)
    { fid := 0, chan := chan, kind := kind, exc := exc, res := res, tc := tc, orig := w.pkt.data.length, pattern := 0, hdr := [] }

/-- R140: the effect of an action's KIND, with its sessions. -/
def actForward (s : State) (w : Wait) (act data : Nat) (exc tc mirror sample : Nat) : State :=
  let v := actEntry s act
  let f := fwdOf w exc tc (actEdit v) data
  let copies (r : State × Option GFrame) (egress : Nat) : State :=
    match r.2 with
    | some g => if w.pkt.fault.isSome then r.1 else ingressCopies r.1 g mirror sample egress
    | none => r.1
  match actKind v with
  | 0 =>
    let q := if bit (byteAt v 0) 4 then data % 65536 else leAt v 2 2
    let ct := cutThrough s w.pkt q && (w.pkt.fault.isNone || headLeft s f q)
    copies (toQueue s f q ct) ((queueEp s q).getD 0xFFFF)
  | 1 => copies (toGroup s f (leAt v 2 2)) 0xFFFF
  | 3 => copies (toChan s w (leAt v 16 2) 7 exc tc w.res) 0xFFFF
  | 4 => toCarter s f
  | 5 =>
    if w.pkt.fault.isSome then s
    else
      let j : Esp := { pkt := w.pkt, walk := w.walk, slot := leAt v 16 4 % 2 ^ 20, tunnel := bit (byteAt v 15) 0,
                       off := w.walk.esp.getD w.pkt.data.length, ip := w.walk.ip }
      winCount (putWin s { s.win with esp := s.win.esp ++ [j] }) 4
  | _ => s

/-- R135, R145: the effects of the resolved actions, the first, as its entry read at its lookup, and then, where there was one, the
second. `police` is
false for an L2-only result (R229). -/
def runActions (s : State) (w : Wait) (first : Option Bytes) (act data : Nat) (exc : Nat) (policed : Bool) : State :=
  let v := actEntry s act
  let tc0 := w.pkt.tc % 8
  let (s, col, dropped, alt1, tc1, mir1, smp1) :=
    match first with
    | none => (s, preColour s w, false, none, tc0, 0, 0)
    | some v1 =>
      let (s, col, dropped, alt) := meter s w v1 (preColour s w) false policed
      (s, col, dropped, alt, if bit (byteAt v1 14) 3 then byteAt v1 14 % 8 else tc0, byteAt v1 1 % 16, byteAt v1 1 / 16)
  let (s, _, dropped, alt2) := meter s w v col dropped policed
  let tc := if bit (byteAt v 14) 3 then byteAt v 14 % 8 else tc1
  let tc := alt1.getD tc
  let tc := alt2.getD tc
  if dropped then s
  else
    let mir := if byteAt v 1 % 16 = 0 then mir1 else byteAt v 1 % 16
    let smp := if byteAt v 1 / 16 = 0 then smp1 else byteAt v 1 / 16
    actForward s w act data exc tc mir smp

/-- R129, R135: a lookup of a packet in table `t` under key profile `k`, a miss giving the table's MISS_ACT: the result,
whether it hit, the key and the state. -/
def doLookup (s : State) (w : Wait) (t k : Nat) : (Nat × Nat × Bool × Bytes) × State :=
  let key := buildKey s k w.pkt w.walk
  match lookup s t key with
  | (some (a, d), s) => ((a, d, true, key), s)
  | (none, s) => ((s.rd R.WIN_TBL_MISS.MISS_ACT [t], 0, false, key), s)

/-- R130: whether a lookup in table `t` must read HBM. -/
def needsHbm (s : State) (t : Nat) : Bool :=
  s.flag R.WIN_TBL.EN [t] && s.flag R.WIN_TBL.READY [t] && s.flag R.WIN_TBL.HOME [t]

/-- R145: each cause of a packet counted. -/
def countCauses (s : State) (p causes : Nat) : State :=
  (List.range 7).foldl (fun s i => if bit causes i then pipeCount s p (i + 1) else s) s

/-- What comes of one stage: the packet is done, or goes on to another stage. -/
inductive Next where
  | done
  | go (w : Wait)
deriving DecidableEq, Repr

/-- R146: the exception action of a profile, or the orphan-fragment action. -/
def exceptionAct (s : State) (w : Wait) (causes : Nat) (orphan : Bool) : State × Next :=
  let p := w.pkt.pipe
  let mode := if orphan then s.rd R.WIN_FRAG_CFG.ORPHAN_MODE [] else s.rd R.WIN_PROF_W0.EXC_ACT [w.pkt.profile]
  if mode = 2 then (if orphan then s else pipeCount s p 10, .go { w with stage := .l2 causes })
  else
    let (s, sk) := scanStart s w causes
    if mode = 1 then
      let chan := if orphan then s.rd R.WIN_FRAG_CHAN.CHAN [] else s.rd R.WIN_PROF_W1.EXC_CHAN [w.pkt.profile]
      ((toChan (if orphan then s else pipeCount s p 9) w chan (if orphan then 2 else 1) (excField causes sk) (w.pkt.tc % 8)
          (if orphan then { w.res with key := [] } else w.res)).1, .done)
    else (if orphan then s else pipeCount s p 8, .done)

/-- R137, R145: a packet takes its exception action with some causes. -/
def takeException (s : State) (w : Wait) (causes : Nat) : State × Next :=
  exceptionAct (fragWrite (countCauses s w.pkt.pipe causes) w (.exception causes)) w causes false

/-- R137: a resolved action decides a packet's forwarding. -/
def decide' (s : State) (w : Wait) (first : Option Bytes) (act data : Nat) (causes : Nat) (policed : Bool) : State × Next :=
  let s := fragWrite s w (.action act data)
  let (s, sk) := scanStart s w causes
  (runActions s w first act data (excField causes sk) policed, .done)

/-- R49: an ESP packet that is a fragment is delivered to the exception channel. -/
def espToChan (s : State) (w : Wait) : State × Next :=
  let (s, sk) := scanStart s w 0
  ((toChan (pipeCount s w.pkt.pipe 9) w (s.rd R.WIN_PROF_W1.EXC_CHAN [w.pkt.profile]) 1 (excField 0 sk) (w.pkt.tc % 8) w.res).1, .done)

/-- R49: an ESP packet that is a first fragment. -/
def espFragment (s : State) (w : Wait) : State × Next := espToChan (fragWrite s w (.exception 0)) w

/-- R122, R138, R144: a non-first fragment takes the exception action for what its walk met, or else the decision of its entry, or
the orphan-fragment action. -/
def fragFollow (s : State) (w : Wait) (k : Bytes) : State × Next :=
  let key := fragKey w k
  if w.walk.exc ≠ 0 then takeException s w w.walk.exc
  else
    match s.win.frag.find? (fun f => f.key == key && fragLive s f) with
    | none => exceptionAct (winCount s 3) w (2 ^ excOrphan) true
    | some f =>
      match f.dec with
      | .action a d =>
        let w := { w with res := { w.res with act := a, data := d } }
        if ttlExpired s w a d then takeException s w (2 ^ excTtl)
        else
          let (s, sk) := scanStart s w 0
          (runActions s w none a d (excField 0 sk) true, .done)
      | .exception 0 => espToChan s w
      | .exception c => exceptionAct s w c false

/-- R141: the second result of NEXT_TABLE, an action of another domain and an expired TTL are exceptions; any other
resolved action decides. -/
def resolve (s : State) (w : Wait) (first : Option Bytes) (act data : Nat) : State × Next :=
  let v := actEntry s act
  if !actAllowed v w.pkt.domain then takeException s w (2 ^ excAction)
  else if actKind v = 6 then
    if first.isSome then takeException s w (2 ^ excAction) else (s, .go { w with stage := .second act data v })
  else if ttlExpired s w act data then takeException s w (2 ^ excTtl)
  else decide' s w first act data 0 true

/-- The table and key profile of a stage's lookup. -/
def stageLookup (s : State) (w : Wait) : Option (Nat × Nat) :=
  let p := w.pkt.profile
  match w.stage with
  | .start => none
  | .first false => some (s.rd R.WIN_PROF_W0.TABLE [p], s.rd R.WIN_PROF_W0.KEYPROF [p])
  | .first true => some (s.rd R.WIN_PROF_W2.ESP_TABLE [p], s.rd R.WIN_PROF_W2.ESP_KEYPROF [p])
  | .second _ _ v => some (leAt v 2 2 % 64, bits (leAt v 2 2) 8 6)
  | .l2 _ => some (s.rd R.WIN_PROF_W1.L2_TABLE [p], s.rd R.WIN_PROF_W1.L2_KEYPROF [p])

/-- R109, R126 to R134, R146: what a finished lookup does at its stage: its result is resolved, or the L2 table's is run. -/
def afterLookup (s : State) (w : Wait) (a d : Nat) (hit : Bool) (key : Bytes) : State × Next :=
  match w.stage with
  | .second _ _ v1 =>
    let w := { w with res := { key := key, hit1 := w.res.hit1, second := true, hit2 := hit, act := a, data := d } }
    resolve (if hit then s else pipeCount s w.pkt.pipe 12) w (some v1) a d
  | .l2 causes =>
    let w := { w with res := { w.res with key := key, act := a, data := d } }
    if actKind (actEntry s a) ≤ 2 && actAllowed (actEntry s a) w.pkt.domain then
      let r := scanStart s w causes
      (runActions r.1 w none a d (excField causes r.2) false, .done)
    else (pipeCount (scanStart s w causes).1 w.pkt.pipe 5, .done)
  | _ =>
    let w := { w with res := { key := key, hit1 := hit, second := false, hit2 := false, act := a, data := d } }
    let s := if hit then s else pipeCount s w.pkt.pipe 11
    if w.walk.exc ≠ 0 then takeException s w w.walk.exc else resolve s w none a d

/-- R109, R136, R146: what a packet whose parse is whole does before its first lookup. -/
def startStage (s : State) (w : Wait) : State × Next :=
  match w.walk.frag with
  | some (k, true) => fragFollow s w k
  | _ =>
    let espEn := s.flag R.WIN_PROF_W2.ESP_EN [w.pkt.profile]
    let w := if w.walk.esp.isSome && w.pkt.pass2 then
        { w with walk := { w.walk with exc := Nat.lor w.walk.exc (2 ^ excNested) } } else w
    if w.walk.esp.isSome && espEn && w.walk.frag.isSome && w.walk.exc = 0 then espFragment s w
    else (s, .go { w with stage := .first (w.walk.esp.isSome && espEn) })

/-- One stage of a packet; its lookup, if it has one, is made now. `err` says that the bucket read failed (R130). -/
def runStage (s : State) (w : Wait) (err : Bool) : State × Next :=
  match w.stage with
  | .start => startStage s w
  | st =>
    if err then
      match st with
      | .l2 c => (pipeCount (scanStart s w c).1 w.pkt.pipe 4, .done)
      | _ => takeException s w (Nat.lor w.walk.exc (2 ^ excLookup))
    else
      match stageLookup s w with
      | none => (s, .done)
      | some (t, k) =>
        let r := doLookup s w t k
        afterLookup r.2 w r.1.1 r.1.2.1 r.1.2.2.1 r.1.2.2.2

/-- A packet's stages until it is done or must wait for HBM. `ready` says that the buckets of its next lookup are here. -/
def advance (s : State) (w : Wait) (ready err : Bool) (fuel : Nat) : State × Option Wait :=
  match fuel with
  | 0 => (s, none)
  | fuel + 1 =>
    let hbm := match stageLookup s w with
      | some (t, _) => needsHbm s t
      | none => false
    if hbm && !ready then (s, some w)
    else
      match runStage s w err with
      | (s, .done) => (s, none)
      | (s, .go w) => advance s w false false fuel

/-- WAIT_FILL and HBM_STALL of a pipeline (R109, R158). -/
def waitShow (s : State) (p : Nat) : State :=
  let n := (SMap.get [] s.win.wait p).length
  (s.wr R.WIN_PIPE_STATUS.WAIT_FILL [p] n).wr R.WIN_PIPE_STATUS.HBM_STALL [p] (b2n (n ≥ 2048))

def setWait (s : State) (p : Nat) (l : List Wait) : State :=
  waitShow (putWin s { s.win with wait := SMap.set [] s.win.wait p l }) p

/-- R109, R117: a packet enters its pipeline and is parsed. -/
def enterPipe (s : State) (p : Pkt) : State × Wait :=
  let s := pipeCount s p.pipe 0
  let s := if p.port.isSome then s else pipeCount s p.pipe 14
  (s, { pkt := p, walk := parse s p.data p.profile p.node, stage := .start, res := Res.none })

/-- R109: a packet accepted by a pipeline: it runs at once, or waits behind a lookup. -/
def feed (s : State) (p : Pkt) : State :=
  let l := SMap.get [] s.win.wait p.pipe
  let (s, w) := enterPipe s p
  if l.isEmpty then
    match advance s w false false 5 with
    | (s, none) => s
    | (s, some w) => setWait s p.pipe [w]
  else setWait s p.pipe (l ++ [w])

/-- The packets behind a finished lookup, until one must wait for its own (R109). -/
def drainWait (s : State) (p : Nat) (l : List Wait) : State :=
  match l with
  | [] => setWait s p []
  | w :: r =>
    match advance s w false false 5 with
    | (s, none) => drainWait s p r
    | (s, some w) => setWait s p (w :: r)

end Sys2Proof.Machine
end

