-- ==== Sys2Proof/Machine/Crypto.lean ====
section
/-! DEFINITION. The published algorithms that the manual names: AES of FIPS 197, GCM of SP 800-38D, XTS of IEEE 1619,
SHA-384 of FIPS 180, HMAC and the P-384 curve of FIPS 186 (R337, R352, R355, R356, R371, R611, R618).
Log entries 13. -/

namespace Sys2Proof.Machine

open Sys2Proof

/-- Multiplication by x in the field of AES. -/
def gfDouble (a : Nat) : Nat := if a ≥ 128 then Nat.xor (a * 2 % 256) 0x1B else a * 2

/-- Multiplication in the field of AES. -/
def gfMul (a b : Nat) : Nat :=
  ((List.range 8).foldl (fun (r : Nat × Nat) i =>
    (if bit b i then Nat.xor r.1 r.2 else r.1, gfDouble r.2)) (0, a)).1

/-- The inverse in the field of AES, with 0 for 0: the power 254. -/
def gfInv (a : Nat) : Nat :=
  let a2 := gfMul a a
  let a3 := gfMul a2 a
  let a6 := gfMul a3 a3
  let a12 := gfMul a6 a6
  let a15 := gfMul a12 a3
  let a30 := gfMul a15 a15
  let a60 := gfMul a30 a30
  let a120 := gfMul a60 a60
  let a126 := gfMul a120 a6
  let a127 := gfMul a126 a
  gfMul a127 a127

/-- A byte rotated left. -/
def rotl8 (a n : Nat) : Nat := a * 2 ^ n % 256 + a / 2 ^ (8 - n)

/-- SubBytes of one byte. -/
def sbox (b : Byte) : Byte :=
  let a := gfInv b.toNat
  byteOf (Nat.xor (Nat.xor (Nat.xor (Nat.xor (Nat.xor a (rotl8 a 1)) (rotl8 a 2)) (rotl8 a 3)) (rotl8 a 4)) 0x63)

/-- InvSubBytes of one byte. -/
def invSbox (b : Byte) : Byte :=
  let a := b.toNat
  byteOf (gfInv (Nat.xor (Nat.xor (Nat.xor (rotl8 a 1) (rotl8 a 3)) (rotl8 a 6)) 0x05))

/-- The words of an AES key schedule, newest first, extended to `n` more words. -/
def keyWords (nk : Nat) (n i rcon : Nat) (ws : List Bytes) : List Bytes :=
  match n with
  | 0 => ws
  | n + 1 =>
    let t := ws.headD []
    let t := if i % nk = 0 then
        match (t.drop 1 ++ t.take 1).map sbox with
        | a :: r => (a ^^^ byteOf rcon) :: r
        | [] => []
      else if nk > 6 && i % nk == 4 then t.map sbox else t
    let w := xorBytes (ws.getD (nk - 1) []) t
    keyWords nk n (i + 1) (if i % nk = 0 then gfDouble rcon else rcon) (w :: ws)

/-- The first `n` groups of four bytes. -/
def chunks (k n : Nat) (b : Bytes) : List Bytes :=
  match n with
  | 0 => []
  | n + 1 => b.take k :: chunks k n (b.drop k)

/-- The round keys of an AES key of 16 or 32 bytes, in order. -/
def roundKeys (key : Bytes) : List Bytes :=
  let nk := key.length / 4
  let ws := (keyWords nk (4 * (nk + 7) - nk) nk 1 (chunks 4 nk key).reverse).reverse
  (List.range (nk + 7)).map (fun r => ((ws.drop (4 * r)).take 4).flatten)

/-- ShiftRows, the state column by column. -/
def shiftRows (s : Bytes) : Bytes := (List.range 16).map (fun i => s.getD ((i + 4 * (i % 4)) % 16) 0)

def invShiftRows (s : Bytes) : Bytes := (List.range 16).map (fun i => s.getD ((i + 12 * (i % 4)) % 16) 0)

/-- MixColumns with a row of coefficients. -/
def mixCols (co : List Nat) (s : Bytes) : Bytes :=
  (List.range 16).map (fun i =>
    (List.range 4).foldl (fun a j =>
      a ^^^ byteOf (gfMul (s.getD (i / 4 * 4 + j) 0).toNat (co.getD ((j + 4 - i % 4) % 4) 0))) 0)

/-- The forward cipher over the round keys after the first. -/
def aesRounds (ks : List Bytes) (s : Bytes) : Bytes :=
  match ks with
  | [] => s
  | [k] => xorBytes (shiftRows (s.map sbox)) k
  | k :: r => aesRounds r (xorBytes (mixCols [2, 3, 1, 1] (shiftRows (s.map sbox))) k)

/-- The inverse cipher over the round keys in falling order, after the last one has been added. -/
def aesInvRounds (ks : List Bytes) (s : Bytes) : Bytes :=
  match ks with
  | [] => s
  | [k] => xorBytes ((invShiftRows s).map invSbox) k
  | k :: r => aesInvRounds r (mixCols [14, 11, 13, 9] (xorBytes ((invShiftRows s).map invSbox) k))

/-- One block enciphered under a key of 16 or 32 bytes (FIPS 197). -/
def aesEnc (key b : Bytes) : Bytes :=
  match roundKeys key with
  | k :: r => aesRounds r (xorBytes (slice b 0 16) k)
  | [] => b

/-- One block deciphered. -/
def aesDec (key b : Bytes) : Bytes :=
  match (roundKeys key).reverse with
  | k :: r => aesInvRounds r (xorBytes (slice b 0 16) k)
  | [] => b

def zero16 : Bytes := List.replicate 16 0

/-- Multiplication in the field of GHASH; blocks are read with their first bit most significant. -/
def ghashMul (x y : Nat) : Nat :=
  ((List.range 128).foldl (fun (r : Nat × Nat) i =>
    let z := if bit x (127 - i) then Nat.xor r.1 r.2 else r.1
    (z, if r.2 % 2 = 1 then Nat.xor (r.2 / 2) (0xE1 * 2 ^ 120) else r.2 / 2)) (0, y)).1

/-- GHASH over whole blocks. -/
def ghash (h : Nat) (n : Nat) (b : Bytes) (y : Nat) : Nat :=
  match n with
  | 0 => y
  | n + 1 => ghash h n (b.drop 16) (ghashMul (Nat.xor y (beNat (slice b 0 16))) h)

/-- Zero bytes up to a whole number of 16-byte blocks. -/
def padBlocks (b : Bytes) : Bytes := b ++ List.replicate ((16 - b.length % 16) % 16) 0

/-- Counter mode from a counter value on (SP 800-38D: the last 32 bits count). -/
def gctr (key iv : Bytes) (n ctr : Nat) (b : Bytes) : Bytes :=
  match n with
  | 0 => []
  | n + 1 => xorBytes (b.take 16) (aesEnc key (iv ++ beBytes 4 ctr)) ++ gctr key iv n (ctr + 1) (b.drop 16)

/-- The 16-byte tag of GCM with a 96-bit IV (R352). -/
def gcmTag (key iv aad ct : Bytes) : Bytes :=
  let h := beNat (aesEnc key zero16)
  let m := padBlocks aad ++ padBlocks ct ++ beBytes 8 (aad.length * 8) ++ beBytes 8 (ct.length * 8)
  xorBytes (beBytes 16 (ghash h (m.length / 16) m 0)) (aesEnc key (iv ++ [0, 0, 0, 1]))

/-- GCM encryption: ciphertext and tag. -/
def gcmEnc (key iv aad pt : Bytes) : Bytes × Bytes :=
  let ct := gctr key iv (ceilDiv pt.length 16) 2 pt
  (ct, gcmTag key iv aad ct)

/-- GCM decryption: the plaintext, and whether the tag matches. -/
def gcmDec (key iv aad ct tag : Bytes) : Bytes × Bool :=
  (gctr key iv (ceilDiv ct.length 16) 2 ct, gcmTag key iv aad ct == tag)

/-- R356: the next tweak. -/
def xtsNext (t : Bytes) : Bytes :=
  let v := leNat t * 2
  leBytes 16 (if v ≥ 2 ^ 128 then Nat.xor (v % 2 ^ 128) 0x87 else v)

/-- R356: the blocks of a data unit under a tweak. -/
def xtsBlocks (dec : Bool) (key : Bytes) (n : Nat) (t b : Bytes) : Bytes :=
  match n with
  | 0 => []
  | n + 1 =>
    let x := xorBytes (slice b 0 16) t
    xorBytes (if dec then aesDec key x else aesEnc key x) t ++ xtsBlocks dec key n (xtsNext t) (b.drop 16)

/-- R356: `n` data units of `size` bytes from sequence number `i`. -/
def xtsUnits (dec : Bool) (k1 k2 : Bytes) (size n i : Nat) (b : Bytes) : Bytes :=
  match n with
  | 0 => []
  | n + 1 =>
    xtsBlocks dec k1 (size / 16) (aesEnc k2 (leBytes 16 i)) b
      ++ xtsUnits dec k1 k2 size n ((i + 1) % 2 ^ 128) (b.drop size)

/-- The round constants of SHA-384. -/
def shaK : List Nat :=
  [0x428A2F98D728AE22, 0x7137449123EF65CD, 0xB5C0FBCFEC4D3B2F, 0xE9B5DBA58189DBBC, 0x3956C25BF348B538,
   0x59F111F1B605D019, 0x923F82A4AF194F9B, 0xAB1C5ED5DA6D8118, 0xD807AA98A3030242, 0x12835B0145706FBE,
   0x243185BE4EE4B28C, 0x550C7DC3D5FFB4E2, 0x72BE5D74F27B896F, 0x80DEB1FE3B1696B1, 0x9BDC06A725C71235,
   0xC19BF174CF692694, 0xE49B69C19EF14AD2, 0xEFBE4786384F25E3, 0x0FC19DC68B8CD5B5, 0x240CA1CC77AC9C65]
  ++ [0x2DE92C6F592B0275, 0x4A7484AA6EA6E483, 0x5CB0A9DCBD41FBD4, 0x76F988DA831153B5, 0x983E5152EE66DFAB,
   0xA831C66D2DB43210, 0xB00327C898FB213F, 0xBF597FC7BEEF0EE4, 0xC6E00BF33DA88FC2, 0xD5A79147930AA725,
   0x06CA6351E003826F, 0x142929670A0E6E70, 0x27B70A8546D22FFC, 0x2E1B21385C26C926, 0x4D2C6DFC5AC42AED,
   0x53380D139D95B3DF, 0x650A73548BAF63DE, 0x766A0ABB3C77B2A8, 0x81C2C92E47EDAEE6, 0x92722C851482353B]
  ++ [0xA2BFE8A14CF10364, 0xA81A664BBC423001, 0xC24B8B70D0F89791, 0xC76C51A30654BE30, 0xD192E819D6EF5218,
   0xD69906245565A910, 0xF40E35855771202A, 0x106AA07032BBD1B8, 0x19A4C116B8D2D0C8, 0x1E376C085141AB53,
   0x2748774CDF8EEB99, 0x34B0BCB5E19B48A8, 0x391C0CB3C5C95A63, 0x4ED8AA4AE3418ACB, 0x5B9CCA4F7763E373,
   0x682E6FF3D6B2B8A3, 0x748F82EE5DEFB2FC, 0x78A5636F43172F60, 0x84C87814A1F0AB72, 0x8CC702081A6439EC]
  ++ [0x90BEFFFA23631E28, 0xA4506CEBDE82BDE9, 0xBEF9A3F7B2C67915, 0xC67178F2E372532B, 0xCA273ECEEA26619C,
   0xD186B8C721C0C207, 0xEADA7DD6CDE0EB1E, 0xF57D4F7FEE6ED178, 0x06F067AA72176FBA, 0x0A637DC5A2C898A6,
   0x113F9804BEF90DAE, 0x1B710B35131C471B, 0x28DB77F523047D84, 0x32CAAB7B40C72493, 0x3C9EBE0A15C9BEBC,
   0x431D67C49C100D4C, 0x4CC5D4BECB3E42B6, 0x597F299CFC657E2A, 0x5FCB6FAB3AD6FAEC, 0x6C44198C4A475817]

/-- The initial hash value of SHA-384. -/
def sha384Iv : List Nat :=
  [0xCBBB9D5DC1059ED8, 0x629A292A367CD507, 0x9159015A3070DD17, 0x152FECD8F70E5939,
   0x67332667FFC00B31, 0x8EB44A8768581511, 0xDB0C2E0D64F98FA7, 0x47B5481DBEFA4FA4]

def rotr64 (x n : Nat) : Nat := x / 2 ^ n + x % 2 ^ n * 2 ^ (64 - n)

def xor3 (a b c : Nat) : Nat := Nat.xor (Nat.xor a b) c

/-- The message schedule, newest word first, extended by `n` words. -/
def shaSched (n : Nat) (ws : List Nat) : List Nat :=
  match n with
  | 0 => ws
  | n + 1 =>
    let w2 := ws.getD 1 0
    let w15 := ws.getD 14 0
    let s1 := xor3 (rotr64 w2 19) (rotr64 w2 61) (w2 / 2 ^ 6)
    let s0 := xor3 (rotr64 w15 1) (rotr64 w15 8) (w15 / 2 ^ 7)
    shaSched n ((s1 + ws.getD 6 0 + s0 + ws.getD 15 0) % 2 ^ 64 :: ws)

/-- One round on the eight working words. -/
def shaRound (v : List Nat) (kw : Nat) : List Nat :=
  match v with
  | [a, b, c, d, e, f, g, h] =>
    let s1 := xor3 (rotr64 e 14) (rotr64 e 18) (rotr64 e 41)
    let ch := Nat.xor (Nat.land e f) (Nat.land (2 ^ 64 - 1 - e) g)
    let t1 := h + s1 + ch + kw
    let s0 := xor3 (rotr64 a 28) (rotr64 a 34) (rotr64 a 39)
    let mj := xor3 (Nat.land a b) (Nat.land a c) (Nat.land b c)
    [(t1 + s0 + mj) % 2 ^ 64, a, b, c, (d + t1) % 2 ^ 64, e, f, g]
  | _ => v

/-- One block of 128 bytes. -/
def shaBlock (h : List Nat) (b : Bytes) : List Nat :=
  let ws := (shaSched 64 (((chunks 8 16 b).map beNat).reverse)).reverse
  let v := (List.zipWith (· + ·) shaK ws).foldl shaRound h
  List.zipWith (fun a b => (a + b) % 2 ^ 64) h v

/-- SHA-384 (FIPS 180-4). -/
def sha384 (m : Bytes) : Bytes :=
  let z := (128 - (m.length + 17) % 128) % 128
  let p := m ++ [0x80] ++ List.replicate z 0 ++ beBytes 16 (m.length * 8)
  (((chunks 128 (p.length / 128) p).foldl shaBlock sha384Iv).take 6).flatMap (beBytes 8)

/-- HMAC with SHA-384. -/
def hmac384 (key m : Bytes) : Bytes :=
  let k := slice (if key.length > 128 then sha384 key else key) 0 128
  sha384 (k.map (· ^^^ 0x5C) ++ sha384 (k.map (· ^^^ 0x36) ++ m))

/-- HKDF-Expand with SHA-384, for at most 48 bytes. -/
def hkdfExpand (prk info : Bytes) (n : Nat) : Bytes := (hmac384 prk (info ++ [1])).take n

/-- The prime, coefficient b, order and base point of P-384. -/
def p384 : Nat := 2 ^ 384 - 2 ^ 128 - 2 ^ 96 + 2 ^ 32 - 1
def p384b : Nat :=
  0xB3312FA7E23EE7E4988E056BE3F82D19181D9C6EFE8141120314088F5013875AC656398D8A2ED19D2A85C8EDD3EC2AEF
def p384n : Nat :=
  0xFFFFFFFFFFFFFFFFFFFFFFFFFFFFFFFFFFFFFFFFFFFFFFFFC7634D81F4372DDF581A0DB248B0A77AECEC196ACCC52973
def p384g : Nat × Nat :=
  (0xAA87CA22BE8B05378EB1C71EF320AD746E1D3B628BA79B9859F741E082542A385502F25DBF55296C3A545E3872760AB7,
   0x3617DE4A96262C6F5D9E98BF9292DC29F8F41DBD289A147CE9DA3113B5F0B8C00A60B1CE1D7E819D7A431D7C90EA0E5F)

/-- A power modulo `m`, over the low `n` bits of the exponent. -/
def powMod (m : Nat) (n : Nat) (b e : Nat) : Nat :=
  match n with
  | 0 => 1 % m
  | n + 1 => let r := powMod m n (b * b % m) (e / 2); if e % 2 = 1 then b * r % m else r

/-- The inverse modulo a prime below 2^384. -/
def invMod (m a : Nat) : Nat := powMod m 384 (a % m) (m - 2)

/-- A point of the curve; none is the point at infinity. -/
abbrev Point := Option (Nat × Nat)

def ecAdd (a b : Point) : Point :=
  match a, b with
  | none, q => q
  | q, none => q
  | some (x1, y1), some (x2, y2) =>
    if x1 = x2 && (y1 + y2) % p384 == 0 then none
    else
      let l := if x1 = x2 then (3 * x1 * x1 + (p384 - 3)) * invMod p384 (2 * y1) % p384
               else (y2 + p384 - y1) * invMod p384 (x2 + p384 - x1) % p384
      let x := (l * l + 2 * p384 - x1 - x2) % p384
      some (x, (l * (x1 + p384 - x) + p384 - y1) % p384)

/-- A multiple of a point, over the low `n` bits of the scalar. -/
def ecMul (n k : Nat) (q : Point) : Point :=
  match n with
  | 0 => none
  | n + 1 => let r := ecMul n (k / 2) (ecAdd q q); if k % 2 = 1 then ecAdd q r else r

/-- Whether a pair of coordinates is a point of the curve. -/
def onCurve (q : Nat × Nat) : Bool :=
  q.1 < p384 && q.2 < p384 && q.2 * q.2 % p384 == (q.1 * q.1 * q.1 + (p384 - 3) * q.1 + p384b) % p384

/-- A public key as X then Y, 48 bytes each, big-endian. -/
def pointOf (b : Bytes) : Nat × Nat := (beAt b 0 48, beAt b 48 48)
def pointBytes (q : Point) : Bytes :=
  match q with
  | some (x, y) => beBytes 48 x ++ beBytes 48 y
  | none => List.replicate 96 0

/-- ECDSA verification with SHA-384: a signature is r then s, 48 bytes each, big-endian. -/
def ecdsaVerify (pub msg sig : Bytes) : Bool :=
  let q := pointOf pub
  let r := beAt sig 0 48
  let s := beAt sig 48 48
  if !onCurve q || r = 0 || s = 0 || r ≥ p384n || s ≥ p384n then false
  else
    let e := beNat (sha384 msg)
    let w := invMod p384n s
    match ecAdd (ecMul 384 (e * w % p384n) (some p384g)) (ecMul 384 (r * w % p384n) (some q)) with
    | none => false
    | some (x, _) => x % p384n == r

/-- ECDSA signature of a message under a private key with the per-message secret `k`. -/
def ecdsaSign (priv k : Nat) (msg : Bytes) : Bytes :=
  match ecMul 384 k (some p384g) with
  | none => List.replicate 96 0
  | some (x, _) =>
    let r := x % p384n
    beBytes 48 r ++ beBytes 48 (invMod p384n k * (beNat (sha384 msg) + r * priv) % p384n)

end Sys2Proof.Machine
end

