-- ==== Sys2Proof/Machine/LckOps.lean ====
section
/-! DEFINITION. The Locksmith and Husk: slots and ranges, key blobs, job checks, clusters and their caches (R337 to
R377).
Log entries 68, 69, 175. -/

namespace Sys2Proof.Machine

open Sys2Proof

def putLck (s : State) (l : Lck) : State := { s with lck := l }
def putHsk (s : State) (h : Hsk) : State := { s with hsk := h }

def slotGet (s : State) (n : Nat) : LckSlot := SMap.get LckSlot.none s.lck.slots n
def slotPut (s : State) (n : Nat) (x : LckSlot) : State :=
  putLck s { s.lck with slots := SMap.set LckSlot.none s.lck.slots n x }

def lckCount (s : State) (n : Nat) : State := s.inc R.LCK_CNT.COUNT [n]
def hskCount (s : State) (n : Nat) : State := s.inc R.HSK_CNT.COUNT [n]

/-- R360: whether slot `n` lies in the range of domain `d`. -/
def inRange (s : State) (d n : Nat) : Bool :=
  let (b, c) := SMap.get (0, 0) s.lck.range d
  b ≤ n && n < b + c

/-- Status codes of R350 and R364. -/
def stKeyFault : Nat := 0x05
def stNonceExhausted : Nat := 0x18
def stAuthFail : Nat := 0x20
def stCipherFault : Nat := 0x21
def stPoison : Nat := 0x22
def stSlotOccupied : Nat := 0x30
def stSlotEmpty : Nat := 0x31
def stBlobAuth : Nat := 0x32
def stDomainMismatch : Nat := 0x33
def stWeakKey : Nat := 0x34
def stNotExportable : Nat := 0x35
def stGenFail : Nat := 0x36
def stNotReady : Nat := 0x37

/-- R361: material bytes of a TYPE; 0 for a reserved one. -/
def matLen (ty : Nat) : Nat :=
  match ty with
  | 1 => 32 | 2 => 16 | 3 => 36 | 4 => 20 | 5 => 32 | 6 => 64 | 7 => 32 | _ => 0

/-- R361: the types that serve an operation. -/
def serves (ty op : Nat) : Bool :=
  match op with
  | 1 => ty == 1 || ty == 2
  | 2 => ty == 1 || ty == 2
  | 3 => ty == 3 || ty == 4
  | 4 => ty == 3 || ty == 4
  | 5 => ty == 5 || ty == 6
  | 6 => ty == 5 || ty == 6
  | _ => false

/-- The slots a key of a type occupies. -/
def keySlots (ty n : Nat) : List Nat := if ty = 6 then [n, n + 1] else [n]

/-- R365: a key written to its slot, or slot pair. -/
def slotFill (s : State) (n ty attr dom origin : Nat) (mat : Bytes) : State :=
  let one (s : State) (n : Nat) (m salt : Bytes) : State :=
    slotPut s n { slotGet s n with st := 1, ty := ty, attr := attr, dom := dom, origin := origin, exports := 0, mat := m,
                                   salt := salt }
  match ty with
  | 3 => one s n (mat.take 32) (slice mat 32 4)
  | 4 => one s n (mat.take 16) (slice mat 16 4)
  | 6 => one (one s n (mat.take 32) []) (n + 1) (slice mat 32 32) []
  | _ => one s n mat []

/-- The material of a key as a blob carries it. -/
def slotMat (s : State) (n : Nat) : Bytes :=
  let x := slotGet s n
  if x.ty = 6 then x.mat ++ (slotGet s (n + 1)).mat else x.mat ++ x.salt

/-- R369 step 1: material zeroed, EMPTY, generation raised. -/
def slotZero (s : State) (n : Nat) : State := slotPut s n { LckSlot.none with gen := ((slotGet s n).gen + 1) % 4096 }

/-- R364: the check value of a key. -/
def checkValue (ty : Nat) (mat : Bytes) : Bytes :=
  (aesEnc (mat.take (if ty = 2 || ty = 4 || ty = 5 then 16 else 32)) zero16).take 3

/-- The BIND of a domain (R360, R382). -/
def bindOf (s : State) (d : Nat) : Nat := s.rd R.LCK_DOM_W2.BIND_LO [d] + 2 ^ 32 * s.rd R.LCK_DOM_W3.BIND_HI [d]

/-- R360: a new BIND drawn for a domain. -/
def newBind (s : State) (d : Nat) : State :=
  let (v, s) := s.freeBits 64
  (s.wr R.LCK_DOM_W2.BIND_LO [d] (v % 2 ^ 32)).wr R.LCK_DOM_W3.BIND_HI [d] (v / 2 ^ 32)

/-- R359, R374: a slot's cached copies dropped; jobs that still load it end with KEY_FAULT. -/
def purge (s : State) (n : Nat) : State :=
  let cache := (SMap.mapVal (fun l => l.filter (fun (e : Nat × Nat) => e.1 ≠ n)) s.hsk.cache).filter (fun e => e.2 ≠ [])
  let stop (j : HJob) : HJob := if j.need.contains n then { j with need := [], status := stKeyFault } else j
  let s := putHsk s { jobs := s.hsk.jobs.map stop, cache := cache }
  (List.range 32).foldl (fun s c => s.wr R.HSK_CLU_W1.KEYS_CACHED [c] (SMap.get [] s.hsk.cache c).length) s

/-- R369, R377: whether a job has loaded the key of a slot and has not finished. -/
def slotHeld (s : State) (n : Nat) : Bool :=
  s.hsk.jobs.any (fun j => j.need == [] && j.k1 ≠ [] && (j.slot == n || (j.k2 ≠ [] && j.slot + 1 == n)))

/-- R338, R379: live pairs of a cluster. -/
def pairsLive (s : State) (c : Nat) : Nat :=
  128 - (List.range 4).foldl (fun a w => a + popCount 32 (s.rd R.HSK_CLU_RETIRED.RETIRED [c, w])) 0

/-- R378, R379: the figures of the clusters follow power and retirement. -/
def hskShow (s : State) : State :=
  let s := (List.range 32).foldl (fun s c =>
    let n := pairsLive s c
    (s.wr R.HSK_CLU_W1.PAIRS_LIVE [c] n).wr R.HSK_CLU_W0.AVAIL [c] (b2n (domOn s (64 + c) && n ≠ 0))) s
  let av := (List.range 32).filter (fun c => s.flag R.HSK_CLU_W0.AVAIL [c])
  (s.wr R.HSK_STATUS.CLU_AVAIL [] av.length).wr R.HSK_STATUS.PAIRS_LIVE [] (av.foldl (fun a c => a + pairsLive s c) 0)

/-- Jobs queued on a cluster (R345). -/
def cluJobs (s : State) (c : Nat) : Nat := (s.hsk.jobs.filter (fun j => j.cluster == c)).length

def jobsShow (s : State) (c : Nat) : State := s.wr R.HSK_CLU_W1.JOBS_QUEUED [c] (cluJobs s c)

/-- R349: the key of a job for `op` in `slot` on behalf of domain `d`: both keys and the SALT; none for KEY_FAULT. -/
def jobKey (s : State) (op slot d : Nat) : Option (Bytes × Bytes × Bytes) :=
  let x := slotGet s slot
  if !s.flag R.HSK_CFG.EN [] || x.st ≠ 1 || x.dom ≠ d || !serves x.ty op || (x.ty = 6 && slot % 2 = 1) then none
  else
    match x.ty with
    | 5 => some (x.mat.take 16, slice x.mat 16 16, [])
    | 6 => if (slotGet s (slot + 1)).st = 1 then some (x.mat, (slotGet s (slot + 1)).mat, []) else none
    | _ => some (x.mat, [], x.salt)

/-- R359, R360: a write that applies a domain's range: a leaving slot is zeroized first, a range that overlaps another
domain's, or passes the store's end, is refused. -/
def rangeWrite (s : State) (d base count : Nat) : State :=
  let (ob, oc) := SMap.get (0, 0) s.lck.range d
  let clash := (s.lck.range ++ s.lck.pend).any (fun e =>
    e.1 ≠ d && decide (e.2.1 < base + count) && decide (base < e.2.1 + e.2.2))
  if s.flag R.LCK_DOM_W1.BUSY [d] || base + count > 1048576 || (count ≠ 0 && clash) then
    (s.wr R.LCK_STATUS.CFG_ERR [] 1).wr R.LCK_STATUS.ERR_DOM [] d
  else
    let s := (s.wr R.LCK_DOM_W0.BASE [d] base).wr R.LCK_DOM_W1.COUNT [d] count
    let stays (n : Nat) : Bool := base ≤ n && n < base + count
    let gone := oc - (min (ob + oc) (base + count) - max ob base)
    if gone = 0 then putLck s { s.lck with range := SMap.set (0, 0) s.lck.range d (base, count) }
    else
      let s := (s.lck.slots.filter (fun e => decide (ob ≤ e.1) && decide (e.1 < ob + oc) && !stays e.1)).foldl (fun s e =>
        purge (slotZero s e.1) e.1) s
      let s := s.add R.LCK_CNT.COUNT [6] gone
      (putLck s { s.lck with pend := SMap.ins s.lck.pend d (base, count) }).wr R.LCK_DOM_W1.BUSY [d] 1

/-- R360, R377: the zeroization of a range change ends once no job holds a leaving slot; a domain left without slots
draws a new BIND. -/
def rangeDone (s : State) (d : Nat) : State :=
  match SMap.find? s.lck.pend d with
  | none => s
  | some (b, c) =>
    let (ob, oc) := SMap.get (0, 0) s.lck.range d
    let held := s.hsk.jobs.any (fun j => j.need == [] && j.k1 ≠ [] && decide (ob ≤ j.slot) && decide (j.slot < ob + oc)
      && !(decide (b ≤ j.slot) && decide (j.slot < b + c)))
    if held then s
    else
      let s := putLck s { s.lck with range := SMap.set (0, 0) s.lck.range d (b, c), pend := SMap.del s.lck.pend d }
      let s := s.wr R.LCK_DOM_W1.BUSY [d] 0
      if oc ≠ 0 && c = 0 then newBind s d else s

/-- The blocks of a job: its data blocks, then E(K, J0) of GCM or the tweaks of XTS (R352, R356). -/
def dataBlocks (j : HJob) : Nat := ceilDiv j.len 16
def xtsJob (j : HJob) : Bool := j.op == 5 || j.op == 6
def extraBlocks (j : HJob) : Nat := if xtsJob j then j.len / 2 ^ j.du else 1
def allBlocks (j : HJob) : Nat := dataBlocks j + extraBlocks j

/-- The block that a job loads as its `t`-th: the tweaks or E(K, J0) first (R352, R356). -/
def blockAt (j : HJob) (t : Nat) : Nat := if t < extraBlocks j then dataBlocks j + t else t - extraBlocks j

/-- R338, R345: the live pairs of a cluster that hold no block, lowest first. -/
def freeLanes (s : State) (c : Nat) : List Nat :=
  let busy := (s.hsk.jobs.filter (fun j => j.cluster == c)).flatMap (fun j => j.lanes.map (·.pair))
  (List.range 128).filter (fun p => !bit (s.rd R.HSK_CLU_RETIRED.RETIRED [c, p / 32]) (p % 32) && !busy.contains p)
def freePairs (s : State) (c : Nat) : Nat := (freeLanes s c).length

/-- R342, R345: a job's waiting blocks loaded into free pairs, under the CHECK mode of the moment. -/
def loadJob (invert : Bool) (free : List Nat) (j : HJob) : HJob :=
  let rest := (List.range (allBlocks j - j.next)).map (fun i => blockAt j (j.next + i))
  let todo := (j.redo ++ rest).take free.length
  { j with lanes := j.lanes ++ (free.zip todo).map (fun x => { pair := x.1, blk := x.2, invert := invert }),
           redo := j.redo.drop todo.length, next := j.next + (todo.length - j.redo.length) }

/-- The jobs of cluster `c` in order, each taking what the earlier ones leave free. -/
def loadJobs (c : Nat) (invert : Bool) (free : List Nat) (l : List HJob) : List HJob :=
  match l with
  | [] => []
  | j :: r =>
    if j.cluster = c && j.need == [] && j.status == 0 && j.stuck.isNone then
      let k := loadJob invert free j
      k :: loadJobs c invert (free.drop (k.lanes.length - j.lanes.length)) r
    else j :: loadJobs c invert free r

/-- R345, R588: a cluster spreads its jobs' blocks over every free pair, at its duty in THROTTLE. -/
def loadLanes (s : State) (c : Nat) : State :=
  let t := putHsk s { s.hsk with jobs := loadJobs c (s.flag R.HSK_CLU_W0.CHECK [c]) (freeLanes s c) s.hsk.jobs }
  (List.range (freePairs s c - freePairs t c)).foldl (fun s _ => dutyTake s (64 + c) (s.rd R.REV_THR.HSK_DUTY [])) t

/-- R341, R377: pair `x` (128c + k) retired: its cluster loses the pair, and a block that it held runs again on another. -/
def retirePair (s : State) (x : Nat) : State :=
  let again (j : HJob) : HJob :=
    if j.cluster = x / 128 then
      { j with lanes := j.lanes.filter (fun y => y.pair ≠ x % 128),
               redo := (j.lanes.filter (fun y => y.pair == x % 128)).map (·.blk) ++ j.redo }
    else j
  hskShow (hskCount (loadLanes (putHsk s { s.hsk with jobs := s.hsk.jobs.map again }) (x / 128)) 9)

/-- R340: a failure of a pair. -/
def pairFail (s : State) (x : Nat) : State :=
  let s := (s.wr R.HSK_CLU_FAIL.FAIL_PAIR [x / 128] (x % 128)).wr R.HSK_CLU_FAIL.FAIL_VALID [x / 128] 1
  match countFailure (hskCount s 2) 3 x 0 [] with
  | (s, true) => retirePair s x
  | (s, false) => s

end Sys2Proof.Machine
end

