-- ==== Sys2Proof/Machine/HskOps.lean ====
section
/-! DEFINITION. Husk jobs: presentation, dispatch to a cluster, key loads, blocks, results (R343 to R357, R373, R377).
Log entries 70. -/

namespace Sys2Proof.Machine

open Sys2Proof

/-- R347: a Filbert job record. -/
def jobOf (m : Bytes) (cluster : Nat) : HJob :=
  { req := 6, key := leAt m 52 2, op := byteAt m 0, dom := leAt m 2 2 % 1024, slot := leAt m 4 4 % 2 ^ 20, src := leAt m 8 8,
    dst := leAt m 16 8, len := leAt m 24 4 % 2 ^ 17, aad := leAt m 28 2 % 512, du := byteAt m 30, param := slice m 32 16,
    tag := leAt m 48 4, reply := leAt m 52 2, cluster := cluster, need := [], k1 := [], k2 := [], salt := [], status := 0,
    stuck := none, esp := none }

/-- R347, R348: whether a job record breaks its format. -/
def jobBad (j : HJob) : Bool :=
  let xts := j.op == 5 || j.op == 6
  j.op = 0 || j.op > 6 || j.len > 65536 || j.aad > 256
    || (if xts then !(9 ≤ j.du && j.du ≤ 12) || j.len == 0 || j.len % 2 ^ j.du ≠ 0 || decide (j.len > 16 * 2 ^ j.du) || j.aad ≠ 0
        else j.du ≠ 0)
    || ((j.op = 3 || j.op = 4) && j.aad ≠ 8)

/-- The model's HBM address of a device address (R347, R394); none outside HBM. -/
def devAddr (a n : Nat) : Option Nat :=
  if 0x8000000000 ≤ a && a < 0xC000000000 then
    let st := (a - 0x8000000000) / 2 ^ 36
    let off := (a - 0x8000000000) % 2 ^ 36
    if off + n ≤ 48 * 2 ^ 30 then some (hbmAddr st off) else none
  else none

/-- R147, R343: the ESP job of a packet. -/
def espJob (e : Esp) (cluster : Nat) : HJob :=
  let n := min e.walk.encl e.pkt.data.length - (e.off + 32)
  { req := 4, key := beAt e.pkt.data e.off 4 * 1024 + e.pkt.domain, op := 4, dom := e.pkt.domain, slot := e.slot, src := 0,
    dst := 0, len := n, aad := 8, du := 0, param := slice e.pkt.data (e.off + 8) 8, tag := 0, reply := 0, cluster := cluster,
    need := [], k1 := [], k2 := [], salt := [], status := 0, stuck := none, esp := some e }

/-- R345, R377: whether a cluster is available with room in its queue. -/
def cluOpen (s : State) (c : Nat) : Bool :=
  s.flag R.HSK_CLU_W0.AVAIL [c] && decide (cluJobs s c < 64) && !bit (s.rd R.PWR_DOM_HELD.HELD [(64 + c) / 32]) ((64 + c) % 32)

/-- R345: whether cluster `c` is the one that takes a job of quadrant `q`: of the open clusters of the quadrant, or of the device
where the quadrant has none, the one with the most free pairs, the lowest number breaking a tie. -/
def cluTakes (s : State) (q c : Nat) : Bool :=
  let mine := ((List.range 8).map (8 * q + ·)).filter (cluOpen s)
  let l := if mine = [] then (List.range 32).filter (cluOpen s) else mine
  l.contains c && l.all (fun i => decide (freePairs s i < freePairs s c) || (freePairs s i == freePairs s c && decide (c ≤ i)))

/-- R343: whether the weights let requester `r` be dispatched now: one of weight 0 only where none of nonzero weight
waits. -/
def weightOk (s : State) (r : Nat) : Bool :=
  let w (i : Nat) : Nat := s.rd R.HSK_ARB.WEIGHT [i]
  let fil := (List.range 4).any (fun q => (chanMsgs s (0xFF00 + q)) ≠ [])
  w r ≠ 0 || !((r ≠ 4 && s.win.esp ≠ [] && w 4 ≠ 0) || (r ≠ 6 && fil && w 6 ≠ 0))

/-- R44, R343, R345: whether work that requester `r` presents within another command can be dispatched now; while Husk is off it
ends at once (R378). -/
def huskAble (s : State) (r : Nat) : Bool :=
  !s.flag R.HSK_CFG.EN [] || (weightOk s r && (List.range 32).any (cluOpen s))

/-- R338, R373: a slot of a cluster's cache used: it becomes the most recent. -/
def cacheTouch (s : State) (c n : Nat) : State :=
  let l := SMap.get [] s.hsk.cache c
  match l.find? (fun e => e.1 == n) with
  | none => s
  | some e => putHsk s { s.hsk with cache := SMap.ins s.hsk.cache c (e :: l.filter (fun x => x.1 ≠ n)) }

/-- R338, R374: whether a cluster holds the current key of a slot. -/
def cached (s : State) (c n : Nat) : Bool := (SMap.get [] s.hsk.cache c).contains (n, (slotGet s n).gen)

/-- R348, R349, R373: a job checked, and put on its cluster with the key loads it needs. -/
def jobPlace (s : State) (j : HJob) : State :=
  let j :=
    if jobBad j then { j with status := 1 }
    else
      match jobKey s j.op j.slot j.dom with
      | none => { j with status := stKeyFault }
      | some (k1, k2, salt) =>
        let slots := if (slotGet s j.slot).ty = 6 then [j.slot, j.slot + 1] else [j.slot]
        { j with k1 := k1, k2 := k2, salt := salt, need := slots.filter (fun n => !cached s j.cluster n) }
  let s := j.need.foldl (fun s _ => hskCount s 10) s
  let s := cacheTouch s j.cluster j.slot
  jobsShow (loadLanes (putHsk s { s.hsk with jobs := s.hsk.jobs ++ [j] }) j.cluster) j.cluster

/-- R343: the longest dispatch wait of a requester, in units of 10 ns. -/
def waited (s : State) (r n : Nat) : State := s.wr R.HSK_ARB.MAX_WAIT [r] (min 4095 (max n (s.rd R.HSK_ARB.MAX_WAIT [r])))

/-- R345: a waiting job of a requester dispatched to cluster `c`: for Filbert the next message of the job channel of
quadrant `q`, for ESP the oldest packet. -/
def dispatch (s : State) (r q c w : Nat) : State :=
  if r = 6 then
    match chanMsgs s (0xFF00 + q) with
    | [] => s
    | m :: rest =>
      if !weightOk s 6 || !cluTakes s q c then s
      else waited (jobPlace (chanSet s (0xFF00 + q) rest) (jobOf m c)) 6 w
  else if r = 4 then
    match s.win.esp with
    | [] => s
    | e :: rest =>
      if !weightOk s 4 || !cluTakes s (e.pkt.pipe / 4) c then s
      else
        let bad := e.walk.esp.isNone || min e.walk.encl e.pkt.data.length < e.off + 32
        let j := espJob e c
        let s := putWin s { s.win with esp := rest }
        if bad then putWin s { s.win with espDone := s.win.espDone ++ [(e, stAuthFail, [])] } else waited (jobPlace s j) 4 w
  else s

/-- R373: the key loads that a cluster has outstanding: the first 8 slots that its jobs need. -/
def loadsOut (s : State) (c : Nat) : List Nat :=
  ((s.hsk.jobs.filter (fun j => j.cluster == c)).flatMap (·.need)).eraseDups.take 8

/-- R373: a cluster's load of a slot's key ends; the least recently used entry that no queued job names gives way. -/
def keyLoaded (s : State) (c n : Nat) : State :=
  if !s.flag R.LCK_CFG.EN [] || !(loadsOut s c).contains n then s
  else
    let l := SMap.get [] s.hsk.cache c
    let named (x : Nat × Nat) : Bool := s.hsk.jobs.any (fun j => j.cluster == c && (j.slot == x.1 || j.slot + 1 == x.1))
    let l := if l.length < 64 then l
      else match l.reverse.find? (fun x => !named x) with
        | some x => l.filter (fun y => y ≠ x)
        | none => l.dropLast
    let got (j : HJob) : HJob := if j.cluster = c then { j with need := j.need.filter (· ≠ n) } else j
    let s := putHsk s { jobs := s.hsk.jobs.map got, cache := SMap.ins s.hsk.cache c ((n, (slotGet s n).gen) :: l) }
    loadLanes ((lckCount s 5).wr R.HSK_CLU_W1.KEYS_CACHED [c] (SMap.get [] s.hsk.cache c).length) c

/-- A job with a block that is never released: no further block of it is loaded (R340 step 4). -/
def stickBlock (s : State) (n blk : Nat) : State :=
  let stick (j : HJob) : HJob := { j with stuck := some blk, lanes := [], redo := [] }
  putHsk s { s.hsk with jobs := modifyAt s.hsk.jobs n stick }

/-- A block leaves its pair, released. -/
def unlane (s : State) (n blk pair : Nat) : State :=
  putHsk s { s.hsk with jobs := modifyAt s.hsk.jobs n (fun j =>
    { j with lanes := j.lanes.filter (fun y => y.pair ≠ pair),
             released := if blk < dataBlocks j then j.released ++ [blk] else j.released }) }

/-- R339, R340: block `blk` of job `n` has been computed on the pair of its cluster that holds it. -/
def blockCompare (s : State) (n blk pair : Nat) (x : BlockRes) : State :=
  match s.hsk.jobs[n]? with
  | none => s
  | some j =>
    if !j.lanes.any (fun y => y.pair == pair && y.blk == blk) then s
    else
      let c := j.cluster
      let u := 128 * c + pair
      let out (s : State) : State := if blk < dataBlocks j then hskCount s 0 else s
      match x with
      | .same => loadLanes (out (unlane s n blk pair)) c
      | .retry p ok =>
        if !(freeLanes s c).contains p.val then s
        else if ok then loadLanes (out (hskCount (pairFail (unlane s n blk pair) u) 3)) c
        else loadLanes (pairFail (pairFail (stickBlock s n blk) u) (128 * c + p.val)) c
      | .ghash true => if xtsJob j then s else hskCount s 11
      | .ghash false =>
        if xtsJob j then s
        else
          let s := loadLanes (stickBlock (hskCount (hskCount s 11) 11) n blk) c
          match countFailure s 4 c 0 [] with
          | (s, true) => hskShow s
          | (s, false) => s

/-- Whether a line of an area carries the poison mark (R168), or reads poisoned for a retired pseudo-channel (R595). -/
def poisonedRange (s : State) (a n : Nat) : Bool :=
  n ≠ 0 && (s.fil.poison.any (fun e => decide (a / 64 ≤ e.1) && decide (e.1 ≤ (a + n - 1) / 64))
    || (!s.hbmWhole && (List.range ((a + n - 1) / 64 - a / 64 + 1)).any (fun i => s.hbmGone ((a / 64 + i) * 64))))

/-- R352, R353, R355, R356: output, ICV and whether the tag matched, for a job on its input bytes. -/
def jobCompute (j : HJob) (aad inp icv : Bytes) : Bytes × Bytes × Bool :=
  match j.op with
  | 1 => let r := gcmEnc j.k1 (j.param.take 12) aad inp; (r.1, r.2, true)
  | 2 => let r := gcmDec j.k1 (j.param.take 12) aad inp icv; (r.1, [], r.2)
  | 3 => let r := gcmEnc j.k1 (j.salt ++ j.param.take 8) aad inp; (r.1, r.2, true)
  | 4 => let r := gcmDec j.k1 (j.salt ++ j.param.take 8) aad inp icv; (r.1, [], r.2)
  | op => (xtsUnits (op == 6) j.k1 j.k2 (2 ^ j.du) (j.len / 2 ^ j.du) (leNat j.param) inp, [], true)

/-- R351: the output lines of a job that come from poisoned input blocks carry the poison mark. -/
def markPoison (s : State) (src dst n : Nat) : State :=
  let lines := (List.range (ceilDiv n 16)).foldl (fun a i =>
    if poisonedRange s (src + 16 * i) 16 then a ++ [(dst + 16 * i) / 64] else a) []
  { s with fil := { s.fil with poison := lines.foldl (fun m l => SMap.set false m l true) s.fil.poison } }

/-- R350: the completion message of a Filbert job. -/
def jobReply (s : State) (j : HJob) (status written : Nat) : State :=
  let m := leBytes 4 j.tag ++ [byteOf status, byteOf j.op, 0, 0] ++ leBytes 4 written ++ [byteOf (j.cluster % 32)]
  (hwPost s j.reply 2 (slice m 0 64)).1

/-- The HSK_CNT index of a status (R380). -/
def statusCount (st : Nat) : Option Nat :=
  if st = stCipherFault then some 4 else if st = stAuthFail then some 5 else if st = stKeyFault then some 6
  else if st = stPoison then some 7 else if st = 1 then some 8 else none

def countStatus (s : State) (st : Nat) : State :=
  match statusCount st with
  | some k => hskCount (hskCount s 1) k
  | none => hskCount s 1

/-- R350, R351: a Filbert job ends. -/
def filJobEnd (s : State) (j : HJob) : State :=
  if j.status ≠ 0 then jobReply (countStatus s j.status) j j.status 0
  else
    let dec := j.op = 2 || j.op = 4
    let icvIn := if dec then 16 else 0
    let icvOut := if j.op = 1 || j.op = 3 then 16 else 0
    match devAddr j.src (j.aad + j.len + icvIn), devAddr j.dst (j.len + icvOut) with
    | some src, some dst =>
      let aad := s.hbmRead src j.aad
      let inp := s.hbmRead (src + j.aad) j.len
      let icv := s.hbmRead (src + j.aad + j.len) icvIn
      let (out, tag, ok) := jobCompute j aad inp icv
      let poison := poisonedRange s src (j.aad + j.len + icvIn)
      match j.stuck with
      | some _ =>
        let st := if poison then stPoison else stCipherFault
        let s := j.released.foldl (fun s b => markPoison (s.hbmWrite (dst + 16 * b) (slice out (16 * b) (min 16 (j.len - 16 * b))))
          (src + j.aad + 16 * b) (dst + 16 * b) 16) s
        jobReply (countStatus s st) j st (j.released.foldl (fun n b => n + min 16 (j.len - 16 * b)) 0)
      | none =>
        let st := if poison then stPoison else if !ok then stAuthFail else 0
        let s := markPoison (s.hbmWrite dst (out ++ tag)) (src + j.aad) dst j.len
        jobReply (countStatus s st) j st (j.len + icvOut)
    | _, _ => jobReply (countStatus s 1) j 1 0

/-- R351: an ESP job ends; its packet waits to re-enter, or to be dropped. -/
def espJobEnd (s : State) (j : HJob) (e : Esp) : State :=
  let n := e.off + 16 + j.len
  let (out, _, ok) := jobCompute j (slice e.pkt.data e.off 8) (slice e.pkt.data (e.off + 16) j.len) (slice e.pkt.data n 16)
  let st := if j.status ≠ 0 then j.status
    else if e.pkt.poison then stPoison
    else if j.stuck.isSome then stCipherFault
    else if !ok then stAuthFail else 0
  let s := countStatus s st
  putWin s { s.win with espDone := s.win.espDone ++ [(e, st, if st = 0 then out else [])] }

/-- R339: whether every block of a job has been compared, or it met a fault. -/
def jobRan (j : HJob) : Bool := j.status ≠ 0 || j.stuck.isSome || (j.lanes == [] && j.redo == [] && j.next == allBlocks j)

/-- R346, R350: dispatched job `n` ends: its keys are loaded, its blocks are compared, and no earlier job with its ordering key
is left. -/
def jobEnd (s : State) (n : Nat) : State :=
  match s.hsk.jobs[n]? with
  | none => s
  | some j =>
    if j.need ≠ [] || !jobRan j || (s.hsk.jobs.take n).any (fun i => i.req == j.req && i.key == j.key) then s
    else
      let s := jobsShow (loadLanes (putHsk s { s.hsk with jobs := s.hsk.jobs.eraseIdx n }) j.cluster) j.cluster
      match j.esp with
      | some e => espJobEnd s j e
      | none => filJobEnd s j

/-- A cipher operation that another block presents within its own command: none for KEY_FAULT (R349). -/
def huskRun (s : State) (op slot d du : Nat) (param aad inp icv : Bytes) : Option (Bytes × Bytes × Bool) × State :=
  match jobKey s op slot d with
  | none => (none, hskCount (hskCount s 6) 1)
  | some (k1, k2, salt) =>
    let j : HJob := { req := 0, key := 0, op := op, dom := d, slot := slot, src := 0, dst := 0, len := inp.length, aad := aad.length,
                      du := du, param := param, tag := 0, reply := 0, cluster := 0, need := [], k1 := k1, k2 := k2, salt := salt,
                      status := 0, stuck := none, esp := none }
    let r := jobCompute j aad inp icv
    let s := s.add R.HSK_CNT.COUNT [0] (ceilDiv inp.length 16)
    (some r, if r.2.2 then hskCount s 1 else hskCount (hskCount s 1) 5)

end Sys2Proof.Machine
end

