-- ==== Sys2Proof/Machine/NvmOps.lean ====
section
/-! DEFINITION. Emulated NVMe controllers as a party to the hosts: completion queues, interrupts, asynchronous events; and
the legs of extents with the state of namespaces (R395 to R402, R405). The layouts of NVMe 2.0 are PRESUMED.
Log entries 17, 74, 77. -/

namespace Sys2Proof.Machine

open Sys2Proof

def stgCount (s : State) (k : Nat) : State := s.inc R.STG_CNT.COUNT [k]
def putStg (s : State) (g : Stg) : State := { s with stg := g }

def ctlGet (s : State) (k : Nat) : Ctrl := SMap.get Ctrl.reset s.stg.ctrls k
def ctlPut (s : State) (k : Nat) (c : Ctrl) : State := putStg s { s.stg with ctrls := SMap.set Ctrl.reset s.stg.ctrls k c }
def ctlMod (s : State) (k : Nat) (f : Ctrl → Ctrl) : State := ctlPut s k (f (ctlGet s k))

/-- R395, R399: the attach point, PASID and domain of a controller: the function controller of attach point k for k below 8,
the controller of instance k − 8 above. -/
def ctlAp (s : State) (k : Nat) : Nat := if k < 8 then k else s.rd R.DOM_INST_W0.AP [k - 8]
def ctlPasid (s : State) (k : Nat) : Option Nat := if k < 8 then none else instPasid s (k - 8)
def ctlDom (s : State) (k : Nat) : Nat := if k < 8 then 0 else s.rd R.DOM_INST_W0.DOMAIN [k - 8]

/-- Whether the controller exists: its attach point is present, or its instance is ACTIVE and of class NVM. -/
def ctlExists (s : State) (k : Nat) : Bool :=
  if k < 8 then apPresent s k else s.rd R.DOM_INST_W0.STATE [k - 8] == 1 && s.rd R.DOM_INST_W0.CLASS [k - 8] == 3

def ctlInst (k : Nat) : Option Nat := if k < 8 then none else some (k - 8)

/-- A write of the controller to host memory. -/
def ctlWrite (s : State) (k addr : Nat) (data : Bytes) (isData ep : Bool) : State :=
  fnWrite s (ctlAp s k) 3 (ctlInst k) (ctlPasid s k) addr data isData ep

/-- R56, R439: whether the controller may access some areas of host memory now. -/
def ctlReach (s : State) (k : Nat) (w : Bool) (l : List (Nat × Nat)) : Bool × State :=
  reach s (ctlAp s k) 3 (ctlInst k) (ctlPasid s k) w l

/-- R26: a read of the controller, and what it brought. -/
def ctlFetch (s : State) (k : Nat) (l : List (Nat × Nat)) (x : RdRes) : Bool × State :=
  hostFetch s (ctlAp s k) 3 (ctlInst k) (ctlPasid s k) l x

/-- R395, R430: interrupt vector `v` of a controller. -/
def ctlIntr (s : State) (k v : Nat) : State :=
  if k < 8 then fireMsix s k 3 v
  else if v < s.rd R.DOM_INST_W2.NVEC [k - 8] then fireIrq s (s.rd R.DOM_INST_W2.IRQ_BASE [k - 8] + v) else s

/-- A completion queue entry. -/
def cqe (result sqhd sqid cid status : Nat) (phase : Bool) : Bytes :=
  leBytes 4 result ++ [0, 0, 0, 0] ++ leBytes 2 sqhd ++ leBytes 2 sqid ++ leBytes 2 cid ++ leBytes 2 (b2n phase + 2 * (status % 2 ^ 15))

/-- The value of a feature, its default where it was not set. Vector configurations lie at 0x900 + vector; all events are on. -/
def featDefault (f : Nat) : Nat := if f = 4 then 0xFFFF else if f = 0x0B then 0x104 else 0
def featGet (c : Ctrl) (f : Nat) : Nat := SMap.get (featDefault f) c.feat f
def featPut (c : Ctrl) (f v : Nat) : Ctrl := { c with feat := SMap.set (featDefault f) c.feat f v }

/-- R396: whether an entry just posted on completion queue `q` is held back by Interrupt Coalescing. -/
def coalesced (c : Ctrl) (q : Nat) (x : NvCq) : Bool :=
  q ≠ 0 && bits (featGet c 8) 8 8 ≠ 0 && !bit (featGet c (0x900 + x.iv)) 16 && decide (x.held < bits (featGet c 8) 0 8 + 1)

/-- The interrupt of a completion queue sent, where it is enabled. -/
def cqIntr (s : State) (k q : Nat) : State :=
  let c := ctlGet s k
  match SMap.find? c.cqs q with
  | none => s
  | some x =>
    let s := ctlPut s k { c with cqs := SMap.ins c.cqs q { x with held := 0, heldAt := 0 } }
    if x.ien then ctlIntr s k x.iv else s

/-- An entry written to a completion queue, or kept until the host makes room, or its page is translated (R439); `late` says
that it waited. -/
def cqPut (s : State) (k q sqid cid status result : Nat) (late : Bool) : State :=
  let c := ctlGet s k
  match SMap.find? c.cqs q with
  | none => s
  | some x =>
    let (go, s) := ctlReach s k true [(x.addr + 16 * x.tail, 16)]
    if (x.tail + 1) % x.size = x.head || !go || (!late && x.wait ≠ []) then
      let e := (sqid, cid, status, result)
      ctlPut s k { c with cqs := SMap.ins c.cqs q { x with wait := if late then e :: x.wait else x.wait ++ [e] } }
    else
      let hd := match SMap.find? c.sqs sqid with | some y => y.head | none => 0
      let s := ctlWrite s k (x.addr + 16 * x.tail) (cqe result hd sqid cid status x.phase) false false
      let last := x.tail + 1 = x.size
      let x := { x with tail := if last then 0 else x.tail + 1, phase := if last then !x.phase else x.phase, held := x.held + 1,
                        heldAt := if x.held = 0 then s.now else x.heldAt }
      let c := { c with cqs := SMap.ins c.cqs q x }
      let s := ctlPut s k c
      if coalesced c q x then s else cqIntr s k q

/-- Entries that waited, written while a completion queue takes them. -/
def cqPump (s : State) (k q n : Nat) : State :=
  match n with
  | 0 => s
  | n + 1 =>
    let c := ctlGet s k
    match SMap.find? c.cqs q with
    | none => s
    | some x =>
      match x.wait with
      | [] => s
      | (sqid, cid, st, res) :: rest =>
        if (x.tail + 1) % x.size = x.head then s
        else cqPump (cqPut (ctlPut s k { c with cqs := SMap.ins c.cqs q { x with wait := rest } }) k q sqid cid st res true) k q n

/-- R439: the completion queues of PF3 of an attach point go on once a page has been translated. -/
def cqPumpAll (s : State) (a : Nat) : State :=
  (s.stg.ctrls.filter (fun e => ctlAp s e.1 == a)).foldl (fun s e =>
    e.2.cqs.foldl (fun s y => if y.2.wait = [] then s else cqPump s e.1 y.1 y.2.wait.length) s) s

/-- R406: an entry of the Error log: number, queue, command, status, LBA and NSID. -/
def errEntry (n sqid cid status lba nsid : Nat) : Bytes :=
  leBytes 8 n ++ leBytes 2 sqid ++ leBytes 2 cid ++ leBytes 2 (2 * status) ++ [0xFF, 0xFF] ++ leBytes 8 lba ++ leBytes 4 nsid
    ++ List.replicate 36 (0 : Byte)

/-- A command of a controller completed: counted, logged on an error, its entry posted (R406, R416). -/
def ctlComplete (s : State) (k sqid cid status result lba nsid : Nat) : State :=
  let s := stgCount s 0
  let s := if status = 0 then s else stgCount s 1
  let s := if status = 0x300 then stgCount s 2 else s
  let s := if status = 0 then s else ctlMod s k (fun c =>
    { c with errCount := c.errCount + 1, errs := (errEntry (c.errCount + 1) sqid cid status lba nsid :: c.errs).take 16 })
  match SMap.find? (ctlGet s k).sqs sqid with
  | none => s
  | some x => cqPut s k x.cq sqid cid status result false

/-- R405: a held event reported where a request is outstanding and its type is not masked. -/
def eventPump (s : State) (k : Nat) : State :=
  let c := ctlGet s k
  match c.aers, c.events.find? (fun e => !bit c.masked (e % 8)) with
  | cid :: rest, some e =>
    let s := ctlPut s k { c with aers := rest, events := c.events.filter (· ≠ e), masked := setBit c.masked (e % 8) true }
    ctlComplete (stgCount s 9) k 0 cid 0 e 0 0
  | _, _ => s

/-- The two events of R405. -/
def evNsChange : Nat := 0x40002
def evSmart : Nat := 0x20001

/-- R405: an event raised on a controller that is enabled and lets it through; an equal one that is held absorbs it. -/
def eventRaise (s : State) (k e : Nat) : State :=
  let c := ctlGet s k
  let on := if e = evNsChange then bit (featGet c 0x0B) 8 else bit (featGet c 0x0B) 2
  if !c.rdy || !on || c.events.contains e then s else eventPump (ctlPut s k { c with events := c.events ++ [e] }) k

/-! ## Entries, extents and legs -/

def zeros64 : Bytes := List.replicate 64 0

def nsGet (s : State) (i : Nat) : Bytes := SMap.get zeros64 s.stg.ns i
def extGet (s : State) (e : Nat) : Bytes := SMap.get zeros64 s.stg.ext e

/-- Fields of a namespace entry (R399). -/
def nsValid (b : Bytes) : Bool := bit (byteAt b 0) 0
def nsEnc (b : Bytes) : Bool := bit (byteAt b 0) 1
def nsRo (b : Bytes) : Bool := bit (byteAt b 0) 3
def nsLbaLog (b : Bytes) : Nat := if bit (byteAt b 0) 2 then 12 else 9
def nsLba (b : Bytes) : Nat := 2 ^ nsLbaLog b
def nsId (b : Bytes) : Nat := byteAt b 1 % 64
def nsDom (b : Bytes) : Nat := leAt b 4 2 % 1024
def nsSize (b : Bytes) : Nat := leAt b 8 6
def nsBase (b : Bytes) : Nat := leAt b 16 4 % 2 ^ 18
def nsCount (b : Bytes) : Nat := byteAt b 20 % 32
def nsSlot (b : Bytes) : Nat := leAt b 24 4 % 2 ^ 20
def nsTweak (b : Bytes) : Nat := leAt b 32 8

/-- The controller a namespace is attached to (R399). -/
def nsCtl (b : Bytes) : Nat := if bit (byteAt b 6) 3 then byteAt b 6 % 8 else 8 + leAt b 2 2 % 16384

/-- The extents of a namespace, by entry. -/
def nsExts (b : Bytes) : List Nat := (List.range (nsCount b)).map (nsBase b + ·)

/-- Fields of an extent entry (R400). -/
def extStart (b : Bytes) : Nat := leAt b 0 8
def extCount (b : Bytes) : Nat := leAt b 8 8
def legOf (b : Bytes) (l : Nat) : Bytes := slice b (16 + 24 * l) 24
def legValid (g : Bytes) : Bool := bit (byteAt g 0) 0
def legRemote (g : Bytes) : Bool := bit (byteAt g 0) 1
def legPort (g : Bytes) : Nat := byteAt g 1 % 16
def legNs (g : Bytes) : Nat := leAt g 4 4
def legConn (g : Bytes) : Nat := leAt g 4 3
def legBase (g : Bytes) : Nat := leAt g 8 8
def legRkey (g : Bytes) : Nat := leAt g 16 4

/-- R402: a valid leg that has not failed. -/
def legGood (s : State) (e l : Nat) : Bool := legValid (legOf (extGet s e) l) && !SMap.get false s.stg.failed (2 * e + l)
def legBad (s : State) (e l : Nat) : Bool := legValid (legOf (extGet s e) l) && SMap.get false s.stg.failed (2 * e + l)

/-- R398, R402: the state of a namespace: 0 INACTIVE, 1 READY, 2 DEGRADED, 3 LOST. -/
def nsState (s : State) (b : Bytes) : Nat :=
  if !nsValid b then 0
  else if (nsExts b).any (fun e => !legGood s e 0 && !legGood s e 1) then 3
  else if (nsExts b).any (fun e => legBad s e 0 || legBad s e 1) then 2
  else 1

/-- The valid namespaces that use extent `e`. -/
def nsUsing (s : State) (e : Nat) : List (Nat × Bytes) := s.stg.ns.filter (fun x => nsValid x.2 && (nsExts x.2).contains e)

/-- R405: SMART events for namespaces that fell to DEGRADED or LOST. -/
def smartEvents (before s : State) (l : List (Nat × Bytes)) : State :=
  l.foldl (fun s x =>
    if nsState s x.2 ≥ 2 && nsState s x.2 ≠ nsState before x.2 then eventRaise s (nsCtl x.2) evSmart else s) s

/-- R402: leg `l` of extent `e` fails. -/
def failLeg (s : State) (e l : Nat) : State :=
  if !legGood s e l then s
  else
    let t := stgCount (putStg s { s.stg with failed := SMap.set false s.stg.failed (2 * e + l) true }) 3
    smartEvents s t (nsUsing s e)

/-- Every leg that `f` names fails. -/
def failLegs (s : State) (f : Bytes → Bool) : State :=
  s.stg.ext.foldl (fun s x => [0, 1].foldl (fun s l => if f (legOf x.2 l) then failLeg s x.1 l else s) s) s

/-- R402: connection `n` has left ACTIVE. -/
def connLost (s : State) (n : Nat) : State := failLegs s (fun g => legRemote g && legConn g == n)

/-- R402: port `p` has left ONLINE. -/
def portLost (s : State) (p : Nat) : State := failLegs s (fun g => !legRemote g && legPort g == p)

end Sys2Proof.Machine
end

