-- ==== Sys2Proof/Machine/CarOps.lean ====
section
/-! DEFINITION. Shared operations of Carter: the packet format, connections and their areas, the on-die cache and parking,
sending, credit, acknowledgements, descriptors in order, and connection errors (R250 to R331).
Log entries 49, 51, 52, 55, 56, 61, 62, 66, 67, 167, 172. -/

namespace Sys2Proof.Machine

open Sys2Proof

def putCar (s : State) (c : Car) : State := { s with car := c }

/-! ## What a context's window block, a LONG window and a home hold (R280, R283, R304, R305) -/

/-- R304: the state of a send record in bits [1:0]: 1 SENT, 2 LOST, 3 RNR_WAIT; 0 for none. -/
def sendCode (x : SendSt) : Nat := match x with | .sent => 1 | .lost => 2 | .rnrWait => 3
def sendOf (n : Nat) : SendSt := if n = 1 then .sent else if n = 2 then .lost else .rnrWait

/-- R280, R304: the receive bitmap of W bits and the W send records of a connection. -/
def blockBytes (c : Conn) : Bytes :=
  let w := 2 ^ c.winLog
  let rec? (i : Nat) : Nat := match c.recs.find? (fun r => r.psn % w == i) with
    | some r => sendCode r.st + 4 * (r.txn % 2 ^ 30)
    | none => 0
  (List.range (w / 8)).map (fun i => byteOf (c.marks.foldl (fun b p => if p % w / 8 = i then setBit b (p % 8) true else b) 0))
    ++ (List.range w).flatMap (fun i => leBytes 4 (rec? i))

/-- A number modulo 2^30 extended below a current one. -/
def extendTxn (cur v : Nat) : Nat := cur - (cur % 2 ^ 30 + 2 ^ 30 - v) % 2 ^ 30

/-- R280, R283: a connection with the marks and send records that a block holds. -/
def blockLoad (c : Conn) (b : Bytes) : Conn :=
  let w := 2 ^ c.winLog
  { c with
    marks := ((List.range w).map (c.c + ·)).filter (fun p => bit (byteAt b (p % w / 8)) (p % 8)),
    recs := c.recs.filterMap (fun r =>
      let v := leAt b (w / 8 + 4 * (r.psn % w)) 4
      if v % 4 = 0 then none else some { r with st := sendOf (v % 4), txn := extendTxn c.txCount (v / 4) }) }

/-- R280: where the LONG window of a connection lies in the model's HBM, and its length; none for SHORT mode. -/
def winAddr (n : Nat) (c : Conn) : Option (Nat × Nat) :=
  if !c.long then none else c.winArea.map (fun a => (hbmAddr (n % 4) (a.1 * 2 ^ 20), 33 * 2 ^ c.winLog / 8))

/-- Bytes put over an area of HBM where they differ from it. -/
def hbmPatch (s : State) (a : Nat) (b : Bytes) : State :=
  match b with
  | [] => s
  | x :: r => hbmPatch (if s.hbmByte a = x then s else s.hbmWrite a [x]) (a + 1) r

/-- A connection; the bitmap and send records of a LONG one are those of its window in HBM (R280, R283). -/
def connGet (s : State) (n : Nat) : Option Conn :=
  (SMap.find? s.car.conns n).map (fun c => match winAddr n c with
    | some (a, m) => blockLoad c (s.hbmRead a m)
    | none => c)

/-- A connection replaced; the bitmap and send records of a LONG one are written to its window in HBM. -/
def connPut (s : State) (n : Nat) (c : Conn) : State :=
  match winAddr n c with
  | some (a, _) =>
    hbmPatch (putCar s { s.car with conns := SMap.ins s.car.conns n { c with marks := [] } }) a (blockBytes c)
  | none => putCar s { s.car with conns := SMap.ins s.car.conns n c }

/-- A connection changed where it exists. -/
def connMod (s : State) (n : Nat) (f : Conn → Conn) : State :=
  match connGet s n with
  | some c => connPut s n (f c)
  | none => s

/-- A counter of the slice of a connection (R336). -/
def carCount (s : State) (n i : Nat) : State := s.inc R.CAR_CNT.COUNT [n % 4, i]

/-- Status codes of R327. -/
def csExhausted : Nat := 0x02
def csEpochReused : Nat := 0x03
def csBadState : Nat := 0x04
def csLocalAccess : Nat := 0x10
def csLocalPoison : Nat := 0x11
def csRemoteAccess : Nat := 0x12
def csRemoteOpcode : Nat := 0x13
def csRemoteFault : Nat := 0x14
def csTimeout : Nat := 0x15
def csRnrExceeded : Nat := 0x16
def csKeepPoison : Nat := 0x17
def csContextFault : Nat := 0x19
def csFlushed : Nat := 0x1A
def csLengthError : Nat := 0x1B
def csProtocol : Nat := 0x1C

/-- R259: whether 32-bit value `a` passes `b`: it lies after it. -/
def passes (a b : Nat) : Bool := a ≠ b && decide ((a % 2 ^ 32 + 2 ^ 32 - b % 2 ^ 32) % 2 ^ 32 < 2 ^ 31) && a % 2 ^ 32 ≠ b % 2 ^ 32

/-- The later of two 32-bit positions. -/
def later (a b : Nat) : Nat := if passes a b then a else b

/-- R259: a 32-bit value extended against a current position. -/
def extend (cur v : Nat) : Int :=
  let d : Nat := (v % 2 ^ 32 + 2 ^ 32 - cur % 2 ^ 32) % 2 ^ 32
  if d < 2 ^ 31 then ((cur + d : Nat) : Int) else ((cur + d : Nat) : Int) - ((2 ^ 32 : Nat) : Int)

/-! ## The packet format -/

/-- A packet's CTH and what follows it (R254 to R256). -/
structure Cth where
  op : Nat
  epoch : Nat
  enc : Bool
  first : Bool
  last : Bool
  ackReq : Bool
  dst : Nat
  psn : Nat
  cpos : Nat
  msg : Nat
  payLen : Nat
  sec : Nat
  ns : Nat
  ext : Bytes
  pay : Bytes
  icv : Bytes
  /-- The CTH and extension headers as they are authenticated (R290, R291). -/
  aad : Bytes
  udpLen : Nat
  ip : Nat
  udp : Nat
  v6 : Bool
deriving DecidableEq, Repr

def isCarterData (op : Nat) : Bool := 1 ≤ op && op ≤ 8
def isCarterCtl (op : Nat) : Bool := 0x10 ≤ op && op ≤ 0x13

/-- R255, R256: the length of the extension headers of an opcode; `b` is what follows the CTH. -/
def extLen (op : Nat) (last : Bool) (b : Bytes) : Nat :=
  match op with
  | 1 => 16
  | 2 => if last then 24 else 16
  | 3 => 8
  | 4 => if last then 16 else 8
  | 5 => 24
  | 6 => 8
  | 7 => 32
  | 8 => 8
  | 0x10 => 32 + 8 * (byteAt b 24 % 16)
  | 0x11 => 16
  | 0x12 => 8
  | 0x13 => 8
  | _ => 0

/-- The IMM_EXT of a packet, where it has one. -/
def immOf (op : Nat) (last : Bool) (e : Bytes) : Option Nat :=
  if !last then none else if op = 2 then some (beAt e 16 4) else if op = 4 then some (beAt e 8 4) else none

/-- R256, R257: whether no defined field of the extension headers holds a reserved value. -/
def extOk (op : Nat) (e : Bytes) : Bool :=
  match op with
  | 5 => decide (beAt e 16 4 ≤ 2 ^ 31)
  | 7 => decide (byteAt e 4 ≤ 1)
  | 0x10 => decide (byteAt e 24 % 16 ≤ 8)
  | 0x11 => decide (1 ≤ byteAt e 8) && decide (byteAt e 8 ≤ 5)
  | _ => true

/-- R254, R257: a Carter packet read from its frame; none where it is malformed. -/
def cthParse (f : Bytes) : Option Cth :=
  match udpFind f with
  | none => none
  | some (ip, u, v6) =>
    let n := beAt f (u + 4) 2
    let h := slice f (u + 8) 32
    let b := slice f (u + 40) (n - 40)
    let op := byteAt h 1
    let fl := byteAt h 3
    let enc := bit fl 0
    let last := bit fl 2
    let e := extLen op last b
    let pl := beAt h 20 2
    if u + n > f.length || n < 40 || !(isCarterData op || isCarterCtl op) || byteAt h 0 / 16 ≠ 1
        || n ≠ 40 + e + pl + (if enc then 16 else 0) || pl > 8192
        || ((op == 5 || op == 7 || isCarterCtl op) && pl ≠ 0) || (op == 8 && pl ≠ 8) || !extOk op (b.take e) then none
    else
      some { op := op, epoch := byteAt h 2, enc := enc, first := bit fl 1, last := last, ackReq := bit fl 4,
             dst := beAt h 5 3, psn := beAt h 8 4, cpos := beAt h 12 4, msg := beAt h 16 4, payLen := pl,
             sec := beAt h 24 4, ns := beAt h 28 4 % 2 ^ 30, ext := b.take e, pay := slice b e pl,
             icv := if enc then slice b (e + pl) 16 else [],
             aad := overlay (overlay (overlay h 3 [byteOf (setBit (setBit fl 3 false) 4 false)]) 12 [0, 0, 0, 0]) 24
               ([0, 0, 0, 0, byteOf (byteAt h 28 / 64 * 64), 0, 0, 0]) ++ b.take e,
             udpLen := n, ip := ip, udp := u, v6 := v6 }

/-- R263: the credit charge of a UDP length. -/
def carCharge (n : Nat) : Nat := ceilDiv (n + 128) 256

/-- R316: path template `p`. -/
def pathOf (s : State) (p : Nat) : Bytes := SMap.get [] s.car.paths p
def pathValid (t : Bytes) : Bool := bit (byteAt t 0) 0
def pathHdr (t : Bytes) : Bytes := slice t 64 (byteAt t 1)
def pathOctet (t : Bytes) : Nat := byteAt t 7 % 16

/-- R258 step 4: the addresses and ports of a received packet against the template, seen from the other end. -/
def pathMatch (t f : Bytes) (x : Cth) : Bool :=
  match udpFind (pathHdr t) with
  | none => false
  | some (ip, u, v6) =>
    let h := pathHdr t
    let (so, d, n) := if v6 then (8, 24, 16) else (12, 16, 4)
    pathValid t && v6 == x.v6 && slice h (ip + so) n == slice f (x.ip + d) n && slice h (ip + d) n == slice f (x.ip + so) n
      && slice h u 2 == slice f (x.udp + 2) 2 && slice h (u + 2) 2 == slice f x.udp 2

/-- R250: the headers of a template with the lengths of a UDP datagram of `n` bytes and the IPv4 checksum. -/
def fillHeaders (h : Bytes) (n : Nat) : Bytes :=
  match udpFind h with
  | none => h
  | some (ip, u, v6) =>
    let h := overlay (overlay h (u + 4) (beBytes 2 n)) (u + 6) [0, 0]
    if v6 then overlay h (ip + 4) (beBytes 2 (u - ip - 40 + n))
    else
      let h := overlay h (ip + 2) (beBytes 2 (u - ip + n))
      let h := overlay h (ip + 6) [byteOf (setBit (byteAt h (ip + 6)) 6 true)]
      let h := overlay h (ip + 10) [0, 0]
      overlay h (ip + 10) (beBytes 2 (65535 - fold16 (sum16 (slice h ip (u - ip)) false)))

/-- R254: a CTH. -/
def cthBytes (op epoch flags dst psn cpos msg payLen : Nat) : Bytes :=
  [0x10, byteOf op, byteOf epoch, byteOf flags, 0] ++ beBytes 3 dst ++ beBytes 4 psn ++ beBytes 4 cpos ++ beBytes 4 msg
    ++ beBytes 2 payLen ++ [0, 0] ++ beBytes 8 0

/-- R251: a frame of a connection enters an internal input. -/
def carterSend (s : State) (n : Nat) (c : Conn) (body : Bytes) : State :=
  let t := pathOf s c.path
  toInternal s
    { data := fillHeaders (pathHdr t) (8 + body.length) ++ body, origin := 255, inst := 0, tc := 0, domain := c.dom,
      profile := byteAt t 6 % 64, pipe := 0, hash := srcHash (.conn n), port := none, octet := none, ts := 0, raw := 0,
      fault := none, poison := false, pass2 := false, node := none, espSeq := 0, hop := none, cth := true, tx := none }

/-- R289: a nonce. -/
def carNonce (c : Conn) (mine ctl : Bool) (x : Nat) : Bytes :=
  c.salt ++ [byteOf c.epoch, byteOf ((if c.responder == mine then 128 else 0) + (if ctl then 64 else 0))]
    ++ beBytes 6 (x % 2 ^ 48)

/-- R289, R290: a payload protected: the bytes after the extension headers; none for KEY_FAULT. -/
def protect (s : State) (c : Conn) (ctl : Bool) (x : Nat) (aad pay : Bytes) : Option Bytes × State :=
  if !c.enc then (some pay, s)
  else
    match huskRun s 1 c.txSlot c.dom 0 (carNonce c true ctl x) aad pay [] with
    | (some (ct, tag, _), s) => (some (ct ++ tag), s)
    | (none, s) => (none, s)

/-- The outcome of the verification of a received packet (R292, R351). -/
inductive Verified where
  | ok (pay : Bytes)
  | bad
  | keyFault
deriving DecidableEq, Repr

/-- R292: a received packet verified; `x` is its extended PSN or CSEQ. -/
def verify (s : State) (c : Conn) (p : Cth) (x : Nat) : Verified × State :=
  if !c.enc then (.ok p.pay, s)
  else
    match huskRun s 2 c.rxSlot c.dom 0 (carNonce c false (isCarterCtl p.op) x) p.aad p.pay p.icv with
    | (some (pt, _, true), s) => (.ok pt, s)
    | (some (_, _, false), s) => (.bad, s)
    | (none, s) => (.keyFault, s)

/-! ## Areas, the on-die cache and parking -/

/-- Whether [a, a + n) and [b, b + m) share anything. -/
def overlaps (a n b m : Nat) : Bool := n ≠ 0 && m ≠ 0 && a < b + m && b < a + n

/-- R305: the lowest room for `n` MiB in an area that holds `used`. -/
def areaFit (base size n : Nat) (used : List (Nat × Nat)) : Option Nat :=
  let ok (a : Nat) : Bool := base ≤ a && a + n ≤ base + size && !used.any (fun u => overlaps a n u.1 u.2)
  (base :: used.map (fun u => u.1 + u.2)).foldl (fun (b : Option Nat) a =>
    if !ok a then b else match b with
      | none => some a
      | some x => some (min x a)) none

/-- The areas of one kind that the connections of slice `q` hold. -/
def areasOf (s : State) (q : Nat) (f : Conn → Option (Nat × Nat)) : List (Nat × Nat) :=
  s.car.conns.filterMap (fun e => if e.1 % 4 = q then f e.2 else none)

/-- MiB that `n` bytes take. -/
def mib (n : Nat) : Nat := ceilDiv n (2 ^ 20)

/-- R305: keep units of a slot, and the bytes of a connection's ring, LONG window and context record. -/
def keepUnits (maxPay : Nat) : Nat := maxPay / 256 + 1
def winBlock (long : Bool) (winLog : Nat) : Nat := if long then 0 else 2 ^ winLog / 8 + 4 * 2 ^ winLog

/-- R305: where the keep slot of a PSN lies in the model's HBM. -/
def keepAddr (n : Nat) (c : Conn) (psn : Nat) : Nat :=
  hbmAddr (n % 4) ((c.keepArea.getD (0, 0)).1 * 2 ^ 20 + psn % 2 ^ c.keepLog * (keepUnits c.maxPay * 256))

/-- R308: window-store pages of a connection. -/
def winPages (c : Conn) : Nat := if c.long then 0 else ceilDiv (winBlock false c.winLog) 1024

/-- Whether a connection holds a cache entry of its slice. -/
def cachedConn (c : Conn) : Bool :=
  match c.tier with
  | .fetching | .onDie | .writing | .stub => true
  | _ => false

def sliceConns (s : State) (q : Nat) : List (Nat × Conn) := s.car.conns.filter (fun e => e.1 % 4 == q)

/-- R334: what CAR_SLICE[q] shows. -/
def cacheUsed (s : State) (q : Nat) : Nat := ((sliceConns s q).filter (fun e => cachedConn e.2)).length
def pagesUsed (s : State) (q : Nat) : Nat :=
  ((sliceConns s q).filter (fun e => cachedConn e.2 && e.2.tier ≠ .stub)).foldl (fun a e => a + winPages e.2) 0
def pinnedConns (s : State) (q : Nat) : Nat := ((sliceConns s q).filter (fun e => e.2.pin)).length
def fetchesOut (s : State) (q : Nat) : Nat := ((sliceConns s q).filter (fun e => e.2.tier == .fetching)).length

/-- R335: what CAR_PARK[o] shows. -/
def ledgerOf (s : State) (o : Nat) : List Ledger := s.car.ledger.filter (fun l => l.octet == o)
def reservedCells (s : State) (o : Nat) : Nat := (ledgerOf s o).foldl (fun a l => a + l.left) 0
def parkCells (s : State) (o : Nat) : Nat := if bit (s.rd R.GRN_PARK_CFG.EN []) o then 8192 else 0
def freeResv (s : State) (o : Nat) : Nat := parkCells s o - reservedCells s o - SMap.get 0 s.grn.park o

/-- R309: fetches start in trigger order while their slice has a free entry, pages and a fetch to spare. -/
def startFetches (s : State) (q : List Nat) : State :=
  match q with
  | [] => s
  | n :: r =>
    let blocked := (s.car.fetchq.takeWhile (· ≠ n)).any (fun m => m % 4 == n % 4)
    let s := match connGet s n with
      | none => putCar s { s.car with fetchq := s.car.fetchq.filter (· ≠ n) }
      | some c =>
        if blocked || cacheUsed s (n % 4) ≥ 32768 || pagesUsed s (n % 4) + winPages c > 8192 || fetchesOut s (n % 4) ≥ 64
        then s
        else
          let s := putCar s { s.car with fetchq := s.car.fetchq.filter (· ≠ n) }
          carCount (connPut s n { c with tier := .fetching }) n (if c.host then 13 else 12)
    startFetches s r

def pumpFetches (s : State) : State := startFetches s s.car.fetchq

/-- R309, R331: a context is wanted: its fetch is queued, and starts when it can, or once a write-back in flight has ended. -/
def wantContext (s : State) (n : Nat) : State :=
  match connGet s n with
  | some c =>
    if c.st == .allocated || c.st == .closing then s
    else if c.tier == .writing then connPut s n { c with wanted := true }
    else if c.tier == .home then
      pumpFetches (putCar (connPut s n { c with tier := .fetchWait }) { (connPut s n { c with tier := .fetchWait }).car with
        fetchq := s.car.fetchq ++ [n] })
    else s
  | none => s

/-- R174, R312, R270: a packet parks, or is a park-full drop, or is refused while EN is 0. -/
def park (s : State) (n : Nat) (p : Pkt) (x : Cth) : State :=
  let cells := cellsOf p.data.length
  let drop := (carCount s n 11).inc R.GRN_CNT.COUNT [5]
  if !s.flag R.GRN_CFG.EN [] then s.inc R.GRN_CNT.COUNT [13] else
  match p.octet with
  | none => drop
  | some o =>
    let used := SMap.get 0 s.grn.park o
    let put (s : State) : State :=
      let s := { s with grn := { s.grn with park := SMap.set 0 s.grn.park o (used + cells) } }
      let (s, place) := newCells s p.pipe cells
      let s := putCar s { s.car with
        parked := s.car.parked ++ [{ conn := n, octet := o, cells := cells, place := place, pkt := p }] }
      (carCount s n 10).inc R.GRN_CNT.COUNT [4]
    match s.car.ledger.find? (fun l => l.conn == n && l.octet == o && isCarterData x.op && passes x.cpos l.high
        && !passes x.cpos l.limit && decide (cells ≤ l.left)) with
    | some l =>
      put (putCar s { s.car with ledger := s.car.ledger.map (fun y => if y == l then { l with left := l.left - cells } else y) })
    | none => if used + reservedCells s o + cells ≤ parkCells s o then put s else drop

/-- R200: parked packets of a connection released; the second part is the packets in arrival order. -/
def unpark (s : State) (n : Nat) : State × List Pkt :=
  let mine := s.car.parked.filter (fun p => p.conn == n)
  let s := mine.foldl (fun s p =>
    p.place.foldl freeCell { s with grn := { s.grn with
      park := SMap.set 0 s.grn.park p.octet (SMap.get 0 s.grn.park p.octet - p.cells) } }) s
  (putCar s { s.car with parked := s.car.parked.filter (fun p => p.conn ≠ n) }, mine.map (·.pkt))

/-- R200, R302, R329: parked packets dropped and counted. -/
def dropParked (s : State) (n : Nat) : State :=
  let (s, l) := unpark s n
  s.add R.GRN_CNT.COUNT [6] l.length

def dropLedger (s : State) (n : Nat) : State := putCar s { s.car with ledger := s.car.ledger.filter (fun l => l.conn ≠ n) }

/-! ## Descriptors and completions -/

/-- R326: bytes 6 to 31 of a completion. -/
def carCpl (imm : Option Nat) (conn hint bytes errMsg rkey : Nat) : Bytes :=
  [byteOf (b2n imm.isSome), 0] ++ leBytes 3 conn ++ [byteOf hint] ++ leBytes 4 bytes ++ leBytes 4 (imm.getD 0)
    ++ leBytes 4 errMsg ++ leBytes 4 rkey

/-- A work's completion posted. -/
def workPost (s : State) (w : Work) (st bytes : Nat) : State :=
  match w.src with
  | .stg tag => putCar s { s.car with stgDone := s.car.stgDone ++ [(tag, st)] }
  | .ring r _ d =>
    let em := match connGet s w.conn with
      | some c => if st = stSuccess then 0 else c.errMsg
      | none => 0
    let s := if st = stMalformed then ringCount s r 3 else s
    cplPost s r (cplBody (leAt d 4 4) st (byteAt d 0) (carCpl none w.conn 0 bytes em 0))

/-- Whether a work is a descriptor in progress; a CONN_DESTROY waits for FREE and is none. -/
def liveWork (w : Work) : Bool := w.ended.isNone && w.op ≠ 0x42

/-- Whether two works must complete in order (R324). -/
def sameLine (a b : Work) : Bool :=
  match a.src, b.src with
  | .ring r _ _, .ring t _ _ => r == t && a.conn == b.conn
  | _, _ => false

/-- R324: every work that has ended and has no earlier one before it on its ring and connection is posted. -/
def postWorks (s : State) (todo : List Work) (kept : List Work) : State :=
  match todo with
  | [] => putCar s { s.car with works := kept }
  | w :: r =>
    match w.ended with
    | some (st, bytes) => if kept.any (sameLine w) then postWorks s r (kept ++ [w]) else postWorks (workPost s w st bytes) r kept
    | none => postWorks s r (kept ++ [w])

def settleWorks (s : State) : State := postWorks s s.car.works []

/-- Works changed, then posted as they may be. -/
def modWorks (s : State) (f : Work → Work) : State := settleWorks (putCar s { s.car with works := s.car.works.map f })

/-- A descriptor that ends without being started takes its place in the order of R324. -/
def endDesc (s : State) (r k : Nat) (d : Bytes) (n st : Nat) : State :=
  let w : Work := { src := .ring r k d, conn := n, op := byteAt d 0, msg := 0, addr := 0, len := 0, last := none, got := 0,
                    ended := some (st, 0) }
  let s := popDesc s r k
  ringSettle (settleWorks (putCar s { s.car with works := s.car.works ++ [w] })) r

/-- A receive completion posted on the ring of its entry (R287, R323). -/
def recvPost (s : State) (n : Nat) (b : Binding) (st errMsg : Nat) : State :=
  if b.flushed then s
  else cplPost s b.ent.ring (cplBody b.ent.tag st b.op (carCpl (if st = stSuccess then b.imm else none) n 0 b.bytes errMsg 0))

/-! ## Credit, control packets and errors -/

/-- R266: LIMIT raised as a credit-bearing packet is sent. -/
def raiseLimit (c : Conn) : Conn :=
  let l := if c.evictPending then c.granted else later ((c.high + c.creditWin) % 2 ^ 32) c.granted
  { c with granted := l, lastLimit := l }

/-- R44: whether the cipher work of a connection can be dispatched now. -/
def laneOk (s : State) (n : Nat) (c : Conn) : Bool := !c.enc || huskAble s (n % 4)

/-- R261, R289: a control packet sent; false where its key failed. -/
def rawCtl (s : State) (n : Nat) (c : Conn) (op : Nat) (ext : Bytes) : Bool × State :=
  let x := c.sendCseq
  let h := cthBytes op c.epoch (b2n c.enc) c.peer (x % 2 ^ 32) 0 0 0
  match protect s c true x (h ++ ext) [] with
  | (some b, s) => (true, carterSend (connPut s n { c with sendCseq := x + 1 }) n c (h ++ ext ++ b))
  | (none, s) => (false, s)

/-- R256: the extension headers of a NAK. -/
def nakExt (c : Conn) (code psn : Nat) : Bytes :=
  beBytes 4 c.c ++ beBytes 4 c.granted ++ [byteOf code, 0, 0, 0] ++ beBytes 4 psn

/-- R329: the message that an error reports. -/
def errorMsg (c : Conn) : Nat :=
  match c.recs with
  | r :: _ => r.msg
  | [] => match c.segs with
    | g :: _ => g.msg
    | [] => c.nextMsg

/-- R329: a connection enters ERROR with `code`; `nak` says that CONN_ERROR is sent to the peer. `bind` gives a binding a
status of its own. -/
def connError (s : State) (n code : Nat) (nak : Bool) (bind : Binding → Nat) : State :=
  match connGet s n with
  | none => s
  | some c =>
    if c.st ≠ .active && c.st ≠ .draining then s
    else
      let em := errorMsg c
      let c := { c with st := .error, errCode := code, errMsg := em }
      let s := connLost (carCount (connPut s n c) n 18) n
      let s := if nak then
          let c := raiseLimit { c with errNak := some s.now }
          if c.enc && c.sendCseq ≥ 2 ^ 48 then connPut s n c
          else if !laneOk s n c then
            carCount (connPut s n { c with owed := c.owed ++ [.ctl 0x11 (nakExt c 5 0)] }) n 21
          else
            let (ok, s) := rawCtl (connPut s n c) n c 0x11 (nakExt c 5 0)
            if ok then carCount s n 21 else s
        else s
      let mine := s.car.works.filter (fun w => w.conn == n && liveWork w)
      let hit := match mine.find? (fun w => w.msg == em) with
        | some w => some w
        | none => mine.head?
      let s := putCar s { s.car with works := s.car.works.map (fun w =>
        if w.conn == n && liveWork w then
          { w with ended := some (if some w == hit then code else csFlushed, 0) } else w) }
      let s := settleWorks s
      let s := dropParked (dropLedger s n) n
      let s := c.binds.foldl (fun s b => recvPost s n b (bind b) em) s
      connMod s n (fun c => { c with binds := [], segs := [], recs := [], keepArea := none, evictPending := false, rptFor := none })

def flushBind (_ : Binding) : Nat := csFlushed

/-- A local error of a connection. -/
def connFail (s : State) (n code : Nat) : State := connError s n code true flushBind

/-- R44, R261, R328: a control packet sent, or kept until a lane is free; a key or nonce that fails puts the connection into
ERROR. -/
def sendCtl (s : State) (n op : Nat) (ext : Conn → Bytes) : State :=
  match connGet s n with
  | none => s
  | some c =>
    if c.enc && c.sendCseq ≥ 2 ^ 48 then connError s n stNonceExhausted false flushBind
    else if !laneOk s n c then connPut s n { c with owed := c.owed ++ [.ctl op (ext c)] }
    else
      match rawCtl s n c op (ext c) with
      | (true, s) => s
      | (false, s) => connError s n stKeyFault false flushBind

/-- R274: a NAK sent. -/
def sendNak' (s : State) (n code psn : Nat) : State :=
  carCount (sendCtl (connMod s n raiseLimit) n 0x11 (fun c => nakExt c code psn)) n 21

/-- Runs of consecutive numbers of a rising list. -/
def runsOf (l : List Nat) : List (Nat × Nat) :=
  l.foldr (fun x r => match r with
    | (a, b) :: t => if x + 1 = a then (x, b) :: t else (x, x) :: r
    | [] => [(x, x)]) []

/-- R256, R272: the extension headers of an ACK; `ev` says that the echo is meaningful. -/
def ackExt (ev : Bool) (c : Conn) : Bytes :=
  let r := (runsOf c.marks).take 8
  let e := c.echo.getD { sec := 0, ns := 0, arrSec := 0, arrNs := 0 }
  let ev := ev && c.echo.isSome
  let e := if ev then e else { sec := 0, ns := 0, arrSec := 0, arrNs := 0 }
  beBytes 4 c.c ++ beBytes 4 c.granted ++ beBytes 4 e.sec ++ beBytes 4 e.ns ++ beBytes 4 e.arrSec ++ beBytes 4 e.arrNs
    ++ [byteOf (r.length + 16 * b2n ev)] ++ beBytes 7 0 ++ r.flatMap (fun x => beBytes 4 x.1 ++ beBytes 4 x.2)

/-- The gaps that an ACK reports: the PSNs at which its ranges begin (R271, R272). -/
def gapsOf (c : Conn) : List Nat := ((runsOf c.marks).take 8).map (·.1)

/-- R271: an ACK sent. -/
def sendAck' (s : State) (n : Nat) (ev : Bool) : State :=
  let s := connMod s n (fun c => raiseLimit { c with unacked := 0, gapTold := gapsOf c })
  sendCtl s n 0x10 (ackExt ev)

/-- R256: the extension headers of a CREDIT. -/
def creditExt (retract : Bool) (limit : Nat) : Bytes := beBytes 4 limit ++ [byteOf (b2n retract), 0, 0, 0]

/-- R266, R267: a CREDIT sent. -/
def sendCredit' (s : State) (n : Nat) : State :=
  sendCtl (connMod s n (fun c => raiseLimit { c with creditAt := s.now })) n 0x12 (fun c => creditExt false c.granted)

/-- R266: whether the limit that a packet would carry has risen by CREDIT_WIN/4 since the last one sent. -/
def creditDue (c : Conn) : Bool :=
  let l := (c.high + c.creditWin) % 2 ^ 32
  !c.evictPending && passes l c.lastLimit && decide (c.creditWin / 4 ≤ (l + 2 ^ 32 - c.lastLimit % 2 ^ 32) % 2 ^ 32)

/-- R268: a CREDIT_RPT sent. -/
def sendRpt (s : State) (n cseq : Nat) : State :=
  sendCtl (connMod s n (fun c => { c with rptAt := s.now })) n 0x13 (fun c => beBytes 4 c.cposSent ++ beBytes 4 cseq)

/-- The function of an instance, and whether it issues requests. -/
def instFn (s : State) (i : Nat) : Nat × Nat := (s.rd R.DOM_INST_W0.AP [i], s.rd R.DOM_INST_W0.CLASS [i])
def instOk (s : State) (i : Nat) : Bool := busEn s (instFn s i).1 (instFn s i).2 && !quiesced s (instFn s i).1 (instFn s i).2
def instD3 (s : State) (i : Nat) : Bool := inD3 s (instFn s i).1 (instFn s i).2

/-- R56: whether an instance may access some areas of host memory now. -/
def instReach (s : State) (i : Nat) (w : Bool) (l : List (Nat × Nat)) : Bool × State :=
  reach s (instFn s i).1 (instFn s i).2 (some i) (instPasid s i) w l

/-- R26: a read of host memory for an instance, and what it brought. -/
def instFetch (s : State) (i : Nat) (l : List (Nat × Nat)) (x : RdRes) : Bool × State :=
  hostFetch s (instFn s i).1 (instFn s i).2 (some i) (instPasid s i) l x

/-- A data write by an instance. -/
def instWrite (s : State) (i addr : Nat) (data : Bytes) (ep : Bool) : State :=
  if data.isEmpty then s else fnWrite s (instFn s i).1 (instFn s i).2 (some i) (instPasid s i) addr data true ep

/-! ## Messages and their packets -/

/-- R253: the packets of a message of `data`, each with its extension headers. -/
def segments (size : Nat) (data : Bytes) (fuel off : Nat) (mk : Bool → Bool → Nat → Bytes → Seg) : List Seg :=
  match fuel with
  | 0 => []
  | fuel + 1 =>
    let rest := data.drop size
    let last := rest.isEmpty
    mk (off == 0) last off (data.take size) :: (if last then [] else segments size rest fuel (off + size) mk)

/-- A message put behind those that wait: the segments of message `c.nextMsg`. -/
def pushMsg (s : State) (n : Nat) (c : Conn) (l : List Seg) : State :=
  connPut s n { c with segs := c.segs ++ l, nextMsg := (c.nextMsg + 1) % 2 ^ 32, used := s.now }

/-- R284: whether a packet is kept. -/
def isKept (c : Conn) (op : Nat) : Bool := c.enc || !c.remote || op == 6 || op == 8

/-- Flag bits of byte 3 of a CTH. -/
def cthFlags (enc first last retx ackReq : Bool) : Nat :=
  b2n enc + 2 * b2n first + 4 * b2n last + 8 * b2n retx + 16 * b2n ackReq

/-- UDP length of a packet. -/
def udpLenOf (c : Conn) (ext : Bytes) (n : Nat) : Nat := 40 + ext.length + n + (if c.enc then 16 else 0)

/-- R264: whether credit allows a charge. -/
def carCreditOk (c : Conn) (u : Nat) : Bool := !passes ((c.cposSent + u) % 2 ^ 32) c.limit

/-- R294, R264, R283, R284: the next waiting segment sent, where window, credit and keep allow. `fault` says that the
cipher faulted (R351). -/
def sendNew (s : State) (n : Nat) (fault : Bool) : State :=
  match connGet s n with
  | none => s
  | some c =>
    match c.segs with
    | [] => s
    | g :: rest =>
      let u := carCharge (udpLenOf c g.ext g.pay.length)
      let p := c.nextPsn
      if (c.st ≠ .active && c.st ≠ .draining) || c.tier ≠ .onDie || c.recs.any (fun r => r.st == .lost) then s
      else if p ≥ c.una + 2 ^ c.winLog || p ≥ c.una + 2 ^ c.keepLog || !carCreditOk c u then s
      else if p ≥ 2 ^ 48 then connFail s n stNonceExhausted
      else if !laneOk s n c then s
      else if c.enc && fault then connFail s n csLocalPoison
      else
        let fl := cthFlags c.enc g.first g.last false g.ackReq
        let h (fl cpos : Nat) := cthBytes g.op c.epoch fl c.peer (p % 2 ^ 32) cpos g.msg g.pay.length
        match protect s c false p (h (cthFlags c.enc g.first g.last false false) 0 ++ g.ext) g.pay with
        | (none, s) => connFail s n stKeyFault
        | (some b, s) =>
          let pos := (c.cposSent + u) % 2 ^ 32
          let kept := isKept c g.op
          let s := if kept then s.hbmWrite (keepAddr n c p) b else s
          let r : SendRec := { psn := p, st := .sent, txn := c.txCount + 1, msg := g.msg, op := g.op, flags := fl, ext := g.ext,
                               len := g.pay.length, kept := kept, rnr := 0, src := g.src, sentAt := s.now }
          let c := { c with nextPsn := p + 1, cposSent := pos, txCount := c.txCount + 1, segs := rest, recs := c.recs ++ [r] }
          let s := carterSend (carCount (connPut s n c) n 0) n c (h fl pos ++ g.ext ++ b)
          let own (w : Work) : Bool := w.conn == n && w.msg == g.msg && w.last.isNone && g.op ≠ 6 && g.op ≠ 8
          if g.last then
            modWorks s (fun w =>
              if own w && w.ended.isNone then
                { w with last := some p, ended := if !c.remote && 1 ≤ w.op && w.op ≤ 4 then some (stSuccess, w.len) else none }
              else w)
          else s

/-- R279: the first LOST PSN sent again; `x` is the source read again in REMOTE mode, or what the read of the keep
brought. -/
def resend (s : State) (n : Nat) (x : RdRes) : State :=
  match connGet s n with
  | none => s
  | some c =>
    match c.recs.find? (fun r => r.st == .lost) with
    | none => s
    | some r =>
      let u := carCharge (udpLenOf c r.ext r.len)
      if (c.st ≠ .active && c.st ≠ .draining) || c.tier ≠ .onDie || !carCreditOk c u then s
      else
        let size := r.len + (if c.enc then 16 else 0)
        let a := keepAddr n c r.psn
        let (go, s) := if r.kept then (true, s) else instFetch s c.inst [(r.src, r.len)] x
        if !go then s else
        let s := match x, r.kept with
          | .poison _, true => hbmFail s a
          | _, _ => s
        let got : Except Nat Bytes :=
          if r.kept then
            (match x with
             | .ok _ => if poisonedRange s a size then .error csKeepPoison else .ok (s.hbmRead a size)
             | _ => .error csKeepPoison)
          else if r.len = 0 then .ok []
          else
            (match x with
             | .ok d => .ok (slice d 0 r.len)
             | .poison _ => .error csLocalPoison
             | _ => .error csLocalAccess)
        match got with
        | .error e => connFail s n e
        | .ok b =>
          let pos := (c.cposSent + u) % 2 ^ 32
          let h := cthBytes r.op c.epoch (Nat.lor r.flags 0x18) c.peer (r.psn % 2 ^ 32) pos r.msg r.len
          let c := { c with cposSent := pos, txCount := c.txCount + 1,
                            recs := c.recs.map (fun y => if y.psn = r.psn then { y with st := .sent, txn := c.txCount + 1, sentAt := s.now } else y) }
          carterSend (carCount (connPut s n c) n 1) n c (h ++ r.ext ++ b)

/-- R286: REMOTE completions whose message UNA has passed. -/
def remoteDone (s : State) (n : Nat) : State :=
  match connGet s n with
  | none => s
  | some c =>
    modWorks s (fun w => match w.last with
      | some p => if w.conn == n && w.ended.isNone && 1 ≤ w.op && w.op ≤ 4 && decide (p < c.una) then
          { w with ended := some (stSuccess, w.len) } else w
      | none => w)

/-! ## The end of a connection -/

/-- R302: the release of a CLOSING connection; descriptors not complete end with FLUSHED where `cpl`. -/
def startClosing (s : State) (n : Nat) (cpl : Bool) : State :=
  match connGet s n with
  | none => s
  | some c =>
    let s := if cpl then modWorks s (fun w => if w.conn == n && liveWork w then { w with ended := some (csFlushed, 0) } else w)
      else
        let mine (w : Work) : Bool := match w.src with | .stg _ => liveWork w | _ => false
        let stop (w : Work) : Work := if w.conn = n then { w with ended := some (csFlushed, 0) } else w
        settleWorks (putCar s { s.car with works := (s.car.works.filter (fun w => w.conn ≠ n || mine w)).map stop })
    let s := connLost s n
    let s := dropParked (dropLedger s n) n
    let s := if cpl then c.binds.foldl (fun s b => recvPost s n b csFlushed 0) s else s
    let s := putCar s { s.car with fetchq := s.car.fetchq.filter (· ≠ n) }
    let s := connMod s n (fun c =>
      { c with st := .closing, tier := .home, binds := [], segs := [], recs := [], marks := [], keepArea := none,
               winArea := none, ctxArea := none, evictPending := false, closeDue := false, owed := [], wanted := false, img := [] })
    pumpFetches s

/-- R331: CLOSING starts now, or when a fetch or write-back in flight ends. -/
def closeConn (s : State) (n : Nat) (cpl : Bool) : State :=
  match connGet s n with
  | none => s
  | some c =>
    if c.tier == .fetching || c.tier == .writing then connPut s n { c with closeDue := true } else startClosing s n cpl

/-- R301: DRAINING ends once every PSN is acknowledged, no response is owed and no descriptor is in progress. -/
def drainCheck (s : State) (n : Nat) : State :=
  match connGet s n with
  | none => s
  | some c =>
    if c.st == .draining && c.recs.isEmpty && c.segs.isEmpty && !s.car.works.any (fun w => w.conn == n && liveWork w) then
      closeConn s n true
    else s

end Sys2Proof.Machine
end

