-- ==== Sys2Proof/Machine/CarWire.lean ====
section
/-! DEFINITION. What Carter does with received packets: the checks of R258, windows and marks, placement, bindings,
acknowledgements, loss and round trips (R258 to R292).
Log entries 6, 49, 50, 51, 52, 53, 54, 60, 62, 70, 173, 183. -/

namespace Sys2Proof.Machine

open Sys2Proof

/-- R168, R251: the packet at the front of Carter's input is taken: its Granary cells are freed, and it carries their poison. -/
def carTake (s : State) (p : Pkt) (r : List Pkt) : State × Pkt :=
  let s := putWin s { s.win with carter := r }
  match p.held with
  | some f => (dropRef s f, { p with poison := p.poison || (gframe s f).bad ≠ [], held := none })
  | none => (s, p)

/-- R257, R258: the packets at the front of Carter's input that are malformed, discarded and counted. -/
def dropMalformed (s : State) (fuel : Nat) : State :=
  match fuel with
  | 0 => s
  | fuel + 1 =>
    match s.win.carter with
    | [] => s
    | p :: r =>
      match cthParse p.data with
      | some _ => s
      | none =>
        let q := match udpFind p.data with
          | some (_, u, _) => byteAt p.data (u + 15) % 4
          | none => 0
        dropMalformed ((carTake s p r).1.inc R.CAR_CNT.COUNT [q, 6]) fuel

/-- The packet at the front of Carter's input where its opcode is `op`; one that a lane must decipher waits for it (R44). -/
def carHead (s : State) (op : Nat) : State × Option (Pkt × Cth) :=
  let s := dropMalformed s s.win.carter.length
  match s.win.carter with
  | [] => (s, none)
  | p :: r =>
    match cthParse p.data with
    | none => (s, none)
    | some x =>
      let waits := match connGet s x.dst with
        | some c => c.tier == .onDie && x.enc && !laneOk s x.dst c
        | none => false
      if x.op = op && !waits then
        let (s, p) := carTake s p r
        (s, some (p, x))
      else (s, none)

/-- R274: a packet for a connection in ERROR draws CONN_ERROR at most once per RTO_INIT. -/
def errorAnswer (s : State) (n : Nat) (c : Conn) : State :=
  if (c.errNak.map (fun t => decide (s.now < t + c.rtoInit * 10))).getD false then s
  else sendNak' (connMod s n (fun c => { c with errNak := some s.now })) n 5 0

/-- R252, R258: the checks of a packet up to step 6; the connection and its number where they pass. -/
def rxOpen (s : State) (p : Pkt) (x : Cth) : State × Option (Nat × Conn) :=
  let n := x.dst
  if isCarterData x.op && cellsOf p.data.length > carCharge x.udpLen then (carCount s n 6, none)
  else if !s.flag R.CAR_CFG.EN [] then (carCount s n 7, none)
  else
    match connGet s n with
    | none => (carCount s n 7, none)
    | some c =>
      if c.st == .allocated || c.st == .closing then (carCount s n 7, none)
      else if c.tier == .stub then (carCount s n 8, none)
      else if c.tier ≠ .onDie then (wantContext (park s n p x) n, none)
      else if x.payLen > c.maxPay then (carCount s n 6, none)
      else
        let c := { c with used := s.now }
        let s := connPut s n c
        if !pathMatch (pathOf s c.path) p.data x || x.epoch ≠ c.epoch || x.enc ≠ c.enc then (carCount s n 8, none)
        else (s, some (n, c))

/-- R265: HIGH follows a credited packet. -/
def takeHigh (s : State) (n cpos : Nat) : State := connMod s n (fun c => { c with high := later cpos c.high })

/-- R266, R271: the CREDIT and ACK that a rise of the limit calls for. -/
def creditUpdate (s : State) (n : Nat) : State :=
  match connGet s n with
  | some c => if (c.st == .active || c.st == .draining) && creditDue c then sendAck' (sendCredit' s n) n false else s
  | none => s

/-- What an ACK echoes of a packet. -/
def echoOf (p : Pkt) (x : Cth) : Echo :=
  { sec := x.sec, ns := x.ns % 2 ^ 30, arrSec := tsSec p.ts % 2 ^ 32, arrNs := tsNs p.ts }

/-- R258 steps 7 to 9 for a data packet: its PSN, its payload and the connection where they pass. A connection in ERROR answers
an authentic packet under R274. -/
def rxData (s : State) (n : Nat) (c : Conn) (p : Pkt) (x : Cth) (h : Hap) : State × Option (Nat × Bytes) :=
  if passes x.cpos c.granted then (carCount s n 5, none)
  else if p.poison then (carCount s n 9, none)
  else
    let e := extend c.c x.psn
    let err := c.st == .error
    if !err && (e < (c.c : Int) || c.marks.contains e.toNat) then
      let s := takeHigh (carCount s n 3) n x.cpos
      if (c.dupAck.map (fun t => decide (s.now < t + 10000))).getD false then (creditUpdate s n, none)
      else (sendAck' (connMod s n (fun c => { c with dupAck := some s.now, echo := some (echoOf p x) })) n true, none)
    else if e ≥ (c.c : Int) + (2 ^ c.winLog : Nat) then
      let s := carCount s n 4
      (if err then s else creditUpdate (takeHigh s n x.cpos) n, none)
    else if c.enc && h == .cipherFault then (carCount s n 9, none)
    else
      match verify s c x e.toNat with
      | (.ok pay, s) =>
        if err then (errorAnswer s n c, none)
        else
          let s := connMod (takeHigh s n x.cpos) n (fun c => { c with credited := true })
          if h == .opcodeErr then
            (connError (sendNak' s n 3 (x.psn % 2 ^ 32)) n csRemoteOpcode true flushBind, none)
          else (s, some (e.toNat, pay))
      | (.bad, s) => (carCount s n 9, none)
      | (.keyFault, s) => (connFail s n stKeyFault, none)

/-- A number put into a rising list. -/
def insAsc (l : List Nat) (v : Nat) : List Nat :=
  match l with
  | [] => [v]
  | x :: r => if v < x then v :: x :: r else if v = x then x :: r else x :: insAsc r v

/-- R281: C passes every consecutive mark. -/
def advanceC (c : Nat) (l : List Nat) : Nat × List Nat :=
  match l with
  | [] => (c, [])
  | x :: r => if x = c then advanceC (c + 1) r else (c, x :: r)

/-- R281: a PSN marked. -/
def markPsn (s : State) (n psn : Nat) (p : Pkt) (x : Cth) : State :=
  carCount (connMod s n (fun c =>
    let r := advanceC c.c (insAsc c.marks psn)
    { c with c := r.1, marks := r.2, unacked := c.unacked + 1, echo := some (echoOf p x),
               ackFrom := if c.unacked = 0 then s.now else c.ackFrom })) n 2

/-- R271: whether the mark of `psn` calls for an ACK at once; `old` is the connection before the mark. -/
def ackCalled (old c : Conn) (psn : Nat) (x : Cth) : Bool :=
  let start := ((runsOf c.marks).find? (fun r => decide (r.1 ≤ psn) && decide (psn ≤ r.2))).map (·.1)
  decide (c.unacked ≥ c.ackEvery) || x.ackReq
    || (match start with
        | some a => !c.gapTold.contains a
        | none => false)
    || (psn == old.c && !old.marks.isEmpty)

/-- Bindings in the order of their messages' last PSNs. -/
def insBind (l : List Binding) (b : Binding) : List Binding :=
  match l with
  | [] => [b]
  | x :: r => if b.last.getD 0 < x.last.getD 0 then b :: x :: r else x :: insBind r b

/-- R287: the receive completions of messages that C has passed, in message order. -/
def postRecvs (s : State) (n : Nat) : State :=
  match connGet s n with
  | none => s
  | some c =>
    let due (b : Binding) : Bool := (b.last.map (fun p => decide (p < c.c))).getD false
    let l := (c.binds.filter due).foldl insBind []
    let s := connPut s n { c with binds := c.binds.filter (fun b => !due b) }
    l.foldl (fun s b => recvPost s n b stSuccess 0) s

/-- After a mark and its action: completions, the ACK or CREDIT that R266 and R271 call for, the end of draining. -/
def afterMark (s : State) (n : Nat) (old : Conn) (psn : Nat) (x : Cth) : State :=
  match connGet s n with
  | none => s
  | some c =>
    if c.st ≠ .active && c.st ≠ .draining then s
    else
      let s := postRecvs s n
      let s := if ackCalled old c psn x then sendAck' s n true
        else if creditDue c then sendAck' (sendCredit' s n) n false
        else s
      drainCheck s n

/-- R274: the receiver's answer to an access fault. -/
def accessNak (s : State) (n psn : Nat) (bind : Binding → Nat) : State :=
  connError (sendNak' s n 2 psn) n csRemoteAccess true bind

/-- R274: a placement failed after its mark. -/
def placeFail (s : State) (n psn : Nat) : State := connFail (sendNak' s n 4 psn) n csLocalAccess

/-- R317: where entry `i` of the region table lies in the model's HBM. -/
def rgnAddr (s : State) (i : Nat) : Nat := hbmAddr (s.rd R.CAR_RGN.STACK []) (s.rd R.CAR_RGN.BASE [] * 2 ^ 20 + 64 * i)

/-- R47, R317: entry `i` of the region table as HBM holds it: where another use of its bytes has changed them, it says what they
say. -/
def regionGet (s : State) (i : Nat) : Option MemRegion :=
  (SMap.find? s.car.regions i).map (fun g =>
    let b := s.hbmRead (rgnAddr s i) 64
    if b = g.img then g
    else
      { g with inst := Config.homeWord b 0 % 16384, dom := Config.homeWord b 1 % 1024, base := Config.homeWord b 2 % 2 ^ 64,
               len := Config.homeWord b 3 % 2 ^ 41, acc := Config.homeWord b 4 % 16, bind := Config.homeWord b 5 % 2 ^ 24 })

/-- R318: the region that a packet of connection `n` may use, or none for ACCESS; an uncorrectable error of its entry is
reported. -/
def regionFor (s : State) (n : Nat) (c : Conn) (rkey va len perm : Nat) (h : Hap) : Option MemRegion :=
  if h == .regionErr || poisonedRange s (rgnAddr s (rkey / 4096)) 64 then none
  else
    match regionGet s (rkey / 4096) with
    | none => none
    | some g =>
      if SMap.get 0 s.car.gens (rkey / 4096) = rkey % 4096 && g.dom == c.dom && (!bit g.acc 3 || g.bind == n)
          && bit g.acc perm && decide (g.base ≤ va) && decide (va + len ≤ g.base + g.len) then some g
      else none

/-- R274, R318: the answer to a packet whose region check failed. -/
def regionNak (s : State) (n psn rkey : Nat) (h : Hap) : State :=
  accessNak (if h == .regionErr then hbmFail s (rgnAddr s (rkey / 4096)) else s) n psn flushBind

/-- R323: the binding of a message, taking the oldest entry where it has none; none for NO_BUFFER. -/
def bindMsg (s : State) (n : Nat) (c : Conn) (x : Cth) : Option (Binding × State) :=
  match c.binds.find? (fun b => b.msg == x.msg) with
  | some b => some (b, s)
  | none =>
    let r := c.recvRing
    if c.binds.length ≥ 8 || ringType s r ≠ 3 || ringSt s r = 0 || ringInst s r ≠ c.inst then none
    else
      match (ringGet s r).bufs with
      | [] => none
      | (k, tag, addr, len) :: rest =>
        let b : Binding := { msg := x.msg, op := x.op, ent := { ring := r, k := k, tag := tag, addr := addr, len := len },
                             bytes := 0, last := none, imm := none }
        some (b, connPut (ringPut s r { ringGet s r with bufs := rest }) n { c with binds := c.binds ++ [b] })

/-- What a packet adds to its message's binding. -/
def bindNote (s : State) (n psn : Nat) (x : Cth) : State :=
  connMod s n (fun c => { c with binds := c.binds.map (fun b =>
    if b.msg = x.msg then
      { b with op := x.op, bytes := b.bytes + x.payLen, last := if x.last then some psn else b.last,
               imm := match immOf x.op x.last x.ext with
                 | some v => some v
                 | none => b.imm }
    else b) })

/-- WRITE and WRITE_IMM (R281, R318, R323). -/
def rxWrite (s0 : State) (op : Nat) (h : Hap) : State :=
  match carHead s0 op with
  | (s, none) => s
  | (s, some (p, x)) =>
    match rxOpen s p x with
    | (s, none) => s
    | (s, some (n, c)) =>
      match rxData s n c p x h with
      | (s, none) => s
      | (s, some (psn, pay)) =>
        match connGet s n with
        | none => s
        | some c =>
          match regionFor s n c (beAt x.ext 0 4) (beAt x.ext 8 8) x.payLen 0 h with
          | none => regionNak s n psn (beAt x.ext 0 4) h
          | some g =>
            let (go, w) := instReach s0 g.inst true [(beAt x.ext 8 8, x.payLen)]
            if !go && h ≠ .fault && instOk s g.inst then w else
            let next : Option State := if op = 2 then (bindMsg s n c x).map (·.2) else some s
            match next with
            | none => sendNak' s n 1 psn
            | some s =>
              let s := markPsn s n psn p x
              let s := if op = 2 then bindNote s n psn x else s
              if h == .fault || !instOk s g.inst then placeFail s n psn
              else afterMark (instWrite s g.inst (beAt x.ext 8 8) pay false) n c psn x

/-- SEND and SEND_IMM (R281, R323). -/
def rxSend (s0 : State) (op : Nat) (h : Hap) : State :=
  match carHead s0 op with
  | (s, none) => s
  | (s, some (p, x)) =>
    match rxOpen s p x with
    | (s, none) => s
    | (s, some (n, c)) =>
      match rxData s n c p x h with
      | (s, none) => s
      | (s, some (psn, pay)) =>
        match connGet s n with
        | none => s
        | some c =>
          match bindMsg s n c x with
          | none => sendNak' s n 1 psn
          | some (b, s) =>
            let pay := if b.flushed then [] else pay
            if beAt x.ext 0 4 + pay.length > b.ent.len then
              accessNak s n psn (fun y => if y.msg = b.msg then csLengthError else csFlushed)
            else
              let (go, w) := instReach s0 c.inst true [(b.ent.addr + beAt x.ext 0 4, pay.length)]
              if !go && h ≠ .fault && instOk s c.inst then w else
              let s := bindNote (markPsn s n psn p x) n psn x
              if h == .fault || !instOk s c.inst then placeFail s n psn
              else afterMark (instWrite s c.inst (b.ent.addr + beAt x.ext 0 4) pay false) n c psn x

/-- The response of `data` to request message `req`, queued in the receiver's own stream (R281, R253). -/
def queueResp (s : State) (n op req : Nat) (data : Bytes) : State :=
  match connGet s n with
  | none => s
  | some c =>
    pushMsg s n c (segments c.maxPay data (data.length + 1) 0 (fun first last off pay =>
      { op := op, first := first, last := last, ackReq := false, msg := c.nextMsg, ext := beBytes 4 req ++ beBytes 4 off,
        pay := pay }))

/-- READ_REQ (R281): `d` is what the read of the source brought. -/
def rxReadReq (s0 : State) (d : RdRes) (h : Hap) : State :=
  match carHead s0 5 with
  | (s, none) => s
  | (s, some (p, x)) =>
    match rxOpen s p x with
    | (s, none) => s
    | (s, some (n, c)) =>
      match rxData s n c p x h with
      | (s, none) => s
      | (s, some (psn, _)) =>
        let len := beAt x.ext 16 4
        match regionFor s n c (beAt x.ext 0 4) (beAt x.ext 8 8) len 1 h with
        | none => regionNak s n psn (beAt x.ext 0 4) h
        | some g =>
          let (go, w) := instFetch s0 g.inst [(beAt x.ext 8 8, len)] d
          if !go && instOk s g.inst then w else
          let s := markPsn s n psn p x
          if len = 0 then afterMark (queueResp s n 6 x.msg []) n c psn x
          else if !instOk s g.inst then connFail s n csLocalAccess
          else
            let s := (instFetch s g.inst [(beAt x.ext 8 8, len)] d).2
            match d with
            | .ok b => afterMark (queueResp s n 6 x.msg (slice b 0 len)) n c psn x
            | .poison _ => connFail s n csLocalPoison
            | _ => connFail s n csLocalAccess

/-- ATOMIC (R281, R325): `d` is the prior value. -/
def rxAtomic (s0 : State) (d : RdRes) (h : Hap) : State :=
  match carHead s0 7 with
  | (s, none) => s
  | (s, some (p, x)) =>
    match rxOpen s p x with
    | (s, none) => s
    | (s, some (n, c)) =>
      match rxData s n c p x h with
      | (s, none) => s
      | (s, some (psn, _)) =>
        let va := beAt x.ext 8 8
        match (if va % 8 = 0 then regionFor s n c (beAt x.ext 0 4) va 8 2 h else none) with
        | none => regionNak s n psn (beAt x.ext 0 4) h
        | some g =>
          let (a, f) := instFn s g.inst
          let host := bit (cfgGet s a f 34) 6
          let (able, w) := instReach s0 g.inst true [(va, 8)]
          let (go, v) := if host then (true, s0) else instFetch s0 g.inst [(va, 8)] d
          if !able && d ≠ .xlate && instOk s g.inst then w
          else if !go && instOk s g.inst then v else
          let s := markPsn s n psn p x
          if !instOk s g.inst then connFail s n csLocalAccess
          else
            let s := if host then s else (instFetch s g.inst [(va, 8)] d).2
            match d with
            | .ok b =>
              let old := leAt b 0 8
              let cas := byteAt x.ext 4 = 1
              let o1 := beAt x.ext 16 8
              let o2 := beAt x.ext 24 8
              let new := if cas then (if old = o1 then o2 else old) else (old + o1) % 2 ^ 64
              let s := if host then
                  sendTlp s a (.hostAtomic a f (reqAddr s a f (instPasid s g.inst) va) cas o1 o2 (instPasid s g.inst))
                else instWrite s g.inst va (leBytes 8 new) false
              afterMark (queueResp s n 8 x.msg (leBytes 8 old)) n c psn x
            | .poison _ => connFail s n csLocalPoison
            | _ => connFail s n csLocalAccess

/-- READ_RESP and ATOMIC_RESP (R281, R286). -/
def rxResp (s0 : State) (op : Nat) (h : Hap) : State :=
  match carHead s0 op with
  | (s, none) => s
  | (s, some (p, x)) =>
    match rxOpen s p x with
    | (s, none) => s
    | (s, some (n, c)) =>
      match rxData s n c p x h with
      | (s, none) => s
      | (s, some (psn, pay)) =>
        let off := beAt x.ext 4 4
        let mine (w : Work) : Bool := w.conn == n && w.msg == beAt x.ext 0 4 && w.ended.isNone && w.op == (if op = 6 then 5 else 7)
        let wait : Option State := match s.car.works.find? mine with
          | some w => (match w.src with
            | .ring _ _ _ =>
              let (go, t) := instReach s0 c.inst true [(w.addr + off, x.payLen)]
              if !go && h ≠ .fault && instOk s c.inst && decide (off + x.payLen ≤ w.len) then some t else none
            | .stg _ => none)
          | none => none
        match wait with
        | some t => t
        | none =>
        let s := markPsn s n psn p x
        match s.car.works.find? mine with
        | none => connFail s n csProtocol
        | some w =>
          if off + x.payLen > w.len then connFail s n csProtocol
          else
            let stg := match w.src with
              | .stg _ => true
              | .ring _ _ _ => false
            if !stg && (h == .fault || !instOk s c.inst) then placeFail s n psn
            else
              let s := if stg then s.hbmWrite (w.addr + off) pay else instWrite s c.inst (w.addr + off) pay false
              let got := w.got + x.payLen
              let s := modWorks s (fun y => if y == w then
                { w with got := got, ended := if got ≥ w.len then some (stSuccess, w.len) else none } else y)
              afterMark s n c psn x

/-- R258 steps 7 and 9 for a control packet: its extended CSEQ where they pass. -/
def rxCtl (s : State) (n : Nat) (c : Conn) (p : Pkt) (x : Cth) : State × Option Nat :=
  let e := extend (c.cseqIn.getD 0) x.psn
  let newer := match c.cseqIn with
    | some l => decide (e > (l : Int))
    | none => decide (e ≥ 0)
  if !newer then (s, none)
  else if p.poison then (carCount s n 9, none)
  else
    match verify s c x e.toNat with
    | (.ok _, s) =>
      let s := connMod s n (fun c => { c with cseqIn := some e.toNat })
      if c.st == .error then (errorAnswer s n c, none) else (s, some e.toNat)
    | (.bad, s) => (carCount s n 9, none)
    | (.keyFault, s) => (connFail s n stKeyFault, none)

/-- A control packet at the front of Carter's input, checked. -/
def ctlHead (s : State) (op : Nat) : State × Option (Nat × Conn × Pkt × Cth × Nat) :=
  match carHead s op with
  | (s, none) => (s, none)
  | (s, some (p, x)) =>
    match rxOpen s p x with
    | (s, none) => (s, none)
    | (s, some (n, c)) =>
      match rxCtl s n c p x with
      | (s, none) => (s, none)
      | (s, some q) =>
        match connGet s n with
        | some c => (s, some (n, c, p, x, q))
        | none => (s, none)

/-- R273, R278: what CUM_PSN and SACK ranges (extended) do to the sender's PSNs. -/
def ackPsns (c : Conn) (cum : Nat) (ranges : List (Nat × Nat)) : Conn :=
  let acked (r : SendRec) : Bool := r.psn < cum || ranges.any (fun x => x.1 ≤ r.psn && r.psn ≤ x.2)
  let hi := (c.recs.filter acked).foldl (fun a r => max a r.txn) 0
  let adv := c.una < cum
  { c with
    una := max c.una cum,
    recs := (c.recs.filter (fun r => !acked r)).map (fun r =>
      if r.st == .sent && decide (hi ≥ r.txn + c.reorder) then { r with st := .lost } else r),
    backoff := if adv then 0 else c.backoff, expiries := if adv then 0 else c.expiries }

/-- R275: a round-trip sample in ns; none where it is discarded. -/
def rttSample (s : State) (p : Pkt) (x : Cth) : Option Nat :=
  let m : Int := ((2 ^ 32 * 1000000000 : Nat) : Int)
  let v (sec ns : Nat) : Int := ((sec * 1000000000 + ns : Nat) : Int)
  let e := x.ext
  let t := v (tsSec p.ts % 2 ^ 32) (tsNs p.ts) - v (beAt e 8 4) (beAt e 12 4 % 2 ^ 30)
  let u := v x.sec (x.ns % 2 ^ 30) - v (beAt e 16 4) (beAt e 20 4 % 2 ^ 30)
  let r := (t - u) % m
  let stepped := s.rd R.TU_STEP.STEP_COUNT [] ≠ 0 && s.mtime < s.rd R.TU_STEP_MTIME.MTIME [0] + 2 ^ 32 * s.rd R.TU_STEP_MTIME.MTIME [1] + 400000000
  if stepped || r ≤ 0 || r > 4000000000 then none else some r.toNat

/-- R276: a sample taken. -/
def takeSample (c : Conn) (r : Nat) : Conn :=
  let (srtt, var) := match c.srtt with
    | none => (r, r / 2)
    | some q => (q - q / 8 + r / 8, c.rttvar - c.rttvar / 4 + (if q > r then q - r else r - q) / 4)
  { c with srtt := some srtt, rttvar := var, rto := min c.rtoMax (max c.rtoMin (srtt + max 1000 (4 * var))) }

/-- R266, R268: a limit taken from a control packet. -/
def takeLimit (c : Conn) (l : Nat) : Conn := { c with limit := later l c.limit, rptFor := none }

/-- R273: the SACK ranges of an ACK, extended. -/
def sackRanges (c : Conn) (e : Bytes) : List (Int × Int) :=
  (List.range (byteAt e 24 % 16)).map (fun i => (extend c.nextPsn (beAt e (32 + 8 * i) 4), extend c.nextPsn (beAt e (36 + 8 * i) 4)))

/-- After acknowledgements: completions, and the end of draining. -/
def afterAck (s : State) (n : Nat) : State := drainCheck (remoteDone s n) n

/-- ACK (R273, R275, R278). -/
def rxAck (s : State) : State :=
  match ctlHead s 0x10 with
  | (s, none) => s
  | (s, some (n, c, p, x, _)) =>
    let cum := extend c.nextPsn (beAt x.ext 0 4)
    let rs := sackRanges c x.ext
    if cum > (c.nextPsn : Int) || rs.any (fun r => r.2 ≥ (c.nextPsn : Int)) then carCount s n 19
    else
      let held := (rs.filter (fun r => decide (0 ≤ r.2))).map (fun r => (r.1.toNat, r.2.toNat))
      let c := takeLimit (ackPsns c cum.toNat held) (beAt x.ext 4 4)
      let s := connPut s n c
      let s := if bit (byteAt x.ext 24) 4 then
          (match rttSample s p x with
           | some r => connPut s n (takeSample c r)
           | none => carCount s n 20)
        else s
      afterAck s n

/-- NAK (R274). -/
def rxNak (s : State) : State :=
  match ctlHead s 0x11 with
  | (s, none) => s
  | (s, some (n, c, _, x, _)) =>
    let code := byteAt x.ext 8
    let cum := extend c.nextPsn (beAt x.ext 0 4)
    if code = 0 || code > 5 then carCount s n 6
    else if cum > (c.nextPsn : Int) then carCount s n 19
    else
      let c := takeLimit (ackPsns c cum.toNat []) (beAt x.ext 4 4)
      let s := afterAck (carCount (connPut s n c) n 22) n
      let psn := extend c.nextPsn (beAt x.ext 12 4)
      let rec? := c.recs.find? (fun r => (r.psn : Int) == psn)
      match code with
      | 1 =>
        match rec? with
        | none => s
        | some r =>
          if r.st ≠ .sent then s
          else if c.rnrMax ≠ 7 && r.rnr + 1 ≥ c.rnrMax then connFail s n csRnrExceeded
          else connMod s n (fun c => { c with recs := c.recs.map (fun y =>
            if y.psn = r.psn then { y with st := .rnrWait, rnr := r.rnr + 1, rnrAt := s.now } else y) })
      | 4 => connFail s n csRemoteFault
      | 5 => connError s n csRemoteFault false flushBind
      | code =>
        let st := if code = 2 then csRemoteAccess else csRemoteOpcode
        let m := (rec?.map (·.msg)).getD (errorMsg c)
        let s := if m = errorMsg c then s else
          putCar s { s.car with works := s.car.works.map (fun w =>
            if w.conn == n && w.msg == m && w.ended.isNone then { w with ended := some (st, 0) } else w) }
        connFail s n st

/-- CREDIT (R266, R268). -/
def rxCredit (s : State) : State :=
  match ctlHead s 0x12 with
  | (s, none) => s
  | (s, some (n, c, _, x, q)) =>
    let l := beAt x.ext 0 4
    if bit (byteAt x.ext 4) 0 then
      sendRpt (connPut s n { c with limit := later l c.cposSent, rptFor := some (q % 2 ^ 32) }) n (q % 2 ^ 32)
    else connPut s n (takeLimit c l)

/-- CREDIT_RPT (R268). -/
def rxReport (s : State) : State :=
  match ctlHead s 0x13 with
  | (s, none) => s
  | (s, some (n, c, _, x, _)) =>
    match c.retract with
    | some (q, l) =>
      if q % 2 ^ 32 = beAt x.ext 4 4 then
        let g := later l (beAt x.ext 0 4)
        connPut s n { c with granted := g, lastLimit := g, retract := none }
      else s
    | none => s

/-! ## Timers and what a connection owes -/

/-- R309: a timer that expires while the context is not on-die is remembered, and wants it. -/
def oweTimer (s : State) (n : Nat) (o : Owed) : State :=
  wantContext (connMod s n (fun c => if c.owed.contains o then c else { c with owed := c.owed ++ [o] })) n

/-- R277: when the retransmission timer runs out: RTO × 2^b after the latest transmission of PSN UNA. -/
def rtoDue (c : Conn) : Nat :=
  (match c.recs.find? (fun r => r.psn == c.una), c.recs with
    | some r, _ => r.sentAt
    | none, r :: _ => r.sentAt
    | none, [] => 0) + c.rto * 2 ^ c.backoff * 10

/-- R277: the retransmission timer of a connection expires. -/
def rtoExpire (s : State) (n : Nat) : State :=
  match connGet s n with
  | none => s
  | some c =>
    if (c.st ≠ .active && c.st ≠ .draining) || c.recs.isEmpty then s else
    let s := clockTo s (rtoDue c)
    if c.tier ≠ .onDie then oweTimer s n .rto
    else if c.expiries + 1 ≥ c.retryMax then connFail s n csTimeout
    else
      connPut s n { c with
        expiries := c.expiries + 1, backoff := if c.rto * 2 ^ c.backoff < c.rtoMax then c.backoff + 1 else c.backoff,
        recs := c.recs.map (fun r => if r.st == .sent then { r with st := .lost } else r) }

/-- R294: RNR_DELAY of a PSN ends. -/
def rnrExpire (s : State) (n psn : Nat) : State :=
  match connGet s n with
  | none => s
  | some c =>
    let due := ((c.recs.find? (fun r => r.st == .rnrWait && r.psn % 2 ^ 32 == psn)).map (fun r => r.rnrAt + c.rnrDelay * 10)).getD 0
    let s := clockTo s due
    if c.tier ≠ .onDie then oweTimer s n (.rnr psn)
    else connPut s n { c with recs := c.recs.map (fun r => if r.st == .rnrWait && r.psn % 2 ^ 32 == psn then { r with st := .lost } else r) }

/-- A timer of a connection that sends a control packet, which runs out at `t`: its effect on-die; off-die it is remembered as `o`
(R309). -/
def connTimer (s : State) (n : Nat) (o : Owed) (due : Conn → Bool) (t : Conn → Nat) (f : State → Conn → State) : State :=
  match connGet s n with
  | none => s
  | some c =>
    if (c.st ≠ .active && c.st ≠ .draining) || !due c then s else
    let s := clockTo s (t c)
    if c.tier ≠ .onDie then oweTimer s n o
    else f s c

/-- R267: the CREDIT is due again. -/
def creditRepeat (s : State) (n : Nat) : State :=
  connTimer s n .credit (fun c => !c.credited) (fun c => c.creditAt + c.rtoInit * 10) (fun s _ => sendCredit' s n)

/-- R268: the CREDIT_RPT is due again. -/
def reportRepeat (s : State) (n : Nat) : State :=
  connTimer s n .report (fun c => c.rptFor.isSome) (fun c => c.rptAt + c.rto * 10) (fun s c => sendRpt s n (c.rptFor.getD 0))

/-- R271: ACK_DELAY has passed. -/
def ackDelayEnd (s : State) (n : Nat) : State :=
  connTimer s n .ack (fun c => c.unacked ≠ 0) (fun c => c.ackFrom + c.ackDelay * 10000) (fun s _ => sendAck' s n true)

/-- R44, R309: one thing that a connection owes is done. -/
def payOne (s : State) (n : Nat) (o : Owed) : State :=
  match o with
  | .ctl op ext => sendCtl s n op (fun _ => ext)
  | .rto => rtoExpire s n
  | .rnr p => rnrExpire s n p
  | .ack => ackDelayEnd s n
  | .credit => creditRepeat s n
  | .report => reportRepeat s n

/-- R44, R309: what a connection owes is done once its context is on-die and a lane is free. -/
def payOwed (s : State) (n : Nat) : State :=
  match connGet s n with
  | none => s
  | some c =>
    if c.owed = [] || c.tier ≠ .onDie || !laneOk s n c then s
    else c.owed.foldl (fun s o => payOne s n o) (connPut s n { c with owed := [] })

/-- Every connection does what it owes and can do. -/
def payAll (s : State) : State :=
  (s.car.conns.filter (fun e => e.2.owed ≠ [])).foldl (fun s e => payOwed s e.1) s

end Sys2Proof.Machine
end

