-- ==== Sys2Proof/Machine/EthOps.lean ====
section
/-! DEFINITION. Ethernet ports: layout checks, the link-hold table, lane failures and retirement, the MAC's receive and
transmit work (R59 to R86).
Log entries 14, 20, 22, 28, 146, 158, 159, 161, 163, 165. -/

namespace Sys2Proof.Machine

open Sys2Proof

/-- A port's counter. -/
def ethCount (s : State) (p n k : Nat) : State := s.add R.ETH_PORT_CNT.COUNT [p / 8, p % 8, n] k

/-- Lanes of a LANES value (R105). -/
def laneCount (v : Nat) : Nat := 2 ^ v

/-- R61: the modes of a port, by SPEED, LANES and FEC values. -/
def modeOk (speed lanes fec : Nat) : Bool :=
  [(0, 0, 0), (1, 0, 0), (1, 0, 1), (2, 0, 2), (3, 2, 1), (3, 1, 2), (3, 0, 2), (4, 2, 2), (4, 1, 2), (5, 3, 2), (5, 2, 2),
   (6, 3, 2)].contains (speed, lanes, fec)

/-- The lane settings of a port that uses `n` lanes from `k` of octet `o`. -/
def laneCfg (s : State) (o k n : Nat) : List Nat :=
  (List.range n).map (fun i =>
    s.rd R.ETH_LANE_CFG.TX_POL [o, k + i] + 2 * s.rd R.ETH_LANE_CFG.RX_POL [o, k + i]
      + 4 * s.rd R.ETH_LANE_CFG.TX_PRESET [o, k + i] + 64 * s.rd R.ETH_LANE_CFG.LOOPBACK [o, k + i])

/-- The configuration that the registers of port 8o + k hold. -/
def stagedCfg (s : State) (o k : Nat) : PortCfg :=
  let n := laneCount (s.rd R.ETH_PORT_CFG.LANES [o, k])
  { en := s.flag R.ETH_PORT_CFG.EN [o, k], speed := s.rd R.ETH_PORT_CFG.SPEED [o, k], lanes := n,
    fec := s.rd R.ETH_PORT_CFG.FEC [o, k], maxFrame := s.rd R.ETH_PORT_CFG.MAX_FRAME [o, k],
    pfc := s.flag R.ETH_PORT_CFG.PFC_EN [o, k], pause := s.flag R.ETH_PORT_CFG.PAUSE_EN [o, k],
    preempt := s.flag R.ETH_PORT_CFG.PREEMPT_EN [o, k], verifyDis := s.flag R.ETH_PORT_CFG.VERIFY_DIS [o, k],
    addFrag := s.rd R.ETH_PORT_CFG.ADD_FRAG [o, k], train := s.flag R.ETH_PORT_CFG.TRAIN_EN [o, k],
    lane := laneCfg s o k n }

def laneRetired (s : State) (o l : Nat) : Bool := s.flag R.ETH_LANE_STATUS.RETIRED [o, l]

/-- R62: whether the staged configuration of an enabled port is valid. -/
def portOk (s : State) (o k : Nat) : Bool :=
  let c := stagedCfg s o k
  k % c.lanes == 0 && k + c.lanes ≤ 8
    && !((List.range k).any (fun j => s.flag R.ETH_PORT_CFG.EN [o, j] && decide (k < j + (stagedCfg s o j).lanes)))
    && modeOk c.speed (s.rd R.ETH_PORT_CFG.LANES [o, k]) c.fec
    && decide (1518 ≤ c.maxFrame) && decide (c.maxFrame ≤ 9216)
    && (List.range c.lanes).all (fun i =>
         decide (s.rd R.ETH_LANE_CFG.TX_PRESET [o, k + i] < 12) && decide (s.rd R.ETH_LANE_CFG.LOOPBACK [o, k + i] < 3)
           && !laneRetired s o (k + i))
    && !(c.pfc && c.pause)

/-- R63: two configurations with the same mode. -/
def sameMode (a b : PortCfg) : Bool :=
  (!a.en && !b.en) ||
    (a.en == b.en && a.speed == b.speed && a.lanes == b.lanes && a.fec == b.fec && a.train == b.train && a.lane == b.lane)

def setCfg (s : State) (p : Nat) (c : PortCfg) : State :=
  { s with eth := { s.eth with cfg := SMap.set PortCfg.off s.eth.cfg p c } }

def setPortState (s : State) (p st : Nat) : State := s.wr R.ETH_PORT_STATUS.STATE [p / 8, p % 8] st

/-- The frame in transmission on a port is gone. -/
def dropTx (s : State) (p : Nat) : State := { s with eth := { s.eth with tx := SMap.del s.eth.tx p } }

/-- When the qualification of a port began (R70). -/
def setQual (s : State) (p : Nat) (t : Option Nat) : State :=
  { s with eth := { s.eth with qualAt := match t with
    | some v => SMap.ins s.eth.qualAt p v
    | none => SMap.del s.eth.qualAt p } }

/-- What a port has received of a preempted frame. -/
def setPart (s : State) (p : Nat) (x : Option RxPart) : State :=
  { s with eth := { s.eth with part := match x with
    | some v => SMap.ins s.eth.part p v
    | none => SMap.del s.eth.part p } }

/-- The hold timer of a port loaded with a time, or stopped. -/
def setHold (s : State) (p : Nat) (t : Option Nat) : State :=
  { s with eth := { s.eth with holdAt := match t with
    | some v => SMap.ins s.eth.holdAt p v
    | none => SMap.del s.eth.holdAt p } }

/-- R68: the MAC merge state of a port starts again; verification begins on a port in UP. -/
def mergeRestart (s : State) (p : Nat) : State :=
  let c := portCfg s p
  let s := { s with eth := { s.eth with tries := SMap.del s.eth.tries p } }
  if c.preempt && !c.verifyDis && portState s p == epUp then
    ({ s with eth := { s.eth with tries := SMap.ins s.eth.tries p 1 } }.wr R.ETH_PORT_STATUS.VERIFY [p / 8, p % 8] 1).emit
      (.verify p)
  else s.wr R.ETH_PORT_STATUS.VERIFY [p / 8, p % 8] 0

/-- R72: EN = 0 applied: the port goes to DISABLED and every queue is flushed as an admin flush. -/
def portDisable (s : State) (p : Nat) : State :=
  if portState s p == epDisabled then s
  else
    let (s, frames, _) := flushEp s p
    let s := setQual (setPart (setHold (dropTx s p) p none) p none) p none
    mergeRestart (ethCount (setPortState s p epDisabled) p 15 frames) p

/-- R64, R86: the lanes a Sahrov octet runs on: all, the half without a lane that `bad` names, or none. -/
def sahrovHalf (bad : Nat → Bool) : List Nat :=
  if !(List.range 8).any bad then List.range 8
  else if !(List.range 4).any bad then List.range 4
  else if !([4, 5, 6, 7].any bad) then [4, 5, 6, 7]
  else []

def sahrovLanes (s : State) (o : Nat) : List Nat := sahrovHalf (laneRetired s o)

/-- The lanes of a port. -/
def portLanes (s : State) (p : Nat) : List Nat :=
  if isSahrov s (p / 8) then (if p % 8 = 0 then sahrovLanes s (p / 8) else [])
  else (List.range (portCfg s p).lanes).map (fun i => p % 8 + i)

/-- Whether every lane of a port is locked and none of them is retired. -/
def lanesLocked (s : State) (p : Nat) : Bool :=
  (portLanes s p) ≠ [] &&
    (portLanes s p).all (fun l => s.flag R.ETH_LANE_STATUS.CDR_LOCK [p / 8, l] && !laneRetired s (p / 8) l)

/-- The port that uses lane `l` of an octet. -/
def laneOwner (s : State) (o l : Nat) : Option Nat :=
  if isSahrov s o then (if (sahrovLanes s o).contains l then some (8 * o) else none)
  else ((List.range 8).find? (fun k =>
    let c := portCfg s (8 * o + k)
    c.en && decide (k ≤ l) && decide (l < k + c.lanes))).map (fun k => 8 * o + k)

/-- R81, R82, R641: pin RCLK_OUT `n`: the lowest octet that enables it drives it with its recovered clock, and holds it low where
SQUELCH is 1 and its lane is not locked. A pin that no octet drives is high-impedance. -/
def rclkLevel (s : State) (n : Nat) : Option Bool :=
  ((List.range 16).find? (fun o => s.flag R.ETH_RCLK.EN [o] && s.rd R.ETH_RCLK.OUT [o] == n)).map (fun o =>
    !s.flag R.ETH_RCLK.SQUELCH [o] || s.flag R.ETH_LANE_STATUS.CDR_LOCK [o, s.rd R.ETH_RCLK.LANE [o]])

/-- The RCLK outputs follow their octets and lanes. -/
def rclkShow (s : State) : State :=
  [0, 1].foldl (fun s n =>
    let v := rclkLevel s n
    if v = SMap.get none s.eth.rclk n then s
    else
      { s with eth := { s.eth with rclk := SMap.set none s.eth.rclk n v } }.emit (match v with
        | some b => .pin (.rclkOut n) b
        | none => .pinZ (.rclkOut n))) s

/-- R81: CONFLICT of every octet after a change of ETH_RCLK. -/
def rclkResolve (s : State) : State :=
  (List.range 16).foldl (fun s o =>
    s.wr R.ETH_RCLK.CONFLICT [o] (b2n (s.flag R.ETH_RCLK.EN [o] && (List.range o).any (fun j =>
      s.flag R.ETH_RCLK.EN [j] && s.rd R.ETH_RCLK.OUT [j] == s.rd R.ETH_RCLK.OUT [o])))) s

/-- R80: the PLL of an octet in use is locked while its source runs: REFCLK, or the recovered clock of a locked lane. -/
def pllShow (s : State) (o : Nat) : State :=
  s.wr R.ETH_OCT_STATUS.PLL_LOCK [o]
    (if s.rd R.ETH_OCT_CFG.PLL_SRC [o] = 1 then s.rd R.ETH_LANE_STATUS.CDR_LOCK [o, s.rd R.ETH_OCT_CFG.PLL_LANE [o]] else 1)

/-- R70: the qualification of a port begins when its last lane locks, and ends with the lock of any of them. -/
def qualFollow (s : State) (p : Nat) : State :=
  if !lanesLocked s p then setQual s p none
  else if (SMap.find? s.eth.qualAt p).isSome then s
  else setQual s p (some s.now)

/-- The lock bit of a lane set by the device; an octet PLL that follows the lane, the RCLK outputs and the qualification of
the lane's port follow it. -/
def laneLock (s : State) (o l : Nat) (b : Bool) : State :=
  if s.flag R.ETH_LANE_STATUS.CDR_LOCK [o, l] == b then s
  else
    let s := rclkShow (pllShow (s.wr R.ETH_LANE_STATUS.CDR_LOCK [o, l] (b2n b)) o)
    match laneOwner s o l with
    | some p => qualFollow s p
    | none => s

/-- R72: EN = 1 applied: TRAINING; lane lock starts, and link training where TRAIN_EN is 1. -/
def portTrain (s : State) (p : Nat) : State :=
  let o := p / 8
  let s := (portLanes s p).foldl (fun s l => laneLock s o l false) (setQual (pllShow s o) p none)
  let s := (s.wr R.ETH_PORT_STATUS.LOCAL_FAULT [o, p % 8] 0).wr R.ETH_PORT_STATUS.REMOTE_FAULT [o, p % 8] 0
  let s := setPortState (s.wr R.ETH_PORT_STATUS.LANE_RETIRED [o, p % 8] 0) p epTraining
  if (portCfg s p).train then s.emit (.train p) else s

/-- R63: a valid configuration of one port put in force. -/
def portApply (s : State) (p : Nat) (c : PortCfg) : State :=
  let old := portCfg s p
  if old == c then s
  else if sameMode old c then
    let s := setCfg s p c
    if old.preempt ≠ c.preempt || old.verifyDis ≠ c.verifyDis then mergeRestart s p else s
  else
    let s := setCfg (portDisable s p) p c
    if c.en then portTrain s p else s

/-- What a Sahrov octet's port 8o is taken to run: no Ethernet mode has SPEED 7. -/
def sahrovCfg : PortCfg :=
  { en := true, speed := 7, lanes := 8, fec := 2, maxFrame := 9216, pfc := false, pause := false, preempt := false,
    verifyDis := true, addFrag := 0, train := true, lane := [] }

/-- R62, R63, R64: APPLY of an octet. CFG_ERR stays over an APPLY that is accepted: DESIGN CHOICE, log entry 158. -/
def ethApply (s : State) (o : Nat) : State :=
  if s.flag R.ETH_OCT_CFG.SAHROV [o] then
    let s := (List.range 7).foldl (fun s k => portApply s (8 * o + k + 1) PortCfg.off) s
    portApply s (8 * o) sahrovCfg
  else
    match (List.range 8).find? (fun k => s.flag R.ETH_PORT_CFG.EN [o, k] && !portOk s o k) with
    | some k => (s.wr R.ETH_OCT_STATUS.CFG_ERR [o] 1).wr R.ETH_OCT_STATUS.ERR_PORT [o] k
    | none =>
      let cs := (List.range 8).map (fun k => (k, if s.flag R.ETH_PORT_CFG.EN [o, k] then stagedCfg s o k else PortCfg.off))
      let s := cs.foldl (fun s (c : Nat × PortCfg) => if c.2.en then s else portApply s (8 * o + c.1) c.2) s
      let s := cs.foldl (fun s (c : Nat × PortCfg) => if sameMode (portCfg s (8 * o + c.1)) c.2 then s else
        setCfg (portDisable s (8 * o + c.1)) (8 * o + c.1) PortCfg.off) s
      cs.foldl (fun s (c : Nat × PortCfg) => if c.2.en then portApply s (8 * o + c.1) c.2 else s) s

/-- R71: the hold time of a port in units of 0.1 ns. -/
def holdTime (s : State) (p : Nat) : Nat := min (s.rd R.ETH_PORT_HOLD.HOLD [p / 8, p % 8]) 1000000 * 100000

/-- R72: every queue of a port is flushed as it enters DOWN; frames and bytes are counted. -/
def portFlushDown (s : State) (p : Nat) : State :=
  let (s, frames, bytes) := flushEp s p
  setPortState (setHold (ethCount (ethCount s p 12 frames) p 13 bytes) p none) p epDown

/-- R72, R74: a port has lost its link. -/
def loseLink (s : State) (p : Nat) : State :=
  if portState s p ≠ epUp then s
  else
    let s := mergeRestart (ethCount (setPart (dropTx s p) p none) p 22 1) p
    let s := s.wr R.ETH_PORT_STATUS.VERIFY [p / 8, p % 8] 0
    if s.rd R.ETH_PORT_HOLD.HOLD [p / 8, p % 8] = 0 then portFlushDown s p
    else ethCount (setPortState (setHold s p (some (s.now + holdTime s p))) p epHold) p 11 1

/-- R72: the hold timer of a port expires. -/
def holdExpire (s : State) (p : Nat) : State :=
  if portState s p ≠ epHold then s
  else (portFlushDown s p).wr R.ETH_PORT_STATUS.HOLD_EXPIRED [p / 8, p % 8] 1

/-- The link toward a STACK_ID that an octet carries. -/
def linkOf (s : State) (o : Nat) : Option Nat :=
  (List.range 4).find? (fun j => s.flag R.STK_LINK.EN [j] && s.rd R.STK_LINK.OCTET [j] == o
    && j ≠ s.rd R.STK_CFG.STACK_ID [])

/-- The low 64 bits of the serial number, most significant byte first. -/
def serialBytes : Bytes := beBytes 8 (Config.serial % 2 ^ 64)

def stkLink (s : State) (j : Nat) : Link := SMap.get Link.reset s.stk.links j

def putLink (s : State) (j : Nat) (l : Link) : State :=
  { s with stk := { s.stk with links := SMap.set Link.reset s.stk.links j l } }

/-- R86, R108: X4 of a link: its octet runs on one half, or its peer does. -/
def x4Show (s : State) (j : Nat) : State :=
  s.wr R.STK_LINK.X4 [j] (b2n ((sahrovLanes s (s.rd R.STK_LINK.OCTET [j])).length == 4 || (stkLink s j).peerX4))

/-- The header of R89 with SEQ and HCHECK in place, the payload, and the CRC-32. -/
def unitBytes (hdr payload : Bytes) (seq : Nat) : Bytes :=
  let h := overlay (hdr.take 15) 2 (beBytes 2 seq)
  let u := h ++ [byteOf (crc8 h)] ++ payload
  u ++ leBytes 4 (crc32 u)

/-- R89, R96: a CONTROL unit with one control word, from STACK_ID `i` to `j`: DEST 0xFFFE, ORIGIN 255, the other fields 0. -/
def ctlUnit (i j : Nat) (w : Bytes) : Bytes :=
  unitBytes ([byteOf 0x11, byteOf (i * 64 + j * 16), 0, 0, 0, 0, 0, 0, 0, 0, 0xFF, 0xFE] ++ beBytes 2 w.length ++ [0xFF]) w 0

/-- A control word sent toward a STACK_ID. -/
def sendWord (s : State) (j : Nat) (w : Bytes) : State := s.emit (.unit j (ctlUnit (s.rd R.STK_CFG.STACK_ID []) j w))

/-- R96: the HELLO word. -/
def sendHello (s : State) (j : Nat) : State :=
  let lanes := if s.flag R.STK_LINK.X4 [j] then 4 else 8
  sendWord s j ([1, 0, 0, 0, byteOf (s.rd R.STK_CFG.STACK_ID []), byteOf lanes, 0, 0] ++ serialBytes)

/-- R96, R97, R99: a link that runs shows hello and sends its HELLO word; its peer-loss time starts. -/
def linkHello (s : State) (j : Nat) : State :=
  sendHello (x4Show ((putLink s j { stkLink s j with heardAt := s.now }).wr R.STK_LINK.STATE [j] 1) j) j

/-- R72: a port goes to UP. An expiry that is due takes effect first (R73). -/
def portUp (s : State) (p : Nat) : State :=
  let due := match SMap.find? s.eth.holdAt p with
    | some t => decide (t ≤ s.now)
    | none => false
  let s := if due then holdExpire s p else s
  let s := (s.wr R.ETH_PORT_STATUS.LOCAL_FAULT [p / 8, p % 8] 0).wr R.ETH_PORT_STATUS.REMOTE_FAULT [p / 8, p % 8] 0
  let s := mergeRestart (setPortState (setHold s p none) p epUp) p
  if isSahrov s (p / 8) then
    match linkOf s (p / 8) with
    | some j => if s.flag R.STK_CFG.EN [] && s.rd R.STK_LINK.STATE [j] ≠ 4 then linkHello s j else s
    | none => s
  else s

/-- R97: whether a port is the octet of a link whose peer is lost: it qualifies when the peer is heard again. -/
def peerAway (s : State) (p : Nat) : Bool :=
  isSahrov s (p / 8) &&
    (match linkOf s (p / 8) with
     | some j => s.rd R.STK_LINK.STATE [j] == 3
     | none => false)

/-- R70, R72: a port qualifies, UP_QUAL × 100 µs after its last lane locked and its last fault was reported at the earliest.
LOCAL_FAULT and REMOTE_FAULT fall here: DESIGN CHOICE, log entry 159. -/
def portQualify (s : State) (p : Nat) : State :=
  let st := portState s p
  if st == epDisabled || st == epUp || !lanesLocked s p || s.flag R.ETH_PORT_STATUS.LANE_RETIRED [p / 8, p % 8]
      || peerAway s p then s
  else
    portUp (clockTo s ((SMap.find? s.eth.qualAt p).getD s.now
      + max 1 (s.rd R.ETH_PORT_HOLD.UP_QUAL [p / 8, p % 8]) * 1000000)) p

/-- R86: lane `l` of a Sahrov octet retires: where the link ran on it, the link retrains on the half that holds no retired lane,
or goes down. -/
def sahrovRetire (s : State) (o l : Nat) : State :=
  let used := sahrovHalf (fun k => k ≠ l && laneRetired s o k)
  if !used.contains l then s
  else
    let s := used.foldl (fun s k => laneLock s o k false) (setQual (loseLink s (8 * o)) (8 * o) none)
    match sahrovLanes s o, linkOf s o with
    | [], some j => (s.wr R.ETH_PORT_STATUS.LANE_RETIRED [o, 0] 1).wr R.STK_LINK.STATE [j] 3
    | [], none => s.wr R.ETH_PORT_STATUS.LANE_RETIRED [o, 0] 1
    | _, some j => (x4Show (s.emit (.train (8 * o))) j).inc R.STK_CNT.COUNT [6]
    | _, none => s.emit (.train (8 * o))

/-- R84, R85: what the retirement of a lane (0 to 127) does to its port. -/
def retireLane (s : State) (x : Nat) : State :=
  let o := x / 8
  let s := laneLock s o (x % 8) false
  if isSahrov s o then sahrovRetire s o (x % 8)
  else
    match laneOwner s o (x % 8) with
    | none => s
    | some p => loseLink (s.wr R.ETH_PORT_STATUS.LANE_RETIRED [p / 8, p % 8] 1) p

/-- R83: a failure of a lane. -/
def laneFail (s : State) (x : Nat) : State :=
  match countFailure s 1 x 0 [] with
  | (s, true) => retireLane s x
  | (s, false) => s

/-- The FCS as it follows a frame on the wire, least significant byte first. -/
def fcsOf (body : Bytes) : Nat := crc32 body

/-- R66: the ETH_PORT_CNT index of a received frame's fault. -/
def rxFault (c : PortCfg) (f : Bytes) (cut : Bool) : Option Nat :=
  let n := f.length
  if cut then some 23
  else if n < 64 then some 4
  else if n > c.maxFrame then some 5
  else
    let got := leAt f (n - 4) 4
    let want := fcsOf (f.take (n - 4))
    if got = want then none else if got + want = 2 ^ 32 - 1 then some 3 else some 2

/-- R125: the traffic class of a wire frame: the PCP of a tag that directly follows the source address. -/
def wireTc (f : Bytes) : Nat :=
  if beAt f 12 2 = 0x8100 || beAt f 12 2 = 0x88A8 then byteAt f 14 / 32 else 0

/-- R39, R182: the oldest frame at the internal input of pipeline `p` whose priority is not held by XOFF enters it. -/
def internalInput (s : State) (p : Nat) : State :=
  let s := putWin s { s.win with turns := SMap.del s.win.turns p }
  let l := SMap.get [] s.win.inq p
  if (SMap.get [] s.win.wait p).length ≥ 2048 then s
  else
    match l.findIdx? (fun x => !xoff s (128 + p) (x.tc % 8)) with
    | none => s
    | some i =>
      match l[i]? with
      | none => s
      | some x =>
        let s := feed (putWin s { s.win with inq := SMap.set [] s.win.inq p (l.eraseIdx i) }) { x with tx := none }
        match x.tx with
        | some (r, k) => txEntered s r k x.data.length x.poison
        | none => s

/-- R40: before a wire frame takes a slot: where the internal input has a frame waiting, it takes every sixteenth slot. -/
def inputTurn (s : State) (p : Nat) : State :=
  if !(SMap.get [] s.win.inq p).any (fun x => !xoff s (128 + p) (x.tc % 8)) then s
  else
    let n := SMap.get 0 s.win.turns p
    if n ≥ 15 then internalInput s p else putWin s { s.win with turns := SMap.set 0 s.win.turns p (n + 1) }

/-- R107: a good wire frame passed to its pipeline, and counted. -/
def passWire (s : State) (p : Pkt) : State :=
  match p.port with
  | some i => feed (ethCount (ethCount (inputTurn s p.pipe) i 0 1) i 1 (p.data.length + 4)) p
  | none => feed s p

/-- R40: wire frames that waited in the receive buffers enter their pipeline as its lookup-wait buffer allows. -/
def drainRx (s : State) (p fuel : Nat) : State :=
  match fuel with
  | 0 => s
  | fuel + 1 =>
    match SMap.get [] s.win.rxbuf p with
    | [] => s
    | x :: r =>
      if (SMap.get [] s.win.wait p).length ≥ 2048 then s
      else drainRx (passWire (putWin s { s.win with rxbuf := SMap.set [] s.win.rxbuf p r }) x) p fuel

/-- The packet of a frame that port `p` has received, with its ETH_PORT_CNT fault and its stamp without ASYM. -/
def wirePkt (s : State) (p : Nat) (body : Bytes) (fault : Option Nat) (raw : Nat) : Pkt :=
  let o := p / 8
  { data := body, origin := p, inst := 0, tc := wireTc body, domain := s.rd R.WIN_PORT_PROF.DOMAIN [o, p % 8],
    profile := s.rd R.WIN_PORT_PROF.PROFILE [o, p % 8], pipe := o, hash := srcHash (.port p), port := some p,
    octet := some o, ts := withAsym s p raw, raw := raw, fault := fault, poison := false, pass2 := false, node := none,
    espSeq := 0, hop := none, cth := false, tx := none }

/-- R40, R66, R72: a frame arrives on port `p`. -/
def ethFrame (s : State) (p : Nat) (f : Bytes) (cut : Bool) : State :=
  let c := portCfg s p
  let fault := rxFault c f cut
  if cut && f.length < 64 then ethCount s p 23 1
  else if fault == some 4 then ethCount s p 4 1
  else
    let (raw, s) := rxStamp s p (c.fec ≠ 0)
    let o := p / 8
    let pkt := wirePkt s p (f.take (f.length - 4)) fault raw
    let full := (SMap.get [] s.win.wait o).length ≥ 2048
    let held := SMap.get [] s.win.rxbuf o
    let mine := (held.filter (fun x => x.port == some p)).foldl (fun a x => a + x.data.length) 0
    match fault with
    | some k =>
      let s := ethCount s p k 1
      if full || !held.isEmpty then s else feed s pkt
    | none =>
      if full || !held.isEmpty then
        if mine + pkt.data.length ≤ Config.rxBufferBytes then
          putWin s { s.win with rxbuf := SMap.set [] s.win.rxbuf o (held ++ [pkt]) }
        else ethCount s p 6 1
      else passWire s pkt

/-- R65: an 802.3br fragment arrives on port `p`: the frame goes on once its FCS has come; a fragment out of its place ends the
frame it belongs to and is counted. -/
def fragReceive (s : State) (p n : Nat) (k : Option Nat) (data : Bytes) : State :=
  let had := SMap.find? s.eth.part p
  let keep (s : State) (all : Bytes) (next : Nat) : State :=
    let body := all.take (all.length - 4)
    if leAt all (all.length - 4) 4 = mcrc body then setPart s p (some { n := n, next := next, data := body })
    else ethFrame (setPart s p none) p all false
  match k, had with
  | none, none => keep s data 0
  | none, some _ => keep (ethCount s p 19 1) data 0
  | some _, none => ethCount s p 19 1
  | some k, some r =>
    if r.n ≠ n || r.next ≠ k then ethCount (setPart s p none) p 19 1
    else keep s (r.data ++ data) ((k + 1) % 4)

/-- R65, R68, R72: what arrives on an Ethernet port. -/
def portReceive (s : State) (p : Nat) (w : Wire) : State :=
  if isSahrov s (p / 8) then s
  else if portState s p ≠ epUp then
    match w with
    | .frame _ _ => ethCount s p 24 1
    | .fragment _ none _ => ethCount s p 24 1
    | _ => s
  else
    match w with
    | .frame f cut => ethFrame s p f cut
    | .fragment n k data => fragReceive s p n.val (k.map (·.val)) data
    | .badFragment => ethCount (setPart s p none) p 19 1
    | .verify => s.emit (.respond p)
    | .respond =>
      if s.rd R.ETH_PORT_STATUS.VERIFY [p / 8, p % 8] = 1 then s.wr R.ETH_PORT_STATUS.VERIFY [p / 8, p % 8] 2 else s

end Sys2Proof.Machine
end

