-- ==== Sys2Proof/Machine/TimeOps.lean ====
section
/-! DEFINITION. What the Time commands share with the stack and with register writes (R536 to R553).
Log entries 109, 110, 111, 166. -/

namespace Sys2Proof.Machine

open Sys2Proof

/-- R533: the present time latched. -/
def timeCapture (s : State) : State :=
  let (t, s) := tuStamp s accSnap
  (((s.wr R.TU_SNAP_SEC_LO.SEC_LO [] (tsSec t % 2 ^ 32)).wr R.TU_SNAP_SEC_HI.SEC_HI [] (tsSec t / 2 ^ 32)).wr
    R.TU_SNAP_NS.NS [] (tsNs t)).wr R.TU_SNAP_FRAC.FRAC [] (tsFrac t)

/-- R534: APPLY of the value in TU_SET, absolute, added or subtracted. -/
def timeSet (s : State) (add neg : Bool) : State :=
  let v := tsMake (s.rd R.TU_SET_SEC_LO.SEC_LO [] + 2 ^ 32 * s.rd R.TU_SET_SEC_HI.SEC_HI []) (s.rd R.TU_SET_NS.NS [])
    (s.rd R.TU_SET_FRAC.FRAC []) * 65536
  let t := if !add then v else if neg then s.tu.t + tuSpan - v % tuSpan else s.tu.t + v
  let s := tuStep s t
  { s with tu := { s.tu with start := t % tuSpan, setAt := some s.now } }

/-- Timestamp `i` of TU_SMP (R555). -/
def smpTime (s : State) (i : Nat) : Int :=
  (tsMake (s.rd R.TU_SMP_SEC_LO.SEC_LO [i] + 2 ^ 32 * s.rd R.TU_SMP_SEC_HI.SEC_HI [i]) (s.rd R.TU_SMP_NS.NS [i])
    (s.rd R.TU_SMP_FRAC.FRAC [i]) : Nat)

/-- R545: the offset and delay of the sample that the registers hold. -/
def sampleOf (s : State) (kind : Bool) : Int × Int × State :=
  if kind then
    let d : Int := (s.rd R.TU_SMP_DELAY.DELAY [] * 256 : Nat)
    (smpTime s 1 - smpTime s 0 - d, d, s)
  else engineFour s (smpTime s 0) (smpTime s 1) (smpTime s 2) (smpTime s 3)

def ownId (s : State) : Nat := s.rd R.STK_CFG.STACK_ID []
def isMaster (s : State) : Bool := ownId s == 0

/-- R52, R100: whether this device is a member of a stack, and so owns no stack-shared table. -/
def isMember (s : State) : Bool := s.flag R.STK_CFG.EN [] && !isMaster s

/-- R545: the engine takes an offset and a delay; with source 0 the servo gets the offset. A stack member runs no
servo on it: the offset stands in TU_OUT_OFF, to be reported to the master (R52). -/
def sampleTake (x : Int × Int × State) : State :=
  let (s, ok) := engineTake x.2.2 x.1 x.2.1
  if ok && isMember s then s.wr R.TU_OUT_OFF.OFFSET [] (ofSigned 32 (satSigned 32 (asr x.1 8)))
  else if ok && s.rd R.TU_SERVO.SRC [] == 0 then onOffset s x.1
  else s

/-- R545: the engine computes for 1 µs. -/
def engineBusy (s : State) : State :=
  ({ s with tu := { s.tu with busyUntil := s.now + 10000 } }).wr R.TU_STATUS.SMP_BUSY [] 1

/-- R545: COMMIT. The engine takes one sample per µs; a COMMIT while it computes is rejected and counted. -/
def sampleCommit (s : State) (kind : Bool) : State :=
  if s.flag R.TU_STATUS.SMP_BUSY [] then s.inc R.TU_CNT.COUNT [1] else sampleTake (sampleOf (engineBusy s) kind)

/-- R531, R547: a write of TU_SERVO.MODE. -/
def servoMode (s : State) (mode : Nat) : State :=
  if mode ≥ 4 then s.wr R.TU_STATUS.CFG_ERR [] 1
  else if mode = 1 || mode = 3 then
    let f := tuFreq s
    let s := s.wr R.TU_SERVO.MODE [] mode
    let s :=
      if s.rd R.TU_STATUS.SERVO_STATE [] = svFree then
        ({ s with tu := { s.tu with integ := f, good := 0, offAt := s.now } }).wr R.TU_STATUS.SERVO_STATE [] svLocking
      else s
    tuShow s
  else
    let s := (s.wr R.TU_SERVO.MODE [] mode).wr R.TU_STATUS.SERVO_STATE [] svFree
    tuShow { s with tu := { s.tu with out := 0 } }

/-- EEC_STATE codes of R554. -/
def eecFreeRun : Nat := 0
def eecLocked : Nat := 1
def eecHoldover : Nat := 2

/-- The EEC follows reference `r`. -/
def eecFollow (s : State) (r : Nat) : State :=
  let f := if r = 0 then s.tu.ffo0 else s.tu.ffo1
  tuShow ((({ s with tu := { s.tu with eec := f } }).wr R.TU_STATUS.EEC_REF [] r).wr R.TU_SYNCE_FFO.FFO [] (ofSigned 32 f))

/-- The EEC locks to reference `r`. -/
def eecLock (s : State) (r : Nat) : State := eecFollow (s.wr R.TU_STATUS.EEC_STATE [] eecLocked) r

/-- R551: a frequency within ±9.2 ppm, in units of 2^-40. -/
def eecInRange (f : Int) : Bool := f.natAbs * 10000000 ≤ 92 * 2 ^ 40

/-- R551: whether reference `r` is enabled and its lane holds CDR lock. -/
def eecLaneOk (s : State) (r : Nat) : Bool :=
  let l := s.rd (if r = 0 then R.TU_SYNCE.REF0 else R.TU_SYNCE.REF1) []
  s.flag (if r = 0 then R.TU_SYNCE.REF0_EN else R.TU_SYNCE.REF1_EN) [] && s.flag R.ETH_LANE_STATUS.CDR_LOCK [l / 8, l % 8]

/-- A reference becomes OK with the measured and filtered frequency `f`. -/
def eecSetRef (s : State) (r : Nat) (f : Int) : State :=
  if r = 0 then ({ s with tu := { s.tu with ffo0 := f } }).wr R.TU_SYNCE_ST.REF0_OK [] 1
  else ({ s with tu := { s.tu with ffo1 := f } }).wr R.TU_SYNCE_ST.REF1_OK [] 1

/-- R551: the references that complete 10 s of being OK at this moment, with their frequencies. -/
def eecQualified (s : State) (q0 q1 : Option Int) : State :=
  let ok0 := eecLaneOk s 0 && (q0.map eecInRange).getD false
  let ok1 := eecLaneOk s 1 && (q1.map eecInRange).getD false
  let s := if ok0 then eecSetRef s 0 (q0.getD 0) else s
  let s := if ok1 then eecSetRef s 1 (q1.getD 0) else s
  let prio := s.rd R.TU_SYNCE.PRIO []
  let st := s.rd R.TU_STATUS.EEC_STATE []
  if !s.flag R.TU_SYNCE.EN [] || !(ok0 || ok1) then s
  else if st = eecLocked then
    let act := s.rd R.TU_STATUS.EEC_REF []
    if s.flag R.TU_SYNCE.REVERT [] && act ≠ prio && (if prio = 0 then ok0 else ok1) then
      (eecLock s prio).inc R.TU_CNT.COUNT [10]
    else if act = 0 && ok0 then eecFollow s 0
    else if act = 1 && ok1 then eecFollow s 1
    else s
  else if ok0 && ok1 then eecLock s prio
  else eecLock s (if ok0 then 0 else 1)

/-- R551: reference `r` is no longer OK; `avg` is the frequency averaged over the last 10 s. -/
def eecLost (s : State) (r : Nat) (avg : Int) : State :=
  let s := s.wr (if r = 0 then R.TU_SYNCE_ST.REF0_OK else R.TU_SYNCE_ST.REF1_OK) [] 0
  if s.rd R.TU_STATUS.EEC_STATE [] = eecLocked && s.rd R.TU_STATUS.EEC_REF [] = r then
    let o := 1 - r
    if s.flag (if o = 0 then R.TU_SYNCE_ST.REF0_OK else R.TU_SYNCE_ST.REF1_OK) [] && eecLaneOk s o then
      (eecLock s o).inc R.TU_CNT.COUNT [10]
    else tuShow (({ s with tu := { s.tu with eec := avg } }).wr R.TU_STATUS.EEC_STATE [] eecHoldover)
  else s

/-- R551: a write of TU_SYNCE.EN. -/
def synceEnable (s : State) (en : Bool) : State :=
  let s := s.wr R.TU_SYNCE.EN [] (b2n en)
  if en then s else tuShow (({ s with tu := { s.tu with eec := 0 } }).wr R.TU_STATUS.EEC_STATE [] eecFreeRun)

end Sys2Proof.Machine
end

