-- ==== Sys2Proof/Machine/StkOps.lean ====
section
/-! DEFINITION. The Sahrov link and the stack: units, sequence and credit, replay, control words, shared state, stack time
(R87 to R102, R543, R550).
Log entries 23, 24, 26, 27, 55, 149, 150, 151, 152, 153, 154, 155, 156, 161. -/

namespace Sys2Proof.Machine

open Sys2Proof

/-- STK_STATUS.MASTER follows EN (R98, R108). -/
def stkShow (s : State) : State := s.wr R.STK_STATUS.MASTER [] (b2n (s.flag R.STK_CFG.EN [] && isMaster s))

def linkOctet (s : State) (j : Nat) : Nat := s.rd R.STK_LINK.OCTET [j]

/-- Whether the link toward STACK_ID `j` is in use and its octet runs. -/
def linkRuns (s : State) (j : Nat) : Bool :=
  s.flag R.STK_CFG.EN [] && s.flag R.STK_LINK.EN [j] && j ≠ ownId s && isSahrov s (linkOctet s j)
    && portState s (8 * linkOctet s j) == epUp

/-- STK_LINK.STATE codes (R108). -/
def lkHello : Nat := 1
def lkUp : Nat := 2
def lkLost : Nat := 3
def lkDup : Nat := 4

def linkState (s : State) (j : Nat) : Nat := s.rd R.STK_LINK.STATE [j]

/-- R97: whether units of the peer are heard: the link runs, or its peer is lost while its lanes stay locked. -/
def linkHears (s : State) (j : Nat) : Bool :=
  linkRuns s j || (s.flag R.STK_CFG.EN [] && s.flag R.STK_LINK.EN [j] && j ≠ ownId s && isSahrov s (linkOctet s j)
    && linkState s j == lkLost && lanesLocked s (8 * linkOctet s j))

/-- Whether a link carries DATA. -/
def linkUp (s : State) (j : Nat) : Bool := linkRuns s j && linkState s j == lkUp

def stkCount (s : State) (n : Nat) : State := s.inc R.STK_CNT.COUNT [n]

/-- a precedes b modulo 65,536 (R93). -/
def seqBefore (a b : Nat) : Bool := a % 65536 ≠ b % 65536 && decide ((b + 65536 - a % 65536) % 65536 < 32768)

/-- R92, R93: an ACK word with the last SEQ admitted. -/
def sendAck (s : State) (j : Nat) (nak : Bool) : State :=
  let l := stkLink s j
  let s := putLink s j { l with acked := l.rxSeq, admitted := 0 }
  sendWord s j ([2, 0] ++ beBytes 2 ((l.rxSeq + 65535) % 65536) ++ [byteOf (b2n nak)] ++ List.replicate 11 0)

/-- R93: a NAK, at most one for an expected SEQ until that SEQ is admitted or 10 µs pass. -/
def sendNak (s : State) (j : Nat) : State :=
  let l := stkLink s j
  let again := match l.nakFor with
    | some (q, t) => q ≠ l.rxSeq || decide (s.now ≥ t + 100000)
    | none => true
  if again then
    sendAck (stkCount (putLink s j { l with nakFor := some (l.rxSeq, s.now) }) 5) j true
  else s

/-- R94: the credit of a class granted to the peer. -/
def sendCredit (s : State) (j c : Nat) : State :=
  let lim := (SMap.get 0 (stkLink s j).granted c + Config.sahrovWindow) % 2 ^ 32
  sendWord s j ([3, 0, 0, 0, byteOf c, 0, 0, 0] ++ beBytes 4 lim ++ [0, 0, 0, 0])

/-- The DATA header of R89 toward a STACK_ID, SEQ and HCHECK still 0. -/
def dataHeader (s : State) (j : Nat) (poison : Bool) (tc hash dom dest len origin : Nat) : Bytes :=
  [byteOf 0x10, byteOf (ownId s * 64 + j * 16 + (if poison then 8 else 0) + tc % 8), 0, 0] ++ beBytes 4 hash
    ++ beBytes 2 (dom % 1024) ++ beBytes 2 dest ++ beBytes 2 len ++ [byteOf origin, 0]

/-- A payload of at least 64 bytes (R89). No FCS and a filling of zeros are a DESIGN CHOICE: log entry 149. -/
def padUnit (b : Bytes) : Bytes := b ++ List.replicate (64 - b.length) 0

/-- A DATA unit's header and payload, or a control word, waits to be sent. Class 8 stands for a control word that keeps
its place behind the TC 7 units before it. -/
def linkQueue (s : State) (j c : Nat) (b : Bytes) : State :=
  let l := stkLink s j
  putLink s j { l with sendq := l.sendq ++ [(c, b)] }

/-- R100: whether shared state goes out on a link: its peer has joined, be the link up or in retraining. -/
def shares (s : State) (j : Nat) : Bool := s.flag R.STK_LINK.EN [j] && j ≠ ownId s && (stkLink s j).joined

/-- R100: a shared-state change toward every other device of the stack. -/
def shareOut (s : State) (change : Bytes) : State :=
  (List.range 4).foldl (fun s j =>
    if shares s j then
      let p := padUnit change
      linkQueue s j 7 (dataHeader s j false 7 0 0 0xFFFE p.length 255 ++ p)
    else s) s

/-- R96: a STATE_MARK word behind the changes it closes. -/
def markWord (seq kind : Nat) : Bytes := [7, 0, 0, 0] ++ beBytes 4 seq ++ [byteOf kind] ++ List.replicate 7 0

def markOut (s : State) (kind : Nat) : State :=
  (List.range 4).foldl (fun s j =>
    if shares s j then
      linkQueue s j 8 (markWord (s.rd R.STK_SEQ.STATE_SEQ []) kind)
    else s) s

/-- R100: the master sends one change, followed by a STATE_MARK word. -/
def shareChange (s : State) (change : Bytes) : State :=
  if s.flag R.STK_CFG.EN [] && isMaster s then markOut ((shareOut s change).inc R.STK_SEQ.STATE_SEQ []) 0 else s

/-- Credit units of a DATA unit, of whose header and payload `b` consists: 256-byte units, rounded up, CRC included (R94). -/
def creditUnits (b : Bytes) : Nat := ceilDiv (b.length + 4) 256

/-- R94: whether the credit of a class covers a unit. -/
def creditOk (l : Link) (c : Nat) (b : Bytes) : Bool :=
  let sent := SMap.get 0 l.sent c + creditUnits b
  decide ((SMap.get 0 l.limit c + 2 ^ 32 - sent % 2 ^ 32) % 2 ^ 32 < 2 ^ 31)

def replayBytes (l : Link) : Nat := l.replay.foldl (fun a x => a + x.bytes.length) 0

/-- The first entry that may be sent: one whose class is not blocked by an earlier entry of the class. -/
def sendable (l : Link) (q : List (Nat × Bytes)) (blocked : List Nat) : Option (Nat × Bytes) :=
  match q with
  | [] => none
  | (c, b) :: r =>
    let k := if c = 8 then 7 else c
    if !blocked.contains k && (c == 8 || creditOk l c b) then some (c, b) else sendable l r (k :: blocked)

/-- An entry taken out of the send queue. -/
def unqueue (l : Link) (x : Nat × Bytes) : Link := { l with sendq := l.sendq.erase x }

/-- R92, R94: the next DATA unit sent, where replay buffer and credit allow. The payload follows the 16 header bytes. -/
def dataSend (s : State) (j : Nat) : State :=
  let l := stkLink s j
  if !linkUp s j then s
  else
    match sendable l l.sendq [] with
    | none => s
    | some (8, b) => sendWord (putLink s j (unqueue l (8, b))) j b
    | some (c, b) =>
      let u := unitBytes (b.take 15) (b.drop 16) l.txSeq
      if replayBytes l + u.length > 524288 then s
      else
        let l := unqueue l (c, b)
        let x : SUnit := { seq := l.txSeq, tc := c, bytes := u, tries := 0 }
        let sent := SMap.set 0 l.sent c ((SMap.get 0 l.sent c + creditUnits b) % 2 ^ 32)
        (putLink s j { l with replay := l.replay ++ [x], txSeq := (l.txSeq + 1) % 65536, sent := sent }).emit (.unit j u)

/-- R92: the link is taken down and retrained. -/
def linkRetrain (s : State) (j : Nat) : State :=
  let o := linkOctet s j
  let s := loseLink s (8 * o)
  let l := stkLink s j
  let clear (x : SUnit) : SUnit := { x with tries := 0 }
  let s := putLink s j { l with replay := l.replay.map clear }
  let s := (portLanes s (8 * o)).foldl (fun s k => laneLock s o k false) s
  ((stkCount s 6).wr R.STK_LINK.STATE [j] lkHello).emit (.train (8 * o))

/-- R92: every unacknowledged unit replayed in SEQ order; a SEQ replayed eight times takes the link down. -/
def replayAll (s : State) (j : Nat) : State :=
  let l := stkLink s j
  if !linkUp s j || l.replay.isEmpty then s
  else if l.replay.any (fun x => decide (x.tries ≥ 8)) then linkRetrain s j
  else
    let more (x : SUnit) : SUnit := { x with tries := x.tries + 1 }
    let s := putLink s j { l with replay := l.replay.map more }
    l.replay.foldl (fun s x => stkCount (s.emit (.unit j x.bytes)) 3) s

/-- R92: an ACK frees every unit up to its cumulative SEQ; with NAK set, the rest is replayed. -/
def ackArrive (s : State) (j seq : Nat) (nak : Bool) : State :=
  let l := stkLink s j
  let s := putLink s j { l with replay := l.replay.filter (fun x => seqBefore seq x.seq) }
  if nak then replayAll s j else s

/-- A peer's valid unit has arrived (R97). -/
def linkHeard (s : State) (j : Nat) : State := putLink s j { stkLink s j with heardAt := s.now }

/-- R96, R99: HELLO. A lost peer that is heard again qualifies the link's queues (R97). SEQ stays as it was: DESIGN CHOICE, log
entry 156. -/
def helloArrive (s : State) (j id lanes : Nat) : State :=
  if !s.flag R.STK_CFG.EN [] || !s.flag R.STK_LINK.EN [j] || j = ownId s then s
  else if id = ownId s then
    (countFailure ((s.wr R.STK_LINK.STATE [j] lkDup).wr R.STK_STATUS.DUP_ID [] 1) 11 j 0 []).1
  else if id ≠ j || linkState s j = lkDup then s
  else
    let s := x4Show (putLink s j { stkLink s j with peerX4 := lanes == 4, joined := true }) j
    let s := if linkState s j = lkLost && portState s (8 * linkOctet s j) ≠ epUp then portUp s (8 * linkOctet s j) else s
    let fresh := linkState s j ≠ lkUp
    let s := s.wr R.STK_LINK.STATE [j] lkUp
    if fresh then (List.range 8).foldl (fun s c => sendCredit s j c) s else s

/-- R94: CREDIT. A TC above 7 is taken modulo 8: DESIGN CHOICE, log entry 152. -/
def creditArrive (s : State) (j c lim : Nat) : State :=
  let l := stkLink s j
  putLink s j { l with limit := SMap.set 0 l.limit (c % 8) (lim % 2 ^ 32) }

/-- R97: KEEPALIVE. -/
def keepaliveArrive (s : State) (j beat : Nat) : State := putLink s j { stkLink s j with peerBeat := beat }

/-- R97, R101: the peer on a link is lost; the loss of STACK_ID 0 is the loss of the master, and TU enters HOLDOVER at once
(R550). A link in DUP_ID goes to LOST as well: DESIGN CHOICE, log entry 153. -/
def peerLoss (s : State) (j : Nat) : State :=
  if !s.flag R.STK_CFG.EN [] || !s.flag R.STK_LINK.EN [j] || j = ownId s || linkState s j = 0 then s
  else
    let s := putLink s j { stkLink s j with joined := false }
    let s := loseLink (s.wr R.STK_LINK.STATE [j] lkLost) (8 * linkOctet s j)
    if j = 0 then
      let s := s.wr R.STK_STATUS.MASTER_LOST [] 1
      if s.rd R.TU_SERVO.SRC [] = 2 then servoHoldover s else s
    else s

/- Shared state. A change is the bytes (opcode of R154, table or 0, index little-endian in four bytes) and the record. -/

/-- R100: a change of a shared table or action. -/
def changeBytes (op t ix : Nat) (rec : Bytes) : Bytes := [byteOf op, byteOf t] ++ leBytes 4 ix ++ rec

/-- R100, R102: one change applied at a member. A change that cannot be applied is ignored: DESIGN CHOICE, log entry 155. -/
def changeApply (s : State) (c : Bytes) : State :=
  let t := byteAt c 1
  let v := c.drop 6
  match byteAt c 0 with
  | 0x10 =>
    match tblInsert s t v true with
    | .ok s => s
    | .error _ => s
  | 0x11 => (tblDelete s t (entKey s t (slice v 0 (32 * tblSlots s t)))).getD s
  | 0x14 => putWin s { s.win with act := SMap.set zero32 s.win.act (leAt c 2 4) (slice v 0 32) }
  | _ => s

/-- What names the entry that a change writes: its table and key, or its action index. -/
def changeName (s : State) (c : Bytes) : Nat × Bytes :=
  if byteAt c 0 = 0x14 then (64, leBytes 4 (leAt c 2 4))
  else (byteAt c 1, entKey s (byteAt c 1) (slice (c.drop 6) 0 (32 * tblSlots s (byteAt c 1))))

/-- Every place of a table that may hold an entry: the listed slots of its range and its stash. -/
def tblLocs (s : State) (t : Nat) : List Loc :=
  let n := tblSlots s t
  let base := s.rd R.WIN_TBL_BASE.BASE [t] * 4
  let slots := if s.flag R.WIN_TBL.HOME [t] then
      ((s.hbm.map (fun e => (hbmSlotOf s e.1).getD 0)).filter (inTable s t)).eraseDups
    else (s.win.slots.map Prod.fst).filter (inTable s t)
  ((slots.map (fun i => Loc.at ((i - base) / 4) ((i - base) % 4 / n))).eraseDups ++ stashLocs).filter
    (fun l => entValid (entRead s t l))

/-- The enabled stack-shared tables. -/
def sharedTables (s : State) : List Nat :=
  (List.range 64).filter (fun t => s.flag R.WIN_TBL.SHARED [t] && s.flag R.WIN_TBL.EN [t] && s.flag R.WIN_TBL.READY [t])

/-- Every shared entry of a device, by table, and every action that one of them, or the MISS_ACT of a shared table, names. -/
def sharedEntries (s : State) : List (Nat × Bytes) :=
  (sharedTables s).foldl (fun a t => a ++ (tblLocs s t).map (fun l => (t, entRead s t l))) []

def sharedActs (s : State) : List Nat :=
  ((sharedEntries s).map (fun e => entAct e.2)
    ++ ((List.range 64).filter (fun t => s.flag R.WIN_TBL.SHARED [t])).map (fun t => s.rd R.WIN_TBL_MISS.MISS_ACT [t])).eraseDups

/-- R102: the snapshot of a master that joins. -/
def snapshotOut (s : State) : State :=
  if !(s.flag R.STK_CFG.EN [] && isMaster s) then s
  else
    let s := markOut s 1
    let s := (sharedActs s).foldl (fun s a => shareOut s (changeBytes 0x14 0 a (actEntry s a))) s
    let s := (sharedEntries s).foldl (fun s e => shareOut s (changeBytes 0x10 e.1 0 e.2)) s
    markOut s 2

/-- R100 to R102: a shared-state change arrives at a member. It waits for its STATE_MARK; during a snapshot it is applied
and recorded. A member that has lost the master applies none outside a snapshot. -/
def changeArrive (s : State) (j : Nat) (p : Bytes) : State :=
  if j ≠ 0 || isMaster s then s
  else
    match s.stk.snap with
    | some seen => changeApply { s with stk := { s.stk with snap := some (seen ++ [changeName s p]) } } p
    | none => { s with stk := { s.stk with inbox := s.stk.inbox ++ [p] } }

/-- R102: the shared entries that a snapshot did not write are deleted. -/
def snapshotPrune (s : State) (seen : List (Nat × Bytes)) : State :=
  (sharedEntries s).foldl (fun s e =>
    let k := entKey s e.1 e.2
    if seen.contains (e.1, k) then s else (tblDelete s e.1 k).getD s) s

/-- R96, R100: the STATE_ACK word of a member. -/
def sendStateAck (s : State) (seq : Nat) : State :=
  sendWord s 0 ([8, 0, 0, 0] ++ beBytes 4 seq ++ List.replicate 8 0)

/-- R100 to R102: STATE_MARK at a member: 0 closes an update, 1 opens a snapshot, 2 closes it. Another value is ignored: DESIGN
CHOICE, log entry 152. -/
def stateMark (s : State) (j seq kind : Nat) : State :=
  if j ≠ 0 || isMaster s || !s.flag R.STK_CFG.EN [] then s
  else
    match kind with
    | 0 =>
      if s.stk.snap.isSome then s
      else if s.flag R.STK_STATUS.MASTER_LOST [] then { s with stk := { s.stk with inbox := [] } }
      else
        let s := s.stk.inbox.foldl changeApply { s with stk := { s.stk with inbox := [] } }
        sendStateAck (s.wr R.STK_SEQ.STATE_SEQ [] seq) seq
    | 1 => ({ s with stk := { s.stk with snap := some [], inbox := [] } }).wr R.STK_STATUS.RESYNC [] 1
    | 2 =>
      match s.stk.snap with
      | none => s
      | some seen =>
        let s := snapshotPrune { s with stk := { s.stk with snap := none } } seen
        let s := ((s.wr R.STK_STATUS.RESYNC [] 0).wr R.STK_STATUS.MASTER_LOST [] 0).wr R.STK_SEQ.STATE_SEQ [] seq
        sendStateAck s seq
    | _ => s

/-- R100: the master learns the last sequence a member applied. -/
def stateAck (s : State) (j seq : Nat) : State := { s with stk := { s.stk with acks := SMap.ins s.stk.acks j (seq % 2 ^ 32) } }

/-- The TIME layout of R96: seconds, nanoseconds, fraction. -/
def timeWord (op seq t : Nat) : Bytes :=
  [byteOf op, 0] ++ beBytes 2 seq ++ beBytes 6 (tsSec t) ++ beBytes 4 (tsNs t) ++ beBytes 2 (tsFrac t)

/-- Whether this member follows its master over the link (R550). -/
def stkTime (s : State) : Bool := isMember s && s.rd R.TU_SERVO.SRC [] == 2

/-- R550: a member's TIME word toward the master, PERIOD ms after the last; its transmission stamp is t3. -/
def timePeriod (s : State) : State :=
  if !(stkTime s && linkUp s 0) then s
  else
    let s := clockTo s (s.tu.timeAt + max 1 (s.rd R.TU_STK.PERIOD []) * 10000000)
    let (t3, s) := txStamp s (8 * linkOctet s 0) true
    let q := (s.tu.seq + 1) % 65536
    sendWord { s with tu := { s.tu with seq := q, t3 := some t3, timeAt := s.now } } 0 (timeWord 5 q t3)

/-- R550: a TIME word arrives. At the master it is answered with TIME_RPT, its receive stamp, and the master's own TIME
word; at a member it gives t1 and t2. -/
def timeArrive (s : State) (j seq t : Nat) : State :=
  if !linkUp s j then s
  else
    let (rx, s) := rxStamp s (8 * linkOctet s j) true
    if isMaster s then
      let s := sendWord s j (timeWord 6 seq rx)
      let (tx, s) := txStamp s (8 * linkOctet s j) true
      sendWord s j (timeWord 5 seq tx)
    else if j = 0 && stkTime s then { s with tu := { s.tu with t1 := some t, t2 := rx } }
    else s

/-- R550: TIME_RPT returns t4; the set goes to the engine with TU_STK.ASYM, and the mean path delay is recorded. -/
def timeRpt (s : State) (j seq t4 : Nat) : State :=
  if !(j == 0 && stkTime s && seq == s.tu.seq) then s
  else
    match s.tu.t1, s.tu.t3 with
    | some t1, some t3 =>
      let asym := toSigned 32 (s.rd R.TU_STK_ASYM.ASYM [])
      let s := { s with tu := { s.tu with t1 := none, t3 := none } }
      let (off, dly, s) := engineFour s t1 ((s.tu.t2 : Int) - asym) ((t3 : Int) - asym) t4
      let (s, ok) := engineTake s off dly
      if ok then onOffset (s.wr R.TU_STK_LINK.DELAY [0] (dly.toNat / 256)) off else s
    | _, _ => s

/-- R96: one control word of 16 bytes. -/
def ctlWord (s : State) (j : Nat) (w : Bytes) : State :=
  let ts : Nat := tsMake (beAt w 4 6) (beAt w 10 4 % 2 ^ 30) (beAt w 14 2)
  match byteAt w 0 with
  | 1 => helloArrive s j (byteAt w 4) (byteAt w 5)
  | 2 => ackArrive s j (beAt w 2 2) (bit (byteAt w 4) 0)
  | 3 => creditArrive s j (byteAt w 4) (beAt w 8 4)
  | 4 => keepaliveArrive s j (beAt w 4 4)
  | 5 => timeArrive s j (beAt w 2 2) ts
  | 6 => timeRpt s j (beAt w 2 2) ts
  | 7 => stateMark s j (beAt w 4 4) (byteAt w 8)
  | 8 => stateAck s j (beAt w 4 4)
  | _ => stkCount s 2

/-- The words of a control unit, in order. -/
def ctlWords (s : State) (j : Nat) (n : Nat) (p : Bytes) : State :=
  match n with
  | 0 => s
  | n + 1 => ctlWords (ctlWord s j (slice p 0 16)) j n (p.drop 16)

/-- R95: entry DEST × 8 + TC of the stack delivery map: the queue, where VALID. -/
def dqmap (s : State) (i : Nat) : Option Nat :=
  let e := SMap.get 0 s.stk.dqmap i
  if bit e 31 then some (e % 65536) else none

/-- The packet of an admitted DATA unit (R39, R95, R543). -/
def unitPkt (s : State) (j : Nat) (u payload : Bytes) : Pkt × State :=
  let (raw, s) := rxStamp s (8 * linkOctet s j) true
  let hash := beAt u 4 4
  ({ data := payload, origin := byteAt u 14, inst := 0, tc := byteAt u 1 % 8, domain := beAt u 8 2 % 1024,
     profile := s.rd R.WIN_GLB_CFG.SAHROV_PROF [], pipe := hashPipe s hash, hash := hash, port := none,
     octet := some (linkOctet s j), ts := raw, raw := raw, fault := none, poison := bit (byteAt u 1) 3, pass2 := false, node := none, espSeq := 0, hop := some j, cth := false, tx := none }, s)

/-- R91, R95: an admitted DATA unit is delivered by its DEST. -/
def unitDeliver (s : State) (j : Nat) (u payload : Bytes) : State :=
  let dest := beAt u 10 2
  if dest = 0xFFFE then changeArrive s j payload
  else
    let (p, s) := unitPkt s j u payload
    if dest = 0xFFFF then toInternal s p
    else
      match dqmap s (dest * 8 + p.tc) with
      | some q =>
        if (queueProf s q).isNone then stkCount s 8
        else (toQueue s { pkt := p, slots := [], decl := none, actData := 0, exc := 0, tc := p.tc, edit := 0 } q false).1
      | none => stkCount s 8

/-- R93, R94: a DATA unit in order is admitted, acknowledged after each 64 KiB, and its class granted further credit. -/
def unitAdmit (s : State) (j : Nat) (u payload : Bytes) : State :=
  let l := stkLink s j
  let tc := byteAt u 1 % 8
  let g := SMap.set 0 l.granted tc ((SMap.get 0 l.granted tc + ceilDiv u.length 256) % 2 ^ 32)
  let n := l.admitted + payload.length
  let s := putLink s j { l with rxSeq := (l.rxSeq + 1) % 65536, nakFor := none, admitted := n, granted := g }
  let s := if n ≥ 65536 then sendAck s j false else s
  sendCredit (unitDeliver s j u payload) j tc

/-- R90: the STK_CNT index of a unit's fault: 0 HCHECK, 1 CRC-32, 2 a reserved value or a wrong length. A unit under 20 bytes
has no whole header and CRC: index 0. The indices of a LENGTH that disagrees and of a short unit are a DESIGN CHOICE: log entry
151. -/
def unitFault (u : Bytes) : Option Nat :=
  let n := u.length
  if byteAt u 15 ≠ crc8 (slice u 0 15) || n < 20 then some 0
  else if leAt u (n - 4) 4 ≠ crc32 (u.take (n - 4)) then some 1
  else
    let ty := byteAt u 0 % 16
    let len := beAt u 12 2
    let dest := beAt u 10 2
    let org := byteAt u 14
    if byteAt u 0 / 16 ≠ 1 || ty ≥ 2 || len + 20 ≠ n || (136 ≤ dest && dest ≤ 0xFFFD) || (136 ≤ org && org ≤ 254) then some 2
    else if ty = 0 then
      if len < 64 || len > 9216 then some 2 else none
    else if len % 16 ≠ 0 || len < 16 || len > 256 then some 2
    else none

/-- R88 to R95: a Sahrov unit arrives on the link toward STACK_ID `j`. A misdirected DATA unit does not advance SEQ: DESIGN
CHOICE, log entry 150. -/
def unitReceive (s : State) (j : Nat) (u : Bytes) : State :=
  if !linkHears s j then s
  else
    let data := byteAt u 0 % 16 = 0
    match unitFault u with
    | some k =>
      let s := stkCount s k
      if data && linkUp s j then sendNak s j else s
    | none =>
      let s := linkHeard s j
      let payload := (u.drop 16).take (u.length - 20)
      if !data then ctlWords s j (payload.length / 16) payload
      else if byteAt u 1 / 16 % 4 ≠ ownId s then stkCount s 4
      else if !linkUp s j then s
      else
        let l := stkLink s j
        let seq := beAt u 2 2
        if seq = l.rxSeq then unitAdmit s j u payload
        else if seqBefore seq l.rxSeq then s
        else sendNak s j

/-- R97: a KEEPALIVE word on every link that is heard, KA_PERIOD µs after the last ones at the earliest. A link that is not up
sends HELLO again. -/
def keepaliveTick (s : State) : State :=
  let s := clockTo s (s.stk.beatAt + max 1 (s.rd R.STK_CFG.KA_PERIOD []) * 10000)
  (List.range 4).foldl (fun s j =>
    if linkHears s j then
      let l := stkLink s j
      let s := if linkState s j = lkHello || linkState s j = lkLost then sendHello s j else s
      sendWord (putLink s j { l with beat := (l.beat + 1) % 2 ^ 32 }) j
        ([4, 0, 0, 0] ++ beBytes 4 l.beat ++ [byteOf (s.rd R.STK_STATUS.MASTER_LOST [])] ++ List.replicate 7 0)
    else s) { s with stk := { s.stk with beatAt := s.now } }

/-- R97: the peer on a link is lost LOSS_TIME × 100 µs after its last valid unit at the earliest. -/
def peerTimeout (s : State) (j : Nat) : State :=
  peerLoss (clockTo s ((stkLink s j).heardAt + max 1 (s.rd R.STK_CFG.LOSS_TIME []) * 1000000)) j

end Sys2Proof.Machine
end

