-- ==== Sys2Proof/Machine/CtrlOps.lean ====
section
/-! DEFINITION. The frame of a CTRL operation: its descriptor, its records in order, results written back, its completion
(R154, R155, R481, R482).
Log entries 40. -/

namespace Sys2Proof.Machine

open Sys2Proof

/-- Status codes of R463 and R327 that CTRL operations use. -/
def stLocalAccess : Nat := 0x10
def stLocalPoison : Nat := 0x11
def stTableFull : Nat := 0x40
def stExists : Nat := 0x41
def stNotFound : Nat := 0x42
def stNotMaster : Nat := 0x43
def stNoResource : Nat := 0x44
def stBusy : Nat := 0x45

/-- What one record comes to: applied, with bytes written back at an offset of the record, or a failing status. -/
inductive RecRes where
  | ok (s : State) (back : Option (Nat × Bytes))
  | fail (s : State) (status : Nat)

/-- The fields of a CTRL descriptor (R481). -/
def ctrlArg (d : Bytes) : Nat := leAt d 8 4
def ctrlAddr (d : Bytes) : Nat := leAt d 16 8
def ctrlLen (d : Bytes) : Nat := leAt d 24 4

/-- The completion of a CTRL descriptor (R481). -/
def ctrlEnd (s : State) (r k : Nat) (d : Bytes) (status applied : Nat) : State :=
  finishDesc s r k d status ([0, 0] ++ leBytes 2 applied)

/-- R155: records applied in order, up to the first that fails: the state, the records applied, the status. -/
def ctrlRecs (f : State → Bytes → RecRes) (r addr stride : Nat) (n : Nat) (s : State) (data : Bytes) (done : Nat) :
    State × Nat × Nat :=
  match n with
  | 0 => (s, done, stSuccess)
  | n + 1 =>
    match f s (slice data 0 stride) with
    | .fail s st => (s, done, st)
    | .ok s back =>
      let s := match back with
        | some (off, b) => ringWrite s r (addr + done * stride + off) b
        | none => s
      ctrlRecs f r addr stride n s (data.drop stride) (done + 1)

/-- R482: a record size rounded up to a multiple of 32 bytes. -/
def ctrlStride (size : Nat) : Nat := ceilDiv size 32 * 32

/-- A CTRL operation with records of `size` bytes: `early` names a status that ends it before any record is read. `x` is
what the read of the records brought. -/
def ctrlRun (s : State) (r op size : Nat) (x : RdRes) (early : State → Nat → Option Nat)
    (f : Nat → State → Bytes → RecRes) : State :=
  match headOp s r 5 op with
  | none => s
  | some (k, d) =>
    let arg := ctrlArg d
    let n := arg % 65536
    let stride := ctrlStride size
    if n = 0 then ctrlEnd s r k d stMalformed 0
    else
      match early s arg with
      | some st => ctrlEnd (if st = stNotMaster then stkCount s 7 else s) r k d st 0
      | none =>
        if ctrlLen d < n * stride then ctrlEnd s r k d stMalformed 0
        else
          let (go, s) := descRead s r [(ctrlAddr d, n * stride)] x
          if !go then s else
          match x with
          | .ok data =>
            let (s, done, st) := ctrlRecs (f arg) r (ctrlAddr d) stride n s data 0
            let s := if 0x30 ≤ op && op ≤ 0x35 && (st == stMalformed || st == stBusy) then s.inc R.TLY_CNT.COUNT [6] else s
            ctrlEnd (if st = stNotMaster then stkCount s 7 else s) r k d st done
          | .poison _ => ctrlEnd s r k d stLocalPoison 0
          | _ => ctrlEnd s r k d stLocalAccess 0

/-- A CTRL operation without records (R481, R482). -/
def ctrlPlain (s : State) (r op : Nat) (f : State → State) : State :=
  match headOp s r 5 op with
  | none => s
  | some (k, d) => ctrlEnd (f s) r k d stSuccess 0

def noEarly (_ : State) (_ : Nat) : Option Nat := none

/-- INDEX and object of an indexed record. -/
def recIndex (b : Bytes) : Nat := leAt b 0 4
def recObj (b : Bytes) (n : Nat) : Bytes := slice b 32 n

/-- An indexed record whose object replaces entry INDEX, below `lim`. -/
def recPut (lim : Nat) (ok : Bytes → Bool) (n : Nat) (put : State → Nat → Bytes → State) (s : State) (b : Bytes) : RecRes :=
  let v := recObj b n
  if recIndex b ≥ lim || !ok v then .fail s stMalformed else .ok (put s (recIndex b) v) none

end Sys2Proof.Machine
end

