-- ==== Sys2Proof/Machine/CarVerbs.lean ====
section
/-! DEFINITION. Carter's descriptors, regions, the on-die cache and the enable of the block (R297 to R333).
Log entries 57, 58, 59, 62, 63, 64, 66. -/

namespace Sys2Proof.Machine

open Sys2Proof

/-- R320: CONN, LENGTH, LADDR, RVA, RKEY, IMM, OPERAND1, OPERAND2, ARG8 of a descriptor. -/
def dConn (d : Bytes) : Nat := leAt d 8 3
def dLen (d : Bytes) : Nat := leAt d 12 4
def dAddr (d : Bytes) : Nat := leAt d 16 8
def dRva (d : Bytes) : Nat := leAt d 24 8
def dRkey (d : Bytes) : Nat := leAt d 32 4
def dArg (d : Bytes) : Nat := byteAt d 40

/-- R320, R321: whether a SEND-ring descriptor holds no reserved value (R21, R22). -/
def descOk (d : Bytes) : Bool :=
  match byteAt d 0 with
  | 7 => dArg d ≤ 1
  | 0x40 => dArg d ≤ 3 || dArg d = 7
  | 0x48 => 1 ≤ dRva d && dRva d ≤ 2 ^ 40
  | op => !(1 ≤ op && op ≤ 5) || dLen d ≤ 2 ^ 31

/-- R313, R331: a descriptor for a connection in EVICT_PENDING ends that. -/
def clearEvict (s : State) (n : Nat) : State :=
  match connGet s n with
  | some c => if c.evictPending then carCount (connPut s n { c with evictPending := false }) n 17 else s
  | none => s

/-- R298, R301, R320, R321: the head descriptor of a SEND ring where its opcode is `op`, checked; it ends here, or waits
(for FENCE, a fetch, or its function), or `go` carries it out. `any` admits every state of the connection. -/
def sendHead (s : State) (r op : Nat) (any : Bool) (go : State → Nat → Bytes → Nat → Option Conn → State) : State :=
  match headOp s r 2 op with
  | none => s
  | some (k, d) =>
    let n := dConn d
    if ringOwner s r || !fnLive s (ringFn s r).1 (ringFn s r).2 then s
    else if !descOk d then endDesc s r k d n stMalformed
    else if !s.flag R.CAR_CFG.EN [] then endDesc s r k d n csBadState
    else if bit (byteAt d 1) 0 && s.car.works.any (fun w => w.conn == n && (match w.src with
        | .ring t _ _ => t == r
        | .stg _ => false)) then s
    else
      match connGet s n with
      | none => if any then go s k d n none else endDesc s r k d n csBadState
      | some c =>
        if c.inst ≠ ringInst s r then endDesc s r k d n csLocalAccess
        else if any then go s k d n (some c)
        else
          match c.st with
          | .draining => endDesc s r k d n csFlushed
          | .error => endDesc s r k d n csFlushed
          | .active =>
            let s := clearEvict (connMod s n (fun c => { c with used := s.now })) n
            (match c.tier, connGet s n with
             | .onDie, some c => go s k d n (some c)
             | _, _ => wantContext s n)
          | _ => endDesc s r k d n csBadState

/-- A started descriptor leaves its ring and enters the works. -/
def startWork (s : State) (r k : Nat) (d : Bytes) (n op msg addr len : Nat) : State :=
  let s := popDesc s r k
  let w : Work := { src := .ring r k d, conn := n, op := op, msg := msg, addr := addr, len := len, last := none, got := 0, ended := none }
  putCar s { s.car with works := s.car.works ++ [w] }

/-- R253, R255: the packets of a WRITE, WRITE_IMM, SEND or SEND_IMM message whose source lies at `src`. -/
def msgSegs (c : Conn) (op rkey va imm src : Nat) (ackNow : Bool) (data : Bytes) : List Seg :=
  segments c.maxPay data (data.length + 1) 0 (fun first last off pay =>
    let e := if op ≤ 2 then beBytes 4 rkey ++ beBytes 4 0 ++ beBytes 8 (va + off) else beBytes 4 off ++ beBytes 4 0
    { op := op, first := first, last := last, ackReq := last && ackNow, msg := c.nextMsg,
      ext := if last && (op == 2 || op == 4) then e ++ beBytes 4 imm ++ beBytes 4 0 else e, pay := pay, src := src + off })

/-- What a source read gives: its bytes, or the status of its failure (R442). -/
def sourceBytes (x : RdRes) (len : Nat) : Except Nat Bytes :=
  if len = 0 then .ok []
  else
    match x with
    | .ok b => .ok (slice b 0 len)
    | .poison _ => .error csLocalPoison
    | _ => .error csLocalAccess

/-- WRITE, WRITE_IMM, SEND and SEND_IMM (R286, R320). -/
def doMsg (s : State) (r op : Nat) (x : RdRes) : State :=
  sendHead s r op false (fun s k d n c =>
    match c with
    | none => s
    | some c =>
      let (able, s) := descRead s r [(dAddr d, dLen d)] x
      if !able then s else
      let s := startWork s r k d n op c.nextMsg 0 (dLen d)
      let s := match sourceBytes x (dLen d) with
        | .ok b => pushMsg s n c (msgSegs c op (dRkey d) (dRva d) (leAt d 36 4) (dAddr d) (bit (byteAt d 1) 1) b)
        | .error e => connFail s n e
      ringSettle s r)

/-- READ (R321). -/
def doRead (s : State) (r : Nat) : State :=
  sendHead s r 5 false (fun s k d n c =>
    match c with
    | none => s
    | some c =>
      let s := startWork s r k d n 5 c.nextMsg (dAddr d) (dLen d)
      let g : Seg := { op := 5, first := true, last := true, ackReq := bit (byteAt d 1) 1, msg := c.nextMsg,
                       ext := beBytes 4 (dRkey d) ++ beBytes 4 0 ++ beBytes 8 (dRva d) ++ beBytes 4 (dLen d) ++ beBytes 4 0, pay := [] }
      ringSettle (pushMsg s n c [g]) r)

/-- ATOMIC (R321, R325). -/
def doAtomic (s : State) (r : Nat) : State :=
  sendHead s r 7 false (fun s k d n c =>
    match c with
    | none => s
    | some c =>
      let s := startWork s r k d n 7 c.nextMsg (dAddr d) 8
      let g : Seg := { op := 7, first := true, last := true, ackReq := bit (byteAt d 1) 1, msg := c.nextMsg,
                       ext := beBytes 4 (dRkey d) ++ [byteOf (dArg d), 0, 0, 0] ++ beBytes 8 (dRva d) ++ beBytes 8 (leAt d 48 8)
                         ++ beBytes 8 (if dArg d = 1 then leAt d 56 8 else 0), pay := [] }
      ringSettle (pushMsg s n c [g]) r)

/-- RECV (R320, R323): an entry is posted. -/
def doRecv (s : State) (r : Nat) : State :=
  match headOp s r 3 0x20 with
  | none => s
  | some (k, d) =>
    if dLen d > 2 ^ 31 then finishDesc s r k d stMalformed []
    else if !s.flag R.CAR_CFG.EN [] then finishDesc s r k d csBadState []
    else
      let s := popDesc s r k
      ringSettle (ringPut s r { ringGet s r with bufs := (ringGet s r).bufs ++ [(k, leAt d 4 4, dAddr d, dLen d)] }) r

/-- R299, R300: the lowest free number of slice `q`, where the slice has one and is powered. -/
def freeNumber (s : State) (q : Nat) : Option Nat :=
  if !domOn s (136 + q) then none
  else
    let i := (sliceConns s q).foldl (fun i e => if e.1 / 4 = i then i + 1 else i) 0
    if i < 4194304 then some (q + 4 * i) else none

/-- The number of free numbers of a slice. -/
def freeCount (s : State) (q : Nat) : Nat := if domOn s (136 + q) then 4194304 - (sliceConns s q).length else 0

/-- A new connection number (R301). -/
def connNew (inst dom : Nat) (host : Bool) (now : Nat) : Conn :=
  { st := .allocated, inst := inst, dom := dom, host := host, tier := .home, used := now, evictPending := false, closeDue := false,
    peer := 0, epoch := 0, responder := false, path := 0, recvRing := 0, homeAddr := 0, maxPay := 4096, long := false,
    winLog := 12, remote := true, enc := false, keepLog := 6, pin := false, creditWin := 1, ackEvery := 1, ackDelay := 1,
    reorder := 1, rtoInit := 0, rtoMin := 0, rtoMax := 0, retryMax := 1, rnrDelay := 0, rnrMax := 0, txSlot := 0, rxSlot := 0,
    salt := [], keepArea := none, winArea := none, ctxArea := none, nextPsn := 0, una := 0, cposSent := 0, limit := 0,
    nextMsg := 0, txCount := 0, sendCseq := 0, backoff := 0, expiries := 0, rptFor := none, segs := [], recs := [], c := 0,
    marks := [], high := 0, granted := 0, lastLimit := 0, cseqIn := none, retract := none, unacked := 0, gapTold := [],
    echo := none, credited := false, dupAck := none, errNak := none, binds := [], srtt := none, rttvar := 0, rto := 0,
    errCode := 0, errMsg := 0 }

/-- R297, R303, R307: where the directory entry of a number lies in the model's HBM. -/
def dirAddr (s : State) (n : Nat) : Nat := hbmAddr (n % 4) (s.rd R.CAR_SLICE_DIR.DIR_BASE [n % 4] * 2 ^ 20 + 16 * (n / 4))

/-- A number's directory entry written: its layout is internal, so its bytes are free. -/
def dirWrite (s : State) (n : Nat) : State :=
  let (b, s) := s.freeBytes 16
  (putCar s { s.car with dir := SMap.ins s.car.dir n b }).hbmWrite (dirAddr s n) b

/-- R47: what the directory says of a number: `v`, or word `i` of bytes that another use of them has changed. -/
def dirSays (s : State) (n i m v : Nat) : Nat :=
  match SMap.find? s.car.dir n with
  | none => v
  | some b =>
    let h := s.hbmRead (dirAddr s n) 16
    if h = b then v else Config.homeWord h i % m

/-- R303: the EPOCH of a number's last CONN_CONNECT. -/
def dirEpoch (s : State) (n : Nat) : Option Nat := (SMap.find? s.car.epochs n).map (dirSays s n 0 256)

/-- R307: the seal generation of a number. -/
def dirGen (s : State) (n : Nat) : Nat := dirSays s n 1 (2 ^ 32) (SMap.get 0 s.car.seals n)

/-- CONN_ALLOC (R299 to R301, R303). -/
def doAlloc (s : State) (r : Nat) : State :=
  match headOp s r 2 0x40 with
  | none => s
  | some (k, d) =>
    if ringOwner s r || !fnLive s (ringFn s r).1 (ringFn s r).2 then s
    else if !descOk d then finishDesc s r k d stMalformed []
    else if !s.flag R.CAR_CFG.EN [] then finishDesc s r k d csBadState []
    else
      let q := if dArg d = 7 then
          ([1, 2, 3].foldl (fun b i => if freeCount s i > freeCount s b then i else b) 0) else dArg d
      let host := bit (byteAt d 41) 0
      let homed := (s.car.conns.filter (fun e => !e.2.host)).length
      match freeNumber s q with
      | none => finishDesc s r k d csExhausted []
      | some n =>
        if !host && homed ≥ 4194304 then finishDesc s r k d csExhausted []
        else
          let (hint, s) := match dirEpoch s n with
            | some e => ((e + 1) % 256, s)
            | none => s.freeBits 8
          let s := connPut s n (connNew (ringInst s r) (ringDomain s r) host s.now)
          finishDesc s r k d stSuccess (carCpl none n hint 0 0 0)

/-- R293, R322: whether a parameter block is in range. -/
def paramsOk (b : Bytes) (host : Bool) : Bool :=
  let wl := byteAt b 27 % 32
  let keep := byteAt b 29 % 32
  let long := bit (byteAt b 26) 0
  let us (o lo hi : Nat) : Bool := decide (lo ≤ leAt b o 4) && decide (leAt b o 4 ≤ hi)
  (if long then decide (13 ≤ wl) && decide (wl ≤ 22) else decide (6 ≤ wl) && decide (wl ≤ 12))
    && decide (6 ≤ keep) && decide (keep ≤ 22) && decide (keep ≤ wl)
    && byteAt b 30 ≠ 0 && byteAt b 31 ≠ 0 && leAt b 32 4 < 2 ^ 31 && leAt b 36 4 < 2 ^ 31 && leAt b 36 4 ≠ 0
    && leAt b 40 2 % 1024 ≠ 0 && byteAt b 42 % 16 ≠ 0
    && us 44 10 4000000 && us 48 10 4000000 && us 52 10 4000000 && decide (leAt b 48 4 ≤ leAt b 52 4) && us 56 10 100000
    && (!host || decide (leAt b 64 8 % 4096 = 0))

/-- R307: the seal nonce of a connection, which is also its additional data. -/
def sealNonce (n gen : Nat) : Bytes := leBytes 3 n ++ [0] ++ leBytes 4 gen ++ leBytes 4 0

/-- R306, R307: the context of a host-homed connection written to its home under the next generation; none where the
generations are used up. -/
def sealOut (s : State) (n : Nat) (c : Conn) : Option State :=
  let g := dirGen s n + 1
  if g ≥ 0xFFFFFFFF then none
  else
    let size := 256 + winBlock c.long c.winLog
    let (h, s) := s.freeBytes 256
    let pt := h ++ (if c.long then [] else blockBytes c)
    let (ct, tag) := gcmEnc (SMap.get [] s.lck.intKey (n % 4)) (sealNonce n g) (sealNonce n g) pt
    let img := ct ++ tag ++ List.replicate (4096 * ceilDiv (size + 16) 4096 - (size + 16)) 0
    some (instWrite (dirWrite (putCar s { s.car with seals := SMap.ins s.car.seals n g }) n) c.inst c.homeAddr img false)

/-- R307: whether an image read from a host home verifies under the generation of the directory. -/
def sealIn (s : State) (n : Nat) (c : Conn) (img : Bytes) : Bool :=
  let g := dirGen s n
  let size := 256 + winBlock c.long c.winLog
  (gcmDec (SMap.get [] s.lck.intKey (n % 4)) (sealNonce n g) (sealNonce n g) (slice img 0 size) (slice img size 16)).2

/-- R305: where the HBM home of a connection lies in the model's HBM, and its length; none for a host home. -/
def homeAt (n : Nat) (c : Conn) : Option (Nat × Nat) :=
  c.ctxArea.map (fun a => (hbmAddr (n % 4) (a.1 * 2 ^ 20), 256 + winBlock c.long c.winLog))

/-- R304, R311: the context of an HBM-homed connection written to its home: a header of internal layout, whose bytes are free,
and the window block. -/
def homeOut (s : State) (n : Nat) (c : Conn) : State :=
  match homeAt n c with
  | none => s
  | some (a, _) =>
    let (h, s) := s.freeBytes 256
    connMod (s.hbmWrite a (h ++ (if c.long then [] else blockBytes c))) n (fun c => { c with img := h })

/-- R47, R304: the context that its HBM home holds; a header that another use of its bytes has changed says what it says. -/
def homeIn (s : State) (n : Nat) (c : Conn) : Conn :=
  match homeAt n c with
  | none => c
  | some (a, m) =>
    let b := s.hbmRead a m
    let w (i n : Nat) : Nat := Config.homeWord (b.take 256) i % 2 ^ n
    let c := if b.take 256 = c.img then c else
      { c with inst := w 0 14, dom := w 1 10, peer := w 2 24, epoch := w 3 8, responder := bit (w 4 1) 0, path := w 5 14, recvRing := w 6 18,
               enc := bit (w 7 1) 0, txSlot := w 8 20, rxSlot := w 9 20, salt := beBytes 4 (w 10 32), nextPsn := w 11 48, una := w 12 48,
               cposSent := w 13 32, limit := w 14 32, nextMsg := w 15 32, txCount := w 16 32, sendCseq := w 17 48, c := w 18 48,
               high := w 19 32, granted := w 20 32, cseqIn := some (w 21 48), backoff := w 22 8, rto := w 23 32 }
    if c.long then c else blockLoad c (b.drop 256)

/-- R305: the context of a connection with the parameters of a block, before its areas are found. -/
def connFrom (c : Conn) (b : Bytes) (ring : Nat) : Conn :=
  let fl := byteAt b 26
  { c with
    peer := leAt b 0 3, epoch := byteAt b 3, nextPsn := leAt b 4 4, una := leAt b 4 4, c := leAt b 8 4,
    salt := (slice b 12 4).reverse, txSlot := leAt b 16 4 % 2 ^ 20, rxSlot := leAt b 20 4 % 2 ^ 20, path := leAt b 24 2 % 16384, long := bit fl 0,
    remote := bit fl 1, enc := bit fl 2, responder := bit fl 3, pin := bit fl 4, winLog := byteAt b 27 % 32,
    maxPay := 1024 * 2 ^ (byteAt b 28 % 4), keepLog := byteAt b 29 % 32, ackEvery := byteAt b 30, reorder := byteAt b 31,
    limit := leAt b 32 4, granted := leAt b 32 4, lastLimit := leAt b 32 4, creditWin := leAt b 36 4, ackDelay := leAt b 40 2 % 1024,
    retryMax := byteAt b 42 % 16, rnrMax := byteAt b 42 / 16 % 8, rtoInit := leAt b 44 4 * 1000, rtoMin := leAt b 48 4 * 1000,
    rtoMax := leAt b 52 4 * 1000, rnrDelay := leAt b 56 4 * 1000, recvRing := ring, homeAddr := leAt b 64 8,
    rto := leAt b 44 4 * 1000 }

/-- R305: the areas of a connection; none where one of them finds no room. -/
def connAreas (s : State) (n : Nat) (c : Conn) : Option Conn :=
  let q := n % 4
  let keep := mib (2 ^ c.keepLog * keepUnits c.maxPay * 256)
  let win := if c.long then mib (33 * 2 ^ c.winLog / 8) else 0
  let ctx := if c.host then 0 else mib (256 + winBlock c.long c.winLog)
  let fit (base size m : Nat) (f : Conn → Option (Nat × Nat)) : Option (Option (Nat × Nat)) :=
    if m = 0 then some none else (areaFit base size m (areasOf s q f)).map (fun a => some (a, m))
  match fit (s.rd R.CAR_SLICE_KEEP.KEEP_BASE [q]) (s.rd R.CAR_SLICE_KEEP.KEEP_SIZE [q]) keep (·.keepArea),
        fit (s.rd R.CAR_SLICE_WIN.WIN_BASE [q]) (s.rd R.CAR_SLICE_WIN.WIN_SIZE [q]) win (·.winArea),
        fit (s.rd R.CAR_SLICE_CTX.CTX_BASE [q]) (s.rd R.CAR_SLICE_CTX.CTX_SIZE [q]) ctx (·.ctxArea) with
  | some k, some w, some x => some { c with keepArea := k, winArea := w, ctxArea := x }
  | _, _, _ => none

/-- A connection becomes ACTIVE: its epoch is remembered, its window is clear, it is counted, its context is built in its home,
and it gives credit (R267, R301, R303). -/
def connOpen (s : State) (n : Nat) (c : Conn) : State :=
  let s := dirWrite (putCar s { s.car with epochs := SMap.ins s.car.epochs n c.epoch }) n
  let s := match winAddr n c with
    | some (a, m) => s.hbmWrite a (List.replicate m 0)
    | none => s
  let s := carCount (connPut s n c) n 23
  let s := if c.host then (sealOut s n c).getD (connFail s n stNonceExhausted) else homeOut s n c
  sendCredit' s n

/-- The connection of CONN_CONNECT, once its block has been read (R301, R303, R322). -/
def connect (s : State) (r k : Nat) (d : Bytes) (n : Nat) (c : Conn) (b : Bytes) : State :=
  let stop (st : Nat) : State := endDesc s r k d n st
  let ring := (findRing s false c.inst (leAt b 60 2)).bind (fun t => if ringType s t = 3 then some t else none)
  let t := pathOf s (leAt b 24 2)
  let enc := bit (byteAt b 26) 2
  if !paramsOk b c.host || ring.isNone then stop stMalformed
  else if dirEpoch s n = some (byteAt b 3) then stop csEpochReused
  else if enc && !(inRange s c.dom (leAt b 16 4) && inRange s c.dom (leAt b 20 4)) then stop stKeyFault
  else if !pathValid t || leAt t 2 2 % 1024 ≠ c.dom then stop csLocalAccess
  else if bit (byteAt b 26) 4 && pinnedConns s (n % 4) ≥ s.rd R.CAR_SLICE_DIR.PIN_MAX [n % 4] then stop csExhausted
  else
    match connAreas s n (connFrom c b (ring.getD 0)) with
    | none => stop csExhausted
    | some c =>
      endDesc (connOpen s n { c with st := .active, used := s.now }) r k d n stSuccess

/-- CONN_CONNECT (R322): `x` is what the read of the parameter block brought. -/
def doConnect (s : State) (r : Nat) (x : RdRes) : State :=
  sendHead s r 0x41 true (fun s k d n c =>
    match c with
    | none => endDesc s r k d n csBadState
    | some c =>
      match c.st with
      | .draining => endDesc s r k d n csFlushed
      | .error => endDesc s r k d n csFlushed
      | .allocated =>
        let (able, s) := descRead s r [(dAddr d, 128)] x
        if !able then s else
        (match x with
         | .ok b => connect s r k d n c (slice b 0 128)
         | .poison _ => endDesc s r k d n csLocalPoison
         | _ => endDesc s r k d n csLocalAccess)
      | _ => endDesc s r k d n csBadState)

/-- A connection number becomes FREE (R301). -/
def connFree (s : State) (n : Nat) : State :=
  modWorks (putCar s { s.car with conns := SMap.del s.car.conns n }) (fun w =>
    if w.conn == n && w.op == 0x42 && w.ended.isNone then { w with ended := some (stSuccess, 0) } else w)

/-- CONN_DESTROY (R301, R302). -/
def connDestroyOp (s : State) (r : Nat) : State :=
  sendHead s r 0x42 true (fun s k d n c =>
    match c with
    | none => endDesc s r k d n csBadState
    | some c =>
      let force := bit (byteAt d 1) 2
      match c.st with
      | .closing => endDesc s r k d n csBadState
      | .allocated => ringSettle (connFree (startWork s r k d n 0x42 0 0 0) n) r
      | .draining =>
        if force then ringSettle (closeConn (startWork s r k d n 0x42 0 0 0) n true) r else endDesc s r k d n csFlushed
      | .error => ringSettle (closeConn (startWork s r k d n 0x42 0 0 0) n true) r
      | .active =>
        let s := startWork s r k d n 0x42 0 0 0
        if force then ringSettle (closeConn s n true) r
        else
          let s := wantContext (clearEvict s n) n
          ringSettle (drainCheck (connLost (connMod s n (fun c => { c with st := .draining })) n) n) r)

/-- The state code of R330. -/
def connCode (c : Conn) : Nat :=
  match c.st with
  | .allocated => 1 | .active => 2 | .draining => 3 | .error => 4 | .closing => 5

/-- R330: the status image of a connection. -/
def connImage (c : Option Conn) : Bytes :=
  match c with
  | none => beBytes 64 0
  | some c =>
    let tier := if cachedConn c && c.tier ≠ .fetching then 0 else if c.host then 2 else 1
    let kept := (c.recs.filter (·.kept)).length
    [byteOf (connCode c), byteOf c.errCode, byteOf tier, byteOf (b2n c.evictPending)] ++ leBytes 4 c.errMsg ++ leBytes 4 c.nextPsn
      ++ leBytes 4 c.una ++ leBytes 4 c.c ++ leBytes 4 c.limit ++ leBytes 4 (c.srtt.getD 0) ++ leBytes 4 c.rto ++ leBytes 4 kept
      ++ beBytes 28 0

/-- CONN_QUERY (R330). -/
def doConnQuery (s : State) (r : Nat) : State :=
  sendHead s r 0x43 true (fun s k d n c =>
    let waits : Bool := match c with
      | some c => (c.st == .active || c.st == .draining || c.st == .error) && (c.tier ≠ .onDie && c.tier ≠ .stub)
      | none => false
    if waits then wantContext (clearEvict s n) n
    else endDesc (ringWrite s r (dAddr d) (connImage c)) r k d n stSuccess)

/-- A region removed (R319). -/
def regionDrop (s : State) (i : Nat) : State :=
  putCar s { s.car with regions := SMap.del s.car.regions i, freed := s.car.freed ++ [i] }

/-- MR_REG (R299, R317). -/
def doMrReg (s : State) (r : Nat) : State :=
  match headOp s r 2 0x48 with
  | none => s
  | some (k, d) =>
    if ringOwner s r || !fnLive s (ringFn s r).1 (ringFn s r).2 then s
    else if !descOk d then finishDesc s r k d stMalformed []
    else if !s.flag R.CAR_CFG.EN [] then finishDesc s r k d csBadState []
    else if bit (dArg d) 3 && ((connGet s (dConn d)).map (fun c => !(c.inst == ringInst s r))).getD false then
      finishDesc s r k d csLocalAccess (carCpl none (dConn d) 0 0 0 0)
    else
      let pick : Option (Nat × Car) :=
        if s.car.fresh < 1048576 then some (s.car.fresh, { s.car with fresh := s.car.fresh + 1 })
        else match s.car.freed with
          | i :: t => some (i, { s.car with freed := t })
          | [] => none
      match pick with
      | none => finishDesc s r k d csExhausted (carCpl none (dConn d) 0 0 0 0)
      | some (i, car) =>
        let g := (SMap.get 0 car.gens i + 1) % 4096
        let (b, s) := s.freeBytes 64
        let m : MemRegion := { inst := ringInst s r, dom := ringDomain s r, base := dAddr d, len := dRva d, acc := dArg d, bind := dConn d,
                               img := b }
        let s := (s.hbmWrite (rgnAddr s i) b)
        let s := putCar s { car with regions := SMap.ins car.regions i m, gens := SMap.set 0 car.gens i g }
        finishDesc s r k d stSuccess (carCpl none (dConn d) 0 0 0 (i * 4096 + g))

/-- MR_DEREG (R319). -/
def doMrDereg (s : State) (r : Nat) : State :=
  match headOp s r 2 0x49 with
  | none => s
  | some (k, d) =>
    if ringOwner s r || !fnLive s (ringFn s r).1 (ringFn s r).2 then s
    else if !descOk d then finishDesc s r k d stMalformed []
    else if !s.flag R.CAR_CFG.EN [] then finishDesc s r k d csBadState []
    else
      let i := dRkey d / 4096
      match SMap.find? s.car.regions i with
      | some m =>
        if m.inst = ringInst s r && SMap.get 0 s.car.gens i = dRkey d % 4096 then finishDesc (regionDrop s i) r k d stSuccess []
        else finishDesc s r k d csLocalAccess []
      | none => finishDesc s r k d csLocalAccess []

/-! ## The cache -/

/-- R310: whether nothing but outstanding credit could keep a connection on-die. -/
def idleConn (s : State) (n : Nat) (c : Conn) : Bool :=
  c.tier == .onDie && !c.pin && c.st ≠ .closing && c.segs.isEmpty && c.owed == [] && !s.car.works.any (fun w => w.conn == n && liveWork w)
    && !s.car.parked.any (fun p => p.conn == n) && !s.win.carter.any (fun p => ((cthParse p.data).map (·.dst)).getD 0 == n)

/-- The outstanding credit of a connection (R310). -/
def outCredit (c : Conn) : Nat := if passes c.granted c.high then (c.granted + 2 ^ 32 - c.high) % 2 ^ 32 else 0

/-- R310: the test on outstanding credit. -/
def creditFits (s : State) (c : Conn) : Bool :=
  let o := pathOctet (pathOf s c.path)
  outCredit c = 0 || (outCredit c ≤ freeResv s o && decide ((ledgerOf s o).length < 8192))

/-- The least recently used of some connections. -/
def lru (l : List (Nat × Conn)) : Option (Nat × Conn) :=
  l.foldl (fun (b : Option (Nat × Conn)) e => match b with
    | none => some e
    | some x => if e.2.used < x.2.used then some e else b) none

/-- R311: a connection recorded in its ledger and written back. -/
def evict (s : State) (n : Nat) (c : Conn) : State :=
  let o := pathOctet (pathOf s c.path)
  let go (s : State) : State :=
    let s := if outCredit c = 0 then s else
      putCar s { s.car with ledger := s.car.ledger ++ [{ conn := n, octet := o, high := c.high, limit := c.granted, left := outCredit c }] }
    carCount (connMod s n (fun c => { c with tier := .writing, evictPending := false })) n 15
  if c.host then
    match instReach s c.inst true [(c.homeAddr, 256 + winBlock c.long c.winLog + 16)] with
    | (false, t) => if instOk s c.inst then t else (sealOut s n c).elim (connFail s n stNonceExhausted) go
    | (true, s) => (sealOut s n c).elim (connFail s n stNonceExhausted) go
  else go (homeOut s n c)

/-- R313: a connection of slice `q` that only its outstanding credit keeps, other than `no`, retracts its credit. -/
def retractOne (s : State) (q : Nat) (no : Option Nat) : State :=
  let idle := (sliceConns s q).filter (fun e => idleConn s e.1 e.2 && some e.1 ≠ no)
  if ((sliceConns s q).filter (fun e => e.2.evictPending)).length ≥ 4 then s
  else
    match lru (idle.filter (fun e => !e.2.evictPending && (e.2.st == .active || e.2.st == .draining) && laneOk s e.1 e.2)) with
    | none => s
    | some (n, _) =>
      let s := connMod s n (fun c => { c with evictPending := true, retract := some (c.sendCseq, c.high), evictAt := s.now })
      carCount (sendCtl s n 0x12 (fun c => creditExt true c.high)) n 16

/-- R309 to R313: slice `q` makes room for the fetch that waits first. -/
def makeRoom (s : State) (q : Nat) : State :=
  let s := pumpFetches s
  if !s.car.fetchq.any (fun n => n % 4 == q) || fetchesOut s q ≥ 64 then s
  else
    match lru ((sliceConns s q).filter (fun e => idleConn s e.1 e.2 && creditFits s e.2)) with
    | some (n, _) => (connGet s n).elim s (evict s n)
    | none => retractOne s q none

/-- R311, R315: a write-back ends. -/
def writebackDone (s : State) (n : Nat) (ok : Bool) : State :=
  match connGet s n with
  | none => s
  | some c =>
    if c.tier ≠ .writing then s
    else if c.closeDue then startClosing (connPut s n { c with tier := .home }) n true
    else if ok then
      let s := connPut s n { c with tier := .home }
      let s := if s.car.parked.any (fun p => p.conn == n) || c.wanted || c.owed ≠ [] then
          wantContext (connMod s n (fun c => { c with wanted := false })) n
        else s
      pumpFetches s
    else connFail (dropLedger (carCount (connPut s n { c with tier := .onDie }) n 14) n) n csContextFault

/-- R309, R312, R315: a fetch ends; `x` is what the read of the home brought. -/
def fetchDone (s : State) (n : Nat) (x : RdRes) : State :=
  match connGet s n with
  | none => s
  | some c =>
    if c.tier ≠ .fetching then s
    else if c.closeDue then startClosing (connPut s n { c with tier := .home }) n true
    else
      let (able, s) := if c.host && instOk s c.inst then
          instFetch s c.inst [(c.homeAddr, 4096 * ceilDiv (272 + winBlock c.long c.winLog) 4096)] x
        else (true, s)
      if !able then s else
      let bad := match homeAt n c with
        | some (a, m) => poisonedRange s a m
        | none => false
      let good := match x with
        | .ok b => if c.host then instOk s c.inst && sealIn s n c b else !bad
        | _ => false
      if good then
        let c := homeIn s n c
        let (s, l) := unpark (dropLedger (payOwed (connPut s n { c with tier := .onDie, used := s.now }) n) n) n
        pumpFetches (putWin s { s.win with carter := l ++ s.win.carter })
      else
        let s := match homeAt n c with
          | some (a, _) => hbmFail s a
          | none => s
        let s := carCount (connPut s n { c with tier := .stub }) n 14
        let s := connError s n csContextFault false flushBind
        pumpFetches (dropParked (dropLedger s n) n)

/-- R313: EVICT_PENDING ends where R310 still does not hold, and another connection is chosen for a fetch that waits. -/
def evictExpire (s : State) (n : Nat) : State :=
  match connGet s n with
  | none => s
  | some c =>
    if c.evictPending && !(idleConn s n c && creditFits s c) then
      let s := clearEvict (clockTo s (c.evictAt + 2 * c.rto * 10)) n
      if s.car.fetchq.any (fun m => m % 4 == n % 4) then retractOne s (n % 4) (some n) else s
    else s

/-- R302: the release of a CLOSING connection completes. -/
def closingDone (s : State) (n : Nat) : State :=
  match connGet s n with
  | none => s
  | some c => if c.st == .closing then connFree s n else s

/-- R301, R319: what a reset or destruction of an instance does to its connections and regions. -/
def carCloseInst (s : State) (i : Nat) : State :=
  let s := (s.car.conns.filter (fun e => e.2.inst == i)).foldl (fun s e =>
    match e.2.st with
    | .allocated => connFree s e.1
    | .closing => s
    | _ => closeConn s e.1 false) s
  (s.car.regions.filter (fun e => e.2.inst == i)).foldl (fun s e => regionDrop s e.1) s

/-! ## The enable -/

/-- R333: the areas of stack `q`: first MiB and how many. -/
def carAreas (s : State) (q : Nat) : List (Nat × Nat) :=
  [(s.rd R.CAR_SLICE_CTX.CTX_BASE [q], s.rd R.CAR_SLICE_CTX.CTX_SIZE [q]),
   (s.rd R.CAR_SLICE_WIN.WIN_BASE [q], s.rd R.CAR_SLICE_WIN.WIN_SIZE [q]),
   (s.rd R.CAR_SLICE_KEEP.KEEP_BASE [q], s.rd R.CAR_SLICE_KEEP.KEEP_SIZE [q]),
   (s.rd R.CAR_SLICE_DIR.DIR_BASE [q], 64)]
    ++ (if s.rd R.CAR_RGN.STACK [] = q then [(s.rd R.CAR_RGN.BASE [], 64)] else [])

/-- Whether two of some areas overlap. -/
def anyOverlap (l : List (Nat × Nat)) : Bool :=
  match l with
  | [] => false
  | a :: r => r.any (fun b => overlaps a.1 a.2 b.1 b.2) || anyOverlap r

/-- A refused enable (R332). -/
def carRefuse (s : State) (code q : Nat) : State :=
  ((s.wr R.CAR_STATUS.CFG_ERR [] 1).wr R.CAR_STATUS.ERR_CODE [] code).wr R.CAR_STATUS.ERR_SLICE [] q

/-- R333: EN of CAR_CFG written. -/
def carEnable (s : State) (en : Bool) : State :=
  if en then
    if s.flag R.CAR_CFG.EN [] then s
    else
      match (List.range 4).find? (fun q => anyOverlap (carAreas s q)) with
      | some q => carRefuse s 1 q
      | none =>
        match (List.range 4).find? (fun q => (carAreas s q).any (fun a => a.1 + a.2 > 49152)) with
        | some q => carRefuse s 2 q
        | none => s.wr R.CAR_CFG.EN [] 1
  else
    match s.car.conns with
    | (n, _) :: _ => if s.flag R.CAR_CFG.EN [] then carRefuse s 3 (n % 4) else s
    | [] => s.wr R.CAR_CFG.EN [] 0

/-- R316: whether a path template is well formed. -/
def pathOk (t : Bytes) : Bool := 42 ≤ byteAt t 1 && byteAt t 1 ≤ 136

/-- PATH_WRITE (R316). -/
def pathWrite (s : State) (r : Nat) (x : RdRes) : State :=
  ctrlRun s r 0x40 288 x noEarly (fun _ s b =>
    recPut 16384 pathOk 256 (fun s i t => putCar s { s.car with paths := SMap.set [] s.car.paths i t }) s b)

/-! ## STG's requests -/

/-- R403: STG's WRITE on a connection, or its READ into the model's HBM address `addr`; false where the connection does
not take it. -/
def stgRequest (s : State) (n tag rkey va addr len : Nat) (data : Option Bytes) : Bool × State :=
  match connGet s n with
  | none => (false, s)
  | some c =>
    if c.st ≠ .active then (false, s)
    else
      let s := clearEvict (wantContext s n) n
      match connGet s n with
      | none => (false, s)
      | some c =>
        let op := if data.isSome then 1 else 5
        let w : Work := { src := .stg tag, conn := n, op := op, msg := c.nextMsg, addr := addr, len := len, last := none, got := 0,
                          ended := none }
        let s := putCar s { s.car with works := s.car.works ++ [w] }
        let segs := match data with
          | some b => msgSegs c 1 rkey va 0 0 false b
          | none => [{ op := 5, first := true, last := true, ackReq := false, msg := c.nextMsg,
                       ext := beBytes 4 rkey ++ beBytes 4 0 ++ beBytes 8 va ++ beBytes 4 len ++ beBytes 4 0, pay := [] }]
        (true, pushMsg s n c segs)

end Sys2Proof.Machine
end

