-- ==== Sys2Proof/Machine/StgOps.lean ====
section
/-! DEFINITION. Root ports: configuration space, slot machine, drive commands, errors and containment (R384 to R394, R410).
The layout of the configuration space is PCI Express Base 5.0's (PRESUMED).
Log entries 6, 16, 71, 72, 73. -/

namespace Sys2Proof.Machine

open Sys2Proof

def rpGet (s : State) (n : Nat) : Rp := SMap.get Rp.reset s.stg.ports n
def rpPut (s : State) (n : Nat) (p : Rp) : State := putStg s { s.stg with ports := SMap.set Rp.reset s.stg.ports n p }
def rpMod (s : State) (n : Nat) (f : Rp → Rp) : State := rpPut s n (f (rpGet s n))
def rpCount (s : State) (n k : Nat) : State := s.inc R.STG_RP_CNT.COUNT [n, k]

/-- STATE codes of R414. -/
def rpSt (s : State) (n : Nat) : Nat := s.rd R.STG_RP_STATUS.STATE [n]
def rsOff : Nat := 0
def rsPowering : Nat := 1
def rsTraining : Nat := 2
def rsInit : Nat := 3
def rsOnline : Nat := 4
def rsQuiescing : Nat := 5
def rsSurprise : Nat := 6
def rsFaulted : Nat := 7
def rsRetired : Nat := 8

/-! ## Configuration space -/

/-- The reset value of a configuration doubleword of root port `n` (R384, R386, R391). -/
def rpCfgReset (n dw : Nat) : Nat :=
  match dw with
  | 0 => 0xAC4E + Config.rpDeviceId % 2 ^ 16 * 2 ^ 16
  | 1 => 2 ^ 20
  | 2 => 0x06040000
  | 3 => 0x00010000
  | 13 => 0x40
  | 16 => 0x01 + 0x6000 + 3 * 2 ^ 16
  | 17 => 8
  | 24 => 0x10 + 0x0142 * 2 ^ 16
  | 25 => 2 + 2 ^ 5 + 2 ^ 15
  | 26 => 2 ^ 4 + 2 ^ 11 + 2 * 2 ^ 12
  | 27 => 5 + 4 * 2 ^ 4 + 2 * 2 ^ 10 + 2 ^ 19 + 2 ^ 20 + 2 ^ 22 + n * 2 ^ 24
  | 29 => 2 ^ 0 + 2 ^ 1 + 2 ^ 3 + 2 ^ 4 + 2 ^ 5 + 2 ^ 6 + 250 * 2 ^ 7 + 1 * 2 ^ 15 + 2 ^ 18 + n * 2 ^ 19
  | 30 => 0x07C0
  | 33 => 0x3 + 2 ^ 16 + 2 ^ 17
  | 35 => 0x3E
  | 36 => 5
  | 64 => 0x0001 + 2 * 2 ^ 16 + 0x148 * 2 ^ 20
  | 66 => 0x400000
  | 67 => 0x462030
  | 69 => 0xE000
  | 70 => 2 ^ 5 + 2 ^ 7
  | 82 => 0x001D + 2 ^ 16 + 0x198 * 2 ^ 20
  | 83 => 2 ^ 5 + 4 * 2 ^ 8 + 2 * 2 ^ 16
  | 86 => 0x00070707
  | 102 => 0x001E + 2 ^ 16
  | 103 => 0x1F
  | _ => 0

/-- The bits that a write sets. -/
def rpRwMask (dw : Nat) : Nat :=
  match dw with
  | 1 => 0x0547
  | 3 => 0xFF
  | 6 => 0x00FFFFFF
  | 7 => 0x0000F0F0
  | 8 => 0xFFF0FFF0
  | 9 => 0xFFF0FFF0
  | 10 => 0xFFFFFFFF
  | 11 => 0xFFFFFFFF
  | 15 => 0x005300FF
  | 17 => 3
  | 26 => 0x713F
  | 28 => 0x0DFB
  | 30 => 0x17FF
  | 31 => 0x1F
  | 34 => 0x100F
  | 36 => 0xFFF
  | 66 => 0x03FFF030
  | 67 => 0x03FFF030
  | 69 => 0xF1C1
  | 70 => 0x140
  | 75 => 7
  | 83 => 0x001F0000
  | 86 => 0x00070707
  | 87 => 0x00070707
  | 88 => 0x00070707
  | 89 => 0x00070707
  | 104 => 0xE3FFFF0F
  | 105 => 0xFB
  | _ => 0

/-- The bits that a write of 1 clears. -/
def rpW1cMask (dw : Nat) : Nat :=
  match dw with
  | 1 => 0xF9000000
  | 26 => 0x000F0000
  | 28 => 0xC0000000
  | 30 => 0x011F0000
  | 32 => 0x00010000
  | 65 => 0x03FFF030
  | 68 => 0xF1C1
  | 76 => 0x7F
  | 84 => 0x8
  | 85 => 0x00070707
  | _ => 0

def rpCfgGet (s : State) (n dw : Nat) : Nat := SMap.get (rpCfgReset n dw) (rpGet s n).cfg dw
def rpCfgPut (s : State) (n dw v : Nat) : State :=
  rpMod s n (fun p => { p with cfg := SMap.set (rpCfgReset n dw) p.cfg dw (v % 2 ^ 32) })
def rpCfgBit (s : State) (n dw b : Nat) (v : Bool) : State := rpCfgPut s n dw (setBit (rpCfgGet s n dw) b v)

/-- What a doubleword reads: link and slot status and DPC status show the port's state. -/
def rpCfgRead (s : State) (n dw : Nat) : Nat :=
  let v := rpCfgGet s n dw
  if dw = 28 then
    let up := rpSt s n == rsInit || rpSt s n == rsOnline || rpSt s n == rsQuiescing
    setBits (setBits (setBits v 16 4 (s.rd R.STG_RP_STATUS.SPEED [n])) 20 6 (s.rd R.STG_RP_STATUS.WIDTH [n])) 29 1 (b2n up)
  else if dw = 30 then setBit v 22 (rpGet s n).present
  else if dw = 84 then setBit v 0 (s.flag R.STG_RP_STATUS.DPC [n])
  else v

/-- An indicator output shows its field of Slot Control (1 on, 2 blink, 3 off): it is active low. -/
def ledShow (s : State) (p : OutPin) (v : Nat) : State :=
  match v with
  | 1 => s.emit (.pin p false)
  | 2 => s.emit (.pinBlink p)
  | 3 => s.emit (.pin p true)
  | _ => s

/-- The indicator fields of Slot Control set. -/
def attnLed (s : State) (n v : Nat) : State := ledShow (rpCfgPut s n 30 (setBits (rpCfgGet s n 30) 6 2 v)) (.srpAledN n) v
def pwrLed (s : State) (n v : Nat) : State := ledShow (rpCfgPut s n 30 (setBits (rpCfgGet s n 30) 8 2 v)) (.srpPledN n) v

/-! ## Events and pins -/

/-- R389: event bit `b` of a port is set; an enabled one sends its message and its vector. -/
def rpEvt (s : State) (n b : Nat) : State :=
  let s := s.wr R.STG_RP_EVT.EVT [n] (setBit (s.rd R.STG_RP_EVT.EVT [n]) b true)
  if bit (s.rd R.STG_RP_EVT_EN.EVT_EN [n]) b then
    let m := [byteOf n, byteOf (rpSt s n)] ++ leBytes 2 (s.rd R.STG_RP_EVT.EVT [n])
    fireOwner (hwPost s (s.rd R.STG_EVT.CHAN []) 3 m).1 (s.rd R.STG_EVT.VEC [])
  else s

/-- The port enters a state (R387) now; STATE_CHG is event bit 7. -/
def rpGo (s : State) (n st : Nat) : State :=
  rpEvt (rpMod (s.wr R.STG_RP_STATUS.STATE [n] st) n (fun p => { p with since := s.now })) n 7

/-- A time that runs from the port's entry into its state has passed: `t` in units of 0.1 ns. -/
def rpLapse (s : State) (n t : Nat) : State := clockTo s ((rpGet s n).since + t)

def rpPwr (s : State) (n : Nat) (on : Bool) : State :=
  if (rpGet s n).pwren = on then s else (rpMod s n (fun p => { p with pwren := on })).emit (.pin (.srpPwrEn n) on)
def rpPerst (s : State) (n : Nat) (off : Bool) : State :=
  if (rpGet s n).perstOff = off then s else (rpMod s n (fun p => { p with perstOff := off })).emit (.pin (.srpPerstN n) off)
/-- R641, R652: the reference clock output: none is high impedance, else it runs or stands. -/
def rpClk (s : State) (n : Nat) (c : Option Bool) : State :=
  if (rpGet s n).refclk = c then s
  else
    (rpMod s n (fun p => { p with refclk := c })).emit (match c with
      | none => .pinZ (.srpRefclk n)
      | some b => .pin (.srpRefclk n) b)

/-- The link of a port is down: SPEED and WIDTH read 0; a link that was active sets LINK_CHG. -/
def rpLinkDown (s : State) (n prev : Nat) : State :=
  let s := (s.wr R.STG_RP_STATUS.SPEED [n] 0).wr R.STG_RP_STATUS.WIDTH [n] 0
  if prev = rsInit || prev = rsOnline || prev = rsQuiescing then rpEvt (rpCfgBit s n 30 24 true) n 2 else s

/-! ## Drive commands -/

/-- The operations of host commands that are out on drive port `n`. -/
def outOps (s : State) (n : Nat) : List LegOp :=
  s.stg.cmds.flatMap (fun c => c.legs.filter (fun o => o.port == some n && o.st == .out))

/-- R414: OUTSTANDING of a port. -/
def rpOutstanding (s : State) (n : Nat) : Nat := (outOps s n).length

/-- Every leg operation changed by `f`. -/
def modLegs (s : State) (f : LegOp → LegOp) : State :=
  putStg s { s.stg with cmds := s.stg.cmds.map (fun c => { c with legs := c.legs.map f }) }

/-- R392: the drive commands of a port end without a drive completion. -/
def endDrive (s : State) (n : Nat) : State :=
  let f (o : LegOp) : LegOp := if o.port = some n && (o.st == .out || o.st == .wait) then { o with st := .ended .lost } else o
  rpMod (modLegs s f) n (fun p => { p with aborted := [] })

/-- IOQ and QD_LOG2 as they act (R414), and how many commands the drive's queues hold. -/
def rpIoq (s : State) (n : Nat) : Nat :=
  let v := s.rd R.STG_RP_CTL.IOQ [n]
  if 1 ≤ v && v ≤ 16 then v else 16
def rpQd (s : State) (n : Nat) : Nat :=
  let v := s.rd R.STG_RP_CTL.QD_LOG2 [n]
  if 6 ≤ v && v ≤ 10 then v else 10
def rpRoom (s : State) (n : Nat) : Bool := decide (rpOutstanding s n < rpIoq s n * (2 ^ rpQd s n - 1))

/-- The next command identifier of a port that no command at the drive bears. -/
def pickCid (used : List Nat) (c fuel : Nat) : Nat :=
  match fuel with
  | 0 => c % 65536
  | f + 1 => if used.contains (c % 65536) then pickCid used (c + 1) f else c % 65536

/-- The bus address at which a drive sees a byte of HBM (R394). -/
def drvAddr (a : Nat) : Nat := 0x8000000000 + a

/-- A leg operation put to its drive: submitted, kept waiting for room, or ended where the port is not ONLINE. -/
def issueDrive (s : State) (n : Nat) (o : LegOp) : LegOp × State :=
  if rpSt s n ≠ rsOnline then ({ o with st := .ended .lost }, s)
  else if !rpRoom s n then ({ o with st := .wait }, s)
  else
    let p := rpGet s n
    let used := (outOps s n).map (·.tag) ++ p.aborted
    let cid := pickCid used p.nextCid (used.length + 1)
    let s := rpCount (rpPut s n { p with nextCid := (cid + 1) % 65536 }) n 0
    ({ o with st := .out, tag := cid, sent := s.now }, s.emit (.drive n cid o.opcode o.nsid o.lba (o.blocks - 1) (drvAddr o.addr) o.fua))

/-- The first waiting operation of port `n` put to its drive, while there is room. -/
def pumpPort (s : State) (n fuel : Nat) : State :=
  match fuel with
  | 0 => s
  | f + 1 =>
    if rpSt s n ≠ rsOnline || !rpRoom s n then s
    else
      match s.stg.cmds.find? (fun c => c.legs.any (fun o => o.port == some n && o.st == .wait)) with
      | none => s
      | some c =>
        match c.legs.findIdx? (fun o => o.port == some n && o.st == .wait) with
        | none => s
        | some i =>
          match c.legs[i]? with
          | none => s
          | some o =>
            let (o, s) := issueDrive s n o
            let upd (x : HCmd) : HCmd := if x.id = c.id then { x with legs := replaceAt x.legs i o } else x
            pumpPort (putStg s { s.stg with cmds := s.stg.cmds.map upd }) n f

/-! ## The slot machine -/

/-- Into OFF (R387, R388). -/
def rpOff (s : State) (n : Nat) : State :=
  let prev := rpSt s n
  let s := rpClk (rpPwr (rpPerst s n false) n false) n none
  let s := rpMod (rpCfgBit s n 30 10 true) n (fun p => { p with armed := false, shut := false, aborted := [] })
  let s := (rpLinkDown s n prev).wr R.STG_RP_STATUS.DPC [n] 0
  let s := pwrLed s n 3
  let s := if prev = rsFaulted then attnLed s n 3 else s
  rpGo s n rsOff

/-- The legs and drive commands of a port that leaves TRAINING, INIT, ONLINE or QUIESCING (R392, R402). -/
def rpLeave (s : State) (n : Nat) : State := endDrive (portLost s n) n

/-- R410, R593: a retired port acts as in OFF for good. -/
def retirePort (s : State) (n : Nat) : State :=
  if rpSt s n = rsRetired then s
  else
    let prev := rpSt s n
    let s := rpClk (rpPwr (rpPerst s n false) n false) n none
    let s := rpMod s n (fun p => { p with armed := false, shut := false })
    let s := (rpLinkDown s n prev).wr R.STG_RP_STATUS.DPC [n] 0
    rpLeave (rpGo (pwrLed s n 3) n rsRetired) n

/-- A port failure (R387, R392, R410). -/
def portFail (s : State) (n : Nat) : State :=
  match countFailure s 6 n 0 [] with
  | (s, true) => retirePort s n
  | (s, false) => s

/-- Into FAULTED. -/
def rpFault (s : State) (n : Nat) : State :=
  let prev := rpSt s n
  let s := rpLinkDown (rpClk (rpPwr s n false) n none) n prev
  let s := rpMod s n (fun p => { p with armed := false, shut := false })
  portFail (rpLeave (rpGo s n rsFaulted) n) n

/-- Into POWERING, where the port is in use, not retired, and its domain is on. -/
def rpPowerOn (s : State) (n : Nat) : State :=
  if rpSt s n = rsOff && s.flag R.STG_RP_CTL.EN [n] && (rpGet s n).present && domOn s (148 + n / 4) then
    rpGo (pwrLed (rpClk (rpPwr (rpCfgBit s n 30 10 false) n true) n (some false)) n 2) n rsPowering
  else s

/-- SURPRISE ends (R387). -/
def rpSurpriseEnd (s : State) (n : Nat) : State :=
  if rpSt s n ≠ rsSurprise || s.flag R.STG_RP_STATUS.DPC [n] then s
  else if (rpGet s n).present && s.flag R.STG_RP_CTL.AUTO_RETRAIN [n] then rpGo (rpClk (rpCount s n 12) n (some true)) n rsTraining
  else rpOff s n

/-- Into SURPRISE, from TRAINING, INIT or ONLINE. -/
def rpSurprise (s : State) (n : Nat) : State :=
  let prev := rpSt s n
  if prev = rsTraining || prev = rsInit || prev = rsOnline then
    let s := rpMod s n (fun p => { p with armed := false })
    let s := rpLinkDown (rpClk s n (some false)) n prev
    rpSurpriseEnd (rpLeave (rpGo s n rsSurprise) n) n
  else s

/-- R391: DPC contains the port. -/
def rpDpc (s : State) (n reason : Nat) : State :=
  let st := rpSt s n
  if s.flag R.STG_RP_STATUS.DPC [n] || !(st == rsTraining || st == rsInit || st == rsOnline || st == rsQuiescing) then s
  else
    let s := rpCount (s.wr R.STG_RP_STATUS.DPC [n] 1) n 8
    let s := rpCfgPut s n 84 (setBits (rpCfgGet s n 84) 1 2 reason)
    let s := rpEvt s n 4
    if st = rsQuiescing then endDrive (rpLinkDown s n st) n else rpSurprise s n

/-- The drive is told to shut down once no command is left (R387). -/
def rpShutdown (s : State) (n : Nat) : State :=
  if rpSt s n = rsQuiescing && !(rpGet s n).shut && rpOutstanding s n = 0 then
    (rpMod s n (fun p => { p with shut := true })).emit (.driveCtl n 2 1)
  else s

/-- Into QUIESCING. -/
def rpQuiesce (s : State) (n : Nat) : State :=
  if rpSt s n = rsOnline then
    let f (o : LegOp) : LegOp := if o.port = some n && o.st == .wait then { o with st := .ended .lost } else o
    let s := pwrLed (rpMod s n (fun p => { p with armed := false })) n 2
    rpShutdown (modLegs (portLost (rpGo s n rsQuiescing) n) f) n
  else s

/-- R387: the slot's Power Controller Control written: true is off. -/
def rpPcc (s : State) (n : Nat) (off : Bool) : State :=
  if off then
    if rpSt s n = rsOnline then rpQuiesce s n else if rpSt s n = rsFaulted then rpOff s n else s
  else rpPowerOn s n

/-- A write of a configuration doubleword (R386, R415): Slot Control sets the indicators, and Power Controller
Control acts on the slot (R387); DPC Trigger Status is cleared by STG alone. -/
def rpCfgWrite (s : State) (n dw v : Nat) : State :=
  let old := rpCfgGet s n dw
  let rw := rpRwMask dw
  let w1c := rpW1cMask dw
  let new := ((old &&& (0xFFFFFFFF - rw)) ||| (v &&& rw)) &&& (0xFFFFFFFF - (v &&& w1c))
  let s := rpCfgPut s n dw new
  if dw = 30 then
    rpPcc (ledShow (ledShow s (.srpAledN n) (bits new 6 2)) (.srpPledN n) (bits new 8 2)) n (bit new 10)
  else s

/-- An error in the port's AER registers (R390): correctable bit `b`, or uncorrectable bit `b`. -/
def rpAer (s : State) (n b : Nat) (cor : Bool) : State :=
  if cor then
    let s := rpCfgBit (rpCfgBit s n 68 b true) n 26 16 true
    rpCount (rpCfgBit s n 76 0 true) n 6
  else
    let fatal := bit (rpCfgGet s n 67) b
    let s := rpCfgBit (rpCfgBit s n 65 b true) n 26 (if fatal then 18 else 17) true
    rpCount (rpCfgBit s n 76 (if fatal then 6 else 5) true) n 7

end Sys2Proof.Machine
end

