-- ==== Sys2Proof/Machine/StgCmds.lean ====
section
/-! DEFINITION. Host commands of the emulated NVMe controllers: staging, encryption, legs, completion (R401 to R407).
Log entries 17, 70, 75, 76. -/

namespace Sys2Proof.Machine

open Sys2Proof

/-- Status codes (SCT × 256 + SC) that the manual names, and those of NVMe 2.0. -/
def nsOk : Nat := 0
def nsBadOpcode : Nat := 0x001
def nsBadField : Nat := 0x002
def nsXfer : Nat := 0x004
def nsInternal : Nat := 0x006
def nsAborted : Nat := 0x007
def nsSqDeleted : Nat := 0x008
def nsBadNs : Nat := 0x00B
def nsSequence : Nat := 0x00C
def nsBadPrp : Nat := 0x013
def nsRange : Nat := 0x080
def nsCqInvalid : Nat := 0x100
def nsBadQueue : Nat := 0x101
def nsQueueSize : Nat := 0x102
def nsAerLimit : Nat := 0x105
def nsVector : Nat := 0x108
def nsQueueDel : Nat := 0x10C
def nsNotSaveable : Nat := 0x10D
def nsReadOnly : Nat := 0x182
def nsUnrecovered : Nat := 0x281
def nsDenied : Nat := 0x286
def nsPath : Nat := 0x300

/-- Fields of a submission queue entry. -/
def sqeOp (b : Bytes) : Nat := byteAt b 0
def sqeFlags (b : Bytes) : Nat := byteAt b 1
def sqeCid (b : Bytes) : Nat := leAt b 2 2
def sqeNs (b : Bytes) : Nat := leAt b 4 4
def sqePrp1 (b : Bytes) : Nat := leAt b 24 8
def sqePrp2 (b : Bytes) : Nat := leAt b 32 8
def sqeDw (b : Bytes) (n : Nat) : Nat := leAt b (4 * n) 4
def sqeSlba (b : Bytes) : Nat := leAt b 40 8
def sqeNlb (b : Bytes) : Nat := sqeDw b 12 % 65536 + 1

/-- R398, R399: the namespace that a controller knows by an NSID: index and entry. -/
def nsFind (s : State) (k nsid : Nat) : Option (Nat × Bytes) :=
  (s.stg.ns.filter (fun x => nsValid x.2 && nsCtl x.2 == k && nsId x.2 == nsid && nsDom x.2 == ctlDom s k)).head?

/-- The namespaces attached to a controller. -/
def nsAttached (s : State) (k : Nat) : List (Nat × Bytes) :=
  s.stg.ns.filter (fun x => nsValid x.2 && nsCtl x.2 == k && nsDom x.2 == ctlDom s k)

/-- PRP entries of list pages: `first` entries lie in the first page; the last of a full page points on. -/
def prpEntries (bs : Bytes) (room n fuel : Nat) : List Nat :=
  match fuel with
  | 0 => []
  | f + 1 =>
    if n = 0 then []
    else if room = 1 && n > 1 then prpEntries (bs.drop 8) 512 n f
    else leAt bs 0 8 :: prpEntries (bs.drop 8) (room - 1) (n - 1) f

/-- Pages of a list, each full but the last. -/
def prpPages (l : List Nat) (len : Nat) : List (Nat × Nat) :=
  match l with
  | [] => []
  | a :: r => (a / 4096 * 4096, min 4096 len) :: prpPages r (len - 4096)

/-- The host pages of a transfer of `len` bytes; an error is a status. `list` holds the PRP list where one is needed. -/
def prpOf (b : Bytes) (len : Nat) (list : RdRes) : Except Nat (List (Nat × Nat)) :=
  let p1 := sqePrp1 b
  let p2 := sqePrp2 b
  let first := min len (4096 - p1 % 4096)
  if p1 % 4 ≠ 0 then .error nsBadPrp
  else if len ≤ first then .ok [(p1, len)]
  else if len - first ≤ 4096 then (if p2 % 4096 ≠ 0 then .error nsBadPrp else .ok [(p1, first), (p2, len - first)])
  else if p2 % 8 ≠ 0 then .error nsBadPrp
  else
    match list with
    | .ok bs =>
      let n := ceilDiv (len - first) 4096
      let l := prpEntries bs ((4096 - p2 % 4096) / 8) n (2 * n + 2)
      if l.any (fun a => a % 4096 ≠ 0) then .error nsBadPrp else .ok ((p1, first) :: prpPages l (len - first))
    | _ => .error nsXfer

/-- `data` written at offset `off` of a transfer's host pages. -/
def scatter (s : State) (k : Nat) (pages : List (Nat × Nat)) (off : Nat) (data : Bytes) (ep : Bool) : State :=
  match pages with
  | [] => s
  | (a, n) :: rest =>
    if data.isEmpty then s
    else if off ≥ n then scatter s k rest (off - n) data ep
    else
      let m := min (n - off) data.length
      scatter (ctlWrite s k (a + off) (data.take m) true ep) k rest 0 (data.drop m) ep

/-! ## Staging -/

/-- The quadrant whose staging area a controller's commands use (R403). -/
def stageQuad (s : State) (k : Nat) : Nat := ctlAp s k / 2

/-- Staging for `len` bytes: its model HBM address; none while the area has no room. -/
def stageFit (s : State) (k len : Nat) : Option Nat :=
  let q := stageQuad s k
  let used := s.stg.cmds.filterMap (fun c =>
    if c.stageLen ≠ 0 && stageQuad s c.ctrl = q then some ((c.stage - hbmAddr q 0) / 4096, ceilDiv c.stageLen 4096) else none)
  (areaFit (s.rd R.STG_STAGE.BASE [q] * 256) (s.rd R.STG_STAGE.SIZE [q] * 256) (ceilDiv len 4096) used).map
    (fun p => hbmAddr q (p * 4096))

/-- Bytes put into staging: the lines written whole lose their poison mark. -/
def stageWrite (s : State) (a : Nat) (bs : Bytes) : State :=
  let lo := ceilDiv a 64
  let hi := (a + bs.length) / 64
  let s := s.hbmWrite a bs
  { s with fil := { s.fil with poison := s.fil.poison.filter (fun e => !(decide (lo ≤ e.1) && decide (e.1 < hi))) } }

/-- What a run of Husk jobs over staged data came to: the state, the status of the first job that failed, and the data units
that were not released. -/
structure CryptRes where
  s : State
  status : Nat
  held : List Nat

/-- R403 step 3, R404: one XTS job over `m` units from unit `u` of a command's staged data. `base` is the address of unit 0,
`slba` its LBA. -/
def xtsStep (dec : Bool) (e : Bytes) (base slba : Nat) (h : NvHap) (u m : Nat) (r : CryptRes) : CryptRes :=
  let lba := nsLba e
  let a := base + u * lba
  let tweak := leBytes 16 (nsTweak e + slba + u)
  let inp := r.s.hbmRead a (m * lba)
  let poison := poisonedRange r.s a (m * lba)
  let s := stgCount r.s 4
  match huskRun s (if dec then 6 else 5) (nsSlot e) (nsDom e) (nsLbaLog e) tweak [] inp [] with
  | (none, s) => { s := stgCount s 5, status := if r.status = 0 then nsDenied else r.status, held := r.held ++ (List.range m).map (u + ·) }
  | (some (out, _, _), s) =>
    let cut : Option Nat := match h with
      | .cipherFault x => if u ≤ x && x < u + m then some x else none
      | _ => none
    let bad := poison || cut.isSome
    let st := if dec then nsUnrecovered else nsInternal
    let keep := match cut with | some x => x - u | none => m
    let s := s.hbmWrite a (out.take (keep * lba))
    let s := if bad then hskCount (stgCount s 6) (if cut.isSome && !poison then 4 else 7) else s
    { s := s, status := if bad && r.status = 0 then st else r.status,
      held := match cut with | some x => r.held ++ (List.range (u + m - x)).map (x + ·) | none => r.held }

/-- R403 step 3, R404: units [u, u + n) of a command's staged data through XTS jobs of at most 16 units and 65,536 bytes. -/
def xtsRun (dec : Bool) (e : Bytes) (base slba : Nat) (h : NvHap) (fuel u n : Nat) (r : CryptRes) : CryptRes :=
  match fuel with
  | 0 => r
  | f + 1 =>
    if n = 0 then r else xtsRun dec e base slba h f (u + min n 16) (n - min n 16) (xtsStep dec e base slba h u (min n 16) r)

/-! ## Legs -/

/-- The parts of a command: extent, its bytes, first LBA and count. -/
def partsOf (exts : List (Nat × Bytes)) (slba n : Nat) : List (Nat × Bytes × Nat × Nat) :=
  exts.filterMap (fun x =>
    let lo := max slba (extStart x.2)
    let hi := min (slba + n) (extStart x.2 + extCount x.2)
    if lo < hi then some (x.1, x.2, lo, hi - lo) else none)

/-- The operation of a command on leg `l` of a part. -/
def legOp (c : HCmd) (l : Nat) (fua : Bool) (p : Nat × Bytes × Nat × Nat) : LegOp :=
  let (e, x, lo, n) := p
  let g := legOf x l
  let lba := nsLba c.entry
  { ext := e, leg := l, port := if legRemote g then none else some (legPort g), tag := 0, opcode := c.opcode, nsid := legNs g,
    lba := if legRemote g then legBase g + (lo - extStart x) * lba else legBase g + (lo - extStart x), blocks := n,
    addr := c.stage + (lo - c.slba) * lba, len := n * lba, fua := fua, st := .wait }

/-- An operation issued: to its drive, or to Carter as a WRITE (of its staged bytes, or of zeros) or a READ. -/
def issueLeg (s : State) (c : HCmd) (o : LegOp) : LegOp × State :=
  match o.port with
  | some n => issueDrive s n o
  | none =>
    let g := match c.exts.find? (fun x => x.1 == o.ext) with | some x => legOf x.2 o.leg | none => []
    let t := s.stg.nextTag
    let s := putStg s { s.stg with nextTag := t + 1 }
    let data : Option Bytes := if o.opcode = 1 then some (s.hbmRead o.addr o.len)
      else if o.opcode = 8 then some (List.replicate o.len 0) else none
    match stgRequest s (legConn g) t (legRkey g) o.lba o.addr o.len data with
    | (true, s) => ({ o with tag := t, st := .out }, s)
    | (false, s) => ({ o with tag := t, st := .ended .lost }, s)

/-- A command's operations issued in order. -/
def issueAll (s : State) (c : HCmd) (l : List LegOp) : List LegOp × State :=
  l.foldl (fun r o => let (o, s) := issueLeg r.2 c o; (r.1 ++ [o], s)) ([], s)

/-! ## The course of a command -/

def cmdPut (s : State) (c : HCmd) : State :=
  putStg s { s.stg with cmds := s.stg.cmds.map (fun x => if x.id = c.id then c else x) }

/-- A command's completion posted, unless its results are discarded. -/
def cmdPost (s : State) (c : HCmd) (status : Nat) : State :=
  let s := cmdPut s { c with posted := true }
  if c.posted || c.discard then s
  else match c.sq with
    | some (q, cid) => ctlComplete s c.ctrl q cid status 0 c.slba (nsId c.entry)
    | none => s

def LegOp.ended (o : LegOp) : Bool := match o.st with | .done _ => true | _ => false
def LegEnd.good (e : LegEnd) : Bool := match e with | .drive a b => a == 0 && b == 0 | .carter st => st == 0 | .lost => false
def LegOp.good (o : LegOp) : Bool := match o.st with | .done e => e.good | _ => false

/-- R404: the data of a finished Read goes to the host: decrypted part by part, the released units written. The second part
is the status. -/
def readOut (s : State) (c : HCmd) (h : NvHap) : State × Nat :=
  let lba := nsLba c.entry
  let parts := (partsOf c.exts c.slba c.blocks).filter (fun p => c.legs.any (fun o => o.ext == p.1 && o.good))
  let r : CryptRes := if nsEnc c.entry then
      parts.foldl (fun r p => xtsRun true c.entry c.stage c.slba h p.2.2.2 (p.2.2.1 - c.slba) p.2.2.2 r)
        { s := s, status := 0, held := [] }
    else { s := s, status := 0, held := [] }
  if c.discard then (r.s, 0)
  else
    let units := parts.flatMap (fun p => (List.range p.2.2.2).map (p.2.2.1 - c.slba + ·))
    let s := if h == .hostFault then r.s else (units.filter (fun u => !r.held.contains u)).foldl (fun s u =>
      scatter s c.ctrl c.pages (u * lba) (s.hbmRead (c.stage + u * lba) lba) (poisonedRange s (c.stage + u * lba) lba)) r.s
    let st := match c.bad with
      | some b => b
      | none => if r.status ≠ 0 then r.status else if h == .hostFault then nsXfer else 0
    (s, st)

/-- R403 step 5, R404: whether a command is decided by its legs as they stand, and its completion. A read of an encrypted
namespace waits while no cluster takes its jobs (R44). -/
def judge (s : State) (c : HCmd) (h : NvHap) : State :=
  let allOver := c.legs.all (·.ended)
  if c.posted then s
  else match c.opcode with
  | 2 => if allOver && (!nsEnc c.entry || huskAble s 5) then let (s, st) := readOut s c h; cmdPost s c st else s
  | 0 =>
    if allOver && c.waits.isEmpty then
      let failed := c.legs.any (fun o => match o.st with | .done (.drive a b) => a ≠ 0 || b ≠ 0 | _ => false)
      cmdPost s c (if failed then nsInternal else nsOk)
    else s
  | 9 => if allOver then cmdPost s c nsOk else s
  | _ =>
    let exts := (partsOf c.exts c.slba c.blocks).map (·.1)
    let on (e : Nat) : List LegOp := c.legs.filter (fun o => o.ext == e)
    if exts.all (fun e => (on e).any (·.good)) then cmdPost s c nsOk
    else if exts.any (fun e => (on e).all (fun o => o.ended && !o.good)) then cmdPost s c nsPath
    else s

/-- A controller stopped by CC.EN: what NVMe keeps over a controller reset stays. -/
def ctlCleared (c : Ctrl) : Ctrl :=
  { Ctrl.reset with cc := c.cc, intm := c.intm, aqa := c.aqa, asq := c.asq, acq := c.acq, errs := c.errs, errCount := c.errCount,
                    unitsRd := c.unitsRd, unitsWr := c.unitsWr, reads := c.reads, writes := c.writes }

/-- A new host command entered. -/
def cmdNew (s : State) (c : HCmd) : HCmd × State :=
  let c := { c with id := s.stg.nextId }
  (c, putStg s { s.stg with nextId := s.stg.nextId + 1, cmds := s.stg.cmds ++ [c] })

/-- A command not yet entered. -/
def cmdInit (k : Nat) (sq : Option (Nat × Nat)) (op i : Nat) (e : Bytes) (s : State) : HCmd :=
  { id := 0, ctrl := k, sq := sq, opcode := op, ns := i, entry := e, exts := (nsExts e).map (fun x => (x, extGet s x)), slba := 0,
    blocks := 0, pages := [], stage := 0, stageLen := 0, legs := [], waits := [], posted := false, discard := false, bad := none }

/-- R404: the operations of a Flush: one per usable local leg, each drive namespace once per leg. -/
def flushOps (s : State) (c : HCmd) : List LegOp :=
  c.exts.flatMap (fun x => [0, 1].filterMap (fun l =>
    let g := legOf x.2 l
    if legGood s x.1 l && !legRemote g then some { legOp c l false (x.1, x.2, extStart x.2, 1) with lba := 0, len := 0 } else none))

/-- A Flush of namespace `i` started (R404). -/
def startFlush (s : State) (k : Nat) (sq : Option (Nat × Nat)) (i : Nat) (e : Bytes) : State :=
  let earlier := (s.stg.cmds.filter (fun c => c.ns == i && c.posted && (c.opcode == 1 || c.opcode == 8))).map (·.id)
  let (c, s) := cmdNew s { cmdInit k sq 0 i e s with waits := earlier }
  let (l, s) := issueAll s c (flushOps s c)
  let c := { c with legs := l }
  judge (cmdPut s c) c .done

/-- R407: a stopping controller whose work has ended: RDY falls; or the flushes run, and then SHST reads 10b. -/
def stopCheck (s : State) (k : Nat) : State :=
  let c := ctlGet s k
  if s.stg.cmds.any (fun x => x.ctrl == k) then s
  else match c.stop with
  | .no => s
  | .disable => ctlPut s k (ctlCleared c)
  | .shutdown =>
    let s := ctlPut s k { c with stop := .flushing }
    let s := (nsAttached s k).foldl (fun s x => startFlush s k none x.1 x.2) s
    let idle (x : HCmd) : Bool := x.ctrl == k && x.posted && x.legs.all (·.ended)
    let s := putStg s { s.stg with cmds := s.stg.cmds.filter (fun x => !idle x) }
    if s.stg.cmds.any (fun x => x.ctrl == k) then s else ctlMod s k (fun c => { c with stop := .no, shst := 2 })
  | .flushing => ctlPut s k { c with stop := .no, shst := 2 }

/-- Commands that are posted and whose legs have all ended leave; flushes that waited for them are judged again. -/
def sweep (s : State) (fuel : Nat) : State :=
  match fuel with
  | 0 => s
  | f + 1 =>
    match s.stg.cmds.find? (fun c => (c.posted || c.discard) && c.legs.all (·.ended) && (c.discard || c.waits.isEmpty)) with
    | none => s
    | some c =>
      let drop (x : HCmd) : HCmd := { x with waits := x.waits.filter (· ≠ c.id) }
      let s := putStg s { s.stg with cmds := (s.stg.cmds.filter (fun x => x.id ≠ c.id)).map drop }
      let s := (s.stg.cmds.filter (fun x => x.opcode == 0 && !x.posted)).foldl (fun s x => judge s x .done) s
      sweep (stopCheck s c.ctrl) f

def sweepAll (s : State) : State := sweep s (s.stg.cmds.length + 64)

/-- R44: reads whose legs have ended and that waited for a cluster are judged again. -/
def judgeReads (s : State) (h : NvHap) : State :=
  let l := s.stg.cmds.filter (fun c => c.opcode == 2 && !c.posted && c.legs.all (·.ended))
  if l = [] then s else sweepAll (l.foldl (fun s c => judge s c h) s)

/-- The operations of a write-like command on every usable leg of its parts, issued, and the command judged. -/
def startWrites (s : State) (c : HCmd) (fua : Bool) : State :=
  let ops := (partsOf c.exts c.slba c.blocks).flatMap (fun p =>
    [0, 1].filterMap (fun l => if legGood s p.1 l then some (legOp c l fua p) else none))
  let (l, s) := issueAll s c ops
  let c := { c with legs := l }
  sweepAll (judge (cmdPut s c) c .done)

/-! ## The end of an operation on a leg -/

/-- The status of a read whose end `e` leaves no other leg to try (R404). -/
def readFail (e : LegEnd) : Nat :=
  match e with
  | .drive 2 sc => 0x200 + sc % 256
  | .drive _ _ => nsInternal
  | _ => nsPath

/-- R404: the next step of a read of extent `o.ext` whose leg ended badly: the other leg, or the extent's status. -/
def readNext (s : State) (c : HCmd) (o : LegOp) (e : LegEnd) : HCmd × State :=
  let other := 1 - o.leg
  let tried := c.legs.any (fun x => x.ext == o.ext && x.leg == other)
  let retry : Bool := match e with | .drive 2 _ => true | .drive _ _ => false | _ => true
  if retry && !tried && legGood s o.ext other then
    match (partsOf c.exts c.slba c.blocks).find? (fun p => p.1 == o.ext) with
    | none => (c, s)
    | some p =>
      let s := if other = 1 then stgCount s 8 else s
      let (n, s) := issueLeg s c (legOp c other false p)
      ({ c with legs := c.legs ++ [n] }, s)
  else
    let earlier := c.legs.findSome? (fun x => if x.ext = o.ext && x.leg = other then
      (match x.st with | .done (.drive 2 sc) => some (0x200 + sc % 256) | _ => none) else none)
    let st := match e with | .lost => earlier.getD nsPath | .carter _ => earlier.getD nsPath | e => readFail e
    ({ c with bad := some (c.bad.getD st) }, s)

/-- Endings of Carter works taken to the operations that asked for them. -/
def absorbCarter (s : State) : State :=
  let fin := s.car.stgDone
  let s := putCar s { s.car with stgDone := [] }
  let f (o : LegOp) : LegOp := if o.port.isNone && o.st == .out then
      (match fin.find? (fun d => d.1 == o.tag) with | some d => { o with st := .ended (.carter d.2) } | none => o) else o
  modLegs s f

/-- LEG_COMPLETE: the oldest operation that has ended is taken up (R402 to R404). -/
def legComplete (s : State) (h : NvHap) : State :=
  let s := absorbCarter s
  let isEnd (o : LegOp) : Bool := match o.st with | .ended _ => true | _ => false
  match s.stg.cmds.find? (fun c => c.legs.any isEnd) with
  | none => sweepAll (judgeReads s h)
  | some c =>
    match c.legs.findIdx? isEnd with
    | none => s
    | some i =>
      match c.legs[i]? with
      | none => s
      | some o =>
        match o.st with
        | .ended e =>
          let c := { c with legs := replaceAt c.legs i { o with st := .done e } }
          let s := cmdPut s c
          let s := match e with | .carter st => if st ≠ 0 then stgCount s 7 else s | _ => s
          let failing : Bool := match e with
            | .lost => true
            | .carter st => st ≠ 0
            | .drive _ _ => !e.good && (c.opcode == 1 || c.opcode == 8)
          let s := if failing then failLeg s o.ext o.leg else s
          if c.opcode = 2 && !e.good then
            let (c, s) := readNext s c o e
            sweepAll (judge (cmdPut s c) c h)
          else sweepAll (judge s c h)
        | _ => s

end Sys2Proof.Machine
end

