-- ==== Sys2Proof/Machine/NvmeCtl.lean ====
section
/-! DEFINITION. Emulated NVMe controllers: properties, queues, the fetch of commands, admin commands, stop and reset, and the
CTRL operations on namespaces and extents (R395 to R400, R404 to R408).
Log entries 17, 75, 78, 176. -/

namespace Sys2Proof.Machine

open Sys2Proof

/-! ## Fetching -/

/-- Opcodes of R396. -/
def ioOps : List Nat := [0x00, 0x01, 0x02, 0x08, 0x09]
def adminOps : List Nat := [0x00, 0x01, 0x02, 0x04, 0x05, 0x06, 0x08, 0x09, 0x0A, 0x0C]

/-- Whether a controller fetches commands now. -/
def ctlServes (s : State) (k : Nat) : Bool :=
  s.flag R.STG_CFG.EN [] && ctlExists s k && (ctlGet s k).rdy && !(ctlGet s k).cfs && (ctlGet s k).stop == .no
    && (ctlGet s k).shst == 0 && fnLive s (ctlAp s k) 3 && domOn s 154

/-- A command of the controller completed with a status and a result. -/
def nvDone (s : State) (k q : Nat) (b : Bytes) (status result : Nat) : State :=
  ctlComplete s k q (sqeCid b) status result (if q = 0 then 0 else sqeSlba b) (sqeNs b)

/-- R396: the head of queue `y`, number `q`, moves past the command that was read. -/
def nvTaken (s : State) (k q : Nat) (y : NvSq) : State :=
  ctlPut s k { ctlGet s k with sqs := SMap.ins (ctlGet s k).sqs q { y with head := (y.head + 1) % y.size } }

/-- The next command of queue `q` taken: `x` is what the read of its entry brought, `op` the opcode that the row runs. Another
supported opcode waits for its own row; an unsupported one completes with Invalid Command Opcode (R397). -/
def nvFetch (s : State) (k q op : Nat) (x : RdRes) (run : State → Bytes → State) : State :=
  match SMap.find? (ctlGet s k).sqs q with
  | none => s
  | some y =>
    if !ctlServes s k || y.head = y.tail then s
    else
      match x with
      | .ok b =>
        let mine := if q = 0 then adminOps else ioOps
        if sqeOp b ≠ op && mine.contains (sqeOp b) then s
        else
          let (go, s) := ctlFetch s k [(y.addr + 64 * y.head, 64)] x
          if !go then s else
          let s := nvTaken s k q y
          if sqeOp b ≠ op then nvDone s k q b nsBadOpcode 0
          else if sqeFlags b % 4 ≠ 0 || sqeFlags b / 64 ≠ 0 then nvDone s k q b nsBadField 0
          else run s b
      | _ =>
        let (go, s) := ctlFetch s k [(y.addr + 64 * y.head, 64)] x
        if go then ctlMod s k (fun c => { c with cfs := true }) else s

/-- The part of a PRP list that is read first, where a transfer of `len` bytes has one. -/
def listChunks (b : Bytes) (len : Nat) : List (Nat × Nat) :=
  let rest := len - min len (4096 - sqePrp1 b % 4096)
  if rest ≤ 4096 then [] else [(sqePrp2 b, min (8 * ceilDiv rest 4096) (4096 - sqePrp2 b % 4096))]

/-- R56, R439: whether the pages of a transfer of `len` bytes, its PRP list and its command can be reached now. `w` says that the
host's pages are written. -/
def dataReach (s : State) (k q : Nat) (x list : RdRes) (len : Bytes → Nat) (w : Bool) : Bool × State :=
  match x, SMap.find? (ctlGet s k).sqs q with
  | .ok b, some y =>
    if !ctlServes s k || y.head = y.tail then (true, s) else
    match ctlReach s k false ((y.addr + 64 * y.head, 64) :: listChunks b (len b)) with
    | (false, s) => (false, s)
    | (true, s) =>
      match prpOf b (len b) list with
      | .ok pages => ctlReach s k w pages
      | .error _ => (true, s)
  | _, _ => (true, s)

/-- R26: the reads of a transfer's PRP list, and of its pages where the host's data is read. -/
def dataTake (s : State) (k : Nat) (b : Bytes) (len : Nat) (list : RdRes) (data : Option RdRes) : State :=
  let s := hostTake s (ctlAp s k) 3 (ctlInst k) (ctlPasid s k) (listChunks b len) list
  match data, prpOf b len list with
  | some d, .ok pages => hostTake s (ctlAp s k) 3 (ctlInst k) (ctlPasid s k) pages d
  | _, _ => s

/-! ## I/O commands -/

/-- R403 step 1: namespace, range, length and RO; `lim` is the longest transfer, 0 for none. -/
def ioCheck (s : State) (k : Nat) (b : Bytes) (lim : Nat) (wr : Bool) : Except Nat (Nat × Bytes) :=
  match nsFind s k (sqeNs b) with
  | none => .error nsBadNs
  | some (i, e) =>
    if sqeSlba b + sqeNlb b > nsSize e then .error nsRange
    else if (lim ≠ 0 && sqeNlb b * nsLba e > lim) || bits (sqeDw b 12) 26 4 ≠ 0 then .error nsBadField
    else if wr && nsRo e then .error nsReadOnly
    else .ok (i, e)

/-- MDTS of R396: 2^9 pages of 4 KiB. -/
def mdts : Nat := 2 ^ 21

/-- Write and read counts of R406. -/
def countWrite (s : State) (k n : Nat) : State := ctlMod s k (fun c => { c with writes := c.writes + 1, unitsWr := c.unitsWr + n })
def countRead (s : State) (k n : Nat) : State := ctlMod s k (fun c => { c with reads := c.reads + 1, unitsRd := c.unitsRd + n })

/-- R403: a Write of `data` whose staging is at `a`. -/
def runWrite (s : State) (k q : Nat) (b : Bytes) (i : Nat) (e : Bytes) (a : Nat) (data : Bytes) (h : NvHap) (op : Nat) : State :=
  let s := stageWrite s a data
  let r : CryptRes := if nsEnc e then
      (partsOf ((nsExts e).map (fun x => (x, extGet s x))) (sqeSlba b) (sqeNlb b)).foldl (fun r p =>
        xtsRun false e a (sqeSlba b) h p.2.2.2 (p.2.2.1 - sqeSlba b) p.2.2.2 r) { s := s, status := 0, held := [] }
    else { s := s, status := 0, held := [] }
  if r.status ≠ 0 then nvDone r.s k q b r.status 0
  else
    let (c, s) := cmdNew r.s { cmdInit k (some (q, sqeCid b)) op i e r.s with slba := sqeSlba b, blocks := sqeNlb b, stage := a, stageLen := data.length }
    startWrites s c (bit (sqeDw b 12) 30)

/-- The length of a transfer of a namespace's blocks. -/
def ioLen (s : State) (k : Nat) (b : Bytes) : Nat :=
  match nsFind s k (sqeNs b) with
  | some (_, e) => sqeNlb b * nsLba e
  | none => 0

/-- R44, R403: whether the jobs of a command on an encrypted namespace can be dispatched now. -/
def cryptAble (s : State) (k : Nat) (x : RdRes) : Bool :=
  match x with
  | .ok b => match nsFind s k (sqeNs b) with
    | some (_, e) => !nsEnc e || huskAble s 5
    | none => true
  | _ => true

/-- NVM_WRITE (R403); `list` and `data` are what the reads of its PRP list and of the host's buffer brought. -/
def nvWrite (s : State) (k q : Nat) (x list data : RdRes) (h : NvHap) : State :=
  let room := match x with
    | .ok b => match nsFind s k (sqeNs b) with
      | some (_, e) => sqeNlb b * nsLba e > mdts || (stageFit s k (sqeNlb b * nsLba e)).isSome
      | none => true
    | _ => true
  let (go, s) := dataReach s k q x list (ioLen s k) false
  if !room || !go || !cryptAble s k x then s
  else nvFetch s k q 1 x (fun s b =>
    match ioCheck s k b mdts true with
    | .error st => nvDone s k q b st 0
    | .ok (i, e) =>
      let n := sqeNlb b * nsLba e
      match prpOf b n list with
      | .error st => nvDone s k q b st 0
      | .ok _ =>
        let s := dataTake s k b n list (some data)
        match data, stageFit s k n with
        | .ok d, some a => runWrite (countWrite s k (n / 512)) k q b i e a (slice d 0 n) h 1
        | _, _ => nvDone s k q b nsXfer 0)

/-- R404: a Read whose data goes to host pages through staging at `a`: one leg of every extent is read, the first usable one. -/
def runRead (s : State) (k q : Nat) (b : Bytes) (i : Nat) (e : Bytes) (a : Nat) (pages : List (Nat × Nat)) (h : NvHap) : State :=
  let n := sqeNlb b * nsLba e
  let (c, s) := cmdNew s { cmdInit k (some (q, sqeCid b)) 2 i e s with slba := sqeSlba b, blocks := sqeNlb b, pages := pages, stage := a, stageLen := n }
  let parts := partsOf c.exts c.slba c.blocks
  let pick (p : Nat × Bytes × Nat × Nat) : Option LegOp :=
    if legGood s p.1 0 then some (legOp c 0 (bit (sqeDw b 12) 30) p)
    else if legGood s p.1 1 then some (legOp c 1 (bit (sqeDw b 12) 30) p) else none
  let dead := parts.any (fun p => (pick p).isNone)
  let s := (parts.filter (fun p => !legGood s p.1 0 && legGood s p.1 1)).foldl (fun s _ => stgCount s 8) s
  let (l, s) := issueAll s c (parts.filterMap pick)
  let c := { c with legs := l, bad := if dead then some nsPath else none }
  sweepAll (judge (cmdPut s c) c h)

/-- NVM_READ (R404); `list` is what the read of a PRP list brought. -/
def nvRead (s : State) (k q : Nat) (x list : RdRes) (h : NvHap) : State :=
  let room := match x with
    | .ok b => match nsFind s k (sqeNs b) with
      | some (_, e) => sqeNlb b * nsLba e > mdts || (stageFit s k (sqeNlb b * nsLba e)).isSome
      | none => true
    | _ => true
  let (go, s) := dataReach s k q x list (ioLen s k) true
  if !room || !go then s
  else nvFetch s k q 2 x (fun s b =>
    match ioCheck s k b mdts false with
    | .error st => nvDone s k q b st 0
    | .ok (i, e) =>
      let n := sqeNlb b * nsLba e
      match prpOf b n list, stageFit s k n with
      | .ok pages, some a => runRead (countRead (dataTake s k b n list none) k (n / 512)) k q b i e a pages h
      | .error st, _ => nvDone s k q b st 0
      | _, none => nvDone s k q b nsInternal 0)

/-- WRITE_ZEROES (R404). -/
def nvZeroes (s : State) (k q : Nat) (x : RdRes) (h : NvHap) : State :=
  let room := match x with
    | .ok b => match nsFind s k (sqeNs b) with
      | some (_, e) => !nsEnc e || (stageFit s k (sqeNlb b * nsLba e)).isSome
      | none => true
    | _ => true
  if !room || !cryptAble s k x then s
  else nvFetch s k q 8 x (fun s b =>
    match ioCheck s k b 0 true with
    | .error st => nvDone s k q b st 0
    | .ok (i, e) =>
      let n := sqeNlb b * nsLba e
      let s := countWrite s k 0
      if nsEnc e then
        match stageFit s k n with
        | some a => runWrite s k q b i e a (List.replicate n 0) h 1
        | none => nvDone s k q b nsInternal 0
      else
        let (c, s) := cmdNew s { cmdInit k (some (q, sqeCid b)) 8 i e s with slba := sqeSlba b, blocks := sqeNlb b }
        startWrites s c (bit (sqeDw b 12) 30))

/-- R404: ranges of a namespace deallocated: passed to every usable local leg. -/
def runDsm (s : State) (k q : Nat) (b : Bytes) (i : Nat) (e : Bytes) (ranges : List (Nat × Nat)) : State :=
  let (c, s) := cmdNew s (cmdInit k (some (q, sqeCid b)) 9 i e s)
  let ops := ranges.flatMap (fun r => (partsOf c.exts r.1 r.2).flatMap (fun p => [0, 1].filterMap (fun l =>
    if legGood s p.1 l && !legRemote (legOf p.2.1 l) then some { legOp c l false p with len := 0 } else none)))
  let (l, s) := issueAll s c ops
  let c := { c with legs := l }
  sweepAll (judge (cmdPut s c) c .done)

/-- The ranges of a Dataset Management command: first LBA and length. -/
def dsmRanges (b d : Bytes) : List (Nat × Nat) :=
  (List.range (sqeDw b 10 % 256 + 1)).map (fun j => (leAt d (16 * j + 8) 8, leAt d (16 * j + 4) 4))

/-- DATASET_MANAGEMENT (R404): deallocation passed to usable local legs. -/
def nvDsm (s : State) (k q : Nat) (x data : RdRes) : State :=
  let len (b : Bytes) : Nat := 16 * (sqeDw b 10 % 256 + 1)
  let (go, s) := dataReach s k q x .ur len false
  if !go then s
  else nvFetch s k q 9 x (fun s b =>
    match nsFind s k (sqeNs b) with
    | none => nvDone s k q b nsBadNs 0
    | some (i, e) =>
      if nsRo e then nvDone s k q b nsReadOnly 0
      else if !bit (sqeDw b 11) 2 then nvDone s k q b nsOk 0
      else
        let s := dataTake s k b (len b) .xlate (some data)
        match data with
        | .ok d =>
          if (dsmRanges b d).any (fun r => r.1 + r.2 > nsSize e) then nvDone s k q b nsRange 0
          else runDsm s k q b i e (dsmRanges b d)
        | _ => nvDone s k q b nsXfer 0)

/-- NVM_FLUSH (R404). -/
def nvFlush (s : State) (k q : Nat) (x : RdRes) : State :=
  nvFetch s k q 0 x (fun s b =>
    match nsFind s k (sqeNs b) with
    | none => nvDone s k q b nsBadNs 0
    | some (i, e) => sweepAll (startFlush s k (some (q, sqeCid b)) i e))

/-! ## Admin commands -/

/-- Number of Queues granted (R396): 64 until the host asks for fewer. -/
def grantedSq (c : Ctrl) : Nat := if SMap.find? c.feat 7 = none then 64 else featGet c 7 % 65536 + 1
def grantedCq (c : Ctrl) : Nat := if SMap.find? c.feat 7 = none then 64 else featGet c 7 / 65536 + 1

def createSq (s : State) (k : Nat) (b : Bytes) : State × Nat :=
  let c := ctlGet s k
  let q := sqeDw b 10 % 65536
  let n := sqeDw b 10 / 65536
  let cq := sqeDw b 11 / 65536
  if q = 0 || q > grantedSq c || (SMap.find? c.sqs q).isSome then (s, nsBadQueue)
  else if n = 0 || n > 4095 then (s, nsQueueSize)
  else if !bit (sqeDw b 11) 0 then (s, nsBadField)
  else if cq = 0 || (SMap.find? c.cqs cq).isNone then (s, nsCqInvalid)
  else if sqePrp1 b % 4096 ≠ 0 then (s, nsBadPrp)
  else (ctlPut s k { c with sqs := SMap.ins c.sqs q { addr := sqePrp1 b, size := n + 1, head := 0, tail := 0, cq := cq } }, nsOk)

def createCq (s : State) (k : Nat) (b : Bytes) : State × Nat :=
  let c := ctlGet s k
  let q := sqeDw b 10 % 65536
  let n := sqeDw b 10 / 65536
  let iv := sqeDw b 11 / 65536
  if q = 0 || q > grantedCq c || (SMap.find? c.cqs q).isSome then (s, nsBadQueue)
  else if n = 0 || n > 4095 then (s, nsQueueSize)
  else if !bit (sqeDw b 11) 0 then (s, nsBadField)
  else if iv > 64 then (s, nsVector)
  else if sqePrp1 b % 4096 ≠ 0 then (s, nsBadPrp)
  else
    let x : NvCq := { addr := sqePrp1 b, size := n + 1, head := 0, tail := 0, phase := true, iv := iv, ien := bit (sqeDw b 11) 1, held := 0, wait := [] }
    (ctlPut s k { c with cqs := SMap.ins c.cqs q x }, nsOk)

/-- A queue's commands end with Command Aborted due to SQ Deletion; their results are discarded. -/
def abortQueue (s : State) (k q : Nat) : State :=
  (s.stg.cmds.filter (fun c => c.ctrl == k && (c.sq.map (·.1)) == some q && !c.posted && !c.discard)).foldl (fun s c =>
    let s := cmdPost s c nsSqDeleted
    putStg s { s.stg with cmds := s.stg.cmds.map (fun x => if x.id = c.id then { x with discard := true } else x) }) s

def deleteSq (s : State) (k : Nat) (b : Bytes) : State × Nat :=
  let q := sqeDw b 10 % 65536
  if q = 0 || (SMap.find? (ctlGet s k).sqs q).isNone then (s, nsBadQueue)
  else
    let s := abortQueue s k q
    (ctlMod s k (fun c => { c with sqs := SMap.del c.sqs q }), nsOk)

def deleteCq (s : State) (k : Nat) (b : Bytes) : State × Nat :=
  let q := sqeDw b 10 % 65536
  if q = 0 || (SMap.find? (ctlGet s k).cqs q).isNone then (s, nsBadQueue)
  else if (ctlGet s k).sqs.any (fun x => x.2.cq == q) then (s, nsQueueDel)
  else (ctlMod s k (fun c => { c with cqs := SMap.del c.cqs q }), nsOk)

/-- An admin command without data. -/
def adminPlain (s : State) (k op : Nat) (x : RdRes) (f : State → Bytes → State × Nat) : State :=
  nvFetch s k 0 op x (fun s b => let (s, st) := f s b; sweepAll (nvDone s k 0 b st 0))

/-- An admin command that returns data, written to the host's pages; an error is a status. -/
def adminData (s : State) (k op : Nat) (x list : RdRes) (h : NvHap) (f : State → Bytes → Except Nat (State × Bytes)) : State :=
  let len (b : Bytes) : Nat := match f s b with
    | .ok (_, d) => d.length
    | .error _ => 0
  let (go, s) := dataReach s k 0 x list len true
  if !go then s
  else nvFetch s k 0 op x (fun s b =>
    match f s b with
    | .error st => nvDone s k 0 b st 0
    | .ok (s, d) =>
      let s := dataTake s k b d.length list none
      match prpOf b d.length list with
      | .error st => nvDone s k 0 b st 0
      | .ok pages => if h == .hostFault then nvDone s k 0 b nsXfer 0 else nvDone (scatter s k pages 0 d false) k 0 b nsOk 0)

/-- The hexadecimal digits of a value, most significant first. -/
def hexDigits (n v : Nat) : Bytes :=
  (List.range n).map (fun i =>
    let d := v / 16 ^ (n - 1 - i) % 16
    byteOf (if d < 10 then 0x30 + d else 0x57 + d))

/-- R397: CNTLID. -/
def cntlid (k : Nat) : Nat := if k < 8 then 0x4000 + k else k - 8

/-- "nqn.2014-08.org.nvmexpress:uuid:" followed by a UUID. -/
def nqnBytes (u : Nat) : Bytes :=
  [0x6E, 0x71, 0x6E, 0x2E, 0x32, 0x30, 0x31, 0x34, 0x2D, 0x30, 0x38, 0x2E, 0x6F, 0x72, 0x67, 0x2E, 0x6E, 0x76, 0x6D, 0x65, 0x78, 0x70]
    ++ [0x72, 0x65, 0x73, 0x73, 0x3A, 0x75, 0x75, 0x69, 0x64, 0x3A]
    ++ hexDigits 8 (u / 2 ^ 96) ++ [0x2D] ++ hexDigits 4 (u / 2 ^ 80) ++ [0x2D] ++ hexDigits 4 (u / 2 ^ 64) ++ [0x2D]
    ++ hexDigits 4 (u / 2 ^ 48) ++ [0x2D] ++ hexDigits 12 (u % 2 ^ 48)

/-- Zero bytes with pieces written over them. -/
def pageOf (n : Nat) (l : List (Nat × Bytes)) : Bytes := l.foldl (fun p x => overlay p x.1 x.2) (List.replicate n 0)

/-- R396, R397: Identify Controller. -/
def identifyCtl (s : State) (k : Nat) : Bytes :=
  pageOf 4096
    [(0, [0x4E, 0xAC, 0x4E, 0xAC]), (4, hexDigits 16 Config.serial ++ hexDigits 4 (cntlid k)),
     (24, (List.range 48).map Config.nvmeModel), (77, [9]), (78, leBytes 2 (cntlid k)), (80, leBytes 4 0x00020000),
     (92, leBytes 4 0x100), (111, [1]), (258, [3, 3, 3, 2, 15]), (512, [0x66, 0x44]), (516, leBytes 4 32), (520, [0x0C]), (525, [1]),
     (768, nqnBytes (Config.nvmeUuid (ctlDom s k)))]

/-- Identify Namespace of an attached namespace. -/
def identifyNs (e : Bytes) : Bytes :=
  pageOf 4096 [(0, leBytes 8 (nsSize e)), (8, leBytes 8 (nsSize e)), (16, leBytes 8 (nsSize e)), (130, [byteOf (nsLbaLog e)])]

/-- IDENTIFY (R396, R397). -/
def identify (s : State) (k : Nat) (b : Bytes) : Except Nat (State × Bytes) :=
  let n := sqeNs b
  let csi := sqeDw b 11 / 2 ^ 24
  match sqeDw b 10 % 256 with
  | 0 => if n = 0 || n > 32 then .error nsBadNs else .ok (s, match nsFind s k n with | some (_, e) => identifyNs e | none => List.replicate 4096 0)
  | 1 => .ok (s, identifyCtl s k)
  | 2 =>
    if n ≥ 0xFFFFFFFE then .error nsBadNs
    else
      let ids := (List.range 33).filter (fun i => i > n && (nsFind s k i).isSome)
      .ok (s, pageOf 4096 [(0, ids.flatMap (leBytes 4))])
  | 3 =>
    match nsFind s k n with
    | none => .error nsBadNs
    | some (i, _) => .ok (s, pageOf 4096 [(0, [3, 16, 0, 0] ++ beBytes 16 (Config.nvmeUuid (1024 + i)) ++ [4, 1, 0, 0, 0])])
  | 5 => if csi ≠ 0 then .error nsBadField else if (nsFind s k n).isNone then .error nsBadNs else .ok (s, List.replicate 4096 0)
  | 6 => if csi ≠ 0 then .error nsBadField else .ok (s, List.replicate 4096 0)
  | _ => .error nsBadField

/-- R406: the highest junction temperature the Reeve reports, in kelvins. -/
def compositeTemp (s : State) : Nat :=
  let hi := (List.range 64).foldl (fun (a : Int) i => max a (toSigned 16 (s.rd R.REV_TEMP.FILT [i]))) (toSigned 16 (s.rd R.REV_TEMP.FILT [0]))
  (hi.fdiv 16 + 273).toNat

/-- R405: Critical Warning. -/
def criticalWarning (s : State) (k : Nat) : Nat := if (nsAttached s k).any (fun x => nsState s x.2 ≠ 1) then 4 else 0

/-- GET_LOG_PAGE (R396, R405, R406). -/
def getLog (s : State) (k : Nat) (b : Bytes) : Except Nat (State × Bytes) :=
  let c := ctlGet s k
  let len := (sqeDw b 10 / 65536 + sqeDw b 11 % 65536 * 65536 + 1) * 4
  let off := leAt b 48 8
  let rae := bit (sqeDw b 10) 15
  let unmask (t : Nat) (s : State) : State := if rae then s else eventPump (ctlMod s k (fun c => { c with masked := setBit c.masked t false })) k
  let give (s : State) (p : Bytes) : Except Nat (State × Bytes) :=
    if off > p.length || off % 4 ≠ 0 || len > 2 ^ 21 then .error nsBadField else .ok (s, slice p off len)
  match sqeDw b 10 % 256 with
  | 1 => give s (pageOf 1024 [(0, c.errs.flatMap id)])
  | 2 =>
    give (unmask 1 s) (pageOf 512 [(0, [byteOf (criticalWarning s k)] ++ leBytes 2 (compositeTemp s)),
      (32, leBytes 16 (ceilDiv c.unitsRd 1000) ++ leBytes 16 (ceilDiv c.unitsWr 1000) ++ leBytes 16 c.reads ++ leBytes 16 c.writes)])
  | 4 => give (unmask 2 (ctlMod s k (fun c => { c with changed := [] }))) (pageOf 4096 [(0, c.changed.flatMap (leBytes 4))])
  | 5 =>
    let eff (l : List Nat) (base : Nat) (v : Nat → Nat) : List (Nat × Bytes) := l.map (fun o => (base + 4 * o, leBytes 4 (v o)))
    give s (pageOf 4096 (eff adminOps 0 (fun _ => 1) ++ eff ioOps 1024 (fun o => if o = 1 || o = 8 || o = 9 then 3 else 1)))
  | _ => .error nsBadField

/-- ABORT (R396): the result's bit 0 is 0 where the command was aborted. -/
def nvAbort (s : State) (k : Nat) (x : RdRes) : State :=
  nvFetch s k 0 8 x (fun s b =>
    let q := sqeDw b 10 % 65536
    let cid := sqeDw b 10 / 65536
    match s.stg.cmds.find? (fun c => c.ctrl == k && c.sq == some (q, cid) && !c.posted && !c.discard) with
    | none => nvDone s k 0 b nsOk 1
    | some c =>
      let s := cmdPost s c nsAborted
      let s := putStg s { s.stg with cmds := s.stg.cmds.map (fun y => if y.id = c.id then { y with discard := true } else y) }
      sweepAll (nvDone s k 0 b nsOk 0))

/-- Features of R396. -/
def features : List Nat := [1, 2, 4, 5, 7, 8, 9, 0x0A, 0x0B]

/-- SET_FEATURES (R396). -/
def setFeature (s : State) (k : Nat) (b : Bytes) : State × Nat × Nat :=
  let c := ctlGet s k
  let f := sqeDw b 10 % 256
  let v := sqeDw b 11
  if !features.contains f then (s, nsBadField, 0)
  else if bit (sqeDw b 10) 31 then (s, nsNotSaveable, 0)
  else match f with
  | 2 => if v % 32 ≠ 0 then (s, nsBadField, 0) else (s, nsOk, 0)
  | 4 => if bits v 16 4 ≠ 0 || bits v 20 2 > 1 then (s, nsBadField, 0)
         else if bits v 20 2 = 1 then (ctlPut s k (featPut c 0x104 (v % 65536)), nsOk, 0) else (ctlPut s k (featPut c 4 (v % 65536)), nsOk, 0)
  | 7 =>
    if c.sqs.length > 1 || c.cqs.length > 1 then (s, nsSequence, 0)
    else if v % 65536 = 0xFFFF || v / 65536 = 0xFFFF then (s, nsBadField, 0)
    else
      let g := min (v % 65536) 63 + min (v / 65536) 63 * 65536
      (ctlPut s k { c with feat := SMap.ins c.feat 7 g }, nsOk, g)
  | 8 => (ctlPut s k (featPut c 8 (v % 65536)), nsOk, 0)
  | 9 => if v % 65536 > 64 then (s, nsBadField, 0) else (ctlPut s k (featPut c (0x900 + v % 65536) (bits v 16 1 * 65536)), nsOk, 0)
  | 0x0B => (eventPump (ctlPut s k (featPut c 0x0B (v &&& 0x11F))) k, nsOk, 0)
  | _ => (ctlPut s k (featPut c f v), nsOk, 0)

/-- GET_FEATURES (R396). -/
def getFeature (s : State) (k : Nat) (b : Bytes) : Nat × Nat :=
  let c := ctlGet s k
  let f := sqeDw b 10 % 256
  let sel := bits (sqeDw b 10) 8 3
  let v := sqeDw b 11
  if !features.contains f || sel > 3 then (nsBadField, 0)
  else if sel = 3 then (nsOk, if f = 2 then 0 else 4)
  else
    let cur (g : Nat) : Nat := if sel = 0 then featGet c g else featDefault g
    match f with
    | 7 => (nsOk, if sel = 0 then grantedSq c - 1 + (grantedCq c - 1) * 65536 else 63 + 63 * 65536)
    | 9 => if v % 65536 > 64 then (nsBadField, 0) else (nsOk, v % 65536 + cur (0x900 + v % 65536))
    | 4 => (nsOk, if bits v 20 2 = 1 then cur 0x104 else cur 4)
    | _ => (nsOk, cur f)

/-! ## Properties and doorbells -/

/-- CAP of R396. -/
def nvCap : Nat := 4095 + 2 ^ 16 + 60 * 2 ^ 24 + 2 ^ 37

/-- CSTS of a controller: RDY, CFS (1 while STG is off, R413), SHST. -/
def nvCsts (s : State) (k : Nat) : Nat :=
  let c := ctlGet s k
  b2n c.rdy + 2 * b2n (c.cfs || !s.flag R.STG_CFG.EN []) + 4 * c.shst

/-- A controller property read in 4-byte words. -/
def nvPropRead (s : State) (k off : Nat) : Nat :=
  let c := ctlGet s k
  match off with
  | 0x00 => nvCap % 2 ^ 32
  | 0x04 => nvCap / 2 ^ 32
  | 0x08 => 0x00020000
  | 0x0C => c.intm
  | 0x10 => c.intm
  | 0x14 => c.cc
  | 0x1C => nvCsts s k
  | 0x24 => c.aqa
  | 0x28 => c.asq % 2 ^ 32
  | 0x2C => c.asq / 2 ^ 32
  | 0x30 => c.acq % 2 ^ 32
  | 0x34 => c.acq / 2 ^ 32
  | _ => 0

/-- R407, R408: the results of a controller's commands are discarded; their drive and Carter work runs on. -/
def discardCmds (s : State) (k : Nat) : State :=
  putStg s { s.stg with cmds := s.stg.cmds.map (fun c => if c.ctrl = k then { c with discard := true, waits := [] } else c) }

/-- CC_WRITE: a write of the controller configuration (R407). -/
def ccWrite (s : State) (k v : Nat) : State :=
  let c := ctlGet s k
  let s1 := ctlPut s k { c with cc := v &&& 0x00FFFFF1 }
  let en := bit v 0
  let shn := bits v 14 2
  if !ctlExists s k then s
  else if en && !bit c.cc 0 then
    if !s.flag R.STG_CFG.EN [] || c.stop ≠ .no then s1
    else if bits v 4 3 ≠ 0 || bits v 7 4 ≠ 0 || bits v 11 3 ≠ 0 then ctlMod s1 k (fun c => { c with cfs := true })
    else
      let sq : NvSq := { addr := c.asq / 4096 * 4096, size := bits c.aqa 0 12 + 1, head := 0, tail := 0, cq := 0 }
      let cq : NvCq := { addr := c.acq / 4096 * 4096, size := bits c.aqa 16 12 + 1, head := 0, tail := 0, phase := true, iv := 0, ien := true, held := 0, wait := [] }
      ctlMod s1 k (fun c => { c with rdy := true, shst := 0, sqs := [(0, sq)], cqs := [(0, cq)] })
  else if !en && bit c.cc 0 then
    sweepAll (stopCheck (discardCmds (ctlMod s1 k (fun c => { c with stop := .disable, aers := [], events := [] })) k) k)
  else if en && (shn = 1 || shn = 2) && c.shst = 0 && c.rdy then
    sweepAll (stopCheck (discardCmds (ctlMod s1 k (fun c => { c with stop := .shutdown, shst := 1 })) k) k)
  else s1

/-- A write of a controller property in 4-byte words. -/
def nvPropWrite (s : State) (k off v : Nat) : State :=
  match off with
  | 0x0C => ctlMod s k (fun c => { c with intm := c.intm ||| v })
  | 0x10 => ctlMod s k (fun c => { c with intm := c.intm &&& (2 ^ 32 - 1 - v) })
  | 0x14 => ccWrite s k v
  | 0x24 => ctlMod s k (fun c => { c with aqa := v &&& 0x0FFF0FFF })
  | 0x28 => ctlMod s k (fun c => { c with asq := setBits c.asq 0 32 (v / 4096 * 4096) })
  | 0x2C => ctlMod s k (fun c => { c with asq := setBits c.asq 32 32 v })
  | 0x30 => ctlMod s k (fun c => { c with acq := setBits c.acq 0 32 (v / 4096 * 4096) })
  | 0x34 => ctlMod s k (fun c => { c with acq := setBits c.acq 32 32 v })
  | _ => s

/-- A submission queue's doorbell. -/
def sqBell (s : State) (k q v : Nat) : State :=
  match SMap.find? (ctlGet s k).sqs q with
  | none => s
  | some y => if !(ctlGet s k).rdy || v ≥ y.size then s else ctlMod s k (fun c => { c with sqs := SMap.ins c.sqs q { y with tail := v } })

/-- A completion queue's doorbell. -/
def cqBell (s : State) (k q v : Nat) : State :=
  match SMap.find? (ctlGet s k).cqs q with
  | none => s
  | some y =>
    if !(ctlGet s k).rdy || v ≥ y.size then s
    else cqPump (ctlMod s k (fun c => { c with cqs := SMap.ins c.cqs q { y with head := v } })) k q (y.wait.length + 1)

/-- R395: a 4-byte write into a controller's 16 KiB window. -/
def nvWindowWrite (s : State) (k off v : Nat) : State :=
  if !ctlExists s k then s
  else if off < 0x1000 then nvPropWrite s k off v
  else
    let i := (off - 0x1000) / 4
    if i % 2 = 0 then sqBell s k (i / 2) (v % 65536) else cqBell s k (i / 2) (v % 65536)

def nvWindowRead (s : State) (k off : Nat) : Nat := if ctlExists s k && off < 0x1000 then nvPropRead s k off else 0

/-- R408: a controller reset by FLR, PORT reset or an instance reset. -/
def ctlReset (s : State) (k : Nat) : State := sweepAll (ctlPut (discardCmds s k) k Ctrl.reset)

/-- R408: the controllers of PF3 of attach point `a`. -/
def ctlsOf (s : State) (a : Nat) : List Nat := (s.stg.ctrls.map (·.1)).filter (fun k => ctlAp s k == a)

/-- R408: BME of PF3 was cleared. -/
def ctlQuiesce (s : State) (a : Nat) : State := sweepAll ((ctlsOf s a).foldl discardCmds s)

/-- R408: FLR of PF3. -/
def ctlFlr (s : State) (a : Nat) : State := (ctlsOf s a).foldl ctlReset s

/-! ## Namespace and extent records -/

def refuseRec (s : State) (st : Nat) : RecRes := .fail (stgCount s 10) st

/-- R402: whether a leg could be used now, for a namespace entry that uses it. -/
def legUsable (s : State) (x : Bytes) (l : Nat) (e : Option Bytes) : Bool :=
  let g := legOf x l
  if legRemote g then
    match connGet s (legConn g) with
    | none => false
    | some c => c.st == .active && c.remote && (match e with | some e => c.dom == nsDom e | none => true)
  else
    rpSt s (legPort g) == rsOnline
      && (match SMap.find? (rpGet s (legPort g)).drv (legNs g) with
          | none => false
          | some d => (match e with | some e => d.lba == nsLba e | none => true) && decide (legBase g + extCount x ≤ d.size))

/-- R402: legs of extent `i` that cannot be used are failed from the start. -/
def legInit (s : State) (i : Nat) (e : Option Bytes) : State :=
  [0, 1].foldl (fun s l =>
    if legValid (legOf (extGet s i) l) && !legUsable s (extGet s i) l e && legGood s i l then
      stgCount (putStg s { s.stg with failed := SMap.set false s.stg.failed (2 * i + l) true }) 3
    else s) s

/-- R399, R400: whether a namespace entry with VALID 1 breaks its format. -/
def nsBad (s : State) (b : Bytes) : Bool :=
  let exts := (nsExts b).map (extGet s)
  let run := exts.foldl (fun (r : Bool × Nat) x => (r.1 && extStart x == r.2, r.2 + extCount x)) (true, 0)
  !(1 ≤ nsId b && nsId b ≤ 32) || nsSize b = 0 || nsCount b = 0 || nsCount b > 16
    || nsBase b + nsCount b > 262144 || !run.1 || run.2 ≠ nsSize b

/-- R400: the Namespace Attribute Changed event of a controller. -/
def nsChanged (s : State) (k nsid : Nat) : State :=
  let s := ctlMod s k (fun c => if !c.rdy || c.changed.contains nsid then c else { c with changed := (List.range 33).filter (fun i => i == nsid || c.changed.contains i) })
  eventRaise s k evNsChange

/-- R400, R402: entry `b` replaces namespace entry `i`; controllers are told of what changed. -/
def nsApply (s : State) (i : Nat) (b : Bytes) : State :=
  let old := nsGet s i
  let s := putStg s { s.stg with ns := SMap.set zeros64 s.stg.ns i b }
  let s := if nsValid b then (nsExts b).foldl (fun s e => legInit s e (some b)) s else s
  let s := if nsValid old && old ≠ b then nsChanged s (nsCtl old) (nsId old) else s
  let s := if nsValid b && old ≠ b && !(nsValid old && nsCtl old == nsCtl b && nsId old == nsId b) then nsChanged s (nsCtl b) (nsId b) else s
  if nsState s b ≥ 2 && old ≠ b then eventRaise s (nsCtl b) evSmart else s

/-- NS_WRITE of one record (R400). -/
def nsWriteRec (s : State) (r : Bytes) : RecRes :=
  let i := recIndex r
  let b := recObj r 64
  if i ≥ 65536 then refuseRec s stMalformed
  else if nsValid b && nsBad s b then refuseRec s stMalformed
  else if nsValid b && s.stg.ns.any (fun x => x.1 ≠ i && nsValid x.2 && nsCtl x.2 == nsCtl b && nsId x.2 == nsId b) then
    refuseRec s stExists
  else .ok (nsApply s i b) none

/-- R400: whether an extent entry breaks its format. -/
def extBad (b : Bytes) : Bool := !legValid (legOf b 0)

/-- R400, R402: entry `b` replaces extent entry `i`, both its legs good again where they can be used. -/
def extApply (s : State) (i : Nat) (b : Bytes) : State :=
  let users := nsUsing s i
  let before := s
  let s := putStg s { s.stg with ext := SMap.set zeros64 s.stg.ext i b, failed := SMap.del (SMap.del s.stg.failed (2 * i)) (2 * i + 1) }
  let s := if users = [] then legInit s i none else users.foldl (fun s x => legInit s i (some x.2)) s
  smartEvents before s users

/-- EXT_WRITE of one record (R400, R402). -/
def extWriteRec (s : State) (r : Bytes) : RecRes :=
  let i := recIndex r
  let b := recObj r 64
  if i ≥ 262144 || extBad b then refuseRec s stMalformed
  else
    let old := extGet s i
    if nsUsing s i ≠ [] && (extStart old ≠ extStart b || extCount old ≠ extCount b) then refuseRec s stMalformed
    else .ok (extApply s i b) none

/-- NS_READ of one record (R398). -/
def nsReadRec (s : State) (r : Bytes) : RecRes :=
  let i := recIndex r
  if i ≥ 65536 then refuseRec s stMalformed
  else
    let b := nsGet s i
    let failed := ((List.range (nsCount b)).flatMap (fun e => [(2 * e, legBad s (nsBase b + e) 0), (2 * e + 1, legBad s (nsBase b + e) 1)])).foldl
      (fun a x => if x.2 then a + 2 ^ x.1 else a) 0
    .ok s (some (8, [byteOf (nsState s b)] ++ [0, 0, 0] ++ leBytes 4 (if nsValid b then failed else 0)))

/-- R413: EN of STG_CFG written. -/
def stgEnable (s : State) (en : Bool) : State :=
  if !en || s.flag R.STG_CFG.EN [] then s.wr R.STG_CFG.EN [] (b2n en)
  else
    let area (q : Nat) : Nat × Nat := (s.rd R.STG_STAGE.BASE [q], s.rd R.STG_STAGE.SIZE [q])
    let refuse (c : Nat) : State := (s.wr R.STG_STATUS.CFG_ERR [] 1).wr R.STG_STATUS.ERR_CODE [] c
    if (List.range 4).any (fun q => (carAreas s q).any (fun a => overlaps a.1 a.2 (area q).1 (area q).2)) then refuse 1
    else if (List.range 4).any (fun q => (area q).1 + (area q).2 > 49152) then refuse 2
    else s.wr R.STG_CFG.EN [] 1

end Sys2Proof.Machine
end

