-- ==== Sys2Proof/Machine/DomOps.lean ====
section
/-! DEFINITION. Domains, instances and rings as the mailbox and the resets change them (R455 to R466, R473, R480).
Log entries 86, 87, 88, 90, 92. -/

namespace Sys2Proof.Machine

open Sys2Proof

/-- Mailbox status codes (R463). -/
def mbFwAbsent : Nat := 0x46

def domValid (s : State) (d : Nat) : Bool := s.flag R.DOM_DOMAIN_W0.VALID [d]
def instState (s : State) (i : Nat) : Nat := s.rd R.DOM_INST_W0.STATE [i]

/-- The instances that are not FREE and that `f` names. -/
def instsWhere (s : State) (f : Nat → Bool) : List Nat := (List.range 16384).filter (fun i => instState s i ≠ 0 && f i)

/-- The instances bound to a function (R457). -/
def instsOf (s : State) (a f : Nat) : List Nat :=
  instsWhere s (fun i => s.rd R.DOM_INST_W0.AP [i] == a && s.rd R.DOM_INST_W0.CLASS [i] == f)

/-- The instances of a domain. -/
def instsIn (s : State) (d : Nat) : List Nat := instsWhere s (fun i => s.rd R.DOM_INST_W0.DOMAIN [i] == d)

/-- The global numbers of the rings in existence that `f` names. -/
def ringsWhere (s : State) (f : Nat → Bool) : List Nat := (s.dom.rings.map (·.1)).filter (fun r => ringSt s r ≠ 0 && f r)

/-- R445, R465 step 2: the tags of an instance are orphaned; its requests that HIF has not issued are dropped. -/
def orphanInst (s : State) (i : Nat) : State :=
  let hit (t : Tag) : Tag := if t.inst = some i && t.st == .outstanding then { t with st := .orphaned } else t
  let mine (e : Stalled) : Bool := match e.src with
    | some (.inst j) => j == i
    | some (.store v) => (SMap.get IrqEnt.none s.hif.irq v).inst == i
    | _ => false
  let held := s.hif.held.filter (fun h => h.inst ≠ some i)
  syncTags { s with hif := { s.hif with tags := s.hif.tags.map hit, held := held,
                                           stalled := s.hif.stalled.filter (fun e => !mine e) } } (s.rd R.DOM_INST_W0.AP [i])

/-- R473: a ring ends: unstarted descriptors are dropped, work in flight finishes without completions, the binding of its queue
is released. -/
def destroyRing (s : State) (r : Nat) : State :=
  let gone (q : Req) : Bool := match q with | .desc x _ => x == r | .cpl x _ _ => x == r | .put x _ _ => x == r | _ => false
  let tag (t : Tag) : Tag := if gone t.req then { t with req := .other } else t
  let work (w : Work) : Work := match w.src with | .ring x _ _ => if x = r then { w with src := .stg (2 ^ 64) } else w | _ => w
  let bind (b : Binding) : Binding := if b.ent.ring = r then { b with ent := { b.ent with ring := 262144 } } else b
  let conns := SMap.mapVal (fun (c : Conn) => { c with binds := c.binds.map bind }) s.car.conns
  let kd (x : Destroy) : Destroy := if x.ring = r then { x with ring := 262144 } else x
  let owner := ringOwner s r
  let s := { s with
    hif := { s.hif with tags := s.hif.tags.map tag, held := s.hif.held.filter (fun h => !gone h.req) },
    car := { s.car with works := s.car.works.map work, conns := conns },
    lck := { s.lck with destroys := s.lck.destroys.map kd } }
  let d := ringDomain s r
  let s := s.sub R.DOM_RINGS.RINGS [] 1
  let s := s.sub R.DOM_DOMAIN_W1.RINGS [d] 1
  let s := if owner then s else s.sub R.DOM_INST_W3.RINGS [ringInst s r] 1
  let s := ((((s.wr R.DOM_RING_W0.STATE [r] 0).wr R.DOM_RING_W0.TYPE [r] 0).wr R.DOM_RING_W0.SIZE_LOG2 [r] 0).wr R.DOM_RING_W0.OWNER [r] 0).wr R.DOM_RING_W0.INSTANCE [r] 0
  let s := ((s.wr R.DOM_RING_W1.RING [r] 0).wr R.DOM_RING_W1.ARMED [r] 0).wr R.DOM_RING_W2.CI [r] 0
  let s := ((s.wr R.DOM_RING_W2.CPL_PI [r] 0).wr R.DOM_RING_W3.PI [r] 0).wr R.DOM_RING_W3.CPL_CI [r] 0
  { s with dom := { s.dom with rings := SMap.del s.dom.rings r } }

/-- R465 steps 1 to 5 of a reset or of the first part of a destruction. -/
def resetSteps (s : State) (i : Nat) : State :=
  let s := orphanInst s i
  let s := ctlReset (carCloseInst s i) (8 + i)
  let s := (ringsWhere s (fun r => !ringOwner s r && ringInst s r == i)).foldl destroyRing s
  let b := s.rd R.DOM_INST_W2.IRQ_BASE [i]
  let s := (List.range (s.rd R.DOM_INST_W2.NVEC [i])).foldl (fun s v =>
    irqPut s (b + v) { SMap.get IrqEnt.none s.hif.irq (b + v) with mask := true, pend := false }) s
  (List.range 8).foldl (fun s n => s.wr R.DOM_INST_CNT.COUNT [i, n] 0) s

/-- R464, R465: a reset or destruction of an instance starts, or joins the one in progress. -/
def beginReset (s : State) (i : Nat) (destroy : Bool) : State :=
  let st := instState s i
  if st = 0 || st = 5 then s
  else if st = 4 then (if destroy then s.wr R.DOM_INST_W0.STATE [i] 5 else s)
  else
    let s := resetSteps (s.wr R.DOM_INST_W0.STATE [i] (if destroy then 5 else 4)) i
    if destroy then s else s.inc R.DOM_CNT.COUNT [5]

/-- R465: QUIESCED of a function clears once Bus Master Enable is 1 and no instance has still to pass RESETTING. -/
def unquiesce (s : State) (a f : Nat) : State :=
  if quiesced s a f && busEn s a f && !s.hif.toPass.any (fun p => p.1 == a * 8 + f) then
    let s := s.wr R.HIF_FN_STATUS.QUIESCED [a, f] 0
    if s.rd R.HIF_FN_STATUS.REASON [a, f] = 1 then s.wr R.HIF_FN_STATUS.REASON [a, f] (if inD3 s a f then 2 else 0) else s
  else s

/-- R464: an instance becomes FREE. -/
def freeInst (s : State) (i : Nat) : State :=
  let d := s.rd R.DOM_INST_W0.DOMAIN [i]
  let n := s.rd R.DOM_INST_W2.NVEC [i]
  let b := s.rd R.DOM_INST_W2.IRQ_BASE [i]
  let s := (List.range n).foldl (fun s v => irqPut s (b + v) { SMap.get IrqEnt.none s.hif.irq (b + v) with valid := false }) s
  let s := ((s.sub R.DOM_IRQ.IRQ_USED [] n).sub R.DOM_USE.INSTANCES [] 1).sub R.DOM_DOMAIN_W0.INSTANCES [d] 1
  let s := (((s.wr R.DOM_INST_W0.STATE [i] 0).wr R.DOM_INST_W0.CLASS [i] 0).wr R.DOM_INST_W0.AP [i] 0).wr R.DOM_INST_W0.DOMAIN [i] 0
  let s := ((s.wr R.DOM_INST_W1.PASID [i] 0).wr R.DOM_INST_W1.PASID_EN [i] 0).wr R.DOM_INST_W3.RINGS [i] 0
  (s.wr R.DOM_INST_W2.IRQ_BASE [i] 0).wr R.DOM_INST_W2.NVEC [i] 0

/-! ## Mailbox -/

def slotMb (s : State) (k : Nat) : MbxSlot := SMap.get MbxSlot.reset s.dom.slots k
def slotMbPut (s : State) (k : Nat) (x : MbxSlot) : State :=
  { s with dom := { s.dom with slots := SMap.set MbxSlot.reset s.dom.slots k x } }

/-- R461: the header of a reply, and its results. -/
def mbReply (cmd : Bytes) (status : Nat) (res : Bytes) : Bytes :=
  slice (slice cmd 4 4 ++ [byteOf status, 0] ++ slice cmd 0 2 ++ (if status = 0 then res else [])) 0 256

/-- R460: REPLY is written, DONE set and BUSY cleared, and the vector sent. -/
def mbPost (s : State) (k : Nat) (reply : Bytes) : State :=
  let s := slotMbPut s k { slotMb s k with reply := reply, busy := false, done := true }
  if s.flag R.DOM_CFG.MBX_IRQ_EN [] then fireOwner s (s.rd R.DOM_CFG.MBX_VEC []) else s

/-- R460, R491: a command ends with a status and its results from byte 8. -/
def mbEnd (s : State) (c : MbxCmd) (status : Nat) (res : Bytes) : State :=
  let s := s.inc R.DOM_CNT.COUNT [0]
  let s := if status = stNoResource then s.inc R.DOM_CNT.COUNT [1] else if status ≠ 0 then s.inc R.DOM_CNT.COUNT [2] else s
  match c.slot with
  | some k => mbPost s k (mbReply c.cmd status res)
  | none => s

def mbOps : List Nat := [0x0001, 0x0002, 0x0003, 0x0010, 0x0011, 0x0012, 0x0013, 0x0014, 0x0020, 0x0021, 0x0022]

/-- R459, R460, R507: GO written to slot `k`. -/
def mbGo (s : State) (k : Nat) : State :=
  let x := slotMb s k
  if x.busy then s.inc R.DOM_CNT.COUNT [3]
  else if !s.flag R.DOM_STATUS.FW_READY [] then
    let s := s.inc R.DOM_CNT.COUNT [4]
    slotMbPut s k { x with reply := mbReply x.cmd mbFwAbsent [], done := true }
  else
    let s := latchEv (slotMbPut s k { x with busy := true, done := false }) (s.rd R.FIL_CFG.MBX_HART []) 50
    { s with dom := { s.dom with queue := s.dom.queue ++ [{ slot := some k, cmd := slice x.cmd 0 256 }] } }

/-- R460, R461: firmware takes the command at the front of the queue when its opcode is `op`; a reserved opcode ends with
MALFORMED. -/
def mbRun (s : State) (op : Nat) (run : State → MbxCmd → State) : State :=
  match s.dom.queue with
  | [] => s
  | c :: rest =>
    if s.dom.running.isSome then s
    else
      let o := leAt c.cmd 0 2
      let t := { s with dom := { s.dom with queue := rest } }
      if !mbOps.contains o then mbEnd t c stMalformed []
      else if o = op then run t c
      else s

/-- A command that ends at once with what `f` gives: a status, or results and a new state. -/
def mbNow (s : State) (op : Nat) (f : State → Bytes → Except Nat (State × Bytes)) : State :=
  mbRun s op (fun s c => match f s c.cmd with
    | .error st => mbEnd s c st []
    | .ok (s, res) => mbEnd s c 0 res)

/-- A command that runs until INSTANCE_RESET_COMPLETE ends it. -/
def mbLong (s : State) (op : Nat) (f : State → Bytes → Except Nat State) : State :=
  mbRun s op (fun s c => match f s c.cmd with
    | .error st => mbEnd s c st []
    | .ok s => { s with dom := { s.dom with running := some c } })

/-- DOM_CREATE (R462). -/
def domCreate (s : State) (c : Bytes) : Except Nat (State × Bytes) :=
  let d := leAt c 8 2
  let mi := leAt c 10 2
  let mr := leAt c 12 4
  if d = 0 || (1024 ≤ d && d ≠ 0xFFFF) || mi = 0 || mi > 16384 || mr = 0 || mr > 262144 then .error stMalformed
  else if d ≠ 0xFFFF && domValid s d then .error stExists
  else
    match if d ≠ 0xFFFF then some d else (List.range 1024).find? (fun e => e ≠ 0 && !domValid s e) with
    | none => .error stNoResource
    | some d =>
      let s := ((s.wr R.DOM_DOMAIN_W0.VALID [d] 1).wr R.DOM_DOMAIN_W2.MAX_INST [d] mi).wr R.DOM_DOMAIN_W3.MAX_RINGS [d] mr
      .ok (s.inc R.DOM_STATUS.DOMAINS [], leBytes 2 d ++ List.replicate 6 0 ++ leBytes 8 (bindOf s d))

/-- R456 steps 2 and 3: the domain's slots are zeroized, its BIND drawn anew, and it is FREE. -/
def freeDomain (s : State) (d : Nat) : State :=
  let s := rangeWrite s d (s.rd R.LCK_DOM_W0.BASE [d]) 0
  let s := ((s.wr R.DOM_DOMAIN_W0.VALID [d] 0).wr R.DOM_DOMAIN_W2.MAX_INST [d] 0).wr R.DOM_DOMAIN_W3.MAX_RINGS [d] 0
  s.sub R.DOM_STATUS.DOMAINS [] 1

/-- DOM_DESTROY (R456, R462). -/
def domDestroy (s : State) : State :=
  mbRun s 0x0002 (fun s c =>
    let d := leAt c.cmd 8 2
    let l := instsIn s d
    if d = 0 || d > 1023 then mbEnd s c stMalformed []
    else if !domValid s d then mbEnd s c stNotFound []
    else if !bit (byteAt c.cmd 10) 0 && l ≠ [] then mbEnd s c stBusy []
    else if l = [] then mbEnd (freeDomain s d) c 0 []
    else
      let s := l.foldl (fun s i => beginReset s i true) s
      { s with dom := { s.dom with running := some c } })

/-- DOM_QUERY (R462). -/
def domQuery (s : State) (c : Bytes) : Except Nat (State × Bytes) :=
  let d := leAt c 8 2
  if d ≥ 1024 then .error stMalformed
  else .ok (s, [byteOf (b2n (domValid s d)), 0] ++ leBytes 2 (s.rd R.DOM_DOMAIN_W0.INSTANCES [d])
    ++ leBytes 4 (s.rd R.DOM_DOMAIN_W1.RINGS [d]) ++ leBytes 8 (bindOf s d))

/-- R458: whether another domain's instance on the function bears the PASID. -/
def pasidClash (s : State) (a f d pasid : Nat) : Bool :=
  (instsOf s a f).any (fun i => s.flag R.DOM_INST_W1.PASID_EN [i] && s.rd R.DOM_INST_W1.PASID [i] == pasid
    && s.rd R.DOM_INST_W0.DOMAIN [i] ≠ d)

/-- INST_CREATE (R457, R458, R462, R464). -/
def instCreate (s : State) (c : Bytes) : Except Nat (State × Bytes) :=
  let d := leAt c 8 2
  let cls := byteAt c 10
  let a := byteAt c 11
  let pw := leAt c 12 4
  let pasid := pw % 2 ^ 20
  let pen := bit pw 31
  let nv := leAt c 16 2
  let want := leAt c 18 2
  if d ≥ 1024 || !(1 ≤ cls && cls ≤ 3) || !apPresent s a || nv = 0 || nv > (if cls = 3 then 65 else 2048)
      || (want ≥ 16384 && want ≠ 0xFFFF) then .error stMalformed
  else if !domValid s d then .error stNotFound
  else if (want ≠ 0xFFFF && instState s want ≠ 0) || (pen && pasidClash s a cls d pasid) then .error stExists
  else
    let used := (instsWhere s (fun _ => true)).map (fun i => (s.rd R.DOM_INST_W2.IRQ_BASE [i], s.rd R.DOM_INST_W2.NVEC [i]))
    match (if want ≠ 0xFFFF then some want else (List.range 16384).find? (fun i => instState s i == 0)), areaFit 0 65536 nv used with
    | some i, some b =>
      if s.rd R.DOM_DOMAIN_W0.INSTANCES [d] ≥ s.rd R.DOM_DOMAIN_W2.MAX_INST [d] then .error stNoResource
      else
        let s := (((s.wr R.DOM_INST_W0.STATE [i] 1).wr R.DOM_INST_W0.CLASS [i] cls).wr R.DOM_INST_W0.AP [i] a).wr R.DOM_INST_W0.DOMAIN [i] d
        let s := (s.wr R.DOM_INST_W1.PASID [i] pasid).wr R.DOM_INST_W1.PASID_EN [i] (b2n pen)
        let s := (s.wr R.DOM_INST_W2.IRQ_BASE [i] b).wr R.DOM_INST_W2.NVEC [i] nv
        let s := ((s.add R.DOM_IRQ.IRQ_USED [] nv).inc R.DOM_USE.INSTANCES []).inc R.DOM_DOMAIN_W0.INSTANCES [d]
        let s := (List.range nv).foldl (fun s v =>
          irqPut s (b + v) { addr := 0, data := 0, valid := true, mask := true, pend := false, ap := a, func := cls, inst := i }) s
        .ok (s, leBytes 2 i ++ [0, 0] ++ leBytes 2 b)
    | _, _ => .error stNoResource

/-- BAD_STATE (R327). -/
def stBadState : Nat := 0x04

/-- INST_DESTROY and INST_RESET (R462, R464). -/
def instDestroy (s : State) (c : Bytes) : Except Nat State :=
  let i := leAt c 8 2
  if i ≥ 16384 then .error stMalformed else if instState s i = 0 then .error stNotFound else .ok (beginReset s i true)

def instReset (s : State) (c : Bytes) : Except Nat State :=
  let i := leAt c 8 2
  if i ≥ 16384 then .error stMalformed
  else if instState s i = 0 then .error stNotFound
  else if instState s i = 5 then .error stBadState
  else .ok (beginReset s i false)

/-- INST_QUERY (R462). -/
def instQuery (s : State) (c : Bytes) : Except Nat (State × Bytes) :=
  let i := leAt c 8 2
  if i ≥ 16384 then .error stMalformed
  else .ok (s, [byteOf (instState s i), byteOf (s.rd R.DOM_INST_W0.CLASS [i]), byteOf (s.rd R.DOM_INST_W0.AP [i]), 0]
    ++ leBytes 4 (s.rd R.DOM_INST_W1.PASID [i] + 2 ^ 31 * s.rd R.DOM_INST_W1.PASID_EN [i])
    ++ leBytes 2 (s.rd R.DOM_INST_W2.IRQ_BASE [i]) ++ leBytes 2 (s.rd R.DOM_INST_W2.NVEC [i])
    ++ leBytes 2 (s.rd R.DOM_INST_W3.RINGS [i]) ++ leBytes 2 (s.rd R.DOM_INST_W0.DOMAIN [i]))

/-- IRQ_WRITE (R450, R462); an entry whose message nothing holds any longer sends it (R432). -/
def irqWrite (s : State) (c : Bytes) : Except Nat (State × Bytes) :=
  let i := leAt c 8 2
  let v := leAt c 10 2
  let st := instState s i
  if i ≥ 16384 || leAt c 16 8 % 4 ≠ 0 || (st ≠ 0 && v ≥ s.rd R.DOM_INST_W2.NVEC [i]) then .error stMalformed
  else if st = 0 then .error stNotFound
  else if st = 4 || st = 5 then .error stBadState
  else
    let n := s.rd R.DOM_INST_W2.IRQ_BASE [i] + v
    let e := SMap.get IrqEnt.none s.hif.irq n
    .ok (irqPut s n { e with addr := leAt c 16 8, data := leAt c 24 4, mask := bit (byteAt c 12) 0 }, [])

/-- R466: the ring types a class, or the owner (class 0), may hold. -/
def typeAllowed (cls ty : Nat) : Bool :=
  match cls with
  | 0 => ty = 0 || ty = 1 || ty = 4 || ty = 5
  | 1 => ty = 0 || ty = 1 || ty = 4
  | 2 => ty = 2 || ty = 3 || ty = 4
  | _ => false

/-- The ring that a RING command names: owner flag, instance, ring number. -/
def rcOwner (c : Bytes) : Bool := bit (byteAt c 10) 0
def rcInst (c : Bytes) : Nat := leAt c 8 2
def rcRing (c : Bytes) : Nat := leAt c 12 2
def rcVector (c : Bytes) : Nat := leAt c 32 2
def rcUsec (c : Bytes) : Nat := leAt c 36 2 % 1024

/-- Whether the numbers that name a ring are reserved. -/
def rcBad (c : Bytes) : Bool := if rcOwner c then rcRing c > 63 else rcInst c ≥ 16384 || rcRing c > 4095

/-- Whether a vector lies outside its owner's vectors. -/
def rcVecBad (s : State) (c : Bytes) : Bool :=
  rcVector c ≠ 0xFFFF && decide (rcVector c ≥ (if rcOwner c then 2048 else s.rd R.DOM_INST_W2.NVEC [rcInst c]))

/-- RING_CREATE (R462, R466, R473, R479). -/
def ringCreate (s : State) (c : Bytes) : Except Nat (State × Bytes) :=
  let own := rcOwner c
  let i := if own then 0 else rcInst c
  let ty := byteAt c 11
  let sz := byteAt c 14
  let q := leAt c 40 2
  let free := !own && instState s (rcInst c) = 0
  let cls := if own then 0 else s.rd R.DOM_INST_W0.CLASS [i]
  let ap := if own then ownerAp s else s.rd R.DOM_INST_W0.AP [i]
  let d := if own then 0 else s.rd R.DOM_INST_W0.DOMAIN [i]
  let bad := rcBad c || ty > 5 || sz < 6 || sz > 16 || leAt c 16 8 % 4096 ≠ 0 || leAt c 24 8 % 4096 ≠ 0
  let bad2 := !free && (!typeAllowed cls ty || rcVecBad s c || (ty = 1 && queueEp s q ≠ some (128 + ap)))
  if bad || bad2 then .error stMalformed
  else if free then .error stNotFound
  else if !own && instState s i ≠ 1 then .error stBadState
  else if (findRing s own i (rcRing c)).isSome || (ty = 1 && (ringsWhere s (fun r => ringType s r == 1 && (ringGet s r).queue == q)) ≠ []) then
    .error stExists
  else if s.rd R.DOM_RINGS.RINGS [] ≥ 262144 || s.rd R.DOM_DOMAIN_W1.RINGS [d] ≥ s.rd R.DOM_DOMAIN_W3.MAX_RINGS [d]
      || (own && decide ((ringsWhere s (ringOwner s)).length ≥ 64)) then .error stNoResource
  else
    match (List.range 262144).find? (fun r => ringSt s r == 0) with
    | none => .error stNoResource
    | some r =>
      let x : Ring := { Ring.none with
        descAddr := leAt c 16 8, cplAddr := leAt c 24 8, vector := rcVector c, modCnt := byteAt c 34, autoArm := bit (byteAt c 35) 0,
        modUsec := rcUsec c, profile := byteAt c 38 % 64, tc := byteAt c 39 % 8, queue := q }
      let s := ringPut s r x
      let s := (((s.wr R.DOM_RING_W0.STATE [r] rsRunning).wr R.DOM_RING_W0.TYPE [r] ty).wr R.DOM_RING_W0.SIZE_LOG2 [r] sz).wr R.DOM_RING_W0.OWNER [r] (b2n own)
      let s := ((s.wr R.DOM_RING_W0.INSTANCE [r] i).wr R.DOM_RING_W1.RING [r] (rcRing c)).wr R.DOM_RING_W1.ARMED [r] 0
      let s := (((s.wr R.DOM_RING_W2.CI [r] 0).wr R.DOM_RING_W2.CPL_PI [r] 0).wr R.DOM_RING_W3.PI [r] 0).wr R.DOM_RING_W3.CPL_CI [r] 0
      let s := (s.inc R.DOM_RINGS.RINGS []).inc R.DOM_DOMAIN_W1.RINGS [d]
      .ok (if own then s else s.inc R.DOM_INST_W3.RINGS [i], leBytes 4 r)

/-- RING_DESTROY (R462, R473). -/
def ringDestroyCmd (s : State) (c : Bytes) : Except Nat (State × Bytes) :=
  if rcBad c then .error stMalformed
  else
    match findRing s (rcOwner c) (rcInst c) (rcRing c) with
    | none => .error stNotFound
    | some r =>
      if s.car.conns.any (fun x => x.2.recvRing == r && x.2.st ≠ .allocated && ringType s r == 3) then .error stBusy
      else .ok (destroyRing s r, [])

/-- RING_MODIFY (R462). -/
def ringModify (s : State) (c : Bytes) : Except Nat (State × Bytes) :=
  if rcBad c || ((rcOwner c || instState s (rcInst c) ≠ 0) && rcVecBad s c) then .error stMalformed
  else
    match findRing s (rcOwner c) (rcInst c) (rcRing c) with
    | none => .error stNotFound
    | some r => .ok (ringPut s r { ringGet s r with change := some (rcVector c, byteAt c 34, bit (byteAt c 35) 0, rcUsec c) }, [])

/-- R464, R465: the steps of a reset or destruction of instance `i` have completed; the mailbox command that waits for it
ends. -/
def resetComplete (s : State) (i : Nat) : State :=
  let st := instState s i
  if st ≠ 4 && st ≠ 5 then s
  else
    let a := s.rd R.DOM_INST_W0.AP [i]
    let f := s.rd R.DOM_INST_W0.CLASS [i]
    let s := if st = 5 then freeInst s i else s.wr R.DOM_INST_W0.STATE [i] 1
    let s := { s with hif := { s.hif with toPass := s.hif.toPass.filter (fun p => p ≠ (a * 8 + f, i)) } }
    let s := unquiesce s a f
    match s.dom.running with
    | none => s
    | some c =>
      let o := leAt c.cmd 0 2
      let s' := { s with dom := { s.dom with running := none } }
      if o = 0x0012 && leAt c.cmd 8 2 = i then mbEnd s' c 0 []
      else if o = 0x0011 && leAt c.cmd 8 2 = i && st = 5 then mbEnd s' c 0 []
      else if o = 0x0002 && instsIn s (leAt c.cmd 8 2) = [] then mbEnd (freeDomain s' (leAt c.cmd 8 2)) c 0 []
      else s

end Sys2Proof.Machine
end

