-- ==== Sys2Proof/Machine/EgressOps.lean ====
section
/-! DEFINITION. Egress: selection, the start of a transmission, gate lists, received pauses, deliveries to Filbert (R143,
R182, R186 to R191, R218 to R223, R231 to R239, R679).
Log entries 14, 48, 65, 99, 149, 160, 171, 180. -/

namespace Sys2Proof.Machine

open Sys2Proof

/-- R218: an egress point without a selected frame selects one. -/
def egressSelect (s : State) (e : Nat) : State :=
  if (SMap.find? s.tly.sel e).isSome then s
  else
    match choose s e with
    | none => s
    | some x => { s with tly := { s.tly with sel := SMap.ins s.tly.sel e x } }

/-- R234: whether a selected frame lost its eligibility to its gate. -/
def gateDeferred (s : State) (e : Nat) (x : Sel) : Bool :=
  e < 128 &&
    (match queueList s x.q with
     | y :: _ =>
       let tc := (tQueue s x.q).tc
       !gateOpen s e tc || !gateFits s e tc (egressLen s e (edited s y).buf.length)
     | [] => false)

/-- R220: a displaced frame returns to its queue, and the egress point selects again. A cut-through frame is never
displaced (R241). -/
def displace (s : State) (e : Nat) : State :=
  match SMap.find? s.tly.sel e with
  | none => s
  | some x =>
    let ct := ((queueList s x.q).head?.map (·.ct)).getD false
    if ct || !displaced s e x then s
    else
      let s := s.inc R.TLY_EP_CNT.COUNT [e, 2]
      let s := if gateDeferred s e x then s.inc R.TLY_EP_CNT.COUNT [e, 3] else s
      egressSelect { s with tly := { s.tly with sel := SMap.del s.tly.sel e } } e

/-- Zero bytes up to 60 (R143). -/
def pad60 (b : Bytes) : Bytes := b ++ List.replicate (60 - b.length) 0

/-- R219: the heads that follow a dequeue from queue `q`, up its path. -/
def newHeads (s : State) (e q : Nat) : State :=
  ((queuePath s q).filter (fun k => decide (256 ≤ k))).foldl (fun s k => if busyKey s 6 k then onNewHead s e k else s) s

/-- The ingress stamp that PTP treatment uses (R542, R543): the port of entry, and the link delay after a stack hop. -/
def ptpIngress (s : State) (p : Pkt) : Option (Nat × Nat) × Int :=
  match p.port, p.hop with
  | some i, _ => (some (i, p.raw), 0)
  | none, some j =>
    (some (8 * linkOctet s j, p.raw), ((s.rd R.TU_STK_LINK.DELAY [j] * 256 : Nat) : Int))
  | none, none => (none, 0)

/-- R189: the egress mirror copy of a transmitted frame. -/
def egressMirror (s : State) (e : Nat) (f : GFrame) (x : QEnt) (data : Bytes) : State :=
  let m := s.rd R.GRN_PORT_W0.EMIR [e]
  if m = 0 || f.pkt.fault.isSome || x.bad then s
  else makeCopy s { f with pkt := { f.pkt with data := data } } m 1 e

/-- R234, R240: whether a port's transmitter can take a frame now: idle with no remainder waiting, or for an express frame also
over a remainder, or over a preemptable frame that can be cut now (R68). -/
def txFree (s : State) (e : Nat) (express : Bool) : Bool :=
  match SMap.find? s.eth.tx e with
  | none => true
  | some t =>
    if t.upTo ≤ s.now then t.held.isNone || express
    else express && (match cutPoint s e t with
      | some n => n == (s.now - t.since) * epRate s e / 80 - 8
      | none => false)

/-- A frame takes the transmitter of a port: one that preempts another leaves a remainder behind it. -/
def takeTx (s : State) (e tc : Nat) (express : Bool) (data : Bytes) : State :=
  let new (held : Option TxCut) : TxNow :=
    { tc := tc, express := express, data := data, sent := 0, since := s.now,
      upTo := s.now + wireTime s e (data.length + 4), held := held }
  match SMap.find? s.eth.tx e with
  | none => setTx s e (new none)
  | some t =>
    match cutPoint s e t with
    | some n =>
      let (s, c) := cutTx s e t n
      setTx s e (new (some c))
    | none => setTx s e (new t.held)

/-- R250, R254: the transmit stamp that ETH writes into the CTH of a Carter frame, and over IPv6 the UDP checksum after it. -/
def carterStamp (s : State) (e : Nat) (fec : Bool) (p : Pkt) (f : Bytes) : State × Bytes :=
  if !p.cth then (s, f)
  else
    match udpFind f with
    | none => (s, f)
    | some (ip, u, v6) =>
      let (t, s) := txStamp s e fec
      let t := withAsym s e t
      let f := overlay f (u + 8 + 24) (beBytes 4 (tsSec t) ++ beBytes 4 (tsNs t))
      if v6 then
        let n := beAt f (u + 4) 2
        let f := overlay f (u + 6) [0, 0]
        let c := 65535 - fold16 (sum16 (slice f (ip + 8) 32 ++ beBytes 4 n ++ beBytes 4 17 ++ slice f u n) false)
        (s, overlay f (u + 6) (beBytes 2 (if c = 0 then 65535 else c)))
      else (s, f)

/-- R77, R143, R186, R187: the frame put on the wire of Ethernet port `e`; `under` says that a cell was not written in time. An
underrun counts at GRN_PORT_CNT index 8 only: DESIGN CHOICE, log entry 160. -/
def ethTransmit (s : State) (e q : Nat) (express : Bool) (f : GFrame) (x : QEnt) (ed : EditSt) (under : Bool) : State :=
  let c := portCfg s e
  let data := pad60 ed.buf
  let long := data.length + 4 > c.maxFrame
  let s := if long then winCount s 9 else s
  let (ing, hop) := ptpIngress s f.pkt
  match ptpEgress s e (c.fec ≠ 0) ing hop data with
  | (s, none) => s
  | (s, some data) =>
    let (s, data) := carterStamp s e (c.fec ≠ 0) f.pkt data
    let data := if long then data.take (c.maxFrame - 4) else data
    let poison := f.bad ≠ []
    let late := x.ct && under
    let s := if poison then ethCount s e 9 1 else s
    let s := if x.bad || long then (ethCount s e 10 1).inc R.GRN_PORT_CNT.COUNT [e, 7] else s
    let s := match x.bad, f.pkt.port with
      | true, some i => s.inc R.GRN_PORT_CNT.COUNT [i, 12]
      | _, _ => s
    let s := if late then s.inc R.GRN_PORT_CNT.COUNT [e, 8] else s
    let s := (takeTx s e (tQueue s q).tc express data).emit (.frame e data (poison || x.bad || long || late))
    let s := ethCount (ethCount s e 7 1) e 8 (data.length + 4)
    egressMirror s e f x ed.buf

/-- R79, R95: a frame on a Sahrov egress point waits for room and credit on its link. -/
def sahrovTransmit (s : State) (e q : Nat) (f : GFrame) (x : QEnt) (ed : EditSt) : State :=
  match linkOf s (e / 8) with
  | none => s
  | some j =>
    let (ing, hop) := ptpIngress s f.pkt
    match ptpEgress s e true ing hop ed.buf with
    | (s, none) => s
    | (s, some data) =>
      let (s, data) := carterStamp s e true f.pkt data
      let p := padUnit data
      let dest := SMap.get 0xFFFF s.stk.dest q
      let h := dataHeader s j (f.bad ≠ []) f.tc f.pkt.hash f.pkt.domain dest p.length f.pkt.origin
      let s := linkQueue s j (f.tc % 8) (h ++ p)
      let s := ethCount (ethCount s e 7 1) e 8 (p.length + 4)
      egressMirror s e f x ed.buf

/-- R213, R479: a frame dequeued for a host attach point. -/
def hostTransmit (s : State) (e q : Nat) (f : GFrame) (x : QEnt) (ed : EditSt) : State :=
  let h : HostFrame := { q := q, data := ed.buf, tc := f.tc, hash := f.pkt.hash, ts := f.pkt.ts, exc := f.exc,
                         origin := f.pkt.origin, poison := f.bad ≠ [], pipe := hashPipe s (srcHash (.queue q)), ap := e - 128 }
  egressMirror { s with grn := { s.grn with host := s.grn.host ++ [h] } } e f x ed.buf

/-- R143, R542: whether a stored frame is dropped at egress instead of being transmitted: one over MAX_FRAME after editing, or a
peer delay message at a peer-to-peer transparent clock. -/
def egressDrop (s : State) (e : Nat) (f : GFrame) (x : QEnt) (ed : EditSt) : Bool :=
  e < 128 &&
    ((!isSahrov s (e / 8) && !x.ct && decide ((pad60 ed.buf).length + 4 > (portCfg s e).maxFrame))
      || ptpStops s e (ptpIngress s f.pkt).1 (if isSahrov s (e / 8) then ed.buf else pad60 ed.buf))

/-- R143: the selected frame of egress point `e` dropped at egress: nothing is transmitted and nothing charged; the next heads take
its place. -/
def dropAtEgress (s : State) (e : Nat) (sel : Sel) (x : QEnt) (rest : List QEnt) (ed : EditSt) : State :=
  let s := { s with tly := { s.tly with sel := SMap.del s.tly.sel e } }
  let s := (s.add R.WIN_GLB_CNT.COUNT [8] ed.skips)
  let s := if !isSahrov s (e / 8) && decide ((pad60 ed.buf).length + 4 > (portCfg s e).maxFrame) then winCount s 9 else s
  let s := releaseEnt (setQueue s sel.q rest) sel.q e x.fid
  ((queuePath s sel.q).filter (fun k => decide (256 ≤ k))).foldl (fun s k => retag s e k) s

/-- R223: egress point `e` counts and charges a frame that it starts, and frees it from its queue. -/
def startFrame (s : State) (e : Nat) (sel : Sel) (x : QEnt) (rest : List QEnt) (ed : EditSt) : State :=
  let len := shapeLen s e (egressLen s e ed.buf.length)
  let s := { s with tly := { s.tly with sel := SMap.del s.tly.sel e } }
  let s := (s.inc R.TLY_EP_CNT.COUNT [e, 0]).add R.TLY_EP_CNT.COUNT [e, 1] len
  let s := charge (onStart s sel len) sel.q len
  let s := s.add R.WIN_GLB_CNT.COUNT [8] ed.skips
  let s := releaseEnt (setQueue s sel.q rest) sel.q e x.fid
  newHeads s e sel.q

/-- R217, R219, R223: the first byte of the selected frame of egress point `e` is transmitted. A frame whose own eligibility has
ended does not start (R220, R234); a cut-through frame goes on (R241). -/
def transmitStart (s : State) (e : Nat) (under : Bool) : State :=
  let s := txSettle s e
  match SMap.find? s.tly.sel e with
  | none => s
  | some sel =>
    let tc := (tQueue s sel.q).tc
    let eth := e < 128 && !isSahrov s (e / 8)
    let express := isExpress s e tc || !preemptOn s e
    match queueList s sel.q with
    | [] => { s with tly := { s.tly with sel := SMap.del s.tly.sel e } }
    | x :: rest =>
      if !epReady s e || (!x.ct && !selElig s e sel) || (eth && !txFree s e express) then s
      else
        let f := gframe s x.fid
        let ed := edited s x
        if egressDrop s e f x ed then dropAtEgress s e sel x rest ed
        else
          let s := startFrame s e sel x rest ed
          if e ≥ 128 then hostTransmit s e sel.q f x ed
          else if isSahrov s (e / 8) then sahrovTransmit s e sel.q f x ed
          else ethTransmit s e sel.q express f x ed under

/-- R182: PFC sent again while XOFF stays set. -/
def pfcRefresh (s : State) (a pri : Nat) : State :=
  if xoff s a pri then sendPfc s a pri (s.rd R.GRN_PFC_PROF_W3.QUANTA [pfcProf s a]) else s

/-- R67: a received PFC or PAUSE frame: `stop` names the priorities with quanta, `go` those with quanta 0. -/
def pauseArrive (s : State) (p : Nat) (pause : Bool) (stop go : Nat) : State :=
  if isSahrov s (p / 8) then s
  else if portState s p ≠ epUp then ethCount s p 24 1
  else
    let c := portCfg s p
    let s := ethCount s p 16 1
    if (if pause then c.pause else c.pfc) then
      let cur := s.rd R.TLY_EP_W2.PAUSED [p]
      let (stop, go) := if pause then (if stop = 0 then (0, 255) else (255, 0)) else (stop % 256, go % 256)
      s.wr R.TLY_EP_W2.PAUSED [p] (Nat.lor (Nat.land cur (255 - go)) stop)
    else s

/-- R67: the quanta of a priority, or of a PAUSE, run out. -/
def pauseEnd (s : State) (p pri : Nat) : State :=
  s.wr R.TLY_EP_W2.PAUSED [p] (if (portCfg s p).pause then 0 else setBit (s.rd R.TLY_EP_W2.PAUSED [p]) pri false)

/-- R232: the next entry of an operational list, or entry 0 at a cycle boundary. -/
def gateEvent (s : State) (e : Nat) (boundary : Bool) : State :=
  match SMap.find? s.tly.oper e with
  | none => s
  | some o =>
    if !s.flag R.TLY_GATE.EN [e] then s
    else
      let i := s.rd R.TLY_GATE_OPER.OPER_INDEX [e]
      if boundary then gateTx (gateApply s e 0) e
      else if i + 1 < o.len then gateTx (gateApply s e (i + 1)) e
      else s

/-- R236: the code of the first check that a change fails; 0 where none does. -/
def gateCheck (s : State) (e : Nat) : Nat :=
  let n := s.rd R.TLY_GATE_LEN.ADMIN_LEN [e]
  if n = 0 || n > 1024 then 1
  else if s.rd R.TLY_GATE_CYCLE.CYCLE_NS [e] < 1000 then 2
  else if (List.range n).any (fun i =>
    let g := gateEnt s e (1 - operSel s e) i
    gateOp g == 3 || decide (gateNs g < 16)) then 3
  else if !s.flag R.TLY_GATE.EN [e] then 4
  else 0

/-- R237: the config change time of a base and a cycle (ns) at TU time `t` (2^-32 ns), with the number of projections. -/
def gateCct (base cycle t : Nat) : Nat × Nat :=
  let u := 2 ^ 32
  let lo := t + 2000 * u
  let n := if base * u ≥ lo then 0 else ceilDiv (lo - base * u) (cycle * u)
  (base + n * cycle, n)

/-- R236, R237: a write of 1 to CHANGE. -/
def gateChange (s : State) (e : Nat) : State :=
  if s.flag R.TLY_GATE.PENDING [e] then s
  else
    match gateCheck s e with
    | 0 =>
      let base := (s.rd R.TLY_GATE_BASE_SEC_LO.BASE_SEC_LO [e] + 2 ^ 32 * s.rd R.TLY_GATE_BASE_SEC_HI.BASE_SEC_HI [e])
        * 1000000000 + s.rd R.TLY_GATE_BASE_NS.BASE_NS [e]
      let cycle := s.rd R.TLY_GATE_CYCLE.CYCLE_NS [e]
      let (t, n) := gateCct base cycle s.tu.t
      let o : Oper := { len := s.rd R.TLY_GATE_LEN.ADMIN_LEN [e], base := t, cycle := cycle }
      let s := { s with tly := { s.tly with pendOper := SMap.ins s.tly.pendOper e o } }
      let s := if n > 0 then s.inc R.TLY_CNT.COUNT [4] else s
      let s := s.wr R.TLY_GATE_CCT_NS.CCT_NS [e] (t % 1000000000)
      let s := s.wr R.TLY_GATE_CCT_SEC_LO.CCT_SEC_LO [e] (t / 1000000000 % 2 ^ 32)
      let s := s.wr R.TLY_GATE_CCT_SEC_HI.CCT_SEC_HI [e] (t / 1000000000 / 2 ^ 32)
      s.wr R.TLY_GATE.PENDING [e] 1
    | k =>
      let s := (s.wr R.TLY_STATUS.CFG_ERR [] 1).wr R.TLY_STATUS.ERR_CODE [] k
      (s.wr R.TLY_STATUS.ERR_EP [] e).inc R.TLY_CNT.COUNT [5]

/-- R238: the config change time comes: the new list takes over at its entry 0. -/
def gateTakeOver (s : State) (e : Nat) : State :=
  match SMap.find? s.tly.pendOper e with
  | none => s
  | some o =>
    if !s.flag R.TLY_GATE.PENDING [e] then s
    else
      let s := { s with tly := { s.tly with oper := SMap.ins s.tly.oper e o, pendOper := SMap.del s.tly.pendOper e } }
      let s := (s.wr R.TLY_GATE.PENDING [e] 0).wr R.TLY_GATE.OPER_SEL [e] (1 - operSel s e)
      let s := (s.wr R.TLY_GATE_OPER_CYCLE.OPER_CYCLE_NS [e] o.cycle).inc R.TLY_CNT.COUNT [3]
      gateTx (gateApply s e 0) e

/-- R239: a write of 0 to EN. -/
def gateDisable (s : State) (e : Nat) : State :=
  let s := { s with tly := { s.tly with oper := SMap.del s.tly.oper e, pendOper := SMap.del s.tly.pendOper e } }
  let s := ((s.wr R.TLY_GATE.EN [e] 0).wr R.TLY_GATE.PENDING [e] 0).wr R.TLY_GATE.HOLD [e] 0
  gateTx ((s.wr R.TLY_GATE_OPER.OPER_GATES [e] 0xFF).wr R.TLY_GATE_OPER.OPER_INDEX [e] 0) e

/-- R513: the message of a delivery. -/
def delivMsg (f : GFrame) (d : Deliv) (buf len : Nat) : Bytes :=
  let p := f.pkt
  let trunc := d.orig > len
  let flags := d.kind + (if f.bad ≠ [] then 16 else 0) + (if trunc then 32 else 0)
  let res := d.tc % 8 + (if d.res.hit1 then 8 else 0) + (if d.res.second then 16 else 0) + (if d.res.hit2 then 32 else 0)
  let keyLen := if 2 ≤ d.kind && d.kind ≤ 5 then 0 else min d.res.key.length 64
  [byteOf flags, byteOf (p.profile % 64)] ++ leBytes 2 p.domain ++ leBytes 4 buf ++ leBytes 2 len ++ leBytes 2 d.orig
    ++ [byteOf p.origin, byteOf res] ++ leBytes 2 d.exc ++ leBytes 4 d.res.act ++ leBytes 8 d.res.data
    ++ leBytes 4 (tsSec p.ts) ++ leBytes 4 (tsNs p.ts) ++ leBytes 2 p.inst ++ leBytes 2 d.pattern ++ leBytes 4 p.hash
    ++ [byteOf keyLen] ++ List.replicate 19 0

/-- R168, R514: the 64-byte lines of a buffer that hold bytes of poisoned cells. -/
def poisonLines (s : State) (b : Nat) (bad : List Nat) : State :=
  let base := (bufAddr s b + 128) / 64
  let lines := bad.foldl (fun a c => a ++ (List.range 4).map (fun i => base + 4 * c + i)) []
  { s with fil := { s.fil with poison := lines.foldl (fun m l => SMap.set false m l true) s.fil.poison } }

/-- The marks of a buffer's lines cleared, when it is written anew. -/
def cleanLines (s : State) (b : Nat) : State :=
  let lo := bufAddr s b / 64
  { s with fil := { s.fil with poison := s.fil.poison.filter (fun e => !(decide (lo ≤ e.1) && decide (e.1 < lo + 256))) } }

/-- R679: a stored frame written to pool buffer `b`: its cells are freed and its message is sent. -/
def deliverInto (s : State) (d : Deliv) (b : Nat) : State :=
  let f := gframe s d.fid
  let len := f.pkt.data.length
  let key := if 2 ≤ d.kind && d.kind ≤ 5 then [] else d.res.key.take 64
  let bytes := slice key 0 64 ++ slice d.hdr 0 64 ++ f.pkt.data
  let s := (cleanLines s b).hbmWrite (bufAddr s b) bytes
  let s := poisonLines s b f.bad
  let s := dropRef s d.fid
  match hwPost s d.chan 1 (delivMsg f d b len) with
  | (s, true) => takeBuf s b
  | (s, false) => s

/-- R679: the oldest stored frame for a Filbert channel is written to a pool buffer, its cells are freed, and its message
is sent. -/
def filbertDeliver (s : State) : State :=
  match s.grn.deliv with
  | [] => s
  | d :: rest =>
    let s := { s with grn := { s.grn with deliv := rest } }
    match freeBuf? s with
    | none => (dropRef s d.fid).inc R.FIL_CNT.COUNT [5]
    | some b => deliverInto s d b

end Sys2Proof.Machine
end

