-- ==== Sys2Proof/Machine/FilOps.lean ====
section
/-! DEFINITION. Shared operations of a Filbert hart: registers, CSRs and their legal values, the address map and PMP,
traps and interrupts, the HART reset (R492 to R495, R500, R507, R510 to R512, R521). CSRs and traps follow the RISC-V
Privileged Architecture 1.12 for the options of R492.
Log entries 19, 97, 105, 106, 147, 177. -/

namespace Sys2Proof.Machine

open Sys2Proof

def w64 (n : Nat) : Nat := n % 2 ^ 64

/-- Integer register `i` of hart `h`; x0 reads 0. -/
def xr (s : State) (h i : Nat) : Nat := if i = 0 then 0 else SMap.get 0 (hartGet s h).x i

/-- Integer register `i` written; x0 discards. -/
def xw (s : State) (h i v : Nat) : State :=
  if i = 0 then s
  else
    let t := hartGet s h
    hartPut s h { t with x := SMap.set 0 t.x i (w64 v) }

def fr (s : State) (h i : Nat) : Nat := SMap.get 0 (hartGet s h).f i

/-- CSR numbers. -/
def csrMstatus : Nat := 0x300
def csrMie : Nat := 0x304
def csrMtvec : Nat := 0x305
def csrMepc : Nat := 0x341
def csrMcause : Nat := 0x342
def csrMtval : Nat := 0x343
def csrXelvctl : Nat := 0x7C0
def csrDcsr : Nat := 0x7B0
def csrDpc : Nat := 0x7B1

/-- The reset value of a stored CSR: MIE and MPP 0 with UXL 2 in mstatus, prv 3 in dcsr, type 6 in tdata1, 0 elsewhere. tdata1
and tdata2 of trigger i are kept under the numbers 0x10000 + i and 0x20000 + i. -/
def csrReset (n : Nat) : Nat :=
  if n = csrMstatus then 2 * 2 ^ 32
  else if n = csrDcsr then 4 * 2 ^ 28 + 3
  else if 0x10000 ≤ n && n < 0x20000 then 6 * 2 ^ 60
  else 0

/-- The stored value of a CSR. -/
def csrRaw (s : State) (h n : Nat) : Nat := SMap.get (csrReset n) (hartGet s h).csr n

/-- A CSR's stored value replaced. -/
def csrPut (s : State) (h n v : Nat) : State :=
  let t := hartGet s h
  hartPut s h { t with csr := SMap.set (csrReset n) t.csr n (w64 v) }

/-- A floating-point register written; FS becomes Dirty. -/
def fw (s : State) (h i v : Nat) : State :=
  let t := hartGet s h
  let s := hartPut s h { t with f := SMap.set 0 t.f i (w64 v) }
  csrPut s h csrMstatus (setBit (setBits (csrRaw s h csrMstatus) 13 2 3) 63 true)

def setPc (s : State) (h pc : Nat) : State := hartPut s h { hartGet s h with pc := w64 pc }

/-- The parts of a hart's address map (R494). -/
inductive Region where
  | scratch (off : Nat)
  | mtime
  | mtimecmp
  | window (off : Nat)
  | mailbox (off : Nat)
  | hbm (addr : Nat)
  | none
deriving DecidableEq, Repr

/-- R494: what `n` bytes at hart address `a` lie in. -/
def region (a n : Nat) : Region :=
  if a + n ≤ 0x20000 then .scratch a
  else if 0x30000 ≤ a && a + n ≤ 0x30008 then .mtime
  else if 0x30008 ≤ a && a + n ≤ 0x30010 then .mtimecmp
  else if 0x10000000 ≤ a && a + n ≤ 0x20000000 then .window (a - 0x10000000)
  else if 0x20000000 ≤ a && a + n ≤ 0x20010000 then .mailbox (a - 0x20000000)
  else if 0x8000000000 ≤ a && a < 0xC000000000 then
    let st := (a - 0x8000000000) / 2 ^ 36
    let off := (a - 0x8000000000) % 2 ^ 36
    if st < 4 && off + n ≤ 48 * 2 ^ 30 then .hbm (hbmAddr st off) else .none
  else .none

/-- The PMP configuration byte and address register of entry `i` (16 entries, granularity 4 KiB). -/
def pmpCfg (s : State) (h i : Nat) : Nat := bits (csrRaw s h (if i < 8 then 0x3A0 else 0x3A2)) (i % 8 * 8) 8
def pmpAddr (s : State) (h i : Nat) : Nat := csrRaw s h (0x3B0 + i)

/-- How many low bits of a value are 1, at most `n`. -/
def trailingOnes (n v : Nat) : Nat :=
  match n with
  | 0 => 0
  | n + 1 => if v % 2 = 1 then 1 + trailingOnes n (v / 2) else 0

/-- The byte range [lo, hi) that PMP entry `i` matches; empty when OFF. -/
def pmpRange (s : State) (h i : Nat) : Nat × Nat :=
  let g := fun v => v / 1024 * 1024
  match bits (pmpCfg s h i) 3 2 with
  | 1 => ((if i = 0 then 0 else g (pmpAddr s h (i - 1)) * 4), g (pmpAddr s h i) * 4)
  | 2 => (g (pmpAddr s h i) * 4, g (pmpAddr s h i) * 4 + 4)
  | 3 =>
    let v := pmpAddr s h i / 512 * 512 + 511
    let t := trailingOnes 54 v
    (v / 2 ^ (t + 1) * 2 ^ (t + 1) * 4, (v / 2 ^ (t + 1) + 1) * 2 ^ (t + 1) * 4)
  | _ => (0, 0)

/-- The accesses PMP tells apart. -/
inductive MemAcc where
  | load | store | fetch
deriving DecidableEq, Repr

/-- PMP: the lowest entry that matches a byte decides, and must match them all; M mode passes an unlocked entry. -/
def pmpOk (s : State) (h a n : Nat) (acc : MemAcc) (m : Bool) : Bool :=
  match (List.range 16).find? (fun i => let (lo, hi) := pmpRange s h i; decide (lo < a + n ∧ a < hi)) with
  | none => m
  | some i =>
    let (lo, hi) := pmpRange s h i
    let c := pmpCfg s h i
    if !(decide (lo ≤ a) && decide (a + n ≤ hi)) then false
    else if m && !bit c 7 then true
    else match acc with | .load => bit c 0 | .store => bit c 1 | .fetch => bit c 2

/-- R494: whether an access of `n` bytes at `a` is allowed to a hart in a mode, PMP included. -/
def accessOk (s : State) (h a n : Nat) (acc : MemAcc) (m : Bool) : Bool :=
  match region a n with
  | .none => false
  | .window _ => m && acc ≠ .fetch && pmpOk s h a n acc m
  | .mailbox _ => m && acc ≠ .fetch && pmpOk s h a n acc m
  | .mtimecmp => m && acc ≠ .fetch && pmpOk s h a n acc m
  | .mtime => acc == .load && pmpOk s h a n acc m
  | _ => pmpOk s h a n acc m

/-- R510: the interrupts pending at a hart: MTIP 7, MEIP 11, WAITCYCLE 16. -/
def mipOf (s : State) (h : Nat) : Nat :=
  (if s.mtime ≥ SMap.get (2 ^ 64 - 1) s.fil.mtimecmp h then 2 ^ 7 else 0)
    + (if (s.rd R.FIL_HART_IRQ.IRQ_PEND [h]) &&& (s.rd R.FIL_HART_IRQ_EN.IRQ_EN [h]) ≠ 0 then 2 ^ 11 else 0)
    + (if (hartGet s h).wcip then 2 ^ 16 else 0)

/-- The cause of the interrupt a hart takes next, if one is enabled and pending: external, then timer, then cause 16. -/
def intrCause? (s : State) (h : Nat) : Option Nat :=
  let t := hartGet s h
  let p := mipOf s h &&& csrRaw s h csrMie
  if t.mmode && !bit (csrRaw s h csrMstatus) 3 then none
  else if bit p 11 then some 11
  else if bit p 7 then some 7
  else if bit p 16 then some 16
  else none

/-- R511: a trap enters M mode at mtvec with the standard CSR updates; `intr` marks an interrupt. R512: when the fetch
at the vector would itself raise an exception, the hart stops as FAILED and is counted. -/
def trapEnter (s : State) (h cause : Nat) (intr : Bool) (tval : Nat) : State :=
  let t := hartGet s h
  let ms := csrRaw s h csrMstatus
  let ms := setBit ms 7 (bit ms 3)
  let ms := setBit ms 3 false
  let ms := setBits ms 11 2 (if t.mmode then 3 else 0)
  let s := csrPut s h csrMstatus ms
  let s := csrPut s h csrMepc t.pc
  let s := csrPut s h csrMcause (cause + if intr then 2 ^ 63 else 0)
  let s := csrPut s h csrMtval tval
  let tv := csrRaw s h csrMtvec
  let base := tv / 4 * 4
  let pc := if intr && tv % 4 = 1 then base + 4 * cause else base
  let s := hartPut s h { hartGet s h with pc := w64 pc, mmode := true, wait := none, resv := none }
  let s := s.inc R.FIL_CNT.COUNT [12]
  let s := if cause = 25 && !intr then s.inc R.FIL_CNT.COUNT [13] else s
  if accessOk s h (w64 pc) 2 .fetch true then s
  else (s.wr R.FIL_HART_CTL.STATE [h] hsFailed).inc R.FIL_CNT.COUNT [14]

/-- R500: whether a hart may use the channel instructions (bit 0 of xelvctl) or event instructions (bit 1) now. -/
def xelvOk (s : State) (h b : Nat) : Bool := (hartGet s h).mmode || bit (csrRaw s h csrXelvctl) b

/-- Whether a hart's wait group contains it with group number `g` (R516). -/
def inGroup (s : State) (h g : Nat) : Bool := s.flag R.FIL_HART_CTL.WG_EN [h] && s.rd R.FIL_HART_CTL.WGRP [h] == g

/-- The core of a hart, and whether its power domain is on and the core not retired. -/
def coreOf (h : Nat) : Nat := h / 8
def coreLive (s : State) (c : Nat) : Bool := !s.flag R.FIL_CORE_STATUS.GATED [c] && !s.flag R.FIL_CORE_STATUS.RETIRED [c]

/-- Whether a hart can execute an instruction: STATE running, its core live. -/
def hartRuns (s : State) (h : Nat) : Bool := hartSt s h == hsRun && coreLive s (coreOf h)

/-- R497: the number of the present 16-cycle round. -/
def roundNo (s : State) : Nat := s.now / coreLen / 16

/-- R498: the issue table in force on core `c`. -/
def issueOf (s : State) (c : Nat) : Issue :=
  match SMap.find? s.fil.nextIssue c with
  | some (r, t) => if r ≤ roundNo s then t else SMap.get Issue.reset s.fil.issue c
  | none => SMap.get Issue.reset s.fil.issue c

/-- The HIGH hart's use of the present round of core `c`. -/
def roundOf (s : State) (c : Nat) : Round :=
  let r := SMap.get Round.reset s.fil.round c
  if r.no = roundNo s then r else { Round.reset with no := roundNo s }

/-- R496, R497: hart `h` issues an instruction; none where it is the HIGH hart and has reached its cap. Whether an instruction
shares the cycle of the one before it is free. -/
def issueTake (s : State) (h : Nat) : Option State :=
  let c := coreOf h
  let t := issueOf s c
  if !t.highEn || t.highHart ≠ h % 8 || t.highCap ≥ 16 then some s
  else
    let r := roundOf s c
    let put (s : State) (x : Round) : State := { s with fil := { s.fil with round := SMap.set Round.reset s.fil.round c x } }
    let next (s : State) : Option State :=
      if r.used < t.highCap then some (put s { r with used := r.used + 1, half := true }) else none
    if r.half then
      let (b, s) := s.freeBits 1
      if b = 1 then some (put s { r with half := false }) else next s
    else next s

/-- R521: what a HART reset clears; the hart restarts at RESET_PC in M mode when its RUN bit is 1. A retired core's harts
stay RETIRED. -/
def hartReset (s : State) (h : Nat) : State :=
  let s := hartPut s h Hart.reset
  let s := s.wr R.FIL_HART_IRQ.IRQ_PEND [h] 0
  if s.flag R.FIL_CORE_STATUS.RETIRED [coreOf h] then s.wr R.FIL_HART_CTL.STATE [h] hsRetired
  else if bit (s.rd R.FIL_CORE_CTL.RUN [coreOf h]) (h % 8) then
    let pc := s.rd R.FIL_RESET_PC_LO.PC_LO [] + 2 ^ 32 * s.rd R.FIL_RESET_PC_HI.PC_HI []
    (setPc s h pc).wr R.FIL_HART_CTL.STATE [h] hsRun
  else s.wr R.FIL_HART_CTL.STATE [h] hsReset

/-- R521: a RUN bit becomes 1: the hart leaves reset at RESET_PC in M mode. -/
def releaseHart (s : State) (h : Nat) : State :=
  let s := s.wr R.FIL_CORE_CTL.RUN [coreOf h] (setBit (s.rd R.FIL_CORE_CTL.RUN [coreOf h]) (h % 8) true)
  if hartSt s h = hsReset then hartReset s h else s

end Sys2Proof.Machine
end

