-- ==== Sys2Proof/Machine/RegOps.lean ====
section
/-! DEFINITION. Register writes field by field (R14, R15, R20, R671, R672): access types, lock bits, the capture of access
errors. What a write sets off in its block is in RegWrite.
Log entries 139. -/

namespace Sys2Proof.Machine

open Sys2Proof

/-- R673: the DOMAIN code of a management domain; firmware is the owner. -/
def domCode (m : MDom) : Nat := match m with | .reeve => 1 | .debug => 2 | _ => 0

/-- R666, R663, R671, R673, R674: an access error of a KIND at an offset is counted, and captured unless one stands. -/
def accessErr (s : State) (m : MDom) (kind a : Nat) : State :=
  let s := s.inc R.GLB_CNT.COUNT [if kind = 1 then 0 else if kind = 2 then 1 else 2]
  if s.flag R.GLB_ERR.VALID [] then s.inc R.GLB_CNT.COUNT [3]
  else
    let s := ((s.wr R.GLB_ERR.VALID [] 1).wr R.GLB_ERR.KIND [] kind).wr R.GLB_ERR.DOMAIN [] (domCode m)
    s.wr R.GLB_ERR_ADDR.ADDR [] (a / 4 * 4)

/-- The LOCK instance that governs an RWL field: of the field's own octet or pipeline where LOCK is one per octet or
pipeline and the field belongs to that register, else of its block. -/
def lockOf (f : Fld) (ix : List Nat) : Fld × List Nat :=
  match f.blk with
  | .eth => (R.ETH_OCT_CFG.LOCK, [ix.headD 0])
  | .stk => (R.STK_CFG.LOCK, [])
  | .win => if f.base < 0x06100000 then (R.WIN_PIPE_CFG.LOCK, [ix.headD 0]) else (R.WIN_GLB_CFG.LOCK, [])
  | .grn => (R.GRN_CFG.LOCK, [])
  | .tly => (R.TLY_CFG.LOCK, [])
  | .car => (R.CAR_CFG.LOCK, [])
  | .hsk => (R.HSK_CFG.LOCK, [])
  | .lck => (R.LCK_CFG.LOCK, [])
  | .stg => (R.STG_CFG.LOCK, [])
  | .hif => (R.HIF_CFG.LOCK, [])
  | .dom => (R.DOM_CFG.LOCK, [])
  | .fil => (R.FIL_CFG.LOCK, [])
  | .tu => (R.TU_CFG.LOCK, [])
  | .pwr => (R.PWR_CTL.LOCK, [])
  | .rev => (R.REV_CFG.LOCK, [])
  | _ => (R.GLB_CFG.LOCK, [])

def isLocked (s : State) (f : Fld) (ix : List Nat) : Bool := s.flag (lockOf f ix).1 (lockOf f ix).2

/-- The bits of a field in the word written to its register. -/
def wordBits (f : Fld) (v : Nat) : Nat := bits v f.lo f.width

/-- R14: one field of a written word by its access type. An RWL field under LOCK keeps its value, and the flag says whether
the write would have changed it (R671). -/
def writeField (s : State) (f : Fld) (ix : List Nat) (v : Nat) : State × Bool :=
  let new := wordBits f v
  let cur := s.rd f ix
  match f.acc with
  | .rw => (s.wr f ix new, false)
  | .rwl => if isLocked s f ix then (s, cur ≠ new) else (s.wr f ix new, false)
  | .w1c => (s.wr f ix (cur - (cur &&& new)), false)
  | .w1s => (s.wr f ix (cur ||| new), false)
  | .ro => (s, false)
  | .rc => (s, false)
  | .wo => (s, false)

/-- The fields `keep` names of a word written in turn; the flag says whether LOCK kept one of them from changing. -/
def writeFields (s : State) (l : List (Fld × List Nat × Nat)) (v : Nat) (keep : Fld → Bool) : State × Bool :=
  match l with
  | [] => (s, false)
  | (f, ix, h) :: r =>
    if keep f && h = 0 then
      let (s, a) := writeField s f ix v
      let (s, b) := writeFields s r v keep
      (s, a || b)
    else writeFields s r v keep

/-- R671, R672: a 4-byte word written to a register: its RWL fields first, then the others, LOCK among them. -/
def writeWord (s : State) (m : MDom) (l : List (Fld × List Nat × Nat)) (a v : Nat) (keep : Fld → Bool) : State :=
  let (s, bad) := writeFields s l v (fun f => f.acc == .rwl && keep f)
  let s := if bad then accessErr s m 4 a else s
  (writeFields s l v (fun f => f.acc ≠ .rwl && keep f)).1

/-- R635: whether an unlock stands, and whether one with scope bit `b` (0 HART, 1 FABRIC, 2 HBM) stands. What it granted
lasts until a WARM or RELOCK, whatever a later verification comes to. -/
def anyUnlocked (s : State) : Bool := s.rd R.DBG_UNLOCK_CTL.AUTH [] ≠ 0
def unlocked (s : State) (b : Nat) : Bool := bit (s.rd R.DBG_UNLOCK_CTL.SCOPE []) b

end Sys2Proof.Machine
end

