-- ==== Sys2Proof/Machine/PwrOps.lean ====
section
/-! DEFINITION. Power and resets as other commands meet them: what DORMANT, STANDBY and the Bellman keep from acting, the
gating of domains, DORMANT entry and exit, the WARM, COLD and POR resets (R54, R558 to R578).
Log entries 112, 113, 114, 116, 117, 118, 119, 121, 122, 123, 135, 164. -/

namespace Sys2Proof.Machine

open Sys2Proof

def putPwr (s : State) (p : Pwr) : State := { s with pwr := p }
def pwrCount (s : State) (n : Nat) : State := s.inc R.PWR_CNT.COUNT [n]

/-- STATE codes of R579. -/
def psActive : Nat := 0
def psTrimmed : Nat := 1
def psDormant : Nat := 2
def psStandby : Nat := 3
def pwrSt (s : State) : Nat := s.rd R.PWR_STATUS.STATE []

/-- R603: the Bellman is in control. -/
def bellman (s : State) : Bool := s.rev.inControl.isSome

/-- What does not run in DORMANT does not act: the data path is gated, in STANDBY off, under the Bellman off. -/
def asleep (s : State) : Bool :=
  bellman s || s.pwr.dark || pwrSt s == psDormant || pwrSt s == psStandby || s.pwr.clkGated || s.pwr.noImage

/-- What runs in DORMANT as well (R565: SerDes, host ports, root ports, the TU, the base region) is off here. -/
def poweredOff (s : State) : Bool := bellman s || s.pwr.dark || pwrSt s == psStandby

/-- A command of a unit that DORMANT gates: it finds its unit asleep, or acts. -/
def whenUp (s : State) (f : State → Ans) : Ans := if asleep s then .next s else f s

/-- A command of a unit that DORMANT leaves on. -/
def whenOn (s : State) (f : State → Ans) : Ans := if poweredOff s then .next s else f s

/-- A domain's PWR_DOM_ON bit. -/
def setDomOn (s : State) (d : Nat) (on : Bool) : State :=
  s.wr R.PWR_DOM_ON.ON [d / 32] (setBit (s.rd R.PWR_DOM_ON.ON [d / 32]) (d % 32) on)

def trimBit (s : State) (d : Nat) : Bool := bit (s.rd R.PWR_TRIM.TRIM [d / 32]) (d % 32)
def heldBit (s : State) (d : Nat) : Bool := bit (s.rd R.PWR_DOM_HELD.HELD [d / 32]) (d % 32)
def setHeld (s : State) (d : Nat) (b : Bool) : State :=
  s.wr R.PWR_DOM_HELD.HELD [d / 32] (setBit (s.rd R.PWR_DOM_HELD.HELD [d / 32]) (d % 32) b)

/-- R523, R561: the figures that follow the power of a domain. -/
def domShow (s : State) (d : Nat) : State :=
  if d < 64 then s.wr R.FIL_CORE_STATUS.GATED [d] (b2n (!domOn s d))
  else if d < 96 then hskShow s
  else if 128 ≤ d && d < 136 then grnShow s
  else s

/-- R559: whether an enabled area lies on HBM stack `q`. -/
def stackUsed (s : State) (q : Nat) : Bool :=
  (s.flag R.CAR_CFG.EN [] &&
    (s.rd R.CAR_SLICE_CTX.CTX_SIZE [q] ≠ 0 || s.rd R.CAR_SLICE_WIN.WIN_SIZE [q] ≠ 0 || s.rd R.CAR_SLICE_KEEP.KEEP_SIZE [q] ≠ 0
      || s.rd R.CAR_RGN.STACK [] == q))
    || s.flag R.GRN_DEEP_CFG.EN []
    || s.rd R.STG_STAGE.SIZE [q] ≠ 0
    || (s.flag R.FIL_CFG.POOL_EN [] && s.rd R.FIL_FPOOL.STACK [] == q)
    || s.flag R.WIN_GLB_HBM.EN []

/-- R558: the gating condition of a domain in TRIMMED. -/
def gateCond (s : State) (d : Nat) : Bool :=
  let trim := !trimBit s d
  if d < 64 then
    decide (s.rd R.FIL_CFG.TRIM_CORES [] ≤ d)
      || (trim && (List.range 8).all (fun t => hartSt s (8 * d + t) == hsReset || hartSt s (8 * d + t) == hsRetired))
  else if d < 96 then trim && cluJobs s (d - 64) == 0
  else if d < 112 then
    trim && (List.range 8).all (fun k => portState s (8 * (d - 96) + k) == epDisabled) && !isSahrov s (d - 96)
  else if d < 128 then trim && !domOn s (d - 16)
  else if d < 136 then
    trim && (List.range 4).all (fun i => !domOn s (112 + 4 * ((d - 128) / 2) + i))
      && !s.grn.used.any (fun e => cellPair e.1 / 4 == d - 128)
  else if d < 140 then trim && (sliceConns s (d - 136)).isEmpty
  else if d < 144 then trim && !stackUsed s (d - 140)
  else if d < 148 then trim && !(s.flag R.HIF_AP_LINK.LINK_UP [2 * (d - 144)] || s.flag R.HIF_AP_LINK.LINK_UP [2 * (d - 144) + 1])
  else if d < 152 then
    trim && (List.range 4).all (fun i =>
      let st := rpSt s (4 * (d - 148) + i)
      st == rsOff || st == rsFaulted || st == rsRetired)
  else if d < 154 then trim
  else if d = 154 then
    trim && !((List.range 8).any (fun k => bit (ctlGet s k).cc 0)) && !(s.stg.ctrls.any (fun e => bit e.2.cc 0))
  else false

/-- R573: a pipeline loses the packets in its stages, which are dropped and counted. No counter of a register map is named
for them, so the model counts them in its own field. -/
def clearPipe (s : State) (p : Nat) : State :=
  let n := (SMap.get [] s.win.wait p).length
  waitShow (putWin s { s.win with wait := SMap.del s.win.wait p, dropped := s.win.dropped + n }) p

/-- R560, R561: a pipeline gated OFF: its stages and the receive buffers of its ports lose their packets, and it leaves the
flow hash, so that frames at its internal input go to another pipeline. -/
def leavePipe (s : State) (p : Nat) : State :=
  let s := clearPipe s p
  let n := (SMap.get [] s.win.rxbuf p).length
  let q := SMap.get [] s.win.inq p
  let s := putWin s { s.win with rxbuf := SMap.del s.win.rxbuf p, inq := SMap.del s.win.inq p, dropped := s.win.dropped + n }
  q.foldl toInternal (setDomOn s (112 + p) false)

/-- R378: the key cache of a Husk cluster emptied. -/
def clearCache (s : State) (c : Nat) : State :=
  (putHsk s { s.hsk with cache := SMap.del s.hsk.cache c }).wr R.HSK_CLU_W1.KEYS_CACHED [c] 0

/-- R560, R561: what a domain gated OFF loses. -/
def loseDomain (s : State) (d : Nat) : State :=
  if d < 64 then
    let s := (List.range 8).foldl (fun s t =>
      let s := hartPut s (8 * d + t) Hart.reset
      if hartSt s (8 * d + t) = hsRetired then s else s.wr R.FIL_HART_CTL.STATE [8 * d + t] hsReset) s
    { s with fil := { s.fil with scratch := s.fil.scratch.filter (fun e => e.1 / 2 ^ 17 ≠ d) } }
  else if d < 96 then clearCache s (d - 64)
  else if d < 112 then (List.range 8).foldl (fun s k => loseLink s (8 * (d - 96) + k)) s
  else if d < 128 then leavePipe s (d - 112)
  else if d < 148 then s
  else if d < 152 then (List.range 4).foldl (fun s i =>
    if rpSt s (4 * (d - 148) + i) = rsRetired then s else rpOff s (4 * (d - 148) + i)) s
  else if d < 154 then
    let l := if d = 152 then s.win.scan0 else s.win.scan1
    let s := s.add R.WIN_GLB_CNT.COUNT [6] l.length
    if d = 152 then putWin s { s.win with scan0 := [] } else putWin s { s.win with scan1 := [] }
  else s

/-- R560: a domain gated OFF. -/
def gateOff (s : State) (d : Nat) : State :=
  if domOn s d then domShow (setHeld (setDomOn (loseDomain s d) d false) d false) d else setHeld s d false

/-- R561: a domain powered again: its unit is empty and keeps the configuration in its register bank. -/
def powerOn (s : State) (d : Nat) : State :=
  let s := setHeld s d false
  if domOn s d then s
  else
    let s := domShow (setDomOn s d true) d
    if d < 64 then (List.range 8).foldl (fun s t => hartReset s (8 * d + t)) s
    else if 148 ≤ d && d < 152 then (List.range 4).foldl (fun s i =>
      let n := 4 * (d - 148) + i
      if s.flag R.STG_RP_CTL.AUTO_ON [n] then rpPowerOn s n else s) s
    else s

/-- R562: a domain meets TRIMMED: gated where its condition holds, held where only its trim bit is 0, powered else. -/
def trimDomain (s : State) (d : Nat) : State :=
  if gateCond s d then gateOff s d
  else if d ≠ 155 && !trimBit s d then
    if !domOn s d || heldBit s d then s else pwrCount (setHeld s d true) 11
  else powerOn s d

/-- The domains that DORMANT gates RETAIN, HBM among them (R565). -/
def dormantGated (d : Nat) : Bool := d < 96 || (112 ≤ d && d < 144) || (152 ≤ d && d < 155)

/-- R564: why DORMANT may not be entered, as REFUSE_WHY bits 0, 1, 2, 4 and 5. -/
def dormantFails (s : State) : Nat :=
  let psn := s.car.conns.any (fun e => e.2.una ≠ e.2.nextPsn)
  let stg := !s.stg.cmds.isEmpty
  let rst := (List.range 16384).any (fun i => instState s i ≥ 4) || (List.range 8).any (fun a => s.flag R.HIF_AP_LINK.IN_RESET [a])
    || s.dom.rings.any (fun e => ringSt s e.1 == rsResetting)
  let cmd := !s.lck.destroys.isEmpty || !s.lck.pend.isEmpty || !s.dom.queue.isEmpty || s.dom.running.isSome
  let rev := s.rd R.REV_STATUS.TSTATE [] == 3 || s.flag R.REV_STATUS.VFAULT []
  b2n psn + 2 * b2n stg + 4 * b2n rst + 16 * b2n cmd + 32 * b2n rev

/-- R563: a request is refused for the reasons `why`. -/
def refusePwr (s : State) (why : Nat) : State :=
  (s.wr R.PWR_STATUS.REFUSED [] 1).wr R.PWR_STATUS.REFUSE_WHY [] why

/-- R565 step 2: every ONLINE root-port link put into L1, or back into L0. -/
def rpLinks (s : State) (l1 : Bool) : State :=
  s.emits (((List.range 16).filter (fun n => rpSt s n == rsOnline)).map (fun n => Emit.driveCtl n 4 (b2n l1)))

/-- R567: the timers of Carter's connections stood still for `d` units of 0.1 ns. -/
def resumeTimers (s : State) (d : Nat) : State :=
  let rec1 (r : SendRec) : SendRec := { r with sentAt := r.sentAt + d, rnrAt := r.rnrAt + d }
  let conn (c : Conn) : Conn :=
    { c with recs := c.recs.map rec1, ackFrom := c.ackFrom + d, creditAt := c.creditAt + d, rptAt := c.rptAt + d,
             evictAt := c.evictAt + d }
  { s with car := { s.car with conns := SMap.mapVal conn s.car.conns } }

/-- R565: the steps of DORMANT entry. -/
def enterDormant (s : State) : State :=
  let on := (List.range 5).map (fun w => s.rd R.PWR_DOM_ON.ON [w])
  let s := putPwr s { s.pwr with before := pwrSt s, onBefore := on, phase := .none, since := s.now }
  let s := (List.range 8).foldl (fun s a =>
    if s.flag R.HIF_AP_LINK.LINK_UP [a] && bit (cfgGet s a 0 28) 1 && s.rd R.HIF_AP_LINK.LPM [a] = 0 then
      s.wr R.HIF_AP_LINK.LPM [a] 1 else s) s
  let s := rpLinks s true
  let s := (List.range 512).foldl (fun s h =>
    if hartSt s h = hsRun || hartSt s h = hsWait then s.wr R.FIL_HART_CTL.STATE [h] hsStop else s) s
  let s := (List.range 156).foldl (fun s d => if dormantGated d then setDomOn s d false else s) s
  let s := (List.range 64).foldl (fun s c => s.wr R.FIL_CORE_STATUS.GATED [c] 1) s
  let s := servoHoldover (hskShow s)
  pwrCount ((s.wr R.PWR_STATUS.STATE [] psDormant).wr R.PWR_STATUS.BUSY [] 0) 1

/-- R567: an operational gate list stands where TU time places it, and a config change that came due takes effect. -/
def gateResume (s : State) (e : Nat) : State :=
  let now := s.tu.t / 2 ^ 32
  let due := match SMap.find? s.tly.pendOper e with
    | some o => decide (o.base ≤ now)
    | none => false
  let s := if due then gateTakeOver s e else s
  match SMap.find? s.tly.oper e with
  | none => s
  | some o =>
    let cyc := s.rd R.TLY_GATE_OPER_CYCLE.OPER_CYCLE_NS [e]
    if !s.flag R.TLY_GATE.EN [e] || cyc = 0 then s
    else
      let pos := ((Int.ofNat now - Int.ofNat o.base) % Int.ofNat cyc).toNat
      let i := ((gateStarts s e (operSel s e) cyc o.len 0 0).filter (fun x => decide (x.1 ≤ pos))).length - 1
      gateTx (gateApply s e i) e

/-- R567: DORMANT exit, for wake source `src`. Sahrov units that waited are admitted. The data path is usable within 25 µs; how
long it takes is a free value. -/
def exitDormant (s : State) (src : Nat) : State :=
  let s := (List.range 5).foldl (fun s w => s.wr R.PWR_DOM_ON.ON [w] (s.pwr.onBefore.getD w 0)) s
  let s := (List.range 64).foldl (fun s c => s.wr R.FIL_CORE_STATUS.GATED [c] (b2n (!domOn s c))) s
  let s := hskShow s
  let s := (List.range 8).foldl linkActive s
  let s := resumeTimers (rpLinks s false) (s.now - s.pwr.since)
  let s := (List.range 512).foldl (fun s h =>
    if hartSt s h = hsStop then s.wr R.FIL_HART_CTL.STATE [h] (if (hartGet s h).wait.isSome then hsWait else hsRun) else s) s
  let s := (List.range 128).foldl gateResume s
  let s := ((s.wr R.PWR_STATUS.STATE [] s.pwr.before).wr R.PWR_WAKE.LAST_SRC [] src)
  let us := s.pwr.units
  let (d, s) := s.freeBits 18
  let s := putPwr s { s.pwr with units := [], onBefore := [], exitAt := s.now + min d 250000 }
  pwrCount (us.foldl (fun s u => unitReceive s u.1 u.2) s) 4

/-- R563: an entry in progress is aborted. -/
def abortDormant (s : State) : State :=
  pwrCount ((putPwr s { s.pwr with phase := .none }).wr R.PWR_STATUS.BUSY [] 0) 3

/-- R566: a wake source comes while DORMANT or its entry is in force; other states see nothing of it. -/
def wakeDormant (s : State) (src : Nat) : State :=
  if pwrSt s = psDormant then exitDormant s src
  else if s.pwr.phase = .entering then abortDormant s
  else s

/-- R566 source 2: a request from a host wakes the device, then has its effect. In STANDBY the links are down, and the
Bellman lets nothing in. -/
def fromHost (s : State) (f : State → Ans) : Ans := if poweredOff s then .next s else f (wakeDormant s 2)

/-- R54, R566 source 1: something arrives on Ethernet port `p`. In DORMANT it wakes the device where FRAME_EN is 1; where it is
0, a frame is dropped and counted in ETH_PORT_CNT index 6. -/
def fromWire (s : State) (p : Nat) (frame : Bool) (f : State → Ans) : Ans :=
  if poweredOff s || s.pwr.clkGated || s.pwr.noImage then .next s
  else if pwrSt s = psDormant && frame && portState s p == epUp && !s.flag R.PWR_WAKE.FRAME_EN [] then .next (ethCount s p 6 1)
  else if frame && portState s p == epUp && s.flag R.PWR_WAKE.FRAME_EN [] then f (wakeDormant s 1)
  else f s

/-- The bytes that a DORMANT exit holds for a port. -/
def heldBytes (s : State) (p : Nat) : Nat :=
  s.pwr.held.foldl (fun a x => match x with
    | (q, .frame f _) => if q = p then a + f.length else a
    | (q, .fragment _ _ f) => if q = p then a + f.length else a
    | _ => a) 0

/-- R54: what a DORMANT exit held goes to its ports once the data path is usable. -/
def drainHeld (s : State) : State :=
  if s.now < s.pwr.exitAt then s
  else s.pwr.held.foldl (fun s x => portReceive s x.1 x.2) (putPwr s { s.pwr with held := [] })

/-- R54: something arrives on an Ethernet port: during a DORMANT exit up to 64 KiB of each port are held, and the excess is
dropped and counted. -/
def wireIn (s : State) (p : Nat) (w : Wire) : State :=
  if decide (s.now < s.pwr.exitAt) && portState s p == epUp then
    let n := match w with | .frame f _ => f.length | .fragment _ _ f => f.length | _ => 0
    if heldBytes s p + n ≤ 65536 then putPwr s { s.pwr with held := s.pwr.held ++ [(p, w)] } else ethCount s p 6 1
  else portReceive (drainHeld s) p w

/-- R54, R566 source 3: a unit arrives on a Sahrov link. In DORMANT a DATA unit wakes the device where SAHROV_EN is 1, and
waits for the exit where it is 0; control words continue. -/
def fromStack (s : State) (j : Nat) (u : Bytes) (f : State → Ans) : Ans :=
  if poweredOff s || s.pwr.clkGated || s.pwr.noImage then .next s
  else if byteAt u 0 % 16 = 0 && linkRuns s j then
    if s.flag R.PWR_WAKE.SAHROV_EN [] then f (wakeDormant s 3)
    else if pwrSt s = psDormant then .next (putPwr s { s.pwr with units := s.pwr.units ++ [(j, u)] })
    else f s
  else f s

/-- R660: a management domain's access to a bank of the always-on island: the owner's wakes the device (R566), firmware's
needs a hart that runs, the debug domain's an unlock of the window, and the Bellman lets none in (R603). -/
def fromDomain (s : State) (m : MDom) (f : State → Ans) : Ans :=
  match m with
  | .owner => fromHost s f
  | .filbert => whenUp s f
  | .reeve => if bellman s || s.pwr.dark then .next s else f s
  | .debug => if bellman s || s.pwr.dark || !unlocked s 1 then .next s else f s

/-- The straps latched (R644): the levels of the balls. -/
def latchStraps (s : State) : State :=
  let p := s.pwr
  let s := ((s.wr R.GLB_STRAP.OWNER_SEL [] p.ownerSel).wr R.GLB_STRAP.HOST_SPLIT [] p.hostSplit).wr R.GLB_STRAP.STACK_ID [] p.stackId
  let s := (s.wr R.HIF_CFG.OWNER [] p.ownerSel).wr R.STK_CFG.STACK_ID [] p.stackId
  (List.range 4).foldl (fun s q => s.wr R.HIF_PORT.SPLIT [q] (p.hostSplit / 2 ^ q % 2)) s

/-- R575, R595: every domain powered, the root PLL locked where REFCLK runs, the stacks' interleave rebuilt. -/
def release (s : State) : State :=
  let s := (List.range 5).foldl (fun s w => (s.wr R.PWR_DOM_ON.ON [w] (R.PWR_DOM_ON.ON.reset [w])).wr R.PWR_DOM_HELD.HELD [w] 0) s
  let s := s.wr R.CLK_STATUS.ROOT_LOCK [] (s.rd R.CLK_STATUS.REFCLK_OK [])
  let s := (List.range 4).foldl (fun s q =>
    s.wr R.REV_HBM_W1.USABLE_MIB [q] (49152 - 1536 * popCount 32 (s.rd R.REV_HBM_W0.PC_RETIRED [q]))) s
  let s := if s.pwr.noImage then (List.range 156).foldl gateOff s else s
  let s := s.emits (((List.range 8).filter (apPresent s)).map (fun a => Emit.pin (.hostClkreqN a) false))
  hskShow ((List.range 512).foldl (fun s h =>
    if s.flag R.FIL_CORE_STATUS.RETIRED [coreOf h] then s.wr R.FIL_HART_CTL.STATE [h] hsRetired else s) s)

/-- The root ports after a reset of the block: OFF, or RETIRED; what stands in the slots is seen again (R409). -/
def stgAfter (s : State) : Stg :=
  let ports := (List.range 16).filterMap (fun n =>
    let p := { Rp.reset with present := (rpGet s n).present }
    if p = Rp.reset then none else some (n, p))
  { Stg.reset with ports := ports }

/-- R106: a failure that FAIL_COUNT no longer shows. -/
def hideFail (f : Failure) : Failure := { f with shown := false }

/-- R17, R576, R641: what a WARM, a STANDBY and everything stronger clear outside the always-on island, whose outputs are released.
HBM keeps its contents. -/
def clearBlocks (s : State) : State :=
  let up := (List.range 8).filter (fun a => s.flag R.HIF_AP_LINK.LINK_UP [a])
  let out := s.out ++ up.map (fun a => Emit.hostLink a false) ++ [Emit.hiZBase]
  { s with
    regs := s.regs.warm, hif := { Hif.reset with sticky := s.hif.sticky }, dom := Dom.reset,
    fil := { Fil.reset with poison := s.fil.poison }, tu := Tu.reset, eth := Eth.reset, stk := Stk.reset, win := Win.reset,
    grn := Grn.reset, tly := Tly.reset, lck := Lck.reset, hsk := Hsk.reset, car := Car.reset, stg := stgAfter s,
    rev := { s.rev with tempSeen := 0, voltSeen := 0, rowsSoft := [], fails := s.rev.fails.map hideFail },
    pwr := { s.pwr with phase := .none, onBefore := [], units := [], clkGated := false, exitAt := 0, held := [] }, out := out,
    trust := { s.trust with verifying := none, imgF := none, triedF := 0, firstF := s.trust.prefF } }

/-- The root ports of retired units show RETIRED, and the Filbert firmware is loaded again (R576, R611). -/
def afterClear (s : State) : State :=
  let s := (List.range 16).foldl (fun s n => if s.flag R.STG_RP_STATUS.RETIRED [n] then s.wr R.STG_RP_STATUS.STATE [n] rsRetired else s) s
  let st := s.rd R.DBG_BOOT.STAGE []
  if st = 2 || st = 4 then s.wr R.DBG_BOOT.STAGE [] 1 else s

/-- R569: LOST set with its cause. -/
def setLost (s : State) (cause : Nat) : State := (s.wr R.PWR_STATUS.LOST [] 1).wr R.PWR_STATUS.LOST_CAUSE [] cause

/-- R570, R575: a WARM reset, asked for by SOURCE `src` of R580. -/
def warmReset (s : State) (src : Nat) : State :=
  let s := afterClear (clearBlocks s)
  let s := setLost (release s) 3
  let s := (s.wr R.PWR_STATUS.STATE [] psActive).wr R.PWR_STATUS.BUSY [] 0
  pwrCount ((s.wr R.PWR_RST_CAUSE.KIND [] 3).wr R.PWR_RST_CAUSE.SOURCE [] src) 6

/-- R568: STANDBY entry. -/
def enterStandby (s : State) (why : SbyWhy) : State :=
  let s := afterClear (clearBlocks s)
  let s := (List.range 5).foldl (fun s w => (s.wr R.PWR_DOM_ON.ON [w] 0).wr R.PWR_DOM_HELD.HELD [w] 0) s
  let s := putPwr s { s.pwr with sby := why, since := s.now, wakeDue := none }
  pwrCount ((s.wr R.PWR_STATUS.STATE [] psStandby).wr R.PWR_STATUS.BUSY [] 0) 5

/-- R568, R575: STANDBY exit, for wake source `src`; it waits while REFCLK is lost (R578). -/
def exitStandby (s : State) (src : Nat) : State :=
  if s.flag R.CLK_STATUS.ON_OSC [] then putPwr s { s.pwr with wakeDue := some src }
  else
    let s := setLost (release (putPwr s { s.pwr with wakeDue := none })) 4
    (s.wr R.PWR_STATUS.STATE [] psActive).wr R.PWR_WAKE.LAST_SRC [] src

/-- R566, R589, R590: whether a wake source ends the STANDBY in force. -/
def endsStandby (s : State) (src : Nat) : Bool :=
  match s.pwr.sby with
  | .owner => (src == 4 && s.flag R.PWR_WAKE.TIMER_EN []) || (src == 5 && s.flag R.PWR_WAKE.BMC_EN [])
      || (src == 6 && s.flag R.PWR_WAKE.PERST_EN []) || src == 7
  | .critical => src == 7 || (src == 5 && s.flag R.PWR_WAKE.BMC_EN [])
  | .vfault => (src == 5 && s.flag R.PWR_WAKE.BMC_EN []) || (src == 6 && s.flag R.PWR_WAKE.PERST_EN [])

/-- R566: whether a wake source ends DORMANT. -/
def endsDormant (s : State) (src : Nat) : Bool :=
  match src with
  | 1 => s.flag R.PWR_WAKE.FRAME_EN []
  | 2 => true
  | 3 => s.flag R.PWR_WAKE.SAHROV_EN []
  | 4 => s.flag R.PWR_WAKE.TIMER_EN []
  | 5 => s.flag R.PWR_WAKE.BMC_EN []
  | 7 => true
  | _ => false

/-- R566: a wake source that its enable lets act. -/
def wake (s : State) (src : Nat) : State :=
  if bellman s || s.pwr.dark then s
  else if pwrSt s = psStandby then (if endsStandby s src then exitStandby s src else s)
  else if endsDormant s src then wakeDormant s src
  else s

/-- The bytes 8 to 11 and the like of a Bellman record that its CRC covers, checked (R604). -/
def recordOk (b : Bytes) : Bool := b.length == 16 && leAt b 12 4 == crc32 (b.take 12)

/-- R604: the newest valid Bellman record. -/
def newestRecord (s : State) : Option Bytes := (s.rev.records.filter recordOk).getLast?

/-- R604: at POR and COLD the newest valid record is read into REV_CAUSE; NEW is set where it has not been acknowledged. -/
def readCause (s : State) : State :=
  match newestRecord s with
  | none => s
  | some b =>
    let s := ((s.wr R.REV_CAUSE.CAUSE [] (byteAt b 0)).wr R.REV_CAUSE.SENSOR [] (byteAt b 1)).wr R.REV_CAUSE.SEQ [] (leAt b 4 4)
    let s := s.wr R.REV_CAUSE_UP.UPTIME [] (leAt b 8 4)
    if s.rev.ackSeq = some (leAt b 4 4) then s
    else { s.wr R.REV_CAUSE.NEW [] 1 with rev := { s.rev with causeEvent := true } }

/-- R596: the pending clears take effect. -/
def applyClears (s : State) : State :=
  s.rev.clears.foldl (fun s (c : Nat × Nat) => markRetired s c.1 c.2 false) s

/-- R570, R574, R576: a POR (`por`) or a COLD: everything but MRAM and fuses is cleared, the straps are latched, and the
reset sequence runs. The oscillator is measured against REFCLK once it runs. -/
def coldReset (s : State) (por : Bool) (kind src : Nat) : State :=
  let s := applyClears s
  let s := clearBlocks s
  let r := s.rev
  let s := { s with
    regs := if por then s.regs.por else s.regs.cold, hif := Hif.reset, hbm := [], fil := { s.fil with poison := [] },
    rev := { Rev.reset with sparesPc := r.sparesPc, logSeq := r.logSeq, records := r.records, bellSeq := r.bellSeq,
                            ackSeq := r.ackSeq, hbAt := s.now, upAt := s.now },
    pwr := { Pwr.reset with ownerSel := s.pwr.ownerSel, hostSplit := s.pwr.hostSplit, stackId := s.pwr.stackId },
    trust := { Trust.reset with prefR := s.trust.prefR, prefF := s.trust.prefF, limit := s.trust.limit,
                                boots := s.trust.boots + 1, firstR := s.trust.prefR, firstF := s.trust.prefF } }
  let s := s.wr R.DBG_LMS.NEXT [] s.trust.limit
  let s := if r.inControl.isSome then (s.emit (.pinZ .faultN)).emit (.pinZ .boardRstReqN) else s
  let s := latchStraps s
  let s := s.wr R.CLK_STATUS.REFCLK_OK [] 1
  let (k, s) := s.freeBits 24
  let s := s.wr R.CLK_OSC.OSC_KHZ [] (142500 + k % 15001)
  let s := readCause (afterClear (release s))
  let s := setLost s kind
  let s := (s.wr R.PWR_RST_CAUSE.KIND [] kind).wr R.PWR_RST_CAUSE.SOURCE [] src
  if kind = 2 then pwrCount s 7 else s

/-- R659: the supply is lost. MRAM records and fuses stay whole; everything else is gone until the power ramp. -/
def loseSupply (s : State) : State :=
  let t := coldReset s true 1 4
  { t with regs := s.regs.por, pwr := { t.pwr with dark := true }, trust := { t.trust with boots := s.trust.boots } }

end Sys2Proof.Machine
end

