-- ==== Sys2Proof/Machine/Carter.lean ====
section
/-! DEFINITION. The meanings of the Carter commands (R250 to R336).
Log entries 6. -/

namespace Sys2Proof.Machine

open Sys2Proof

/-- WIRE_WRITE (R281): the WRITE packet at the front of Carter's input. -/
def execWireWrite (h : Hap) (s : State) : Ans := whenUp s fun s =>
  .next (rxWrite s 1 h)

/-- WIRE_WRITE_IMM (R281). -/
def execWireWriteImm (h : Hap) (s : State) : Ans := whenUp s fun s =>
  .next (rxWrite s 2 h)

/-- WIRE_SEND (R281). -/
def execWireSend (h : Hap) (s : State) : Ans := whenUp s fun s =>
  .next (rxSend s 3 h)

/-- WIRE_SEND_IMM (R281). -/
def execWireSendImm (h : Hap) (s : State) : Ans := whenUp s fun s =>
  .next (rxSend s 4 h)

/-- READ_REQ (R281): `d` is what the read of the source brought. -/
def execReadReq (d : RdRes) (h : Hap) (s : State) : Ans := whenUp s fun s =>
  .next (rxReadReq s d h)

/-- READ_RESP (R281). -/
def execReadResp (h : Hap) (s : State) : Ans := whenUp s fun s =>
  .next (rxResp s 6 h)

/-- WIRE_ATOMIC (R325): `d` is the value before the operation. -/
def execWireAtomic (d : RdRes) (h : Hap) (s : State) : Ans := whenUp s fun s =>
  .next (rxAtomic s d h)

/-- ATOMIC_RESP (R281). -/
def execAtomicResp (h : Hap) (s : State) : Ans := whenUp s fun s =>
  .next (rxResp s 8 h)

/-- ACK (R273): the ACK at the front of Carter's input. -/
def execAck (s : State) : Ans := whenUp s fun s =>
  .next (rxAck s)

/-- NAK (R274). -/
def execNak (s : State) : Ans := whenUp s fun s =>
  .next (rxNak s)

/-- CREDIT (R266, R268). -/
def execCredit (s : State) : Ans := whenUp s fun s =>
  .next (rxCredit s)

/-- CREDIT_RPT (R268). -/
def execCreditRpt (s : State) : Ans := whenUp s fun s =>
  .next (rxReport s)

/-- DATA_PACKET_SEND (R294) on a connection; `fault` says that the cipher faulted (R351). -/
def execDataPacketSend (n : Fin 16777216) (fault : Bool) (s : State) : Ans := whenUp s fun s =>
  .next (sendNew s n.val fault)

/-- RETRANSMIT (R279): `x` is what the read of the source or of the keep brought. -/
def execRetransmit (n : Fin 16777216) (x : RdRes) (s : State) : Ans := whenUp s fun s =>
  .next (resend s n.val x)

/-- RETRANSMIT_TIMEOUT (R277). -/
def execRetransmitTimeout (n : Fin 16777216) (s : State) : Ans := whenUp s fun s =>
  .next (rtoExpire s n.val)

/-- RNR_DELAY_EXPIRY (R294). -/
def execRnrDelayExpiry (n : Fin 16777216) (psn : BitVec 32) (s : State) : Ans := whenUp s fun s =>
  .next (rnrExpire s n.val psn.toNat)

/-- CREDIT_REPEAT (R267). -/
def execCreditRepeat (n : Fin 16777216) (s : State) : Ans := whenUp s fun s =>
  .next (creditRepeat s n.val)

/-- CREDIT_RPT_REPEAT (R268). -/
def execCreditRptRepeat (n : Fin 16777216) (s : State) : Ans := whenUp s fun s =>
  .next (reportRepeat s n.val)

/-- ACK_DELAY_EXPIRY (R271). -/
def execAckDelayExpiry (n : Fin 16777216) (s : State) : Ans := whenUp s fun s =>
  .next (ackDelayEnd s n.val)

/-- WRITE (R286) at the head of a SEND ring; `x` is what the read of its source brought. -/
def execWrite (r : Fin 262144) (x : RdRes) (s : State) : Ans := whenUp s fun s =>
  .next (doMsg s r.val 1 x)

/-- WRITE_IMM (R286). -/
def execWriteImm (r : Fin 262144) (x : RdRes) (s : State) : Ans := whenUp s fun s =>
  .next (doMsg s r.val 2 x)

/-- SEND (R286). -/
def execSend (r : Fin 262144) (x : RdRes) (s : State) : Ans := whenUp s fun s =>
  .next (doMsg s r.val 3 x)

/-- SEND_IMM (R286). -/
def execSendImm (r : Fin 262144) (x : RdRes) (s : State) : Ans := whenUp s fun s =>
  .next (doMsg s r.val 4 x)

/-- READ (R321). -/
def execRead (r : Fin 262144) (s : State) : Ans := whenUp s fun s =>
  .next (doRead s r.val)

/-- ATOMIC (R325). -/
def execAtomic (r : Fin 262144) (s : State) : Ans := whenUp s fun s =>
  .next (doAtomic s r.val)

/-- RECV (R323) at the head of a RECV ring. -/
def execRecv (r : Fin 262144) (s : State) : Ans := whenUp s fun s =>
  .next (doRecv s r.val)

/-- CONN_ALLOC (R300). -/
def execConnAlloc (r : Fin 262144) (s : State) : Ans := whenUp s fun s =>
  .next (doAlloc s r.val)

/-- CONN_CONNECT (R322): `x` is what the read of the parameter block brought. -/
def execConnConnect (r : Fin 262144) (x : RdRes) (s : State) : Ans := whenUp s fun s =>
  .next (doConnect s r.val x)

/-- CONN_DESTROY (R301). -/
def execConnDestroy (r : Fin 262144) (s : State) : Ans := whenUp s fun s =>
  .next (connDestroyOp s r.val)

/-- CONN_QUERY (R330). -/
def execConnQuery (r : Fin 262144) (s : State) : Ans := whenUp s fun s =>
  .next (doConnQuery s r.val)

/-- MR_REG (R317). -/
def execMrReg (r : Fin 262144) (s : State) : Ans := whenUp s fun s =>
  .next (doMrReg s r.val)

/-- MR_DEREG (R319). -/
def execMrDereg (r : Fin 262144) (s : State) : Ans := whenUp s fun s =>
  .next (doMrDereg s r.val)

/-- CONTEXT_FETCH_COMPLETE (R315): `x` is what the read of the home brought. -/
def execContextFetchComplete (n : Fin 16777216) (x : RdRes) (s : State) : Ans := whenUp s fun s =>
  .next (fetchDone s n.val x)

/-- EVICTION (R310, R311, R313): slice `q` makes room for the fetch that waits first. -/
def execEviction (q : Fin 4) (s : State) : Ans := whenUp s fun s =>
  .next (makeRoom s q.val)

/-- CONTEXT_WRITEBACK_COMPLETE (R311). -/
def execContextWritebackComplete (n : Fin 16777216) (ok : Bool) (s : State) : Ans := whenUp s fun s =>
  .next (writebackDone s n.val ok)

/-- EVICT_PENDING_EXPIRY (R313). -/
def execEvictPendingExpiry (n : Fin 16777216) (s : State) : Ans := whenUp s fun s =>
  .next (evictExpire s n.val)

/-- CLOSING_COMPLETE (R302). -/
def execClosingComplete (n : Fin 16777216) (s : State) : Ans := whenUp s fun s =>
  .next (closingDone s n.val)

/-- CARTER_ENABLE (R333): EN written. -/
def execCarterEnable (en : Bool) (s : State) : Ans := fromHost s fun s =>
  .next (carEnable s en)

/-- PATH_WRITE (R316). -/
def execPathWrite (r : Fin 262144) (x : RdRes) (s : State) : Ans := whenUp s fun s =>
  .next (pathWrite s r.val x)

end Sys2Proof.Machine
end

