-- ==== Sys2Proof/Machine/Eth.lean ====
section
/-! DEFINITION. The meanings of the Ethernet port and lane commands (R62 to R86).
Log entries 6, 162. -/

namespace Sys2Proof.Machine

open Sys2Proof

/-- ETH_APPLY (R62). -/
def execEthApply (o : Fin 16) (s : State) : Ans := fromHost s fun s =>
  .next (ethApply s o.val)

/-- PORT_QUALIFIED (R70). -/
def execPortQualified (p : Fin 128) (s : State) : Ans := whenOn s fun s =>
  .next (portQualify s p.val)

/-- HOLD_TIMER_EXPIRY (R72). -/
def execHoldTimerExpiry (p : Fin 128) (s : State) : Ans := whenOn s fun s =>
  .next (holdExpire (clockTo s (SMap.get 0 s.eth.holdAt p.val)) p.val)

/-- LINK_TRAINING_TIMEOUT (R70): training starts again, and the port stays in TRAINING. -/
def execLinkTrainingTimeout (p : Fin 128) (s : State) : Ans := whenOn s fun s =>
  .next (if portState s p.val == epTraining && (portCfg s p.val).train then s.emit (.train p.val) else s)

/-- R68: the 10 ms of a verify attempt run out: at most three attempts. -/
def verifyTimeout (s : State) (p : Nat) : State :=
  if s.rd R.ETH_PORT_STATUS.VERIFY [p / 8, p % 8] ≠ 1 then s
  else
    let n := SMap.get 0 s.eth.tries p
    if n ≥ 3 then s.wr R.ETH_PORT_STATUS.VERIFY [p / 8, p % 8] 3
    else { s with eth := { s.eth with tries := SMap.ins s.eth.tries p (n + 1) } }.emit (.verify p)

/-- VERIFY_TIMEOUT (R68). -/
def execVerifyTimeout (p : Fin 128) (s : State) : Ans := whenOn s fun s =>
  .next (verifyTimeout s p.val)

/-- R83: a loss of CDR lock by a lane that held it counts as a failure in UP, HOLD or DOWN while every other lane of the
port was locked and aligned. -/
def cdrLoss (s : State) (x : Nat) (aligned : Bool) : State :=
  let o := x / 8
  let l := x % 8
  if !s.flag R.ETH_LANE_STATUS.CDR_LOCK [o, l] then s
  else
    match laneOwner s o l with
    | none => laneLock s o l false
    | some p =>
      let st := portState s p
      let counts := (st == epUp || st == epHold || st == epDown) && aligned
        && (portLanes s p).all (fun k => k == l || s.flag R.ETH_LANE_STATUS.CDR_LOCK [o, k])
      let s := loseLink (laneLock s o l false) p
      if counts then laneFail s x else s

/-- LANE_CDR_LOSS (R83): lane 0 to 127; `aligned` says that the port's other lanes were aligned. -/
def execLaneCdrLoss (x : Fin 128) (aligned : Bool) (s : State) : Ans := whenOn s fun s =>
  .next (cdrLoss s x.val aligned)

/-- R69, R83: a PMD fault of a lane. -/
def pmdFault (s : State) (x : Nat) : State :=
  let s := laneLock s (x / 8) (x % 8) false
  let s := match laneOwner s (x / 8) (x % 8) with
    | some p => loseLink s p
    | none => s
  laneFail s x

/-- PMD_FAULT (R83). -/
def execPmdFault (x : Fin 128) (s : State) : Ans := whenOn s fun s =>
  .next (pmdFault s x.val)

/-- R69: what a port's loss of its link does to its lanes and faults. A lane that loses its lock, or reports a PMD fault, is one of
R83; any other cause starts the qualification of locked lanes again. -/
def linkLost (s : State) (p : Nat) (c : Loss) : State :=
  let again (s : State) : State := loseLink (setQual s p (if lanesLocked s p then some s.now else none)) p
  match c with
  | .lane l => if (portLanes s p).contains l then cdrLoss s (8 * (p / 8) + l) true else s
  | .pmd l => if (portLanes s p).contains l then pmdFault s (8 * (p / 8) + l) else s
  | .localFault => again (s.wr R.ETH_PORT_STATUS.LOCAL_FAULT [p / 8, p % 8] 1)
  | .remoteFault => again (s.wr R.ETH_PORT_STATUS.REMOTE_FAULT [p / 8, p % 8] 1)
  | .alignment => again s
  | .symbolErrors => again s

/-- LINK_LOST (R69, R72). -/
def execLinkLost (p : Fin 128) (c : Loss) (s : State) : Ans := whenOn s fun s =>
  .next (if portState s p.val = epDisabled then s else linkLost s p.val c)

/-- R83: codewords of a lane within 1 ms: corrected ones, and uncorrected ones; 16 uncorrected ones are a failure. -/
def fecBurst (s : State) (x corrected bad : Nat) : State :=
  let s := match laneOwner s (x / 8) (x % 8) with
    | some p => ethCount (ethCount s p 20 corrected) p 21 bad
    | none => s
  if bad ≥ 16 then laneFail s x else s

/-- FEC_UNCORRECTED_BURST (R83): the codewords counted within 1 ms. -/
def execFecUncorrectedBurst (x : Fin 128) (corrected bad : Nat) (s : State) : Ans := whenOn s fun s =>
  .next (fecBurst s x.val corrected bad)

/-- LANE_LOCK_ACQUIRED (R70, R106): a lane that is not retired locks. -/
def execLaneLockAcquired (x : Fin 128) (s : State) : Ans := whenOn s fun s =>
  .next (if laneRetired s (x.val / 8) (x.val % 8) then s else laneLock s (x.val / 8) (x.val % 8) true)

end Sys2Proof.Machine
end

