-- ==== Sys2Proof/Machine/HartOps.lean ====
section
/-! DEFINITION. How a hart goes from one instruction to the next: retirement and its counters, the triggers, entering debug
mode, the interrupt and the single step around an instruction (R492, R510, R511, R519, R520). Triggers and dcsr follow
the RISC-V Debug Specification 1.0, which R492 names.
Log entries 96. -/

namespace Sys2Proof.Machine

open Sys2Proof

def csrMinstret : Nat := 0xB02

/-- An instruction has retired and the hart goes on at `pc`. -/
def retireTo (s : State) (h pc : Nat) : State :=
  csrPut (setPc s h pc) h csrMinstret (csrRaw s h csrMinstret + 1)

/-- A Xelvchan instruction has retired: instret and mhpmcounter4 count it (R492). -/
def pcNext (s : State) (h : Nat) : State :=
  let s := csrPut s h 0xB04 (csrRaw s h 0xB04 + 1)
  retireTo s h ((hartGet s h).pc + 4)

/-- R520: a hart enters debug mode between instructions: dpc and dcsr take its pc, cause and mode; staging stays. -/
def haltHart (s : State) (h cause : Nat) : State :=
  let t := hartGet s h
  let d := setBits (setBits (csrRaw s h csrDcsr) 6 3 cause) 0 2 (if t.mmode then 3 else 0)
  ((csrPut (csrPut s h csrDcsr d) h csrDpc t.pc)).wr R.FIL_HART_CTL.STATE [h] hsHalt

/-- tdata1 and tdata2 of trigger `i`. -/
def tdata1 (s : State) (h i : Nat) : Nat := csrRaw s h (0x10000 + i)
def tdata2 (s : State) (h i : Nat) : Nat := csrRaw s h (0x20000 + i)

/-- The accesses a trigger may match: bits 0 to 2 of mcontrol6 are load, store and execute. -/
def trigBit (acc : MemAcc) : Nat := match acc with | .load => 0 | .store => 1 | .fetch => 2

/-- The address match of an mcontrol6 trigger: equal, NAPOT, greater or equal, less. -/
def trigAddr (k t2 a : Nat) : Bool :=
  match k with
  | 0 => a == t2
  | 1 => let n := 2 ^ (trailingOnes 63 t2 + 1); a / n == t2 / n
  | 2 => decide (t2 ≤ a)
  | _ => decide (a < t2)

/-- Whether trigger `i` matches an access at `a` in the hart's mode. A trigger whose action is the breakpoint exception does not
match in M mode while MIE is 0. -/
def trigMatches (s : State) (h i : Nat) (acc : MemAcc) (a : Nat) : Bool :=
  let t := tdata1 s h i
  let m := (hartGet s h).mmode
  bit t (trigBit acc) && bit t (if m then 6 else 3) && trigAddr (bits t 7 4) (tdata2 s h i) a
    && (bits t 12 4 == 1 || !m || bit (csrRaw s h csrMstatus) 3)

/-- The first trigger that an access meets. -/
def trigHit (s : State) (h : Nat) (acc : MemAcc) (a : Nat) : Option Nat :=
  (List.range 4).find? (fun i => trigMatches s h i acc a)

/-- A trigger fires before the access: debug mode, or a breakpoint exception whose mtval is the address. -/
def trigFire (s : State) (h i a : Nat) : State :=
  let s := csrPut s h (0x10000 + i) (setBit (tdata1 s h i) 22 true)
  if bits (tdata1 s h i) 12 4 = 1 then haltHart s h 2 else trapEnter s h 3 false a

/-- What a hart does in place of its next instruction, or that instruction: an interrupt that is enabled and pending (R510,
R511), a trigger on its address, else `f`. Single stepping takes interrupts only where stepie is 1. -/
def hartCycle (s : State) (h : Nat) (stepping : Bool) (f : State → State) : State :=
  match (if stepping && !bit (csrRaw s h csrDcsr) 11 then none else intrCause? s h) with
  | some c => trapEnter s h c true 0
  | none =>
    match trigHit s h .fetch (hartGet s h).pc with
    | some i => trigFire s h i (hartGet s h).pc
    | none => f s

/-- After a single step a hart that has not stopped halts with cause 4. -/
def stepHalt (s : State) (h : Nat) : State :=
  if hartSt s h = hsRun || hartSt s h = hsWait then haltHart s h 4 else s

/-- A hart executes an instruction; one that does not run, or that is HIGH and has used up its round (R497), executes nothing. -/
def hartStep (s : State) (h : Nat) (f : State → State) : State :=
  if !hartRuns s h then s
  else
    match issueTake s h with
    | none => s
    | some s =>
      let s := dutyTake s (coreOf h) (s.rd R.REV_THR.FIL_DUTY [])
      let stepping := bit (csrRaw s h csrDcsr) 2
      let s := hartCycle s h stepping f
      if stepping then stepHalt s h else s

end Sys2Proof.Machine
end

