-- ==== Sys2Proof/Machine/Filbert.lean ====
section
/-! DEFINITION. Filbert commands: the Xelvchan instructions, events, interrupts, wait groups, the issue table, hart resets,
channels and the frame pool (R496 to R528).
Log entries 104. -/

namespace Sys2Proof.Machine

open Sys2Proof

/-- R501: the encoding of a Xelvchan instruction. -/
def xelvWord (f3 rd rs1 rs2 : Nat) : Nat := 0x0B + rd * 2 ^ 7 + f3 * 2 ^ 12 + rs1 * 2 ^ 15 + rs2 * 2 ^ 20

/-- R500: a Xelvchan instruction that xelvctl does not allow raises an illegal-instruction exception. -/
def xelv (s : State) (h b word : Nat) (f : State → State) : State :=
  if xelvOk s h b then f s else trapEnter s h 2 false word

/-- R504: the status of a CH.SEND of hart `h` to channel `n`: 0 sent, 1 full or held, 2 refused. -/
def sendStatus (s : State) (h n : Nat) : Nat :=
  if n < 8192 then
    if !s.flag R.FIL_CH_W0.EN [n] || s.rd R.FIL_CH_W0.PROD_CLASS [n] ≠ 0 then 2
    else if s.rd R.FIL_CH_W0.PROD_GRP [n] < 64 && !inGroup s h (s.rd R.FIL_CH_W0.PROD_GRP [n]) then 2
    else if (chanMsgs s n).length ≥ chanDepth s n then 1
    else 0
  else if hwDepth n = 0 then 2
  else if (chanMsgs s n).length ≥ hwDepth n then 1
  else if 0xFF40 ≤ n && decide (s.fil.txUntil > s.now) then 1
  else 0

/-- R504: CH.SEND. -/
def doChSend (s : State) (h rd rs1 : Nat) : State :=
  xelv s h 0 (xelvWord 0 rd rs1 0) fun s =>
    let n := xr s h rs1 % 65536
    let st := sendStatus s h n
    let s := if st = 0 then chanPush s n (hartGet s h).staging else s
    let s := s.inc R.FIL_CNT.COUNT [st]
    pcNext (xw s h rd st) h

/-- R505: CH.RECV. -/
def doChRecv (s : State) (h rd rs1 : Nat) : State :=
  xelv s h 0 (xelvWord 1 rd rs1 0) fun s =>
    let n := xr s h rs1 % 65536
    if n ≥ 8192 || !s.flag R.FIL_CH_W0.EN [n] then pcNext (xw s h rd 2) h
    else
      match chanMsgs s n with
      | [] => pcNext (xw s h rd 1) h
      | m :: rest =>
        let s := chanSet s n rest
        let s := hartPut s h { hartGet s h with recv := slice m 0 64 }
        pcNext (xw s h rd 0) h

/-- R501: CH.FILL. -/
def doChFill (s : State) (h rd rs1 : Nat) : State :=
  xelv s h 0 (xelvWord 2 rd rs1 0) fun s =>
    let n := xr s h rs1 % 65536
    let v := if (n < 8192 && s.flag R.FIL_CH_W0.EN [n]) || hwDepth n ≠ 0 then (chanMsgs s n).length else 0
    pcNext (xw s h rd v) h

/-- R508: whether EV.SEND from `h` to hart `t` is refused. -/
def evRefused (s : State) (h t : Nat) : Bool :=
  hartSt s t == hsRetired || hartSt s t == hsReset
    || (s.flag R.FIL_HART_CTL.WG_EN [t] && s.flag R.FIL_WG_W0.CLOSED [s.rd R.FIL_HART_CTL.WGRP [t]]
        && !inGroup s h (s.rd R.FIL_HART_CTL.WGRP [t]))

/-- R508: EV.SEND. -/
def doEvSend (s : State) (h rd rs1 rs2 : Nat) : State :=
  xelv s h 1 (xelvWord 4 rd rs1 rs2) fun s =>
    let t := xr s h rs1 % 512
    if evRefused s h t then pcNext ((xw s h rd 2).inc R.FIL_CNT.COUNT [8]) h
    else pcNext (xw (latchEv s t (xr s h rs2 % 32)) h rd 0) h

/-- R509: the events `p` are returned: rd takes them and the latched ones clear. -/
def evTake (s : State) (h rd p : Nat) : State :=
  let t := hartGet s h
  let s := hartPut s h { t with ev := t.ev - (t.ev &&& p), wait := none }
  pcNext (xw s h rd p) h

/-- R509: EV.WAIT. -/
def doEvWait (s : State) (h rd rs1 : Nat) : State :=
  xelv s h 1 (xelvWord 5 rd rs1 0) fun s =>
    let m := xr s h rs1
    let p := pendingEv s h &&& m
    if p ≠ 0 || m = 0 then evTake s h rd p
    else (hartPut s h { hartGet s h with wait := some (m, rd) }).wr R.FIL_HART_CTL.STATE [h] hsWait

/-- R509: EV.POLL. -/
def doEvPoll (s : State) (h rd rs1 : Nat) : State :=
  xelv s h 1 (xelvWord 6 rd rs1 0) fun s => evTake s h rd (pendingEv s h &&& xr s h rs1)

/-- R509: a waiting hart goes on: a masked event is pending, or an enabled interrupt traps at the EV.WAIT. -/
def wakeHart (s : State) (h : Nat) : State :=
  if hartSt s h ≠ hsWait || !coreLive s (coreOf h) then s
  else
    match (hartGet s h).wait with
    | none => s
    | some (m, rd) =>
      let p := pendingEv s h &&& m
      if p ≠ 0 then evTake (s.wr R.FIL_HART_CTL.STATE [h] hsRun) h rd p
      else
        match intrCause? s h with
        | some c => trapEnter (s.wr R.FIL_HART_CTL.STATE [h] hsRun) h c true 0
        | none => s

/-- CH_SEND: hart `h` executes CH.SEND (R504). -/
def execChSend (h : Fin 512) (rd rs1 : Fin 32) (s : State) : Ans :=
  .next (hartStep s h fun s => doChSend s h rd rs1)

/-- CH_RECV: hart `h` executes CH.RECV (R505). -/
def execChRecv (h : Fin 512) (rd rs1 : Fin 32) (s : State) : Ans :=
  .next (hartStep s h fun s => doChRecv s h rd rs1)

/-- CH_FILL: hart `h` executes CH.FILL (R501). -/
def execChFill (h : Fin 512) (rd rs1 : Fin 32) (s : State) : Ans :=
  .next (hartStep s h fun s => doChFill s h rd rs1)

/-- EV_SEND: hart `h` executes EV.SEND (R508). -/
def execEvSend (h : Fin 512) (rd rs1 rs2 : Fin 32) (s : State) : Ans :=
  .next (hartStep s h fun s => doEvSend s h rd rs1 rs2)

/-- EV_WAIT: hart `h` executes EV.WAIT (R509). -/
def execEvWait (h : Fin 512) (rd rs1 : Fin 32) (s : State) : Ans :=
  .next (hartStep s h fun s => doEvWait s h rd rs1)

/-- EV_POLL: hart `h` executes EV.POLL (R509). -/
def execEvPoll (h : Fin 512) (rd rs1 : Fin 32) (s : State) : Ans :=
  .next (hartStep s h fun s => doEvPoll s h rd rs1)

/-- EV_WAIT_WAKE (R509). -/
def execEvWaitWake (h : Fin 512) (s : State) : Ans := .next (wakeHart s h)

/-- TIMER_INTERRUPT (R510): MTIME has reached MTIMECMP; MTIP and event bit 48 are levels of that comparison. A hart that
runs or waits with the interrupt enabled takes it; a hart that waits on bit 48 goes on. -/
def execTimerInterrupt (h : Fin 512) (s : State) : Ans :=
  if s.mtime < SMap.get (2 ^ 64 - 1) s.fil.mtimecmp h then .next s
  else if hartSt s h = hsWait then .next (wakeHart s h)
  else if hartRuns s h && intrCause? s h == some 7 then .next (trapEnter s h 7 true 0)
  else .next s

/-- IRQ_PEND_WRITE (R510, R527): a W1S write to IRQ_PEND raises MEIP where IRQ_EN enables the bit. -/
def execIrqPendWrite (h : Fin 512) (v : Fin 256) (s : State) : Ans := fromHost s fun s =>
  .next (s.wr R.FIL_HART_IRQ.IRQ_PEND [h] (s.rd R.FIL_HART_IRQ.IRQ_PEND [h] ||| v))

/-- R517: whether a member of group `g` is internally blocked. -/
def isBlocked (s : State) (g h : Nat) : Bool :=
  match (hartGet s h).wait with
  | none => false
  | some (m, _) =>
    hartSt s h == hsWait && (pendingEv s h &&& m) == 0
      && (List.range 64).all (fun b => !bit m b
          || (b < 32 && s.flag R.FIL_WG_W0.CLOSED [g])
          || (32 ≤ b && b < 48 && s.rd R.FIL_CH_W0.PROD_CLASS [s.rd R.FIL_CHW.CHAN [h, b - 32]] == 0
              && s.rd R.FIL_CH_W0.PROD_GRP [s.rd R.FIL_CHW.CHAN [h, b - 32]] == g))

/-- The harts of wait group `g` (R516). -/
def members (s : State) (g : Nat) : List Nat := (List.range 512).filter (fun h => inGroup s h g)

/-- R516: members that are retired, FAILED or held in reset take no part. -/
def takesPart (s : State) (h : Nat) : Bool :=
  hartSt s h ≠ hsRetired && hartSt s h ≠ hsFailed && hartSt s h ≠ hsReset

/-- R518: WAITCYCLE raised for group `g`. A retired or FAILED watcher receives nothing. -/
def raiseCycle (s : State) (g : Nat) : State :=
  let w := s.rd R.FIL_WG_W0.WATCHER [g]
  let s :=
    if hartSt s w = hsRetired || hartSt s w = hsFailed then s
    else
      let s := latchEv s w 49
      hartPut s w { hartGet s w with wcip := true }
  let s := s.wr R.FIL_WG_W0.CYCLE [g] 1
  let s := s.inc R.FIL_WG_CNT.COUNT [g]
  s.inc R.FIL_CNT.COUNT [9]

/-- R516 to R518: one sample of group `g`. -/
def sampleGroup (s : State) (g : Nat) : State :=
  let part := (members s g).filter (takesPart s)
  let s := s.wr R.FIL_WG_W1.MEMBERS [g] part.length
  if !s.flag R.FIL_WG_W0.EN [g] || (members s g).any (fun h => hartSt s h == hsHalt)
      || s.rd R.PWR_STATUS.STATE [] == 2 || part.isEmpty then s
  else
    let now := part.all (isBlocked s g)
    let before := part.all (fun h => (hartGet s h).blocked)
    let marks := part.map (fun h => (h, isBlocked s g h))
    let s := marks.foldl (fun s p => hartPut s p.1 { hartGet s p.1 with blocked := p.2 }) s
    if !now then s.wr R.FIL_WG_W0.CYCLE [g] 0
    else if before && !s.flag R.FIL_WG_W0.CYCLE [g] then raiseCycle s g
    else s

/-- WAITCYCLE_SAMPLE (R517). -/
def execWaitcycleSample (g : Fin 64) (s : State) : Ans := .next (sampleGroup s g)

/-- The owner and protect bit of slot `i` of the staged table of core `c` (R526). -/
def stagedSlot (s : State) (c i : Nat) : Nat × Bool :=
  let w := if i < 8 then s.rd R.FIL_CORE_TABLE_LO.SLOTS_0_7 [c] else s.rd R.FIL_CORE_TABLE_HI.SLOTS_8_15 [c]
  (bits w (4 * (i % 8)) 3, bit w (4 * (i % 8) + 3))

/-- R498: why the staged table of core `c` is refused: 1 protection too low, 2 adjacent protected slots, 0 accepted. -/
def issueCheck (s : State) (c : Nat) : Nat :=
  let slots := (List.range 16).map (stagedSlot s c)
  let high := if s.flag R.FIL_CORE_CTL.HIGH_EN [c] then some (s.rd R.FIL_CORE_CTL.HIGH_HART [c]) else none
  let low := (List.range 8).any (fun t =>
    high ≠ some t &&
      (slots.filter (fun p => p.1 == t && p.2)).length < ceilDiv (slots.filter (fun p => p.1 == t)).length 4)
  let adj := (List.range 16).any (fun i => (stagedSlot s c i).2 && (stagedSlot s c ((i + 1) % 16)).2)
  if low then 1 else if adj then 2 else 0

/-- R498: the staged issue table checked and installed from the next round on, or refused with CFG_ERR. -/
def issueApply (s : State) (c : Nat) : State :=
  let e := issueCheck s c
  if e ≠ 0 then
    ((s.wr R.FIL_STATUS.CFG_ERR [] 1).wr R.FIL_STATUS.ERR_CODE [] e).wr R.FIL_STATUS.ERR_CORE [] c
  else
    let t : Issue := { lo := s.rd R.FIL_CORE_TABLE_LO.SLOTS_0_7 [c], hi := s.rd R.FIL_CORE_TABLE_HI.SLOTS_8_15 [c],
                       highEn := s.flag R.FIL_CORE_CTL.HIGH_EN [c], highHart := s.rd R.FIL_CORE_CTL.HIGH_HART [c],
                       highCap := max 1 (s.rd R.FIL_CORE_CTL.HIGH_CAP [c]) }
    { s with fil := { s.fil with issue := SMap.set Issue.reset s.fil.issue c (issueOf s c),
                                 nextIssue := SMap.ins s.fil.nextIssue c (roundNo s + 1, t) } }

/-- ISSUE_TABLE_APPLY (R498). -/
def execIssueTableApply (c : Fin 64) (s : State) : Ans := fromHost s fun s =>
  .next (issueApply s c)

/-- HART_RESET (R521): a write of 1 to FIL_HART RESET. -/
def execHartReset (h : Fin 512) (s : State) : Ans := fromHost s fun s =>
  .next (hartReset s h)

/-- HART_RELEASE (R521). -/
def execHartRelease (h : Fin 512) (s : State) : Ans := fromHost s fun s =>
  .next (releaseHart s h)

/-- FRAME_BUFFER_RETURN (R514): the head message of channel 0xFF20 returns up to 16 buffers. -/
def execFrameBufferReturn (s : State) : Ans := whenUp s fun s =>
  match chanMsgs s 0xFF20 with
  | [] => .next s
  | m :: rest =>
    let ids := ((List.range 16).map (fun i => leAt m (4 * i) 4)).filter (· ≠ 0xFFFFFFFF)
    .next (ids.foldl returnBuf (chanSet s 0xFF20 rest))

/-- R528: why enabling channel `n` is refused: 3 reserved PROD_CLASS, 4 slots overlap or overrun the store, 0 accepted. -/
def chanEnCheck (s : State) (n : Nat) : Nat :=
  let lo := s.rd R.FIL_CH_W1.BASE [n]
  let hi := lo + chanDepth s n
  if s.rd R.FIL_CH_W0.PROD_CLASS [n] ≥ 4 then 3
  else if hi > 65536 then 4
  else if (List.range 8192).any (fun m => m ≠ n && s.flag R.FIL_CH_W0.EN [m]
      && s.rd R.FIL_CH_W1.BASE [m] < hi && lo < s.rd R.FIL_CH_W1.BASE [m] + chanDepth s m) then 4
  else 0

/-- R503, R528: a write of FIL_CH EN from 0 to 1. -/
def chanEnable (s : State) (n : Nat) : State :=
  if s.flag R.FIL_CH_W0.EN [n] then s
  else
    let e := chanEnCheck s n
    if e ≠ 0 then (s.wr R.FIL_STATUS.CFG_ERR [] 1).wr R.FIL_STATUS.ERR_CODE [] e
    else chanSet (s.wr R.FIL_CH_W0.EN [n] 1) n []

/-- CHANNEL_ENABLE (R528). -/
def execChannelEnable (n : Fin 8192) (s : State) : Ans := fromHost s fun s =>
  .next (chanEnable s n)

/-- HALT (R520). -/
def execHalt (h : Fin 512) (s : State) : Ans := whenOn s fun s =>
  if unlocked s 0 && (hartSt s h == hsRun || hartSt s h == hsWait) then .next (haltHart s h 3) else .next s

/-- R520: a halted hart resumes at dpc in the mode of dcsr; one that halted in EV.WAIT waits again. -/
def resumeHart (s : State) (h : Nat) : State :=
  let pc := csrRaw s h csrDpc
  let t := hartGet s h
  let w := if pc = t.pc then t.wait else none
  let s := hartPut s h { t with pc := pc, mmode := bits (csrRaw s h csrDcsr) 0 2 == 3, wait := w }
  s.wr R.FIL_HART_CTL.STATE [h] (if w.isSome then hsWait else hsRun)

/-- RESUME (R520). -/
def execResume (h : Fin 512) (s : State) : Ans := whenOn s fun s =>
  if unlocked s 0 && hartSt s h == hsHalt then .next (resumeHart s h) else .next s

/-- HARTRESET (R520, R521): debug hartreset performs a HART reset. -/
def execHartreset (h : Fin 512) (s : State) : Ans := whenOn s fun s =>
  if unlocked s 0 then .next (hartReset s h) else .next s

end Sys2Proof.Machine
end

