-- ==== Sys2Proof/Machine/Hif.lean ====
section
/-! DEFINITION. Host Interface commands: completions and tags, translation, invalidation, bus mastering, power states,
links, interrupts, internal errors (R432 to R450).
Log entries 12, 15, 80, 83, 178, 184. -/

namespace Sys2Proof.Machine

open Sys2Proof

/-- The tag held at an attach point, if any. -/
def tagFind? (s : State) (a t : Nat) : Option Tag := s.hif.tags.find? (fun x => x.ap == a && x.tag == t)

/-- A tag leaves the table. -/
def tagDrop (s : State) (a t : Nat) : State :=
  syncTags { s with hif := { s.hif with tags := s.hif.tags.filter (fun x => !(x.ap == a && x.tag == t)) } } a

/-- R441, R445: a tag quarantined as `st` until 2 × T from now. -/
def tagMark (s : State) (a t : Nat) (st : TagSt) : State :=
  let q (x : Tag) : Tag := if x.ap == a && x.tag == t then { x with st := st, due := s.now + 2 * x.tmo } else x
  syncTags { s with hif := { s.hif with tags := s.hif.tags.map q } } a

/-- R438: translated requests that wait for a tag are sent while one is free. -/
def sendReady (s : State) (a : Nat) : State :=
  match s.hif.held.find? (fun h => h.ap == a && (match h.st with | .ready _ => true | _ => false)) with
  | none => s
  | some h =>
    match h.st, freeTag? s a h.fn with
    | .ready t, some _ =>
      let s := { s with hif := { s.hif with held := s.hif.held.erase h } }
      sendRead s a h.fn h.inst h.req t h.len h.pasid (some (h.pasid, h.addr / 4096))
    | _, _ => s

/-- R309: Carter reads a SEND ring ahead of execution: the context that a fetched descriptor names is wanted. -/
def aheadFetch (s : State) (r : Nat) (d : Bytes) : State :=
  let op := byteAt d 0
  if ringType s r ≠ 2 || !((1 ≤ op && op ≤ 5) || op = 7 || (0x41 ≤ op && op ≤ 0x43)) then s
  else
    match connGet s (leAt d 8 3) with
    | some c => if c.inst = ringInst s r then wantContext s (leAt d 8 3) else s
    | none => s

/-- R442: the data, or the failure, of a read goes to whoever waits for it. -/
def deliver (s : State) (q : Req) (x : RdRes) : State :=
  match q with
  | .desc r k =>
    match x with
    | .ok d => aheadFetch (descArrive s r k d) r d
    | y => descFail s r k (faultCause y)
  | _ => s

/-- R441, R442, R436: a completion for a tag of an attach point. -/
def doReadCompletion (s : State) (a t : Nat) (x : RdRes) : State :=
  match tagFind? s a t with
  | none => logUncor (s.inc R.HIF_CNT.COUNT [a, 9]) a 0 aerUnexpected true
  | some g =>
    match g.st with
    | .quarantined => logUncor (s.inc R.HIF_CNT.COUNT [a, 8]) a g.fn aerUnexpected true
    | .orphanQuar => s.inc R.HIF_CNT.COUNT [a, 10]
    | .orphaned => sendReady (tagDrop (s.inc R.HIF_CNT.COUNT [a, 10]) a t) a
    | .outstanding =>
      let s := tagDrop s a t
      let s := match x with
        | .ok d => readOutcome s a g.fn d.length x
        | .poison d => readOutcome s a g.fn d.length x
        | .timeout => s
        | _ => readOutcome s a g.fn 0 x
      let s := if quiesced s a g.fn then s else deliver s g.req x
      sendReady s a

/-- READ_COMPLETION (R441). A completion carries data, poisoned data, UR or CA. -/
def execReadCompletion (a : Fin 8) (t : Fin 1024) (x : RdRes) (s : State) : Ans := fromHost s fun s =>
  .next (doReadCompletion (linkActive s a) a t x)

/-- COMPLETION_TIMEOUT (R440, R441, R445): the request fails and its tag is quarantined; an orphan's is quarantined with
nothing logged. -/
def execCompletionTimeout (a : Fin 8) (t : Fin 1024) (s : State) : Ans := whenOn s fun s =>
  match tagFind? s a t with
  | none => .next s
  | some g =>
    match g.st with
    | .outstanding =>
      let s := clockTo s g.due
      let s := logUncor ((tagMark s a t .quarantined).inc R.HIF_CNT.COUNT [a, 7]) a g.fn aerTimeout true
      .next (if quiesced s a g.fn then s else deliver s g.req .timeout)
    | .orphaned => .next (tagMark (clockTo s g.due) a t .orphanQuar)
    | _ => .next s

/-- QUARANTINE_END (R441). -/
def execQuarantineEnd (a : Fin 8) (t : Fin 1024) (s : State) : Ans := whenOn s fun s =>
  match tagFind? s a t with
  | none => .next s
  | some g =>
    match g.st with
    | .quarantined => .next (sendReady (tagDrop (clockTo s g.due) a t) a)
    | .orphanQuar => .next (sendReady (tagDrop (clockTo s g.due) a t) a)
    | _ => .next s

/-- Whether a held request is a write of a ring. -/
def Held.isWrite (h : Held) : Bool := match h.req with
  | .cpl _ _ _ => true
  | .put _ _ _ => true
  | _ => false

/-- Whether a held request needs write permission (R439). -/
def Held.wantsWrite (h : Held) : Bool := match h.req with
  | .page w => w
  | _ => h.isWrite

/-- R42, R433: the writes of a function that stood behind a held one go on, in order, up to one that must be translated. -/
def heldNext (fuel : Nat) (s : State) (a f : Nat) : State :=
  match fuel with
  | 0 => s
  | n + 1 =>
    match s.hif.held.find? (fun h => h.ap == a && h.fn == f && h.isWrite) with
    | none => s
    | some h =>
      if h.st ≠ .behind then s
      else
        match atcFind? s a f h.pasid h.addr with
        | none =>
          let s := { s with hif := { s.hif with held := s.hif.held.map (fun x => if x = h then { h with st := .translating } else x) } }
          sendTlp (s.inc R.HIF_CNT.COUNT [a, 17]) a (.transReq a f (h.addr / 4096) h.pasid)
        | some e =>
          let s := { s with hif := { s.hif with held := s.hif.held.erase h } }
          let t := e.target * 4096 + h.addr % 4096
          let s := match h.req with
            | .cpl r _ d =>
              if e.w then cplSent (hostWrite (atcTouch s e) a f t d false false h.pasid h.inst) r d
              else cplFail s r
            | .put r _ d =>
              if e.w then hostWrite (atcTouch s e) a f t d false false h.pasid h.inst else cplFail s r
            | _ => s
          heldNext n s a f

/-- R439, R442: a translation fault ends the work of a held request. -/
def heldFault (s : State) (h : Held) : State :=
  let s := { s with hif := { s.hif with held := s.hif.held.erase h } }
  let s := s.inc R.HIF_CNT.COUNT [h.ap, 18]
  match h.req with
  | .desc r k => descFail s r k 1
  | .cpl r _ _ => heldNext s.hif.held.length (cplFail s r) h.ap h.fn
  | .put r _ _ => heldNext s.hif.held.length (cplFail s r) h.ap h.fn
  | _ => s

/-- R439: a held request goes on under a translation: the read or the completion write is sent. -/
def heldGo (s : State) (h : Held) (target : Nat) : State :=
  let s := { s with hif := { s.hif with held := s.hif.held.erase h } }
  if !busEn s h.ap h.fn || quiesced s h.ap h.fn then s.inc R.HIF_CNT.COUNT [h.ap, 11]
  else
    let addr := target * 4096 + h.addr % 4096
    match h.req with
    | .page w => if w && h.fn == 3 then cqPumpAll s h.ap else s
    | .cpl r _ d => heldNext s.hif.held.length (cplSent (hostWrite s h.ap h.fn addr d false false h.pasid h.inst) r d) h.ap h.fn
    | .put _ _ d => heldNext s.hif.held.length (hostWrite s h.ap h.fn addr d false false h.pasid h.inst) h.ap h.fn
    | q =>
      match freeTag? s h.ap h.fn with
      | some _ => sendRead s h.ap h.fn h.inst q addr h.len h.pasid (some (h.pasid, h.addr / 4096))
      | none => { s with hif := { s.hif with held := s.hif.held ++ [{ h with st := .ready addr }] } }

/-- Whether a held request waits for the translation of a page. -/
def Held.waits (h : Held) (a f : Nat) (pasid : Option Nat) (page : Nat) : Bool :=
  h.ap == a && h.fn == f && h.pasid == pasid && h.addr / 4096 == page
    && (match h.st with | .translating => true | .retrying => true | _ => false)

/-- R439: what a Translation Completion without the needed permission does to a held request: a Page Request where PRI
allows it and none was made, else a translation fault. -/
def heldDenied (s : State) (h : Held) : State :=
  let out := s.rd R.HIF_FN_PRI.PRI_OUT [h.ap, h.fn]
  if h.st == .translating && priEn s h.ap h.fn && out < cfgGet s h.ap h.fn 93 then
    let due := s.now + max 1 (s.rd R.HIF_AP_PRI.PRI_TMO [h.ap]) * 10000000
    let s := { s with hif := { s.hif with held := s.hif.held.map (fun x => if x = h then { h with st := .pageWait, due := due } else x) } }
    sendTlp (s.inc R.HIF_FN_PRI.PRI_OUT [h.ap, h.fn]) h.ap (.pageReq h.ap h.fn (h.addr / 4096) out h.pasid)
  else heldFault s h

/-- R439, R450: a Translation Completion: `x` is the translated page with its R and W, none for UR or CA. -/
def doTranslation (s : State) (a f : Nat) (pasid : Option Nat) (page : Nat) (x : Option (Nat × Bool × Bool)) : State :=
  let waiting := s.hif.held.filter (fun h => h.waits a f pasid page)
  if waiting.any (·.stale) then
    let s := { s with hif := { s.hif with
      held := s.hif.held.map (fun (h : Held) => if h.waits a f pasid page then { h with stale := false } else h) } }
    sendTlp (s.inc R.HIF_CNT.COUNT [a, 17]) a (.transReq a f page pasid)
  else
    match x with
    | some (t, r, w) =>
      if !r && !w then waiting.foldl heldDenied s
      else
        let s := if waiting.isEmpty then s else atcInsert s { ap := a, fn := f, pasid := pasid, page := page, target := t, r := r, w := w }
        waiting.foldl (fun s h => if (if h.wantsWrite then w else r) then heldGo s h t else heldDenied s h) s
    | none => waiting.foldl heldDenied s

/-- TRANSLATION_RESPONSE (R439). -/
def execTranslationResponse (a f : Fin 8) (pasid : Option (Fin 1048576)) (page : Nat) (x : Option (Nat × Bool × Bool))
    (s : State) : Ans := fromHost s fun s =>
  .next (doTranslation (linkActive s a) a f (pasid.map (·.val)) page x)

/-- The held request of a function that waits for a Page Request Group Response for a page. -/
def pageWaiter (s : State) (a f : Nat) (pasid : Option Nat) (page : Nat) : Option Held :=
  s.hif.held.find? (fun h => h.ap == a && h.fn == f && h.pasid == pasid && h.addr / 4096 == page && h.st == .pageWait)

/-- R439: a Page Request ends: with success the translation is retried once, otherwise a translation fault. -/
def pageEnd (s : State) (a f : Nat) (pasid : Option Nat) (page : Nat) (ok : Bool) : State :=
  match pageWaiter s a f pasid page with
  | none => s
  | some h =>
    let s := s.sub R.HIF_FN_PRI.PRI_OUT [a, f] 1
    if ok then
      let s := { s with hif := { s.hif with held := s.hif.held.map (fun x => if x = h then { h with st := .retrying } else x) } }
      sendTlp (s.inc R.HIF_CNT.COUNT [a, 17]) a (.transReq a f page pasid)
    else heldFault s h

/-- PAGE_REQUEST_GROUP_RESPONSE (R439); one for no Page Request outstanding is discarded and counted (R450). -/
def execPageRequestGroupResponse (a f : Fin 8) (pasid : Option (Fin 1048576)) (page : Nat) (ok : Bool) (s : State) : Ans := fromHost s fun s =>
  match pageWaiter s a f (pasid.map (·.val)) page with
  | none => .next (s.inc R.HIF_CNT.COUNT [a.val, 9])
  | some _ => .next (pageEnd s a f (pasid.map (·.val)) page ok)

/-- PRI_TIMEOUT (R439): PRI_TMO ms after the Page Request. -/
def execPriTimeout (a f : Fin 8) (pasid : Option (Fin 1048576)) (page : Nat) (s : State) : Ans := whenOn s fun s =>
  let due := ((pageWaiter s a f (pasid.map (·.val)) page).map (·.due)).getD 0
  .next (pageEnd (clockTo s due) a f (pasid.map (·.val)) page false)

/-- Whether page `p` under a PASID lies in an invalidated range. -/
def Inval.covers (v : Inval) (a f : Nat) (pasid : Option Nat) (p : Nat) : Bool :=
  v.ap == a && v.fn == f && (v.glob || v.pasid == pasid) && v.lo ≤ p && p < v.hi

/-- R439, R450: matching cache entries leave; requests that wait for an overlapping translation will translate again. -/
def doInvalidate (s : State) (v : Inval) : State :=
  let atc := s.hif.atc.filter (fun e => !v.covers e.ap e.fn e.pasid e.page)
  let held := s.hif.held.map (fun h => if v.covers h.ap h.fn h.pasid (h.addr / 4096) then { h with stale := true } else h)
  let s := { s with hif := { s.hif with atc := atc, held := held, inval := s.hif.inval ++ [v] } }
  let s := s.wr R.HIF_AP_ATC.ATC_USED [v.ap] (atc.filter (fun e => e.ap == v.ap)).length
  s.inc R.HIF_CNT.COUNT [v.ap, 19]

/-- INVALIDATION_REQUEST (R428, R439): pages lo to hi − 1 of a function, under a PASID or without one; none is Global Invalidate,
which holds for every PASID. -/
def execInvalidationRequest (a f : Fin 8) (itag : Fin 32) (pasid : Option (Option (Fin 1048576))) (lo hi : Nat) (s : State) : Ans := fromHost s fun s =>
  .next (doInvalidate (linkActive s a) { ap := a, fn := f, itag := itag, pasid := (pasid.getD none).map (·.val), lo := lo, hi := hi,
                                         glob := pasid.isNone })

/-- R439: whether a read issued under an invalidated range is still outstanding. -/
def invalBusy (s : State) (v : Inval) : Bool :=
  s.hif.tags.any (fun t => t.st == .outstanding && (match t.page with | some (p, g) => v.covers t.ap t.fn p g | none => false))

/-- INVALIDATION_COMPLETION (R439, R433): sent once no read under the range is outstanding. -/
def execInvalidationCompletion (a f : Fin 8) (itag : Fin 32) (s : State) : Ans := whenOn s fun s =>
  match s.hif.inval.find? (fun v => v.ap == a.val && v.fn == f.val && v.itag == itag.val) with
  | none => .next s
  | some v =>
    if invalBusy s v then .next s
    else .next (sendPosted { s with hif := { s.hif with inval := s.hif.inval.erase v } } a (.invCpl a f itag) none)

/-- The instances bound to a function that are not FREE (R457). -/
def fnInsts (s : State) (a f : Nat) : List Nat :=
  (List.range 16384).filter (fun i =>
    s.rd R.DOM_INST_W0.STATE [i] ≠ 0 && s.rd R.DOM_INST_W0.AP [i] == a && s.rd R.DOM_INST_W0.CLASS [i] == f)

/-- The rings whose requests a function carries (R480 for the owner PF0). -/
def fnRings (s : State) (a f : Nat) : List Nat :=
  (List.map Prod.fst s.dom.rings).filter (fun r => ringSt s r ≠ 0 && ringFn s r == (a, f))

/-- R464, R473: states of a function's instances and rings changed together. -/
def moveFn (s : State) (a f : Nat) (inst : Nat → Nat) (ring : Nat → Nat) : State :=
  let s := (fnInsts s a f).foldl (fun s i => s.wr R.DOM_INST_W0.STATE [i] (inst (s.rd R.DOM_INST_W0.STATE [i]))) s
  (fnRings s a f).foldl (fun s r => s.wr R.DOM_RING_W0.STATE [r] (ring (ringSt s r))) s

/-- The requests of a function that HIF has not issued yet are dropped, the writes among them counted (R444, R445). -/
def dropUnissued (s : State) (a f : Nat) : State :=
  let mine := fun (e : Stalled) => e.ap == a && (match e.out with | .hostWrite _ g _ _ _ _ _ => g == f | .intr _ g _ _ => g == f | _ => false)
  let wr := (s.hif.stalled.filter mine).length + (s.hif.held.filter (fun h => h.ap == a && h.fn == f && h.isWrite)).length
  let s := { s with hif := { s.hif with stalled := s.hif.stalled.filter (fun e => !mine e),
                                        held := s.hif.held.filter (fun h => !(h.ap == a && h.fn == f)) } }
  s.add R.HIF_CNT.COUNT [a, 11] wr

/-- R444: Bus Master Enable goes from 1 to 0: the function is QUIESCED. -/
def busMasterOff (s : State) (a f : Nat) : State :=
  let s := cfgPut s a f 1 (setBit (cfgGet s a f 1) 2 false)
  let s := s.wr R.HIF_FN_STATUS.QUIESCED [a, f] 1
  let s := s.wr R.HIF_FN_STATUS.REASON [a, f] 1
  let s := dropUnissued s a f
  let s := moveFn s a f (fun x => if x = 1 || x = 2 then 3 else x) (fun x => if x = rsRunning || x = rsHeld then rsQuiesced else x)
  let s := { s with hif := { s.hif with toPass := s.hif.toPass.filter (fun p => p.1 ≠ a * 8 + f) ++ (fnInsts s a f).map (fun i => (a * 8 + f, i)) } }
  if f = 3 then ctlQuiesce s a else s

/-- BUS_MASTER_ENABLE_CLEAR (R444). -/
def execBusMasterEnableClear (a f : Fin 8) (s : State) : Ans := fromHost s fun s =>
  if fnPresent s a f && busEn s a f then .next (busMasterOff s a f) else .next s

/-- R447: a function enters D3hot: its engines hold with state kept. A QUIESCED function keeps its reason (R450). -/
def d3Enter (s : State) (a f : Nat) : State :=
  let s := cfgPut s a f 17 (setBits (cfgGet s a f 17) 0 2 3)
  let s := s.wr R.HIF_FN_STATUS.D3HOT [a, f] 1
  let s := if quiesced s a f then s else s.wr R.HIF_FN_STATUS.REASON [a, f] 2
  moveFn s a f (fun x => if x = 1 then 2 else x) (fun x => if x = rsRunning then rsHeld else x)

/-- D3HOT_ENTRY (R447). -/
def execD3hotEntry (a f : Fin 8) (s : State) : Ans := fromHost s fun s =>
  if fnPresent s a f && !inD3 s a f then .next (d3Enter s a f) else .next s

/-- R447: return to D0 resumes the engines where they stopped. -/
def d0Enter (s : State) (a f : Nat) : State :=
  let s := cfgPut s a f 17 (setBits (cfgGet s a f 17) 0 2 0)
  let s := s.wr R.HIF_FN_STATUS.D3HOT [a, f] 0
  let s := if s.rd R.HIF_FN_STATUS.REASON [a, f] = 2 then s.wr R.HIF_FN_STATUS.REASON [a, f] 0 else s
  moveFn s a f (fun x => if x = 2 then 1 else x) (fun x => if x = rsHeld then rsRunning else x)

/-- D0_RETURN (R447). -/
def execD0Return (a f : Fin 8) (s : State) : Ans := fromHost s fun s =>
  if fnPresent s a f && inD3 s a f then .next (d0Enter s a f) else .next s

/-- R448, R650: a link that the host lets enter L1 (1), L1.1 (2) or L1.2 (3) enters it; L1.1 and L1.2 release HOST_CLKREQ_N. -/
def aspmEnter (s : State) (a l : Nat) : State :=
  let en := bit (cfgGet s a 0 28) 1 && (l ≠ 2 || bit (cfgGet s a 0 218) 3) && (l ≠ 3 || bit (cfgGet s a 0 218) 2)
  if l ≠ 0 && s.flag R.HIF_AP_LINK.LINK_UP [a] && en then
    clkreqShow (s.wr R.HIF_AP_LINK.LPM [a] l) a l
  else s

/-- ASPM_L1_ENTRY (R448). -/
def execAspmL1Entry (a : Fin 8) (lpm : Fin 4) (s : State) : Ans := whenOn s fun s =>
  .next (aspmEnter s a.val lpm.val)

/-- R57, R435: the credits that a host advertises for an attach point; 0 is unlimited. -/
def creditsSet (s : State) (a p n c : Nat) : State :=
  let set (m : SMap Nat) (v : Nat) : SMap Nat := if v = 0 then SMap.del m a else SMap.ins m a v
  { s with hif := { s.hif with credit := set s.hif.credit p, npCredit := set s.hif.npCredit n, cplCredit := set s.hif.cplCredit c } }

/-- R417, R420: whether an attach point's link can come up so: a speed of 2.5 to 64.0 GT/s, up to 8 lanes where its port is split
and 16 where it is not, FLIT mode at 64.0 GT/s. -/
def linkFits (s : State) (a : Nat) (speed : Fin 7) (width : Fin 17) (flit : Bool) : Bool :=
  apPresent s a && decide (1 ≤ speed.val) && [1, 2, 4, 8, 16].contains width.val
    && decide (width.val ≤ if s.flag R.HIF_PORT.SPLIT [a / 2] then 8 else 16) && (speed.val ≠ 6 || flit)

/-- HOST_LINK_UP (R420, R435, R449): the link reaches Data Link Layer Link Active with a speed, a width and FLIT mode,
and the host advertises its posted, non-posted and completion credits (0 is unlimited, as PCI Express gives). -/
def execHostLinkUp (a : Fin 8) (speed : Fin 7) (width : Fin 17) (flit : Bool) (credits : Nat × Nat × Nat) (s : State) : Ans := whenOn s fun s =>
  if !linkFits s a speed width flit then .next s
  else
    let s := s.wr R.HIF_AP_LINK.LINK_UP [a] 1
    let s := s.wr R.HIF_AP_LINK.SPEED [a] speed
    let s := s.wr R.HIF_AP_LINK.WIDTH [a] width
    let s := s.wr R.HIF_AP_LINK.FLIT [a] (b2n flit)
    let s := s.wr R.HIF_AP_LINK.IN_RESET [a] 0
    let s := s.wr R.HIF_AP_LINK.LPM [a] 0
    let s := (List.range 8).foldl (fun s f =>
      if s.rd R.HIF_FN_STATUS.REASON [a, f] = 4 then s.wr R.HIF_FN_STATUS.REASON [a, f] 0 else s) s
    .next (creditsSet s a credits.1 credits.2.1 credits.2.2)

/-- R435: stalled posted writes of an attach point go out while it has credits. -/
def drainStalled (fuel : Nat) (s : State) (a : Nat) : State :=
  match fuel with
  | 0 => s
  | n + 1 =>
    match s.hif.stalled.find? (fun p => p.ap == a), SMap.find? s.hif.credit a with
    | some p, some (c + 1) =>
      let s := { s with hif := { s.hif with stalled := s.hif.stalled.erase p, credit := SMap.ins s.hif.credit a c } }
      drainStalled n (sendTlp s a p.out) a
    | _, _ => s

/-- R435: stalled completions of an attach point go out while it has credits. -/
def drainCpl (fuel : Nat) (s : State) (a : Nat) : State :=
  match fuel with
  | 0 => s
  | n + 1 =>
    match s.hif.cplStalled.find? (fun p => p.1 == a), SMap.find? s.hif.cplCredit a with
    | some p, some (c + 1) =>
      let s := { s with hif := { s.hif with cplStalled := s.hif.cplStalled.erase p, cplCredit := SMap.ins s.hif.cplCredit a c } }
      drainCpl n (sendTlp s a p.2) a
    | _, _ => s

/-- R57, R435: a host returns `n` credits of one kind. -/
def creditReturn (s : State) (a : Nat) (k : CreditKind) (n : Nat) : State :=
  match k with
  | .posted =>
    match SMap.find? s.hif.credit a with
    | none => s
    | some c => drainStalled s.hif.stalled.length { s with hif := { s.hif with credit := SMap.ins s.hif.credit a (c + n) } } a
  | .nonPosted =>
    match SMap.find? s.hif.npCredit a with
    | none => s
    | some c =>
      let s := { s with hif := { s.hif with npCredit := SMap.ins s.hif.npCredit a (c + n) } }
      s.hif.held.foldl (fun s _ => sendReady s a) s
  | .completion =>
    match SMap.find? s.hif.cplCredit a with
    | none => s
    | some c => drainCpl s.hif.cplStalled.length { s with hif := { s.hif with cplCredit := SMap.ins s.hif.cplCredit a (c + n) } } a

/-- PCIE_CREDIT_RETURN (R435): the kind of credit, and how many. -/
def execPcieCreditReturn (a : Fin 8) (n : CreditKind × Nat) (s : State) : Ans := whenOn s fun s =>
  .next (creditReturn s a n.1 n.2)

/-- PENDING_MESSAGE_RELEASE (R432): for a store entry, or for a vector of a function's own MSI-X table. -/
def execPendingMessageRelease (e : Fin 65536 ⊕ (Fin 8 × Fin 8 × Fin 2048)) (s : State) : Ans := whenOn s fun s =>
  match e with
  | .inl i => .next (releaseIrq s i)
  | .inr (a, f, v) => .next (releaseMsix s a f v)

/-- HIF_INTERNAL_ERROR (R436): corrected, or logged as an Uncorrectable Internal Error and reported to the Reeve. -/
def execHifInternalError (a : Fin 8) (corrected : Bool) (s : State) : Ans := whenOn s fun s =>
  if corrected then .next (logCor s a 0 14)
  else .next (countFailure (logUncor s a 0 aerInternal false) 9 a 0 []).1

end Sys2Proof.Machine
end

