-- ==== Sys2Proof/Machine/Ring.lean ====
section
/-! DEFINITION. Ring commands: doorbell words, ring resets, descriptor fetches, receive buffers, moderation (R468 to R475,
R478, R484).
Log entries 183. -/

namespace Sys2Proof.Machine

open Sys2Proof

/-- A doorbell word ignored and counted: on an instance's page, or on the owner page (R469, R491). -/
def wordIgnored (s : State) (page : Option Nat) : State :=
  match page with
  | none => s.inc R.DOM_CNT.COUNT [6]
  | some i => s.inc R.DOM_INST_CNT.COUNT [i, 1]

/-- A doorbell word accepted and counted. -/
def wordTaken (s : State) (page : Option Nat) : State :=
  match page with
  | none => s
  | some i => s.inc R.DOM_INST_CNT.COUNT [i, 0]

/-- The ring a word on a page names, when the page takes words now (R465 step 1, R469). -/
def wordRing (s : State) (page : Option Nat) (n : Nat) : Option Nat :=
  match page with
  | none => findRing s true 0 n
  | some i =>
    let st := s.rd R.DOM_INST_W0.STATE [i]
    if st = 1 || st = 2 || st = 3 then findRing s false i n else none

/-- R470: a new producer index offers descriptors. -/
def doDoorbell (s : State) (page : Option Nat) (w : Nat) : State :=
  if bits w 32 32 ≠ 0 then wordIgnored s page
  else
    match wordRing s page (bits w 0 16) with
    | none => wordIgnored s page
    | some r =>
      let st := ringSt s r
      let ci := s.rd R.DOM_RING_W2.CI [r]
      let pi := s.rd R.DOM_RING_W3.PI [r]
      let new := bits w 16 16
      if st = rsError || st = rsResetting then wordIgnored s page
      else if ixDist new ci ≥ ixDist pi ci && ixDist new ci ≤ ringSize s r - 1 then
        wordTaken (s.wr R.DOM_RING_W3.PI [r] new) page
      else wordIgnored s page

/-- R471, R484: completion space returned, and the ring armed when ARM is 1. -/
def doCqdb (s : State) (page : Option Nat) (w : Nat) : State :=
  if bits w 33 31 ≠ 0 then wordIgnored s page
  else
    match wordRing s page (bits w 0 16) with
    | none => wordIgnored s page
    | some r =>
      let cc := s.rd R.DOM_RING_W3.CPL_CI [r]
      let cp := s.rd R.DOM_RING_W2.CPL_PI [r]
      let new := bits w 16 16
      if ringSt s r = rsError || ringSt s r = rsResetting then wordIgnored s page
      else if ixDist new cc ≤ ixDist cp cc then
        let s := wordTaken (s.wr R.DOM_RING_W3.CPL_CI [r] new) page
        let s := cplDrain ((ringGet s r).cplWait.length) s r
        if bit w 32 then ringEval (s.wr R.DOM_RING_W1.ARMED [r] 1) r else s
      else wordIgnored s page

/-- R474: the entries of a RECV ring that messages hold have ended, without completions. -/
def flushEntries (s : State) (r : Nat) : State :=
  let f (b : Binding) : Binding := if b.ent.ring = r then { b with flushed := true } else b
  { s with car := { s.car with conns := SMap.mapVal (fun (c : Conn) => { c with binds := c.binds.map f }) s.car.conns } }

/-- R473, R474: a RESET of a ring that runs or is in ERROR starts its reset; one of a ring in HELD or QUIESCED is ignored. -/
def doRingCtl (s : State) (page : Option Nat) (w : Nat) : State :=
  if bits w 17 47 ≠ 0 then wordIgnored s page
  else
    match wordRing s page (bits w 0 16) with
    | none => wordIgnored s page
    | some r =>
      if !bit w 16 then wordTaken s page
      else if ringSt s r = rsRunning || ringSt s r = rsError then
        let s := ringPut s r { ringGet s r with discard := true, asked := [], faultDue := none, cplWait := [] }
        wordTaken ((flushEntries s r).wr R.DOM_RING_W0.STATE [r] rsResetting) page
      else wordIgnored s page

/-- R474 steps 3 and 4: the indices return to 0 and the marker completion is written. -/
def ringResetDone (s : State) (r : Nat) : State :=
  if ringSt s r ≠ rsResetting || (ringGet s r).fetched ≠ [] || (ringGet s r).busy.isSome then s
  else
    let s := s.wr R.DOM_RING_W2.CI [r] 0
    let s := s.wr R.DOM_RING_W2.CPL_PI [r] 0
    let s := s.wr R.DOM_RING_W3.PI [r] 0
    let s := s.wr R.DOM_RING_W3.CPL_CI [r] 0
    let s := s.wr R.DOM_RING_W0.STATE [r] rsRunning
    let s := ringPut s r { ringGet s r with discard := false, bufs := [], pend := 0, timerOn := false, timerDone := false, timerAt := 0 }
    cplPost s r (cplBody 0xFFFFFFFF stSuccess 0xFF [])

/-- R475: the conditions under which HIF fetches the next descriptor of a ring. -/
def mayFetch (s : State) (r : Nat) : Bool :=
  let x := ringGet s r
  ringSt s r == rsRunning && fnLive s (ringFn s r).1 (ringFn s r).2
    && s.rd R.DOM_RING_W2.CI [r] ≠ s.rd R.DOM_RING_W3.PI [r] && !ringFull s r
    && x.asked.length + x.fetched.length + x.bufs.length + (if x.busy.isSome then 1 else 0) < 16

/-- R470, R475: the read of descriptor CI requested: translated where ATS is on, held on a miss. -/
def doFetch (s : State) (r : Nat) : State :=
  if !mayFetch s r then s
  else
    let (a, f) := ringFn s r
    let x := ringGet s r
    let ci := s.rd R.DOM_RING_W2.CI [r]
    let addr := x.descAddr + 64 * (ci % ringSize s r)
    let inst := if ringOwner s r then none else some (ringInst s r)
    let take := fun (s : State) =>
      (ringPut s r { x with asked := x.asked ++ [ci] }).wr R.DOM_RING_W2.CI [r] (ci + 1)
    if ringOwner s r || !atsEn s a f then
      match freeTag? s a f with
      | none => s
      | some _ => sendRead (take s) a f inst (.desc r ci) addr 64 (ringPasid s r) none
    else
      match atcFind? s a f (ringPasid s r) addr with
      | some e =>
        if !e.r then descFail (take s) r ci 1
        else
          match freeTag? s a f with
          | none => s
          | some _ => sendRead (atcTouch (take s) e) a f inst (.desc r ci) (e.target * 4096 + addr % 4096) 64 (ringPasid s r)
                        (some (ringPasid s r, addr / 4096))
      | none =>
        let h : Held := { ap := a, fn := f, inst := inst, pasid := ringPasid s r, addr := addr, len := 64,
                          req := .desc r ci, st := .translating, stale := false }
        let s := take s
        let s := { s with hif := { s.hif with held := s.hif.held ++ [h] } }
        sendTlp (s.inc R.HIF_CNT.COUNT [a, 17]) a (.transReq a f (addr / 4096) (ringPasid s r))

/-- R478: an RX_BUF descriptor offers a buffer of 64 to 16,384 bytes, or completes with MALFORMED. -/
def doRxBuf (s : State) (r : Nat) : State :=
  match headOp s r 1 2 with
  | none => s
  | some (k, d) =>
    let len := leAt d 16 4
    if len < 64 || len > 16384 then finishDesc s r k d stMalformed []
    else
      let s := popDesc s r k
      ringSettle (ringPut s r { ringGet s r with bufs := (ringGet s r).bufs ++ [(k, leAt d 4 4, leAt d 8 8, len)] }) r

/-- R484: a ring's moderation timer has reached MOD_USEC. -/
def modTimer (s : State) (r : Nat) : State :=
  let x := ringGet s r
  if ringSt s r = 0 || !x.timerOn then s
  else ringEval (ringPut (clockTo s (x.timerAt + x.modUsec * 10000)) r { x with timerDone := true }) r

/-- DOORBELL (R470): a word at offset 0x000 of the page of an instance, or of the owner page. -/
def execDoorbell (page : Option (Fin 16384)) (w : BitVec 64) (s : State) : Ans := fromHost s fun s =>
  .next (doDoorbell s (page.map (·.val)) w.toNat)

/-- CQDB (R471): a word at offset 0x008. -/
def execCqdb (page : Option (Fin 16384)) (w : BitVec 64) (s : State) : Ans := fromHost s fun s =>
  .next (doCqdb s (page.map (·.val)) w.toNat)

/-- RING_CTL_RESET (R474): a word at offset 0x010. -/
def execRingCtlReset (page : Option (Fin 16384)) (w : BitVec 64) (s : State) : Ans := fromHost s fun s =>
  .next (doRingCtl s (page.map (·.val)) w.toNat)

/-- DESCRIPTOR_FETCH (R475) of a global ring. -/
def execDescriptorFetch (r : Fin 262144) (s : State) : Ans := whenUp s fun s =>
  .next (doFetch s r)

/-- RX_BUF (R478). -/
def execRxBuf (r : Fin 262144) (s : State) : Ans := whenUp s fun s =>
  .next (doRxBuf s r)

/-- MODERATION_TIMER (R484). -/
def execModerationTimer (r : Fin 262144) (s : State) : Ans := whenOn s fun s =>
  .next (modTimer s r)

end Sys2Proof.Machine
end

