-- ==== Sys2Proof/Machine/Mailbox.lean ====
section
/-! DEFINITION. Commands of the set-up mailbox, of instance and ring resets, and of NET rings (R459 to R465, R474, R477,
R479). A mailbox command acts when it stands at the front of the queue.
Log entries 85, 89. -/

namespace Sys2Proof.Machine

open Sys2Proof

/-- MAILBOX_GO (R459, R460). -/
def execMailboxGo (k : Fin 16) (s : State) : Ans := fromHost s fun s =>
  .next (mbGo s k.val)

/-- DOM_CREATE (R455, R462). -/
def execDomCreate (s : State) : Ans := whenUp s fun s =>
  .next (mbNow s 0x0001 domCreate)

/-- DOM_DESTROY (R456, R462). -/
def execDomDestroy (s : State) : Ans := whenUp s fun s =>
  .next (domDestroy s)

/-- DOM_QUERY (R462). -/
def execDomQuery (s : State) : Ans := whenUp s fun s =>
  .next (mbNow s 0x0003 domQuery)

/-- INST_CREATE (R462, R464). -/
def execInstCreate (s : State) : Ans := whenUp s fun s =>
  .next (mbNow s 0x0010 instCreate)

/-- INST_DESTROY (R462, R464). -/
def execInstDestroy (s : State) : Ans := whenUp s fun s =>
  .next (mbLong s 0x0011 instDestroy)

/-- INST_RESET (R462, R464). -/
def execInstReset (s : State) : Ans := whenUp s fun s =>
  .next (mbLong s 0x0012 instReset)

/-- INST_QUERY (R462). -/
def execInstQuery (s : State) : Ans := whenUp s fun s =>
  .next (mbNow s 0x0013 instQuery)

/-- IRQ_WRITE (R450, R462). -/
def execIrqWrite (s : State) : Ans := whenUp s fun s =>
  .next (mbNow s 0x0014 irqWrite)

/-- RING_CREATE (R462, R473). -/
def execRingCreate (s : State) : Ans := whenUp s fun s =>
  .next (mbNow s 0x0020 ringCreate)

/-- RING_DESTROY (R462, R473). -/
def execRingDestroy (s : State) : Ans := whenUp s fun s =>
  .next (mbNow s 0x0021 ringDestroyCmd)

/-- RING_MODIFY (R462). -/
def execRingModify (s : State) : Ans := whenUp s fun s =>
  .next (mbNow s 0x0022 ringModify)

/-- INSTANCE_RESET_COMPLETE (R464, R465). -/
def execInstanceResetComplete (i : Fin 16384) (s : State) : Ans := whenUp s fun s =>
  .next (resetComplete s i.val)

/-- RING_RESET_COMPLETE (R474). -/
def execRingResetComplete (r : Fin 262144) (s : State) : Ans := whenUp s fun s =>
  .next (ringResetDone s r.val)

/-- R476: the frame length of a TX descriptor; none where the descriptor is malformed. -/
def txLen (d : Bytes) : Option Nat :=
  let n := byteAt d 1 % 4
  let l := leAt d 16 2 + leAt d 18 2 + leAt d 20 2
  if n = 0 || (n < 2 && leAt d 18 2 ≠ 0) || (n < 3 && leAt d 20 2 ≠ 0) || l < 60 || l > 9212 then none else some l

/-- R477: the head TX descriptor; `x` is what the reads of its buffers brought. -/
def txFrame (s : State) (r : Nat) (x : RdRes) : State :=
  match headOp s r 0 1 with
  | none => s
  | some (k, d) =>
    if !fnLive s (ringFn s r).1 (ringFn s r).2 && ringSt s r ≠ rsResetting then s
    else
      match txLen d with
      | none => finishDesc s r k d stMalformed []
      | some l =>
        let n := byteAt d 1 % 4
        let (able, s) := descRead s r ([(leAt d 8 8, leAt d 16 2), (leAt d 24 8, leAt d 18 2), (leAt d 32 8, leAt d 20 2)].take n) x
        if !able then s else
        let y := ringGet s r
        let own := ringOwner s r
        let go (data : Bytes) (poison : Bool) : State :=
          let s := ringPut (popDesc s r k) r { ringGet (popDesc s r k) r with busy := some (k, d) }
          toInternal s
            { data := slice data 0 l, origin := 128 + (ringFn s r).1, inst := if own then 0 else ringInst s r, tc := y.tc,
              domain := ringDomain s r, profile := y.profile, pipe := 0, hash := srcHash (.ring r), port := none, octet := none,
              ts := 0, raw := 0, fault := none, poison := poison, pass2 := false, node := none, espSeq := 0, hop := none,
              cth := false, tx := some (r, k) }
        match x with
        | .ok b => go b false
        | .poison b => go b true
        | _ => finishDesc s r k d 0x10 ([0, 0] ++ leBytes 2 l)

/-- TX_FRAME (R476, R477). -/
def execTxFrame (r : Fin 262144) (x : RdRes) (s : State) : Ans := whenUp s fun s =>
  .next (txFrame s r.val x)

/-- R479: the ring that a host-bound frame's queue delivers to. -/
def rxRing (s : State) (q : Nat) : Option Nat := (ringsWhere s (fun r => ringType s r == 1 && (ringGet s r).queue == q)).head?

/-- R479: a frame dropped and counted for its ring. -/
def rxDrop (s : State) (r : Nat) : State := ringCount s r 5

/-- R479: a frame written to the next buffer of ring `r`, and its completion. -/
def rxWriteOut (s : State) (r : Nat) (f : HostFrame) (fault : Bool) : State :=
  let (a, fn) := ringFn s r
  let inReset := !ringOwner s r && (instState s (ringInst s r) == 4 || instState s (ringInst s r) == 5)
  let fnReset := s.rd R.HIF_FN_STATUS.REASON [a, fn] == 3 || s.rd R.HIF_FN_STATUS.REASON [a, fn] == 4
  if quiesced s a fn || inReset || fnReset then s.inc R.HIF_CNT.COUNT [a, 12]
  else
    match (ringGet s r).bufs with
    | [] => rxDrop s r
    | (_, tag, addr, len) :: rest =>
      if ringSt s r ≠ rsRunning || f.data.length > len || ringFull s r || queueEp s f.q ≠ some (128 + a) then rxDrop s r
      else if fault then rxDrop (s.inc R.HIF_CNT.COUNT [a, 18]) r
      else
        let s := ringPut s r { ringGet s r with bufs := rest }
        let s := fnWrite s a fn (if ringOwner s r then none else some (ringInst s r)) (ringPasid s r) addr f.data true f.poison
        cplPost s r (cplBody tag (if f.poison then 0x11 else stSuccess) 2
          ([0, 0] ++ leBytes 2 f.data.length ++ [byteOf (f.tc % 8), 0] ++ leBytes 4 f.hash ++ leBytes 4 (tsSec f.ts)
            ++ leBytes 4 (tsNs f.ts) ++ leBytes 2 f.exc ++ [byteOf f.origin]))

/-- R56: whether a host-bound frame can be written to the next buffer of its ring now, where it would be. -/
def rxReach (s : State) (r : Nat) (f : HostFrame) (fault : Bool) : Bool × State :=
  match (ringGet s r).bufs with
  | (_, _, addr, len) :: _ =>
    if fault || !fnLive s (ringFn s r).1 (ringFn s r).2 || ringSt s r ≠ rsRunning || f.data.length > len || ringOwner s r then (true, s)
    else reach s (ringFn s r).1 (ringFn s r).2 (some (ringInst s r)) (ringPasid s r) true [(addr, f.data.length)]
  | [] => (true, s)

/-- R447, R479: the oldest host-bound frame whose ring is not HELD; `fault` says that its write met a translation fault. -/
def rxDeliver (s : State) (fault : Bool) : State :=
  let ready (f : HostFrame) : Bool := match rxRing s f.q with | some r => ringSt s r ≠ rsHeld | none => true
  match s.grn.host.findIdx? ready with
  | none => s
  | some i =>
    match s.grn.host[i]? with
    | none => s
    | some f =>
      let t := { s with grn := { s.grn with host := s.grn.host.eraseIdx i } }
      match rxRing s f.q with
      | none => t
      | some r =>
        match rxReach s r f fault with
        | (false, s) => s
        | (true, _) => rxWriteOut t r f fault

/-- RX_FRAME_DELIVERY (R213, R447, R449, R479). -/
def execRxFrameDelivery (fault : Bool) (s : State) : Ans := whenUp s fun s =>
  .next (rxDeliver s fault)

end Sys2Proof.Machine
end

