-- ==== Sys2Proof/Machine/Power.lean ====
section
/-! DEFINITION. The meanings of the clock, power and reset commands (R36, R562 to R575, R583, R659).
Log entries 113, 115, 116, 119. -/

namespace Sys2Proof.Machine

open Sys2Proof

/-! ## Clocks -/

/-- REFCLK_LOST (R36, R583): the island moves to the oscillator and the root PLL holds its last frequency. -/
def execRefclkLost (s : State) : Ans :=
  if s.pwr.dark || s.flag R.CLK_STATUS.ON_OSC [] then .next s
  else
    let s := ((s.wr R.CLK_STATUS.REFCLK_OK [] 0).wr R.CLK_STATUS.ON_OSC [] 1).wr R.CLK_STATUS.REFCLK_LOST [] 1
    .next ((s.wr R.CLK_STATUS.HOLD [] (s.rd R.CLK_STATUS.ROOT_LOCK [])).inc R.CLK_CNT.COUNT [0])

/-- REFCLK_LOSS_TIMEOUT (R36, R592): the Reeve gates every data-path domain and records the loss as a failure of class 12. -/
def execRefclkLossTimeout (s : State) : Ans :=
  if s.pwr.dark || bellman s || !s.flag R.CLK_STATUS.ON_OSC [] || s.pwr.clkGated then .next s
  else
    let s := (List.range 156).foldl gateOff s
    let s := putPwr s { s.pwr with clkGated := true }
    .next (countFailure (s.inc R.CLK_CNT.COUNT [2]) 12 0 0 []).1

/-- REFCLK_RETURN (R36, R578, R583): the island leaves the oscillator; a STANDBY exit that waited goes on, unless the
Bellman is in control (R27). -/
def execRefclkReturn (s : State) : Ans :=
  if s.pwr.dark || !s.flag R.CLK_STATUS.ON_OSC [] then .next s
  else
    let s := ((s.wr R.CLK_STATUS.REFCLK_OK [] 1).wr R.CLK_STATUS.ON_OSC [] 0).wr R.CLK_STATUS.HOLD [] 0
    let s := if s.pwr.clkGated then s else s.inc R.CLK_CNT.COUNT [1]
    match s.pwr.wakeDue with
    | some src => .next (if bellman s then s else exitStandby s src)
    | none => .next s

/-- ROOT_PLL_LOCK_LOSS (R583). -/
def execRootPllLockLoss (s : State) : Ans :=
  if s.pwr.dark || !s.flag R.CLK_STATUS.ROOT_LOCK [] then .next s
  else .next ((s.wr R.CLK_STATUS.ROOT_LOCK [] 0).inc R.CLK_CNT.COUNT [3])

/-! ## Power states -/

/-- R563: GO written with REQ. -/
def pwrGo (s : State) (req : Nat) : State :=
  let st := pwrSt s
  if s.flag R.PWR_STATUS.BUSY [] then pwrCount s 9
  else if req = psActive && st = psTrimmed then
    let s := s.wr R.PWR_STATUS.STATE [] psActive
    if s.pwr.noImage || s.pwr.clkGated then s else (List.range 156).foldl powerOn s
  else if req = psTrimmed && st = psActive then
    (List.range 156).foldl trimDomain (pwrCount (s.wr R.PWR_STATUS.STATE [] psTrimmed) 0)
  else if req = psDormant && (st = psActive || st = psTrimmed) then
    let ph : DormPhase := if dormantFails s = 0 then .entering else .waiting
    (putPwr s { s.pwr with phase := ph, dormAt := s.now }).wr R.PWR_STATUS.BUSY [] 1
  else if req = psStandby && st ≠ psStandby then enterStandby s .owner
  else refusePwr (if req = psDormant then pwrCount s 2 else s) 8

/-- A write of PWR_CTL by a management domain with REQ and GO 1. -/
def goWrite (s : State) (m : MDom) (req : Nat) : Ans :=
  fromDomain s m fun s => .next (pwrGo (s.wr R.PWR_CTL.REQ [] req) req)

/-- PWR_GO_ACTIVE (R563). -/
def execPwrGoActive (m : MDom) (s : State) : Ans := goWrite s m psActive

/-- PWR_GO_TRIMMED (R563). -/
def execPwrGoTrimmed (m : MDom) (s : State) : Ans := goWrite s m psTrimmed

/-- PWR_GO_DORMANT (R563, R564). -/
def execPwrGoDormant (m : MDom) (s : State) : Ans := goWrite s m psDormant

/-- PWR_GO_STANDBY (R563, R568). -/
def execPwrGoStandby (m : MDom) (s : State) : Ans := goWrite s m psStandby

/-- R563: word `w` of PWR_TRIM has been written: in TRIMMED its domains follow at once. -/
def trimFollow (s : State) (w : Nat) : State :=
  if pwrSt s = psTrimmed && !s.pwr.noImage && !s.pwr.clkGated then
    (List.range 32).foldl (fun s b => if 32 * w + b < 156 then trimDomain s (32 * w + b) else s) s
  else s

/-- R563, R671: a write of PWR_TRIM. Bits [31:28] of word 4 are reserved. -/
def trimWrite (s : State) (m : MDom) (w v : Nat) : State :=
  let a := 0x00100100 + 4 * w
  trimFollow (writeWord s m (fieldsAt .pwr a) a (if w = 4 then v % 2 ^ 28 else v) (fun _ => true)) w

/-- TRIM_WRITE (R563, R581). -/
def execTrimWrite (m : MDom) (w : Fin 5) (v : BitVec 32) (s : State) : Ans :=
  fromDomain s m fun s => .next (trimWrite s m w.val v.toNat)

/-- DORMANT_ENTRY (R563, R565): once R564 holds. -/
def execDormantEntry (s : State) : Ans :=
  if poweredOff s then .next s
  else
    match s.pwr.phase with
    | .none => .next s
    | .waiting => .next (if dormantFails s = 0 then enterDormant s else s)
    | .entering => .next (enterDormant s)

/-- DORMANT_WAIT_EXPIRY (R563, R564): bit 6 records that the wait ran out. -/
def execDormantWaitExpiry (s : State) : Ans :=
  if poweredOff s || s.pwr.phase ≠ .waiting then .next s
  else
    let s := clockTo s (s.pwr.dormAt + max 1 (s.rd R.PWR_DORM_WAIT.WAIT []) * 10000000)
    let k := dormantFails s
    if k = 0 then .next (putPwr s { s.pwr with phase := .entering })
    else
      let s := (putPwr s { s.pwr with phase := .none }).wr R.PWR_STATUS.BUSY [] 0
      .next (pwrCount (refusePwr s (k + 64)) 2)

/-- WAKE_TIMER_EXPIRY (R566 source 4): TIMER ms after DORMANT or STANDBY was entered. -/
def execWakeTimerExpiry (s : State) : Ans :=
  .next (if pwrSt s = psDormant || pwrSt s = psStandby then
    wake (clockTo s (s.pwr.since + max 1 (s.rd R.PWR_WAKE_TIMER.TIMER []) * 10000000)) 4 else s)

/-- DOMAIN_GATE (R562). -/
def execDomainGate (d : Fin 156) (s : State) : Ans := whenUp s fun s =>
  .next (if pwrSt s = psTrimmed && heldBit s d.val && gateCond s d.val then gateOff s d.val else s)

/-! ## Resets -/

/-- PWRON_RST_N (R570, R574, R644): asserted and released with the straps at the levels given; `ramp` says that the power
ramp on VDD_AON runs the POR. -/
def execPwronRstN (ramp : Bool) (ownerSel : Fin 4) (split : Fin 16) (id : Fin 4) (s : State) : Ans :=
  let s := putPwr s { s.pwr with ownerSel := ownerSel.val, hostSplit := split.val, stackId := id.val }
  .next (coldReset s true 1 (if ramp then 4 else 0))

/-- SYS_RST_N (R570). -/
def execSysRstN (s : State) : Ans := .next (if s.pwr.dark then s else coldReset s false 2 0)

/-- R580: the SOURCE of a reset that a management domain writes. -/
def rstSource (m : MDom) : Nat := match m with | .reeve => 2 | .debug => 3 | _ => 1

/-- R570: a write of PWR_RST: with the wrong key, or with both resets, it is ignored and counted; with neither it does nothing. -/
def rstWrite (s : State) (m : MDom) (v : Nat) : State :=
  if bits v 16 16 ≠ 0xA5C3 || v % 4 = 3 then pwrCount s 10
  else if v % 4 = 0 then s
  else if v % 4 = 1 then warmReset s (rstSource m)
  else coldReset s false 2 (rstSource m)

/-- RST_WARM (R570): a write of PWR_RST with WARM 1 and a key. -/
def execRstWarm (m : MDom) (key : BitVec 16) (s : State) : Ans :=
  fromDomain s m fun s => .next (rstWrite s m (1 + 2 ^ 16 * key.toNat))

/-- RST_COLD (R570): a write of PWR_RST with COLD 1 and a key. -/
def execRstCold (m : MDom) (key : BitVec 16) (s : State) : Ans :=
  fromDomain s m fun s => .next (rstWrite s m (2 + 2 ^ 16 * key.toNat))

/-- R573: how many units a kind has, and the domain of a unit. -/
def blkUnits (kind : Nat) : Nat :=
  match kind with
  | 1 => 16 | 2 => 16 | 3 => 32 | 4 => 64 | 5 => 16 | 6 => 2 | _ => 0

def blkDomain (kind u : Nat) : Nat :=
  match kind with
  | 1 => 96 + u | 2 => 112 + u | 3 => 64 + u | 4 => u | 5 => 148 + u / 4 | _ => 152 + u

/-- R573 KIND 1: every port of an octet loses its link; a Sahrov link retrains. -/
def blkOctet (s : State) (o : Nat) : State :=
  if isSahrov s o then
    match linkOf s o with
    | some j => linkRetrain s j
    | none => loseLink s (8 * o)
  else
    (List.range 8).foldl (fun s k =>
      let p := 8 * o + k
      if portState s p = epDisabled then s
      else (portLanes s p).foldl (fun s l => laneLock s o l false) (loseLink s p)) s

/-- R573 KIND 3: the jobs queued or running in a cluster end with CIPHER_FAULT; its key cache is emptied. -/
def blkCluster (s : State) (c : Nat) : State :=
  let mine := s.hsk.jobs.filter (fun j => j.cluster == c)
  let s := jobsShow (clearCache (putHsk s { s.hsk with jobs := s.hsk.jobs.filter (fun j => j.cluster ≠ c) }) c) c
  mine.foldl (fun s j =>
    let j : HJob := { j with status := stCipherFault }
    match j.esp with
    | some e => espJobEnd s j e
    | none => filJobEnd s j) s

/-- R573: a BLOCK reset. A reserved KIND, a unit that does not exist, or a unit whose domain is gated (R578): ignored and
counted. -/
def blkRst (s : State) (kind u : Nat) : State :=
  if blkUnits kind ≤ u || !domOn s (blkDomain kind u) then pwrCount s 10
  else
    let s := pwrCount s 8
    match kind with
    | 1 => blkOctet s u
    | 2 => clearPipe s u
    | 3 => blkCluster s u
    | 4 => (List.range 8).foldl (fun s t => hartReset s (8 * u + t)) s
    | 5 =>
      if rpSt s u = rsRetired then s
      else
        let s := rpOff s u
        if s.flag R.STG_RP_CTL.AUTO_ON [u] then rpPowerOn s u else s
    | _ => loseDomain s (152 + u)

/-- A write of PWR_BLK_RST with KIND, UNIT and GO 1. -/
def blkWrite (s : State) (m : MDom) (kind : Nat) (u : Fin 64) : Ans := fromDomain s m fun s => .next (blkRst s kind u.val)

/-- BLOCK_RESET_ETH_OCTET (R573). -/
def execBlockResetEthOctet (m : MDom) (u : Fin 64) (s : State) : Ans := blkWrite s m 1 u

/-- BLOCK_RESET_PIPELINE (R573). -/
def execBlockResetPipeline (m : MDom) (u : Fin 64) (s : State) : Ans := blkWrite s m 2 u

/-- BLOCK_RESET_HUSK_CLUSTER (R573). -/
def execBlockResetHuskCluster (m : MDom) (u : Fin 64) (s : State) : Ans := blkWrite s m 3 u

/-- BLOCK_RESET_FILBERT_CORE (R573). -/
def execBlockResetFilbertCore (m : MDom) (u : Fin 64) (s : State) : Ans := blkWrite s m 4 u

/-- BLOCK_RESET_ROOT_PORT (R573). -/
def execBlockResetRootPort (m : MDom) (u : Fin 64) (s : State) : Ans := blkWrite s m 5 u

/-- BLOCK_RESET_PATTERN_MATCHER (R573). -/
def execBlockResetPatternMatcher (m : MDom) (u : Fin 64) (s : State) : Ans := blkWrite s m 6 u

/-- POWER_LOSS (R636, R659). -/
def execPowerLoss (s : State) : Ans := .next (loseSupply s)

end Sys2Proof.Machine
end

