-- ==== Sys2Proof/Machine/ReeveOps.lean ====
section
/-! DEFINITION. Shared operations of the Reeve and the Bellman: what a retirement does to its block, the thermal and voltage
states, Bellman control (R523, R584 to R606).
Log entries 103, 120, 126, 127, 128, 181. -/

namespace Sys2Proof.Machine

open Sys2Proof

def putRev (s : State) (r : Rev) : State := { s with rev := r }
def revCount (s : State) (n : Nat) : State := s.inc R.REV_CNT.COUNT [n]

/-- R523: core `c` is retired: its domain is gated and its harts are RETIRED, without staging or receive areas. -/
def retireCore (s : State) (c : Nat) : State :=
  let s := gateOff s c
  let s := (List.range 8).foldl (fun s t => (hartPut s (8 * c + t) Hart.reset).wr R.FIL_HART_CTL.STATE [8 * c + t] hsRetired) s
  s.inc R.FIL_CNT.COUNT [11]

/-- R593: how many units a class has. -/
def classUnits (k : Nat) : Nat :=
  match k with
  | 1 => 128 | 2 => 128 | 3 => 4096 | 4 => 32 | 5 => 64 | 6 => 16 | 7 => 32 | 8 => 1 | 9 => 8 | 10 => 1 | 11 => 4 | 12 => 1
  | _ => 0

/-- R592 to R595: a failure of a unit, with what its retirement does to its block. -/
def failUnit (s : State) (k u row : Nat) (lines : List Nat) : State :=
  match countFailure s k u row lines with
  | (s, false) => s
  | (s, true) =>
    match k with
    | 1 => retireLane s u
    | 2 => s.wr R.REV_HBM_W2.UNMAPPED [u / 32] (setBit (s.rd R.REV_HBM_W2.UNMAPPED [u / 32]) (u % 32) true)
    | 3 => retirePair s u
    | 4 => hskShow s
    | 5 => retireCore s u
    | 6 => retirePort s u
    | 10 => s.wr R.LCK_STATUS.DRBG_OK [] 0
    | _ => s

/-! ## Sampling -/

/-- R585: the filtered value after raw value `x`, where `y` stood before, for filter setting `k`. -/
def filterStep (y x : Int) (k : Nat) : Int := y + (x - y).fdiv (2 ^ k : Nat)

/-- Sixteen bits of a signed value. -/
def bits16 (x : Int) : Nat := (x % 65536).toNat

/-- The filtered temperature of a sensor, in 1/16 °C. -/
def tempFilt (s : State) (i : Nat) : Int := toSigned 16 (s.rd R.REV_TEMP.FILT [i])

/-- R586: the sensor with the highest filtered value. -/
def hotSensor (s : State) : Nat :=
  (List.range 64).foldl (fun h i => if tempFilt s i > tempFilt s h then i else h) 0

/-- R586: the device temperature. -/
def deviceTemp (s : State) : Int := tempFilt s (hotSensor s)

/-- R588: the threshold of a thermal state in 1/16 °C. -/
def threshold (s : State) (t : Nat) : Int :=
  16 * ((match t with
    | 1 => s.rd R.REV_TH.WARN []
    | 2 => s.rd R.REV_TH.THROTTLE []
    | _ => min 125 (s.rd R.REV_TH.CRIT [])) : Nat)

def hyst (s : State) : Int := 16 * ((s.rd R.REV_TH.HYST [] : Nat) : Int)

/-- R588: the thermal state that follows `cur` at the device temperature: the highest whose threshold is reached, or one
lower once the temperature is below the threshold of `cur` by more than HYST. -/
def nextTstate (s : State) (cur : Nat) : Nat :=
  let t := deviceTemp s
  let up := if t ≥ threshold s 3 then 3 else if t ≥ threshold s 2 then 2 else if t ≥ threshold s 1 then 1 else 0
  if up > cur then up
  else if cur > 0 && decide (t < threshold s cur - hyst s) then cur - 1
  else cur

/-- R563, R588, R590: the Reeve requests STANDBY. A DORMANT entry in progress is abandoned (R606); a STANDBY in force takes
the stricter exit. -/
def reeveStandby (s : State) (why : SbyWhy) : State :=
  let s := logEntry (revCount s 5) lkPower 0 0 psStandby
  if pwrSt s = psStandby then (if why = .vfault then putPwr s { s.pwr with sby := why } else s)
  else enterStandby s why

/-- R588: a new thermal state is entered. -/
def enterTstate (s : State) (t : Nat) : State :=
  let old := s.rd R.REV_STATUS.TSTATE []
  let s := s.wr R.REV_STATUS.TSTATE [] t
  let s := logEntry s lkThermal t (hotSensor s) (bits16 (deviceTemp s))
  let s := stateEvent s pdrTstate t old
  let s := if t = 2 then revCount s 4 else s
  if t = 3 then reeveStandby s .critical else s

/-- R584 to R586: a raw value of temperature sensor `i` filtered and recorded, with the hottest sensor and the two comparisons
that the Bellman keeps (R603). -/
def tempPut (s : State) (i raw : Nat) : State :=
  let x := toSigned 16 raw
  let y := if bit s.rev.tempSeen i then filterStep (tempFilt s i) x (s.rd R.REV_CFG.K_TEMP []) else x
  let hot := decide (x > 135 * 16)
  let s := putRev s { s.rev with tempSeen := setBit s.rev.tempSeen i true,
                                 trip2 := setBit s.rev.trip2 i (hot && bit s.rev.trip1 i), trip1 := setBit s.rev.trip1 i hot }
  let s := (s.wr R.REV_TEMP.RAW [i] raw).wr R.REV_TEMP.FILT [i] (bits16 y)
  s.wr R.REV_STATUS.HOT_SENSOR [] (hotSensor s)

/-- R584 to R588: a raw value of temperature sensor `i`. -/
def tempSample (s : State) (i : Nat) (raw : Nat) : State :=
  let s := tempPut s i raw
  if bellman s then s
  else
    let cur := s.rd R.REV_STATUS.TSTATE []
    let t := nextTstate s cur
    if t = cur then s else enterTstate s t

/-- R590: the reports of a voltage crossing. -/
def voltReport (s : State) (m y new : Nat) : State := numEvent (logEntry s lkVoltage 0 m y) (pdrVolt m) new 1 y

/-- R585: the filtered value of voltage monitor `m` after a raw one. -/
def voltNext (s : State) (m raw : Nat) : Nat :=
  if bit s.rev.voltSeen m then
    (filterStep (s.rd R.REV_VOLT.FILT [m] : Nat) (raw : Nat) (s.rd R.REV_CFG.K_VOLT [])).toNat else raw

/-- R584, R585: a raw value of voltage monitor `m` filtered and recorded. -/
def voltPut (s : State) (m raw : Nat) : State :=
  let y := voltNext s m raw
  let s := putRev s { s.rev with voltSeen := setBit s.rev.voltSeen m true }
  (s.wr R.REV_VOLT.RAW [m] raw).wr R.REV_VOLT.FILT [m] y

/-- R590: whether a filtered value of monitor `m` is below its warning, and whether outside its fault limits. -/
def voltWarn (s : State) (m y : Nat) : Bool := s.flag R.REV_VTH_W1.EN [m] && decide (y < s.rd R.REV_VTH_W0.UV_WARN [m])
def voltBad (s : State) (m y : Nat) : Bool :=
  s.flag R.REV_VTH_W1.EN [m] && (decide (y < s.rd R.REV_VTH_W0.UV_FAULT [m]) || decide (y > s.rd R.REV_VTH_W1.OV_FAULT [m]))

/-- R590: the filtered value `y` of monitor `m` judged: each crossing is reported once, and a fault requests STANDBY. -/
def voltJudge (s : State) (m y : Nat) : State :=
  let warn := voltWarn s m y
  let bad := voltBad s m y
  let s := if warn && !bit s.rev.belowWarn m then voltReport s m y 2 else s
  let new := bad && !bit s.rev.faulted m
  let s := putRev s { s.rev with belowWarn := setBit s.rev.belowWarn m warn, faulted := setBit s.rev.faulted m bad }
  if new then reeveStandby (voltReport (s.wr R.REV_STATUS.VFAULT [] 1) m y 3) .vfault else s

/-- R584, R585, R590: a raw value of voltage monitor `m`. -/
def voltSample (s : State) (m raw : Nat) : State :=
  let y := voltNext s m raw
  let s := voltPut s m raw
  if bellman s then s else voltJudge s m y

/-! ## The Bellman -/

/-- R604: a cause record. -/
def bellRecord (s : State) (cause sensor : Nat) : Bytes :=
  let b := [byteOf cause, byteOf sensor, 0, 0] ++ leBytes 4 (s.rev.bellSeq % 2 ^ 32) ++ leBytes 4 s.uptime
  b ++ leBytes 4 (crc32 b)

/-- R603: the Bellman takes control. -/
def takeControl (s : State) (cause sensor : Nat) : State :=
  if bellman s || s.pwr.dark then s
  else
    let up := (List.range 8).filter (fun a => s.flag R.HIF_AP_LINK.LINK_UP [a])
    let s := (putPwr s { s.pwr with phase := .none, wakeDue := none }).wr R.PWR_STATUS.BUSY [] 0
    let s := (List.range 156).foldl gateOff s
    let s := s.emits (up.map (fun a => Emit.hostLink a false))
    let s := (s.emit .hiZ).emit (.pin .faultN false)
    let rec1 := bellRecord s cause sensor
    let l := s.rev.records ++ [rec1]
    let s := putRev s { s.rev with inControl := some cause, records := l.drop (l.length - 16), bellSeq := s.rev.bellSeq + 1 }
    s.emit (.pin .boardRstReqN false)

end Sys2Proof.Machine
end

