-- ==== Sys2Proof/Machine/Reeve.lean ====
section
/-! DEFINITION. The meanings of the Reeve's and the Bellman's commands (R523, R584 to R604).
Log entries 125. -/

namespace Sys2Proof.Machine

open Sys2Proof

/-- What needs the supply. -/
def powered (s : State) (f : State → Ans) : Ans := if s.pwr.dark then .next s else f s

/-- What the Reeve does: nothing while the Bellman holds it in reset (R603). -/
def byReeve (s : State) (f : State → Ans) : Ans := if bellman s || s.pwr.dark then .next s else f s

/-- TEMP_SAMPLE (R584): a raw value of a temperature sensor, signed, in 1/16 °C. -/
def execTempSample (i : Fin 64) (raw : BitVec 16) (s : State) : Ans := powered s fun s =>
  .next (tempSample s i.val raw.toNat)

/-- VOLT_SAMPLE (R584): a raw value of a voltage monitor in mV. -/
def execVoltSample (m : Fin 48) (raw : BitVec 16) (s : State) : Ans := powered s fun s =>
  .next (voltSample s m.val raw.toNat)

/-- R587: the VDD_CORE target moves toward the curve by at most 10 mV; the regulator starts at 800 mV (R647). -/
def avsUpdate (s : State) : State :=
  let cur := if s.rd R.REV_AVS.TARGET_MV [] = 0 then 800 else s.rd R.REV_AVS.TARGET_MV []
  let goal := max 650 (min 850 (Config.avsCurve (deviceTemp s)))
  let t := max (cur - 10) (min (cur + 10) goal)
  (putRev (s.wr R.REV_AVS.TARGET_MV [] t) { s.rev with avsAt := s.now }).emit (.vout t)

/-- AVS_UPDATE (R587): at most once per ms. -/
def execAvsUpdate (s : State) : Ans := byReeve s fun s =>
  .next (if s.flag R.REV_CFG.AVS_EN [] then avsUpdate (clockTo s (s.rev.avsAt + 10000000)) else s)

/-- FAILURE_REPORT (R592): a block reports a failure of unit `u` of class `k`; for class 2 with the HBM row and the lines of
its row, by the model's line number. -/
def execFailureReport (k : Fin 16) (u : Fin 4096) (row : BitVec 32) (lines : List Nat) (s : State) : Ans := byReeve s fun s =>
  .next (if u.val < classUnits k.val then failUnit s k.val u.val row.toNat lines else s)

/-- CORE_ECC_ERROR (R523). -/
def execCoreEccError (c : Fin 64) (s : State) : Ans := byReeve s fun s =>
  .next (failUnit (s.inc R.FIL_CNT.COUNT [10]) 5 c.val 0 [])

/-- CRITICAL_RECOVERY (R589): the device temperature has stayed below WARN − HYST for 1 s. -/
def execCriticalRecovery (s : State) : Ans := byReeve s fun s =>
  .next (if pwrSt s = psStandby && s.pwr.sby = .critical && decide (deviceTemp s < threshold s 1 - hyst s) then wake s 7 else s)

/-- R596: the class whose units a KIND of REV_RET_CLR names. -/
def retKind (kind : Nat) : Nat :=
  match kind with
  | 1 => 1 | 2 => 2 | 3 => 3 | 4 => 5 | 5 => 6 | _ => 0

/-- R596: a write of REV_RET_CLR with GO 1. -/
def retClr (s : State) (kind u key : Nat) : State :=
  let k := retKind kind
  if key ≠ 0x3C5A || classUnits k ≤ u || !isRetired s k u then revCount s 8
  else if s.rev.clears.contains (k, u) then s
  else (putRev s { s.rev with clears := s.rev.clears ++ [(k, u)] }).inc R.REV_RET_PEND.PENDING []

/-- RETIREMENT_CLEAR (R596). -/
def execRetirementClear (m : MDom) (kind : Fin 8) (u : Fin 4096) (key : BitVec 16) (s : State) : Ans :=
  fromDomain s m fun s => .next (retClr s kind.val u.val key.toNat)

/-- BELL_HB (R602): a write by the Reeve; any other key is ignored. -/
def execBellHb (key : BitVec 16) (s : State) : Ans := byReeve s fun s =>
  .next (if key = 0x7E1A#16 then putRev s { s.rev with hbAt := s.now } else s)

/-- LOCKSTEP_MISMATCH (R600, R603). -/
def execLockstepMismatch (s : State) : Ans := .next (takeControl s 1 0)

/-- HEARTBEAT_EXPIRY (R601, R603): 20 ms after the watchdog's last restart. -/
def execHeartbeatExpiry (s : State) : Ans :=
  .next (if s.rev.armed && !s.pwr.dark then takeControl (clockTo s (s.rev.hbAt + 200000000)) 2 0 else s)

/-- THERMAL_TRIP (R603): two consecutive raw values of sensor `i` above 135 °C. -/
def execThermalTrip (i : Fin 64) (s : State) : Ans :=
  .next (if bit s.rev.trip2 i.val then takeControl s 3 i.val else s)

end Sys2Proof.Machine
end

