-- ==== Sys2Proof/Machine/RegRead.lean ====
section
/-! DEFINITION. Reads of the control window (R14, R15, R660 to R669): what a field shows, the read of a word, the clearing
of RC fields and the shadows of their high words.
Log entries 105, 139, 140, 145. -/

namespace Sys2Proof.Machine

open Sys2Proof

/-- R452: whether a field belongs to the registers of an absent attach point, which read 0. -/
def absentAp (s : State) (f : Fld) (ix : List Nat) : Bool :=
  f.blk == .hif && decide (0x01001000 ≤ f.base) && decide (f.base < 0x01002000) && !apPresent s (ix.headD 0)

/-- R105: what is left of a port's hold time, in units of 10 µs, rounded up; 0 only outside HOLD. -/
def holdLeft (s : State) (p : Nat) : Nat :=
  match SMap.find? s.eth.holdAt p with
  | some t => max 1 (ceilDiv (t - s.now) 100000)
  | none => 0

/-- R528: the members of a wait group that take part. -/
def groupMembers (s : State) (g : Nat) : Nat :=
  ((List.range 512).filter (fun h => inGroup s h g && hartSt s h ≠ hsRetired && hartSt s h ≠ hsFailed && hartSt s h ≠ hsReset)).length

/-- The value a field shows: of a field that follows state kept elsewhere, that state; else the stored value. A WO field reads
0 (R665). -/
def fieldShow (s : State) (f : Fld) (ix : List Nat) : Nat :=
  let i := ix.headD 0
  let j := (ix.drop 1).headD 0
  if f.acc = .wo || absentAp s f ix then 0
  else if f = R.ETH_LANE_STATUS.FAIL_COUNT then failCount s 1 (8 * i + j)
  else if f = R.FIL_CORE_STATUS.FAIL_COUNT then failCount s 5 i
  else if f = R.STG_RP_STATUS.FAIL_COUNT then failCount s 6 i
  else if f = R.STG_RP_STATUS.OUTSTANDING then rpOutstanding s i
  else if f = R.ETH_PORT_LEFT.HOLD_LEFT then holdLeft s (8 * i + j)
  else if f = R.WIN_FRAG_STATUS.OCCUPANCY then (s.win.frag.filter (fragLive s)).length
  else if f = R.GRN_RSUM.RESERVE_SUM then reserveSum s s.grn.qmap
  else if f = R.CAR_HOMED.HBM_HOMED then (s.car.conns.filter (fun e => !e.2.host)).length
  else if f = R.CAR_SLICE_USE.CACHE_USED then cacheUsed s i
  else if f = R.CAR_SLICE_USE.PINNED then pinnedConns s i
  else if f = R.CAR_SLICE_FETCH.WSTORE_USED then pagesUsed s i
  else if f = R.CAR_SLICE_FETCH.FETCH_OUT then fetchesOut s i
  else if f = R.CAR_SLICE_FETCH.FETCH_WAIT then min 2047 ((s.car.fetchq.filter (fun n => n % 4 == i)).length)
  else if f = R.CAR_SLICE_CONNS.CONNS then (sliceConns s i).length
  else if f = R.CAR_PARK_W0.RESERVED then reservedCells s i
  else if f = R.CAR_PARK_W0.LEDGER then (ledgerOf s i).length
  else if f = R.CAR_PARK_W1.FREE_RESV then freeResv s i
  else if f = R.HIF_AP_WBUF.WBUF_FILL then min 262143 (wbufFill s i)
  else if f = R.FIL_HART_IRQ_CLR.IRQ_CLR then s.rd R.FIL_HART_IRQ.IRQ_PEND ix
  else if f = R.FIL_WG_W1.MEMBERS then groupMembers s i
  else s.rd f ix

/-- R667: the shadow of a domain after an RC read of the register at offset `a` whose high word was `hi`. -/
def setShadow (s : State) (m : MDom) (a hi : Nat) : State :=
  { s with trust := { s.trust with shadow := SMap.ins s.trust.shadow (domCode m) (a + 1, hi) } }

/-- R667, R674: what the read of one field puts into the word, and what it does: an RC field is cleared; of a 64-bit counter the
high word is latched, and a read of the high word returns the latch. -/
def readField (s : State) (m : MDom) (x : Fld × List Nat × Nat) : Nat × State :=
  let (f, ix, h) := x
  if f.acc = .rc then
    let v := s.rd f ix
    if h = 0 then (v % 2 ^ 32 * 2 ^ f.lo, setShadow (s.wr f ix 0) m (f.addr ix) (v / 2 ^ 32))
    else
      let (a, hi) := SMap.get (0, 0) s.trust.shadow (domCode m)
      (if a = f.addr ix + 1 then hi else 0, s)
  else (fieldShow s f ix % 2 ^ f.width * 2 ^ f.lo, s)

/-- The fields of a word read in turn. -/
def readFields (s : State) (m : MDom) (l : List (Fld × List Nat × Nat)) : Nat × State :=
  match l with
  | [] => (0, s)
  | x :: r =>
    let (v, s) := readField s m x
    let (w, s) := readFields s m r
    (v + w, s)

/-- R669: whether a word lies in a bank that has no power. -/
def bankOff (s : State) (a : Nat) : Bool := pwrSt s == psStandby && !alwaysOn a

/-- R415: the root port whose configuration space holds a window offset, and the doubleword. -/
def rpWindow (a : Nat) : Option (Nat × Nat) :=
  if 0x03100000 ≤ a && a < 0x03110000 then some ((a - 0x03100000) / 0x1000, a % 0x1000 / 4) else none

/-- R660 to R669: the 4-byte word at window offset `a` read by a domain. -/
def wordRead (s : State) (m : MDom) (a : Nat) : Nat × State :=
  if bankOff s a then (0, s)
  else
    match rpWindow a, blkOf a with
    | some (n, dw), _ => (rpCfgRead s n dw, s)
    | none, some b => readFields s m (fieldsAt b a)
    | none, none => (0, accessErr s m 1 a)

/-- R661, R662: `n` words from offset `a` read in rising order; each 8-byte access lies within one CLK_CTL cycle. -/
def wordsRead (s : State) (m : MDom) (a n : Nat) : Nat × State :=
  match n with
  | 0 => (0, s)
  | n + 1 =>
    let (v, s) := wordRead s m a
    let (w, s) := wordsRead s m (a + 4) n
    (v + 2 ^ 32 * w, s)

end Sys2Proof.Machine
end

