-- ==== Sys2Proof/Machine/Storage.lean ====
section
/-! DEFINITION. Commands on root ports and drives, and the owner's storage commands (R384 to R394, R398, R400, R413).
Log entries 6, 71, 72. -/

namespace Sys2Proof.Machine

open Sys2Proof

/-- R387: a write of EN; a port taken out of use is held in OFF. -/
def rpEnable (s : State) (n : Nat) (en : Bool) : State :=
  let was := s.flag R.STG_RP_CTL.EN [n]
  let s := s.wr R.STG_RP_CTL.EN [n] (b2n en)
  if en == was then s
  else if en then (if s.flag R.STG_RP_CTL.AUTO_ON [n] then rpPowerOn s n else s)
  else if rpSt s n = rsOff || rpSt s n = rsRetired then s
  else rpLeave (rpOff s n) n

/-- ROOT_PORT_ENABLE (R387). -/
def execRootPortEnable (n : Fin 16) (en : Bool) (s : State) : Ans := fromHost s fun s =>
  .next (rpEnable s n.val en)

/-- PRESENCE_CHANGE (R387, R388): SRP_PRSNT_N changed and held for the debounce time. -/
def execPresenceChange (n : Fin 16) (present : Bool) (s : State) : Ans := whenOn s fun s =>
  .next (
    if (rpGet s n.val).present = present then s
    else
      let s := rpCount (rpMod s n.val (fun p => { p with present := present })) n.val 10
      let st := rpSt s n.val
      let s := if st = rsOff then s else rpEvt (rpCfgBit s n.val 30 19 true) n.val 0
      if present then (if s.flag R.STG_RP_CTL.AUTO_ON [n.val] then rpPowerOn s n.val else s)
      else if st = rsFaulted then rpOff s n.val
      else rpSurprise s n.val)

/-- POWER_FAULT (R387): SRP_PWRFLT_N asserted in POWERING or any later state. -/
def execPowerFault (n : Fin 16) (s : State) : Ans := whenOn s fun s =>
  let st := rpSt s n.val
  .next (
    if st = rsOff || st = rsFaulted || st = rsRetired then s
    else
      let s := attnLed (rpPerst (rpCount s n.val 11) n.val false) n.val 1
      let s := rpEvt (rpCfgBit s n.val 30 17 true) n.val 1
      rpFault s n.val)

/-- BUTTON_PRESS (R387, R388): a second press within 5 s cancels; a press in QUIESCING is ignored. -/
def execButtonPress (n : Fin 16) (s : State) : Ans := whenOn s fun s =>
  .next (
    if rpSt s n.val = rsQuiescing then s
    else
      let s := rpEvt (rpCfgBit s n.val 30 16 true) n.val 3
      if rpSt s n.val = rsOnline then rpMod s n.val (fun p => { p with armed := !p.armed, pressAt := s.now }) else s)

/-- REMOVAL_WINDOW_EXPIRY (R387): 5 s passed since the press. -/
def execRemovalWindowExpiry (n : Fin 16) (s : State) : Ans := whenOn s fun s =>
  .next (if (rpGet s n.val).armed then rpQuiesce (clockTo s ((rpGet s n.val).pressAt + 50000000000)) n.val else s)

/-- PWR_WAIT_EXPIRY (R387). -/
def execPwrWaitExpiry (n : Fin 16) (s : State) : Ans := whenOn s fun s =>
  .next (
    if rpSt s n.val = rsPowering then
      let s := rpLapse s n.val (max 1 (s.rd R.STG_RP_CTL.PWR_WAIT [n.val]) * 100000000)
      rpGo (rpClk s n.val (some true)) n.val rsTraining
    else s)

/-- PERST_RELEASE_DELAY (R387): 100 ms after REFCLK started. -/
def execPerstReleaseDelay (n : Fin 16) (s : State) : Ans := whenOn s fun s =>
  .next (if rpSt s n.val = rsTraining && (rpGet s n.val).refclk == some true then
      rpPerst (rpLapse s n.val 1000000000) n.val true else s)

/-- LINK_ACTIVE (R387): Data Link Layer Link Active, at a speed (1 to 5) and a width (1, 2 or 4). -/
def execLinkActive (n : Fin 16) (speed width : Fin 8) (s : State) : Ans := whenOn s fun s =>
  .next (
    if rpSt s n.val = rsTraining && (rpGet s n.val).perstOff && 1 ≤ speed.val && speed.val ≤ 5
        && (width.val == 1 || width.val == 2 || width.val == 4) then
      let s := (s.wr R.STG_RP_STATUS.SPEED [n.val] speed.val).wr R.STG_RP_STATUS.WIDTH [n.val] width.val
      rpEvt (rpCfgBit (rpGo s n.val rsInit) n.val 30 24 true) n.val 2
    else s)

/-- TRAINING_TIMEOUT (R387). -/
def execTrainingTimeout (n : Fin 16) (s : State) : Ans := whenOn s fun s =>
  .next (if rpSt s n.val = rsTraining then rpFault (rpLapse s n.val 10000000000) n.val else s)

/-- ENUMERATION_DELAY (R387, R393, R394): function 0 is enumerated, its BAR and MSI-X programmed. -/
def execEnumerationDelay (n : Fin 16) (vid : Fin 65536) (s : State) : Ans := whenOn s fun s =>
  .next (if rpSt s n.val = rsInit then
      ((rpLapse s n.val 1000000000).wr R.STG_RP_DRV.VID [n.val] vid.val).emit (.driveCtl n.val 0 0) else s)

/-- DRIVE_INIT_COMPLETE (R387, R393). -/
def execDriveInitComplete (n : Fin 16) (x : DrvInit) (s : State) : Ans := whenOn s fun s =>
  .next (
    if rpSt s n.val ≠ rsInit then s
    else match x with
    | .failed => rpFault (rpEvt s n.val 5) n.val
    | .ok l =>
      let found := ((List.range 32).filterMap (fun i => match l[i]? with
        | some (b, z) => if z = 0 then none else some (i + 1, ({ lba := b, size := z } : DrvNs))
        | none => none))
      let s := rpMod s n.val (fun p => { p with drv := found, aborted := [] })
      let s := s.wr R.STG_RP_DRV.NSCOUNT [n.val] found.length
      rpGo (pwrLed s n.val 1) n.val rsOnline)

/-- QUIESCE_COMPLETE (R387): no drive command is left, and the drive reported its shutdown or 5 s passed. -/
def execQuiesceComplete (n : Fin 16) (s : State) : Ans := whenOn s fun s =>
  .next (if rpSt s n.val = rsQuiescing && rpOutstanding s n.val = 0 then rpOff s n.val else s)

/-- R391: whether DPC Trigger Enable lets a trigger act. -/
def dpcEnabled (s : State) (n : Nat) (c : DpcCause) : Bool :=
  let v := bits (rpCfgGet s n 83) 16 2
  match c with
  | .errNonfatal => v = 1
  | _ => v = 1 || v = 2

/-- DPC_TRIGGER (R391). -/
def execDpcTrigger (n : Fin 16) (c : DpcCause) (s : State) : Ans := whenOn s fun s =>
  .next (if dpcEnabled s n.val c then
      rpDpc s n.val (match c with | .surpriseDown => 0 | .errNonfatal => 1 | .errFatal => 2 | .rpPio => 3)
    else s)

/-- DPC_RELEASE (R391): STG clears DPC Trigger Status in SURPRISE once no drive command is left. -/
def execDpcRelease (n : Fin 16) (s : State) : Ans := whenOn s fun s =>
  .next (if s.flag R.STG_RP_STATUS.DPC [n.val] && rpSt s n.val = rsSurprise && rpOutstanding s n.val = 0 then
      rpSurpriseEnd (s.wr R.STG_RP_STATUS.DPC [n.val] 0) n.val
    else s)

/-- SLOT_CONTROL_WRITE (R386, R387): the low 16 bits of the doubleword of Slot Control and Slot Status. -/
def execSlotControlWrite (n : Fin 16) (v : Fin 65536) (s : State) : Ans := fromHost s fun s =>
  .next (rpCfgWrite s n.val 30 v.val)

/-- REMOVE (R387). -/
def execRemove (n : Fin 16) (s : State) : Ans := fromHost s fun s =>
  .next (rpQuiesce s n.val)

/-- DRIVE_COMPLETION (R392): ends its command, or arrives late. -/
def execDriveCompletion (n : Fin 16) (cid : Fin 65536) (sct : Fin 8) (sc : Fin 256) (s : State) : Ans := whenOn s fun s =>
  let hit (o : LegOp) : Bool := o.port == some n.val && o.st == .out && o.tag == cid.val
  .next (
    if (outOps s n.val).any (fun o => o.tag == cid.val) then
      let f (o : LegOp) : LegOp := if hit o then { o with st := .ended (.drive sct.val sc.val) } else o
      let s := modLegs s f
      let s := if sct.val = 0 && sc.val = 0 then s else rpCount s n.val 1
      rpShutdown (pumpPort s n.val 1024) n.val
    else rpCount (rpMod s n.val (fun p => { p with aborted := p.aborted.filter (· ≠ cid.val) })) n.val 5)

/-- R392: when command `cid` of a port has been at its drive for CMD_TMO seconds. -/
def cmdDue (s : State) (n cid : Nat) : Nat :=
  ((outOps s n).filter (fun o => o.tag == cid)).foldl (fun t o => max t o.sent) 0
    + max 1 (s.rd R.STG_RP_CTL.CMD_TMO [n]) * 10000000000

/-- DRIVE_CMD_TIMEOUT (R392): the command ends, an Abort is sent, the port has failed once. -/
def execDriveCmdTimeout (n : Fin 16) (cid : Fin 65536) (s : State) : Ans := whenOn s fun s =>
  let hit (o : LegOp) : Bool := o.port == some n.val && o.st == .out && o.tag == cid.val
  .next (
    if (outOps s n.val).any (fun o => o.tag == cid.val) then
      let f (o : LegOp) : LegOp := if hit o then { o with st := .ended .lost } else o
      let s := clockTo s (cmdDue s n.val cid.val)
      let s := rpMod (modLegs s f) n.val (fun p => { p with aborted := p.aborted ++ [cid.val] })
      let s := rpCount (rpCount s n.val 2) n.val 3
      let s := rpEvt (s.emit (.driveCtl n.val 1 cid.val)) n.val 6
      rpShutdown (portFail s n.val) n.val
    else s)

/-- ABORT_TIMEOUT (R392): the drive controller is reset and initialized again, the port in INIT meanwhile. -/
def execAbortTimeout (n : Fin 16) (cid : Fin 65536) (s : State) : Ans := whenOn s fun s =>
  .next (
    if rpSt s n.val = rsOnline && (rpGet s n.val).aborted.contains cid.val then
      let s := (rpCount s n.val 4).emit (.driveCtl n.val 3 0)
      rpLeave (rpGo (rpMod s n.val (fun p => { p with armed := false })) n.val rsInit) n.val
    else s)

/-- AER_ERROR (R390): bit `b` of the status register; `cid` is the drive command it belongs to, where one is known. -/
def execAerError (n : Fin 16) (sev : AerSev) (b : Fin 32) (cid : Option (Fin 65536)) (s : State) : Ans := whenOn s fun s =>
  .next (match sev with
    | .cor => rpAer s n.val b.val true
    | .nonfatal =>
      let s := rpAer s n.val b.val false
      match cid with
      | none => s
      | some c =>
        let f (o : LegOp) : LegOp := if o.port = some n.val && o.st == .out && o.tag = c.val then { o with st := .ended .lost } else o
        rpShutdown (modLegs s f) n.val
    | .fatal =>
      let s := rpAer s n.val b.val false
      if dpcEnabled s n.val .errFatal then rpDpc s n.val 2 else rpSurprise s n.val)

/-- R394: whether bytes at a bus address lie inside a staging area. -/
def inStage (s : State) (a n : Nat) : Bool :=
  match devAddr a n with
  | none => false
  | some m => (List.range 4).any (fun q =>
      let lo := hbmAddr q (s.rd R.STG_STAGE.BASE [q] * 2 ^ 20)
      decide (lo ≤ m) && decide (m + n ≤ lo + s.rd R.STG_STAGE.SIZE [q] * 2 ^ 20))

/-- DRIVE_INBOUND_REQUEST (R384, R391, R394). -/
def execDriveInboundRequest (n : Fin 16) (addr : Nat) (x : DrvReq) (s : State) : Ans := whenOn s fun s =>
  let st := rpSt s n.val
  .next (
    if s.flag R.STG_RP_STATUS.DPC [n.val] || !(st == rsInit || st == rsOnline || st == rsQuiescing) then s
    else match x with
    | .write d ep =>
      if inStage s addr d.length then
        let a := addr - 0x8000000000
        let s := stageWrite s a d
        if ep then
          let lines := (List.range (ceilDiv (a % 64 + d.length) 64)).map (a / 64 + ·)
          { s with fil := { s.fil with poison := lines.foldl (fun m l => SMap.set false m l true) s.fil.poison } }
        else s
      else if 0x7FF0000000 ≤ addr && addr + d.length ≤ 0x7FF0010000 then s
      else rpAer (rpCount s n.val 9) n.val 20 false
    | .read len =>
      if inStage s addr len then s.emit (.driveCpl n.val 0 (s.hbmRead (addr - 0x8000000000) len))
      else (rpAer (rpCount s n.val 9) n.val 20 false).emit (.driveCpl n.val 1 [])
    | .atomic => (rpAer (rpCount s n.val 9) n.val 20 false).emit (.driveCpl n.val 1 []))

/-- ROOT_PORT_LINK_DOWN (R387): without a DPC trigger. -/
def execRootPortLinkDown (n : Fin 16) (s : State) : Ans := whenOn s fun s =>
  .next (rpSurprise s n.val)

/-- NS_WRITE (R398 to R400); `x` is what the read of the records brought. -/
def execNsWrite (r : Fin 262144) (x : RdRes) (s : State) : Ans := whenUp s fun s =>
  .next (ctrlRun s r.val 0x60 96 x noEarly (fun _ => nsWriteRec))

/-- EXT_WRITE (R398, R400). -/
def execExtWrite (r : Fin 262144) (x : RdRes) (s : State) : Ans := whenUp s fun s =>
  .next (ctrlRun s r.val 0x61 96 x noEarly (fun _ => extWriteRec))

/-- NS_READ (R398, R482). -/
def execNsRead (r : Fin 262144) (x : RdRes) (s : State) : Ans := whenUp s fun s =>
  .next (ctrlRun s r.val 0x62 32 x noEarly (fun _ => nsReadRec))

/-- STG_ENABLE (R413). -/
def execStgEnable (en : Bool) (s : State) : Ans := fromHost s fun s =>
  .next (stgEnable s en)

end Sys2Proof.Machine
end

