-- ==== Sys2Proof/Machine/Switch.lean ====
section
/-! DEFINITION. The meanings of the Granary, Tallyman and egress commands (R67, R168, R174, R175, R182, R183, R192, R198,
R201, R218 to R224, R232 to R239, R679). -/

namespace Sys2Proof.Machine

open Sys2Proof

/-- EGRESS_SELECT (R218). -/
def execEgressSelect (e : Fin 136) (s : State) : Ans := whenUp s fun s =>
  .next (egressSelect s e.val)

/-- SELECTION_DISPLACE (R220). -/
def execSelectionDisplace (e : Fin 136) (s : State) : Ans := whenUp s fun s =>
  .next (displace s e.val)

/-- FRAME_TRANSMIT_START (R223): `under` says that a cell of a cut-through frame was not written in time (R187). -/
def execFrameTransmitStart (e : Fin 136) (under : Bool) (s : State) : Ans := whenUp s fun s =>
  .next (transmitStart s e.val under)

/-- PFC_REFRESH (R182). -/
def execPfcRefresh (p : Fin 128) (pri : Fin 8) (s : State) : Ans := whenUp s fun s =>
  .next (pfcRefresh s p.val pri.val)

/-- PFC_FRAME_RECEIVE (R67): a PAUSE frame or a PFC frame, by the priorities it stops and those it lets go on. -/
def execPfcFrameReceive (p : Fin 128) (pause : Bool) (stop go : BitVec 8) (s : State) : Ans := fromWire s p.val true fun s =>
  .next (pauseArrive s p.val pause stop.toNat go.toNat)

/-- PAUSE_QUANTA_EXPIRY (R67). -/
def execPauseQuantaExpiry (p : Fin 128) (pri : Fin 8) (s : State) : Ans := whenUp s fun s =>
  .next (pauseEnd s p.val pri.val)

/-- FLUSH_CELL_RETURN (R201): at least 32 cells return; `extra` more than that floor. -/
def execFlushCellReturn (extra : Nat) (s : State) : Ans := whenUp s fun s =>
  .next (flushReturn s (32 + extra))

/-- GRANARY_ENABLE (R174): a write of GRN_CFG.EN. -/
def execGranaryEnable (en : Bool) (s : State) : Ans := fromHost s fun s =>
  .next (grnEnable s en)

/-- R175: a write of GRN_QPROF[i].MIN. -/
def qprofMin (s : State) (i v : Nat) : State :=
  let t := s.wr R.GRN_QPROF_W0.MIN [i] v
  if s.flag R.GRN_CFG.EN [] && decide (reserveSum t s.grn.qmap > reserveSum s s.grn.qmap)
      && decide (reserveSum t s.grn.qmap > s.rd R.GRN_POOL.RESERVE []) then grnErr s 2
  else t

/-- QPROF_MIN_WRITE (R175). -/
def execQprofMinWrite (i : Fin 64) (v : BitVec 20) (s : State) : Ans := fromHost s fun s =>
  .next (qprofMin s i.val v.toNat)

/-- R183: writes that may raise the headroom sum: kept unless they raise it above HEADROOM. -/
def headroomKeep (s t : State) : State :=
  if decide (headroomSum t > headroomSum s) && decide (headroomSum t > s.rd R.GRN_POOL_HR.HEADROOM []) then grnErr s 3 else t

/-- R183: LOSSLESS_PRI and PFC_PROF of an account. -/
def inCfgWrite (s : State) (i pri prof : Nat) : State :=
  headroomKeep s ((s.wr R.GRN_IN_CFG_W0.LOSSLESS_PRI [i] pri).wr R.GRN_IN_CFG_W0.PFC_PROF [i] prof)

/-- HEADROOM_CONFIG_WRITE (R183): a write of GRN_IN_CFG[i] (LOSSLESS_PRI, PFC_PROF), or of HEADROOM of
GRN_PFC_PROF[j]. -/
def execHeadroomConfigWrite (w : (Fin 144 × BitVec 8 × Fin 16) ⊕ (Fin 16 × BitVec 20)) (s : State) : Ans := fromHost s fun s =>
  match w with
  | .inl (i, pri, prof) => .next (inCfgWrite s i.val pri.toNat prof.val)
  | .inr (j, h) => .next (headroomKeep s (s.wr R.GRN_PFC_PROF_W2.HEADROOM [j.val] h.toNat))

/-- DEEP_RETURN (R198): `errs` is the mask of the frame's deep cells that came back with an uncorrectable error. -/
def execDeepReturn (q : Fin 65536) (errs : BitVec 64) (s : State) : Ans := whenUp s fun s =>
  .next (deepReturn s q.val errs.toNat)

/-- MULTICAST_MEMBER_ENQUEUE (R192): at most the 32 operations of a cycle. -/
def execMulticastMemberEnqueue (n : Fin 33) (s : State) : Ans := whenUp s fun s =>
  .next (mcEnqueue s n.val)

/-- FILBERT_DELIVERY (R679). -/
def execFilbertDelivery (s : State) : Ans := whenUp s fun s =>
  .next (filbertDeliver s)

/-- R168: cell `c` marked poisoned in every frame and parked packet that it holds a part of. -/
def poisonCell (s : State) (c : Nat) : State :=
  let mark (f : GFrame) : GFrame :=
    match f.place.findIdx? (· == c) with
    | some i => if f.bad.contains i then f else { f with bad := f.bad ++ [i] }
    | none => f
  let s := { s with grn := { s.grn with frames := SMap.mapVal mark s.grn.frames } }
  { s with car := { s.car with parked := s.car.parked.map (fun p =>
      if p.place.contains c then { p with pkt := { p.pkt with poison := true } } else p) } }

/-- R165, R168: an ECC error of a bank word of cell `c`. -/
def sramError (s : State) (c : Nat) (corrected : Bool) : State :=
  if corrected then s.inc R.GRN_CNT.COUNT [7]
  else
    let s := if SMap.get 0 s.grn.used c ≠ 0 then (poisonCell s c).inc R.GRN_CNT.COUNT [8] else s
    (countFailure s 7 (cellPair c) 0 []).1

/-- GRANARY_SRAM_ERROR (R165, R168): the bank group, the pair in it and the row of the cell whose bank word failed, and whether the
error was corrected. -/
def execGranarySramError (g : Fin 8) (p : Fin 4) (row : Fin 16384) (corrected : Bool) (s : State) : Ans := whenUp s fun s =>
  .next (sramError s ((4 * g.val + p.val) * 16384 + row.val) corrected)

/-- SHAPER_REFILL (R224). -/
def execShaperRefill (s : State) : Ans := whenUp s fun s =>
  .next (shaperRefill s)

/-- GATE_EVENT (R232): the end of an entry's interval, or a cycle boundary. -/
def execGateEvent (e : Fin 128) (boundary : Bool) (s : State) : Ans := whenUp s fun s =>
  .next (gateEvent s e.val boundary)

/-- GATE_CHANGE (R236). -/
def execGateChange (e : Fin 128) (s : State) : Ans := fromHost s fun s =>
  .next (gateChange s e.val)

/-- GATE_CONFIG_CHANGE (R238). -/
def execGateConfigChange (e : Fin 128) (s : State) : Ans := whenUp s fun s =>
  .next (gateTakeOver s e.val)

/-- GATE_DISABLE (R239). -/
def execGateDisable (e : Fin 128) (s : State) : Ans := fromHost s fun s =>
  .next (gateDisable s e.val)

end Sys2Proof.Machine
end

