-- ==== Sys2Proof/Machine/Time.lean ====
section
/-! DEFINITION. The meanings of the Time Unit's commands (R533, R534, R545 to R549, R551).
Log entries 179. -/

namespace Sys2Proof.Machine

open Sys2Proof

/-- TIME_CAPTURE (R533). -/
def execTimeCapture (s : State) : Ans := fromHost s fun s =>
  .next (timeCapture s)

/-- TIME_SET (R534): a write of TU_SET_CTL with APPLY 1 and the given ADD and NEG. -/
def execTimeSet (add neg : Bool) (s : State) : Ans := fromHost s fun s =>
  .next (timeSet ((s.wr R.TU_SET_CTL.ADD [] (b2n add)).wr R.TU_SET_CTL.NEG [] (b2n neg)) add neg)

/-- SAMPLE_COMMIT (R545): a write of COMMIT 1 with the given KIND. -/
def execSampleCommit (kind : Bool) (s : State) : Ans := fromHost s fun s =>
  .next (sampleCommit (s.wr R.TU_SMP_CTL.KIND [] (b2n kind)) kind)

/-- SERVO_HOLD_TIMEOUT (R547): HOLD_TMO ms without an offset while LOCKING or LOCKED. -/
def execServoHoldTimeout (s : State) : Ans := whenOn s fun s =>
  let st := s.rd R.TU_STATUS.SERVO_STATE []
  let due := s.tu.offAt + max 1 (s.rd R.TU_SERVO_LIM.HOLD_TMO []) * 10000000
  .next (servoHoldover (if st = svLocking || st = svLocked then clockTo s due else s))

/-- SERVO_MODE_WRITE (R547). -/
def execServoModeWrite (mode : Fin 8) (s : State) : Ans := fromHost s fun s =>
  .next (servoMode s mode)

/-- PPS_IN_EDGE (R548). -/
def execPpsInEdge (s : State) : Ans := whenOn s fun s =>
  if !s.flag R.TU_PPS.IN_EN [] then .next s
  else
    let (t, s) := tuStamp s accSnap
    let s := (((s.wr R.TU_PPS_IN_SEC_LO.SEC_LO [] (tsSec t % 2 ^ 32)).wr R.TU_PPS_IN_SEC_HI.SEC_HI [] (tsSec t / 2 ^ 32)).wr
      R.TU_PPS_IN_NS.NS [] (tsNs t)).wr R.TU_PPS_IN_FRAC.FRAC [] (tsFrac t)
    let s := s.inc R.TU_CNT.COUNT [5]
    if s.rd R.TU_SERVO.SRC [] ≠ 1 || isMember s then .next s
    else
      let n := tsNs (tsShift t (-(toSigned 32 (s.rd R.TU_PPS_LAT.IN_LAT []) * 256)))
      let off : Int := if n < 500000000 then (n : Int) else (n : Int) - 1000000000
      .next (onOffset s (off * 65536))

/-- R549: when TU time next comes to OUT_OFFSET ns after a second boundary, in 0.1 ns of elapsed time. -/
def ppsNext (s : State) : Nat :=
  let sec : Int := (1000000000 * 2 ^ 32 : Nat)
  let x : Int := (s.tu.t : Int) - toSigned 32 (s.rd R.TU_PPS_OFF.OUT_OFFSET []) * 2 ^ 32
  let k : Int := (2 ^ 40 : Nat) + toSigned 32 (s.rd R.TU_FREQ_APPLIED.FREQ_APPLIED [])
  s.now + ceilDiv (((x.fdiv sec + 1) * sec - x) * 2560).toNat k.toNat

/-- PPS_OUT_EDGE (R549): at the next second boundary plus OUT_OFFSET, PPS_OUT rises where OUT_EN is 1, and event bit 51 of every hart is set. -/
def execPpsOutEdge (s : State) : Ans := whenOn s fun s =>
  if !s.flag R.TU_CFG.EN [] then .next s
  else
    let s := (List.range 512).foldl (fun s h => latchEv s h 51) (clockTo s (ppsNext s))
    if !s.flag R.TU_PPS.OUT_EN [] then .next s
    else
      let w := s.rd R.TU_PPS_WIDTH.OUT_WIDTH []
      let w := if 1 ≤ w && w ≤ 500000 then w else 500000
      .next (({ s with tu := { s.tu with ppsOff := some (s.now + w * 10000) } }).emit (.pin .ppsOut true))

/-- EEC_REF_QUALIFIED (R551): each operand is the measured and filtered frequency of a reference that has stayed OK for
10 s at this moment, signed, in units of 2^-40. -/
def execEecRefQualified (q0 q1 : Option (BitVec 32)) (s : State) : Ans := whenOn s fun s =>
  .next (eecQualified s (q0.map BitVec.toInt) (q1.map BitVec.toInt))

/-- EEC_REF_LOST (R551). -/
def execEecRefLost (r : Fin 2) (avg : BitVec 32) (s : State) : Ans := whenOn s fun s =>
  .next (eecLost s r avg.toInt)

/-- SYNCE_ENABLE_WRITE (R551). -/
def execSynceEnableWrite (en : Bool) (s : State) : Ans := fromHost s fun s =>
  .next (synceEnable s en)

end Sys2Proof.Machine
end

