-- ==== Sys2Proof/Machine/Hss.lean ====
section
/-! DEFINITION. HSS signature verification of SP 800-208 and RFC 8554, with SHA-256 and SHA-256/192 (R616, R617, R627,
R634).
Log entries 13. -/

namespace Sys2Proof.Machine

open Sys2Proof

/-- The initial hash value of SHA-256. -/
def sha256Iv : List Nat :=
  [0x6A09E667, 0xBB67AE85, 0x3C6EF372, 0xA54FF53A, 0x510E527F, 0x9B05688C, 0x1F83D9AB, 0x5BE0CD19]

/-- The round constants of SHA-256 are the upper halves of the first 64 of SHA-384. -/
def sha256K : List Nat := (shaK.take 64).map (fun k => k / 2 ^ 32)

def rotr32 (x n : Nat) : Nat := x / 2 ^ n + x % 2 ^ n * 2 ^ (32 - n)

/-- The message schedule of SHA-256, newest word first, extended by `n` words. -/
def sha256Sched (n : Nat) (ws : List Nat) : List Nat :=
  match n with
  | 0 => ws
  | n + 1 =>
    let w2 := ws.getD 1 0
    let w15 := ws.getD 14 0
    let s1 := xor3 (rotr32 w2 17) (rotr32 w2 19) (w2 / 2 ^ 10)
    let s0 := xor3 (rotr32 w15 7) (rotr32 w15 18) (w15 / 2 ^ 3)
    sha256Sched n ((s1 + ws.getD 6 0 + s0 + ws.getD 15 0) % 2 ^ 32 :: ws)

/-- One round of SHA-256 on the eight working words. -/
def sha256Round (v : List Nat) (kw : Nat) : List Nat :=
  match v with
  | [a, b, c, d, e, f, g, h] =>
    let s1 := xor3 (rotr32 e 6) (rotr32 e 11) (rotr32 e 25)
    let ch := Nat.xor (Nat.land e f) (Nat.land (2 ^ 32 - 1 - e) g)
    let t1 := h + s1 + ch + kw
    let s0 := xor3 (rotr32 a 2) (rotr32 a 13) (rotr32 a 22)
    let mj := xor3 (Nat.land a b) (Nat.land a c) (Nat.land b c)
    [(t1 + s0 + mj) % 2 ^ 32, a, b, c, (d + t1) % 2 ^ 32, e, f, g]
  | _ => v

/-- One block of 64 bytes. -/
def sha256Block (h : List Nat) (b : Bytes) : List Nat :=
  let ws := (sha256Sched 48 (((chunks 4 16 b).map beNat).reverse)).reverse
  let v := (List.zipWith (· + ·) sha256K ws).foldl sha256Round h
  List.zipWith (fun a b => (a + b) % 2 ^ 32) h v

/-- SHA-256 (FIPS 180-4). -/
def sha256 (m : Bytes) : Bytes :=
  let z := (64 - (m.length + 9) % 64) % 64
  let p := m ++ [0x80] ++ List.replicate z 0 ++ beBytes 8 (m.length * 8)
  ((chunks 64 (p.length / 64) p).foldl sha256Block sha256Iv).flatMap (beBytes 4)

/-- The parameters of an LM-OTS set: hash bytes n, Winternitz width w, chains p, checksum shift ls. -/
structure Ots where
  n : Nat
  w : Nat
  p : Nat
  ls : Nat
deriving DecidableEq, Repr

/-- The LM-OTS parameter sets with SHA-256 (types 1 to 4) and SHA-256/192 (types 5 to 8). -/
def otsSet (t : Nat) : Option Ots :=
  match t with
  | 1 => some ⟨32, 1, 265, 7⟩
  | 2 => some ⟨32, 2, 133, 6⟩
  | 3 => some ⟨32, 4, 67, 4⟩
  | 4 => some ⟨32, 8, 34, 0⟩
  | 5 => some ⟨24, 1, 200, 8⟩
  | 6 => some ⟨24, 2, 101, 6⟩
  | 7 => some ⟨24, 4, 51, 4⟩
  | 8 => some ⟨24, 8, 26, 0⟩
  | _ => none

/-- The LMS parameter sets with SHA-256 (types 5 to 9) and SHA-256/192 (types 10 to 14): hash bytes and height. -/
def lmsSet (t : Nat) : Option (Nat × Nat) :=
  if 5 ≤ t && t ≤ 9 then some (32, 5 * (t - 4))
  else if 10 ≤ t && t ≤ 14 then some (24, 5 * (t - 9))
  else none

/-- The hash of a parameter set: SHA-256, cut to n bytes. -/
def lmsHash (n : Nat) (m : Bytes) : Bytes := (sha256 m).take n

/-- Digit `i` of width `w` of a byte string. -/
def coef (b : Bytes) (i w : Nat) : Nat := byteAt b (i * w / 8) / 2 ^ (8 - w - i * w % 8) % 2 ^ w

/-- The checksum of a digest, in two bytes. -/
def otsCksm (o : Ots) (q : Bytes) : Bytes :=
  beBytes 2 (((List.range (o.n * 8 / o.w)).foldl (fun a i => a + (2 ^ o.w - 1 - coef q i o.w)) 0) * 2 ^ o.ls)

/-- A Winternitz chain of `k` steps from step `j`. -/
def otsChain (n : Nat) (pre : Bytes) (k j : Nat) (y : Bytes) : Bytes :=
  match k with
  | 0 => y
  | k + 1 => otsChain n pre k (j + 1) (lmsHash n (pre ++ [byteOf j] ++ y))

/-- The LM-OTS public key that a signature of a message gives, for the tree `id` and leaf `q`. -/
def otsKey (o : Ots) (id : Bytes) (q : Nat) (msg sig : Bytes) : Bytes :=
  let pre := id ++ beBytes 4 q
  let d := lmsHash o.n (pre ++ [0x81, 0x81] ++ slice sig 4 o.n ++ msg)
  let d := d ++ otsCksm o d
  let z := (List.range o.p).flatMap (fun i =>
    let a := coef d i o.w
    otsChain o.n (pre ++ beBytes 2 i) (2 ^ o.w - 1 - a) a (slice sig (4 + o.n + i * o.n) o.n))
  lmsHash o.n (pre ++ [0x80, 0x80] ++ z)

/-- The root that a leaf hash and its path give, from node `r` up over the `h` hashes of the path. -/
def lmsRoot (n : Nat) (id : Bytes) (h r : Nat) (path t : Bytes) : Bytes :=
  match h with
  | 0 => t
  | h + 1 =>
    let pair := if r % 2 = 1 then slice path 0 n ++ t else t ++ slice path 0 n
    lmsRoot n id h (r / 2) (path.drop n) (lmsHash n (id ++ beBytes 4 (r / 2) ++ [0x83, 0x83] ++ pair))

/-- The parameters of the LMS signature at the head of a byte string, with its length; none where a set is not supported or
its two hashes differ. -/
def lmsSigShape (sig : Bytes) : Option (Ots × Nat × Nat) :=
  match otsSet (beAt sig 4 4) with
  | none => none
  | some o =>
    let ots := 4 + o.n * (o.p + 1)
    match lmsSet (beAt sig (4 + ots) 4) with
    | none => none
    | some (m, h) => if m = o.n then some (o, h, 4 + ots + 4 + m * h) else none

/-- RFC 8554: LMS verification under a public key: type, LM-OTS type, 16 bytes of identifier, root. -/
def lmsVerify (pub msg sig : Bytes) : Bool :=
  match lmsSigShape sig with
  | none => false
  | some (o, h, len) =>
    let q := beAt sig 0 4
    let ots := 4 + o.n * (o.p + 1)
    let id := slice pub 8 16
    let leaf := lmsHash o.n (id ++ beBytes 4 (2 ^ h + q) ++ [0x82, 0x82] ++ otsKey o id q msg (slice sig 4 ots))
    decide (pub.length = 24 + o.n) && sig.length == len && decide (q < 2 ^ h)
      && slice pub 0 4 == slice sig (4 + ots) 4 && slice pub 4 4 == slice sig 4 4
      && lmsRoot o.n id h (2 ^ h + q) (sig.drop (8 + ots)) leaf == pub.drop 24

/-- The length that the parameter sets of an HSS signature give, over `n` signed public keys and the last signature. -/
def hssBodyLen (n : Nat) (sig : Bytes) : Option Nat :=
  match lmsSigShape sig with
  | none => none
  | some (_, _, len) =>
    match n with
    | 0 => some len
    | n + 1 =>
      match lmsSet (beAt sig len 4) with
      | none => none
      | some (m, _) => (hssBodyLen n (sig.drop (len + 24 + m))).map (fun r => len + 24 + m + r)

/-- R615, R617: the length that the parameter sets of an HSS signature give; none for a set that is not supported or a
number of levels outside 1 to 8. -/
def hssSigLen (sig : Bytes) : Option Nat :=
  if beAt sig 0 4 ≤ 7 then (hssBodyLen (beAt sig 0 4) (sig.drop 4)).map (· + 4) else none

/-- The levels of an HSS signature below the first. -/
def hssWalk (n : Nat) (pub msg sig : Bytes) : Bool :=
  match n with
  | 0 => lmsVerify pub msg sig
  | n + 1 =>
    match lmsSigShape sig with
    | none => false
    | some (_, _, len) =>
      match lmsSet (beAt sig len 4) with
      | none => false
      | some (m, _) =>
        let next := slice sig len (24 + m)
        lmsVerify pub next (sig.take len) && hssWalk n next msg (sig.drop (len + 24 + m))

/-- R617: HSS verification under a public key: the number of levels, then the LMS key of the first. -/
def hssVerify (pub msg sig : Bytes) : Bool :=
  let l := beAt pub 0 4
  decide (1 ≤ l) && decide (l ≤ 8) && beAt sig 0 4 + 1 == l && hssSigLen sig == some sig.length
    && hssWalk (l - 1) (pub.drop 4) msg (sig.drop 4)

end Sys2Proof.Machine
end

