-- ==== Sys2Proof/Machine/TrustOps.lean ====
section
/-! DEFINITION. Shared operations of secure boot, identity and the debug unlock (R611 to R636).
Log entries 130, 133, 134, 135, 136, 137. -/

namespace Sys2Proof.Machine

open Sys2Proof

def putTrust (s : State) (t : Trust) : State := { s with trust := t }

/-- Values of DBG_BOOT.STAGE. -/
def stRom : Nat := 0
def stReeve : Nat := 1
def stFilbert : Nat := 2
def stNoReeve : Nat := 3
def stNoFilbert : Nat := 4

def stage (s : State) : Nat := s.rd R.DBG_BOOT.STAGE []

/-- Whether the Reeve firmware runs: it has started, and neither the Bellman nor a lost supply holds it (R603). -/
def reeveRuns (s : State) : Bool :=
  !bellman s && !s.pwr.dark && (stage s == stReeve || stage s == stFilbert || stage s == stNoFilbert)

/-- What the Reeve firmware does. -/
def byFirmware (s : State) (f : State → Ans) : Ans := if reeveRuns s then f s else .next s

/-! ## Images -/

/-- The TYPE codes of an image (R615). -/
def tyReeve : Nat := 1
def tyFilbert : Nat := 2

/-- The size of a slot of TYPE `ty`, and its offset in the flash (R612). -/
def slotSize (ty : Nat) : Nat := if ty = tyReeve then 2 ^ 20 else 32 * 2 ^ 20
def slotBase (ty slot : Nat) : Nat := if ty = tyReeve then slot * 2 ^ 20 else 0x200000 + slot * 32 * 2 ^ 20

/-- The greatest payload of TYPE `ty` (R615). -/
def payloadMax (ty : Nat) : Nat := if ty = tyReeve then 458752 else 32505856

/-- Whether `n` bytes of a string from `o` are 0. -/
def zeroAt (b : Bytes) (o n : Nat) : Bool := (slice b o n).all (· == 0)

def payloadLen (b : Bytes) : Nat := leAt b 32 4
def loadAddr (b : Bytes) : Nat := leAt b 16 8

/-- R615: where the payload starts: at a multiple of 4,096 after the signatures. -/
def payloadAt (b : Bytes) : Nat := ceilDiv (224 + leAt b 36 4) 4096 * 4096

/-- R615: the place of the image in memory: offset 0 of the Reeve SRAM, or HBM, aligned to 4 KiB. -/
def placeOk (ty : Nat) (b : Bytes) : Bool :=
  if ty = tyReeve then loadAddr b == 0
  else loadAddr b % 4096 == 0 && (match region (loadAddr b) (payloadLen b) with | .hbm _ => true | _ => false)

/-- R616 code 1: MAGIC, version, TYPE, reserved values and lengths. -/
def headerOk (ty : Nat) (b : Bytes) : Bool :=
  let len := payloadLen b
  leAt b 0 4 == 0x45564D31 && byteAt b 4 == 1 && byteAt b 5 == ty && decide (byteAt b 6 < 4) && decide (byteAt b 7 ≤ 64)
    && decide (byteAt b 8 < 4) && zeroAt b 9 7 && zeroAt b 40 8 && zeroAt b 96 32
    && len % 16 == 0 && decide (len ≤ payloadMax ty) && placeOk ty b
    && decide (loadAddr b ≤ leAt b 24 8) && decide (leAt b 24 8 < loadAddr b + len)
    && decide (payloadAt b + len ≤ slotSize ty) && hssSigLen (b.drop 224) == some (leAt b 36 4)

/-- The floor of a TYPE (R618). -/
def svnFloor (s : State) (ty : Nat) : Nat := if ty = tyReeve then s.rd R.DBG_SVN.FLOOR_R [] else s.rd R.DBG_SVN.FLOOR_F []

def revoked (s : State) (k : Nat) : Bool := bit (s.rd R.DBG_SVN.REVOKED []) k

/-- The fused public keys of pair `k` (R617). -/
def rootEcdsa (k : Nat) : Bytes := (List.range 96).map (Config.rootEcdsa k)
def rootHss (k : Nat) : Bytes := (List.range (Config.rootHssLen k)).map (Config.rootHss k)

/-- R616: the checks on the header alone, in their order: 1, 5, 2, 3, 4; 0 when all pass. -/
def checkHeader (s : State) (ty : Nat) (b : Bytes) : Nat :=
  let k := byteAt b 6
  if !headerOk ty b then 1
  else if revoked s k then 5
  else if !ecdsaVerify (rootEcdsa k) (b.take 128) (slice b 128 96) then 2
  else if !hssVerify (rootHss k) (b.take 128) (slice b 224 (leAt b 36 4)) then 3
  else if byteAt b 7 < svnFloor s ty then 4
  else 0

/-- R615: the payload of an image. -/
def payloadOf (b : Bytes) : Bytes := slice b (payloadAt b) (payloadLen b)

/-- R616: the code of an image; `digested` is the payload where the digest is taken. -/
def checkImage (s : State) (ty : Nat) (b digested : Bytes) : Nat :=
  let c := checkHeader s ty b
  if c ≠ 0 then c else if sha384 digested ≠ slice b 48 48 then 6 else 0

/-- What the device keeps of an accepted image. -/
def imgOf (b : Bytes) : Img :=
  { svn := byteAt b 7, keyId := byteAt b 6, advance := bit (byteAt b 8) 0, revoke := bit (byteAt b 8) 1, digest := slice b 48 48 }

def setFail (s : State) (c : Nat) : State := s.wr R.DBG_BOOT.FAIL [] c

/-- R613: a Reeve slot is rejected; with both rejected the ROM gates every domain. -/
def rejectReeve (s : State) (c : Nat) : State :=
  let s := setFail (putTrust s { s.trust with triedR := s.trust.triedR + 1 }) c
  if s.trust.triedR < 2 then s
  else
    let s := putPwr s { s.pwr with noImage := true }
    ((List.range 156).foldl gateOff s).wr R.DBG_BOOT.STAGE [] stNoReeve

/-- R613: a Filbert slot is rejected; with both rejected STAGE reads 4. -/
def rejectFilbert (s : State) (c : Nat) : State :=
  let s := setFail (putTrust s { s.trust with triedF := s.trust.triedF + 1 }) c
  if s.trust.triedF < 2 then s else s.wr R.DBG_BOOT.STAGE [] stNoFilbert

/-- R611, R613: the ROM has read a Reeve slot. It restarts the watchdog throughout. -/
def reeveImage (s : State) (x : FlashRd) : State :=
  let s := { s with rev := { s.rev with hbAt := s.now } }
  match x with
  | .error => rejectReeve s 7
  | .ok b =>
    let c := checkImage s tyReeve b (payloadOf b)
    if c ≠ 0 then rejectReeve s c
    else
      let slot := (s.trust.firstR + s.trust.triedR) % 2
      let s := (s.wr R.DBG_BOOT.STAGE [] stReeve).wr R.DBG_BOOT.SLOT_R [] slot
      putTrust s { s.trust with imgR := some (imgOf b) }

/-- R614: the accepted Filbert image starts: RESET_PC, and hart 0 of the lowest core that is not retired. -/
def startFilbert (s : State) (b : Bytes) : State :=
  let entry := leAt b 24 8
  let slot := (s.trust.firstF + s.trust.triedF) % 2
  let s := (s.wr R.FIL_RESET_PC_LO.PC_LO [] entry).wr R.FIL_RESET_PC_HI.PC_HI [] (entry / 2 ^ 32)
  let s := (s.wr R.DBG_BOOT.STAGE [] stFilbert).wr R.DBG_BOOT.SLOT_F [] slot
  let s := putTrust s { s.trust with imgF := some (imgOf b) }
  match (List.range 64).find? (fun c => !s.flag R.FIL_CORE_STATUS.RETIRED [c]) with
  | some c => releaseHart s (8 * c)
  | none => s

/-- R613, R614: the Reeve firmware has read a Filbert slot. The payload goes to HBM once the header is accepted, and the
digest is taken over that copy. -/
def filbertImage (s : State) (x : FlashRd) : State :=
  match x with
  | .error => rejectFilbert s 7
  | .ok b =>
    let c := checkHeader s tyFilbert b
    if c ≠ 0 then rejectFilbert s c
    else
      match region (loadAddr b) (payloadLen b) with
      | .hbm a =>
        let s := s.hbmWrite a (payloadOf b)
        if sha384 (s.hbmRead a (payloadLen b)) ≠ slice b 48 48 then rejectFilbert s 6 else startFilbert s b
      | _ => rejectFilbert s 1

/-! ## Fuses -/

/-- R619, R620: what a started image blows: the floor of its TYPE up to its SVN, and the revocation bits below its KEY_ID,
those of the running images excepted. -/
def blowFuses (s : State) (ty : Nat) (m : Img) : State :=
  let s := if m.advance && decide (svnFloor s ty < m.svn) then
      (if ty = tyReeve then s.wr R.DBG_SVN.FLOOR_R [] m.svn else s.wr R.DBG_SVN.FLOOR_F [] m.svn) else s
  if m.revoke then
    let keep := [s.trust.imgR, s.trust.imgF].filterMap (fun i => i.map Img.keyId)
    (List.range m.keyId).foldl (fun s k =>
      if keep.contains k then s
      else s.wr R.DBG_SVN.REVOKED [] (setBit (s.rd R.DBG_SVN.REVOKED []) k true)) s
  else s

/-! ## Evidence -/

def le4 (s : State) (f : Fld) (n : Nat) : Bytes := (List.range n).flatMap (fun k => leBytes 4 (s.rd f [k]))

/-- R624: the value and its DMTF type of measurement block `n`. -/
def measValue (s : State) (n : Nat) : Nat × Bytes :=
  match n with
  | 1 => (0x00, (List.range 48).map Config.romDigest)
  | 2 => (0x01, match s.trust.imgR with | some i => i.digest | none => List.replicate 48 0)
  | 3 => (0x01, match s.trust.imgF with | some i => i.digest | none => List.replicate 48 0)
  | 4 => (0x07, [byteOf (match s.trust.imgR with | some i => i.svn | none => 0),
                 byteOf (match s.trust.imgF with | some i => i.svn | none => 0),
                 byteOf (s.rd R.DBG_SVN.FLOOR_R []), byteOf (s.rd R.DBG_SVN.FLOOR_F [])])
  | 5 => (0x02, leBytes 4 (s.rd R.DBG_SVN.REVOKED [] + 2 ^ 4 * s.rd R.DBG_RMA.RMA_ALLOW []
                  + 2 ^ 8 * (s.rd R.GLB_REV.MINOR [] + 16 * s.rd R.GLB_REV.STEP []) + 2 ^ 16 * s.rd R.GLB_REV.GRADE []))
  | _ => (0x05, leBytes 4 (b2n s.trust.anyUnlock + 2 * s.trust.scopes + 16 * s.trust.auths))

/-- An ECDSA signature of DevID-E; the per-message secret is a free value in the range of the standard. -/
def devidSign (s : State) (msg : Bytes) : Bytes × State :=
  let (k, s) := s.freeBits 384
  (ecdsaSign Config.devidKey (1 + k % (p384n - 1)) msg, s)

/-- R629: the next HSS index, with LIMIT moved up first where the index is not below it; none at 2^30 (R630). -/
def takeIndex (s : State) : Option (Nat × State) :=
  let q := s.rd R.DBG_LMS.NEXT []
  if q ≥ 2 ^ 30 then none
  else
    let s := if q < s.trust.limit then s else putTrust s { s.trust with limit := q + 64 }
    some (q, s.wr R.DBG_LMS.NEXT [] (q + 1))

/-- R627: block `n` of a bundle. -/
def evidenceBlock (s : State) (n : Nat) : Bytes :=
  let (t, v) := measValue s n
  [byteOf n, byteOf t] ++ leBytes 2 v.length ++ List.replicate 12 0 ++ slice v 0 48

/-- The length of a DevID-H signature (R621). -/
def hssLen : Nat := 3292

/-- R626, R627: the answer to GET_EVIDENCE: a status byte, and the bundle. -/
def evidence (s : State) (nonce : Bytes) (mask : Nat) : Bytes × State :=
  match takeIndex s with
  | none => ([0x03], s)
  | some (q, s) =>
    let ns := [1, 2, 3, 4, 5, 6].filter (fun n => bit mask n)
    let body := [0x01, byteOf ns.length, 0, 0] ++ leBytes 4 (64 + 64 * ns.length + 100 + hssLen)
      ++ leBytes 8 (Config.serial % 2 ^ 64) ++ slice nonce 0 32 ++ leBytes 4 s.trust.boots ++ leBytes 4 q
      ++ List.replicate 8 0 ++ ns.flatMap (evidenceBlock s)
    let (sig, s) := devidSign s body
    (0x00 :: body ++ sig ++ leBytes 4 hssLen ++ (List.range hssLen).map (Config.devidHss q body), s)

/-- R622, R626: the answer to GET_HSS_CHAIN: the total length, and up to 1,024 bytes of the HSS certificates. -/
def hssChain (off : Nat) : Bytes :=
  let c := Config.cert 5 ++ Config.cert 6 ++ Config.cert 7
  0x00 :: leBytes 4 c.length ++ (c.drop off).take 1024

/-! ## The debug unlock -/

def statusVerifying : Nat := 7
def unlockStatus (s : State) : Nat := s.rd R.DBG_UNLOCK_CTL.STATUS []
def setUnlock (s : State) (n : Nat) : State := s.wr R.DBG_UNLOCK_CTL.STATUS [] n

/-- The challenge as DBG_UNLOCK_CHAL shows it, set word by word. -/
def setChal (s : State) (b : Bytes) : State :=
  (List.range 12).foldl (fun s k => s.wr R.DBG_UNLOCK_CHAL.CHAL [k] (leAt b (4 * k) 4)) s

/-- R634, R636: NEW_CHAL draws a challenge. -/
def newChal (s : State) : State :=
  if unlockStatus s = statusVerifying then s
  else
    let (b, s) := s.freeBytes 48
    setChal s b

/-- R634, R636: VERIFY consumes the challenge and starts the verification; without Reeve firmware STATUS reads 6. -/
def startVerify (s : State) : State :=
  if unlockStatus s = statusVerifying then s
  else
    let u : Unlock := { token := le4 s R.DBG_TOKEN.TOKEN 1024, chal := le4 s R.DBG_UNLOCK_CHAL.CHAL 12 }
    let s := setChal s []
    if reeveRuns s then putTrust (setUnlock s statusVerifying) { s.trust with verifying := some u } else setUnlock s 6

/-- R635: RELOCK ends what an unlock granted. -/
def relock (s : State) : State :=
  let s := (s.wr R.DBG_UNLOCK_CTL.SCOPE [] 0).wr R.DBG_UNLOCK_CTL.AUTH [] 0
  if unlockStatus s = 1 then setUnlock s 0 else s

/-- A write of DBG_UNLOCK_CTL. -/
def unlockWrite (s : State) (v : Nat) : State :=
  let s := if bit v 0 then newChal s else s
  let s := if bit v 1 then startVerify s else s
  if bit v 2 then relock s else s

/-- R633: whether the format of a token is valid. -/
def tokenOk (t : Bytes) : Bool :=
  let n := leAt t 160 4
  byteAt t 0 == 1 && (byteAt t 1 == 1 || byteAt t 1 == 2) && decide (byteAt t 2 < 8) && zeroAt t 3 5
    && (n == 52 || n == 60) && zeroAt t (164 + n) (64 - n) && decide (328 + leAt t 228 4 ≤ 4096)

/-- R634: whether the token's keys may unlock: a fused pair that stands while RMA_ALLOW is 1, or the owner's keys. -/
def authorityOk (s : State) (t : Bytes) : Bool :=
  let pub := slice t 64 96
  let hss := slice t 164 (leAt t 160 4)
  if byteAt t 1 = 1 then
    s.flag R.DBG_RMA.RMA_ALLOW [] && [0, 1, 2, 3].any (fun k => !revoked s k && rootEcdsa k == pub && rootHss k == hss)
  else
    let h := le4 s R.DBG_OWNER_DEBUG.HASH 12
    !h.all (· == 0) && sha384 (pub ++ hss) == h

/-- R634: STATUS of a token: 5 malformed, 3 serial or challenge, 4 authority, 2 signature, 1 accepted. A consumed challenge
matches nothing. -/
def verifyToken (s : State) (u : Unlock) : Nat :=
  let t := u.token
  let msg := t.take 232
  if !tokenOk t then 5
  else if leAt t 8 8 ≠ Config.serial % 2 ^ 64 || u.chal.all (· == 0) || slice t 16 48 ≠ u.chal then 3
  else if !authorityOk s t then 4
  else if !(ecdsaVerify (slice t 64 96) msg (slice t 232 96)
      && hssVerify (slice t 164 (leAt t 160 4)) msg (slice t 328 (leAt t 228 4))) then 2
  else 1

/-- R634, R635, R624: the verification ends. A second unlock adds its scope to what the first one granted. -/
def endVerify (s : State) : State :=
  match s.trust.verifying with
  | none => s
  | some u =>
    let st := verifyToken s u
    let s := setUnlock (putTrust s { s.trust with verifying := none }) st
    if st ≠ 1 then s
    else
      let sc := byteAt u.token 2
      let au := byteAt u.token 1
      let s := (s.wr R.DBG_UNLOCK_CTL.SCOPE [] (s.rd R.DBG_UNLOCK_CTL.SCOPE [] ||| sc)).wr R.DBG_UNLOCK_CTL.AUTH [] au
      putTrust s { s.trust with anyUnlock := true, scopes := s.trust.scopes ||| sc, auths := s.trust.auths ||| au }

/-! ## Firmware update -/

/-- The slot of a TYPE that is not preferred (R613). -/
def otherSlot (s : State) (ty : Nat) : Nat := 1 - (if ty = tyReeve then s.trust.prefR else s.trust.prefF)

/-- R626: FW_WRITE: OFFSET 0 first erases the slot. What is reserved or would leave the slot is refused. -/
def fwWrite (s : State) (ty off : Nat) (d : Bytes) : Bytes × State :=
  if (ty ≠ tyReeve && ty ≠ tyFilbert) || d.length > 1024 || off + d.length > slotSize ty then ([0x03], s)
  else
    let base := slotBase ty (otherSlot s ty)
    let s := if off = 0 then s.emit (.flashErase base (slotSize ty)) else s
    ([0x00], s.emit (.flashWrite (base + off) d))

/-- R626: FW_ACTIVATE: the slot that is not preferred is checked and becomes preferred. -/
def fwActivate (s : State) (ty : Nat) (x : FlashRd) : Bytes × State :=
  if ty ≠ tyReeve && ty ≠ tyFilbert then ([0x03], s)
  else
    let c := match x with
      | .error => 7
      | .ok b => checkImage s ty b (payloadOf b)
    if c ≠ 0 then ([0x03, byteOf c], setFail s c)
    else if ty = tyReeve then ([0x00], putTrust s { s.trust with prefR := otherSlot s ty })
    else ([0x00], putTrust s { s.trust with prefF := otherSlot s ty })

end Sys2Proof.Machine
end

