-- ==== Sys2Proof/Machine/Win.lean ====
section
/-! DEFINITION. The meanings of Winnower's packet-path commands and of the table enables (R39, R40, R72, R109, R130, R134,
R139, R148, R153).
Log entries 35. -/

namespace Sys2Proof.Machine

open Sys2Proof

/-- FRAME_RECEIVE (R66, R68, R72): a frame or an 802.3br element arrives on port `p`. -/
def execFrameReceive (p : Fin 128) (w : Wire) (s : State) : Ans := fromWire s p.val (match w with | .frame _ _ => true | .fragment _ k _ => k.isNone | .badFragment => true | .verify => false | .respond => false) fun s =>
  .next (wireIn s p.val w)

/-- R130: the HBM address of one of the four lines that a packet's lookup reads: two of bucket h1, two of bucket h2. -/
def bucketLine (s : State) (w : Wait) (i : Nat) : Nat :=
  match stageLookup s w with
  | none => 0
  | some (t, k) =>
    let h := buckets s t (padKey s t (buildKey s k w.pkt w.walk))
    hbmSlot s (4 * (s.rd R.WIN_TBL_BASE.BASE [t] + (if i < 2 then h.1 else h.2)) + 2 * (i % 2)) 0

/-- R109, R130: the bucket read of the lookup at the head of a pipeline's wait buffer returns; the packets behind it go
on, and wire frames that waited enter. An uncorrectable error is reported to the Reeve. -/
def hbmLookupDone (s : State) (p : Nat) (err : Option Nat) : State :=
  match SMap.get [] s.win.wait p with
  | [] => s
  | w :: r =>
    let s := match err with
      | some i => hbmFail s (bucketLine s w i)
      | none => s
    let (s, o) := advance s w true err.isSome 5
    let s := match o with
      | some w => setWait s p (w :: r)
      | none => drainWait s p r
    drainRx s p (SMap.get [] s.win.rxbuf p).length

/-- HBM_LOOKUP_COMPLETE (R130): `err` names the line of the two buckets that met an uncorrectable error. -/
def execHbmLookupComplete (p : Fin 16) (err : Option (Fin 4)) (s : State) : Ans := whenUp s fun s =>
  .next (hbmLookupDone s p.val (err.map (·.val)))

/-- INTERNAL_INPUT_FRAME (R39, R40). -/
def execInternalInputFrame (p : Fin 16) (s : State) : Ans := whenUp s fun s =>
  .next (internalInput s p.val)

/-- The ESP payload of a decrypted text, without its padding and trailer (RFC 4303), and the next header. -/
def espTrailer (t : Bytes) : Bytes × Nat :=
  (t.take (t.length - 2 - byteAt t (t.length - 2)), byteAt t (t.length - 1))

/-- R148: the inner packet of a decrypted one. -/
def espInner (s : State) (e : Esp) (t : Bytes) : Pkt :=
  let (body, nh) := espTrailer t
  let spi := slice e.pkt.data e.off 4
  let data :=
    if e.tunnel then body
    else
      match e.ip with
      | none => e.pkt.data.take e.off ++ body
      | some c => overlay (e.pkt.data.take c.stop) (c.start + (if c.l3 = 1 then 9 else 6)) [byteOf nh] ++ body
  { e.pkt with
    data := data, hash := Config.flowHash (5 :: spi) % 2 ^ 32, port := none, pass2 := true, fault := none,
    node := if e.tunnel then some (s.rd R.WIN_PROF_W2.ESP_INNER_NODE [e.pkt.profile]) else none,
    espSeq := beAt e.pkt.data (e.off + 4) 4 }

/-- R148: the oldest packet that Husk has decrypted re-enters, or is dropped. -/
def espReenter (s : State) : State :=
  match s.win.espDone with
  | [] => s
  | (e, st, t) :: r =>
    let s := putWin s { s.win with espDone := r }
    if st = stAuthFail then winCount s 5 else if st ≠ 0 then s else toInternal s (espInner s e t)

/-- ESP_INNER_REENTRY (R148). -/
def execEspInnerReentry (s : State) : Ans := whenUp s fun s =>
  .next (espReenter s)

/-- A byte as NOCASE compares it (R152). -/
def foldCase (nocase : Bool) (b : Nat) : Nat := if nocase && decide (65 ≤ b) && decide (b ≤ 90) then b + 32 else b

/-- R153: the lowest offset of `t` at which pattern image `p` matches. -/
def patMatch (p t : Bytes) : Option Nat :=
  let n := byteAt p 0
  let nc := bit (byteAt p 1) 0
  let hi := leAt p 4 2
  if n = 0 || n > 32 || t.length < n then none
  else
    (List.range (t.length - n + 1)).find? (fun o =>
      decide (leAt p 2 2 ≤ o) && (decide (o ≤ hi) || hi == 0xFFFF)
        && (List.range n).all (fun i => foldCase nc (byteAt t (o + i)) == foldCase nc (byteAt p (32 + i))))

/-- R153: of matches (pattern, offset) in rising pattern order, the one with the lowest offset. -/
def firstMatch (l : List (Nat × Nat)) : Option Nat :=
  (l.foldl (fun (b : Option (Nat × Nat)) x => match b with
    | none => some x
    | some y => if x.2 < y.2 then some x else b) none).map (·.1)

/-- R153: a packet scanned under its pattern set. -/
def scanPacket (s : State) (j : Scan) : State :=
  let set := j.pats
  let t := slice j.pkt.data j.start (min j.stop j.pkt.data.length - j.start)
  let hits := set.filterMap (fun (e : Nat × Bytes) => (patMatch e.2 t).map (fun o => (e.1, o)))
  let s := putWin s { s.win with patCnt := hits.foldl (fun m h => SMap.set 0 m h.1 ((SMap.get 0 m h.1 + 1) % 2 ^ 64)) s.win.patCnt }
  match firstMatch (hits.filter (fun h => bit (byteAt (SMap.get [] set h.1) 1) 1)) with
  | none => s
  | some n =>
    let f : Fwd :=
      { pkt := { j.pkt with data := j.pkt.data.take (64 * 2 ^ s.rd R.WIN_SCAN_CFG.REPORT_LEN []), fault := none },
        slots := [], decl := none, actData := 0, exc := j.exc, tc := j.pkt.tc % 8, edit := 0 }
    match toFilbert s f { fid := 0, chan := s.rd R.WIN_SCAN_CFG.CHAN [], kind := 6, exc := j.exc, res := j.res,
                          tc := j.pkt.tc % 8, orig := j.pkt.data.length, pattern := n, hdr := [] } with
    | (s, some _) => winCount s 7
    | (s, none) => s

/-- R150, R153: the packet that engine `e` scans is done. -/
def scanDone (s : State) (e : Nat) : State :=
  if e = 0 then
    match s.win.scan0 with
    | [] => s
    | j :: r => scanPacket (putWin s { s.win with scan0 := r }) j
  else
    match s.win.scan1 with
    | [] => s
    | j :: r => scanPacket (putWin s { s.win with scan1 := r }) j

/-- PATTERN_SCAN_COMPLETE (R153). -/
def execPatternScanComplete (e : Fin 2) (s : State) : Ans := whenUp s fun s =>
  .next (scanDone s e.val)

/-- FRAG_ENTRY_EXPIRY (R139). -/
def execFragEntryExpiry (s : State) : Ans := whenUp s fun s =>
  .next (fragSweep s)

/-- R134: whether the buckets of tables `t` and `u` overlap in one store. -/
def tblOverlap (s : State) (t u : Nat) : Bool :=
  let b (x : Nat) : Nat := s.rd R.WIN_TBL_BASE.BASE [x]
  let n (x : Nat) : Nat := 2 ^ s.rd R.WIN_TBL.LOG2_BUCKETS [x]
  s.flag R.WIN_TBL.HOME [t] == s.flag R.WIN_TBL.HOME [u] && decide (b t < b u + n u) && decide (b u < b t + n t)

/-- R126, R134: whether a table's placement passes the checks. -/
def tblPlaced (s : State) (t : Nat) : Bool :=
  let lg := s.rd R.WIN_TBL.LOG2_BUCKETS [t]
  let top := s.rd R.WIN_TBL_BASE.BASE [t] + 2 ^ lg
  let size := s.rd R.WIN_GLB_HBM.SIZE []
  2 ≤ lg && lg ≤ 26 && s.rd R.WIN_TBL.WIDTH [t] ≠ 3
    && (if s.flag R.WIN_TBL.HOME [t] then
          s.flag R.WIN_GLB_HBM.EN [] && decide (size ≤ 8) && decide (s.rd R.WIN_GLB_HBM.BASE [] + size ≤ 192)
            && decide (top ≤ size * 8388608)
        else decide (top ≤ 393216))
    && !((List.range 64).any (fun u => u ≠ t && s.flag R.WIN_TBL.EN [u] && tblOverlap s t u))

/-- R134: EN written 1. -/
def tblEnable (s : State) (t : Nat) : State :=
  if s.flag R.WIN_TBL.EN [t] then s
  else if tblPlaced s t then (tblClear s t).wr R.WIN_TBL.EN [t] 1
  else (s.wr R.WIN_GLB_STATUS.CFG_ERR [] 1).wr R.WIN_GLB_STATUS.ERR_TBL [] t

/-- R134: EN written 0: the entries are gone. -/
def tblDisable (s : State) (t : Nat) : State :=
  if s.flag R.WIN_TBL.EN [t] then ((tblClear s t).wr R.WIN_TBL.EN [t] 0).wr R.WIN_TBL.READY [t] 0 else s

/-- TABLE_ENABLE (R134). -/
def execTableEnable (t : Fin 64) (s : State) : Ans := fromHost s fun s =>
  .next (tblEnable s t.val)

/-- TABLE_READY (R134). -/
def execTableReady (t : Fin 64) (s : State) : Ans := whenUp s fun s =>
  .next (if s.flag R.WIN_TBL.EN [t.val] then s.wr R.WIN_TBL.READY [t.val] 1 else s)

/-- TABLE_DISABLE (R134). -/
def execTableDisable (t : Fin 64) (s : State) : Ans := fromHost s fun s =>
  .next (tblDisable s t.val)

end Sys2Proof.Machine
end

