-- ==== Sys2Proof/Machine/RegWrite.lean ====
section
/-! DEFINITION. Writes of the control window (R14, R15, R661 to R672): plain fields by their access types, and the fields whose
write sets something off in their block.
Log entries 7, 22, 25, 105, 108, 115, 139, 157. -/

namespace Sys2Proof.Machine

open Sys2Proof

/-! ## What the writes of single fields set off -/

/-- R103: a write of PLL_SRC; 2 and 3 are treated as 0 and flagged. That 0 reads back is a DESIGN CHOICE: log entry 157. -/
def pllWrite (s : State) (o v : Nat) : State :=
  steerShow (pllShow
    (if v ≥ 2 then (s.wr R.ETH_OCT_CFG.PLL_SRC [o] 0).wr R.ETH_OCT_STATUS.CFG_ERR [o] 1 else s.wr R.ETH_OCT_CFG.PLL_SRC [o] v) o)

/-- R99, R108: a link starts with HELLO where its octet is up, or is taken out of use. -/
def linkStart (s : State) (j : Nat) : State := if linkRuns s j && linkState s j ≠ lkDup then linkHello s j else s
def linkStop (s : State) (j : Nat) : State := ((putLink s j Link.reset).wr R.STK_LINK.STATE [j] 0).wr R.STK_LINK.X4 [j] 0

/-- R108: a write of STK_CFG.EN. -/
def stkEnable (s : State) (en : Bool) : State :=
  let was := s.flag R.STK_CFG.EN []
  let s := stkShow (s.wr R.STK_CFG.EN [] (b2n en))
  if en == was then s
  else if en then (List.range 4).foldl (fun s j => if s.flag R.STK_LINK.EN [j] then linkStart s j else s) s
  else (List.range 4).foldl linkStop s

/-- R108: a write of EN and OCTET of STK_LINK[j]. A link that moves to another octet starts anew. -/
def linkWrite (s : State) (j : Nat) (en : Bool) (oct : Nat) : State :=
  let moved := linkOctet s j ≠ oct
  let was := s.flag R.STK_LINK.EN [j] && !moved
  let s := if moved then linkStop s j else s
  let s := (s.wr R.STK_LINK.OCTET [j] oct).wr R.STK_LINK.EN [j] (b2n en)
  if en == was then s else if en then linkStart s j else linkStop s j

/-- R225: a write of MAX_EN of an egress point: from 0 to 1 the shaper starts full. -/
def epMaxEn (s : State) (e v : Nat) : State :=
  let was := s.flag R.TLY_EP_W0.MAX_EN [e]
  let s := s.wr R.TLY_EP_W0.MAX_EN [e] v
  if v = 1 && !was then setMaxTok s e ((s.rd R.TLY_EP_W1.MAX_BURST [e] * 512 : Nat) : Int) else s

/-- R525: a write of POOL_EN: the pool starts with every buffer free, and must lie inside its stack. -/
def poolEnable (s : State) (en : Bool) : State :=
  let n := s.rd R.FIL_FPOOL_CNT.COUNT []
  if en == s.flag R.FIL_CFG.POOL_EN [] then s
  else if !en then
    ({ s with fil := { s.fil with bufUsed := [] } }.wr R.FIL_CFG.POOL_EN [] 0).wr R.FIL_FPOOL_FREE.FREE [] 0
  else if s.rd R.FIL_FPOOL.BASE [] * 2 ^ 20 + n * 16384 > 48 * 2 ^ 30 then
    (s.wr R.FIL_STATUS.CFG_ERR [] 1).wr R.FIL_STATUS.ERR_CODE [] 5
  else ({ s with fil := { s.fil with bufUsed := [] } }.wr R.FIL_CFG.POOL_EN [] 1).wr R.FIL_FPOOL_FREE.FREE [] n

/-- R521: a write of RUN: harts whose bit becomes 1 leave reset; those whose bit becomes 0 are reset and held. -/
def runBits (s : State) (c v : Nat) : State :=
  let old := s.rd R.FIL_CORE_CTL.RUN [c]
  let s := s.wr R.FIL_CORE_CTL.RUN [c] v
  (List.range 8).foldl (fun s t =>
    if bit v t && !bit old t then releaseHart s (8 * c + t)
    else if !bit v t && bit old t then hartReset s (8 * c + t)
    else s) s

/-- R558: a write of TRIM_CORES: in TRIMMED the cores follow at once. -/
def trimCores (s : State) (v : Nat) : State :=
  let s := s.wr R.FIL_CFG.TRIM_CORES [] v
  if pwrSt s = psTrimmed && !s.pwr.noImage && !s.pwr.clkGated then (List.range 64).foldl trimDomain s else s

/-- R530: a write of TU_CFG.EN: the counter starts from 0 or from the last value written through TU_SET. -/
def tuEnable (s : State) (en : Bool) : State :=
  let was := s.flag R.TU_CFG.EN []
  let s := s.wr R.TU_CFG.EN [] (b2n en)
  if en && !was then { s with tu := { s.tu with t := s.tu.start } } else s

/-- R549, R641: a write of TU_PPS.OUT_EN: PPS_OUT is driven, low until its next pulse, or high-impedance. -/
def ppsEnable (s : State) (en : Bool) : State :=
  let was := s.flag R.TU_PPS.OUT_EN []
  let s := s.wr R.TU_PPS.OUT_EN [] (b2n en)
  if en == was then s
  else if en then s.emit (.pin .ppsOut false)
  else ({ s with tu := { s.tu with ppsOff := none } }).emit (.pinZ .ppsOut)

/-- R52, R550, R555: a write of TU_SERVO.SRC: 3 is reserved, a stack master cannot follow itself, and a member follows no other
source. -/
def servoSrc (s : State) (v : Nat) : State :=
  if v = 3 || (v = 2 && isMaster s) || (v ≠ 2 && isMember s) then s.wr R.TU_STATUS.CFG_ERR [] 1 else s.wr R.TU_SERVO.SRC [] v

/-- R551: a write of TU_SYNCE.BW; 3 is reserved. -/
def synceBw (s : State) (v : Nat) : State := if v = 3 then s.wr R.TU_STATUS.CFG_ERR [] 1 else s.wr R.TU_SYNCE.BW [] v

/-- R591: a threshold that may only be tightened: a write that loosens it past its fused value is ignored and counted. -/
def tighten (s : State) (f : Fld) (ix : List Nat) (v : Nat) (loose : Bool) : State :=
  if loose then s.inc R.REV_CNT.COUNT [6] else s.wr f ix v

/-- R604: NEW is acknowledged. -/
def ackCause (s : State) (v : Nat) : State :=
  if v = 1 && s.flag R.REV_CAUSE.NEW [] then
    { s with rev := { s.rev with ackSeq := (newestRecord s).map (fun b => leAt b 4 4) } }.wr R.REV_CAUSE.NEW [] 0
  else s

/-- R672: every block's LOCK set. -/
def lockAll (s : State) : State :=
  lockFields.foldl (fun s (e : Fld × List (List Nat)) => e.2.foldl (fun s ix => s.wr e.1 ix 1) s) s

/-! ## Fields that a state of their block keeps from changing -/

/-- Whether a field takes a write now (R130, R163, R173, R525, R637). -/
def fieldTakes (s : State) (m : MDom) (f : Fld) (ix : List Nat) : Bool :=
  if f.blk = .win && decide (0x06104000 ≤ f.base) && decide (f.base ≤ 0x0610400C) && f ≠ R.WIN_TBL.EN then !s.flag R.WIN_TBL.EN [ix.headD 0]
  else if f = R.WIN_GLB_HBM.EN || f = R.WIN_GLB_HBM.BASE || f = R.WIN_GLB_HBM.SIZE then
    !(List.range 64).any (fun t => s.flag R.WIN_TBL.EN [t] && s.flag R.WIN_TBL.HOME [t])
  else if f = R.GRN_POOL.RESERVE || f = R.GRN_POOL_HR.HEADROOM || f = R.GRN_PARK_CFG.EN || f = R.GRN_DEEP_CFG.EN
      || f = R.GRN_DEEP_CFG.SIZE || f = R.GRN_DEEP_CFG.BASE then !s.flag R.GRN_CFG.EN []
  else if f = R.FIL_FPOOL.BASE || f = R.FIL_FPOOL.STACK || f = R.FIL_FPOOL_CNT.COUNT then !s.flag R.FIL_CFG.POOL_EN []
  else if f = R.DBG_RMA.RMA_ALLOW || f = R.DBG_OWNER_SPDM.HASH || f = R.DBG_OWNER_DEBUG.HASH then m ≠ .debug
  else true

/-! ## A write by its fields -/

/-- What a write of `v` to a field sets off, where it does more than its access type says; `w` is the word written. -/
def fieldAct (f : Fld) : Option (State → MDom → List Nat → Nat → Nat → State) :=
  if f = R.ETH_OCT_CFG.APPLY then some fun s _ ix v _ => if v = 1 then ethApply s (ix.headD 0) else s
  else if f = R.ETH_OCT_CFG.PLL_SRC then some fun s _ ix v _ => pllWrite s (ix.headD 0) v
  else if f = R.ETH_RCLK.EN then some fun s _ ix v _ => rclkShow (rclkResolve (s.wr R.ETH_RCLK.EN ix v))
  else if f = R.STK_CFG.EN then some fun s _ _ v _ => stkEnable s (v = 1)
  else if f = R.STK_LINK.EN then some fun s _ ix v w => linkWrite s (ix.headD 0) (v = 1) (wordBits R.STK_LINK.OCTET w)
  else if f = R.STK_LINK.OCTET then some fun s _ _ _ _ => s
  else if f = R.WIN_FRAG_CFG.FRAG_LIFE then some fun s _ _ v _ => fragLifeWrite s v
  else if f = R.WIN_TBL.EN then some fun s _ ix v _ => if v = 1 then tblEnable s (ix.headD 0) else tblDisable s (ix.headD 0)
  else if f = R.GRN_CFG.EN then some fun s _ _ v _ => grnEnable s (v = 1)
  else if f = R.GRN_POOL.RESERVE || f = R.GRN_POOL_HR.HEADROOM || f = R.GRN_PARK_CFG.EN then some fun s _ ix v _ => grnShow (s.wr f ix v)
  else if f = R.GRN_QPROF_W0.MIN then some fun s _ ix v _ => qprofMin s (ix.headD 0) v
  else if f = R.GRN_IN_CFG_W0.LOSSLESS_PRI then some fun s _ ix v w => inCfgWrite s (ix.headD 0) v (wordBits R.GRN_IN_CFG_W0.PFC_PROF w)
  else if f = R.GRN_IN_CFG_W0.PFC_PROF then some fun s _ _ _ _ => s
  else if f = R.GRN_PFC_PROF_W2.HEADROOM then some fun s _ ix v _ => headroomKeep s (s.wr f ix v)
  else if f = R.TLY_EP_W0.MAX_EN then some fun s _ ix v _ => epMaxEn s (ix.headD 0) v
  else if f = R.TLY_GATE.EN then some fun s _ ix v _ =>
    if v = 1 then s.wr f ix 1 else if s.flag f ix then gateDisable s (ix.headD 0) else s
  else if f = R.TLY_GATE.CHANGE then some fun s _ ix v _ => if v = 1 then gateChange s (ix.headD 0) else s
  else if f = R.CAR_CFG.EN then some fun s _ _ v _ => carEnable s (v = 1)
  else if f = R.LCK_DOM_W1.COUNT then some fun s _ ix v _ => rangeWrite s (ix.headD 0) (s.rd R.LCK_DOM_W0.BASE ix) v
  else if f = R.STG_CFG.EN then some fun s _ _ v _ => stgEnable s (v = 1)
  else if f = R.STG_RP_CTL.EN then some fun s _ ix v _ => rpEnable s (ix.headD 0) (v = 1)
  else if f = R.STG_RP_CTL.REMOVE then some fun s _ ix v _ => if v = 1 then rpQuiesce s (ix.headD 0) else s
  else if f = R.FIL_CFG.POOL_EN then some fun s _ _ v _ => poolEnable s (v = 1)
  else if f = R.FIL_CFG.TRIM_CORES then some fun s _ _ v _ => trimCores s v
  else if f = R.FIL_CORE_CTL.RUN then some fun s _ ix v _ => runBits s (ix.headD 0) v
  else if f = R.FIL_CORE_CTL.APPLY then some fun s _ ix v _ => if v = 1 then issueApply s (ix.headD 0) else s
  else if f = R.FIL_HART_CTL.RESET then some fun s _ ix v _ => if v = 1 then hartReset s (ix.headD 0) else s
  else if f = R.FIL_HART_IRQ_CLR.IRQ_CLR then some fun s _ ix v _ =>
    let p := s.rd R.FIL_HART_IRQ.IRQ_PEND ix
    s.wr R.FIL_HART_IRQ.IRQ_PEND ix (p - (p &&& v))
  else if f = R.FIL_CH_W0.EN then some fun s _ ix v _ => if v = 1 then chanEnable s (ix.headD 0) else s.wr f ix 0
  else if f = R.TU_CFG.EN then some fun s _ _ v _ => tuEnable s (v = 1)
  else if f = R.TU_SNAP.CAPTURE then some fun s _ _ v _ => if v = 1 then timeCapture s else s
  else if f = R.TU_SET_CTL.APPLY then some fun s _ _ v w => if v = 1 then timeSet s (bit w 1) (bit w 2) else s
  else if f = R.TU_SERVO.MODE then some fun s _ _ v _ => servoMode s v
  else if f = R.TU_SERVO.SRC then some fun s _ _ v _ => servoSrc s v
  else if f = R.TU_SMP_CTL.COMMIT then some fun s _ _ v w => if v = 1 then sampleCommit s (bit w 1) else s
  else if f = R.TU_SYNCE.EN then some fun s _ _ v _ => synceEnable s (v = 1)
  else if f = R.TU_PPS.OUT_EN then some fun s _ _ v _ => ppsEnable s (v = 1)
  else if f = R.TU_SYNCE.BW then some fun s _ _ v _ => synceBw s v
  else if f = R.PWR_CTL.GO then some fun s _ _ v w => if v = 1 then pwrGo s (w % 4) else s
  else if f = R.PWR_TRIM.TRIM then some fun s _ ix v _ =>
    trimFollow (s.wr f ix (if ix.headD 0 = 4 then v % 2 ^ 28 else v)) (ix.headD 0)
  else if f = R.PWR_RST.WARM then some fun s m _ _ w => rstWrite s m w
  else if f = R.PWR_BLK_RST.GO then some fun s _ _ v w => if v = 1 then blkRst s (w % 16) (w / 16 % 64) else s
  else if f = R.REV_VTH_W0.UV_FAULT then some fun s _ ix v _ => tighten s f ix v (v < f.reset ix)
  else if f = R.REV_VTH_W1.OV_FAULT then some fun s _ ix v _ => tighten s f ix v (f.reset ix < v)
  else if f = R.REV_RET_CLR.GO then some fun s _ _ v w => if v = 1 then retClr s (w % 8) (w / 8 % 4096) (w / 65536 % 65536) else s
  else if f = R.REV_CAUSE.NEW then some fun s _ _ v _ => ackCause s v
  else if f = R.DBG_UNLOCK_CTL.NEW_CHAL then some fun s _ _ _ w => unlockWrite s w
  else if f = R.GLB_CFG.LOCK_ALL then some fun s _ _ v _ => if v = 1 then lockAll s else s
  else none

/-- The fields of a written word that `keep` names and that act when written, in turn. `lk` is the set of RWL fields that LOCK
kept from changing. -/
def actFields (s : State) (m : MDom) (l : List (Fld × List Nat × Nat)) (w : Nat) (lk : List Fld) (ok : List Fld) : State :=
  match l with
  | [] => s
  | (f, ix, _) :: r =>
    let s := match fieldAct f with
      | some g => if lk.contains f || !ok.contains f then s else g s m ix (wordBits f w) w
      | none => s
    actFields s m r w lk ok

/-- R14, R671, R672: a 4-byte word written to a register: plain fields, then what the write sets off, then LOCK. -/
def regWord (s : State) (m : MDom) (l : List (Fld × List Nat × Nat)) (a w : Nat) : State :=
  let locked := (l.filter (fun x => x.1.acc == .rwl && isLocked s x.1 x.2.1)).map (·.1)
  let ok := (l.filter (fun x => fieldTakes s m x.1 x.2.1)).map (·.1)
  let bad := l.any (fun x => locked.contains x.1 && s.rd x.1 x.2.1 ≠ wordBits x.1 w)
  let s := if bad then accessErr s m 4 a else s
  let plain (f : Fld) : Bool := (fieldAct f).isNone && !locked.contains f && ok.contains f
  let s := (writeFields s l w (fun f => plain f && f.acc ≠ .w1s)).1
  let s := actFields s m l w locked ok
  (writeFields s l w (fun f => plain f && f.acc == .w1s)).1

/-- What a block's registers show after a write of one of them. -/
def bankShow (s : State) (b : Blk) : State :=
  match b with
  | .tu => tuShow s
  | .stk => stkShow s
  | _ => s

/-- R660 to R672: the 4-byte word at window offset `a` written by a domain. -/
def wordWrite (s : State) (m : MDom) (a w : Nat) : State :=
  if bankOff s a then s
  else
    match rpWindow a, blkOf a with
    | some (n, dw), _ => rpCfgWrite s n dw w
    | none, some b =>
      match fieldsAt b a with
      | [] => s
      | l => bankShow (regWord s m l a w) b
    | none, none => accessErr s m 1 a

/-- The W1C fields of the word at window offset `a`. -/
def w1cFields (a : Nat) : List (Fld × List Nat) :=
  match blkOf a with
  | some b => ((fieldsAt b a).filter (fun x => x.1.acc == .w1c)).map (fun x => (x.1, x.2.1))
  | none => []

/-- R16: the W1C fields of the word at `a` that the write of a word before it sets, in one access, stand set in `u`. -/
def keepSets (s : State) (m : MDom) (a w : Nat) (u : State) : State :=
  let l := w1cFields (a + 4)
  if l.isEmpty then u
  else
    let t := wordWrite (l.foldl (fun s x => s.wr x.1 x.2 0) s) m a w
    l.foldl (fun u x => if t.rd x.1 x.2 ≠ 0 then u.wr x.1 x.2 (t.rd x.1 x.2) else u) u

/-- R16, R661, R662: words written in rising order within one CLK_CTL cycle: a bit that the writes set stands, though the same
access clears it. -/
def wordsWrite (s : State) (m : MDom) (a n w : Nat) : State :=
  match n with
  | 0 => s
  | n + 1 =>
    let t := wordWrite s m a (w % 2 ^ 32)
    if n = 0 then t else keepSets s m a (w % 2 ^ 32) (wordsWrite t m (a + 4) n (w / 2 ^ 32))

end Sys2Proof.Machine
end

