-- ==== Sys2Proof/Machine/HostOps.lean ====
section
/-! DEFINITION. What hosts do to the functions of their attach point: configuration reads and writes, the BARs, FLR and PORT
reset (R421 to R431, R434, R436, R444 to R446, R459, R465, R468, R469, R480). Layouts of configuration space that the manual
does not give are those of PCI Express 6.0 (PRESUMED).
Log entries 15, 79, 80, 81, 82, 87, 142. -/

namespace Sys2Proof.Machine

open Sys2Proof

/-! ## Function level reset and PORT reset -/

/-- R445 step 1: every outstanding tag of a function orphaned. -/
def orphanFn (s : State) (a f : Nat) : State :=
  let hit (t : Tag) : Tag := if t.ap = a && t.fn == f && t.st == .outstanding then { t with st := .orphaned } else t
  syncTags { s with hif := { s.hif with tags := s.hif.tags.map hit } } a

/-- R445 step 2: pending interrupts of a function and of its instances dropped. -/
def dropIntr (s : State) (a f : Nat) : State :=
  let e1 (e : IrqEnt) : IrqEnt := if e.ap = a && e.func == f then { e with pend := false } else e
  { s with hif := { s.hif with irq := SMap.mapVal e1 s.hif.irq } }

/-- R429, R445 step 3: the configuration fields of a function, its MSI-X table, cached translations and invalidations. Link
fields of PF0 and sticky fields stay. -/
def resetCfg (s : State) (a f : Nat) : State :=
  let mine (n k : Nat) : Bool := k / n == a * 8 + f
  let h := s.hif
  let s := { s with hif := { h with
    cfg := h.cfg.filter (fun e => !mine 1024 e.1 || cfgLink f (e.1 % 1024)),
    msix := h.msix.filter (fun e => !mine 2048 e.1),
    atc := h.atc.filter (fun e => !(e.ap == a && e.fn == f)),
    inval := h.inval.filter (fun e => !(e.ap == a && e.fn == f)),
    toPass := h.toPass.filter (fun e => e.1 ≠ a * 8 + f) } }
  let s := s.wr R.HIF_AP_ATC.ATC_USED [a] (s.hif.atc.filter (fun e => e.ap == a)).length
  { s with regs := { s.regs with f := clearRange s.regs.f (0x01002000 + a * 0x100 + f * 0x20) (0x01002020 + a * 0x100 + f * 0x20) } }

/-- R460, R480, R572: the owner PF0's mailbox slots and rings. A command that firmware executes runs on; its reply is
discarded. -/
def resetOwner (s : State) : State :=
  let s := (ringsWhere s (ringOwner s)).foldl destroyRing s
  { s with dom := { s.dom with slots := [], queue := [], running := s.dom.running.map (fun c => { c with slot := none }) } }

/-- R445: an FLR of a function that exists. -/
def flr (s : State) (a f : Nat) : State :=
  let s := dropIntr (dropUnissued (orphanFn s a f) a f) a f
  let l := fnInsts s a f
  let s := resetCfg s a f
  let s := l.foldl (fun s i => beginReset s i false) s
  let s := if f = 3 then ctlFlr s a else s
  if f = 0 && a == ownerAp s then resetOwner s else s

/-- R446: a PORT reset of a present attach point: every function as by FLR, link fields too; the link retrains; Granary flushes
the egress point. A change of PF_EN takes effect (R422). -/
def portReset (s : State) (a : Nat) : State :=
  let fs := (List.range 8).filter (fnPresent s a)
  let s := fs.foldl (fun s f => flr s a f) s
  let s := { s with hif := { s.hif with
    cfg := s.hif.cfg.filter (fun e => e.1 / 8192 ≠ a),
    stalled := s.hif.stalled.filter (fun e => e.ap ≠ a),
    credit := SMap.del s.hif.credit a, npCredit := SMap.del s.hif.npCredit a, cplCredit := SMap.del s.hif.cplCredit a,
    cplStalled := s.hif.cplStalled.filter (fun e => e.1 ≠ a),
    present := setBits s.hif.present (a * 8 + 4) 4 (s.rd R.HIF_AP_CFG.PF_EN [a]) } }
  let s := { s with regs := { s.regs with
    h := clearRange (clearRange s.regs.h (0x01001000 + a * 0x40) (0x01001040 + a * 0x40)) (0x01002000 + a * 0x100) (0x01002100 + a * 0x100) } }
  let s := (List.range 8).foldl (fun s f => if fnPresent s a f then s.wr R.HIF_FN_STATUS.REASON [a, f] 4 else s) s
  let s := syncTags (((s.wr R.HIF_AP_LINK.IN_RESET [a] 1).emit (.hostLink a false)).emit (.pin (.hostClkreqN a) false)) a
  let (s, frames, _) := flushEp s (128 + a)
  { s with grn := { s.grn with admin := SMap.set 0 s.grn.admin (128 + a) (SMap.get 0 s.grn.admin (128 + a) + frames) } }

/-! ## Configuration requests -/

/-- What a configuration doubleword reads: Transactions Pending and the link's speed and width follow their state. -/
def cfgRead (s : State) (a f dw : Nat) : Nat :=
  let v := cfgGet s a f dw
  if dw = 26 then setBit v 21 (s.hif.tags.any (fun t => t.ap == a && t.fn == f && t.st == .outstanding))
  else if dw = 28 then setBits (setBits v 16 4 (s.rd R.HIF_AP_LINK.SPEED [a])) 20 6 (s.rd R.HIF_AP_LINK.WIDTH [a])
  else if dw = 36 then setBit v 26 (s.flag R.HIF_AP_LINK.FLIT [a])
  else if dw = 92 then 512
  else v

/-- The bits of a doubleword that four byte enables cover. -/
def beMask (be : Nat) : Nat := (List.range 4).foldl (fun m i => if bit be i then m + 255 * 2 ^ (8 * i) else m) 0

/-- R429, R439, R444, R445, R447: a configuration write, and what it sets off. -/
def cfgWrite (s : State) (a f dw be v : Nat) : State :=
  let old := cfgGet s a f dw
  let rw := cfgRwMask s a f dw &&& beMask be
  let new := ((old &&& (0xFFFFFFFF - rw)) ||| (v &&& rw)) &&& (0xFFFFFFFF - (v &&& cfgW1cMask dw &&& beMask be))
  if dw = 1 then
    let s := if bit old 2 && !bit new 2 then busMasterOff s a f else s
    let was := quiesced s a f
    let s := cfgPut s a f 1 new
    if was && bit new 2 then unquiesce s a f else s
  else if dw = 17 then
    let p := if bit be 0 then v % 4 else old % 4
    if p = 3 && !inD3 s a f then d3Enter s a f
    else if p = 0 && inD3 s a f then d0Enter s a f
    else s
  else if dw = 20 then
    let s := cfgPut s a f 20 new
    if bit old 31 && !bit new 31 then holdMsgs s a f else s
  else if dw = 26 then
    let s := cfgPut s a f 26 new
    if bit be 1 && bit v 15 then flr s a f else s
  else if dw = 87 && bit old 31 ≠ bit new 31 then
    let s := { s with hif := { s.hif with atc := s.hif.atc.filter (fun e => !(e.ap == a && e.fn == f)) } }
    cfgPut (s.wr R.HIF_AP_ATC.ATC_USED [a] (s.hif.atc.filter (fun e => e.ap == a)).length) a f 87 new
  else if dw = 91 && bit be 0 && bit v 1 && !bit new 0 then cfgPut (s.wr R.HIF_FN_PRI.PRI_OUT [a, f] 0) a f 91 new
  else cfgPut s a f dw new

/-- R426, R436: a request answered with UR, logged in function `f`; a posted one is an advisory error. -/
def urSent (s : State) (a f : Nat) (posted : Bool) : State :=
  let s := logUncor (s.inc R.HIF_CNT.COUNT [a, 14]) a f aerUr posted
  if posted then s else sendCpl s a (.cpl a f 1 [])

/-! ## The BARs -/

/-- The base address in a BAR pair of a function. -/
def barBase (s : State) (a f p : Nat) : Nat :=
  cfgGet s a f (4 + 2 * p) / 16 * 16 + 2 ^ 32 * cfgGet s a f (5 + 2 * p)

/-- The BAR pairs of an attach point that hold `n` bytes at an address: function, pair, offset. -/
def barHits (s : State) (a addr n : Nat) : List (Nat × Nat × Nat) :=
  ((List.range 4).flatMap (fun f => (List.range 3).map (fun p => (f, p)))).filterMap (fun (x : Nat × Nat) =>
    let size := (barSize s a x.1 x.2).1
    let base := barBase s a x.1 x.2
    if size ≠ 0 && decide (base ≤ addr) && decide (addr + n ≤ base + size) then some (x.1, x.2, addr - base) else none)

/-- R426: the BAR that takes a request: of a function with Memory Space Enable, in D0 (PRESUMED: in D3hot a function answers
only configuration requests). On a failure, the function that logs it. -/
def barFind (s : State) (a addr n : Nat) : Except Nat (Nat × Nat × Nat) :=
  let l := barHits s a addr n
  match l.find? (fun x => memEn s a x.1 && !inD3 s a x.1), l with
  | some x, _ => .ok x
  | none, x :: _ => .error x.1
  | none, [] => .error 0

/-- The byte enables of dword `i` of `n`. -/
def beOf (i n : Nat) (first last : BitVec 4) : Nat := if i = 0 then first.toNat else if i + 1 = n then last.toNat else 15

/-- A dword with the enabled bytes of `v` in place. -/
def mergeBe (old be v : Nat) : Nat := (old &&& (0xFFFFFFFF - beMask be)) ||| (v &&& beMask be)

/-- R425: whether page or window `i` belongs to an instance bound to the function. -/
def boundTo (s : State) (a f i : Nat) : Bool :=
  instState s i ≠ 0 && s.rd R.DOM_INST_W0.AP [i] == a && s.rd R.DOM_INST_W0.CLASS [i] == f

/-- R459: a dword of the mailbox read. -/
def mbRead (s : State) (off : Nat) : Nat :=
  if off < 0x4000 then
    let x := slotMb s (off / 0x400)
    let o := off % 0x400
    if o < 0x100 then leAt x.cmd o 4
    else if o < 0x200 then leAt x.reply (o - 0x100) 4
    else if o = 0x200 then 2 * b2n x.busy + 4 * b2n x.done
    else 0
  else if off = 0x4000 then
    b2n (s.flag R.DOM_STATUS.FW_READY []) + 2 * (s.dom.queue.length + (if s.dom.running.isSome then 1 else 0))
  else 0

/-- R459: a dword of the mailbox written, its doorbell page apart. -/
def mbWrite (s : State) (off be v : Nat) : State :=
  if off < 0x4000 then
    let k := off / 0x400
    let o := off % 0x400
    let x := slotMb s k
    if o < 0x100 then
      if x.busy then s else slotMbPut s k { x with cmd := overlay (slice x.cmd 0 256) o (leBytes 4 (mergeBe (leAt x.cmd o 4) be v)) }
    else if o = 0x200 && bit be 0 then
      let s := if bit v 2 then slotMbPut s k { x with done := false } else s
      if bit v 0 then mbGo s k else s
    else s
  else s

/-- R424, R430: a dword of a function's MSI-X table or PBA read. -/
def msixRead (s : State) (a f off : Nat) : Nat :=
  if off < 0x8000 then
    let e := SMap.get Msix.reset s.hif.msix (msixIx a f (off / 16))
    match off % 16 / 4 with
    | 0 => e.addr % 2 ^ 32
    | 1 => e.addr / 2 ^ 32
    | 2 => e.data
    | _ => b2n e.mask
  else if off < 0x8100 then
    (List.range 32).foldl (fun n b =>
      if (SMap.get Msix.reset s.hif.msix (msixIx a f ((off - 0x8000) * 8 + b))).pend then n + 2 ^ b else n) 0
  else 0

/-- R424, R430: a dword of a function's MSI-X table written; the PBA is read-only. -/
def msixWrite (s : State) (a f off be v : Nat) : State :=
  if off ≥ 0x8000 then s
  else
    let i := msixIx a f (off / 16)
    let e := SMap.get Msix.reset s.hif.msix i
    let w := mergeBe (msixRead s a f off) be v
    match off % 16 / 4 with
    | 0 => msixPut s i { e with addr := setBits e.addr 0 32 (w / 4 * 4) }
    | 1 => msixPut s i { e with addr := setBits e.addr 32 32 w }
    | 2 => msixPut s i { e with data := w }
    | _ => msixPut s i { e with mask := bit w 0 }

/-- R469: one aligned 8-byte word of a doorbell page. -/
def pageWord (s : State) (page : Option Nat) (off w : Nat) : State :=
  if off = 0 then doDoorbell s page w
  else if off = 8 then doCqdb s page w
  else if off = 16 then doRingCtl s page w
  else wordIgnored s page

/-- R469: a write to a doorbell page, from offset `off`, in dwords with their byte enables: whole words in rising order, partial
ones ignored and counted. -/
def pageWords (s : State) (page : Option Nat) (off : Nat) (l : List (Nat × Nat)) : State :=
  match l with
  | [] => s
  | [_] => wordIgnored s page
  | (v, be) :: (w, be') :: r =>
    if off % 8 = 4 then pageWords (wordIgnored s page) page (off + 4) ((w, be') :: r)
    else
      let s := if be = 15 && be' = 15 then pageWord s page off (v + 2 ^ 32 * w) else wordIgnored s page
      pageWords s page (off + 8) r

/-- R660 to R663: the owner's dword of the control window. -/
def ownWindow (s : State) (off be v : Nat) : State :=
  if be = 15 then wordWrite s .owner off v else accessErr s .owner 2 off

/-- A dword written to a BAR of a function, its doorbell pages apart. -/
def barDword (s : State) (a f p off be v : Nat) : State :=
  if p = 2 then msixWrite s a f off be v
  else match f, p with
  | 0, 0 => ownWindow s off be v
  | 0, _ => mbWrite s off be v
  | 3, 0 => if be = 15 then nvWindowWrite s a off v else s
  | 3, _ => if be = 15 then nvWindowWrite s (8 + off / 0x4000) (off % 0x4000) v else s
  | _, _ => s

/-- Dwords written in rising order. -/
def barDwords (s : State) (a f p off : Nat) (l : List (Nat × Nat)) : State :=
  match l with
  | [] => s
  | (v, be) :: r => barDwords (barDword s a f p off be v) a f p (off + 4) r

/-- R425, R426, R469: a write to a BAR. -/
def barWrite (s : State) (a f p off : Nat) (l : List (Nat × Nat)) : State :=
  let foreign := s.inc R.HIF_CNT.COUNT [a, 13]
  if f = 0 && p = 1 && 0x8000 ≤ off && off < 0x9000 then pageWords s none (off - 0x8000) l
  else if (f = 1 || f = 2) && p = 0 then
    if boundTo s a f (off / 4096) then pageWords s (some (off / 4096)) (off % 4096) l else foreign
  else if f = 3 && p = 1 && !boundTo s a 3 (off / 0x4000) then foreign
  else barDwords s a f p off l

/-- One dword read from a BAR. -/
def barReadDword (s : State) (a f p off be : Nat) : Nat × State :=
  if p = 2 then (msixRead s a f off, s)
  else match f, p with
  | 0, 0 => if be = 15 then wordRead s .owner off else (0, accessErr s .owner 2 off)
  | 0, _ => (mbRead s off, s)
  | 3, 0 => (nvWindowRead s a off, s)
  | 3, _ => (if boundTo s a 3 (off / 0x4000) then nvWindowRead s (8 + off / 0x4000) (off % 0x4000) else 0, s)
  | _, _ => (0, s)

/-- R662: dwords read in rising order. -/
def barRead (s : State) (a f p off i n : Nat) (first last : BitVec 4) (fuel : Nat) : Bytes × State :=
  match fuel with
  | 0 => ([], s)
  | k + 1 =>
    let (v, s) := barReadDword s a f p off (beOf i n first last)
    let (r, s) := barRead s a f p (off + 4) (i + 1) n first last k
    (leBytes 4 v ++ r, s)

/-- R426, R434: an inbound memory request at attach point `a`; the address is that of its first dword. -/
def inbound (s : State) (a addr : Nat) (x : MemReq) : State :=
  match x with
  | .read n first last =>
    match barFind s a addr (4 * n.val) with
    | .error f => urSent s a f false
    | .ok (f, p, off) =>
      if n.val > 16 then urSent s a f false
      else
        let (d, s) := barRead s a f p off 0 n.val first last n.val
        sendCpl s a (.cpl a f 0 d)
  | .write data first last ep =>
    let n := ceilDiv data.length 4
    match barFind s a addr (4 * n) with
    | .error f => urSent s a f true
    | .ok (f, p, off) =>
      if ep then logUncor s a f aerPoisoned true
      else barWrite s a f p off ((List.range n).map (fun i => (leAt data (4 * i) 4, beOf i n first last)))
  | .atomic =>
    match barFind s a addr 8 with
    | .error f => urSent s a f false
    | .ok (f, _, _) => urSent s a f false

end Sys2Proof.Machine
end

