-- ==== Sys2Proof/Machine/HostPort.lean ====
section
/-! DEFINITION. The meanings of the requests and resets that hosts send to their attach point (R426, R429, R445, R446, R566).
Log entries 79. -/

namespace Sys2Proof.Machine

open Sys2Proof

/-- Whether requests can arrive at an attach point: it is present and not in PORT reset. -/
def apOpen (s : State) (a : Nat) : Bool := apPresent s a && !s.flag R.HIF_AP_LINK.IN_RESET [a]

/-- INBOUND_MEMORY_REQUEST (R426): `addr` counts dwords. -/
def execInboundMemoryRequest (a : Fin 8) (addr : BitVec 62) (x : MemReq) (s : State) : Ans :=
  if apOpen s a then fromHost s fun s => .next (inbound (linkActive s a.val) a.val (4 * addr.toNat) x) else .next s

/-- CONFIG_REQUEST (R422, R429): a read of a doubleword, or a write with byte enables. -/
def execConfigRequest (a f : Fin 8) (dw : Fin 1024) (x : Option (BitVec 4 × BitVec 32)) (s : State) : Ans :=
  if !apOpen s a then .next s
  else fromHost s fun s =>
    let s := linkActive s a.val
    if !fnPresent s a f then .next (urSent s a.val 0 false)
    else match x with
    | none => .next (sendCpl s a (.cpl a f 0 (leBytes 4 (cfgRead s a f dw))))
    | some (be, v) => .next (sendCpl (cfgWrite s a f dw be.toNat v.toNat) a (.cpl a f 0 []))

/-- FUNCTION_LEVEL_RESET (R445): a write of 1 to Initiate Function Level Reset. -/
def execFunctionLevelReset (a f : Fin 8) (s : State) : Ans :=
  if !apOpen s a then .next s
  else fromHost s fun s => .next (if fnPresent s a f then flr (linkActive s a.val) a.val f.val else linkActive s a.val)

/-- PORT_RESET (R446, R566): in STANDBY a cycle of HOST_PERST_N is a wake source, and leaving STANDBY resets every port. -/
def execPortReset (a : Fin 8) (c : PortCause) (s : State) : Ans :=
  if !apPresent s a then .next s
  else if pwrSt s = psStandby then .next (if c = .perst then wake s 6 else s)
  else fromHost s fun s => .next (portReset s a.val)

end Sys2Proof.Machine
end

