-- ==== Sys2Proof/Machine/HuskLock.lean ====
section
/-! DEFINITION. The meanings of the Husk and Locksmith commands (R340 to R377).
Log entries 68. -/

namespace Sys2Proof.Machine

open Sys2Proof

/-- JOB_DISPATCH (R345): requester, quadrant of the job channel, the cluster taken, and how long the job waited, in
units of 10 ns. -/
def execJobDispatch (r : Fin 7) (q : Fin 4) (c : Fin 32) (w : Nat) (s : State) : Ans := whenUp s fun s =>
  .next (dispatch s r.val q.val c.val w)

/-- BLOCK_COMPARE (R340): block `blk` of dispatched job `n` on a pair of its cluster. -/
def execBlockCompare (n blk : Nat) (pair : Fin 128) (x : BlockRes) (s : State) : Ans := whenUp s fun s =>
  .next (blockCompare s n blk pair.val x)

/-- HUSK_JOB_COMPLETE (R350): dispatched job `n` ends. -/
def execHuskJobComplete (n : Nat) (s : State) : Ans := whenUp s fun s =>
  .next (jobEnd s n)

/-- KEY_LOAD_COMPLETE (R373): cluster `c` has loaded the key of a slot. -/
def execKeyLoadComplete (c : Fin 32) (n : Fin 1048576) (s : State) : Ans := whenUp s fun s =>
  .next (keyLoaded s c.val n.val)

/-- R364: the completion of a key command. -/
def keyEnd (s : State) (r k : Nat) (d : Bytes) (status written : Nat) (chk : Bytes) : State :=
  let s := if status = stKeyFault then lckCount s 10
    else if status = stBlobAuth || status = stDomainMismatch then lckCount s 4 else s
  finishDesc s r k d status ([0, 0] ++ leBytes 4 written ++ chk)

/-- R364: whether key commands of a domain are served now. -/
def keyReady (s : State) (d : Nat) : Bool :=
  s.flag R.LCK_CFG.EN [] && s.flag R.LCK_STATUS.READY [] && !s.flag R.LCK_DOM_W1.BUSY [d]

/-- SLOT and WRAP_SLOT of a key descriptor (R363). -/
def descSlot (d : Bytes) : Nat := leAt d 8 4 % 2 ^ 20
def descWrap (d : Bytes) : Nat := leAt d 12 4 % 2 ^ 20

/-- R364: whether a WRAP slot may be used by a domain. -/
def wrapOk (s : State) (dom w : Nat) : Bool := inRange s dom w && (slotGet s w).st == 1 && (slotGet s w).ty == 7

/-- R371: the material in a blob, none where its ICV or its point fails. -/
def unwrap (s : State) (w : Nat) (b : Bytes) : Option Bytes :=
  let n := byteAt b 6
  if byteAt b 1 = 1 then
    let q := pointOf (slice b 32 96)
    if !onCurve q then none
    else
      match ecMul 384 Config.importKey (some q) with
      | none => none
      | some (x, _) =>
        let k := (sha384 ([0, 0, 0, 1] ++ beBytes 48 x ++ b.take 32)).take 32
        let r := gcmDec k (slice b 8 12) (b.take 128) (slice b 128 n) (slice b (128 + n) 16)
        if r.2 then some r.1 else none
  else
    let r := gcmDec (slotGet s w).mat (slice b 8 12) (b.take 32) (slice b 32 n) (slice b (32 + n) 16)
    if r.2 then some r.1 else none

/-- R370: whether a blob of `n` bytes is well formed. -/
def blobOk (b : Bytes) (n : Nat) : Bool :=
  let kind := byteAt b 1
  byteAt b 0 == 1 && (kind == 1 || kind == 2) && matLen (byteAt b 2) ≠ 0 && byteAt b 6 == matLen (byteAt b 2)
    && n == (if kind = 1 then 144 else 48) + byteAt b 6

/-- R364, R365: what a key import comes to: a status, or the slot filled. -/
def importKey (s : State) (dom n w : Nat) (b : Bytes) (len : Nat) : Nat × State :=
  let ty := byteAt b 2
  if !blobOk b len then (stMalformed, s)
  else if !keyReady s dom then (stNotReady, s)
  else if !(keySlots ty n).all (inRange s dom) || (ty = 6 && n % 2 = 1) || (keySlots ty n).any (fun i => (slotGet s i).st == 2)
      || (byteAt b 1 = 2 && !wrapOk s dom w) then (stKeyFault, s)
  else if (keySlots ty n).any (fun i => (slotGet s i).st ≠ 0) then (stSlotOccupied, s)
  else
    match unwrap s w b with
    | none => (stBlobAuth, s)
    | some mat =>
      if leAt b 4 2 % 1024 ≠ dom || leAt b 24 8 ≠ bindOf s dom then (stDomainMismatch, s)
      else if (ty = 5 && mat.take 16 == slice mat 16 16) || (ty = 6 && mat.take 32 == slice mat 32 32) then (stWeakKey, s)
      else (stSuccess, lckCount (slotFill s n ty (byteAt b 3 % 2) dom (byteAt b 1 - 1) mat) 0)

/-- The status of a key command whose buffer could not be read (R442). -/
def readStatus (x : RdRes) : Nat :=
  match x with
  | .poison _ => 0x11
  | _ => 0x10

/-- R365: the head KEY_IMPORT of a ring; `x` is the blob. -/
def doImport (s : State) (r : Nat) (x : RdRes) : State :=
  match headOp s r 4 0x50 with
  | none => s
  | some (k, d) =>
    let (go, s) := descRead s r [(leAt d 16 8, min (leAt d 24 4) 256)] x
    if !go then s else
    match x with
    | .ok b =>
      let n := descSlot d
      let len := leAt d 24 4
      let (st, s) := importKey s (ringDomain s r) n (descWrap d) (slice b 0 (min len 256)) len
      keyEnd s r k d st 0 (if st = stSuccess then checkValue (slotGet s n).ty (slotMat s n) else [])
    | x => keyEnd s r k d (readStatus x) 0 []

/-- KEY_IMPORT (R365). -/
def execKeyImport (r : Fin 262144) (x : RdRes) (s : State) : Ans := whenUp s fun s =>
  .next (doImport s r.val x)

/-- R366: material from the generator; Key2 of an XTS-AES-256 key differs from Key1. -/
def drawMat (s : State) (ty : Nat) : Bytes × State :=
  let (m, s) := s.freeBytes (matLen ty)
  if ty = 6 && m.take 32 == slice m 32 32 then
    match m with
    | a :: r => ((a ^^^ 1) :: r, s)
    | [] => (m, s)
  else (m, s)

/-- R366: the head KEY_GENERATE of a ring. -/
def doGenerate (s : State) (r : Nat) : State :=
  match headOp s r 4 0x51 with
  | none => s
  | some (k, d) =>
    let dom := ringDomain s r
    let n := descSlot d
    let ty := byteAt d 28
    let st : Nat :=
      if matLen ty = 0 then stMalformed
      else if !keyReady s dom then stNotReady
      else if !(keySlots ty n).all (inRange s dom) || (ty = 6 && n % 2 = 1) || (keySlots ty n).any (fun i => (slotGet s i).st == 2)
        then stKeyFault
      else if (keySlots ty n).any (fun i => (slotGet s i).st ≠ 0) then stSlotOccupied
      else if !s.flag R.LCK_STATUS.DRBG_OK [] then stGenFail
      else stSuccess
    if st ≠ stSuccess then keyEnd s r k d st 0 []
    else
      let (m, s) := drawMat s ty
      if ty = 5 && m.take 16 == slice m 16 16 then keyEnd s r k d stWeakKey 0 []
      else
        let s := lckCount (slotFill s n ty (byteAt d 29 % 2) dom 2 m) 1
        keyEnd s r k d stSuccess 0 (checkValue ty m)

/-- KEY_GENERATE (R366). -/
def execKeyGenerate (r : Fin 262144) (s : State) : Ans := whenUp s fun s =>
  .next (doGenerate s r.val)

/-- R367, R370: a KIND 2 blob of a slot. -/
def exportBlob (x : LckSlot) (mat wrap nonce : Bytes) (bind : Nat) : Bytes :=
  let h := [1, 2, byteOf x.ty, byteOf x.attr] ++ leBytes 2 x.dom ++ [byteOf (matLen x.ty), 0] ++ nonce ++ [0, 0, 0, 0] ++ leBytes 8 bind
  let r := gcmEnc wrap nonce h mat
  h ++ r.1 ++ r.2

/-- R367: the head KEY_EXPORT of a ring. -/
def doExport (s : State) (r : Nat) : State :=
  match headOp s r 4 0x52 with
  | none => s
  | some (k, d) =>
    let dom := ringDomain s r
    let n := descSlot d
    let w := descWrap d
    let x := slotGet s n
    let st : Nat :=
      if !keyReady s dom then stNotReady
      else if !inRange s dom n || x.st = 2 || !wrapOk s dom w || (x.st = 1 && x.ty = 6 && n % 2 = 1) then stKeyFault
      else if x.st = 0 then stSlotEmpty
      else if x.attr % 2 = 0 then stNotExportable
      else if leAt d 24 4 < 48 + matLen x.ty then stMalformed
      else if (slotGet s w).exports ≥ 2 ^ 32 then stNonceExhausted
      else stSuccess
    if st ≠ stSuccess then keyEnd s r k d st 0 []
    else
      let (nonce, s) := s.freeBytes 12
      let b := exportBlob x (slotMat s n) (slotGet s w).mat nonce (bindOf s dom)
      let s := slotPut s w { slotGet s w with exports := (slotGet s w).exports + 1 }
      let s := lckCount (ringWrite s r (leAt d 16 8) b) 2
      keyEnd s r k d stSuccess b.length []

/-- KEY_EXPORT (R367). -/
def execKeyExport (r : Fin 262144) (s : State) : Ans := whenUp s fun s =>
  .next (doExport s r.val)

/-- R369: the head KEY_DESTROY of a ring: the slot is zeroized and purged; the completion waits. -/
def doDestroy (s : State) (r : Nat) : State :=
  match headOp s r 4 0x53 with
  | none => s
  | some (k, d) =>
    let dom := ringDomain s r
    let n := descSlot d
    let x := slotGet s n
    let st : Nat :=
      if !keyReady s dom then stNotReady
      else if !inRange s dom n || (x.st ≠ 0 && x.ty = 6 && n % 2 = 1) then stKeyFault
      else if x.st = 0 then stSlotEmpty
      else stSuccess
    if st ≠ stSuccess then keyEnd s r k d st 0 []
    else
      let ns := keySlots x.ty n
      let s := ns.foldl (fun s i => purge (slotZero s i) i) s
      let s := popDesc s r k
      lckCount (ringSettle (putLck s { s.lck with destroys := s.lck.destroys ++ [{ ring := r, desc := d, slots := ns }] }) r) 3

/-- KEY_DESTROY (R369). -/
def execKeyDestroy (r : Fin 262144) (s : State) : Ans := whenUp s fun s =>
  .next (doDestroy s r.val)

/-- R369 step 3: a destroy whose jobs have finished completes. -/
def destroyDone (s : State) : State :=
  match s.lck.destroys.find? (fun x => x.slots.all (fun n => !slotHeld s n)) with
  | none => s
  | some x =>
    let s := putLck s { s.lck with destroys := s.lck.destroys.erase x }
    if x.ring < 262144 then cplPost s x.ring (cplBody (leAt x.desc 4 4) stSuccess 0x53 []) else s

/-- KEY_DESTROY_COMPLETE (R369). -/
def execKeyDestroyComplete (s : State) : Ans := whenOn s fun s =>
  .next (destroyDone s)

/-- R368: the image of a slot. -/
def slotImage (s : State) (dom n : Nat) : Bytes :=
  let x := slotGet s n
  let used := x.st = 1
  [byteOf x.st, byteOf x.ty, byteOf x.attr, byteOf x.origin] ++ leBytes 2 x.dom ++ [0, 0]
    ++ (if used then checkValue x.ty x.mat else [0, 0, 0]) ++ [0] ++ leBytes 4 x.exports ++ leBytes 8 (bindOf s dom)
    ++ List.replicate 8 0

/-- R368: the head KEY_QUERY of a ring. -/
def doQuery (s : State) (r : Nat) : State :=
  match headOp s r 4 0x54 with
  | none => s
  | some (k, d) =>
    let dom := ringDomain s r
    let n := descSlot d
    if !keyReady s dom then keyEnd s r k d stNotReady 0 []
    else if !inRange s dom n then keyEnd s r k d stKeyFault 0 []
    else keyEnd (ringWrite s r (leAt d 16 8) (slotImage s dom n)) r k d stSuccess 32 []

/-- KEY_QUERY (R368). -/
def execKeyQuery (r : Fin 262144) (s : State) : Ans := whenUp s fun s =>
  .next (doQuery s r.val)

/-- LCK_DOM_WRITE (R360): a write of W1 of a domain, with the BASE that W0 holds. -/
def execLckDomWrite (d : Fin 1024) (base : BitVec 20) (count : BitVec 21) (s : State) : Ans := fromHost s fun s =>
  .next (rangeWrite s d.val base.toNat count.toNat)

/-- RANGE_ZEROIZE_COMPLETE (R360). -/
def execRangeZeroizeComplete (d : Fin 1024) (s : State) : Ans := whenOn s fun s =>
  .next (rangeDone s d.val)

/-- R376: the slot store is zeroized and the generator reseeded: READY, and DRBG_OK unless the source is permanently
failed (R592); INT0 to INT3 are generated. -/
def storeReady (s : State) : State :=
  if s.flag R.LCK_STATUS.READY [] then s
  else
    let s := lckCount (s.wr R.LCK_STATUS.READY [] 1) 9
    let s := if s.rev.drbgDead then s else s.wr R.LCK_STATUS.DRBG_OK [] 1
    (List.range 4).foldl (fun s q =>
      let (k, s) := s.freeBytes 32
      putLck s { s.lck with intKey := SMap.ins s.lck.intKey q k }) s

/-- SLOT_STORE_READY (R376). -/
def execSlotStoreReady (s : State) : Ans := whenOn s fun s =>
  .next (storeReady s)

/-- R359: an ECC error of a slot. -/
def slotError (s : State) (n : Nat) (corrected : Bool) : State :=
  if corrected then lckCount s 7
  else
    let s := purge (slotPut s n { slotGet s n with st := 2 }) n
    (countFailure (lckCount s 8) 8 0 0 []).1

/-- SLOT_ECC_ERROR (R359). -/
def execSlotEccError (n : Fin 1048576) (corrected : Bool) (s : State) : Ans := whenOn s fun s =>
  .next (slotError s n.val corrected)

/-- R381, R592: a health test of the entropy source fails; `again` says that it passes its retest. -/
def entropyFail (s : State) (again : Bool) : State :=
  let s := s.wr R.LCK_STATUS.ENTROPY_FAIL [] 1
  let (s, dead) := countFailure s 10 0 0 []
  s.wr R.LCK_STATUS.DRBG_OK [] (b2n (again && !dead && !s.rev.drbgDead && s.flag R.LCK_STATUS.READY []))

/-- ENTROPY_FAIL (R381). -/
def execEntropyFail (again : Bool) (s : State) : Ans := whenOn s fun s =>
  .next (entropyFail s again)

end Sys2Proof.Machine
end

