-- ==== Sys2Proof/Machine/SpdmOps.lean ====
section
/-! DEFINITION. The SPDM responder with the options of R623: messages, transcripts, the key schedule, sessions with mutual
authentication (R625), chunks. The layouts, codes and key schedule are those of DSP0274 1.2 and 1.3, DSP0275 and DSP0277,
which the manual names and does not repeat.
Log entries 18, 138. -/

namespace Sys2Proof.Machine

open Sys2Proof

def spdm (s : State) : Spdm := s.trust.spdm
def putSpdm (s : State) (p : Spdm) : State := putTrust s { s.trust with spdm := p }

def sessOf (s : State) (id : Nat) : Option Sess := ((spdm s).sessions.filter (fun x => x.id == id)).head?
def dropSess (s : State) (id : Nat) : State :=
  putSpdm s { spdm s with sessions := (spdm s).sessions.filter (fun x => x.id ≠ id) }
def putSess (s : State) (x : Sess) : State :=
  putSpdm s { spdm s with sessions := (spdm s).sessions.filter (fun y => y.id ≠ x.id) ++ [x] }

/-- R625: whether a request came in a session that is established. -/
def inSession (s : State) (id : Option (BitVec 32)) : Bool :=
  match id with
  | none => false
  | some i => match sessOf s i.toNat with | some x => x.est | none => false

/-- The version byte of responses. -/
def spdmVer (s : State) : Nat := if (spdm s).phase < 2 then 0x12 else (spdm s).ver

/-- A response: version, code, two parameters, the rest. -/
def rspMsg (s : State) (code p1 p2 : Nat) (b : Bytes) : Bytes := [byteOf (spdmVer s), byteOf code, byteOf p1, byteOf p2] ++ b

/-- ERROR with its code and data. -/
def errMsg (s : State) (code data : Nat) : Bytes := rspMsg s 0x7F code data []

def eInvalid : Nat := 0x01
def eSession : Nat := 0x02
def eUnexpected : Nat := 0x04
def eDecrypt : Nat := 0x06
def eUnsupported : Nat := 0x07
def eTooLarge : Nat := 0x0D
def eLarge : Nat := 0x0F
def eVersion : Nat := 0x41

/-- A request as it stood in its message. -/
def reqMsg (code : Nat) (r : SpdmReq) : Bytes := [byteOf r.ver.toNat, byteOf code, byteOf r.p1.toNat, byteOf r.p2.toNat] ++ r.body

/-- The ASCII bytes of a label. -/
def ascii (t : String) : Bytes := t.toList.map (fun c => byteOf c.toNat)

def is13 (s : State) : Bool := spdmVer s == 0x13

/-! ## Sending -/

/-- A message of a session, enciphered (DSP0277): session, sequence number, length, ciphertext, tag. -/
def secured (x : Sess) (app : Bytes) : Bytes :=
  let pt := leBytes 2 app.length ++ app
  let hdr := leBytes 4 x.id ++ leBytes 2 x.rspSeq ++ leBytes 2 (pt.length + 16)
  let iv := slice (xorBytes x.rspIv (leBytes 12 x.rspSeq)) 0 12
  let (ct, tag) := gcmEnc x.rspKey iv hdr pt
  hdr ++ ct ++ tag

/-- A session after a message has gone out. -/
def afterSend (s : State) (x : Sess) : State :=
  match x.next with
  | .same => putSess s { x with rspSeq := x.rspSeq + 1 }
  | .keys k iv => putSess s { x with rspKey := k, rspIv := iv, rspSeq := 0, next := .same }
  | .ends => dropSess s x.id

/-- A message of MCTP type `ty` sent in the clear, or in a session. -/
def mctpSend (s : State) (id : Option (BitVec 32)) (ty : Nat) (b : Bytes) : State :=
  match id with
  | none => s.emit (.mctp (byteOf ty :: b))
  | some i =>
    match sessOf s i.toNat with
    | none => s
    | some x => afterSend (s.emit (.mctp (0x06 :: secured x (byteOf ty :: b)))) x

/-- A response sent: one longer than the requester's transfer size waits for CHUNK_GET where the requester knows chunks. -/
def respond (s : State) (id : Option (BitVec 32)) (b : Bytes) : State :=
  let p := spdm s
  if p.xfer = 0 || b.length ≤ p.xfer then mctpSend s id 0x05 b
  else if bit p.flags 17 then
    let h := (p.handle + 1) % 256
    let s := putSpdm s { p with handle := h, large := some (h, 0, b, 0) }
    mctpSend s id 0x05 (errMsg s eLarge 0 ++ [byteOf h])
  else mctpSend s id 0x05 (errMsg s eTooLarge 0 ++ leBytes 4 b.length)

/-! ## Certificates, measurements, signatures -/

/-- R623: the certificate chain of a slot: length, reserved, the hash of the root, the certificates. -/
def slotChain (slot : Nat) : Bytes :=
  let certs := Config.cert 1 ++ Config.cert 2 ++ Config.cert (if slot = 1 then 4 else 3)
  leBytes 2 (52 + certs.length) ++ [0, 0] ++ sha384 (Config.cert 1) ++ certs

def slotOk (slot : Nat) : Bool := slot == 0 || slot == 1

/-- The private key whose leaf a slot holds. -/
def slotKey (slot : Nat) : Nat := if slot = 1 then Config.importKey else Config.devidKey

/-- An SPDM signature over a transcript, with the context of its message. -/
def signedText (s : State) (context : String) (tr : Bytes) : Bytes :=
  let v := ascii (if is13 s then "dmtf-spdm-v1.3.*" else "dmtf-spdm-v1.2.*")
  let c := ascii context
  v ++ v ++ v ++ v ++ List.replicate (36 - c.length) 0 ++ c ++ sha384 tr

def spdmSign (s : State) (slot : Nat) (context : String) (tr : Bytes) : Bytes × State :=
  let (k, s) := s.freeBits 384
  (ecdsaSign (slotKey slot) (1 + k % (p384n - 1)) (signedText s context tr), s)

/-- R624: a block in the DMTF measurement format; values other than digests are raw. -/
def measBlock (s : State) (n : Nat) : Bytes :=
  let (t, v) := measValue s n
  [byteOf n, 0x01] ++ leBytes 2 (3 + v.length) ++ [byteOf (if v.length = 48 then t else t + 0x80)] ++ leBytes 2 v.length ++ v

/-- The measurement summary of a type: nothing, or the digest of all blocks. -/
def measSummary (s : State) (ty : Nat) : Bytes :=
  if ty = 0 then [] else sha384 ([1, 2, 3, 4, 5, 6].flatMap (measBlock s))

/-- The 8 bytes of context that a 1.3 request carries at `off` and its response returns. -/
def context13 (s : State) (r : SpdmReq) (off : Nat) : Bytes := if is13 s then slice r.body off 8 else []

/-! ## Negotiation -/

/-- GET_VERSION: versions 1.2 and 1.3; what was negotiated, and the sessions, are gone. -/
def doVersion (s : State) (r : SpdmReq) : Bytes × State :=
  if r.ver ≠ 0x10#8 then ([0x10, 0x7F, byteOf eVersion, 0], s)
  else
    let rsp : Bytes := [0x10, 0x04, 0, 0, 0, 2] ++ leBytes 2 0x1200 ++ leBytes 2 0x1300
    (rsp, putSpdm s { Spdm.reset with phase := 1, vca := reqMsg 0x84 r ++ rsp, handle := (spdm s).handle,
                                      nextSess := (spdm s).nextSess })

/-- R623: CERT, CHAL, MEAS with signature, ENCRYPT, MAC, MUT_AUTH, KEY_EX, ENCAP, HBEAT, CHUNK. -/
def ourFlags : Nat := 2 + 4 + 0x10 + 0x40 + 0x80 + 0x100 + 0x200 + 0x1000 + 0x2000 + 0x20000

/-- The largest request the responder takes in one piece, and in chunks. -/
def ourXfer : Nat := 4096
def ourMax : Nat := 65536

/-- GET_CAPABILITIES. -/
def doCapabilities (s : State) (r : SpdmReq) : Bytes × State :=
  let p := spdm s
  if r.ver ≠ 0x12#8 && r.ver ≠ 0x13#8 then (errMsg s eVersion 0, s)
  else if p.phase ≠ 1 then (errMsg s eUnexpected 0, s)
  else if r.body.length < 16 || leAt r.body 8 4 < 42 then (errMsg s eInvalid 0, s)
  else
    let s := putSpdm s { p with phase := 2, ver := r.ver.toNat, flags := leAt r.body 4 4, xfer := leAt r.body 8 4 }
    let rsp := rspMsg s 0x61 0 0 ([0, 20, 0, 0] ++ leBytes 4 ourFlags ++ leBytes 4 ourXfer ++ leBytes 4 ourMax)
    (rsp, putSpdm s { spdm s with vca := p.vca ++ reqMsg 0xE1 r ++ rsp })

/-- R623: what the device takes of an algorithm type: DHE secp384r1, AEAD AES-256-GCM, requester ECDSA P-384, the SPDM key
schedule. -/
def algOurs (ty : Nat) : Nat :=
  match ty with
  | 2 => 0x10 | 3 => 0x02 | 4 => 0x80 | 5 => 0x01
  | _ => 0

/-- The answers to `n` algorithm structures. -/
def algTables (n : Nat) (b : Bytes) : Bytes :=
  match n with
  | 0 => []
  | n + 1 =>
    let ty := byteAt b 0
    [byteOf ty, 0x20] ++ leBytes 2 (leAt b 2 2 &&& algOurs ty) ++ algTables n (b.drop (4 + 4 * (byteAt b 1 % 16)))

/-- NEGOTIATE_ALGORITHMS. -/
def doAlgorithms (s : State) (r : SpdmReq) : Bytes × State :=
  let p := spdm s
  let b := r.body
  if p.phase ≠ 2 then (errMsg s eUnexpected 0, s)
  else if b.length < 28 || !bit (leAt b 4 4) 7 || !bit (leAt b 8 4) 1 then (errMsg s eInvalid 0, s)
  else
    let t := algTables r.p1.toNat (b.drop (28 + 4 * (byteAt b 24 + byteAt b 25)))
    let rsp := rspMsg s 0x63 r.p1.toNat 0 (leBytes 2 (36 + t.length) ++ [byteOf (byteAt b 2 &&& 1), byteOf (byteAt b 3 &&& 2)]
      ++ leBytes 4 0x04 ++ leBytes 4 0x80 ++ leBytes 4 0x02 ++ List.replicate 12 0 ++ [0, 0, 0, 0] ++ t)
    (rsp, putSpdm s { p with phase := 3, vca := p.vca ++ reqMsg 0xE3 r ++ rsp })

/-- What needs the negotiation behind it, in the version it came to. -/
def negotiated (s : State) (r : SpdmReq) (f : Unit → Bytes × State) : Bytes × State :=
  if (spdm s).phase ≠ 3 then (errMsg s eUnexpected 0, s)
  else if r.ver.toNat ≠ (spdm s).ver then (errMsg s eVersion 0, s)
  else f ()

/-- What is not asked within a session. -/
def outside (s : State) (r : SpdmReq) (f : Unit → Bytes × State) : Bytes × State :=
  negotiated s r fun _ => if r.sess.isSome then (errMsg s eUnexpected 0, s) else f ()

/-! ## Identity and measurements -/

/-- GET_DIGESTS. -/
def doDigests (s : State) (r : SpdmReq) : Bytes × State :=
  negotiated s r fun _ =>
    let rsp := rspMsg s 0x01 (if is13 s then 3 else 0) 3 (sha384 (slotChain 0) ++ sha384 (slotChain 1))
    (rsp, putSpdm s { spdm s with trB := reqMsg 0x81 r ++ rsp })

/-- GET_CERTIFICATE. -/
def doCertificate (s : State) (r : SpdmReq) : Bytes × State :=
  negotiated s r fun _ =>
    let slot := r.p1.toNat % 16
    let c := slotChain slot
    let off := leAt r.body 0 2
    if !slotOk slot || r.body.length < 4 || c.length ≤ off then (errMsg s eInvalid 0, s)
    else
      let part := (c.drop off).take (leAt r.body 2 2)
      let rsp := rspMsg s 0x02 slot 0 (leBytes 2 part.length ++ leBytes 2 (c.length - off - part.length) ++ part)
      (rsp, putSpdm s { spdm s with trB := (spdm s).trB ++ reqMsg 0x82 r ++ rsp })

/-- CHALLENGE. -/
def doChallenge (s : State) (r : SpdmReq) : Bytes × State :=
  outside s r fun _ =>
    let slot := r.p1.toNat
    if !slotOk slot || r.body.length < 32 then (errMsg s eInvalid 0, s)
    else
      let (nonce, s) := s.freeBytes 32
      let rsp := rspMsg s 0x03 slot 3 (sha384 (slotChain slot) ++ nonce ++ measSummary s r.p2.toNat ++ [0, 0] ++ context13 s r 32)
      let (sig, s) := spdmSign s slot "responder-challenge_auth signing" ((spdm s).vca ++ (spdm s).trB ++ reqMsg 0x83 r ++ rsp)
      (rsp ++ sig, putSpdm s { spdm s with trB := [] })

/-- GET_MEASUREMENTS (R624). -/
def doMeasurements (s : State) (r : SpdmReq) : Bytes × State :=
  negotiated s r fun _ =>
    let want := bit r.p1.toNat 0
    let op := r.p2.toNat
    let slot := if want then byteAt r.body 32 % 16 else 0
    let ns := if op = 0 then [] else if op = 0xFF then [1, 2, 3, 4, 5, 6] else [op]
    if !slotOk slot || (6 < op && op ≠ 0xFF) || (want && r.body.length < 33) then (errMsg s eInvalid 0, s)
    else
      let rec1 := ns.flatMap (measBlock s)
      let (nonce, s) := s.freeBytes 32
      let rsp := rspMsg s 0x60 (if op = 0 then 6 else 0) slot ([byteOf ns.length] ++ leBytes 3 rec1.length ++ rec1 ++ nonce
        ++ [0, 0] ++ context13 s r (if want then 33 else 0))
      let tr := (spdm s).trL ++ reqMsg 0xE0 r ++ rsp
      if want then
        let (sig, s) := spdmSign s slot "responder-measurements signing" ((spdm s).vca ++ tr)
        (rsp ++ sig, putSpdm s { spdm s with trL := [] })
      else (rsp, putSpdm s { spdm s with trL := tr })

/-! ## Sessions -/

/-- A labelled expansion of the SPDM key schedule. -/
def expand (s : State) (key : Bytes) (label : String) (context : Bytes) (n : Nat) : Bytes :=
  hkdfExpand key (leBytes 2 n ++ ascii (if is13 s then "spdm1.3 " else "spdm1.2 ") ++ ascii label ++ context) n

/-- Key and IV of a direction's secret. -/
def dirKeys (s : State) (secret : Bytes) : Bytes × Bytes := (expand s secret "key" [] 32, expand s secret "iv" [] 12)

/-- R625: DBG_OWNER_SPDM. -/
def ownerSpdm (s : State) : Bytes := le4 s R.DBG_OWNER_SPDM.HASH 12

/-- The heartbeat period the device asks for, in s. -/
def hbPeriod : Nat := 30

/-- The opaque data that selects version 1.1 of secured messages. -/
def selectedVersion : Bytes := [1, 0, 0, 0, 0, 0, 4, 0, 1, 0, 0, 0x11]

/-- KEY_EXCHANGE (R625): no session opens while DBG_OWNER_SPDM is zero; mutual authentication is always asked for. -/
def doKeyExchange (s : State) (r : SpdmReq) : Bytes × State :=
  outside s r fun _ =>
    let b := r.body
    let slot := r.p2.toNat
    let q := pointOf (slice b 36 96)
    if (ownerSpdm s).all (· == 0) then (errMsg s eUnsupported 0xE4, s)
    else if !slotOk slot || b.length < 134 || !onCurve q then (errMsg s eInvalid 0, s)
    else
      let n := ((spdm s).nextSess + 1) % 65536
      let (k, s) := s.freeBits 384
      let d := 1 + k % (p384n - 1)
      let (rnd, s) := s.freeBytes 32
      let period := if bit (spdm s).flags 13 then hbPeriod else 0
      let head := rspMsg s 0x64 period 0 (leBytes 2 n ++ [0x02, 0x00] ++ rnd ++ pointBytes (ecMul 384 d (some p384g))
        ++ measSummary s r.p1.toNat ++ leBytes 2 selectedVersion.length ++ selectedVersion)
      let t0 := (spdm s).vca ++ sha384 (slotChain slot) ++ reqMsg 0xE4 r ++ head
      let (sig, s) := spdmSign s slot "responder-key_exchange_rsp signing" t0
      let t1 := t0 ++ sig
      let z := (pointBytes (ecMul 384 d (some q))).take 48
      let hs := hmac384 (List.replicate 48 0) z
      let th := sha384 t1
      let secReq := expand s hs "req hs data" th 48
      let secRsp := expand s hs "rsp hs data" th 48
      let ver := hmac384 (expand s secRsp "finished" [] 48) th
      let (key, iv) := dirKeys s secRsp
      let x : Sess := { id := leAt b 0 2 + 65536 * n, est := false, period := period, chain := [], peer := none, encap := 0, th := t1 ++ ver, hs := hs,
                        reqFin := expand s secReq "finished" [] 48, rspKey := key, rspIv := iv, rspSeq := 0, next := .same }
      (head ++ sig ++ ver, putSess (putSpdm s { spdm s with nextSess := n }) x)

/-- What is asked in a session whose handshake runs (`est` false) or is done. -/
def within (s : State) (r : SpdmReq) (est : Bool) (f : Sess → Bytes × State) : Bytes × State :=
  negotiated s r fun _ =>
    match r.sess with
    | none => (errMsg s eUnexpected 0, s)
    | some i =>
      match sessOf s i.toNat with
      | none => (errMsg s eSession 0, s)
      | some x => if x.est = est then f x else (errMsg s eUnexpected 0, s)

/-- The encapsulated GET_CERTIFICATE for the rest of the requester's chain. -/
def askChain (s : State) (x : Sess) : Bytes :=
  [byteOf (spdmVer s), 0x82, 0, 0] ++ leBytes 2 x.chain.length ++ leBytes 2 0xFFFF

/-- GET_ENCAPSULATED_REQUEST: the device asks for the requester's chain. -/
def doGetEncap (s : State) (r : SpdmReq) : Bytes × State :=
  within s r false fun x =>
    let x := { x with encap := 1, chain := [] }
    (rspMsg s 0x6A 1 0 (askChain s x), putSess s x)

/-- R625: whether a requester's chain is accepted: its root has the hash of DBG_OWNER_SPDM, and the chain verifies. -/
def chainAccepted (s : State) (c : Bytes) : Bool :=
  let certs := c.drop 52
  !(ownerSpdm s).all (· == 0) && sha384 (certs.take (Config.firstCertLen certs)) == ownerSpdm s && Config.chainOk certs

/-- A session that fails ends once the error has gone out. -/
def failSess (s : State) (x : Sess) (code : Nat) : Bytes × State := (errMsg s code 0, putSess s { x with next := .ends })

/-- DELIVER_ENCAPSULATED_RESPONSE: a part of the requester's chain; with the last part the chain is judged. -/
def doDeliver (s : State) (r : SpdmReq) : Bytes × State :=
  within s r false fun x =>
    let b := r.body
    if x.encap = 0 || r.p1.toNat ≠ x.encap then (errMsg s eUnexpected 0, s)
    else if byteAt b 1 ≠ 0x02 then failSess s x eInvalid
    else
      let x := { x with chain := x.chain ++ slice b 8 (leAt b 4 2), encap := x.encap % 255 + 1 }
      if leAt b 6 2 ≠ 0 then
        (rspMsg s 0x6B x.encap 1 ([byteOf r.p1.toNat, 0, 0, 0] ++ askChain s x), putSess s x)
      else if chainAccepted s x.chain then
        (rspMsg s 0x6B 0 2 [byteOf r.p1.toNat, 0, 0, 0, 0],
         putSess s { x with encap := 0, peer := some (Config.leafKey (x.chain.drop 52)) })
      else failSess s x eInvalid

/-- FINISH (R625): the requester's signature and verify data; the session is established. -/
def doFinish (s : State) (r : SpdmReq) : Bytes × State :=
  within s r false fun x =>
    let sig := slice r.body 0 96
    let t := x.th ++ sha384 x.chain ++ [byteOf r.ver.toNat, 0xE5, byteOf r.p1.toNat, byteOf r.p2.toNat]
    match x.peer with
    | none => failSess s x eInvalid
    | some pub =>
      if !bit r.p1.toNat 0 || !ecdsaVerify pub (signedText s "requester-finish signing" t) sig
          || hmac384 x.reqFin (sha384 (t ++ sig)) ≠ slice r.body 96 48 then failSess s x eDecrypt
      else
        let rsp := rspMsg s 0x65 0 0 []
        let th2 := sha384 (t ++ r.body.take 144 ++ rsp)
        let ms := hmac384 (expand s x.hs "derived" [] 48) (List.replicate 48 0)
        let (key, iv) := dirKeys s (expand s ms "rsp app data" th2 48)
        (rsp, putSess s { x with est := true, next := .keys key iv })

/-- HEARTBEAT. -/
def doHeartbeat (s : State) (r : SpdmReq) : Bytes × State :=
  within s r true fun x => if x.period = 0 then (errMsg s eUnexpected 0, s) else (rspMsg s 0x68 0 0 [], s)

/-- END_SESSION. -/
def doEndSession (s : State) (r : SpdmReq) : Bytes × State :=
  within s r true fun x => (rspMsg s 0x6C 0 0 [], putSess s { x with next := .ends })

/-! ## Vendor-defined requests and chunks -/

/-- R626: a vendor-defined response with its payload. -/
def vendorRsp (s : State) (b : Bytes) : Bytes :=
  rspMsg s 0x7E 0 0 (leBytes 2 3 ++ [2] ++ leBytes 2 0xAC4E ++ leBytes 2 b.length ++ b)

/-- R626: FW_WRITE with its session. -/
def vFwWrite (s : State) (id : Option (BitVec 32)) (ty off len : Nat) (d : Bytes) : Bytes × State :=
  if !inSession s id then ([0x02], s)
  else if len ≠ d.length then ([0x03], s)
  else fwWrite s ty off d

/-- R626: the payload of a vendor-defined request that came in chunks, and its answer. An activation names a slot that the
device reads itself, and does not come in chunks. -/
def vendorReq (s : State) (id : Option (BitVec 32)) (b : Bytes) : Bytes × State :=
  match byteAt b 0 with
  | 0x01 => evidence s (slice b 1 32) (leAt b 33 4)
  | 0x02 => (hssChain (leAt b 1 4), s)
  | 0x03 => vFwWrite s id (byteAt b 1) (leAt b 2 4) (leAt b 6 2) (b.drop 8)
  | _ => ([0x01], s)

/-- A request that arrived whole, by its code. -/
def doRequest (s : State) (code : Nat) (r : SpdmReq) : Bytes × State :=
  match code with
  | 0x84 => doVersion s r
  | 0xE1 => doCapabilities s r
  | 0xE3 => doAlgorithms s r
  | 0x81 => doDigests s r
  | 0x82 => doCertificate s r
  | 0x83 => doChallenge s r
  | 0xE0 => doMeasurements s r
  | 0xE4 => doKeyExchange s r
  | 0xE5 => doFinish s r
  | 0xE8 => doHeartbeat s r
  | 0xEC => doEndSession s r
  | 0xEA => doGetEncap s r
  | 0xEB => doDeliver s r
  | 0xFE =>
    let (b, s) := vendorReq s r.sess (r.body.drop 7)
    (vendorRsp s b, s)
  | c => (errMsg s eUnsupported c, s)

/-- The request that a message holds. -/
def reqOf (id : Option (BitVec 32)) (b : Bytes) : SpdmReq :=
  { sess := id, ver := BitVec.ofNat 8 (byteAt b 0), p1 := BitVec.ofNat 8 (byteAt b 2), p2 := BitVec.ofNat 8 (byteAt b 3),
    body := b.drop 4 }

/-- CHUNK_SEND: one chunk of a large request; the last one runs it. -/
def doChunkSend (s : State) (r : SpdmReq) : Bytes × State :=
  negotiated s r fun _ =>
    let b := r.body
    let seq := leAt b 0 2
    let first := decide (seq = 0)
    let data := slice b (if first then 12 else 8) (leAt b 4 4)
    let old : Option (Nat × Nat × Nat × Bytes) :=
      if first then some (r.p2.toNat, 0, leAt b 8 4, []) else (spdm s).chunk
    let bad := (rspMsg s 0x05 1 r.p2.toNat (leBytes 2 seq ++ errMsg s eInvalid 0), putSpdm s { spdm s with chunk := none })
    match old with
    | none => bad
    | some (h, n, total, got) =>
      if h ≠ r.p2.toNat || n ≠ seq || ourMax < total || total < got.length + data.length then bad
      else
        let got := got ++ data
        if !bit r.p1.toNat 0 then
          (rspMsg s 0x05 0 h (leBytes 2 seq), putSpdm s { spdm s with chunk := some (h, n + 1, total, got) })
        else if got.length ≠ total then bad
        else
          let s := putSpdm s { spdm s with chunk := none }
          let (rsp, s) := doRequest s (byteAt got 1) (reqOf r.sess got)
          (rspMsg s 0x05 0 h (leBytes 2 seq ++ rsp), s)

/-- CHUNK_GET: the next chunk of a large response. -/
def doChunkGet (s : State) (r : SpdmReq) : Bytes × State :=
  negotiated s r fun _ =>
    let seq := leAt r.body 0 2
    match (spdm s).large with
    | none => (errMsg s eUnexpected 0, s)
    | some (h, n, b, off) =>
      if h ≠ r.p2.toNat || n ≠ seq then (errMsg s eInvalid 0, s)
      else
        let room := (spdm s).xfer - (if n = 0 then 16 else 12)
        let part := (b.drop off).take room
        let last := decide (b.length ≤ off + part.length)
        let rsp := rspMsg s 0x06 (b2n last) h (leBytes 2 seq ++ [0, 0] ++ leBytes 4 part.length
          ++ (if n = 0 then leBytes 4 b.length else []) ++ part)
        (rsp, putSpdm s { spdm s with large := if last then none else some (h, n + 1, b, off + part.length) })

/-- A request of a row, answered; one in a session that does not stand is not understood and not answered. -/
def spdmRow (s : State) (r : SpdmReq) (f : State → SpdmReq → Bytes × State) : State :=
  match r.sess with
  | none => let (b, s) := f s r; respond s none b
  | some i =>
    match sessOf s i.toNat with
    | none => s
    | some _ => let (b, s) := f s r; respond s r.sess b

/-- The answer of a vendor-defined command of R626. -/
def vendorRow (s : State) (id : Option (BitVec 32)) (f : State → Bytes × State) : State :=
  let go := fun (_ : Unit) =>
    let (b, s) := f s
    respond s id (vendorRsp s b)
  match id with
  | none => go ()
  | some i => match sessOf s i.toNat with | none => s | some _ => go ()

/-- A heartbeat period has passed without a heartbeat: the session is terminated (R623). -/
def sessionExpiry (s : State) (id : Nat) : State :=
  match sessOf s id with
  | none => s
  | some x => if x.est && decide (x.period ≠ 0) then dropSess s id else s

end Sys2Proof.Machine
end

