-- ==== Sys2Proof/Machine/MctpOps.lean ====
section
/-! DEFINITION. The Reeve's MCTP endpoint: MCTP control messages, PLDM Type 0 and Type 2, the vendor messages (R597 to R599).
The message layouts, codes and PDR layouts are those of DSP0236, DSP0240 and DSP0248, which the manual names and does not
repeat.
Log entries 18, 129, 131. -/

namespace Sys2Proof.Machine

open Sys2Proof

/-- A response to an MCTP control request with its instance number. -/
def ctlRsp (s : State) (inst : BitVec 5) (cmd : Nat) (b : Bytes) : State := s.emit (.mctp ([0x00, byteOf inst.toNat, byteOf cmd] ++ b))

/-- Set Endpoint ID: set and force take an EID; reset and set discovered are not supported by a dynamic EID on these media. -/
def setEid (s : State) (inst : BitVec 5) (op eid : Nat) : State :=
  if op % 4 ≥ 2 || eid = 0 || eid = 0xFF then ctlRsp s inst 0x01 [0x02]
  else ctlRsp { s with rev := { s.rev with eid := eid } } inst 0x01 [0x00, 0x00, byteOf eid, 0x00]

/-- Get Endpoint ID. -/
def getEid (s : State) (inst : BitVec 5) : State := ctlRsp s inst 0x02 [0x00, byteOf s.rev.eid, 0x00, 0x00]

/-- The message types of the endpoint: PLDM, SPDM, secured messages, vendor defined with a PCI vendor. -/
def msgTypes : Bytes := [0x01, 0x05, 0x06, 0x7E]

/-- Get MCTP Version Support: of the base (0xFF), of the control protocol (0) and of each message type. -/
def getMctpVersion (s : State) (inst : BitVec 5) (ty : BitVec 8) : State :=
  if ty = 0xFF#8 || ty = 0#8 || msgTypes.contains ty then ctlRsp s inst 0x04 [0x00, 1, 0xF1, 0xF3, 0xF1, 0x00]
  else ctlRsp s inst 0x04 [0x80]

/-- Get Message Type Support. -/
def getMsgTypes (s : State) (inst : BitVec 5) : State :=
  ctlRsp s inst 0x05 ([0x00, byteOf msgTypes.length] ++ msgTypes)

/-- Get Vendor Defined Message Support: one set, of PCI vendor 0xAC4E. -/
def getVendor (s : State) (inst : BitVec 5) (sel : Nat) : State :=
  if sel ≠ 0 then ctlRsp s inst 0x06 [0x02] else ctlRsp s inst 0x06 [0x00, 0xFF, 0x00, 0xAC, 0x4E, 0x00, 0x00]

/-! ## PLDM -/

/-- A response to a PLDM request. -/
def pldmRsp (s : State) (inst : BitVec 5) (ty cmd : Nat) (b : Bytes) : State :=
  s.emit (.mctp ([0x01, byteOf inst.toNat, byteOf ty, byteOf cmd] ++ b))

/-- GetTID: none has been assigned. -/
def getTid (s : State) (inst : BitVec 5) : State := pldmRsp s inst 0 0x02 [0x00, 0x00]

/-- GetPLDMVersion. -/
def getPldmVersion (s : State) (inst : BitVec 5) (flag ty : Nat) : State :=
  let v : Bytes := if ty = 0 then [0xF1, 0xF1, 0xF0, 0x00] else [0xF1, 0xF2, 0xF0, 0x00]
  if flag ≠ 1 then pldmRsp s inst 0 0x03 [0x81]
  else if ty ≠ 0 && ty ≠ 2 then pldmRsp s inst 0 0x03 [0x83]
  else pldmRsp s inst 0 0x03 ([0x00, 0, 0, 0, 0, 0x05] ++ v ++ leBytes 4 (crc32 v))

/-- GetPLDMTypes: 0 and 2. -/
def getPldmTypes (s : State) (inst : BitVec 5) : State := pldmRsp s inst 0 0x04 (0x00 :: leBytes 8 0x05)

/-- R597: the commands of a PLDM type, as a bitmap. -/
def pldmCmds (ty : Nat) : Nat :=
  if ty = 0 then 2 ^ 0x02 + 2 ^ 0x03 + 2 ^ 0x04 + 2 ^ 0x05
  else 2 ^ 0x04 + 2 ^ 0x11 + 2 ^ 0x21 + 2 ^ 0x50 + 2 ^ 0x51

/-- GetPLDMCommands. -/
def getPldmCommands (s : State) (inst : BitVec 5) (ty : Nat) : State :=
  if ty ≠ 0 && ty ≠ 2 then pldmRsp s inst 0 0x05 [0x83] else pldmRsp s inst 0 0x05 (0x00 :: leBytes 32 (pldmCmds ty))

/-- R598: how many records the repository holds: a sensor each, by sensor number from 1. -/
def pdrCount : Nat := 117

def isNumeric (id : Nat) : Bool := 1 ≤ id && id ≤ pdrPower
def isStateSensor (id : Nat) : Bool := id == pdrPwrState || id == pdrTstate || id == pdrFault

/-- The data of a numeric sensor's PDR: unit, modifier, data size and resolution as the sensor has them. -/
def numericPdr (id : Nat) : Bytes :=
  let temp := decide (id ≤ 65)
  let pow := id == pdrPower
  let w : Nat := if pow then 4 else 2
  leBytes 2 0 ++ leBytes 2 id ++ leBytes 2 0 ++ leBytes 2 1 ++ leBytes 2 0 ++ [0, 0]
    ++ [if temp then 2 else if pow then 7 else 5, if temp || pow then 0 else 0xFD] ++ List.replicate 7 0
    ++ [1, 0, 1, if temp then 3 else if pow then 4 else 2]
    ++ leBytes 4 (if temp then 0x3D800000 else 0x3F800000) ++ leBytes 4 0
    ++ leBytes 2 (if pow then 1000 else 0) ++ [0, 0] ++ List.replicate w 0 ++ [0, 0] ++ List.replicate (8 + 2 * w) 0
    ++ [if pow then 4 else if temp then 3 else 2, 0] ++ List.replicate (9 * w) 0

/-- The data of a state sensor's PDR: an OEM state set and its possible states. -/
def statePdr (id : Nat) : Bytes :=
  leBytes 2 0 ++ leBytes 2 id ++ leBytes 2 0 ++ leBytes 2 1 ++ leBytes 2 0 ++ [0, 0, 1] ++ leBytes 2 (0x8000 + id)
    ++ [1, if id = pdrFault then 0x07 else 0x0F]

/-- R598: record `id` of the repository. -/
def pdrRecord (id : Nat) : Bytes :=
  let d := if isNumeric id then numericPdr id else statePdr id
  leBytes 4 id ++ [1, if isNumeric id then 2 else 4] ++ leBytes 2 0 ++ leBytes 2 d.length ++ d

/-- The records' lengths, from the first. -/
def pdrSizes : List Nat := (List.range pdrCount).map (fun i => (pdrRecord (i + 1)).length)

/-- GetPDRRepositoryInfo. -/
def getPdrInfo (s : State) (inst : BitVec 5) : State :=
  pldmRsp s inst 2 0x50 ([0x00, 0x00] ++ List.replicate 26 0 ++ leBytes 4 pdrCount ++ leBytes 4 pdrSizes.sum
    ++ leBytes 4 (pdrSizes.foldl max 0) ++ [0])

/-- GetPDR: record handle 0 asks for the first one; a later part is named by its offset. -/
def getPdr (s : State) (inst : BitVec 5) (handle part flag count : Nat) : State :=
  let id := if handle = 0 then 1 else handle
  if pdrCount < id then pldmRsp s inst 2 0x51 [0x82]
  else if 1 < flag then pldmRsp s inst 2 0x51 [0x81]
  else
    let r := pdrRecord id
    let off := if flag = 1 then 0 else part
    let d := (r.drop off).take count
    let stop := off + d.length
    let last := decide (r.length ≤ stop)
    let tf : Byte := if off = 0 then (if last then 5 else 0) else if last then 4 else 1
    pldmRsp s inst 2 0x51 (0x00 :: leBytes 4 (if id = pdrCount then 0 else id + 1) ++ leBytes 4 (if last then 0 else stop)
      ++ [tf] ++ leBytes 2 d.length ++ d)

/-- The present event state of a numeric sensor: 1 normal; a voltage monitor below UV_WARN 2, at fault 3. -/
def sensorState (s : State) (id : Nat) : Nat :=
  let m := id - pdrVolt 0
  if pdrVolt 0 ≤ id && id < pdrPower then (if bit s.rev.faulted m then 3 else if bit s.rev.belowWarn m then 2 else 1) else 1

/-- GetSensorReading: a temperature in 1/16 °C, a voltage in mV, the power estimate in W, whose value the manual leaves
open. -/
def getReading (s : State) (inst : BitVec 5) (id : Nat) : State :=
  if !isNumeric id then pldmRsp s inst 2 0x11 [0x80]
  else
    let st := byteOf (sensorState s id)
    if id = pdrPower then
      let (p, s) := s.freeBits 32
      pldmRsp s inst 2 0x11 ([0x00, 4, 0, 0, st, st, st] ++ leBytes 4 p)
    else
      let v := if id ≤ 64 then s.rd R.REV_TEMP.FILT [id - 1] else if id = 65 then bits16 (deviceTemp s)
        else s.rd R.REV_VOLT.FILT [id - pdrVolt 0]
      pldmRsp s inst 2 0x11 ([0x00, if id ≤ 65 then 3 else 2, 0, 0, st, st, st] ++ leBytes 2 v)

/-- GetStateSensorReadings. -/
def getStates (s : State) (inst : BitVec 5) (id : Nat) : State :=
  if !isStateSensor id then pldmRsp s inst 2 0x21 [0x80]
  else
    let v := byteOf (if id = pdrPwrState then pwrSt s else if id = pdrTstate then s.rd R.REV_STATUS.TSTATE [] else faultState s)
    pldmRsp s inst 2 0x21 [0x00, 1, 0, v, v, v]

/-- SetEventReceiver: 0 disables, 1 enables events to an EID over MCTP. The event of a Bellman record found at POR or COLD
goes out once a receiver is registered (R598, R604). -/
def setReceiver (s : State) (inst : BitVec 5) (enable proto eid : Nat) : State :=
  if proto ≠ 0 then pldmRsp s inst 2 0x04 [0x80]
  else if 1 < enable then pldmRsp s inst 2 0x04 [0x81]
  else
    let s := pldmRsp { s with rev := { s.rev with evRecv := if enable = 1 then some eid else none } } inst 2 0x04 [0x00]
    if enable = 1 && s.rev.causeEvent then
      stateEvent { s with rev := { s.rev with causeEvent := false } } pdrFault (faultState s) (faultState s)
    else s

/-! ## Vendor messages -/

/-- R599: the reply to a vendor message: the vendor, the command, a status byte, and data. -/
def vdmRsp (s : State) (id : Option (BitVec 32)) (cmd status : Nat) (b : Bytes) : State :=
  mctpSend s id 0x7E ([0xAC, 0x4E, byteOf cmd, byteOf status] ++ b)

/-- R599: a command that needs a session. -/
def vdmSession (s : State) (id : Option (BitVec 32)) (cmd : Nat) (f : State → State) : State :=
  if inSession s id then f (vdmRsp s id cmd 0 []) else vdmRsp s id cmd 2 []

/-- R605: entry `i` of the fault log. -/
def logBytes (s : State) (i : Nat) : Bytes := (List.range 4).flatMap (fun w => leBytes 4 (s.rd R.REV_LOG.ENTRY [i % 256, w]))

/-- R599, R604: the sixteen Bellman records, newest first; a place that holds none is zero. -/
def causeBytes (s : State) : Bytes :=
  (List.range 16).flatMap (fun i => slice (s.rev.records.reverse.getD i []) 0 16)

end Sys2Proof.Machine
end

