-- ==== Sys2Proof/Machine/Mctp.lean ====
section
/-! DEFINITION. The meanings of the MCTP control, PLDM and vendor messages the Reeve answers (R597 to R599). `inst` is the
instance number of the request. -/

namespace Sys2Proof.Machine

open Sys2Proof

/-- SET_ENDPOINT_ID (R597): the operation, and the EID. -/
def execSetEndpointId (inst : BitVec 5) (op : BitVec 2) (eid : BitVec 8) (s : State) : Ans :=
  byFirmware s fun s => .next (setEid s inst op.toNat eid.toNat)

/-- GET_ENDPOINT_ID (R597). -/
def execGetEndpointId (inst : BitVec 5) (s : State) : Ans := byFirmware s fun s => .next (getEid s inst)

/-- GET_MCTP_VERSION_SUPPORT (R597): of a message type. -/
def execGetMctpVersionSupport (inst : BitVec 5) (ty : BitVec 8) (s : State) : Ans :=
  byFirmware s fun s => .next (getMctpVersion s inst ty)

/-- GET_MESSAGE_TYPE_SUPPORT (R597). -/
def execGetMessageTypeSupport (inst : BitVec 5) (s : State) : Ans := byFirmware s fun s => .next (getMsgTypes s inst)

/-- GET_VENDOR_DEFINED_MESSAGE_SUPPORT (R597): of a selector. -/
def execGetVendorDefinedMessageSupport (inst : BitVec 5) (sel : BitVec 8) (s : State) : Ans :=
  byFirmware s fun s => .next (getVendor s inst sel.toNat)

/-- GETTID (R597). -/
def execGettid (inst : BitVec 5) (s : State) : Ans := byFirmware s fun s => .next (getTid s inst)

/-- GETPLDMVERSION (R597): the transfer operation flag, and the type asked about. -/
def execGetpldmversion (inst : BitVec 5) (flag ty : BitVec 8) (s : State) : Ans :=
  byFirmware s fun s => .next (getPldmVersion s inst flag.toNat ty.toNat)

/-- GETPLDMTYPES (R597). -/
def execGetpldmtypes (inst : BitVec 5) (s : State) : Ans := byFirmware s fun s => .next (getPldmTypes s inst)

/-- GETPLDMCOMMANDS (R597): of a type. -/
def execGetpldmcommands (inst : BitVec 5) (ty : BitVec 8) (s : State) : Ans :=
  byFirmware s fun s => .next (getPldmCommands s inst ty.toNat)

/-- GETPDRREPOSITORYINFO (R598). -/
def execGetpdrrepositoryinfo (inst : BitVec 5) (s : State) : Ans := byFirmware s fun s => .next (getPdrInfo s inst)

/-- GETPDR (R598): record handle, data transfer handle, transfer operation flag, request count. -/
def execGetpdr (inst : BitVec 5) (handle part : BitVec 32) (flag : BitVec 8) (count : BitVec 16) (s : State) : Ans :=
  byFirmware s fun s => .next (getPdr s inst handle.toNat part.toNat flag.toNat count.toNat)

/-- GETSENSORREADING (R598): of a sensor number. -/
def execGetsensorreading (inst : BitVec 5) (id : BitVec 16) (s : State) : Ans :=
  byFirmware s fun s => .next (getReading s inst id.toNat)

/-- GETSTATESENSORREADINGS (R598): of a sensor number. -/
def execGetstatesensorreadings (inst : BitVec 5) (id : BitVec 16) (s : State) : Ans :=
  byFirmware s fun s => .next (getStates s inst id.toNat)

/-- SETEVENTRECEIVER (R598): enable, transport, and EID of the receiver. -/
def execSeteventreceiver (inst : BitVec 5) (enable proto eid : BitVec 8) (s : State) : Ans :=
  byFirmware s fun s => .next (setReceiver s inst enable.toNat proto.toNat eid.toNat)

/-- MCTP_WAKE (R599): wake source 5. -/
def execMctpWake (sess : Option (BitVec 32)) (s : State) : Ans :=
  byFirmware s fun s => .next (wake (vdmRsp s sess 0x01 0 []) 5)

/-- MCTP_WARM (R599). -/
def execMctpWarm (sess : Option (BitVec 32)) (s : State) : Ans :=
  byFirmware s fun s => .next (vdmSession s sess 0x02 fun s => warmReset s 2)

/-- MCTP_COLD (R599). -/
def execMctpCold (sess : Option (BitVec 32)) (s : State) : Ans :=
  byFirmware s fun s => .next (vdmSession s sess 0x03 fun s => coldReset s false 2 2)

/-- READ_LOG (R599): sixteen entries of the fault log from an index. -/
def execReadLog (sess : Option (BitVec 32)) (start : BitVec 8) (s : State) : Ans :=
  byFirmware s fun s => .next (vdmRsp s sess 0x04 0 ((List.range 16).flatMap fun i => logBytes s (start.toNat + i)))

/-- READ_CAUSE (R599). -/
def execReadCause (sess : Option (BitVec 32)) (s : State) : Ans :=
  byFirmware s fun s => .next (vdmRsp s sess 0x05 0 (causeBytes s))

end Sys2Proof.Machine
end

