-- ==== Sys2Proof/Machine/Nvme.lean ====
section
/-! DEFINITION. Commands of hosts to the emulated NVMe controllers (R395 to R407). Controller k below 8 is the function
controller of attach point k; k from 8 up is the controller of instance k − 8. -/

namespace Sys2Proof.Machine

open Sys2Proof

/-- SQ_DOORBELL (R395). -/
def execSqDoorbell (k : Fin 16392) (q : Fin 65) (v : Fin 65536) (s : State) : Ans := fromHost s fun s =>
  .next (if ctlExists s k.val then sqBell s k.val q.val v.val else s)

/-- CQ_DOORBELL (R395). -/
def execCqDoorbell (k : Fin 16392) (q : Fin 65) (v : Fin 65536) (s : State) : Ans := fromHost s fun s =>
  .next (if ctlExists s k.val then cqBell s k.val q.val v.val else s)

/-- NVM_WRITE (R403): `x` brings the command, and its PRP list where it has one; `data` the host's data. -/
def execNvmWrite (k : Fin 16392) (q : Fin 65) (x : RdRes × RdRes) (data : RdRes) (h : NvHap) (s : State) : Ans := whenUp s fun s =>
  .next (if q.val = 0 then s else nvWrite s k.val q.val x.1 x.2 data h)

/-- NVM_READ (R404): `list` brings the PRP list where the transfer has one. -/
def execNvmRead (k : Fin 16392) (q : Fin 65) (x list : RdRes) (h : NvHap) (s : State) : Ans := whenUp s fun s =>
  .next (if q.val = 0 then s else nvRead s k.val q.val x list h)

/-- WRITE_ZEROES (R404). -/
def execWriteZeroes (k : Fin 16392) (q : Fin 65) (x : RdRes) (h : NvHap) (s : State) : Ans := whenUp s fun s =>
  .next (if q.val = 0 then s else nvZeroes s k.val q.val x h)

/-- DATASET_MANAGEMENT (R404): `data` brings the ranges. -/
def execDatasetManagement (k : Fin 16392) (q : Fin 65) (x data : RdRes) (s : State) : Ans := whenUp s fun s =>
  .next (if q.val = 0 then s else nvDsm s k.val q.val x data)

/-- NVM_FLUSH (R404). -/
def execNvmFlush (k : Fin 16392) (q : Fin 65) (x : RdRes) (s : State) : Ans := whenUp s fun s =>
  .next (if q.val = 0 then s else nvFlush s k.val q.val x)

/-- CREATE_IO_SQ (R396). -/
def execCreateIoSq (k : Fin 16392) (x : RdRes) (s : State) : Ans := whenUp s fun s =>
  .next (adminPlain s k.val 0x01 x (fun s b => createSq s k.val b))

/-- DELETE_IO_SQ (R396). -/
def execDeleteIoSq (k : Fin 16392) (x : RdRes) (s : State) : Ans := whenUp s fun s =>
  .next (adminPlain s k.val 0x00 x (fun s b => deleteSq s k.val b))

/-- CREATE_IO_CQ (R396). -/
def execCreateIoCq (k : Fin 16392) (x : RdRes) (s : State) : Ans := whenUp s fun s =>
  .next (adminPlain s k.val 0x05 x (fun s b => createCq s k.val b))

/-- DELETE_IO_CQ (R396). -/
def execDeleteIoCq (k : Fin 16392) (x : RdRes) (s : State) : Ans := whenUp s fun s =>
  .next (adminPlain s k.val 0x04 x (fun s b => deleteCq s k.val b))

/-- GET_LOG_PAGE (R396, R406). -/
def execGetLogPage (k : Fin 16392) (x list : RdRes) (h : NvHap) (s : State) : Ans := whenUp s fun s =>
  .next (adminData s k.val 0x02 x list h (fun s b => getLog s k.val b))

/-- IDENTIFY (R396, R397). -/
def execIdentify (k : Fin 16392) (x : RdRes) (h : NvHap) (s : State) : Ans := whenUp s fun s =>
  .next (adminData s k.val 0x06 x .ur h (fun s b => identify s k.val b))

/-- ABORT (R396). -/
def execAbort (k : Fin 16392) (x : RdRes) (s : State) : Ans := whenUp s fun s =>
  .next (nvAbort s k.val x)

/-- SET_FEATURES (R396). -/
def execSetFeatures (k : Fin 16392) (x : RdRes) (s : State) : Ans := whenUp s fun s =>
  .next (nvFetch s k.val 0 0x09 x (fun s b => let (s, st, v) := setFeature s k.val b; nvDone s k.val 0 b st v))

/-- GET_FEATURES (R396). -/
def execGetFeatures (k : Fin 16392) (x : RdRes) (s : State) : Ans := whenUp s fun s =>
  .next (nvFetch s k.val 0 0x0A x (fun s b => nvDone s k.val 0 b (getFeature s k.val b).1 (getFeature s k.val b).2))

/-- ASYNCHRONOUS_EVENT_REQUEST (R396, R405): held until there is an event; AERL 3 allows four. -/
def execAsynchronousEventRequest (k : Fin 16392) (x : RdRes) (s : State) : Ans := whenUp s fun s =>
  .next (nvFetch s k.val 0 0x0C x (fun s b =>
    if (ctlGet s k.val).aers.length ≥ 4 then nvDone s k.val 0 b nsAerLimit 0
    else eventPump (ctlMod s k.val (fun c => { c with aers := c.aers ++ [sqeCid b] })) k.val))

/-- CC_WRITE (R407). -/
def execCcWrite (k : Fin 16392) (v : Fin 4294967296) (s : State) : Ans := fromHost s fun s =>
  .next (ccWrite s k.val v.val)

/-- LEG_COMPLETE (R402 to R404): the oldest operation on a leg that has ended is taken up. -/
def execLegComplete (h : NvHap) (s : State) : Ans := whenUp s fun s =>
  .next (legComplete s h)

/-- INTERRUPT_COALESCING_EXPIRY (R396): the aggregation time of a completion queue, in units of 100 µs since the first entry, runs
out. -/
def execInterruptCoalescingExpiry (k : Fin 16392) (q : Fin 65) (s : State) : Ans := whenUp s fun s =>
  .next (match SMap.find? (ctlGet s k.val).cqs q.val with
    | some y => 
      if y.held = 0 then s
      else cqIntr (clockTo s (y.heldAt + bits (featGet (ctlGet s k.val) 8) 8 8 * 1000000)) k.val q.val
    | none => s)

end Sys2Proof.Machine
end

