-- ==== Sys2Proof/Machine/Registers.lean ====
section
/-! DEFINITION. The commands that read and write registers of the control window, and those of the DBGREG instruction of the
JTAG TAP (R14, R631, R632, R660 to R672). Where a field's write has a row of its own, that row's meaning and REGISTER_WRITE
come to the same operation.
Log entries 141. -/

namespace Sys2Proof.Machine

open Sys2Proof

/-- R660 to R663: a write by a domain at window offset `a`, a multiple of 4. -/
def winWrite (s : State) (m : MDom) (a : Nat) (x : RegVal) : State :=
  match x with
  | .w4 v => wordWrite s m a v.toNat
  | .w8 v => wordsWrite s m a 2 v.toNat
  | .part be v =>
    if be = 15#4 then wordWrite s m a v.toNat
    else match m with
    | .owner => accessErr s m 2 a
    | _ => s.emit .accessFault

/-- REGISTER_WRITE (R14, R660 to R663, R671): the word at offset 4a. -/
def execRegisterWrite (m : MDom) (a : Fin 67108864) (x : RegVal) (s : State) : Ans :=
  fromDomain s m fun s => .next (winWrite s m (4 * a.val) x)

/-- RC_READ (R667): a read by a domain of the word at offset 4a, or of two words. While the Bellman is in control a debug read
returns 0 (R669). -/
def execRcRead (m : MDom) (a : Fin 67108864) (wide : Bool) (s : State) : Ans :=
  if bellman s && m = .debug then .next (s.emit (.data 0))
  else fromDomain s m fun s =>
    let (v, s) := wordsRead s m (4 * a.val) (if wide then 2 else 1)
    .next (s.emit (.data v))

/-- LOCK_ALL (R672). -/
def execLockAll (m : MDom) (s : State) : Ans :=
  fromDomain s m fun s => .next (wordWrite s m 0x20 1)

/-- R632: whether DBGREG reaches a word of DBG now. -/
def dbgReaches (s : State) (w : Nat) : Bool :=
  anyUnlocked s || w == 0 || w == 4 || (8 ≤ w && w < 20) || 1024 ≤ w

/-- R632: what Capture-DR finds after an operation. -/
def dbgResult (s : State) (st w : Nat) (d : Option Nat) : State :=
  { s with trust := { s.trust with regStatus := st, regWord := w, regData := d.getD s.trust.regData } }

/-- DBGREG_READ (R632). -/
def execDbgregRead (w : Fin 2048) (s : State) : Ans :=
  if s.pwr.dark then .next s
  else if bellman s then .next ((dbgResult s 0 w (some 0)).emit (.data 0))
  else if !dbgReaches s w then .next ((dbgResult s 2 w (some 0)).emit (.data 0))
  else
    let (v, s) := wordRead s .debug (0x0F000000 + 4 * w.val)
    .next ((dbgResult s 0 w (some v)).emit (.data v))

/-- DBGREG_WRITE (R632, R635). -/
def execDbgregWrite (w : Fin 2048) (v : BitVec 32) (s : State) : Ans :=
  if s.pwr.dark then .next s
  else if bellman s then .next (dbgResult s 0 w none)
  else if !dbgReaches s w then .next (dbgResult s 2 w none)
  else .next (dbgResult (wordWrite s .debug (0x0F000000 + 4 * w.val) v.toNat) 0 w none)

end Sys2Proof.Machine
end

