-- ==== Sys2Proof/Machine/RvDecode.lean ====
section
/-! DEFINITION. The fields and immediates of the RISC-V instruction words of R492, and the expansion of the compressed ones.
PRESUMED from the RISC-V Unprivileged Architecture 20211203, which R492 names without its text. -/

namespace Sys2Proof.Machine

open Sys2Proof

def rvOp (w : Nat) : Nat := bits w 0 7
def rvRd (w : Nat) : Nat := bits w 7 5
def rvF3 (w : Nat) : Nat := bits w 12 3
def rvRs1 (w : Nat) : Nat := bits w 15 5
def rvRs2 (w : Nat) : Nat := bits w 20 5
def rvF7 (w : Nat) : Nat := bits w 25 7

/-- Sign extension of the low `w` bits to 64. -/
def sx (w v : Nat) : Nat := ofSigned 64 (toSigned w v)

/-- The immediates, sign-extended to 64 bits. -/
def immI (w : Nat) : Nat := sx 12 (bits w 20 12)
def immS (w : Nat) : Nat := sx 12 (bits w 7 5 + bits w 25 7 * 32)
def immB (w : Nat) : Nat := sx 13 (bits w 8 4 * 2 + bits w 25 6 * 32 + bits w 7 1 * 2048 + bits w 31 1 * 4096)
def immU (w : Nat) : Nat := sx 32 (bits w 12 20 * 4096)
def immJ (w : Nat) : Nat := sx 21 (bits w 21 10 * 2 + bits w 20 1 * 2048 + bits w 12 8 * 4096 + bits w 31 1 * 2 ^ 20)

/-! ## Building the 32-bit word that a compressed one stands for -/

def mkR (op rd f3 rs1 rs2 f7 : Nat) : Nat :=
  op + rd * 2 ^ 7 + f3 * 2 ^ 12 + rs1 * 2 ^ 15 + rs2 * 2 ^ 20 + f7 * 2 ^ 25
def mkI (op rd f3 rs1 imm : Nat) : Nat := op + rd * 2 ^ 7 + f3 * 2 ^ 12 + rs1 * 2 ^ 15 + imm % 2 ^ 12 * 2 ^ 20
def mkS (op f3 rs1 rs2 imm : Nat) : Nat := mkR op (bits imm 0 5) f3 rs1 rs2 (bits imm 5 7)
def mkB (f3 rs1 rs2 imm : Nat) : Nat :=
  mkR 0x63 (bits imm 11 1 + bits imm 1 4 * 2) f3 rs1 rs2 (bits imm 5 6 + bits imm 12 1 * 64)
def mkJ (rd imm : Nat) : Nat :=
  0x6F + rd * 2 ^ 7 + bits imm 12 8 * 2 ^ 12 + bits imm 11 1 * 2 ^ 20 + bits imm 1 10 * 2 ^ 21 + bits imm 20 1 * 2 ^ 31

/-- The 6-bit immediate of the CI format, sign-extended. -/
def cImm (w : Nat) : Nat := sx 6 (bits w 2 5 + bits w 12 1 * 32)
/-- The jump offset of C.J and the branch offset of C.BEQZ. -/
def cImmJ (w : Nat) : Nat :=
  sx 12 (bits w 3 3 * 2 + bits w 11 1 * 16 + bits w 2 1 * 32 + bits w 7 1 * 64 + bits w 6 1 * 128 + bits w 9 2 * 256
    + bits w 8 1 * 1024 + bits w 12 1 * 2048)
def cImmB (w : Nat) : Nat :=
  sx 9 (bits w 3 2 * 2 + bits w 10 2 * 8 + bits w 2 1 * 32 + bits w 5 2 * 64 + bits w 12 1 * 256)
/-- Offsets of the word and doubleword forms. -/
def cOffW (w : Nat) : Nat := bits w 6 1 * 4 + bits w 10 3 * 8 + bits w 5 1 * 64
def cOffD (w : Nat) : Nat := bits w 10 3 * 8 + bits w 5 2 * 64

/-- Quadrant 0. -/
def expand0 (w : Nat) : Option Nat :=
  let r1 := 8 + bits w 7 3
  let r2 := 8 + bits w 2 3
  match bits w 13 3 with
  | 0 =>
    let imm := bits w 11 2 * 16 + bits w 7 4 * 64 + bits w 6 1 * 4 + bits w 5 1 * 8
    if imm = 0 then none else some (mkI 0x13 r2 0 2 imm)
  | 1 => some (mkI 0x07 r2 3 r1 (cOffD w))
  | 2 => some (mkI 0x03 r2 2 r1 (cOffW w))
  | 3 => some (mkI 0x03 r2 3 r1 (cOffD w))
  | 5 => some (mkS 0x27 3 r1 r2 (cOffD w))
  | 6 => some (mkS 0x23 2 r1 r2 (cOffW w))
  | 7 => some (mkS 0x23 3 r1 r2 (cOffD w))
  | _ => none

/-- Quadrant 1. -/
def expand1 (w : Nat) : Option Nat :=
  let rd := bits w 7 5
  let r1 := 8 + bits w 7 3
  let r2 := 8 + bits w 2 3
  let sh := bits w 2 5 + bits w 12 1 * 32
  match bits w 13 3 with
  | 0 => some (mkI 0x13 rd 0 rd (cImm w))
  | 1 => if rd = 0 then none else some (mkI 0x1B rd 0 rd (cImm w))
  | 2 => some (mkI 0x13 rd 0 0 (cImm w))
  | 3 =>
    if sh = 0 then none
    else if rd = 2 then
      let imm := bits w 6 1 * 16 + bits w 2 1 * 32 + bits w 5 1 * 64 + bits w 3 2 * 128 + bits w 12 1 * 512
      some (mkI 0x13 2 0 2 (sx 10 imm))
    else some (0x37 + rd * 2 ^ 7 + bits (cImm w) 0 20 * 2 ^ 12)
  | 4 =>
    match bits w 10 2 with
    | 0 => some (mkI 0x13 r1 5 r1 sh)
    | 1 => some (mkI 0x13 r1 5 r1 (sh + 0x400))
    | 2 => some (mkI 0x13 r1 7 r1 (cImm w))
    | _ =>
      match bits w 12 1, bits w 5 2 with
      | 0, 0 => some (mkR 0x33 r1 0 r1 r2 0x20)
      | 0, 1 => some (mkR 0x33 r1 4 r1 r2 0)
      | 0, 2 => some (mkR 0x33 r1 6 r1 r2 0)
      | 0, _ => some (mkR 0x33 r1 7 r1 r2 0)
      | _, 0 => some (mkR 0x3B r1 0 r1 r2 0x20)
      | _, 1 => some (mkR 0x3B r1 0 r1 r2 0)
      | _, _ => none
  | 5 => some (mkJ 0 (cImmJ w))
  | 6 => some (mkB 0 r1 0 (cImmB w))
  | _ => some (mkB 1 r1 0 (cImmB w))

/-- Quadrant 2. -/
def expand2 (w : Nat) : Option Nat :=
  let rd := bits w 7 5
  let r2 := bits w 2 5
  let offD := bits w 5 2 * 8 + bits w 12 1 * 32 + bits w 2 3 * 64
  let offW := bits w 4 3 * 4 + bits w 12 1 * 32 + bits w 2 2 * 64
  match bits w 13 3 with
  | 0 => some (mkI 0x13 rd 1 rd (r2 + bits w 12 1 * 32))
  | 1 => some (mkI 0x07 rd 3 2 offD)
  | 2 => if rd = 0 then none else some (mkI 0x03 rd 2 2 offW)
  | 3 => if rd = 0 then none else some (mkI 0x03 rd 3 2 offD)
  | 4 =>
    if bits w 12 1 = 0 then
      if r2 ≠ 0 then some (mkR 0x33 rd 0 0 r2 0)
      else if rd = 0 then none else some (mkI 0x67 0 0 rd 0)
    else if r2 ≠ 0 then some (mkR 0x33 rd 0 rd r2 0)
    else if rd = 0 then some 0x00100073 else some (mkI 0x67 1 0 rd 0)
  | 5 => some (mkS 0x27 3 2 r2 (bits w 10 3 * 8 + bits w 7 3 * 64))
  | 6 => some (mkS 0x23 2 2 r2 (bits w 9 4 * 4 + bits w 7 2 * 64))
  | _ => some (mkS 0x23 3 2 r2 (bits w 10 3 * 8 + bits w 7 3 * 64))

/-- The length of the instruction a fetched word starts with, and the 32-bit word it stands for; none for a reserved one. -/
def rvExpand (w : Nat) : Nat × Option Nat :=
  match w % 4 with
  | 0 => (2, expand0 (w % 65536))
  | 1 => (2, expand1 (w % 65536))
  | 2 => (2, expand2 (w % 65536))
  | _ => (4, some (w % 2 ^ 32))

end Sys2Proof.Machine
end

