-- ==== Sys2Proof/Machine/RvAlu.lean ====
section
/-! DEFINITION. Integer arithmetic of I, M, Zba, Zbb, Zbs and Zicond (R492), on values below 2^64. PRESUMED from the RISC-V
Unprivileged Architecture 20211203 and its bit-manipulation and conditional extensions, which R492 names. -/

namespace Sys2Proof.Machine

open Sys2Proof

def lt64 (a b : Nat) : Bool := decide (toSigned 64 a < toSigned 64 b)

/-- Leading zeros of a value below 2^n; trailing zeros; ones. -/
def clzN (n v : Nat) : Nat := if v = 0 then n else n - 1 - Nat.log2 v
def ctzN (n v : Nat) : Nat := match n with
  | 0 => 0
  | n + 1 => if v % 2 = 1 then 0 else 1 + ctzN n (v / 2)
def cpopN (n v : Nat) : Nat := match n with
  | 0 => 0
  | n + 1 => v % 2 + cpopN n (v / 2)

/-- Rotation left of `w` bits. -/
def rolN (w a k : Nat) : Nat := let k := k % w; (a * 2 ^ k + a / 2 ^ (w - k)) % 2 ^ w
def rorN (w a k : Nat) : Nat := rolN w a (w - k % w)

/-- Arithmetic shift right of `w` bits, sign-extended to 64. -/
def sraN (w a k : Nat) : Nat := ofSigned 64 (toSigned w a / ((2 ^ k : Nat) : Int))

/-- ORC.B and REV8. -/
def orcB (a : Nat) : Nat := (List.range 8).foldl (fun x i => if bits a (8 * i) 8 = 0 then x else x + 255 * 2 ^ (8 * i)) 0
def rev8 (a : Nat) : Nat := (List.range 8).foldl (fun x i => x + bits a (8 * i) 8 * 2 ^ (56 - 8 * i)) 0

/-- Signed division and remainder of `w` bits, with the results for a zero divisor and for overflow. -/
def divS (w a b : Nat) : Nat :=
  if b % 2 ^ w = 0 then 2 ^ 64 - 1 else ofSigned 64 (toSigned w (ofSigned w (Int.tdiv (toSigned w a) (toSigned w b))))
def remS (w a b : Nat) : Nat :=
  if b % 2 ^ w = 0 then sx w a else ofSigned 64 (Int.tmod (toSigned w a) (toSigned w b))
def divU (w a b : Nat) : Nat := if b % 2 ^ w = 0 then 2 ^ 64 - 1 else sx w (a % 2 ^ w / (b % 2 ^ w))
def remU (w a b : Nat) : Nat := if b % 2 ^ w = 0 then sx w a else sx w (a % 2 ^ w % (b % 2 ^ w))

/-- OP: the register forms of 64 bits. -/
def aluOp (f7 f3 a b : Nat) : Option Nat :=
  let k := b % 64
  match f7, f3 with
  | 0x00, 0 => some (a + b)
  | 0x20, 0 => some (a + 2 ^ 64 - b)
  | 0x00, 1 => some (a * 2 ^ k)
  | 0x00, 2 => some (b2n (lt64 a b))
  | 0x00, 3 => some (b2n (decide (a < b)))
  | 0x00, 4 => some (a ^^^ b)
  | 0x00, 5 => some (a / 2 ^ k)
  | 0x20, 5 => some (sraN 64 a k)
  | 0x00, 6 => some (a ||| b)
  | 0x00, 7 => some (a &&& b)
  | 0x01, 0 => some (a * b)
  | 0x01, 1 => some (ofSigned 64 (toSigned 64 a * toSigned 64 b / ((2 ^ 64 : Nat) : Int)))
  | 0x01, 2 => some (ofSigned 64 (toSigned 64 a * (b : Int) / ((2 ^ 64 : Nat) : Int)))
  | 0x01, 3 => some (a * b / 2 ^ 64)
  | 0x01, 4 => some (divS 64 a b)
  | 0x01, 5 => some (divU 64 a b)
  | 0x01, 6 => some (remS 64 a b)
  | 0x01, 7 => some (remU 64 a b)
  | 0x10, 2 => some (a * 2 + b)
  | 0x10, 4 => some (a * 4 + b)
  | 0x10, 6 => some (a * 8 + b)
  | 0x20, 7 => some (a &&& (2 ^ 64 - 1 - b))
  | 0x20, 6 => some (a ||| (2 ^ 64 - 1 - b))
  | 0x20, 4 => some (2 ^ 64 - 1 - (a ^^^ b))
  | 0x05, 4 => some (if lt64 a b then a else b)
  | 0x05, 5 => some (min a b)
  | 0x05, 6 => some (if lt64 a b then b else a)
  | 0x05, 7 => some (max a b)
  | 0x30, 1 => some (rolN 64 a k)
  | 0x30, 5 => some (rorN 64 a k)
  | 0x24, 1 => some (setBit a k false)
  | 0x24, 5 => some (b2n (bit a k))
  | 0x34, 1 => some (setBit a k (!bit a k))
  | 0x14, 1 => some (setBit a k true)
  | 0x07, 5 => some (if b = 0 then 0 else a)
  | 0x07, 7 => some (if b = 0 then a else 0)
  | _, _ => none

/-- OP-32: the register forms of 32 bits; `rs2` tells ZEXT.H. -/
def aluOpW (f7 f3 rs2 a b : Nat) : Option Nat :=
  let k := b % 32
  match f7, f3 with
  | 0x00, 0 => some (sx 32 (a + b))
  | 0x20, 0 => some (sx 32 (a + 2 ^ 64 - b))
  | 0x00, 1 => some (sx 32 (a * 2 ^ k))
  | 0x00, 5 => some (sx 32 (a % 2 ^ 32 / 2 ^ k))
  | 0x20, 5 => some (sraN 32 a k)
  | 0x01, 0 => some (sx 32 (a * b))
  | 0x01, 4 => some (divS 32 a b)
  | 0x01, 5 => some (divU 32 a b)
  | 0x01, 6 => some (remS 32 a b)
  | 0x01, 7 => some (remU 32 a b)
  | 0x04, 0 => some (a % 2 ^ 32 + b)
  | 0x04, 4 => if rs2 = 0 then some (a % 65536) else none
  | 0x10, 2 => some (a % 2 ^ 32 * 2 + b)
  | 0x10, 4 => some (a % 2 ^ 32 * 4 + b)
  | 0x10, 6 => some (a % 2 ^ 32 * 8 + b)
  | 0x30, 1 => some (sx 32 (rolN 32 (a % 2 ^ 32) k))
  | 0x30, 5 => some (sx 32 (rorN 32 (a % 2 ^ 32) k))
  | _, _ => none

/-- OP-IMM; `i` is the 12-bit immediate field, `imm` its sign extension. -/
def aluImm (f3 i imm a : Nat) : Option Nat :=
  let f6 := i / 64
  let k := i % 64
  match f3 with
  | 0 => some (a + imm)
  | 2 => some (b2n (lt64 a imm))
  | 3 => some (b2n (decide (a < imm)))
  | 4 => some (a ^^^ imm)
  | 6 => some (a ||| imm)
  | 7 => some (a &&& imm)
  | 1 =>
    match f6 with
    | 0x00 => some (a * 2 ^ k)
    | 0x12 => some (setBit a k false)
    | 0x1A => some (setBit a k (!bit a k))
    | 0x0A => some (setBit a k true)
    | 0x18 =>
      match k with
      | 0 => some (clzN 64 a)
      | 1 => some (ctzN 64 a)
      | 2 => some (cpopN 64 a)
      | 4 => some (sx 8 a)
      | 5 => some (sx 16 a)
      | _ => none
    | _ => none
  | _ =>
    match f6 with
    | 0x00 => some (a / 2 ^ k)
    | 0x10 => some (sraN 64 a k)
    | 0x12 => some (b2n (bit a k))
    | 0x18 => some (rorN 64 a k)
    | 0x0A => if k = 7 then some (orcB a) else none
    | 0x1A => if k = 0x38 then some (rev8 a) else none
    | _ => none

/-- OP-IMM-32. -/
def aluImmW (f3 i imm a : Nat) : Option Nat :=
  let f7 := i / 32
  let k := i % 32
  match f3 with
  | 0 => some (sx 32 (a + imm))
  | 1 =>
    if f7 / 2 = 0x02 then some (a % 2 ^ 32 * 2 ^ (i % 64))
    else match f7 with
    | 0x00 => some (sx 32 (a * 2 ^ k))
    | 0x30 =>
      match k with
      | 0 => some (clzN 32 (a % 2 ^ 32))
      | 1 => some (ctzN 32 (a % 2 ^ 32))
      | 2 => some (cpopN 32 (a % 2 ^ 32))
      | _ => none
    | _ => none
  | 5 =>
    match f7 with
    | 0x00 => some (sx 32 (a % 2 ^ 32 / 2 ^ k))
    | 0x20 => some (sraN 32 a k)
    | 0x30 => some (sx 32 (rorN 32 (a % 2 ^ 32) k))
    | _ => none
  | _ => none

end Sys2Proof.Machine
end

