-- ==== Sys2Proof/Machine/RvFloat.lean ====
section
/-! DEFINITION. IEEE 754 binary32 and binary64 arithmetic as the F and D extensions of R492 use it: exact values rounded once,
the five rounding modes, the exception flags, the canonical NaN, tininess after rounding. PRESUMED from the RISC-V
Unprivileged Architecture 20211203 and IEEE 754, which R492 names without giving their text. -/

namespace Sys2Proof.Machine

open Sys2Proof

/-- A binary format: exponent bits, fraction bits. -/
structure Fmt where
  eb : Nat
  mb : Nat
deriving DecidableEq, Repr

def fmtS : Fmt := { eb := 8, mb := 23 }
def fmtD : Fmt := { eb := 11, mb := 52 }

def Fmt.bias (f : Fmt) : Nat := 2 ^ (f.eb - 1) - 1
def Fmt.width (f : Fmt) : Nat := f.eb + f.mb + 1
/-- The exponent of the last place of subnormal numbers. -/
def Fmt.emin (f : Fmt) : Int := 1 - (f.bias : Int) - (f.mb : Int)

/-- A floating-point datum: a finite one is m × 2^e. -/
inductive FVal where
  | nan (signaling : Bool)
  | inf (neg : Bool)
  | fin (neg : Bool) (m : Nat) (e : Int)
deriving DecidableEq, Repr

/-- Exception flags of fcsr. -/
def fNV : Nat := 16
def fDZ : Nat := 8
def fOF : Nat := 4
def fUF : Nat := 2
def fNX : Nat := 1

def fpUnpack (f : Fmt) (b : Nat) : FVal :=
  let neg := bit b (f.eb + f.mb)
  let ex := bits b f.mb f.eb
  let fr := bits b 0 f.mb
  if ex = 2 ^ f.eb - 1 then (if fr = 0 then .inf neg else .nan (!bit b (f.mb - 1)))
  else if ex = 0 then .fin neg fr f.emin
  else .fin neg (2 ^ f.mb + fr) (f.emin + (ex : Int) - 1)

def fpNan (f : Fmt) : Nat := (2 ^ f.eb - 1) * 2 ^ f.mb + 2 ^ (f.mb - 1)
def fpSign (f : Fmt) (neg : Bool) : Nat := if neg then 2 ^ (f.eb + f.mb) else 0
def fpInf (f : Fmt) (neg : Bool) : Nat := fpSign f neg + (2 ^ f.eb - 1) * 2 ^ f.mb
def fpZero (f : Fmt) (neg : Bool) : Nat := fpSign f neg
def fpMax (f : Fmt) (neg : Bool) : Nat := fpInf f neg - 1

/-- m × 2^e (and a little more where `sticky`) rounded to a multiple of 2^q: the multiple, and whether it is inexact. -/
def roundAt (rm : Nat) (neg : Bool) (m : Nat) (e : Int) (sticky : Bool) (q : Int) : Nat × Bool :=
  if q ≤ e then
    let up := sticky && ((rm == 2 && neg) || (rm == 3 && !neg))
    (m * 2 ^ (e - q).toNat + b2n up, sticky)
  else
    let d := (q - e).toNat
    let k := m / 2 ^ d
    let r := m % 2 ^ d
    let half := 2 ^ (d - 1)
    let inexact := r ≠ 0 || sticky
    let up := match rm with
      | 0 => decide (half < r) || (r == half && (sticky || k % 2 == 1))
      | 2 => neg && inexact
      | 3 => !neg && inexact
      | 4 => decide (half ≤ r)
      | _ => false
    (k + b2n up, inexact)

/-- A value packed into a format, with its flags. -/
def fpPack (f : Fmt) (rm : Nat) (neg : Bool) (m : Nat) (e : Int) (sticky : Bool) : Nat × Nat :=
  if m = 0 && !sticky then (fpZero f neg, 0)
  else
    let top : Int := e + (Nat.log2 m : Int)
    let q0 := top - (f.mb : Int)
    let q := max q0 f.emin
    let (k, inexact) := roundAt rm neg m e sticky q
    let (k, q) := if k = 2 ^ (f.mb + 1) then (2 ^ f.mb, q + 1) else (k, q)
    let small := decide (top < f.emin + (f.mb : Int))
    let grows := top + 1 == f.emin + (f.mb : Int) && (roundAt rm neg m e sticky q0).1 == 2 ^ (f.mb + 1)
    let uf := small && !grows && inexact
    let ex := q - f.emin + 1
    if 2 ^ f.mb ≤ k && ex > (2 ^ f.eb : Nat) - 2 then
      let big := rm == 0 || rm == 4 || (rm == 2 && neg) || (rm == 3 && !neg)
      (if big then fpInf f neg else fpMax f neg, fOF + fNX)
    else
      let b := if k < 2 ^ f.mb then k else k - 2 ^ f.mb + ex.toNat * 2 ^ f.mb
      (fpSign f neg + b, (if uf then fUF else 0) + (if inexact then fNX else 0))

/-- Whether a bit pattern is a signaling NaN, and whether it is a NaN. -/
def fpSnan (f : Fmt) (b : Nat) : Bool := fpUnpack f b == .nan true
def fpIsNan (f : Fmt) (b : Nat) : Bool := match fpUnpack f b with | .nan _ => true | _ => false

/-- The signed integer m of a finite value put on the exponent `q`, no higher than its own. -/
def fpInt (neg : Bool) (m : Nat) (e q : Int) : Int :=
  let v : Int := ((m * 2 ^ (e - q).toNat : Nat) : Int)
  if neg then -v else v

/-- A sum of two finite values packed; an exact zero of unlike signs is −0 in round-down mode only. -/
def fpSum (f : Fmt) (rm : Nat) (n1 : Bool) (m1 : Nat) (e1 : Int) (n2 : Bool) (m2 : Nat) (e2 : Int) : Nat × Nat :=
  let q := min e1 e2
  let v := fpInt n1 m1 e1 q + fpInt n2 m2 e2 q
  if v = 0 then (fpZero f (if n1 = n2 then n1 else rm == 2), 0)
  else fpPack f rm (decide (v < 0)) v.natAbs q false

def fpAdd (f : Fmt) (rm a b : Nat) : Nat × Nat :=
  let nv := if fpSnan f a || fpSnan f b then fNV else 0
  match fpUnpack f a, fpUnpack f b with
  | .nan _, _ => (fpNan f, nv)
  | _, .nan _ => (fpNan f, nv)
  | .inf x, .inf y => if x = y then (fpInf f x, 0) else (fpNan f, fNV)
  | .inf x, _ => (fpInf f x, 0)
  | _, .inf y => (fpInf f y, 0)
  | .fin n1 m1 e1, .fin n2 m2 e2 => fpSum f rm n1 m1 e1 n2 m2 e2

/-- The sign bit flipped. -/
def fpNeg (f : Fmt) (b : Nat) : Nat := setBit b (f.eb + f.mb) (!bit b (f.eb + f.mb))

def fpSub (f : Fmt) (rm a b : Nat) : Nat × Nat :=
  if fpIsNan f b then fpAdd f rm a b else fpAdd f rm a (fpNeg f b)

def fpMul (f : Fmt) (rm a b : Nat) : Nat × Nat :=
  let nv := if fpSnan f a || fpSnan f b then fNV else 0
  match fpUnpack f a, fpUnpack f b with
  | .nan _, _ => (fpNan f, nv)
  | _, .nan _ => (fpNan f, nv)
  | .inf x, .inf y => (fpInf f (x ≠ y), 0)
  | .inf x, .fin y m _ => if m = 0 then (fpNan f, fNV) else (fpInf f (x ≠ y), 0)
  | .fin x m _, .inf y => if m = 0 then (fpNan f, fNV) else (fpInf f (x ≠ y), 0)
  | .fin n1 m1 e1, .fin n2 m2 e2 => fpPack f rm (n1 ≠ n2) (m1 * m2) (e1 + e2) false

/-- a × b + c, rounded once. -/
def fpFma (f : Fmt) (rm a b c : Nat) : Nat × Nat :=
  let nv := if fpSnan f a || fpSnan f b || fpSnan f c then fNV else 0
  let add (neg : Bool) (m : Nat) (e : Int) : Nat × Nat := match fpUnpack f c with
    | .nan _ => (fpNan f, nv)
    | .inf y => (fpInf f y, 0)
    | .fin n2 m2 e2 => fpSum f rm neg m e n2 m2 e2
  let addInf (neg : Bool) : Nat × Nat := match fpUnpack f c with
    | .nan _ => (fpNan f, nv)
    | .inf y => if y = neg then (fpInf f neg, 0) else (fpNan f, fNV)
    | .fin _ _ _ => (fpInf f neg, 0)
  match fpUnpack f a, fpUnpack f b with
  | .nan _, _ => (fpNan f, nv)
  | _, .nan _ => (fpNan f, nv)
  | .inf x, .inf y => addInf (x ≠ y)
  | .inf x, .fin y m _ => if m = 0 then (fpNan f, fNV) else addInf (x ≠ y)
  | .fin x m _, .inf y => if m = 0 then (fpNan f, fNV) else addInf (x ≠ y)
  | .fin n1 m1 e1, .fin n2 m2 e2 => add (n1 ≠ n2) (m1 * m2) (e1 + e2)

def fpDiv (f : Fmt) (rm a b : Nat) : Nat × Nat :=
  let nv := if fpSnan f a || fpSnan f b then fNV else 0
  match fpUnpack f a, fpUnpack f b with
  | .nan _, _ => (fpNan f, nv)
  | _, .nan _ => (fpNan f, nv)
  | .inf _, .inf _ => (fpNan f, fNV)
  | .inf x, .fin y _ _ => (fpInf f (x ≠ y), 0)
  | .fin x _ _, .inf y => (fpZero f (x ≠ y), 0)
  | .fin n1 m1 e1, .fin n2 m2 e2 =>
    if m2 = 0 then (if m1 = 0 then (fpNan f, fNV) else (fpInf f (n1 ≠ n2), fDZ))
    else if m1 = 0 then (fpZero f (n1 ≠ n2), 0)
    else
      let k := 2 * f.mb + 8
      let n := m1 * 2 ^ k
      fpPack f rm (n1 ≠ n2) (n / m2) (e1 - e2 - (k : Int)) (n % m2 ≠ 0)

/-- The integer square root of a number below 4^n. -/
def isqrt (n v : Nat) : Nat :=
  (List.range n).foldl (fun r i =>
    let t := r + 2 ^ (n - 1 - i)
    if t * t ≤ v then t else r) 0

def fpSqrt (f : Fmt) (rm a : Nat) : Nat × Nat :=
  match fpUnpack f a with
  | .nan sg => (fpNan f, if sg then fNV else 0)
  | .inf neg => if neg then (fpNan f, fNV) else (fpInf f false, 0)
  | .fin neg m e =>
    if m = 0 then (fpZero f neg, 0)
    else if neg then (fpNan f, fNV)
    else
      let odd := e % 2 ≠ 0
      let v := (if odd then 2 * m else m) * 2 ^ (2 * (f.mb + 4))
      let r := isqrt (2 * f.mb + 8) v
      fpPack f rm false r ((e - (if odd then 1 else 0)) / 2 - ((f.mb + 4 : Nat) : Int)) (r * r ≠ v)

/-- Comparison of two data that are no NaN: −1, 0 or 1. -/
def fpCmp (a b : FVal) : Int :=
  match a, b with
  | .inf x, .inf y => if x = y then 0 else if x then -1 else 1
  | .inf x, _ => if x then -1 else 1
  | _, .inf y => if y then 1 else -1
  | .fin n1 m1 e1, .fin n2 m2 e2 =>
    let q := min e1 e2
    let x := fpInt n1 m1 e1 q
    let y := fpInt n2 m2 e2 q
    if x < y then -1 else if x = y then 0 else 1
  | _, _ => 0

/-- FLE (0), FLT (1), FEQ (2). -/
def fpRel (f : Fmt) (k a b : Nat) : Nat × Nat :=
  if fpIsNan f a || fpIsNan f b then
    (0, if k ≠ 2 || fpSnan f a || fpSnan f b then fNV else 0)
  else
    let c := fpCmp (fpUnpack f a) (fpUnpack f b)
    (b2n (match k with | 0 => decide (c ≤ 0) | 1 => decide (c < 0) | _ => c == 0), 0)

/-- FMIN (`hi` false) and FMAX. −0 counts as less than +0. -/
def fpMinMax (f : Fmt) (hi : Bool) (a b : Nat) : Nat × Nat :=
  let nv := if fpSnan f a || fpSnan f b then fNV else 0
  if fpIsNan f a && fpIsNan f b then (fpNan f, nv)
  else if fpIsNan f a then (b, nv)
  else if fpIsNan f b then (a, nv)
  else
    let c := fpCmp (fpUnpack f a) (fpUnpack f b)
    let less := if c = 0 then bit a (f.eb + f.mb) && !bit b (f.eb + f.mb) else decide (c < 0)
    (if less = hi then b else a, 0)

/-- FCLASS. -/
def fpClass (f : Fmt) (a : Nat) : Nat :=
  match fpUnpack f a with
  | .nan sg => if sg then 2 ^ 8 else 2 ^ 9
  | .inf neg => if neg then 1 else 2 ^ 7
  | .fin neg m _ =>
    if m = 0 then (if neg then 2 ^ 3 else 2 ^ 4)
    else if m < 2 ^ f.mb then (if neg then 2 ^ 2 else 2 ^ 5)
    else (if neg then 2 ^ 1 else 2 ^ 6)

/-- A value converted to an integer of `w` bits, signed or not: out of range saturates with NV; a NaN is the largest. -/
def fpToInt (f : Fmt) (rm w : Nat) (sgn : Bool) (a : Nat) : Nat × Nat :=
  let hi : Int := if sgn then ((2 ^ (w - 1) : Nat) : Int) - 1 else ((2 ^ w : Nat) : Int) - 1
  let lo : Int := if sgn then -((2 ^ (w - 1) : Nat) : Int) else 0
  match fpUnpack f a with
  | .nan _ => (ofSigned w hi, fNV)
  | .inf neg => (ofSigned w (if neg then lo else hi), fNV)
  | .fin neg m e =>
    let (k, inexact) := roundAt rm neg m e false (if e ≤ 0 then 0 else e)
    let v : Int := ((k * 2 ^ e.toNat : Nat) : Int)
    let v := if neg then -v else v
    if v > hi then (ofSigned w hi, fNV)
    else if v < lo then (ofSigned w lo, fNV)
    else (ofSigned w v, if inexact then fNX else 0)

/-- An integer converted. -/
def fpOfInt (f : Fmt) (rm : Nat) (v : Int) : Nat × Nat := fpPack f rm (decide (v < 0)) v.natAbs 0 false

/-- A value of one format converted to another. -/
def fpConvert (src dst : Fmt) (rm a : Nat) : Nat × Nat :=
  match fpUnpack src a with
  | .nan sg => (fpNan dst, if sg then fNV else 0)
  | .inf neg => (fpInf dst neg, 0)
  | .fin neg m e => fpPack dst rm neg m e false

end Sys2Proof.Machine
end

