-- ==== Sys2Proof/Machine/RvCsr.lean ====
section
/-! DEFINITION. The CSRs of a hart: which exist, who may use them, what a read gives, which bits a write changes (R492, R494,
R500, R510, R519). What R492 names without a text is PRESUMED from the RISC-V Privileged Architecture 1.12 and the Debug
Specification 1.0.
Log entries 19, 94, 95, 96, 97. -/

namespace Sys2Proof.Machine

open Sys2Proof

/-- R492: the CSRs that exist. -/
def csrKnown (n : Nat) : Bool :=
  [1, 2, 3, 0x300, 0x301, 0x304, 0x305, 0x306, 0x30A, 0x340, 0x341, 0x342, 0x343, 0x344, 0x3A0, 0x3A2,
   0xB00, 0x7A0, 0x7A1, 0x7A2, 0x7A4, 0x7C0].contains n
    || (0x3B0 ≤ n && n < 0x3C0) || (0xB02 ≤ n && n ≤ 0xB06) || (0xC00 ≤ n && n ≤ 0xC06) || (0xF11 ≤ n && n ≤ 0xF15)
    || (0x7B0 ≤ n && n ≤ 0x7B3) || (0x800 ≤ n && n ≤ 0x807) || (0xCC0 ≤ n && n ≤ 0xCC8)

/-- The FS field of mstatus. -/
def fsOf (s : State) (h : Nat) : Nat := bits (csrRaw s h csrMstatus) 13 2

/-- Whether a hart may read or write a CSR now; `dbg` in debug mode, where the hart acts as in M mode. -/
def csrOk (s : State) (h n : Nat) (wr dbg : Bool) : Bool :=
  csrKnown n && (bits n 8 2 == 0 || (hartGet s h).mmode) && !(wr && bits n 10 2 == 3)
    && (n > 3 || fsOf s h ≠ 0)
    && (!(0xC00 ≤ n && n ≤ 0xC06) || (hartGet s h).mmode || bit (csrRaw s h 0x306) (n - 0xC00))
    && (!((0x800 ≤ n && n ≤ 0x807) || (0xCC0 ≤ n && n ≤ 0xCC7)) || xelvOk s h 0)
    && (n ≠ 0xCC8 || xelvOk s h 1)
    && (!(0x7B0 ≤ n && n ≤ 0x7B3) || dbg)

/-- misa: RV64 with A, C, D, F, I, M and U (R492). -/
def misaValue : Nat := 2 * 2 ^ 62 + 2 ^ 0 + 2 ^ 2 + 2 ^ 3 + 2 ^ 5 + 2 ^ 8 + 2 ^ 12 + 2 ^ 20

/-- What pmpaddr `i` reads as with a granularity of 4 KiB. -/
def pmpAddrRead (s : State) (h i : Nat) : Nat :=
  if bit (pmpCfg s h i) 4 then pmpAddr s h i / 512 * 512 + 511 else pmpAddr s h i / 1024 * 1024

/-- What a CSR reads as. Cycles, stalls and cache misses are free values: the model has no pipeline and no cache. -/
def csrRead (s : State) (h n : Nat) : Nat × State :=
  let t := hartGet s h
  if n = 1 then (bits (csrRaw s h 3) 0 5, s)
  else if n = 2 then (bits (csrRaw s h 3) 5 3, s)
  else if n = 0x301 then (misaValue, s)
  else if n = 0x344 then (mipOf s h, s)
  else if 0x3B0 ≤ n && n < 0x3C0 then (pmpAddrRead s h (n - 0x3B0), s)
  else if n = 0xB02 || n = 0xC02 then (csrRaw s h 0xB02, s)
  else if n = 0xB04 || n = 0xC04 then (csrRaw s h 0xB04, s)
  else if n = 0xC01 then (s.mtime, s)
  else if (0xB00 ≤ n && n ≤ 0xB06) || (0xC00 ≤ n && n ≤ 0xC06) then s.freeBits 64
  else if n = 0xF11 then (w64 Config.mvendorid, s)
  else if n = 0xF12 then (w64 Config.marchid, s)
  else if n = 0xF13 then (w64 Config.mimpid, s)
  else if n = 0xF14 then (h, s)
  else if n = 0xF15 then (w64 Config.mconfigptr, s)
  else if n = 0x7A1 then (tdata1 s h (csrRaw s h 0x7A0), s)
  else if n = 0x7A2 then (tdata2 s h (csrRaw s h 0x7A0), s)
  else if n = 0x7A4 then (2 ^ 24 + 2 ^ 6, s)
  else if 0x800 ≤ n && n ≤ 0x807 then (leAt t.staging (8 * (n - 0x800)) 8, s)
  else if 0xCC0 ≤ n && n ≤ 0xCC7 then (leAt t.recv (8 * (n - 0xCC0)) 8, s)
  else if n = 0xCC8 then (pendingEv s h, s)
  else (csrRaw s h n, s)

/-- fcsr replaced; FS becomes Dirty. -/
def fcsrPut (s : State) (h v : Nat) : State :=
  let s := csrPut s h 3 (v % 256)
  csrPut s h csrMstatus (setBit (setBits (csrRaw s h csrMstatus) 13 2 3) 63 true)

/-- mstatus after a write: MIE, MPIE, MPP, FS, MPRV and TW; SD follows FS; an MPP that is no mode keeps the old one. -/
def mstatusLegal (old v : Nat) : Nat :=
  let x := 2 * 2 ^ 32 + (v &&& (2 ^ 3 + 2 ^ 7 + 3 * 2 ^ 13 + 2 ^ 17 + 2 ^ 21))
  let mpp := bits v 11 2
  let x := setBits x 11 2 (if mpp = 0 || mpp = 3 then mpp else bits old 11 2)
  setBit x 63 (bits x 13 2 == 3)

/-- One PMP configuration byte after a write: a locked one stays; W without R is not taken. -/
def pmpByteLegal (old v : Nat) : Nat :=
  if bit old 7 then old
  else
    let x := v &&& 0x9F
    if bit x 1 && !bit x 0 then x - 2 else x

/-- Eight PMP configuration bytes written. -/
def pmpCfgLegal (old v : Nat) : Nat :=
  (List.range 8).foldl (fun a i => a + pmpByteLegal (bits old (8 * i) 8) (bits v (8 * i) 8) * 2 ^ (8 * i)) 0

/-- Whether pmpaddr `i` is locked: by its own entry, or by a locked TOR entry above it. -/
def pmpAddrLocked (s : State) (h i : Nat) : Bool :=
  bit (pmpCfg s h i) 7 || (decide (i < 15) && bit (pmpCfg s h (i + 1)) 7 && bits (pmpCfg s h (i + 1)) 3 2 == 1)

/-- tdata1 after a write: an mcontrol6 trigger that compares addresses; dmode and the debug action only from debug mode. -/
def tdata1Legal (v : Nat) (dbg : Bool) : Nat :=
  let dm := dbg && bit v 59
  6 * 2 ^ 60 + b2n dm * 2 ^ 59 + b2n (bit v 22) * 2 ^ 22 + b2n (dm && bits v 12 4 == 1) * 2 ^ 12
    + (if bits v 7 4 ≤ 3 then bits v 7 4 else 0) * 2 ^ 7 + (v &&& 0x4F)

/-- dcsr after a write: ebreakm, ebreaku, stepie, mprven, step and prv. -/
def dcsrLegal (old v : Nat) : Nat :=
  let x := 4 * 2 ^ 28 + bits old 6 3 * 2 ^ 6 + (v &&& (2 ^ 15 + 2 ^ 12 + 2 ^ 11 + 2 ^ 4 + 2 ^ 2))
  x + (if bits v 0 2 = 0 || bits v 0 2 = 3 then bits v 0 2 else bits old 0 2)

/-- A CSR written. -/
def csrWrite (s : State) (h n v : Nat) (dbg : Bool) : State :=
  let t := hartGet s h
  if n = 1 then fcsrPut s h (setBits (csrRaw s h 3) 0 5 v)
  else if n = 2 then fcsrPut s h (setBits (csrRaw s h 3) 5 3 v)
  else if n = 3 then fcsrPut s h v
  else if n = 0x300 then csrPut s h n (mstatusLegal (csrRaw s h n) v)
  else if n = 0x301 then s
  else if n = 0x304 then csrPut s h n (v &&& (2 ^ 7 + 2 ^ 11 + 2 ^ 16))
  else if n = 0x305 then csrPut s h n (setBit v 1 false)
  else if n = 0x306 then csrPut s h n (v % 128)
  else if n = 0x30A then csrPut s h n (v % 2)
  else if n = 0x341 || n = 0x7B1 then csrPut s h n (v / 2 * 2)
  else if n = 0x344 then (if bit v 16 then s else hartPut s h { t with wcip := false })
  else if n = 0x3A0 || n = 0x3A2 then csrPut s h n (pmpCfgLegal (csrRaw s h n) v)
  else if 0x3B0 ≤ n && n < 0x3C0 then (if pmpAddrLocked s h (n - 0x3B0) then s else csrPut s h n (v % 2 ^ 54))
  else if n = 0xB00 || n = 0xB03 || n = 0xB05 || n = 0xB06 then s
  else if n = 0x7A0 then (if v < 4 then csrPut s h n v else s)
  else if n = 0x7A1 || n = 0x7A2 then
    let i := csrRaw s h 0x7A0
    if bit (tdata1 s h i) 59 && !dbg then s
    else if n = 0x7A1 then csrPut s h (0x10000 + i) (tdata1Legal v dbg) else csrPut s h (0x20000 + i) v
  else if n = 0x7A4 then s
  else if n = 0x7B0 then csrPut s h n (dcsrLegal (csrRaw s h n) v)
  else if n = 0x7C0 then csrPut s h n (v % 4)
  else if 0x800 ≤ n && n ≤ 0x807 then hartPut s h { t with staging := overlay t.staging (8 * (n - 0x800)) (leBytes 8 v) }
  else csrPut s h n v

end Sys2Proof.Machine
end

