-- ==== Sys2Proof/Machine/RvMem.lean ====
section
/-! DEFINITION. Loads, stores and atomics of a hart over the address map of R494: order of checks, access faults, poison, the
LR reservation (R492, R494, R495, R511, R514, R663).
Log entries 5, 97, 98, 99, 100. -/

namespace Sys2Proof.Machine

open Sys2Proof

/-- What an instruction comes to: it retires and the hart goes on at a pc; a trap with its mtval; a trigger fires at an
address; the hart halts; or it has changed the state itself, its pc included. -/
inductive RvOut where
  | retire (s : State) (pc : Nat)
  | trap (cause tval : Nat) (s : State)
  | fire (i a : Nat) (s : State)
  | halt (s : State)
  | self (s : State)

/-- The kinds of data access. -/
inductive MemKind where
  | load | lr | store | sc | amo
deriving DecidableEq, Repr

def MemKind.writes (k : MemKind) : Bool := match k with | .store => true | .sc => true | .amo => true | _ => false
def MemKind.reads (k : MemKind) : Bool := match k with | .load => true | .lr => true | .amo => true | _ => false
def MemKind.atomic (k : MemKind) : Bool := match k with | .load => false | .store => false | _ => true

/-- Whether data accesses act with M-mode rights: MPRV puts MPP in the mode's place. -/
def dataMode (s : State) (h : Nat) : Bool :=
  let ms := csrRaw s h csrMstatus
  if (hartGet s h).mmode && bit ms 17 then bits ms 11 2 == 3 else (hartGet s h).mmode

/-- R495: whether an address lies in the control window or the mailbox. -/
def deviceAddr (a n : Nat) : Bool := match region a n with | .window _ => true | .mailbox _ => true | _ => false

/-- What stops a data access of `n` bytes at `a`: a trigger, misalignment, then an access fault. -/
def memCheck (s : State) (h a n : Nat) (k : MemKind) (dbg : Bool) : Option RvOut :=
  let m := dataMode s h
  let trig : Option Nat :=
    if dbg then none
    else match (if k.reads then trigHit s h .load a else none) with
      | some i => some i
      | none => if k.writes then trigHit s h .store a else none
  match trig with
  | some i => some (.fire i a s)
  | none =>
    if a % n ≠ 0 then some (.trap (if k.writes then 6 else 4) a s)
    else if k.atomic && deviceAddr a n then some (.trap 7 a s)
    else if (k.reads && !accessOk s h a n .load m) || (k.writes && !accessOk s h a n .store m)
        || (deviceAddr a n && n < 4 && 0x10000000 ≤ a && a < 0x20000000) then
      some (.trap (if k.writes then 7 else 5) a s)
    else none

/-- R459, R494: `n` bytes of the mailbox. -/
def mailGet (s : State) (off n : Nat) : Nat :=
  let lo := mbRead s (off / 4 * 4) + (if n = 8 then 2 ^ 32 * mbRead s (off / 4 * 4 + 4) else 0)
  bits lo (8 * (off % 4)) (8 * n)

/-- R459, R494: a hart writes the mailbox: CMD and REPLY at any time, GO and DONE and the doorbell page as the owner. -/
def mailPut (s : State) (off n v : Nat) : State :=
  if off < 0x4000 then
    let k := off / 0x400
    let o := off % 0x400
    let x := slotMb s k
    if o < 0x100 then slotMbPut s k { x with cmd := overlay (slice x.cmd 0 256) o (leBytes n v) }
    else if o < 0x200 then slotMbPut s k { x with reply := overlay (slice x.reply 0 256) (o - 0x100) (leBytes n v) }
    else if o = 0x200 then mbWrite s off 1 v
    else s
  else if 0x8000 ≤ off && off < 0x9000 then
    if n = 8 then pageWords s none (off - 0x8000) [(v % 2 ^ 32, 15), (v / 2 ^ 32, 15)] else wordIgnored s none
  else s

/-- `n` bytes read at hart address `a`, an access that `memCheck` lets pass. -/
def memGet (s : State) (h a n : Nat) : Nat × State :=
  match region a n with
  | .scratch off => (leNat ((List.range n).map (fun i => SMap.get 0 s.fil.scratch (coreOf h * 2 ^ 17 + off + i))), s)
  | .mtime => (bits s.mtime (8 * (a - 0x30000)) (8 * n), s)
  | .mtimecmp => (bits (SMap.get (2 ^ 64 - 1) s.fil.mtimecmp h) (8 * (a - 0x30008)) (8 * n), s)
  | .window off => wordsRead s .filbert off (n / 4)
  | .mailbox off => (mailGet s off n, s)
  | .hbm p => (leNat (s.hbmRead p n), s)
  | .none => (0, s)

/-- The reservation granule of an address: a 64-byte line of HBM, of the core's scratch, or the timer. -/
def granuleOf (h a n : Nat) : Nat :=
  match region a n with
  | .hbm p => p / 64
  | .scratch off => 2 ^ 40 + coreOf h * 2 ^ 11 + off / 64
  | _ => 2 ^ 41 + h

/-- `n` bytes written at hart address `a`, an access that `memCheck` lets pass. -/
def memPut (s : State) (h a n v : Nat) : State :=
  match region a n with
  | .scratch off =>
    let s := dropResv s (granuleOf h a n) (granuleOf h a n)
    { s with fil := { s.fil with scratch := memWrite s.fil.scratch (coreOf h * 2 ^ 17 + off) (leBytes n v) } }
  | .mtimecmp =>
    let s := dropResv s (granuleOf h a n) (granuleOf h a n)
    let old := SMap.get (2 ^ 64 - 1) s.fil.mtimecmp h
    { s with fil := { s.fil with mtimecmp := SMap.set (2 ^ 64 - 1) s.fil.mtimecmp h (setBits old (8 * (a - 0x30008)) (8 * n) v) } }
  | .window off => wordsWrite s .filbert off (n / 4) (v % 2 ^ (8 * n))
  | .mailbox off => mailPut s off n v
  | .hbm p => s.hbmWrite p (leBytes n v)
  | _ => s

/-- R511, R514: whether a load meets poisoned bytes. -/
def loadPoisoned (s : State) (a n : Nat) (x : RvHap) : Bool :=
  match region a n with
  | .hbm p => poisonedRange s p n || x == .hbmError
  | _ => false

/-- A load, LR or the read of an AMO, then `f` on the value. -/
def withLoad (s : State) (h a n : Nat) (k : MemKind) (dbg : Bool) (x : RvHap) (f : Nat → State → RvOut) : RvOut :=
  match memCheck s h a n k dbg with
  | some o => o
  | none =>
    if loadPoisoned s a n x then .trap 25 a s
    else
      let (v, s) := memGet s h a n
      f v s

/-- A store of `n` bytes, then `pc`. -/
def storeTo (s : State) (h a n v : Nat) (dbg : Bool) (pc : Nat) : RvOut :=
  match memCheck s h a n .store dbg with
  | some o => o
  | none => .retire (memPut s h a n v) pc

/-- The result of an AMO of funct5 `f` on memory `a` and register `b`, `w` bits wide. -/
def amoOp (f w a b : Nat) : Option Nat :=
  match f with
  | 0 => some (a + b)
  | 1 => some b
  | 4 => some (a ^^^ b)
  | 8 => some (a ||| b)
  | 12 => some (a &&& b)
  | 16 => some (if toSigned w a ≤ toSigned w b then a else b)
  | 20 => some (if toSigned w a ≤ toSigned w b then b else a)
  | 24 => some (min a (b % 2 ^ w))
  | 28 => some (max a (b % 2 ^ w))
  | _ => none

/-- The A extension: LR, SC and the AMOs of `n` bytes. -/
def rvAtomic (s : State) (h f rd rs2 a n : Nat) (dbg : Bool) (x : RvHap) (pc : Nat) (bad : RvOut) : RvOut :=
  let b := xr s h rs2
  if f = 2 then
    if rs2 ≠ 0 then bad
    else withLoad s h a n .lr dbg x fun v s =>
      let s := xw s h rd (sx (8 * n) v)
      .retire (hartPut s h { hartGet s h with resv := some (granuleOf h a n, s.now / coreLen) }) pc
  else if f = 3 then
    match memCheck s h a n .sc dbg with
    | some o => o
    | none =>
      let ok := match (hartGet s h).resv with
        | some (g, t) => g == granuleOf h a n && decide (s.now / coreLen - t ≤ 64)
        | none => false
      let s := hartPut s h { hartGet s h with resv := none }
      let s := if ok then memPut s h a n b else s
      .retire (xw s h rd (if ok then 0 else 1)) pc
  else if (amoOp f (8 * n) 0 0).isNone then bad
  else withLoad s h a n .amo dbg x fun v s =>
    let s := memPut s h a n ((amoOp f (8 * n) v b).getD 0)
    .retire (xw s h rd (sx (8 * n) v)) pc

end Sys2Proof.Machine
end

