-- ==== Sys2Proof/Machine/RvExec.lean ====
section
/-! DEFINITION. One RISC-V instruction of a hart, from the word its fetch brought (R492, R495, R501, R511). What R492 names
without its text is PRESUMED from the RISC-V Unprivileged Architecture 20211203 and the Privileged Architecture 1.12.
Log entries 19, 93, 95, 101, 103, 127. -/

namespace Sys2Proof.Machine

open Sys2Proof

/-! ## F and D -/

/-- The format of a two-bit code: single, double. -/
def fmtOf (c : Nat) : Option Fmt := if c = 0 then some fmtS else if c = 1 then some fmtD else none

/-- A floating-point register read in a format: a single that is not NaN-boxed reads as the canonical NaN. -/
def frIn (s : State) (h : Nat) (f : Fmt) (i : Nat) : Nat :=
  let v := fr s h i
  if f = fmtS then (if v / 2 ^ 32 = 2 ^ 32 - 1 then v % 2 ^ 32 else fpNan fmtS) else v

/-- A value as a floating-point register holds it. -/
def fpBox (f : Fmt) (v : Nat) : Nat := if f = fmtS then v % 2 ^ 32 + (2 ^ 32 - 1) * 2 ^ 32 else v

/-- The exception flags accrued. -/
def fpFlags (s : State) (h fl : Nat) : State := if fl = 0 then s else fcsrPut s h (csrRaw s h 3 ||| fl)

/-- A floating-point result written with its flags. -/
def fpOut (s : State) (h rd : Nat) (f : Fmt) (r : Nat × Nat) (pc : Nat) : RvOut :=
  .retire (fpFlags (fw s h rd (fpBox f r.1)) h r.2) pc

/-- An integer result of a floating-point instruction. -/
def fpOutX (s : State) (h rd : Nat) (r : Nat × Nat) (pc : Nat) : RvOut := .retire (fpFlags (xw s h rd r.1) h r.2) pc

/-- The rounding mode of an instruction: its own or frm; none for a reserved one. -/
def fpRm (s : State) (h f3 : Nat) : Option Nat :=
  let r := if f3 = 7 then bits (csrRaw s h 3) 5 3 else f3
  if r ≤ 4 then some r else none

/-- The fused multiply-adds. -/
def rvFma (s : State) (h w pc : Nat) (bad : RvOut) : RvOut :=
  match fmtOf (bits w 25 2), fpRm s h (rvF3 w) with
  | some f, some rm =>
    let a := frIn s h f (rvRs1 w)
    let b := frIn s h f (rvRs2 w)
    let c := frIn s h f (bits w 27 5)
    let r := match rvOp w with
      | 0x43 => fpFma f rm a b c
      | 0x47 => fpFma f rm a b (fpNeg f c)
      | 0x4B => fpFma f rm (fpNeg f a) b c
      | _ => fpFma f rm (fpNeg f a) b (fpNeg f c)
    fpOut s h (rvRd w) f r pc
  | _, _ => bad

/-- FSGNJ, FSGNJN, FSGNJX. -/
def fpSgnj (f : Fmt) (k a b : Nat) : Nat :=
  let n := f.eb + f.mb
  setBit a n (match k with | 0 => bit b n | 1 => !bit b n | _ => bit a n != bit b n)

/-- Width and signedness of FCVT's integer operand. -/
def cvtWidth (c : Nat) : Nat × Bool := (if c < 2 then 32 else 64, c % 2 == 0)

/-- An integer register as FCVT reads it. -/
def cvtInt (c a : Nat) : Int :=
  let (w, sg) := cvtWidth c
  if sg then toSigned w a else ((a % 2 ^ w : Nat) : Int)

/-- OP-FP. -/
def rvFpOp (s : State) (h w pc : Nat) (bad : RvOut) : RvOut :=
  match fmtOf (bits w 25 2) with
  | none => bad
  | some f =>
    let rd := rvRd w
    let k := rvF3 w
    let c := rvRs2 w
    let a := frIn s h f (rvRs1 w)
    let b := frIn s h f c
    let x := xr s h (rvRs1 w)
    let withRm (g : Nat → RvOut) : RvOut := match fpRm s h k with | some rm => g rm | none => bad
    match bits w 27 5 with
    | 0x00 => withRm fun rm => fpOut s h rd f (fpAdd f rm a b) pc
    | 0x01 => withRm fun rm => fpOut s h rd f (fpSub f rm a b) pc
    | 0x02 => withRm fun rm => fpOut s h rd f (fpMul f rm a b) pc
    | 0x03 => withRm fun rm => fpOut s h rd f (fpDiv f rm a b) pc
    | 0x0B => if c ≠ 0 then bad else withRm fun rm => fpOut s h rd f (fpSqrt f rm a) pc
    | 0x04 => if k > 2 then bad else fpOut s h rd f (fpSgnj f k a b, 0) pc
    | 0x05 => if k > 1 then bad else fpOut s h rd f (fpMinMax f (k == 1) a b) pc
    | 0x14 => if k > 2 then bad else fpOutX s h rd (fpRel f k a b) pc
    | 0x1C =>
      if c ≠ 0 then bad
      else if k = 0 then fpOutX s h rd (sx f.width (fr s h (rvRs1 w)), 0) pc
      else if k = 1 then fpOutX s h rd (fpClass f a, 0) pc
      else bad
    | 0x1E => if c ≠ 0 || k ≠ 0 then bad else fpOut s h rd f (x, 0) pc
    | 0x18 =>
      if c > 3 then bad
      else withRm fun rm =>
        let (wd, sg) := cvtWidth c
        let r := fpToInt f rm wd sg a
        fpOutX s h rd (sx wd r.1, r.2) pc
    | 0x1A => if c > 3 then bad else withRm fun rm => fpOut s h rd f (fpOfInt f rm (cvtInt c x)) pc
    | 0x08 =>
      if f = fmtS && c = 1 then withRm fun rm => fpOut s h rd fmtS (fpConvert fmtD fmtS rm (frIn s h fmtD (rvRs1 w))) pc
      else if f = fmtD && c = 0 then withRm fun rm => fpOut s h rd fmtD (fpConvert fmtS fmtD rm (frIn s h fmtS (rvRs1 w))) pc
      else bad
    | _ => bad

/-! ## SYSTEM -/

/-- MRET: mode and interrupt enable as mstatus saved them, MPRV cleared on a return to U mode, the pc from mepc. -/
def rvMret (s : State) (h : Nat) : RvOut :=
  let ms := csrRaw s h csrMstatus
  let mpp := bits ms 11 2
  let x := setBits (setBit (setBit ms 3 (bit ms 7)) 7 true) 11 2 0
  let x := if mpp = 3 then x else setBit x 17 false
  let s := csrPut s h csrMstatus x
  .retire (hartPut s h { hartGet s h with mmode := mpp == 3 }) (csrRaw s h csrMepc)

/-- EBREAK: debug mode where dcsr asks for it, else a breakpoint exception. -/
def rvEbreak (s : State) (h : Nat) : RvOut :=
  if bit (csrRaw s h csrDcsr) (if (hartGet s h).mmode then 15 else 12) then .halt s else .trap 3 0 s

/-- The CSR instructions. -/
def rvCsr (s : State) (h w : Nat) (dbg : Bool) (pc : Nat) (bad : RvOut) : RvOut :=
  let n := bits w 20 12
  let f3 := rvF3 w
  let src := if f3 ≥ 5 then rvRs1 w else xr s h (rvRs1 w)
  let wr := f3 % 4 = 1 || rvRs1 w ≠ 0
  if !csrOk s h n wr dbg then bad
  else
    let (old, s) := csrRead s h n
    let v := match f3 % 4 with | 1 => src | 2 => old ||| src | _ => old - (old &&& src)
    let s := if wr then csrWrite s h n v dbg else s
    let s := if wr && n = csrMinstret then csrPut s h n (v + 2 ^ 64 - 1) else s
    .retire (xw s h (rvRd w) old) pc

/-- SYSTEM. -/
def rvSystem (s : State) (h w : Nat) (dbg : Bool) (pc : Nat) (bad : RvOut) : RvOut :=
  let m := (hartGet s h).mmode
  if rvF3 w = 4 then bad
  else if rvF3 w ≠ 0 then rvCsr s h w dbg pc bad
  else if rvRd w ≠ 0 || rvRs1 w ≠ 0 then bad
  else match bits w 20 12 with
    | 0x000 => if dbg then bad else .trap (if m then 11 else 8) 0 s
    | 0x001 => if dbg then bad else rvEbreak s h
    | 0x105 => if !m && bit (csrRaw s h csrMstatus) 21 then bad else .retire s pc
    | 0x302 => if dbg || !m then bad else rvMret s h
    | _ => bad

/-! ## Xelvchan words, loads, branches -/

/-- R501: an instruction of custom-0. In debug mode EV.WAIT acts as EV.POLL. -/
def rvXelv (s : State) (h w : Nat) (dbg : Bool) (bad : RvOut) : RvOut :=
  let rd := rvRd w
  let rs1 := rvRs1 w
  let rs2 := rvRs2 w
  if rvF7 w ≠ 0 || (rvF3 w ≠ 4 && rs2 ≠ 0) then bad
  else match rvF3 w with
    | 0 => .self (doChSend s h rd rs1)
    | 1 => .self (doChRecv s h rd rs1)
    | 2 => .self (doChFill s h rd rs1)
    | 4 => .self (doEvSend s h rd rs1 rs2)
    | 5 => .self (if dbg then doEvPoll s h rd rs1 else doEvWait s h rd rs1)
    | 6 => .self (doEvPoll s h rd rs1)
    | _ => bad

/-- Width in bytes of an integer load, and the extension of its value. -/
def rvLoad (s : State) (h w a : Nat) (dbg : Bool) (x : RvHap) (pc : Nat) (bad : RvOut) : RvOut :=
  let f3 := rvF3 w
  let n := 2 ^ (f3 % 4)
  if f3 = 7 then bad
  else withLoad s h a n .load dbg x fun v s =>
    .retire (xw s h (rvRd w) (if f3 < 4 then sx (8 * n) v else v)) pc

/-- Whether a conditional branch is taken; none for a reserved funct3. -/
def rvTaken (f3 a b : Nat) : Option Bool :=
  match f3 with
  | 0 => some (a == b)
  | 1 => some (a != b)
  | 4 => some (lt64 a b)
  | 5 => some (!lt64 a b)
  | 6 => some (decide (a < b))
  | 7 => some (decide (b ≤ a))
  | _ => none

/-- The opcodes that use the pc, which the program buffer may not hold. -/
def usesPc (op : Nat) : Bool := op == 0x63 || op == 0x67 || op == 0x6F || op == 0x17

/-- The opcodes of F and D. -/
def isFp (op : Nat) : Bool := [0x07, 0x27, 0x43, 0x47, 0x4B, 0x4F, 0x53].contains op

/-- An expanded word executed; `len` is its length as fetched. -/
def rvWord (s : State) (h w len : Nat) (dbg : Bool) (x : RvHap) (bad : RvOut) : RvOut :=
  let pc := (hartGet s h).pc
  let next := w64 (pc + len)
  let rd := rvRd w
  let a := xr s h (rvRs1 w)
  let b := xr s h (rvRs2 w)
  let put (o : Option Nat) : RvOut := match o with | some v => .retire (xw s h rd v) next | none => bad
  if dbg && usesPc (rvOp w) then bad
  else if isFp (rvOp w) && fsOf s h = 0 then bad
  else match rvOp w with
    | 0x37 => put (some (immU w))
    | 0x17 => put (some (pc + immU w))
    | 0x6F => .retire (xw s h rd next) (w64 (pc + immJ w))
    | 0x67 => if rvF3 w ≠ 0 then bad else .retire (xw s h rd next) (w64 (a + immI w) / 2 * 2)
    | 0x63 =>
      match rvTaken (rvF3 w) a b with
      | some t => .retire s (if t then w64 (pc + immB w) else next)
      | none => bad
    | 0x03 => rvLoad s h w (w64 (a + immI w)) dbg x next bad
    | 0x23 => if rvF3 w > 3 then bad else storeTo s h (w64 (a + immS w)) (2 ^ rvF3 w) b dbg next
    | 0x13 => put (aluImm (rvF3 w) (bits w 20 12) (immI w) a)
    | 0x1B => put (aluImmW (rvF3 w) (bits w 20 12) (immI w) a)
    | 0x33 => put (aluOp (rvF7 w) (rvF3 w) a b)
    | 0x3B => put (aluOpW (rvF7 w) (rvF3 w) (rvRs2 w) a b)
    | 0x0F => if rvF3 w > 1 then bad else .retire s next
    | 0x2F =>
      if rvF3 w = 2 || rvF3 w = 3 then rvAtomic s h (bits w 27 5) rd (rvRs2 w) a (2 ^ rvF3 w) dbg x next bad else bad
    | 0x73 => rvSystem s h w dbg next bad
    | 0x0B => rvXelv s h w dbg bad
    | 0x07 =>
      if rvF3 w = 2 || rvF3 w = 3 then
        withLoad s h (w64 (a + immI w)) (2 ^ rvF3 w) .load dbg x fun v s =>
          .retire (fw s h rd (fpBox (if rvF3 w = 2 then fmtS else fmtD) v)) next
      else bad
    | 0x27 =>
      if rvF3 w = 2 || rvF3 w = 3 then storeTo s h (w64 (a + immS w)) (2 ^ rvF3 w) (fr s h (rvRs2 w)) dbg next else bad
    | 0x43 => rvFma s h w next bad
    | 0x47 => rvFma s h w next bad
    | 0x4B => rvFma s h w next bad
    | 0x4F => rvFma s h w next bad
    | 0x53 => rvFpOp s h w next bad
    | _ => bad

/-- A fetched word executed: a reserved or unknown encoding raises an illegal-instruction exception (R492). -/
def rvExec (s : State) (h w : Nat) (dbg : Bool) (x : RvHap) : RvOut :=
  let (len, e) := rvExpand w
  let bad : RvOut := .trap 2 (if len = 2 then w % 65536 else w) s
  match e with
  | some v => rvWord s h v len dbg x bad
  | none => bad

/-- The first part of an instruction at the pc that may not be fetched. -/
def fetchFault (s : State) (h len : Nat) : Option Nat :=
  let t := hartGet s h
  if !accessOk s h t.pc 2 .fetch t.mmode then some t.pc
  else if len = 4 && !accessOk s h (w64 (t.pc + 2)) 2 .fetch t.mmode then some (w64 (t.pc + 2))
  else none

/-- R511, R523: an uncorrectable error in the core affects the instruction: the hart traps, and the failure is the core's. -/
def coreError (s : State) (h a : Nat) : State :=
  failUnit ((trapEnter s h 24 false a).inc R.FIL_CNT.COUNT [10]) 5 (coreOf h) 0 []

/-- The outcome of an instruction takes effect. -/
def rvFinish (h : Nat) (o : RvOut) : State :=
  match o with
  | .retire s pc => retireTo s h pc
  | .trap cause tval s => trapEnter s h cause false tval
  | .fire i a s => trigFire s h i a
  | .halt s => haltHart s h 1
  | .self s => s

/-- One instruction of hart `h` whose fetch brings `w`. -/
def rvRun (s : State) (h w : Nat) (x : RvHap) : State :=
  match x with
  | .coreError a => coreError s h a.toNat
  | _ =>
    match fetchFault s h (rvExpand w).1 with
    | some a => trapEnter s h 1 false a
    | none => rvFinish h (rvExec s h w false x)

end Sys2Proof.Machine
end

