-- ==== Sys2Proof/Machine/Riscv.lean ====
section
/-! DEFINITION. The command that runs one RISC-V instruction of a hart, those of the Debug Module that step a hart and reach its
registers and memory, and the frames that transmit channels send (R492, R515, R519, R520).
Log entries 93, 101, 102, 103. -/

namespace Sys2Proof.Machine

open Sys2Proof

/-- RISCV_INSTRUCTION (R492): hart `h` executes the instruction its fetch at the pc brought. -/
def execRiscvInstruction (h : Fin 512) (w : BitVec 32) (x : RvHap) (s : State) : Ans :=
  .next (hartStep s h fun s => rvRun s h w.toNat x)

/-- R519: a halted hart resumes for one instruction and halts again; one that still waits in EV.WAIT halts there. -/
def singleStep (s : State) (h w : Nat) (x : RvHap) : State :=
  let s := resumeHart s h
  if !coreLive s (coreOf h) then haltHart s h 4
  else if hartSt s h = hsWait then stepHalt (wakeHart s h) h
  else stepHalt (hartCycle s h true fun s => rvRun s h w x) h

/-- SINGLE_STEP (R519). -/
def execSingleStep (h : Fin 512) (w : BitVec 32) (x : RvHap) (s : State) : Ans := whenOn s fun s =>
  if unlocked s 0 && hartSt s h == hsHalt then .next (singleStep s h w.toNat x) else .next s

/-- R519: the words of the program buffer executed by a halted hart, up to an EBREAK or an exception; the second part says whether
an exception ended them. -/
def runProg (s : State) (h : Nat) (l : List Nat) : State × Bool :=
  match l with
  | [] => (s, false)
  | w :: r =>
    if w = 0x00100073 || w % 65536 = 0x9002 then (s, false)
    else match rvExec s h w true .fine with
      | .retire s pc => runProg (retireTo s h pc) h r
      | .self s => runProg s h r
      | .halt s => (s, false)
      | .trap _ _ s => (s, true)
      | .fire _ _ s => (s, true)

/-- The program buffer executed with M-mode rights; pc, mode, wait and STATE of the halted hart stay. -/
def runBuffer (s : State) (h : Nat) : State × Bool :=
  let t := hartGet s h
  let (s, bad) := runProg (hartPut s h { t with mmode := true }) h s.fil.progbuf
  let s := hartPut s h { hartGet s h with pc := t.pc, mmode := t.mmode, wait := t.wait }
  (s.wr R.FIL_HART_CTL.STATE [h] hsHalt, bad)

/-- R519: a register of a halted hart read: a CSR below 0x1000, a GPR from 0x1000, an FPR from 0x1020; none where it is absent. -/
def dbgRegRead (s : State) (h n : Nat) : Option (Nat × State) :=
  if n < 0x1000 then (if csrKnown n then some (csrRead s h n) else none)
  else if n < 0x1020 then some (xr s h (n - 0x1000), s)
  else if n < 0x1040 then some (fr s h (n - 0x1020), s)
  else none

/-- R519: a register of a halted hart written; none where it is absent or read-only. -/
def dbgRegWrite (s : State) (h n v : Nat) : Option State :=
  if n < 0x1000 then (if csrKnown n && bits n 10 2 ≠ 3 then some (csrWrite s h n v true) else none)
  else if n < 0x1020 then some (xw s h (n - 0x1000) v)
  else if n < 0x1040 then some (fw s h (n - 0x1020) v)
  else none

/-- The program buffer after the debugger has written `l` from its first word. -/
def progWrite (s : State) (l : List (BitVec 32)) : State :=
  { s with fil := { s.fil with progbuf := (l.take 8).map BitVec.toNat ++ s.fil.progbuf.drop (min 8 l.length) } }

/-- R519: Access Register: the transfer, then the program buffer where `post` is set. -/
def accessReg (s : State) (h n : Nat) (wr : Option Nat) (post : Bool) : State :=
  let r : Option (State × Option Nat) := match wr with
    | some v => (dbgRegWrite s h n v).map (fun s => (s, .none))
    | none => (dbgRegRead s h n).map (fun p => (p.2, some p.1))
  match r with
  | none => s.emit .accessFault
  | some (s, v) =>
    let s := match v with | some v => s.emit (.data v) | none => s
    if post then
      let (s, bad) := runBuffer s h
      if bad then s.emit .accessFault else s
    else s

/-- ACCESS_REGISTER (R519): the debugger has written the words `prog` into the program buffer before it. -/
def execAccessRegister (h : Fin 512) (n : Fin 65536) (wr : Option (BitVec 64)) (prog : List (BitVec 32)) (post : Bool)
    (s : State) : Ans := whenOn s fun s =>
  if unlocked s 0 && hartSt s h == hsHalt && coreLive s (coreOf h) then
    .next (accessReg (progWrite s prog) h n (wr.map BitVec.toNat) post)
  else .next s

/-- R519: Access Memory through a halted hart, with its M-mode rights; `n` bytes. -/
def accessMem (s : State) (h a n : Nat) (wr : Option Nat) : State :=
  let t := hartGet s h
  let m := hartPut s h { t with mmode := true }
  match memCheck m h a n (if wr.isSome then .store else .load) true with
  | some _ => s.emit .accessFault
  | none =>
    match wr with
    | some v => memPut s h a n v
    | none =>
      if loadPoisoned s a n .fine then s.emit .accessFault
      else
        let (v, s) := memGet s h a n
        s.emit (.data v)

/-- Whether a hart address lies in HBM. -/
def inHbm (a n : Nat) : Bool := match region a n with | .hbm _ => true | _ => false

/-- ACCESS_MEMORY (R519): 2^k bytes at a hart address; HBM asks for the scope bit of R635 too. -/
def execAccessMemory (h : Fin 512) (a : BitVec 64) (k : Fin 4) (wr : Option (BitVec 64)) (s : State) : Ans := whenOn s fun s =>
  if unlocked s 0 && hartSt s h == hsHalt && coreLive s (coreOf h) && (!inHbm a.toNat (2 ^ k.val) || unlocked s 2) then
    .next (accessMem s h a.toNat (2 ^ k.val) (wr.map BitVec.toNat))
  else .next s

/-- R515: how long `n` bytes hold the transmit channels, in 0.1 ns: 0.4 Tb/s or 0.32 Tb/s, rounded up. -/
def txTime (n : Nat) : Nat := if Config.slowGrade then ceilDiv n 4 else ceilDiv n 5

/-- R515: a transmit message that Filbert drops as malformed: a reserved value, a LENGTH out of range, an ADDR that is no HBM. -/
def txBad (m : Bytes) : Bool :=
  let len := leAt m 6 2
  byteAt m 0 ≠ 1 || len < 60 || len > 9212 || !inHbm (leAt m 8 8) len

/-- R515: the frame of a transmit message enters an internal input. -/
def txSend (s : State) (c : Nat) (m : Bytes) : State :=
  let len := leAt m 6 2
  let a := match region (leAt m 8 8) len with | .hbm p => p | _ => 0
  let s := toInternal s
    { data := s.hbmRead a len, origin := 255, inst := 0, tc := byteAt m 5 % 8, domain := leAt m 2 2 % 1024,
      profile := byteAt m 4 % 64, pipe := 0, hash := srcHash (.chan c), port := none, octet := none, ts := 0, raw := 0,
      fault := none, poison := poisonedRange s a len, pass2 := false, node := none, espSeq := 0, hop := none, cth := false, tx := none }
  let s := s.inc R.FIL_CNT.COUNT [6]
  let s := if bit (byteAt m 1) 0 then returnBuf s (leAt m 16 4) else s
  { s with fil := { s.fil with txUntil := max s.fil.txUntil s.now + txTime len } }

/-- TRANSMIT_MESSAGE (R515): the head message of transmit channel `k`, which waits while the rate cap holds the channels. -/
def execTransmitMessage (k : Fin 64) (s : State) : Ans := whenUp s fun s =>
  let c := 0xFF40 + k.val
  match chanMsgs s c with
  | [] => .next s
  | m :: rest =>
    if s.fil.txUntil > s.now then .next s
    else
      let s := chanSet s c rest
      if txBad m then .next (s.inc R.FIL_CNT.COUNT [7]) else .next (txSend s c m)

end Sys2Proof.Machine
end

