-- ==== Sys2Proof/Machine/Spdm.lean ====
section
/-! DEFINITION. The meanings of the SPDM requests the Reeve answers, and of the vendor-defined commands in them (R623 to
R630). -/

namespace Sys2Proof.Machine

open Sys2Proof

/-- An SPDM request with its handler. -/
def spdmAns (r : SpdmReq) (f : State → SpdmReq → Bytes × State) (s : State) : Ans := byFirmware s fun s => .next (spdmRow s r f)

/-- GET_VERSION (R623). -/
def execGetVersion (r : SpdmReq) (s : State) : Ans := spdmAns r doVersion s

/-- GET_CAPABILITIES (R623). -/
def execGetCapabilities (r : SpdmReq) (s : State) : Ans := spdmAns r doCapabilities s

/-- NEGOTIATE_ALGORITHMS (R623). -/
def execNegotiateAlgorithms (r : SpdmReq) (s : State) : Ans := spdmAns r doAlgorithms s

/-- GET_DIGESTS (R623). -/
def execGetDigests (r : SpdmReq) (s : State) : Ans := spdmAns r doDigests s

/-- GET_CERTIFICATE (R623). -/
def execGetCertificate (r : SpdmReq) (s : State) : Ans := spdmAns r doCertificate s

/-- CHALLENGE (R623). -/
def execChallenge (r : SpdmReq) (s : State) : Ans := spdmAns r doChallenge s

/-- GET_MEASUREMENTS (R624). -/
def execGetMeasurements (r : SpdmReq) (s : State) : Ans := spdmAns r doMeasurements s

/-- KEY_EXCHANGE (R625). -/
def execKeyExchange (r : SpdmReq) (s : State) : Ans := spdmAns r doKeyExchange s

/-- FINISH (R625). -/
def execFinish (r : SpdmReq) (s : State) : Ans := spdmAns r doFinish s

/-- HEARTBEAT (R623). -/
def execHeartbeat (r : SpdmReq) (s : State) : Ans := spdmAns r doHeartbeat s

/-- END_SESSION (R623). -/
def execEndSession (r : SpdmReq) (s : State) : Ans := spdmAns r doEndSession s

/-- GET_ENCAPSULATED_REQUEST (R625). -/
def execGetEncapsulatedRequest (r : SpdmReq) (s : State) : Ans := spdmAns r doGetEncap s

/-- DELIVER_ENCAPSULATED_RESPONSE (R625). -/
def execDeliverEncapsulatedResponse (r : SpdmReq) (s : State) : Ans := spdmAns r doDeliver s

/-- CHUNK_SEND (R623). -/
def execChunkSend (r : SpdmReq) (s : State) : Ans := spdmAns r doChunkSend s

/-- CHUNK_GET (R623). -/
def execChunkGet (r : SpdmReq) (s : State) : Ans := spdmAns r doChunkGet s

/-- SESSION_HEARTBEAT_EXPIRY (R623): session `id`. -/
def execSessionHeartbeatExpiry (id : BitVec 32) (s : State) : Ans := byFirmware s fun s => .next (sessionExpiry s id.toNat)

/-- GET_EVIDENCE (R626, R627). -/
def execGetEvidence (sess : Option (BitVec 32)) (nonce : Bytes) (mask : BitVec 32) (s : State) : Ans :=
  byFirmware s fun s => .next (vendorRow s sess fun s => evidence s nonce mask.toNat)

/-- GET_HSS_CHAIN (R626). -/
def execGetHssChain (sess : Option (BitVec 32)) (off : BitVec 32) (s : State) : Ans :=
  byFirmware s fun s => .next (vendorRow s sess fun s => (hssChain off.toNat, s))

/-- FW_WRITE (R626). -/
def execFwWrite (sess : Option (BitVec 32)) (ty : BitVec 8) (off : BitVec 32) (len : BitVec 16) (data : Bytes) (s : State) : Ans :=
  byFirmware s fun s => .next (vendorRow s sess fun s => vFwWrite s sess ty.toNat off.toNat len.toNat data)

/-- FW_ACTIVATE (R626): `x` is what the slot holds. -/
def execFwActivate (sess : Option (BitVec 32)) (ty : BitVec 8) (x : FlashRd) (s : State) : Ans :=
  byFirmware s fun s => .next (vendorRow s sess fun s =>
    if inSession s sess then fwActivate s ty.toNat x else ([0x02], s))

end Sys2Proof.Machine
end

