-- ==== Sys2Proof/Machine/Stack.lean ====
section
/-! DEFINITION. The meanings of the Sahrov and stack commands (R90 to R102, R550). A link is named by the STACK_ID at its
other end. -/

namespace Sys2Proof.Machine

open Sys2Proof

/-- SAHROV_UNIT_RECEIVE (R90). -/
def execSahrovUnitReceive (j : Fin 4) (u : Bytes) (s : State) : Ans := fromStack s j.val u fun s =>
  .next (unitReceive s j.val u)

/-- SAHROV_DATA_SEND (R94). -/
def execSahrovDataSend (j : Fin 4) (s : State) : Ans := whenOn s fun s =>
  .next (dataSend s j.val)

/-- SAHROV_REPLAY_TIMEOUT (R92). -/
def execSahrovReplayTimeout (j : Fin 4) (s : State) : Ans := whenOn s fun s =>
  .next (replayAll s j.val)

/-- R93: the ACK due for admitted units that no ACK has covered. -/
def ackTimer (s : State) (j : Nat) : State :=
  let l := stkLink s j
  if l.acked = l.rxSeq || !linkUp s j then s else sendAck s j false

/-- SAHROV_ACK_TIMER (R93). -/
def execSahrovAckTimer (j : Fin 4) (s : State) : Ans := whenOn s fun s =>
  .next (ackTimer s j.val)

/-- A control word that arrives on a link that runs (R96). -/
def onLink (s : State) (j : Nat) (f : State → State) : State := if linkHears s j then f (linkHeard s j) else s

/-- HELLO (R99): the sender's STACK_ID and lanes. -/
def execHello (j id : Fin 4) (lanes : BitVec 8) (s : State) : Ans := whenOn s fun s =>
  .next (onLink s j.val (fun s => helloArrive s j.val id.val lanes.toNat))

/-- STK_ACK (R92). -/
def execStkAck (j : Fin 4) (seq : BitVec 16) (nak : Bool) (s : State) : Ans := whenOn s fun s =>
  .next (onLink s j.val (fun s => ackArrive s j.val seq.toNat nak))

/-- STK_CREDIT (R94). -/
def execStkCredit (j : Fin 4) (tc : Fin 8) (lim : BitVec 32) (s : State) : Ans := whenOn s fun s =>
  .next (onLink s j.val (fun s => creditArrive s j.val tc.val lim.toNat))

/-- KEEPALIVE (R97): the heartbeat count, and whether the sender has lost the master. -/
def execKeepalive (j : Fin 4) (beat : BitVec 32) (_lost : Bool) (s : State) : Ans := whenOn s fun s =>
  .next (onLink s j.val (fun s => keepaliveArrive s j.val beat.toNat))

/-- KEEPALIVE_TIMER (R97). -/
def execKeepaliveTimer (s : State) : Ans := whenOn s fun s =>
  .next (keepaliveTick s)

/-- PEER_LOSS_TIMEOUT (R97, R101). -/
def execPeerLossTimeout (j : Fin 4) (s : State) : Ans := whenOn s fun s =>
  .next (peerTimeout s j.val)

/-- STACK_TIME_PERIOD (R550). -/
def execStackTimePeriod (s : State) : Ans := whenOn s fun s =>
  .next (timePeriod s)

/-- TIME (R550): sequence, seconds, nanoseconds and fraction. -/
def execTime (j : Fin 4) (seq : BitVec 16) (sec : BitVec 48) (ns : BitVec 30) (frac : BitVec 16) (s : State) : Ans := whenOn s fun s =>
  .next (onLink s j.val (fun s => timeArrive s j.val seq.toNat (tsMake sec.toNat ns.toNat frac.toNat)))

/-- TIME_RPT (R550). -/
def execTimeRpt (j : Fin 4) (seq : BitVec 16) (sec : BitVec 48) (ns : BitVec 30) (frac : BitVec 16) (s : State) : Ans := whenOn s fun s =>
  .next (onLink s j.val (fun s => timeRpt s j.val seq.toNat (tsMake sec.toNat ns.toNat frac.toNat)))

/-- STATE_MARK (R102): the state sequence and what the word marks. -/
def execStateMark (j : Fin 4) (seq : BitVec 32) (kind : Fin 3) (s : State) : Ans := whenOn s fun s =>
  .next (onLink s j.val (fun s => stateMark s j.val seq.toNat kind.val))

/-- STATE_ACK (R100). -/
def execStateAck (j : Fin 4) (seq : BitVec 32) (s : State) : Ans := whenOn s fun s =>
  .next (onLink s j.val (fun s => stateAck s j.val seq.toNat))

/-- MASTER_JOIN (R102). -/
def execMasterJoin (s : State) : Ans := whenOn s fun s =>
  .next (snapshotOut s)

end Sys2Proof.Machine
end

