-- ==== Sys2Proof/Machine/SwitchCtrl.lean ====
section
/-! DEFINITION. The CTRL operations of Granary and Tallyman (R175, R204, R230, R242 to R245).
Log entries 46, 47. -/

namespace Sys2Proof.Machine

open Sys2Proof

/-- R193: a group record holds no reserved value and its members exist. -/
def groupOk (v : Bytes) : Bool :=
  let base := leAt v 0 4 % 2 ^ 18
  let count := leAt v 4 2 % 2 ^ 13
  count ≤ 4096 && base + count ≤ 262144

/-- MC_GROUP_WRITE (R204). -/
def execMcGroupWrite (r : Fin 262144) (x : RdRes) (s : State) : Ans := whenUp s fun s =>
  .next (ctrlRun s r.val 0x20 40 x noEarly (fun _ => recPut 65536 groupOk 8 (fun s i v =>
    { s with grn := { s.grn with groups := SMap.set (List.replicate 8 0) s.grn.groups i v } })))

/-- MC_MEMBER_WRITE (R204). -/
def execMcMemberWrite (r : Fin 262144) (x : RdRes) (s : State) : Ans := whenUp s fun s =>
  .next (ctrlRun s r.val 0x21 40 x noEarly (fun _ => recPut 262144 (fun _ => true) 8 (fun s i v =>
    { s with grn := { s.grn with members := SMap.set (List.replicate 8 0) s.grn.members i v } })))

/-- R175: one QMAP_WRITE record. -/
def recQmap (_ : Nat) (s : State) (b : Bytes) : RecRes :=
  let i := recIndex b
  if i ≥ 65536 then .fail s stMalformed
  else
    let m := SMap.set 0 s.grn.qmap i (byteAt b 32 % 64 + 128 * (byteAt b 32 / 128))
    let sum := reserveSum s m
    if s.flag R.GRN_CFG.EN [] && decide (sum > reserveSum s s.grn.qmap) && decide (sum > s.rd R.GRN_POOL.RESERVE []) then
      .fail s stNoResource
    else .ok { s with grn := { s.grn with qmap := m } } none

/-- QMAP_WRITE (R175). -/
def execQmapWrite (r : Fin 262144) (x : RdRes) (s : State) : Ans := whenUp s fun s =>
  .next (ctrlRun s r.val 0x22 36 x noEarly recQmap)

/-- R243, R244: a node or queue entry. -/
def memberOf (v : Bytes) (node : Bool) : Member :=
  { valid := bit (byteAt v 2) 1, root := bit (byteAt v 2) 0,
    parent := if bit (byteAt v 2) 0 then byteAt v 0 else leAt v 0 2 % 4096,
    sp := byteAt v 3 % 16, tc := if node then 0 else bits (byteAt v 3) 4 3, weight := leAt v 4 2 % 8192,
    maxEn := bit (leAt v 8 4) 20, maxRate := leAt v 8 4 % 2 ^ 20, maxBurst := leAt v 12 4 % 2 ^ 24,
    minEn := node && bit (leAt v 16 4) 20, minRate := if node then leAt v 16 4 % 2 ^ 20 else 0,
    minBurst := if node then leAt v 20 4 % 2 ^ 24 else 0 }

/-- R222: the range of a shaper's rate and burst. -/
def shaperOk (en : Bool) (rate burst : Nat) : Bool := !en || (1 ≤ rate && rate ≤ 1000000 && 1 ≤ burst)

/-- R216, R243: no reserved value, and no MIN shaper outside the weighted group. -/
def memberOk (m : Member) : Bool :=
  m.sp ≤ 8 && (m.sp ≠ 8 || (1 ≤ m.weight && m.weight ≤ 4096)) && shaperOk m.maxEn m.maxRate m.maxBurst
    && shaperOk m.minEn m.minRate m.minBurst && !(m.minEn && m.sp ≠ 8) && !(m.root && m.parent ≥ 136)

/-- R245: whether a member's parent is valid; the level it would have is at most `lim`. -/
def parentOk (s : State) (self : Option Nat) (m : Member) (lim : Nat) : Bool :=
  m.root || ((tNode s m.parent).valid && self ≠ some m.parent && decide (levelOf s (kNode m.parent) + 1 ≤ lim))

/-- R225: a shaper that is newly enabled starts full. -/
def shaperStart (s : State) (k : Nat) (old new : Member) : State :=
  let s := if new.maxEn && !old.maxEn then setMaxTok s k ((new.maxBurst * 512 : Nat) : Int) else s
  if new.minEn && !old.minEn then setMinTok s k ((new.minBurst * 512 : Nat) : Int) else s

/-- R245: a change of SP or WEIGHT of member `k` applies to frames not yet selected: the tag of its head follows. -/
def memberMoved (s : State) (k : Nat) (old new : Member) : State :=
  match (pathUp s 6 k).getLast? with
  | none => s
  | some e =>
    if !new.valid || new.sp ≠ 8 || !busyKey s 6 k then s
    else if old.sp ≠ 8 then onNewHead s e k
    else if old.weight ≠ new.weight then retag s e k
    else s

/-- R245: one TLY_NODE_WRITE record. -/
def recNode (_ : Nat) (s : State) (b : Bytes) : RecRes :=
  let i := recIndex b
  let m := memberOf (recObj b 32) true
  let old := tNode s i
  if i ≥ 4096 || !memberOk m || !parentOk s (some i) m 4 then .fail s stMalformed
  else if (children s (kNode i)) ≠ [] && old.valid && (!m.valid || m.root ≠ old.root || m.parent ≠ old.parent) then
    .fail s stBusy
  else
    let s := shaperStart s (kNode i) old m
    .ok (memberMoved { s with tly := { s.tly with nodes := SMap.set Member.none s.tly.nodes i m } } (kNode i) old m) none

/-- R245: one QUEUE_WRITE record. -/
def recQueue (_ : Nat) (s : State) (b : Bytes) : RecRes :=
  let i := recIndex b
  let m := memberOf (recObj b 16) false
  let old := tQueue s i
  if i ≥ 65536 || !memberOk m || !parentOk s none m 5 then .fail s stMalformed
  else if backlogged s i && old.valid && (!m.valid || m.root ≠ old.root || m.parent ≠ old.parent) then .fail s stBusy
  else
    let s := shaperStart s (kQueue i) old m
    .ok (memberMoved { s with tly := { s.tly with queues := SMap.set Member.none s.tly.queues i m } } (kQueue i) old m) none

/-- TLY_NODE_WRITE (R245). -/
def execTlyNodeWrite (r : Fin 262144) (x : RdRes) (s : State) : Ans := whenUp s fun s =>
  .next (ctrlRun s r.val 0x30 64 x noEarly recNode)

/-- QUEUE_WRITE (R245). -/
def execQueueWrite (r : Fin 262144) (x : RdRes) (s : State) : Ans := whenUp s fun s =>
  .next (ctrlRun s r.val 0x31 48 x noEarly recQueue)

/-- R244: a policer entry over the state of the one it replaces; one that becomes valid starts with both buckets full. -/
def polOf (v : Bytes) (old : Pol) : Pol :=
  let valid := bit (byteAt v 0) 3
  let cbs := leAt v 8 4 % 2 ^ 24
  let pbs := leAt v 16 4 % 2 ^ 24
  let fresh := valid && !old.valid
  { valid := valid, mode := byteAt v 0 % 4, aware := bit (byteAt v 0) 2, yAct := byteAt v 1 % 4, rAct := bits (byteAt v 1) 2 2,
    altTc := bits (byteAt v 1) 4 3, cir := leAt v 4 4 % 2 ^ 20, cbs := cbs, pir := leAt v 12 4 % 2 ^ 20, pbs := pbs,
    tc := if fresh then cbs * 8 else old.tc, tp := if fresh then pbs * 8 else old.tp,
    green := old.green, yellow := old.yellow, red := old.red }

/-- R226, R229, R244: no reserved value; the rates of a policer in use are in range. -/
def polOk (p : Pol) : Bool :=
  p.mode < 3 && p.yAct < 3 && p.rAct < 3 &&
    (!p.valid || (1 ≤ p.cir && p.cir ≤ 1000000 && 1 ≤ p.cbs && p.pir ≤ 1000000
      && (p.mode ≠ 0 || (p.cir ≤ p.pir && 1 ≤ p.pbs))))

/-- One POL_WRITE record (R230). -/
def recPol (_ : Nat) (s : State) (b : Bytes) : RecRes :=
  let i := recIndex b
  let p := polOf (recObj b 32) (polGet s i)
  if i ≥ 131072 || !polOk p then .fail s stMalformed else .ok (polPut s i p) none

/-- POL_WRITE (R230). -/
def execPolWrite (r : Fin 262144) (x : RdRes) (s : State) : Ans := whenUp s fun s =>
  .next (ctrlRun s r.val 0x32 64 x noEarly recPol)

/-- One POL_CNT_READ record (R242). -/
def recPolCnt (arg : Nat) (s : State) (b : Bytes) : RecRes :=
  let i := recIndex b
  if i ≥ 131072 then .fail s stMalformed
  else
    let p := polGet s i
    let s := if bit arg 23 then polPut s i { p with green := 0, yellow := 0, red := 0 } else s
    .ok s (some (8, leBytes 8 p.green ++ leBytes 8 p.yellow ++ leBytes 8 p.red))

/-- POL_CNT_READ (R242). -/
def execPolCntRead (r : Fin 262144) (x : RdRes) (s : State) : Ans := whenUp s fun s =>
  .next (ctrlRun s r.val 0x33 32 x noEarly recPolCnt)

/-- R231, R244: one GATE_WRITE record to the administrative list of the egress point that ARG names. -/
def recGate (arg : Nat) (s : State) (b : Bytes) : RecRes :=
  let e := bits arg 16 7
  let i := recIndex b
  let v := recObj b 8
  if i ≥ 1024 || gateOp v = 3 || gateNs v < 16 then .fail s stMalformed
  else if s.flag R.TLY_GATE.PENDING [e] then .fail s stBusy
  else
    let k := (e * 2 + (1 - operSel s e)) * 1024 + i
    .ok { s with tly := { s.tly with gate := SMap.set (List.replicate 8 0) s.tly.gate k v } } none

/-- GATE_WRITE (R242). -/
def execGateWrite (r : Fin 262144) (x : RdRes) (s : State) : Ans := whenUp s fun s =>
  .next (ctrlRun s r.val 0x34 40 x noEarly recGate)

/-- One STATE_READ record (R242). -/
def recState (_ : Nat) (s : State) (b : Bytes) : RecRes :=
  let i := recIndex b
  let n := i % 2 ^ 31
  let q := bit i 31
  if n ≥ (if q then 65536 else 4096) then .fail s stMalformed
  else
    let k := if q then kQueue n else kNode n
    .ok s (some (8, leBytes 8 (ofSigned 64 (maxTok s k)) ++ leBytes 8 (ofSigned 64 (minTok s k)) ++ leBytes 8 (fOf s k)))

/-- STATE_READ (R242). -/
def execStateRead (r : Fin 262144) (x : RdRes) (s : State) : Ans := whenUp s fun s =>
  .next (ctrlRun s r.val 0x35 32 x noEarly recState)

end Sys2Proof.Machine
end

