-- ==== Sys2Proof/Machine/Trust.lean ====
section
/-! DEFINITION. The meanings of the boot, fuse and debug-unlock commands (R613 to R620, R634, R635). -/

namespace Sys2Proof.Machine

open Sys2Proof

/-- REEVE_IMAGE_LOADED (R616): the slot that is up in the load, as read from flash. -/
def execReeveImageLoaded (x : FlashRd) (s : State) : Ans :=
  .next (if bellman s || s.pwr.dark || stage s ≠ stRom then s else reeveImage s x)

/-- FILBERT_IMAGE_LOADED (R616). -/
def execFilbertImageLoaded (x : FlashRd) (s : State) : Ans := byFirmware s fun s =>
  .next (if stage s ≠ stReeve || asleep s then s else filbertImage s x)

/-- FW_READY (R460, R619): firmware reports that it accepts commands. -/
def execFwReady (s : State) : Ans := whenUp s fun s =>
  .next (if stage s ≠ stFilbert || s.flag R.DOM_STATUS.FW_READY [] then s
    else
      let s := s.wr R.DOM_STATUS.FW_READY [] 1
      match s.trust.imgF with
      | some m => blowFuses s tyFilbert m
      | none => s)

/-- BOOT_COMPLETE (R619): the Reeve firmware reports boot complete. -/
def execBootComplete (s : State) : Ans := byFirmware s fun s =>
  .next (match s.trust.imgR with
    | some m => blowFuses s tyReeve m
    | none => s)

/-- R631: a management domain, or JTAG in place of the debug domain, reaches DBG_UNLOCK_CTL at any time; the Bellman lets
none in (R603). -/
def unlockCtl (s : State) (m : MDom) (v : Nat) : Ans :=
  match m with
  | .debug => if bellman s || s.pwr.dark then .next s else .next (unlockWrite s v)
  | _ => fromDomain s m fun s => .next (unlockWrite s v)

/-- NEW_CHAL (R634). -/
def execNewChal (m : MDom) (s : State) : Ans := unlockCtl s m 1

/-- VERIFY (R634). -/
def execVerify (m : MDom) (s : State) : Ans := unlockCtl s m 2

/-- UNLOCK_VERIFY_COMPLETE (R634). -/
def execUnlockVerifyComplete (s : State) : Ans := byFirmware s fun s => .next (endVerify s)

/-- RELOCK (R635). -/
def execRelock (m : MDom) (s : State) : Ans := unlockCtl s m 4

end Sys2Proof.Machine
end

