-- ==== Sys2Proof/Machine/WinCtrl.lean ====
section
/-! DEFINITION. The CTRL operations of Winnower and of the stack tables (R95, R131, R132, R154 to R157).
Log entries 29, 39, 154. -/

namespace Sys2Proof.Machine

open Sys2Proof

/-- TABLE of a table operation's ARG (R154). -/
def argTable (arg : Nat) : Nat := bits arg 16 6

/-- R155, R157: what ends a table operation before its records. -/
def tblEarly (change : Bool) (s : State) (arg : Nat) : Option Nat :=
  let t := argTable arg
  if !(s.flag R.WIN_TBL.EN [t] && s.flag R.WIN_TBL.READY [t]) then some stBusy
  else if change && isMember s && s.flag R.WIN_TBL.SHARED [t] then some stNotMaster
  else none

/-- R155: whether an entry image names its table and width. -/
def entImageOk (s : State) (t : Nat) (b : Bytes) : Bool :=
  byteAt b 1 % 64 == t && bits (byteAt b 0) 1 2 == s.rd R.WIN_TBL.WIDTH [t]

/-- R100: a change of a shared table goes to the members. The content of an action that the entry comes to name is not sent with
it: DESIGN CHOICE, log entry 154. -/
def sharedChange (s : State) (t op : Nat) (b : Bytes) : State :=
  if s.flag R.WIN_TBL.SHARED [t] then shareChange s (changeBytes op t 0 b) else s

/-- R131: one TBL_INSERT record. -/
def recInsert (arg : Nat) (s : State) (b : Bytes) : RecRes :=
  let t := argTable arg
  if !entImageOk s t b then .fail s stMalformed
  else
    match tblInsert s t b (bit arg 22) with
    | .ok s => .ok (sharedChange s t 0x10 b) none
    | .error true => .fail s stExists
    | .error false => .fail s stTableFull

/-- R132: one TBL_DELETE record. -/
def recDelete (arg : Nat) (s : State) (b : Bytes) : RecRes :=
  let t := argTable arg
  if !entImageOk s t b then .fail s stMalformed
  else
    match tblDelete s t (entKey s t (slice b 0 (32 * tblSlots s t))) with
    | none => .fail s stNotFound
    | some s => .ok (sharedChange s t 0x11 b) none

/-- R154: one TBL_READ record: ACTION, ACTION_DATA and HIT written back. -/
def recRead (arg : Nat) (s : State) (b : Bytes) : RecRes :=
  let t := argTable arg
  if !entImageOk s t b then .fail s stMalformed
  else
    match findKey s t (entKey s t (slice b 0 (32 * tblSlots s t))) with
    | none => .fail s stNotFound
    | some l =>
      let v := entRead s t l
      let head := byteOf (setBit (byteAt b 0) 3 (bit (byteAt v 0) 3)) :: slice b 1 3 ++ leBytes 4 (entAct v) ++ slice v 8 8
      let s := if bit arg 23 then entWrite s t l (overlay v 0 [byteOf (setBit (byteAt v 0) 3 false)]) else s
      .ok s (some (0, head))

/-- R141, R157: one ACT_WRITE record. -/
def recAct (_ : Nat) (s : State) (b : Bytes) : RecRes :=
  let v := recObj b 32
  let i := recIndex b
  if i ≥ 131072 || !actOk v then .fail s stMalformed
  else
    let named := (sharedActs s).contains i
    if isMember s && named then .fail s stNotMaster
    else
      let s := putWin s { s.win with act := SMap.set zero32 s.win.act i v }
      .ok (if named then shareChange s (changeBytes 0x14 0 i v) else s) none

/-- R113: a node of the shadow graph. -/
def putNode (s : State) (i : Nat) (v : Bytes) : State :=
  if s.flag R.WIN_GLB_CFG.GRAPH_SEL [] then putWin s { s.win with graph0 := SMap.set zero64 s.win.graph0 i v }
  else putWin s { s.win with graph1 := SMap.set zero64 s.win.graph1 i v }

/-- R152: a pattern of the shadow set. -/
def putPat (s : State) (i : Nat) (v : Bytes) : State :=
  if s.flag R.WIN_GLB_CFG.PAT_SEL [] then putWin s { s.win with pat0 := SMap.set zero64 s.win.pat0 i v }
  else putWin s { s.win with pat1 := SMap.set zero64 s.win.pat1 i v }

def patOk (v : Bytes) : Bool := decide (byteAt v 0 ≤ 32)

/-- R154, R676: one EDIT_WRITE record. -/
def recEdit (_ : Nat) (s : State) (b : Bytes) : RecRes :=
  if recIndex b = 0 then .fail s stMalformed
  else recPut 4096 progOk 64 (fun s i v => putWin s { s.win with edit := SMap.set zero64 s.win.edit i v }) s b

/-- R154: one CNT_READ record. -/
def recCnt (arg : Nat) (s : State) (b : Bytes) : RecRes :=
  let i := recIndex b
  if i ≥ 262144 then .fail s stMalformed
  else
    let (p, n) := SMap.get (0, 0) s.win.cnt i
    let s := if bit arg 23 then putWin s { s.win with cnt := SMap.set (0, 0) s.win.cnt i (0, 0) } else s
    .ok s (some (8, leBytes 8 p ++ leBytes 8 n ++ leBytes 8 0))

/-- TBL_INSERT (R131): `x` is what the read of the records brought. -/
def execTblInsert (r : Fin 262144) (x : RdRes) (s : State) : Ans := whenUp s fun s =>
  let t := match headOp s r.val 5 0x10 with
    | some (_, d) => argTable (ctrlArg d)
    | none => 0
  .next (ctrlRun s r.val 0x10 (32 * tblSlots s t) x (tblEarly true) recInsert)

/-- TBL_DELETE (R132). -/
def execTblDelete (r : Fin 262144) (x : RdRes) (s : State) : Ans := whenUp s fun s =>
  let t := match headOp s r.val 5 0x11 with
    | some (_, d) => argTable (ctrlArg d)
    | none => 0
  .next (ctrlRun s r.val 0x11 (32 * tblSlots s t) x (tblEarly true) recDelete)

/-- TBL_READ (R154). -/
def execTblRead (r : Fin 262144) (x : RdRes) (s : State) : Ans := whenUp s fun s =>
  let t := match headOp s r.val 5 0x12 with
    | some (_, d) => argTable (ctrlArg d)
    | none => 0
  .next (ctrlRun s r.val 0x12 (32 * tblSlots s t) x (tblEarly false) recRead)

/-- ACT_WRITE (R154). -/
def execActWrite (r : Fin 262144) (x : RdRes) (s : State) : Ans := whenUp s fun s =>
  .next (ctrlRun s r.val 0x14 64 x noEarly recAct)

/-- NODE_WRITE (R113). -/
def execNodeWrite (r : Fin 262144) (x : RdRes) (s : State) : Ans := whenUp s fun s =>
  .next (ctrlRun s r.val 0x15 96 x noEarly (fun _ => recPut 512 nodeOk 64 putNode))

/-- GRAPH_COMMIT (R156). -/
def execGraphCommit (r : Fin 262144) (s : State) : Ans := whenUp s fun s =>
  .next (ctrlPlain s r.val 0x16 (fun s => s.wr R.WIN_GLB_CFG.GRAPH_SEL [] (s.rd R.WIN_GLB_CFG.GRAPH_SEL [] + 1)))

/-- EDIT_WRITE (R676). -/
def execEditWrite (r : Fin 262144) (x : RdRes) (s : State) : Ans := whenUp s fun s =>
  .next (ctrlRun s r.val 0x17 96 x noEarly recEdit)

/-- The empty template. -/
def zeroTmpl : Bytes := List.replicate 128 0

/-- TMPL_WRITE (R154). -/
def execTmplWrite (r : Fin 262144) (x : RdRes) (s : State) : Ans := whenUp s fun s =>
  .next (ctrlRun s r.val 0x18 160 x noEarly (fun _ => recPut 1024 (fun _ => true) 128 (fun s i v =>
    putWin s { s.win with tmpl := SMap.set zeroTmpl s.win.tmpl i v })))

/-- PAT_WRITE (R152). -/
def execPatWrite (r : Fin 262144) (x : RdRes) (s : State) : Ans := whenUp s fun s =>
  .next (ctrlRun s r.val 0x19 96 x noEarly (fun _ => recPut 65536 patOk 64 putPat))

/-- PAT_COMMIT (R156). -/
def execPatCommit (r : Fin 262144) (s : State) : Ans := whenUp s fun s =>
  .next (ctrlPlain s r.val 0x1A (fun s => s.wr R.WIN_GLB_CFG.PAT_SEL [] (s.rd R.WIN_GLB_CFG.PAT_SEL [] + 1)))

/-- CNT_READ (R154). -/
def execCntRead (r : Fin 262144) (x : RdRes) (s : State) : Ans := whenUp s fun s =>
  .next (ctrlRun s r.val 0x1B 32 x noEarly recCnt)

/-- FRAG_FLUSH (R154). -/
def execFragFlush (r : Fin 262144) (s : State) : Ans := whenUp s fun s =>
  .next (ctrlPlain s r.val 0x1C (fun s => fragShow (putWin s { s.win with frag := [] })))

/-- R95: whether a Sahrov header may carry a DEST. -/
def destOk (v : Bytes) : Bool := let d := leAt v 0 2; d < 136 || d > 0xFFFD

/-- STK_DEST_WRITE (R95). An unlisted entry of the destination table holds 0xFFFF. -/
def execStkDestWrite (r : Fin 262144) (x : RdRes) (s : State) : Ans := whenUp s fun s =>
  .next (ctrlRun s r.val 0x70 36 x noEarly (fun _ => recPut 65536 destOk 4 (fun s i v =>
    { s with stk := { s.stk with dest := SMap.set 0xFFFF s.stk.dest i (leAt v 0 2) } })))

/-- STK_DQMAP_WRITE (R95). -/
def execStkDqmapWrite (r : Fin 262144) (x : RdRes) (s : State) : Ans := whenUp s fun s =>
  .next (ctrlRun s r.val 0x71 36 x noEarly (fun _ => recPut 1088 (fun _ => true) 4 (fun s i v =>
    { s with stk := { s.stk with dqmap := SMap.set 0 s.stk.dqmap i (leAt v 0 4) } })))

end Sys2Proof.Machine
end

