-- ==== Sys2Proof/Machine/Dispatch.lean ====
section
/-! DEFINITION. The dispatch of a command to its meaning, one arm per row of the table.
Log entries 6, 7. -/

namespace Sys2Proof.Machine

open Sys2Proof

/-- What a command does to everything but the queue. -/
def exec (i : Instr) (s : State) : Host.Outcome State Fault Refusal :=
  match i with
  | .refclkLost => Sys2Proof.Machine.execRefclkLost s
  | .refclkLossTimeout => Sys2Proof.Machine.execRefclkLossTimeout s
  | .refclkReturn => Sys2Proof.Machine.execRefclkReturn s
  | .frameReceive p w => Sys2Proof.Machine.execFrameReceive p w s
  | .hbmLookupComplete p err => Sys2Proof.Machine.execHbmLookupComplete p err s
  | .internalInputFrame p => Sys2Proof.Machine.execInternalInputFrame p s
  | .espInnerReentry => Sys2Proof.Machine.execEspInnerReentry s
  | .patternScanComplete e => Sys2Proof.Machine.execPatternScanComplete e s
  | .fragEntryExpiry => Sys2Proof.Machine.execFragEntryExpiry s
  | .egressSelect e => Sys2Proof.Machine.execEgressSelect e s
  | .selectionDisplace e => Sys2Proof.Machine.execSelectionDisplace e s
  | .frameTransmitStart e under => Sys2Proof.Machine.execFrameTransmitStart e under s
  | .pfcRefresh p pri => Sys2Proof.Machine.execPfcRefresh p pri s
  | .pfcFrameReceive p pause stop go => Sys2Proof.Machine.execPfcFrameReceive p pause stop go s
  | .pauseQuantaExpiry p pri => Sys2Proof.Machine.execPauseQuantaExpiry p pri s
  | .ethApply o => Sys2Proof.Machine.execEthApply o s
  | .linkLost p c => Sys2Proof.Machine.execLinkLost p c s
  | .portQualified p => Sys2Proof.Machine.execPortQualified p s
  | .holdTimerExpiry p => Sys2Proof.Machine.execHoldTimerExpiry p s
  | .flushCellReturn extra => Sys2Proof.Machine.execFlushCellReturn extra s
  | .linkTrainingTimeout p => Sys2Proof.Machine.execLinkTrainingTimeout p s
  | .verifyTimeout p => Sys2Proof.Machine.execVerifyTimeout p s
  | .laneCdrLoss x aligned => Sys2Proof.Machine.execLaneCdrLoss x aligned s
  | .pmdFault x => Sys2Proof.Machine.execPmdFault x s
  | .fecUncorrectedBurst x corrected bad => Sys2Proof.Machine.execFecUncorrectedBurst x corrected bad s
  | .sahrovUnitReceive j u => Sys2Proof.Machine.execSahrovUnitReceive j u s
  | .sahrovDataSend j => Sys2Proof.Machine.execSahrovDataSend j s
  | .sahrovReplayTimeout j => Sys2Proof.Machine.execSahrovReplayTimeout j s
  | .sahrovAckTimer j => Sys2Proof.Machine.execSahrovAckTimer j s
  | .hello j id lanes => Sys2Proof.Machine.execHello j id lanes s
  | .stkAck j seq nak => Sys2Proof.Machine.execStkAck j seq nak s
  | .stkCredit j tc lim => Sys2Proof.Machine.execStkCredit j tc lim s
  | .keepalive j beat lost => Sys2Proof.Machine.execKeepalive j beat lost s
  | .keepaliveTimer => Sys2Proof.Machine.execKeepaliveTimer s
  | .peerLossTimeout j => Sys2Proof.Machine.execPeerLossTimeout j s
  | .time j seq sec ns frac => Sys2Proof.Machine.execTime j seq sec ns frac s
  | .timeRpt j seq sec ns frac => Sys2Proof.Machine.execTimeRpt j seq sec ns frac s
  | .stateMark j seq kind => Sys2Proof.Machine.execStateMark j seq kind s
  | .stateAck j seq => Sys2Proof.Machine.execStateAck j seq s
  | .masterJoin => Sys2Proof.Machine.execMasterJoin s
  | .stkDestWrite r x => Sys2Proof.Machine.execStkDestWrite r x s
  | .stkDqmapWrite r x => Sys2Proof.Machine.execStkDqmapWrite r x s
  | .tblInsert r x => Sys2Proof.Machine.execTblInsert r x s
  | .tblDelete r x => Sys2Proof.Machine.execTblDelete r x s
  | .tblRead r x => Sys2Proof.Machine.execTblRead r x s
  | .actWrite r x => Sys2Proof.Machine.execActWrite r x s
  | .nodeWrite r x => Sys2Proof.Machine.execNodeWrite r x s
  | .graphCommit r => Sys2Proof.Machine.execGraphCommit r s
  | .editWrite r x => Sys2Proof.Machine.execEditWrite r x s
  | .tmplWrite r x => Sys2Proof.Machine.execTmplWrite r x s
  | .patWrite r x => Sys2Proof.Machine.execPatWrite r x s
  | .patCommit r => Sys2Proof.Machine.execPatCommit r s
  | .cntRead r x => Sys2Proof.Machine.execCntRead r x s
  | .fragFlush r => Sys2Proof.Machine.execFragFlush r s
  | .tableEnable t => Sys2Proof.Machine.execTableEnable t s
  | .tableReady t => Sys2Proof.Machine.execTableReady t s
  | .tableDisable t => Sys2Proof.Machine.execTableDisable t s
  | .granaryEnable en => Sys2Proof.Machine.execGranaryEnable en s
  | .qprofMinWrite ix v => Sys2Proof.Machine.execQprofMinWrite ix v s
  | .headroomConfigWrite w => Sys2Proof.Machine.execHeadroomConfigWrite w s
  | .deepReturn q errs => Sys2Proof.Machine.execDeepReturn q errs s
  | .multicastMemberEnqueue n => Sys2Proof.Machine.execMulticastMemberEnqueue n s
  | .filbertDelivery => Sys2Proof.Machine.execFilbertDelivery s
  | .mcGroupWrite r x => Sys2Proof.Machine.execMcGroupWrite r x s
  | .mcMemberWrite r x => Sys2Proof.Machine.execMcMemberWrite r x s
  | .qmapWrite r x => Sys2Proof.Machine.execQmapWrite r x s
  | .granarySramError g p row corrected => Sys2Proof.Machine.execGranarySramError g p row corrected s
  | .shaperRefill => Sys2Proof.Machine.execShaperRefill s
  | .gateEvent e boundary => Sys2Proof.Machine.execGateEvent e boundary s
  | .gateChange e => Sys2Proof.Machine.execGateChange e s
  | .gateConfigChange e => Sys2Proof.Machine.execGateConfigChange e s
  | .gateDisable e => Sys2Proof.Machine.execGateDisable e s
  | .tlyNodeWrite r x => Sys2Proof.Machine.execTlyNodeWrite r x s
  | .queueWrite r x => Sys2Proof.Machine.execQueueWrite r x s
  | .polWrite r x => Sys2Proof.Machine.execPolWrite r x s
  | .polCntRead r x => Sys2Proof.Machine.execPolCntRead r x s
  | .gateWrite r x => Sys2Proof.Machine.execGateWrite r x s
  | .stateRead r x => Sys2Proof.Machine.execStateRead r x s
  | .wireWrite h => Sys2Proof.Machine.execWireWrite h s
  | .wireWriteImm h => Sys2Proof.Machine.execWireWriteImm h s
  | .wireSend h => Sys2Proof.Machine.execWireSend h s
  | .wireSendImm h => Sys2Proof.Machine.execWireSendImm h s
  | .readReq d h => Sys2Proof.Machine.execReadReq d h s
  | .readResp h => Sys2Proof.Machine.execReadResp h s
  | .wireAtomic d h => Sys2Proof.Machine.execWireAtomic d h s
  | .atomicResp h => Sys2Proof.Machine.execAtomicResp h s
  | .ack => Sys2Proof.Machine.execAck s
  | .nak => Sys2Proof.Machine.execNak s
  | .credit => Sys2Proof.Machine.execCredit s
  | .creditRpt => Sys2Proof.Machine.execCreditRpt s
  | .dataPacketSend n fault => Sys2Proof.Machine.execDataPacketSend n fault s
  | .retransmit n x => Sys2Proof.Machine.execRetransmit n x s
  | .retransmitTimeout n => Sys2Proof.Machine.execRetransmitTimeout n s
  | .rnrDelayExpiry n psn => Sys2Proof.Machine.execRnrDelayExpiry n psn s
  | .creditRepeat n => Sys2Proof.Machine.execCreditRepeat n s
  | .creditRptRepeat n => Sys2Proof.Machine.execCreditRptRepeat n s
  | .ackDelayExpiry n => Sys2Proof.Machine.execAckDelayExpiry n s
  | .write r x => Sys2Proof.Machine.execWrite r x s
  | .writeImm r x => Sys2Proof.Machine.execWriteImm r x s
  | .send r x => Sys2Proof.Machine.execSend r x s
  | .sendImm r x => Sys2Proof.Machine.execSendImm r x s
  | .read r => Sys2Proof.Machine.execRead r s
  | .atomic r => Sys2Proof.Machine.execAtomic r s
  | .recv r => Sys2Proof.Machine.execRecv r s
  | .connAlloc r => Sys2Proof.Machine.execConnAlloc r s
  | .connConnect r x => Sys2Proof.Machine.execConnConnect r x s
  | .connDestroy r => Sys2Proof.Machine.execConnDestroy r s
  | .connQuery r => Sys2Proof.Machine.execConnQuery r s
  | .mrReg r => Sys2Proof.Machine.execMrReg r s
  | .mrDereg r => Sys2Proof.Machine.execMrDereg r s
  | .contextFetchComplete n x => Sys2Proof.Machine.execContextFetchComplete n x s
  | .eviction q => Sys2Proof.Machine.execEviction q s
  | .contextWritebackComplete n ok => Sys2Proof.Machine.execContextWritebackComplete n ok s
  | .evictPendingExpiry n => Sys2Proof.Machine.execEvictPendingExpiry n s
  | .closingComplete n => Sys2Proof.Machine.execClosingComplete n s
  | .carterEnable en => Sys2Proof.Machine.execCarterEnable en s
  | .pathWrite r x => Sys2Proof.Machine.execPathWrite r x s
  | .jobDispatch r q c w => Sys2Proof.Machine.execJobDispatch r q c w s
  | .blockCompare n blk pair x => Sys2Proof.Machine.execBlockCompare n blk pair x s
  | .huskJobComplete n => Sys2Proof.Machine.execHuskJobComplete n s
  | .keyLoadComplete c n => Sys2Proof.Machine.execKeyLoadComplete c n s
  | .keyImport r x => Sys2Proof.Machine.execKeyImport r x s
  | .keyGenerate r => Sys2Proof.Machine.execKeyGenerate r s
  | .keyExport r => Sys2Proof.Machine.execKeyExport r s
  | .keyDestroy r => Sys2Proof.Machine.execKeyDestroy r s
  | .keyDestroyComplete => Sys2Proof.Machine.execKeyDestroyComplete s
  | .keyQuery r => Sys2Proof.Machine.execKeyQuery r s
  | .lckDomWrite d base count => Sys2Proof.Machine.execLckDomWrite d base count s
  | .rangeZeroizeComplete d => Sys2Proof.Machine.execRangeZeroizeComplete d s
  | .slotStoreReady => Sys2Proof.Machine.execSlotStoreReady s
  | .slotEccError n corrected => Sys2Proof.Machine.execSlotEccError n corrected s
  | .entropyFail again => Sys2Proof.Machine.execEntropyFail again s
  | .rootPortEnable n en => Sys2Proof.Machine.execRootPortEnable n en s
  | .presenceChange n present => Sys2Proof.Machine.execPresenceChange n present s
  | .powerFault n => Sys2Proof.Machine.execPowerFault n s
  | .buttonPress n => Sys2Proof.Machine.execButtonPress n s
  | .removalWindowExpiry n => Sys2Proof.Machine.execRemovalWindowExpiry n s
  | .pwrWaitExpiry n => Sys2Proof.Machine.execPwrWaitExpiry n s
  | .perstReleaseDelay n => Sys2Proof.Machine.execPerstReleaseDelay n s
  | .linkActive n speed width => Sys2Proof.Machine.execLinkActive n speed width s
  | .trainingTimeout n => Sys2Proof.Machine.execTrainingTimeout n s
  | .enumerationDelay n vid => Sys2Proof.Machine.execEnumerationDelay n vid s
  | .driveInitComplete n x => Sys2Proof.Machine.execDriveInitComplete n x s
  | .quiesceComplete n => Sys2Proof.Machine.execQuiesceComplete n s
  | .dpcTrigger n c => Sys2Proof.Machine.execDpcTrigger n c s
  | .dpcRelease n => Sys2Proof.Machine.execDpcRelease n s
  | .slotControlWrite n v => Sys2Proof.Machine.execSlotControlWrite n v s
  | .remove n => Sys2Proof.Machine.execRemove n s
  | .driveCompletion n cid sct sc => Sys2Proof.Machine.execDriveCompletion n cid sct sc s
  | .driveCmdTimeout n cid => Sys2Proof.Machine.execDriveCmdTimeout n cid s
  | .abortTimeout n cid => Sys2Proof.Machine.execAbortTimeout n cid s
  | .aerError n sev b cid => Sys2Proof.Machine.execAerError n sev b cid s
  | .driveInboundRequest n addr x => Sys2Proof.Machine.execDriveInboundRequest n addr x s
  | .sqDoorbell k q v => Sys2Proof.Machine.execSqDoorbell k q v s
  | .cqDoorbell k q v => Sys2Proof.Machine.execCqDoorbell k q v s
  | .nvmWrite k q x data h => Sys2Proof.Machine.execNvmWrite k q x data h s
  | .nvmRead k q x list h => Sys2Proof.Machine.execNvmRead k q x list h s
  | .writeZeroes k q x h => Sys2Proof.Machine.execWriteZeroes k q x h s
  | .datasetManagement k q x data => Sys2Proof.Machine.execDatasetManagement k q x data s
  | .nvmFlush k q x => Sys2Proof.Machine.execNvmFlush k q x s
  | .createIoSq k x => Sys2Proof.Machine.execCreateIoSq k x s
  | .deleteIoSq k x => Sys2Proof.Machine.execDeleteIoSq k x s
  | .createIoCq k x => Sys2Proof.Machine.execCreateIoCq k x s
  | .deleteIoCq k x => Sys2Proof.Machine.execDeleteIoCq k x s
  | .getLogPage k x list h => Sys2Proof.Machine.execGetLogPage k x list h s
  | .identify k x h => Sys2Proof.Machine.execIdentify k x h s
  | .abort k x => Sys2Proof.Machine.execAbort k x s
  | .setFeatures k x => Sys2Proof.Machine.execSetFeatures k x s
  | .getFeatures k x => Sys2Proof.Machine.execGetFeatures k x s
  | .asynchronousEventRequest k x => Sys2Proof.Machine.execAsynchronousEventRequest k x s
  | .ccWrite k v => Sys2Proof.Machine.execCcWrite k v s
  | .legComplete h => Sys2Proof.Machine.execLegComplete h s
  | .nsWrite r x => Sys2Proof.Machine.execNsWrite r x s
  | .extWrite r x => Sys2Proof.Machine.execExtWrite r x s
  | .nsRead r x => Sys2Proof.Machine.execNsRead r x s
  | .stgEnable en => Sys2Proof.Machine.execStgEnable en s
  | .inboundMemoryRequest a addr x => Sys2Proof.Machine.execInboundMemoryRequest a addr x s
  | .configRequest a f dw x => Sys2Proof.Machine.execConfigRequest a f dw x s
  | .busMasterEnableClear a f => Sys2Proof.Machine.execBusMasterEnableClear a f s
  | .functionLevelReset a f => Sys2Proof.Machine.execFunctionLevelReset a f s
  | .portReset a c => Sys2Proof.Machine.execPortReset a c s
  | .d3hotEntry a f => Sys2Proof.Machine.execD3hotEntry a f s
  | .d0Return a f => Sys2Proof.Machine.execD0Return a f s
  | .aspmL1Entry a lpm => Sys2Proof.Machine.execAspmL1Entry a lpm s
  | .readCompletion a t x => Sys2Proof.Machine.execReadCompletion a t x s
  | .completionTimeout a t => Sys2Proof.Machine.execCompletionTimeout a t s
  | .quarantineEnd a t => Sys2Proof.Machine.execQuarantineEnd a t s
  | .translationResponse a f pasid page x => Sys2Proof.Machine.execTranslationResponse a f pasid page x s
  | .pageRequestGroupResponse a f pasid page ok => Sys2Proof.Machine.execPageRequestGroupResponse a f pasid page ok s
  | .priTimeout a f pasid page => Sys2Proof.Machine.execPriTimeout a f pasid page s
  | .invalidationRequest a f itag pasid lo hi => Sys2Proof.Machine.execInvalidationRequest a f itag pasid lo hi s
  | .invalidationCompletion a f itag => Sys2Proof.Machine.execInvalidationCompletion a f itag s
  | .pendingMessageRelease e => Sys2Proof.Machine.execPendingMessageRelease e s
  | .mailboxGo k => Sys2Proof.Machine.execMailboxGo k s
  | .domCreate => Sys2Proof.Machine.execDomCreate s
  | .domDestroy => Sys2Proof.Machine.execDomDestroy s
  | .domQuery => Sys2Proof.Machine.execDomQuery s
  | .instCreate => Sys2Proof.Machine.execInstCreate s
  | .instDestroy => Sys2Proof.Machine.execInstDestroy s
  | .instReset => Sys2Proof.Machine.execInstReset s
  | .instQuery => Sys2Proof.Machine.execInstQuery s
  | .irqWrite => Sys2Proof.Machine.execIrqWrite s
  | .ringCreate => Sys2Proof.Machine.execRingCreate s
  | .ringDestroy => Sys2Proof.Machine.execRingDestroy s
  | .ringModify => Sys2Proof.Machine.execRingModify s
  | .instanceResetComplete ix => Sys2Proof.Machine.execInstanceResetComplete ix s
  | .doorbell page w => Sys2Proof.Machine.execDoorbell page w s
  | .cqdb page w => Sys2Proof.Machine.execCqdb page w s
  | .ringCtlReset page w => Sys2Proof.Machine.execRingCtlReset page w s
  | .ringResetComplete r => Sys2Proof.Machine.execRingResetComplete r s
  | .descriptorFetch r => Sys2Proof.Machine.execDescriptorFetch r s
  | .txFrame r x => Sys2Proof.Machine.execTxFrame r x s
  | .rxBuf r => Sys2Proof.Machine.execRxBuf r s
  | .rxFrameDelivery fault => Sys2Proof.Machine.execRxFrameDelivery fault s
  | .moderationTimer r => Sys2Proof.Machine.execModerationTimer r s
  | .chSend h rd rs1 => Sys2Proof.Machine.execChSend h rd rs1 s
  | .chRecv h rd rs1 => Sys2Proof.Machine.execChRecv h rd rs1 s
  | .chFill h rd rs1 => Sys2Proof.Machine.execChFill h rd rs1 s
  | .evSend h rd rs1 rs2 => Sys2Proof.Machine.execEvSend h rd rs1 rs2 s
  | .evWait h rd rs1 => Sys2Proof.Machine.execEvWait h rd rs1 s
  | .evPoll h rd rs1 => Sys2Proof.Machine.execEvPoll h rd rs1 s
  | .evWaitWake h => Sys2Proof.Machine.execEvWaitWake h s
  | .riscvInstruction h w x => Sys2Proof.Machine.execRiscvInstruction h w x s
  | .timerInterrupt h => Sys2Proof.Machine.execTimerInterrupt h s
  | .irqPendWrite h v => Sys2Proof.Machine.execIrqPendWrite h v s
  | .waitcycleSample g => Sys2Proof.Machine.execWaitcycleSample g s
  | .issueTableApply c => Sys2Proof.Machine.execIssueTableApply c s
  | .hartReset h => Sys2Proof.Machine.execHartReset h s
  | .hartRelease h => Sys2Proof.Machine.execHartRelease h s
  | .frameBufferReturn => Sys2Proof.Machine.execFrameBufferReturn s
  | .transmitMessage k => Sys2Proof.Machine.execTransmitMessage k s
  | .halt h => Sys2Proof.Machine.execHalt h s
  | .resume h => Sys2Proof.Machine.execResume h s
  | .singleStep h w x => Sys2Proof.Machine.execSingleStep h w x s
  | .hartreset h => Sys2Proof.Machine.execHartreset h s
  | .accessRegister h n wr prog post => Sys2Proof.Machine.execAccessRegister h n wr prog post s
  | .accessMemory h a k wr => Sys2Proof.Machine.execAccessMemory h a k wr s
  | .coreEccError c => Sys2Proof.Machine.execCoreEccError c s
  | .channelEnable n => Sys2Proof.Machine.execChannelEnable n s
  | .timeCapture => Sys2Proof.Machine.execTimeCapture s
  | .timeSet add neg => Sys2Proof.Machine.execTimeSet add neg s
  | .sampleCommit kind => Sys2Proof.Machine.execSampleCommit kind s
  | .servoHoldTimeout => Sys2Proof.Machine.execServoHoldTimeout s
  | .servoModeWrite mode => Sys2Proof.Machine.execServoModeWrite mode s
  | .ppsInEdge => Sys2Proof.Machine.execPpsInEdge s
  | .ppsOutEdge => Sys2Proof.Machine.execPpsOutEdge s
  | .stackTimePeriod => Sys2Proof.Machine.execStackTimePeriod s
  | .eecRefQualified q0 q1 => Sys2Proof.Machine.execEecRefQualified q0 q1 s
  | .eecRefLost r avg => Sys2Proof.Machine.execEecRefLost r avg s
  | .synceEnableWrite en => Sys2Proof.Machine.execSynceEnableWrite en s
  | .pwrGoActive m => Sys2Proof.Machine.execPwrGoActive m s
  | .pwrGoTrimmed m => Sys2Proof.Machine.execPwrGoTrimmed m s
  | .pwrGoDormant m => Sys2Proof.Machine.execPwrGoDormant m s
  | .pwrGoStandby m => Sys2Proof.Machine.execPwrGoStandby m s
  | .trimWrite m w v => Sys2Proof.Machine.execTrimWrite m w v s
  | .dormantEntry => Sys2Proof.Machine.execDormantEntry s
  | .dormantWaitExpiry => Sys2Proof.Machine.execDormantWaitExpiry s
  | .wakeTimerExpiry => Sys2Proof.Machine.execWakeTimerExpiry s
  | .domainGate d => Sys2Proof.Machine.execDomainGate d s
  | .pwronRstN ramp ownerSel split id => Sys2Proof.Machine.execPwronRstN ramp ownerSel split id s
  | .sysRstN => Sys2Proof.Machine.execSysRstN s
  | .rstWarm m key => Sys2Proof.Machine.execRstWarm m key s
  | .rstCold m key => Sys2Proof.Machine.execRstCold m key s
  | .blockResetEthOctet m u => Sys2Proof.Machine.execBlockResetEthOctet m u s
  | .blockResetPipeline m u => Sys2Proof.Machine.execBlockResetPipeline m u s
  | .blockResetHuskCluster m u => Sys2Proof.Machine.execBlockResetHuskCluster m u s
  | .blockResetFilbertCore m u => Sys2Proof.Machine.execBlockResetFilbertCore m u s
  | .blockResetRootPort m u => Sys2Proof.Machine.execBlockResetRootPort m u s
  | .blockResetPatternMatcher m u => Sys2Proof.Machine.execBlockResetPatternMatcher m u s
  | .tempSample ix raw => Sys2Proof.Machine.execTempSample ix raw s
  | .voltSample m raw => Sys2Proof.Machine.execVoltSample m raw s
  | .avsUpdate => Sys2Proof.Machine.execAvsUpdate s
  | .failureReport k u row lines => Sys2Proof.Machine.execFailureReport k u row lines s
  | .criticalRecovery => Sys2Proof.Machine.execCriticalRecovery s
  | .retirementClear m kind u key => Sys2Proof.Machine.execRetirementClear m kind u key s
  | .bellHb key => Sys2Proof.Machine.execBellHb key s
  | .lockstepMismatch => Sys2Proof.Machine.execLockstepMismatch s
  | .heartbeatExpiry => Sys2Proof.Machine.execHeartbeatExpiry s
  | .thermalTrip ix => Sys2Proof.Machine.execThermalTrip ix s
  | .mctpWake sess => Sys2Proof.Machine.execMctpWake sess s
  | .mctpWarm sess => Sys2Proof.Machine.execMctpWarm sess s
  | .mctpCold sess => Sys2Proof.Machine.execMctpCold sess s
  | .readLog sess start => Sys2Proof.Machine.execReadLog sess start s
  | .readCause sess => Sys2Proof.Machine.execReadCause sess s
  | .setEndpointId inst op eid => Sys2Proof.Machine.execSetEndpointId inst op eid s
  | .getEndpointId inst => Sys2Proof.Machine.execGetEndpointId inst s
  | .getMctpVersionSupport inst ty => Sys2Proof.Machine.execGetMctpVersionSupport inst ty s
  | .getMessageTypeSupport inst => Sys2Proof.Machine.execGetMessageTypeSupport inst s
  | .getVendorDefinedMessageSupport inst sel => Sys2Proof.Machine.execGetVendorDefinedMessageSupport inst sel s
  | .gettid inst => Sys2Proof.Machine.execGettid inst s
  | .getpldmversion inst flag ty => Sys2Proof.Machine.execGetpldmversion inst flag ty s
  | .getpldmtypes inst => Sys2Proof.Machine.execGetpldmtypes inst s
  | .getpldmcommands inst ty => Sys2Proof.Machine.execGetpldmcommands inst ty s
  | .getpdrrepositoryinfo inst => Sys2Proof.Machine.execGetpdrrepositoryinfo inst s
  | .getpdr inst handle part flag count => Sys2Proof.Machine.execGetpdr inst handle part flag count s
  | .getsensorreading inst id => Sys2Proof.Machine.execGetsensorreading inst id s
  | .getstatesensorreadings inst id => Sys2Proof.Machine.execGetstatesensorreadings inst id s
  | .seteventreceiver inst enable proto eid => Sys2Proof.Machine.execSeteventreceiver inst enable proto eid s
  | .reeveImageLoaded x => Sys2Proof.Machine.execReeveImageLoaded x s
  | .filbertImageLoaded x => Sys2Proof.Machine.execFilbertImageLoaded x s
  | .fwReady => Sys2Proof.Machine.execFwReady s
  | .getVersion r => Sys2Proof.Machine.execGetVersion r s
  | .getCapabilities r => Sys2Proof.Machine.execGetCapabilities r s
  | .negotiateAlgorithms r => Sys2Proof.Machine.execNegotiateAlgorithms r s
  | .getDigests r => Sys2Proof.Machine.execGetDigests r s
  | .getCertificate r => Sys2Proof.Machine.execGetCertificate r s
  | .challenge r => Sys2Proof.Machine.execChallenge r s
  | .getMeasurements r => Sys2Proof.Machine.execGetMeasurements r s
  | .keyExchange r => Sys2Proof.Machine.execKeyExchange r s
  | .finish r => Sys2Proof.Machine.execFinish r s
  | .heartbeat r => Sys2Proof.Machine.execHeartbeat r s
  | .endSession r => Sys2Proof.Machine.execEndSession r s
  | .getEvidence sess nonce mask => Sys2Proof.Machine.execGetEvidence sess nonce mask s
  | .getHssChain sess off => Sys2Proof.Machine.execGetHssChain sess off s
  | .fwWrite sess ty off len data => Sys2Proof.Machine.execFwWrite sess ty off len data s
  | .fwActivate sess ty x => Sys2Proof.Machine.execFwActivate sess ty x s
  | .newChal m => Sys2Proof.Machine.execNewChal m s
  | .verify m => Sys2Proof.Machine.execVerify m s
  | .unlockVerifyComplete => Sys2Proof.Machine.execUnlockVerifyComplete s
  | .relock m => Sys2Proof.Machine.execRelock m s
  | .dbgregRead w => Sys2Proof.Machine.execDbgregRead w s
  | .dbgregWrite w v => Sys2Proof.Machine.execDbgregWrite w v s
  | .rcRead m a wide => Sys2Proof.Machine.execRcRead m a wide s
  | .lockAll m => Sys2Proof.Machine.execLockAll m s
  | .registerWrite m a x => Sys2Proof.Machine.execRegisterWrite m a x s
  | .laneLockAcquired x => Sys2Proof.Machine.execLaneLockAcquired x s
  | .hostLinkUp a speed width flit credits => Sys2Proof.Machine.execHostLinkUp a speed width flit credits s
  | .rootPortLinkDown n => Sys2Proof.Machine.execRootPortLinkDown n s
  | .interruptCoalescingExpiry k q => Sys2Proof.Machine.execInterruptCoalescingExpiry k q s
  | .hifInternalError a corrected => Sys2Proof.Machine.execHifInternalError a corrected s
  | .powerLoss => Sys2Proof.Machine.execPowerLoss s
  | .rootPllLockLoss => Sys2Proof.Machine.execRootPllLockLoss s
  | .bootComplete => Sys2Proof.Machine.execBootComplete s
  | .pcieCreditReturn a n => Sys2Proof.Machine.execPcieCreditReturn a n s
  | .chunkSend r => Sys2Proof.Machine.execChunkSend r s
  | .chunkGet r => Sys2Proof.Machine.execChunkGet r s
  | .getEncapsulatedRequest r => Sys2Proof.Machine.execGetEncapsulatedRequest r s
  | .deliverEncapsulatedResponse r => Sys2Proof.Machine.execDeliverEncapsulatedResponse r s
  | .sessionHeartbeatExpiry id => Sys2Proof.Machine.execSessionHeartbeatExpiry id s

end Sys2Proof.Machine
end

