-- ==== Sys2Proof/Machine/TickOps.lean ====
section
/-! DEFINITION. What time alone does while no command waits: one period of CLK_TIME passes (R5, R34, R533).
Log entries 1, 109, 147. -/

namespace Sys2Proof.Machine

open Sys2Proof

/-- One period of CLK_TIME with nothing commanded: elapsed time and TU time advance, the offset engine and the PPS pulse end
when their time has come, frames that a DORMANT exit held enter once the data path is usable, and Granary's spill writes
go on (R197), connections do what they owed, and reads that waited for a Husk cluster end (R44). -/
def clockTick (s : State) : State :=
  let t := drainHeld (clockTo s (s.now + tickLen))
  if asleep t then t else judgeReads (payAll (spillFor t (t.grn.spillTime + 10 * tickLen) t.grn.await.length)) .done

end Sys2Proof.Machine
end

