-- ==== Sys2Proof/Safety.lean ====
section
/-! DEFINITION. What a sound state of the block is, and what every command leaves as it was: the terms in which statements
about all commands are written. -/

namespace Sys2Proof.Machine

open Sys2Proof

/-- R502: no channel with a hardware consumer holds more messages than its depth. -/
def ChansOk (ch : SMap (List Bytes)) : Prop := ∀ n, hwDepth n ≠ 0 → (SMap.get [] ch n).length ≤ hwDepth n

/-- HBM and the cores' scratch are in canonical form, and no hardware channel holds more than its depth. -/
structure Inv (s : State) : Prop where
  hbm : Memory.wf s.hbm = true
  scratch : Memory.wf s.fil.scratch = true
  chans : ChansOk s.fil.chan

/-- The parts of the state: the register file, the clock, HBM, the substate of each block, what was sent, the free values drawn. -/
inductive Part where
  | regs | now | hbm | hif | dom | fil | rev | tu | eth | stk | win
  | grn | tly | lck | hsk | car | stg | pwr | trust | out | free
deriving DecidableEq, Repr

/-- Part `p` is the same in two states. -/
def Part.same (p : Part) (s t : State) : Prop :=
  match p with
  | .regs => t.regs = s.regs
  | .now => t.now = s.now
  | .hbm => t.hbm = s.hbm
  | .hif => t.hif = s.hif
  | .dom => t.dom = s.dom
  | .fil => t.fil = s.fil
  | .rev => t.rev = s.rev
  | .tu => t.tu = s.tu
  | .eth => t.eth = s.eth
  | .stk => t.stk = s.stk
  | .win => t.win = s.win
  | .grn => t.grn = s.grn
  | .tly => t.tly = s.tly
  | .lck => t.lck = s.lck
  | .hsk => t.hsk = s.hsk
  | .car => t.car = s.car
  | .stg => t.stg = s.stg
  | .pwr => t.pwr = s.pwr
  | .trust => t.trust = s.trust
  | .out => t.out = s.out
  | .free => t.freeCtr = s.freeCtr

/-- The parts of the state that a command may change: those of the unit it acts on and of the units that answer it. Each
command leaves every other part as it was. -/
def touched (c : Instr) : List Part :=
  match c with
  | .linkTrainingTimeout .. | .getEndpointId .. | .getMctpVersionSupport .. | .getMessageTypeSupport ..
    | .getVendorDefinedMessageSupport .. | .gettid .. | .getpldmversion .. | .getpldmtypes .. | .getpldmcommands ..
    | .getpdrrepositoryinfo .. | .getpdr .. | .getstatesensorreadings .. => [.out]
  | .refclkLost | .pauseQuantaExpiry .. | .tableReady .. | .fwReady | .rootPllLockLoss | .bootComplete => [.regs]
  | .bellHb .. => [.rev]
  | .stkCredit .. | .keepalive .. | .stateAck .. | .masterJoin => [.stk]
  | .egressSelect .. | .shaperRefill => [.tly]
  | .sessionHeartbeatExpiry .. => [.trust]
  | .getsensorreading .. => [.out, .free]
  | .evWaitWake .. | .timerInterrupt .. | .waitcycleSample .. | .frameBufferReturn | .halt .. | .resume .. | .hartreset .. =>
     [.regs, .fil]
  | .hostLinkUp .. => [.regs, .hif]
  | .pfcRefresh .. | .aspmL1Entry .. => [.regs, .out]
  | .selectionDisplace .. => [.regs, .tly]
  | .unlockVerifyComplete => [.regs, .trust]
  | .espInnerReentry | .fragEntryExpiry => [.regs, .win]
  | .setEndpointId .. | .seteventreceiver .. => [.rev, .out]
  | .sahrovDataSend .. | .sahrovAckTimer .. => [.stk, .out]
  | .readLog .. | .readCause .. | .getVersion .. | .getCapabilities .. | .negotiateAlgorithms .. | .getDigests ..
    | .getCertificate .. | .finish .. | .heartbeat .. | .endSession .. | .getHssChain .. | .fwWrite .. | .chunkGet ..
    | .getEncapsulatedRequest .. | .deliverEncapsulatedResponse .. => [.trust, .out]
  | .verifyTimeout .. | .gateEvent .. | .laneLockAcquired .. => [.regs, .eth, .out]
  | .transmitMessage .. => [.regs, .fil, .win]
  | .flushCellReturn .. => [.regs, .grn, .out]
  | .invalidationCompletion .. | .pendingMessageRelease .. | .pcieCreditReturn .. => [.regs, .hif, .out]
  | .rangeZeroizeComplete .. | .slotStoreReady => [.regs, .lck, .free]
  | .driveCompletion .. => [.regs, .stg, .out]
  | .fwActivate .. | .dbgregRead .. => [.regs, .trust, .out]
  | .challenge .. | .getMeasurements .. | .keyExchange .. => [.trust, .out, .free]
  | .gateConfigChange .. => [.regs, .eth, .tly, .out]
  | .filbertImageLoaded .. => [.regs, .hbm, .fil, .trust]
  | .graphCommit .. | .patCommit .. | .recv .. | .keyQuery .. | .domCreate | .domQuery | .instCreate | .instQuery
    | .irqWrite | .ringCreate | .ringModify | .ringResetComplete .. | .descriptorFetch .. | .rxBuf .. =>
     [.regs, .hif, .dom, .out]
  | .getEvidence .. | .chunkSend .. => [.regs, .trust, .out, .free]
  | .eecRefQualified .. | .eecRefLost .. => [.regs, .tu, .eth, .out]
  | .time .. => [.tu, .stk, .out, .free]
  | .multicastMemberEnqueue .. => [.regs, .grn, .tly, .out, .free]
  | .filbertDelivery => [.regs, .hbm, .fil, .grn, .out]
  | .driveInboundRequest .. => [.regs, .hbm, .fil, .stg, .out]
  | .mrDereg .. | .closingComplete .. => [.regs, .hif, .dom, .car, .out]
  | .rxFrameDelivery .. => [.regs, .hif, .dom, .grn, .out]
  | .keyDestroyComplete => [.regs, .hif, .dom, .lck, .out]
  | .stateRead .. | .nsRead .. => [.regs, .hif, .dom, .out, .free]
  | .fragFlush .. => [.regs, .hif, .dom, .win, .out]
  | .entropyFail .. => [.regs, .hif, .fil, .rev, .out]
  | .presenceChange .. | .buttonPress .. | .linkActive .. | .quiesceComplete .. | .dpcTrigger .. | .dpcRelease ..
    | .abortTimeout .. | .aerError .. | .rootPortLinkDown .. => [.regs, .hif, .fil, .stg, .out]
  | .getLogPage .. | .identify .. | .setFeatures .. | .getFeatures .. | .asynchronousEventRequest .. =>
     [.regs, .hif, .stg, .out, .free]
  | .enumerationDelay .. | .stackTimePeriod => [.regs, .now, .tu, .out, .free]
  | .ppsInEdge => [.regs, .tu, .eth, .out, .free]
  | .dormantEntry => [.regs, .tu, .eth, .pwr, .out]
  | .patternScanComplete .. => [.regs, .win, .grn, .out, .free]
  | .sahrovReplayTimeout .. | .stkAck .. => [.regs, .eth, .stk, .grn, .tly, .out]
  | .stateMark .. => [.regs, .hbm, .fil, .stk, .win, .out]
  | .pathWrite .. => [.regs, .hif, .dom, .car, .out, .free]
  | .mcGroupWrite .. | .mcMemberWrite .. | .qmapWrite .. => [.regs, .hif, .dom, .grn, .out, .free]
  | .ringDestroy => [.regs, .hif, .dom, .lck, .car, .out]
  | .keyDestroy .. | .instanceResetComplete .. => [.regs, .hif, .dom, .lck, .hsk, .out]
  | .keyImport .. | .keyGenerate .. | .keyExport .. => [.regs, .hif, .dom, .lck, .out, .free]
  | .nsWrite .. | .extWrite .. => [.regs, .hif, .dom, .stg, .out, .free]
  | .stkDestWrite .. | .stkDqmapWrite .. => [.regs, .hif, .dom, .stk, .out, .free]
  | .tlyNodeWrite .. | .queueWrite .. | .polWrite .. | .polCntRead .. | .gateWrite .. =>
     [.regs, .hif, .dom, .tly, .out, .free]
  | .nodeWrite .. | .editWrite .. | .tmplWrite .. | .patWrite .. | .cntRead .. | .txFrame .. =>
     [.regs, .hif, .dom, .win, .out, .free]
  | .hifInternalError .. => [.regs, .hif, .fil, .rev, .out, .free]
  | .powerFault .. | .driveInitComplete .. => [.regs, .hif, .fil, .rev, .stg, .out]
  | .ppsOutEdge => [.regs, .now, .fil, .tu, .out, .free]
  | .quarantineEnd .. => [.regs, .now, .hif, .tu, .out, .free]
  | .avsUpdate => [.regs, .now, .rev, .tu, .out, .free]
  | .servoHoldTimeout => [.regs, .now, .tu, .eth, .out, .free]
  | .dormantWaitExpiry => [.regs, .now, .tu, .pwr, .out, .free]
  | .perstReleaseDelay .. => [.regs, .now, .tu, .stg, .out, .free]
  | .keepaliveTimer => [.regs, .now, .tu, .stk, .out, .free]
  | .timeRpt .. => [.regs, .tu, .eth, .stk, .out, .free]
  | .read .. | .atomic .. | .connQuery .. => [.regs, .hbm, .hif, .dom, .fil, .car, .out]
  | .legComplete .. => [.regs, .hbm, .hif, .fil, .car, .stg, .out]
  | .actWrite .. => [.regs, .hif, .dom, .stk, .win, .out, .free]
  | .granarySramError .. => [.regs, .hif, .fil, .rev, .grn, .car, .out]
  | .deepReturn .. => [.regs, .hif, .fil, .rev, .grn, .out, .free]
  | .slotEccError .. => [.regs, .hif, .fil, .rev, .lck, .hsk, .out]
  | .chSend .. | .chRecv .. | .chFill .. | .evSend .. | .evWait .. | .evPoll .. => [.regs, .now, .fil, .rev, .tu, .out, .free]
  | .priTimeout .. | .moderationTimer .. => [.regs, .now, .hif, .dom, .tu, .out, .free]
  | .interruptCoalescingExpiry .. => [.regs, .now, .hif, .tu, .stg, .out, .free]
  | .keyLoadComplete .. => [.regs, .now, .rev, .tu, .hsk, .out, .free]
  | .frameTransmitStart .. => [.regs, .fil, .eth, .stk, .grn, .tly, .out, .free]
  | .connAlloc .. | .mrReg .. => [.regs, .hbm, .hif, .dom, .fil, .car, .out, .free]
  | .tblRead .. => [.regs, .hbm, .hif, .dom, .fil, .win, .out, .free]
  | .nvmWrite .. | .nvmRead .. | .writeZeroes .. | .datasetManagement .. | .nvmFlush .. | .createIoSq .. | .deleteIoSq ..
    | .createIoCq .. | .deleteIoCq .. | .abort .. => [.regs, .hbm, .hif, .fil, .car, .stg, .out, .free]
  | .linkLost .. | .laneCdrLoss .. | .pmdFault .. | .fecUncorrectedBurst .. =>
     [.regs, .hif, .fil, .rev, .eth, .grn, .tly, .out]
  | .rnrDelayExpiry .. => [.regs, .now, .hbm, .fil, .tu, .car, .out, .free]
  | .removalWindowExpiry .. | .pwrWaitExpiry .. => [.regs, .now, .hif, .fil, .tu, .stg, .out, .free]
  | .holdTimerExpiry .. => [.regs, .now, .tu, .eth, .grn, .tly, .out, .free]
  | .connDestroy .. => [.regs, .hbm, .hif, .dom, .fil, .grn, .car, .stg, .out]
  | .tblInsert .. | .tblDelete .. => [.regs, .hbm, .hif, .dom, .fil, .stk, .win, .out, .free]
  | .hello .. => [.regs, .hif, .fil, .rev, .eth, .stk, .grn, .tly, .out]
  | .jobDispatch .. => [.regs, .now, .fil, .rev, .tu, .win, .hsk, .out, .free]
  | .blockCompare .. => [.regs, .now, .hif, .fil, .rev, .tu, .hsk, .out, .free]
  | .trainingTimeout .. | .driveCmdTimeout .. => [.regs, .now, .hif, .fil, .rev, .tu, .stg, .out, .free]
  | .portQualified .. | .peerLossTimeout .. => [.regs, .now, .tu, .eth, .stk, .grn, .tly, .out, .free]
  | .instDestroy | .instReset => [.regs, .hbm, .hif, .dom, .fil, .grn, .lck, .car, .stg, .out]
  | .dataPacketSend .. | .contextWritebackComplete .. => [.regs, .hbm, .hif, .dom, .fil, .win, .grn, .car, .stg, .out]
  | .internalInputFrame .. => [.regs, .hbm, .hif, .dom, .fil, .win, .grn, .tly, .out, .free]
  | .domainGate .. => [.regs, .hif, .fil, .eth, .win, .grn, .tly, .hsk, .stg, .out]
  | .huskJobComplete .. => [.regs, .now, .hbm, .fil, .rev, .tu, .win, .hsk, .out, .free]
  | .completionTimeout .. => [.regs, .now, .hbm, .hif, .dom, .fil, .tu, .car, .out, .free]
  | .domDestroy => [.regs, .hbm, .hif, .dom, .fil, .grn, .lck, .hsk, .car, .stg, .out]
  | .hbmLookupComplete .. => [.regs, .hbm, .hif, .dom, .fil, .rev, .win, .grn, .tly, .out, .free]
  | .wireSend .. | .wireSendImm .. | .readResp .. | .atomicResp .. | .ack | .nak | .credit | .creditRpt | .write ..
    | .writeImm .. | .send .. | .sendImm .. | .connConnect .. | .eviction .. =>
     [.regs, .hbm, .hif, .dom, .fil, .win, .grn, .car, .stg, .out, .free]
  | .refclkReturn => [.regs, .hif, .fil, .eth, .win, .grn, .tly, .hsk, .stg, .pwr, .out]
  | .wireWrite .. | .wireWriteImm .. | .readReq .. | .wireAtomic .. | .retransmit .. =>
     [.regs, .hbm, .hif, .dom, .fil, .rev, .win, .grn, .car, .stg, .out, .free]
  | .refclkLossTimeout | .lockstepMismatch | .thermalTrip .. =>
     [.regs, .hif, .fil, .rev, .eth, .win, .grn, .tly, .hsk, .stg, .pwr, .out]
  | .reeveImageLoaded .. => [.regs, .hif, .fil, .rev, .eth, .win, .grn, .tly, .hsk, .stg, .pwr, .trust, .out]
  | .retransmitTimeout .. | .creditRepeat .. | .creditRptRepeat .. | .ackDelayExpiry .. | .evictPendingExpiry .. =>
     [.regs, .now, .hbm, .hif, .dom, .fil, .tu, .win, .grn, .car, .stg, .out, .free]
  | .contextFetchComplete .. => [.regs, .now, .hbm, .hif, .dom, .fil, .rev, .tu, .win, .grn, .car, .stg, .out, .free]
  | .coreEccError .. | .failureReport .. =>
     [.regs, .now, .hif, .fil, .rev, .tu, .eth, .win, .grn, .tly, .hsk, .stg, .out, .free]
  | .pfcFrameReceive .. | .ethApply .. | .sahrovUnitReceive .. | .tableEnable .. | .tableDisable .. | .granaryEnable ..
    | .qprofMinWrite .. | .headroomConfigWrite .. | .gateChange .. | .gateDisable .. | .carterEnable .. | .stgEnable ..
    | .d3hotEntry .. | .d0Return .. | .invalidationRequest .. | .doorbell .. | .irqPendWrite .. | .issueTableApply ..
    | .hartReset .. | .hartRelease .. | .channelEnable .. | .timeCapture | .timeSet .. | .sampleCommit ..
    | .servoModeWrite .. | .synceEnableWrite .. | .retirementClear .. =>
     [.regs, .hbm, .hif, .fil, .rev, .tu, .eth, .stk, .win, .grn, .tly, .car, .pwr, .out, .free]
  | .heartbeatExpiry => [.regs, .now, .hif, .fil, .rev, .tu, .eth, .win, .grn, .tly, .hsk, .stg, .pwr, .out, .free]
  | .frameReceive .. | .readCompletion .. | .pageRequestGroupResponse .. | .mailboxGo .. | .cqdb .. | .ringCtlReset .. =>
     [.regs, .hbm, .hif, .dom, .fil, .rev, .tu, .eth, .stk, .win, .grn, .tly, .car, .pwr, .out, .free]
  | .newChal .. | .verify .. | .relock .. | .rcRead .. =>
     [.regs, .hbm, .hif, .fil, .rev, .tu, .eth, .stk, .win, .grn, .tly, .car, .pwr, .trust, .out, .free]
  | .rootPortEnable .. | .slotControlWrite .. | .remove .. | .sqDoorbell .. | .cqDoorbell .. | .ccWrite ..
    | .busMasterEnableClear .. =>
     [.regs, .hbm, .hif, .fil, .rev, .tu, .eth, .stk, .win, .grn, .tly, .car, .stg, .pwr, .out, .free]
  | .translationResponse .. =>
     [.regs, .hbm, .hif, .dom, .fil, .rev, .tu, .eth, .stk, .win, .grn, .tly, .car, .stg, .pwr, .out, .free]
  | .trimWrite .. | .blockResetEthOctet .. | .blockResetPipeline .. | .blockResetHuskCluster .. | .blockResetFilbertCore ..
    | .blockResetRootPort .. | .blockResetPatternMatcher .. | .criticalRecovery =>
     [.regs, .hbm, .hif, .fil, .rev, .tu, .eth, .stk, .win, .grn, .tly, .hsk, .car, .stg, .pwr, .out, .free]
  | .lckDomWrite .. => [.regs, .hbm, .hif, .fil, .rev, .tu, .eth, .stk, .win, .grn, .tly, .lck, .hsk, .car, .pwr, .out, .free]
  | .configRequest .. | .functionLevelReset .. =>
     [.regs, .hbm, .hif, .dom, .fil, .rev, .tu, .eth, .stk, .win, .grn, .tly, .lck, .car, .stg, .pwr, .out, .free]
  | .mctpWake .. =>
     [.regs, .hbm, .hif, .fil, .rev, .tu, .eth, .stk, .win, .grn, .tly, .hsk, .car, .stg, .pwr, .trust, .out, .free]
  | .tempSample .. | .voltSample .. | .mctpWarm .. =>
     [.regs, .hif, .dom, .fil, .rev, .tu, .eth, .stk, .win, .grn, .tly, .lck, .hsk, .car, .stg, .pwr, .trust, .out]
  | .wakeTimerExpiry =>
     [.regs, .now, .hbm, .hif, .fil, .rev, .tu, .eth, .stk, .win, .grn, .tly, .hsk, .car, .stg, .pwr, .out, .free]
  | .portReset .. =>
     [.regs, .hbm, .hif, .dom, .fil, .rev, .tu, .eth, .stk, .win, .grn, .tly, .lck, .hsk, .car, .stg, .pwr, .out, .free]
  | .inboundMemoryRequest .. | .accessRegister .. | .accessMemory .. | .pwrGoActive .. | .pwrGoTrimmed .. | .pwrGoDormant ..
    | .pwrGoStandby .. | .pwronRstN .. | .sysRstN | .rstWarm .. | .rstCold .. | .mctpCold .. | .dbgregWrite .. | .lockAll ..
    | .registerWrite .. | .powerLoss =>
     [.regs, .hbm, .hif, .dom, .fil, .rev, .tu, .eth, .stk, .win, .grn, .tly, .lck, .hsk, .car, .stg, .pwr, .trust, .out, .free]
  | .riscvInstruction .. | .singleStep .. =>
     [.regs, .now, .hbm, .hif, .dom, .fil, .rev, .tu, .eth, .stk, .win, .grn, .tly, .lck, .hsk, .car, .stg, .pwr, .trust, .out, .free]

/-- The commands that the units of the data path and the firmware of Filbert serve: they wait while the block is asleep. -/
def stopsAsleep (c : Instr) : Bool :=
  match c with
  | .hbmLookupComplete .. | .internalInputFrame .. | .espInnerReentry | .patternScanComplete .. | .fragEntryExpiry |
    .egressSelect .. | .selectionDisplace .. | .frameTransmitStart .. | .pfcRefresh .. | .pauseQuantaExpiry .. |
    .flushCellReturn .. | .stkDestWrite .. | .stkDqmapWrite .. | .tblInsert .. | .tblDelete .. | .tblRead .. |
    .actWrite .. | .nodeWrite .. | .graphCommit .. | .editWrite .. | .tmplWrite .. | .patWrite .. | .patCommit .. |
    .cntRead .. | .fragFlush .. | .tableReady .. | .deepReturn .. | .multicastMemberEnqueue .. | .filbertDelivery |
    .mcGroupWrite .. | .mcMemberWrite .. | .qmapWrite .. | .granarySramError .. | .shaperRefill | .gateEvent .. |
    .gateConfigChange .. | .tlyNodeWrite .. | .queueWrite .. | .polWrite .. | .polCntRead .. | .gateWrite .. |
    .stateRead .. | .wireWrite .. | .wireWriteImm .. | .wireSend .. | .wireSendImm .. | .readReq .. | .readResp .. |
    .wireAtomic .. | .atomicResp .. | .ack | .nak | .credit | .creditRpt | .dataPacketSend .. | .retransmit .. |
    .retransmitTimeout .. | .rnrDelayExpiry .. | .creditRepeat .. | .creditRptRepeat .. | .ackDelayExpiry .. |
    .write .. | .writeImm .. | .send .. | .sendImm .. | .read .. | .atomic .. | .recv .. | .connAlloc .. |
    .connConnect .. | .connDestroy .. | .connQuery .. | .mrReg .. | .mrDereg .. | .contextFetchComplete .. |
    .eviction .. | .contextWritebackComplete .. | .evictPendingExpiry .. | .closingComplete .. | .pathWrite .. |
    .jobDispatch .. | .blockCompare .. | .huskJobComplete .. | .keyLoadComplete .. | .keyImport .. | .keyGenerate .. |
    .keyExport .. | .keyDestroy .. | .keyQuery .. | .nvmWrite .. | .nvmRead .. | .writeZeroes .. |
    .datasetManagement .. | .nvmFlush .. | .createIoSq .. | .deleteIoSq .. | .createIoCq .. | .deleteIoCq .. |
    .getLogPage .. | .identify .. | .abort .. | .setFeatures .. | .getFeatures .. | .asynchronousEventRequest .. |
    .legComplete .. | .nsWrite .. | .extWrite .. | .nsRead .. | .domCreate | .domDestroy | .domQuery | .instCreate |
    .instDestroy | .instReset | .instQuery | .irqWrite | .ringCreate | .ringDestroy | .ringModify |
    .instanceResetComplete .. | .ringResetComplete .. | .descriptorFetch .. | .txFrame .. | .rxBuf .. |
    .rxFrameDelivery .. | .frameBufferReturn | .transmitMessage .. | .domainGate .. | .fwReady |
    .interruptCoalescingExpiry .. => true
  | _ => false

/-- The commands that the Reeve's firmware serves. -/
def needsFirmware (c : Instr) : Bool :=
  match c with
  | .mctpWake .. | .mctpWarm .. | .mctpCold .. | .readLog .. | .readCause .. | .setEndpointId .. | .getEndpointId .. |
    .getMctpVersionSupport .. | .getMessageTypeSupport .. | .getVendorDefinedMessageSupport .. | .gettid .. |
    .getpldmversion .. | .getpldmtypes .. | .getpldmcommands .. | .getpdrrepositoryinfo .. | .getpdr .. |
    .getsensorreading .. | .getstatesensorreadings .. | .seteventreceiver .. | .filbertImageLoaded .. | .getVersion .. |
    .getCapabilities .. | .negotiateAlgorithms .. | .getDigests .. | .getCertificate .. | .challenge .. |
    .getMeasurements .. | .keyExchange .. | .finish .. | .heartbeat .. | .endSession .. | .getEvidence .. |
    .getHssChain .. | .fwWrite .. | .fwActivate .. | .unlockVerifyComplete | .bootComplete | .chunkSend .. |
    .chunkGet .. | .getEncapsulatedRequest .. | .deliverEncapsulatedResponse .. | .sessionHeartbeatExpiry .. => true
  | _ => false

/-- What holds between the states before and after a command that may change the parts `w`: the queue is as before, the clock
does not run back, what was sent stays sent, free values are drawn in order, a sound state stays sound, and every other part is as it was. -/
structure Keeps (w : List Part) (s t : State) : Prop where
  queue : t.pending = s.pending
  time : s.now ≤ t.now
  sent : s.out <+: t.out
  free : s.freeCtr ≤ t.freeCtr
  hbm : Memory.wf s.hbm = true → Memory.wf t.hbm = true
  scratch : Memory.wf s.fil.scratch = true → Memory.wf t.fil.scratch = true
  chans : ChansOk s.fil.chan → ChansOk t.fil.chan
  frame : ∀ p, p ∉ w → p.same s t

/-- The block is powered and clocked, and no entry into DORMANT is under way: every unit acts (R559, R565, R603, R613, R36). -/
abbrev Awake (s : State) : Prop := asleep s = false ∧ s.pwr.phase ≠ .entering

/-- R632, R660: the management domain `m` reaches the block: the debug domain only where an unlock gives it the window. -/
abbrev Allowed (s : State) (m : MDom) : Prop := m = .debug → unlocked s 1 = true

/-- Command `c` at `s` answers a next state, and `p` holds of it. -/
def Does (c : Instr) (s : State) (p : State → Prop) : Prop := ∃ t, exec c s = .next t ∧ p t

/-- R481, R482: a CTRL operation `op` with one record of `size` bytes heads ring `r`, as descriptor `d` of index `k`; its read
brings `data`, and `u` is the state after it (R26, R438). -/
abbrev CtrlOne (s : State) (r op size k : Nat) (d data : Bytes) (u : State) : Prop :=
  headOp s r 5 op = some (k, d) ∧ ctrlArg d % 65536 = 1 ∧ ctrlStride size ≤ ctrlLen d
    ∧ (descRead s r [(ctrlAddr d, ctrlStride size)] (.ok data)).1 = true
    ∧ u = (descRead s r [(ctrlAddr d, ctrlStride size)] (.ok data)).2

/-- R460, R461: command `c` of opcode `op` is at the front of the mailbox queue, none runs, and `u` is the state without it. -/
abbrev MbxFront (s : State) (op : Nat) (c : MbxCmd) (u : State) : Prop :=
  s.dom.queue = c :: s.dom.queue.tail ∧ s.dom.running = none ∧ leAt c.cmd 0 2 = op ∧ mbOps.contains op = true
    ∧ u = { s with dom := { s.dom with queue := s.dom.queue.tail } }

/-- R395, R396: controller `k` serves queue `q`, whose next entry `b` is a command `op` that may be read now; `u` is the state
once it is taken. -/
abbrev NvFront (s : State) (k q op : Nat) (b : Bytes) (y : NvSq) (u : State) : Prop :=
  SMap.find? (ctlGet s k).sqs q = some y ∧ ctlServes s k = true ∧ y.head ≠ y.tail ∧ sqeOp b = op ∧ sqeFlags b % 4 = 0
    ∧ sqeFlags b / 64 = 0 ∧ (ctlFetch s k [(y.addr + 64 * y.head, 64)] (.ok b)).1 = true
    ∧ u = nvTaken (ctlFetch s k [(y.addr + 64 * y.head, 64)] (.ok b)).2 k q y

/-- R258: a data packet of opcode `op` at the front of Carter's input passes every check: the state then, the connection and
its number, the packet, its PSN and its payload. -/
def DataPassed (s : State) (op : Nat) (h : Hap) (u : State) (n : Nat) (c : Conn) (p : Pkt) (x : Cth) (psn : Nat) (pay : Bytes) :
    Prop :=
  ∃ s1 s2, carHead s op = (s1, some (p, x)) ∧ rxOpen s1 p x = (s2, some (n, c)) ∧ rxData s2 n c p x h = (u, some (psn, pay))

/-- R298, R301, R320: descriptor `d` with opcode `op` heads SEND ring `r` of a host function that may issue requests, Carter is
enabled, and the connection it names belongs to the ring's instance; it waits for nothing. -/
abbrev SendReady (s : State) (r op k : Nat) (d : Bytes) (c : Conn) : Prop :=
  headOp s r 2 op = some (k, d) ∧ (ringOwner s r || !fnLive s (ringFn s r).1 (ringFn s r).2) = false ∧ descOk d = true
    ∧ s.flag R.CAR_CFG.EN [] = true ∧ bit (byteAt d 1) 0 = false ∧ connGet s (dConn d) = some c ∧ c.inst = ringInst s r

/-- R492, R497, R510, R519, R588: hart `h` runs and its budget lets it issue, which leaves the state `u`; single stepping is
off, no enabled interrupt is pending and no trigger is on its pc. -/
abbrev HartReady (s : State) (h : Nat) (u : State) : Prop :=
  hartRuns s h = true
    ∧ (issueTake s h).map (fun v => dutyTake v (coreOf h) (v.rd R.REV_THR.FIL_DUTY [])) = some u
    ∧ bit (csrRaw u h csrDcsr) 2 = false ∧ intrCause? u h = none ∧ trigHit u h .fetch (hartGet u h).pc = none

end Sys2Proof.Machine
end

