-- ==== Sys2Proof/Certificates/Slice0/Obligations.lean ====
section
/-! DEFINITION. The statements for the provers, each a proposition over the model. A clause of the form `Does c s P` says that
the command `c` answers a next state and that the state has `P`; its hypotheses are about the state and the operands alone. -/

set_option maxRecDepth 20000
set_option Elab.async false
open Sys2Proof Sys2Proof.Machine

/-- A step runs the command at the front of the queue. Rules R32. What rests on a choice of the model here: log entries
1. -/
def Obligations.StepRunsFront : Prop :=
  ∀ (c : Instr) (q : List Instr) (s : State), step { s with pending := c :: q } = exec c { s with pending := q }

/-- An empty queue lets one period of CLK_TIME pass. Rules R530, R531. What rests on a choice of the model here: log
entries 1. -/
def Obligations.IdleTick : Prop :=
  (∀ (s : State), s.pending = [] →
    ∃ t, step s = .next t ∧ s.now + tickLen ≤ t.now ∧ t.pending = [] ∧ s.out <+: t.out ∧ t.stk = s.stk ∧ t.rev = s.rev ∧ t.trust = s.trust ∧ t.lck = s.lck)
  ∧ (∀ (s : State), s.pending = [] → s.pwr.held = [] → s.grn.await = [] → (∀ e ∈ s.car.conns, e.2.owed = []) →
    s.stg.cmds.filter (fun c => c.opcode == 2 && !c.posted && c.legs.all (·.ended)) = [] →
    ∃ t, step s = .next t ∧ t.now = s.now + tickLen ∧ t.pending = [] ∧ t.hbm = s.hbm ∧ t.win = s.win ∧ t.grn = s.grn ∧ t.tly = s.tly ∧ t.car = s.car ∧ t.hif = s.hif ∧ t.dom = s.dom ∧ t.stg = s.stg ∧ t.fil = s.fil ∧ t.eth = s.eth)

/-- The state after reset. Rules R17, R502, R575. What rests on a choice of the model here: log entries 5, 10. -/
def Obligations.ResetIsSound : Prop :=
  Inv State.reset ∧ Awake State.reset ∧ State.reset.pending = [] ∧ State.reset.hbm = [] ∧ State.reset.out = [] ∧ (∀ (f : Fld) (ix : List Nat), State.reset.rd f ix = f.reset ix) ∧ (∀ h : Fin 512, hartRuns State.reset h.val = false) ∧ (∀ n, chanMsgs State.reset n = [])

/-- Registers after reset. Rules R673, R607, R555, R579. -/
def Obligations.ResetRegisters : Prop :=
  State.reset.rd R.GLB_ID.VENDOR [] = 0xAC4E ∧ State.reset.rd R.PWR_STATUS.STATE [] = 0 ∧ State.reset.rd R.REV_TH.WARN [] = 110 ∧ State.reset.rd R.REV_TH.THROTTLE [] = 118 ∧ State.reset.rd R.REV_TH.CRIT [] = 125 ∧ State.reset.rd R.REV_TH.HYST [] = 5 ∧ State.reset.rd R.TU_SERVO.KP_SHIFT [] = 4 ∧ State.reset.rd R.TU_SERVO.KI_SHIFT [] = 10 ∧ State.reset.rd R.CAR_PORT.UDP_PORT [] = 51109 ∧ (∀ e ∈ lockFields, ∀ ix ∈ e.2, State.reset.flag e.1 ix = false)

/-- Every step keeps the invariant. Rules R494, R502. What rests on a choice of the model here: log entries 5. -/
def Obligations.EveryStepKeepsTheInvariant : Prop :=
  ∀ (s t : State), Inv s → step s = .next t → Inv t

/-- Every command completes and leaves the rest of the state. Rules R31, R34, R502. What rests on a choice of the model
here: log entries 6, 9. -/
def Obligations.EveryCommandKeepsItsParts : Prop :=
  ∀ (c : Instr) (s : State), ∃ t, exec c s = .next t ∧ Keeps (touched c) s t

/-- Nothing acts while its unit is off. Rules R559, R565, R603, R613. What rests on a choice of the model here: log
entries 116, 130. -/
def Obligations.SleepersWait : Prop :=
  (∀ (c : Instr) (s : State), stopsAsleep c = true → asleep s = true → exec c s = .next s)
  ∧ (∀ (c : Instr) (s : State), needsFirmware c = true → reeveRuns s = false → exec c s = .next s)

/-- HBM: a read after a write. Rules R595, R494. What rests on a choice of the model here: log entries 5, 124. -/
def Obligations.HbmReadsBack : Prop :=
  (∀ (s : State) (a : Nat) (b : Bytes), (s.hbmWhole = true ∨ ∀ i, i < b.length → s.hbmGone (a + i) = false) →
    (s.hbmWrite a b).hbmRead a b.length = b)
  ∧ (∀ (s : State) (a x : Nat) (b : Bytes), (x < a ∨ a + b.length ≤ x ∨ (s.hbmWhole = false ∧ s.hbmGone x = true)) →
    (s.hbmWrite a b).hbmByte x = s.hbmByte x)

/-- EV.WAIT and EV.POLL. Rules R509. Completes (exec answers a next state, by the effect of its own rule), a clause
each: evWait, evWaitWake, evPoll. -/
def Obligations.EventWait : Prop :=
  (∀ (h : Fin 512) (rd rs1 : Fin 32) (p : Nat) (s u : State), HartReady s h.val u → xelvOk u h.val 1 = true →
    p = pendingEv u h.val &&& xr u h.val rs1.val → (p ≠ 0 ∨ xr u h.val rs1.val = 0) →
    Does (.evWait h rd rs1) s fun t => (hartGet t h.val).ev = (hartGet u h.val).ev - ((hartGet u h.val).ev &&& p) ∧ xr t h.val rd.val = (if rd.val = 0 then 0 else w64 p) ∧ (hartGet t h.val).pc = w64 ((hartGet u h.val).pc + 4) ∧ (hartGet t h.val).wait = none ∧ t.fil.chan = u.fil.chan ∧ t.fil.mtimecmp = u.fil.mtimecmp ∧ t.now = u.now)
  ∧ (∀ (h : Fin 512) (rd rs1 : Fin 32) (s u : State), HartReady s h.val u → xelvOk u h.val 1 = true →
    pendingEv u h.val &&& xr u h.val rs1.val = 0 → xr u h.val rs1.val ≠ 0 →
    Does (.evWait h rd rs1) s fun t => hartSt t h.val = hsWait ∧ hartGet t h.val = { hartGet u h.val with wait := some (xr u h.val rs1.val, rd.val) })
  ∧ (∀ (h : Fin 512) (m p rd : Nat) (s : State), (hartSt s h.val = hsWait ∧ coreLive s (coreOf h.val) = true) →
    (hartGet s h.val).wait = some (m, rd) → (p = pendingEv s h.val &&& m ∧ p ≠ 0) →
    Does (.evWaitWake h) s fun t => hartSt t h.val = hsRun ∧ (hartGet t h.val).ev = (hartGet s h.val).ev - ((hartGet s h.val).ev &&& p) ∧ xr t h.val rd = (if rd = 0 then 0 else w64 p) ∧ (hartGet t h.val).pc = w64 ((hartGet s h.val).pc + 4) ∧ (hartGet t h.val).wait = none ∧ t.fil.chan = s.fil.chan ∧ t.fil.mtimecmp = s.fil.mtimecmp ∧ t.now = s.now)
  ∧ (∀ (h : Fin 512) (m rd c : Nat) (s : State), (hartSt s h.val = hsWait ∧ coreLive s (coreOf h.val) = true) →
    (hartGet s h.val).wait = some (m, rd) ∧ pendingEv s h.val &&& m = 0 → intrCause? s h.val = some c →
    Does (.evWaitWake h) s fun t => csrRaw t h.val csrMepc = w64 (hartGet s h.val).pc ∧ csrRaw t h.val csrMcause = w64 (c + 2 ^ 63) ∧ (hartGet t h.val).wait = none ∧ (hartGet t h.val).ev = (hartGet s h.val).ev ∧ (hartGet t h.val).x = (hartGet s h.val).x)
  ∧ (∀ (h : Fin 512) (m rd : Nat) (s : State), (hartGet s h.val).wait = some (m, rd) ∧ pendingEv s h.val &&& m = 0 →
    intrCause? s h.val = none → Does (.evWaitWake h) s fun t => t = s)
  ∧ (∀ (h : Fin 512) (rd rs1 : Fin 32) (p : Nat) (s u : State), HartReady s h.val u → xelvOk u h.val 1 = true →
    p = pendingEv u h.val &&& xr u h.val rs1.val →
    Does (.evPoll h rd rs1) s fun t => hartSt t h.val = hsRun ∧ (hartGet t h.val).ev = (hartGet u h.val).ev - ((hartGet u h.val).ev &&& p) ∧ xr t h.val rd.val = (if rd.val = 0 then 0 else w64 p) ∧ (hartGet t h.val).pc = w64 ((hartGet u h.val).pc + 4) ∧ (hartGet t h.val).wait = none ∧ t.fil.chan = u.fil.chan ∧ t.fil.mtimecmp = u.fil.mtimecmp ∧ t.now = u.now)

/-- An offset outside every block window. Rules R666. Completes (exec answers a next state, by the effect of its own
rule), a clause each: rcRead, registerWrite. -/
def Obligations.OutsideEveryWindow : Prop :=
  (∀ (m : MDom) (a : Fin 67108864) (s : State), Awake s → Allowed s m → blkOf (4 * a.val) = none →
    s.flag R.GLB_ERR.VALID [] = false →
    Does (.rcRead m a false) s fun t => t.out = s.out ++ [.data 0] ∧ t = { s with regs := t.regs, out := t.out } ∧ t.flag R.GLB_ERR.VALID [] = true ∧ t.rd R.GLB_ERR.KIND [] = 1 ∧ t.rd R.GLB_ERR_ADDR.ADDR [] = 4 * a.val ∧ (∀ (f : Fld) (ix : List Nat), 0x100000 ≤ f.base → t.rd f ix = s.rd f ix))
  ∧ (∀ (m : MDom) (a : Fin 67108864) (v : BitVec 32) (s : State), Awake s → Allowed s m → blkOf (4 * a.val) = none →
    s.flag R.GLB_ERR.VALID [] = false →
    Does (.registerWrite m a (.w4 v)) s fun t => t = { s with regs := t.regs } ∧ t.flag R.GLB_ERR.VALID [] = true ∧ t.rd R.GLB_ERR.KIND [] = 1 ∧ t.rd R.GLB_ERR_ADDR.ADDR [] = 4 * a.val ∧ (∀ (f : Fld) (ix : List Nat), 0x100000 ≤ f.base → t.rd f ix = s.rd f ix))

/-- The interrupts of a hart. Rules R510. Completes (exec answers a next state, by the effect of its own rule), a clause
each: riscvInstruction, registerWrite, irqPendWrite. -/
def Obligations.HartInterrupts : Prop :=
  (∀ (s : State) (h : Nat),
    bit (mipOf s h) 7 = decide (SMap.get (2 ^ 64 - 1) s.fil.mtimecmp h ≤ s.mtime) ∧ bit (mipOf s h) 11 = decide (s.rd R.FIL_HART_IRQ.IRQ_PEND [h] &&& s.rd R.FIL_HART_IRQ_EN.IRQ_EN [h] ≠ 0) ∧ bit (mipOf s h) 16 = (hartGet s h).wcip)
  ∧ (∀ (s : State) (h c : Nat), intrCause? s h = some c →
    (c = 11 ∨ c = 7 ∨ c = 16) ∧ bit (mipOf s h &&& csrRaw s h csrMie) c = true ∧ ((hartGet s h).mmode = true → bit (csrRaw s h csrMstatus) 3 = true) ∧ (∀ d, (c = 7 ∧ d = 11) ∨ (c = 16 ∧ (d = 11 ∨ d = 7)) → bit (mipOf s h &&& csrRaw s h csrMie) d = false))
  ∧ (∀ (h : Fin 512) (w : BitVec 32) (x : RvHap) (c : Nat) (s u : State), hartRuns s h.val = true →
    (issueTake s h.val).map (fun v => dutyTake v (coreOf h.val) (v.rd R.REV_THR.FIL_DUTY [])) = some u →
    bit (csrRaw u h.val csrDcsr) 2 = false → intrCause? u h.val = some c →
    Does (.riscvInstruction h w x) s fun t => t = trapEnter u h.val c true 0)
  ∧ (∀ (m : MDom) (h : Fin 512) (a : Fin 67108864) (v : BitVec 32) (s : State), Awake s → Allowed s m →
    4 * a.val = 0x0C004004 + 16 * h.val →
    Does (.registerWrite m a (.w4 v)) s fun t => t.rd R.FIL_HART_IRQ.IRQ_PEND [h.val] = (s.rd R.FIL_HART_IRQ.IRQ_PEND [h.val] ||| v.toNat % 256) % 256)
  ∧ (∀ (h : Fin 512) (v : Fin 256) (s : State), Awake s →
    Does (.irqPendWrite h v) s fun t => t.rd R.FIL_HART_IRQ.IRQ_PEND [h.val] = (s.rd R.FIL_HART_IRQ.IRQ_PEND [h.val] ||| v.val) % 256 ∧ t.fil = s.fil)

/-- The control window: writes and reads by access type. Rules R660, R663, R666, R667, R670, R671, R672, R673, R14.
Completes (exec answers a next state, by the effect of its own rule), a clause each: registerWrite, rcRead, lockAll.
What rests on a choice of the model here: log entries 118, 139, 140. -/
def Obligations.RegisterAccess : Prop :=
  (∀ (m : MDom) (w : BitVec 32) (s : State), Awake s → Allowed s m → s.flag R.REV_CFG.LOCK [] = false →
    Does (.registerWrite m 0xC0000 (.w4 w)) s fun t => t = { s with regs := t.regs } ∧ t.rd R.REV_CFG.VEC [] = bits w.toNat 0 11 ∧ t.rd R.REV_CFG.VEC_EN [] = bits w.toNat 11 1 ∧ t.rd R.REV_CFG.K_TEMP [] = bits w.toNat 12 3 ∧ t.rd R.REV_CFG.K_VOLT [] = bits w.toNat 15 3 ∧ t.rd R.REV_CFG.AVS_EN [] = bits w.toNat 18 1 ∧ t.flag R.REV_CFG.LOCK [] = bit w.toNat 31 ∧ t.rd R.GLB_ERR.KIND [] = s.rd R.GLB_ERR.KIND [])
  ∧ (∀ (m : MDom) (w : BitVec 32) (s : State), Awake s → Allowed s m → s.flag R.REV_CFG.LOCK [] = true →
    s.rd R.REV_CFG.AVS_EN [] ≠ bits w.toNat 18 1 → s.flag R.GLB_ERR.VALID [] = false →
    Does (.registerWrite m 0xC0000 (.w4 w)) s fun t => t.rd R.REV_CFG.AVS_EN [] = s.rd R.REV_CFG.AVS_EN [] ∧ t.flag R.REV_CFG.LOCK [] = true ∧ t.rd R.REV_CFG.VEC [] = bits w.toNat 0 11 ∧ t.flag R.GLB_ERR.VALID [] = true ∧ t.rd R.GLB_ERR.KIND [] = 4 ∧ t.rd R.GLB_ERR.DOMAIN [] = domCode m ∧ t.rd R.GLB_ERR_ADDR.ADDR [] = 0x300000)
  ∧ (∀ (a : Fin 67108864) (be : BitVec 4) (v : BitVec 32) (s : State), Awake s → be ≠ 15 →
    Does (.registerWrite .owner a (.part be v)) s fun t => t = accessErr s .owner 2 (4 * a.val))
  ∧ (∀ (m : MDom) (a : Fin 67108864) (v : BitVec 32) (s : State), Awake s → Allowed s m →
    (blkOf (4 * a.val) = none ∧ rpWindow (4 * a.val) = none ∧ bankOff s (4 * a.val) = false) →
    Does (.registerWrite m a (.w4 v)) s fun t => t = accessErr s m 1 (4 * a.val))
  ∧ (∀ (m : MDom) (s : State), Awake s → Allowed s m →
    Does (.rcRead m 0xC0000 false) s fun t => t = s.emit (.data (s.rd R.REV_CFG.VEC [] % 2 ^ 11 + s.rd R.REV_CFG.VEC_EN [] % 2 * 2 ^ 11 + s.rd R.REV_CFG.K_TEMP [] % 8 * 2 ^ 12 + s.rd R.REV_CFG.K_VOLT [] % 8 * 2 ^ 15 + s.rd R.REV_CFG.AVS_EN [] % 2 * 2 ^ 18 + s.rd R.REV_CFG.LOCK [] % 2 * 2 ^ 31)))
  ∧ (∀ (m : MDom) (n : Fin 16) (a : Fin 67108864) (s : State), Awake s → Allowed s m → a.val = 0xC2000 + 2 * n.val →
    Does (.rcRead m a false) s fun t => t.out = s.out ++ [.data (s.rd R.REV_CNT.COUNT [n.val] % 2 ^ 32)] ∧ t.rd R.REV_CNT.COUNT [n.val] = 0 ∧ (∀ k : Fin 16, k ≠ n → t.rd R.REV_CNT.COUNT [k.val] = s.rd R.REV_CNT.COUNT [k.val]) ∧ SMap.get (0, 0) t.trust.shadow (domCode m) = (0x308000 + 8 * n.val + 1, s.rd R.REV_CNT.COUNT [n.val] / 2 ^ 32))
  ∧ (∀ (m : MDom) (s : State), Awake s → Allowed s m → bankOff s 0x20 = false →
    Does (.lockAll m) s fun t => (∀ e ∈ lockFields, ∀ ix ∈ e.2, t.flag e.1 ix = true))

/-- The DBGREG instruction of the JTAG TAP. Rules R631, R632, R669. Completes (exec answers a next state, by the effect
of its own rule), a clause each: dbgregRead, dbgregWrite. What rests on a choice of the model here: log entries 141. -/
def Obligations.DbgregAccess : Prop :=
  (∀ (w : Fin 2048) (v : Nat) (s u : State), (bellman s = false ∧ s.pwr.dark = false) →
    dbgReaches s w.val = true → wordRead s .debug (0x0F000000 + 4 * w.val) = (v, u) →
    Does (.dbgregRead w) s fun t => t = { u with trust := { u.trust with regStatus := 0, regWord := w.val, regData := v }, out := u.out ++ [.data v] })
  ∧ (∀ (w : Fin 2048) (s : State), (bellman s = false ∧ s.pwr.dark = false) → dbgReaches s w.val = false →
    Does (.dbgregRead w) s fun t => t.trust = { s.trust with regStatus := 2, regWord := w.val, regData := 0 } ∧ t.regs = s.regs)
  ∧ (∀ (w : Fin 2048) (v : BitVec 32) (s : State), (bellman s = false ∧ s.pwr.dark = false) →
    dbgReaches s w.val = false →
    Does (.dbgregWrite w v) s fun t => t.trust = { s.trust with regStatus := 2, regWord := w.val } ∧ t.regs = s.regs)
  ∧ (∀ (w : Fin 2048) (v : BitVec 32) (s u : State), (bellman s = false ∧ s.pwr.dark = false) →
    dbgReaches s w.val = true → u = wordWrite s .debug (0x0F000000 + 4 * w.val) v.toNat →
    Does (.dbgregWrite w v) s fun t => t = { u with trust := { u.trust with regStatus := 0, regWord := w.val } })
  ∧ (∀ (w : Fin 2048) (s : State), (bellman s = true ∧ s.pwr.dark = false) →
    Does (.dbgregRead w) s fun t => t.trust = { s.trust with regStatus := 0, regWord := w.val, regData := 0 } ∧ t.regs = s.regs)

/-- Power states: loss of the clock and requests of a state. Rules R36, R578, R583, R562, R563, R564, R565, R566, R568,
R579. Completes (exec answers a next state, by the effect of its own rule), a clause each: refclkLost,
refclkLossTimeout, refclkReturn, rootPllLockLoss, pwrGoActive, pwrGoTrimmed, pwrGoDormant, pwrGoStandby, trimWrite,
dormantEntry, dormantWaitExpiry, wakeTimerExpiry, domainGate. What rests on a choice of the model here: log entries
6, 112, 113, 115, 116. -/
def Obligations.PowerStates : Prop :=
  (∀ (s : State), s.pwr.dark = false → s.flag R.CLK_STATUS.ON_OSC [] = false →
    Does .refclkLost s fun t => t.flag R.CLK_STATUS.ON_OSC [] = true ∧ t.flag R.CLK_STATUS.REFCLK_OK [] = false ∧ t.flag R.CLK_STATUS.REFCLK_LOST [] = true ∧ t.flag R.CLK_STATUS.HOLD [] = s.flag R.CLK_STATUS.ROOT_LOCK [] ∧ t.rd R.CLK_CNT.COUNT [0] = (s.rd R.CLK_CNT.COUNT [0] + 1) % 2 ^ 64)
  ∧ (∀ (s : State), s.pwr.dark = false → bellman s = false → s.flag R.CLK_STATUS.ON_OSC [] = true →
    s.pwr.clkGated = false →
    Does .refclkLossTimeout s fun t => t.pwr.clkGated = true ∧ t = (countFailure ({ (List.range 156).foldl gateOff s with pwr := { s.pwr with clkGated := true } }.inc R.CLK_CNT.COUNT [2]) 12 0 0 []).1)
  ∧ (∀ (s : State), s.pwr.dark = false → s.flag R.CLK_STATUS.ON_OSC [] = true →
    Does .refclkReturn s fun t => (s.pwr.wakeDue = none → t.flag R.CLK_STATUS.ON_OSC [] = false ∧ t.flag R.CLK_STATUS.REFCLK_OK [] = true ∧ t.flag R.CLK_STATUS.HOLD [] = false ∧ (s.pwr.clkGated = false → t.rd R.CLK_CNT.COUNT [1] = (s.rd R.CLK_CNT.COUNT [1] + 1) % 2 ^ 64)) ∧ (∀ n, s.pwr.wakeDue = some n → (bellman s = false → pwrSt t = psActive ∧ t.rd R.PWR_WAKE.LAST_SRC [] = n % 8) ∧ (bellman s = true → pwrSt t = pwrSt s ∧ t.pwr = s.pwr)))
  ∧ (∀ (s : State), s.pwr.dark = false → s.flag R.CLK_STATUS.ROOT_LOCK [] = true →
    Does .rootPllLockLoss s fun t => t = (s.wr R.CLK_STATUS.ROOT_LOCK [] 0).inc R.CLK_CNT.COUNT [3])
  ∧ (∀ (m : MDom) (s : State), Awake s → Allowed s m → s.flag R.PWR_STATUS.BUSY [] = false → pwrSt s = psTrimmed →
    Does (.pwrGoActive m) s fun t => t = (List.range 156).foldl powerOn ((s.wr R.PWR_CTL.REQ [] psActive).wr R.PWR_STATUS.STATE [] psActive))
  ∧ (∀ (m : MDom) (s : State), Awake s → Allowed s m → s.flag R.PWR_STATUS.BUSY [] = false → pwrSt s = psActive →
    Does (.pwrGoTrimmed m) s fun t => t = (List.range 156).foldl trimDomain (((s.wr R.PWR_CTL.REQ [] psTrimmed).wr R.PWR_STATUS.STATE [] psTrimmed).inc R.PWR_CNT.COUNT [0]))
  ∧ (∀ (m : MDom) (s : State), Awake s → Allowed s m → s.flag R.PWR_STATUS.BUSY [] = false → pwrSt s ≤ psTrimmed →
    Does (.pwrGoDormant m) s fun t => t.flag R.PWR_STATUS.BUSY [] = true ∧ pwrSt t = pwrSt s ∧ t.pwr.phase = (if dormantFails (s.wr R.PWR_CTL.REQ [] psDormant) = 0 then .entering else .waiting))
  ∧ (∀ (m : MDom) (s : State), Awake s → Allowed s m → s.flag R.PWR_STATUS.BUSY [] = false → pwrSt s ≤ psTrimmed →
    Does (.pwrGoStandby m) s fun t => pwrSt t = psStandby ∧ t.flag R.PWR_STATUS.BUSY [] = false ∧ (∀ w : Fin 5, t.rd R.PWR_DOM_ON.ON [w.val] = 0 ∧ t.rd R.PWR_DOM_HELD.HELD [w.val] = 0) ∧ t.hbm = s.hbm ∧ t.dom = Dom.reset ∧ t.car = Car.reset ∧ t.fil.scratch = [])
  ∧ (∀ (m : MDom) (w : Fin 5) (v : BitVec 32) (s : State), Awake s → Allowed s m → pwrSt s = psActive →
    s.flag R.PWR_CTL.LOCK [] = false → w.val < 4 →
    Does (.trimWrite m w v) s fun t => t = s.wr R.PWR_TRIM.TRIM [w.val] v.toNat)
  ∧ (∀ (s : State), poweredOff s = false →
    (s.pwr.phase = .entering ∨ (s.pwr.phase = .waiting ∧ dormantFails s = 0)) →
    Does .dormantEntry s fun t => t = enterDormant s ∧ pwrSt t = psDormant ∧ t.flag R.PWR_STATUS.BUSY [] = false ∧ t.hbm = s.hbm)
  ∧ (∀ (s u : State), poweredOff s = false → s.pwr.phase = .waiting →
    u = clockTo s (s.pwr.dormAt + max 1 (s.rd R.PWR_DORM_WAIT.WAIT []) * 10000000) →
    Does .dormantWaitExpiry s fun t => (dormantFails u = 0 → t.pwr.phase = .entering) ∧ (dormantFails u ≠ 0 → t.pwr.phase = .none ∧ t.flag R.PWR_STATUS.BUSY [] = false ∧ t.flag R.PWR_STATUS.REFUSED [] = true ∧ t.rd R.PWR_STATUS.REFUSE_WHY [] = (dormantFails u + 64) % 2 ^ 7 ∧ t.rd R.PWR_CNT.COUNT [2] = (u.rd R.PWR_CNT.COUNT [2] + 1) % 2 ^ 64))
  ∧ (∀ (s : State), bellman s = false → s.pwr.dark = false → pwrSt s = psDormant →
    s.flag R.PWR_WAKE.TIMER_EN [] = true →
    Does .wakeTimerExpiry s fun t => t = exitDormant (clockTo s (s.pwr.since + max 1 (s.rd R.PWR_WAKE_TIMER.TIMER []) * 10000000)) 4)
  ∧ (∀ (d : Fin 156) (s : State), Awake s → pwrSt s = psTrimmed → heldBit s d.val = true → gateCond s d.val = true →
    Does (.domainGate d) s fun t => t = gateOff s d.val)

/-- Resets of the chip and of single blocks. Rules R570, R574, R575, R576, R580, R636, R644, R659, R573, R578. Completes
(exec answers a next state, by the effect of its own rule), a clause each: pwronRstN, sysRstN, rstWarm, rstCold,
powerLoss, blockResetEthOctet, blockResetPipeline, blockResetHuskCluster, blockResetFilbertCore, blockResetRootPort,
blockResetPatternMatcher. What rests on a choice of the model here: log entries 112, 119, 121, 122, 123. -/
def Obligations.Resets : Prop :=
  (∀ (ramp : Bool) (ow : Fin 4) (sp : Fin 16) (id : Fin 4) (s : State),
    Does (.pwronRstN ramp ow sp id) s fun t => t.rd R.PWR_RST_CAUSE.KIND [] = 1 ∧ t.rd R.PWR_RST_CAUSE.SOURCE [] = (if ramp then 4 else 0) ∧ t.flag R.PWR_STATUS.LOST [] = true ∧ t.rd R.PWR_STATUS.LOST_CAUSE [] = 1 ∧ t.hbm = [] ∧ t.pwr.ownerSel = ow.val ∧ t.pwr.hostSplit = sp.val ∧ t.pwr.stackId = id.val)
  ∧ (∀ (s : State), s.pwr.dark = false →
    Does .sysRstN s fun t => t.rd R.PWR_RST_CAUSE.KIND [] = 2 ∧ t.rd R.PWR_RST_CAUSE.SOURCE [] = 0 ∧ t.flag R.PWR_STATUS.LOST [] = true ∧ t.rd R.PWR_STATUS.LOST_CAUSE [] = 2 ∧ t.hbm = [])
  ∧ (∀ (m : MDom) (s : State), Awake s → Allowed s m →
    Does (.rstWarm m 0xA5C3#16) s fun t => pwrSt t = psActive ∧ t.rd R.PWR_RST_CAUSE.KIND [] = 3 ∧ t.rd R.PWR_RST_CAUSE.SOURCE [] = rstSource m ∧ t.flag R.PWR_STATUS.LOST [] = true ∧ t.rd R.PWR_STATUS.LOST_CAUSE [] = 3 ∧ t.hbm = s.hbm ∧ t.dom = Dom.reset)
  ∧ (∀ (m : MDom) (s : State), Awake s → Allowed s m →
    Does (.rstCold m 0xA5C3#16) s fun t => t.rd R.PWR_RST_CAUSE.KIND [] = 2 ∧ t.rd R.PWR_RST_CAUSE.SOURCE [] = rstSource m ∧ t.flag R.PWR_STATUS.LOST [] = true ∧ t.rd R.PWR_STATUS.LOST_CAUSE [] = 2 ∧ t.hbm = [])
  ∧ (∀ (s : State),
    Does .powerLoss s fun t => t.pwr.dark = true ∧ t.hbm = [] ∧ t.regs = s.regs.por ∧ t.trust.boots = s.trust.boots ∧ asleep t = true)
  ∧ (∀ (m : MDom) (u : Fin 64) (s : State), Awake s → Allowed s m → u.val < 16 → domOn s (96 + u.val) = true →
    Does (.blockResetEthOctet m u) s fun t => t = blkOctet (s.inc R.PWR_CNT.COUNT [8]) u.val)
  ∧ (∀ (m : MDom) (u : Fin 64) (s : State), Awake s → Allowed s m → u.val < 16 → domOn s (112 + u.val) = true →
    Does (.blockResetPipeline m u) s fun t => SMap.get [] t.win.wait u.val = [] ∧ t.win.dropped = s.win.dropped + (SMap.get [] s.win.wait u.val).length ∧ t = clearPipe (s.inc R.PWR_CNT.COUNT [8]) u.val)
  ∧ (∀ (m : MDom) (u : Fin 64) (s : State), Awake s → Allowed s m → u.val < 32 → domOn s (64 + u.val) = true →
    Does (.blockResetHuskCluster m u) s fun t => t = blkCluster (s.inc R.PWR_CNT.COUNT [8]) u.val)
  ∧ (∀ (m : MDom) (u : Fin 64) (s : State), Awake s → Allowed s m → domOn s u.val = true →
    Does (.blockResetFilbertCore m u) s fun t => t = (List.range 8).foldl (fun s k => hartReset s (8 * u.val + k)) (s.inc R.PWR_CNT.COUNT [8]))
  ∧ (∀ (m : MDom) (u : Fin 64) (s : State), Awake s → Allowed s m → u.val < 16 → domOn s (148 + u.val / 4) = true →
    rpSt (s.inc R.PWR_CNT.COUNT [8]) u.val ≠ rsRetired →
    (rpOff (s.inc R.PWR_CNT.COUNT [8]) u.val).flag R.STG_RP_CTL.AUTO_ON [u.val] = false →
    Does (.blockResetRootPort m u) s fun t => t = rpOff (s.inc R.PWR_CNT.COUNT [8]) u.val)
  ∧ (∀ (m : MDom) (u : Fin 64) (s : State), Awake s → Allowed s m → u.val < 2 → domOn s (152 + u.val) = true →
    Does (.blockResetPatternMatcher m u) s fun t => t = loseDomain (s.inc R.PWR_CNT.COUNT [8]) (152 + u.val))

/-- Ethernet ports: configuration, link hold, lanes and faults. Rules R69, R70, R72, R68, R83, R62, R63, R66, R67, R182.
Completes (exec answers a next state, by the effect of its own rule), a clause each: linkLost, holdTimerExpiry,
portQualified, linkTrainingTimeout, verifyTimeout, laneCdrLoss, fecUncorrectedBurst, laneLockAcquired, ethApply,
pmdFault, frameReceive, pfcRefresh, pfcFrameReceive, pauseQuantaExpiry. What rests on a choice of the model here:
log entries 6, 22, 28, 158, 159, 162. -/
def Obligations.EthLinks : Prop :=
  (∀ (p : Fin 128) (c : Loss) (s : State), Awake s → portState s p.val = epUp →
    (c = .localFault ∨ c = .remoteFault ∨ c = .alignment ∨ c = .symbolErrors) →
    Does (.linkLost p c) s fun t => (s.rd R.ETH_PORT_HOLD.HOLD [p.val / 8, p.val % 8] ≠ 0 → portState t p.val = epHold ∧ SMap.find? t.eth.holdAt p.val = some (s.now + min (s.rd R.ETH_PORT_HOLD.HOLD [p.val / 8, p.val % 8]) 1000000 * 100000)) ∧ (s.rd R.ETH_PORT_HOLD.HOLD [p.val / 8, p.val % 8] = 0 → portState t p.val = epDown ∧ SMap.find? t.eth.holdAt p.val = none))
  ∧ (∀ (p : Fin 128) (l : Nat) (s : State), Awake s → portState s p.val = epUp →
    (portLanes s p.val).contains l = true →
    Does (.linkLost p (.lane l)) s (fun t => t = cdrLoss s (8 * (p.val / 8) + l) true) ∧ Does (.linkLost p (.pmd l)) s (fun t => t = pmdFault s (8 * (p.val / 8) + l)))
  ∧ (∀ (p : Fin 128) (s : State), Awake s → portState s p.val = epHold →
    Does (.holdTimerExpiry p) s fun t => portState t p.val = epDown ∧ t.flag R.ETH_PORT_STATUS.HOLD_EXPIRED [p.val / 8, p.val % 8] = true ∧ SMap.find? t.eth.holdAt p.val = none ∧ SMap.get 0 s.eth.holdAt p.val ≤ t.now)
  ∧ (∀ (p : Fin 128) (s : State), Awake s → portState s p.val ≠ epDisabled → portState s p.val ≠ epUp →
    isSahrov s (p.val / 8) = false → lanesLocked s p.val = true →
    s.flag R.ETH_PORT_STATUS.LANE_RETIRED [p.val / 8, p.val % 8] = false →
    Does (.portQualified p) s fun t => portState t p.val = epUp ∧ SMap.find? t.eth.holdAt p.val = none ∧ t.flag R.ETH_PORT_STATUS.LOCAL_FAULT [p.val / 8, p.val % 8] = false ∧ t.flag R.ETH_PORT_STATUS.REMOTE_FAULT [p.val / 8, p.val % 8] = false ∧ (SMap.find? s.eth.qualAt p.val).getD s.now + max 1 (s.rd R.ETH_PORT_HOLD.UP_QUAL [p.val / 8, p.val % 8]) * 1000000 ≤ t.now)
  ∧ (∀ (p : Fin 128) (s : State), Awake s → portState s p.val = epTraining → (portCfg s p.val).train = true →
    Does (.linkTrainingTimeout p) s fun t => t = s.emit (.train p.val))
  ∧ (∀ (p : Fin 128) (s : State), Awake s → s.rd R.ETH_PORT_STATUS.VERIFY [p.val / 8, p.val % 8] = 1 →
    Does (.verifyTimeout p) s fun t => (SMap.get 0 s.eth.tries p.val ≥ 3 → t = s.wr R.ETH_PORT_STATUS.VERIFY [p.val / 8, p.val % 8] 3) ∧ (SMap.get 0 s.eth.tries p.val < 3 → SMap.find? t.eth.tries p.val = some (SMap.get 0 s.eth.tries p.val + 1) ∧ t.out = s.out ++ [.verify p.val]))
  ∧ (∀ (x : Fin 128) (b : Bool) (s : State), Awake s →
    s.flag R.ETH_LANE_STATUS.CDR_LOCK [x.val / 8, x.val % 8] = true → laneOwner s (x.val / 8) (x.val % 8) = none →
    Does (.laneCdrLoss x b) s fun t => t = laneLock s (x.val / 8) (x.val % 8) false ∧ t.flag R.ETH_LANE_STATUS.CDR_LOCK [x.val / 8, x.val % 8] = false)
  ∧ (∀ (x : Fin 128) (p : Nat) (s : State), Awake s →
    s.flag R.ETH_LANE_STATUS.CDR_LOCK [x.val / 8, x.val % 8] = true →
    laneOwner s (x.val / 8) (x.val % 8) = some p →
    Does (.laneCdrLoss x false) s (fun t => t = loseLink (laneLock s (x.val / 8) (x.val % 8) false) p) ∧ (portState s p = epUp ∨ portState s p = epHold ∨ portState s p = epDown → (∀ k ∈ portLanes s p, k = x.val % 8 ∨ s.flag R.ETH_LANE_STATUS.CDR_LOCK [x.val / 8, k] = true) → Does (.laneCdrLoss x true) s (fun t => t = laneFail (loseLink (laneLock s (x.val / 8) (x.val % 8) false) p) x.val)))
  ∧ (∀ (x : Fin 128) (c n : Nat) (p : Nat) (s : State), Awake s → laneOwner s (x.val / 8) (x.val % 8) = some p →
    n < 16 →
    Does (.fecUncorrectedBurst x c n) s fun t => t = (s.add R.ETH_PORT_CNT.COUNT [p / 8, p % 8, 20] c).add R.ETH_PORT_CNT.COUNT [p / 8, p % 8, 21] n)
  ∧ (∀ (x : Fin 128) (s : State), Awake s → laneRetired s (x.val / 8) (x.val % 8) = false →
    Does (.laneLockAcquired x) s fun t => t.flag R.ETH_LANE_STATUS.CDR_LOCK [x.val / 8, x.val % 8] = true)
  ∧ (∀ (o : Fin 16) (s : State), Awake s → isSahrov s o.val = false →
    ((List.range 8).find? (fun k => s.flag R.ETH_PORT_CFG.EN [o.val, k] && !portOk s o.val k)) = none →
    Does (.ethApply o) s fun t => ∀ k : Fin 8, portCfg t (8 * o.val + k.val) = if s.flag R.ETH_PORT_CFG.EN [o.val, k.val] then stagedCfg s o.val k.val else PortCfg.off)
  ∧ (∀ (x : Fin 128) (s : State), Awake s →
    Does (.pmdFault x) s fun t => ∃ u, u = laneLock s (x.val / 8) (x.val % 8) false ∧ t = laneFail (match laneOwner u (x.val / 8) (x.val % 8) with | some p => loseLink u p | none => u) x.val)
  ∧ (∀ (p : Fin 128) (s : State) (f : Bytes) (cut : Bool) (n : Fin 4) (k : Option (Fin 4)), Awake s →
    isSahrov s (p.val / 8) = false → portState s p.val = epUp → s.pwr.exitAt ≤ s.now → s.pwr.held = [] →
    Does (.frameReceive p .badFragment) s (fun t => t = (setPart s p.val none).inc R.ETH_PORT_CNT.COUNT [p.val / 8, p.val % 8, 19]) ∧ Does (.frameReceive p .verify) s (fun t => t = s.emit (.respond p.val)) ∧ Does (.frameReceive p .respond) s (fun t => t = if s.rd R.ETH_PORT_STATUS.VERIFY [p.val / 8, p.val % 8] = 1 then s.wr R.ETH_PORT_STATUS.VERIFY [p.val / 8, p.val % 8] 2 else s) ∧ Does (.frameReceive p (.frame f cut)) s (fun t => t = ethFrame s p.val f cut) ∧ Does (.frameReceive p (.fragment n k f)) s (fun t => t = fragReceive s p.val n.val (k.map (·.val)) f))
  ∧ (∀ (p : Fin 128) (s : State) (f : Bytes) (cut : Bool), Awake s → portState s p.val = epUp →
    s.now < s.pwr.exitAt →
    Does (.frameReceive p (.frame f cut)) s fun t => t = if heldBytes s p.val + f.length ≤ 65536 then { s with pwr := { s.pwr with held := s.pwr.held ++ [(p.val, .frame f cut)] } } else s.inc R.ETH_PORT_CNT.COUNT [p.val / 8, p.val % 8, 6])
  ∧ (∀ (p : Fin 128) (pri : Fin 8) (s : State), Awake s → xoff s p.val pri.val = true →
    (portCfg s p.val).pfc = true → (portCfg s p.val).pause = false →
    Does (.pfcRefresh p pri) s fun t => t = (s.emit (.pfc p.val (2 ^ pri.val) (s.rd R.GRN_PFC_PROF_W3.QUANTA [pfcProf s p.val]))).inc R.ETH_PORT_CNT.COUNT [p.val / 8, p.val % 8, 17])
  ∧ (∀ (p : Fin 128) (st go : BitVec 8) (s : State), Awake s → isSahrov s (p.val / 8) = false →
    portState s p.val = epUp → (portCfg s p.val).pfc = true →
    Does (.pfcFrameReceive p false st go) s fun t => t.rd R.TLY_EP_W2.PAUSED [p.val] = Nat.lor (Nat.land (s.rd R.TLY_EP_W2.PAUSED [p.val]) (255 - go.toNat)) st.toNat % 2 ^ 8 ∧ t.rd R.ETH_PORT_CNT.COUNT [p.val / 8, p.val % 8, 16] = (s.rd R.ETH_PORT_CNT.COUNT [p.val / 8, p.val % 8, 16] + 1) % 2 ^ 64)
  ∧ (∀ (p : Fin 128) (pri : Fin 8) (s : State), Awake s → (portCfg s p.val).pause = false →
    Does (.pauseQuantaExpiry p pri) s fun t => t = s.wr R.TLY_EP_W2.PAUSED [p.val] (setBit (s.rd R.TLY_EP_W2.PAUSED [p.val]) pri.val false))

/-- The packet path of a pipeline and its tables. Rules R39, R109, R130, R134, R139, R148, R153. Completes (exec answers
a next state, by the effect of its own rule), a clause each: hbmLookupComplete, internalInputFrame, espInnerReentry,
patternScanComplete, fragEntryExpiry, tableEnable, tableReady, tableDisable. What rests on a choice of the model
here: log entries 6, 38. -/
def Obligations.PacketPath : Prop :=
  (∀ (p : Fin 16) (err : Option (Fin 4)) (s : State) (w : Wait) (r : List Wait), Awake s →
    SMap.get [] s.win.wait p.val = w :: r →
    Does (.hbmLookupComplete p err) s fun t => ∃ v u, v = (match err with | some i => hbmFail s (bucketLine s w i.val) | none => s) ∧ u = (match (advance v w true err.isSome 5).2 with | some y => setWait (advance v w true err.isSome 5).1 p.val (y :: r) | none => drainWait (advance v w true err.isSome 5).1 p.val r) ∧ t = drainRx u p.val (SMap.get [] u.win.rxbuf p.val).length)
  ∧ (∀ (p : Fin 16) (s : State) (x : Pkt) (l : List Pkt), Awake s → (SMap.get [] s.win.wait p.val).length < 2048 →
    SMap.get [] s.win.inq p.val = x :: l → xoff s (128 + p.val) (x.tc % 8) = false → x.tx = none →
    Does (.internalInputFrame p) s fun t => t = feed { s with win := { s.win with turns := SMap.del s.win.turns p.val, inq := SMap.set [] s.win.inq p.val l } } x)
  ∧ (∀ (s : State) (e : Esp) (st : Nat) (b : Bytes) (r : List (Esp × Nat × Bytes)), Awake s →
    s.win.espDone = (e, st, b) :: r →
    Does .espInnerReentry s fun t => ∃ u, u = { s with win := { s.win with espDone := r } } ∧ (st = 0 → t = toInternal u (espInner u e b)) ∧ (st = stAuthFail → t = u.inc R.WIN_GLB_CNT.COUNT [5]))
  ∧ (∀ (e : Fin 2) (s : State) (j : Scan) (r : List Scan), Awake s →
    (if e = 0 then s.win.scan0 else s.win.scan1) = j :: r →
    Does (.patternScanComplete e) s fun t => t = scanPacket { s with win := if e = 0 then { s.win with scan0 := r } else { s.win with scan1 := r } } j)
  ∧ (∀ (s : State), Awake s → Does .fragEntryExpiry s fun t => t.win.frag = s.win.frag.filter (fragLive s))
  ∧ (∀ (i : Fin 64) (s : State), Awake s → s.flag R.WIN_TBL.EN [i.val] = false → tblPlaced s i.val = true →
    Does (.tableEnable i) s fun t => t = (tblClear s i.val).wr R.WIN_TBL.EN [i.val] 1 ∧ t.flag R.WIN_TBL.EN [i.val] = true ∧ t.rd R.WIN_TBL_OCC.OCCUPANCY [i.val] = 0 ∧ t.rd R.WIN_TBL_STASH.STASH_USED [i.val] = 0)
  ∧ (∀ (i : Fin 64) (s : State), Awake s → s.flag R.WIN_TBL.EN [i.val] = true →
    Does (.tableReady i) s fun t => t = s.wr R.WIN_TBL.READY [i.val] 1)
  ∧ (∀ (i : Fin 64) (s : State), Awake s → s.flag R.WIN_TBL.EN [i.val] = true →
    Does (.tableDisable i) s fun t => t = ((tblClear s i.val).wr R.WIN_TBL.EN [i.val] 0).wr R.WIN_TBL.READY [i.val] 0)

/-- Selection, transmission, shapers and gates of an egress point. Rules R218, R219, R220, R223, R224, R232, R236, R237,
R238, R239. Completes (exec answers a next state, by the effect of its own rule), a clause each: egressSelect,
selectionDisplace, frameTransmitStart, shaperRefill, gateEvent, gateChange, gateConfigChange, gateDisable. What
rests on a choice of the model here: log entries 6, 48, 160, 170, 171. -/
def Obligations.EgressPoint : Prop :=
  (∀ (e : Fin 136) (s : State), Awake s → SMap.find? s.tly.sel e.val = none →
    Does (.egressSelect e) s fun t => SMap.find? t.tly.sel e.val = choose s e.val ∧ t.regs = s.regs ∧ t.grn = s.grn)
  ∧ (∀ (e : Fin 136) (s : State) (x : Sel), Awake s → SMap.find? s.tly.sel e.val = some x →
    ((queueList s x.q).head?.map (·.ct)).getD false = false → displaced s e.val x = true →
    gateDeferred (s.inc R.TLY_EP_CNT.COUNT [e.val, 2]) e.val x = false →
    Does (.selectionDisplace e) s fun t => ∃ u, u = s.inc R.TLY_EP_CNT.COUNT [e.val, 2] ∧ t = egressSelect { u with tly := { u.tly with sel := SMap.del u.tly.sel e.val } } e.val)
  ∧ (∀ (e : Fin 136) (under : Bool) (s v : State) (x : Sel) (y : QEnt) (r : List QEnt), Awake s →
    SMap.find? s.tly.sel e.val = some x → queueList s x.q = y :: r → epReady s e.val = true →
    (y.ct = true ∨ selElig s e.val x = true) → SMap.find? s.eth.tx e.val = none →
    egressDrop s e.val (gframe s y.fid) y (edited s y) = false → v = startFrame s e.val x y r (edited s y) →
    Does (.frameTransmitStart e under) s fun t => (128 ≤ e.val → t = hostTransmit v e.val x.q (gframe s y.fid) y (edited s y)) ∧ (e.val < 128 → isSahrov v (e.val / 8) = true → t = sahrovTransmit v e.val x.q (gframe s y.fid) y (edited s y)) ∧ (e.val < 128 → isSahrov v (e.val / 8) = false → t = ethTransmit v e.val x.q (isExpress s e.val (tQueue s x.q).tc || !preemptOn s e.val) (gframe s y.fid) y (edited s y) under))
  ∧ (∀ (s : State), Awake s →
    Does .shaperRefill s fun t => ∃ u, u = refillTree s ∧ t = { u with tly := { u.tly with pol := SMap.mapVal (fun p => if p.valid then polRefill p else p) u.tly.pol } })
  ∧ (∀ (e : Fin 128) (b : Bool) (s : State) (o : Oper), Awake s → SMap.find? s.tly.oper e.val = some o →
    s.flag R.TLY_GATE.EN [e.val] = true → (b = true ∨ s.rd R.TLY_GATE_OPER.OPER_INDEX [e.val] + 1 < o.len) →
    Does (.gateEvent e b) s fun t => t = gateTx (gateApply s e.val (if b then 0 else s.rd R.TLY_GATE_OPER.OPER_INDEX [e.val] + 1)) e.val)
  ∧ (∀ (e : Fin 128) (s : State), Awake s → s.flag R.TLY_GATE.PENDING [e.val] = false → gateCheck s e.val = 0 →
    Does (.gateChange e) s fun t => t.flag R.TLY_GATE.PENDING [e.val] = true ∧ ∃ o, SMap.find? t.tly.pendOper e.val = some o ∧ o.len = s.rd R.TLY_GATE_LEN.ADMIN_LEN [e.val] ∧ o.cycle = s.rd R.TLY_GATE_CYCLE.CYCLE_NS [e.val] ∧ t.rd R.TLY_GATE_CCT_NS.CCT_NS [e.val] = o.base % 1000000000)
  ∧ (∀ (e : Fin 128) (s : State) (o : Oper), Awake s → SMap.find? s.tly.pendOper e.val = some o →
    s.flag R.TLY_GATE.PENDING [e.val] = true →
    Does (.gateConfigChange e) s fun t => SMap.find? t.tly.oper e.val = some o ∧ SMap.find? t.tly.pendOper e.val = none ∧ t.flag R.TLY_GATE.PENDING [e.val] = false ∧ t.rd R.TLY_GATE_OPER.OPER_INDEX [e.val] = 0)
  ∧ (∀ (e : Fin 128) (s : State), Awake s →
    Does (.gateDisable e) s fun t => SMap.find? t.tly.oper e.val = none ∧ SMap.find? t.tly.pendOper e.val = none ∧ t.flag R.TLY_GATE.EN [e.val] = false ∧ t.rd R.TLY_GATE_OPER.OPER_GATES [e.val] = 255)

/-- Cells, queues and deliveries of Granary. Rules R168, R174, R175, R183, R192, R198, R201, R679. Completes (exec
answers a next state, by the effect of its own rule), a clause each: flushCellReturn, granaryEnable, qprofMinWrite,
headroomConfigWrite, deepReturn, multicastMemberEnqueue, filbertDelivery, granarySramError. What rests on a choice
of the model here: log entries 6, 41, 45, 168, 169. -/
def Obligations.GranaryCells : Prop :=
  (∀ (n : Nat) (s : State) (x : FlushEnt) (r : List FlushEnt), Awake s → s.grn.flush = x :: r → x.left ≠ 0 →
    Does (.flushCellReturn n) s fun t => t = flushReturn (flushOne s x r) (31 + n))
  ∧ (∀ (en : Bool) (s : State), Awake s → s.flag R.GRN_CFG.EN [] = !en → grnCheck s = 0 → cellsInUse s = 0 →
    Does (.granaryEnable en) s fun t => t.flag R.GRN_CFG.EN [] = en)
  ∧ (∀ (i : Fin 64) (v : BitVec 20) (s : State), Awake s →
    (reserveSum (s.wr R.GRN_QPROF_W0.MIN [i.val] v.toNat) s.grn.qmap ≤ s.rd R.GRN_POOL.RESERVE [] ∨ s.flag R.GRN_CFG.EN [] = false) →
    Does (.qprofMinWrite i v) s fun t => t = s.wr R.GRN_QPROF_W0.MIN [i.val] v.toNat)
  ∧ (∀ (i : Fin 144) (pri : BitVec 8) (f : Fin 16) (j : Fin 16) (v : BitVec 20) (s : State), Awake s →
    headroomSum ((s.wr R.GRN_IN_CFG_W0.LOSSLESS_PRI [i.val] pri.toNat).wr R.GRN_IN_CFG_W0.PFC_PROF [i.val] f.val) ≤ s.rd R.GRN_POOL_HR.HEADROOM [] →
    headroomSum (s.wr R.GRN_PFC_PROF_W2.HEADROOM [j.val] v.toNat) ≤ s.rd R.GRN_POOL_HR.HEADROOM [] →
    Does (.headroomConfigWrite (.inl (i, pri, f))) s (fun t => t.rd R.GRN_IN_CFG_W0.LOSSLESS_PRI [i.val] = pri.toNat ∧ t.rd R.GRN_IN_CFG_W0.PFC_PROF [i.val] = f.val) ∧ Does (.headroomConfigWrite (.inr (j, v))) s (fun t => t.rd R.GRN_PFC_PROF_W2.HEADROOM [j.val] = v.toNat))
  ∧ (∀ (q : Fin 65536) (errs : BitVec 64) (s : State) (x : QEnt) (r : List QEnt) (pf ep : Nat), Awake s →
    deepList s q.val = x :: r → queueProf s q.val = some pf → queueEp s q.val = some ep →
    qCells s q.val * 2 < s.rd R.GRN_QPROF_W2.SPILL_THRESH [pf] → sharedFree s ≠ 0 → s.flag R.GRN_CFG.EN [] = true →
    s.grn.await.contains (q.val, x.fid) = false →
    Does (.deepReturn q errs) s fun t => ∃ bad u, bad = (List.range x.deep.length).filter (fun i => bit errs.toNat i) ∧ u = bad.foldl (fun s i => hbmFail s (deepAddr s (x.deep.getD i 0))) s ∧ t = deepMove u q.val ep x r bad)
  ∧ (∀ (s u : State) (w : McWait) (l : List McWait) (m : Nat × Nat × Nat) (ms : List (Nat × Nat × Nat)) (q pf ep : Nat),
    Awake s → s.grn.mc = w :: l → w.members = m :: ms → q = leAt (mcMember s m.1) 0 2 → queueProf s q = some pf →
    queueEp s q = some ep → (bit (byteAt (mcMember s m.1) 4) 0 && ep == (gframe s w.fid).pkt.origin) = false →
    s.flag R.GRN_QPROF_W0.LONG_HAUL [pf] = false →
    u = { s with grn := { s.grn with mc := if ms.isEmpty then l else { w with members := ms } :: l } } →
    Does (.multicastMemberEnqueue 1) s fun t => t = enqueue (chargeQueue (unchargeQueue u m.2.1 m.2.2 (gframe s w.fid).cells.length) q ep (gframe s w.fid).cells.length) q ep { fid := w.fid, edit := if leAt (mcMember s m.1) 2 2 % 4096 = 0 then w.edit else leAt (mcMember s m.1) 2 2 % 4096, ct := false, bad := false, deep := [] })
  ∧ (∀ (s : State) (d : Deliv) (r : List Deliv), Awake s → s.grn.deliv = d :: r →
    Does .filbertDelivery s fun t => ∃ u, u = { s with grn := { s.grn with deliv := r } } ∧ (∀ b, freeBuf? u = some b → t = deliverInto u d b) ∧ (freeBuf? u = none → t = (dropRef u d.fid).inc R.FIL_CNT.COUNT [5]))
  ∧ (∀ (g : Fin 8) (p : Fin 4) (row : Fin 16384) (s : State) (c : Nat), Awake s →
    c = (4 * g.val + p.val) * 16384 + row.val →
    Does (.granarySramError g p row true) s (fun t => t = s.inc R.GRN_CNT.COUNT [7]) ∧ Does (.granarySramError g p row false) s (fun t => t = (countFailure (if SMap.get 0 s.grn.used c ≠ 0 then (poisonCell s c).inc R.GRN_CNT.COUNT [8] else s) 7 (cellPair c) 0 []).1))

/-- Units, acknowledgments and credit of a Sahrov link. Rules R90, R92, R93, R94. Completes (exec answers a next state,
by the effect of its own rule), a clause each: sahrovUnitReceive, sahrovDataSend, sahrovReplayTimeout,
sahrovAckTimer, stkAck, stkCredit. What rests on a choice of the model here: log entries 24, 25, 149, 150, 151. -/
def Obligations.SahrovUnits : Prop :=
  (∀ (j : Fin 4) (u : Bytes) (s : State), Awake s → linkUp s j.val = true → byteAt u 0 % 16 = 0 →
    unitFault u = none → byteAt u 1 / 16 % 4 = ownId s → beAt u 2 2 = (stkLink s j.val).rxSeq →
    Does (.sahrovUnitReceive j u) s fun t => t = unitAdmit (linkHeard s j.val) j.val u ((u.drop 16).take (u.length - 20)))
  ∧ (∀ (j : Fin 4) (c : Nat) (b : Bytes) (s : State), Awake s → linkUp s j.val = true →
    sendable (stkLink s j.val) (stkLink s j.val).sendq [] = some (c, b) → c < 8 →
    replayBytes (stkLink s j.val) + (unitBytes (b.take 15) (b.drop 16) (stkLink s j.val).txSeq).length ≤ 524288 →
    Does (.sahrovDataSend j) s fun t => t.out = s.out ++ [.unit j.val (unitBytes (b.take 15) (b.drop 16) (stkLink s j.val).txSeq)] ∧ (stkLink t j.val).txSeq = ((stkLink s j.val).txSeq + 1) % 65536 ∧ (stkLink t j.val).sendq = (stkLink s j.val).sendq.erase (c, b) ∧ ∃ x, (stkLink t j.val).replay = (stkLink s j.val).replay ++ [x] ∧ x.bytes = unitBytes (b.take 15) (b.drop 16) (stkLink s j.val).txSeq ∧ x.tc = c)
  ∧ (∀ (j : Fin 4) (s : State), Awake s → linkUp s j.val = true → (stkLink s j.val).replay ≠ [] →
    (stkLink s j.val).replay.any (fun x => decide (x.tries ≥ 8)) = false →
    Does (.sahrovReplayTimeout j) s fun t => t.out = s.out ++ (stkLink s j.val).replay.map (fun x => .unit j.val x.bytes) ∧ (stkLink t j.val).replay.map (·.tries) = (stkLink s j.val).replay.map (·.tries + 1))
  ∧ (∀ (j : Fin 4) (s : State), Awake s → linkUp s j.val = true →
    (stkLink s j.val).acked ≠ (stkLink s j.val).rxSeq →
    Does (.sahrovAckTimer j) s fun t => (stkLink t j.val).acked = (stkLink s j.val).rxSeq ∧ t.out = s.out ++ [.unit j.val (ctlUnit (s.rd R.STK_CFG.STACK_ID []) j.val ([2, 0] ++ beBytes 2 (((stkLink s j.val).rxSeq + 65535) % 65536) ++ [0] ++ List.replicate 11 0))])
  ∧ (∀ (j : Fin 4) (q : BitVec 16) (s : State), Awake s → linkHears s j.val = true →
    Does (.stkAck j q false) s fun t => (stkLink t j.val).replay = (stkLink s j.val).replay.filter (fun x => seqBefore q.toNat x.seq))
  ∧ (∀ (j : Fin 4) (c : Fin 8) (lim : BitVec 32) (s : State), Awake s → linkHears s j.val = true →
    Does (.stkCredit j c lim) s fun t => SMap.get 0 (stkLink t j.val).limit c.val = lim.toNat)

/-- Control of the stack: peers, heartbeats, time and shared state. Rules R96, R97, R99, R100, R101, R102, R550.
Completes (exec answers a next state, by the effect of its own rule), a clause each: hello, keepalive,
keepaliveTimer, peerLossTimeout, stackTimePeriod, time, timeRpt, stateMark, stateAck, masterJoin. What rests on a
choice of the model here: log entries 23, 26, 152, 153, 156. -/
def Obligations.StackControl : Prop :=
  (∀ (j : Fin 4) (l : BitVec 8) (s : State), Awake s → linkHears s j.val = true → s.flag R.STK_CFG.EN [] = true →
    s.flag R.STK_LINK.EN [j.val] = true → j.val ≠ ownId s → linkState s j.val ≠ lkDup →
    linkState s j.val ≠ lkLost →
    Does (.hello j j l) s fun t => linkState t j.val = lkUp ∧ (l.toNat = 4 → t.flag R.STK_LINK.X4 [j.val] = true) ∧ (linkState s j.val = lkHello → t.out.length = s.out.length + 8))
  ∧ (∀ (j : Fin 4) (b : BitVec 32) (x : Bool) (s : State), Awake s → linkHears s j.val = true →
    Does (.keepalive j b x) s fun t => (stkLink t j.val).heardAt = s.now ∧ (stkLink t j.val).peerBeat = b.toNat)
  ∧ (∀ (s : State), Awake s →
    Does .keepaliveTimer s fun t => s.stk.beatAt + max 1 (s.rd R.STK_CFG.KA_PERIOD []) * 10000 ≤ t.now ∧ t.stk.beatAt = t.now ∧ ∀ j : Fin 4, stkLink t j.val = (if linkHears s j.val then { stkLink s j.val with beat := ((stkLink s j.val).beat + 1) % 2 ^ 32 } else stkLink s j.val))
  ∧ (∀ (j : Fin 4) (s : State), Awake s → s.flag R.STK_CFG.EN [] = true → s.flag R.STK_LINK.EN [j.val] = true →
    j.val ≠ ownId s → linkState s j.val ≠ 0 →
    Does (.peerLossTimeout j) s fun t => linkState t j.val = lkLost ∧ (stkLink t j.val).joined = false ∧ (stkLink s j.val).heardAt + max 1 (s.rd R.STK_CFG.LOSS_TIME []) * 1000000 ≤ t.now ∧ (j = 0 → t.flag R.STK_STATUS.MASTER_LOST [] = true))
  ∧ (∀ (s : State), Awake s → stkTime s = true → linkUp s 0 = true →
    Does .stackTimePeriod s fun t => t.tu.seq = (s.tu.seq + 1) % 65536 ∧ t.tu.t3.isSome = true ∧ t.tu.timeAt = t.now ∧ s.tu.timeAt + max 1 (s.rd R.TU_STK.PERIOD []) * 10000000 ≤ t.now)
  ∧ (∀ (q : BitVec 16) (sec : BitVec 48) (ns : BitVec 30) (f : BitVec 16) (s : State), Awake s → stkTime s = true →
    linkUp s 0 = true →
    Does (.time 0 q sec ns f) s fun t => t.tu.t1 = some (tsMake sec.toNat ns.toNat f.toNat) ∧ t.tu.seq = s.tu.seq)
  ∧ (∀ (q : BitVec 16) (sec : BitVec 48) (ns : BitVec 30) (f : BitVec 16) (s : State) (a b : Nat), Awake s →
    stkTime s = true → linkHears s 0 = true → q.toNat = s.tu.seq → s.tu.t1 = some a → s.tu.t3 = some b →
    Does (.timeRpt 0 q sec ns f) s fun t => t.tu.t1 = none ∧ t.tu.t3 = none)
  ∧ (∀ (q : BitVec 32) (s : State), Awake s → s.flag R.STK_CFG.EN [] = true → linkHears s 0 = true →
    isMaster s = false →
    Does (.stateMark 0 q 1) s (fun t => t.stk.snap = some [] ∧ t.stk.inbox = [] ∧ t.flag R.STK_STATUS.RESYNC [] = true) ∧ (s.stk.snap = none → s.flag R.STK_STATUS.MASTER_LOST [] = false → s.stk.inbox = [] → Does (.stateMark 0 q 0) s (fun t => t.rd R.STK_SEQ.STATE_SEQ [] = q.toNat ∧ t.out = s.out ++ [.unit 0 (ctlUnit (s.rd R.STK_CFG.STACK_ID []) 0 ([8, 0, 0, 0] ++ beBytes 4 q.toNat ++ List.replicate 8 0))])))
  ∧ (∀ (j : Fin 4) (q : BitVec 32) (s : State), Awake s → linkHears s j.val = true →
    Does (.stateAck j q) s fun t => SMap.find? t.stk.acks j.val = some q.toNat)
  ∧ (∀ (s : State), Awake s → s.flag R.STK_CFG.EN [] = true → isMaster s = true → sharedEntries s = [] →
    sharedActs (markOut s 1) = [] → sharedEntries (markOut s 1) = [] →
    Does .masterJoin s fun t => t = markOut (markOut s 1) 2)

/-- CTRL operations on the Winnower and stack tables. Rules R113, R131, R132, R141, R152, R154, R155, R156, R676, R95,
R481, R482. Completes (exec answers a next state, by the effect of its own rule), a clause each: tblInsert,
tblDelete, tblRead, actWrite, nodeWrite, graphCommit, editWrite, tmplWrite, patWrite, patCommit, cntRead, fragFlush,
stkDestWrite, stkDqmapWrite. What rests on a choice of the model here: log entries 29, 39, 40, 154. -/
def Obligations.WinnowerCtrl : Prop :=
  (∀ (r : Fin 262144) (b : Bytes) (k : Nat) (d : Bytes) (s u v : State), Awake s →
    CtrlOne s r.val 0x10 (32 * tblSlots s (argTable (ctrlArg d))) k d b u → tblEarly true s (ctrlArg d) = none →
    entImageOk u (argTable (ctrlArg d)) (slice b 0 (ctrlStride (32 * tblSlots s (argTable (ctrlArg d))))) = true →
    tblInsert u (argTable (ctrlArg d)) (slice b 0 (ctrlStride (32 * tblSlots s (argTable (ctrlArg d))))) (bit (ctrlArg d) 22) = .ok v →
    Does (.tblInsert r (.ok b)) s fun t => t = ctrlEnd (sharedChange v (argTable (ctrlArg d)) 0x10 (slice b 0 (ctrlStride (32 * tblSlots s (argTable (ctrlArg d)))))) r.val k d stSuccess 1)
  ∧ (∀ (r : Fin 262144) (b : Bytes) (k : Nat) (d : Bytes) (s u v : State), Awake s →
    CtrlOne s r.val 0x11 (32 * tblSlots s (argTable (ctrlArg d))) k d b u → tblEarly true s (ctrlArg d) = none →
    entImageOk u (argTable (ctrlArg d)) (slice b 0 (ctrlStride (32 * tblSlots s (argTable (ctrlArg d))))) = true →
    tblDelete u (argTable (ctrlArg d)) (entKey u (argTable (ctrlArg d)) (slice (slice b 0 (ctrlStride (32 * tblSlots s (argTable (ctrlArg d))))) 0 (32 * tblSlots u (argTable (ctrlArg d))))) = some v →
    Does (.tblDelete r (.ok b)) s fun t => t = ctrlEnd (sharedChange v (argTable (ctrlArg d)) 0x11 (slice b 0 (ctrlStride (32 * tblSlots s (argTable (ctrlArg d)))))) r.val k d stSuccess 1)
  ∧ (∀ (r : Fin 262144) (b : Bytes) (k : Nat) (d : Bytes) (s u : State) (l : Loc), Awake s →
    CtrlOne s r.val 0x12 (32 * tblSlots s (argTable (ctrlArg d))) k d b u → tblEarly false s (ctrlArg d) = none →
    entImageOk u (argTable (ctrlArg d)) (slice b 0 (ctrlStride (32 * tblSlots s (argTable (ctrlArg d))))) = true →
    findKey u (argTable (ctrlArg d)) (entKey u (argTable (ctrlArg d)) (slice (slice b 0 (ctrlStride (32 * tblSlots s (argTable (ctrlArg d))))) 0 (32 * tblSlots u (argTable (ctrlArg d))))) = some l →
    Does (.tblRead r (.ok b)) s fun t => ∃ v w, v = entRead u (argTable (ctrlArg d)) l ∧ w = (if bit (ctrlArg d) 23 then entWrite u (argTable (ctrlArg d)) l (overlay v 0 [byteOf (setBit (byteAt v 0) 3 false)]) else u) ∧ t = ctrlEnd (ringWrite w r.val (ctrlAddr d) (byteOf (setBit (byteAt (slice b 0 (ctrlStride (32 * tblSlots s (argTable (ctrlArg d))))) 0) 3 (bit (byteAt v 0) 3)) :: slice (slice b 0 (ctrlStride (32 * tblSlots s (argTable (ctrlArg d))))) 1 3 ++ leBytes 4 (entAct v) ++ slice v 8 8)) r.val k d stSuccess 1)
  ∧ (∀ (r : Fin 262144) (b : Bytes) (k : Nat) (d : Bytes) (s u : State), Awake s → CtrlOne s r.val 0x14 64 k d b u →
    recIndex (slice b 0 (ctrlStride 64)) < 131072 → actOk (recObj (slice b 0 (ctrlStride 64)) 32) = true →
    (isMember u && (sharedActs u).contains (recIndex (slice b 0 (ctrlStride 64)))) = false →
    Does (.actWrite r (.ok b)) s fun t => t = ctrlEnd ((fun w : State => if (sharedActs u).contains (recIndex (slice b 0 (ctrlStride 64))) then shareChange w (changeBytes 0x14 0 (recIndex (slice b 0 (ctrlStride 64))) (recObj (slice b 0 (ctrlStride 64)) 32)) else w) { u with win := { u.win with act := SMap.set zero32 u.win.act (recIndex (slice b 0 (ctrlStride 64))) (recObj (slice b 0 (ctrlStride 64)) 32) } }) r.val k d stSuccess 1)
  ∧ (∀ (r : Fin 262144) (b : Bytes) (k : Nat) (d : Bytes) (s u : State), Awake s → CtrlOne s r.val 0x15 96 k d b u →
    recIndex (slice b 0 (ctrlStride 96)) < 512 → nodeOk (recObj (slice b 0 (ctrlStride 96)) 64) = true →
    Does (.nodeWrite r (.ok b)) s fun t => t = ctrlEnd (putNode u (recIndex (slice b 0 (ctrlStride 96))) (recObj (slice b 0 (ctrlStride 96)) 64)) r.val k d stSuccess 1)
  ∧ (∀ (r : Fin 262144) (k : Nat) (d : Bytes) (s : State), Awake s → headOp s r.val 5 0x16 = some (k, d) →
    Does (.graphCommit r) s fun t => t = ctrlEnd (s.wr R.WIN_GLB_CFG.GRAPH_SEL [] (s.rd R.WIN_GLB_CFG.GRAPH_SEL [] + 1)) r.val k d stSuccess 0)
  ∧ (∀ (r : Fin 262144) (b : Bytes) (k : Nat) (d : Bytes) (s u : State), Awake s → CtrlOne s r.val 0x17 96 k d b u →
    recIndex (slice b 0 (ctrlStride 96)) ≠ 0 → recIndex (slice b 0 (ctrlStride 96)) < 4096 →
    progOk (recObj (slice b 0 (ctrlStride 96)) 64) = true →
    Does (.editWrite r (.ok b)) s fun t => t = ctrlEnd ({ u with win := { u.win with edit := SMap.set zero64 u.win.edit (recIndex (slice b 0 (ctrlStride 96))) (recObj (slice b 0 (ctrlStride 96)) 64) } }) r.val k d stSuccess 1)
  ∧ (∀ (r : Fin 262144) (b : Bytes) (k : Nat) (d : Bytes) (s u : State), Awake s →
    CtrlOne s r.val 0x18 160 k d b u → recIndex (slice b 0 (ctrlStride 160)) < 1024 →
    Does (.tmplWrite r (.ok b)) s fun t => t = ctrlEnd ({ u with win := { u.win with tmpl := SMap.set zeroTmpl u.win.tmpl (recIndex (slice b 0 (ctrlStride 160))) (recObj (slice b 0 (ctrlStride 160)) 128) } }) r.val k d stSuccess 1)
  ∧ (∀ (r : Fin 262144) (b : Bytes) (k : Nat) (d : Bytes) (s u : State), Awake s → CtrlOne s r.val 0x19 96 k d b u →
    recIndex (slice b 0 (ctrlStride 96)) < 65536 → patOk (recObj (slice b 0 (ctrlStride 96)) 64) = true →
    Does (.patWrite r (.ok b)) s fun t => t = ctrlEnd (putPat u (recIndex (slice b 0 (ctrlStride 96))) (recObj (slice b 0 (ctrlStride 96)) 64)) r.val k d stSuccess 1)
  ∧ (∀ (r : Fin 262144) (k : Nat) (d : Bytes) (s : State), Awake s → headOp s r.val 5 0x1A = some (k, d) →
    Does (.patCommit r) s fun t => t = ctrlEnd (s.wr R.WIN_GLB_CFG.PAT_SEL [] (s.rd R.WIN_GLB_CFG.PAT_SEL [] + 1)) r.val k d stSuccess 0)
  ∧ (∀ (r : Fin 262144) (b : Bytes) (k : Nat) (d : Bytes) (s u : State), Awake s → CtrlOne s r.val 0x1B 32 k d b u →
    recIndex (slice b 0 (ctrlStride 32)) < 262144 →
    Does (.cntRead r (.ok b)) s fun t => ∃ p n w, SMap.get (0, 0) u.win.cnt (recIndex (slice b 0 (ctrlStride 32))) = (p, n) ∧ w = (if bit (ctrlArg d) 23 then putWin u { u.win with cnt := SMap.set (0, 0) u.win.cnt (recIndex (slice b 0 (ctrlStride 32))) (0, 0) } else u) ∧ t = ctrlEnd (ringWrite w r.val (ctrlAddr d + 8) (leBytes 8 p ++ leBytes 8 n ++ leBytes 8 0)) r.val k d stSuccess 1)
  ∧ (∀ (r : Fin 262144) (k : Nat) (d : Bytes) (s : State), Awake s → headOp s r.val 5 0x1C = some (k, d) →
    Does (.fragFlush r) s fun t => t = ctrlEnd (fragShow { s with win := { s.win with frag := [] } }) r.val k d stSuccess 0)
  ∧ (∀ (r : Fin 262144) (b : Bytes) (k : Nat) (d : Bytes) (s u : State), Awake s → CtrlOne s r.val 0x70 36 k d b u →
    recIndex (slice b 0 (ctrlStride 36)) < 65536 → destOk (recObj (slice b 0 (ctrlStride 36)) 4) = true →
    Does (.stkDestWrite r (.ok b)) s fun t => t = ctrlEnd ({ u with stk := { u.stk with dest := SMap.set 0xFFFF u.stk.dest (recIndex (slice b 0 (ctrlStride 36))) (leAt (recObj (slice b 0 (ctrlStride 36)) 4) 0 2) } }) r.val k d stSuccess 1)
  ∧ (∀ (r : Fin 262144) (b : Bytes) (k : Nat) (d : Bytes) (s u : State), Awake s → CtrlOne s r.val 0x71 36 k d b u →
    recIndex (slice b 0 (ctrlStride 36)) < 1088 →
    Does (.stkDqmapWrite r (.ok b)) s fun t => t = ctrlEnd ({ u with stk := { u.stk with dqmap := SMap.set 0 u.stk.dqmap (recIndex (slice b 0 (ctrlStride 36))) (leAt (recObj (slice b 0 (ctrlStride 36)) 4) 0 4) } }) r.val k d stSuccess 1)

/-- CTRL operations on the Granary and Tallyman tables. Rules R175, R193, R204, R230, R231, R242, R243, R244, R245,
R481, R482. Completes (exec answers a next state, by the effect of its own rule), a clause each: mcGroupWrite,
mcMemberWrite, qmapWrite, tlyNodeWrite, queueWrite, polWrite, polCntRead, gateWrite, stateRead. What rests on a
choice of the model here: log entries 46, 47. -/
def Obligations.SwitchCtrl : Prop :=
  (∀ (r : Fin 262144) (b : Bytes) (k : Nat) (d : Bytes) (s u : State), Awake s → CtrlOne s r.val 0x20 40 k d b u →
    recIndex (slice b 0 (ctrlStride 40)) < 65536 → groupOk (recObj (slice b 0 (ctrlStride 40)) 8) = true →
    Does (.mcGroupWrite r (.ok b)) s fun t => t = ctrlEnd ({ u with grn := { u.grn with groups := SMap.set (List.replicate 8 0) u.grn.groups (recIndex (slice b 0 (ctrlStride 40))) (recObj (slice b 0 (ctrlStride 40)) 8) } }) r.val k d stSuccess 1)
  ∧ (∀ (r : Fin 262144) (b : Bytes) (k : Nat) (d : Bytes) (s u : State), Awake s → CtrlOne s r.val 0x21 40 k d b u →
    recIndex (slice b 0 (ctrlStride 40)) < 262144 →
    Does (.mcMemberWrite r (.ok b)) s fun t => t = ctrlEnd ({ u with grn := { u.grn with members := SMap.set (List.replicate 8 0) u.grn.members (recIndex (slice b 0 (ctrlStride 40))) (recObj (slice b 0 (ctrlStride 40)) 8) } }) r.val k d stSuccess 1)
  ∧ (∀ (r : Fin 262144) (b : Bytes) (k : Nat) (d : Bytes) (s u : State), Awake s → CtrlOne s r.val 0x22 36 k d b u →
    recIndex (slice b 0 (ctrlStride 36)) < 65536 → u.flag R.GRN_CFG.EN [] = false →
    Does (.qmapWrite r (.ok b)) s fun t => t = ctrlEnd ({ u with grn := { u.grn with qmap := SMap.set 0 u.grn.qmap (recIndex (slice b 0 (ctrlStride 36))) (byteAt (slice b 0 (ctrlStride 36)) 32 % 64 + 128 * (byteAt (slice b 0 (ctrlStride 36)) 32 / 128)) } }) r.val k d stSuccess 1)
  ∧ (∀ (r : Fin 262144) (b : Bytes) (k : Nat) (d : Bytes) (s u : State), Awake s → CtrlOne s r.val 0x30 64 k d b u →
    recIndex (slice b 0 (ctrlStride 64)) < 4096 →
    memberOk (memberOf (recObj (slice b 0 (ctrlStride 64)) 32) true) = true →
    parentOk u (some (recIndex (slice b 0 (ctrlStride 64)))) (memberOf (recObj (slice b 0 (ctrlStride 64)) 32) true) 4 = true →
    (children u (kNode (recIndex (slice b 0 (ctrlStride 64)))) ≠ [] && (tNode u (recIndex (slice b 0 (ctrlStride 64)))).valid && (!(memberOf (recObj (slice b 0 (ctrlStride 64)) 32) true).valid || (memberOf (recObj (slice b 0 (ctrlStride 64)) 32) true).root ≠ (tNode u (recIndex (slice b 0 (ctrlStride 64)))).root || (memberOf (recObj (slice b 0 (ctrlStride 64)) 32) true).parent ≠ (tNode u (recIndex (slice b 0 (ctrlStride 64)))).parent)) = false →
    Does (.tlyNodeWrite r (.ok b)) s fun t => t = ctrlEnd ((fun w : State => memberMoved ({ w with tly := { w.tly with nodes := SMap.set Member.none w.tly.nodes (recIndex (slice b 0 (ctrlStride 64))) (memberOf (recObj (slice b 0 (ctrlStride 64)) 32) true) } } : State) (kNode (recIndex (slice b 0 (ctrlStride 64)))) (tNode u (recIndex (slice b 0 (ctrlStride 64)))) (memberOf (recObj (slice b 0 (ctrlStride 64)) 32) true)) (shaperStart u (kNode (recIndex (slice b 0 (ctrlStride 64)))) (tNode u (recIndex (slice b 0 (ctrlStride 64)))) (memberOf (recObj (slice b 0 (ctrlStride 64)) 32) true))) r.val k d stSuccess 1)
  ∧ (∀ (r : Fin 262144) (b : Bytes) (k : Nat) (d : Bytes) (s u : State), Awake s → CtrlOne s r.val 0x31 48 k d b u →
    recIndex (slice b 0 (ctrlStride 48)) < 65536 →
    memberOk (memberOf (recObj (slice b 0 (ctrlStride 48)) 16) false) = true →
    parentOk u none (memberOf (recObj (slice b 0 (ctrlStride 48)) 16) false) 5 = true →
    (backlogged u (recIndex (slice b 0 (ctrlStride 48))) && (tQueue u (recIndex (slice b 0 (ctrlStride 48)))).valid && (!(memberOf (recObj (slice b 0 (ctrlStride 48)) 16) false).valid || (memberOf (recObj (slice b 0 (ctrlStride 48)) 16) false).root ≠ (tQueue u (recIndex (slice b 0 (ctrlStride 48)))).root || (memberOf (recObj (slice b 0 (ctrlStride 48)) 16) false).parent ≠ (tQueue u (recIndex (slice b 0 (ctrlStride 48)))).parent)) = false →
    Does (.queueWrite r (.ok b)) s fun t => t = ctrlEnd ((fun w : State => memberMoved ({ w with tly := { w.tly with queues := SMap.set Member.none w.tly.queues (recIndex (slice b 0 (ctrlStride 48))) (memberOf (recObj (slice b 0 (ctrlStride 48)) 16) false) } } : State) (kQueue (recIndex (slice b 0 (ctrlStride 48)))) (tQueue u (recIndex (slice b 0 (ctrlStride 48)))) (memberOf (recObj (slice b 0 (ctrlStride 48)) 16) false)) (shaperStart u (kQueue (recIndex (slice b 0 (ctrlStride 48)))) (tQueue u (recIndex (slice b 0 (ctrlStride 48)))) (memberOf (recObj (slice b 0 (ctrlStride 48)) 16) false))) r.val k d stSuccess 1)
  ∧ (∀ (r : Fin 262144) (b : Bytes) (k : Nat) (d : Bytes) (s u : State), Awake s → CtrlOne s r.val 0x32 64 k d b u →
    recIndex (slice b 0 (ctrlStride 64)) < 131072 →
    polOk (polOf (recObj (slice b 0 (ctrlStride 64)) 32) (polGet u (recIndex (slice b 0 (ctrlStride 64))))) = true →
    Does (.polWrite r (.ok b)) s fun t => t = ctrlEnd ({ u with tly := { u.tly with pol := SMap.set Pol.none u.tly.pol (recIndex (slice b 0 (ctrlStride 64))) (polOf (recObj (slice b 0 (ctrlStride 64)) 32) (polGet u (recIndex (slice b 0 (ctrlStride 64))))) } }) r.val k d stSuccess 1)
  ∧ (∀ (r : Fin 262144) (b : Bytes) (k : Nat) (d : Bytes) (s u : State), Awake s → CtrlOne s r.val 0x33 32 k d b u →
    recIndex (slice b 0 (ctrlStride 32)) < 131072 →
    Does (.polCntRead r (.ok b)) s fun t => ∃ p w, p = polGet u (recIndex (slice b 0 (ctrlStride 32))) ∧ w = (if bit (ctrlArg d) 23 then polPut u (recIndex (slice b 0 (ctrlStride 32))) { p with green := 0, yellow := 0, red := 0 } else u) ∧ t = ctrlEnd (ringWrite w r.val (ctrlAddr d + 8) (leBytes 8 p.green ++ leBytes 8 p.yellow ++ leBytes 8 p.red)) r.val k d stSuccess 1)
  ∧ (∀ (r : Fin 262144) (b : Bytes) (k : Nat) (d : Bytes) (s u : State), Awake s → CtrlOne s r.val 0x34 40 k d b u →
    recIndex (slice b 0 (ctrlStride 40)) < 1024 → gateOp (recObj (slice b 0 (ctrlStride 40)) 8) ≠ 3 →
    16 ≤ gateNs (recObj (slice b 0 (ctrlStride 40)) 8) →
    u.flag R.TLY_GATE.PENDING [bits (ctrlArg d) 16 7] = false →
    Does (.gateWrite r (.ok b)) s fun t => t = ctrlEnd ({ u with tly := { u.tly with gate := SMap.set (List.replicate 8 0) u.tly.gate ((bits (ctrlArg d) 16 7 * 2 + (1 - operSel u (bits (ctrlArg d) 16 7))) * 1024 + recIndex (slice b 0 (ctrlStride 40))) (recObj (slice b 0 (ctrlStride 40)) 8) } }) r.val k d stSuccess 1)
  ∧ (∀ (r : Fin 262144) (b : Bytes) (k : Nat) (d : Bytes) (s u : State), Awake s → CtrlOne s r.val 0x35 32 k d b u →
    recIndex (slice b 0 (ctrlStride 32)) < 4096 →
    Does (.stateRead r (.ok b)) s fun t => ∃ n, n = kNode (recIndex (slice b 0 (ctrlStride 32))) ∧ t = ctrlEnd (ringWrite u r.val (ctrlAddr d + 8) (leBytes 8 (ofSigned 64 (maxTok u n)) ++ leBytes 8 (ofSigned 64 (minTok u n)) ++ leBytes 8 (fOf u n))) r.val k d stSuccess 1)

/-- Data packets that pass the checks of Carter. Rules R258, R281, R318, R323, R325. Completes (exec answers a next
state, by the effect of its own rule), a clause each: wireWrite, wireWriteImm, wireSend, wireSendImm, readReq,
readResp, atomicResp, wireAtomic. What rests on a choice of the model here: log entries 49, 51, 52, 144, 172, 173. -/
def Obligations.CarterReceive : Prop :=
  (∀ (h : Hap) (s u m : State) (n : Nat) (c : Conn) (p : Pkt) (x : Cth) (psn : Nat) (pay : Bytes) (e : Conn) (g : MemRegion),
    Awake s → DataPassed s 1 h u n c p x psn pay → connGet u n = some e → m = markPsn u n psn p x →
    regionFor u n e (beAt x.ext 0 4) (beAt x.ext 8 8) x.payLen 0 h = some g → h ≠ .fault → instOk m g.inst = true →
    (instReach s g.inst true [(beAt x.ext 8 8, x.payLen)]).1 = true →
    Does (.wireWrite h) s fun t => t = afterMark (instWrite m g.inst (beAt x.ext 8 8) pay false) n e psn x)
  ∧ (∀ (h : Hap) (s u m : State) (n : Nat) (c : Conn) (p : Pkt) (x : Cth) (psn : Nat) (pay : Bytes) (e : Conn) (g : MemRegion) (b : Binding) (v : State),
    Awake s → DataPassed s 2 h u n c p x psn pay → connGet u n = some e →
    regionFor u n e (beAt x.ext 0 4) (beAt x.ext 8 8) x.payLen 0 h = some g → bindMsg u n e x = some (b, v) →
    m = bindNote (markPsn v n psn p x) n psn x → h ≠ .fault → instOk m g.inst = true → instOk u g.inst = true →
    (instReach s g.inst true [(beAt x.ext 8 8, x.payLen)]).1 = true →
    Does (.wireWriteImm h) s fun t => t = afterMark (instWrite m g.inst (beAt x.ext 8 8) pay false) n e psn x)
  ∧ (∀ (h : Hap) (s u m : State) (n : Nat) (c : Conn) (p : Pkt) (x : Cth) (psn : Nat) (pay : Bytes) (e : Conn) (b : Binding) (v : State),
    Awake s → DataPassed s 3 h u n c p x psn pay → connGet u n = some e → bindMsg u n e x = some (b, v) →
    b.flushed = false → beAt x.ext 0 4 + pay.length ≤ b.ent.len → m = bindNote (markPsn v n psn p x) n psn x →
    h ≠ .fault → instOk m e.inst = true →
    (instReach s e.inst true [(b.ent.addr + beAt x.ext 0 4, pay.length)]).1 = true →
    Does (.wireSend h) s fun t => t = afterMark (instWrite m e.inst (b.ent.addr + beAt x.ext 0 4) pay false) n e psn x)
  ∧ (∀ (h : Hap) (s u m : State) (n : Nat) (c : Conn) (p : Pkt) (x : Cth) (psn : Nat) (pay : Bytes) (e : Conn) (b : Binding) (v : State),
    Awake s → DataPassed s 4 h u n c p x psn pay → connGet u n = some e → bindMsg u n e x = some (b, v) →
    b.flushed = false → beAt x.ext 0 4 + pay.length ≤ b.ent.len → m = bindNote (markPsn v n psn p x) n psn x →
    h ≠ .fault → instOk m e.inst = true →
    (instReach s e.inst true [(b.ent.addr + beAt x.ext 0 4, pay.length)]).1 = true →
    Does (.wireSendImm h) s fun t => t = afterMark (instWrite m e.inst (b.ent.addr + beAt x.ext 0 4) pay false) n e psn x)
  ∧ (∀ (h : Hap) (s u m : State) (n : Nat) (c : Conn) (p : Pkt) (x : Cth) (psn : Nat) (pay : Bytes) (g : MemRegion) (b : Bytes),
    Awake s → DataPassed s 5 h u n c p x psn pay → m = markPsn u n psn p x →
    regionFor u n c (beAt x.ext 0 4) (beAt x.ext 8 8) (beAt x.ext 16 4) 1 h = some g → beAt x.ext 16 4 ≠ 0 →
    instOk m g.inst = true → (instFetch s g.inst [(beAt x.ext 8 8, beAt x.ext 16 4)] (.ok b)).1 = true →
    Does (.readReq (.ok b) h) s fun t => t = afterMark (queueResp (instFetch m g.inst [(beAt x.ext 8 8, beAt x.ext 16 4)] (.ok b)).2 n 6 x.msg (slice b 0 (beAt x.ext 16 4))) n c psn x)
  ∧ (∀ (h : Hap) (s u m : State) (n : Nat) (c : Conn) (p : Pkt) (x : Cth) (psn : Nat) (pay : Bytes) (w : Work) (r k : Nat) (d : Bytes),
    Awake s → DataPassed s 6 h u n c p x psn pay → m = markPsn u n psn p x →
    u.car.works.find? (fun w => w.conn == n && w.msg == beAt x.ext 0 4 && w.ended.isNone && w.op == 5) = some w →
    m.car.works.find? (fun w => w.conn == n && w.msg == beAt x.ext 0 4 && w.ended.isNone && w.op == 5) = some w →
    w.src = .ring r k d → beAt x.ext 4 4 + x.payLen ≤ w.len → h ≠ .fault → instOk u c.inst = true →
    instOk m c.inst = true → (instReach s c.inst true [(w.addr + beAt x.ext 4 4, x.payLen)]).1 = true →
    Does (.readResp h) s fun t => t = afterMark (modWorks (instWrite m c.inst (w.addr + beAt x.ext 4 4) pay false) (fun y => if y == w then { w with got := w.got + x.payLen, ended := if w.got + x.payLen ≥ w.len then some (stSuccess, w.len) else none } else y)) n c psn x)
  ∧ (∀ (h : Hap) (s u m : State) (n : Nat) (c : Conn) (p : Pkt) (x : Cth) (psn : Nat) (pay : Bytes) (w : Work) (r k : Nat) (d : Bytes),
    Awake s → DataPassed s 8 h u n c p x psn pay → m = markPsn u n psn p x →
    u.car.works.find? (fun w => w.conn == n && w.msg == beAt x.ext 0 4 && w.ended.isNone && w.op == 7) = some w →
    m.car.works.find? (fun w => w.conn == n && w.msg == beAt x.ext 0 4 && w.ended.isNone && w.op == 7) = some w →
    w.src = .ring r k d → beAt x.ext 4 4 + x.payLen ≤ w.len → h ≠ .fault → instOk u c.inst = true →
    instOk m c.inst = true → (instReach s c.inst true [(w.addr + beAt x.ext 4 4, x.payLen)]).1 = true →
    Does (.atomicResp h) s fun t => t = afterMark (modWorks (instWrite m c.inst (w.addr + beAt x.ext 4 4) pay false) (fun y => if y == w then { w with got := w.got + x.payLen, ended := if w.got + x.payLen ≥ w.len then some (stSuccess, w.len) else none } else y)) n c psn x)
  ∧ (∀ (h : Hap) (s u m : State) (n : Nat) (c : Conn) (p : Pkt) (x : Cth) (psn : Nat) (pay : Bytes) (g : MemRegion) (b : Bytes) (a f : Nat),
    Awake s → DataPassed s 7 h u n c p x psn pay → m = markPsn u n psn p x → beAt x.ext 8 8 % 8 = 0 →
    regionFor u n c (beAt x.ext 0 4) (beAt x.ext 8 8) 8 2 h = some g → instFn u g.inst = (a, f) →
    instOk m g.inst = true → (instReach s g.inst true [(beAt x.ext 8 8, 8)]).1 = true →
    (bit (cfgGet u a f 34) 6 = false → (instFetch s g.inst [(beAt x.ext 8 8, 8)] (.ok b)).1 = true → Does (.wireAtomic (.ok b) h) s fun t => t = afterMark (queueResp (instWrite (instFetch m g.inst [(beAt x.ext 8 8, 8)] (.ok b)).2 g.inst (beAt x.ext 8 8) (leBytes 8 (if byteAt x.ext 4 = 1 then (if leAt b 0 8 = beAt x.ext 16 8 then beAt x.ext 24 8 else leAt b 0 8) else (leAt b 0 8 + beAt x.ext 16 8) % 2 ^ 64)) false) n 8 x.msg (leBytes 8 (leAt b 0 8))) n c psn x) ∧ (bit (cfgGet u a f 34) 6 = true → Does (.wireAtomic (.ok b) h) s fun t => t = afterMark (queueResp (sendTlp m a (.hostAtomic a f (reqAddr m a f (instPasid m g.inst) (beAt x.ext 8 8)) (decide (byteAt x.ext 4 = 1)) (beAt x.ext 16 8) (beAt x.ext 24 8) (instPasid m g.inst))) n 8 x.msg (leBytes 8 (leAt b 0 8))) n c psn x))

/-- Control packets and timers of Carter. Rules R266, R267, R268, R271, R273, R274, R277, R278, R294. Completes (exec
answers a next state, by the effect of its own rule), a clause each: ack, nak, credit, creditRpt, retransmitTimeout,
rnrDelayExpiry, creditRepeat, creditRptRepeat, ackDelayExpiry. What rests on a choice of the model here: log entries
50, 55. -/
def Obligations.CarterControl : Prop :=
  (∀ (s u : State) (n : Nat) (c : Conn) (p : Pkt) (x : Cth) (q : Nat), Awake s →
    ctlHead s 0x10 = (u, some (n, c, p, x, q)) → extend c.nextPsn (beAt x.ext 0 4) ≤ (c.nextPsn : Int) →
    (sackRanges c x.ext).any (fun r => decide (r.2 ≥ (c.nextPsn : Int))) = false →
    bit (byteAt x.ext 24) 4 = false →
    Does .ack s fun t => t = afterAck (connPut u n (takeLimit (ackPsns c (extend c.nextPsn (beAt x.ext 0 4)).toNat (((sackRanges c x.ext).filter (fun r => decide (0 ≤ r.2))).map (fun r => (r.1.toNat, r.2.toNat)))) (beAt x.ext 4 4))) n)
  ∧ (∀ (s u : State) (n : Nat) (c : Conn) (p : Pkt) (x : Cth) (q : Nat), Awake s →
    ctlHead s 0x11 = (u, some (n, c, p, x, q)) → byteAt x.ext 8 = 4 →
    extend c.nextPsn (beAt x.ext 0 4) ≤ (c.nextPsn : Int) →
    Does .nak s fun t => t = connFail (afterAck (carCount (connPut u n (takeLimit (ackPsns c (extend c.nextPsn (beAt x.ext 0 4)).toNat []) (beAt x.ext 4 4))) n 22) n) n csRemoteFault)
  ∧ (∀ (s u : State) (n : Nat) (c : Conn) (p : Pkt) (x : Cth) (q : Nat), Awake s →
    ctlHead s 0x12 = (u, some (n, c, p, x, q)) → bit (byteAt x.ext 4) 0 = false →
    Does .credit s fun t => t = connPut u n { c with limit := later (beAt x.ext 0 4) c.limit, rptFor := none })
  ∧ (∀ (s u : State) (n : Nat) (c : Conn) (p : Pkt) (x : Cth) (q : Nat), Awake s →
    ctlHead s 0x12 = (u, some (n, c, p, x, q)) → bit (byteAt x.ext 4) 0 = true →
    Does .credit s fun t => t = sendRpt (connPut u n { c with limit := later (beAt x.ext 0 4) c.cposSent, rptFor := some (q % 2 ^ 32) }) n (q % 2 ^ 32))
  ∧ (∀ (s u : State) (n : Nat) (c : Conn) (p : Pkt) (x : Cth) (q : Nat) (a l : Nat), Awake s →
    ctlHead s 0x13 = (u, some (n, c, p, x, q)) → c.retract = some (a, l) → a % 2 ^ 32 = beAt x.ext 4 4 →
    Does .creditRpt s fun t => t = connPut u n { c with granted := later l (beAt x.ext 0 4), lastLimit := later l (beAt x.ext 0 4), retract := none })
  ∧ (∀ (n : Fin 16777216) (c : Conn) (s u : State), Awake s → connGet s n.val = some c →
    (c.st = .active ∨ c.st = .draining) → c.recs ≠ [] → u = clockTo s (rtoDue c) →
    Does (.retransmitTimeout n) s fun t => (c.tier ≠ .onDie → t = oweTimer u n.val .rto) ∧ (c.tier = .onDie → c.retryMax ≤ c.expiries + 1 → t = connFail u n.val csTimeout) ∧ (c.tier = .onDie → c.expiries + 1 < c.retryMax → t = connPut u n.val { c with expiries := c.expiries + 1, backoff := if c.rto * 2 ^ c.backoff < c.rtoMax then c.backoff + 1 else c.backoff, recs := c.recs.map (fun r => if r.st == .sent then { r with st := .lost } else r) }))
  ∧ (∀ (n : Fin 16777216) (p : BitVec 32) (c : Conn) (s u : State), Awake s → connGet s n.val = some c →
    u = clockTo s (((c.recs.find? (fun r => r.st == .rnrWait && r.psn % 2 ^ 32 == p.toNat)).map (fun r => r.rnrAt + c.rnrDelay * 10)).getD 0) →
    Does (.rnrDelayExpiry n p) s fun t => (c.tier ≠ .onDie → t = oweTimer u n.val (.rnr p.toNat)) ∧ (c.tier = .onDie → t = connPut u n.val { c with recs := c.recs.map (fun r => if r.st == .rnrWait && r.psn % 2 ^ 32 == p.toNat then { r with st := .lost } else r) }))
  ∧ (∀ (n : Fin 16777216) (c : Conn) (s u : State), Awake s → connGet s n.val = some c →
    (c.st = .active ∨ c.st = .draining) → c.credited = false → u = clockTo s (c.creditAt + c.rtoInit * 10) →
    Does (.creditRepeat n) s fun t => (c.tier ≠ .onDie → t = oweTimer u n.val .credit) ∧ (c.tier = .onDie → t = sendCredit' u n.val))
  ∧ (∀ (n : Fin 16777216) (c : Conn) (q : Nat) (s u : State), Awake s → connGet s n.val = some c →
    (c.st = .active ∨ c.st = .draining) → c.rptFor = some q → u = clockTo s (c.rptAt + c.rto * 10) →
    Does (.creditRptRepeat n) s fun t => (c.tier ≠ .onDie → t = oweTimer u n.val .report) ∧ (c.tier = .onDie → t = sendRpt u n.val q))
  ∧ (∀ (n : Fin 16777216) (c : Conn) (s u : State), Awake s → connGet s n.val = some c →
    (c.st = .active ∨ c.st = .draining) → c.unacked ≠ 0 → u = clockTo s (c.ackFrom + c.ackDelay * 10000) →
    Does (.ackDelayExpiry n) s fun t => (c.tier ≠ .onDie → t = oweTimer u n.val .ack) ∧ (c.tier = .onDie → t = sendAck' u n.val true))

/-- Messages that Carter sends. Rules R253, R264, R279, R283, R286, R294, R320, R321, R323. Completes (exec answers a
next state, by the effect of its own rule), a clause each: dataPacketSend, retransmit, write, writeImm, send,
sendImm, read, atomic, recv. What rests on a choice of the model here: log entries 66, 144. -/
def Obligations.CarterSend : Prop :=
  (∀ (n : Fin 16777216) (b : Bool) (c e : Conn) (g : Seg) (l : List Seg) (s : State), Awake s →
    connGet s n.val = some c → c.segs = g :: l → (c.st = .active ∨ c.st = .draining) → c.tier = .onDie →
    c.recs.any (fun r => r.st == .lost) = false →
    (c.nextPsn < c.una + 2 ^ c.winLog ∧ c.nextPsn < c.una + 2 ^ c.keepLog) →
    carCreditOk c (carCharge (udpLenOf c g.ext g.pay.length)) = true →
    (c.enc = false ∧ c.remote = true ∧ g.op ≠ 6 ∧ g.op ≠ 8) → c.nextPsn < 2 ^ 48 → g.last = false →
    e = { c with nextPsn := c.nextPsn + 1, cposSent := (c.cposSent + carCharge (udpLenOf c g.ext g.pay.length)) % 2 ^ 32, txCount := c.txCount + 1, segs := l, recs := c.recs ++ [{ psn := c.nextPsn, st := .sent, txn := c.txCount + 1, msg := g.msg, op := g.op, flags := cthFlags false g.first g.last false g.ackReq, ext := g.ext, len := g.pay.length, kept := false, rnr := 0, src := g.src, sentAt := s.now }] } →
    Does (.dataPacketSend n b) s fun t => t = carterSend (carCount (connPut s n.val e) n.val 0) n.val e (cthBytes g.op c.epoch (cthFlags false g.first g.last false g.ackReq) c.peer (c.nextPsn % 2 ^ 32) e.cposSent g.msg g.pay.length ++ g.ext ++ g.pay))
  ∧ (∀ (n : Fin 16777216) (d : Bytes) (c e : Conn) (y : SendRec) (s u : State), Awake s → connGet s n.val = some c →
    c.recs.find? (fun r => r.st == .lost) = some y → (c.st = .active ∨ c.st = .draining) → c.tier = .onDie →
    carCreditOk c (carCharge (udpLenOf c y.ext y.len)) = true → y.kept = false →
    instFetch s c.inst [(y.src, y.len)] (.ok d) = (true, u) →
    e = { c with cposSent := (c.cposSent + carCharge (udpLenOf c y.ext y.len)) % 2 ^ 32, txCount := c.txCount + 1, recs := c.recs.map (fun z => if z.psn = y.psn then { z with st := .sent, txn := c.txCount + 1, sentAt := u.now } else z) } →
    Does (.retransmit n (.ok d)) s fun t => t = carterSend (carCount (connPut u n.val e) n.val 1) n.val e (cthBytes y.op c.epoch (Nat.lor y.flags 0x18) c.peer (y.psn % 2 ^ 32) e.cposSent y.msg y.len ++ y.ext ++ slice d 0 y.len))
  ∧ (∀ (r : Fin 262144) (b : Bytes) (k : Nat) (d : Bytes) (c e : Conn) (s u : State), Awake s →
    SendReady s r.val 1 k d c → c.st = .active → c.tier = .onDie → c.evictPending = false → c.long = false →
    e = { c with used := s.now } → descRead (connPut s (dConn d) e) r.val [(dAddr d, dLen d)] (.ok b) = (true, u) →
    Does (.write r (.ok b)) s fun t => t = ringSettle (pushMsg (startWork u r.val k d (dConn d) 1 e.nextMsg 0 (dLen d)) (dConn d) e (msgSegs e 1 (dRkey d) (dRva d) (leAt d 36 4) (dAddr d) (bit (byteAt d 1) 1) (slice b 0 (dLen d)))) r.val)
  ∧ (∀ (r : Fin 262144) (b : Bytes) (k : Nat) (d : Bytes) (c e : Conn) (s u : State), Awake s →
    SendReady s r.val 2 k d c → c.st = .active → c.tier = .onDie → c.evictPending = false → c.long = false →
    e = { c with used := s.now } → descRead (connPut s (dConn d) e) r.val [(dAddr d, dLen d)] (.ok b) = (true, u) →
    Does (.writeImm r (.ok b)) s fun t => t = ringSettle (pushMsg (startWork u r.val k d (dConn d) 2 e.nextMsg 0 (dLen d)) (dConn d) e (msgSegs e 2 (dRkey d) (dRva d) (leAt d 36 4) (dAddr d) (bit (byteAt d 1) 1) (slice b 0 (dLen d)))) r.val)
  ∧ (∀ (r : Fin 262144) (b : Bytes) (k : Nat) (d : Bytes) (c e : Conn) (s u : State), Awake s →
    SendReady s r.val 3 k d c → c.st = .active → c.tier = .onDie → c.evictPending = false → c.long = false →
    e = { c with used := s.now } → descRead (connPut s (dConn d) e) r.val [(dAddr d, dLen d)] (.ok b) = (true, u) →
    Does (.send r (.ok b)) s fun t => t = ringSettle (pushMsg (startWork u r.val k d (dConn d) 3 e.nextMsg 0 (dLen d)) (dConn d) e (msgSegs e 3 (dRkey d) (dRva d) (leAt d 36 4) (dAddr d) (bit (byteAt d 1) 1) (slice b 0 (dLen d)))) r.val)
  ∧ (∀ (r : Fin 262144) (b : Bytes) (k : Nat) (d : Bytes) (c e : Conn) (s u : State), Awake s →
    SendReady s r.val 4 k d c → c.st = .active → c.tier = .onDie → c.evictPending = false → c.long = false →
    e = { c with used := s.now } → descRead (connPut s (dConn d) e) r.val [(dAddr d, dLen d)] (.ok b) = (true, u) →
    Does (.sendImm r (.ok b)) s fun t => t = ringSettle (pushMsg (startWork u r.val k d (dConn d) 4 e.nextMsg 0 (dLen d)) (dConn d) e (msgSegs e 4 (dRkey d) (dRva d) (leAt d 36 4) (dAddr d) (bit (byteAt d 1) 1) (slice b 0 (dLen d)))) r.val)
  ∧ (∀ (r : Fin 262144) (k : Nat) (d : Bytes) (c e : Conn) (s : State), Awake s → SendReady s r.val 5 k d c →
    c.st = .active → c.tier = .onDie → c.evictPending = false → c.long = false → e = { c with used := s.now } →
    Does (.read r) s fun t => t = ringSettle (pushMsg (startWork (connPut s (dConn d) e) r.val k d (dConn d) 5 e.nextMsg (dAddr d) (dLen d)) (dConn d) e [{ op := 5, first := true, last := true, ackReq := bit (byteAt d 1) 1, msg := e.nextMsg, ext := beBytes 4 (dRkey d) ++ beBytes 4 0 ++ beBytes 8 (dRva d) ++ beBytes 4 (dLen d) ++ beBytes 4 0, pay := [] }]) r.val)
  ∧ (∀ (r : Fin 262144) (k : Nat) (d : Bytes) (c e : Conn) (s : State), Awake s → SendReady s r.val 7 k d c →
    c.st = .active → c.tier = .onDie → c.evictPending = false → c.long = false → e = { c with used := s.now } →
    Does (.atomic r) s fun t => t = ringSettle (pushMsg (startWork (connPut s (dConn d) e) r.val k d (dConn d) 7 e.nextMsg (dAddr d) 8) (dConn d) e [{ op := 7, first := true, last := true, ackReq := bit (byteAt d 1) 1, msg := e.nextMsg, ext := beBytes 4 (dRkey d) ++ [byteOf (dArg d), 0, 0, 0] ++ beBytes 8 (dRva d) ++ beBytes 8 (leAt d 48 8) ++ beBytes 8 (if dArg d = 1 then leAt d 56 8 else 0), pay := [] }]) r.val)
  ∧ (∀ (r : Fin 262144) (k : Nat) (d : Bytes) (s u : State), Awake s → headOp s r.val 3 0x20 = some (k, d) →
    dLen d ≤ 2 ^ 31 → s.flag R.CAR_CFG.EN [] = true → u = popDesc s r.val k →
    Does (.recv r) s fun t => t = ringSettle (ringPut u r.val { ringGet u r.val with bufs := (ringGet u r.val).bufs ++ [(k, leAt d 4 4, dAddr d, dLen d)] }) r.val)

/-- Connections, regions and paths of Carter. Rules R299, R300, R301, R316, R317, R319, R322, R330, R333. Completes
(exec answers a next state, by the effect of its own rule), a clause each: connAlloc, connConnect, connDestroy,
connQuery, mrReg, mrDereg, pathWrite, carterEnable. What rests on a choice of the model here: log entries 58, 59,
62, 63. -/
def Obligations.CarterConnections : Prop :=
  (∀ (r : Fin 262144) (k n : Nat) (d : Bytes) (s : State), Awake s → headOp s r.val 2 0x40 = some (k, d) →
    (ringOwner s r.val || !fnLive s (ringFn s r.val).1 (ringFn s r.val).2) = false → descOk d = true →
    s.flag R.CAR_CFG.EN [] = true → dArg d ≠ 7 → freeNumber s (dArg d) = some n → bit (byteAt d 41) 0 = true →
    Does (.connAlloc r) s fun t => connGet t n = some (connNew (ringInst s r.val) (ringDomain s r.val) true s.now))
  ∧ (∀ (r : Fin 262144) (b : Bytes) (k v : Nat) (d : Bytes) (c e : Conn) (s u : State), Awake s →
    SendReady s r.val 0x41 k d c → c.st = .allocated → descRead s r.val [(dAddr d, 128)] (.ok b) = (true, u) →
    paramsOk (slice b 0 128) c.host = true →
    (findRing u false c.inst (leAt (slice b 0 128) 60 2)).bind (fun t => if ringType u t = 3 then some t else none) = some v →
    SMap.find? u.car.epochs (dConn d) = none →
    (bit (byteAt (slice b 0 128) 26) 2 = false ∧ bit (byteAt (slice b 0 128) 26) 4 = false) →
    pathValid (pathOf u (leAt (slice b 0 128) 24 2)) = true →
    leAt (pathOf u (leAt (slice b 0 128) 24 2)) 2 2 % 1024 = c.dom →
    connAreas u (dConn d) (connFrom c (slice b 0 128) v) = some e →
    Does (.connConnect r (.ok b)) s fun t => t = endDesc (connOpen u (dConn d) { e with st := .active, used := u.now }) r.val k d (dConn d) stSuccess)
  ∧ (∀ (r : Fin 262144) (k : Nat) (d : Bytes) (c : Conn) (s : State), Awake s → SendReady s r.val 0x42 k d c →
    c.st = .allocated →
    Does (.connDestroy r) s fun t => t = ringSettle (connFree (startWork s r.val k d (dConn d) 0x42 0 0 0) (dConn d)) r.val)
  ∧ (∀ (r : Fin 262144) (k : Nat) (d : Bytes) (c : Conn) (s : State), Awake s → SendReady s r.val 0x43 k d c →
    c.tier = .onDie →
    Does (.connQuery r) s fun t => t = endDesc (ringWrite s r.val (dAddr d) (connImage (some c))) r.val k d (dConn d) stSuccess)
  ∧ (∀ (r : Fin 262144) (k : Nat) (d : Bytes) (s : State), Awake s → headOp s r.val 2 0x48 = some (k, d) →
    (ringOwner s r.val || !fnLive s (ringFn s r.val).1 (ringFn s r.val).2) = false → descOk d = true →
    s.flag R.CAR_CFG.EN [] = true → bit (dArg d) 3 = false → s.car.fresh < 1048576 →
    Does (.mrReg r) s fun t => (∃ b, SMap.find? t.car.regions s.car.fresh = some { inst := ringInst s r.val, dom := ringDomain s r.val, base := dAddr d, len := dRva d, acc := dArg d, bind := dConn d, img := b } ∧ b.length = 64) ∧ t.car.fresh = s.car.fresh + 1)
  ∧ (∀ (r : Fin 262144) (k : Nat) (d : Bytes) (g : MemRegion) (s : State), Awake s →
    headOp s r.val 2 0x49 = some (k, d) →
    (ringOwner s r.val || !fnLive s (ringFn s r.val).1 (ringFn s r.val).2) = false → descOk d = true →
    s.flag R.CAR_CFG.EN [] = true → SMap.find? s.car.regions (dRkey d / 4096) = some g →
    g.inst = ringInst s r.val → SMap.get 0 s.car.gens (dRkey d / 4096) = dRkey d % 4096 →
    Does (.mrDereg r) s fun t => t = finishDesc { s with car := { s.car with regions := SMap.del s.car.regions (dRkey d / 4096), freed := s.car.freed ++ [dRkey d / 4096] } } r.val k d stSuccess [])
  ∧ (∀ (r : Fin 262144) (b : Bytes) (k : Nat) (d : Bytes) (s u : State), Awake s →
    CtrlOne s r.val 0x40 288 k d b u → recIndex (slice b 0 (ctrlStride 288)) < 16384 →
    pathOk (recObj (slice b 0 (ctrlStride 288)) 256) = true →
    Does (.pathWrite r (.ok b)) s fun t => t = ctrlEnd { u with car := { u.car with paths := SMap.set [] u.car.paths (recIndex (slice b 0 (ctrlStride 288))) (recObj (slice b 0 (ctrlStride 288)) 256) } } r.val k d stSuccess 1)
  ∧ (∀ (s : State), Awake s → s.car.conns = [] → (List.range 4).find? (fun q => anyOverlap (carAreas s q)) = none →
    (List.range 4).find? (fun q => (carAreas s q).any (fun a => a.1 + a.2 > 49152)) = none →
    Does (.carterEnable true) s (fun t => t.flag R.CAR_CFG.EN [] = true) ∧ Does (.carterEnable false) s (fun t => t.flag R.CAR_CFG.EN [] = false))

/-- The on-die cache of connections. Rules R302, R309, R310, R311, R312, R313, R315. Completes (exec answers a next
state, by the effect of its own rule), a clause each: contextFetchComplete, eviction, contextWritebackComplete,
evictPendingExpiry, closingComplete. What rests on a choice of the model here: log entries 57, 60, 62, 144. -/
def Obligations.CarterCache : Prop :=
  (∀ (n : Fin 16777216) (b : Bytes) (c : Conn) (s u : State), Awake s → connGet s n.val = some c →
    c.tier = .fetching → c.closeDue = false → c.host = false →
    (homeAt n.val c).any (fun a => poisonedRange s a.1 a.2) = false →
    u = dropLedger (payOwed (connPut s n.val { homeIn s n.val c with tier := .onDie, used := s.now }) n.val) n.val →
    Does (.contextFetchComplete n (.ok b)) s fun t => t = pumpFetches { (unpark u n.val).1 with win := { (unpark u n.val).1.win with carter := (unpark u n.val).2 ++ (unpark u n.val).1.win.carter } })
  ∧ (∀ (n : Fin 16777216) (x : RdRes) (c : Conn) (s u v : State), Awake s → connGet s n.val = some c →
    c.tier = .fetching → c.closeDue = false → c.host = false → (∀ b, x ≠ .ok b) →
    u = (match homeAt n.val c with | some (a, _) => hbmFail s a | none => s) →
    v = connError ((connPut u n.val { c with tier := .stub }).inc R.CAR_CNT.COUNT [n.val % 4, 14]) n.val csContextFault false flushBind →
    Does (.contextFetchComplete n x) s fun t => t = pumpFetches (dropParked (dropLedger v n.val) n.val))
  ∧ (∀ (q : Fin 4) (n : Nat) (c e : Conn) (s u : State), Awake s → u = pumpFetches s →
    u.car.fetchq.any (fun n => n % 4 == q.val) = true → fetchesOut u q.val < 64 →
    lru ((sliceConns u q.val).filter (fun e => idleConn u e.1 e.2 && creditFits u e.2)) = some (n, c) →
    connGet u n = some e → Does (.eviction q) s fun t => t = evict u n e)
  ∧ (∀ (n : Fin 16777216) (c : Conn) (s u : State), Awake s → connGet s n.val = some c → c.tier = .writing →
    c.closeDue = false → u = connPut s n.val { c with tier := .home } →
    Does (.contextWritebackComplete n true) s (fun t => t = pumpFetches (if u.car.parked.any (fun p => p.conn == n.val) || c.wanted || c.owed ≠ [] then wantContext (connMod u n.val (fun c => { c with wanted := false })) n.val else u)) ∧ Does (.contextWritebackComplete n false) s (fun t => t = connFail (dropLedger ((connPut s n.val { c with tier := .onDie }).inc R.CAR_CNT.COUNT [n.val % 4, 14]) n.val) n.val csContextFault))
  ∧ (∀ (n : Fin 16777216) (c : Conn) (s u v : State), Awake s → connGet s n.val = some c → c.evictPending = true →
    (idleConn s n.val c && creditFits s c) = false → u = clockTo s (c.evictAt + 2 * c.rto * 10) →
    v = (connPut u n.val { c with evictPending := false }).inc R.CAR_CNT.COUNT [n.val % 4, 17] → c.long = false →
    Does (.evictPendingExpiry n) s fun t => t = if v.car.fetchq.any (fun m => m % 4 == n.val % 4) then retractOne v (n.val % 4) (some n.val) else v)
  ∧ (∀ (n : Fin 16777216) (c : Conn) (s : State), Awake s → connGet s n.val = some c → c.st = .closing →
    Does (.closingComplete n) s fun t => t = modWorks { s with car := { s.car with conns := SMap.del s.car.conns n.val } } (fun w => if w.conn == n.val && w.op == 0x42 && w.ended.isNone then { w with ended := some (stSuccess, 0) } else w))

/-- Husk jobs. Rules R340, R343, R345, R350, R373. Completes (exec answers a next state, by the effect of its own rule),
a clause each: jobDispatch, blockCompare, huskJobComplete, keyLoadComplete. What rests on a choice of the model
here: log entries 70, 175. -/
def Obligations.HuskJobs : Prop :=
  (∀ (q : Fin 4) (c : Fin 32) (w : Nat) (m : Bytes) (l : List Bytes) (s : State), Awake s →
    chanMsgs s (0xFF00 + q.val) = m :: l → weightOk s 6 = true → cluTakes s q.val c.val = true →
    Does (.jobDispatch 6 q c w) s fun t => t = waited (jobPlace (chanSet s (0xFF00 + q.val) l) (jobOf m c.val)) 6 w)
  ∧ (∀ (n b : Nat) (u p : Fin 128) (j : HJob) (s : State), Awake s → s.hsk.jobs[n]? = some j →
    j.lanes.any (fun y => y.pair == u.val && y.blk == b) = true → b < dataBlocks j →
    Does (.blockCompare n b u .same) s (fun t => t = loadLanes (hskCount (unlane s n b u.val) 0) j.cluster) ∧ ((freeLanes s j.cluster).contains p.val = true → Does (.blockCompare n b u (.retry p true)) s fun t => t = loadLanes (hskCount (hskCount (pairFail (unlane s n b u.val) (128 * j.cluster + u.val)) 3) 0) j.cluster))
  ∧ (∀ (n : Nat) (j : HJob) (s : State), Awake s → s.hsk.jobs[n]? = some j → j.need = [] → jobRan j = true →
    (s.hsk.jobs.take n).any (fun i => i.req == j.req && i.key == j.key) = false → j.esp = none →
    Does (.huskJobComplete n) s fun t => t = filJobEnd (jobsShow (loadLanes { s with hsk := { s.hsk with jobs := s.hsk.jobs.eraseIdx n } } j.cluster) j.cluster) j)
  ∧ (∀ (c : Fin 32) (n : Fin 1048576) (l : List (Nat × Nat)) (s : State), Awake s → s.flag R.LCK_CFG.EN [] = true →
    (loadsOut s c.val).contains n.val = true → (l = SMap.get [] s.hsk.cache c.val ∧ l.length < 64) →
    Does (.keyLoadComplete c n) s fun t => t = loadLanes ((lckCount { s with hsk := { s.hsk with jobs := s.hsk.jobs.map (fun j => if j.cluster = c.val then { j with need := j.need.filter (· ≠ n.val) } else j), cache := SMap.ins s.hsk.cache c.val ((n.val, (slotGet s n.val).gen) :: l) } } 5).wr R.HSK_CLU_W1.KEYS_CACHED [c.val] (SMap.get [] (SMap.ins s.hsk.cache c.val ((n.val, (slotGet s n.val).gen) :: l)) c.val).length) c.val)

/-- Key commands and the slot store of the Locksmith. Rules R363, R364, R365, R366, R367, R368, R369, R371, R359, R360,
R376, R381. Completes (exec answers a next state, by the effect of its own rule), a clause each: keyImport,
keyGenerate, keyExport, keyDestroy, keyDestroyComplete, keyQuery, lckDomWrite, rangeZeroizeComplete, slotStoreReady,
slotEccError, entropyFail. What rests on a choice of the model here: log entries 68, 69. -/
def Obligations.KeysAndStore : Prop :=
  (∀ (r : Fin 262144) (k : Nat) (d : Bytes) (b m : Bytes) (s : State), Awake s →
    headOp s r.val 4 0x50 = some (k, d) → leAt d 24 4 ≤ 256 →
    blobOk (slice b 0 (leAt d 24 4)) (leAt d 24 4) = true → keyReady s (ringDomain s r.val) = true →
    byteAt (slice b 0 (leAt d 24 4)) 2 = 2 → inRange s (ringDomain s r.val) (descSlot d) = true →
    (slotGet s (descSlot d)).st = 0 →
    (byteAt (slice b 0 (leAt d 24 4)) 1 = 2 → wrapOk s (ringDomain s r.val) (descWrap d) = true) →
    unwrap s (descWrap d) (slice b 0 (leAt d 24 4)) = some m →
    (leAt (slice b 0 (leAt d 24 4)) 4 2 % 1024 = ringDomain s r.val ∧ leAt (slice b 0 (leAt d 24 4)) 24 8 = bindOf s (ringDomain s r.val)) →
    Does (.keyImport r (.ok b)) s fun t => ∃ u, u = lckCount (slotPut s (descSlot d) { slotGet s (descSlot d) with st := 1, ty := 2, attr := byteAt (slice b 0 (leAt d 24 4)) 3 % 2, dom := ringDomain s r.val, origin := byteAt (slice b 0 (leAt d 24 4)) 1 - 1, exports := 0, mat := m, salt := [] }) 0 ∧ t = keyEnd u r.val k d stSuccess 0 (checkValue 2 (m ++ [])))
  ∧ (∀ (r : Fin 262144) (k : Nat) (d : Bytes) (n ty : Nat) (m : Bytes) (s u : State), Awake s →
    headOp s r.val 4 0x51 = some (k, d) → (n = descSlot d ∧ ty = byteAt d 28 ∧ matLen ty ≠ 0) →
    keyReady s (ringDomain s r.val) = true → (ty = 6 → n % 2 = 0) →
    (keySlots ty n).all (fun i => inRange s (ringDomain s r.val) i && (slotGet s i).st == 0) = true →
    s.flag R.LCK_STATUS.DRBG_OK [] = true → drawMat s ty = (m, u) → (ty = 5 → m.take 16 ≠ slice m 16 16) →
    Does (.keyGenerate r) s fun t => t = keyEnd (lckCount (slotFill u n ty (byteAt d 29 % 2) (ringDomain s r.val) 2 m) 1) r.val k d stSuccess 0 (checkValue ty m))
  ∧ (∀ (r : Fin 262144) (k : Nat) (d : Bytes) (x : LckSlot) (w : Nat) (y : Bytes) (s u : State), Awake s →
    headOp s r.val 4 0x52 = some (k, d) → keyReady s (ringDomain s r.val) = true →
    inRange s (ringDomain s r.val) (descSlot d) = true → (x = slotGet s (descSlot d) ∧ w = descWrap d) →
    (x.st = 1 ∧ x.attr % 2 = 1 ∧ (x.ty = 6 → descSlot d % 2 = 0)) → wrapOk s (ringDomain s r.val) w = true →
    48 + matLen x.ty ≤ leAt d 24 4 → (slotGet s w).exports < 2 ^ 32 → s.freeBytes 12 = (y, u) →
    Does (.keyExport r) s fun t => t = keyEnd (lckCount (ringWrite (slotPut u w { slotGet u w with exports := (slotGet u w).exports + 1 }) r.val (leAt d 16 8) (exportBlob x (slotMat u (descSlot d)) (slotGet u w).mat y (bindOf u (ringDomain s r.val)))) 2) r.val k d stSuccess (exportBlob x (slotMat u (descSlot d)) (slotGet u w).mat y (bindOf u (ringDomain s r.val))).length [])
  ∧ (∀ (r : Fin 262144) (k : Nat) (d : Bytes) (x : LckSlot) (s u : State), Awake s →
    headOp s r.val 4 0x53 = some (k, d) → keyReady s (ringDomain s r.val) = true →
    inRange s (ringDomain s r.val) (descSlot d) = true → x = slotGet s (descSlot d) →
    (x.st ≠ 0 ∧ (x.ty = 6 → descSlot d % 2 = 0)) →
    u = popDesc ((keySlots x.ty (descSlot d)).foldl (fun s i => purge (slotZero s i) i) s) r.val k →
    Does (.keyDestroy r) s fun t => t = lckCount (ringSettle (putLck u { u.lck with destroys := u.lck.destroys ++ [{ ring := r.val, desc := d, slots := keySlots x.ty (descSlot d) }] }) r.val) 3)
  ∧ (∀ (x : Destroy) (s : State), Awake s →
    s.lck.destroys.find? (fun x => x.slots.all (fun n => !slotHeld s n)) = some x → x.ring < 262144 →
    Does .keyDestroyComplete s fun t => t = cplPost { s with lck := { s.lck with destroys := s.lck.destroys.erase x } } x.ring (cplBody (leAt x.desc 4 4) stSuccess 0x53 []))
  ∧ (∀ (r : Fin 262144) (k : Nat) (d : Bytes) (s : State), Awake s → headOp s r.val 4 0x54 = some (k, d) →
    keyReady s (ringDomain s r.val) = true → inRange s (ringDomain s r.val) (descSlot d) = true →
    Does (.keyQuery r) s fun t => t = keyEnd (ringWrite s r.val (leAt d 16 8) (slotImage s (ringDomain s r.val) (descSlot d))) r.val k d stSuccess 32 [])
  ∧ (∀ (d : Fin 1024) (b : BitVec 20) (c : BitVec 21) (s : State), Awake s →
    s.flag R.LCK_DOM_W1.BUSY [d.val] = false → b.toNat + c.toNat ≤ 1048576 →
    (s.lck.range ++ s.lck.pend).all (fun e => e.1 == d.val || decide (b.toNat + c.toNat ≤ e.2.1) || decide (e.2.1 + e.2.2 ≤ b.toNat)) = true →
    SMap.get (0, 0) s.lck.range d.val = (0, 0) →
    Does (.lckDomWrite d b c) s fun t => t.rd R.LCK_DOM_W0.BASE [d.val] = b.toNat ∧ t.rd R.LCK_DOM_W1.COUNT [d.val] = c.toNat ∧ SMap.get (0, 0) t.lck.range d.val = (b.toNat, c.toNat))
  ∧ (∀ (d : Fin 1024) (s : State), Awake s → s.flag R.LCK_DOM_W1.BUSY [d.val] = false →
    (SMap.get (0, 0) s.lck.range d.val).2 ≠ 0 →
    Does (.lckDomWrite d 0 0) s fun t => t.flag R.LCK_DOM_W1.BUSY [d.val] = true ∧ SMap.find? t.lck.pend d.val = some (0, 0))
  ∧ (∀ (d : Fin 1024) (b c : Nat) (s : State), Awake s → SMap.find? s.lck.pend d.val = some (b, c) →
    s.hsk.jobs = [] →
    Does (.rangeZeroizeComplete d) s fun t => t.flag R.LCK_DOM_W1.BUSY [d.val] = false ∧ SMap.get (0, 0) t.lck.range d.val = (b, c) ∧ SMap.find? t.lck.pend d.val = none)
  ∧ (∀ (s : State), Awake s → s.flag R.LCK_STATUS.READY [] = false → s.rev.drbgDead = false →
    Does .slotStoreReady s fun t => t.flag R.LCK_STATUS.READY [] = true ∧ t.flag R.LCK_STATUS.DRBG_OK [] = true ∧ ∀ q < 4, (SMap.find? t.lck.intKey q).isSome = true)
  ∧ (∀ (n : Fin 1048576) (s : State), Awake s →
    Does (.slotEccError n true) s (fun t => t = lckCount s 7) ∧ Does (.slotEccError n false) s fun t => t = (countFailure (lckCount (purge (slotPut s n.val { slotGet s n.val with st := 2 }) n.val) 8) 8 0 0 []).1)
  ∧ (∀ (b : Bool) (s u : State) (x : Bool), Awake s →
    countFailure (s.wr R.LCK_STATUS.ENTROPY_FAIL [] 1) 10 0 0 [] = (u, x) →
    Does (.entropyFail b) s fun t => t.flag R.LCK_STATUS.DRBG_OK [] = (b && !x && !u.rev.drbgDead && u.flag R.LCK_STATUS.READY []))

/-- The slot machine of a root port. Rules R387, R388, R393. Completes (exec answers a next state, by the effect of its
own rule), a clause each: rootPortEnable, presenceChange, powerFault, buttonPress, removalWindowExpiry,
pwrWaitExpiry, perstReleaseDelay, linkActive, trainingTimeout, enumerationDelay, driveInitComplete, quiesceComplete,
slotControlWrite, remove, rootPortLinkDown. What rests on a choice of the model here: log entries 71, 6. -/
def Obligations.RootPorts : Prop :=
  (∀ (n : Fin 16) (s u : State), Awake s → s.flag R.STG_RP_CTL.EN [n.val] = false →
    u = s.wr R.STG_RP_CTL.EN [n.val] 1 →
    Does (.rootPortEnable n true) s fun t => t = if u.flag R.STG_RP_CTL.AUTO_ON [n.val] then rpPowerOn u n.val else u)
  ∧ (∀ (n : Fin 16) (s u : State), Awake s → s.flag R.STG_RP_CTL.EN [n.val] = true →
    u = s.wr R.STG_RP_CTL.EN [n.val] 0 → (rpSt u n.val ≠ rsOff ∧ rpSt u n.val ≠ rsRetired) →
    Does (.rootPortEnable n false) s fun t => t = rpLeave (rpOff u n.val) n.val)
  ∧ (∀ (n : Fin 16) (s u : State), Awake s → (rpGet s n.val).present = false → rpSt s n.val = rsOff →
    u = rpCount (rpMod s n.val (fun p => { p with present := true })) n.val 10 →
    Does (.presenceChange n true) s fun t => t = if u.flag R.STG_RP_CTL.AUTO_ON [n.val] then rpPowerOn u n.val else u)
  ∧ (∀ (n : Fin 16) (s u : State), Awake s → (rpGet s n.val).present = true →
    (rpSt s n.val ≠ rsOff ∧ rpSt s n.val ≠ rsFaulted) →
    u = rpCount (rpMod s n.val (fun p => { p with present := false })) n.val 10 →
    Does (.presenceChange n false) s fun t => t = rpSurprise (rpEvt (rpCfgBit u n.val 30 19 true) n.val 0) n.val)
  ∧ (∀ (n : Fin 16) (s : State), Awake s →
    (rpSt s n.val ≠ rsOff ∧ rpSt s n.val ≠ rsFaulted ∧ rpSt s n.val ≠ rsRetired) →
    Does (.powerFault n) s fun t => t = rpFault (rpEvt (rpCfgBit (attnLed (rpPerst (rpCount s n.val 11) n.val false) n.val 1) n.val 30 17 true) n.val 1) n.val)
  ∧ (∀ (n : Fin 16) (s u : State), Awake s → rpSt s n.val = rsOnline →
    u = rpEvt (rpCfgBit s n.val 30 16 true) n.val 3 → rpSt u n.val = rsOnline →
    Does (.buttonPress n) s fun t => t = rpMod u n.val (fun p => { p with armed := !p.armed, pressAt := u.now }))
  ∧ (∀ (n : Fin 16) (s : State), Awake s → (rpGet s n.val).armed = true →
    Does (.removalWindowExpiry n) s fun t => t = rpQuiesce (clockTo s ((rpGet s n.val).pressAt + 50000000000)) n.val)
  ∧ (∀ (n : Fin 16) (s : State), Awake s → rpSt s n.val = rsPowering →
    Does (.pwrWaitExpiry n) s fun t => t = rpGo (rpClk (clockTo s ((rpGet s n.val).since + max 1 (s.rd R.STG_RP_CTL.PWR_WAIT [n.val]) * 100000000)) n.val (some true)) n.val rsTraining)
  ∧ (∀ (n : Fin 16) (s u : State), Awake s → rpSt s n.val = rsTraining → (rpGet s n.val).refclk = some true →
    u = clockTo s ((rpGet s n.val).since + 1000000000) → (rpGet u n.val).perstOff = false →
    Does (.perstReleaseDelay n) s fun t => t = (rpMod u n.val (fun p => { p with perstOff := true })).emit (.pin (.srpPerstN n.val) true))
  ∧ (∀ (n : Fin 16) (v w : Fin 8) (s : State), Awake s → rpSt s n.val = rsTraining →
    (rpGet s n.val).perstOff = true → (1 ≤ v.val ∧ v.val ≤ 5) → (w.val = 1 ∨ w.val = 2 ∨ w.val = 4) →
    Does (.linkActive n v w) s fun t => t = rpEvt (rpCfgBit (rpGo ((s.wr R.STG_RP_STATUS.SPEED [n.val] v.val).wr R.STG_RP_STATUS.WIDTH [n.val] w.val) n.val rsInit) n.val 30 24 true) n.val 2)
  ∧ (∀ (n : Fin 16) (s : State), Awake s → rpSt s n.val = rsTraining →
    Does (.trainingTimeout n) s fun t => t = rpFault (clockTo s ((rpGet s n.val).since + 10000000000)) n.val)
  ∧ (∀ (n : Fin 16) (v : Fin 65536) (s u : State), Awake s → rpSt s n.val = rsInit →
    u = clockTo s ((rpGet s n.val).since + 1000000000) →
    Does (.enumerationDelay n v) s fun t => t.rd R.STG_RP_DRV.VID [n.val] = v.val ∧ t.out = u.out ++ [.driveCtl n.val 0 0] ∧ t.stg = u.stg)
  ∧ (∀ (n : Fin 16) (b z : Nat) (s u : State), Awake s → rpSt s n.val = rsInit → z ≠ 0 →
    u = (rpMod s n.val (fun p => { p with drv := [(1, { lba := b, size := z })], aborted := [] })).wr R.STG_RP_DRV.NSCOUNT [n.val] 1 →
    Does (.driveInitComplete n (.ok [(b, z)])) s (fun t => t = rpGo (pwrLed u n.val 1) n.val rsOnline) ∧ Does (.driveInitComplete n .failed) s fun t => t = rpFault (rpEvt s n.val 5) n.val)
  ∧ (∀ (n : Fin 16) (s : State), Awake s → rpSt s n.val = rsQuiescing → rpOutstanding s n.val = 0 →
    Does (.quiesceComplete n) s fun t => t = rpOff s n.val)
  ∧ (∀ (n : Fin 16) (v : Fin 65536) (w : Nat) (s : State), Awake s →
    w = ((rpCfgGet s n.val 30 &&& 0xFFFFE800) ||| (v.val &&& 0x17FF)) % 2 ^ 32 →
    Does (.slotControlWrite n v) s fun t => t = rpPcc (ledShow (ledShow (rpCfgPut s n.val 30 w) (.srpAledN n.val) (bits w 6 2)) (.srpPledN n.val) (bits w 8 2)) n.val (bit w 10))
  ∧ (∀ (n : Fin 16) (s u : State), Awake s → rpSt s n.val = rsOnline →
    u = portLost (rpGo (pwrLed (rpMod s n.val (fun p => { p with armed := false })) n.val 2) n.val rsQuiescing) n.val →
    Does (.remove n) s fun t => t = rpShutdown (modLegs u (fun o => if o.port = some n.val && o.st == .wait then { o with st := .ended .lost } else o)) n.val)
  ∧ (∀ (n : Fin 16) (s : State), Awake s →
    (rpSt s n.val = rsTraining ∨ rpSt s n.val = rsInit ∨ rpSt s n.val = rsOnline) →
    Does (.rootPortLinkDown n) s fun t => t = rpSurpriseEnd (rpLeave (rpGo (rpLinkDown (rpClk (rpMod s n.val (fun p => { p with armed := false })) n.val (some false)) n.val (rpSt s n.val)) n.val rsSurprise) n.val) n.val)

/-- Drive commands and the tables of the storage path. Rules R384, R390, R391, R392, R394, R398, R399, R400, R402, R413.
Completes (exec answers a next state, by the effect of its own rule), a clause each: driveCompletion,
driveCmdTimeout, abortTimeout, dpcTrigger, dpcRelease, aerError, driveInboundRequest, nsWrite, extWrite, nsRead,
stgEnable. What rests on a choice of the model here: log entries 76. -/
def Obligations.DrivesAndTables : Prop :=
  (∀ (n : Fin 16) (c : Fin 65536) (s : State), Awake s → (outOps s n.val).any (fun o => o.tag == c.val) = true →
    Does (.driveCompletion n c 0 0) s fun t => t = rpShutdown (pumpPort (modLegs s (fun o => if o.port == some n.val && o.st == .out && o.tag == c.val then { o with st := .ended (.drive 0 0) } else o)) n.val 1024) n.val)
  ∧ (∀ (n : Fin 16) (c : Fin 65536) (s u : State), Awake s → (outOps s n.val).any (fun o => o.tag == c.val) = true →
    u = rpCount (rpCount (rpMod (modLegs (clockTo s (cmdDue s n.val c.val)) (fun o => if o.port == some n.val && o.st == .out && o.tag == c.val then { o with st := .ended .lost } else o)) n.val (fun p => { p with aborted := p.aborted ++ [c.val] })) n.val 2) n.val 3 →
    Does (.driveCmdTimeout n c) s fun t => t = rpShutdown (portFail (rpEvt (u.emit (.driveCtl n.val 1 c.val)) n.val 6) n.val) n.val)
  ∧ (∀ (n : Fin 16) (c : Fin 65536) (s : State), Awake s → rpSt s n.val = rsOnline →
    (rpGet s n.val).aborted.contains c.val = true →
    Does (.abortTimeout n c) s fun t => t = rpLeave (rpGo (rpMod ((rpCount s n.val 4).emit (.driveCtl n.val 3 0)) n.val (fun p => { p with armed := false })) n.val rsInit) n.val)
  ∧ (∀ (n : Fin 16) (c : DpcCause) (s u : State), Awake s → dpcEnabled s n.val c = true →
    s.flag R.STG_RP_STATUS.DPC [n.val] = false → rpSt s n.val = rsOnline →
    u = rpCount (s.wr R.STG_RP_STATUS.DPC [n.val] 1) n.val 8 →
    Does (.dpcTrigger n c) s fun t => t = rpSurprise (rpEvt (rpCfgPut u n.val 84 (setBits (rpCfgGet u n.val 84) 1 2 (match c with | .surpriseDown => 0 | .errNonfatal => 1 | .errFatal => 2 | .rpPio => 3))) n.val 4) n.val)
  ∧ (∀ (n : Fin 16) (s : State), Awake s → s.flag R.STG_RP_STATUS.DPC [n.val] = true → rpSt s n.val = rsSurprise →
    rpOutstanding s n.val = 0 →
    Does (.dpcRelease n) s fun t => t = rpSurpriseEnd (s.wr R.STG_RP_STATUS.DPC [n.val] 0) n.val)
  ∧ (∀ (n : Fin 16) (b : Fin 32) (s : State), Awake s →
    Does (.aerError n .cor b none) s (fun t => t = rpAer s n.val b.val true) ∧ Does (.aerError n .nonfatal b none) s (fun t => t = rpAer s n.val b.val false) ∧ Does (.aerError n .fatal b none) s fun t => t = if dpcEnabled (rpAer s n.val b.val false) n.val .errFatal then rpDpc (rpAer s n.val b.val false) n.val 2 else rpSurprise (rpAer s n.val b.val false) n.val)
  ∧ (∀ (n : Fin 16) (a l : Nat) (d : Bytes) (s : State), Awake s → s.flag R.STG_RP_STATUS.DPC [n.val] = false →
    (rpSt s n.val = rsInit ∨ rpSt s n.val = rsOnline ∨ rpSt s n.val = rsQuiescing) → inStage s a d.length = true →
    inStage s a l = true →
    Does (.driveInboundRequest n a (.write d false)) s (fun t => t = stageWrite s (a - 0x8000000000) d) ∧ Does (.driveInboundRequest n a (.read l)) s fun t => t = s.emit (.driveCpl n.val 0 (s.hbmRead (a - 0x8000000000) l)))
  ∧ (∀ (r : Fin 262144) (b : Bytes) (k : Nat) (d : Bytes) (s u : State), Awake s → CtrlOne s r.val 0x60 96 k d b u →
    recIndex (slice b 0 (ctrlStride 96)) < 65536 →
    (nsValid (recObj (slice b 0 (ctrlStride 96)) 64) = true → nsBad u (recObj (slice b 0 (ctrlStride 96)) 64) = false) →
    (nsValid (recObj (slice b 0 (ctrlStride 96)) 64) = true → u.stg.ns.any (fun x => x.1 ≠ recIndex (slice b 0 (ctrlStride 96)) && nsValid x.2 && nsCtl x.2 == nsCtl (recObj (slice b 0 (ctrlStride 96)) 64) && nsId x.2 == nsId (recObj (slice b 0 (ctrlStride 96)) 64)) = false) →
    Does (.nsWrite r (.ok b)) s fun t => t = ctrlEnd (nsApply u (recIndex (slice b 0 (ctrlStride 96))) (recObj (slice b 0 (ctrlStride 96)) 64)) r.val k d stSuccess 1)
  ∧ (∀ (r : Fin 262144) (b : Bytes) (k : Nat) (d : Bytes) (s u : State), Awake s → CtrlOne s r.val 0x61 96 k d b u →
    recIndex (slice b 0 (ctrlStride 96)) < 262144 → extBad (recObj (slice b 0 (ctrlStride 96)) 64) = false →
    (nsUsing u (recIndex (slice b 0 (ctrlStride 96))) ≠ [] → extStart (extGet u (recIndex (slice b 0 (ctrlStride 96)))) = extStart (recObj (slice b 0 (ctrlStride 96)) 64) ∧ extCount (extGet u (recIndex (slice b 0 (ctrlStride 96)))) = extCount (recObj (slice b 0 (ctrlStride 96)) 64)) →
    Does (.extWrite r (.ok b)) s fun t => t = ctrlEnd (extApply u (recIndex (slice b 0 (ctrlStride 96))) (recObj (slice b 0 (ctrlStride 96)) 64)) r.val k d stSuccess 1)
  ∧ (∀ (r : Fin 262144) (b : Bytes) (k : Nat) (d : Bytes) (s u : State) (c : Bytes), Awake s →
    CtrlOne s r.val 0x62 32 k d b u → recIndex (slice b 0 (ctrlStride 32)) < 65536 →
    nsReadRec u (slice b 0 (ctrlStride 32)) = .ok u (some (8, c)) →
    Does (.nsRead r (.ok b)) s fun t => t = ctrlEnd (ringWrite u r.val (ctrlAddr d + 8) c) r.val k d stSuccess 1 ∧ c.take 1 = [byteOf (nsState u (nsGet u (recIndex (slice b 0 (ctrlStride 32)))))])
  ∧ (∀ (s : State), Awake s →
    (List.range 4).any (fun q => (carAreas s q).any (fun a => overlaps a.1 a.2 (s.rd R.STG_STAGE.BASE [q]) (s.rd R.STG_STAGE.SIZE [q]))) = false →
    (List.range 4).any (fun q => s.rd R.STG_STAGE.BASE [q] + s.rd R.STG_STAGE.SIZE [q] > 49152) = false →
    Does (.stgEnable true) s (fun t => t = s.wr R.STG_CFG.EN [] 1) ∧ Does (.stgEnable false) s fun t => t = s.wr R.STG_CFG.EN [] 0)

/-- Admin commands of the emulated controllers. Rules R395, R396, R397, R405, R406. Completes (exec answers a next
state, by the effect of its own rule), a clause each: createIoSq, deleteIoSq, createIoCq, deleteIoCq, getLogPage,
identify, abort, setFeatures, getFeatures, asynchronousEventRequest. What rests on a choice of the model here: log
entries 17, 77. -/
def Obligations.NvmeAdmin : Prop :=
  (∀ (k : Fin 16392) (b : Bytes) (y : NvSq) (s u : State) (c : Ctrl) (n : Nat), Awake s →
    NvFront s k.val 0 1 b y u → (c = ctlGet u k.val ∧ n = sqeDw b 10 % 65536) →
    (0 < n ∧ n ≤ grantedSq c ∧ SMap.find? c.sqs n = none) → (0 < sqeDw b 10 / 65536 ∧ sqeDw b 10 / 65536 ≤ 4095) →
    bit (sqeDw b 11) 0 = true → (sqeDw b 11 / 65536 ≠ 0 ∧ (SMap.find? c.cqs (sqeDw b 11 / 65536)).isSome = true) →
    sqePrp1 b % 4096 = 0 →
    Does (.createIoSq k (.ok b)) s fun t => t = sweepAll (nvDone (ctlPut u k.val { c with sqs := SMap.ins c.sqs n { addr := sqePrp1 b, size := sqeDw b 10 / 65536 + 1, head := 0, tail := 0, cq := sqeDw b 11 / 65536 } }) k.val 0 b nsOk 0))
  ∧ (∀ (k : Fin 16392) (b : Bytes) (y : NvSq) (s u : State) (n : Nat), Awake s → NvFront s k.val 0 0 b y u →
    n = sqeDw b 10 % 65536 → (n ≠ 0 ∧ (SMap.find? (ctlGet u k.val).sqs n).isSome = true) →
    Does (.deleteIoSq k (.ok b)) s fun t => t = sweepAll (nvDone (ctlMod (abortQueue u k.val n) k.val (fun c => { c with sqs := SMap.del c.sqs n })) k.val 0 b nsOk 0))
  ∧ (∀ (k : Fin 16392) (b : Bytes) (y : NvSq) (s u : State) (c : Ctrl) (n : Nat), Awake s →
    NvFront s k.val 0 5 b y u → (c = ctlGet u k.val ∧ n = sqeDw b 10 % 65536) →
    (0 < n ∧ n ≤ grantedCq c ∧ SMap.find? c.cqs n = none) → (0 < sqeDw b 10 / 65536 ∧ sqeDw b 10 / 65536 ≤ 4095) →
    bit (sqeDw b 11) 0 = true → sqeDw b 11 / 65536 ≤ 64 → sqePrp1 b % 4096 = 0 →
    Does (.createIoCq k (.ok b)) s fun t => t = sweepAll (nvDone (ctlPut u k.val { c with cqs := SMap.ins c.cqs n { addr := sqePrp1 b, size := sqeDw b 10 / 65536 + 1, head := 0, tail := 0, phase := true, iv := sqeDw b 11 / 65536, ien := bit (sqeDw b 11) 1, held := 0, wait := [] } }) k.val 0 b nsOk 0))
  ∧ (∀ (k : Fin 16392) (b : Bytes) (y : NvSq) (s u : State) (n : Nat), Awake s → NvFront s k.val 0 4 b y u →
    n = sqeDw b 10 % 65536 → (n ≠ 0 ∧ (SMap.find? (ctlGet u k.val).cqs n).isSome = true) →
    (ctlGet u k.val).sqs.any (fun x => x.2.cq == n) = false →
    Does (.deleteIoCq k (.ok b)) s fun t => t = sweepAll (nvDone (ctlMod u k.val (fun c => { c with cqs := SMap.del c.cqs n })) k.val 0 b nsOk 0))
  ∧ (∀ (k : Fin 16392) (b : Bytes) (y : NvSq) (s r u : State) (x : RdRes) (v : State) (d : Bytes) (p : List (Nat × Nat)),
    Awake s →
    dataReach s k.val 0 (.ok b) x (fun b => match getLog s k.val b with | .ok (_, d) => d.length | .error _ => 0) true = (true, r) →
    NvFront r k.val 0 2 b y u → getLog u k.val b = .ok (v, d) → prpOf b d.length x = .ok p →
    Does (.getLogPage k (.ok b) x .done) s fun t => t = nvDone (scatter (dataTake v k.val b d.length x none) k.val p 0 d false) k.val 0 b nsOk 0)
  ∧ (∀ (k : Fin 16392) (b : Bytes) (y : NvSq) (s r u : State) (v : State) (d : Bytes) (p : List (Nat × Nat)),
    Awake s →
    dataReach s k.val 0 (.ok b) .ur (fun b => match identify s k.val b with | .ok (_, d) => d.length | .error _ => 0) true = (true, r) →
    NvFront r k.val 0 6 b y u → identify u k.val b = .ok (v, d) → prpOf b d.length .ur = .ok p →
    Does (.identify k (.ok b) .done) s fun t => t = nvDone (scatter (dataTake v k.val b d.length .ur none) k.val p 0 d false) k.val 0 b nsOk 0)
  ∧ (∀ (k : Fin 16392) (b : Bytes) (y : NvSq) (s u : State) (c : HCmd) (v : State), Awake s →
    NvFront s k.val 0 8 b y u →
    u.stg.cmds.find? (fun c => c.ctrl == k.val && c.sq == some (sqeDw b 10 % 65536, sqeDw b 10 / 65536) && !c.posted && !c.discard) = some c →
    v = cmdPost u c nsAborted →
    Does (.abort k (.ok b)) s fun t => t = sweepAll (nvDone { v with stg := { v.stg with cmds := v.stg.cmds.map (fun x => if x.id = c.id then { x with discard := true } else x) } } k.val 0 b nsOk 0))
  ∧ (∀ (k : Fin 16392) (b : Bytes) (y : NvSq) (s u : State) (v : State) (r : Nat), Awake s →
    NvFront s k.val 0 9 b y u → features.contains (sqeDw b 10 % 256) = true → setFeature u k.val b = (v, nsOk, r) →
    Does (.setFeatures k (.ok b)) s fun t => t = nvDone v k.val 0 b nsOk r ∧ (sqeDw b 10 % 256 = 8 → v = ctlPut u k.val (featPut (ctlGet u k.val) 8 (sqeDw b 11 % 65536))))
  ∧ (∀ (k : Fin 16392) (b : Bytes) (y : NvSq) (s u : State), Awake s → NvFront s k.val 0 10 b y u →
    (getFeature u k.val b).1 = nsOk →
    Does (.getFeatures k (.ok b)) s fun t => t = nvDone u k.val 0 b nsOk (getFeature u k.val b).2)
  ∧ (∀ (k : Fin 16392) (b : Bytes) (y : NvSq) (s u : State), Awake s → NvFront s k.val 0 12 b y u →
    (ctlGet u k.val).aers.length < 4 →
    Does (.asynchronousEventRequest k (.ok b)) s fun t => t = eventPump (ctlMod u k.val (fun c => { c with aers := c.aers ++ [sqeCid b] })) k.val)

/-- I/O commands and queues of the emulated controllers. Rules R395, R396, R402, R403, R404, R407. Completes (exec
answers a next state, by the effect of its own rule), a clause each: sqDoorbell, cqDoorbell, nvmWrite, nvmRead,
writeZeroes, datasetManagement, nvmFlush, ccWrite, legComplete, interruptCoalescingExpiry. What rests on a choice of
the model here: log entries 12, 17, 75, 76, 176. -/
def Obligations.NvmeCommands : Prop :=
  (∀ (k : Fin 16392) (q : Fin 65) (v : Fin 65536) (y : NvSq) (s : State), Awake s → ctlExists s k.val = true →
    SMap.find? (ctlGet s k.val).sqs q.val = some y → (ctlGet s k.val).rdy = true → v.val < y.size →
    Does (.sqDoorbell k q v) s fun t => t = ctlMod s k.val (fun c => { c with sqs := SMap.ins c.sqs q.val { y with tail := v.val } }))
  ∧ (∀ (k : Fin 16392) (q : Fin 65) (v : Fin 65536) (y : NvCq) (s : State), Awake s → ctlExists s k.val = true →
    SMap.find? (ctlGet s k.val).cqs q.val = some y → (ctlGet s k.val).rdy = true → v.val < y.size →
    Does (.cqDoorbell k q v) s fun t => t = cqPump (ctlMod s k.val (fun c => { c with cqs := SMap.ins c.cqs q.val { y with head := v.val } })) k.val q.val (y.wait.length + 1))
  ∧ (∀ (k : Fin 16392) (q : Fin 65) (i : Nat) (e b : Bytes) (y : NvSq) (s r u : State) (l : RdRes) (d : Bytes) (p : List (Nat × Nat)) (x : NvHap) (n a : Nat),
    Awake s → q.val ≠ 0 → nsFind s k.val (sqeNs b) = some (i, e) → n = sqeNlb b * nsLba e →
    (stageFit s k.val n).isSome = true → dataReach s k.val q.val (.ok b) l (ioLen s k.val) false = (true, r) →
    (nsEnc e = true → huskAble r 5 = true) → NvFront r k.val q.val 1 b y u →
    nsFind u k.val (sqeNs b) = some (i, e) → nsFind r k.val (sqeNs b) = some (i, e) →
    (sqeSlba b + sqeNlb b ≤ nsSize e ∧ n ≤ mdts ∧ bits (sqeDw b 12) 26 4 = 0 ∧ nsRo e = false) →
    prpOf b n l = .ok p → stageFit (dataTake u k.val b n l (some (.ok d))) k.val n = some a →
    Does (.nvmWrite k q (.ok b, l) (.ok d) x) s fun t => t = runWrite (countWrite (dataTake u k.val b n l (some (.ok d))) k.val (n / 512)) k.val q.val b i e a (slice d 0 n) x 1)
  ∧ (∀ (k : Fin 16392) (q : Fin 65) (i : Nat) (e b : Bytes) (y : NvSq) (s r u : State) (l : RdRes) (p : List (Nat × Nat)) (x : NvHap) (n a : Nat),
    Awake s → q.val ≠ 0 → nsFind s k.val (sqeNs b) = some (i, e) → n = sqeNlb b * nsLba e →
    (stageFit s k.val n).isSome = true → dataReach s k.val q.val (.ok b) l (ioLen s k.val) true = (true, r) →
    NvFront r k.val q.val 2 b y u → nsFind u k.val (sqeNs b) = some (i, e) →
    (sqeSlba b + sqeNlb b ≤ nsSize e ∧ n ≤ mdts ∧ bits (sqeDw b 12) 26 4 = 0) → prpOf b n l = .ok p →
    stageFit u k.val n = some a →
    Does (.nvmRead k q (.ok b) l x) s fun t => t = runRead (countRead (dataTake u k.val b n l none) k.val (n / 512)) k.val q.val b i e a p x)
  ∧ (∀ (k : Fin 16392) (q : Fin 65) (i : Nat) (e b : Bytes) (y : NvSq) (s u : State) (x : NvHap), Awake s →
    q.val ≠ 0 → nsFind s k.val (sqeNs b) = some (i, e) → NvFront s k.val q.val 8 b y u →
    nsFind u k.val (sqeNs b) = some (i, e) →
    (sqeSlba b + sqeNlb b ≤ nsSize e ∧ bits (sqeDw b 12) 26 4 = 0 ∧ nsRo e = false) → nsEnc e = false →
    Does (.writeZeroes k q (.ok b) x) s fun t => ∃ c v, cmdNew (countWrite u k.val 0) { cmdInit k.val (some (q.val, sqeCid b)) 8 i e (countWrite u k.val 0) with slba := sqeSlba b, blocks := sqeNlb b } = (c, v) ∧ t = startWrites v c (bit (sqeDw b 12) 30))
  ∧ (∀ (k : Fin 16392) (q : Fin 65) (i : Nat) (e b : Bytes) (y : NvSq) (s u : State) (x : NvHap) (n a : Nat),
    Awake s → q.val ≠ 0 → nsFind s k.val (sqeNs b) = some (i, e) → n = sqeNlb b * nsLba e →
    (stageFit s k.val n).isSome = true → nsEnc e = true → huskAble s 5 = true → NvFront s k.val q.val 8 b y u →
    nsFind u k.val (sqeNs b) = some (i, e) →
    (sqeSlba b + sqeNlb b ≤ nsSize e ∧ bits (sqeDw b 12) 26 4 = 0 ∧ nsRo e = false) →
    stageFit (countWrite u k.val 0) k.val n = some a →
    Does (.writeZeroes k q (.ok b) x) s fun t => t = runWrite (countWrite u k.val 0) k.val q.val b i e a (List.replicate n 0) x 1)
  ∧ (∀ (k : Fin 16392) (q : Fin 65) (i : Nat) (e b : Bytes) (y : NvSq) (s r u : State) (d : Bytes), Awake s →
    q.val ≠ 0 → dataReach s k.val q.val (.ok b) .ur (fun b => 16 * (sqeDw b 10 % 256 + 1)) false = (true, r) →
    NvFront r k.val q.val 9 b y u → nsFind u k.val (sqeNs b) = some (i, e) → nsRo e = false →
    bit (sqeDw b 11) 2 = true → (dsmRanges b d).any (fun r => r.1 + r.2 > nsSize e) = false →
    Does (.datasetManagement k q (.ok b) (.ok d)) s fun t => t = runDsm (dataTake u k.val b (16 * (sqeDw b 10 % 256 + 1)) .xlate (some (.ok d))) k.val q.val b i e (dsmRanges b d))
  ∧ (∀ (k : Fin 16392) (q : Fin 65) (i : Nat) (e b : Bytes) (y : NvSq) (s u : State), Awake s → q.val ≠ 0 →
    NvFront s k.val q.val 0 b y u → nsFind u k.val (sqeNs b) = some (i, e) →
    Does (.nvmFlush k q (.ok b)) s fun t => t = sweepAll (startFlush u k.val (some (q.val, sqeCid b)) i e))
  ∧ (∀ (k : Fin 16392) (v : Fin 4294967296) (c : Ctrl) (s : State), Awake s → ctlExists s k.val = true →
    c = ctlGet s k.val → (bit v.val 0 = true ∧ bit c.cc 0 = false) →
    (s.flag R.STG_CFG.EN [] = true ∧ c.stop = .no) →
    (bits v.val 4 3 = 0 ∧ bits v.val 7 4 = 0 ∧ bits v.val 11 3 = 0) →
    Does (.ccWrite k v) s fun t => (ctlGet t k.val).rdy = true ∧ (ctlGet t k.val).cc = v.val &&& 0x00FFFFF1 ∧ (ctlGet t k.val).sqs = [(0, { addr := c.asq / 4096 * 4096, size := bits c.aqa 0 12 + 1, head := 0, tail := 0, cq := 0 })] ∧ (ctlGet t k.val).cqs = [(0, { addr := c.acq / 4096 * 4096, size := bits c.aqa 16 12 + 1, head := 0, tail := 0, phase := true, iv := 0, ien := true, held := 0, wait := [] })] ∧ t.regs = s.regs)
  ∧ (∀ (h : NvHap) (i : Nat) (c e : HCmd) (o : LegOp) (s u : State), Awake s → u = absorbCarter s →
    u.stg.cmds.find? (fun c => c.legs.any (fun o => match o.st with | .ended _ => true | _ => false)) = some c →
    c.legs.findIdx? (fun o => match o.st with | .ended _ => true | _ => false) = some i → c.legs[i]? = some o →
    e = { c with legs := replaceAt c.legs i { o with st := .done (.drive 0 0) } } → o.st = .ended (.drive 0 0) →
    Does (.legComplete h) s fun t => t = sweepAll (judge (cmdPut u e) e h))
  ∧ (∀ (k : Fin 16392) (q : Fin 65) (y : NvCq) (s : State), Awake s →
    SMap.find? (ctlGet s k.val).cqs q.val = some y → y.held ≠ 0 →
    Does (.interruptCoalescingExpiry k q) s fun t => t = cqIntr (clockTo s (y.heldAt + bits (featGet (ctlGet s k.val) 8) 8 8 * 1000000)) k.val q.val)

/-- Requests of the device to hosts: tags and translation. Rules R436, R438, R439, R440, R441, R442, R450. Completes
(exec answers a next state, by the effect of its own rule), a clause each: readCompletion, completionTimeout,
quarantineEnd, translationResponse, pageRequestGroupResponse, priTimeout, invalidationRequest,
invalidationCompletion. What rests on a choice of the model here: log entries 12, 15, 79, 82. -/
def Obligations.HostRequests : Prop :=
  (∀ (a : Fin 8) (n : Fin 1024) (g : Tag) (d : Bytes) (s w u : State), Awake s → w = linkActive s a.val →
    tagFind? w a.val n.val = some g → g.st = .outstanding →
    u = (tagDrop w a.val n.val).add R.HIF_CNT.COUNT [a.val, 2] d.length → quiesced u a.val g.fn = false →
    Does (.readCompletion a n (.ok d)) s fun t => t = sendReady (deliver u g.req (.ok d)) a.val)
  ∧ (∀ (a : Fin 8) (n : Fin 1024) (g : Tag) (s u : State), Awake s → tagFind? s a.val n.val = some g →
    g.st = .outstanding → quiesced s a.val g.fn = false →
    u = logUncor ((tagMark (clockTo s g.due) a.val n.val .quarantined).inc R.HIF_CNT.COUNT [a.val, 7]) a.val g.fn aerTimeout true →
    Does (.completionTimeout a n) s fun t => t = deliver u g.req .timeout)
  ∧ (∀ (a : Fin 8) (n : Fin 1024) (g : Tag) (s : State), Awake s → tagFind? s a.val n.val = some g →
    (g.st = .quarantined ∨ g.st = .orphanQuar) →
    Does (.quarantineEnd a n) s fun t => t = sendReady (tagDrop (clockTo s g.due) a.val n.val) a.val)
  ∧ (∀ (a f : Fin 8) (p g : Nat) (r w : Bool) (h : Held) (s u : State), Awake s → u = linkActive s a.val →
    u.hif.held.filter (fun x => x.waits a.val f.val none p) = [h] → h.stale = false →
    (if h.wantsWrite then w else r) = true →
    Does (.translationResponse a f none p (some (g, r, w))) s fun t => t = heldGo (atcInsert u { ap := a.val, fn := f.val, pasid := none, page := p, target := g, r := r, w := w }) h g)
  ∧ (∀ (a f : Fin 8) (p : Nat) (h : Held) (s u : State), Awake s → pageWaiter s a.val f.val none p = some h →
    u = s.sub R.HIF_FN_PRI.PRI_OUT [a.val, f.val] 1 →
    Does (.pageRequestGroupResponse a f none p true) s (fun t => t = sendTlp (({ u with hif := { u.hif with held := u.hif.held.map (fun x => if x = h then { h with st := .retrying } else x) } } : State).inc R.HIF_CNT.COUNT [a.val, 17]) a.val (.transReq a.val f.val p none)) ∧ Does (.pageRequestGroupResponse a f none p false) s fun t => t = heldFault u h)
  ∧ (∀ (a f : Fin 8) (p : Nat) (h : Held) (s u : State), Awake s → pageWaiter s a.val f.val none p = some h →
    u = clockTo s h.due → pageWaiter u a.val f.val none p = some h →
    Does (.priTimeout a f none p) s fun t => t = heldFault (u.sub R.HIF_FN_PRI.PRI_OUT [a.val, f.val] 1) h)
  ∧ (∀ (a f : Fin 8) (i : Fin 32) (lo hi : Nat) (v : Inval) (s u : State), Awake s →
    v = { ap := a.val, fn := f.val, itag := i.val, pasid := none, lo := lo, hi := hi, glob := false } →
    u = linkActive s a.val →
    Does (.invalidationRequest a f i (some none) lo hi) s fun t => t.hif.atc = u.hif.atc.filter (fun e => !v.covers e.ap e.fn e.pasid e.page) ∧ t.hif.inval = u.hif.inval ++ [v] ∧ t.hif.held = u.hif.held.map (fun h => if v.covers h.ap h.fn h.pasid (h.addr / 4096) then { h with stale := true } else h) ∧ t.rd R.HIF_CNT.COUNT [a.val, 19] = (u.rd R.HIF_CNT.COUNT [a.val, 19] + 1) % 2 ^ R.HIF_CNT.COUNT.width)
  ∧ (∀ (a f : Fin 8) (i : Fin 32) (v : Inval) (s : State), Awake s →
    s.hif.inval.find? (fun v => v.ap == a.val && v.fn == f.val && v.itag == i.val) = some v →
    invalBusy s v = false →
    Does (.invalidationCompletion a f i) s fun t => t = sendPosted { s with hif := { s.hif with inval := s.hif.inval.erase v } } a.val (.invCpl a.val f.val i.val) none)

/-- Functions, links and interrupts of the host interface. Rules R432, R435, R436, R444, R447, R448, R449. Completes
(exec answers a next state, by the effect of its own rule), a clause each: busMasterEnableClear, d3hotEntry,
d0Return, aspmL1Entry, hostLinkUp, pcieCreditReturn, pendingMessageRelease, hifInternalError. What rests on a choice
of the model here: log entries 80, 81. -/
def Obligations.HostFunctions : Prop :=
  (∀ (a f : Fin 8) (s : State), Awake s → fnPresent s a.val f.val = true → busEn s a.val f.val = true →
    Does (.busMasterEnableClear a f) s fun t => ∃ u, t = (if f.val = 3 then ctlQuiesce u a.val else u) ∧ quiesced u a.val f.val = true ∧ u.rd R.HIF_FN_STATUS.REASON [a.val, f.val] = 1 ∧ busEn u a.val f.val = false)
  ∧ (∀ (a f : Fin 8) (s : State), Awake s → fnPresent s a.val f.val = true → inD3 s a.val f.val = false →
    Does (.d3hotEntry a f) s fun t => ∃ u, t = moveFn u a.val f.val (fun x => if x = 1 then 2 else x) (fun x => if x = rsRunning then rsHeld else x) ∧ inD3 u a.val f.val = true ∧ (quiesced s a.val f.val = false → u.rd R.HIF_FN_STATUS.REASON [a.val, f.val] = 2))
  ∧ (∀ (a f : Fin 8) (s : State), Awake s → fnPresent s a.val f.val = true → inD3 s a.val f.val = true →
    Does (.d0Return a f) s fun t => ∃ u, t = moveFn u a.val f.val (fun x => if x = 2 then 1 else x) (fun x => if x = rsHeld then rsRunning else x) ∧ inD3 u a.val f.val = false ∧ u.rd R.HIF_FN_STATUS.REASON [a.val, f.val] ≠ 2)
  ∧ (∀ (a : Fin 8) (s : State), Awake s → s.flag R.HIF_AP_LINK.LINK_UP [a.val] = true →
    bit (cfgGet s a.val 0 28) 1 = true →
    Does (.aspmL1Entry a 1) s fun t => t = clkreqShow (s.wr R.HIF_AP_LINK.LPM [a.val] 1) a.val 1)
  ∧ (∀ (a : Fin 8) (v : Fin 7) (w : Fin 17) (b : Bool) (n : Nat × Nat × Nat) (s : State), Awake s →
    linkFits s a.val v w b = true →
    Does (.hostLinkUp a v w b n) s fun t => t.flag R.HIF_AP_LINK.LINK_UP [a.val] = true ∧ t.rd R.HIF_AP_LINK.SPEED [a.val] = v.val ∧ t.rd R.HIF_AP_LINK.WIDTH [a.val] = w.val ∧ t.flag R.HIF_AP_LINK.FLIT [a.val] = b ∧ t.flag R.HIF_AP_LINK.IN_RESET [a.val] = false ∧ t.rd R.HIF_AP_LINK.LPM [a.val] = 0 ∧ t.hif = (creditsSet s a.val n.1 n.2.1 n.2.2).hif)
  ∧ (∀ (a : Fin 8) (n c : Nat) (s u : State), Awake s → SMap.find? s.hif.credit a.val = some c →
    u = { s with hif := { s.hif with credit := SMap.ins s.hif.credit a.val (c + n) } } →
    Does (.pcieCreditReturn a (.posted, n)) s fun t => t = drainStalled s.hif.stalled.length u a.val)
  ∧ (∀ (i : Fin 65536) (e : IrqEnt) (s : State), Awake s → e = SMap.get IrqEnt.none s.hif.irq i.val →
    (e.valid = true ∧ e.pend = true ∧ e.mask = false) → irqBound s e = true → msgBlocked s e.ap e.func = false →
    Does (.pendingMessageRelease (.inl i)) s fun t => t = (sendPosted (irqPut s i.val { e with pend := false }) e.ap (.intr e.ap e.func e.addr e.data) (some (.store i.val))).inc R.HIF_CNT.COUNT [e.ap, 15])
  ∧ (∀ (a : Fin 8) (s : State), Awake s →
    Does (.hifInternalError a true) s (fun t => t = logCor s a.val 0 14) ∧ Does (.hifInternalError a false) s fun t => t = (countFailure (logUncor s a.val 0 aerInternal false) 9 a.val 0 []).1)

/-- What hosts send to the functions of a port. Rules R422, R426, R429, R434, R445, R446. Completes (exec answers a next
state, by the effect of its own rule), a clause each: inboundMemoryRequest, configRequest, functionLevelReset,
portReset. What rests on a choice of the model here: log entries 81, 143. -/
def Obligations.HostPorts : Prop :=
  (∀ (a : Fin 8) (x : BitVec 62) (n : Fin 1025) (i l : BitVec 4) (d : Bytes) (f p o g q r : Nat) (s u : State),
    Awake s → apOpen s a.val = true → u = linkActive s a.val → n.val ≤ 16 →
    barFind u a.val (4 * x.toNat) (4 * n.val) = .ok (f, p, o) →
    barFind u a.val (4 * x.toNat) (4 * ceilDiv d.length 4) = .ok (g, q, r) →
    Does (.inboundMemoryRequest a x (.read n i l)) s (fun t => t = sendCpl (barRead u a.val f p o 0 n.val i l n.val).2 a.val (.cpl a.val f 0 (barRead u a.val f p o 0 n.val i l n.val).1)) ∧ Does (.inboundMemoryRequest a x (.write d i l false)) s fun t => t = barWrite u a.val g q r ((List.range (ceilDiv d.length 4)).map (fun j => (leAt d (4 * j) 4, beOf j (ceilDiv d.length 4) i l))))
  ∧ (∀ (a f : Fin 8) (n : Fin 1024) (b : BitVec 4) (v : BitVec 32) (s u : State), Awake s → apOpen s a.val = true →
    u = linkActive s a.val → fnPresent u a.val f.val = true →
    Does (.configRequest a f n none) s (fun t => t = sendCpl u a.val (.cpl a.val f.val 0 (leBytes 4 (cfgRead u a.val f.val n.val)))) ∧ Does (.configRequest a f n (some (b, v))) s fun t => t = sendCpl (cfgWrite u a.val f.val n.val b.toNat v.toNat) a.val (.cpl a.val f.val 0 []))
  ∧ (∀ (a f : Fin 8) (s u v w : State), Awake s → apOpen s a.val = true → fnPresent s a.val f.val = true →
    u = dropIntr (dropUnissued (orphanFn (linkActive s a.val) a.val f.val) a.val f.val) a.val f.val →
    v = (fnInsts u a.val f.val).foldl (fun s i => beginReset s i false) (resetCfg u a.val f.val) →
    w = (if f.val = 3 then ctlFlr v a.val else v) →
    Does (.functionLevelReset a f) s fun t => t = if f.val = 0 ∧ a.val = ownerAp w then resetOwner w else w)
  ∧ (∀ (a : Fin 8) (c : PortCause) (s : State), Awake s → apPresent s a.val = true → pwrSt s ≠ psStandby →
    Does (.portReset a c) s fun t => ∃ u g, t = { (flushEp u (128 + a.val)).1 with grn := g } ∧ u.flag R.HIF_AP_LINK.IN_RESET [a.val] = true ∧ SMap.find? u.hif.credit a.val = none ∧ (∀ p ∈ u.hif.stalled, p.ap ≠ a.val) ∧ .hostLink a.val false ∈ t.out)

/-- Mailbox: commands on domains. Rules R455, R456, R459, R460, R461, R462, R463. Completes (exec answers a next state,
by the effect of its own rule), a clause each: mailboxGo, domCreate, domDestroy, domQuery. What rests on a choice of
the model here: log entries 86, 88. -/
def Obligations.MailboxDomains : Prop :=
  (∀ (k : Fin 16) (s : State), Awake s → (slotMb s k.val).busy = false → s.flag R.DOM_STATUS.FW_READY [] = true →
    Does (.mailboxGo k) s fun t => (slotMb t k.val).busy = true ∧ (slotMb t k.val).done = false ∧ t.dom.queue = s.dom.queue ++ [{ slot := some k.val, cmd := slice (slotMb s k.val).cmd 0 256 }] ∧ t.regs = s.regs)
  ∧ (∀ (d mi mr : Nat) (c : MbxCmd) (s u : State), Awake s → MbxFront s 0x0001 c u →
    (d = leAt c.cmd 8 2 ∧ mi = leAt c.cmd 10 2 ∧ mr = leAt c.cmd 12 4) →
    (0 < d ∧ d < 1024 ∧ 0 < mi ∧ mi ≤ 16384 ∧ 0 < mr ∧ mr ≤ 262144) → domValid s d = false →
    Does .domCreate s fun t => ∃ v, t = mbEnd v c 0 (leBytes 2 d ++ List.replicate 6 0 ++ leBytes 8 (bindOf s d)) ∧ v.flag R.DOM_DOMAIN_W0.VALID [d] = true ∧ v.rd R.DOM_DOMAIN_W2.MAX_INST [d] = mi ∧ v.rd R.DOM_DOMAIN_W3.MAX_RINGS [d] = mr ∧ v.rd R.DOM_STATUS.DOMAINS [] = (s.rd R.DOM_STATUS.DOMAINS [] + 1) % 2 ^ R.DOM_STATUS.DOMAINS.width ∧ v.dom = u.dom)
  ∧ (∀ (d : Nat) (c : MbxCmd) (s u : State), Awake s → MbxFront s 0x0002 c u → d = leAt c.cmd 8 2 →
    (0 < d ∧ d < 1024) → domValid s d = true → instsIn s d = [] →
    Does .domDestroy s fun t => ∃ v, t = mbEnd v c 0 [] ∧ v.flag R.DOM_DOMAIN_W0.VALID [d] = false ∧ v.rd R.DOM_DOMAIN_W2.MAX_INST [d] = 0 ∧ v.rd R.DOM_DOMAIN_W3.MAX_RINGS [d] = 0 ∧ v.dom = u.dom)
  ∧ (∀ (d : Nat) (c : MbxCmd) (s u : State), Awake s → MbxFront s 0x0003 c u → d = leAt c.cmd 8 2 → d < 1024 →
    Does .domQuery s fun t => t = mbEnd u c 0 ([byteOf (b2n (domValid s d)), 0] ++ leBytes 2 (s.rd R.DOM_DOMAIN_W0.INSTANCES [d]) ++ leBytes 4 (s.rd R.DOM_DOMAIN_W1.RINGS [d]) ++ leBytes 8 (bindOf s d)))

/-- Mailbox: commands on instances. Rules R457, R458, R462, R464, R465, R450. Completes (exec answers a next state, by
the effect of its own rule), a clause each: instCreate, instDestroy, instReset, instQuery, irqWrite,
instanceResetComplete. What rests on a choice of the model here: log entries 86, 87. -/
def Obligations.MailboxInstances : Prop :=
  (∀ (d cl a nv i b : Nat) (c : MbxCmd) (s u : State), Awake s → MbxFront s 0x0010 c u →
    (d = leAt c.cmd 8 2 ∧ cl = byteAt c.cmd 10 ∧ a = byteAt c.cmd 11 ∧ nv = leAt c.cmd 16 2 ∧ i = leAt c.cmd 18 2) →
    (d < 1024 ∧ 1 ≤ cl ∧ cl ≤ 3 ∧ 0 < nv ∧ nv ≤ (if cl = 3 then 65 else 2048) ∧ i < 16384) → apPresent s a = true →
    domValid s d = true → instState s i = 0 → bit (leAt c.cmd 12 4) 31 = false →
    areaFit 0 65536 nv ((instsWhere s (fun _ => true)).map (fun j => (s.rd R.DOM_INST_W2.IRQ_BASE [j], s.rd R.DOM_INST_W2.NVEC [j]))) = some b →
    s.rd R.DOM_DOMAIN_W0.INSTANCES [d] < s.rd R.DOM_DOMAIN_W2.MAX_INST [d] →
    Does .instCreate s fun t => ∃ v, t = mbEnd v c 0 (leBytes 2 i ++ [0, 0] ++ leBytes 2 b) ∧ instState v i = 1 ∧ v.rd R.DOM_INST_W0.CLASS [i] = cl ∧ v.rd R.DOM_INST_W0.AP [i] = a ∧ v.rd R.DOM_INST_W0.DOMAIN [i] = d ∧ v.flag R.DOM_INST_W1.PASID_EN [i] = false ∧ v.rd R.DOM_INST_W2.NVEC [i] = nv ∧ v.rd R.DOM_INST_W2.IRQ_BASE [i] = b % 2 ^ R.DOM_INST_W2.IRQ_BASE.width ∧ v.dom = u.dom)
  ∧ (∀ (i : Nat) (c : MbxCmd) (s u : State), Awake s → MbxFront s 0x0011 c u → i = leAt c.cmd 8 2 → i < 16384 →
    instState s i ≠ 0 →
    Does .instDestroy s fun t => t = { beginReset u i true with dom := { (beginReset u i true).dom with running := some c } })
  ∧ (∀ (i : Nat) (c : MbxCmd) (s u : State), Awake s → MbxFront s 0x0012 c u → i = leAt c.cmd 8 2 → i < 16384 →
    (instState s i ≠ 0 ∧ instState s i ≠ 5) →
    Does .instReset s fun t => t = { beginReset u i false with dom := { (beginReset u i false).dom with running := some c } })
  ∧ (∀ (i : Nat) (c : MbxCmd) (s u : State), Awake s → MbxFront s 0x0013 c u → i = leAt c.cmd 8 2 → i < 16384 →
    Does .instQuery s fun t => t = mbEnd u c 0 ([byteOf (instState s i), byteOf (s.rd R.DOM_INST_W0.CLASS [i]), byteOf (s.rd R.DOM_INST_W0.AP [i]), 0] ++ leBytes 4 (s.rd R.DOM_INST_W1.PASID [i] + 2 ^ 31 * s.rd R.DOM_INST_W1.PASID_EN [i]) ++ leBytes 2 (s.rd R.DOM_INST_W2.IRQ_BASE [i]) ++ leBytes 2 (s.rd R.DOM_INST_W2.NVEC [i]) ++ leBytes 2 (s.rd R.DOM_INST_W3.RINGS [i]) ++ leBytes 2 (s.rd R.DOM_INST_W0.DOMAIN [i])))
  ∧ (∀ (i v n : Nat) (c : MbxCmd) (s u : State), Awake s → MbxFront s 0x0014 c u →
    (i = leAt c.cmd 8 2 ∧ v = leAt c.cmd 10 2) → i < 16384 →
    (instState s i = 1 ∨ instState s i = 2 ∨ instState s i = 3) → v < s.rd R.DOM_INST_W2.NVEC [i] →
    leAt c.cmd 16 8 % 4 = 0 → n = s.rd R.DOM_INST_W2.IRQ_BASE [i] + v →
    Does .irqWrite s fun t => t = mbEnd (irqPut u n { SMap.get IrqEnt.none s.hif.irq n with addr := leAt c.cmd 16 8, data := leAt c.cmd 24 4, mask := bit (byteAt c.cmd 12) 0 }) c 0 [])
  ∧ (∀ (i : Fin 16384) (s : State), Awake s → instState s i.val = 4 → s.dom.running = none →
    Does (.instanceResetComplete i) s fun t => instState t i.val = 1 ∧ t.hif.toPass = s.hif.toPass.filter (fun p => p ≠ (s.rd R.DOM_INST_W0.AP [i.val] * 8 + s.rd R.DOM_INST_W0.CLASS [i.val], i.val)))

/-- Mailbox: commands on rings. Rules R462, R466, R473, R474. Completes (exec answers a next state, by the effect of its
own rule), a clause each: ringCreate, ringDestroy, ringModify, ringResetComplete. What rests on a choice of the
model here: log entries 86, 91, 183. -/
def Obligations.MailboxRings : Prop :=
  (∀ (i d r : Nat) (c : MbxCmd) (s u : State), Awake s → MbxFront s 0x0020 c u → i = leAt c.cmd 8 2 →
    rcBad c.cmd = false → rcOwner c.cmd = false → instState s i = 1 → d = s.rd R.DOM_INST_W0.DOMAIN [i] →
    (byteAt c.cmd 11 ≤ 5 ∧ byteAt c.cmd 11 ≠ 1) →
    typeAllowed (s.rd R.DOM_INST_W0.CLASS [i]) (byteAt c.cmd 11) = true → rcVecBad s c.cmd = false →
    (6 ≤ byteAt c.cmd 14 ∧ byteAt c.cmd 14 ≤ 16) → (leAt c.cmd 16 8 % 4096 = 0 ∧ leAt c.cmd 24 8 % 4096 = 0) →
    findRing s false i (rcRing c.cmd) = none →
    (s.rd R.DOM_RINGS.RINGS [] < 262144 ∧ s.rd R.DOM_DOMAIN_W1.RINGS [d] < s.rd R.DOM_DOMAIN_W3.MAX_RINGS [d]) →
    (List.range 262144).find? (fun q => ringSt s q == 0) = some r →
    Does .ringCreate s fun t => ∃ v, t = mbEnd v c 0 (leBytes 4 r) ∧ ringSt v r = rsRunning ∧ ringType v r = byteAt c.cmd 11 ∧ ringOwner v r = false ∧ ringInst v r = i ∧ ringSize v r = 2 ^ byteAt c.cmd 14 ∧ v.rd R.DOM_RING_W1.RING [r] = rcRing c.cmd ∧ v.rd R.DOM_RING_W2.CI [r] = 0 ∧ v.rd R.DOM_RING_W3.PI [r] = 0 ∧ (ringGet v r).descAddr = leAt c.cmd 16 8 ∧ (ringGet v r).cplAddr = leAt c.cmd 24 8 ∧ (ringGet v r).vector = rcVector c.cmd)
  ∧ (∀ (r : Nat) (c : MbxCmd) (s u : State), Awake s → MbxFront s 0x0021 c u → rcBad c.cmd = false →
    findRing s (rcOwner c.cmd) (rcInst c.cmd) (rcRing c.cmd) = some r → ringType s r ≠ 3 →
    Does .ringDestroy s fun t => t = mbEnd (destroyRing u r) c 0 [])
  ∧ (∀ (r : Nat) (c : MbxCmd) (s u : State), Awake s → MbxFront s 0x0022 c u → rcBad c.cmd = false →
    rcVecBad s c.cmd = false → findRing s (rcOwner c.cmd) (rcInst c.cmd) (rcRing c.cmd) = some r →
    Does .ringModify s fun t => t = mbEnd (ringPut u r { ringGet u r with change := some (rcVector c.cmd, byteAt c.cmd 34, bit (byteAt c.cmd 35) 0, rcUsec c.cmd) }) c 0 [])
  ∧ (∀ (r : Fin 262144) (s : State), Awake s → ringSt s r.val = rsResetting →
    (ringGet s r.val).fetched = [] ∧ (ringGet s r.val).busy = none →
    Does (.ringResetComplete r) s fun t => ∃ v, t = cplPost v r.val (cplBody 0xFFFFFFFF stSuccess 0xFF []) ∧ ringSt v r.val = rsRunning ∧ v.rd R.DOM_RING_W2.CI [r.val] = 0 ∧ v.rd R.DOM_RING_W2.CPL_PI [r.val] = 0 ∧ v.rd R.DOM_RING_W3.PI [r.val] = 0 ∧ v.rd R.DOM_RING_W3.CPL_CI [r.val] = 0 ∧ (ringGet v r.val).discard = false ∧ (ringGet v r.val).bufs = [])

/-- NET rings: frames and doorbells. Rules R470, R471, R474, R475, R476, R477, R478, R479, R484. Completes (exec answers
a next state, by the effect of its own rule), a clause each: txFrame, rxFrameDelivery, doorbell, cqdb, ringCtlReset,
descriptorFetch, rxBuf, moderationTimer. What rests on a choice of the model here: log entries 12, 85, 89, 91, 182. -/
def Obligations.RingFrames : Prop :=
  (∀ (r : Fin 262144) (k l : Nat) (d b : Bytes) (s u v : State), Awake s → headOp s r.val 0 1 = some (k, d) →
    fnLive s (ringFn s r.val).1 (ringFn s r.val).2 = true → txLen d = some l →
    (descRead s r.val ([(leAt d 8 8, leAt d 16 2), (leAt d 24 8, leAt d 18 2), (leAt d 32 8, leAt d 20 2)].take (byteAt d 1 % 4)) (.ok b)).1 = true →
    u = (descRead s r.val ([(leAt d 8 8, leAt d 16 2), (leAt d 24 8, leAt d 18 2), (leAt d 32 8, leAt d 20 2)].take (byteAt d 1 % 4)) (.ok b)).2 →
    v = popDesc u r.val k →
    Does (.txFrame r (.ok b)) s fun t => ∃ p : Pkt, t = toInternal (ringPut v r.val { ringGet v r.val with busy := some (k, d) }) p ∧ p.data = slice b 0 l ∧ p.origin = 128 + (ringFn u r.val).1 ∧ p.domain = ringDomain u r.val ∧ p.profile = (ringGet u r.val).profile ∧ p.tc = (ringGet u r.val).tc ∧ p.hash = srcHash (.ring r.val) ∧ p.poison = false ∧ p.tx = some (r.val, k))
  ∧ (∀ (f : HostFrame) (l : List HostFrame) (r a fn k g x n : Nat) (b : List (Nat × Nat × Nat × Nat)) (s v u : State),
    Awake s → s.grn.host = f :: l → rxRing s f.q = some r → (ringSt s r = rsRunning ∧ ringFn s r = (a, fn)) →
    (rxReach s r f false).1 = true → v = { s with grn := { s.grn with host := l } } →
    (quiesced v a fn = false ∧ v.rd R.HIF_FN_STATUS.REASON [a, fn] = 0) →
    (ringOwner v r = true ∨ instState v (ringInst v r) = 1) → (ringGet v r).bufs = (k, g, x, n) :: b →
    f.data.length ≤ n → ringFull v r = false → queueEp v f.q = some (128 + a) → f.poison = false →
    u = ringPut v r { ringGet v r with bufs := b } →
    Does (.rxFrameDelivery false) s fun t => t = cplPost (fnWrite u a fn (if ringOwner u r then none else some (ringInst u r)) (ringPasid u r) x f.data true false) r (cplBody g stSuccess 2 ([0, 0] ++ leBytes 2 f.data.length ++ [byteOf (f.tc % 8), 0] ++ leBytes 4 f.hash ++ leBytes 4 (tsSec f.ts) ++ leBytes 4 (tsNs f.ts) ++ leBytes 2 f.exc ++ [byteOf f.origin])))
  ∧ (∀ (i : Fin 16384) (w : BitVec 64) (r : Nat) (s : State), Awake s → bits w.toNat 32 32 = 0 →
    s.rd R.DOM_INST_W0.STATE [i.val] = 1 → findRing s false i.val (bits w.toNat 0 16) = some r →
    (ringSt s r ≠ rsError ∧ ringSt s r ≠ rsResetting) →
    ixDist (s.rd R.DOM_RING_W3.PI [r]) (s.rd R.DOM_RING_W2.CI [r]) ≤ ixDist (bits w.toNat 16 16) (s.rd R.DOM_RING_W2.CI [r]) →
    ixDist (bits w.toNat 16 16) (s.rd R.DOM_RING_W2.CI [r]) ≤ ringSize s r - 1 →
    Does (.doorbell (some i) w) s fun t => t = (s.wr R.DOM_RING_W3.PI [r] (bits w.toNat 16 16)).inc R.DOM_INST_CNT.COUNT [i.val, 0])
  ∧ (∀ (i : Fin 16384) (w : BitVec 64) (r : Nat) (s u : State), Awake s → bits w.toNat 33 31 = 0 →
    s.rd R.DOM_INST_W0.STATE [i.val] = 1 → findRing s false i.val (bits w.toNat 0 16) = some r →
    (ringSt s r ≠ rsError ∧ ringSt s r ≠ rsResetting) →
    ixDist (bits w.toNat 16 16) (s.rd R.DOM_RING_W3.CPL_CI [r]) ≤ ixDist (s.rd R.DOM_RING_W2.CPL_PI [r]) (s.rd R.DOM_RING_W3.CPL_CI [r]) →
    (ringGet s r).cplWait = [] →
    u = (s.wr R.DOM_RING_W3.CPL_CI [r] (bits w.toNat 16 16)).inc R.DOM_INST_CNT.COUNT [i.val, 0] →
    Does (.cqdb (some i) w) s fun t => t = if bit w.toNat 32 then ringEval (u.wr R.DOM_RING_W1.ARMED [r] 1) r else u)
  ∧ (∀ (i : Fin 16384) (w : BitVec 64) (r : Nat) (s : State), Awake s → bits w.toNat 17 47 = 0 →
    s.rd R.DOM_INST_W0.STATE [i.val] = 1 → findRing s false i.val (bits w.toNat 0 16) = some r →
    bit w.toNat 16 = true → (ringSt s r = rsRunning ∨ ringSt s r = rsError) →
    Does (.ringCtlReset (some i) w) s fun t => t = ((flushEntries (ringPut s r { ringGet s r with discard := true, asked := [], faultDue := none, cplWait := [] }) r).wr R.DOM_RING_W0.STATE [r] rsResetting).inc R.DOM_INST_CNT.COUNT [i.val, 0])
  ∧ (∀ (r : Fin 262144) (a f c n : Nat) (i : Option Nat) (s u : State), Awake s → mayFetch s r.val = true →
    ringFn s r.val = (a, f) → atsEn s a f = false → freeTag? s a f = some n →
    i = (if ringOwner s r.val then none else some (ringInst s r.val)) → c = s.rd R.DOM_RING_W2.CI [r.val] →
    u = (ringPut s r.val { ringGet s r.val with asked := (ringGet s r.val).asked ++ [c] }).wr R.DOM_RING_W2.CI [r.val] (c + 1) →
    Does (.descriptorFetch r) s fun t => t = sendRead u a f i (.desc r.val c) ((ringGet s r.val).descAddr + 64 * (c % ringSize s r.val)) 64 (ringPasid s r.val) none)
  ∧ (∀ (r : Fin 262144) (k : Nat) (d : Bytes) (s : State), Awake s → headOp s r.val 1 2 = some (k, d) →
    (64 ≤ leAt d 16 4 ∧ leAt d 16 4 ≤ 16384) →
    Does (.rxBuf r) s fun t => t = ringSettle (ringPut (popDesc s r.val k) r.val { ringGet (popDesc s r.val k) r.val with bufs := (ringGet (popDesc s r.val k) r.val).bufs ++ [(k, leAt d 4 4, leAt d 8 8, leAt d 16 4)] }) r.val)
  ∧ (∀ (r : Fin 262144) (s : State), Awake s → ringSt s r.val ≠ 0 → (ringGet s r.val).timerOn = true →
    Does (.moderationTimer r) s fun t => t = ringEval (ringPut (clockTo s ((ringGet s r.val).timerAt + (ringGet s r.val).modUsec * 10000)) r.val { ringGet s r.val with timerDone := true }) r.val)

/-- Harts: CH.SEND, CH.RECV and CH.FILL. Rules R500, R501, R503, R504, R505. Completes (exec answers a next state, by
the effect of its own rule), a clause each: chSend, chRecv, chFill. What rests on a choice of the model here: log
entries 92. -/
def Obligations.HartChannels : Prop :=
  (∀ (h : Fin 512) (rd rs1 : Fin 32) (n : Nat) (r s : State), HartReady r h.val s → xelvOk s h.val 0 = true →
    (n = xr s h.val rs1.val % 65536 ∧ n < 8192) →
    (s.flag R.FIL_CH_W0.EN [n] = true ∧ s.rd R.FIL_CH_W0.PROD_CLASS [n] = 0) →
    (s.rd R.FIL_CH_W0.PROD_GRP [n] < 64 → inGroup s h.val (s.rd R.FIL_CH_W0.PROD_GRP [n]) = true) →
    (chanMsgs s n).length < chanDepth s n →
    Does (.chSend h rd rs1) r fun t => t = pcNext (xw ((chanPush s n (hartGet s h.val).staging).inc R.FIL_CNT.COUNT [0]) h.val rd.val 0) h.val ∧ chanMsgs t n = chanMsgs s n ++ [(hartGet s h.val).staging] ∧ xr t h.val rd.val = 0 ∧ (hartGet t h.val).pc = w64 ((hartGet s h.val).pc + 4))
  ∧ (∀ (h : Fin 512) (rd rs1 : Fin 32) (r s : State), HartReady r h.val s → xelvOk s h.val 0 = false →
    Does (.chSend h rd rs1) r fun t => t = trapEnter s h.val 2 false (xelvWord 0 rd.val rs1.val 0))
  ∧ (∀ (h : Fin 512) (rd rs1 : Fin 32) (n : Nat) (m : Bytes) (l : List Bytes) (r s : State), HartReady r h.val s →
    xelvOk s h.val 0 = true → (n = xr s h.val rs1.val % 65536 ∧ n < 8192) → s.flag R.FIL_CH_W0.EN [n] = true →
    chanMsgs s n = m :: l →
    Does (.chRecv h rd rs1) r fun t => chanMsgs t n = l ∧ (hartGet t h.val).recv = slice m 0 64 ∧ xr t h.val rd.val = 0 ∧ (hartGet t h.val).pc = w64 ((hartGet s h.val).pc + 4))
  ∧ (∀ (h : Fin 512) (rd rs1 : Fin 32) (n : Nat) (r s : State), HartReady r h.val s → xelvOk s h.val 0 = true →
    (n = xr s h.val rs1.val % 65536 ∧ n < 8192) → s.flag R.FIL_CH_W0.EN [n] = true → chanMsgs s n = [] →
    Does (.chRecv h rd rs1) r fun t => t = pcNext (xw s h.val rd.val 1) h.val)
  ∧ (∀ (h : Fin 512) (rd rs1 : Fin 32) (n : Nat) (r s : State), HartReady r h.val s → xelvOk s h.val 0 = true →
    n = xr s h.val rs1.val % 65536 → (n < 8192 ∧ s.flag R.FIL_CH_W0.EN [n] = true) ∨ hwDepth n ≠ 0 →
    Does (.chFill h rd rs1) r fun t => t = pcNext (xw s h.val rd.val (chanMsgs s n).length) h.val)

/-- Harts: EV.SEND, the timer interrupt and wait groups. Rules R507, R508, R509, R510, R511, R516, R517, R518. Completes
(exec answers a next state, by the effect of its own rule), a clause each: evSend, timerInterrupt, waitcycleSample.
What rests on a choice of the model here: log entries 104. -/
def Obligations.HartEventsAndGroups : Prop :=
  (∀ (h : Fin 512) (rd rs1 rs2 : Fin 32) (r s : State), HartReady r h.val s → xelvOk s h.val 1 = true →
    evRefused s h.val (xr s h.val rs1.val % 512) = false →
    Does (.evSend h rd rs1 rs2) r fun t => t = pcNext (xw (latchEv s (xr s h.val rs1.val % 512) (xr s h.val rs2.val % 32)) h.val rd.val 0) h.val)
  ∧ (∀ (h : Fin 512) (rd rs1 rs2 : Fin 32) (r s : State), HartReady r h.val s → xelvOk s h.val 1 = true →
    evRefused s h.val (xr s h.val rs1.val % 512) = true →
    Does (.evSend h rd rs1 rs2) r fun t => t = pcNext ((xw s h.val rd.val 2).inc R.FIL_CNT.COUNT [8]) h.val)
  ∧ (∀ (h : Fin 512) (s : State), SMap.get (2 ^ 64 - 1) s.fil.mtimecmp h.val ≤ s.mtime → hartRuns s h.val = true →
    intrCause? s h.val = some 7 → Does (.timerInterrupt h) s fun t => t = trapEnter s h.val 7 true 0)
  ∧ (∀ (g : Fin 64) (p : List Nat) (s u : State), (p = (members s g.val).filter (takesPart s) ∧ p ≠ []) →
    u = s.wr R.FIL_WG_W1.MEMBERS [g.val] p.length →
    (u.flag R.FIL_WG_W0.EN [g.val] = true ∧ u.rd R.PWR_STATUS.STATE [] ≠ 2) →
    (members u g.val).any (fun h => hartSt u h == hsHalt) = false →
    (p.all (isBlocked u g.val) = true ∧ p.all (fun h => (hartGet u h).blocked) = true) →
    Does (.waitcycleSample g) s fun t => t.flag R.FIL_WG_W0.CYCLE [g.val] = true)
  ∧ (∀ (g : Fin 64) (p : List Nat) (s u : State), (p = (members s g.val).filter (takesPart s) ∧ p ≠ []) →
    u = s.wr R.FIL_WG_W1.MEMBERS [g.val] p.length →
    (u.flag R.FIL_WG_W0.EN [g.val] = true ∧ u.rd R.PWR_STATUS.STATE [] ≠ 2) →
    (members u g.val).any (fun h => hartSt u h == hsHalt) = false → p.all (isBlocked u g.val) = false →
    Does (.waitcycleSample g) s fun t => t.rd R.FIL_WG_W0.CYCLE [g.val] = 0)

/-- Filbert: issue tables, channels, frame buffers and transmit messages. Rules R498, R503, R514, R515, R526, R528.
Completes (exec answers a next state, by the effect of its own rule), a clause each: issueTableApply, channelEnable,
frameBufferReturn, transmitMessage. What rests on a choice of the model here: log entries 102, 104. -/
def Obligations.FilbertSetup : Prop :=
  (∀ (c : Fin 64) (s : State), Awake s → issueCheck s c.val = 0 →
    Does (.issueTableApply c) s fun t => t.regs = s.regs ∧ issueOf t c.val = issueOf s c.val ∧ ∀ v : State, v.fil = t.fil → roundNo s < roundNo v → issueOf v c.val = { lo := s.rd R.FIL_CORE_TABLE_LO.SLOTS_0_7 [c.val], hi := s.rd R.FIL_CORE_TABLE_HI.SLOTS_8_15 [c.val], highEn := s.flag R.FIL_CORE_CTL.HIGH_EN [c.val], highHart := s.rd R.FIL_CORE_CTL.HIGH_HART [c.val], highCap := max 1 (s.rd R.FIL_CORE_CTL.HIGH_CAP [c.val]) })
  ∧ (∀ (c : Fin 64) (s : State), Awake s → issueCheck s c.val ≠ 0 →
    Does (.issueTableApply c) s fun t => t.rd R.FIL_STATUS.CFG_ERR [] = 1 ∧ t.rd R.FIL_STATUS.ERR_CODE [] = issueCheck s c.val % 2 ^ R.FIL_STATUS.ERR_CODE.width ∧ t.rd R.FIL_STATUS.ERR_CORE [] = c.val % 2 ^ R.FIL_STATUS.ERR_CORE.width ∧ t.fil = s.fil)
  ∧ (∀ (n : Fin 8192) (s : State), Awake s → s.flag R.FIL_CH_W0.EN [n.val] = false → chanEnCheck s n.val = 0 →
    Does (.channelEnable n) s fun t => t.flag R.FIL_CH_W0.EN [n.val] = true ∧ chanMsgs t n.val = [] ∧ t.rd R.FIL_CH_W2.FILL [n.val] = 0)
  ∧ (∀ (n : Fin 8192) (s : State), Awake s → s.flag R.FIL_CH_W0.EN [n.val] = false → chanEnCheck s n.val ≠ 0 →
    Does (.channelEnable n) s fun t => t.rd R.FIL_STATUS.CFG_ERR [] = 1 ∧ t.rd R.FIL_STATUS.ERR_CODE [] = chanEnCheck s n.val % 2 ^ R.FIL_STATUS.ERR_CODE.width ∧ t.flag R.FIL_CH_W0.EN [n.val] = false)
  ∧ (∀ (m : Bytes) (l : List Bytes) (s : State), Awake s → chanMsgs s 0xFF20 = m :: l →
    Does .frameBufferReturn s fun t => t = (((List.range 16).map (fun i => leAt m (4 * i) 4)).filter (· ≠ 0xFFFFFFFF)).foldl returnBuf (chanSet s 0xFF20 l))
  ∧ (∀ (k : Fin 64) (m : Bytes) (l : List Bytes) (s : State), Awake s → chanMsgs s (0xFF40 + k.val) = m :: l →
    s.fil.txUntil ≤ s.now → txBad m = false →
    Does (.transmitMessage k) s fun t => t = txSend (chanSet s (0xFF40 + k.val) l) (0xFF40 + k.val) m)
  ∧ (∀ (k : Fin 64) (m : Bytes) (l : List Bytes) (s : State), Awake s → chanMsgs s (0xFF40 + k.val) = m :: l →
    s.fil.txUntil ≤ s.now → txBad m = true →
    Does (.transmitMessage k) s fun t => t = (chanSet s (0xFF40 + k.val) l).inc R.FIL_CNT.COUNT [7])

/-- Harts: reset, release and the Debug Module. Rules R519, R520, R521, R527. Completes (exec answers a next state, by
the effect of its own rule), a clause each: hartReset, hartRelease, halt, resume, hartreset, singleStep,
accessRegister, accessMemory. What rests on a choice of the model here: log entries 101, 105, 106. -/
def Obligations.HartResetAndDebug : Prop :=
  (∀ (h : Fin 512) (s : State), Awake s → s.flag R.FIL_CORE_STATUS.RETIRED [coreOf h.val] = false →
    bit (s.rd R.FIL_CORE_CTL.RUN [coreOf h.val]) (h.val % 8) = true →
    Does (.hartReset h) s fun t => hartSt t h.val = hsRun ∧ hartGet t h.val = { Hart.reset with pc := w64 (s.rd R.FIL_RESET_PC_LO.PC_LO [] + 2 ^ 32 * s.rd R.FIL_RESET_PC_HI.PC_HI []) } ∧ t.rd R.FIL_HART_IRQ.IRQ_PEND [h.val] = 0)
  ∧ (∀ (h : Fin 512) (s : State), Awake s → s.flag R.FIL_CORE_STATUS.RETIRED [coreOf h.val] = false →
    bit (s.rd R.FIL_CORE_CTL.RUN [coreOf h.val]) (h.val % 8) = false →
    Does (.hartReset h) s fun t => hartSt t h.val = hsReset ∧ hartGet t h.val = Hart.reset ∧ t.rd R.FIL_HART_IRQ.IRQ_PEND [h.val] = 0)
  ∧ (∀ (h : Fin 512) (s u : State), Awake s → hartSt s h.val = hsReset →
    u = s.wr R.FIL_CORE_CTL.RUN [coreOf h.val] (setBit (s.rd R.FIL_CORE_CTL.RUN [coreOf h.val]) (h.val % 8) true) →
    Does (.hartRelease h) s fun t => t = hartReset u h.val)
  ∧ (∀ (h : Fin 512) (s : State), Awake s → unlocked s 0 = true →
    (hartSt s h.val = hsRun ∨ hartSt s h.val = hsWait) →
    Does (.halt h) s fun t => t = haltHart s h.val 3 ∧ hartSt t h.val = hsHalt ∧ (hartGet t h.val).pc = (hartGet s h.val).pc ∧ (hartGet t h.val).staging = (hartGet s h.val).staging ∧ csrRaw t h.val csrDpc = w64 (hartGet s h.val).pc)
  ∧ (∀ (h : Fin 512) (s : State), Awake s → unlocked s 0 = true → hartSt s h.val = hsHalt →
    Does (.resume h) s fun t => t = resumeHart s h.val ∧ (hartGet t h.val).pc = csrRaw s h.val csrDpc ∧ (hartGet t h.val).staging = (hartGet s h.val).staging ∧ (hartSt t h.val = hsRun ∨ hartSt t h.val = hsWait))
  ∧ (∀ (h : Fin 512) (s : State), Awake s → unlocked s 0 = true →
    Does (.hartreset h) s fun t => t = Sys2Proof.Machine.hartReset s h.val)
  ∧ (∀ (h : Fin 512) (w : BitVec 32) (x : RvHap) (s u : State), Awake s → unlocked s 0 = true →
    hartSt s h.val = hsHalt → u = resumeHart s h.val →
    (coreLive u (coreOf h.val) = true ∧ hartSt u h.val = hsRun) →
    Does (.singleStep h w x) s fun t => t = stepHalt (hartCycle u h.val true fun v => rvRun v h.val w.toNat x) h.val)
  ∧ (∀ (h : Fin 512) (n : Fin 65536) (p : List (BitVec 32)) (v : Nat) (s u : State), Awake s → unlocked s 0 = true →
    (hartSt s h.val = hsHalt ∧ coreLive s (coreOf h.val) = true) →
    dbgRegRead (progWrite s p) h.val n.val = some (v, u) →
    Does (.accessRegister h n none p false) s fun t => t = u.emit (.data v))
  ∧ (∀ (h : Fin 512) (n : Fin 65536) (p : List (BitVec 32)) (v : BitVec 64) (s u : State), Awake s →
    unlocked s 0 = true → (hartSt s h.val = hsHalt ∧ coreLive s (coreOf h.val) = true) →
    dbgRegWrite (progWrite s p) h.val n.val v.toNat = some u →
    Does (.accessRegister h n (some v) p false) s fun t => t = u)
  ∧ (∀ (h : Fin 512) (a : BitVec 64) (k : Fin 4) (v : BitVec 64) (s : State), Awake s → unlocked s 0 = true →
    (hartSt s h.val = hsHalt ∧ coreLive s (coreOf h.val) = true) →
    (inHbm a.toNat (2 ^ k.val) = true → unlocked s 2 = true) →
    memCheck (hartPut s h.val { hartGet s h.val with mmode := true }) h.val a.toNat (2 ^ k.val) .store true = none →
    Does (.accessMemory h a k (some v)) s fun t => t = memPut s h.val a.toNat (2 ^ k.val) v.toNat)
  ∧ (∀ (h : Fin 512) (a : BitVec 64) (k : Fin 4) (v : Nat) (s u : State), Awake s → unlocked s 0 = true →
    (hartSt s h.val = hsHalt ∧ coreLive s (coreOf h.val) = true) →
    (inHbm a.toNat (2 ^ k.val) = true → unlocked s 2 = true) →
    memCheck (hartPut s h.val { hartGet s h.val with mmode := true }) h.val a.toNat (2 ^ k.val) .load true = none →
    loadPoisoned s a.toNat (2 ^ k.val) .fine = false → memGet s h.val a.toNat (2 ^ k.val) = (v, u) →
    Does (.accessMemory h a k none) s fun t => t = u.emit (.data v))

/-- Harts: base instructions and what a trap saves and changes. Rules R492, R494, R495, R511. Completes (exec answers a
next state, by the effect of its own rule), a clause each: riscvInstruction. What rests on a choice of the model
here: log entries 19, 93, 95. -/
def Obligations.HartInstructionsAndTraps : Prop :=
  (∀ (h : Fin 512) (rd rs1 : Fin 32) (i : Fin 4096) (x : RvHap) (r s : State), HartReady r h.val s →
    fetchFault s h.val 4 = none → (∀ a, x ≠ .coreError a) →
    Does (.riscvInstruction h (BitVec.ofNat 32 (mkI 0x13 rd.val 0 rs1.val i.val)) x) r fun t => t = retireTo (xw s h.val rd.val (xr s h.val rs1.val + sx 12 i.val)) h.val (w64 ((hartGet s h.val).pc + 4)))
  ∧ (∀ (h : Fin 512) (rd rs1 rs2 : Fin 32) (x : RvHap) (r s : State), HartReady r h.val s →
    fetchFault s h.val 4 = none → (∀ a, x ≠ .coreError a) →
    Does (.riscvInstruction h (BitVec.ofNat 32 (mkR 0x33 rd.val 0 rs1.val rs2.val 0)) x) r fun t => t = retireTo (xw s h.val rd.val (xr s h.val rs1.val + xr s h.val rs2.val)) h.val (w64 ((hartGet s h.val).pc + 4)))
  ∧ (∀ (h : Fin 512) (rd : Fin 32) (k : Fin 1048576) (x : RvHap) (r s : State), HartReady r h.val s →
    fetchFault s h.val 4 = none → (∀ a, x ≠ .coreError a) →
    Does (.riscvInstruction h (BitVec.ofNat 32 (0x37 + rd.val * 128 + k.val * 4096)) x) r fun t => t = retireTo (xw s h.val rd.val (sx 32 (k.val * 4096))) h.val (w64 ((hartGet s h.val).pc + 4)))
  ∧ (∀ (h : Fin 512) (rd : Fin 32) (k : Fin 1048576) (x : RvHap) (r s : State), HartReady r h.val s →
    fetchFault s h.val 4 = none → (∀ a, x ≠ .coreError a) →
    Does (.riscvInstruction h (BitVec.ofNat 32 (mkJ rd.val (2 * k.val))) x) r fun t => t = retireTo (xw s h.val rd.val ((hartGet s h.val).pc + 4)) h.val (w64 ((hartGet s h.val).pc + sx 21 (2 * k.val))))
  ∧ (∀ (h : Fin 512) (rs1 rs2 : Fin 32) (k : Fin 4096) (x : RvHap) (r s : State), HartReady r h.val s →
    fetchFault s h.val 4 = none → (∀ a, x ≠ .coreError a) →
    Does (.riscvInstruction h (BitVec.ofNat 32 (mkB 0 rs1.val rs2.val (2 * k.val))) x) r fun t => t = retireTo s h.val (if xr s h.val rs1.val = xr s h.val rs2.val then w64 ((hartGet s h.val).pc + sx 13 (2 * k.val)) else w64 ((hartGet s h.val).pc + 4)))
  ∧ (∀ (h : Fin 512) (rs1 rs2 : Fin 32) (i : Fin 4096) (a : Nat) (x : RvHap) (r s : State), HartReady r h.val s →
    fetchFault s h.val 4 = none → (∀ a, x ≠ .coreError a) → a = w64 (xr s h.val rs1.val + sx 12 i.val) →
    memCheck s h.val a 8 .store false = none →
    Does (.riscvInstruction h (BitVec.ofNat 32 (mkS 0x23 3 rs1.val rs2.val i.val)) x) r fun t => t = retireTo (memPut s h.val a 8 (xr s h.val rs2.val)) h.val (w64 ((hartGet s h.val).pc + 4)))
  ∧ (∀ (h : Fin 512) (rd rs1 : Fin 32) (i : Fin 4096) (a v : Nat) (x : RvHap) (r s u : State), HartReady r h.val s →
    fetchFault s h.val 4 = none → (∀ a, x ≠ .coreError a) → a = w64 (xr s h.val rs1.val + sx 12 i.val) →
    memCheck s h.val a 8 .load false = none → loadPoisoned s a 8 x = false → memGet s h.val a 8 = (v, u) →
    Does (.riscvInstruction h (BitVec.ofNat 32 (mkI 0x03 rd.val 3 rs1.val i.val)) x) r fun t => t = retireTo (xw u h.val rd.val (sx 64 v)) h.val (w64 ((hartGet s h.val).pc + 4)))
  ∧ (∀ (h : Fin 512) (x : RvHap) (r s : State), HartReady r h.val s → fetchFault s h.val 4 = none →
    (∀ a, x ≠ .coreError a) →
    Does (.riscvInstruction h 0x73 x) r fun t => t = trapEnter s h.val (if (hartGet s h.val).mmode then 11 else 8) false 0)
  ∧ (∀ (h : Fin 512) (x : RvHap) (r s : State), HartReady r h.val s → fetchFault s h.val 2 = none →
    (∀ a, x ≠ .coreError a) → Does (.riscvInstruction h 0 x) r fun t => t = trapEnter s h.val 2 false 0)
  ∧ (∀ (h : Fin 512) (w : BitVec 32) (x : RvHap) (a : Nat) (r s : State), HartReady r h.val s →
    fetchFault s h.val (rvExpand w.toNat).1 = some a → (∀ a, x ≠ .coreError a) →
    Does (.riscvInstruction h w x) r fun t => t = trapEnter s h.val 1 false a)
  ∧ (∀ (s : State) (h cause tval : Nat) (intr : Bool) (t : State), t = trapEnter s h cause intr tval →
    csrRaw t h csrMepc = w64 (hartGet s h).pc ∧ csrRaw t h csrMtval = w64 tval
    ∧ csrRaw t h csrMcause = w64 (cause + if intr then 2 ^ 63 else 0)
    ∧ bit (csrRaw t h csrMstatus) 3 = false ∧ bit (csrRaw t h csrMstatus) 7 = bit (csrRaw s h csrMstatus) 3
    ∧ (hartGet t h).mmode = true ∧ (hartGet t h).resv = none
    ∧ (hartGet t h).pc = w64 (csrRaw s h csrMtvec / 4 * 4
        + if intr && csrRaw s h csrMtvec % 4 = 1 then 4 * cause else 0)
    ∧ (hartGet t h).x = (hartGet s h).x ∧ (hartGet t h).f = (hartGet s h).f
    ∧ (hartGet t h).staging = (hartGet s h).staging ∧ (hartGet t h).recv = (hartGet s h).recv
    ∧ (∀ k, k ≠ h → hartGet t k = hartGet s k) ∧ t.fil.chan = s.fil.chan ∧ t.fil.scratch = s.fil.scratch ∧ t.hbm = s.hbm)

/-- TU: capture and set. Rules R530, R532, R533, R534. Completes (exec answers a next state, by the effect of its own
rule), a clause each: timeCapture, timeSet. What rests on a choice of the model here: log entries 107. -/
def Obligations.TimeCaptureAndSet : Prop :=
  (∀ (s : State), Awake s →
    Does .timeCapture s fun t => ∃ e : Int, e.natAbs ≤ accSnap ∧ t.rd R.TU_SNAP_SEC_LO.SEC_LO [] = tsSec (tsShift (s.tu.t / 65536) e) % 2 ^ 32 % 2 ^ R.TU_SNAP_SEC_LO.SEC_LO.width ∧ t.rd R.TU_SNAP_SEC_HI.SEC_HI [] = tsSec (tsShift (s.tu.t / 65536) e) / 2 ^ 32 % 2 ^ R.TU_SNAP_SEC_HI.SEC_HI.width ∧ t.rd R.TU_SNAP_NS.NS [] = tsNs (tsShift (s.tu.t / 65536) e) % 2 ^ R.TU_SNAP_NS.NS.width ∧ t.rd R.TU_SNAP_FRAC.FRAC [] = tsFrac (tsShift (s.tu.t / 65536) e) % 2 ^ R.TU_SNAP_FRAC.FRAC.width ∧ t.tu = s.tu)
  ∧ (∀ (v : Nat) (neg : Bool) (s : State), Awake s →
    v = tsMake (s.rd R.TU_SET_SEC_LO.SEC_LO [] + 2 ^ 32 * s.rd R.TU_SET_SEC_HI.SEC_HI []) (s.rd R.TU_SET_NS.NS []) (s.rd R.TU_SET_FRAC.FRAC []) * 65536 →
    Does (.timeSet false neg) s fun t => t.tu.t = v % tuSpan ∧ t.rd R.TU_STEP.STEP_COUNT [] = (s.rd R.TU_STEP.STEP_COUNT [] + 1) % 2 ^ R.TU_STEP.STEP_COUNT.width ∧ t.rd R.TU_STEP_MTIME.MTIME [0] = s.mtime % 2 ^ 32 ∧ t.tu.setAt = some s.now)
  ∧ (∀ (v : Nat) (neg : Bool) (s : State), Awake s →
    v = tsMake (s.rd R.TU_SET_SEC_LO.SEC_LO [] + 2 ^ 32 * s.rd R.TU_SET_SEC_HI.SEC_HI []) (s.rd R.TU_SET_NS.NS []) (s.rd R.TU_SET_FRAC.FRAC []) * 65536 →
    Does (.timeSet true neg) s fun t => (t.tu.t : Int) = ((s.tu.t : Int) + if neg then -(v : Int) else (v : Int)) % (tuSpan : Int))

/-- TU: samples, the servo and its modes. Rules R531, R545, R546, R547, R553. Completes (exec answers a next state, by
the effect of its own rule), a clause each: sampleCommit, servoHoldTimeout, servoModeWrite. What rests on a choice
of the model here: log entries 109, 110, 166. -/
def Obligations.ServoOfTheTimeUnit : Prop :=
  (∀ (kind : Bool) (s u : State), Awake s → u = s.wr R.TU_SMP_CTL.KIND [] (b2n kind) →
    s.flag R.TU_STATUS.SMP_BUSY [] = true → Does (.sampleCommit kind) s fun t => t = u.inc R.TU_CNT.COUNT [1])
  ∧ (∀ (d off : Int) (s u v : State), Awake s → u = engineBusy (s.wr R.TU_SMP_CTL.KIND [] 1) →
    s.flag R.TU_STATUS.SMP_BUSY [] = false →
    (d = ((s.rd R.TU_SMP_DELAY.DELAY [] * 256 : Nat) : Int) ∧ d ≤ 16700000 * 65536) →
    off = smpTime s 1 - smpTime s 0 - d → v = (u.wr R.TU_OUT_DLY.DELAY [] (d.toNat / 256)).inc R.TU_CNT.COUNT [0] →
    Does (.sampleCommit true) s fun t => t = (if isMember v then v.wr R.TU_OUT_OFF.OFFSET [] (ofSigned 32 (satSigned 32 (asr off 8))) else if v.rd R.TU_SERVO.SRC [] = 0 then onOffset v off else v) ∧ u.flag R.TU_STATUS.SMP_BUSY [] = true ∧ u.tu.busyUntil = s.now + 10000)
  ∧ (∀ (s u : State), Awake s →
    (s.rd R.TU_STATUS.SERVO_STATE [] = svLocking ∨ s.rd R.TU_STATUS.SERVO_STATE [] = svLocked) →
    u = clockTo s (s.tu.offAt + max 1 (s.rd R.TU_SERVO_LIM.HOLD_TMO []) * 10000000) →
    u.rd R.TU_STATUS.SERVO_STATE [] = s.rd R.TU_STATUS.SERVO_STATE [] →
    Does .servoHoldTimeout s fun t => t.tu = { u.tu with out := u.tu.integ } ∧ t.rd R.TU_STATUS.SERVO_STATE [] = svHoldover ∧ t.rd R.TU_CNT.COUNT [4] = (u.rd R.TU_CNT.COUNT [4] + 1) % 2 ^ R.TU_CNT.COUNT.width)
  ∧ (∀ (m : Fin 8) (s : State), Awake s → (m.val = 1 ∨ m.val = 3) → s.rd R.TU_STATUS.SERVO_STATE [] = svFree →
    Does (.servoModeWrite m) s fun t => t.rd R.TU_SERVO.MODE [] = m.val ∧ t.rd R.TU_STATUS.SERVO_STATE [] = svLocking ∧ t.tu = { s.tu with integ := tuFreq s, good := 0, offAt := s.now })
  ∧ (∀ (m : Fin 8) (s : State), Awake s → (m.val = 0 ∨ m.val = 2) →
    Does (.servoModeWrite m) s fun t => t.rd R.TU_SERVO.MODE [] = m.val ∧ t.rd R.TU_STATUS.SERVO_STATE [] = svFree ∧ t.tu = { s.tu with out := 0 })
  ∧ (∀ (m : Fin 8) (s : State), Awake s → 4 ≤ m.val →
    Does (.servoModeWrite m) s fun t => t = s.wr R.TU_STATUS.CFG_ERR [] 1)
  ∧ (∀ (s : State) (off : Int),
    ((s.rd R.TU_SERVO.MODE [] = 0 ∨ s.rd R.TU_SERVO.MODE [] = 2) → onOffset s off = s)
    ∧ (s.rd R.TU_SERVO.MODE [] = 1 ∨ s.rd R.TU_SERVO.MODE [] = 3 →
      (s.rd R.TU_STEP_THRESH.STEP_THRESH [] * 65536 < off.natAbs ∧ s.flag R.TU_SERVO.STEP_EN [] = true
          ∧ s.tu.setAt ≠ some s.now →
        (onOffset s off).tu.t = (((s.tu.t : Int) - off * 65536) % (tuSpan : Int)).toNat
        ∧ (onOffset s off).rd R.TU_STATUS.SERVO_STATE [] = svLocking ∧ (onOffset s off).tu.good = 0)
      ∧ (off.natAbs ≤ s.rd R.TU_STEP_THRESH.STEP_THRESH [] * 65536 ∨ s.flag R.TU_SERVO.STEP_EN [] = false →
        (onOffset s off).tu.integ = clampInt (s.tu.integ - asr off (s.rd R.TU_SERVO.KI_SHIFT [])) (maxFreq s)
        ∧ (onOffset s off).tu.out
            = clampInt ((onOffset s off).tu.integ - asr off (s.rd R.TU_SERVO.KP_SHIFT [])) (maxFreq s)
        ∧ (onOffset s off).tu.t = s.tu.t)))

/-- TU: PPS and synchronous Ethernet. Rules R548, R549, R551, R507. Completes (exec answers a next state, by the effect
of its own rule), a clause each: ppsInEdge, ppsOutEdge, eecRefQualified, eecRefLost, synceEnableWrite. What rests on
a choice of the model here: log entries 107, 111, 179. -/
def Obligations.TimePulses : Prop :=
  (∀ (s : State), Awake s → s.flag R.TU_PPS.IN_EN [] = true → (s.rd R.TU_SERVO.SRC [] ≠ 1 ∨ isMember s = true) →
    Does .ppsInEdge s fun t => ∃ e : Int, e.natAbs ≤ accSnap ∧ t.rd R.TU_PPS_IN_SEC_LO.SEC_LO [] = tsSec (tsShift (s.tu.t / 65536) e) % 2 ^ 32 % 2 ^ R.TU_PPS_IN_SEC_LO.SEC_LO.width ∧ t.rd R.TU_PPS_IN_NS.NS [] = tsNs (tsShift (s.tu.t / 65536) e) % 2 ^ R.TU_PPS_IN_NS.NS.width ∧ t.rd R.TU_CNT.COUNT [5] = (s.rd R.TU_CNT.COUNT [5] + 1) % 2 ^ R.TU_CNT.COUNT.width ∧ t.tu = s.tu)
  ∧ (∀ (s : State), Awake s → s.flag R.TU_PPS.IN_EN [] = true → (s.rd R.TU_SERVO.SRC [] = 1 ∧ isMember s = false) →
    Does .ppsInEdge s fun t => ∃ (u : State) (n : Nat), u.rd R.TU_CNT.COUNT [5] = (s.rd R.TU_CNT.COUNT [5] + 1) % 2 ^ R.TU_CNT.COUNT.width ∧ u.tu = s.tu ∧ n < 1000000000 ∧ t = onOffset u ((if n < 500000000 then (n : Int) else (n : Int) - 1000000000) * 65536))
  ∧ (∀ (s u : State), Awake s → s.flag R.TU_CFG.EN [] = true → u = clockTo s (ppsNext s) →
    Does .ppsOutEdge s fun t => (∀ h : Fin 512, bit (hartGet t h.val).ev 51 = true) ∧ t.out = u.out ++ (if u.flag R.TU_PPS.OUT_EN [] = true then [.pin .ppsOut true] else []))
  ∧ (∀ (q : BitVec 32) (s : State), Awake s → s.flag R.TU_SYNCE.EN [] = true →
    s.rd R.TU_STATUS.EEC_STATE [] ≠ eecLocked → (eecLaneOk s 0 = true ∧ eecInRange q.toInt = true) →
    Does (.eecRefQualified (some q) none) s fun t => t.flag R.TU_SYNCE_ST.REF0_OK [] = true ∧ t.rd R.TU_STATUS.EEC_STATE [] = eecLocked ∧ t.rd R.TU_STATUS.EEC_REF [] = 0 ∧ t.tu.eec = q.toInt)
  ∧ (∀ (r : Fin 2) (a : BitVec 32) (s : State), Awake s →
    (s.rd R.TU_STATUS.EEC_STATE [] = eecLocked ∧ s.rd R.TU_STATUS.EEC_REF [] = r.val) →
    eecLaneOk s (1 - r.val) = false →
    Does (.eecRefLost r a) s fun t => t.rd R.TU_STATUS.EEC_STATE [] = eecHoldover ∧ t.tu = { s.tu with eec := a.toInt })
  ∧ (∀ (s : State), Awake s → Does (.synceEnableWrite true) s fun t => t = s.wr R.TU_SYNCE.EN [] 1)
  ∧ (∀ (s : State), Awake s →
    Does (.synceEnableWrite false) s fun t => t.flag R.TU_SYNCE.EN [] = false ∧ t.rd R.TU_STATUS.EEC_STATE [] = eecFreeRun ∧ t.tu = { s.tu with eec := 0 })

/-- Reeve: samples, the thermal state and voltages. Rules R584, R585, R586, R587, R588, R589, R590. Completes (exec
answers a next state, by the effect of its own rule), a clause each: tempSample, voltSample, avsUpdate,
criticalRecovery. What rests on a choice of the model here: log entries 6, 126. -/
def Obligations.ThermalAndVoltageStates : Prop :=
  (∀ (i : Fin 64) (raw : BitVec 16) (s u : State), (bellman s = false ∧ s.pwr.dark = false) →
    u = tempPut s i.val raw.toNat → nextTstate u (u.rd R.REV_STATUS.TSTATE []) = u.rd R.REV_STATUS.TSTATE [] →
    Does (.tempSample i raw) s fun t => t = u ∧ t.rd R.REV_TEMP.RAW [i.val] = raw.toNat ∧ t.rd R.REV_TEMP.FILT [i.val] = bits16 (if bit s.rev.tempSeen i.val then filterStep (tempFilt s i.val) (toSigned 16 raw.toNat) (s.rd R.REV_CFG.K_TEMP []) else toSigned 16 raw.toNat))
  ∧ (∀ (i : Fin 64) (raw : BitVec 16) (n : Nat) (s u : State), (bellman s = false ∧ s.pwr.dark = false) →
    u = tempPut s i.val raw.toNat →
    (n = nextTstate u (u.rd R.REV_STATUS.TSTATE []) ∧ n ≠ u.rd R.REV_STATUS.TSTATE []) →
    Does (.tempSample i raw) s fun t => t = enterTstate u n)
  ∧ (∀ (m : Fin 48) (raw : BitVec 16) (s : State), (bellman s = false ∧ s.pwr.dark = false) →
    s.flag R.REV_VTH_W1.EN [m.val] = false →
    (bit s.rev.belowWarn m.val = false ∧ bit s.rev.faulted m.val = false) →
    Does (.voltSample m raw) s fun t => t.rd R.REV_VOLT.RAW [m.val] = raw.toNat ∧ t.rd R.REV_VOLT.FILT [m.val] = voltNext s m.val raw.toNat % 2 ^ R.REV_VOLT.FILT.width ∧ t.rd R.REV_STATUS.VFAULT [] = s.rd R.REV_STATUS.VFAULT [] ∧ t.out = s.out)
  ∧ (∀ (m : Fin 48) (raw : BitVec 16) (y : Nat) (s u v : State), (bellman s = false ∧ s.pwr.dark = false) →
    (y = voltNext s m.val raw.toNat ∧ u = voltPut s m.val raw.toNat) →
    (voltWarn u m.val y = false ∧ voltBad u m.val y = true ∧ bit u.rev.faulted m.val = false) →
    v = putRev u { u.rev with belowWarn := setBit u.rev.belowWarn m.val false, faulted := setBit u.rev.faulted m.val true } →
    Does (.voltSample m raw) s fun t => t = reeveStandby (voltReport (v.wr R.REV_STATUS.VFAULT [] 1) m.val y 3) .vfault)
  ∧ (∀ (v c g : Nat) (s u : State), (bellman s = false ∧ s.pwr.dark = false) → s.flag R.REV_CFG.AVS_EN [] = true →
    u = clockTo s (s.rev.avsAt + 10000000) →
    c = (if u.rd R.REV_AVS.TARGET_MV [] = 0 then 800 else u.rd R.REV_AVS.TARGET_MV []) →
    (g = max 650 (min 850 (Config.avsCurve (deviceTemp u))) ∧ v = max (c - 10) (min (c + 10) g)) →
    Does .avsUpdate s fun t => t.rd R.REV_AVS.TARGET_MV [] = v % 2 ^ R.REV_AVS.TARGET_MV.width ∧ t.out = u.out ++ [.vout v] ∧ v ≤ c + 10 ∧ c ≤ v + 10 ∧ t.rev.avsAt = u.now)
  ∧ (∀ (s : State), (bellman s = false ∧ s.pwr.dark = false) → (pwrSt s = psStandby ∧ s.pwr.sby = .critical) →
    deviceTemp s < threshold s 1 - hyst s → Does .criticalRecovery s fun t => t = wake s 7)
  ∧ (∀ (s : State) (c : Nat), c ≤ 3 →
    nextTstate s c ≤ 3
    ∧ (∀ k, 1 ≤ k → k ≤ 3 → c < k → threshold s k ≤ deviceTemp s → k ≤ nextTstate s c)
    ∧ (nextTstate s c < c → nextTstate s c + 1 = c ∧ deviceTemp s < threshold s c - hyst s)
    ∧ (0 < c → deviceTemp s < threshold s c - hyst s → (∀ k, c < k → k ≤ 3 → deviceTemp s < threshold s k) →
        (∀ k, 1 ≤ k → k ≤ c → deviceTemp s < threshold s k) → nextTstate s c + 1 = c))

/-- Reeve: failure reports, retirement and its clearing. Rules R592, R593, R595, R596, R602, R523. Completes (exec
answers a next state, by the effect of its own rule), a clause each: failureReport, coreEccError, retirementClear,
bellHb. What rests on a choice of the model here: log entries 127, 132. -/
def Obligations.FailuresAndRetirement : Prop :=
  (∀ (k : Fin 16) (u : Fin 4096) (row : BitVec 32) (l : List Nat) (s : State),
    (bellman s = false ∧ s.pwr.dark = false) → isRetired s k.val u.val = true → u.val < classUnits k.val →
    Does (.failureReport k u row l) s fun t => t = s.inc R.REV_CNT.COUNT [7])
  ∧ (∀ (k : Fin 16) (u : Fin 4096) (row : BitVec 32) (l : List Nat) (s : State),
    (bellman s = false ∧ s.pwr.dark = false) → (isRetired s k.val u.val = false ∧ u.val < classUnits k.val) →
    failedNow s k.val u.val = false → (k.val ≠ 2 ∧ s.rd R.REV_CLASS_W0.COUNT_MAX [k.val] = 0) →
    Does (.failureReport k u row l) s fun t => t.rev.fails = s.rev.fails ++ [{ cls := k.val, unit := u.val, ms := s.nowMs, shown := true, cycle := ctlCycle s + 1 }] ∧ t.rev.failLogged = true ∧ isRetired t k.val u.val = false ∧ t.rd R.REV_CNT.COUNT [0] = (s.rd R.REV_CNT.COUNT [0] + 1) % 2 ^ R.REV_CNT.COUNT.width)
  ∧ (∀ (k : Fin 16) (u : Fin 4096) (row : BitVec 32) (l : List Nat) (s : State),
    (bellman s = false ∧ s.pwr.dark = false) → (isRetired s k.val u.val = false ∧ u.val < classUnits k.val) →
    failedNow s k.val u.val = true → Does (.failureReport k u row l) s fun t => t = s)
  ∧ (∀ (u : Fin 4096) (row : BitVec 32) (l : List Nat) (s v : State), (bellman s = false ∧ s.pwr.dark = false) →
    countFailure s 5 u.val row.toNat l = (v, true) → u.val < 64 →
    Does (.failureReport 5 u row l) s fun t => t = retireCore v u.val)
  ∧ (∀ (c : Fin 64) (s : State), (bellman s = false ∧ s.pwr.dark = false) →
    Does (.coreEccError c) s fun t => t = failUnit (s.inc R.FIL_CNT.COUNT [10]) 5 c.val 0 [])
  ∧ (∀ (m : MDom) (kind : Fin 8) (u : Fin 4096) (s : State), Awake s → Allowed s m →
    u.val < classUnits (retKind kind.val) → isRetired s (retKind kind.val) u.val = true →
    (retKind kind.val, u.val) ∉ s.rev.clears →
    Does (.retirementClear m kind u 0x3C5A) s fun t => t.rev.clears = s.rev.clears ++ [(retKind kind.val, u.val)] ∧ isRetired t (retKind kind.val) u.val = true)
  ∧ (∀ (m : MDom) (kind : Fin 8) (u : Fin 4096) (key : BitVec 16) (s : State), Awake s → Allowed s m →
    (key.toNat ≠ 0x3C5A ∨ classUnits (retKind kind.val) ≤ u.val ∨ isRetired s (retKind kind.val) u.val = false) →
    Does (.retirementClear m kind u key) s fun t => t = s.inc R.REV_CNT.COUNT [8])
  ∧ (∀ (s : State), (bellman s = false ∧ s.pwr.dark = false) →
    Does (.bellHb 0x7E1A) s fun t => t = { s with rev := { s.rev with hbAt := s.now } })
  ∧ (∀ (key : BitVec 16) (s : State), (bellman s = false ∧ s.pwr.dark = false) → key ≠ 0x7E1A#16 →
    Does (.bellHb key) s fun t => t = s)

/-- Bellman: taking control. Rules R600, R601, R603, R604. Completes (exec answers a next state, by the effect of its
own rule), a clause each: lockstepMismatch, heartbeatExpiry, thermalTrip. What rests on a choice of the model here:
log entries 6, 128. -/
def Obligations.BellmanControl : Prop :=
  (∀ (s : State), (bellman s = false ∧ s.pwr.dark = false) →
    Does .lockstepMismatch s fun t => t.rev.inControl = some 1 ∧ t.rev.bellSeq = s.rev.bellSeq + 1 ∧ t.pwr.phase = .none ∧ bellman t = true)
  ∧ (∀ (s : State), (bellman s = false ∧ s.pwr.dark = false) → s.rev.armed = true →
    Does .heartbeatExpiry s fun t => t.rev.inControl = some 2 ∧ t.rev.bellSeq = s.rev.bellSeq + 1 ∧ t.pwr.phase = .none ∧ bellman t = true)
  ∧ (∀ (i : Fin 64) (s : State), (bellman s = false ∧ s.pwr.dark = false) → bit s.rev.trip2 i.val = true →
    Does (.thermalTrip i) s fun t => t.rev.inControl = some 3 ∧ t.rev.bellSeq = s.rev.bellSeq + 1 ∧ t.pwr.phase = .none ∧ bellman t = true)
  ∧ (∀ (s : State), s.rev.armed = false → Does .heartbeatExpiry s fun t => t = s)

/-- Reeve: MCTP control and PLDM messages. Rules R597, R598. Completes (exec answers a next state, by the effect of its
own rule), a clause each: setEndpointId, getEndpointId, getMctpVersionSupport, getMessageTypeSupport,
getVendorDefinedMessageSupport, gettid, getpldmversion, getpldmtypes, getpldmcommands, getpdrrepositoryinfo, getpdr,
getsensorreading, getstatesensorreadings, seteventreceiver. What rests on a choice of the model here: log entries
18, 130, 131. -/
def Obligations.ManagementEndpoint : Prop :=
  (∀ (inst : BitVec 5) (op : BitVec 2) (eid : BitVec 8) (s : State), reeveRuns s = true →
    (op.toNat < 2 ∧ eid ≠ 0 ∧ eid ≠ 0xFF) →
    Does (.setEndpointId inst op eid) s fun t => t = ({ s with rev := { s.rev with eid := eid.toNat } }).emit (.mctp [0x00, byteOf inst.toNat, 0x01, 0x00, 0x00, byteOf eid.toNat, 0x00]))
  ∧ (∀ (inst : BitVec 5) (op : BitVec 2) (eid : BitVec 8) (s : State), reeveRuns s = true →
    (2 ≤ op.toNat ∨ eid = 0 ∨ eid = 0xFF) →
    Does (.setEndpointId inst op eid) s fun t => t = s.emit (.mctp ([0x00, byteOf inst.toNat, 0x01] ++ [0x02])))
  ∧ (∀ (inst : BitVec 5) (s : State), reeveRuns s = true →
    Does (.getEndpointId inst) s fun t => t = s.emit (.mctp ([0x00, byteOf inst.toNat, 0x02] ++ [0x00, byteOf s.rev.eid, 0x00, 0x00])))
  ∧ (∀ (inst : BitVec 5) (ty : BitVec 8) (s : State), reeveRuns s = true → (ty = 0xFF ∨ ty = 0 ∨ ty ∈ msgTypes) →
    Does (.getMctpVersionSupport inst ty) s fun t => t = s.emit (.mctp ([0x00, byteOf inst.toNat, 0x04] ++ [0x00, 1, 0xF1, 0xF3, 0xF1, 0x00])))
  ∧ (∀ (inst : BitVec 5) (ty : BitVec 8) (s : State), reeveRuns s = true → (ty ≠ 0xFF ∧ ty ≠ 0 ∧ ty ∉ msgTypes) →
    Does (.getMctpVersionSupport inst ty) s fun t => t = s.emit (.mctp ([0x00, byteOf inst.toNat, 0x04] ++ [0x80])))
  ∧ (∀ (inst : BitVec 5) (s : State), reeveRuns s = true →
    Does (.getMessageTypeSupport inst) s fun t => t = s.emit (.mctp ([0x00, byteOf inst.toNat, 0x05] ++ [0x00, 4, 0x01, 0x05, 0x06, 0x7E])))
  ∧ (∀ (inst : BitVec 5) (s : State), reeveRuns s = true →
    Does (.getVendorDefinedMessageSupport inst 0) s fun t => t = s.emit (.mctp ([0x00, byteOf inst.toNat, 0x06] ++ [0x00, 0xFF, 0x00, 0xAC, 0x4E, 0x00, 0x00])))
  ∧ (∀ (inst : BitVec 5) (s : State), reeveRuns s = true →
    Does (.gettid inst) s fun t => t = s.emit (.mctp ([0x01, byteOf inst.toNat, 0, 0x02] ++ [0x00, 0x00])))
  ∧ (∀ (inst : BitVec 5) (v : Bytes) (ty : BitVec 8) (s : State), reeveRuns s = true →
    (ty = 0 ∧ v = [0xF1, 0xF1, 0xF0, 0x00]) ∨ (ty = 2 ∧ v = [0xF1, 0xF2, 0xF0, 0x00]) →
    Does (.getpldmversion inst 1 ty) s fun t => t = s.emit (.mctp ([0x01, byteOf inst.toNat, 0, 0x03] ++ ([0x00, 0, 0, 0, 0, 0x05] ++ v ++ leBytes 4 (crc32 v)))))
  ∧ (∀ (inst : BitVec 5) (flag ty : BitVec 8) (s : State), reeveRuns s = true → flag ≠ 1 →
    Does (.getpldmversion inst flag ty) s fun t => t = s.emit (.mctp ([0x01, byteOf inst.toNat, 0, 0x03] ++ [0x81])))
  ∧ (∀ (inst : BitVec 5) (s : State), reeveRuns s = true →
    Does (.getpldmtypes inst) s fun t => t = s.emit (.mctp ([0x01, byteOf inst.toNat, 0, 0x04] ++ ([0x00] ++ leBytes 8 0x05))))
  ∧ (∀ (inst : BitVec 5) (ty : BitVec 8) (s : State), reeveRuns s = true → (ty = 0 ∨ ty = 2) →
    Does (.getpldmcommands inst ty) s fun t => t = s.emit (.mctp ([0x01, byteOf inst.toNat, 0, 0x05] ++ ([0x00] ++ leBytes 32 (pldmCmds ty.toNat)))))
  ∧ (∀ (inst : BitVec 5) (s : State), reeveRuns s = true →
    Does (.getpdrrepositoryinfo inst) s fun t => t = s.emit (.mctp ([0x01, byteOf inst.toNat, 2, 0x50] ++ ([0x00, 0x00] ++ List.replicate 26 0 ++ leBytes 4 117 ++ leBytes 4 pdrSizes.sum ++ leBytes 4 (pdrSizes.foldl max 0) ++ [0]))))
  ∧ (∀ (inst : BitVec 5) (handle part : BitVec 32) (count : BitVec 16) (id : Nat) (r : Bytes) (s : State),
    reeveRuns s = true → (id = (if handle.toNat = 0 then 1 else handle.toNat) ∧ id ≤ pdrCount) →
    (r = pdrRecord id ∧ r.length ≤ count.toNat) →
    Does (.getpdr inst handle part 1 count) s fun t => t = s.emit (.mctp ([0x01, byteOf inst.toNat, 2, 0x51] ++ (0x00 :: leBytes 4 (if id = pdrCount then 0 else id + 1) ++ leBytes 4 0 ++ [5] ++ leBytes 2 r.length ++ r))))
  ∧ (∀ (inst : BitVec 5) (handle part : BitVec 32) (flag : BitVec 8) (count : BitVec 16) (s : State),
    reeveRuns s = true → pdrCount < handle.toNat →
    Does (.getpdr inst handle part flag count) s fun t => t = s.emit (.mctp ([0x01, byteOf inst.toNat, 2, 0x51] ++ [0x82])))
  ∧ (∀ (inst : BitVec 5) (id : BitVec 16) (s : State), reeveRuns s = true → (1 ≤ id.toNat ∧ id.toNat ≤ 64) →
    Does (.getsensorreading inst id) s fun t => t = s.emit (.mctp ([0x01, byteOf inst.toNat, 2, 0x11] ++ ([0x00, 3, 0, 0, 1, 1, 1] ++ leBytes 2 (s.rd R.REV_TEMP.FILT [id.toNat - 1])))))
  ∧ (∀ (inst : BitVec 5) (id : BitVec 16) (m : Fin 48) (x : Nat) (s : State), reeveRuns s = true →
    id.toNat = 66 + m.val →
    x = (if bit s.rev.faulted m.val then 3 else if bit s.rev.belowWarn m.val then 2 else 1) →
    Does (.getsensorreading inst id) s fun t => t = s.emit (.mctp ([0x01, byteOf inst.toNat, 2, 0x11] ++ ([0x00, 2, 0, 0, byteOf x, byteOf x, byteOf x] ++ leBytes 2 (s.rd R.REV_VOLT.FILT [m.val])))))
  ∧ (∀ (inst : BitVec 5) (id : BitVec 16) (s : State), reeveRuns s = true → id.toNat = 114 →
    Does (.getsensorreading inst id) s fun t => t.rev = s.rev ∧ t.freeCtr = s.freeCtr + 1 ∧ t.out = s.out ++ [.mctp ([0x01, byteOf inst.toNat, 2, 0x11] ++ ([0x00, 4, 0, 0, 1, 1, 1] ++ leBytes 4 (s.freeBits 32).1))])
  ∧ (∀ (inst : BitVec 5) (id : BitVec 16) (v : Nat) (s : State), reeveRuns s = true →
    (id.toNat = 115 ∧ v = pwrSt s) ∨ (id.toNat = 116 ∧ v = s.rd R.REV_STATUS.TSTATE []) ∨ (id.toNat = 117 ∧ v = faultState s) →
    Does (.getstatesensorreadings inst id) s fun t => t = s.emit (.mctp ([0x01, byteOf inst.toNat, 2, 0x21] ++ [0x00, 1, 0, byteOf v, byteOf v, byteOf v])))
  ∧ (∀ (inst : BitVec 5) (id : BitVec 16) (s : State), reeveRuns s = true → (id.toNat < 115 ∨ 117 < id.toNat) →
    Does (.getstatesensorreadings inst id) s fun t => t = s.emit (.mctp ([0x01, byteOf inst.toNat, 2, 0x21] ++ [0x80])))
  ∧ (∀ (inst : BitVec 5) (eid : BitVec 8) (s : State), reeveRuns s = true → s.rev.causeEvent = false →
    Does (.seteventreceiver inst 1 0 eid) s fun t => t = ({ s with rev := { s.rev with evRecv := some eid.toNat } }).emit (.mctp [0x01, byteOf inst.toNat, 2, 0x04, 0x00]))

/-- Reeve: the vendor messages. Rules R599, R604, R605. Completes (exec answers a next state, by the effect of its own
rule), a clause each: mctpWake, mctpWarm, mctpCold, readLog, readCause. What rests on a choice of the model here:
log entries 130, 131. -/
def Obligations.ManagementMessages : Prop :=
  (∀ (sess : Option (BitVec 32)) (s : State), reeveRuns s = true →
    Does (.mctpWake sess) s fun t => t = wake (vdmRsp s sess 0x01 0 []) 5)
  ∧ (∀ (sess : Option (BitVec 32)) (s : State), reeveRuns s = true → inSession s sess = true →
    Does (.mctpWarm sess) s fun t => t = warmReset (vdmRsp s sess 0x02 0 []) 2)
  ∧ (∀ (sess : Option (BitVec 32)) (s : State), reeveRuns s = true → inSession s sess = true →
    Does (.mctpCold sess) s fun t => t = coldReset (vdmRsp s sess 0x03 0 []) false 2 2)
  ∧ (∀ (sess : Option (BitVec 32)) (s : State), reeveRuns s = true → inSession s sess = false →
    Does (.mctpCold sess) s fun t => t = vdmRsp s sess 0x03 2 [])
  ∧ (∀ (start : BitVec 8) (s : State), reeveRuns s = true →
    Does (.readLog none start) s fun t => t = s.emit (.mctp ([0x7E, 0xAC, 0x4E, 0x04, 0x00] ++ (List.range 16).flatMap (fun i => (List.range 4).flatMap (fun w => leBytes 4 (s.rd R.REV_LOG.ENTRY [(start.toNat + i) % 256, w]))))))
  ∧ (∀ (s : State), reeveRuns s = true →
    Does (.readCause none) s fun t => t = s.emit (.mctp ([0x7E, 0xAC, 0x4E, 0x05, 0x00] ++ (List.range 16).flatMap (fun i => slice (s.rev.records.reverse.getD i []) 0 16))))

/-- Secure boot: images, readiness and fuses. Rules R611, R613, R614, R616, R619, R620. Completes (exec answers a next
state, by the effect of its own rule), a clause each: reeveImageLoaded, filbertImageLoaded, fwReady, bootComplete.
What rests on a choice of the model here: log entries 133, 134. -/
def Obligations.SecureBoot : Prop :=
  (∀ (b : Bytes) (c : Nat) (s u : State), (bellman s = false ∧ s.pwr.dark = false ∧ stage s = stRom) →
    u = { s with rev := { s.rev with hbAt := s.now } } → c = checkImage u tyReeve b (payloadOf b) →
    Does (.reeveImageLoaded (.ok b)) s fun t => (c = 0 → t.rd R.DBG_BOOT.STAGE [] = stReeve ∧ t.rd R.DBG_BOOT.SLOT_R [] = (s.trust.firstR + s.trust.triedR) % 2 % 2 ^ R.DBG_BOOT.SLOT_R.width ∧ t.trust = { s.trust with imgR := some (imgOf b) }) ∧ (c ≠ 0 → t = rejectReeve u c))
  ∧ (∀ (s : State), (bellman s = false ∧ s.pwr.dark = false ∧ stage s = stRom) → s.trust.triedR = 0 →
    Does (.reeveImageLoaded .error) s fun t => t.rd R.DBG_BOOT.FAIL [] = 7 ∧ t.trust.triedR = 1 ∧ stage t = stRom)
  ∧ (∀ (b : Bytes) (c : Nat) (s u : State), (reeveRuns s = true ∧ stage s = stReeve ∧ asleep s = false) →
    (c = checkHeader s tyFilbert b ∧ c ≠ 0) → Does (.filbertImageLoaded (.ok b)) s fun t => t = rejectFilbert s c)
  ∧ (∀ (b : Bytes) (c : Nat) (s u : State) (a : Nat), (reeveRuns s = true ∧ stage s = stReeve ∧ asleep s = false) →
    c = checkHeader s tyFilbert b →
    (u = s.hbmWrite a (payloadOf b) ∧ region (loadAddr b) (payloadLen b) = .hbm a) →
    Does (.filbertImageLoaded (.ok b)) s fun t => c = 0 → t = (if sha384 (u.hbmRead a (payloadLen b)) = slice b 48 48 then startFilbert u b else rejectFilbert u 6))
  ∧ (∀ (m : Img) (s : State), Awake s → (stage s = stFilbert ∧ s.flag R.DOM_STATUS.FW_READY [] = false) →
    (s.trust.imgF = some m ∧ m.advance = true ∧ m.revoke = false) → svnFloor s tyFilbert < m.svn →
    Does .fwReady s fun t => t.flag R.DOM_STATUS.FW_READY [] = true ∧ t.rd R.DBG_SVN.FLOOR_F [] = m.svn % 2 ^ R.DBG_SVN.FLOOR_F.width ∧ t.rd R.DBG_SVN.FLOOR_R [] = s.rd R.DBG_SVN.FLOOR_R [] ∧ t.trust = s.trust)
  ∧ (∀ (m : Img) (s : State), reeveRuns s = true → (s.trust.imgR = some m ∧ m.advance = true ∧ m.revoke = false) →
    svnFloor s tyReeve < m.svn → Does .bootComplete s fun t => t = s.wr R.DBG_SVN.FLOOR_R [] m.svn)

/-- The debug unlock. Rules R631, R634, R635, R636. Completes (exec answers a next state, by the effect of its own
rule), a clause each: newChal, verify, unlockVerifyComplete, relock. What rests on a choice of the model here: log
entries 136. -/
def Obligations.DebugUnlock : Prop :=
  (∀ (m : MDom) (s : State), Awake s → unlockStatus s ≠ statusVerifying →
    Does (.newChal m) s fun t => (∀ k : Fin 12, t.rd R.DBG_UNLOCK_CHAL.CHAL [k.val] = leAt (s.freeBytes 48).1 (4 * k.val) 4 % 2 ^ R.DBG_UNLOCK_CHAL.CHAL.width) ∧ t.trust = s.trust)
  ∧ (∀ (m : MDom) (s : State), Awake s → unlockStatus s ≠ statusVerifying → reeveRuns s = true →
    Does (.verify m) s fun t => unlockStatus t = statusVerifying ∧ t.trust.verifying = some { token := le4 s R.DBG_TOKEN.TOKEN 1024, chal := le4 s R.DBG_UNLOCK_CHAL.CHAL 12 } ∧ (∀ k : Fin 12, t.rd R.DBG_UNLOCK_CHAL.CHAL [k.val] = 0))
  ∧ (∀ (m : MDom) (s : State), Awake s → unlockStatus s ≠ statusVerifying → reeveRuns s = false →
    Does (.verify m) s fun t => unlockStatus t = 6 ∧ (∀ k : Fin 12, t.rd R.DBG_UNLOCK_CHAL.CHAL [k.val] = 0) ∧ t.trust = s.trust)
  ∧ (∀ (u : Unlock) (n : Nat) (s : State), reeveRuns s = true → s.trust.verifying = some u → n = verifyToken s u →
    Does .unlockVerifyComplete s fun t => unlockStatus t = n % 2 ^ R.DBG_UNLOCK_CTL.STATUS.width ∧ t.trust.verifying = none ∧ (n = 1 → t.rd R.DBG_UNLOCK_CTL.SCOPE [] = (s.rd R.DBG_UNLOCK_CTL.SCOPE [] ||| byteAt u.token 2) % 2 ^ R.DBG_UNLOCK_CTL.SCOPE.width ∧ t.rd R.DBG_UNLOCK_CTL.AUTH [] = byteAt u.token 1 % 2 ^ R.DBG_UNLOCK_CTL.AUTH.width ∧ t.trust.anyUnlock = true) ∧ (n ≠ 1 → t.rd R.DBG_UNLOCK_CTL.SCOPE [] = s.rd R.DBG_UNLOCK_CTL.SCOPE []))
  ∧ (∀ (m : MDom) (s : State), Awake s →
    Does (.relock m) s fun t => t.rd R.DBG_UNLOCK_CTL.SCOPE [] = 0 ∧ t.rd R.DBG_UNLOCK_CTL.AUTH [] = 0 ∧ unlockStatus t ≠ 1 ∧ t.trust = s.trust)

/-- SPDM: versions, capabilities, algorithms and chunks. Rules R623. Completes (exec answers a next state, by the effect
of its own rule), a clause each: getVersion, getCapabilities, negotiateAlgorithms, chunkSend, chunkGet. What rests
on a choice of the model here: log entries 18. -/
def Obligations.SpdmNegotiation : Prop :=
  (∀ (r : SpdmReq) (s : State), reeveRuns s = true → r.sess = none → r.ver = 0x10 →
    Does (.getVersion r) s fun t => (spdm t).phase = 1 ∧ (spdm t).sessions = [] ∧ t.out = s.out ++ [.mctp [0x05, 0x10, 0x04, 0, 0, 0, 2, 0x00, 0x12, 0x00, 0x13]])
  ∧ (∀ (r : SpdmReq) (s : State), reeveRuns s = true → r.sess = none → r.ver ≠ 0x10 →
    Does (.getVersion r) s fun t => t = respond s none [0x10, 0x7F, 0x41, 0])
  ∧ (∀ (r : SpdmReq) (s : State), reeveRuns s = true → r.sess = none → (r.ver = 0x12 ∨ r.ver = 0x13) →
    (spdm s).phase = 1 → (16 ≤ r.body.length ∧ 42 ≤ leAt r.body 8 4) →
    Does (.getCapabilities r) s fun t => ∃ u, t = respond u none ([r.ver, 0x61, 0, 0, 0, 20, 0, 0] ++ leBytes 4 ourFlags ++ leBytes 4 4096 ++ leBytes 4 65536) ∧ (spdm u).phase = 2 ∧ (spdm u).ver = r.ver.toNat ∧ (spdm u).flags = leAt r.body 4 4 ∧ (spdm u).xfer = leAt r.body 8 4)
  ∧ (∀ (t0 : Bytes) (r : SpdmReq) (s : State), reeveRuns s = true → r.sess = none → (spdm s).phase = 2 →
    (28 ≤ r.body.length ∧ bit (leAt r.body 4 4) 7 = true ∧ bit (leAt r.body 8 4) 1 = true) →
    t0 = algTables r.p1.toNat (r.body.drop (28 + 4 * (byteAt r.body 24 + byteAt r.body 25))) →
    Does (.negotiateAlgorithms r) s fun t => ∃ u, t = respond u none ([byteOf (spdm s).ver, 0x63, r.p1, 0] ++ leBytes 2 (36 + t0.length) ++ [byteOf (byteAt r.body 2 &&& 1), byteOf (byteAt r.body 3 &&& 2)] ++ leBytes 4 4 ++ leBytes 4 0x80 ++ leBytes 4 2 ++ List.replicate 16 0 ++ t0) ∧ (spdm u).phase = 3 ∧ (spdm u).ver = (spdm s).ver)
  ∧ (∀ (r : SpdmReq) (s : State), reeveRuns s = true → r.sess = none →
    (spdm s).phase = 3 ∧ r.ver.toNat = (spdm s).ver → (leAt r.body 0 2 = 0 ∧ bit r.p1.toNat 0 = false) →
    (leAt r.body 8 4 ≤ ourMax ∧ (slice r.body 12 (leAt r.body 4 4)).length ≤ leAt r.body 8 4) →
    Does (.chunkSend r) s fun t => ∃ u, t = respond u none (rspMsg s 0x05 0 r.p2.toNat [0, 0]) ∧ spdm u = { spdm s with chunk := some (r.p2.toNat, 1, leAt r.body 8 4, slice r.body 12 (leAt r.body 4 4)) })
  ∧ (∀ (h n off : Nat) (b p : Bytes) (r : SpdmReq) (s : State), reeveRuns s = true → r.sess = none →
    (spdm s).phase = 3 ∧ r.ver.toNat = (spdm s).ver → (spdm s).large = some (h, n, b, off) →
    (r.p2.toNat = h ∧ leAt r.body 0 2 = n) → 0 < n → p = (b.drop off).take ((spdm s).xfer - 12) →
    Does (.chunkGet r) s fun t => ∃ u, t = respond u none (rspMsg s 0x06 (if b.length ≤ off + p.length then 1 else 0) h (leBytes 2 n ++ [0, 0] ++ leBytes 4 p.length ++ p)) ∧ spdm u = { spdm s with large := if b.length ≤ off + p.length then none else some (h, n + 1, b, off + p.length) })

/-- SPDM: digests, certificates, challenge and measurements. Rules R622, R623, R624. Completes (exec answers a next
state, by the effect of its own rule), a clause each: getDigests, getCertificate, challenge, getMeasurements. What
rests on a choice of the model here: log entries 18, 137. -/
def Obligations.SpdmIdentity : Prop :=
  (∀ (r : SpdmReq) (s : State), reeveRuns s = true → r.sess = none →
    (spdm s).phase = 3 ∧ r.ver.toNat = (spdm s).ver →
    Does (.getDigests r) s fun t => ∃ u, t = respond u none (rspMsg s 0x01 (if is13 s then 3 else 0) 3 (sha384 (slotChain 0) ++ sha384 (slotChain 1))) ∧ (spdm u).sessions = (spdm s).sessions)
  ∧ (∀ (r : SpdmReq) (s : State), reeveRuns s = true → r.sess = none → (spdm s).phase ≠ 3 →
    Does (.getDigests r) s fun t => t = respond s none (errMsg s eUnexpected 0))
  ∧ (∀ (c p : Bytes) (off : Nat) (r : SpdmReq) (s : State), reeveRuns s = true → r.sess = none →
    (spdm s).phase = 3 ∧ r.ver.toNat = (spdm s).ver →
    (r.p1.toNat % 16 < 2 ∧ c = slotChain (r.p1.toNat % 16) ∧ 4 ≤ r.body.length) →
    (off = leAt r.body 0 2 ∧ off < 4 ∧ p = (c.drop off).take (leAt r.body 2 2)) →
    Does (.getCertificate r) s fun t => ∃ u, t = respond u none (rspMsg s 0x02 (r.p1.toNat % 16) 0 (leBytes 2 p.length ++ leBytes 2 (c.length - off - p.length) ++ p)) ∧ (spdm u).sessions = (spdm s).sessions)
  ∧ (∀ (q : Bytes) (r : SpdmReq) (s : State), reeveRuns s = true → r.sess = none →
    (spdm s).phase = 3 ∧ r.ver.toNat = (spdm s).ver → (r.p1.toNat < 2 ∧ 32 ≤ r.body.length) →
    q = rspMsg s 0x03 r.p1.toNat 3 (sha384 (slotChain r.p1.toNat) ++ (s.freeBytes 32).1 ++ measSummary s r.p2.toNat ++ [0, 0] ++ context13 s r 32) →
    Does (.challenge r) s fun t => ∃ (k : Nat) (u : State), t = respond u none (q ++ ecdsaSign (slotKey r.p1.toNat) (1 + k % (p384n - 1)) (signedText s "responder-challenge_auth signing" ((spdm s).vca ++ (spdm s).trB ++ reqMsg 0x83 r ++ q))) ∧ (spdm u).trB = [] ∧ (spdm u).sessions = (spdm s).sessions)
  ∧ (∀ (q m : Bytes) (r : SpdmReq) (s : State), reeveRuns s = true → r.sess = none →
    (spdm s).phase = 3 ∧ r.ver.toNat = (spdm s).ver →
    (bit r.p1.toNat 0 = false ∧ 1 ≤ r.p2.toNat ∧ r.p2.toNat ≤ 6) → m = measBlock s r.p2.toNat →
    q = rspMsg s 0x60 0 0 ([1] ++ leBytes 3 m.length ++ m ++ (s.freeBytes 32).1 ++ [0, 0] ++ context13 s r 0) →
    Does (.getMeasurements r) s fun t => ∃ u, t = respond u none q ∧ (spdm u).trL = (spdm s).trL ++ reqMsg 0xE0 r ++ q)

/-- SPDM: sessions. Rules R623, R625. Completes (exec answers a next state, by the effect of its own rule), a clause
each: keyExchange, getEncapsulatedRequest, deliverEncapsulatedResponse, finish, heartbeat, endSession,
sessionHeartbeatExpiry. What rests on a choice of the model here: log entries 18, 137, 138. -/
def Obligations.SpdmSessions : Prop :=
  (∀ (r : SpdmReq) (s : State), reeveRuns s = true → r.sess = none →
    (spdm s).phase = 3 ∧ r.ver.toNat = (spdm s).ver → (ownerSpdm s).all (· == 0) = true →
    Does (.keyExchange r) s fun t => t = respond s none (errMsg s eUnsupported 0xE4))
  ∧ (∀ (n : Nat) (r : SpdmReq) (s : State), reeveRuns s = true → r.sess = none →
    (spdm s).phase = 3 ∧ r.ver.toNat = (spdm s).ver → (ownerSpdm s).all (· == 0) = false →
    (r.p2.toNat < 2 ∧ 134 ≤ r.body.length ∧ onCurve (pointOf (slice r.body 36 96)) = true) →
    n = ((spdm s).nextSess + 1) % 65536 →
    Does (.keyExchange r) s fun t => ∃ (u : State) (x : Sess) (b : Bytes), t = respond u none b ∧ sessOf u x.id = some x ∧ x.id = leAt r.body 0 2 + 65536 * n ∧ x.est = false ∧ x.peer = none ∧ (spdm u).nextSess = n ∧ slice b 0 4 = [byteOf (spdm s).ver, 0x64, if bit (spdm s).flags 13 then 30 else 0, 0])
  ∧ (∀ (i : BitVec 32) (x : Sess) (r : SpdmReq) (s : State), reeveRuns s = true →
    (r.sess = some i ∧ sessOf s i.toNat = some x) → (spdm s).phase = 3 ∧ r.ver.toNat = (spdm s).ver →
    x.est = false →
    Does (.getEncapsulatedRequest r) s fun t => t = respond (putSess s { x with encap := 1, chain := [] }) r.sess (rspMsg s 0x6A 1 0 ([byteOf (spdmVer s), 0x82, 0, 0, 0, 0] ++ leBytes 2 0xFFFF)))
  ∧ (∀ (i : BitVec 32) (x y : Sess) (r : SpdmReq) (s : State), reeveRuns s = true →
    (r.sess = some i ∧ sessOf s i.toNat = some x) → (spdm s).phase = 3 ∧ r.ver.toNat = (spdm s).ver →
    x.est = false → (x.encap ≠ 0 ∧ r.p1.toNat = x.encap ∧ byteAt r.body 1 = 0x02 ∧ leAt r.body 6 2 = 0) →
    y = { x with chain := x.chain ++ slice r.body 8 (leAt r.body 4 2), encap := x.encap % 255 + 1 } →
    Does (.deliverEncapsulatedResponse r) s fun t => t = if chainAccepted s y.chain = true then respond (putSess s { y with encap := 0, peer := some (Config.leafKey (y.chain.drop 52)) }) r.sess (rspMsg s 0x6B 0 2 [r.p1, 0, 0, 0, 0]) else respond (putSess s { y with next := .ends }) r.sess (errMsg s eInvalid 0))
  ∧ (∀ (i : BitVec 32) (x y : Sess) (r : SpdmReq) (s : State), reeveRuns s = true →
    (r.sess = some i ∧ sessOf s i.toNat = some x) → (spdm s).phase = 3 ∧ r.ver.toNat = (spdm s).ver →
    x.est = false → (x.encap ≠ 0 ∧ r.p1.toNat = x.encap ∧ byteAt r.body 1 = 0x02 ∧ leAt r.body 6 2 ≠ 0) →
    y = { x with chain := x.chain ++ slice r.body 8 (leAt r.body 4 2), encap := x.encap % 255 + 1 } →
    Does (.deliverEncapsulatedResponse r) s fun t => t = respond (putSess s y) r.sess (rspMsg s 0x6B y.encap 1 ([r.p1, 0, 0, 0] ++ askChain s y)))
  ∧ (∀ (i : BitVec 32) (x : Sess) (r : SpdmReq) (s : State), reeveRuns s = true →
    (r.sess = some i ∧ sessOf s i.toNat = some x) → (spdm s).phase = 3 ∧ r.ver.toNat = (spdm s).ver →
    x.est = false → x.peer = none →
    Does (.finish r) s fun t => t = respond (putSess s { x with next := .ends }) r.sess (errMsg s eInvalid 0))
  ∧ (∀ (i : BitVec 32) (x : Sess) (pub m : Bytes) (r : SpdmReq) (s : State), reeveRuns s = true →
    (r.sess = some i ∧ sessOf s i.toNat = some x) → (spdm s).phase = 3 ∧ r.ver.toNat = (spdm s).ver →
    x.est = false → (x.peer = some pub ∧ bit r.p1.toNat 0 = true) →
    m = x.th ++ sha384 x.chain ++ [byteOf r.ver.toNat, 0xE5, byteOf r.p1.toNat, byteOf r.p2.toNat] →
    Does (.finish r) s fun t => if ecdsaVerify pub (signedText s "requester-finish signing" m) (slice r.body 0 96) = true ∧ hmac384 x.reqFin (sha384 (m ++ slice r.body 0 96)) = slice r.body 96 48 then ∃ k v, t = respond (putSess s { x with est := true, next := .keys k v }) r.sess (rspMsg s 0x65 0 0 []) else t = respond (putSess s { x with next := .ends }) r.sess (errMsg s eDecrypt 0))
  ∧ (∀ (i : BitVec 32) (x : Sess) (r : SpdmReq) (s : State), reeveRuns s = true →
    (r.sess = some i ∧ sessOf s i.toNat = some x) → (spdm s).phase = 3 ∧ r.ver.toNat = (spdm s).ver →
    x.est = true → x.period ≠ 0 → Does (.heartbeat r) s fun t => t = respond s r.sess (rspMsg s 0x68 0 0 []))
  ∧ (∀ (i : BitVec 32) (x : Sess) (r : SpdmReq) (s : State), reeveRuns s = true →
    (r.sess = some i ∧ sessOf s i.toNat = some x) → (spdm s).phase = 3 ∧ r.ver.toNat = (spdm s).ver →
    x.est = true → (spdm s).xfer = 0 ∨ 4 ≤ (spdm s).xfer →
    Does (.endSession r) s fun t => t = respond (putSess s { x with next := .ends }) r.sess (rspMsg s 0x6C 0 0 []) ∧ sessOf t i.toNat = none)
  ∧ (∀ (i : BitVec 32) (x : Sess) (s : State), reeveRuns s = true → sessOf s i.toNat = some x →
    (x.est = true ∧ x.period ≠ 0) →
    Does (.sessionHeartbeatExpiry i) s fun t => t = dropSess s i.toNat ∧ sessOf t i.toNat = none)

/-- SPDM: evidence, the HSS chain and firmware update. Rules R613, R616, R626, R627, R629, R630. Completes (exec answers
a next state, by the effect of its own rule), a clause each: getEvidence, getHssChain, fwWrite, fwActivate. What
rests on a choice of the model here: log entries 135, 138. -/
def Obligations.SpdmVendorCommands : Prop :=
  (∀ (nonce : Bytes) (mask : BitVec 32) (s : State), reeveRuns s = true → s.rd R.DBG_LMS.NEXT [] < 2 ^ 30 →
    Does (.getEvidence none nonce mask) s fun t => ∃ (u : State) (b : Bytes), t = respond u none (vendorRsp u (0x00 :: b)) ∧ u.rd R.DBG_LMS.NEXT [] = (s.rd R.DBG_LMS.NEXT [] + 1) % 2 ^ R.DBG_LMS.NEXT.width ∧ s.rd R.DBG_LMS.NEXT [] < u.trust.limit ∧ slice b 16 32 = slice nonce 0 32)
  ∧ (∀ (nonce : Bytes) (mask : BitVec 32) (s : State), reeveRuns s = true → 2 ^ 30 ≤ s.rd R.DBG_LMS.NEXT [] →
    Does (.getEvidence none nonce mask) s fun t => t = respond s none (vendorRsp s [0x03]))
  ∧ (∀ (off : BitVec 32) (s : State), reeveRuns s = true →
    Does (.getHssChain none off) s fun t => t = respond s none (vendorRsp s (hssChain off.toNat)))
  ∧ (∀ (i : BitVec 32) (x : Sess) (ty : BitVec 8) (off : BitVec 32) (len : BitVec 16) (d : Bytes) (s u : State),
    reeveRuns s = true → (sessOf s i.toNat = some x ∧ x.est = true) → (ty = 1 ∨ ty = 2) →
    (len.toNat = d.length ∧ d.length ≤ 1024 ∧ off.toNat + d.length ≤ slotSize ty.toNat) →
    u = (if off = 0 then s.emit (.flashErase (slotBase ty.toNat (otherSlot s ty.toNat)) (slotSize ty.toNat)) else s) →
    Does (.fwWrite (some i) ty off len d) s fun t => ∃ v, t = respond v (some i) (vendorRsp v [0x00]) ∧ v = u.emit (.flashWrite (slotBase ty.toNat (otherSlot s ty.toNat) + off.toNat) d))
  ∧ (∀ (ty : BitVec 8) (off : BitVec 32) (len : BitVec 16) (d : Bytes) (s : State), reeveRuns s = true →
    Does (.fwWrite none ty off len d) s fun t => t = respond s none (vendorRsp s [0x02]))
  ∧ (∀ (i : BitVec 32) (x : Sess) (c : Nat) (b : Bytes) (s : State), reeveRuns s = true →
    (sessOf s i.toNat = some x ∧ x.est = true) → c = checkImage s 1 b (payloadOf b) →
    Does (.fwActivate (some i) 1 (.ok b)) s fun t => ∃ u, t = respond u (some i) (vendorRsp u (if c = 0 then [0x00] else [0x03, byteOf c])) ∧ (c = 0 → u = { s with trust := { s.trust with prefR := otherSlot s 1 } }) ∧ (c ≠ 0 → u = s.wr R.DBG_BOOT.FAIL [] c))
  ∧ (∀ (i : BitVec 32) (x : Sess) (s : State), reeveRuns s = true → (sessOf s i.toNat = some x ∧ x.est = true) →
    Does (.fwActivate (some i) 2 .error) s fun t => ∃ u, t = respond u (some i) (vendorRsp u [0x03, 0x07]) ∧ u = s.wr R.DBG_BOOT.FAIL [] 7)
end

