-- ==== Sys2Proof/Laws/Map.lean ====
section
/-! SUPPORT. Laws of sparse tables: a read after a write, and the canonical form, which every operation keeps. -/

set_option Elab.async false

namespace Sys2Proof.Machine

theorem SMap.find_del_same {α : Type} (m : SMap α) (k : Nat) : SMap.find? (SMap.del m k) k = none := by
  induction m with
  | nil => rfl
  | cons e r ih => obtain ⟨j, v⟩ := e; simp only [SMap.del]; split <;> simp_all [SMap.find?]

theorem SMap.find_del_ne {α : Type} (m : SMap α) {k k' : Nat} (h : k' ≠ k) :
    SMap.find? (SMap.del m k) k' = SMap.find? m k' := by
  induction m with
  | nil => rfl
  | cons e r ih =>
    obtain ⟨j, v⟩ := e; simp only [SMap.del]; split
    · rename_i hj
      have : ¬ j = k' := by omega
      simp [SMap.find?, this, ih]
    · simp [SMap.find?, ih]

theorem SMap.find_ins_same {α : Type} (m : SMap α) (k : Nat) (v : α) : SMap.find? (SMap.ins m k v) k = some v := by
  induction m with
  | nil => simp [SMap.ins, SMap.find?]
  | cons e r ih =>
    obtain ⟨j, w⟩ := e; simp only [SMap.ins]; split
    · simp [SMap.find?]
    · split <;> simp_all [SMap.find?]

theorem SMap.find_ins_ne {α : Type} (m : SMap α) {k k' : Nat} (v : α) (h : k' ≠ k) :
    SMap.find? (SMap.ins m k v) k' = SMap.find? m k' := by
  induction m with
  | nil => simp [SMap.ins, SMap.find?, h.symm]
  | cons e r ih =>
    obtain ⟨j, w⟩ := e; simp only [SMap.ins]; split
    · simp [SMap.find?, h.symm]
    · split
      · rename_i hj
        have : ¬ j = k' := by omega
        simp [SMap.find?, this, h.symm]
      · simp [SMap.find?, ih]

@[simp] theorem SMap.get_set_same {α : Type} [DecidableEq α] (d : α) (m : SMap α) (k : Nat) (v : α) :
    SMap.get d (SMap.set d m k v) k = v := by
  unfold SMap.set SMap.get; split <;> simp_all [SMap.find_del_same, SMap.find_ins_same]

theorem SMap.get_set_ne {α : Type} [DecidableEq α] (d d' : α) (m : SMap α) {k k' : Nat} (v : α) (h : k' ≠ k) :
    SMap.get d' (SMap.set d m k v) k' = SMap.get d' m k' := by
  unfold SMap.set SMap.get; split <;> simp_all [SMap.find_del_ne, SMap.find_ins_ne]

/-- Every index of a table lies above `b`. -/
def SMap.above {α : Type} (b : Nat) (m : SMap α) : Prop := ∀ e ∈ m, b < e.1

theorem SMap.sorted_cons {α : Type} (j : Nat) (v : α) (r : SMap α) :
    SMap.sorted ((j, v) :: r) = true ↔ SMap.above j r ∧ SMap.sorted r = true := by
  induction r generalizing j v with
  | nil => simp [SMap.sorted, SMap.above]
  | cons e r ih =>
    obtain ⟨k, w⟩ := e
    simp only [SMap.sorted, Bool.and_eq_true, decide_eq_true_eq]
    constructor
    · rintro ⟨h, hs⟩
      refine ⟨fun e he => ?_, hs⟩
      rcases List.mem_cons.mp he with rfl | he
      · exact h
      · have h2 : k < e.1 := ((ih k w).mp hs).1 e he
        omega
    · rintro ⟨h, hs⟩
      exact ⟨h (k, w) (by simp), hs⟩

theorem SMap.above_del {α : Type} {b : Nat} {m : SMap α} (k : Nat) (h : SMap.above b m) : SMap.above b (SMap.del m k) := by
  induction m with
  | nil => exact h
  | cons e r ih =>
    obtain ⟨j, v⟩ := e
    have hr : SMap.above b r := fun e he => h e (List.mem_cons_of_mem _ he)
    simp only [SMap.del]; split
    · exact ih hr
    · intro e he
      rcases List.mem_cons.mp he with rfl | he
      · exact h (j, v) (by simp)
      · exact ih hr e he

theorem SMap.above_ins {α : Type} {b k : Nat} {m : SMap α} (v : α) (h : SMap.above b m) (hk : b < k) :
    SMap.above b (SMap.ins m k v) := by
  induction m with
  | nil => intro e he; simp [SMap.ins] at he; subst he; exact hk
  | cons e r ih =>
    obtain ⟨j, w⟩ := e
    have hr : SMap.above b r := fun e he => h e (List.mem_cons_of_mem _ he)
    have hj : b < j := h (j, w) (by simp)
    simp only [SMap.ins]; split
    · intro e he
      rcases List.mem_cons.mp he with rfl | he
      · exact hk
      · exact h e he
    · split
      · intro e he
        rcases List.mem_cons.mp he with rfl | he
        · exact hk
        · exact hr e he
      · intro e he
        rcases List.mem_cons.mp he with rfl | he
        · exact hj
        · exact ih hr e he

theorem SMap.sorted_del {α : Type} {m : SMap α} (k : Nat) (h : SMap.sorted m = true) : SMap.sorted (SMap.del m k) = true := by
  induction m with
  | nil => rfl
  | cons e r ih =>
    obtain ⟨j, v⟩ := e
    obtain ⟨ha, hs⟩ := (SMap.sorted_cons j v r).mp h
    simp only [SMap.del]; split
    · exact ih hs
    · exact (SMap.sorted_cons _ _ _).mpr ⟨SMap.above_del k ha, ih hs⟩

theorem SMap.sorted_ins {α : Type} {m : SMap α} (k : Nat) (v : α) (h : SMap.sorted m = true) :
    SMap.sorted (SMap.ins m k v) = true := by
  induction m with
  | nil => rfl
  | cons e r ih =>
    obtain ⟨j, w⟩ := e
    obtain ⟨ha, hs⟩ := (SMap.sorted_cons j w r).mp h
    simp only [SMap.ins]; split
    · rename_i hk
      refine (SMap.sorted_cons _ _ _).mpr ⟨fun e he => ?_, h⟩
      rcases List.mem_cons.mp he with rfl | he
      · exact hk
      · have := ha e he; omega
    · split
      · rename_i hk
        subst hk
        exact (SMap.sorted_cons _ _ _).mpr ⟨ha, hs⟩
      · exact (SMap.sorted_cons _ _ _).mpr ⟨SMap.above_ins v ha (by omega), ih hs⟩

theorem SMap.mem_del {α : Type} {m : SMap α} {k : Nat} {e : Nat × α} (h : e ∈ SMap.del m k) : e ∈ m := by
  induction m with
  | nil => exact h
  | cons x r ih =>
    obtain ⟨j, v⟩ := x
    simp only [SMap.del] at h
    split at h
    · exact List.mem_cons_of_mem _ (ih h)
    · rcases List.mem_cons.mp h with rfl | h
      · simp
      · exact List.mem_cons_of_mem _ (ih h)

theorem SMap.mem_ins {α : Type} {m : SMap α} {k : Nat} {v : α} {e : Nat × α} (h : e ∈ SMap.ins m k v) :
    e = (k, v) ∨ e ∈ m := by
  induction m with
  | nil => simpa [SMap.ins] using h
  | cons x r ih =>
    obtain ⟨j, w⟩ := x
    simp only [SMap.ins] at h
    split at h
    · simpa using h
    · split at h
      · rcases List.mem_cons.mp h with rfl | h
        · exact .inl rfl
        · exact .inr (List.mem_cons_of_mem _ h)
      · rcases List.mem_cons.mp h with rfl | h
        · simp
        · rcases ih h with h | h
          · exact .inl h
          · exact .inr (List.mem_cons_of_mem _ h)

/-- A write to a table keeps its canonical form. -/
theorem SMap.wf_set {α : Type} [DecidableEq α] {d : α} {m : SMap α} (k : Nat) (v : α) (h : SMap.wf d m = true) :
    SMap.wf d (SMap.set d m k v) = true := by
  simp only [SMap.wf, Bool.and_eq_true, List.all_eq_true, decide_eq_true_eq] at h ⊢
  unfold SMap.set
  split
  · exact ⟨SMap.sorted_del k h.1, fun e he => h.2 e (SMap.mem_del he)⟩
  · rename_i hv
    refine ⟨SMap.sorted_ins k v h.1, fun e he => ?_⟩
    rcases SMap.mem_ins he with rfl | he
    · exact hv
    · exact h.2 e he

/-- Entries taken out of a table leave it canonical. -/
theorem SMap.wf_filter {α : Type} [DecidableEq α] {d : α} {m : SMap α} (p : Nat × α → Bool) (h : SMap.wf d m = true) :
    SMap.wf d (m.filter p) = true := by
  simp only [SMap.wf, Bool.and_eq_true, List.all_eq_true, decide_eq_true_eq] at h ⊢
  refine ⟨?_, fun e he => h.2 e ((List.mem_filter.mp he).1)⟩
  have hs := h.1
  clear h
  induction m with
  | nil => rfl
  | cons e r ih =>
    obtain ⟨j, v⟩ := e
    obtain ⟨ha, hr⟩ := (SMap.sorted_cons j v r).mp hs
    rw [List.filter_cons]
    split
    · exact (SMap.sorted_cons _ _ _).mpr ⟨fun x hx => ha x ((List.mem_filter.mp hx).1), ih hr⟩
    · exact ih hr

@[simp] theorem SMap.wf_nil {α : Type} [DecidableEq α] (d : α) : SMap.wf d ([] : SMap α) = true := rfl

end Sys2Proof.Machine
end

