-- ==== Sys2Proof/Laws/Keep.lean ====
section
/-! SUPPORT. How `Keeps` is shown of an operation: it holds of the primitive updates, passes through choices, pairs, folds and
answers, and each operation's own lemma follows from those of the operations it calls. -/

set_option Elab.async false

namespace Sys2Proof.Machine

open Sys2Proof

variable {W : List Part}

/-- Part `p` is one of those that may change. -/
class May (W : List Part) (p : Part) : Prop where
  mem : p ∈ W

theorem Part.same_refl (p : Part) (s : State) : p.same s s := by cases p <;> rfl

theorem Part.same_trans {p : Part} {r s t : State} (h : p.same r s) (k : p.same s t) : p.same r t := by
  cases p <;> exact Eq.trans k h

theorem Keeps.refl (s : State) : Keeps W s s :=
  ⟨rfl, Nat.le_refl _, List.prefix_rfl, Nat.le_refl _, id, id, id, fun p _ => p.same_refl s⟩

theorem Keeps.trans {r s t : State} (h : Keeps W r s) (k : Keeps W s t) : Keeps W r t :=
  ⟨k.queue.trans h.queue, Nat.le_trans h.time k.time, h.sent.trans k.sent, Nat.le_trans h.free k.free,
    fun x => k.hbm (h.hbm x), fun x => k.scratch (h.scratch x), fun x => k.chans (h.chans x),
    fun p hp => Part.same_trans (h.frame p hp) (k.frame p hp)⟩

/-- `Keeps` of the state in a pair, first or second. -/
def Keeps1 {α : Type} (W : List Part) (r : State) (p : State × α) : Prop := Keeps W r p.1
def Keeps2 {α : Type} (W : List Part) (r : State) (p : α × State) : Prop := Keeps W r p.2
/-- `Keeps` of a state that there may be. -/
def KeepsO (W : List Part) (r : State) (o : Option State) : Prop := ∀ t, o = some t → Keeps W r t
/-- `Keeps` of the state in a result that there may be. -/
def KeepsO2 {α : Type} (W : List Part) (r : State) (o : Option (α × State)) : Prop := ∀ p, o = some p → Keeps W r p.2
def KeepsE {ε : Type} (W : List Part) (r : State) (o : Except ε State) : Prop := ∀ t, o = .ok t → Keeps W r t
def KeepsE1 {ε α : Type} (W : List Part) (r : State) (o : Except ε (State × α)) : Prop := ∀ p, o = .ok p → Keeps W r p.1
/-- An answer that is a next state, with `Keeps` of it. -/
def Runs (W : List Part) (r : State) (a : Ans) : Prop := ∃ t, a = .next t ∧ Keeps W r t

theorem keeps_fst {α : Type} {r : State} {p : State × α} (h : Keeps1 W r p) : Keeps W r p.1 := h
theorem keeps_snd {α : Type} {r : State} {p : α × State} (h : Keeps2 W r p) : Keeps W r p.2 := h
theorem keeps1_mk {α : Type} {r s : State} {a : α} (h : Keeps W r s) : Keeps1 W r (s, a) := h
theorem keeps2_mk {α : Type} {r s : State} {a : α} (h : Keeps W r s) : Keeps2 W r (a, s) := h
theorem keeps_of1 {α : Type} {r s : State} {a : α} {p : State × α} (e : p = (s, a)) (h : Keeps1 W r p) : Keeps W r s := by
  subst e; exact h
theorem keeps_of2 {α : Type} {r s : State} {a : α} {p : α × State} (e : p = (a, s)) (h : Keeps2 W r p) : Keeps W r s := by
  subst e; exact h
theorem keepsO_some {r s : State} (h : Keeps W r s) : KeepsO W r (some s) := by
  intro t e; cases e; exact h
theorem keepsO_none {r : State} : KeepsO W r none := fun _ e => nomatch e
theorem keeps_ofO {r s : State} {o : Option State} (e : o = some s) (h : KeepsO W r o) : Keeps W r s := h s e
section
variable {α ε : Type} {r s : State}
theorem keepsO2_some {a : α} (h : Keeps W r s) : KeepsO2 W r (some (a, s)) := by intro p e; cases e; exact h
theorem keepsO2_none : KeepsO2 W r (none : Option (α × State)) := fun _ e => nomatch e
theorem keeps_ofO2 {a : α} {o : Option (α × State)} (e : o = some (a, s)) (h : KeepsO2 W r o) : Keeps W r s := h _ e
theorem keepsE_ok (h : Keeps W r s) : KeepsE W r (.ok s : Except ε State) := by intro p e; cases e; exact h
theorem keepsE_error {x : ε} : KeepsE W r (.error x : Except ε State) := fun _ e => nomatch e
theorem keeps_ofE {o : Except ε State} (e : o = .ok s) (h : KeepsE W r o) : Keeps W r s := h _ e
theorem keepsE1_ok {a : α} (h : Keeps W r s) : KeepsE1 W r (.ok (s, a) : Except ε (State × α)) := by intro p e; cases e; exact h
theorem keepsE1_error {x : ε} : KeepsE1 W r (.error x : Except ε (State × α)) := fun _ e => nomatch e
theorem keeps_ofE1 {a : α} {o : Except ε (State × α)} (e : o = .ok (s, a)) (h : KeepsE1 W r o) : Keeps W r s := h _ e
end
theorem keepsO_getD {r s : State} {o : Option State} (h : Keeps W r s) (k : KeepsO W r o) : Keeps W r (o.getD s) := by
  cases o with
  | none => exact h
  | some t => exact k t rfl
theorem runs_next {r s : State} (h : Keeps W r s) : Runs W r (.next s) := ⟨s, rfl, h⟩

section
variable {r : State} {c : Prop} [Decidable c]
theorem keeps_ite {a b : State} (h : Keeps W r a) (k : Keeps W r b) : Keeps W r (if c then a else b) := by split <;> assumption
theorem keeps1_ite {α : Type} {a b : State × α} (h : Keeps1 W r a) (k : Keeps1 W r b) : Keeps1 W r (if c then a else b) := by
  split <;> assumption
theorem keeps2_ite {α : Type} {a b : α × State} (h : Keeps2 W r a) (k : Keeps2 W r b) : Keeps2 W r (if c then a else b) := by
  split <;> assumption
theorem keepsO_ite {a b : Option State} (h : KeepsO W r a) (k : KeepsO W r b) : KeepsO W r (if c then a else b) := by
  split <;> assumption
theorem keepsO2_ite {α : Type} {a b : Option (α × State)} (h : KeepsO2 W r a) (k : KeepsO2 W r b) : KeepsO2 W r (if c then a else b) := by
  split <;> assumption
theorem keepsE_ite {ε : Type} {a b : Except ε State} (h : KeepsE W r a) (k : KeepsE W r b) : KeepsE W r (if c then a else b) := by
  split <;> assumption
theorem keepsE1_ite {ε α : Type} {a b : Except ε (State × α)} (h : KeepsE1 W r a) (k : KeepsE1 W r b) :
    KeepsE1 W r (if c then a else b) := by split <;> assumption
theorem runs_ite {a b : Ans} (h : Runs W r a) (k : Runs W r b) : Runs W r (if c then a else b) := by split <;> assumption
end

theorem keeps_foldl {α : Type} {r s : State} {l : List α} {f : State → α → State} (h : Keeps W r s)
    (hf : ∀ s x, Keeps W r s → Keeps W r (f s x)) : Keeps W r (l.foldl f s) := by
  induction l generalizing s with
  | nil => exact h
  | cons a l ih => exact ih (hf _ _ h)

theorem keeps1_foldl {α β : Type} {r : State} {p : State × β} {l : List α} {f : State × β → α → State × β} (h : Keeps1 W r p)
    (hf : ∀ s b x, Keeps W r s → Keeps1 W r (f (s, b) x)) : Keeps1 W r (l.foldl f p) := by
  induction l generalizing p with
  | nil => exact h
  | cons a l ih => exact ih (hf p.1 p.2 a h)

theorem keeps2_foldl {α β : Type} {r : State} {p : β × State} {l : List α} {f : β × State → α → β × State} (h : Keeps2 W r p)
    (hf : ∀ b s x, Keeps W r s → Keeps2 W r (f (b, s) x)) : Keeps2 W r (l.foldl f p) := by
  induction l generalizing p with
  | nil => exact h
  | cons a l ih => exact ih (hf p.1 p.2 a h)

/-- A record update of parts that may change, all but HBM, Filbert's state, what was sent and the free values. -/
theorem keeps_mk {r s : State} {regs hif dom rev tu eth stk win grn tly lck hsk car stg pwr trust} (h : Keeps W r s)
    (k : ∀ p, p ∉ W → p.same s ⟨regs, s.now, s.hbm, hif, dom, s.fil, rev, tu, eth, stk, win, grn, tly, lck, hsk, car, stg,
      pwr, trust, s.out, s.freeCtr, s.pending⟩) :
    Keeps W r ⟨regs, s.now, s.hbm, hif, dom, s.fil, rev, tu, eth, stk, win, grn, tly, lck, hsk, car, stg, pwr, trust, s.out,
      s.freeCtr, s.pending⟩ :=
  ⟨h.1, h.2, h.3, h.4, h.5, h.6, h.7, fun p hp => Part.same_trans (h.8 p hp) (k p hp)⟩

theorem keeps_regs {r s : State} {x} [May W .regs] (h : Keeps W r s) : Keeps W r ⟨x, s.now, s.hbm, s.hif, s.dom, s.fil,
      s.rev, s.tu, s.eth, s.stk, s.win, s.grn, s.tly, s.lck, s.hsk, s.car, s.stg, s.pwr, s.trust, s.out, s.freeCtr,
      s.pending⟩ :=
  ⟨h.1, h.2, h.3, h.4, h.5, h.6, h.7,
    fun p hp => by cases p <;> first | exact h.8 _ hp | exact absurd May.mem hp⟩
theorem keeps_hif {r s : State} {x} [May W .hif] (h : Keeps W r s) : Keeps W r ⟨s.regs, s.now, s.hbm, x, s.dom, s.fil, s.rev,
      s.tu, s.eth, s.stk, s.win, s.grn, s.tly, s.lck, s.hsk, s.car, s.stg, s.pwr, s.trust, s.out, s.freeCtr, s.pending⟩ :=
  ⟨h.1, h.2, h.3, h.4, h.5, h.6, h.7,
    fun p hp => by cases p <;> first | exact h.8 _ hp | exact absurd May.mem hp⟩
theorem keeps_dom {r s : State} {x} [May W .dom] (h : Keeps W r s) : Keeps W r ⟨s.regs, s.now, s.hbm, s.hif, x, s.fil, s.rev,
      s.tu, s.eth, s.stk, s.win, s.grn, s.tly, s.lck, s.hsk, s.car, s.stg, s.pwr, s.trust, s.out, s.freeCtr, s.pending⟩ :=
  ⟨h.1, h.2, h.3, h.4, h.5, h.6, h.7,
    fun p hp => by cases p <;> first | exact h.8 _ hp | exact absurd May.mem hp⟩
theorem keeps_rev {r s : State} {x} [May W .rev] (h : Keeps W r s) : Keeps W r ⟨s.regs, s.now, s.hbm, s.hif, s.dom, s.fil, x,
      s.tu, s.eth, s.stk, s.win, s.grn, s.tly, s.lck, s.hsk, s.car, s.stg, s.pwr, s.trust, s.out, s.freeCtr, s.pending⟩ :=
  ⟨h.1, h.2, h.3, h.4, h.5, h.6, h.7,
    fun p hp => by cases p <;> first | exact h.8 _ hp | exact absurd May.mem hp⟩
theorem keeps_tu {r s : State} {x} [May W .tu] (h : Keeps W r s) : Keeps W r ⟨s.regs, s.now, s.hbm, s.hif, s.dom, s.fil,
      s.rev, x, s.eth, s.stk, s.win, s.grn, s.tly, s.lck, s.hsk, s.car, s.stg, s.pwr, s.trust, s.out, s.freeCtr, s.pending⟩ :=
  ⟨h.1, h.2, h.3, h.4, h.5, h.6, h.7,
    fun p hp => by cases p <;> first | exact h.8 _ hp | exact absurd May.mem hp⟩
theorem keeps_eth {r s : State} {x} [May W .eth] (h : Keeps W r s) : Keeps W r ⟨s.regs, s.now, s.hbm, s.hif, s.dom, s.fil,
      s.rev, s.tu, x, s.stk, s.win, s.grn, s.tly, s.lck, s.hsk, s.car, s.stg, s.pwr, s.trust, s.out, s.freeCtr, s.pending⟩ :=
  ⟨h.1, h.2, h.3, h.4, h.5, h.6, h.7,
    fun p hp => by cases p <;> first | exact h.8 _ hp | exact absurd May.mem hp⟩
theorem keeps_stk {r s : State} {x} [May W .stk] (h : Keeps W r s) : Keeps W r ⟨s.regs, s.now, s.hbm, s.hif, s.dom, s.fil,
      s.rev, s.tu, s.eth, x, s.win, s.grn, s.tly, s.lck, s.hsk, s.car, s.stg, s.pwr, s.trust, s.out, s.freeCtr, s.pending⟩ :=
  ⟨h.1, h.2, h.3, h.4, h.5, h.6, h.7,
    fun p hp => by cases p <;> first | exact h.8 _ hp | exact absurd May.mem hp⟩
theorem keeps_win {r s : State} {x} [May W .win] (h : Keeps W r s) : Keeps W r ⟨s.regs, s.now, s.hbm, s.hif, s.dom, s.fil,
      s.rev, s.tu, s.eth, s.stk, x, s.grn, s.tly, s.lck, s.hsk, s.car, s.stg, s.pwr, s.trust, s.out, s.freeCtr, s.pending⟩ :=
  ⟨h.1, h.2, h.3, h.4, h.5, h.6, h.7,
    fun p hp => by cases p <;> first | exact h.8 _ hp | exact absurd May.mem hp⟩
theorem keeps_grn {r s : State} {x} [May W .grn] (h : Keeps W r s) : Keeps W r ⟨s.regs, s.now, s.hbm, s.hif, s.dom, s.fil,
      s.rev, s.tu, s.eth, s.stk, s.win, x, s.tly, s.lck, s.hsk, s.car, s.stg, s.pwr, s.trust, s.out, s.freeCtr, s.pending⟩ :=
  ⟨h.1, h.2, h.3, h.4, h.5, h.6, h.7,
    fun p hp => by cases p <;> first | exact h.8 _ hp | exact absurd May.mem hp⟩
theorem keeps_tly {r s : State} {x} [May W .tly] (h : Keeps W r s) : Keeps W r ⟨s.regs, s.now, s.hbm, s.hif, s.dom, s.fil,
      s.rev, s.tu, s.eth, s.stk, s.win, s.grn, x, s.lck, s.hsk, s.car, s.stg, s.pwr, s.trust, s.out, s.freeCtr, s.pending⟩ :=
  ⟨h.1, h.2, h.3, h.4, h.5, h.6, h.7,
    fun p hp => by cases p <;> first | exact h.8 _ hp | exact absurd May.mem hp⟩
theorem keeps_lck {r s : State} {x} [May W .lck] (h : Keeps W r s) : Keeps W r ⟨s.regs, s.now, s.hbm, s.hif, s.dom, s.fil,
      s.rev, s.tu, s.eth, s.stk, s.win, s.grn, s.tly, x, s.hsk, s.car, s.stg, s.pwr, s.trust, s.out, s.freeCtr, s.pending⟩ :=
  ⟨h.1, h.2, h.3, h.4, h.5, h.6, h.7,
    fun p hp => by cases p <;> first | exact h.8 _ hp | exact absurd May.mem hp⟩
theorem keeps_hsk {r s : State} {x} [May W .hsk] (h : Keeps W r s) : Keeps W r ⟨s.regs, s.now, s.hbm, s.hif, s.dom, s.fil,
      s.rev, s.tu, s.eth, s.stk, s.win, s.grn, s.tly, s.lck, x, s.car, s.stg, s.pwr, s.trust, s.out, s.freeCtr, s.pending⟩ :=
  ⟨h.1, h.2, h.3, h.4, h.5, h.6, h.7,
    fun p hp => by cases p <;> first | exact h.8 _ hp | exact absurd May.mem hp⟩
theorem keeps_car {r s : State} {x} [May W .car] (h : Keeps W r s) : Keeps W r ⟨s.regs, s.now, s.hbm, s.hif, s.dom, s.fil,
      s.rev, s.tu, s.eth, s.stk, s.win, s.grn, s.tly, s.lck, s.hsk, x, s.stg, s.pwr, s.trust, s.out, s.freeCtr, s.pending⟩ :=
  ⟨h.1, h.2, h.3, h.4, h.5, h.6, h.7,
    fun p hp => by cases p <;> first | exact h.8 _ hp | exact absurd May.mem hp⟩
theorem keeps_stg {r s : State} {x} [May W .stg] (h : Keeps W r s) : Keeps W r ⟨s.regs, s.now, s.hbm, s.hif, s.dom, s.fil,
      s.rev, s.tu, s.eth, s.stk, s.win, s.grn, s.tly, s.lck, s.hsk, s.car, x, s.pwr, s.trust, s.out, s.freeCtr, s.pending⟩ :=
  ⟨h.1, h.2, h.3, h.4, h.5, h.6, h.7,
    fun p hp => by cases p <;> first | exact h.8 _ hp | exact absurd May.mem hp⟩
theorem keeps_pwr {r s : State} {x} [May W .pwr] (h : Keeps W r s) : Keeps W r ⟨s.regs, s.now, s.hbm, s.hif, s.dom, s.fil,
      s.rev, s.tu, s.eth, s.stk, s.win, s.grn, s.tly, s.lck, s.hsk, s.car, s.stg, x, s.trust, s.out, s.freeCtr, s.pending⟩ :=
  ⟨h.1, h.2, h.3, h.4, h.5, h.6, h.7,
    fun p hp => by cases p <;> first | exact h.8 _ hp | exact absurd May.mem hp⟩
theorem keeps_trust {r s : State} {x} [May W .trust] (h : Keeps W r s) : Keeps W r ⟨s.regs, s.now, s.hbm, s.hif, s.dom,
      s.fil, s.rev, s.tu, s.eth, s.stk, s.win, s.grn, s.tly, s.lck, s.hsk, s.car, s.stg, s.pwr, x, s.out, s.freeCtr,
      s.pending⟩ :=
  ⟨h.1, h.2, h.3, h.4, h.5, h.6, h.7,
    fun p hp => by cases p <;> first | exact h.8 _ hp | exact absurd May.mem hp⟩

/-- The clock moved on. -/
theorem keeps_now {r s : State} {x} [May W .now] (h : Keeps W r s) (k : s.now ≤ x) : Keeps W r ⟨s.regs, x, s.hbm, s.hif, s.dom,
      s.fil, s.rev, s.tu, s.eth, s.stk, s.win, s.grn, s.tly, s.lck, s.hsk, s.car, s.stg, s.pwr, s.trust, s.out, s.freeCtr,
      s.pending⟩ :=
  ⟨h.1, Nat.le_trans h.2 k, h.3, h.4, h.5, h.6, h.7,
    fun p hp => by cases p <;> first | exact h.8 _ hp | exact absurd May.mem hp⟩

/-- HBM replaced, by one in canonical form where it was in that form. -/
theorem keeps_hbm {r s : State} {x} [May W .hbm] (h : Keeps W r s) (k : Memory.wf s.hbm = true → Memory.wf x = true) :
    Keeps W r ⟨s.regs, s.now, x, s.hif, s.dom, s.fil, s.rev, s.tu, s.eth, s.stk, s.win, s.grn, s.tly, s.lck, s.hsk, s.car,
      s.stg, s.pwr, s.trust, s.out, s.freeCtr, s.pending⟩ :=
  ⟨h.1, h.2, h.3, h.4, fun y => k (h.5 y), h.6, h.7,
    fun p hp => by cases p <;> first | exact h.8 _ hp | exact absurd May.mem hp⟩

/-- Filbert's state replaced, by one that leaves scratch and channels sound where they were. -/
theorem keeps_fil' {r s : State} {x} [May W .fil] (h : Keeps W r s)
    (e : Memory.wf s.fil.scratch = true → Memory.wf x.scratch = true) (k : ChansOk s.fil.chan → ChansOk x.chan) :
    Keeps W r ⟨s.regs, s.now, s.hbm, s.hif, s.dom, x, s.rev, s.tu, s.eth, s.stk, s.win, s.grn, s.tly, s.lck, s.hsk, s.car,
      s.stg, s.pwr, s.trust, s.out, s.freeCtr, s.pending⟩ :=
  ⟨h.1, h.2, h.3, h.4, h.5, fun y => e (h.6 y), fun y => k (h.7 y),
    fun p hp => by cases p <;> first | exact h.8 _ hp | exact absurd May.mem hp⟩

/-- A record update of Filbert's state that leaves scratch and channels alone. -/
theorem keeps_fil {r s : State} {x} [May W .fil] (h : Keeps W r s) (e : x.scratch = s.fil.scratch) (k : x.chan = s.fil.chan) :
    Keeps W r ⟨s.regs, s.now, s.hbm, s.hif, s.dom, x, s.rev, s.tu, s.eth, s.stk, s.win, s.grn, s.tly, s.lck, s.hsk, s.car,
      s.stg, s.pwr, s.trust, s.out, s.freeCtr, s.pending⟩ :=
  keeps_fil' h (fun y => (congrArg _ e).trans y) (fun y => by rw [k]; exact y)

/-- More sent. -/
theorem keeps_out {r s : State} {x} [May W .out] (h : Keeps W r s) (k : s.out <+: x) :
    Keeps W r ⟨s.regs, s.now, s.hbm, s.hif, s.dom, s.fil, s.rev, s.tu, s.eth, s.stk, s.win, s.grn, s.tly, s.lck, s.hsk,
      s.car, s.stg, s.pwr, s.trust, x, s.freeCtr, s.pending⟩ :=
  ⟨h.1, h.2, h.3.trans k, h.4, h.5, h.6, h.7,
    fun p hp => by cases p <;> first | exact h.8 _ hp | exact absurd May.mem hp⟩

/-- Free values drawn. -/
theorem keeps_free {r s : State} {x} [May W .free] (h : Keeps W r s) (k : s.freeCtr ≤ x) :
    Keeps W r ⟨s.regs, s.now, s.hbm, s.hif, s.dom, s.fil, s.rev, s.tu, s.eth, s.stk, s.win, s.grn, s.tly, s.lck, s.hsk,
      s.car, s.stg, s.pwr, s.trust, s.out, x, s.pending⟩ :=
  ⟨h.1, h.2, h.3, Nat.le_trans h.4 k, h.5, h.6, h.7,
    fun p hp => by cases p <;> first | exact h.8 _ hp | exact absurd May.mem hp⟩

theorem State.wr_keeps {r s : State} {f ix v} [May W .regs] (h : Keeps W r s) : Keeps W r (s.wr f ix v) := keeps_regs h
theorem State.add_keeps {r s : State} {f ix v} [May W .regs] (h : Keeps W r s) : Keeps W r (s.add f ix v) := keeps_regs h
theorem State.inc_keeps {r s : State} {f ix} [May W .regs] (h : Keeps W r s) : Keeps W r (s.inc f ix) := keeps_regs h
theorem State.sub_keeps {r s : State} {f ix v} [May W .regs] (h : Keeps W r s) : Keeps W r (s.sub f ix v) := keeps_regs h
theorem State.satAdd_keeps {r s : State} {f ix v} [May W .regs] (h : Keeps W r s) : Keeps W r (s.satAdd f ix v) := keeps_regs h
theorem State.emits_keeps {r s : State} {es} [May W .out] (h : Keeps W r s) : Keeps W r (s.emits es) :=
  keeps_out h (List.prefix_append _ _)
theorem State.emit_keeps {r s : State} {e} [May W .out] (h : Keeps W r s) : Keeps W r (s.emit e) :=
  keeps_out h (List.prefix_append _ _)
theorem State.freeBits_keeps {r s : State} {w} [May W .free] (h : Keeps W r s) : Keeps2 W r (s.freeBits w) :=
  keeps_free h (Nat.le_succ _)
theorem State.freeBytes_keeps {r s : State} {n} [May W .free] (h : Keeps W r s) : Keeps2 W r (s.freeBytes n) :=
  keeps_free h (Nat.le_succ _)

/-- Bytes written to a memory keep its canonical form. -/
theorem memWrite_wf (bs : Bytes) : ∀ {m : List Host.Cell} {a : Nat}, Memory.wf m = true → Memory.wf (memWrite m a bs) = true := by
  induction bs with
  | nil => intro m a h; exact h
  | cons b bs ih => intro m a h; exact ih (SMap.wf_set a b h)

theorem hbmWriteSome_wf (s : State) (bs : Bytes) : ∀ {m : List Host.Cell} {a : Nat} {l : List Nat}, Memory.wf m = true →
    Memory.wf (hbmWriteSome s m a bs l).1 = true := by
  induction bs with
  | nil => intro m a l h; exact h
  | cons b bs ih =>
    intro m a l h
    simp only [hbmWriteSome]
    split
    · exact ih h
    · exact ih (SMap.wf_set a b h)

theorem dropResv_keeps {r s : State} {lo hi} [May W .fil] (h : Keeps W r s) : Keeps W r (dropResv s lo hi) := keeps_fil h rfl rfl

theorem State.hbmWrite_keeps {r s : State} {a bs} [May W .hbm] [May W .fil] [May W .regs] (h : Keeps W r s) :
    Keeps W r (s.hbmWrite a bs) := by
  unfold State.hbmWrite
  have k := dropResv_keeps (lo := a / 64) (hi := (a + bs.length - 1) / 64) h
  generalize dropResv s (a / 64) ((a + bs.length - 1) / 64) = t at k
  dsimp only
  split
  · exact keeps_hbm k (memWrite_wf bs)
  · exact State.add_keeps (keeps_hbm k (hbmWriteSome_wf t bs))

end Sys2Proof.Machine
end

