-- ==== Sys2Proof/Laws/ChanOpsKeep.lean ====
section
/-! SUPPORT. Each operation of Machine/ChanOps.lean keeps what `Keeps` says. -/

set_option Elab.async false

namespace Sys2Proof.Machine

open Sys2Proof

variable {W : List Part}

theorem hartPut_keeps {r s : State} {a0 a1} [May W .fil] (h : Keeps W r s) : Keeps W r (hartPut s a0 a1) := by
  unfold hartPut
  repeat (with_reducible first
    | assumption | apply State.reset_keeps | refine keeps_fil ?_ rfl rfl)

/-- The messages of a channel replaced: by as many as held, or by no more than the depth. -/
theorem chanSet_keeps {r s : State} {n ms} [May W .regs] [May W .fil] (h : Keeps W r s)
    (k : ms.length ≤ (chanMsgs s n).length ∨ ms.length ≤ hwDepth n ∨ hwDepth n = 0) : Keeps W r (chanSet s n ms) := by
  have hk : Keeps W r { s with fil := { s.fil with chan := SMap.set [] s.fil.chan n ms } } := by
    refine keeps_fil' h id fun x m hm => ?_
    have hx := x m hm
    dsimp only
    by_cases e : m = n
    · subst e
      rw [SMap.get_set_same]
      unfold chanMsgs at k
      omega
    · rw [SMap.get_set_ne _ _ _ _ e]
      exact hx
  unfold chanSet
  dsimp only
  split
  · exact State.wr_keeps hk
  · exact hk

/-- One message appended to a channel that has room, or to a software channel. -/
theorem chanPush_keeps {r s : State} {n m} [May W .regs] [May W .fil] (h : Keeps W r s) (k
    : (chanMsgs s n).length < hwDepth n ∨ hwDepth n = 0) :
    Keeps W r (chanPush s n m) := by
  unfold chanPush
  have e : (chanMsgs s n ++ [m]).length = (chanMsgs s n).length + 1 := by simp
  refine chanSet_keeps h ?_
  rcases k with k | k
  · exact .inr (.inl (e ▸ k))
  · exact .inr (.inr k)

theorem hwDepth_soft {n : Nat} (h : n < 8192) : hwDepth n = 0 := by
  unfold hwDepth
  have a : ¬ (0xFF00 ≤ n ∧ n ≤ 0xFF03) := by omega
  have b : ¬ n = 0xFF20 := by omega
  have c : ¬ (0xFF40 ≤ n ∧ n ≤ 0xFF7F) := by omega
  simp [a, b, c]

theorem hwPost_keeps {r s : State} {a0 a1 a2} [May W .regs] [May W .fil] (h : Keeps W r s) : Keeps1 W r
    (hwPost s a0 a1 a2) := by
  unfold hwPost
  split
  · exact State.inc_keeps h
  · split
    · exact State.satAdd_keeps (State.inc_keeps h)
    · split
      · exact State.satAdd_keeps (State.inc_keeps h)
      · exact chanPush_keeps h (.inr (hwDepth_soft (by omega)))

theorem latchEv_keeps {r s : State} {a0 a1} [May W .fil] (h : Keeps W r s) : Keeps W r (latchEv s a0 a1) := by
  unfold latchEv
  repeat (with_reducible first
    | assumption | apply hartPut_keeps)

theorem takeBuf_keeps {r s : State} {a0} [May W .regs] [May W .fil] (h : Keeps W r s) : Keeps W r (takeBuf s a0) := by
  unfold takeBuf
  repeat (with_reducible first
    | assumption | apply State.sub_keeps | refine keeps_fil ?_ rfl rfl)

theorem returnBuf_keeps {r s : State} {a0} [May W .regs] [May W .fil] (h : Keeps W r s) : Keeps W r (returnBuf s a0) := by
  unfold returnBuf
  repeat (with_reducible first
    | assumption | apply keeps_ite | apply State.add_keeps | apply State.inc_keeps | refine keeps_fil ?_ rfl rfl)

end Sys2Proof.Machine
end

