-- ==== Sys2Proof/Laws/TuOpsKeep.lean ====
section
/-! SUPPORT. Each operation of Machine/TuOps.lean keeps what `Keeps` says. -/

set_option Elab.async false

namespace Sys2Proof.Machine

open Sys2Proof

variable {W : List Part}

theorem steerShow_keeps {r s : State} [May W .eth] [May W .out] (h : Keeps W r s) : Keeps W r (steerShow s) := by
  unfold steerShow
  repeat (with_reducible first
    | assumption | intro _ | apply keeps_ite | apply keeps_foldl | apply State.emit_keeps | apply keeps_eth)

theorem tuShow_keeps {r s : State} [May W .regs] [May W .eth] [May W .out] (h : Keeps W r s) : Keeps W r (tuShow s) := by
  unfold tuShow
  repeat (with_reducible first
    | assumption | apply steerShow_keeps | apply State.wr_keeps)

theorem tuAdvance_keeps {r s : State} {a0} [May W .tu] [May W .free] (h : Keeps W r s) : Keeps W r (tuAdvance s a0) := by
  unfold tuAdvance
  repeat (with_reducible first
    | assumption | apply keeps_ite | apply keeps2_ite | apply State.freeBits_keeps
    | refine keeps_of2 (by with_reducible assumption) ?_ | exact keeps_snd (by with_reducible assumption)
    | refine keeps_snd (State.freeBits_keeps ?_) | split | apply keeps2_mk | apply keeps_tu)

theorem tuDue_keeps {r s : State} [May W .regs] [May W .tu] [May W .out] (h : Keeps W r s) : Keeps W r (tuDue s) := by
  unfold tuDue
  repeat (with_reducible first
    | assumption | apply keeps_ite | apply State.wr_keeps | apply State.emit_keeps | split | apply keeps_tu)

theorem clockTo_keeps {r s : State} {a0} [May W .regs] [May W .now] [May W .tu] [May W .out] [May W .free] (h
    : Keeps W r s) : Keeps W r (clockTo s a0) := by
  unfold clockTo
  split
  · exact h
  · exact tuDue_keeps (tuAdvance_keeps (keeps_now h (by omega)))

theorem dutyTake_keeps {r s : State} {a0 a1} [May W .regs] [May W .now] [May W .rev] [May W .tu] [May W .out]
    [May W .free] (h : Keeps W r s) : Keeps W r (dutyTake s a0 a1) := by
  unfold dutyTake
  repeat (with_reducible first
    | assumption | apply keeps_ite | apply clockTo_keeps | apply keeps_rev)

theorem tuStep_keeps {r s : State} {a0} [May W .regs] [May W .tu] (h : Keeps W r s) : Keeps W r (tuStep s a0) := by
  unfold tuStep
  repeat (with_reducible first
    | assumption | apply State.wr_keeps | apply State.inc_keeps | apply keeps_tu)

theorem tuStamp_keeps {r s : State} {a0} [May W .free] (h : Keeps W r s) : Keeps2 W r (tuStamp s a0) := by
  unfold tuStamp
  repeat (with_reducible first
    | assumption | apply State.freeBits_keeps | refine keeps_of2 (by with_reducible assumption) ?_
    | exact keeps_snd (by with_reducible assumption) | refine keeps_snd (State.freeBits_keeps ?_) | split
    | apply keeps2_mk)

theorem rxStamp_keeps {r s : State} {a0 a1} [May W .free] (h : Keeps W r s) : Keeps2 W r (rxStamp s a0 a1) := by
  unfold rxStamp
  repeat (with_reducible first
    | assumption | apply tuStamp_keeps | refine keeps_of2 (by with_reducible assumption) ?_
    | exact keeps_snd (by with_reducible assumption) | refine keeps_snd (tuStamp_keeps ?_) | split | apply keeps2_mk)

theorem txStamp_keeps {r s : State} {a0 a1} [May W .free] (h : Keeps W r s) : Keeps2 W r (txStamp s a0 a1) := by
  unfold txStamp
  repeat (with_reducible first
    | assumption | apply tuStamp_keeps | refine keeps_of2 (by with_reducible assumption) ?_
    | exact keeps_snd (by with_reducible assumption) | refine keeps_snd (tuStamp_keeps ?_) | split | apply keeps2_mk)

theorem tuHalf_keeps {r s : State} {a0} [May W .free] (h : Keeps W r s) : Keeps2 W r (tuHalf s a0) := by
  unfold tuHalf
  repeat (with_reducible first
    | assumption | apply keeps_ite | apply keeps2_ite | apply State.freeBits_keeps
    | refine keeps_of2 (by with_reducible assumption) ?_ | exact keeps_snd (by with_reducible assumption)
    | refine keeps_snd (State.freeBits_keeps ?_) | split | apply keeps2_mk)

theorem onOffset_keeps {r s : State} {a0} [May W .regs] [May W .tu] [May W .eth] [May W .out] (h : Keeps W r s)
    : Keeps W r (onOffset s a0) := by
  unfold onOffset
  repeat (with_reducible first
    | assumption | apply keeps_ite | apply State.wr_keeps | apply State.inc_keeps | apply tuStep_keeps
    | apply tuShow_keeps | apply keeps_tu)

theorem servoHoldover_keeps {r s : State} [May W .regs] [May W .tu] [May W .eth] [May W .out] (h : Keeps W r s)
    : Keeps W r (servoHoldover s) := by
  unfold servoHoldover
  repeat (with_reducible first
    | assumption | apply keeps_ite | apply tuShow_keeps | apply State.inc_keeps | apply State.wr_keeps
    | apply keeps_tu)

theorem engineTake_keeps {r s : State} {a0 a1} [May W .regs] (h : Keeps W r s) : Keeps1 W r (engineTake s a0 a1) := by
  unfold engineTake
  repeat (with_reducible first
    | assumption | apply keeps_ite | apply keeps1_ite | apply State.inc_keeps | apply State.wr_keeps
    | refine keeps_of1 (by with_reducible assumption) ?_ | exact keeps_fst (by with_reducible assumption)
    | apply keeps1_mk)

theorem engineFour_keeps {r s : State} {a b c d} [May W .free] (h : Keeps W r s) : Keeps W r (engineFour s a b c d).2.2 := by
  unfold engineFour
  exact keeps_snd (tuHalf_keeps (keeps_snd (tuHalf_keeps h)))

theorem twoStep_keeps {r s : State} {a0 a1 a2} [May W .regs] [May W .fil] (h : Keeps W r s)
    : Keeps W r (twoStep s a0 a1 a2) := by
  unfold twoStep
  repeat (with_reducible first
    | assumption | apply keeps_ite | apply keeps1_ite | apply hwPost_keeps | apply State.inc_keeps
    | refine keeps_of1 (by with_reducible assumption) ?_ | exact keeps_fst (by with_reducible assumption)
    | refine keeps_fst (hwPost_keeps ?_) | split | apply keeps1_mk)

theorem ptpTransit_keeps {r s : State} {a0 a1 a2 a3 a4} [May W .regs] (h : Keeps W r s)
    : Keeps2 W r (ptpTransit s a0 a1 a2 a3 a4) := by
  unfold ptpTransit
  repeat (with_reducible first
    | assumption | apply keeps_ite | apply keeps2_ite | apply State.inc_keeps
    | refine keeps_of2 (by with_reducible assumption) ?_ | exact keeps_snd (by with_reducible assumption) | split
    | apply keeps2_mk)

theorem ptpOrigin_keeps {r s : State} {a0 a1 a2 a3} [May W .regs] [May W .fil] (h : Keeps W r s)
    : Keeps2 W r (ptpOrigin s a0 a1 a2 a3) := by
  unfold ptpOrigin
  repeat (with_reducible first
    | assumption | apply keeps_ite | apply keeps2_ite | apply State.inc_keeps | apply twoStep_keeps
    | refine keeps_of2 (by with_reducible assumption) ?_ | exact keeps_snd (by with_reducible assumption)
    | apply keeps2_mk)

theorem ptpEgress_keeps {r s : State} {p fec ing hop f} [May W .regs] [May W .fil] [May W .free] (h : Keeps W r s)
    : Keeps1 W r (ptpEgress s p fec ing hop f) := by
  have k : ∀ {m : Bytes}, Keeps W r (ptpOrigin (ptpTransit (txStamp s p fec).2 p ing hop m (txStamp s p fec).1).2 p m
      (ptpTransit (txStamp s p fec).2 p ing hop m (txStamp s p fec).1).1
      (withAsym (ptpTransit (txStamp s p fec).2 p ing hop m (txStamp s p fec).1).2 p (txStamp s p fec).1)).2 :=
    keeps_snd (ptpOrigin_keeps (keeps_snd (ptpTransit_keeps (keeps_snd (txStamp_keeps h)))))
  unfold ptpEgress
  split
  · exact h
  · split
    · exact h
    · dsimp only
      split
      · exact h
      · split
        · exact h
        · exact k

end Sys2Proof.Machine
end

