-- ==== Sys2Proof/Laws/WinOpsKeep.lean ====
section
/-! SUPPORT. Each operation of Machine/WinOps.lean keeps what `Keeps` says. -/

set_option Elab.async false

namespace Sys2Proof.Machine

open Sys2Proof

variable {W : List Part}

theorem slotWrite_keeps {r s : State} {a0 a1 a2} [May W .regs] [May W .hbm] [May W .fil] [May W .win] (h : Keeps W r s)
    : Keeps W r (slotWrite s a0 a1 a2) := by
  unfold slotWrite
  repeat (with_reducible first
    | assumption | apply keeps_ite | apply State.hbmWrite_keeps | apply keeps_win)

theorem entWrite_keeps {r s : State} {a0 a1 a2} [May W .regs] [May W .hbm] [May W .fil] [May W .win] (h : Keeps W r s)
    : Keeps W r (entWrite s a0 a1 a2) := by
  unfold entWrite
  repeat (with_reducible first
    | assumption | intro _ | apply keeps_foldl | apply slotWrite_keeps | split | apply keeps_win)

theorem entClear_keeps {r s : State} {a0 a1} [May W .regs] [May W .hbm] [May W .fil] [May W .win] (h : Keeps W r s)
    : Keeps W r (entClear s a0 a1) := by
  unfold entClear
  repeat (with_reducible first
    | assumption | apply entWrite_keeps | split)

theorem lookup_keeps {r s : State} {a0 a1} [May W .regs] [May W .hbm] [May W .fil] [May W .win] (h : Keeps W r s)
    : Keeps2 W r (lookup s a0 a1) := by
  unfold lookup
  repeat (with_reducible first
    | assumption | apply keeps_ite | apply keeps2_ite | apply entWrite_keeps
    | refine keeps_of2 (by with_reducible assumption) ?_ | exact keeps_snd (by with_reducible assumption) | split
    | apply keeps2_mk)

theorem movePath_keeps {r : State} {t : Nat} [May W .regs] [May W .hbm] [May W .fil] [May W .win] (p : List Loc) : ∀ {s
    : State}, Keeps W r s → Keeps W r (movePath s t p) := by
  induction p with
  | nil => intro s h; unfold movePath; exact h
  | cons a l ih =>
    intro s h
    unfold movePath
    split
    · rename_i e
      cases e
      exact ih (entClear_keeps (entWrite_keeps h))
    · exact h

theorem occAdd_keeps {r s : State} {a0 a1} [May W .regs] (h : Keeps W r s) : Keeps W r (occAdd s a0 a1) := by
  unfold occAdd
  repeat (with_reducible first
    | assumption | apply State.inc_keeps | split)

theorem occSub_keeps {r s : State} {a0 a1} [May W .regs] (h : Keeps W r s) : Keeps W r (occSub s a0 a1) := by
  unfold occSub
  repeat (with_reducible first
    | assumption | apply State.sub_keeps | split)

theorem tblInsert_keeps {r s : State} {a0 a1 a2} [May W .regs] [May W .hbm] [May W .fil] [May W .win] (h : Keeps W r s)
    : KeepsE W r (tblInsert s a0 a1 a2) := by
  unfold tblInsert
  repeat (with_reducible first
    | (lift_lets
       intro x
       first
       | (have hx : Keeps W r x := (by
            unfold x
            repeat (with_reducible first
              | assumption | intro _ | apply keeps_ite | apply keepsE_ite | apply keepsE_ok | exact keepsE_error
              | apply entWrite_keeps | apply occAdd_keeps | apply movePath_keeps
              | refine keeps_ofE (by with_reducible assumption) ?_ | split))
          clear_value x)
       | clear_value x)
    | assumption | intro _ | apply keeps_ite | apply keepsE_ite | apply keepsE_ok | exact keepsE_error
    | apply entWrite_keeps | apply occAdd_keeps | apply movePath_keeps
    | refine keeps_ofE (by with_reducible assumption) ?_ | split)

theorem tblDelete_keeps {r s : State} {t k} [May W .regs] [May W .hbm] [May W .fil] [May W .win] (h : Keeps W r s)
    : KeepsO W r (tblDelete s t k) := by
  unfold tblDelete
  repeat (with_reducible first
    | assumption | exact keepsO_none | apply keepsO_some | (dsimp only; split) | split | apply occSub_keeps | apply
        entClear_keeps | apply State.sub_keeps
    | apply entWrite_keeps)

theorem tblClear_keeps {r s : State} {t} [May W .regs] [May W .hbm] [May W .win] (h : Keeps W r s)
    : Keeps W r (tblClear s t) := by
  unfold tblClear
  dsimp only
  apply State.wr_keeps
  apply State.wr_keeps
  split
  · have h1 := keeps_win (x := { s.win with stash := s.win.stash.filter (fun e => e.1 / 64 ≠ t) }) h
    exact keeps_hbm h1 (SMap.wf_filter _)
  · exact keeps_win h

end Sys2Proof.Machine
end

