-- ==== Sys2Proof/Laws/HifOpsKeep.lean ====
section
/-! SUPPORT. Each operation of Machine/HifOps.lean keeps what `Keeps` says. -/

set_option Elab.async false

namespace Sys2Proof.Machine

open Sys2Proof

variable {W : List Part}

theorem cfgPut_keeps {r s : State} {a0 a1 a2 a3} [May W .hif] (h : Keeps W r s) : Keeps W r (cfgPut s a0 a1 a2 a3) := by
  unfold cfgPut
  repeat (with_reducible first
    | assumption | apply keeps_ite | apply keeps_hif)

theorem clkreqShow_keeps {r s : State} {a0 a1} [May W .out] (h : Keeps W r s) : Keeps W r (clkreqShow s a0 a1) := by
  unfold clkreqShow
  repeat (with_reducible first
    | assumption | apply keeps_ite | apply State.emit_keeps)

theorem linkActive_keeps {r s : State} {a0} [May W .regs] [May W .out] (h : Keeps W r s) : Keeps W r (linkActive s a0) := by
  unfold linkActive
  repeat (with_reducible first
    | assumption | apply keeps_ite | apply State.wr_keeps | apply clkreqShow_keeps | split)

theorem sendTlp_keeps {r s : State} {a0 a1} [May W .regs] [May W .out] (h : Keeps W r s) : Keeps W r (sendTlp s a0 a1) := by
  unfold sendTlp
  repeat (with_reducible first
    | assumption | apply State.emit_keeps | apply linkActive_keeps)

theorem logCor_keeps {r s : State} {a0 a1 a2} [May W .regs] [May W .hif] [May W .out] (h : Keeps W r s)
    : Keeps W r (logCor s a0 a1 a2) := by
  unfold logCor
  repeat (with_reducible first
    | assumption | apply keeps_ite | apply cfgPut_keeps | apply sendTlp_keeps)

theorem logHeader_keeps {r s : State} {a0 a1 a2 a3} [May W .regs] [May W .hif] [May W .out] [May W .free] (h
    : Keeps W r s) : Keeps W r (logHeader s a0 a1 a2 a3) := by
  unfold logHeader
  repeat (with_reducible first
    | assumption | apply keeps_ite | apply keeps2_ite | apply State.freeBits_keeps | apply cfgPut_keeps
    | apply logCor_keeps | refine keeps_of2 (by with_reducible assumption) ?_
    | exact keeps_snd (by with_reducible assumption) | refine keeps_snd (State.freeBits_keeps ?_) | split
    | apply keeps2_mk)

theorem logUncor_keeps {r s : State} {a0 a1 a2 a3} [May W .regs] [May W .hif] [May W .out] [May W .free] (h : Keeps W r s)
    : Keeps W r (logUncor s a0 a1 a2 a3) := by
  unfold logUncor
  repeat (with_reducible first
    | assumption | apply keeps_ite | apply cfgPut_keeps | apply logHeader_keeps | apply sendTlp_keeps)

theorem sendPosted_keeps {r s : State} {a0 a1 a2} [May W .regs] [May W .hif] [May W .out] (h : Keeps W r s)
    : Keeps W r (sendPosted s a0 a1 a2) := by
  unfold sendPosted
  repeat (with_reducible first
    | assumption | apply keeps_ite | apply sendTlp_keeps | split | apply keeps_hif)

theorem hostWrite_keeps {r s : State} {a0 a1 a2 a3 a4 a5 a6 a7} [May W .regs] [May W .hif] [May W .out] (h : Keeps W r s) :
    Keeps W r (hostWrite s a0 a1 a2 a3 a4 a5 a6 a7) := by
  unfold hostWrite
  repeat (with_reducible first
    | assumption | apply keeps_ite | apply State.inc_keeps | apply State.add_keeps | apply sendPosted_keeps)

theorem msixPut_keeps {r s : State} {a0 a1} [May W .hif] (h : Keeps W r s) : Keeps W r (msixPut s a0 a1) := by
  unfold msixPut
  repeat (with_reducible first
    | assumption | apply keeps_ite | apply State.reset_keeps | apply keeps_hif)

theorem irqPut_keeps {r s : State} {a0 a1} [May W .hif] (h : Keeps W r s) : Keeps W r (irqPut s a0 a1) := by
  unfold irqPut
  repeat (with_reducible first
    | assumption | apply keeps_ite | apply keeps_hif)

theorem fireMsix_keeps {r s : State} {a0 a1 a2} [May W .regs] [May W .hif] [May W .out] (h : Keeps W r s)
    : Keeps W r (fireMsix s a0 a1 a2) := by
  unfold fireMsix
  repeat (with_reducible first
    | assumption | apply keeps_ite | apply msixPut_keeps | apply sendPosted_keeps | apply State.reset_keeps)

theorem fireOwner_keeps {r s : State} {a0} [May W .regs] [May W .hif] [May W .out] (h : Keeps W r s)
    : Keeps W r (fireOwner s a0) := by
  unfold fireOwner
  repeat (with_reducible first
    | assumption | apply fireMsix_keeps)

theorem fireIrq_keeps {r s : State} {a0} [May W .regs] [May W .hif] [May W .out] (h : Keeps W r s)
    : Keeps W r (fireIrq s a0) := by
  unfold fireIrq
  repeat (with_reducible first
    | assumption | intro _ | apply keeps_ite | apply State.inc_keeps | apply irqPut_keeps | apply sendPosted_keeps)

theorem releaseIrq_keeps {r s : State} {a0} [May W .regs] [May W .hif] [May W .out] (h : Keeps W r s)
    : Keeps W r (releaseIrq s a0) := by
  unfold releaseIrq
  repeat (with_reducible first
    | assumption | intro _ | apply keeps_ite | apply irqPut_keeps | apply State.inc_keeps | apply sendPosted_keeps)

theorem releaseMsix_keeps {r s : State} {a0 a1 a2} [May W .regs] [May W .hif] [May W .out] (h : Keeps W r s)
    : Keeps W r (releaseMsix s a0 a1 a2) := by
  unfold releaseMsix
  repeat (with_reducible first
    | assumption | apply keeps_ite | apply msixPut_keeps | apply sendPosted_keeps | apply State.reset_keeps)

theorem holdMsgs_keeps {r s : State} {a0 a1} [May W .hif] (h : Keeps W r s) : Keeps W r (holdMsgs s a0 a1) := by
  unfold holdMsgs
  repeat (with_reducible first
    | assumption | intro _ | apply keeps_ite | apply keeps_foldl | apply irqPut_keeps | apply msixPut_keeps
    | apply State.reset_keeps | split | apply keeps_hif)

theorem syncTags_keeps {r s : State} {a0} [May W .regs] (h : Keeps W r s) : Keeps W r (syncTags s a0) := by
  unfold syncTags
  repeat (with_reducible first
    | assumption | intro _ | apply keeps_foldl | apply State.wr_keeps)

theorem sendCpl_keeps {r s : State} {a0 a1} [May W .regs] [May W .hif] [May W .out] (h : Keeps W r s)
    : Keeps W r (sendCpl s a0 a1) := by
  unfold sendCpl
  repeat (with_reducible first
    | assumption | apply keeps_ite | apply sendTlp_keeps | split | apply keeps_hif)

theorem takeNp_keeps {r s : State} {a0 a1} [May W .hif] (h : Keeps W r s) : Keeps W r (takeNp s a0 a1) := by
  unfold takeNp
  repeat (with_reducible first
    | assumption | apply keeps_ite | split | apply keeps_hif)

theorem sendRead_keeps {r s : State} {a0 a1 a2 a3 a4 a5 a6 a7} [May W .regs] [May W .hif] [May W .out] (h : Keeps W r s) :
    Keeps W r (sendRead s a0 a1 a2 a3 a4 a5 a6 a7) := by
  unfold sendRead
  repeat (with_reducible first
    | assumption | apply keeps_ite | apply takeNp_keeps | apply State.inc_keeps | apply sendTlp_keeps
    | apply syncTags_keeps | split | apply keeps_hif)

theorem atcTouch_keeps {r s : State} {a0} [May W .hif] (h : Keeps W r s) : Keeps W r (atcTouch s a0) := by
  unfold atcTouch
  repeat (with_reducible first
    | assumption | intro _ | apply keeps_ite | apply keeps_hif)

theorem atcInsert_keeps {r s : State} {a0} [May W .regs] [May W .hif] (h : Keeps W r s) : Keeps W r (atcInsert s a0) := by
  unfold atcInsert
  repeat (with_reducible first
    | assumption | intro _ | apply keeps_ite | apply State.wr_keeps | apply keeps_hif)

theorem askPage_keeps {r s : State} {a0 a1 a2 a3 a4 a5} [May W .regs] [May W .hif] [May W .out] (h : Keeps W r s)
    : Keeps W r (askPage s a0 a1 a2 a3 a4 a5) := by
  unfold askPage
  repeat (with_reducible first
    | assumption | intro _ | apply keeps_ite | apply sendTlp_keeps | apply State.inc_keeps | apply keeps_hif)

theorem reach_keeps {r s : State} {a0 a1 a2 a3 a4 a5} [May W .regs] [May W .hif] [May W .out] (h : Keeps W r s)
    : Keeps2 W r (reach s a0 a1 a2 a3 a4 a5) := by
  unfold reach
  repeat (with_reducible first
    | assumption | intro _ | apply keeps_ite | apply keeps2_ite | apply askPage_keeps
    | refine keeps_of2 (by with_reducible assumption) ?_ | exact keeps_snd (by with_reducible assumption) | split
    | apply keeps2_mk)

theorem atcUsed_keeps {r s : State} {a0 a1 a2 a3} [May W .hif] (h : Keeps W r s) : Keeps W r (atcUsed s a0 a1 a2 a3) := by
  unfold atcUsed
  repeat (with_reducible first
    | assumption | intro _ | apply keeps_ite | apply keeps_foldl | apply atcTouch_keeps | split)

theorem readOutcome_keeps {r s : State} {a0 a1 a2 a3} [May W .regs] [May W .hif] [May W .out] [May W .free] (h
    : Keeps W r s) : Keeps W r (readOutcome s a0 a1 a2 a3) := by
  unfold readOutcome
  repeat (with_reducible first
    | assumption | apply State.add_keeps | apply logUncor_keeps | apply State.inc_keeps | split)

theorem hostTake_keeps {r s : State} {a0 a1 a2 a3 a4 a5} [May W .regs] [May W .hif] [May W .out] [May W .free] (h
    : Keeps W r s) :
    Keeps W r (hostTake s a0 a1 a2 a3 a4 a5) := by
  unfold hostTake
  repeat (with_reducible first
    | assumption | intro _ | apply keeps_ite | apply keeps_foldl | apply takeNp_keeps | apply atcUsed_keeps
    | apply sendTlp_keeps | apply State.inc_keeps | apply syncTags_keeps | apply readOutcome_keeps | apply keeps_hif)

theorem hostFetch_keeps {r s : State} {a0 a1 a2 a3 a4 a5} [May W .regs] [May W .hif] [May W .out] [May W .free] (h
    : Keeps W r s) :
    Keeps2 W r (hostFetch s a0 a1 a2 a3 a4 a5) := by
  unfold hostFetch
  repeat (with_reducible first
    | assumption | intro _ | apply keeps_ite | apply keeps2_ite | apply reach_keeps | apply hostTake_keeps
    | refine keeps_of2 (by with_reducible assumption) ?_ | exact keeps_snd (by with_reducible assumption)
    | refine keeps_snd (reach_keeps ?_) | split | apply keeps2_mk)

theorem fnWrite_keeps {r s : State} {a0 a1 a2 a3 a4 a5 a6 a7} [May W .regs] [May W .hif] [May W .out] (h : Keeps W r s) :
    Keeps W r (fnWrite s a0 a1 a2 a3 a4 a5 a6 a7) := by
  unfold fnWrite
  repeat (with_reducible first
    | assumption | intro _ | apply keeps_ite | apply keeps_foldl | apply hostWrite_keeps | apply atcUsed_keeps)

end Sys2Proof.Machine
end

