-- ==== Sys2Proof/Laws/RingOpsKeep.lean ====
section
/-! SUPPORT. Each operation of Machine/RingOps.lean keeps what `Keeps` says. -/

set_option Elab.async false

namespace Sys2Proof.Machine

open Sys2Proof

variable {W : List Part}

theorem ringPut_keeps {r s : State} {a0 a1} [May W .dom] (h : Keeps W r s) : Keeps W r (ringPut s a0 a1) := by
  unfold ringPut
  repeat (with_reducible first
    | assumption | apply keeps_dom)

theorem ringCount_keeps {r s : State} {a0 a1} [May W .regs] (h : Keeps W r s) : Keeps W r (ringCount s a0 a1) := by
  unfold ringCount
  repeat (with_reducible first
    | assumption | apply keeps_ite | apply State.inc_keeps)

theorem ringFire_keeps {r s : State} {a0} [May W .regs] [May W .hif] [May W .out] (h : Keeps W r s)
    : Keeps W r (ringFire s a0) := by
  unfold ringFire
  repeat (with_reducible first
    | assumption | apply keeps_ite | apply fireOwner_keeps | apply ringCount_keeps | apply fireIrq_keeps)

theorem ringSend_keeps {r s : State} {a0} [May W .regs] [May W .hif] [May W .dom] [May W .out] (h : Keeps W r s)
    : Keeps W r (ringSend s a0) := by
  unfold ringSend
  repeat (with_reducible first
    | assumption | apply keeps_ite | apply ringPut_keeps | apply State.wr_keeps | apply ringFire_keeps)

theorem ringEval_keeps {r s : State} {a0} [May W .regs] [May W .hif] [May W .dom] [May W .out] (h : Keeps W r s)
    : Keeps W r (ringEval s a0) := by
  unfold ringEval
  repeat (with_reducible first
    | assumption | apply keeps_ite | apply ringSend_keeps)

theorem cplFail_keeps {r s : State} {a0} [May W .regs] [May W .hif] [May W .dom] (h : Keeps W r s)
    : Keeps W r (cplFail s a0) := by
  unfold cplFail
  repeat (with_reducible first
    | assumption | intro _ | apply keeps_ite | apply ringCount_keeps | apply ringPut_keeps | apply State.wr_keeps
    | split | apply keeps_hif)

theorem ringSendOut_keeps {r s : State} {a0 a1 a2 a3} [May W .regs] [May W .hif] [May W .dom] [May W .out] (h
    : Keeps W r s) : Keeps2 W r (ringSendOut s a0 a1 a2 a3) := by
  unfold ringSendOut
  repeat (with_reducible first
    | assumption | apply keeps_ite | apply keeps2_ite | apply hostWrite_keeps | apply atcTouch_keeps
    | apply cplFail_keeps | apply sendTlp_keeps | apply State.inc_keeps
    | refine keeps_of2 (by with_reducible assumption) ?_ | exact keeps_snd (by with_reducible assumption) | split
    | apply keeps2_mk | apply keeps_hif)

theorem ringWrite_keeps {r s : State} {a0 a1 a2} [May W .regs] [May W .hif] [May W .dom] [May W .out] (h : Keeps W r s)
    : Keeps W r (ringWrite s a0 a1 a2) := by
  unfold ringWrite
  repeat (with_reducible first
    | assumption | intro _ | apply keeps_foldl | apply keeps2_foldl | apply ringSendOut_keeps
    | refine keeps_of2 (by with_reducible assumption) ?_ | exact keeps_snd (by with_reducible assumption)
    | refine keeps_snd (ringSendOut_keeps ?_) | apply keeps2_mk)

theorem cplSent_keeps {r s : State} {a0 a1} [May W .regs] [May W .hif] [May W .dom] [May W .out] (h : Keeps W r s)
    : Keeps W r (cplSent s a0 a1) := by
  unfold cplSent
  repeat (with_reducible first
    | assumption | apply keeps_ite | apply ringPut_keeps | apply ringSend_keeps | apply ringEval_keeps)

theorem cplPut_keeps {r s : State} {a0 a1} [May W .regs] [May W .hif] [May W .dom] [May W .out] (h : Keeps W r s)
    : Keeps W r (cplPut s a0 a1) := by
  unfold cplPut
  repeat (with_reducible first
    | assumption | apply keeps_ite | apply keeps2_ite | apply ringPut_keeps | apply ringSendOut_keeps
    | apply State.wr_keeps | apply ringCount_keeps | apply cplSent_keeps
    | refine keeps_of2 (by with_reducible assumption) ?_ | exact keeps_snd (by with_reducible assumption)
    | refine keeps_snd (ringSendOut_keeps ?_) | split | apply keeps2_mk)

theorem cplPost_keeps {r s : State} {a0 a1} [May W .regs] [May W .hif] [May W .dom] [May W .out] (h : Keeps W r s)
    : Keeps W r (cplPost s a0 a1) := by
  unfold cplPost
  repeat (with_reducible first
    | assumption | apply keeps_ite | apply ringPut_keeps | apply cplPut_keeps)

theorem cplDrain_keeps {r : State} [May W .regs] [May W .hif] [May W .dom] [May W .out] (k : Nat) : ∀ {s : State}
    {a0}, Keeps W r s → Keeps W r (cplDrain k s a0) := by
  induction k with
  | zero =>
    intro s a0 h
    rw [cplDrain]
    repeat (with_reducible first
      | assumption | apply keeps_ite | apply cplPut_keeps | apply ringPut_keeps | split)
  | succ n ih =>
    intro s a0 h
    rw [cplDrain]
    repeat (with_reducible first
      | assumption | apply keeps_ite | apply cplPut_keeps | apply ringPut_keeps | apply ih | split)

theorem descRead_keeps {r s : State} {a0 a1 a2} [May W .regs] [May W .hif] [May W .out] [May W .free] (h : Keeps W r s)
    : Keeps2 W r (descRead s a0 a1 a2) := by
  unfold descRead
  repeat (with_reducible first
    | assumption | apply keeps_ite | apply keeps2_ite | apply hostFetch_keeps
    | refine keeps_of2 (by with_reducible assumption) ?_ | exact keeps_snd (by with_reducible assumption)
    | refine keeps_snd (hostFetch_keeps ?_) | apply keeps2_mk)

theorem popDesc_keeps {r s : State} {a0 a1} [May W .dom] (h : Keeps W r s) : Keeps W r (popDesc s a0 a1) := by
  unfold popDesc
  repeat (with_reducible first
    | assumption | intro _ | apply ringPut_keeps)

theorem ringFaultCheck_keeps {r s : State} {a0} [May W .regs] [May W .hif] [May W .dom] [May W .out] (h : Keeps W r s)
    : Keeps W r (ringFaultCheck s a0) := by
  unfold ringFaultCheck
  repeat (with_reducible first
    | (lift_lets
       intro x
       first
       | (have hx : Keeps W r x := (by
            unfold x
            repeat (with_reducible first
              | assumption | intro _ | apply keeps_ite | apply ringPut_keeps | apply cplPost_keeps | split))
          clear_value x)
       | clear_value x)
    | assumption | intro _ | apply keeps_ite | apply ringPut_keeps | apply cplPost_keeps | split)

theorem drainBad_keeps {r : State} [May W .regs] [May W .hif] [May W .dom] [May W .out] (k : Nat) : ∀ {s : State}
    {a0}, Keeps W r s → Keeps W r (drainBad k s a0) := by
  induction k with
  | zero =>
    intro s a0 h
    rw [drainBad]
    repeat (with_reducible first
      | assumption | apply keeps_ite | apply ringCount_keeps | apply popDesc_keeps | apply cplPost_keeps | split)
  | succ n ih =>
    intro s a0 h
    rw [drainBad]
    repeat (with_reducible first
      | assumption | apply keeps_ite | apply ringCount_keeps | apply popDesc_keeps | apply cplPost_keeps | apply ih
      | split)

theorem ringSettle_keeps {r s : State} {a0} [May W .regs] [May W .hif] [May W .dom] [May W .out] (h : Keeps W r s)
    : Keeps W r (ringSettle s a0) := by
  unfold ringSettle
  repeat (with_reducible first
    | assumption | apply ringFaultCheck_keeps | apply drainBad_keeps)

theorem finishDesc_keeps {r s : State} {a0 a1 a2 a3 a4} [May W .regs] [May W .hif] [May W .dom] [May W .out] (h
    : Keeps W r s) : Keeps W r (finishDesc s a0 a1 a2 a3 a4) := by
  unfold finishDesc
  repeat (with_reducible first
    | assumption | apply keeps_ite | apply popDesc_keeps | apply ringCount_keeps | apply cplPost_keeps
    | apply ringSettle_keeps)

theorem txEntered_keeps {r s : State} {a0 a1 a2 a3} [May W .regs] [May W .hif] [May W .dom] [May W .out] (h : Keeps W r s)
    : Keeps W r (txEntered s a0 a1 a2 a3) := by
  unfold txEntered
  repeat (with_reducible first
    | assumption | apply keeps_ite | apply ringPut_keeps | apply cplPost_keeps | apply ringSettle_keeps | split)

theorem descArrive_keeps {r s : State} {a0 a1 a2} [May W .regs] [May W .hif] [May W .dom] [May W .out] (h : Keeps W r s)
    : Keeps W r (descArrive s a0 a1 a2) := by
  unfold descArrive
  repeat (with_reducible first
    | assumption | intro _ | apply keeps_ite | apply ringPut_keeps | apply ringSettle_keeps | apply ringCount_keeps)

theorem descFail_keeps {r s : State} {a0 a1 a2} [May W .regs] [May W .hif] [May W .dom] [May W .out] (h : Keeps W r s)
    : Keeps W r (descFail s a0 a1 a2) := by
  unfold descFail
  repeat (with_reducible first
    | assumption | apply keeps_ite | apply ringPut_keeps | apply State.wr_keeps | apply ringCount_keeps
    | apply ringFaultCheck_keeps)

end Sys2Proof.Machine
end

