-- ==== Sys2Proof/Laws/TlyOpsKeep.lean ====
section
/-! SUPPORT. Each operation of Machine/TlyOps.lean keeps what `Keeps` says. -/

set_option Elab.async false

namespace Sys2Proof.Machine

open Sys2Proof

variable {W : List Part}

theorem setTx_keeps {r s : State} {a0 a1} [May W .eth] (h : Keeps W r s) : Keeps W r (setTx s a0 a1) := by
  unfold setTx
  repeat (with_reducible first
    | assumption | apply keeps_eth)

theorem cutTx_keeps {r s : State} {a0 a1 a2} [May W .regs] [May W .out] (h : Keeps W r s) : Keeps1 W r (cutTx s a0 a1 a2)
    := by
  unfold cutTx
  repeat (with_reducible first
    | assumption | apply State.inc_keeps | apply State.emit_keeps
    | refine keeps_of1 (by with_reducible assumption) ?_ | exact keeps_fst (by with_reducible assumption)
    | apply keeps1_mk)

theorem txResume_keeps {r s : State} {a0 a1 a2} [May W .eth] [May W .out] (h : Keeps W r s)
    : Keeps W r (txResume s a0 a1 a2) := by
  unfold txResume
  repeat (with_reducible first
    | assumption | apply State.emit_keeps | apply setTx_keeps)

theorem setTag_keeps {r s : State} {a0 a1 a2} [May W .tly] (h : Keeps W r s) : Keeps W r (setTag s a0 a1 a2) := by
  unfold setTag
  repeat (with_reducible first
    | assumption | apply keeps_tly)

theorem onNewHead_keeps {r s : State} {a0 a1} [May W .tly] (h : Keeps W r s) : Keeps W r (onNewHead s a0 a1) := by
  unfold onNewHead
  repeat (with_reducible first
    | assumption | apply keeps_ite | apply setTag_keeps)

theorem retag_keeps {r s : State} {a0 a1} [May W .tly] (h : Keeps W r s) : Keeps W r (retag s a0 a1) := by
  unfold retag
  repeat (with_reducible first
    | assumption | apply keeps_ite | apply setTag_keeps)

theorem onBacklog_keeps {r : State} [May W .tly] (k : Nat) : ∀ {s : State} {a0 a1}, Keeps W r s
    → Keeps W r (onBacklog s a0 k a1) := by
  induction k with
  | zero =>
    intro s a0 a1 h
    rw [onBacklog]
    repeat (with_reducible first
      | assumption | intro _ | apply keeps_ite | apply keeps_foldl | apply onNewHead_keeps | apply retag_keeps
      | split)
  | succ n ih =>
    intro s a0 a1 h
    rw [onBacklog]
    repeat (with_reducible first
      | assumption | intro _ | apply keeps_ite | apply keeps_foldl | apply onNewHead_keeps | apply retag_keeps
      | apply ih | split)

theorem onStart_keeps {r s : State} {a0 a1} [May W .tly] (h : Keeps W r s) : Keeps W r (onStart s a0 a1) := by
  unfold onStart
  repeat (with_reducible first
    | assumption | intro _ | apply keeps_ite | apply keeps_foldl | apply setTag_keeps | apply keeps_tly)

theorem setMaxTok_keeps {r s : State} {a0 a1} [May W .tly] (h : Keeps W r s) : Keeps W r (setMaxTok s a0 a1) := by
  unfold setMaxTok
  repeat (with_reducible first
    | assumption | apply keeps_tly)

theorem setMinTok_keeps {r s : State} {a0 a1} [May W .tly] (h : Keeps W r s) : Keeps W r (setMinTok s a0 a1) := by
  unfold setMinTok
  repeat (with_reducible first
    | assumption | apply keeps_tly)

theorem charge_keeps {r s : State} {a0 a1} [May W .tly] (h : Keeps W r s) : Keeps W r (charge s a0 a1) := by
  unfold charge
  repeat (with_reducible first
    | assumption | intro _ | apply keeps_ite | apply keeps_foldl | apply setMaxTok_keeps | apply setMinTok_keeps)

theorem refillTree_keeps {r s : State} [May W .tly] (h : Keeps W r s) : Keeps W r (refillTree s) := by
  unfold refillTree
  repeat (with_reducible first
    | assumption | intro _ | apply keeps_ite | apply keeps_foldl | apply setMaxTok_keeps | apply setMinTok_keeps)

theorem polPut_keeps {r s : State} {a0 a1} [May W .tly] (h : Keeps W r s) : Keeps W r (polPut s a0 a1) := by
  unfold polPut
  repeat (with_reducible first
    | assumption | apply keeps_tly)

theorem shaperRefill_keeps {r s : State} [May W .tly] (h : Keeps W r s) : Keeps W r (shaperRefill s) := by
  unfold shaperRefill
  repeat (with_reducible first
    | assumption | intro _ | apply keeps_ite | apply refillTree_keeps | apply keeps_tly)

theorem police_keeps {r s : State} {a0 a1 a2} [May W .regs] [May W .tly] (h : Keeps W r s)
    : Keeps1 W r (police s a0 a1 a2) := by
  unfold police
  repeat (with_reducible first
    | assumption | apply keeps_ite | apply keeps1_ite | apply State.inc_keeps | apply polPut_keeps
    | refine keeps_of1 (by with_reducible assumption) ?_ | exact keeps_fst (by with_reducible assumption) | split
    | apply keeps1_mk)

theorem gateApply_keeps {r s : State} {a0 a1} [May W .regs] (h : Keeps W r s) : Keeps W r (gateApply s a0 a1) := by
  unfold gateApply
  repeat (with_reducible first
    | assumption | apply keeps_ite | apply State.wr_keeps)

theorem txSettle_keeps {r s : State} {a0} [May W .eth] [May W .out] (h : Keeps W r s) : Keeps W r (txSettle s a0) := by
  unfold txSettle
  repeat (with_reducible first
    | assumption | apply keeps_ite | apply txResume_keeps | split)

theorem gateTx_keeps {r s : State} {a0} [May W .regs] [May W .eth] [May W .out] (h : Keeps W r s)
    : Keeps W r (gateTx s a0) := by
  unfold gateTx
  repeat (with_reducible first
    | assumption | apply keeps_ite | apply keeps1_ite | apply txResume_keeps | apply cutTx_keeps
    | apply State.inc_keeps | apply setTx_keeps | refine keeps_of1 (by with_reducible assumption) ?_
    | exact keeps_fst (by with_reducible assumption) | refine keeps_fst (cutTx_keeps ?_) | split | apply keeps1_mk)

end Sys2Proof.Machine
end

