-- ==== Sys2Proof/Laws/RevOpsKeep.lean ====
section
/-! SUPPORT. Each operation of Machine/RevOps.lean keeps what `Keeps` says. -/

set_option Elab.async false

namespace Sys2Proof.Machine

open Sys2Proof

variable {W : List Part}

theorem logEntry_keeps {r s : State} {a0 a1 a2 a3} [May W .regs] [May W .hif] [May W .rev] [May W .out] (h : Keeps W r s)
    : Keeps W r (logEntry s a0 a1 a2 a3) := by
  unfold logEntry
  repeat (with_reducible first
    | assumption | apply keeps_ite | apply State.wr_keeps | apply fireOwner_keeps | apply keeps_rev)

theorem pldmEvent_keeps {r s : State} {a0} [May W .out] (h : Keeps W r s) : Keeps W r (pldmEvent s a0) := by
  unfold pldmEvent
  repeat (with_reducible first
    | assumption | apply State.emit_keeps | split)

theorem stateEvent_keeps {r s : State} {a0 a1 a2} [May W .out] (h : Keeps W r s) : Keeps W r (stateEvent s a0 a1 a2) := by
  unfold stateEvent
  repeat (with_reducible first
    | assumption | apply pldmEvent_keeps)

theorem numEvent_keeps {r s : State} {a0 a1 a2 a3} [May W .out] (h : Keeps W r s) : Keeps W r (numEvent s a0 a1 a2 a3) := by
  unfold numEvent
  repeat (with_reducible first
    | assumption | apply pldmEvent_keeps)

theorem markRetired_keeps {r s : State} {a0 a1 a2} [May W .regs] [May W .rev] (h : Keeps W r s)
    : Keeps W r (markRetired s a0 a1 a2) := by
  unfold markRetired
  repeat (with_reducible first
    | assumption | intro _ | apply keeps_ite | apply keeps_foldl | apply State.wr_keeps | split | apply keeps_rev)

theorem spareRow_keeps {r s : State} {u w l} [May W .regs] [May W .fil] [May W .rev] (h : Keeps W r s)
    : Keeps1 W r (spareRow s u w l) := by
  unfold spareRow
  extract_lets n x t
  have ht : Keeps W r t := keeps_rev h
  clear_value t
  refine keeps1_ite (keeps1_mk h) (keeps1_mk (State.inc_keeps (State.satAdd_keeps (keeps_fil ht rfl rfl))))

theorem recordRetire_keeps {r s : State} {a0 a1 a2} [May W .regs] [May W .hif] [May W .rev] [May W .out] (h : Keeps W r s)
    : Keeps W r (recordRetire s a0 a1 a2) := by
  unfold recordRetire
  repeat (with_reducible first
    | assumption | apply markRetired_keeps | apply State.inc_keeps | apply logEntry_keeps | apply stateEvent_keeps
    | apply keeps_rev)

theorem countFailure_keeps {r s : State} {a0 a1 a2 a3} [May W .regs] [May W .hif] [May W .fil] [May W .rev] [May W .out]
    (h : Keeps W r s) : Keeps1 W r (countFailure s a0 a1 a2 a3) := by
  unfold countFailure
  repeat (with_reducible first
    | (lift_lets
       intro x
       first
       | (have hx : Keeps W r x := (by
            unfold x
            repeat (with_reducible first
              | assumption | apply keeps_ite | apply keeps1_ite | apply State.inc_keeps | apply State.satAdd_keeps
              | apply logEntry_keeps | apply spareRow_keeps | apply recordRetire_keeps
              | refine keeps_of1 (by with_reducible assumption) ?_ | exact keeps_fst (by with_reducible assumption)
              | refine keeps_fst (spareRow_keeps ?_) | split | apply keeps1_mk | apply keeps_rev))
          clear_value x)
       | (have hx : Keeps1 W r x := (by
            unfold x
            repeat (with_reducible first
              | assumption | apply keeps_ite | apply keeps1_ite | apply State.inc_keeps | apply State.satAdd_keeps
              | apply logEntry_keeps | apply spareRow_keeps | apply recordRetire_keeps
              | refine keeps_of1 (by with_reducible assumption) ?_ | exact keeps_fst (by with_reducible assumption)
              | refine keeps_fst (spareRow_keeps ?_) | split | apply keeps1_mk | apply keeps_rev))
          clear_value x)
       | clear_value x)
    | assumption | apply keeps_ite | apply keeps1_ite | apply State.inc_keeps | apply State.satAdd_keeps
    | apply logEntry_keeps | apply spareRow_keeps | apply recordRetire_keeps
    | refine keeps_of1 (by with_reducible assumption) ?_ | exact keeps_fst (by with_reducible assumption)
    | refine keeps_fst (spareRow_keeps ?_) | split | apply keeps1_mk | apply keeps_rev)

theorem hbmFail_keeps {r s : State} {a0} [May W .regs] [May W .hif] [May W .fil] [May W .rev] [May W .out] (h
    : Keeps W r s) : Keeps W r (hbmFail s a0) := by
  unfold hbmFail
  dsimp only
  repeat (with_reducible first
    | assumption | apply countFailure_keeps | apply State.wr_keeps
    | refine keeps_of1 (by with_reducible assumption) ?_ | exact keeps_fst (by with_reducible assumption)
    | refine keeps_fst (countFailure_keeps ?_) | split | apply keeps1_mk)

end Sys2Proof.Machine
end

