-- ==== Sys2Proof/Laws/GrnOpsKeep.lean ====
section
/-! SUPPORT. Each operation of Machine/GrnOps.lean keeps what `Keeps` says. -/

set_option Elab.async false

namespace Sys2Proof.Machine

open Sys2Proof

variable {W : List Part}

theorem grnShow_keeps {r s : State} [May W .regs] (h : Keeps W r s) : Keeps W r (grnShow s) := by
  unfold grnShow
  repeat (with_reducible first
    | assumption | apply State.wr_keeps)

theorem holdCell_keeps {r s : State} {a0} [May W .grn] (h : Keeps W r s) : Keeps W r (holdCell s a0) := by
  unfold holdCell
  repeat (with_reducible first
    | assumption | apply keeps_grn)

theorem freeCell_keeps {r s : State} {a0} [May W .grn] (h : Keeps W r s) : Keeps W r (freeCell s a0) := by
  unfold freeCell
  repeat (with_reducible first
    | assumption | apply keeps_grn)

theorem writeCycle_keeps {r s : State} {a0 a1 a2} [May W .grn] (h : Keeps W r s) : Keeps1 W r (writeCycle s a0 a1 a2) := by
  unfold writeCycle
  repeat (with_reducible first
    | assumption | intro _ | apply keeps_foldl | apply keeps1_foldl | apply holdCell_keeps
    | refine keeps_of1 (by with_reducible assumption) ?_ | exact keeps_fst (by with_reducible assumption) | split
    | apply keeps1_mk | apply keeps_grn)

theorem writeCell_keeps {r : State} [May W .grn] (k : List Nat) : ∀ {s : State} {a0 a1}, Keeps W r s
    → Keeps1 W r (writeCell s a0 k a1) := by
  induction k with
  | nil =>
    intro s a0 a1 h
    rw [writeCell]
    repeat (with_reducible first
      | assumption | apply writeCycle_keeps | refine keeps_of1 (by with_reducible assumption) ?_
      | exact keeps_fst (by with_reducible assumption) | refine keeps_fst (writeCycle_keeps ?_) | split
      | apply keeps1_mk)
  | cons x l ih =>
    intro s a0 a1 h
    rw [writeCell]
    repeat (with_reducible first
      | assumption | apply writeCycle_keeps | apply ih | refine keeps_of1 (by with_reducible assumption) ?_
      | exact keeps_fst (by with_reducible assumption) | refine keeps_fst (writeCycle_keeps ?_) | split
      | apply keeps1_mk)

theorem writeCells_keeps {r : State} [May W .grn] (k : Nat) : ∀ {s : State} {a0 a1}, Keeps W r s
    → Keeps1 W r (writeCells s a0 a1 k) := by
  induction k with
  | zero =>
    intro s a0 a1 h
    rw [writeCells]
    repeat (with_reducible first
      | assumption | apply writeCell_keeps | refine keeps_of1 (by with_reducible assumption) ?_
      | exact keeps_fst (by with_reducible assumption) | refine keeps_fst (writeCell_keeps _ ?_) | split
      | apply keeps1_mk)
  | succ n ih =>
    intro s a0 a1 h
    rw [writeCells]
    repeat (with_reducible first
      | assumption | apply writeCell_keeps | apply ih | refine keeps_of1 (by with_reducible assumption) ?_
      | exact keeps_fst (by with_reducible assumption) | refine keeps_fst (writeCell_keeps _ ?_) | split
      | apply keeps1_mk)

theorem newCells_keeps {r s : State} {a0 a1} [May W .grn] [May W .free] (h : Keeps W r s) : Keeps1 W r (newCells s a0 a1)
    := by
  unfold newCells
  repeat (with_reducible first
    | assumption | apply State.freeBits_keeps | apply writeCells_keeps
    | refine keeps_of1 (by with_reducible assumption) ?_ | exact keeps_fst (by with_reducible assumption)
    | refine keeps_fst (writeCells_keeps _ ?_) | refine keeps_of2 (by with_reducible assumption) ?_
    | exact keeps_snd (by with_reducible assumption) | refine keeps_snd (State.freeBits_keeps ?_) | split
    | apply keeps1_mk | apply keeps2_mk)

theorem sendPfc_keeps {r s : State} {a0 a1 a2} [May W .regs] [May W .out] (h : Keeps W r s)
    : Keeps W r (sendPfc s a0 a1 a2) := by
  unfold sendPfc
  repeat (with_reducible first
    | assumption | apply keeps_ite | apply State.inc_keeps | apply State.emit_keeps)

theorem xoffCheck_keeps {r s : State} {a0 a1} [May W .regs] [May W .out] (h : Keeps W r s) : Keeps W r (xoffCheck s a0 a1)
    := by
  unfold xoffCheck
  repeat (with_reducible first
    | assumption | apply keeps_ite | apply State.wr_keeps | apply sendPfc_keeps)

theorem xonCheck_keeps {r s : State} {a0 a1} [May W .regs] [May W .out] (h : Keeps W r s) : Keeps W r (xonCheck s a0 a1) := by
  unfold xonCheck
  repeat (with_reducible first
    | assumption | apply keeps_ite | apply State.wr_keeps | apply sendPfc_keeps)

theorem takePools_keeps {r s : State} {a0} [May W .regs] [May W .grn] (h : Keeps W r s) : Keeps W r (takePools s a0) := by
  unfold takePools
  repeat (with_reducible first
    | assumption | apply grnShow_keeps | apply keeps_grn)

theorem givePools_keeps {r s : State} {a0} [May W .regs] [May W .grn] (h : Keeps W r s) : Keeps W r (givePools s a0) := by
  unfold givePools
  repeat (with_reducible first
    | assumption | apply grnShow_keeps | apply keeps_grn)

theorem acctTake_keeps {r s : State} {a0 a1} [May W .regs] [May W .grn] [May W .out] (h : Keeps W r s)
    : Keeps W r (acctTake s a0 a1) := by
  unfold acctTake
  repeat (with_reducible first
    | assumption | apply xoffCheck_keeps | apply keeps_grn)

theorem acctGive_keeps {r s : State} {a0 a1} [May W .regs] [May W .grn] [May W .out] (h : Keeps W r s)
    : Keeps W r (acctGive s a0 a1) := by
  unfold acctGive
  repeat (with_reducible first
    | assumption | apply xonCheck_keeps | apply keeps_grn)

theorem putFrame_keeps {r s : State} {a0 a1} [May W .grn] (h : Keeps W r s) : Keeps W r (putFrame s a0 a1) := by
  unfold putFrame
  repeat (with_reducible first
    | assumption | apply keeps_grn)

theorem storeFrame_keeps {r s : State} {a0} [May W .regs] [May W .grn] [May W .out] [May W .free] (h : Keeps W r s)
    : Keeps1 W r (storeFrame s a0) := by
  unfold storeFrame
  repeat (with_reducible first
    | assumption | intro _ | apply keeps_ite | apply keeps1_ite | apply keeps_foldl | apply keeps1_foldl
    | apply newCells_keeps | apply holdCell_keeps | apply takePools_keeps | apply putFrame_keeps
    | apply State.add_keeps | apply acctTake_keeps | refine keeps_of1 (by with_reducible assumption) ?_
    | exact keeps_fst (by with_reducible assumption) | refine keeps_fst (newCells_keeps ?_) | split | apply keeps1_mk
    | apply keeps_grn)

theorem giveCells_keeps {r s : State} {a0 a1} [May W .regs] [May W .grn] [May W .out] (h : Keeps W r s)
    : Keeps W r (giveCells s a0 a1) := by
  unfold giveCells
  repeat (with_reducible first
    | assumption | intro _ | apply keeps_ite | apply keeps_foldl | apply State.sub_keeps | apply givePools_keeps
    | apply freeCell_keeps | apply acctGive_keeps | split | apply keeps_grn)

theorem dropRef_keeps {r s : State} {a0} [May W .regs] [May W .grn] [May W .out] (h : Keeps W r s)
    : Keeps W r (dropRef s a0) := by
  unfold dropRef
  repeat (with_reducible first
    | assumption | apply keeps_ite | apply giveCells_keeps | apply putFrame_keeps | apply keeps_grn)

theorem chargeQueue_keeps {r s : State} {a0 a1 a2} [May W .regs] [May W .grn] (h : Keeps W r s)
    : Keeps W r (chargeQueue s a0 a1 a2) := by
  unfold chargeQueue
  repeat (with_reducible first
    | assumption | apply State.add_keeps | apply keeps_grn)

theorem unchargeQueue_keeps {r s : State} {a0 a1 a2} [May W .regs] [May W .grn] (h : Keeps W r s)
    : Keeps W r (unchargeQueue s a0 a1 a2) := by
  unfold unchargeQueue
  repeat (with_reducible first
    | assumption | apply State.sub_keeps | apply keeps_grn)

theorem releaseEnt_keeps {r s : State} {a0 a1 a2} [May W .regs] [May W .grn] [May W .out] (h : Keeps W r s)
    : Keeps W r (releaseEnt s a0 a1 a2) := by
  unfold releaseEnt
  repeat (with_reducible first
    | assumption | apply dropRef_keeps | apply unchargeQueue_keeps)

theorem setQueue_keeps {r s : State} {a0 a1} [May W .grn] (h : Keeps W r s) : Keeps W r (setQueue s a0 a1) := by
  unfold setQueue
  repeat (with_reducible first
    | assumption | apply keeps_grn)

theorem setDeep_keeps {r s : State} {a0 a1} [May W .grn] (h : Keeps W r s) : Keeps W r (setDeep s a0 a1) := by
  unfold setDeep
  repeat (with_reducible first
    | assumption | apply keeps_grn)

theorem enqueue_keeps {r s : State} {a0 a1 a2} [May W .regs] [May W .grn] [May W .tly] [May W .out] (h : Keeps W r s)
    : Keeps W r (enqueue s a0 a1 a2) := by
  unfold enqueue
  repeat (with_reducible first
    | assumption | apply keeps_ite | apply State.inc_keeps | apply releaseEnt_keeps | apply setQueue_keeps
    | apply State.add_keeps | apply onBacklog_keeps)

theorem deepTake_keeps {r s : State} {a0 a1 a2} [May W .regs] [May W .grn] (h : Keeps W r s)
    : Keeps W r (deepTake s a0 a1 a2) := by
  unfold deepTake
  repeat (with_reducible first
    | assumption | apply State.add_keeps | apply keeps_grn)

theorem deepGive_keeps {r s : State} {a0 a1 a2} [May W .regs] [May W .grn] (h : Keeps W r s)
    : Keeps W r (deepGive s a0 a1 a2) := by
  unfold deepGive
  repeat (with_reducible first
    | assumption | apply State.sub_keeps | apply keeps_grn)

theorem spill_keeps {r s : State} {a0 a1 a2} [May W .regs] [May W .grn] [May W .tly] [May W .free] (h : Keeps W r s)
    : Keeps W r (spill s a0 a1 a2) := by
  unfold spill
  repeat (with_reducible first
    | assumption | apply keeps_ite | apply keeps2_ite | apply State.freeBits_keeps | apply deepTake_keeps
    | apply unchargeQueue_keeps | apply setDeep_keeps | apply State.add_keeps | apply State.inc_keeps
    | apply onBacklog_keeps | refine keeps_of2 (by with_reducible assumption) ?_
    | exact keeps_snd (by with_reducible assumption) | refine keeps_snd (State.freeBits_keeps ?_) | split
    | apply keeps2_mk | apply keeps_grn)

theorem deepWrite_keeps {r : State} [May W .regs] [May W .hbm] [May W .fil] (k : List Nat) : ∀ {s : State}
    {a0}, Keeps W r s → Keeps W r (deepWrite s a0 k) := by
  induction k with
  | nil =>
    intro s a0 h
    rw [deepWrite]
    repeat (with_reducible first
      | assumption | apply State.hbmWrite_keeps | split)
  | cons x l ih =>
    intro s a0 h
    rw [deepWrite]
    repeat (with_reducible first
      | assumption | apply State.hbmWrite_keeps | apply ih | split)

theorem spillWrite_keeps {r s : State} {a0 a1} [May W .regs] [May W .hbm] [May W .fil] [May W .grn] [May W .out] (h
    : Keeps W r s) : Keeps W r (spillWrite s a0 a1) := by
  unfold spillWrite
  repeat (with_reducible first
    | assumption | intro _ | apply keeps_ite | apply deepWrite_keeps | apply dropRef_keeps | apply putFrame_keeps
    | apply setDeep_keeps | split | apply keeps_grn)

theorem spillFor_keeps {r : State} [May W .regs] [May W .hbm] [May W .fil] [May W .grn] [May W .out] (k : Nat) : ∀ {s
    : State} {t}, Keeps W r s → Keeps W r (spillFor s t k) := by
  induction k with
  | zero =>
    intro s t h
    rw [spillFor]
    exact h
  | succ n ih =>
    intro s t h
    rw [spillFor.eq_def]
    split
    · contradiction
    · exact keeps_grn h
    · rename_i e _
      cases e
      exact keeps_ite (ih (spillWrite_keeps (keeps_grn h))) (keeps_grn h)

theorem joinQueue_keeps {r s : State} {a0 a1 a2 a3} [May W .regs] [May W .grn] [May W .tly] [May W .out] [May W .free] (h
    : Keeps W r s) : Keeps W r (joinQueue s a0 a1 a2 a3) := by
  unfold joinQueue
  repeat (with_reducible first
    | assumption | apply keeps_ite | apply enqueue_keeps | apply spill_keeps | apply State.inc_keeps
    | apply releaseEnt_keeps | split)

theorem deliverTo_keeps {r s : State} {a0} [May W .grn] (h : Keeps W r s) : Keeps W r (deliverTo s a0) := by
  unfold deliverTo
  repeat (with_reducible first
    | assumption | apply keeps_grn)

theorem makeCopy_keeps {r s : State} {a0 a1 a2 a3} [May W .regs] [May W .grn] [May W .tly] [May W .out] [May W .free] (h
    : Keeps W r s) : Keeps W r (makeCopy s a0 a1 a2 a3) := by
  unfold makeCopy
  repeat (with_reducible first
    | assumption | intro _ | apply keeps_ite | apply keeps1_ite | apply State.inc_keeps | apply storeFrame_keeps
    | apply deliverTo_keeps | apply chargeQueue_keeps | apply joinQueue_keeps
    | refine keeps_of1 (by with_reducible assumption) ?_ | exact keeps_fst (by with_reducible assumption)
    | refine keeps_fst (storeFrame_keeps ?_) | split | apply keeps1_mk)

theorem sampleHit_keeps {r s : State} {a0} [May W .grn] [May W .free] (h : Keeps W r s) : Keeps1 W r (sampleHit s a0) := by
  unfold sampleHit
  repeat (with_reducible first
    | assumption | apply keeps_ite | apply keeps1_ite | apply keeps2_ite | apply State.freeBits_keeps
    | refine keeps_of1 (by with_reducible assumption) ?_ | exact keeps_fst (by with_reducible assumption)
    | refine keeps_of2 (by with_reducible assumption) ?_ | exact keeps_snd (by with_reducible assumption)
    | refine keeps_snd (State.freeBits_keeps ?_) | split | apply keeps1_mk | apply keeps2_mk | apply keeps_grn)

theorem ingressCopies_keeps {r s : State} {a0 a1 a2 a3} [May W .regs] [May W .grn] [May W .tly] [May W .out]
    [May W .free] (h : Keeps W r s) : Keeps W r (ingressCopies s a0 a1 a2 a3) := by
  unfold ingressCopies
  repeat (with_reducible first
    | assumption | apply keeps_ite | apply keeps1_ite | apply makeCopy_keeps | apply sampleHit_keeps
    | refine keeps_of1 (by with_reducible assumption) ?_ | exact keeps_fst (by with_reducible assumption)
    | refine keeps_fst (sampleHit_keeps ?_) | split | apply keeps1_mk)

theorem queueFrame_keeps {r s : State} {a0 a1 a2 a3 a4 a5} [May W .regs] [May W .grn] [May W .tly] [May W .out]
    [May W .free] (h : Keeps W r s) :
    Keeps1 W r (queueFrame s a0 a1 a2 a3 a4 a5) := by
  unfold queueFrame
  repeat (with_reducible first
    | assumption | apply keeps_ite | apply keeps1_ite | apply State.inc_keeps | apply storeFrame_keeps
    | apply chargeQueue_keeps | apply releaseEnt_keeps | apply joinQueue_keeps
    | refine keeps_of1 (by with_reducible assumption) ?_ | exact keeps_fst (by with_reducible assumption)
    | refine keeps_fst (storeFrame_keeps ?_) | split | apply keeps1_mk)

theorem toQueue_keeps {r s : State} {a0 a1 a2} [May W .regs] [May W .grn] [May W .tly] [May W .out] [May W .free] (h
    : Keeps W r s) : Keeps1 W r (toQueue s a0 a1 a2) := by
  unfold toQueue
  repeat (with_reducible first
    | assumption | apply keeps_ite | apply keeps1_ite | apply State.inc_keeps | apply queueFrame_keeps
    | refine keeps_of1 (by with_reducible assumption) ?_ | exact keeps_fst (by with_reducible assumption)
    | refine keeps_fst (queueFrame_keeps ?_) | split | apply keeps1_mk)

theorem mcRefuse_keeps {r s : State} {a0} [May W .regs] (h : Keeps W r s) : Keeps W r (mcRefuse s a0) := by
  unfold mcRefuse
  repeat (with_reducible first
    | assumption | apply State.inc_keeps | split)

theorem mcAdmit_keeps {r s : State} {w b c} [May W .regs] [May W .grn] [May W .out] [May W .free] (h : Keeps W r s)
    : Keeps1 W r (mcAdmit s w b c) := by
  unfold mcAdmit
  extract_lets n l t
  have ht : Keeps W r t := keeps_foldl h fun _ _ hs => mcRefuse_keeps hs
  clear_value t
  split
  · exact keeps1_mk ht
  · split
    rename_i e
    have h1 := keeps_of1 e (storeFrame_keeps ht)
    exact keeps1_mk (keeps_foldl h1 fun _ _ hs => chargeQueue_keeps hs)

theorem mcDiscard_keeps {r s : State} {a0 a1} [May W .regs] [May W .grn] [May W .out] (h : Keeps W r s)
    : Keeps W r (mcDiscard s a0 a1) := by
  unfold mcDiscard
  repeat (with_reducible first
    | assumption | intro _ | apply keeps_foldl | apply releaseEnt_keeps)

theorem toGroup_keeps {r s : State} {w g} [May W .regs] [May W .grn] [May W .out] [May W .free] (h : Keeps W r s)
    : Keeps1 W r (toGroup s w g) := by
  unfold toGroup
  refine keeps1_ite (keeps1_mk (State.inc_keeps h)) ?_
  split
  refine keeps1_ite (keeps1_mk (keeps_ite h (State.inc_keeps h))) ?_
  split
  rename_i e
  have h1 := keeps_of1 e (mcAdmit_keeps h)
  clear e
  split
  · exact keeps1_mk h1
  · exact keeps1_ite (keeps1_mk (mcDiscard_keeps h1)) (keeps1_mk (keeps_grn h1))

theorem mcOne_keeps {r s : State} {a0 a1} [May W .regs] [May W .grn] [May W .tly] [May W .out] [May W .free] (h
    : Keeps W r s) : Keeps W r (mcOne s a0 a1) := by
  unfold mcOne
  dsimp only
  repeat (with_reducible first
    | assumption | apply keeps_ite | apply releaseEnt_keeps | apply unchargeQueue_keeps | apply joinQueue_keeps
    | apply chargeQueue_keeps | apply State.inc_keeps | split)

theorem mcEnqueue_keeps {r : State} [May W .regs] [May W .grn] [May W .tly] [May W .out] [May W .free] (k : Nat) : ∀ {s
    : State}, Keeps W r s → Keeps W r (mcEnqueue s k) := by
  induction k with
  | zero =>
    intro s  h
    rw [mcEnqueue]
    repeat (with_reducible first
      | assumption | apply keeps_ite | apply mcOne_keeps | split | apply keeps_grn)
  | succ n ih =>
    intro s  h
    rw [mcEnqueue]
    repeat (with_reducible first
      | assumption | apply keeps_ite | apply mcOne_keeps | apply ih | split | apply keeps_grn)

theorem toFilbert_keeps {r s : State} {a0 a1} [May W .regs] [May W .grn] [May W .out] [May W .free] (h : Keeps W r s)
    : Keeps1 W r (toFilbert s a0 a1) := by
  unfold toFilbert
  repeat (with_reducible first
    | assumption | apply keeps_ite | apply keeps1_ite | apply State.inc_keeps | apply storeFrame_keeps
    | apply deliverTo_keeps | refine keeps_of1 (by with_reducible assumption) ?_
    | exact keeps_fst (by with_reducible assumption) | refine keeps_fst (storeFrame_keeps ?_) | split
    | apply keeps1_mk)

theorem toCarter_keeps {r s : State} {a0} [May W .regs] [May W .win] [May W .grn] [May W .out] [May W .free] (h
    : Keeps W r s) : Keeps W r (toCarter s a0) := by
  unfold toCarter
  repeat (with_reducible first
    | assumption | apply keeps_ite | apply keeps1_ite | apply State.inc_keeps | apply storeFrame_keeps
    | refine keeps_of1 (by with_reducible assumption) ?_ | exact keeps_fst (by with_reducible assumption)
    | refine keeps_fst (storeFrame_keeps ?_) | split | apply keeps1_mk | apply keeps_win)

theorem deepMove_keeps {r s : State} {a0 a1 a2 a3 a4} [May W .regs] [May W .grn] [May W .free] (h : Keeps W r s)
    : Keeps W r (deepMove s a0 a1 a2 a3 a4) := by
  unfold deepMove
  repeat (with_reducible first
    | assumption | intro _ | apply newCells_keeps | apply putFrame_keeps | apply State.add_keeps
    | apply takePools_keeps | apply chargeQueue_keeps | apply deepGive_keeps | apply setDeep_keeps
    | apply setQueue_keeps | apply State.inc_keeps | refine keeps_of1 (by with_reducible assumption) ?_
    | exact keeps_fst (by with_reducible assumption) | refine keeps_fst (newCells_keeps ?_) | split | apply keeps1_mk)

theorem deepReturn_keeps {r s : State} {a0 a1} [May W .regs] [May W .hif] [May W .fil] [May W .rev] [May W .grn]
    [May W .out] [May W .free] (h : Keeps W r s) : Keeps W r (deepReturn s a0 a1) := by
  unfold deepReturn
  repeat (with_reducible first
    | assumption | intro _ | apply keeps_ite | apply keeps_foldl | apply hbmFail_keeps | apply deepMove_keeps | split)

theorem flushQueue_keeps {r s : State} {a0 a1} [May W .regs] [May W .grn] [May W .out] (h : Keeps W r s)
    : Keeps1 W r (flushQueue s a0 a1) := by
  unfold flushQueue
  repeat (with_reducible first
    | assumption | intro _ | apply keeps_foldl | apply keeps1_foldl | apply dropRef_keeps | apply deepGive_keeps
    | apply setDeep_keeps | apply setQueue_keeps | refine keeps_of1 (by with_reducible assumption) ?_
    | exact keeps_fst (by with_reducible assumption) | apply keeps1_mk | apply keeps_grn)

theorem flushEp_keeps {r s : State} {e} [May W .regs] [May W .grn] [May W .tly] [May W .out] (h : Keeps W r s)
    : Keeps1 W r (flushEp s e) := by
  unfold flushEp
  dsimp only
  refine keeps1_foldl (keeps1_mk (keeps_tly h)) fun s b x hs => ?_
  exact keeps_fst (flushQueue_keeps hs)

theorem flushOne_keeps {r s : State} {a0 a1} [May W .regs] [May W .grn] [May W .out] (h : Keeps W r s)
    : Keeps W r (flushOne s a0 a1) := by
  unfold flushOne
  repeat (with_reducible first
    | assumption | apply keeps_ite | apply unchargeQueue_keeps | apply dropRef_keeps | apply putFrame_keeps
    | apply giveCells_keeps | apply keeps_grn)

theorem flushReturn_keeps {r : State} [May W .regs] [May W .grn] [May W .out] (k : Nat) : ∀ {s : State}, Keeps W r s
    → Keeps W r (flushReturn s k) := by
  induction k with
  | zero =>
    intro s  h
    rw [flushReturn]
    repeat (with_reducible first
      | assumption | apply keeps_ite | apply flushOne_keeps | split | apply keeps_grn)
  | succ n ih =>
    intro s  h
    rw [flushReturn]
    repeat (with_reducible first
      | assumption | apply keeps_ite | apply flushOne_keeps | apply ih | split | apply keeps_grn)

theorem grnErr_keeps {r s : State} {a0} [May W .regs] (h : Keeps W r s) : Keeps W r (grnErr s a0) := by
  unfold grnErr
  repeat (with_reducible first
    | assumption | apply State.wr_keeps)

theorem grnEnable_keeps {r s : State} {a0} [May W .regs] (h : Keeps W r s) : Keeps W r (grnEnable s a0) := by
  unfold grnEnable
  repeat (with_reducible first
    | assumption | apply keeps_ite | apply grnShow_keeps | apply State.wr_keeps | apply grnErr_keeps | split)

end Sys2Proof.Machine
end

