-- ==== Sys2Proof/Laws/FrameOpsKeep.lean ====
section
/-! SUPPORT. Each operation of Machine/FrameOps.lean keeps what `Keeps` says. -/

set_option Elab.async false

namespace Sys2Proof.Machine

open Sys2Proof

variable {W : List Part}

theorem putWin_keeps {r s : State} {a0} [May W .win] (h : Keeps W r s) : Keeps W r (putWin s a0) := by
  unfold putWin
  repeat (with_reducible first
    | assumption | apply keeps_win)

theorem pipeCount_keeps {r s : State} {a0 a1} [May W .regs] (h : Keeps W r s) : Keeps W r (pipeCount s a0 a1) := by
  unfold pipeCount
  repeat (with_reducible first
    | assumption | apply State.inc_keeps)

theorem winCount_keeps {r s : State} {a0} [May W .regs] (h : Keeps W r s) : Keeps W r (winCount s a0) := by
  unfold winCount
  repeat (with_reducible first
    | assumption | apply State.inc_keeps)

theorem toInternal_keeps {r s : State} {a0} [May W .win] (h : Keeps W r s) : Keeps W r (toInternal s a0) := by
  unfold toInternal
  repeat (with_reducible first
    | assumption | apply putWin_keeps)

theorem fragLifeWrite_keeps {r s : State} {a0} [May W .regs] [May W .win] (h : Keeps W r s)
    : Keeps W r (fragLifeWrite s a0) := by
  unfold fragLifeWrite
  repeat (with_reducible first
    | assumption | apply State.wr_keeps | apply putWin_keeps)

theorem fragShow_keeps {r s : State} [May W .regs] (h : Keeps W r s) : Keeps W r (fragShow s) := by
  unfold fragShow
  repeat (with_reducible first
    | assumption | apply State.wr_keeps)

theorem fragSweep_keeps {r s : State} [May W .regs] [May W .win] (h : Keeps W r s) : Keeps W r (fragSweep s) := by
  unfold fragSweep
  repeat (with_reducible first
    | assumption | intro _ | apply keeps_ite | apply fragShow_keeps | apply State.add_keeps | apply putWin_keeps)

theorem fragWrite_keeps {r s : State} {a0 a1} [May W .regs] [May W .win] (h : Keeps W r s) : Keeps W r (fragWrite s a0 a1)
    := by
  unfold fragWrite
  repeat (with_reducible first
    | assumption | intro _ | apply keeps_ite | apply fragSweep_keeps | apply fragShow_keeps | apply putWin_keeps
    | apply winCount_keeps | split)

theorem scanStart_keeps {r s : State} {a0 a1} [May W .regs] [May W .win] (h : Keeps W r s)
    : Keeps1 W r (scanStart s a0 a1) := by
  unfold scanStart
  repeat (with_reducible first
    | assumption | apply keeps_ite | apply keeps1_ite | apply winCount_keeps | apply putWin_keeps
    | refine keeps_of1 (by with_reducible assumption) ?_ | exact keeps_fst (by with_reducible assumption) | split
    | apply keeps1_mk)

theorem addCounter_keeps {r s : State} {a0 a1} [May W .win] (h : Keeps W r s) : Keeps W r (addCounter s a0 a1) := by
  unfold addCounter
  repeat (with_reducible first
    | assumption | apply putWin_keeps | split)

theorem meter_keeps {r s : State} {a0 a1 a2 a3 a4} [May W .regs] [May W .win] [May W .tly] (h : Keeps W r s)
    : Keeps1 W r (meter s a0 a1 a2 a3 a4) := by
  unfold meter
  repeat (with_reducible first
    | assumption | apply keeps_ite | apply keeps1_ite | apply addCounter_keeps | apply police_keeps
    | refine keeps_of1 (by with_reducible assumption) ?_ | exact keeps_fst (by with_reducible assumption)
    | refine keeps_fst (police_keeps ?_) | apply keeps1_mk)

theorem toChan_keeps {r s : State} {a0 a1 a2 a3 a4 a5} [May W .regs] [May W .grn] [May W .out] [May W .free] (h
    : Keeps W r s) : Keeps1 W r (toChan s a0 a1 a2 a3 a4 a5) := by
  unfold toChan
  repeat (with_reducible first
    | assumption | apply toFilbert_keeps | refine keeps_of1 (by with_reducible assumption) ?_
    | exact keeps_fst (by with_reducible assumption) | refine keeps_fst (toFilbert_keeps ?_) | apply keeps1_mk)

theorem actForward_keeps {r s : State} {w a b c d e f} [May W .regs] [May W .win] [May W .grn] [May W .tly]
    [May W .out] [May W .free] (h : Keeps W r s) : Keeps W r (actForward s w a b c d e f) := by
  unfold actForward
  extract_lets v fw copies
  have hc : ∀ x k, Keeps1 W r x → Keeps W r (copies x k) := by
    intro x k hx
    unfold copies
    split
    · exact keeps_ite hx (ingressCopies_keeps hx)
    · exact hx
  clear_value copies
  split
  · exact hc _ _ (toQueue_keeps h)
  · exact hc _ _ (toGroup_keeps h)
  · exact hc _ _ (toChan_keeps h)
  · exact toCarter_keeps h
  · exact keeps_ite h (winCount_keeps (putWin_keeps h))
  · exact h

theorem runActions_keeps {r s : State} {a0 a1 a2 a3 a4 a5} [May W .regs] [May W .win] [May W .grn] [May W .tly]
    [May W .out] [May W .free] (h : Keeps W r s) :
    Keeps W r (runActions s a0 a1 a2 a3 a4 a5) := by
  unfold runActions
  repeat (with_reducible first
    | assumption | apply keeps_ite | apply keeps1_ite | apply meter_keeps | apply actForward_keeps
    | refine keeps_of1 (by with_reducible assumption) ?_ | exact keeps_fst (by with_reducible assumption)
    | refine keeps_fst (meter_keeps ?_) | split | apply keeps1_mk)

theorem doLookup_keeps {r s : State} {a0 a1 a2} [May W .regs] [May W .hbm] [May W .fil] [May W .win] (h : Keeps W r s)
    : Keeps2 W r (doLookup s a0 a1 a2) := by
  unfold doLookup
  repeat (with_reducible first
    | assumption | apply lookup_keeps | refine keeps_of2 (by with_reducible assumption) ?_
    | exact keeps_snd (by with_reducible assumption) | refine keeps_snd (lookup_keeps ?_) | split | apply keeps2_mk)

theorem countCauses_keeps {r s : State} {a0 a1} [May W .regs] (h : Keeps W r s) : Keeps W r (countCauses s a0 a1) := by
  unfold countCauses
  repeat (with_reducible first
    | assumption | intro _ | apply keeps_ite | apply keeps_foldl | apply pipeCount_keeps)

theorem exceptionAct_keeps {r s : State} {a0 a1 a2} [May W .regs] [May W .win] [May W .grn] [May W .out] [May W .free] (h
    : Keeps W r s) : Keeps1 W r (exceptionAct s a0 a1 a2) := by
  unfold exceptionAct
  repeat (with_reducible first
    | assumption | apply keeps1_mk | apply keeps_ite | apply keeps1_ite | apply pipeCount_keeps
    | apply scanStart_keeps | apply toChan_keeps | refine keeps_of1 (by with_reducible assumption) ?_
    | exact keeps_fst (by with_reducible assumption) | refine keeps_fst (scanStart_keeps ?_)
    | refine keeps_fst (toChan_keeps ?_) | split)

theorem takeException_keeps {r s : State} {a0 a1} [May W .regs] [May W .win] [May W .grn] [May W .out] [May W .free] (h
    : Keeps W r s) : Keeps1 W r (takeException s a0 a1) := by
  unfold takeException
  repeat (with_reducible first
    | assumption | apply keeps1_mk | apply exceptionAct_keeps | apply fragWrite_keeps | apply countCauses_keeps
    | refine keeps_of1 (by with_reducible assumption) ?_ | exact keeps_fst (by with_reducible assumption)
    | refine keeps_fst (exceptionAct_keeps ?_))

theorem decide'_keeps {r s : State} {a0 a1 a2 a3 a4 a5} [May W .regs] [May W .win] [May W .grn] [May W .tly]
    [May W .out] [May W .free] (h : Keeps W r s) : Keeps1 W r (decide' s a0 a1 a2 a3 a4 a5) := by
  unfold decide'
  repeat (with_reducible first
    | assumption | apply fragWrite_keeps | apply scanStart_keeps | apply runActions_keeps
    | refine keeps_of1 (by with_reducible assumption) ?_ | exact keeps_fst (by with_reducible assumption)
    | refine keeps_fst (scanStart_keeps ?_) | apply keeps1_mk)

theorem espToChan_keeps {r s : State} {a0} [May W .regs] [May W .win] [May W .grn] [May W .out] [May W .free] (h
    : Keeps W r s) : Keeps1 W r (espToChan s a0) := by
  unfold espToChan
  repeat (with_reducible first
    | assumption | apply scanStart_keeps | apply toChan_keeps | apply pipeCount_keeps
    | refine keeps_of1 (by with_reducible assumption) ?_ | exact keeps_fst (by with_reducible assumption)
    | refine keeps_fst (scanStart_keeps ?_) | refine keeps_fst (toChan_keeps ?_) | split | apply keeps1_mk)

theorem espFragment_keeps {r s : State} {a0} [May W .regs] [May W .win] [May W .grn] [May W .out] [May W .free] (h
    : Keeps W r s) : Keeps1 W r (espFragment s a0) := by
  unfold espFragment
  repeat (with_reducible first
    | assumption | apply espToChan_keeps | apply fragWrite_keeps | refine keeps_of1 (by with_reducible assumption) ?_
    | exact keeps_fst (by with_reducible assumption) | refine keeps_fst (espToChan_keeps ?_) | apply keeps1_mk)

theorem fragFollow_keeps {r s : State} {a0 a1} [May W .regs] [May W .win] [May W .grn] [May W .tly] [May W .out]
    [May W .free] (h : Keeps W r s) : Keeps1 W r (fragFollow s a0 a1) := by
  unfold fragFollow
  repeat (with_reducible first
    | (lift_lets
       intro x
       first
       | (have hx : Keeps W r x := (by
            unfold x
            repeat (with_reducible first
              | assumption | intro _ | apply keeps_ite | apply keeps1_ite | apply takeException_keeps
              | apply exceptionAct_keeps | apply winCount_keeps | apply scanStart_keeps | apply runActions_keeps
              | apply espToChan_keeps | refine keeps_of1 (by with_reducible assumption) ?_
              | exact keeps_fst (by with_reducible assumption) | refine keeps_fst (takeException_keeps ?_)
              | refine keeps_fst (exceptionAct_keeps ?_) | refine keeps_fst (scanStart_keeps ?_)
              | refine keeps_fst (espToChan_keeps ?_) | split | apply keeps1_mk))
          clear_value x)
       | (have hx : Keeps1 W r x := (by
            unfold x
            repeat (with_reducible first
              | assumption | intro _ | apply keeps_ite | apply keeps1_ite | apply takeException_keeps
              | apply exceptionAct_keeps | apply winCount_keeps | apply scanStart_keeps | apply runActions_keeps
              | apply espToChan_keeps | refine keeps_of1 (by with_reducible assumption) ?_
              | exact keeps_fst (by with_reducible assumption) | refine keeps_fst (takeException_keeps ?_)
              | refine keeps_fst (exceptionAct_keeps ?_) | refine keeps_fst (scanStart_keeps ?_)
              | refine keeps_fst (espToChan_keeps ?_) | split | apply keeps1_mk))
          clear_value x)
       | clear_value x)
    | assumption | intro _ | apply keeps_ite | apply keeps1_ite | apply takeException_keeps
    | apply exceptionAct_keeps | apply winCount_keeps | apply scanStart_keeps | apply runActions_keeps
    | apply espToChan_keeps | refine keeps_of1 (by with_reducible assumption) ?_
    | exact keeps_fst (by with_reducible assumption) | refine keeps_fst (takeException_keeps ?_)
    | refine keeps_fst (exceptionAct_keeps ?_) | refine keeps_fst (scanStart_keeps ?_)
    | refine keeps_fst (espToChan_keeps ?_) | split | apply keeps1_mk)

theorem resolve_keeps {r s : State} {a0 a1 a2 a3} [May W .regs] [May W .win] [May W .grn] [May W .tly] [May W .out]
    [May W .free] (h : Keeps W r s) : Keeps1 W r (resolve s a0 a1 a2 a3) := by
  unfold resolve
  repeat (with_reducible first
    | assumption | apply keeps_ite | apply keeps1_ite | apply takeException_keeps | apply decide'_keeps
    | refine keeps_of1 (by with_reducible assumption) ?_ | exact keeps_fst (by with_reducible assumption)
    | refine keeps_fst (takeException_keeps ?_) | refine keeps_fst (decide'_keeps ?_) | apply keeps1_mk)

theorem afterLookup_keeps {r s : State} {a0 a1 a2 a3 a4} [May W .regs] [May W .win] [May W .grn] [May W .tly]
    [May W .out] [May W .free] (h : Keeps W r s) :
    Keeps1 W r (afterLookup s a0 a1 a2 a3 a4) := by
  unfold afterLookup
  repeat (with_reducible first
    | assumption | apply keeps_ite | apply keeps1_ite | apply resolve_keeps | apply pipeCount_keeps
    | apply scanStart_keeps | apply runActions_keeps | apply takeException_keeps
    | refine keeps_of1 (by with_reducible assumption) ?_ | exact keeps_fst (by with_reducible assumption)
    | refine keeps_fst (resolve_keeps ?_) | refine keeps_fst (scanStart_keeps ?_)
    | refine keeps_fst (takeException_keeps ?_) | split | apply keeps1_mk)

theorem startStage_keeps {r s : State} {a0} [May W .regs] [May W .win] [May W .grn] [May W .tly] [May W .out]
    [May W .free] (h : Keeps W r s) : Keeps1 W r (startStage s a0) := by
  unfold startStage
  repeat (with_reducible first
    | (lift_lets
       intro x
       first
       | (have hx : Keeps W r x := (by
            unfold x
            repeat (with_reducible first
              | assumption | apply keeps_ite | apply keeps1_ite | apply fragFollow_keeps | apply espFragment_keeps
              | refine keeps_of1 (by with_reducible assumption) ?_ | exact keeps_fst (by with_reducible assumption)
              | refine keeps_fst (fragFollow_keeps ?_) | refine keeps_fst (espFragment_keeps ?_) | split
              | apply keeps1_mk))
          clear_value x)
       | (have hx : Keeps1 W r x := (by
            unfold x
            repeat (with_reducible first
              | assumption | apply keeps_ite | apply keeps1_ite | apply fragFollow_keeps | apply espFragment_keeps
              | refine keeps_of1 (by with_reducible assumption) ?_ | exact keeps_fst (by with_reducible assumption)
              | refine keeps_fst (fragFollow_keeps ?_) | refine keeps_fst (espFragment_keeps ?_) | split
              | apply keeps1_mk))
          clear_value x)
       | clear_value x)
    | assumption | apply keeps_ite | apply keeps1_ite | apply fragFollow_keeps | apply espFragment_keeps
    | refine keeps_of1 (by with_reducible assumption) ?_ | exact keeps_fst (by with_reducible assumption)
    | refine keeps_fst (fragFollow_keeps ?_) | refine keeps_fst (espFragment_keeps ?_) | split | apply keeps1_mk)

theorem runStage_keeps {r s : State} {a0 a1} [May W .regs] [May W .hbm] [May W .fil] [May W .win] [May W .grn]
    [May W .tly] [May W .out] [May W .free] (h : Keeps W r s) : Keeps1 W r (runStage s a0 a1) := by
  unfold runStage
  repeat (with_reducible first
    | assumption | apply keeps_ite | apply keeps1_ite | apply keeps2_ite | apply startStage_keeps
    | apply pipeCount_keeps | apply scanStart_keeps | apply takeException_keeps | apply doLookup_keeps
    | apply afterLookup_keeps | refine keeps_of1 (by with_reducible assumption) ?_
    | exact keeps_fst (by with_reducible assumption) | refine keeps_fst (startStage_keeps ?_)
    | refine keeps_fst (scanStart_keeps ?_) | refine keeps_fst (takeException_keeps ?_)
    | refine keeps_fst (afterLookup_keeps ?_) | refine keeps_of2 (by with_reducible assumption) ?_
    | exact keeps_snd (by with_reducible assumption) | refine keeps_snd (doLookup_keeps ?_) | split | apply keeps1_mk
    | apply keeps2_mk)

theorem advance_keeps {r : State} [May W .regs] [May W .hbm] [May W .fil] [May W .win] [May W .grn] [May W .tly]
    [May W .out] [May W .free] (k : Nat) : ∀ {s : State} {a0 a1 a2}, Keeps W r s → Keeps1 W r (advance s a0 a1 a2 k) := by
  induction k with
  | zero =>
    intro s a0 a1 a2 h
    rw [advance]
    repeat (with_reducible first
      | assumption | apply keeps_ite | apply keeps1_ite | apply runStage_keeps
      | refine keeps_of1 (by with_reducible assumption) ?_ | exact keeps_fst (by with_reducible assumption)
      | refine keeps_fst (runStage_keeps ?_) | split | apply keeps1_mk)
  | succ n ih =>
    intro s a0 a1 a2 h
    rw [advance]
    repeat (with_reducible first
      | assumption | apply keeps_ite | apply keeps1_ite | apply runStage_keeps | apply ih
      | refine keeps_of1 (by with_reducible assumption) ?_ | exact keeps_fst (by with_reducible assumption)
      | refine keeps_fst (runStage_keeps ?_) | split | apply keeps1_mk)

theorem waitShow_keeps {r s : State} {a0} [May W .regs] (h : Keeps W r s) : Keeps W r (waitShow s a0) := by
  unfold waitShow
  repeat (with_reducible first
    | assumption | apply State.wr_keeps)

theorem setWait_keeps {r s : State} {a0 a1} [May W .regs] [May W .win] (h : Keeps W r s) : Keeps W r (setWait s a0 a1) := by
  unfold setWait
  repeat (with_reducible first
    | assumption | apply waitShow_keeps | apply putWin_keeps)

theorem enterPipe_keeps {r s : State} {a0} [May W .regs] (h : Keeps W r s) : Keeps1 W r (enterPipe s a0) := by
  unfold enterPipe
  repeat (with_reducible first
    | assumption | apply keeps_ite | apply keeps1_ite | apply pipeCount_keeps
    | refine keeps_of1 (by with_reducible assumption) ?_ | exact keeps_fst (by with_reducible assumption)
    | apply keeps1_mk)

theorem feed_keeps {r s : State} {a0} [May W .regs] [May W .hbm] [May W .fil] [May W .win] [May W .grn] [May W .tly]
    [May W .out] [May W .free] (h : Keeps W r s) : Keeps W r (feed s a0) := by
  unfold feed
  repeat (with_reducible first
    | assumption | apply keeps_ite | apply keeps1_ite | apply enterPipe_keeps | apply advance_keeps
    | apply setWait_keeps | refine keeps_of1 (by with_reducible assumption) ?_
    | exact keeps_fst (by with_reducible assumption) | refine keeps_fst (enterPipe_keeps ?_)
    | refine keeps_fst (advance_keeps _ ?_) | split | apply keeps1_mk)

theorem drainWait_keeps {r : State} [May W .regs] [May W .hbm] [May W .fil] [May W .win] [May W .grn] [May W .tly]
    [May W .out] [May W .free] (k : List Wait) : ∀ {s : State} {a0}, Keeps W r s → Keeps W r (drainWait s a0 k) := by
  induction k with
  | nil =>
    intro s a0 h
    rw [drainWait]
    repeat (with_reducible first
      | assumption | apply setWait_keeps | apply advance_keeps | refine keeps_of1 (by with_reducible assumption) ?_
      | exact keeps_fst (by with_reducible assumption) | refine keeps_fst (advance_keeps _ ?_) | split
      | apply keeps1_mk)
  | cons x l ih =>
    intro s a0 h
    rw [drainWait]
    repeat (with_reducible first
      | assumption | apply setWait_keeps | apply advance_keeps | apply ih
      | refine keeps_of1 (by with_reducible assumption) ?_ | exact keeps_fst (by with_reducible assumption)
      | refine keeps_fst (advance_keeps _ ?_) | split | apply keeps1_mk)

end Sys2Proof.Machine
end

