-- ==== Sys2Proof/Laws/LckOpsKeep.lean ====
section
/-! SUPPORT. Each operation of Machine/LckOps.lean keeps what `Keeps` says. -/

set_option Elab.async false

namespace Sys2Proof.Machine

open Sys2Proof

variable {W : List Part}

theorem putLck_keeps {r s : State} {a0} [May W .lck] (h : Keeps W r s) : Keeps W r (putLck s a0) := by
  unfold putLck
  repeat (with_reducible first
    | assumption | apply keeps_lck)

theorem putHsk_keeps {r s : State} {a0} [May W .hsk] (h : Keeps W r s) : Keeps W r (putHsk s a0) := by
  unfold putHsk
  repeat (with_reducible first
    | assumption | apply keeps_hsk)

theorem slotPut_keeps {r s : State} {a0 a1} [May W .lck] (h : Keeps W r s) : Keeps W r (slotPut s a0 a1) := by
  unfold slotPut
  repeat (with_reducible first
    | assumption | apply putLck_keeps)

theorem lckCount_keeps {r s : State} {a0} [May W .regs] (h : Keeps W r s) : Keeps W r (lckCount s a0) := by
  unfold lckCount
  repeat (with_reducible first
    | assumption | apply State.inc_keeps)

theorem hskCount_keeps {r s : State} {a0} [May W .regs] (h : Keeps W r s) : Keeps W r (hskCount s a0) := by
  unfold hskCount
  repeat (with_reducible first
    | assumption | apply State.inc_keeps)

theorem slotFill_keeps {r s : State} {a0 a1 a2 a3 a4 a5} [May W .lck] (h : Keeps W r s) :
    Keeps W r (slotFill s a0 a1 a2 a3 a4 a5) := by
  unfold slotFill
  repeat (with_reducible first
    | assumption | apply slotPut_keeps | split)

theorem slotZero_keeps {r s : State} {a0} [May W .lck] (h : Keeps W r s) : Keeps W r (slotZero s a0) := by
  unfold slotZero
  repeat (with_reducible first
    | assumption | apply slotPut_keeps)

theorem newBind_keeps {r s : State} {a0} [May W .regs] [May W .free] (h : Keeps W r s) : Keeps W r (newBind s a0) := by
  unfold newBind
  repeat (with_reducible first
    | assumption | apply State.freeBits_keeps | apply State.wr_keeps
    | refine keeps_of2 (by with_reducible assumption) ?_ | exact keeps_snd (by with_reducible assumption)
    | refine keeps_snd (State.freeBits_keeps ?_) | split | apply keeps2_mk)

theorem purge_keeps {r s : State} {a0} [May W .regs] [May W .hsk] (h : Keeps W r s) : Keeps W r (purge s a0) := by
  unfold purge
  repeat (with_reducible first
    | assumption | intro _ | apply keeps_ite | apply keeps_foldl | apply putHsk_keeps | apply State.wr_keeps)

theorem hskShow_keeps {r s : State} [May W .regs] (h : Keeps W r s) : Keeps W r (hskShow s) := by
  unfold hskShow
  repeat (with_reducible first
    | assumption | intro _ | apply keeps_foldl | apply State.wr_keeps)

theorem jobsShow_keeps {r s : State} {a0} [May W .regs] (h : Keeps W r s) : Keeps W r (jobsShow s a0) := by
  unfold jobsShow
  repeat (with_reducible first
    | assumption | apply State.wr_keeps)

theorem rangeWrite_keeps {r s : State} {a0 a1 a2} [May W .regs] [May W .lck] [May W .hsk] (h : Keeps W r s)
    : Keeps W r (rangeWrite s a0 a1 a2) := by
  unfold rangeWrite
  repeat (with_reducible first
    | assumption | intro _ | apply keeps_ite | apply keeps_foldl | apply State.wr_keeps | apply putLck_keeps
    | apply purge_keeps | apply slotZero_keeps | apply State.add_keeps | split)

theorem rangeDone_keeps {r s : State} {a0} [May W .regs] [May W .lck] [May W .free] (h : Keeps W r s)
    : Keeps W r (rangeDone s a0) := by
  unfold rangeDone
  repeat (with_reducible first
    | assumption | intro _ | apply keeps_ite | apply putLck_keeps | apply State.wr_keeps | apply newBind_keeps
    | split)

theorem loadLanes_keeps {r s : State} {a0} [May W .regs] [May W .now] [May W .rev] [May W .tu] [May W .hsk]
    [May W .out] [May W .free] (h : Keeps W r s) : Keeps W r (loadLanes s a0) := by
  unfold loadLanes
  repeat (with_reducible first
    | assumption | intro _ | apply keeps_foldl | apply putHsk_keeps | apply dutyTake_keeps)

theorem retirePair_keeps {r s : State} {a0} [May W .regs] [May W .now] [May W .rev] [May W .tu] [May W .hsk]
    [May W .out] [May W .free] (h : Keeps W r s) : Keeps W r (retirePair s a0) := by
  unfold retirePair
  repeat (with_reducible first
    | assumption | intro _ | apply keeps_ite | apply hskShow_keeps | apply hskCount_keeps | apply loadLanes_keeps
    | apply putHsk_keeps)

theorem pairFail_keeps {r s : State} {a0} [May W .regs] [May W .now] [May W .hif] [May W .fil] [May W .rev] [May W .tu]
    [May W .hsk] [May W .out] [May W .free] (h : Keeps W r s) : Keeps W r (pairFail s a0) := by
  unfold pairFail
  dsimp only
  repeat (with_reducible first
    | assumption | apply State.wr_keeps | apply countFailure_keeps | apply hskCount_keeps | apply retirePair_keeps
    | refine keeps_of1 (by with_reducible assumption) ?_ | exact keeps_fst (by with_reducible assumption)
    | refine keeps_fst (countFailure_keeps ?_) | split | apply keeps1_mk)

end Sys2Proof.Machine
end

