-- ==== Sys2Proof/Laws/HskOpsKeep.lean ====
section
/-! SUPPORT. Each operation of Machine/HskOps.lean keeps what `Keeps` says. -/

set_option Elab.async false

namespace Sys2Proof.Machine

open Sys2Proof

variable {W : List Part}

theorem cacheTouch_keeps {r s : State} {a0 a1} [May W .hsk] (h : Keeps W r s) : Keeps W r (cacheTouch s a0 a1) := by
  unfold cacheTouch
  repeat (with_reducible first
    | (lift_lets
       intro x
       first
       | (have hx : Keeps W r x := (by
            unfold x
            repeat (with_reducible first
              | assumption | intro _ | apply putHsk_keeps | split))
          clear_value x)
       | clear_value x)
    | assumption | intro _ | apply putHsk_keeps | split)

theorem jobPlace_keeps {r s : State} {a0} [May W .regs] [May W .now] [May W .rev] [May W .tu] [May W .hsk] [May W .out]
    [May W .free] (h : Keeps W r s) : Keeps W r (jobPlace s a0) := by
  unfold jobPlace
  repeat (with_reducible first
    | assumption | intro _ | apply keeps_ite | apply keeps_foldl | apply hskCount_keeps | apply cacheTouch_keeps
    | apply jobsShow_keeps | apply loadLanes_keeps | apply putHsk_keeps | split)

theorem waited_keeps {r s : State} {a0 a1} [May W .regs] (h : Keeps W r s) : Keeps W r (waited s a0 a1) := by
  unfold waited
  repeat (with_reducible first
    | assumption | apply State.wr_keeps)

theorem dispatch_keeps {r s : State} {a b c d} [May W .regs] [May W .now] [May W .fil] [May W .rev] [May W .tu]
    [May W .win] [May W .hsk] [May W .out] [May W .free] (h : Keeps W r s) : Keeps W r (dispatch s a b c d) := by
  unfold dispatch
  split
  · split
    · exact h
    · rename_i m rest e
      split
      · exact h
      · refine waited_keeps (jobPlace_keeps (chanSet_keeps h (.inl ?_)))
        rw [e]
        exact Nat.le_succ _
  · repeat (with_reducible first | assumption | (dsimp only; split) | split | apply putWin_keeps | apply waited_keeps |
      apply jobPlace_keeps)

theorem keyLoaded_keeps {r s : State} {a0 a1} [May W .regs] [May W .now] [May W .rev] [May W .tu] [May W .hsk]
    [May W .out] [May W .free] (h : Keeps W r s) : Keeps W r (keyLoaded s a0 a1) := by
  unfold keyLoaded
  repeat (with_reducible first
    | assumption | intro _ | apply keeps_ite | apply putHsk_keeps | apply loadLanes_keeps | apply State.wr_keeps
    | apply lckCount_keeps | split)

theorem stickBlock_keeps {r s : State} {a0 a1} [May W .hsk] (h : Keeps W r s) : Keeps W r (stickBlock s a0 a1) := by
  unfold stickBlock
  repeat (with_reducible first
    | assumption | apply putHsk_keeps)

theorem unlane_keeps {r s : State} {a0 a1 a2} [May W .hsk] (h : Keeps W r s) : Keeps W r (unlane s a0 a1 a2) := by
  unfold unlane
  repeat (with_reducible first
    | assumption | intro _ | apply keeps_ite | apply putHsk_keeps)

theorem blockCompare_keeps {r s : State} {a0 a1 a2 a3} [May W .regs] [May W .now] [May W .hif] [May W .fil]
    [May W .rev] [May W .tu] [May W .hsk] [May W .out] [May W .free] (h : Keeps W r s)
    : Keeps W r (blockCompare s a0 a1 a2 a3) := by
  unfold blockCompare
  dsimp only
  repeat (with_reducible first
    | assumption | intro _ | apply keeps_ite | apply keeps1_ite | apply hskCount_keeps | apply loadLanes_keeps
    | apply unlane_keeps | apply pairFail_keeps | apply stickBlock_keeps | apply countFailure_keeps
    | apply hskShow_keeps | refine keeps_of1 (by with_reducible assumption) ?_
    | exact keeps_fst (by with_reducible assumption) | refine keeps_fst (countFailure_keeps ?_) | split
    | apply keeps1_mk)

theorem markPoison_keeps {r s : State} {a0 a1 a2} [May W .fil] (h : Keeps W r s) : Keeps W r (markPoison s a0 a1 a2) := by
  unfold markPoison
  repeat (with_reducible first
    | assumption | intro _ | apply keeps_ite | apply keeps_foldl | refine keeps_fil ?_ rfl rfl)

theorem jobReply_keeps {r s : State} {a0 a1 a2} [May W .regs] [May W .fil] (h : Keeps W r s)
    : Keeps W r (jobReply s a0 a1 a2) := by
  unfold jobReply
  repeat (with_reducible first
    | assumption | apply hwPost_keeps | refine keeps_of1 (by with_reducible assumption) ?_
    | exact keeps_fst (by with_reducible assumption) | refine keeps_fst (hwPost_keeps ?_) | apply keeps1_mk)

theorem countStatus_keeps {r s : State} {a0} [May W .regs] (h : Keeps W r s) : Keeps W r (countStatus s a0) := by
  unfold countStatus
  repeat (with_reducible first
    | assumption | apply hskCount_keeps | split)

theorem filJobEnd_keeps {r s : State} {j} [May W .regs] [May W .hbm] [May W .fil] (h : Keeps W r s)
    : Keeps W r (filJobEnd s j) := by
  unfold filJobEnd
  split
  · exact jobReply_keeps (countStatus_keeps h)
  · dsimp only
    split
    · split
      · exact jobReply_keeps (countStatus_keeps (keeps_foldl h fun _ _ hs => markPoison_keeps (State.hbmWrite_keeps hs)))
      · exact jobReply_keeps (countStatus_keeps (markPoison_keeps (State.hbmWrite_keeps h)))
    · exact jobReply_keeps (countStatus_keeps h)

theorem espJobEnd_keeps {r s : State} {a0 a1} [May W .regs] [May W .win] (h : Keeps W r s) : Keeps W r (espJobEnd s a0 a1)
    := by
  unfold espJobEnd
  repeat (with_reducible first
    | assumption | apply keeps_ite | apply countStatus_keeps | apply putWin_keeps | split)

theorem jobEnd_keeps {r s : State} {a0} [May W .regs] [May W .now] [May W .hbm] [May W .fil] [May W .rev] [May W .tu]
    [May W .win] [May W .hsk] [May W .out] [May W .free] (h : Keeps W r s) : Keeps W r (jobEnd s a0) := by
  unfold jobEnd
  repeat (with_reducible first
    | assumption | intro _ | apply keeps_ite | apply jobsShow_keeps | apply loadLanes_keeps | apply putHsk_keeps
    | apply espJobEnd_keeps | apply filJobEnd_keeps | split)

theorem huskRun_keeps {r s : State} {a0 a1 a2 a3 a4 a5 a6 a7} [May W .regs] (h : Keeps W r s) :
    Keeps2 W r (huskRun s a0 a1 a2 a3 a4 a5 a6 a7) := by
  unfold huskRun
  repeat (with_reducible first
    | assumption | apply keeps_ite | apply keeps2_ite | apply hskCount_keeps | apply State.add_keeps
    | refine keeps_of2 (by with_reducible assumption) ?_ | exact keeps_snd (by with_reducible assumption) | split
    | apply keeps2_mk)

end Sys2Proof.Machine
end

