-- ==== Sys2Proof/Laws/NvmOpsKeep.lean ====
section
/-! SUPPORT. Each operation of Machine/NvmOps.lean keeps what `Keeps` says. -/

set_option Elab.async false

namespace Sys2Proof.Machine

open Sys2Proof

variable {W : List Part}

theorem stgCount_keeps {r s : State} {a0} [May W .regs] (h : Keeps W r s) : Keeps W r (stgCount s a0) := by
  unfold stgCount
  repeat (with_reducible first
    | assumption | apply State.inc_keeps)

theorem putStg_keeps {r s : State} {a0} [May W .stg] (h : Keeps W r s) : Keeps W r (putStg s a0) := by
  unfold putStg
  repeat (with_reducible first
    | assumption | apply keeps_stg)

theorem ctlPut_keeps {r s : State} {a0 a1} [May W .stg] (h : Keeps W r s) : Keeps W r (ctlPut s a0 a1) := by
  unfold ctlPut
  repeat (with_reducible first
    | assumption | apply putStg_keeps | apply State.reset_keeps)

theorem ctlMod_keeps {r s : State} {a0 a1} [May W .stg] (h : Keeps W r s) : Keeps W r (ctlMod s a0 a1) := by
  unfold ctlMod
  repeat (with_reducible first
    | assumption | apply ctlPut_keeps)

theorem ctlWrite_keeps {r s : State} {a0 a1 a2 a3 a4} [May W .regs] [May W .hif] [May W .out] (h : Keeps W r s)
    : Keeps W r (ctlWrite s a0 a1 a2 a3 a4) := by
  unfold ctlWrite
  repeat (with_reducible first
    | assumption | apply fnWrite_keeps)

theorem ctlReach_keeps {r s : State} {a0 a1 a2} [May W .regs] [May W .hif] [May W .out] (h : Keeps W r s)
    : Keeps2 W r (ctlReach s a0 a1 a2) := by
  unfold ctlReach
  repeat (with_reducible first
    | assumption | apply reach_keeps | refine keeps_of2 (by with_reducible assumption) ?_
    | exact keeps_snd (by with_reducible assumption) | refine keeps_snd (reach_keeps ?_) | apply keeps2_mk)

theorem ctlFetch_keeps {r s : State} {a0 a1 a2} [May W .regs] [May W .hif] [May W .out] [May W .free] (h : Keeps W r s)
    : Keeps2 W r (ctlFetch s a0 a1 a2) := by
  unfold ctlFetch
  repeat (with_reducible first
    | assumption | apply hostFetch_keeps | refine keeps_of2 (by with_reducible assumption) ?_
    | exact keeps_snd (by with_reducible assumption) | refine keeps_snd (hostFetch_keeps ?_) | apply keeps2_mk)

theorem ctlIntr_keeps {r s : State} {a0 a1} [May W .regs] [May W .hif] [May W .out] (h : Keeps W r s)
    : Keeps W r (ctlIntr s a0 a1) := by
  unfold ctlIntr
  repeat (with_reducible first
    | assumption | apply keeps_ite | apply fireMsix_keeps | apply fireIrq_keeps)

theorem cqIntr_keeps {r s : State} {a0 a1} [May W .regs] [May W .hif] [May W .stg] [May W .out] (h : Keeps W r s)
    : Keeps W r (cqIntr s a0 a1) := by
  unfold cqIntr
  repeat (with_reducible first
    | (lift_lets
       intro x
       first
       | (have hx : Keeps W r x := (by
            unfold x
            repeat (with_reducible first
              | assumption | apply keeps_ite | apply ctlPut_keeps | apply ctlIntr_keeps | split))
          clear_value x)
       | clear_value x)
    | assumption | apply keeps_ite | apply ctlPut_keeps | apply ctlIntr_keeps | split)

theorem cqPut_keeps {r s : State} {a0 a1 a2 a3 a4 a5 a6} [May W .regs] [May W .hif] [May W .stg] [May W .out] (h
    : Keeps W r s) :
    Keeps W r (cqPut s a0 a1 a2 a3 a4 a5 a6) := by
  unfold cqPut
  repeat (with_reducible first
    | (lift_lets
       intro x
       first
       | (have hx : Keeps W r x := (by
            unfold x
            repeat (with_reducible first
              | assumption | apply keeps_ite | apply keeps2_ite | apply ctlReach_keeps | apply ctlPut_keeps
              | apply ctlWrite_keeps | apply cqIntr_keeps | refine keeps_of2 (by with_reducible assumption) ?_
              | exact keeps_snd (by with_reducible assumption) | refine keeps_snd (ctlReach_keeps ?_) | split
              | apply keeps2_mk))
          clear_value x)
       | (have hx : Keeps2 W r x := (by
            unfold x
            repeat (with_reducible first
              | assumption | apply keeps_ite | apply keeps2_ite | apply ctlReach_keeps | apply ctlPut_keeps
              | apply ctlWrite_keeps | apply cqIntr_keeps | refine keeps_of2 (by with_reducible assumption) ?_
              | exact keeps_snd (by with_reducible assumption) | refine keeps_snd (ctlReach_keeps ?_) | split
              | apply keeps2_mk))
          clear_value x)
       | clear_value x)
    | assumption | apply keeps_ite | apply keeps2_ite | apply ctlReach_keeps | apply ctlPut_keeps
    | apply ctlWrite_keeps | apply cqIntr_keeps | refine keeps_of2 (by with_reducible assumption) ?_
    | exact keeps_snd (by with_reducible assumption) | refine keeps_snd (ctlReach_keeps ?_) | split | apply keeps2_mk)

theorem cqPump_keeps {r : State} [May W .regs] [May W .hif] [May W .stg] [May W .out] (k : Nat) : ∀ {s : State}
    {a0 a1}, Keeps W r s → Keeps W r (cqPump s a0 a1 k) := by
  induction k with
  | zero =>
    intro s a0 a1 h
    rw [cqPump]
    repeat (with_reducible first
      | assumption | apply keeps_ite | apply cqPut_keeps | apply ctlPut_keeps | split)
  | succ n ih =>
    intro s a0 a1 h
    rw [cqPump]
    repeat (with_reducible first
      | assumption | apply keeps_ite | apply cqPut_keeps | apply ctlPut_keeps | apply ih | split)

theorem cqPumpAll_keeps {r s : State} {a0} [May W .regs] [May W .hif] [May W .stg] [May W .out] (h : Keeps W r s)
    : Keeps W r (cqPumpAll s a0) := by
  unfold cqPumpAll
  repeat (with_reducible first
    | assumption | intro _ | apply keeps_ite | apply keeps_foldl | apply cqPump_keeps)

theorem ctlComplete_keeps {r s : State} {a0 a1 a2 a3 a4 a5 a6} [May W .regs] [May W .hif] [May W .stg] [May W .out] (h
    : Keeps W r s) :
    Keeps W r (ctlComplete s a0 a1 a2 a3 a4 a5 a6) := by
  unfold ctlComplete
  repeat (with_reducible first
    | (lift_lets
       intro x
       first
       | (have hx : Keeps W r x := (by
            unfold x
            repeat (with_reducible first
              | assumption | intro _ | apply keeps_ite | apply stgCount_keeps | apply ctlMod_keeps
              | apply cqPut_keeps | split))
          clear_value x)
       | clear_value x)
    | assumption | intro _ | apply keeps_ite | apply stgCount_keeps | apply ctlMod_keeps | apply cqPut_keeps | split)

theorem eventPump_keeps {r s : State} {a0} [May W .regs] [May W .hif] [May W .stg] [May W .out] (h : Keeps W r s)
    : Keeps W r (eventPump s a0) := by
  unfold eventPump
  repeat (with_reducible first
    | (lift_lets
       intro x
       first
       | (have hx : Keeps W r x := (by
            unfold x
            repeat (with_reducible first
              | assumption | intro _ | apply ctlPut_keeps | apply ctlComplete_keeps | apply stgCount_keeps | split))
          clear_value x)
       | clear_value x)
    | assumption | intro _ | apply ctlPut_keeps | apply ctlComplete_keeps | apply stgCount_keeps | split)

theorem eventRaise_keeps {r s : State} {a0 a1} [May W .regs] [May W .hif] [May W .stg] [May W .out] (h : Keeps W r s)
    : Keeps W r (eventRaise s a0 a1) := by
  unfold eventRaise
  repeat (with_reducible first
    | assumption | apply keeps_ite | apply eventPump_keeps | apply ctlPut_keeps)

theorem smartEvents_keeps {r s b : State} {l} [May W .regs] [May W .hif] [May W .stg] [May W .out] (h : Keeps W r s)
    : Keeps W r (smartEvents b s l) := by
  unfold smartEvents
  exact keeps_foldl h fun s x hs => keeps_ite (eventRaise_keeps hs) hs

theorem failLeg_keeps {r s : State} {a0 a1} [May W .regs] [May W .hif] [May W .stg] [May W .out] (h : Keeps W r s)
    : Keeps W r (failLeg s a0 a1) := by
  unfold failLeg
  repeat (with_reducible first
    | assumption | apply keeps_ite | apply stgCount_keeps | apply putStg_keeps | apply smartEvents_keeps)

theorem failLegs_keeps {r s : State} {a0} [May W .regs] [May W .hif] [May W .stg] [May W .out] (h : Keeps W r s)
    : Keeps W r (failLegs s a0) := by
  unfold failLegs
  repeat (with_reducible first
    | assumption | intro _ | apply keeps_ite | apply keeps_foldl | apply failLeg_keeps)

theorem connLost_keeps {r s : State} {a0} [May W .regs] [May W .hif] [May W .stg] [May W .out] (h : Keeps W r s)
    : Keeps W r (connLost s a0) := by
  unfold connLost
  repeat (with_reducible first
    | assumption | intro _ | apply failLegs_keeps)

theorem portLost_keeps {r s : State} {a0} [May W .regs] [May W .hif] [May W .stg] [May W .out] (h : Keeps W r s)
    : Keeps W r (portLost s a0) := by
  unfold portLost
  repeat (with_reducible first
    | assumption | intro _ | apply failLegs_keeps)

end Sys2Proof.Machine
end

