-- ==== Sys2Proof/Laws/CarOpsKeep.lean ====
section
/-! SUPPORT. Each operation of Machine/CarOps.lean keeps what `Keeps` says. -/

set_option Elab.async false

namespace Sys2Proof.Machine

open Sys2Proof

variable {W : List Part}

theorem putCar_keeps {r s : State} {a0} [May W .car] (h : Keeps W r s) : Keeps W r (putCar s a0) := by
  unfold putCar
  repeat (with_reducible first
    | assumption | apply keeps_car)

theorem hbmPatch_keeps {r : State} [May W .regs] [May W .hbm] [May W .fil] (k : Sys2Proof.Bytes) : ∀ {s : State}
    {a0}, Keeps W r s → Keeps W r (hbmPatch s a0 k) := by
  induction k with
  | nil =>
    intro s a0 h
    rw [hbmPatch]
    repeat (with_reducible first
      | assumption | apply keeps_ite | apply State.hbmWrite_keeps | split)
  | cons x l ih =>
    intro s a0 h
    rw [hbmPatch]
    repeat (with_reducible first
      | assumption | apply keeps_ite | apply State.hbmWrite_keeps | apply ih | split)

theorem connPut_keeps {r s : State} {a0 a1} [May W .regs] [May W .hbm] [May W .fil] [May W .car] (h : Keeps W r s)
    : Keeps W r (connPut s a0 a1) := by
  unfold connPut
  repeat (with_reducible first
    | assumption | apply hbmPatch_keeps | apply putCar_keeps | split)

theorem connMod_keeps {r s : State} {a0 a1} [May W .regs] [May W .hbm] [May W .fil] [May W .car] (h : Keeps W r s)
    : Keeps W r (connMod s a0 a1) := by
  unfold connMod
  repeat (with_reducible first
    | assumption | apply connPut_keeps | split)

theorem carCount_keeps {r s : State} {a0 a1} [May W .regs] (h : Keeps W r s) : Keeps W r (carCount s a0 a1) := by
  unfold carCount
  repeat (with_reducible first
    | assumption | apply State.inc_keeps)

theorem carterSend_keeps {r s : State} {a0 a1 a2} [May W .win] (h : Keeps W r s) : Keeps W r (carterSend s a0 a1 a2) := by
  unfold carterSend
  repeat (with_reducible first
    | assumption | apply toInternal_keeps)

theorem protect_keeps {r s : State} {a0 a1 a2 a3 a4} [May W .regs] (h : Keeps W r s)
    : Keeps2 W r (protect s a0 a1 a2 a3 a4) := by
  unfold protect
  repeat (with_reducible first
    | assumption | apply keeps_ite | apply keeps2_ite | apply huskRun_keeps
    | refine keeps_of2 (by with_reducible assumption) ?_ | exact keeps_snd (by with_reducible assumption)
    | refine keeps_snd (huskRun_keeps ?_) | split | apply keeps2_mk)

theorem verify_keeps {r s : State} {a0 a1 a2} [May W .regs] (h : Keeps W r s) : Keeps2 W r (verify s a0 a1 a2) := by
  unfold verify
  repeat (with_reducible first
    | assumption | apply keeps_ite | apply keeps2_ite | apply huskRun_keeps
    | refine keeps_of2 (by with_reducible assumption) ?_ | exact keeps_snd (by with_reducible assumption)
    | refine keeps_snd (huskRun_keeps ?_) | split | apply keeps2_mk)

theorem startFetches_keeps {r : State} [May W .regs] [May W .hbm] [May W .fil] [May W .car] (k : List Nat) : ∀ {s
    : State}, Keeps W r s → Keeps W r (startFetches s k) := by
  induction k with
  | nil =>
    intro s  h
    rw [startFetches]
    repeat (with_reducible first
      | assumption | intro _ | apply keeps_ite | apply putCar_keeps | apply carCount_keeps | apply connPut_keeps
      | split)
  | cons x l ih =>
    intro s  h
    rw [startFetches]
    repeat (with_reducible first
      | assumption | intro _ | apply keeps_ite | apply putCar_keeps | apply carCount_keeps | apply connPut_keeps
      | apply ih | split)

theorem pumpFetches_keeps {r s : State} [May W .regs] [May W .hbm] [May W .fil] [May W .car] (h : Keeps W r s)
    : Keeps W r (pumpFetches s) := by
  unfold pumpFetches
  repeat (with_reducible first
    | assumption | apply startFetches_keeps)

theorem wantContext_keeps {r s : State} {a0} [May W .regs] [May W .hbm] [May W .fil] [May W .car] (h : Keeps W r s)
    : Keeps W r (wantContext s a0) := by
  unfold wantContext
  repeat (with_reducible first
    | assumption | apply keeps_ite | apply connPut_keeps | apply pumpFetches_keeps | apply putCar_keeps | split)

theorem park_keeps {r s : State} {n p x} [May W .regs] [May W .grn] [May W .car] [May W .free] (h : Keeps W r s)
    : Keeps W r (park s n p x) := by
  unfold park
  extract_lets cells drop
  have hd : Keeps W r drop := State.inc_keeps (carCount_keeps h)
  clear_value drop
  refine keeps_ite (State.inc_keeps h) ?_
  split
  · exact hd
  extract_lets used put
  have hp : ∀ t, Keeps W r t → Keeps W r (put t) := by
    intro t ht
    unfold put
    dsimp only
    exact State.inc_keeps (carCount_keeps (putCar_keeps (keeps_fst (newCells_keeps (keeps_grn ht)))))
  clear_value put
  split
  · exact hp _ (putCar_keeps h)
  · exact keeps_ite (hp _ h) hd

theorem unpark_keeps {r s : State} {n} [May W .grn] [May W .car] (h : Keeps W r s) : Keeps1 W r (unpark s n) := by
  unfold unpark
  exact keeps1_mk (putCar_keeps (keeps_foldl h fun _ _ hs => keeps_foldl (keeps_grn hs) fun _ _ ht => freeCell_keeps ht))

theorem dropParked_keeps {r s : State} {a0} [May W .regs] [May W .grn] [May W .car] (h : Keeps W r s)
    : Keeps W r (dropParked s a0) := by
  unfold dropParked
  repeat (with_reducible first
    | assumption | apply unpark_keeps | apply State.add_keeps | refine keeps_of1 (by with_reducible assumption) ?_
    | exact keeps_fst (by with_reducible assumption) | refine keeps_fst (unpark_keeps ?_) | split | apply keeps1_mk)

theorem dropLedger_keeps {r s : State} {a0} [May W .car] (h : Keeps W r s) : Keeps W r (dropLedger s a0) := by
  unfold dropLedger
  repeat (with_reducible first
    | assumption | intro _ | apply putCar_keeps)

theorem workPost_keeps {r s : State} {a0 a1 a2} [May W .regs] [May W .hif] [May W .dom] [May W .car] [May W .out] (h
    : Keeps W r s) : Keeps W r (workPost s a0 a1 a2) := by
  unfold workPost
  repeat (with_reducible first
    | assumption | apply keeps_ite | apply putCar_keeps | apply ringCount_keeps | apply cplPost_keeps | split)

theorem postWorks_keeps {r : State} [May W .regs] [May W .hif] [May W .dom] [May W .car] [May W .out] (k : List Work) : ∀
    {s : State} {a0}, Keeps W r s → Keeps W r (postWorks s k a0) := by
  induction k with
  | nil =>
    intro s a0 h
    rw [postWorks]
    repeat (with_reducible first
      | assumption | apply keeps_ite | apply putCar_keeps | apply workPost_keeps | split)
  | cons x l ih =>
    intro s a0 h
    rw [postWorks]
    repeat (with_reducible first
      | assumption | apply keeps_ite | apply putCar_keeps | apply workPost_keeps | apply ih | split)

theorem settleWorks_keeps {r s : State} [May W .regs] [May W .hif] [May W .dom] [May W .car] [May W .out] (h
    : Keeps W r s) : Keeps W r (settleWorks s) := by
  unfold settleWorks
  repeat (with_reducible first
    | assumption | apply postWorks_keeps)

theorem modWorks_keeps {r s : State} {a0} [May W .regs] [May W .hif] [May W .dom] [May W .car] [May W .out] (h
    : Keeps W r s) : Keeps W r (modWorks s a0) := by
  unfold modWorks
  repeat (with_reducible first
    | assumption | apply settleWorks_keeps | apply putCar_keeps)

theorem endDesc_keeps {r s : State} {a0 a1 a2 a3 a4} [May W .regs] [May W .hif] [May W .dom] [May W .car] [May W .out] (h
    : Keeps W r s) : Keeps W r (endDesc s a0 a1 a2 a3 a4) := by
  unfold endDesc
  repeat (with_reducible first
    | assumption | apply popDesc_keeps | apply ringSettle_keeps | apply settleWorks_keeps | apply putCar_keeps)

theorem recvPost_keeps {r s : State} {a0 a1 a2 a3} [May W .regs] [May W .hif] [May W .dom] [May W .out] (h : Keeps W r s)
    : Keeps W r (recvPost s a0 a1 a2 a3) := by
  unfold recvPost
  repeat (with_reducible first
    | assumption | apply keeps_ite | apply cplPost_keeps)

theorem rawCtl_keeps {r s : State} {a0 a1 a2 a3} [May W .regs] [May W .hbm] [May W .fil] [May W .win] [May W .car] (h
    : Keeps W r s) : Keeps2 W r (rawCtl s a0 a1 a2 a3) := by
  unfold rawCtl
  repeat (with_reducible first
    | assumption | apply protect_keeps | apply carterSend_keeps | apply connPut_keeps
    | refine keeps_of2 (by with_reducible assumption) ?_ | exact keeps_snd (by with_reducible assumption)
    | refine keeps_snd (protect_keeps ?_) | split | apply keeps2_mk)

theorem connError_keeps {r s : State} {a0 a1 a2 a3} [May W .regs] [May W .hbm] [May W .hif] [May W .dom] [May W .fil]
    [May W .win] [May W .grn] [May W .car] [May W .stg] [May W .out] (h : Keeps W r s)
    : Keeps W r (connError s a0 a1 a2 a3) := by
  unfold connError
  repeat (with_reducible first
    | assumption | intro _ | apply keeps_ite | apply keeps2_ite | apply keeps_foldl | apply keeps2_foldl
    | apply connLost_keeps | apply carCount_keeps | apply connPut_keeps | apply rawCtl_keeps | apply putCar_keeps
    | apply settleWorks_keeps | apply dropParked_keeps | apply dropLedger_keeps | apply recvPost_keeps
    | apply connMod_keeps | refine keeps_of2 (by with_reducible assumption) ?_
    | exact keeps_snd (by with_reducible assumption) | refine keeps_snd (rawCtl_keeps ?_) | split | apply keeps2_mk)

theorem connFail_keeps {r s : State} {a0 a1} [May W .regs] [May W .hbm] [May W .hif] [May W .dom] [May W .fil]
    [May W .win] [May W .grn] [May W .car] [May W .stg] [May W .out] (h : Keeps W r s) : Keeps W r (connFail s a0 a1) := by
  unfold connFail
  repeat (with_reducible first
    | assumption | apply connError_keeps)

theorem sendCtl_keeps {r s : State} {a0 a1 a2} [May W .regs] [May W .hbm] [May W .hif] [May W .dom] [May W .fil]
    [May W .win] [May W .grn] [May W .car] [May W .stg] [May W .out] (h : Keeps W r s) : Keeps W r (sendCtl s a0 a1 a2) := by
  unfold sendCtl
  repeat (with_reducible first
    | assumption | apply keeps_ite | apply keeps2_ite | apply connError_keeps | apply connPut_keeps
    | apply rawCtl_keeps | refine keeps_of2 (by with_reducible assumption) ?_
    | exact keeps_snd (by with_reducible assumption) | refine keeps_snd (rawCtl_keeps ?_) | split | apply keeps2_mk)

theorem sendNak'_keeps {r s : State} {a0 a1 a2} [May W .regs] [May W .hbm] [May W .hif] [May W .dom] [May W .fil]
    [May W .win] [May W .grn] [May W .car] [May W .stg] [May W .out] (h : Keeps W r s) : Keeps W r (sendNak' s a0 a1 a2) := by
  unfold sendNak'
  repeat (with_reducible first
    | assumption | apply carCount_keeps | apply sendCtl_keeps | apply connMod_keeps)

theorem sendAck'_keeps {r s : State} {a0 a1} [May W .regs] [May W .hbm] [May W .hif] [May W .dom] [May W .fil]
    [May W .win] [May W .grn] [May W .car] [May W .stg] [May W .out] (h : Keeps W r s) : Keeps W r (sendAck' s a0 a1) := by
  unfold sendAck'
  repeat (with_reducible first
    | assumption | apply connMod_keeps | apply sendCtl_keeps)

theorem sendCredit'_keeps {r s : State} {a0} [May W .regs] [May W .hbm] [May W .hif] [May W .dom] [May W .fil]
    [May W .win] [May W .grn] [May W .car] [May W .stg] [May W .out] (h : Keeps W r s) : Keeps W r (sendCredit' s a0) := by
  unfold sendCredit'
  repeat (with_reducible first
    | assumption | apply sendCtl_keeps | apply connMod_keeps)

theorem sendRpt_keeps {r s : State} {a0 a1} [May W .regs] [May W .hbm] [May W .hif] [May W .dom] [May W .fil]
    [May W .win] [May W .grn] [May W .car] [May W .stg] [May W .out] (h : Keeps W r s) : Keeps W r (sendRpt s a0 a1) := by
  unfold sendRpt
  repeat (with_reducible first
    | assumption | intro _ | apply sendCtl_keeps | apply connMod_keeps)

theorem instReach_keeps {r s : State} {a0 a1 a2} [May W .regs] [May W .hif] [May W .out] (h : Keeps W r s)
    : Keeps2 W r (instReach s a0 a1 a2) := by
  unfold instReach
  repeat (with_reducible first
    | assumption | apply reach_keeps | refine keeps_of2 (by with_reducible assumption) ?_
    | exact keeps_snd (by with_reducible assumption) | refine keeps_snd (reach_keeps ?_) | apply keeps2_mk)

theorem instFetch_keeps {r s : State} {a0 a1 a2} [May W .regs] [May W .hif] [May W .out] [May W .free] (h : Keeps W r s)
    : Keeps2 W r (instFetch s a0 a1 a2) := by
  unfold instFetch
  repeat (with_reducible first
    | assumption | apply hostFetch_keeps | refine keeps_of2 (by with_reducible assumption) ?_
    | exact keeps_snd (by with_reducible assumption) | refine keeps_snd (hostFetch_keeps ?_) | apply keeps2_mk)

theorem instWrite_keeps {r s : State} {a0 a1 a2 a3} [May W .regs] [May W .hif] [May W .out] (h : Keeps W r s)
    : Keeps W r (instWrite s a0 a1 a2 a3) := by
  unfold instWrite
  repeat (with_reducible first
    | assumption | apply keeps_ite | apply fnWrite_keeps)

theorem pushMsg_keeps {r s : State} {a0 a1 a2} [May W .regs] [May W .hbm] [May W .fil] [May W .car] (h : Keeps W r s)
    : Keeps W r (pushMsg s a0 a1 a2) := by
  unfold pushMsg
  repeat (with_reducible first
    | assumption | apply connPut_keeps)

theorem sendNew_keeps {r s : State} {n x} [May W .regs] [May W .hbm] [May W .hif] [May W .dom] [May W .fil]
    [May W .win] [May W .grn] [May W .car] [May W .stg] [May W .out] (h : Keeps W r s) : Keeps W r (sendNew s n x) := by
  unfold sendNew
  split
  · exact h
  · split
    · exact h
    · extract_lets u p fl hd
      refine keeps_ite h (keeps_ite h (keeps_ite (connFail_keeps h) (keeps_ite h (keeps_ite (connFail_keeps h) ?_))))
      split
      · rename_i e
        exact connFail_keeps (keeps_of2 e (protect_keeps h))
      · rename_i e
        have h1 := keeps_of2 e (protect_keeps h)
        have h2 := fun {c : Bool} {a b} => keeps_ite (c := c = true) (State.hbmWrite_keeps (a := a) (bs := b) h1) h1
        exact keeps_ite (modWorks_keeps (carterSend_keeps (carCount_keeps (connPut_keeps h2))))
          (carterSend_keeps (carCount_keeps (connPut_keeps h2)))

theorem resend_keeps {r s : State} {n x} [May W .regs] [May W .hbm] [May W .hif] [May W .dom] [May W .fil] [May W .rev]
    [May W .win] [May W .grn] [May W .car] [May W .stg] [May W .out] [May W .free] (h : Keeps W r s)
    : Keeps W r (resend s n x) := by
  unfold resend
  split
  · exact h
  split
  · exact h
  extract_lets u size a
  refine keeps_ite h ?_
  split
  rename_i t e
  have h1 : Keeps W r t := keeps_of2 e (keeps2_ite (keeps2_mk h) (instFetch_keeps h))
  refine keeps_ite h1 ?_
  extract_lets v got
  have h2 : Keeps W r v := by
    unfold v
    split
    · exact hbmFail_keeps h1
    · exact h1
  clear_value v got
  split
  · exact connFail_keeps h2
  · exact carterSend_keeps (carCount_keeps (connPut_keeps h2))

theorem remoteDone_keeps {r s : State} {a0} [May W .regs] [May W .hif] [May W .dom] [May W .car] [May W .out] (h
    : Keeps W r s) : Keeps W r (remoteDone s a0) := by
  unfold remoteDone
  repeat (with_reducible first
    | assumption | intro _ | apply keeps_ite | apply modWorks_keeps | split)

theorem startClosing_keeps {r s : State} {a0 a1} [May W .regs] [May W .hbm] [May W .hif] [May W .dom] [May W .fil]
    [May W .grn] [May W .car] [May W .stg] [May W .out] (h : Keeps W r s) : Keeps W r (startClosing s a0 a1) := by
  unfold startClosing
  repeat (with_reducible first
    | assumption | intro _ | apply keeps_ite | apply keeps_foldl | apply modWorks_keeps | apply settleWorks_keeps
    | apply putCar_keeps | apply connLost_keeps | apply dropParked_keeps | apply dropLedger_keeps
    | apply recvPost_keeps | apply connMod_keeps | apply pumpFetches_keeps | split)

theorem closeConn_keeps {r s : State} {a0 a1} [May W .regs] [May W .hbm] [May W .hif] [May W .dom] [May W .fil]
    [May W .grn] [May W .car] [May W .stg] [May W .out] (h : Keeps W r s) : Keeps W r (closeConn s a0 a1) := by
  unfold closeConn
  repeat (with_reducible first
    | assumption | apply keeps_ite | apply connPut_keeps | apply startClosing_keeps | split)

theorem drainCheck_keeps {r s : State} {a0} [May W .regs] [May W .hbm] [May W .hif] [May W .dom] [May W .fil]
    [May W .grn] [May W .car] [May W .stg] [May W .out] (h : Keeps W r s) : Keeps W r (drainCheck s a0) := by
  unfold drainCheck
  repeat (with_reducible first
    | assumption | intro _ | apply keeps_ite | apply closeConn_keeps | split)

end Sys2Proof.Machine
end

