-- ==== Sys2Proof/Laws/CarWireKeep.lean ====
section
/-! SUPPORT. Each operation of Machine/CarWire.lean keeps what `Keeps` says. -/

set_option Elab.async false

namespace Sys2Proof.Machine

open Sys2Proof

variable {W : List Part}

theorem carTake_keeps {r s : State} {a0 a1} [May W .regs] [May W .win] [May W .grn] [May W .out] (h : Keeps W r s)
    : Keeps1 W r (carTake s a0 a1) := by
  unfold carTake
  repeat (with_reducible first
    | assumption | apply putWin_keeps | apply dropRef_keeps | refine keeps_of1 (by with_reducible assumption) ?_
    | exact keeps_fst (by with_reducible assumption) | split | apply keeps1_mk)

theorem dropMalformed_keeps {r : State} [May W .regs] [May W .win] [May W .grn] [May W .out] (k : Nat) : ∀ {s
    : State}, Keeps W r s → Keeps W r (dropMalformed s k) := by
  induction k with
  | zero =>
    intro s  h
    rw [dropMalformed]
    repeat (with_reducible first
      | assumption | apply State.inc_keeps | apply carTake_keeps | refine keeps_of1 (by with_reducible assumption) ?_
      | exact keeps_fst (by with_reducible assumption) | refine keeps_fst (carTake_keeps ?_) | split
      | apply keeps1_mk)
  | succ n ih =>
    intro s  h
    rw [dropMalformed]
    repeat (with_reducible first
      | assumption | apply State.inc_keeps | apply carTake_keeps | apply ih
      | refine keeps_of1 (by with_reducible assumption) ?_ | exact keeps_fst (by with_reducible assumption)
      | refine keeps_fst (carTake_keeps ?_) | split | apply keeps1_mk)

theorem carHead_keeps {r s : State} {a0} [May W .regs] [May W .win] [May W .grn] [May W .out] (h : Keeps W r s)
    : Keeps1 W r (carHead s a0) := by
  unfold carHead
  repeat (with_reducible first
    | (lift_lets
       intro x
       first
       | (have hx : Keeps W r x := (by
            unfold x
            repeat (with_reducible first
              | assumption | apply keeps_ite | apply keeps1_ite | apply dropMalformed_keeps | apply carTake_keeps
              | refine keeps_of1 (by with_reducible assumption) ?_ | exact keeps_fst (by with_reducible assumption)
              | refine keeps_fst (carTake_keeps ?_) | split | apply keeps1_mk))
          clear_value x)
       | (have hx : Keeps1 W r x := (by
            unfold x
            repeat (with_reducible first
              | assumption | apply keeps_ite | apply keeps1_ite | apply dropMalformed_keeps | apply carTake_keeps
              | refine keeps_of1 (by with_reducible assumption) ?_ | exact keeps_fst (by with_reducible assumption)
              | refine keeps_fst (carTake_keeps ?_) | split | apply keeps1_mk))
          clear_value x)
       | clear_value x)
    | assumption | apply keeps_ite | apply keeps1_ite | apply dropMalformed_keeps | apply carTake_keeps
    | refine keeps_of1 (by with_reducible assumption) ?_ | exact keeps_fst (by with_reducible assumption)
    | refine keeps_fst (carTake_keeps ?_) | split | apply keeps1_mk)

theorem errorAnswer_keeps {r s : State} {a0 a1} [May W .regs] [May W .hbm] [May W .hif] [May W .dom] [May W .fil]
    [May W .win] [May W .grn] [May W .car] [May W .stg] [May W .out] (h : Keeps W r s) : Keeps W r (errorAnswer s a0 a1) := by
  unfold errorAnswer
  repeat (with_reducible first
    | assumption | intro _ | apply keeps_ite | apply sendNak'_keeps | apply connMod_keeps)

theorem rxOpen_keeps {r s : State} {a0 a1} [May W .regs] [May W .hbm] [May W .fil] [May W .grn] [May W .car]
    [May W .free] (h : Keeps W r s) : Keeps1 W r (rxOpen s a0 a1) := by
  unfold rxOpen
  repeat (with_reducible first
    | assumption | apply keeps_ite | apply keeps1_ite | apply carCount_keeps | apply wantContext_keeps
    | apply park_keeps | apply connPut_keeps | refine keeps_of1 (by with_reducible assumption) ?_
    | exact keeps_fst (by with_reducible assumption) | split | apply keeps1_mk)

theorem takeHigh_keeps {r s : State} {a0 a1} [May W .regs] [May W .hbm] [May W .fil] [May W .car] (h : Keeps W r s)
    : Keeps W r (takeHigh s a0 a1) := by
  unfold takeHigh
  repeat (with_reducible first
    | assumption | intro _ | apply connMod_keeps)

theorem creditUpdate_keeps {r s : State} {a0} [May W .regs] [May W .hbm] [May W .hif] [May W .dom] [May W .fil]
    [May W .win] [May W .grn] [May W .car] [May W .stg] [May W .out] (h : Keeps W r s) : Keeps W r (creditUpdate s a0) := by
  unfold creditUpdate
  repeat (with_reducible first
    | assumption | apply keeps_ite | apply sendAck'_keeps | apply sendCredit'_keeps | split)

theorem rxData_keeps {r s : State} {a0 a1 a2 a3 a4} [May W .regs] [May W .hbm] [May W .hif] [May W .dom] [May W .fil]
    [May W .win] [May W .grn] [May W .car] [May W .stg] [May W .out] (h : Keeps W r s)
    : Keeps1 W r (rxData s a0 a1 a2 a3 a4) := by
  unfold rxData
  repeat (with_reducible first
    | assumption | intro _ | apply keeps_ite | apply keeps1_ite | apply keeps2_ite | apply carCount_keeps
    | apply takeHigh_keeps | apply creditUpdate_keeps | apply sendAck'_keeps | apply connMod_keeps
    | apply verify_keeps | apply errorAnswer_keeps | apply connError_keeps | apply sendNak'_keeps
    | apply connFail_keeps | refine keeps_of1 (by with_reducible assumption) ?_
    | exact keeps_fst (by with_reducible assumption) | refine keeps_of2 (by with_reducible assumption) ?_
    | exact keeps_snd (by with_reducible assumption) | refine keeps_snd (verify_keeps ?_) | split | apply keeps1_mk
    | apply keeps2_mk)

theorem markPsn_keeps {r s : State} {a0 a1 a2 a3} [May W .regs] [May W .hbm] [May W .fil] [May W .car] (h : Keeps W r s)
    : Keeps W r (markPsn s a0 a1 a2 a3) := by
  unfold markPsn
  repeat (with_reducible first
    | assumption | intro _ | apply keeps_ite | apply carCount_keeps | apply connMod_keeps)

theorem postRecvs_keeps {r s : State} {a0} [May W .regs] [May W .hbm] [May W .hif] [May W .dom] [May W .fil]
    [May W .car] [May W .out] (h : Keeps W r s) : Keeps W r (postRecvs s a0) := by
  unfold postRecvs
  repeat (with_reducible first
    | assumption | intro _ | apply keeps_foldl | apply connPut_keeps | apply recvPost_keeps | split)

theorem afterMark_keeps {r s : State} {a0 a1 a2 a3} [May W .regs] [May W .hbm] [May W .hif] [May W .dom] [May W .fil]
    [May W .win] [May W .grn] [May W .car] [May W .stg] [May W .out] (h : Keeps W r s)
    : Keeps W r (afterMark s a0 a1 a2 a3) := by
  unfold afterMark
  repeat (with_reducible first
    | assumption | apply keeps_ite | apply postRecvs_keeps | apply sendAck'_keeps | apply sendCredit'_keeps
    | apply drainCheck_keeps | split)

theorem accessNak_keeps {r s : State} {a0 a1 a2} [May W .regs] [May W .hbm] [May W .hif] [May W .dom] [May W .fil]
    [May W .win] [May W .grn] [May W .car] [May W .stg] [May W .out] (h : Keeps W r s) : Keeps W r (accessNak s a0 a1 a2)
    := by
  unfold accessNak
  repeat (with_reducible first
    | assumption | apply connError_keeps | apply sendNak'_keeps)

theorem placeFail_keeps {r s : State} {a0 a1} [May W .regs] [May W .hbm] [May W .hif] [May W .dom] [May W .fil]
    [May W .win] [May W .grn] [May W .car] [May W .stg] [May W .out] (h : Keeps W r s) : Keeps W r (placeFail s a0 a1) := by
  unfold placeFail
  repeat (with_reducible first
    | assumption | apply connFail_keeps | apply sendNak'_keeps)

theorem regionNak_keeps {r s : State} {a0 a1 a2 a3} [May W .regs] [May W .hbm] [May W .hif] [May W .dom] [May W .fil]
    [May W .rev] [May W .win] [May W .grn] [May W .car] [May W .stg] [May W .out] (h : Keeps W r s)
    : Keeps W r (regionNak s a0 a1 a2 a3) := by
  unfold regionNak
  repeat (with_reducible first
    | assumption | apply keeps_ite | apply accessNak_keeps | apply hbmFail_keeps)

theorem bindMsg_keeps {r s : State} {a0 a1 a2} [May W .regs] [May W .hbm] [May W .dom] [May W .fil] [May W .car] (h
    : Keeps W r s) : KeepsO2 W r (bindMsg s a0 a1 a2) := by
  unfold bindMsg
  repeat (with_reducible first
    | assumption | intro _ | apply keeps_ite | apply keepsO2_ite | apply keepsO2_some | exact keepsO2_none
    | apply connPut_keeps | apply ringPut_keeps | refine keeps_ofO2 (by with_reducible assumption) ?_ | split)

theorem bindNote_keeps {r s : State} {a0 a1 a2} [May W .regs] [May W .hbm] [May W .fil] [May W .car] (h : Keeps W r s)
    : Keeps W r (bindNote s a0 a1 a2) := by
  unfold bindNote
  repeat (with_reducible first
    | assumption | intro _ | apply keeps_ite | apply connMod_keeps | split)

theorem rxWrite_keeps {r s : State} {op e} [May W .regs] [May W .hbm] [May W .hif] [May W .dom] [May W .fil]
    [May W .rev] [May W .win] [May W .grn] [May W .car] [May W .stg] [May W .out] [May W .free] (h : Keeps W r s)
    : Keeps W r (rxWrite s op e) := by
  unfold rxWrite
  have h1 : Keeps1 W r (carHead s op) := carHead_keeps h
  generalize carHead s op = q1 at h1
  obtain ⟨s1, _ | ⟨p, x⟩⟩ := q1
  · exact h1
  dsimp only
  have h2 : Keeps1 W r (rxOpen s1 p x) := rxOpen_keeps h1
  generalize rxOpen s1 p x = q2 at h2
  obtain ⟨s2, _ | ⟨n, c⟩⟩ := q2
  · exact h2
  dsimp only
  have h3 : Keeps1 W r (rxData s2 n c p x e) := rxData_keeps h2
  generalize rxData s2 n c p x e = q3 at h3
  obtain ⟨s3, _ | ⟨psn, pay⟩⟩ := q3
  · exact h3
  dsimp only
  replace h3 : Keeps W r s3 := h3
  split
  · exact h3
  rename_i c' _
  split
  · exact regionNak_keeps h3
  refine keeps_ite (keeps_snd (instReach_keeps h)) ?_
  have h4 : KeepsO W r (if op = 2 then (bindMsg s3 n c' x).map (·.2) else some s3) := by
    intro t e
    split at e
    · obtain ⟨q, e1, rfl⟩ := Option.map_eq_some_iff.1 e
      exact bindMsg_keeps h3 q e1
    · cases e
      exact h3
  split
  · exact sendNak'_keeps h3
  rename_i s4 e4
  have h5 := markPsn_keeps (a0 := n) (a1 := psn) (a2 := p) (a3 := x) (h4 _ e4)
  have h6 := fun {c : Prop} [Decidable c] => keeps_ite (c := c) (bindNote_keeps (a0 := n) (a1 := psn) (a2 := x) h5) h5
  exact keeps_ite (placeFail_keeps h6) (afterMark_keeps (instWrite_keeps h6))

theorem rxSend_keeps {r s : State} {op e} [May W .regs] [May W .hbm] [May W .hif] [May W .dom] [May W .fil]
    [May W .win] [May W .grn] [May W .car] [May W .stg] [May W .out] [May W .free] (h : Keeps W r s)
    : Keeps W r (rxSend s op e) := by
  unfold rxSend
  have h1 : Keeps1 W r (carHead s op) := carHead_keeps h
  generalize carHead s op = q1 at h1
  obtain ⟨s1, _ | ⟨p, x⟩⟩ := q1
  · exact h1
  dsimp only
  have h2 : Keeps1 W r (rxOpen s1 p x) := rxOpen_keeps h1
  generalize rxOpen s1 p x = q2 at h2
  obtain ⟨s2, _ | ⟨n, c⟩⟩ := q2
  · exact h2
  dsimp only
  have h3 : Keeps1 W r (rxData s2 n c p x e) := rxData_keeps h2
  generalize rxData s2 n c p x e = q3 at h3
  obtain ⟨s3, _ | ⟨psn, pay⟩⟩ := q3
  · exact h3
  dsimp only
  replace h3 : Keeps W r s3 := h3
  split
  · exact h3
  split
  · exact sendNak'_keeps h3
  rename_i e4
  have h4 := bindMsg_keeps h3 _ e4
  refine keeps_ite (accessNak_keeps h4) (keeps_ite (keeps_snd (instReach_keeps h)) ?_)
  exact keeps_ite (placeFail_keeps (bindNote_keeps (markPsn_keeps h4))) (afterMark_keeps (instWrite_keeps (bindNote_keeps
      (markPsn_keeps h4))))

theorem queueResp_keeps {r s : State} {a0 a1 a2 a3} [May W .regs] [May W .hbm] [May W .fil] [May W .car] (h : Keeps W r s)
    : Keeps W r (queueResp s a0 a1 a2 a3) := by
  unfold queueResp
  repeat (with_reducible first
    | assumption | intro _ | apply pushMsg_keeps | split)

theorem rxReadReq_keeps {r s : State} {d e} [May W .regs] [May W .hbm] [May W .hif] [May W .dom] [May W .fil]
    [May W .rev] [May W .win] [May W .grn] [May W .car] [May W .stg] [May W .out] [May W .free] (h : Keeps W r s)
    : Keeps W r (rxReadReq s d e) := by
  unfold rxReadReq
  have h1 : Keeps1 W r (carHead s 5) := carHead_keeps h
  generalize carHead s 5 = q1 at h1
  obtain ⟨s1, _ | ⟨p, x⟩⟩ := q1
  · exact h1
  dsimp only
  have h2 : Keeps1 W r (rxOpen s1 p x) := rxOpen_keeps h1
  generalize rxOpen s1 p x = q2 at h2
  obtain ⟨s2, _ | ⟨n, c⟩⟩ := q2
  · exact h2
  dsimp only
  have h3 : Keeps1 W r (rxData s2 n c p x e) := rxData_keeps h2
  generalize rxData s2 n c p x e = q3 at h3
  obtain ⟨s3, _ | ⟨psn, pay⟩⟩ := q3
  · exact h3
  dsimp only
  replace h3 : Keeps W r s3 := h3
  split
  · exact regionNak_keeps h3
  · refine keeps_ite (keeps_snd (instFetch_keeps h)) (keeps_ite (afterMark_keeps (queueResp_keeps (markPsn_keeps h3)))
      (keeps_ite (connFail_keeps (markPsn_keeps h3)) ?_))
    have h4 := fun {a b c} => keeps_snd (instFetch_keeps (a0 := a) (a1 := b) (a2 := c) (markPsn_keeps (a0 := n) (a1
        := psn) (a2 := p) (a3 := x) h3))
    split
    · exact afterMark_keeps (queueResp_keeps h4)
    · exact connFail_keeps h4
    · exact connFail_keeps h4

theorem rxAtomic_keeps {r s : State} {d e} [May W .regs] [May W .hbm] [May W .hif] [May W .dom] [May W .fil]
    [May W .rev] [May W .win] [May W .grn] [May W .car] [May W .stg] [May W .out] [May W .free] (h : Keeps W r s)
    : Keeps W r (rxAtomic s d e) := by
  unfold rxAtomic
  have h1 : Keeps1 W r (carHead s 7) := carHead_keeps h
  generalize carHead s 7 = q1 at h1
  obtain ⟨s1, _ | ⟨p, x⟩⟩ := q1
  · exact h1
  dsimp only
  have h2 : Keeps1 W r (rxOpen s1 p x) := rxOpen_keeps h1
  generalize rxOpen s1 p x = q2 at h2
  obtain ⟨s2, _ | ⟨n, c⟩⟩ := q2
  · exact h2
  dsimp only
  have h3 : Keeps1 W r (rxData s2 n c p x e) := rxData_keeps h2
  generalize rxData s2 n c p x e = q3 at h3
  obtain ⟨s3, _ | ⟨psn, pay⟩⟩ := q3
  · exact h3
  dsimp only
  replace h3 : Keeps W r s3 := h3
  split
  · exact regionNak_keeps h3
  · rename_i g _
    have hw := fun {a b c} => keeps_snd (instReach_keeps (a0 := a) (a1 := b) (a2 := c) h)
    have hm : Keeps W r (markPsn s3 n psn p x) := markPsn_keeps h3
    generalize markPsn s3 n psn p x = s4 at hm ⊢
    have hf := fun {a b c} => keeps_snd (instFetch_keeps (a0 := a) (a1 := b) (a2 := c) hm)
    have hv := fun {c : Prop} [Decidable c] {a0 b0 c0} =>
      keeps_snd (keeps2_ite (c := c) (keeps2_mk (a := true) h) (instFetch_keeps (a0 := a0) (a1 := b0) (a2 := c0) h))
    refine keeps_ite hw (keeps_ite hv (keeps_ite (connFail_keeps hm) ?_))
    have h4 := fun {c : Prop} [Decidable c] {a0 b0 c0} =>
      keeps_ite (c := c) hm (keeps_snd (instFetch_keeps (a0 := a0) (a1 := b0) (a2 := c0) hm))
    split
    · exact afterMark_keeps (queueResp_keeps (keeps_ite (sendTlp_keeps h4) (instWrite_keeps h4)))
    · exact connFail_keeps h4
    · exact connFail_keeps h4

theorem rxResp_keeps {r s : State} {op e} [May W .regs] [May W .hbm] [May W .hif] [May W .dom] [May W .fil]
    [May W .win] [May W .grn] [May W .car] [May W .stg] [May W .out] [May W .free] (h : Keeps W r s)
    : Keeps W r (rxResp s op e) := by
  unfold rxResp
  have h1 : Keeps1 W r (carHead s op) := carHead_keeps h
  generalize carHead s op = q1 at h1
  obtain ⟨s1, _ | ⟨p, x⟩⟩ := q1
  · exact h1
  dsimp only
  have h2 : Keeps1 W r (rxOpen s1 p x) := rxOpen_keeps h1
  generalize rxOpen s1 p x = q2 at h2
  obtain ⟨s2, _ | ⟨n, c⟩⟩ := q2
  · exact h2
  dsimp only
  have h3 : Keeps1 W r (rxData s2 n c p x e) := rxData_keeps h2
  generalize rxData s2 n c p x e = q3 at h3
  obtain ⟨s3, _ | ⟨psn, pay⟩⟩ := q3
  · exact h3
  dsimp only
  replace h3 : Keeps W r s3 := h3
  split
  · rename_i t et
    split at et
    · split at et
      · split at et
        · cases et
          exact keeps_snd (instReach_keeps h)
        · contradiction
      · contradiction
    · contradiction
  have hm := markPsn_keeps (a0 := n) (a1 := psn) (a2 := p) (a3 := x) h3
  generalize markPsn s3 n psn p x = s4 at hm ⊢
  split
  · exact connFail_keeps hm
  · refine keeps_ite (connFail_keeps hm) (keeps_ite (placeFail_keeps hm) ?_)
    exact afterMark_keeps (modWorks_keeps (keeps_ite (State.hbmWrite_keeps hm) (instWrite_keeps hm)))

theorem rxCtl_keeps {r s : State} {a0 a1 a2 a3} [May W .regs] [May W .hbm] [May W .hif] [May W .dom] [May W .fil]
    [May W .win] [May W .grn] [May W .car] [May W .stg] [May W .out] (h : Keeps W r s) : Keeps1 W r (rxCtl s a0 a1 a2 a3)
    := by
  unfold rxCtl
  repeat (with_reducible first
    | assumption | intro _ | apply keeps_ite | apply keeps1_ite | apply keeps2_ite | apply carCount_keeps
    | apply verify_keeps | apply connMod_keeps | apply errorAnswer_keeps | apply connFail_keeps
    | refine keeps_of1 (by with_reducible assumption) ?_ | exact keeps_fst (by with_reducible assumption)
    | refine keeps_of2 (by with_reducible assumption) ?_ | exact keeps_snd (by with_reducible assumption)
    | refine keeps_snd (verify_keeps ?_) | split | apply keeps1_mk | apply keeps2_mk)

theorem ctlHead_keeps {r s : State} {a0} [May W .regs] [May W .hbm] [May W .hif] [May W .dom] [May W .fil] [May W .win]
    [May W .grn] [May W .car] [May W .stg] [May W .out] [May W .free] (h : Keeps W r s) : Keeps1 W r (ctlHead s a0) := by
  unfold ctlHead
  repeat (with_reducible first
    | assumption | apply carHead_keeps | apply rxOpen_keeps | apply rxCtl_keeps
    | refine keeps_of1 (by with_reducible assumption) ?_ | exact keeps_fst (by with_reducible assumption)
    | refine keeps_fst (carHead_keeps ?_) | refine keeps_fst (rxOpen_keeps ?_) | refine keeps_fst (rxCtl_keeps ?_)
    | split | apply keeps1_mk)

theorem afterAck_keeps {r s : State} {a0} [May W .regs] [May W .hbm] [May W .hif] [May W .dom] [May W .fil]
    [May W .grn] [May W .car] [May W .stg] [May W .out] (h : Keeps W r s) : Keeps W r (afterAck s a0) := by
  unfold afterAck
  repeat (with_reducible first
    | assumption | apply drainCheck_keeps | apply remoteDone_keeps)

theorem rxAck_keeps {r s : State} [May W .regs] [May W .hbm] [May W .hif] [May W .dom] [May W .fil] [May W .win]
    [May W .grn] [May W .car] [May W .stg] [May W .out] [May W .free] (h : Keeps W r s) : Keeps W r (rxAck s) := by
  unfold rxAck
  repeat (with_reducible first
    | assumption | intro _ | apply keeps_ite | apply keeps1_ite | apply ctlHead_keeps | apply carCount_keeps
    | apply connPut_keeps | apply afterAck_keeps | refine keeps_of1 (by with_reducible assumption) ?_
    | exact keeps_fst (by with_reducible assumption) | refine keeps_fst (ctlHead_keeps ?_) | split | apply keeps1_mk)

theorem rxNak_keeps {r s : State} [May W .regs] [May W .hbm] [May W .hif] [May W .dom] [May W .fil] [May W .win]
    [May W .grn] [May W .car] [May W .stg] [May W .out] [May W .free] (h : Keeps W r s) : Keeps W r (rxNak s) := by
  unfold rxNak
  have h1 : Keeps1 W r (ctlHead s 0x11) := ctlHead_keeps h
  generalize ctlHead s 0x11 = q at h1
  obtain ⟨t, _ | ⟨n, c, p, x, z⟩⟩ := q
  · exact h1
  replace h1 : Keeps W r t := h1
  dsimp only
  refine keeps_ite (carCount_keeps h1) (keeps_ite (carCount_keeps h1) ?_)
  have h2 : ∀ c, Keeps W r (afterAck (carCount (connPut t n c) n 22) n)
      := fun c => afterAck_keeps (carCount_keeps (connPut_keeps h1))
  repeat (with_reducible first
    | exact h2 _ | apply keeps_ite | apply connFail_keeps | apply connMod_keeps | apply connError_keeps | apply
        putCar_keeps | split)

theorem rxCredit_keeps {r s : State} [May W .regs] [May W .hbm] [May W .hif] [May W .dom] [May W .fil] [May W .win]
    [May W .grn] [May W .car] [May W .stg] [May W .out] [May W .free] (h : Keeps W r s) : Keeps W r (rxCredit s) := by
  unfold rxCredit
  repeat (with_reducible first
    | assumption | apply keeps_ite | apply keeps1_ite | apply ctlHead_keeps | apply sendRpt_keeps
    | apply connPut_keeps | refine keeps_of1 (by with_reducible assumption) ?_
    | exact keeps_fst (by with_reducible assumption) | refine keeps_fst (ctlHead_keeps ?_) | split | apply keeps1_mk)

theorem rxReport_keeps {r s : State} [May W .regs] [May W .hbm] [May W .hif] [May W .dom] [May W .fil] [May W .win]
    [May W .grn] [May W .car] [May W .stg] [May W .out] [May W .free] (h : Keeps W r s) : Keeps W r (rxReport s) := by
  unfold rxReport
  repeat (with_reducible first
    | assumption | apply keeps_ite | apply keeps1_ite | apply ctlHead_keeps | apply connPut_keeps
    | refine keeps_of1 (by with_reducible assumption) ?_ | exact keeps_fst (by with_reducible assumption)
    | refine keeps_fst (ctlHead_keeps ?_) | split | apply keeps1_mk)

theorem oweTimer_keeps {r s : State} {a0 a1} [May W .regs] [May W .hbm] [May W .fil] [May W .car] (h : Keeps W r s)
    : Keeps W r (oweTimer s a0 a1) := by
  unfold oweTimer
  repeat (with_reducible first
    | assumption | intro _ | apply keeps_ite | apply wantContext_keeps | apply connMod_keeps)

theorem rtoExpire_keeps {r s : State} {a0} [May W .regs] [May W .now] [May W .hbm] [May W .hif] [May W .dom]
    [May W .fil] [May W .tu] [May W .win] [May W .grn] [May W .car] [May W .stg] [May W .out] [May W .free] (h
    : Keeps W r s) : Keeps W r (rtoExpire s a0) := by
  unfold rtoExpire
  repeat (with_reducible first
    | assumption | intro _ | apply keeps_ite | apply clockTo_keeps | apply oweTimer_keeps | apply connFail_keeps
    | apply connPut_keeps | split)

theorem rnrExpire_keeps {r s : State} {a0 a1} [May W .regs] [May W .now] [May W .hbm] [May W .fil] [May W .tu]
    [May W .car] [May W .out] [May W .free] (h : Keeps W r s) : Keeps W r (rnrExpire s a0 a1) := by
  unfold rnrExpire
  repeat (with_reducible first
    | assumption | intro _ | apply keeps_ite | apply clockTo_keeps | apply oweTimer_keeps | apply connPut_keeps
    | split)

theorem connTimer_keeps {r s : State} {a0 a1 a2 a3 a4} [May W .regs] [May W .now] [May W .hbm] [May W .fil] [May W .tu]
    [May W .car] [May W .out] [May W .free] (h : Keeps W r s) (ha4 : ∀ s x1, Keeps W r s → Keeps W r (a4 s x1)) :
    Keeps W r (connTimer s a0 a1 a2 a3 a4) := by
  unfold connTimer
  repeat (with_reducible first
    | (lift_lets
       intro x
       first
       | (have hx : Keeps W r x := (by
            unfold x
            repeat (with_reducible first
              | (lift_lets
                 intro y
                 first
                 | (have hy : Keeps W r y := (by
                      unfold y
                      repeat (with_reducible first
                        | assumption | apply keeps_ite | intro _ | apply clockTo_keeps | apply oweTimer_keeps
                        | apply ha4 | split))
                    clear_value y)
                 | clear_value y)
              | assumption | apply keeps_ite | intro _ | apply clockTo_keeps | apply oweTimer_keeps | apply ha4
              | split))
          clear_value x)
       | clear_value x)
    | assumption | apply keeps_ite | intro _ | apply clockTo_keeps | apply oweTimer_keeps | apply ha4 | split)

theorem creditRepeat_keeps {r s : State} {a0} [May W .regs] [May W .now] [May W .hbm] [May W .hif] [May W .dom]
    [May W .fil] [May W .tu] [May W .win] [May W .grn] [May W .car] [May W .stg] [May W .out] [May W .free] (h
    : Keeps W r s) : Keeps W r (creditRepeat s a0) := by
  unfold creditRepeat
  repeat (with_reducible first
    | assumption | intro _ | apply connTimer_keeps | apply sendCredit'_keeps)

theorem reportRepeat_keeps {r s : State} {a0} [May W .regs] [May W .now] [May W .hbm] [May W .hif] [May W .dom]
    [May W .fil] [May W .tu] [May W .win] [May W .grn] [May W .car] [May W .stg] [May W .out] [May W .free] (h
    : Keeps W r s) : Keeps W r (reportRepeat s a0) := by
  unfold reportRepeat
  repeat (with_reducible first
    | assumption | intro _ | apply connTimer_keeps | apply sendRpt_keeps)

theorem ackDelayEnd_keeps {r s : State} {a0} [May W .regs] [May W .now] [May W .hbm] [May W .hif] [May W .dom]
    [May W .fil] [May W .tu] [May W .win] [May W .grn] [May W .car] [May W .stg] [May W .out] [May W .free] (h
    : Keeps W r s) : Keeps W r (ackDelayEnd s a0) := by
  unfold ackDelayEnd
  repeat (with_reducible first
    | assumption | intro _ | apply connTimer_keeps | apply sendAck'_keeps)

theorem payOne_keeps {r s : State} {a0 a1} [May W .regs] [May W .now] [May W .hbm] [May W .hif] [May W .dom]
    [May W .fil] [May W .tu] [May W .win] [May W .grn] [May W .car] [May W .stg] [May W .out] [May W .free] (h
    : Keeps W r s) : Keeps W r (payOne s a0 a1) := by
  unfold payOne
  repeat (with_reducible first
    | assumption | intro _ | apply sendCtl_keeps | apply rtoExpire_keeps | apply rnrExpire_keeps
    | apply ackDelayEnd_keeps | apply creditRepeat_keeps | apply reportRepeat_keeps | split)

theorem payOwed_keeps {r s : State} {a0} [May W .regs] [May W .now] [May W .hbm] [May W .hif] [May W .dom] [May W .fil]
    [May W .tu] [May W .win] [May W .grn] [May W .car] [May W .stg] [May W .out] [May W .free] (h : Keeps W r s)
    : Keeps W r (payOwed s a0) := by
  unfold payOwed
  repeat (with_reducible first
    | assumption | intro _ | apply keeps_ite | apply keeps_foldl | apply payOne_keeps | apply connPut_keeps | split)

theorem payAll_keeps {r s : State} [May W .regs] [May W .now] [May W .hbm] [May W .hif] [May W .dom] [May W .fil]
    [May W .tu] [May W .win] [May W .grn] [May W .car] [May W .stg] [May W .out] [May W .free] (h : Keeps W r s)
    : Keeps W r (payAll s) := by
  unfold payAll
  repeat (with_reducible first
    | assumption | intro _ | apply keeps_foldl | apply payOwed_keeps)

end Sys2Proof.Machine
end

