-- ==== Sys2Proof/Laws/EthOpsKeep.lean ====
section
/-! SUPPORT. Each operation of Machine/EthOps.lean keeps what `Keeps` says. -/

set_option Elab.async false

namespace Sys2Proof.Machine

open Sys2Proof

variable {W : List Part}

theorem ethCount_keeps {r s : State} {a0 a1 a2} [May W .regs] (h : Keeps W r s) : Keeps W r (ethCount s a0 a1 a2) := by
  unfold ethCount
  repeat (with_reducible first
    | assumption | apply State.add_keeps)

theorem setCfg_keeps {r s : State} {a0 a1} [May W .eth] (h : Keeps W r s) : Keeps W r (setCfg s a0 a1) := by
  unfold setCfg
  repeat (with_reducible first
    | assumption | apply keeps_eth)

theorem setPortState_keeps {r s : State} {a0 a1} [May W .regs] (h : Keeps W r s) : Keeps W r (setPortState s a0 a1) := by
  unfold setPortState
  repeat (with_reducible first
    | assumption | apply State.wr_keeps)

theorem dropTx_keeps {r s : State} {a0} [May W .eth] (h : Keeps W r s) : Keeps W r (dropTx s a0) := by
  unfold dropTx
  repeat (with_reducible first
    | assumption | apply keeps_eth)

theorem setQual_keeps {r s : State} {a0 a1} [May W .eth] (h : Keeps W r s) : Keeps W r (setQual s a0 a1) := by
  unfold setQual
  repeat (with_reducible first
    | assumption | split | apply keeps_eth)

theorem setPart_keeps {r s : State} {a0 a1} [May W .eth] (h : Keeps W r s) : Keeps W r (setPart s a0 a1) := by
  unfold setPart
  repeat (with_reducible first
    | assumption | split | apply keeps_eth)

theorem setHold_keeps {r s : State} {a0 a1} [May W .eth] (h : Keeps W r s) : Keeps W r (setHold s a0 a1) := by
  unfold setHold
  repeat (with_reducible first
    | assumption | split | apply keeps_eth)

theorem mergeRestart_keeps {r s : State} {a0} [May W .regs] [May W .eth] [May W .out] (h : Keeps W r s)
    : Keeps W r (mergeRestart s a0) := by
  unfold mergeRestart
  repeat (with_reducible first
    | assumption | apply keeps_ite | apply keeps2_ite | apply State.emit_keeps | apply State.wr_keeps
    | apply verify_keeps | refine keeps_of2 (by with_reducible assumption) ?_
    | exact keeps_snd (by with_reducible assumption) | refine keeps_snd (verify_keeps ?_) | apply keeps2_mk
    | apply keeps_eth)

theorem portDisable_keeps {r s : State} {a0} [May W .regs] [May W .eth] [May W .grn] [May W .tly] [May W .out] (h
    : Keeps W r s) : Keeps W r (portDisable s a0) := by
  unfold portDisable
  repeat (with_reducible first
    | assumption | apply keeps_ite | apply keeps1_ite | apply flushEp_keeps | apply setQual_keeps
    | apply setPart_keeps | apply setHold_keeps | apply dropTx_keeps | apply mergeRestart_keeps
    | apply ethCount_keeps | apply setPortState_keeps | refine keeps_of1 (by with_reducible assumption) ?_
    | exact keeps_fst (by with_reducible assumption) | refine keeps_fst (flushEp_keeps ?_) | split | apply keeps1_mk)

theorem rclkShow_keeps {r s : State} [May W .eth] [May W .out] (h : Keeps W r s) : Keeps W r (rclkShow s) := by
  unfold rclkShow
  repeat (with_reducible first
    | assumption | intro _ | apply keeps_ite | apply keeps_foldl | apply State.emit_keeps | split | apply keeps_eth)

theorem rclkResolve_keeps {r s : State} [May W .regs] (h : Keeps W r s) : Keeps W r (rclkResolve s) := by
  unfold rclkResolve
  repeat (with_reducible first
    | assumption | intro _ | apply keeps_foldl | apply State.wr_keeps)

theorem pllShow_keeps {r s : State} {a0} [May W .regs] (h : Keeps W r s) : Keeps W r (pllShow s a0) := by
  unfold pllShow
  repeat (with_reducible first
    | assumption | apply keeps_ite | apply State.wr_keeps)

theorem qualFollow_keeps {r s : State} {a0} [May W .eth] (h : Keeps W r s) : Keeps W r (qualFollow s a0) := by
  unfold qualFollow
  repeat (with_reducible first
    | assumption | apply keeps_ite | apply setQual_keeps)

theorem laneLock_keeps {r s : State} {a0 a1 a2} [May W .regs] [May W .eth] [May W .out] (h : Keeps W r s)
    : Keeps W r (laneLock s a0 a1 a2) := by
  unfold laneLock
  repeat (with_reducible first
    | (lift_lets
       intro x
       first
       | (have hx : Keeps W r x := (by
            unfold x
            repeat (with_reducible first
              | assumption | apply keeps_ite | apply rclkShow_keeps | apply pllShow_keeps | apply State.wr_keeps
              | apply qualFollow_keeps | split))
          clear_value x)
       | clear_value x)
    | assumption | apply keeps_ite | apply rclkShow_keeps | apply pllShow_keeps | apply State.wr_keeps
    | apply qualFollow_keeps | split)

theorem portTrain_keeps {r s : State} {a0} [May W .regs] [May W .eth] [May W .out] (h : Keeps W r s)
    : Keeps W r (portTrain s a0) := by
  unfold portTrain
  repeat (with_reducible first
    | assumption | intro _ | apply keeps_ite | apply keeps_foldl | apply laneLock_keeps | apply setQual_keeps
    | apply pllShow_keeps | apply State.wr_keeps | apply setPortState_keeps | apply State.emit_keeps)

theorem portApply_keeps {r s : State} {a0 a1} [May W .regs] [May W .eth] [May W .grn] [May W .tly] [May W .out] (h
    : Keeps W r s) : Keeps W r (portApply s a0 a1) := by
  unfold portApply
  repeat (with_reducible first
    | assumption | apply keeps_ite | apply setCfg_keeps | apply mergeRestart_keeps | apply portDisable_keeps
    | apply portTrain_keeps)

theorem ethApply_keeps {r s : State} {a0} [May W .regs] [May W .eth] [May W .grn] [May W .tly] [May W .out] (h
    : Keeps W r s) : Keeps W r (ethApply s a0) := by
  unfold ethApply
  repeat (with_reducible first
    | assumption | intro _ | apply keeps_ite | apply keeps_foldl | apply portApply_keeps | apply State.wr_keeps
    | apply setCfg_keeps | apply portDisable_keeps | split)

theorem portFlushDown_keeps {r s : State} {a0} [May W .regs] [May W .eth] [May W .grn] [May W .tly] [May W .out] (h
    : Keeps W r s) : Keeps W r (portFlushDown s a0) := by
  unfold portFlushDown
  repeat (with_reducible first
    | assumption | apply flushEp_keeps | apply setPortState_keeps | apply setHold_keeps | apply ethCount_keeps
    | refine keeps_of1 (by with_reducible assumption) ?_ | exact keeps_fst (by with_reducible assumption)
    | refine keeps_fst (flushEp_keeps ?_) | split | apply keeps1_mk)

theorem loseLink_keeps {r s : State} {a0} [May W .regs] [May W .eth] [May W .grn] [May W .tly] [May W .out] (h
    : Keeps W r s) : Keeps W r (loseLink s a0) := by
  unfold loseLink
  repeat (with_reducible first
    | assumption | apply keeps_ite | apply mergeRestart_keeps | apply ethCount_keeps | apply setPart_keeps
    | apply dropTx_keeps | apply State.wr_keeps | apply portFlushDown_keeps | apply setPortState_keeps
    | apply setHold_keeps)

theorem holdExpire_keeps {r s : State} {a0} [May W .regs] [May W .eth] [May W .grn] [May W .tly] [May W .out] (h
    : Keeps W r s) : Keeps W r (holdExpire s a0) := by
  unfold holdExpire
  repeat (with_reducible first
    | assumption | apply keeps_ite | apply State.wr_keeps | apply portFlushDown_keeps)

theorem putLink_keeps {r s : State} {a0 a1} [May W .stk] (h : Keeps W r s) : Keeps W r (putLink s a0 a1) := by
  unfold putLink
  repeat (with_reducible first
    | assumption | apply State.reset_keeps | apply keeps_stk)

theorem x4Show_keeps {r s : State} {a0} [May W .regs] (h : Keeps W r s) : Keeps W r (x4Show s a0) := by
  unfold x4Show
  repeat (with_reducible first
    | assumption | apply State.wr_keeps)

theorem sendWord_keeps {r s : State} {a0 a1} [May W .out] (h : Keeps W r s) : Keeps W r (sendWord s a0 a1) := by
  unfold sendWord
  repeat (with_reducible first
    | assumption | apply State.emit_keeps)

theorem sendHello_keeps {r s : State} {a0} [May W .out] (h : Keeps W r s) : Keeps W r (sendHello s a0) := by
  unfold sendHello
  repeat (with_reducible first
    | assumption | apply keeps_ite | apply sendWord_keeps)

theorem linkHello_keeps {r s : State} {a0} [May W .regs] [May W .stk] [May W .out] (h : Keeps W r s)
    : Keeps W r (linkHello s a0) := by
  unfold linkHello
  repeat (with_reducible first
    | assumption | apply sendHello_keeps | apply x4Show_keeps | apply State.wr_keeps | apply putLink_keeps)

theorem portUp_keeps {r s : State} {a0} [May W .regs] [May W .eth] [May W .stk] [May W .grn] [May W .tly] [May W .out] (h
    : Keeps W r s) : Keeps W r (portUp s a0) := by
  unfold portUp
  repeat (with_reducible first
    | assumption | apply keeps_ite | apply holdExpire_keeps | apply State.wr_keeps | apply mergeRestart_keeps
    | apply setPortState_keeps | apply setHold_keeps | apply linkHello_keeps | split)

theorem portQualify_keeps {r s : State} {a0} [May W .regs] [May W .now] [May W .tu] [May W .eth] [May W .stk]
    [May W .grn] [May W .tly] [May W .out] [May W .free] (h : Keeps W r s) : Keeps W r (portQualify s a0) := by
  unfold portQualify
  repeat (with_reducible first
    | assumption | apply keeps_ite | apply portUp_keeps | apply clockTo_keeps)

theorem sahrovRetire_keeps {r s : State} {a0 a1} [May W .regs] [May W .eth] [May W .grn] [May W .tly] [May W .out] (h
    : Keeps W r s) : Keeps W r (sahrovRetire s a0 a1) := by
  unfold sahrovRetire
  repeat (with_reducible first
    | (lift_lets
       intro x
       first
       | (have hx : Keeps W r x := (by
            unfold x
            repeat (with_reducible first
              | assumption | intro _ | apply keeps_ite | apply keeps_foldl | apply laneLock_keeps
              | apply setQual_keeps | apply loseLink_keeps | apply State.wr_keeps | apply State.inc_keeps
              | apply x4Show_keeps | apply State.emit_keeps | split))
          clear_value x)
       | clear_value x)
    | assumption | intro _ | apply keeps_ite | apply keeps_foldl | apply laneLock_keeps | apply setQual_keeps
    | apply loseLink_keeps | apply State.wr_keeps | apply State.inc_keeps | apply x4Show_keeps
    | apply State.emit_keeps | split)

theorem retireLane_keeps {r s : State} {a0} [May W .regs] [May W .eth] [May W .grn] [May W .tly] [May W .out] (h
    : Keeps W r s) : Keeps W r (retireLane s a0) := by
  unfold retireLane
  repeat (with_reducible first
    | assumption | apply keeps_ite | apply laneLock_keeps | apply sahrovRetire_keeps | apply loseLink_keeps
    | apply State.wr_keeps | split)

theorem laneFail_keeps {r s : State} {a0} [May W .regs] [May W .hif] [May W .fil] [May W .rev] [May W .eth]
    [May W .grn] [May W .tly] [May W .out] (h : Keeps W r s) : Keeps W r (laneFail s a0) := by
  unfold laneFail
  repeat (with_reducible first
    | assumption | apply countFailure_keeps | apply retireLane_keeps
    | refine keeps_of1 (by with_reducible assumption) ?_ | exact keeps_fst (by with_reducible assumption)
    | refine keeps_fst (countFailure_keeps ?_) | split | apply keeps1_mk)

theorem internalInput_keeps {r s : State} {a0} [May W .regs] [May W .hbm] [May W .hif] [May W .dom] [May W .fil]
    [May W .win] [May W .grn] [May W .tly] [May W .out] [May W .free] (h : Keeps W r s) : Keeps W r (internalInput s a0) := by
  unfold internalInput
  repeat (with_reducible first
    | assumption | intro _ | apply keeps_ite | apply putWin_keeps | apply feed_keeps | apply txEntered_keeps | split)

theorem inputTurn_keeps {r s : State} {a0} [May W .regs] [May W .hbm] [May W .hif] [May W .dom] [May W .fil]
    [May W .win] [May W .grn] [May W .tly] [May W .out] [May W .free] (h : Keeps W r s) : Keeps W r (inputTurn s a0) := by
  unfold inputTurn
  repeat (with_reducible first
    | assumption | intro _ | apply keeps_ite | apply internalInput_keeps | apply putWin_keeps)

theorem passWire_keeps {r s : State} {a0} [May W .regs] [May W .hbm] [May W .hif] [May W .dom] [May W .fil]
    [May W .win] [May W .grn] [May W .tly] [May W .out] [May W .free] (h : Keeps W r s) : Keeps W r (passWire s a0) := by
  unfold passWire
  repeat (with_reducible first
    | assumption | apply feed_keeps | apply ethCount_keeps | apply inputTurn_keeps | split)

theorem drainRx_keeps {r : State} [May W .regs] [May W .hbm] [May W .hif] [May W .dom] [May W .fil] [May W .win]
    [May W .grn] [May W .tly] [May W .out] [May W .free] (k : Nat) : ∀ {s : State} {a0}, Keeps W r s
    → Keeps W r (drainRx s a0 k) := by
  induction k with
  | zero =>
    intro s a0 h
    rw [drainRx]
    repeat (with_reducible first
      | assumption | apply keeps_ite | apply passWire_keeps | apply putWin_keeps | split)
  | succ n ih =>
    intro s a0 h
    rw [drainRx]
    repeat (with_reducible first
      | assumption | apply keeps_ite | apply passWire_keeps | apply putWin_keeps | apply ih | split)

theorem ethFrame_keeps {r s : State} {a0 a1 a2} [May W .regs] [May W .hbm] [May W .hif] [May W .dom] [May W .fil]
    [May W .win] [May W .grn] [May W .tly] [May W .out] [May W .free] (h : Keeps W r s) : Keeps W r (ethFrame s a0 a1 a2)
    := by
  unfold ethFrame
  repeat (with_reducible first
    | assumption | intro _ | apply keeps_ite | apply keeps2_ite | apply keeps_foldl | apply keeps2_foldl
    | apply ethCount_keeps | apply rxStamp_keeps | apply feed_keeps | apply putWin_keeps | apply passWire_keeps
    | refine keeps_of2 (by with_reducible assumption) ?_ | exact keeps_snd (by with_reducible assumption)
    | refine keeps_snd (rxStamp_keeps ?_) | split | apply keeps2_mk)

theorem fragReceive_keeps {r s : State} {a0 a1 a2 a3} [May W .regs] [May W .hbm] [May W .hif] [May W .dom] [May W .fil]
    [May W .eth] [May W .win] [May W .grn] [May W .tly] [May W .out] [May W .free] (h : Keeps W r s)
    : Keeps W r (fragReceive s a0 a1 a2 a3) := by
  unfold fragReceive
  repeat (with_reducible first
    | (lift_lets
       intro x
       first
       | (have hx : Keeps W r x := (by
            unfold x
            repeat (with_reducible first
              | assumption | apply keeps_ite | apply setPart_keeps | apply ethFrame_keeps | apply ethCount_keeps
              | split))
          clear_value x)
       | clear_value x)
    | assumption | apply keeps_ite | apply setPart_keeps | apply ethFrame_keeps | apply ethCount_keeps | split)

theorem portReceive_keeps {r s : State} {a0 a1} [May W .regs] [May W .hbm] [May W .hif] [May W .dom] [May W .fil]
    [May W .eth] [May W .win] [May W .grn] [May W .tly] [May W .out] [May W .free] (h : Keeps W r s)
    : Keeps W r (portReceive s a0 a1) := by
  unfold portReceive
  repeat (with_reducible first
    | assumption | apply keeps_ite | apply keeps2_ite | apply ethCount_keeps | apply ethFrame_keeps
    | apply fragReceive_keeps | apply setPart_keeps | apply State.emit_keeps | apply State.wr_keeps
    | apply verify_keeps | apply respond_keeps | refine keeps_of2 (by with_reducible assumption) ?_
    | exact keeps_snd (by with_reducible assumption) | refine keeps_snd (verify_keeps ?_) | split | apply keeps2_mk)

end Sys2Proof.Machine
end

