-- ==== Sys2Proof/Laws/TimeOpsKeep.lean ====
section
/-! SUPPORT. Each operation of Machine/TimeOps.lean keeps what `Keeps` says. -/

set_option Elab.async false

namespace Sys2Proof.Machine

open Sys2Proof

variable {W : List Part}

theorem timeCapture_keeps {r s : State} [May W .regs] [May W .free] (h : Keeps W r s) : Keeps W r (timeCapture s) := by
  unfold timeCapture
  repeat (with_reducible first
    | assumption | apply tuStamp_keeps | apply State.wr_keeps | refine keeps_of2 (by with_reducible assumption) ?_
    | exact keeps_snd (by with_reducible assumption) | refine keeps_snd (tuStamp_keeps ?_) | split | apply keeps2_mk)

theorem timeSet_keeps {r s : State} {a0 a1} [May W .regs] [May W .tu] (h : Keeps W r s) : Keeps W r (timeSet s a0 a1) := by
  unfold timeSet
  repeat (with_reducible first
    | assumption | apply keeps_ite | apply tuStep_keeps | apply keeps_tu)

theorem sampleOf_keeps {r s : State} {k} [May W .free] (h : Keeps W r s) : Keeps W r (sampleOf s k).2.2 := by
  unfold sampleOf
  split
  · exact h
  · exact engineFour_keeps h

theorem sampleTake_keeps {r : State} {x : Int × Int × State} [May W .regs] [May W .tu] [May W .eth] [May W .out] (h
    : Keeps W r x.2.2) : Keeps W r (sampleTake x) := by
  unfold sampleTake
  split
  rename_i e
  have k := keeps_of1 e (engineTake_keeps h)
  exact keeps_ite (State.wr_keeps k) (keeps_ite (onOffset_keeps k) k)

theorem engineBusy_keeps {r s : State} [May W .regs] [May W .tu] (h : Keeps W r s) : Keeps W r (engineBusy s) := by
  unfold engineBusy
  repeat (with_reducible first
    | assumption | apply State.wr_keeps | apply keeps_tu)

theorem sampleCommit_keeps {r s : State} {k} [May W .regs] [May W .tu] [May W .eth] [May W .out] [May W .free] (h
    : Keeps W r s) : Keeps W r (sampleCommit s k) := by
  unfold sampleCommit
  exact keeps_ite (State.inc_keeps h) (sampleTake_keeps (sampleOf_keeps (engineBusy_keeps h)))

theorem servoMode_keeps {r s : State} {a0} [May W .regs] [May W .tu] [May W .eth] [May W .out] (h : Keeps W r s)
    : Keeps W r (servoMode s a0) := by
  unfold servoMode
  repeat (with_reducible first
    | assumption | apply keeps_ite | apply State.wr_keeps | apply tuShow_keeps | apply keeps_tu)

theorem eecFollow_keeps {r s : State} {a0} [May W .regs] [May W .tu] [May W .eth] [May W .out] (h : Keeps W r s)
    : Keeps W r (eecFollow s a0) := by
  unfold eecFollow
  repeat (with_reducible first
    | assumption | apply keeps_ite | apply tuShow_keeps | apply State.wr_keeps | apply keeps_tu)

theorem eecLock_keeps {r s : State} {a0} [May W .regs] [May W .tu] [May W .eth] [May W .out] (h : Keeps W r s)
    : Keeps W r (eecLock s a0) := by
  unfold eecLock
  repeat (with_reducible first
    | assumption | apply eecFollow_keeps | apply State.wr_keeps)

theorem eecSetRef_keeps {r s : State} {a0 a1} [May W .regs] [May W .tu] (h : Keeps W r s) : Keeps W r (eecSetRef s a0 a1)
    := by
  unfold eecSetRef
  repeat (with_reducible first
    | assumption | apply keeps_ite | apply State.wr_keeps | apply keeps_tu)

theorem eecQualified_keeps {r s : State} {a0 a1} [May W .regs] [May W .tu] [May W .eth] [May W .out] (h : Keeps W r s)
    : Keeps W r (eecQualified s a0 a1) := by
  unfold eecQualified
  repeat (with_reducible first
    | assumption | apply keeps_ite | apply eecSetRef_keeps | apply State.inc_keeps | apply eecLock_keeps
    | apply eecFollow_keeps)

theorem eecLost_keeps {r s : State} {a0 a1} [May W .regs] [May W .tu] [May W .eth] [May W .out] (h : Keeps W r s)
    : Keeps W r (eecLost s a0 a1) := by
  unfold eecLost
  repeat (with_reducible first
    | assumption | apply keeps_ite | apply State.wr_keeps | apply State.inc_keeps | apply eecLock_keeps
    | apply tuShow_keeps | apply keeps_tu)

theorem synceEnable_keeps {r s : State} {a0} [May W .regs] [May W .tu] [May W .eth] [May W .out] (h : Keeps W r s)
    : Keeps W r (synceEnable s a0) := by
  unfold synceEnable
  repeat (with_reducible first
    | assumption | apply keeps_ite | apply State.wr_keeps | apply tuShow_keeps | apply keeps_tu)

end Sys2Proof.Machine
end

