-- ==== Sys2Proof/Laws/StkOpsKeep.lean ====
section
/-! SUPPORT. Each operation of Machine/StkOps.lean keeps what `Keeps` says. -/

set_option Elab.async false

namespace Sys2Proof.Machine

open Sys2Proof

variable {W : List Part}

theorem stkShow_keeps {r s : State} [May W .regs] (h : Keeps W r s) : Keeps W r (stkShow s) := by
  unfold stkShow
  repeat (with_reducible first
    | assumption | apply State.wr_keeps)

theorem stkCount_keeps {r s : State} {a0} [May W .regs] (h : Keeps W r s) : Keeps W r (stkCount s a0) := by
  unfold stkCount
  repeat (with_reducible first
    | assumption | apply State.inc_keeps)

theorem sendAck_keeps {r s : State} {a0 a1} [May W .stk] [May W .out] (h : Keeps W r s) : Keeps W r (sendAck s a0 a1) := by
  unfold sendAck
  repeat (with_reducible first
    | assumption | apply putLink_keeps | apply sendWord_keeps)

theorem sendNak_keeps {r s : State} {a0} [May W .regs] [May W .stk] [May W .out] (h : Keeps W r s)
    : Keeps W r (sendNak s a0) := by
  unfold sendNak
  repeat (with_reducible first
    | assumption | apply keeps_ite | apply sendAck_keeps | apply stkCount_keeps | apply putLink_keeps | split)

theorem sendCredit_keeps {r s : State} {a0 a1} [May W .out] (h : Keeps W r s) : Keeps W r (sendCredit s a0 a1) := by
  unfold sendCredit
  repeat (with_reducible first
    | assumption | apply sendWord_keeps)

theorem linkQueue_keeps {r s : State} {a0 a1 a2} [May W .stk] (h : Keeps W r s) : Keeps W r (linkQueue s a0 a1 a2) := by
  unfold linkQueue
  repeat (with_reducible first
    | assumption | apply putLink_keeps)

theorem shareOut_keeps {r s : State} {a0} [May W .stk] (h : Keeps W r s) : Keeps W r (shareOut s a0) := by
  unfold shareOut
  repeat (with_reducible first
    | assumption | intro _ | apply keeps_ite | apply keeps_foldl | apply linkQueue_keeps)

theorem markOut_keeps {r s : State} {a0} [May W .stk] (h : Keeps W r s) : Keeps W r (markOut s a0) := by
  unfold markOut
  repeat (with_reducible first
    | assumption | intro _ | apply keeps_ite | apply keeps_foldl | apply linkQueue_keeps)

theorem shareChange_keeps {r s : State} {a0} [May W .regs] [May W .stk] (h : Keeps W r s) : Keeps W r (shareChange s a0) := by
  unfold shareChange
  repeat (with_reducible first
    | assumption | apply keeps_ite | apply markOut_keeps | apply State.inc_keeps | apply shareOut_keeps)

theorem dataSend_keeps {r s : State} {a0} [May W .stk] [May W .out] (h : Keeps W r s) : Keeps W r (dataSend s a0) := by
  unfold dataSend
  repeat (with_reducible first
    | assumption | apply keeps_ite | apply sendWord_keeps | apply putLink_keeps | apply State.emit_keeps | split)

theorem linkRetrain_keeps {r s : State} {a0} [May W .regs] [May W .eth] [May W .stk] [May W .grn] [May W .tly]
    [May W .out] (h : Keeps W r s) : Keeps W r (linkRetrain s a0) := by
  unfold linkRetrain
  repeat (with_reducible first
    | assumption | intro _ | apply keeps_foldl | apply loseLink_keeps | apply putLink_keeps | apply laneLock_keeps
    | apply State.emit_keeps | apply State.wr_keeps | apply stkCount_keeps)

theorem replayAll_keeps {r s : State} {a0} [May W .regs] [May W .eth] [May W .stk] [May W .grn] [May W .tly] [May W .out]
    (h : Keeps W r s) : Keeps W r (replayAll s a0) := by
  unfold replayAll
  repeat (with_reducible first
    | assumption | intro _ | apply keeps_ite | apply keeps_foldl | apply linkRetrain_keeps | apply putLink_keeps
    | apply stkCount_keeps | apply State.emit_keeps)

theorem ackArrive_keeps {r s : State} {a0 a1 a2} [May W .regs] [May W .eth] [May W .stk] [May W .grn] [May W .tly]
    [May W .out] (h : Keeps W r s) : Keeps W r (ackArrive s a0 a1 a2) := by
  unfold ackArrive
  repeat (with_reducible first
    | assumption | intro _ | apply keeps_ite | apply putLink_keeps | apply replayAll_keeps)

theorem linkHeard_keeps {r s : State} {a0} [May W .stk] (h : Keeps W r s) : Keeps W r (linkHeard s a0) := by
  unfold linkHeard
  repeat (with_reducible first
    | assumption | apply putLink_keeps)

theorem helloArrive_keeps {r s : State} {a0 a1 a2} [May W .regs] [May W .hif] [May W .fil] [May W .rev] [May W .eth]
    [May W .stk] [May W .grn] [May W .tly] [May W .out] (h : Keeps W r s) : Keeps W r (helloArrive s a0 a1 a2) := by
  unfold helloArrive
  dsimp only
  repeat (with_reducible first
    | assumption | intro _ | apply keeps_ite | apply keeps1_ite | apply keeps_foldl | apply keeps1_foldl
    | apply countFailure_keeps | apply State.wr_keeps | apply x4Show_keeps | apply putLink_keeps | apply portUp_keeps
    | apply sendCredit_keeps | refine keeps_of1 (by with_reducible assumption) ?_
    | exact keeps_fst (by with_reducible assumption) | refine keeps_fst (countFailure_keeps ?_) | apply keeps1_mk)

theorem creditArrive_keeps {r s : State} {a0 a1 a2} [May W .stk] (h : Keeps W r s) : Keeps W r (creditArrive s a0 a1 a2) := by
  unfold creditArrive
  repeat (with_reducible first
    | assumption | apply putLink_keeps)

theorem keepaliveArrive_keeps {r s : State} {a0 a1} [May W .stk] (h : Keeps W r s) : Keeps W r (keepaliveArrive s a0 a1) := by
  unfold keepaliveArrive
  repeat (with_reducible first
    | assumption | apply putLink_keeps)

theorem peerLoss_keeps {r s : State} {a0} [May W .regs] [May W .tu] [May W .eth] [May W .stk] [May W .grn] [May W .tly]
    [May W .out] (h : Keeps W r s) : Keeps W r (peerLoss s a0) := by
  unfold peerLoss
  repeat (with_reducible first
    | assumption | apply keeps_ite | apply putLink_keeps | apply loseLink_keeps | apply State.wr_keeps
    | apply servoHoldover_keeps)

theorem changeApply_keeps {r s : State} {c} [May W .regs] [May W .hbm] [May W .fil] [May W .win] (h : Keeps W r s)
    : Keeps W r (changeApply s c) := by
  unfold changeApply
  dsimp only
  split
  · split
    · rename_i e
      exact keeps_ofE e (tblInsert_keeps h)
    · exact h
  · exact keepsO_getD h (tblDelete_keeps h)
  · exact putWin_keeps h
  · exact h

theorem snapshotOut_keeps {r s : State} [May W .stk] (h : Keeps W r s) : Keeps W r (snapshotOut s) := by
  unfold snapshotOut
  repeat (with_reducible first
    | assumption | intro _ | apply keeps_ite | apply keeps_foldl | apply markOut_keeps | apply shareOut_keeps)

theorem changeArrive_keeps {r s : State} {a b} [May W .regs] [May W .hbm] [May W .fil] [May W .stk] [May W .win] (h
    : Keeps W r s) : Keeps W r (changeArrive s a b) := by
  unfold changeArrive
  repeat (with_reducible first
    | assumption | split | apply changeApply_keeps | apply keeps_stk)

theorem snapshotPrune_keeps {r s : State} {l} [May W .regs] [May W .hbm] [May W .fil] [May W .win] (h : Keeps W r s)
    : Keeps W r (snapshotPrune s l) := by
  unfold snapshotPrune
  exact keeps_foldl h fun s x hs => keeps_ite hs (keepsO_getD hs (tblDelete_keeps hs))

theorem sendStateAck_keeps {r s : State} {a0} [May W .out] (h : Keeps W r s) : Keeps W r (sendStateAck s a0) := by
  unfold sendStateAck
  repeat (with_reducible first
    | assumption | apply sendWord_keeps)

theorem stateMark_keeps {r s : State} {a b c} [May W .regs] [May W .hbm] [May W .fil] [May W .stk] [May W .win]
    [May W .out] (h : Keeps W r s) : Keeps W r (stateMark s a b c) := by
  unfold stateMark
  have h1 : Keeps W r { s with stk := { s.stk with inbox := [] } } := keeps_stk h
  have h2 : Keeps W r { s with stk := { s.stk with snap := some [], inbox := [] } } := keeps_stk h
  have h3 : Keeps W r { s with stk := { s.stk with snap := none } } := keeps_stk h
  have h4 : Keeps W r (s.stk.inbox.foldl changeApply { s with stk := { s.stk with inbox := [] } }) :=
    keeps_foldl h1 fun _ _ hs => changeApply_keeps hs
  repeat (with_reducible first
    | assumption | apply sendStateAck_keeps | apply State.wr_keeps | apply snapshotPrune_keeps | split)

theorem stateAck_keeps {r s : State} {a0 a1} [May W .stk] (h : Keeps W r s) : Keeps W r (stateAck s a0 a1) := by
  unfold stateAck
  repeat (with_reducible first
    | assumption | apply keeps_stk)

theorem timePeriod_keeps {r s : State} [May W .regs] [May W .now] [May W .tu] [May W .out] [May W .free] (h : Keeps W r s)
    : Keeps W r (timePeriod s) := by
  unfold timePeriod
  repeat (with_reducible first
    | assumption | apply keeps_ite | apply keeps2_ite | apply clockTo_keeps | apply txStamp_keeps
    | apply sendWord_keeps | refine keeps_of2 (by with_reducible assumption) ?_
    | exact keeps_snd (by with_reducible assumption) | refine keeps_snd (txStamp_keeps ?_) | split | apply keeps2_mk
    | apply keeps_tu)

theorem timeArrive_keeps {r s : State} {a0 a1 a2} [May W .tu] [May W .out] [May W .free] (h : Keeps W r s)
    : Keeps W r (timeArrive s a0 a1 a2) := by
  unfold timeArrive
  repeat (with_reducible first
    | assumption | apply keeps_ite | apply keeps2_ite | apply rxStamp_keeps | apply sendWord_keeps
    | apply txStamp_keeps | refine keeps_of2 (by with_reducible assumption) ?_
    | exact keeps_snd (by with_reducible assumption) | refine keeps_snd (rxStamp_keeps ?_)
    | refine keeps_snd (txStamp_keeps ?_) | split | apply keeps2_mk | apply keeps_tu)

theorem timeRpt_keeps {r s : State} {j q t} [May W .regs] [May W .tu] [May W .eth] [May W .out] [May W .free] (h
    : Keeps W r s) : Keeps W r (timeRpt s j q t) := by
  unfold timeRpt
  split
  · exact h
  split
  · rename_i t1 t3 _ _
    dsimp only
    have h1 : Keeps W r { s with tu := { s.tu with t1 := none, t3 := none } } := keeps_tu h
    have h2 := engineFour_keeps (a := t1) (b := (s.tu.t2 : Int) - toSigned 32 (s.rd R.TU_STK_ASYM.ASYM []))
      (c := (t3 : Int) - toSigned 32 (s.rd R.TU_STK_ASYM.ASYM [])) (d := t) h1
    generalize engineFour _ _ _ _ _ = p at h2 ⊢
    obtain ⟨off, dly, u⟩ := p
    dsimp only at h2 ⊢
    have h3 := engineTake_keeps (a0 := off) (a1 := dly) h2
    generalize engineTake u off dly = p at h3 ⊢
    exact keeps_ite (onOffset_keeps (State.wr_keeps h3)) h3
  · exact h

theorem ctlWord_keeps {r s : State} {a0 a1} [May W .regs] [May W .hbm] [May W .hif] [May W .fil] [May W .rev]
    [May W .tu] [May W .eth] [May W .stk] [May W .win] [May W .grn] [May W .tly] [May W .out] [May W .free] (h
    : Keeps W r s) : Keeps W r (ctlWord s a0 a1) := by
  unfold ctlWord
  repeat (with_reducible first
    | assumption | apply helloArrive_keeps | apply ackArrive_keeps | apply creditArrive_keeps
    | apply keepaliveArrive_keeps | apply timeArrive_keeps | apply timeRpt_keeps | apply stateMark_keeps
    | apply stateAck_keeps | apply stkCount_keeps | split)

theorem ctlWords_keeps {r : State} [May W .regs] [May W .hbm] [May W .hif] [May W .fil] [May W .rev] [May W .tu]
    [May W .eth] [May W .stk] [May W .win] [May W .grn] [May W .tly] [May W .out] [May W .free] (k : Nat) : ∀ {s : State}
    {a0 a1}, Keeps W r s → Keeps W r (ctlWords s a0 k a1) := by
  induction k with
  | zero =>
    intro s a0 a1 h
    rw [ctlWords]
    repeat (with_reducible first
      | assumption | apply ctlWord_keeps | split)
  | succ n ih =>
    intro s a0 a1 h
    rw [ctlWords]
    repeat (with_reducible first
      | assumption | apply ctlWord_keeps | apply ih | split)

theorem unitPkt_keeps {r s : State} {a0 a1 a2} [May W .free] (h : Keeps W r s) : Keeps2 W r (unitPkt s a0 a1 a2) := by
  unfold unitPkt
  repeat (with_reducible first
    | assumption | apply rxStamp_keeps | refine keeps_of2 (by with_reducible assumption) ?_
    | exact keeps_snd (by with_reducible assumption) | refine keeps_snd (rxStamp_keeps ?_) | split | apply keeps2_mk)

theorem unitDeliver_keeps {r s : State} {a0 a1 a2} [May W .regs] [May W .hbm] [May W .fil] [May W .stk] [May W .win]
    [May W .grn] [May W .tly] [May W .out] [May W .free] (h : Keeps W r s) : Keeps W r (unitDeliver s a0 a1 a2) := by
  unfold unitDeliver
  repeat (with_reducible first
    | assumption | apply keeps_ite | apply keeps1_ite | apply keeps2_ite | apply changeArrive_keeps
    | apply unitPkt_keeps | apply toInternal_keeps | apply stkCount_keeps | apply toQueue_keeps
    | refine keeps_of1 (by with_reducible assumption) ?_ | exact keeps_fst (by with_reducible assumption)
    | refine keeps_fst (toQueue_keeps ?_) | refine keeps_of2 (by with_reducible assumption) ?_
    | exact keeps_snd (by with_reducible assumption) | refine keeps_snd (unitPkt_keeps ?_) | split | apply keeps1_mk
    | apply keeps2_mk)

theorem unitAdmit_keeps {r s : State} {a0 a1 a2} [May W .regs] [May W .hbm] [May W .fil] [May W .stk] [May W .win]
    [May W .grn] [May W .tly] [May W .out] [May W .free] (h : Keeps W r s) : Keeps W r (unitAdmit s a0 a1 a2) := by
  unfold unitAdmit
  repeat (with_reducible first
    | assumption | apply keeps_ite | apply putLink_keeps | apply sendAck_keeps | apply sendCredit_keeps
    | apply unitDeliver_keeps)

theorem unitReceive_keeps {r s : State} {a0 a1} [May W .regs] [May W .hbm] [May W .hif] [May W .fil] [May W .rev]
    [May W .tu] [May W .eth] [May W .stk] [May W .win] [May W .grn] [May W .tly] [May W .out] [May W .free] (h
    : Keeps W r s) : Keeps W r (unitReceive s a0 a1) := by
  unfold unitReceive
  repeat (with_reducible first
    | assumption | apply keeps_ite | apply stkCount_keeps | apply sendNak_keeps | apply linkHeard_keeps
    | apply ctlWords_keeps | apply unitAdmit_keeps | split)

theorem keepaliveTick_keeps {r s : State} [May W .regs] [May W .now] [May W .tu] [May W .stk] [May W .out] [May W .free]
    (h : Keeps W r s) : Keeps W r (keepaliveTick s) := by
  unfold keepaliveTick
  repeat (with_reducible first
    | assumption | intro _ | apply keeps_ite | apply keeps_foldl | apply clockTo_keeps | apply sendHello_keeps
    | apply sendWord_keeps | apply putLink_keeps | apply keeps_stk)

theorem peerTimeout_keeps {r s : State} {a0} [May W .regs] [May W .now] [May W .tu] [May W .eth] [May W .stk]
    [May W .grn] [May W .tly] [May W .out] [May W .free] (h : Keeps W r s) : Keeps W r (peerTimeout s a0) := by
  unfold peerTimeout
  repeat (with_reducible first
    | assumption | apply peerLoss_keeps | apply clockTo_keeps)

end Sys2Proof.Machine
end

