-- ==== Sys2Proof/Laws/CtrlOpsKeep.lean ====
section
/-! SUPPORT. Each operation of Machine/CtrlOps.lean keeps what `Keeps` says. -/

set_option Elab.async false

namespace Sys2Proof.Machine

open Sys2Proof

variable {W : List Part}

/-- `Keeps` of the state that a record leaves. -/
def KeepsR (W : List Part) (r : State) (o : RecRes) : Prop := match o with
  | .ok s _ => Keeps W r s
  | .fail s _ => Keeps W r s
theorem keepsR_ok {r s : State} {x} (h : Keeps W r s) : KeepsR W r (.ok s x) := h
theorem keepsR_fail {r s : State} {x} (h : Keeps W r s) : KeepsR W r (.fail s x) := h
theorem keepsR_ite {r : State} {c : Prop} [Decidable c] {a b : RecRes} (h : KeepsR W r a) (k : KeepsR W r b) :
    KeepsR W r (if c then a else b) := by split <;> assumption

theorem ctrlEnd_keeps {r s : State} {a0 a1 a2 a3 a4} [May W .regs] [May W .hif] [May W .dom] [May W .out] (h
    : Keeps W r s) : Keeps W r (ctrlEnd s a0 a1 a2 a3 a4) := by
  unfold ctrlEnd
  repeat (with_reducible first
    | assumption | apply finishDesc_keeps)

theorem ctrlRecs_keeps {f : State → Bytes → RecRes} {r : State} {a0 a1 a2 : Nat} [May W .regs] [May W .hif]
    [May W .dom] [May W .out] (hf : ∀ s b, Keeps W r s → KeepsR W r (f s b)) (k : Nat) :
    ∀ {s : State} {d n}, Keeps W r s → Keeps1 W r (ctrlRecs f a0 a1 a2 k s d n) := by
  induction k with
  | zero => intro s d n h; exact h
  | succ k ih =>
    intro s d n h
    rw [ctrlRecs]
    have hb := hf s (slice d 0 a2) h
    generalize f s (slice d 0 a2) = q at hb
    cases q with
    | fail t st => exact hb
    | ok t back =>
      cases back with
      | none => exact ih hb
      | some x => exact ih (ringWrite_keeps hb)

theorem ctrlRun_keeps {r s : State} {a0 a1 a2 a3 a4 a5} [May W .regs] [May W .hif] [May W .dom] [May W .out]
    [May W .free] (h : Keeps W r s) (ha5 : ∀ x0 s x2, Keeps W r s → KeepsR W r (a5 x0 s x2)) :
    Keeps W r (ctrlRun s a0 a1 a2 a3 a4 a5) := by
  unfold ctrlRun
  split
  · exact h
  extract_lets arg n stride
  refine keeps_ite (ctrlEnd_keeps h) ?_
  split
  · exact ctrlEnd_keeps (keeps_ite (stkCount_keeps h) h)
  refine keeps_ite (ctrlEnd_keeps h) ?_
  split
  rename_i e
  have h1 := keeps_of2 e (descRead_keeps h)
  clear e
  refine keeps_ite h1 ?_
  split
  · split
    rename_i e
    have h2 := keeps_of1 e (ctrlRecs_keeps (fun _ _ => ha5 _ _ _) _ h1)
    clear e
    extract_lets t
    have h3 : Keeps W r t := keeps_ite (State.inc_keeps h2) h2
    clear_value t
    exact ctrlEnd_keeps (keeps_ite (stkCount_keeps h3) h3)
  · exact ctrlEnd_keeps h1
  · exact ctrlEnd_keeps h1

theorem ctrlPlain_keeps {r s : State} {a0 a1 a2} [May W .regs] [May W .hif] [May W .dom] [May W .out] (h : Keeps W r s)
    (ha2 : ∀ s, Keeps W r s → Keeps W r (a2 s)) :
    Keeps W r (ctrlPlain s a0 a1 a2) := by
  unfold ctrlPlain
  repeat (with_reducible first
    | assumption | intro _ | apply ctrlEnd_keeps | apply ha2 | split)

theorem recPut_keeps {r s : State} {a0 a1 a2 a3 a4} (h : Keeps W r s) (ha3 : ∀ s x1 x2, Keeps W r s
    → Keeps W r (a3 s x1 x2)) :
    KeepsR W r (recPut a0 a1 a2 a3 s a4) := by
  unfold recPut
  repeat (with_reducible first
    | assumption | apply keeps_ite | apply keepsR_ite | intro _ | apply keepsR_ok | apply keepsR_fail | apply ha3)

end Sys2Proof.Machine
end

