-- ==== Sys2Proof/Laws/CarVerbsKeep.lean ====
section
/-! SUPPORT. Each operation of Machine/CarVerbs.lean keeps what `Keeps` says. -/

set_option Elab.async false

namespace Sys2Proof.Machine

open Sys2Proof

variable {W : List Part}

theorem clearEvict_keeps {r s : State} {a0} [May W .regs] [May W .hbm] [May W .fil] [May W .car] (h : Keeps W r s)
    : Keeps W r (clearEvict s a0) := by
  unfold clearEvict
  repeat (with_reducible first
    | assumption | apply keeps_ite | apply carCount_keeps | apply connPut_keeps | split)

theorem sendHead_keeps {r s : State} {a0 a1 a2 a3} [May W .regs] [May W .hbm] [May W .hif] [May W .dom] [May W .fil]
    [May W .car] [May W .out] (h : Keeps W r s) (ha3 : ∀ s x1 x2 x3 x4, Keeps W r s → Keeps W r (a3 s x1 x2 x3 x4)) :
    Keeps W r (sendHead s a0 a1 a2 a3) := by
  unfold sendHead
  repeat (with_reducible first
    | (lift_lets
       intro x
       first
       | (have hx : Keeps W r x := (by
            unfold x
            repeat (with_reducible first
              | (lift_lets
                 intro y
                 first
                 | (have hy : Keeps W r y := (by
                      unfold y
                      repeat (with_reducible first
                        | assumption | intro _ | apply keeps_ite | apply endDesc_keeps | apply clearEvict_keeps
                        | apply connMod_keeps | apply wantContext_keeps | apply ha3 | split))
                    clear_value y)
                 | clear_value y)
              | assumption | intro _ | apply keeps_ite | apply endDesc_keeps | apply clearEvict_keeps
              | apply connMod_keeps | apply wantContext_keeps | apply ha3 | split))
          clear_value x)
       | clear_value x)
    | assumption | intro _ | apply keeps_ite | apply endDesc_keeps | apply clearEvict_keeps | apply connMod_keeps
    | apply wantContext_keeps | apply ha3 | split)

theorem startWork_keeps {r s : State} {a0 a1 a2 a3 a4 a5 a6 a7} [May W .dom] [May W .car] (h : Keeps W r s) :
    Keeps W r (startWork s a0 a1 a2 a3 a4 a5 a6 a7) := by
  unfold startWork
  repeat (with_reducible first
    | assumption | apply popDesc_keeps | apply putCar_keeps)

theorem doMsg_keeps {r s : State} {a0 a1 a2} [May W .regs] [May W .hbm] [May W .hif] [May W .dom] [May W .fil]
    [May W .win] [May W .grn] [May W .car] [May W .stg] [May W .out] [May W .free] (h : Keeps W r s)
    : Keeps W r (doMsg s a0 a1 a2) := by
  unfold doMsg
  repeat (with_reducible first
    | assumption | intro _ | apply keeps_ite | apply keeps2_ite | apply sendHead_keeps | apply descRead_keeps
    | apply startWork_keeps | apply pushMsg_keeps | apply connFail_keeps | apply ringSettle_keeps
    | refine keeps_of2 (by with_reducible assumption) ?_ | exact keeps_snd (by with_reducible assumption)
    | refine keeps_snd (descRead_keeps ?_) | split | apply keeps2_mk)

theorem doRead_keeps {r s : State} {a0} [May W .regs] [May W .hbm] [May W .hif] [May W .dom] [May W .fil] [May W .car]
    [May W .out] (h : Keeps W r s) : Keeps W r (doRead s a0) := by
  unfold doRead
  repeat (with_reducible first
    | assumption | intro _ | apply sendHead_keeps | apply startWork_keeps | apply ringSettle_keeps
    | apply pushMsg_keeps | split)

theorem doAtomic_keeps {r s : State} {a0} [May W .regs] [May W .hbm] [May W .hif] [May W .dom] [May W .fil]
    [May W .car] [May W .out] (h : Keeps W r s) : Keeps W r (doAtomic s a0) := by
  unfold doAtomic
  repeat (with_reducible first
    | assumption | intro _ | apply keeps_ite | apply sendHead_keeps | apply startWork_keeps | apply ringSettle_keeps
    | apply pushMsg_keeps | split)

theorem doRecv_keeps {r s : State} {a0} [May W .regs] [May W .hif] [May W .dom] [May W .out] (h : Keeps W r s)
    : Keeps W r (doRecv s a0) := by
  unfold doRecv
  repeat (with_reducible first
    | assumption | apply keeps_ite | apply finishDesc_keeps | apply popDesc_keeps | apply ringSettle_keeps
    | apply ringPut_keeps | split)

theorem dirWrite_keeps {r s : State} {a0} [May W .regs] [May W .hbm] [May W .fil] [May W .car] [May W .free] (h
    : Keeps W r s) : Keeps W r (dirWrite s a0) := by
  unfold dirWrite
  repeat (with_reducible first
    | assumption | apply State.freeBytes_keeps | apply State.hbmWrite_keeps | apply putCar_keeps
    | refine keeps_of2 (by with_reducible assumption) ?_ | exact keeps_snd (by with_reducible assumption)
    | refine keeps_snd (State.freeBytes_keeps ?_) | split | apply keeps2_mk)

theorem doAlloc_keeps {r s : State} {a0} [May W .regs] [May W .hbm] [May W .hif] [May W .dom] [May W .fil] [May W .car]
    [May W .out] [May W .free] (h : Keeps W r s) : Keeps W r (doAlloc s a0) := by
  unfold doAlloc
  repeat (with_reducible first
    | (lift_lets
       intro x
       first
       | (have hx : Keeps W r x := (by
            unfold x
            repeat (with_reducible first
              | assumption | intro _ | apply keeps_ite | apply keeps2_ite | apply keeps_foldl | apply keeps2_foldl
              | apply finishDesc_keeps | apply State.freeBits_keeps | apply connPut_keeps
              | refine keeps_of2 (by with_reducible assumption) ?_ | exact keeps_snd (by with_reducible assumption)
              | refine keeps_snd (State.freeBits_keeps ?_) | split | apply keeps2_mk))
          clear_value x)
       | (have hx : Keeps2 W r x := (by
            unfold x
            repeat (with_reducible first
              | assumption | intro _ | apply keeps_ite | apply keeps2_ite | apply keeps_foldl | apply keeps2_foldl
              | apply finishDesc_keeps | apply State.freeBits_keeps | apply connPut_keeps
              | refine keeps_of2 (by with_reducible assumption) ?_ | exact keeps_snd (by with_reducible assumption)
              | refine keeps_snd (State.freeBits_keeps ?_) | split | apply keeps2_mk))
          clear_value x)
       | clear_value x)
    | assumption | intro _ | apply keeps_ite | apply keeps2_ite | apply keeps_foldl | apply keeps2_foldl
    | apply finishDesc_keeps | apply State.freeBits_keeps | apply connPut_keeps
    | refine keeps_of2 (by with_reducible assumption) ?_ | exact keeps_snd (by with_reducible assumption)
    | refine keeps_snd (State.freeBits_keeps ?_) | split | apply keeps2_mk)

theorem sealOut_keeps {r s : State} {n c} [May W .regs] [May W .hbm] [May W .hif] [May W .fil] [May W .car]
    [May W .out] [May W .free] (h : Keeps W r s) : KeepsO W r (sealOut s n c) := by
  unfold sealOut
  dsimp only
  split
  · exact keepsO_none
  · exact keepsO_some (instWrite_keeps (dirWrite_keeps (putCar_keeps (keeps_snd (State.freeBytes_keeps h)))))

theorem homeOut_keeps {r s : State} {a0 a1} [May W .regs] [May W .hbm] [May W .fil] [May W .car] [May W .free] (h
    : Keeps W r s) : Keeps W r (homeOut s a0 a1) := by
  unfold homeOut
  repeat (with_reducible first
    | assumption | intro _ | apply keeps_ite | apply keeps2_ite | apply State.freeBytes_keeps | apply connMod_keeps
    | apply State.hbmWrite_keeps | refine keeps_of2 (by with_reducible assumption) ?_
    | exact keeps_snd (by with_reducible assumption) | refine keeps_snd (State.freeBytes_keeps ?_) | split
    | apply keeps2_mk)

theorem connOpen_keeps {r s : State} {n c} [May W .regs] [May W .hbm] [May W .hif] [May W .dom] [May W .fil]
    [May W .win] [May W .grn] [May W .car] [May W .stg] [May W .out] [May W .free] (h : Keeps W r s)
    : Keeps W r (connOpen s n c) := by
  unfold connOpen
  have h1 : Keeps W r (dirWrite (putCar s { s.car with epochs := SMap.ins s.car.epochs n c.epoch }) n) :=
    dirWrite_keeps (putCar_keeps h)
  generalize dirWrite _ _ = s1 at h1 ⊢
  extract_lets s1' s2 s3 s4
  have h2 : Keeps W r s2 := by
    unfold s2
    split
    · exact State.hbmWrite_keeps h1
    · exact h1
  clear_value s2
  have h3 : Keeps W r s3 := carCount_keeps (connPut_keeps h2)
  clear_value s3
  have h4 : Keeps W r s4 := by
    unfold s4
    refine keeps_ite ?_ (homeOut_keeps h3)
    exact keepsO_getD (connFail_keeps h3) (sealOut_keeps h3)
  clear_value s4
  exact sendCredit'_keeps h4

theorem connect_keeps {r s : State} {a0 a1 a2 a3 a4 a5} [May W .regs] [May W .hbm] [May W .hif] [May W .dom]
    [May W .fil] [May W .win] [May W .grn] [May W .car] [May W .stg] [May W .out] [May W .free] (h : Keeps W r s)
    : Keeps W r (connect s a0 a1 a2 a3 a4 a5) := by
  unfold connect
  extract_lets stop ring t enc
  have hs : ∀ st, Keeps W r (stop st) := fun _ => endDesc_keeps h
  clear_value stop
  refine keeps_ite (hs _) (keeps_ite (hs _) (keeps_ite (hs _) (keeps_ite (hs _) (keeps_ite (hs _) ?_))))
  split
  · exact hs _
  · exact endDesc_keeps (connOpen_keeps h)

theorem doConnect_keeps {r s : State} {a0 a1} [May W .regs] [May W .hbm] [May W .hif] [May W .dom] [May W .fil]
    [May W .win] [May W .grn] [May W .car] [May W .stg] [May W .out] [May W .free] (h : Keeps W r s)
    : Keeps W r (doConnect s a0 a1) := by
  unfold doConnect
  repeat (with_reducible first
    | assumption | intro _ | apply keeps_ite | apply keeps2_ite | apply sendHead_keeps | apply endDesc_keeps
    | apply descRead_keeps | apply connect_keeps | refine keeps_of2 (by with_reducible assumption) ?_
    | exact keeps_snd (by with_reducible assumption) | refine keeps_snd (descRead_keeps ?_) | split | apply keeps2_mk)

theorem connFree_keeps {r s : State} {a0} [May W .regs] [May W .hif] [May W .dom] [May W .car] [May W .out] (h
    : Keeps W r s) : Keeps W r (connFree s a0) := by
  unfold connFree
  repeat (with_reducible first
    | assumption | intro _ | apply keeps_ite | apply modWorks_keeps | apply putCar_keeps)

theorem connDestroyOp_keeps {r s : State} {a0} [May W .regs] [May W .hbm] [May W .hif] [May W .dom] [May W .fil]
    [May W .grn] [May W .car] [May W .stg] [May W .out] (h : Keeps W r s) : Keeps W r (connDestroyOp s a0) := by
  unfold connDestroyOp
  repeat (with_reducible first
    | assumption | intro _ | apply keeps_ite | apply sendHead_keeps | apply endDesc_keeps | apply ringSettle_keeps
    | apply connFree_keeps | apply startWork_keeps | apply closeConn_keeps | apply wantContext_keeps
    | apply clearEvict_keeps | apply drainCheck_keeps | apply connLost_keeps | apply connMod_keeps | split)

theorem doConnQuery_keeps {r s : State} {a0} [May W .regs] [May W .hbm] [May W .hif] [May W .dom] [May W .fil]
    [May W .car] [May W .out] (h : Keeps W r s) : Keeps W r (doConnQuery s a0) := by
  unfold doConnQuery
  repeat (with_reducible first
    | assumption | intro _ | apply keeps_ite | apply sendHead_keeps | apply wantContext_keeps
    | apply clearEvict_keeps | apply endDesc_keeps | apply ringWrite_keeps | split)

theorem regionDrop_keeps {r s : State} {a0} [May W .car] (h : Keeps W r s) : Keeps W r (regionDrop s a0) := by
  unfold regionDrop
  repeat (with_reducible first
    | assumption | apply putCar_keeps)

theorem doMrReg_keeps {r s : State} {a0} [May W .regs] [May W .hbm] [May W .hif] [May W .dom] [May W .fil] [May W .car]
    [May W .out] [May W .free] (h : Keeps W r s) : Keeps W r (doMrReg s a0) := by
  unfold doMrReg
  repeat (with_reducible first
    | assumption | intro _ | apply keeps_ite | apply keeps2_ite | apply finishDesc_keeps
    | apply State.freeBytes_keeps | apply State.hbmWrite_keeps | apply putCar_keeps
    | refine keeps_of2 (by with_reducible assumption) ?_ | exact keeps_snd (by with_reducible assumption)
    | refine keeps_snd (State.freeBytes_keeps ?_) | split | apply keeps2_mk)

theorem doMrDereg_keeps {r s : State} {a0} [May W .regs] [May W .hif] [May W .dom] [May W .car] [May W .out] (h
    : Keeps W r s) : Keeps W r (doMrDereg s a0) := by
  unfold doMrDereg
  repeat (with_reducible first
    | (lift_lets
       intro x
       first
       | (have hx : Keeps W r x := (by
            unfold x
            repeat (with_reducible first
              | assumption | apply keeps_ite | apply finishDesc_keeps | apply regionDrop_keeps | split))
          clear_value x)
       | clear_value x)
    | assumption | apply keeps_ite | apply finishDesc_keeps | apply regionDrop_keeps | split)

theorem evict_keeps {r s : State} {n c} [May W .regs] [May W .hbm] [May W .hif] [May W .dom] [May W .fil] [May W .win]
    [May W .grn] [May W .car] [May W .stg] [May W .out] [May W .free] (h : Keeps W r s) : Keeps W r (evict s n c) := by
  unfold evict
  extract_lets o go
  have hg : ∀ t, Keeps W r t → Keeps W r (go t) := by
    intro t ht
    unfold go
    exact carCount_keeps (connMod_keeps (keeps_ite ht (putCar_keeps ht)))
  clear_value go
  have hs : ∀ t, Keeps W r t → Keeps W r ((sealOut t n c).elim (connFail t n stNonceExhausted) go) := by
    intro t ht
    have k := sealOut_keeps (n := n) (c := c) ht
    cases e : sealOut t n c with
    | none => exact connFail_keeps ht
    | some u => exact hg u (k u e)
  refine keeps_ite ?_ (hg _ (homeOut_keeps h))
  split
  · rename_i e
    have k := keeps_of2 e (instReach_keeps h)
    exact keeps_ite k (hs _ h)
  · rename_i e
    exact hs _ (keeps_of2 e (instReach_keeps h))

theorem retractOne_keeps {r s : State} {a0 a1} [May W .regs] [May W .hbm] [May W .hif] [May W .dom] [May W .fil]
    [May W .win] [May W .grn] [May W .car] [May W .stg] [May W .out] (h : Keeps W r s) : Keeps W r (retractOne s a0 a1) := by
  unfold retractOne
  repeat (with_reducible first
    | assumption | intro _ | apply keeps_ite | apply connMod_keeps | apply carCount_keeps | apply sendCtl_keeps
    | split)

theorem makeRoom_keeps {r s : State} {q} [May W .regs] [May W .hbm] [May W .hif] [May W .dom] [May W .fil] [May W .win]
    [May W .grn] [May W .car] [May W .stg] [May W .out] [May W .free] (h : Keeps W r s) : Keeps W r (makeRoom s q) := by
  unfold makeRoom
  extract_lets t
  have ht : Keeps W r t := pumpFetches_keeps h
  clear_value t
  refine keeps_ite ht ?_
  split
  · cases connGet t _ with
    | none => exact ht
    | some c => exact evict_keeps ht
  · exact retractOne_keeps ht

theorem writebackDone_keeps {r s : State} {a0 a1} [May W .regs] [May W .hbm] [May W .hif] [May W .dom] [May W .fil]
    [May W .win] [May W .grn] [May W .car] [May W .stg] [May W .out] (h : Keeps W r s) : Keeps W r (writebackDone s a0 a1)
    := by
  unfold writebackDone
  repeat (with_reducible first
    | assumption | intro _ | apply keeps_ite | apply startClosing_keeps | apply connPut_keeps
    | apply wantContext_keeps | apply connMod_keeps | apply pumpFetches_keeps | apply connFail_keeps
    | apply dropLedger_keeps | apply carCount_keeps | split)

theorem fetchDone_keeps {r s : State} {n x} [May W .regs] [May W .now] [May W .hbm] [May W .hif] [May W .dom]
    [May W .fil] [May W .rev] [May W .tu] [May W .win] [May W .grn] [May W .car] [May W .stg] [May W .out] [May W .free]
    (h : Keeps W r s) : Keeps W r (fetchDone s n x) := by
  unfold fetchDone
  split
  · exact h
  refine keeps_ite h (keeps_ite (startClosing_keeps (connPut_keeps h)) ?_)
  split
  rename_i e
  have h1 := keeps_of2 e (keeps2_ite (instFetch_keeps h) (keeps2_mk h))
  clear e
  refine keeps_ite h1 ?_
  extract_lets bad good c1 t
  clear_value bad good
  refine keeps_ite ?_ ?_
  · split
    rename_i e
    exact pumpFetches_keeps (putWin_keeps (keeps_of1 e (unpark_keeps (dropLedger_keeps (payOwed_keeps (connPut_keeps h1))))))
  · have ht : Keeps W r t := by
      unfold t
      split
      · exact hbmFail_keeps h1
      · exact h1
    clear_value t
    exact pumpFetches_keeps (dropParked_keeps (dropLedger_keeps (connError_keeps (carCount_keeps (connPut_keeps ht)))))

theorem evictExpire_keeps {r s : State} {a0} [May W .regs] [May W .now] [May W .hbm] [May W .hif] [May W .dom]
    [May W .fil] [May W .tu] [May W .win] [May W .grn] [May W .car] [May W .stg] [May W .out] [May W .free] (h
    : Keeps W r s) : Keeps W r (evictExpire s a0) := by
  unfold evictExpire
  repeat (with_reducible first
    | assumption | intro _ | apply keeps_ite | apply clearEvict_keeps | apply clockTo_keeps | apply retractOne_keeps
    | split)

theorem closingDone_keeps {r s : State} {a0} [May W .regs] [May W .hif] [May W .dom] [May W .car] [May W .out] (h
    : Keeps W r s) : Keeps W r (closingDone s a0) := by
  unfold closingDone
  repeat (with_reducible first
    | assumption | apply keeps_ite | apply connFree_keeps | split)

theorem carCloseInst_keeps {r s : State} {a0} [May W .regs] [May W .hbm] [May W .hif] [May W .dom] [May W .fil]
    [May W .grn] [May W .car] [May W .stg] [May W .out] (h : Keeps W r s) : Keeps W r (carCloseInst s a0) := by
  unfold carCloseInst
  repeat (with_reducible first
    | assumption | intro _ | apply keeps_foldl | apply connFree_keeps | apply closeConn_keeps
    | apply regionDrop_keeps | split)

theorem carRefuse_keeps {r s : State} {a0 a1} [May W .regs] (h : Keeps W r s) : Keeps W r (carRefuse s a0 a1) := by
  unfold carRefuse
  repeat (with_reducible first
    | assumption | apply State.wr_keeps)

theorem carEnable_keeps {r s : State} {a0} [May W .regs] (h : Keeps W r s) : Keeps W r (carEnable s a0) := by
  unfold carEnable
  repeat (with_reducible first
    | assumption | intro _ | apply keeps_ite | apply carRefuse_keeps | apply State.wr_keeps | split)

theorem pathWrite_keeps {r s : State} {a0 a1} [May W .regs] [May W .hif] [May W .dom] [May W .car] [May W .out]
    [May W .free] (h : Keeps W r s) : Keeps W r (pathWrite s a0 a1) := by
  unfold pathWrite
  repeat (with_reducible first
    | assumption | intro _ | apply ctrlRun_keeps | apply recPut_keeps | apply putCar_keeps)

theorem stgRequest_keeps {r s : State} {a0 a1 a2 a3 a4 a5 a6} [May W .regs] [May W .hbm] [May W .fil] [May W .car] (h
    : Keeps W r s) :
    Keeps2 W r (stgRequest s a0 a1 a2 a3 a4 a5 a6) := by
  unfold stgRequest
  repeat (with_reducible first
    | assumption | apply keeps_ite | apply keeps2_ite | apply clearEvict_keeps | apply wantContext_keeps
    | apply putCar_keeps | apply pushMsg_keeps | refine keeps_of2 (by with_reducible assumption) ?_
    | exact keeps_snd (by with_reducible assumption) | split | apply keeps2_mk)

end Sys2Proof.Machine
end

