-- ==== Sys2Proof/Laws/EgressOpsKeep.lean ====
section
/-! SUPPORT. Each operation of Machine/EgressOps.lean keeps what `Keeps` says. -/

set_option Elab.async false

namespace Sys2Proof.Machine

open Sys2Proof

variable {W : List Part}

theorem egressSelect_keeps {r s : State} {a0} [May W .tly] (h : Keeps W r s) : Keeps W r (egressSelect s a0) := by
  unfold egressSelect
  repeat (with_reducible first
    | assumption | apply keeps_ite | split | apply keeps_tly)

theorem displace_keeps {r s : State} {a0} [May W .regs] [May W .tly] (h : Keeps W r s) : Keeps W r (displace s a0) := by
  unfold displace
  repeat (with_reducible first
    | assumption | apply keeps_ite | apply State.inc_keeps | apply egressSelect_keeps | split | apply keeps_tly)

theorem newHeads_keeps {r s : State} {a0 a1} [May W .tly] (h : Keeps W r s) : Keeps W r (newHeads s a0 a1) := by
  unfold newHeads
  repeat (with_reducible first
    | assumption | intro _ | apply keeps_ite | apply keeps_foldl | apply onNewHead_keeps)

theorem egressMirror_keeps {r s : State} {a0 a1 a2 a3} [May W .regs] [May W .grn] [May W .tly] [May W .out] [May W .free]
    (h : Keeps W r s) : Keeps W r (egressMirror s a0 a1 a2 a3) := by
  unfold egressMirror
  repeat (with_reducible first
    | assumption | apply keeps_ite | apply makeCopy_keeps)

theorem takeTx_keeps {r s : State} {a0 a1 a2 a3} [May W .regs] [May W .eth] [May W .out] (h : Keeps W r s)
    : Keeps W r (takeTx s a0 a1 a2 a3) := by
  unfold takeTx
  repeat (with_reducible first
    | assumption | apply setTx_keeps | apply cutTx_keeps | refine keeps_of1 (by with_reducible assumption) ?_
    | exact keeps_fst (by with_reducible assumption) | refine keeps_fst (cutTx_keeps ?_) | split | apply keeps1_mk)

theorem carterStamp_keeps {r s : State} {a0 a1 a2 a3} [May W .free] (h : Keeps W r s)
    : Keeps1 W r (carterStamp s a0 a1 a2 a3) := by
  unfold carterStamp
  repeat (with_reducible first
    | assumption | apply keeps_ite | apply keeps1_ite | apply keeps2_ite | apply txStamp_keeps
    | refine keeps_of1 (by with_reducible assumption) ?_ | exact keeps_fst (by with_reducible assumption)
    | refine keeps_of2 (by with_reducible assumption) ?_ | exact keeps_snd (by with_reducible assumption)
    | refine keeps_snd (txStamp_keeps ?_) | split | apply keeps1_mk | apply keeps2_mk)

theorem ethTransmit_keeps {r s : State} {e q ex f x ed u} [May W .regs] [May W .fil] [May W .eth] [May W .grn]
    [May W .tly] [May W .out] [May W .free] (h : Keeps W r s) : Keeps W r (ethTransmit s e q ex f x ed u) := by
  unfold ethTransmit
  extract_lets c data long t
  have ht : Keeps W r t := keeps_ite (winCount_keeps h) h
  clear_value t
  split
  split
  · rename_i e
    exact keeps_of1 e (ptpEgress_keeps ht)
  rename_i e
  have h1 := keeps_of1 e (ptpEgress_keeps ht)
  clear e
  split
  rename_i e
  have h2 := keeps_of1 e (carterStamp_keeps h1)
  clear e
  extract_lets d t1 t2 t3 t4 t5 t6
  have k1 : Keeps W r t1 := keeps_ite (ethCount_keeps h2) h2
  clear_value t1
  have k2 : Keeps W r t2 := keeps_ite (State.inc_keeps (ethCount_keeps k1)) k1
  clear_value t2
  have k3 : Keeps W r t3 := by
    unfold t3
    split
    · exact State.inc_keeps k2
    · exact k2
  clear_value t3
  have k4 : Keeps W r t4 := keeps_ite (State.inc_keeps k3) k3
  clear_value t4
  exact egressMirror_keeps (ethCount_keeps (ethCount_keeps (State.emit_keeps (takeTx_keeps k4))))

theorem sahrovTransmit_keeps {r s : State} {a0 a1 a2 a3 a4} [May W .regs] [May W .fil] [May W .stk] [May W .grn]
    [May W .tly] [May W .out] [May W .free] (h : Keeps W r s) :
    Keeps W r (sahrovTransmit s a0 a1 a2 a3 a4) := by
  unfold sahrovTransmit
  repeat (with_reducible first
    | assumption | apply ptpEgress_keeps | apply carterStamp_keeps | apply linkQueue_keeps | apply ethCount_keeps
    | apply egressMirror_keeps | refine keeps_of1 (by with_reducible assumption) ?_
    | exact keeps_fst (by with_reducible assumption) | refine keeps_fst (ptpEgress_keeps ?_)
    | refine keeps_fst (carterStamp_keeps ?_) | split | apply keeps1_mk)

theorem hostTransmit_keeps {r s : State} {a0 a1 a2 a3 a4} [May W .regs] [May W .grn] [May W .tly] [May W .out]
    [May W .free] (h : Keeps W r s) :
    Keeps W r (hostTransmit s a0 a1 a2 a3 a4) := by
  unfold hostTransmit
  repeat (with_reducible first
    | assumption | apply egressMirror_keeps | apply keeps_grn)

theorem dropAtEgress_keeps {r s : State} {a0 a1 a2 a3 a4} [May W .regs] [May W .grn] [May W .tly] [May W .out] (h
    : Keeps W r s) :
    Keeps W r (dropAtEgress s a0 a1 a2 a3 a4) := by
  unfold dropAtEgress
  repeat (with_reducible first
    | assumption | intro _ | apply keeps_ite | apply keeps_foldl | apply State.add_keeps | apply winCount_keeps
    | apply releaseEnt_keeps | apply setQueue_keeps | apply retag_keeps | apply keeps_tly)

theorem startFrame_keeps {r s : State} {a0 a1 a2 a3 a4} [May W .regs] [May W .grn] [May W .tly] [May W .out] (h
    : Keeps W r s) : Keeps W r (startFrame s a0 a1 a2 a3 a4) := by
  unfold startFrame
  repeat (with_reducible first
    | assumption | apply State.add_keeps | apply State.inc_keeps | apply charge_keeps | apply onStart_keeps
    | apply releaseEnt_keeps | apply setQueue_keeps | apply newHeads_keeps | apply keeps_tly)

theorem transmitStart_keeps {r s : State} {a0 a1} [May W .regs] [May W .fil] [May W .eth] [May W .stk] [May W .grn]
    [May W .tly] [May W .out] [May W .free] (h : Keeps W r s) : Keeps W r (transmitStart s a0 a1) := by
  unfold transmitStart
  repeat (with_reducible first
    | assumption | apply keeps_ite | apply txSettle_keeps | apply dropAtEgress_keeps | apply startFrame_keeps
    | apply hostTransmit_keeps | apply sahrovTransmit_keeps | apply ethTransmit_keeps | split | apply keeps_tly)

theorem pfcRefresh_keeps {r s : State} {a0 a1} [May W .regs] [May W .out] (h : Keeps W r s)
    : Keeps W r (pfcRefresh s a0 a1) := by
  unfold pfcRefresh
  repeat (with_reducible first
    | assumption | apply keeps_ite | apply sendPfc_keeps)

theorem pauseArrive_keeps {r s : State} {a0 a1 a2 a3} [May W .regs] (h : Keeps W r s)
    : Keeps W r (pauseArrive s a0 a1 a2 a3) := by
  unfold pauseArrive
  repeat (with_reducible first
    | assumption | apply keeps_ite | apply ethCount_keeps | apply State.wr_keeps | split)

theorem pauseEnd_keeps {r s : State} {a0 a1} [May W .regs] (h : Keeps W r s) : Keeps W r (pauseEnd s a0 a1) := by
  unfold pauseEnd
  repeat (with_reducible first
    | assumption | apply keeps_ite | apply State.wr_keeps)

theorem gateEvent_keeps {r s : State} {a0 a1} [May W .regs] [May W .eth] [May W .out] (h : Keeps W r s)
    : Keeps W r (gateEvent s a0 a1) := by
  unfold gateEvent
  repeat (with_reducible first
    | assumption | apply keeps_ite | apply gateTx_keeps | apply gateApply_keeps | split)

theorem gateChange_keeps {r s : State} {a0} [May W .regs] [May W .tly] (h : Keeps W r s) : Keeps W r (gateChange s a0) := by
  unfold gateChange
  repeat (with_reducible first
    | assumption | apply keeps_ite | apply State.inc_keeps | apply State.wr_keeps | split | apply keeps_tly)

theorem gateTakeOver_keeps {r s : State} {a0} [May W .regs] [May W .eth] [May W .tly] [May W .out] (h : Keeps W r s)
    : Keeps W r (gateTakeOver s a0) := by
  unfold gateTakeOver
  repeat (with_reducible first
    | assumption | apply keeps_ite | apply State.wr_keeps | apply State.inc_keeps | apply gateTx_keeps
    | apply gateApply_keeps | split | apply keeps_tly)

theorem gateDisable_keeps {r s : State} {a0} [May W .regs] [May W .eth] [May W .tly] [May W .out] (h : Keeps W r s)
    : Keeps W r (gateDisable s a0) := by
  unfold gateDisable
  repeat (with_reducible first
    | assumption | apply State.wr_keeps | apply gateTx_keeps | apply keeps_tly)

theorem poisonLines_keeps {r s : State} {a0 a1} [May W .fil] (h : Keeps W r s) : Keeps W r (poisonLines s a0 a1) := by
  unfold poisonLines
  repeat (with_reducible first
    | assumption | intro _ | apply keeps_foldl | refine keeps_fil ?_ rfl rfl)

theorem cleanLines_keeps {r s : State} {a0} [May W .fil] (h : Keeps W r s) : Keeps W r (cleanLines s a0) := by
  unfold cleanLines
  repeat (with_reducible first
    | assumption | intro _ | refine keeps_fil ?_ rfl rfl)

theorem deliverInto_keeps {r s : State} {a0 a1} [May W .regs] [May W .hbm] [May W .fil] [May W .grn] [May W .out] (h
    : Keeps W r s) : Keeps W r (deliverInto s a0 a1) := by
  unfold deliverInto
  dsimp only
  have ht := dropRef_keeps (a0 := a0.fid) (poisonLines_keeps (a0 := a1) (a1 := (gframe s a0.fid).bad) (State.hbmWrite_keeps
    (a := bufAddr s a1) (bs := slice (if 2 ≤ a0.kind && a0.kind ≤ 5 then [] else a0.res.key.take 64) 0 64 ++ slice a0.hdr 0 64
      ++ (gframe s a0.fid).pkt.data) (cleanLines_keeps (a0 := a1) h)))
  have hp := hwPost_keeps (a0 := a0.chan) (a1 := 1)
    (a2 := delivMsg (gframe s a0.fid) a0 a1 (gframe s a0.fid).pkt.data.length) ht
  split <;> rename_i e
  · exact takeBuf_keeps (keeps_of1 e hp)
  · exact keeps_of1 e hp

theorem filbertDeliver_keeps {r s : State} [May W .regs] [May W .hbm] [May W .fil] [May W .grn] [May W .out] (h
    : Keeps W r s) : Keeps W r (filbertDeliver s) := by
  unfold filbertDeliver
  repeat (with_reducible first
    | assumption | apply State.inc_keeps | apply dropRef_keeps | apply deliverInto_keeps | split | apply keeps_grn)

end Sys2Proof.Machine
end

