-- ==== Sys2Proof/Laws/StgOpsKeep.lean ====
section
/-! SUPPORT. Each operation of Machine/StgOps.lean keeps what `Keeps` says. -/

set_option Elab.async false

namespace Sys2Proof.Machine

open Sys2Proof

variable {W : List Part}

theorem rpPut_keeps {r s : State} {a0 a1} [May W .stg] (h : Keeps W r s) : Keeps W r (rpPut s a0 a1) := by
  unfold rpPut
  repeat (with_reducible first
    | assumption | apply putStg_keeps | apply State.reset_keeps)

theorem rpMod_keeps {r s : State} {a0 a1} [May W .stg] (h : Keeps W r s) : Keeps W r (rpMod s a0 a1) := by
  unfold rpMod
  repeat (with_reducible first
    | assumption | apply rpPut_keeps)

theorem rpCount_keeps {r s : State} {a0 a1} [May W .regs] (h : Keeps W r s) : Keeps W r (rpCount s a0 a1) := by
  unfold rpCount
  repeat (with_reducible first
    | assumption | apply State.inc_keeps)

theorem rpCfgPut_keeps {r s : State} {a0 a1 a2} [May W .stg] (h : Keeps W r s) : Keeps W r (rpCfgPut s a0 a1 a2) := by
  unfold rpCfgPut
  repeat (with_reducible first
    | assumption | intro _ | apply rpMod_keeps)

theorem rpCfgBit_keeps {r s : State} {a0 a1 a2 a3} [May W .stg] (h : Keeps W r s) : Keeps W r (rpCfgBit s a0 a1 a2 a3) := by
  unfold rpCfgBit
  repeat (with_reducible first
    | assumption | apply rpCfgPut_keeps)

theorem ledShow_keeps {r s : State} {a0 a1} [May W .out] (h : Keeps W r s) : Keeps W r (ledShow s a0 a1) := by
  unfold ledShow
  repeat (with_reducible first
    | assumption | apply State.emit_keeps | split)

theorem attnLed_keeps {r s : State} {a0 a1} [May W .stg] [May W .out] (h : Keeps W r s) : Keeps W r (attnLed s a0 a1) := by
  unfold attnLed
  repeat (with_reducible first
    | assumption | apply ledShow_keeps | apply rpCfgPut_keeps)

theorem pwrLed_keeps {r s : State} {a0 a1} [May W .stg] [May W .out] (h : Keeps W r s) : Keeps W r (pwrLed s a0 a1) := by
  unfold pwrLed
  repeat (with_reducible first
    | assumption | apply ledShow_keeps | apply rpCfgPut_keeps)

theorem rpEvt_keeps {r s : State} {a0 a1} [May W .regs] [May W .hif] [May W .fil] [May W .out] (h : Keeps W r s)
    : Keeps W r (rpEvt s a0 a1) := by
  unfold rpEvt
  repeat (with_reducible first
    | assumption | apply keeps_ite | apply keeps1_ite | apply State.wr_keeps | apply fireOwner_keeps
    | apply hwPost_keeps | refine keeps_of1 (by with_reducible assumption) ?_
    | exact keeps_fst (by with_reducible assumption) | refine keeps_fst (hwPost_keeps ?_) | apply keeps1_mk)

theorem rpGo_keeps {r s : State} {a0 a1} [May W .regs] [May W .hif] [May W .fil] [May W .stg] [May W .out] (h
    : Keeps W r s) : Keeps W r (rpGo s a0 a1) := by
  unfold rpGo
  repeat (with_reducible first
    | assumption | intro _ | apply rpEvt_keeps | apply rpMod_keeps | apply State.wr_keeps)

theorem rpLapse_keeps {r s : State} {a0 a1} [May W .regs] [May W .now] [May W .tu] [May W .out] [May W .free] (h
    : Keeps W r s) : Keeps W r (rpLapse s a0 a1) := by
  unfold rpLapse
  repeat (with_reducible first
    | assumption | apply clockTo_keeps)

theorem rpPwr_keeps {r s : State} {a0 a1} [May W .stg] [May W .out] (h : Keeps W r s) : Keeps W r (rpPwr s a0 a1) := by
  unfold rpPwr
  repeat (with_reducible first
    | assumption | intro _ | apply keeps_ite | apply State.emit_keeps | apply rpMod_keeps)

theorem rpPerst_keeps {r s : State} {a0 a1} [May W .stg] [May W .out] (h : Keeps W r s) : Keeps W r (rpPerst s a0 a1) := by
  unfold rpPerst
  repeat (with_reducible first
    | assumption | intro _ | apply keeps_ite | apply State.emit_keeps | apply rpMod_keeps)

theorem rpClk_keeps {r s : State} {a0 a1} [May W .stg] [May W .out] (h : Keeps W r s) : Keeps W r (rpClk s a0 a1) := by
  unfold rpClk
  repeat (with_reducible first
    | assumption | intro _ | apply keeps_ite | apply State.emit_keeps | apply rpMod_keeps | split)

theorem rpLinkDown_keeps {r s : State} {a0 a1} [May W .regs] [May W .hif] [May W .fil] [May W .stg] [May W .out] (h
    : Keeps W r s) : Keeps W r (rpLinkDown s a0 a1) := by
  unfold rpLinkDown
  repeat (with_reducible first
    | assumption | apply keeps_ite | apply State.wr_keeps | apply rpEvt_keeps | apply rpCfgBit_keeps)

theorem modLegs_keeps {r s : State} {a0} [May W .stg] (h : Keeps W r s) : Keeps W r (modLegs s a0) := by
  unfold modLegs
  repeat (with_reducible first
    | assumption | intro _ | apply putStg_keeps)

theorem endDrive_keeps {r s : State} {a0} [May W .stg] (h : Keeps W r s) : Keeps W r (endDrive s a0) := by
  unfold endDrive
  repeat (with_reducible first
    | assumption | intro _ | apply keeps_ite | apply rpMod_keeps | apply modLegs_keeps)

theorem issueDrive_keeps {r s : State} {a0 a1} [May W .regs] [May W .stg] [May W .out] (h : Keeps W r s)
    : Keeps2 W r (issueDrive s a0 a1) := by
  unfold issueDrive
  repeat (with_reducible first
    | assumption | apply keeps_ite | apply keeps2_ite | apply rpCount_keeps | apply rpPut_keeps
    | apply State.emit_keeps | refine keeps_of2 (by with_reducible assumption) ?_
    | exact keeps_snd (by with_reducible assumption) | apply keeps2_mk)

theorem pumpPort_keeps {r : State} [May W .regs] [May W .stg] [May W .out] (k : Nat) : ∀ {s : State} {a0}, Keeps W r s
    → Keeps W r (pumpPort s a0 k) := by
  induction k with
  | zero =>
    intro s a0 h
    rw [pumpPort]
    repeat (with_reducible first
      | assumption | intro _ | apply keeps_ite | apply keeps2_ite | apply issueDrive_keeps | apply putStg_keeps
      | refine keeps_of2 (by with_reducible assumption) ?_ | exact keeps_snd (by with_reducible assumption)
      | refine keeps_snd (issueDrive_keeps ?_) | split | apply keeps2_mk)
  | succ n ih =>
    intro s a0 h
    rw [pumpPort]
    repeat (with_reducible first
      | assumption | intro _ | apply keeps_ite | apply keeps2_ite | apply issueDrive_keeps | apply putStg_keeps
      | apply ih | refine keeps_of2 (by with_reducible assumption) ?_
      | exact keeps_snd (by with_reducible assumption) | refine keeps_snd (issueDrive_keeps ?_) | split
      | apply keeps2_mk)

theorem rpOff_keeps {r s : State} {a0} [May W .regs] [May W .hif] [May W .fil] [May W .stg] [May W .out] (h : Keeps W r s)
    : Keeps W r (rpOff s a0) := by
  unfold rpOff
  repeat (with_reducible first
    | assumption | intro _ | apply keeps_ite | apply rpClk_keeps | apply rpPwr_keeps | apply rpPerst_keeps
    | apply rpMod_keeps | apply rpCfgBit_keeps | apply State.wr_keeps | apply rpLinkDown_keeps | apply pwrLed_keeps
    | apply attnLed_keeps | apply rpGo_keeps)

theorem rpLeave_keeps {r s : State} {a0} [May W .regs] [May W .hif] [May W .stg] [May W .out] (h : Keeps W r s)
    : Keeps W r (rpLeave s a0) := by
  unfold rpLeave
  repeat (with_reducible first
    | assumption | apply endDrive_keeps | apply portLost_keeps)

theorem retirePort_keeps {r s : State} {a0} [May W .regs] [May W .hif] [May W .fil] [May W .stg] [May W .out] (h
    : Keeps W r s) : Keeps W r (retirePort s a0) := by
  unfold retirePort
  repeat (with_reducible first
    | assumption | intro _ | apply keeps_ite | apply rpClk_keeps | apply rpPwr_keeps | apply rpPerst_keeps
    | apply rpMod_keeps | apply State.wr_keeps | apply rpLinkDown_keeps | apply rpLeave_keeps | apply rpGo_keeps
    | apply pwrLed_keeps)

theorem portFail_keeps {r s : State} {a0} [May W .regs] [May W .hif] [May W .fil] [May W .rev] [May W .stg] [May W .out]
    (h : Keeps W r s) : Keeps W r (portFail s a0) := by
  unfold portFail
  repeat (with_reducible first
    | assumption | apply countFailure_keeps | apply retirePort_keeps
    | refine keeps_of1 (by with_reducible assumption) ?_ | exact keeps_fst (by with_reducible assumption)
    | refine keeps_fst (countFailure_keeps ?_) | split | apply keeps1_mk)

theorem rpFault_keeps {r s : State} {a0} [May W .regs] [May W .hif] [May W .fil] [May W .rev] [May W .stg] [May W .out] (h
    : Keeps W r s) : Keeps W r (rpFault s a0) := by
  unfold rpFault
  repeat (with_reducible first
    | assumption | intro _ | apply rpLinkDown_keeps | apply rpClk_keeps | apply rpPwr_keeps | apply rpMod_keeps
    | apply portFail_keeps | apply rpLeave_keeps | apply rpGo_keeps)

theorem rpPowerOn_keeps {r s : State} {a0} [May W .regs] [May W .hif] [May W .fil] [May W .stg] [May W .out] (h
    : Keeps W r s) : Keeps W r (rpPowerOn s a0) := by
  unfold rpPowerOn
  repeat (with_reducible first
    | assumption | apply keeps_ite | apply rpGo_keeps | apply pwrLed_keeps | apply rpClk_keeps | apply rpPwr_keeps
    | apply rpCfgBit_keeps)

theorem rpSurpriseEnd_keeps {r s : State} {a0} [May W .regs] [May W .hif] [May W .fil] [May W .stg] [May W .out] (h
    : Keeps W r s) : Keeps W r (rpSurpriseEnd s a0) := by
  unfold rpSurpriseEnd
  repeat (with_reducible first
    | assumption | apply keeps_ite | apply rpGo_keeps | apply rpClk_keeps | apply rpCount_keeps | apply rpOff_keeps)

theorem rpSurprise_keeps {r s : State} {a0} [May W .regs] [May W .hif] [May W .fil] [May W .stg] [May W .out] (h
    : Keeps W r s) : Keeps W r (rpSurprise s a0) := by
  unfold rpSurprise
  repeat (with_reducible first
    | assumption | intro _ | apply keeps_ite | apply rpMod_keeps | apply rpLinkDown_keeps | apply rpClk_keeps
    | apply rpSurpriseEnd_keeps | apply rpLeave_keeps | apply rpGo_keeps)

theorem rpDpc_keeps {r s : State} {a0 a1} [May W .regs] [May W .hif] [May W .fil] [May W .stg] [May W .out] (h
    : Keeps W r s) : Keeps W r (rpDpc s a0 a1) := by
  unfold rpDpc
  repeat (with_reducible first
    | assumption | apply keeps_ite | apply rpCount_keeps | apply State.wr_keeps | apply rpCfgPut_keeps
    | apply rpEvt_keeps | apply endDrive_keeps | apply rpLinkDown_keeps | apply rpSurprise_keeps)

theorem rpShutdown_keeps {r s : State} {a0} [May W .stg] [May W .out] (h : Keeps W r s) : Keeps W r (rpShutdown s a0) := by
  unfold rpShutdown
  repeat (with_reducible first
    | assumption | intro _ | apply keeps_ite | apply State.emit_keeps | apply rpMod_keeps)

theorem rpQuiesce_keeps {r s : State} {a0} [May W .regs] [May W .hif] [May W .fil] [May W .stg] [May W .out] (h
    : Keeps W r s) : Keeps W r (rpQuiesce s a0) := by
  unfold rpQuiesce
  repeat (with_reducible first
    | assumption | intro _ | apply keeps_ite | apply pwrLed_keeps | apply rpMod_keeps | apply rpShutdown_keeps
    | apply modLegs_keeps | apply portLost_keeps | apply rpGo_keeps)

theorem rpPcc_keeps {r s : State} {a0 a1} [May W .regs] [May W .hif] [May W .fil] [May W .stg] [May W .out] (h
    : Keeps W r s) : Keeps W r (rpPcc s a0 a1) := by
  unfold rpPcc
  repeat (with_reducible first
    | assumption | apply keeps_ite | apply rpQuiesce_keeps | apply rpOff_keeps | apply rpPowerOn_keeps)

theorem rpCfgWrite_keeps {r s : State} {a0 a1 a2} [May W .regs] [May W .hif] [May W .fil] [May W .stg] [May W .out] (h
    : Keeps W r s) : Keeps W r (rpCfgWrite s a0 a1 a2) := by
  unfold rpCfgWrite
  repeat (with_reducible first
    | assumption | apply keeps_ite | apply rpCfgPut_keeps | apply rpPcc_keeps | apply ledShow_keeps)

theorem rpAer_keeps {r s : State} {a0 a1 a2} [May W .regs] [May W .stg] (h : Keeps W r s) : Keeps W r (rpAer s a0 a1 a2) := by
  unfold rpAer
  repeat (with_reducible first
    | assumption | apply keeps_ite | apply rpCfgBit_keeps | apply rpCount_keeps)

end Sys2Proof.Machine
end

