-- ==== Sys2Proof/Laws/StgCmdsKeep.lean ====
section
/-! SUPPORT. Each operation of Machine/StgCmds.lean keeps what `Keeps` says. -/

set_option Elab.async false

namespace Sys2Proof.Machine

open Sys2Proof

variable {W : List Part}

theorem scatter_keeps {r : State} [May W .regs] [May W .hif] [May W .out] (k : List (Nat × Nat)) : ∀ {s : State}
    {a0 a1 a2 a3}, Keeps W r s → Keeps W r (scatter s a0 k a1 a2 a3) := by
  induction k with
  | nil =>
    intro s a0 a1 a2 a3 h
    rw [scatter]
    repeat (with_reducible first
      | assumption | apply keeps_ite | apply ctlWrite_keeps | split)
  | cons x l ih =>
    intro s a0 a1 a2 a3 h
    rw [scatter]
    repeat (with_reducible first
      | assumption | apply keeps_ite | apply ctlWrite_keeps | apply ih | split)

theorem stageWrite_keeps {r s : State} {a0 a1} [May W .regs] [May W .hbm] [May W .fil] (h : Keeps W r s)
    : Keeps W r (stageWrite s a0 a1) := by
  unfold stageWrite
  repeat (with_reducible first
    | assumption | intro _ | apply State.hbmWrite_keeps | refine keeps_fil ?_ rfl rfl)

theorem xtsStep_keeps {r : State} {d e b sl hp u m} {x : CryptRes} [May W .regs] [May W .hbm] [May W .fil] (h
    : Keeps W r x.s) : Keeps W r (xtsStep d e b sl hp u m x).s := by
  unfold xtsStep
  have h1 := huskRun_keeps (a0 := if d then 6 else 5) (a1 := nsSlot e) (a2 := nsDom e) (a3 := nsLbaLog e)
    (a4 := leBytes 16 (nsTweak e + sl + u)) (a5 := []) (a6 := x.s.hbmRead (b + u * nsLba e) (m * nsLba e)) (a7 := [])
    (stgCount_keeps (a0 := 4) h)
  dsimp only
  generalize huskRun _ _ _ _ _ _ _ _ _ = q at h1 ⊢
  obtain ⟨_ | ⟨out, _, _⟩, t⟩ := q
  · exact stgCount_keeps h1
  · exact keeps_ite (hskCount_keeps (stgCount_keeps (State.hbmWrite_keeps h1))) (State.hbmWrite_keeps h1)

theorem keepsC_foldl {α : Type} {r : State} {l : List α} {x : CryptRes} {f : CryptRes → α → CryptRes} (h : Keeps W r x.s)
    (hf : ∀ x a, Keeps W r x.s → Keeps W r (f x a).s) : Keeps W r (l.foldl f x).s := by
  induction l generalizing x with
  | nil => exact h
  | cons a l ih => exact ih (hf _ _ h)

theorem keepsC_ite {r : State} {c : Prop} [Decidable c] {x y : CryptRes} (h : Keeps W r x.s) (k : Keeps W r y.s) :
    Keeps W r (if c then x else y).s := by split <;> assumption

theorem xtsRun_keeps {r : State} {d e b sl hp} [May W .regs] [May W .hbm] [May W .fil] (k : Nat) : ∀ {u n : Nat} {x
    : CryptRes}, Keeps W r x.s → Keeps W r (xtsRun d e b sl hp k u n x).s := by
  induction k with
  | zero => intro u n x h; exact h
  | succ k ih =>
    intro u n x h
    rw [xtsRun]
    exact keepsC_ite h (ih (xtsStep_keeps h))

theorem issueLeg_keeps {r s : State} {a0 a1} [May W .regs] [May W .hbm] [May W .fil] [May W .car] [May W .stg]
    [May W .out] (h : Keeps W r s) : Keeps2 W r (issueLeg s a0 a1) := by
  unfold issueLeg
  repeat (with_reducible first
    | assumption | intro _ | apply keeps_ite | apply keeps2_ite | apply issueDrive_keeps | apply putStg_keeps
    | apply stgRequest_keeps | refine keeps_of2 (by with_reducible assumption) ?_
    | exact keeps_snd (by with_reducible assumption) | refine keeps_snd (issueDrive_keeps ?_)
    | refine keeps_snd (stgRequest_keeps ?_) | split | apply keeps2_mk)

theorem issueAll_keeps {r s : State} {a0 a1} [May W .regs] [May W .hbm] [May W .fil] [May W .car] [May W .stg]
    [May W .out] (h : Keeps W r s) : Keeps2 W r (issueAll s a0 a1) := by
  unfold issueAll
  repeat (with_reducible first
    | assumption | intro _ | apply keeps_foldl | apply keeps2_foldl | apply issueLeg_keeps
    | refine keeps_of2 (by with_reducible assumption) ?_ | exact keeps_snd (by with_reducible assumption)
    | refine keeps_snd (issueLeg_keeps ?_) | split | apply keeps2_mk)

theorem cmdPut_keeps {r s : State} {a0} [May W .stg] (h : Keeps W r s) : Keeps W r (cmdPut s a0) := by
  unfold cmdPut
  repeat (with_reducible first
    | assumption | intro _ | apply keeps_ite | apply putStg_keeps)

theorem cmdPost_keeps {r s : State} {a0 a1} [May W .regs] [May W .hif] [May W .stg] [May W .out] (h : Keeps W r s)
    : Keeps W r (cmdPost s a0 a1) := by
  unfold cmdPost
  repeat (with_reducible first
    | assumption | apply keeps_ite | apply cmdPut_keeps | apply ctlComplete_keeps | split)

theorem readOut_keeps {r s : State} {c k} [May W .regs] [May W .hbm] [May W .hif] [May W .fil] [May W .out] (h
    : Keeps W r s) : Keeps1 W r (readOut s c k) := by
  unfold readOut
  have h1 : ∀ {l : List (Nat × Bytes × Nat × Nat)} {x : CryptRes}, Keeps W r x.s → Keeps W r (l.foldl (fun r p =>
      xtsRun true c.entry c.stage c.slba k p.2.2.2 (p.2.2.1 - c.slba) p.2.2.2 r) x).s :=
    fun hx => keepsC_foldl hx fun _ _ hy => xtsRun_keeps _ hy
  extract_lets lba parts q
  have h2 : Keeps W r q.s := keepsC_ite (h1 h) h
  clear_value q
  split
  · exact h2
  · exact keeps_ite h2 (keeps_foldl h2 fun _ _ hs => scatter_keeps _ hs)

theorem judge_keeps {r s : State} {a0 a1} [May W .regs] [May W .hbm] [May W .hif] [May W .fil] [May W .stg] [May W .out]
    (h : Keeps W r s) : Keeps W r (judge s a0 a1) := by
  unfold judge
  repeat (with_reducible first
    | (lift_lets
       intro x
       first
       | (have hx : Keeps W r x := (by
            unfold x
            repeat (with_reducible first
              | (lift_lets
                 intro y
                 first
                 | (have hy : Keeps W r y := (by
                      unfold y
                      repeat (with_reducible first
                        | assumption | intro _ | apply keeps_ite | apply keeps1_ite | apply readOut_keeps
                        | apply cmdPost_keeps | refine keeps_of1 (by with_reducible assumption) ?_
                        | exact keeps_fst (by with_reducible assumption) | refine keeps_fst (readOut_keeps ?_)
                        | split | apply keeps1_mk))
                    clear_value y)
                 | (have hy : Keeps1 W r y := (by
                      unfold y
                      repeat (with_reducible first
                        | assumption | intro _ | apply keeps_ite | apply keeps1_ite | apply readOut_keeps
                        | apply cmdPost_keeps | refine keeps_of1 (by with_reducible assumption) ?_
                        | exact keeps_fst (by with_reducible assumption) | refine keeps_fst (readOut_keeps ?_)
                        | split | apply keeps1_mk))
                    clear_value y)
                 | clear_value y)
              | assumption | intro _ | apply keeps_ite | apply keeps1_ite | apply readOut_keeps | apply cmdPost_keeps
              | refine keeps_of1 (by with_reducible assumption) ?_ | exact keeps_fst (by with_reducible assumption)
              | refine keeps_fst (readOut_keeps ?_) | split | apply keeps1_mk))
          clear_value x)
       | (have hx : Keeps1 W r x := (by
            unfold x
            repeat (with_reducible first
              | (lift_lets
                 intro y
                 first
                 | (have hy : Keeps W r y := (by
                      unfold y
                      repeat (with_reducible first
                        | assumption | intro _ | apply keeps_ite | apply keeps1_ite | apply readOut_keeps
                        | apply cmdPost_keeps | refine keeps_of1 (by with_reducible assumption) ?_
                        | exact keeps_fst (by with_reducible assumption) | refine keeps_fst (readOut_keeps ?_)
                        | split | apply keeps1_mk))
                    clear_value y)
                 | (have hy : Keeps1 W r y := (by
                      unfold y
                      repeat (with_reducible first
                        | assumption | intro _ | apply keeps_ite | apply keeps1_ite | apply readOut_keeps
                        | apply cmdPost_keeps | refine keeps_of1 (by with_reducible assumption) ?_
                        | exact keeps_fst (by with_reducible assumption) | refine keeps_fst (readOut_keeps ?_)
                        | split | apply keeps1_mk))
                    clear_value y)
                 | clear_value y)
              | assumption | intro _ | apply keeps_ite | apply keeps1_ite | apply readOut_keeps | apply cmdPost_keeps
              | refine keeps_of1 (by with_reducible assumption) ?_ | exact keeps_fst (by with_reducible assumption)
              | refine keeps_fst (readOut_keeps ?_) | split | apply keeps1_mk))
          clear_value x)
       | clear_value x)
    | assumption | intro _ | apply keeps_ite | apply keeps1_ite | apply readOut_keeps | apply cmdPost_keeps
    | refine keeps_of1 (by with_reducible assumption) ?_ | exact keeps_fst (by with_reducible assumption)
    | refine keeps_fst (readOut_keeps ?_) | split | apply keeps1_mk)

theorem cmdNew_keeps {r s : State} {a0} [May W .stg] (h : Keeps W r s) : Keeps2 W r (cmdNew s a0) := by
  unfold cmdNew
  repeat (with_reducible first
    | assumption | apply putStg_keeps | refine keeps_of2 (by with_reducible assumption) ?_
    | exact keeps_snd (by with_reducible assumption) | apply keeps2_mk)

theorem startFlush_keeps {r s : State} {a0 a1 a2 a3} [May W .regs] [May W .hbm] [May W .hif] [May W .fil] [May W .car]
    [May W .stg] [May W .out] (h : Keeps W r s) : Keeps W r (startFlush s a0 a1 a2 a3) := by
  unfold startFlush
  repeat (with_reducible first
    | assumption | intro _ | apply cmdNew_keeps | apply issueAll_keeps | apply judge_keeps | apply cmdPut_keeps
    | refine keeps_of2 (by with_reducible assumption) ?_ | exact keeps_snd (by with_reducible assumption)
    | refine keeps_snd (cmdNew_keeps ?_) | refine keeps_snd (issueAll_keeps ?_) | split | apply keeps2_mk)

theorem stopCheck_keeps {r s : State} {a0} [May W .regs] [May W .hbm] [May W .hif] [May W .fil] [May W .car]
    [May W .stg] [May W .out] (h : Keeps W r s) : Keeps W r (stopCheck s a0) := by
  unfold stopCheck
  repeat (with_reducible first
    | assumption | intro _ | apply keeps_ite | apply keeps_foldl | apply ctlPut_keeps | apply startFlush_keeps
    | apply putStg_keeps | apply ctlMod_keeps | split)

theorem sweep_keeps {r : State} [May W .regs] [May W .hbm] [May W .hif] [May W .fil] [May W .car] [May W .stg]
    [May W .out] (k : Nat) : ∀ {s : State}, Keeps W r s → Keeps W r (sweep s k) := by
  induction k with
  | zero =>
    intro s  h
    rw [sweep]
    repeat (with_reducible first
      | assumption | intro _ | apply keeps_foldl | apply putStg_keeps | apply judge_keeps | apply stopCheck_keeps
      | split)
  | succ n ih =>
    intro s  h
    rw [sweep]
    repeat (with_reducible first
      | assumption | intro _ | apply keeps_foldl | apply putStg_keeps | apply judge_keeps | apply stopCheck_keeps
      | apply ih | split)

theorem sweepAll_keeps {r s : State} [May W .regs] [May W .hbm] [May W .hif] [May W .fil] [May W .car] [May W .stg]
    [May W .out] (h : Keeps W r s) : Keeps W r (sweepAll s) := by
  unfold sweepAll
  repeat (with_reducible first
    | assumption | apply sweep_keeps)

theorem judgeReads_keeps {r s : State} {a0} [May W .regs] [May W .hbm] [May W .hif] [May W .fil] [May W .car]
    [May W .stg] [May W .out] (h : Keeps W r s) : Keeps W r (judgeReads s a0) := by
  unfold judgeReads
  repeat (with_reducible first
    | assumption | intro _ | apply keeps_ite | apply keeps_foldl | apply sweepAll_keeps | apply judge_keeps)

theorem startWrites_keeps {r s : State} {a0 a1} [May W .regs] [May W .hbm] [May W .hif] [May W .fil] [May W .car]
    [May W .stg] [May W .out] (h : Keeps W r s) : Keeps W r (startWrites s a0 a1) := by
  unfold startWrites
  repeat (with_reducible first
    | assumption | intro _ | apply keeps_ite | apply keeps2_ite | apply issueAll_keeps | apply sweepAll_keeps
    | apply judge_keeps | apply cmdPut_keeps | refine keeps_of2 (by with_reducible assumption) ?_
    | exact keeps_snd (by with_reducible assumption) | refine keeps_snd (issueAll_keeps ?_) | split | apply keeps2_mk)

theorem readNext_keeps {r s : State} {a0 a1 a2} [May W .regs] [May W .hbm] [May W .fil] [May W .car] [May W .stg]
    [May W .out] (h : Keeps W r s) : Keeps2 W r (readNext s a0 a1 a2) := by
  unfold readNext
  repeat (with_reducible first
    | assumption | intro _ | apply keeps_ite | apply keeps2_ite | apply stgCount_keeps | apply issueLeg_keeps
    | refine keeps_of2 (by with_reducible assumption) ?_ | exact keeps_snd (by with_reducible assumption)
    | refine keeps_snd (issueLeg_keeps ?_) | split | apply keeps2_mk)

theorem absorbCarter_keeps {r s : State} [May W .car] [May W .stg] (h : Keeps W r s) : Keeps W r (absorbCarter s) := by
  unfold absorbCarter
  repeat (with_reducible first
    | assumption | intro _ | apply keeps_ite | apply putCar_keeps | apply modLegs_keeps | split)

theorem legComplete_keeps {r s : State} {x} [May W .regs] [May W .hbm] [May W .hif] [May W .fil] [May W .car]
    [May W .stg] [May W .out] (h : Keeps W r s) : Keeps W r (legComplete s x) := by
  unfold legComplete
  extract_lets t isEnd
  have ht : Keeps W r t := absorbCarter_keeps h
  clear_value t isEnd
  split
  · exact sweepAll_keeps (judgeReads_keeps ht)
  · split
    · exact ht
    · split
      · exact ht
      · split
        · rename_i c _ i _ o _ e _
          extract_lets c1 t1 t2 failing t3
          have h1 : Keeps W r t1 := cmdPut_keeps ht
          clear_value t1
          have h2 : Keeps W r t2 := by
            unfold t2
            split
            · exact keeps_ite (stgCount_keeps h1) h1
            · exact h1
          clear_value t2
          have h3 : Keeps W r t3 := keeps_ite (failLeg_keeps h2) h2
          clear_value t3
          refine keeps_ite ?_ (sweepAll_keeps (judge_keeps h3))
          exact sweepAll_keeps (judge_keeps (cmdPut_keeps (keeps_snd (readNext_keeps h3))))
        · exact ht

end Sys2Proof.Machine
end

