-- ==== Sys2Proof/Laws/NvmeCtlKeep.lean ====
section
/-! SUPPORT. Each operation of Machine/NvmeCtl.lean keeps what `Keeps` says. -/

set_option Elab.async false

namespace Sys2Proof.Machine

open Sys2Proof

variable {W : List Part}

theorem nvDone_keeps {r s : State} {a0 a1 a2 a3 a4} [May W .regs] [May W .hif] [May W .stg] [May W .out] (h : Keeps W r s)
    : Keeps W r (nvDone s a0 a1 a2 a3 a4) := by
  unfold nvDone
  repeat (with_reducible first
    | assumption | apply keeps_ite | apply ctlComplete_keeps)

theorem nvTaken_keeps {r s : State} {a0 a1 a2} [May W .stg] (h : Keeps W r s) : Keeps W r (nvTaken s a0 a1 a2) := by
  unfold nvTaken
  repeat (with_reducible first
    | assumption | apply ctlPut_keeps)

theorem nvFetch_keeps {r s : State} {a0 a1 a2 a3 a4} [May W .regs] [May W .hif] [May W .stg] [May W .out] [May W .free] (h
    : Keeps W r s) (ha4 : ∀ s x1, Keeps W r s → Keeps W r (a4 s x1)) :
    Keeps W r (nvFetch s a0 a1 a2 a3 a4) := by
  unfold nvFetch
  repeat (with_reducible first
    | (lift_lets
       intro x
       first
       | (have hx : Keeps W r x := (by
            unfold x
            repeat (with_reducible first
              | (lift_lets
                 intro y
                 first
                 | (have hy : Keeps W r y := (by
                      unfold y
                      repeat (with_reducible first
                        | assumption | apply keeps2_mk | intro _ | apply keeps_ite | apply keeps2_ite
                        | apply ctlFetch_keeps | apply nvTaken_keeps | apply nvDone_keeps | apply ctlMod_keeps
                        | apply ha4 | refine keeps_of2 (by with_reducible assumption) ?_
                        | exact keeps_snd (by with_reducible assumption) | refine keeps_snd (ctlFetch_keeps ?_)
                        | split))
                    clear_value y)
                 | (have hy : Keeps2 W r y := (by
                      unfold y
                      repeat (with_reducible first
                        | assumption | apply keeps2_mk | intro _ | apply keeps_ite | apply keeps2_ite
                        | apply ctlFetch_keeps | apply nvTaken_keeps | apply nvDone_keeps | apply ctlMod_keeps
                        | apply ha4 | refine keeps_of2 (by with_reducible assumption) ?_
                        | exact keeps_snd (by with_reducible assumption) | refine keeps_snd (ctlFetch_keeps ?_)
                        | split))
                    clear_value y)
                 | clear_value y)
              | assumption | apply keeps2_mk | intro _ | apply keeps_ite | apply keeps2_ite | apply ctlFetch_keeps
              | apply nvTaken_keeps | apply nvDone_keeps | apply ctlMod_keeps | apply ha4
              | refine keeps_of2 (by with_reducible assumption) ?_ | exact keeps_snd (by with_reducible assumption)
              | refine keeps_snd (ctlFetch_keeps ?_) | split))
          clear_value x)
       | (have hx : Keeps2 W r x := (by
            unfold x
            repeat (with_reducible first
              | (lift_lets
                 intro y
                 first
                 | (have hy : Keeps W r y := (by
                      unfold y
                      repeat (with_reducible first
                        | assumption | apply keeps2_mk | intro _ | apply keeps_ite | apply keeps2_ite
                        | apply ctlFetch_keeps | apply nvTaken_keeps | apply nvDone_keeps | apply ctlMod_keeps
                        | apply ha4 | refine keeps_of2 (by with_reducible assumption) ?_
                        | exact keeps_snd (by with_reducible assumption) | refine keeps_snd (ctlFetch_keeps ?_)
                        | split))
                    clear_value y)
                 | (have hy : Keeps2 W r y := (by
                      unfold y
                      repeat (with_reducible first
                        | assumption | apply keeps2_mk | intro _ | apply keeps_ite | apply keeps2_ite
                        | apply ctlFetch_keeps | apply nvTaken_keeps | apply nvDone_keeps | apply ctlMod_keeps
                        | apply ha4 | refine keeps_of2 (by with_reducible assumption) ?_
                        | exact keeps_snd (by with_reducible assumption) | refine keeps_snd (ctlFetch_keeps ?_)
                        | split))
                    clear_value y)
                 | clear_value y)
              | assumption | apply keeps2_mk | intro _ | apply keeps_ite | apply keeps2_ite | apply ctlFetch_keeps
              | apply nvTaken_keeps | apply nvDone_keeps | apply ctlMod_keeps | apply ha4
              | refine keeps_of2 (by with_reducible assumption) ?_ | exact keeps_snd (by with_reducible assumption)
              | refine keeps_snd (ctlFetch_keeps ?_) | split))
          clear_value x)
       | clear_value x)
    | assumption | apply keeps2_mk | intro _ | apply keeps_ite | apply keeps2_ite | apply ctlFetch_keeps
    | apply nvTaken_keeps | apply nvDone_keeps | apply ctlMod_keeps | apply ha4
    | refine keeps_of2 (by with_reducible assumption) ?_ | exact keeps_snd (by with_reducible assumption)
    | refine keeps_snd (ctlFetch_keeps ?_) | split)

theorem dataReach_keeps {r s : State} {a0 a1 a2 a3 a4 a5} [May W .regs] [May W .hif] [May W .out] (h : Keeps W r s) :
    Keeps2 W r (dataReach s a0 a1 a2 a3 a4 a5) := by
  unfold dataReach
  repeat (with_reducible first
    | assumption | apply keeps_ite | apply keeps2_ite | apply ctlReach_keeps
    | refine keeps_of2 (by with_reducible assumption) ?_ | exact keeps_snd (by with_reducible assumption)
    | refine keeps_snd (ctlReach_keeps ?_) | split | apply keeps2_mk)

theorem dataTake_keeps {r s : State} {a0 a1 a2 a3 a4} [May W .regs] [May W .hif] [May W .out] [May W .free] (h
    : Keeps W r s) : Keeps W r (dataTake s a0 a1 a2 a3 a4) := by
  unfold dataTake
  repeat (with_reducible first
    | assumption | apply hostTake_keeps | split)

theorem countWrite_keeps {r s : State} {a0 a1} [May W .stg] (h : Keeps W r s) : Keeps W r (countWrite s a0 a1) := by
  unfold countWrite
  repeat (with_reducible first
    | assumption | intro _ | apply ctlMod_keeps)

theorem countRead_keeps {r s : State} {a0 a1} [May W .stg] (h : Keeps W r s) : Keeps W r (countRead s a0 a1) := by
  unfold countRead
  repeat (with_reducible first
    | assumption | intro _ | apply ctlMod_keeps)

theorem runWrite_keeps {r s : State} {a0 a1 a2 a3 a4 a5 a6 a7 a8} [May W .regs] [May W .hbm] [May W .hif] [May W .fil]
    [May W .car] [May W .stg] [May W .out] (h : Keeps W r s) : Keeps W r (runWrite s a0 a1 a2 a3 a4 a5 a6 a7 a8) := by
  unfold runWrite
  have h1 : ∀ {l : List (Nat × Bytes × Nat × Nat)} {x : CryptRes}, Keeps W r x.s → Keeps W r (l.foldl (fun r p =>
      xtsRun false a4 a5 (sqeSlba a2) a7 p.2.2.2 (p.2.2.1 - sqeSlba a2) p.2.2.2 r) x).s :=
    fun hx => keepsC_foldl hx fun _ _ hy => xtsRun_keeps _ hy
  extract_lets t q
  have h0 : Keeps W r t := stageWrite_keeps h
  have h2 : Keeps W r q.s := keepsC_ite (h1 h0) h0
  clear_value q
  split
  · exact nvDone_keeps h2
  · split
    rename_i e
    exact startWrites_keeps (keeps_of2 e (cmdNew_keeps h2))

theorem nvWrite_keeps {r s : State} {a0 a1 a2 a3 a4 a5} [May W .regs] [May W .hbm] [May W .hif] [May W .fil]
    [May W .car] [May W .stg] [May W .out] [May W .free] (h : Keeps W r s) : Keeps W r (nvWrite s a0 a1 a2 a3 a4 a5) := by
  unfold nvWrite
  repeat (with_reducible first
    | (lift_lets
       intro x
       first
       | (have hx : Keeps W r x := (by
            unfold x
            repeat (with_reducible first
              | assumption | intro _ | apply keeps_ite | apply keeps2_ite | apply dataReach_keeps
              | apply nvFetch_keeps | apply nvDone_keeps | apply dataTake_keeps | apply runWrite_keeps
              | apply countWrite_keeps | refine keeps_of2 (by with_reducible assumption) ?_
              | exact keeps_snd (by with_reducible assumption) | refine keeps_snd (dataReach_keeps ?_) | split
              | apply keeps2_mk))
          clear_value x)
       | (have hx : Keeps2 W r x := (by
            unfold x
            repeat (with_reducible first
              | assumption | intro _ | apply keeps_ite | apply keeps2_ite | apply dataReach_keeps
              | apply nvFetch_keeps | apply nvDone_keeps | apply dataTake_keeps | apply runWrite_keeps
              | apply countWrite_keeps | refine keeps_of2 (by with_reducible assumption) ?_
              | exact keeps_snd (by with_reducible assumption) | refine keeps_snd (dataReach_keeps ?_) | split
              | apply keeps2_mk))
          clear_value x)
       | clear_value x)
    | assumption | intro _ | apply keeps_ite | apply keeps2_ite | apply dataReach_keeps | apply nvFetch_keeps
    | apply nvDone_keeps | apply dataTake_keeps | apply runWrite_keeps | apply countWrite_keeps
    | refine keeps_of2 (by with_reducible assumption) ?_ | exact keeps_snd (by with_reducible assumption)
    | refine keeps_snd (dataReach_keeps ?_) | split | apply keeps2_mk)

theorem runRead_keeps {r s : State} {a0 a1 a2 a3 a4 a5 a6 a7} [May W .regs] [May W .hbm] [May W .hif] [May W .fil]
    [May W .car] [May W .stg] [May W .out] (h : Keeps W r s) :
    Keeps W r (runRead s a0 a1 a2 a3 a4 a5 a6 a7) := by
  unfold runRead
  repeat (with_reducible first
    | assumption | intro _ | apply keeps_ite | apply keeps2_ite | apply keeps_foldl | apply keeps2_foldl
    | apply cmdNew_keeps | apply stgCount_keeps | apply issueAll_keeps | apply sweepAll_keeps | apply judge_keeps
    | apply cmdPut_keeps | refine keeps_of2 (by with_reducible assumption) ?_
    | exact keeps_snd (by with_reducible assumption) | refine keeps_snd (cmdNew_keeps ?_)
    | refine keeps_snd (issueAll_keeps ?_) | split | apply keeps2_mk)

theorem nvRead_keeps {r s : State} {a0 a1 a2 a3 a4} [May W .regs] [May W .hbm] [May W .hif] [May W .fil] [May W .car]
    [May W .stg] [May W .out] [May W .free] (h : Keeps W r s) : Keeps W r (nvRead s a0 a1 a2 a3 a4) := by
  unfold nvRead
  repeat (with_reducible first
    | (lift_lets
       intro x
       first
       | (have hx : Keeps W r x := (by
            unfold x
            repeat (with_reducible first
              | assumption | intro _ | apply keeps_ite | apply keeps2_ite | apply dataReach_keeps
              | apply nvFetch_keeps | apply nvDone_keeps | apply runRead_keeps | apply countRead_keeps
              | apply dataTake_keeps | refine keeps_of2 (by with_reducible assumption) ?_
              | exact keeps_snd (by with_reducible assumption) | refine keeps_snd (dataReach_keeps ?_) | split
              | apply keeps2_mk))
          clear_value x)
       | (have hx : Keeps2 W r x := (by
            unfold x
            repeat (with_reducible first
              | assumption | intro _ | apply keeps_ite | apply keeps2_ite | apply dataReach_keeps
              | apply nvFetch_keeps | apply nvDone_keeps | apply runRead_keeps | apply countRead_keeps
              | apply dataTake_keeps | refine keeps_of2 (by with_reducible assumption) ?_
              | exact keeps_snd (by with_reducible assumption) | refine keeps_snd (dataReach_keeps ?_) | split
              | apply keeps2_mk))
          clear_value x)
       | clear_value x)
    | assumption | intro _ | apply keeps_ite | apply keeps2_ite | apply dataReach_keeps | apply nvFetch_keeps
    | apply nvDone_keeps | apply runRead_keeps | apply countRead_keeps | apply dataTake_keeps
    | refine keeps_of2 (by with_reducible assumption) ?_ | exact keeps_snd (by with_reducible assumption)
    | refine keeps_snd (dataReach_keeps ?_) | split | apply keeps2_mk)

theorem nvZeroes_keeps {r s : State} {a0 a1 a2 a3} [May W .regs] [May W .hbm] [May W .hif] [May W .fil] [May W .car]
    [May W .stg] [May W .out] [May W .free] (h : Keeps W r s) : Keeps W r (nvZeroes s a0 a1 a2 a3) := by
  unfold nvZeroes
  repeat (with_reducible first
    | assumption | intro _ | apply keeps_ite | apply keeps2_ite | apply nvFetch_keeps | apply nvDone_keeps
    | apply countWrite_keeps | apply runWrite_keeps | apply cmdNew_keeps | apply startWrites_keeps
    | refine keeps_of2 (by with_reducible assumption) ?_ | exact keeps_snd (by with_reducible assumption)
    | refine keeps_snd (cmdNew_keeps ?_) | split | apply keeps2_mk)

theorem runDsm_keeps {r s : State} {a0 a1 a2 a3 a4 a5} [May W .regs] [May W .hbm] [May W .hif] [May W .fil]
    [May W .car] [May W .stg] [May W .out] (h : Keeps W r s) : Keeps W r (runDsm s a0 a1 a2 a3 a4 a5) := by
  unfold runDsm
  repeat (with_reducible first
    | assumption | intro _ | apply keeps_ite | apply keeps2_ite | apply cmdNew_keeps | apply issueAll_keeps
    | apply sweepAll_keeps | apply judge_keeps | apply cmdPut_keeps
    | refine keeps_of2 (by with_reducible assumption) ?_ | exact keeps_snd (by with_reducible assumption)
    | refine keeps_snd (cmdNew_keeps ?_) | refine keeps_snd (issueAll_keeps ?_) | split | apply keeps2_mk)

theorem nvDsm_keeps {r s : State} {a0 a1 a2 a3} [May W .regs] [May W .hbm] [May W .hif] [May W .fil] [May W .car]
    [May W .stg] [May W .out] [May W .free] (h : Keeps W r s) : Keeps W r (nvDsm s a0 a1 a2 a3) := by
  unfold nvDsm
  repeat (with_reducible first
    | assumption | intro _ | apply keeps_ite | apply keeps2_ite | apply dataReach_keeps | apply nvFetch_keeps
    | apply nvDone_keeps | apply dataTake_keeps | apply runDsm_keeps
    | refine keeps_of2 (by with_reducible assumption) ?_ | exact keeps_snd (by with_reducible assumption)
    | refine keeps_snd (dataReach_keeps ?_) | split | apply keeps2_mk)

theorem nvFlush_keeps {r s : State} {a0 a1 a2} [May W .regs] [May W .hbm] [May W .hif] [May W .fil] [May W .car]
    [May W .stg] [May W .out] [May W .free] (h : Keeps W r s) : Keeps W r (nvFlush s a0 a1 a2) := by
  unfold nvFlush
  repeat (with_reducible first
    | assumption | intro _ | apply nvFetch_keeps | apply nvDone_keeps | apply sweepAll_keeps | apply startFlush_keeps
    | split)

theorem createSq_keeps {r s : State} {a0 a1} [May W .stg] (h : Keeps W r s) : Keeps1 W r (createSq s a0 a1) := by
  unfold createSq
  repeat (with_reducible first
    | assumption | apply keeps_ite | apply keeps1_ite | apply ctlPut_keeps
    | refine keeps_of1 (by with_reducible assumption) ?_ | exact keeps_fst (by with_reducible assumption)
    | apply keeps1_mk)

theorem createCq_keeps {r s : State} {a0 a1} [May W .stg] (h : Keeps W r s) : Keeps1 W r (createCq s a0 a1) := by
  unfold createCq
  repeat (with_reducible first
    | assumption | apply keeps_ite | apply keeps1_ite | apply ctlPut_keeps
    | refine keeps_of1 (by with_reducible assumption) ?_ | exact keeps_fst (by with_reducible assumption)
    | apply keeps1_mk)

theorem abortQueue_keeps {r s : State} {a0 a1} [May W .regs] [May W .hif] [May W .stg] [May W .out] (h : Keeps W r s)
    : Keeps W r (abortQueue s a0 a1) := by
  unfold abortQueue
  repeat (with_reducible first
    | assumption | intro _ | apply keeps_ite | apply keeps_foldl | apply cmdPost_keeps | apply putStg_keeps)

theorem deleteSq_keeps {r s : State} {a0 a1} [May W .regs] [May W .hif] [May W .stg] [May W .out] (h : Keeps W r s)
    : Keeps1 W r (deleteSq s a0 a1) := by
  unfold deleteSq
  repeat (with_reducible first
    | assumption | intro _ | apply keeps_ite | apply keeps1_ite | apply abortQueue_keeps | apply ctlMod_keeps
    | refine keeps_of1 (by with_reducible assumption) ?_ | exact keeps_fst (by with_reducible assumption)
    | apply keeps1_mk)

theorem deleteCq_keeps {r s : State} {a0 a1} [May W .stg] (h : Keeps W r s) : Keeps1 W r (deleteCq s a0 a1) := by
  unfold deleteCq
  repeat (with_reducible first
    | assumption | intro _ | apply keeps_ite | apply keeps1_ite | apply ctlMod_keeps
    | refine keeps_of1 (by with_reducible assumption) ?_ | exact keeps_fst (by with_reducible assumption)
    | apply keeps1_mk)

theorem adminPlain_keeps {r s : State} {a0 a1 a2 a3} [May W .regs] [May W .hbm] [May W .hif] [May W .fil] [May W .car]
    [May W .stg] [May W .out] [May W .free] (h : Keeps W r s) (ha3 : ∀ s x1, Keeps W r s → Keeps1 W r (a3 s x1)) :
    Keeps W r (adminPlain s a0 a1 a2 a3) := by
  unfold adminPlain
  repeat (with_reducible first
    | assumption | intro _ | apply nvFetch_keeps | apply sweepAll_keeps | apply nvDone_keeps | apply ha3
    | refine keeps_fst (ha3 _ _ ?_) | refine keeps_of1 (by with_reducible assumption) ?_
    | exact keeps_fst (by with_reducible assumption) | split | apply keeps1_mk)

theorem adminData_keeps {r s : State} {a0 a1 a2 a3 a4 a5} [May W .regs] [May W .hif] [May W .stg] [May W .out]
    [May W .free] (h : Keeps W r s) (ha5 : ∀ s x1, Keeps W r s → KeepsE1 W r (a5 s x1)) :
    Keeps W r (adminData s a0 a1 a2 a3 a4 a5) := by
  unfold adminData
  repeat (with_reducible first
    | assumption | intro _ | apply keeps_ite | apply keeps2_ite | apply keepsE1_ite | apply dataReach_keeps
    | apply nvFetch_keeps | apply nvDone_keeps | apply dataTake_keeps | apply scatter_keeps | apply ha5
    | refine keeps_of2 (by with_reducible assumption) ?_ | exact keeps_snd (by with_reducible assumption)
    | refine keeps_snd (dataReach_keeps ?_) | refine keeps_ofE1 (by with_reducible assumption) ?_ | split
    | apply keeps2_mk)

theorem identify_keeps {r s : State} {a0 a1} (h : Keeps W r s) : KeepsE1 W r (identify s a0 a1) := by
  unfold identify
  repeat (with_reducible first
    | (lift_lets
       intro x
       first
       | (have hx : Keeps W r x := (by
            unfold x
            repeat (with_reducible first
              | assumption | intro _ | apply keeps_ite | apply keepsE1_ite | apply keepsE1_ok | exact keepsE1_error
              | refine keeps_ofE1 (by with_reducible assumption) ?_ | split))
          clear_value x)
       | clear_value x)
    | assumption | intro _ | apply keeps_ite | apply keepsE1_ite | apply keepsE1_ok | exact keepsE1_error
    | refine keeps_ofE1 (by with_reducible assumption) ?_ | split)

theorem getLog_keeps {r s : State} {a0 a1} [May W .regs] [May W .hif] [May W .stg] [May W .out] (h : Keeps W r s)
    : KeepsE1 W r (getLog s a0 a1) := by
  unfold getLog
  repeat (with_reducible first
    | assumption | intro _ | apply keeps_ite | apply keepsE1_ite | apply keepsE1_ok | exact keepsE1_error
    | apply eventPump_keeps | apply ctlMod_keeps | refine keeps_ofE1 (by with_reducible assumption) ?_ | split)

theorem nvAbort_keeps {r s : State} {a0 a1} [May W .regs] [May W .hbm] [May W .hif] [May W .fil] [May W .car]
    [May W .stg] [May W .out] [May W .free] (h : Keeps W r s) : Keeps W r (nvAbort s a0 a1) := by
  unfold nvAbort
  repeat (with_reducible first
    | (lift_lets
       intro x
       first
       | (have hx : Keeps W r x := (by
            unfold x
            repeat (with_reducible first
              | assumption | intro _ | apply keeps_ite | apply nvFetch_keeps | apply nvDone_keeps
              | apply cmdPost_keeps | apply putStg_keeps | apply sweepAll_keeps | split))
          clear_value x)
       | clear_value x)
    | assumption | intro _ | apply keeps_ite | apply nvFetch_keeps | apply nvDone_keeps | apply cmdPost_keeps
    | apply putStg_keeps | apply sweepAll_keeps | split)

theorem setFeature_keeps {r s : State} {a0 a1} [May W .regs] [May W .hif] [May W .stg] [May W .out] (h : Keeps W r s)
    : Keeps1 W r (setFeature s a0 a1) := by
  unfold setFeature
  repeat (with_reducible first
    | assumption | apply keeps_ite | apply keeps1_ite | apply ctlPut_keeps | apply eventPump_keeps
    | refine keeps_of1 (by with_reducible assumption) ?_ | exact keeps_fst (by with_reducible assumption) | split
    | apply keeps1_mk)

theorem discardCmds_keeps {r s : State} {a0} [May W .stg] (h : Keeps W r s) : Keeps W r (discardCmds s a0) := by
  unfold discardCmds
  repeat (with_reducible first
    | assumption | intro _ | apply keeps_ite | apply putStg_keeps)

theorem ccWrite_keeps {r s : State} {a0 a1} [May W .regs] [May W .hbm] [May W .hif] [May W .fil] [May W .car]
    [May W .stg] [May W .out] (h : Keeps W r s) : Keeps W r (ccWrite s a0 a1) := by
  unfold ccWrite
  repeat (with_reducible first
    | assumption | intro _ | apply keeps_ite | apply ctlPut_keeps | apply ctlMod_keeps | apply sweepAll_keeps
    | apply stopCheck_keeps | apply discardCmds_keeps)

theorem nvPropWrite_keeps {r s : State} {a0 a1 a2} [May W .regs] [May W .hbm] [May W .hif] [May W .fil] [May W .car]
    [May W .stg] [May W .out] (h : Keeps W r s) : Keeps W r (nvPropWrite s a0 a1 a2) := by
  unfold nvPropWrite
  repeat (with_reducible first
    | assumption | intro _ | apply ctlMod_keeps | apply ccWrite_keeps | split)

theorem sqBell_keeps {r s : State} {a0 a1 a2} [May W .stg] (h : Keeps W r s) : Keeps W r (sqBell s a0 a1 a2) := by
  unfold sqBell
  repeat (with_reducible first
    | assumption | intro _ | apply keeps_ite | apply ctlMod_keeps | split)

theorem cqBell_keeps {r s : State} {a0 a1 a2} [May W .regs] [May W .hif] [May W .stg] [May W .out] (h : Keeps W r s)
    : Keeps W r (cqBell s a0 a1 a2) := by
  unfold cqBell
  repeat (with_reducible first
    | assumption | intro _ | apply keeps_ite | apply cqPump_keeps | apply ctlMod_keeps | split)

theorem nvWindowWrite_keeps {r s : State} {a0 a1 a2} [May W .regs] [May W .hbm] [May W .hif] [May W .fil] [May W .car]
    [May W .stg] [May W .out] (h : Keeps W r s) : Keeps W r (nvWindowWrite s a0 a1 a2) := by
  unfold nvWindowWrite
  repeat (with_reducible first
    | assumption | apply keeps_ite | apply nvPropWrite_keeps | apply sqBell_keeps | apply cqBell_keeps)

theorem ctlReset_keeps {r s : State} {a0} [May W .regs] [May W .hbm] [May W .hif] [May W .fil] [May W .car]
    [May W .stg] [May W .out] (h : Keeps W r s) : Keeps W r (ctlReset s a0) := by
  unfold ctlReset
  repeat (with_reducible first
    | assumption | apply sweepAll_keeps | apply ctlPut_keeps | apply discardCmds_keeps | apply State.reset_keeps)

theorem ctlQuiesce_keeps {r s : State} {a0} [May W .regs] [May W .hbm] [May W .hif] [May W .fil] [May W .car]
    [May W .stg] [May W .out] (h : Keeps W r s) : Keeps W r (ctlQuiesce s a0) := by
  unfold ctlQuiesce
  repeat (with_reducible first
    | assumption | intro _ | apply keeps_foldl | apply sweepAll_keeps | apply discardCmds_keeps)

theorem ctlFlr_keeps {r s : State} {a0} [May W .regs] [May W .hbm] [May W .hif] [May W .fil] [May W .car] [May W .stg]
    [May W .out] (h : Keeps W r s) : Keeps W r (ctlFlr s a0) := by
  unfold ctlFlr
  repeat (with_reducible first
    | assumption | intro _ | apply keeps_foldl | apply ctlReset_keeps)

theorem refuseRec_keeps {r s : State} {a0} [May W .regs] (h : Keeps W r s) : KeepsR W r (refuseRec s a0) := by
  unfold refuseRec
  repeat (with_reducible first
    | assumption | apply keepsR_ok | apply keepsR_fail | apply stgCount_keeps)

theorem legInit_keeps {r s : State} {a0 a1} [May W .regs] [May W .stg] (h : Keeps W r s) : Keeps W r (legInit s a0 a1) := by
  unfold legInit
  repeat (with_reducible first
    | assumption | intro _ | apply keeps_ite | apply keeps_foldl | apply stgCount_keeps | apply putStg_keeps)

theorem nsChanged_keeps {r s : State} {a0 a1} [May W .regs] [May W .hif] [May W .stg] [May W .out] (h : Keeps W r s)
    : Keeps W r (nsChanged s a0 a1) := by
  unfold nsChanged
  repeat (with_reducible first
    | assumption | intro _ | apply keeps_ite | apply ctlMod_keeps | apply eventRaise_keeps)

theorem nsApply_keeps {r s : State} {a0 a1} [May W .regs] [May W .hif] [May W .stg] [May W .out] (h : Keeps W r s)
    : Keeps W r (nsApply s a0 a1) := by
  unfold nsApply
  repeat (with_reducible first
    | assumption | intro _ | apply keeps_ite | apply keeps_foldl | apply putStg_keeps | apply legInit_keeps
    | apply nsChanged_keeps | apply eventRaise_keeps)

theorem nsWriteRec_keeps {r s : State} {a0} [May W .regs] [May W .hif] [May W .stg] [May W .out] (h : Keeps W r s)
    : KeepsR W r (nsWriteRec s a0) := by
  unfold nsWriteRec
  repeat (with_reducible first
    | assumption | intro _ | apply keeps_ite | apply keepsR_ite | apply keepsR_ok | apply keepsR_fail
    | apply refuseRec_keeps | apply nsApply_keeps)

theorem extApply_keeps {r s : State} {a0 a1} [May W .regs] [May W .hif] [May W .stg] [May W .out] (h : Keeps W r s)
    : Keeps W r (extApply s a0 a1) := by
  unfold extApply
  repeat (with_reducible first
    | assumption | intro _ | apply keeps_ite | apply keeps_foldl | apply putStg_keeps | apply legInit_keeps
    | apply smartEvents_keeps)

theorem extWriteRec_keeps {r s : State} {a0} [May W .regs] [May W .hif] [May W .stg] [May W .out] (h : Keeps W r s)
    : KeepsR W r (extWriteRec s a0) := by
  unfold extWriteRec
  repeat (with_reducible first
    | assumption | apply keeps_ite | apply keepsR_ite | apply keepsR_ok | apply keepsR_fail | apply refuseRec_keeps
    | apply extApply_keeps)

theorem nsReadRec_keeps {r s : State} {a0} [May W .regs] (h : Keeps W r s) : KeepsR W r (nsReadRec s a0) := by
  unfold nsReadRec
  repeat (with_reducible first
    | assumption | intro _ | apply keeps_ite | apply keepsR_ite | apply keepsR_ok | apply keepsR_fail
    | apply keeps_foldl | apply refuseRec_keeps)

theorem stgEnable_keeps {r s : State} {a0} [May W .regs] (h : Keeps W r s) : Keeps W r (stgEnable s a0) := by
  unfold stgEnable
  repeat (with_reducible first
    | assumption | intro _ | apply keeps_ite | apply State.wr_keeps)

end Sys2Proof.Machine
end

