-- ==== Sys2Proof/Laws/DomOpsKeep.lean ====
section
/-! SUPPORT. Each operation of Machine/DomOps.lean keeps what `Keeps` says. -/

set_option Elab.async false

namespace Sys2Proof.Machine

open Sys2Proof

variable {W : List Part}

theorem orphanInst_keeps {r s : State} {a0} [May W .regs] [May W .hif] (h : Keeps W r s) : Keeps W r (orphanInst s a0) := by
  unfold orphanInst
  repeat (with_reducible first
    | assumption | intro _ | apply keeps_ite | apply syncTags_keeps | split | apply keeps_hif)

theorem destroyRing_keeps {r s : State} {n} [May W .regs] [May W .hif] [May W .dom] [May W .lck] [May W .car] (h
    : Keeps W r s) : Keeps W r (destroyRing s n) := by
  unfold destroyRing
  extract_lets gone tag work bind conns kd owner x1 x2 x3 t
  have ht : Keeps W r t := keeps_mk h (fun p hp => by cases p <;> first | exact rfl | exact absurd May.mem hp)
  clear_value t
  repeat (with_reducible first
    | assumption | apply keeps_ite | apply State.wr_keeps | apply State.sub_keeps | apply keeps_dom | extract_lets)

theorem resetSteps_keeps {r s : State} {a0} [May W .regs] [May W .hbm] [May W .hif] [May W .dom] [May W .fil]
    [May W .grn] [May W .lck] [May W .car] [May W .stg] [May W .out] (h : Keeps W r s) : Keeps W r (resetSteps s a0) := by
  unfold resetSteps
  repeat (with_reducible first
    | assumption | intro _ | apply keeps_foldl | apply orphanInst_keeps | apply ctlReset_keeps
    | apply carCloseInst_keeps | apply destroyRing_keeps | apply irqPut_keeps | apply State.wr_keeps)

theorem beginReset_keeps {r s : State} {a0 a1} [May W .regs] [May W .hbm] [May W .hif] [May W .dom] [May W .fil]
    [May W .grn] [May W .lck] [May W .car] [May W .stg] [May W .out] (h : Keeps W r s) : Keeps W r (beginReset s a0 a1) := by
  unfold beginReset
  repeat (with_reducible first
    | assumption | apply keeps_ite | apply State.wr_keeps | apply resetSteps_keeps | apply State.inc_keeps)

theorem unquiesce_keeps {r s : State} {a0 a1} [May W .regs] (h : Keeps W r s) : Keeps W r (unquiesce s a0 a1) := by
  unfold unquiesce
  repeat (with_reducible first
    | assumption | intro _ | apply keeps_ite | apply State.wr_keeps)

theorem freeInst_keeps {r s : State} {a0} [May W .regs] [May W .hif] (h : Keeps W r s) : Keeps W r (freeInst s a0) := by
  unfold freeInst
  repeat (with_reducible first
    | assumption | intro _ | apply keeps_foldl | apply irqPut_keeps | apply State.sub_keeps | apply State.wr_keeps)

theorem slotMbPut_keeps {r s : State} {a0 a1} [May W .dom] (h : Keeps W r s) : Keeps W r (slotMbPut s a0 a1) := by
  unfold slotMbPut
  repeat (with_reducible first
    | assumption | apply State.reset_keeps | apply keeps_dom)

theorem mbPost_keeps {r s : State} {a0 a1} [May W .regs] [May W .hif] [May W .dom] [May W .out] (h : Keeps W r s)
    : Keeps W r (mbPost s a0 a1) := by
  unfold mbPost
  repeat (with_reducible first
    | assumption | apply keeps_ite | apply slotMbPut_keeps | apply fireOwner_keeps)

theorem mbEnd_keeps {r s : State} {a0 a1 a2} [May W .regs] [May W .hif] [May W .dom] [May W .out] (h : Keeps W r s)
    : Keeps W r (mbEnd s a0 a1 a2) := by
  unfold mbEnd
  repeat (with_reducible first
    | assumption | apply keeps_ite | apply State.inc_keeps | apply mbPost_keeps | split)

theorem mbGo_keeps {r s : State} {a0} [May W .regs] [May W .dom] [May W .fil] (h : Keeps W r s) : Keeps W r (mbGo s a0) := by
  unfold mbGo
  repeat (with_reducible first
    | assumption | apply keeps_ite | apply State.inc_keeps | apply slotMbPut_keeps | apply latchEv_keeps
    | apply keeps_dom)

theorem mbRun_keeps {r s : State} {a0 a1} [May W .regs] [May W .hif] [May W .dom] [May W .out] (h : Keeps W r s) (ha1
    : ∀ s x1, Keeps W r s → Keeps W r (a1 s x1)) : Keeps W r (mbRun s a0 a1) := by
  unfold mbRun
  split
  · exact h
  · rename_i c rest _
    extract_lets o d t
    have ht : Keeps W r t := keeps_dom h
    clear_value t
    exact keeps_ite h (keeps_ite (mbEnd_keeps ht) (keeps_ite (ha1 _ _ ht) h))

theorem mbNow_keeps {r s : State} {a0 a1} [May W .regs] [May W .hif] [May W .dom] [May W .out] (h : Keeps W r s) (ha1
    : ∀ s x1, Keeps W r s → KeepsE1 W r (a1 s x1)) :
    Keeps W r (mbNow s a0 a1) := by
  unfold mbNow
  repeat (with_reducible first
    | assumption | intro _ | apply mbRun_keeps | apply mbEnd_keeps | apply ha1
    | refine keeps_ofE1 (by with_reducible assumption) ?_ | split)

theorem mbLong_keeps {r s : State} {a0 a1} [May W .regs] [May W .hif] [May W .dom] [May W .out] (h : Keeps W r s) (ha1
    : ∀ s x1, Keeps W r s → KeepsE W r (a1 s x1)) :
    Keeps W r (mbLong s a0 a1) := by
  unfold mbLong
  repeat (with_reducible first
    | (lift_lets
       intro x
       first
       | (have hx : Keeps W r x := (by
            unfold x
            repeat (with_reducible first
              | (lift_lets
                 intro y
                 first
                 | (have hy : Keeps W r y := (by
                      unfold y
                      repeat (with_reducible first
                        | assumption | intro _ | apply mbRun_keeps | apply mbEnd_keeps | apply ha1
                        | refine keeps_ofE (by with_reducible assumption) ?_ | split | apply keeps_dom))
                    clear_value y)
                 | clear_value y)
              | assumption | intro _ | apply mbRun_keeps | apply mbEnd_keeps | apply ha1
              | refine keeps_ofE (by with_reducible assumption) ?_ | split | apply keeps_dom))
          clear_value x)
       | clear_value x)
    | assumption | intro _ | apply mbRun_keeps | apply mbEnd_keeps | apply ha1
    | refine keeps_ofE (by with_reducible assumption) ?_ | split | apply keeps_dom)

theorem domCreate_keeps {r s : State} {a0} [May W .regs] (h : Keeps W r s) : KeepsE1 W r (domCreate s a0) := by
  unfold domCreate
  repeat (with_reducible first
    | assumption | intro _ | apply keeps_ite | apply keepsE1_ite | apply keepsE1_ok | exact keepsE1_error
    | apply State.wr_keeps | apply State.inc_keeps | refine keeps_ofE1 (by with_reducible assumption) ?_ | split)

theorem freeDomain_keeps {r s : State} {a0} [May W .regs] [May W .lck] [May W .hsk] (h : Keeps W r s)
    : Keeps W r (freeDomain s a0) := by
  unfold freeDomain
  repeat (with_reducible first
    | assumption | apply rangeWrite_keeps | apply State.wr_keeps | apply State.sub_keeps)

theorem domDestroy_keeps {r s : State} [May W .regs] [May W .hbm] [May W .hif] [May W .dom] [May W .fil] [May W .grn]
    [May W .lck] [May W .hsk] [May W .car] [May W .stg] [May W .out] (h : Keeps W r s) : Keeps W r (domDestroy s) := by
  unfold domDestroy
  repeat (with_reducible first
    | (lift_lets
       intro x
       first
       | (have hx : Keeps W r x := (by
            unfold x
            repeat (with_reducible first
              | (lift_lets
                 intro y
                 first
                 | (have hy : Keeps W r y := (by
                      unfold y
                      repeat (with_reducible first
                        | assumption | intro _ | apply keeps_ite | apply keeps_foldl | apply mbRun_keeps
                        | apply mbEnd_keeps | apply freeDomain_keeps | apply beginReset_keeps | apply keeps_dom))
                    clear_value y)
                 | clear_value y)
              | assumption | intro _ | apply keeps_ite | apply keeps_foldl | apply mbRun_keeps | apply mbEnd_keeps
              | apply freeDomain_keeps | apply beginReset_keeps | apply keeps_dom))
          clear_value x)
       | clear_value x)
    | assumption | intro _ | apply keeps_ite | apply keeps_foldl | apply mbRun_keeps | apply mbEnd_keeps
    | apply freeDomain_keeps | apply beginReset_keeps | apply keeps_dom)

theorem domQuery_keeps {r s : State} {a0} (h : Keeps W r s) : KeepsE1 W r (domQuery s a0) := by
  unfold domQuery
  repeat (with_reducible first
    | assumption | apply keeps_ite | apply keepsE1_ite | apply keepsE1_ok | exact keepsE1_error
    | refine keeps_ofE1 (by with_reducible assumption) ?_)

theorem instCreate_keeps {r s : State} {c} [May W .regs] [May W .hif] (h : Keeps W r s) : KeepsE1 W r (instCreate s c) := by
  unfold instCreate
  extract_lets d cls a pw pasid pen nv want used
  refine keepsE1_ite keepsE1_error (keepsE1_ite keepsE1_error (keepsE1_ite keepsE1_error ?_))
  split
  · refine keepsE1_ite keepsE1_error (keepsE1_ok (keeps_foldl ?_ fun _ _ hs => irqPut_keeps hs))
    repeat (with_reducible first | assumption | apply State.wr_keeps | apply State.inc_keeps | apply State.add_keeps)
  · exact keepsE1_error

theorem instDestroy_keeps {r s : State} {a0} [May W .regs] [May W .hbm] [May W .hif] [May W .dom] [May W .fil]
    [May W .grn] [May W .lck] [May W .car] [May W .stg] [May W .out] (h : Keeps W r s) : KeepsE W r (instDestroy s a0) := by
  unfold instDestroy
  repeat (with_reducible first
    | assumption | apply keeps_ite | apply keepsE_ite | apply keepsE_ok | exact keepsE_error | apply beginReset_keeps
    | refine keeps_ofE (by with_reducible assumption) ?_)

theorem instReset_keeps {r s : State} {a0} [May W .regs] [May W .hbm] [May W .hif] [May W .dom] [May W .fil]
    [May W .grn] [May W .lck] [May W .car] [May W .stg] [May W .out] (h : Keeps W r s) : KeepsE W r (instReset s a0) := by
  unfold instReset
  repeat (with_reducible first
    | assumption | apply keeps_ite | apply keepsE_ite | apply keepsE_ok | exact keepsE_error | apply beginReset_keeps
    | refine keeps_ofE (by with_reducible assumption) ?_)

theorem instQuery_keeps {r s : State} {a0} (h : Keeps W r s) : KeepsE1 W r (instQuery s a0) := by
  unfold instQuery
  repeat (with_reducible first
    | assumption | apply keeps_ite | apply keepsE1_ite | apply keepsE1_ok | exact keepsE1_error
    | refine keeps_ofE1 (by with_reducible assumption) ?_)

theorem irqWrite_keeps {r s : State} {a0} [May W .hif] (h : Keeps W r s) : KeepsE1 W r (irqWrite s a0) := by
  unfold irqWrite
  repeat (with_reducible first
    | assumption | apply keeps_ite | apply keepsE1_ite | apply keepsE1_ok | exact keepsE1_error | apply irqPut_keeps
    | refine keeps_ofE1 (by with_reducible assumption) ?_)

theorem ringCreate_keeps {r s : State} {a0} [May W .regs] [May W .dom] (h : Keeps W r s) : KeepsE1 W r (ringCreate s a0) := by
  unfold ringCreate
  repeat (with_reducible first
    | assumption | intro _ | apply keeps_ite | apply keepsE1_ite | apply keepsE1_ok | exact keepsE1_error
    | apply ringPut_keeps | apply State.wr_keeps | apply State.inc_keeps
    | refine keeps_ofE1 (by with_reducible assumption) ?_ | split)

theorem ringDestroyCmd_keeps {r s : State} {a0} [May W .regs] [May W .hif] [May W .dom] [May W .lck] [May W .car] (h
    : Keeps W r s) : KeepsE1 W r (ringDestroyCmd s a0) := by
  unfold ringDestroyCmd
  repeat (with_reducible first
    | assumption | intro _ | apply keeps_ite | apply keepsE1_ite | apply keepsE1_ok | exact keepsE1_error
    | apply destroyRing_keeps | refine keeps_ofE1 (by with_reducible assumption) ?_ | split)

theorem ringModify_keeps {r s : State} {a0} [May W .dom] (h : Keeps W r s) : KeepsE1 W r (ringModify s a0) := by
  unfold ringModify
  repeat (with_reducible first
    | assumption | apply keeps_ite | apply keepsE1_ite | apply keepsE1_ok | exact keepsE1_error | apply ringPut_keeps
    | refine keeps_ofE1 (by with_reducible assumption) ?_ | split)

theorem resetComplete_keeps {r s : State} {a0} [May W .regs] [May W .hif] [May W .dom] [May W .lck] [May W .hsk]
    [May W .out] (h : Keeps W r s) : Keeps W r (resetComplete s a0) := by
  unfold resetComplete
  repeat (with_reducible first
    | assumption | intro _ | apply keeps_ite | apply freeInst_keeps | apply State.wr_keeps | apply unquiesce_keeps
    | apply mbEnd_keeps | apply freeDomain_keeps | split | apply keeps_hif | apply keeps_dom
    | refine keeps_mk ?_ (fun p hp => by cases p <;> first | exact rfl | exact absurd May.mem hp))

end Sys2Proof.Machine
end

