-- ==== Sys2Proof/Laws/RegOpsKeep.lean ====
section
/-! SUPPORT. Each operation of Machine/RegOps.lean keeps what `Keeps` says. -/

set_option Elab.async false

namespace Sys2Proof.Machine

open Sys2Proof

variable {W : List Part}

theorem accessErr_keeps {r s : State} {a0 a1 a2} [May W .regs] (h : Keeps W r s) : Keeps W r (accessErr s a0 a1 a2) := by
  unfold accessErr
  repeat (with_reducible first
    | assumption | apply keeps_ite | apply State.inc_keeps | apply State.wr_keeps)

theorem writeField_keeps {r s : State} {a0 a1 a2} [May W .regs] (h : Keeps W r s) : Keeps1 W r (writeField s a0 a1 a2) := by
  unfold writeField
  repeat (with_reducible first
    | assumption | apply keeps_ite | apply keeps1_ite | apply State.wr_keeps
    | refine keeps_of1 (by with_reducible assumption) ?_ | exact keeps_fst (by with_reducible assumption) | split
    | apply keeps1_mk)

theorem writeFields_keeps {r : State} [May W .regs] (k : List (Fld × List Nat × Nat)) : ∀ {s : State} {a0 a1}, Keeps W r s
    → Keeps1 W r (writeFields s k a0 a1) := by
  induction k with
  | nil =>
    intro s a0 a1 h
    rw [writeFields]
    repeat (with_reducible first
      | assumption | apply keeps_ite | apply keeps1_ite | apply writeField_keeps
      | refine keeps_of1 (by with_reducible assumption) ?_ | exact keeps_fst (by with_reducible assumption)
      | refine keeps_fst (writeField_keeps ?_) | split | apply keeps1_mk)
  | cons x l ih =>
    intro s a0 a1 h
    rw [writeFields]
    repeat (with_reducible first
      | assumption | apply keeps_ite | apply keeps1_ite | apply writeField_keeps | apply ih
      | refine keeps_of1 (by with_reducible assumption) ?_ | exact keeps_fst (by with_reducible assumption)
      | refine keeps_fst (writeField_keeps ?_) | split | apply keeps1_mk)

theorem writeWord_keeps {r s : State} {a0 a1 a2 a3 a4} [May W .regs] (h : Keeps W r s)
    : Keeps W r (writeWord s a0 a1 a2 a3 a4) := by
  unfold writeWord
  repeat (with_reducible first
    | assumption | intro _ | apply keeps_ite | apply keeps1_ite | apply writeFields_keeps | apply accessErr_keeps
    | refine keeps_of1 (by with_reducible assumption) ?_ | exact keeps_fst (by with_reducible assumption)
    | refine keeps_fst (writeFields_keeps _ ?_) | split | apply keeps1_mk)

end Sys2Proof.Machine
end

