-- ==== Sys2Proof/Laws/FilOpsKeep.lean ====
section
/-! SUPPORT. Each operation of Machine/FilOps.lean keeps what `Keeps` says. -/

set_option Elab.async false

namespace Sys2Proof.Machine

open Sys2Proof

variable {W : List Part}

theorem xw_keeps {r s : State} {a0 a1 a2} [May W .fil] (h : Keeps W r s) : Keeps W r (xw s a0 a1 a2) := by
  unfold xw
  repeat (with_reducible first
    | assumption | apply keeps_ite | apply hartPut_keeps)

theorem csrPut_keeps {r s : State} {a0 a1 a2} [May W .fil] (h : Keeps W r s) : Keeps W r (csrPut s a0 a1 a2) := by
  unfold csrPut
  repeat (with_reducible first
    | assumption | apply hartPut_keeps)

theorem fw_keeps {r s : State} {a0 a1 a2} [May W .fil] (h : Keeps W r s) : Keeps W r (fw s a0 a1 a2) := by
  unfold fw
  repeat (with_reducible first
    | assumption | apply hartPut_keeps | apply csrPut_keeps)

theorem setPc_keeps {r s : State} {a0 a1} [May W .fil] (h : Keeps W r s) : Keeps W r (setPc s a0 a1) := by
  unfold setPc
  repeat (with_reducible first
    | assumption | apply hartPut_keeps)

theorem trapEnter_keeps {r s : State} {a0 a1 a2 a3} [May W .regs] [May W .fil] (h : Keeps W r s)
    : Keeps W r (trapEnter s a0 a1 a2 a3) := by
  unfold trapEnter
  repeat (with_reducible first
    | assumption | apply keeps_ite | apply csrPut_keeps | apply hartPut_keeps | apply State.inc_keeps
    | apply State.wr_keeps)

theorem issueTake_keeps {r s : State} {a0} [May W .fil] [May W .free] (h : Keeps W r s) : KeepsO W r (issueTake s a0) := by
  unfold issueTake
  repeat (with_reducible first
    | assumption | apply keeps_ite | apply keeps2_ite | apply keepsO_ite | apply keepsO_some | exact keepsO_none
    | apply State.freeBits_keeps | apply State.reset_keeps | refine keeps_of2 (by with_reducible assumption) ?_
    | exact keeps_snd (by with_reducible assumption) | refine keeps_snd (State.freeBits_keeps ?_)
    | refine keeps_ofO (by with_reducible assumption) ?_ | split | apply keeps2_mk | refine keeps_fil ?_ rfl rfl)

theorem hartReset_keeps {r s : State} {a0} [May W .regs] [May W .fil] (h : Keeps W r s) : Keeps W r (hartReset s a0) := by
  unfold hartReset
  repeat (with_reducible first
    | assumption | apply keeps_ite | apply hartPut_keeps | apply State.wr_keeps | apply setPc_keeps
    | apply State.reset_keeps)

theorem releaseHart_keeps {r s : State} {a0} [May W .regs] [May W .fil] (h : Keeps W r s) : Keeps W r (releaseHart s a0) := by
  unfold releaseHart
  repeat (with_reducible first
    | assumption | apply keeps_ite | apply State.wr_keeps | apply hartReset_keeps)

end Sys2Proof.Machine
end

