-- ==== Sys2Proof/Laws/PwrOpsKeep.lean ====
section
/-! SUPPORT. Each operation of Machine/PwrOps.lean keeps what `Keeps` says. -/

set_option Elab.async false

namespace Sys2Proof.Machine

open Sys2Proof

variable {W : List Part}

theorem putPwr_keeps {r s : State} {a0} [May W .pwr] (h : Keeps W r s) : Keeps W r (putPwr s a0) := by
  unfold putPwr
  repeat (with_reducible first
    | assumption | apply keeps_pwr)

theorem pwrCount_keeps {r s : State} {a0} [May W .regs] (h : Keeps W r s) : Keeps W r (pwrCount s a0) := by
  unfold pwrCount
  repeat (with_reducible first
    | assumption | apply State.inc_keeps)

theorem whenUp_keeps {r s : State} {a0} (h : Keeps W r s) (ha0 : ∀ s, Keeps W r s → Runs W r (a0 s)) :
    Runs W r (whenUp s a0) := by
  unfold whenUp
  repeat (with_reducible first
    | assumption | apply keeps_ite | apply runs_ite | apply runs_next | intro _ | apply ha0)

theorem whenOn_keeps {r s : State} {a0} (h : Keeps W r s) (ha0 : ∀ s, Keeps W r s → Runs W r (a0 s)) :
    Runs W r (whenOn s a0) := by
  unfold whenOn
  repeat (with_reducible first
    | assumption | apply keeps_ite | apply runs_ite | apply runs_next | intro _ | apply ha0)

theorem setDomOn_keeps {r s : State} {a0 a1} [May W .regs] (h : Keeps W r s) : Keeps W r (setDomOn s a0 a1) := by
  unfold setDomOn
  repeat (with_reducible first
    | assumption | apply State.wr_keeps)

theorem setHeld_keeps {r s : State} {a0 a1} [May W .regs] (h : Keeps W r s) : Keeps W r (setHeld s a0 a1) := by
  unfold setHeld
  repeat (with_reducible first
    | assumption | apply State.wr_keeps)

theorem domShow_keeps {r s : State} {a0} [May W .regs] (h : Keeps W r s) : Keeps W r (domShow s a0) := by
  unfold domShow
  repeat (with_reducible first
    | assumption | apply keeps_ite | apply State.wr_keeps | apply hskShow_keeps | apply grnShow_keeps)

theorem clearPipe_keeps {r s : State} {a0} [May W .regs] [May W .win] (h : Keeps W r s) : Keeps W r (clearPipe s a0) := by
  unfold clearPipe
  repeat (with_reducible first
    | assumption | apply waitShow_keeps | apply putWin_keeps)

theorem leavePipe_keeps {r s : State} {a0} [May W .regs] [May W .win] (h : Keeps W r s) : Keeps W r (leavePipe s a0) := by
  unfold leavePipe
  repeat (with_reducible first
    | assumption | intro _ | apply keeps_foldl | apply clearPipe_keeps | apply putWin_keeps | apply toInternal_keeps
    | apply setDomOn_keeps)

theorem clearCache_keeps {r s : State} {a0} [May W .regs] [May W .hsk] (h : Keeps W r s) : Keeps W r (clearCache s a0) := by
  unfold clearCache
  repeat (with_reducible first
    | assumption | apply State.wr_keeps | apply putHsk_keeps)

theorem loseDomain_keeps {r s : State} {d} [May W .regs] [May W .hif] [May W .fil] [May W .eth] [May W .win]
    [May W .grn] [May W .tly] [May W .hsk] [May W .stg] [May W .out] (h : Keeps W r s) : Keeps W r (loseDomain s d) := by
  unfold loseDomain
  split
  · have h1 : Keeps W r ((List.range 8).foldl (fun s t =>
      let s := hartPut s (8 * d + t) Hart.reset
      if hartSt s (8 * d + t) = hsRetired then s else s.wr R.FIL_HART_CTL.STATE [8 * d + t] hsReset) s) :=
      keeps_foldl h fun s t hs => keeps_ite (hartPut_keeps hs) (State.wr_keeps (hartPut_keeps hs))
    generalize (List.range 8).foldl _ s = u at h1 ⊢
    exact keeps_fil' h1 (SMap.wf_filter _) id
  · repeat (with_reducible first
      | assumption | split | apply clearCache_keeps | apply leavePipe_keeps | apply putWin_keeps | apply State.add_keeps
      | exact keeps_foldl h fun s t hs => loseLink_keeps hs
      | exact keeps_foldl h fun s t hs => keeps_ite hs (rpOff_keeps hs))

theorem gateOff_keeps {r s : State} {a0} [May W .regs] [May W .hif] [May W .fil] [May W .eth] [May W .win] [May W .grn]
    [May W .tly] [May W .hsk] [May W .stg] [May W .out] (h : Keeps W r s) : Keeps W r (gateOff s a0) := by
  unfold gateOff
  repeat (with_reducible first
    | assumption | apply keeps_ite | apply domShow_keeps | apply setHeld_keeps | apply setDomOn_keeps
    | apply loseDomain_keeps)

theorem powerOn_keeps {r s : State} {a0} [May W .regs] [May W .hif] [May W .fil] [May W .stg] [May W .out] (h
    : Keeps W r s) : Keeps W r (powerOn s a0) := by
  unfold powerOn
  repeat (with_reducible first
    | assumption | intro _ | apply keeps_ite | apply keeps_foldl | apply setHeld_keeps | apply domShow_keeps
    | apply setDomOn_keeps | apply hartReset_keeps | apply rpPowerOn_keeps)

theorem trimDomain_keeps {r s : State} {a0} [May W .regs] [May W .hif] [May W .fil] [May W .eth] [May W .win]
    [May W .grn] [May W .tly] [May W .hsk] [May W .stg] [May W .out] (h : Keeps W r s) : Keeps W r (trimDomain s a0) := by
  unfold trimDomain
  repeat (with_reducible first
    | assumption | apply keeps_ite | apply gateOff_keeps | apply pwrCount_keeps | apply setHeld_keeps
    | apply powerOn_keeps)

theorem refusePwr_keeps {r s : State} {a0} [May W .regs] (h : Keeps W r s) : Keeps W r (refusePwr s a0) := by
  unfold refusePwr
  repeat (with_reducible first
    | assumption | apply State.wr_keeps)

theorem rpLinks_keeps {r s : State} {a0} [May W .out] (h : Keeps W r s) : Keeps W r (rpLinks s a0) := by
  unfold rpLinks
  repeat (with_reducible first
    | assumption | intro _ | apply State.emits_keeps)

theorem resumeTimers_keeps {r s : State} {a0} [May W .car] (h : Keeps W r s) : Keeps W r (resumeTimers s a0) := by
  unfold resumeTimers
  repeat (with_reducible first
    | assumption | apply keeps_car)

theorem enterDormant_keeps {r s : State} [May W .regs] [May W .tu] [May W .eth] [May W .pwr] [May W .out] (h
    : Keeps W r s) : Keeps W r (enterDormant s) := by
  unfold enterDormant
  repeat (with_reducible first
    | assumption | intro _ | apply keeps_ite | apply keeps_foldl | apply putPwr_keeps | apply State.wr_keeps
    | apply rpLinks_keeps | apply setDomOn_keeps | apply servoHoldover_keeps | apply hskShow_keeps
    | apply pwrCount_keeps)

theorem gateResume_keeps {r s : State} {a0} [May W .regs] [May W .eth] [May W .tly] [May W .out] (h : Keeps W r s)
    : Keeps W r (gateResume s a0) := by
  unfold gateResume
  repeat (with_reducible first
    | (lift_lets
       intro x
       first
       | (have hx : Keeps W r x := (by
            unfold x
            repeat (with_reducible first
              | assumption | intro _ | apply keeps_ite | apply gateTakeOver_keeps | apply gateTx_keeps
              | apply gateApply_keeps | split))
          clear_value x)
       | clear_value x)
    | assumption | intro _ | apply keeps_ite | apply gateTakeOver_keeps | apply gateTx_keeps | apply gateApply_keeps
    | split)

theorem exitDormant_keeps {r s : State} {a0} [May W .regs] [May W .hbm] [May W .hif] [May W .fil] [May W .rev]
    [May W .tu] [May W .eth] [May W .stk] [May W .win] [May W .grn] [May W .tly] [May W .car] [May W .pwr] [May W .out]
    [May W .free] (h : Keeps W r s) : Keeps W r (exitDormant s a0) := by
  unfold exitDormant
  repeat (with_reducible first
    | assumption | intro _ | apply keeps_ite | apply keeps2_ite | apply keeps_foldl | apply keeps2_foldl
    | apply State.wr_keeps | apply hskShow_keeps | apply linkActive_keeps | apply resumeTimers_keeps
    | apply rpLinks_keeps | apply gateResume_keeps | apply State.freeBits_keeps | apply putPwr_keeps
    | apply pwrCount_keeps | apply unitReceive_keeps | refine keeps_of2 (by with_reducible assumption) ?_
    | exact keeps_snd (by with_reducible assumption) | refine keeps_snd (State.freeBits_keeps ?_) | split
    | apply keeps2_mk)

theorem abortDormant_keeps {r s : State} [May W .regs] [May W .pwr] (h : Keeps W r s) : Keeps W r (abortDormant s) := by
  unfold abortDormant
  repeat (with_reducible first
    | assumption | apply pwrCount_keeps | apply State.wr_keeps | apply putPwr_keeps)

theorem wakeDormant_keeps {r s : State} {a0} [May W .regs] [May W .hbm] [May W .hif] [May W .fil] [May W .rev]
    [May W .tu] [May W .eth] [May W .stk] [May W .win] [May W .grn] [May W .tly] [May W .car] [May W .pwr] [May W .out]
    [May W .free] (h : Keeps W r s) : Keeps W r (wakeDormant s a0) := by
  unfold wakeDormant
  repeat (with_reducible first
    | assumption | apply keeps_ite | apply exitDormant_keeps | apply abortDormant_keeps)

theorem fromHost_keeps {r s : State} {a0} [May W .regs] [May W .hbm] [May W .hif] [May W .fil] [May W .rev] [May W .tu]
    [May W .eth] [May W .stk] [May W .win] [May W .grn] [May W .tly] [May W .car] [May W .pwr] [May W .out] [May W .free]
    (h : Keeps W r s) (ha0 : ∀ s, Keeps W r s → Runs W r (a0 s)) :
    Runs W r (fromHost s a0) := by
  unfold fromHost
  repeat (with_reducible first
    | assumption | apply keeps_ite | apply runs_ite | apply runs_next | intro _ | apply wakeDormant_keeps | apply ha0)

theorem fromWire_keeps {r s : State} {a0 a1 a2} [May W .regs] [May W .hbm] [May W .hif] [May W .fil] [May W .rev]
    [May W .tu] [May W .eth] [May W .stk] [May W .win] [May W .grn] [May W .tly] [May W .car] [May W .pwr] [May W .out]
    [May W .free] (h : Keeps W r s) (ha2 : ∀ s, Keeps W r s → Runs W r (a2 s)) :
    Runs W r (fromWire s a0 a1 a2) := by
  unfold fromWire
  repeat (with_reducible first
    | assumption | apply keeps_ite | apply runs_ite | apply runs_next | intro _ | apply ethCount_keeps
    | apply wakeDormant_keeps | apply ha2)

theorem drainHeld_keeps {r s : State} [May W .regs] [May W .hbm] [May W .hif] [May W .dom] [May W .fil] [May W .eth]
    [May W .win] [May W .grn] [May W .tly] [May W .pwr] [May W .out] [May W .free] (h : Keeps W r s)
    : Keeps W r (drainHeld s) := by
  unfold drainHeld
  repeat (with_reducible first
    | assumption | intro _ | apply keeps_ite | apply keeps_foldl | apply portReceive_keeps | apply putPwr_keeps)

theorem wireIn_keeps {r s : State} {a0 a1} [May W .regs] [May W .hbm] [May W .hif] [May W .dom] [May W .fil]
    [May W .eth] [May W .win] [May W .grn] [May W .tly] [May W .pwr] [May W .out] [May W .free] (h : Keeps W r s)
    : Keeps W r (wireIn s a0 a1) := by
  unfold wireIn
  repeat (with_reducible first
    | assumption | apply keeps_ite | apply putPwr_keeps | apply ethCount_keeps | apply portReceive_keeps
    | apply drainHeld_keeps | split)

theorem fromStack_keeps {r s : State} {a0 a1 a2} [May W .regs] [May W .hbm] [May W .hif] [May W .fil] [May W .rev]
    [May W .tu] [May W .eth] [May W .stk] [May W .win] [May W .grn] [May W .tly] [May W .car] [May W .pwr] [May W .out]
    [May W .free] (h : Keeps W r s) (ha2 : ∀ s, Keeps W r s → Runs W r (a2 s)) :
    Runs W r (fromStack s a0 a1 a2) := by
  unfold fromStack
  repeat (with_reducible first
    | (lift_lets
       intro x
       first
       | (have hx : Keeps W r x := (by
            unfold x
            repeat (with_reducible first
              | (lift_lets
                 intro y
                 first
                 | (have hy : Keeps W r y := (by
                      unfold y
                      repeat (with_reducible first
                        | assumption | apply keeps_ite | apply runs_ite | apply runs_next | intro _
                        | apply wakeDormant_keeps | apply putPwr_keeps | apply ha2))
                    clear_value y)
                 | clear_value y)
              | assumption | apply keeps_ite | apply runs_ite | apply runs_next | intro _ | apply wakeDormant_keeps
              | apply putPwr_keeps | apply ha2))
          clear_value x)
       | clear_value x)
    | assumption | apply keeps_ite | apply runs_ite | apply runs_next | intro _ | apply wakeDormant_keeps
    | apply putPwr_keeps | apply ha2)

theorem fromDomain_keeps {r s : State} {a0 a1} [May W .regs] [May W .hbm] [May W .hif] [May W .fil] [May W .rev]
    [May W .tu] [May W .eth] [May W .stk] [May W .win] [May W .grn] [May W .tly] [May W .car] [May W .pwr] [May W .out]
    [May W .free] (h : Keeps W r s) (ha1 : ∀ s, Keeps W r s → Runs W r (a1 s)) :
    Runs W r (fromDomain s a0 a1) := by
  unfold fromDomain
  repeat (with_reducible first
    | assumption | apply keeps_ite | apply runs_ite | apply runs_next | intro _ | apply fromHost_keeps
    | apply whenUp_keeps | apply ha1 | split)

theorem latchStraps_keeps {r s : State} [May W .regs] (h : Keeps W r s) : Keeps W r (latchStraps s) := by
  unfold latchStraps
  repeat (with_reducible first
    | assumption | intro _ | apply keeps_foldl | apply State.wr_keeps)

theorem release_keeps {r s : State} [May W .regs] [May W .hif] [May W .fil] [May W .eth] [May W .win] [May W .grn]
    [May W .tly] [May W .hsk] [May W .stg] [May W .out] (h : Keeps W r s) : Keeps W r (release s) := by
  unfold release
  repeat (with_reducible first
    | assumption | intro _ | apply keeps_ite | apply keeps_foldl | apply State.wr_keeps | apply gateOff_keeps
    | apply State.emits_keeps | apply hskShow_keeps | apply State.reset_keeps)

theorem clearBlocks_keeps {r s : State} [May W .regs] [May W .hif] [May W .dom] [May W .fil] [May W .rev] [May W .tu]
    [May W .eth] [May W .stk] [May W .win] [May W .grn] [May W .tly] [May W .lck] [May W .hsk] [May W .car]
    [May W .stg] [May W .pwr] [May W .trust] [May W .out] (h : Keeps W r s) : Keeps W r (clearBlocks s) := by
  unfold clearBlocks
  refine ⟨h.1, h.2, h.3.trans ?_, h.4, h.5, fun _ => rfl, fun _ n _ => Nat.zero_le _, fun p hp => ?_⟩
  · dsimp only
    rw [List.append_assoc]
    exact List.prefix_append _ _
  · cases p <;> first | exact h.8 _ hp | exact absurd May.mem hp

theorem afterClear_keeps {r s : State} [May W .regs] (h : Keeps W r s) : Keeps W r (afterClear s) := by
  unfold afterClear
  repeat (with_reducible first
    | assumption | intro _ | apply keeps_ite | apply keeps_foldl | apply State.wr_keeps)

theorem setLost_keeps {r s : State} {a0} [May W .regs] (h : Keeps W r s) : Keeps W r (setLost s a0) := by
  unfold setLost
  repeat (with_reducible first
    | assumption | apply State.wr_keeps)

theorem warmReset_keeps {r s : State} {a0} [May W .regs] [May W .hif] [May W .dom] [May W .fil] [May W .rev]
    [May W .tu] [May W .eth] [May W .stk] [May W .win] [May W .grn] [May W .tly] [May W .lck] [May W .hsk] [May W .car]
    [May W .stg] [May W .pwr] [May W .trust] [May W .out] (h : Keeps W r s) : Keeps W r (warmReset s a0) := by
  unfold warmReset
  repeat (with_reducible first
    | assumption | apply afterClear_keeps | apply clearBlocks_keeps | apply setLost_keeps | apply release_keeps
    | apply State.wr_keeps | apply pwrCount_keeps)

theorem enterStandby_keeps {r s : State} {a0} [May W .regs] [May W .hif] [May W .dom] [May W .fil] [May W .rev]
    [May W .tu] [May W .eth] [May W .stk] [May W .win] [May W .grn] [May W .tly] [May W .lck] [May W .hsk] [May W .car]
    [May W .stg] [May W .pwr] [May W .trust] [May W .out] (h : Keeps W r s) : Keeps W r (enterStandby s a0) := by
  unfold enterStandby
  repeat (with_reducible first
    | assumption | intro _ | apply keeps_foldl | apply afterClear_keeps | apply clearBlocks_keeps
    | apply State.wr_keeps | apply putPwr_keeps | apply pwrCount_keeps)

theorem exitStandby_keeps {r s : State} {a0} [May W .regs] [May W .hif] [May W .fil] [May W .eth] [May W .win]
    [May W .grn] [May W .tly] [May W .hsk] [May W .stg] [May W .pwr] [May W .out] (h : Keeps W r s)
    : Keeps W r (exitStandby s a0) := by
  unfold exitStandby
  repeat (with_reducible first
    | assumption | apply keeps_ite | apply putPwr_keeps | apply setLost_keeps | apply release_keeps
    | apply State.wr_keeps)

theorem wake_keeps {r s : State} {a0} [May W .regs] [May W .hbm] [May W .hif] [May W .fil] [May W .rev] [May W .tu]
    [May W .eth] [May W .stk] [May W .win] [May W .grn] [May W .tly] [May W .hsk] [May W .car] [May W .stg]
    [May W .pwr] [May W .out] [May W .free] (h : Keeps W r s) : Keeps W r (wake s a0) := by
  unfold wake
  repeat (with_reducible first
    | assumption | apply keeps_ite | apply exitStandby_keeps | apply wakeDormant_keeps)

theorem readCause_keeps {r s : State} [May W .regs] [May W .rev] (h : Keeps W r s) : Keeps W r (readCause s) := by
  unfold readCause
  repeat (with_reducible first
    | assumption | apply keeps_ite | apply State.wr_keeps | split | apply keeps_rev)

theorem applyClears_keeps {r s : State} [May W .regs] [May W .rev] (h : Keeps W r s) : Keeps W r (applyClears s) := by
  unfold applyClears
  repeat (with_reducible first
    | assumption | intro _ | apply keeps_foldl | apply markRetired_keeps)

theorem coldReset_keeps {r s : State} {p k q} [May W .regs] [May W .hbm] [May W .hif] [May W .dom] [May W .fil]
    [May W .rev] [May W .tu] [May W .eth] [May W .stk] [May W .win] [May W .grn] [May W .tly] [May W .lck] [May W .hsk]
    [May W .car] [May W .stg] [May W .pwr] [May W .trust] [May W .out] [May W .free] (h : Keeps W r s)
    : Keeps W r (coldReset s p k q) := by
  unfold coldReset
  extract_lets t00 t0 rv x1 x2 x3 x4 t1 t2 t3 t4 t5
  have h0 : Keeps W r t0 := clearBlocks_keeps (applyClears_keeps h)
  clear_value t0
  have h1 : Keeps W r t1 := ⟨h0.1, h0.2, h0.3, h0.4, fun _ => rfl, h0.6, h0.7,
    fun p hp => by cases p <;> first | exact h0.8 _ hp | exact absurd May.mem hp⟩
  clear_value t1
  have h2 : Keeps W r t2 := State.wr_keeps h1
  clear_value t2
  have h3 : Keeps W r t3 := keeps_ite (State.emit_keeps (State.emit_keeps h2)) h2
  clear_value t3
  have h5 : Keeps W r t5 := State.wr_keeps (latchStraps_keeps h3)
  clear_value t5
  split
  rename_i e
  have h6 := keeps_of2 e (State.freeBits_keeps h5)
  clear e
  repeat (with_reducible first
    | assumption | (dsimp only; apply keeps_ite) | apply keeps_ite | apply pwrCount_keeps | apply State.wr_keeps | apply
        setLost_keeps | apply readCause_keeps
    | apply afterClear_keeps | apply release_keeps)

theorem loseSupply_keeps {r s : State} [May W .regs] [May W .hbm] [May W .hif] [May W .dom] [May W .fil] [May W .rev]
    [May W .tu] [May W .eth] [May W .stk] [May W .win] [May W .grn] [May W .tly] [May W .lck] [May W .hsk] [May W .car]
    [May W .stg] [May W .pwr] [May W .trust] [May W .out] [May W .free] (h : Keeps W r s) : Keeps W r (loseSupply s) := by
  have k : ∀ t x y z, Keeps W r t → Keeps W r { t with regs := x, pwr := y, trust := z } := fun t x y z ht =>
    keeps_mk ht (fun p hp => by cases p <;> first | exact rfl | exact absurd May.mem hp)
  exact k _ _ _ _ (coldReset_keeps h)

end Sys2Proof.Machine
end

