-- ==== Sys2Proof/Laws/CarterKeep.lean ====
section
/-! SUPPORT. Each operation of Machine/Carter.lean keeps what `Keeps` says. -/

set_option Elab.async false

namespace Sys2Proof.Machine

open Sys2Proof

variable {W : List Part}

theorem execWireWrite_runs {r s : State} {a0} [May W .regs] [May W .hbm] [May W .hif] [May W .dom] [May W .fil]
    [May W .rev] [May W .win] [May W .grn] [May W .car] [May W .stg] [May W .out] [May W .free] (h : Keeps W r s)
    : Runs W r (execWireWrite a0 s) := by
  unfold execWireWrite
  repeat (with_reducible first
    | assumption | intro _ | apply runs_next | apply whenUp_keeps | apply rxWrite_keeps)

theorem execWireWriteImm_runs {r s : State} {a0} [May W .regs] [May W .hbm] [May W .hif] [May W .dom] [May W .fil]
    [May W .rev] [May W .win] [May W .grn] [May W .car] [May W .stg] [May W .out] [May W .free] (h : Keeps W r s)
    : Runs W r (execWireWriteImm a0 s) := by
  unfold execWireWriteImm
  repeat (with_reducible first
    | assumption | intro _ | apply runs_next | apply whenUp_keeps | apply rxWrite_keeps)

theorem execWireSend_runs {r s : State} {a0} [May W .regs] [May W .hbm] [May W .hif] [May W .dom] [May W .fil]
    [May W .win] [May W .grn] [May W .car] [May W .stg] [May W .out] [May W .free] (h : Keeps W r s)
    : Runs W r (execWireSend a0 s) := by
  unfold execWireSend
  repeat (with_reducible first
    | assumption | intro _ | apply runs_next | apply whenUp_keeps | apply rxSend_keeps)

theorem execWireSendImm_runs {r s : State} {a0} [May W .regs] [May W .hbm] [May W .hif] [May W .dom] [May W .fil]
    [May W .win] [May W .grn] [May W .car] [May W .stg] [May W .out] [May W .free] (h : Keeps W r s)
    : Runs W r (execWireSendImm a0 s) := by
  unfold execWireSendImm
  repeat (with_reducible first
    | assumption | intro _ | apply runs_next | apply whenUp_keeps | apply rxSend_keeps)

theorem execReadReq_runs {r s : State} {a0 a1} [May W .regs] [May W .hbm] [May W .hif] [May W .dom] [May W .fil]
    [May W .rev] [May W .win] [May W .grn] [May W .car] [May W .stg] [May W .out] [May W .free] (h : Keeps W r s)
    : Runs W r (execReadReq a0 a1 s) := by
  unfold execReadReq
  repeat (with_reducible first
    | assumption | intro _ | apply runs_next | apply whenUp_keeps | apply rxReadReq_keeps)

theorem execReadResp_runs {r s : State} {a0} [May W .regs] [May W .hbm] [May W .hif] [May W .dom] [May W .fil]
    [May W .win] [May W .grn] [May W .car] [May W .stg] [May W .out] [May W .free] (h : Keeps W r s)
    : Runs W r (execReadResp a0 s) := by
  unfold execReadResp
  repeat (with_reducible first
    | assumption | intro _ | apply runs_next | apply whenUp_keeps | apply rxResp_keeps)

theorem execWireAtomic_runs {r s : State} {a0 a1} [May W .regs] [May W .hbm] [May W .hif] [May W .dom] [May W .fil]
    [May W .rev] [May W .win] [May W .grn] [May W .car] [May W .stg] [May W .out] [May W .free] (h : Keeps W r s)
    : Runs W r (execWireAtomic a0 a1 s) := by
  unfold execWireAtomic
  repeat (with_reducible first
    | assumption | intro _ | apply runs_next | apply whenUp_keeps | apply rxAtomic_keeps)

theorem execAtomicResp_runs {r s : State} {a0} [May W .regs] [May W .hbm] [May W .hif] [May W .dom] [May W .fil]
    [May W .win] [May W .grn] [May W .car] [May W .stg] [May W .out] [May W .free] (h : Keeps W r s)
    : Runs W r (execAtomicResp a0 s) := by
  unfold execAtomicResp
  repeat (with_reducible first
    | assumption | intro _ | apply runs_next | apply whenUp_keeps | apply rxResp_keeps)

theorem execAck_runs {r s : State} [May W .regs] [May W .hbm] [May W .hif] [May W .dom] [May W .fil] [May W .win]
    [May W .grn] [May W .car] [May W .stg] [May W .out] [May W .free] (h : Keeps W r s) : Runs W r (execAck s) := by
  unfold execAck
  repeat (with_reducible first
    | assumption | intro _ | apply runs_next | apply whenUp_keeps | apply rxAck_keeps)

theorem execNak_runs {r s : State} [May W .regs] [May W .hbm] [May W .hif] [May W .dom] [May W .fil] [May W .win]
    [May W .grn] [May W .car] [May W .stg] [May W .out] [May W .free] (h : Keeps W r s) : Runs W r (execNak s) := by
  unfold execNak
  repeat (with_reducible first
    | assumption | intro _ | apply runs_next | apply whenUp_keeps | apply rxNak_keeps)

theorem execCredit_runs {r s : State} [May W .regs] [May W .hbm] [May W .hif] [May W .dom] [May W .fil] [May W .win]
    [May W .grn] [May W .car] [May W .stg] [May W .out] [May W .free] (h : Keeps W r s) : Runs W r (execCredit s) := by
  unfold execCredit
  repeat (with_reducible first
    | assumption | intro _ | apply runs_next | apply whenUp_keeps | apply rxCredit_keeps)

theorem execCreditRpt_runs {r s : State} [May W .regs] [May W .hbm] [May W .hif] [May W .dom] [May W .fil] [May W .win]
    [May W .grn] [May W .car] [May W .stg] [May W .out] [May W .free] (h : Keeps W r s) : Runs W r (execCreditRpt s) := by
  unfold execCreditRpt
  repeat (with_reducible first
    | assumption | intro _ | apply runs_next | apply whenUp_keeps | apply rxReport_keeps)

theorem execDataPacketSend_runs {r s : State} {a0 a1} [May W .regs] [May W .hbm] [May W .hif] [May W .dom] [May W .fil]
    [May W .win] [May W .grn] [May W .car] [May W .stg] [May W .out] (h : Keeps W r s)
    : Runs W r (execDataPacketSend a0 a1 s) := by
  unfold execDataPacketSend
  repeat (with_reducible first
    | assumption | intro _ | apply runs_next | apply whenUp_keeps | apply sendNew_keeps)

theorem execRetransmit_runs {r s : State} {a0 a1} [May W .regs] [May W .hbm] [May W .hif] [May W .dom] [May W .fil]
    [May W .rev] [May W .win] [May W .grn] [May W .car] [May W .stg] [May W .out] [May W .free] (h : Keeps W r s)
    : Runs W r (execRetransmit a0 a1 s) := by
  unfold execRetransmit
  repeat (with_reducible first
    | assumption | intro _ | apply runs_next | apply whenUp_keeps | apply resend_keeps)

theorem execRetransmitTimeout_runs {r s : State} {a0} [May W .regs] [May W .now] [May W .hbm] [May W .hif] [May W .dom]
    [May W .fil] [May W .tu] [May W .win] [May W .grn] [May W .car] [May W .stg] [May W .out] [May W .free] (h
    : Keeps W r s) : Runs W r (execRetransmitTimeout a0 s) := by
  unfold execRetransmitTimeout
  repeat (with_reducible first
    | assumption | intro _ | apply runs_next | apply whenUp_keeps | apply rtoExpire_keeps)

theorem execRnrDelayExpiry_runs {r s : State} {a0 a1} [May W .regs] [May W .now] [May W .hbm] [May W .fil] [May W .tu]
    [May W .car] [May W .out] [May W .free] (h : Keeps W r s) : Runs W r (execRnrDelayExpiry a0 a1 s) := by
  unfold execRnrDelayExpiry
  repeat (with_reducible first
    | assumption | intro _ | apply runs_next | apply whenUp_keeps | apply rnrExpire_keeps)

theorem execCreditRepeat_runs {r s : State} {a0} [May W .regs] [May W .now] [May W .hbm] [May W .hif] [May W .dom]
    [May W .fil] [May W .tu] [May W .win] [May W .grn] [May W .car] [May W .stg] [May W .out] [May W .free] (h
    : Keeps W r s) : Runs W r (execCreditRepeat a0 s) := by
  unfold execCreditRepeat
  repeat (with_reducible first
    | assumption | intro _ | apply runs_next | apply whenUp_keeps | apply creditRepeat_keeps)

theorem execCreditRptRepeat_runs {r s : State} {a0} [May W .regs] [May W .now] [May W .hbm] [May W .hif] [May W .dom]
    [May W .fil] [May W .tu] [May W .win] [May W .grn] [May W .car] [May W .stg] [May W .out] [May W .free] (h
    : Keeps W r s) : Runs W r (execCreditRptRepeat a0 s) := by
  unfold execCreditRptRepeat
  repeat (with_reducible first
    | assumption | intro _ | apply runs_next | apply whenUp_keeps | apply reportRepeat_keeps)

theorem execAckDelayExpiry_runs {r s : State} {a0} [May W .regs] [May W .now] [May W .hbm] [May W .hif] [May W .dom]
    [May W .fil] [May W .tu] [May W .win] [May W .grn] [May W .car] [May W .stg] [May W .out] [May W .free] (h
    : Keeps W r s) : Runs W r (execAckDelayExpiry a0 s) := by
  unfold execAckDelayExpiry
  repeat (with_reducible first
    | assumption | intro _ | apply runs_next | apply whenUp_keeps | apply ackDelayEnd_keeps)

theorem execWrite_runs {r s : State} {a0 a1} [May W .regs] [May W .hbm] [May W .hif] [May W .dom] [May W .fil]
    [May W .win] [May W .grn] [May W .car] [May W .stg] [May W .out] [May W .free] (h : Keeps W r s)
    : Runs W r (execWrite a0 a1 s) := by
  unfold execWrite
  repeat (with_reducible first
    | assumption | intro _ | apply runs_next | apply whenUp_keeps | apply doMsg_keeps)

theorem execWriteImm_runs {r s : State} {a0 a1} [May W .regs] [May W .hbm] [May W .hif] [May W .dom] [May W .fil]
    [May W .win] [May W .grn] [May W .car] [May W .stg] [May W .out] [May W .free] (h : Keeps W r s)
    : Runs W r (execWriteImm a0 a1 s) := by
  unfold execWriteImm
  repeat (with_reducible first
    | assumption | intro _ | apply runs_next | apply whenUp_keeps | apply doMsg_keeps)

theorem execSend_runs {r s : State} {a0 a1} [May W .regs] [May W .hbm] [May W .hif] [May W .dom] [May W .fil]
    [May W .win] [May W .grn] [May W .car] [May W .stg] [May W .out] [May W .free] (h : Keeps W r s)
    : Runs W r (execSend a0 a1 s) := by
  unfold execSend
  repeat (with_reducible first
    | assumption | intro _ | apply runs_next | apply whenUp_keeps | apply doMsg_keeps)

theorem execSendImm_runs {r s : State} {a0 a1} [May W .regs] [May W .hbm] [May W .hif] [May W .dom] [May W .fil]
    [May W .win] [May W .grn] [May W .car] [May W .stg] [May W .out] [May W .free] (h : Keeps W r s)
    : Runs W r (execSendImm a0 a1 s) := by
  unfold execSendImm
  repeat (with_reducible first
    | assumption | intro _ | apply runs_next | apply whenUp_keeps | apply doMsg_keeps)

theorem execRead_runs {r s : State} {a0} [May W .regs] [May W .hbm] [May W .hif] [May W .dom] [May W .fil] [May W .car]
    [May W .out] (h : Keeps W r s) : Runs W r (execRead a0 s) := by
  unfold execRead
  repeat (with_reducible first
    | assumption | intro _ | apply runs_next | apply whenUp_keeps | apply doRead_keeps)

theorem execAtomic_runs {r s : State} {a0} [May W .regs] [May W .hbm] [May W .hif] [May W .dom] [May W .fil]
    [May W .car] [May W .out] (h : Keeps W r s) : Runs W r (execAtomic a0 s) := by
  unfold execAtomic
  repeat (with_reducible first
    | assumption | intro _ | apply runs_next | apply whenUp_keeps | apply doAtomic_keeps)

theorem execRecv_runs {r s : State} {a0} [May W .regs] [May W .hif] [May W .dom] [May W .out] (h : Keeps W r s)
    : Runs W r (execRecv a0 s) := by
  unfold execRecv
  repeat (with_reducible first
    | assumption | intro _ | apply runs_next | apply whenUp_keeps | apply doRecv_keeps)

theorem execConnAlloc_runs {r s : State} {a0} [May W .regs] [May W .hbm] [May W .hif] [May W .dom] [May W .fil]
    [May W .car] [May W .out] [May W .free] (h : Keeps W r s) : Runs W r (execConnAlloc a0 s) := by
  unfold execConnAlloc
  repeat (with_reducible first
    | assumption | intro _ | apply runs_next | apply whenUp_keeps | apply doAlloc_keeps)

theorem execConnConnect_runs {r s : State} {a0 a1} [May W .regs] [May W .hbm] [May W .hif] [May W .dom] [May W .fil]
    [May W .win] [May W .grn] [May W .car] [May W .stg] [May W .out] [May W .free] (h : Keeps W r s)
    : Runs W r (execConnConnect a0 a1 s) := by
  unfold execConnConnect
  repeat (with_reducible first
    | assumption | intro _ | apply runs_next | apply whenUp_keeps | apply doConnect_keeps)

theorem execConnDestroy_runs {r s : State} {a0} [May W .regs] [May W .hbm] [May W .hif] [May W .dom] [May W .fil]
    [May W .grn] [May W .car] [May W .stg] [May W .out] (h : Keeps W r s) : Runs W r (execConnDestroy a0 s) := by
  unfold execConnDestroy
  repeat (with_reducible first
    | assumption | intro _ | apply runs_next | apply whenUp_keeps | apply connDestroyOp_keeps)

theorem execConnQuery_runs {r s : State} {a0} [May W .regs] [May W .hbm] [May W .hif] [May W .dom] [May W .fil]
    [May W .car] [May W .out] (h : Keeps W r s) : Runs W r (execConnQuery a0 s) := by
  unfold execConnQuery
  repeat (with_reducible first
    | assumption | intro _ | apply runs_next | apply whenUp_keeps | apply doConnQuery_keeps)

theorem execMrReg_runs {r s : State} {a0} [May W .regs] [May W .hbm] [May W .hif] [May W .dom] [May W .fil]
    [May W .car] [May W .out] [May W .free] (h : Keeps W r s) : Runs W r (execMrReg a0 s) := by
  unfold execMrReg
  repeat (with_reducible first
    | assumption | intro _ | apply runs_next | apply whenUp_keeps | apply doMrReg_keeps)

theorem execMrDereg_runs {r s : State} {a0} [May W .regs] [May W .hif] [May W .dom] [May W .car] [May W .out] (h
    : Keeps W r s) : Runs W r (execMrDereg a0 s) := by
  unfold execMrDereg
  repeat (with_reducible first
    | assumption | intro _ | apply runs_next | apply whenUp_keeps | apply doMrDereg_keeps)

theorem execContextFetchComplete_runs {r s : State} {a0 a1} [May W .regs] [May W .now] [May W .hbm] [May W .hif]
    [May W .dom] [May W .fil] [May W .rev] [May W .tu] [May W .win] [May W .grn] [May W .car] [May W .stg] [May W .out]
    [May W .free] (h : Keeps W r s) :
    Runs W r (execContextFetchComplete a0 a1 s) := by
  unfold execContextFetchComplete
  repeat (with_reducible first
    | assumption | intro _ | apply runs_next | apply whenUp_keeps | apply fetchDone_keeps)

theorem execEviction_runs {r s : State} {a0} [May W .regs] [May W .hbm] [May W .hif] [May W .dom] [May W .fil]
    [May W .win] [May W .grn] [May W .car] [May W .stg] [May W .out] [May W .free] (h : Keeps W r s)
    : Runs W r (execEviction a0 s) := by
  unfold execEviction
  repeat (with_reducible first
    | assumption | intro _ | apply runs_next | apply whenUp_keeps | apply makeRoom_keeps)

theorem execContextWritebackComplete_runs {r s : State} {a0 a1} [May W .regs] [May W .hbm] [May W .hif] [May W .dom]
    [May W .fil] [May W .win] [May W .grn] [May W .car] [May W .stg] [May W .out] (h : Keeps W r s) :
    Runs W r (execContextWritebackComplete a0 a1 s) := by
  unfold execContextWritebackComplete
  repeat (with_reducible first
    | assumption | intro _ | apply runs_next | apply whenUp_keeps | apply writebackDone_keeps)

theorem execEvictPendingExpiry_runs {r s : State} {a0} [May W .regs] [May W .now] [May W .hbm] [May W .hif]
    [May W .dom] [May W .fil] [May W .tu] [May W .win] [May W .grn] [May W .car] [May W .stg] [May W .out] [May W .free]
    (h : Keeps W r s) : Runs W r (execEvictPendingExpiry a0 s) := by
  unfold execEvictPendingExpiry
  repeat (with_reducible first
    | assumption | intro _ | apply runs_next | apply whenUp_keeps | apply evictExpire_keeps)

theorem execClosingComplete_runs {r s : State} {a0} [May W .regs] [May W .hif] [May W .dom] [May W .car] [May W .out] (h
    : Keeps W r s) : Runs W r (execClosingComplete a0 s) := by
  unfold execClosingComplete
  repeat (with_reducible first
    | assumption | intro _ | apply runs_next | apply whenUp_keeps | apply closingDone_keeps)

theorem execCarterEnable_runs {r s : State} {a0} [May W .regs] [May W .hbm] [May W .hif] [May W .fil] [May W .rev]
    [May W .tu] [May W .eth] [May W .stk] [May W .win] [May W .grn] [May W .tly] [May W .car] [May W .pwr] [May W .out]
    [May W .free] (h : Keeps W r s) : Runs W r (execCarterEnable a0 s) := by
  unfold execCarterEnable
  repeat (with_reducible first
    | assumption | intro _ | apply runs_next | apply fromHost_keeps | apply carEnable_keeps)

theorem execPathWrite_runs {r s : State} {a0 a1} [May W .regs] [May W .hif] [May W .dom] [May W .car] [May W .out]
    [May W .free] (h : Keeps W r s) : Runs W r (execPathWrite a0 a1 s) := by
  unfold execPathWrite
  repeat (with_reducible first
    | assumption | intro _ | apply runs_next | apply whenUp_keeps | apply pathWrite_keeps)

end Sys2Proof.Machine
end

