-- ==== Sys2Proof/Laws/Ctrl.lean ====
section
/-! SUPPORT. What a CTRL operation comes to: one record that is applied ends its descriptor with success. -/

set_option Elab.async false

namespace Sys2Proof.Machine

open Sys2Proof

theorem ctrlRun_one {s s' u : State} {r op size k : Nat} {d data : Bytes} {early : State → Nat → Option Nat}
    {f : Nat → State → Bytes → RecRes} (h : CtrlOne s r op size k d data u) (e : early s (ctrlArg d) = none)
    (g : f (ctrlArg d) u (slice data 0 (ctrlStride size)) = .ok s' none) :
    ctrlRun s r op size (.ok data) early f = ctrlEnd s' r k d stSuccess 1 := by
  obtain ⟨h1, h2, h3, h4, rfl⟩ := h
  unfold ctrlRun
  rw [h1]
  dsimp only
  rw [h2, if_neg (by decide), e]
  dsimp only
  rw [if_neg (by omega), Nat.one_mul]
  simp [ctrlRecs, g, h4, stSuccess, stMalformed, stBusy, stNotMaster]

theorem ctrlRun_back {s s' u : State} {r op size k off : Nat} {d data b : Bytes} {early : State → Nat → Option Nat}
    {f : Nat → State → Bytes → RecRes} (h : CtrlOne s r op size k d data u) (e : early s (ctrlArg d) = none)
    (g : f (ctrlArg d) u (slice data 0 (ctrlStride size)) = .ok s' (some (off, b))) :
    ctrlRun s r op size (.ok data) early f = ctrlEnd (ringWrite s' r (ctrlAddr d + off) b) r k d stSuccess 1 := by
  obtain ⟨h1, h2, h3, h4, rfl⟩ := h
  unfold ctrlRun
  rw [h1]
  dsimp only
  rw [h2, if_neg (by decide), e]
  dsimp only
  rw [if_neg (by omega), Nat.one_mul]
  simp [ctrlRecs, g, h4, stSuccess, stMalformed, stBusy, stNotMaster]

theorem ctrlPlain_head {s : State} {r op k : Nat} {d : Bytes} {f : State → State} (h : headOp s r 5 op = some (k, d)) :
    ctrlPlain s r op f = ctrlEnd (f s) r k d stSuccess 0 := by
  unfold ctrlPlain
  rw [h]

theorem mbRun_front {s u : State} {op : Nat} {c : MbxCmd} {f : State → MbxCmd → State} (h : MbxFront s op c u) :
    mbRun s op f = f u c := by
  obtain ⟨h1, h2, h3, h4, h5⟩ := h
  unfold mbRun
  rw [h1]
  dsimp only
  rw [if_neg (by simp [h2]), h3, if_neg (by simp only [h4]; decide), if_pos rfl, ← h5]

theorem nvFetch_front {s u : State} {k q op : Nat} {b : Bytes} {y : NvSq} {run : State → Bytes → State}
    (h : NvFront s k q op b y u) : nvFetch s k q op (.ok b) run = run u b := by
  obtain ⟨h1, h2, h3, h4, h5, h6, h7, rfl⟩ := h
  unfold nvFetch
  rw [h1]
  dsimp only
  rw [if_neg (by simp [h2, h3]), if_neg (by simp [h4]), if_neg (by simp [h7]), if_neg (by simp [h4]), if_neg (by simp [h5, h6])]

theorem hartStep_ready {s u : State} {h : Nat} {f : State → State} (r : HartReady s h u) : hartStep s h f = f u := by
  obtain ⟨h1, h2, h3, h4, h5⟩ := r
  unfold hartStep
  rw [if_neg (by simp [h1])]
  obtain ⟨v, e1, e2⟩ := Option.map_eq_some_iff.1 h2
  rw [e1]
  dsimp only
  rw [e2, h3, if_neg (by decide)]
  unfold hartCycle
  simp [h4, h5]

end Sys2Proof.Machine
end

