-- ==== Sys2Proof/Laws/EthKeep.lean ====
section
/-! SUPPORT. Each operation of Machine/Eth.lean keeps what `Keeps` says. -/

set_option Elab.async false

namespace Sys2Proof.Machine

open Sys2Proof

variable {W : List Part}

theorem execEthApply_runs {r s : State} {a0} [May W .regs] [May W .hbm] [May W .hif] [May W .fil] [May W .rev]
    [May W .tu] [May W .eth] [May W .stk] [May W .win] [May W .grn] [May W .tly] [May W .car] [May W .pwr] [May W .out]
    [May W .free] (h : Keeps W r s) : Runs W r (execEthApply a0 s) := by
  unfold execEthApply
  repeat (with_reducible first
    | assumption | intro _ | apply runs_next | apply fromHost_keeps | apply ethApply_keeps)

theorem execPortQualified_runs {r s : State} {a0} [May W .regs] [May W .now] [May W .tu] [May W .eth] [May W .stk]
    [May W .grn] [May W .tly] [May W .out] [May W .free] (h : Keeps W r s) : Runs W r (execPortQualified a0 s) := by
  unfold execPortQualified
  repeat (with_reducible first
    | assumption | intro _ | apply runs_next | apply whenOn_keeps | apply portQualify_keeps)

theorem execHoldTimerExpiry_runs {r s : State} {a0} [May W .regs] [May W .now] [May W .tu] [May W .eth] [May W .grn]
    [May W .tly] [May W .out] [May W .free] (h : Keeps W r s) : Runs W r (execHoldTimerExpiry a0 s) := by
  unfold execHoldTimerExpiry
  repeat (with_reducible first
    | assumption | intro _ | apply runs_next | apply whenOn_keeps | apply holdExpire_keeps | apply clockTo_keeps)

theorem execLinkTrainingTimeout_runs {r s : State} {a0} [May W .out] (h : Keeps W r s)
    : Runs W r (execLinkTrainingTimeout a0 s) := by
  unfold execLinkTrainingTimeout
  repeat (with_reducible first
    | assumption | intro _ | apply keeps_ite | apply runs_ite | apply runs_next | apply whenOn_keeps
    | apply State.emit_keeps)

theorem verifyTimeout_keeps {r s : State} {a0} [May W .regs] [May W .eth] [May W .out] (h : Keeps W r s)
    : Keeps W r (verifyTimeout s a0) := by
  unfold verifyTimeout
  repeat (with_reducible first
    | assumption | apply keeps_ite | apply keeps2_ite | apply State.wr_keeps | apply State.emit_keeps
    | apply verify_keeps | refine keeps_of2 (by with_reducible assumption) ?_
    | exact keeps_snd (by with_reducible assumption) | refine keeps_snd (verify_keeps ?_) | apply keeps2_mk
    | apply keeps_eth)

theorem execVerifyTimeout_runs {r s : State} {a0} [May W .regs] [May W .eth] [May W .out] (h : Keeps W r s)
    : Runs W r (execVerifyTimeout a0 s) := by
  unfold execVerifyTimeout
  repeat (with_reducible first
    | assumption | intro _ | apply runs_next | apply whenOn_keeps | apply verifyTimeout_keeps)

theorem cdrLoss_keeps {r s : State} {a0 a1} [May W .regs] [May W .hif] [May W .fil] [May W .rev] [May W .eth]
    [May W .grn] [May W .tly] [May W .out] (h : Keeps W r s) : Keeps W r (cdrLoss s a0 a1) := by
  unfold cdrLoss
  repeat (with_reducible first
    | assumption | intro _ | apply keeps_ite | apply laneLock_keeps | apply loseLink_keeps | apply laneFail_keeps
    | split)

theorem execLaneCdrLoss_runs {r s : State} {a0 a1} [May W .regs] [May W .hif] [May W .fil] [May W .rev] [May W .eth]
    [May W .grn] [May W .tly] [May W .out] (h : Keeps W r s) : Runs W r (execLaneCdrLoss a0 a1 s) := by
  unfold execLaneCdrLoss
  repeat (with_reducible first
    | assumption | intro _ | apply runs_next | apply whenOn_keeps | apply cdrLoss_keeps)

theorem pmdFault_keeps {r s : State} {a0} [May W .regs] [May W .hif] [May W .fil] [May W .rev] [May W .eth]
    [May W .grn] [May W .tly] [May W .out] (h : Keeps W r s) : Keeps W r (pmdFault s a0) := by
  unfold pmdFault
  repeat (with_reducible first
    | assumption | apply laneLock_keeps | apply loseLink_keeps | apply laneFail_keeps | split)

theorem execPmdFault_runs {r s : State} {a0} [May W .regs] [May W .hif] [May W .fil] [May W .rev] [May W .eth]
    [May W .grn] [May W .tly] [May W .out] (h : Keeps W r s) : Runs W r (execPmdFault a0 s) := by
  unfold execPmdFault
  repeat (with_reducible first
    | assumption | intro _ | apply runs_next | apply whenOn_keeps | apply pmdFault_keeps)

theorem linkLost_keeps {r s : State} {a0 a1} [May W .regs] [May W .hif] [May W .fil] [May W .rev] [May W .eth]
    [May W .grn] [May W .tly] [May W .out] (h : Keeps W r s) : Keeps W r (linkLost s a0 a1) := by
  unfold linkLost
  repeat (with_reducible first
    | assumption | apply keeps_ite | apply loseLink_keeps | apply setQual_keeps | apply cdrLoss_keeps
    | apply pmdFault_keeps | apply State.wr_keeps | split)

theorem execLinkLost_runs {r s : State} {a0 a1} [May W .regs] [May W .hif] [May W .fil] [May W .rev] [May W .eth]
    [May W .grn] [May W .tly] [May W .out] (h : Keeps W r s) : Runs W r (execLinkLost a0 a1 s) := by
  unfold execLinkLost
  repeat (with_reducible first
    | assumption | intro _ | apply keeps_ite | apply runs_ite | apply runs_next | apply whenOn_keeps
    | apply linkLost_keeps)

theorem fecBurst_keeps {r s : State} {a0 a1 a2} [May W .regs] [May W .hif] [May W .fil] [May W .rev] [May W .eth]
    [May W .grn] [May W .tly] [May W .out] (h : Keeps W r s) : Keeps W r (fecBurst s a0 a1 a2) := by
  unfold fecBurst
  repeat (with_reducible first
    | assumption | apply keeps_ite | apply ethCount_keeps | apply laneFail_keeps | split)

theorem execFecUncorrectedBurst_runs {r s : State} {a0 a1 a2} [May W .regs] [May W .hif] [May W .fil] [May W .rev]
    [May W .eth] [May W .grn] [May W .tly] [May W .out] (h : Keeps W r s) :
    Runs W r (execFecUncorrectedBurst a0 a1 a2 s) := by
  unfold execFecUncorrectedBurst
  repeat (with_reducible first
    | assumption | intro _ | apply runs_next | apply whenOn_keeps | apply fecBurst_keeps)

theorem execLaneLockAcquired_runs {r s : State} {a0} [May W .regs] [May W .eth] [May W .out] (h : Keeps W r s)
    : Runs W r (execLaneLockAcquired a0 s) := by
  unfold execLaneLockAcquired
  repeat (with_reducible first
    | assumption | intro _ | apply keeps_ite | apply runs_ite | apply runs_next | apply whenOn_keeps
    | apply laneLock_keeps)

end Sys2Proof.Machine
end

