-- ==== Sys2Proof/Laws/HartOpsKeep.lean ====
section
/-! SUPPORT. Each operation of Machine/HartOps.lean keeps what `Keeps` says. -/

set_option Elab.async false

namespace Sys2Proof.Machine

open Sys2Proof

variable {W : List Part}

theorem retireTo_keeps {r s : State} {a0 a1} [May W .fil] (h : Keeps W r s) : Keeps W r (retireTo s a0 a1) := by
  unfold retireTo
  repeat (with_reducible first
    | assumption | apply csrPut_keeps | apply setPc_keeps)

theorem pcNext_keeps {r s : State} {a0} [May W .fil] (h : Keeps W r s) : Keeps W r (pcNext s a0) := by
  unfold pcNext
  repeat (with_reducible first
    | assumption | apply csrPut_keeps | apply retireTo_keeps)

theorem haltHart_keeps {r s : State} {a0 a1} [May W .regs] [May W .fil] (h : Keeps W r s) : Keeps W r (haltHart s a0 a1) := by
  unfold haltHart
  repeat (with_reducible first
    | assumption | apply keeps_ite | apply State.wr_keeps | apply csrPut_keeps)

theorem trigFire_keeps {r s : State} {a0 a1 a2} [May W .regs] [May W .fil] (h : Keeps W r s)
    : Keeps W r (trigFire s a0 a1 a2) := by
  unfold trigFire
  repeat (with_reducible first
    | assumption | apply keeps_ite | apply csrPut_keeps | apply haltHart_keeps | apply trapEnter_keeps)

theorem hartCycle_keeps {r s : State} {a0 a1 a2} [May W .regs] [May W .fil] (h : Keeps W r s) (ha2 : ∀ s, Keeps W r s
    → Keeps W r (a2 s)) :
    Keeps W r (hartCycle s a0 a1 a2) := by
  unfold hartCycle
  repeat (with_reducible first
    | assumption | apply keeps_ite | intro _ | apply trapEnter_keeps | apply trigFire_keeps | apply ha2 | split)

theorem stepHalt_keeps {r s : State} {a0} [May W .regs] [May W .fil] (h : Keeps W r s) : Keeps W r (stepHalt s a0) := by
  unfold stepHalt
  repeat (with_reducible first
    | assumption | apply keeps_ite | apply haltHart_keeps)

theorem hartStep_keeps {r s : State} {a0 a1} [May W .regs] [May W .now] [May W .fil] [May W .rev] [May W .tu]
    [May W .out] [May W .free] (h : Keeps W r s) (ha1 : ∀ s, Keeps W r s → Keeps W r (a1 s)) :
    Keeps W r (hartStep s a0 a1) := by
  unfold hartStep
  repeat (with_reducible first
    | assumption | apply keeps_ite | apply keepsO_ite | intro _ | apply issueTake_keeps | apply dutyTake_keeps
    | apply hartCycle_keeps | apply stepHalt_keeps | apply ha1 | refine keeps_ofO (by with_reducible assumption) ?_
    | split)

end Sys2Proof.Machine
end

