-- ==== Sys2Proof/Laws/FilbertKeep.lean ====
section
/-! SUPPORT. Each operation of Machine/Filbert.lean keeps what `Keeps` says. -/

set_option Elab.async false

namespace Sys2Proof.Machine

open Sys2Proof

variable {W : List Part}

theorem xelv_keeps {r s : State} {a0 a1 a2 a3} [May W .regs] [May W .fil] (h : Keeps W r s) (ha3 : ∀ s, Keeps W r s
    → Keeps W r (a3 s)) :
    Keeps W r (xelv s a0 a1 a2 a3) := by
  unfold xelv
  repeat (with_reducible first
    | assumption | apply keeps_ite | intro _ | apply trapEnter_keeps | apply ha3)

theorem send_room {s : State} {h n : Nat} (e : sendStatus s h n = 0) : (chanMsgs s n).length < hwDepth n ∨ hwDepth n = 0 := by
  unfold sendStatus at e
  by_cases c : n < 8192
  · exact .inr (hwDepth_soft c)
  · rw [if_neg c] at e
    by_cases d : hwDepth n = 0
    · exact .inr d
    · rw [if_neg d] at e
      by_cases f : (chanMsgs s n).length ≥ hwDepth n
      · rw [if_pos f] at e
        exact nomatch e
      · exact .inl (Nat.lt_of_not_le f)

theorem doChSend_keeps {r s : State} {a0 a1 a2} [May W .regs] [May W .fil] (h : Keeps W r s)
    : Keeps W r (doChSend s a0 a1 a2) := by
  unfold doChSend
  refine xelv_keeps h fun s hs => ?_
  dsimp only
  refine pcNext_keeps (xw_keeps (State.inc_keeps ?_))
  split
  · rename_i e
    exact chanPush_keeps hs (send_room e)
  · exact hs

theorem doChRecv_keeps {r s : State} {a0 a1 a2} [May W .regs] [May W .fil] (h : Keeps W r s)
    : Keeps W r (doChRecv s a0 a1 a2) := by
  unfold doChRecv
  refine xelv_keeps h fun s hs => ?_
  dsimp only
  split
  · exact pcNext_keeps (xw_keeps hs)
  · split
    · exact pcNext_keeps (xw_keeps hs)
    · rename_i e
      refine pcNext_keeps (xw_keeps (hartPut_keeps (chanSet_keeps hs (.inl ?_))))
      rw [e]
      exact Nat.le_succ _

theorem doChFill_keeps {r s : State} {a0 a1 a2} [May W .regs] [May W .fil] (h : Keeps W r s)
    : Keeps W r (doChFill s a0 a1 a2) := by
  unfold doChFill
  repeat (with_reducible first
    | assumption | intro _ | apply keeps_ite | apply xelv_keeps | apply pcNext_keeps | apply xw_keeps)

theorem doEvSend_keeps {r s : State} {a0 a1 a2 a3} [May W .regs] [May W .fil] (h : Keeps W r s)
    : Keeps W r (doEvSend s a0 a1 a2 a3) := by
  unfold doEvSend
  repeat (with_reducible first
    | assumption | intro _ | apply keeps_ite | apply xelv_keeps | apply pcNext_keeps | apply State.inc_keeps
    | apply xw_keeps | apply latchEv_keeps)

theorem evTake_keeps {r s : State} {a0 a1 a2} [May W .fil] (h : Keeps W r s) : Keeps W r (evTake s a0 a1 a2) := by
  unfold evTake
  repeat (with_reducible first
    | assumption | apply hartPut_keeps | apply pcNext_keeps | apply xw_keeps)

theorem doEvWait_keeps {r s : State} {a0 a1 a2} [May W .regs] [May W .fil] (h : Keeps W r s)
    : Keeps W r (doEvWait s a0 a1 a2) := by
  unfold doEvWait
  repeat (with_reducible first
    | assumption | intro _ | apply keeps_ite | apply xelv_keeps | apply evTake_keeps | apply State.wr_keeps
    | apply hartPut_keeps)

theorem doEvPoll_keeps {r s : State} {a0 a1 a2} [May W .regs] [May W .fil] (h : Keeps W r s)
    : Keeps W r (doEvPoll s a0 a1 a2) := by
  unfold doEvPoll
  repeat (with_reducible first
    | assumption | intro _ | apply xelv_keeps | apply evTake_keeps)

theorem wakeHart_keeps {r s : State} {a0} [May W .regs] [May W .fil] (h : Keeps W r s) : Keeps W r (wakeHart s a0) := by
  unfold wakeHart
  repeat (with_reducible first
    | assumption | apply keeps_ite | apply evTake_keeps | apply State.wr_keeps | apply trapEnter_keeps | split)

theorem execChSend_runs {r s : State} {a0 a1 a2} [May W .regs] [May W .now] [May W .fil] [May W .rev] [May W .tu]
    [May W .out] [May W .free] (h : Keeps W r s) : Runs W r (execChSend a0 a1 a2 s) := by
  unfold execChSend
  repeat (with_reducible first
    | assumption | intro _ | apply runs_next | apply hartStep_keeps | apply doChSend_keeps)

theorem execChRecv_runs {r s : State} {a0 a1 a2} [May W .regs] [May W .now] [May W .fil] [May W .rev] [May W .tu]
    [May W .out] [May W .free] (h : Keeps W r s) : Runs W r (execChRecv a0 a1 a2 s) := by
  unfold execChRecv
  repeat (with_reducible first
    | assumption | intro _ | apply runs_next | apply hartStep_keeps | apply doChRecv_keeps)

theorem execChFill_runs {r s : State} {a0 a1 a2} [May W .regs] [May W .now] [May W .fil] [May W .rev] [May W .tu]
    [May W .out] [May W .free] (h : Keeps W r s) : Runs W r (execChFill a0 a1 a2 s) := by
  unfold execChFill
  repeat (with_reducible first
    | assumption | intro _ | apply runs_next | apply hartStep_keeps | apply doChFill_keeps)

theorem execEvSend_runs {r s : State} {a0 a1 a2 a3} [May W .regs] [May W .now] [May W .fil] [May W .rev] [May W .tu]
    [May W .out] [May W .free] (h : Keeps W r s) : Runs W r (execEvSend a0 a1 a2 a3 s) := by
  unfold execEvSend
  repeat (with_reducible first
    | assumption | intro _ | apply runs_next | apply hartStep_keeps | apply doEvSend_keeps)

theorem execEvWait_runs {r s : State} {a0 a1 a2} [May W .regs] [May W .now] [May W .fil] [May W .rev] [May W .tu]
    [May W .out] [May W .free] (h : Keeps W r s) : Runs W r (execEvWait a0 a1 a2 s) := by
  unfold execEvWait
  repeat (with_reducible first
    | assumption | intro _ | apply runs_next | apply hartStep_keeps | apply doEvWait_keeps)

theorem execEvPoll_runs {r s : State} {a0 a1 a2} [May W .regs] [May W .now] [May W .fil] [May W .rev] [May W .tu]
    [May W .out] [May W .free] (h : Keeps W r s) : Runs W r (execEvPoll a0 a1 a2 s) := by
  unfold execEvPoll
  repeat (with_reducible first
    | assumption | intro _ | apply runs_next | apply hartStep_keeps | apply doEvPoll_keeps)

theorem execEvWaitWake_runs {r s : State} {a0} [May W .regs] [May W .fil] (h : Keeps W r s)
    : Runs W r (execEvWaitWake a0 s) := by
  unfold execEvWaitWake
  repeat (with_reducible first
    | assumption | apply runs_next | apply wakeHart_keeps)

theorem execTimerInterrupt_runs {r s : State} {a0} [May W .regs] [May W .fil] (h : Keeps W r s)
    : Runs W r (execTimerInterrupt a0 s) := by
  unfold execTimerInterrupt
  repeat (with_reducible first
    | assumption | apply keeps_ite | apply runs_ite | apply runs_next | apply wakeHart_keeps | apply trapEnter_keeps)

theorem execIrqPendWrite_runs {r s : State} {a0 a1} [May W .regs] [May W .hbm] [May W .hif] [May W .fil] [May W .rev]
    [May W .tu] [May W .eth] [May W .stk] [May W .win] [May W .grn] [May W .tly] [May W .car] [May W .pwr] [May W .out]
    [May W .free] (h : Keeps W r s) : Runs W r (execIrqPendWrite a0 a1 s) := by
  unfold execIrqPendWrite
  repeat (with_reducible first
    | assumption | intro _ | apply runs_next | apply fromHost_keeps | apply State.wr_keeps)

theorem raiseCycle_keeps {r s : State} {a0} [May W .regs] [May W .fil] (h : Keeps W r s) : Keeps W r (raiseCycle s a0) := by
  unfold raiseCycle
  repeat (with_reducible first
    | assumption | apply keeps_ite | apply latchEv_keeps | apply hartPut_keeps | apply State.wr_keeps
    | apply State.inc_keeps)

theorem sampleGroup_keeps {r s : State} {a0} [May W .regs] [May W .fil] (h : Keeps W r s) : Keeps W r (sampleGroup s a0) := by
  unfold sampleGroup
  repeat (with_reducible first
    | assumption | intro _ | apply keeps_ite | apply keeps_foldl | apply State.wr_keeps | apply hartPut_keeps
    | apply raiseCycle_keeps)

theorem execWaitcycleSample_runs {r s : State} {a0} [May W .regs] [May W .fil] (h : Keeps W r s)
    : Runs W r (execWaitcycleSample a0 s) := by
  unfold execWaitcycleSample
  repeat (with_reducible first
    | assumption | apply runs_next | apply sampleGroup_keeps)

theorem issueApply_keeps {r s : State} {a0} [May W .regs] [May W .fil] (h : Keeps W r s) : Keeps W r (issueApply s a0) := by
  unfold issueApply
  repeat (with_reducible first
    | assumption | apply keeps_ite | apply State.wr_keeps | apply State.reset_keeps | refine keeps_fil ?_ rfl rfl)

theorem execIssueTableApply_runs {r s : State} {a0} [May W .regs] [May W .hbm] [May W .hif] [May W .fil] [May W .rev]
    [May W .tu] [May W .eth] [May W .stk] [May W .win] [May W .grn] [May W .tly] [May W .car] [May W .pwr] [May W .out]
    [May W .free] (h : Keeps W r s) : Runs W r (execIssueTableApply a0 s) := by
  unfold execIssueTableApply
  repeat (with_reducible first
    | assumption | intro _ | apply runs_next | apply fromHost_keeps | apply issueApply_keeps)

theorem execHartReset_runs {r s : State} {a0} [May W .regs] [May W .hbm] [May W .hif] [May W .fil] [May W .rev]
    [May W .tu] [May W .eth] [May W .stk] [May W .win] [May W .grn] [May W .tly] [May W .car] [May W .pwr] [May W .out]
    [May W .free] (h : Keeps W r s) : Runs W r (execHartReset a0 s) := by
  unfold execHartReset
  repeat (with_reducible first
    | assumption | intro _ | apply runs_next | apply fromHost_keeps | apply hartReset_keeps)

theorem execHartRelease_runs {r s : State} {a0} [May W .regs] [May W .hbm] [May W .hif] [May W .fil] [May W .rev]
    [May W .tu] [May W .eth] [May W .stk] [May W .win] [May W .grn] [May W .tly] [May W .car] [May W .pwr] [May W .out]
    [May W .free] (h : Keeps W r s) : Runs W r (execHartRelease a0 s) := by
  unfold execHartRelease
  repeat (with_reducible first
    | assumption | intro _ | apply runs_next | apply fromHost_keeps | apply releaseHart_keeps)

theorem execFrameBufferReturn_runs {r s : State} [May W .regs] [May W .fil] (h : Keeps W r s)
    : Runs W r (execFrameBufferReturn s) := by
  unfold execFrameBufferReturn
  refine whenUp_keeps h fun s hs => ?_
  split
  · exact runs_next hs
  · rename_i e
    refine runs_next (keeps_foldl (chanSet_keeps hs (.inl ?_)) fun _ _ hs => returnBuf_keeps hs)
    rw [e]
    exact Nat.le_succ _

theorem chanEnable_keeps {r s : State} {n} [May W .regs] [May W .fil] (h : Keeps W r s) : Keeps W r (chanEnable s n) := by
  unfold chanEnable
  repeat (with_reducible first
    | assumption | (dsimp only; split) | split | apply State.wr_keeps | exact chanSet_keeps (State.wr_keeps h) (.inl
        (Nat.zero_le _)))

theorem execChannelEnable_runs {r s : State} {a0} [May W .regs] [May W .hbm] [May W .hif] [May W .fil] [May W .rev]
    [May W .tu] [May W .eth] [May W .stk] [May W .win] [May W .grn] [May W .tly] [May W .car] [May W .pwr] [May W .out]
    [May W .free] (h : Keeps W r s) : Runs W r (execChannelEnable a0 s) := by
  unfold execChannelEnable
  repeat (with_reducible first
    | assumption | intro _ | apply runs_next | apply fromHost_keeps | apply chanEnable_keeps)

theorem execHalt_runs {r s : State} {a0} [May W .regs] [May W .fil] (h : Keeps W r s) : Runs W r (execHalt a0 s) := by
  unfold execHalt
  repeat (with_reducible first
    | assumption | intro _ | apply keeps_ite | apply runs_ite | apply runs_next | apply whenOn_keeps
    | apply haltHart_keeps)

theorem resumeHart_keeps {r s : State} {a0} [May W .regs] [May W .fil] (h : Keeps W r s) : Keeps W r (resumeHart s a0) := by
  unfold resumeHart
  repeat (with_reducible first
    | assumption | apply keeps_ite | apply hartPut_keeps | apply State.wr_keeps)

theorem execResume_runs {r s : State} {a0} [May W .regs] [May W .fil] (h : Keeps W r s) : Runs W r (execResume a0 s) := by
  unfold execResume
  repeat (with_reducible first
    | assumption | intro _ | apply keeps_ite | apply runs_ite | apply runs_next | apply whenOn_keeps
    | apply resumeHart_keeps)

theorem execHartreset_runs {r s : State} {a0} [May W .regs] [May W .fil] (h : Keeps W r s) : Runs W r (execHartreset a0 s)
    := by
  unfold execHartreset
  repeat (with_reducible first
    | assumption | intro _ | apply keeps_ite | apply runs_ite | apply runs_next | apply whenOn_keeps
    | apply hartReset_keeps)

end Sys2Proof.Machine
end

