-- ==== Sys2Proof/Laws/Guards.lean ====
section
/-! SUPPORT. A block that is awake lets every unit act: each guard of Machine/PwrOps.lean passes the command on unchanged. -/

set_option Elab.async false

namespace Sys2Proof.Machine

open Sys2Proof

section
variable {s : State} (h : Awake s)
include h

theorem awake_bellman : bellman s = false := by
  have := h.1
  simp only [asleep, Bool.or_eq_false_iff] at this
  exact this.1.1.1.1.1

theorem awake_dark : s.pwr.dark = false := by
  have := h.1
  simp only [asleep, Bool.or_eq_false_iff] at this
  exact this.1.1.1.1.2

theorem awake_not_dormant : pwrSt s ≠ psDormant := by
  have := h.1
  simp only [asleep, Bool.or_eq_false_iff, beq_eq_false_iff_ne] at this
  exact this.1.1.1.2

theorem awake_clocked : s.pwr.clkGated = false := by
  have := h.1
  simp only [asleep, Bool.or_eq_false_iff] at this
  exact this.1.2

theorem awake_image : s.pwr.noImage = false := by
  have := h.1
  simp only [asleep, Bool.or_eq_false_iff] at this
  exact this.2

theorem awake_powered : poweredOff s = false := by
  have := h.1
  simp only [asleep, Bool.or_eq_false_iff] at this
  simp only [poweredOff, Bool.or_eq_false_iff]
  exact ⟨⟨this.1.1.1.1.1, this.1.1.1.1.2⟩, this.1.1.2⟩

theorem awake_wake (n : Nat) : wakeDormant s n = s := by
  unfold wakeDormant
  rw [if_neg (awake_not_dormant h), if_neg h.2]

theorem awake_whenUp (f : State → Ans) : whenUp s f = f s := by
  unfold whenUp
  rw [h.1]
  rfl

theorem awake_whenOn (f : State → Ans) : whenOn s f = f s := by
  unfold whenOn
  rw [awake_powered h]
  rfl

theorem awake_fromHost (f : State → Ans) : fromHost s f = f s := by
  unfold fromHost
  rw [awake_powered h, awake_wake h]
  rfl

theorem awake_fromWire (p : Nat) (b : Bool) (f : State → Ans) : fromWire s p b f = f s := by
  unfold fromWire
  rw [awake_powered h, awake_clocked h, awake_image h, awake_wake h]
  have : decide (pwrSt s = psDormant) = false := decide_eq_false (awake_not_dormant h)
  rw [this]
  simp

theorem awake_fromStack (j : Nat) (u : Bytes) (f : State → Ans) : fromStack s j u f = f s := by
  unfold fromStack
  rw [awake_powered h, awake_clocked h, awake_image h, awake_wake h, if_neg (awake_not_dormant h)]
  simp

theorem awake_fromOwner (f : State → Ans) : fromDomain s .owner f = f s := awake_fromHost h f
theorem awake_fromFilbert (f : State → Ans) : fromDomain s .filbert f = f s := awake_whenUp h f
theorem awake_fromReeve (f : State → Ans) : fromDomain s .reeve f = f s := by
  unfold fromDomain
  rw [awake_bellman h, awake_dark h]
  rfl

theorem awake_fromDomain (m : MDom) (a : Allowed s m) (f : State → Ans) : fromDomain s m f = f s := by
  cases m with
  | owner => exact awake_fromOwner h f
  | filbert => exact awake_fromFilbert h f
  | reeve => exact awake_fromReeve h f
  | debug =>
    unfold fromDomain
    rw [awake_bellman h, awake_dark h, a rfl]
    rfl

end

section
variable {c : Instr} {s : State} {f : State → Ans} {p : State → Prop} (h : Awake s)
include h
/-- An awake block completes a command whose guarded meaning answers a next state. -/
theorem does_whenUp (e : exec c s = whenUp s f) (q : ∃ t, f s = .next t ∧ p t) : Does c s p :=
  by unfold Does; rw [e, awake_whenUp h]; exact q
theorem does_whenOn (e : exec c s = whenOn s f) (q : ∃ t, f s = .next t ∧ p t) : Does c s p :=
  by unfold Does; rw [e, awake_whenOn h]; exact q
theorem does_fromHost (e : exec c s = fromHost s f) (q : ∃ t, f s = .next t ∧ p t) : Does c s p :=
  by unfold Does; rw [e, awake_fromHost h]; exact q
theorem does_fromWire {n : Nat} {b : Bool} (e : exec c s = fromWire s n b f) (q : ∃ t, f s = .next t ∧ p t) : Does c s p :=
  by unfold Does; rw [e, awake_fromWire h]; exact q
theorem does_fromStack {n : Nat} {u : Bytes} (e : exec c s = fromStack s n u f) (q : ∃ t, f s = .next t ∧ p t) : Does c s p :=
  by unfold Does; rw [e, awake_fromStack h]; exact q
theorem does_fromDomain {m : MDom} (a : Allowed s m) (e : exec c s = fromDomain s m f) (q : ∃ t, f s = .next t ∧ p t) :
    Does c s p := by unfold Does; rw [e, awake_fromDomain h m a]; exact q
end

/-- A unit that sleeps does nothing. -/
theorem whenUp_asleep {s : State} (h : asleep s = true) (f : State → Ans) : whenUp s f = .next s := if_pos h
theorem whenOn_off {s : State} (h : poweredOff s = true) (f : State → Ans) : whenOn s f = .next s := if_pos h
theorem fromHost_off {s : State} (h : poweredOff s = true) (f : State → Ans) : fromHost s f = .next s := if_pos h

end Sys2Proof.Machine
end

