-- ==== Sys2Proof/Laws/HifKeep.lean ====
section
/-! SUPPORT. Each operation of Machine/Hif.lean keeps what `Keeps` says. -/

set_option Elab.async false

namespace Sys2Proof.Machine

open Sys2Proof

variable {W : List Part}

theorem tagDrop_keeps {r s : State} {a0 a1} [May W .regs] [May W .hif] (h : Keeps W r s) : Keeps W r (tagDrop s a0 a1) := by
  unfold tagDrop
  repeat (with_reducible first
    | assumption | intro _ | apply keeps_ite | apply syncTags_keeps | apply keeps_hif)

theorem tagMark_keeps {r s : State} {a0 a1 a2} [May W .regs] [May W .hif] (h : Keeps W r s)
    : Keeps W r (tagMark s a0 a1 a2) := by
  unfold tagMark
  repeat (with_reducible first
    | assumption | apply keeps_ite | apply syncTags_keeps | apply keeps_hif)

theorem sendReady_keeps {r s : State} {a0} [May W .regs] [May W .hif] [May W .out] (h : Keeps W r s)
    : Keeps W r (sendReady s a0) := by
  unfold sendReady
  repeat (with_reducible first
    | assumption | intro _ | apply keeps_ite | apply sendRead_keeps | split | apply keeps_hif)

theorem aheadFetch_keeps {r s : State} {a0 a1} [May W .regs] [May W .hbm] [May W .fil] [May W .car] (h : Keeps W r s)
    : Keeps W r (aheadFetch s a0 a1) := by
  unfold aheadFetch
  repeat (with_reducible first
    | assumption | apply keeps_ite | apply wantContext_keeps | split)

theorem deliver_keeps {r s : State} {a0 a1} [May W .regs] [May W .hbm] [May W .hif] [May W .dom] [May W .fil]
    [May W .car] [May W .out] (h : Keeps W r s) : Keeps W r (deliver s a0 a1) := by
  unfold deliver
  repeat (with_reducible first
    | assumption | apply aheadFetch_keeps | apply descArrive_keeps | apply descFail_keeps | split)

theorem doReadCompletion_keeps {r s : State} {a0 a1 a2} [May W .regs] [May W .hbm] [May W .hif] [May W .dom]
    [May W .fil] [May W .car] [May W .out] [May W .free] (h : Keeps W r s) : Keeps W r (doReadCompletion s a0 a1 a2) := by
  unfold doReadCompletion
  repeat (with_reducible first
    | assumption | apply keeps_ite | apply logUncor_keeps | apply State.inc_keeps | apply sendReady_keeps
    | apply tagDrop_keeps | apply readOutcome_keeps | apply deliver_keeps | split)

theorem execReadCompletion_runs {r s : State} {a0 a1 a2} [May W .regs] [May W .hbm] [May W .hif] [May W .dom]
    [May W .fil] [May W .rev] [May W .tu] [May W .eth] [May W .stk] [May W .win] [May W .grn] [May W .tly] [May W .car]
    [May W .pwr] [May W .out] [May W .free] (h : Keeps W r s) :
    Runs W r (execReadCompletion a0 a1 a2 s) := by
  unfold execReadCompletion
  repeat (with_reducible first
    | assumption | intro _ | apply runs_next | apply fromHost_keeps | apply doReadCompletion_keeps
    | apply linkActive_keeps)

theorem execCompletionTimeout_runs {r s : State} {a0 a1} [May W .regs] [May W .now] [May W .hbm] [May W .hif]
    [May W .dom] [May W .fil] [May W .tu] [May W .car] [May W .out] [May W .free] (h : Keeps W r s) :
    Runs W r (execCompletionTimeout a0 a1 s) := by
  unfold execCompletionTimeout
  repeat (with_reducible first
    | assumption | intro _ | apply keeps_ite | apply runs_ite | apply runs_next | apply whenOn_keeps
    | apply clockTo_keeps | apply logUncor_keeps | apply State.inc_keeps | apply tagMark_keeps | apply deliver_keeps
    | split)

theorem execQuarantineEnd_runs {r s : State} {a0 a1} [May W .regs] [May W .now] [May W .hif] [May W .tu] [May W .out]
    [May W .free] (h : Keeps W r s) : Runs W r (execQuarantineEnd a0 a1 s) := by
  unfold execQuarantineEnd
  repeat (with_reducible first
    | assumption | intro _ | apply runs_next | apply whenOn_keeps | apply sendReady_keeps | apply tagDrop_keeps
    | apply clockTo_keeps | split)

theorem heldNext_keeps {r : State} [May W .regs] [May W .hif] [May W .dom] [May W .out] (k : Nat) : ∀ {s : State}
    {a0 a1}, Keeps W r s → Keeps W r (heldNext k s a0 a1) := by
  induction k with
  | zero =>
    intro s a0 a1 h
    rw [heldNext]
    repeat (with_reducible first
      | assumption | intro _ | apply keeps_ite | apply sendTlp_keeps | apply State.inc_keeps | apply cplSent_keeps
      | apply hostWrite_keeps | apply atcTouch_keeps | apply cplFail_keeps | split | apply keeps_hif)
  | succ n ih =>
    intro s a0 a1 h
    rw [heldNext]
    repeat (with_reducible first
      | assumption | intro _ | apply keeps_ite | apply sendTlp_keeps | apply State.inc_keeps | apply cplSent_keeps
      | apply hostWrite_keeps | apply atcTouch_keeps | apply cplFail_keeps | apply ih | split | apply keeps_hif)

theorem heldFault_keeps {r s : State} {a0} [May W .regs] [May W .hif] [May W .dom] [May W .out] (h : Keeps W r s)
    : Keeps W r (heldFault s a0) := by
  unfold heldFault
  repeat (with_reducible first
    | assumption | apply keeps_ite | apply State.inc_keeps | apply descFail_keeps | apply heldNext_keeps
    | apply cplFail_keeps | split | apply keeps_hif)

theorem heldGo_keeps {r s : State} {a0 a1} [May W .regs] [May W .hif] [May W .dom] [May W .stg] [May W .out] (h
    : Keeps W r s) : Keeps W r (heldGo s a0 a1) := by
  unfold heldGo
  repeat (with_reducible first
    | assumption | apply keeps_ite | apply State.inc_keeps | apply cqPumpAll_keeps | apply heldNext_keeps
    | apply cplSent_keeps | apply hostWrite_keeps | apply sendRead_keeps | split | apply keeps_hif)

theorem heldDenied_keeps {r s : State} {a0} [May W .regs] [May W .hif] [May W .dom] [May W .out] (h : Keeps W r s)
    : Keeps W r (heldDenied s a0) := by
  unfold heldDenied
  repeat (with_reducible first
    | assumption | intro _ | apply keeps_ite | apply sendTlp_keeps | apply State.inc_keeps | apply heldFault_keeps
    | apply keeps_hif)

theorem doTranslation_keeps {r s : State} {a0 a1 a2 a3 a4} [May W .regs] [May W .hif] [May W .dom] [May W .stg]
    [May W .out] (h : Keeps W r s) :
    Keeps W r (doTranslation s a0 a1 a2 a3 a4) := by
  unfold doTranslation
  repeat (with_reducible first
    | assumption | intro _ | apply keeps_ite | apply keeps_foldl | apply sendTlp_keeps | apply State.inc_keeps
    | apply heldDenied_keeps | apply atcInsert_keeps | apply heldGo_keeps | split | apply keeps_hif)

theorem execTranslationResponse_runs {r s : State} {a0 a1 a2 a3 a4} [May W .regs] [May W .hbm] [May W .hif]
    [May W .dom] [May W .fil] [May W .rev] [May W .tu] [May W .eth] [May W .stk] [May W .win] [May W .grn] [May W .tly]
    [May W .car] [May W .stg] [May W .pwr] [May W .out] [May W .free] (h : Keeps W r s) :
    Runs W r (execTranslationResponse a0 a1 a2 a3 a4 s) := by
  unfold execTranslationResponse
  repeat (with_reducible first
    | assumption | intro _ | apply runs_next | apply fromHost_keeps | apply doTranslation_keeps
    | apply linkActive_keeps)

theorem pageEnd_keeps {r s : State} {a0 a1 a2 a3 a4} [May W .regs] [May W .hif] [May W .dom] [May W .out] (h
    : Keeps W r s) : Keeps W r (pageEnd s a0 a1 a2 a3 a4) := by
  unfold pageEnd
  repeat (with_reducible first
    | assumption | intro _ | apply keeps_ite | apply State.sub_keeps | apply sendTlp_keeps | apply State.inc_keeps
    | apply heldFault_keeps | split | apply keeps_hif)

theorem execPageRequestGroupResponse_runs {r s : State} {a0 a1 a2 a3 a4} [May W .regs] [May W .hbm] [May W .hif]
    [May W .dom] [May W .fil] [May W .rev] [May W .tu] [May W .eth] [May W .stk] [May W .win] [May W .grn] [May W .tly]
    [May W .car] [May W .pwr] [May W .out] [May W .free] (h : Keeps W r s) :
    Runs W r (execPageRequestGroupResponse a0 a1 a2 a3 a4 s) := by
  unfold execPageRequestGroupResponse
  repeat (with_reducible first
    | assumption | intro _ | apply runs_next | apply fromHost_keeps | apply State.inc_keeps | apply pageEnd_keeps
    | split)

theorem execPriTimeout_runs {r s : State} {a0 a1 a2 a3} [May W .regs] [May W .now] [May W .hif] [May W .dom]
    [May W .tu] [May W .out] [May W .free] (h : Keeps W r s) : Runs W r (execPriTimeout a0 a1 a2 a3 s) := by
  unfold execPriTimeout
  repeat (with_reducible first
    | assumption | intro _ | apply runs_next | apply whenOn_keeps | apply pageEnd_keeps | apply clockTo_keeps)

theorem doInvalidate_keeps {r s : State} {a0} [May W .regs] [May W .hif] (h : Keeps W r s) : Keeps W r (doInvalidate s a0)
    := by
  unfold doInvalidate
  repeat (with_reducible first
    | assumption | intro _ | apply keeps_ite | apply State.wr_keeps | apply State.inc_keeps | apply keeps_hif)

theorem execInvalidationRequest_runs {r s : State} {a0 a1 a2 a3 a4 a5} [May W .regs] [May W .hbm] [May W .hif]
    [May W .fil] [May W .rev] [May W .tu] [May W .eth] [May W .stk] [May W .win] [May W .grn] [May W .tly] [May W .car]
    [May W .pwr] [May W .out] [May W .free] (h : Keeps W r s) :
    Runs W r (execInvalidationRequest a0 a1 a2 a3 a4 a5 s) := by
  unfold execInvalidationRequest
  repeat (with_reducible first
    | assumption | intro _ | apply runs_next | apply fromHost_keeps | apply doInvalidate_keeps
    | apply linkActive_keeps)

theorem execInvalidationCompletion_runs {r s : State} {a0 a1 a2} [May W .regs] [May W .hif] [May W .out] (h : Keeps W r s) :
    Runs W r (execInvalidationCompletion a0 a1 a2 s) := by
  unfold execInvalidationCompletion
  repeat (with_reducible first
    | assumption | intro _ | apply keeps_ite | apply runs_ite | apply runs_next | apply whenOn_keeps
    | apply sendPosted_keeps | split | apply keeps_hif)

theorem moveFn_keeps {r s : State} {a0 a1 a2 a3} [May W .regs] (h : Keeps W r s) : Keeps W r (moveFn s a0 a1 a2 a3) := by
  unfold moveFn
  repeat (with_reducible first
    | assumption | intro _ | apply keeps_foldl | apply State.wr_keeps)

theorem dropUnissued_keeps {r s : State} {a0 a1} [May W .regs] [May W .hif] (h : Keeps W r s)
    : Keeps W r (dropUnissued s a0 a1) := by
  unfold dropUnissued
  repeat (with_reducible first
    | assumption | intro _ | apply keeps_ite | apply State.add_keeps | apply hostWrite_keeps | split
    | apply keeps_hif)

theorem busMasterOff_keeps {r s : State} {a0 a1} [May W .regs] [May W .hbm] [May W .hif] [May W .fil] [May W .car]
    [May W .stg] [May W .out] (h : Keeps W r s) : Keeps W r (busMasterOff s a0 a1) := by
  unfold busMasterOff
  repeat (with_reducible first
    | assumption | intro _ | apply keeps_ite | apply cfgPut_keeps | apply State.wr_keeps | apply dropUnissued_keeps
    | apply moveFn_keeps | apply ctlQuiesce_keeps | apply keeps_hif)

theorem execBusMasterEnableClear_runs {r s : State} {a0 a1} [May W .regs] [May W .hbm] [May W .hif] [May W .fil]
    [May W .rev] [May W .tu] [May W .eth] [May W .stk] [May W .win] [May W .grn] [May W .tly] [May W .car] [May W .stg]
    [May W .pwr] [May W .out] [May W .free] (h : Keeps W r s) :
    Runs W r (execBusMasterEnableClear a0 a1 s) := by
  unfold execBusMasterEnableClear
  repeat (with_reducible first
    | assumption | intro _ | apply keeps_ite | apply runs_ite | apply runs_next | apply fromHost_keeps
    | apply busMasterOff_keeps)

theorem d3Enter_keeps {r s : State} {a0 a1} [May W .regs] [May W .hif] (h : Keeps W r s) : Keeps W r (d3Enter s a0 a1) := by
  unfold d3Enter
  repeat (with_reducible first
    | assumption | intro _ | apply keeps_ite | apply cfgPut_keeps | apply State.wr_keeps | apply moveFn_keeps)

theorem execD3hotEntry_runs {r s : State} {a0 a1} [May W .regs] [May W .hbm] [May W .hif] [May W .fil] [May W .rev]
    [May W .tu] [May W .eth] [May W .stk] [May W .win] [May W .grn] [May W .tly] [May W .car] [May W .pwr] [May W .out]
    [May W .free] (h : Keeps W r s) : Runs W r (execD3hotEntry a0 a1 s) := by
  unfold execD3hotEntry
  repeat (with_reducible first
    | assumption | intro _ | apply keeps_ite | apply runs_ite | apply runs_next | apply fromHost_keeps
    | apply d3Enter_keeps)

theorem d0Enter_keeps {r s : State} {a0 a1} [May W .regs] [May W .hif] (h : Keeps W r s) : Keeps W r (d0Enter s a0 a1) := by
  unfold d0Enter
  repeat (with_reducible first
    | assumption | intro _ | apply keeps_ite | apply cfgPut_keeps | apply State.wr_keeps | apply moveFn_keeps)

theorem execD0Return_runs {r s : State} {a0 a1} [May W .regs] [May W .hbm] [May W .hif] [May W .fil] [May W .rev]
    [May W .tu] [May W .eth] [May W .stk] [May W .win] [May W .grn] [May W .tly] [May W .car] [May W .pwr] [May W .out]
    [May W .free] (h : Keeps W r s) : Runs W r (execD0Return a0 a1 s) := by
  unfold execD0Return
  repeat (with_reducible first
    | assumption | intro _ | apply keeps_ite | apply runs_ite | apply runs_next | apply fromHost_keeps
    | apply d0Enter_keeps)

theorem aspmEnter_keeps {r s : State} {a0 a1} [May W .regs] [May W .out] (h : Keeps W r s) : Keeps W r (aspmEnter s a0 a1)
    := by
  unfold aspmEnter
  repeat (with_reducible first
    | assumption | apply keeps_ite | apply clkreqShow_keeps | apply State.wr_keeps)

theorem execAspmL1Entry_runs {r s : State} {a0 a1} [May W .regs] [May W .out] (h : Keeps W r s)
    : Runs W r (execAspmL1Entry a0 a1 s) := by
  unfold execAspmL1Entry
  repeat (with_reducible first
    | assumption | intro _ | apply runs_next | apply whenOn_keeps | apply aspmEnter_keeps)

theorem creditsSet_keeps {r s : State} {a0 a1 a2 a3} [May W .hif] (h : Keeps W r s) : Keeps W r (creditsSet s a0 a1 a2 a3)
    := by
  unfold creditsSet
  repeat (with_reducible first
    | assumption | apply keeps_ite | apply keeps_hif)

theorem execHostLinkUp_runs {r s : State} {a0 a1 a2 a3 a4} [May W .regs] [May W .hif] (h : Keeps W r s) :
    Runs W r (execHostLinkUp a0 a1 a2 a3 a4 s) := by
  unfold execHostLinkUp
  repeat (with_reducible first
    | assumption | intro _ | apply keeps_ite | apply runs_ite | apply runs_next | apply keeps_foldl
    | apply whenOn_keeps | apply State.wr_keeps | apply creditsSet_keeps)

theorem drainStalled_keeps {r : State} [May W .regs] [May W .hif] [May W .out] (k : Nat) : ∀ {s : State} {a0}, Keeps W r s
    → Keeps W r (drainStalled k s a0) := by
  induction k with
  | zero =>
    intro s a0 h
    rw [drainStalled]
    repeat (with_reducible first
      | assumption | intro _ | apply keeps_ite | apply sendTlp_keeps | split | apply keeps_hif)
  | succ n ih =>
    intro s a0 h
    rw [drainStalled]
    repeat (with_reducible first
      | assumption | intro _ | apply keeps_ite | apply sendTlp_keeps | apply ih | split | apply keeps_hif)

theorem drainCpl_keeps {r : State} [May W .regs] [May W .hif] [May W .out] (k : Nat) : ∀ {s : State} {a0}, Keeps W r s
    → Keeps W r (drainCpl k s a0) := by
  induction k with
  | zero =>
    intro s a0 h
    rw [drainCpl]
    repeat (with_reducible first
      | assumption | intro _ | apply keeps_ite | apply sendTlp_keeps | split | apply keeps_hif)
  | succ n ih =>
    intro s a0 h
    rw [drainCpl]
    repeat (with_reducible first
      | assumption | intro _ | apply keeps_ite | apply sendTlp_keeps | apply ih | split | apply keeps_hif)

theorem creditReturn_keeps {r s : State} {a0 a1 a2} [May W .regs] [May W .hif] [May W .out] (h : Keeps W r s)
    : Keeps W r (creditReturn s a0 a1 a2) := by
  unfold creditReturn
  repeat (with_reducible first
    | assumption | intro _ | apply keeps_ite | apply keeps_foldl | apply drainStalled_keeps | apply sendReady_keeps
    | apply drainCpl_keeps | split | apply keeps_hif)

theorem execPcieCreditReturn_runs {r s : State} {a0 a1} [May W .regs] [May W .hif] [May W .out] (h : Keeps W r s)
    : Runs W r (execPcieCreditReturn a0 a1 s) := by
  unfold execPcieCreditReturn
  repeat (with_reducible first
    | assumption | intro _ | apply runs_next | apply whenOn_keeps | apply creditReturn_keeps)

theorem execPendingMessageRelease_runs {r s : State} {a0} [May W .regs] [May W .hif] [May W .out] (h : Keeps W r s) :
    Runs W r (execPendingMessageRelease a0 s) := by
  unfold execPendingMessageRelease
  repeat (with_reducible first
    | assumption | intro _ | apply runs_next | apply whenOn_keeps | apply releaseIrq_keeps | apply releaseMsix_keeps
    | split)

theorem execHifInternalError_runs {r s : State} {a0 a1} [May W .regs] [May W .hif] [May W .fil] [May W .rev]
    [May W .out] [May W .free] (h : Keeps W r s) : Runs W r (execHifInternalError a0 a1 s) := by
  unfold execHifInternalError
  repeat (with_reducible first
    | assumption | intro _ | apply keeps_ite | apply keeps1_ite | apply runs_ite | apply runs_next
    | apply whenOn_keeps | apply logCor_keeps | apply countFailure_keeps | apply logUncor_keeps
    | refine keeps_of1 (by with_reducible assumption) ?_ | exact keeps_fst (by with_reducible assumption)
    | refine keeps_fst (countFailure_keeps ?_) | apply keeps1_mk)

end Sys2Proof.Machine
end

