-- ==== Sys2Proof/Laws/RegReadKeep.lean ====
section
/-! SUPPORT. Each operation of Machine/RegRead.lean keeps what `Keeps` says. -/

set_option Elab.async false

namespace Sys2Proof.Machine

open Sys2Proof

variable {W : List Part}

theorem setShadow_keeps {r s : State} {a0 a1 a2} [May W .trust] (h : Keeps W r s) : Keeps W r (setShadow s a0 a1 a2) := by
  unfold setShadow
  repeat (with_reducible first
    | assumption | apply keeps_trust)

theorem readField_keeps {r s : State} {a0 a1} [May W .regs] [May W .trust] (h : Keeps W r s)
    : Keeps2 W r (readField s a0 a1) := by
  unfold readField
  repeat (with_reducible first
    | assumption | apply keeps_ite | apply keeps2_ite | apply setShadow_keeps | apply State.wr_keeps
    | refine keeps_of2 (by with_reducible assumption) ?_ | exact keeps_snd (by with_reducible assumption) | split
    | apply keeps2_mk)

theorem readFields_keeps {r : State} [May W .regs] [May W .trust] (k : List (Fld × List Nat × Nat)) : ∀ {s : State}
    {a0}, Keeps W r s → Keeps2 W r (readFields s a0 k) := by
  induction k with
  | nil =>
    intro s a0 h
    rw [readFields]
    repeat (with_reducible first
      | assumption | apply readField_keeps | refine keeps_of2 (by with_reducible assumption) ?_
      | exact keeps_snd (by with_reducible assumption) | refine keeps_snd (readField_keeps ?_) | split
      | apply keeps2_mk)
  | cons x l ih =>
    intro s a0 h
    rw [readFields]
    repeat (with_reducible first
      | assumption | apply readField_keeps | apply ih | refine keeps_of2 (by with_reducible assumption) ?_
      | exact keeps_snd (by with_reducible assumption) | refine keeps_snd (readField_keeps ?_) | split
      | apply keeps2_mk)

theorem wordRead_keeps {r s : State} {a0 a1} [May W .regs] [May W .trust] (h : Keeps W r s)
    : Keeps2 W r (wordRead s a0 a1) := by
  unfold wordRead
  repeat (with_reducible first
    | assumption | apply keeps_ite | apply keeps2_ite | apply readFields_keeps | apply accessErr_keeps
    | refine keeps_of2 (by with_reducible assumption) ?_ | exact keeps_snd (by with_reducible assumption)
    | refine keeps_snd (readFields_keeps _ ?_) | split | apply keeps2_mk)

theorem wordsRead_keeps {r : State} [May W .regs] [May W .trust] (k : Nat) : ∀ {s : State} {a0 a1}, Keeps W r s
    → Keeps2 W r (wordsRead s a0 a1 k) := by
  induction k with
  | zero =>
    intro s a0 a1 h
    rw [wordsRead]
    repeat (with_reducible first
      | assumption | apply wordRead_keeps | refine keeps_of2 (by with_reducible assumption) ?_
      | exact keeps_snd (by with_reducible assumption) | refine keeps_snd (wordRead_keeps ?_) | split
      | apply keeps2_mk)
  | succ n ih =>
    intro s a0 a1 h
    rw [wordsRead]
    repeat (with_reducible first
      | assumption | apply wordRead_keeps | apply ih | refine keeps_of2 (by with_reducible assumption) ?_
      | exact keeps_snd (by with_reducible assumption) | refine keeps_snd (wordRead_keeps ?_) | split
      | apply keeps2_mk)

end Sys2Proof.Machine
end

