-- ==== Sys2Proof/Laws/PowerKeep.lean ====
section
/-! SUPPORT. Each operation of Machine/Power.lean keeps what `Keeps` says. -/

set_option Elab.async false

namespace Sys2Proof.Machine

open Sys2Proof

variable {W : List Part}

theorem execRefclkLost_runs {r s : State} [May W .regs] (h : Keeps W r s) : Runs W r (execRefclkLost s) := by
  unfold execRefclkLost
  repeat (with_reducible first
    | assumption | apply keeps_ite | apply runs_ite | apply runs_next | apply State.wr_keeps | apply State.inc_keeps)

theorem execRefclkLossTimeout_runs {r s : State} [May W .regs] [May W .hif] [May W .fil] [May W .rev] [May W .eth]
    [May W .win] [May W .grn] [May W .tly] [May W .hsk] [May W .stg] [May W .pwr] [May W .out] (h : Keeps W r s)
    : Runs W r (execRefclkLossTimeout s) := by
  unfold execRefclkLossTimeout
  dsimp only
  repeat (with_reducible first
    | assumption | intro _ | apply keeps_ite | apply keeps1_ite | apply runs_ite | apply runs_next
    | apply keeps_foldl | apply keeps1_foldl | apply gateOff_keeps | apply putPwr_keeps | apply countFailure_keeps
    | apply State.inc_keeps | refine keeps_of1 (by with_reducible assumption) ?_
    | exact keeps_fst (by with_reducible assumption) | refine keeps_fst (countFailure_keeps ?_) | apply keeps1_mk)

theorem execRefclkReturn_runs {r s : State} [May W .regs] [May W .hif] [May W .fil] [May W .eth] [May W .win]
    [May W .grn] [May W .tly] [May W .hsk] [May W .stg] [May W .pwr] [May W .out] (h : Keeps W r s)
    : Runs W r (execRefclkReturn s) := by
  unfold execRefclkReturn
  repeat (with_reducible first
    | (lift_lets
       intro x
       first
       | (have hx : Keeps W r x := (by
            unfold x
            repeat (with_reducible first
              | assumption | apply keeps_ite | apply runs_ite | apply runs_next | apply State.wr_keeps
              | apply State.inc_keeps | apply exitStandby_keeps | split))
          clear_value x)
       | clear_value x)
    | assumption | apply keeps_ite | apply runs_ite | apply runs_next | apply State.wr_keeps | apply State.inc_keeps
    | apply exitStandby_keeps | split)

theorem execRootPllLockLoss_runs {r s : State} [May W .regs] (h : Keeps W r s) : Runs W r (execRootPllLockLoss s) := by
  unfold execRootPllLockLoss
  repeat (with_reducible first
    | assumption | apply keeps_ite | apply runs_ite | apply runs_next | apply State.inc_keeps | apply State.wr_keeps)

theorem pwrGo_keeps {r s : State} {a0} [May W .regs] [May W .hif] [May W .dom] [May W .fil] [May W .rev] [May W .tu]
    [May W .eth] [May W .stk] [May W .win] [May W .grn] [May W .tly] [May W .lck] [May W .hsk] [May W .car]
    [May W .stg] [May W .pwr] [May W .trust] [May W .out] (h : Keeps W r s) : Keeps W r (pwrGo s a0) := by
  unfold pwrGo
  repeat (with_reducible first
    | assumption | intro _ | apply keeps_ite | apply keeps_foldl | apply pwrCount_keeps | apply State.wr_keeps
    | apply powerOn_keeps | apply trimDomain_keeps | apply putPwr_keeps | apply enterStandby_keeps
    | apply refusePwr_keeps)

theorem goWrite_keeps {r s : State} {a0 a1} [May W .regs] [May W .hbm] [May W .hif] [May W .dom] [May W .fil]
    [May W .rev] [May W .tu] [May W .eth] [May W .stk] [May W .win] [May W .grn] [May W .tly] [May W .lck] [May W .hsk]
    [May W .car] [May W .stg] [May W .pwr] [May W .trust] [May W .out] [May W .free] (h : Keeps W r s)
    : Runs W r (goWrite s a0 a1) := by
  unfold goWrite
  repeat (with_reducible first
    | assumption | intro _ | apply runs_next | apply fromDomain_keeps | apply pwrGo_keeps | apply State.wr_keeps)

theorem execPwrGoActive_runs {r s : State} {a0} [May W .regs] [May W .hbm] [May W .hif] [May W .dom] [May W .fil]
    [May W .rev] [May W .tu] [May W .eth] [May W .stk] [May W .win] [May W .grn] [May W .tly] [May W .lck] [May W .hsk]
    [May W .car] [May W .stg] [May W .pwr] [May W .trust] [May W .out] [May W .free] (h : Keeps W r s)
    : Runs W r (execPwrGoActive a0 s) := by
  unfold execPwrGoActive
  repeat (with_reducible first
    | assumption | apply runs_next | apply goWrite_keeps)

theorem execPwrGoTrimmed_runs {r s : State} {a0} [May W .regs] [May W .hbm] [May W .hif] [May W .dom] [May W .fil]
    [May W .rev] [May W .tu] [May W .eth] [May W .stk] [May W .win] [May W .grn] [May W .tly] [May W .lck] [May W .hsk]
    [May W .car] [May W .stg] [May W .pwr] [May W .trust] [May W .out] [May W .free] (h : Keeps W r s)
    : Runs W r (execPwrGoTrimmed a0 s) := by
  unfold execPwrGoTrimmed
  repeat (with_reducible first
    | assumption | apply runs_next | apply goWrite_keeps)

theorem execPwrGoDormant_runs {r s : State} {a0} [May W .regs] [May W .hbm] [May W .hif] [May W .dom] [May W .fil]
    [May W .rev] [May W .tu] [May W .eth] [May W .stk] [May W .win] [May W .grn] [May W .tly] [May W .lck] [May W .hsk]
    [May W .car] [May W .stg] [May W .pwr] [May W .trust] [May W .out] [May W .free] (h : Keeps W r s)
    : Runs W r (execPwrGoDormant a0 s) := by
  unfold execPwrGoDormant
  repeat (with_reducible first
    | assumption | apply runs_next | apply goWrite_keeps)

theorem execPwrGoStandby_runs {r s : State} {a0} [May W .regs] [May W .hbm] [May W .hif] [May W .dom] [May W .fil]
    [May W .rev] [May W .tu] [May W .eth] [May W .stk] [May W .win] [May W .grn] [May W .tly] [May W .lck] [May W .hsk]
    [May W .car] [May W .stg] [May W .pwr] [May W .trust] [May W .out] [May W .free] (h : Keeps W r s)
    : Runs W r (execPwrGoStandby a0 s) := by
  unfold execPwrGoStandby
  repeat (with_reducible first
    | assumption | apply runs_next | apply goWrite_keeps)

theorem trimFollow_keeps {r s : State} {a0} [May W .regs] [May W .hif] [May W .fil] [May W .eth] [May W .win]
    [May W .grn] [May W .tly] [May W .hsk] [May W .stg] [May W .out] (h : Keeps W r s) : Keeps W r (trimFollow s a0) := by
  unfold trimFollow
  repeat (with_reducible first
    | assumption | intro _ | apply keeps_ite | apply keeps_foldl | apply trimDomain_keeps)

theorem trimWrite_keeps {r s : State} {a0 a1 a2} [May W .regs] [May W .hif] [May W .fil] [May W .eth] [May W .win]
    [May W .grn] [May W .tly] [May W .hsk] [May W .stg] [May W .out] (h : Keeps W r s) : Keeps W r (trimWrite s a0 a1 a2)
    := by
  unfold trimWrite
  repeat (with_reducible first
    | assumption | intro _ | apply keeps_ite | apply trimFollow_keeps | apply writeWord_keeps)

theorem execTrimWrite_runs {r s : State} {a0 a1 a2} [May W .regs] [May W .hbm] [May W .hif] [May W .fil] [May W .rev]
    [May W .tu] [May W .eth] [May W .stk] [May W .win] [May W .grn] [May W .tly] [May W .hsk] [May W .car] [May W .stg]
    [May W .pwr] [May W .out] [May W .free] (h : Keeps W r s) : Runs W r (execTrimWrite a0 a1 a2 s) := by
  unfold execTrimWrite
  repeat (with_reducible first
    | assumption | intro _ | apply runs_next | apply fromDomain_keeps | apply trimWrite_keeps)

theorem execDormantEntry_runs {r s : State} [May W .regs] [May W .tu] [May W .eth] [May W .pwr] [May W .out] (h
    : Keeps W r s) : Runs W r (execDormantEntry s) := by
  unfold execDormantEntry
  repeat (with_reducible first
    | assumption | apply keeps_ite | apply runs_ite | apply runs_next | apply enterDormant_keeps | split)

theorem execDormantWaitExpiry_runs {r s : State} [May W .regs] [May W .now] [May W .tu] [May W .pwr] [May W .out]
    [May W .free] (h : Keeps W r s) : Runs W r (execDormantWaitExpiry s) := by
  unfold execDormantWaitExpiry
  repeat (with_reducible first
    | assumption | apply keeps_ite | apply runs_ite | apply runs_next | apply clockTo_keeps | apply putPwr_keeps
    | apply State.wr_keeps | apply pwrCount_keeps | apply refusePwr_keeps)

theorem execWakeTimerExpiry_runs {r s : State} [May W .regs] [May W .now] [May W .hbm] [May W .hif] [May W .fil]
    [May W .rev] [May W .tu] [May W .eth] [May W .stk] [May W .win] [May W .grn] [May W .tly] [May W .hsk] [May W .car]
    [May W .stg] [May W .pwr] [May W .out] [May W .free] (h : Keeps W r s) : Runs W r (execWakeTimerExpiry s) := by
  unfold execWakeTimerExpiry
  repeat (with_reducible first
    | assumption | apply keeps_ite | apply runs_ite | apply runs_next | apply wake_keeps | apply clockTo_keeps)

theorem execDomainGate_runs {r s : State} {a0} [May W .regs] [May W .hif] [May W .fil] [May W .eth] [May W .win]
    [May W .grn] [May W .tly] [May W .hsk] [May W .stg] [May W .out] (h : Keeps W r s) : Runs W r (execDomainGate a0 s) := by
  unfold execDomainGate
  repeat (with_reducible first
    | assumption | intro _ | apply keeps_ite | apply runs_ite | apply runs_next | apply whenUp_keeps
    | apply gateOff_keeps)

theorem execPwronRstN_runs {r s : State} {a0 a1 a2 a3} [May W .regs] [May W .hbm] [May W .hif] [May W .dom]
    [May W .fil] [May W .rev] [May W .tu] [May W .eth] [May W .stk] [May W .win] [May W .grn] [May W .tly] [May W .lck]
    [May W .hsk] [May W .car] [May W .stg] [May W .pwr] [May W .trust] [May W .out] [May W .free] (h : Keeps W r s)
    : Runs W r (execPwronRstN a0 a1 a2 a3 s) := by
  unfold execPwronRstN
  repeat (with_reducible first
    | assumption | apply keeps_ite | apply runs_ite | apply runs_next | apply putPwr_keeps | apply coldReset_keeps)

theorem execSysRstN_runs {r s : State} [May W .regs] [May W .hbm] [May W .hif] [May W .dom] [May W .fil] [May W .rev]
    [May W .tu] [May W .eth] [May W .stk] [May W .win] [May W .grn] [May W .tly] [May W .lck] [May W .hsk] [May W .car]
    [May W .stg] [May W .pwr] [May W .trust] [May W .out] [May W .free] (h : Keeps W r s) : Runs W r (execSysRstN s) := by
  unfold execSysRstN
  repeat (with_reducible first
    | assumption | apply keeps_ite | apply runs_ite | apply runs_next | apply coldReset_keeps)

theorem rstWrite_keeps {r s : State} {a0 a1} [May W .regs] [May W .hbm] [May W .hif] [May W .dom] [May W .fil]
    [May W .rev] [May W .tu] [May W .eth] [May W .stk] [May W .win] [May W .grn] [May W .tly] [May W .lck] [May W .hsk]
    [May W .car] [May W .stg] [May W .pwr] [May W .trust] [May W .out] [May W .free] (h : Keeps W r s)
    : Keeps W r (rstWrite s a0 a1) := by
  unfold rstWrite
  repeat (with_reducible first
    | assumption | apply keeps_ite | apply pwrCount_keeps | apply warmReset_keeps | apply coldReset_keeps)

theorem execRstWarm_runs {r s : State} {a0 a1} [May W .regs] [May W .hbm] [May W .hif] [May W .dom] [May W .fil]
    [May W .rev] [May W .tu] [May W .eth] [May W .stk] [May W .win] [May W .grn] [May W .tly] [May W .lck] [May W .hsk]
    [May W .car] [May W .stg] [May W .pwr] [May W .trust] [May W .out] [May W .free] (h : Keeps W r s)
    : Runs W r (execRstWarm a0 a1 s) := by
  unfold execRstWarm
  repeat (with_reducible first
    | assumption | intro _ | apply runs_next | apply fromDomain_keeps | apply rstWrite_keeps)

theorem execRstCold_runs {r s : State} {a0 a1} [May W .regs] [May W .hbm] [May W .hif] [May W .dom] [May W .fil]
    [May W .rev] [May W .tu] [May W .eth] [May W .stk] [May W .win] [May W .grn] [May W .tly] [May W .lck] [May W .hsk]
    [May W .car] [May W .stg] [May W .pwr] [May W .trust] [May W .out] [May W .free] (h : Keeps W r s)
    : Runs W r (execRstCold a0 a1 s) := by
  unfold execRstCold
  repeat (with_reducible first
    | assumption | intro _ | apply runs_next | apply fromDomain_keeps | apply rstWrite_keeps)

theorem blkOctet_keeps {r s : State} {a0} [May W .regs] [May W .eth] [May W .stk] [May W .grn] [May W .tly] [May W .out]
    (h : Keeps W r s) : Keeps W r (blkOctet s a0) := by
  unfold blkOctet
  repeat (with_reducible first
    | assumption | intro _ | apply keeps_ite | apply keeps_foldl | apply linkRetrain_keeps | apply loseLink_keeps
    | apply laneLock_keeps | split)

theorem blkCluster_keeps {r s : State} {a0} [May W .regs] [May W .hbm] [May W .fil] [May W .win] [May W .hsk] (h
    : Keeps W r s) : Keeps W r (blkCluster s a0) := by
  unfold blkCluster
  repeat (with_reducible first
    | (lift_lets
       intro x
       first
       | (have hx : Keeps W r x := (by
            unfold x
            repeat (with_reducible first
              | assumption | intro _ | apply keeps_foldl | apply jobsShow_keeps | apply clearCache_keeps
              | apply putHsk_keeps | apply espJobEnd_keeps | apply filJobEnd_keeps | split))
          clear_value x)
       | clear_value x)
    | assumption | intro _ | apply keeps_foldl | apply jobsShow_keeps | apply clearCache_keeps | apply putHsk_keeps
    | apply espJobEnd_keeps | apply filJobEnd_keeps | split)

theorem blkRst_keeps {r s : State} {a0 a1} [May W .regs] [May W .hbm] [May W .hif] [May W .fil] [May W .eth]
    [May W .stk] [May W .win] [May W .grn] [May W .tly] [May W .hsk] [May W .stg] [May W .out] (h : Keeps W r s)
    : Keeps W r (blkRst s a0 a1) := by
  unfold blkRst
  repeat (with_reducible first
    | assumption | intro _ | apply keeps_ite | apply keeps_foldl | apply pwrCount_keeps | apply blkOctet_keeps
    | apply clearPipe_keeps | apply blkCluster_keeps | apply hartReset_keeps | apply rpOff_keeps
    | apply rpPowerOn_keeps | apply loseDomain_keeps | split)

theorem blkWrite_keeps {r s : State} {a0 a1 a2} [May W .regs] [May W .hbm] [May W .hif] [May W .fil] [May W .rev]
    [May W .tu] [May W .eth] [May W .stk] [May W .win] [May W .grn] [May W .tly] [May W .hsk] [May W .car] [May W .stg]
    [May W .pwr] [May W .out] [May W .free] (h : Keeps W r s) : Runs W r (blkWrite s a0 a1 a2) := by
  unfold blkWrite
  repeat (with_reducible first
    | assumption | intro _ | apply runs_next | apply fromDomain_keeps | apply blkRst_keeps)

theorem execBlockResetEthOctet_runs {r s : State} {a0 a1} [May W .regs] [May W .hbm] [May W .hif] [May W .fil]
    [May W .rev] [May W .tu] [May W .eth] [May W .stk] [May W .win] [May W .grn] [May W .tly] [May W .hsk] [May W .car]
    [May W .stg] [May W .pwr] [May W .out] [May W .free] (h : Keeps W r s) :
    Runs W r (execBlockResetEthOctet a0 a1 s) := by
  unfold execBlockResetEthOctet
  repeat (with_reducible first
    | assumption | apply runs_next | apply blkWrite_keeps)

theorem execBlockResetPipeline_runs {r s : State} {a0 a1} [May W .regs] [May W .hbm] [May W .hif] [May W .fil]
    [May W .rev] [May W .tu] [May W .eth] [May W .stk] [May W .win] [May W .grn] [May W .tly] [May W .hsk] [May W .car]
    [May W .stg] [May W .pwr] [May W .out] [May W .free] (h : Keeps W r s) :
    Runs W r (execBlockResetPipeline a0 a1 s) := by
  unfold execBlockResetPipeline
  repeat (with_reducible first
    | assumption | apply runs_next | apply blkWrite_keeps)

theorem execBlockResetHuskCluster_runs {r s : State} {a0 a1} [May W .regs] [May W .hbm] [May W .hif] [May W .fil]
    [May W .rev] [May W .tu] [May W .eth] [May W .stk] [May W .win] [May W .grn] [May W .tly] [May W .hsk] [May W .car]
    [May W .stg] [May W .pwr] [May W .out] [May W .free] (h : Keeps W r s) :
    Runs W r (execBlockResetHuskCluster a0 a1 s) := by
  unfold execBlockResetHuskCluster
  repeat (with_reducible first
    | assumption | apply runs_next | apply blkWrite_keeps)

theorem execBlockResetFilbertCore_runs {r s : State} {a0 a1} [May W .regs] [May W .hbm] [May W .hif] [May W .fil]
    [May W .rev] [May W .tu] [May W .eth] [May W .stk] [May W .win] [May W .grn] [May W .tly] [May W .hsk] [May W .car]
    [May W .stg] [May W .pwr] [May W .out] [May W .free] (h : Keeps W r s) :
    Runs W r (execBlockResetFilbertCore a0 a1 s) := by
  unfold execBlockResetFilbertCore
  repeat (with_reducible first
    | assumption | apply runs_next | apply blkWrite_keeps)

theorem execBlockResetRootPort_runs {r s : State} {a0 a1} [May W .regs] [May W .hbm] [May W .hif] [May W .fil]
    [May W .rev] [May W .tu] [May W .eth] [May W .stk] [May W .win] [May W .grn] [May W .tly] [May W .hsk] [May W .car]
    [May W .stg] [May W .pwr] [May W .out] [May W .free] (h : Keeps W r s) :
    Runs W r (execBlockResetRootPort a0 a1 s) := by
  unfold execBlockResetRootPort
  repeat (with_reducible first
    | assumption | apply runs_next | apply blkWrite_keeps)

theorem execBlockResetPatternMatcher_runs {r s : State} {a0 a1} [May W .regs] [May W .hbm] [May W .hif] [May W .fil]
    [May W .rev] [May W .tu] [May W .eth] [May W .stk] [May W .win] [May W .grn] [May W .tly] [May W .hsk] [May W .car]
    [May W .stg] [May W .pwr] [May W .out] [May W .free] (h : Keeps W r s) :
    Runs W r (execBlockResetPatternMatcher a0 a1 s) := by
  unfold execBlockResetPatternMatcher
  repeat (with_reducible first
    | assumption | apply runs_next | apply blkWrite_keeps)

theorem execPowerLoss_runs {r s : State} [May W .regs] [May W .hbm] [May W .hif] [May W .dom] [May W .fil] [May W .rev]
    [May W .tu] [May W .eth] [May W .stk] [May W .win] [May W .grn] [May W .tly] [May W .lck] [May W .hsk] [May W .car]
    [May W .stg] [May W .pwr] [May W .trust] [May W .out] [May W .free] (h : Keeps W r s) : Runs W r (execPowerLoss s) := by
  unfold execPowerLoss
  repeat (with_reducible first
    | assumption | apply runs_next | apply loseSupply_keeps)

end Sys2Proof.Machine
end

