-- ==== Sys2Proof/Laws/ReeveOpsKeep.lean ====
section
/-! SUPPORT. Each operation of Machine/ReeveOps.lean keeps what `Keeps` says. -/

set_option Elab.async false

namespace Sys2Proof.Machine

open Sys2Proof

variable {W : List Part}

theorem putRev_keeps {r s : State} {a0} [May W .rev] (h : Keeps W r s) : Keeps W r (putRev s a0) := by
  unfold putRev
  repeat (with_reducible first
    | assumption | apply keeps_rev)

theorem revCount_keeps {r s : State} {a0} [May W .regs] (h : Keeps W r s) : Keeps W r (revCount s a0) := by
  unfold revCount
  repeat (with_reducible first
    | assumption | apply State.inc_keeps)

theorem retireCore_keeps {r s : State} {a0} [May W .regs] [May W .hif] [May W .fil] [May W .eth] [May W .win]
    [May W .grn] [May W .tly] [May W .hsk] [May W .stg] [May W .out] (h : Keeps W r s) : Keeps W r (retireCore s a0) := by
  unfold retireCore
  repeat (with_reducible first
    | assumption | intro _ | apply keeps_foldl | apply gateOff_keeps | apply State.wr_keeps | apply hartPut_keeps
    | apply State.inc_keeps | apply State.reset_keeps)

theorem failUnit_keeps {r s : State} {a0 a1 a2 a3} [May W .regs] [May W .now] [May W .hif] [May W .fil] [May W .rev]
    [May W .tu] [May W .eth] [May W .win] [May W .grn] [May W .tly] [May W .hsk] [May W .stg] [May W .out] [May W .free]
    (h : Keeps W r s) : Keeps W r (failUnit s a0 a1 a2 a3) := by
  unfold failUnit
  repeat (with_reducible first
    | assumption | apply countFailure_keeps | apply retireLane_keeps | apply State.wr_keeps | apply retirePair_keeps
    | apply hskShow_keeps | apply retireCore_keeps | apply retirePort_keeps
    | refine keeps_of1 (by with_reducible assumption) ?_ | exact keeps_fst (by with_reducible assumption)
    | refine keeps_fst (countFailure_keeps ?_) | split | apply keeps1_mk)

theorem reeveStandby_keeps {r s : State} {a0} [May W .regs] [May W .hif] [May W .dom] [May W .fil] [May W .rev]
    [May W .tu] [May W .eth] [May W .stk] [May W .win] [May W .grn] [May W .tly] [May W .lck] [May W .hsk] [May W .car]
    [May W .stg] [May W .pwr] [May W .trust] [May W .out] (h : Keeps W r s) : Keeps W r (reeveStandby s a0) := by
  unfold reeveStandby
  dsimp only
  repeat (with_reducible first
    | assumption | apply keeps_ite | apply logEntry_keeps | apply revCount_keeps | apply putPwr_keeps
    | apply enterStandby_keeps)

theorem enterTstate_keeps {r s : State} {a0} [May W .regs] [May W .hif] [May W .dom] [May W .fil] [May W .rev]
    [May W .tu] [May W .eth] [May W .stk] [May W .win] [May W .grn] [May W .tly] [May W .lck] [May W .hsk] [May W .car]
    [May W .stg] [May W .pwr] [May W .trust] [May W .out] (h : Keeps W r s) : Keeps W r (enterTstate s a0) := by
  unfold enterTstate
  dsimp only
  repeat (with_reducible first
    | assumption | apply keeps_ite | apply State.wr_keeps | apply logEntry_keeps | apply stateEvent_keeps
    | apply revCount_keeps | apply reeveStandby_keeps)

theorem tempPut_keeps {r s : State} {a0 a1} [May W .regs] [May W .rev] (h : Keeps W r s) : Keeps W r (tempPut s a0 a1) := by
  unfold tempPut
  repeat (with_reducible first
    | assumption | apply keeps_ite | apply putRev_keeps | apply State.wr_keeps)

theorem tempSample_keeps {r s : State} {a0 a1} [May W .regs] [May W .hif] [May W .dom] [May W .fil] [May W .rev]
    [May W .tu] [May W .eth] [May W .stk] [May W .win] [May W .grn] [May W .tly] [May W .lck] [May W .hsk] [May W .car]
    [May W .stg] [May W .pwr] [May W .trust] [May W .out] (h : Keeps W r s) : Keeps W r (tempSample s a0 a1) := by
  unfold tempSample
  repeat (with_reducible first
    | assumption | apply keeps_ite | apply tempPut_keeps | apply enterTstate_keeps)

theorem voltReport_keeps {r s : State} {a0 a1 a2} [May W .regs] [May W .hif] [May W .rev] [May W .out] (h : Keeps W r s)
    : Keeps W r (voltReport s a0 a1 a2) := by
  unfold voltReport
  repeat (with_reducible first
    | assumption | apply numEvent_keeps | apply logEntry_keeps)

theorem voltPut_keeps {r s : State} {a0 a1} [May W .regs] [May W .rev] (h : Keeps W r s) : Keeps W r (voltPut s a0 a1) := by
  unfold voltPut
  repeat (with_reducible first
    | assumption | apply putRev_keeps | apply State.wr_keeps)

theorem voltJudge_keeps {r s : State} {a0 a1} [May W .regs] [May W .hif] [May W .dom] [May W .fil] [May W .rev]
    [May W .tu] [May W .eth] [May W .stk] [May W .win] [May W .grn] [May W .tly] [May W .lck] [May W .hsk] [May W .car]
    [May W .stg] [May W .pwr] [May W .trust] [May W .out] (h : Keeps W r s) : Keeps W r (voltJudge s a0 a1) := by
  unfold voltJudge
  repeat (with_reducible first
    | assumption | apply keeps_ite | apply voltReport_keeps | apply putRev_keeps | apply reeveStandby_keeps
    | apply State.wr_keeps)

theorem voltSample_keeps {r s : State} {a0 a1} [May W .regs] [May W .hif] [May W .dom] [May W .fil] [May W .rev]
    [May W .tu] [May W .eth] [May W .stk] [May W .win] [May W .grn] [May W .tly] [May W .lck] [May W .hsk] [May W .car]
    [May W .stg] [May W .pwr] [May W .trust] [May W .out] (h : Keeps W r s) : Keeps W r (voltSample s a0 a1) := by
  unfold voltSample
  repeat (with_reducible first
    | assumption | apply keeps_ite | apply voltPut_keeps | apply voltJudge_keeps)

theorem takeControl_keeps {r s : State} {a0 a1} [May W .regs] [May W .hif] [May W .fil] [May W .rev] [May W .eth]
    [May W .win] [May W .grn] [May W .tly] [May W .hsk] [May W .stg] [May W .pwr] [May W .out] (h : Keeps W r s)
    : Keeps W r (takeControl s a0 a1) := by
  unfold takeControl
  repeat (with_reducible first
    | assumption | intro _ | apply keeps_ite | apply keeps_foldl | apply State.wr_keeps | apply putPwr_keeps
    | apply gateOff_keeps | apply State.emits_keeps | apply State.emit_keeps | apply putRev_keeps)

end Sys2Proof.Machine
end

