-- ==== Sys2Proof/Laws/ReeveKeep.lean ====
section
/-! SUPPORT. Each operation of Machine/Reeve.lean keeps what `Keeps` says. -/

set_option Elab.async false

namespace Sys2Proof.Machine

open Sys2Proof

variable {W : List Part}

theorem powered_keeps {r s : State} {a0} (h : Keeps W r s) (ha0 : ∀ s, Keeps W r s → Runs W r (a0 s)) :
    Runs W r (powered s a0) := by
  unfold powered
  repeat (with_reducible first
    | assumption | apply keeps_ite | apply runs_ite | apply runs_next | intro _ | apply ha0)

theorem byReeve_keeps {r s : State} {a0} (h : Keeps W r s) (ha0 : ∀ s, Keeps W r s → Runs W r (a0 s)) :
    Runs W r (byReeve s a0) := by
  unfold byReeve
  repeat (with_reducible first
    | assumption | apply keeps_ite | apply runs_ite | apply runs_next | intro _ | apply ha0)

theorem execTempSample_runs {r s : State} {a0 a1} [May W .regs] [May W .hif] [May W .dom] [May W .fil] [May W .rev]
    [May W .tu] [May W .eth] [May W .stk] [May W .win] [May W .grn] [May W .tly] [May W .lck] [May W .hsk] [May W .car]
    [May W .stg] [May W .pwr] [May W .trust] [May W .out] (h : Keeps W r s) : Runs W r (execTempSample a0 a1 s) := by
  unfold execTempSample
  repeat (with_reducible first
    | assumption | intro _ | apply runs_next | apply powered_keeps | apply tempSample_keeps)

theorem execVoltSample_runs {r s : State} {a0 a1} [May W .regs] [May W .hif] [May W .dom] [May W .fil] [May W .rev]
    [May W .tu] [May W .eth] [May W .stk] [May W .win] [May W .grn] [May W .tly] [May W .lck] [May W .hsk] [May W .car]
    [May W .stg] [May W .pwr] [May W .trust] [May W .out] (h : Keeps W r s) : Runs W r (execVoltSample a0 a1 s) := by
  unfold execVoltSample
  repeat (with_reducible first
    | assumption | intro _ | apply runs_next | apply powered_keeps | apply voltSample_keeps)

theorem avsUpdate_keeps {r s : State} [May W .regs] [May W .rev] [May W .out] (h : Keeps W r s) : Keeps W r (avsUpdate s)
    := by
  unfold avsUpdate
  repeat (with_reducible first
    | assumption | apply keeps_ite | apply State.emit_keeps | apply putRev_keeps | apply State.wr_keeps)

theorem execAvsUpdate_runs {r s : State} [May W .regs] [May W .now] [May W .rev] [May W .tu] [May W .out] [May W .free] (h
    : Keeps W r s) : Runs W r (execAvsUpdate s) := by
  unfold execAvsUpdate
  repeat (with_reducible first
    | assumption | intro _ | apply keeps_ite | apply runs_ite | apply runs_next | apply byReeve_keeps
    | apply avsUpdate_keeps | apply clockTo_keeps)

theorem execFailureReport_runs {r s : State} {a0 a1 a2 a3} [May W .regs] [May W .now] [May W .hif] [May W .fil]
    [May W .rev] [May W .tu] [May W .eth] [May W .win] [May W .grn] [May W .tly] [May W .hsk] [May W .stg] [May W .out]
    [May W .free] (h : Keeps W r s) :
    Runs W r (execFailureReport a0 a1 a2 a3 s) := by
  unfold execFailureReport
  repeat (with_reducible first
    | assumption | intro _ | apply keeps_ite | apply runs_ite | apply runs_next | apply byReeve_keeps
    | apply failUnit_keeps)

theorem execCoreEccError_runs {r s : State} {a0} [May W .regs] [May W .now] [May W .hif] [May W .fil] [May W .rev]
    [May W .tu] [May W .eth] [May W .win] [May W .grn] [May W .tly] [May W .hsk] [May W .stg] [May W .out] [May W .free]
    (h : Keeps W r s) : Runs W r (execCoreEccError a0 s) := by
  unfold execCoreEccError
  repeat (with_reducible first
    | assumption | intro _ | apply runs_next | apply byReeve_keeps | apply failUnit_keeps | apply State.inc_keeps)

theorem execCriticalRecovery_runs {r s : State} [May W .regs] [May W .hbm] [May W .hif] [May W .fil] [May W .rev]
    [May W .tu] [May W .eth] [May W .stk] [May W .win] [May W .grn] [May W .tly] [May W .hsk] [May W .car] [May W .stg]
    [May W .pwr] [May W .out] [May W .free] (h : Keeps W r s) : Runs W r (execCriticalRecovery s) := by
  unfold execCriticalRecovery
  repeat (with_reducible first
    | assumption | intro _ | apply keeps_ite | apply runs_ite | apply runs_next | apply byReeve_keeps
    | apply wake_keeps)

theorem retClr_keeps {r s : State} {a0 a1 a2} [May W .regs] [May W .rev] (h : Keeps W r s) : Keeps W r (retClr s a0 a1 a2)
    := by
  unfold retClr
  repeat (with_reducible first
    | assumption | apply keeps_ite | apply revCount_keeps | apply State.inc_keeps | apply putRev_keeps)

theorem execRetirementClear_runs {r s : State} {a0 a1 a2 a3} [May W .regs] [May W .hbm] [May W .hif] [May W .fil]
    [May W .rev] [May W .tu] [May W .eth] [May W .stk] [May W .win] [May W .grn] [May W .tly] [May W .car] [May W .pwr]
    [May W .out] [May W .free] (h : Keeps W r s) :
    Runs W r (execRetirementClear a0 a1 a2 a3 s) := by
  unfold execRetirementClear
  repeat (with_reducible first
    | assumption | intro _ | apply runs_next | apply fromDomain_keeps | apply retClr_keeps)

theorem execBellHb_runs {r s : State} {a0} [May W .rev] (h : Keeps W r s) : Runs W r (execBellHb a0 s) := by
  unfold execBellHb
  repeat (with_reducible first
    | assumption | intro _ | apply keeps_ite | apply runs_ite | apply runs_next | apply byReeve_keeps
    | apply putRev_keeps)

theorem execLockstepMismatch_runs {r s : State} [May W .regs] [May W .hif] [May W .fil] [May W .rev] [May W .eth]
    [May W .win] [May W .grn] [May W .tly] [May W .hsk] [May W .stg] [May W .pwr] [May W .out] (h : Keeps W r s)
    : Runs W r (execLockstepMismatch s) := by
  unfold execLockstepMismatch
  repeat (with_reducible first
    | assumption | apply runs_next | apply takeControl_keeps)

theorem execHeartbeatExpiry_runs {r s : State} [May W .regs] [May W .now] [May W .hif] [May W .fil] [May W .rev]
    [May W .tu] [May W .eth] [May W .win] [May W .grn] [May W .tly] [May W .hsk] [May W .stg] [May W .pwr] [May W .out]
    [May W .free] (h : Keeps W r s) : Runs W r (execHeartbeatExpiry s) := by
  unfold execHeartbeatExpiry
  repeat (with_reducible first
    | assumption | apply keeps_ite | apply runs_ite | apply runs_next | apply takeControl_keeps | apply clockTo_keeps)

theorem execThermalTrip_runs {r s : State} {a0} [May W .regs] [May W .hif] [May W .fil] [May W .rev] [May W .eth]
    [May W .win] [May W .grn] [May W .tly] [May W .hsk] [May W .stg] [May W .pwr] [May W .out] (h : Keeps W r s)
    : Runs W r (execThermalTrip a0 s) := by
  unfold execThermalTrip
  repeat (with_reducible first
    | assumption | apply keeps_ite | apply runs_ite | apply runs_next | apply takeControl_keeps)

end Sys2Proof.Machine
end

