-- ==== Sys2Proof/Laws/StorageKeep.lean ====
section
/-! SUPPORT. Each operation of Machine/Storage.lean keeps what `Keeps` says. -/

set_option Elab.async false

namespace Sys2Proof.Machine

open Sys2Proof

variable {W : List Part}

theorem rpEnable_keeps {r s : State} {a0 a1} [May W .regs] [May W .hif] [May W .fil] [May W .stg] [May W .out] (h
    : Keeps W r s) : Keeps W r (rpEnable s a0 a1) := by
  unfold rpEnable
  repeat (with_reducible first
    | assumption | apply keeps_ite | apply State.wr_keeps | apply rpPowerOn_keeps | apply rpLeave_keeps
    | apply rpOff_keeps)

theorem execRootPortEnable_runs {r s : State} {a0 a1} [May W .regs] [May W .hbm] [May W .hif] [May W .fil] [May W .rev]
    [May W .tu] [May W .eth] [May W .stk] [May W .win] [May W .grn] [May W .tly] [May W .car] [May W .stg] [May W .pwr]
    [May W .out] [May W .free] (h : Keeps W r s) : Runs W r (execRootPortEnable a0 a1 s) := by
  unfold execRootPortEnable
  repeat (with_reducible first
    | assumption | intro _ | apply runs_next | apply fromHost_keeps | apply rpEnable_keeps)

theorem execPresenceChange_runs {r s : State} {a0 a1} [May W .regs] [May W .hif] [May W .fil] [May W .stg] [May W .out] (h
    : Keeps W r s) : Runs W r (execPresenceChange a0 a1 s) := by
  unfold execPresenceChange
  repeat (with_reducible first
    | assumption | intro _ | apply keeps_ite | apply runs_ite | apply runs_next | apply whenOn_keeps
    | apply rpCount_keeps | apply rpMod_keeps | apply rpEvt_keeps | apply rpCfgBit_keeps | apply rpPowerOn_keeps
    | apply rpOff_keeps | apply rpSurprise_keeps)

theorem execPowerFault_runs {r s : State} {a0} [May W .regs] [May W .hif] [May W .fil] [May W .rev] [May W .stg]
    [May W .out] (h : Keeps W r s) : Runs W r (execPowerFault a0 s) := by
  unfold execPowerFault
  repeat (with_reducible first
    | assumption | intro _ | apply keeps_ite | apply runs_ite | apply runs_next | apply whenOn_keeps
    | apply attnLed_keeps | apply rpPerst_keeps | apply rpCount_keeps | apply rpEvt_keeps | apply rpCfgBit_keeps
    | apply rpFault_keeps)

theorem execButtonPress_runs {r s : State} {a0} [May W .regs] [May W .hif] [May W .fil] [May W .stg] [May W .out] (h
    : Keeps W r s) : Runs W r (execButtonPress a0 s) := by
  unfold execButtonPress
  repeat (with_reducible first
    | assumption | intro _ | apply keeps_ite | apply runs_ite | apply runs_next | apply whenOn_keeps
    | apply rpEvt_keeps | apply rpCfgBit_keeps | apply rpMod_keeps)

theorem execRemovalWindowExpiry_runs {r s : State} {a0} [May W .regs] [May W .now] [May W .hif] [May W .fil]
    [May W .tu] [May W .stg] [May W .out] [May W .free] (h : Keeps W r s) : Runs W r (execRemovalWindowExpiry a0 s) := by
  unfold execRemovalWindowExpiry
  repeat (with_reducible first
    | assumption | intro _ | apply keeps_ite | apply runs_ite | apply runs_next | apply whenOn_keeps
    | apply rpQuiesce_keeps | apply clockTo_keeps)

theorem execPwrWaitExpiry_runs {r s : State} {a0} [May W .regs] [May W .now] [May W .hif] [May W .fil] [May W .tu]
    [May W .stg] [May W .out] [May W .free] (h : Keeps W r s) : Runs W r (execPwrWaitExpiry a0 s) := by
  unfold execPwrWaitExpiry
  repeat (with_reducible first
    | assumption | intro _ | apply keeps_ite | apply runs_ite | apply runs_next | apply whenOn_keeps
    | apply rpLapse_keeps | apply rpGo_keeps | apply rpClk_keeps)

theorem execPerstReleaseDelay_runs {r s : State} {a0} [May W .regs] [May W .now] [May W .tu] [May W .stg] [May W .out]
    [May W .free] (h : Keeps W r s) : Runs W r (execPerstReleaseDelay a0 s) := by
  unfold execPerstReleaseDelay
  repeat (with_reducible first
    | assumption | intro _ | apply keeps_ite | apply runs_ite | apply runs_next | apply whenOn_keeps
    | apply rpPerst_keeps | apply rpLapse_keeps)

theorem execLinkActive_runs {r s : State} {a0 a1 a2} [May W .regs] [May W .hif] [May W .fil] [May W .stg] [May W .out] (h
    : Keeps W r s) : Runs W r (execLinkActive a0 a1 a2 s) := by
  unfold execLinkActive
  repeat (with_reducible first
    | assumption | intro _ | apply keeps_ite | apply runs_ite | apply runs_next | apply whenOn_keeps
    | apply State.wr_keeps | apply rpEvt_keeps | apply rpCfgBit_keeps | apply rpGo_keeps)

theorem execTrainingTimeout_runs {r s : State} {a0} [May W .regs] [May W .now] [May W .hif] [May W .fil] [May W .rev]
    [May W .tu] [May W .stg] [May W .out] [May W .free] (h : Keeps W r s) : Runs W r (execTrainingTimeout a0 s) := by
  unfold execTrainingTimeout
  repeat (with_reducible first
    | assumption | intro _ | apply keeps_ite | apply runs_ite | apply runs_next | apply whenOn_keeps
    | apply rpFault_keeps | apply rpLapse_keeps)

theorem execEnumerationDelay_runs {r s : State} {a0 a1} [May W .regs] [May W .now] [May W .tu] [May W .out] [May W .free]
    (h : Keeps W r s) : Runs W r (execEnumerationDelay a0 a1 s) := by
  unfold execEnumerationDelay
  repeat (with_reducible first
    | assumption | intro _ | apply keeps_ite | apply runs_ite | apply runs_next | apply whenOn_keeps
    | apply State.emit_keeps | apply State.wr_keeps | apply rpLapse_keeps)

theorem execDriveInitComplete_runs {r s : State} {a0 a1} [May W .regs] [May W .hif] [May W .fil] [May W .rev]
    [May W .stg] [May W .out] (h : Keeps W r s) :
    Runs W r (execDriveInitComplete a0 a1 s) := by
  unfold execDriveInitComplete
  repeat (with_reducible first
    | assumption | intro _ | apply keeps_ite | apply runs_ite | apply runs_next | apply whenOn_keeps
    | apply rpFault_keeps | apply rpEvt_keeps | apply rpMod_keeps | apply State.wr_keeps | apply rpGo_keeps
    | apply pwrLed_keeps | split)

theorem execQuiesceComplete_runs {r s : State} {a0} [May W .regs] [May W .hif] [May W .fil] [May W .stg] [May W .out] (h
    : Keeps W r s) : Runs W r (execQuiesceComplete a0 s) := by
  unfold execQuiesceComplete
  repeat (with_reducible first
    | assumption | intro _ | apply keeps_ite | apply runs_ite | apply runs_next | apply whenOn_keeps
    | apply rpOff_keeps)

theorem execDpcTrigger_runs {r s : State} {a0 a1} [May W .regs] [May W .hif] [May W .fil] [May W .stg] [May W .out] (h
    : Keeps W r s) : Runs W r (execDpcTrigger a0 a1 s) := by
  unfold execDpcTrigger
  repeat (with_reducible first
    | assumption | intro _ | apply keeps_ite | apply runs_ite | apply runs_next | apply whenOn_keeps
    | apply rpDpc_keeps | split)

theorem execDpcRelease_runs {r s : State} {a0} [May W .regs] [May W .hif] [May W .fil] [May W .stg] [May W .out] (h
    : Keeps W r s) : Runs W r (execDpcRelease a0 s) := by
  unfold execDpcRelease
  repeat (with_reducible first
    | assumption | intro _ | apply keeps_ite | apply runs_ite | apply runs_next | apply whenOn_keeps
    | apply rpSurpriseEnd_keeps | apply State.wr_keeps)

theorem execSlotControlWrite_runs {r s : State} {a0 a1} [May W .regs] [May W .hbm] [May W .hif] [May W .fil]
    [May W .rev] [May W .tu] [May W .eth] [May W .stk] [May W .win] [May W .grn] [May W .tly] [May W .car] [May W .stg]
    [May W .pwr] [May W .out] [May W .free] (h : Keeps W r s) : Runs W r (execSlotControlWrite a0 a1 s) := by
  unfold execSlotControlWrite
  repeat (with_reducible first
    | assumption | intro _ | apply runs_next | apply fromHost_keeps | apply rpCfgWrite_keeps)

theorem execRemove_runs {r s : State} {a0} [May W .regs] [May W .hbm] [May W .hif] [May W .fil] [May W .rev]
    [May W .tu] [May W .eth] [May W .stk] [May W .win] [May W .grn] [May W .tly] [May W .car] [May W .stg] [May W .pwr]
    [May W .out] [May W .free] (h : Keeps W r s) : Runs W r (execRemove a0 s) := by
  unfold execRemove
  repeat (with_reducible first
    | assumption | intro _ | apply runs_next | apply fromHost_keeps | apply rpQuiesce_keeps)

theorem execDriveCompletion_runs {r s : State} {a0 a1 a2 a3} [May W .regs] [May W .stg] [May W .out] (h : Keeps W r s) :
    Runs W r (execDriveCompletion a0 a1 a2 a3 s) := by
  unfold execDriveCompletion
  repeat (with_reducible first
    | assumption | intro _ | apply keeps_ite | apply runs_ite | apply runs_next | apply whenOn_keeps
    | apply modLegs_keeps | apply rpCount_keeps | apply rpShutdown_keeps | apply pumpPort_keeps | apply rpMod_keeps)

theorem execDriveCmdTimeout_runs {r s : State} {a0 a1} [May W .regs] [May W .now] [May W .hif] [May W .fil]
    [May W .rev] [May W .tu] [May W .stg] [May W .out] [May W .free] (h : Keeps W r s)
    : Runs W r (execDriveCmdTimeout a0 a1 s) := by
  unfold execDriveCmdTimeout
  repeat (with_reducible first
    | assumption | intro _ | apply keeps_ite | apply runs_ite | apply runs_next | apply whenOn_keeps
    | apply clockTo_keeps | apply rpMod_keeps | apply modLegs_keeps | apply rpCount_keeps | apply rpEvt_keeps
    | apply State.emit_keeps | apply rpShutdown_keeps | apply portFail_keeps)

theorem execAbortTimeout_runs {r s : State} {a0 a1} [May W .regs] [May W .hif] [May W .fil] [May W .stg] [May W .out] (h
    : Keeps W r s) : Runs W r (execAbortTimeout a0 a1 s) := by
  unfold execAbortTimeout
  repeat (with_reducible first
    | assumption | intro _ | apply keeps_ite | apply runs_ite | apply runs_next | apply whenOn_keeps
    | apply State.emit_keeps | apply rpCount_keeps | apply rpLeave_keeps | apply rpGo_keeps | apply rpMod_keeps)

theorem execAerError_runs {r s : State} {a0 a1 a2 a3} [May W .regs] [May W .hif] [May W .fil] [May W .stg] [May W .out] (h
    : Keeps W r s) : Runs W r (execAerError a0 a1 a2 a3 s) := by
  unfold execAerError
  repeat (with_reducible first
    | assumption | intro _ | apply keeps_ite | apply runs_ite | apply runs_next | apply whenOn_keeps
    | apply rpAer_keeps | apply rpShutdown_keeps | apply modLegs_keeps | apply rpDpc_keeps | apply rpSurprise_keeps
    | split)

theorem execDriveInboundRequest_runs {r s : State} {a0 a1 a2} [May W .regs] [May W .hbm] [May W .fil] [May W .stg]
    [May W .out] (h : Keeps W r s) :
    Runs W r (execDriveInboundRequest a0 a1 a2 s) := by
  unfold execDriveInboundRequest
  repeat (with_reducible first
    | assumption | intro _ | apply keeps_ite | apply runs_ite | apply runs_next | apply keeps_foldl
    | apply whenOn_keeps | apply stageWrite_keeps | apply rpAer_keeps | apply rpCount_keeps | apply State.emit_keeps
    | split | refine keeps_fil ?_ rfl rfl)

theorem execRootPortLinkDown_runs {r s : State} {a0} [May W .regs] [May W .hif] [May W .fil] [May W .stg] [May W .out] (h
    : Keeps W r s) : Runs W r (execRootPortLinkDown a0 s) := by
  unfold execRootPortLinkDown
  repeat (with_reducible first
    | assumption | intro _ | apply runs_next | apply whenOn_keeps | apply rpSurprise_keeps)

theorem execNsWrite_runs {r s : State} {a0 a1} [May W .regs] [May W .hif] [May W .dom] [May W .stg] [May W .out]
    [May W .free] (h : Keeps W r s) : Runs W r (execNsWrite a0 a1 s) := by
  unfold execNsWrite
  repeat (with_reducible first
    | assumption | intro _ | apply runs_next | apply whenUp_keeps | apply ctrlRun_keeps | apply nsWriteRec_keeps)

theorem execExtWrite_runs {r s : State} {a0 a1} [May W .regs] [May W .hif] [May W .dom] [May W .stg] [May W .out]
    [May W .free] (h : Keeps W r s) : Runs W r (execExtWrite a0 a1 s) := by
  unfold execExtWrite
  repeat (with_reducible first
    | assumption | intro _ | apply runs_next | apply whenUp_keeps | apply ctrlRun_keeps | apply extWriteRec_keeps)

theorem execNsRead_runs {r s : State} {a0 a1} [May W .regs] [May W .hif] [May W .dom] [May W .out] [May W .free] (h
    : Keeps W r s) : Runs W r (execNsRead a0 a1 s) := by
  unfold execNsRead
  repeat (with_reducible first
    | assumption | intro _ | apply runs_next | apply whenUp_keeps | apply ctrlRun_keeps | apply nsReadRec_keeps)

theorem execStgEnable_runs {r s : State} {a0} [May W .regs] [May W .hbm] [May W .hif] [May W .fil] [May W .rev]
    [May W .tu] [May W .eth] [May W .stk] [May W .win] [May W .grn] [May W .tly] [May W .car] [May W .pwr] [May W .out]
    [May W .free] (h : Keeps W r s) : Runs W r (execStgEnable a0 s) := by
  unfold execStgEnable
  repeat (with_reducible first
    | assumption | intro _ | apply runs_next | apply fromHost_keeps | apply stgEnable_keeps)

end Sys2Proof.Machine
end

