-- ==== Sys2Proof/Laws/SwitchKeep.lean ====
section
/-! SUPPORT. Each operation of Machine/Switch.lean keeps what `Keeps` says. -/

set_option Elab.async false

namespace Sys2Proof.Machine

open Sys2Proof

variable {W : List Part}

theorem execEgressSelect_runs {r s : State} {a0} [May W .tly] (h : Keeps W r s) : Runs W r (execEgressSelect a0 s) := by
  unfold execEgressSelect
  repeat (with_reducible first
    | assumption | intro _ | apply runs_next | apply whenUp_keeps | apply egressSelect_keeps)

theorem execSelectionDisplace_runs {r s : State} {a0} [May W .regs] [May W .tly] (h : Keeps W r s)
    : Runs W r (execSelectionDisplace a0 s) := by
  unfold execSelectionDisplace
  repeat (with_reducible first
    | assumption | intro _ | apply runs_next | apply whenUp_keeps | apply displace_keeps)

theorem execFrameTransmitStart_runs {r s : State} {a0 a1} [May W .regs] [May W .fil] [May W .eth] [May W .stk]
    [May W .grn] [May W .tly] [May W .out] [May W .free] (h : Keeps W r s) :
    Runs W r (execFrameTransmitStart a0 a1 s) := by
  unfold execFrameTransmitStart
  repeat (with_reducible first
    | assumption | intro _ | apply runs_next | apply whenUp_keeps | apply transmitStart_keeps)

theorem execPfcRefresh_runs {r s : State} {a0 a1} [May W .regs] [May W .out] (h : Keeps W r s)
    : Runs W r (execPfcRefresh a0 a1 s) := by
  unfold execPfcRefresh
  repeat (with_reducible first
    | assumption | intro _ | apply runs_next | apply whenUp_keeps | apply pfcRefresh_keeps)

theorem execPfcFrameReceive_runs {r s : State} {a0 a1 a2 a3} [May W .regs] [May W .hbm] [May W .hif] [May W .fil]
    [May W .rev] [May W .tu] [May W .eth] [May W .stk] [May W .win] [May W .grn] [May W .tly] [May W .car] [May W .pwr]
    [May W .out] [May W .free] (h : Keeps W r s) :
    Runs W r (execPfcFrameReceive a0 a1 a2 a3 s) := by
  unfold execPfcFrameReceive
  repeat (with_reducible first
    | assumption | intro _ | apply runs_next | apply fromWire_keeps | apply pauseArrive_keeps)

theorem execPauseQuantaExpiry_runs {r s : State} {a0 a1} [May W .regs] (h : Keeps W r s) :
    Runs W r (execPauseQuantaExpiry a0 a1 s) := by
  unfold execPauseQuantaExpiry
  repeat (with_reducible first
    | assumption | intro _ | apply runs_next | apply whenUp_keeps | apply pauseEnd_keeps)

theorem execFlushCellReturn_runs {r s : State} {a0} [May W .regs] [May W .grn] [May W .out] (h : Keeps W r s)
    : Runs W r (execFlushCellReturn a0 s) := by
  unfold execFlushCellReturn
  repeat (with_reducible first
    | assumption | intro _ | apply runs_next | apply whenUp_keeps | apply flushReturn_keeps)

theorem execGranaryEnable_runs {r s : State} {a0} [May W .regs] [May W .hbm] [May W .hif] [May W .fil] [May W .rev]
    [May W .tu] [May W .eth] [May W .stk] [May W .win] [May W .grn] [May W .tly] [May W .car] [May W .pwr] [May W .out]
    [May W .free] (h : Keeps W r s) : Runs W r (execGranaryEnable a0 s) := by
  unfold execGranaryEnable
  repeat (with_reducible first
    | assumption | intro _ | apply runs_next | apply fromHost_keeps | apply grnEnable_keeps)

theorem qprofMin_keeps {r s : State} {a0 a1} [May W .regs] (h : Keeps W r s) : Keeps W r (qprofMin s a0 a1) := by
  unfold qprofMin
  repeat (with_reducible first
    | assumption | apply keeps_ite | apply State.wr_keeps | apply grnErr_keeps)

theorem execQprofMinWrite_runs {r s : State} {a0 a1} [May W .regs] [May W .hbm] [May W .hif] [May W .fil] [May W .rev]
    [May W .tu] [May W .eth] [May W .stk] [May W .win] [May W .grn] [May W .tly] [May W .car] [May W .pwr] [May W .out]
    [May W .free] (h : Keeps W r s) : Runs W r (execQprofMinWrite a0 a1 s) := by
  unfold execQprofMinWrite
  repeat (with_reducible first
    | assumption | intro _ | apply runs_next | apply fromHost_keeps | apply qprofMin_keeps)

theorem headroomKeep_keeps {r s t : State} [May W .regs] (h : Keeps W r s) (k : Keeps W r t) : Keeps W r
    (headroomKeep s t) := by
  unfold headroomKeep
  exact keeps_ite (grnErr_keeps h) k

theorem inCfgWrite_keeps {r s : State} {a0 a1 a2} [May W .regs] (h : Keeps W r s) : Keeps W r (inCfgWrite s a0 a1 a2) := by
  unfold inCfgWrite
  repeat (with_reducible first
    | assumption | apply headroomKeep_keeps | apply State.wr_keeps)

theorem execHeadroomConfigWrite_runs {r s : State} {a0} [May W .regs] [May W .hbm] [May W .hif] [May W .fil]
    [May W .rev] [May W .tu] [May W .eth] [May W .stk] [May W .win] [May W .grn] [May W .tly] [May W .car] [May W .pwr]
    [May W .out] [May W .free] (h : Keeps W r s) : Runs W r (execHeadroomConfigWrite a0 s) := by
  unfold execHeadroomConfigWrite
  repeat (with_reducible first
    | assumption | intro _ | apply runs_next | apply fromHost_keeps | apply inCfgWrite_keeps
    | apply headroomKeep_keeps | apply State.wr_keeps | split)

theorem execDeepReturn_runs {r s : State} {a0 a1} [May W .regs] [May W .hif] [May W .fil] [May W .rev] [May W .grn]
    [May W .out] [May W .free] (h : Keeps W r s) : Runs W r (execDeepReturn a0 a1 s) := by
  unfold execDeepReturn
  repeat (with_reducible first
    | assumption | intro _ | apply runs_next | apply whenUp_keeps | apply deepReturn_keeps)

theorem execMulticastMemberEnqueue_runs {r s : State} {a0} [May W .regs] [May W .grn] [May W .tly] [May W .out]
    [May W .free] (h : Keeps W r s) :
    Runs W r (execMulticastMemberEnqueue a0 s) := by
  unfold execMulticastMemberEnqueue
  repeat (with_reducible first
    | assumption | intro _ | apply runs_next | apply whenUp_keeps | apply mcEnqueue_keeps)

theorem execFilbertDelivery_runs {r s : State} [May W .regs] [May W .hbm] [May W .fil] [May W .grn] [May W .out] (h
    : Keeps W r s) : Runs W r (execFilbertDelivery s) := by
  unfold execFilbertDelivery
  repeat (with_reducible first
    | assumption | intro _ | apply runs_next | apply whenUp_keeps | apply filbertDeliver_keeps)

theorem poisonCell_keeps {r s : State} {a0} [May W .grn] [May W .car] (h : Keeps W r s) : Keeps W r (poisonCell s a0) := by
  unfold poisonCell
  repeat (with_reducible first
    | assumption | intro _ | apply keeps_ite | split | apply keeps_grn | apply keeps_car
    | refine keeps_mk ?_ (fun p hp => by cases p <;> first | exact rfl | exact absurd May.mem hp))

theorem sramError_keeps {r s : State} {a0 a1} [May W .regs] [May W .hif] [May W .fil] [May W .rev] [May W .grn]
    [May W .car] [May W .out] (h : Keeps W r s) : Keeps W r (sramError s a0 a1) := by
  unfold sramError
  dsimp only
  repeat (with_reducible first
    | assumption | apply keeps_ite | apply keeps1_ite | apply State.inc_keeps | apply poisonCell_keeps
    | apply countFailure_keeps | refine keeps_of1 (by with_reducible assumption) ?_
    | exact keeps_fst (by with_reducible assumption) | refine keeps_fst (countFailure_keeps ?_) | apply keeps1_mk)

theorem execGranarySramError_runs {r s : State} {a0 a1 a2 a3} [May W .regs] [May W .hif] [May W .fil] [May W .rev]
    [May W .grn] [May W .car] [May W .out] (h : Keeps W r s) :
    Runs W r (execGranarySramError a0 a1 a2 a3 s) := by
  unfold execGranarySramError
  repeat (with_reducible first
    | assumption | intro _ | apply runs_next | apply whenUp_keeps | apply sramError_keeps)

theorem execShaperRefill_runs {r s : State} [May W .tly] (h : Keeps W r s) : Runs W r (execShaperRefill s) := by
  unfold execShaperRefill
  repeat (with_reducible first
    | assumption | intro _ | apply runs_next | apply whenUp_keeps | apply shaperRefill_keeps)

theorem execGateEvent_runs {r s : State} {a0 a1} [May W .regs] [May W .eth] [May W .out] (h : Keeps W r s)
    : Runs W r (execGateEvent a0 a1 s) := by
  unfold execGateEvent
  repeat (with_reducible first
    | assumption | intro _ | apply runs_next | apply whenUp_keeps | apply gateEvent_keeps)

theorem execGateChange_runs {r s : State} {a0} [May W .regs] [May W .hbm] [May W .hif] [May W .fil] [May W .rev]
    [May W .tu] [May W .eth] [May W .stk] [May W .win] [May W .grn] [May W .tly] [May W .car] [May W .pwr] [May W .out]
    [May W .free] (h : Keeps W r s) : Runs W r (execGateChange a0 s) := by
  unfold execGateChange
  repeat (with_reducible first
    | assumption | intro _ | apply runs_next | apply fromHost_keeps | apply gateChange_keeps)

theorem execGateConfigChange_runs {r s : State} {a0} [May W .regs] [May W .eth] [May W .tly] [May W .out] (h
    : Keeps W r s) : Runs W r (execGateConfigChange a0 s) := by
  unfold execGateConfigChange
  repeat (with_reducible first
    | assumption | intro _ | apply runs_next | apply whenUp_keeps | apply gateTakeOver_keeps)

theorem execGateDisable_runs {r s : State} {a0} [May W .regs] [May W .hbm] [May W .hif] [May W .fil] [May W .rev]
    [May W .tu] [May W .eth] [May W .stk] [May W .win] [May W .grn] [May W .tly] [May W .car] [May W .pwr] [May W .out]
    [May W .free] (h : Keeps W r s) : Runs W r (execGateDisable a0 s) := by
  unfold execGateDisable
  repeat (with_reducible first
    | assumption | intro _ | apply runs_next | apply fromHost_keeps | apply gateDisable_keeps)

end Sys2Proof.Machine
end

