-- ==== Sys2Proof/Laws/TimeKeep.lean ====
section
/-! SUPPORT. Each operation of Machine/Time.lean keeps what `Keeps` says. -/

set_option Elab.async false

namespace Sys2Proof.Machine

open Sys2Proof

variable {W : List Part}

theorem execTimeCapture_runs {r s : State} [May W .regs] [May W .hbm] [May W .hif] [May W .fil] [May W .rev]
    [May W .tu] [May W .eth] [May W .stk] [May W .win] [May W .grn] [May W .tly] [May W .car] [May W .pwr] [May W .out]
    [May W .free] (h : Keeps W r s) : Runs W r (execTimeCapture s) := by
  unfold execTimeCapture
  repeat (with_reducible first
    | assumption | intro _ | apply runs_next | apply fromHost_keeps | apply timeCapture_keeps)

theorem execTimeSet_runs {r s : State} {a0 a1} [May W .regs] [May W .hbm] [May W .hif] [May W .fil] [May W .rev]
    [May W .tu] [May W .eth] [May W .stk] [May W .win] [May W .grn] [May W .tly] [May W .car] [May W .pwr] [May W .out]
    [May W .free] (h : Keeps W r s) : Runs W r (execTimeSet a0 a1 s) := by
  unfold execTimeSet
  repeat (with_reducible first
    | assumption | intro _ | apply runs_next | apply fromHost_keeps | apply timeSet_keeps | apply State.wr_keeps)

theorem execSampleCommit_runs {r s : State} {a0} [May W .regs] [May W .hbm] [May W .hif] [May W .fil] [May W .rev]
    [May W .tu] [May W .eth] [May W .stk] [May W .win] [May W .grn] [May W .tly] [May W .car] [May W .pwr] [May W .out]
    [May W .free] (h : Keeps W r s) : Runs W r (execSampleCommit a0 s) := by
  unfold execSampleCommit
  repeat (with_reducible first
    | assumption | intro _ | apply runs_next | apply fromHost_keeps | apply sampleCommit_keeps | apply State.wr_keeps)

theorem execServoHoldTimeout_runs {r s : State} [May W .regs] [May W .now] [May W .tu] [May W .eth] [May W .out]
    [May W .free] (h : Keeps W r s) : Runs W r (execServoHoldTimeout s) := by
  unfold execServoHoldTimeout
  repeat (with_reducible first
    | assumption | intro _ | apply keeps_ite | apply runs_ite | apply runs_next | apply whenOn_keeps
    | apply servoHoldover_keeps | apply clockTo_keeps)

theorem execServoModeWrite_runs {r s : State} {a0} [May W .regs] [May W .hbm] [May W .hif] [May W .fil] [May W .rev]
    [May W .tu] [May W .eth] [May W .stk] [May W .win] [May W .grn] [May W .tly] [May W .car] [May W .pwr] [May W .out]
    [May W .free] (h : Keeps W r s) : Runs W r (execServoModeWrite a0 s) := by
  unfold execServoModeWrite
  repeat (with_reducible first
    | assumption | intro _ | apply runs_next | apply fromHost_keeps | apply servoMode_keeps)

theorem execPpsInEdge_runs {r s : State} [May W .regs] [May W .tu] [May W .eth] [May W .out] [May W .free] (h
    : Keeps W r s) : Runs W r (execPpsInEdge s) := by
  unfold execPpsInEdge
  repeat (with_reducible first
    | assumption | intro _ | apply keeps_ite | apply keeps2_ite | apply runs_ite | apply runs_next
    | apply whenOn_keeps | apply tuStamp_keeps | apply State.wr_keeps | apply State.inc_keeps | apply onOffset_keeps
    | refine keeps_of2 (by with_reducible assumption) ?_ | exact keeps_snd (by with_reducible assumption)
    | refine keeps_snd (tuStamp_keeps ?_) | split | apply keeps2_mk)

theorem execPpsOutEdge_runs {r s : State} [May W .regs] [May W .now] [May W .fil] [May W .tu] [May W .out] [May W .free]
    (h : Keeps W r s) : Runs W r (execPpsOutEdge s) := by
  unfold execPpsOutEdge
  repeat (with_reducible first
    | assumption | intro _ | apply keeps_ite | apply runs_ite | apply runs_next | apply keeps_foldl
    | apply whenOn_keeps | apply latchEv_keeps | apply clockTo_keeps | apply State.emit_keeps | apply keeps_tu)

theorem execEecRefQualified_runs {r s : State} {a0 a1} [May W .regs] [May W .tu] [May W .eth] [May W .out] (h
    : Keeps W r s) : Runs W r (execEecRefQualified a0 a1 s) := by
  unfold execEecRefQualified
  repeat (with_reducible first
    | assumption | intro _ | apply runs_next | apply whenOn_keeps | apply eecQualified_keeps)

theorem execEecRefLost_runs {r s : State} {a0 a1} [May W .regs] [May W .tu] [May W .eth] [May W .out] (h : Keeps W r s)
    : Runs W r (execEecRefLost a0 a1 s) := by
  unfold execEecRefLost
  repeat (with_reducible first
    | assumption | intro _ | apply runs_next | apply whenOn_keeps | apply eecLost_keeps)

theorem execSynceEnableWrite_runs {r s : State} {a0} [May W .regs] [May W .hbm] [May W .hif] [May W .fil] [May W .rev]
    [May W .tu] [May W .eth] [May W .stk] [May W .win] [May W .grn] [May W .tly] [May W .car] [May W .pwr] [May W .out]
    [May W .free] (h : Keeps W r s) : Runs W r (execSynceEnableWrite a0 s) := by
  unfold execSynceEnableWrite
  repeat (with_reducible first
    | assumption | intro _ | apply runs_next | apply fromHost_keeps | apply synceEnable_keeps)

end Sys2Proof.Machine
end

