-- ==== Sys2Proof/Laws/TrustOpsKeep.lean ====
section
/-! SUPPORT. Each operation of Machine/TrustOps.lean keeps what `Keeps` says. -/

set_option Elab.async false

namespace Sys2Proof.Machine

open Sys2Proof

variable {W : List Part}

theorem putTrust_keeps {r s : State} {a0} [May W .trust] (h : Keeps W r s) : Keeps W r (putTrust s a0) := by
  unfold putTrust
  repeat (with_reducible first
    | assumption | apply keeps_trust)

theorem byFirmware_keeps {r s : State} {a0} (h : Keeps W r s) (ha0 : ∀ s, Keeps W r s → Runs W r (a0 s)) :
    Runs W r (byFirmware s a0) := by
  unfold byFirmware
  repeat (with_reducible first
    | assumption | apply keeps_ite | apply runs_ite | apply runs_next | intro _ | apply ha0)

theorem setFail_keeps {r s : State} {a0} [May W .regs] (h : Keeps W r s) : Keeps W r (setFail s a0) := by
  unfold setFail
  repeat (with_reducible first
    | assumption | apply State.wr_keeps)

theorem rejectReeve_keeps {r s : State} {a0} [May W .regs] [May W .hif] [May W .fil] [May W .eth] [May W .win]
    [May W .grn] [May W .tly] [May W .hsk] [May W .stg] [May W .pwr] [May W .trust] [May W .out] (h : Keeps W r s)
    : Keeps W r (rejectReeve s a0) := by
  unfold rejectReeve
  repeat (with_reducible first
    | assumption | intro _ | apply keeps_ite | apply keeps_foldl | apply setFail_keeps | apply putTrust_keeps
    | apply putPwr_keeps | apply State.wr_keeps | apply gateOff_keeps)

theorem rejectFilbert_keeps {r s : State} {a0} [May W .regs] [May W .trust] (h : Keeps W r s)
    : Keeps W r (rejectFilbert s a0) := by
  unfold rejectFilbert
  repeat (with_reducible first
    | assumption | apply keeps_ite | apply setFail_keeps | apply putTrust_keeps | apply State.wr_keeps)

theorem reeveImage_keeps {r s : State} {a0} [May W .regs] [May W .hif] [May W .fil] [May W .rev] [May W .eth]
    [May W .win] [May W .grn] [May W .tly] [May W .hsk] [May W .stg] [May W .pwr] [May W .trust] [May W .out] (h
    : Keeps W r s) : Keeps W r (reeveImage s a0) := by
  unfold reeveImage
  repeat (with_reducible first
    | assumption | apply keeps_ite | apply rejectReeve_keeps | apply State.wr_keeps | apply putTrust_keeps | split
    | apply keeps_rev)

theorem startFilbert_keeps {r s : State} {a0} [May W .regs] [May W .fil] [May W .trust] (h : Keeps W r s)
    : Keeps W r (startFilbert s a0) := by
  unfold startFilbert
  repeat (with_reducible first
    | (lift_lets
       intro x
       first
       | (have hx : Keeps W r x := (by
            unfold x
            repeat (with_reducible first
              | assumption | intro _ | apply State.wr_keeps | apply putTrust_keeps | apply releaseHart_keeps | split))
          clear_value x)
       | clear_value x)
    | assumption | intro _ | apply State.wr_keeps | apply putTrust_keeps | apply releaseHart_keeps | split)

theorem filbertImage_keeps {r s : State} {a0} [May W .regs] [May W .hbm] [May W .fil] [May W .trust] (h : Keeps W r s)
    : Keeps W r (filbertImage s a0) := by
  unfold filbertImage
  repeat (with_reducible first
    | assumption | apply keeps_ite | apply rejectFilbert_keeps | apply State.hbmWrite_keeps
    | apply startFilbert_keeps | split)

theorem blowFuses_keeps {r s : State} {a0 a1} [May W .regs] (h : Keeps W r s) : Keeps W r (blowFuses s a0 a1) := by
  unfold blowFuses
  repeat (with_reducible first
    | assumption | intro _ | apply keeps_ite | apply keeps_foldl | apply State.wr_keeps)

theorem devidSign_keeps {r s : State} {a0} [May W .free] (h : Keeps W r s) : Keeps2 W r (devidSign s a0) := by
  unfold devidSign
  repeat (with_reducible first
    | assumption | apply State.freeBits_keeps | refine keeps_of2 (by with_reducible assumption) ?_
    | exact keeps_snd (by with_reducible assumption) | refine keeps_snd (State.freeBits_keeps ?_) | split
    | apply keeps2_mk)

theorem takeIndex_keeps {r s : State} [May W .regs] [May W .trust] (h : Keeps W r s) : KeepsO2 W r (takeIndex s) := by
  unfold takeIndex
  repeat (with_reducible first
    | assumption | apply keeps_ite | apply keepsO2_ite | apply keepsO2_some | exact keepsO2_none
    | apply putTrust_keeps | apply State.wr_keeps | refine keeps_ofO2 (by with_reducible assumption) ?_)

theorem evidence_keeps {r s : State} {n m} [May W .regs] [May W .trust] [May W .free] (h : Keeps W r s)
    : Keeps2 W r (evidence s n m) := by
  unfold evidence
  split
  · exact h
  · rename_i q u e
    extract_lets ns body
    exact keeps_snd (devidSign_keeps (a0 := body) (keeps_ofO2 e (takeIndex_keeps h)))

theorem setUnlock_keeps {r s : State} {a0} [May W .regs] (h : Keeps W r s) : Keeps W r (setUnlock s a0) := by
  unfold setUnlock
  repeat (with_reducible first
    | assumption | apply State.wr_keeps)

theorem setChal_keeps {r s : State} {a0} [May W .regs] (h : Keeps W r s) : Keeps W r (setChal s a0) := by
  unfold setChal
  repeat (with_reducible first
    | assumption | intro _ | apply keeps_foldl | apply State.wr_keeps)

theorem newChal_keeps {r s : State} [May W .regs] [May W .free] (h : Keeps W r s) : Keeps W r (newChal s) := by
  unfold newChal
  repeat (with_reducible first
    | assumption | apply keeps_ite | apply keeps2_ite | apply State.freeBytes_keeps | apply setChal_keeps
    | refine keeps_of2 (by with_reducible assumption) ?_ | exact keeps_snd (by with_reducible assumption)
    | refine keeps_snd (State.freeBytes_keeps ?_) | split | apply keeps2_mk)

theorem startVerify_keeps {r s : State} [May W .regs] [May W .trust] (h : Keeps W r s) : Keeps W r (startVerify s) := by
  unfold startVerify
  repeat (with_reducible first
    | assumption | apply keeps_ite | apply setChal_keeps | apply putTrust_keeps | apply setUnlock_keeps)

theorem relock_keeps {r s : State} [May W .regs] (h : Keeps W r s) : Keeps W r (relock s) := by
  unfold relock
  repeat (with_reducible first
    | assumption | apply keeps_ite | apply State.wr_keeps | apply setUnlock_keeps)

theorem unlockWrite_keeps {r s : State} {a0} [May W .regs] [May W .trust] [May W .free] (h : Keeps W r s)
    : Keeps W r (unlockWrite s a0) := by
  unfold unlockWrite
  repeat (with_reducible first
    | assumption | apply keeps_ite | apply newChal_keeps | apply startVerify_keeps | apply relock_keeps)

theorem endVerify_keeps {r s : State} [May W .regs] [May W .trust] (h : Keeps W r s) : Keeps W r (endVerify s) := by
  unfold endVerify
  repeat (with_reducible first
    | assumption | apply keeps_ite | apply setUnlock_keeps | apply putTrust_keeps | apply State.wr_keeps | split)

theorem fwWrite_keeps {r s : State} {a0 a1 a2} [May W .out] (h : Keeps W r s) : Keeps2 W r (fwWrite s a0 a1 a2) := by
  unfold fwWrite
  repeat (with_reducible first
    | assumption | apply keeps_ite | apply keeps2_ite | apply State.emit_keeps
    | refine keeps_of2 (by with_reducible assumption) ?_ | exact keeps_snd (by with_reducible assumption)
    | apply keeps2_mk)

theorem fwActivate_keeps {r s : State} {a0 a1} [May W .regs] [May W .trust] (h : Keeps W r s)
    : Keeps2 W r (fwActivate s a0 a1) := by
  unfold fwActivate
  repeat (with_reducible first
    | assumption | apply keeps_ite | apply keeps2_ite | apply setFail_keeps | apply putTrust_keeps
    | refine keeps_of2 (by with_reducible assumption) ?_ | exact keeps_snd (by with_reducible assumption) | split
    | apply keeps2_mk)

end Sys2Proof.Machine
end

