-- ==== Sys2Proof/Laws/WinKeep.lean ====
section
/-! SUPPORT. Each operation of Machine/Win.lean keeps what `Keeps` says. -/

set_option Elab.async false

namespace Sys2Proof.Machine

open Sys2Proof

variable {W : List Part}

theorem execFrameReceive_runs {r s : State} {a0 a1} [May W .regs] [May W .hbm] [May W .hif] [May W .dom] [May W .fil]
    [May W .rev] [May W .tu] [May W .eth] [May W .stk] [May W .win] [May W .grn] [May W .tly] [May W .car] [May W .pwr]
    [May W .out] [May W .free] (h : Keeps W r s) : Runs W r (execFrameReceive a0 a1 s) := by
  unfold execFrameReceive
  repeat (with_reducible first
    | assumption | intro _ | apply runs_next | apply fromWire_keeps | apply wireIn_keeps | apply verify_keeps
    | apply respond_keeps | refine keeps_of2 (by with_reducible assumption) ?_
    | exact keeps_snd (by with_reducible assumption) | refine keeps_snd (verify_keeps ?_) | split | apply keeps2_mk)

theorem hbmLookupDone_keeps {r s : State} {a0 a1} [May W .regs] [May W .hbm] [May W .hif] [May W .dom] [May W .fil]
    [May W .rev] [May W .win] [May W .grn] [May W .tly] [May W .out] [May W .free] (h : Keeps W r s) : Keeps W r
    (hbmLookupDone s a0 a1) := by
  unfold hbmLookupDone
  dsimp only
  repeat (with_reducible first
    | assumption | apply hbmFail_keeps | apply advance_keeps | apply setWait_keeps | apply drainWait_keeps
    | apply drainRx_keeps | refine keeps_of1 (by with_reducible assumption) ?_
    | exact keeps_fst (by with_reducible assumption) | refine keeps_fst (advance_keeps _ ?_) | split
    | apply keeps1_mk)

theorem execHbmLookupComplete_runs {r s : State} {a0 a1} [May W .regs] [May W .hbm] [May W .hif] [May W .dom]
    [May W .fil] [May W .rev] [May W .win] [May W .grn] [May W .tly] [May W .out] [May W .free] (h : Keeps W r s) :
    Runs W r (execHbmLookupComplete a0 a1 s) := by
  unfold execHbmLookupComplete
  repeat (with_reducible first
    | assumption | intro _ | apply runs_next | apply whenUp_keeps | apply hbmLookupDone_keeps)

theorem execInternalInputFrame_runs {r s : State} {a0} [May W .regs] [May W .hbm] [May W .hif] [May W .dom]
    [May W .fil] [May W .win] [May W .grn] [May W .tly] [May W .out] [May W .free] (h : Keeps W r s)
    : Runs W r (execInternalInputFrame a0 s) := by
  unfold execInternalInputFrame
  repeat (with_reducible first
    | assumption | intro _ | apply runs_next | apply whenUp_keeps | apply internalInput_keeps)

theorem espReenter_keeps {r s : State} [May W .regs] [May W .win] (h : Keeps W r s) : Keeps W r (espReenter s) := by
  unfold espReenter
  repeat (with_reducible first
    | assumption | apply keeps_ite | apply putWin_keeps | apply winCount_keeps | apply toInternal_keeps | split)

theorem execEspInnerReentry_runs {r s : State} [May W .regs] [May W .win] (h : Keeps W r s)
    : Runs W r (execEspInnerReentry s) := by
  unfold execEspInnerReentry
  repeat (with_reducible first
    | assumption | intro _ | apply runs_next | apply whenUp_keeps | apply espReenter_keeps)

theorem scanPacket_keeps {r s : State} {a0} [May W .regs] [May W .win] [May W .grn] [May W .out] [May W .free] (h
    : Keeps W r s) : Keeps W r (scanPacket s a0) := by
  unfold scanPacket
  repeat (with_reducible first
    | (lift_lets
       intro x
       first
       | (have hx : Keeps W r x := (by
            unfold x
            repeat (with_reducible first
              | assumption | intro _ | apply keeps_foldl | apply keeps1_foldl | apply putWin_keeps
              | apply toFilbert_keeps | apply winCount_keeps | refine keeps_of1 (by with_reducible assumption) ?_
              | exact keeps_fst (by with_reducible assumption) | refine keeps_fst (toFilbert_keeps ?_) | split
              | apply keeps1_mk))
          clear_value x)
       | (have hx : Keeps1 W r x := (by
            unfold x
            repeat (with_reducible first
              | assumption | intro _ | apply keeps_foldl | apply keeps1_foldl | apply putWin_keeps
              | apply toFilbert_keeps | apply winCount_keeps | refine keeps_of1 (by with_reducible assumption) ?_
              | exact keeps_fst (by with_reducible assumption) | refine keeps_fst (toFilbert_keeps ?_) | split
              | apply keeps1_mk))
          clear_value x)
       | clear_value x)
    | assumption | intro _ | apply keeps_foldl | apply keeps1_foldl | apply putWin_keeps | apply toFilbert_keeps
    | apply winCount_keeps | refine keeps_of1 (by with_reducible assumption) ?_
    | exact keeps_fst (by with_reducible assumption) | refine keeps_fst (toFilbert_keeps ?_) | split
    | apply keeps1_mk)

theorem scanDone_keeps {r s : State} {a0} [May W .regs] [May W .win] [May W .grn] [May W .out] [May W .free] (h
    : Keeps W r s) : Keeps W r (scanDone s a0) := by
  unfold scanDone
  repeat (with_reducible first
    | assumption | apply keeps_ite | apply scanPacket_keeps | apply putWin_keeps | split)

theorem execPatternScanComplete_runs {r s : State} {a0} [May W .regs] [May W .win] [May W .grn] [May W .out]
    [May W .free] (h : Keeps W r s) : Runs W r (execPatternScanComplete a0 s) := by
  unfold execPatternScanComplete
  repeat (with_reducible first
    | assumption | intro _ | apply runs_next | apply whenUp_keeps | apply scanDone_keeps)

theorem execFragEntryExpiry_runs {r s : State} [May W .regs] [May W .win] (h : Keeps W r s)
    : Runs W r (execFragEntryExpiry s) := by
  unfold execFragEntryExpiry
  repeat (with_reducible first
    | assumption | intro _ | apply runs_next | apply whenUp_keeps | apply fragSweep_keeps)

theorem tblEnable_keeps {r s : State} {a0} [May W .regs] [May W .hbm] [May W .win] (h : Keeps W r s)
    : Keeps W r (tblEnable s a0) := by
  unfold tblEnable
  repeat (with_reducible first
    | assumption | apply keeps_ite | apply State.wr_keeps | apply tblClear_keeps)

theorem tblDisable_keeps {r s : State} {a0} [May W .regs] [May W .hbm] [May W .win] (h : Keeps W r s)
    : Keeps W r (tblDisable s a0) := by
  unfold tblDisable
  repeat (with_reducible first
    | assumption | apply keeps_ite | apply State.wr_keeps | apply tblClear_keeps)

theorem execTableEnable_runs {r s : State} {a0} [May W .regs] [May W .hbm] [May W .hif] [May W .fil] [May W .rev]
    [May W .tu] [May W .eth] [May W .stk] [May W .win] [May W .grn] [May W .tly] [May W .car] [May W .pwr] [May W .out]
    [May W .free] (h : Keeps W r s) : Runs W r (execTableEnable a0 s) := by
  unfold execTableEnable
  repeat (with_reducible first
    | assumption | intro _ | apply runs_next | apply fromHost_keeps | apply tblEnable_keeps)

theorem execTableReady_runs {r s : State} {a0} [May W .regs] (h : Keeps W r s) : Runs W r (execTableReady a0 s) := by
  unfold execTableReady
  repeat (with_reducible first
    | assumption | intro _ | apply keeps_ite | apply runs_ite | apply runs_next | apply whenUp_keeps
    | apply State.wr_keeps)

theorem execTableDisable_runs {r s : State} {a0} [May W .regs] [May W .hbm] [May W .hif] [May W .fil] [May W .rev]
    [May W .tu] [May W .eth] [May W .stk] [May W .win] [May W .grn] [May W .tly] [May W .car] [May W .pwr] [May W .out]
    [May W .free] (h : Keeps W r s) : Runs W r (execTableDisable a0 s) := by
  unfold execTableDisable
  repeat (with_reducible first
    | assumption | intro _ | apply runs_next | apply fromHost_keeps | apply tblDisable_keeps)

end Sys2Proof.Machine
end

