-- ==== Sys2Proof/Laws/RegWriteKeep.lean ====
section
/-! SUPPORT. Each operation of Machine/RegWrite.lean keeps what `Keeps` says. -/

set_option Elab.async false

namespace Sys2Proof.Machine

open Sys2Proof

variable {W : List Part}

theorem pllWrite_keeps {r s : State} {a0 a1} [May W .regs] [May W .eth] [May W .out] (h : Keeps W r s)
    : Keeps W r (pllWrite s a0 a1) := by
  unfold pllWrite
  repeat (with_reducible first
    | assumption | apply keeps_ite | apply steerShow_keeps | apply pllShow_keeps | apply State.wr_keeps)

theorem linkStart_keeps {r s : State} {a0} [May W .regs] [May W .stk] [May W .out] (h : Keeps W r s)
    : Keeps W r (linkStart s a0) := by
  unfold linkStart
  repeat (with_reducible first
    | assumption | apply keeps_ite | apply linkHello_keeps)

theorem linkStop_keeps {r s : State} {a0} [May W .regs] [May W .stk] (h : Keeps W r s) : Keeps W r (linkStop s a0) := by
  unfold linkStop
  repeat (with_reducible first
    | assumption | apply State.wr_keeps | apply putLink_keeps | apply State.reset_keeps)

theorem stkEnable_keeps {r s : State} {a0} [May W .regs] [May W .stk] [May W .out] (h : Keeps W r s)
    : Keeps W r (stkEnable s a0) := by
  unfold stkEnable
  repeat (with_reducible first
    | assumption | intro _ | apply keeps_ite | apply keeps_foldl | apply stkShow_keeps | apply State.wr_keeps
    | apply linkStart_keeps | apply linkStop_keeps)

theorem linkWrite_keeps {r s : State} {a0 a1 a2} [May W .regs] [May W .stk] [May W .out] (h : Keeps W r s)
    : Keeps W r (linkWrite s a0 a1 a2) := by
  unfold linkWrite
  repeat (with_reducible first
    | assumption | apply keeps_ite | apply linkStop_keeps | apply State.wr_keeps | apply linkStart_keeps)

theorem epMaxEn_keeps {r s : State} {a0 a1} [May W .regs] [May W .tly] (h : Keeps W r s) : Keeps W r (epMaxEn s a0 a1) := by
  unfold epMaxEn
  repeat (with_reducible first
    | assumption | apply keeps_ite | apply State.wr_keeps | apply setMaxTok_keeps)

theorem poolEnable_keeps {r s : State} {a0} [May W .regs] [May W .fil] (h : Keeps W r s) : Keeps W r (poolEnable s a0) := by
  unfold poolEnable
  repeat (with_reducible first
    | assumption | apply keeps_ite | apply State.wr_keeps | refine keeps_fil ?_ rfl rfl)

theorem runBits_keeps {r s : State} {a0 a1} [May W .regs] [May W .fil] (h : Keeps W r s) : Keeps W r (runBits s a0 a1) := by
  unfold runBits
  repeat (with_reducible first
    | assumption | intro _ | apply keeps_ite | apply keeps_foldl | apply State.wr_keeps | apply releaseHart_keeps
    | apply hartReset_keeps)

theorem trimCores_keeps {r s : State} {a0} [May W .regs] [May W .hif] [May W .fil] [May W .eth] [May W .win]
    [May W .grn] [May W .tly] [May W .hsk] [May W .stg] [May W .out] (h : Keeps W r s) : Keeps W r (trimCores s a0) := by
  unfold trimCores
  repeat (with_reducible first
    | assumption | intro _ | apply keeps_ite | apply keeps_foldl | apply State.wr_keeps | apply trimDomain_keeps)

theorem tuEnable_keeps {r s : State} {a0} [May W .regs] [May W .tu] (h : Keeps W r s) : Keeps W r (tuEnable s a0) := by
  unfold tuEnable
  repeat (with_reducible first
    | assumption | apply keeps_ite | apply State.wr_keeps | apply keeps_tu)

theorem ppsEnable_keeps {r s : State} {a0} [May W .regs] [May W .tu] [May W .out] (h : Keeps W r s)
    : Keeps W r (ppsEnable s a0) := by
  unfold ppsEnable
  repeat (with_reducible first
    | assumption | apply keeps_ite | apply State.wr_keeps | apply State.emit_keeps | apply keeps_tu)

theorem servoSrc_keeps {r s : State} {a0} [May W .regs] (h : Keeps W r s) : Keeps W r (servoSrc s a0) := by
  unfold servoSrc
  repeat (with_reducible first
    | assumption | apply keeps_ite | apply State.wr_keeps)

theorem synceBw_keeps {r s : State} {a0} [May W .regs] (h : Keeps W r s) : Keeps W r (synceBw s a0) := by
  unfold synceBw
  repeat (with_reducible first
    | assumption | apply keeps_ite | apply State.wr_keeps)

theorem tighten_keeps {r s : State} {a0 a1 a2 a3} [May W .regs] (h : Keeps W r s) : Keeps W r (tighten s a0 a1 a2 a3) := by
  unfold tighten
  repeat (with_reducible first
    | assumption | apply keeps_ite | apply State.inc_keeps | apply State.wr_keeps)

theorem ackCause_keeps {r s : State} {a0} [May W .regs] [May W .rev] (h : Keeps W r s) : Keeps W r (ackCause s a0) := by
  unfold ackCause
  repeat (with_reducible first
    | assumption | intro _ | apply keeps_ite | apply State.wr_keeps | apply keeps_rev)

theorem lockAll_keeps {r s : State} [May W .regs] (h : Keeps W r s) : Keeps W r (lockAll s) := by
  unfold lockAll
  repeat (with_reducible first
    | assumption | intro _ | apply keeps_foldl | apply State.wr_keeps)

/-- What a field's action keeps. -/
def FactOk (W : List Part) (o : Option (State → MDom → List Nat → Nat → Nat → State)) : Prop :=
  ∀ g, o = some g → ∀ r s m ix v w, Keeps W r s → Keeps W r (g s m ix v w)
theorem fact_ite {c : Prop} [Decidable c] {a b} (h : FactOk W a) (k : FactOk W b) : FactOk W (if c then a else b) := by
  split <;> assumption
theorem fact_some {g} (h : ∀ r s m ix v w, Keeps W r s → Keeps W r (g s m ix v w)) : FactOk W (some g) := by
  intro f e
  cases e
  exact h
theorem fact_none : FactOk W none := fun _ e => nomatch e

theorem fieldAct_ok [May W .regs] [May W .hbm] [May W .hif] [May W .dom] [May W .fil] [May W .rev] [May W .tu]
    [May W .eth] [May W .stk] [May W .win] [May W .grn] [May W .tly] [May W .lck] [May W .hsk] [May W .car]
    [May W .stg] [May W .pwr] [May W .trust] [May W .out] [May W .free] (f : Fld) : FactOk W (fieldAct f) := by
  unfold fieldAct
  repeat (with_reducible first
    | apply fact_ite | exact fact_none | apply fact_some | intro _ | assumption | apply keeps_ite
    | refine headroomKeep_keeps ?_ ?_
    | apply ethApply_keeps | apply pllWrite_keeps | apply rclkShow_keeps | apply rclkResolve_keeps
    | apply State.wr_keeps | apply stkEnable_keeps | apply linkWrite_keeps | apply fragLifeWrite_keeps
    | apply tblEnable_keeps | apply tblDisable_keeps | apply grnEnable_keeps | apply grnShow_keeps
    | apply qprofMin_keeps | apply inCfgWrite_keeps | apply epMaxEn_keeps | apply gateDisable_keeps
    | apply gateChange_keeps | apply carEnable_keeps | apply rangeWrite_keeps | apply stgEnable_keeps
    | apply rpEnable_keeps | apply rpQuiesce_keeps | apply poolEnable_keeps | apply trimCores_keeps
    | apply runBits_keeps | apply issueApply_keeps | apply hartReset_keeps | apply chanEnable_keeps
    | apply tuEnable_keeps | apply timeCapture_keeps | apply timeSet_keeps | apply servoMode_keeps
    | apply servoSrc_keeps | apply sampleCommit_keeps | apply synceEnable_keeps | apply ppsEnable_keeps
    | apply synceBw_keeps | apply pwrGo_keeps | apply trimFollow_keeps | apply rstWrite_keeps | apply blkRst_keeps
    | apply tighten_keeps | apply retClr_keeps | apply ackCause_keeps | apply unlockWrite_keeps | apply lockAll_keeps
    | apply State.reset_keeps)

theorem fieldAct_keeps {f g} {r s : State} {m ix v w} [May W .regs] [May W .hbm] [May W .hif] [May W .dom] [May W .fil]
    [May W .rev] [May W .tu] [May W .eth] [May W .stk] [May W .win] [May W .grn] [May W .tly] [May W .lck] [May W .hsk]
    [May W .car] [May W .stg] [May W .pwr] [May W .trust] [May W .out] [May W .free] (e : fieldAct f = some g) (h
    : Keeps W r s) : Keeps W r (g s m ix v w) :=
  fieldAct_ok f g e r s m ix v w h

theorem actFields_keeps {r : State} {m w lk ok} [May W .regs] [May W .hbm] [May W .hif] [May W .dom] [May W .fil]
    [May W .rev] [May W .tu] [May W .eth] [May W .stk] [May W .win] [May W .grn] [May W .tly] [May W .lck] [May W .hsk]
    [May W .car] [May W .stg] [May W .pwr] [May W .trust] [May W .out] [May W .free] (l : List (Fld × List Nat × Nat)) : ∀
    {s : State}, Keeps W r s →
    Keeps W r (actFields s m l w lk ok) := by
  induction l with
  | nil => intro s h; exact h
  | cons x l ih =>
    intro s h
    rw [actFields]
    refine ih ?_
    split
    · rename_i e
      exact keeps_ite h (fieldAct_keeps e h)
    · exact h

theorem regWord_keeps {r s : State} {a0 a1 a2 a3} [May W .regs] [May W .hbm] [May W .hif] [May W .dom] [May W .fil]
    [May W .rev] [May W .tu] [May W .eth] [May W .stk] [May W .win] [May W .grn] [May W .tly] [May W .lck] [May W .hsk]
    [May W .car] [May W .stg] [May W .pwr] [May W .trust] [May W .out] [May W .free] (h : Keeps W r s)
    : Keeps W r (regWord s a0 a1 a2 a3) := by
  unfold regWord
  repeat (with_reducible first
    | assumption | intro _ | apply keeps_ite | apply keeps1_ite | apply accessErr_keeps | apply writeFields_keeps
    | apply actFields_keeps | refine keeps_of1 (by with_reducible assumption) ?_
    | exact keeps_fst (by with_reducible assumption) | refine keeps_fst (writeFields_keeps _ ?_) | apply keeps1_mk)

theorem bankShow_keeps {r s : State} {a0} [May W .regs] [May W .eth] [May W .out] (h : Keeps W r s)
    : Keeps W r (bankShow s a0) := by
  unfold bankShow
  repeat (with_reducible first
    | assumption | apply tuShow_keeps | apply stkShow_keeps | split)

theorem wordWrite_keeps {r s : State} {a0 a1 a2} [May W .regs] [May W .hbm] [May W .hif] [May W .dom] [May W .fil]
    [May W .rev] [May W .tu] [May W .eth] [May W .stk] [May W .win] [May W .grn] [May W .tly] [May W .lck] [May W .hsk]
    [May W .car] [May W .stg] [May W .pwr] [May W .trust] [May W .out] [May W .free] (h : Keeps W r s)
    : Keeps W r (wordWrite s a0 a1 a2) := by
  unfold wordWrite
  repeat (with_reducible first
    | assumption | apply keeps_ite | apply rpCfgWrite_keeps | apply bankShow_keeps | apply regWord_keeps
    | apply accessErr_keeps | split)

theorem keepSets_keeps {r s u : State} {m a w} [May W .regs] [May W .hbm] [May W .hif] [May W .dom] [May W .fil]
    [May W .rev] [May W .tu] [May W .eth] [May W .stk] [May W .win] [May W .grn] [May W .tly] [May W .lck] [May W .hsk]
    [May W .car] [May W .stg] [May W .pwr] [May W .trust] [May W .out] [May W .free] (h : Keeps W r u)
    : Keeps W r (keepSets s m a w u) := by
  unfold keepSets
  extract_lets l t
  clear_value t
  exact keeps_ite h (keeps_foldl h fun _ _ hs => keeps_ite (State.wr_keeps hs) hs)

theorem wordsWrite_keeps {r : State} [May W .regs] [May W .hbm] [May W .hif] [May W .dom] [May W .fil] [May W .rev]
    [May W .tu] [May W .eth] [May W .stk] [May W .win] [May W .grn] [May W .tly] [May W .lck] [May W .hsk] [May W .car]
    [May W .stg] [May W .pwr] [May W .trust] [May W .out] [May W .free] (k : Nat) : ∀ {s : State} {a0 a1 a2}, Keeps W r s
    → Keeps W r (wordsWrite s a0 a1 k a2) := by
  induction k with
  | zero =>
    intro s a0 a1 a2 h
    rw [wordsWrite]
    repeat (with_reducible first
      | assumption | apply keeps_ite | apply wordWrite_keeps | apply keepSets_keeps | split)
  | succ n ih =>
    intro s a0 a1 a2 h
    rw [wordsWrite]
    repeat (with_reducible first
      | assumption | apply keeps_ite | apply wordWrite_keeps | apply keepSets_keeps | apply ih | split)

end Sys2Proof.Machine
end

