-- ==== Sys2Proof/Laws/RingKeep.lean ====
section
/-! SUPPORT. Each operation of Machine/Ring.lean keeps what `Keeps` says. -/

set_option Elab.async false

namespace Sys2Proof.Machine

open Sys2Proof

variable {W : List Part}

theorem wordIgnored_keeps {r s : State} {a0} [May W .regs] (h : Keeps W r s) : Keeps W r (wordIgnored s a0) := by
  unfold wordIgnored
  repeat (with_reducible first
    | assumption | apply State.inc_keeps | split)

theorem wordTaken_keeps {r s : State} {a0} [May W .regs] (h : Keeps W r s) : Keeps W r (wordTaken s a0) := by
  unfold wordTaken
  repeat (with_reducible first
    | assumption | apply State.inc_keeps | split)

theorem doDoorbell_keeps {r s : State} {a0 a1} [May W .regs] (h : Keeps W r s) : Keeps W r (doDoorbell s a0 a1) := by
  unfold doDoorbell
  repeat (with_reducible first
    | assumption | apply keeps_ite | apply wordIgnored_keeps | apply wordTaken_keeps | apply State.wr_keeps | split)

theorem doCqdb_keeps {r s : State} {a0 a1} [May W .regs] [May W .hif] [May W .dom] [May W .out] (h : Keeps W r s)
    : Keeps W r (doCqdb s a0 a1) := by
  unfold doCqdb
  repeat (with_reducible first
    | assumption | apply keeps_ite | apply wordIgnored_keeps | apply wordTaken_keeps | apply State.wr_keeps
    | apply cplDrain_keeps | apply ringEval_keeps | split)

theorem flushEntries_keeps {r s : State} {a0} [May W .car] (h : Keeps W r s) : Keeps W r (flushEntries s a0) := by
  unfold flushEntries
  repeat (with_reducible first
    | assumption | intro _ | apply keeps_ite | apply keeps_car)

theorem doRingCtl_keeps {r s : State} {a0 a1} [May W .regs] [May W .dom] [May W .car] (h : Keeps W r s)
    : Keeps W r (doRingCtl s a0 a1) := by
  unfold doRingCtl
  repeat (with_reducible first
    | assumption | apply keeps_ite | apply wordIgnored_keeps | apply wordTaken_keeps | apply ringPut_keeps
    | apply State.wr_keeps | apply flushEntries_keeps | split)

theorem ringResetDone_keeps {r s : State} {a0} [May W .regs] [May W .hif] [May W .dom] [May W .out] (h : Keeps W r s)
    : Keeps W r (ringResetDone s a0) := by
  unfold ringResetDone
  repeat (with_reducible first
    | assumption | apply keeps_ite | apply State.wr_keeps | apply ringPut_keeps | apply cplPost_keeps)

theorem doFetch_keeps {r s : State} {a0} [May W .regs] [May W .hif] [May W .dom] [May W .out] (h : Keeps W r s)
    : Keeps W r (doFetch s a0) := by
  unfold doFetch
  repeat (with_reducible first
    | assumption | intro _ | apply keeps_ite | apply State.wr_keeps | apply ringPut_keeps | apply sendRead_keeps
    | apply descFail_keeps | apply atcTouch_keeps | apply sendTlp_keeps | apply State.inc_keeps | split
    | apply keeps_hif)

theorem doRxBuf_keeps {r s : State} {a0} [May W .regs] [May W .hif] [May W .dom] [May W .out] (h : Keeps W r s)
    : Keeps W r (doRxBuf s a0) := by
  unfold doRxBuf
  repeat (with_reducible first
    | assumption | apply keeps_ite | apply finishDesc_keeps | apply popDesc_keeps | apply ringSettle_keeps
    | apply ringPut_keeps | split)

theorem modTimer_keeps {r s : State} {a0} [May W .regs] [May W .now] [May W .hif] [May W .dom] [May W .tu] [May W .out]
    [May W .free] (h : Keeps W r s) : Keeps W r (modTimer s a0) := by
  unfold modTimer
  repeat (with_reducible first
    | assumption | apply keeps_ite | apply ringEval_keeps | apply ringPut_keeps | apply clockTo_keeps)

theorem execDoorbell_runs {r s : State} {a0 a1} [May W .regs] [May W .hbm] [May W .hif] [May W .fil] [May W .rev]
    [May W .tu] [May W .eth] [May W .stk] [May W .win] [May W .grn] [May W .tly] [May W .car] [May W .pwr] [May W .out]
    [May W .free] (h : Keeps W r s) : Runs W r (execDoorbell a0 a1 s) := by
  unfold execDoorbell
  repeat (with_reducible first
    | assumption | intro _ | apply runs_next | apply fromHost_keeps | apply doDoorbell_keeps)

theorem execCqdb_runs {r s : State} {a0 a1} [May W .regs] [May W .hbm] [May W .hif] [May W .dom] [May W .fil]
    [May W .rev] [May W .tu] [May W .eth] [May W .stk] [May W .win] [May W .grn] [May W .tly] [May W .car] [May W .pwr]
    [May W .out] [May W .free] (h : Keeps W r s) : Runs W r (execCqdb a0 a1 s) := by
  unfold execCqdb
  repeat (with_reducible first
    | assumption | intro _ | apply runs_next | apply fromHost_keeps | apply doCqdb_keeps)

theorem execRingCtlReset_runs {r s : State} {a0 a1} [May W .regs] [May W .hbm] [May W .hif] [May W .dom] [May W .fil]
    [May W .rev] [May W .tu] [May W .eth] [May W .stk] [May W .win] [May W .grn] [May W .tly] [May W .car] [May W .pwr]
    [May W .out] [May W .free] (h : Keeps W r s) : Runs W r (execRingCtlReset a0 a1 s) := by
  unfold execRingCtlReset
  repeat (with_reducible first
    | assumption | intro _ | apply runs_next | apply fromHost_keeps | apply doRingCtl_keeps)

theorem execDescriptorFetch_runs {r s : State} {a0} [May W .regs] [May W .hif] [May W .dom] [May W .out] (h : Keeps W r s)
    : Runs W r (execDescriptorFetch a0 s) := by
  unfold execDescriptorFetch
  repeat (with_reducible first
    | assumption | intro _ | apply runs_next | apply whenUp_keeps | apply doFetch_keeps)

theorem execRxBuf_runs {r s : State} {a0} [May W .regs] [May W .hif] [May W .dom] [May W .out] (h : Keeps W r s)
    : Runs W r (execRxBuf a0 s) := by
  unfold execRxBuf
  repeat (with_reducible first
    | assumption | intro _ | apply runs_next | apply whenUp_keeps | apply doRxBuf_keeps)

theorem execModerationTimer_runs {r s : State} {a0} [May W .regs] [May W .now] [May W .hif] [May W .dom] [May W .tu]
    [May W .out] [May W .free] (h : Keeps W r s) : Runs W r (execModerationTimer a0 s) := by
  unfold execModerationTimer
  repeat (with_reducible first
    | assumption | intro _ | apply runs_next | apply whenOn_keeps | apply modTimer_keeps)

end Sys2Proof.Machine
end

