-- ==== Sys2Proof/Laws/MailboxKeep.lean ====
section
/-! SUPPORT. Each operation of Machine/Mailbox.lean keeps what `Keeps` says. -/

set_option Elab.async false

namespace Sys2Proof.Machine

open Sys2Proof

variable {W : List Part}

theorem execMailboxGo_runs {r s : State} {a0} [May W .regs] [May W .hbm] [May W .hif] [May W .dom] [May W .fil]
    [May W .rev] [May W .tu] [May W .eth] [May W .stk] [May W .win] [May W .grn] [May W .tly] [May W .car] [May W .pwr]
    [May W .out] [May W .free] (h : Keeps W r s) : Runs W r (execMailboxGo a0 s) := by
  unfold execMailboxGo
  repeat (with_reducible first
    | assumption | intro _ | apply runs_next | apply fromHost_keeps | apply mbGo_keeps)

theorem execDomCreate_runs {r s : State} [May W .regs] [May W .hif] [May W .dom] [May W .out] (h : Keeps W r s)
    : Runs W r (execDomCreate s) := by
  unfold execDomCreate
  repeat (with_reducible first
    | assumption | intro _ | apply runs_next | apply whenUp_keeps | apply mbNow_keeps | apply domCreate_keeps
    | refine keeps_ofE1 (by with_reducible assumption) ?_)

theorem execDomDestroy_runs {r s : State} [May W .regs] [May W .hbm] [May W .hif] [May W .dom] [May W .fil]
    [May W .grn] [May W .lck] [May W .hsk] [May W .car] [May W .stg] [May W .out] (h : Keeps W r s)
    : Runs W r (execDomDestroy s) := by
  unfold execDomDestroy
  repeat (with_reducible first
    | assumption | intro _ | apply runs_next | apply whenUp_keeps | apply domDestroy_keeps)

theorem execDomQuery_runs {r s : State} [May W .regs] [May W .hif] [May W .dom] [May W .out] (h : Keeps W r s)
    : Runs W r (execDomQuery s) := by
  unfold execDomQuery
  repeat (with_reducible first
    | assumption | intro _ | apply runs_next | apply whenUp_keeps | apply mbNow_keeps | apply domQuery_keeps
    | refine keeps_ofE1 (by with_reducible assumption) ?_)

theorem execInstCreate_runs {r s : State} [May W .regs] [May W .hif] [May W .dom] [May W .out] (h : Keeps W r s)
    : Runs W r (execInstCreate s) := by
  unfold execInstCreate
  repeat (with_reducible first
    | assumption | intro _ | apply runs_next | apply whenUp_keeps | apply mbNow_keeps | apply instCreate_keeps
    | refine keeps_ofE1 (by with_reducible assumption) ?_)

theorem execInstDestroy_runs {r s : State} [May W .regs] [May W .hbm] [May W .hif] [May W .dom] [May W .fil]
    [May W .grn] [May W .lck] [May W .car] [May W .stg] [May W .out] (h : Keeps W r s) : Runs W r (execInstDestroy s) := by
  unfold execInstDestroy
  repeat (with_reducible first
    | assumption | intro _ | apply runs_next | apply whenUp_keeps | apply mbLong_keeps | apply instDestroy_keeps
    | refine keeps_ofE (by with_reducible assumption) ?_)

theorem execInstReset_runs {r s : State} [May W .regs] [May W .hbm] [May W .hif] [May W .dom] [May W .fil] [May W .grn]
    [May W .lck] [May W .car] [May W .stg] [May W .out] (h : Keeps W r s) : Runs W r (execInstReset s) := by
  unfold execInstReset
  repeat (with_reducible first
    | assumption | intro _ | apply runs_next | apply whenUp_keeps | apply mbLong_keeps | apply instReset_keeps
    | refine keeps_ofE (by with_reducible assumption) ?_)

theorem execInstQuery_runs {r s : State} [May W .regs] [May W .hif] [May W .dom] [May W .out] (h : Keeps W r s)
    : Runs W r (execInstQuery s) := by
  unfold execInstQuery
  repeat (with_reducible first
    | assumption | intro _ | apply runs_next | apply whenUp_keeps | apply mbNow_keeps | apply instQuery_keeps
    | refine keeps_ofE1 (by with_reducible assumption) ?_)

theorem execIrqWrite_runs {r s : State} [May W .regs] [May W .hif] [May W .dom] [May W .out] (h : Keeps W r s)
    : Runs W r (execIrqWrite s) := by
  unfold execIrqWrite
  repeat (with_reducible first
    | assumption | intro _ | apply runs_next | apply whenUp_keeps | apply mbNow_keeps | apply irqWrite_keeps
    | refine keeps_ofE1 (by with_reducible assumption) ?_)

theorem execRingCreate_runs {r s : State} [May W .regs] [May W .hif] [May W .dom] [May W .out] (h : Keeps W r s)
    : Runs W r (execRingCreate s) := by
  unfold execRingCreate
  repeat (with_reducible first
    | assumption | intro _ | apply runs_next | apply whenUp_keeps | apply mbNow_keeps | apply ringCreate_keeps
    | refine keeps_ofE1 (by with_reducible assumption) ?_)

theorem execRingDestroy_runs {r s : State} [May W .regs] [May W .hif] [May W .dom] [May W .lck] [May W .car] [May W .out]
    (h : Keeps W r s) : Runs W r (execRingDestroy s) := by
  unfold execRingDestroy
  repeat (with_reducible first
    | assumption | intro _ | apply runs_next | apply whenUp_keeps | apply mbNow_keeps | apply ringDestroyCmd_keeps
    | refine keeps_ofE1 (by with_reducible assumption) ?_)

theorem execRingModify_runs {r s : State} [May W .regs] [May W .hif] [May W .dom] [May W .out] (h : Keeps W r s)
    : Runs W r (execRingModify s) := by
  unfold execRingModify
  repeat (with_reducible first
    | assumption | intro _ | apply runs_next | apply whenUp_keeps | apply mbNow_keeps | apply ringModify_keeps
    | refine keeps_ofE1 (by with_reducible assumption) ?_)

theorem execInstanceResetComplete_runs {r s : State} {a0} [May W .regs] [May W .hif] [May W .dom] [May W .lck]
    [May W .hsk] [May W .out] (h : Keeps W r s) :
    Runs W r (execInstanceResetComplete a0 s) := by
  unfold execInstanceResetComplete
  repeat (with_reducible first
    | assumption | intro _ | apply runs_next | apply whenUp_keeps | apply resetComplete_keeps)

theorem execRingResetComplete_runs {r s : State} {a0} [May W .regs] [May W .hif] [May W .dom] [May W .out] (h
    : Keeps W r s) : Runs W r (execRingResetComplete a0 s) := by
  unfold execRingResetComplete
  repeat (with_reducible first
    | assumption | intro _ | apply runs_next | apply whenUp_keeps | apply ringResetDone_keeps)

theorem txFrame_keeps {r s : State} {a0 a1} [May W .regs] [May W .hif] [May W .dom] [May W .win] [May W .out]
    [May W .free] (h : Keeps W r s) : Keeps W r (txFrame s a0 a1) := by
  unfold txFrame
  repeat (with_reducible first
    | assumption | apply keeps_ite | apply keeps2_ite | apply finishDesc_keeps | apply descRead_keeps
    | apply ringPut_keeps | apply popDesc_keeps | apply toInternal_keeps
    | refine keeps_of2 (by with_reducible assumption) ?_ | exact keeps_snd (by with_reducible assumption)
    | refine keeps_snd (descRead_keeps ?_) | split | apply keeps2_mk)

theorem execTxFrame_runs {r s : State} {a0 a1} [May W .regs] [May W .hif] [May W .dom] [May W .win] [May W .out]
    [May W .free] (h : Keeps W r s) : Runs W r (execTxFrame a0 a1 s) := by
  unfold execTxFrame
  repeat (with_reducible first
    | assumption | intro _ | apply runs_next | apply whenUp_keeps | apply txFrame_keeps)

theorem rxDrop_keeps {r s : State} {a0} [May W .regs] (h : Keeps W r s) : Keeps W r (rxDrop s a0) := by
  unfold rxDrop
  repeat (with_reducible first
    | assumption | apply ringCount_keeps)

theorem rxWriteOut_keeps {r s : State} {a0 a1 a2} [May W .regs] [May W .hif] [May W .dom] [May W .out] (h : Keeps W r s)
    : Keeps W r (rxWriteOut s a0 a1 a2) := by
  unfold rxWriteOut
  repeat (with_reducible first
    | assumption | apply keeps_ite | apply State.inc_keeps | apply rxDrop_keeps | apply ringPut_keeps
    | apply fnWrite_keeps | apply cplPost_keeps | split)

theorem rxReach_keeps {r s : State} {a0 a1 a2} [May W .regs] [May W .hif] [May W .out] (h : Keeps W r s)
    : Keeps2 W r (rxReach s a0 a1 a2) := by
  unfold rxReach
  repeat (with_reducible first
    | assumption | apply keeps_ite | apply keeps2_ite | apply reach_keeps
    | refine keeps_of2 (by with_reducible assumption) ?_ | exact keeps_snd (by with_reducible assumption)
    | refine keeps_snd (reach_keeps ?_) | split | apply keeps2_mk)

theorem rxDeliver_keeps {r s : State} {a0} [May W .regs] [May W .hif] [May W .dom] [May W .grn] [May W .out] (h
    : Keeps W r s) : Keeps W r (rxDeliver s a0) := by
  unfold rxDeliver
  repeat (with_reducible first
    | assumption | apply rxReach_keeps | apply rxWriteOut_keeps | refine keeps_of2 (by with_reducible assumption) ?_
    | exact keeps_snd (by with_reducible assumption) | refine keeps_snd (rxReach_keeps ?_) | split | apply keeps2_mk
    | apply keeps_grn)

theorem execRxFrameDelivery_runs {r s : State} {a0} [May W .regs] [May W .hif] [May W .dom] [May W .grn] [May W .out] (h
    : Keeps W r s) : Runs W r (execRxFrameDelivery a0 s) := by
  unfold execRxFrameDelivery
  repeat (with_reducible first
    | assumption | intro _ | apply runs_next | apply whenUp_keeps | apply rxDeliver_keeps)

end Sys2Proof.Machine
end

