-- ==== Sys2Proof/Laws/HostOpsKeep.lean ====
section
/-! SUPPORT. Each operation of Machine/HostOps.lean keeps what `Keeps` says. -/

set_option Elab.async false

namespace Sys2Proof.Machine

open Sys2Proof

variable {W : List Part}

theorem orphanFn_keeps {r s : State} {a0 a1} [May W .regs] [May W .hif] (h : Keeps W r s) : Keeps W r (orphanFn s a0 a1) := by
  unfold orphanFn
  repeat (with_reducible first
    | assumption | apply keeps_ite | apply syncTags_keeps | apply keeps_hif)

theorem dropIntr_keeps {r s : State} {a0 a1} [May W .hif] (h : Keeps W r s) : Keeps W r (dropIntr s a0 a1) := by
  unfold dropIntr
  repeat (with_reducible first
    | assumption | intro _ | apply keeps_ite | apply keeps_hif)

theorem resetCfg_keeps {r s : State} {a0 a1} [May W .regs] [May W .hif] (h : Keeps W r s) : Keeps W r (resetCfg s a0 a1) := by
  unfold resetCfg
  repeat (with_reducible first
    | assumption | intro _ | apply keeps_ite | apply State.wr_keeps | apply keeps_regs | apply keeps_hif
    | refine keeps_mk ?_ (fun p hp => by cases p <;> first | exact rfl | exact absurd May.mem hp))

theorem resetOwner_keeps {r s : State} [May W .regs] [May W .hif] [May W .dom] [May W .lck] [May W .car] (h : Keeps W r s)
    : Keeps W r (resetOwner s) := by
  unfold resetOwner
  repeat (with_reducible first
    | assumption | intro _ | apply keeps_foldl | apply destroyRing_keeps | apply keeps_dom)

theorem flr_keeps {r s : State} {a0 a1} [May W .regs] [May W .hbm] [May W .hif] [May W .dom] [May W .fil] [May W .grn]
    [May W .lck] [May W .car] [May W .stg] [May W .out] (h : Keeps W r s) : Keeps W r (flr s a0 a1) := by
  unfold flr
  repeat (with_reducible first
    | assumption | intro _ | apply keeps_ite | apply keeps_foldl | apply dropIntr_keeps | apply dropUnissued_keeps
    | apply orphanFn_keeps | apply resetCfg_keeps | apply beginReset_keeps | apply ctlFlr_keeps
    | apply resetOwner_keeps)

theorem portReset_keeps {r s : State} {a0} [May W .regs] [May W .hbm] [May W .hif] [May W .dom] [May W .fil]
    [May W .grn] [May W .tly] [May W .lck] [May W .car] [May W .stg] [May W .out] (h : Keeps W r s)
    : Keeps W r (portReset s a0) := by
  unfold portReset
  repeat (with_reducible first
    | assumption | intro _ | apply keeps_ite | apply keeps1_ite | apply keeps_foldl | apply keeps1_foldl
    | apply flr_keeps | apply State.wr_keeps | apply syncTags_keeps | apply State.emit_keeps | apply flushEp_keeps
    | refine keeps_of1 (by with_reducible assumption) ?_ | exact keeps_fst (by with_reducible assumption)
    | refine keeps_fst (flushEp_keeps ?_) | split | apply keeps1_mk | apply keeps_regs | apply keeps_hif
    | apply keeps_grn | refine keeps_mk ?_ (fun p hp => by cases p <;> first | exact rfl | exact absurd May.mem hp))

theorem cfgWrite_keeps {r s : State} {a0 a1 a2 a3 a4} [May W .regs] [May W .hbm] [May W .hif] [May W .dom] [May W .fil]
    [May W .grn] [May W .lck] [May W .car] [May W .stg] [May W .out] (h : Keeps W r s)
    : Keeps W r (cfgWrite s a0 a1 a2 a3 a4) := by
  unfold cfgWrite
  repeat (with_reducible first
    | assumption | intro _ | apply keeps_ite | apply busMasterOff_keeps | apply cfgPut_keeps | apply unquiesce_keeps
    | apply d3Enter_keeps | apply d0Enter_keeps | apply holdMsgs_keeps | apply flr_keeps | apply State.wr_keeps
    | apply keeps_hif)

theorem urSent_keeps {r s : State} {a0 a1 a2} [May W .regs] [May W .hif] [May W .out] [May W .free] (h : Keeps W r s)
    : Keeps W r (urSent s a0 a1 a2) := by
  unfold urSent
  repeat (with_reducible first
    | assumption | apply keeps_ite | apply logUncor_keeps | apply State.inc_keeps | apply sendCpl_keeps)

theorem mbWrite_keeps {r s : State} {a0 a1 a2} [May W .regs] [May W .dom] [May W .fil] (h : Keeps W r s)
    : Keeps W r (mbWrite s a0 a1 a2) := by
  unfold mbWrite
  repeat (with_reducible first
    | assumption | apply keeps_ite | apply slotMbPut_keeps | apply mbGo_keeps)

theorem msixWrite_keeps {r s : State} {a0 a1 a2 a3 a4} [May W .hif] (h : Keeps W r s)
    : Keeps W r (msixWrite s a0 a1 a2 a3 a4) := by
  unfold msixWrite
  repeat (with_reducible first
    | assumption | apply keeps_ite | apply msixPut_keeps | apply State.reset_keeps | split)

theorem pageWord_keeps {r s : State} {a0 a1 a2} [May W .regs] [May W .hif] [May W .dom] [May W .car] [May W .out] (h
    : Keeps W r s) : Keeps W r (pageWord s a0 a1 a2) := by
  unfold pageWord
  repeat (with_reducible first
    | assumption | apply keeps_ite | apply doDoorbell_keeps | apply doCqdb_keeps | apply doRingCtl_keeps
    | apply wordIgnored_keeps)

theorem pageWords_keeps {r : State} {p} [May W .regs] [May W .hif] [May W .dom] [May W .car] [May W .out] (l
    : List (Nat × Nat)) : ∀ {s : State} {o}, Keeps W r s → Keeps W r (pageWords s p o l) := by
  have go : ∀ n, ∀ l : List (Nat × Nat), l.length ≤ n → ∀ {s : State} {o}, Keeps W r s → Keeps W r (pageWords s p o l) := by
    intro n
    induction n with
    | zero =>
      intro l e s o h
      cases l with
      | nil => unfold pageWords; exact h
      | cons => exact absurd e (Nat.not_succ_le_zero _)
    | succ n ih =>
      intro l e s o h
      rcases l with _ | ⟨⟨v, be⟩, _ | ⟨⟨w, be'⟩, l⟩⟩
      · unfold pageWords; exact h
      · unfold pageWords; exact wordIgnored_keeps h
      · unfold pageWords
        refine keeps_ite (ih _ ?_ (wordIgnored_keeps h)) (ih _ ?_ (keeps_ite (pageWord_keeps h) (wordIgnored_keeps h)))
        · exact Nat.le_of_succ_le_succ e
        · exact Nat.le_of_succ_le (Nat.le_of_succ_le_succ e)
  intro s o h
  exact go _ l (Nat.le_refl _) h

theorem ownWindow_keeps {r s : State} {a0 a1 a2} [May W .regs] [May W .hbm] [May W .hif] [May W .dom] [May W .fil]
    [May W .rev] [May W .tu] [May W .eth] [May W .stk] [May W .win] [May W .grn] [May W .tly] [May W .lck] [May W .hsk]
    [May W .car] [May W .stg] [May W .pwr] [May W .trust] [May W .out] [May W .free] (h : Keeps W r s)
    : Keeps W r (ownWindow s a0 a1 a2) := by
  unfold ownWindow
  repeat (with_reducible first
    | assumption | apply keeps_ite | apply wordWrite_keeps | apply accessErr_keeps)

theorem barDword_keeps {r s : State} {a0 a1 a2 a3 a4 a5} [May W .regs] [May W .hbm] [May W .hif] [May W .dom]
    [May W .fil] [May W .rev] [May W .tu] [May W .eth] [May W .stk] [May W .win] [May W .grn] [May W .tly] [May W .lck]
    [May W .hsk] [May W .car] [May W .stg] [May W .pwr] [May W .trust] [May W .out] [May W .free] (h : Keeps W r s) :
    Keeps W r (barDword s a0 a1 a2 a3 a4 a5) := by
  unfold barDword
  repeat (with_reducible first
    | assumption | apply keeps_ite | apply msixWrite_keeps | apply ownWindow_keeps | apply mbWrite_keeps
    | apply nvWindowWrite_keeps | split)

theorem barDwords_keeps {r : State} [May W .regs] [May W .hbm] [May W .hif] [May W .dom] [May W .fil] [May W .rev]
    [May W .tu] [May W .eth] [May W .stk] [May W .win] [May W .grn] [May W .tly] [May W .lck] [May W .hsk] [May W .car]
    [May W .stg] [May W .pwr] [May W .trust] [May W .out] [May W .free] (k : List (Nat × Nat)) : ∀ {s : State}
    {a0 a1 a2 a3}, Keeps W r s → Keeps W r (barDwords s a0 a1 a2 a3 k) := by
  induction k with
  | nil =>
    intro s a0 a1 a2 a3 h
    rw [barDwords]
    repeat (with_reducible first
      | assumption | apply barDword_keeps | split)
  | cons x l ih =>
    intro s a0 a1 a2 a3 h
    rw [barDwords]
    repeat (with_reducible first
      | assumption | apply barDword_keeps | apply ih | split)

theorem barWrite_keeps {r s : State} {a0 a1 a2 a3 a4} [May W .regs] [May W .hbm] [May W .hif] [May W .dom] [May W .fil]
    [May W .rev] [May W .tu] [May W .eth] [May W .stk] [May W .win] [May W .grn] [May W .tly] [May W .lck] [May W .hsk]
    [May W .car] [May W .stg] [May W .pwr] [May W .trust] [May W .out] [May W .free] (h : Keeps W r s)
    : Keeps W r (barWrite s a0 a1 a2 a3 a4) := by
  unfold barWrite
  repeat (with_reducible first
    | assumption | apply keeps_ite | apply State.inc_keeps | apply pageWords_keeps | apply barDwords_keeps)

theorem barReadDword_keeps {r s : State} {a0 a1 a2 a3 a4} [May W .regs] [May W .trust] (h : Keeps W r s) :
    Keeps2 W r (barReadDword s a0 a1 a2 a3 a4) := by
  unfold barReadDword
  repeat (with_reducible first
    | assumption | apply keeps_ite | apply keeps2_ite | apply wordRead_keeps | apply accessErr_keeps
    | refine keeps_of2 (by with_reducible assumption) ?_ | exact keeps_snd (by with_reducible assumption)
    | refine keeps_snd (wordRead_keeps ?_) | split | apply keeps2_mk)

theorem barRead_keeps {r : State} [May W .regs] [May W .trust] (k : Nat) : ∀ {s : State}
    {a0 a1 a2 a3 a4 a5 a6 a7}, Keeps W r s → Keeps2 W r (barRead s a0 a1 a2 a3 a4 a5 a6 a7 k) := by
  induction k with
  | zero =>
    intro s a0 a1 a2 a3 a4 a5 a6 a7 h
    rw [barRead]
    repeat (with_reducible first
      | assumption | apply barReadDword_keeps | refine keeps_of2 (by with_reducible assumption) ?_
      | exact keeps_snd (by with_reducible assumption) | refine keeps_snd (barReadDword_keeps ?_) | split
      | apply keeps2_mk)
  | succ n ih =>
    intro s a0 a1 a2 a3 a4 a5 a6 a7 h
    rw [barRead]
    repeat (with_reducible first
      | assumption | apply barReadDword_keeps | apply ih | refine keeps_of2 (by with_reducible assumption) ?_
      | exact keeps_snd (by with_reducible assumption) | refine keeps_snd (barReadDword_keeps ?_) | split
      | apply keeps2_mk)

theorem inbound_keeps {r s : State} {a0 a1 a2} [May W .regs] [May W .hbm] [May W .hif] [May W .dom] [May W .fil]
    [May W .rev] [May W .tu] [May W .eth] [May W .stk] [May W .win] [May W .grn] [May W .tly] [May W .lck] [May W .hsk]
    [May W .car] [May W .stg] [May W .pwr] [May W .trust] [May W .out] [May W .free] (h : Keeps W r s)
    : Keeps W r (inbound s a0 a1 a2) := by
  unfold inbound
  repeat (with_reducible first
    | (lift_lets
       intro x
       first
       | (have hx : Keeps W r x := (by
            unfold x
            repeat (with_reducible first
              | assumption | intro _ | apply keeps_ite | apply keeps2_ite | apply urSent_keeps | apply barRead_keeps
              | apply sendCpl_keeps | apply logUncor_keeps | apply barWrite_keeps
              | refine keeps_of2 (by with_reducible assumption) ?_ | exact keeps_snd (by with_reducible assumption)
              | refine keeps_snd (barRead_keeps _ ?_) | split | apply keeps2_mk))
          clear_value x)
       | (have hx : Keeps2 W r x := (by
            unfold x
            repeat (with_reducible first
              | assumption | intro _ | apply keeps_ite | apply keeps2_ite | apply urSent_keeps | apply barRead_keeps
              | apply sendCpl_keeps | apply logUncor_keeps | apply barWrite_keeps
              | refine keeps_of2 (by with_reducible assumption) ?_ | exact keeps_snd (by with_reducible assumption)
              | refine keeps_snd (barRead_keeps _ ?_) | split | apply keeps2_mk))
          clear_value x)
       | clear_value x)
    | assumption | intro _ | apply keeps_ite | apply keeps2_ite | apply urSent_keeps | apply barRead_keeps
    | apply sendCpl_keeps | apply logUncor_keeps | apply barWrite_keeps
    | refine keeps_of2 (by with_reducible assumption) ?_ | exact keeps_snd (by with_reducible assumption)
    | refine keeps_snd (barRead_keeps _ ?_) | split | apply keeps2_mk)

end Sys2Proof.Machine
end

