-- ==== Sys2Proof/Laws/HostPortKeep.lean ====
section
/-! SUPPORT. Each operation of Machine/HostPort.lean keeps what `Keeps` says. -/

set_option Elab.async false

namespace Sys2Proof.Machine

open Sys2Proof

variable {W : List Part}

theorem execInboundMemoryRequest_runs {r s : State} {a0 a1 a2} [May W .regs] [May W .hbm] [May W .hif] [May W .dom]
    [May W .fil] [May W .rev] [May W .tu] [May W .eth] [May W .stk] [May W .win] [May W .grn] [May W .tly] [May W .lck]
    [May W .hsk] [May W .car] [May W .stg] [May W .pwr] [May W .trust] [May W .out] [May W .free] (h : Keeps W r s) :
    Runs W r (execInboundMemoryRequest a0 a1 a2 s) := by
  unfold execInboundMemoryRequest
  repeat (with_reducible first
    | assumption | intro _ | apply keeps_ite | apply runs_ite | apply runs_next | apply fromHost_keeps
    | apply inbound_keeps | apply linkActive_keeps)

theorem execConfigRequest_runs {r s : State} {a0 a1 a2 a3} [May W .regs] [May W .hbm] [May W .hif] [May W .dom]
    [May W .fil] [May W .rev] [May W .tu] [May W .eth] [May W .stk] [May W .win] [May W .grn] [May W .tly] [May W .lck]
    [May W .car] [May W .stg] [May W .pwr] [May W .out] [May W .free] (h : Keeps W r s) :
    Runs W r (execConfigRequest a0 a1 a2 a3 s) := by
  unfold execConfigRequest
  repeat (with_reducible first
    | assumption | intro _ | apply keeps_ite | apply runs_ite | apply runs_next | apply fromHost_keeps
    | apply linkActive_keeps | apply urSent_keeps | apply sendCpl_keeps | apply cfgWrite_keeps | split)

theorem execFunctionLevelReset_runs {r s : State} {a0 a1} [May W .regs] [May W .hbm] [May W .hif] [May W .dom]
    [May W .fil] [May W .rev] [May W .tu] [May W .eth] [May W .stk] [May W .win] [May W .grn] [May W .tly] [May W .lck]
    [May W .car] [May W .stg] [May W .pwr] [May W .out] [May W .free] (h : Keeps W r s) :
    Runs W r (execFunctionLevelReset a0 a1 s) := by
  unfold execFunctionLevelReset
  repeat (with_reducible first
    | assumption | intro _ | apply keeps_ite | apply runs_ite | apply runs_next | apply fromHost_keeps
    | apply flr_keeps | apply linkActive_keeps)

theorem execPortReset_runs {r s : State} {a0 a1} [May W .regs] [May W .hbm] [May W .hif] [May W .dom] [May W .fil]
    [May W .rev] [May W .tu] [May W .eth] [May W .stk] [May W .win] [May W .grn] [May W .tly] [May W .lck] [May W .hsk]
    [May W .car] [May W .stg] [May W .pwr] [May W .out] [May W .free] (h : Keeps W r s) : Runs W r (execPortReset a0 a1 s)
    := by
  unfold execPortReset
  repeat (with_reducible first
    | assumption | intro _ | apply keeps_ite | apply runs_ite | apply runs_next | apply wake_keeps
    | apply fromHost_keeps | apply portReset_keeps)

end Sys2Proof.Machine
end

