-- ==== Sys2Proof/Laws/HuskLockKeep.lean ====
section
/-! SUPPORT. Each operation of Machine/HuskLock.lean keeps what `Keeps` says. -/

set_option Elab.async false

namespace Sys2Proof.Machine

open Sys2Proof

variable {W : List Part}

theorem execJobDispatch_runs {r s : State} {a0 a1 a2 a3} [May W .regs] [May W .now] [May W .fil] [May W .rev]
    [May W .tu] [May W .win] [May W .hsk] [May W .out] [May W .free] (h : Keeps W r s) :
    Runs W r (execJobDispatch a0 a1 a2 a3 s) := by
  unfold execJobDispatch
  repeat (with_reducible first
    | assumption | intro _ | apply runs_next | apply whenUp_keeps | apply dispatch_keeps)

theorem execBlockCompare_runs {r s : State} {a0 a1 a2 a3} [May W .regs] [May W .now] [May W .hif] [May W .fil]
    [May W .rev] [May W .tu] [May W .hsk] [May W .out] [May W .free] (h : Keeps W r s) :
    Runs W r (execBlockCompare a0 a1 a2 a3 s) := by
  unfold execBlockCompare
  repeat (with_reducible first
    | assumption | intro _ | apply runs_next | apply whenUp_keeps | apply blockCompare_keeps)

theorem execHuskJobComplete_runs {r s : State} {a0} [May W .regs] [May W .now] [May W .hbm] [May W .fil] [May W .rev]
    [May W .tu] [May W .win] [May W .hsk] [May W .out] [May W .free] (h : Keeps W r s)
    : Runs W r (execHuskJobComplete a0 s) := by
  unfold execHuskJobComplete
  repeat (with_reducible first
    | assumption | intro _ | apply runs_next | apply whenUp_keeps | apply jobEnd_keeps)

theorem execKeyLoadComplete_runs {r s : State} {a0 a1} [May W .regs] [May W .now] [May W .rev] [May W .tu] [May W .hsk]
    [May W .out] [May W .free] (h : Keeps W r s) : Runs W r (execKeyLoadComplete a0 a1 s) := by
  unfold execKeyLoadComplete
  repeat (with_reducible first
    | assumption | intro _ | apply runs_next | apply whenUp_keeps | apply keyLoaded_keeps)

theorem keyEnd_keeps {r s : State} {a0 a1 a2 a3 a4 a5} [May W .regs] [May W .hif] [May W .dom] [May W .out] (h
    : Keeps W r s) : Keeps W r (keyEnd s a0 a1 a2 a3 a4 a5) := by
  unfold keyEnd
  repeat (with_reducible first
    | assumption | apply keeps_ite | apply lckCount_keeps | apply finishDesc_keeps | split)

theorem importKey_keeps {r s : State} {a0 a1 a2 a3 a4} [May W .regs] [May W .lck] (h : Keeps W r s)
    : Keeps2 W r (importKey s a0 a1 a2 a3 a4) := by
  unfold importKey
  repeat (with_reducible first
    | assumption | intro _ | apply keeps_ite | apply keeps2_ite | apply lckCount_keeps | apply slotFill_keeps
    | refine keeps_of2 (by with_reducible assumption) ?_ | exact keeps_snd (by with_reducible assumption) | split
    | apply keeps2_mk)

theorem doImport_keeps {r s : State} {a0 a1} [May W .regs] [May W .hif] [May W .dom] [May W .lck] [May W .out]
    [May W .free] (h : Keeps W r s) : Keeps W r (doImport s a0 a1) := by
  unfold doImport
  repeat (with_reducible first
    | assumption | apply keeps_ite | apply keeps2_ite | apply descRead_keeps | apply importKey_keeps
    | apply keyEnd_keeps | refine keeps_of2 (by with_reducible assumption) ?_
    | exact keeps_snd (by with_reducible assumption) | refine keeps_snd (descRead_keeps ?_)
    | refine keeps_snd (importKey_keeps ?_) | split | apply keeps2_mk)

theorem execKeyImport_runs {r s : State} {a0 a1} [May W .regs] [May W .hif] [May W .dom] [May W .lck] [May W .out]
    [May W .free] (h : Keeps W r s) : Runs W r (execKeyImport a0 a1 s) := by
  unfold execKeyImport
  repeat (with_reducible first
    | assumption | intro _ | apply runs_next | apply whenUp_keeps | apply doImport_keeps)

theorem drawMat_keeps {r s : State} {a0} [May W .free] (h : Keeps W r s) : Keeps2 W r (drawMat s a0) := by
  unfold drawMat
  repeat (with_reducible first
    | assumption | apply keeps_ite | apply keeps2_ite | apply State.freeBytes_keeps
    | refine keeps_of2 (by with_reducible assumption) ?_ | exact keeps_snd (by with_reducible assumption)
    | refine keeps_snd (State.freeBytes_keeps ?_) | split | apply keeps2_mk)

theorem doGenerate_keeps {r s : State} {a0} [May W .regs] [May W .hif] [May W .dom] [May W .lck] [May W .out]
    [May W .free] (h : Keeps W r s) : Keeps W r (doGenerate s a0) := by
  unfold doGenerate
  repeat (with_reducible first
    | assumption | intro _ | apply keeps_ite | apply keeps2_ite | apply keyEnd_keeps | apply drawMat_keeps
    | apply lckCount_keeps | apply slotFill_keeps | refine keeps_of2 (by with_reducible assumption) ?_
    | exact keeps_snd (by with_reducible assumption) | refine keeps_snd (drawMat_keeps ?_) | split | apply keeps2_mk)

theorem execKeyGenerate_runs {r s : State} {a0} [May W .regs] [May W .hif] [May W .dom] [May W .lck] [May W .out]
    [May W .free] (h : Keeps W r s) : Runs W r (execKeyGenerate a0 s) := by
  unfold execKeyGenerate
  repeat (with_reducible first
    | assumption | intro _ | apply runs_next | apply whenUp_keeps | apply doGenerate_keeps)

theorem doExport_keeps {r s : State} {a0} [May W .regs] [May W .hif] [May W .dom] [May W .lck] [May W .out] [May W .free]
    (h : Keeps W r s) : Keeps W r (doExport s a0) := by
  unfold doExport
  repeat (with_reducible first
    | assumption | apply keeps_ite | apply keeps2_ite | apply keyEnd_keeps | apply State.freeBytes_keeps
    | apply slotPut_keeps | apply lckCount_keeps | apply ringWrite_keeps
    | refine keeps_of2 (by with_reducible assumption) ?_ | exact keeps_snd (by with_reducible assumption)
    | refine keeps_snd (State.freeBytes_keeps ?_) | split | apply keeps2_mk)

theorem execKeyExport_runs {r s : State} {a0} [May W .regs] [May W .hif] [May W .dom] [May W .lck] [May W .out]
    [May W .free] (h : Keeps W r s) : Runs W r (execKeyExport a0 s) := by
  unfold execKeyExport
  repeat (with_reducible first
    | assumption | intro _ | apply runs_next | apply whenUp_keeps | apply doExport_keeps)

theorem doDestroy_keeps {r s : State} {a0} [May W .regs] [May W .hif] [May W .dom] [May W .lck] [May W .hsk] [May W .out]
    (h : Keeps W r s) : Keeps W r (doDestroy s a0) := by
  unfold doDestroy
  repeat (with_reducible first
    | assumption | intro _ | apply keeps_ite | apply keeps_foldl | apply keyEnd_keeps | apply purge_keeps
    | apply slotZero_keeps | apply popDesc_keeps | apply lckCount_keeps | apply ringSettle_keeps | apply putLck_keeps
    | split)

theorem execKeyDestroy_runs {r s : State} {a0} [May W .regs] [May W .hif] [May W .dom] [May W .lck] [May W .hsk]
    [May W .out] (h : Keeps W r s) : Runs W r (execKeyDestroy a0 s) := by
  unfold execKeyDestroy
  repeat (with_reducible first
    | assumption | intro _ | apply runs_next | apply whenUp_keeps | apply doDestroy_keeps)

theorem destroyDone_keeps {r s : State} [May W .regs] [May W .hif] [May W .dom] [May W .lck] [May W .out] (h
    : Keeps W r s) : Keeps W r (destroyDone s) := by
  unfold destroyDone
  repeat (with_reducible first
    | assumption | intro _ | apply keeps_ite | apply putLck_keeps | apply cplPost_keeps | split)

theorem execKeyDestroyComplete_runs {r s : State} [May W .regs] [May W .hif] [May W .dom] [May W .lck] [May W .out] (h
    : Keeps W r s) : Runs W r (execKeyDestroyComplete s) := by
  unfold execKeyDestroyComplete
  repeat (with_reducible first
    | assumption | intro _ | apply runs_next | apply whenOn_keeps | apply destroyDone_keeps)

theorem doQuery_keeps {r s : State} {a0} [May W .regs] [May W .hif] [May W .dom] [May W .out] (h : Keeps W r s)
    : Keeps W r (doQuery s a0) := by
  unfold doQuery
  repeat (with_reducible first
    | assumption | apply keeps_ite | apply keyEnd_keeps | apply ringWrite_keeps | split)

theorem execKeyQuery_runs {r s : State} {a0} [May W .regs] [May W .hif] [May W .dom] [May W .out] (h : Keeps W r s)
    : Runs W r (execKeyQuery a0 s) := by
  unfold execKeyQuery
  repeat (with_reducible first
    | assumption | intro _ | apply runs_next | apply whenUp_keeps | apply doQuery_keeps)

theorem execLckDomWrite_runs {r s : State} {a0 a1 a2} [May W .regs] [May W .hbm] [May W .hif] [May W .fil] [May W .rev]
    [May W .tu] [May W .eth] [May W .stk] [May W .win] [May W .grn] [May W .tly] [May W .lck] [May W .hsk] [May W .car]
    [May W .pwr] [May W .out] [May W .free] (h : Keeps W r s) : Runs W r (execLckDomWrite a0 a1 a2 s) := by
  unfold execLckDomWrite
  repeat (with_reducible first
    | assumption | intro _ | apply runs_next | apply fromHost_keeps | apply rangeWrite_keeps)

theorem execRangeZeroizeComplete_runs {r s : State} {a0} [May W .regs] [May W .lck] [May W .free] (h : Keeps W r s) :
    Runs W r (execRangeZeroizeComplete a0 s) := by
  unfold execRangeZeroizeComplete
  repeat (with_reducible first
    | assumption | intro _ | apply runs_next | apply whenOn_keeps | apply rangeDone_keeps)

theorem storeReady_keeps {r s : State} [May W .regs] [May W .lck] [May W .free] (h : Keeps W r s)
    : Keeps W r (storeReady s) := by
  unfold storeReady
  repeat (with_reducible first
    | assumption | intro _ | apply keeps_ite | apply keeps2_ite | apply keeps_foldl | apply keeps2_foldl
    | apply lckCount_keeps | apply State.wr_keeps | apply State.freeBytes_keeps | apply putLck_keeps
    | refine keeps_of2 (by with_reducible assumption) ?_ | exact keeps_snd (by with_reducible assumption)
    | refine keeps_snd (State.freeBytes_keeps ?_) | split | apply keeps2_mk)

theorem execSlotStoreReady_runs {r s : State} [May W .regs] [May W .lck] [May W .free] (h : Keeps W r s)
    : Runs W r (execSlotStoreReady s) := by
  unfold execSlotStoreReady
  repeat (with_reducible first
    | assumption | intro _ | apply runs_next | apply whenOn_keeps | apply storeReady_keeps)

theorem slotError_keeps {r s : State} {a0 a1} [May W .regs] [May W .hif] [May W .fil] [May W .rev] [May W .lck]
    [May W .hsk] [May W .out] (h : Keeps W r s) : Keeps W r (slotError s a0 a1) := by
  unfold slotError
  dsimp only
  repeat (with_reducible first
    | assumption | apply keeps_ite | apply keeps1_ite | apply lckCount_keeps | apply purge_keeps
    | apply slotPut_keeps | apply countFailure_keeps | refine keeps_of1 (by with_reducible assumption) ?_
    | exact keeps_fst (by with_reducible assumption) | refine keeps_fst (countFailure_keeps ?_) | apply keeps1_mk)

theorem execSlotEccError_runs {r s : State} {a0 a1} [May W .regs] [May W .hif] [May W .fil] [May W .rev] [May W .lck]
    [May W .hsk] [May W .out] (h : Keeps W r s) : Runs W r (execSlotEccError a0 a1 s) := by
  unfold execSlotEccError
  repeat (with_reducible first
    | assumption | intro _ | apply runs_next | apply whenOn_keeps | apply slotError_keeps)

theorem entropyFail_keeps {r s : State} {a0} [May W .regs] [May W .hif] [May W .fil] [May W .rev] [May W .out] (h
    : Keeps W r s) : Keeps W r (entropyFail s a0) := by
  unfold entropyFail
  dsimp only
  repeat (with_reducible first
    | assumption | apply State.wr_keeps | apply countFailure_keeps
    | refine keeps_of1 (by with_reducible assumption) ?_ | exact keeps_fst (by with_reducible assumption)
    | refine keeps_fst (countFailure_keeps ?_) | split | apply keeps1_mk)

theorem execEntropyFail_runs {r s : State} {a0} [May W .regs] [May W .hif] [May W .fil] [May W .rev] [May W .out] (h
    : Keeps W r s) : Runs W r (execEntropyFail a0 s) := by
  unfold execEntropyFail
  repeat (with_reducible first
    | assumption | intro _ | apply runs_next | apply whenOn_keeps | apply entropyFail_keeps)

end Sys2Proof.Machine
end

