-- ==== Sys2Proof/Laws/SpdmOpsKeep.lean ====
section
/-! SUPPORT. Each operation of Machine/SpdmOps.lean keeps what `Keeps` says. -/

set_option Elab.async false

namespace Sys2Proof.Machine

open Sys2Proof

variable {W : List Part}

theorem putSpdm_keeps {r s : State} {a0} [May W .trust] (h : Keeps W r s) : Keeps W r (putSpdm s a0) := by
  unfold putSpdm
  repeat (with_reducible first
    | assumption | apply putTrust_keeps)

theorem dropSess_keeps {r s : State} {a0} [May W .trust] (h : Keeps W r s) : Keeps W r (dropSess s a0) := by
  unfold dropSess
  repeat (with_reducible first
    | assumption | intro _ | apply putSpdm_keeps)

theorem putSess_keeps {r s : State} {a0} [May W .trust] (h : Keeps W r s) : Keeps W r (putSess s a0) := by
  unfold putSess
  repeat (with_reducible first
    | assumption | intro _ | apply putSpdm_keeps)

theorem afterSend_keeps {r s : State} {a0} [May W .trust] (h : Keeps W r s) : Keeps W r (afterSend s a0) := by
  unfold afterSend
  repeat (with_reducible first
    | assumption | apply putSess_keeps | apply dropSess_keeps | split)

theorem mctpSend_keeps {r s : State} {a0 a1 a2} [May W .trust] [May W .out] (h : Keeps W r s)
    : Keeps W r (mctpSend s a0 a1 a2) := by
  unfold mctpSend
  repeat (with_reducible first
    | assumption | apply State.emit_keeps | apply afterSend_keeps | split)

theorem respond_keeps {r s : State} {a0 a1} [May W .trust] [May W .out] (h : Keeps W r s) : Keeps W r (respond s a0 a1) := by
  unfold respond
  repeat (with_reducible first
    | assumption | apply keeps_ite | apply mctpSend_keeps | apply putSpdm_keeps)

theorem spdmSign_keeps {r s : State} {a0 a1 a2} [May W .free] (h : Keeps W r s) : Keeps2 W r (spdmSign s a0 a1 a2) := by
  unfold spdmSign
  repeat (with_reducible first
    | assumption | apply State.freeBits_keeps | refine keeps_of2 (by with_reducible assumption) ?_
    | exact keeps_snd (by with_reducible assumption) | refine keeps_snd (State.freeBits_keeps ?_) | split
    | apply keeps2_mk)

theorem doVersion_keeps {r s : State} {a0} [May W .trust] (h : Keeps W r s) : Keeps2 W r (doVersion s a0) := by
  unfold doVersion
  repeat (with_reducible first
    | assumption | apply keeps_ite | apply keeps2_ite | apply putSpdm_keeps | apply State.reset_keeps
    | refine keeps_of2 (by with_reducible assumption) ?_ | exact keeps_snd (by with_reducible assumption)
    | apply keeps2_mk)

theorem doCapabilities_keeps {r s : State} {a0} [May W .trust] (h : Keeps W r s) : Keeps2 W r (doCapabilities s a0) := by
  unfold doCapabilities
  repeat (with_reducible first
    | assumption | apply keeps_ite | apply keeps2_ite | apply putSpdm_keeps
    | refine keeps_of2 (by with_reducible assumption) ?_ | exact keeps_snd (by with_reducible assumption)
    | apply keeps2_mk)

theorem doAlgorithms_keeps {r s : State} {a0} [May W .trust] (h : Keeps W r s) : Keeps2 W r (doAlgorithms s a0) := by
  unfold doAlgorithms
  repeat (with_reducible first
    | assumption | apply keeps_ite | apply keeps2_ite | apply putSpdm_keeps
    | refine keeps_of2 (by with_reducible assumption) ?_ | exact keeps_snd (by with_reducible assumption)
    | apply keeps2_mk)

theorem negotiated_keeps {r s : State} {q f} (h : Keeps W r s) (hf : Keeps2 W r (f ())) : Keeps2 W r (negotiated s q f) := by
  unfold negotiated
  exact keeps2_ite h (keeps2_ite h hf)

theorem outside_keeps {r s : State} {q f} (h : Keeps W r s) (hf : Keeps2 W r (f ())) : Keeps2 W r (outside s q f) := by
  unfold outside
  exact negotiated_keeps h (keeps2_ite h hf)

theorem doDigests_keeps {r s : State} {a0} [May W .trust] (h : Keeps W r s) : Keeps2 W r (doDigests s a0) := by
  unfold doDigests
  repeat (with_reducible first
    | assumption | intro _ | apply keeps_ite | apply keeps2_ite | apply negotiated_keeps | apply putSpdm_keeps
    | refine keeps_of2 (by with_reducible assumption) ?_ | exact keeps_snd (by with_reducible assumption)
    | refine keeps_snd (negotiated_keeps ?_) | apply keeps2_mk)

theorem doCertificate_keeps {r s : State} {a0} [May W .trust] (h : Keeps W r s) : Keeps2 W r (doCertificate s a0) := by
  unfold doCertificate
  repeat (with_reducible first
    | assumption | intro _ | apply keeps_ite | apply keeps2_ite | apply negotiated_keeps | apply putSpdm_keeps
    | refine keeps_of2 (by with_reducible assumption) ?_ | exact keeps_snd (by with_reducible assumption)
    | refine keeps_snd (negotiated_keeps ?_) | apply keeps2_mk)

theorem doChallenge_keeps {r s : State} {a0} [May W .trust] [May W .free] (h : Keeps W r s)
    : Keeps2 W r (doChallenge s a0) := by
  unfold doChallenge
  repeat (with_reducible first
    | assumption | intro _ | apply keeps_ite | apply keeps2_ite | apply outside_keeps | apply State.freeBytes_keeps
    | apply spdmSign_keeps | apply putSpdm_keeps | refine keeps_of2 (by with_reducible assumption) ?_
    | exact keeps_snd (by with_reducible assumption) | refine keeps_snd (outside_keeps ?_)
    | refine keeps_snd (State.freeBytes_keeps ?_) | refine keeps_snd (spdmSign_keeps ?_) | split | apply keeps2_mk)

theorem doMeasurements_keeps {r s : State} {a0} [May W .trust] [May W .free] (h : Keeps W r s)
    : Keeps2 W r (doMeasurements s a0) := by
  unfold doMeasurements
  repeat (with_reducible first
    | assumption | intro _ | apply keeps_ite | apply keeps2_ite | apply negotiated_keeps
    | apply State.freeBytes_keeps | apply spdmSign_keeps | apply putSpdm_keeps
    | refine keeps_of2 (by with_reducible assumption) ?_ | exact keeps_snd (by with_reducible assumption)
    | refine keeps_snd (negotiated_keeps ?_) | refine keeps_snd (State.freeBytes_keeps ?_)
    | refine keeps_snd (spdmSign_keeps ?_) | split | apply keeps2_mk)

theorem doKeyExchange_keeps {r s : State} {a0} [May W .trust] [May W .free] (h : Keeps W r s)
    : Keeps2 W r (doKeyExchange s a0) := by
  unfold doKeyExchange
  repeat (with_reducible first
    | assumption | intro _ | apply keeps_ite | apply keeps2_ite | apply outside_keeps | apply State.freeBits_keeps
    | apply State.freeBytes_keeps | apply spdmSign_keeps | apply putSess_keeps | apply putSpdm_keeps
    | refine keeps_of2 (by with_reducible assumption) ?_ | exact keeps_snd (by with_reducible assumption)
    | refine keeps_snd (outside_keeps ?_) | refine keeps_snd (State.freeBits_keeps ?_)
    | refine keeps_snd (State.freeBytes_keeps ?_) | refine keeps_snd (spdmSign_keeps ?_) | split | apply keeps2_mk)

theorem within_keeps {r s : State} {q e f} (h : Keeps W r s) (hf : ∀ x, Keeps2 W r (f x)) : Keeps2 W r (within s q e f) := by
  unfold within
  refine negotiated_keeps h ?_
  repeat (with_reducible first | exact keeps2_mk h | apply keeps2_ite | exact hf _ | split)

theorem doGetEncap_keeps {r s : State} {a0} [May W .trust] (h : Keeps W r s) : Keeps2 W r (doGetEncap s a0) := by
  unfold doGetEncap
  repeat (with_reducible first
    | assumption | intro _ | apply within_keeps | apply putSess_keeps
    | refine keeps_of2 (by with_reducible assumption) ?_ | exact keeps_snd (by with_reducible assumption)
    | refine keeps_snd (within_keeps ?_) | apply keeps2_mk)

theorem failSess_keeps {r s : State} {a0 a1} [May W .trust] (h : Keeps W r s) : Keeps2 W r (failSess s a0 a1) := by
  unfold failSess
  repeat (with_reducible first
    | assumption | apply putSess_keeps | refine keeps_of2 (by with_reducible assumption) ?_
    | exact keeps_snd (by with_reducible assumption) | apply keeps2_mk)

theorem doDeliver_keeps {r s : State} {a0} [May W .trust] (h : Keeps W r s) : Keeps2 W r (doDeliver s a0) := by
  unfold doDeliver
  repeat (with_reducible first
    | assumption | intro _ | apply keeps_ite | apply keeps2_ite | apply within_keeps | apply failSess_keeps
    | apply putSess_keeps | refine keeps_of2 (by with_reducible assumption) ?_
    | exact keeps_snd (by with_reducible assumption) | refine keeps_snd (within_keeps ?_)
    | refine keeps_snd (failSess_keeps ?_) | apply keeps2_mk)

theorem doFinish_keeps {r s : State} {a0} [May W .trust] (h : Keeps W r s) : Keeps2 W r (doFinish s a0) := by
  unfold doFinish
  repeat (with_reducible first
    | assumption | intro _ | apply keeps_ite | apply keeps2_ite | apply within_keeps | apply failSess_keeps
    | apply putSess_keeps | refine keeps_of2 (by with_reducible assumption) ?_
    | exact keeps_snd (by with_reducible assumption) | refine keeps_snd (within_keeps ?_)
    | refine keeps_snd (failSess_keeps ?_) | split | apply keeps2_mk)

theorem doHeartbeat_keeps {r s : State} {a0} (h : Keeps W r s) : Keeps2 W r (doHeartbeat s a0) := by
  unfold doHeartbeat
  repeat (with_reducible first
    | assumption | intro _ | apply keeps_ite | apply keeps2_ite | apply within_keeps
    | refine keeps_of2 (by with_reducible assumption) ?_ | exact keeps_snd (by with_reducible assumption)
    | refine keeps_snd (within_keeps ?_) | apply keeps2_mk)

theorem doEndSession_keeps {r s : State} {a0} [May W .trust] (h : Keeps W r s) : Keeps2 W r (doEndSession s a0) := by
  unfold doEndSession
  repeat (with_reducible first
    | assumption | intro _ | apply within_keeps | apply putSess_keeps
    | refine keeps_of2 (by with_reducible assumption) ?_ | exact keeps_snd (by with_reducible assumption)
    | refine keeps_snd (within_keeps ?_) | apply keeps2_mk)

theorem vFwWrite_keeps {r s : State} {a0 a1 a2 a3 a4} [May W .out] (h : Keeps W r s)
    : Keeps2 W r (vFwWrite s a0 a1 a2 a3 a4) := by
  unfold vFwWrite
  repeat (with_reducible first
    | assumption | apply keeps_ite | apply keeps2_ite | apply fwWrite_keeps
    | refine keeps_of2 (by with_reducible assumption) ?_ | exact keeps_snd (by with_reducible assumption)
    | refine keeps_snd (fwWrite_keeps ?_) | apply keeps2_mk)

theorem vendorReq_keeps {r s : State} {a0 a1} [May W .regs] [May W .trust] [May W .out] [May W .free] (h : Keeps W r s)
    : Keeps2 W r (vendorReq s a0 a1) := by
  unfold vendorReq
  repeat (with_reducible first
    | assumption | apply evidence_keeps | apply vFwWrite_keeps | refine keeps_of2 (by with_reducible assumption) ?_
    | exact keeps_snd (by with_reducible assumption) | refine keeps_snd (evidence_keeps ?_)
    | refine keeps_snd (vFwWrite_keeps ?_) | split | apply keeps2_mk)

theorem doRequest_keeps {r s : State} {a0 a1} [May W .regs] [May W .trust] [May W .out] [May W .free] (h : Keeps W r s)
    : Keeps2 W r (doRequest s a0 a1) := by
  unfold doRequest
  repeat (with_reducible first
    | assumption | apply doVersion_keeps | apply doCapabilities_keeps | apply doAlgorithms_keeps
    | apply doDigests_keeps | apply doCertificate_keeps | apply doChallenge_keeps | apply doMeasurements_keeps
    | apply doKeyExchange_keeps | apply doFinish_keeps | apply doHeartbeat_keeps | apply doEndSession_keeps
    | apply doGetEncap_keeps | apply doDeliver_keeps | apply vendorReq_keeps
    | refine keeps_of2 (by with_reducible assumption) ?_ | exact keeps_snd (by with_reducible assumption)
    | refine keeps_snd (doVersion_keeps ?_) | refine keeps_snd (doCapabilities_keeps ?_)
    | refine keeps_snd (doAlgorithms_keeps ?_) | refine keeps_snd (doDigests_keeps ?_)
    | refine keeps_snd (doCertificate_keeps ?_) | refine keeps_snd (doChallenge_keeps ?_)
    | refine keeps_snd (doMeasurements_keeps ?_) | refine keeps_snd (doKeyExchange_keeps ?_)
    | refine keeps_snd (doFinish_keeps ?_) | refine keeps_snd (doHeartbeat_keeps ?_)
    | refine keeps_snd (doEndSession_keeps ?_) | refine keeps_snd (doGetEncap_keeps ?_)
    | refine keeps_snd (doDeliver_keeps ?_) | refine keeps_snd (vendorReq_keeps ?_) | split | apply keeps2_mk)

theorem doChunkSend_keeps {r s : State} {q} [May W .regs] [May W .trust] [May W .out] [May W .free] (h : Keeps W r s)
    : Keeps2 W r (doChunkSend s q) := by
  unfold doChunkSend
  refine negotiated_keeps h ?_
  extract_lets b seq first data old x bad
  have hb : Keeps2 W r bad := putSpdm_keeps h
  clear_value bad old data
  split
  · exact hb
  · refine keeps2_ite hb ?_
    extract_lets got
    exact keeps2_ite (putSpdm_keeps h) (keeps2_ite hb (keeps_snd (doRequest_keeps (putSpdm_keeps h))))

theorem doChunkGet_keeps {r s : State} {a0} [May W .trust] (h : Keeps W r s) : Keeps2 W r (doChunkGet s a0) := by
  unfold doChunkGet
  repeat (with_reducible first
    | assumption | intro _ | apply keeps_ite | apply keeps2_ite | apply negotiated_keeps | apply putSpdm_keeps
    | refine keeps_of2 (by with_reducible assumption) ?_ | exact keeps_snd (by with_reducible assumption)
    | refine keeps_snd (negotiated_keeps ?_) | split | apply keeps2_mk)

theorem spdmRow_keeps {r s : State} {a0 a1} [May W .trust] [May W .out] (h : Keeps W r s) (ha1 : ∀ s x1, Keeps W r s
    → Keeps2 W r (a1 s x1)) :
    Keeps W r (spdmRow s a0 a1) := by
  unfold spdmRow
  repeat (with_reducible first
    | (lift_lets
       intro x
       first
       | (have hx : Keeps W r x := (by
            unfold x
            repeat (with_reducible first
              | (lift_lets
                 intro y
                 first
                 | (have hy : Keeps W r y := (by
                      unfold y
                      repeat (with_reducible first
                        | assumption | apply keeps2_mk | intro _ | apply respond_keeps | apply ha1
                        | refine keeps_snd (ha1 _ _ ?_) | refine keeps_of2 (by with_reducible assumption) ?_
                        | exact keeps_snd (by with_reducible assumption) | split))
                    clear_value y)
                 | (have hy : Keeps2 W r y := (by
                      unfold y
                      repeat (with_reducible first
                        | assumption | apply keeps2_mk | intro _ | apply respond_keeps | apply ha1
                        | refine keeps_snd (ha1 _ _ ?_) | refine keeps_of2 (by with_reducible assumption) ?_
                        | exact keeps_snd (by with_reducible assumption) | split))
                    clear_value y)
                 | clear_value y)
              | assumption | apply keeps2_mk | intro _ | apply respond_keeps | apply ha1
              | refine keeps_snd (ha1 _ _ ?_) | refine keeps_of2 (by with_reducible assumption) ?_
              | exact keeps_snd (by with_reducible assumption) | split))
          clear_value x)
       | (have hx : Keeps2 W r x := (by
            unfold x
            repeat (with_reducible first
              | (lift_lets
                 intro y
                 first
                 | (have hy : Keeps W r y := (by
                      unfold y
                      repeat (with_reducible first
                        | assumption | apply keeps2_mk | intro _ | apply respond_keeps | apply ha1
                        | refine keeps_snd (ha1 _ _ ?_) | refine keeps_of2 (by with_reducible assumption) ?_
                        | exact keeps_snd (by with_reducible assumption) | split))
                    clear_value y)
                 | (have hy : Keeps2 W r y := (by
                      unfold y
                      repeat (with_reducible first
                        | assumption | apply keeps2_mk | intro _ | apply respond_keeps | apply ha1
                        | refine keeps_snd (ha1 _ _ ?_) | refine keeps_of2 (by with_reducible assumption) ?_
                        | exact keeps_snd (by with_reducible assumption) | split))
                    clear_value y)
                 | clear_value y)
              | assumption | apply keeps2_mk | intro _ | apply respond_keeps | apply ha1
              | refine keeps_snd (ha1 _ _ ?_) | refine keeps_of2 (by with_reducible assumption) ?_
              | exact keeps_snd (by with_reducible assumption) | split))
          clear_value x)
       | clear_value x)
    | assumption | apply keeps2_mk | intro _ | apply respond_keeps | apply ha1 | refine keeps_snd (ha1 _ _ ?_)
    | refine keeps_of2 (by with_reducible assumption) ?_ | exact keeps_snd (by with_reducible assumption) | split)

theorem vendorRow_keeps {r s : State} {i f} [May W .trust] [May W .out] (h : Keeps W r s) (hf : ∀ s, Keeps W r s
    → Keeps2 W r (f s)) : Keeps W r (vendorRow s i f) := by
  unfold vendorRow
  extract_lets go
  have hg : Keeps W r (go ()) := respond_keeps (hf s h)
  clear_value go
  split
  · exact hg
  · split <;> assumption

theorem sessionExpiry_keeps {r s : State} {a0} [May W .trust] (h : Keeps W r s) : Keeps W r (sessionExpiry s a0) := by
  unfold sessionExpiry
  repeat (with_reducible first
    | assumption | apply keeps_ite | apply dropSess_keeps | split)

end Sys2Proof.Machine
end

