-- ==== Sys2Proof/Laws/MctpOpsKeep.lean ====
section
/-! SUPPORT. Each operation of Machine/MctpOps.lean keeps what `Keeps` says. -/

set_option Elab.async false

namespace Sys2Proof.Machine

open Sys2Proof

variable {W : List Part}

theorem ctlRsp_keeps {r s : State} {a0 a1 a2} [May W .out] (h : Keeps W r s) : Keeps W r (ctlRsp s a0 a1 a2) := by
  unfold ctlRsp
  repeat (with_reducible first
    | assumption | apply State.emit_keeps)

theorem setEid_keeps {r s : State} {a0 a1 a2} [May W .rev] [May W .out] (h : Keeps W r s) : Keeps W r (setEid s a0 a1 a2)
    := by
  unfold setEid
  repeat (with_reducible first
    | assumption | apply keeps_ite | apply ctlRsp_keeps | apply keeps_rev)

theorem getEid_keeps {r s : State} {a0} [May W .out] (h : Keeps W r s) : Keeps W r (getEid s a0) := by
  unfold getEid
  repeat (with_reducible first
    | assumption | apply ctlRsp_keeps)

theorem getMctpVersion_keeps {r s : State} {a0 a1} [May W .out] (h : Keeps W r s) : Keeps W r (getMctpVersion s a0 a1) := by
  unfold getMctpVersion
  repeat (with_reducible first
    | assumption | apply keeps_ite | apply ctlRsp_keeps)

theorem getMsgTypes_keeps {r s : State} {a0} [May W .out] (h : Keeps W r s) : Keeps W r (getMsgTypes s a0) := by
  unfold getMsgTypes
  repeat (with_reducible first
    | assumption | apply ctlRsp_keeps)

theorem getVendor_keeps {r s : State} {a0 a1} [May W .out] (h : Keeps W r s) : Keeps W r (getVendor s a0 a1) := by
  unfold getVendor
  repeat (with_reducible first
    | assumption | apply keeps_ite | apply ctlRsp_keeps)

theorem pldmRsp_keeps {r s : State} {a0 a1 a2 a3} [May W .out] (h : Keeps W r s) : Keeps W r (pldmRsp s a0 a1 a2 a3) := by
  unfold pldmRsp
  repeat (with_reducible first
    | assumption | apply State.emit_keeps)

theorem getTid_keeps {r s : State} {a0} [May W .out] (h : Keeps W r s) : Keeps W r (getTid s a0) := by
  unfold getTid
  repeat (with_reducible first
    | assumption | apply pldmRsp_keeps)

theorem getPldmVersion_keeps {r s : State} {a0 a1 a2} [May W .out] (h : Keeps W r s)
    : Keeps W r (getPldmVersion s a0 a1 a2) := by
  unfold getPldmVersion
  repeat (with_reducible first
    | assumption | apply keeps_ite | apply pldmRsp_keeps)

theorem getPldmTypes_keeps {r s : State} {a0} [May W .out] (h : Keeps W r s) : Keeps W r (getPldmTypes s a0) := by
  unfold getPldmTypes
  repeat (with_reducible first
    | assumption | apply pldmRsp_keeps)

theorem getPldmCommands_keeps {r s : State} {a0 a1} [May W .out] (h : Keeps W r s) : Keeps W r (getPldmCommands s a0 a1) := by
  unfold getPldmCommands
  repeat (with_reducible first
    | assumption | apply keeps_ite | apply pldmRsp_keeps)

theorem getPdrInfo_keeps {r s : State} {a0} [May W .out] (h : Keeps W r s) : Keeps W r (getPdrInfo s a0) := by
  unfold getPdrInfo
  repeat (with_reducible first
    | assumption | intro _ | apply keeps_foldl | apply pldmRsp_keeps)

theorem getPdr_keeps {r s : State} {a0 a1 a2 a3 a4} [May W .out] (h : Keeps W r s) : Keeps W r (getPdr s a0 a1 a2 a3 a4) := by
  unfold getPdr
  repeat (with_reducible first
    | assumption | apply keeps_ite | apply pldmRsp_keeps)

theorem getReading_keeps {r s : State} {a0 a1} [May W .out] [May W .free] (h : Keeps W r s)
    : Keeps W r (getReading s a0 a1) := by
  unfold getReading
  repeat (with_reducible first
    | assumption | apply keeps_ite | apply keeps2_ite | apply pldmRsp_keeps | apply State.freeBits_keeps
    | refine keeps_of2 (by with_reducible assumption) ?_ | exact keeps_snd (by with_reducible assumption)
    | refine keeps_snd (State.freeBits_keeps ?_) | split | apply keeps2_mk)

theorem getStates_keeps {r s : State} {a0 a1} [May W .out] (h : Keeps W r s) : Keeps W r (getStates s a0 a1) := by
  unfold getStates
  repeat (with_reducible first
    | assumption | apply keeps_ite | apply pldmRsp_keeps)

theorem setReceiver_keeps {r s : State} {a0 a1 a2 a3} [May W .rev] [May W .out] (h : Keeps W r s)
    : Keeps W r (setReceiver s a0 a1 a2 a3) := by
  unfold setReceiver
  dsimp only
  repeat (with_reducible first
    | assumption | apply keeps_ite | apply pldmRsp_keeps | apply stateEvent_keeps | apply keeps_rev)

theorem vdmRsp_keeps {r s : State} {a0 a1 a2 a3} [May W .trust] [May W .out] (h : Keeps W r s)
    : Keeps W r (vdmRsp s a0 a1 a2 a3) := by
  unfold vdmRsp
  repeat (with_reducible first
    | assumption | apply mctpSend_keeps)

theorem vdmSession_keeps {r s : State} {a0 a1 a2} [May W .trust] [May W .out] (h : Keeps W r s) (ha2 : ∀ s, Keeps W r s
    → Keeps W r (a2 s)) :
    Keeps W r (vdmSession s a0 a1 a2) := by
  unfold vdmSession
  repeat (with_reducible first
    | assumption | apply keeps_ite | intro _ | apply vdmRsp_keeps | apply ha2)

end Sys2Proof.Machine
end

