-- ==== Sys2Proof/Laws/MctpKeep.lean ====
section
/-! SUPPORT. Each operation of Machine/Mctp.lean keeps what `Keeps` says. -/

set_option Elab.async false

namespace Sys2Proof.Machine

open Sys2Proof

variable {W : List Part}

theorem execSetEndpointId_runs {r s : State} {a0 a1 a2} [May W .rev] [May W .out] (h : Keeps W r s)
    : Runs W r (execSetEndpointId a0 a1 a2 s) := by
  unfold execSetEndpointId
  repeat (with_reducible first
    | assumption | intro _ | apply runs_next | apply byFirmware_keeps | apply setEid_keeps)

theorem execGetEndpointId_runs {r s : State} {a0} [May W .out] (h : Keeps W r s) : Runs W r (execGetEndpointId a0 s) := by
  unfold execGetEndpointId
  repeat (with_reducible first
    | assumption | intro _ | apply runs_next | apply byFirmware_keeps | apply getEid_keeps)

theorem execGetMctpVersionSupport_runs {r s : State} {a0 a1} [May W .out] (h : Keeps W r s) :
    Runs W r (execGetMctpVersionSupport a0 a1 s) := by
  unfold execGetMctpVersionSupport
  repeat (with_reducible first
    | assumption | intro _ | apply runs_next | apply byFirmware_keeps | apply getMctpVersion_keeps)

theorem execGetMessageTypeSupport_runs {r s : State} {a0} [May W .out] (h : Keeps W r s) :
    Runs W r (execGetMessageTypeSupport a0 s) := by
  unfold execGetMessageTypeSupport
  repeat (with_reducible first
    | assumption | intro _ | apply runs_next | apply byFirmware_keeps | apply getMsgTypes_keeps)

theorem execGetVendorDefinedMessageSupport_runs {r s : State} {a0 a1} [May W .out] (h : Keeps W r s) :
    Runs W r (execGetVendorDefinedMessageSupport a0 a1 s) := by
  unfold execGetVendorDefinedMessageSupport
  repeat (with_reducible first
    | assumption | intro _ | apply runs_next | apply byFirmware_keeps | apply getVendor_keeps)

theorem execGettid_runs {r s : State} {a0} [May W .out] (h : Keeps W r s) : Runs W r (execGettid a0 s) := by
  unfold execGettid
  repeat (with_reducible first
    | assumption | intro _ | apply runs_next | apply byFirmware_keeps | apply getTid_keeps)

theorem execGetpldmversion_runs {r s : State} {a0 a1 a2} [May W .out] (h : Keeps W r s) :
    Runs W r (execGetpldmversion a0 a1 a2 s) := by
  unfold execGetpldmversion
  repeat (with_reducible first
    | assumption | intro _ | apply runs_next | apply byFirmware_keeps | apply getPldmVersion_keeps)

theorem execGetpldmtypes_runs {r s : State} {a0} [May W .out] (h : Keeps W r s) : Runs W r (execGetpldmtypes a0 s) := by
  unfold execGetpldmtypes
  repeat (with_reducible first
    | assumption | intro _ | apply runs_next | apply byFirmware_keeps | apply getPldmTypes_keeps)

theorem execGetpldmcommands_runs {r s : State} {a0 a1} [May W .out] (h : Keeps W r s)
    : Runs W r (execGetpldmcommands a0 a1 s) := by
  unfold execGetpldmcommands
  repeat (with_reducible first
    | assumption | intro _ | apply runs_next | apply byFirmware_keeps | apply getPldmCommands_keeps)

theorem execGetpdrrepositoryinfo_runs {r s : State} {a0} [May W .out] (h : Keeps W r s) :
    Runs W r (execGetpdrrepositoryinfo a0 s) := by
  unfold execGetpdrrepositoryinfo
  repeat (with_reducible first
    | assumption | intro _ | apply runs_next | apply byFirmware_keeps | apply getPdrInfo_keeps)

theorem execGetpdr_runs {r s : State} {a0 a1 a2 a3 a4} [May W .out] (h : Keeps W r s)
    : Runs W r (execGetpdr a0 a1 a2 a3 a4 s) := by
  unfold execGetpdr
  repeat (with_reducible first
    | assumption | intro _ | apply runs_next | apply byFirmware_keeps | apply getPdr_keeps)

theorem execGetsensorreading_runs {r s : State} {a0 a1} [May W .out] [May W .free] (h : Keeps W r s)
    : Runs W r (execGetsensorreading a0 a1 s) := by
  unfold execGetsensorreading
  repeat (with_reducible first
    | assumption | intro _ | apply runs_next | apply byFirmware_keeps | apply getReading_keeps)

theorem execGetstatesensorreadings_runs {r s : State} {a0 a1} [May W .out] (h : Keeps W r s) :
    Runs W r (execGetstatesensorreadings a0 a1 s) := by
  unfold execGetstatesensorreadings
  repeat (with_reducible first
    | assumption | intro _ | apply runs_next | apply byFirmware_keeps | apply getStates_keeps)

theorem execSeteventreceiver_runs {r s : State} {a0 a1 a2 a3} [May W .rev] [May W .out] (h : Keeps W r s) :
    Runs W r (execSeteventreceiver a0 a1 a2 a3 s) := by
  unfold execSeteventreceiver
  repeat (with_reducible first
    | assumption | intro _ | apply runs_next | apply byFirmware_keeps | apply setReceiver_keeps)

theorem execMctpWake_runs {r s : State} {a0} [May W .regs] [May W .hbm] [May W .hif] [May W .fil] [May W .rev]
    [May W .tu] [May W .eth] [May W .stk] [May W .win] [May W .grn] [May W .tly] [May W .hsk] [May W .car] [May W .stg]
    [May W .pwr] [May W .trust] [May W .out] [May W .free] (h : Keeps W r s) : Runs W r (execMctpWake a0 s) := by
  unfold execMctpWake
  repeat (with_reducible first
    | assumption | intro _ | apply runs_next | apply byFirmware_keeps | apply wake_keeps | apply vdmRsp_keeps)

theorem execMctpWarm_runs {r s : State} {a0} [May W .regs] [May W .hif] [May W .dom] [May W .fil] [May W .rev]
    [May W .tu] [May W .eth] [May W .stk] [May W .win] [May W .grn] [May W .tly] [May W .lck] [May W .hsk] [May W .car]
    [May W .stg] [May W .pwr] [May W .trust] [May W .out] (h : Keeps W r s) : Runs W r (execMctpWarm a0 s) := by
  unfold execMctpWarm
  repeat (with_reducible first
    | assumption | intro _ | apply runs_next | apply byFirmware_keeps | apply vdmSession_keeps
    | apply warmReset_keeps)

theorem execMctpCold_runs {r s : State} {a0} [May W .regs] [May W .hbm] [May W .hif] [May W .dom] [May W .fil]
    [May W .rev] [May W .tu] [May W .eth] [May W .stk] [May W .win] [May W .grn] [May W .tly] [May W .lck] [May W .hsk]
    [May W .car] [May W .stg] [May W .pwr] [May W .trust] [May W .out] [May W .free] (h : Keeps W r s)
    : Runs W r (execMctpCold a0 s) := by
  unfold execMctpCold
  repeat (with_reducible first
    | assumption | intro _ | apply runs_next | apply byFirmware_keeps | apply vdmSession_keeps
    | apply coldReset_keeps)

theorem execReadLog_runs {r s : State} {a0 a1} [May W .trust] [May W .out] (h : Keeps W r s)
    : Runs W r (execReadLog a0 a1 s) := by
  unfold execReadLog
  repeat (with_reducible first
    | assumption | intro _ | apply runs_next | apply byFirmware_keeps | apply vdmRsp_keeps)

theorem execReadCause_runs {r s : State} {a0} [May W .trust] [May W .out] (h : Keeps W r s)
    : Runs W r (execReadCause a0 s) := by
  unfold execReadCause
  repeat (with_reducible first
    | assumption | intro _ | apply runs_next | apply byFirmware_keeps | apply vdmRsp_keeps)

end Sys2Proof.Machine
end

