-- ==== Sys2Proof/Laws/NvmeKeep.lean ====
section
/-! SUPPORT. Each operation of Machine/Nvme.lean keeps what `Keeps` says. -/

set_option Elab.async false

namespace Sys2Proof.Machine

open Sys2Proof

variable {W : List Part}

theorem execSqDoorbell_runs {r s : State} {a0 a1 a2} [May W .regs] [May W .hbm] [May W .hif] [May W .fil] [May W .rev]
    [May W .tu] [May W .eth] [May W .stk] [May W .win] [May W .grn] [May W .tly] [May W .car] [May W .stg] [May W .pwr]
    [May W .out] [May W .free] (h : Keeps W r s) : Runs W r (execSqDoorbell a0 a1 a2 s) := by
  unfold execSqDoorbell
  repeat (with_reducible first
    | assumption | intro _ | apply keeps_ite | apply runs_ite | apply runs_next | apply fromHost_keeps
    | apply sqBell_keeps)

theorem execCqDoorbell_runs {r s : State} {a0 a1 a2} [May W .regs] [May W .hbm] [May W .hif] [May W .fil] [May W .rev]
    [May W .tu] [May W .eth] [May W .stk] [May W .win] [May W .grn] [May W .tly] [May W .car] [May W .stg] [May W .pwr]
    [May W .out] [May W .free] (h : Keeps W r s) : Runs W r (execCqDoorbell a0 a1 a2 s) := by
  unfold execCqDoorbell
  repeat (with_reducible first
    | assumption | intro _ | apply keeps_ite | apply runs_ite | apply runs_next | apply fromHost_keeps
    | apply cqBell_keeps)

theorem execNvmWrite_runs {r s : State} {a0 a1 a2 a3 a4} [May W .regs] [May W .hbm] [May W .hif] [May W .fil]
    [May W .car] [May W .stg] [May W .out] [May W .free] (h : Keeps W r s) :
    Runs W r (execNvmWrite a0 a1 a2 a3 a4 s) := by
  unfold execNvmWrite
  repeat (with_reducible first
    | assumption | intro _ | apply keeps_ite | apply runs_ite | apply runs_next | apply whenUp_keeps
    | apply nvWrite_keeps)

theorem execNvmRead_runs {r s : State} {a0 a1 a2 a3 a4} [May W .regs] [May W .hbm] [May W .hif] [May W .fil]
    [May W .car] [May W .stg] [May W .out] [May W .free] (h : Keeps W r s) : Runs W r (execNvmRead a0 a1 a2 a3 a4 s) := by
  unfold execNvmRead
  repeat (with_reducible first
    | assumption | intro _ | apply keeps_ite | apply runs_ite | apply runs_next | apply whenUp_keeps
    | apply nvRead_keeps)

theorem execWriteZeroes_runs {r s : State} {a0 a1 a2 a3} [May W .regs] [May W .hbm] [May W .hif] [May W .fil]
    [May W .car] [May W .stg] [May W .out] [May W .free] (h : Keeps W r s) :
    Runs W r (execWriteZeroes a0 a1 a2 a3 s) := by
  unfold execWriteZeroes
  repeat (with_reducible first
    | assumption | intro _ | apply keeps_ite | apply runs_ite | apply runs_next | apply whenUp_keeps
    | apply nvZeroes_keeps)

theorem execDatasetManagement_runs {r s : State} {a0 a1 a2 a3} [May W .regs] [May W .hbm] [May W .hif] [May W .fil]
    [May W .car] [May W .stg] [May W .out] [May W .free] (h : Keeps W r s) :
    Runs W r (execDatasetManagement a0 a1 a2 a3 s) := by
  unfold execDatasetManagement
  repeat (with_reducible first
    | assumption | intro _ | apply keeps_ite | apply runs_ite | apply runs_next | apply whenUp_keeps
    | apply nvDsm_keeps)

theorem execNvmFlush_runs {r s : State} {a0 a1 a2} [May W .regs] [May W .hbm] [May W .hif] [May W .fil] [May W .car]
    [May W .stg] [May W .out] [May W .free] (h : Keeps W r s) : Runs W r (execNvmFlush a0 a1 a2 s) := by
  unfold execNvmFlush
  repeat (with_reducible first
    | assumption | intro _ | apply keeps_ite | apply runs_ite | apply runs_next | apply whenUp_keeps
    | apply nvFlush_keeps)

theorem execCreateIoSq_runs {r s : State} {a0 a1} [May W .regs] [May W .hbm] [May W .hif] [May W .fil] [May W .car]
    [May W .stg] [May W .out] [May W .free] (h : Keeps W r s) : Runs W r (execCreateIoSq a0 a1 s) := by
  unfold execCreateIoSq
  repeat (with_reducible first
    | assumption | intro _ | apply runs_next | apply whenUp_keeps | apply adminPlain_keeps | apply createSq_keeps
    | refine keeps_of1 (by with_reducible assumption) ?_ | exact keeps_fst (by with_reducible assumption)
    | refine keeps_fst (createSq_keeps ?_) | apply keeps1_mk)

theorem execDeleteIoSq_runs {r s : State} {a0 a1} [May W .regs] [May W .hbm] [May W .hif] [May W .fil] [May W .car]
    [May W .stg] [May W .out] [May W .free] (h : Keeps W r s) : Runs W r (execDeleteIoSq a0 a1 s) := by
  unfold execDeleteIoSq
  repeat (with_reducible first
    | assumption | intro _ | apply runs_next | apply whenUp_keeps | apply adminPlain_keeps | apply deleteSq_keeps
    | refine keeps_of1 (by with_reducible assumption) ?_ | exact keeps_fst (by with_reducible assumption)
    | refine keeps_fst (deleteSq_keeps ?_) | apply keeps1_mk)

theorem execCreateIoCq_runs {r s : State} {a0 a1} [May W .regs] [May W .hbm] [May W .hif] [May W .fil] [May W .car]
    [May W .stg] [May W .out] [May W .free] (h : Keeps W r s) : Runs W r (execCreateIoCq a0 a1 s) := by
  unfold execCreateIoCq
  repeat (with_reducible first
    | assumption | intro _ | apply runs_next | apply whenUp_keeps | apply adminPlain_keeps | apply createCq_keeps
    | refine keeps_of1 (by with_reducible assumption) ?_ | exact keeps_fst (by with_reducible assumption)
    | refine keeps_fst (createCq_keeps ?_) | apply keeps1_mk)

theorem execDeleteIoCq_runs {r s : State} {a0 a1} [May W .regs] [May W .hbm] [May W .hif] [May W .fil] [May W .car]
    [May W .stg] [May W .out] [May W .free] (h : Keeps W r s) : Runs W r (execDeleteIoCq a0 a1 s) := by
  unfold execDeleteIoCq
  repeat (with_reducible first
    | assumption | intro _ | apply runs_next | apply whenUp_keeps | apply adminPlain_keeps | apply deleteCq_keeps
    | refine keeps_of1 (by with_reducible assumption) ?_ | exact keeps_fst (by with_reducible assumption)
    | refine keeps_fst (deleteCq_keeps ?_) | apply keeps1_mk)

theorem execGetLogPage_runs {r s : State} {a0 a1 a2 a3} [May W .regs] [May W .hif] [May W .stg] [May W .out]
    [May W .free] (h : Keeps W r s) : Runs W r (execGetLogPage a0 a1 a2 a3 s) := by
  unfold execGetLogPage
  repeat (with_reducible first
    | assumption | intro _ | apply runs_next | apply whenUp_keeps | apply adminData_keeps | apply getLog_keeps
    | refine keeps_ofE1 (by with_reducible assumption) ?_)

theorem execIdentify_runs {r s : State} {a0 a1 a2} [May W .regs] [May W .hif] [May W .stg] [May W .out] [May W .free] (h
    : Keeps W r s) : Runs W r (execIdentify a0 a1 a2 s) := by
  unfold execIdentify
  repeat (with_reducible first
    | assumption | intro _ | apply runs_next | apply whenUp_keeps | apply adminData_keeps | apply identify_keeps
    | refine keeps_ofE1 (by with_reducible assumption) ?_)

theorem execAbort_runs {r s : State} {a0 a1} [May W .regs] [May W .hbm] [May W .hif] [May W .fil] [May W .car]
    [May W .stg] [May W .out] [May W .free] (h : Keeps W r s) : Runs W r (execAbort a0 a1 s) := by
  unfold execAbort
  repeat (with_reducible first
    | assumption | intro _ | apply runs_next | apply whenUp_keeps | apply nvAbort_keeps)

theorem execSetFeatures_runs {r s : State} {a0 a1} [May W .regs] [May W .hif] [May W .stg] [May W .out] [May W .free] (h
    : Keeps W r s) : Runs W r (execSetFeatures a0 a1 s) := by
  unfold execSetFeatures
  repeat (with_reducible first
    | assumption | intro _ | apply runs_next | apply whenUp_keeps | apply nvFetch_keeps | apply setFeature_keeps
    | apply nvDone_keeps | refine keeps_of1 (by with_reducible assumption) ?_
    | exact keeps_fst (by with_reducible assumption) | refine keeps_fst (setFeature_keeps ?_) | split
    | apply keeps1_mk)

theorem execGetFeatures_runs {r s : State} {a0 a1} [May W .regs] [May W .hif] [May W .stg] [May W .out] [May W .free] (h
    : Keeps W r s) : Runs W r (execGetFeatures a0 a1 s) := by
  unfold execGetFeatures
  repeat (with_reducible first
    | assumption | intro _ | apply runs_next | apply whenUp_keeps | apply nvFetch_keeps | apply nvDone_keeps)

theorem execAsynchronousEventRequest_runs {r s : State} {a0 a1} [May W .regs] [May W .hif] [May W .stg] [May W .out]
    [May W .free] (h : Keeps W r s) :
    Runs W r (execAsynchronousEventRequest a0 a1 s) := by
  unfold execAsynchronousEventRequest
  repeat (with_reducible first
    | assumption | intro _ | apply keeps_ite | apply runs_ite | apply runs_next | apply whenUp_keeps
    | apply nvFetch_keeps | apply nvDone_keeps | apply eventPump_keeps | apply ctlMod_keeps)

theorem execCcWrite_runs {r s : State} {a0 a1} [May W .regs] [May W .hbm] [May W .hif] [May W .fil] [May W .rev]
    [May W .tu] [May W .eth] [May W .stk] [May W .win] [May W .grn] [May W .tly] [May W .car] [May W .stg] [May W .pwr]
    [May W .out] [May W .free] (h : Keeps W r s) : Runs W r (execCcWrite a0 a1 s) := by
  unfold execCcWrite
  repeat (with_reducible first
    | assumption | intro _ | apply runs_next | apply fromHost_keeps | apply ccWrite_keeps)

theorem execLegComplete_runs {r s : State} {a0} [May W .regs] [May W .hbm] [May W .hif] [May W .fil] [May W .car]
    [May W .stg] [May W .out] (h : Keeps W r s) : Runs W r (execLegComplete a0 s) := by
  unfold execLegComplete
  repeat (with_reducible first
    | assumption | intro _ | apply runs_next | apply whenUp_keeps | apply legComplete_keeps)

theorem execInterruptCoalescingExpiry_runs {r s : State} {a0 a1} [May W .regs] [May W .now] [May W .hif] [May W .tu]
    [May W .stg] [May W .out] [May W .free] (h : Keeps W r s) :
    Runs W r (execInterruptCoalescingExpiry a0 a1 s) := by
  unfold execInterruptCoalescingExpiry
  repeat (with_reducible first
    | assumption | intro _ | apply keeps_ite | apply runs_ite | apply runs_next | apply whenUp_keeps
    | apply cqIntr_keeps | apply clockTo_keeps | split)

end Sys2Proof.Machine
end

