-- ==== Sys2Proof/Laws/State.lean ====
section
/-! SUPPORT. What each update of the state leaves alone, and what it sets, one field at a time: no later proof unfolds a record
update. -/

namespace Sys2Proof.Machine

open Sys2Proof

section
variable (s : State) (f : Fld) (ix : List Nat) (v : Nat)
@[simp] theorem State.wr_regs : (s.wr f ix v).regs = s.regs.set f ix v := rfl
@[simp] theorem State.wr_now : (s.wr f ix v).now = s.now := rfl
@[simp] theorem State.wr_hbm : (s.wr f ix v).hbm = s.hbm := rfl
@[simp] theorem State.wr_hif : (s.wr f ix v).hif = s.hif := rfl
@[simp] theorem State.wr_dom : (s.wr f ix v).dom = s.dom := rfl
@[simp] theorem State.wr_fil : (s.wr f ix v).fil = s.fil := rfl
@[simp] theorem State.wr_rev : (s.wr f ix v).rev = s.rev := rfl
@[simp] theorem State.wr_tu : (s.wr f ix v).tu = s.tu := rfl
@[simp] theorem State.wr_eth : (s.wr f ix v).eth = s.eth := rfl
@[simp] theorem State.wr_stk : (s.wr f ix v).stk = s.stk := rfl
@[simp] theorem State.wr_win : (s.wr f ix v).win = s.win := rfl
@[simp] theorem State.wr_grn : (s.wr f ix v).grn = s.grn := rfl
@[simp] theorem State.wr_tly : (s.wr f ix v).tly = s.tly := rfl
@[simp] theorem State.wr_lck : (s.wr f ix v).lck = s.lck := rfl
@[simp] theorem State.wr_hsk : (s.wr f ix v).hsk = s.hsk := rfl
@[simp] theorem State.wr_car : (s.wr f ix v).car = s.car := rfl
@[simp] theorem State.wr_stg : (s.wr f ix v).stg = s.stg := rfl
@[simp] theorem State.wr_pwr : (s.wr f ix v).pwr = s.pwr := rfl
@[simp] theorem State.wr_trust : (s.wr f ix v).trust = s.trust := rfl
@[simp] theorem State.wr_out : (s.wr f ix v).out = s.out := rfl
@[simp] theorem State.wr_freeCtr : (s.wr f ix v).freeCtr = s.freeCtr := rfl
@[simp] theorem State.wr_pending : (s.wr f ix v).pending = s.pending := rfl
end

section
variable (s : State) (f : Fld) (ix : List Nat) (n : Nat)
@[simp] theorem State.add_now : (s.add f ix n).now = s.now := rfl
@[simp] theorem State.add_hbm : (s.add f ix n).hbm = s.hbm := rfl
@[simp] theorem State.add_hif : (s.add f ix n).hif = s.hif := rfl
@[simp] theorem State.add_dom : (s.add f ix n).dom = s.dom := rfl
@[simp] theorem State.add_fil : (s.add f ix n).fil = s.fil := rfl
@[simp] theorem State.add_rev : (s.add f ix n).rev = s.rev := rfl
@[simp] theorem State.add_tu : (s.add f ix n).tu = s.tu := rfl
@[simp] theorem State.add_eth : (s.add f ix n).eth = s.eth := rfl
@[simp] theorem State.add_stk : (s.add f ix n).stk = s.stk := rfl
@[simp] theorem State.add_win : (s.add f ix n).win = s.win := rfl
@[simp] theorem State.add_grn : (s.add f ix n).grn = s.grn := rfl
@[simp] theorem State.add_tly : (s.add f ix n).tly = s.tly := rfl
@[simp] theorem State.add_lck : (s.add f ix n).lck = s.lck := rfl
@[simp] theorem State.add_hsk : (s.add f ix n).hsk = s.hsk := rfl
@[simp] theorem State.add_car : (s.add f ix n).car = s.car := rfl
@[simp] theorem State.add_stg : (s.add f ix n).stg = s.stg := rfl
@[simp] theorem State.add_pwr : (s.add f ix n).pwr = s.pwr := rfl
@[simp] theorem State.add_trust : (s.add f ix n).trust = s.trust := rfl
@[simp] theorem State.add_out : (s.add f ix n).out = s.out := rfl
@[simp] theorem State.add_freeCtr : (s.add f ix n).freeCtr = s.freeCtr := rfl
@[simp] theorem State.add_pending : (s.add f ix n).pending = s.pending := rfl
end

section
variable (s : State) (f : Fld) (ix : List Nat)
@[simp] theorem State.inc_now : (s.inc f ix).now = s.now := rfl
@[simp] theorem State.inc_hbm : (s.inc f ix).hbm = s.hbm := rfl
@[simp] theorem State.inc_hif : (s.inc f ix).hif = s.hif := rfl
@[simp] theorem State.inc_dom : (s.inc f ix).dom = s.dom := rfl
@[simp] theorem State.inc_fil : (s.inc f ix).fil = s.fil := rfl
@[simp] theorem State.inc_rev : (s.inc f ix).rev = s.rev := rfl
@[simp] theorem State.inc_tu : (s.inc f ix).tu = s.tu := rfl
@[simp] theorem State.inc_eth : (s.inc f ix).eth = s.eth := rfl
@[simp] theorem State.inc_stk : (s.inc f ix).stk = s.stk := rfl
@[simp] theorem State.inc_win : (s.inc f ix).win = s.win := rfl
@[simp] theorem State.inc_grn : (s.inc f ix).grn = s.grn := rfl
@[simp] theorem State.inc_tly : (s.inc f ix).tly = s.tly := rfl
@[simp] theorem State.inc_lck : (s.inc f ix).lck = s.lck := rfl
@[simp] theorem State.inc_hsk : (s.inc f ix).hsk = s.hsk := rfl
@[simp] theorem State.inc_car : (s.inc f ix).car = s.car := rfl
@[simp] theorem State.inc_stg : (s.inc f ix).stg = s.stg := rfl
@[simp] theorem State.inc_pwr : (s.inc f ix).pwr = s.pwr := rfl
@[simp] theorem State.inc_trust : (s.inc f ix).trust = s.trust := rfl
@[simp] theorem State.inc_out : (s.inc f ix).out = s.out := rfl
@[simp] theorem State.inc_freeCtr : (s.inc f ix).freeCtr = s.freeCtr := rfl
@[simp] theorem State.inc_pending : (s.inc f ix).pending = s.pending := rfl
end

section
variable (s : State) (f : Fld) (ix : List Nat) (n : Nat)
@[simp] theorem State.sub_now : (s.sub f ix n).now = s.now := rfl
@[simp] theorem State.sub_hbm : (s.sub f ix n).hbm = s.hbm := rfl
@[simp] theorem State.sub_hif : (s.sub f ix n).hif = s.hif := rfl
@[simp] theorem State.sub_dom : (s.sub f ix n).dom = s.dom := rfl
@[simp] theorem State.sub_fil : (s.sub f ix n).fil = s.fil := rfl
@[simp] theorem State.sub_rev : (s.sub f ix n).rev = s.rev := rfl
@[simp] theorem State.sub_tu : (s.sub f ix n).tu = s.tu := rfl
@[simp] theorem State.sub_eth : (s.sub f ix n).eth = s.eth := rfl
@[simp] theorem State.sub_stk : (s.sub f ix n).stk = s.stk := rfl
@[simp] theorem State.sub_win : (s.sub f ix n).win = s.win := rfl
@[simp] theorem State.sub_grn : (s.sub f ix n).grn = s.grn := rfl
@[simp] theorem State.sub_tly : (s.sub f ix n).tly = s.tly := rfl
@[simp] theorem State.sub_lck : (s.sub f ix n).lck = s.lck := rfl
@[simp] theorem State.sub_hsk : (s.sub f ix n).hsk = s.hsk := rfl
@[simp] theorem State.sub_car : (s.sub f ix n).car = s.car := rfl
@[simp] theorem State.sub_stg : (s.sub f ix n).stg = s.stg := rfl
@[simp] theorem State.sub_pwr : (s.sub f ix n).pwr = s.pwr := rfl
@[simp] theorem State.sub_trust : (s.sub f ix n).trust = s.trust := rfl
@[simp] theorem State.sub_out : (s.sub f ix n).out = s.out := rfl
@[simp] theorem State.sub_freeCtr : (s.sub f ix n).freeCtr = s.freeCtr := rfl
@[simp] theorem State.sub_pending : (s.sub f ix n).pending = s.pending := rfl
end

section
variable (s : State) (f : Fld) (ix : List Nat) (n : Nat)
@[simp] theorem State.satAdd_now : (s.satAdd f ix n).now = s.now := rfl
@[simp] theorem State.satAdd_hbm : (s.satAdd f ix n).hbm = s.hbm := rfl
@[simp] theorem State.satAdd_hif : (s.satAdd f ix n).hif = s.hif := rfl
@[simp] theorem State.satAdd_dom : (s.satAdd f ix n).dom = s.dom := rfl
@[simp] theorem State.satAdd_fil : (s.satAdd f ix n).fil = s.fil := rfl
@[simp] theorem State.satAdd_rev : (s.satAdd f ix n).rev = s.rev := rfl
@[simp] theorem State.satAdd_tu : (s.satAdd f ix n).tu = s.tu := rfl
@[simp] theorem State.satAdd_eth : (s.satAdd f ix n).eth = s.eth := rfl
@[simp] theorem State.satAdd_stk : (s.satAdd f ix n).stk = s.stk := rfl
@[simp] theorem State.satAdd_win : (s.satAdd f ix n).win = s.win := rfl
@[simp] theorem State.satAdd_grn : (s.satAdd f ix n).grn = s.grn := rfl
@[simp] theorem State.satAdd_tly : (s.satAdd f ix n).tly = s.tly := rfl
@[simp] theorem State.satAdd_lck : (s.satAdd f ix n).lck = s.lck := rfl
@[simp] theorem State.satAdd_hsk : (s.satAdd f ix n).hsk = s.hsk := rfl
@[simp] theorem State.satAdd_car : (s.satAdd f ix n).car = s.car := rfl
@[simp] theorem State.satAdd_stg : (s.satAdd f ix n).stg = s.stg := rfl
@[simp] theorem State.satAdd_pwr : (s.satAdd f ix n).pwr = s.pwr := rfl
@[simp] theorem State.satAdd_trust : (s.satAdd f ix n).trust = s.trust := rfl
@[simp] theorem State.satAdd_out : (s.satAdd f ix n).out = s.out := rfl
@[simp] theorem State.satAdd_freeCtr : (s.satAdd f ix n).freeCtr = s.freeCtr := rfl
@[simp] theorem State.satAdd_pending : (s.satAdd f ix n).pending = s.pending := rfl
end

section
variable (s : State) (e : Emit)
@[simp] theorem State.emit_regs : (s.emit e).regs = s.regs := rfl
@[simp] theorem State.emit_now : (s.emit e).now = s.now := rfl
@[simp] theorem State.emit_hbm : (s.emit e).hbm = s.hbm := rfl
@[simp] theorem State.emit_hif : (s.emit e).hif = s.hif := rfl
@[simp] theorem State.emit_dom : (s.emit e).dom = s.dom := rfl
@[simp] theorem State.emit_fil : (s.emit e).fil = s.fil := rfl
@[simp] theorem State.emit_rev : (s.emit e).rev = s.rev := rfl
@[simp] theorem State.emit_tu : (s.emit e).tu = s.tu := rfl
@[simp] theorem State.emit_eth : (s.emit e).eth = s.eth := rfl
@[simp] theorem State.emit_stk : (s.emit e).stk = s.stk := rfl
@[simp] theorem State.emit_win : (s.emit e).win = s.win := rfl
@[simp] theorem State.emit_grn : (s.emit e).grn = s.grn := rfl
@[simp] theorem State.emit_tly : (s.emit e).tly = s.tly := rfl
@[simp] theorem State.emit_lck : (s.emit e).lck = s.lck := rfl
@[simp] theorem State.emit_hsk : (s.emit e).hsk = s.hsk := rfl
@[simp] theorem State.emit_car : (s.emit e).car = s.car := rfl
@[simp] theorem State.emit_stg : (s.emit e).stg = s.stg := rfl
@[simp] theorem State.emit_pwr : (s.emit e).pwr = s.pwr := rfl
@[simp] theorem State.emit_trust : (s.emit e).trust = s.trust := rfl
@[simp] theorem State.emit_out : (s.emit e).out = s.out ++ [e] := rfl
@[simp] theorem State.emit_freeCtr : (s.emit e).freeCtr = s.freeCtr := rfl
@[simp] theorem State.emit_pending : (s.emit e).pending = s.pending := rfl
@[simp] theorem State.emit_rd (g : Fld) (jx : List Nat) : (s.emit e).rd g jx = s.rd g jx := rfl
@[simp] theorem State.emit_flag (g : Fld) (jx : List Nat) : (s.emit e).flag g jx = s.flag g jx := rfl
end

section
variable (s : State) (es : List Emit)
@[simp] theorem State.emits_regs : (s.emits es).regs = s.regs := rfl
@[simp] theorem State.emits_now : (s.emits es).now = s.now := rfl
@[simp] theorem State.emits_hbm : (s.emits es).hbm = s.hbm := rfl
@[simp] theorem State.emits_hif : (s.emits es).hif = s.hif := rfl
@[simp] theorem State.emits_dom : (s.emits es).dom = s.dom := rfl
@[simp] theorem State.emits_fil : (s.emits es).fil = s.fil := rfl
@[simp] theorem State.emits_rev : (s.emits es).rev = s.rev := rfl
@[simp] theorem State.emits_tu : (s.emits es).tu = s.tu := rfl
@[simp] theorem State.emits_eth : (s.emits es).eth = s.eth := rfl
@[simp] theorem State.emits_stk : (s.emits es).stk = s.stk := rfl
@[simp] theorem State.emits_win : (s.emits es).win = s.win := rfl
@[simp] theorem State.emits_grn : (s.emits es).grn = s.grn := rfl
@[simp] theorem State.emits_tly : (s.emits es).tly = s.tly := rfl
@[simp] theorem State.emits_lck : (s.emits es).lck = s.lck := rfl
@[simp] theorem State.emits_hsk : (s.emits es).hsk = s.hsk := rfl
@[simp] theorem State.emits_car : (s.emits es).car = s.car := rfl
@[simp] theorem State.emits_stg : (s.emits es).stg = s.stg := rfl
@[simp] theorem State.emits_pwr : (s.emits es).pwr = s.pwr := rfl
@[simp] theorem State.emits_trust : (s.emits es).trust = s.trust := rfl
@[simp] theorem State.emits_out : (s.emits es).out = s.out ++ es := rfl
@[simp] theorem State.emits_freeCtr : (s.emits es).freeCtr = s.freeCtr := rfl
@[simp] theorem State.emits_pending : (s.emits es).pending = s.pending := rfl
@[simp] theorem State.emits_rd (g : Fld) (jx : List Nat) : (s.emits es).rd g jx = s.rd g jx := rfl
@[simp] theorem State.emits_flag (g : Fld) (jx : List Nat) : (s.emits es).flag g jx = s.flag g jx := rfl
end

section
variable (s : State) (w : Nat)
@[simp] theorem State.freeBits_regs : (s.freeBits w).2.regs = s.regs := rfl
@[simp] theorem State.freeBits_now : (s.freeBits w).2.now = s.now := rfl
@[simp] theorem State.freeBits_hbm : (s.freeBits w).2.hbm = s.hbm := rfl
@[simp] theorem State.freeBits_hif : (s.freeBits w).2.hif = s.hif := rfl
@[simp] theorem State.freeBits_dom : (s.freeBits w).2.dom = s.dom := rfl
@[simp] theorem State.freeBits_fil : (s.freeBits w).2.fil = s.fil := rfl
@[simp] theorem State.freeBits_rev : (s.freeBits w).2.rev = s.rev := rfl
@[simp] theorem State.freeBits_tu : (s.freeBits w).2.tu = s.tu := rfl
@[simp] theorem State.freeBits_eth : (s.freeBits w).2.eth = s.eth := rfl
@[simp] theorem State.freeBits_stk : (s.freeBits w).2.stk = s.stk := rfl
@[simp] theorem State.freeBits_win : (s.freeBits w).2.win = s.win := rfl
@[simp] theorem State.freeBits_grn : (s.freeBits w).2.grn = s.grn := rfl
@[simp] theorem State.freeBits_tly : (s.freeBits w).2.tly = s.tly := rfl
@[simp] theorem State.freeBits_lck : (s.freeBits w).2.lck = s.lck := rfl
@[simp] theorem State.freeBits_hsk : (s.freeBits w).2.hsk = s.hsk := rfl
@[simp] theorem State.freeBits_car : (s.freeBits w).2.car = s.car := rfl
@[simp] theorem State.freeBits_stg : (s.freeBits w).2.stg = s.stg := rfl
@[simp] theorem State.freeBits_pwr : (s.freeBits w).2.pwr = s.pwr := rfl
@[simp] theorem State.freeBits_trust : (s.freeBits w).2.trust = s.trust := rfl
@[simp] theorem State.freeBits_out : (s.freeBits w).2.out = s.out := rfl
@[simp] theorem State.freeBits_freeCtr : (s.freeBits w).2.freeCtr = s.freeCtr + 1 := rfl
@[simp] theorem State.freeBits_pending : (s.freeBits w).2.pending = s.pending := rfl
@[simp] theorem State.freeBits_rd (g : Fld) (jx : List Nat) : (s.freeBits w).2.rd g jx = s.rd g jx := rfl
@[simp] theorem State.freeBits_flag (g : Fld) (jx : List Nat) : (s.freeBits w).2.flag g jx = s.flag g jx := rfl
end

section
variable (s : State) (n : Nat)
@[simp] theorem State.freeBytes_regs : (s.freeBytes n).2.regs = s.regs := rfl
@[simp] theorem State.freeBytes_now : (s.freeBytes n).2.now = s.now := rfl
@[simp] theorem State.freeBytes_hbm : (s.freeBytes n).2.hbm = s.hbm := rfl
@[simp] theorem State.freeBytes_hif : (s.freeBytes n).2.hif = s.hif := rfl
@[simp] theorem State.freeBytes_dom : (s.freeBytes n).2.dom = s.dom := rfl
@[simp] theorem State.freeBytes_fil : (s.freeBytes n).2.fil = s.fil := rfl
@[simp] theorem State.freeBytes_rev : (s.freeBytes n).2.rev = s.rev := rfl
@[simp] theorem State.freeBytes_tu : (s.freeBytes n).2.tu = s.tu := rfl
@[simp] theorem State.freeBytes_eth : (s.freeBytes n).2.eth = s.eth := rfl
@[simp] theorem State.freeBytes_stk : (s.freeBytes n).2.stk = s.stk := rfl
@[simp] theorem State.freeBytes_win : (s.freeBytes n).2.win = s.win := rfl
@[simp] theorem State.freeBytes_grn : (s.freeBytes n).2.grn = s.grn := rfl
@[simp] theorem State.freeBytes_tly : (s.freeBytes n).2.tly = s.tly := rfl
@[simp] theorem State.freeBytes_lck : (s.freeBytes n).2.lck = s.lck := rfl
@[simp] theorem State.freeBytes_hsk : (s.freeBytes n).2.hsk = s.hsk := rfl
@[simp] theorem State.freeBytes_car : (s.freeBytes n).2.car = s.car := rfl
@[simp] theorem State.freeBytes_stg : (s.freeBytes n).2.stg = s.stg := rfl
@[simp] theorem State.freeBytes_pwr : (s.freeBytes n).2.pwr = s.pwr := rfl
@[simp] theorem State.freeBytes_trust : (s.freeBytes n).2.trust = s.trust := rfl
@[simp] theorem State.freeBytes_out : (s.freeBytes n).2.out = s.out := rfl
@[simp] theorem State.freeBytes_freeCtr : (s.freeBytes n).2.freeCtr = s.freeCtr + 1 := rfl
@[simp] theorem State.freeBytes_pending : (s.freeBytes n).2.pending = s.pending := rfl
@[simp] theorem State.freeBytes_rd (g : Fld) (jx : List Nat) : (s.freeBytes n).2.rd g jx = s.rd g jx := rfl
@[simp] theorem State.freeBytes_flag (g : Fld) (jx : List Nat) : (s.freeBytes n).2.flag g jx = s.flag g jx := rfl
end

section
variable (s : State) (x : Win)
@[simp] theorem putWin_regs : (putWin s x).regs = s.regs := rfl
@[simp] theorem putWin_now : (putWin s x).now = s.now := rfl
@[simp] theorem putWin_hbm : (putWin s x).hbm = s.hbm := rfl
@[simp] theorem putWin_hif : (putWin s x).hif = s.hif := rfl
@[simp] theorem putWin_dom : (putWin s x).dom = s.dom := rfl
@[simp] theorem putWin_fil : (putWin s x).fil = s.fil := rfl
@[simp] theorem putWin_rev : (putWin s x).rev = s.rev := rfl
@[simp] theorem putWin_tu : (putWin s x).tu = s.tu := rfl
@[simp] theorem putWin_eth : (putWin s x).eth = s.eth := rfl
@[simp] theorem putWin_stk : (putWin s x).stk = s.stk := rfl
@[simp] theorem putWin_win : (putWin s x).win = x := rfl
@[simp] theorem putWin_grn : (putWin s x).grn = s.grn := rfl
@[simp] theorem putWin_tly : (putWin s x).tly = s.tly := rfl
@[simp] theorem putWin_lck : (putWin s x).lck = s.lck := rfl
@[simp] theorem putWin_hsk : (putWin s x).hsk = s.hsk := rfl
@[simp] theorem putWin_car : (putWin s x).car = s.car := rfl
@[simp] theorem putWin_stg : (putWin s x).stg = s.stg := rfl
@[simp] theorem putWin_pwr : (putWin s x).pwr = s.pwr := rfl
@[simp] theorem putWin_trust : (putWin s x).trust = s.trust := rfl
@[simp] theorem putWin_out : (putWin s x).out = s.out := rfl
@[simp] theorem putWin_freeCtr : (putWin s x).freeCtr = s.freeCtr := rfl
@[simp] theorem putWin_pending : (putWin s x).pending = s.pending := rfl
@[simp] theorem putWin_rd (g : Fld) (jx : List Nat) : (putWin s x).rd g jx = s.rd g jx := rfl
@[simp] theorem putWin_flag (g : Fld) (jx : List Nat) : (putWin s x).flag g jx = s.flag g jx := rfl
end

section
variable (s : State) (x : Rev)
@[simp] theorem putRev_regs : (putRev s x).regs = s.regs := rfl
@[simp] theorem putRev_now : (putRev s x).now = s.now := rfl
@[simp] theorem putRev_hbm : (putRev s x).hbm = s.hbm := rfl
@[simp] theorem putRev_hif : (putRev s x).hif = s.hif := rfl
@[simp] theorem putRev_dom : (putRev s x).dom = s.dom := rfl
@[simp] theorem putRev_fil : (putRev s x).fil = s.fil := rfl
@[simp] theorem putRev_rev : (putRev s x).rev = x := rfl
@[simp] theorem putRev_tu : (putRev s x).tu = s.tu := rfl
@[simp] theorem putRev_eth : (putRev s x).eth = s.eth := rfl
@[simp] theorem putRev_stk : (putRev s x).stk = s.stk := rfl
@[simp] theorem putRev_win : (putRev s x).win = s.win := rfl
@[simp] theorem putRev_grn : (putRev s x).grn = s.grn := rfl
@[simp] theorem putRev_tly : (putRev s x).tly = s.tly := rfl
@[simp] theorem putRev_lck : (putRev s x).lck = s.lck := rfl
@[simp] theorem putRev_hsk : (putRev s x).hsk = s.hsk := rfl
@[simp] theorem putRev_car : (putRev s x).car = s.car := rfl
@[simp] theorem putRev_stg : (putRev s x).stg = s.stg := rfl
@[simp] theorem putRev_pwr : (putRev s x).pwr = s.pwr := rfl
@[simp] theorem putRev_trust : (putRev s x).trust = s.trust := rfl
@[simp] theorem putRev_out : (putRev s x).out = s.out := rfl
@[simp] theorem putRev_freeCtr : (putRev s x).freeCtr = s.freeCtr := rfl
@[simp] theorem putRev_pending : (putRev s x).pending = s.pending := rfl
@[simp] theorem putRev_rd (g : Fld) (jx : List Nat) : (putRev s x).rd g jx = s.rd g jx := rfl
@[simp] theorem putRev_flag (g : Fld) (jx : List Nat) : (putRev s x).flag g jx = s.flag g jx := rfl
end

section
variable (s : State) (x : Trust)
@[simp] theorem putTrust_regs : (putTrust s x).regs = s.regs := rfl
@[simp] theorem putTrust_now : (putTrust s x).now = s.now := rfl
@[simp] theorem putTrust_hbm : (putTrust s x).hbm = s.hbm := rfl
@[simp] theorem putTrust_hif : (putTrust s x).hif = s.hif := rfl
@[simp] theorem putTrust_dom : (putTrust s x).dom = s.dom := rfl
@[simp] theorem putTrust_fil : (putTrust s x).fil = s.fil := rfl
@[simp] theorem putTrust_rev : (putTrust s x).rev = s.rev := rfl
@[simp] theorem putTrust_tu : (putTrust s x).tu = s.tu := rfl
@[simp] theorem putTrust_eth : (putTrust s x).eth = s.eth := rfl
@[simp] theorem putTrust_stk : (putTrust s x).stk = s.stk := rfl
@[simp] theorem putTrust_win : (putTrust s x).win = s.win := rfl
@[simp] theorem putTrust_grn : (putTrust s x).grn = s.grn := rfl
@[simp] theorem putTrust_tly : (putTrust s x).tly = s.tly := rfl
@[simp] theorem putTrust_lck : (putTrust s x).lck = s.lck := rfl
@[simp] theorem putTrust_hsk : (putTrust s x).hsk = s.hsk := rfl
@[simp] theorem putTrust_car : (putTrust s x).car = s.car := rfl
@[simp] theorem putTrust_stg : (putTrust s x).stg = s.stg := rfl
@[simp] theorem putTrust_pwr : (putTrust s x).pwr = s.pwr := rfl
@[simp] theorem putTrust_trust : (putTrust s x).trust = x := rfl
@[simp] theorem putTrust_out : (putTrust s x).out = s.out := rfl
@[simp] theorem putTrust_freeCtr : (putTrust s x).freeCtr = s.freeCtr := rfl
@[simp] theorem putTrust_pending : (putTrust s x).pending = s.pending := rfl
@[simp] theorem putTrust_rd (g : Fld) (jx : List Nat) : (putTrust s x).rd g jx = s.rd g jx := rfl
@[simp] theorem putTrust_flag (g : Fld) (jx : List Nat) : (putTrust s x).flag g jx = s.flag g jx := rfl
end

section
variable (s : State) (x : Stg)
@[simp] theorem putStg_regs : (putStg s x).regs = s.regs := rfl
@[simp] theorem putStg_now : (putStg s x).now = s.now := rfl
@[simp] theorem putStg_hbm : (putStg s x).hbm = s.hbm := rfl
@[simp] theorem putStg_hif : (putStg s x).hif = s.hif := rfl
@[simp] theorem putStg_dom : (putStg s x).dom = s.dom := rfl
@[simp] theorem putStg_fil : (putStg s x).fil = s.fil := rfl
@[simp] theorem putStg_rev : (putStg s x).rev = s.rev := rfl
@[simp] theorem putStg_tu : (putStg s x).tu = s.tu := rfl
@[simp] theorem putStg_eth : (putStg s x).eth = s.eth := rfl
@[simp] theorem putStg_stk : (putStg s x).stk = s.stk := rfl
@[simp] theorem putStg_win : (putStg s x).win = s.win := rfl
@[simp] theorem putStg_grn : (putStg s x).grn = s.grn := rfl
@[simp] theorem putStg_tly : (putStg s x).tly = s.tly := rfl
@[simp] theorem putStg_lck : (putStg s x).lck = s.lck := rfl
@[simp] theorem putStg_hsk : (putStg s x).hsk = s.hsk := rfl
@[simp] theorem putStg_car : (putStg s x).car = s.car := rfl
@[simp] theorem putStg_stg : (putStg s x).stg = x := rfl
@[simp] theorem putStg_pwr : (putStg s x).pwr = s.pwr := rfl
@[simp] theorem putStg_trust : (putStg s x).trust = s.trust := rfl
@[simp] theorem putStg_out : (putStg s x).out = s.out := rfl
@[simp] theorem putStg_freeCtr : (putStg s x).freeCtr = s.freeCtr := rfl
@[simp] theorem putStg_pending : (putStg s x).pending = s.pending := rfl
@[simp] theorem putStg_rd (g : Fld) (jx : List Nat) : (putStg s x).rd g jx = s.rd g jx := rfl
@[simp] theorem putStg_flag (g : Fld) (jx : List Nat) : (putStg s x).flag g jx = s.flag g jx := rfl
end

section
variable (s : State) (x : Hsk)
@[simp] theorem putHsk_regs : (putHsk s x).regs = s.regs := rfl
@[simp] theorem putHsk_now : (putHsk s x).now = s.now := rfl
@[simp] theorem putHsk_hbm : (putHsk s x).hbm = s.hbm := rfl
@[simp] theorem putHsk_hif : (putHsk s x).hif = s.hif := rfl
@[simp] theorem putHsk_dom : (putHsk s x).dom = s.dom := rfl
@[simp] theorem putHsk_fil : (putHsk s x).fil = s.fil := rfl
@[simp] theorem putHsk_rev : (putHsk s x).rev = s.rev := rfl
@[simp] theorem putHsk_tu : (putHsk s x).tu = s.tu := rfl
@[simp] theorem putHsk_eth : (putHsk s x).eth = s.eth := rfl
@[simp] theorem putHsk_stk : (putHsk s x).stk = s.stk := rfl
@[simp] theorem putHsk_win : (putHsk s x).win = s.win := rfl
@[simp] theorem putHsk_grn : (putHsk s x).grn = s.grn := rfl
@[simp] theorem putHsk_tly : (putHsk s x).tly = s.tly := rfl
@[simp] theorem putHsk_lck : (putHsk s x).lck = s.lck := rfl
@[simp] theorem putHsk_hsk : (putHsk s x).hsk = x := rfl
@[simp] theorem putHsk_car : (putHsk s x).car = s.car := rfl
@[simp] theorem putHsk_stg : (putHsk s x).stg = s.stg := rfl
@[simp] theorem putHsk_pwr : (putHsk s x).pwr = s.pwr := rfl
@[simp] theorem putHsk_trust : (putHsk s x).trust = s.trust := rfl
@[simp] theorem putHsk_out : (putHsk s x).out = s.out := rfl
@[simp] theorem putHsk_freeCtr : (putHsk s x).freeCtr = s.freeCtr := rfl
@[simp] theorem putHsk_pending : (putHsk s x).pending = s.pending := rfl
@[simp] theorem putHsk_rd (g : Fld) (jx : List Nat) : (putHsk s x).rd g jx = s.rd g jx := rfl
@[simp] theorem putHsk_flag (g : Fld) (jx : List Nat) : (putHsk s x).flag g jx = s.flag g jx := rfl
end

section
variable (s : State) (x : Lck)
@[simp] theorem putLck_regs : (putLck s x).regs = s.regs := rfl
@[simp] theorem putLck_now : (putLck s x).now = s.now := rfl
@[simp] theorem putLck_hbm : (putLck s x).hbm = s.hbm := rfl
@[simp] theorem putLck_hif : (putLck s x).hif = s.hif := rfl
@[simp] theorem putLck_dom : (putLck s x).dom = s.dom := rfl
@[simp] theorem putLck_fil : (putLck s x).fil = s.fil := rfl
@[simp] theorem putLck_rev : (putLck s x).rev = s.rev := rfl
@[simp] theorem putLck_tu : (putLck s x).tu = s.tu := rfl
@[simp] theorem putLck_eth : (putLck s x).eth = s.eth := rfl
@[simp] theorem putLck_stk : (putLck s x).stk = s.stk := rfl
@[simp] theorem putLck_win : (putLck s x).win = s.win := rfl
@[simp] theorem putLck_grn : (putLck s x).grn = s.grn := rfl
@[simp] theorem putLck_tly : (putLck s x).tly = s.tly := rfl
@[simp] theorem putLck_lck : (putLck s x).lck = x := rfl
@[simp] theorem putLck_hsk : (putLck s x).hsk = s.hsk := rfl
@[simp] theorem putLck_car : (putLck s x).car = s.car := rfl
@[simp] theorem putLck_stg : (putLck s x).stg = s.stg := rfl
@[simp] theorem putLck_pwr : (putLck s x).pwr = s.pwr := rfl
@[simp] theorem putLck_trust : (putLck s x).trust = s.trust := rfl
@[simp] theorem putLck_out : (putLck s x).out = s.out := rfl
@[simp] theorem putLck_freeCtr : (putLck s x).freeCtr = s.freeCtr := rfl
@[simp] theorem putLck_pending : (putLck s x).pending = s.pending := rfl
@[simp] theorem putLck_rd (g : Fld) (jx : List Nat) : (putLck s x).rd g jx = s.rd g jx := rfl
@[simp] theorem putLck_flag (g : Fld) (jx : List Nat) : (putLck s x).flag g jx = s.flag g jx := rfl
end

section
variable (s : State) (x : Pwr)
@[simp] theorem putPwr_regs : (putPwr s x).regs = s.regs := rfl
@[simp] theorem putPwr_now : (putPwr s x).now = s.now := rfl
@[simp] theorem putPwr_hbm : (putPwr s x).hbm = s.hbm := rfl
@[simp] theorem putPwr_hif : (putPwr s x).hif = s.hif := rfl
@[simp] theorem putPwr_dom : (putPwr s x).dom = s.dom := rfl
@[simp] theorem putPwr_fil : (putPwr s x).fil = s.fil := rfl
@[simp] theorem putPwr_rev : (putPwr s x).rev = s.rev := rfl
@[simp] theorem putPwr_tu : (putPwr s x).tu = s.tu := rfl
@[simp] theorem putPwr_eth : (putPwr s x).eth = s.eth := rfl
@[simp] theorem putPwr_stk : (putPwr s x).stk = s.stk := rfl
@[simp] theorem putPwr_win : (putPwr s x).win = s.win := rfl
@[simp] theorem putPwr_grn : (putPwr s x).grn = s.grn := rfl
@[simp] theorem putPwr_tly : (putPwr s x).tly = s.tly := rfl
@[simp] theorem putPwr_lck : (putPwr s x).lck = s.lck := rfl
@[simp] theorem putPwr_hsk : (putPwr s x).hsk = s.hsk := rfl
@[simp] theorem putPwr_car : (putPwr s x).car = s.car := rfl
@[simp] theorem putPwr_stg : (putPwr s x).stg = s.stg := rfl
@[simp] theorem putPwr_pwr : (putPwr s x).pwr = x := rfl
@[simp] theorem putPwr_trust : (putPwr s x).trust = s.trust := rfl
@[simp] theorem putPwr_out : (putPwr s x).out = s.out := rfl
@[simp] theorem putPwr_freeCtr : (putPwr s x).freeCtr = s.freeCtr := rfl
@[simp] theorem putPwr_pending : (putPwr s x).pending = s.pending := rfl
@[simp] theorem putPwr_rd (g : Fld) (jx : List Nat) : (putPwr s x).rd g jx = s.rd g jx := rfl
@[simp] theorem putPwr_flag (g : Fld) (jx : List Nat) : (putPwr s x).flag g jx = s.flag g jx := rfl
end

section
variable (s : State) (x : Car)
@[simp] theorem putCar_regs : (putCar s x).regs = s.regs := rfl
@[simp] theorem putCar_now : (putCar s x).now = s.now := rfl
@[simp] theorem putCar_hbm : (putCar s x).hbm = s.hbm := rfl
@[simp] theorem putCar_hif : (putCar s x).hif = s.hif := rfl
@[simp] theorem putCar_dom : (putCar s x).dom = s.dom := rfl
@[simp] theorem putCar_fil : (putCar s x).fil = s.fil := rfl
@[simp] theorem putCar_rev : (putCar s x).rev = s.rev := rfl
@[simp] theorem putCar_tu : (putCar s x).tu = s.tu := rfl
@[simp] theorem putCar_eth : (putCar s x).eth = s.eth := rfl
@[simp] theorem putCar_stk : (putCar s x).stk = s.stk := rfl
@[simp] theorem putCar_win : (putCar s x).win = s.win := rfl
@[simp] theorem putCar_grn : (putCar s x).grn = s.grn := rfl
@[simp] theorem putCar_tly : (putCar s x).tly = s.tly := rfl
@[simp] theorem putCar_lck : (putCar s x).lck = s.lck := rfl
@[simp] theorem putCar_hsk : (putCar s x).hsk = s.hsk := rfl
@[simp] theorem putCar_car : (putCar s x).car = x := rfl
@[simp] theorem putCar_stg : (putCar s x).stg = s.stg := rfl
@[simp] theorem putCar_pwr : (putCar s x).pwr = s.pwr := rfl
@[simp] theorem putCar_trust : (putCar s x).trust = s.trust := rfl
@[simp] theorem putCar_out : (putCar s x).out = s.out := rfl
@[simp] theorem putCar_freeCtr : (putCar s x).freeCtr = s.freeCtr := rfl
@[simp] theorem putCar_pending : (putCar s x).pending = s.pending := rfl
@[simp] theorem putCar_rd (g : Fld) (jx : List Nat) : (putCar s x).rd g jx = s.rd g jx := rfl
@[simp] theorem putCar_flag (g : Fld) (jx : List Nat) : (putCar s x).flag g jx = s.flag g jx := rfl
end

end Sys2Proof.Machine
end

