-- ==== Sys2Proof/Laws/RegistersKeep.lean ====
section
/-! SUPPORT. Each operation of Machine/Registers.lean keeps what `Keeps` says. -/

set_option Elab.async false

namespace Sys2Proof.Machine

open Sys2Proof

variable {W : List Part}

theorem winWrite_keeps {r s : State} {a0 a1 a2} [May W .regs] [May W .hbm] [May W .hif] [May W .dom] [May W .fil]
    [May W .rev] [May W .tu] [May W .eth] [May W .stk] [May W .win] [May W .grn] [May W .tly] [May W .lck] [May W .hsk]
    [May W .car] [May W .stg] [May W .pwr] [May W .trust] [May W .out] [May W .free] (h : Keeps W r s)
    : Keeps W r (winWrite s a0 a1 a2) := by
  unfold winWrite
  repeat (with_reducible first
    | assumption | apply keeps_ite | apply wordWrite_keeps | apply wordsWrite_keeps | apply accessErr_keeps
    | apply State.emit_keeps | split)

theorem execRegisterWrite_runs {r s : State} {a0 a1 a2} [May W .regs] [May W .hbm] [May W .hif] [May W .dom]
    [May W .fil] [May W .rev] [May W .tu] [May W .eth] [May W .stk] [May W .win] [May W .grn] [May W .tly] [May W .lck]
    [May W .hsk] [May W .car] [May W .stg] [May W .pwr] [May W .trust] [May W .out] [May W .free] (h : Keeps W r s)
    : Runs W r (execRegisterWrite a0 a1 a2 s) := by
  unfold execRegisterWrite
  repeat (with_reducible first
    | assumption | intro _ | apply runs_next | apply fromDomain_keeps | apply winWrite_keeps)

theorem execRcRead_runs {r s : State} {a0 a1 a2} [May W .regs] [May W .hbm] [May W .hif] [May W .fil] [May W .rev]
    [May W .tu] [May W .eth] [May W .stk] [May W .win] [May W .grn] [May W .tly] [May W .car] [May W .pwr]
    [May W .trust] [May W .out] [May W .free] (h : Keeps W r s) : Runs W r (execRcRead a0 a1 a2 s) := by
  unfold execRcRead
  repeat (with_reducible first
    | assumption | intro _ | apply keeps_ite | apply keeps2_ite | apply runs_ite | apply runs_next
    | apply State.emit_keeps | apply fromDomain_keeps | apply wordsRead_keeps
    | refine keeps_of2 (by with_reducible assumption) ?_ | exact keeps_snd (by with_reducible assumption)
    | refine keeps_snd (wordsRead_keeps _ ?_) | split | apply keeps2_mk)

theorem execLockAll_runs {r s : State} {a0} [May W .regs] [May W .hbm] [May W .hif] [May W .dom] [May W .fil]
    [May W .rev] [May W .tu] [May W .eth] [May W .stk] [May W .win] [May W .grn] [May W .tly] [May W .lck] [May W .hsk]
    [May W .car] [May W .stg] [May W .pwr] [May W .trust] [May W .out] [May W .free] (h : Keeps W r s)
    : Runs W r (execLockAll a0 s) := by
  unfold execLockAll
  repeat (with_reducible first
    | assumption | intro _ | apply runs_next | apply fromDomain_keeps | apply wordWrite_keeps)

theorem dbgResult_keeps {r s : State} {a0 a1 a2} [May W .trust] (h : Keeps W r s) : Keeps W r (dbgResult s a0 a1 a2) := by
  unfold dbgResult
  repeat (with_reducible first
    | assumption | apply regWord_keeps | apply keeps_trust)

theorem execDbgregRead_runs {r s : State} {a0} [May W .regs] [May W .trust] [May W .out] (h : Keeps W r s)
    : Runs W r (execDbgregRead a0 s) := by
  unfold execDbgregRead
  repeat (with_reducible first
    | assumption | apply keeps_ite | apply keeps2_ite | apply runs_ite | apply runs_next | apply State.emit_keeps
    | apply dbgResult_keeps | apply wordRead_keeps | refine keeps_of2 (by with_reducible assumption) ?_
    | exact keeps_snd (by with_reducible assumption) | refine keeps_snd (wordRead_keeps ?_) | split | apply keeps2_mk)

theorem execDbgregWrite_runs {r s : State} {a0 a1} [May W .regs] [May W .hbm] [May W .hif] [May W .dom] [May W .fil]
    [May W .rev] [May W .tu] [May W .eth] [May W .stk] [May W .win] [May W .grn] [May W .tly] [May W .lck] [May W .hsk]
    [May W .car] [May W .stg] [May W .pwr] [May W .trust] [May W .out] [May W .free] (h : Keeps W r s)
    : Runs W r (execDbgregWrite a0 a1 s) := by
  unfold execDbgregWrite
  repeat (with_reducible first
    | assumption | apply keeps_ite | apply runs_ite | apply runs_next | apply dbgResult_keeps | apply wordWrite_keeps)

end Sys2Proof.Machine
end

