-- ==== Sys2Proof/Laws/RvCsrKeep.lean ====
section
/-! SUPPORT. Each operation of Machine/RvCsr.lean keeps what `Keeps` says. -/

set_option Elab.async false

namespace Sys2Proof.Machine

open Sys2Proof

variable {W : List Part}

theorem csrRead_keeps {r s : State} {a0 a1} [May W .free] (h : Keeps W r s) : Keeps2 W r (csrRead s a0 a1) := by
  unfold csrRead
  repeat (with_reducible first
    | assumption | apply keeps_ite | apply keeps2_ite | apply State.freeBits_keeps
    | refine keeps_of2 (by with_reducible assumption) ?_ | exact keeps_snd (by with_reducible assumption)
    | refine keeps_snd (State.freeBits_keeps ?_) | apply keeps2_mk)

theorem fcsrPut_keeps {r s : State} {a0 a1} [May W .fil] (h : Keeps W r s) : Keeps W r (fcsrPut s a0 a1) := by
  unfold fcsrPut
  repeat (with_reducible first
    | assumption | apply csrPut_keeps)

theorem csrWrite_keeps {r s : State} {a0 a1 a2 a3} [May W .fil] (h : Keeps W r s) : Keeps W r (csrWrite s a0 a1 a2 a3) := by
  unfold csrWrite
  repeat (with_reducible first
    | assumption | apply keeps_ite | apply fcsrPut_keeps | apply csrPut_keeps | apply hartPut_keeps)

end Sys2Proof.Machine
end

