-- ==== Sys2Proof/Laws/RvMemKeep.lean ====
section
/-! SUPPORT. Each operation of Machine/RvMem.lean keeps what `Keeps` says. -/

set_option Elab.async false

namespace Sys2Proof.Machine

open Sys2Proof

variable {W : List Part}

/-- `Keeps` of the state that an instruction's outcome carries. -/
def RvOut.state (o : RvOut) : State := match o with
  | .retire s _ => s
  | .trap _ _ s => s
  | .fire _ _ s => s
  | .halt s => s
  | .self s => s
def KeepsV (W : List Part) (r : State) (o : RvOut) : Prop := Keeps W r o.state
theorem keepsV_retire {r s : State} {a} (h : Keeps W r s) : KeepsV W r (.retire s a) := h
theorem keepsV_trap {r s : State} {a b} (h : Keeps W r s) : KeepsV W r (.trap a b s) := h
theorem keepsV_fire {r s : State} {a b} (h : Keeps W r s) : KeepsV W r (.fire a b s) := h
theorem keepsV_halt {r s : State} (h : Keeps W r s) : KeepsV W r (.halt s) := h
theorem keepsV_self {r s : State} (h : Keeps W r s) : KeepsV W r (.self s) := h
theorem keepsV_ite {r : State} {c : Prop} [Decidable c] {a b : RvOut} (h : KeepsV W r a) (k : KeepsV W r b) :
    KeepsV W r (if c then a else b) := by split <;> assumption
theorem memCheck_keeps {r s : State} {a b n k d o} (h : Keeps W r s) (e : memCheck s a b n k d = some o) : KeepsV W r o := by
  unfold memCheck at e
  extract_lets m trig at e
  clear_value trig
  revert e
  have go : ∀ {x : Option RvOut}, (∀ o, x = some o → KeepsV W r o) → x = some o → KeepsV W r o := fun k e => k _ e
  apply go
  have one : ∀ {q : RvOut}, KeepsV W r q → ∀ o, some q = some o → KeepsV W r o := fun k o e => by
    cases e
    exact k
  have cond : ∀ {c : Prop} [Decidable c] {x y : Option RvOut}, (∀ o, x = some o → KeepsV W r o) → (∀ o, y = some o
      → KeepsV W r o) →
      ∀ o, (if c then x else y) = some o → KeepsV W r o := fun {c} _ {x y} k l => by split <;> assumption
  split
  · exact one h
  · exact cond (one h) (cond (one h) (cond (one h) (fun _ e => nomatch e)))

theorem mailPut_keeps {r s : State} {a0 a1 a2} [May W .regs] [May W .hif] [May W .dom] [May W .fil] [May W .car]
    [May W .out] (h : Keeps W r s) : Keeps W r (mailPut s a0 a1 a2) := by
  unfold mailPut
  repeat (with_reducible first
    | (lift_lets
       intro x
       first
       | (have hx : Keeps W r x := (by
            unfold x
            repeat (with_reducible first
              | (lift_lets
                 intro y
                 first
                 | (have hy : Keeps W r y := (by
                      unfold y
                      repeat (with_reducible first
                        | assumption | apply keeps_ite | apply slotMbPut_keeps | apply mbWrite_keeps
                        | apply pageWords_keeps | apply wordIgnored_keeps))
                    clear_value y)
                 | clear_value y)
              | assumption | apply keeps_ite | apply slotMbPut_keeps | apply mbWrite_keeps | apply pageWords_keeps
              | apply wordIgnored_keeps))
          clear_value x)
       | clear_value x)
    | assumption | apply keeps_ite | apply slotMbPut_keeps | apply mbWrite_keeps | apply pageWords_keeps
    | apply wordIgnored_keeps)

theorem memGet_keeps {r s : State} {a0 a1 a2} [May W .regs] [May W .trust] (h : Keeps W r s)
    : Keeps2 W r (memGet s a0 a1 a2) := by
  unfold memGet
  repeat (with_reducible first
    | assumption | intro _ | apply wordsRead_keeps | refine keeps_of2 (by with_reducible assumption) ?_
    | exact keeps_snd (by with_reducible assumption) | refine keeps_snd (wordsRead_keeps _ ?_) | split
    | apply keeps2_mk)

theorem memPut_keeps {r s : State} {a b c d} [May W .regs] [May W .hbm] [May W .hif] [May W .dom] [May W .fil]
    [May W .rev] [May W .tu] [May W .eth] [May W .stk] [May W .win] [May W .grn] [May W .tly] [May W .lck] [May W .hsk]
    [May W .car] [May W .stg] [May W .pwr] [May W .trust] [May W .out] [May W .free] (h : Keeps W r s)
    : Keeps W r (memPut s a b c d) := by
  unfold memPut
  split
  · have h1 := dropResv_keeps (lo := granuleOf a b c) (hi := granuleOf a b c) h
    dsimp only
    exact keeps_fil' h1 (memWrite_wf _) id
  · exact keeps_fil (dropResv_keeps h) rfl rfl
  · exact wordsWrite_keeps _ h
  · exact mailPut_keeps h
  · exact State.hbmWrite_keeps h
  · exact h

theorem withLoad_keeps {r s : State} {a0 a1 a2 a3 a4 a5 a6} [May W .regs] [May W .trust] (h : Keeps W r s) (ha6
    : ∀ x0 s, Keeps W r s → KeepsV W r (a6 x0 s)) :
    KeepsV W r (withLoad s a0 a1 a2 a3 a4 a5 a6) := by
  unfold withLoad
  repeat (with_reducible first
    | (lift_lets
       intro x
       first
       | (have hx : Keeps W r x := (by
            unfold x
            repeat (with_reducible first
              | (lift_lets
                 intro y
                 first
                 | (have hy : Keeps W r y := (by
                      unfold y
                      repeat (with_reducible first
                        | assumption | apply keeps2_mk | apply keeps_ite | apply keeps2_ite | apply keepsV_ite
                        | intro _ | apply keepsV_retire | apply keepsV_trap | apply keepsV_halt | apply keepsV_self
                        | apply keepsV_fire | apply memGet_keeps
                        | refine memCheck_keeps ?_ (by with_reducible assumption) | apply ha6
                        | refine keeps_of2 (by with_reducible assumption) ?_
                        | exact keeps_snd (by with_reducible assumption) | refine keeps_snd (memGet_keeps ?_) | split))
                    clear_value y)
                 | (have hy : Keeps2 W r y := (by
                      unfold y
                      repeat (with_reducible first
                        | assumption | apply keeps2_mk | apply keeps_ite | apply keeps2_ite | apply keepsV_ite
                        | intro _ | apply keepsV_retire | apply keepsV_trap | apply keepsV_halt | apply keepsV_self
                        | apply keepsV_fire | apply memGet_keeps
                        | refine memCheck_keeps ?_ (by with_reducible assumption) | apply ha6
                        | refine keeps_of2 (by with_reducible assumption) ?_
                        | exact keeps_snd (by with_reducible assumption) | refine keeps_snd (memGet_keeps ?_) | split))
                    clear_value y)
                 | clear_value y)
              | assumption | apply keeps2_mk | apply keeps_ite | apply keeps2_ite | apply keepsV_ite | intro _
              | apply keepsV_retire | apply keepsV_trap | apply keepsV_halt | apply keepsV_self | apply keepsV_fire
              | apply memGet_keeps | refine memCheck_keeps ?_ (by with_reducible assumption) | apply ha6
              | refine keeps_of2 (by with_reducible assumption) ?_ | exact keeps_snd (by with_reducible assumption)
              | refine keeps_snd (memGet_keeps ?_) | split))
          clear_value x)
       | (have hx : Keeps2 W r x := (by
            unfold x
            repeat (with_reducible first
              | (lift_lets
                 intro y
                 first
                 | (have hy : Keeps W r y := (by
                      unfold y
                      repeat (with_reducible first
                        | assumption | apply keeps2_mk | apply keeps_ite | apply keeps2_ite | apply keepsV_ite
                        | intro _ | apply keepsV_retire | apply keepsV_trap | apply keepsV_halt | apply keepsV_self
                        | apply keepsV_fire | apply memGet_keeps
                        | refine memCheck_keeps ?_ (by with_reducible assumption) | apply ha6
                        | refine keeps_of2 (by with_reducible assumption) ?_
                        | exact keeps_snd (by with_reducible assumption) | refine keeps_snd (memGet_keeps ?_) | split))
                    clear_value y)
                 | (have hy : Keeps2 W r y := (by
                      unfold y
                      repeat (with_reducible first
                        | assumption | apply keeps2_mk | apply keeps_ite | apply keeps2_ite | apply keepsV_ite
                        | intro _ | apply keepsV_retire | apply keepsV_trap | apply keepsV_halt | apply keepsV_self
                        | apply keepsV_fire | apply memGet_keeps
                        | refine memCheck_keeps ?_ (by with_reducible assumption) | apply ha6
                        | refine keeps_of2 (by with_reducible assumption) ?_
                        | exact keeps_snd (by with_reducible assumption) | refine keeps_snd (memGet_keeps ?_) | split))
                    clear_value y)
                 | clear_value y)
              | assumption | apply keeps2_mk | apply keeps_ite | apply keeps2_ite | apply keepsV_ite | intro _
              | apply keepsV_retire | apply keepsV_trap | apply keepsV_halt | apply keepsV_self | apply keepsV_fire
              | apply memGet_keeps | refine memCheck_keeps ?_ (by with_reducible assumption) | apply ha6
              | refine keeps_of2 (by with_reducible assumption) ?_ | exact keeps_snd (by with_reducible assumption)
              | refine keeps_snd (memGet_keeps ?_) | split))
          clear_value x)
       | clear_value x)
    | assumption | apply keeps2_mk | apply keeps_ite | apply keeps2_ite | apply keepsV_ite | intro _
    | apply keepsV_retire | apply keepsV_trap | apply keepsV_halt | apply keepsV_self | apply keepsV_fire
    | apply memGet_keeps | refine memCheck_keeps ?_ (by with_reducible assumption) | apply ha6
    | refine keeps_of2 (by with_reducible assumption) ?_ | exact keeps_snd (by with_reducible assumption)
    | refine keeps_snd (memGet_keeps ?_) | split)

theorem storeTo_keeps {r s : State} {a0 a1 a2 a3 a4 a5} [May W .regs] [May W .hbm] [May W .hif] [May W .dom]
    [May W .fil] [May W .rev] [May W .tu] [May W .eth] [May W .stk] [May W .win] [May W .grn] [May W .tly] [May W .lck]
    [May W .hsk] [May W .car] [May W .stg] [May W .pwr] [May W .trust] [May W .out] [May W .free] (h : Keeps W r s)
    : KeepsV W r (storeTo s a0 a1 a2 a3 a4 a5) := by
  unfold storeTo
  repeat (with_reducible first
    | assumption | apply keepsV_retire | apply keepsV_trap | apply keepsV_halt | apply keepsV_self
    | apply keepsV_fire | apply memPut_keeps | refine memCheck_keeps ?_ (by with_reducible assumption) | split)

theorem rvAtomic_keeps {r s : State} {a0 a1 a2 a3 a4 a5 a6 a7 a8 a9} [May W .regs] [May W .hbm] [May W .hif]
    [May W .dom] [May W .fil] [May W .rev] [May W .tu] [May W .eth] [May W .stk] [May W .win] [May W .grn] [May W .tly]
    [May W .lck] [May W .hsk] [May W .car] [May W .stg] [May W .pwr] [May W .trust] [May W .out] [May W .free] (h
    : Keeps W r s) (ha9 : KeepsV W r a9) :
    KeepsV W r (rvAtomic s a0 a1 a2 a3 a4 a5 a6 a7 a8 a9) := by
  unfold rvAtomic
  extract_lets b
  refine keepsV_ite (keepsV_ite ha9 (withLoad_keeps h fun v s hs => ?_)) (keepsV_ite ?_ (keepsV_ite ha9 (withLoad_keeps h
      fun v s hs => ?_)))
  · exact hartPut_keeps (xw_keeps hs)
  · split
    · exact memCheck_keeps h (by with_reducible assumption)
    · exact xw_keeps (keeps_ite (memPut_keeps (hartPut_keeps h)) (hartPut_keeps h))
  · exact xw_keeps (memPut_keeps hs)

end Sys2Proof.Machine
end

