-- ==== Sys2Proof/Laws/RvExecKeep.lean ====
section
/-! SUPPORT. Each operation of Machine/RvExec.lean keeps what `Keeps` says. -/

set_option Elab.async false

namespace Sys2Proof.Machine

open Sys2Proof

variable {W : List Part}

theorem fpFlags_keeps {r s : State} {a0 a1} [May W .fil] (h : Keeps W r s) : Keeps W r (fpFlags s a0 a1) := by
  unfold fpFlags
  repeat (with_reducible first
    | assumption | apply keeps_ite | apply fcsrPut_keeps)

theorem fpOut_keeps {r s : State} {a0 a1 a2 a3 a4} [May W .fil] (h : Keeps W r s) : KeepsV W r (fpOut s a0 a1 a2 a3 a4) := by
  unfold fpOut
  repeat (with_reducible first
    | assumption | apply keepsV_retire | apply keepsV_trap | apply keepsV_halt | apply keepsV_self
    | apply keepsV_fire | apply fpFlags_keeps | apply fw_keeps)

theorem fpOutX_keeps {r s : State} {a0 a1 a2 a3} [May W .fil] (h : Keeps W r s) : KeepsV W r (fpOutX s a0 a1 a2 a3) := by
  unfold fpOutX
  repeat (with_reducible first
    | assumption | apply keepsV_retire | apply keepsV_trap | apply keepsV_halt | apply keepsV_self
    | apply keepsV_fire | apply fpFlags_keeps | apply xw_keeps)

theorem rvFma_keeps {r s : State} {a0 a1 a2 a3} [May W .fil] (h : Keeps W r s) (ha3 : KeepsV W r a3) :
    KeepsV W r (rvFma s a0 a1 a2 a3) := by
  unfold rvFma
  repeat (with_reducible first
    | (lift_lets
       intro x
       first
       | (have hx : Keeps W r x := (by
            unfold x
            repeat (with_reducible first
              | (lift_lets
                 intro y
                 first
                 | (have hy : Keeps W r y := (by
                      unfold y
                      repeat (with_reducible first
                        | assumption | intro _ | apply keepsV_retire | apply keepsV_trap | apply keepsV_halt
                        | apply keepsV_self | apply keepsV_fire | apply fpOut_keeps | apply ha3 | split))
                    clear_value y)
                 | clear_value y)
              | assumption | intro _ | apply keepsV_retire | apply keepsV_trap | apply keepsV_halt
              | apply keepsV_self | apply keepsV_fire | apply fpOut_keeps | apply ha3 | split))
          clear_value x)
       | clear_value x)
    | assumption | intro _ | apply keepsV_retire | apply keepsV_trap | apply keepsV_halt | apply keepsV_self
    | apply keepsV_fire | apply fpOut_keeps | apply ha3 | split)

theorem rvFpOp_keeps {r s : State} {a0 a1 a2 a3} [May W .fil] (h : Keeps W r s) (ha3 : KeepsV W r a3)
    : KeepsV W r (rvFpOp s a0 a1 a2 a3) := by
  unfold rvFpOp
  split
  · exact ha3
  · extract_lets rd k c a b x withRm
    have hw : ∀ g, (∀ rm, KeepsV W r (g rm)) → KeepsV W r (withRm g) := by
      intro g hg
      unfold withRm
      split
      · exact hg _
      · exact ha3
    clear_value withRm
    split
    all_goals repeat (with_reducible first
      | exact ha3 | refine hw _ fun rm => ?_ | apply keepsV_ite | exact fpOut_keeps h | exact fpOutX_keeps h | split)

theorem rvMret_keeps {r s : State} {a0} [May W .fil] (h : Keeps W r s) : KeepsV W r (rvMret s a0) := by
  unfold rvMret
  repeat (with_reducible first
    | (lift_lets
       intro x
       first
       | (have hx : Keeps W r x := (by
            unfold x
            repeat (with_reducible first
              | (lift_lets
                 intro y
                 first
                 | (have hy : Keeps W r y := (by
                      unfold y
                      repeat (with_reducible first
                        | assumption | apply keeps_ite | apply keepsV_ite | apply keepsV_retire | apply keepsV_trap
                        | apply keepsV_halt | apply keepsV_self | apply keepsV_fire | apply csrPut_keeps
                        | apply hartPut_keeps))
                    clear_value y)
                 | clear_value y)
              | assumption | apply keeps_ite | apply keepsV_ite | apply keepsV_retire | apply keepsV_trap
              | apply keepsV_halt | apply keepsV_self | apply keepsV_fire | apply csrPut_keeps | apply hartPut_keeps))
          clear_value x)
       | clear_value x)
    | assumption | apply keeps_ite | apply keepsV_ite | apply keepsV_retire | apply keepsV_trap | apply keepsV_halt
    | apply keepsV_self | apply keepsV_fire | apply csrPut_keeps | apply hartPut_keeps)

theorem rvEbreak_keeps {r s : State} {a0} (h : Keeps W r s) : KeepsV W r (rvEbreak s a0) := by
  unfold rvEbreak
  repeat (with_reducible first
    | assumption | apply keeps_ite | apply keepsV_ite | apply keepsV_retire | apply keepsV_trap | apply keepsV_halt
    | apply keepsV_self | apply keepsV_fire)

theorem rvCsr_keeps {r s : State} {a0 a1 a2 a3 a4} [May W .fil] [May W .free] (h : Keeps W r s) (ha4 : KeepsV W r a4) :
    KeepsV W r (rvCsr s a0 a1 a2 a3 a4) := by
  unfold rvCsr
  repeat (with_reducible first
    | (lift_lets
       intro x
       first
       | (have hx : Keeps W r x := (by
            unfold x
            repeat (with_reducible first
              | (lift_lets
                 intro y
                 first
                 | (have hy : Keeps W r y := (by
                      unfold y
                      repeat (with_reducible first
                        | assumption | apply keeps2_mk | apply keeps_ite | apply keeps2_ite | apply keepsV_ite
                        | intro _ | apply keepsV_retire | apply keepsV_trap | apply keepsV_halt | apply keepsV_self
                        | apply keepsV_fire | apply csrRead_keeps | apply csrWrite_keeps | apply csrPut_keeps
                        | apply xw_keeps | apply ha4 | refine keeps_of2 (by with_reducible assumption) ?_
                        | exact keeps_snd (by with_reducible assumption) | refine keeps_snd (csrRead_keeps ?_)
                        | split))
                    clear_value y)
                 | (have hy : Keeps2 W r y := (by
                      unfold y
                      repeat (with_reducible first
                        | assumption | apply keeps2_mk | apply keeps_ite | apply keeps2_ite | apply keepsV_ite
                        | intro _ | apply keepsV_retire | apply keepsV_trap | apply keepsV_halt | apply keepsV_self
                        | apply keepsV_fire | apply csrRead_keeps | apply csrWrite_keeps | apply csrPut_keeps
                        | apply xw_keeps | apply ha4 | refine keeps_of2 (by with_reducible assumption) ?_
                        | exact keeps_snd (by with_reducible assumption) | refine keeps_snd (csrRead_keeps ?_)
                        | split))
                    clear_value y)
                 | clear_value y)
              | assumption | apply keeps2_mk | apply keeps_ite | apply keeps2_ite | apply keepsV_ite | intro _
              | apply keepsV_retire | apply keepsV_trap | apply keepsV_halt | apply keepsV_self | apply keepsV_fire
              | apply csrRead_keeps | apply csrWrite_keeps | apply csrPut_keeps | apply xw_keeps | apply ha4
              | refine keeps_of2 (by with_reducible assumption) ?_ | exact keeps_snd (by with_reducible assumption)
              | refine keeps_snd (csrRead_keeps ?_) | split))
          clear_value x)
       | (have hx : Keeps2 W r x := (by
            unfold x
            repeat (with_reducible first
              | (lift_lets
                 intro y
                 first
                 | (have hy : Keeps W r y := (by
                      unfold y
                      repeat (with_reducible first
                        | assumption | apply keeps2_mk | apply keeps_ite | apply keeps2_ite | apply keepsV_ite
                        | intro _ | apply keepsV_retire | apply keepsV_trap | apply keepsV_halt | apply keepsV_self
                        | apply keepsV_fire | apply csrRead_keeps | apply csrWrite_keeps | apply csrPut_keeps
                        | apply xw_keeps | apply ha4 | refine keeps_of2 (by with_reducible assumption) ?_
                        | exact keeps_snd (by with_reducible assumption) | refine keeps_snd (csrRead_keeps ?_)
                        | split))
                    clear_value y)
                 | (have hy : Keeps2 W r y := (by
                      unfold y
                      repeat (with_reducible first
                        | assumption | apply keeps2_mk | apply keeps_ite | apply keeps2_ite | apply keepsV_ite
                        | intro _ | apply keepsV_retire | apply keepsV_trap | apply keepsV_halt | apply keepsV_self
                        | apply keepsV_fire | apply csrRead_keeps | apply csrWrite_keeps | apply csrPut_keeps
                        | apply xw_keeps | apply ha4 | refine keeps_of2 (by with_reducible assumption) ?_
                        | exact keeps_snd (by with_reducible assumption) | refine keeps_snd (csrRead_keeps ?_)
                        | split))
                    clear_value y)
                 | clear_value y)
              | assumption | apply keeps2_mk | apply keeps_ite | apply keeps2_ite | apply keepsV_ite | intro _
              | apply keepsV_retire | apply keepsV_trap | apply keepsV_halt | apply keepsV_self | apply keepsV_fire
              | apply csrRead_keeps | apply csrWrite_keeps | apply csrPut_keeps | apply xw_keeps | apply ha4
              | refine keeps_of2 (by with_reducible assumption) ?_ | exact keeps_snd (by with_reducible assumption)
              | refine keeps_snd (csrRead_keeps ?_) | split))
          clear_value x)
       | clear_value x)
    | assumption | apply keeps2_mk | apply keeps_ite | apply keeps2_ite | apply keepsV_ite | intro _
    | apply keepsV_retire | apply keepsV_trap | apply keepsV_halt | apply keepsV_self | apply keepsV_fire
    | apply csrRead_keeps | apply csrWrite_keeps | apply csrPut_keeps | apply xw_keeps | apply ha4
    | refine keeps_of2 (by with_reducible assumption) ?_ | exact keeps_snd (by with_reducible assumption)
    | refine keeps_snd (csrRead_keeps ?_) | split)

theorem rvSystem_keeps {r s : State} {a0 a1 a2 a3 a4} [May W .fil] [May W .free] (h : Keeps W r s) (ha4 : KeepsV W r a4) :
    KeepsV W r (rvSystem s a0 a1 a2 a3 a4) := by
  unfold rvSystem
  repeat (with_reducible first
    | (lift_lets
       intro x
       first
       | (have hx : Keeps W r x := (by
            unfold x
            repeat (with_reducible first
              | (lift_lets
                 intro y
                 first
                 | (have hy : Keeps W r y := (by
                      unfold y
                      repeat (with_reducible first
                        | assumption | apply keeps_ite | apply keepsV_ite | intro _ | apply keepsV_retire
                        | apply keepsV_trap | apply keepsV_halt | apply keepsV_self | apply keepsV_fire
                        | apply rvCsr_keeps | apply rvEbreak_keeps | apply rvMret_keeps | apply ha4 | split))
                    clear_value y)
                 | clear_value y)
              | assumption | apply keeps_ite | apply keepsV_ite | intro _ | apply keepsV_retire | apply keepsV_trap
              | apply keepsV_halt | apply keepsV_self | apply keepsV_fire | apply rvCsr_keeps | apply rvEbreak_keeps
              | apply rvMret_keeps | apply ha4 | split))
          clear_value x)
       | clear_value x)
    | assumption | apply keeps_ite | apply keepsV_ite | intro _ | apply keepsV_retire | apply keepsV_trap
    | apply keepsV_halt | apply keepsV_self | apply keepsV_fire | apply rvCsr_keeps | apply rvEbreak_keeps
    | apply rvMret_keeps | apply ha4 | split)

theorem rvXelv_keeps {r s : State} {a0 a1 a2 a3} [May W .regs] [May W .fil] (h : Keeps W r s) (ha3 : KeepsV W r a3) :
    KeepsV W r (rvXelv s a0 a1 a2 a3) := by
  unfold rvXelv
  repeat (with_reducible first
    | (lift_lets
       intro x
       first
       | (have hx : Keeps W r x := (by
            unfold x
            repeat (with_reducible first
              | (lift_lets
                 intro y
                 first
                 | (have hy : Keeps W r y := (by
                      unfold y
                      repeat (with_reducible first
                        | assumption | apply keeps_ite | apply keepsV_ite | intro _ | apply keepsV_retire
                        | apply keepsV_trap | apply keepsV_halt | apply keepsV_self | apply keepsV_fire
                        | apply doChSend_keeps | apply doChRecv_keeps | apply doChFill_keeps | apply doEvSend_keeps
                        | apply doEvPoll_keeps | apply doEvWait_keeps | apply ha3 | split))
                    clear_value y)
                 | clear_value y)
              | assumption | apply keeps_ite | apply keepsV_ite | intro _ | apply keepsV_retire | apply keepsV_trap
              | apply keepsV_halt | apply keepsV_self | apply keepsV_fire | apply doChSend_keeps
              | apply doChRecv_keeps | apply doChFill_keeps | apply doEvSend_keeps | apply doEvPoll_keeps
              | apply doEvWait_keeps | apply ha3 | split))
          clear_value x)
       | clear_value x)
    | assumption | apply keeps_ite | apply keepsV_ite | intro _ | apply keepsV_retire | apply keepsV_trap
    | apply keepsV_halt | apply keepsV_self | apply keepsV_fire | apply doChSend_keeps | apply doChRecv_keeps
    | apply doChFill_keeps | apply doEvSend_keeps | apply doEvPoll_keeps | apply doEvWait_keeps | apply ha3 | split)

theorem rvLoad_keeps {r s : State} {a0 a1 a2 a3 a4 a5 a6} [May W .regs] [May W .fil] [May W .trust] (h : Keeps W r s) (ha6
    : KeepsV W r a6) :
    KeepsV W r (rvLoad s a0 a1 a2 a3 a4 a5 a6) := by
  unfold rvLoad
  repeat (with_reducible first
    | (lift_lets
       intro x
       first
       | (have hx : Keeps W r x := (by
            unfold x
            repeat (with_reducible first
              | (lift_lets
                 intro y
                 first
                 | (have hy : Keeps W r y := (by
                      unfold y
                      repeat (with_reducible first
                        | assumption | intro _ | apply keeps_ite | apply keepsV_ite | apply keepsV_retire
                        | apply keepsV_trap | apply keepsV_halt | apply keepsV_self | apply keepsV_fire
                        | apply withLoad_keeps | apply xw_keeps | apply ha6))
                    clear_value y)
                 | clear_value y)
              | assumption | intro _ | apply keeps_ite | apply keepsV_ite | apply keepsV_retire | apply keepsV_trap
              | apply keepsV_halt | apply keepsV_self | apply keepsV_fire | apply withLoad_keeps | apply xw_keeps
              | apply ha6))
          clear_value x)
       | clear_value x)
    | assumption | intro _ | apply keeps_ite | apply keepsV_ite | apply keepsV_retire | apply keepsV_trap
    | apply keepsV_halt | apply keepsV_self | apply keepsV_fire | apply withLoad_keeps | apply xw_keeps | apply ha6)

theorem rvWord_keeps {r s : State} {a0 a1 a2 a3 a4 a5} [May W .regs] [May W .hbm] [May W .hif] [May W .dom]
    [May W .fil] [May W .rev] [May W .tu] [May W .eth] [May W .stk] [May W .win] [May W .grn] [May W .tly] [May W .lck]
    [May W .hsk] [May W .car] [May W .stg] [May W .pwr] [May W .trust] [May W .out] [May W .free] (h : Keeps W r s) (ha5
    : KeepsV W r a5) :
    KeepsV W r (rvWord s a0 a1 a2 a3 a4 a5) := by
  unfold rvWord
  extract_lets pc next rd a b put
  have hp : ∀ o, KeepsV W r (put o) := by
    intro o
    cases o with
    | none => exact ha5
    | some v => exact xw_keeps h
  clear_value put
  refine keepsV_ite ha5 (keepsV_ite ha5 ?_)
  split
  all_goals repeat (with_reducible first
    | exact ha5 | exact hp _ | exact keepsV_retire (xw_keeps h) | exact keepsV_retire h | apply keepsV_ite | apply
        rvLoad_keeps
    | apply storeTo_keeps | apply rvAtomic_keeps | apply rvSystem_keeps | apply rvXelv_keeps | apply rvFma_keeps
    | apply rvFpOp_keeps | refine withLoad_keeps h fun v s hs => ?_ | exact keepsV_retire (fw_keeps (by assumption)) |
        exact h | split)

theorem rvExec_keeps {r s : State} {a0 a1 a2 a3} [May W .regs] [May W .hbm] [May W .hif] [May W .dom] [May W .fil]
    [May W .rev] [May W .tu] [May W .eth] [May W .stk] [May W .win] [May W .grn] [May W .tly] [May W .lck] [May W .hsk]
    [May W .car] [May W .stg] [May W .pwr] [May W .trust] [May W .out] [May W .free] (h : Keeps W r s)
    : KeepsV W r (rvExec s a0 a1 a2 a3) := by
  unfold rvExec
  split
  dsimp only
  split
  · exact rvWord_keeps h (keepsV_trap h)
  · exact keepsV_trap h

theorem coreError_keeps {r s : State} {a0 a1} [May W .regs] [May W .now] [May W .hif] [May W .fil] [May W .rev]
    [May W .tu] [May W .eth] [May W .win] [May W .grn] [May W .tly] [May W .hsk] [May W .stg] [May W .out] [May W .free]
    (h : Keeps W r s) : Keeps W r (coreError s a0 a1) := by
  unfold coreError
  repeat (with_reducible first
    | assumption | apply failUnit_keeps | apply State.inc_keeps | apply trapEnter_keeps)

theorem rvFinish_keeps {r : State} {h : Nat} {o : RvOut} [May W .regs] [May W .fil] (k : KeepsV W r o)
    : Keeps W r (rvFinish h o) := by
  cases o with
  | retire s pc => exact retireTo_keeps k
  | trap c v s => exact trapEnter_keeps k
  | fire i a s => exact trigFire_keeps k
  | halt s => exact haltHart_keeps k
  | self s => exact k

theorem rvRun_keeps {r s : State} {a b c} [May W .regs] [May W .now] [May W .hbm] [May W .hif] [May W .dom]
    [May W .fil] [May W .rev] [May W .tu] [May W .eth] [May W .stk] [May W .win] [May W .grn] [May W .tly] [May W .lck]
    [May W .hsk] [May W .car] [May W .stg] [May W .pwr] [May W .trust] [May W .out] [May W .free] (h : Keeps W r s)
    : Keeps W r (rvRun s a b c) := by
  unfold rvRun
  split
  · exact coreError_keeps h
  · split
    · exact trapEnter_keeps h
    · exact rvFinish_keeps (rvExec_keeps h)

end Sys2Proof.Machine
end

