-- ==== Sys2Proof/Laws/RiscvKeep.lean ====
section
/-! SUPPORT. Each operation of Machine/Riscv.lean keeps what `Keeps` says. -/

set_option Elab.async false

namespace Sys2Proof.Machine

open Sys2Proof

variable {W : List Part}

theorem execRiscvInstruction_runs {r s : State} {a0 a1 a2} [May W .regs] [May W .now] [May W .hbm] [May W .hif]
    [May W .dom] [May W .fil] [May W .rev] [May W .tu] [May W .eth] [May W .stk] [May W .win] [May W .grn] [May W .tly]
    [May W .lck] [May W .hsk] [May W .car] [May W .stg] [May W .pwr] [May W .trust] [May W .out] [May W .free] (h
    : Keeps W r s) :
    Runs W r (execRiscvInstruction a0 a1 a2 s) := by
  unfold execRiscvInstruction
  repeat (with_reducible first
    | assumption | intro _ | apply runs_next | apply hartStep_keeps | apply rvRun_keeps)

theorem singleStep_keeps {r s : State} {a0 a1 a2} [May W .regs] [May W .now] [May W .hbm] [May W .hif] [May W .dom]
    [May W .fil] [May W .rev] [May W .tu] [May W .eth] [May W .stk] [May W .win] [May W .grn] [May W .tly] [May W .lck]
    [May W .hsk] [May W .car] [May W .stg] [May W .pwr] [May W .trust] [May W .out] [May W .free] (h : Keeps W r s)
    : Keeps W r (singleStep s a0 a1 a2) := by
  unfold singleStep
  repeat (with_reducible first
    | assumption | intro _ | apply keeps_ite | apply resumeHart_keeps | apply haltHart_keeps | apply stepHalt_keeps
    | apply wakeHart_keeps | apply hartCycle_keeps | apply rvRun_keeps)

theorem execSingleStep_runs {r s : State} {a0 a1 a2} [May W .regs] [May W .now] [May W .hbm] [May W .hif] [May W .dom]
    [May W .fil] [May W .rev] [May W .tu] [May W .eth] [May W .stk] [May W .win] [May W .grn] [May W .tly] [May W .lck]
    [May W .hsk] [May W .car] [May W .stg] [May W .pwr] [May W .trust] [May W .out] [May W .free] (h : Keeps W r s)
    : Runs W r (execSingleStep a0 a1 a2 s) := by
  unfold execSingleStep
  repeat (with_reducible first
    | assumption | intro _ | apply keeps_ite | apply runs_ite | apply runs_next | apply whenOn_keeps
    | apply singleStep_keeps)

theorem runProg_keeps {r : State} {a} [May W .regs] [May W .hbm] [May W .hif] [May W .dom] [May W .fil] [May W .rev]
    [May W .tu] [May W .eth] [May W .stk] [May W .win] [May W .grn] [May W .tly] [May W .lck] [May W .hsk] [May W .car]
    [May W .stg] [May W .pwr] [May W .trust] [May W .out] [May W .free] (l : List Nat) : ∀ {s : State}, Keeps W r s
    → Keeps1 W r (runProg s a l) := by
  induction l with
  | nil => intro s h; exact h
  | cons w l ih =>
    intro s h
    rw [runProg]
    split
    · exact h
    · have k := rvExec_keeps (a0 := a) (a1 := w) (a2 := true) (a3 := .fine) h
      generalize rvExec s a w true .fine = o at k ⊢
      cases o with
      | retire s pc => exact ih (retireTo_keeps k)
      | trap c v s => exact k
      | fire i a s => exact k
      | halt s => exact k
      | self s => exact ih k

theorem runBuffer_keeps {r s : State} {a0} [May W .regs] [May W .hbm] [May W .hif] [May W .dom] [May W .fil]
    [May W .rev] [May W .tu] [May W .eth] [May W .stk] [May W .win] [May W .grn] [May W .tly] [May W .lck] [May W .hsk]
    [May W .car] [May W .stg] [May W .pwr] [May W .trust] [May W .out] [May W .free] (h : Keeps W r s)
    : Keeps1 W r (runBuffer s a0) := by
  unfold runBuffer
  repeat (with_reducible first
    | assumption | apply runProg_keeps | apply hartPut_keeps | apply State.wr_keeps
    | refine keeps_of1 (by with_reducible assumption) ?_ | exact keeps_fst (by with_reducible assumption)
    | refine keeps_fst (runProg_keeps _ ?_) | split | apply keeps1_mk)

theorem dbgRegRead_keeps {r s : State} {a0 a1} [May W .free] (h : Keeps W r s) : KeepsO2 W r (dbgRegRead s a0 a1) := by
  unfold dbgRegRead
  repeat (with_reducible first
    | assumption | apply keeps_ite | apply keeps2_ite | apply keepsO2_ite | apply keepsO2_some | exact keepsO2_none
    | apply csrRead_keeps | refine keeps_of2 (by with_reducible assumption) ?_
    | exact keeps_snd (by with_reducible assumption) | refine keeps_snd (csrRead_keeps ?_)
    | refine keeps_ofO2 (by with_reducible assumption) ?_ | apply keeps2_mk)

theorem dbgRegWrite_keeps {r s : State} {a0 a1 a2} [May W .fil] (h : Keeps W r s) : KeepsO W r (dbgRegWrite s a0 a1 a2) := by
  unfold dbgRegWrite
  repeat (with_reducible first
    | assumption | apply keeps_ite | apply keepsO_ite | apply keepsO_some | exact keepsO_none | apply csrWrite_keeps
    | apply xw_keeps | apply fw_keeps | refine keeps_ofO (by with_reducible assumption) ?_)

theorem progWrite_keeps {r s : State} {a0} [May W .fil] (h : Keeps W r s) : Keeps W r (progWrite s a0) := by
  unfold progWrite
  repeat (with_reducible first
    | assumption | refine keeps_fil ?_ rfl rfl)

theorem accessReg_keeps {r s : State} {a n w p} [May W .regs] [May W .hbm] [May W .hif] [May W .dom] [May W .fil]
    [May W .rev] [May W .tu] [May W .eth] [May W .stk] [May W .win] [May W .grn] [May W .tly] [May W .lck] [May W .hsk]
    [May W .car] [May W .stg] [May W .pwr] [May W .trust] [May W .out] [May W .free] (h : Keeps W r s)
    : Keeps W r (accessReg s a n w p) := by
  unfold accessReg
  extract_lets q
  have k : ∀ x, q = some x → Keeps W r x.1 := by
    intro x e
    dsimp only [q] at e
    split at e
    · obtain ⟨y, e1, rfl⟩ := Option.map_eq_some_iff.1 e
      exact dbgRegWrite_keeps h y e1
    · obtain ⟨y, e1, rfl⟩ := Option.map_eq_some_iff.1 e
      exact dbgRegRead_keeps h y e1
  clear_value q
  split
  · exact State.emit_keeps h
  · rename_i u v
    have k1 : Keeps W r u := k _ rfl
    have k2 : ∀ w : Option Nat, Keeps W r (match w with | some v => u.emit (.data v) | none => u) := by
      intro w
      cases w with
      | none => exact k1
      | some v => exact State.emit_keeps k1
    dsimp only
    split
    · have k3 := runBuffer_keeps (a0 := a) (k2 v)
      exact keeps_ite (State.emit_keeps k3) k3
    · exact k2 v

theorem execAccessRegister_runs {r s : State} {a0 a1 a2 a3 a4} [May W .regs] [May W .hbm] [May W .hif] [May W .dom]
    [May W .fil] [May W .rev] [May W .tu] [May W .eth] [May W .stk] [May W .win] [May W .grn] [May W .tly] [May W .lck]
    [May W .hsk] [May W .car] [May W .stg] [May W .pwr] [May W .trust] [May W .out] [May W .free] (h : Keeps W r s) :
    Runs W r (execAccessRegister a0 a1 a2 a3 a4 s) := by
  unfold execAccessRegister
  repeat (with_reducible first
    | assumption | intro _ | apply keeps_ite | apply runs_ite | apply runs_next | apply whenOn_keeps
    | apply accessReg_keeps | apply progWrite_keeps)

theorem accessMem_keeps {r s : State} {a b n w} [May W .regs] [May W .hbm] [May W .hif] [May W .dom] [May W .fil]
    [May W .rev] [May W .tu] [May W .eth] [May W .stk] [May W .win] [May W .grn] [May W .tly] [May W .lck] [May W .hsk]
    [May W .car] [May W .stg] [May W .pwr] [May W .trust] [May W .out] [May W .free] (h : Keeps W r s)
    : Keeps W r (accessMem s a b n w) := by
  unfold accessMem
  dsimp only
  split
  · exact State.emit_keeps h
  · split
    · exact memPut_keeps h
    · exact keeps_ite (State.emit_keeps h) (State.emit_keeps (keeps_snd (memGet_keeps h)))

theorem execAccessMemory_runs {r s : State} {a0 a1 a2 a3} [May W .regs] [May W .hbm] [May W .hif] [May W .dom]
    [May W .fil] [May W .rev] [May W .tu] [May W .eth] [May W .stk] [May W .win] [May W .grn] [May W .tly] [May W .lck]
    [May W .hsk] [May W .car] [May W .stg] [May W .pwr] [May W .trust] [May W .out] [May W .free] (h : Keeps W r s) :
    Runs W r (execAccessMemory a0 a1 a2 a3 s) := by
  unfold execAccessMemory
  repeat (with_reducible first
    | assumption | intro _ | apply keeps_ite | apply runs_ite | apply runs_next | apply whenOn_keeps
    | apply accessMem_keeps)

theorem txSend_keeps {r s : State} {a0 a1} [May W .regs] [May W .fil] [May W .win] (h : Keeps W r s)
    : Keeps W r (txSend s a0 a1) := by
  unfold txSend
  repeat (with_reducible first
    | assumption | apply keeps_ite | apply toInternal_keeps | apply State.inc_keeps | apply returnBuf_keeps | split
    | refine keeps_fil ?_ rfl rfl)

theorem execTransmitMessage_runs {r s : State} {k} [May W .regs] [May W .fil] [May W .win] (h : Keeps W r s)
    : Runs W r (execTransmitMessage k s) := by
  unfold execTransmitMessage
  refine whenUp_keeps h fun s hs => ?_
  dsimp only
  split
  · exact runs_next hs
  · rename_i m rest e
    have hc : Keeps W r (chanSet s (0xFF40 + k.val) rest) := chanSet_keeps hs (.inl (by rw [e]; exact Nat.le_succ _))
    exact runs_ite (runs_next hs) (runs_ite (runs_next (State.inc_keeps hc)) (runs_next (txSend_keeps hc)))

end Sys2Proof.Machine
end

