-- ==== Sys2Proof/Laws/SpdmKeep.lean ====
section
/-! SUPPORT. Each operation of Machine/Spdm.lean keeps what `Keeps` says. -/

set_option Elab.async false

namespace Sys2Proof.Machine

open Sys2Proof

variable {W : List Part}

theorem spdmAns_keeps {r s : State} {a0 a1} [May W .trust] [May W .out] (h : Keeps W r s) (ha1 : ∀ s x1, Keeps W r s
    → Keeps2 W r (a1 s x1)) :
    Runs W r (spdmAns a0 a1 s) := by
  unfold spdmAns
  repeat (with_reducible first
    | assumption | intro _ | apply runs_next | apply byFirmware_keeps | apply spdmRow_keeps | apply ha1
    | refine keeps_snd (ha1 _ _ ?_) | refine keeps_of2 (by with_reducible assumption) ?_
    | exact keeps_snd (by with_reducible assumption) | apply keeps2_mk)

theorem execGetVersion_runs {r s : State} {a0} [May W .trust] [May W .out] (h : Keeps W r s)
    : Runs W r (execGetVersion a0 s) := by
  unfold execGetVersion
  repeat (with_reducible first
    | assumption | apply runs_next | intro _ | apply spdmAns_keeps | apply doVersion_keeps
    | refine keeps_of2 (by with_reducible assumption) ?_ | exact keeps_snd (by with_reducible assumption)
    | refine keeps_snd (doVersion_keeps ?_) | apply keeps2_mk)

theorem execGetCapabilities_runs {r s : State} {a0} [May W .trust] [May W .out] (h : Keeps W r s)
    : Runs W r (execGetCapabilities a0 s) := by
  unfold execGetCapabilities
  repeat (with_reducible first
    | assumption | apply runs_next | intro _ | apply spdmAns_keeps | apply doCapabilities_keeps
    | refine keeps_of2 (by with_reducible assumption) ?_ | exact keeps_snd (by with_reducible assumption)
    | refine keeps_snd (doCapabilities_keeps ?_) | apply keeps2_mk)

theorem execNegotiateAlgorithms_runs {r s : State} {a0} [May W .trust] [May W .out] (h : Keeps W r s)
    : Runs W r (execNegotiateAlgorithms a0 s) := by
  unfold execNegotiateAlgorithms
  repeat (with_reducible first
    | assumption | apply runs_next | intro _ | apply spdmAns_keeps | apply doAlgorithms_keeps
    | refine keeps_of2 (by with_reducible assumption) ?_ | exact keeps_snd (by with_reducible assumption)
    | refine keeps_snd (doAlgorithms_keeps ?_) | apply keeps2_mk)

theorem execGetDigests_runs {r s : State} {a0} [May W .trust] [May W .out] (h : Keeps W r s)
    : Runs W r (execGetDigests a0 s) := by
  unfold execGetDigests
  repeat (with_reducible first
    | assumption | apply runs_next | intro _ | apply spdmAns_keeps | apply doDigests_keeps
    | refine keeps_of2 (by with_reducible assumption) ?_ | exact keeps_snd (by with_reducible assumption)
    | refine keeps_snd (doDigests_keeps ?_) | apply keeps2_mk)

theorem execGetCertificate_runs {r s : State} {a0} [May W .trust] [May W .out] (h : Keeps W r s)
    : Runs W r (execGetCertificate a0 s) := by
  unfold execGetCertificate
  repeat (with_reducible first
    | assumption | apply runs_next | intro _ | apply spdmAns_keeps | apply doCertificate_keeps
    | refine keeps_of2 (by with_reducible assumption) ?_ | exact keeps_snd (by with_reducible assumption)
    | refine keeps_snd (doCertificate_keeps ?_) | apply keeps2_mk)

theorem execChallenge_runs {r s : State} {a0} [May W .trust] [May W .out] [May W .free] (h : Keeps W r s)
    : Runs W r (execChallenge a0 s) := by
  unfold execChallenge
  repeat (with_reducible first
    | assumption | apply runs_next | intro _ | apply spdmAns_keeps | apply doChallenge_keeps
    | refine keeps_of2 (by with_reducible assumption) ?_ | exact keeps_snd (by with_reducible assumption)
    | refine keeps_snd (doChallenge_keeps ?_) | apply keeps2_mk)

theorem execGetMeasurements_runs {r s : State} {a0} [May W .trust] [May W .out] [May W .free] (h : Keeps W r s)
    : Runs W r (execGetMeasurements a0 s) := by
  unfold execGetMeasurements
  repeat (with_reducible first
    | assumption | apply runs_next | intro _ | apply spdmAns_keeps | apply doMeasurements_keeps
    | refine keeps_of2 (by with_reducible assumption) ?_ | exact keeps_snd (by with_reducible assumption)
    | refine keeps_snd (doMeasurements_keeps ?_) | apply keeps2_mk)

theorem execKeyExchange_runs {r s : State} {a0} [May W .trust] [May W .out] [May W .free] (h : Keeps W r s)
    : Runs W r (execKeyExchange a0 s) := by
  unfold execKeyExchange
  repeat (with_reducible first
    | assumption | apply runs_next | intro _ | apply spdmAns_keeps | apply doKeyExchange_keeps
    | refine keeps_of2 (by with_reducible assumption) ?_ | exact keeps_snd (by with_reducible assumption)
    | refine keeps_snd (doKeyExchange_keeps ?_) | apply keeps2_mk)

theorem execFinish_runs {r s : State} {a0} [May W .trust] [May W .out] (h : Keeps W r s) : Runs W r (execFinish a0 s) := by
  unfold execFinish
  repeat (with_reducible first
    | assumption | apply runs_next | intro _ | apply spdmAns_keeps | apply doFinish_keeps
    | refine keeps_of2 (by with_reducible assumption) ?_ | exact keeps_snd (by with_reducible assumption)
    | refine keeps_snd (doFinish_keeps ?_) | apply keeps2_mk)

theorem execHeartbeat_runs {r s : State} {a0} [May W .trust] [May W .out] (h : Keeps W r s)
    : Runs W r (execHeartbeat a0 s) := by
  unfold execHeartbeat
  repeat (with_reducible first
    | assumption | apply runs_next | intro _ | apply spdmAns_keeps | apply doHeartbeat_keeps
    | refine keeps_of2 (by with_reducible assumption) ?_ | exact keeps_snd (by with_reducible assumption)
    | refine keeps_snd (doHeartbeat_keeps ?_) | apply keeps2_mk)

theorem execEndSession_runs {r s : State} {a0} [May W .trust] [May W .out] (h : Keeps W r s)
    : Runs W r (execEndSession a0 s) := by
  unfold execEndSession
  repeat (with_reducible first
    | assumption | apply runs_next | intro _ | apply spdmAns_keeps | apply doEndSession_keeps
    | refine keeps_of2 (by with_reducible assumption) ?_ | exact keeps_snd (by with_reducible assumption)
    | refine keeps_snd (doEndSession_keeps ?_) | apply keeps2_mk)

theorem execGetEncapsulatedRequest_runs {r s : State} {a0} [May W .trust] [May W .out] (h : Keeps W r s) :
    Runs W r (execGetEncapsulatedRequest a0 s) := by
  unfold execGetEncapsulatedRequest
  repeat (with_reducible first
    | assumption | apply runs_next | intro _ | apply spdmAns_keeps | apply doGetEncap_keeps
    | refine keeps_of2 (by with_reducible assumption) ?_ | exact keeps_snd (by with_reducible assumption)
    | refine keeps_snd (doGetEncap_keeps ?_) | apply keeps2_mk)

theorem execDeliverEncapsulatedResponse_runs {r s : State} {a0} [May W .trust] [May W .out] (h : Keeps W r s) :
    Runs W r (execDeliverEncapsulatedResponse a0 s) := by
  unfold execDeliverEncapsulatedResponse
  repeat (with_reducible first
    | assumption | apply runs_next | intro _ | apply spdmAns_keeps | apply doDeliver_keeps
    | refine keeps_of2 (by with_reducible assumption) ?_ | exact keeps_snd (by with_reducible assumption)
    | refine keeps_snd (doDeliver_keeps ?_) | apply keeps2_mk)

theorem execChunkSend_runs {r s : State} {a0} [May W .regs] [May W .trust] [May W .out] [May W .free] (h : Keeps W r s)
    : Runs W r (execChunkSend a0 s) := by
  unfold execChunkSend
  repeat (with_reducible first
    | assumption | apply runs_next | intro _ | apply spdmAns_keeps | apply doChunkSend_keeps
    | refine keeps_of2 (by with_reducible assumption) ?_ | exact keeps_snd (by with_reducible assumption)
    | refine keeps_snd (doChunkSend_keeps ?_) | apply keeps2_mk)

theorem execChunkGet_runs {r s : State} {a0} [May W .trust] [May W .out] (h : Keeps W r s) : Runs W r (execChunkGet a0 s)
    := by
  unfold execChunkGet
  repeat (with_reducible first
    | assumption | apply runs_next | intro _ | apply spdmAns_keeps | apply doChunkGet_keeps
    | refine keeps_of2 (by with_reducible assumption) ?_ | exact keeps_snd (by with_reducible assumption)
    | refine keeps_snd (doChunkGet_keeps ?_) | apply keeps2_mk)

theorem execSessionHeartbeatExpiry_runs {r s : State} {a0} [May W .trust] (h : Keeps W r s) :
    Runs W r (execSessionHeartbeatExpiry a0 s) := by
  unfold execSessionHeartbeatExpiry
  repeat (with_reducible first
    | assumption | intro _ | apply runs_next | apply byFirmware_keeps | apply sessionExpiry_keeps)

theorem execGetEvidence_runs {r s : State} {a0 a1 a2} [May W .regs] [May W .trust] [May W .out] [May W .free] (h
    : Keeps W r s) : Runs W r (execGetEvidence a0 a1 a2 s) := by
  unfold execGetEvidence
  repeat (with_reducible first
    | assumption | intro _ | apply runs_next | apply byFirmware_keeps | apply vendorRow_keeps | apply evidence_keeps
    | refine keeps_of2 (by with_reducible assumption) ?_ | exact keeps_snd (by with_reducible assumption)
    | refine keeps_snd (evidence_keeps ?_) | apply keeps2_mk)

theorem execGetHssChain_runs {r s : State} {a b} [May W .trust] [May W .out] (h : Keeps W r s)
    : Runs W r (execGetHssChain a b s) := by
  unfold execGetHssChain
  exact byFirmware_keeps h fun _ hs => runs_next (vendorRow_keeps hs fun _ ht => keeps2_mk ht)

theorem execFwWrite_runs {r s : State} {a0 a1 a2 a3 a4} [May W .trust] [May W .out] (h : Keeps W r s)
    : Runs W r (execFwWrite a0 a1 a2 a3 a4 s) := by
  unfold execFwWrite
  repeat (with_reducible first
    | assumption | intro _ | apply runs_next | apply byFirmware_keeps | apply vendorRow_keeps | apply vFwWrite_keeps
    | refine keeps_of2 (by with_reducible assumption) ?_ | exact keeps_snd (by with_reducible assumption)
    | refine keeps_snd (vFwWrite_keeps ?_) | apply keeps2_mk)

theorem execFwActivate_runs {r s : State} {a0 a1 a2} [May W .regs] [May W .trust] [May W .out] (h : Keeps W r s)
    : Runs W r (execFwActivate a0 a1 a2 s) := by
  unfold execFwActivate
  repeat (with_reducible first
    | assumption | intro _ | apply keeps_ite | apply keeps2_ite | apply runs_ite | apply runs_next
    | apply byFirmware_keeps | apply vendorRow_keeps | apply fwActivate_keeps
    | refine keeps_of2 (by with_reducible assumption) ?_ | exact keeps_snd (by with_reducible assumption)
    | refine keeps_snd (fwActivate_keeps ?_) | apply keeps2_mk)

end Sys2Proof.Machine
end

