-- ==== Sys2Proof/Laws/StackKeep.lean ====
section
/-! SUPPORT. Each operation of Machine/Stack.lean keeps what `Keeps` says. -/

set_option Elab.async false

namespace Sys2Proof.Machine

open Sys2Proof

variable {W : List Part}

theorem execSahrovUnitReceive_runs {r s : State} {a0 a1} [May W .regs] [May W .hbm] [May W .hif] [May W .fil]
    [May W .rev] [May W .tu] [May W .eth] [May W .stk] [May W .win] [May W .grn] [May W .tly] [May W .car] [May W .pwr]
    [May W .out] [May W .free] (h : Keeps W r s) :
    Runs W r (execSahrovUnitReceive a0 a1 s) := by
  unfold execSahrovUnitReceive
  repeat (with_reducible first
    | assumption | intro _ | apply runs_next | apply fromStack_keeps | apply unitReceive_keeps)

theorem execSahrovDataSend_runs {r s : State} {a0} [May W .stk] [May W .out] (h : Keeps W r s)
    : Runs W r (execSahrovDataSend a0 s) := by
  unfold execSahrovDataSend
  repeat (with_reducible first
    | assumption | intro _ | apply runs_next | apply whenOn_keeps | apply dataSend_keeps)

theorem execSahrovReplayTimeout_runs {r s : State} {a0} [May W .regs] [May W .eth] [May W .stk] [May W .grn]
    [May W .tly] [May W .out] (h : Keeps W r s) : Runs W r (execSahrovReplayTimeout a0 s) := by
  unfold execSahrovReplayTimeout
  repeat (with_reducible first
    | assumption | intro _ | apply runs_next | apply whenOn_keeps | apply replayAll_keeps)

theorem ackTimer_keeps {r s : State} {a0} [May W .stk] [May W .out] (h : Keeps W r s) : Keeps W r (ackTimer s a0) := by
  unfold ackTimer
  repeat (with_reducible first
    | assumption | apply keeps_ite | apply sendAck_keeps)

theorem execSahrovAckTimer_runs {r s : State} {a0} [May W .stk] [May W .out] (h : Keeps W r s)
    : Runs W r (execSahrovAckTimer a0 s) := by
  unfold execSahrovAckTimer
  repeat (with_reducible first
    | assumption | intro _ | apply runs_next | apply whenOn_keeps | apply ackTimer_keeps)

theorem onLink_keeps {r s : State} {j f} [May W .stk] (h : Keeps W r s) (hf : ∀ s, Keeps W r s → Keeps W r (f s))
    : Keeps W r (onLink s j f) := by
  unfold onLink
  exact keeps_ite (hf _ (linkHeard_keeps h)) h

theorem execHello_runs {r s : State} {a0 a1 a2} [May W .regs] [May W .hif] [May W .fil] [May W .rev] [May W .eth]
    [May W .stk] [May W .grn] [May W .tly] [May W .out] (h : Keeps W r s) : Runs W r (execHello a0 a1 a2 s) := by
  unfold execHello
  repeat (with_reducible first
    | assumption | intro _ | apply runs_next | apply whenOn_keeps | apply onLink_keeps | apply helloArrive_keeps)

theorem execStkAck_runs {r s : State} {a0 a1 a2} [May W .regs] [May W .eth] [May W .stk] [May W .grn] [May W .tly]
    [May W .out] (h : Keeps W r s) : Runs W r (execStkAck a0 a1 a2 s) := by
  unfold execStkAck
  repeat (with_reducible first
    | assumption | intro _ | apply runs_next | apply whenOn_keeps | apply onLink_keeps | apply ackArrive_keeps)

theorem execStkCredit_runs {r s : State} {a0 a1 a2} [May W .stk] (h : Keeps W r s) : Runs W r (execStkCredit a0 a1 a2 s) := by
  unfold execStkCredit
  repeat (with_reducible first
    | assumption | intro _ | apply runs_next | apply whenOn_keeps | apply onLink_keeps | apply creditArrive_keeps)

theorem execKeepalive_runs {r s : State} {a0 a1 a2} [May W .stk] (h : Keeps W r s) : Runs W r (execKeepalive a0 a1 a2 s) := by
  unfold execKeepalive
  repeat (with_reducible first
    | assumption | intro _ | apply runs_next | apply whenOn_keeps | apply onLink_keeps | apply keepaliveArrive_keeps)

theorem execKeepaliveTimer_runs {r s : State} [May W .regs] [May W .now] [May W .tu] [May W .stk] [May W .out]
    [May W .free] (h : Keeps W r s) : Runs W r (execKeepaliveTimer s) := by
  unfold execKeepaliveTimer
  repeat (with_reducible first
    | assumption | intro _ | apply runs_next | apply whenOn_keeps | apply keepaliveTick_keeps)

theorem execPeerLossTimeout_runs {r s : State} {a0} [May W .regs] [May W .now] [May W .tu] [May W .eth] [May W .stk]
    [May W .grn] [May W .tly] [May W .out] [May W .free] (h : Keeps W r s) : Runs W r (execPeerLossTimeout a0 s) := by
  unfold execPeerLossTimeout
  repeat (with_reducible first
    | assumption | intro _ | apply runs_next | apply whenOn_keeps | apply peerTimeout_keeps)

theorem execStackTimePeriod_runs {r s : State} [May W .regs] [May W .now] [May W .tu] [May W .out] [May W .free] (h
    : Keeps W r s) : Runs W r (execStackTimePeriod s) := by
  unfold execStackTimePeriod
  repeat (with_reducible first
    | assumption | intro _ | apply runs_next | apply whenOn_keeps | apply timePeriod_keeps)

theorem execTime_runs {r s : State} {a0 a1 a2 a3 a4} [May W .tu] [May W .stk] [May W .out] [May W .free] (h : Keeps W r s)
    : Runs W r (execTime a0 a1 a2 a3 a4 s) := by
  unfold execTime
  repeat (with_reducible first
    | assumption | intro _ | apply runs_next | apply whenOn_keeps | apply onLink_keeps | apply timeArrive_keeps)

theorem execTimeRpt_runs {r s : State} {a0 a1 a2 a3 a4} [May W .regs] [May W .tu] [May W .eth] [May W .stk]
    [May W .out] [May W .free] (h : Keeps W r s) : Runs W r (execTimeRpt a0 a1 a2 a3 a4 s) := by
  unfold execTimeRpt
  repeat (with_reducible first
    | assumption | intro _ | apply runs_next | apply whenOn_keeps | apply onLink_keeps | apply timeRpt_keeps)

theorem execStateMark_runs {r s : State} {a0 a1 a2} [May W .regs] [May W .hbm] [May W .fil] [May W .stk] [May W .win]
    [May W .out] (h : Keeps W r s) : Runs W r (execStateMark a0 a1 a2 s) := by
  unfold execStateMark
  repeat (with_reducible first
    | assumption | intro _ | apply runs_next | apply whenOn_keeps | apply onLink_keeps | apply stateMark_keeps)

theorem execStateAck_runs {r s : State} {a0 a1} [May W .stk] (h : Keeps W r s) : Runs W r (execStateAck a0 a1 s) := by
  unfold execStateAck
  repeat (with_reducible first
    | assumption | intro _ | apply runs_next | apply whenOn_keeps | apply onLink_keeps | apply stateAck_keeps)

theorem execMasterJoin_runs {r s : State} [May W .stk] (h : Keeps W r s) : Runs W r (execMasterJoin s) := by
  unfold execMasterJoin
  repeat (with_reducible first
    | assumption | intro _ | apply runs_next | apply whenOn_keeps | apply snapshotOut_keeps)

end Sys2Proof.Machine
end

