-- ==== Sys2Proof/Laws/SwitchCtrlKeep.lean ====
section
/-! SUPPORT. Each operation of Machine/SwitchCtrl.lean keeps what `Keeps` says. -/

set_option Elab.async false

namespace Sys2Proof.Machine

open Sys2Proof

variable {W : List Part}

theorem execMcGroupWrite_runs {r s : State} {a0 a1} [May W .regs] [May W .hif] [May W .dom] [May W .grn] [May W .out]
    [May W .free] (h : Keeps W r s) : Runs W r (execMcGroupWrite a0 a1 s) := by
  unfold execMcGroupWrite
  repeat (with_reducible first
    | assumption | intro _ | apply runs_next | apply whenUp_keeps | apply ctrlRun_keeps | apply recPut_keeps
    | apply keeps_grn)

theorem execMcMemberWrite_runs {r s : State} {a0 a1} [May W .regs] [May W .hif] [May W .dom] [May W .grn] [May W .out]
    [May W .free] (h : Keeps W r s) : Runs W r (execMcMemberWrite a0 a1 s) := by
  unfold execMcMemberWrite
  repeat (with_reducible first
    | assumption | intro _ | apply runs_next | apply whenUp_keeps | apply ctrlRun_keeps | apply recPut_keeps
    | apply keeps_grn)

theorem recQmap_keeps {r s : State} {a0 a1} [May W .grn] (h : Keeps W r s) : KeepsR W r (recQmap a0 s a1) := by
  unfold recQmap
  repeat (with_reducible first
    | assumption | apply keeps_ite | apply keepsR_ite | apply keepsR_ok | apply keepsR_fail | apply keeps_grn)

theorem execQmapWrite_runs {r s : State} {a0 a1} [May W .regs] [May W .hif] [May W .dom] [May W .grn] [May W .out]
    [May W .free] (h : Keeps W r s) : Runs W r (execQmapWrite a0 a1 s) := by
  unfold execQmapWrite
  repeat (with_reducible first
    | assumption | intro _ | apply runs_next | apply whenUp_keeps | apply ctrlRun_keeps | apply recQmap_keeps)

theorem shaperStart_keeps {r s : State} {a0 a1 a2} [May W .tly] (h : Keeps W r s) : Keeps W r (shaperStart s a0 a1 a2) := by
  unfold shaperStart
  repeat (with_reducible first
    | assumption | apply keeps_ite | apply setMaxTok_keeps | apply setMinTok_keeps)

theorem memberMoved_keeps {r s : State} {a0 a1 a2} [May W .tly] (h : Keeps W r s) : Keeps W r (memberMoved s a0 a1 a2) := by
  unfold memberMoved
  repeat (with_reducible first
    | assumption | apply keeps_ite | apply onNewHead_keeps | apply retag_keeps | split)

theorem recNode_keeps {r s : State} {a0 a1} [May W .tly] (h : Keeps W r s) : KeepsR W r (recNode a0 s a1) := by
  unfold recNode
  repeat (with_reducible first
    | assumption | apply keeps_ite | apply keepsR_ite | apply keepsR_ok | apply keepsR_fail | apply shaperStart_keeps
    | apply memberMoved_keeps | apply keeps_tly)

theorem recQueue_keeps {r s : State} {a0 a1} [May W .tly] (h : Keeps W r s) : KeepsR W r (recQueue a0 s a1) := by
  unfold recQueue
  repeat (with_reducible first
    | assumption | apply keeps_ite | apply keepsR_ite | apply keepsR_ok | apply keepsR_fail | apply shaperStart_keeps
    | apply memberMoved_keeps | apply keeps_tly)

theorem execTlyNodeWrite_runs {r s : State} {a0 a1} [May W .regs] [May W .hif] [May W .dom] [May W .tly] [May W .out]
    [May W .free] (h : Keeps W r s) : Runs W r (execTlyNodeWrite a0 a1 s) := by
  unfold execTlyNodeWrite
  repeat (with_reducible first
    | assumption | intro _ | apply runs_next | apply whenUp_keeps | apply ctrlRun_keeps | apply recNode_keeps)

theorem execQueueWrite_runs {r s : State} {a0 a1} [May W .regs] [May W .hif] [May W .dom] [May W .tly] [May W .out]
    [May W .free] (h : Keeps W r s) : Runs W r (execQueueWrite a0 a1 s) := by
  unfold execQueueWrite
  repeat (with_reducible first
    | assumption | intro _ | apply runs_next | apply whenUp_keeps | apply ctrlRun_keeps | apply recQueue_keeps)

theorem recPol_keeps {r s : State} {a0 a1} [May W .tly] (h : Keeps W r s) : KeepsR W r (recPol a0 s a1) := by
  unfold recPol
  repeat (with_reducible first
    | assumption | apply keeps_ite | apply keepsR_ite | apply keepsR_ok | apply keepsR_fail | apply polPut_keeps)

theorem execPolWrite_runs {r s : State} {a0 a1} [May W .regs] [May W .hif] [May W .dom] [May W .tly] [May W .out]
    [May W .free] (h : Keeps W r s) : Runs W r (execPolWrite a0 a1 s) := by
  unfold execPolWrite
  repeat (with_reducible first
    | assumption | intro _ | apply runs_next | apply whenUp_keeps | apply ctrlRun_keeps | apply recPol_keeps)

theorem recPolCnt_keeps {r s : State} {a0 a1} [May W .tly] (h : Keeps W r s) : KeepsR W r (recPolCnt a0 s a1) := by
  unfold recPolCnt
  repeat (with_reducible first
    | assumption | apply keeps_ite | apply keepsR_ite | apply keepsR_ok | apply keepsR_fail | apply polPut_keeps)

theorem execPolCntRead_runs {r s : State} {a0 a1} [May W .regs] [May W .hif] [May W .dom] [May W .tly] [May W .out]
    [May W .free] (h : Keeps W r s) : Runs W r (execPolCntRead a0 a1 s) := by
  unfold execPolCntRead
  repeat (with_reducible first
    | assumption | intro _ | apply runs_next | apply whenUp_keeps | apply ctrlRun_keeps | apply recPolCnt_keeps)

theorem recGate_keeps {r s : State} {a0 a1} [May W .tly] (h : Keeps W r s) : KeepsR W r (recGate a0 s a1) := by
  unfold recGate
  repeat (with_reducible first
    | assumption | apply keeps_ite | apply keepsR_ite | apply keepsR_ok | apply keepsR_fail | apply keeps_tly)

theorem execGateWrite_runs {r s : State} {a0 a1} [May W .regs] [May W .hif] [May W .dom] [May W .tly] [May W .out]
    [May W .free] (h : Keeps W r s) : Runs W r (execGateWrite a0 a1 s) := by
  unfold execGateWrite
  repeat (with_reducible first
    | assumption | intro _ | apply runs_next | apply whenUp_keeps | apply ctrlRun_keeps | apply recGate_keeps)

theorem recState_keeps {r s : State} {a0 a1} (h : Keeps W r s) : KeepsR W r (recState a0 s a1) := by
  unfold recState
  repeat (with_reducible first
    | assumption | apply keeps_ite | apply keepsR_ite | apply keepsR_ok | apply keepsR_fail)

theorem execStateRead_runs {r s : State} {a0 a1} [May W .regs] [May W .hif] [May W .dom] [May W .out] [May W .free] (h
    : Keeps W r s) : Runs W r (execStateRead a0 a1 s) := by
  unfold execStateRead
  repeat (with_reducible first
    | assumption | intro _ | apply runs_next | apply whenUp_keeps | apply ctrlRun_keeps | apply recState_keeps)

end Sys2Proof.Machine
end

