-- ==== Sys2Proof/Laws/TrustKeep.lean ====
section
/-! SUPPORT. Each operation of Machine/Trust.lean keeps what `Keeps` says. -/

set_option Elab.async false

namespace Sys2Proof.Machine

open Sys2Proof

variable {W : List Part}

theorem execReeveImageLoaded_runs {r s : State} {a0} [May W .regs] [May W .hif] [May W .fil] [May W .rev] [May W .eth]
    [May W .win] [May W .grn] [May W .tly] [May W .hsk] [May W .stg] [May W .pwr] [May W .trust] [May W .out] (h
    : Keeps W r s) : Runs W r (execReeveImageLoaded a0 s) := by
  unfold execReeveImageLoaded
  repeat (with_reducible first
    | assumption | apply keeps_ite | apply runs_ite | apply runs_next | apply reeveImage_keeps)

theorem execFilbertImageLoaded_runs {r s : State} {a0} [May W .regs] [May W .hbm] [May W .fil] [May W .trust] (h
    : Keeps W r s) : Runs W r (execFilbertImageLoaded a0 s) := by
  unfold execFilbertImageLoaded
  repeat (with_reducible first
    | assumption | intro _ | apply keeps_ite | apply runs_ite | apply runs_next | apply byFirmware_keeps
    | apply filbertImage_keeps)

theorem execFwReady_runs {r s : State} [May W .regs] (h : Keeps W r s) : Runs W r (execFwReady s) := by
  unfold execFwReady
  refine whenUp_keeps h fun s hs => runs_next (keeps_ite hs ?_)
  dsimp only
  split
  · exact blowFuses_keeps (State.wr_keeps hs)
  · exact State.wr_keeps hs

theorem execBootComplete_runs {r s : State} [May W .regs] (h : Keeps W r s) : Runs W r (execBootComplete s) := by
  unfold execBootComplete
  repeat (with_reducible first
    | assumption | intro _ | apply runs_next | apply byFirmware_keeps | apply blowFuses_keeps | split)

theorem unlockCtl_keeps {r s : State} {a0 a1} [May W .regs] [May W .hbm] [May W .hif] [May W .fil] [May W .rev]
    [May W .tu] [May W .eth] [May W .stk] [May W .win] [May W .grn] [May W .tly] [May W .car] [May W .pwr]
    [May W .trust] [May W .out] [May W .free] (h : Keeps W r s) : Runs W r (unlockCtl s a0 a1) := by
  unfold unlockCtl
  repeat (with_reducible first
    | assumption | intro _ | apply keeps_ite | apply runs_ite | apply runs_next | apply unlockWrite_keeps
    | apply fromDomain_keeps | split)

theorem execNewChal_runs {r s : State} {a0} [May W .regs] [May W .hbm] [May W .hif] [May W .fil] [May W .rev]
    [May W .tu] [May W .eth] [May W .stk] [May W .win] [May W .grn] [May W .tly] [May W .car] [May W .pwr]
    [May W .trust] [May W .out] [May W .free] (h : Keeps W r s) : Runs W r (execNewChal a0 s) := by
  unfold execNewChal
  repeat (with_reducible first
    | assumption | apply runs_next | apply unlockCtl_keeps)

theorem execVerify_runs {r s : State} {a0} [May W .regs] [May W .hbm] [May W .hif] [May W .fil] [May W .rev]
    [May W .tu] [May W .eth] [May W .stk] [May W .win] [May W .grn] [May W .tly] [May W .car] [May W .pwr]
    [May W .trust] [May W .out] [May W .free] (h : Keeps W r s) : Runs W r (execVerify a0 s) := by
  unfold execVerify
  repeat (with_reducible first
    | assumption | apply runs_next | apply unlockCtl_keeps)

theorem execUnlockVerifyComplete_runs {r s : State} [May W .regs] [May W .trust] (h : Keeps W r s)
    : Runs W r (execUnlockVerifyComplete s) := by
  unfold execUnlockVerifyComplete
  repeat (with_reducible first
    | assumption | intro _ | apply runs_next | apply byFirmware_keeps | apply endVerify_keeps)

theorem execRelock_runs {r s : State} {a0} [May W .regs] [May W .hbm] [May W .hif] [May W .fil] [May W .rev]
    [May W .tu] [May W .eth] [May W .stk] [May W .win] [May W .grn] [May W .tly] [May W .car] [May W .pwr]
    [May W .trust] [May W .out] [May W .free] (h : Keeps W r s) : Runs W r (execRelock a0 s) := by
  unfold execRelock
  repeat (with_reducible first
    | assumption | apply runs_next | apply unlockCtl_keeps)

end Sys2Proof.Machine
end

