-- ==== Sys2Proof/Laws/WinCtrlKeep.lean ====
section
/-! SUPPORT. Each operation of Machine/WinCtrl.lean keeps what `Keeps` says. -/

set_option Elab.async false

namespace Sys2Proof.Machine

open Sys2Proof

variable {W : List Part}

theorem sharedChange_keeps {r s : State} {a0 a1 a2} [May W .regs] [May W .stk] (h : Keeps W r s)
    : Keeps W r (sharedChange s a0 a1 a2) := by
  unfold sharedChange
  repeat (with_reducible first
    | assumption | apply keeps_ite | apply shareChange_keeps)

theorem recInsert_keeps {r s : State} {a0 a1} [May W .regs] [May W .hbm] [May W .fil] [May W .stk] [May W .win] (h
    : Keeps W r s) : KeepsR W r (recInsert a0 s a1) := by
  unfold recInsert
  repeat (with_reducible first
    | assumption | apply keeps_ite | apply keepsE_ite | apply keepsR_ite | apply keepsR_ok | apply keepsR_fail
    | apply tblInsert_keeps | apply sharedChange_keeps | refine keeps_ofE (by with_reducible assumption) ?_ | split)

theorem recDelete_keeps {r s : State} {a0 a1} [May W .regs] [May W .hbm] [May W .fil] [May W .stk] [May W .win] (h
    : Keeps W r s) : KeepsR W r (recDelete a0 s a1) := by
  unfold recDelete
  repeat (with_reducible first
    | assumption | apply keeps_ite | apply keepsO_ite | apply keepsR_ite | apply keepsR_ok | apply keepsR_fail
    | apply tblDelete_keeps | apply sharedChange_keeps | refine keeps_ofO (by with_reducible assumption) ?_ | split)

theorem recRead_keeps {r s : State} {a0 a1} [May W .regs] [May W .hbm] [May W .fil] [May W .win] (h : Keeps W r s)
    : KeepsR W r (recRead a0 s a1) := by
  unfold recRead
  repeat (with_reducible first
    | assumption | apply keeps_ite | apply keepsR_ite | apply keepsR_ok | apply keepsR_fail | apply entWrite_keeps
    | split)

theorem recAct_keeps {r s : State} {a0 a1} [May W .regs] [May W .stk] [May W .win] (h : Keeps W r s)
    : KeepsR W r (recAct a0 s a1) := by
  unfold recAct
  repeat (with_reducible first
    | assumption | apply keeps_ite | apply keepsR_ite | apply keepsR_ok | apply keepsR_fail | apply putWin_keeps
    | apply shareChange_keeps)

theorem putNode_keeps {r s : State} {a0 a1} [May W .win] (h : Keeps W r s) : Keeps W r (putNode s a0 a1) := by
  unfold putNode
  repeat (with_reducible first
    | assumption | apply keeps_ite | apply putWin_keeps)

theorem putPat_keeps {r s : State} {a0 a1} [May W .win] (h : Keeps W r s) : Keeps W r (putPat s a0 a1) := by
  unfold putPat
  repeat (with_reducible first
    | assumption | apply keeps_ite | apply putWin_keeps)

theorem recEdit_keeps {r s : State} {a0 a1} [May W .win] (h : Keeps W r s) : KeepsR W r (recEdit a0 s a1) := by
  unfold recEdit
  repeat (with_reducible first
    | assumption | intro _ | apply keeps_ite | apply keepsR_ite | apply keepsR_ok | apply keepsR_fail
    | apply recPut_keeps | apply putWin_keeps)

theorem recCnt_keeps {r s : State} {a0 a1} [May W .win] (h : Keeps W r s) : KeepsR W r (recCnt a0 s a1) := by
  unfold recCnt
  repeat (with_reducible first
    | assumption | apply keeps_ite | apply keepsR_ite | apply keepsR_ok | apply keepsR_fail | apply putWin_keeps
    | split)

theorem execTblInsert_runs {r s : State} {a0 a1} [May W .regs] [May W .hbm] [May W .hif] [May W .dom] [May W .fil]
    [May W .stk] [May W .win] [May W .out] [May W .free] (h : Keeps W r s) : Runs W r (execTblInsert a0 a1 s) := by
  unfold execTblInsert
  repeat (with_reducible first
    | assumption | intro _ | apply runs_next | apply whenUp_keeps | apply ctrlRun_keeps | apply recInsert_keeps
    | split)

theorem execTblDelete_runs {r s : State} {a0 a1} [May W .regs] [May W .hbm] [May W .hif] [May W .dom] [May W .fil]
    [May W .stk] [May W .win] [May W .out] [May W .free] (h : Keeps W r s) : Runs W r (execTblDelete a0 a1 s) := by
  unfold execTblDelete
  repeat (with_reducible first
    | assumption | intro _ | apply runs_next | apply whenUp_keeps | apply ctrlRun_keeps | apply recDelete_keeps
    | split)

theorem execTblRead_runs {r s : State} {a0 a1} [May W .regs] [May W .hbm] [May W .hif] [May W .dom] [May W .fil]
    [May W .win] [May W .out] [May W .free] (h : Keeps W r s) : Runs W r (execTblRead a0 a1 s) := by
  unfold execTblRead
  repeat (with_reducible first
    | assumption | intro _ | apply runs_next | apply whenUp_keeps | apply ctrlRun_keeps | apply recRead_keeps | split)

theorem execActWrite_runs {r s : State} {a0 a1} [May W .regs] [May W .hif] [May W .dom] [May W .stk] [May W .win]
    [May W .out] [May W .free] (h : Keeps W r s) : Runs W r (execActWrite a0 a1 s) := by
  unfold execActWrite
  repeat (with_reducible first
    | assumption | intro _ | apply runs_next | apply whenUp_keeps | apply ctrlRun_keeps | apply recAct_keeps)

theorem execNodeWrite_runs {r s : State} {a0 a1} [May W .regs] [May W .hif] [May W .dom] [May W .win] [May W .out]
    [May W .free] (h : Keeps W r s) : Runs W r (execNodeWrite a0 a1 s) := by
  unfold execNodeWrite
  repeat (with_reducible first
    | assumption | intro _ | apply runs_next | apply whenUp_keeps | apply ctrlRun_keeps | apply recPut_keeps
    | apply putNode_keeps)

theorem execGraphCommit_runs {r s : State} {a0} [May W .regs] [May W .hif] [May W .dom] [May W .out] (h : Keeps W r s)
    : Runs W r (execGraphCommit a0 s) := by
  unfold execGraphCommit
  repeat (with_reducible first
    | assumption | intro _ | apply runs_next | apply whenUp_keeps | apply ctrlPlain_keeps | apply State.wr_keeps)

theorem execEditWrite_runs {r s : State} {a0 a1} [May W .regs] [May W .hif] [May W .dom] [May W .win] [May W .out]
    [May W .free] (h : Keeps W r s) : Runs W r (execEditWrite a0 a1 s) := by
  unfold execEditWrite
  repeat (with_reducible first
    | assumption | intro _ | apply runs_next | apply whenUp_keeps | apply ctrlRun_keeps | apply recEdit_keeps)

theorem execTmplWrite_runs {r s : State} {a0 a1} [May W .regs] [May W .hif] [May W .dom] [May W .win] [May W .out]
    [May W .free] (h : Keeps W r s) : Runs W r (execTmplWrite a0 a1 s) := by
  unfold execTmplWrite
  repeat (with_reducible first
    | assumption | intro _ | apply runs_next | apply whenUp_keeps | apply ctrlRun_keeps | apply recPut_keeps
    | apply putWin_keeps)

theorem execPatWrite_runs {r s : State} {a0 a1} [May W .regs] [May W .hif] [May W .dom] [May W .win] [May W .out]
    [May W .free] (h : Keeps W r s) : Runs W r (execPatWrite a0 a1 s) := by
  unfold execPatWrite
  repeat (with_reducible first
    | assumption | intro _ | apply runs_next | apply whenUp_keeps | apply ctrlRun_keeps | apply recPut_keeps
    | apply putPat_keeps)

theorem execPatCommit_runs {r s : State} {a0} [May W .regs] [May W .hif] [May W .dom] [May W .out] (h : Keeps W r s)
    : Runs W r (execPatCommit a0 s) := by
  unfold execPatCommit
  repeat (with_reducible first
    | assumption | intro _ | apply runs_next | apply whenUp_keeps | apply ctrlPlain_keeps | apply State.wr_keeps)

theorem execCntRead_runs {r s : State} {a0 a1} [May W .regs] [May W .hif] [May W .dom] [May W .win] [May W .out]
    [May W .free] (h : Keeps W r s) : Runs W r (execCntRead a0 a1 s) := by
  unfold execCntRead
  repeat (with_reducible first
    | assumption | intro _ | apply runs_next | apply whenUp_keeps | apply ctrlRun_keeps | apply recCnt_keeps)

theorem execFragFlush_runs {r s : State} {a0} [May W .regs] [May W .hif] [May W .dom] [May W .win] [May W .out] (h
    : Keeps W r s) : Runs W r (execFragFlush a0 s) := by
  unfold execFragFlush
  repeat (with_reducible first
    | assumption | intro _ | apply runs_next | apply whenUp_keeps | apply ctrlPlain_keeps | apply fragShow_keeps
    | apply putWin_keeps)

theorem execStkDestWrite_runs {r s : State} {a0 a1} [May W .regs] [May W .hif] [May W .dom] [May W .stk] [May W .out]
    [May W .free] (h : Keeps W r s) : Runs W r (execStkDestWrite a0 a1 s) := by
  unfold execStkDestWrite
  repeat (with_reducible first
    | assumption | intro _ | apply runs_next | apply whenUp_keeps | apply ctrlRun_keeps | apply recPut_keeps
    | apply keeps_stk)

theorem execStkDqmapWrite_runs {r s : State} {a0 a1} [May W .regs] [May W .hif] [May W .dom] [May W .stk] [May W .out]
    [May W .free] (h : Keeps W r s) : Runs W r (execStkDqmapWrite a0 a1 s) := by
  unfold execStkDqmapWrite
  repeat (with_reducible first
    | assumption | intro _ | apply runs_next | apply whenUp_keeps | apply ctrlRun_keeps | apply recPut_keeps
    | apply keeps_stk)

end Sys2Proof.Machine
end

