-- ==== Sys2Proof/Laws/Puts.lean ====
section
/-! SUPPORT. An operation that replaces one part of the state leaves every register as it was, and time. -/

set_option Elab.async false

namespace Sys2Proof.Machine

open Sys2Proof

@[simp] theorem putSpdm_rd (s) (p) (f : Fld) (ix : List Nat) : (putSpdm s p).rd f ix = s.rd f ix := rfl
@[simp] theorem putSpdm_flag (s) (p) (f : Fld) (ix : List Nat) : (putSpdm s p).flag f ix = s.flag f ix := rfl
@[simp] theorem putSpdm_now (s) (p) : (putSpdm s p).now = s.now := rfl
@[simp] theorem putSess_rd (s) (x) (f : Fld) (ix : List Nat) : (putSess s x).rd f ix = s.rd f ix := rfl
@[simp] theorem putSess_flag (s) (x) (f : Fld) (ix : List Nat) : (putSess s x).flag f ix = s.flag f ix := rfl
@[simp] theorem putSess_now (s) (x) : (putSess s x).now = s.now := rfl
@[simp] theorem putLink_rd (s) (j l) (f : Fld) (ix : List Nat) : (putLink s j l).rd f ix = s.rd f ix := rfl
@[simp] theorem putLink_flag (s) (j l) (f : Fld) (ix : List Nat) : (putLink s j l).flag f ix = s.flag f ix := rfl
@[simp] theorem putLink_now (s) (j l) : (putLink s j l).now = s.now := rfl
@[simp] theorem hartPut_rd (s) (n x) (f : Fld) (ix : List Nat) : (hartPut s n x).rd f ix = s.rd f ix := rfl
@[simp] theorem hartPut_flag (s) (n x) (f : Fld) (ix : List Nat) : (hartPut s n x).flag f ix = s.flag f ix := rfl
@[simp] theorem hartPut_now (s) (n x) : (hartPut s n x).now = s.now := rfl
@[simp] theorem slotPut_rd (s) (n x) (f : Fld) (ix : List Nat) : (slotPut s n x).rd f ix = s.rd f ix := rfl
@[simp] theorem slotPut_flag (s) (n x) (f : Fld) (ix : List Nat) : (slotPut s n x).flag f ix = s.flag f ix := rfl
@[simp] theorem slotPut_now (s) (n x) : (slotPut s n x).now = s.now := rfl
@[simp] theorem ctlPut_rd (s) (k c) (f : Fld) (ix : List Nat) : (ctlPut s k c).rd f ix = s.rd f ix := rfl
@[simp] theorem ctlPut_flag (s) (k c) (f : Fld) (ix : List Nat) : (ctlPut s k c).flag f ix = s.flag f ix := rfl
@[simp] theorem ctlPut_now (s) (k c) : (ctlPut s k c).now = s.now := rfl
@[simp] theorem rpPut_rd (s) (n p) (f : Fld) (ix : List Nat) : (rpPut s n p).rd f ix = s.rd f ix := rfl
@[simp] theorem rpPut_flag (s) (n p) (f : Fld) (ix : List Nat) : (rpPut s n p).flag f ix = s.flag f ix := rfl
@[simp] theorem rpPut_now (s) (n p) : (rpPut s n p).now = s.now := rfl
@[simp] theorem ringPut_rd (s) (n x) (f : Fld) (ix : List Nat) : (ringPut s n x).rd f ix = s.rd f ix := rfl
@[simp] theorem ringPut_flag (s) (n x) (f : Fld) (ix : List Nat) : (ringPut s n x).flag f ix = s.flag f ix := rfl
@[simp] theorem ringPut_now (s) (n x) : (ringPut s n x).now = s.now := rfl
@[simp] theorem polPut_rd (s) (n p) (f : Fld) (ix : List Nat) : (polPut s n p).rd f ix = s.rd f ix := rfl
@[simp] theorem polPut_flag (s) (n p) (f : Fld) (ix : List Nat) : (polPut s n p).flag f ix = s.flag f ix := rfl
@[simp] theorem polPut_now (s) (n p) : (polPut s n p).now = s.now := rfl
@[simp] theorem putFrame_rd (s) (n x) (f : Fld) (ix : List Nat) : (putFrame s n x).rd f ix = s.rd f ix := rfl
@[simp] theorem putFrame_flag (s) (n x) (f : Fld) (ix : List Nat) : (putFrame s n x).flag f ix = s.flag f ix := rfl
@[simp] theorem putFrame_now (s) (n f) : (putFrame s n f).now = s.now := rfl
@[simp] theorem msixPut_rd (s) (i e) (f : Fld) (ix : List Nat) : (msixPut s i e).rd f ix = s.rd f ix := rfl
@[simp] theorem msixPut_flag (s) (i e) (f : Fld) (ix : List Nat) : (msixPut s i e).flag f ix = s.flag f ix := rfl
@[simp] theorem msixPut_now (s) (i e) : (msixPut s i e).now = s.now := rfl
@[simp] theorem irqPut_rd (s) (i e) (f : Fld) (ix : List Nat) : (irqPut s i e).rd f ix = s.rd f ix := rfl
@[simp] theorem irqPut_flag (s) (i e) (f : Fld) (ix : List Nat) : (irqPut s i e).flag f ix = s.flag f ix := rfl
@[simp] theorem irqPut_now (s) (i e) : (irqPut s i e).now = s.now := rfl
@[simp] theorem cmdPut_rd (s) (c) (f : Fld) (ix : List Nat) : (cmdPut s c).rd f ix = s.rd f ix := rfl
@[simp] theorem cmdPut_flag (s) (c) (f : Fld) (ix : List Nat) : (cmdPut s c).flag f ix = s.flag f ix := rfl
@[simp] theorem cmdPut_now (s) (c) : (cmdPut s c).now = s.now := rfl

end Sys2Proof.Machine
end

