-- ==== Sys2Proof/Laws/Regs.lean ====
section
/-! SUPPORT. Laws of the register file: what a field reads after a write of it, and that a write leaves every other field. -/

set_option Elab.async false

namespace Sys2Proof.Machine

open Sys2Proof

/-- Two field instances that share no storage: other tables, or other keys. -/
abbrev Fld.apart (f g : Fld) (ix jx : List Nat) : Prop := f.clr ≠ g.clr ∨ f.key ix ≠ g.key jx

theorem RegFile.get_set_same (r : RegFile) (f : Fld) (ix : List Nat) (v : Nat) :
    (r.set f ix v).get f ix = v % 2 ^ f.width := by
  unfold RegFile.get RegFile.set
  cases f.clr <;> exact SMap.get_set_same _ _ _ _

theorem RegFile.get_set_apart (r : RegFile) {f g : Fld} {ix jx : List Nat} (v : Nat) (h : Fld.apart f g ix jx) :
    (r.set f ix v).get g jx = r.get g jx := by
  unfold RegFile.get RegFile.set
  by_cases e : f.clr = g.clr
  · have k : g.key jx ≠ f.key ix := fun q => h.elim (fun x => x e) (fun x => x q.symm)
    rw [e]
    cases g.clr <;> exact SMap.get_set_ne _ _ _ _ k
  · cases hf : f.clr <;> cases hg : g.clr <;> first | rfl | exact absurd (hf.trans hg.symm) e

section
variable (s : State) {f g : Fld} {ix jx : List Nat}

@[simp] theorem State.rd_wr_same (f : Fld) (ix : List Nat) (v : Nat) : (s.wr f ix v).rd f ix = v % 2 ^ f.width :=
  RegFile.get_set_same _ _ _ _
@[simp] theorem State.flag_wr_same (f : Fld) (ix : List Nat) (v : Nat) :
    (s.wr f ix v).flag f ix = (v % 2 ^ f.width % 2 == 1) :=
  congrArg (fun x => x % 2 == 1) (RegFile.get_set_same _ _ _ _)
theorem State.rd_wr_apart (v : Nat) (h : Fld.apart f g ix jx) : (s.wr f ix v).rd g jx = s.rd g jx :=
  RegFile.get_set_apart _ v h
theorem State.flag_wr_apart (v : Nat) (h : Fld.apart f g ix jx) : (s.wr f ix v).flag g jx = s.flag g jx :=
  congrArg (fun x => x % 2 == 1) (RegFile.get_set_apart _ v h)

@[simp] theorem State.rd_add_same (f : Fld) (ix : List Nat) (n : Nat) :
    (s.add f ix n).rd f ix = (s.rd f ix + n) % 2 ^ f.width := s.rd_wr_same f ix _
theorem State.rd_add_apart (n : Nat) (h : Fld.apart f g ix jx) : (s.add f ix n).rd g jx = s.rd g jx := s.rd_wr_apart _ h
theorem State.flag_add_apart (n : Nat) (h : Fld.apart f g ix jx) : (s.add f ix n).flag g jx = s.flag g jx := s.flag_wr_apart _ h
@[simp] theorem State.rd_inc_same (f : Fld) (ix : List Nat) : (s.inc f ix).rd f ix = (s.rd f ix + 1) % 2 ^ f.width :=
  s.rd_wr_same f ix _
theorem State.rd_inc_apart (h : Fld.apart f g ix jx) : (s.inc f ix).rd g jx = s.rd g jx := s.rd_wr_apart _ h
theorem State.flag_inc_apart (h : Fld.apart f g ix jx) : (s.inc f ix).flag g jx = s.flag g jx := s.flag_wr_apart _ h
@[simp] theorem State.rd_satAdd_same (f : Fld) (ix : List Nat) (n : Nat) :
    (s.satAdd f ix n).rd f ix = min (s.rd f ix + n) (2 ^ f.width - 1) := by
  have h : 0 < 2 ^ f.width := Nat.pow_pos (by decide)
  exact (s.rd_wr_same f ix _).trans (Nat.mod_eq_of_lt (by omega))
theorem State.rd_satAdd_apart (n : Nat) (h : Fld.apart f g ix jx) : (s.satAdd f ix n).rd g jx = s.rd g jx := s.rd_wr_apart _ h
@[simp] theorem State.rd_sub_same (f : Fld) (ix : List Nat) (n : Nat) :
    (s.sub f ix n).rd f ix = (s.rd f ix - n) % 2 ^ f.width := s.rd_wr_same f ix _
theorem State.rd_sub_apart (n : Nat) (h : Fld.apart f g ix jx) : (s.sub f ix n).rd g jx = s.rd g jx := s.rd_wr_apart _ h
theorem State.rd_reset (f : Fld) (ix : List Nat) : State.reset.rd f ix = f.reset ix := by
  unfold State.rd RegFile.get
  cases h : f.clr <;> rfl
end

end Sys2Proof.Machine
end

