-- ==== Sys2Proof/Laws/TickOpsKeep.lean ====
section
/-! SUPPORT. Each operation of Machine/TickOps.lean keeps what `Keeps` says. -/

set_option Elab.async false

namespace Sys2Proof.Machine

open Sys2Proof

variable {W : List Part}

theorem clockTick_keeps {r s : State} [May W .regs] [May W .now] [May W .hbm] [May W .hif] [May W .dom] [May W .fil]
    [May W .tu] [May W .eth] [May W .win] [May W .grn] [May W .tly] [May W .car] [May W .stg] [May W .pwr] [May W .out]
    [May W .free] (h : Keeps W r s) : Keeps W r (clockTick s) := by
  unfold clockTick
  dsimp only
  repeat (with_reducible first
    | assumption | apply keeps_ite | apply drainHeld_keeps | apply clockTo_keeps | apply judgeReads_keeps
    | apply payAll_keeps | apply spillFor_keeps)

end Sys2Proof.Machine
end

