-- ==== Sys2Proof/WellFormed.lean ====
section
/-! DEFINITION. Which commands are well formed: operands that their Lean types alone leave too wide are within what the manual
allows. The meanings are total all the same; a test shows one ill-formed command for each check.
Log entries 9. -/

namespace Sys2Proof

/-- Whether every operand of a command is within the range the manual gives it. -/
def Instr.wf (i : Instr) : Bool :=
  match i with
  | .refclkLost => true
  | .refclkLossTimeout => true
  | .refclkReturn => true
  | .frameReceive p w => match w with | .frame data _ => decide (data.length ≤ 16384) | .fragment _ _ data => decide (data.length ≤ 16384) | .badFragment => true | .verify => true | .respond => true
  | .hbmLookupComplete _ _ => true
  | .internalInputFrame _ => true
  | .espInnerReentry => true
  | .patternScanComplete _ => true
  | .fragEntryExpiry => true
  | .egressSelect _ => true
  | .selectionDisplace _ => true
  | .frameTransmitStart _ _ => true
  | .pfcRefresh _ _ => true
  | .pfcFrameReceive _ _ _ _ => true
  | .pauseQuantaExpiry _ _ => true
  | .ethApply _ => true
  | .linkLost p c => match c with | .lane l => decide (l < 8) | .pmd l => decide (l < 8) | .alignment => true | .symbolErrors => true | .localFault => true | .remoteFault => true
  | .portQualified _ => true
  | .holdTimerExpiry _ => true
  | .flushCellReturn _ => true
  | .linkTrainingTimeout _ => true
  | .verifyTimeout _ => true
  | .laneCdrLoss _ _ => true
  | .pmdFault _ => true
  | .fecUncorrectedBurst _ _ _ => true
  | .sahrovUnitReceive _ _ => true
  | .sahrovDataSend _ => true
  | .sahrovReplayTimeout _ => true
  | .sahrovAckTimer _ => true
  | .hello _ _ _ => true
  | .stkAck _ _ _ => true
  | .stkCredit _ _ _ => true
  | .keepalive _ _ _ => true
  | .keepaliveTimer => true
  | .peerLossTimeout _ => true
  | .time _ _ _ _ _ => true
  | .timeRpt _ _ _ _ _ => true
  | .stateMark _ _ _ => true
  | .stateAck _ _ => true
  | .masterJoin => true
  | .stkDestWrite _ _ => true
  | .stkDqmapWrite _ _ => true
  | .tblInsert _ _ => true
  | .tblDelete _ _ => true
  | .tblRead _ _ => true
  | .actWrite _ _ => true
  | .nodeWrite _ _ => true
  | .graphCommit _ => true
  | .editWrite _ _ => true
  | .tmplWrite _ _ => true
  | .patWrite _ _ => true
  | .patCommit _ => true
  | .cntRead _ _ => true
  | .fragFlush _ => true
  | .tableEnable _ => true
  | .tableReady _ => true
  | .tableDisable _ => true
  | .granaryEnable _ => true
  | .qprofMinWrite _ _ => true
  | .headroomConfigWrite _ => true
  | .deepReturn _ _ => true
  | .multicastMemberEnqueue _ => true
  | .filbertDelivery => true
  | .mcGroupWrite _ _ => true
  | .mcMemberWrite _ _ => true
  | .qmapWrite _ _ => true
  | .granarySramError _ _ _ _ => true
  | .shaperRefill => true
  | .gateEvent _ _ => true
  | .gateChange _ => true
  | .gateConfigChange _ => true
  | .gateDisable _ => true
  | .tlyNodeWrite _ _ => true
  | .queueWrite _ _ => true
  | .polWrite _ _ => true
  | .polCntRead _ _ => true
  | .gateWrite _ _ => true
  | .stateRead _ _ => true
  | .wireWrite _ => true
  | .wireWriteImm _ => true
  | .wireSend _ => true
  | .wireSendImm _ => true
  | .readReq _ _ => true
  | .readResp _ => true
  | .wireAtomic _ _ => true
  | .atomicResp _ => true
  | .ack => true
  | .nak => true
  | .credit => true
  | .creditRpt => true
  | .dataPacketSend _ _ => true
  | .retransmit _ _ => true
  | .retransmitTimeout _ => true
  | .rnrDelayExpiry _ _ => true
  | .creditRepeat _ => true
  | .creditRptRepeat _ => true
  | .ackDelayExpiry _ => true
  | .write _ _ => true
  | .writeImm _ _ => true
  | .send _ _ => true
  | .sendImm _ _ => true
  | .read _ => true
  | .atomic _ => true
  | .recv _ => true
  | .connAlloc _ => true
  | .connConnect _ _ => true
  | .connDestroy _ => true
  | .connQuery _ => true
  | .mrReg _ => true
  | .mrDereg _ => true
  | .contextFetchComplete _ _ => true
  | .eviction _ => true
  | .contextWritebackComplete _ _ => true
  | .evictPendingExpiry _ => true
  | .closingComplete _ => true
  | .carterEnable _ => true
  | .pathWrite _ _ => true
  | .jobDispatch _ _ _ _ => true
  | .blockCompare _ _ _ _ => true
  | .huskJobComplete _ => true
  | .keyLoadComplete _ _ => true
  | .keyImport _ _ => true
  | .keyGenerate _ => true
  | .keyExport _ => true
  | .keyDestroy _ => true
  | .keyDestroyComplete => true
  | .keyQuery _ => true
  | .lckDomWrite _ _ _ => true
  | .rangeZeroizeComplete _ => true
  | .slotStoreReady => true
  | .slotEccError _ _ => true
  | .entropyFail _ => true
  | .rootPortEnable _ _ => true
  | .presenceChange _ _ => true
  | .powerFault _ => true
  | .buttonPress _ => true
  | .removalWindowExpiry _ => true
  | .pwrWaitExpiry _ => true
  | .perstReleaseDelay _ => true
  | .linkActive _ _ _ => true
  | .trainingTimeout _ => true
  | .enumerationDelay _ _ => true
  | .driveInitComplete n x => match x with | .failed => true | .ok ns => decide (ns.length ≤ 32)
  | .quiesceComplete _ => true
  | .dpcTrigger _ _ => true
  | .dpcRelease _ => true
  | .slotControlWrite _ _ => true
  | .remove _ => true
  | .driveCompletion _ _ _ _ => true
  | .driveCmdTimeout _ _ => true
  | .abortTimeout _ _ => true
  | .aerError _ _ _ _ => true
  | .driveInboundRequest n addr x => decide (addr < 2 ^ 64)
  | .sqDoorbell _ _ _ => true
  | .cqDoorbell _ _ _ => true
  | .nvmWrite _ _ _ _ _ => true
  | .nvmRead _ _ _ _ _ => true
  | .writeZeroes _ _ _ _ => true
  | .datasetManagement _ _ _ _ => true
  | .nvmFlush _ _ _ => true
  | .createIoSq _ _ => true
  | .deleteIoSq _ _ => true
  | .createIoCq _ _ => true
  | .deleteIoCq _ _ => true
  | .getLogPage _ _ _ _ => true
  | .identify _ _ _ => true
  | .abort _ _ => true
  | .setFeatures _ _ => true
  | .getFeatures _ _ => true
  | .asynchronousEventRequest _ _ => true
  | .ccWrite _ _ => true
  | .legComplete _ => true
  | .nsWrite _ _ => true
  | .extWrite _ _ => true
  | .nsRead _ _ => true
  | .stgEnable _ => true
  | .inboundMemoryRequest a addr x => match x with | .read n _ _ => decide (1 ≤ n.val) | .write data _ _ _ => decide (data.length % 4 = 0) && decide (data.length ≤ 4096) | .atomic => true
  | .configRequest _ _ _ _ => true
  | .busMasterEnableClear _ _ => true
  | .functionLevelReset _ _ => true
  | .portReset _ _ => true
  | .d3hotEntry _ _ => true
  | .d0Return _ _ => true
  | .aspmL1Entry _ _ => true
  | .readCompletion _ _ _ => true
  | .completionTimeout _ _ => true
  | .quarantineEnd _ _ => true
  | .translationResponse a f pasid page x => decide (page < 2 ^ 52)
  | .pageRequestGroupResponse a f pasid page ok => decide (page < 2 ^ 52)
  | .priTimeout a f pasid page => decide (page < 2 ^ 52)
  | .invalidationRequest a f itag pasid lo hi => decide (lo ≤ hi) && decide (hi < 2 ^ 64)
  | .invalidationCompletion _ _ _ => true
  | .pendingMessageRelease _ => true
  | .mailboxGo _ => true
  | .domCreate => true
  | .domDestroy => true
  | .domQuery => true
  | .instCreate => true
  | .instDestroy => true
  | .instReset => true
  | .instQuery => true
  | .irqWrite => true
  | .ringCreate => true
  | .ringDestroy => true
  | .ringModify => true
  | .instanceResetComplete _ => true
  | .doorbell _ _ => true
  | .cqdb _ _ => true
  | .ringCtlReset _ _ => true
  | .ringResetComplete _ => true
  | .descriptorFetch _ => true
  | .txFrame _ _ => true
  | .rxBuf _ => true
  | .rxFrameDelivery _ => true
  | .moderationTimer _ => true
  | .chSend _ _ _ => true
  | .chRecv _ _ _ => true
  | .chFill _ _ _ => true
  | .evSend _ _ _ _ => true
  | .evWait _ _ _ => true
  | .evPoll _ _ _ => true
  | .evWaitWake _ => true
  | .riscvInstruction _ _ _ => true
  | .timerInterrupt _ => true
  | .irqPendWrite _ _ => true
  | .waitcycleSample _ => true
  | .issueTableApply _ => true
  | .hartReset _ => true
  | .hartRelease _ => true
  | .frameBufferReturn => true
  | .transmitMessage _ => true
  | .halt _ => true
  | .resume _ => true
  | .singleStep _ _ _ => true
  | .hartreset _ => true
  | .accessRegister h n wr prog post => decide (prog.length ≤ 8)
  | .accessMemory _ _ _ _ => true
  | .coreEccError _ => true
  | .channelEnable _ => true
  | .timeCapture => true
  | .timeSet _ _ => true
  | .sampleCommit _ => true
  | .servoHoldTimeout => true
  | .servoModeWrite _ => true
  | .ppsInEdge => true
  | .ppsOutEdge => true
  | .stackTimePeriod => true
  | .eecRefQualified _ _ => true
  | .eecRefLost _ _ => true
  | .synceEnableWrite _ => true
  | .pwrGoActive _ => true
  | .pwrGoTrimmed _ => true
  | .pwrGoDormant _ => true
  | .pwrGoStandby _ => true
  | .trimWrite _ _ _ => true
  | .dormantEntry => true
  | .dormantWaitExpiry => true
  | .wakeTimerExpiry => true
  | .domainGate _ => true
  | .pwronRstN _ _ _ _ => true
  | .sysRstN => true
  | .rstWarm _ _ => true
  | .rstCold _ _ => true
  | .blockResetEthOctet _ _ => true
  | .blockResetPipeline _ _ => true
  | .blockResetHuskCluster _ _ => true
  | .blockResetFilbertCore _ _ => true
  | .blockResetRootPort _ _ => true
  | .blockResetPatternMatcher _ _ => true
  | .tempSample _ _ => true
  | .voltSample _ _ => true
  | .avsUpdate => true
  | .failureReport _ _ _ _ => true
  | .criticalRecovery => true
  | .retirementClear _ _ _ _ => true
  | .bellHb _ => true
  | .lockstepMismatch => true
  | .heartbeatExpiry => true
  | .thermalTrip _ => true
  | .mctpWake _ => true
  | .mctpWarm _ => true
  | .mctpCold _ => true
  | .readLog _ _ => true
  | .readCause _ => true
  | .setEndpointId _ _ _ => true
  | .getEndpointId _ => true
  | .getMctpVersionSupport _ _ => true
  | .getMessageTypeSupport _ => true
  | .getVendorDefinedMessageSupport _ _ => true
  | .gettid _ => true
  | .getpldmversion _ _ _ => true
  | .getpldmtypes _ => true
  | .getpldmcommands _ _ => true
  | .getpdrrepositoryinfo _ => true
  | .getpdr _ _ _ _ _ => true
  | .getsensorreading _ _ => true
  | .getstatesensorreadings _ _ => true
  | .seteventreceiver _ _ _ _ => true
  | .reeveImageLoaded _ => true
  | .filbertImageLoaded _ => true
  | .fwReady => true
  | .getVersion _ => true
  | .getCapabilities _ => true
  | .negotiateAlgorithms _ => true
  | .getDigests _ => true
  | .getCertificate _ => true
  | .challenge _ => true
  | .getMeasurements _ => true
  | .keyExchange _ => true
  | .finish _ => true
  | .heartbeat _ => true
  | .endSession _ => true
  | .getEvidence _ _ _ => true
  | .getHssChain _ _ => true
  | .fwWrite _ _ _ _ _ => true
  | .fwActivate _ _ _ => true
  | .newChal _ => true
  | .verify _ => true
  | .unlockVerifyComplete => true
  | .relock _ => true
  | .dbgregRead _ => true
  | .dbgregWrite _ _ => true
  | .rcRead _ _ _ => true
  | .lockAll _ => true
  | .registerWrite _ _ _ => true
  | .laneLockAcquired _ => true
  | .hostLinkUp a speed width flit credits => decide (width.val ∈ [1, 2, 4, 8, 16]) && decide (1 ≤ speed.val)
  | .rootPortLinkDown _ => true
  | .interruptCoalescingExpiry _ _ => true
  | .hifInternalError _ _ => true
  | .powerLoss => true
  | .rootPllLockLoss => true
  | .bootComplete => true
  | .pcieCreditReturn _ _ => true
  | .chunkSend _ => true
  | .chunkGet _ => true
  | .getEncapsulatedRequest _ => true
  | .deliverEncapsulatedResponse _ => true
  | .sessionHeartbeatExpiry _ => true

end Sys2Proof
end

