-- ==== Sys2Proof/Tests/Slice0.lean ====
section
/-! SUPPORT. Tests of the model: ill-formed commands that the check refuses, single steps with results taken from the manual
or a published vector, and for every hypothesis of a statement a state and operands that meet it. -/

set_option maxRecDepth 20000
set_option Elab.async false

namespace Sys2Proof.Machine

open Sys2Proof

/-- The next state of an answer satisfies a test. -/
def nx (a : Ans) (t : State → Bool) : Bool :=
  match a with
  | .next s => t s
  | _ => false

/-! ## Commands that are not well formed -/

theorem test_wf_frame_longer_than_any : (Instr.frameReceive 0 (.frame (List.replicate 16385 0) false)).wf = false := by decide +kernel
theorem test_wf_lane_of_octet : (Instr.linkLost 0 (.lane 8)).wf = false := by decide
theorem test_wf_pmd_of_octet : (Instr.linkLost 0 (.pmd 8)).wf = false := by decide
theorem test_wf_drive_namespaces : (Instr.driveInitComplete 0 (.ok (List.replicate 33 (512, 1)))).wf = false := by decide
theorem test_wf_drive_address : (Instr.driveInboundRequest 0 (2 ^ 64) (.read 4)).wf = false := by decide +kernel
theorem test_wf_translation_page : (Instr.translationResponse 0 0 none (2 ^ 52) none).wf = false := by decide +kernel
theorem test_wf_group_page : (Instr.pageRequestGroupResponse 0 0 none (2 ^ 52) true).wf = false := by decide +kernel
theorem test_wf_timeout_page : (Instr.priTimeout 0 0 none (2 ^ 52)).wf = false := by decide +kernel
theorem test_wf_invalidation_order : (Instr.invalidationRequest 0 0 0 none 2 1).wf = false := by decide
theorem test_wf_invalidation_range : (Instr.invalidationRequest 0 0 0 none 0 (2 ^ 64)).wf = false := by decide +kernel
theorem test_wf_program_buffer : (Instr.accessRegister 0 0x1000 none (List.replicate 9 0) false).wf = false := by decide
theorem test_wf_link_width : (Instr.hostLinkUp 0 6 3 true (0, 0, 0)).wf = false := by decide
theorem test_wf_link_speed : (Instr.hostLinkUp 0 0 16 true (0, 0, 0)).wf = false := by decide
theorem test_wf_fragment_longer_than_any : (Instr.frameReceive 0 (.fragment 0 none (List.replicate 16385 0))).wf = false := by decide +kernel
theorem test_wf_read_of_nothing : (Instr.inboundMemoryRequest 0 0 (.read 0 15 0)).wf = false := by decide
theorem test_wf_write_of_parts : (Instr.inboundMemoryRequest 0 0 (.write [1, 2, 3] 15 0 false)).wf = false := by decide
theorem test_wf_good : (Instr.inboundMemoryRequest 0 0 (.write [1, 2, 3, 4] 15 0 false)).wf = true := by decide

/-! ## Published vectors -/

/-- The bytes of "123456789". -/
def nine : Bytes := [49, 50, 51, 52, 53, 54, 55, 56, 57]
theorem test_crc32 : crc32 nine = 0xCBF43926 := by decide +kernel
theorem test_crc32c : crc32c nine = 0xE3069283 := by decide +kernel
theorem test_crc8 : crc8 nine = 0xF4 := by decide +kernel
/-- FIPS 197, appendix C.1 and C.3. -/
theorem test_aes128 : aesEnc ((List.range 16).map byteOf) ((List.range 16).map (fun i => byteOf (17 * i)))
    = beBytes 16 0x69c4e0d86a7b0430d8cdb78070b4c55a := by decide +kernel
theorem test_aes256 : aesEnc ((List.range 32).map byteOf) ((List.range 16).map (fun i => byteOf (17 * i)))
    = beBytes 16 0x8ea2b7ca516745bfeafc49904b496089 := by decide +kernel
/-- The GCM specification, test case 14: AES-256, a zero block under a zero key. -/
theorem test_gcm : gcmEnc (List.replicate 32 0) (List.replicate 12 0) [] (List.replicate 16 0)
    = (beBytes 16 0xcea7403d4d606b6e074ec5d3baf39d18, beBytes 16 0xd0d1c8a799996bf0265b98b5d48ab919) := by decide +kernel
/-- FIPS 180-4: the digest of "abc". -/
theorem test_sha384 : sha384 [97, 98, 99]
    = beBytes 48 0xcb00753f45a35e8bb5a03d699ac65007272c32ab0eded1631a8b605a43ff5bed8086072ba1e7cc2358baeca134c825a7 := by
  decide +kernel
theorem test_sha256 : sha256 [97, 98, 99]
    = beBytes 32 0xba7816bf8f01cfea414140de5dae2223b00361a396177a9cb410ff61f20015ad := by decide +kernel

/-! ## Single steps -/

/-- R663, R14: RWL fields with the LOCK that the same write sets (R672). -/
theorem test_register_write : nx (execRegisterWrite .reeve 0xC0000 (.w4 0x80040803) State.reset) (fun t =>
    t.rd R.REV_CFG.VEC [] == 3 && t.flag R.REV_CFG.VEC_EN [] && t.flag R.REV_CFG.AVS_EN [] && t.flag R.REV_CFG.LOCK []) = true := by
  decide +kernel
/-- R673: the vendor reads 0xAC4E. -/
theorem test_register_read : nx (execRcRead .owner 0 false State.reset) (fun t =>
    match t.out with | [.data v] => v % 65536 == 0xAC4E | _ => false) = true := by decide +kernel
/-- With an empty queue a step is one period of CLK_TIME. -/
theorem test_idle_step : step State.reset = .next (clockTick State.reset) := rfl
/-- R563: GO with REQ STANDBY in ACTIVE. -/
theorem test_go_standby : nx (execPwrGoStandby .owner State.reset) (fun t => t.rd R.PWR_STATUS.STATE [] == 3 && t.hbm == []) = true := by
  decide +kernel

/-- A state in which hart 0 runs from pc 0x1000 with x5 = 7 and x6 = 2^64 − 1. -/
def sRv : State :=
  { State.reset.wr R.FIL_HART_CTL.STATE [0] 1 with
    fil := { Fil.reset with harts := [(0, { Hart.reset with pc := 0x1000, x := [(5, 7), (6, 2 ^ 64 - 1)] })] } }
/-- The result of one word in register `r`, and the pc after it. -/
def rvTest (w : BitVec 32) (r v pc : Nat) : Bool :=
  nx (execRiscvInstruction 0 w .fine sRv) (fun t => xr t 0 r == v && (hartGet t 0).pc == pc)
/-- addi x7, x5, −8. -/
theorem test_addi : rvTest 0b111111111000_00101_000_00111_0010011 7 (2 ^ 64 - 1) 0x1004 = true := by decide +kernel
/-- add x5, x5, x6: the source is the destination, and the sum wraps. -/
theorem test_add_wraps : rvTest 0b0000000_00110_00101_000_00101_0110011 5 6 0x1004 = true := by decide +kernel
/-- sltu x7, x5, x6 and slt x7, x6, x5. -/
theorem test_sltu : rvTest 0b0000000_00110_00101_011_00111_0110011 7 1 0x1004 = true := by decide +kernel
theorem test_slt : rvTest 0b0000000_00101_00110_010_00111_0110011 7 1 0x1004 = true := by decide +kernel
/-- mulhu x7, x6, x5. -/
theorem test_mulhu : rvTest 0b0000001_00101_00110_011_00111_0110011 7 6 0x1004 = true := by decide +kernel
/-- divu x7, x5, x0 gives all ones. -/
theorem test_divu_zero : rvTest 0b0000001_00000_00101_101_00111_0110011 7 (2 ^ 64 - 1) 0x1004 = true := by decide +kernel
/-- sraiw x7, x6, 4. -/
theorem test_sraiw : rvTest 0b0100000_00100_00110_101_00111_0011011 7 (2 ^ 64 - 1) 0x1004 = true := by decide +kernel
/-- jal x1, +16. -/
theorem test_jal : rvTest 0b0_0000001000_0_00000000_00001_1101111 1 0x1004 0x1010 = true := by decide +kernel
/-- beq x5, x6, +8 is not taken; bltu x5, x6, +8 is. -/
theorem test_beq : rvTest 0b0_000000_00110_00101_000_0100_0_1100011 5 7 0x1004 = true := by decide +kernel
theorem test_bltu : rvTest 0b0_000000_00110_00101_110_0100_0_1100011 5 7 0x1008 = true := by decide +kernel
/-- c.li x8, −1 is two bytes long. -/
theorem test_compressed : rvTest 0b010_1_01000_11111_01 8 (2 ^ 64 - 1) 0x1002 = true := by decide +kernel
/-- ecall from M mode traps with cause 11 and the pc saved. -/
theorem test_ecall : nx (execRiscvInstruction 0 0x73 .fine sRv) (fun t =>
    csrRaw t 0 csrMcause == 11 && csrRaw t 0 csrMepc == 0x1000 && (hartGet t 0).mmode) = true := by decide +kernel
/-- A word of zeros is illegal: cause 2. -/
theorem test_illegal : nx (execRiscvInstruction 0 0 .fine sRv) (fun t => csrRaw t 0 csrMcause == 2) = true := by decide +kernel
/-- R13: the doorbell for ring 5 with producer index 0x0120 is 0x0000_0000_0120_0005. -/
theorem test_little_endian : leAt [5, 0, 0x20, 1, 0, 0, 0, 0] 0 8 = 0x01200005 := by decide

/-! ## States and operands that meet the hypotheses of the statements -/

/-- A small packet, frame, connection and the like, for the witnesses below. -/
def sPkt : Pkt :=
  { data := [], origin := 0, inst := 0, tc := 0, domain := 0, profile := 0, pipe := 0, hash := 0, port := none, octet := none,
    ts := 0, raw := 0, fault := none, poison := false, pass2 := false, node := none, espSeq := 0, hop := none, cth := false,
    tx := none }
def sWalk : Walk :=
  { slots := [], exc := 0, frag := none, esp := none, payload := none, stop := 0, encl := 0, decl := none, ip := none }
def sFrame : GFrame :=
  { pkt := sPkt, cells := [.shared], bad := [], refs := 1, lossless := false, sess := none, slots := [], decl := none,
    actData := 0, exc := 0, tc := 0, place := [0] }
def sEnt : QEnt := { fid := 0, edit := 0, ct := false, bad := false, deep := [] }
def sEsp : Esp := { pkt := sPkt, walk := sWalk, slot := 0, tunnel := false, off := 0, ip := none }
def sScan : Scan := { pkt := sPkt, start := 0, stop := 0, pats := [], res := Res.none, exc := 0 }
/-- A master whose link toward STACK_ID 1 is up, on octet 0; a member, STACK_ID 1, whose link toward the master is up. -/
def sMaster : State :=
  { ((((State.reset.wr R.STK_CFG.EN [] 1).wr R.STK_LINK.EN [1] 1).wr R.ETH_PORT_STATUS.STATE [0, 0] 2).wr R.STK_LINK.STATE [1] 2) with
    eth := { Eth.reset with cfg := [(0, { PortCfg.off with speed := 7 })] } }
def sMember : State :=
  { (((((State.reset.wr R.STK_CFG.EN [] 1).wr R.STK_CFG.STACK_ID [] 1).wr R.STK_LINK.EN [0] 1).wr R.ETH_PORT_STATUS.STATE [0, 0] 2).wr
      R.STK_LINK.STATE [0] 2) with
    eth := { Eth.reset with cfg := [(0, { PortCfg.off with speed := 7 })] } }
/-- A descriptor with opcode `op`, one record, and a ring of type `ty` that holds it at its head. -/
def sDesc (op : Byte) : Bytes := [op, 0, 0, 0, 0, 0, 0, 0, 1] ++ List.replicate 15 0 ++ [255, 255] ++ List.replicate 38 0
def sRing (ty : Nat) (d : Bytes) : State :=
  { (State.reset.wr R.DOM_RING_W0.STATE [0] 2).wr R.DOM_RING_W0.TYPE [0] ty with
    dom := { Dom.reset with rings := [(0, { Ring.none with fetched := [(0, d)] })] },
    hif := { Hif.reset with cfg := [(cfgIx 0 0 1, 4)] } }
/-- The state after the read of one record of `size` bytes for descriptor `d` of ring 0. -/
def sGot (s : State) (d b : Bytes) (size : Nat) : State := (descRead s 0 [(ctrlAddr d, ctrlStride size)] (.ok b)).2
def sConn : Conn := { connNew 0 0 false 0 with st := .active, tier := .onDie }
def sHdr : Bytes := List.replicate 12 0 ++ [8, 0, 0x45, 0, 0, 0, 0, 0, 0, 0, 64, 17, 0, 0] ++ List.replicate 16 0
def sRgn : MemRegion := { inst := 0, dom := 0, base := 0, len := 4096, acc := 7, bind := 0, img := List.replicate 64 0 }
/-- Carter enabled, with connection 1 ACTIVE on a valid path, region 0 of it, and a function that issues requests. -/
def sCar : State :=
  { State.reset.wr R.CAR_CFG.EN [] 1 with
    car := { Car.reset with conns := [(1, sConn)], paths := [(0, [1, 42] ++ List.replicate 62 0 ++ sHdr)],
                            regions := [(0, sRgn)] },
    hif := { Hif.reset with cfg := [(cfgIx 0 0 1, 4)] } }
/-- The same with a packet at the front of Carter's input. -/
def sWire (op flags : Nat) (ext pay : Bytes) : State :=
  { sCar with win := { Win.reset with carter := [{ sPkt with
      data := fillHeaders sHdr (40 + ext.length + pay.length) ++ cthBytes op 0 flags 1 0 0 0 pay.length ++ ext ++ pay }] } }
/-- The same with a descriptor of opcode `op` at the head of SEND ring 0. -/
def sSend (op : Byte) : State :=
  { (sCar.wr R.DOM_RING_W0.STATE [0] 2).wr R.DOM_RING_W0.TYPE [0] 2 with
    dom := { Dom.reset with rings := [(0, { Ring.none with fetched := [(0, sDesc op)] })] } }
/-- A connection with one packet sent and one waiting. -/
def sRec : SendRec := { psn := 0, st := .sent, txn := 1, msg := 0, op := 3, flags := 0, ext := [], len := 0, kept := false, rnr := 0 }
def sSeg : Seg := { op := 3, first := true, last := false, ackReq := false, msg := 0, ext := List.replicate 8 0, pay := [] }
def sWith (c : Conn) : State := { sCar with car := { sCar.car with conns := [(1, c)] } }
/-- A packet that passes, shown by evaluation, with a further test of what it comes to. -/
theorem dataPassed_of {s : State} {op : Nat} {h : Hap} (f : State → Nat → Conn → Pkt → Cth → Nat → Bytes → Bool)
    (k : (match (carHead s op).2 with
      | some (p, x) => (match (rxOpen (carHead s op).1 p x).2 with
        | some (n, c) => (match (rxData (rxOpen (carHead s op).1 p x).1 n c p x h).2 with
          | some (psn, pay) => f (rxData (rxOpen (carHead s op).1 p x).1 n c p x h).1 n c p x psn pay
          | none => false)
        | none => false)
      | none => false) = true) :
    ∃ u n c p x psn pay, DataPassed s op h u n c p x psn pay ∧ f u n c p x psn pay = true := by
  split at k
  · rename_i p x e1
    split at k
    · rename_i n c e2
      split at k
      · rename_i psn pay e3
        exact ⟨_, n, c, p, x, psn, pay, ⟨_, _, Prod.ext rfl e1, Prod.ext rfl e2, Prod.ext rfl e3⟩, k⟩
      · cases k
    · cases k
  · cases k
/-- The same of a control packet. -/
theorem ctlHead_of {s : State} {op : Nat} (f : State → Nat → Conn → Pkt → Cth → Nat → Bool)
    (k : (match (ctlHead s op).2 with
      | some (n, c, p, x, q) => f (ctlHead s op).1 n c p x q
      | none => false) = true) :
    ∃ u n c p x q, ctlHead s op = (u, some (n, c, p, x, q)) ∧ f u n c p x q = true := by
  split at k
  · rename_i n c p x q e1
    exact ⟨_, n, c, p, x, q, Prod.ext rfl e1, k⟩
  · cases k
/-- The value that an option holds, where a test of it passes. -/
theorem held_of {α : Type} {o : Option α} {f : α → Bool} (h : o.any f = true) : ∃ g, o = some g ∧ f g = true :=
  (Option.any_eq_true f o).1 h
/-- What succeeds, read from the option that it leaves. -/
theorem ok_of_toOption {α ε : Type} : ∀ {x : Except ε α} {a : α}, x.toOption = some a → x = .ok a
  | .ok _, _, h => congrArg Except.ok (Option.some.inj h)
/-- The Locksmith and Husk enabled and ready, slots 0 to 15 of domain 0, slot 0 a WRAP key, and a KEY ring whose head is `d`. -/
def sWrap : LckSlot := { LckSlot.none with st := 1, ty := 7, mat := List.replicate 32 0 }
def sLck (m : SMap LckSlot) (d : Bytes) : State :=
  { ((((sRing 4 d).wr R.LCK_CFG.EN [] 1).wr R.LCK_STATUS.READY [] 1).wr R.LCK_STATUS.DRBG_OK [] 1).wr R.HSK_CFG.EN [] 1 with
    lck := { Lck.reset with slots := m, range := [(0, (0, 16))] } }
def sJob : HJob :=
  { req := 6, key := 0, op := 1, dom := 0, slot := 0, src := 0, dst := 0, len := 16, aad := 0, du := 0, param := [], tag := 0,
    reply := 0, cluster := 0, need := [], k1 := [], k2 := [], salt := [], status := 0, stuck := none, esp := none }
def sHsk (l : List HJob) : State := { sLck [] [] with hsk := { Hsk.reset with jobs := l } }
/-- A mailbox queue with one command of bytes `b`, which came from slot 0; domain 1 is valid. -/
def sMb (b : Bytes) : State :=
  { ((State.reset.wr R.DOM_DOMAIN_W0.VALID [1] 1).wr R.DOM_DOMAIN_W2.MAX_INST [1] 8).wr R.DOM_DOMAIN_W3.MAX_RINGS [1] 8 with
    dom := { Dom.reset with queue := [{ slot := some 0, cmd := b }] } }
/-- The same with instance 0 of domain 1, class 1, attach point 0, two vectors, in STATE `st`, and its ring 0 of type `ty` running. -/
def sRun (b : Bytes) (st ty : Nat) (x : Ring) : State :=
  { ((((((((sMb b).wr R.DOM_INST_W0.STATE [0] st).wr R.DOM_INST_W0.CLASS [0] 1).wr R.DOM_INST_W0.DOMAIN [0] 1).wr
        R.DOM_INST_W2.NVEC [0] 2).wr R.DOM_RING_W0.STATE [0] 1).wr R.DOM_RING_W0.TYPE [0] ty).wr R.DOM_RING_W0.SIZE_LOG2 [0] 6).wr
        R.DOM_RINGS.RINGS [] 1 with
    dom := { (sMb b).dom with rings := [(0, x)] }, hif := { Hif.reset with cfg := [(cfgIx 0 1 1, 4)] } }
/-- A tag of attach point 0, function 1; a request of the same function held for the translation of page 1. -/
def sTag (st : TagSt) : Tag := { ap := 0, tag := 0, fn := 1, inst := none, req := .other, len := 64, page := none, st := st }
def sHeld (st : HeldSt) : Held :=
  { ap := 0, fn := 1, inst := none, pasid := none, addr := 4096, len := 64, req := .other, st := st, stale := false }
def sHif (h : Hif) : State := { State.reset with hif := { h with cfg := [(cfgIx 0 1 1, 4)] } }
def sIrq : IrqEnt := { addr := 0, data := 7, valid := true, mask := false, pend := true, ap := 0, func := 1, inst := 0 }
/-- Root port 0 in STATE `st`, in use, with `p` beyond its registers. -/
def sPort (st : Nat) (p : Rp) : State :=
  { (State.reset.wr R.STG_RP_STATUS.STATE [0] st).wr R.STG_RP_CTL.EN [0] 1 with stg := { Stg.reset with ports := [(0, p)] } }
def sLeg : LegOp :=
  { ext := 0, leg := 0, port := some 0, tag := 7, opcode := 2, nsid := 1, lba := 0, blocks := 1, addr := 0, len := 512, fua := false, st := .out }
def sCmd (l : List LegOp) : HCmd :=
  { id := 0, ctrl := 0, sq := some (1, 5), opcode := 2, ns := 0, entry := [], exts := [], slba := 0, blocks := 1, pages := [], stage := 0,
    stageLen := 0, legs := l, waits := [], posted := false, discard := false, bad := none }
def sDrive (l : List LegOp) : State :=
  { sPort 4 Rp.reset with stg := { Stg.reset with ports := [(0, Rp.reset)], cmds := [sCmd l] } }
/-- Function controller 0, ready, with its two admin queues and queue pair 1; entry `b` waits in queue `q`; namespace 1 of one LBA
on a local leg of port 0. -/
def sNs : Bytes := [5, 1, 0, 0, 0, 0, 8, 0, 1] ++ List.replicate 11 0 ++ [1] ++ List.replicate 43 0
def sExt : Bytes := List.replicate 8 0 ++ [1] ++ List.replicate 7 0 ++ [1, 0, 0, 0, 1] ++ List.replicate 43 0
def sSq (q : Nat) : NvSq := { addr := 0, size := 4, head := 0, tail := 1, cq := q }
def sCq (x : Nat) : NvCq := { addr := 4096, size := 4, head := 0, tail := 0, phase := true, iv := 0, ien := false, held := x, wait := [] }
def sCtrl : Ctrl := { Ctrl.reset with cc := 1, rdy := true, sqs := [(0, sSq 0), (1, sSq 1)], cqs := [(0, sCq 0), (1, sCq 1)] }
def sNvme (c : Ctrl) : State :=
  { (State.reset.wr R.STG_CFG.EN [] 1).wr R.STG_STAGE.SIZE [0] 16 with
    hif := { Hif.reset with cfg := [(cfgIx 0 3 1, 4)] },
    stg := { Stg.reset with ctrls := [(0, c)], ns := [(0, sNs)], ext := [(0, sExt)] } }
/-- The state once entry `b` of queue `q` has been taken. -/
def sNvTaken (q : Nat) (b : Bytes) : State :=
  nvTaken (ctlFetch (sNvme sCtrl) 0 [((sSq q).addr + 64 * (sSq q).head, 64)] (.ok b)).2 0 q (sSq q)
/-- A submission queue entry of opcode `op` for namespace 1. -/
def sSqe (op : Byte) (d10 d11 : Bytes) : Bytes := [op, 0, 9, 0, 1] ++ List.replicate 35 0 ++ d10 ++ d11 ++ List.replicate 16 0
/-- Hart 0 runs; its integer register 5 holds 7, channel 7 is enabled for harts. -/
def sHart (x : Hart) : State :=
  { State.reset.wr R.FIL_HART_CTL.STATE [0] 1 with fil := { Fil.reset with harts := [(0, { x with mmode := true, x := [(5, 7)] })] } }
/-- The state once hart `h` has been let issue, and that it is ready then. -/
def sIss (s : State) (h : Nat) : State :=
  dutyTake ((issueTake s h).getD s) (coreOf h) (((issueTake s h).getD s).rd R.REV_THR.FIL_DUTY [])
theorem ready_of {s : State} {h : Nat} (k : (hartRuns s h && (issueTake s h).isSome && !bit (csrRaw (sIss s h) h csrDcsr) 2
    && (intrCause? (sIss s h) h).isNone && (trigHit (sIss s h) h .fetch (hartGet (sIss s h) h).pc).isNone) = true) :
    HartReady s h (sIss s h) := by
  simp only [Bool.and_eq_true, Option.isSome_iff_exists, Option.isNone_iff_eq_none, Bool.not_eq_true'] at k
  obtain ⟨⟨⟨⟨a, v, b⟩, c⟩, d⟩, e⟩ := k
  exact ⟨a, by simp [sIss, b], c, d, e⟩
def sChan : State := (sHart Hart.reset).wr R.FIL_CH_W0.EN [7] 1
def sUnl : State := (sHart Hart.reset).wr R.DBG_UNLOCK_CTL.SCOPE [] 15
def sHalt : State := sUnl.wr R.FIL_HART_CTL.STATE [0] 3
/-- The Reeve firmware runs. -/
def sFw : State := State.reset.wr R.DBG_BOOT.STAGE [] 1
/-- SPDM in phase `p` of version 1.2, session 5 in it established or not, and what else `f` says. -/
def sSess (e : Bool) : Sess :=
  { id := 5, est := e, period := 30, chain := [], peer := none, encap := 1, th := [], hs := [], reqFin := [], rspKey := List.replicate 32 0,
    rspIv := List.replicate 12 0, rspSeq := 0, next := .same }
def sSpdm (p : Nat) (l : List Sess) : State :=
  { sFw with trust := { Trust.reset with spdm := { Spdm.reset with phase := p, ver := 0x12, xfer := 64, sessions := l } } }
def sReq (v p1 p2 : Nat) (id : Option (BitVec 32)) (b : Bytes) : SpdmReq :=
  { sess := id, ver := BitVec.ofNat 8 v, p1 := BitVec.ofNat 8 p1, p2 := BitVec.ofNat 8 p2, body := b }

theorem wit_IdleTick_0 : ∃ (s : State), (s.pending = []) :=
  ⟨State.reset, by decide⟩

theorem wit_IdleTick_1 : ∃ (s : State), (s.pending = []) ∧ (s.pwr.held = []) ∧ (s.grn.await = []) ∧ (∀ e ∈ s.car.conns, e.2.owed = []) ∧ (s.stg.cmds.filter (fun c => c.opcode == 2 && !c.posted && c.legs.all (·.ended)) = []) :=
  ⟨State.reset, by decide⟩

theorem wit_EveryStepKeepsTheInvariant_0 : ∃ (s t : State), (Inv s) ∧ (step s = .next t) :=
  ⟨State.reset, clockTick State.reset, ⟨by decide, by decide, fun n _ => by simp [SMap.get, State.reset, Fil.reset, SMap.find?]⟩, rfl⟩

theorem wit_SleepersWait_0 : ∃ (c : Instr) (s : State), (stopsAsleep c = true) ∧ (asleep s = true) :=
  ⟨.fwReady, State.reset.wr R.PWR_STATUS.STATE [] 2, rfl, by decide⟩

theorem wit_SleepersWait_1 : ∃ (c : Instr) (s : State), (needsFirmware c = true) ∧ (reeveRuns s = false) :=
  ⟨.bootComplete, State.reset, rfl, by decide⟩

theorem wit_HbmReadsBack_0 : ∃ (s : State) (a : Nat) (b : Bytes), (s.hbmWhole = true ∨ ∀ i, i < b.length → s.hbmGone (a + i) = false) :=
  ⟨State.reset, 64, [7, 9], Or.inl (by decide)⟩

theorem wit_HbmReadsBack_1 : ∃ (s : State) (a x : Nat) (b : Bytes), (x < a ∨ a + b.length ≤ x ∨ (s.hbmWhole = false ∧ s.hbmGone x = true)) :=
  ⟨State.reset, 64, 63, [7], Or.inl (by decide)⟩

theorem wit_EventWait_0 : ∃ (h : Fin 512) (rd rs1 : Fin 32) (p : Nat) (s u : State), (HartReady s h.val u) ∧ (xelvOk u h.val 1 = true) ∧ (p = pendingEv u h.val &&& xr u h.val rs1.val) ∧ (p ≠ 0 ∨ xr u h.val rs1.val = 0) :=
  ⟨0, 6, 5, 2, sHart { Hart.reset with ev := 2 }, sIss (sHart { Hart.reset with ev := 2 }) 0, ready_of (by decide), by decide⟩

theorem wit_EventWait_1 : ∃ (h : Fin 512) (rd rs1 : Fin 32) (s u : State), (HartReady s h.val u) ∧ (xelvOk u h.val 1 = true) ∧ (pendingEv u h.val &&& xr u h.val rs1.val = 0) ∧ (xr u h.val rs1.val ≠ 0) :=
  ⟨0, 6, 5, sHart Hart.reset, sIss (sHart Hart.reset) 0, ready_of (by decide), by decide⟩

theorem wit_EventWait_2 : ∃ (h : Fin 512) (m p rd : Nat) (s : State), (hartSt s h.val = hsWait ∧ coreLive s (coreOf h.val) = true) ∧ ((hartGet s h.val).wait = some (m, rd)) ∧ (p = pendingEv s h.val &&& m ∧ p ≠ 0) :=
  ⟨0, 2, 2, 6, (sHart { Hart.reset with ev := 2, wait := some (2, 6) }).wr R.FIL_HART_CTL.STATE [0] 2, by decide⟩

theorem wit_EventWait_3 : ∃ (h : Fin 512) (m rd c : Nat) (s : State), (hartSt s h.val = hsWait ∧ coreLive s (coreOf h.val) = true) ∧ ((hartGet s h.val).wait = some (m, rd) ∧ pendingEv s h.val &&& m = 0) ∧ (intrCause? s h.val = some c) :=
  ⟨0, 2, 6, 16, (sHart { Hart.reset with wait := some (2, 6), wcip := true, csr := [(0x300, 2 * 2 ^ 32 + 8), (0x304, 65536)] }).wr R.FIL_HART_CTL.STATE [0] 2, by decide +kernel⟩

theorem wit_EventWait_4 : ∃ (h : Fin 512) (m rd : Nat) (s : State), ((hartGet s h.val).wait = some (m, rd) ∧ pendingEv s h.val &&& m = 0) ∧ (intrCause? s h.val = none) :=
  ⟨0, 2, 6, (sHart { Hart.reset with wait := some (2, 6) }).wr R.FIL_HART_CTL.STATE [0] 2, by decide⟩

theorem wit_EventWait_5 : ∃ (h : Fin 512) (rd rs1 : Fin 32) (p : Nat) (s u : State), (HartReady s h.val u) ∧ (xelvOk u h.val 1 = true) ∧ (p = pendingEv u h.val &&& xr u h.val rs1.val) :=
  ⟨0, 6, 5, 0, sHart Hart.reset, sIss (sHart Hart.reset) 0, ready_of (by decide), by decide⟩

theorem wit_OutsideEveryWindow_0 : ∃ (m : MDom) (a : Fin 67108864) (s : State), (Awake s) ∧ (Allowed s m) ∧ (blkOf (4 * a.val) = none) ∧ (s.flag R.GLB_ERR.VALID [] = false) :=
  ⟨.owner, 0x200000, State.reset, by decide⟩

theorem wit_OutsideEveryWindow_1 : ∃ (m : MDom) (a : Fin 67108864) (v : BitVec 32) (s : State), (Awake s) ∧ (Allowed s m) ∧ (blkOf (4 * a.val) = none) ∧ (s.flag R.GLB_ERR.VALID [] = false) :=
  ⟨.owner, 0x200000, 7, State.reset, by decide⟩

theorem wit_HartInterrupts_1 : ∃ (s : State) (h c : Nat), (intrCause? s h = some c) :=
  ⟨sHart { Hart.reset with wcip := true, csr := [(0x300, 2 * 2 ^ 32 + 8), (0x304, 65536)] }, 0, 16, by decide⟩

theorem wit_HartInterrupts_2 : ∃ (h : Fin 512) (w : BitVec 32) (x : RvHap) (c : Nat) (s u : State), (hartRuns s h.val = true) ∧ ((issueTake s h.val).map (fun v => dutyTake v (coreOf h.val) (v.rd R.REV_THR.FIL_DUTY [])) = some u) ∧ (bit (csrRaw u h.val csrDcsr) 2 = false) ∧ (intrCause? u h.val = some c) :=
  ⟨0, 0x13, .fine, 16, sHart { Hart.reset with wcip := true, csr := [(0x300, 2 * 2 ^ 32 + 8), (0x304, 65536)] }, sIss (sHart { Hart.reset with wcip := true, csr := [(0x300, 2 * 2 ^ 32 + 8), (0x304, 65536)] }) 0, by decide, rfl, by decide +kernel⟩

theorem wit_HartInterrupts_3 : ∃ (m : MDom) (h : Fin 512) (a : Fin 67108864) (v : BitVec 32) (s : State), (Awake s) ∧ (Allowed s m) ∧ (4 * a.val = 0x0C004004 + 16 * h.val) :=
  ⟨.reeve, 0, 0x3001001, 4, State.reset, by decide⟩

theorem wit_HartInterrupts_4 : ∃ (h : Fin 512) (v : Fin 256) (s : State), (Awake s) :=
  ⟨0, 4, State.reset, by decide⟩

theorem wit_RegisterAccess_0 : ∃ (m : MDom) (w : BitVec 32) (s : State), (Awake s) ∧ (Allowed s m) ∧ (s.flag R.REV_CFG.LOCK [] = false) :=
  ⟨.reeve, 0x80040803, State.reset, by decide⟩

theorem wit_RegisterAccess_1 : ∃ (m : MDom) (w : BitVec 32) (s : State), (Awake s) ∧ (Allowed s m) ∧ (s.flag R.REV_CFG.LOCK [] = true) ∧ (s.rd R.REV_CFG.AVS_EN [] ≠ bits w.toNat 18 1) ∧ (s.flag R.GLB_ERR.VALID [] = false) :=
  ⟨.owner, 3, State.reset.wr R.REV_CFG.LOCK [] 1, by decide⟩

theorem wit_RegisterAccess_2 : ∃ (a : Fin 67108864) (be : BitVec 4) (v : BitVec 32) (s : State), (Awake s) ∧ (be ≠ 15) :=
  ⟨0, 3, 7, State.reset, by decide⟩

theorem wit_RegisterAccess_3 : ∃ (m : MDom) (a : Fin 67108864) (v : BitVec 32) (s : State), (Awake s) ∧ (Allowed s m) ∧ (blkOf (4 * a.val) = none ∧ rpWindow (4 * a.val) = none ∧ bankOff s (4 * a.val) = false) :=
  ⟨.owner, 0x200000, 7, State.reset, by decide⟩

theorem wit_RegisterAccess_4 : ∃ (m : MDom) (s : State), (Awake s) ∧ (Allowed s m) :=
  ⟨.owner, State.reset, by decide⟩

theorem wit_RegisterAccess_5 : ∃ (m : MDom) (n : Fin 16) (a : Fin 67108864) (s : State), (Awake s) ∧ (Allowed s m) ∧ (a.val = 0xC2000 + 2 * n.val) :=
  ⟨.reeve, 3, 0xC2006, State.reset, by decide⟩

theorem wit_RegisterAccess_6 : ∃ (m : MDom) (s : State), (Awake s) ∧ (Allowed s m) ∧ (bankOff s 0x20 = false) :=
  ⟨.owner, State.reset, by decide⟩

theorem wit_DbgregAccess_0 : ∃ (w : Fin 2048) (v : Nat) (s u : State), (bellman s = false ∧ s.pwr.dark = false) ∧ (dbgReaches s w.val = true) ∧ (wordRead s .debug (0x0F000000 + 4 * w.val) = (v, u)) :=
  ⟨4, _, State.reset, _, by decide, by decide, rfl⟩

theorem wit_DbgregAccess_1 : ∃ (w : Fin 2048) (s : State), (bellman s = false ∧ s.pwr.dark = false) ∧ (dbgReaches s w.val = false) :=
  ⟨100, State.reset, by decide⟩

theorem wit_DbgregAccess_2 : ∃ (w : Fin 2048) (v : BitVec 32) (s : State), (bellman s = false ∧ s.pwr.dark = false) ∧ (dbgReaches s w.val = false) :=
  ⟨100, 7, State.reset, by decide⟩

theorem wit_DbgregAccess_3 : ∃ (w : Fin 2048) (v : BitVec 32) (s u : State), (bellman s = false ∧ s.pwr.dark = false) ∧ (dbgReaches s w.val = true) ∧ (u = wordWrite s .debug (0x0F000000 + 4 * w.val) v.toNat) :=
  ⟨1030, 7, State.reset, _, by decide, by decide, rfl⟩

theorem wit_DbgregAccess_4 : ∃ (w : Fin 2048) (s : State), (bellman s = true ∧ s.pwr.dark = false) :=
  ⟨100, { State.reset with rev := { Rev.reset with inControl := some 1 } }, by decide⟩

theorem wit_PowerStates_0 : ∃ (s : State), (s.pwr.dark = false) ∧ (s.flag R.CLK_STATUS.ON_OSC [] = false) :=
  ⟨State.reset, by decide⟩

theorem wit_PowerStates_1 : ∃ (s : State), (s.pwr.dark = false) ∧ (bellman s = false) ∧ (s.flag R.CLK_STATUS.ON_OSC [] = true) ∧ (s.pwr.clkGated = false) :=
  ⟨State.reset.wr R.CLK_STATUS.ON_OSC [] 1, by decide⟩

theorem wit_PowerStates_2 : ∃ (s : State), (s.pwr.dark = false) ∧ (s.flag R.CLK_STATUS.ON_OSC [] = true) :=
  ⟨State.reset.wr R.CLK_STATUS.ON_OSC [] 1, by decide⟩

theorem wit_PowerStates_3 : ∃ (s : State), (s.pwr.dark = false) ∧ (s.flag R.CLK_STATUS.ROOT_LOCK [] = true) :=
  ⟨State.reset.wr R.CLK_STATUS.ROOT_LOCK [] 1, by decide⟩

theorem wit_PowerStates_4 : ∃ (m : MDom) (s : State), (Awake s) ∧ (Allowed s m) ∧ (s.flag R.PWR_STATUS.BUSY [] = false) ∧ (pwrSt s = psTrimmed) :=
  ⟨.owner, State.reset.wr R.PWR_STATUS.STATE [] 1, by decide⟩

theorem wit_PowerStates_5 : ∃ (m : MDom) (s : State), (Awake s) ∧ (Allowed s m) ∧ (s.flag R.PWR_STATUS.BUSY [] = false) ∧ (pwrSt s = psActive) :=
  ⟨.owner, State.reset, by decide⟩

theorem wit_PowerStates_6 : ∃ (m : MDom) (s : State), (Awake s) ∧ (Allowed s m) ∧ (s.flag R.PWR_STATUS.BUSY [] = false) ∧ (pwrSt s ≤ psTrimmed) :=
  ⟨.owner, State.reset, by decide⟩

theorem wit_PowerStates_7 : ∃ (m : MDom) (s : State), (Awake s) ∧ (Allowed s m) ∧ (s.flag R.PWR_STATUS.BUSY [] = false) ∧ (pwrSt s ≤ psTrimmed) :=
  ⟨.owner, State.reset, by decide⟩

theorem wit_PowerStates_8 : ∃ (m : MDom) (w : Fin 5) (v : BitVec 32) (s : State), (Awake s) ∧ (Allowed s m) ∧ (pwrSt s = psActive) ∧ (s.flag R.PWR_CTL.LOCK [] = false) ∧ (w.val < 4) :=
  ⟨.owner, 0, 5, State.reset, by decide⟩

theorem wit_PowerStates_9 : ∃ (s : State), (poweredOff s = false) ∧ (s.pwr.phase = .entering ∨ (s.pwr.phase = .waiting ∧ dormantFails s = 0)) :=
  ⟨{ State.reset with pwr := { State.reset.pwr with phase := .entering } }, by decide⟩

theorem wit_PowerStates_10 : ∃ (s u : State), (poweredOff s = false) ∧ (s.pwr.phase = .waiting) ∧ (u = clockTo s (s.pwr.dormAt + max 1 (s.rd R.PWR_DORM_WAIT.WAIT []) * 10000000)) :=
  ⟨{ State.reset with pwr := { State.reset.pwr with phase := .waiting } }, _, by decide, by decide, rfl⟩

theorem wit_PowerStates_11 : ∃ (s : State), (bellman s = false) ∧ (s.pwr.dark = false) ∧ (pwrSt s = psDormant) ∧ (s.flag R.PWR_WAKE.TIMER_EN [] = true) :=
  ⟨(State.reset.wr R.PWR_STATUS.STATE [] 2).wr R.PWR_WAKE.TIMER_EN [] 1, by decide⟩

theorem wit_PowerStates_12 : ∃ (d : Fin 156) (s : State), (Awake s) ∧ (pwrSt s = psTrimmed) ∧ (heldBit s d.val = true) ∧ (gateCond s d.val = true) :=
  ⟨154, (State.reset.wr R.PWR_STATUS.STATE [] 1).wr R.PWR_DOM_HELD.HELD [4] (2 ^ 26) |>.wr R.PWR_TRIM.TRIM [4] 0, by decide⟩

theorem wit_Resets_1 : ∃ (s : State), (s.pwr.dark = false) :=
  ⟨State.reset, by decide⟩

theorem wit_Resets_2 : ∃ (m : MDom) (s : State), (Awake s) ∧ (Allowed s m) :=
  ⟨.owner, State.reset, by decide⟩

theorem wit_Resets_3 : ∃ (m : MDom) (s : State), (Awake s) ∧ (Allowed s m) :=
  ⟨.owner, State.reset, by decide⟩

theorem wit_Resets_5 : ∃ (m : MDom) (u : Fin 64) (s : State), (Awake s) ∧ (Allowed s m) ∧ (u.val < 16) ∧ (domOn s (96 + u.val) = true) :=
  ⟨.owner, 0, State.reset, by decide⟩

theorem wit_Resets_6 : ∃ (m : MDom) (u : Fin 64) (s : State), (Awake s) ∧ (Allowed s m) ∧ (u.val < 16) ∧ (domOn s (112 + u.val) = true) :=
  ⟨.owner, 0, State.reset, by decide⟩

theorem wit_Resets_7 : ∃ (m : MDom) (u : Fin 64) (s : State), (Awake s) ∧ (Allowed s m) ∧ (u.val < 32) ∧ (domOn s (64 + u.val) = true) :=
  ⟨.owner, 0, State.reset, by decide⟩

theorem wit_Resets_8 : ∃ (m : MDom) (u : Fin 64) (s : State), (Awake s) ∧ (Allowed s m) ∧ (domOn s u.val = true) :=
  ⟨.owner, 0, State.reset, by decide⟩

theorem wit_Resets_9 : ∃ (m : MDom) (u : Fin 64) (s : State), (Awake s) ∧ (Allowed s m) ∧ (u.val < 16) ∧ (domOn s (148 + u.val / 4) = true) ∧ (rpSt (s.inc R.PWR_CNT.COUNT [8]) u.val ≠ rsRetired) ∧ ((rpOff (s.inc R.PWR_CNT.COUNT [8]) u.val).flag R.STG_RP_CTL.AUTO_ON [u.val] = false) :=
  ⟨.owner, 0, State.reset.wr R.STG_RP_CTL.AUTO_ON [0] 0, by decide⟩

theorem wit_Resets_10 : ∃ (m : MDom) (u : Fin 64) (s : State), (Awake s) ∧ (Allowed s m) ∧ (u.val < 2) ∧ (domOn s (152 + u.val) = true) :=
  ⟨.owner, 0, State.reset, by decide⟩

theorem wit_EthLinks_0 : ∃ (p : Fin 128) (c : Loss) (s : State), (Awake s) ∧ (portState s p.val = epUp) ∧ (c = .localFault ∨ c = .remoteFault ∨ c = .alignment ∨ c = .symbolErrors) :=
  ⟨0, .localFault, (State.reset.wr R.ETH_PORT_STATUS.STATE [0, 0] 2).wr R.ETH_PORT_HOLD.HOLD [0, 0] 5, by decide⟩

theorem wit_EthLinks_1 : ∃ (p : Fin 128) (l : Nat) (s : State), (Awake s) ∧ (portState s p.val = epUp) ∧ ((portLanes s p.val).contains l = true) :=
  ⟨0, 0, ({ State.reset with eth := { State.reset.eth with cfg := [(0, { PortCfg.off with en := true, lanes := 1 })] } }).wr R.ETH_PORT_STATUS.STATE [0, 0] 2, by decide⟩

theorem wit_EthLinks_2 : ∃ (p : Fin 128) (s : State), (Awake s) ∧ (portState s p.val = epHold) :=
  ⟨0, State.reset.wr R.ETH_PORT_STATUS.STATE [0, 0] 3, by decide⟩

theorem wit_EthLinks_3 : ∃ (p : Fin 128) (s : State), (Awake s) ∧ (portState s p.val ≠ epDisabled) ∧ (portState s p.val ≠ epUp) ∧ (isSahrov s (p.val / 8) = false) ∧ (lanesLocked s p.val = true) ∧ (s.flag R.ETH_PORT_STATUS.LANE_RETIRED [p.val / 8, p.val % 8] = false) :=
  ⟨0, (({ State.reset with eth := { State.reset.eth with cfg := [(0, { PortCfg.off with en := true, lanes := 1 })] } }).wr R.ETH_PORT_STATUS.STATE [0, 0] 4).wr R.ETH_LANE_STATUS.CDR_LOCK [0, 0] 1, by decide⟩

theorem wit_EthLinks_4 : ∃ (p : Fin 128) (s : State), (Awake s) ∧ (portState s p.val = epTraining) ∧ ((portCfg s p.val).train = true) :=
  ⟨0, ({ State.reset with eth := { State.reset.eth with cfg := [(0, { PortCfg.off with train := true })] } }).wr R.ETH_PORT_STATUS.STATE [0, 0] 1, by decide⟩

theorem wit_EthLinks_5 : ∃ (p : Fin 128) (s : State), (Awake s) ∧ (s.rd R.ETH_PORT_STATUS.VERIFY [p.val / 8, p.val % 8] = 1) :=
  ⟨0, State.reset.wr R.ETH_PORT_STATUS.VERIFY [0, 0] 1, by decide⟩

theorem wit_EthLinks_6 : ∃ (x : Fin 128) (b : Bool) (s : State), (Awake s) ∧ (s.flag R.ETH_LANE_STATUS.CDR_LOCK [x.val / 8, x.val % 8] = true) ∧ (laneOwner s (x.val / 8) (x.val % 8) = none) :=
  ⟨0, false, State.reset.wr R.ETH_LANE_STATUS.CDR_LOCK [0, 0] 1, by decide⟩

theorem wit_EthLinks_7 : ∃ (x : Fin 128) (p : Nat) (s : State), (Awake s) ∧ (s.flag R.ETH_LANE_STATUS.CDR_LOCK [x.val / 8, x.val % 8] = true) ∧ (laneOwner s (x.val / 8) (x.val % 8) = some p) :=
  ⟨0, 0, ({ State.reset with eth := { State.reset.eth with cfg := [(0, { PortCfg.off with en := true, lanes := 1 })] } }).wr R.ETH_LANE_STATUS.CDR_LOCK [0, 0] 1, by decide⟩

theorem wit_EthLinks_8 : ∃ (x : Fin 128) (c n : Nat) (p : Nat) (s : State), (Awake s) ∧ (laneOwner s (x.val / 8) (x.val % 8) = some p) ∧ (n < 16) :=
  ⟨0, 1, 15, 0, { State.reset with eth := { State.reset.eth with cfg := [(0, { PortCfg.off with en := true, lanes := 1 })] } }, by decide⟩

theorem wit_EthLinks_9 : ∃ (x : Fin 128) (s : State), (Awake s) ∧ (laneRetired s (x.val / 8) (x.val % 8) = false) :=
  ⟨0, State.reset, by decide⟩

theorem wit_EthLinks_10 : ∃ (o : Fin 16) (s : State), (Awake s) ∧ (isSahrov s o.val = false) ∧ (((List.range 8).find? (fun k => s.flag R.ETH_PORT_CFG.EN [o.val, k] && !portOk s o.val k)) = none) :=
  ⟨0, State.reset, by decide⟩

theorem wit_EthLinks_11 : ∃ (x : Fin 128) (s : State), (Awake s) :=
  ⟨0, State.reset, by decide⟩

theorem wit_EthLinks_12 : ∃ (p : Fin 128) (s : State) (f : Bytes) (cut : Bool) (n : Fin 4) (k : Option (Fin 4)), (Awake s) ∧ (isSahrov s (p.val / 8) = false) ∧ (portState s p.val = epUp) ∧ (s.pwr.exitAt ≤ s.now) ∧ (s.pwr.held = []) :=
  ⟨0, ({ State.reset with eth := { State.reset.eth with cfg := [(0, { PortCfg.off with en := true, pfc := true })] } }).wr R.ETH_PORT_STATUS.STATE [0, 0] 2, [], false, 0, none, by decide⟩

theorem wit_EthLinks_13 : ∃ (p : Fin 128) (s : State) (f : Bytes) (cut : Bool), (Awake s) ∧ (portState s p.val = epUp) ∧ (s.now < s.pwr.exitAt) :=
  ⟨0, { ({ State.reset with eth := { State.reset.eth with cfg := [(0, { PortCfg.off with en := true, pfc := true })] } }).wr R.ETH_PORT_STATUS.STATE [0, 0] 2 with pwr := { State.reset.pwr with exitAt := 5 } }, [], false, by decide⟩

theorem wit_EthLinks_14 : ∃ (p : Fin 128) (pri : Fin 8) (s : State), (Awake s) ∧ (xoff s p.val pri.val = true) ∧ ((portCfg s p.val).pfc = true) ∧ ((portCfg s p.val).pause = false) :=
  ⟨0, 0, (({ State.reset with eth := { State.reset.eth with cfg := [(0, { PortCfg.off with en := true, pfc := true })] } }).wr R.ETH_PORT_STATUS.STATE [0, 0] 2).wr R.GRN_IN_CFG_W1.XOFF_STATE [0] 1, by decide⟩

theorem wit_EthLinks_15 : ∃ (p : Fin 128) (st go : BitVec 8) (s : State), (Awake s) ∧ (isSahrov s (p.val / 8) = false) ∧ (portState s p.val = epUp) ∧ ((portCfg s p.val).pfc = true) :=
  ⟨0, 1, 0, ({ State.reset with eth := { State.reset.eth with cfg := [(0, { PortCfg.off with en := true, pfc := true })] } }).wr R.ETH_PORT_STATUS.STATE [0, 0] 2, by decide⟩

theorem wit_EthLinks_16 : ∃ (p : Fin 128) (pri : Fin 8) (s : State), (Awake s) ∧ ((portCfg s p.val).pause = false) :=
  ⟨0, 1, State.reset, by decide⟩

theorem wit_PacketPath_0 : ∃ (p : Fin 16) (err : Option (Fin 4)) (s : State) (w : Wait) (r : List Wait), (Awake s) ∧ (SMap.get [] s.win.wait p.val = w :: r) :=
  ⟨0, none, { State.reset with win := { State.reset.win with wait := [(0, [⟨sPkt, sWalk, .start, Res.none⟩])] } }, ⟨sPkt, sWalk, .start, Res.none⟩, [], by decide⟩

theorem wit_PacketPath_1 : ∃ (p : Fin 16) (s : State) (x : Pkt) (l : List Pkt), (Awake s) ∧ ((SMap.get [] s.win.wait p.val).length < 2048) ∧ (SMap.get [] s.win.inq p.val = x :: l) ∧ (xoff s (128 + p.val) (x.tc % 8) = false) ∧ (x.tx = none) :=
  ⟨0, { State.reset with win := { State.reset.win with inq := [(0, [sPkt])] } }, sPkt, [], by decide⟩

theorem wit_PacketPath_2 : ∃ (s : State) (e : Esp) (st : Nat) (b : Bytes) (r : List (Esp × Nat × Bytes)), (Awake s) ∧ (s.win.espDone = (e, st, b) :: r) :=
  ⟨{ State.reset with win := { State.reset.win with espDone := [(sEsp, 0, [])] } }, sEsp, 0, [], [], by decide⟩

theorem wit_PacketPath_3 : ∃ (e : Fin 2) (s : State) (j : Scan) (r : List Scan), (Awake s) ∧ ((if e = 0 then s.win.scan0 else s.win.scan1) = j :: r) :=
  ⟨0, { State.reset with win := { State.reset.win with scan0 := [sScan] } }, sScan, [], by decide⟩

theorem wit_PacketPath_4 : ∃ (s : State), (Awake s) :=
  ⟨State.reset, by decide⟩

theorem wit_PacketPath_5 : ∃ (i : Fin 64) (s : State), (Awake s) ∧ (s.flag R.WIN_TBL.EN [i.val] = false) ∧ (tblPlaced s i.val = true) :=
  ⟨0, State.reset.wr R.WIN_TBL.LOG2_BUCKETS [0] 2, by decide⟩

theorem wit_PacketPath_6 : ∃ (i : Fin 64) (s : State), (Awake s) ∧ (s.flag R.WIN_TBL.EN [i.val] = true) :=
  ⟨0, State.reset.wr R.WIN_TBL.EN [0] 1, by decide⟩

theorem wit_PacketPath_7 : ∃ (i : Fin 64) (s : State), (Awake s) ∧ (s.flag R.WIN_TBL.EN [i.val] = true) :=
  ⟨0, State.reset.wr R.WIN_TBL.EN [0] 1, by decide⟩

theorem wit_EgressPoint_0 : ∃ (e : Fin 136) (s : State), (Awake s) ∧ (SMap.find? s.tly.sel e.val = none) :=
  ⟨0, State.reset, by decide⟩

theorem wit_EgressPoint_1 : ∃ (e : Fin 136) (s : State) (x : Sel), (Awake s) ∧ (SMap.find? s.tly.sel e.val = some x) ∧ (((queueList s x.q).head?.map (·.ct)).getD false = false) ∧ (displaced s e.val x = true) ∧ (gateDeferred (s.inc R.TLY_EP_CNT.COUNT [e.val, 2]) e.val x = false) :=
  ⟨0, { State.reset with grn := { State.reset.grn with q := [(0, [sEnt])], frames := [(0, sFrame)] }, tly := { State.reset.tly with sel := [(0, ⟨0, [], []⟩)] } }, ⟨0, [], []⟩, by decide⟩

theorem wit_EgressPoint_2 : ∃ (e : Fin 136) (under : Bool) (s v : State) (x : Sel) (y : QEnt) (r : List QEnt), (Awake s) ∧ (SMap.find? s.tly.sel e.val = some x) ∧ (queueList s x.q = y :: r) ∧ (epReady s e.val = true) ∧ (y.ct = true ∨ selElig s e.val x = true) ∧ (SMap.find? s.eth.tx e.val = none) ∧ (egressDrop s e.val (gframe s y.fid) y (edited s y) = false) ∧ (v = startFrame s e.val x y r (edited s y)) :=
  ⟨128, false, ({ State.reset with grn := { State.reset.grn with q := [(0, [sEnt])], frames := [(0, sFrame)] }, tly := { State.reset.tly with sel := [(128, ⟨0, [], []⟩)] } }).wr R.HIF_AP_LINK.LINK_UP [0] 1, _, ⟨0, [], []⟩, sEnt, [], by decide, by decide, by decide, by decide, by decide, by decide, by decide, rfl⟩

theorem wit_EgressPoint_3 : ∃ (s : State), (Awake s) :=
  ⟨State.reset, by decide⟩

theorem wit_EgressPoint_4 : ∃ (e : Fin 128) (b : Bool) (s : State) (o : Oper), (Awake s) ∧ (SMap.find? s.tly.oper e.val = some o) ∧ (s.flag R.TLY_GATE.EN [e.val] = true) ∧ (b = true ∨ s.rd R.TLY_GATE_OPER.OPER_INDEX [e.val] + 1 < o.len) :=
  ⟨0, true, ({ State.reset with tly := { State.reset.tly with oper := [(0, ⟨1, 0, 1000⟩)] } }).wr R.TLY_GATE.EN [0] 1, ⟨1, 0, 1000⟩, by decide⟩

theorem wit_EgressPoint_5 : ∃ (e : Fin 128) (s : State), (Awake s) ∧ (s.flag R.TLY_GATE.PENDING [e.val] = false) ∧ (gateCheck s e.val = 0) :=
  ⟨0, (((State.reset.wr R.TLY_GATE_LEN.ADMIN_LEN [0] 1).wr R.TLY_GATE_CYCLE.CYCLE_NS [0] 1000).wr R.TLY_GATE.EN [0] 1) |> fun s => { s with tly := { s.tly with gate := [((0 * 2 + 1) * 1024, [0, 255, 0, 0, 100, 0, 0, 0])] } }, by decide⟩

theorem wit_EgressPoint_6 : ∃ (e : Fin 128) (s : State) (o : Oper), (Awake s) ∧ (SMap.find? s.tly.pendOper e.val = some o) ∧ (s.flag R.TLY_GATE.PENDING [e.val] = true) :=
  ⟨0, ({ State.reset with tly := { State.reset.tly with pendOper := [(0, ⟨1, 0, 1000⟩)] } }).wr R.TLY_GATE.PENDING [0] 1, ⟨1, 0, 1000⟩, by decide⟩

theorem wit_EgressPoint_7 : ∃ (e : Fin 128) (s : State), (Awake s) :=
  ⟨0, State.reset, by decide⟩

theorem wit_GranaryCells_0 : ∃ (n : Nat) (s : State) (x : FlushEnt) (r : List FlushEnt), (Awake s) ∧ (s.grn.flush = x :: r) ∧ (x.left ≠ 0) :=
  ⟨0, { State.reset with grn := { State.reset.grn with flush := [⟨0, 0, 0, 1⟩], frames := [(0, sFrame)] } }, ⟨0, 0, 0, 1⟩, [], by decide⟩

theorem wit_GranaryCells_1 : ∃ (en : Bool) (s : State), (Awake s) ∧ (s.flag R.GRN_CFG.EN [] = !en) ∧ (grnCheck s = 0) ∧ (cellsInUse s = 0) :=
  ⟨true, State.reset, by decide⟩

theorem wit_GranaryCells_2 : ∃ (i : Fin 64) (v : BitVec 20) (s : State), (Awake s) ∧ (reserveSum (s.wr R.GRN_QPROF_W0.MIN [i.val] v.toNat) s.grn.qmap ≤ s.rd R.GRN_POOL.RESERVE [] ∨ s.flag R.GRN_CFG.EN [] = false) :=
  ⟨0, 5, State.reset, by decide⟩

theorem wit_GranaryCells_3 : ∃ (i : Fin 144) (pri : BitVec 8) (f : Fin 16) (j : Fin 16) (v : BitVec 20) (s : State), (Awake s) ∧ (headroomSum ((s.wr R.GRN_IN_CFG_W0.LOSSLESS_PRI [i.val] pri.toNat).wr R.GRN_IN_CFG_W0.PFC_PROF [i.val] f.val) ≤ s.rd R.GRN_POOL_HR.HEADROOM []) ∧ (headroomSum (s.wr R.GRN_PFC_PROF_W2.HEADROOM [j.val] v.toNat) ≤ s.rd R.GRN_POOL_HR.HEADROOM []) :=
  ⟨0, 0, 0, 0, 5, State.reset, by decide⟩

theorem wit_GranaryCells_4 : ∃ (q : Fin 65536) (errs : BitVec 64) (s : State) (x : QEnt) (r : List QEnt) (pf ep : Nat), (Awake s) ∧ (deepList s q.val = x :: r) ∧ (queueProf s q.val = some pf) ∧ (queueEp s q.val = some ep) ∧ (qCells s q.val * 2 < s.rd R.GRN_QPROF_W2.SPILL_THRESH [pf]) ∧ (sharedFree s ≠ 0) ∧ (s.flag R.GRN_CFG.EN [] = true) ∧ (s.grn.await.contains (q.val, x.fid) = false) :=
  ⟨0, 0, { (((State.reset.wr R.GRN_QPROF_W2.SPILL_THRESH [0] 1)).wr R.GRN_CFG.EN [] 1) with
    grn := { State.reset.grn with deep := [(0, [sEnt])], qmap := [(0, 128)], frames := [(0, sFrame)] },
    tly := { State.reset.tly with queues := [(0, { Member.none with valid := true, root := true })] } }, sEnt, [], 0, 0, by decide⟩

theorem wit_GranaryCells_5 : ∃ (s u : State) (w : McWait) (l : List McWait) (m : Nat × Nat × Nat) (ms : List (Nat × Nat × Nat)) (q pf ep : Nat), (Awake s) ∧ (s.grn.mc = w :: l) ∧ (w.members = m :: ms) ∧ (q = leAt (mcMember s m.1) 0 2) ∧ (queueProf s q = some pf) ∧ (queueEp s q = some ep) ∧ ((bit (byteAt (mcMember s m.1) 4) 0 && ep == (gframe s w.fid).pkt.origin) = false) ∧ (s.flag R.GRN_QPROF_W0.LONG_HAUL [pf] = false) ∧ (u = { s with grn := { s.grn with mc := if ms.isEmpty then l else { w with members := ms } :: l } }) :=
  ⟨{ State.reset with grn := { State.reset.grn with qmap := [(0, 128)], frames := [(0, sFrame)], mc := [⟨0, 0, [(0, 0, 0)]⟩] }, tly := { State.reset.tly with queues := [(0, { Member.none with valid := true, root := true })] } }, _, ⟨0, 0, [(0, 0, 0)]⟩, [], (0, 0, 0), [], 0, 0, 0, by decide, by decide, by decide, by decide, by decide, by decide, by decide, by decide, rfl⟩

theorem wit_GranaryCells_6 : ∃ (s : State) (d : Deliv) (r : List Deliv), (Awake s) ∧ (s.grn.deliv = d :: r) :=
  ⟨{ State.reset with grn := { State.reset.grn with deliv := [⟨0, 0, 0, 0, Res.none, 0, 0, 0, []⟩], frames := [(0, sFrame)] } }, ⟨0, 0, 0, 0, Res.none, 0, 0, 0, []⟩, [], by decide⟩

theorem wit_GranaryCells_7 : ∃ (g : Fin 8) (p : Fin 4) (row : Fin 16384) (s : State) (c : Nat), (Awake s) ∧ (c = (4 * g.val + p.val) * 16384 + row.val) :=
  ⟨0, 0, 0, State.reset, 0, by decide⟩

theorem wit_SahrovUnits_0 : ∃ (j : Fin 4) (u : Bytes) (s : State), (Awake s) ∧ (linkUp s j.val = true) ∧ (byteAt u 0 % 16 = 0) ∧ (unitFault u = none) ∧ (byteAt u 1 / 16 % 4 = ownId s) ∧ (beAt u 2 2 = (stkLink s j.val).rxSeq) :=
  by
    refine ⟨1, unitBytes [0x10, 0, 0, 0, 0, 0, 0, 0, 0, 0, 0, 0, 0, 64, 255] (List.replicate 64 0) 0, sMaster, ?_⟩
    decide

theorem wit_SahrovUnits_1 : ∃ (j : Fin 4) (c : Nat) (b : Bytes) (s : State), (Awake s) ∧ (linkUp s j.val = true) ∧ (sendable (stkLink s j.val) (stkLink s j.val).sendq [] = some (c, b)) ∧ (c < 8) ∧ (replayBytes (stkLink s j.val) + (unitBytes (b.take 15) (b.drop 16) (stkLink s j.val).txSeq).length ≤ 524288) :=
  ⟨1, 0, [], { sMaster with stk := { sMaster.stk with links := [(1, { Link.reset with sendq := [(0, [])], limit := [(0, 8)] })] } }, by decide⟩

theorem wit_SahrovUnits_2 : ∃ (j : Fin 4) (s : State), (Awake s) ∧ (linkUp s j.val = true) ∧ ((stkLink s j.val).replay ≠ []) ∧ ((stkLink s j.val).replay.any (fun x => decide (x.tries ≥ 8)) = false) :=
  ⟨1, { sMaster with stk := { sMaster.stk with links := [(1, { Link.reset with replay := [⟨0, 0, [], 0⟩] })] } }, by decide⟩

theorem wit_SahrovUnits_3 : ∃ (j : Fin 4) (s : State), (Awake s) ∧ (linkUp s j.val = true) ∧ ((stkLink s j.val).acked ≠ (stkLink s j.val).rxSeq) :=
  ⟨1, { sMaster with stk := { sMaster.stk with links := [(1, { Link.reset with rxSeq := 1 })] } }, by decide⟩

theorem wit_SahrovUnits_4 : ∃ (j : Fin 4) (q : BitVec 16) (s : State), (Awake s) ∧ (linkHears s j.val = true) :=
  ⟨1, 0, sMaster, by decide⟩

theorem wit_SahrovUnits_5 : ∃ (j : Fin 4) (c : Fin 8) (lim : BitVec 32) (s : State), (Awake s) ∧ (linkHears s j.val = true) :=
  ⟨1, 0, 5, sMaster, by decide⟩

theorem wit_StackControl_0 : ∃ (j : Fin 4) (l : BitVec 8) (s : State), (Awake s) ∧ (linkHears s j.val = true) ∧ (s.flag R.STK_CFG.EN [] = true) ∧ (s.flag R.STK_LINK.EN [j.val] = true) ∧ (j.val ≠ ownId s) ∧ (linkState s j.val ≠ lkDup) ∧ (linkState s j.val ≠ lkLost) :=
  ⟨1, 4, sMaster.wr R.STK_LINK.STATE [1] 1, by decide⟩

theorem wit_StackControl_1 : ∃ (j : Fin 4) (b : BitVec 32) (x : Bool) (s : State), (Awake s) ∧ (linkHears s j.val = true) :=
  ⟨1, 5, false, sMaster, by decide⟩

theorem wit_StackControl_2 : ∃ (s : State), (Awake s) :=
  ⟨sMaster, by decide⟩

theorem wit_StackControl_3 : ∃ (j : Fin 4) (s : State), (Awake s) ∧ (s.flag R.STK_CFG.EN [] = true) ∧ (s.flag R.STK_LINK.EN [j.val] = true) ∧ (j.val ≠ ownId s) ∧ (linkState s j.val ≠ 0) :=
  ⟨1, sMaster, by decide⟩

theorem wit_StackControl_4 : ∃ (s : State), (Awake s) ∧ (stkTime s = true) ∧ (linkUp s 0 = true) :=
  ⟨sMember.wr R.TU_SERVO.SRC [] 2, by decide⟩

theorem wit_StackControl_5 : ∃ (q : BitVec 16) (sec : BitVec 48) (ns : BitVec 30) (f : BitVec 16) (s : State), (Awake s) ∧ (stkTime s = true) ∧ (linkUp s 0 = true) :=
  ⟨0, 0, 0, 0, sMember.wr R.TU_SERVO.SRC [] 2, by decide⟩

theorem wit_StackControl_6 : ∃ (q : BitVec 16) (sec : BitVec 48) (ns : BitVec 30) (f : BitVec 16) (s : State) (a b : Nat), (Awake s) ∧ (stkTime s = true) ∧ (linkHears s 0 = true) ∧ (q.toNat = s.tu.seq) ∧ (s.tu.t1 = some a) ∧ (s.tu.t3 = some b) :=
  ⟨0, 0, 0, 0, { (sMember.wr R.TU_SERVO.SRC [] 2) with tu := { Tu.reset with t1 := some 0, t3 := some 0 } }, 0, 0, by decide⟩

theorem wit_StackControl_7 : ∃ (q : BitVec 32) (s : State), (Awake s) ∧ (s.flag R.STK_CFG.EN [] = true) ∧ (linkHears s 0 = true) ∧ (isMaster s = false) :=
  ⟨7, sMember, by decide⟩

theorem wit_StackControl_8 : ∃ (j : Fin 4) (q : BitVec 32) (s : State), (Awake s) ∧ (linkHears s j.val = true) :=
  ⟨1, 7, sMaster, by decide⟩

theorem wit_StackControl_9 : ∃ (s : State), (Awake s) ∧ (s.flag R.STK_CFG.EN [] = true) ∧ (isMaster s = true) ∧ (sharedEntries s = []) ∧ (sharedActs (markOut s 1) = []) ∧ (sharedEntries (markOut s 1) = []) :=
  ⟨sMaster, by decide⟩

theorem wit_WinnowerCtrl_0 : ∃ (r : Fin 262144) (b : Bytes) (k : Nat) (d : Bytes) (s u v : State), (Awake s) ∧ (CtrlOne s r.val 0x10 (32 * tblSlots s (argTable (ctrlArg d))) k d b u) ∧ (tblEarly true s (ctrlArg d) = none) ∧ (entImageOk u (argTable (ctrlArg d)) (slice b 0 (ctrlStride (32 * tblSlots s (argTable (ctrlArg d))))) = true) ∧ (tblInsert u (argTable (ctrlArg d)) (slice b 0 (ctrlStride (32 * tblSlots s (argTable (ctrlArg d))))) (bit (ctrlArg d) 22) = .ok v) :=
  by
    refine ⟨0, List.replicate 255 0, 0, sDesc 0x10, ((((sRing 5 (sDesc 0x10)).wr R.WIN_TBL.EN [0] 1).wr R.WIN_TBL.READY [0] 1).wr R.WIN_TBL.LOG2_BUCKETS [0] 2), sGot (((((sRing 5 (sDesc 0x10)).wr R.WIN_TBL.EN [0] 1).wr R.WIN_TBL.READY [0] 1).wr R.WIN_TBL.LOG2_BUCKETS [0] 2)) (sDesc 0x10) (List.replicate 255 0) 32, _, ?_, ⟨?_, ?_, ?_, ?_, rfl⟩, ?_, ?_, rfl⟩
    all_goals decide

theorem wit_WinnowerCtrl_1 : ∃ (r : Fin 262144) (b : Bytes) (k : Nat) (d : Bytes) (s u v : State), (Awake s) ∧ (CtrlOne s r.val 0x11 (32 * tblSlots s (argTable (ctrlArg d))) k d b u) ∧ (tblEarly true s (ctrlArg d) = none) ∧ (entImageOk u (argTable (ctrlArg d)) (slice b 0 (ctrlStride (32 * tblSlots s (argTable (ctrlArg d))))) = true) ∧ (tblDelete u (argTable (ctrlArg d)) (entKey u (argTable (ctrlArg d)) (slice (slice b 0 (ctrlStride (32 * tblSlots s (argTable (ctrlArg d))))) 0 (32 * tblSlots u (argTable (ctrlArg d))))) = some v) :=
  by
    refine ⟨0, List.replicate 255 0, 0, sDesc 0x11, { ((((sRing 5 (sDesc 0x11)).wr R.WIN_TBL.EN [0] 1).wr R.WIN_TBL.READY [0] 1).wr R.WIN_TBL.LOG2_BUCKETS [0] 2) with win := { Win.reset with stash := [(0, 1 :: List.replicate 31 0)] } }, sGot ({ ((((sRing 5 (sDesc 0x11)).wr R.WIN_TBL.EN [0] 1).wr R.WIN_TBL.READY [0] 1).wr R.WIN_TBL.LOG2_BUCKETS [0] 2) with win := { Win.reset with stash := [(0, 1 :: List.replicate 31 0)] } }) (sDesc 0x11) (List.replicate 255 0) 32, _, ?_, ⟨?_, ?_, ?_, ?_, rfl⟩, ?_, ?_, rfl⟩
    all_goals decide

theorem wit_WinnowerCtrl_2 : ∃ (r : Fin 262144) (b : Bytes) (k : Nat) (d : Bytes) (s u : State) (l : Loc), (Awake s) ∧ (CtrlOne s r.val 0x12 (32 * tblSlots s (argTable (ctrlArg d))) k d b u) ∧ (tblEarly false s (ctrlArg d) = none) ∧ (entImageOk u (argTable (ctrlArg d)) (slice b 0 (ctrlStride (32 * tblSlots s (argTable (ctrlArg d))))) = true) ∧ (findKey u (argTable (ctrlArg d)) (entKey u (argTable (ctrlArg d)) (slice (slice b 0 (ctrlStride (32 * tblSlots s (argTable (ctrlArg d))))) 0 (32 * tblSlots u (argTable (ctrlArg d))))) = some l) :=
  by
    refine ⟨0, List.replicate 255 0, 0, sDesc 0x12, { ((((sRing 5 (sDesc 0x12)).wr R.WIN_TBL.EN [0] 1).wr R.WIN_TBL.READY [0] 1).wr R.WIN_TBL.LOG2_BUCKETS [0] 2) with win := { Win.reset with stash := [(0, 1 :: List.replicate 31 0)] } }, sGot ({ ((((sRing 5 (sDesc 0x12)).wr R.WIN_TBL.EN [0] 1).wr R.WIN_TBL.READY [0] 1).wr R.WIN_TBL.LOG2_BUCKETS [0] 2) with win := { Win.reset with stash := [(0, 1 :: List.replicate 31 0)] } }) (sDesc 0x12) (List.replicate 255 0) 32, .stash 0, ?_, ⟨?_, ?_, ?_, ?_, rfl⟩, ?_, ?_, ?_⟩
    all_goals decide

theorem wit_WinnowerCtrl_3 : ∃ (r : Fin 262144) (b : Bytes) (k : Nat) (d : Bytes) (s u : State), (Awake s) ∧ (CtrlOne s r.val 0x14 64 k d b u) ∧ (recIndex (slice b 0 (ctrlStride 64)) < 131072) ∧ (actOk (recObj (slice b 0 (ctrlStride 64)) 32) = true) ∧ ((isMember u && (sharedActs u).contains (recIndex (slice b 0 (ctrlStride 64)))) = false) :=
  ⟨0, List.replicate 255 0, 0, sDesc 0x14, (sRing 5 (sDesc 0x14)), sGot (sRing 5 (sDesc 0x14)) (sDesc 0x14) (List.replicate 255 0) 64, by decide, ⟨by decide, by decide, by decide, by decide, rfl⟩, by decide⟩

theorem wit_WinnowerCtrl_4 : ∃ (r : Fin 262144) (b : Bytes) (k : Nat) (d : Bytes) (s u : State), (Awake s) ∧ (CtrlOne s r.val 0x15 96 k d b u) ∧ (recIndex (slice b 0 (ctrlStride 96)) < 512) ∧ (nodeOk (recObj (slice b 0 (ctrlStride 96)) 64) = true) :=
  ⟨0, List.replicate 255 0, 0, sDesc 0x15, (sRing 5 (sDesc 0x15)), sGot (sRing 5 (sDesc 0x15)) (sDesc 0x15) (List.replicate 255 0) 96, by decide, ⟨by decide, by decide, by decide, by decide, rfl⟩, by decide⟩

theorem wit_WinnowerCtrl_5 : ∃ (r : Fin 262144) (k : Nat) (d : Bytes) (s : State), (Awake s) ∧ (headOp s r.val 5 0x16 = some (k, d)) :=
  ⟨0, 0, sDesc 0x16, sRing 5 (sDesc 0x16), by decide⟩

theorem wit_WinnowerCtrl_6 : ∃ (r : Fin 262144) (b : Bytes) (k : Nat) (d : Bytes) (s u : State), (Awake s) ∧ (CtrlOne s r.val 0x17 96 k d b u) ∧ (recIndex (slice b 0 (ctrlStride 96)) ≠ 0) ∧ (recIndex (slice b 0 (ctrlStride 96)) < 4096) ∧ (progOk (recObj (slice b 0 (ctrlStride 96)) 64) = true) :=
  ⟨0, 1 :: List.replicate 254 0, 0, sDesc 0x17, (sRing 5 (sDesc 0x17)), sGot (sRing 5 (sDesc 0x17)) (sDesc 0x17) (1 :: List.replicate 254 0) 96, by decide, ⟨by decide, by decide, by decide, by decide, rfl⟩, by decide⟩

theorem wit_WinnowerCtrl_7 : ∃ (r : Fin 262144) (b : Bytes) (k : Nat) (d : Bytes) (s u : State), (Awake s) ∧ (CtrlOne s r.val 0x18 160 k d b u) ∧ (recIndex (slice b 0 (ctrlStride 160)) < 1024) :=
  ⟨0, List.replicate 255 0, 0, sDesc 0x18, (sRing 5 (sDesc 0x18)), sGot (sRing 5 (sDesc 0x18)) (sDesc 0x18) (List.replicate 255 0) 160, by decide, ⟨by decide, by decide, by decide, by decide, rfl⟩, by decide⟩

theorem wit_WinnowerCtrl_8 : ∃ (r : Fin 262144) (b : Bytes) (k : Nat) (d : Bytes) (s u : State), (Awake s) ∧ (CtrlOne s r.val 0x19 96 k d b u) ∧ (recIndex (slice b 0 (ctrlStride 96)) < 65536) ∧ (patOk (recObj (slice b 0 (ctrlStride 96)) 64) = true) :=
  ⟨0, List.replicate 255 0, 0, sDesc 0x19, (sRing 5 (sDesc 0x19)), sGot (sRing 5 (sDesc 0x19)) (sDesc 0x19) (List.replicate 255 0) 96, by decide, ⟨by decide, by decide, by decide, by decide, rfl⟩, by decide⟩

theorem wit_WinnowerCtrl_9 : ∃ (r : Fin 262144) (k : Nat) (d : Bytes) (s : State), (Awake s) ∧ (headOp s r.val 5 0x1A = some (k, d)) :=
  ⟨0, 0, sDesc 0x1A, sRing 5 (sDesc 0x1A), by decide⟩

theorem wit_WinnowerCtrl_10 : ∃ (r : Fin 262144) (b : Bytes) (k : Nat) (d : Bytes) (s u : State), (Awake s) ∧ (CtrlOne s r.val 0x1B 32 k d b u) ∧ (recIndex (slice b 0 (ctrlStride 32)) < 262144) :=
  ⟨0, List.replicate 255 0, 0, sDesc 0x1B, sRing 5 (sDesc 0x1B), sGot (sRing 5 (sDesc 0x1B)) (sDesc 0x1B) (List.replicate 255 0) 32, by decide, ⟨by decide, by decide, by decide, by decide, rfl⟩, by decide⟩

theorem wit_WinnowerCtrl_11 : ∃ (r : Fin 262144) (k : Nat) (d : Bytes) (s : State), (Awake s) ∧ (headOp s r.val 5 0x1C = some (k, d)) :=
  ⟨0, 0, sDesc 0x1C, sRing 5 (sDesc 0x1C), by decide⟩

theorem wit_WinnowerCtrl_12 : ∃ (r : Fin 262144) (b : Bytes) (k : Nat) (d : Bytes) (s u : State), (Awake s) ∧ (CtrlOne s r.val 0x70 36 k d b u) ∧ (recIndex (slice b 0 (ctrlStride 36)) < 65536) ∧ (destOk (recObj (slice b 0 (ctrlStride 36)) 4) = true) :=
  ⟨0, List.replicate 255 0, 0, sDesc 0x70, (sRing 5 (sDesc 0x70)), sGot (sRing 5 (sDesc 0x70)) (sDesc 0x70) (List.replicate 255 0) 36, by decide, ⟨by decide, by decide, by decide, by decide, rfl⟩, by decide⟩

theorem wit_WinnowerCtrl_13 : ∃ (r : Fin 262144) (b : Bytes) (k : Nat) (d : Bytes) (s u : State), (Awake s) ∧ (CtrlOne s r.val 0x71 36 k d b u) ∧ (recIndex (slice b 0 (ctrlStride 36)) < 1088) :=
  ⟨0, List.replicate 255 0, 0, sDesc 0x71, (sRing 5 (sDesc 0x71)), sGot (sRing 5 (sDesc 0x71)) (sDesc 0x71) (List.replicate 255 0) 36, by decide, ⟨by decide, by decide, by decide, by decide, rfl⟩, by decide⟩

theorem wit_SwitchCtrl_0 : ∃ (r : Fin 262144) (b : Bytes) (k : Nat) (d : Bytes) (s u : State), (Awake s) ∧ (CtrlOne s r.val 0x20 40 k d b u) ∧ (recIndex (slice b 0 (ctrlStride 40)) < 65536) ∧ (groupOk (recObj (slice b 0 (ctrlStride 40)) 8) = true) :=
  ⟨0, List.replicate 255 0, 0, sDesc 0x20, (sRing 5 (sDesc 0x20)), sGot (sRing 5 (sDesc 0x20)) (sDesc 0x20) (List.replicate 255 0) 40, by decide, ⟨by decide, by decide, by decide, by decide, rfl⟩, by decide⟩

theorem wit_SwitchCtrl_1 : ∃ (r : Fin 262144) (b : Bytes) (k : Nat) (d : Bytes) (s u : State), (Awake s) ∧ (CtrlOne s r.val 0x21 40 k d b u) ∧ (recIndex (slice b 0 (ctrlStride 40)) < 262144) :=
  ⟨0, List.replicate 255 0, 0, sDesc 0x21, (sRing 5 (sDesc 0x21)), sGot (sRing 5 (sDesc 0x21)) (sDesc 0x21) (List.replicate 255 0) 40, by decide, ⟨by decide, by decide, by decide, by decide, rfl⟩, by decide⟩

theorem wit_SwitchCtrl_2 : ∃ (r : Fin 262144) (b : Bytes) (k : Nat) (d : Bytes) (s u : State), (Awake s) ∧ (CtrlOne s r.val 0x22 36 k d b u) ∧ (recIndex (slice b 0 (ctrlStride 36)) < 65536) ∧ (u.flag R.GRN_CFG.EN [] = false) :=
  ⟨0, List.replicate 255 0, 0, sDesc 0x22, (sRing 5 (sDesc 0x22)), sGot (sRing 5 (sDesc 0x22)) (sDesc 0x22) (List.replicate 255 0) 36, by decide, ⟨by decide, by decide, by decide, by decide, rfl⟩, by decide⟩

theorem wit_SwitchCtrl_3 : ∃ (r : Fin 262144) (b : Bytes) (k : Nat) (d : Bytes) (s u : State), (Awake s) ∧ (CtrlOne s r.val 0x30 64 k d b u) ∧ (recIndex (slice b 0 (ctrlStride 64)) < 4096) ∧ (memberOk (memberOf (recObj (slice b 0 (ctrlStride 64)) 32) true) = true) ∧ (parentOk u (some (recIndex (slice b 0 (ctrlStride 64)))) (memberOf (recObj (slice b 0 (ctrlStride 64)) 32) true) 4 = true) ∧ ((children u (kNode (recIndex (slice b 0 (ctrlStride 64)))) ≠ [] && (tNode u (recIndex (slice b 0 (ctrlStride 64)))).valid && (!(memberOf (recObj (slice b 0 (ctrlStride 64)) 32) true).valid || (memberOf (recObj (slice b 0 (ctrlStride 64)) 32) true).root ≠ (tNode u (recIndex (slice b 0 (ctrlStride 64)))).root || (memberOf (recObj (slice b 0 (ctrlStride 64)) 32) true).parent ≠ (tNode u (recIndex (slice b 0 (ctrlStride 64)))).parent)) = false) :=
  ⟨0, List.replicate 32 0 ++ [0, 0, 3] ++ List.replicate 220 0, 0, sDesc 0x30, (sRing 5 (sDesc 0x30)), sGot (sRing 5 (sDesc 0x30)) (sDesc 0x30) (List.replicate 32 0 ++ [0, 0, 3] ++ List.replicate 220 0) 64, by decide, ⟨by decide, by decide, by decide, by decide, rfl⟩, by decide⟩

theorem wit_SwitchCtrl_4 : ∃ (r : Fin 262144) (b : Bytes) (k : Nat) (d : Bytes) (s u : State), (Awake s) ∧ (CtrlOne s r.val 0x31 48 k d b u) ∧ (recIndex (slice b 0 (ctrlStride 48)) < 65536) ∧ (memberOk (memberOf (recObj (slice b 0 (ctrlStride 48)) 16) false) = true) ∧ (parentOk u none (memberOf (recObj (slice b 0 (ctrlStride 48)) 16) false) 5 = true) ∧ ((backlogged u (recIndex (slice b 0 (ctrlStride 48))) && (tQueue u (recIndex (slice b 0 (ctrlStride 48)))).valid && (!(memberOf (recObj (slice b 0 (ctrlStride 48)) 16) false).valid || (memberOf (recObj (slice b 0 (ctrlStride 48)) 16) false).root ≠ (tQueue u (recIndex (slice b 0 (ctrlStride 48)))).root || (memberOf (recObj (slice b 0 (ctrlStride 48)) 16) false).parent ≠ (tQueue u (recIndex (slice b 0 (ctrlStride 48)))).parent)) = false) :=
  ⟨0, List.replicate 32 0 ++ [0, 0, 3] ++ List.replicate 220 0, 0, sDesc 0x31, (sRing 5 (sDesc 0x31)), sGot (sRing 5 (sDesc 0x31)) (sDesc 0x31) (List.replicate 32 0 ++ [0, 0, 3] ++ List.replicate 220 0) 48, by decide, ⟨by decide, by decide, by decide, by decide, rfl⟩, by decide⟩

theorem wit_SwitchCtrl_5 : ∃ (r : Fin 262144) (b : Bytes) (k : Nat) (d : Bytes) (s u : State), (Awake s) ∧ (CtrlOne s r.val 0x32 64 k d b u) ∧ (recIndex (slice b 0 (ctrlStride 64)) < 131072) ∧ (polOk (polOf (recObj (slice b 0 (ctrlStride 64)) 32) (polGet u (recIndex (slice b 0 (ctrlStride 64))))) = true) :=
  ⟨0, List.replicate 255 0, 0, sDesc 0x32, (sRing 5 (sDesc 0x32)), sGot (sRing 5 (sDesc 0x32)) (sDesc 0x32) (List.replicate 255 0) 64, by decide, ⟨by decide, by decide, by decide, by decide, rfl⟩, by decide⟩

theorem wit_SwitchCtrl_6 : ∃ (r : Fin 262144) (b : Bytes) (k : Nat) (d : Bytes) (s u : State), (Awake s) ∧ (CtrlOne s r.val 0x33 32 k d b u) ∧ (recIndex (slice b 0 (ctrlStride 32)) < 131072) :=
  ⟨0, List.replicate 255 0, 0, sDesc 0x33, sRing 5 (sDesc 0x33), sGot (sRing 5 (sDesc 0x33)) (sDesc 0x33) (List.replicate 255 0) 32, by decide, ⟨by decide, by decide, by decide, by decide, rfl⟩, by decide⟩

theorem wit_SwitchCtrl_7 : ∃ (r : Fin 262144) (b : Bytes) (k : Nat) (d : Bytes) (s u : State), (Awake s) ∧ (CtrlOne s r.val 0x34 40 k d b u) ∧ (recIndex (slice b 0 (ctrlStride 40)) < 1024) ∧ (gateOp (recObj (slice b 0 (ctrlStride 40)) 8) ≠ 3) ∧ (16 ≤ gateNs (recObj (slice b 0 (ctrlStride 40)) 8)) ∧ (u.flag R.TLY_GATE.PENDING [bits (ctrlArg d) 16 7] = false) :=
  ⟨0, List.replicate 32 0 ++ [0, 255, 0, 0, 100] ++ List.replicate 220 0, 0, sDesc 0x34, (sRing 5 (sDesc 0x34)), sGot (sRing 5 (sDesc 0x34)) (sDesc 0x34) (List.replicate 32 0 ++ [0, 255, 0, 0, 100] ++ List.replicate 220 0) 40, by decide, ⟨by decide, by decide, by decide, by decide, rfl⟩, by decide⟩

theorem wit_SwitchCtrl_8 : ∃ (r : Fin 262144) (b : Bytes) (k : Nat) (d : Bytes) (s u : State), (Awake s) ∧ (CtrlOne s r.val 0x35 32 k d b u) ∧ (recIndex (slice b 0 (ctrlStride 32)) < 4096) :=
  ⟨0, List.replicate 255 0, 0, sDesc 0x35, sRing 5 (sDesc 0x35), sGot (sRing 5 (sDesc 0x35)) (sDesc 0x35) (List.replicate 255 0) 32, by decide, ⟨by decide, by decide, by decide, by decide, rfl⟩, by decide⟩

theorem wit_CarterReceive_0 : ∃ (h : Hap) (s u m : State) (n : Nat) (c : Conn) (p : Pkt) (x : Cth) (psn : Nat) (pay : Bytes) (e : Conn) (g : MemRegion), (Awake s) ∧ (DataPassed s 1 h u n c p x psn pay) ∧ (connGet u n = some e) ∧ (m = markPsn u n psn p x) ∧ (regionFor u n e (beAt x.ext 0 4) (beAt x.ext 8 8) x.payLen 0 h = some g) ∧ (h ≠ .fault) ∧ (instOk m g.inst = true) ∧ ((instReach s g.inst true [(beAt x.ext 8 8, x.payLen)]).1 = true) :=
  by
    obtain ⟨u, n, c, p, x, psn, pay, h, k⟩ := dataPassed_of (s := sWire 1 4 (List.replicate 16 0) [1, 2, 3]) (op := 1) (h := .done) (fun u n c p x psn pay => (connGet u n).any (fun e => (regionFor u n e (beAt x.ext 0 4) (beAt x.ext 8 8) x.payLen 0 .done).any (fun g => instOk (markPsn u n psn p x) g.inst && (instReach (sWire 1 4 (List.replicate 16 0) [1, 2, 3]) g.inst true [(beAt x.ext 8 8, x.payLen)]).1))) (by decide +kernel)
    obtain ⟨e, ke, k⟩ := held_of k
    obtain ⟨g, k1, k2⟩ := held_of k
    simp only [Bool.and_eq_true] at k2
    exact ⟨.done, _, u, _, n, c, p, x, psn, pay, e, g, by decide, h, ke, rfl, k1, by decide, k2.1, k2.2⟩

theorem wit_CarterReceive_1 : ∃ (h : Hap) (s u m : State) (n : Nat) (c : Conn) (p : Pkt) (x : Cth) (psn : Nat) (pay : Bytes) (e : Conn) (g : MemRegion) (b : Binding) (v : State), (Awake s) ∧ (DataPassed s 2 h u n c p x psn pay) ∧ (connGet u n = some e) ∧ (regionFor u n e (beAt x.ext 0 4) (beAt x.ext 8 8) x.payLen 0 h = some g) ∧ (bindMsg u n e x = some (b, v)) ∧ (m = bindNote (markPsn v n psn p x) n psn x) ∧ (h ≠ .fault) ∧ (instOk m g.inst = true) ∧ (instOk u g.inst = true) ∧ ((instReach s g.inst true [(beAt x.ext 8 8, x.payLen)]).1 = true) :=
  by
    obtain ⟨u, n, c, p, x, psn, pay, h, k⟩ := dataPassed_of (s := { ((sWire 2 4 (List.replicate 24 0) ([1, 2, 3])).wr R.DOM_RING_W0.STATE [0] 2).wr R.DOM_RING_W0.TYPE [0] 3 with dom := { Dom.reset with rings := [(0, { Ring.none with bufs := [(0, 0, 0, 4096)] })] } }) (op := 2) (h := .done) (fun u n c p x psn pay => (connGet u n).any (fun e => (regionFor u n e (beAt x.ext 0 4) (beAt x.ext 8 8) x.payLen 0 .done).any (fun g => (bindMsg u n e x).any (fun b => instOk (bindNote (markPsn b.2 n psn p x) n psn x) g.inst && (instOk u g.inst && (instReach ({ ((sWire 2 4 (List.replicate 24 0) ([1, 2, 3])).wr R.DOM_RING_W0.STATE [0] 2).wr R.DOM_RING_W0.TYPE [0] 3 with dom := { Dom.reset with rings := [(0, { Ring.none with bufs := [(0, 0, 0, 4096)] })] } }) g.inst true [(beAt x.ext 8 8, x.payLen)]).1))))) (by decide +kernel)
    obtain ⟨e, ke, k⟩ := held_of k
    obtain ⟨g, k1, k⟩ := held_of k
    obtain ⟨b, k2, k⟩ := held_of k
    simp only [Bool.and_eq_true] at k
    exact ⟨.done, _, u, _, n, c, p, x, psn, pay, e, g, b.1, b.2, by decide, h, ke, k1, k2, rfl, by decide, k.1, k.2.1, k.2.2⟩

theorem wit_CarterReceive_2 : ∃ (h : Hap) (s u m : State) (n : Nat) (c : Conn) (p : Pkt) (x : Cth) (psn : Nat) (pay : Bytes) (e : Conn) (b : Binding) (v : State), (Awake s) ∧ (DataPassed s 3 h u n c p x psn pay) ∧ (connGet u n = some e) ∧ (bindMsg u n e x = some (b, v)) ∧ (b.flushed = false) ∧ (beAt x.ext 0 4 + pay.length ≤ b.ent.len) ∧ (m = bindNote (markPsn v n psn p x) n psn x) ∧ (h ≠ .fault) ∧ (instOk m e.inst = true) ∧ ((instReach s e.inst true [(b.ent.addr + beAt x.ext 0 4, pay.length)]).1 = true) :=
  by
    obtain ⟨u, n, c, p, x, psn, pay, h, k⟩ := dataPassed_of (s := { ((sWire 3 4 (List.replicate 8 0) ([1, 2, 3])).wr R.DOM_RING_W0.STATE [0] 2).wr R.DOM_RING_W0.TYPE [0] 3 with dom := { Dom.reset with rings := [(0, { Ring.none with bufs := [(0, 0, 0, 4096)] })] } }) (op := 3) (h := .done) (fun u n c p x psn pay => (connGet u n).any (fun e => (bindMsg u n e x).any (fun b => decide (b.1.flushed = false) && (decide (beAt x.ext 0 4 + pay.length ≤ b.1.ent.len) && (instOk (bindNote (markPsn b.2 n psn p x) n psn x) e.inst && (instReach ({ ((sWire 3 4 (List.replicate 8 0) ([1, 2, 3])).wr R.DOM_RING_W0.STATE [0] 2).wr R.DOM_RING_W0.TYPE [0] 3 with dom := { Dom.reset with rings := [(0, { Ring.none with bufs := [(0, 0, 0, 4096)] })] } }) e.inst true [(b.1.ent.addr + beAt x.ext 0 4, pay.length)]).1))))) (by decide +kernel)
    obtain ⟨e, ke, k⟩ := held_of k
    obtain ⟨b, k2, k⟩ := held_of k
    simp only [Bool.and_eq_true, decide_eq_true_eq] at k
    exact ⟨.done, _, u, _, n, c, p, x, psn, pay, e, b.1, b.2, by decide, h, ke, k2, k.1, k.2.1, rfl, by decide, k.2.2.1, k.2.2.2⟩

theorem wit_CarterReceive_3 : ∃ (h : Hap) (s u m : State) (n : Nat) (c : Conn) (p : Pkt) (x : Cth) (psn : Nat) (pay : Bytes) (e : Conn) (b : Binding) (v : State), (Awake s) ∧ (DataPassed s 4 h u n c p x psn pay) ∧ (connGet u n = some e) ∧ (bindMsg u n e x = some (b, v)) ∧ (b.flushed = false) ∧ (beAt x.ext 0 4 + pay.length ≤ b.ent.len) ∧ (m = bindNote (markPsn v n psn p x) n psn x) ∧ (h ≠ .fault) ∧ (instOk m e.inst = true) ∧ ((instReach s e.inst true [(b.ent.addr + beAt x.ext 0 4, pay.length)]).1 = true) :=
  by
    obtain ⟨u, n, c, p, x, psn, pay, h, k⟩ := dataPassed_of (s := { ((sWire 4 4 (List.replicate 16 0) ([1, 2, 3])).wr R.DOM_RING_W0.STATE [0] 2).wr R.DOM_RING_W0.TYPE [0] 3 with dom := { Dom.reset with rings := [(0, { Ring.none with bufs := [(0, 0, 0, 4096)] })] } }) (op := 4) (h := .done) (fun u n c p x psn pay => (connGet u n).any (fun e => (bindMsg u n e x).any (fun b => decide (b.1.flushed = false) && (decide (beAt x.ext 0 4 + pay.length ≤ b.1.ent.len) && (instOk (bindNote (markPsn b.2 n psn p x) n psn x) e.inst && (instReach ({ ((sWire 4 4 (List.replicate 16 0) ([1, 2, 3])).wr R.DOM_RING_W0.STATE [0] 2).wr R.DOM_RING_W0.TYPE [0] 3 with dom := { Dom.reset with rings := [(0, { Ring.none with bufs := [(0, 0, 0, 4096)] })] } }) e.inst true [(b.1.ent.addr + beAt x.ext 0 4, pay.length)]).1))))) (by decide +kernel)
    obtain ⟨e, ke, k⟩ := held_of k
    obtain ⟨b, k2, k⟩ := held_of k
    simp only [Bool.and_eq_true, decide_eq_true_eq] at k
    exact ⟨.done, _, u, _, n, c, p, x, psn, pay, e, b.1, b.2, by decide, h, ke, k2, k.1, k.2.1, rfl, by decide, k.2.2.1, k.2.2.2⟩

theorem wit_CarterReceive_4 : ∃ (h : Hap) (s u m : State) (n : Nat) (c : Conn) (p : Pkt) (x : Cth) (psn : Nat) (pay : Bytes) (g : MemRegion) (b : Bytes), (Awake s) ∧ (DataPassed s 5 h u n c p x psn pay) ∧ (m = markPsn u n psn p x) ∧ (regionFor u n c (beAt x.ext 0 4) (beAt x.ext 8 8) (beAt x.ext 16 4) 1 h = some g) ∧ (beAt x.ext 16 4 ≠ 0) ∧ (instOk m g.inst = true) ∧ ((instFetch s g.inst [(beAt x.ext 8 8, beAt x.ext 16 4)] (.ok b)).1 = true) :=
  by
    obtain ⟨u, n, c, p, x, psn, pay, h, k⟩ := dataPassed_of (s := sWire 5 4 (List.replicate 19 0 ++ [8, 0, 0, 0, 0]) []) (op := 5) (h := .done) (fun u n c p x psn pay => decide (beAt x.ext 16 4 ≠ 0) && (regionFor u n c (beAt x.ext 0 4) (beAt x.ext 8 8) (beAt x.ext 16 4) 1 .done).any (fun g => instOk (markPsn u n psn p x) g.inst && (instFetch (sWire 5 4 (List.replicate 19 0 ++ [8, 0, 0, 0, 0]) []) g.inst [(beAt x.ext 8 8, beAt x.ext 16 4)] (.ok [])).1)) (by decide +kernel)
    simp only [Bool.and_eq_true, decide_eq_true_eq] at k
    obtain ⟨k0, k⟩ := k
    obtain ⟨g, k1, k2⟩ := held_of k
    simp only [Bool.and_eq_true] at k2
    exact ⟨.done, _, u, _, n, c, p, x, psn, pay, g, [], by decide, h, rfl, k1, k0, k2.1, k2.2⟩

theorem wit_CarterReceive_5 : ∃ (h : Hap) (s u m : State) (n : Nat) (c : Conn) (p : Pkt) (x : Cth) (psn : Nat) (pay : Bytes) (w : Work) (r k : Nat) (d : Bytes), (Awake s) ∧ (DataPassed s 6 h u n c p x psn pay) ∧ (m = markPsn u n psn p x) ∧ (u.car.works.find? (fun w => w.conn == n && w.msg == beAt x.ext 0 4 && w.ended.isNone && w.op == 5) = some w) ∧ (m.car.works.find? (fun w => w.conn == n && w.msg == beAt x.ext 0 4 && w.ended.isNone && w.op == 5) = some w) ∧ (w.src = .ring r k d) ∧ (beAt x.ext 4 4 + x.payLen ≤ w.len) ∧ (h ≠ .fault) ∧ (instOk u c.inst = true) ∧ (instOk m c.inst = true) ∧ ((instReach s c.inst true [(w.addr + beAt x.ext 4 4, x.payLen)]).1 = true) :=
  by
    obtain ⟨u, n, c, p, x, psn, pay, h, k⟩ := dataPassed_of (s := { sWire 6 4 (List.replicate 8 0) (List.replicate 8 0) with car := { sCar.car with works := [{ src := .ring 0 0 [], conn := 1, op := 5, msg := 0, addr := 0, len := 8, last := none, got := 0, ended := none }] } }) (op := 6) (h := .done) (fun u n c p x psn pay => ((markPsn u n psn p x).car.works.find? (fun w => w.conn == n && w.msg == beAt x.ext 0 4 && w.ended.isNone && w.op == 5)).any (fun w => (match w.src with | .ring _ _ _ => true | .stg _ => false) && (decide (beAt x.ext 4 4 + x.payLen ≤ w.len) && (instOk u c.inst && (instOk (markPsn u n psn p x) c.inst && ((instReach ({ sWire 6 4 (List.replicate 8 0) (List.replicate 8 0) with car := { sCar.car with works := [{ src := .ring 0 0 [], conn := 1, op := 5, msg := 0, addr := 0, len := 8, last := none, got := 0, ended := none }] } }) c.inst true [(w.addr + beAt x.ext 4 4, x.payLen)]).1 && decide (u.car.works.find? (fun w => w.conn == n && w.msg == beAt x.ext 0 4 && w.ended.isNone && w.op == 5) = some w))))))) (by decide +kernel)
    obtain ⟨w, k1, k⟩ := held_of k
    simp only [Bool.and_eq_true, decide_eq_true_eq] at k
    obtain ⟨k2, k3, k4, k5, k6, k7⟩ := k
    split at k2
    · rename_i e
      exact ⟨.done, _, u, _, n, c, p, x, psn, pay, w, _, _, _, by decide, h, rfl, k7, k1, e, k3, by decide, k4, k5, k6⟩
    · cases k2

theorem wit_CarterReceive_6 : ∃ (h : Hap) (s u m : State) (n : Nat) (c : Conn) (p : Pkt) (x : Cth) (psn : Nat) (pay : Bytes) (w : Work) (r k : Nat) (d : Bytes), (Awake s) ∧ (DataPassed s 8 h u n c p x psn pay) ∧ (m = markPsn u n psn p x) ∧ (u.car.works.find? (fun w => w.conn == n && w.msg == beAt x.ext 0 4 && w.ended.isNone && w.op == 7) = some w) ∧ (m.car.works.find? (fun w => w.conn == n && w.msg == beAt x.ext 0 4 && w.ended.isNone && w.op == 7) = some w) ∧ (w.src = .ring r k d) ∧ (beAt x.ext 4 4 + x.payLen ≤ w.len) ∧ (h ≠ .fault) ∧ (instOk u c.inst = true) ∧ (instOk m c.inst = true) ∧ ((instReach s c.inst true [(w.addr + beAt x.ext 4 4, x.payLen)]).1 = true) :=
  by
    obtain ⟨u, n, c, p, x, psn, pay, h, k⟩ := dataPassed_of (s := { sWire 8 4 (List.replicate 8 0) (List.replicate 8 0) with car := { sCar.car with works := [{ src := .ring 0 0 [], conn := 1, op := 7, msg := 0, addr := 0, len := 8, last := none, got := 0, ended := none }] } }) (op := 8) (h := .done) (fun u n c p x psn pay => ((markPsn u n psn p x).car.works.find? (fun w => w.conn == n && w.msg == beAt x.ext 0 4 && w.ended.isNone && w.op == 7)).any (fun w => (match w.src with | .ring _ _ _ => true | .stg _ => false) && (decide (beAt x.ext 4 4 + x.payLen ≤ w.len) && (instOk u c.inst && (instOk (markPsn u n psn p x) c.inst && ((instReach ({ sWire 8 4 (List.replicate 8 0) (List.replicate 8 0) with car := { sCar.car with works := [{ src := .ring 0 0 [], conn := 1, op := 7, msg := 0, addr := 0, len := 8, last := none, got := 0, ended := none }] } }) c.inst true [(w.addr + beAt x.ext 4 4, x.payLen)]).1 && decide (u.car.works.find? (fun w => w.conn == n && w.msg == beAt x.ext 0 4 && w.ended.isNone && w.op == 7) = some w))))))) (by decide +kernel)
    obtain ⟨w, k1, k⟩ := held_of k
    simp only [Bool.and_eq_true, decide_eq_true_eq] at k
    obtain ⟨k2, k3, k4, k5, k6, k7⟩ := k
    split at k2
    · rename_i e
      exact ⟨.done, _, u, _, n, c, p, x, psn, pay, w, _, _, _, by decide, h, rfl, k7, k1, e, k3, by decide, k4, k5, k6⟩
    · cases k2

theorem wit_CarterReceive_7 : ∃ (h : Hap) (s u m : State) (n : Nat) (c : Conn) (p : Pkt) (x : Cth) (psn : Nat) (pay : Bytes) (g : MemRegion) (b : Bytes) (a f : Nat), (Awake s) ∧ (DataPassed s 7 h u n c p x psn pay) ∧ (m = markPsn u n psn p x) ∧ (beAt x.ext 8 8 % 8 = 0) ∧ (regionFor u n c (beAt x.ext 0 4) (beAt x.ext 8 8) 8 2 h = some g) ∧ (instFn u g.inst = (a, f)) ∧ (instOk m g.inst = true) ∧ ((instReach s g.inst true [(beAt x.ext 8 8, 8)]).1 = true) :=
  by
    obtain ⟨u, n, c, p, x, psn, pay, h, k⟩ := dataPassed_of (s := sWire 7 4 (List.replicate 32 0) []) (op := 7) (h := .done) (fun u n c p x psn pay => decide (beAt x.ext 8 8 % 8 = 0) && (regionFor u n c (beAt x.ext 0 4) (beAt x.ext 8 8) 8 2 .done).any (fun g => instOk (markPsn u n psn p x) g.inst && (instReach (sWire 7 4 (List.replicate 32 0) []) g.inst true [(beAt x.ext 8 8, 8)]).1)) (by decide +kernel)
    simp only [Bool.and_eq_true, decide_eq_true_eq] at k
    obtain ⟨k0, k⟩ := k
    obtain ⟨g, k1, k2⟩ := held_of k
    simp only [Bool.and_eq_true] at k2
    exact ⟨.done, _, u, _, n, c, p, x, psn, pay, g, [], _, _, by decide, h, rfl, k0, k1, rfl, k2.1, k2.2⟩

theorem wit_CarterControl_0 : ∃ (s u : State) (n : Nat) (c : Conn) (p : Pkt) (x : Cth) (q : Nat), (Awake s) ∧ (ctlHead s 0x10 = (u, some (n, c, p, x, q))) ∧ (extend c.nextPsn (beAt x.ext 0 4) ≤ (c.nextPsn : Int)) ∧ ((sackRanges c x.ext).any (fun r => decide (r.2 ≥ (c.nextPsn : Int))) = false) ∧ (bit (byteAt x.ext 24) 4 = false) :=
  by
    obtain ⟨u, n, c, p, x, q, h, k⟩ := ctlHead_of (s := sWire 0x10 0 (List.replicate 32 0) []) (op := 16) (fun u n c p x q => decide (extend c.nextPsn (beAt x.ext 0 4) ≤ (c.nextPsn : Int)) && !(sackRanges c x.ext).any (fun r => decide (r.2 ≥ (c.nextPsn : Int))) && !bit (byteAt x.ext 24) 4) (by decide)
    simp only [Bool.and_eq_true, decide_eq_true_eq, Bool.not_eq_true'] at k
    exact ⟨_, u, n, c, p, x, q, by decide, h, k.1.1, k.1.2, k.2⟩

theorem wit_CarterControl_1 : ∃ (s u : State) (n : Nat) (c : Conn) (p : Pkt) (x : Cth) (q : Nat), (Awake s) ∧ (ctlHead s 0x11 = (u, some (n, c, p, x, q))) ∧ (byteAt x.ext 8 = 4) ∧ (extend c.nextPsn (beAt x.ext 0 4) ≤ (c.nextPsn : Int)) :=
  by
    obtain ⟨u, n, c, p, x, q, h, k⟩ := ctlHead_of (s := sWire 0x11 0 (List.replicate 8 0 ++ [4] ++ List.replicate 7 0) []) (op := 17) (fun u n c p x q => decide (byteAt x.ext 8 = 4) && decide (extend c.nextPsn (beAt x.ext 0 4) ≤ (c.nextPsn : Int))) (by decide)
    simp only [Bool.and_eq_true, decide_eq_true_eq] at k
    exact ⟨_, u, n, c, p, x, q, by decide, h, k.1, k.2⟩

theorem wit_CarterControl_2 : ∃ (s u : State) (n : Nat) (c : Conn) (p : Pkt) (x : Cth) (q : Nat), (Awake s) ∧ (ctlHead s 0x12 = (u, some (n, c, p, x, q))) ∧ (bit (byteAt x.ext 4) 0 = false) :=
  by
    obtain ⟨u, n, c, p, x, q, h, k⟩ := ctlHead_of (s := sWire 0x12 0 (List.replicate 8 0) []) (op := 18) (fun u n c p x q => !bit (byteAt x.ext 4) 0) (by decide)
    simp only [Bool.not_eq_true'] at k
    exact ⟨_, u, n, c, p, x, q, by decide, h, k⟩

theorem wit_CarterControl_3 : ∃ (s u : State) (n : Nat) (c : Conn) (p : Pkt) (x : Cth) (q : Nat), (Awake s) ∧ (ctlHead s 0x12 = (u, some (n, c, p, x, q))) ∧ (bit (byteAt x.ext 4) 0 = true) :=
  by
    obtain ⟨u, n, c, p, x, q, h, k⟩ := ctlHead_of (s := sWire 0x12 0 ([0, 0, 0, 0, 1] ++ List.replicate 3 0) []) (op := 18) (fun u n c p x q => bit (byteAt x.ext 4) 0) (by decide)
    exact ⟨_, u, n, c, p, x, q, by decide, h, k⟩

theorem wit_CarterControl_4 : ∃ (s u : State) (n : Nat) (c : Conn) (p : Pkt) (x : Cth) (q : Nat) (a l : Nat), (Awake s) ∧ (ctlHead s 0x13 = (u, some (n, c, p, x, q))) ∧ (c.retract = some (a, l)) ∧ (a % 2 ^ 32 = beAt x.ext 4 4) :=
  by
    obtain ⟨u, n, c, p, x, q, h, k⟩ := ctlHead_of (s := { sWire 0x13 0 (List.replicate 8 0) [] with car := (sWith { sConn with retract := some (0, 0) }).car }) (op := 19) (fun u n c p x q => decide (c.retract = some (0, 0)) && decide (0 = beAt x.ext 4 4)) (by decide)
    simp only [Bool.and_eq_true, decide_eq_true_eq] at k
    exact ⟨_, u, n, c, p, x, q, 0, 0, by decide, h, k.1, k.2⟩

theorem wit_CarterControl_5 : ∃ (n : Fin 16777216) (c : Conn) (s u : State), (Awake s) ∧ (connGet s n.val = some c) ∧ (c.st = .active ∨ c.st = .draining) ∧ (c.recs ≠ []) ∧ (u = clockTo s (rtoDue c)) :=
  ⟨1, { sConn with recs := [sRec], retryMax := 3 }, sWith { sConn with recs := [sRec], retryMax := 3 }, _, by decide, by decide, by decide, by decide, rfl⟩

theorem wit_CarterControl_6 : ∃ (n : Fin 16777216) (p : BitVec 32) (c : Conn) (s u : State), (Awake s) ∧ (connGet s n.val = some c) ∧ (u = clockTo s (((c.recs.find? (fun r => r.st == .rnrWait && r.psn % 2 ^ 32 == p.toNat)).map (fun r => r.rnrAt + c.rnrDelay * 10)).getD 0)) :=
  ⟨1, 0, sConn, sCar, _, by decide, by decide, rfl⟩

theorem wit_CarterControl_7 : ∃ (n : Fin 16777216) (c : Conn) (s u : State), (Awake s) ∧ (connGet s n.val = some c) ∧ (c.st = .active ∨ c.st = .draining) ∧ (c.credited = false) ∧ (u = clockTo s (c.creditAt + c.rtoInit * 10)) :=
  ⟨1, sConn, sWith sConn, _, by decide, by decide, by decide, by decide, rfl⟩

theorem wit_CarterControl_8 : ∃ (n : Fin 16777216) (c : Conn) (q : Nat) (s u : State), (Awake s) ∧ (connGet s n.val = some c) ∧ (c.st = .active ∨ c.st = .draining) ∧ (c.rptFor = some q) ∧ (u = clockTo s (c.rptAt + c.rto * 10)) :=
  ⟨1, { sConn with rptFor := some 0 }, 0, sWith { sConn with rptFor := some 0 }, _, by decide, by decide, by decide, by decide, rfl⟩

theorem wit_CarterControl_9 : ∃ (n : Fin 16777216) (c : Conn) (s u : State), (Awake s) ∧ (connGet s n.val = some c) ∧ (c.st = .active ∨ c.st = .draining) ∧ (c.unacked ≠ 0) ∧ (u = clockTo s (c.ackFrom + c.ackDelay * 10000)) :=
  ⟨1, { sConn with unacked := 1 }, sWith { sConn with unacked := 1 }, _, by decide, by decide, by decide, by decide, rfl⟩

theorem wit_CarterSend_0 : ∃ (n : Fin 16777216) (b : Bool) (c e : Conn) (g : Seg) (l : List Seg) (s : State), (Awake s) ∧ (connGet s n.val = some c) ∧ (c.segs = g :: l) ∧ (c.st = .active ∨ c.st = .draining) ∧ (c.tier = .onDie) ∧ (c.recs.any (fun r => r.st == .lost) = false) ∧ (c.nextPsn < c.una + 2 ^ c.winLog ∧ c.nextPsn < c.una + 2 ^ c.keepLog) ∧ (carCreditOk c (carCharge (udpLenOf c g.ext g.pay.length)) = true) ∧ (c.enc = false ∧ c.remote = true ∧ g.op ≠ 6 ∧ g.op ≠ 8) ∧ (c.nextPsn < 2 ^ 48) ∧ (g.last = false) ∧ (e = { c with nextPsn := c.nextPsn + 1, cposSent := (c.cposSent + carCharge (udpLenOf c g.ext g.pay.length)) % 2 ^ 32, txCount := c.txCount + 1, segs := l, recs := c.recs ++ [{ psn := c.nextPsn, st := .sent, txn := c.txCount + 1, msg := g.msg, op := g.op, flags := cthFlags false g.first g.last false g.ackReq, ext := g.ext, len := g.pay.length, kept := false, rnr := 0, src := g.src, sentAt := s.now }] }) :=
  ⟨1, false, { sConn with segs := [sSeg], limit := 100 }, _, sSeg, [], sWith { sConn with segs := [sSeg], limit := 100 }, by decide, by decide, rfl, by decide, by decide, by decide, by decide, by decide, by decide, by decide, by decide, rfl⟩

theorem wit_CarterSend_1 : ∃ (n : Fin 16777216) (d : Bytes) (c e : Conn) (y : SendRec) (s u : State), (Awake s) ∧ (connGet s n.val = some c) ∧ (c.recs.find? (fun r => r.st == .lost) = some y) ∧ (c.st = .active ∨ c.st = .draining) ∧ (c.tier = .onDie) ∧ (carCreditOk c (carCharge (udpLenOf c y.ext y.len)) = true) ∧ (y.kept = false) ∧ (instFetch s c.inst [(y.src, y.len)] (.ok d) = (true, u)) ∧ (e = { c with cposSent := (c.cposSent + carCharge (udpLenOf c y.ext y.len)) % 2 ^ 32, txCount := c.txCount + 1, recs := c.recs.map (fun z => if z.psn = y.psn then { z with st := .sent, txn := c.txCount + 1, sentAt := u.now } else z) }) :=
  ⟨1, [], { sConn with recs := [{ sRec with st := .lost }], limit := 100 }, _, { sRec with st := .lost }, sWith { sConn with recs := [{ sRec with st := .lost }], limit := 100 }, _, by decide, by decide, by decide, by decide, by decide, by decide, by decide, rfl, rfl⟩

theorem wit_CarterSend_2 : ∃ (r : Fin 262144) (b : Bytes) (k : Nat) (d : Bytes) (c e : Conn) (s u : State), (Awake s) ∧ (SendReady s r.val 1 k d c) ∧ (c.st = .active) ∧ (c.tier = .onDie) ∧ (c.evictPending = false) ∧ (c.long = false) ∧ (e = { c with used := s.now }) ∧ (descRead (connPut s (dConn d) e) r.val [(dAddr d, dLen d)] (.ok b) = (true, u)) :=
  ⟨0, [], 0, sDesc 1, sConn, sConn, sSend 1, _, by decide, by decide, by decide, by decide, by decide, by decide, by decide, rfl⟩

theorem wit_CarterSend_3 : ∃ (r : Fin 262144) (b : Bytes) (k : Nat) (d : Bytes) (c e : Conn) (s u : State), (Awake s) ∧ (SendReady s r.val 2 k d c) ∧ (c.st = .active) ∧ (c.tier = .onDie) ∧ (c.evictPending = false) ∧ (c.long = false) ∧ (e = { c with used := s.now }) ∧ (descRead (connPut s (dConn d) e) r.val [(dAddr d, dLen d)] (.ok b) = (true, u)) :=
  ⟨0, [], 0, sDesc 2, sConn, sConn, sSend 2, _, by decide, by decide, by decide, by decide, by decide, by decide, by decide, rfl⟩

theorem wit_CarterSend_4 : ∃ (r : Fin 262144) (b : Bytes) (k : Nat) (d : Bytes) (c e : Conn) (s u : State), (Awake s) ∧ (SendReady s r.val 3 k d c) ∧ (c.st = .active) ∧ (c.tier = .onDie) ∧ (c.evictPending = false) ∧ (c.long = false) ∧ (e = { c with used := s.now }) ∧ (descRead (connPut s (dConn d) e) r.val [(dAddr d, dLen d)] (.ok b) = (true, u)) :=
  ⟨0, [], 0, sDesc 3, sConn, sConn, sSend 3, _, by decide, by decide, by decide, by decide, by decide, by decide, by decide, rfl⟩

theorem wit_CarterSend_5 : ∃ (r : Fin 262144) (b : Bytes) (k : Nat) (d : Bytes) (c e : Conn) (s u : State), (Awake s) ∧ (SendReady s r.val 4 k d c) ∧ (c.st = .active) ∧ (c.tier = .onDie) ∧ (c.evictPending = false) ∧ (c.long = false) ∧ (e = { c with used := s.now }) ∧ (descRead (connPut s (dConn d) e) r.val [(dAddr d, dLen d)] (.ok b) = (true, u)) :=
  ⟨0, [], 0, sDesc 4, sConn, sConn, sSend 4, _, by decide, by decide, by decide, by decide, by decide, by decide, by decide, rfl⟩

theorem wit_CarterSend_6 : ∃ (r : Fin 262144) (k : Nat) (d : Bytes) (c e : Conn) (s : State), (Awake s) ∧ (SendReady s r.val 5 k d c) ∧ (c.st = .active) ∧ (c.tier = .onDie) ∧ (c.evictPending = false) ∧ (c.long = false) ∧ (e = { c with used := s.now }) :=
  ⟨0, 0, sDesc 5, sConn, sConn, sSend 5, by decide⟩

theorem wit_CarterSend_7 : ∃ (r : Fin 262144) (k : Nat) (d : Bytes) (c e : Conn) (s : State), (Awake s) ∧ (SendReady s r.val 7 k d c) ∧ (c.st = .active) ∧ (c.tier = .onDie) ∧ (c.evictPending = false) ∧ (c.long = false) ∧ (e = { c with used := s.now }) :=
  ⟨0, 0, sDesc 7, sConn, sConn, sSend 7, by decide⟩

theorem wit_CarterSend_8 : ∃ (r : Fin 262144) (k : Nat) (d : Bytes) (s u : State), (Awake s) ∧ (headOp s r.val 3 0x20 = some (k, d)) ∧ (dLen d ≤ 2 ^ 31) ∧ (s.flag R.CAR_CFG.EN [] = true) ∧ (u = popDesc s r.val k) :=
  ⟨0, 0, sDesc 0x20, (sRing 3 (sDesc 0x20)).wr R.CAR_CFG.EN [] 1, _, by decide, by decide, by decide, by decide, rfl⟩

theorem wit_CarterConnections_0 : ∃ (r : Fin 262144) (k n : Nat) (d : Bytes) (s : State), (Awake s) ∧ (headOp s r.val 2 0x40 = some (k, d)) ∧ ((ringOwner s r.val || !fnLive s (ringFn s r.val).1 (ringFn s r.val).2) = false) ∧ (descOk d = true) ∧ (s.flag R.CAR_CFG.EN [] = true) ∧ (dArg d ≠ 7) ∧ (freeNumber s (dArg d) = some n) ∧ (bit (byteAt d 41) 0 = true) :=
  ⟨0, 0, 0, (sDesc 0x40).take 41 ++ [1] ++ List.replicate 22 0, { sSend 0x40 with dom := { Dom.reset with rings := [(0, { Ring.none with fetched := [(0, (sDesc 0x40).take 41 ++ [1] ++ List.replicate 22 0)] })] } }, by decide⟩

theorem wit_CarterConnections_1 : ∃ (r : Fin 262144) (b : Bytes) (k v : Nat) (d : Bytes) (c e : Conn) (s u : State), (Awake s) ∧ (SendReady s r.val 0x41 k d c) ∧ (c.st = .allocated) ∧ (descRead s r.val [(dAddr d, 128)] (.ok b) = (true, u)) ∧ (paramsOk (slice b 0 128) c.host = true) ∧ ((findRing u false c.inst (leAt (slice b 0 128) 60 2)).bind (fun t => if ringType u t = 3 then some t else none) = some v) ∧ (SMap.find? u.car.epochs (dConn d) = none) ∧ (bit (byteAt (slice b 0 128) 26) 2 = false ∧ bit (byteAt (slice b 0 128) 26) 4 = false) ∧ (pathValid (pathOf u (leAt (slice b 0 128) 24 2)) = true) ∧ (leAt (pathOf u (leAt (slice b 0 128) 24 2)) 2 2 % 1024 = c.dom) ∧ (connAreas u (dConn d) (connFrom c (slice b 0 128) v) = some e) :=
  by
    have h : ((connAreas (descRead ({ (((((sSend 0x41).wr R.CAR_SLICE_KEEP.KEEP_SIZE [1] 16).wr R.CAR_SLICE_CTX.CTX_SIZE [1] 16).wr R.DOM_RING_W0.STATE [1] 2).wr R.DOM_RING_W0.TYPE [1] 3).wr R.DOM_RING_W1.RING [1] 1 with dom := { Dom.reset with rings := [(0, { Ring.none with fetched := [(0, sDesc 0x41)] }), (1, Ring.none)] }, car := { sCar.car with conns := [(1, { sConn with st := .allocated })] } }) 0 [(dAddr (sDesc 0x41), 128)] (.ok ([0, 0, 0, 0, 0, 0, 0, 0, 0, 0, 0, 0, 0, 0, 0, 0, 0, 0, 0, 0, 0, 0, 0, 0, 0, 0, 2, 6, 0, 6, 1, 1, 0, 0, 0, 0, 1, 0, 0, 0, 1, 0, 1, 0, 10, 0, 0, 0, 10, 0, 0, 0, 10, 0, 0, 0, 10, 0, 0, 0] ++ [1] ++ List.replicate 67 0))).2 1 (connFrom { sConn with st := .allocated } (slice ([0, 0, 0, 0, 0, 0, 0, 0, 0, 0, 0, 0, 0, 0, 0, 0, 0, 0, 0, 0, 0, 0, 0, 0, 0, 0, 2, 6, 0, 6, 1, 1, 0, 0, 0, 0, 1, 0, 0, 0, 1, 0, 1, 0, 10, 0, 0, 0, 10, 0, 0, 0, 10, 0, 0, 0, 10, 0, 0, 0] ++ [1] ++ List.replicate 67 0) 0 128) 1)).any fun _ => true) = true := by decide +kernel
    obtain ⟨e, h, -⟩ := held_of h
    exact ⟨0, [0, 0, 0, 0, 0, 0, 0, 0, 0, 0, 0, 0, 0, 0, 0, 0, 0, 0, 0, 0, 0, 0, 0, 0, 0, 0, 2, 6, 0, 6, 1, 1, 0, 0, 0, 0, 1, 0, 0, 0, 1, 0, 1, 0, 10, 0, 0, 0, 10, 0, 0, 0, 10, 0, 0, 0, 10, 0, 0, 0] ++ [1] ++ List.replicate 67 0, 0, 1, sDesc 0x41, { sConn with st := .allocated }, e, { (((((sSend 0x41).wr R.CAR_SLICE_KEEP.KEEP_SIZE [1] 16).wr R.CAR_SLICE_CTX.CTX_SIZE [1] 16).wr R.DOM_RING_W0.STATE [1] 2).wr R.DOM_RING_W0.TYPE [1] 3).wr R.DOM_RING_W1.RING [1] 1 with dom := { Dom.reset with rings := [(0, { Ring.none with fetched := [(0, sDesc 0x41)] }), (1, Ring.none)] }, car := { sCar.car with conns := [(1, { sConn with st := .allocated })] } }, _, by decide, by decide +kernel, by decide, rfl, by decide +kernel, by decide +kernel, by decide +kernel, by decide, by decide +kernel, by decide +kernel, h⟩

theorem wit_CarterConnections_2 : ∃ (r : Fin 262144) (k : Nat) (d : Bytes) (c : Conn) (s : State), (Awake s) ∧ (SendReady s r.val 0x42 k d c) ∧ (c.st = .allocated) :=
  ⟨0, 0, sDesc 0x42, { sConn with st := .allocated }, { sSend 0x42 with car := { sCar.car with conns := [(1, { sConn with st := .allocated })] } }, by decide⟩

theorem wit_CarterConnections_3 : ∃ (r : Fin 262144) (k : Nat) (d : Bytes) (c : Conn) (s : State), (Awake s) ∧ (SendReady s r.val 0x43 k d c) ∧ (c.tier = .onDie) :=
  ⟨0, 0, sDesc 0x43, sConn, sSend 0x43, by decide⟩

theorem wit_CarterConnections_4 : ∃ (r : Fin 262144) (k : Nat) (d : Bytes) (s : State), (Awake s) ∧ (headOp s r.val 2 0x48 = some (k, d)) ∧ ((ringOwner s r.val || !fnLive s (ringFn s r.val).1 (ringFn s r.val).2) = false) ∧ (descOk d = true) ∧ (s.flag R.CAR_CFG.EN [] = true) ∧ (bit (dArg d) 3 = false) ∧ (s.car.fresh < 1048576) :=
  ⟨0, 0, sDesc 0x48, sSend 0x48, by decide⟩

theorem wit_CarterConnections_5 : ∃ (r : Fin 262144) (k : Nat) (d : Bytes) (g : MemRegion) (s : State), (Awake s) ∧ (headOp s r.val 2 0x49 = some (k, d)) ∧ ((ringOwner s r.val || !fnLive s (ringFn s r.val).1 (ringFn s r.val).2) = false) ∧ (descOk d = true) ∧ (s.flag R.CAR_CFG.EN [] = true) ∧ (SMap.find? s.car.regions (dRkey d / 4096) = some g) ∧ (g.inst = ringInst s r.val) ∧ (SMap.get 0 s.car.gens (dRkey d / 4096) = dRkey d % 4096) :=
  ⟨0, 0, sDesc 0x49, sRgn, sSend 0x49, by decide⟩

theorem wit_CarterConnections_6 : ∃ (r : Fin 262144) (b : Bytes) (k : Nat) (d : Bytes) (s u : State), (Awake s) ∧ (CtrlOne s r.val 0x40 288 k d b u) ∧ (recIndex (slice b 0 (ctrlStride 288)) < 16384) ∧ (pathOk (recObj (slice b 0 (ctrlStride 288)) 256) = true) :=
  ⟨0, List.replicate 33 0 ++ [42] ++ List.replicate 255 0, 0, sDesc 0x40, sRing 5 (sDesc 0x40), sGot (sRing 5 (sDesc 0x40)) (sDesc 0x40) (List.replicate 33 0 ++ [42] ++ List.replicate 255 0) 288, by decide, ⟨by decide, by decide, by decide, by decide, rfl⟩, by decide⟩

theorem wit_CarterConnections_7 : ∃ (s : State), (Awake s) ∧ (s.car.conns = []) ∧ ((List.range 4).find? (fun q => anyOverlap (carAreas s q)) = none) ∧ ((List.range 4).find? (fun q => (carAreas s q).any (fun a => a.1 + a.2 > 49152)) = none) :=
  ⟨(((State.reset.wr R.CAR_RGN.BASE [] 100).wr R.CAR_SLICE_DIR.DIR_BASE [0] 200).wr R.CAR_SLICE_DIR.DIR_BASE [1] 200), by decide⟩

theorem wit_CarterCache_0 : ∃ (n : Fin 16777216) (b : Bytes) (c : Conn) (s u : State), (Awake s) ∧ (connGet s n.val = some c) ∧ (c.tier = .fetching) ∧ (c.closeDue = false) ∧ (c.host = false) ∧ ((homeAt n.val c).any (fun a => poisonedRange s a.1 a.2) = false) ∧ (u = dropLedger (payOwed (connPut s n.val { homeIn s n.val c with tier := .onDie, used := s.now }) n.val) n.val) :=
  ⟨1, [], { sConn with tier := .fetching }, sWith { sConn with tier := .fetching }, _, by decide, by decide, by decide, by decide, by decide, by decide, rfl⟩

theorem wit_CarterCache_1 : ∃ (n : Fin 16777216) (x : RdRes) (c : Conn) (s u v : State), (Awake s) ∧ (connGet s n.val = some c) ∧ (c.tier = .fetching) ∧ (c.closeDue = false) ∧ (c.host = false) ∧ ((∀ b, x ≠ .ok b)) ∧ (u = (match homeAt n.val c with | some (a, _) => hbmFail s a | none => s)) ∧ (v = connError ((connPut u n.val { c with tier := .stub }).inc R.CAR_CNT.COUNT [n.val % 4, 14]) n.val csContextFault false flushBind) :=
  ⟨1, .xlate, { sConn with tier := .fetching }, sWith { sConn with tier := .fetching }, _, _, by decide, by decide, by decide, by decide, by decide, by simp, rfl, rfl⟩

theorem wit_CarterCache_2 : ∃ (q : Fin 4) (n : Nat) (c e : Conn) (s u : State), (Awake s) ∧ (u = pumpFetches s) ∧ (u.car.fetchq.any (fun n => n % 4 == q.val) = true) ∧ (fetchesOut u q.val < 64) ∧ (lru ((sliceConns u q.val).filter (fun e => idleConn u e.1 e.2 && creditFits u e.2)) = some (n, c)) ∧ (connGet u n = some e) :=
  ⟨1, 1, sConn, sConn, { sCar with car := { sCar.car with conns := [(1, sConn), (5, { sConn with tier := .fetchWait, winLog := 40 })], fetchq := [5] } }, _, by decide, rfl, by decide +kernel⟩

theorem wit_CarterCache_3 : ∃ (n : Fin 16777216) (c : Conn) (s u : State), (Awake s) ∧ (connGet s n.val = some c) ∧ (c.tier = .writing) ∧ (c.closeDue = false) ∧ (u = connPut s n.val { c with tier := .home }) :=
  ⟨1, { sConn with tier := .writing }, sWith { sConn with tier := .writing }, _, by decide, by decide, by decide, by decide, rfl⟩

theorem wit_CarterCache_4 : ∃ (n : Fin 16777216) (c : Conn) (s u v : State), (Awake s) ∧ (connGet s n.val = some c) ∧ (c.evictPending = true) ∧ ((idleConn s n.val c && creditFits s c) = false) ∧ (u = clockTo s (c.evictAt + 2 * c.rto * 10)) ∧ (v = (connPut u n.val { c with evictPending := false }).inc R.CAR_CNT.COUNT [n.val % 4, 17]) ∧ (c.long = false) :=
  ⟨1, { sConn with evictPending := true, segs := [sSeg] }, sWith { sConn with evictPending := true, segs := [sSeg] }, _, _, by decide, by decide, by decide, by decide, rfl, rfl, by decide⟩

theorem wit_CarterCache_5 : ∃ (n : Fin 16777216) (c : Conn) (s : State), (Awake s) ∧ (connGet s n.val = some c) ∧ (c.st = .closing) :=
  ⟨1, { sConn with st := .closing }, sWith { sConn with st := .closing }, by decide⟩

theorem wit_HuskJobs_0 : ∃ (q : Fin 4) (c : Fin 32) (w : Nat) (m : Bytes) (l : List Bytes) (s : State), (Awake s) ∧ (chanMsgs s (0xFF00 + q.val) = m :: l) ∧ (weightOk s 6 = true) ∧ (cluTakes s q.val c.val = true) :=
  ⟨0, 0, 3, [1], [], { (sHsk []).wr R.HSK_CLU_W0.AVAIL [0] 1 with fil := { Fil.reset with chan := [(0xFF00, [[1]])] } }, by decide⟩

theorem wit_HuskJobs_1 : ∃ (n b : Nat) (u p : Fin 128) (j : HJob) (s : State), (Awake s) ∧ (s.hsk.jobs[n]? = some j) ∧ (j.lanes.any (fun y => y.pair == u.val && y.blk == b) = true) ∧ (b < dataBlocks j) :=
  ⟨0, 0, 0, 0, { sJob with lanes := [⟨0, 0, false⟩] }, sHsk [{ sJob with lanes := [⟨0, 0, false⟩] }], by decide⟩

theorem wit_HuskJobs_2 : ∃ (n : Nat) (j : HJob) (s : State), (Awake s) ∧ (s.hsk.jobs[n]? = some j) ∧ (j.need = []) ∧ (jobRan j = true) ∧ ((s.hsk.jobs.take n).any (fun i => i.req == j.req && i.key == j.key) = false) ∧ (j.esp = none) :=
  ⟨0, { sJob with next := 2 }, sHsk [{ sJob with next := 2 }], by decide⟩

theorem wit_HuskJobs_3 : ∃ (c : Fin 32) (n : Fin 1048576) (l : List (Nat × Nat)) (s : State), (Awake s) ∧ (s.flag R.LCK_CFG.EN [] = true) ∧ ((loadsOut s c.val).contains n.val = true) ∧ (l = SMap.get [] s.hsk.cache c.val ∧ l.length < 64) :=
  ⟨0, 1, [], sHsk [{ sJob with need := [1] }], by decide⟩

theorem wit_KeysAndStore_0 : ∃ (r : Fin 262144) (k : Nat) (d : Bytes) (b m : Bytes) (s : State), (Awake s) ∧ (headOp s r.val 4 0x50 = some (k, d)) ∧ (leAt d 24 4 ≤ 256) ∧ (blobOk (slice b 0 (leAt d 24 4)) (leAt d 24 4) = true) ∧ (keyReady s (ringDomain s r.val) = true) ∧ (byteAt (slice b 0 (leAt d 24 4)) 2 = 2) ∧ (inRange s (ringDomain s r.val) (descSlot d) = true) ∧ ((slotGet s (descSlot d)).st = 0) ∧ (byteAt (slice b 0 (leAt d 24 4)) 1 = 2 → wrapOk s (ringDomain s r.val) (descWrap d) = true) ∧ (unwrap s (descWrap d) (slice b 0 (leAt d 24 4)) = some m) ∧ (leAt (slice b 0 (leAt d 24 4)) 4 2 % 1024 = ringDomain s r.val ∧ leAt (slice b 0 (leAt d 24 4)) 24 8 = bindOf s (ringDomain s r.val)) :=
  by
    have h : ((unwrap (sLck [(0, sWrap)] []) 0 (exportBlob { LckSlot.none with ty := 2 } (List.replicate 16 1) (List.replicate 32 0) (List.replicate 12 0) 0)).any fun _ => true) = true := by decide +kernel
    obtain ⟨m, h, -⟩ := held_of h
    refine ⟨0, 0, [0x50, 0, 0, 0, 0, 0, 0, 0, 1, 0, 0, 0, 0, 0, 0, 0, 0, 0, 0, 0, 0, 0, 0, 0, 64, 0, 0, 0] ++ List.replicate 36 0, exportBlob { LckSlot.none with ty := 2 } (List.replicate 16 1) (List.replicate 32 0) (List.replicate 12 0) 0, m, sLck [(0, sWrap)] ([0x50, 0, 0, 0, 0, 0, 0, 0, 1, 0, 0, 0, 0, 0, 0, 0, 0, 0, 0, 0, 0, 0, 0, 0, 64, 0, 0, 0] ++ List.replicate 36 0), by decide, by decide, by decide, by decide +kernel, by decide, by decide +kernel, by decide, by decide, fun _ => by decide, ?_, by decide +kernel⟩
    exact h

theorem wit_KeysAndStore_1 : ∃ (r : Fin 262144) (k : Nat) (d : Bytes) (n ty : Nat) (m : Bytes) (s u : State), (Awake s) ∧ (headOp s r.val 4 0x51 = some (k, d)) ∧ (n = descSlot d ∧ ty = byteAt d 28 ∧ matLen ty ≠ 0) ∧ (keyReady s (ringDomain s r.val) = true) ∧ (ty = 6 → n % 2 = 0) ∧ ((keySlots ty n).all (fun i => inRange s (ringDomain s r.val) i && (slotGet s i).st == 0) = true) ∧ (s.flag R.LCK_STATUS.DRBG_OK [] = true) ∧ (drawMat s ty = (m, u)) ∧ (ty = 5 → m.take 16 ≠ slice m 16 16) :=
  ⟨0, 0, [0x51, 0, 0, 0, 0, 0, 0, 0, 1, 0, 0, 0, 0, 0, 0, 0, 0, 0, 0, 0, 0, 0, 0, 0, 0, 0, 0, 0, 2] ++ List.replicate 35 0, 1, 2, _, sLck [] ([0x51, 0, 0, 0, 0, 0, 0, 0, 1, 0, 0, 0, 0, 0, 0, 0, 0, 0, 0, 0, 0, 0, 0, 0, 0, 0, 0, 0, 2] ++ List.replicate 35 0), _, by decide, by decide, by decide, by decide, by decide, by decide, by decide, rfl, fun h => by cases h⟩

theorem wit_KeysAndStore_2 : ∃ (r : Fin 262144) (k : Nat) (d : Bytes) (x : LckSlot) (w : Nat) (y : Bytes) (s u : State), (Awake s) ∧ (headOp s r.val 4 0x52 = some (k, d)) ∧ (keyReady s (ringDomain s r.val) = true) ∧ (inRange s (ringDomain s r.val) (descSlot d) = true) ∧ (x = slotGet s (descSlot d) ∧ w = descWrap d) ∧ (x.st = 1 ∧ x.attr % 2 = 1 ∧ (x.ty = 6 → descSlot d % 2 = 0)) ∧ (wrapOk s (ringDomain s r.val) w = true) ∧ (48 + matLen x.ty ≤ leAt d 24 4) ∧ ((slotGet s w).exports < 2 ^ 32) ∧ (s.freeBytes 12 = (y, u)) :=
  ⟨0, 0, sDesc 0x52, _, 0, _, sLck [(0, sWrap), (1, { sWrap with ty := 2, attr := 1 })] (sDesc 0x52), _, by decide, by decide, by decide, by decide, ⟨rfl, by decide⟩, by decide, by decide, by decide, by decide, rfl⟩

theorem wit_KeysAndStore_3 : ∃ (r : Fin 262144) (k : Nat) (d : Bytes) (x : LckSlot) (s u : State), (Awake s) ∧ (headOp s r.val 4 0x53 = some (k, d)) ∧ (keyReady s (ringDomain s r.val) = true) ∧ (inRange s (ringDomain s r.val) (descSlot d) = true) ∧ (x = slotGet s (descSlot d)) ∧ (x.st ≠ 0 ∧ (x.ty = 6 → descSlot d % 2 = 0)) ∧ (u = popDesc ((keySlots x.ty (descSlot d)).foldl (fun s i => purge (slotZero s i) i) s) r.val k) :=
  ⟨0, 0, sDesc 0x53, _, sLck [(1, { sWrap with ty := 2, attr := 1 })] (sDesc 0x53), _, by decide, by decide, by decide, by decide, rfl, by decide, rfl⟩

theorem wit_KeysAndStore_4 : ∃ (x : Destroy) (s : State), (Awake s) ∧ (s.lck.destroys.find? (fun x => x.slots.all (fun n => !slotHeld s n)) = some x) ∧ (x.ring < 262144) :=
  ⟨{ ring := 0, desc := sDesc 0x53, slots := [1] }, { sLck [] [] with lck := { Lck.reset with destroys := [{ ring := 0, desc := sDesc 0x53, slots := [1] }] } }, by decide⟩

theorem wit_KeysAndStore_5 : ∃ (r : Fin 262144) (k : Nat) (d : Bytes) (s : State), (Awake s) ∧ (headOp s r.val 4 0x54 = some (k, d)) ∧ (keyReady s (ringDomain s r.val) = true) ∧ (inRange s (ringDomain s r.val) (descSlot d) = true) :=
  ⟨0, 0, sDesc 0x54, sLck [] (sDesc 0x54), by decide⟩

theorem wit_KeysAndStore_6 : ∃ (d : Fin 1024) (b : BitVec 20) (c : BitVec 21) (s : State), (Awake s) ∧ (s.flag R.LCK_DOM_W1.BUSY [d.val] = false) ∧ (b.toNat + c.toNat ≤ 1048576) ∧ ((s.lck.range ++ s.lck.pend).all (fun e => e.1 == d.val || decide (b.toNat + c.toNat ≤ e.2.1) || decide (e.2.1 + e.2.2 ≤ b.toNat)) = true) ∧ (SMap.get (0, 0) s.lck.range d.val = (0, 0)) :=
  ⟨3, 32, 16, sLck [] [], by decide⟩

theorem wit_KeysAndStore_7 : ∃ (d : Fin 1024) (s : State), (Awake s) ∧ (s.flag R.LCK_DOM_W1.BUSY [d.val] = false) ∧ ((SMap.get (0, 0) s.lck.range d.val).2 ≠ 0) :=
  ⟨0, sLck [] [], by decide⟩

theorem wit_KeysAndStore_8 : ∃ (d : Fin 1024) (b c : Nat) (s : State), (Awake s) ∧ (SMap.find? s.lck.pend d.val = some (b, c)) ∧ (s.hsk.jobs = []) :=
  ⟨0, 0, 8, { sLck [] [] with lck := { Lck.reset with pend := [(0, (0, 8))], range := [(0, (0, 16))] } }, by decide⟩

theorem wit_KeysAndStore_9 : ∃ (s : State), (Awake s) ∧ (s.flag R.LCK_STATUS.READY [] = false) ∧ (s.rev.drbgDead = false) :=
  ⟨State.reset, by decide⟩

theorem wit_KeysAndStore_10 : ∃ (n : Fin 1048576) (s : State), (Awake s) :=
  ⟨1, State.reset, by decide⟩

theorem wit_KeysAndStore_11 : ∃ (b : Bool) (s u : State) (x : Bool), (Awake s) ∧ (countFailure (s.wr R.LCK_STATUS.ENTROPY_FAIL [] 1) 10 0 0 [] = (u, x)) :=
  ⟨true, State.reset, _, _, by decide, rfl⟩

theorem wit_RootPorts_0 : ∃ (n : Fin 16) (s u : State), (Awake s) ∧ (s.flag R.STG_RP_CTL.EN [n.val] = false) ∧ (u = s.wr R.STG_RP_CTL.EN [n.val] 1) :=
  ⟨0, State.reset, _, by decide, by decide, rfl⟩

theorem wit_RootPorts_1 : ∃ (n : Fin 16) (s u : State), (Awake s) ∧ (s.flag R.STG_RP_CTL.EN [n.val] = true) ∧ (u = s.wr R.STG_RP_CTL.EN [n.val] 0) ∧ (rpSt u n.val ≠ rsOff ∧ rpSt u n.val ≠ rsRetired) :=
  ⟨0, sPort 4 Rp.reset, _, by decide, by decide, rfl, by decide⟩

theorem wit_RootPorts_2 : ∃ (n : Fin 16) (s u : State), (Awake s) ∧ ((rpGet s n.val).present = false) ∧ (rpSt s n.val = rsOff) ∧ (u = rpCount (rpMod s n.val (fun p => { p with present := true })) n.val 10) :=
  ⟨0, State.reset, _, by decide, by decide, by decide, rfl⟩

theorem wit_RootPorts_3 : ∃ (n : Fin 16) (s u : State), (Awake s) ∧ ((rpGet s n.val).present = true) ∧ (rpSt s n.val ≠ rsOff ∧ rpSt s n.val ≠ rsFaulted) ∧ (u = rpCount (rpMod s n.val (fun p => { p with present := false })) n.val 10) :=
  ⟨0, sPort 4 { Rp.reset with present := true }, _, by decide, by decide, by decide, rfl⟩

theorem wit_RootPorts_4 : ∃ (n : Fin 16) (s : State), (Awake s) ∧ (rpSt s n.val ≠ rsOff ∧ rpSt s n.val ≠ rsFaulted ∧ rpSt s n.val ≠ rsRetired) :=
  ⟨0, sPort 4 Rp.reset, by decide⟩

theorem wit_RootPorts_5 : ∃ (n : Fin 16) (s u : State), (Awake s) ∧ (rpSt s n.val = rsOnline) ∧ (u = rpEvt (rpCfgBit s n.val 30 16 true) n.val 3) ∧ (rpSt u n.val = rsOnline) :=
  ⟨0, sPort 4 Rp.reset, _, by decide, by decide, rfl, by decide⟩

theorem wit_RootPorts_6 : ∃ (n : Fin 16) (s : State), (Awake s) ∧ ((rpGet s n.val).armed = true) :=
  ⟨0, sPort 4 { Rp.reset with armed := true }, by decide⟩

theorem wit_RootPorts_7 : ∃ (n : Fin 16) (s : State), (Awake s) ∧ (rpSt s n.val = rsPowering) :=
  ⟨0, sPort 1 Rp.reset, by decide⟩

theorem wit_RootPorts_8 : ∃ (n : Fin 16) (s u : State), (Awake s) ∧ (rpSt s n.val = rsTraining) ∧ ((rpGet s n.val).refclk = some true) ∧ (u = clockTo s ((rpGet s n.val).since + 1000000000)) ∧ ((rpGet u n.val).perstOff = false) :=
  ⟨0, { sPort 2 { Rp.reset with refclk := some true } with now := 2000000000 }, _, by decide, by decide, by decide, rfl, by decide +kernel⟩

theorem wit_RootPorts_9 : ∃ (n : Fin 16) (v w : Fin 8) (s : State), (Awake s) ∧ (rpSt s n.val = rsTraining) ∧ ((rpGet s n.val).perstOff = true) ∧ (1 ≤ v.val ∧ v.val ≤ 5) ∧ (w.val = 1 ∨ w.val = 2 ∨ w.val = 4) :=
  ⟨0, 5, 4, sPort 2 { Rp.reset with perstOff := true }, by decide⟩

theorem wit_RootPorts_10 : ∃ (n : Fin 16) (s : State), (Awake s) ∧ (rpSt s n.val = rsTraining) :=
  ⟨0, sPort 2 Rp.reset, by decide⟩

theorem wit_RootPorts_11 : ∃ (n : Fin 16) (v : Fin 65536) (s u : State), (Awake s) ∧ (rpSt s n.val = rsInit) ∧ (u = clockTo s ((rpGet s n.val).since + 1000000000)) :=
  ⟨0, 0x1234, sPort 3 Rp.reset, _, by decide, by decide, rfl⟩

theorem wit_RootPorts_12 : ∃ (n : Fin 16) (b z : Nat) (s u : State), (Awake s) ∧ (rpSt s n.val = rsInit) ∧ (z ≠ 0) ∧ (u = (rpMod s n.val (fun p => { p with drv := [(1, { lba := b, size := z })], aborted := [] })).wr R.STG_RP_DRV.NSCOUNT [n.val] 1) :=
  ⟨0, 512, 100, sPort 3 Rp.reset, _, by decide, by decide, by decide, rfl⟩

theorem wit_RootPorts_13 : ∃ (n : Fin 16) (s : State), (Awake s) ∧ (rpSt s n.val = rsQuiescing) ∧ (rpOutstanding s n.val = 0) :=
  ⟨0, sPort 5 Rp.reset, by decide⟩

theorem wit_RootPorts_14 : ∃ (n : Fin 16) (v : Fin 65536) (w : Nat) (s : State), (Awake s) ∧ (w = ((rpCfgGet s n.val 30 &&& 0xFFFFE800) ||| (v.val &&& 0x17FF)) % 2 ^ 32) :=
  ⟨0, 0x1C0, _, sPort 4 { Rp.reset with cfg := [(30, 0x1C0)] }, by decide, rfl⟩

theorem wit_RootPorts_15 : ∃ (n : Fin 16) (s u : State), (Awake s) ∧ (rpSt s n.val = rsOnline) ∧ (u = portLost (rpGo (pwrLed (rpMod s n.val (fun p => { p with armed := false })) n.val 2) n.val rsQuiescing) n.val) :=
  ⟨0, sPort 4 Rp.reset, _, by decide, by decide, rfl⟩

theorem wit_RootPorts_16 : ∃ (n : Fin 16) (s : State), (Awake s) ∧ (rpSt s n.val = rsTraining ∨ rpSt s n.val = rsInit ∨ rpSt s n.val = rsOnline) :=
  ⟨0, sPort 4 Rp.reset, by decide⟩

theorem wit_DrivesAndTables_0 : ∃ (n : Fin 16) (c : Fin 65536) (s : State), (Awake s) ∧ ((outOps s n.val).any (fun o => o.tag == c.val) = true) :=
  ⟨0, 7, sDrive [sLeg], by decide⟩

theorem wit_DrivesAndTables_1 : ∃ (n : Fin 16) (c : Fin 65536) (s u : State), (Awake s) ∧ ((outOps s n.val).any (fun o => o.tag == c.val) = true) ∧ (u = rpCount (rpCount (rpMod (modLegs (clockTo s (cmdDue s n.val c.val)) (fun o => if o.port == some n.val && o.st == .out && o.tag == c.val then { o with st := .ended .lost } else o)) n.val (fun p => { p with aborted := p.aborted ++ [c.val] })) n.val 2) n.val 3) :=
  ⟨0, 7, sDrive [sLeg], _, by decide, by decide, rfl⟩

theorem wit_DrivesAndTables_2 : ∃ (n : Fin 16) (c : Fin 65536) (s : State), (Awake s) ∧ (rpSt s n.val = rsOnline) ∧ ((rpGet s n.val).aborted.contains c.val = true) :=
  ⟨0, 7, sPort 4 { Rp.reset with aborted := [7] }, by decide⟩

theorem wit_DrivesAndTables_3 : ∃ (n : Fin 16) (c : DpcCause) (s u : State), (Awake s) ∧ (dpcEnabled s n.val c = true) ∧ (s.flag R.STG_RP_STATUS.DPC [n.val] = false) ∧ (rpSt s n.val = rsOnline) ∧ (u = rpCount (s.wr R.STG_RP_STATUS.DPC [n.val] 1) n.val 8) :=
  ⟨0, .surpriseDown, sPort 4 { Rp.reset with cfg := [(83, 0x10000)] }, _, by decide, by decide, by decide, by decide, rfl⟩

theorem wit_DrivesAndTables_4 : ∃ (n : Fin 16) (s : State), (Awake s) ∧ (s.flag R.STG_RP_STATUS.DPC [n.val] = true) ∧ (rpSt s n.val = rsSurprise) ∧ (rpOutstanding s n.val = 0) :=
  ⟨0, (sPort 6 Rp.reset).wr R.STG_RP_STATUS.DPC [0] 1, by decide⟩

theorem wit_DrivesAndTables_5 : ∃ (n : Fin 16) (b : Fin 32) (s : State), (Awake s) :=
  ⟨0, 3, sPort 4 Rp.reset, by decide⟩

theorem wit_DrivesAndTables_6 : ∃ (n : Fin 16) (a l : Nat) (d : Bytes) (s : State), (Awake s) ∧ (s.flag R.STG_RP_STATUS.DPC [n.val] = false) ∧ (rpSt s n.val = rsInit ∨ rpSt s n.val = rsOnline ∨ rpSt s n.val = rsQuiescing) ∧ (inStage s a d.length = true) ∧ (inStage s a l = true) :=
  ⟨0, 0x8000000000, 4, [1, 2], (sPort 4 Rp.reset).wr R.STG_STAGE.SIZE [0] 16, by decide⟩

theorem wit_DrivesAndTables_7 : ∃ (r : Fin 262144) (b : Bytes) (k : Nat) (d : Bytes) (s u : State), (Awake s) ∧ (CtrlOne s r.val 0x60 96 k d b u) ∧ (recIndex (slice b 0 (ctrlStride 96)) < 65536) ∧ (nsValid (recObj (slice b 0 (ctrlStride 96)) 64) = true → nsBad u (recObj (slice b 0 (ctrlStride 96)) 64) = false) ∧ (nsValid (recObj (slice b 0 (ctrlStride 96)) 64) = true → u.stg.ns.any (fun x => x.1 ≠ recIndex (slice b 0 (ctrlStride 96)) && nsValid x.2 && nsCtl x.2 == nsCtl (recObj (slice b 0 (ctrlStride 96)) 64) && nsId x.2 == nsId (recObj (slice b 0 (ctrlStride 96)) 64)) = false) :=
  ⟨0, List.replicate 96 0, 0, sDesc 0x60, sRing 5 (sDesc 0x60), sGot (sRing 5 (sDesc 0x60)) (sDesc 0x60) (List.replicate 96 0) 96, by decide, ⟨by decide, by decide, by decide, by decide, rfl⟩, by decide⟩

theorem wit_DrivesAndTables_8 : ∃ (r : Fin 262144) (b : Bytes) (k : Nat) (d : Bytes) (s u : State), (Awake s) ∧ (CtrlOne s r.val 0x61 96 k d b u) ∧ (recIndex (slice b 0 (ctrlStride 96)) < 262144) ∧ (extBad (recObj (slice b 0 (ctrlStride 96)) 64) = false) ∧ (nsUsing u (recIndex (slice b 0 (ctrlStride 96))) ≠ [] → extStart (extGet u (recIndex (slice b 0 (ctrlStride 96)))) = extStart (recObj (slice b 0 (ctrlStride 96)) 64) ∧ extCount (extGet u (recIndex (slice b 0 (ctrlStride 96)))) = extCount (recObj (slice b 0 (ctrlStride 96)) 64)) :=
  ⟨0, List.replicate 48 0 ++ [1] ++ List.replicate 47 0, 0, sDesc 0x61, sRing 5 (sDesc 0x61), sGot (sRing 5 (sDesc 0x61)) (sDesc 0x61) (List.replicate 48 0 ++ [1] ++ List.replicate 47 0) 96, by decide, ⟨by decide, by decide, by decide, by decide, rfl⟩, by decide⟩

theorem wit_DrivesAndTables_9 : ∃ (r : Fin 262144) (b : Bytes) (k : Nat) (d : Bytes) (s u : State) (c : Bytes), (Awake s) ∧ (CtrlOne s r.val 0x62 32 k d b u) ∧ (recIndex (slice b 0 (ctrlStride 32)) < 65536) ∧ (nsReadRec u (slice b 0 (ctrlStride 32)) = .ok u (some (8, c))) :=
  ⟨0, List.replicate 32 0, 0, sDesc 0x62, sRing 5 (sDesc 0x62), sGot (sRing 5 (sDesc 0x62)) (sDesc 0x62) (List.replicate 32 0) 32, _, by decide, ⟨by decide, by decide, by decide, by decide, rfl⟩, by decide, rfl⟩

theorem wit_DrivesAndTables_10 : ∃ (s : State), (Awake s) ∧ ((List.range 4).any (fun q => (carAreas s q).any (fun a => overlaps a.1 a.2 (s.rd R.STG_STAGE.BASE [q]) (s.rd R.STG_STAGE.SIZE [q]))) = false) ∧ ((List.range 4).any (fun q => s.rd R.STG_STAGE.BASE [q] + s.rd R.STG_STAGE.SIZE [q] > 49152) = false) :=
  ⟨State.reset, by decide⟩

theorem wit_NvmeAdmin_0 : ∃ (k : Fin 16392) (b : Bytes) (y : NvSq) (s u : State) (c : Ctrl) (n : Nat), (Awake s) ∧ (NvFront s k.val 0 1 b y u) ∧ (c = ctlGet u k.val ∧ n = sqeDw b 10 % 65536) ∧ (0 < n ∧ n ≤ grantedSq c ∧ SMap.find? c.sqs n = none) ∧ (0 < sqeDw b 10 / 65536 ∧ sqeDw b 10 / 65536 ≤ 4095) ∧ (bit (sqeDw b 11) 0 = true) ∧ (sqeDw b 11 / 65536 ≠ 0 ∧ (SMap.find? c.cqs (sqeDw b 11 / 65536)).isSome = true) ∧ (sqePrp1 b % 4096 = 0) :=
  ⟨0, sSqe 1 [2, 0, 3, 0] [1, 0, 1, 0], sSq 0, sNvme sCtrl, _, _, 2, by decide, ⟨by decide, by decide, by decide, by decide, by decide, by decide, by decide, rfl⟩, ⟨rfl, by decide⟩, by decide +kernel⟩

theorem wit_NvmeAdmin_1 : ∃ (k : Fin 16392) (b : Bytes) (y : NvSq) (s u : State) (n : Nat), (Awake s) ∧ (NvFront s k.val 0 0 b y u) ∧ (n = sqeDw b 10 % 65536) ∧ (n ≠ 0 ∧ (SMap.find? (ctlGet u k.val).sqs n).isSome = true) :=
  ⟨0, sSqe 0 [1, 0, 0, 0] [0, 0, 0, 0], sSq 0, sNvme sCtrl, _, 1, by decide, ⟨by decide, by decide, by decide, by decide, by decide, by decide, by decide, rfl⟩, by decide +kernel⟩

theorem wit_NvmeAdmin_2 : ∃ (k : Fin 16392) (b : Bytes) (y : NvSq) (s u : State) (c : Ctrl) (n : Nat), (Awake s) ∧ (NvFront s k.val 0 5 b y u) ∧ (c = ctlGet u k.val ∧ n = sqeDw b 10 % 65536) ∧ (0 < n ∧ n ≤ grantedCq c ∧ SMap.find? c.cqs n = none) ∧ (0 < sqeDw b 10 / 65536 ∧ sqeDw b 10 / 65536 ≤ 4095) ∧ (bit (sqeDw b 11) 0 = true) ∧ (sqeDw b 11 / 65536 ≤ 64) ∧ (sqePrp1 b % 4096 = 0) :=
  ⟨0, sSqe 5 [2, 0, 3, 0] [1, 0, 1, 0], sSq 0, sNvme sCtrl, _, _, 2, by decide, ⟨by decide, by decide, by decide, by decide, by decide, by decide, by decide, rfl⟩, ⟨rfl, by decide⟩, by decide +kernel⟩

theorem wit_NvmeAdmin_3 : ∃ (k : Fin 16392) (b : Bytes) (y : NvSq) (s u : State) (n : Nat), (Awake s) ∧ (NvFront s k.val 0 4 b y u) ∧ (n = sqeDw b 10 % 65536) ∧ (n ≠ 0 ∧ (SMap.find? (ctlGet u k.val).cqs n).isSome = true) ∧ ((ctlGet u k.val).sqs.any (fun x => x.2.cq == n) = false) :=
  ⟨0, sSqe 4 [1, 0, 0, 0] [0, 0, 0, 0], sSq 0, sNvme { sCtrl with sqs := [(0, sSq 0)] }, _, 1, by decide, ⟨by decide, by decide, by decide, by decide, by decide, by decide, by decide, rfl⟩, by decide +kernel⟩

theorem wit_NvmeAdmin_4 : ∃ (k : Fin 16392) (b : Bytes) (y : NvSq) (s r u : State) (x : RdRes) (v : State) (d : Bytes) (p : List (Nat × Nat)), (Awake s) ∧ (dataReach s k.val 0 (.ok b) x (fun b => match getLog s k.val b with | .ok (_, d) => d.length | .error _ => 0) true = (true, r)) ∧ (NvFront r k.val 0 2 b y u) ∧ (getLog u k.val b = .ok (v, d)) ∧ (prpOf b d.length x = .ok p) :=
  by
    have q : ((getLog (sNvTaken 0 (sSqe 2 [1, 0, 15, 0] [0, 0, 0, 0])) 0 (sSqe 2 [1, 0, 15, 0] [0, 0, 0, 0])).toOption.any fun p => (prpOf (sSqe 2 [1, 0, 15, 0] [0, 0, 0, 0]) p.2.length .ur).toOption.isSome) = true := by decide +kernel
    obtain ⟨⟨v, d⟩, h1, h2⟩ := held_of q
    obtain ⟨p, h3⟩ := Option.isSome_iff_exists.1 h2
    exact ⟨0, sSqe 2 [1, 0, 15, 0] [0, 0, 0, 0], sSq 0, sNvme sCtrl, sNvme sCtrl, _, .ur, v, d, p, by decide, by decide +kernel, ⟨by decide, by decide, by decide, by decide, by decide, by decide, by decide, rfl⟩, ok_of_toOption h1, ok_of_toOption h3⟩

theorem wit_NvmeAdmin_5 : ∃ (k : Fin 16392) (b : Bytes) (y : NvSq) (s r u : State) (v : State) (d : Bytes) (p : List (Nat × Nat)), (Awake s) ∧ (dataReach s k.val 0 (.ok b) .ur (fun b => match identify s k.val b with | .ok (_, d) => d.length | .error _ => 0) true = (true, r)) ∧ (NvFront r k.val 0 6 b y u) ∧ (identify u k.val b = .ok (v, d)) ∧ (prpOf b d.length .ur = .ok p) :=
  by
    have q : ((identify (sNvTaken 0 (sSqe 6 [6, 0, 0, 0] [0, 0, 0, 0])) 0 (sSqe 6 [6, 0, 0, 0] [0, 0, 0, 0])).toOption.any fun p => (prpOf (sSqe 6 [6, 0, 0, 0] [0, 0, 0, 0]) p.2.length .ur).toOption.isSome) = true := by decide +kernel
    obtain ⟨⟨v, d⟩, h1, h2⟩ := held_of q
    obtain ⟨p, h3⟩ := Option.isSome_iff_exists.1 h2
    exact ⟨0, sSqe 6 [6, 0, 0, 0] [0, 0, 0, 0], sSq 0, sNvme sCtrl, sNvme sCtrl, _, v, d, p, by decide, by decide +kernel, ⟨by decide, by decide, by decide, by decide, by decide, by decide, by decide, rfl⟩, ok_of_toOption h1, ok_of_toOption h3⟩

theorem wit_NvmeAdmin_6 : ∃ (k : Fin 16392) (b : Bytes) (y : NvSq) (s u : State) (c : HCmd) (v : State), (Awake s) ∧ (NvFront s k.val 0 8 b y u) ∧ (u.stg.cmds.find? (fun c => c.ctrl == k.val && c.sq == some (sqeDw b 10 % 65536, sqeDw b 10 / 65536) && !c.posted && !c.discard) = some c) ∧ (v = cmdPost u c nsAborted) :=
  ⟨0, sSqe 8 [1, 0, 5, 0] [0, 0, 0, 0], sSq 0, { sNvme sCtrl with stg := { (sNvme sCtrl).stg with cmds := [sCmd [sLeg]] } }, _, sCmd [sLeg], _, by decide, ⟨by decide, by decide, by decide, by decide, by decide, by decide, by decide, rfl⟩, by decide, rfl⟩

theorem wit_NvmeAdmin_7 : ∃ (k : Fin 16392) (b : Bytes) (y : NvSq) (s u : State) (v : State) (r : Nat), (Awake s) ∧ (NvFront s k.val 0 9 b y u) ∧ (features.contains (sqeDw b 10 % 256) = true) ∧ (setFeature u k.val b = (v, nsOk, r)) :=
  ⟨0, sSqe 9 [8, 0, 0, 0] [3, 2, 0, 0], sSq 0, sNvme sCtrl, _, _, _, by decide, ⟨by decide, by decide, by decide, by decide, by decide, by decide, by decide, rfl⟩, by decide, rfl⟩

theorem wit_NvmeAdmin_8 : ∃ (k : Fin 16392) (b : Bytes) (y : NvSq) (s u : State), (Awake s) ∧ (NvFront s k.val 0 10 b y u) ∧ ((getFeature u k.val b).1 = nsOk) :=
  ⟨0, sSqe 10 [8, 0, 0, 0] [0, 0, 0, 0], sSq 0, sNvme sCtrl, _, by decide, ⟨by decide, by decide, by decide, by decide, by decide, by decide, by decide, rfl⟩, by decide⟩

theorem wit_NvmeAdmin_9 : ∃ (k : Fin 16392) (b : Bytes) (y : NvSq) (s u : State), (Awake s) ∧ (NvFront s k.val 0 12 b y u) ∧ ((ctlGet u k.val).aers.length < 4) :=
  ⟨0, sSqe 12 [0, 0, 0, 0] [0, 0, 0, 0], sSq 0, sNvme sCtrl, _, by decide, ⟨by decide, by decide, by decide, by decide, by decide, by decide, by decide, rfl⟩, by decide⟩

theorem wit_NvmeCommands_0 : ∃ (k : Fin 16392) (q : Fin 65) (v : Fin 65536) (y : NvSq) (s : State), (Awake s) ∧ (ctlExists s k.val = true) ∧ (SMap.find? (ctlGet s k.val).sqs q.val = some y) ∧ ((ctlGet s k.val).rdy = true) ∧ (v.val < y.size) :=
  ⟨0, 1, 3, sSq 1, sNvme sCtrl, by decide⟩

theorem wit_NvmeCommands_1 : ∃ (k : Fin 16392) (q : Fin 65) (v : Fin 65536) (y : NvCq) (s : State), (Awake s) ∧ (ctlExists s k.val = true) ∧ (SMap.find? (ctlGet s k.val).cqs q.val = some y) ∧ ((ctlGet s k.val).rdy = true) ∧ (v.val < y.size) :=
  ⟨0, 1, 3, sCq 1, sNvme sCtrl, by decide⟩

theorem wit_NvmeCommands_2 : ∃ (k : Fin 16392) (q : Fin 65) (i : Nat) (e b : Bytes) (y : NvSq) (s r u : State) (l : RdRes) (d : Bytes) (p : List (Nat × Nat)) (x : NvHap) (n a : Nat), (Awake s) ∧ (q.val ≠ 0) ∧ (nsFind s k.val (sqeNs b) = some (i, e)) ∧ (n = sqeNlb b * nsLba e) ∧ ((stageFit s k.val n).isSome = true) ∧ (dataReach s k.val q.val (.ok b) l (ioLen s k.val) false = (true, r)) ∧ (nsEnc e = true → huskAble r 5 = true) ∧ (NvFront r k.val q.val 1 b y u) ∧ (nsFind u k.val (sqeNs b) = some (i, e)) ∧ (nsFind r k.val (sqeNs b) = some (i, e)) ∧ (sqeSlba b + sqeNlb b ≤ nsSize e ∧ n ≤ mdts ∧ bits (sqeDw b 12) 26 4 = 0 ∧ nsRo e = false) ∧ (prpOf b n l = .ok p) ∧ (stageFit (dataTake u k.val b n l (some (.ok d))) k.val n = some a) :=
  ⟨0, 1, 0, sNs, sSqe 1 [0, 0, 0, 0] [0, 0, 0, 0], sSq 1, sNvme sCtrl, sNvme sCtrl, _, .ur, [], _, .done, 4096, 0, by decide, by decide, by decide, by decide, by decide, by decide +kernel, by decide, ⟨by decide, by decide, by decide, by decide, by decide, by decide, by decide, rfl⟩, by decide, by decide, by decide, rfl, by decide +kernel⟩

theorem wit_NvmeCommands_3 : ∃ (k : Fin 16392) (q : Fin 65) (i : Nat) (e b : Bytes) (y : NvSq) (s r u : State) (l : RdRes) (p : List (Nat × Nat)) (x : NvHap) (n a : Nat), (Awake s) ∧ (q.val ≠ 0) ∧ (nsFind s k.val (sqeNs b) = some (i, e)) ∧ (n = sqeNlb b * nsLba e) ∧ ((stageFit s k.val n).isSome = true) ∧ (dataReach s k.val q.val (.ok b) l (ioLen s k.val) true = (true, r)) ∧ (NvFront r k.val q.val 2 b y u) ∧ (nsFind u k.val (sqeNs b) = some (i, e)) ∧ (sqeSlba b + sqeNlb b ≤ nsSize e ∧ n ≤ mdts ∧ bits (sqeDw b 12) 26 4 = 0) ∧ (prpOf b n l = .ok p) ∧ (stageFit u k.val n = some a) :=
  ⟨0, 1, 0, sNs, sSqe 2 [0, 0, 0, 0] [0, 0, 0, 0], sSq 1, sNvme sCtrl, sNvme sCtrl, _, .ur, _, .done, 4096, 0, by decide, by decide, by decide, by decide, by decide, by decide +kernel, ⟨by decide, by decide, by decide, by decide, by decide, by decide, by decide, rfl⟩, by decide, by decide, rfl, by decide +kernel⟩

theorem wit_NvmeCommands_4 : ∃ (k : Fin 16392) (q : Fin 65) (i : Nat) (e b : Bytes) (y : NvSq) (s u : State) (x : NvHap), (Awake s) ∧ (q.val ≠ 0) ∧ (nsFind s k.val (sqeNs b) = some (i, e)) ∧ (NvFront s k.val q.val 8 b y u) ∧ (nsFind u k.val (sqeNs b) = some (i, e)) ∧ (sqeSlba b + sqeNlb b ≤ nsSize e ∧ bits (sqeDw b 12) 26 4 = 0 ∧ nsRo e = false) ∧ (nsEnc e = false) :=
  ⟨0, 1, 0, sNs, sSqe 8 [0, 0, 0, 0] [0, 0, 0, 0], sSq 1, sNvme sCtrl, _, .done, by decide, by decide, by decide, ⟨by decide, by decide, by decide, by decide, by decide, by decide, by decide, rfl⟩, by decide +kernel⟩

theorem wit_NvmeCommands_5 : ∃ (k : Fin 16392) (q : Fin 65) (i : Nat) (e b : Bytes) (y : NvSq) (s u : State) (x : NvHap) (n a : Nat), (Awake s) ∧ (q.val ≠ 0) ∧ (nsFind s k.val (sqeNs b) = some (i, e)) ∧ (n = sqeNlb b * nsLba e) ∧ ((stageFit s k.val n).isSome = true) ∧ (nsEnc e = true) ∧ (huskAble s 5 = true) ∧ (NvFront s k.val q.val 8 b y u) ∧ (nsFind u k.val (sqeNs b) = some (i, e)) ∧ (sqeSlba b + sqeNlb b ≤ nsSize e ∧ bits (sqeDw b 12) 26 4 = 0 ∧ nsRo e = false) ∧ (stageFit (countWrite u k.val 0) k.val n = some a) :=
  ⟨0, 1, 0, (7 :: sNs.drop 1), sSqe 8 [0, 0, 0, 0] [0, 0, 0, 0], sSq 1, { sNvme sCtrl with stg := { (sNvme sCtrl).stg with ns := [(0, 7 :: sNs.drop 1)] } }, _, .done, 4096, 0, by decide, by decide, by decide, by decide, by decide, by decide, by decide +kernel, ⟨by decide, by decide, by decide, by decide, by decide, by decide, by decide, rfl⟩, by decide +kernel⟩

theorem wit_NvmeCommands_6 : ∃ (k : Fin 16392) (q : Fin 65) (i : Nat) (e b : Bytes) (y : NvSq) (s r u : State) (d : Bytes), (Awake s) ∧ (q.val ≠ 0) ∧ (dataReach s k.val q.val (.ok b) .ur (fun b => 16 * (sqeDw b 10 % 256 + 1)) false = (true, r)) ∧ (NvFront r k.val q.val 9 b y u) ∧ (nsFind u k.val (sqeNs b) = some (i, e)) ∧ (nsRo e = false) ∧ (bit (sqeDw b 11) 2 = true) ∧ ((dsmRanges b d).any (fun r => r.1 + r.2 > nsSize e) = false) :=
  ⟨0, 1, 0, sNs, sSqe 9 [0, 0, 0, 0] [4, 0, 0, 0], sSq 1, sNvme sCtrl, sNvme sCtrl, _, List.replicate 16 0, by decide, by decide, by decide +kernel, ⟨by decide, by decide, by decide, by decide, by decide, by decide, by decide, rfl⟩, by decide +kernel⟩

theorem wit_NvmeCommands_7 : ∃ (k : Fin 16392) (q : Fin 65) (i : Nat) (e b : Bytes) (y : NvSq) (s u : State), (Awake s) ∧ (q.val ≠ 0) ∧ (NvFront s k.val q.val 0 b y u) ∧ (nsFind u k.val (sqeNs b) = some (i, e)) :=
  ⟨0, 1, 0, sNs, sSqe 0 [0, 0, 0, 0] [0, 0, 0, 0], sSq 1, sNvme sCtrl, _, by decide, by decide, ⟨by decide, by decide, by decide, by decide, by decide, by decide, by decide, rfl⟩, by decide⟩

theorem wit_NvmeCommands_8 : ∃ (k : Fin 16392) (v : Fin 4294967296) (c : Ctrl) (s : State), (Awake s) ∧ (ctlExists s k.val = true) ∧ (c = ctlGet s k.val) ∧ (bit v.val 0 = true ∧ bit c.cc 0 = false) ∧ (s.flag R.STG_CFG.EN [] = true ∧ c.stop = .no) ∧ (bits v.val 4 3 = 0 ∧ bits v.val 7 4 = 0 ∧ bits v.val 11 3 = 0) :=
  ⟨0, 1, _, sNvme Ctrl.reset, by decide, by decide, rfl, by decide +kernel⟩

theorem wit_NvmeCommands_9 : ∃ (h : NvHap) (i : Nat) (c e : HCmd) (o : LegOp) (s u : State), (Awake s) ∧ (u = absorbCarter s) ∧ (u.stg.cmds.find? (fun c => c.legs.any (fun o => match o.st with | .ended _ => true | _ => false)) = some c) ∧ (c.legs.findIdx? (fun o => match o.st with | .ended _ => true | _ => false) = some i) ∧ (c.legs[i]? = some o) ∧ (e = { c with legs := replaceAt c.legs i { o with st := .done (.drive 0 0) } }) ∧ (o.st = .ended (.drive 0 0)) :=
  ⟨.done, 0, sCmd [{ sLeg with st := .ended (.drive 0 0) }], _, { sLeg with st := .ended (.drive 0 0) }, sDrive [{ sLeg with st := .ended (.drive 0 0) }], _, by decide, rfl, by decide, by decide, by decide, rfl, by decide⟩

theorem wit_NvmeCommands_10 : ∃ (k : Fin 16392) (q : Fin 65) (y : NvCq) (s : State), (Awake s) ∧ (SMap.find? (ctlGet s k.val).cqs q.val = some y) ∧ (y.held ≠ 0) :=
  ⟨0, 1, sCq 1, sNvme sCtrl, by decide⟩

theorem wit_HostRequests_0 : ∃ (a : Fin 8) (n : Fin 1024) (g : Tag) (d : Bytes) (s w u : State), (Awake s) ∧ (w = linkActive s a.val) ∧ (tagFind? w a.val n.val = some g) ∧ (g.st = .outstanding) ∧ (u = (tagDrop w a.val n.val).add R.HIF_CNT.COUNT [a.val, 2] d.length) ∧ (quiesced u a.val g.fn = false) :=
  ⟨0, 0, sTag .outstanding, [1], sHif { Hif.reset with tags := [sTag .outstanding] }, _, _, by decide, rfl, by decide, by decide, rfl, by decide⟩

theorem wit_HostRequests_1 : ∃ (a : Fin 8) (n : Fin 1024) (g : Tag) (s u : State), (Awake s) ∧ (tagFind? s a.val n.val = some g) ∧ (g.st = .outstanding) ∧ (quiesced s a.val g.fn = false) ∧ (u = logUncor ((tagMark (clockTo s g.due) a.val n.val .quarantined).inc R.HIF_CNT.COUNT [a.val, 7]) a.val g.fn aerTimeout true) :=
  ⟨0, 0, sTag .outstanding, sHif { Hif.reset with tags := [sTag .outstanding] }, _, by decide, by decide, by decide, by decide, rfl⟩

theorem wit_HostRequests_2 : ∃ (a : Fin 8) (n : Fin 1024) (g : Tag) (s : State), (Awake s) ∧ (tagFind? s a.val n.val = some g) ∧ (g.st = .quarantined ∨ g.st = .orphanQuar) :=
  ⟨0, 0, sTag .quarantined, sHif { Hif.reset with tags := [sTag .quarantined] }, by decide⟩

theorem wit_HostRequests_3 : ∃ (a f : Fin 8) (p g : Nat) (r w : Bool) (h : Held) (s u : State), (Awake s) ∧ (u = linkActive s a.val) ∧ (u.hif.held.filter (fun x => x.waits a.val f.val none p) = [h]) ∧ (h.stale = false) ∧ ((if h.wantsWrite then w else r) = true) :=
  ⟨0, 1, 1, 5, true, false, sHeld .translating, sHif { Hif.reset with held := [sHeld .translating] }, _, by decide, rfl, by decide +kernel⟩

theorem wit_HostRequests_4 : ∃ (a f : Fin 8) (p : Nat) (h : Held) (s u : State), (Awake s) ∧ (pageWaiter s a.val f.val none p = some h) ∧ (u = s.sub R.HIF_FN_PRI.PRI_OUT [a.val, f.val] 1) :=
  ⟨0, 1, 1, sHeld .pageWait, sHif { Hif.reset with held := [sHeld .pageWait] }, _, by decide, by decide, rfl⟩

theorem wit_HostRequests_5 : ∃ (a f : Fin 8) (p : Nat) (h : Held) (s u : State), (Awake s) ∧ (pageWaiter s a.val f.val none p = some h) ∧ (u = clockTo s h.due) ∧ (pageWaiter u a.val f.val none p = some h) :=
  ⟨0, 1, 1, sHeld .pageWait, sHif { Hif.reset with held := [sHeld .pageWait] }, _, by decide, by decide, rfl, by decide⟩

theorem wit_HostRequests_6 : ∃ (a f : Fin 8) (i : Fin 32) (lo hi : Nat) (v : Inval) (s u : State), (Awake s) ∧ (v = { ap := a.val, fn := f.val, itag := i.val, pasid := none, lo := lo, hi := hi, glob := false }) ∧ (u = linkActive s a.val) :=
  ⟨0, 1, 3, 0, 5, _, State.reset, _, by decide, rfl, rfl⟩

theorem wit_HostRequests_7 : ∃ (a f : Fin 8) (i : Fin 32) (v : Inval) (s : State), (Awake s) ∧ (s.hif.inval.find? (fun v => v.ap == a.val && v.fn == f.val && v.itag == i.val) = some v) ∧ (invalBusy s v = false) :=
  ⟨0, 1, 3, { ap := 0, fn := 1, itag := 3, pasid := none, lo := 0, hi := 5 }, sHif { Hif.reset with inval := [{ ap := 0, fn := 1, itag := 3, pasid := none, lo := 0, hi := 5 }] }, by decide⟩

theorem wit_HostFunctions_0 : ∃ (a f : Fin 8) (s : State), (Awake s) ∧ (fnPresent s a.val f.val = true) ∧ (busEn s a.val f.val = true) :=
  ⟨0, 1, sHif Hif.reset, by decide⟩

theorem wit_HostFunctions_1 : ∃ (a f : Fin 8) (s : State), (Awake s) ∧ (fnPresent s a.val f.val = true) ∧ (inD3 s a.val f.val = false) :=
  ⟨0, 1, sHif Hif.reset, by decide⟩

theorem wit_HostFunctions_2 : ∃ (a f : Fin 8) (s : State), (Awake s) ∧ (fnPresent s a.val f.val = true) ∧ (inD3 s a.val f.val = true) :=
  ⟨0, 1, (sHif Hif.reset).wr R.HIF_FN_STATUS.D3HOT [0, 1] 1, by decide⟩

theorem wit_HostFunctions_3 : ∃ (a : Fin 8) (s : State), (Awake s) ∧ (s.flag R.HIF_AP_LINK.LINK_UP [a.val] = true) ∧ (bit (cfgGet s a.val 0 28) 1 = true) :=
  ⟨0, ({ State.reset with hif := { Hif.reset with cfg := [(cfgIx 0 0 28, 2)] } } : State).wr R.HIF_AP_LINK.LINK_UP [0] 1, by decide⟩

theorem wit_HostFunctions_4 : ∃ (a : Fin 8) (v : Fin 7) (w : Fin 17) (b : Bool) (n : Nat × Nat × Nat) (s : State), (Awake s) ∧ (linkFits s a.val v w b = true) :=
  ⟨0, 6, 16, true, (4, 2, 0), (State.reset.wr R.HIF_PORT.SPLIT [0] 0), by decide⟩

theorem wit_HostFunctions_5 : ∃ (a : Fin 8) (n c : Nat) (s u : State), (Awake s) ∧ (SMap.find? s.hif.credit a.val = some c) ∧ (u = { s with hif := { s.hif with credit := SMap.ins s.hif.credit a.val (c + n) } }) :=
  ⟨0, 4, 0, { State.reset with hif := { Hif.reset with credit := [(0, 0)] } }, _, by decide, by decide, rfl⟩

theorem wit_HostFunctions_6 : ∃ (i : Fin 65536) (e : IrqEnt) (s : State), (Awake s) ∧ (e = SMap.get IrqEnt.none s.hif.irq i.val) ∧ (e.valid = true ∧ e.pend = true ∧ e.mask = false) ∧ (irqBound s e = true) ∧ (msgBlocked s e.ap e.func = false) :=
  ⟨3, sIrq, ({ State.reset with hif := { Hif.reset with irq := [(3, sIrq)], cfg := [(cfgIx 0 1 1, 4), (cfgIx 0 1 20, 0x80000000)] } } : State).wr R.DOM_INST_W0.STATE [0] 1 |>.wr R.DOM_INST_W0.CLASS [0] 1, by decide⟩

theorem wit_HostFunctions_7 : ∃ (a : Fin 8) (s : State), (Awake s) :=
  ⟨0, State.reset, by decide⟩

theorem wit_HostPorts_0 : ∃ (a : Fin 8) (x : BitVec 62) (n : Fin 1025) (i l : BitVec 4) (d : Bytes) (f p o g q r : Nat) (s u : State), (Awake s) ∧ (apOpen s a.val = true) ∧ (u = linkActive s a.val) ∧ (n.val ≤ 16) ∧ (barFind u a.val (4 * x.toNat) (4 * n.val) = .ok (f, p, o)) ∧ (barFind u a.val (4 * x.toNat) (4 * ceilDiv d.length 4) = .ok (g, q, r)) :=
  ⟨0, 0x1000, 2, 15, 15, [1, 2, 3, 4], 3, 0, 0, 3, 0, 0, { State.reset with hif := { Hif.reset with cfg := [(cfgIx 0 3 1, 2), (cfgIx 0 3 4, 0x4000)] } }, _, by decide, by decide, rfl, by decide, rfl, rfl⟩

theorem wit_HostPorts_1 : ∃ (a f : Fin 8) (n : Fin 1024) (b : BitVec 4) (v : BitVec 32) (s u : State), (Awake s) ∧ (apOpen s a.val = true) ∧ (u = linkActive s a.val) ∧ (fnPresent u a.val f.val = true) :=
  ⟨0, 1, 0, 15, 6, State.reset, _, by decide, by decide, rfl, by decide⟩

theorem wit_HostPorts_2 : ∃ (a f : Fin 8) (s u v w : State), (Awake s) ∧ (apOpen s a.val = true) ∧ (fnPresent s a.val f.val = true) ∧ (u = dropIntr (dropUnissued (orphanFn (linkActive s a.val) a.val f.val) a.val f.val) a.val f.val) ∧ (v = (fnInsts u a.val f.val).foldl (fun s i => beginReset s i false) (resetCfg u a.val f.val)) ∧ (w = (if f.val = 3 then ctlFlr v a.val else v)) :=
  ⟨0, 1, State.reset, _, _, _, by decide, by decide, by decide, rfl, rfl, rfl⟩

theorem wit_HostPorts_3 : ∃ (a : Fin 8) (c : PortCause) (s : State), (Awake s) ∧ (apPresent s a.val = true) ∧ (pwrSt s ≠ psStandby) :=
  ⟨0, .hotReset, State.reset, by decide⟩

theorem wit_MailboxDomains_0 : ∃ (k : Fin 16) (s : State), (Awake s) ∧ ((slotMb s k.val).busy = false) ∧ (s.flag R.DOM_STATUS.FW_READY [] = true) :=
  ⟨3, State.reset.wr R.DOM_STATUS.FW_READY [] 1, by decide⟩

theorem wit_MailboxDomains_1 : ∃ (d mi mr : Nat) (c : MbxCmd) (s u : State), (Awake s) ∧ (MbxFront s 0x0001 c u) ∧ (d = leAt c.cmd 8 2 ∧ mi = leAt c.cmd 10 2 ∧ mr = leAt c.cmd 12 4) ∧ (0 < d ∧ d < 1024 ∧ 0 < mi ∧ mi ≤ 16384 ∧ 0 < mr ∧ mr ≤ 262144) ∧ (domValid s d = false) :=
  ⟨2, 4, 8, { slot := some 0, cmd := [1, 0, 0, 0, 0, 0, 0, 0, 2, 0, 4, 0, 8] ++ List.replicate 51 0 }, sMb ([1, 0, 0, 0, 0, 0, 0, 0, 2, 0, 4, 0, 8] ++ List.replicate 51 0), _, by decide, ⟨by decide, by decide, by decide, by decide, rfl⟩, by decide +kernel⟩

theorem wit_MailboxDomains_2 : ∃ (d : Nat) (c : MbxCmd) (s u : State), (Awake s) ∧ (MbxFront s 0x0002 c u) ∧ (d = leAt c.cmd 8 2) ∧ (0 < d ∧ d < 1024) ∧ (domValid s d = true) ∧ (instsIn s d = []) :=
  ⟨1, { slot := some 0, cmd := [2, 0, 0, 0, 0, 0, 0, 0, 1] ++ List.replicate 55 0 }, sMb ([2, 0, 0, 0, 0, 0, 0, 0, 1] ++ List.replicate 55 0), _, by decide, ⟨by decide, by decide, by decide, by decide, rfl⟩, by decide +kernel⟩

theorem wit_MailboxDomains_3 : ∃ (d : Nat) (c : MbxCmd) (s u : State), (Awake s) ∧ (MbxFront s 0x0003 c u) ∧ (d = leAt c.cmd 8 2) ∧ (d < 1024) :=
  ⟨1, { slot := some 0, cmd := [3, 0, 0, 0, 0, 0, 0, 0, 1] ++ List.replicate 55 0 }, sMb ([3, 0, 0, 0, 0, 0, 0, 0, 1] ++ List.replicate 55 0), _, by decide, ⟨by decide, by decide, by decide, by decide, rfl⟩, by decide +kernel⟩

theorem wit_MailboxInstances_0 : ∃ (d cl a nv i b : Nat) (c : MbxCmd) (s u : State), (Awake s) ∧ (MbxFront s 0x0010 c u) ∧ (d = leAt c.cmd 8 2 ∧ cl = byteAt c.cmd 10 ∧ a = byteAt c.cmd 11 ∧ nv = leAt c.cmd 16 2 ∧ i = leAt c.cmd 18 2) ∧ (d < 1024 ∧ 1 ≤ cl ∧ cl ≤ 3 ∧ 0 < nv ∧ nv ≤ (if cl = 3 then 65 else 2048) ∧ i < 16384) ∧ (apPresent s a = true) ∧ (domValid s d = true) ∧ (instState s i = 0) ∧ (bit (leAt c.cmd 12 4) 31 = false) ∧ (areaFit 0 65536 nv ((instsWhere s (fun _ => true)).map (fun j => (s.rd R.DOM_INST_W2.IRQ_BASE [j], s.rd R.DOM_INST_W2.NVEC [j]))) = some b) ∧ (s.rd R.DOM_DOMAIN_W0.INSTANCES [d] < s.rd R.DOM_DOMAIN_W2.MAX_INST [d]) :=
  ⟨1, 1, 0, 2, 3, 0, { slot := some 0, cmd := [16, 0, 0, 0, 0, 0, 0, 0, 1, 0, 1, 0, 0, 0, 0, 0, 2, 0, 3, 0] ++ List.replicate 44 0 }, sMb ([16, 0, 0, 0, 0, 0, 0, 0, 1, 0, 1, 0, 0, 0, 0, 0, 2, 0, 3, 0] ++ List.replicate 44 0), _, by decide, ⟨by decide, by decide, by decide, by decide, rfl⟩, by decide +kernel⟩

theorem wit_MailboxInstances_1 : ∃ (i : Nat) (c : MbxCmd) (s u : State), (Awake s) ∧ (MbxFront s 0x0011 c u) ∧ (i = leAt c.cmd 8 2) ∧ (i < 16384) ∧ (instState s i ≠ 0) :=
  ⟨0, { slot := some 0, cmd := [17, 0, 0, 0, 0, 0, 0, 0, 0] ++ List.replicate 55 0 }, sRun ([17, 0, 0, 0, 0, 0, 0, 0, 0] ++ List.replicate 55 0) 1 0 Ring.none, _, by decide, ⟨by decide, by decide, by decide, by decide, rfl⟩, by decide +kernel⟩

theorem wit_MailboxInstances_2 : ∃ (i : Nat) (c : MbxCmd) (s u : State), (Awake s) ∧ (MbxFront s 0x0012 c u) ∧ (i = leAt c.cmd 8 2) ∧ (i < 16384) ∧ (instState s i ≠ 0 ∧ instState s i ≠ 5) :=
  ⟨0, { slot := some 0, cmd := [18, 0, 0, 0, 0, 0, 0, 0, 0] ++ List.replicate 55 0 }, sRun ([18, 0, 0, 0, 0, 0, 0, 0, 0] ++ List.replicate 55 0) 1 0 Ring.none, _, by decide, ⟨by decide, by decide, by decide, by decide, rfl⟩, by decide +kernel⟩

theorem wit_MailboxInstances_3 : ∃ (i : Nat) (c : MbxCmd) (s u : State), (Awake s) ∧ (MbxFront s 0x0013 c u) ∧ (i = leAt c.cmd 8 2) ∧ (i < 16384) :=
  ⟨0, { slot := some 0, cmd := [19, 0, 0, 0, 0, 0, 0, 0, 0] ++ List.replicate 55 0 }, sMb ([19, 0, 0, 0, 0, 0, 0, 0, 0] ++ List.replicate 55 0), _, by decide, ⟨by decide, by decide, by decide, by decide, rfl⟩, by decide +kernel⟩

theorem wit_MailboxInstances_4 : ∃ (i v n : Nat) (c : MbxCmd) (s u : State), (Awake s) ∧ (MbxFront s 0x0014 c u) ∧ (i = leAt c.cmd 8 2 ∧ v = leAt c.cmd 10 2) ∧ (i < 16384) ∧ (instState s i = 1 ∨ instState s i = 2 ∨ instState s i = 3) ∧ (v < s.rd R.DOM_INST_W2.NVEC [i]) ∧ (leAt c.cmd 16 8 % 4 = 0) ∧ (n = s.rd R.DOM_INST_W2.IRQ_BASE [i] + v) :=
  ⟨0, 1, 1, { slot := some 0, cmd := [20, 0, 0, 0, 0, 0, 0, 0, 0, 0, 1, 0, 0, 0, 0, 0, 8] ++ List.replicate 47 0 }, sRun ([20, 0, 0, 0, 0, 0, 0, 0, 0, 0, 1, 0, 0, 0, 0, 0, 8] ++ List.replicate 47 0) 1 0 Ring.none, _, by decide, ⟨by decide, by decide, by decide, by decide, rfl⟩, by decide +kernel⟩

theorem wit_MailboxInstances_5 : ∃ (i : Fin 16384) (s : State), (Awake s) ∧ (instState s i.val = 4) ∧ (s.dom.running = none) :=
  ⟨0, { sRun [] 4 0 Ring.none with dom := Dom.reset }, by decide⟩

theorem wit_MailboxRings_0 : ∃ (i d r : Nat) (c : MbxCmd) (s u : State), (Awake s) ∧ (MbxFront s 0x0020 c u) ∧ (i = leAt c.cmd 8 2) ∧ (rcBad c.cmd = false) ∧ (rcOwner c.cmd = false) ∧ (instState s i = 1) ∧ (d = s.rd R.DOM_INST_W0.DOMAIN [i]) ∧ (byteAt c.cmd 11 ≤ 5 ∧ byteAt c.cmd 11 ≠ 1) ∧ (typeAllowed (s.rd R.DOM_INST_W0.CLASS [i]) (byteAt c.cmd 11) = true) ∧ (rcVecBad s c.cmd = false) ∧ (6 ≤ byteAt c.cmd 14 ∧ byteAt c.cmd 14 ≤ 16) ∧ (leAt c.cmd 16 8 % 4096 = 0 ∧ leAt c.cmd 24 8 % 4096 = 0) ∧ (findRing s false i (rcRing c.cmd) = none) ∧ (s.rd R.DOM_RINGS.RINGS [] < 262144 ∧ s.rd R.DOM_DOMAIN_W1.RINGS [d] < s.rd R.DOM_DOMAIN_W3.MAX_RINGS [d]) ∧ ((List.range 262144).find? (fun q => ringSt s q == 0) = some r) :=
  ⟨0, 1, 1, { slot := some 0, cmd := [32, 0, 0, 0, 0, 0, 0, 0, 0, 0, 0, 0, 1, 0, 6, 0, 0, 0, 0, 0, 0, 0, 0, 0, 0, 0, 0, 0, 0, 0, 0, 0, 255, 255] ++ List.replicate 30 0 }, sRun ([32, 0, 0, 0, 0, 0, 0, 0, 0, 0, 0, 0, 1, 0, 6, 0, 0, 0, 0, 0, 0, 0, 0, 0, 0, 0, 0, 0, 0, 0, 0, 0, 255, 255] ++ List.replicate 30 0) 1 0 Ring.none, _, by decide, ⟨by decide, by decide, by decide, by decide, rfl⟩, by decide +kernel⟩

theorem wit_MailboxRings_1 : ∃ (r : Nat) (c : MbxCmd) (s u : State), (Awake s) ∧ (MbxFront s 0x0021 c u) ∧ (rcBad c.cmd = false) ∧ (findRing s (rcOwner c.cmd) (rcInst c.cmd) (rcRing c.cmd) = some r) ∧ (ringType s r ≠ 3) :=
  ⟨0, { slot := some 0, cmd := [33, 0, 0, 0, 0, 0, 0, 0, 0] ++ List.replicate 55 0 }, sRun ([33, 0, 0, 0, 0, 0, 0, 0, 0] ++ List.replicate 55 0) 1 0 Ring.none, _, by decide, ⟨by decide, by decide, by decide, by decide, rfl⟩, by decide +kernel⟩

theorem wit_MailboxRings_2 : ∃ (r : Nat) (c : MbxCmd) (s u : State), (Awake s) ∧ (MbxFront s 0x0022 c u) ∧ (rcBad c.cmd = false) ∧ (rcVecBad s c.cmd = false) ∧ (findRing s (rcOwner c.cmd) (rcInst c.cmd) (rcRing c.cmd) = some r) :=
  ⟨0, { slot := some 0, cmd := [34, 0, 0, 0, 0, 0, 0, 0, 0] ++ List.replicate 55 0 }, sRun ([34, 0, 0, 0, 0, 0, 0, 0, 0] ++ List.replicate 55 0) 1 0 Ring.none, _, by decide, ⟨by decide, by decide, by decide, by decide, rfl⟩, by decide +kernel⟩

theorem wit_MailboxRings_3 : ∃ (r : Fin 262144) (s : State), (Awake s) ∧ (ringSt s r.val = rsResetting) ∧ ((ringGet s r.val).fetched = [] ∧ (ringGet s r.val).busy = none) :=
  ⟨0, (sRun [] 1 0 Ring.none).wr R.DOM_RING_W0.STATE [0] 5, by decide⟩

theorem wit_RingFrames_0 : ∃ (r : Fin 262144) (k l : Nat) (d b : Bytes) (s u v : State), (Awake s) ∧ (headOp s r.val 0 1 = some (k, d)) ∧ (fnLive s (ringFn s r.val).1 (ringFn s r.val).2 = true) ∧ (txLen d = some l) ∧ ((descRead s r.val ([(leAt d 8 8, leAt d 16 2), (leAt d 24 8, leAt d 18 2), (leAt d 32 8, leAt d 20 2)].take (byteAt d 1 % 4)) (.ok b)).1 = true) ∧ (u = (descRead s r.val ([(leAt d 8 8, leAt d 16 2), (leAt d 24 8, leAt d 18 2), (leAt d 32 8, leAt d 20 2)].take (byteAt d 1 % 4)) (.ok b)).2) ∧ (v = popDesc u r.val k) :=
  ⟨0, 0, 64, [1, 1, 0, 0, 0, 0, 0, 0, 0, 0, 0, 0, 0, 0, 0, 0, 64] ++ List.replicate 47 0, [], sRun [] 1 0 { Ring.none with fetched := [(0, [1, 1, 0, 0, 0, 0, 0, 0, 0, 0, 0, 0, 0, 0, 0, 0, 64] ++ List.replicate 47 0)] }, _, _, by decide, by decide, by decide, by decide, by decide, rfl, rfl⟩

theorem wit_RingFrames_1 : ∃ (f : HostFrame) (l : List HostFrame) (r a fn k g x n : Nat) (b : List (Nat × Nat × Nat × Nat)) (s v u : State), (Awake s) ∧ (s.grn.host = f :: l) ∧ (rxRing s f.q = some r) ∧ (ringSt s r = rsRunning ∧ ringFn s r = (a, fn)) ∧ ((rxReach s r f false).1 = true) ∧ (v = { s with grn := { s.grn with host := l } }) ∧ (quiesced v a fn = false ∧ v.rd R.HIF_FN_STATUS.REASON [a, fn] = 0) ∧ (ringOwner v r = true ∨ instState v (ringInst v r) = 1) ∧ ((ringGet v r).bufs = (k, g, x, n) :: b) ∧ (f.data.length ≤ n) ∧ (ringFull v r = false) ∧ (queueEp v f.q = some (128 + a)) ∧ (f.poison = false) ∧ (u = ringPut v r { ringGet v r with bufs := b }) :=
  by
    have a : State := State.reset
    exact ⟨{ q := 0, data := [1], tc := 0, hash := 0, ts := 0, exc := 0, origin := 0, poison := false, pipe := 0, ap := 0 }, [], 0, 0, 1, 0, 0, 0, 64, [],
      { sRun [] 1 1 { Ring.none with bufs := [(0, 0, 0, 64)] } with grn := { Grn.reset with host := [{ q := 0, data := [1], tc := 0, hash := 0, ts := 0, exc := 0, origin := 0, poison := false, pipe := 0, ap := 0 }] }, tly := { Tly.reset with queues := [(0, { Member.none with valid := true, root := true, parent := 128 })] } }, _, _,
      by decide, by decide, by decide, by decide, by decide, rfl, by decide, by decide, by decide, by decide, by decide, by decide, by decide, rfl⟩

theorem wit_RingFrames_2 : ∃ (i : Fin 16384) (w : BitVec 64) (r : Nat) (s : State), (Awake s) ∧ (bits w.toNat 32 32 = 0) ∧ (s.rd R.DOM_INST_W0.STATE [i.val] = 1) ∧ (findRing s false i.val (bits w.toNat 0 16) = some r) ∧ (ringSt s r ≠ rsError ∧ ringSt s r ≠ rsResetting) ∧ (ixDist (s.rd R.DOM_RING_W3.PI [r]) (s.rd R.DOM_RING_W2.CI [r]) ≤ ixDist (bits w.toNat 16 16) (s.rd R.DOM_RING_W2.CI [r])) ∧ (ixDist (bits w.toNat 16 16) (s.rd R.DOM_RING_W2.CI [r]) ≤ ringSize s r - 1) :=
  ⟨0, 0x20000, 0, sRun [] 1 0 Ring.none, by decide⟩

theorem wit_RingFrames_3 : ∃ (i : Fin 16384) (w : BitVec 64) (r : Nat) (s u : State), (Awake s) ∧ (bits w.toNat 33 31 = 0) ∧ (s.rd R.DOM_INST_W0.STATE [i.val] = 1) ∧ (findRing s false i.val (bits w.toNat 0 16) = some r) ∧ (ringSt s r ≠ rsError ∧ ringSt s r ≠ rsResetting) ∧ (ixDist (bits w.toNat 16 16) (s.rd R.DOM_RING_W3.CPL_CI [r]) ≤ ixDist (s.rd R.DOM_RING_W2.CPL_PI [r]) (s.rd R.DOM_RING_W3.CPL_CI [r])) ∧ ((ringGet s r).cplWait = []) ∧ (u = (s.wr R.DOM_RING_W3.CPL_CI [r] (bits w.toNat 16 16)).inc R.DOM_INST_CNT.COUNT [i.val, 0]) :=
  ⟨0, 0x100000000, 0, sRun [] 1 0 Ring.none, _, by decide, by decide, by decide, by decide, by decide, by decide, by decide, rfl⟩

theorem wit_RingFrames_4 : ∃ (i : Fin 16384) (w : BitVec 64) (r : Nat) (s : State), (Awake s) ∧ (bits w.toNat 17 47 = 0) ∧ (s.rd R.DOM_INST_W0.STATE [i.val] = 1) ∧ (findRing s false i.val (bits w.toNat 0 16) = some r) ∧ (bit w.toNat 16 = true) ∧ (ringSt s r = rsRunning ∨ ringSt s r = rsError) :=
  ⟨0, 0x10000, 0, sRun [] 1 0 Ring.none, by decide⟩

theorem wit_RingFrames_5 : ∃ (r : Fin 262144) (a f c n : Nat) (i : Option Nat) (s u : State), (Awake s) ∧ (mayFetch s r.val = true) ∧ (ringFn s r.val = (a, f)) ∧ (atsEn s a f = false) ∧ (freeTag? s a f = some n) ∧ (i = (if ringOwner s r.val then none else some (ringInst s r.val))) ∧ (c = s.rd R.DOM_RING_W2.CI [r.val]) ∧ (u = (ringPut s r.val { ringGet s r.val with asked := (ringGet s r.val).asked ++ [c] }).wr R.DOM_RING_W2.CI [r.val] (c + 1)) :=
  ⟨0, 0, 1, 0, 0, some 0, (sRun [] 1 0 Ring.none).wr R.DOM_RING_W3.PI [0] 1, _, by decide, by decide, by decide, by decide, by decide, by decide, by decide, rfl⟩

theorem wit_RingFrames_6 : ∃ (r : Fin 262144) (k : Nat) (d : Bytes) (s : State), (Awake s) ∧ (headOp s r.val 1 2 = some (k, d)) ∧ (64 ≤ leAt d 16 4 ∧ leAt d 16 4 ≤ 16384) :=
  ⟨0, 0, [2, 1, 0, 0, 0, 0, 0, 0, 0, 0, 0, 0, 0, 0, 0, 0, 64] ++ List.replicate 47 0, sRun [] 1 1 { Ring.none with fetched := [(0, [2, 1, 0, 0, 0, 0, 0, 0, 0, 0, 0, 0, 0, 0, 0, 0, 64] ++ List.replicate 47 0)] }, by decide⟩

theorem wit_RingFrames_7 : ∃ (r : Fin 262144) (s : State), (Awake s) ∧ (ringSt s r.val ≠ 0) ∧ ((ringGet s r.val).timerOn = true) :=
  ⟨0, sRun [] 1 0 { Ring.none with timerOn := true }, by decide⟩

theorem wit_HartChannels_0 : ∃ (h : Fin 512) (rd rs1 : Fin 32) (n : Nat) (r s : State), (HartReady r h.val s) ∧ (xelvOk s h.val 0 = true) ∧ (n = xr s h.val rs1.val % 65536 ∧ n < 8192) ∧ (s.flag R.FIL_CH_W0.EN [n] = true ∧ s.rd R.FIL_CH_W0.PROD_CLASS [n] = 0) ∧ (s.rd R.FIL_CH_W0.PROD_GRP [n] < 64 → inGroup s h.val (s.rd R.FIL_CH_W0.PROD_GRP [n]) = true) ∧ ((chanMsgs s n).length < chanDepth s n) :=
  ⟨0, 6, 5, 7, (sChan.wr R.FIL_CH_W0.PROD_GRP [7] 127), sIss ((sChan.wr R.FIL_CH_W0.PROD_GRP [7] 127)) 0, ready_of (by decide), by decide⟩

theorem wit_HartChannels_1 : ∃ (h : Fin 512) (rd rs1 : Fin 32) (r s : State), (HartReady r h.val s) ∧ (xelvOk s h.val 0 = false) :=
  ⟨0, 6, 5, { sHart Hart.reset with fil := { Fil.reset with harts := [(0, { Hart.reset with mmode := false })] } }, sIss ({ sHart Hart.reset with fil := { Fil.reset with harts := [(0, { Hart.reset with mmode := false })] } }) 0, ready_of (by decide), by decide⟩

theorem wit_HartChannels_2 : ∃ (h : Fin 512) (rd rs1 : Fin 32) (n : Nat) (m : Bytes) (l : List Bytes) (r s : State), (HartReady r h.val s) ∧ (xelvOk s h.val 0 = true) ∧ (n = xr s h.val rs1.val % 65536 ∧ n < 8192) ∧ (s.flag R.FIL_CH_W0.EN [n] = true) ∧ (chanMsgs s n = m :: l) :=
  ⟨0, 6, 5, 7, [9], [], chanPush sChan 7 [9], sIss (chanPush sChan 7 [9]) 0, ready_of (by decide), by decide⟩

theorem wit_HartChannels_3 : ∃ (h : Fin 512) (rd rs1 : Fin 32) (n : Nat) (r s : State), (HartReady r h.val s) ∧ (xelvOk s h.val 0 = true) ∧ (n = xr s h.val rs1.val % 65536 ∧ n < 8192) ∧ (s.flag R.FIL_CH_W0.EN [n] = true) ∧ (chanMsgs s n = []) :=
  ⟨0, 6, 5, 7, sChan, sIss (sChan) 0, ready_of (by decide), by decide⟩

theorem wit_HartChannels_4 : ∃ (h : Fin 512) (rd rs1 : Fin 32) (n : Nat) (r s : State), (HartReady r h.val s) ∧ (xelvOk s h.val 0 = true) ∧ (n = xr s h.val rs1.val % 65536) ∧ ((n < 8192 ∧ s.flag R.FIL_CH_W0.EN [n] = true) ∨ hwDepth n ≠ 0) :=
  ⟨0, 6, 5, 7, sChan, sIss (sChan) 0, ready_of (by decide), by decide⟩

theorem wit_HartEventsAndGroups_0 : ∃ (h : Fin 512) (rd rs1 rs2 : Fin 32) (r s : State), (HartReady r h.val s) ∧ (xelvOk s h.val 1 = true) ∧ (evRefused s h.val (xr s h.val rs1.val % 512) = false) :=
  ⟨0, 6, 0, 5, sHart Hart.reset, sIss (sHart Hart.reset) 0, ready_of (by decide), by decide⟩

theorem wit_HartEventsAndGroups_1 : ∃ (h : Fin 512) (rd rs1 rs2 : Fin 32) (r s : State), (HartReady r h.val s) ∧ (xelvOk s h.val 1 = true) ∧ (evRefused s h.val (xr s h.val rs1.val % 512) = true) :=
  ⟨0, 6, 5, 5, sHart Hart.reset, sIss (sHart Hart.reset) 0, ready_of (by decide), by decide⟩

theorem wit_HartEventsAndGroups_2 : ∃ (h : Fin 512) (s : State), (SMap.get (2 ^ 64 - 1) s.fil.mtimecmp h.val ≤ s.mtime) ∧ (hartRuns s h.val = true) ∧ (intrCause? s h.val = some 7) :=
  ⟨0, { sHart Hart.reset with fil := { Fil.reset with mtimecmp := [(0, 0)], harts := [(0, { Hart.reset with mmode := true, csr := [(0x300, 2 * 2 ^ 32 + 8), (0x304, 128)] })] } }, by decide⟩

theorem wit_HartEventsAndGroups_3 : ∃ (g : Fin 64) (p : List Nat) (s u : State), (p = (members s g.val).filter (takesPart s) ∧ p ≠ []) ∧ (u = s.wr R.FIL_WG_W1.MEMBERS [g.val] p.length) ∧ (u.flag R.FIL_WG_W0.EN [g.val] = true ∧ u.rd R.PWR_STATUS.STATE [] ≠ 2) ∧ ((members u g.val).any (fun h => hartSt u h == hsHalt) = false) ∧ (p.all (isBlocked u g.val) = true ∧ p.all (fun h => (hartGet u h).blocked) = true) :=
  ⟨0, _, ((sHart { Hart.reset with ev := 0, wait := some (1, 6), blocked := true }).wr R.FIL_HART_CTL.STATE [0] 2 |>.wr R.FIL_HART_CTL.WG_EN [0] 1 |>.wr R.FIL_WG_W0.EN [0] 1 |>.wr R.FIL_WG_W0.CLOSED [0] 1), _, ⟨rfl, by decide +kernel⟩, rfl, by decide +kernel⟩

theorem wit_HartEventsAndGroups_4 : ∃ (g : Fin 64) (p : List Nat) (s u : State), (p = (members s g.val).filter (takesPart s) ∧ p ≠ []) ∧ (u = s.wr R.FIL_WG_W1.MEMBERS [g.val] p.length) ∧ (u.flag R.FIL_WG_W0.EN [g.val] = true ∧ u.rd R.PWR_STATUS.STATE [] ≠ 2) ∧ ((members u g.val).any (fun h => hartSt u h == hsHalt) = false) ∧ (p.all (isBlocked u g.val) = false) :=
  ⟨0, _, ((sHart Hart.reset).wr R.FIL_HART_CTL.WG_EN [0] 1 |>.wr R.FIL_WG_W0.EN [0] 1), _, ⟨rfl, by decide +kernel⟩, rfl, by decide +kernel⟩

theorem wit_FilbertSetup_0 : ∃ (c : Fin 64) (s : State), (Awake s) ∧ (issueCheck s c.val = 0) :=
  ⟨0, ((State.reset.wr R.FIL_CORE_TABLE_LO.SLOTS_0_7 [0] 8).wr R.FIL_CORE_TABLE_HI.SLOTS_8_15 [0] 0x808).wr R.FIL_CORE_TABLE_LO.SLOTS_0_7 [0] 0x808, by decide⟩

theorem wit_FilbertSetup_1 : ∃ (c : Fin 64) (s : State), (Awake s) ∧ (issueCheck s c.val ≠ 0) :=
  ⟨0, (State.reset.wr R.FIL_CORE_TABLE_LO.SLOTS_0_7 [0] 0x88), by decide⟩

theorem wit_FilbertSetup_2 : ∃ (n : Fin 8192) (s : State), (Awake s) ∧ (s.flag R.FIL_CH_W0.EN [n.val] = false) ∧ (chanEnCheck s n.val = 0) :=
  ⟨7, State.reset, by decide +kernel⟩

theorem wit_FilbertSetup_3 : ∃ (n : Fin 8192) (s : State), (Awake s) ∧ (s.flag R.FIL_CH_W0.EN [n.val] = false) ∧ (chanEnCheck s n.val ≠ 0) :=
  ⟨7, State.reset.wr R.FIL_CH_W0.PROD_CLASS [7] 5, by decide⟩

theorem wit_FilbertSetup_4 : ∃ (m : Bytes) (l : List Bytes) (s : State), (Awake s) ∧ (chanMsgs s 0xFF20 = m :: l) :=
  ⟨[9], [], chanPush State.reset 0xFF20 [9], by decide⟩

theorem wit_FilbertSetup_5 : ∃ (k : Fin 64) (m : Bytes) (l : List Bytes) (s : State), (Awake s) ∧ (chanMsgs s (0xFF40 + k.val) = m :: l) ∧ (s.fil.txUntil ≤ s.now) ∧ (txBad m = false) :=
  ⟨0, [1, 0, 0, 0, 0, 0, 64, 0, 0, 0, 0, 0, 128], [], chanPush State.reset 0xFF40 [1, 0, 0, 0, 0, 0, 64, 0, 0, 0, 0, 0, 128], by decide +kernel⟩

theorem wit_FilbertSetup_6 : ∃ (k : Fin 64) (m : Bytes) (l : List Bytes) (s : State), (Awake s) ∧ (chanMsgs s (0xFF40 + k.val) = m :: l) ∧ (s.fil.txUntil ≤ s.now) ∧ (txBad m = true) :=
  ⟨0, [9], [], chanPush State.reset 0xFF40 [9], by decide⟩

theorem wit_HartResetAndDebug_0 : ∃ (h : Fin 512) (s : State), (Awake s) ∧ (s.flag R.FIL_CORE_STATUS.RETIRED [coreOf h.val] = false) ∧ (bit (s.rd R.FIL_CORE_CTL.RUN [coreOf h.val]) (h.val % 8) = true) :=
  ⟨0, State.reset.wr R.FIL_CORE_CTL.RUN [0] 1, by decide⟩

theorem wit_HartResetAndDebug_1 : ∃ (h : Fin 512) (s : State), (Awake s) ∧ (s.flag R.FIL_CORE_STATUS.RETIRED [coreOf h.val] = false) ∧ (bit (s.rd R.FIL_CORE_CTL.RUN [coreOf h.val]) (h.val % 8) = false) :=
  ⟨0, State.reset, by decide⟩

theorem wit_HartResetAndDebug_2 : ∃ (h : Fin 512) (s u : State), (Awake s) ∧ (hartSt s h.val = hsReset) ∧ (u = s.wr R.FIL_CORE_CTL.RUN [coreOf h.val] (setBit (s.rd R.FIL_CORE_CTL.RUN [coreOf h.val]) (h.val % 8) true)) :=
  ⟨0, State.reset, _, by decide, by decide, rfl⟩

theorem wit_HartResetAndDebug_3 : ∃ (h : Fin 512) (s : State), (Awake s) ∧ (unlocked s 0 = true) ∧ (hartSt s h.val = hsRun ∨ hartSt s h.val = hsWait) :=
  ⟨0, sUnl, by decide⟩

theorem wit_HartResetAndDebug_4 : ∃ (h : Fin 512) (s : State), (Awake s) ∧ (unlocked s 0 = true) ∧ (hartSt s h.val = hsHalt) :=
  ⟨0, sHalt, by decide⟩

theorem wit_HartResetAndDebug_5 : ∃ (h : Fin 512) (s : State), (Awake s) ∧ (unlocked s 0 = true) :=
  ⟨0, sHalt, by decide⟩

theorem wit_HartResetAndDebug_6 : ∃ (h : Fin 512) (w : BitVec 32) (x : RvHap) (s u : State), (Awake s) ∧ (unlocked s 0 = true) ∧ (hartSt s h.val = hsHalt) ∧ (u = resumeHart s h.val) ∧ (coreLive u (coreOf h.val) = true ∧ hartSt u h.val = hsRun) :=
  ⟨0, 0x13, .fine, sHalt, _, by decide, by decide, by decide, rfl, by decide⟩

theorem wit_HartResetAndDebug_7 : ∃ (h : Fin 512) (n : Fin 65536) (p : List (BitVec 32)) (v : Nat) (s u : State), (Awake s) ∧ (unlocked s 0 = true) ∧ (hartSt s h.val = hsHalt ∧ coreLive s (coreOf h.val) = true) ∧ (dbgRegRead (progWrite s p) h.val n.val = some (v, u)) :=
  ⟨0, 0x1005, [], _, sHalt, _, by decide, by decide, by decide, rfl⟩

theorem wit_HartResetAndDebug_8 : ∃ (h : Fin 512) (n : Fin 65536) (p : List (BitVec 32)) (v : BitVec 64) (s u : State), (Awake s) ∧ (unlocked s 0 = true) ∧ (hartSt s h.val = hsHalt ∧ coreLive s (coreOf h.val) = true) ∧ (dbgRegWrite (progWrite s p) h.val n.val v.toNat = some u) :=
  ⟨0, 0x1005, [], 7, sHalt, _, by decide, by decide, by decide, rfl⟩

theorem wit_HartResetAndDebug_9 : ∃ (h : Fin 512) (a : BitVec 64) (k : Fin 4) (v : BitVec 64) (s : State), (Awake s) ∧ (unlocked s 0 = true) ∧ (hartSt s h.val = hsHalt ∧ coreLive s (coreOf h.val) = true) ∧ (inHbm a.toNat (2 ^ k.val) = true → unlocked s 2 = true) ∧ (memCheck (hartPut s h.val { hartGet s h.val with mmode := true }) h.val a.toNat (2 ^ k.val) .store true = none) :=
  ⟨0, 64, 3, 7, sHalt, by decide, by decide, by decide, by decide, rfl⟩

theorem wit_HartResetAndDebug_10 : ∃ (h : Fin 512) (a : BitVec 64) (k : Fin 4) (v : Nat) (s u : State), (Awake s) ∧ (unlocked s 0 = true) ∧ (hartSt s h.val = hsHalt ∧ coreLive s (coreOf h.val) = true) ∧ (inHbm a.toNat (2 ^ k.val) = true → unlocked s 2 = true) ∧ (memCheck (hartPut s h.val { hartGet s h.val with mmode := true }) h.val a.toNat (2 ^ k.val) .load true = none) ∧ (loadPoisoned s a.toNat (2 ^ k.val) .fine = false) ∧ (memGet s h.val a.toNat (2 ^ k.val) = (v, u)) :=
  ⟨0, 64, 3, _, sHalt, _, by decide, by decide, by decide, by decide, rfl, by decide, rfl⟩

theorem wit_HartInstructionsAndTraps_0 : ∃ (h : Fin 512) (rd rs1 : Fin 32) (i : Fin 4096) (x : RvHap) (r s : State), (HartReady r h.val s) ∧ (fetchFault s h.val 4 = none) ∧ (∀ a, x ≠ .coreError a) :=
  ⟨0, 6, 5, 4095, .fine, sHart Hart.reset, sIss (sHart Hart.reset) 0, ready_of (by decide), by decide, fun _ e => by cases e⟩

theorem wit_HartInstructionsAndTraps_1 : ∃ (h : Fin 512) (rd rs1 rs2 : Fin 32) (x : RvHap) (r s : State), (HartReady r h.val s) ∧ (fetchFault s h.val 4 = none) ∧ (∀ a, x ≠ .coreError a) :=
  ⟨0, 6, 5, 5, .fine, sHart Hart.reset, sIss (sHart Hart.reset) 0, ready_of (by decide), by decide, fun _ e => by cases e⟩

theorem wit_HartInstructionsAndTraps_2 : ∃ (h : Fin 512) (rd : Fin 32) (k : Fin 1048576) (x : RvHap) (r s : State), (HartReady r h.val s) ∧ (fetchFault s h.val 4 = none) ∧ (∀ a, x ≠ .coreError a) :=
  ⟨0, 6, 5, .fine, sHart Hart.reset, sIss (sHart Hart.reset) 0, ready_of (by decide), by decide, fun _ e => by cases e⟩

theorem wit_HartInstructionsAndTraps_3 : ∃ (h : Fin 512) (rd : Fin 32) (k : Fin 1048576) (x : RvHap) (r s : State), (HartReady r h.val s) ∧ (fetchFault s h.val 4 = none) ∧ (∀ a, x ≠ .coreError a) :=
  ⟨0, 6, 5, .fine, sHart Hart.reset, sIss (sHart Hart.reset) 0, ready_of (by decide), by decide, fun _ e => by cases e⟩

theorem wit_HartInstructionsAndTraps_4 : ∃ (h : Fin 512) (rs1 rs2 : Fin 32) (k : Fin 4096) (x : RvHap) (r s : State), (HartReady r h.val s) ∧ (fetchFault s h.val 4 = none) ∧ (∀ a, x ≠ .coreError a) :=
  ⟨0, 6, 5, 8, .fine, sHart Hart.reset, sIss (sHart Hart.reset) 0, ready_of (by decide), by decide, fun _ e => by cases e⟩

theorem wit_HartInstructionsAndTraps_5 : ∃ (h : Fin 512) (rs1 rs2 : Fin 32) (i : Fin 4096) (a : Nat) (x : RvHap) (r s : State), (HartReady r h.val s) ∧ (fetchFault s h.val 4 = none) ∧ (∀ a, x ≠ .coreError a) ∧ (a = w64 (xr s h.val rs1.val + sx 12 i.val)) ∧ (memCheck s h.val a 8 .store false = none) :=
  ⟨0, 0, 5, 64, 64, .fine, sHart Hart.reset, sIss (sHart Hart.reset) 0, ready_of (by decide), by decide, (fun _ e => by cases e), by decide, rfl⟩

theorem wit_HartInstructionsAndTraps_6 : ∃ (h : Fin 512) (rd rs1 : Fin 32) (i : Fin 4096) (a v : Nat) (x : RvHap) (r s u : State), (HartReady r h.val s) ∧ (fetchFault s h.val 4 = none) ∧ (∀ a, x ≠ .coreError a) ∧ (a = w64 (xr s h.val rs1.val + sx 12 i.val)) ∧ (memCheck s h.val a 8 .load false = none) ∧ (loadPoisoned s a 8 x = false) ∧ (memGet s h.val a 8 = (v, u)) :=
  ⟨0, 6, 0, 64, 64, _, .fine, sHart Hart.reset, sIss (sHart Hart.reset) 0, _, ready_of (by decide), by decide, (fun _ e => by cases e), by decide, rfl, by decide, rfl⟩

theorem wit_HartInstructionsAndTraps_7 : ∃ (h : Fin 512) (x : RvHap) (r s : State), (HartReady r h.val s) ∧ (fetchFault s h.val 4 = none) ∧ (∀ a, x ≠ .coreError a) :=
  ⟨0, .fine, sHart Hart.reset, sIss (sHart Hart.reset) 0, ready_of (by decide), by decide, fun _ e => by cases e⟩

theorem wit_HartInstructionsAndTraps_8 : ∃ (h : Fin 512) (x : RvHap) (r s : State), (HartReady r h.val s) ∧ (fetchFault s h.val 2 = none) ∧ (∀ a, x ≠ .coreError a) :=
  ⟨0, .fine, sHart Hart.reset, sIss (sHart Hart.reset) 0, ready_of (by decide), by decide, fun _ e => by cases e⟩

theorem wit_HartInstructionsAndTraps_9 : ∃ (h : Fin 512) (w : BitVec 32) (x : RvHap) (a : Nat) (r s : State), (HartReady r h.val s) ∧ (fetchFault s h.val (rvExpand w.toNat).1 = some a) ∧ (∀ a, x ≠ .coreError a) :=
  ⟨0, 0x13, .fine, _, sHart { Hart.reset with pc := 0x20000 }, sIss (sHart { Hart.reset with pc := 0x20000 }) 0, ready_of (by decide), rfl, fun _ e => by cases e⟩

theorem wit_TimeCaptureAndSet_0 : ∃ (s : State), (Awake s) :=
  ⟨State.reset, by decide⟩

theorem wit_TimeCaptureAndSet_1 : ∃ (v : Nat) (neg : Bool) (s : State), (Awake s) ∧ (v = tsMake (s.rd R.TU_SET_SEC_LO.SEC_LO [] + 2 ^ 32 * s.rd R.TU_SET_SEC_HI.SEC_HI []) (s.rd R.TU_SET_NS.NS []) (s.rd R.TU_SET_FRAC.FRAC []) * 65536) :=
  ⟨0, true, State.reset, by decide⟩

theorem wit_TimeCaptureAndSet_2 : ∃ (v : Nat) (neg : Bool) (s : State), (Awake s) ∧ (v = tsMake (s.rd R.TU_SET_SEC_LO.SEC_LO [] + 2 ^ 32 * s.rd R.TU_SET_SEC_HI.SEC_HI []) (s.rd R.TU_SET_NS.NS []) (s.rd R.TU_SET_FRAC.FRAC []) * 65536) :=
  ⟨0, true, State.reset, by decide⟩

theorem wit_ServoOfTheTimeUnit_0 : ∃ (kind : Bool) (s u : State), (Awake s) ∧ (u = s.wr R.TU_SMP_CTL.KIND [] (b2n kind)) ∧ (s.flag R.TU_STATUS.SMP_BUSY [] = true) :=
  ⟨true, State.reset.wr R.TU_STATUS.SMP_BUSY [] 1, _, by decide, rfl, by decide⟩

theorem wit_ServoOfTheTimeUnit_1 : ∃ (d off : Int) (s u v : State), (Awake s) ∧ (u = engineBusy (s.wr R.TU_SMP_CTL.KIND [] 1)) ∧ (s.flag R.TU_STATUS.SMP_BUSY [] = false) ∧ (d = ((s.rd R.TU_SMP_DELAY.DELAY [] * 256 : Nat) : Int) ∧ d ≤ 16700000 * 65536) ∧ (off = smpTime s 1 - smpTime s 0 - d) ∧ (v = (u.wr R.TU_OUT_DLY.DELAY [] (d.toNat / 256)).inc R.TU_CNT.COUNT [0]) :=
  ⟨0, 0, State.reset, _, _, by decide, rfl, by decide, by decide, by decide, rfl⟩

theorem wit_ServoOfTheTimeUnit_2 : ∃ (s u : State), (Awake s) ∧ (s.rd R.TU_STATUS.SERVO_STATE [] = svLocking ∨ s.rd R.TU_STATUS.SERVO_STATE [] = svLocked) ∧ (u = clockTo s (s.tu.offAt + max 1 (s.rd R.TU_SERVO_LIM.HOLD_TMO []) * 10000000)) ∧ (u.rd R.TU_STATUS.SERVO_STATE [] = s.rd R.TU_STATUS.SERVO_STATE []) :=
  ⟨{ State.reset.wr R.TU_STATUS.SERVO_STATE [] 2 with now := 10000000 }, _, by decide, by decide, rfl, by decide⟩

theorem wit_ServoOfTheTimeUnit_3 : ∃ (m : Fin 8) (s : State), (Awake s) ∧ (m.val = 1 ∨ m.val = 3) ∧ (s.rd R.TU_STATUS.SERVO_STATE [] = svFree) :=
  ⟨3, State.reset, by decide⟩

theorem wit_ServoOfTheTimeUnit_4 : ∃ (m : Fin 8) (s : State), (Awake s) ∧ (m.val = 0 ∨ m.val = 2) :=
  ⟨2, State.reset, by decide⟩

theorem wit_ServoOfTheTimeUnit_5 : ∃ (m : Fin 8) (s : State), (Awake s) ∧ (4 ≤ m.val) :=
  ⟨4, State.reset, by decide⟩

theorem wit_TimePulses_0 : ∃ (s : State), (Awake s) ∧ (s.flag R.TU_PPS.IN_EN [] = true) ∧ (s.rd R.TU_SERVO.SRC [] ≠ 1 ∨ isMember s = true) :=
  ⟨State.reset.wr R.TU_PPS.IN_EN [] 1 |>.wr R.TU_SERVO.SRC [] 0, by decide⟩

theorem wit_TimePulses_1 : ∃ (s : State), (Awake s) ∧ (s.flag R.TU_PPS.IN_EN [] = true) ∧ (s.rd R.TU_SERVO.SRC [] = 1 ∧ isMember s = false) :=
  ⟨State.reset.wr R.TU_PPS.IN_EN [] 1 |>.wr R.TU_SERVO.SRC [] 1, by decide⟩

theorem wit_TimePulses_2 : ∃ (s u : State), (Awake s) ∧ (s.flag R.TU_CFG.EN [] = true) ∧ (u = clockTo s (ppsNext s)) :=
  ⟨State.reset.wr R.TU_CFG.EN [] 1, _, by decide, by decide, rfl⟩

theorem wit_TimePulses_3 : ∃ (q : BitVec 32) (s : State), (Awake s) ∧ (s.flag R.TU_SYNCE.EN [] = true) ∧ (s.rd R.TU_STATUS.EEC_STATE [] ≠ eecLocked) ∧ (eecLaneOk s 0 = true ∧ eecInRange q.toInt = true) :=
  ⟨5, (State.reset.wr R.TU_SYNCE.EN [] 1 |>.wr R.TU_SYNCE.REF0_EN [] 1 |>.wr R.ETH_LANE_STATUS.CDR_LOCK [0, 0] 1), by decide⟩

theorem wit_TimePulses_4 : ∃ (r : Fin 2) (a : BitVec 32) (s : State), (Awake s) ∧ (s.rd R.TU_STATUS.EEC_STATE [] = eecLocked ∧ s.rd R.TU_STATUS.EEC_REF [] = r.val) ∧ (eecLaneOk s (1 - r.val) = false) :=
  ⟨0, 5, State.reset.wr R.TU_STATUS.EEC_STATE [] 1, by decide⟩

theorem wit_TimePulses_5 : ∃ (s : State), (Awake s) :=
  ⟨State.reset, by decide⟩

theorem wit_TimePulses_6 : ∃ (s : State), (Awake s) :=
  ⟨State.reset, by decide⟩

theorem wit_ThermalAndVoltageStates_0 : ∃ (i : Fin 64) (raw : BitVec 16) (s u : State), (bellman s = false ∧ s.pwr.dark = false) ∧ (u = tempPut s i.val raw.toNat) ∧ (nextTstate u (u.rd R.REV_STATUS.TSTATE []) = u.rd R.REV_STATUS.TSTATE []) :=
  ⟨3, 400, State.reset, _, by decide, rfl, by decide +kernel⟩

theorem wit_ThermalAndVoltageStates_1 : ∃ (i : Fin 64) (raw : BitVec 16) (n : Nat) (s u : State), (bellman s = false ∧ s.pwr.dark = false) ∧ (u = tempPut s i.val raw.toNat) ∧ (n = nextTstate u (u.rd R.REV_STATUS.TSTATE []) ∧ n ≠ u.rd R.REV_STATUS.TSTATE []) :=
  ⟨3, 1760, 1, State.reset, _, by decide, rfl, by decide +kernel⟩

theorem wit_ThermalAndVoltageStates_2 : ∃ (m : Fin 48) (raw : BitVec 16) (s : State), (bellman s = false ∧ s.pwr.dark = false) ∧ (s.flag R.REV_VTH_W1.EN [m.val] = false) ∧ (bit s.rev.belowWarn m.val = false ∧ bit s.rev.faulted m.val = false) :=
  ⟨3, 800, State.reset.wr R.REV_VTH_W1.EN [3] 0, by decide⟩

theorem wit_ThermalAndVoltageStates_3 : ∃ (m : Fin 48) (raw : BitVec 16) (y : Nat) (s u v : State), (bellman s = false ∧ s.pwr.dark = false) ∧ (y = voltNext s m.val raw.toNat ∧ u = voltPut s m.val raw.toNat) ∧ (voltWarn u m.val y = false ∧ voltBad u m.val y = true ∧ bit u.rev.faulted m.val = false) ∧ (v = putRev u { u.rev with belowWarn := setBit u.rev.belowWarn m.val false, faulted := setBit u.rev.faulted m.val true }) :=
  ⟨3, 800, _, (State.reset.wr R.REV_VTH_W1.EN [3] 1 |>.wr R.REV_VTH_W1.OV_FAULT [3] 700 |>.wr R.REV_VTH_W0.UV_WARN [3] 600), _, _, by decide, ⟨rfl, rfl⟩, by decide, rfl⟩

theorem wit_ThermalAndVoltageStates_4 : ∃ (v c g : Nat) (s u : State), (bellman s = false ∧ s.pwr.dark = false) ∧ (s.flag R.REV_CFG.AVS_EN [] = true) ∧ (u = clockTo s (s.rev.avsAt + 10000000)) ∧ (c = (if u.rd R.REV_AVS.TARGET_MV [] = 0 then 800 else u.rd R.REV_AVS.TARGET_MV [])) ∧ (g = max 650 (min 850 (Config.avsCurve (deviceTemp u))) ∧ v = max (c - 10) (min (c + 10) g)) :=
  ⟨_, _, _, { State.reset.wr R.REV_CFG.AVS_EN [] 1 with now := 10000000 }, _, by decide, by decide, rfl, rfl, rfl, rfl⟩

theorem wit_ThermalAndVoltageStates_5 : ∃ (s : State), (bellman s = false ∧ s.pwr.dark = false) ∧ (pwrSt s = psStandby ∧ s.pwr.sby = .critical) ∧ (deviceTemp s < threshold s 1 - hyst s) :=
  ⟨{ State.reset.wr R.PWR_STATUS.STATE [] 3 with pwr := { Pwr.reset with sby := .critical } }, by decide +kernel⟩

theorem wit_ThermalAndVoltageStates_x0 : ∃ (s : State) (c : Nat), c ≤ 3 ∧ 0 < c ∧ deviceTemp s < threshold s c - hyst s := ⟨State.reset, 1, by decide +kernel⟩

theorem wit_FailuresAndRetirement_0 : ∃ (k : Fin 16) (u : Fin 4096) (row : BitVec 32) (l : List Nat) (s : State), (bellman s = false ∧ s.pwr.dark = false) ∧ (isRetired s k.val u.val = true) ∧ (u.val < classUnits k.val) :=
  ⟨5, 0, 0, [], State.reset.wr R.FIL_CORE_STATUS.RETIRED [0] 1, by decide⟩

theorem wit_FailuresAndRetirement_1 : ∃ (k : Fin 16) (u : Fin 4096) (row : BitVec 32) (l : List Nat) (s : State), (bellman s = false ∧ s.pwr.dark = false) ∧ (isRetired s k.val u.val = false ∧ u.val < classUnits k.val) ∧ (failedNow s k.val u.val = false) ∧ (k.val ≠ 2 ∧ s.rd R.REV_CLASS_W0.COUNT_MAX [k.val] = 0) :=
  ⟨5, 0, 0, [], State.reset.wr R.REV_CLASS_W0.COUNT_MAX [5] 0, by decide⟩

theorem wit_FailuresAndRetirement_2 : ∃ (k : Fin 16) (u : Fin 4096) (row : BitVec 32) (l : List Nat) (s : State), (bellman s = false ∧ s.pwr.dark = false) ∧ (isRetired s k.val u.val = false ∧ u.val < classUnits k.val) ∧ (failedNow s k.val u.val = true) :=
  ⟨5, 0, 0, [], { State.reset with rev := { Rev.reset with fails := [{ cls := 5, unit := 0, ms := 0, shown := true, cycle := 1 }] } }, by decide, by decide, by simp [failedNow, ctlCycle, show State.reset.now = 0 from rfl] <;> rfl⟩

theorem wit_FailuresAndRetirement_3 : ∃ (u : Fin 4096) (row : BitVec 32) (l : List Nat) (s v : State), (bellman s = false ∧ s.pwr.dark = false) ∧ (countFailure s 5 u.val row.toNat l = (v, true)) ∧ (u.val < 64) :=
  ⟨3, 0, [], (State.reset.wr R.REV_CLASS_W0.COUNT_MAX [5] 1 |>.wr R.REV_CLASS_W0.RETIRE_EN [5] 1), _, by decide, Prod.ext rfl (by decide), by decide⟩

theorem wit_FailuresAndRetirement_4 : ∃ (c : Fin 64) (s : State), (bellman s = false ∧ s.pwr.dark = false) :=
  ⟨3, State.reset, by decide⟩

theorem wit_FailuresAndRetirement_5 : ∃ (m : MDom) (kind : Fin 8) (u : Fin 4096) (s : State), (Awake s) ∧ (Allowed s m) ∧ (u.val < classUnits (retKind kind.val)) ∧ (isRetired s (retKind kind.val) u.val = true) ∧ ((retKind kind.val, u.val) ∉ s.rev.clears) :=
  ⟨.reeve, 4, 0, State.reset.wr R.FIL_CORE_STATUS.RETIRED [0] 1, by decide⟩

theorem wit_FailuresAndRetirement_6 : ∃ (m : MDom) (kind : Fin 8) (u : Fin 4096) (key : BitVec 16) (s : State), (Awake s) ∧ (Allowed s m) ∧ (key.toNat ≠ 0x3C5A ∨ classUnits (retKind kind.val) ≤ u.val ∨ isRetired s (retKind kind.val) u.val = false) :=
  ⟨.reeve, 4, 0, 0x3C5A, State.reset, by decide⟩

theorem wit_FailuresAndRetirement_7 : ∃ (s : State), (bellman s = false ∧ s.pwr.dark = false) :=
  ⟨State.reset, by decide⟩

theorem wit_FailuresAndRetirement_8 : ∃ (key : BitVec 16) (s : State), (bellman s = false ∧ s.pwr.dark = false) ∧ (key ≠ 0x7E1A#16) :=
  ⟨5, State.reset, by decide⟩

theorem wit_BellmanControl_0 : ∃ (s : State), (bellman s = false ∧ s.pwr.dark = false) :=
  ⟨State.reset, by decide⟩

theorem wit_BellmanControl_1 : ∃ (s : State), (bellman s = false ∧ s.pwr.dark = false) ∧ (s.rev.armed = true) :=
  ⟨{ State.reset with rev := { Rev.reset with armed := true } }, by decide⟩

theorem wit_BellmanControl_2 : ∃ (i : Fin 64) (s : State), (bellman s = false ∧ s.pwr.dark = false) ∧ (bit s.rev.trip2 i.val = true) :=
  ⟨5, { State.reset with rev := { Rev.reset with trip2 := 32 } }, by decide⟩

theorem wit_BellmanControl_3 : ∃ (s : State), (s.rev.armed = false) :=
  ⟨{ State.reset with rev := { Rev.reset with armed := false } }, by decide⟩

theorem wit_ManagementEndpoint_0 : ∃ (inst : BitVec 5) (op : BitVec 2) (eid : BitVec 8) (s : State), (reeveRuns s = true) ∧ (op.toNat < 2 ∧ eid ≠ 0 ∧ eid ≠ 0xFF) :=
  ⟨3, 0, 9, sFw, by decide⟩

theorem wit_ManagementEndpoint_1 : ∃ (inst : BitVec 5) (op : BitVec 2) (eid : BitVec 8) (s : State), (reeveRuns s = true) ∧ (2 ≤ op.toNat ∨ eid = 0 ∨ eid = 0xFF) :=
  ⟨3, 0, 0, sFw, by decide⟩

theorem wit_ManagementEndpoint_2 : ∃ (inst : BitVec 5) (s : State), (reeveRuns s = true) :=
  ⟨3, sFw, by decide⟩

theorem wit_ManagementEndpoint_3 : ∃ (inst : BitVec 5) (ty : BitVec 8) (s : State), (reeveRuns s = true) ∧ (ty = 0xFF ∨ ty = 0 ∨ ty ∈ msgTypes) :=
  ⟨3, 5, sFw, by decide⟩

theorem wit_ManagementEndpoint_4 : ∃ (inst : BitVec 5) (ty : BitVec 8) (s : State), (reeveRuns s = true) ∧ (ty ≠ 0xFF ∧ ty ≠ 0 ∧ ty ∉ msgTypes) :=
  ⟨3, 9, sFw, by decide⟩

theorem wit_ManagementEndpoint_5 : ∃ (inst : BitVec 5) (s : State), (reeveRuns s = true) :=
  ⟨3, sFw, by decide⟩

theorem wit_ManagementEndpoint_6 : ∃ (inst : BitVec 5) (s : State), (reeveRuns s = true) :=
  ⟨3, sFw, by decide⟩

theorem wit_ManagementEndpoint_7 : ∃ (inst : BitVec 5) (s : State), (reeveRuns s = true) :=
  ⟨3, sFw, by decide⟩

theorem wit_ManagementEndpoint_8 : ∃ (inst : BitVec 5) (v : Bytes) (ty : BitVec 8) (s : State), (reeveRuns s = true) ∧ ((ty = 0 ∧ v = [0xF1, 0xF1, 0xF0, 0x00]) ∨ (ty = 2 ∧ v = [0xF1, 0xF2, 0xF0, 0x00])) :=
  ⟨3, [0xF1, 0xF2, 0xF0, 0x00], 2, sFw, by decide⟩

theorem wit_ManagementEndpoint_9 : ∃ (inst : BitVec 5) (flag ty : BitVec 8) (s : State), (reeveRuns s = true) ∧ (flag ≠ 1) :=
  ⟨3, 2, 2, sFw, by decide⟩

theorem wit_ManagementEndpoint_10 : ∃ (inst : BitVec 5) (s : State), (reeveRuns s = true) :=
  ⟨3, sFw, by decide⟩

theorem wit_ManagementEndpoint_11 : ∃ (inst : BitVec 5) (ty : BitVec 8) (s : State), (reeveRuns s = true) ∧ (ty = 0 ∨ ty = 2) :=
  ⟨3, 2, sFw, by decide⟩

theorem wit_ManagementEndpoint_12 : ∃ (inst : BitVec 5) (s : State), (reeveRuns s = true) :=
  ⟨3, sFw, by decide⟩

theorem wit_ManagementEndpoint_13 : ∃ (inst : BitVec 5) (handle part : BitVec 32) (count : BitVec 16) (id : Nat) (r : Bytes) (s : State), (reeveRuns s = true) ∧ (id = (if handle.toNat = 0 then 1 else handle.toNat) ∧ id ≤ pdrCount) ∧ (r = pdrRecord id ∧ r.length ≤ count.toNat) :=
  ⟨3, 0, 0, 255, 1, _, sFw, by decide, by decide, rfl, by decide⟩

theorem wit_ManagementEndpoint_14 : ∃ (inst : BitVec 5) (handle part : BitVec 32) (flag : BitVec 8) (count : BitVec 16) (s : State), (reeveRuns s = true) ∧ (pdrCount < handle.toNat) :=
  ⟨3, 118, 0, 1, 255, sFw, by decide⟩

theorem wit_ManagementEndpoint_15 : ∃ (inst : BitVec 5) (id : BitVec 16) (s : State), (reeveRuns s = true) ∧ (1 ≤ id.toNat ∧ id.toNat ≤ 64) :=
  ⟨3, 5, sFw, by decide⟩

theorem wit_ManagementEndpoint_16 : ∃ (inst : BitVec 5) (id : BitVec 16) (m : Fin 48) (x : Nat) (s : State), (reeveRuns s = true) ∧ (id.toNat = 66 + m.val) ∧ (x = (if bit s.rev.faulted m.val then 3 else if bit s.rev.belowWarn m.val then 2 else 1)) :=
  ⟨3, 70, 4, 1, sFw, by decide⟩

theorem wit_ManagementEndpoint_17 : ∃ (inst : BitVec 5) (id : BitVec 16) (s : State), (reeveRuns s = true) ∧ (id.toNat = 114) :=
  ⟨3, 114, sFw, by decide⟩

theorem wit_ManagementEndpoint_18 : ∃ (inst : BitVec 5) (id : BitVec 16) (v : Nat) (s : State), (reeveRuns s = true) ∧ ((id.toNat = 115 ∧ v = pwrSt s) ∨ (id.toNat = 116 ∧ v = s.rd R.REV_STATUS.TSTATE []) ∨ (id.toNat = 117 ∧ v = faultState s)) :=
  ⟨3, 116, 0, sFw, by decide⟩

theorem wit_ManagementEndpoint_19 : ∃ (inst : BitVec 5) (id : BitVec 16) (s : State), (reeveRuns s = true) ∧ (id.toNat < 115 ∨ 117 < id.toNat) :=
  ⟨3, 114, sFw, by decide⟩

theorem wit_ManagementEndpoint_20 : ∃ (inst : BitVec 5) (eid : BitVec 8) (s : State), (reeveRuns s = true) ∧ (s.rev.causeEvent = false) :=
  ⟨3, 9, sFw, by decide⟩

theorem wit_ManagementMessages_0 : ∃ (sess : Option (BitVec 32)) (s : State), (reeveRuns s = true) :=
  ⟨none, sFw, by decide⟩

theorem wit_ManagementMessages_1 : ∃ (sess : Option (BitVec 32)) (s : State), (reeveRuns s = true) ∧ (inSession s sess = true) :=
  ⟨some 5, sSpdm 3 [sSess true], by decide⟩

theorem wit_ManagementMessages_2 : ∃ (sess : Option (BitVec 32)) (s : State), (reeveRuns s = true) ∧ (inSession s sess = true) :=
  ⟨some 5, sSpdm 3 [sSess true], by decide⟩

theorem wit_ManagementMessages_3 : ∃ (sess : Option (BitVec 32)) (s : State), (reeveRuns s = true) ∧ (inSession s sess = false) :=
  ⟨none, sFw, by decide⟩

theorem wit_ManagementMessages_4 : ∃ (start : BitVec 8) (s : State), (reeveRuns s = true) :=
  ⟨7, sFw, by decide⟩

theorem wit_ManagementMessages_5 : ∃ (s : State), (reeveRuns s = true) :=
  ⟨sFw, by decide⟩

theorem wit_SecureBoot_0 : ∃ (b : Bytes) (c : Nat) (s u : State), (bellman s = false ∧ s.pwr.dark = false ∧ stage s = stRom) ∧ (u = { s with rev := { s.rev with hbAt := s.now } }) ∧ (c = checkImage u tyReeve b (payloadOf b)) :=
  ⟨[9], _, State.reset, _, by decide, rfl, rfl⟩

theorem wit_SecureBoot_1 : ∃ (s : State), (bellman s = false ∧ s.pwr.dark = false ∧ stage s = stRom) ∧ (s.trust.triedR = 0) :=
  ⟨State.reset, by decide⟩

theorem wit_SecureBoot_2 : ∃ (b : Bytes) (c : Nat) (s u : State), (reeveRuns s = true ∧ stage s = stReeve ∧ asleep s = false) ∧ (c = checkHeader s tyFilbert b ∧ c ≠ 0) :=
  ⟨[9], _, sFw, sFw, by decide, rfl, by decide⟩

theorem wit_SecureBoot_3 : ∃ (b : Bytes) (c : Nat) (s u : State) (a : Nat), (reeveRuns s = true ∧ stage s = stReeve ∧ asleep s = false) ∧ (c = checkHeader s tyFilbert b) ∧ (u = s.hbmWrite a (payloadOf b) ∧ region (loadAddr b) (payloadLen b) = .hbm a) :=
  ⟨List.replicate 20 0 ++ [0x80, 0, 0, 0], _, sFw, _, 0, by decide, rfl, rfl, by decide⟩

theorem wit_SecureBoot_4 : ∃ (m : Img) (s : State), (Awake s) ∧ (stage s = stFilbert ∧ s.flag R.DOM_STATUS.FW_READY [] = false) ∧ (s.trust.imgF = some m ∧ m.advance = true ∧ m.revoke = false) ∧ (svnFloor s tyFilbert < m.svn) :=
  ⟨{ svn := 3, keyId := 0, advance := true, revoke := false, digest := [] }, { State.reset.wr R.DBG_BOOT.STAGE [] 2 with trust := { Trust.reset with imgF := some { svn := 3, keyId := 0, advance := true, revoke := false, digest := [] } } }, by decide⟩

theorem wit_SecureBoot_5 : ∃ (m : Img) (s : State), (reeveRuns s = true) ∧ (s.trust.imgR = some m ∧ m.advance = true ∧ m.revoke = false) ∧ (svnFloor s tyReeve < m.svn) :=
  ⟨{ svn := 3, keyId := 0, advance := true, revoke := false, digest := [] }, { sFw with trust := { Trust.reset with imgR := some { svn := 3, keyId := 0, advance := true, revoke := false, digest := [] } } }, by decide⟩

theorem wit_DebugUnlock_0 : ∃ (m : MDom) (s : State), (Awake s) ∧ (unlockStatus s ≠ statusVerifying) :=
  ⟨.reeve, State.reset, by decide⟩

theorem wit_DebugUnlock_1 : ∃ (m : MDom) (s : State), (Awake s) ∧ (unlockStatus s ≠ statusVerifying) ∧ (reeveRuns s = true) :=
  ⟨.owner, sFw, by decide⟩

theorem wit_DebugUnlock_2 : ∃ (m : MDom) (s : State), (Awake s) ∧ (unlockStatus s ≠ statusVerifying) ∧ (reeveRuns s = false) :=
  ⟨.owner, State.reset, by decide⟩

theorem wit_DebugUnlock_3 : ∃ (u : Unlock) (n : Nat) (s : State), (reeveRuns s = true) ∧ (s.trust.verifying = some u) ∧ (n = verifyToken s u) :=
  ⟨{ token := [], chal := [] }, _, { sFw with trust := { Trust.reset with verifying := some { token := [], chal := [] } } }, by decide, by decide, rfl⟩

theorem wit_DebugUnlock_4 : ∃ (m : MDom) (s : State), (Awake s) :=
  ⟨.reeve, State.reset, by decide⟩

theorem wit_SpdmNegotiation_0 : ∃ (r : SpdmReq) (s : State), (reeveRuns s = true) ∧ (r.sess = none) ∧ (r.ver = 0x10) :=
  ⟨sReq 0x10 0 0 none [], sFw, by decide⟩

theorem wit_SpdmNegotiation_1 : ∃ (r : SpdmReq) (s : State), (reeveRuns s = true) ∧ (r.sess = none) ∧ (r.ver ≠ 0x10) :=
  ⟨sReq 0x12 0 0 none [], sFw, by decide⟩

theorem wit_SpdmNegotiation_2 : ∃ (r : SpdmReq) (s : State), (reeveRuns s = true) ∧ (r.sess = none) ∧ (r.ver = 0x12 ∨ r.ver = 0x13) ∧ ((spdm s).phase = 1) ∧ (16 ≤ r.body.length ∧ 42 ≤ leAt r.body 8 4) :=
  ⟨sReq 0x12 0 0 none (List.replicate 8 0 ++ [64] ++ List.replicate 7 0), sSpdm 1 [], by decide⟩

theorem wit_SpdmNegotiation_3 : ∃ (t0 : Bytes) (r : SpdmReq) (s : State), (reeveRuns s = true) ∧ (r.sess = none) ∧ ((spdm s).phase = 2) ∧ (28 ≤ r.body.length ∧ bit (leAt r.body 4 4) 7 = true ∧ bit (leAt r.body 8 4) 1 = true) ∧ (t0 = algTables r.p1.toNat (r.body.drop (28 + 4 * (byteAt r.body 24 + byteAt r.body 25)))) :=
  ⟨[], sReq 0x12 0 0 none (List.replicate 4 0 ++ [128, 0, 0, 0, 2] ++ List.replicate 19 0), sSpdm 2 [], by decide⟩

theorem wit_SpdmNegotiation_4 : ∃ (r : SpdmReq) (s : State), (reeveRuns s = true) ∧ (r.sess = none) ∧ ((spdm s).phase = 3 ∧ r.ver.toNat = (spdm s).ver) ∧ (leAt r.body 0 2 = 0 ∧ bit r.p1.toNat 0 = false) ∧ (leAt r.body 8 4 ≤ ourMax ∧ (slice r.body 12 (leAt r.body 4 4)).length ≤ leAt r.body 8 4) :=
  ⟨sReq 0x12 0 7 none ([0, 0, 0, 0, 2, 0, 0, 0, 40, 0, 0, 0, 1, 2]), sSpdm 3 [], by decide⟩

theorem wit_SpdmNegotiation_5 : ∃ (h n off : Nat) (b p : Bytes) (r : SpdmReq) (s : State), (reeveRuns s = true) ∧ (r.sess = none) ∧ ((spdm s).phase = 3 ∧ r.ver.toNat = (spdm s).ver) ∧ ((spdm s).large = some (h, n, b, off)) ∧ (r.p2.toNat = h ∧ leAt r.body 0 2 = n) ∧ (0 < n) ∧ (p = (b.drop off).take ((spdm s).xfer - 12)) :=
  ⟨7, 1, 0, [1, 2], _, sReq 0x12 0 7 none [1, 0], { sFw with trust := { Trust.reset with spdm := { Spdm.reset with phase := 3, ver := 0x12, xfer := 64, large := some (7, 1, [1, 2], 0) } } }, by decide, by decide, by decide, rfl, by decide, by decide, rfl⟩

theorem wit_SpdmIdentity_0 : ∃ (r : SpdmReq) (s : State), (reeveRuns s = true) ∧ (r.sess = none) ∧ ((spdm s).phase = 3 ∧ r.ver.toNat = (spdm s).ver) :=
  ⟨sReq 0x12 0 0 none [], sSpdm 3 [], by decide⟩

theorem wit_SpdmIdentity_1 : ∃ (r : SpdmReq) (s : State), (reeveRuns s = true) ∧ (r.sess = none) ∧ ((spdm s).phase ≠ 3) :=
  ⟨sReq 0x12 0 0 none [], sFw, by decide⟩

theorem wit_SpdmIdentity_2 : ∃ (c p : Bytes) (off : Nat) (r : SpdmReq) (s : State), (reeveRuns s = true) ∧ (r.sess = none) ∧ ((spdm s).phase = 3 ∧ r.ver.toNat = (spdm s).ver) ∧ (r.p1.toNat % 16 < 2 ∧ c = slotChain (r.p1.toNat % 16) ∧ 4 ≤ r.body.length) ∧ (off = leAt r.body 0 2 ∧ off < 4 ∧ p = (c.drop off).take (leAt r.body 2 2)) :=
  ⟨_, _, _, sReq 0x12 0 0 none [0, 0, 64, 0], sSpdm 3 [], by decide, rfl, by decide, ⟨by decide, rfl, by decide⟩, ⟨rfl, by decide, rfl⟩⟩

theorem wit_SpdmIdentity_3 : ∃ (q : Bytes) (r : SpdmReq) (s : State), (reeveRuns s = true) ∧ (r.sess = none) ∧ ((spdm s).phase = 3 ∧ r.ver.toNat = (spdm s).ver) ∧ (r.p1.toNat < 2 ∧ 32 ≤ r.body.length) ∧ (q = rspMsg s 0x03 r.p1.toNat 3 (sha384 (slotChain r.p1.toNat) ++ (s.freeBytes 32).1 ++ measSummary s r.p2.toNat ++ [0, 0] ++ context13 s r 32)) :=
  ⟨_, sReq 0x12 0 0 none (List.replicate 32 0), sSpdm 3 [], by decide, rfl, by decide, by decide, rfl⟩

theorem wit_SpdmIdentity_4 : ∃ (q m : Bytes) (r : SpdmReq) (s : State), (reeveRuns s = true) ∧ (r.sess = none) ∧ ((spdm s).phase = 3 ∧ r.ver.toNat = (spdm s).ver) ∧ (bit r.p1.toNat 0 = false ∧ 1 ≤ r.p2.toNat ∧ r.p2.toNat ≤ 6) ∧ (m = measBlock s r.p2.toNat) ∧ (q = rspMsg s 0x60 0 0 ([1] ++ leBytes 3 m.length ++ m ++ (s.freeBytes 32).1 ++ [0, 0] ++ context13 s r 0)) :=
  ⟨_, _, sReq 0x12 0 4 none [], sSpdm 3 [], by decide, rfl, by decide, by decide, rfl, rfl⟩

theorem wit_SpdmSessions_0 : ∃ (r : SpdmReq) (s : State), (reeveRuns s = true) ∧ (r.sess = none) ∧ ((spdm s).phase = 3 ∧ r.ver.toNat = (spdm s).ver) ∧ ((ownerSpdm s).all (· == 0) = true) :=
  ⟨sReq 0x12 0 0 none [], sSpdm 3 [], by decide⟩

theorem wit_SpdmSessions_1 : ∃ (n : Nat) (r : SpdmReq) (s : State), (reeveRuns s = true) ∧ (r.sess = none) ∧ ((spdm s).phase = 3 ∧ r.ver.toNat = (spdm s).ver) ∧ ((ownerSpdm s).all (· == 0) = false) ∧ (r.p2.toNat < 2 ∧ 134 ≤ r.body.length ∧ onCurve (pointOf (slice r.body 36 96)) = true) ∧ (n = ((spdm s).nextSess + 1) % 65536) :=
  ⟨1, sReq 0x12 0 0 none (List.replicate 36 0 ++ pointBytes (some p384g) ++ [0, 0]), (sSpdm 3 []).wr R.DBG_OWNER_SPDM.HASH [0] 1, by decide +kernel, rfl, by decide +kernel⟩

theorem wit_SpdmSessions_2 : ∃ (i : BitVec 32) (x : Sess) (r : SpdmReq) (s : State), (reeveRuns s = true) ∧ (r.sess = some i ∧ sessOf s i.toNat = some x) ∧ ((spdm s).phase = 3 ∧ r.ver.toNat = (spdm s).ver) ∧ (x.est = false) :=
  ⟨5, sSess false, sReq 0x12 0 0 (some 5) [], sSpdm 3 [sSess false], by decide⟩

theorem wit_SpdmSessions_3 : ∃ (i : BitVec 32) (x y : Sess) (r : SpdmReq) (s : State), (reeveRuns s = true) ∧ (r.sess = some i ∧ sessOf s i.toNat = some x) ∧ ((spdm s).phase = 3 ∧ r.ver.toNat = (spdm s).ver) ∧ (x.est = false) ∧ (x.encap ≠ 0 ∧ r.p1.toNat = x.encap ∧ byteAt r.body 1 = 0x02 ∧ leAt r.body 6 2 = 0) ∧ (y = { x with chain := x.chain ++ slice r.body 8 (leAt r.body 4 2), encap := x.encap % 255 + 1 }) :=
  ⟨5, sSess false, _, sReq 0x12 1 0 (some 5) [0, 2, 0, 0, 0, 0, 0, 0], sSpdm 3 [sSess false], by decide, by decide, by decide, by decide, by decide, rfl⟩

theorem wit_SpdmSessions_4 : ∃ (i : BitVec 32) (x y : Sess) (r : SpdmReq) (s : State), (reeveRuns s = true) ∧ (r.sess = some i ∧ sessOf s i.toNat = some x) ∧ ((spdm s).phase = 3 ∧ r.ver.toNat = (spdm s).ver) ∧ (x.est = false) ∧ (x.encap ≠ 0 ∧ r.p1.toNat = x.encap ∧ byteAt r.body 1 = 0x02 ∧ leAt r.body 6 2 ≠ 0) ∧ (y = { x with chain := x.chain ++ slice r.body 8 (leAt r.body 4 2), encap := x.encap % 255 + 1 }) :=
  ⟨5, sSess false, _, sReq 0x12 1 0 (some 5) [0, 2, 0, 0, 0, 0, 9, 0], sSpdm 3 [sSess false], by decide, by decide, by decide, by decide, by decide, rfl⟩

theorem wit_SpdmSessions_5 : ∃ (i : BitVec 32) (x : Sess) (r : SpdmReq) (s : State), (reeveRuns s = true) ∧ (r.sess = some i ∧ sessOf s i.toNat = some x) ∧ ((spdm s).phase = 3 ∧ r.ver.toNat = (spdm s).ver) ∧ (x.est = false) ∧ (x.peer = none) :=
  ⟨5, sSess false, sReq 0x12 0 0 (some 5) [], sSpdm 3 [sSess false], by decide⟩

theorem wit_SpdmSessions_6 : ∃ (i : BitVec 32) (x : Sess) (pub m : Bytes) (r : SpdmReq) (s : State), (reeveRuns s = true) ∧ (r.sess = some i ∧ sessOf s i.toNat = some x) ∧ ((spdm s).phase = 3 ∧ r.ver.toNat = (spdm s).ver) ∧ (x.est = false) ∧ (x.peer = some pub ∧ bit r.p1.toNat 0 = true) ∧ (m = x.th ++ sha384 x.chain ++ [byteOf r.ver.toNat, 0xE5, byteOf r.p1.toNat, byteOf r.p2.toNat]) :=
  ⟨5, { sSess false with peer := some [1] }, [1], _, sReq 0x12 1 0 (some 5) [], sSpdm 3 [{ sSess false with peer := some [1] }], by decide, by decide, by decide, by decide, by decide, rfl⟩

theorem wit_SpdmSessions_7 : ∃ (i : BitVec 32) (x : Sess) (r : SpdmReq) (s : State), (reeveRuns s = true) ∧ (r.sess = some i ∧ sessOf s i.toNat = some x) ∧ ((spdm s).phase = 3 ∧ r.ver.toNat = (spdm s).ver) ∧ (x.est = true) ∧ (x.period ≠ 0) :=
  ⟨5, sSess true, sReq 0x12 0 0 (some 5) [], sSpdm 3 [sSess true], by decide⟩

theorem wit_SpdmSessions_8 : ∃ (i : BitVec 32) (x : Sess) (r : SpdmReq) (s : State), (reeveRuns s = true) ∧ (r.sess = some i ∧ sessOf s i.toNat = some x) ∧ ((spdm s).phase = 3 ∧ r.ver.toNat = (spdm s).ver) ∧ (x.est = true) ∧ ((spdm s).xfer = 0 ∨ 4 ≤ (spdm s).xfer) :=
  ⟨5, sSess true, sReq 0x12 0 0 (some 5) [], sSpdm 3 [sSess true], by decide⟩

theorem wit_SpdmSessions_9 : ∃ (i : BitVec 32) (x : Sess) (s : State), (reeveRuns s = true) ∧ (sessOf s i.toNat = some x) ∧ (x.est = true ∧ x.period ≠ 0) :=
  ⟨5, sSess true, sSpdm 3 [sSess true], by decide⟩

theorem wit_SpdmVendorCommands_0 : ∃ (nonce : Bytes) (mask : BitVec 32) (s : State), (reeveRuns s = true) ∧ (s.rd R.DBG_LMS.NEXT [] < 2 ^ 30) :=
  ⟨[], 63, sFw, by decide +kernel⟩

theorem wit_SpdmVendorCommands_1 : ∃ (nonce : Bytes) (mask : BitVec 32) (s : State), (reeveRuns s = true) ∧ (2 ^ 30 ≤ s.rd R.DBG_LMS.NEXT []) :=
  ⟨[], 63, sFw.wr R.DBG_LMS.NEXT [] 1073741824, by decide⟩

theorem wit_SpdmVendorCommands_2 : ∃ (off : BitVec 32) (s : State), (reeveRuns s = true) :=
  ⟨0, sFw, by decide⟩

theorem wit_SpdmVendorCommands_3 : ∃ (i : BitVec 32) (x : Sess) (ty : BitVec 8) (off : BitVec 32) (len : BitVec 16) (d : Bytes) (s u : State), (reeveRuns s = true) ∧ (sessOf s i.toNat = some x ∧ x.est = true) ∧ (ty = 1 ∨ ty = 2) ∧ (len.toNat = d.length ∧ d.length ≤ 1024 ∧ off.toNat + d.length ≤ slotSize ty.toNat) ∧ (u = (if off = 0 then s.emit (.flashErase (slotBase ty.toNat (otherSlot s ty.toNat)) (slotSize ty.toNat)) else s)) :=
  ⟨5, sSess true, 1, 0, 1, [9], sSpdm 3 [sSess true], _, by decide, by decide, by decide, by decide, rfl⟩

theorem wit_SpdmVendorCommands_4 : ∃ (ty : BitVec 8) (off : BitVec 32) (len : BitVec 16) (d : Bytes) (s : State), (reeveRuns s = true) :=
  ⟨1, 0, 1, [9], sFw, by decide⟩

theorem wit_SpdmVendorCommands_5 : ∃ (i : BitVec 32) (x : Sess) (c : Nat) (b : Bytes) (s : State), (reeveRuns s = true) ∧ (sessOf s i.toNat = some x ∧ x.est = true) ∧ (c = checkImage s 1 b (payloadOf b)) :=
  ⟨5, sSess true, _, [9], sSpdm 3 [sSess true], by decide, by decide, rfl⟩

theorem wit_SpdmVendorCommands_6 : ∃ (i : BitVec 32) (x : Sess) (s : State), (reeveRuns s = true) ∧ (sessOf s i.toNat = some x ∧ x.est = true) :=
  ⟨5, sSess true, sSpdm 3 [sSess true], by decide +kernel⟩

end Sys2Proof.Machine
end

section
/-! The state after reset: what its registers, its harts and its channels answer, and the invariant it meets (O3). -/

namespace Sys2Proof.Machine

open Sys2Proof

/-- A table that lists nothing holds its default everywhere. -/
@[simp] theorem SMap.get_nil {α : Type} (d : α) (k : Nat) : SMap.get d ([] : SMap α) k = d := rfl

/-- R502: channels that hold nothing are within every depth. -/
theorem chansOk_nil : ChansOk [] := by
  intro n _
  simp

/-- R579: the part comes out of reset ACTIVE. -/
@[simp] theorem pwrSt_reset : pwrSt State.reset = psActive := State.rd_reset R.PWR_STATUS.STATE []

/-- R521, R527: every hart comes out of reset held in reset. -/
@[simp] theorem hartSt_reset (h : Nat) : hartSt State.reset h = hsReset := State.rd_reset R.FIL_HART_CTL.STATE [h]

@[simp] theorem bellman_reset : bellman State.reset = false := rfl

theorem asleep_reset : asleep State.reset = false := by
  have hpwr : State.reset.pwr = Pwr.reset := rfl
  simp [asleep, hpwr, Pwr.reset, psActive, psDormant, psStandby]

theorem awake_reset : Awake State.reset := by
  have hphase : State.reset.pwr.phase = .none := rfl
  exact ⟨asleep_reset, by simp [hphase]⟩

theorem hartRuns_reset (h : Nat) : hartRuns State.reset h = false := by
  simp [hartRuns, hsReset, hsRun]

theorem chanMsgs_reset (n : Nat) : chanMsgs State.reset n = [] := SMap.get_nil [] n

theorem inv_reset : Inv State.reset where
  hbm := SMap.wf_nil 0
  scratch := SMap.wf_nil 0
  chans := chansOk_nil

/-- Settles O3: the reset state lists nothing in any table, so every table answers its default (R17, R502, R575). -/
theorem resetIsSound : Obligations.ResetIsSound := by
  unfold Obligations.ResetIsSound
  exact ⟨inv_reset, awake_reset, rfl, rfl, rfl, State.rd_reset, fun h => hartRuns_reset h.val, chanMsgs_reset⟩

end Sys2Proof.Machine
end

section
/-! What every command does to the state as a whole: a step hands the front of the queue to `exec` (O1), and each command
completes with `Keeps` of the parts that `touched` lists for it (O6). -/

namespace Sys2Proof.Machine

open Sys2Proof

/-- Settles O1: `step` matches on the queue, and a queue that is not empty hands its front to `exec` (R32). -/
theorem stepRunsFront : Obligations.StepRunsFront := by
  unfold Obligations.StepRunsFront
  exact fun _ _ _ => rfl

theorem May.head (p : Part) (W : List Part) : May (p :: W) p := ⟨List.mem_cons_self⟩

theorem May.tail (p q : Part) (W : List Part) [h : May W p] : May (q :: W) p := ⟨List.mem_cons_of_mem _ h.mem⟩

/-- The dispatch of `exec`, arm by arm: the operation that gives a command its meaning runs with the parts that `touched`
lists for the command. `May.head` and `May.tail` find each part that the operation needs in that list. -/
theorem exec_runs (c : Instr) (s : State) : Runs (touched c) s (exec c s) := by
  have head := May.head
  have tail := May.tail
  have k : ∀ {W}, Keeps W s s := Keeps.refl s
  cases c with dsimp only [touched, exec]
  | refclkLost => exact execRefclkLost_runs k
  | refclkLossTimeout => exact execRefclkLossTimeout_runs k
  | refclkReturn => exact execRefclkReturn_runs k
  | frameReceive => exact execFrameReceive_runs k
  | hbmLookupComplete => exact execHbmLookupComplete_runs k
  | internalInputFrame => exact execInternalInputFrame_runs k
  | espInnerReentry => exact execEspInnerReentry_runs k
  | patternScanComplete => exact execPatternScanComplete_runs k
  | fragEntryExpiry => exact execFragEntryExpiry_runs k
  | egressSelect => exact execEgressSelect_runs k
  | selectionDisplace => exact execSelectionDisplace_runs k
  | frameTransmitStart => exact execFrameTransmitStart_runs k
  | pfcRefresh => exact execPfcRefresh_runs k
  | pfcFrameReceive => exact execPfcFrameReceive_runs k
  | pauseQuantaExpiry => exact execPauseQuantaExpiry_runs k
  | ethApply => exact execEthApply_runs k
  | linkLost => exact execLinkLost_runs k
  | portQualified => exact execPortQualified_runs k
  | holdTimerExpiry => exact execHoldTimerExpiry_runs k
  | flushCellReturn => exact execFlushCellReturn_runs k
  | linkTrainingTimeout => exact execLinkTrainingTimeout_runs k
  | verifyTimeout => exact execVerifyTimeout_runs k
  | laneCdrLoss => exact execLaneCdrLoss_runs k
  | pmdFault => exact execPmdFault_runs k
  | fecUncorrectedBurst => exact execFecUncorrectedBurst_runs k
  | sahrovUnitReceive => exact execSahrovUnitReceive_runs k
  | sahrovDataSend => exact execSahrovDataSend_runs k
  | sahrovReplayTimeout => exact execSahrovReplayTimeout_runs k
  | sahrovAckTimer => exact execSahrovAckTimer_runs k
  | hello => exact execHello_runs k
  | stkAck => exact execStkAck_runs k
  | stkCredit => exact execStkCredit_runs k
  | keepalive => exact execKeepalive_runs k
  | keepaliveTimer => exact execKeepaliveTimer_runs k
  | peerLossTimeout => exact execPeerLossTimeout_runs k
  | time => exact execTime_runs k
  | timeRpt => exact execTimeRpt_runs k
  | stateMark => exact execStateMark_runs k
  | stateAck => exact execStateAck_runs k
  | masterJoin => exact execMasterJoin_runs k
  | stkDestWrite => exact execStkDestWrite_runs k
  | stkDqmapWrite => exact execStkDqmapWrite_runs k
  | tblInsert => exact execTblInsert_runs k
  | tblDelete => exact execTblDelete_runs k
  | tblRead => exact execTblRead_runs k
  | actWrite => exact execActWrite_runs k
  | nodeWrite => exact execNodeWrite_runs k
  | graphCommit => exact execGraphCommit_runs k
  | editWrite => exact execEditWrite_runs k
  | tmplWrite => exact execTmplWrite_runs k
  | patWrite => exact execPatWrite_runs k
  | patCommit => exact execPatCommit_runs k
  | cntRead => exact execCntRead_runs k
  | fragFlush => exact execFragFlush_runs k
  | tableEnable => exact execTableEnable_runs k
  | tableReady => exact execTableReady_runs k
  | tableDisable => exact execTableDisable_runs k
  | granaryEnable => exact execGranaryEnable_runs k
  | qprofMinWrite => exact execQprofMinWrite_runs k
  | headroomConfigWrite => exact execHeadroomConfigWrite_runs k
  | deepReturn => exact execDeepReturn_runs k
  | multicastMemberEnqueue => exact execMulticastMemberEnqueue_runs k
  | filbertDelivery => exact execFilbertDelivery_runs k
  | mcGroupWrite => exact execMcGroupWrite_runs k
  | mcMemberWrite => exact execMcMemberWrite_runs k
  | qmapWrite => exact execQmapWrite_runs k
  | granarySramError => exact execGranarySramError_runs k
  | shaperRefill => exact execShaperRefill_runs k
  | gateEvent => exact execGateEvent_runs k
  | gateChange => exact execGateChange_runs k
  | gateConfigChange => exact execGateConfigChange_runs k
  | gateDisable => exact execGateDisable_runs k
  | tlyNodeWrite => exact execTlyNodeWrite_runs k
  | queueWrite => exact execQueueWrite_runs k
  | polWrite => exact execPolWrite_runs k
  | polCntRead => exact execPolCntRead_runs k
  | gateWrite => exact execGateWrite_runs k
  | stateRead => exact execStateRead_runs k
  | wireWrite => exact execWireWrite_runs k
  | wireWriteImm => exact execWireWriteImm_runs k
  | wireSend => exact execWireSend_runs k
  | wireSendImm => exact execWireSendImm_runs k
  | readReq => exact execReadReq_runs k
  | readResp => exact execReadResp_runs k
  | wireAtomic => exact execWireAtomic_runs k
  | atomicResp => exact execAtomicResp_runs k
  | ack => exact execAck_runs k
  | nak => exact execNak_runs k
  | credit => exact execCredit_runs k
  | creditRpt => exact execCreditRpt_runs k
  | dataPacketSend => exact execDataPacketSend_runs k
  | retransmit => exact execRetransmit_runs k
  | retransmitTimeout => exact execRetransmitTimeout_runs k
  | rnrDelayExpiry => exact execRnrDelayExpiry_runs k
  | creditRepeat => exact execCreditRepeat_runs k
  | creditRptRepeat => exact execCreditRptRepeat_runs k
  | ackDelayExpiry => exact execAckDelayExpiry_runs k
  | write => exact execWrite_runs k
  | writeImm => exact execWriteImm_runs k
  | send => exact execSend_runs k
  | sendImm => exact execSendImm_runs k
  | read => exact execRead_runs k
  | atomic => exact execAtomic_runs k
  | recv => exact execRecv_runs k
  | connAlloc => exact execConnAlloc_runs k
  | connConnect => exact execConnConnect_runs k
  | connDestroy => exact execConnDestroy_runs k
  | connQuery => exact execConnQuery_runs k
  | mrReg => exact execMrReg_runs k
  | mrDereg => exact execMrDereg_runs k
  | contextFetchComplete => exact execContextFetchComplete_runs k
  | eviction => exact execEviction_runs k
  | contextWritebackComplete => exact execContextWritebackComplete_runs k
  | evictPendingExpiry => exact execEvictPendingExpiry_runs k
  | closingComplete => exact execClosingComplete_runs k
  | carterEnable => exact execCarterEnable_runs k
  | pathWrite => exact execPathWrite_runs k
  | jobDispatch => exact execJobDispatch_runs k
  | blockCompare => exact execBlockCompare_runs k
  | huskJobComplete => exact execHuskJobComplete_runs k
  | keyLoadComplete => exact execKeyLoadComplete_runs k
  | keyImport => exact execKeyImport_runs k
  | keyGenerate => exact execKeyGenerate_runs k
  | keyExport => exact execKeyExport_runs k
  | keyDestroy => exact execKeyDestroy_runs k
  | keyDestroyComplete => exact execKeyDestroyComplete_runs k
  | keyQuery => exact execKeyQuery_runs k
  | lckDomWrite => exact execLckDomWrite_runs k
  | rangeZeroizeComplete => exact execRangeZeroizeComplete_runs k
  | slotStoreReady => exact execSlotStoreReady_runs k
  | slotEccError => exact execSlotEccError_runs k
  | entropyFail => exact execEntropyFail_runs k
  | rootPortEnable => exact execRootPortEnable_runs k
  | presenceChange => exact execPresenceChange_runs k
  | powerFault => exact execPowerFault_runs k
  | buttonPress => exact execButtonPress_runs k
  | removalWindowExpiry => exact execRemovalWindowExpiry_runs k
  | pwrWaitExpiry => exact execPwrWaitExpiry_runs k
  | perstReleaseDelay => exact execPerstReleaseDelay_runs k
  | linkActive => exact execLinkActive_runs k
  | trainingTimeout => exact execTrainingTimeout_runs k
  | enumerationDelay => exact execEnumerationDelay_runs k
  | driveInitComplete => exact execDriveInitComplete_runs k
  | quiesceComplete => exact execQuiesceComplete_runs k
  | dpcTrigger => exact execDpcTrigger_runs k
  | dpcRelease => exact execDpcRelease_runs k
  | slotControlWrite => exact execSlotControlWrite_runs k
  | remove => exact execRemove_runs k
  | driveCompletion => exact execDriveCompletion_runs k
  | driveCmdTimeout => exact execDriveCmdTimeout_runs k
  | abortTimeout => exact execAbortTimeout_runs k
  | aerError => exact execAerError_runs k
  | driveInboundRequest => exact execDriveInboundRequest_runs k
  | sqDoorbell => exact execSqDoorbell_runs k
  | cqDoorbell => exact execCqDoorbell_runs k
  | nvmWrite => exact execNvmWrite_runs k
  | nvmRead => exact execNvmRead_runs k
  | writeZeroes => exact execWriteZeroes_runs k
  | datasetManagement => exact execDatasetManagement_runs k
  | nvmFlush => exact execNvmFlush_runs k
  | createIoSq => exact execCreateIoSq_runs k
  | deleteIoSq => exact execDeleteIoSq_runs k
  | createIoCq => exact execCreateIoCq_runs k
  | deleteIoCq => exact execDeleteIoCq_runs k
  | getLogPage => exact execGetLogPage_runs k
  | identify => exact execIdentify_runs k
  | abort => exact execAbort_runs k
  | setFeatures => exact execSetFeatures_runs k
  | getFeatures => exact execGetFeatures_runs k
  | asynchronousEventRequest => exact execAsynchronousEventRequest_runs k
  | ccWrite => exact execCcWrite_runs k
  | legComplete => exact execLegComplete_runs k
  | nsWrite => exact execNsWrite_runs k
  | extWrite => exact execExtWrite_runs k
  | nsRead => exact execNsRead_runs k
  | stgEnable => exact execStgEnable_runs k
  | inboundMemoryRequest => exact execInboundMemoryRequest_runs k
  | configRequest => exact execConfigRequest_runs k
  | busMasterEnableClear => exact execBusMasterEnableClear_runs k
  | functionLevelReset => exact execFunctionLevelReset_runs k
  | portReset => exact execPortReset_runs k
  | d3hotEntry => exact execD3hotEntry_runs k
  | d0Return => exact execD0Return_runs k
  | aspmL1Entry => exact execAspmL1Entry_runs k
  | readCompletion => exact execReadCompletion_runs k
  | completionTimeout => exact execCompletionTimeout_runs k
  | quarantineEnd => exact execQuarantineEnd_runs k
  | translationResponse => exact execTranslationResponse_runs k
  | pageRequestGroupResponse => exact execPageRequestGroupResponse_runs k
  | priTimeout => exact execPriTimeout_runs k
  | invalidationRequest => exact execInvalidationRequest_runs k
  | invalidationCompletion => exact execInvalidationCompletion_runs k
  | pendingMessageRelease => exact execPendingMessageRelease_runs k
  | mailboxGo => exact execMailboxGo_runs k
  | domCreate => exact execDomCreate_runs k
  | domDestroy => exact execDomDestroy_runs k
  | domQuery => exact execDomQuery_runs k
  | instCreate => exact execInstCreate_runs k
  | instDestroy => exact execInstDestroy_runs k
  | instReset => exact execInstReset_runs k
  | instQuery => exact execInstQuery_runs k
  | irqWrite => exact execIrqWrite_runs k
  | ringCreate => exact execRingCreate_runs k
  | ringDestroy => exact execRingDestroy_runs k
  | ringModify => exact execRingModify_runs k
  | instanceResetComplete => exact execInstanceResetComplete_runs k
  | doorbell => exact execDoorbell_runs k
  | cqdb => exact execCqdb_runs k
  | ringCtlReset => exact execRingCtlReset_runs k
  | ringResetComplete => exact execRingResetComplete_runs k
  | descriptorFetch => exact execDescriptorFetch_runs k
  | txFrame => exact execTxFrame_runs k
  | rxBuf => exact execRxBuf_runs k
  | rxFrameDelivery => exact execRxFrameDelivery_runs k
  | moderationTimer => exact execModerationTimer_runs k
  | chSend => exact execChSend_runs k
  | chRecv => exact execChRecv_runs k
  | chFill => exact execChFill_runs k
  | evSend => exact execEvSend_runs k
  | evWait => exact execEvWait_runs k
  | evPoll => exact execEvPoll_runs k
  | evWaitWake => exact execEvWaitWake_runs k
  | riscvInstruction => exact execRiscvInstruction_runs k
  | timerInterrupt => exact execTimerInterrupt_runs k
  | irqPendWrite => exact execIrqPendWrite_runs k
  | waitcycleSample => exact execWaitcycleSample_runs k
  | issueTableApply => exact execIssueTableApply_runs k
  | hartReset => exact execHartReset_runs k
  | hartRelease => exact execHartRelease_runs k
  | frameBufferReturn => exact execFrameBufferReturn_runs k
  | transmitMessage => exact execTransmitMessage_runs k
  | halt => exact execHalt_runs k
  | resume => exact execResume_runs k
  | singleStep => exact execSingleStep_runs k
  | hartreset => exact execHartreset_runs k
  | accessRegister => exact execAccessRegister_runs k
  | accessMemory => exact execAccessMemory_runs k
  | coreEccError => exact execCoreEccError_runs k
  | channelEnable => exact execChannelEnable_runs k
  | timeCapture => exact execTimeCapture_runs k
  | timeSet => exact execTimeSet_runs k
  | sampleCommit => exact execSampleCommit_runs k
  | servoHoldTimeout => exact execServoHoldTimeout_runs k
  | servoModeWrite => exact execServoModeWrite_runs k
  | ppsInEdge => exact execPpsInEdge_runs k
  | ppsOutEdge => exact execPpsOutEdge_runs k
  | stackTimePeriod => exact execStackTimePeriod_runs k
  | eecRefQualified => exact execEecRefQualified_runs k
  | eecRefLost => exact execEecRefLost_runs k
  | synceEnableWrite => exact execSynceEnableWrite_runs k
  | pwrGoActive => exact execPwrGoActive_runs k
  | pwrGoTrimmed => exact execPwrGoTrimmed_runs k
  | pwrGoDormant => exact execPwrGoDormant_runs k
  | pwrGoStandby => exact execPwrGoStandby_runs k
  | trimWrite => exact execTrimWrite_runs k
  | dormantEntry => exact execDormantEntry_runs k
  | dormantWaitExpiry => exact execDormantWaitExpiry_runs k
  | wakeTimerExpiry => exact execWakeTimerExpiry_runs k
  | domainGate => exact execDomainGate_runs k
  | pwronRstN => exact execPwronRstN_runs k
  | sysRstN => exact execSysRstN_runs k
  | rstWarm => exact execRstWarm_runs k
  | rstCold => exact execRstCold_runs k
  | blockResetEthOctet => exact execBlockResetEthOctet_runs k
  | blockResetPipeline => exact execBlockResetPipeline_runs k
  | blockResetHuskCluster => exact execBlockResetHuskCluster_runs k
  | blockResetFilbertCore => exact execBlockResetFilbertCore_runs k
  | blockResetRootPort => exact execBlockResetRootPort_runs k
  | blockResetPatternMatcher => exact execBlockResetPatternMatcher_runs k
  | tempSample => exact execTempSample_runs k
  | voltSample => exact execVoltSample_runs k
  | avsUpdate => exact execAvsUpdate_runs k
  | failureReport => exact execFailureReport_runs k
  | criticalRecovery => exact execCriticalRecovery_runs k
  | retirementClear => exact execRetirementClear_runs k
  | bellHb => exact execBellHb_runs k
  | lockstepMismatch => exact execLockstepMismatch_runs k
  | heartbeatExpiry => exact execHeartbeatExpiry_runs k
  | thermalTrip => exact execThermalTrip_runs k
  | mctpWake => exact execMctpWake_runs k
  | mctpWarm => exact execMctpWarm_runs k
  | mctpCold => exact execMctpCold_runs k
  | readLog => exact execReadLog_runs k
  | readCause => exact execReadCause_runs k
  | setEndpointId => exact execSetEndpointId_runs k
  | getEndpointId => exact execGetEndpointId_runs k
  | getMctpVersionSupport => exact execGetMctpVersionSupport_runs k
  | getMessageTypeSupport => exact execGetMessageTypeSupport_runs k
  | getVendorDefinedMessageSupport => exact execGetVendorDefinedMessageSupport_runs k
  | gettid => exact execGettid_runs k
  | getpldmversion => exact execGetpldmversion_runs k
  | getpldmtypes => exact execGetpldmtypes_runs k
  | getpldmcommands => exact execGetpldmcommands_runs k
  | getpdrrepositoryinfo => exact execGetpdrrepositoryinfo_runs k
  | getpdr => exact execGetpdr_runs k
  | getsensorreading => exact execGetsensorreading_runs k
  | getstatesensorreadings => exact execGetstatesensorreadings_runs k
  | seteventreceiver => exact execSeteventreceiver_runs k
  | reeveImageLoaded => exact execReeveImageLoaded_runs k
  | filbertImageLoaded => exact execFilbertImageLoaded_runs k
  | fwReady => exact execFwReady_runs k
  | getVersion => exact execGetVersion_runs k
  | getCapabilities => exact execGetCapabilities_runs k
  | negotiateAlgorithms => exact execNegotiateAlgorithms_runs k
  | getDigests => exact execGetDigests_runs k
  | getCertificate => exact execGetCertificate_runs k
  | challenge => exact execChallenge_runs k
  | getMeasurements => exact execGetMeasurements_runs k
  | keyExchange => exact execKeyExchange_runs k
  | finish => exact execFinish_runs k
  | heartbeat => exact execHeartbeat_runs k
  | endSession => exact execEndSession_runs k
  | getEvidence => exact execGetEvidence_runs k
  | getHssChain => exact execGetHssChain_runs k
  | fwWrite => exact execFwWrite_runs k
  | fwActivate => exact execFwActivate_runs k
  | newChal => exact execNewChal_runs k
  | verify => exact execVerify_runs k
  | unlockVerifyComplete => exact execUnlockVerifyComplete_runs k
  | relock => exact execRelock_runs k
  | dbgregRead => exact execDbgregRead_runs k
  | dbgregWrite => exact execDbgregWrite_runs k
  | rcRead => exact execRcRead_runs k
  | lockAll => exact execLockAll_runs k
  | registerWrite => exact execRegisterWrite_runs k
  | laneLockAcquired => exact execLaneLockAcquired_runs k
  | hostLinkUp => exact execHostLinkUp_runs k
  | rootPortLinkDown => exact execRootPortLinkDown_runs k
  | interruptCoalescingExpiry => exact execInterruptCoalescingExpiry_runs k
  | hifInternalError => exact execHifInternalError_runs k
  | powerLoss => exact execPowerLoss_runs k
  | rootPllLockLoss => exact execRootPllLockLoss_runs k
  | bootComplete => exact execBootComplete_runs k
  | pcieCreditReturn => exact execPcieCreditReturn_runs k
  | chunkSend => exact execChunkSend_runs k
  | chunkGet => exact execChunkGet_runs k
  | getEncapsulatedRequest => exact execGetEncapsulatedRequest_runs k
  | deliverEncapsulatedResponse => exact execDeliverEncapsulatedResponse_runs k
  | sessionHeartbeatExpiry => exact execSessionHeartbeatExpiry_runs k

/-- Settles O6: `Runs` says that a command answers a next state and that `Keeps` holds of it (R31, R34, R502). -/
theorem everyCommandKeepsItsParts : Obligations.EveryCommandKeepsItsParts := by
  unfold Obligations.EveryCommandKeepsItsParts
  exact exec_runs

end Sys2Proof.Machine
end

section
/-! The clocks and the power states (O14): what each of their commands leaves, first of the registers it shows its effect in,
then of the parts that a frame keeps. -/

namespace Sys2Proof.Machine

open Sys2Proof

/-- A one-bit field, or the lowest bit of a wider one, shows the parity of what was written. -/
theorem State.flag_wr_bit (s : State) {f : Fld} {ix : List Nat} (v : Nat) (h : f.width ≠ 0) :
    (s.wr f ix v).flag f ix = (v % 2 == 1) := by
  rw [State.flag_wr_same, Nat.mod_mod_of_dvd _ (Nat.pow_dvd_pow 2 (Nat.one_le_iff_ne_zero.mpr h))]

theorem pwrSt_wr_apart (s : State) {f : Fld} {ix : List Nat} (v : Nat) (h : Fld.apart f R.PWR_STATUS.STATE ix []) :
    pwrSt (s.wr f ix v) = pwrSt s := s.rd_wr_apart v h

theorem pwrSt_inc_apart (s : State) {f : Fld} {ix : List Nat} (h : Fld.apart f R.PWR_STATUS.STATE ix []) :
    pwrSt (s.inc f ix) = pwrSt s := s.rd_inc_apart h

theorem pwrSt_wr_same (s : State) (v : Nat) : pwrSt (s.wr R.PWR_STATUS.STATE [] v) = v % 4 := s.rd_wr_same _ _ v

theorem refclkLost_does (s : State) (hdark : s.pwr.dark = false) (hosc : s.flag R.CLK_STATUS.ON_OSC [] = false) :
    Does .refclkLost s fun t => t.flag R.CLK_STATUS.ON_OSC [] = true ∧ t.flag R.CLK_STATUS.REFCLK_OK [] = false
      ∧ t.flag R.CLK_STATUS.REFCLK_LOST [] = true ∧ t.flag R.CLK_STATUS.HOLD [] = s.flag R.CLK_STATUS.ROOT_LOCK []
      ∧ t.rd R.CLK_CNT.COUNT [0] = (s.rd R.CLK_CNT.COUNT [0] + 1) % 2 ^ 64 := by
  have e : exec .refclkLost s = .next _ := if_neg (by simp [hdark, hosc])
  refine ⟨_, e, ?_, ?_, ?_, ?_, ?_⟩ <;>
    simp (disch := decide) only [State.flag_inc_apart, State.flag_wr_apart, State.flag_wr_bit, State.rd_inc_same,
      State.rd_wr_apart]
  all_goals rfl

theorem refclkLossTimeout_does (s : State) (hdark : s.pwr.dark = false) (hbell : bellman s = false)
    (hosc : s.flag R.CLK_STATUS.ON_OSC [] = true) (hclk : s.pwr.clkGated = false) :
    Does .refclkLossTimeout s fun t => t.pwr.clkGated = true
      ∧ t = (countFailure ({ (List.range 156).foldl gateOff s with pwr := { s.pwr with clkGated := true } }.inc
        R.CLK_CNT.COUNT [2]) 12 0 0 []).1 := by
  have head := May.head
  have tail := May.tail
  have gates : ((List.range 156).foldl gateOff s).pwr = s.pwr :=
    (keeps_foldl (W := [.regs, .hif, .fil, .eth, .win, .grn, .tly, .hsk, .stg, .out]) (.refl s)
      fun _ _ h => gateOff_keeps h).frame .pwr (by decide)
  have counts (u : State) : (countFailure u 12 0 0 []).1.pwr = u.pwr :=
    (keeps_fst (countFailure_keeps (W := [.regs, .hif, .fil, .rev, .out]) (.refl u))).frame .pwr (by decide)
  have e : exec .refclkLossTimeout s = .next _ := if_neg (by simp [hdark, hbell, hosc, hclk])
  rw [← gates]
  exact ⟨_, e, by rw [counts]; rfl, rfl⟩

theorem rootPllLockLoss_does (s : State) (hdark : s.pwr.dark = false) (hlock : s.flag R.CLK_STATUS.ROOT_LOCK [] = true) :
    Does .rootPllLockLoss s fun t => t = (s.wr R.CLK_STATUS.ROOT_LOCK [] 0).inc R.CLK_CNT.COUNT [3] :=
  ⟨_, if_neg (by simp [hdark, hlock]), rfl⟩

/-- R36: the state in which the island has left the oscillator. -/
def offOsc (s : State) : State :=
  let t := ((s.wr R.CLK_STATUS.REFCLK_OK [] 1).wr R.CLK_STATUS.ON_OSC [] 0).wr R.CLK_STATUS.HOLD [] 0
  if s.pwr.clkGated then t else t.inc R.CLK_CNT.COUNT [1]

section
variable {s : State}

@[simp] theorem offOsc_pwr : (offOsc s).pwr = s.pwr := by
  unfold offOsc
  split <;> rfl

@[simp] theorem bellman_offOsc : bellman (offOsc s) = bellman s := by
  unfold offOsc
  split <;> rfl

theorem offOsc_rd_apart {f : Fld} {ix : List Nat} (hok : Fld.apart R.CLK_STATUS.REFCLK_OK f [] ix)
    (hosc : Fld.apart R.CLK_STATUS.ON_OSC f [] ix) (hhold : Fld.apart R.CLK_STATUS.HOLD f [] ix)
    (hcnt : Fld.apart R.CLK_CNT.COUNT f [1] ix) : (offOsc s).rd f ix = s.rd f ix := by
  unfold offOsc
  split <;> simp (disch := assumption) only [State.rd_inc_apart, State.rd_wr_apart]

theorem offOsc_flags : (offOsc s).flag R.CLK_STATUS.ON_OSC [] = false ∧ (offOsc s).flag R.CLK_STATUS.REFCLK_OK [] = true
    ∧ (offOsc s).flag R.CLK_STATUS.HOLD [] = false := by
  unfold offOsc
  split <;> refine ⟨?_, ?_, ?_⟩ <;>
    simp (disch := decide) only [State.flag_inc_apart, State.flag_wr_apart, State.flag_wr_bit] <;> rfl

theorem offOsc_count (hclk : s.pwr.clkGated = false) :
    (offOsc s).rd R.CLK_CNT.COUNT [1] = (s.rd R.CLK_CNT.COUNT [1] + 1) % 2 ^ 64 := by
  unfold offOsc
  rw [hclk, if_neg Bool.false_ne_true]
  simp (disch := decide) only [State.rd_inc_same, State.rd_wr_apart]
  rfl

theorem exec_refclkReturn (hdark : s.pwr.dark = false) (hosc : s.flag R.CLK_STATUS.ON_OSC [] = true) :
    exec .refclkReturn s = match s.pwr.wakeDue with
      | some src => .next (if bellman s then offOsc s else exitStandby (offOsc s) src)
      | none => .next (offOsc s) := by
  rw [← bellman_offOsc, ← offOsc_pwr]
  exact if_neg (by simp [hdark, hosc])

end

/-- R568, R575: an exit from STANDBY with REFCLK running ends ACTIVE and names its source. -/
theorem exitStandby_active {s : State} (n : Nat) (hosc : s.flag R.CLK_STATUS.ON_OSC [] = false) :
    pwrSt (exitStandby s n) = psActive ∧ (exitStandby s n).rd R.PWR_WAKE.LAST_SRC [] = n % 8 := by
  unfold exitStandby
  rw [hosc, if_neg Bool.false_ne_true]
  exact ⟨by simp (disch := decide) only [pwrSt_wr_apart, pwrSt_wr_same]; rfl, State.rd_wr_same _ _ _ n⟩

theorem refclkReturn_does (s : State) (hdark : s.pwr.dark = false) (hosc : s.flag R.CLK_STATUS.ON_OSC [] = true) :
    Does .refclkReturn s fun t =>
      (s.pwr.wakeDue = none → t.flag R.CLK_STATUS.ON_OSC [] = false ∧ t.flag R.CLK_STATUS.REFCLK_OK [] = true
        ∧ t.flag R.CLK_STATUS.HOLD [] = false
        ∧ (s.pwr.clkGated = false → t.rd R.CLK_CNT.COUNT [1] = (s.rd R.CLK_CNT.COUNT [1] + 1) % 2 ^ 64))
      ∧ (∀ n, s.pwr.wakeDue = some n →
        (bellman s = false → pwrSt t = psActive ∧ t.rd R.PWR_WAKE.LAST_SRC [] = n % 8)
        ∧ (bellman s = true → pwrSt t = pwrSt s ∧ t.pwr = s.pwr)) := by
  have e := exec_refclkReturn hdark hosc
  have ⟨posc, pok, phold⟩ := offOsc_flags (s := s)
  cases hwake : s.pwr.wakeDue with
  | none =>
    refine ⟨_, e.trans (by rw [hwake]), fun _ => ⟨posc, pok, phold, offOsc_count⟩, fun n hn => by simp at hn⟩
  | some n =>
    refine ⟨_, e.trans (by rw [hwake]), fun h => by simp at h, fun m hm => ?_⟩
    obtain rfl : n = m := by simpa using hm
    constructor
    · intro hbell
      rw [hbell, if_neg Bool.false_ne_true]
      exact exitStandby_active n posc
    · intro hbell
      rw [hbell, if_pos rfl]
      exact ⟨offOsc_rd_apart (by decide) (by decide) (by decide) (by decide), offOsc_pwr⟩

section
variable {s : State} (hbusy : s.flag R.PWR_STATUS.BUSY [] = false)
include hbusy

theorem pwrGo_active (hst : pwrSt s = psTrimmed) (himage : s.pwr.noImage = false) (hclk : s.pwr.clkGated = false) :
    pwrGo s psActive = (List.range 156).foldl powerOn (s.wr R.PWR_STATUS.STATE [] psActive) := by
  simp [pwrGo, hbusy, hst, himage, hclk]

theorem pwrGo_trimmed (hst : pwrSt s = psActive) :
    pwrGo s psTrimmed = (List.range 156).foldl trimDomain ((s.wr R.PWR_STATUS.STATE [] psTrimmed).inc R.PWR_CNT.COUNT [0]) := by
  simp [pwrGo, hbusy, hst, pwrCount, psTrimmed, psActive]

theorem pwrGo_dormant (hst : pwrSt s ≤ psTrimmed) :
    pwrGo s psDormant = (putPwr s { s.pwr with
      phase := if dormantFails s = 0 then .entering else .waiting, dormAt := s.now }).wr R.PWR_STATUS.BUSY [] 1 := by
  have hst : pwrSt s = psActive ∨ pwrSt s = psTrimmed := by unfold psActive psTrimmed at *; omega
  rcases hst with hst | hst <;> simp [pwrGo, hbusy, hst, psTrimmed, psActive, psDormant]

theorem pwrGo_standby (hst : pwrSt s ≤ psTrimmed) : pwrGo s psStandby = enterStandby s .owner := by
  have hst : pwrSt s ≠ 3 := by unfold psTrimmed at hst; omega
  simp [pwrGo, hbusy, hst, psTrimmed, psActive, psDormant, psStandby]

end

section
variable (m : MDom) (s : State) (h : Awake s) (a : Allowed s m) (hbusy : s.flag R.PWR_STATUS.BUSY [] = false)
include h a hbusy

/-- R563: a management domain writes REQ with GO, which nothing busy keeps from its effect. -/
theorem goWrite_does {c : Instr} {req : Nat} {p : State → Prop} (e : exec c s = goWrite s m req)
    (hp : (s.wr R.PWR_CTL.REQ [] req).flag R.PWR_STATUS.BUSY [] = false →
      pwrSt (s.wr R.PWR_CTL.REQ [] req) = pwrSt s → p (pwrGo (s.wr R.PWR_CTL.REQ [] req) req)) : Does c s p :=
  does_fromDomain h a e
    ⟨_, rfl, hp ((s.flag_wr_apart _ (by decide)).trans hbusy) (pwrSt_wr_apart s _ (by decide))⟩

theorem pwrGoActive_does (hst : pwrSt s = psTrimmed) : Does (.pwrGoActive m) s fun t =>
    t = (List.range 156).foldl powerOn ((s.wr R.PWR_CTL.REQ [] psActive).wr R.PWR_STATUS.STATE [] psActive) :=
  goWrite_does m s h a hbusy rfl fun idle keep =>
    pwrGo_active idle (keep.trans hst) (awake_image h : s.pwr.noImage = false) (awake_clocked h : s.pwr.clkGated = false)

theorem pwrGoTrimmed_does (hst : pwrSt s = psActive) : Does (.pwrGoTrimmed m) s fun t =>
    t = (List.range 156).foldl trimDomain
      (((s.wr R.PWR_CTL.REQ [] psTrimmed).wr R.PWR_STATUS.STATE [] psTrimmed).inc R.PWR_CNT.COUNT [0]) :=
  goWrite_does m s h a hbusy rfl fun idle keep => pwrGo_trimmed idle (keep.trans hst)

theorem pwrGoDormant_does (hst : pwrSt s ≤ psTrimmed) : Does (.pwrGoDormant m) s fun t =>
    t.flag R.PWR_STATUS.BUSY [] = true ∧ pwrSt t = pwrSt s
      ∧ t.pwr.phase = (if dormantFails (s.wr R.PWR_CTL.REQ [] psDormant) = 0 then .entering else .waiting) :=
  goWrite_does m s h a hbusy rfl fun idle keep => by
    rw [pwrGo_dormant idle (Nat.le_trans (Nat.le_of_eq keep) hst)]
    exact ⟨State.flag_wr_bit _ 1 (by decide), (pwrSt_wr_apart _ 1 (by decide)).trans keep, rfl⟩

end

theorem exec_dormantEntry {s : State} (hpow : poweredOff s = false)
    (h : s.pwr.phase = .entering ∨ (s.pwr.phase = .waiting ∧ dormantFails s = 0)) :
    exec .dormantEntry s = .next (enterDormant s) := by
  have e : exec .dormantEntry s = _ := if_neg (by simp [hpow])
  rw [e]
  rcases h with h | ⟨h, hf⟩
  · rw [h]
  · rw [h, hf]; rfl

/-- R565: the last steps of DORMANT entry are the state's code, BUSY and the count. -/
theorem enterDormant_ends (s : State) : ∃ u : State,
    enterDormant s = ((u.wr R.PWR_STATUS.STATE [] psDormant).wr R.PWR_STATUS.BUSY [] 0).inc R.PWR_CNT.COUNT [1] :=
  ⟨_, rfl⟩

theorem enterDormant_shows (s : State) :
    pwrSt (enterDormant s) = psDormant ∧ (enterDormant s).flag R.PWR_STATUS.BUSY [] = false := by
  obtain ⟨u, e⟩ := enterDormant_ends s
  rw [e]
  constructor
  · simp (disch := decide) only [pwrSt_inc_apart, pwrSt_wr_apart, pwrSt_wr_same]; rfl
  · simp (disch := decide) only [State.flag_inc_apart, State.flag_wr_bit]; rfl

theorem enterDormant_hbm (s : State) : (enterDormant s).hbm = s.hbm := by
  have head := May.head
  have tail := May.tail
  exact (enterDormant_keeps (W := [.regs, .tu, .eth, .pwr, .out]) (.refl s)).frame .hbm (by decide)

theorem dormantEntry_does (s : State) (hpow : poweredOff s = false)
    (h : s.pwr.phase = .entering ∨ (s.pwr.phase = .waiting ∧ dormantFails s = 0)) : Does .dormantEntry s fun t =>
      t = enterDormant s ∧ pwrSt t = psDormant ∧ t.flag R.PWR_STATUS.BUSY [] = false ∧ t.hbm = s.hbm := by
  obtain ⟨hst, hbusy⟩ := enterDormant_shows s
  exact ⟨_, exec_dormantEntry hpow h, rfl, hst, hbusy, enterDormant_hbm s⟩

theorem dormantWaitExpiry_does (s u : State) (hpow : poweredOff s = false) (hph : s.pwr.phase = .waiting)
    (hu : u = clockTo s (s.pwr.dormAt + max 1 (s.rd R.PWR_DORM_WAIT.WAIT []) * 10000000)) :
    Does .dormantWaitExpiry s fun t => (dormantFails u = 0 → t.pwr.phase = .entering)
      ∧ (dormantFails u ≠ 0 → t.pwr.phase = .none ∧ t.flag R.PWR_STATUS.BUSY [] = false
        ∧ t.flag R.PWR_STATUS.REFUSED [] = true ∧ t.rd R.PWR_STATUS.REFUSE_WHY [] = (dormantFails u + 64) % 2 ^ 7
        ∧ t.rd R.PWR_CNT.COUNT [2] = (u.rd R.PWR_CNT.COUNT [2] + 1) % 2 ^ 64) := by
  have e : exec .dormantWaitExpiry s = _ := if_neg (by simp [hpow, hph])
  unfold Does
  rw [e]
  dsimp only
  rw [← hu]
  split
  next h0 => exact ⟨_, rfl, fun _ => rfl, fun h => absurd h0 h⟩
  next h0 =>
    refine ⟨_, rfl, fun h => absurd h h0, fun _ => ⟨rfl, ?_, ?_, ?_, ?_⟩⟩ <;>
      simp (disch := decide) only [pwrCount, refusePwr, State.flag_inc_apart, State.flag_wr_apart, State.flag_wr_bit,
        State.rd_inc_apart, State.rd_inc_same, State.rd_wr_apart, State.rd_wr_same] <;> rfl

/-- R531: of the registers, what falls due by itself shows in SMP_BUSY alone. -/
theorem tuDue_rd_apart {s : State} {f : Fld} {ix : List Nat} (h : Fld.apart R.TU_STATUS.SMP_BUSY f [] ix) :
    (tuDue s).rd f ix = s.rd f ix := by
  unfold tuDue
  extract_lets v
  have hv : v.rd f ix = s.rd f ix := by
    unfold v
    split
    · exact State.rd_wr_apart _ _ h
    · rfl
  rw [← hv]
  clear_value v
  repeat' split
  all_goals rfl

theorem tuAdvance_regs (s : State) (n : Nat) : (tuAdvance s n).regs = s.regs := by
  have head := May.head
  have tail := May.tail
  exact (tuAdvance_keeps (W := [.tu, .free]) (.refl s)).frame .regs (by decide)

theorem clockTo_rd_apart {s : State} {f : Fld} {ix : List Nat} (n : Nat) (h : Fld.apart R.TU_STATUS.SMP_BUSY f [] ix) :
    (clockTo s n).rd f ix = s.rd f ix := by
  unfold clockTo
  split
  · rfl
  · rw [tuDue_rd_apart h, State.rd, tuAdvance_regs]; rfl

theorem wake_timer_dormant {s : State} (hbell : bellman s = false) (hdark : s.pwr.dark = false) (hst : pwrSt s = psDormant)
    (hen : s.flag R.PWR_WAKE.TIMER_EN [] = true) : wake s 4 = exitDormant s 4 := by
  simp [wake, wakeDormant, endsDormant, hbell, hdark, hst, hen, psDormant, psStandby]

theorem wakeTimerExpiry_does (s : State) (hbell : bellman s = false) (hdark : s.pwr.dark = false) (hst : pwrSt s = psDormant)
    (hen : s.flag R.PWR_WAKE.TIMER_EN [] = true) : Does .wakeTimerExpiry s fun t =>
      t = exitDormant (clockTo s (s.pwr.since + max 1 (s.rd R.PWR_WAKE_TIMER.TIMER []) * 10000000)) 4 := by
  have e : exec .wakeTimerExpiry s = .next _ := congrArg Host.Outcome.next (if_pos (by simp [hst]))
  refine ⟨_, e, ?_⟩
  generalize s.pwr.since + max 1 (s.rd R.PWR_WAKE_TIMER.TIMER []) * 10000000 = n
  have head := May.head
  have tail := May.tail
  have k : Keeps [.regs, .now, .tu, .out, .free] s (clockTo s n) := clockTo_keeps (.refl s)
  have hrev : (clockTo s n).rev = s.rev := k.frame .rev (by decide)
  have hpwr : (clockTo s n).pwr = s.pwr := k.frame .pwr (by decide)
  have htimer : (clockTo s n).rd R.PWR_WAKE.TIMER_EN [] = s.rd R.PWR_WAKE.TIMER_EN [] := clockTo_rd_apart n (by decide)
  refine wake_timer_dormant ?_ (by rw [hpwr, hdark]) ((clockTo_rd_apart n (by decide)).trans hst) ?_
  · rw [← hbell, bellman, hrev, bellman]
  · exact (congrArg (· % 2 == 1) htimer).trans hen

theorem domainGate_does (d : Fin 156) (s : State) (h : Awake s) (hst : pwrSt s = psTrimmed) (hheld : heldBit s d.val = true)
    (hgate : gateCond s d.val = true) : Does (.domainGate d) s fun t => t = gateOff s d.val := by
  have e : exec (.domainGate d) s = execDomainGate d s := rfl
  unfold execDomainGate at e
  exact does_whenUp h e ⟨_, rfl, if_pos (by simp [hst, hheld, hgate])⟩

theorem fieldsAt_trim : ∀ w : Fin 5, fieldsAt .pwr (0x00100100 + 4 * w.val) = [(R.PWR_TRIM.TRIM, [w.val], 0)] := by
  decide

theorem trimWrite_unlocked {s : State} (m : MDom) (w v : Nat) (hw : w < 4) (hv : v < 2 ^ 32) (hst : pwrSt s = psActive)
    (hlock : s.flag R.PWR_CTL.LOCK [] = false) : trimWrite s m w v = s.wr R.PWR_TRIM.TRIM [w] v := by
  have hfields := fieldsAt_trim ⟨w, by omega⟩
  dsimp only at hfields
  have hword : wordBits R.PWR_TRIM.TRIM v = v := by
    simp [wordBits, bits, R.PWR_TRIM.TRIM]; omega
  have hwrite : writeWord s m [(R.PWR_TRIM.TRIM, [w], 0)] (0x00100100 + 4 * w) v (fun _ => true)
      = s.wr R.PWR_TRIM.TRIM [w] v := by
    have hacc : R.PWR_TRIM.TRIM.acc = .rwl := rfl
    have hlk : isLocked s R.PWR_TRIM.TRIM [w] = false := hlock
    simp [writeWord, writeFields, writeField, hacc, hlk, hword]
  unfold trimWrite
  dsimp only
  rw [hfields, if_neg (by omega), hwrite]
  unfold trimFollow
  rw [pwrSt_wr_apart _ _ ?_, hst]
  · rfl
  · refine .inr (fun e => ?_)
    simp [Fld.key, Fld.addr, R.PWR_TRIM.TRIM, R.PWR_STATUS.STATE, dimOffset] at e
    omega

theorem trimWrite_does (m : MDom) (w : Fin 5) (v : BitVec 32) (s : State) (h : Awake s) (a : Allowed s m)
    (hst : pwrSt s = psActive) (hlock : s.flag R.PWR_CTL.LOCK [] = false) (hw : w.val < 4) :
    Does (.trimWrite m w v) s fun t => t = s.wr R.PWR_TRIM.TRIM [w.val] v.toNat :=
  does_fromDomain h a rfl ⟨_, rfl, trimWrite_unlocked m w.val v.toNat hw v.isLt hst hlock⟩

/-- R568: every domain off, none held. -/
def domainsOff (s : State) : State :=
  (List.range 5).foldl (fun s w => (s.wr R.PWR_DOM_ON.ON [w] 0).wr R.PWR_DOM_HELD.HELD [w] 0) s

theorem domainsOff_words (s : State) (w : Fin 5) :
    (domainsOff s).rd R.PWR_DOM_ON.ON [w.val] = 0 ∧ (domainsOff s).rd R.PWR_DOM_HELD.HELD [w.val] = 0 := by
  have h : List.range 5 = [0, 1, 2, 3, 4] := rfl
  unfold domainsOff
  rw [h]
  obtain ⟨w, hw⟩ := w
  obtain rfl | rfl | rfl | rfl | rfl : w = 0 ∨ w = 1 ∨ w = 2 ∨ w = 3 ∨ w = 4 := by omega
  all_goals simp (disch := decide) only [List.foldl, State.rd_wr_apart, State.rd_wr_same, Nat.zero_mod, and_self]

/-- R568: the last steps of STANDBY entry are the power state, its code, BUSY and the count. -/
theorem enterStandby_ends (s : State) (why : SbyWhy) : ∃ p : Pwr, enterStandby s why =
    (((putPwr (domainsOff (afterClear (clearBlocks s))) p).wr R.PWR_STATUS.STATE [] psStandby).wr R.PWR_STATUS.BUSY [] 0).inc
      R.PWR_CNT.COUNT [5] :=
  ⟨_, rfl⟩

/-- R568: STANDBY entry leaves what `clearBlocks` leaves in every part but the registers and the power state. -/
theorem enterStandby_frame (s : State) (why : SbyWhy) (p : Part) (hp : p ≠ .regs ∧ p ≠ .pwr) :
    p.same (clearBlocks s) (enterStandby s why) := by
  have head := May.head
  have tail := May.tail
  have k : Keeps [.regs, .pwr] (clearBlocks s) (domainsOff (afterClear (clearBlocks s))) :=
    keeps_foldl (afterClear_keeps (.refl _)) fun _ _ h => State.wr_keeps (State.wr_keeps h)
  obtain ⟨q, e⟩ := enterStandby_ends s why
  rw [e]
  exact (State.inc_keeps (State.wr_keeps (State.wr_keeps (keeps_pwr k)))).frame p (by simp [hp])

theorem standby_apart_on : ∀ w : Fin 5, Fld.apart R.PWR_STATUS.STATE R.PWR_DOM_ON.ON [] [w.val]
    ∧ Fld.apart R.PWR_STATUS.BUSY R.PWR_DOM_ON.ON [] [w.val] ∧ Fld.apart R.PWR_CNT.COUNT R.PWR_DOM_ON.ON [5] [w.val] := by
  decide

theorem standby_apart_held : ∀ w : Fin 5, Fld.apart R.PWR_STATUS.STATE R.PWR_DOM_HELD.HELD [] [w.val]
    ∧ Fld.apart R.PWR_STATUS.BUSY R.PWR_DOM_HELD.HELD [] [w.val]
    ∧ Fld.apart R.PWR_CNT.COUNT R.PWR_DOM_HELD.HELD [5] [w.val] := by
  decide

theorem enterStandby_shows (s : State) (why : SbyWhy) :
    pwrSt (enterStandby s why) = psStandby ∧ (enterStandby s why).flag R.PWR_STATUS.BUSY [] = false
      ∧ ∀ w : Fin 5, (enterStandby s why).rd R.PWR_DOM_ON.ON [w.val] = 0
        ∧ (enterStandby s why).rd R.PWR_DOM_HELD.HELD [w.val] = 0 := by
  obtain ⟨q, e⟩ := enterStandby_ends s why
  rw [e]
  refine ⟨?_, ?_, fun w => ?_⟩
  · simp (disch := decide) only [pwrSt_inc_apart, pwrSt_wr_apart, pwrSt_wr_same]; rfl
  · simp (disch := decide) only [State.flag_inc_apart, State.flag_wr_bit]; rfl
  · have words := domainsOff_words (afterClear (clearBlocks s)) w
    obtain ⟨hstate, hbusy, hcount⟩ := standby_apart_on w
    obtain ⟨hstate', hbusy', hcount'⟩ := standby_apart_held w
    rw [State.rd_inc_apart _ hcount, State.rd_wr_apart _ _ hbusy, State.rd_wr_apart _ _ hstate, putPwr_rd,
      State.rd_inc_apart _ hcount', State.rd_wr_apart _ _ hbusy', State.rd_wr_apart _ _ hstate', putPwr_rd]
    exact words

theorem pwrGoStandby_does (m : MDom) (s : State) (h : Awake s) (a : Allowed s m) (hbusy : s.flag R.PWR_STATUS.BUSY [] = false)
    (hst : pwrSt s ≤ psTrimmed) : Does (.pwrGoStandby m) s fun t =>
      pwrSt t = psStandby ∧ t.flag R.PWR_STATUS.BUSY [] = false
        ∧ (∀ w : Fin 5, t.rd R.PWR_DOM_ON.ON [w.val] = 0 ∧ t.rd R.PWR_DOM_HELD.HELD [w.val] = 0)
        ∧ t.hbm = s.hbm ∧ t.dom = Dom.reset ∧ t.car = Car.reset ∧ t.fil.scratch = [] :=
  goWrite_does m s h a hbusy rfl fun idle keep => by
    rw [pwrGo_standby idle (Nat.le_trans (Nat.le_of_eq keep) hst)]
    have frame := enterStandby_frame (s.wr R.PWR_CTL.REQ [] psStandby) .owner
    obtain ⟨hpwr, hidle, hwords⟩ := enterStandby_shows (s.wr R.PWR_CTL.REQ [] psStandby) .owner
    exact ⟨hpwr, hidle, hwords, frame .hbm (by decide), frame .dom (by decide), frame .car (by decide),
      congrArg Fil.scratch (frame .fil (by decide))⟩

/-- Settles O14: each command of the clocks and the power states, by the lemma that says what it leaves. -/
theorem powerStates : Obligations.PowerStates := by
  unfold Obligations.PowerStates
  exact ⟨refclkLost_does, refclkLossTimeout_does, refclkReturn_does, rootPllLockLoss_does, pwrGoActive_does,
    pwrGoTrimmed_does, pwrGoDormant_does, pwrGoStandby_does, trimWrite_does, dormantEntry_does, dormantWaitExpiry_does,
    wakeTimerExpiry_does, domainGate_does⟩

end Sys2Proof.Machine
end

section
/-! The packet path of a pipeline and its tables (O17): what each event does to the packets that wait, and each change of a
table to what it shows. -/

namespace Sys2Proof.Machine

open Sys2Proof

@[simp] theorem xoff_putWin (s : State) (x : Win) (a pri : Nat) : xoff (putWin s x) a pri = xoff s a pri := rfl

/-- R39, R182: the oldest frame at an internal input is the one that enters where XOFF does not hold its priority. -/
theorem internalInput_cons {s : State} {p : Nat} {x : Pkt} {l : List Pkt} (hroom : (SMap.get [] s.win.wait p).length < 2048)
    (hin : SMap.get [] s.win.inq p = x :: l) (hxoff : xoff s (128 + p) (x.tc % 8) = false) (htx : x.tx = none) :
    internalInput s p = feed { s with win := { s.win with
      turns := SMap.del s.win.turns p, inq := SMap.set [] s.win.inq p l } } x := by
  have hx : { x with tx := none } = x := by rw [← htx]
  have hfirst : (x :: l).findIdx? (fun y => !xoff s (128 + p) (y.tc % 8)) = some 0 := by
    rw [List.findIdx?_cons, hxoff]; rfl
  unfold internalInput
  simp only [putWin_win, xoff_putWin, hin, if_neg (Nat.not_le.mpr hroom), hfirst, List.getElem?_cons_zero, List.eraseIdx_zero,
    List.tail_cons, hx, htx]
  rfl

theorem fragSweep_frag (s : State) : (fragSweep s).win.frag = s.win.frag.filter (fragLive s) := by
  unfold fragSweep
  dsimp only
  split
  next hnone =>
    have hall : s.win.frag.filter (fun f => !fragLive s f) = [] := List.length_eq_zero_iff.mp hnone
    exact (List.filter_eq_self.mpr fun f hf => by simpa using List.filter_eq_nil_iff.mp hall f hf).symm
  next => rfl

/-- A table shows no entry once its buckets and stash are emptied. -/
theorem tblClear_shows (s : State) (i : Fin 64) : (tblClear s i.val).rd R.WIN_TBL_OCC.OCCUPANCY [i.val] = 0
    ∧ (tblClear s i.val).rd R.WIN_TBL_STASH.STASH_USED [i.val] = 0 := by
  have apart : ∀ i : Fin 64, Fld.apart R.WIN_TBL_STASH.STASH_USED R.WIN_TBL_OCC.OCCUPANCY [i.val] [i.val] := by decide
  unfold tblClear
  exact ⟨(State.rd_wr_apart _ _ (apart i)).trans (State.rd_wr_same _ _ _ 0), State.rd_wr_same _ _ _ 0⟩

section
variable {s : State} (h : Awake s)
include h

theorem hbmLookupComplete_does (p : Fin 16) (err : Option (Fin 4)) (w : Wait) (r : List Wait)
    (hwait : SMap.get [] s.win.wait p.val = w :: r) :
    Does (.hbmLookupComplete p err) s fun t => ∃ v u,
      v = (match err with | some i => hbmFail s (bucketLine s w i.val) | none => s)
      ∧ u = (match (advance v w true err.isSome 5).2 with
        | some y => setWait (advance v w true err.isSome 5).1 p.val (y :: r)
        | none => drainWait (advance v w true err.isSome 5).1 p.val r)
      ∧ t = drainRx u p.val (SMap.get [] u.win.rxbuf p.val).length := by
  have e : exec (.hbmLookupComplete p err) s = execHbmLookupComplete p err s := rfl
  unfold execHbmLookupComplete at e
  refine does_whenUp h e ⟨_, rfl, _, _, rfl, rfl, ?_⟩
  unfold hbmLookupDone
  rw [hwait]
  cases err <;> rfl

theorem internalInputFrame_does (p : Fin 16) (x : Pkt) (l : List Pkt)
    (hroom : (SMap.get [] s.win.wait p.val).length < 2048) (hin : SMap.get [] s.win.inq p.val = x :: l)
    (hxoff : xoff s (128 + p.val) (x.tc % 8) = false) (htx : x.tx = none) :
    Does (.internalInputFrame p) s fun t => t = feed { s with win := { s.win with
      turns := SMap.del s.win.turns p.val, inq := SMap.set [] s.win.inq p.val l } } x :=
  does_whenUp h (f := fun s => .next (internalInput s p.val)) rfl ⟨_, rfl, internalInput_cons hroom hin hxoff htx⟩

theorem espInnerReentry_does (e : Esp) (st : Nat) (b : Bytes) (r : List (Esp × Nat × Bytes))
    (hdone : s.win.espDone = (e, st, b) :: r) :
    Does .espInnerReentry s fun t => ∃ u, u = { s with win := { s.win with espDone := r } }
      ∧ (st = 0 → t = toInternal u (espInner u e b)) ∧ (st = stAuthFail → t = u.inc R.WIN_GLB_CNT.COUNT [5]) := by
  refine does_whenUp h (f := fun s => .next (espReenter s)) rfl ⟨_, rfl, _, rfl, fun h0 => ?_, fun hf => ?_⟩
  · subst h0; unfold espReenter; rw [hdone]; rfl
  · subst hf; unfold espReenter; rw [hdone]; rfl

theorem patternScanComplete_does (e : Fin 2) (j : Scan) (r : List Scan)
    (hscan : (if e = 0 then s.win.scan0 else s.win.scan1) = j :: r) :
    Does (.patternScanComplete e) s fun t => t = scanPacket { s with win :=
      if e = 0 then { s.win with scan0 := r } else { s.win with scan1 := r } } j := by
  refine does_whenUp h (f := fun s => .next (scanDone s e.val)) rfl ⟨_, rfl, ?_⟩
  unfold scanDone
  match e with
  | 0 => rw [if_pos rfl] at hscan ⊢; rw [hscan]; rfl
  | 1 => rw [if_neg (by decide)] at hscan ⊢; rw [hscan]; rfl

theorem fragEntryExpiry_does : Does .fragEntryExpiry s fun t => t.win.frag = s.win.frag.filter (fragLive s) :=
  does_whenUp h (f := fun s => .next (fragSweep s)) rfl ⟨_, rfl, fragSweep_frag s⟩

theorem tableEnable_does (i : Fin 64) (hoff : s.flag R.WIN_TBL.EN [i.val] = false) (hplaced : tblPlaced s i.val = true) :
    Does (.tableEnable i) s fun t => t = (tblClear s i.val).wr R.WIN_TBL.EN [i.val] 1 ∧ t.flag R.WIN_TBL.EN [i.val] = true
      ∧ t.rd R.WIN_TBL_OCC.OCCUPANCY [i.val] = 0 ∧ t.rd R.WIN_TBL_STASH.STASH_USED [i.val] = 0 := by
  have apart : ∀ i : Fin 64, Fld.apart R.WIN_TBL.EN R.WIN_TBL_OCC.OCCUPANCY [i.val] [i.val]
      ∧ Fld.apart R.WIN_TBL.EN R.WIN_TBL_STASH.STASH_USED [i.val] [i.val] := by decide
  have henabled : tblEnable s i.val = (tblClear s i.val).wr R.WIN_TBL.EN [i.val] 1 := by
    simp [tblEnable, hoff, hplaced]
  obtain ⟨hocc, hstash⟩ := tblClear_shows s i
  refine does_fromHost h (f := fun s => .next (tblEnable s i.val)) rfl ⟨_, rfl, henabled, ?_⟩
  rw [henabled, State.rd_wr_apart _ _ (apart i).1, State.rd_wr_apart _ _ (apart i).2]
  exact ⟨State.flag_wr_same _ _ _ 1, hocc, hstash⟩

theorem tableReady_does (i : Fin 64) (hon : s.flag R.WIN_TBL.EN [i.val] = true) :
    Does (.tableReady i) s fun t => t = s.wr R.WIN_TBL.READY [i.val] 1 :=
  does_whenUp h (f := fun s => .next (if s.flag R.WIN_TBL.EN [i.val] then s.wr R.WIN_TBL.READY [i.val] 1 else s)) rfl
    ⟨_, rfl, if_pos hon⟩

theorem tableDisable_does (i : Fin 64) (hon : s.flag R.WIN_TBL.EN [i.val] = true) :
    Does (.tableDisable i) s fun t => t = ((tblClear s i.val).wr R.WIN_TBL.EN [i.val] 0).wr R.WIN_TBL.READY [i.val] 0 :=
  does_fromHost h (f := fun s => .next (tblDisable s i.val)) rfl ⟨_, rfl, if_pos hon⟩

end

/-- Settles O17: each event of the packet path and each change of a table, by the lemma that says what it leaves. -/
theorem packetPath : Obligations.PacketPath := by
  unfold Obligations.PacketPath
  exact ⟨fun p err _ w r h => hbmLookupComplete_does h p err w r, fun p _ x l h => internalInputFrame_does h p x l,
    fun _ e st b r h => espInnerReentry_does h e st b r, fun e _ j r h => patternScanComplete_does h e j r,
    fun _ h => fragEntryExpiry_does h, fun i _ h => tableEnable_does h i, fun i _ h => tableReady_does h i,
    fun i _ h => tableDisable_does h i⟩

end Sys2Proof.Machine
end

section
/-! The Ethernet ports (O16): an octet that is staged for a Sahrov link and not yet applied refutes the statement, which
asks of the configuration in force where APPLY asks of the staged one. -/

namespace Sys2Proof.Machine

open Sys2Proof

/-- R64, R103: SAHROV of octet 0 written on a part out of reset: no port of the octet is enabled, and nothing is applied. -/
def sahrovStaged : State := State.reset.wr R.ETH_OCT_CFG.SAHROV [0] 1

theorem awake_sahrovStaged : Awake sahrovStaged := by decide

/-- R64: APPLY of the staged octet gives it to the link, whatever the registers of its ports hold. -/
theorem ethApply_sahrovStaged : portCfg (ethApply sahrovStaged 0) 0 = sahrovCfg := by decide

/-- Refutes O16: its APPLY clause asks that no Sahrov link has the octet, but not that SAHROV is 0. With SAHROV staged, APPLY
puts the Sahrov configuration in force on port 0, whose registers hold EN 0 (R62, R64). -/
theorem not_ethLinks : ¬ Obligations.EthLinks := by
  unfold Obligations.EthLinks
  rintro ⟨-, -, -, -, -, -, -, -, -, -, apply, -⟩
  obtain ⟨t, ht, hcfg⟩ := apply 0 sahrovStaged awake_sahrovStaged (by decide) (by decide)
  have e : exec (.ethApply 0) sahrovStaged = .next (ethApply sahrovStaged 0) :=
    awake_fromHost awake_sahrovStaged fun s => .next (ethApply s 0)
  obtain rfl : ethApply sahrovStaged 0 = t := Host.Outcome.next.inj (e.symm.trans ht)
  have hoff : portCfg (ethApply sahrovStaged 0) 0 = PortCfg.off := hcfg 0
  rw [ethApply_sahrovStaged] at hoff
  exact absurd hoff (by decide)

end Sys2Proof.Machine
end

section
/-! The links of the stack (O20, O21): what a link shows once its record is replaced, and what reaches a link that hears its
peer. -/

namespace Sys2Proof.Machine

open Sys2Proof

section
variable (s : State) (j : Nat) (l : Link)

@[simp] theorem stkLink_putLink_same : stkLink (putLink s j l) j = l := SMap.get_set_same _ _ _ _

theorem stkLink_putLink_ne {i : Nat} (hi : i ≠ j) : stkLink (putLink s j l) i = stkLink s i :=
  SMap.get_set_ne _ _ _ _ hi

@[simp] theorem stkLink_emit (e : Emit) (i : Nat) : stkLink (s.emit e) i = stkLink s i := rfl
@[simp] theorem stkLink_sendWord (w : Bytes) (i : Nat) : stkLink (sendWord s j w) i = stkLink s i := rfl

@[simp] theorem stkLink_linkHeard : stkLink (linkHeard s j) j = { stkLink s j with heardAt := s.now } :=
  stkLink_putLink_same _ _ _
@[simp] theorem linkUp_linkHeard (i : Nat) : linkUp (linkHeard s j) i = linkUp s i := rfl
@[simp] theorem ownId_linkHeard : ownId (linkHeard s j) = ownId s := rfl

end

theorem linkHears_of_linkUp {s : State} {j : Nat} (hup : linkUp s j = true) : linkHears s j = true := by
  unfold linkUp at hup
  unfold linkHears
  rw [(Bool.and_eq_true_iff.mp hup).1, Bool.true_or]

/-- R96: a control word has its effect on a link that hears its peer, after the peer is heard. -/
theorem does_onLink {c : Instr} {s : State} {j : Nat} {f : State → State} {p : State → Prop} (h : Awake s)
    (hears : linkHears s j = true) (e : exec c s = whenOn s fun s => .next (onLink s j f)) (hp : p (f (linkHeard s j))) :
    Does c s p := by
  refine does_whenOn h e ⟨_, rfl, ?_⟩
  unfold onLink
  rw [if_pos hears]
  exact hp

end Sys2Proof.Machine
end

section
/-! Units, acknowledgments and credit of a Sahrov link (O20): each operation by its equation on the path it takes, then the
commands. -/

namespace Sys2Proof.Machine

open Sys2Proof

/-- R93: a faultless DATA unit for this device, in its order, is admitted. -/
theorem unitReceive_inOrder {s : State} {j : Nat} {u : Bytes} (hup : linkUp s j = true) (hdata : byteAt u 0 % 16 = 0)
    (hok : unitFault u = none) (hdest : byteAt u 1 / 16 % 4 = ownId s) (hseq : beAt u 2 2 = (stkLink s j).rxSeq) :
    unitReceive s j u = unitAdmit (linkHeard s j) j u ((u.drop 16).take (u.length - 20)) := by
  simp [unitReceive, linkHears_of_linkUp hup, hok, hdata, hdest, hup, hseq]

/-- R94: the link's record once the DATA entry (c, b) is sent and kept for replay. -/
def sentData (l : Link) (c : Nat) (b : Bytes) : Link :=
  { unqueue l (c, b) with
    replay := l.replay ++ [{ seq := l.txSeq, tc := c, bytes := unitBytes (b.take 15) (b.drop 16) l.txSeq, tries := 0 }]
    txSeq := (l.txSeq + 1) % 65536
    sent := SMap.set 0 l.sent c ((SMap.get 0 l.sent c + creditUnits b) % 2 ^ 32) }

theorem dataSend_sends {s : State} {j c : Nat} {b : Bytes} (hup : linkUp s j = true)
    (hnext : sendable (stkLink s j) (stkLink s j).sendq [] = some (c, b)) (hc : c < 8)
    (hroom : replayBytes (stkLink s j) + (unitBytes (b.take 15) (b.drop 16) (stkLink s j).txSeq).length ≤ 524288) :
    dataSend s j = (putLink s j (sentData (stkLink s j) c b)).emit
      (.unit j (unitBytes (b.take 15) (b.drop 16) (stkLink s j).txSeq)) := by
  unfold dataSend
  dsimp only
  rw [hnext, if_neg (by simp [hup])]
  split
  next heq => simp at heq
  next heq => simp at heq; omega
  next c' b' _ heq =>
    obtain ⟨rfl, rfl⟩ : c = c' ∧ b = b' := by simpa using heq
    exact if_neg (Nat.not_lt.mpr hroom)

/-- R92: units of a link sent again leave what was sent before, and each is counted. -/
theorem resend_out (j : Nat) (l : List SUnit) : ∀ s : State,
    (l.foldl (fun s x => stkCount (s.emit (.unit j x.bytes)) 3) s).out = s.out ++ l.map (fun x => .unit j x.bytes) := by
  induction l with
  | nil => exact fun s => (List.append_nil _).symm
  | cons x l ih => exact fun s => (ih _).trans (List.append_assoc _ _ _)

theorem resend_stk (j : Nat) (l : List SUnit) : ∀ s : State,
    (l.foldl (fun s x => stkCount (s.emit (.unit j x.bytes)) 3) s).stk = s.stk := by
  induction l with
  | nil => exact fun _ => rfl
  | cons x l ih => exact fun _ => ih _

/-- R92: a link none of whose kept units is at its limit of eight replays sends them all again. -/
theorem replayAll_shows {s : State} {j : Nat} (hup : linkUp s j = true) (hkept : (stkLink s j).replay ≠ [])
    (hfew : (stkLink s j).replay.any (fun x => decide (x.tries ≥ 8)) = false) :
    (replayAll s j).out = s.out ++ (stkLink s j).replay.map (fun x => .unit j x.bytes)
      ∧ (stkLink (replayAll s j) j).replay.map (·.tries) = (stkLink s j).replay.map (·.tries + 1) := by
  unfold replayAll
  rw [if_neg (by simp [hup, hkept]), if_neg (by simp [hfew])]
  refine ⟨resend_out _ _ _, ?_⟩
  rw [stkLink, resend_stk]
  change (stkLink (putLink s j _) j).replay.map _ = _
  rw [stkLink_putLink_same]
  exact List.map_map

/-- R93: the ACK that falls due covers every unit admitted. -/
theorem ackTimer_sends {s : State} {j : Nat} (hup : linkUp s j = true) (hdue : (stkLink s j).acked ≠ (stkLink s j).rxSeq) :
    ackTimer s j = sendAck s j false := if_neg (by simp [hup, hdue])

section
variable {s : State} (h : Awake s) (j : Fin 4)
include h

theorem sahrovUnitReceive_does (u : Bytes) (hup : linkUp s j.val = true) (hdata : byteAt u 0 % 16 = 0)
    (hok : unitFault u = none) (hdest : byteAt u 1 / 16 % 4 = ownId s) (hseq : beAt u 2 2 = (stkLink s j.val).rxSeq) :
    Does (.sahrovUnitReceive j u) s fun t =>
      t = unitAdmit (linkHeard s j.val) j.val u ((u.drop 16).take (u.length - 20)) :=
  does_fromStack h (f := fun s => .next (unitReceive s j.val u)) rfl
    ⟨_, rfl, unitReceive_inOrder hup hdata hok hdest hseq⟩

theorem sahrovDataSend_does (c : Nat) (b : Bytes) (hup : linkUp s j.val = true)
    (hnext : sendable (stkLink s j.val) (stkLink s j.val).sendq [] = some (c, b)) (hc : c < 8)
    (hroom : replayBytes (stkLink s j.val) + (unitBytes (b.take 15) (b.drop 16) (stkLink s j.val).txSeq).length ≤ 524288) :
    Does (.sahrovDataSend j) s fun t =>
      t.out = s.out ++ [.unit j.val (unitBytes (b.take 15) (b.drop 16) (stkLink s j.val).txSeq)]
        ∧ (stkLink t j.val).txSeq = ((stkLink s j.val).txSeq + 1) % 65536
        ∧ (stkLink t j.val).sendq = (stkLink s j.val).sendq.erase (c, b)
        ∧ ∃ x, (stkLink t j.val).replay = (stkLink s j.val).replay ++ [x]
          ∧ x.bytes = unitBytes (b.take 15) (b.drop 16) (stkLink s j.val).txSeq ∧ x.tc = c := by
  refine does_whenOn h (f := fun s => .next (dataSend s j.val)) rfl ⟨_, rfl, ?_⟩
  rw [dataSend_sends hup hnext hc hroom, stkLink_emit, stkLink_putLink_same]
  exact ⟨rfl, rfl, rfl, _, rfl, rfl, rfl⟩

theorem sahrovReplayTimeout_does (hup : linkUp s j.val = true) (hkept : (stkLink s j.val).replay ≠ [])
    (hfew : (stkLink s j.val).replay.any (fun x => decide (x.tries ≥ 8)) = false) :
    Does (.sahrovReplayTimeout j) s fun t =>
      t.out = s.out ++ (stkLink s j.val).replay.map (fun x => .unit j.val x.bytes)
        ∧ (stkLink t j.val).replay.map (·.tries) = (stkLink s j.val).replay.map (·.tries + 1) :=
  does_whenOn h (f := fun s => .next (replayAll s j.val)) rfl ⟨_, rfl, replayAll_shows hup hkept hfew⟩

theorem sahrovAckTimer_does (hup : linkUp s j.val = true) (hdue : (stkLink s j.val).acked ≠ (stkLink s j.val).rxSeq) :
    Does (.sahrovAckTimer j) s fun t => (stkLink t j.val).acked = (stkLink s j.val).rxSeq
      ∧ t.out = s.out ++ [.unit j.val (ctlUnit (s.rd R.STK_CFG.STACK_ID []) j.val
        ([2, 0] ++ beBytes 2 (((stkLink s j.val).rxSeq + 65535) % 65536) ++ [0] ++ List.replicate 11 0))] := by
  refine does_whenOn h (f := fun s => .next (ackTimer s j.val)) rfl ⟨_, rfl, ?_⟩
  rw [ackTimer_sends hup hdue]
  unfold sendAck
  rw [stkLink_sendWord, stkLink_putLink_same]
  exact ⟨rfl, rfl⟩

theorem stkAck_does (q : BitVec 16) (hears : linkHears s j.val = true) :
    Does (.stkAck j q false) s fun t =>
      (stkLink t j.val).replay = (stkLink s j.val).replay.filter (fun x => seqBefore q.toNat x.seq) := by
  refine does_onLink h hears (f := fun s => ackArrive s j.val q.toNat false) rfl ?_
  have e : ackArrive (linkHeard s j.val) j.val q.toNat false = putLink _ _ _ := rfl
  rw [e, stkLink_putLink_same, stkLink_linkHeard]

theorem stkCredit_does (c : Fin 8) (lim : BitVec 32) (hears : linkHears s j.val = true) :
    Does (.stkCredit j c lim) s fun t => SMap.get 0 (stkLink t j.val).limit c.val = lim.toNat := by
  refine does_onLink h hears (f := fun s => creditArrive s j.val c.val lim.toNat) rfl ?_
  unfold creditArrive
  rw [stkLink_putLink_same, Nat.mod_eq_of_lt c.isLt, SMap.get_set_same, Nat.mod_eq_of_lt lim.isLt]

end

/-- Settles O20: each command of a Sahrov link's units, by the lemma that says what it leaves. -/
theorem sahrovUnits : Obligations.SahrovUnits := by
  unfold Obligations.SahrovUnits
  exact ⟨fun j u _ h => sahrovUnitReceive_does h j u, fun j c b _ h => sahrovDataSend_does h j c b,
    fun j _ h => sahrovReplayTimeout_does h j, fun j _ h => sahrovAckTimer_does h j,
    fun j q _ h => stkAck_does h j q, fun j c lim _ h => stkCredit_does h j c lim⟩

end Sys2Proof.Machine
end

section
/-! Registers that an operation leaves, where the index of what it writes is any number that a register may hold: the place of
a field within its word, or the bank it lies in, tells it from what is written. -/

namespace Sys2Proof.Machine

open Sys2Proof

theorem State.flag_of_rd {s t : State} {f : Fld} {ix : List Nat} (h : t.rd f ix = s.rd f ix) :
    t.flag f ix = s.flag f ix := congrArg (· % 2 == 1) h

/-- A field at the start of a nibble shares no storage with one inside a nibble. -/
theorem Fld.apart_of_nibble {f g : Fld} {ix jx : List Nat} (hf : f.lo % 4 = 0) (hg : g.lo % 4 ≠ 0) : Fld.apart f g ix jx :=
  .inr fun e => by unfold Fld.key at e; omega

/-- A field of a bank from 0x01000000 up shares no storage with one below, where the Time Unit's lie. -/
theorem Fld.apart_of_above {f g : Fld} {ix jx : List Nat} (hg : 0x01000000 ≤ g.base) (hf : f.key ix < 8 * 0x01000000) :
    Fld.apart f g ix jx :=
  .inr fun e => by rw [e, Fld.key, Fld.addr] at hf; omega

theorem foldl_rd {α : Type} {g : Fld} {ix : List Nat} {f : State → α → State}
    (hf : ∀ s x, (f s x).rd g ix = s.rd g ix) (l : List α) : ∀ s : State, (l.foldl f s).rd g ix = s.rd g ix := by
  induction l with
  | nil => exact fun _ => rfl
  | cons x l ih => exact fun s => (ih _).trans (hf s x)

theorem foldl_fst_rd {α β : Type} {g : Fld} {ix : List Nat} {f : State × β → α → State × β}
    (hf : ∀ a x, (f a x).1.rd g ix = a.1.rd g ix) (l : List α) :
    ∀ a : State × β, (l.foldl f a).1.rd g ix = a.1.rd g ix := by
  induction l with
  | nil => exact fun _ => rfl
  | cons x l ih => exact fun a => (ih _).trans (hf a x)

theorem mergeRestart_rd_apart {s : State} {p : Nat} {g : Fld} {ix : List Nat}
    (h : Fld.apart R.ETH_PORT_STATUS.VERIFY g [p / 8, p % 8] ix) : (mergeRestart s p).rd g ix = s.rd g ix := by
  unfold mergeRestart
  dsimp only
  split
  · exact State.rd_wr_apart _ _ h
  · exact State.rd_wr_apart _ _ h

/-! A flush of an egress point: of the registers, it writes only fields that start a nibble. -/

section
variable {g : Fld} {ix : List Nat} (hg : g.lo % 4 ≠ 0)
include hg

theorem sendPfc_rd (s : State) (a pri quanta : Nat) : (sendPfc s a pri quanta).rd g ix = s.rd g ix := by
  have count (s : State) (jx : List Nat) : (s.inc R.ETH_PORT_CNT.COUNT jx).rd g ix = s.rd g ix :=
    State.rd_inc_apart _ (Fld.apart_of_nibble (by decide) hg)
  unfold sendPfc
  dsimp only
  repeat' split
  · rfl
  · exact count _ _
  · exact count _ _
  · rfl

theorem xonCheck_rd (s : State) (a pri : Nat) : (xonCheck s a pri).rd g ix = s.rd g ix := by
  have clear (v : Nat) : (s.wr R.GRN_IN_CFG_W1.XOFF_STATE [a] v).rd g ix = s.rd g ix :=
    State.rd_wr_apart _ _ (Fld.apart_of_nibble (by decide) hg)
  unfold xonCheck
  dsimp only
  repeat' split
  · exact clear _
  · exact (sendPfc_rd hg _ _ _ _).trans (clear _)
  · rfl

theorem givePools_rd (s : State) (l : List Pool) : (givePools s l).rd g ix = s.rd g ix :=
  State.rd_wr_apart _ _ (Fld.apart_of_nibble (by decide) hg)

theorem giveCells_rd (s : State) (f : GFrame) (k : Nat) : (giveCells s f k).rd g ix = s.rd g ix := by
  have pools : ((givePools ((f.place.take k).foldl freeCell s) (f.cells.take k)).sub R.GRN_DOM_W1.USED [f.pkt.domain]
      (f.cells.take k).length).rd g ix = s.rd g ix :=
    (State.rd_sub_apart _ _ (Fld.apart_of_nibble (by decide) hg)).trans
      ((givePools_rd hg _ _).trans (foldl_rd (fun _ _ => by rfl) _ _))
  rw [← pools]
  unfold giveCells
  dsimp only
  split <;> split
  · exact xonCheck_rd hg _ _ _
  · rfl
  · exact xonCheck_rd hg _ _ _
  · rfl

theorem dropRef_rd (s : State) (fid : Nat) : (dropRef s fid).rd g ix = s.rd g ix := by
  unfold dropRef
  dsimp only
  split
  · exact giveCells_rd hg _ _ _
  · rfl

theorem deepGive_rd (s : State) (q dom n : Nat) : (deepGive s q dom n).rd g ix = s.rd g ix :=
  State.rd_sub_apart _ _ (Fld.apart_of_nibble (by decide) hg)

theorem flushQueue_rd (s : State) (e q : Nat) : (flushQueue s e q).1.rd g ix = s.rd g ix :=
  (foldl_rd (fun s x => (dropRef_rd hg _ _).trans (deepGive_rd hg _ _ _ _)) _ _).trans (foldl_rd (fun _ _ => by rfl) _ _)

theorem flushEp_rd (s : State) (e : Nat) : (flushEp s e).1.rd g ix = s.rd g ix :=
  foldl_fst_rd (fun a q => by exact flushQueue_rd hg a.1 e q) _ _

theorem ethCount_rd (s : State) (p n k : Nat) : (ethCount s p n k).rd g ix = s.rd g ix :=
  State.rd_add_apart _ _ (Fld.apart_of_nibble (by decide) hg)

theorem setPortState_rd (s : State) (p st : Nat) : (setPortState s p st).rd g ix = s.rd g ix :=
  State.rd_wr_apart _ _ (Fld.apart_of_nibble (by decide) hg)

theorem portFlushDown_rd (s : State) (p : Nat) : (portFlushDown s p).rd g ix = s.rd g ix :=
  (setPortState_rd hg _ _ _).trans ((ethCount_rd hg _ _ _ _).trans ((ethCount_rd hg _ _ _ _).trans (flushEp_rd hg _ _)))

/-- R72: of the registers, the loss of a port's link shows in its STATE, its VERIFY and in fields that start a nibble. -/
theorem loseLink_rd_apart (s : State) {p : Nat} (h : Fld.apart R.ETH_PORT_STATUS.VERIFY g [p / 8, p % 8] ix) :
    (loseLink s p).rd g ix = s.rd g ix := by
  have restart : ((mergeRestart (ethCount (setPart (dropTx s p) p none) p 22 1) p).wr R.ETH_PORT_STATUS.VERIFY
      [p / 8, p % 8] 0).rd g ix = s.rd g ix :=
    (State.rd_wr_apart _ _ h).trans ((mergeRestart_rd_apart h).trans (ethCount_rd hg _ _ _ _))
  unfold loseLink
  dsimp only
  repeat' split
  · rfl
  · exact (portFlushDown_rd hg _ _).trans restart
  · exact (ethCount_rd hg _ _ _ _).trans ((setPortState_rd hg _ _ _).trans restart)

end

/-- STK_LINK.STATE lies in no word of a port's status. -/
theorem linkState_loseLink (s : State) (p : Nat) (j : Fin 4) : linkState (loseLink s p) j.val = linkState s j.val := by
  refine loseLink_rd_apart (by decide) s (.inr fun e => ?_)
  simp only [Fld.key, Fld.addr, R.ETH_PORT_STATUS.VERIFY, R.STK_LINK.STATE, dimOffset] at e
  omega

end Sys2Proof.Machine
end

section
/-! Control of the stack (O21): each operation by what it leaves on the path it takes, then the commands. -/

namespace Sys2Proof.Machine

open Sys2Proof

/-! Time that comes to a given moment, and what of a link it leaves. -/

theorem le_clockTo_now (s : State) (n : Nat) : n ≤ (clockTo s n).now := by
  have head := May.head
  have tail := May.tail
  unfold clockTo
  split
  next hle => exact hle
  next =>
    have k : Keeps [.regs, .tu, .out, .free] { s with now := n } (tuDue (tuAdvance { s with now := n } (n - s.now))) :=
      tuDue_keeps (tuAdvance_keeps (.refl _))
    exact Nat.le_of_eq (k.frame .now (by decide)).symm

/-- R531: time that passes moves the counter and ends the PPS pulse: of the Time Unit, the rest stays. -/
theorem clockTo_tu (s : State) (n : Nat) : ∃ t pps, (clockTo s n).tu = { s.tu with t := t, ppsOff := pps } := by
  have advance (s : State) (d : Nat) : ∃ t, (tuAdvance s d).tu = { s.tu with t := t } := by
    unfold tuAdvance
    dsimp only
    split
    · exact ⟨_, rfl⟩
    · split <;> exact ⟨_, rfl⟩
  have due (s : State) : ∃ pps, (tuDue s).tu = { s.tu with ppsOff := pps } := by
    unfold tuDue
    dsimp only
    repeat' split
    all_goals exact ⟨_, rfl⟩
  unfold clockTo
  split
  · exact ⟨_, _, rfl⟩
  · obtain ⟨t, ht⟩ := advance { s with now := n } (n - s.now)
    obtain ⟨pps, hpps⟩ := due (tuAdvance { s with now := n } (n - s.now))
    exact ⟨t, pps, by rw [hpps, ht]⟩

theorem clockTo_eth (s : State) (n : Nat) : (clockTo s n).eth = s.eth := by
  have head := May.head
  have tail := May.tail
  exact (clockTo_keeps (W := [.regs, .now, .tu, .out, .free]) (.refl s)).frame .eth (by decide)

theorem clockTo_stk (s : State) (n : Nat) : (clockTo s n).stk = s.stk := by
  have head := May.head
  have tail := May.tail
  exact (clockTo_keeps (W := [.regs, .now, .tu, .out, .free]) (.refl s)).frame .stk (by decide)

theorem clockTo_rd_above (s : State) (n : Nat) {f : Fld} {ix : List Nat} (hf : 0x01000000 ≤ f.base) :
    (clockTo s n).rd f ix = s.rd f ix := clockTo_rd_apart n (Fld.apart_of_above hf (by decide))

/-- R97: whether a peer is heard is a matter of the ports, and of registers above the Time Unit's. -/
theorem linkHears_congr {s t : State} (j : Nat) (heth : t.eth = s.eth)
    (hrd : ∀ f ix, 0x01000000 ≤ f.base → t.rd f ix = s.rd f ix) : linkHears t j = linkHears s j := by
  have hflag (f : Fld) (ix : List Nat) (h : 0x01000000 ≤ f.base) : t.flag f ix = s.flag f ix := State.flag_of_rd (hrd f ix h)
  have hretired (o : Nat) : laneRetired t o = laneRetired s o := funext fun l => hflag _ _ (by decide)
  have hcfg (p : Nat) : portCfg t p = portCfg s p := by rw [portCfg, heth, portCfg]
  have hsahrov (o : Nat) : isSahrov t o = isSahrov s o := by rw [isSahrov, hcfg, isSahrov]
  have hlanes (p : Nat) : portLanes t p = portLanes s p := by
    unfold portLanes sahrovLanes
    rw [hsahrov, hretired, hcfg]
  have hlocked (p : Nat) : lanesLocked t p = lanesLocked s p := by
    have hlocks (o l : Nat) : t.flag R.ETH_LANE_STATUS.CDR_LOCK [o, l] = s.flag R.ETH_LANE_STATUS.CDR_LOCK [o, l] :=
      hflag _ _ (by decide)
    unfold lanesLocked
    simp only [hlanes, hretired, hlocks]
  have hown : ownId t = ownId s := hrd _ _ (by decide)
  have hoctet : linkOctet t j = linkOctet s j := hrd _ _ (by decide)
  have hstate : linkState t j = linkState s j := hrd _ _ (by decide)
  have hport (p : Nat) : portState t p = portState s p := hrd _ _ (by decide)
  unfold linkHears linkRuns
  rw [hown, hoctet, hstate, hport, hsahrov, hlocked, hflag _ _ (by decide), hflag _ _ (by decide)]

theorem linkHears_clockTo (s : State) (n j : Nat) : linkHears (clockTo s n) j = linkHears s j :=
  linkHears_congr j (clockTo_eth s n) fun _ _ hf => clockTo_rd_above s n hf

/-! HELLO. -/

/-- R99: a link that has taken in its peer's HELLO, before it shows UP. -/
def helloSeen (s : State) (j lanes : Nat) : State :=
  x4Show (putLink s j { stkLink s j with peerX4 := lanes == 4, joined := true }) j

theorem linkState_helloSeen (s : State) (j : Fin 4) (lanes : Nat) :
    linkState (helloSeen s j.val lanes) j.val = linkState s j.val := by
  have apart : ∀ j : Fin 4, Fld.apart R.STK_LINK.X4 R.STK_LINK.STATE [j.val] [j.val] := by decide
  exact State.rd_wr_apart _ _ (apart j)

/-- R108: a peer that runs on four lanes makes its link one of four. -/
theorem helloSeen_x4 (s : State) (j : Nat) : (helloSeen s j 4).flag R.STK_LINK.X4 [j] = true := by
  unfold helloSeen x4Show
  rw [State.flag_wr_same, stkLink_putLink_same, beq_self_eq_true, Bool.or_true]
  rfl

/-- R99: HELLO of the STACK_ID expected brings the link up; a link that was not up grants the credit of every class. -/
theorem helloArrive_peer {s : State} {j : Fin 4} (lanes : Nat) (hen : s.flag R.STK_CFG.EN [] = true)
    (hlink : s.flag R.STK_LINK.EN [j.val] = true) (hown : j.val ≠ ownId s) (hdup : linkState s j.val ≠ lkDup)
    (hlost : linkState s j.val ≠ lkLost) :
    helloArrive s j.val j.val lanes = if linkState s j.val ≠ lkUp
      then (List.range 8).foldl (fun s c => sendCredit s j.val c)
        ((helloSeen s j.val lanes).wr R.STK_LINK.STATE [j.val] lkUp)
      else (helloSeen s j.val lanes).wr R.STK_LINK.STATE [j.val] lkUp := by
  have hseen := linkState_helloSeen s j lanes
  have not_lost (b : Bool) : ¬ (decide (linkState (helloSeen s j.val lanes) j.val = lkLost) && b) = true := by
    simp [hseen, hlost]
  unfold helloArrive
  rw [if_neg (by simp [hen, hlink, hown]), if_neg hown, if_neg (by simp [hdup])]
  dsimp only
  rw [show x4Show _ _ = helloSeen s j.val lanes from rfl, if_neg (not_lost _), hseen]

theorem sendCredits_rd (j : Nat) (l : List Nat) (s : State) (f : Fld) (ix : List Nat) :
    (l.foldl (fun s c => sendCredit s j c) s).rd f ix = s.rd f ix := foldl_rd (fun _ _ => by rfl) _ _

theorem sendCredits_out (j : Nat) (l : List Nat) :
    ∀ s : State, (l.foldl (fun s c => sendCredit s j c) s).out.length = s.out.length + l.length := by
  induction l with
  | nil => exact fun _ => rfl
  | cons c l ih =>
    intro s
    have sent : (sendCredit s j c).out.length = s.out.length + 1 := List.length_append
    rw [List.foldl_cons, ih, sent, List.length_cons]
    omega

theorem helloArrive_shows {s : State} {j : Fin 4} (lanes : Nat) (hen : s.flag R.STK_CFG.EN [] = true)
    (hlink : s.flag R.STK_LINK.EN [j.val] = true) (hown : j.val ≠ ownId s) (hdup : linkState s j.val ≠ lkDup)
    (hlost : linkState s j.val ≠ lkLost) :
    linkState (helloArrive s j.val j.val lanes) j.val = lkUp
      ∧ (lanes = 4 → (helloArrive s j.val j.val lanes).flag R.STK_LINK.X4 [j.val] = true)
      ∧ (linkState s j.val = lkHello → (helloArrive s j.val j.val lanes).out.length = s.out.length + 8) := by
  have apart : ∀ j : Fin 4, Fld.apart R.STK_LINK.STATE R.STK_LINK.X4 [j.val] [j.val] := by decide
  have hup : linkState ((helloSeen s j.val lanes).wr R.STK_LINK.STATE [j.val] lkUp) j.val = lkUp := State.rd_wr_same _ _ _ _
  have hx4 : lanes = 4 →
      ((helloSeen s j.val lanes).wr R.STK_LINK.STATE [j.val] lkUp).flag R.STK_LINK.X4 [j.val] = true := by
    rintro rfl
    exact (State.flag_wr_apart _ _ (apart j)).trans (helloSeen_x4 s j.val)
  rw [helloArrive_peer lanes hen hlink hown hdup hlost]
  split
  next =>
    exact ⟨(sendCredits_rd _ _ _ _ _).trans hup, fun h4 => (State.flag_of_rd (sendCredits_rd _ _ _ _ _)).trans (hx4 h4),
      fun _ => sendCredits_out _ _ _⟩
  next hwas => exact ⟨hup, hx4, fun hhello => absurd (by rw [hhello]; decide) hwas⟩

/-! KEEPALIVE. -/

/-- R97: what the timer does on one link. -/
def keepaliveOn (s : State) (j : Nat) : State :=
  if linkHears s j then
    let l := stkLink s j
    let s := if linkState s j = lkHello || linkState s j = lkLost then sendHello s j else s
    sendWord (putLink s j { l with beat := (l.beat + 1) % 2 ^ 32 }) j
      ([4, 0, 0, 0] ++ beBytes 4 l.beat ++ [byteOf (s.rd R.STK_STATUS.MASTER_LOST [])] ++ List.replicate 7 0)
  else s

theorem keepaliveOn_frame (s : State) (j : Nat) : (keepaliveOn s j).regs = s.regs ∧ (keepaliveOn s j).eth = s.eth
    ∧ (keepaliveOn s j).now = s.now ∧ (keepaliveOn s j).stk.beatAt = s.stk.beatAt := by
  unfold keepaliveOn
  split
  · split <;> exact ⟨rfl, rfl, rfl, rfl⟩
  · exact ⟨rfl, rfl, rfl, rfl⟩

theorem linkHears_keepaliveOn (s : State) (j i : Nat) : linkHears (keepaliveOn s j) i = linkHears s i := by
  obtain ⟨hregs, heth, -, -⟩ := keepaliveOn_frame s j
  exact linkHears_congr i heth fun f ix _ => by rw [State.rd, hregs, State.rd]

theorem stkLink_keepaliveOn_same (s : State) (j : Nat) : stkLink (keepaliveOn s j) j =
    if linkHears s j then { stkLink s j with beat := ((stkLink s j).beat + 1) % 2 ^ 32 } else stkLink s j := by
  unfold keepaliveOn
  split
  · rw [stkLink_sendWord, stkLink_putLink_same]
  · rfl

theorem stkLink_keepaliveOn_ne (s : State) {j i : Nat} (hi : i ≠ j) : stkLink (keepaliveOn s j) i = stkLink s i := by
  unfold keepaliveOn
  split
  · refine (stkLink_putLink_ne _ _ _ hi).trans ?_
    split <;> rfl
  · rfl

/-- R97: the timer's effect on a list of different links: each beats once where it hears its peer. -/
theorem keepalives_show (l : List Nat) : ∀ s : State, (l.foldl keepaliveOn s).now = s.now
    ∧ (l.foldl keepaliveOn s).stk.beatAt = s.stk.beatAt
    ∧ ∀ i, (i ∉ l → stkLink (l.foldl keepaliveOn s) i = stkLink s i)
      ∧ (i ∈ l → l.Nodup → stkLink (l.foldl keepaliveOn s) i =
        if linkHears s i then { stkLink s i with beat := ((stkLink s i).beat + 1) % 2 ^ 32 } else stkLink s i) := by
  induction l with
  | nil => exact fun s => ⟨rfl, rfl, fun i => ⟨fun _ => rfl, fun hi => absurd hi List.not_mem_nil⟩⟩
  | cons j l ih =>
    intro s
    obtain ⟨-, -, hnow, hbeat⟩ := keepaliveOn_frame s j
    obtain ⟨hnow', hbeat', hlink⟩ := ih (keepaliveOn s j)
    refine ⟨hnow'.trans hnow, hbeat'.trans hbeat, fun i => ⟨fun hi => ?_, fun hi hl => ?_⟩⟩
    · obtain ⟨hij, hil⟩ := not_or.mp (mt List.mem_cons.mpr hi)
      exact ((hlink i).1 hil).trans (stkLink_keepaliveOn_ne s hij)
    · obtain ⟨hjl, hl⟩ := List.nodup_cons.mp hl
      rcases List.mem_cons.mp hi with rfl | hil
      · exact ((hlink i).1 hjl).trans (stkLink_keepaliveOn_same s i)
      · have hij : i ≠ j := fun e => hjl (e ▸ hil)
        rw [List.foldl_cons, (hlink i).2 hil hl, linkHears_keepaliveOn, stkLink_keepaliveOn_ne s hij]

/-- R97: the beats of a tick count from now. -/
def beatNow (s : State) : State := { s with stk := { s.stk with beatAt := s.now } }

theorem keepaliveTick_eq (s : State) : keepaliveTick s = (List.range 4).foldl keepaliveOn
    (beatNow (clockTo s (s.stk.beatAt + max 1 (s.rd R.STK_CFG.KA_PERIOD []) * 10000))) := rfl

theorem keepaliveTick_shows (s : State) :
    s.stk.beatAt + max 1 (s.rd R.STK_CFG.KA_PERIOD []) * 10000 ≤ (keepaliveTick s).now
      ∧ (keepaliveTick s).stk.beatAt = (keepaliveTick s).now
      ∧ ∀ j : Fin 4, stkLink (keepaliveTick s) j.val = if linkHears s j.val
        then { stkLink s j.val with beat := ((stkLink s j.val).beat + 1) % 2 ^ 32 } else stkLink s j.val := by
  rw [keepaliveTick_eq]
  generalize s.stk.beatAt + max 1 (s.rd R.STK_CFG.KA_PERIOD []) * 10000 = n
  obtain ⟨hnow, hbeat, hlink⟩ := keepalives_show (List.range 4) (beatNow (clockTo s n))
  refine ⟨Nat.le_trans (le_clockTo_now s n) (Nat.le_of_eq hnow.symm), hbeat.trans hnow.symm, fun j => ?_⟩
  have hears : linkHears (beatNow (clockTo s n)) j.val = linkHears s j.val := linkHears_clockTo s n j.val
  have hsame : stkLink (beatNow (clockTo s n)) j.val = stkLink s j.val := by
    change stkLink (clockTo s n) j.val = _
    rw [stkLink, clockTo_stk, stkLink]
  rw [(hlink j.val).2 (List.mem_range.mpr j.isLt) List.nodup_range, hears, hsame]

/-! The loss of a peer. -/

theorem tuShow_rd {g : Fld} {ix : List Nat} (hg : 0x01000000 ≤ g.base) (s : State) : (tuShow s).rd g ix = s.rd g ix := by
  have steer (s : State) : (steerShow s).rd g ix = s.rd g ix :=
    foldl_rd (fun s o => by dsimp only; split <;> rfl) _ _
  unfold tuShow
  rw [steer, State.rd_wr_apart _ _ (Fld.apart_of_above hg (by decide)),
    State.rd_wr_apart _ _ (Fld.apart_of_above hg (by decide))]

theorem servoHoldover_rd {g : Fld} {ix : List Nat} (hg : 0x01000000 ≤ g.base) (s : State) :
    (servoHoldover s).rd g ix = s.rd g ix := by
  unfold servoHoldover
  dsimp only
  split
  · rw [tuShow_rd hg, State.rd_inc_apart _ (Fld.apart_of_above hg (by decide)),
      State.rd_wr_apart _ _ (Fld.apart_of_above hg (by decide))]
    rfl
  · rfl

/-- R97: a link whose peer is lost. -/
def peerLost (s : State) (j : Nat) : State :=
  loseLink ((putLink s j { stkLink s j with joined := false }).wr R.STK_LINK.STATE [j] lkLost) (8 * linkOctet s j)

theorem linkState_peerLost (s : State) (j : Fin 4) : linkState (peerLost s j.val) j.val = lkLost :=
  (linkState_loseLink _ _ j).trans (State.rd_wr_same _ _ _ _)

theorem peerLost_joined (s : State) (j : Nat) : (stkLink (peerLost s j) j).joined = false := by
  have head := May.head
  have tail := May.tail
  have hstk (s : State) (p : Nat) : (loseLink s p).stk = s.stk :=
    (loseLink_keeps (W := [.regs, .eth, .grn, .tly, .out]) (.refl s)).frame .stk (by decide)
  rw [stkLink, peerLost, hstk]
  exact congrArg Link.joined (stkLink_putLink_same s j _)

/-- R101, R550: the loss of STACK_ID 0 is the loss of the master; a Time Unit that follows the stack holds over. -/
def masterLost (s : State) : State :=
  if (s.wr R.STK_STATUS.MASTER_LOST [] 1).rd R.TU_SERVO.SRC [] = 2 then servoHoldover (s.wr R.STK_STATUS.MASTER_LOST [] 1)
  else s.wr R.STK_STATUS.MASTER_LOST [] 1

theorem masterLost_rd (s : State) {g : Fld} {ix : List Nat} (hg : 0x01000000 ≤ g.base) :
    (masterLost s).rd g ix = (s.wr R.STK_STATUS.MASTER_LOST [] 1).rd g ix := by
  unfold masterLost
  split
  · exact servoHoldover_rd hg _
  · rfl

theorem masterLost_stk (s : State) : (masterLost s).stk = s.stk := by
  have head := May.head
  have tail := May.tail
  unfold masterLost
  split
  · exact (servoHoldover_keeps (W := [.regs, .tu, .eth, .out]) (.refl (s.wr R.STK_STATUS.MASTER_LOST [] 1))).frame .stk
      (by decide)
  · rfl

theorem peerLoss_eq {s : State} {j : Nat} (hen : s.flag R.STK_CFG.EN [] = true) (hlink : s.flag R.STK_LINK.EN [j] = true)
    (hown : j ≠ ownId s) (hstate : linkState s j ≠ 0) :
    peerLoss s j = if j = 0 then masterLost (peerLost s j) else peerLost s j := by
  unfold peerLoss
  rw [if_neg (by simp [hen, hlink, hown, hstate])]
  rfl

theorem peerLoss_shows {s : State} {j : Fin 4} (hen : s.flag R.STK_CFG.EN [] = true)
    (hlink : s.flag R.STK_LINK.EN [j.val] = true) (hown : j.val ≠ ownId s) (hstate : linkState s j.val ≠ 0) :
    linkState (peerLoss s j.val) j.val = lkLost ∧ (stkLink (peerLoss s j.val) j.val).joined = false
      ∧ (j = 0 → (peerLoss s j.val).flag R.STK_STATUS.MASTER_LOST [] = true) := by
  have apart : ∀ j : Fin 4, Fld.apart R.STK_STATUS.MASTER_LOST R.STK_LINK.STATE [] [j.val] := by decide
  rw [peerLoss_eq hen hlink hown hstate]
  split
  next =>
    refine ⟨?_, ?_, fun _ => ?_⟩
    · exact (masterLost_rd _ (by decide)).trans ((State.rd_wr_apart _ _ (apart j)).trans (linkState_peerLost s j))
    · rw [stkLink, masterLost_stk]
      exact peerLost_joined s j.val
    · exact (State.flag_of_rd (masterLost_rd _ (by decide))).trans (State.flag_wr_same _ _ _ 1)
  next hne => exact ⟨linkState_peerLost s j, peerLost_joined s j.val, fun h0 => absurd (congrArg Fin.val h0) hne⟩

theorem peerLoss_now (s : State) (j : Nat) : (peerLoss s j).now = s.now := by
  have head := May.head
  have tail := May.tail
  exact (peerLoss_keeps (W := [.regs, .tu, .eth, .stk, .grn, .tly, .out]) (.refl s)).frame .now (by decide)

theorem peerTimeout_shows {s : State} {j : Fin 4} (hen : s.flag R.STK_CFG.EN [] = true)
    (hlink : s.flag R.STK_LINK.EN [j.val] = true) (hown : j.val ≠ ownId s) (hstate : linkState s j.val ≠ 0) :
    linkState (peerTimeout s j.val) j.val = lkLost ∧ (stkLink (peerTimeout s j.val) j.val).joined = false
      ∧ (stkLink s j.val).heardAt + max 1 (s.rd R.STK_CFG.LOSS_TIME []) * 1000000 ≤ (peerTimeout s j.val).now
      ∧ (j = 0 → (peerTimeout s j.val).flag R.STK_STATUS.MASTER_LOST [] = true) := by
  unfold peerTimeout
  generalize (stkLink s j.val).heardAt + max 1 (s.rd R.STK_CFG.LOSS_TIME []) * 1000000 = n
  have hown' : j.val ≠ ownId (clockTo s n) := by rw [ownId, clockTo_rd_above s n (by decide)]; exact hown
  have hstate' : linkState (clockTo s n) j.val ≠ 0 := by rw [linkState, clockTo_rd_above s n (by decide)]; exact hstate
  obtain ⟨hlost, hjoined, hmaster⟩ := peerLoss_shows ((State.flag_of_rd (clockTo_rd_above s n (by decide))).trans hen)
    ((State.flag_of_rd (clockTo_rd_above s n (by decide))).trans hlink) hown' hstate'
  exact ⟨hlost, hjoined, Nat.le_trans (le_clockTo_now s n) (Nat.le_of_eq (peerLoss_now _ _).symm), hmaster⟩

/-! Stack time. -/

/-- R550: a member's TIME word toward the master, once it is due. -/
def timeOpened (s : State) : State :=
  let (t3, s) := txStamp s (8 * linkOctet s 0) true
  let q := (s.tu.seq + 1) % 65536
  sendWord { s with tu := { s.tu with seq := q, t3 := some t3, timeAt := s.now } } 0 (timeWord 5 q t3)

theorem timeOpened_shows (s : State) : (timeOpened s).tu.seq = (s.tu.seq + 1) % 65536
    ∧ (timeOpened s).tu.t3.isSome = true ∧ (timeOpened s).tu.timeAt = (timeOpened s).now ∧ (timeOpened s).now = s.now := by
  have hnow : (txStamp s (8 * linkOctet s 0) true).2.now = s.now := rfl
  have htu : (txStamp s (8 * linkOctet s 0) true).2.tu = s.tu := rfl
  unfold timeOpened
  generalize txStamp s (8 * linkOctet s 0) true = y at hnow htu
  rw [← htu]
  exact ⟨rfl, rfl, rfl, hnow⟩

theorem timePeriod_eq {s : State} (htime : stkTime s = true) (hup : linkUp s 0 = true) :
    timePeriod s = timeOpened (clockTo s (s.tu.timeAt + max 1 (s.rd R.TU_STK.PERIOD []) * 10000000)) :=
  if_neg (by simp [htime, hup])

/-- R550: a member opens an exchange with the next sequence number, its transmission stamp and the time. -/
theorem timePeriod_shows {s : State} (htime : stkTime s = true) (hup : linkUp s 0 = true) :
    (timePeriod s).tu.seq = (s.tu.seq + 1) % 65536 ∧ (timePeriod s).tu.t3.isSome = true
      ∧ (timePeriod s).tu.timeAt = (timePeriod s).now
      ∧ s.tu.timeAt + max 1 (s.rd R.TU_STK.PERIOD []) * 10000000 ≤ (timePeriod s).now := by
  rw [timePeriod_eq htime hup]
  generalize s.tu.timeAt + max 1 (s.rd R.TU_STK.PERIOD []) * 10000000 = n
  obtain ⟨hseq, hstamp, hat, hnow⟩ := timeOpened_shows (clockTo s n)
  obtain ⟨t, pps, htu⟩ := clockTo_tu s n
  exact ⟨hseq.trans (by rw [htu]), hstamp, hat, Nat.le_trans (le_clockTo_now s n) (Nat.le_of_eq hnow.symm)⟩

theorem not_master_of_stkTime {s : State} (htime : stkTime s = true) : isMaster s = false := by
  unfold stkTime isMember at htime
  simp only [Bool.and_eq_true, Bool.not_eq_true'] at htime
  exact htime.1.2

/-- R550: TIME of the master gives a member t1, and its arrival t2. -/
theorem timeArrive_member {s : State} (seq t : Nat) (hup : linkUp s 0 = true) (htime : stkTime s = true) :
    (timeArrive s 0 seq t).tu = { s.tu with t1 := some t, t2 := (rxStamp s (8 * linkOctet s 0) true).1 } := by
  have hmaster : isMaster (rxStamp s (8 * linkOctet s 0) true).2 = false := not_master_of_stkTime htime
  have hmember : stkTime (rxStamp s (8 * linkOctet s 0) true).2 = true := htime
  unfold timeArrive
  rw [if_neg (by simp [hup])]
  dsimp only
  rw [hmaster, if_neg Bool.false_ne_true, if_pos (by simp [hmember])]
  rfl

section
variable (s : State)

theorem engineFour_tu (a b c d : Int) : (engineFour s a b c d).2.2.tu = s.tu := by
  have head := May.head
  exact (engineFour_keeps (W := [.free]) (.refl s)).frame .tu (by decide)

theorem engineTake_tu (off delay : Int) : (engineTake s off delay).1.tu = s.tu := by
  unfold engineTake
  split <;> rfl

theorem tuShow_tu : (tuShow s).tu = s.tu := by
  have head := May.head
  have tail := May.tail
  exact (tuShow_keeps (W := [.regs, .eth, .out]) (.refl s)).frame .tu (by decide)

/-- R546: the servo leaves the exchange with the master alone. -/
theorem onOffset_exchange (off : Int) : (onOffset s off).tu.t1 = s.tu.t1 ∧ (onOffset s off).tu.t3 = s.tu.t3 := by
  unfold onOffset
  dsimp only
  split
  · exact ⟨rfl, rfl⟩
  split
  · split
    · exact ⟨rfl, rfl⟩
    · exact ⟨rfl, rfl⟩
  · rw [tuShow_tu]
    exact ⟨rfl, rfl⟩

end

/-- R550: TIME_RPT of the open exchange closes it. -/
theorem timeRpt_closes {s : State} {seq a b : Nat} (t4 : Nat) (htime : stkTime s = true) (hseq : seq = s.tu.seq)
    (h1 : s.tu.t1 = some a) (h3 : s.tu.t3 = some b) :
    (timeRpt s 0 seq t4).tu.t1 = none ∧ (timeRpt s 0 seq t4).tu.t3 = none := by
  unfold timeRpt
  rw [if_neg (by simp [htime, hseq]), h1, h3]
  dsimp only
  generalize ((s.tu.t2 : Int) - _) = t2
  generalize ((b : Int) - _) = t3
  have hfour := engineFour_tu { s with tu := { s.tu with t1 := none, t3 := none } } a t2 t3 t4
  generalize engineFour _ a t2 t3 t4 = x at hfour
  obtain ⟨off, dly, u⟩ := x
  dsimp only at hfour ⊢
  have htake := (engineTake_tu u off dly).trans hfour
  generalize engineTake u off dly = y at htake
  obtain ⟨v, ok⟩ := y
  dsimp only at htake ⊢
  split
  · obtain ⟨e1, e3⟩ := onOffset_exchange (v.wr R.TU_STK_LINK.DELAY [0] (dly.toNat / 256)) off
    exact ⟨e1.trans (congrArg Tu.t1 htake), e3.trans (congrArg Tu.t3 htake)⟩
  · exact ⟨congrArg Tu.t1 htake, congrArg Tu.t3 htake⟩

/-! Shared state. -/

section
variable {s : State} (hen : s.flag R.STK_CFG.EN [] = true) (hmember : isMaster s = false) (seq : Nat)
include hen hmember

/-- R102: STATE_MARK 1 opens a snapshot. -/
theorem stateMark_opens : stateMark s 0 seq 1 =
    ({ s with stk := { s.stk with snap := some [], inbox := [] } }).wr R.STK_STATUS.RESYNC [] 1 :=
  if_neg (by simp [hen, hmember])

/-- R100: STATE_MARK 0 where no change waits acknowledges its sequence. -/
theorem stateMark_closes (hsnap : s.stk.snap = none) (hlost : s.flag R.STK_STATUS.MASTER_LOST [] = false)
    (hin : s.stk.inbox = []) : stateMark s 0 seq 0 = sendStateAck
      (({ s with stk := { s.stk with inbox := [] } }).wr R.STK_SEQ.STATE_SEQ [] seq) seq := by
  unfold stateMark
  rw [if_neg (by simp [hen, hmember])]
  dsimp only
  rw [if_neg (by simp [hsnap]), if_neg (by simp [hlost]), hin]
  rfl

end

/-- R102: a master that shares no entry and names no action opens its snapshot and closes it. -/
theorem snapshotOut_empty {s : State} (hen : s.flag R.STK_CFG.EN [] = true) (hmaster : isMaster s = true)
    (hacts : sharedActs (markOut s 1) = []) (hentries : sharedEntries (markOut s 1) = []) :
    snapshotOut s = markOut (markOut s 1) 2 := by
  unfold snapshotOut
  rw [if_neg (by simp [hen, hmaster])]
  dsimp only
  rw [hacts, List.foldl_nil, hentries, List.foldl_nil]

section
variable {s : State} (h : Awake s)
include h

theorem hello_does (j : Fin 4) (l : BitVec 8) (hears : linkHears s j.val = true) (hen : s.flag R.STK_CFG.EN [] = true)
    (hlink : s.flag R.STK_LINK.EN [j.val] = true) (hown : j.val ≠ ownId s) (hdup : linkState s j.val ≠ lkDup)
    (hlost : linkState s j.val ≠ lkLost) :
    Does (.hello j j l) s fun t => linkState t j.val = lkUp ∧ (l.toNat = 4 → t.flag R.STK_LINK.X4 [j.val] = true)
      ∧ (linkState s j.val = lkHello → t.out.length = s.out.length + 8) :=
  does_onLink h hears (f := fun s => helloArrive s j.val j.val l.toNat) rfl
    (helloArrive_shows (s := linkHeard s j.val) l.toNat hen hlink hown hdup hlost)

theorem keepalive_does (j : Fin 4) (b : BitVec 32) (x : Bool) (hears : linkHears s j.val = true) :
    Does (.keepalive j b x) s fun t => (stkLink t j.val).heardAt = s.now ∧ (stkLink t j.val).peerBeat = b.toNat := by
  refine does_onLink h hears (f := fun s => keepaliveArrive s j.val b.toNat) rfl ?_
  unfold keepaliveArrive
  rw [stkLink_putLink_same, stkLink_linkHeard]
  exact ⟨rfl, rfl⟩

theorem keepaliveTimer_does : Does .keepaliveTimer s fun t =>
    s.stk.beatAt + max 1 (s.rd R.STK_CFG.KA_PERIOD []) * 10000 ≤ t.now ∧ t.stk.beatAt = t.now
      ∧ ∀ j : Fin 4, stkLink t j.val = (if linkHears s j.val
        then { stkLink s j.val with beat := ((stkLink s j.val).beat + 1) % 2 ^ 32 } else stkLink s j.val) :=
  does_whenOn h (f := fun s => .next (keepaliveTick s)) rfl ⟨_, rfl, keepaliveTick_shows s⟩

theorem peerLossTimeout_does (j : Fin 4) (hen : s.flag R.STK_CFG.EN [] = true)
    (hlink : s.flag R.STK_LINK.EN [j.val] = true) (hown : j.val ≠ ownId s) (hstate : linkState s j.val ≠ 0) :
    Does (.peerLossTimeout j) s fun t => linkState t j.val = lkLost ∧ (stkLink t j.val).joined = false
      ∧ (stkLink s j.val).heardAt + max 1 (s.rd R.STK_CFG.LOSS_TIME []) * 1000000 ≤ t.now
      ∧ (j = 0 → t.flag R.STK_STATUS.MASTER_LOST [] = true) :=
  does_whenOn h (f := fun s => .next (peerTimeout s j.val)) rfl ⟨_, rfl, peerTimeout_shows hen hlink hown hstate⟩

theorem stackTimePeriod_does (htime : stkTime s = true) (hup : linkUp s 0 = true) :
    Does .stackTimePeriod s fun t => t.tu.seq = (s.tu.seq + 1) % 65536 ∧ t.tu.t3.isSome = true ∧ t.tu.timeAt = t.now
      ∧ s.tu.timeAt + max 1 (s.rd R.TU_STK.PERIOD []) * 10000000 ≤ t.now :=
  does_whenOn h (f := fun s => .next (timePeriod s)) rfl ⟨_, rfl, timePeriod_shows htime hup⟩

theorem time_does (q : BitVec 16) (sec : BitVec 48) (ns : BitVec 30) (f : BitVec 16) (htime : stkTime s = true)
    (hup : linkUp s 0 = true) :
    Does (.time 0 q sec ns f) s fun t => t.tu.t1 = some (tsMake sec.toNat ns.toNat f.toNat) ∧ t.tu.seq = s.tu.seq := by
  refine does_onLink h (j := 0) (linkHears_of_linkUp hup)
    (f := fun s => timeArrive s 0 q.toNat (tsMake sec.toNat ns.toNat f.toNat)) rfl ?_
  rw [timeArrive_member (s := linkHeard s 0) _ _ hup htime]
  exact ⟨rfl, rfl⟩

theorem timeRpt_does (q : BitVec 16) (sec : BitVec 48) (ns : BitVec 30) (f : BitVec 16) (a b : Nat)
    (htime : stkTime s = true) (hears : linkHears s 0 = true) (hseq : q.toNat = s.tu.seq) (h1 : s.tu.t1 = some a)
    (h3 : s.tu.t3 = some b) : Does (.timeRpt 0 q sec ns f) s fun t => t.tu.t1 = none ∧ t.tu.t3 = none :=
  does_onLink h (j := 0) hears (f := fun s => timeRpt s 0 q.toNat (tsMake sec.toNat ns.toNat f.toNat)) rfl
    (timeRpt_closes (s := linkHeard s 0) _ htime hseq h1 h3)

theorem stateMark_does (q : BitVec 32) (hen : s.flag R.STK_CFG.EN [] = true) (hears : linkHears s 0 = true)
    (hmember : isMaster s = false) :
    Does (.stateMark 0 q 1) s (fun t =>
        t.stk.snap = some [] ∧ t.stk.inbox = [] ∧ t.flag R.STK_STATUS.RESYNC [] = true)
      ∧ (s.stk.snap = none → s.flag R.STK_STATUS.MASTER_LOST [] = false → s.stk.inbox = [] →
        Does (.stateMark 0 q 0) s (fun t => t.rd R.STK_SEQ.STATE_SEQ [] = q.toNat
          ∧ t.out = s.out ++ [.unit 0 (ctlUnit (s.rd R.STK_CFG.STACK_ID []) 0
            ([8, 0, 0, 0] ++ beBytes 4 q.toNat ++ List.replicate 8 0))])) := by
  constructor
  · refine does_onLink h (j := 0) hears (f := fun s => stateMark s 0 q.toNat 1) rfl ?_
    rw [stateMark_opens (s := linkHeard s 0) hen hmember]
    exact ⟨rfl, rfl, State.flag_wr_same _ _ _ 1⟩
  · intro hsnap hlost hin
    refine does_onLink h (j := 0) hears (f := fun s => stateMark s 0 q.toNat 0) rfl ?_
    rw [stateMark_closes (s := linkHeard s 0) hen hmember _ hsnap hlost hin]
    exact ⟨(State.rd_wr_same _ _ _ _).trans (Nat.mod_eq_of_lt q.isLt), rfl⟩

theorem stateAck_does (j : Fin 4) (q : BitVec 32) (hears : linkHears s j.val = true) :
    Does (.stateAck j q) s fun t => SMap.find? t.stk.acks j.val = some q.toNat := by
  refine does_onLink h hears (f := fun s => stateAck s j.val q.toNat) rfl ?_
  unfold stateAck
  rw [SMap.find_ins_same, Nat.mod_eq_of_lt q.isLt]

theorem masterJoin_does (hen : s.flag R.STK_CFG.EN [] = true) (hmaster : isMaster s = true)
    (hacts : sharedActs (markOut s 1) = []) (hentries : sharedEntries (markOut s 1) = []) :
    Does .masterJoin s fun t => t = markOut (markOut s 1) 2 :=
  does_whenOn h (f := fun s => .next (snapshotOut s)) rfl ⟨_, rfl, snapshotOut_empty hen hmaster hacts hentries⟩

end

/-- Settles O21: each command that controls the stack, by the lemma that says what it leaves. -/
theorem stackControl : Obligations.StackControl := by
  unfold Obligations.StackControl
  exact ⟨fun j l _ h => hello_does h j l, fun j b x _ h => keepalive_does h j b x, fun _ h => keepaliveTimer_does h,
    fun j _ h => peerLossTimeout_does h j, fun _ h => stackTimePeriod_does h, fun q sec ns f _ h => time_does h q sec ns f,
    fun q sec ns f _ a b h => timeRpt_does h q sec ns f a b, fun q _ h => stateMark_does h q,
    fun j q _ h => stateAck_does h j q, fun _ h hen hmaster _ => masterJoin_does h hen hmaster⟩

end Sys2Proof.Machine
end

section
/-! The CTRL operations of Winnower and of the stack tables (O22): what each kind of record comes to where it is applied, then
the operations, each by the record it reads. -/

namespace Sys2Proof.Machine

open Sys2Proof

section
variable {s v : State} {arg : Nat} {b : Bytes}

/-- R131: the entry is placed, and the members hear of it where the table is shared. -/
theorem recInsert_ok (himg : entImageOk s (argTable arg) b = true)
    (hplaced : tblInsert s (argTable arg) b (bit arg 22) = .ok v) :
    recInsert arg s b = .ok (sharedChange v (argTable arg) 0x10 b) none := by
  unfold recInsert
  simp [himg, hplaced]

/-- R132: the entry of the record's key is removed. -/
theorem recDelete_ok (himg : entImageOk s (argTable arg) b = true)
    (hgone : tblDelete s (argTable arg) (entKey s (argTable arg) (slice b 0 (32 * tblSlots s (argTable arg)))) = some v) :
    recDelete arg s b = .ok (sharedChange v (argTable arg) 0x11 b) none := by
  unfold recDelete
  simp [himg, hgone]

/-- What TBL_READ writes over the head of the record `b` when it finds the entry `e` (R154). -/
def readBack (b e : Bytes) : Bytes :=
  byteOf (setBit (byteAt b 0) 3 (bit (byteAt e 0) 3)) :: slice b 1 3 ++ leBytes 4 (entAct e) ++ slice e 8 8

/-- The state after TBL_READ found its entry at `l`: ARG bit 23 clears HIT there (R154). -/
def hitTaken (arg : Nat) (s : State) (l : Loc) : State :=
  let e := entRead s (argTable arg) l
  if bit arg 23 then entWrite s (argTable arg) l (overlay e 0 [byteOf (setBit (byteAt e 0) 3 false)]) else s

theorem recRead_ok {l : Loc} (himg : entImageOk s (argTable arg) b = true)
    (hfound : findKey s (argTable arg) (entKey s (argTable arg) (slice b 0 (32 * tblSlots s (argTable arg)))) = some l) :
    recRead arg s b = .ok (hitTaken arg s l) (some (0, readBack b (entRead s (argTable arg) l))) := by
  unfold recRead
  simp only [himg, hfound, Bool.not_true, Bool.false_eq_true, if_false]
  rfl

/-- The state after ACT_WRITE of action `i`: a change of an action that a shared entry names goes to the members (R100,
R154). -/
def actWritten (s : State) (i : Nat) (x : Bytes) : State :=
  let w := putWin s { s.win with act := SMap.set zero32 s.win.act i x }
  if (sharedActs s).contains i then shareChange w (changeBytes 0x14 0 i x) else w

/-- R141, R157: an action is written, by the master alone where a shared entry names it. -/
theorem recAct_ok (hidx : recIndex b < 131072) (hok : actOk (recObj b 32) = true)
    (hmay : (isMember s && (sharedActs s).contains (recIndex b)) = false) :
    recAct arg s b = .ok (actWritten s (recIndex b) (recObj b 32)) none := by
  unfold recAct
  simp only [hok, hmay, Nat.not_le.mpr hidx, decide_false, Bool.not_true, Bool.or_false, Bool.false_eq_true, if_false]
  rfl

/-- The state after CNT_READ of counter `i`: ARG bit 23 clears it (R154). -/
def cntTaken (arg : Nat) (s : State) (i : Nat) : State :=
  if bit arg 23 then putWin s { s.win with cnt := SMap.set (0, 0) s.win.cnt i (0, 0) } else s

theorem recCnt_ok {p n : Nat} (hidx : recIndex b < 262144) (hcnt : SMap.get (0, 0) s.win.cnt (recIndex b) = (p, n)) :
    recCnt arg s b = .ok (cntTaken arg s (recIndex b)) (some (8, leBytes 8 p ++ leBytes 8 n ++ leBytes 8 0)) := by
  unfold recCnt
  simp only [if_neg (Nat.not_le.mpr hidx), hcnt]
  rfl

/-- An indexed record in range, of an object that passes, replaces its entry. -/
theorem recPut_ok {lim n : Nat} {ok : Bytes → Bool} {put : State → Nat → Bytes → State} (hidx : recIndex b < lim)
    (hok : ok (recObj b n) = true) : recPut lim ok n put s b = .ok (put s (recIndex b) (recObj b n)) none := by
  unfold recPut
  simp [hok, hidx]

/-- R676: program 0 is not written. -/
theorem recEdit_ok (hne : recIndex b ≠ 0) (hidx : recIndex b < 4096) (hok : progOk (recObj b 64) = true) :
    recEdit arg s b
      = .ok (putWin s { s.win with edit := SMap.set zero64 s.win.edit (recIndex b) (recObj b 64) }) none := by
  unfold recEdit
  rw [if_neg hne, recPut_ok hidx hok]

end

/-- A table operation on the descriptor at the head of ring `r`: its records are as wide as the table that ARG names
(R154, R482). -/
def tblRun (s : State) (r op : Nat) (x : RdRes) (change : Bool) (f : Nat → State → Bytes → RecRes) : State :=
  let t := match headOp s r 5 op with
    | some (_, d) => argTable (ctrlArg d)
    | none => 0
  ctrlRun s r op (32 * tblSlots s t) x (tblEarly change) f

theorem tblRun_head {s : State} {r op k : Nat} {d : Bytes} {x : RdRes} {change : Bool} {f : Nat → State → Bytes → RecRes}
    (hhead : headOp s r 5 op = some (k, d)) :
    tblRun s r op x change f = ctrlRun s r op (32 * tblSlots s (argTable (ctrlArg d))) x (tblEarly change) f := by
  unfold tblRun
  rw [hhead]

section
variable {c : Instr} {s u v : State} {op size k : Nat} {r : Fin 262144} {b d : Bytes} {f : Nat → State → Bytes → RecRes}
  (h : Awake s)
include h

/-- R155, R482: an operation whose one record is applied ends with SUCCESS and one record applied. -/
theorem does_ctrlRun (one : CtrlOne s r.val op size k d b u)
    (e : exec c s = whenUp s fun s => .next (ctrlRun s r.val op size (.ok b) noEarly f))
    (hrec : f (ctrlArg d) u (slice b 0 (ctrlStride size)) = .ok v none) :
    Does c s fun t => t = ctrlEnd v r.val k d stSuccess 1 :=
  does_whenUp h e ⟨_, rfl, ctrlRun_one one rfl hrec⟩

/-- R155, R482: the same of an operation on a table that serves it. -/
theorem does_tblRun {change : Bool} (one : CtrlOne s r.val op (32 * tblSlots s (argTable (ctrlArg d))) k d b u)
    (hserves : tblEarly change s (ctrlArg d) = none)
    (e : exec c s = whenUp s fun s => .next (tblRun s r.val op (.ok b) change f))
    (hrec : f (ctrlArg d) u (slice b 0 (ctrlStride (32 * tblSlots s (argTable (ctrlArg d))))) = .ok v none) :
    Does c s fun t => t = ctrlEnd v r.val k d stSuccess 1 :=
  does_whenUp h e ⟨_, rfl, (tblRun_head one.1).trans (ctrlRun_one one hserves hrec)⟩

/-- R481: an operation without records ends with SUCCESS, once it had its effect. -/
theorem does_ctrlPlain (g : State → State) (hhead : headOp s r.val 5 op = some (k, d))
    (e : exec c s = whenUp s fun s => .next (ctrlPlain s r.val op g)) :
    Does c s fun t => t = ctrlEnd (g s) r.val k d stSuccess 0 :=
  does_whenUp h e ⟨_, rfl, ctrlPlain_head hhead⟩

/-- R156: a commit switches `sel` to the other image. -/
theorem does_commit (sel : Fld) (hhead : headOp s r.val 5 op = some (k, d))
    (e : exec c s = whenUp s fun s => .next (ctrlPlain s r.val op fun s => s.wr sel [] (s.rd sel [] + 1))) :
    Does c s fun t => t = ctrlEnd (s.wr sel [] (s.rd sel [] + 1)) r.val k d stSuccess 0 :=
  does_ctrlPlain h (fun s => s.wr sel [] (s.rd sel [] + 1)) hhead e

end

/-- Settles O22: each operation by what its one record comes to, or by its own effect where it has no record. -/
theorem winnowerCtrl : Obligations.WinnowerCtrl := by
  unfold Obligations.WinnowerCtrl
  refine ⟨?tblInsert, ?tblDelete, ?tblRead, ?actWrite, ?nodeWrite, ?graphCommit, ?editWrite, ?tmplWrite, ?patWrite,
    ?patCommit, ?cntRead, ?fragFlush, ?stkDestWrite, ?stkDqmapWrite⟩
  case tblInsert =>
    exact fun _ _ _ _ _ _ _ h one hserves himg hplaced => does_tblRun h one hserves rfl (recInsert_ok himg hplaced)
  case tblDelete =>
    exact fun _ _ _ _ _ _ _ h one hserves himg hgone => does_tblRun h one hserves rfl (recDelete_ok himg hgone)
  case tblRead =>
    intro r b k d s u l h one hserves himg hfound
    have hrun := (tblRun_head one.1).trans (ctrlRun_back one hserves (recRead_ok himg hfound))
    rw [Nat.add_zero] at hrun
    exact does_whenUp h (f := fun s => .next (tblRun s r.val 0x12 (.ok b) false recRead)) rfl ⟨_, rfl, _, _, rfl, rfl, hrun⟩
  case actWrite => exact fun _ _ _ _ _ _ h one hidx hok hmay => does_ctrlRun h one rfl (recAct_ok hidx hok hmay)
  case nodeWrite => exact fun _ _ _ _ _ _ h one hidx hok => does_ctrlRun h one rfl (recPut_ok hidx hok)
  case graphCommit => exact fun _ _ _ _ h hhead => does_commit h R.WIN_GLB_CFG.GRAPH_SEL hhead rfl
  case editWrite => exact fun _ _ _ _ _ _ h one hne hidx hok => does_ctrlRun h one rfl (recEdit_ok hne hidx hok)
  case tmplWrite => exact fun _ _ _ _ _ _ h one hidx => does_ctrlRun h one rfl (recPut_ok hidx rfl)
  case patWrite => exact fun _ _ _ _ _ _ h one hidx hok => does_ctrlRun h one rfl (recPut_ok hidx hok)
  case patCommit => exact fun _ _ _ _ h hhead => does_commit h R.WIN_GLB_CFG.PAT_SEL hhead rfl
  case cntRead =>
    intro r b k d s u h one hidx
    have hrun := ctrlRun_back one (early := noEarly) rfl (recCnt_ok hidx rfl)
    exact does_whenUp h (f := fun s => .next (ctrlRun s r.val 0x1B 32 (.ok b) noEarly recCnt)) rfl
      ⟨_, rfl, _, _, _, rfl, rfl, hrun⟩
  case fragFlush =>
    exact fun _ _ _ _ h hhead => does_ctrlPlain h (fun s => fragShow (putWin s { s.win with frag := [] })) hhead rfl
  case stkDestWrite => exact fun _ _ _ _ _ _ h one hidx hok => does_ctrlRun h one rfl (recPut_ok hidx hok)
  case stkDqmapWrite => exact fun _ _ _ _ _ _ h one hidx => does_ctrlRun h one rfl (recPut_ok hidx rfl)

end Sys2Proof.Machine
end

section
/-! The cells, the queues and the deliveries of Granary (O19): each operation by its equation on the path it takes, then the
commands. -/

namespace Sys2Proof.Machine

open Sys2Proof

/-- R201: while a flushed frame has cells left, the next cell to return is one of its own. -/
theorem flushReturn_succ {s : State} {x : FlushEnt} {r : List FlushEnt} (k : Nat) (hflush : s.grn.flush = x :: r)
    (hleft : x.left ≠ 0) : flushReturn s (k + 1) = flushReturn (flushOne s x r) k := by
  rw [flushReturn, hflush]
  exact if_neg hleft

theorem grnShow_en (s : State) : (grnShow s).flag R.GRN_CFG.EN [] = s.flag R.GRN_CFG.EN [] :=
  State.flag_wr_apart _ _ (by decide)

/-- R174: EN follows a write that changes it, where the checks pass and no cell is in use. -/
theorem grnEnable_en {s : State} {en : Bool} (hchange : s.flag R.GRN_CFG.EN [] = !en) (hcheck : grnCheck s = 0)
    (hempty : cellsInUse s = 0) : (grnEnable s en).flag R.GRN_CFG.EN [] = en := by
  unfold grnEnable
  rw [hchange, hcheck, hempty]
  cases en with
  | true => exact (grnShow_en _).trans (State.flag_wr_same s _ _ 1)
  | false => exact State.flag_wr_same s _ _ 0

/-- R175: MIN is kept where the mapped queues' sum stays within RESERVE, or Granary is off. -/
theorem qprofMin_kept {s : State} {i v : Nat}
    (hfits : reserveSum (s.wr R.GRN_QPROF_W0.MIN [i] v) s.grn.qmap ≤ s.rd R.GRN_POOL.RESERVE []
      ∨ s.flag R.GRN_CFG.EN [] = false) : qprofMin s i v = s.wr R.GRN_QPROF_W0.MIN [i] v := by
  refine if_neg ?_
  rcases hfits with hsum | hoff
  · simp [hsum]
  · simp [hoff]

/-- R183: a write that leaves the headroom sum within HEADROOM is kept. -/
theorem headroomKeep_kept {s t : State} (hfits : headroomSum t ≤ s.rd R.GRN_POOL_HR.HEADROOM []) :
    headroomKeep s t = t := if_neg (by simp [hfits])

/-- R198: the deep frame at the head of a queue that has drained below half its threshold comes back. -/
theorem deepReturn_moves {s : State} {q errs pf ep : Nat} {x : QEnt} {r : List QEnt} (hdeep : deepList s q = x :: r)
    (hprof : queueProf s q = some pf) (hep : queueEp s q = some ep)
    (hdrained : qCells s q * 2 < s.rd R.GRN_QPROF_W2.SPILL_THRESH [pf]) (hfree : sharedFree s ≠ 0)
    (hon : s.flag R.GRN_CFG.EN [] = true) (hstored : s.grn.await.contains (q, x.fid) = false) :
    deepReturn s q errs = deepMove (((List.range x.deep.length).filter (bit errs)).foldl
      (fun s i => hbmFail s (deepAddr s (x.deep.getD i 0))) s) q ep x r ((List.range x.deep.length).filter (bit errs)) := by
  unfold deepReturn
  rw [hdeep, hprof, hep]
  exact if_neg (by rw [hstored]; simp [hdrained, hfree, hon])

/-- LONG_HAUL starts at bit 24 of its word and USED at bit 0, so that no egress point's USED is any profile's LONG_HAUL. -/
theorem portUsed_apart_longHaul (ep pf : Nat) : Fld.apart R.GRN_PORT_W1.USED R.GRN_QPROF_W0.LONG_HAUL [ep] [pf] := by
  refine .inr fun e => ?_
  simp [Fld.key, Fld.addr, dimOffset, R.GRN_PORT_W1.USED, R.GRN_QPROF_W0.LONG_HAUL] at e
  omega

theorem chargeQueue_longHaul (s : State) (q ep n pf : Nat) :
    (chargeQueue s q ep n).flag R.GRN_QPROF_W0.LONG_HAUL [pf] = s.flag R.GRN_QPROF_W0.LONG_HAUL [pf] :=
  State.flag_add_apart _ _ (portUsed_apart_longHaul ep pf)

theorem unchargeQueue_longHaul (s : State) (q ep n pf : Nat) :
    (unchargeQueue s q ep n).flag R.GRN_QPROF_W0.LONG_HAUL [pf] = s.flag R.GRN_QPROF_W0.LONG_HAUL [pf] :=
  State.flag_of_rd (State.rd_sub_apart _ _ (portUsed_apart_longHaul ep pf))

@[simp] theorem chargeQueue_prof (s : State) (q ep n i : Nat) : queueProf (chargeQueue s q ep n) i = queueProf s i := rfl
@[simp] theorem unchargeQueue_prof (s : State) (q ep n i : Nat) : queueProf (unchargeQueue s q ep n) i = queueProf s i := rfl

/-- R196: a frame to a queue that is not long-haul stays on the die. -/
theorem joinQueue_onDie {s : State} {q ep occ pf : Nat} {x : QEnt} (hprof : queueProf s q = some pf)
    (hnear : s.flag R.GRN_QPROF_W0.LONG_HAUL [pf] = false) : joinQueue s q ep occ x = enqueue s q ep x := by
  unfold joinQueue
  rw [hprof]
  exact if_pos (by simp [goesDeep, hnear])

/-- The queue entry of a multicast member's copy: its own edit program, or the group's where it names none (R192, R193). -/
def mcEnt (s : State) (w : McWait) (i : Nat) : QEnt :=
  { fid := w.fid, edit := if leAt (mcMember s i) 2 2 % 4096 = 0 then w.edit else leAt (mcMember s i) 2 2 % 4096,
    ct := false, bad := false, deep := [] }

/-- R192: a member whose queue is usable and on the die, and whose copy does not go back to its origin, is enqueued. -/
theorem mcOne_enqueues {s : State} {w : McWait} {m : Nat × Nat × Nat} {q pf ep : Nat}
    (hq : q = leAt (mcMember s m.1) 0 2) (hprof : queueProf s q = some pf) (hep : queueEp s q = some ep)
    (horigin : (bit (byteAt (mcMember s m.1) 4) 0 && ep == (gframe s w.fid).pkt.origin) = false)
    (hnear : s.flag R.GRN_QPROF_W0.LONG_HAUL [pf] = false) :
    mcOne s w m = enqueue (chargeQueue (unchargeQueue s m.2.1 m.2.2 (gframe s w.fid).cells.length) q ep
      (gframe s w.fid).cells.length) q ep (mcEnt s w m.1) := by
  subst hq
  unfold mcOne
  dsimp only
  rw [hprof, hep]
  dsimp only
  rw [horigin, if_neg Bool.false_ne_true, joinQueue_onDie (by simpa using hprof)]
  · rfl
  · rw [chargeQueue_longHaul, unchargeQueue_longHaul, hnear]

/-- R192: the first member of the oldest waiting group is taken from the list, then enqueued. -/
theorem mcEnqueue_one {s : State} {w : McWait} {l : List McWait} {m : Nat × Nat × Nat} {ms : List (Nat × Nat × Nat)}
    (hmc : s.grn.mc = w :: l) (hmembers : w.members = m :: ms) :
    mcEnqueue s 1
      = mcOne { s with grn := { s.grn with mc := if ms.isEmpty then l else { w with members := ms } :: l } } w m := by
  rw [mcEnqueue, hmc]
  dsimp only
  rw [hmembers]
  rfl

theorem filbertDeliver_stored {s : State} {d : Deliv} {r : List Deliv} {b : Nat} (hdeliv : s.grn.deliv = d :: r)
    (hbuf : freeBuf? { s with grn := { s.grn with deliv := r } } = some b) :
    filbertDeliver s = deliverInto { s with grn := { s.grn with deliv := r } } d b := by
  unfold filbertDeliver
  rw [hdeliv]
  dsimp only
  rw [hbuf]

theorem filbertDeliver_dropped {s : State} {d : Deliv} {r : List Deliv} (hdeliv : s.grn.deliv = d :: r)
    (hfull : freeBuf? { s with grn := { s.grn with deliv := r } } = none) :
    filbertDeliver s = (dropRef { s with grn := { s.grn with deliv := r } } d.fid).inc R.FIL_CNT.COUNT [5] := by
  unfold filbertDeliver
  rw [hdeliv]
  dsimp only
  rw [hfull]

section
variable {s : State} (h : Awake s)
include h

theorem flushCellReturn_does (n : Nat) (x : FlushEnt) (r : List FlushEnt) (hflush : s.grn.flush = x :: r)
    (hleft : x.left ≠ 0) : Does (.flushCellReturn n) s fun t => t = flushReturn (flushOne s x r) (31 + n) :=
  does_whenUp h (f := fun s => .next (flushReturn s (32 + n))) rfl
    ⟨_, rfl, by rw [show 32 + n = 31 + n + 1 by omega, flushReturn_succ _ hflush hleft]⟩

theorem granaryEnable_does (en : Bool) (hchange : s.flag R.GRN_CFG.EN [] = !en) (hcheck : grnCheck s = 0)
    (hempty : cellsInUse s = 0) : Does (.granaryEnable en) s fun t => t.flag R.GRN_CFG.EN [] = en :=
  does_fromHost h (f := fun s => .next (grnEnable s en)) rfl ⟨_, rfl, grnEnable_en hchange hcheck hempty⟩

theorem qprofMinWrite_does (i : Fin 64) (v : BitVec 20)
    (hfits : reserveSum (s.wr R.GRN_QPROF_W0.MIN [i.val] v.toNat) s.grn.qmap ≤ s.rd R.GRN_POOL.RESERVE []
      ∨ s.flag R.GRN_CFG.EN [] = false) :
    Does (.qprofMinWrite i v) s fun t => t = s.wr R.GRN_QPROF_W0.MIN [i.val] v.toNat :=
  does_fromHost h (f := fun s => .next (qprofMin s i.val v.toNat)) rfl ⟨_, rfl, qprofMin_kept hfits⟩

theorem inCfgWrite_does (i : Fin 144) (pri : BitVec 8) (f : Fin 16)
    (hfits : headroomSum ((s.wr R.GRN_IN_CFG_W0.LOSSLESS_PRI [i.val] pri.toNat).wr R.GRN_IN_CFG_W0.PFC_PROF [i.val] f.val)
      ≤ s.rd R.GRN_POOL_HR.HEADROOM []) :
    Does (.headroomConfigWrite (.inl (i, pri, f))) s fun t => t.rd R.GRN_IN_CFG_W0.LOSSLESS_PRI [i.val] = pri.toNat
      ∧ t.rd R.GRN_IN_CFG_W0.PFC_PROF [i.val] = f.val := by
  have apart : ∀ i : Fin 144, Fld.apart R.GRN_IN_CFG_W0.PFC_PROF R.GRN_IN_CFG_W0.LOSSLESS_PRI [i.val] [i.val] := by decide
  refine does_fromHost h (f := fun s => .next (inCfgWrite s i.val pri.toNat f.val)) rfl ⟨_, rfl, ?_⟩
  rw [inCfgWrite, headroomKeep_kept hfits, State.rd_wr_apart _ _ (apart i), State.rd_wr_same, State.rd_wr_same]
  exact ⟨Nat.mod_eq_of_lt pri.isLt, Nat.mod_eq_of_lt f.isLt⟩

theorem headroomWrite_does (j : Fin 16) (v : BitVec 20)
    (hfits : headroomSum (s.wr R.GRN_PFC_PROF_W2.HEADROOM [j.val] v.toNat) ≤ s.rd R.GRN_POOL_HR.HEADROOM []) :
    Does (.headroomConfigWrite (.inr (j, v))) s fun t => t.rd R.GRN_PFC_PROF_W2.HEADROOM [j.val] = v.toNat := by
  refine does_fromHost h (f := fun s => .next (headroomKeep s (s.wr R.GRN_PFC_PROF_W2.HEADROOM [j.val] v.toNat))) rfl
    ⟨_, rfl, ?_⟩
  rw [headroomKeep_kept hfits, State.rd_wr_same]
  exact Nat.mod_eq_of_lt v.isLt

theorem deepReturn_does (q : Fin 65536) (errs : BitVec 64) (x : QEnt) (r : List QEnt) (pf ep : Nat)
    (hdeep : deepList s q.val = x :: r) (hprof : queueProf s q.val = some pf) (hep : queueEp s q.val = some ep)
    (hdrained : qCells s q.val * 2 < s.rd R.GRN_QPROF_W2.SPILL_THRESH [pf]) (hfree : sharedFree s ≠ 0)
    (hon : s.flag R.GRN_CFG.EN [] = true) (hstored : s.grn.await.contains (q.val, x.fid) = false) :
    Does (.deepReturn q errs) s fun t => ∃ bad u, bad = (List.range x.deep.length).filter (fun i => bit errs.toNat i)
      ∧ u = bad.foldl (fun s i => hbmFail s (deepAddr s (x.deep.getD i 0))) s ∧ t = deepMove u q.val ep x r bad :=
  does_whenUp h (f := fun s => .next (deepReturn s q.val errs.toNat)) rfl
    ⟨_, rfl, _, _, rfl, rfl, deepReturn_moves hdeep hprof hep hdrained hfree hon hstored⟩

theorem multicastMemberEnqueue_does {u : State} {w : McWait} {l : List McWait} {m : Nat × Nat × Nat}
    {ms : List (Nat × Nat × Nat)} {q pf ep : Nat} (hmc : s.grn.mc = w :: l) (hmembers : w.members = m :: ms)
    (hq : q = leAt (mcMember s m.1) 0 2) (hprof : queueProf s q = some pf) (hep : queueEp s q = some ep)
    (horigin : (bit (byteAt (mcMember s m.1) 4) 0 && ep == (gframe s w.fid).pkt.origin) = false)
    (hnear : s.flag R.GRN_QPROF_W0.LONG_HAUL [pf] = false)
    (hu : u = { s with grn := { s.grn with mc := if ms.isEmpty then l else { w with members := ms } :: l } }) :
    Does (.multicastMemberEnqueue 1) s fun t => t = enqueue (chargeQueue (unchargeQueue u m.2.1 m.2.2
      (gframe s w.fid).cells.length) q ep (gframe s w.fid).cells.length) q ep (mcEnt s w m.1) := by
  subst hu
  exact does_whenUp h (f := fun s => .next (mcEnqueue s 1)) rfl
    ⟨_, rfl, (mcEnqueue_one hmc hmembers).trans (mcOne_enqueues hq hprof hep horigin hnear)⟩

theorem filbertDelivery_does (d : Deliv) (r : List Deliv) (hdeliv : s.grn.deliv = d :: r) :
    Does .filbertDelivery s fun t => ∃ u, u = { s with grn := { s.grn with deliv := r } }
      ∧ (∀ b, freeBuf? u = some b → t = deliverInto u d b)
      ∧ (freeBuf? u = none → t = (dropRef u d.fid).inc R.FIL_CNT.COUNT [5]) :=
  does_whenUp h (f := fun s => .next (filbertDeliver s)) rfl
    ⟨_, rfl, _, rfl, fun _ => filbertDeliver_stored hdeliv, filbertDeliver_dropped hdeliv⟩

/-- R165, R168: the failed bank word lies in the cell that its bank group, its pair and its row name. -/
theorem granarySramError_does (g : Fin 8) (p : Fin 4) (row : Fin 16384) (corrected : Bool) :
    Does (.granarySramError g p row corrected) s fun t =>
      t = sramError s ((4 * g.val + p.val) * 16384 + row.val) corrected :=
  does_whenUp h (f := fun s => .next (sramError s ((4 * g.val + p.val) * 16384 + row.val) corrected)) rfl ⟨_, rfl, rfl⟩

end

/-- Settles O19: each command of Granary's cells and queues, by the lemma that says what it leaves. -/
theorem granaryCells : Obligations.GranaryCells := by
  unfold Obligations.GranaryCells
  refine ⟨?flushCellReturn, ?granaryEnable, ?qprofMinWrite, ?headroomConfigWrite, ?deepReturn, ?multicastMemberEnqueue,
    ?filbertDelivery, ?granarySramError⟩
  case flushCellReturn => exact fun n _ x r h => flushCellReturn_does h n x r
  case granaryEnable => exact fun en _ h => granaryEnable_does h en
  case qprofMinWrite => exact fun i v _ h => qprofMinWrite_does h i v
  case headroomConfigWrite =>
    exact fun i pri f j v _ h hin hprof => ⟨inCfgWrite_does h i pri f hin, headroomWrite_does h j v hprof⟩
  case deepReturn => exact fun q errs _ x r pf ep h => deepReturn_does h q errs x r pf ep
  case multicastMemberEnqueue =>
    exact fun _ _ _ _ _ _ _ _ _ h hmc hmembers hq hprof hep horigin hnear hu =>
      multicastMemberEnqueue_does h hmc hmembers hq hprof hep horigin hnear hu
  case filbertDelivery => exact fun _ d r h => filbertDelivery_does h d r
  case granarySramError =>
    rintro g p row s _ h rfl
    exact ⟨granarySramError_does h g p row true, granarySramError_does h g p row false⟩

end Sys2Proof.Machine
end

section
/-! The CTRL operations on the tables of Granary and Tallyman (O23): what each kind of record comes to where it is applied, then
the operations, each by the record it reads. -/

namespace Sys2Proof.Machine

open Sys2Proof

section
variable {s : State} {arg : Nat} {b : Bytes}

/-- The queue-map entry that a QMAP_WRITE record holds: EN in bit 7, the profile in bits 5:0 (R204). -/
def qmapEnt (b : Bytes) : Nat := byteAt b 32 % 64 + 128 * (byteAt b 32 / 128)

/-- R175: while Granary is off, no sum of MIN refuses a queue's mapping. -/
theorem recQmap_ok (hidx : recIndex b < 65536) (hoff : s.flag R.GRN_CFG.EN [] = false) :
    recQmap arg s b
      = .ok { s with grn := { s.grn with qmap := SMap.set 0 s.grn.qmap (recIndex b) (qmapEnt b) } } none := by
  unfold recQmap
  simp only [hoff, if_neg (Nat.not_le.mpr hidx), Bool.false_and, Bool.false_eq_true, if_false]
  rfl

/-- R245: whether a write moves a member that is `busy`, with children or a backlog, to another parent or takes it away. -/
def rehomes (busy : Bool) (old new : Member) : Bool :=
  busy && old.valid && (!new.valid || new.root ≠ old.root || new.parent ≠ old.parent)

/-- The state after TLY_NODE_WRITE of node `i` (R225, R245). -/
def nodeWritten (s : State) (i : Nat) (m : Member) : State :=
  let w := shaperStart s (kNode i) (tNode s i) m
  memberMoved { w with tly := { w.tly with nodes := SMap.set Member.none w.tly.nodes i m } } (kNode i) (tNode s i) m

theorem recNode_ok (hidx : recIndex b < 4096) (hok : memberOk (memberOf (recObj b 32) true) = true)
    (hparent : parentOk s (some (recIndex b)) (memberOf (recObj b 32) true) 4 = true)
    (hstays : rehomes (children s (kNode (recIndex b)) ≠ []) (tNode s (recIndex b)) (memberOf (recObj b 32) true) = false) :
    recNode arg s b = .ok (nodeWritten s (recIndex b) (memberOf (recObj b 32) true)) none := by
  unfold recNode
  exact (if_neg (by simp [hok, hparent, hidx])).trans (if_neg (Bool.eq_false_iff.mp hstays))

/-- The state after QUEUE_WRITE of queue `i` (R225, R245). -/
def queueWritten (s : State) (i : Nat) (m : Member) : State :=
  let w := shaperStart s (kQueue i) (tQueue s i) m
  memberMoved { w with tly := { w.tly with queues := SMap.set Member.none w.tly.queues i m } } (kQueue i) (tQueue s i) m

theorem recQueue_ok (hidx : recIndex b < 65536) (hok : memberOk (memberOf (recObj b 16) false) = true)
    (hparent : parentOk s none (memberOf (recObj b 16) false) 5 = true)
    (hstays : rehomes (backlogged s (recIndex b)) (tQueue s (recIndex b)) (memberOf (recObj b 16) false) = false) :
    recQueue arg s b = .ok (queueWritten s (recIndex b) (memberOf (recObj b 16) false)) none := by
  unfold recQueue
  exact (if_neg (by simp [hok, hparent, hidx])).trans (if_neg (Bool.eq_false_iff.mp hstays))

theorem recPol_ok (hidx : recIndex b < 131072) (hok : polOk (polOf (recObj b 32) (polGet s (recIndex b))) = true) :
    recPol arg s b = .ok (polPut s (recIndex b) (polOf (recObj b 32) (polGet s (recIndex b)))) none := by
  unfold recPol
  exact if_neg (by simp [hok, hidx])

/-- The state after POL_CNT_READ of policer `i`: ARG bit 23 clears its counts (R242). -/
def polCntTaken (arg : Nat) (s : State) (i : Nat) : State :=
  if bit arg 23 then polPut s i { polGet s i with green := 0, yellow := 0, red := 0 } else s

theorem recPolCnt_ok (hidx : recIndex b < 131072) :
    recPolCnt arg s b = .ok (polCntTaken arg s (recIndex b)) (some (8, leBytes 8 (polGet s (recIndex b)).green
      ++ leBytes 8 (polGet s (recIndex b)).yellow ++ leBytes 8 (polGet s (recIndex b)).red)) := by
  unfold recPolCnt
  exact if_neg (Nat.not_le.mpr hidx)

/-- The state after GATE_WRITE of entry `i` of the list of egress point `e` that is not in operation (R231). -/
def gateWritten (s : State) (e i : Nat) (v : Bytes) : State :=
  let k := (e * 2 + (1 - operSel s e)) * 1024 + i
  { s with tly := { s.tly with gate := SMap.set (List.replicate 8 0) s.tly.gate k v } }

/-- R231: the administrative list of an egress point is written while no change of configuration is pending. -/
theorem recGate_ok (hidx : recIndex b < 1024) (hop : gateOp (recObj b 8) ≠ 3) (hns : 16 ≤ gateNs (recObj b 8))
    (hidle : s.flag R.TLY_GATE.PENDING [bits arg 16 7] = false) :
    recGate arg s b = .ok (gateWritten s (bits arg 16 7) (recIndex b) (recObj b 8)) none := by
  unfold recGate
  dsimp only
  rw [if_neg (by simp [hop, hidx, hns]), hidle, if_neg Bool.false_ne_true]
  rfl

/-- R242: an INDEX below 4,096 has bit 31 clear and names a node. -/
theorem recState_node (hidx : recIndex b < 4096) :
    recState arg s b = .ok s (some (8, leBytes 8 (ofSigned 64 (maxTok s (kNode (recIndex b))))
      ++ leBytes 8 (ofSigned 64 (minTok s (kNode (recIndex b)))) ++ leBytes 8 (fOf s (kNode (recIndex b))))) := by
  have hnode : bit (recIndex b) 31 = false := by
    unfold bit
    rw [Nat.div_eq_of_lt (by omega)]
    rfl
  unfold recState
  simp only [hnode, Nat.mod_eq_of_lt (show recIndex b < 2 ^ 31 by omega), Bool.false_eq_true, if_false,
    if_neg (Nat.not_le.mpr hidx)]

end

section
variable {c : Instr} {s u v : State} {op size k off : Nat} {r : Fin 262144} {b d y : Bytes} {f : Nat → State → Bytes → RecRes}

/-- R155, R482: an operation whose one record is applied and written back at `off` ends with SUCCESS and one record applied. -/
theorem does_ctrlRun_back (h : Awake s) (one : CtrlOne s r.val op size k d b u)
    (e : exec c s = whenUp s fun s => .next (ctrlRun s r.val op size (.ok b) noEarly f))
    (hrec : f (ctrlArg d) u (slice b 0 (ctrlStride size)) = .ok v (some (off, y))) :
    Does c s fun t => t = ctrlEnd (ringWrite v r.val (ctrlAddr d + off) y) r.val k d stSuccess 1 :=
  does_whenUp h e ⟨_, rfl, ctrlRun_back one rfl hrec⟩

end

/-- Settles O23: each operation by what its one record comes to. -/
theorem switchCtrl : Obligations.SwitchCtrl := by
  unfold Obligations.SwitchCtrl
  refine ⟨?mcGroupWrite, ?mcMemberWrite, ?qmapWrite, ?tlyNodeWrite, ?queueWrite, ?polWrite, ?polCntRead, ?gateWrite,
    ?stateRead⟩
  case mcGroupWrite => exact fun _ _ _ _ _ _ h one hidx hok => does_ctrlRun h one rfl (recPut_ok hidx hok)
  case mcMemberWrite => exact fun _ _ _ _ _ _ h one hidx => does_ctrlRun h one rfl (recPut_ok hidx rfl)
  case qmapWrite => exact fun _ _ _ _ _ _ h one hidx hoff => does_ctrlRun h one rfl (recQmap_ok hidx hoff)
  case tlyNodeWrite =>
    exact fun _ _ _ _ _ _ h one hidx hok hparent hstays => does_ctrlRun h one rfl (recNode_ok hidx hok hparent hstays)
  case queueWrite =>
    exact fun _ _ _ _ _ _ h one hidx hok hparent hstays => does_ctrlRun h one rfl (recQueue_ok hidx hok hparent hstays)
  case polWrite => exact fun _ _ _ _ _ _ h one hidx hok => does_ctrlRun h one rfl (recPol_ok hidx hok)
  case polCntRead =>
    intro r b k d s u h one hidx
    obtain ⟨t, ht, e⟩ := does_ctrlRun_back h one (c := .polCntRead r (.ok b)) rfl (recPolCnt_ok hidx)
    exact ⟨t, ht, _, _, rfl, rfl, e⟩
  case gateWrite => exact fun _ _ _ _ _ _ h one hidx hop hns hidle => does_ctrlRun h one rfl (recGate_ok hidx hop hns hidle)
  case stateRead =>
    intro r b k d s u h one hidx
    obtain ⟨t, ht, e⟩ := does_ctrlRun_back h one (c := .stateRead r (.ok b)) rfl (recState_node hidx)
    exact ⟨t, ht, _, rfl, e⟩

end Sys2Proof.Machine
end

section
/-! The egress points (O18): what each event comes to on the path it takes, then what a change of a gate shows in the gate's
registers. -/

namespace Sys2Proof.Machine

open Sys2Proof

section
variable {s : State} {e : Nat}

/-- R218: the choice of an egress point that holds no frame is what it holds next. -/
theorem egressSelect_sel (hfree : SMap.find? s.tly.sel e = none) :
    SMap.find? (egressSelect s e).tly.sel e = choose s e := by
  unfold egressSelect
  rw [hfree, if_neg (by simp)]
  cases choose s e with
  | none => exact hfree
  | some x => exact SMap.find_ins_same _ _ _

theorem egressSelect_frame (s : State) (e : Nat) : (egressSelect s e).regs = s.regs ∧ (egressSelect s e).grn = s.grn := by
  have head := May.head
  have k : Keeps [.tly] s (egressSelect s e) := egressSelect_keeps (.refl s)
  exact ⟨k.frame .regs (by decide), k.frame .grn (by decide)⟩

/-- R220: a displaced frame that its gate does not defer counts once, and the egress point selects anew. -/
theorem displace_reselects {x : Sel} (hsel : SMap.find? s.tly.sel e = some x)
    (hct : ((queueList s x.q).head?.map (·.ct)).getD false = false) (hdisp : displaced s e x = true)
    (hgate : gateDeferred (s.inc R.TLY_EP_CNT.COUNT [e, 2]) e x = false) :
    displace s e = egressSelect { s.inc R.TLY_EP_CNT.COUNT [e, 2] with
      tly := { s.tly with sel := SMap.del s.tly.sel e } } e := by
  unfold displace
  simp only [hsel, hct, hdisp, hgate, Bool.not_true, Bool.or_self, Bool.false_eq_true, if_false]
  rfl

theorem txSettle_idle (htx : SMap.find? s.eth.tx e = none) : txSettle s e = s := by
  unfold txSettle
  rw [htx]

theorem txFree_idle (htx : SMap.find? s.eth.tx e = none) (express : Bool) : txFree s e express = true := by
  unfold txFree
  rw [htx]

/-- R223: the selected frame of a ready egress point starts on the kind of transmitter that the point has. -/
theorem transmitStart_starts {x : Sel} {y : QEnt} {r : List QEnt} (under : Bool) (hsel : SMap.find? s.tly.sel e = some x)
    (hq : queueList s x.q = y :: r) (hready : epReady s e = true) (helig : y.ct = true ∨ selElig s e x = true)
    (htx : SMap.find? s.eth.tx e = none) (hdrop : egressDrop s e (gframe s y.fid) y (edited s y) = false) :
    transmitStart s e under =
      let v := startFrame s e x y r (edited s y)
      if e ≥ 128 then hostTransmit v e x.q (gframe s y.fid) y (edited s y)
      else if isSahrov v (e / 8) then sahrovTransmit v e x.q (gframe s y.fid) y (edited s y)
      else ethTransmit v e x.q (isExpress s e (tQueue s x.q).tc || !preemptOn s e) (gframe s y.fid) y (edited s y) under := by
  have hgoes : (!y.ct && !selElig s e x) = false := by
    rcases helig with h | h <;> simp [h]
  unfold transmitStart
  simp only [txSettle_idle htx, hsel, hq, hready, hgoes, txFree_idle htx, hdrop, Bool.not_true, Bool.and_false, Bool.or_self,
    Bool.false_eq_true, if_false]

/-- R232: a cycle boundary puts entry 0 in force, the end of an entry's interval the next one. -/
theorem gateEvent_applies {o : Oper} {b : Bool} (hoper : SMap.find? s.tly.oper e = some o)
    (hen : s.flag R.TLY_GATE.EN [e] = true) (hnext : b = true ∨ s.rd R.TLY_GATE_OPER.OPER_INDEX [e] + 1 < o.len) :
    gateEvent s e b = gateTx (gateApply s e (if b then 0 else s.rd R.TLY_GATE_OPER.OPER_INDEX [e] + 1)) e := by
  unfold gateEvent
  simp only [hoper, hen, Bool.not_true, Bool.false_eq_true, if_false]
  cases b with
  | true => rfl
  | false => exact if_pos (hnext.resolve_left Bool.false_ne_true)

end

/-- R248: a field of one of an egress point's gate registers. -/
abbrev Fld.OfGate (g : Fld) : Prop := g.dims = [(128, 0x40)] ∧ 0x09004000 ≤ g.base ∧ g.base < 0x09004040 ∧ g.lo < 32

namespace Fld.OfGate

section
variable {f g : Fld} (hg : g.OfGate)
include hg

theorem key_eq (e : Nat) : g.key [e] = 8 * (g.base + 64 * e) + g.lo := by
  rw [Fld.key, Fld.addr, hg.1]
  simp only [dimOffset]
  omega

/-- Two fields of one egress point's gate registers share no storage where their first instances share none. -/
theorem apart_gate (hf : f.OfGate) (e : Nat) (h : 8 * f.base + f.lo ≠ 8 * g.base + g.lo) : Fld.apart f g [e] [e] :=
  .inr (by rw [hf.key_eq, hg.key_eq]; omega)

/-- The gate registers of the 128 egress points lie from 0x09004000 to below 0x09008000. -/
theorem apart_outside {jx : List Nat} (e : Fin 128) (h : f.key jx < 8 * 0x09004000 ∨ 8 * 0x09008000 ≤ f.key jx) :
    Fld.apart f g jx [e.val] := by
  obtain ⟨-, hlow, hhigh, hlo⟩ := id hg
  refine .inr fun k => ?_
  rw [hg.key_eq] at k
  omega

theorem apart_cnt (e : Fin 128) (n : Nat) : Fld.apart R.TLY_CNT.COUNT g [n] [e.val] :=
  hg.apart_outside e (.inr (by simp only [Fld.key, Fld.addr, R.TLY_CNT.COUNT]; omega))

theorem apart_epCnt (e : Fin 128) (n : Nat) : Fld.apart R.TLY_EP_CNT.COUNT g [e.val, n] [e.val] :=
  hg.apart_outside e (.inr (by simp only [Fld.key, Fld.addr, R.TLY_EP_CNT.COUNT]; omega))

theorem apart_portCnt (e : Fin 128) : Fld.apart R.ETH_PORT_CNT.COUNT g [e.val / 8, e.val % 8, 18] [e.val] :=
  hg.apart_outside e (.inl (by simp only [Fld.key, Fld.addr, R.ETH_PORT_CNT.COUNT, dimOffset]; omega))

end

end Fld.OfGate

theorem State.rd_wr_gate (s : State) {f g : Fld} {e : Nat} (v : Nat) (hf : f.OfGate) (hg : g.OfGate)
    (h : 8 * f.base + f.lo ≠ 8 * g.base + g.lo) : (s.wr f [e] v).rd g [e] = s.rd g [e] :=
  s.rd_wr_apart v (hg.apart_gate hf e h)

theorem gateTx_tly (s : State) (e : Nat) : (gateTx s e).tly = s.tly := by
  have head := May.head
  have tail := May.tail
  exact (gateTx_keeps (W := [.regs, .eth, .out]) (.refl s)).frame .tly (by decide)

theorem gateApply_tly (s : State) (e i : Nat) : (gateApply s e i).tly = s.tly := by
  have head := May.head
  exact (gateApply_keeps (W := [.regs]) (.refl s)).frame .tly (by decide)

/-- R233, R234: what a gate does to the frame in transmission writes no gate register. -/
theorem gateTx_rd {g : Fld} (hg : g.OfGate) (s : State) (e : Fin 128) : (gateTx s e.val).rd g [e.val] = s.rd g [e.val] := by
  have cut (t u : TxNow) (n k : Nat) :
      ((setTx (cutTx s e.val t n).1 e.val u).inc R.TLY_EP_CNT.COUNT [e.val, k]).rd g [e.val] = s.rd g [e.val] :=
    (State.rd_inc_apart _ (hg.apart_epCnt e k)).trans (State.rd_inc_apart _ (hg.apart_portCnt e))
  unfold gateTx
  dsimp only
  repeat' split
  · rfl
  · rfl
  · rfl
  · rfl
  · exact cut _ _ _ _
  · exact cut _ _ _ _
  · rfl

/-- R233: beside its index and its gates, an entry in force shows in HOLD alone. -/
theorem gateApply_rd {g : Fld} (s : State) (e i : Nat) (hg : g.OfGate)
    (hhold : 8 * R.TLY_GATE.HOLD.base + R.TLY_GATE.HOLD.lo ≠ 8 * g.base + g.lo) :
    (gateApply s e i).rd g [e] = ((s.wr R.TLY_GATE_OPER.OPER_INDEX [e] i).wr R.TLY_GATE_OPER.OPER_GATES [e]
      (gateBits (gateEnt s e (operSel s e) i))).rd g [e] := by
  unfold gateApply
  dsimp only
  repeat' split
  · rfl
  · exact State.rd_wr_gate _ _ (by decide) hg hhold
  · exact State.rd_wr_gate _ _ (by decide) hg hhold
  · rfl

theorem gateApply_pending (s : State) (e i : Nat) :
    (gateApply s e i).rd R.TLY_GATE.PENDING [e] = s.rd R.TLY_GATE.PENDING [e] := by
  simp (disch := decide) only [gateApply_rd, State.rd_wr_gate]

theorem gateApply_index (s : State) (e i : Nat) : (gateApply s e i).rd R.TLY_GATE_OPER.OPER_INDEX [e] = i % 1024 := by
  simp (disch := decide) only [gateApply_rd, State.rd_wr_gate, State.rd_wr_same]
  rfl

/-- R237: the base time of an administrative list, in ns. -/
def gateBase (s : State) (e : Nat) : Nat :=
  (s.rd R.TLY_GATE_BASE_SEC_LO.BASE_SEC_LO [e] + 2 ^ 32 * s.rd R.TLY_GATE_BASE_SEC_HI.BASE_SEC_HI [e]) * 1000000000
    + s.rd R.TLY_GATE_BASE_NS.BASE_NS [e]

/-- The state in which list `o` is due at egress point `e` after `n` projections, before its time is shown (R237). -/
def listDue (s : State) (e : Nat) (o : Oper) (n : Nat) : State :=
  let u := { s with tly := { s.tly with pendOper := SMap.ins s.tly.pendOper e o } }
  if n > 0 then u.inc R.TLY_CNT.COUNT [4] else u

/-- R237: the due list's config change time shown, and the change pending. -/
def listPending (s : State) (e : Nat) (o : Oper) (n : Nat) : State :=
  ((((listDue s e o n).wr R.TLY_GATE_CCT_NS.CCT_NS [e] (o.base % 1000000000)).wr
    R.TLY_GATE_CCT_SEC_LO.CCT_SEC_LO [e] (o.base / 1000000000 % 2 ^ 32)).wr
    R.TLY_GATE_CCT_SEC_HI.CCT_SEC_HI [e] (o.base / 1000000000 / 2 ^ 32)).wr R.TLY_GATE.PENDING [e] 1

theorem listPending_due (s : State) (e : Nat) (o : Oper) (n : Nat) :
    SMap.find? (listPending s e o n).tly.pendOper e = some o := by
  have due : (listDue s e o n).tly.pendOper = SMap.ins s.tly.pendOper e o := by
    unfold listDue
    dsimp only
    split <;> rfl
  exact (congrArg (SMap.find? · e) due).trans (SMap.find_ins_same _ _ _)

theorem listPending_pending (s : State) (e : Nat) (o : Oper) (n : Nat) :
    (listPending s e o n).flag R.TLY_GATE.PENDING [e] = true := State.flag_wr_same _ _ _ 1

theorem listPending_cct (s : State) (e : Nat) (o : Oper) (n : Nat) :
    (listPending s e o n).rd R.TLY_GATE_CCT_NS.CCT_NS [e] = o.base % 1000000000 := by
  have width : R.TLY_GATE_CCT_NS.CCT_NS.width = 30 := rfl
  unfold listPending
  simp (disch := decide) only [State.rd_wr_gate, State.rd_wr_same, width]
  omega

/-- R236, R237: a change that passes its checks is pending, with the time that the base and the cycle give it. -/
theorem gateChange_pends {s : State} {e : Nat} (hidle : s.flag R.TLY_GATE.PENDING [e] = false) (hok : gateCheck s e = 0) :
    let cycle := s.rd R.TLY_GATE_CYCLE.CYCLE_NS [e]
    let cct := gateCct (gateBase s e) cycle s.tu.t
    gateChange s e =
      listPending s e { len := s.rd R.TLY_GATE_LEN.ADMIN_LEN [e], base := cct.1, cycle := cycle } cct.2 := by
  unfold gateChange
  rw [hidle, if_neg Bool.false_ne_true, hok]
  rfl

/-- R238: the state in which the list `o` has taken over at egress point `e`, before its entry 0 is put in force. -/
def listTaken (s : State) (e : Nat) (o : Oper) : State :=
  let u := { s with tly := { s.tly with oper := SMap.ins s.tly.oper e o, pendOper := SMap.del s.tly.pendOper e } }
  (((u.wr R.TLY_GATE.PENDING [e] 0).wr R.TLY_GATE.OPER_SEL [e] (1 - operSel u e)).wr
    R.TLY_GATE_OPER_CYCLE.OPER_CYCLE_NS [e] o.cycle).inc R.TLY_CNT.COUNT [3]

theorem gateTakeOver_takes {s : State} {e : Nat} {o : Oper} (hdue : SMap.find? s.tly.pendOper e = some o)
    (hpend : s.flag R.TLY_GATE.PENDING [e] = true) :
    gateTakeOver s e = gateTx (gateApply (listTaken s e o) e 0) e := by
  unfold gateTakeOver
  rw [hdue, hpend]
  rfl

theorem listTaken_pending (s : State) (e : Fin 128) (o : Oper) :
    (listTaken s e.val o).rd R.TLY_GATE.PENDING [e.val] = 0 := by
  unfold listTaken
  dsimp only
  rw [State.rd_inc_apart _ (Fld.OfGate.apart_cnt (by decide) e 3)]
  simp (disch := decide) only [State.rd_wr_gate, State.rd_wr_same]
  rfl

/-- R239: a disabled gate has no list, and every traffic class is open. -/
theorem gateDisable_shows (s : State) (e : Fin 128) :
    (gateDisable s e.val).tly = { s.tly with oper := SMap.del s.tly.oper e.val, pendOper := SMap.del s.tly.pendOper e.val }
      ∧ (gateDisable s e.val).rd R.TLY_GATE.EN [e.val] = 0
      ∧ (gateDisable s e.val).rd R.TLY_GATE_OPER.OPER_GATES [e.val] = 255 := by
  refine ⟨gateTx_tly _ _, ?_, ?_⟩ <;> unfold gateDisable <;> dsimp only
  · simp (disch := decide) only [gateTx_rd, State.rd_wr_gate, State.rd_wr_same]
    rfl
  · simp (disch := decide) only [gateTx_rd, State.rd_wr_gate, State.rd_wr_same]
    rfl

section
variable {s : State} (h : Awake s)
include h

theorem egressSelect_does (e : Fin 136) (hfree : SMap.find? s.tly.sel e.val = none) : Does (.egressSelect e) s fun t =>
    SMap.find? t.tly.sel e.val = choose s e.val ∧ t.regs = s.regs ∧ t.grn = s.grn :=
  does_whenUp h (f := fun s => .next (egressSelect s e.val)) rfl ⟨_, rfl, egressSelect_sel hfree, egressSelect_frame s e.val⟩

theorem selectionDisplace_does (e : Fin 136) (x : Sel) (hsel : SMap.find? s.tly.sel e.val = some x)
    (hct : ((queueList s x.q).head?.map (·.ct)).getD false = false) (hdisp : displaced s e.val x = true)
    (hgate : gateDeferred (s.inc R.TLY_EP_CNT.COUNT [e.val, 2]) e.val x = false) :
    Does (.selectionDisplace e) s fun t => ∃ u, u = s.inc R.TLY_EP_CNT.COUNT [e.val, 2]
      ∧ t = egressSelect { u with tly := { u.tly with sel := SMap.del u.tly.sel e.val } } e.val :=
  does_whenUp h (f := fun s => .next (displace s e.val)) rfl
    ⟨_, rfl, _, rfl, displace_reselects hsel hct hdisp hgate⟩

theorem frameTransmitStart_does (e : Fin 136) (under : Bool) (v : State) (x : Sel) (y : QEnt) (r : List QEnt)
    (hsel : SMap.find? s.tly.sel e.val = some x) (hq : queueList s x.q = y :: r) (hready : epReady s e.val = true)
    (helig : y.ct = true ∨ selElig s e.val x = true) (htx : SMap.find? s.eth.tx e.val = none)
    (hdrop : egressDrop s e.val (gframe s y.fid) y (edited s y) = false)
    (hv : v = startFrame s e.val x y r (edited s y)) :
    Does (.frameTransmitStart e under) s fun t =>
      (128 ≤ e.val → t = hostTransmit v e.val x.q (gframe s y.fid) y (edited s y))
      ∧ (e.val < 128 → isSahrov v (e.val / 8) = true → t = sahrovTransmit v e.val x.q (gframe s y.fid) y (edited s y))
      ∧ (e.val < 128 → isSahrov v (e.val / 8) = false → t = ethTransmit v e.val x.q
        (isExpress s e.val (tQueue s x.q).tc || !preemptOn s e.val) (gframe s y.fid) y (edited s y) under) := by
  have starts := transmitStart_starts under hsel hq hready helig htx hdrop
  rw [← hv] at starts
  refine does_whenUp h (f := fun s => .next (transmitStart s e.val under)) rfl
    ⟨_, rfl, fun hhost => ?_, fun hport hsah => ?_, fun hport heth => ?_⟩
  · exact starts.trans (if_pos hhost)
  · exact starts.trans ((if_neg (Nat.not_le.mpr hport)).trans (if_pos hsah))
  · exact starts.trans ((if_neg (Nat.not_le.mpr hport)).trans (if_neg (Bool.eq_false_iff.mp heth)))

theorem shaperRefill_does : Does .shaperRefill s fun t => ∃ u, u = refillTree s
    ∧ t = { u with tly := { u.tly with pol := SMap.mapVal (fun p => if p.valid then polRefill p else p) u.tly.pol } } :=
  does_whenUp h (f := fun s => .next (shaperRefill s)) rfl ⟨_, rfl, _, rfl, rfl⟩

theorem gateEvent_does (e : Fin 128) (b : Bool) (o : Oper) (hoper : SMap.find? s.tly.oper e.val = some o)
    (hen : s.flag R.TLY_GATE.EN [e.val] = true)
    (hnext : b = true ∨ s.rd R.TLY_GATE_OPER.OPER_INDEX [e.val] + 1 < o.len) :
    Does (.gateEvent e b) s fun t =>
      t = gateTx (gateApply s e.val (if b then 0 else s.rd R.TLY_GATE_OPER.OPER_INDEX [e.val] + 1)) e.val :=
  does_whenUp h (f := fun s => .next (gateEvent s e.val b)) rfl ⟨_, rfl, gateEvent_applies hoper hen hnext⟩

theorem gateChange_does (e : Fin 128) (hidle : s.flag R.TLY_GATE.PENDING [e.val] = false) (hok : gateCheck s e.val = 0) :
    Does (.gateChange e) s fun t => t.flag R.TLY_GATE.PENDING [e.val] = true
      ∧ ∃ o, SMap.find? t.tly.pendOper e.val = some o ∧ o.len = s.rd R.TLY_GATE_LEN.ADMIN_LEN [e.val]
        ∧ o.cycle = s.rd R.TLY_GATE_CYCLE.CYCLE_NS [e.val]
        ∧ t.rd R.TLY_GATE_CCT_NS.CCT_NS [e.val] = o.base % 1000000000 := by
  refine does_fromHost h (f := fun s => .next (gateChange s e.val)) rfl ⟨_, rfl, ?_⟩
  rw [gateChange_pends hidle hok]
  exact ⟨listPending_pending _ _ _ _, _, listPending_due _ _ _ _, rfl, rfl, listPending_cct _ _ _ _⟩

theorem gateConfigChange_does (e : Fin 128) (o : Oper) (hdue : SMap.find? s.tly.pendOper e.val = some o)
    (hpend : s.flag R.TLY_GATE.PENDING [e.val] = true) :
    Does (.gateConfigChange e) s fun t => SMap.find? t.tly.oper e.val = some o ∧ SMap.find? t.tly.pendOper e.val = none
      ∧ t.flag R.TLY_GATE.PENDING [e.val] = false ∧ t.rd R.TLY_GATE_OPER.OPER_INDEX [e.val] = 0 := by
  have pending : (gateTx (gateApply (listTaken s e.val o) e.val 0) e.val).rd R.TLY_GATE.PENDING [e.val] = 0 := by
    rw [gateTx_rd (by decide), gateApply_pending, listTaken_pending]
  refine does_whenUp h (f := fun s => .next (gateTakeOver s e.val)) rfl ⟨_, rfl, ?_⟩
  rw [gateTakeOver_takes hdue hpend, gateTx_tly, gateApply_tly, gateTx_rd (by decide), gateApply_index]
  exact ⟨SMap.find_ins_same _ _ _, SMap.find_del_same _ _, congrArg (· % 2 == 1) pending, rfl⟩

theorem gateDisable_does (e : Fin 128) : Does (.gateDisable e) s fun t => SMap.find? t.tly.oper e.val = none
    ∧ SMap.find? t.tly.pendOper e.val = none ∧ t.flag R.TLY_GATE.EN [e.val] = false
    ∧ t.rd R.TLY_GATE_OPER.OPER_GATES [e.val] = 255 := by
  obtain ⟨lists, en, gates⟩ := gateDisable_shows s e
  refine does_fromHost h (f := fun s => .next (gateDisable s e.val)) rfl ⟨_, rfl, ?_⟩
  rw [lists]
  exact ⟨SMap.find_del_same _ _, SMap.find_del_same _ _, congrArg (· % 2 == 1) en, gates⟩

end

/-- Settles O18: each event of an egress point, by the lemma that says what it leaves. -/
theorem egressPoint : Obligations.EgressPoint := by
  unfold Obligations.EgressPoint
  refine ⟨?egressSelect, ?selectionDisplace, ?frameTransmitStart, ?shaperRefill, ?gateEvent, ?gateChange, ?gateConfigChange,
    ?gateDisable⟩
  case egressSelect => exact fun e _ h => egressSelect_does h e
  case selectionDisplace => exact fun e _ x h => selectionDisplace_does h e x
  case frameTransmitStart => exact fun e under _ v x y r h => frameTransmitStart_does h e under v x y r
  case shaperRefill => exact fun _ h => shaperRefill_does h
  case gateEvent => exact fun e b _ o h => gateEvent_does h e b o
  case gateChange => exact fun e _ h => gateChange_does h e
  case gateConfigChange => exact fun e _ o h => gateConfigChange_does h e o
  case gateDisable => exact fun e _ h => gateDisable_does h e

end Sys2Proof.Machine
end

section
/-! What connections, data packets and descriptors of Carter come to on the path where nothing stops them (O24 to O26): the
rules of a connection whose window is on die, then the received packets, the control packets and timers, and the sender. -/

namespace Sys2Proof.Machine

open Sys2Proof

/-- A command of an awake block whose meaning is one state function answers what that function gives. -/
theorem does_step {i : Instr} {s t : State} (h : Awake s) (g : State → State)
    (e : exec i s = whenUp s fun s => .next (g s)) (q : g s = t) : Does i s fun v => v = t :=
  does_whenUp h e ⟨_, rfl, q⟩

section
variable {s : State} {n : Nat} {c : Conn}

theorem connMod_some (f : Conn → Conn) (hconn : connGet s n = some c) : connMod s n f = connPut s n (f c) := by
  unfold connMod
  rw [hconn]

/-- R280: the window of a SHORT connection is on die, and it reads as it was put. -/
theorem connGet_connPut_short (hshort : c.long = false) : connGet (connPut s n c) n = some c := by
  have hwin : winAddr n c = none := by simp [winAddr, hshort]
  simp [connPut, connGet, hwin, SMap.find_ins_same]

/-- R290: the packets of a connection without encryption go as they are, and need no lane. -/
theorem protect_plain (hplain : c.enc = false) (ctl : Bool) (x : Nat) (aad pay : Bytes) :
    protect s c ctl x aad pay = (some pay, s) := by simp [protect, hplain]

theorem laneOk_plain (hplain : c.enc = false) : laneOk s n c = true := by simp [laneOk, hplain]

end

theorem slice_zero (b : Bytes) (off : Nat) : slice b off 0 = [] := by simp [slice]

end Sys2Proof.Machine
end

section
/-! The data packets that pass the checks of Carter (O24), each by the placement or the response it comes to. -/

namespace Sys2Proof.Machine

open Sys2Proof

section
variable {s u : State} {op n : Nat} {h : Hap} {c : Conn} {p : Pkt} {x : Cth} {psn : Nat} {pay : Bytes}

/-- R281, R318: a WRITE is placed in its region. -/
theorem rxWrite_places {e : Conn} {g : MemRegion} (pass : DataPassed s op h u n c p x psn pay) (hop : op ≠ 2)
    (hconn : connGet u n = some e)
    (hregion : regionFor u n e (beAt x.ext 0 4) (beAt x.ext 8 8) x.payLen 0 h = some g) (hfault : h ≠ .fault)
    (hok : instOk (markPsn u n psn p x) g.inst = true)
    (hreach : (instReach s g.inst true [(beAt x.ext 8 8, x.payLen)]).1 = true) :
    rxWrite s op h = afterMark (instWrite (markPsn u n psn p x) g.inst (beAt x.ext 8 8) pay false) n e psn x := by
  obtain ⟨s1, s2, hhead, hopen, hdata⟩ := pass
  simp [rxWrite, hhead, hopen, hdata, hop, hconn, hregion, hfault, hok, hreach]

/-- R281, R318, R323: a WRITE_IMM is placed in its region and noted in its message's binding. -/
theorem rxWrite_notes {e : Conn} {g : MemRegion} {b : Binding} {v m : State} (pass : DataPassed s 2 h u n c p x psn pay)
    (hconn : connGet u n = some e)
    (hregion : regionFor u n e (beAt x.ext 0 4) (beAt x.ext 8 8) x.payLen 0 h = some g)
    (hbind : bindMsg u n e x = some (b, v)) (hm : m = bindNote (markPsn v n psn p x) n psn x) (hfault : h ≠ .fault)
    (hok : instOk m g.inst = true) (hreach : (instReach s g.inst true [(beAt x.ext 8 8, x.payLen)]).1 = true) :
    rxWrite s 2 h = afterMark (instWrite m g.inst (beAt x.ext 8 8) pay false) n e psn x := by
  subst hm
  obtain ⟨s1, s2, hhead, hopen, hdata⟩ := pass
  simp [rxWrite, hhead, hopen, hdata, hconn, hregion, hbind, hfault, hok, hreach]

/-- R281, R323: a SEND is placed in the receive entry that its message is bound to. -/
theorem rxSend_places {e : Conn} {b : Binding} {v m : State} (pass : DataPassed s op h u n c p x psn pay)
    (hconn : connGet u n = some e) (hbind : bindMsg u n e x = some (b, v)) (hlive : b.flushed = false)
    (hroom : beAt x.ext 0 4 + pay.length ≤ b.ent.len) (hm : m = bindNote (markPsn v n psn p x) n psn x)
    (hfault : h ≠ .fault) (hok : instOk m e.inst = true)
    (hreach : (instReach s e.inst true [(b.ent.addr + beAt x.ext 0 4, pay.length)]).1 = true) :
    rxSend s op h = afterMark (instWrite m e.inst (b.ent.addr + beAt x.ext 0 4) pay false) n e psn x := by
  subst hm
  obtain ⟨s1, s2, hhead, hopen, hdata⟩ := pass
  simp [rxSend, hhead, hopen, hdata, hconn, hbind, hlive, Nat.not_lt.mpr hroom, hfault, hok, hreach]

/-- R281: a READ_REQ of some bytes queues the response of what its region holds. -/
theorem rxReadReq_responds {g : MemRegion} {b : Bytes} {m : State} (pass : DataPassed s 5 h u n c p x psn pay)
    (hm : m = markPsn u n psn p x)
    (hregion : regionFor u n c (beAt x.ext 0 4) (beAt x.ext 8 8) (beAt x.ext 16 4) 1 h = some g)
    (hlen : beAt x.ext 16 4 ≠ 0) (hok : instOk m g.inst = true)
    (hfetch : (instFetch s g.inst [(beAt x.ext 8 8, beAt x.ext 16 4)] (.ok b)).1 = true) :
    rxReadReq s (.ok b) h = afterMark (queueResp (instFetch m g.inst [(beAt x.ext 8 8, beAt x.ext 16 4)] (.ok b)).2
      n 6 x.msg (slice b 0 (beAt x.ext 16 4))) n c psn x := by
  subst hm
  obtain ⟨s1, s2, hhead, hopen, hdata⟩ := pass
  simp [rxReadReq, hhead, hopen, hdata, hregion, hlen, hok, hfetch]

/-- The work that a response of opcode `op` answers: a READ or an ATOMIC of its connection and message that has not ended. -/
def answers (op n : Nat) (x : Cth) (w : Work) : Bool :=
  w.conn == n && w.msg == beAt x.ext 0 4 && w.ended.isNone && w.op == (if op = 6 then 5 else 7)

/-- A work with `len` more bytes of its response placed (R286). -/
def workGot (w : Work) (len : Nat) : Work :=
  { w with got := w.got + len, ended := if w.got + len ≥ w.len then some (stSuccess, w.len) else none }

/-- R281, R286: a response is placed for the descriptor that waits for it. -/
theorem rxResp_places {w : Work} {r k : Nat} {d : Bytes} {m : State} (pass : DataPassed s op h u n c p x psn pay)
    (hm : m = markPsn u n psn p x) (hwait : u.car.works.find? (answers op n x) = some w)
    (hstill : m.car.works.find? (answers op n x) = some w) (hsrc : w.src = .ring r k d)
    (hroom : beAt x.ext 4 4 + x.payLen ≤ w.len) (hfault : h ≠ .fault) (hok : instOk m c.inst = true)
    (hreach : (instReach s c.inst true [(w.addr + beAt x.ext 4 4, x.payLen)]).1 = true) :
    rxResp s op h = afterMark (modWorks (instWrite m c.inst (w.addr + beAt x.ext 4 4) pay false)
      (fun y => if y == w then workGot w x.payLen else y)) n c psn x := by
  subst hm
  obtain ⟨s1, s2, hhead, hopen, hdata⟩ := pass
  unfold answers at hwait hstill
  simp [rxResp, hhead, hopen, hdata, hwait, hstill, hsrc, Nat.not_lt.mpr hroom, hfault, hok, hreach, workGot]

/-- What an ATOMIC leaves where it found `old`: compare-and-swap where byte 4 of its header is 1, else
fetch-and-add (R325). -/
def atomicNew (x : Cth) (old : Nat) : Nat :=
  if byteAt x.ext 4 = 1 then (if old = beAt x.ext 16 8 then beAt x.ext 24 8 else old) else (old + beAt x.ext 16 8) % 2 ^ 64

section
variable {g : MemRegion} {b : Bytes} {a f : Nat} {m : State} (pass : DataPassed s 7 h u n c p x psn pay)
  (hm : m = markPsn u n psn p x) (halign : beAt x.ext 8 8 % 8 = 0)
  (hregion : regionFor u n c (beAt x.ext 0 4) (beAt x.ext 8 8) 8 2 h = some g) (hfn : instFn u g.inst = (a, f))
  (hok : instOk m g.inst = true) (hreach : (instReach s g.inst true [(beAt x.ext 8 8, 8)]).1 = true)
include pass hm halign hregion hfn hok hreach

/-- R325: Carter applies an ATOMIC where the function has no PCIe atomics. -/
theorem rxAtomic_applies (hlocal : bit (cfgGet u a f 34) 6 = false)
    (hfetch : (instFetch s g.inst [(beAt x.ext 8 8, 8)] (.ok b)).1 = true) :
    rxAtomic s (.ok b) h = afterMark (queueResp (instWrite (instFetch m g.inst [(beAt x.ext 8 8, 8)] (.ok b)).2 g.inst
      (beAt x.ext 8 8) (leBytes 8 (atomicNew x (leAt b 0 8))) false) n 8 x.msg (leBytes 8 (leAt b 0 8))) n c psn x := by
  subst hm
  obtain ⟨s1, s2, hhead, hopen, hdata⟩ := pass
  simp [rxAtomic, hhead, hopen, hdata, halign, hregion, hfn, hok, hreach, hlocal, hfetch, atomicNew]

/-- R325: the host applies an ATOMIC where the function has PCIe atomics. -/
theorem rxAtomic_forwards (hhost : bit (cfgGet u a f 34) 6 = true) :
    rxAtomic s (.ok b) h = afterMark (queueResp (sendTlp m a (.hostAtomic a f
      (reqAddr m a f (instPasid m g.inst) (beAt x.ext 8 8)) (decide (byteAt x.ext 4 = 1)) (beAt x.ext 16 8) (beAt x.ext 24 8)
      (instPasid m g.inst))) n 8 x.msg (leBytes 8 (leAt b 0 8))) n c psn x := by
  subst hm
  obtain ⟨s1, s2, hhead, hopen, hdata⟩ := pass
  simp [rxAtomic, hhead, hopen, hdata, halign, hregion, hfn, hok, hreach, hhost]

end

end

/-- Settles O24: each packet by the lemma that says where its bytes go. -/
theorem carterReceive : Obligations.CarterReceive := by
  unfold Obligations.CarterReceive
  refine ⟨?wireWrite, ?wireWriteImm, ?wireSend, ?wireSendImm, ?readReq, ?readResp, ?atomicResp, ?wireAtomic⟩
  case wireWrite =>
    rintro h s u _ n c p x psn pay e g awake pass hconn rfl hregion hfault hok hreach
    exact does_step awake (rxWrite · 1 h) rfl (rxWrite_places pass (by decide) hconn hregion hfault hok hreach)
  case wireWriteImm =>
    intro h s u m n c p x psn pay e g b v awake pass hconn hregion hbind hm hfault hok _ hreach
    exact does_step awake (rxWrite · 2 h) rfl (rxWrite_notes pass hconn hregion hbind hm hfault hok hreach)
  case wireSend =>
    intro h s u m n c p x psn pay e b v awake pass hconn hbind hlive hroom hm hfault hok hreach
    exact does_step awake (rxSend · 3 h) rfl (rxSend_places pass hconn hbind hlive hroom hm hfault hok hreach)
  case wireSendImm =>
    intro h s u m n c p x psn pay e b v awake pass hconn hbind hlive hroom hm hfault hok hreach
    exact does_step awake (rxSend · 4 h) rfl (rxSend_places pass hconn hbind hlive hroom hm hfault hok hreach)
  case readReq =>
    intro h s u m n c p x psn pay g b awake pass hm hregion hlen hok hfetch
    exact does_step awake (rxReadReq · (.ok b) h) rfl (rxReadReq_responds pass hm hregion hlen hok hfetch)
  case readResp =>
    intro h s u m n c p x psn pay w r k d awake pass hm hwait hstill hsrc hroom hfault _ hok hreach
    exact does_step awake (rxResp · 6 h) rfl (rxResp_places pass hm hwait hstill hsrc hroom hfault hok hreach)
  case atomicResp =>
    intro h s u m n c p x psn pay w r k d awake pass hm hwait hstill hsrc hroom hfault _ hok hreach
    exact does_step awake (rxResp · 8 h) rfl (rxResp_places pass hm hwait hstill hsrc hroom hfault hok hreach)
  case wireAtomic =>
    intro h s u m n c p x psn pay g b a f awake pass hm halign hregion hfn hok hreach
    exact ⟨fun hlocal hfetch => does_step awake (rxAtomic · (.ok b) h) rfl
        (rxAtomic_applies pass hm halign hregion hfn hok hreach hlocal hfetch),
      fun hhost => does_step awake (rxAtomic · (.ok b) h) rfl
        (rxAtomic_forwards pass hm halign hregion hfn hok hreach hhost)⟩

end Sys2Proof.Machine
end

section
/-! The control packets and the timers of Carter (O25). -/

namespace Sys2Proof.Machine

open Sys2Proof

section
variable {s u : State} {n : Nat} {c : Conn} {p : Pkt} {x : Cth} {q : Nat}

/-- R273: an ACK without an echo, of PSNs that were sent, frees what it covers and takes its limit. -/
theorem rxAck_frees (hhead : ctlHead s 0x10 = (u, some (n, c, p, x, q)))
    (hcum : extend c.nextPsn (beAt x.ext 0 4) ≤ (c.nextPsn : Int))
    (hsack : (sackRanges c x.ext).any (fun r => decide (r.2 ≥ (c.nextPsn : Int))) = false)
    (hecho : bit (byteAt x.ext 24) 4 = false) :
    rxAck s = afterAck (connPut u n (takeLimit (ackPsns c (extend c.nextPsn (beAt x.ext 0 4)).toNat
      (((sackRanges c x.ext).filter (fun r => decide (0 ≤ r.2))).map (fun r => (r.1.toNat, r.2.toNat))))
      (beAt x.ext 4 4))) n := by
  unfold rxAck
  simp only [hhead, hsack, hecho, decide_eq_false (Int.not_lt.mpr hcum), gt_iff_lt, Bool.or_self, Bool.false_eq_true,
    if_false]

/-- R274: a NAK of REMOTE_FAULT is an acknowledgement that fails the connection. -/
theorem rxNak_remoteFault (hhead : ctlHead s 0x11 = (u, some (n, c, p, x, q))) (hcode : byteAt x.ext 8 = 4)
    (hcum : extend c.nextPsn (beAt x.ext 0 4) ≤ (c.nextPsn : Int)) :
    rxNak s = connFail (afterAck (carCount (connPut u n (takeLimit
      (ackPsns c (extend c.nextPsn (beAt x.ext 0 4)).toNat []) (beAt x.ext 4 4))) n 22) n) n csRemoteFault := by
  unfold rxNak
  simp [hhead, hcode, Int.not_lt.mpr hcum]

/-- R266: a CREDIT gives its limit. -/
theorem rxCredit_gives (hhead : ctlHead s 0x12 = (u, some (n, c, p, x, q))) (hgives : bit (byteAt x.ext 4) 0 = false) :
    rxCredit s = connPut u n (takeLimit c (beAt x.ext 0 4)) := by
  unfold rxCredit
  simp [hhead, hgives]

/-- R268: a CREDIT that retracts is answered by a CREDIT_RPT under its CSEQ. -/
theorem rxCredit_retracts (hhead : ctlHead s 0x12 = (u, some (n, c, p, x, q)))
    (hretracts : bit (byteAt x.ext 4) 0 = true) :
    rxCredit s = sendRpt (connPut u n { c with limit := later (beAt x.ext 0 4) c.cposSent, rptFor := some (q % 2 ^ 32) })
      n (q % 2 ^ 32) := by
  unfold rxCredit
  simp [hhead, hretracts]

/-- R268: a CREDIT_RPT ends the retraction whose CSEQ it carries. -/
theorem rxReport_ends {a l : Nat} (hhead : ctlHead s 0x13 = (u, some (n, c, p, x, q))) (hretract : c.retract = some (a, l))
    (hcseq : a % 2 ^ 32 = beAt x.ext 4 4) :
    rxReport s = connPut u n { c with
      granted := later l (beAt x.ext 0 4), lastLimit := later l (beAt x.ext 0 4), retract := none } := by
  unfold rxReport
  simp only [hhead, hretract, hcseq, if_true]

end

section
variable {s : State} {n : Nat} {c : Conn}

/-- The timer of a connection that sends, where what it is for is due: remembered off die, its effect on die (R309). -/
theorem connTimer_due {o : Owed} {due : Conn → Bool} (t : Conn → Nat) (f : State → Conn → State)
    (hconn : connGet s n = some c) (hst : c.st = .active ∨ c.st = .draining) (hdue : due c = true) :
    connTimer s n o due t f
      = if c.tier ≠ .onDie then oweTimer (clockTo s (t c)) n o else f (clockTo s (t c)) c := by
  unfold connTimer
  rw [hconn]
  exact if_neg (by simpa [hdue] using hst.resolve_left)

/-- R277: a connection whose retransmission timer ran out: its timer backs off, and what it sent is lost. -/
def backedOff (c : Conn) : Conn :=
  { c with
    expiries := c.expiries + 1, backoff := if c.rto * 2 ^ c.backoff < c.rtoMax then c.backoff + 1 else c.backoff,
    recs := c.recs.map (fun r => if r.st == .sent then { r with st := .lost } else r) }

theorem rtoExpire_due (hconn : connGet s n = some c) (hst : c.st = .active ∨ c.st = .draining) (hrecs : c.recs ≠ []) :
    rtoExpire s n = if c.tier ≠ .onDie then oweTimer (clockTo s (rtoDue c)) n .rto
      else if c.retryMax ≤ c.expiries + 1 then connFail (clockTo s (rtoDue c)) n csTimeout
      else connPut (clockTo s (rtoDue c)) n (backedOff c) := by
  unfold rtoExpire
  rw [hconn]
  exact if_neg (by simpa [hrecs] using hst.resolve_left)

/-- When the NO_BUFFER delay of a PSN ends (R294). -/
def rnrDue (c : Conn) (psn : Nat) : Nat :=
  ((c.recs.find? (fun r => r.st == .rnrWait && r.psn % 2 ^ 32 == psn)).map (fun r => r.rnrAt + c.rnrDelay * 10)).getD 0

theorem rnrExpire_due (psn : Nat) (hconn : connGet s n = some c) :
    rnrExpire s n psn = if c.tier ≠ .onDie then oweTimer (clockTo s (rnrDue c psn)) n (.rnr psn)
      else connPut (clockTo s (rnrDue c psn)) n { c with
        recs := c.recs.map (fun r => if r.st == .rnrWait && r.psn % 2 ^ 32 == psn then { r with st := .lost } else r) } := by
  unfold rnrExpire
  rw [hconn]
  rfl

/-- A timer of an awake block: remembered as `a` says where the context is off die, with the effect `b` where it is on
die. -/
theorem does_timer {i : Instr} {a b : State} (h : Awake s) (g : State → State)
    (e : exec i s = whenUp s fun s => .next (g s)) (q : g s = if c.tier ≠ .onDie then a else b) :
    Does i s fun t => (c.tier ≠ .onDie → t = a) ∧ (c.tier = .onDie → t = b) :=
  does_whenUp h e ⟨_, rfl, fun hoff => q.trans (if_pos hoff), fun hon => q.trans (if_neg (not_not_intro hon))⟩

end

/-- Settles O25: each control packet by what it leaves, each timer by the two sides of R309. -/
theorem carterControl : Obligations.CarterControl := by
  unfold Obligations.CarterControl
  refine ⟨?ack, ?nak, ?creditGives, ?creditRetracts, ?creditRpt, ?retransmitTimeout, ?rnrDelayExpiry, ?creditRepeat,
    ?creditRptRepeat, ?ackDelayExpiry⟩
  case ack =>
    exact fun _ _ _ _ _ _ _ h hhead hcum hsack hecho => does_step h rxAck rfl (rxAck_frees hhead hcum hsack hecho)
  case nak => exact fun _ _ _ _ _ _ _ h hhead hcode hcum => does_step h rxNak rfl (rxNak_remoteFault hhead hcode hcum)
  case creditGives => exact fun _ _ _ _ _ _ _ h hhead hgives => does_step h rxCredit rfl (rxCredit_gives hhead hgives)
  case creditRetracts =>
    exact fun _ _ _ _ _ _ _ h hhead hretracts => does_step h rxCredit rfl (rxCredit_retracts hhead hretracts)
  case creditRpt =>
    exact fun _ _ _ _ _ _ _ _ _ h hhead hretract hcseq => does_step h rxReport rfl (rxReport_ends hhead hretract hcseq)
  case retransmitTimeout =>
    rintro n c s _ h hconn hst hrecs rfl
    obtain ⟨t, ht, hoff, hon⟩ :=
      does_timer h (i := .retransmitTimeout n) (rtoExpire · n) rfl (rtoExpire_due hconn hst hrecs)
    exact ⟨t, ht, hoff, fun htier hmax => (hon htier).trans (if_pos hmax),
      fun htier hmore => (hon htier).trans (if_neg (Nat.not_le.mpr hmore))⟩
  case rnrDelayExpiry =>
    rintro n p c s _ h hconn rfl
    exact does_timer h (rnrExpire · n p.toNat) rfl (rnrExpire_due p.toNat hconn)
  case creditRepeat =>
    rintro n c s _ h hconn hst hcredited rfl
    exact does_timer h (creditRepeat · n) rfl (connTimer_due _ _ hconn hst (by rw [hcredited]; rfl))
  case creditRptRepeat =>
    rintro n c q s _ h hconn hst hrpt rfl
    have hdue := connTimer_due (o := .report) (due := fun c => c.rptFor.isSome) (fun c => c.rptAt + c.rto * 10)
      (fun s c => sendRpt s n (c.rptFor.getD 0)) hconn hst (by rw [hrpt]; rfl)
    rw [hrpt] at hdue
    exact does_timer h (reportRepeat · n) rfl hdue
  case ackDelayExpiry =>
    rintro n c s _ h hconn hst hunacked rfl
    exact does_timer h (ackDelayEnd · n) rfl (connTimer_due _ _ hconn hst (decide_eq_true hunacked))

end Sys2Proof.Machine
end

section
/-! The sender of Carter (O26): the packets it sends and sends again, then the descriptors that start a message. -/

namespace Sys2Proof.Machine

open Sys2Proof

/-- What a read that brought all its bytes gives a message of `len` bytes. -/
theorem sourceBytes_ok (b : Bytes) (len : Nat) : sourceBytes (.ok b) len = .ok (slice b 0 len) := by
  unfold sourceBytes
  split
  · next hzero => rw [hzero, slice_zero]
  · rfl

section
variable {s : State} {n : Nat} {c : Conn}

/-- The record of segment `g` sent as the next packet of a connection without encryption (R283). -/
def sentRec (c : Conn) (g : Seg) (now : Nat) : SendRec :=
  { psn := c.nextPsn, st := .sent, txn := c.txCount + 1, msg := g.msg, op := g.op,
    flags := cthFlags false g.first g.last false g.ackReq, ext := g.ext, len := g.pay.length, kept := false, rnr := 0,
    src := g.src, sentAt := now }

/-- A connection with segment `g` sent and the segments `l` left (R264, R283). -/
def connSent (c : Conn) (g : Seg) (l : List Seg) (now : Nat) : Conn :=
  { c with
    nextPsn := c.nextPsn + 1, cposSent := (c.cposSent + carCharge (udpLenOf c g.ext g.pay.length)) % 2 ^ 32,
    txCount := c.txCount + 1, segs := l, recs := c.recs ++ [sentRec c g now] }

/-- R264, R294: the next segment of a connection without encryption, neither its message's last nor one that is kept, is sent
where window and credit allow. -/
theorem sendNew_sends {g : Seg} {l : List Seg} (fault : Bool) (hconn : connGet s n = some c) (hsegs : c.segs = g :: l)
    (hst : c.st = .active ∨ c.st = .draining) (htier : c.tier = .onDie)
    (hlost : c.recs.any (fun r => r.st == .lost) = false)
    (hwin : c.nextPsn < c.una + 2 ^ c.winLog ∧ c.nextPsn < c.una + 2 ^ c.keepLog)
    (hcredit : carCreditOk c (carCharge (udpLenOf c g.ext g.pay.length)) = true) (hplain : c.enc = false)
    (hkept : isKept c g.op = false) (hpsn : c.nextPsn < 2 ^ 48) (hlast : g.last = false) :
    sendNew s n fault = carterSend (carCount (connPut s n (connSent c g l s.now)) n 0) n (connSent c g l s.now)
      (cthBytes g.op c.epoch (cthFlags false g.first g.last false g.ackReq) c.peer (c.nextPsn % 2 ^ 32)
        (connSent c g l s.now).cposSent g.msg g.pay.length ++ g.ext ++ g.pay) := by
  have hgo : ((decide (c.st ≠ .active) && decide (c.st ≠ .draining)) || decide (c.tier ≠ .onDie)
      || c.recs.any (fun r => r.st == .lost)) = false := by
    simpa [htier, hlost] using hst.resolve_left
  have hfits : (decide (c.nextPsn ≥ c.una + 2 ^ c.winLog) || decide (c.nextPsn ≥ c.una + 2 ^ c.keepLog)
      || !carCreditOk c (carCharge (udpLenOf c g.ext g.pay.length))) = false := by
    simp [hcredit, hwin]
  unfold sendNew
  rw [hconn]
  dsimp only
  rw [hsegs]
  dsimp only
  simp only [hgo, hfits, laneOk_plain hplain, ge_iff_le, Nat.not_le.mpr hpsn, protect_plain hplain, hplain, hkept, hlast,
    connSent, sentRec]
  rfl

/-- A connection with its packet of PSN `psn` sent again at credit position `pos` (R279). -/
def connResent (c : Conn) (psn pos now : Nat) : Conn :=
  { c with
    cposSent := pos, txCount := c.txCount + 1,
    recs := c.recs.map (fun z => if z.psn = psn then { z with st := .sent, txn := c.txCount + 1, sentAt := now } else z) }

/-- R279: a lost packet that is not kept is read again from its source and sent at a new credit position. -/
theorem resend_sends {y : SendRec} {d : Bytes} {u : State} {e : Conn} (hconn : connGet s n = some c)
    (hlost : c.recs.find? (fun r => r.st == .lost) = some y) (hst : c.st = .active ∨ c.st = .draining)
    (htier : c.tier = .onDie) (hcredit : carCreditOk c (carCharge (udpLenOf c y.ext y.len)) = true)
    (hkept : y.kept = false) (hfetch : instFetch s c.inst [(y.src, y.len)] (.ok d) = (true, u))
    (he : e = connResent c y.psn ((c.cposSent + carCharge (udpLenOf c y.ext y.len)) % 2 ^ 32) u.now) :
    resend s n (.ok d) = carterSend (carCount (connPut u n e) n 1) n e
      (cthBytes y.op c.epoch (Nat.lor y.flags 0x18) c.peer (y.psn % 2 ^ 32) e.cposSent y.msg y.len ++ y.ext
        ++ slice d 0 y.len) := by
  have hgo : ((decide (c.st ≠ .active) && decide (c.st ≠ .draining)) || decide (c.tier ≠ .onDie)
      || !carCreditOk c (carCharge (udpLenOf c y.ext y.len))) = false := by
    simpa [htier, hcredit] using hst.resolve_left
  have hsource : (if y.len = 0 then Except.ok [] else Except.ok (slice d 0 y.len))
      = Except.ok (ε := Nat) (slice d 0 y.len) := sourceBytes_ok d y.len
  unfold resend
  rw [hconn]
  dsimp only
  rw [hlost]
  dsimp only
  rw [hgo, hkept, hfetch]
  simp only [Bool.false_eq_true, if_false, Bool.not_true, hsource]
  subst he
  rfl

theorem clearEvict_none (hconn : connGet s n = some c) (hevict : c.evictPending = false) : clearEvict s n = s := by
  unfold clearEvict
  rw [hconn]
  exact if_neg (by simp [hevict])

end

section
variable {s : State} {r op k : Nat} {d : Bytes} {c e : Conn} (ready : SendReady s r op k d c) (hst : c.st = .active)
  (htier : c.tier = .onDie) (hevict : c.evictPending = false) (hshort : c.long = false) (he : e = { c with used := s.now })
include ready hst htier hevict hshort he

/-- R298, R301, R320: a descriptor of an ACTIVE connection on die that waits for nothing is carried out, and the connection
counts as used. -/
theorem sendHead_goes (go : State → Nat → Bytes → Nat → Option Conn → State) :
    sendHead s r op false go = go (connPut s (dConn d) e) k d (dConn d) (some e) := by
  obtain ⟨hhead, hfn, hok, hen, hfence, hconn, hinst⟩ := ready
  have hheld : connGet (connPut s (dConn d) e) (dConn d) = some e := connGet_connPut_short (by rw [he]; exact hshort)
  have hused : clearEvict (connMod s (dConn d) (fun c => { c with used := s.now })) (dConn d) = connPut s (dConn d) e := by
    rw [connMod_some _ hconn, ← he]
    exact clearEvict_none hheld (by rw [he]; exact hevict)
  unfold sendHead
  rw [hhead]
  dsimp only
  rw [hfn, hok, hen, hfence, hconn]
  dsimp only
  rw [if_neg (not_not_intro hinst), hst]
  dsimp only
  rw [hused, hheld, htier]
  rfl

/-- R286, R320: a descriptor of a message whose source could be read enters the works, and its packets wait to be sent. -/
theorem doMsg_pushes {b : Bytes} {u : State}
    (hread : descRead (connPut s (dConn d) e) r [(dAddr d, dLen d)] (.ok b) = (true, u)) :
    doMsg s r op (.ok b) = ringSettle (pushMsg (startWork u r k d (dConn d) op e.nextMsg 0 (dLen d)) (dConn d) e
      (msgSegs e op (dRkey d) (dRva d) (leAt d 36 4) (dAddr d) (bit (byteAt d 1) 1) (slice b 0 (dLen d)))) r := by
  unfold doMsg
  rw [sendHead_goes ready hst htier hevict hshort he]
  dsimp only
  rw [hread, sourceBytes_ok]
  rfl

end

/-- R320, R323: a RECV that names a length in range posts an entry. -/
theorem doRecv_posts {s u : State} {r k : Nat} {d : Bytes} (hhead : headOp s r 3 0x20 = some (k, d))
    (hlen : dLen d ≤ 2 ^ 31) (hen : s.flag R.CAR_CFG.EN [] = true) (hu : u = popDesc s r k) :
    doRecv s r = ringSettle (ringPut u r { ringGet u r with
      bufs := (ringGet u r).bufs ++ [(k, leAt d 4 4, dAddr d, dLen d)] }) r := by
  subst hu
  unfold doRecv
  rw [hhead]
  dsimp only
  rw [if_neg (Nat.not_lt.mpr hlen), hen]
  rfl

/-- Settles O26: the packets by what sending leaves, the descriptors by what starting them leaves. -/
theorem carterSendMessages : Obligations.CarterSend := by
  unfold Obligations.CarterSend
  refine ⟨?dataPacketSend, ?retransmit, ?write, ?writeImm, ?send, ?sendImm, ?read, ?atomic, ?recv⟩
  case dataPacketSend =>
    rintro n b c _ g l s h hconn hsegs hst htier hlost hwin hcredit ⟨hplain, hremote, hresp, hatomic⟩ hpsn hlast rfl
    exact does_step h (sendNew · n b) rfl (sendNew_sends b hconn hsegs hst htier hlost hwin hcredit hplain
      (by simp [isKept, hplain, hremote, hresp, hatomic]) hpsn hlast)
  case retransmit =>
    intro n d c e y s u h hconn hlost hst htier hcredit hkept hfetch he
    exact does_step h (resend · n (.ok d)) rfl (resend_sends hconn hlost hst htier hcredit hkept hfetch he)
  case write =>
    intro r b k d c e s u h ready hst htier hevict hshort he hread
    exact does_step h (doMsg · r 1 (.ok b)) rfl (doMsg_pushes ready hst htier hevict hshort he hread)
  case writeImm =>
    intro r b k d c e s u h ready hst htier hevict hshort he hread
    exact does_step h (doMsg · r 2 (.ok b)) rfl (doMsg_pushes ready hst htier hevict hshort he hread)
  case send =>
    intro r b k d c e s u h ready hst htier hevict hshort he hread
    exact does_step h (doMsg · r 3 (.ok b)) rfl (doMsg_pushes ready hst htier hevict hshort he hread)
  case sendImm =>
    intro r b k d c e s u h ready hst htier hevict hshort he hread
    exact does_step h (doMsg · r 4 (.ok b)) rfl (doMsg_pushes ready hst htier hevict hshort he hread)
  case read =>
    intro r k d c e s h ready hst htier hevict hshort he
    exact does_step h (doRead · r) rfl (sendHead_goes ready hst htier hevict hshort he _)
  case atomic =>
    intro r k d c e s h ready hst htier hevict hshort he
    exact does_step h (doAtomic · r) rfl (sendHead_goes ready hst htier hevict hshort he _)
  case recv => exact fun r _ _ _ _ h hhead hlen hen hu => does_step h (doRecv · r) rfl (doRecv_posts hhead hlen hen hu)

end Sys2Proof.Machine
end

section
/-! Connections, regions and paths of Carter (O27): the head of a SEND ring where nothing stops it, then what each descriptor
leaves. -/

namespace Sys2Proof.Machine

open Sys2Proof

/-- R280: a SHORT connection reads as it is listed: no window of it lies in HBM. -/
theorem connGet_short_iff {s : State} {n : Nat} {c : Conn} (hshort : c.long = false) :
    connGet s n = some c ↔ SMap.find? s.car.conns n = some c := by
  have hwin (e : Conn) (he : e.long = false) : winAddr n e = none := by simp [winAddr, he]
  unfold connGet
  constructor
  · intro h
    obtain ⟨e, hlisted, hread⟩ := Option.map_eq_some_iff.mp h
    have hlong : e.long = false := by
      rw [← hread] at hshort
      split at hshort
      · exact hshort
      · exact hshort
    rw [hwin e hlong] at hread
    exact hread ▸ hlisted
  · intro h
    rw [h, Option.map_some, hwin c hshort]

/-- R280: what leaves Carter's state as it is leaves a SHORT connection as it reads. -/
theorem connGet_of_car_eq {s t : State} {n : Nat} {c : Conn} (hcar : t.car = s.car) (hshort : c.long = false)
    (hconn : connGet s n = some c) : connGet t n = some c := by
  rw [connGet_short_iff hshort] at hconn ⊢
  rw [hcar, hconn]

/-- R472: a descriptor that ends leaves Carter's state as it is. -/
theorem finishDesc_car (s : State) (r k : Nat) (d : Bytes) (st : Nat) (rest : Bytes) :
    (finishDesc s r k d st rest).car = s.car := by
  have head := May.head
  have tail := May.tail
  exact (finishDesc_keeps (W := [.regs, .hif, .dom, .out]) (.refl s)).frame .car (by decide)

section
variable {s : State} {r op k : Nat} {d : Bytes}

/-- R301, R320: a descriptor that every state of its connection admits is carried out as it heads its ring. -/
theorem sendHead_any {c : Conn} (ready : SendReady s r op k d c)
    (go : State → Nat → Bytes → Nat → Option Conn → State) :
    sendHead s r op true go = go s k d (dConn d) (some c) := by
  obtain ⟨hhead, hfn, hok, hen, hfence, hconn, hinst⟩ := ready
  unfold sendHead
  rw [hhead]
  dsimp only
  rw [hfn, hok, hen, hfence, hconn]
  exact if_neg (not_not_intro hinst)

/-- R301, R302: CONN_DESTROY frees an ALLOCATED connection at once. -/
theorem connDestroyOp_frees {c : Conn} (ready : SendReady s r 0x42 k d c) (hst : c.st = .allocated) :
    connDestroyOp s r = ringSettle (connFree (startWork s r k d (dConn d) 0x42 0 0 0) (dConn d)) r := by
  unfold connDestroyOp
  rw [sendHead_any ready]
  dsimp only
  rw [hst]

/-- R330: CONN_QUERY of a connection on die writes its image. -/
theorem doConnQuery_writes {c : Conn} (ready : SendReady s r 0x43 k d c) (htier : c.tier = .onDie) :
    doConnQuery s r = endDesc (ringWrite s r (dAddr d) (connImage (some c))) r k d (dConn d) stSuccess := by
  unfold doConnQuery
  rw [sendHead_any ready]
  simp [htier]

/-- R301, R303, R322: CONN_CONNECT of an ALLOCATED number that was never connected, on a path of its domain, opens the
connection that its parameter block describes. -/
theorem doConnect_opens {b : Bytes} {v : Nat} {c e : Conn} {u : State} (ready : SendReady s r 0x41 k d c)
    (hst : c.st = .allocated) (hread : descRead s r [(dAddr d, 128)] (.ok b) = (true, u))
    (hparams : paramsOk (slice b 0 128) c.host = true)
    (hring : (findRing u false c.inst (leAt (slice b 0 128) 60 2)).bind
      (fun t => if ringType u t = 3 then some t else none) = some v)
    (hfresh : SMap.find? u.car.epochs (dConn d) = none) (hplain : bit (byteAt (slice b 0 128) 26) 2 = false)
    (hloose : bit (byteAt (slice b 0 128) 26) 4 = false)
    (hpath : pathValid (pathOf u (leAt (slice b 0 128) 24 2)) = true)
    (hdom : leAt (pathOf u (leAt (slice b 0 128) 24 2)) 2 2 % 1024 = c.dom)
    (hareas : connAreas u (dConn d) (connFrom c (slice b 0 128) v) = some e) :
    doConnect s r (.ok b)
      = endDesc (connOpen u (dConn d) { e with st := .active, used := u.now }) r k d (dConn d) stSuccess := by
  have hepoch : dirEpoch u (dConn d) = none := by simp [dirEpoch, hfresh]
  unfold doConnect
  rw [sendHead_any ready]
  dsimp only
  rw [hst]
  dsimp only
  rw [hread]
  simp [connect, hring, hparams, hepoch, hplain, hloose, hpath, hdom, hareas]

end

/-! A descriptor of a SEND ring that starts from no connection, where its function may issue requests and Carter is enabled. -/
section
variable {s : State} {r k : Nat} {d : Bytes}
  (hfn : (ringOwner s r || !fnLive s (ringFn s r).1 (ringFn s r).2) = false) (hok : descOk d = true)
  (hen : s.flag R.CAR_CFG.EN [] = true)
include hfn hok hen

/-- R300, R301: CONN_ALLOC of a host-homed connection in a named slice lists a new connection of the ring's instance under
the lowest free number. -/
theorem doAlloc_lists {n : Nat} (hhead : headOp s r 2 0x40 = some (k, d)) (hslice : dArg d ≠ 7)
    (hfree : freeNumber s (dArg d) = some n) (hhost : bit (byteAt d 41) 0 = true) :
    connGet (doAlloc s r) n = some (connNew (ringInst s r) (ringDomain s r) true s.now) := by
  have hlisted (u : State) (c : Conn) (hshort : c.long = false) (rest : Bytes) :
      connGet (finishDesc (connPut u n c) r k d stSuccess rest) n = some c :=
    connGet_of_car_eq (finishDesc_car ..) hshort (connGet_connPut_short hshort)
  unfold doAlloc
  rw [hhead]
  simp only [hfn, hok, hen, if_neg hslice, hfree, hhost, Bool.not_true, Bool.false_and, Bool.false_eq_true, if_false]
  cases dirEpoch s n with
  | some e => exact hlisted s _ rfl _
  | none => exact hlisted _ _ rfl _

/-- R299, R317: MR_REG that need not agree with a connection registers the next region that was never used. -/
theorem doMrReg_registers (hhead : headOp s r 2 0x48 = some (k, d)) (hunbound : bit (dArg d) 3 = false)
    (hfresh : s.car.fresh < 1048576) :
    (∃ b, SMap.find? (doMrReg s r).car.regions s.car.fresh = some
        { inst := ringInst s r, dom := ringDomain s r, base := dAddr d, len := dRva d, acc := dArg d, bind := dConn d, img := b }
      ∧ b.length = 64)
    ∧ (doMrReg s r).car.fresh = s.car.fresh + 1 := by
  unfold doMrReg
  rw [hhead]
  simp only [hfn, hok, hen, hunbound, if_pos hfresh, Bool.not_true, Bool.false_and, Bool.false_eq_true, if_false,
    finishDesc_car]
  exact ⟨⟨_, SMap.find_ins_same _ _ _, by simp [State.freeBytes]⟩, rfl⟩

/-- R319: MR_DEREG under the region's present RKEY, from its own instance, removes it. -/
theorem doMrDereg_drops {g : MemRegion} (hhead : headOp s r 2 0x49 = some (k, d))
    (hregion : SMap.find? s.car.regions (dRkey d / 4096) = some g) (hinst : g.inst = ringInst s r)
    (hgen : SMap.get 0 s.car.gens (dRkey d / 4096) = dRkey d % 4096) :
    doMrDereg s r = finishDesc (regionDrop s (dRkey d / 4096)) r k d stSuccess [] := by
  unfold doMrDereg
  rw [hhead]
  simp [hfn, hok, hen, hregion, hinst, hgen]

end

section
variable {s : State}

/-- R333: EN written 1 over areas that pass. -/
theorem carEnable_sets (hapart : (List.range 4).find? (fun q => anyOverlap (carAreas s q)) = none)
    (hinside : (List.range 4).find? (fun q => (carAreas s q).any (fun a => a.1 + a.2 > 49152)) = none) :
    (carEnable s true).flag R.CAR_CFG.EN [] = true := by
  unfold carEnable
  rw [if_pos rfl, hapart]
  dsimp only
  rw [hinside]
  split
  · next hon => exact hon
  · exact s.flag_wr_same R.CAR_CFG.EN [] 1

/-- R333: EN written 0 where no connection stands. -/
theorem carEnable_clears (hnone : s.car.conns = []) : (carEnable s false).flag R.CAR_CFG.EN [] = false := by
  unfold carEnable
  rw [if_neg Bool.false_ne_true, hnone]
  exact s.flag_wr_same R.CAR_CFG.EN [] 0

end

/-- Settles O27: each descriptor by what it leaves where nothing stops it, PATH_WRITE by its one record, and the enable by its
two writes. -/
theorem carterConnections : Obligations.CarterConnections := by
  unfold Obligations.CarterConnections
  refine ⟨?connAlloc, ?connConnect, ?connDestroy, ?connQuery, ?mrReg, ?mrDereg, ?pathWrite, ?carterEnable⟩
  case connAlloc =>
    intro r k n d s h hhead hfn hok hen hslice hfree hhost
    exact does_whenUp h (f := fun s => .next (doAlloc s r)) rfl
      ⟨_, rfl, doAlloc_lists hfn hok hen hhead hslice hfree hhost⟩
  case connConnect =>
    intro r b k v d c e s u h ready hst hread hparams hring hfresh ⟨hplain, hloose⟩ hpath hdom hareas
    exact does_step h (doConnect · r (.ok b)) rfl
      (doConnect_opens ready hst hread hparams hring hfresh hplain hloose hpath hdom hareas)
  case connDestroy =>
    exact fun r _ _ _ _ h ready hst => does_step h (connDestroyOp · r) rfl (connDestroyOp_frees ready hst)
  case connQuery =>
    exact fun r _ _ _ _ h ready htier => does_step h (doConnQuery · r) rfl (doConnQuery_writes ready htier)
  case mrReg =>
    intro r k d s h hhead hfn hok hen hunbound hfresh
    exact does_whenUp h (f := fun s => .next (doMrReg s r)) rfl
      ⟨_, rfl, doMrReg_registers hfn hok hen hhead hunbound hfresh⟩
  case mrDereg =>
    intro r k d g s h hhead hfn hok hen hregion hinst hgen
    exact does_step h (doMrDereg · r) rfl (doMrDereg_drops hfn hok hen hhead hregion hinst hgen)
  case pathWrite => exact fun _ _ _ _ _ _ h one hidx hok => does_ctrlRun h one rfl (recPut_ok hidx hok)
  case carterEnable =>
    intro s h hnone hapart hinside
    exact ⟨does_fromHost h (f := fun s => .next (carEnable s true)) rfl ⟨_, rfl, carEnable_sets hapart hinside⟩,
      does_fromHost h (f := fun s => .next (carEnable s false)) rfl ⟨_, rfl, carEnable_clears hnone⟩⟩

end Sys2Proof.Machine
end

section
/-! The on-die cache of connections (O28): the end of a fetch and of a write-back, room for a fetch that waits, and the end of
EVICT_PENDING and of CLOSING. -/

namespace Sys2Proof.Machine

open Sys2Proof

/-- Time that passes leaves Carter's state as it is. -/
theorem clockTo_car (s : State) (n : Nat) : (clockTo s n).car = s.car := by
  have head := May.head
  have tail := May.tail
  exact (clockTo_keeps (W := [.regs, .now, .tu, .out, .free]) (.refl s)).frame .car (by decide)

section
variable {s : State} {n : Nat} {c : Conn} (hconn : connGet s n = some c)
include hconn

/-- R313: EVICT_PENDING that ends is counted. -/
theorem clearEvict_some (hevict : c.evictPending = true) :
    clearEvict s n = carCount (connPut s n { c with evictPending := false }) n 17 := by
  unfold clearEvict
  rw [hconn]
  exact if_pos hevict

section
variable (htier : c.tier = .fetching) (hopen : c.closeDue = false) (hhost : c.host = false)
include htier hopen hhost

/-- R309, R312: a context read whole from its home in HBM is on die, and its parked packets go first into Carter's input. -/
theorem fetchDone_takes (b : Bytes)
    (hclean : (homeAt n c).any (fun a => poisonedRange s a.1 a.2) = false) :
    fetchDone s n (.ok b)
      = let u := unpark (dropLedger (payOwed (connPut s n { homeIn s n c with tier := .onDie, used := s.now }) n) n) n
        pumpFetches (putWin u.1 { u.1.win with carter := u.2 ++ u.1.win.carter }) := by
  unfold fetchDone
  rw [hconn]
  cases hhome : homeAt n c with
  | none => simp [htier, hopen, hhost, hhome]
  | some a =>
    have hread : poisonedRange s a.1 a.2 = false := by simpa [hhome] using hclean
    simp [htier, hopen, hhost, hhome, hread]

/-- R315: a context that could not be read leaves a stub, whose connection goes to ERROR without a word to the peer. -/
theorem fetchDone_fails {x : RdRes} (hbad : ∀ b, x ≠ .ok b) :
    fetchDone s n x
      = let u := (homeAt n c).elim s (fun a => hbmFail s a.1)
        let v := connError (carCount (connPut u n { c with tier := .stub }) n 14) n csContextFault false flushBind
        pumpFetches (dropParked (dropLedger v n) n) := by
  unfold fetchDone
  rw [hconn]
  cases x with
  | ok b => exact absurd rfl (hbad b)
  | _ => cases hhome : homeAt n c <;> simp [htier, hopen, hhost, hhome]

end

section
variable (htier : c.tier = .writing) (hopen : c.closeDue = false)
include htier hopen

/-- R311: a write-back that succeeds leaves the context home, and wants it again where something waits for it. -/
theorem writebackDone_home {u : State} (hu : u = connPut s n { c with tier := .home }) :
    writebackDone s n true = pumpFetches
      (if u.car.parked.any (fun p => p.conn == n) || c.wanted || c.owed ≠ [] then
        wantContext (connMod u n (fun c => { c with wanted := false })) n else u) := by
  subst hu
  unfold writebackDone
  rw [hconn]
  simp [htier, hopen]

/-- R315: a write-back that fails leaves the context on die, and its connection in ERROR. -/
theorem writebackDone_fails :
    writebackDone s n false
      = connFail (dropLedger (carCount (connPut s n { c with tier := .onDie }) n 14) n) n csContextFault := by
  unfold writebackDone
  rw [hconn]
  simp [htier, hopen]

end

/-- R313: EVICT_PENDING that runs out ends, and another connection is chosen for a fetch that waits. -/
theorem evictExpire_ends {u v : State} (hevict : c.evictPending = true) (hkept : (idleConn s n c && creditFits s c) = false)
    (hu : u = clockTo s (c.evictAt + 2 * c.rto * 10))
    (hv : v = carCount (connPut u n { c with evictPending := false }) n 17) (hshort : c.long = false) :
    evictExpire s n = if v.car.fetchq.any (fun m => m % 4 == n % 4) then retractOne v (n % 4) (some n) else v := by
  have hthen : connGet u n = some c := connGet_of_car_eq (by rw [hu, clockTo_car]) hshort hconn
  have hended : clearEvict (clockTo s (c.evictAt + 2 * c.rto * 10)) n = v := by
    rw [← hu, clearEvict_some hthen hevict, hv]
  unfold evictExpire
  rw [hconn]
  simp only [hevict, hkept, hended]
  rfl

/-- R302: a CLOSING connection is freed. -/
theorem closingDone_frees (hst : c.st = .closing) : closingDone s n = connFree s n := by
  unfold closingDone
  rw [hconn]
  exact if_pos (by rw [hst]; rfl)

end

/-- R309, R310, R311: a slice with a fetch that waits for room evicts its least recently used idle connection. -/
theorem makeRoom_evicts {s u : State} {q n : Nat} {c e : Conn} (hu : u = pumpFetches s)
    (hwait : u.car.fetchq.any (fun n => n % 4 == q) = true) (hout : fetchesOut u q < 64)
    (hlru : lru ((sliceConns u q).filter (fun e => idleConn u e.1 e.2 && creditFits u e.2)) = some (n, c))
    (hconn : connGet u n = some e) : makeRoom s q = evict u n e := by
  subst hu
  unfold makeRoom
  simp only [hwait, hlru, hconn, ge_iff_le, Nat.not_le.mpr hout, Bool.not_true, decide_false, Bool.or_self,
    Bool.false_eq_true, if_false, Option.elim_some]

/-- Settles O28: each event of the cache by what it leaves. -/
theorem carterCache : Obligations.CarterCache := by
  unfold Obligations.CarterCache
  refine ⟨?fetched, ?unread, ?eviction, ?writeback, ?evictPendingExpiry, ?closingComplete⟩
  case fetched =>
    rintro n b c s _ h hconn htier hopen hhost hclean rfl
    exact does_step h (fetchDone · n (.ok b)) rfl (fetchDone_takes hconn htier hopen hhost b hclean)
  case unread =>
    rintro n x c s u _ h hconn htier hopen hhost hbad hu rfl
    have hfailed : u = (homeAt n.val c).elim s (fun a => hbmFail s a.1) := hu.trans (by cases homeAt n.val c <;> rfl)
    rw [hfailed]
    exact does_step h (fetchDone · n x) rfl (fetchDone_fails hconn htier hopen hhost hbad)
  case eviction =>
    intro q n c e s u h hu hwait hout hlru hconn
    exact does_step h (makeRoom · q) rfl (makeRoom_evicts hu hwait hout hlru hconn)
  case writeback =>
    intro n c s u h hconn htier hopen hu
    exact ⟨does_step h (writebackDone · n true) rfl (writebackDone_home hconn htier hopen hu),
      does_step h (writebackDone · n false) rfl (writebackDone_fails hconn htier hopen)⟩
  case evictPendingExpiry =>
    intro n c s u v h hconn hevict hkept hu hv hshort
    exact does_step h (evictExpire · n) rfl (evictExpire_ends hconn hevict hkept hu hv hshort)
  case closingComplete =>
    exact fun n _ _ h hconn hst => does_step h (closingDone · n) rfl (closingDone_frees hconn hst)

end Sys2Proof.Machine
end

section
/-! The jobs of Husk (O29): a waiting job is dispatched, a block is released, a job ends, and a cluster caches a key, each by
what it comes to where its conditions hold. -/

namespace Sys2Proof.Machine

open Sys2Proof

section
variable {s : State}

/-- R343, R345: the oldest message of a quadrant's job channel leaves it as a job of the cluster that takes it. -/
theorem dispatch_filbert {q c : Nat} (w : Nat) {m : Bytes} {l : List Bytes} (hmsgs : chanMsgs s (0xFF00 + q) = m :: l)
    (hweight : weightOk s 6 = true) (htakes : cluTakes s q c = true) :
    dispatch s 6 q c w = waited (jobPlace (chanSet s (0xFF00 + q) l) (jobOf m c)) 6 w := by
  unfold dispatch
  rw [if_pos rfl, hmsgs]
  dsimp only
  rw [hweight, htakes]
  rfl

/-- R346, R350: a Filbert job whose keys are loaded and whose blocks are compared ends behind no earlier job of its order. -/
theorem jobEnd_filbert {n : Nat} {j : HJob} (hjob : s.hsk.jobs[n]? = some j) (hneed : j.need = []) (hran : jobRan j = true)
    (hfirst : (s.hsk.jobs.take n).any (fun i => i.req == j.req && i.key == j.key) = false) (hfil : j.esp = none) :
    jobEnd s n = filJobEnd
      (jobsShow (loadLanes (putHsk s { s.hsk with jobs := s.hsk.jobs.eraseIdx n }) j.cluster) j.cluster) j := by
  unfold jobEnd
  rw [hjob]
  dsimp only
  rw [hneed, hran, hfirst, hfil]
  rfl

/-- R373: a key that a cluster has loaded enters its cache, which has room, and no job of the cluster needs it any more. -/
theorem keyLoaded_caches {c n : Nat} (hen : s.flag R.LCK_CFG.EN [] = true) (hout : (loadsOut s c).contains n = true)
    (hroom : (SMap.get [] s.hsk.cache c).length < 64) :
    keyLoaded s c n = loadLanes ((lckCount { s with hsk := {
        jobs := s.hsk.jobs.map (fun j => if j.cluster = c then { j with need := j.need.filter (· ≠ n) } else j),
        cache := SMap.ins s.hsk.cache c ((n, (slotGet s n).gen) :: SMap.get [] s.hsk.cache c) } } 5).wr
      R.HSK_CLU_W1.KEYS_CACHED [c]
      (SMap.get [] (SMap.ins s.hsk.cache c ((n, (slotGet s n).gen) :: SMap.get [] s.hsk.cache c)) c).length) c := by
  unfold keyLoaded
  rw [hen, hout]
  simp only [hroom, if_true]
  rfl

section
variable {n b u : Nat} {j : HJob} (hjob : s.hsk.jobs[n]? = some j)
  (hlane : j.lanes.any (fun y => y.pair == u && y.blk == b) = true) (hdata : b < dataBlocks j)
include hjob hlane hdata

/-- R340: a block whose outputs agree is released and counted. -/
theorem blockCompare_agrees : blockCompare s n b u .same = loadLanes (hskCount (unlane s n b u) 0) j.cluster := by
  unfold blockCompare
  rw [hjob]
  dsimp only
  rw [hlane, if_pos hdata]
  rfl

/-- R340: a block that agrees on a second pair is released and counted, and the first pair's failure counts. -/
theorem blockCompare_retried {p : Fin 128} (hfree : (freeLanes s j.cluster).contains p.val = true) :
    blockCompare s n b u (.retry p true) =
      loadLanes (hskCount (hskCount (pairFail (unlane s n b u) (128 * j.cluster + u)) 3) 0) j.cluster := by
  unfold blockCompare
  rw [hjob]
  dsimp only
  rw [hlane, hfree, if_pos hdata]
  rfl

end

end

/-- Settles O29: each command by what its meaning comes to under the clause's conditions. -/
theorem huskJobs : Obligations.HuskJobs := by
  unfold Obligations.HuskJobs
  refine ⟨?jobDispatch, ?blockCompare, ?huskJobComplete, ?keyLoadComplete⟩
  case jobDispatch =>
    intro q c w m l s h hmsgs hweight htakes
    exact does_step h (dispatch · 6 q.val c.val w) rfl (dispatch_filbert w hmsgs hweight htakes)
  case blockCompare =>
    intro n b u p j s h hjob hlane hdata
    exact ⟨does_step h (blockCompare · n b u.val .same) rfl (blockCompare_agrees hjob hlane hdata),
      fun hfree => does_step h (blockCompare · n b u.val (.retry p true)) rfl
        (blockCompare_retried hjob hlane hdata hfree)⟩
  case huskJobComplete =>
    intro n j s h hjob hneed hran hfirst hfil
    exact does_step h (jobEnd · n) rfl (jobEnd_filbert hjob hneed hran hfirst hfil)
  case keyLoadComplete =>
    rintro c n _ s h hen hout ⟨rfl, hroom⟩
    exact does_step h (keyLoaded · c.val n.val) rfl (keyLoaded_caches hen hout hroom)

end Sys2Proof.Machine
end

section
/-! The Locksmith (O30). A blob of KIND 2 opens under the WRAP key that closed it (R370, R371), which gives a blob that a
KEY_IMPORT may bring; its read may have to wait, and then nothing is imported. -/

namespace Sys2Proof.Machine

open Sys2Proof

/-! GCM undoes itself, whatever bytes the block cipher gives. -/

theorem xorBytes_length (a b : Bytes) : (xorBytes a b).length = a.length := by
  induction a generalizing b with
  | nil => rfl
  | cons x a ih =>
    cases b with
    | nil => rfl
    | cons y b => exact congrArg (· + 1) (ih b)

theorem xorBytes_cancel (a b : Bytes) : xorBytes (xorBytes a b) b = a := by
  induction a generalizing b with
  | nil => rfl
  | cons x a ih =>
    cases b with
    | nil => rfl
    | cons y b =>
      have hxor : (x ^^^ y) ^^^ y = x := by rw [BitVec.xor_assoc, BitVec.xor_self, BitVec.xor_zero]
      simp only [xorBytes, hxor, ih]

section
variable (key iv : Bytes)

theorem gctr_length (n ctr : Nat) (b : Bytes) (h : b.length ≤ 16 * n) : (gctr key iv n ctr b).length = b.length := by
  induction n generalizing ctr b with
  | zero => exact (Nat.le_zero.mp h).symm
  | succ n ih =>
    have hrest : (b.drop 16).length ≤ 16 * n := by rw [List.length_drop]; omega
    rw [gctr, List.length_append, xorBytes_length, ih _ _ hrest, ← List.length_append, List.take_append_drop]

theorem gctr_cancel (n ctr : Nat) (b : Bytes) (h : b.length ≤ 16 * n) : gctr key iv n ctr (gctr key iv n ctr b) = b := by
  induction n generalizing ctr b with
  | zero => exact (List.length_eq_zero_iff.mp (Nat.le_zero.mp h)).symm
  | succ n ih =>
    have hrest : (b.drop 16).length ≤ 16 * n := by rw [List.length_drop]; omega
    have hfirst : (xorBytes (b.take 16) (aesEnc key (iv ++ beBytes 4 ctr))).length = min 16 b.length := by
      rw [xorBytes_length, List.length_take]
    have hlater : (gctr key iv n (ctr + 1) (b.drop 16)).length = b.length - 16 := by
      rw [gctr_length key iv n _ _ hrest, List.length_drop]
    generalize hx : xorBytes (b.take 16) (aesEnc key (iv ++ beBytes 4 ctr)) = x at hfirst
    generalize hy : gctr key iv n (ctr + 1) (b.drop 16) = y at hlater
    have hcut : (x ++ y).take 16 = x ∧ (x ++ y).drop 16 = y := by
      rcases Nat.lt_or_ge b.length 16 with hshort | hlong
      · obtain rfl : y = [] := List.length_eq_zero_iff.mp (by omega)
        rw [List.append_nil]
        exact ⟨List.take_of_length_le (by omega), List.drop_of_length_le (by omega)⟩
      · have hsixteen : x.length = 16 := by omega
        exact ⟨List.take_left' hsixteen, List.drop_left' hsixteen⟩
    rw [gctr, gctr, hx, hy, hcut.1, hcut.2, ← hx, ← hy, xorBytes_cancel, ih _ _ hrest, List.take_append_drop]

theorem le_ceilDiv_sixteen (n : Nat) : n ≤ 16 * ceilDiv n 16 := by
  rw [ceilDiv, if_neg (by decide)]
  omega

theorem gcmEnc_length (aad pt : Bytes) : (gcmEnc key iv aad pt).1.length = pt.length :=
  gctr_length key iv _ _ _ (le_ceilDiv_sixteen _)

theorem gcmEnc_tag_length (aad pt : Bytes) : (gcmEnc key iv aad pt).2.length = 16 := by
  simp only [gcmEnc, gcmTag, xorBytes_length, beBytes, List.length_reverse]
  rfl

/-- R352: what GCM has encrypted decrypts under the same key and IV, and its tag matches. -/
theorem gcmDec_gcmEnc (aad pt : Bytes) :
    gcmDec key iv aad (gcmEnc key iv aad pt).1 (gcmEnc key iv aad pt).2 = (pt, true) := by
  have hfits := le_ceilDiv_sixteen pt.length
  simp only [gcmDec, gcmEnc, gctr_length key iv _ _ _ hfits, gctr_cancel key iv _ _ _ hfits, beq_self_eq_true]

end

/-- A field of a byte string that is written as what precedes it, the field and the rest. -/
theorem slice_of_append {b p m r : Bytes} (h : b = p ++ (m ++ r)) : slice b p.length m.length = m := by
  subst h
  simp [slice]

theorem slice_whole {b : Bytes} {n : Nat} (h : b.length = n) : slice b 0 n = b := by
  rw [← h]
  exact slice_of_append (p := []) (r := []) (by simp)

theorem matLen_lt (ty : Nat) : matLen ty < 256 := by
  unfold matLen
  split <;> decide

/-- R370: the 32 bytes that open a KIND 2 blob. -/
def blobHead (x : LckSlot) (nonce : Bytes) (bind : Nat) : Bytes :=
  [1, 2, byteOf x.ty, byteOf x.attr] ++ leBytes 2 x.dom ++ [byteOf (matLen x.ty), 0] ++ nonce ++ [0, 0, 0, 0] ++ leBytes 8 bind

section
variable (x : LckSlot) (mat wrap : Bytes) {nonce : Bytes} (bind : Nat) (hnonce : nonce.length = 12)

theorem exportBlob_eq (nonce : Bytes) : exportBlob x mat wrap nonce bind = blobHead x nonce bind
    ++ ((gcmEnc wrap nonce (blobHead x nonce bind) mat).1 ++ (gcmEnc wrap nonce (blobHead x nonce bind) mat).2) :=
  List.append_assoc ..

include hnonce

theorem blobHead_length : (blobHead x nonce bind).length = 32 := by simp [blobHead, hnonce, leBytes]

theorem exportBlob_length : (exportBlob x mat wrap nonce bind).length = 48 + mat.length := by
  rw [exportBlob_eq, List.length_append, List.length_append, blobHead_length x bind hnonce, gcmEnc_length, gcmEnc_tag_length]
  omega

/-- R370: the nonce of a KIND 2 blob stands from byte 8 on. -/
theorem slice_blobHead_append (r : Bytes) : slice (blobHead x nonce bind ++ r) 8 12 = nonce := by
  rw [← hnonce]
  exact slice_of_append (p := [1, 2, byteOf x.ty, byteOf x.attr] ++ leBytes 2 x.dom ++ [byteOf (matLen x.ty), 0])
    (r := [0, 0, 0, 0] ++ leBytes 8 bind ++ r) (by simp only [blobHead, List.append_assoc])

/-- R370, R371: a blob of KIND 2 opens under the WRAP slot whose key closed it. -/
theorem unwrap_exportBlob {s : State} {w : Nat} (hwrap : (slotGet s w).mat = wrap) (hmat : mat.length = matLen x.ty) :
    unwrap s w (exportBlob x mat wrap nonce bind) = some mat := by
  have hkind : byteAt (exportBlob x mat wrap nonce bind) 1 = 2 := rfl
  have hlen : byteAt (exportBlob x mat wrap nonce bind) 6 = mat.length := by
    rw [hmat]
    exact Nat.mod_eq_of_lt (matLen_lt x.ty)
  have hblob := exportBlob_eq x mat wrap bind nonce
  have hhead := blobHead_length x bind hnonce
  have hiv := slice_blobHead_append x bind hnonce
    ((gcmEnc wrap nonce (blobHead x nonce bind) mat).1 ++ (gcmEnc wrap nonce (blobHead x nonce bind) mat).2)
  have hct := gcmEnc_length wrap nonce (blobHead x nonce bind) mat
  have htag := gcmEnc_tag_length wrap nonce (blobHead x nonce bind) mat
  have hopens := gcmDec_gcmEnc wrap nonce (blobHead x nonce bind) mat
  rw [← hblob] at hiv
  generalize exportBlob x mat wrap nonce bind = b at *
  generalize blobHead x nonce bind = h at *
  generalize (gcmEnc wrap nonce h mat).1 = ct at *
  generalize (gcmEnc wrap nonce h mat).2 = tag at *
  have haad : b.take 32 = h := by rw [hblob]; exact List.take_left' hhead
  have hctAt : slice b 32 mat.length = ct := by
    rw [← hhead, ← hct]
    exact slice_of_append hblob
  have htagAt : slice b (32 + mat.length) 16 = tag := by
    rw [← hhead, ← hct, ← List.length_append, ← htag]
    exact slice_of_append (r := []) (by rw [hblob, List.append_nil, List.append_assoc])
  unfold unwrap
  dsimp only
  rw [hkind, if_neg (by decide), hwrap, hlen, hiv, haad, hctAt, htagAt, hopens]
  rfl

end

/-- R365: where the read of the blob has to wait, so does KEY_IMPORT. -/
theorem doImport_waits {s : State} {r k : Nat} {d : Bytes} {x : RdRes} (hhead : headOp s r 4 0x50 = some (k, d))
    (hread : descRead s r [(leAt d 16 8, min (leAt d 24 4) 256)] x = (false, s)) : doImport s r x = s := by
  unfold doImport
  rw [hhead]
  dsimp only
  rw [hread]
  rfl

/-- A key command's completion leaves the slot store as it is. -/
theorem keyEnd_lck (s : State) (r k : Nat) (d : Bytes) (st n : Nat) (chk : Bytes) : (keyEnd s r k d st n chk).lck = s.lck := by
  have head := May.head
  have tail := May.tail
  exact (keyEnd_keeps (W := [.regs, .hif, .dom, .out]) (.refl s)).frame .lck (by decide)

/-- R363: a KEY_IMPORT to slot 1 of a blob of 64 bytes, closed by the key of slot 0. -/
def importDesc : Bytes := [0x50, 0, 0, 0, 0, 0, 0, 0, 1] ++ List.replicate 15 0 ++ [64] ++ List.replicate 39 0

/-- R370: such a blob: the AES-128 key of 16 bytes 1 of domain 0, with BIND 0. -/
def importBlob : Bytes :=
  exportBlob { LckSlot.none with ty := 2 } (List.replicate 16 1) (List.replicate 32 0) (List.replicate 12 0) 0

/-- R361: the WRAP key of the blob. -/
def importWrap : LckSlot := { LckSlot.none with st := 1, ty := 7, mat := List.replicate 32 0 }

/-- Out of reset, with the Locksmith enabled and ready and the descriptor at the head of a KEY ring: slots 0 to 15 are those of
domain 0, slot 0 is the WRAP key and slot 1 is EMPTY. No function has bus mastering, so that the blob cannot be read (R444). -/
def importWaits : State :=
  { ((((State.reset.wr R.DOM_RING_W0.STATE [0] rsRunning).wr R.DOM_RING_W0.TYPE [0] 4).wr R.LCK_CFG.EN [] 1).wr
      R.LCK_STATUS.READY [] 1) with
    dom := { Dom.reset with rings := [(0, { Ring.none with fetched := [(0, importDesc)] })] },
    lck := { Lck.reset with slots := [(0, importWrap)], range := [(0, (0, 16))] } }

theorem importWaits_awake : Awake importWaits := by decide

theorem importWaits_head : headOp importWaits 0 4 0x50 = some (0, importDesc) := by decide

theorem doImport_importWaits : doImport importWaits 0 (.ok importBlob) = importWaits :=
  doImport_waits importWaits_head rfl

theorem unwrap_importBlob : unwrap importWaits (descWrap importDesc) importBlob = some (List.replicate 16 1) :=
  unwrap_exportBlob _ _ _ _ rfl rfl rfl

theorem slice_importBlob : slice importBlob 0 (leAt importDesc 24 4) = importBlob :=
  slice_whole (exportBlob_length _ _ _ _ rfl)

/-- Refutes O30 by its KEY_IMPORT clause, which leaves out the read of the blob from host memory (R26, R365): every condition
of the clause holds, but the ring's function has no bus mastering and may not send the read (R444). The descriptor waits and
its slot stays EMPTY, where the clause has it filled and completed. -/
theorem not_keysAndStore : ¬ Obligations.KeysAndStore := by
  unfold Obligations.KeysAndStore
  rintro ⟨imports, -⟩
  obtain ⟨t, ht, u, hu, htu⟩ := imports 0 0 importDesc importBlob (List.replicate 16 1) importWaits importWaits_awake
    importWaits_head (by decide) (by rw [slice_importBlob]; decide) (by decide) (by rw [slice_importBlob]; decide)
    (by decide) (by decide) (fun _ => by decide) (by rw [slice_importBlob]; exact unwrap_importBlob)
    (by rw [slice_importBlob]; decide)
  have hwaits : exec (.keyImport 0 (.ok importBlob)) importWaits = .next importWaits :=
    (awake_whenUp importWaits_awake fun s => .next (doImport s 0 (.ok importBlob))).trans
      (congrArg Host.Outcome.next doImport_importWaits)
  obtain rfl : importWaits = t := Host.Outcome.next.inj (hwaits.symm.trans ht)
  have hfilled : (slotGet importWaits 1).st = 1 := by
    rw [slotGet, htu, keyEnd_lck, hu]
    rfl
  exact absurd hfilled (by decide)

end Sys2Proof.Machine
end

section
/-! The slot machine of a root port (O31): the rules of a command under each guard of its unit, then what a write of EN, a write
of Slot Control, a removal and the loss of the link come to. -/

namespace Sys2Proof.Machine

open Sys2Proof

section
variable {c : Instr} {s t : State} {f : State → State} (h : Awake s) (x : State → Ans) (exec_eq : exec c s = x s)
include h exec_eq

/-- A command of an awake block whose meaning `x` is one state function, guarded by power alone, answers what that
function gives. -/
theorem does_stepOn (e : x s = whenOn s fun s => .next (f s)) (q : f s = t) : Does c s fun v => v = t :=
  does_whenOn h (exec_eq.trans e) ⟨_, rfl, q⟩

/-- The same of a command that needs a unit of the data path or its firmware. -/
theorem does_stepUp (e : x s = whenUp s fun s => .next (f s)) (q : f s = t) : Does c s fun v => v = t :=
  does_step h f (exec_eq.trans e) q

/-- The same of a command that a host or the owner sends. -/
theorem does_stepHost (e : x s = fromHost s fun s => .next (f s)) (q : f s = t) : Does c s fun v => v = t :=
  does_fromHost h (exec_eq.trans e) ⟨_, rfl, q⟩

end

section
variable {s : State}

/-- A port's counters lie apart from its state. -/
theorem rpSt_rpCount (s : State) (n : Fin 16) (k : Nat) : rpSt (rpCount s n.val k) n.val = rpSt s n.val := by
  have hkey : R.STG_RP_CNT.COUNT.key [n.val, k] ≠ R.STG_RP_STATUS.STATE.key [n.val] := by
    simp only [Fld.key, Fld.addr, dimOffset, R.STG_RP_CNT.COUNT, R.STG_RP_STATUS.STATE]
    omega
  exact s.rd_inc_apart (.inr hkey)

theorem rpSt_rpMod (s : State) (n m : Nat) (f : Rp → Rp) : rpSt (rpMod s n f) m = rpSt s m := rfl

/-- R387: a port taken into use is powered where AUTO_ON says so. -/
theorem rpEnable_enters {n : Nat} (hoff : s.flag R.STG_RP_CTL.EN [n] = false) :
    rpEnable s n true = if (s.wr R.STG_RP_CTL.EN [n] 1).flag R.STG_RP_CTL.AUTO_ON [n]
      then rpPowerOn (s.wr R.STG_RP_CTL.EN [n] 1) n else s.wr R.STG_RP_CTL.EN [n] 1 := by
  unfold rpEnable
  rw [hoff]
  rfl

/-- R387, R392: a port taken out of use goes to OFF, and its drive commands end. -/
theorem rpEnable_leaves {n : Nat} (hon : s.flag R.STG_RP_CTL.EN [n] = true)
    (hst : rpSt (s.wr R.STG_RP_CTL.EN [n] 0) n ≠ rsOff ∧ rpSt (s.wr R.STG_RP_CTL.EN [n] 0) n ≠ rsRetired) :
    rpEnable s n false = rpLeave (rpOff (s.wr R.STG_RP_CTL.EN [n] 0) n) n := by
  unfold rpEnable
  simp [hon, b2n, hst]

/-- R387: a port whose link was up or coming up ends in SURPRISE. -/
theorem rpSurprise_linked {n : Nat} (hst : rpSt s n = rsTraining ∨ rpSt s n = rsInit ∨ rpSt s n = rsOnline) :
    rpSurprise s n = rpSurpriseEnd (rpLeave (rpGo (rpLinkDown (rpClk (rpMod s n (fun p => { p with armed := false })) n
      (some false)) n (rpSt s n)) n rsSurprise) n) n :=
  if_pos (by simpa [or_assoc] using hst)

/-- R387: an ONLINE port that is to be removed quiesces; commands that wait for its drive end. -/
theorem rpQuiesce_online {n : Nat} (hst : rpSt s n = rsOnline) :
    rpQuiesce s n = rpShutdown (modLegs
      (portLost (rpGo (pwrLed (rpMod s n (fun p => { p with armed := false })) n 2) n rsQuiescing) n)
      (fun o => if o.port = some n && o.st == .wait then { o with st := .ended .lost } else o)) n :=
  if_pos hst

/-- R386: a write of Slot Control sets its own bits; Slot Status lies in the upper half, which the write leaves. -/
theorem rpCfgWrite_slotControl {n v : Nat} (hv : v < 65536) :
    rpCfgWrite s n 30 v =
      let w := ((rpCfgGet s n 30 &&& 0xFFFFE800) ||| (v &&& 0x17FF)) % 2 ^ 32
      rpPcc (ledShow (ledShow (rpCfgPut s n 30 w) (.srpAledN n) (bits w 6 2)) (.srpPledN n) (bits w 8 2)) n (bit w 10) := by
  have hclear : v &&& rpW1cMask 30 = 0 := by
    rw [← Nat.mod_eq_of_lt hv, show 65536 = 2 ^ 16 by rfl, ← Nat.and_two_pow_sub_one_eq_mod, Nat.and_assoc]
    exact Nat.and_zero v
  unfold rpCfgWrite
  dsimp only
  rw [hclear, show 0xFFFFFFFF - 0 = 2 ^ 32 - 1 by rfl, Nat.and_two_pow_sub_one_eq_mod]
  rfl

end

/-- Settles O31: each event of the slot machine by the branch of its meaning that the port's state selects. -/
theorem rootPorts : Obligations.RootPorts := by
  unfold Obligations.RootPorts
  refine ⟨?enabled, ?disabled, ?inserted, ?withdrawn, ?powerFault, ?buttonPress, ?removalWindowExpiry, ?pwrWaitExpiry,
    ?perstReleaseDelay, ?linkActive, ?trainingTimeout, ?enumerationDelay, ?driveInitComplete, ?quiesceComplete,
    ?slotControlWrite, ?remove, ?rootPortLinkDown⟩
  case enabled =>
    rintro n s _ h hoff rfl
    exact does_stepHost h (execRootPortEnable n true) rfl rfl (rpEnable_enters hoff)
  case disabled =>
    rintro n s _ h hon rfl hst
    exact does_stepHost h (execRootPortEnable n false) rfl rfl (rpEnable_leaves hon hst)
  case inserted =>
    rintro n s _ h hgone hst rfl
    exact does_stepOn h (execPresenceChange n true) rfl rfl (by simp [hgone, rpSt_rpCount, rpSt_rpMod, hst])
  case withdrawn =>
    rintro n s _ h hthere hst rfl
    exact does_stepOn h (execPresenceChange n false) rfl rfl (by simp [hthere, rpSt_rpCount, rpSt_rpMod, hst])
  case powerFault =>
    intro n s h hst
    exact does_stepOn h (execPowerFault n) rfl rfl (if_neg (by simp [hst]))
  case buttonPress =>
    rintro n s _ h hst rfl honline
    exact does_stepOn h (execButtonPress n) rfl rfl ((if_neg (by rw [hst]; decide)).trans (if_pos honline))
  case removalWindowExpiry => exact fun n s h harmed => does_stepOn h (execRemovalWindowExpiry n) rfl rfl (if_pos harmed)
  case pwrWaitExpiry => exact fun n s h hst => does_stepOn h (execPwrWaitExpiry n) rfl rfl (if_pos hst)
  case perstReleaseDelay =>
    rintro n s _ h hst hclk rfl hheld
    exact does_stepOn h (execPerstReleaseDelay n) rfl rfl
      ((if_pos (by simp [hst, hclk])).trans (if_neg (by simp [rpLapse, hheld])))
  case linkActive =>
    intro n v w s h hst hfree hspeed hwidth
    exact does_stepOn h (execLinkActive n v w) rfl rfl (if_pos (by simpa [hst, hfree, hspeed, or_assoc] using hwidth))
  case trainingTimeout => exact fun n s h hst => does_stepOn h (execTrainingTimeout n) rfl rfl (if_pos hst)
  case enumerationDelay =>
    intro n v s u h hst hu
    have hruns : Does (.enumerationDelay n v) s fun t => t = (u.wr R.STG_RP_DRV.VID [n.val] v.val).emit (.driveCtl n.val 0 0) :=
      does_stepOn h (execEnumerationDelay n v) rfl rfl (by rw [if_pos hst, rpLapse, ← hu])
    have hvid : v.val % 2 ^ R.STG_RP_DRV.VID.width = v.val := Nat.mod_eq_of_lt v.isLt
    obtain ⟨t, ht, rfl⟩ := hruns
    exact ⟨_, ht, by simp [hvid], by simp, by simp⟩
  case driveInitComplete =>
    rintro n b z s _ h hst hsize rfl
    have hinit : ¬rpSt s n.val ≠ rsInit := not_not_intro hst
    exact ⟨does_stepOn h (execDriveInitComplete n (.ok [(b, z)])) rfl rfl
        ((if_neg hinit).trans (by simp [List.range, List.range.loop, hsize])),
      does_stepOn h (execDriveInitComplete n .failed) rfl rfl (if_neg hinit)⟩
  case quiesceComplete =>
    exact fun n s h hst hidle => does_stepOn h (execQuiesceComplete n) rfl rfl (if_pos (by simp [hst, hidle]))
  case slotControlWrite =>
    rintro n v _ s h rfl
    exact does_stepHost h (execSlotControlWrite n v) rfl rfl (rpCfgWrite_slotControl v.isLt)
  case remove =>
    rintro n s _ h hst rfl
    exact does_stepHost h (execRemove n) rfl rfl (rpQuiesce_online hst)
  case rootPortLinkDown => exact fun n s h hst => does_stepOn h (execRootPortLinkDown n) rfl rfl (rpSurprise_linked hst)

end Sys2Proof.Machine
end

section
/-! Drive commands and the tables of the storage path (O32): containment by DPC, the records of namespaces and extents that are
applied or answered, and EN of STG_CFG, each by what it comes to where nothing refuses it. -/

namespace Sys2Proof.Machine

open Sys2Proof

section
variable {s : State}

/-- R391: a trigger contains an ONLINE port, which notes the reason and ends in SURPRISE. -/
theorem rpDpc_contains {n : Nat} (reason : Nat) (hfree : s.flag R.STG_RP_STATUS.DPC [n] = false) (hst : rpSt s n = rsOnline) :
    rpDpc s n reason =
      let u := rpCount (s.wr R.STG_RP_STATUS.DPC [n] 1) n 8
      rpSurprise (rpEvt (rpCfgPut u n 84 (setBits (rpCfgGet u n 84) 1 2 reason)) n 4) n := by
  unfold rpDpc
  rw [hfree, hst]
  rfl

/-- R399, R400: a well-formed namespace record whose NSID is free replaces its entry. -/
theorem nsWriteRec_ok {b : Bytes} (hidx : recIndex b < 65536)
    (hgood : nsValid (recObj b 64) = true → nsBad s (recObj b 64) = false)
    (hfree : nsValid (recObj b 64) = true → s.stg.ns.any (fun x => x.1 ≠ recIndex b && nsValid x.2
      && nsCtl x.2 == nsCtl (recObj b 64) && nsId x.2 == nsId (recObj b 64)) = false) :
    nsWriteRec s b = .ok (nsApply s (recIndex b) (recObj b 64)) none := by
  unfold nsWriteRec
  rw [if_neg (Nat.not_le.mpr hidx)]
  cases hvalid : nsValid (recObj b 64) with
  | false => rfl
  | true =>
    rw [hgood hvalid, hfree hvalid]
    rfl

/-- R400, R402: a well-formed extent record that keeps the range of an extent in use replaces its entry. -/
theorem extWriteRec_ok {b : Bytes} (hidx : recIndex b < 262144) (hgood : extBad (recObj b 64) = false)
    (hkeeps : nsUsing s (recIndex b) ≠ [] → extStart (extGet s (recIndex b)) = extStart (recObj b 64)
      ∧ extCount (extGet s (recIndex b)) = extCount (recObj b 64)) :
    extWriteRec s b = .ok (extApply s (recIndex b) (recObj b 64)) none := by
  unfold extWriteRec
  rw [if_neg (by simp [hgood, hidx])]
  exact if_neg (by simpa [not_or] using hkeeps)

/-- R398: the answer of NS_READ starts with the state of the namespace. -/
theorem nsReadRec_state {u v : State} {b c : Bytes} {off : Nat} (hidx : recIndex b < 65536)
    (hrec : nsReadRec u b = .ok v (some (off, c))) : c.take 1 = [byteOf (nsState u (nsGet u (recIndex b)))] := by
  unfold nsReadRec at hrec
  rw [if_neg (Nat.not_le.mpr hidx)] at hrec
  injection hrec with _ hback
  injection hback with hback
  injection hback with _ hbytes
  subst hbytes
  rfl

/-- R413: EN is set where every staging area lies clear of Carter's areas and inside HBM. -/
theorem stgEnable_sets
    (hclear : (List.range 4).any (fun q => (carAreas s q).any (fun a =>
      overlaps a.1 a.2 (s.rd R.STG_STAGE.BASE [q]) (s.rd R.STG_STAGE.SIZE [q]))) = false)
    (hinside : (List.range 4).any (fun q => s.rd R.STG_STAGE.BASE [q] + s.rd R.STG_STAGE.SIZE [q] > 49152) = false) :
    stgEnable s true = s.wr R.STG_CFG.EN [] 1 := by
  unfold stgEnable
  simp only [hclear, hinside, Bool.false_eq_true, if_false]
  exact ite_self _

end

/-- Settles O32: each event by the branch of its meaning that the clause's conditions select, each record by what it comes to. -/
theorem drivesAndTables : Obligations.DrivesAndTables := by
  unfold Obligations.DrivesAndTables
  refine ⟨?driveCompletion, ?driveCmdTimeout, ?abortTimeout, ?dpcTrigger, ?dpcRelease, ?aerError, ?driveInboundRequest,
    ?nsWrite, ?extWrite, ?nsRead, ?stgEnable⟩
  case driveCompletion => exact fun n c s h hout => does_stepOn h (execDriveCompletion n c 0 0) rfl rfl (if_pos hout)
  case driveCmdTimeout =>
    rintro n c s _ h hout rfl
    exact does_stepOn h (execDriveCmdTimeout n c) rfl rfl (if_pos hout)
  case abortTimeout =>
    intro n c s h hst haborted
    exact does_stepOn h (execAbortTimeout n c) rfl rfl (if_pos (by simp only [hst, haborted]; rfl))
  case dpcTrigger =>
    rintro n c s _ h henabled hfree hst rfl
    exact does_stepOn h (execDpcTrigger n c) rfl rfl ((if_pos henabled).trans (rpDpc_contains _ hfree hst))
  case dpcRelease =>
    intro n s h hdpc hst hidle
    exact does_stepOn h (execDpcRelease n) rfl rfl (if_pos (by simp [hdpc, hst, hidle]))
  case aerError => exact fun n b s h => ⟨does_stepOn h (execAerError n .cor b none) rfl rfl rfl,
      does_stepOn h (execAerError n .nonfatal b none) rfl rfl rfl, does_stepOn h (execAerError n .fatal b none) rfl rfl rfl⟩
  case driveInboundRequest =>
    intro n a l d s h hfree hst hwrite hread
    have hlinked : (rpSt s n.val == rsInit || rpSt s n.val == rsOnline || rpSt s n.val == rsQuiescing) = true := by
      simpa [or_assoc] using hst
    have hopen : ¬(s.flag R.STG_RP_STATUS.DPC [n.val]
        || !(rpSt s n.val == rsInit || rpSt s n.val == rsOnline || rpSt s n.val == rsQuiescing)) = true := by
      rw [hfree, hlinked]
      decide
    exact ⟨does_stepOn h (execDriveInboundRequest n a (.write d false)) rfl rfl ((if_neg hopen).trans (if_pos hwrite)),
      does_stepOn h (execDriveInboundRequest n a (.read l)) rfl rfl ((if_neg hopen).trans (if_pos hread))⟩
  case nsWrite =>
    exact fun _ _ _ _ _ _ h one hidx hgood hfree => does_ctrlRun h one rfl (nsWriteRec_ok hidx hgood hfree)
  case extWrite =>
    exact fun _ _ _ _ _ _ h one hidx hgood hkeeps => does_ctrlRun h one rfl (extWriteRec_ok hidx hgood hkeeps)
  case nsRead =>
    intro r b k d s u c h one hidx hrec
    obtain ⟨t, ht, e⟩ := does_ctrlRun_back h one (c := .nsRead r (.ok b)) rfl hrec
    exact ⟨t, ht, e, nsReadRec_state hidx hrec⟩
  case stgEnable =>
    exact fun s h hclear hinside => ⟨does_stepHost h (execStgEnable true) rfl rfl (stgEnable_sets hclear hinside),
      does_stepHost h (execStgEnable false) rfl rfl rfl⟩

end Sys2Proof.Machine
end

section
/-! Admin commands of the emulated controllers (O33): the head of the admin queue where its command may be read (R396), then what
each command comes to where it passes its checks. -/

namespace Sys2Proof.Machine

open Sys2Proof

section
variable {s r u v : State} {k op : Nat} {b d : Bytes} {y : NvSq}

/-- R396: an admin command without data completes with the result of its operation. -/
theorem adminPlain_front {f : State → Bytes → State × Nat} (front : NvFront s k 0 op b y u) (hf : f u b = (v, nsOk)) :
    adminPlain s k op (.ok b) f = sweepAll (nvDone v k 0 b nsOk 0) := by
  unfold adminPlain
  rw [nvFetch_front front, hf]

/-- The length of the data that an admin command returns. -/
def adminLen (s : State) (f : State → Bytes → Except Nat (State × Bytes)) (b : Bytes) : Nat :=
  match f s b with
  | .ok (_, d) => d.length
  | .error _ => 0

/-- R396, R56: an admin command that returns data writes it to the host's pages, once they can be reached. -/
theorem adminData_front {f : State → Bytes → Except Nat (State × Bytes)} {x : RdRes} {p : List (Nat × Nat)}
    (hreach : dataReach s k 0 (.ok b) x (adminLen s f) true = (true, r)) (front : NvFront r k 0 op b y u)
    (hf : f u b = .ok (v, d)) (hpages : prpOf b d.length x = .ok p) :
    adminData s k op (.ok b) x .done f = nvDone (scatter (dataTake v k b d.length x none) k p 0 d false) k 0 b nsOk 0 := by
  unfold adminData
  extract_lets len
  rw [show dataReach s k 0 (.ok b) x len true = (true, r) from hreach]
  dsimp only
  rw [if_neg (by decide), nvFetch_front front, hf]
  dsimp only
  rw [hpages]
  rfl

/-- The submission queue that a command asks for. -/
def sqAsked (b : Bytes) : NvSq :=
  { addr := sqePrp1 b, size := sqeDw b 10 / 65536 + 1, head := 0, tail := 0, cq := sqeDw b 11 / 65536 }

/-- The completion queue that a command asks for. -/
def cqAsked (b : Bytes) : NvCq :=
  { addr := sqePrp1 b, size := sqeDw b 10 / 65536 + 1, head := 0, tail := 0, phase := true, iv := sqeDw b 11 / 65536,
    ien := bit (sqeDw b 11) 1, held := 0, wait := [] }

/-- R396: a number from 1 to what was granted, of no queue that exists, is not refused. -/
theorem queueNumber_ok {α : Type} {n granted : Nat} {old : Option α} (hpos : 0 < n) (hgranted : n ≤ granted)
    (hfree : old = none) : ¬(n = 0 || n > granted || old.isSome) = true := by
  subst hfree
  simp only [Option.isSome_none, Bool.or_false, Bool.or_eq_true, decide_eq_true_eq]
  omega

/-- R396: a size of 2 to 4,096 entries is not refused. -/
theorem queueSize_ok {n : Nat} (hpos : 0 < n) (hmax : n ≤ 4095) : ¬(n = 0 || n > 4095) = true := by
  simp only [Bool.or_eq_true, decide_eq_true_eq]
  omega

/-- R396: a submission queue is created under a free number, on a completion queue that exists. -/
theorem createSq_ok
    (hnum : 0 < sqeDw b 10 % 65536 ∧ sqeDw b 10 % 65536 ≤ grantedSq (ctlGet u k)
      ∧ SMap.find? (ctlGet u k).sqs (sqeDw b 10 % 65536) = none)
    (hsize : 0 < sqeDw b 10 / 65536 ∧ sqeDw b 10 / 65536 ≤ 4095) (hcontig : bit (sqeDw b 11) 0 = true)
    (hcq : sqeDw b 11 / 65536 ≠ 0 ∧ (SMap.find? (ctlGet u k).cqs (sqeDw b 11 / 65536)).isSome = true)
    (halign : sqePrp1 b % 4096 = 0) :
    createSq u k b =
      (ctlPut u k { ctlGet u k with sqs := SMap.ins (ctlGet u k).sqs (sqeDw b 10 % 65536) (sqAsked b) }, nsOk) := by
  obtain ⟨hpos, hgranted, hfree⟩ := hnum
  obtain ⟨cq, hcq'⟩ := Option.isSome_iff_exists.mp hcq.2
  unfold createSq
  rw [if_neg (queueNumber_ok hpos hgranted hfree), if_neg (queueSize_ok hsize.1 hsize.2), if_neg (by simp [hcontig]),
    if_neg (by simp [hcq.1, hcq']), if_neg (by simp [halign])]
  rfl

/-- R396: a submission queue that exists is deleted, its commands ended. -/
theorem deleteSq_ok
    (hnum : sqeDw b 10 % 65536 ≠ 0 ∧ (SMap.find? (ctlGet u k).sqs (sqeDw b 10 % 65536)).isSome = true) :
    deleteSq u k b = (ctlMod (abortQueue u k (sqeDw b 10 % 65536)) k
      (fun c => { c with sqs := SMap.del c.sqs (sqeDw b 10 % 65536) }), nsOk) := by
  obtain ⟨q, hq⟩ := Option.isSome_iff_exists.mp hnum.2
  unfold deleteSq
  exact if_neg (by simp [hnum.1, hq])

/-- R396: a completion queue is created under a free number, with a vector that the controller has. -/
theorem createCq_ok
    (hnum : 0 < sqeDw b 10 % 65536 ∧ sqeDw b 10 % 65536 ≤ grantedCq (ctlGet u k)
      ∧ SMap.find? (ctlGet u k).cqs (sqeDw b 10 % 65536) = none)
    (hsize : 0 < sqeDw b 10 / 65536 ∧ sqeDw b 10 / 65536 ≤ 4095) (hcontig : bit (sqeDw b 11) 0 = true)
    (hvec : sqeDw b 11 / 65536 ≤ 64) (halign : sqePrp1 b % 4096 = 0) :
    createCq u k b =
      (ctlPut u k { ctlGet u k with cqs := SMap.ins (ctlGet u k).cqs (sqeDw b 10 % 65536) (cqAsked b) }, nsOk) := by
  obtain ⟨hpos, hgranted, hfree⟩ := hnum
  unfold createCq
  rw [if_neg (queueNumber_ok hpos hgranted hfree), if_neg (queueSize_ok hsize.1 hsize.2), if_neg (by simp [hcontig]),
    if_neg (Nat.not_lt.mpr hvec), if_neg (by simp [halign])]
  rfl

/-- R396: a completion queue that no submission queue uses is deleted. -/
theorem deleteCq_ok
    (hnum : sqeDw b 10 % 65536 ≠ 0 ∧ (SMap.find? (ctlGet u k).cqs (sqeDw b 10 % 65536)).isSome = true)
    (hunused : (ctlGet u k).sqs.any (fun x => x.2.cq == sqeDw b 10 % 65536) = false) :
    deleteCq u k b = (ctlMod u k (fun c => { c with cqs := SMap.del c.cqs (sqeDw b 10 % 65536) }), nsOk) := by
  obtain ⟨q, hq⟩ := Option.isSome_iff_exists.mp hnum.2
  unfold deleteCq
  rw [if_neg (by simp [hnum.1, hq])]
  exact if_neg (by simp [hunused])

/-- R396: a command that has not completed is aborted, and its results are discarded. -/
theorem nvAbort_aborts {c : HCmd} (front : NvFront s k 0 8 b y u)
    (hfound : u.stg.cmds.find? (fun c => c.ctrl == k && c.sq == some (sqeDw b 10 % 65536, sqeDw b 10 / 65536) && !c.posted
      && !c.discard) = some c) (hv : v = cmdPost u c nsAborted) :
    nvAbort s k (.ok b) = sweepAll (nvDone (putStg v { v.stg with
      cmds := v.stg.cmds.map (fun x => if x.id = c.id then { x with discard := true } else x) }) k 0 b nsOk 0) := by
  subst hv
  unfold nvAbort
  rw [nvFetch_front front]
  dsimp only
  rw [hfound]

/-- R396: Interrupt Coalescing, where it is set, takes the lower half of its doubleword. -/
theorem setFeature_coalescing {n : Nat} (hset : setFeature u k b = (v, nsOk, n)) (hfeat : sqeDw b 10 % 256 = 8) :
    v = ctlPut u k (featPut (ctlGet u k) 8 (sqeDw b 11 % 65536)) := by
  unfold setFeature at hset
  rw [hfeat, if_neg (by decide)] at hset
  split at hset
  · exact absurd (congrArg (·.2.1) hset) (by simp [nsNotSaveable, nsOk])
  · exact (congrArg (·.1) hset).symm

end

/-- Settles O33: each admin command is read at the head of its queue, and its operation passes its checks. -/
theorem nvmeAdmin : Obligations.NvmeAdmin := by
  unfold Obligations.NvmeAdmin
  refine ⟨?createIoSq, ?deleteIoSq, ?createIoCq, ?deleteIoCq, ?getLogPage, ?identify, ?abort, ?setFeatures, ?getFeatures,
    ?asynchronousEventRequest⟩
  case createIoSq =>
    rintro k b y s u _ _ h front ⟨rfl, rfl⟩ hnum hsize hcontig hcq halign
    exact does_stepUp h (execCreateIoSq k (.ok b)) rfl rfl
      (adminPlain_front front (createSq_ok hnum hsize hcontig hcq halign))
  case deleteIoSq =>
    rintro k b y s u _ h front rfl hnum
    exact does_stepUp h (execDeleteIoSq k (.ok b)) rfl rfl (adminPlain_front front (deleteSq_ok hnum))
  case createIoCq =>
    rintro k b y s u _ _ h front ⟨rfl, rfl⟩ hnum hsize hcontig hvec halign
    exact does_stepUp h (execCreateIoCq k (.ok b)) rfl rfl
      (adminPlain_front front (createCq_ok hnum hsize hcontig hvec halign))
  case deleteIoCq =>
    rintro k b y s u _ h front rfl hnum hunused
    exact does_stepUp h (execDeleteIoCq k (.ok b)) rfl rfl
      (adminPlain_front front (deleteCq_ok hnum hunused))
  case getLogPage =>
    intro k b y s r u x v d p h hreach front hlog hpages
    exact does_stepUp h (execGetLogPage k (.ok b) x .done) rfl rfl
      (adminData_front hreach front hlog hpages)
  case identify =>
    intro k b y s r u v d p h hreach front hident hpages
    exact does_stepUp h (execIdentify k (.ok b) .done) rfl rfl
      (adminData_front hreach front hident hpages)
  case abort =>
    intro k b y s u c v h front hfound hv
    exact does_stepUp h (execAbort k (.ok b)) rfl rfl (nvAbort_aborts front hfound hv)
  case setFeatures =>
    intro k b y s u v n h front _ hset
    obtain ⟨t, ht, rfl⟩ := does_stepUp (c := .setFeatures k (.ok b)) h (execSetFeatures k (.ok b)) rfl rfl
      ((nvFetch_front front).trans (by rw [hset]))
    exact ⟨_, ht, rfl, setFeature_coalescing hset⟩
  case getFeatures =>
    intro k b y s u h front hok
    exact does_stepUp h (execGetFeatures k (.ok b)) rfl rfl ((nvFetch_front front).trans (by rw [hok]))
  case asynchronousEventRequest =>
    intro k b y s u h front hroom
    exact does_stepUp h (execAsynchronousEventRequest k (.ok b)) rfl rfl
      ((nvFetch_front front).trans (if_neg (Nat.not_le.mpr hroom)))

end Sys2Proof.Machine
end

section
/-! I/O commands and queues of the emulated controllers (O34): the doorbells, then each I/O command where it passes its checks,
and what starts a controller and takes up the end of an operation on a leg. -/

namespace Sys2Proof.Machine

open Sys2Proof

section
variable {s : State} {k q : Nat}

@[simp] theorem ctlGet_ctlPut_same (s : State) (k : Nat) (c : Ctrl) : ctlGet (ctlPut s k c) k = c := SMap.get_set_same _ _ _ _

/-- R395: a tail inside its submission queue is taken. -/
theorem sqBell_moves {y : NvSq} {v : Nat} (hq : SMap.find? (ctlGet s k).sqs q = some y) (hrdy : (ctlGet s k).rdy = true)
    (hv : v < y.size) : sqBell s k q v = ctlMod s k (fun c => { c with sqs := SMap.ins c.sqs q { y with tail := v } }) := by
  unfold sqBell
  rw [hq]
  exact if_neg (by simp [hrdy, hv])

/-- R395: a head inside its completion queue is taken, and entries that waited for room are posted. -/
theorem cqBell_moves {y : NvCq} {v : Nat} (hq : SMap.find? (ctlGet s k).cqs q = some y) (hrdy : (ctlGet s k).rdy = true)
    (hv : v < y.size) : cqBell s k q v =
      cqPump (ctlMod s k (fun c => { c with cqs := SMap.ins c.cqs q { y with head := v } })) k q (y.wait.length + 1) := by
  unfold cqBell
  rw [hq]
  exact if_neg (by simp [hrdy, hv])

section
variable {r u : State} {i : Nat} {e b : Bytes} {y : NvSq} {h : NvHap} {a : Nat} {list : RdRes}

/-- R403: the checks of an I/O command on a namespace that it may act on; `lim` is the longest transfer, 0 for none. -/
theorem ioCheck_ok {lim : Nat} {wr : Bool} (hns : nsFind u k (sqeNs b) = some (i, e))
    (hrange : sqeSlba b + sqeNlb b ≤ nsSize e) (hlen : lim ≠ 0 → sqeNlb b * nsLba e ≤ lim)
    (hfield : bits (sqeDw b 12) 26 4 = 0) (hro : wr = true → nsRo e = false) : ioCheck u k b lim wr = .ok (i, e) := by
  unfold ioCheck
  rw [hns]
  dsimp only
  rw [if_neg (Nat.not_lt.mpr hrange), if_neg (by simpa [hfield] using hlen), if_neg (by simpa using hro)]

/-- R44: a command on a plain namespace, or with a cluster to take its jobs, does not wait. -/
theorem cryptAble_ok (hns : nsFind s k (sqeNs b) = some (i, e)) (henc : nsEnc e = true → huskAble s 5 = true) :
    cryptAble s k (.ok b) = true := by
  unfold cryptAble
  dsimp only
  rw [hns]
  cases hcrypt : nsEnc e with
  | false => simp [hcrypt]
  | true => simp [henc hcrypt]

/-- R403: a Write that passes its checks and has room is staged and written. -/
theorem nvWrite_runs {d : Bytes} {p : List (Nat × Nat)} (hns : nsFind s k (sqeNs b) = some (i, e))
    (hroom : (stageFit s k (sqeNlb b * nsLba e)).isSome = true)
    (hreach : dataReach s k q (.ok b) list (ioLen s k) false = (true, r)) (hcrypt : cryptAble r k (.ok b) = true)
    (front : NvFront r k q 1 b y u) (hcheck : ioCheck u k b mdts true = .ok (i, e))
    (hpages : prpOf b (sqeNlb b * nsLba e) list = .ok p)
    (hfit : stageFit (dataTake u k b (sqeNlb b * nsLba e) list (some (.ok d))) k (sqeNlb b * nsLba e) = some a) :
    nvWrite s k q (.ok b) list (.ok d) h =
      runWrite (countWrite (dataTake u k b (sqeNlb b * nsLba e) list (some (.ok d))) k (sqeNlb b * nsLba e / 512)) k q b i e a
        (slice d 0 (sqeNlb b * nsLba e)) h 1 := by
  unfold nvWrite
  rw [hreach]
  dsimp only
  rw [if_neg (by simp [hns, hroom, hcrypt]), nvFetch_front front, hcheck]
  dsimp only
  rw [hpages]
  dsimp only
  rw [hfit]

/-- R404: a Read that passes its checks and has room is read from a leg of each extent. -/
theorem nvRead_runs {p : List (Nat × Nat)} (hns : nsFind s k (sqeNs b) = some (i, e))
    (hroom : (stageFit s k (sqeNlb b * nsLba e)).isSome = true)
    (hreach : dataReach s k q (.ok b) list (ioLen s k) true = (true, r)) (front : NvFront r k q 2 b y u)
    (hcheck : ioCheck u k b mdts false = .ok (i, e)) (hpages : prpOf b (sqeNlb b * nsLba e) list = .ok p)
    (hfit : stageFit u k (sqeNlb b * nsLba e) = some a) :
    nvRead s k q (.ok b) list h =
      runRead (countRead (dataTake u k b (sqeNlb b * nsLba e) list none) k (sqeNlb b * nsLba e / 512)) k q b i e a p h := by
  unfold nvRead
  rw [hreach]
  dsimp only
  rw [if_neg (by simp [hns, hroom]), nvFetch_front front, hcheck]
  dsimp only
  rw [hpages, hfit]

section
variable (hns : nsFind s k (sqeNs b) = some (i, e)) (front : NvFront s k q 8 b y u)
  (hcheck : ioCheck u k b 0 true = .ok (i, e))
include hns front hcheck

/-- R404: Write Zeroes of a plain namespace goes to every usable leg without data. -/
theorem nvZeroes_plain (hplain : nsEnc e = false) : nvZeroes s k q (.ok b) h =
    let n := cmdNew (countWrite u k 0)
      { cmdInit k (some (q, sqeCid b)) 8 i e (countWrite u k 0) with slba := sqeSlba b, blocks := sqeNlb b }
    startWrites n.2 n.1 (bit (sqeDw b 12) 30) := by
  have hcrypt : cryptAble s k (.ok b) = true := cryptAble_ok hns (by simp [hplain])
  unfold nvZeroes
  rw [if_neg (by simp [hns, hplain, hcrypt]), nvFetch_front front, hcheck]
  exact if_neg (by simp [hplain])

/-- R404: Write Zeroes of an encrypted namespace is a Write of zeros. -/
theorem nvZeroes_encrypted (henc : nsEnc e = true) (hcrypt : cryptAble s k (.ok b) = true)
    (hroom : (stageFit s k (sqeNlb b * nsLba e)).isSome = true)
    (hfit : stageFit (countWrite u k 0) k (sqeNlb b * nsLba e) = some a) : nvZeroes s k q (.ok b) h =
      runWrite (countWrite u k 0) k q b i e a (List.replicate (sqeNlb b * nsLba e) 0) h 1 := by
  unfold nvZeroes
  rw [if_neg (by simp [hns, hroom, hcrypt]), nvFetch_front front, hcheck]
  dsimp only
  rw [if_pos henc, hfit]

end

/-- R404: a deallocation whose ranges lie in the namespace is passed to its usable local legs. -/
theorem nvDsm_runs {d : Bytes}
    (hreach : dataReach s k q (.ok b) .ur (fun b => 16 * (sqeDw b 10 % 256 + 1)) false = (true, r))
    (front : NvFront r k q 9 b y u) (hns : nsFind u k (sqeNs b) = some (i, e)) (hro : nsRo e = false)
    (hdealloc : bit (sqeDw b 11) 2 = true) (hrange : (dsmRanges b d).any (fun r => r.1 + r.2 > nsSize e) = false) :
    nvDsm s k q (.ok b) (.ok d) =
      runDsm (dataTake u k b (16 * (sqeDw b 10 % 256 + 1)) .xlate (some (.ok d))) k q b i e (dsmRanges b d) := by
  unfold nvDsm
  dsimp only
  rw [hreach]
  dsimp only
  rw [if_neg (by decide), nvFetch_front front, hns]
  dsimp only
  rw [if_neg (by simp [hro]), if_neg (by simp [hdealloc])]
  exact if_neg (by simp [hrange])

/-- R404: a Flush of a namespace starts. -/
theorem nvFlush_starts (front : NvFront s k q 0 b y u) (hns : nsFind u k (sqeNs b) = some (i, e)) :
    nvFlush s k q (.ok b) = sweepAll (startFlush u k (some (q, sqeCid b)) i e) := by
  unfold nvFlush
  rw [nvFetch_front front, hns]

end

/-- The admin submission queue of a controller that starts (R407). -/
def adminSq (c : Ctrl) : NvSq := { addr := c.asq / 4096 * 4096, size := bits c.aqa 0 12 + 1, head := 0, tail := 0, cq := 0 }

/-- The admin completion queue of a controller that starts (R407). -/
def adminCq (c : Ctrl) : NvCq :=
  { addr := c.acq / 4096 * 4096, size := bits c.aqa 16 12 + 1, head := 0, tail := 0, phase := true, iv := 0, ien := true,
    held := 0, wait := [] }

/-- R407: EN starts a controller with its admin queues where STG runs and the configuration is one it supports. -/
theorem ccWrite_starts {v : Nat} (hexists : ctlExists s k = true) (hen : bit v 0 = true ∧ bit (ctlGet s k).cc 0 = false)
    (hstg : s.flag R.STG_CFG.EN [] = true ∧ (ctlGet s k).stop = .no)
    (hcfg : bits v 4 3 = 0 ∧ bits v 7 4 = 0 ∧ bits v 11 3 = 0) :
    ccWrite s k v = ctlMod (ctlPut s k { ctlGet s k with cc := v &&& 0x00FFFFF1 }) k (fun c =>
      { c with rdy := true, shst := 0, sqs := [(0, adminSq (ctlGet s k))], cqs := [(0, adminCq (ctlGet s k))] }) := by
  unfold ccWrite
  rw [if_neg (by simp [hexists]), if_pos (by simp [hen]), if_neg (by simp [hstg]), if_neg (by simp [hcfg])]
  rfl

/-- R402, R403: the oldest operation that has ended well at its drive is noted, and its command is judged. -/
theorem legComplete_drive {h : NvHap} {i : Nat} {c e : HCmd} {o : LegOp}
    (hcmd : (absorbCarter s).stg.cmds.find? (fun c => c.legs.any (fun o => match o.st with | .ended _ => true | _ => false))
      = some c)
    (hleg : c.legs.findIdx? (fun o => match o.st with | .ended _ => true | _ => false) = some i) (ho : c.legs[i]? = some o)
    (he : e = { c with legs := replaceAt c.legs i { o with st := .done (.drive 0 0) } }) (hst : o.st = .ended (.drive 0 0)) :
    legComplete s h = sweepAll (judge (cmdPut (absorbCarter s) e) e h) := by
  subst he
  have hgood : (LegEnd.drive 0 0).good = true := rfl
  unfold legComplete
  extract_lets u isEnd
  rw [show u.stg.cmds.find? (fun c => c.legs.any isEnd) = some c from hcmd]
  dsimp only
  rw [show c.legs.findIdx? isEnd = some i from hleg]
  dsimp only
  rw [ho]
  dsimp only
  rw [hst]
  simp [hgood, u]

end

/-- Settles O34: each command by the lemma that says what it comes to where nothing refuses it. -/
theorem nvmeCommands : Obligations.NvmeCommands := by
  unfold Obligations.NvmeCommands
  refine ⟨?sqDoorbell, ?cqDoorbell, ?nvmWrite, ?nvmRead, ?writeZeroesPlain, ?writeZeroesEncrypted, ?datasetManagement,
    ?nvmFlush, ?ccWrite, ?legComplete, ?interruptCoalescingExpiry⟩
  case sqDoorbell =>
    exact fun k q v y s h hexists hq hrdy hv => does_stepHost h (execSqDoorbell k q v) rfl rfl
      ((if_pos hexists).trans (sqBell_moves hq hrdy hv))
  case cqDoorbell =>
    exact fun k q v y s h hexists hq hrdy hv => does_stepHost h (execCqDoorbell k q v) rfl rfl
      ((if_pos hexists).trans (cqBell_moves hq hrdy hv))
  case nvmWrite =>
    rintro k q i e b y s r u l d p x _ a h hq hns rfl hroom hreach henc front hns' hnsr ⟨hrange, hlen, hfield, hro⟩ hpages
      hfit
    exact does_stepUp h (execNvmWrite k q (.ok b, l) (.ok d) x) rfl rfl ((if_neg hq).trans
      (nvWrite_runs hns hroom hreach (cryptAble_ok hnsr henc) front
        (ioCheck_ok hns' hrange (fun _ => hlen) hfield fun _ => hro) hpages hfit))
  case nvmRead =>
    rintro k q i e b y s r u l p x _ a h hq hns rfl hroom hreach front hns' ⟨hrange, hlen, hfield⟩ hpages hfit
    exact does_stepUp h (execNvmRead k q (.ok b) l x) rfl rfl ((if_neg hq).trans (nvRead_runs hns hroom hreach front
      (ioCheck_ok hns' hrange (fun _ => hlen) hfield nofun) hpages hfit))
  case writeZeroesPlain =>
    rintro k q i e b y s u x h hq hns front hns' ⟨hrange, hfield, hro⟩ hplain
    obtain ⟨t, ht, rfl⟩ := does_stepUp (c := .writeZeroes k q (.ok b) x) h (execWriteZeroes k q (.ok b) x) rfl rfl
      ((if_neg hq).trans (nvZeroes_plain hns front (ioCheck_ok hns' hrange (absurd rfl) hfield fun _ => hro) hplain))
    exact ⟨_, ht, _, _, rfl, rfl⟩
  case writeZeroesEncrypted =>
    rintro k q i e b y s u x _ a h hq hns rfl hroom henc hable front hns' ⟨hrange, hfield, hro⟩ hfit
    exact does_stepUp h (execWriteZeroes k q (.ok b) x) rfl rfl ((if_neg hq).trans (nvZeroes_encrypted hns front
      (ioCheck_ok hns' hrange (absurd rfl) hfield fun _ => hro) henc (cryptAble_ok hns fun _ => hable) hroom hfit))
  case datasetManagement =>
    intro k q i e b y s r u d h hq hreach front hns hro hdealloc hrange
    exact does_stepUp h (execDatasetManagement k q (.ok b) (.ok d)) rfl rfl
      ((if_neg hq).trans (nvDsm_runs hreach front hns hro hdealloc hrange))
  case nvmFlush =>
    intro k q i e b y s u h hq front hns
    exact does_stepUp h (execNvmFlush k q (.ok b)) rfl rfl ((if_neg hq).trans (nvFlush_starts front hns))
  case ccWrite =>
    rintro k v _ s h hexists rfl hen hstg hcfg
    obtain ⟨t, ht, rfl⟩ := does_stepHost (c := .ccWrite k v) h (execCcWrite k v) rfl rfl
      (ccWrite_starts hexists hen hstg hcfg)
    exact ⟨_, ht, by simp [ctlMod], by simp [ctlMod], by simp [ctlMod, adminSq], by simp [ctlMod, adminCq], rfl⟩
  case legComplete =>
    rintro h i c e o s _ awake rfl hcmd hleg ho he hst
    exact does_stepUp awake (execLegComplete h) rfl rfl (legComplete_drive hcmd hleg ho he hst)
  case interruptCoalescingExpiry =>
    intro k q y s h hq hheld
    exact does_stepUp h (execInterruptCoalescingExpiry k q) rfl rfl (by rw [hq]; exact if_neg hheld)

end Sys2Proof.Machine
end

section
/-! Requests of the device to hosts (O35): what a send on a link, a logged error and a change of the tags leave of the registers,
then what each answer to a request comes to where the request waits for it. -/

namespace Sys2Proof.Machine

open Sys2Proof

section
variable {s : State} {f : Fld} {ix : List Nat}

/-- The configuration space lies apart from the registers. -/
@[simp] theorem cfgPut_rd (s : State) (a n dw v : Nat) (f : Fld) (ix : List Nat) : (cfgPut s a n dw v).rd f ix = s.rd f ix := by
  unfold cfgPut
  split <;> rfl

/-! Of the registers, the link of an attach point and its tags show only in fields that a reset of the port clears. -/

section
variable (hf : f.clr ≠ .h)
include hf

theorem linkActive_rd (s : State) (a : Nat) : (linkActive s a).rd f ix = s.rd f ix := by
  have hlpm : (s.wr R.HIF_AP_LINK.LPM [a] 0).rd f ix = s.rd f ix := State.rd_wr_apart _ _ (.inl hf.symm)
  unfold linkActive
  split
  · rfl
  · dsimp only
    split
    · exact hlpm
    · exact hlpm

theorem sendTlp_rd (s : State) (a : Nat) (e : Emit) : (sendTlp s a e).rd f ix = s.rd f ix := linkActive_rd hf s a

theorem logCor_rd (s : State) (a n ebit : Nat) : (logCor s a n ebit).rd f ix = s.rd f ix := by
  unfold logCor
  dsimp only
  split <;> simp [sendTlp_rd hf]

theorem logHeader_rd (s : State) (a n ebit : Nat) (first : Bool) : (logHeader s a n ebit first).rd f ix = s.rd f ix := by
  have hfree (t : State) : ({ t with freeCtr := t.freeCtr + 1 } : State).rd f ix = t.rd f ix := rfl
  unfold logHeader
  split
  · dsimp only [State.freeBits]
    split <;> simp [hfree]
  · exact logCor_rd hf s a n 15

/-- R437: an uncorrectable error shows in the configuration space of its function and in a message. -/
theorem logUncor_rd (s : State) (a n ebit : Nat) (advisory : Bool) : (logUncor s a n ebit advisory).rd f ix = s.rd f ix := by
  unfold logUncor
  dsimp only
  repeat' split
  all_goals simp [sendTlp_rd hf, logHeader_rd hf]

theorem syncTags_rd (s : State) (a : Nat) : (syncTags s a).rd f ix = s.rd f ix := by
  unfold syncTags
  extract_lets ts out quar
  calc _ = quar.rd f ix := foldl_rd (fun _ _ => State.rd_wr_apart _ _ (.inl hf.symm)) _ _
    _ = out.rd f ix := State.rd_wr_apart _ _ (.inl hf.symm)
    _ = s.rd f ix := State.rd_wr_apart _ _ (.inl hf.symm)

theorem tagMark_rd (s : State) (a n : Nat) (st : TagSt) : (tagMark s a n st).rd f ix = s.rd f ix := syncTags_rd hf _ a

end

end

section
variable {s : State} {a f : Fin 8} {t : Fin 1024} {p : Nat} {g : Tag} {h : Held}

/-- R441: a completion that times out leaves its function quiesced or not. -/
theorem quiesced_timeout (s : State) (a n due fn : Nat) :
    quiesced (logUncor ((tagMark (clockTo s due) a n .quarantined).inc R.HIF_CNT.COUNT [a, 7]) a fn aerTimeout true) a fn
      = quiesced s a fn := by
  refine State.flag_of_rd ?_
  rw [logUncor_rd (by decide), State.rd_inc_apart _ (.inl (by decide)), tagMark_rd (by decide), clockTo_rd_above _ _ (by decide)]

/-- R441, R442: data for an outstanding tag frees it, counts as read, and goes to whoever waits. -/
theorem doReadCompletion_delivers {a t : Nat} {d : Bytes} (htag : tagFind? s a t = some g) (hst : g.st = .outstanding)
    (hlive : quiesced ((tagDrop s a t).add R.HIF_CNT.COUNT [a, 2] d.length) a g.fn = false) :
    doReadCompletion s a t (.ok d)
      = sendReady (deliver ((tagDrop s a t).add R.HIF_CNT.COUNT [a, 2] d.length) g.req (.ok d)) a := by
  unfold doReadCompletion
  rw [htag]
  dsimp only
  rw [hst]
  exact congrArg (sendReady · a) (if_neg (Bool.eq_false_iff.mp hlive))

/-- R440, R441: the timeout of an outstanding tag quarantines it, is logged, and fails the request. -/
theorem execCompletionTimeout_fails (awake : Awake s) (htag : tagFind? s a t = some g) (hst : g.st = .outstanding)
    (hlive : quiesced s a g.fn = false) :
    execCompletionTimeout a t s = .next (deliver (logUncor ((tagMark (clockTo s g.due) a t .quarantined).inc
      R.HIF_CNT.COUNT [a.val, 7]) a g.fn aerTimeout true) g.req .timeout) := by
  unfold execCompletionTimeout
  rw [awake_whenOn awake, htag]
  dsimp only
  rw [hst]
  dsimp only
  rw [quiesced_timeout, hlive]
  rfl

/-- R441: a quarantine, an orphan's or not, ends with the tag free. -/
theorem execQuarantineEnd_frees (awake : Awake s) (htag : tagFind? s a t = some g)
    (hst : g.st = .quarantined ∨ g.st = .orphanQuar) :
    execQuarantineEnd a t s = .next (sendReady (tagDrop (clockTo s g.due) a t) a) := by
  unfold execQuarantineEnd
  rw [awake_whenOn awake, htag]
  dsimp only
  obtain hst | hst := hst <;> rw [hst]

/-- R439: a translation that permits what the one request waiting for it needs is cached, and the request goes on. -/
theorem doTranslation_goes {a f target : Nat} {pasid : Option Nat} {r w : Bool}
    (hheld : s.hif.held.filter (fun x => x.waits a f pasid p) = [h]) (hfresh : h.stale = false)
    (hmay : (if h.wantsWrite then w else r) = true) :
    doTranslation s a f pasid p (some (target, r, w))
      = heldGo (atcInsert s { ap := a, fn := f, pasid := pasid, page := p, target := target, r := r, w := w }) h target := by
  have hsome : ¬((!r && !w) = true) := by
    intro hnone
    obtain ⟨rfl, rfl⟩ : r = false ∧ w = false := by simpa using hnone
    simp at hmay
  unfold doTranslation
  dsimp only
  rw [hheld, if_neg (by simp [hfresh]), if_neg hsome, if_neg (by simp)]
  exact if_pos hmay

/-- R439: a Page Request that succeeds has the request that waits for it translate again. -/
theorem pageEnd_success {a f : Nat} {pasid : Option Nat} (hwait : pageWaiter s a f pasid p = some h) :
    pageEnd s a f pasid p true =
      let u := s.sub R.HIF_FN_PRI.PRI_OUT [a, f] 1
      sendTlp (({ u with hif := { u.hif with held := u.hif.held.map (fun x => if x = h then { h with st := .retrying } else x) } }
        : State).inc R.HIF_CNT.COUNT [a, 17]) a (.transReq a f p pasid) := by
  unfold pageEnd
  rw [hwait]
  rfl

/-- R439: a Page Request that does not succeed ends the request that waits for it. -/
theorem pageEnd_failure {a f : Nat} {pasid : Option Nat} (hwait : pageWaiter s a f pasid p = some h) :
    pageEnd s a f pasid p false = heldFault (s.sub R.HIF_FN_PRI.PRI_OUT [a, f] 1) h := by
  unfold pageEnd
  rw [hwait]
  rfl

/-- R439: a response to a Page Request that is outstanding ends it. -/
theorem execPageRequestGroupResponse_ends (awake : Awake s) (ok : Bool) (hwait : pageWaiter s a f none p = some h) :
    execPageRequestGroupResponse a f none p ok s = .next (pageEnd s a f none p ok) := by
  unfold execPageRequestGroupResponse
  rw [awake_fromHost awake, Option.map_none, hwait]

/-- R439: a Page Request without a response ends when it is due, and so does the request that waits for it. -/
theorem execPriTimeout_fails (awake : Awake s) (hwait : pageWaiter s a f none p = some h)
    (hdue : pageWaiter (clockTo s h.due) a f none p = some h) :
    execPriTimeout a f none p s = .next (heldFault ((clockTo s h.due).sub R.HIF_FN_PRI.PRI_OUT [a.val, f.val] 1) h) := by
  unfold execPriTimeout
  rw [awake_whenOn awake, Option.map_none, hwait]
  exact congrArg Host.Outcome.next (pageEnd_failure hdue)

/-- R439, R450: an invalidation is noted and counted; the entries of its range leave, and requests that wait for a page of it
translate again. -/
theorem doInvalidate_shows (s : State) (v : Inval) :
    (doInvalidate s v).hif.atc = s.hif.atc.filter (fun e => !v.covers e.ap e.fn e.pasid e.page)
    ∧ (doInvalidate s v).hif.inval = s.hif.inval ++ [v]
    ∧ (doInvalidate s v).hif.held
      = s.hif.held.map (fun h => if v.covers h.ap h.fn h.pasid (h.addr / 4096) then { h with stale := true } else h)
    ∧ (doInvalidate s v).rd R.HIF_CNT.COUNT [v.ap, 19]
      = (s.rd R.HIF_CNT.COUNT [v.ap, 19] + 1) % 2 ^ R.HIF_CNT.COUNT.width := by
  refine ⟨rfl, rfl, rfl, ?count⟩
  case count =>
    unfold doInvalidate
    dsimp only
    rw [State.rd_inc_same, State.rd_wr_apart _ _ (.inl (by decide))]
    rfl

/-- R428, R439: the invalidation of a range of pages under no PASID. -/
theorem execInvalidationRequest_invalidates {i : Fin 32} {lo hi : Nat} (awake : Awake s) :
    execInvalidationRequest a f i (some none) lo hi s
      = .next (doInvalidate (linkActive s a) { ap := a, fn := f, itag := i, pasid := none, lo := lo, hi := hi }) :=
  awake_fromHost awake _

/-- R439, R433: an invalidation that no outstanding read lies under is answered. -/
theorem execInvalidationCompletion_sends {i : Fin 32} {v : Inval} (awake : Awake s)
    (hfind : s.hif.inval.find? (fun v => v.ap == a.val && v.fn == f.val && v.itag == i.val) = some v)
    (hidle : invalBusy s v = false) :
    execInvalidationCompletion a f i s
      = .next (sendPosted { s with hif := { s.hif with inval := s.hif.inval.erase v } } a (.invCpl a f i) none) := by
  unfold execInvalidationCompletion
  rw [awake_whenOn awake, hfind]
  exact if_neg (by simp [hidle])

end

/-- Settles O35: each answer to a request by the lemma that says what it comes to where the request waits for it. -/
theorem hostRequests : Obligations.HostRequests := by
  unfold Obligations.HostRequests
  refine ⟨?readCompletion, ?completionTimeout, ?quarantineEnd, ?translationResponse, ?pageRequestGroupResponse, ?priTimeout,
    ?invalidationRequest, ?invalidationCompletion⟩
  case readCompletion =>
    rintro a n g d s _ _ awake rfl htag hst rfl hlive
    exact does_stepHost awake (execReadCompletion a n (.ok d)) rfl rfl (doReadCompletion_delivers htag hst hlive)
  case completionTimeout =>
    rintro a n g s _ awake htag hst hlive rfl
    exact ⟨_, execCompletionTimeout_fails awake htag hst hlive, rfl⟩
  case quarantineEnd => exact fun a n g s awake htag hst => ⟨_, execQuarantineEnd_frees awake htag hst, rfl⟩
  case translationResponse =>
    rintro a f p g r w h s _ awake rfl hheld hfresh hmay
    exact does_stepHost awake (execTranslationResponse a f none p (some (g, r, w))) rfl rfl
      (doTranslation_goes hheld hfresh hmay)
  case pageRequestGroupResponse =>
    rintro a f p h s _ awake hwait rfl
    have ends (ok : Bool) : exec (.pageRequestGroupResponse a f none p ok) s = .next (pageEnd s a f none p ok) :=
      execPageRequestGroupResponse_ends awake ok hwait
    exact ⟨⟨_, ends true, pageEnd_success hwait⟩, ⟨_, ends false, pageEnd_failure hwait⟩⟩
  case priTimeout =>
    rintro a f p h s _ awake hwait rfl hdue
    exact ⟨_, execPriTimeout_fails awake hwait hdue, rfl⟩
  case invalidationRequest =>
    rintro a f i lo hi v s _ awake rfl rfl
    exact ⟨_, execInvalidationRequest_invalidates awake, doInvalidate_shows _ _⟩
  case invalidationCompletion =>
    exact fun a f i v s awake hfind hidle => ⟨_, execInvalidationCompletion_sends awake hfind hidle, rfl⟩

end Sys2Proof.Machine
end

section
/-! The machine as a whole: every step keeps the invariant (O5), an empty queue lets a period of CLK_TIME pass (O2), and nothing
acts while its unit is off (O7). -/

namespace Sys2Proof.Machine

open Sys2Proof

theorem Inv.of_keeps {W : List Part} {s t : State} (h : Inv s) (k : Keeps W s t) : Inv t :=
  ⟨k.hbm h.hbm, k.scratch h.scratch, k.chans h.chans⟩

/-- The parts that a period of CLK_TIME may change. -/
abbrev tickParts : List Part :=
  [.regs, .now, .hbm, .hif, .dom, .fil, .tu, .eth, .win, .grn, .tly, .car, .stg, .pwr, .out, .free]

theorem clockTick_keepsParts (s : State) : Keeps tickParts s (clockTick s) := by
  have head := May.head
  have tail := May.tail
  exact clockTick_keeps (.refl s)

theorem step_idle {s : State} (h : s.pending = []) : step s = .next (clockTick s) := by
  unfold step
  rw [h]

theorem step_front {s : State} {c : Instr} {q : List Instr} (h : s.pending = c :: q) :
    step s = exec c { s with pending := q } := by
  unfold step
  rw [h]

/-- Settles O5: a step is a period of CLK_TIME or a command, and `Keeps` of either carries the invariant (R494, R502). -/
theorem everyStepKeepsTheInvariant : Obligations.EveryStepKeepsTheInvariant := by
  unfold Obligations.EveryStepKeepsTheInvariant
  intro s t inv hstep
  cases hq : s.pending with
  | nil =>
    rw [step_idle hq] at hstep
    cases hstep
    exact inv.of_keeps (clockTick_keepsParts s)
  | cons c q =>
    obtain ⟨u, hu, k⟩ := exec_runs c { s with pending := q }
    rw [step_front hq, hu] at hstep
    cases hstep
    exact Inv.of_keeps (s := { s with pending := q }) ⟨inv.hbm, inv.scratch, inv.chans⟩ k

/-- The parts that the clock alone may change. -/
abbrev clockParts : List Part := [.regs, .now, .tu, .out, .free]

theorem clockTo_keepsParts (s : State) (n : Nat) : Keeps clockParts s (clockTo s n) := by
  have head := May.head
  have tail := May.tail
  exact clockTo_keeps (.refl s)

theorem clockTo_now {s : State} {n : Nat} (h : s.now < n) : (clockTo s n).now = n := by
  have head := May.head
  have tail := May.tail
  have k : Keeps [.regs, .tu, .out, .free] { s with now := n } (tuDue (tuAdvance { s with now := n } (n - s.now))) :=
    tuDue_keeps (tuAdvance_keeps (.refl _))
  unfold clockTo
  rw [if_neg (Nat.not_le.mpr h)]
  exact k.frame .now (by decide)

theorem tickLen_pos : 0 < tickLen := by
  unfold tickLen
  split <;> decide

theorem drainHeld_none {s : State} (h : s.pwr.held = []) : drainHeld s = s := by
  unfold drainHeld
  split
  · rfl
  · rw [h]
    show putPwr s { s.pwr with held := [] } = s
    rw [← h]
    rfl

theorem payAll_none {s : State} (h : ∀ e ∈ s.car.conns, e.2.owed = []) : payAll s = s := by
  have hnone : s.car.conns.filter (fun e => e.2.owed ≠ []) = [] :=
    List.filter_eq_nil_iff.mpr fun e he => by simp [h e he]
  unfold payAll
  rw [hnone]
  rfl

theorem judgeReads_none {s : State} (h : NvHap)
    (hnone : s.stg.cmds.filter (fun c => c.opcode == 2 && !c.posted && c.legs.all (·.ended)) = []) : judgeReads s h = s :=
  if_pos hnone

/-- R530: with no frame held, none to spill, nothing owed and no read to judge, a period of CLK_TIME moves the clock alone. -/
theorem clockTick_quiet {s : State} (hheld : s.pwr.held = []) (hawait : s.grn.await = [])
    (howed : ∀ e ∈ s.car.conns, e.2.owed = [])
    (hreads : s.stg.cmds.filter (fun c => c.opcode == 2 && !c.posted && c.legs.all (·.ended)) = []) :
    clockTick s = clockTo s (s.now + tickLen) := by
  have k := clockTo_keepsParts s (s.now + tickLen)
  have hpwr : (clockTo s (s.now + tickLen)).pwr = s.pwr := k.frame .pwr (by decide)
  have hgrn : (clockTo s (s.now + tickLen)).grn = s.grn := k.frame .grn (by decide)
  have hcar : (clockTo s (s.now + tickLen)).car = s.car := k.frame .car (by decide)
  have hstg : (clockTo s (s.now + tickLen)).stg = s.stg := k.frame .stg (by decide)
  unfold clockTick
  generalize clockTo s (s.now + tickLen) = t at *
  dsimp only
  rw [drainHeld_none (hpwr ▸ hheld), hgrn, hawait]
  show (if asleep t then t else judgeReads (payAll (spillFor t _ 0)) .done) = t
  rw [spillFor, payAll_none (hcar ▸ howed), judgeReads_none _ (hstg ▸ hreads), ite_self]

/-- Settles O2: a step with an empty queue is `clockTick`, whose first act moves the clock and whose others find nothing to do
in the second clause (R530, R531). -/
theorem idleTick : Obligations.IdleTick := by
  unfold Obligations.IdleTick
  refine ⟨fun s hq => ?_, fun s hq hheld hawait howed hreads => ?_⟩
  · have head := May.head
    have tail := May.tail
    have k := clockTick_keepsParts s
    have after : Keeps tickParts (clockTo s (s.now + tickLen)) (clockTick s) := by
      unfold clockTick
      exact keeps_ite (drainHeld_keeps (.refl _))
        (judgeReads_keeps (payAll_keeps (spillFor_keeps _ (drainHeld_keeps (.refl _)))))
    exact ⟨_, step_idle hq, Nat.le_trans (le_clockTo_now s _) after.time, k.queue.trans hq, k.sent, k.frame .stk (by decide),
      k.frame .rev (by decide), k.frame .trust (by decide), k.frame .lck (by decide)⟩
  · have k := clockTo_keepsParts s (s.now + tickLen)
    have hpos := tickLen_pos
    refine ⟨_, step_idle hq, ?_⟩
    rw [clockTick_quiet hheld hawait howed hreads]
    exact ⟨clockTo_now (by omega), k.queue.trans hq, k.frame .hbm (by decide), k.frame .win (by decide),
      k.frame .grn (by decide), k.frame .tly (by decide), k.frame .car (by decide), k.frame .hif (by decide),
      k.frame .dom (by decide), k.frame .stg (by decide), k.frame .fil (by decide), k.frame .eth (by decide)⟩

theorem byFirmware_stopped {s : State} (h : reeveRuns s = false) (f : State → Ans) : byFirmware s f = .next s :=
  if_neg (by simp [h])

theorem spdmAns_stopped {s : State} (h : reeveRuns s = false) (r : SpdmReq) (f : State → SpdmReq → Bytes × State) :
    spdmAns r f s = .next s :=
  byFirmware_stopped h _

/-- R559, R565, R603: each arm of a command that stops asleep is guarded by `whenUp`. -/
theorem exec_asleep {s : State} (h : asleep s = true) (c : Instr) : stopsAsleep c = true → exec c s = .next s := by
  cases c
  all_goals dsimp only [stopsAsleep, exec]
  all_goals intro hc
  all_goals first
    | exact absurd hc Bool.false_ne_true
    | exact whenUp_asleep h _

/-- R613: each arm of a command that needs the Reeve's firmware is guarded by `byFirmware`. -/
theorem exec_withoutFirmware {s : State} (h : reeveRuns s = false) (c : Instr) :
    needsFirmware c = true → exec c s = .next s := by
  cases c
  all_goals dsimp only [needsFirmware, exec]
  all_goals intro hc
  case getVersion | getCapabilities | negotiateAlgorithms | getDigests | getCertificate | challenge | getMeasurements
    | keyExchange | finish | heartbeat | endSession | chunkSend | chunkGet | getEncapsulatedRequest
    | deliverEncapsulatedResponse => exact spdmAns_stopped h _ _
  all_goals first
    | exact absurd hc Bool.false_ne_true
    | exact byFirmware_stopped h _

/-- Settles O7: the guard in front of each command's meaning answers the state as it was. -/
theorem sleepersWait : Obligations.SleepersWait := by
  unfold Obligations.SleepersWait
  exact ⟨fun c s hc h => exec_asleep h c hc, fun c s hc h => exec_withoutFirmware h c hc⟩

end Sys2Proof.Machine
end

section
/-! HBM (O8): bytes written to usable HBM read back, every other byte and every byte of retired HBM reads as before. -/

namespace Sys2Proof.Machine

open Sys2Proof

/-- A write reaches no address below its first, and none past its last. -/
theorem memWrite_get_apart (b : Bytes) : ∀ (m : List Host.Cell) {a x : Nat}, (x < a ∨ a + b.length ≤ x) →
    SMap.get 0 (memWrite m a b) x = SMap.get 0 m x := by
  induction b with
  | nil => intro m a x _; rfl
  | cons c b ih =>
    intro m a x h
    rw [List.length_cons] at h
    rw [memWrite, ih _ (by omega), SMap.get_set_ne _ _ _ _ (by omega)]

theorem memWrite_get (b : Bytes) : ∀ (m : List Host.Cell) (a : Nat) {i : Nat} (h : i < b.length),
    SMap.get 0 (memWrite m a b) (a + i) = b[i] := by
  induction b with
  | nil => intro m a i h; exact absurd h (Nat.not_lt_zero i)
  | cons c b ih =>
    intro m a i h
    rw [memWrite]
    cases i with
    | zero => rw [memWrite_get_apart b _ (by omega)]; exact SMap.get_set_same 0 m a c
    | succ i =>
      rw [show a + (i + 1) = a + 1 + i by omega]
      exact ih _ _ (Nat.lt_of_succ_lt_succ h)

/-- R595: a byte that HBM has lost, or that the write does not reach, stays. -/
theorem hbmWriteSome_get_apart (s : State) (b : Bytes) : ∀ (m : List Host.Cell) {a x : Nat} (l : List Nat),
    (x < a ∨ a + b.length ≤ x ∨ s.hbmGone x = true) → SMap.get 0 (hbmWriteSome s m a b l).1 x = SMap.get 0 m x := by
  induction b with
  | nil => intro m a x l _; rfl
  | cons c b ih =>
    intro m a x l h
    rw [List.length_cons] at h
    rw [hbmWriteSome]
    have hrest : x < a + 1 ∨ a + 1 + b.length ≤ x ∨ s.hbmGone x = true := by
      rcases h with h | h | h
      · exact .inl (by omega)
      · exact .inr (.inl (by omega))
      · exact .inr (.inr h)
    split
    · exact ih _ _ hrest
    next hgone =>
      have hx : x ≠ a := by
        rintro rfl
        rcases h with h | h | h
        · omega
        · omega
        · exact hgone h
      rw [ih _ _ hrest, SMap.get_set_ne _ _ _ _ hx]

/-- R595: where HBM has lost none of the bytes, the write of single bytes is the plain write. -/
theorem hbmWriteSome_whole (s : State) (b : Bytes) : ∀ (m : List Host.Cell) (a : Nat) (l : List Nat),
    (∀ i, i < b.length → s.hbmGone (a + i) = false) → hbmWriteSome s m a b l = (memWrite m a b, l) := by
  induction b with
  | nil => intro m a l _; rfl
  | cons c b ih =>
    intro m a l h
    have h0 : s.hbmGone a = false := h 0 (Nat.succ_pos _)
    rw [hbmWriteSome, h0, if_neg Bool.false_ne_true, memWrite]
    refine ih _ _ _ fun i hi => ?_
    rw [show a + 1 + i = a + (i + 1) by omega]
    exact h (i + 1) (Nat.succ_lt_succ hi)

/-- The HBM that a write leaves, by whether every stack is whole. -/
theorem hbmWrite_hbm (s : State) (a : Nat) (b : Bytes) : (s.hbmWrite a b).hbm =
    if s.hbmWhole then memWrite s.hbm a b
    else (hbmWriteSome (dropResv s (a / 64) ((a + b.length - 1) / 64)) s.hbm a b []).1 := by
  unfold State.hbmWrite
  extract_lets t
  have hwhole : t.hbmWhole = s.hbmWhole := rfl
  rw [hwhole]
  split <;> rfl

/-- Settles O8: by the length of what is written, for a write to whole HBM and for one byte by byte (R494, R595). -/
theorem hbmReadsBack : Obligations.HbmReadsBack := by
  unfold Obligations.HbmReadsBack
  refine ⟨fun s a b h => ?_, fun s a x b h => ?_⟩
  · have hmem : (s.hbmWrite a b).hbm = memWrite s.hbm a b := by
      rw [hbmWrite_hbm]
      split
      · rfl
      next hwhole => exact congrArg Prod.fst (hbmWriteSome_whole (dropResv s _ _) b _ _ _ (h.resolve_left hwhole))
    refine List.ext_getElem (by simp [State.hbmRead]) fun i hi hib => ?_
    simp only [State.hbmRead, State.hbmByte, List.getElem_map, List.getElem_range, hmem]
    exact memWrite_get b _ a hib
  · unfold State.hbmByte
    rw [hbmWrite_hbm]
    split
    next hwhole =>
      refine memWrite_get_apart b _ ?_
      rcases h with h | h | ⟨h, _⟩
      · exact .inl h
      · exact .inr h
      · exact absurd hwhole (by simp [h])
    next =>
      refine hbmWriteSome_get_apart _ b _ _ ?_
      rcases h with h | h | ⟨_, h⟩
      · exact .inl h
      · exact .inr (.inl h)
      · exact .inr (.inr h)

end Sys2Proof.Machine
end

section
/-! The control window: what an access outside every block's window leaves (O10), and the registers out of reset (O4). -/

namespace Sys2Proof.Machine

open Sys2Proof

/-- A field of GLB's window shares no storage with one of a later block. -/
theorem Fld.apart_of_glb {f g : Fld} {ix jx : List Nat} (hg : 0x100000 ≤ g.base) (hf : f.key ix < 8 * 0x100000) :
    Fld.apart f g ix jx :=
  .inr fun e => by rw [e, Fld.key, Fld.addr] at hf; omega

theorem awake_bankOff {s : State} (h : Awake s) (a : Nat) : bankOff s a = false := by
  have hst : pwrSt s ≠ psStandby := by
    have hpow := awake_powered h
    simp only [poweredOff, Bool.or_eq_false_iff, beq_eq_false_iff_ne] at hpow
    exact hpow.2
  simp [bankOff, hst]

theorem rpWindow_outside {a : Nat} (h : blkOf a = none) : rpWindow a = none := by
  unfold rpWindow
  split
  next hw =>
    have hstg : blkOf a = some .stg := by
      simp only [Bool.and_eq_true, decide_eq_true_eq] at hw
      unfold blkOf
      rw [if_neg, if_neg, if_neg, if_neg, if_neg, if_neg, if_neg, if_neg, if_pos] <;>
        simp only [Bool.and_eq_true, decide_eq_true_eq] <;> omega
    rw [hstg] at h
    cases h
  next => rfl

/-- R673: what the capture of an access error outside every window shows, and that it reaches GLB's registers alone. -/
theorem accessErr_captures {s : State} (m : MDom) (a : Fin 67108864) (hfree : s.flag R.GLB_ERR.VALID [] = false) :
    (accessErr s m 1 (4 * a.val)).flag R.GLB_ERR.VALID [] = true ∧ (accessErr s m 1 (4 * a.val)).rd R.GLB_ERR.KIND [] = 1
      ∧ (accessErr s m 1 (4 * a.val)).rd R.GLB_ERR_ADDR.ADDR [] = 4 * a.val
      ∧ ∀ (f : Fld) (ix : List Nat), 0x100000 ≤ f.base → (accessErr s m 1 (4 * a.val)).rd f ix = s.rd f ix := by
  have hcapture : accessErr s m 1 (4 * a.val) = ((((s.inc R.GLB_CNT.COUNT [0]).wr R.GLB_ERR.VALID [] 1).wr R.GLB_ERR.KIND [] 1).wr
      R.GLB_ERR.DOMAIN [] (domCode m)).wr R.GLB_ERR_ADDR.ADDR [] (4 * a.val / 4 * 4) := by
    unfold accessErr
    rw [if_pos rfl]
    exact if_neg (by rw [State.flag_inc_apart _ (by decide), hfree]; decide)
  rw [hcapture]
  refine ⟨?_, ?_, ?_, fun f ix hf => ?_⟩
  · simp (disch := decide) only [State.flag_wr_apart, State.flag_wr_bit]
    rfl
  · simp (disch := decide) only [State.rd_wr_apart, State.rd_wr_same]
    rfl
  · have ha := a.isLt
    rw [State.rd_wr_same]
    show 4 * a.val / 4 * 4 % 2 ^ 28 = 4 * a.val
    omega
  · rw [State.rd_wr_apart _ _ (Fld.apart_of_glb hf (by decide)), State.rd_wr_apart _ _ (Fld.apart_of_glb hf (by decide)),
      State.rd_wr_apart _ _ (Fld.apart_of_glb hf (by decide)), State.rd_wr_apart _ _ (Fld.apart_of_glb hf (by decide)),
      State.rd_inc_apart _ (Fld.apart_of_glb hf (by decide))]

theorem accessErr_regsOnly (s : State) (m : MDom) (k a : Nat) : accessErr s m k a = { s with regs := (accessErr s m k a).regs } := by
  unfold accessErr
  extract_lets t
  split <;> rfl

section
variable {s : State} (h : Awake s) {a : Nat} (hout : blkOf a = none) (m : MDom)
include h hout

theorem wordRead_outside : wordRead s m a = (0, accessErr s m 1 a) := by
  unfold wordRead
  rw [awake_bankOff h, rpWindow_outside hout, hout]
  rfl

theorem wordWrite_outside (w : Nat) : wordWrite s m a w = accessErr s m 1 a := by
  unfold wordWrite
  rw [awake_bankOff h, rpWindow_outside hout, hout]
  rfl

end

/-- Settles O10: an offset of no block and of no root port comes to an access error of KIND 1 (R666). -/
theorem outsideEveryWindow : Obligations.OutsideEveryWindow := by
  unfold Obligations.OutsideEveryWindow
  refine ⟨fun m a s h allow hout hfree => ?_, fun m a v s h allow hout hfree => ?_⟩
  · have hread : wordsRead s m (4 * a.val) 1 = (0, accessErr s m 1 (4 * a.val)) := by
      simp [wordsRead, wordRead_outside h hout]
    have e : exec (.rcRead m a false) s = execRcRead m a false s := rfl
    unfold execRcRead at e
    rw [if_neg (by simp [awake_bellman h])] at e
    refine does_fromDomain h allow e ⟨(accessErr s m 1 (4 * a.val)).emit (.data 0), ?_, ?_⟩
    · rw [if_neg Bool.false_ne_true, hread]
    · have captured := accessErr_captures m a hfree
      obtain ⟨r, hr⟩ : ∃ r, accessErr s m 1 (4 * a.val) = { s with regs := r } := ⟨_, accessErr_regsOnly s m 1 _⟩
      rw [hr] at captured ⊢
      exact ⟨rfl, rfl, captured⟩
  · have hwrite : winWrite s m (4 * a.val) (.w4 v) = accessErr s m 1 (4 * a.val) := wordWrite_outside h hout m _
    have e : exec (.registerWrite m a (.w4 v)) s = execRegisterWrite m a (.w4 v) s := rfl
    unfold execRegisterWrite at e
    exact does_fromDomain h allow e ⟨_, congrArg Host.Outcome.next hwrite, accessErr_regsOnly s m 1 _,
      accessErr_captures m a hfree⟩

/-- Settles O4: a register file that lists nothing reads the reset values of the register maps (R555, R579, R607, R673). -/
theorem resetRegisters : Obligations.ResetRegisters := by
  unfold Obligations.ResetRegisters
  have hflag (f : Fld) (ix : List Nat) : State.reset.flag f ix = (f.reset ix % 2 == 1) :=
    congrArg (· % 2 == 1) (State.rd_reset f ix)
  simp only [State.rd_reset, hflag]
  decide

end Sys2Proof.Machine
end

section
/-! Fields of the register maps that share no storage for any index: two lemmas that a discharger applies. -/

namespace Sys2Proof.Machine

open Sys2Proof

/-- Two fields of arrays of 16 bytes per index whose places within the 16 bytes differ. -/
theorem Fld.apart_of_line {f g : Fld} {n m i j : Nat} (hf : f.dims = [(n, 16)]) (hg : g.dims = [(m, 16)])
    (h : (8 * f.base + f.lo) % 128 ≠ (8 * g.base + g.lo) % 128) : Fld.apart f g [i] [j] := by
  refine .inr fun e => h ?_
  simp only [Fld.key, Fld.addr, hf, hg, dimOffset] at e
  omega

/-- A field instance that lies below the register of another. -/
theorem Fld.apart_of_below {f g : Fld} {ix jx : List Nat} (h : f.key ix < 8 * g.base) : Fld.apart f g ix jx :=
  .inr fun e => by rw [e, Fld.key, Fld.addr] at h; omega

/-- A field instance that lies above the register of another. -/
theorem Fld.apart_of_over {f g : Fld} {ix jx : List Nat} (h : g.key jx < 8 * f.base) : Fld.apart f g ix jx :=
  .inr fun e => by rw [← e, Fld.key, Fld.addr] at h; omega

end Sys2Proof.Machine
end

section
/-! The mailbox: commands on domains (O38) and on instances (O39), each by what its command answers, and the command on rings
that refutes O40. -/

namespace Sys2Proof.Machine

open Sys2Proof

@[simp] theorem slotMb_slotMbPut_same (s : State) (k : Nat) (x : MbxSlot) : slotMb (slotMbPut s k x) k = x :=
  SMap.get_set_same _ _ _ _

/-- R459, R460: GO of a slot that is not busy, with firmware ready. -/
theorem mbGo_queues {s : State} {k : Nat} (hidle : (slotMb s k).busy = false) (hready : s.flag R.DOM_STATUS.FW_READY [] = true) :
    (slotMb (mbGo s k) k).busy = true ∧ (slotMb (mbGo s k) k).done = false
      ∧ (mbGo s k).dom.queue = s.dom.queue ++ [{ slot := some k, cmd := slice (slotMb s k).cmd 0 256 }]
      ∧ (mbGo s k).regs = s.regs := by
  let x : MbxSlot := { slotMb s k with busy := true, done := false }
  let u := latchEv (slotMbPut s k x) (s.rd R.FIL_CFG.MBX_HART []) 50
  have hgo : mbGo s k = { u with dom := { u.dom with
      queue := u.dom.queue ++ [{ slot := some k, cmd := slice (slotMb s k).cmd 0 256 }] } } := by
    simp [mbGo, hidle, hready, u, x]
  have hslot : slotMb (mbGo s k) k = x := by
    rw [hgo]
    exact slotMb_slotMbPut_same s k x
  rw [hslot]
  exact ⟨rfl, rfl, by rw [hgo]; rfl, by rw [hgo]; rfl⟩

section
variable {s u : State} {op : Nat} {c : MbxCmd} (front : MbxFront s op c u)
include front

theorem mbNow_front {f : State → Bytes → Except Nat (State × Bytes)} {v : State} {res : Bytes} (hf : f u c.cmd = .ok (v, res)) :
    mbNow s op f = mbEnd v c 0 res := by
  unfold mbNow
  rw [mbRun_front front, hf]

theorem mbLong_front {f : State → Bytes → Except Nat State} {v : State} (hf : f u c.cmd = .ok v) :
    mbLong s op f = { v with dom := { v.dom with running := some c } } := by
  unfold mbLong
  rw [mbRun_front front, hf]

/-- The registers are as they were when firmware takes a command. -/
theorem front_regs : u.regs = s.regs := by
  obtain ⟨_, _, _, _, rfl⟩ := front
  rfl

theorem front_hif : u.hif = s.hif := by
  obtain ⟨_, _, _, _, rfl⟩ := front
  rfl

theorem front_rd (f : Fld) (ix : List Nat) : u.rd f ix = s.rd f ix := by rw [State.rd, front_regs front]; rfl

theorem front_flag (f : Fld) (ix : List Nat) : u.flag f ix = s.flag f ix := State.flag_of_rd (front_rd front f ix)

theorem front_instState (i : Nat) : instState u i = instState s i := front_rd front _ _

theorem front_instsIn (d : Nat) : instsIn u d = instsIn s d := by
  unfold instsIn instsWhere
  simp only [front_instState front, front_rd front]

/-- A mailbox command that ends at once, of an awake block. -/
theorem does_mbNow {i : Instr} {f : State → Bytes → Except Nat (State × Bytes)} {v : State} {res : Bytes} {p : State → Prop}
    (awake : Awake s) (e : exec i s = whenUp s fun s => .next (mbNow s op f)) (hf : f u c.cmd = .ok (v, res))
    (hp : p (mbEnd v c 0 res)) : Does i s p :=
  does_whenUp awake e ⟨_, congrArg Host.Outcome.next (mbNow_front front hf), hp⟩

end

/-- R455: a domain made valid with its limits. -/
def domMade (s : State) (d mi mr : Nat) : State :=
  (((s.wr R.DOM_DOMAIN_W0.VALID [d] 1).wr R.DOM_DOMAIN_W2.MAX_INST [d] mi).wr R.DOM_DOMAIN_W3.MAX_RINGS [d] mr).inc
    R.DOM_STATUS.DOMAINS []

theorem domMade_shows {s : State} {d mi mr : Nat} (hmi : mi ≤ 16384) (hmr : mr ≤ 262144) :
    (domMade s d mi mr).flag R.DOM_DOMAIN_W0.VALID [d] = true ∧ (domMade s d mi mr).rd R.DOM_DOMAIN_W2.MAX_INST [d] = mi
      ∧ (domMade s d mi mr).rd R.DOM_DOMAIN_W3.MAX_RINGS [d] = mr
      ∧ (domMade s d mi mr).rd R.DOM_STATUS.DOMAINS [] = (s.rd R.DOM_STATUS.DOMAINS [] + 1) % 2 ^ R.DOM_STATUS.DOMAINS.width := by
  unfold domMade
  refine ⟨?_, ?_, ?_, ?_⟩
  · rw [State.flag_inc_apart _ (Fld.apart_of_below (by decide)), State.flag_wr_apart _ _ (Fld.apart_of_line rfl rfl (by decide)),
      State.flag_wr_apart _ _ (Fld.apart_of_line rfl rfl (by decide)), State.flag_wr_bit _ _ (by decide)]
    rfl
  · rw [State.rd_inc_apart _ (Fld.apart_of_below (by decide)), State.rd_wr_apart _ _ (Fld.apart_of_line rfl rfl (by decide)),
      State.rd_wr_same]
    exact Nat.mod_eq_of_lt (Nat.lt_of_le_of_lt hmi (by decide))
  · rw [State.rd_inc_apart _ (Fld.apart_of_below (by decide)), State.rd_wr_same]
    exact Nat.mod_eq_of_lt (Nat.lt_of_le_of_lt hmr (by decide))
  · rw [State.rd_inc_same, State.rd_wr_apart _ _ (Fld.apart_of_over (by decide)),
      State.rd_wr_apart _ _ (Fld.apart_of_over (by decide)), State.rd_wr_apart _ _ (Fld.apart_of_over (by decide))]

/-- R462: DOM_CREATE of a domain that is not valid. -/
theorem domCreate_makes {s : State} {b : Bytes} {d mi mr : Nat} (hd : d = leAt b 8 2) (hmi : mi = leAt b 10 2)
    (hmr : mr = leAt b 12 4) (hsome : 0 < d ∧ d < 1024 ∧ 0 < mi ∧ mi ≤ 16384 ∧ 0 < mr ∧ mr ≤ 262144)
    (hfree : domValid s d = false) :
    domCreate s b = .ok (domMade s d mi mr, leBytes 2 d ++ List.replicate 6 0 ++ leBytes 8 (bindOf s d)) := by
  have hbind (u : State) (f : Fld) (v : Nat) (hf : f.clr = .w) : bindOf (u.wr f [d] v) d = bindOf u d := by
    unfold bindOf
    rw [State.rd_wr_apart _ _ (.inl (by rw [hf]; decide)), State.rd_wr_apart _ _ (.inl (by rw [hf]; decide))]
  obtain ⟨hpos, hlt, hinst, hinst', hring, hring'⟩ := hsome
  have hgood : ¬(d = 0 || (1024 ≤ d && d ≠ 0xFFFF) || mi = 0 || mi > 16384 || mr = 0 || mr > 262144) = true := by
    simp only [Bool.or_eq_true, Bool.and_eq_true, decide_eq_true_eq]
    omega
  have hnamed : d ≠ 0xFFFF := by omega
  unfold domCreate
  rw [← hd, ← hmi, ← hmr, if_neg hgood, hfree, if_neg (by simp), if_pos hnamed]
  dsimp only
  rw [hbind _ _ _ rfl, hbind _ _ _ rfl, hbind _ _ _ rfl]
  rfl

/-- R456: what freeing a domain shows. -/
theorem freeDomain_shows (s : State) (d : Nat) : (freeDomain s d).flag R.DOM_DOMAIN_W0.VALID [d] = false
    ∧ (freeDomain s d).rd R.DOM_DOMAIN_W2.MAX_INST [d] = 0 ∧ (freeDomain s d).rd R.DOM_DOMAIN_W3.MAX_RINGS [d] = 0
    ∧ (freeDomain s d).dom = s.dom := by
  have head := May.head
  have tail := May.tail
  have k : Keeps [.regs, .lck, .hsk] s (rangeWrite s d (s.rd R.LCK_DOM_W0.BASE [d]) 0) := rangeWrite_keeps (.refl s)
  unfold freeDomain
  refine ⟨?_, ?_, ?_, k.frame .dom (by decide)⟩
  · rw [State.flag, ← State.rd, State.rd_sub_apart _ _ (Fld.apart_of_below (by decide)),
      State.rd_wr_apart _ _ (Fld.apart_of_line rfl rfl (by decide)), State.rd_wr_apart _ _ (Fld.apart_of_line rfl rfl (by decide)),
      State.rd_wr_same]
    rfl
  · rw [State.rd_sub_apart _ _ (Fld.apart_of_below (by decide)), State.rd_wr_apart _ _ (Fld.apart_of_line rfl rfl (by decide)),
      State.rd_wr_same]
    exact Nat.zero_mod _
  · rw [State.rd_sub_apart _ _ (Fld.apart_of_below (by decide)), State.rd_wr_same]
    exact Nat.zero_mod _

/-- R456: DOM_DESTROY of a domain without instances. -/
theorem domDestroy_frees {s u : State} {c : MbxCmd} {d : Nat} (front : MbxFront s 0x0002 c u) (hd : d = leAt c.cmd 8 2)
    (hnum : 0 < d ∧ d < 1024) (hvalid : domValid s d = true) (hempty : instsIn s d = []) :
    domDestroy s = mbEnd (freeDomain u d) c 0 [] := by
  have hvalid' : domValid u d = true := (front_flag front _ _).trans hvalid
  have hempty' : instsIn u d = [] := (front_instsIn front d).trans hempty
  have hgood : ¬(d = 0 || d > 1023) = true := by
    simp only [Bool.or_eq_true, decide_eq_true_eq]
    omega
  unfold domDestroy
  rw [mbRun_front front]
  dsimp only
  rw [← hd, if_neg hgood, hvalid', hempty']
  simp

theorem domQuery_answers {s : State} {b : Bytes} {d : Nat} (hd : d = leAt b 8 2) (hnum : d < 1024) :
    domQuery s b = .ok (s, [byteOf (b2n (domValid s d)), 0] ++ leBytes 2 (s.rd R.DOM_DOMAIN_W0.INSTANCES [d])
      ++ leBytes 4 (s.rd R.DOM_DOMAIN_W1.RINGS [d]) ++ leBytes 8 (bindOf s d)) := by
  unfold domQuery
  rw [← hd, if_neg (Nat.not_le.mpr hnum)]

/-- Settles O38: GO by what it queues, each command by what it answers at the front of the queue. -/
theorem mailboxDomains : Obligations.MailboxDomains := by
  unfold Obligations.MailboxDomains
  refine ⟨?mailboxGo, ?domCreate, ?domDestroy, ?domQuery⟩
  case mailboxGo =>
    intro k s awake hidle hready
    exact does_fromHost awake (f := fun s => .next (mbGo s k.val)) rfl ⟨_, rfl, mbGo_queues hidle hready⟩
  case domCreate =>
    intro d mi mr c s u awake front ⟨hd, hmi, hmr⟩ hsome hfree
    have hfree' : domValid u d = false := (front_flag front _ _).trans hfree
    obtain ⟨hvalid, hinst, hrings, hcount⟩ := domMade_shows (s := u) (d := d) hsome.2.2.2.1 hsome.2.2.2.2.2
    have hbind : bindOf u d = bindOf s d := by simp only [bindOf, front_rd front]
    refine does_mbNow front awake rfl (domCreate_makes hd hmi hmr hsome hfree') ⟨_, ?_, hvalid, hinst, hrings, ?_, rfl⟩
    · rw [hbind]
    · rw [hcount, front_rd front]
  case domDestroy =>
    intro d c s u awake front hd hnum hvalid hempty
    exact does_whenUp awake (f := fun s => .next (domDestroy s)) rfl
      ⟨_, congrArg _ (domDestroy_frees front hd hnum hvalid hempty), _, rfl, freeDomain_shows u d⟩
  case domQuery =>
    intro d c s u awake front hd hnum
    refine does_mbNow front awake rfl (domQuery_answers hd hnum) ?_
    have hvalid : domValid u d = domValid s d := front_flag front _ _
    have hbind : bindOf u d = bindOf s d := by simp only [bindOf, front_rd front]
    rw [hvalid, hbind, front_rd front, front_rd front]

end Sys2Proof.Machine
end

section
/-! The mailbox: commands on instances (O39), each by what it answers. -/

namespace Sys2Proof.Machine

open Sys2Proof

/-- R457, R464: an instance without PASID made ACTIVE, its vectors not yet listed. -/
def instMade (s : State) (i d cl a pasid nv b : Nat) : State :=
  let s := (((s.wr R.DOM_INST_W0.STATE [i] 1).wr R.DOM_INST_W0.CLASS [i] cl).wr R.DOM_INST_W0.AP [i] a).wr R.DOM_INST_W0.DOMAIN [i] d
  let s := (s.wr R.DOM_INST_W1.PASID [i] pasid).wr R.DOM_INST_W1.PASID_EN [i] 0
  let s := (s.wr R.DOM_INST_W2.IRQ_BASE [i] b).wr R.DOM_INST_W2.NVEC [i] nv
  ((s.add R.DOM_IRQ.IRQ_USED [] nv).inc R.DOM_USE.INSTANCES []).inc R.DOM_DOMAIN_W0.INSTANCES [d]

/-- R450: the entries of an instance's vectors, valid and masked. -/
def vectorsMade (s : State) (i cl a nv b : Nat) : State :=
  (List.range nv).foldl (fun s v =>
    irqPut s (b + v) { addr := 0, data := 0, valid := true, mask := true, pend := false, ap := a, func := cl, inst := i }) s

theorem State.flag_eq_rd (s : State) (f : Fld) (ix : List Nat) : s.flag f ix = (s.rd f ix % 2 == 1) := rfl

theorem vectorsMade_keeps (s : State) (i cl a nv b : Nat) : Keeps [.hif] s (vectorsMade s i cl a nv b) := by
  have head := May.head
  exact keeps_foldl (.refl s) fun _ _ h => irqPut_keeps h

theorem vectorsMade_rd (s : State) (i cl a nv b : Nat) (f : Fld) (ix : List Nat) :
    (vectorsMade s i cl a nv b).rd f ix = s.rd f ix := by
  rw [State.rd, (vectorsMade_keeps s i cl a nv b).frame .regs (by decide)]
  rfl

section
variable {s : State} {i d cl a pasid nv b : Nat}

theorem instMade_rd {f : Fld} {n : Nat} (hf : f.dims = [(n, 16)]) (hlow : 0x02010000 ≤ f.base)
    (hinst : (8 * f.base + f.lo) % 128 ≠ 1) : (instMade s i d cl a pasid nv b).rd f [i] =
    (((((((((s.wr R.DOM_INST_W0.STATE [i] 1).wr R.DOM_INST_W0.CLASS [i] cl).wr R.DOM_INST_W0.AP [i] a).wr
      R.DOM_INST_W0.DOMAIN [i] d).wr R.DOM_INST_W1.PASID [i] pasid).wr R.DOM_INST_W1.PASID_EN [i] 0).wr
      R.DOM_INST_W2.IRQ_BASE [i] b).wr R.DOM_INST_W2.NVEC [i] nv)).rd f [i] := by
  have hbelow {g : Fld} {jx : List Nat} (hg : g.key jx < 8 * 0x02010000) : Fld.apart g f jx [i] :=
    Fld.apart_of_below (Nat.lt_of_lt_of_le hg (Nat.mul_le_mul_left 8 hlow))
  have hline : Fld.apart R.DOM_DOMAIN_W0.INSTANCES f [d] [i] := Fld.apart_of_line rfl hf hinst.symm
  unfold instMade
  dsimp only
  rw [State.rd_inc_apart _ hline, State.rd_inc_apart _ (hbelow (by decide)), State.rd_add_apart _ _ (hbelow (by decide))]

theorem instMade_keeps : Keeps [.regs] s (instMade s i d cl a pasid nv b) := by
  have head := May.head
  have start : Keeps [.regs] s s := .refl s
  unfold instMade
  repeat (with_reducible first | assumption | apply State.wr_keeps | apply State.inc_keeps | apply State.add_keeps)

theorem instMade_shows (hd : d < 1024) (hcl : cl ≤ 3) (ha : a < 8) (hnv : nv ≤ 2048) :
    instState (instMade s i d cl a pasid nv b) i = 1 ∧ (instMade s i d cl a pasid nv b).rd R.DOM_INST_W0.CLASS [i] = cl
      ∧ (instMade s i d cl a pasid nv b).rd R.DOM_INST_W0.AP [i] = a
      ∧ (instMade s i d cl a pasid nv b).rd R.DOM_INST_W0.DOMAIN [i] = d
      ∧ (instMade s i d cl a pasid nv b).flag R.DOM_INST_W1.PASID_EN [i] = false
      ∧ (instMade s i d cl a pasid nv b).rd R.DOM_INST_W2.NVEC [i] = nv
      ∧ (instMade s i d cl a pasid nv b).rd R.DOM_INST_W2.IRQ_BASE [i] = b % 2 ^ R.DOM_INST_W2.IRQ_BASE.width := by
  simp only [instState, State.flag_eq_rd]
  refine ⟨?_, ?_, ?_, ?_, ?_, ?_, ?_⟩ <;> rw [instMade_rd rfl (by decide) (by decide)] <;>
    simp (disch := (refine Fld.apart_of_line rfl rfl ?_; decide)) only [State.rd_wr_apart, State.rd_wr_same]
  · rfl
  · exact Nat.mod_eq_of_lt (Nat.lt_of_le_of_lt hcl (by decide))
  · exact Nat.mod_eq_of_lt ha
  · exact Nat.mod_eq_of_lt hd
  · rfl
  · exact Nat.mod_eq_of_lt (Nat.lt_of_le_of_lt hnv (by decide))

end

section
variable {s : State} {c : Bytes}

/-- R462: INST_CREATE of a free instance that names no PASID, in a domain with room. -/
theorem instCreate_makes {d cl a nv i b : Nat} (hd : d = leAt c 8 2) (hcl : cl = byteAt c 10) (ha : a = byteAt c 11)
    (hnv : nv = leAt c 16 2) (hi : i = leAt c 18 2)
    (hgood : d < 1024 ∧ 1 ≤ cl ∧ cl ≤ 3 ∧ 0 < nv ∧ nv ≤ (if cl = 3 then 65 else 2048) ∧ i < 16384)
    (hport : apPresent s a = true) (hvalid : domValid s d = true) (hfree : instState s i = 0)
    (hplain : bit (leAt c 12 4) 31 = false)
    (hfit : areaFit 0 65536 nv ((instsWhere s (fun _ => true)).map
      (fun j => (s.rd R.DOM_INST_W2.IRQ_BASE [j], s.rd R.DOM_INST_W2.NVEC [j]))) = some b)
    (hroom : s.rd R.DOM_DOMAIN_W0.INSTANCES [d] < s.rd R.DOM_DOMAIN_W2.MAX_INST [d]) :
    instCreate s c = .ok (vectorsMade (instMade s i d cl a (leAt c 12 4 % 2 ^ 20) nv b) i cl a nv b,
      leBytes 2 i ++ [0, 0] ++ leBytes 2 b) := by
  obtain ⟨hd', hcl1, hcl3, hnv0, hnv', hi'⟩ := hgood
  have hok : ¬(d ≥ 1024 || !(1 ≤ cl && cl ≤ 3) || !apPresent s a || nv = 0 || nv > (if cl = 3 then 65 else 2048)
      || (i ≥ 16384 && i ≠ 0xFFFF)) = true := by
    rw [hport]
    simp only [Bool.or_eq_true, Bool.and_eq_true, Bool.not_eq_true', Bool.and_eq_false_iff, decide_eq_true_eq,
      decide_eq_false_iff_not, Bool.not_true, Bool.false_eq_true, or_false]
    omega
  have hnamed : i ≠ 0xFFFF := by omega
  unfold instCreate
  rw [← hd, ← hcl, ← ha, ← hnv, ← hi, if_neg hok, hvalid, if_neg (by decide), hfree, hplain, if_neg (by simp), if_pos hnamed]
  dsimp only
  rw [hfit]
  dsimp only
  rw [if_neg (Nat.not_le.mpr hroom)]
  rfl

theorem instDestroy_begins {i : Nat} (hi : i = leAt c 8 2) (hnum : i < 16384) (hst : instState s i ≠ 0) :
    instDestroy s c = .ok (beginReset s i true) := by
  unfold instDestroy
  rw [← hi, if_neg (Nat.not_le.mpr hnum), if_neg hst]

theorem instReset_begins {i : Nat} (hi : i = leAt c 8 2) (hnum : i < 16384) (hst : instState s i ≠ 0 ∧ instState s i ≠ 5) :
    instReset s c = .ok (beginReset s i false) := by
  unfold instReset
  rw [← hi, if_neg (Nat.not_le.mpr hnum), if_neg hst.1, if_neg hst.2]

theorem instQuery_answers {i : Nat} (hi : i = leAt c 8 2) (hnum : i < 16384) :
    instQuery s c = .ok (s, [byteOf (instState s i), byteOf (s.rd R.DOM_INST_W0.CLASS [i]), byteOf (s.rd R.DOM_INST_W0.AP [i]), 0]
      ++ leBytes 4 (s.rd R.DOM_INST_W1.PASID [i] + 2 ^ 31 * s.rd R.DOM_INST_W1.PASID_EN [i])
      ++ leBytes 2 (s.rd R.DOM_INST_W2.IRQ_BASE [i]) ++ leBytes 2 (s.rd R.DOM_INST_W2.NVEC [i])
      ++ leBytes 2 (s.rd R.DOM_INST_W3.RINGS [i]) ++ leBytes 2 (s.rd R.DOM_INST_W0.DOMAIN [i])) := by
  unfold instQuery
  rw [← hi, if_neg (Nat.not_le.mpr hnum)]

theorem irqWrite_replaces {i v n : Nat} (hi : i = leAt c 8 2) (hv : v = leAt c 10 2) (hnum : i < 16384)
    (hst : instState s i = 1 ∨ instState s i = 2 ∨ instState s i = 3) (hvec : v < s.rd R.DOM_INST_W2.NVEC [i])
    (halign : leAt c 16 8 % 4 = 0) (hn : n = s.rd R.DOM_INST_W2.IRQ_BASE [i] + v) :
    irqWrite s c = .ok (irqPut s n { SMap.get IrqEnt.none s.hif.irq n with
      addr := leAt c 16 8, data := leAt c 24 4, mask := bit (byteAt c 12) 0 }, []) := by
  have hok : ¬(i ≥ 16384 || leAt c 16 8 % 4 ≠ 0 || (instState s i ≠ 0 && v ≥ s.rd R.DOM_INST_W2.NVEC [i])) = true := by
    simp only [Bool.or_eq_true, Bool.and_eq_true, decide_eq_true_eq]
    omega
  have hlive : ¬(instState s i = 4 || instState s i = 5) = true := by
    simp only [Bool.or_eq_true, decide_eq_true_eq]
    omega
  unfold irqWrite
  rw [← hi, ← hv, if_neg hok, if_neg (by omega), if_neg hlive, ← hn]

end

/-- R465: unquiescing a function is a matter of its own registers. -/
theorem unquiesce_frame (s : State) (a f i : Nat) :
    instState (unquiesce s a f) i = instState s i ∧ (unquiesce s a f).hif = s.hif ∧ (unquiesce s a f).dom = s.dom := by
  have head := May.head
  have k : Keeps [.regs] s (unquiesce s a f) := unquiesce_keeps (.refl s)
  have apart {g : Fld} {jx : List Nat} (hg : g.clr = .f) : Fld.apart g R.DOM_INST_W0.STATE jx [i] :=
    .inl (by rw [hg]; decide)
  refine ⟨?_, k.frame .hif (by decide), k.frame .dom (by decide)⟩
  unfold unquiesce instState
  dsimp only
  repeat' split
  all_goals simp (disch := exact apart rfl) only [State.rd_wr_apart]

/-- R465: instance `i` ACTIVE, and its function no longer waiting for it. -/
def resetPassed (s : State) (i : Nat) : State :=
  let key := (s.rd R.DOM_INST_W0.AP [i] * 8 + s.rd R.DOM_INST_W0.CLASS [i], i)
  { s.wr R.DOM_INST_W0.STATE [i] 1 with hif := { s.hif with toPass := s.hif.toPass.filter (fun p => p ≠ key) } }

/-- R465: a reset that no mailbox command waits for leaves the instance ACTIVE, and its function no longer waits for it. -/
theorem resetComplete_resetting {s : State} {i : Nat} (hst : instState s i = 4) (hidle : s.dom.running = none) :
    instState (resetComplete s i) i = 1 ∧ (resetComplete s i).hif.toPass = s.hif.toPass.filter
      (fun p => p ≠ (s.rd R.DOM_INST_W0.AP [i] * 8 + s.rd R.DOM_INST_W0.CLASS [i], i)) := by
  obtain ⟨hstate, hhif, hdom⟩ := unquiesce_frame (resetPassed s i) (s.rd R.DOM_INST_W0.AP [i]) (s.rd R.DOM_INST_W0.CLASS [i]) i
  have hdone : resetComplete s i = unquiesce (resetPassed s i) (s.rd R.DOM_INST_W0.AP [i]) (s.rd R.DOM_INST_W0.CLASS [i]) := by
    have hrun : (unquiesce (resetPassed s i) (s.rd R.DOM_INST_W0.AP [i]) (s.rd R.DOM_INST_W0.CLASS [i])).dom.running = none := by
      rw [hdom]; exact hidle
    have hbranch : resetComplete s i = match (unquiesce (resetPassed s i) (s.rd R.DOM_INST_W0.AP [i])
        (s.rd R.DOM_INST_W0.CLASS [i])).dom.running with
      | none => unquiesce (resetPassed s i) (s.rd R.DOM_INST_W0.AP [i]) (s.rd R.DOM_INST_W0.CLASS [i])
      | some _ => resetComplete s i := by
      split
      next hnone =>
        unfold resetComplete
        dsimp only
        rw [hst, if_neg (by decide), if_neg (by decide)]
        split
        · rfl
        next hsome => exact absurd (hnone.symm.trans hsome) (by simp)
      · rfl
    rw [hbranch, hrun]
  rw [hdone, hstate, hhif]
  exact ⟨State.rd_wr_same _ _ _ 1, rfl⟩

/-- R457, R462: INST_CREATE at the front of the queue. -/
theorem does_instCreate {d cl a nv i b : Nat} {c : MbxCmd} {s u : State} (awake : Awake s) (front : MbxFront s 0x0010 c u)
    (hd : d = leAt c.cmd 8 2) (hcl : cl = byteAt c.cmd 10) (ha : a = byteAt c.cmd 11) (hnv : nv = leAt c.cmd 16 2)
    (hi : i = leAt c.cmd 18 2)
    (hgood : d < 1024 ∧ 1 ≤ cl ∧ cl ≤ 3 ∧ 0 < nv ∧ nv ≤ (if cl = 3 then 65 else 2048) ∧ i < 16384)
    (hport : apPresent s a = true) (hvalid : domValid s d = true) (hfree : instState s i = 0)
    (hplain : bit (leAt c.cmd 12 4) 31 = false)
    (hfit : areaFit 0 65536 nv ((instsWhere s (fun _ => true)).map
      (fun j => (s.rd R.DOM_INST_W2.IRQ_BASE [j], s.rd R.DOM_INST_W2.NVEC [j]))) = some b)
    (hroom : s.rd R.DOM_DOMAIN_W0.INSTANCES [d] < s.rd R.DOM_DOMAIN_W2.MAX_INST [d]) :
    Does .instCreate s fun t => t = mbEnd (vectorsMade (instMade u i d cl a (leAt c.cmd 12 4 % 2 ^ 20) nv b) i cl a nv b) c 0
      (leBytes 2 i ++ [0, 0] ++ leBytes 2 b) := by
  have hport' : apPresent u a = true := by
    unfold apPresent
    rw [front_flag front]
    exact hport
  have hwhere : instsWhere u (fun _ => true) = instsWhere s (fun _ => true) := by
    simp only [instsWhere, front_instState front]
  have hmade := instCreate_makes (s := u) hd hcl ha hnv hi hgood hport' ((front_flag front _ _).trans hvalid)
    ((front_instState front i).trans hfree) hplain (by simpa only [front_rd front, hwhere] using hfit)
    (by simpa only [front_rd front] using hroom)
  exact does_mbNow front awake rfl hmade rfl

/-- R450, R457: what the registers of a created instance show once its vectors are listed. -/
theorem instCreated_shows {s : State} {i d cl a pasid nv b : Nat} (hd : d < 1024) (hcl : cl ≤ 3) (ha : a < 8)
    (hnv : nv ≤ 2048) {v : State} (hv : v = vectorsMade (instMade s i d cl a pasid nv b) i cl a nv b) :
    instState v i = 1 ∧ v.rd R.DOM_INST_W0.CLASS [i] = cl ∧ v.rd R.DOM_INST_W0.AP [i] = a
      ∧ v.rd R.DOM_INST_W0.DOMAIN [i] = d ∧ v.flag R.DOM_INST_W1.PASID_EN [i] = false ∧ v.rd R.DOM_INST_W2.NVEC [i] = nv
      ∧ v.rd R.DOM_INST_W2.IRQ_BASE [i] = b % 2 ^ R.DOM_INST_W2.IRQ_BASE.width ∧ v.dom = s.dom := by
  obtain ⟨hstate, hclass, hap, hdomain, hpasid, hnvec, hbase⟩ :=
    instMade_shows (s := s) (i := i) (pasid := pasid) (b := b) hd hcl ha hnv
  have hrd (f : Fld) : v.rd f [i] = (instMade s i d cl a pasid nv b).rd f [i] := by
    rw [hv]
    exact vectorsMade_rd _ i cl a nv b f [i]
  have hdom : v.dom = s.dom := by
    rw [hv, (vectorsMade_keeps _ i cl a nv b).frame .dom (by decide)]
    exact instMade_keeps.frame .dom (by decide)
  refine ⟨(hrd _).trans hstate, (hrd _).trans hclass, (hrd _).trans hap, (hrd _).trans hdomain, ?_, (hrd _).trans hnvec,
    (hrd _).trans hbase, hdom⟩
  rw [State.flag_eq_rd, hrd]
  exact hpasid

/-- Settles O39: each command by what it answers at the front of the queue, the completion by what it leaves. -/
theorem mailboxInstances : Obligations.MailboxInstances := by
  unfold Obligations.MailboxInstances
  refine ⟨?instCreate, ?instDestroy, ?instReset, ?instQuery, ?irqWrite, ?instanceResetComplete⟩
  case instCreate =>
    intro d cl a nv i b c s u awake front ⟨hd, hcl, ha, hnv, hi⟩ hgood hport hvalid hfree hplain hfit hroom
    have ha8 : a < 8 := by
      simp only [apPresent, Bool.and_eq_true, decide_eq_true_eq] at hport
      exact hport.1
    have hnv2048 : nv ≤ 2048 := by
      obtain ⟨_, _, _, _, hnv', _⟩ := hgood
      split at hnv' <;> omega
    obtain ⟨t, hrun, ht⟩ := does_instCreate awake front hd hcl ha hnv hi hgood hport hvalid hfree hplain hfit hroom
    exact ⟨t, hrun, _, ht, instCreated_shows hgood.1 hgood.2.2.1 ha8 hnv2048 rfl⟩
  case instDestroy =>
    intro i c s u awake front hi hnum hst
    have hst' : instState u i ≠ 0 := by rwa [front_instState front]
    exact does_whenUp awake (f := fun s => .next (mbLong s 0x0011 instDestroy)) rfl
      ⟨_, rfl, mbLong_front front (instDestroy_begins hi hnum hst')⟩
  case instReset =>
    intro i c s u awake front hi hnum hst
    have hst' : instState u i ≠ 0 ∧ instState u i ≠ 5 := by rwa [front_instState front]
    exact does_whenUp awake (f := fun s => .next (mbLong s 0x0012 instReset)) rfl
      ⟨_, rfl, mbLong_front front (instReset_begins hi hnum hst')⟩
  case instQuery =>
    intro i c s u awake front hi hnum
    refine does_mbNow front awake rfl (instQuery_answers hi hnum) ?_
    simp only [front_rd front, front_instState front]
  case irqWrite =>
    intro i v n c s u awake front ⟨hi, hv⟩ hnum hst hvec halign hn
    have hst' : instState u i = 1 ∨ instState u i = 2 ∨ instState u i = 3 := by rwa [front_instState front]
    have hvec' : v < u.rd R.DOM_INST_W2.NVEC [i] := by rwa [front_rd front]
    have hn' : n = u.rd R.DOM_INST_W2.IRQ_BASE [i] + v := by rwa [front_rd front]
    refine does_mbNow front awake rfl (irqWrite_replaces hi hv hnum hst' hvec' halign hn') ?_
    rw [front_hif front]
  case instanceResetComplete =>
    intro i s awake hst hidle
    exact does_whenUp awake (f := fun s => .next (resetComplete s i.val)) rfl ⟨_, rfl, resetComplete_resetting hst hidle⟩

end Sys2Proof.Machine
end

section
/-! The mailbox: the command on rings that refutes O40. -/

namespace Sys2Proof.Machine

open Sys2Proof

/-- RING_CREATE of ring 0 of instance 0, with 64 entries and no vector. -/
def overCmd : MbxCmd :=
  { slot := none, cmd := [32, 0, 0, 0, 0, 0, 0, 0, 0, 0, 0, 0, 0, 0, 6] ++ List.replicate 17 0 ++ [255, 255] ++ List.replicate 30 0 }

/-- Instance 0 ACTIVE in class 1, the command waiting. Its domain number is beyond the width of its field, and so of no domain:
the registers at that place of the domain table are those of ring 0, PI for MAX_RINGS and RING for RINGS. -/
def overDomain : State :=
  let s := ((State.reset.wr R.DOM_INST_W0.STATE [0] 1).wr R.DOM_INST_W0.CLASS [0] 1).wr R.DOM_RING_W3.PI [0] 1
  { s with regs := { s.regs with w := SMap.ins s.regs.w (R.DOM_INST_W0.DOMAIN.key [0]) 0x3FF00 },
           dom := { s.dom with queue := [overCmd] } }

/-- The end of a command with status 0 and no slot counts it in DOM_CNT alone, which is no register of a ring. -/
theorem mbEnd_ring (v : State) (res : Bytes) : (mbEnd v overCmd 0 res).rd R.DOM_RING_W1.RING [0] = v.rd R.DOM_RING_W1.RING [0] :=
  State.rd_inc_apart v (.inr (by decide))

/-- The count of the domain's rings falls on the number of the ring just made. -/
theorem overDomain_miscounts : (match exec .ringCreate overDomain with
    | .next t => t.rd R.DOM_RING_W1.RING [0]
    | _ => 0) = 1 := by decide +kernel

/-- Refutes O40: where the register DOMAIN of an instance holds a number beyond its width, the count RINGS of that domain lies on
the number of ring 0, and the ring made is not the one asked for. No run leads to such a state: the statement is about every
state, whatever its registers hold. -/
theorem not_mailboxRings : ¬ Obligations.MailboxRings := by
  unfold Obligations.MailboxRings
  intro ⟨hcreate, _⟩
  obtain ⟨t, hrun, v, ht, _, _, _, _, _, hring, _⟩ := hcreate 0 0x3FF00 0 overCmd overDomain _ (by decide)
    ⟨by decide, by decide, by decide, by decide, rfl⟩ (by decide) (by decide) (by decide) (by decide +kernel) (by decide +kernel)
    (by decide) (by decide +kernel) (by decide +kernel) (by decide) (by decide) (by decide +kernel) (by decide +kernel)
    (by decide +kernel)
  have hmade := overDomain_miscounts
  rw [hrun] at hmade
  simp only at hmade
  rw [ht, mbEnd_ring, hring] at hmade
  exact absurd hmade (by decide)

end Sys2Proof.Machine
end

section
/-! NET rings: frames and doorbells (O41), each meaning by the branch that the statement's hypotheses select. -/

namespace Sys2Proof.Machine

open Sys2Proof

/-- R484: the frame of a TX descriptor, as the switch takes it. -/
def txPkt (s : State) (r k : Nat) (data : Bytes) : Pkt :=
  { data := data, origin := 128 + (ringFn s r).1, inst := if ringOwner s r then 0 else ringInst s r, tc := (ringGet s r).tc,
    domain := ringDomain s r, profile := (ringGet s r).profile, pipe := 0, hash := srcHash (.ring r), port := none, octet := none,
    ts := 0, raw := 0, fault := none, poison := false, pass2 := false, node := none, espSeq := 0, hop := none, cth := false,
    tx := some (r, k) }

section
variable {s : State}

theorem txFrame_sends {r k l : Nat} {d b : Bytes} (hhead : headOp s r 0 1 = some (k, d))
    (hlive : fnLive s (ringFn s r).1 (ringFn s r).2 = true) (hlen : txLen d = some l) {u v : State}
    (hu : descRead s r ([(leAt d 8 8, leAt d 16 2), (leAt d 24 8, leAt d 18 2), (leAt d 32 8, leAt d 20 2)].take (byteAt d 1 % 4))
      (.ok b) = (true, u)) (hv : v = popDesc u r k) :
    txFrame s r (.ok b) = toInternal (ringPut v r { ringGet v r with busy := some (k, d) }) (txPkt u r k (slice b 0 l)) := by
  unfold txFrame
  rw [hhead]
  dsimp only
  rw [hlive, hlen]
  dsimp only
  rw [hu, hv]
  rfl

theorem rxDeliver_head {f : HostFrame} {l : List HostFrame} {r : Nat} {v : State} (hhost : s.grn.host = f :: l)
    (hring : rxRing s f.q = some r) (hrun : ringSt s r = rsRunning) (hreach : (rxReach s r f false).1 = true)
    (hv : v = { s with grn := { s.grn with host := l } }) : rxDeliver s false = rxWriteOut v r f false := by
  have hpair : rxReach s r f false = (true, (rxReach s r f false).2) := Prod.ext hreach rfl
  have hready : decide (rsRunning ≠ rsHeld) = true := by decide
  unfold rxDeliver
  simp only [hhost, List.findIdx?_cons, hring, hrun, hready, if_true, List.getElem?_cons_zero, List.eraseIdx_cons_zero]
  rw [hpair, hv]

theorem rxWriteOut_writes {f : HostFrame} {r a fn k g x n : Nat} {b : List (Nat × Nat × Nat × Nat)} {u : State}
    (hrun : ringSt s r = rsRunning) (hfn : ringFn s r = (a, fn)) (hquiet : quiesced s a fn = false)
    (hlive : s.rd R.HIF_FN_STATUS.REASON [a, fn] = 0) (hinst : ringOwner s r = true ∨ instState s (ringInst s r) = 1)
    (hbufs : (ringGet s r).bufs = (k, g, x, n) :: b) (hlen : f.data.length ≤ n) (hroom : ringFull s r = false)
    (hep : queueEp s f.q = some (128 + a)) (hclean : f.poison = false) (hu : u = ringPut s r { ringGet s r with bufs := b }) :
    rxWriteOut s r f false = cplPost (fnWrite u a fn (if ringOwner u r then none else some (ringInst u r)) (ringPasid u r) x f.data
      true false) r (cplBody g stSuccess 2 ([0, 0] ++ leBytes 2 f.data.length ++ [byteOf (f.tc % 8), 0] ++ leBytes 4 f.hash
        ++ leBytes 4 (tsSec f.ts) ++ leBytes 4 (tsNs f.ts) ++ leBytes 2 f.exc ++ [byteOf f.origin])) := by
  have hactive : (!ringOwner s r && (instState s (ringInst s r) == 4 || instState s (ringInst s r) == 5)) = false := by
    obtain hown | hact := hinst
    · rw [hown]; rfl
    · rw [hact, Bool.and_eq_false_iff]; exact .inr rfl
  have hfits : decide (f.data.length > n) = false := decide_eq_false (Nat.not_lt.mpr hlen)
  unfold rxWriteOut
  rw [hfn]
  dsimp only
  rw [hquiet, hactive, hlive, if_neg (by decide), hbufs]
  dsimp only
  rw [hrun, hfits, hroom, hep, if_neg (by simp), if_neg (by decide), hclean, hu]
  rfl

/-- R474: a word of an active instance names the ring it looks up. -/
theorem wordRing_active {i n r : Nat} (hinst : s.rd R.DOM_INST_W0.STATE [i] = 1) (hfind : findRing s false i n = some r) :
    wordRing s (some i) n = some r := by
  unfold wordRing
  dsimp only
  rw [hinst]
  exact hfind

theorem doDoorbell_advances {i w r : Nat} (hzero : bits w 32 32 = 0) (hinst : s.rd R.DOM_INST_W0.STATE [i] = 1)
    (hfind : findRing s false i (bits w 0 16) = some r) (hst : ringSt s r ≠ rsError ∧ ringSt s r ≠ rsResetting)
    (hahead : ixDist (s.rd R.DOM_RING_W3.PI [r]) (s.rd R.DOM_RING_W2.CI [r]) ≤ ixDist (bits w 16 16) (s.rd R.DOM_RING_W2.CI [r]))
    (hfits : ixDist (bits w 16 16) (s.rd R.DOM_RING_W2.CI [r]) ≤ ringSize s r - 1) :
    doDoorbell s (some i) w = (s.wr R.DOM_RING_W3.PI [r] (bits w 16 16)).inc R.DOM_INST_CNT.COUNT [i, 0] := by
  unfold doDoorbell
  rw [if_neg (not_not_intro hzero), wordRing_active hinst hfind]
  dsimp only
  rw [if_neg (by simpa using hst), if_pos (by simpa using ⟨hahead, hfits⟩)]
  rfl

theorem doCqdb_returns {i w r : Nat} (hzero : bits w 33 31 = 0) (hinst : s.rd R.DOM_INST_W0.STATE [i] = 1)
    (hfind : findRing s false i (bits w 0 16) = some r) (hst : ringSt s r ≠ rsError ∧ ringSt s r ≠ rsResetting)
    (hfits : ixDist (bits w 16 16) (s.rd R.DOM_RING_W3.CPL_CI [r])
      ≤ ixDist (s.rd R.DOM_RING_W2.CPL_PI [r]) (s.rd R.DOM_RING_W3.CPL_CI [r]))
    (hnone : (ringGet s r).cplWait = []) {u : State}
    (hu : u = (s.wr R.DOM_RING_W3.CPL_CI [r] (bits w 16 16)).inc R.DOM_INST_CNT.COUNT [i, 0]) :
    doCqdb s (some i) w = if bit w 32 then ringEval (u.wr R.DOM_RING_W1.ARMED [r] 1) r else u := by
  have hwait : (ringGet u r).cplWait = [] := by rw [hu]; exact hnone
  unfold doCqdb
  rw [if_neg (not_not_intro hzero), wordRing_active hinst hfind]
  dsimp only
  rw [if_neg (by simpa using hst), if_pos hfits]
  unfold wordTaken
  dsimp only
  rw [← hu, hwait]
  rfl

theorem doRingCtl_resets {i w r : Nat} (hzero : bits w 17 47 = 0) (hinst : s.rd R.DOM_INST_W0.STATE [i] = 1)
    (hfind : findRing s false i (bits w 0 16) = some r) (hreset : bit w 16 = true)
    (hst : ringSt s r = rsRunning ∨ ringSt s r = rsError) :
    doRingCtl s (some i) w = ((flushEntries (ringPut s r { ringGet s r with
      discard := true, asked := [], faultDue := none, cplWait := [] }) r).wr R.DOM_RING_W0.STATE [r] rsResetting).inc R.DOM_INST_CNT.COUNT [i, 0] := by
  unfold doRingCtl
  rw [if_neg (not_not_intro hzero), wordRing_active hinst hfind]
  dsimp only
  rw [hreset, if_neg (by decide), if_pos (by simpa using hst)]
  rfl

theorem doFetch_asks {r a f n : Nat} (hmay : mayFetch s r = true) (hfn : ringFn s r = (a, f)) (hplain : atsEn s a f = false)
    (htag : freeTag? s a f = some n) :
    doFetch s r = sendRead ((ringPut s r { ringGet s r with asked := (ringGet s r).asked ++ [s.rd R.DOM_RING_W2.CI [r]] }).wr
      R.DOM_RING_W2.CI [r] (s.rd R.DOM_RING_W2.CI [r] + 1)) a f (if ringOwner s r then none else some (ringInst s r))
      (.desc r (s.rd R.DOM_RING_W2.CI [r])) ((ringGet s r).descAddr + 64 * (s.rd R.DOM_RING_W2.CI [r] % ringSize s r)) 64
      (ringPasid s r) none := by
  unfold doFetch
  rw [hmay, if_neg (by decide), hfn]
  dsimp only
  rw [hplain, if_pos (by simp), htag]

theorem doRxBuf_offers {r k : Nat} {d : Bytes} (hhead : headOp s r 1 2 = some (k, d))
    (hlen : 64 ≤ leAt d 16 4 ∧ leAt d 16 4 ≤ 16384) :
    doRxBuf s r = ringSettle (ringPut (popDesc s r k) r { ringGet (popDesc s r k) r with
      bufs := (ringGet (popDesc s r k) r).bufs ++ [(k, leAt d 4 4, leAt d 8 8, leAt d 16 4)] }) r := by
  unfold doRxBuf
  rw [hhead]
  dsimp only
  rw [if_neg (by simpa using hlen)]

theorem modTimer_fires {r : Nat} (hst : ringSt s r ≠ 0) (hon : (ringGet s r).timerOn = true) :
    modTimer s r = ringEval (ringPut (clockTo s ((ringGet s r).timerAt + (ringGet s r).modUsec * 10000)) r
      { ringGet s r with timerDone := true }) r := by
  unfold modTimer
  dsimp only
  rw [hon, if_neg (by simpa using hst)]

end

/-- Settles O41: each event by the branch its hypotheses select. -/
theorem ringFrames : Obligations.RingFrames := by
  unfold Obligations.RingFrames
  refine ⟨?txFrame, ?rxFrameDelivery, ?doorbell, ?cqdb, ?ringCtlReset, ?descriptorFetch, ?rxBuf, ?moderationTimer⟩
  case txFrame =>
    intro r k l d b s u v awake hhead hlive hlen hable hu hv
    have hread := Prod.ext (y := (true, u)) hable hu.symm
    exact does_whenUp awake (f := fun s => .next (txFrame s r.val (.ok b))) rfl
      ⟨_, rfl, txPkt u r.val k (slice b 0 l), txFrame_sends hhead hlive hlen hread hv, rfl, rfl, rfl, rfl, rfl, rfl, rfl, rfl⟩
  case rxFrameDelivery =>
    intro f l r a fn k g x n b s v u awake hhost hring ⟨hrun, hfn⟩ hreach hv ⟨hquiet, hlive⟩ hinst hbufs hlen hroom hep hclean hu
    have hregs : v.regs = s.regs := by rw [hv]
    have hrun' : ringSt v r = rsRunning := by rw [ringSt, State.rd, hregs]; exact hrun
    have hfn' : ringFn v r = (a, fn) := by rw [hv]; exact hfn
    have hmeaning := (rxDeliver_head hhost hring hrun hreach hv).trans
      (rxWriteOut_writes hrun' hfn' hquiet hlive hinst hbufs hlen hroom hep hclean hu)
    exact does_whenUp awake (f := fun s => .next (rxDeliver s false)) rfl ⟨_, rfl, hmeaning⟩
  case doorbell =>
    intro i w r s awake hzero hinst hfind hst hahead hfits
    exact does_fromHost awake (f := fun s => .next (doDoorbell s (some i.val) w.toNat)) rfl
      ⟨_, rfl, doDoorbell_advances hzero hinst hfind hst hahead hfits⟩
  case cqdb =>
    intro i w r s u awake hzero hinst hfind hst hfits hnone hu
    exact does_fromHost awake (f := fun s => .next (doCqdb s (some i.val) w.toNat)) rfl
      ⟨_, rfl, doCqdb_returns hzero hinst hfind hst hfits hnone hu⟩
  case ringCtlReset =>
    intro i w r s awake hzero hinst hfind hreset hst
    exact does_fromHost awake (f := fun s => .next (doRingCtl s (some i.val) w.toNat)) rfl
      ⟨_, rfl, doRingCtl_resets hzero hinst hfind hreset hst⟩
  case descriptorFetch =>
    intro r a f c n i s u awake hmay hfn hplain htag hi hc hu
    subst hi hc hu
    exact does_whenUp awake (f := fun s => .next (doFetch s r.val)) rfl ⟨_, rfl, doFetch_asks hmay hfn hplain htag⟩
  case rxBuf =>
    intro r k d s awake hhead hlen
    exact does_whenUp awake (f := fun s => .next (doRxBuf s r.val)) rfl ⟨_, rfl, doRxBuf_offers hhead hlen⟩
  case moderationTimer =>
    intro r s awake hst hon
    exact does_whenOn awake (f := fun s => .next (modTimer s r.val)) rfl ⟨_, rfl, modTimer_fires hst hon⟩

end Sys2Proof.Machine
end

section
/-! The state of a hart: what its registers, its CSRs and its pc read after a write, and what a trap leaves; then EV.WAIT and
EV.POLL (O9), the interrupts (O11) and the channel instructions (O42). -/

namespace Sys2Proof.Machine

open Sys2Proof

section
variable (s : State) (h : Nat)

@[simp] theorem hartGet_hartPut (x : Hart) : hartGet (hartPut s h x) h = x := SMap.get_set_same _ _ _ _

theorem hartGet_hartPut_ne {k : Nat} (x : Hart) (hk : k ≠ h) : hartGet (hartPut s h x) k = hartGet s k :=
  SMap.get_set_ne _ _ _ _ hk

@[simp] theorem hartGet_wr (f : Fld) (ix : List Nat) (v : Nat) : hartGet (s.wr f ix v) h = hartGet s h := rfl
@[simp] theorem hartGet_inc (f : Fld) (ix : List Nat) : hartGet (s.inc f ix) h = hartGet s h := rfl

@[simp] theorem hartGet_csrPut (n v : Nat) : hartGet (csrPut s h n v) h
    = { hartGet s h with csr := SMap.set (csrReset n) (hartGet s h).csr n (w64 v) } := hartGet_hartPut _ _ _

@[simp] theorem hartGet_setPc (pc : Nat) : hartGet (setPc s h pc) h = { hartGet s h with pc := w64 pc } := hartGet_hartPut _ _ _

@[simp] theorem csrRaw_csrPut_same (n v : Nat) : csrRaw (csrPut s h n v) h n = w64 v := by
  simp [csrRaw]

theorem csrRaw_csrPut_ne {n m : Nat} (v : Nat) (hm : m ≠ n) : csrRaw (csrPut s h n v) h m = csrRaw s h m := by
  unfold csrRaw
  rw [hartGet_csrPut]
  exact SMap.get_set_ne _ _ _ _ hm

/-- x0 discards what is written to it. -/
@[simp] theorem xr_xw_same (i v : Nat) : xr (xw s h i v) h i = if i = 0 then 0 else w64 v := by
  unfold xr xw
  split
  · rfl
  · simp

/-- A write of an integer register changes its hart's integer registers only. -/
theorem hartGet_xw (i v : Nat) : ∃ x, hartGet (xw s h i v) h = { hartGet s h with x := x } := by
  unfold xw
  split
  · exact ⟨_, rfl⟩
  · exact ⟨_, hartGet_hartPut _ _ _⟩

/-- A retired Xelvchan instruction moves the pc on by 4 and counts, in its hart's CSRs. -/
theorem hartGet_pcNext : ∃ c, hartGet (pcNext s h) h = { hartGet s h with pc := w64 ((hartGet s h).pc + 4), csr := c } := by
  unfold pcNext retireTo
  simp only [hartGet_csrPut, hartGet_setPc]
  exact ⟨_, rfl⟩

theorem xr_pcNext (i : Nat) : xr (pcNext s h) h i = xr s h i := by
  obtain ⟨c, hc⟩ := hartGet_pcNext s h
  unfold xr
  rw [hc]

end

/-- `t` is `s` but for what its harts hold. -/
def HartsOnly (s t : State) : Prop := ∃ m, t = { s with fil := { s.fil with harts := m } }

namespace HartsOnly
variable {r s t : State}

theorem refl (s : State) : HartsOnly s s := ⟨_, rfl⟩

theorem trans (a : HartsOnly r s) (b : HartsOnly s t) : HartsOnly r t := by
  obtain ⟨m, rfl⟩ := a
  obtain ⟨n, rfl⟩ := b
  exact ⟨n, rfl⟩

theorem regs (a : HartsOnly s t) : t.regs = s.regs := by obtain ⟨m, rfl⟩ := a; rfl
theorem now (a : HartsOnly s t) : t.now = s.now := by obtain ⟨m, rfl⟩ := a; rfl
theorem chan (a : HartsOnly s t) : t.fil.chan = s.fil.chan := by obtain ⟨m, rfl⟩ := a; rfl
theorem mtimecmp (a : HartsOnly s t) : t.fil.mtimecmp = s.fil.mtimecmp := by obtain ⟨m, rfl⟩ := a; rfl
theorem rd (a : HartsOnly s t) (f : Fld) (ix : List Nat) : t.rd f ix = s.rd f ix := by rw [State.rd, a.regs]; rfl

end HartsOnly

theorem hartsOnly_hartPut (s : State) (h : Nat) (x : Hart) : HartsOnly s (hartPut s h x) := ⟨_, rfl⟩
theorem hartsOnly_csrPut (s : State) (h n v : Nat) : HartsOnly s (csrPut s h n v) := ⟨_, rfl⟩

theorem hartsOnly_xw (s : State) (h i v : Nat) : HartsOnly s (xw s h i v) := by
  unfold xw
  split
  · exact .refl s
  · exact hartsOnly_hartPut _ _ _

theorem hartsOnly_pcNext (s : State) (h : Nat) : HartsOnly s (pcNext s h) :=
  (hartsOnly_csrPut s h _ _).trans ((hartsOnly_hartPut _ h _).trans (hartsOnly_csrPut _ h _ _))

theorem dutyTake_rd_above (s : State) (k duty : Nat) {f : Fld} {ix : List Nat} (hf : 0x01000000 ≤ f.base) :
    (dutyTake s k duty).rd f ix = s.rd f ix := by
  unfold dutyTake
  extract_lets w e n put
  split
  · rfl
  · split
    · rfl
    · exact clockTo_rd_above s _ hf

theorem issueTake_rd {s t : State} {h : Nat} (issue : issueTake s h = some t) (f : Fld) (ix : List Nat) :
    t.rd f ix = s.rd f ix := by
  have head := May.head
  have tail := May.tail
  have k : Keeps [.fil, .free] s t := issueTake_keeps (.refl s) t issue
  rw [State.rd, k.frame .regs (by decide)]
  rfl

/-- A hart that is let issue runs when it does so: neither its round nor its duty is a matter of its STATE. -/
theorem hartReady_runs {s u : State} {h : Nat} (ready : HartReady s h u) : hartSt u h = hsRun := by
  obtain ⟨hrun, hissue, _, _, _⟩ := ready
  simp only [hartRuns, Bool.and_eq_true, beq_iff_eq] at hrun
  obtain ⟨v, hv, hu⟩ := Option.map_eq_some_iff.1 hissue
  rw [hartSt, ← hu, dutyTake_rd_above _ _ _ (by decide), issueTake_rd hv]
  exact hrun.1

/-- A hart that is let issue completes an instruction whose meaning is `f`. -/
theorem does_hartStep {c : Instr} {s u : State} {h : Nat} {f : State → State} {p : State → Prop} (ready : HartReady s h u)
    (e : exec c s = .next (hartStep s h f)) (hp : p (f u)) : Does c s p :=
  ⟨f u, by rw [e, hartStep_ready ready], hp⟩

/-- R509: what the taking of the events `p` leaves. -/
structure EventsTaken (s t : State) (h rd p : Nat) : Prop where
  only : HartsOnly s t
  ev : (hartGet t h).ev = (hartGet s h).ev - ((hartGet s h).ev &&& p)
  val : xr t h rd = if rd = 0 then 0 else w64 p
  pc : (hartGet t h).pc = w64 ((hartGet s h).pc + 4)
  wait : (hartGet t h).wait = none

theorem evTake_takes (s : State) (h rd p : Nat) : EventsTaken s (evTake s h rd p) h rd p := by
  let u := hartPut s h { hartGet s h with ev := (hartGet s h).ev - ((hartGet s h).ev &&& p), wait := none }
  have htake : evTake s h rd p = pcNext (xw u h rd p) h := rfl
  obtain ⟨x, hx⟩ := hartGet_xw u h rd p
  obtain ⟨c, hc⟩ := hartGet_pcNext (xw u h rd p) h
  have hhart : hartGet (evTake s h rd p) h = { hartGet u h with x := x, pc := w64 ((hartGet u h).pc + 4), csr := c } := by
    rw [htake, hc, hx]
  rw [hartGet_hartPut] at hhart
  exact {
    only := (hartsOnly_hartPut s h _).trans ((hartsOnly_xw u h rd p).trans (hartsOnly_pcNext _ h))
    ev := by rw [hhart]
    val := by rw [htake, xr_pcNext, xr_xw_same]
    pc := by rw [hhart]
    wait := by rw [hhart] }

theorem bit_eq_testBit (v n : Nat) : bit v n = v.testBit n := by
  rw [Nat.testBit_eq_decide_div_mod_eq]
  rfl

theorem bit_mod_two_pow {n k : Nat} (v : Nat) (hn : n < k) : bit (v % 2 ^ k) n = bit v n := by
  simp [bit_eq_testBit, Nat.testBit_mod_two_pow, hn]

theorem setBits_mod (v lo w x : Nat) : setBits v lo w x % 2 ^ lo = v % 2 ^ lo := by
  unfold setBits
  rw [Nat.pow_add, Nat.mul_comm (2 ^ lo), ← Nat.mul_assoc]
  simp only [Nat.add_mul_mod_self_right, Nat.mod_mod]

/-- Bits below the replaced ones stay. -/
theorem bit_setBits_below {n lo : Nat} (v w x : Nat) (hn : n < lo) : bit (setBits v lo w x) n = bit v n := by
  rw [← bit_mod_two_pow _ hn, setBits_mod, bit_mod_two_pow _ hn]

/-- The bits from the replaced one up. -/
theorem setBit_div (v n : Nat) (b : Bool) : setBit v n b / 2 ^ n = (if b then 1 else 0) + 2 * (v / 2 ^ (n + 1)) := by
  have hlow : v % 2 ^ n / 2 ^ n = 0 := Nat.div_eq_of_lt (Nat.mod_lt _ (Nat.two_pow_pos n))
  have hsum : setBit v n b = v % 2 ^ n + 2 ^ n * ((if b then 1 else 0) + 2 * (v / 2 ^ (n + 1))) := by
    unfold setBit setBits
    have hhigh : v / 2 ^ (n + 1) * 2 ^ (n + 1) = 2 ^ n * (2 * (v / 2 ^ (n + 1))) := by
      rw [Nat.mul_comm, Nat.pow_succ, Nat.mul_assoc]
    rw [Nat.mul_add, ← hhigh]
    cases b <;> simp [Nat.mul_comm, Nat.add_assoc]
  rw [hsum, Nat.add_mul_div_left _ _ (Nat.two_pow_pos n), hlow, Nat.zero_add]

theorem bit_setBit_same (v n : Nat) (b : Bool) : bit (setBit v n b) n = b := by
  unfold bit
  rw [setBit_div]
  cases b <;> simp [Nat.add_mod]

theorem bit_setBit_above {n m : Nat} (v : Nat) (b : Bool) (hn : n < m) : bit (setBit v n b) m = bit v m := by
  obtain ⟨k, rfl⟩ := Nat.exists_eq_add_of_lt hn
  have hhalf : setBit v n b / 2 ^ n / 2 = v / 2 ^ n / 2 := by
    rw [setBit_div, Nat.pow_succ, ← Nat.div_div_eq_div_mul]
    cases b <;> simp only [if_true, if_false, Bool.false_eq_true] <;> omega
  have hpow : 2 ^ (n + k + 1) = 2 ^ n * 2 * 2 ^ k := by
    rw [Nat.add_right_comm, Nat.pow_add, Nat.pow_succ]
  have hdiv : setBit v n b / 2 ^ (n + k + 1) = v / 2 ^ (n + k + 1) := by
    rw [hpow, ← Nat.div_div_eq_div_mul, ← Nat.div_div_eq_div_mul, hhalf, Nat.div_div_eq_div_mul, Nat.div_div_eq_div_mul,
      Nat.mul_assoc]
  unfold bit
  rw [hdiv]

theorem bit_w64 {n : Nat} (v : Nat) (hn : n < 64) : bit (w64 v) n = bit v n := bit_mod_two_pow v hn

/-- R511: mstatus on entry of a trap: MIE goes to MPIE and clears, MPP takes the mode. -/
def trapStatus (ms : Nat) (m : Bool) : Nat := setBits (setBit (setBit ms 7 (bit ms 3)) 3 false) 11 2 (if m then 3 else 0)

theorem trapStatus_mie (ms : Nat) (m : Bool) : bit (w64 (trapStatus ms m)) 3 = false := by
  rw [bit_w64 _ (by decide), trapStatus, bit_setBits_below _ _ _ (by decide), bit_setBit_same]

theorem trapStatus_mpie (ms : Nat) (m : Bool) : bit (w64 (trapStatus ms m)) 7 = bit ms 3 := by
  rw [bit_w64 _ (by decide), trapStatus, bit_setBits_below _ _ _ (by decide), bit_setBit_above _ _ (by decide), bit_setBit_same]

/-- R511: the CSRs of a hart written on entry of a trap. -/
def trapCsrs (s : State) (h cause : Nat) (intr : Bool) (tval : Nat) : State :=
  csrPut (csrPut (csrPut (csrPut s h csrMstatus (trapStatus (csrRaw s h csrMstatus) (hartGet s h).mmode)) h csrMepc
    (hartGet s h).pc) h csrMcause (cause + if intr then 2 ^ 63 else 0)) h csrMtval tval

/-- R511: a hart on entry of a trap, before the trap is counted. -/
def trapped (s : State) (h cause : Nat) (intr : Bool) (tval : Nat) : State :=
  let u := trapCsrs s h cause intr tval
  let tv := csrRaw u h csrMtvec
  let pc := if intr && tv % 4 = 1 then tv / 4 * 4 + 4 * cause else tv / 4 * 4
  hartPut u h { hartGet u h with pc := w64 pc, mmode := true, wait := none, resv := none }

section
variable (s : State) (h cause : Nat) (intr : Bool) (tval : Nat)

theorem trapEnter_fil : (trapEnter s h cause intr tval).fil = (trapped s h cause intr tval).fil := by
  have hcount (v : State) : (if cause = 25 && !intr then v.inc R.FIL_CNT.COUNT [13] else v).fil = v.fil := by split <;> rfl
  unfold trapEnter
  extract_lets t ms₀ ms₁ ms₂ ms₃ s₁ s₂ s₃ s₄ tv base pc x s₅ s₆ s₇
  have hfil : s₇.fil = (trapped s h cause intr tval).fil := (hcount s₆).trans rfl
  split
  · exact hfil
  · exact hfil

theorem hartGet_trapEnter (k : Nat) : hartGet (trapEnter s h cause intr tval) k = hartGet (trapped s h cause intr tval) k := by
  unfold hartGet
  rw [trapEnter_fil]

theorem hartGet_trapCsrs : ∃ c, hartGet (trapCsrs s h cause intr tval) h = { hartGet s h with csr := c } := by
  unfold trapCsrs
  simp only [hartGet_csrPut]
  exact ⟨_, rfl⟩

theorem hartsOnly_trapCsrs : HartsOnly s (trapCsrs s h cause intr tval) :=
  (hartsOnly_csrPut s h _ _).trans ((hartsOnly_csrPut _ h _ _).trans ((hartsOnly_csrPut _ h _ _).trans (hartsOnly_csrPut _ h _ _)))

theorem hartsOnly_trapped : HartsOnly s (trapped s h cause intr tval) := 
  (hartsOnly_trapCsrs s h cause intr tval).trans (hartsOnly_hartPut _ _ _)

theorem csrRaw_trapCsrs {n : Nat} (hms : n ≠ csrMstatus) (hepc : n ≠ csrMepc) (hcause : n ≠ csrMcause) (htval : n ≠ csrMtval) :
    csrRaw (trapCsrs s h cause intr tval) h n = csrRaw s h n := by
  unfold trapCsrs
  rw [csrRaw_csrPut_ne _ _ _ htval, csrRaw_csrPut_ne _ _ _ hcause, csrRaw_csrPut_ne _ _ _ hepc, csrRaw_csrPut_ne _ _ _ hms]

theorem csrRaw_trapEnter (n : Nat) : csrRaw (trapEnter s h cause intr tval) h n = csrRaw (trapCsrs s h cause intr tval) h n := by
  unfold csrRaw
  rw [hartGet_trapEnter]
  unfold trapped
  rw [hartGet_hartPut]

theorem trapEnter_mepc : csrRaw (trapEnter s h cause intr tval) h csrMepc = w64 (hartGet s h).pc := by
  rw [csrRaw_trapEnter, trapCsrs, csrRaw_csrPut_ne _ _ _ (by decide), csrRaw_csrPut_ne _ _ _ (by decide), csrRaw_csrPut_same]

theorem trapEnter_mcause : csrRaw (trapEnter s h cause intr tval) h csrMcause = w64 (cause + if intr then 2 ^ 63 else 0) := by
  rw [csrRaw_trapEnter, trapCsrs, csrRaw_csrPut_ne _ _ _ (by decide), csrRaw_csrPut_same]

theorem trapEnter_mtval : csrRaw (trapEnter s h cause intr tval) h csrMtval = w64 tval := by
  rw [csrRaw_trapEnter, trapCsrs, csrRaw_csrPut_same]

theorem trapEnter_mstatus : csrRaw (trapEnter s h cause intr tval) h csrMstatus
    = w64 (trapStatus (csrRaw s h csrMstatus) (hartGet s h).mmode) := by
  rw [csrRaw_trapEnter, trapCsrs, csrRaw_csrPut_ne _ _ _ (by decide), csrRaw_csrPut_ne _ _ _ (by decide),
    csrRaw_csrPut_ne _ _ _ (by decide), csrRaw_csrPut_same]

/-- R511: what a trap leaves of its hart beside the CSRs. -/
theorem trapEnter_hart : ∃ c, hartGet (trapEnter s h cause intr tval) h = { hartGet s h with
    pc := w64 (csrRaw s h csrMtvec / 4 * 4 + if intr && csrRaw s h csrMtvec % 4 = 1 then 4 * cause else 0),
    mmode := true, wait := none, resv := none, csr := c } := by
  obtain ⟨c, hc⟩ := hartGet_trapCsrs s h cause intr tval
  refine ⟨c, ?_⟩
  rw [hartGet_trapEnter]
  unfold trapped
  dsimp only
  rw [hartGet_hartPut, csrRaw_trapCsrs _ _ _ _ _ (by decide) (by decide) (by decide) (by decide), hc]
  split <;> rfl

theorem trapEnter_other {k : Nat} (hk : k ≠ h) : hartGet (trapEnter s h cause intr tval) k = hartGet s k := by
  rw [hartGet_trapEnter]
  unfold trapped trapCsrs csrPut
  simp only [hartGet_hartPut_ne _ _ _ hk]

end

section
variable {s : State} {h : Nat}

theorem xelv_allowed {b word : Nat} {f : State → State} (hok : xelvOk s h b = true) : xelv s h b word f = f s := by
  unfold xelv
  rw [hok]
  rfl

theorem doEvWait_takes {rd rs1 : Nat} (hok : xelvOk s h 1 = true)
    (hp : pendingEv s h &&& xr s h rs1 ≠ 0 ∨ xr s h rs1 = 0) :
    doEvWait s h rd rs1 = evTake s h rd (pendingEv s h &&& xr s h rs1) := by
  unfold doEvWait
  rw [xelv_allowed hok]
  exact if_pos (by simpa using hp)

theorem doEvWait_waits {rd rs1 : Nat} (hok : xelvOk s h 1 = true) (hp : pendingEv s h &&& xr s h rs1 = 0)
    (hm : xr s h rs1 ≠ 0) : doEvWait s h rd rs1
      = (hartPut s h { hartGet s h with wait := some (xr s h rs1, rd) }).wr R.FIL_HART_CTL.STATE [h] hsWait := by
  unfold doEvWait
  rw [xelv_allowed hok]
  exact if_neg (by simpa using ⟨hp, hm⟩)

theorem wakeHart_takes {m rd : Nat} (hwaits : hartSt s h = hsWait ∧ coreLive s (coreOf h) = true)
    (hwait : (hartGet s h).wait = some (m, rd)) (hp : pendingEv s h &&& m ≠ 0) :
    wakeHart s h = evTake (s.wr R.FIL_HART_CTL.STATE [h] hsRun) h rd (pendingEv s h &&& m) := by
  obtain ⟨hst, hlive⟩ := hwaits
  unfold wakeHart
  rw [hst, hlive, if_neg (by decide), hwait]
  exact if_pos hp

theorem wakeHart_traps {m rd c : Nat} (hwaits : hartSt s h = hsWait ∧ coreLive s (coreOf h) = true)
    (hwait : (hartGet s h).wait = some (m, rd)) (hp : pendingEv s h &&& m = 0) (hcause : intrCause? s h = some c) :
    wakeHart s h = trapEnter (s.wr R.FIL_HART_CTL.STATE [h] hsRun) h c true 0 := by
  obtain ⟨hst, hlive⟩ := hwaits
  unfold wakeHart
  rw [hst, hlive, if_neg (by decide), hwait, hcause]
  exact if_neg (not_not_intro hp)

/-- R509: with nothing pending a waiting hart stays as it is. -/
theorem wakeHart_stays {m rd : Nat} (hwait : (hartGet s h).wait = some (m, rd)) (hp : pendingEv s h &&& m = 0)
    (hquiet : intrCause? s h = none) : wakeHart s h = s := by
  unfold wakeHart
  rw [hwait, hquiet]
  dsimp only
  rw [if_neg (not_not_intro hp), ite_self]

end

/-- Settles O9: the events are taken, or the hart waits for them; it wakes by them or by a trap. -/
theorem eventWait : Obligations.EventWait := by
  unfold Obligations.EventWait
  refine ⟨?evWait, ?waits, ?wakes, ?traps, ?sleeps, ?evPoll⟩
  case evWait =>
    intro h rd rs1 p s u ready hok hp hgo
    subst hp
    refine does_hartStep ready (f := fun s => doEvWait s h.val rd.val rs1.val) rfl ?_
    rw [doEvWait_takes hok hgo]
    obtain ⟨only, ev, val, pc, wait⟩ := evTake_takes u h.val rd.val (pendingEv u h.val &&& xr u h.val rs1.val)
    exact ⟨ev, val, pc, wait, only.chan, only.mtimecmp, only.now⟩
  case waits =>
    intro h rd rs1 s u ready hok hp hm
    refine does_hartStep ready (f := fun s => doEvWait s h.val rd.val rs1.val) rfl ?_
    rw [doEvWait_waits hok hp hm]
    exact ⟨State.rd_wr_same _ _ _ _, by simp⟩
  case wakes =>
    intro h m p rd s hwaits hwait ⟨hp, hp0⟩
    subst hp
    refine ⟨wakeHart s h.val, rfl, ?_⟩
    rw [wakeHart_takes hwaits hwait hp0]
    obtain ⟨only, ev, val, pc, wait⟩ := evTake_takes (s.wr R.FIL_HART_CTL.STATE [h.val] hsRun) h.val rd (pendingEv s h.val &&& m)
    exact ⟨(only.rd _ _).trans (State.rd_wr_same _ _ _ _), ev, val, pc, wait, only.chan, only.mtimecmp, only.now⟩
  case traps =>
    intro h m rd c s hwaits ⟨hwait, hp⟩ hcause
    refine ⟨wakeHart s h.val, rfl, ?_⟩
    rw [wakeHart_traps hwaits hwait hp hcause]
    obtain ⟨k, hk⟩ := trapEnter_hart (s.wr R.FIL_HART_CTL.STATE [h.val] hsRun) h.val c true 0
    exact ⟨trapEnter_mepc _ _ _ _ _, trapEnter_mcause _ _ _ _ _, by rw [hk], by rw [hk]; rfl, by rw [hk]; rfl⟩
  case sleeps =>
    intro h m rd s ⟨hwait, hp⟩ hquiet
    exact ⟨s, congrArg Host.Outcome.next (wakeHart_stays hwait hp hquiet), rfl⟩
  case evPoll =>
    intro h rd rs1 p s u ready hok hp
    subst hp
    refine does_hartStep ready (f := fun s => doEvPoll s h.val rd.val rs1.val) rfl ?_
    unfold doEvPoll
    rw [xelv_allowed hok]
    obtain ⟨only, ev, val, pc, wait⟩ := evTake_takes u h.val rd.val (pendingEv u h.val &&& xr u h.val rs1.val)
    exact ⟨(only.rd _ _).trans (hartReady_runs ready), ev, val, pc, wait, only.chan, only.mtimecmp, only.now⟩

end Sys2Proof.Machine
end

section
/-! The interrupts of a hart (O11) and the channel instructions (O42). -/

namespace Sys2Proof.Machine

open Sys2Proof

/-- R510: mip by its three sources. -/
theorem mipOf_bits (s : State) (h : Nat) :
    bit (mipOf s h) 7 = decide (SMap.get (2 ^ 64 - 1) s.fil.mtimecmp h ≤ s.mtime)
      ∧ bit (mipOf s h) 11 = decide (s.rd R.FIL_HART_IRQ.IRQ_PEND [h] &&& s.rd R.FIL_HART_IRQ_EN.IRQ_EN [h] ≠ 0)
      ∧ bit (mipOf s h) 16 = (hartGet s h).wcip := by
  have hsum (p q r : Bool) : bit ((if p then 2 ^ 7 else 0) + (if q then 2 ^ 11 else 0) + (if r then 2 ^ 16 else 0)) 7 = p
      ∧ bit ((if p then 2 ^ 7 else 0) + (if q then 2 ^ 11 else 0) + (if r then 2 ^ 16 else 0)) 11 = q
      ∧ bit ((if p then 2 ^ 7 else 0) + (if q then 2 ^ 11 else 0) + (if r then 2 ^ 16 else 0)) 16 = r := by
    revert p q r
    decide
  have hbits := hsum (decide (SMap.get (2 ^ 64 - 1) s.fil.mtimecmp h ≤ s.mtime))
    (decide (s.rd R.FIL_HART_IRQ.IRQ_PEND [h] &&& s.rd R.FIL_HART_IRQ_EN.IRQ_EN [h] ≠ 0)) (hartGet s h).wcip
  simp only [decide_eq_true_eq] at hbits
  exact hbits

/-- R510: the interrupt taken is an enabled one that the mode allows, and the first in order. -/
theorem intrCause?_first {s : State} {h c : Nat} (hc : intrCause? s h = some c) :
    (c = 11 ∨ c = 7 ∨ c = 16) ∧ bit (mipOf s h &&& csrRaw s h csrMie) c = true
      ∧ ((hartGet s h).mmode = true → bit (csrRaw s h csrMstatus) 3 = true)
      ∧ ∀ d, (c = 7 ∧ d = 11) ∨ (c = 16 ∧ (d = 11 ∨ d = 7)) → bit (mipOf s h &&& csrRaw s h csrMie) d = false := by
  unfold intrCause? at hc
  dsimp only at hc
  split at hc
  · exact absurd hc (by simp)
  next hmode =>
    have hmie : (hartGet s h).mmode = true → bit (csrRaw s h csrMstatus) 3 = true := by simpa using hmode
    split at hc
    next hext =>
      obtain rfl : 11 = c := by simpa using hc
      exact ⟨.inl rfl, hext, hmie, by omega⟩
    next hext =>
      split at hc
      next htimer =>
        obtain rfl : 7 = c := by simpa using hc
        refine ⟨.inr (.inl rfl), htimer, hmie, fun d hd => ?_⟩
        obtain rfl : d = 11 := by omega
        simpa using hext
      next htimer =>
        split at hc
        next hwait =>
          obtain rfl : 16 = c := by simpa using hc
          refine ⟨.inr (.inr rfl), hwait, hmie, fun d hd => ?_⟩
          obtain rfl | rfl : d = 11 ∨ d = 7 := by omega
          · simpa using hext
          · simpa using htimer
        · exact absurd hc (by simp)

/-- R510, R511: a hart that may take an interrupt takes it in place of its next instruction. -/
theorem hartStep_interrupted {s u : State} {h c : Nat} {f : State → State} (hrun : hartRuns s h = true)
    (hissue : (issueTake s h).map (fun v => dutyTake v (coreOf h) (v.rd R.REV_THR.FIL_DUTY [])) = some u)
    (hstep : bit (csrRaw u h csrDcsr) 2 = false) (hc : intrCause? u h = some c) : hartStep s h f = trapEnter u h c true 0 := by
  obtain ⟨v, hv, hu⟩ := Option.map_eq_some_iff.1 hissue
  unfold hartStep
  rw [hrun, if_neg (by decide), hv]
  dsimp only
  rw [hu, hstep, if_neg (by decide)]
  unfold hartCycle
  rw [Bool.false_and, if_neg (by decide), hc]

/-- R527: the word of a hart's IRQ_PEND lies in Filbert's window and holds that field alone. -/
theorem irqPend_word : ∀ h : Fin 512, rpWindow (0x0C004004 + 16 * h.val) = none ∧ blkOf (0x0C004004 + 16 * h.val) = some .fil
    ∧ fieldsAt .fil (0x0C004004 + 16 * h.val) = [(R.FIL_HART_IRQ.IRQ_PEND, [h.val], 0)] := by
  decide +kernel

/-- R510: a write of IRQ_PEND sets bits and clears none. -/
theorem wordWrite_irqPend {s : State} (awake : Awake s) (m : MDom) (h : Fin 512) (w : Nat) :
    wordWrite s m (0x0C004004 + 16 * h.val) w
      = s.wr R.FIL_HART_IRQ.IRQ_PEND [h.val] (s.rd R.FIL_HART_IRQ.IRQ_PEND [h.val] ||| w % 256) := by
  obtain ⟨hwin, hblk, hfields⟩ := irqPend_word h
  have hact : fieldAct R.FIL_HART_IRQ.IRQ_PEND = none := by decide
  have htakes : fieldTakes s m R.FIL_HART_IRQ.IRQ_PEND [h.val] = true := rfl
  have hacc : R.FIL_HART_IRQ.IRQ_PEND.acc = .w1s := rfl
  have hbits : wordBits R.FIL_HART_IRQ.IRQ_PEND w = w % 256 := by simp [wordBits, bits, R.FIL_HART_IRQ.IRQ_PEND]
  unfold wordWrite
  rw [awake_bankOff awake, if_neg (by decide), hwin, hblk]
  dsimp only
  rw [hfields]
  simp [bankShow, regWord, actFields, writeFields, writeField, hact, htakes, hacc, hbits]

/-- Settles O11: mip by its sources, the cause by its order, a write of IRQ_PEND by its access type. -/
theorem hartInterrupts : Obligations.HartInterrupts := by
  unfold Obligations.HartInterrupts
  refine ⟨mipOf_bits, fun s h c => intrCause?_first, ?trap, ?registerWrite, ?irqPendWrite⟩
  case trap =>
    intro h w x c s u hrun hissue hstep hc
    exact ⟨_, rfl, hartStep_interrupted hrun hissue hstep hc⟩
  case registerWrite =>
    intro m h a v s awake allowed ha
    refine does_fromDomain awake allowed (f := fun s => .next (winWrite s m (4 * a.val) (.w4 v))) rfl ⟨_, rfl, ?_⟩
    unfold winWrite
    dsimp only
    rw [ha, wordWrite_irqPend awake, State.rd_wr_same]
    rfl
  case irqPendWrite =>
    intro h v s awake
    exact does_fromHost awake (f := fun s => .next (s.wr R.FIL_HART_IRQ.IRQ_PEND [h.val]
      (s.rd R.FIL_HART_IRQ.IRQ_PEND [h.val] ||| v.val))) rfl ⟨_, rfl, State.rd_wr_same _ _ _ _, rfl⟩

section
variable {s : State} {h n : Nat}

@[simp] theorem chanMsgs_chanSet (l : List Bytes) : chanMsgs (chanSet s n l) n = l := by
  unfold chanSet
  dsimp only
  split <;> exact SMap.get_set_same _ _ _ _

theorem chanSet_harts (l : List Bytes) (k : Nat) : hartGet (chanSet s n l) k = hartGet s k := by
  unfold chanSet
  dsimp only
  split <;> rfl

theorem HartsOnly.chanMsgs {t : State} (only : HartsOnly s t) (n : Nat) : chanMsgs t n = Machine.chanMsgs s n := by
  unfold Machine.chanMsgs
  rw [only.chan]

/-- A Xelvchan instruction that writes `v` to rd and ends: what it shows of its hart and channels. -/
theorem xelvEnd_shows (s : State) (h rd v : Nat) : HartsOnly s (pcNext (xw s h rd v) h)
    ∧ xr (pcNext (xw s h rd v) h) h rd = (if rd = 0 then 0 else w64 v)
    ∧ (hartGet (pcNext (xw s h rd v) h) h).pc = w64 ((hartGet s h).pc + 4)
    ∧ (hartGet (pcNext (xw s h rd v) h) h).recv = (hartGet s h).recv := by
  obtain ⟨x, hx⟩ := hartGet_xw s h rd v
  obtain ⟨c, hc⟩ := hartGet_pcNext (xw s h rd v) h
  exact ⟨(hartsOnly_xw s h rd v).trans (hartsOnly_pcNext _ h), by rw [xr_pcNext, xr_xw_same], by rw [hc, hx], by rw [hc, hx]⟩

/-- R504: a channel of the hart class, enabled, open to the hart and with room, takes a message. -/
theorem sendStatus_sent (hn : n < 8192) (hen : s.flag R.FIL_CH_W0.EN [n] = true) (hclass : s.rd R.FIL_CH_W0.PROD_CLASS [n] = 0)
    (hgroup : s.rd R.FIL_CH_W0.PROD_GRP [n] < 64 → inGroup s h (s.rd R.FIL_CH_W0.PROD_GRP [n]) = true)
    (hroom : (chanMsgs s n).length < chanDepth s n) : sendStatus s h n = 0 := by
  have hopen : (decide (s.rd R.FIL_CH_W0.PROD_GRP [n] < 64) && !inGroup s h (s.rd R.FIL_CH_W0.PROD_GRP [n])) = false := by
    by_cases hg : s.rd R.FIL_CH_W0.PROD_GRP [n] < 64
    · rw [hgroup hg, Bool.not_true, Bool.and_false]
    · rw [decide_eq_false hg, Bool.false_and]
  unfold sendStatus
  rw [if_pos hn, hen, hclass, if_neg (by decide), hopen, if_neg (by decide), if_neg (Nat.not_le.mpr hroom)]

theorem doChSend_sends {rd rs1 : Nat} (hok : xelvOk s h 0 = true) (hn : n = xr s h rs1 % 65536)
    (hst : sendStatus s h n = 0) : doChSend s h rd rs1
      = pcNext (xw ((chanPush s n (hartGet s h).staging).inc R.FIL_CNT.COUNT [0]) h rd 0) h := by
  unfold doChSend
  rw [xelv_allowed hok]
  dsimp only
  rw [← hn, hst, if_pos rfl]

theorem doChRecv_empty {rd rs1 : Nat} (hok : xelvOk s h 0 = true) (hn : n = xr s h rs1 % 65536) (hsw : n < 8192)
    (hen : s.flag R.FIL_CH_W0.EN [n] = true) (hmsgs : chanMsgs s n = []) : doChRecv s h rd rs1 = pcNext (xw s h rd 1) h := by
  unfold doChRecv
  rw [xelv_allowed hok]
  dsimp only
  rw [← hn, hen, if_neg (by simpa using hsw), hmsgs]

theorem doChRecv_takes {rd rs1 : Nat} {m : Bytes} {l : List Bytes} (hok : xelvOk s h 0 = true) (hn : n = xr s h rs1 % 65536)
    (hsw : n < 8192) (hen : s.flag R.FIL_CH_W0.EN [n] = true) (hmsgs : chanMsgs s n = m :: l) : doChRecv s h rd rs1
      = pcNext (xw (hartPut (chanSet s n l) h { hartGet (chanSet s n l) h with recv := slice m 0 64 }) h rd 0) h := by
  unfold doChRecv
  rw [xelv_allowed hok]
  dsimp only
  rw [← hn, hen, if_neg (by simpa using hsw), hmsgs]

theorem doChFill_open {rd rs1 : Nat} (hok : xelvOk s h 0 = true) (hn : n = xr s h rs1 % 65536)
    (hopen : (n < 8192 ∧ s.flag R.FIL_CH_W0.EN [n] = true) ∨ hwDepth n ≠ 0) :
    doChFill s h rd rs1 = pcNext (xw s h rd (chanMsgs s n).length) h := by
  unfold doChFill
  rw [xelv_allowed hok]
  dsimp only
  rw [← hn, if_pos (by simpa using hopen)]

end

/-- Settles O42: each channel instruction by what it does to its channel, then by what its end shows. -/
theorem hartChannels : Obligations.HartChannels := by
  unfold Obligations.HartChannels
  refine ⟨?send, ?illegal, ?recv, ?empty, ?fill⟩
  case send =>
    intro h rd rs1 n r s ready hok ⟨hn, hsw⟩ ⟨hen, hclass⟩ hgroup hroom
    refine does_hartStep ready (f := fun s => doChSend s h.val rd.val rs1.val) rfl ?_
    have hsend := doChSend_sends (rd := rd.val) hok hn (sendStatus_sent hsw hen hclass hgroup hroom)
    refine ⟨hsend, ?_⟩
    rw [hsend]
    obtain ⟨only, hval, hpc, _⟩ := xelvEnd_shows ((chanPush s n (hartGet s h.val).staging).inc R.FIL_CNT.COUNT [0]) h.val rd.val 0
    refine ⟨(only.chanMsgs n).trans (chanMsgs_chanSet _), hval.trans (ite_self _), hpc.trans ?_⟩
    rw [hartGet_inc, chanPush, chanSet_harts]
  case illegal =>
    intro h rd rs1 r s ready hok
    refine does_hartStep ready (f := fun s => doChSend s h.val rd.val rs1.val) rfl ?_
    unfold doChSend xelv
    rw [hok]
    rfl
  case recv =>
    intro h rd rs1 n m l r s ready hok ⟨hn, hsw⟩ hen hmsgs
    refine does_hartStep ready (f := fun s => doChRecv s h.val rd.val rs1.val) rfl ?_
    rw [doChRecv_takes hok hn hsw hen hmsgs]
    let u := hartPut (chanSet s n l) h.val { hartGet (chanSet s n l) h.val with recv := slice m 0 64 }
    obtain ⟨only, hval, hpc, hrecv⟩ := xelvEnd_shows u h.val rd.val 0
    refine ⟨(only.chanMsgs n).trans (chanMsgs_chanSet l), ?_, hval.trans (ite_self _), hpc.trans ?_⟩
    · rw [hrecv, hartGet_hartPut]
    · rw [hartGet_hartPut, chanSet_harts]
  case empty =>
    intro h rd rs1 n r s ready hok ⟨hn, hsw⟩ hen hmsgs
    refine does_hartStep ready (f := fun s => doChRecv s h.val rd.val rs1.val) rfl ?_
    exact doChRecv_empty hok hn hsw hen hmsgs
  case fill =>
    intro h rd rs1 n r s ready hok hn hopen
    exact does_hartStep ready (f := fun s => doChFill s h.val rd.val rs1.val) rfl (doChFill_open hok hn hopen)

end Sys2Proof.Machine
end

section
/-! Setting Filbert up (O44): issue tables, channels, frame buffers and transmit messages; the reset, the release and the debugging
of harts (O45). -/

namespace Sys2Proof.Machine

open Sys2Proof

section
variable {s : State} {c n : Nat}

theorem issueOf_next {r : Nat} {t : Issue} (h : SMap.find? s.fil.nextIssue c = some (r, t)) :
    issueOf s c = if r ≤ roundNo s then t else SMap.get Issue.reset s.fil.issue c := by
  unfold issueOf
  rw [h]

/-- R498: the table staged for core `c`. -/
def stagedIssue (s : State) (c : Nat) : Issue :=
  { lo := s.rd R.FIL_CORE_TABLE_LO.SLOTS_0_7 [c], hi := s.rd R.FIL_CORE_TABLE_HI.SLOTS_8_15 [c],
    highEn := s.flag R.FIL_CORE_CTL.HIGH_EN [c], highHart := s.rd R.FIL_CORE_CTL.HIGH_HART [c],
    highCap := max 1 (s.rd R.FIL_CORE_CTL.HIGH_CAP [c]) }

/-- R498: the state once a table is to come into force with the next round. -/
def issueStaged (s : State) (c : Nat) : State :=
  { s with fil := { s.fil with
    issue := SMap.set Issue.reset s.fil.issue c (issueOf s c),
    nextIssue := SMap.ins s.fil.nextIssue c (roundNo s + 1, stagedIssue s c) } }

theorem issueApply_installs (h : issueCheck s c = 0) : issueApply s c = issueStaged s c := by
  unfold issueApply
  rw [h]
  rfl

theorem issueApply_refuses (h : issueCheck s c ≠ 0) : issueApply s c
    = ((s.wr R.FIL_STATUS.CFG_ERR [] 1).wr R.FIL_STATUS.ERR_CODE [] (issueCheck s c)).wr R.FIL_STATUS.ERR_CORE [] c :=
  if_pos h

/-- R498: the table in force stays for this round. -/
theorem issueStaged_now : issueOf (issueStaged s c) c = issueOf s c := by
  rw [issueOf_next (SMap.find_ins_same _ _ _)]
  exact (if_neg (Nat.not_succ_le_self (roundNo s))).trans (SMap.get_set_same _ _ _ _)

/-- R498: from the next round on the staged one is in force. -/
theorem issueStaged_later {v : State} (hfil : v.fil = (issueStaged s c).fil) (hlater : roundNo s < roundNo v) :
    issueOf v c = stagedIssue s c := by
  have hnext : SMap.find? v.fil.nextIssue c = some (roundNo s + 1, stagedIssue s c) := by
    rw [hfil]
    exact SMap.find_ins_same _ _ _
  exact (issueOf_next hnext).trans (if_pos hlater)

theorem chanEnable_opens (hoff : s.flag R.FIL_CH_W0.EN [n] = false) (hok : chanEnCheck s n = 0) :
    chanEnable s n = chanSet (s.wr R.FIL_CH_W0.EN [n] 1) n [] := by
  unfold chanEnable
  rw [hoff, if_neg (by decide), hok]
  rfl

theorem chanEnable_refuses (hoff : s.flag R.FIL_CH_W0.EN [n] = false) (hbad : chanEnCheck s n ≠ 0) :
    chanEnable s n = (s.wr R.FIL_STATUS.CFG_ERR [] 1).wr R.FIL_STATUS.ERR_CODE [] (chanEnCheck s n) := by
  unfold chanEnable
  rw [hoff, if_neg (by decide)]
  exact if_pos hbad

/-- R528: a software channel emptied shows no message. -/
theorem chanSet_software (hn : n < 8192) (l : List Bytes) : chanSet s n l
    = ({ s with fil := { s.fil with chan := SMap.set [] s.fil.chan n l } }).wr R.FIL_CH_W2.FILL [n] l.length := by
  unfold chanSet
  exact if_pos hn

end

/-- Settles O44: each command by the branch its check selects. -/
theorem filbertSetup : Obligations.FilbertSetup := by
  unfold Obligations.FilbertSetup
  refine ⟨?install, ?refuse, ?enable, ?refuseChannel, ?giveBack, ?send, ?malformed⟩
  case install =>
    intro c s awake hok
    exact does_fromHost awake (f := fun s => .next (issueApply s c.val)) rfl ⟨_, congrArg Host.Outcome.next (issueApply_installs hok),
      rfl, issueStaged_now, fun v => issueStaged_later⟩
  case refuse =>
    intro c s awake hbad
    refine does_fromHost awake (f := fun s => .next (issueApply s c.val)) rfl
      ⟨_, congrArg Host.Outcome.next (issueApply_refuses hbad), ?_, ?_, State.rd_wr_same _ _ _ _, rfl⟩
    all_goals simp (disch := decide) only [State.rd_wr_apart, State.rd_wr_same]
    rfl
  case enable =>
    intro n s awake hoff hok
    refine does_fromHost awake (f := fun s => .next (chanEnable s n.val)) rfl
      ⟨_, congrArg Host.Outcome.next (chanEnable_opens hoff hok), ?_, chanMsgs_chanSet _, ?_⟩
    · rw [chanSet_software n.isLt, State.flag_wr_apart _ _ (Fld.apart_of_line rfl rfl (by decide))]
      exact State.flag_wr_same _ _ _ _
    · rw [chanSet_software n.isLt, State.rd_wr_same]
      rfl
  case refuseChannel =>
    intro n s awake hoff hbad
    refine does_fromHost awake (f := fun s => .next (chanEnable s n.val)) rfl
      ⟨_, congrArg Host.Outcome.next (chanEnable_refuses hoff hbad), ?_, State.rd_wr_same _ _ _ _, ?_⟩
    · rw [State.rd_wr_apart _ _ (by decide), State.rd_wr_same]
      rfl
    · rw [State.flag_wr_apart _ _ (Fld.apart_of_below (by decide)), State.flag_wr_apart _ _ (Fld.apart_of_below (by decide))]
      exact hoff
  case giveBack =>
    intro m l s awake hmsgs
    have e : exec .frameBufferReturn s = execFrameBufferReturn s := rfl
    unfold execFrameBufferReturn at e
    refine does_whenUp awake e ⟨_, ?_, rfl⟩
    rw [hmsgs]
  case send =>
    intro k m l s awake hmsgs hidle hgood
    have e : exec (.transmitMessage k) s = execTransmitMessage k s := rfl
    unfold execTransmitMessage at e
    refine does_whenUp awake e ⟨_, ?_, rfl⟩
    dsimp only
    rw [hmsgs]
    dsimp only
    rw [if_neg (Nat.not_lt.mpr hidle), hgood]
    rfl
  case malformed =>
    intro k m l s awake hmsgs hidle hbad
    have e : exec (.transmitMessage k) s = execTransmitMessage k s := rfl
    unfold execTransmitMessage at e
    refine does_whenUp awake e ⟨_, ?_, rfl⟩
    dsimp only
    rw [hmsgs]
    dsimp only
    rw [if_neg (Nat.not_lt.mpr hidle), hbad]
    rfl

section
variable {s : State} {h : Nat}

/-- R521: a hart reset, before its STATE is written. -/
def hartCleared (s : State) (h : Nat) : State := (hartPut s h Hart.reset).wr R.FIL_HART_IRQ.IRQ_PEND [h] 0

theorem hartCleared_rd_low {f : Fld} {ix : List Nat} (hf : f.key ix < 8 * 0x0C004004) : (hartCleared s h).rd f ix = s.rd f ix := by
  unfold hartCleared
  rw [State.rd_wr_apart _ _ (Fld.apart_of_over hf)]
  rfl

theorem runKey (h : Fin 512) : R.FIL_CORE_CTL.RUN.key [coreOf h.val] < 8 * 0x0C004004 := by
  simp only [Fld.key, Fld.addr, R.FIL_CORE_CTL.RUN, dimOffset, coreOf]
  omega

/-- R521: the pc a hart starts at. -/
def resetPc (s : State) : Nat := s.rd R.FIL_RESET_PC_LO.PC_LO [] + 2 ^ 32 * s.rd R.FIL_RESET_PC_HI.PC_HI []

theorem hartCleared_retired (c : Nat) :
    (hartCleared s h).flag R.FIL_CORE_STATUS.RETIRED [c] = s.flag R.FIL_CORE_STATUS.RETIRED [c] := by
  unfold hartCleared
  rw [State.flag_wr_apart _ _ (.inl (by decide))]
  rfl

theorem hartReset_eq : hartReset s h =
    if (hartCleared s h).flag R.FIL_CORE_STATUS.RETIRED [coreOf h] then (hartCleared s h).wr R.FIL_HART_CTL.STATE [h] hsRetired
    else if bit ((hartCleared s h).rd R.FIL_CORE_CTL.RUN [coreOf h]) (h % 8) then
      (setPc (hartCleared s h) h (resetPc (hartCleared s h))).wr R.FIL_HART_CTL.STATE [h] hsRun
    else (hartCleared s h).wr R.FIL_HART_CTL.STATE [h] hsReset := rfl

theorem hartReset_runs (h : Fin 512) (hlive : s.flag R.FIL_CORE_STATUS.RETIRED [coreOf h.val] = false)
    (hrun : bit (s.rd R.FIL_CORE_CTL.RUN [coreOf h.val]) (h.val % 8) = true) : hartReset s h.val
      = (setPc (hartCleared s h.val) h.val (resetPc s)).wr R.FIL_HART_CTL.STATE [h.val] hsRun := by
  have hpc : resetPc (hartCleared s h.val) = resetPc s := by
    unfold resetPc
    rw [hartCleared_rd_low (by decide), hartCleared_rd_low (by decide)]
  rw [hartReset_eq, hartCleared_retired, hlive, if_neg (by decide), hartCleared_rd_low (runKey h), hrun, if_pos rfl, hpc]

theorem hartReset_waits (h : Fin 512) (hlive : s.flag R.FIL_CORE_STATUS.RETIRED [coreOf h.val] = false)
    (hrun : bit (s.rd R.FIL_CORE_CTL.RUN [coreOf h.val]) (h.val % 8) = false) :
    hartReset s h.val = (hartCleared s h.val).wr R.FIL_HART_CTL.STATE [h.val] hsReset := by
  rw [hartReset_eq, hartCleared_retired, hlive, if_neg (by decide), hartCleared_rd_low (runKey h), hrun, if_neg (by decide)]

theorem hartGet_hartCleared : hartGet (hartCleared s h) h = Hart.reset := hartGet_hartPut _ _ _

/-- R521: IRQ_PEND stays clear when the hart's STATE is written. -/
theorem irqPend_wr_state {v n : Nat} (hs : s.rd R.FIL_HART_IRQ.IRQ_PEND [h] = n) :
    (s.wr R.FIL_HART_CTL.STATE [h] v).rd R.FIL_HART_IRQ.IRQ_PEND [h] = n := by
  rw [State.rd_wr_apart _ _ (Fld.apart_of_line rfl rfl (by decide))]
  exact hs

theorem irqPend_hartCleared : (hartCleared s h).rd R.FIL_HART_IRQ.IRQ_PEND [h] = 0 := State.rd_wr_same _ _ _ 0

theorem haltHart_shows (cause : Nat) : hartSt (haltHart s h cause) h = hsHalt ∧ (hartGet (haltHart s h cause) h).pc = (hartGet s h).pc
    ∧ (hartGet (haltHart s h cause) h).staging = (hartGet s h).staging
    ∧ csrRaw (haltHart s h cause) h csrDpc = w64 (hartGet s h).pc := by
  unfold haltHart
  refine ⟨State.rd_wr_same _ _ _ _, ?_, ?_, csrRaw_csrPut_same _ _ _ _⟩
  all_goals simp only [hartGet_wr, hartGet_csrPut]

theorem resumeHart_shows : (hartGet (resumeHart s h) h).pc = csrRaw s h csrDpc
    ∧ (hartGet (resumeHart s h) h).staging = (hartGet s h).staging
    ∧ (hartSt (resumeHart s h) h = hsRun ∨ hartSt (resumeHart s h) h = hsWait) := by
  unfold resumeHart
  dsimp only
  simp only [hartGet_wr, hartGet_hartPut, true_and]
  generalize (if csrRaw s h csrDpc = (hartGet s h).pc then (hartGet s h).wait else none) = w
  cases w with
  | none => exact .inl (State.rd_wr_same _ _ _ _)
  | some m => exact .inr (State.rd_wr_same _ _ _ _)

theorem releaseHart_resets {u : State} (hst : hartSt s h = hsReset)
    (hu : u = s.wr R.FIL_CORE_CTL.RUN [coreOf h] (setBit (s.rd R.FIL_CORE_CTL.RUN [coreOf h]) (h % 8) true))
    (hlow : R.FIL_CORE_CTL.RUN.key [coreOf h] < 8 * 0x0C004000) : releaseHart s h = hartReset u h := by
  have hst' : hartSt u h = hsReset := by
    rw [hu, hartSt, State.rd_wr_apart _ _ (Fld.apart_of_below hlow)]
    exact hst
  unfold releaseHart
  rw [← hu]
  exact if_pos hst'

theorem singleStep_runs {u : State} {w : Nat} {x : RvHap} (hu : u = resumeHart s h) (hlive : coreLive u (coreOf h) = true)
    (hst : hartSt u h = hsRun) : singleStep s h w x = stepHalt (hartCycle u h true fun v => rvRun v h w x) h := by
  unfold singleStep
  rw [← hu]
  dsimp only
  rw [hlive, if_neg (by decide), hst]
  rfl

theorem accessReg_reads {u : State} {n v : Nat} (hread : dbgRegRead s h n = some (v, u)) :
    accessReg s h n none false = u.emit (.data v) := by
  unfold accessReg
  dsimp only
  rw [hread]
  rfl

theorem accessReg_writes {u : State} {n v : Nat} (hwrite : dbgRegWrite s h n v = some u) :
    accessReg s h n (some v) false = u := by
  unfold accessReg
  dsimp only
  rw [hwrite]
  rfl

theorem accessMem_writes {a n v : Nat}
    (hok : memCheck (hartPut s h { hartGet s h with mmode := true }) h a n .store true = none) :
    accessMem s h a n (some v) = memPut s h a n v := by
  unfold accessMem
  dsimp only [Option.isSome_some, if_true]
  rw [if_pos rfl, hok]

theorem accessMem_reads {u : State} {a n v : Nat}
    (hok : memCheck (hartPut s h { hartGet s h with mmode := true }) h a n .load true = none)
    (hclean : loadPoisoned s a n .fine = false) (hget : memGet s h a n = (v, u)) :
    accessMem s h a n none = u.emit (.data v) := by
  unfold accessMem
  dsimp only [Option.isSome_none]
  rw [if_neg (by decide), hok]
  dsimp only
  rw [hclean, if_neg (by decide), hget]

end

/-- R519: a debug command whose condition holds. -/
theorem does_debug {s : State} {c : Instr} {g : State → Bool} {f : State → State} {p : State → Prop} (awake : Awake s)
    (e : exec c s = whenOn s fun s => if g s then .next (f s) else .next s) (hg : g s = true) (hp : p (f s)) : Does c s p :=
  does_whenOn awake e ⟨f s, if_pos hg, hp⟩

/-- R519: the conditions of a debug access to a hart's registers, and to memory. -/
def debugOpen (h : Nat) (s : State) : Bool := unlocked s 0 && hartSt s h == hsHalt && coreLive s (coreOf h)
def debugReaches (h a n : Nat) (s : State) : Bool := debugOpen h s && (!inHbm a n || unlocked s 2)

theorem debugOpen_of {s : State} {h : Nat} (hunlocked : unlocked s 0 = true) (hst : hartSt s h = hsHalt)
    (hlive : coreLive s (coreOf h) = true) : debugOpen h s = true := by
  simp [debugOpen, hunlocked, hst, hlive]

theorem debugReaches_of {s : State} {h a n : Nat} (hopen : debugOpen h s = true)
    (hhbm : inHbm a n = true → unlocked s 2 = true) : debugReaches h a n s = true := by
  unfold debugReaches
  rw [hopen, Bool.true_and]
  cases hb : inHbm a n
  · rfl
  · exact hhbm hb

/-- Settles O45: each command by the branch its conditions select. -/
theorem hartResetAndDebug : Obligations.HartResetAndDebug := by
  unfold Obligations.HartResetAndDebug
  refine ⟨?starts, ?stays, ?release, ?halt, ?resume, ?hartreset, ?step, ?regRead, ?regWrite, ?memWrite, ?memRead⟩
  case starts =>
    intro h s awake hlive hrun
    refine does_fromHost awake (f := fun s => .next (hartReset s h.val)) rfl
      ⟨_, congrArg Host.Outcome.next (hartReset_runs h hlive hrun), State.rd_wr_same _ _ _ _, ?_, irqPend_wr_state irqPend_hartCleared⟩
    rw [hartGet_wr, hartGet_setPc, hartGet_hartCleared]
    rfl
  case stays =>
    intro h s awake hlive hrun
    exact does_fromHost awake (f := fun s => .next (hartReset s h.val)) rfl
      ⟨_, congrArg Host.Outcome.next (hartReset_waits h hlive hrun), State.rd_wr_same _ _ _ _, hartGet_hartCleared,
        irqPend_wr_state irqPend_hartCleared⟩
  case release =>
    intro h s u awake hst hu
    have hlow : R.FIL_CORE_CTL.RUN.key [coreOf h.val] < 8 * 0x0C004000 := by
      simp only [Fld.key, Fld.addr, R.FIL_CORE_CTL.RUN, dimOffset, coreOf]
      omega
    exact does_fromHost awake (f := fun s => .next (releaseHart s h.val)) rfl ⟨_, rfl, releaseHart_resets hst hu hlow⟩
  case halt =>
    intro h s awake hunlocked hst
    exact does_debug awake (g := fun s => unlocked s 0 && (hartSt s h.val == hsRun || hartSt s h.val == hsWait))
      (f := fun s => haltHart s h.val 3) rfl (by simpa [hunlocked] using hst) ⟨rfl, haltHart_shows 3⟩
  case resume =>
    intro h s awake hunlocked hst
    exact does_debug awake (g := fun s => unlocked s 0 && hartSt s h.val == hsHalt) (f := fun s => resumeHart s h.val) rfl
      (by simp [hunlocked, hst]) ⟨rfl, resumeHart_shows⟩
  case hartreset =>
    intro h s awake hunlocked
    exact does_debug awake (g := fun s => unlocked s 0) (f := fun s => hartReset s h.val) rfl hunlocked rfl
  case step =>
    intro h w x s u awake hunlocked hst hu ⟨hlive, hrun⟩
    exact does_debug awake (g := fun s => unlocked s 0 && hartSt s h.val == hsHalt) (f := fun s => singleStep s h.val w.toNat x) rfl
      (by simp [hunlocked, hst]) (singleStep_runs hu hlive hrun)
  case regRead =>
    intro h n q v s u awake hunlocked ⟨hst, hlive⟩ hread
    exact does_debug awake (g := debugOpen h.val) (f := fun s => accessReg (progWrite s q) h.val n.val none false) rfl
      (debugOpen_of hunlocked hst hlive) (accessReg_reads hread)
  case regWrite =>
    intro h n q v s u awake hunlocked ⟨hst, hlive⟩ hwrite
    exact does_debug awake (g := debugOpen h.val) (f := fun s => accessReg (progWrite s q) h.val n.val (some v.toNat) false) rfl
      (debugOpen_of hunlocked hst hlive) (accessReg_writes hwrite)
  case memWrite =>
    intro h a k v s awake hunlocked ⟨hst, hlive⟩ hhbm hok
    exact does_debug awake (g := debugReaches h.val a.toNat (2 ^ k.val))
      (f := fun s => accessMem s h.val a.toNat (2 ^ k.val) (some v.toNat)) rfl
      (debugReaches_of (debugOpen_of hunlocked hst hlive) hhbm) (accessMem_writes hok)
  case memRead =>
    intro h a k v s u awake hunlocked ⟨hst, hlive⟩ hhbm hok hclean hget
    exact does_debug awake (g := debugReaches h.val a.toNat (2 ^ k.val))
      (f := fun s => accessMem s h.val a.toNat (2 ^ k.val) none) rfl
      (debugReaches_of (debugOpen_of hunlocked hst hlive) hhbm) (accessMem_reads hok hclean hget)

end Sys2Proof.Machine
end

section
/-! The base instructions of a hart (O46): the fields of an encoded word, and what a word of each form comes to. -/

namespace Sys2Proof.Machine

open Sys2Proof

section
variable {op rd f3 rs1 rs2 f7 imm : Nat}

/-- The bounds of the fields of a word. -/
structure WordFields (op rd f3 rs1 rs2 f7 : Nat) : Prop where
  op : op < 128 := by decide
  rd : rd < 32
  f3 : f3 < 8 := by decide
  rs1 : rs1 < 32
  rs2 : rs2 < 32
  f7 : f7 < 128

/-- The fields of a word in the R format, which its other formats share. -/
theorem mkR_fields (b : WordFields op rd f3 rs1 rs2 f7) :
    rvOp (mkR op rd f3 rs1 rs2 f7) = op ∧ rvRd (mkR op rd f3 rs1 rs2 f7) = rd ∧ rvF3 (mkR op rd f3 rs1 rs2 f7) = f3
      ∧ rvRs1 (mkR op rd f3 rs1 rs2 f7) = rs1 ∧ rvRs2 (mkR op rd f3 rs1 rs2 f7) = rs2 ∧ rvF7 (mkR op rd f3 rs1 rs2 f7) = f7
      ∧ mkR op rd f3 rs1 rs2 f7 < 2 ^ 32 ∧ mkR op rd f3 rs1 rs2 f7 % 4 = op % 4 := by
  obtain ⟨hop, hrd, hf3, hrs1, hrs2, hf7⟩ := b
  simp only [rvOp, rvRd, rvF3, rvRs1, rvRs2, rvF7, bits, mkR]
  omega

theorem immI_mkR (b : WordFields op rd f3 rs1 rs2 f7) : immI (mkR op rd f3 rs1 rs2 f7) = sx 12 (rs2 + 32 * f7) := by
  obtain ⟨hop, hrd, hf3, hrs1, hrs2, hf7⟩ := b
  unfold immI
  congr 1
  simp only [bits, mkR]
  omega

theorem immS_mkR (b : WordFields op rd f3 rs1 rs2 f7) : immS (mkR op rd f3 rs1 rs2 f7) = sx 12 (rd + f7 * 32) := by
  obtain ⟨_, hrd, _, _, _, hf7, _, _⟩ := mkR_fields b
  unfold immS
  rw [← rvRd, ← rvF7, hrd, hf7]

theorem immB_mkR (b : WordFields op rd f3 rs1 rs2 f7) : immB (mkR op rd f3 rs1 rs2 f7)
    = sx 13 (rd / 2 * 2 + f7 % 64 * 32 + rd % 2 * 2048 + f7 / 64 * 4096) := by
  obtain ⟨hop, hrd, hf3, hrs1, hrs2, hf7⟩ := b
  unfold immB
  congr 1
  simp only [bits, mkR]
  omega

/-- The I format: the immediate lies where rs2 and funct7 do. -/
theorem mkI_eq_mkR (himm : imm < 4096) : mkI op rd f3 rs1 imm = mkR op rd f3 rs1 (imm % 32) (imm / 32) := by
  simp only [mkI, mkR]
  omega

theorem mkI_fields (hrd : rd < 32) (hrs1 : rs1 < 32) (himm : imm < 4096) (hop : op < 128) (hf3 : f3 < 8) :
    WordFields op rd f3 rs1 (imm % 32) (imm / 32) :=
  ⟨hop, hrd, hf3, hrs1, Nat.mod_lt _ (by decide), by omega⟩

theorem mkS_fields (hrs1 : rs1 < 32) (hrs2 : rs2 < 32) (hop : op < 128) (hf3 : f3 < 8) :
    WordFields op (bits imm 0 5) f3 rs1 rs2 (bits imm 5 7) :=
  ⟨hop, Nat.mod_lt _ (by decide), hf3, hrs1, hrs2, Nat.mod_lt _ (by decide)⟩

theorem mkB_fields (hrs1 : rs1 < 32) (hrs2 : rs2 < 32) (hf3 : f3 < 8) :
    WordFields 0x63 (bits imm 11 1 + bits imm 1 4 * 2) f3 rs1 rs2 (bits imm 5 6 + bits imm 12 1 * 64) := by
  refine ⟨by decide, ?_, hf3, hrs1, hrs2, ?_⟩ <;> simp only [bits] <;> omega

theorem immS_mkS (hrs1 : rs1 < 32) (hrs2 : rs2 < 32) (hop : op < 128) (hf3 : f3 < 8) (himm : imm < 4096) :
    immS (mkS op f3 rs1 rs2 imm) = sx 12 imm := by
  unfold mkS
  rw [immS_mkR (mkS_fields hrs1 hrs2 hop hf3)]
  congr 1
  simp only [bits]
  omega

/-- The parts in which the B format holds an even offset. -/
theorem bits_offsetB {a b c d : Nat} (ha : a < 16) (hb : b < 64) (hc : c < 2) (hd : d < 2) :
    bits (2 * (a + 16 * b + 1024 * c + 2048 * d)) 1 4 = a ∧ bits (2 * (a + 16 * b + 1024 * c + 2048 * d)) 5 6 = b
      ∧ bits (2 * (a + 16 * b + 1024 * c + 2048 * d)) 11 1 = c ∧ bits (2 * (a + 16 * b + 1024 * c + 2048 * d)) 12 1 = d := by
  simp only [bits]
  omega

theorem immB_mkB (hrs1 : rs1 < 32) (hrs2 : rs2 < 32) (hf3 : f3 < 8) {k : Nat} (hk : k < 4096) :
    immB (mkB f3 rs1 rs2 (2 * k)) = sx 13 (2 * k) := by
  obtain ⟨a, b, c, d, ha, hb, hc, hd, rfl⟩ : ∃ a b c d, a < 16 ∧ b < 64 ∧ c < 2 ∧ d < 2 ∧ k = a + 16 * b + 1024 * c + 2048 * d :=
    ⟨k % 16, k / 16 % 64, k / 1024 % 2, k / 2048, by omega⟩
  obtain ⟨ea, eb, ec, ed⟩ := bits_offsetB ha hb hc hd
  unfold mkB
  rw [immB_mkR (mkB_fields hrs1 hrs2 hf3), ea, eb, ec, ed]
  have hlow : (c + a * 2) / 2 = a ∧ (c + a * 2) % 2 = c := by omega
  have hhigh : (b + d * 64) % 64 = b ∧ (b + d * 64) / 64 = d := by omega
  rw [hlow.1, hlow.2, hhigh.1, hhigh.2]
  congr 1
  omega

/-- The parts in which the J format holds an even offset. -/
theorem bits_offsetJ {a b c d : Nat} (ha : a < 1024) (hb : b < 2) (hc : c < 256) (hd : d < 2) :
    bits (2 * (a + 1024 * b + 2048 * c + 524288 * d)) 1 10 = a ∧ bits (2 * (a + 1024 * b + 2048 * c + 524288 * d)) 11 1 = b
      ∧ bits (2 * (a + 1024 * b + 2048 * c + 524288 * d)) 12 8 = c ∧ bits (2 * (a + 1024 * b + 2048 * c + 524288 * d)) 20 1 = d := by
  simp only [bits]
  omega

/-- The fields of a word in the J format, by the parts of its offset. -/
theorem jal_word {a b c d : Nat} (hrd : rd < 32) (ha : a < 1024) (hb : b < 2) (hc : c < 256) (hd : d < 2) {w : Nat}
    (hw : w = 0x6F + rd * 2 ^ 7 + c * 2 ^ 12 + b * 2 ^ 20 + a * 2 ^ 21 + d * 2 ^ 31) :
    rvOp w = 0x6F ∧ rvRd w = rd ∧ bits w 21 10 = a ∧ bits w 20 1 = b ∧ bits w 12 8 = c ∧ bits w 31 1 = d ∧ w < 2 ^ 32 ∧ w % 4 = 3 := by
  subst hw
  simp only [rvOp, rvRd, bits]
  omega

theorem mkJ_fields (hrd : rd < 32) {k : Nat} (hk : k < 1048576) :
    rvOp (mkJ rd (2 * k)) = 0x6F ∧ rvRd (mkJ rd (2 * k)) = rd ∧ immJ (mkJ rd (2 * k)) = sx 21 (2 * k)
      ∧ mkJ rd (2 * k) < 2 ^ 32 ∧ mkJ rd (2 * k) % 4 = 3 := by
  obtain ⟨a, b, c, d, ha, hb, hc, hd, rfl⟩ :
      ∃ a b c d, a < 1024 ∧ b < 2 ∧ c < 256 ∧ d < 2 ∧ k = a + 1024 * b + 2048 * c + 524288 * d :=
    ⟨k % 1024, k / 1024 % 2, k / 2048 % 256, k / 524288, by omega⟩
  obtain ⟨ea, eb, ec, ed⟩ := bits_offsetJ ha hb hc hd
  obtain ⟨hop, hrd', fa, fb, fc, fd, hlt, hlong⟩ := jal_word hrd ha hb hc hd rfl
  unfold mkJ immJ
  rw [ea, eb, ec, ed, fa, fb, fc, fd]
  refine ⟨hop, hrd', ?_, hlt, hlong⟩
  congr 1
  omega

/-- The U format of LUI. -/
theorem lui_fields (hrd : rd < 32) {k : Nat} (hk : k < 1048576) :
    rvOp (0x37 + rd * 128 + k * 4096) = 0x37 ∧ rvRd (0x37 + rd * 128 + k * 4096) = rd
      ∧ immU (0x37 + rd * 128 + k * 4096) = sx 32 (k * 4096)
      ∧ 0x37 + rd * 128 + k * 4096 < 2 ^ 32 ∧ (0x37 + rd * 128 + k * 4096) % 4 = 3 := by
  have himm : bits (0x37 + rd * 128 + k * 4096) 12 20 * 4096 = k * 4096 := by
    simp only [bits]
    omega
  refine ⟨?_, ?_, congrArg (sx 32) himm, by omega, by omega⟩
  · simp only [rvOp, bits]
    omega
  · simp only [rvRd, bits]
    omega

end

section
variable {s : State} {h w : Nat} {x : RvHap} {bad : RvOut}

theorem rvRun_word (hx : ∀ a, x ≠ .coreError a) (hfetch : fetchFault s h 4 = none)
    (hlong : w % 4 = 3) (hw : w < 2 ^ 32) : rvRun s h w x = rvFinish h (rvWord s h w 4 false x (.trap 2 w s)) := by
  have hexpand : rvExpand w = (4, some w) := by
    unfold rvExpand
    rw [hlong, Nat.mod_eq_of_lt hw]
    rfl
  have hexec : rvExec s h w false x = rvWord s h w 4 false x (.trap 2 w s) := by
    unfold rvExec
    rw [hexpand]
    rfl
  unfold rvRun
  split
  next a => exact absurd rfl (hx a)
  · rw [hexpand, hfetch, hexec]

/-- What each opcode comes to. -/
theorem rvWord_addi (hop : rvOp w = 0x13) (hf3 : rvF3 w = 0) :
    rvWord s h w 4 false x bad = .retire (xw s h (rvRd w) (xr s h (rvRs1 w) + immI w)) (w64 ((hartGet s h).pc + 4)) := by
  unfold rvWord
  simp only [hop, hf3]
  rfl

theorem rvWord_add (hop : rvOp w = 0x33) (hf3 : rvF3 w = 0) (hf7 : rvF7 w = 0) :
    rvWord s h w 4 false x bad
      = .retire (xw s h (rvRd w) (xr s h (rvRs1 w) + xr s h (rvRs2 w))) (w64 ((hartGet s h).pc + 4)) := by
  unfold rvWord
  simp only [hop, hf3, hf7]
  rfl

theorem rvWord_lui (hop : rvOp w = 0x37) :
    rvWord s h w 4 false x bad = .retire (xw s h (rvRd w) (immU w)) (w64 ((hartGet s h).pc + 4)) := by
  unfold rvWord
  simp only [hop]
  rfl

theorem xw_w64 (i v : Nat) : xw s h i (w64 v) = xw s h i v := by
  have hw : w64 (w64 v) = w64 v := Nat.mod_mod _ _
  unfold xw
  rw [hw]

theorem rvWord_jal (hop : rvOp w = 0x6F) : rvWord s h w 4 false x bad
    = .retire (xw s h (rvRd w) ((hartGet s h).pc + 4)) (w64 ((hartGet s h).pc + immJ w)) := by
  rw [← xw_w64]
  unfold rvWord
  simp only [hop]
  rfl

theorem rvWord_beq (hop : rvOp w = 0x63) (hf3 : rvF3 w = 0) : rvWord s h w 4 false x bad
    = .retire s (if xr s h (rvRs1 w) = xr s h (rvRs2 w) then w64 ((hartGet s h).pc + immB w) else w64 ((hartGet s h).pc + 4)) := by
  have htaken : rvTaken 0 (xr s h (rvRs1 w)) (xr s h (rvRs2 w)) = some (xr s h (rvRs1 w) == xr s h (rvRs2 w)) := rfl
  unfold rvWord
  simp only [hop, hf3, htaken, beq_iff_eq]
  rfl

theorem rvWord_sd (hop : rvOp w = 0x23) (hf3 : rvF3 w = 3)
    (hok : memCheck s h (w64 (xr s h (rvRs1 w) + immS w)) 8 .store false = none) : rvWord s h w 4 false x bad
      = .retire (memPut s h (w64 (xr s h (rvRs1 w) + immS w)) 8 (xr s h (rvRs2 w))) (w64 ((hartGet s h).pc + 4)) := by
  have hstore : rvWord s h w 4 false x bad
      = storeTo s h (w64 (xr s h (rvRs1 w) + immS w)) 8 (xr s h (rvRs2 w)) false (w64 ((hartGet s h).pc + 4)) := by
    unfold rvWord
    simp only [hop, hf3]
    rfl
  rw [hstore, storeTo, hok]

theorem rvWord_ld {v : Nat} {u : State} (hop : rvOp w = 0x03) (hf3 : rvF3 w = 3)
    (hok : memCheck s h (w64 (xr s h (rvRs1 w) + immI w)) 8 .load false = none)
    (hclean : loadPoisoned s (w64 (xr s h (rvRs1 w) + immI w)) 8 x = false)
    (hget : memGet s h (w64 (xr s h (rvRs1 w) + immI w)) 8 = (v, u)) :
    rvWord s h w 4 false x bad = .retire (xw u h (rvRd w) (sx 64 v)) (w64 ((hartGet s h).pc + 4)) := by
  have hload : rvWord s h w 4 false x bad = rvLoad s h w (w64 (xr s h (rvRs1 w) + immI w)) false x (w64 ((hartGet s h).pc + 4)) bad := by
    unfold rvWord
    simp only [hop]
    rfl
  rw [hload]
  unfold rvLoad withLoad
  dsimp only
  have hsize : 2 ^ (rvF3 w % 4) = 8 := congrArg (fun n => 2 ^ (n % 4)) hf3
  rw [hsize, hf3, if_neg (by decide), hok]
  dsimp only
  rw [hclean, if_neg (by decide), hget]
  rfl

theorem rvWord_ecall : rvWord s h 0x73 4 false x bad = .trap (if (hartGet s h).mmode then 11 else 8) 0 s := rfl

theorem rvRun_illegal (hx : ∀ a, x ≠ .coreError a) (hfetch : fetchFault s h 2 = none) :
    rvRun s h 0 x = trapEnter s h 2 false 0 := by
  have hexpand : rvExpand 0 = (2, none) := by decide
  have hexec : rvExec s h 0 false x = .trap 2 0 s := by
    unfold rvExec
    rw [hexpand]
    rfl
  unfold rvRun
  split
  next a => exact absurd rfl (hx a)
  · rw [hexpand, hfetch, hexec]
    rfl

theorem rvRun_faults {a : Nat} (hx : ∀ a, x ≠ .coreError a) (hfetch : fetchFault s h (rvExpand w).1 = some a) :
    rvRun s h w x = trapEnter s h 1 false a := by
  unfold rvRun
  split
  next a => exact absurd rfl (hx a)
  · rw [hfetch]

end

/-- An instruction of a hart that is let issue, by what its word comes to. -/
theorem does_word {h : Fin 512} {x : RvHap} {r s : State} {w : Nat} {o : RvOut} (ready : HartReady r h.val s)
    (hfetch : fetchFault s h.val 4 = none) (hx : ∀ a, x ≠ .coreError a) (hw : w < 2 ^ 32) (hlong : w % 4 = 3)
    (hword : ∀ bad, rvWord s h.val w 4 false x bad = o) :
    Does (.riscvInstruction h (BitVec.ofNat 32 w) x) r fun t => t = rvFinish h.val o := by
  refine does_hartStep ready (f := fun s => rvRun s h.val (BitVec.ofNat 32 w).toNat x) rfl ?_
  rw [BitVec.toNat_ofNat, Nat.mod_eq_of_lt hw, rvRun_word hx hfetch hlong hw, hword]

/-- What a trap saves and changes. -/
theorem trapEnter_shows (s : State) (h cause tval : Nat) (intr : Bool) (t : State) (ht : t = trapEnter s h cause intr tval) :
    csrRaw t h csrMepc = w64 (hartGet s h).pc ∧ csrRaw t h csrMtval = w64 tval
    ∧ csrRaw t h csrMcause = w64 (cause + if intr then 2 ^ 63 else 0)
    ∧ bit (csrRaw t h csrMstatus) 3 = false ∧ bit (csrRaw t h csrMstatus) 7 = bit (csrRaw s h csrMstatus) 3
    ∧ (hartGet t h).mmode = true ∧ (hartGet t h).resv = none
    ∧ (hartGet t h).pc = w64 (csrRaw s h csrMtvec / 4 * 4
        + if intr && csrRaw s h csrMtvec % 4 = 1 then 4 * cause else 0)
    ∧ (hartGet t h).x = (hartGet s h).x ∧ (hartGet t h).f = (hartGet s h).f
    ∧ (hartGet t h).staging = (hartGet s h).staging ∧ (hartGet t h).recv = (hartGet s h).recv
    ∧ (∀ k, k ≠ h → hartGet t k = hartGet s k) ∧ t.fil.chan = s.fil.chan ∧ t.fil.scratch = s.fil.scratch ∧ t.hbm = s.hbm := by
  subst ht
  have head := May.head
  have tail := May.tail
  have keeps : Keeps [.regs, .fil] s (trapEnter s h cause intr tval) := trapEnter_keeps (.refl s)
  obtain ⟨c, hhart⟩ := trapEnter_hart s h cause intr tval
  obtain ⟨m, hfil⟩ := hartsOnly_trapped s h cause intr tval
  refine ⟨trapEnter_mepc .., trapEnter_mtval .., trapEnter_mcause .., ?_, ?_, ?_, ?_, ?_, ?_, ?_, ?_, ?_, fun k => trapEnter_other _ _ _ _ _,
    ?_, ?_, keeps.frame .hbm (by decide)⟩
  · rw [trapEnter_mstatus, trapStatus_mie]
  · rw [trapEnter_mstatus, trapStatus_mpie]
  all_goals first | rw [hhart] | rw [trapEnter_fil, hfil]

/-- Settles O46: each instruction form by what its word comes to, a trap by what it leaves. -/
theorem hartInstructionsAndTraps : Obligations.HartInstructionsAndTraps := by
  unfold Obligations.HartInstructionsAndTraps
  refine ⟨?addi, ?add, ?lui, ?jal, ?beq, ?sd, ?ld, ?ecall, ?illegal, ?faults, trapEnter_shows⟩
  case addi =>
    intro h rd rs1 i x r s ready hfetch hx
    have b := mkI_fields rd.isLt rs1.isLt i.isLt (op := 0x13) (f3 := 0) (by decide) (by decide)
    obtain ⟨hop, hrd, hf3, hrs1, _, _, hlt, hlong⟩ := mkR_fields b
    have himm := immI_mkR b
    rw [Nat.mod_add_div] at himm
    rw [mkI_eq_mkR i.isLt]
    have hword (bad : RvOut) := rvWord_addi (s := s) (h := h.val) (x := x) (bad := bad) hop hf3
    rw [hrd, hrs1, himm] at hword
    exact does_word ready hfetch hx hlt hlong hword
  case add =>
    intro h rd rs1 rs2 x r s ready hfetch hx
    obtain ⟨hop, hrd, hf3, hrs1, hrs2, hf7, hlt, hlong⟩ :=
      mkR_fields (op := 0x33) (f3 := 0) (f7 := 0) ⟨by decide, rd.isLt, by decide, rs1.isLt, rs2.isLt, by decide⟩
    have hword (bad : RvOut) := rvWord_add (s := s) (h := h.val) (x := x) (bad := bad) hop hf3 hf7
    rw [hrd, hrs1, hrs2] at hword
    exact does_word ready hfetch hx hlt hlong hword
  case lui =>
    intro h rd k x r s ready hfetch hx
    obtain ⟨hop, hrd, himm, hlt, hlong⟩ := lui_fields rd.isLt k.isLt
    have hword (bad : RvOut) := rvWord_lui (s := s) (h := h.val) (x := x) (bad := bad) hop
    rw [hrd, himm] at hword
    exact does_word ready hfetch hx hlt hlong hword
  case jal =>
    intro h rd k x r s ready hfetch hx
    obtain ⟨hop, hrd, himm, hlt, hlong⟩ := mkJ_fields rd.isLt k.isLt
    have hword (bad : RvOut) := rvWord_jal (s := s) (h := h.val) (x := x) (bad := bad) hop
    rw [hrd, himm] at hword
    exact does_word ready hfetch hx hlt hlong hword
  case beq =>
    intro h rs1 rs2 k x r s ready hfetch hx
    obtain ⟨hop, _, hf3, hrs1, hrs2, _, hlt, hlong⟩ := mkR_fields (mkB_fields (imm := 2 * k.val) rs1.isLt rs2.isLt (f3 := 0) (by decide))
    have himm := immB_mkB rs1.isLt rs2.isLt (f3 := 0) (by decide) k.isLt
    rw [← mkB] at hop hf3 hrs1 hrs2 hlt hlong
    have hword (bad : RvOut) := rvWord_beq (s := s) (h := h.val) (x := x) (bad := bad) hop hf3
    rw [hrs1, hrs2, himm] at hword
    exact does_word ready hfetch hx hlt hlong hword
  case sd =>
    intro h rs1 rs2 i a x r s ready hfetch hx ha hok
    obtain ⟨hop, _, hf3, hrs1, hrs2, _, hlt, hlong⟩ :=
      mkR_fields (mkS_fields (imm := i.val) rs1.isLt rs2.isLt (op := 0x23) (f3 := 3) (by decide) (by decide))
    have himm := immS_mkS rs1.isLt rs2.isLt (op := 0x23) (f3 := 3) (by decide) (by decide) i.isLt
    rw [← mkS] at hop hf3 hrs1 hrs2 hlt hlong
    have haddr : w64 (xr s h.val (rvRs1 (mkS 0x23 3 rs1.val rs2.val i.val)) + immS (mkS 0x23 3 rs1.val rs2.val i.val)) = a := by
      rw [hrs1, himm, ha]
    have hword (bad : RvOut) := rvWord_sd (x := x) (bad := bad) hop hf3 (by rw [haddr]; exact hok)
    rw [haddr, hrs2] at hword
    exact does_word ready hfetch hx hlt hlong hword
  case ld =>
    intro h rd rs1 i a v x r s u ready hfetch hx ha hok hclean hget
    have b := mkI_fields rd.isLt rs1.isLt i.isLt (op := 0x03) (f3 := 3) (by decide) (by decide)
    obtain ⟨hop, hrd, hf3, hrs1, _, _, hlt, hlong⟩ := mkR_fields b
    have himm := immI_mkR b
    rw [Nat.mod_add_div, ← mkI_eq_mkR i.isLt] at himm
    rw [← mkI_eq_mkR i.isLt] at hop hrd hf3 hrs1 hlt hlong
    have haddr : w64 (xr s h.val (rvRs1 (mkI 0x03 rd.val 3 rs1.val i.val)) + immI (mkI 0x03 rd.val 3 rs1.val i.val)) = a := by
      rw [hrs1, himm, ha]
    have hword (bad : RvOut) := rvWord_ld (v := v) (u := u) (bad := bad) hop hf3 (by rw [haddr]; exact hok) (by rw [haddr]; exact hclean)
      (by rw [haddr]; exact hget)
    rw [hrd] at hword
    exact does_word ready hfetch hx hlt hlong hword
  case ecall =>
    intro h x r s ready hfetch hx
    exact does_word ready hfetch hx (w := 0x73) (by decide) (by decide) fun _ => rvWord_ecall
  case illegal =>
    intro h x r s ready hfetch hx
    exact does_hartStep ready (f := fun s => rvRun s h.val (0 : BitVec 32).toNat x) rfl (rvRun_illegal hx hfetch)
  case faults =>
    intro h w x a r s ready hfetch hx
    exact does_hartStep ready (f := fun s => rvRun s h.val w.toNat x) rfl (rvRun_faults hx hfetch)

end Sys2Proof.Machine
end

section
/-! The Time Unit: capture and set (O47); samples, the servo and its modes (O48). -/

namespace Sys2Proof.Machine

open Sys2Proof

/-- R532: the error of a stamp is what its accuracy allows. -/
theorem tuStamp_error (s : State) (acc : Nat) : ∃ e : Int, e.natAbs ≤ acc ∧ ∃ u : State,
    tuStamp s acc = (tsShift (s.tu.t / 65536) e, u) ∧ u.tu = s.tu := by
  refine ⟨(((s.freeBits 32).1 % (2 * acc + 1) : Nat) : Int) - (acc : Int), ?_, (s.freeBits 32).2, rfl, rfl⟩
  have hlt : (s.freeBits 32).1 % (2 * acc + 1) < 2 * acc + 1 := Nat.mod_lt _ (Nat.succ_pos _)
  omega

/-- R534: the value that TU_SET holds. -/
def tuSetValue (s : State) : Nat :=
  tsMake (s.rd R.TU_SET_SEC_LO.SEC_LO [] + 2 ^ 32 * s.rd R.TU_SET_SEC_HI.SEC_HI []) (s.rd R.TU_SET_NS.NS [])
    (s.rd R.TU_SET_FRAC.FRAC []) * 65536

/-- R534: the time that TIME_SET puts TU time to, before it wraps. -/
def tuSetTime (s : State) (add neg : Bool) : Nat :=
  if !add then tuSetValue s else if neg then s.tu.t + tuSpan - tuSetValue s % tuSpan else s.tu.t + tuSetValue s

theorem timeSet_eq (s : State) (add neg : Bool) : timeSet s add neg = { tuStep s (tuSetTime s add neg) with
    tu := { (tuStep s (tuSetTime s add neg)).tu with start := tuSetTime s add neg % tuSpan, setAt := some s.now } } := rfl

/-- The state once TU_SET_CTL is written. -/
def setCtl (s : State) (add neg : Bool) : State := (s.wr R.TU_SET_CTL.ADD [] (b2n add)).wr R.TU_SET_CTL.NEG [] (b2n neg)

theorem setCtl_rd {f : Fld} {ix : List Nat} (s : State) (add neg : Bool) (hadd : Fld.apart R.TU_SET_CTL.ADD f [] ix)
    (hneg : Fld.apart R.TU_SET_CTL.NEG f [] ix) : (setCtl s add neg).rd f ix = s.rd f ix := by
  unfold setCtl
  rw [State.rd_wr_apart _ _ hneg, State.rd_wr_apart _ _ hadd]

theorem tuSetValue_setCtl (s : State) (add neg : Bool) : tuSetValue (setCtl s add neg) = tuSetValue s := by
  unfold tuSetValue
  rw [setCtl_rd _ _ _ (by decide) (by decide), setCtl_rd _ _ _ (by decide) (by decide), setCtl_rd _ _ _ (by decide) (by decide),
    setCtl_rd _ _ _ (by decide) (by decide)]

theorem tuStep_shows (s : State) (t : Nat) : (tuStep s t).tu.t = t % tuSpan
    ∧ (tuStep s t).rd R.TU_STEP.STEP_COUNT [] = (s.rd R.TU_STEP.STEP_COUNT [] + 1) % 2 ^ R.TU_STEP.STEP_COUNT.width
    ∧ (tuStep s t).rd R.TU_STEP_MTIME.MTIME [0] = s.mtime % 2 ^ 32 := by
  unfold tuStep
  dsimp only
  refine ⟨rfl, ?_, ?_⟩
  · rw [State.rd_wr_apart _ _ (by decide), State.rd_wr_apart _ _ (by decide), State.rd_inc_same]
    rfl
  · rw [State.rd_wr_apart _ _ (by decide), State.rd_wr_same]
    exact Nat.mod_mod _ _

/-- A move back by `v`, made within one span `m` so as to stay natural, is one by `-v` modulo the span. -/
theorem back_mod (t v : Nat) {m : Nat} (hm : 0 < m) : (((t + m - v % m) % m : Nat) : Int) = ((t : Int) - v) % (m : Int) := by
  have hlt : v % m < m := Nat.mod_lt _ hm
  have hback : ((t + m - v % m : Nat) : Int) = (t : Int) - v + m * (1 + v / m) := by
    have hdiv : (v : Int) = m * (v / m) + (v % m : Nat) := (Int.mul_ediv_add_emod _ _).symm
    rw [Int.mul_add, Int.mul_one]
    omega
  rw [Int.natCast_emod, hback, Int.add_mul_emod_self_left]

/-- R534: a move by the value is one modulo the span of TU time. -/
theorem tuSetTime_add (t v : Nat) (neg : Bool) :
    (((if neg then t + tuSpan - v % tuSpan else t + v) % tuSpan : Nat) : Int)
      = ((t : Int) + if neg then -(v : Int) else (v : Int)) % (tuSpan : Int) := by
  cases neg with
  | false => exact Int.natCast_emod _ _
  | true => exact back_mod t v (by decide)

theorem timeCapture_latches (s : State) : ∃ e : Int, e.natAbs ≤ accSnap
    ∧ (timeCapture s).rd R.TU_SNAP_SEC_LO.SEC_LO [] = tsSec (tsShift (s.tu.t / 65536) e) % 2 ^ 32 % 2 ^ R.TU_SNAP_SEC_LO.SEC_LO.width
    ∧ (timeCapture s).rd R.TU_SNAP_SEC_HI.SEC_HI [] = tsSec (tsShift (s.tu.t / 65536) e) / 2 ^ 32 % 2 ^ R.TU_SNAP_SEC_HI.SEC_HI.width
    ∧ (timeCapture s).rd R.TU_SNAP_NS.NS [] = tsNs (tsShift (s.tu.t / 65536) e) % 2 ^ R.TU_SNAP_NS.NS.width
    ∧ (timeCapture s).rd R.TU_SNAP_FRAC.FRAC [] = tsFrac (tsShift (s.tu.t / 65536) e) % 2 ^ R.TU_SNAP_FRAC.FRAC.width
    ∧ (timeCapture s).tu = s.tu := by
  obtain ⟨e, he, u, hstamp, htu⟩ := tuStamp_error s accSnap
  refine ⟨e, he, ?_⟩
  unfold timeCapture
  rw [hstamp]
  dsimp only
  simp (disch := decide) only [State.rd_wr_apart, State.rd_wr_same, true_and]
  exact htu

theorem timeSet_shows {s : State} {add neg : Bool} {v : Nat} (hv : tuSetTime s add neg = v) :
    (timeSet s add neg).tu.t = v % tuSpan
    ∧ (timeSet s add neg).rd R.TU_STEP.STEP_COUNT [] = (s.rd R.TU_STEP.STEP_COUNT [] + 1) % 2 ^ R.TU_STEP.STEP_COUNT.width
    ∧ (timeSet s add neg).rd R.TU_STEP_MTIME.MTIME [0] = s.mtime % 2 ^ 32 ∧ (timeSet s add neg).tu.setAt = some s.now := by
  obtain ⟨htime, hcount, hmtime⟩ := tuStep_shows s v
  rw [timeSet_eq, hv]
  exact ⟨htime, hcount, hmtime, rfl⟩

theorem tuSetTime_set (s : State) (neg : Bool) : tuSetTime (setCtl s false neg) false neg = tuSetValue s := by
  unfold tuSetTime
  rw [if_pos (by decide), tuSetValue_setCtl]

theorem tuSetTime_move (s : State) (neg : Bool) : tuSetTime (setCtl s true neg) true neg
    = if neg then s.tu.t + tuSpan - tuSetValue s % tuSpan else s.tu.t + tuSetValue s := by
  have htu : (setCtl s true neg).tu = s.tu := rfl
  unfold tuSetTime
  rw [if_neg (by decide), tuSetValue_setCtl, htu]

theorem timeSet_sets (s : State) (neg : Bool) : (timeSet (setCtl s false neg) false neg).tu.t = tuSetValue s % tuSpan
    ∧ (timeSet (setCtl s false neg) false neg).rd R.TU_STEP.STEP_COUNT []
      = (s.rd R.TU_STEP.STEP_COUNT [] + 1) % 2 ^ R.TU_STEP.STEP_COUNT.width
    ∧ (timeSet (setCtl s false neg) false neg).rd R.TU_STEP_MTIME.MTIME [0] = s.mtime % 2 ^ 32
    ∧ (timeSet (setCtl s false neg) false neg).tu.setAt = some s.now := by
  obtain ⟨htime, hcount, hmtime, hat⟩ := timeSet_shows (tuSetTime_set s neg)
  rw [setCtl_rd _ _ _ (by decide) (by decide)] at hcount
  exact ⟨htime, hcount, hmtime, hat⟩

theorem timeSet_adds (s : State) (neg : Bool) : ((timeSet (setCtl s true neg) true neg).tu.t : Int)
    = ((s.tu.t : Int) + if neg then -(tuSetValue s : Int) else (tuSetValue s : Int)) % (tuSpan : Int) := by
  rw [(timeSet_shows (tuSetTime_move s neg)).1, tuSetTime_add]

/-- Settles O47: the stamp by its error, the set by the step it makes. -/
theorem timeCaptureAndSet : Obligations.TimeCaptureAndSet := by
  unfold Obligations.TimeCaptureAndSet
  refine ⟨?capture, ?set, ?add⟩
  case capture =>
    intro s awake
    exact does_fromHost awake (f := fun s => .next (timeCapture s)) rfl ⟨_, rfl, timeCapture_latches s⟩
  case set =>
    intro v neg s awake hv
    rw [hv]
    exact does_fromHost awake (f := fun s => .next (timeSet (setCtl s false neg) false neg)) rfl ⟨_, rfl, timeSet_sets s neg⟩
  case add =>
    intro v neg s awake hv
    rw [hv]
    exact does_fromHost awake (f := fun s => .next (timeSet (setCtl s true neg) true neg)) rfl ⟨_, rfl, timeSet_adds s neg⟩

section
variable {s : State}

theorem sampleCommit_busy {kind : Bool} (hbusy : s.flag R.TU_STATUS.SMP_BUSY [] = true) :
    sampleCommit (s.wr R.TU_SMP_CTL.KIND [] (b2n kind)) kind = (s.wr R.TU_SMP_CTL.KIND [] (b2n kind)).inc R.TU_CNT.COUNT [1] := by
  unfold sampleCommit
  rw [State.flag_wr_apart _ _ (by decide), hbusy, if_pos rfl]

/-- R545: the state in which the engine takes a one-way sample. -/
def oneWay (s : State) : State := engineBusy (s.wr R.TU_SMP_CTL.KIND [] 1)

theorem oneWay_rd {f : Fld} {ix : List Nat} (s : State) (hkind : Fld.apart R.TU_SMP_CTL.KIND f [] ix)
    (hbusy : Fld.apart R.TU_STATUS.SMP_BUSY f [] ix) : (oneWay s).rd f ix = s.rd f ix := by
  unfold oneWay engineBusy
  rw [State.rd_wr_apart _ _ hbusy]
  exact State.rd_wr_apart _ _ hkind

theorem smpTime_oneWay : smpTime (oneWay s) 0 = smpTime s 0 ∧ smpTime (oneWay s) 1 = smpTime s 1 := by
  unfold smpTime
  constructor <;>
    rw [oneWay_rd _ (by decide) (by decide), oneWay_rd _ (by decide) (by decide), oneWay_rd _ (by decide) (by decide),
      oneWay_rd _ (by decide) (by decide)]

theorem sampleCommit_oneWay {d off : Int} {v : State} (hidle : s.flag R.TU_STATUS.SMP_BUSY [] = false)
    (hd : d = ((s.rd R.TU_SMP_DELAY.DELAY [] * 256 : Nat) : Int)) (hrange : d ≤ 16700000 * 65536)
    (hoff : off = smpTime s 1 - smpTime s 0 - d)
    (hv : v = ((oneWay s).wr R.TU_OUT_DLY.DELAY [] (d.toNat / 256)).inc R.TU_CNT.COUNT [0]) :
    sampleCommit (s.wr R.TU_SMP_CTL.KIND [] 1) true = if isMember v then
        v.wr R.TU_OUT_OFF.OFFSET [] (ofSigned 32 (satSigned 32 (asr off 8)))
      else if v.rd R.TU_SERVO.SRC [] = 0 then onOffset v off else v := by
  have hsample : sampleOf (oneWay s) true = (off, d, oneWay s) := by
    unfold sampleOf
    rw [if_pos rfl, oneWay_rd _ (by decide) (by decide), smpTime_oneWay.1, smpTime_oneWay.2, ← hd]
    dsimp only
    rw [← hoff]
  have htake : engineTake (oneWay s) off d = (v, true) := by
    unfold engineTake
    have hneg : ¬(decide (d < 0) || decide (d > 16700000 * 65536)) = true := by
      rw [Bool.or_eq_true, decide_eq_true_eq, decide_eq_true_eq]
      omega
    rw [if_neg hneg, ← hv]
  unfold sampleCommit
  rw [State.flag_wr_apart _ _ (by decide), hidle, if_neg (by decide), ← oneWay, hsample]
  unfold sampleTake
  dsimp only
  rw [htake]
  simp only [Bool.true_and, beq_iff_eq]

theorem tuShow_rd_apart {g : Fld} {ix : List Nat} (s : State) (happlied : Fld.apart R.TU_FREQ_APPLIED.FREQ_APPLIED g [] ix)
    (hinteg : Fld.apart R.TU_OUT_INT.INTEG g [] ix) : (tuShow s).rd g ix = s.rd g ix := by
  have steer (s : State) : (steerShow s).rd g ix = s.rd g ix :=
    foldl_rd (fun s o => by dsimp only; split <;> rfl) _ _
  unfold tuShow
  rw [steer, State.rd_wr_apart _ _ hinteg, State.rd_wr_apart _ _ happlied]

theorem servoHoldover_holds (hst : s.rd R.TU_STATUS.SERVO_STATE [] = svLocking ∨ s.rd R.TU_STATUS.SERVO_STATE [] = svLocked) :
    (servoHoldover s).tu = { s.tu with out := s.tu.integ }
      ∧ (servoHoldover s).rd R.TU_STATUS.SERVO_STATE [] = svHoldover
      ∧ (servoHoldover s).rd R.TU_CNT.COUNT [4] = (s.rd R.TU_CNT.COUNT [4] + 1) % 2 ^ R.TU_CNT.COUNT.width := by
  unfold servoHoldover
  dsimp only
  rw [if_pos (by simpa using hst), tuShow_tu, tuShow_rd_apart _ (by decide) (by decide), tuShow_rd_apart _ (by decide) (by decide)]
  refine ⟨rfl, ?_, ?_⟩
  · rw [State.rd_inc_apart _ (by decide), State.rd_wr_same]
    rfl
  · rw [State.rd_inc_same, State.rd_wr_apart _ _ (by decide)]
    rfl

theorem servoMode_starts {m : Nat} (hm : m = 1 ∨ m = 3) (hfree : s.rd R.TU_STATUS.SERVO_STATE [] = svFree) :
    (servoMode s m).rd R.TU_SERVO.MODE [] = m ∧ (servoMode s m).rd R.TU_STATUS.SERVO_STATE [] = svLocking
      ∧ (servoMode s m).tu = { s.tu with integ := tuFreq s, good := 0, offAt := s.now } := by
  have hlow : ¬m ≥ 4 := by omega
  have hmode : (m = 1 || m = 3) = true := by simpa using hm
  unfold servoMode
  rw [if_neg hlow, if_pos hmode]
  dsimp only
  rw [State.rd_wr_apart _ _ (by decide), if_pos hfree, tuShow_tu, tuShow_rd_apart _ (by decide) (by decide),
    tuShow_rd_apart _ (by decide) (by decide), State.rd_wr_same, State.rd_wr_apart _ _ (by decide)]
  refine ⟨?_, rfl, rfl⟩
  change (s.wr R.TU_SERVO.MODE [] m).rd R.TU_SERVO.MODE [] = m
  rw [State.rd_wr_same]
  exact Nat.mod_eq_of_lt (by change m < 8; omega)

theorem servoMode_frees {m : Nat} (hm : m = 0 ∨ m = 2) :
    (servoMode s m).rd R.TU_SERVO.MODE [] = m ∧ (servoMode s m).rd R.TU_STATUS.SERVO_STATE [] = svFree
      ∧ (servoMode s m).tu = { s.tu with out := 0 } := by
  have hlow : ¬m ≥ 4 := by omega
  have hmode : ¬(m = 1 || m = 3) = true := by
    rw [Bool.or_eq_true, decide_eq_true_eq, decide_eq_true_eq]
    omega
  unfold servoMode
  rw [if_neg hlow, if_neg hmode, tuShow_tu, tuShow_rd_apart _ (by decide) (by decide), tuShow_rd_apart _ (by decide) (by decide)]
  refine ⟨?_, State.rd_wr_same _ _ _ svFree, rfl⟩
  change ((s.wr R.TU_SERVO.MODE [] m).wr R.TU_STATUS.SERVO_STATE [] svFree).rd R.TU_SERVO.MODE [] = m
  rw [State.rd_wr_apart _ _ (by decide), State.rd_wr_same]
  exact Nat.mod_eq_of_lt (by change m < 8; omega)

/-- R546: an offset shown, the time of it kept. -/
def offsetShown (s : State) (off : Int) : State :=
  ({ s with tu := { s.tu with offAt := s.now } }).wr R.TU_OUT_OFF.OFFSET [] (ofSigned 32 (satSigned 32 (asr off 8)))

theorem offsetShown_rd {f : Fld} {ix : List Nat} (off : Int) (hoff : Fld.apart R.TU_OUT_OFF.OFFSET f [] ix) :
    (offsetShown s off).rd f ix = s.rd f ix := State.rd_wr_apart _ _ hoff

theorem maxFreq_offsetShown (off : Int) : maxFreq (offsetShown s off) = maxFreq s := by
  unfold maxFreq
  rw [offsetShown_rd _ (by decide)]

/-- R547: the time that a step by `off` leads to. -/
def steppedTime (s : State) (off : Int) : Nat := (((s.tu.t : Int) - off * 65536) % (tuSpan : Int)).toNat

/-- R547: TU time stepped, or the step counted as dropped where time was set just now. -/
def timeStepped (s : State) (off : Int) : State :=
  if s.tu.setAt == some s.now then s.inc R.TU_CNT.COUNT [3] else (tuStep s (steppedTime s off)).inc R.TU_CNT.COUNT [2]

/-- R547: locking begins anew. -/
def relocked (s : State) : State := ({ s with tu := { s.tu with good := 0 } }).wr R.TU_STATUS.SERVO_STATE [] svLocking

/-- R546: the number of offsets in a row within the lock threshold, and the state of the servo that follows from it. -/
def goodNext (s : State) (off : Int) : Nat := if off.natAbs ≤ s.rd R.TU_SERVO_LIM.LOCK_THRESH [] * 65536 then s.tu.good + 1 else 0
def servoNext (s : State) (off : Int) : Nat :=
  let st := s.rd R.TU_STATUS.SERVO_STATE []
  let st := if st ≠ svLocked && goodNext s off ≥ max 1 (s.rd R.TU_SERVO.LOCK_COUNT []) then svLocked else st
  if st = svHoldover then svLocking else st

/-- R546: the integrator and the output that follow an offset. -/
def integNext (s : State) (off : Int) : Int := clampInt (s.tu.integ - asr off (s.rd R.TU_SERVO.KI_SHIFT [])) (maxFreq s)
def outNext (s : State) (off : Int) : Int := clampInt (integNext s off - asr off (s.rd R.TU_SERVO.KP_SHIFT [])) (maxFreq s)
def servoMoved (s : State) (off : Int) : State :=
  ({ s with tu := { s.tu with integ := integNext s off, out := outNext s off, good := goodNext s off } }).wr
    R.TU_STATUS.SERVO_STATE [] (servoNext s off)

theorem onOffset_eq (s : State) (off : Int) : onOffset s off =
    if s.rd R.TU_SERVO.MODE [] == 0 || s.rd R.TU_SERVO.MODE [] == 2 then s
    else if off.natAbs > (offsetShown s off).rd R.TU_STEP_THRESH.STEP_THRESH [] * 65536
        && (offsetShown s off).flag R.TU_SERVO.STEP_EN [] then relocked (timeStepped (offsetShown s off) off)
    else tuShow (servoMoved (offsetShown s off) off) := rfl

theorem onOffset_idle {off : Int} (hmode : s.rd R.TU_SERVO.MODE [] = 0 ∨ s.rd R.TU_SERVO.MODE [] = 2) : onOffset s off = s := by
  rw [onOffset_eq]
  exact if_pos (by simpa using hmode)

section
variable {off : Int} (hmode : s.rd R.TU_SERVO.MODE [] = 1 ∨ s.rd R.TU_SERVO.MODE [] = 3)
include hmode

theorem following : ¬(s.rd R.TU_SERVO.MODE [] == 0 || s.rd R.TU_SERVO.MODE [] == 2) = true := by
  simp only [Bool.or_eq_true, beq_iff_eq]
  omega

theorem onOffset_steps (hbig : s.rd R.TU_STEP_THRESH.STEP_THRESH [] * 65536 < off.natAbs)
    (hen : s.flag R.TU_SERVO.STEP_EN [] = true) : onOffset s off = relocked (timeStepped (offsetShown s off) off) := by
  rw [onOffset_eq, if_neg (following hmode), offsetShown_rd _ (by decide), State.flag_of_rd (offsetShown_rd (s := s) off (by decide)),
    hen, decide_eq_true hbig]
  rfl

theorem onOffset_moves (hsmall : off.natAbs ≤ s.rd R.TU_STEP_THRESH.STEP_THRESH [] * 65536 ∨ s.flag R.TU_SERVO.STEP_EN [] = false) :
    onOffset s off = tuShow (servoMoved (offsetShown s off) off) := by
  have hstays : ¬(decide (off.natAbs > s.rd R.TU_STEP_THRESH.STEP_THRESH [] * 65536) && s.flag R.TU_SERVO.STEP_EN []) = true := by
    rw [Bool.and_eq_true, decide_eq_true_eq]
    rintro ⟨hbig, hen⟩
    obtain hsmall | hoff := hsmall
    · exact Nat.not_lt.mpr hsmall hbig
    · exact absurd (hoff.symm.trans hen) (by decide)
  rw [onOffset_eq, if_neg (following hmode), offsetShown_rd _ (by decide), State.flag_of_rd (offsetShown_rd (s := s) off (by decide)),
    if_neg hstays]

end

theorem timeStepped_t {off : Int} (hset : s.tu.setAt ≠ some s.now) :
    (timeStepped s off).tu.t = (((s.tu.t : Int) - off * 65536) % (tuSpan : Int)).toNat := by
  have hfresh : ¬(s.tu.setAt == some s.now) = true := by simpa using hset
  have hspan : (0 : Int) < (tuSpan : Int) := by decide
  have hlt : steppedTime s off < tuSpan := by
    have hmod := Int.emod_lt_of_pos ((s.tu.t : Int) - off * 65536) hspan
    have hpos := Int.emod_nonneg ((s.tu.t : Int) - off * 65536) (Int.ne_of_gt hspan)
    unfold steppedTime
    omega
  unfold timeStepped
  rw [if_neg hfresh]
  exact ((tuStep_shows s _).1).trans (Nat.mod_eq_of_lt hlt)

theorem servoMoved_tu (off : Int) : (tuShow (servoMoved s off)).tu.integ = integNext s off
    ∧ (tuShow (servoMoved s off)).tu.out = outNext s off ∧ (tuShow (servoMoved s off)).tu.t = s.tu.t := by
  rw [tuShow_tu]
  exact ⟨rfl, rfl, rfl⟩

theorem integNext_offsetShown (off : Int) : integNext (offsetShown s off) off
    = clampInt (s.tu.integ - asr off (s.rd R.TU_SERVO.KI_SHIFT [])) (maxFreq s) := by
  unfold integNext
  rw [maxFreq_offsetShown, offsetShown_rd _ (by decide)]
  rfl

theorem outNext_offsetShown (off : Int) : outNext (offsetShown s off) off
    = clampInt (integNext (offsetShown s off) off - asr off (s.rd R.TU_SERVO.KP_SHIFT [])) (maxFreq s) := by
  unfold outNext
  rw [maxFreq_offsetShown, offsetShown_rd _ (by decide)]

end

/-- Settles O48: a sample by what the engine takes, an offset by the branch of the servo that its size selects. -/
theorem servoOfTheTimeUnit : Obligations.ServoOfTheTimeUnit := by
  unfold Obligations.ServoOfTheTimeUnit
  refine ⟨?busy, ?oneWay, ?timeout, ?starts, ?frees, ?reserved, ?offset⟩
  case busy =>
    intro kind s u awake hu hbusy
    rw [hu]
    exact does_fromHost awake (f := fun s => .next (sampleCommit (s.wr R.TU_SMP_CTL.KIND [] (b2n kind)) kind)) rfl
      ⟨_, rfl, sampleCommit_busy hbusy⟩
  case oneWay =>
    intro d off s u v awake hu hidle ⟨hd, hrange⟩ hoff hv
    rw [hu] at hv ⊢
    exact does_fromHost awake (f := fun s => .next (sampleCommit (s.wr R.TU_SMP_CTL.KIND [] (b2n true)) true)) rfl
      ⟨_, rfl, sampleCommit_oneWay hidle hd hrange hoff hv, State.flag_wr_same _ _ _ _, rfl⟩
  case timeout =>
    intro s u awake hst hu hkept
    have hdue : (s.rd R.TU_STATUS.SERVO_STATE [] = svLocking || s.rd R.TU_STATUS.SERVO_STATE [] = svLocked) = true := by simpa using hst
    have e : exec .servoHoldTimeout s = execServoHoldTimeout s := rfl
    unfold execServoHoldTimeout at e
    refine does_whenOn awake e ⟨_, rfl, ?_⟩
    rw [if_pos hdue, ← hu]
    exact servoHoldover_holds (by rwa [hkept])
  case starts =>
    intro m s awake hm hfree
    exact does_fromHost awake (f := fun s => .next (servoMode s m.val)) rfl ⟨_, rfl, servoMode_starts hm hfree⟩
  case frees =>
    intro m s awake hm
    exact does_fromHost awake (f := fun s => .next (servoMode s m.val)) rfl ⟨_, rfl, servoMode_frees hm⟩
  case reserved =>
    intro m s awake hm
    exact does_fromHost awake (f := fun s => .next (servoMode s m.val)) rfl ⟨_, rfl, if_pos hm⟩
  case offset =>
    intro s off
    refine ⟨onOffset_idle, fun hmode => ⟨?_, ?_⟩⟩
    · rintro ⟨hbig, hen, hset⟩
      rw [onOffset_steps hmode hbig hen]
      exact ⟨timeStepped_t (s := offsetShown s off) hset, State.rd_wr_same _ _ _ _, rfl⟩
    · intro hsmall
      rw [onOffset_moves hmode hsmall]
      obtain ⟨hinteg, hout, ht⟩ := servoMoved_tu (s := offsetShown s off) off
      rw [hinteg, hout, ht, integNext_offsetShown, outNext_offsetShown, integNext_offsetShown]
      exact ⟨rfl, rfl, rfl⟩

end Sys2Proof.Machine
end

section
/-! Resets of the chip and of single blocks (O15): what a reset shows of its kind and source, and what it leaves of the parts it
clears. -/

namespace Sys2Proof.Machine

open Sys2Proof

/-- R569, R580: the kind and the source of a reset shown, and that everything was lost. -/
def resetShown (s : State) (kind src : Nat) : State :=
  ((setLost s kind).wr R.PWR_RST_CAUSE.KIND [] kind).wr R.PWR_RST_CAUSE.SOURCE [] src

theorem resetShown_shows (s : State) {kind src : Nat} (hkind : kind < 4) (hsrc : src < 16) :
    (resetShown s kind src).rd R.PWR_RST_CAUSE.KIND [] = kind ∧ (resetShown s kind src).rd R.PWR_RST_CAUSE.SOURCE [] = src
      ∧ (resetShown s kind src).flag R.PWR_STATUS.LOST [] = true
      ∧ (resetShown s kind src).rd R.PWR_STATUS.LOST_CAUSE [] = kind := by
  unfold resetShown setLost
  refine ⟨?_, ?_, ?_, ?_⟩
  · rw [State.rd_wr_apart _ _ (by decide), State.rd_wr_same]
    exact Nat.mod_eq_of_lt hkind
  · rw [State.rd_wr_same]
    exact Nat.mod_eq_of_lt hsrc
  · rw [State.flag_wr_apart _ _ (by decide), State.flag_wr_apart _ _ (by decide), State.flag_wr_apart _ _ (by decide),
      State.flag_wr_same]
    rfl
  · rw [State.rd_wr_apart _ _ (by decide), State.rd_wr_apart _ _ (by decide), State.rd_wr_same]
    exact Nat.mod_eq_of_lt (Nat.lt_trans hkind (by decide))

theorem pwrCount_rd_apart (s : State) (n : Nat) {f : Fld} {ix : List Nat} (h : Fld.apart R.PWR_CNT.COUNT f [n] ix) :
    (pwrCount s n).rd f ix = s.rd f ix := State.rd_inc_apart _ h

theorem pwrCount_flag_apart (s : State) (n : Nat) {f : Fld} {ix : List Nat} (h : Fld.apart R.PWR_CNT.COUNT f [n] ix) :
    (pwrCount s n).flag f ix = s.flag f ix := State.flag_inc_apart _ h

/-- R576: what a POR and a COLD leave of the power state: the levels of the straps. -/
def strapsKept (p : Pwr) : Pwr := { Pwr.reset with ownerSel := p.ownerSel, hostSplit := p.hostSplit, stackId := p.stackId }

/-- R576: the state a POR (`por`) or a COLD clears, before anything is released. -/
def coldCleared (s : State) (por : Bool) : State :=
  let c := clearBlocks (applyClears s)
  { c with
    regs := if por then c.regs.por else c.regs.cold, hif := Hif.reset, hbm := [], fil := { c.fil with poison := [] },
    rev := { Rev.reset with sparesPc := c.rev.sparesPc, logSeq := c.rev.logSeq, records := c.rev.records,
                            bellSeq := c.rev.bellSeq, ackSeq := c.rev.ackSeq, hbAt := c.now, upAt := c.now },
    pwr := strapsKept c.pwr,
    trust := { Trust.reset with prefR := c.trust.prefR, prefF := c.trust.prefF, limit := c.trust.limit,
                                boots := c.trust.boots + 1, firstR := c.trust.prefR, firstF := c.trust.prefF } }

/-- R576: the cleared state with the Bellman's outputs let go, the straps latched, the clocks started, the blocks released
and the Bellman's last cause read. -/
def coldReleased (s : State) (bellman : Bool) : State :=
  let s := s.wr R.DBG_LMS.NEXT [] s.trust.limit
  let s := if bellman then (s.emit (.pinZ .faultN)).emit (.pinZ .boardRstReqN) else s
  let osc := ((latchStraps s).wr R.CLK_STATUS.REFCLK_OK [] 1).freeBits 24
  readCause (afterClear (release (osc.2.wr R.CLK_OSC.OSC_KHZ [] (142500 + osc.1 % 15001))))

theorem coldReset_eq (s : State) (por : Bool) (kind src : Nat) : coldReset s por kind src =
    let u := resetShown (coldReleased (coldCleared s por) (clearBlocks (applyClears s)).rev.inControl.isSome) kind src
    if kind = 2 then pwrCount u 7 else u := rfl

theorem coldReleased_keeps (s : State) (bellman : Bool) :
    Keeps [.regs, .hif, .fil, .eth, .win, .grn, .tly, .hsk, .stg, .out, .rev, .free] s (coldReleased s bellman) := by
  have head := May.head
  have tail := May.tail
  have start : Keeps [.regs, .hif, .fil, .eth, .win, .grn, .tly, .hsk, .stg, .out, .rev, .free] s s := .refl s
  unfold coldReleased
  exact readCause_keeps (afterClear_keeps (release_keeps (State.wr_keeps (State.freeBits_keeps (State.wr_keeps
    (latchStraps_keeps (keeps_ite (State.emit_keeps (State.emit_keeps (State.wr_keeps start)))
      (State.wr_keeps start))))))))

/-- R576: a POR or a COLD empties HBM, keeps the levels of the straps, begins a boot and ends by showing what it was. -/
theorem coldReset_ends (s : State) (por : Bool) (kind src : Nat) : ∃ u : State, u.hbm = [] ∧ u.pwr = strapsKept s.pwr
    ∧ coldReset s por kind src = if kind = 2 then pwrCount (resetShown u kind src) 7 else resetShown u kind src := by
  have head := May.head
  have tail := May.tail
  have clears : Keeps [.regs, .rev] s (applyClears s) := applyClears_keeps (.refl s)
  have hpwr : (applyClears s).pwr = s.pwr := clears.frame .pwr (by decide)
  have keep := coldReleased_keeps (coldCleared s por) (clearBlocks (applyClears s)).rev.inControl.isSome
  refine ⟨coldReleased (coldCleared s por) (clearBlocks (applyClears s)).rev.inControl.isSome,
    keep.frame .hbm (by decide), ?_, coldReset_eq s por kind src⟩
  calc _ = (coldCleared s por).pwr := keep.frame .pwr (by decide)
    _ = strapsKept (applyClears s).pwr := rfl
    _ = strapsKept s.pwr := by rw [hpwr]

/-- R576: a POR. -/
theorem coldReset_por (s : State) (por : Bool) {src : Nat} (hsrc : src < 16) :
    (coldReset s por 1 src).rd R.PWR_RST_CAUSE.KIND [] = 1 ∧ (coldReset s por 1 src).rd R.PWR_RST_CAUSE.SOURCE [] = src
      ∧ (coldReset s por 1 src).flag R.PWR_STATUS.LOST [] = true ∧ (coldReset s por 1 src).rd R.PWR_STATUS.LOST_CAUSE [] = 1
      ∧ (coldReset s por 1 src).hbm = [] ∧ (coldReset s por 1 src).pwr = strapsKept s.pwr := by
  obtain ⟨u, hhbm, hpwr, e⟩ := coldReset_ends s por 1 src
  obtain ⟨hkind, hsource, hlost, hcause⟩ := resetShown_shows u (kind := 1) (by decide) hsrc
  rw [e, if_neg (by decide)]
  exact ⟨hkind, hsource, hlost, hcause, hhbm, hpwr⟩

/-- R576: a COLD. -/
theorem coldReset_cold (s : State) (por : Bool) {src : Nat} (hsrc : src < 16) :
    (coldReset s por 2 src).rd R.PWR_RST_CAUSE.KIND [] = 2 ∧ (coldReset s por 2 src).rd R.PWR_RST_CAUSE.SOURCE [] = src
      ∧ (coldReset s por 2 src).flag R.PWR_STATUS.LOST [] = true ∧ (coldReset s por 2 src).rd R.PWR_STATUS.LOST_CAUSE [] = 2
      ∧ (coldReset s por 2 src).hbm = [] := by
  obtain ⟨u, hhbm, -, e⟩ := coldReset_ends s por 2 src
  obtain ⟨hkind, hsource, hlost, hcause⟩ := resetShown_shows u (kind := 2) (by decide) hsrc
  rw [e, if_pos rfl]
  refine ⟨?_, ?_, ?_, ?_, hhbm⟩
  · rw [pwrCount_rd_apart _ _ (by decide), hkind]
  · rw [pwrCount_rd_apart _ _ (by decide), hsource]
  · rw [pwrCount_flag_apart _ _ (by decide), hlost]
  · rw [pwrCount_rd_apart _ _ (by decide), hcause]

theorem rstSource_lt (m : MDom) : rstSource m < 16 := by cases m <;> decide

/-- R574: what a WARM shows at its end. -/
def warmShown (s : State) (src : Nat) : State :=
  let s := ((setLost s 3).wr R.PWR_STATUS.STATE [] psActive).wr R.PWR_STATUS.BUSY [] 0
  pwrCount ((s.wr R.PWR_RST_CAUSE.KIND [] 3).wr R.PWR_RST_CAUSE.SOURCE [] src) 6

theorem warmReset_eq (s : State) (src : Nat) :
    warmReset s src = warmShown (release (afterClear (clearBlocks s))) src := rfl

theorem warmShown_hbm (s : State) (src : Nat) : (warmShown s src).hbm = s.hbm := rfl
theorem warmShown_dom (s : State) (src : Nat) : (warmShown s src).dom = s.dom := rfl

theorem warmShown_shows (s : State) {src : Nat} (hsrc : src < 16) :
    pwrSt (warmShown s src) = psActive
      ∧ (warmShown s src).rd R.PWR_RST_CAUSE.KIND [] = 3 ∧ (warmShown s src).rd R.PWR_RST_CAUSE.SOURCE [] = src
      ∧ (warmShown s src).flag R.PWR_STATUS.LOST [] = true ∧ (warmShown s src).rd R.PWR_STATUS.LOST_CAUSE [] = 3 := by
  unfold warmShown pwrSt setLost
  refine ⟨?_, ?_, ?_, ?_, ?_⟩
  · rw [pwrCount_rd_apart _ _ (by decide), State.rd_wr_apart _ _ (by decide), State.rd_wr_apart _ _ (by decide),
      State.rd_wr_apart _ _ (by decide), State.rd_wr_same]
    rfl
  · rw [pwrCount_rd_apart _ _ (by decide), State.rd_wr_apart _ _ (by decide), State.rd_wr_same]
    rfl
  · rw [pwrCount_rd_apart _ _ (by decide), State.rd_wr_same]
    exact Nat.mod_eq_of_lt hsrc
  · rw [pwrCount_flag_apart _ _ (by decide)]
    iterate 5 rw [State.flag_wr_apart _ _ (by decide)]
    rw [State.flag_wr_same]
    rfl
  · rw [pwrCount_rd_apart _ _ (by decide)]
    iterate 4 rw [State.rd_wr_apart _ _ (by decide)]
    rw [State.rd_wr_same]
    rfl

/-- R574: a WARM keeps HBM and forgets the domains. -/
theorem released_keeps (s : State) :
    (release (afterClear (clearBlocks s))).hbm = s.hbm ∧ (release (afterClear (clearBlocks s))).dom = Dom.reset := by
  have head := May.head
  have tail := May.tail
  have keep : Keeps [.regs, .hif, .fil, .eth, .win, .grn, .tly, .hsk, .stg, .out] (clearBlocks s)
      (release (afterClear (clearBlocks s))) := release_keeps (afterClear_keeps (.refl _))
  have hhbm : (release (afterClear (clearBlocks s))).hbm = (clearBlocks s).hbm := keep.frame .hbm (by decide)
  have hdom : (release (afterClear (clearBlocks s))).dom = (clearBlocks s).dom := keep.frame .dom (by decide)
  exact ⟨hhbm.trans rfl, hdom.trans rfl⟩

theorem warmReset_shows (s : State) {src : Nat} (hsrc : src < 16) :
    pwrSt (warmReset s src) = psActive
      ∧ (warmReset s src).rd R.PWR_RST_CAUSE.KIND [] = 3 ∧ (warmReset s src).rd R.PWR_RST_CAUSE.SOURCE [] = src
      ∧ (warmReset s src).flag R.PWR_STATUS.LOST [] = true ∧ (warmReset s src).rd R.PWR_STATUS.LOST_CAUSE [] = 3
      ∧ (warmReset s src).hbm = s.hbm ∧ (warmReset s src).dom = Dom.reset := by
  obtain ⟨hst, hkind, hsource, hlost, hcause⟩ := warmShown_shows (release (afterClear (clearBlocks s))) hsrc
  obtain ⟨hhbm, hdom⟩ := released_keeps s
  rw [warmReset_eq, warmShown_hbm, warmShown_dom]
  exact ⟨hst, hkind, hsource, hlost, hcause, hhbm, hdom⟩

/-- R636, R659: what a loss of the supply leaves of the state `t` a POR would end in. -/
def supplyLost (s t : State) : State :=
  { t with regs := s.regs.por, pwr := { t.pwr with dark := true }, trust := { t.trust with boots := s.trust.boots } }

theorem loseSupply_eq (s : State) : loseSupply s = supplyLost s (coldReset s true 1 4) := rfl

theorem supplyLost_shows (s : State) {t : State} (hhbm : t.hbm = []) : (supplyLost s t).pwr.dark = true
    ∧ (supplyLost s t).hbm = [] ∧ (supplyLost s t).regs = s.regs.por ∧ (supplyLost s t).trust.boots = s.trust.boots
    ∧ asleep (supplyLost s t) = true := by
  refine ⟨rfl, hhbm, rfl, rfl, ?_⟩
  simp [asleep, supplyLost]

/-- R573: a BLOCK reset is carried out for a unit that is there and whose domain is powered. -/
theorem blkRst_refuses_not {s : State} {kind u : Nat} (hunit : u < blkUnits kind)
    (hon : domOn s (blkDomain kind u) = true) : ¬ (blkUnits kind ≤ u || !domOn s (blkDomain kind u)) = true := by
  simp [hon, hunit]

theorem clearPipe_clears (s : State) (p : Nat) : SMap.get [] (clearPipe s p).win.wait p = []
    ∧ (clearPipe s p).win.dropped = s.win.dropped + (SMap.get [] s.win.wait p).length := by
  refine ⟨?_, rfl⟩
  change SMap.get [] (SMap.del s.win.wait p) p = []
  unfold SMap.get
  rw [SMap.find_del_same]
  rfl

/-- A BLOCK reset by domain `m` of a unit that is there and on: `op` is what its kind does after the count. -/
theorem does_blkWrite {c : Instr} {s : State} {m : MDom} {kind : Nat} {u : Fin 64} {op : State → State} {p : State → Prop}
    (awake : Awake s) (allowed : Allowed s m) (e : exec c s = blkWrite s m kind u) (hunit : u.val < blkUnits kind)
    (hon : domOn s (blkDomain kind u.val) = true)
    (hop : (if blkUnits kind ≤ u.val || !domOn s (blkDomain kind u.val) then pwrCount s 10 else op (pwrCount s 8))
      = blkRst s kind u.val) (hp : p (op (pwrCount s 8))) : Does c s p := by
  rw [if_neg (blkRst_refuses_not hunit hon)] at hop
  exact does_fromDomain awake allowed (f := fun s => .next (blkRst s kind u.val)) e ⟨_, rfl, hop ▸ hp⟩

/-- R570: the words written by RST_WARM and RST_COLD with the key. -/
theorem rstWrite_warm (s : State) (m : MDom) : rstWrite s m (1 + 2 ^ 16 * 0xA5C3) = warmReset s (rstSource m) := by
  unfold rstWrite
  rw [if_neg (by decide), if_neg (by decide), if_pos (by decide)]

theorem rstWrite_cold (s : State) (m : MDom) : rstWrite s m (2 + 2 ^ 16 * 0xA5C3) = coldReset s false 2 (rstSource m) := by
  unfold rstWrite
  rw [if_neg (by decide), if_neg (by decide), if_neg (by decide)]

/-- Settles O15: the power-on pin, the system pin and the keyed writes through `coldReset_por`, `coldReset_cold` and
`warmReset_shows`; each BLOCK reset through `blkRst`'s own branch for its kind. -/
theorem resets : Obligations.Resets := by
  unfold Obligations.Resets
  refine ⟨?pwronRstN, ?sysRstN, ?rstWarm, ?rstCold, ?powerLoss, ?octet, ?pipeline, ?cluster, ?core, ?rootPort, ?matcher⟩
  case pwronRstN =>
    intro ramp ow sp id s
    have hsrc : (if ramp then 4 else 0) < 16 := by split <;> decide
    obtain ⟨hkind, hsource, hlost, hcause, hhbm, hpwr⟩ :=
      coldReset_por (putPwr s { s.pwr with ownerSel := ow.val, hostSplit := sp.val, stackId := id.val }) true hsrc
    refine ⟨_, rfl, hkind, hsource, hlost, hcause, hhbm, ?_, ?_, ?_⟩ <;> (rw [hpwr]; rfl)
  case sysRstN =>
    intro s lit
    have e : exec .sysRstN s = .next (coldReset s false 2 0) := by
      change Host.Outcome.next (if s.pwr.dark then s else coldReset s false 2 0) = _
      rw [lit, if_neg (by decide)]
    exact ⟨_, e, coldReset_cold s false (by decide)⟩
  case rstWarm =>
    intro m s awake allowed
    exact does_fromDomain awake allowed (f := fun s => .next (rstWrite s m (1 + 2 ^ 16 * 0xA5C3))) rfl
      ⟨_, rfl, rstWrite_warm s m ▸ warmReset_shows s (rstSource_lt m)⟩
  case rstCold =>
    intro m s awake allowed
    exact does_fromDomain awake allowed (f := fun s => .next (rstWrite s m (2 + 2 ^ 16 * 0xA5C3))) rfl
      ⟨_, rfl, rstWrite_cold s m ▸ coldReset_cold s false (rstSource_lt m)⟩
  case powerLoss =>
    intro s
    obtain ⟨-, -, -, -, hhbm, -⟩ := coldReset_por s true (src := 4) (by decide)
    have e : exec .powerLoss s = .next (supplyLost s (coldReset s true 1 4)) := congrArg Host.Outcome.next (loseSupply_eq s)
    exact ⟨_, e, supplyLost_shows s hhbm⟩
  case octet =>
    intro m u s awake allowed hunit hon
    exact does_blkWrite awake allowed (op := fun s => blkOctet s u.val) rfl hunit hon rfl rfl
  case pipeline =>
    intro m u s awake allowed hunit hon
    obtain ⟨hwait, hdropped⟩ := clearPipe_clears (pwrCount s 8) u.val
    exact does_blkWrite awake allowed (op := fun s => clearPipe s u.val) rfl hunit hon rfl ⟨hwait, hdropped, rfl⟩
  case cluster =>
    intro m u s awake allowed hunit hon
    exact does_blkWrite awake allowed (op := fun s => blkCluster s u.val) rfl hunit hon rfl rfl
  case core =>
    intro m u s awake allowed hon
    exact does_blkWrite awake allowed (op := fun s => (List.range 8).foldl (fun s k => hartReset s (8 * u.val + k)) s) rfl
      u.isLt hon rfl rfl
  case rootPort =>
    intro m u s awake allowed hunit hon hpresent hmanual
    refine does_blkWrite awake allowed (op := fun s => if rpSt s u.val = rsRetired then s else
      if (rpOff s u.val).flag R.STG_RP_CTL.AUTO_ON [u.val] then rpPowerOn (rpOff s u.val) u.val else rpOff s u.val)
      rfl hunit hon rfl ?_
    exact (if_neg hpresent).trans (if_neg (ne_true_of_eq_false hmanual))
  case matcher =>
    intro m u s awake allowed hunit hon
    exact does_blkWrite awake allowed (op := fun s => loseDomain s (152 + u.val)) rfl hunit hon rfl rfl

end Sys2Proof.Machine
end

section
/-! The management endpoint's messages: MCTP control and PLDM (O53), and the vendor messages (O54). -/

namespace Sys2Proof.Machine

open Sys2Proof

/-- R613: a request to the Reeve's firmware, where that firmware runs. -/
theorem does_byFirmware {c : Instr} {s : State} {f : State → Ans} {p : State → Prop} (runs : reeveRuns s = true)
    (e : exec c s = byFirmware s f) (q : ∃ t, f s = .next t ∧ p t) : Does c s p := by
  unfold Does
  rw [e, byFirmware, if_pos runs]
  exact q

/-! ### MCTP control -/

theorem setEid_sets (s : State) (inst : BitVec 5) {op eid : Nat} (hop : op < 2) (hnull : eid ≠ 0) (hall : eid ≠ 0xFF) :
    setEid s inst op eid = ctlRsp { s with rev := { s.rev with eid := eid } } inst 0x01 [0x00, 0x00, byteOf eid, 0x00] := by
  have takes : ¬ (op % 4 ≥ 2 || eid = 0 || eid = 0xFF) = true := by
    simp only [hnull, hall, decide_false, Bool.or_false, decide_eq_true_eq]
    omega
  exact if_neg takes

theorem setEid_refuses (s : State) (inst : BitVec 5) {op eid : Nat} (hfour : op < 4) (h : 2 ≤ op ∨ eid = 0 ∨ eid = 0xFF) :
    setEid s inst op eid = ctlRsp s inst 0x01 [0x02] := by
  have hmod : op % 4 = op := Nat.mod_eq_of_lt hfour
  unfold setEid
  rw [if_pos]
  simpa [hmod, or_assoc] using h

theorem getMctpVersion_of_known (s : State) (inst : BitVec 5) {ty : BitVec 8} (h : ty = 0xFF ∨ ty = 0 ∨ ty ∈ msgTypes) :
    getMctpVersion s inst ty = ctlRsp s inst 0x04 [0x00, 1, 0xF1, 0xF3, 0xF1, 0x00] := by
  unfold getMctpVersion
  rw [if_pos]
  simpa [or_assoc] using h

theorem getMctpVersion_of_unknown (s : State) (inst : BitVec 5) {ty : BitVec 8}
    (h : ty ≠ 0xFF ∧ ty ≠ 0 ∧ ty ∉ msgTypes) : getMctpVersion s inst ty = ctlRsp s inst 0x04 [0x80] := by
  obtain ⟨hbase, hcontrol, hnone⟩ := h
  unfold getMctpVersion
  rw [if_neg]
  simpa [hnone] using ⟨hbase, hcontrol⟩

/-! ### PLDM -/

/-- The version of the base (type 0) and of platform monitoring (type 2). -/
def pldmVersionOf (ty : Nat) : Bytes := if ty = 0 then [0xF1, 0xF1, 0xF0, 0x00] else [0xF1, 0xF2, 0xF0, 0x00]

theorem getPldmVersion_of_known (s : State) (inst : BitVec 5) {ty : Nat} (h : ty = 0 ∨ ty = 2) :
    getPldmVersion s inst 1 ty = pldmRsp s inst 0 0x03
      ([0x00, 0, 0, 0, 0, 0x05] ++ pldmVersionOf ty ++ leBytes 4 (crc32 (pldmVersionOf ty))) := by
  have hty : ¬ ((ty ≠ 0 && ty ≠ 2) = true) := by simpa using Decidable.or_iff_not_imp_left.mp h
  unfold getPldmVersion
  rw [if_neg (not_not_intro rfl), if_neg hty]
  rfl

theorem getPldmVersion_of_part (s : State) (inst : BitVec 5) {flag : Nat} (ty : Nat) (h : flag ≠ 1) :
    getPldmVersion s inst flag ty = pldmRsp s inst 0 0x03 [0x81] := if_pos h

theorem getPldmCommands_of_known (s : State) (inst : BitVec 5) {ty : Nat} (h : ty = 0 ∨ ty = 2) :
    getPldmCommands s inst ty = pldmRsp s inst 0 0x05 (0x00 :: leBytes 32 (pldmCmds ty)) := by
  refine if_neg ?_
  simpa using Decidable.or_iff_not_imp_left.mp h

/-- GetPDR from the start of record `id`, into a buffer that holds it whole. -/
theorem getPdr_whole (s : State) (inst : BitVec 5) {handle part count id : Nat} (hid : id = if handle = 0 then 1 else handle)
    (hin : id ≤ pdrCount) (hroom : (pdrRecord id).length ≤ count) :
    getPdr s inst handle part 1 count = pldmRsp s inst 2 0x51 (0x00 :: leBytes 4 (if id = pdrCount then 0 else id + 1)
      ++ leBytes 4 0 ++ [5] ++ leBytes 2 (pdrRecord id).length ++ pdrRecord id) := by
  have whole : (pdrRecord id).take count = pdrRecord id := List.take_of_length_le hroom
  unfold getPdr
  rw [← hid, if_neg (Nat.not_lt.mpr hin), if_neg (by decide)]
  simp [whole]

theorem getPdr_absent (s : State) (inst : BitVec 5) {handle : Nat} (part flag count : Nat) (h : pdrCount < handle) :
    getPdr s inst handle part flag count = pldmRsp s inst 2 0x51 [0x82] := by
  have hid : (if handle = 0 then 1 else handle) = handle := if_neg (by omega)
  unfold getPdr
  rw [hid]
  exact if_pos h

theorem getReading_temp (s : State) (inst : BitVec 5) {id : Nat} (hlow : 1 ≤ id) (hhigh : id ≤ 64) :
    getReading s inst id = pldmRsp s inst 2 0x11
      ([0x00, 3, 0, 0, 1, 1, 1] ++ leBytes 2 (s.rd R.REV_TEMP.FILT [id - 1])) := by
  have numeric : isNumeric id = true := by
    simp only [isNumeric, Bool.and_eq_true, decide_eq_true_eq]
    unfold pdrPower
    omega
  have volt : ¬ (pdrVolt 0 ≤ id && id < pdrPower) = true := by
    simp only [Bool.and_eq_true, decide_eq_true_eq]
    unfold pdrVolt
    omega
  have state : sensorState s id = 1 := if_neg volt
  have power : id ≠ pdrPower := by unfold pdrPower; omega
  simp [getReading, numeric, state, power, hhigh, Nat.le_trans hhigh (by decide : 64 ≤ 65), byteOf]

theorem getReading_volt (s : State) (inst : BitVec 5) {m : Nat} (hm : m < 48) :
    getReading s inst (66 + m) = pldmRsp s inst 2 0x11
      ([0x00, 2, 0, 0, byteOf (sensorState s (66 + m)), byteOf (sensorState s (66 + m)), byteOf (sensorState s (66 + m))]
        ++ leBytes 2 (s.rd R.REV_VOLT.FILT [m])) := by
  have numeric : isNumeric (66 + m) = true := by
    simp only [isNumeric, Bool.and_eq_true, decide_eq_true_eq]
    unfold pdrPower
    omega
  have power : 66 + m ≠ pdrPower := by unfold pdrPower; omega
  have place : 66 + m - pdrVolt 0 = m := by simp [pdrVolt]
  have temp : ¬ 66 + m ≤ 64 := by omega
  have whole : 66 + m ≠ 65 := by omega
  have kind : ¬ 66 + m ≤ 65 := by omega
  simp [getReading, numeric, power, place, temp, whole, kind]

theorem sensorState_volt (s : State) {m : Nat} (hm : m < 48) : sensorState s (66 + m)
    = if bit s.rev.faulted m then 3 else if bit s.rev.belowWarn m then 2 else 1 := by
  have place : 66 + m - pdrVolt 0 = m := by simp [pdrVolt]
  have monitor : (pdrVolt 0 ≤ 66 + m && 66 + m < pdrPower) = true := by
    simp only [Bool.and_eq_true, decide_eq_true_eq]
    unfold pdrVolt pdrPower
    omega
  unfold sensorState
  rw [place, if_pos monitor]

theorem getStates_of_absent (s : State) (inst : BitVec 5) {id : Nat} (h : id < 115 ∨ 117 < id) :
    getStates s inst id = pldmRsp s inst 2 0x21 [0x80] := by
  refine if_pos ?_
  simp [isStateSensor, pdrPwrState, pdrTstate, pdrFault]
  omega

/-- A receiver registered while no Bellman record waits to be told. -/
theorem setReceiver_registers (s : State) (inst : BitVec 5) (eid : Nat) (told : s.rev.causeEvent = false) :
    setReceiver s inst 1 0 eid = pldmRsp { s with rev := { s.rev with evRecv := some eid } } inst 2 0x04 [0x00] := by
  simp [setReceiver, pldmRsp, told]

/-- Settles O53: where the firmware runs each request is answered by its own function, whose branch the hypotheses choose. -/
theorem managementEndpoint : Obligations.ManagementEndpoint := by
  unfold Obligations.ManagementEndpoint
  refine ⟨?setEid, ?setEidRefused, ?getEid, ?version, ?versionUnknown, ?types, ?vendor, ?tid, ?pldmVersion, ?pldmPart,
    ?pldmTypes, ?pldmCommands, ?pdrInfo, ?pdrWhole, ?pdrAbsent, ?temp, ?volt, ?power, ?states, ?statesAbsent, ?receiver⟩
  case setEid =>
    rintro inst op eid s runs ⟨hop, hnull, hall⟩
    have nonzero : eid.toNat ≠ 0 := fun h => hnull (BitVec.eq_of_toNat_eq h)
    have single : eid.toNat ≠ 0xFF := fun h => hall (BitVec.eq_of_toNat_eq h)
    exact does_byFirmware runs (f := fun s => .next (setEid s inst op.toNat eid.toNat)) rfl
      ⟨_, rfl, setEid_sets s inst hop nonzero single⟩
  case setEidRefused =>
    intro inst op eid s runs h
    have h' : 2 ≤ op.toNat ∨ eid.toNat = 0 ∨ eid.toNat = 0xFF :=
      h.imp_right (Or.imp (congrArg BitVec.toNat) (congrArg BitVec.toNat))
    exact does_byFirmware runs (f := fun s => .next (setEid s inst op.toNat eid.toNat)) rfl
      ⟨_, rfl, setEid_refuses s inst op.isLt h'⟩
  case getEid =>
    intro inst s runs
    exact does_byFirmware runs (f := fun s => .next (getEid s inst)) rfl ⟨_, rfl, rfl⟩
  case version =>
    intro inst ty s runs h
    exact does_byFirmware runs (f := fun s => .next (getMctpVersion s inst ty)) rfl
      ⟨_, rfl, getMctpVersion_of_known s inst h⟩
  case versionUnknown =>
    intro inst ty s runs h
    exact does_byFirmware runs (f := fun s => .next (getMctpVersion s inst ty)) rfl
      ⟨_, rfl, getMctpVersion_of_unknown s inst h⟩
  case types =>
    intro inst s runs
    exact does_byFirmware runs (f := fun s => .next (getMsgTypes s inst)) rfl ⟨_, rfl, rfl⟩
  case vendor =>
    intro inst s runs
    exact does_byFirmware runs (f := fun s => .next (getVendor s inst 0)) rfl ⟨_, rfl, rfl⟩
  case tid =>
    intro inst s runs
    exact does_byFirmware runs (f := fun s => .next (getTid s inst)) rfl ⟨_, rfl, rfl⟩
  case pldmVersion =>
    rintro inst v ty s runs (⟨rfl, rfl⟩ | ⟨rfl, rfl⟩)
    · exact does_byFirmware runs (f := fun s => .next (getPldmVersion s inst 1 0)) rfl
        ⟨_, rfl, getPldmVersion_of_known s inst (.inl rfl)⟩
    · exact does_byFirmware runs (f := fun s => .next (getPldmVersion s inst 1 2)) rfl
        ⟨_, rfl, getPldmVersion_of_known s inst (.inr rfl)⟩
  case pldmPart =>
    intro inst flag ty s runs hflag
    have part : flag.toNat ≠ 1 := fun h => hflag (BitVec.eq_of_toNat_eq h)
    exact does_byFirmware runs (f := fun s => .next (getPldmVersion s inst flag.toNat ty.toNat)) rfl
      ⟨_, rfl, getPldmVersion_of_part s inst ty.toNat part⟩
  case pldmTypes =>
    intro inst s runs
    exact does_byFirmware runs (f := fun s => .next (getPldmTypes s inst)) rfl ⟨_, rfl, rfl⟩
  case pldmCommands =>
    intro inst ty s runs h
    exact does_byFirmware runs (f := fun s => .next (getPldmCommands s inst ty.toNat)) rfl
      ⟨_, rfl, getPldmCommands_of_known s inst (Or.imp (congrArg BitVec.toNat) (congrArg BitVec.toNat) h)⟩
  case pdrInfo =>
    intro inst s runs
    exact does_byFirmware runs (f := fun s => .next (getPdrInfo s inst)) rfl ⟨_, rfl, rfl⟩
  case pdrWhole =>
    rintro inst handle part count id r s runs ⟨hid, hin⟩ ⟨rfl, hroom⟩
    exact does_byFirmware runs (f := fun s => .next (getPdr s inst handle.toNat part.toNat 1 count.toNat)) rfl
      ⟨_, rfl, getPdr_whole s inst hid hin hroom⟩
  case pdrAbsent =>
    intro inst handle part flag count s runs h
    exact does_byFirmware runs (f := fun s => .next (getPdr s inst handle.toNat part.toNat flag.toNat count.toNat)) rfl
      ⟨_, rfl, getPdr_absent s inst part.toNat flag.toNat count.toNat h⟩
  case temp =>
    rintro inst id s runs ⟨hlow, hhigh⟩
    exact does_byFirmware runs (f := fun s => .next (getReading s inst id.toNat)) rfl
      ⟨_, rfl, getReading_temp s inst hlow hhigh⟩
  case volt =>
    intro inst id m x s runs hid hx
    refine does_byFirmware runs (f := fun s => .next (getReading s inst id.toNat)) rfl ⟨_, rfl, ?_⟩
    rw [hid, getReading_volt s inst m.isLt, sensorState_volt s m.isLt, ← hx]
    rfl
  case power =>
    intro inst id s runs hid
    refine does_byFirmware runs (f := fun s => .next (getReading s inst id.toNat)) rfl ⟨_, rfl, ?_⟩
    rw [hid]
    exact ⟨rfl, rfl, rfl⟩
  case states =>
    intro inst id v s runs h
    refine does_byFirmware runs (f := fun s => .next (getStates s inst id.toNat)) rfl ⟨_, rfl, ?_⟩
    obtain ⟨hid, rfl⟩ | ⟨hid, rfl⟩ | ⟨hid, rfl⟩ := h <;> (rw [hid]; rfl)
  case statesAbsent =>
    intro inst id s runs h
    exact does_byFirmware runs (f := fun s => .next (getStates s inst id.toNat)) rfl
      ⟨_, rfl, getStates_of_absent s inst h⟩
  case receiver =>
    intro inst eid s runs told
    exact does_byFirmware runs (f := fun s => .next (setReceiver s inst 1 0 eid.toNat)) rfl
      ⟨_, rfl, setReceiver_registers s inst eid.toNat told⟩

/-- A vendor message that needs a session. -/
theorem vdmSession_inSession {s : State} {id : Option (BitVec 32)} (cmd : Nat) (f : State → State)
    (h : inSession s id = true) : vdmSession s id cmd f = f (vdmRsp s id cmd 0 []) := if_pos h

theorem vdmSession_outside {s : State} {id : Option (BitVec 32)} (cmd : Nat) (f : State → State)
    (h : inSession s id = false) : vdmSession s id cmd f = vdmRsp s id cmd 2 [] :=
  if_neg (ne_true_of_eq_false h)

/-- Settles O54: each vendor message by its own function, the two resets by whether the request came in a session. -/
theorem managementMessages : Obligations.ManagementMessages := by
  unfold Obligations.ManagementMessages
  refine ⟨?wake, ?warm, ?cold, ?coldRefused, ?log, ?cause⟩
  case wake =>
    intro sess s runs
    exact does_byFirmware runs (f := fun s => .next (wake (vdmRsp s sess 0x01 0 []) 5)) rfl ⟨_, rfl, rfl⟩
  case warm =>
    intro sess s runs hsess
    exact does_byFirmware runs (f := fun s => .next (vdmSession s sess 0x02 fun s => warmReset s 2)) rfl
      ⟨_, rfl, vdmSession_inSession _ _ hsess⟩
  case cold =>
    intro sess s runs hsess
    exact does_byFirmware runs (f := fun s => .next (vdmSession s sess 0x03 fun s => coldReset s false 2 2)) rfl
      ⟨_, rfl, vdmSession_inSession _ _ hsess⟩
  case coldRefused =>
    intro sess s runs hsess
    exact does_byFirmware runs (f := fun s => .next (vdmSession s sess 0x03 fun s => coldReset s false 2 2)) rfl
      ⟨_, rfl, vdmSession_outside _ _ hsess⟩
  case log =>
    intro start s runs
    exact does_byFirmware runs (f := fun s => .next (vdmRsp s none 0x04 0
      ((List.range 16).flatMap fun i => logBytes s (start.toNat + i)))) rfl ⟨_, rfl, rfl⟩
  case cause =>
    intro s runs
    exact does_byFirmware runs (f := fun s => .next (vdmRsp s none 0x05 0 (causeBytes s))) rfl ⟨_, rfl, rfl⟩

end Sys2Proof.Machine
end

section
/-! Secure boot (O55) and the debug unlock (O56). -/

namespace Sys2Proof.Machine

open Sys2Proof

/-! ### Images -/

theorem rejectReeve_first (s : State) (c : Nat) (h : s.trust.triedR = 0) :
    rejectReeve s c = setFail (putTrust s { s.trust with triedR := 1 }) c := by
  have first : (setFail (putTrust s { s.trust with triedR := 1 }) c).trust.triedR < 2 := (by decide : 1 < 2)
  unfold rejectReeve
  rw [h]
  exact if_pos first

theorem rejectReeve_first_shows {s : State} {c : Nat} (h : s.trust.triedR = 0) (hc : c < 16) :
    (rejectReeve s c).rd R.DBG_BOOT.FAIL [] = c ∧ (rejectReeve s c).trust.triedR = 1
      ∧ stage (rejectReeve s c) = stage s := by
  rw [rejectReeve_first s c h]
  refine ⟨?_, rfl, State.rd_wr_apart _ _ (by decide)⟩
  exact (State.rd_wr_same _ _ _ _).trans (Nat.mod_eq_of_lt hc)

/-- R611: the ROM restarts the watchdog throughout. -/
def watchdogRestarted (s : State) : State := { s with rev := { s.rev with hbAt := s.now } }

theorem reeveImage_error (s : State) : reeveImage s .error = rejectReeve (watchdogRestarted s) 7 := rfl

/-- R613: a Reeve image whose checks pass. -/
def acceptReeve (s : State) (b : Bytes) : State :=
  let s := (s.wr R.DBG_BOOT.STAGE [] stReeve).wr R.DBG_BOOT.SLOT_R [] ((s.trust.firstR + s.trust.triedR) % 2)
  putTrust s { s.trust with imgR := some (imgOf b) }

theorem reeveImage_accepts {s : State} {b : Bytes} (h : checkImage (watchdogRestarted s) tyReeve b (payloadOf b) = 0) :
    reeveImage s (.ok b) = acceptReeve (watchdogRestarted s) b := if_neg (not_not_intro h)

theorem reeveImage_rejects {s : State} {b : Bytes} (h : checkImage (watchdogRestarted s) tyReeve b (payloadOf b) ≠ 0) :
    reeveImage s (.ok b)
      = rejectReeve (watchdogRestarted s) (checkImage (watchdogRestarted s) tyReeve b (payloadOf b)) := if_pos h

theorem acceptReeve_shows (s : State) (b : Bytes) : (acceptReeve s b).rd R.DBG_BOOT.STAGE [] = stReeve
    ∧ (acceptReeve s b).rd R.DBG_BOOT.SLOT_R []
      = (s.trust.firstR + s.trust.triedR) % 2 % 2 ^ R.DBG_BOOT.SLOT_R.width
    ∧ (acceptReeve s b).trust = { s.trust with imgR := some (imgOf b) } := by
  refine ⟨?_, State.rd_wr_same _ _ _ _, rfl⟩
  change ((s.wr _ [] _).wr R.DBG_BOOT.SLOT_R [] _).rd _ [] = _
  rw [State.rd_wr_apart _ _ (by decide), State.rd_wr_same]
  rfl

theorem filbertImage_header (s : State) {b : Bytes} (h : checkHeader s tyFilbert b ≠ 0) :
    filbertImage s (.ok b) = rejectFilbert s (checkHeader s tyFilbert b) := if_pos h

theorem filbertImage_loads (s : State) {b : Bytes} {a : Nat} (h : checkHeader s tyFilbert b = 0)
    (hat : region (loadAddr b) (payloadLen b) = .hbm a) :
    filbertImage s (.ok b) = if sha384 ((s.hbmWrite a (payloadOf b)).hbmRead a (payloadLen b)) = slice b 48 48
      then startFilbert (s.hbmWrite a (payloadOf b)) b else rejectFilbert (s.hbmWrite a (payloadOf b)) 6 := by
  unfold filbertImage
  simp only [h, ne_eq, not_true_eq_false, if_false, hat, ite_not]

/-! ### Fuses -/

theorem blowFuses_reeve (s : State) {m : Img} (hadvance : m.advance = true) (hrevoke : m.revoke = false)
    (hbelow : svnFloor s tyReeve < m.svn) : blowFuses s tyReeve m = s.wr R.DBG_SVN.FLOOR_R [] m.svn := by
  simp [blowFuses, hadvance, hrevoke, hbelow]

theorem blowFuses_filbert (s : State) {m : Img} (hadvance : m.advance = true) (hrevoke : m.revoke = false)
    (hbelow : svnFloor s tyFilbert < m.svn) : blowFuses s tyFilbert m = s.wr R.DBG_SVN.FLOOR_F [] m.svn := by
  simp [blowFuses, hadvance, hrevoke, hbelow, (by decide : tyFilbert ≠ tyReeve)]

/-- R619: what FW_READY does where the Filbert image `m` runs. -/
theorem execFwReady_ready {s : State} {m : Img} (awake : Awake s) (hstage : stage s = stFilbert)
    (hready : s.flag R.DOM_STATUS.FW_READY [] = false) (himg : s.trust.imgF = some m) :
    exec .fwReady s = .next (blowFuses (s.wr R.DOM_STATUS.FW_READY [] 1) tyFilbert m) := by
  have himg' : (s.wr R.DOM_STATUS.FW_READY [] 1).trust.imgF = some m := himg
  have e : exec .fwReady s = execFwReady s := rfl
  unfold execFwReady at e
  rw [e, awake_whenUp awake]
  simp only [hstage, hready, himg', ne_eq, not_true_eq_false, decide_false, Bool.or_false, Bool.false_eq_true, if_false]

theorem execBootComplete_running {s : State} {m : Img} (runs : reeveRuns s = true) (himg : s.trust.imgR = some m) :
    exec .bootComplete s = .next (blowFuses s tyReeve m) := by
  have e : exec .bootComplete s = execBootComplete s := rfl
  unfold execBootComplete at e
  rw [e, byFirmware, if_pos runs]
  simp only [himg]

/-- Settles O55: an image by whether its checks pass, the fuses by what the running image asks for. -/
theorem secureBoot : Obligations.SecureBoot := by
  unfold Obligations.SecureBoot
  refine ⟨?reeveImage, ?reeveError, ?filbertHeader, ?filbertLoads, ?fwReady, ?bootComplete⟩
  case reeveImage =>
    rintro b c s u ⟨hbell, hlit, hstage⟩ hu rfl
    obtain rfl : u = watchdogRestarted s := hu
    have e : exec (.reeveImageLoaded (.ok b)) s = .next (reeveImage s (.ok b)) := by
      change Host.Outcome.next (if bellman s || s.pwr.dark || stage s ≠ stRom then s else reeveImage s (.ok b)) = _
      simp [hbell, hlit, hstage]
    refine ⟨_, e, ?_, ?_⟩
    · intro hpass
      rw [reeveImage_accepts hpass]
      exact acceptReeve_shows (watchdogRestarted s) b
    · exact reeveImage_rejects
  case reeveError =>
    rintro s ⟨hbell, hlit, hstage⟩ hfirst
    have e : exec (.reeveImageLoaded .error) s = .next (reeveImage s .error) := by
      change Host.Outcome.next (if bellman s || s.pwr.dark || stage s ≠ stRom then s else reeveImage s .error) = _
      simp [hbell, hlit, hstage]
    rw [reeveImage_error] at e
    obtain ⟨hfail, htried, hst⟩ := rejectReeve_first_shows (s := watchdogRestarted s) (c := 7) hfirst (by decide)
    exact ⟨_, e, hfail, htried, hst.trans hstage⟩
  case filbertHeader =>
    rintro b c s - ⟨runs, hstage, hup⟩ ⟨rfl, hfail⟩
    refine does_byFirmware runs (f := fun s => .next (if stage s ≠ stReeve || asleep s then s else filbertImage s (.ok b))) rfl
      ⟨_, rfl, ?_⟩
    rw [← filbertImage_header s hfail]
    simp [hstage, hup]
  case filbertLoads =>
    rintro b c s u a ⟨runs, hstage, hup⟩ rfl ⟨rfl, hat⟩
    refine does_byFirmware runs (f := fun s => .next (if stage s ≠ stReeve || asleep s then s else filbertImage s (.ok b))) rfl
      ⟨_, rfl, ?_⟩
    intro hpass
    rw [← filbertImage_loads s hpass hat]
    simp [hstage, hup]
  case fwReady =>
    rintro m s awake ⟨hstage, hready⟩ ⟨himg, hadvance, hrevoke⟩ hbelow
    have hbelow' : svnFloor (s.wr R.DOM_STATUS.FW_READY [] 1) tyFilbert < m.svn := by
      have same : svnFloor (s.wr R.DOM_STATUS.FW_READY [] 1) tyFilbert = svnFloor s tyFilbert :=
        State.rd_wr_apart (f := R.DOM_STATUS.FW_READY) (g := R.DBG_SVN.FLOOR_F) _ _ (by decide)
      rwa [same]
    refine ⟨_, execFwReady_ready awake hstage hready himg, ?_⟩
    rw [blowFuses_filbert _ hadvance hrevoke hbelow']
    refine ⟨?_, State.rd_wr_same _ _ _ _, ?_, rfl⟩
    · rw [State.flag_wr_apart _ _ (by decide), State.flag_wr_same]
      rfl
    · rw [State.rd_wr_apart _ _ (by decide), State.rd_wr_apart _ _ (by decide)]
  case bootComplete =>
    rintro m s runs ⟨himg, hadvance, hrevoke⟩ hbelow
    exact ⟨_, execBootComplete_running runs himg, blowFuses_reeve s hadvance hrevoke hbelow⟩

/-! ### The debug unlock -/

/-- R631: a write of DBG_UNLOCK_CTL by any management domain where the block is awake. -/
theorem does_unlockCtl {c : Instr} {s : State} {m : MDom} {v : Nat} {p : State → Prop} (awake : Awake s)
    (e : exec c s = unlockCtl s m v) (hp : p (unlockWrite s v)) : Does c s p := by
  have owners (h : m ≠ .debug) (e : exec c s = fromDomain s m fun s => .next (unlockWrite s v)) : Does c s p :=
    does_fromDomain awake (fun k => absurd k h) e ⟨_, rfl, hp⟩
  cases m with
  | owner => exact owners (by decide) e
  | filbert => exact owners (by decide) e
  | reeve => exact owners (by decide) e
  | debug =>
    refine ⟨unlockWrite s v, e.trans ?_, hp⟩
    simp [unlockCtl, awake_bellman awake, awake_dark awake]

theorem setChal_rd_apart (s : State) (b : Bytes) {g : Fld} {ix : List Nat}
    (h : ∀ k, Fld.apart R.DBG_UNLOCK_CHAL.CHAL g [k] ix) : (setChal s b).rd g ix = s.rd g ix :=
  foldl_rd (fun _ k => State.rd_wr_apart _ _ (h k)) _ _

/-- Words written one after another each read back. -/
theorem foldl_wr_rd {f : Fld} (hf : ∀ i k, i ≠ k → Fld.apart f f [i] [k]) (v : Nat → Nat) (s : State) {n k : Nat} (h : k < n) :
    ((List.range n).foldl (fun s i => s.wr f [i] (v i)) s).rd f [k] = v k % 2 ^ f.width := by
  induction n with
  | zero => omega
  | succ n ih =>
    rw [List.range_succ, List.foldl_append]
    obtain rfl | hk := Nat.eq_or_lt_of_le (Nat.le_of_lt_succ h)
    · exact State.rd_wr_same _ _ _ _
    · exact (State.rd_wr_apart _ _ (hf n k (by omega))).trans (ih hk)

theorem chal_apart (i k : Nat) (h : i ≠ k) : Fld.apart R.DBG_UNLOCK_CHAL.CHAL R.DBG_UNLOCK_CHAL.CHAL [i] [k] := by
  refine .inr fun e => h ?_
  change 8 * (0x0F000020 + (i * 4 + 0)) + 0 = 8 * (0x0F000020 + (k * 4 + 0)) + 0 at e
  omega

theorem setChal_rd (s : State) (b : Bytes) (k : Fin 12) : (setChal s b).rd R.DBG_UNLOCK_CHAL.CHAL [k.val]
    = leAt b (4 * k.val) 4 % 2 ^ R.DBG_UNLOCK_CHAL.CHAL.width := foldl_wr_rd chal_apart _ s k.isLt

theorem setChal_only (s : State) (b : Bytes) : Keeps [.regs] s (setChal s b) := by
  have head := May.head
  exact setChal_keeps (.refl s)

theorem setChal_trust (s : State) (b : Bytes) : (setChal s b).trust = s.trust :=
  (setChal_only s b).frame .trust (by decide)

/-- R634: a consumed challenge reads 0. -/
theorem setChal_consumed (s : State) (k : Fin 12) : (setChal s []).rd R.DBG_UNLOCK_CHAL.CHAL [k.val] = 0 := by
  have none : leAt [] (4 * k.val) 4 = 0 := by
    have zeros : slice [] (4 * k.val) 4 = [0, 0, 0, 0] := by simp [slice]
    unfold leAt
    rw [zeros]
    rfl
  rw [setChal_rd, none]
  rfl

theorem newChal_draws {s : State} (h : unlockStatus s ≠ statusVerifying) :
    newChal s = setChal (s.freeBytes 48).2 (s.freeBytes 48).1 := if_neg h

/-- R634: what VERIFY hands to the verification. -/
def unlockOf (s : State) : Unlock := { token := le4 s R.DBG_TOKEN.TOKEN 1024, chal := le4 s R.DBG_UNLOCK_CHAL.CHAL 12 }

/-- R603, R613: the challenge plays no part in whether the firmware runs. -/
theorem setChal_reeveRuns (s : State) (b : Bytes) : reeveRuns (setChal s b) = reeveRuns s := by
  have hstage : stage (setChal s b) = stage s := setChal_rd_apart s b fun _ => Fld.apart_of_over (by decide)
  have hrev : (setChal s b).rev = s.rev := (setChal_only s b).frame .rev (by decide)
  have hpwr : (setChal s b).pwr = s.pwr := (setChal_only s b).frame .pwr (by decide)
  unfold reeveRuns bellman
  rw [hstage, hrev, hpwr]

theorem startVerify_starts {s : State} (h : unlockStatus s ≠ statusVerifying) (runs : reeveRuns s = true) :
    startVerify s = putTrust (setUnlock (setChal s []) statusVerifying)
      { s.trust with verifying := some (unlockOf s) } :=
  (if_neg h).trans (if_pos ((setChal_reeveRuns s []).trans runs))

theorem startVerify_refused {s : State} (h : unlockStatus s ≠ statusVerifying) (stopped : reeveRuns s = false) :
    startVerify s = setUnlock (setChal s []) 6 :=
  (if_neg h).trans (if_neg (ne_true_of_eq_false ((setChal_reeveRuns s []).trans stopped)))

theorem setUnlock_chal (s : State) (n k : Nat) :
    (setUnlock s n).rd R.DBG_UNLOCK_CHAL.CHAL [k] = s.rd R.DBG_UNLOCK_CHAL.CHAL [k] :=
  State.rd_wr_apart _ _ (Fld.apart_of_below (by decide))

/-- R635, R624: what an accepted token grants. -/
def unlockGranted (s : State) (scope auth : Nat) : State :=
  let s := (s.wr R.DBG_UNLOCK_CTL.SCOPE [] (s.rd R.DBG_UNLOCK_CTL.SCOPE [] ||| scope)).wr R.DBG_UNLOCK_CTL.AUTH [] auth
  putTrust s { s.trust with anyUnlock := true, scopes := s.trust.scopes ||| scope, auths := s.trust.auths ||| auth }

/-- R634: the end of the verification `u`, before what it grants. -/
def verifyEnded (s : State) (u : Unlock) : State :=
  setUnlock (putTrust s { s.trust with verifying := none }) (verifyToken s u)

theorem endVerify_eq {s : State} {u : Unlock} (h : s.trust.verifying = some u) : endVerify s =
    if verifyToken s u ≠ 1 then verifyEnded s u
    else unlockGranted (verifyEnded s u) (byteAt u.token 2) (byteAt u.token 1) := by
  unfold endVerify
  rw [h]
  rfl

theorem unlockGranted_shows (s : State) (scope auth : Nat) :
    unlockStatus (unlockGranted s scope auth) = unlockStatus s
      ∧ (unlockGranted s scope auth).rd R.DBG_UNLOCK_CTL.SCOPE []
        = (s.rd R.DBG_UNLOCK_CTL.SCOPE [] ||| scope) % 2 ^ R.DBG_UNLOCK_CTL.SCOPE.width
      ∧ (unlockGranted s scope auth).rd R.DBG_UNLOCK_CTL.AUTH [] = auth % 2 ^ R.DBG_UNLOCK_CTL.AUTH.width := by
  refine ⟨?_, ?_, State.rd_wr_same _ _ _ _⟩
  · exact (State.rd_wr_apart _ _ (by decide)).trans (State.rd_wr_apart _ _ (by decide))
  · exact (State.rd_wr_apart _ _ (by decide)).trans (State.rd_wr_same _ _ _ _)

theorem verifyEnded_scope (s : State) (u : Unlock) :
    (verifyEnded s u).rd R.DBG_UNLOCK_CTL.SCOPE [] = s.rd R.DBG_UNLOCK_CTL.SCOPE [] :=
  State.rd_wr_apart (f := R.DBG_UNLOCK_CTL.STATUS) (g := R.DBG_UNLOCK_CTL.SCOPE) _ _ (by decide)

/-- R635: RELOCK without what it does to STATUS. -/
def grantsCleared (s : State) : State := (s.wr R.DBG_UNLOCK_CTL.SCOPE [] 0).wr R.DBG_UNLOCK_CTL.AUTH [] 0

theorem relock_eq (s : State) : relock s =
    if unlockStatus (grantsCleared s) = 1 then setUnlock (grantsCleared s) 0 else grantsCleared s := rfl

theorem grantsCleared_shows (s : State) : (grantsCleared s).rd R.DBG_UNLOCK_CTL.SCOPE [] = 0
    ∧ (grantsCleared s).rd R.DBG_UNLOCK_CTL.AUTH [] = 0 :=
  ⟨(State.rd_wr_apart _ _ (by decide)).trans (State.rd_wr_same _ _ _ _), State.rd_wr_same _ _ _ _⟩

/-- R635: RELOCK takes back what was granted. -/
theorem relock_shows (s : State) : (relock s).rd R.DBG_UNLOCK_CTL.SCOPE [] = 0 ∧ (relock s).rd R.DBG_UNLOCK_CTL.AUTH [] = 0
    ∧ unlockStatus (relock s) ≠ 1 ∧ (relock s).trust = s.trust := by
  obtain ⟨hscope, hauth⟩ := grantsCleared_shows s
  rw [relock_eq]
  split
  · have hstatus : unlockStatus (setUnlock (grantsCleared s) 0) = 0 := State.rd_wr_same _ _ _ _
    refine ⟨(State.rd_wr_apart _ _ (by decide)).trans hscope, (State.rd_wr_apart _ _ (by decide)).trans hauth, ?_, rfl⟩
    rw [hstatus]
    decide
  · next other => exact ⟨hscope, hauth, other, rfl⟩

/-- Settles O56: each write of DBG_UNLOCK_CTL by its own bit, the end of a verification by its token's status. -/
theorem debugUnlock : Obligations.DebugUnlock := by
  unfold Obligations.DebugUnlock
  refine ⟨?newChal, ?verify, ?verifyRefused, ?complete, ?relock⟩
  case newChal =>
    intro m s awake idle
    refine does_unlockCtl (v := 1) awake rfl ?_
    change (∀ k : Fin 12, (newChal s).rd _ _ = _) ∧ (newChal s).trust = _
    rw [newChal_draws idle]
    exact ⟨setChal_rd _ _, setChal_trust _ _⟩
  case verify =>
    intro m s awake idle runs
    refine does_unlockCtl (v := 2) awake rfl ?_
    change unlockStatus (startVerify s) = _ ∧ (startVerify s).trust.verifying = _ ∧ ∀ k : Fin 12, (startVerify s).rd _ _ = 0
    rw [startVerify_starts idle runs]
    refine ⟨State.rd_wr_same _ _ _ _, rfl, fun k => ?_⟩
    exact (setUnlock_chal _ _ _).trans (setChal_consumed s k)
  case verifyRefused =>
    intro m s awake idle stopped
    refine does_unlockCtl (v := 2) awake rfl ?_
    change unlockStatus (startVerify s) = _ ∧ (∀ k : Fin 12, (startVerify s).rd _ _ = 0) ∧ (startVerify s).trust = _
    rw [startVerify_refused idle stopped]
    refine ⟨State.rd_wr_same _ _ _ _, fun k => ?_, setChal_trust s []⟩
    exact (setUnlock_chal _ _ _).trans (setChal_consumed s k)
  case complete =>
    rintro u n s runs hverifying rfl
    refine does_byFirmware runs (f := fun s => .next (endVerify s)) rfl ⟨_, rfl, ?_⟩
    rw [endVerify_eq hverifying]
    by_cases hpass : verifyToken s u = 1
    · obtain ⟨hstatus, hscope, hauth⟩ := unlockGranted_shows (verifyEnded s u) (byteAt u.token 2) (byteAt u.token 1)
      rw [if_neg (not_not_intro hpass)]
      refine ⟨hstatus.trans (State.rd_wr_same _ _ _ _), rfl, fun _ => ⟨?_, hauth, rfl⟩, fun h => absurd hpass h⟩
      rw [hscope, verifyEnded_scope]
    · rw [if_pos hpass]
      exact ⟨State.rd_wr_same _ _ _ _, rfl, fun h => absurd h hpass, fun _ => verifyEnded_scope s u⟩
  case relock =>
    intro m s awake
    exact does_unlockCtl (v := 4) awake rfl (relock_shows s)

end Sys2Proof.Machine
end

section
/-! The SPDM responder: negotiation (O57). How a request is answered, in the clear and in a session. -/

namespace Sys2Proof.Machine

open Sys2Proof

theorem byteOf_toNat (b : Byte) : byteOf b.toNat = b := by simp [byteOf]

/-! ### How a request is answered -/

section Answer
variable {c : Instr} {s u : State} {r : SpdmReq} {f : State → SpdmReq → Bytes × State} {b : Bytes} {p : State → Prop}

theorem spdmRow_clear (hclear : r.sess = none) : spdmRow s r f = respond (f s r).2 none (f s r).1 := by
  unfold spdmRow
  rw [hclear]

theorem spdmRow_session {i : BitVec 32} {x : Sess} (hsess : r.sess = some i) (hx : sessOf s i.toNat = some x) :
    spdmRow s r f = respond (f s r).2 r.sess (f s r).1 := by
  unfold spdmRow
  simp only [hsess, hx]

/-- R623: a request outside sessions that `f` answers by `b`, leaving `u`. -/
theorem does_spdmClear (runs : reeveRuns s = true) (hclear : r.sess = none) (e : exec c s = spdmAns r f s)
    (hf : f s r = (b, u)) (hp : p (respond u none b)) : Does c s p := by
  refine does_byFirmware runs (f := fun s => .next (spdmRow s r f)) e ⟨_, rfl, ?_⟩
  rw [spdmRow_clear hclear, hf]
  exact hp

/-- R623: a request in a session that stands, which `f` answers by `b`, leaving `u`. -/
theorem does_spdmSession {i : BitVec 32} {x : Sess} (runs : reeveRuns s = true)
    (hsess : r.sess = some i ∧ sessOf s i.toNat = some x) (e : exec c s = spdmAns r f s)
    (hf : f s r = (b, u)) (hp : p (respond u r.sess b)) : Does c s p := by
  obtain ⟨hid, hx⟩ := hsess
  refine does_byFirmware runs (f := fun s => .next (spdmRow s r f)) e ⟨_, rfl, ?_⟩
  rw [spdmRow_session hid hx, hf]
  exact hp

end Answer

section Negotiated
variable {s : State} {r : SpdmReq} (g : Unit → Bytes × State)

theorem negotiated_done (h : (spdm s).phase = 3 ∧ r.ver.toNat = (spdm s).ver) : negotiated s r g = g () :=
  (if_neg (not_not_intro h.1)).trans (if_neg (not_not_intro h.2))

theorem negotiated_early (h : (spdm s).phase ≠ 3) : negotiated s r g = (errMsg s eUnexpected 0, s) := if_pos h

theorem outside_done (h : (spdm s).phase = 3 ∧ r.ver.toNat = (spdm s).ver) (hclear : r.sess = none) :
    outside s r g = g () := by
  have none : ¬ r.sess.isSome = true := by simp [hclear]
  exact (negotiated_done _ h).trans (if_neg none)

theorem within_done (h : (spdm s).phase = 3 ∧ r.ver.toNat = (spdm s).ver) {i : BitVec 32} {x : Sess}
    (hsess : r.sess = some i ∧ sessOf s i.toNat = some x) {est : Bool} (hest : x.est = est) (g : Sess → Bytes × State) :
    within s r est g = g x := by
  obtain ⟨hid, hx⟩ := hsess
  unfold within
  rw [negotiated_done _ h]
  simp only [hid, hx, hest, if_true]

end Negotiated

theorem spdmVer_negotiated {s : State} {n : Nat} (h : (spdm s).phase = n) (hn : 2 ≤ n) : spdmVer s = (spdm s).ver := by
  unfold spdmVer
  rw [if_neg (by omega)]

/-- A response that fits the requester's transfer size goes out in one message. -/
theorem respond_short {s : State} {b : Bytes} (id : Option (BitVec 32)) (h : (spdm s).xfer = 0 ∨ b.length ≤ (spdm s).xfer) :
    respond s id b = mctpSend s id 0x05 b := by
  unfold respond
  rw [if_pos]
  simpa using h

/-! ### Negotiation -/

theorem doVersion_unknown (s : State) {r : SpdmReq} (h : r.ver ≠ 0x10) : doVersion s r = ([0x10, 0x7F, 0x41, 0], s) := if_pos h

/-- What the responder holds after GET_VERSION. -/
def versionAsked (s : State) (r : SpdmReq) : State :=
  putSpdm s { Spdm.reset with phase := 1, vca := reqMsg 0x84 r ++ [0x10, 0x04, 0, 0, 0, 2, 0x00, 0x12, 0x00, 0x13],
                              handle := (spdm s).handle, nextSess := (spdm s).nextSess }

theorem doVersion_known (s : State) {r : SpdmReq} (h : r.ver = 0x10) :
    doVersion s r = ([0x10, 0x04, 0, 0, 0, 2, 0x00, 0x12, 0x00, 0x13], versionAsked s r) := if_neg (not_not_intro h)

/-- R623: the answer to GET_CAPABILITIES. -/
def capabilitiesRsp (r : SpdmReq) : Bytes :=
  [byteOf r.ver.toNat, 0x61, 0, 0, 0, 20, 0, 0] ++ leBytes 4 ourFlags ++ leBytes 4 4096 ++ leBytes 4 65536

/-- What the responder holds after GET_CAPABILITIES. -/
def capabilitiesTaken (s : State) (r : SpdmReq) : State :=
  putSpdm s { spdm s with phase := 2, ver := r.ver.toNat, flags := leAt r.body 4 4, xfer := leAt r.body 8 4,
                          vca := (spdm s).vca ++ reqMsg 0xE1 r ++ capabilitiesRsp r }

theorem doCapabilities_taken {s : State} {r : SpdmReq} (hver : r.ver = 0x12 ∨ r.ver = 0x13) (hphase : (spdm s).phase = 1)
    (hlen : 16 ≤ r.body.length) (hxfer : 42 ≤ leAt r.body 8 4) :
    doCapabilities s r = (capabilitiesRsp r, capabilitiesTaken s r) := by
  have known : ¬ (r.ver ≠ 0x12#8 && r.ver ≠ 0x13#8) = true := by
    obtain h | h := hver <;> simp [h]
  have whole : ¬ (r.body.length < 16 || leAt r.body 8 4 < 42) = true := by
    simp only [Bool.or_eq_true, decide_eq_true_eq]
    omega
  exact (if_neg known).trans ((if_neg (not_not_intro hphase)).trans ((if_neg whole).trans rfl))

/-- R623: the answer to NEGOTIATE_ALGORITHMS, with the tables `t`. -/
def algorithmsRsp (ver : Nat) (r : SpdmReq) (t : Bytes) : Bytes :=
  [byteOf ver, 0x63, byteOf r.p1.toNat, 0] ++ (leBytes 2 (36 + t.length)
    ++ [byteOf (byteAt r.body 2 &&& 1), byteOf (byteAt r.body 3 &&& 2)] ++ leBytes 4 4 ++ leBytes 4 0x80 ++ leBytes 4 2
    ++ List.replicate 12 0 ++ [0, 0, 0, 0] ++ t)

/-- The answers to the algorithm structures of a request. -/
def requestTables (r : SpdmReq) : Bytes :=
  algTables r.p1.toNat (r.body.drop (28 + 4 * (byteAt r.body 24 + byteAt r.body 25)))

/-- What the responder holds after NEGOTIATE_ALGORITHMS. -/
def algorithmsTaken (s : State) (r : SpdmReq) (rsp : Bytes) : State :=
  putSpdm s { spdm s with phase := 3, vca := (spdm s).vca ++ reqMsg 0xE3 r ++ rsp }

theorem doAlgorithms_taken {s : State} {r : SpdmReq} (hphase : (spdm s).phase = 2) (hlen : 28 ≤ r.body.length)
    (hasym : bit (leAt r.body 4 4) 7 = true) (hhash : bit (leAt r.body 8 4) 1 = true) :
    doAlgorithms s r = (algorithmsRsp (spdm s).ver r (requestTables r),
      algorithmsTaken s r (algorithmsRsp (spdm s).ver r (requestTables r))) := by
  have whole : ¬ (r.body.length < 28 || !bit (leAt r.body 4 4) 7 || !bit (leAt r.body 8 4) 1) = true := by
    simp [hasym, hhash, hlen]
  have hver : spdmVer s = (spdm s).ver := spdmVer_negotiated hphase (by decide)
  unfold doAlgorithms
  rw [if_neg (not_not_intro hphase), if_neg whole]
  unfold rspMsg
  rw [hver]
  rfl

/-- What the responder holds after the first chunk of a request, when more follow. -/
def firstChunkTaken (s : State) (r : SpdmReq) : State :=
  putSpdm s { spdm s with chunk := some (r.p2.toNat, 1, leAt r.body 8 4, slice r.body 12 (leAt r.body 4 4)) }

theorem doChunkSend_first {s : State} {r : SpdmReq} (h : (spdm s).phase = 3 ∧ r.ver.toNat = (spdm s).ver)
    (hseq : leAt r.body 0 2 = 0) (hmore : bit r.p1.toNat 0 = false) (hmax : leAt r.body 8 4 ≤ ourMax)
    (hroom : (slice r.body 12 (leAt r.body 4 4)).length ≤ leAt r.body 8 4) :
    doChunkSend s r = (rspMsg s 0x05 0 r.p2.toNat [0, 0], firstChunkTaken s r) := by
  unfold doChunkSend
  rw [negotiated_done _ h]
  simp [hseq, hmore, Nat.not_lt.mpr hmax, Nat.not_lt.mpr hroom]
  exact ⟨rfl, rfl⟩

/-- R623: the part of a large response that goes out in a chunk after the first. -/
def chunkPart (s : State) (b : Bytes) (off : Nat) : Bytes := (b.drop off).take ((spdm s).xfer - 12)

/-- What the responder holds after a chunk has gone out. -/
def chunkTaken (s : State) (h n : Nat) (b : Bytes) (off : Nat) (p : Bytes) : State :=
  putSpdm s { spdm s with large := if b.length ≤ off + p.length then none else some (h, n + 1, b, off + p.length) }

theorem doChunkGet_next {s : State} {r : SpdmReq} {h n off : Nat} {b : Bytes}
    (hdone : (spdm s).phase = 3 ∧ r.ver.toNat = (spdm s).ver) (hlarge : (spdm s).large = some (h, n, b, off))
    (hhandle : r.p2.toNat = h) (hseq : leAt r.body 0 2 = n) (hn : 0 < n) : doChunkGet s r =
      (rspMsg s 0x06 (if b.length ≤ off + (chunkPart s b off).length then 1 else 0) h
          (leBytes 2 n ++ [0, 0] ++ leBytes 4 (chunkPart s b off).length ++ chunkPart s b off),
        chunkTaken s h n b off (chunkPart s b off)) := by
  have later : n ≠ 0 := by omega
  unfold doChunkGet
  rw [negotiated_done _ hdone]
  simp only [hlarge, hseq, hhandle, later, ne_eq, not_true_eq_false, decide_false, Bool.or_false, if_false,
    Bool.false_eq_true, List.append_nil, b2n, decide_eq_true_eq]
  rfl


/-- Settles O57: each request of the negotiation by the branch of its own function that its hypotheses choose. -/
theorem spdmNegotiation : Obligations.SpdmNegotiation := by
  unfold Obligations.SpdmNegotiation
  refine ⟨?version, ?versionUnknown, ?capabilities, ?algorithms, ?chunkSend, ?chunkGet⟩
  case version =>
    intro r s runs hclear hver
    refine does_spdmClear runs hclear rfl (doVersion_known s hver) ?_
    rw [respond_short none (.inl rfl)]
    exact ⟨rfl, rfl, rfl⟩
  case versionUnknown =>
    intro r s runs hclear hver
    exact does_spdmClear runs hclear rfl (doVersion_unknown s hver) rfl
  case capabilities =>
    rintro r s runs hclear hver hphase ⟨hlen, hxfer⟩
    refine does_spdmClear runs hclear rfl (doCapabilities_taken hver hphase hlen hxfer)
      ⟨capabilitiesTaken s r, ?_, rfl, rfl, rfl, rfl⟩
    unfold capabilitiesRsp
    rw [byteOf_toNat]
  case algorithms =>
    rintro t r s runs hclear hphase ⟨hlen, hasym, hhash⟩ rfl
    refine does_spdmClear runs hclear rfl (doAlgorithms_taken hphase hlen hasym hhash)
      ⟨algorithmsTaken s r (algorithmsRsp (spdm s).ver r (requestTables r)), ?_, rfl, rfl⟩
    refine congrArg (respond _ none) ?_
    unfold algorithmsRsp
    rw [byteOf_toNat]
    simp only [requestTables, List.append_assoc, List.cons_append, List.nil_append, List.replicate]
  case chunkSend =>
    rintro r s runs hclear hdone ⟨hseq, hmore⟩ ⟨hmax, hroom⟩
    exact does_spdmClear runs hclear rfl (doChunkSend_first hdone hseq hmore hmax hroom)
      ⟨firstChunkTaken s r, rfl, rfl⟩
  case chunkGet =>
    rintro h n off b p r s runs hclear hdone hlarge ⟨hhandle, hseq⟩ hn rfl
    exact does_spdmClear runs hclear rfl (doChunkGet_next hdone hlarge hhandle hseq hn)
      ⟨chunkTaken s h n b off (chunkPart s b off), rfl, rfl⟩

end Sys2Proof.Machine
end

section
/-! The SPDM responder: identity and measurements (O58). -/

namespace Sys2Proof.Machine

open Sys2Proof

theorem slotOk_of_lt {slot : Nat} (h : slot < 2) : slotOk slot = true := by
  obtain rfl | rfl : slot = 0 ∨ slot = 1 := by omega
  · rfl
  · rfl

/-- R623: the length and the reserved bytes stand before the hash of the root. -/
theorem four_le_slotChain (slot : Nat) : 4 ≤ (slotChain slot).length := by
  simp only [slotChain, leBytes, List.length_append, List.length_cons]
  omega

/-- The responder with its transcript of certificates replaced. -/
def transcribed (s : State) (tr : Bytes) : State := putSpdm s { spdm s with trB := tr }

theorem transcribed_sessions (s : State) (tr : Bytes) : (spdm (transcribed s tr)).sessions = (spdm s).sessions := rfl

theorem doDigests_done {s : State} {r : SpdmReq} (hdone : (spdm s).phase = 3 ∧ r.ver.toNat = (spdm s).ver) :
    doDigests s r = (rspMsg s 0x01 (if is13 s then 3 else 0) 3 (sha384 (slotChain 0) ++ sha384 (slotChain 1)),
      transcribed s (reqMsg 0x81 r
        ++ rspMsg s 0x01 (if is13 s then 3 else 0) 3 (sha384 (slotChain 0) ++ sha384 (slotChain 1)))) :=
  negotiated_done _ hdone

/-- R623: the answer to GET_CERTIFICATE: the part `p` of a chain `c` from `off` on, and what remains. -/
def certificateRsp (s : State) (slot off : Nat) (c p : Bytes) : Bytes :=
  rspMsg s 0x02 slot 0 (leBytes 2 p.length ++ leBytes 2 (c.length - off - p.length) ++ p)

/-- The part of a chain that a request asks for. -/
def certificatePart (r : SpdmReq) : Bytes :=
  ((slotChain (r.p1.toNat % 16)).drop (leAt r.body 0 2)).take (leAt r.body 2 2)

theorem doCertificate_part {s : State} {r : SpdmReq} (hdone : (spdm s).phase = 3 ∧ r.ver.toNat = (spdm s).ver)
    (hslot : r.p1.toNat % 16 < 2) (hlen : 4 ≤ r.body.length) (hoff : leAt r.body 0 2 < 4) : ∃ tr, doCertificate s r =
      (certificateRsp s (r.p1.toNat % 16) (leAt r.body 0 2) (slotChain (r.p1.toNat % 16)) (certificatePart r),
        transcribed s tr) := by
  have inside : leAt r.body 0 2 < (slotChain (r.p1.toNat % 16)).length := Nat.lt_of_lt_of_le hoff (four_le_slotChain _)
  have good : ¬ (!slotOk (r.p1.toNat % 16) || r.body.length < 4
      || (slotChain (r.p1.toNat % 16)).length ≤ leAt r.body 0 2) = true := by
    simp [slotOk_of_lt hslot, hlen, inside]
  exact ⟨_, (negotiated_done _ hdone).trans (if_neg good)⟩

/-- The state once the nonce of an answer is drawn. -/
def nonceDrawn (s : State) : State := (s.freeBytes 32).2

/-- R623: the answer to CHALLENGE, before its signature. -/
def challengeRsp (s : State) (r : SpdmReq) : Bytes :=
  rspMsg s 0x03 r.p1.toNat 3 (sha384 (slotChain r.p1.toNat) ++ (s.freeBytes 32).1 ++ measSummary s r.p2.toNat ++ [0, 0]
    ++ context13 s r 32)

/-- R623: what the signature of a CHALLENGE's answer covers. -/
def challengeText (s : State) (r : SpdmReq) : Bytes := (spdm s).vca ++ (spdm s).trB ++ reqMsg 0x83 r ++ challengeRsp s r

/-- R623: the signature of a CHALLENGE's answer. -/
def challengeSigned (s : State) (r : SpdmReq) : Bytes × State :=
  spdmSign (nonceDrawn s) r.p1.toNat "responder-challenge_auth signing" (challengeText s r)

theorem doChallenge_signs {s : State} {r : SpdmReq} (hdone : (spdm s).phase = 3 ∧ r.ver.toNat = (spdm s).ver)
    (hclear : r.sess = none) (hslot : r.p1.toNat < 2) (hlen : 32 ≤ r.body.length) : doChallenge s r =
      (challengeRsp s r ++ (challengeSigned s r).1, transcribed (challengeSigned s r).2 []) := by
  have good : ¬ (!slotOk r.p1.toNat || r.body.length < 32) = true := by simp [slotOk_of_lt hslot, hlen]
  exact (outside_done _ hdone hclear).trans (if_neg good)

/-- A signature draws one secret; it is made over the text in the version that stands. -/
theorem challengeSigned_eq (s : State) (r : SpdmReq) : ∃ k, (challengeSigned s r).1 =
    ecdsaSign (slotKey r.p1.toNat) (1 + k % (p384n - 1))
      (signedText s "responder-challenge_auth signing" (challengeText s r)) := ⟨_, rfl⟩

theorem challengeSigned_sessions (s : State) (r : SpdmReq) :
    (spdm (challengeSigned s r).2).sessions = (spdm s).sessions := rfl

/-- R624: the answer to GET_MEASUREMENTS for the one block `n`, without a signature. -/
def measurementRsp (s : State) (r : SpdmReq) (n : Nat) : Bytes :=
  rspMsg s 0x60 0 0 ([1] ++ leBytes 3 (measBlock s n).length ++ measBlock s n ++ (s.freeBytes 32).1 ++ [0, 0]
    ++ context13 s r 0)

/-- What the responder holds after measurements went out unsigned. -/
def measured (s : State) (r : SpdmReq) (rsp : Bytes) : State :=
  putSpdm (nonceDrawn s) { spdm s with trL := (spdm s).trL ++ reqMsg 0xE0 r ++ rsp }

theorem doMeasurements_one {s : State} {r : SpdmReq} (hdone : (spdm s).phase = 3 ∧ r.ver.toNat = (spdm s).ver)
    (hplain : bit r.p1.toNat 0 = false) (hlow : 1 ≤ r.p2.toNat) (hhigh : r.p2.toNat ≤ 6) : doMeasurements s r =
      (measurementRsp s r r.p2.toNat, measured s r (measurementRsp s r r.p2.toNat)) := by
  have some : r.p2.toNat ≠ 0 := by omega
  have one : r.p2.toNat ≠ 0xFF := by omega
  unfold doMeasurements
  rw [negotiated_done _ hdone]
  simp only [hplain, some, one, Bool.false_eq_true, if_false, Nat.not_lt.mpr hhigh, decide_false, Bool.false_and,
    Bool.or_false, slotOk_of_lt (by decide : 0 < 2), Bool.not_true, List.flatMap_cons, List.flatMap_nil, List.append_nil]
  rfl

/-- Settles O58: each request by its own function; before the negotiation is done all are refused alike. -/
theorem spdmIdentity : Obligations.SpdmIdentity := by
  unfold Obligations.SpdmIdentity
  refine ⟨?digests, ?early, ?certificate, ?challenge, ?measurements⟩
  case digests =>
    intro r s runs hclear hdone
    exact does_spdmClear runs hclear rfl (doDigests_done hdone) ⟨_, rfl, transcribed_sessions s _⟩
  case early =>
    intro r s runs hclear hphase
    exact does_spdmClear runs hclear rfl (negotiated_early _ hphase) rfl
  case certificate =>
    rintro c p off r s runs hclear hdone ⟨hslot, rfl, hlen⟩ ⟨rfl, hoff, rfl⟩
    obtain ⟨tr, e⟩ := doCertificate_part hdone hslot hlen hoff
    exact does_spdmClear runs hclear rfl e ⟨_, rfl, transcribed_sessions s tr⟩
  case challenge =>
    rintro q r s runs hclear hdone ⟨hslot, hlen⟩ rfl
    obtain ⟨k, hsig⟩ := challengeSigned_eq s r
    refine does_spdmClear runs hclear rfl (doChallenge_signs hdone hclear hslot hlen)
      ⟨k, transcribed (challengeSigned s r).2 [], ?_, rfl, challengeSigned_sessions s r⟩
    rw [hsig]
    rfl
  case measurements =>
    rintro q m r s runs hclear hdone ⟨hplain, hlow, hhigh⟩ rfl rfl
    exact does_spdmClear runs hclear rfl (doMeasurements_one hdone hplain hlow hhigh) ⟨_, rfl, rfl⟩

end Sys2Proof.Machine
end

section
/-! The SPDM responder: sessions (O59). -/

namespace Sys2Proof.Machine

open Sys2Proof

/-! ### The sessions of the responder -/

theorem sessOf_putSess (s : State) (x : Sess) : sessOf (putSess s x) x.id = some x := by
  have others : ((spdm s).sessions.filter (fun y => y.id ≠ x.id)).filter (fun y => y.id == x.id) = [] := by
    simp [List.filter_filter]
  change (((spdm s).sessions.filter (fun y => y.id ≠ x.id) ++ [x]).filter (fun y => y.id == x.id)).head? = _
  rw [List.filter_append, others]
  simp

theorem sessOf_dropSess (s : State) (id : Nat) : sessOf (dropSess s id) id = none := by
  change (((spdm s).sessions.filter (fun y => y.id ≠ id)).filter (fun y => y.id == id)).head? = _
  simp [List.filter_filter]

theorem sessOf_id {s : State} {id : Nat} {x : Sess} (h : sessOf s id = some x) : x.id = id := by
  have mem := List.mem_of_mem_head? h
  simpa using (List.mem_filter.mp mem).2

/-- A session that ends takes its last message with it. -/
theorem mctpSend_last {s : State} {i : BitVec 32} {x : Sess} (ty : Nat) (b : Bytes) (h : sessOf s i.toNat = some x)
    (hends : x.next = .ends) : sessOf (mctpSend s (some i) ty b) i.toNat = none := by
  have e : mctpSend s (some i) ty b = dropSess (s.emit (.mctp (0x06 :: secured x (byteOf ty :: b)))) x.id := by
    unfold mctpSend afterSend
    simp only [h, hends]
  rw [e, sessOf_id h]
  exact sessOf_dropSess _ _

/-! ### KEY_EXCHANGE -/

theorem doKeyExchange_refused {s : State} {r : SpdmReq} (hdone : (spdm s).phase = 3 ∧ r.ver.toNat = (spdm s).ver)
    (hclear : r.sess = none) (hnone : (ownerSpdm s).all (· == 0) = true) :
    doKeyExchange s r = (errMsg s eUnsupported 0xE4, s) := (outside_done _ hdone hclear).trans (if_pos hnone)

/-- R623: the heartbeat period asked of a requester. -/
def periodAsked (s : State) : Nat := if bit (spdm s).flags 13 then 30 else 0

theorem doKeyExchange_opens {s : State} {r : SpdmReq} (hdone : (spdm s).phase = 3 ∧ r.ver.toNat = (spdm s).ver)
    (hclear : r.sess = none) (howned : (ownerSpdm s).all (· == 0) = false) (hslot : r.p2.toNat < 2)
    (hlen : 134 ≤ r.body.length) (hcurve : onCurve (pointOf (slice r.body 36 96)) = true) :
    ∃ (u : State) (x : Sess) (m : Bytes), doKeyExchange s r = (rspMsg s 0x64 (periodAsked s) 0 m, putSess u x)
      ∧ x.id = leAt r.body 0 2 + 65536 * (((spdm s).nextSess + 1) % 65536) ∧ x.est = false ∧ x.peer = none
      ∧ (spdm u).nextSess = ((spdm s).nextSess + 1) % 65536 := by
  have good : ¬ (!slotOk r.p2.toNat || r.body.length < 134 || !onCurve (pointOf (slice r.body 36 96))) = true := by
    simp [slotOk_of_lt hslot, hlen, hcurve]
  refine ⟨_, _, _, (outside_done _ hdone hclear).trans ((if_neg (ne_true_of_eq_false howned)).trans ((if_neg good).trans rfl)),
    rfl, rfl, rfl, rfl⟩

theorem slice_rspMsg (s : State) (code p1 p2 : Nat) (b : Bytes) :
    slice (rspMsg s code p1 p2 b) 0 4 = [byteOf (spdmVer s), byteOf code, byteOf p1, byteOf p2] := rfl

/-! ### The handshake -/

/-- R625: the session `x` with the part of the chain that a delivery carries. -/
def partTaken (x : Sess) (r : SpdmReq) : Sess :=
  { x with chain := x.chain ++ slice r.body 8 (leAt r.body 4 2), encap := x.encap % 255 + 1 }

/-- R625: what a FINISH is signed over. -/
def finishText (x : Sess) (r : SpdmReq) : Bytes :=
  x.th ++ sha384 x.chain ++ [byteOf r.ver.toNat, 0xE5, byteOf r.p1.toNat, byteOf r.p2.toNat]

/-- R625: the signature and the verify data of a FINISH are those of the requester with key `pub`. -/
def finishGood (s : State) (x : Sess) (pub : Bytes) (r : SpdmReq) : Prop :=
  ecdsaVerify pub (signedText s "requester-finish signing" (finishText x r)) (slice r.body 0 96) = true
    ∧ hmac384 x.reqFin (sha384 (finishText x r ++ slice r.body 0 96)) = slice r.body 96 48

/-- R623: key and IV of the messages to the requester once the session is established. -/
def finishKeys (s : State) (x : Sess) (r : SpdmReq) : Bytes × Bytes :=
  dirKeys s (expand s (hmac384 (expand s x.hs "derived" [] 48) (List.replicate 48 0)) "rsp app data"
    (sha384 (finishText x r ++ r.body.take 144 ++ rspMsg s 0x65 0 0 [])) 48)

theorem askChain_whole (s : State) (x : Sess) :
    askChain s { x with chain := [] } = [byteOf (spdmVer s), 0x82, 0, 0, 0, 0] ++ leBytes 2 0xFFFF := by
  have zeros : leBytes 2 0 = [0, 0] := rfl
  unfold askChain
  rw [List.length_nil, zeros]
  rfl

section Handshake
variable {s : State} {r : SpdmReq} {i : BitVec 32} {x : Sess} (hdone : (spdm s).phase = 3 ∧ r.ver.toNat = (spdm s).ver)
  (hsess : r.sess = some i ∧ sessOf s i.toNat = some x)
include hdone hsess

theorem doGetEncap_asks (hest : x.est = false) : doGetEncap s r = (rspMsg s 0x6A 1 0 (askChain s { x with chain := [] }),
    putSess s { x with encap := 1, chain := [] }) := within_done hdone hsess hest _

theorem doDeliver_part (hest : x.est = false) (hencap : x.encap ≠ 0 ∧ r.p1.toNat = x.encap) (hcode : byteAt r.body 1 = 0x02)
    (hmore : leAt r.body 6 2 ≠ 0) : doDeliver s r =
      (rspMsg s 0x6B (partTaken x r).encap 1 ([byteOf r.p1.toNat, 0, 0, 0] ++ askChain s (partTaken x r)),
        putSess s (partTaken x r)) := by
  obtain ⟨hasked, hsame⟩ := hencap
  refine (within_done hdone hsess hest _).trans ?_
  simp only [hasked, hsame, hcode, hmore, ne_eq, not_true_eq_false, not_false_eq_true, decide_false, Bool.or_false,
    Bool.false_eq_true, if_false, if_true]
  rfl

theorem doDeliver_last (hest : x.est = false) (hencap : x.encap ≠ 0 ∧ r.p1.toNat = x.encap) (hcode : byteAt r.body 1 = 0x02)
    (hlast : leAt r.body 6 2 = 0) : doDeliver s r =
      if chainAccepted s (partTaken x r).chain then
        (rspMsg s 0x6B 0 2 [byteOf r.p1.toNat, 0, 0, 0, 0], putSess s { partTaken x r with
          encap := 0, peer := some (Config.leafKey ((partTaken x r).chain.drop 52)) })
      else failSess s (partTaken x r) eInvalid := by
  obtain ⟨hasked, hsame⟩ := hencap
  refine (within_done hdone hsess hest _).trans ?_
  simp only [hasked, hsame, hcode, hlast, ne_eq, not_true_eq_false, decide_false, Bool.or_false, Bool.false_eq_true, if_false]
  rfl

theorem doFinish_unknown (hest : x.est = false) (hpeer : x.peer = none) : doFinish s r = failSess s x eInvalid := by
  refine (within_done hdone hsess hest _).trans ?_
  simp only [hpeer]

/-- R625: a FINISH with a signature by the requester's key, and verify data that match. -/
theorem doFinish_accepts (hest : x.est = false) {pub : Bytes} (hpeer : x.peer = some pub) (hsigned : bit r.p1.toNat 0 = true)
    (hgood : finishGood s x pub r) : ∃ k v, doFinish s r =
      (rspMsg s 0x65 0 0 [], putSess s { x with est := true, next := .keys k v }) := by
  obtain ⟨hsig, hmac⟩ := hgood
  unfold finishText at hsig hmac
  refine ⟨(finishKeys s x r).1, (finishKeys s x r).2, (within_done hdone hsess hest _).trans ?_⟩
  simp only [hpeer, hsigned, hsig, hmac, Bool.not_true, ne_eq, not_true_eq_false, decide_false, Bool.or_false,
    Bool.false_eq_true, if_false]
  rfl

theorem doFinish_rejects (hest : x.est = false) {pub : Bytes} (hpeer : x.peer = some pub) (hbad : ¬ finishGood s x pub r) :
    doFinish s r = failSess s x eDecrypt := by
  refine (within_done hdone hsess hest _).trans ?_
  have bad : (!bit r.p1.toNat 0
      || !ecdsaVerify pub (signedText s "requester-finish signing" (finishText x r)) (slice r.body 0 96)
      || decide (hmac384 x.reqFin (sha384 (finishText x r ++ slice r.body 0 96)) ≠ slice r.body 96 48)) = true := by
    by_cases hsig : ecdsaVerify pub (signedText s "requester-finish signing" (finishText x r)) (slice r.body 0 96) = true
    · have hmac : hmac384 x.reqFin (sha384 (finishText x r ++ slice r.body 0 96)) ≠ slice r.body 96 48 :=
        fun h => hbad ⟨hsig, h⟩
      simp only [hmac, ne_eq, not_false_eq_true, decide_true, Bool.or_true]
    · simp only [hsig, Bool.not_false, Bool.or_true, Bool.true_or]
  unfold finishText at bad
  simp only [hpeer, bad, if_true]

theorem doHeartbeat_answers (hest : x.est = true) (hperiod : x.period ≠ 0) : doHeartbeat s r = (rspMsg s 0x68 0 0 [], s) :=
  (within_done hdone hsess hest _).trans (if_neg hperiod)

theorem doEndSession_ends (hest : x.est = true) :
    doEndSession s r = (rspMsg s 0x6C 0 0 [], putSess s { x with next := .ends }) := within_done hdone hsess hest _

end Handshake

/-- R623: the end of a session leaves none under its number. -/
theorem respond_ends {s : State} {i : BitVec 32} {x : Sess} (hx : sessOf s i.toNat = some x) {code p1 p2 : Nat}
    (hroom : (spdm s).xfer = 0 ∨ 4 ≤ (spdm s).xfer) : sessOf (respond (putSess s { x with next := .ends }) (some i)
      (rspMsg s code p1 p2 [])) i.toNat = none := by
  have ended : sessOf (putSess s { x with next := .ends }) i.toNat = some { x with next := .ends } := by
    rw [← sessOf_id hx]
    exact sessOf_putSess s { x with next := .ends }
  have short : (spdm (putSess s { x with next := .ends })).xfer = 0
      ∨ (rspMsg s code p1 p2 []).length ≤ (spdm (putSess s { x with next := .ends })).xfer := hroom
  rw [respond_short (some i) short]
  exact mctpSend_last _ _ ended rfl

theorem sessionExpiry_drops {s : State} {id : Nat} {x : Sess} (hx : sessOf s id = some x) (hest : x.est = true)
    (hperiod : x.period ≠ 0) : sessionExpiry s id = dropSess s id := by
  unfold sessionExpiry
  simp [hx, hest, hperiod]

/-- Settles O59: each request of a handshake or a session by its own function. -/
theorem spdmSessions : Obligations.SpdmSessions := by
  unfold Obligations.SpdmSessions
  refine ⟨?refused, ?opens, ?asks, ?deliverLast, ?deliverPart, ?finishUnknown, ?finish, ?heartbeat, ?ends, ?expiry⟩
  case refused =>
    intro r s runs hclear hdone hnone
    exact does_spdmClear runs hclear rfl (doKeyExchange_refused hdone hclear hnone) rfl
  case opens =>
    rintro n r s runs hclear hdone howned ⟨hslot, hlen, hcurve⟩ rfl
    obtain ⟨u, x, m, e, hid, hest, hpeer, hnext⟩ := doKeyExchange_opens hdone hclear howned hslot hlen hcurve
    refine does_spdmClear runs hclear rfl e
      ⟨putSess u x, x, _, rfl, sessOf_putSess u x, hid, hest, hpeer, hnext, ?_⟩
    rw [slice_rspMsg, spdmVer_negotiated hdone.1 (by decide), periodAsked]
    split <;> rfl
  case asks =>
    intro i x r s runs hsess hdone hest
    refine does_spdmSession runs hsess rfl (doGetEncap_asks hdone hsess hest) ?_
    rw [askChain_whole]
  case deliverLast =>
    rintro i x y r s runs hsess hdone hest ⟨hasked, hsame, hcode, hlast⟩ rfl
    refine does_spdmSession runs hsess rfl (Prod.eta _).symm ?_
    rw [doDeliver_last hdone hsess hest ⟨hasked, hsame⟩ hcode hlast, byteOf_toNat]
    unfold partTaken
    split <;> rfl
  case deliverPart =>
    rintro i x y r s runs hsess hdone hest ⟨hasked, hsame, hcode, hmore⟩ rfl
    refine does_spdmSession runs hsess rfl (doDeliver_part hdone hsess hest ⟨hasked, hsame⟩ hcode hmore) ?_
    rw [byteOf_toNat]
    rfl
  case finishUnknown =>
    intro i x r s runs hsess hdone hest hpeer
    exact does_spdmSession runs hsess rfl (doFinish_unknown hdone hsess hest hpeer) rfl
  case finish =>
    rintro i x pub m r s runs hsess hdone hest ⟨hpeer, hsigned⟩ rfl
    by_cases hgood : finishGood s x pub r
    · obtain ⟨k, v, e⟩ := doFinish_accepts hdone hsess hest hpeer hsigned hgood
      obtain ⟨hsig, hmac⟩ := hgood
      unfold finishText at hsig hmac
      refine does_spdmSession runs hsess rfl e ?_
      rw [if_pos ⟨hsig, hmac⟩]
      exact ⟨k, v, rfl⟩
    · refine does_spdmSession runs hsess rfl (doFinish_rejects hdone hsess hest hpeer hgood) ?_
      unfold finishGood finishText at hgood
      rw [if_neg hgood]
  case heartbeat =>
    intro i x r s runs hsess hdone hest hperiod
    exact does_spdmSession runs hsess rfl (doHeartbeat_answers hdone hsess hest hperiod) rfl
  case ends =>
    intro i x r s runs hsess hdone hest hroom
    refine does_spdmSession runs hsess rfl (doEndSession_ends hdone hsess hest) ⟨rfl, ?_⟩
    obtain ⟨hid, hx⟩ := hsess
    rw [hid]
    exact respond_ends hx hroom
  case expiry =>
    rintro i x s runs hx ⟨hest, hperiod⟩
    refine does_byFirmware runs (f := fun s => .next (sessionExpiry s i.toNat)) rfl ⟨_, rfl, ?_⟩
    rw [sessionExpiry_drops hx hest hperiod]
    exact ⟨rfl, sessOf_dropSess s i.toNat⟩

end Sys2Proof.Machine
end
